-- ==== Sys2Proof/Word.lean ====
section
/-!
DEFINITION. Word.lean: the bit-vector types of the block. Registers are 32 bits wide (R5), buffer memory
and the pair registers are addressed in 64-bit words, and memory cells are bytes.
-/

namespace Sys2Proof

/-- A register of BAR0 (R5). -/
abbrev Word := BitVec 32

/-- A 64-bit value: a register pair (R8), an Obkin register, a buffer-memory data word. -/
abbrev DWord := BitVec 64

/-- A byte of memory. -/
abbrev Byte := BitVec 8

/-- A stamp of the device-wide time base, in ticks of 1.5 GHz (R20). The counter is 64 bits wide; the
model keeps stamps as numbers below 2^64, because the spec compares them and never masks them. -/
abbrev Stamp := Nat

/-- The count of the time base at which it wraps (R20). -/
def stampModulus : Nat := 2 ^ 64

end Sys2Proof
end

