-- ==== Sys2Proof/Machine/Bits.lean ====
section
/-!
DEFINITION. Machine/Bits.lean: bit fields of a register, sign extension, and the byte order of multi-byte
values (little-endian, R5).
-/

namespace Sys2Proof.Machine

/-- The place of a field in a register: bits [hi:lo]. -/
structure FieldPos where
  hi : Nat
  lo : Nat
  deriving DecidableEq, Repr

/-- The width of a field in bits. -/
def FieldPos.width (p : FieldPos) : Nat := p.hi + 1 - p.lo

/-- Bits [hi:lo] of a number. -/
def natBits (v hi lo : Nat) : Nat := (v / 2 ^ lo) % 2 ^ (hi + 1 - lo)

/-- The value of a field of a word. -/
def getField (w : Word) (p : FieldPos) : Nat := natBits w.toNat p.hi p.lo

/-- A word with one field replaced by the low bits of v. -/
def setField (w : Word) (p : FieldPos) (v : Nat) : Word :=
  BitVec.ofNat 32
    (w.toNat - getField w p * 2 ^ p.lo + (v % 2 ^ p.width) * 2 ^ p.lo)

/-- A field read as a flag. -/
def getFlag (w : Word) (p : FieldPos) : Bool := getField w p != 0

/-- The number a flag stands for in a register bit. -/
def bitOf (b : Bool) : Nat := if b then 1 else 0

/-- The value of the low `width` bits of v read as two's complement. -/
def toSigned (v width : Nat) : Int :=
  let m := v % 2 ^ width
  if 2 * m < 2 ^ width then (m : Int) else (m : Int) - (2 ^ width : Nat)

/-- The two's complement of an integer in `width` bits. -/
def ofSigned (v : Int) (width : Nat) : Nat := (v % (2 ^ width : Nat)).toNat

/-- An integer held within a closed range. -/
def clampInt (lo hi v : Int) : Int := if v < lo then lo else if hi < v then hi else v

/-- A number held within a closed range. -/
def clampNat (lo hi v : Nat) : Nat := if v < lo then lo else if hi < v then hi else v

/-- A counter that stops at its greatest value. -/
def satAdd (limit a b : Nat) : Nat := min limit (a + b)

/-- Bit k of a number. -/
def testBitN (v k : Nat) : Bool := v / 2 ^ k % 2 == 1

/-- A number with bit k made 1. -/
def setBitN (v k : Nat) : Nat := if testBitN v k then v else v + 2 ^ k

/-- A number with bit k made 0. -/
def clearBitN (v k : Nat) : Nat := if testBitN v k then v - 2 ^ k else v

/-- How many of the low n bits of v are 1. -/
def popCount (n v : Nat) : Nat :=
  match n with
  | 0 => 0
  | m + 1 => v % 2 + popCount m (v / 2)

/-- The bytes of a number, least significant first (R5). -/
def bytesLE (n v : Nat) : List Byte :=
  match n with
  | 0 => []
  | m + 1 => BitVec.ofNat 8 v :: bytesLE m (v / 256)

/-- The number that bytes spell, least significant first (R5). -/
def ofBytesLE : List Byte → Nat
  | [] => 0
  | b :: bs => b.toNat + 256 * ofBytesLE bs

/-- Division rounded up. -/
def ceilDiv (a b : Nat) : Nat := (a + b - 1) / b

/-- Integer division that rounds towards minus infinity. -/
def floorDiv (a b : Int) : Int := Int.fdiv a b

/-- Division to the nearest integer, a half away from zero. -/
def roundDiv (a b : Int) : Int :=
  if 0 ≤ a then Int.fdiv (2 * a + b) (2 * b) else - Int.fdiv (2 * (-a) + b) (2 * b)

/-- The elements of a list, each with its index. -/
def indexed {α : Type} (l : List α) : List (Nat × α) := (List.range l.length).zip l

end Sys2Proof.Machine
end

