-- ==== Sys2Proof/Machine/State/Time.lean ====
section
/-!
DEFINITION. Machine/State/Time.lean: the state of the time base, the event crossings, the event log merger
and ring, the MSI-X tables, and the power and service state of the islands (chapters 1, 2 and 17).
-/

namespace Sys2Proof.Machine

/-- The islands that take stamps (Table 2-1), in the bit order of TB_STAMP_FAULT (Table 2-7). -/
inductive Island where
  | head (n : Fin 16) | decode | memory | host | control | motor | security
  deriving DecidableEq, Repr

/-- One event record (Table 17-3): bit 15 of the source field is the late bit, kept apart. -/
structure EventRec where
  stamp : Stamp
  code  : Nat
  src   : Nat
  late  : Bool
  a0    : Nat
  a1    : Nat
  a2    : Nat
  a3    : Nat
  deriving DecidableEq, Repr

/-- The crossing from one event source to the merger: the records in it, oldest first, and what the
source has dropped since its last events-lost record (R27). -/
structure EventXing where
  queue     : List EventRec
  lost      : Nat
  firstLost : Stamp
  lastLost  : Stamp
  deriving DecidableEq, Repr

/-- A distribution-error substitution of an island: the tick of the last bad sample, the value used in its
place, and how many bad samples have come one after another (R23). -/
structure DistState where
  tick : Stamp
  used : Nat
  run  : Nat
  deriving DecidableEq, Repr

/-- The time base and its distribution (R20 to R23). -/
structure TimeState where
  /-- the 64-bit counter -/
  tb        : Stamp
  /-- the PLL has reported lock since power-on reset -/
  started   : Bool
  /-- tick of entry to holdover -/
  holdSince : Option Stamp
  /-- in holdover, the tick from which the reference has been present again -/
  refSince  : Option Stamp
  /-- the distribution state of each island, by its TB_STAMP_FAULT bit -/
  dist      : List (Nat × DistState)
  deriving DecidableEq, Repr

/-- The event log merger and its ring (R28, R29, R355). -/
structure EventState where
  /-- the crossing of each source, by source number: a source with nothing in it is not listed -/
  xing    : List (Nat × EventXing)
  /-- records at the merger, in order of arrival -/
  held    : List EventRec
  /-- the ring's written records by slot -/
  ring    : List (Nat × EventRec)
  deriving DecidableEq, Repr

/-- One MSI-X table entry (R19). -/
structure MsixEntry where
  addr   : Nat
  data   : Nat
  masked : Bool
  deriving DecidableEq, Repr

/-- The MSI-X table and pending bits of one function (R19, R258): an entry not listed is as reset left it. -/
structure MsixState where
  table   : List (Nat × MsixEntry)
  pending : List Nat
  deriving DecidableEq, Repr

/-- Where a domain stands in its power-up (R346). -/
inductive DomainPhase where
  /-- switch open -/
  | off
  /-- due, waiting for a supply group since this tick -/
  | waiting (due : Stamp)
  /-- switch closed at this tick -/
  | settling (closed : Stamp)
  /-- powered, isolation, reset and clock released -/
  | up
  /-- left off -/
  | failed
  /-- switch opened after a first failure at this tick, to be tried again 1 ms later -/
  | retryAt (opened : Stamp)
  deriving DecidableEq, Repr

/-- One of PD0 to PD18 (Table 1-9). -/
structure Domain where
  phase    : DomainPhase
  attempts : Nat
  deriving DecidableEq, Repr

/-- How a head came to leave service (Table 17-7, event 0x1001). -/
inductive LeaveCause where
  | request | stampFault | powerLost
  deriving DecidableEq, Repr

/-- A head that is leaving service under R352. -/
structure Leaving where
  since : Stamp
  cause : LeaveCause
  alive : Bool
  deriving DecidableEq, Repr

/-- Input pins whose level and time the spec judges: LASER_INH_N (R160, R161). -/
structure Pins where
  /-- LASER_INH_N is low -/
  inhLow   : Bool
  /-- tick of its last change -/
  inhSince : Stamp
  deriving DecidableEq, Repr

/-- Which of the image slots the boot ROM chose (R336, R337), and what the stages hold. -/
structure BootState where
  /-- tick from which the present boot is measured: the lock, or the release of PERST_N -/
  since     : Stamp
  /-- the slot whose image runs, 0 for none -/
  slot      : Nat
  /-- the boot has ended its stage 1 without an image (R337) -/
  noImage   : Bool
  /-- PERST_N is asserted -/
  perst     : Bool
  /-- the link is bifurcated into two functions (the configuration record), which does not change without a power-on reset
  once a record has been applied -/
  bifurcated : Bool
  applied   : Bool
  /-- the zero fill of a boot without image is running -/
  filling   : Bool
  /-- the supply groups that a power-up waited for in vain (0 CORE, 1 MEM, 2 SER) -/
  deadGroups : List Nat
  deriving DecidableEq, Repr

end Sys2Proof.Machine
end

