-- ==== Sys2Proof/Machine/State/Head.lean ====
section
/-!
DEFINITION. Machine/State/Head.lean: the state of one head island: the flywheel and address of chapter 3, the
Teant link of chapter 4, the beam channels and ingest buffer of chapter 5, the write path of chapter 7, the
pass and its hem (R32 to R35), and the head instructions in progress (R234 to R237).
-/

namespace Sys2Proof.Machine

/-- Who waits for an asynchronous instruction: the bobbin, its tag (R229), and the epoch it was issued in (R241). -/
structure Waiter where
  bobbin : Fin 24
  tag    : Nat
  epoch  : Nat
  deriving DecidableEq, Repr

/-! ## Chapter 3: flywheel and address -/

/-- One accepted servo frame: its index 496·revolution + frame, and its centre stamp in half ticks (R42, R45). -/
structure FlyFrame where
  idx : Nat
  tc2 : Nat
  deriving DecidableEq, Repr

/-- The tag of a servo frame (R43). -/
inductive Tag where
  | none | short | marker
  deriving DecidableEq, Repr

/-- An address word as read (R43). -/
structure AddrWord where
  word  : Nat
  layer : Nat
  track : Nat
  deriving DecidableEq, Repr

/-- The flywheel of a head island (R43, R45). READY, ADDR_OK, MISS_RUN, LOST_SEEN stand in HD_FLY_STATUS. -/
structure Flywheel where
  /-- the last accepted frames, newest first, at most nine -/
  frames   : List FlyFrame
  /-- tags read, newest first, at most 31, with the frame index -/
  tags     : List (Nat × Tag)
  /-- the first of the two consecutive words that an acceptance needs -/
  firstWord : Option AddrWord
  /-- expected layer and track, once an address has been accepted -/
  expected : Option (Nat × Nat)
  /-- offset y of the last frame with both crossings, in 1/8 nm, with its stamp in half ticks (R42) -/
  offset   : Option (Int × Nat)
  /-- index of the next servo frame expected -/
  nextIdx  : Nat
  /-- the last revolution whose opening seam has been acted on -/
  seamRev  : Nat
  /-- what is added to a frame's running number to give its index, once an accepted word has located the seam (R43) -/
  origin   : Nat
  /-- ticks at which READY last rose and last fell (R45) -/
  readyFrom : Stamp
  lostFrom  : Stamp
  deriving DecidableEq, Repr

/-! ## Chapter 4: the Teant link -/

/-- Table 4-8. -/
inductive LinkState where
  | down | train | up | degraded | fault
  deriving DecidableEq, Repr

/-- Lane states of TL_STATUS.LANE_ST (Table 4-13). -/
inductive LaneState where
  | off | training | active | failed
  deriving DecidableEq, Repr

/-- A 66-bit block as received: sync header and unscrambled payload (R54). -/
structure Block where
  sync    : Nat
  payload : Nat
  deriving DecidableEq, Repr

/-- A frame header (Table 4-2). -/
structure FrameHdr where
  sync  : Nat
  type  : Nat
  lane  : Nat
  state : Nat
  fcnt  : Nat
  crc   : Nat
  deriving DecidableEq, Repr

/-- The frame in progress on a lane: its header, its blocks, and the side blocks held until it verifies. -/
structure LaneFrame where
  hdr    : FrameHdr
  blocks : List Block
  c0     : Stamp
  deriving DecidableEq, Repr

/-- One up lane as the SX16 keeps it (R65, R76, R77). -/
structure Lane where
  st        : LaneState
  /-- the frame whose verification waits for the next header -/
  cur       : Option LaneFrame
  /-- the frame count that the next header must carry, once one has come (R65) -/
  next      : Option Nat
  /-- errors in the present window, and the tick at which the window began -/
  errs      : Nat
  winStart  : Stamp
  /-- invalid sync headers among the last 64 blocks, newest first -/
  syncBad   : List Bool
  latUp     : Nat
  /-- frames passed one after another since the retrain's PRBS ended -/
  goodRun   : Nat
  attempts  : Nat
  /-- tick at which the lane left active, and the tick at which its PRBS began -/
  leftAt    : Option Stamp
  prbsAt    : Option Stamp
  deriving DecidableEq, Repr

/-- A downlink message (Table 4-6). -/
inductive Msg where
  | setpt (act : Nat) (val : Int)
  | wrate (inc : Nat)
  | wstart (mask : Nat) (stamp : Stamp)
  | wstop (mask : Nat) (stamp : Stamp)
  | strat (table : Nat) (bytes : List Nat)
  | align (a : Nat)
  | echo
  | lane (k act : Nat)
  | fewr (reg data : Nat)
  | ferd (reg : Nat)
  | safe
  | resume
  deriving DecidableEq, Repr

/-- A message that waits for a D0 frame. -/
structure QMsg where
  msg    : Msg
  queued : Stamp
  resend : Bool
  deriving DecidableEq, Repr

/-- A message kept until a STAT reports its D0 frame good (R73). -/
structure HeldMsg where
  msg   : Msg
  frame : Nat
  deriving DecidableEq, Repr

/-- What a payload position of a D0 frame carries (R69, R173): idle, a SETPT of a servo slot, a block of 16 write symbols,
or one block of a message. -/
inductive D0Slot where
  | idle
  | servo (m : Msg)
  | wdata (symbols : List Nat)
  | msg (m : Msg) (part : Nat)
  deriving DecidableEq, Repr

/-- A D0 frame (R58, R59, R69): its frame number, the sender's state, the CRC of the frame before it, and its 24 payload
positions. -/
structure D0Frame where
  frame : Nat
  state : Nat
  crc   : Nat
  slots : List D0Slot
  deriving DecidableEq, Repr

/-- The verified side blocks that wait for their step, oldest first (R63, R66). -/
structure SideBlock where
  kind  : Nat
  part  : Nat
  flags : Nat
  data  : Nat
  c0    : Stamp
  deriving DecidableEq, Repr

/-- How far a training attempt has come (Table 4-11). After the ALIGN leaves, up-lane content is ignored until frame lock
has returned on every lane; then 16 U0 headers are checked (R67, R68). -/
inductive TrainStep where
  | forwardClock | receiversAdapted | lanesLocked | echoSent | alignSent | relocking | checking (good : Nat)
  deriving DecidableEq, Repr

/-- A training or realignment in progress (R80, R371). -/
structure Training where
  t0       : Stamp
  realign  : Bool
  attempts : Nat
  step     : TrainStep
  /-- SAFE asked for while training (R370) -/
  safe     : Bool
  /-- D0 frames that carried an ECHO in this attempt, newest first -/
  echoes   : List Nat
  /-- the count A that the ALIGN sets, at the tick that it names (R67) -/
  alignAt  : Stamp
  /-- lanes in frame lock -/
  locked   : List Nat
  capSeen  : Bool
  deriving DecidableEq, Repr

/-- The link endpoint of a head. LINK_STATE and LANE_ST are here; TL_STATUS shows them. -/
structure Link where
  state    : LinkState
  /-- tick of entry to the present state, the state before it, and whether RETRAIN or REALIGN brought it (Table 4-9) -/
  since    : Stamp
  prev     : LinkState
  asked    : Bool
  lanes    : Vector Lane 4
  /-- the LANE value learnt for each receiver pair (R55) -/
  pairs    : Vector (Option (Fin 4)) 4
  /-- valid headers in a row on each receiver pair, with the LANE value that they carry -/
  runs     : Vector (Nat × Nat) 4
  /-- LANE messages applied or to be applied: apply tick, lane, and whether its side blocks move away, newest first (R61) -/
  moves    : List (Stamp × Nat × Bool)
  /-- forwarded sample clock n runs (R56, R78) -/
  clock    : Bool
  /-- the link has entered FAULT, or DOWN with its effects, and is not UP or DEGRADED with ALIGNED = 1 since (Table 8-6) -/
  faultHold : Bool
  training : Option Training
  /-- SETPTs of servo slots that found no position left in the frame under way (R173) -/
  servoQ   : List Msg
  /-- the D0 frame under way -/
  d0       : Option D0Frame
  /-- blocks that a servo SETPT has pushed out of a frame, first in the next one (R173) -/
  displaced : List D0Slot
  /-- state of D0's scrambler, the newest line bit in bit 0 (R54) -/
  scram    : Nat
  /-- messages that wait for a frame, in queue order -/
  queue    : List QMsg
  /-- messages kept until their frame is reported good -/
  held     : List HeldMsg
  /-- verified side blocks not yet acted on, oldest first -/
  side     : List SideBlock
  /-- messages that a REPLY may answer, in the order in which they left (R63) -/
  asks     : List HeldMsg
  /-- the last D0 frame launched -/
  lastD0   : Option Nat
  /-- WR_CORRUPT of the last verified STAT (R74) -/
  wrCorrupt : Bool
  /-- stamp of the last verified STAT's frame, for the 8-frame test -/
  lastStat : Option Stamp
  /-- front end last reported in its safe state by a verified STAT -/
  feSafe   : Bool
  /-- latest verified value of each housekeeping item, with the tick at which it verified -/
  hk       : List (Nat × (Nat × Stamp))
  /-- fixed latency between header arrival and c0 that R68 checks -/
  rt       : Nat
  /-- presentation delay P of R81 -/
  presDelay : Nat
  /-- frame numbers of D0 frames launched and not yet judged by a STAT, newest first -/
  sent     : List Nat
  /-- the latest spans of servo RF samples that verified and reached the chevron timer: first tick and the tick after the
  last, newest first (R63, R66) -/
  srf      : List (Stamp × Stamp)
  deriving DecidableEq, Repr

/-! ## Chapter 5: the beam channel -/

/-- The adaptive quantities of a beam channel in their own formats (Table 5-5). Taps run from c(-2) to c(12);
cross taps from w(-3) to w(+3). -/
structure Adaptive where
  gain   : Int
  offset : Int
  asym   : Int
  eq     : List Int
  xtIn   : List Int
  xtOut  : List Int
  trim   : Int
  decM   : Nat
  deriving DecidableEq, Repr

/-- What the zone table seeds and the channel does not adapt (Table 5-2). -/
structure Seeds where
  ampRef : Nat
  target : List Int
  lagIn  : Int
  lagOut : Int
  deriving DecidableEq, Repr

/-- One raw sample as it left deskew: stamp, value with 0x80 taken away, erased by a dropout, and found bad (R62, R66). -/
structure RawSample where
  stamp  : Stamp
  value  : Int
  drop   : Bool
  bad    : Bool
  deriving DecidableEq, Repr

/-- One decimated sample (R83), with its conditioned value (R88). -/
structure DecSample where
  stamp  : Stamp
  value  : Int
  z      : Int
  erased : Bool
  bad    : Bool
  /-- a sample of its group lies in a dropout -/
  drop   : Bool
  deriving DecidableEq, Repr

/-- One channel bit on its way through the detectors (R82, R92 to R95). -/
structure ChanBit where
  /-- data bit position on the track -/
  pos     : Nat
  /-- its instant, in 1/256 tick -/
  inst    : Int
  r       : Int
  q       : Int
  /-- target level of the basted decisions -/
  t       : Int
  erased  : Bool
  bad     : Bool
  /-- a sample that it used lies in a dropout -/
  drop    : Bool
  /-- in an admitted sector, met in a dropout or its guard, and counted under R97 -/
  live    : Bool
  held    : Bool
  counted : Bool
  basted  : Option Bool
  /-- the canceller's output, once formed -/
  y       : Option Int
  deriving DecidableEq, Repr

/-- How an interval stands (R99 to R105). -/
inductive IntervalFate where
  | live | passed | queued | replayed | softErased
  deriving DecidableEq, Repr

/-- One interval of an admitted sector (R98). Its settled soft values are none at an erased position; `drops` holds the
positions that a dropout erased. -/
structure Interval where
  sector     : Nat
  k          : Nat
  first      : Nat
  len        : Nat
  checkpoint : Adaptive
  fate       : IntervalFate
  forced     : Bool
  clamped    : Bool
  soft       : List (Option Int)
  drops      : List Nat
  deriving DecidableEq, Repr

/-- A beam's dropout (R107, R108). -/
structure Dropout where
  start : Stamp
  deriving DecidableEq, Repr

/-- A beam channel. -/
structure Beam where
  /-- in service for the open pass (R77) -/
  inService : Bool
  /-- admits again only from a sector whose window opens after this stamp (R77) -/
  rejoin    : Option Stamp
  adapt     : Adaptive
  seeds     : Seeds
  seeded    : Bool
  /-- raw samples not yet presented, oldest first, and the last 128 that arrived, newest first -/
  raw       : List RawSample
  recent    : List RawSample
  /-- the raw samples of the decimation group in progress, oldest first -/
  group     : List RawSample
  /-- the last 2,048 decimated samples, newest first (R84) -/
  ring      : List DecSample
  /-- position of the next instant after the newest ring entry, and the nominal increment, in 2^-32 decimated
  samples; 0 while the oscillator has no rate -/
  phase     : Int
  nominal   : Nat
  /-- the last 1,024 channel bits, newest first: the q ring of R84 and the settled path's memory -/
  bits      : List ChanBit
  /-- the settled detector's path metrics before the oldest of those bits, by state (R95) -/
  fwd       : List Int
  /-- position of the next channel bit, channel bits per unit of its band, and of the present acquisition -/
  pos       : Nat
  unit      : Nat
  acq       : Nat
  /-- the pass reads the next slot too, so that the sector runs on to its acquisition start (R91, R98) -/
  follows   : Bool
  sector    : Option Nat
  /-- unreleased intervals, oldest first -/
  intervals : List Interval
  dropout   : Option Dropout
  /-- end of the adaptation guard after a dropout, and whether acquisition gains follow it (R108) -/
  guard     : Option Stamp
  longDrop  : Bool
  /-- bits for which the acquisition gains still hold -/
  acqBits   : Nat
  /-- frozen by an unpick, and thawing at the next interval boundary after a soft erase (R100, R101) -/
  frozen    : Bool
  thaw      : Bool
  lastCheck : Adaptive
  deriving DecidableEq, Repr

/-- An entry of the head's replay queue or a running replay (R100, R102). -/
structure Replay where
  beam     : Nat
  /-- first data bit position of the interval -/
  first    : Nat
  sector   : Nat
  decided  : Stamp
  /-- ticks at which the rings overwrite the first sample and the first q that it needs -/
  needSample : Stamp
  needQ      : Stamp
  deriving DecidableEq, Repr

/-- A replay lane (R102): the entry it runs, the tick at which it ends, and what its run comes to: the end state, the
soft values of the interval, and whether a quantity was clamped. -/
structure ReplayLane where
  job  : Replay
  ends : Stamp
  adapt : Adaptive
  soft  : List (Option Int)
  clamped : Bool
  deriving DecidableEq, Repr

/-! ## Passes, hems and the head instructions -/

/-- The mode of a pass (Table 10-9). -/
inductive PassMode where
  | read | backstitch | verifyOnly
  deriving DecidableEq, Repr

/-- A pass descriptor (Table 10-9), its reserved fields apart. -/
structure PassDesc where
  layer     : Nat
  mode      : PassMode
  inward    : Bool
  writeBack : Bool
  runAhead  : Nat
  start     : Nat
  count     : Nat
  wbd       : Nat
  reloc     : Nat
  deriving DecidableEq, Repr

/-- The register values that a pass holds until its hem completes (R52, R114 and the head of the registers of
chapter 7). -/
structure PassCfg where
  fmt      : Nat
  sync     : Nat
  ch       : Nat
  adapt    : Nat
  timing   : Nat
  unpick   : Nat
  drop     : Nat
  dropMask : Nat
  wr       : Nat
  vfyRaw   : Nat
  zoneBase : Nat
  strat    : Nat
  /-- DC_RA_CFG: run-ahead bands, and the base of the run-ahead area (R132, R139) -/
  raBands  : Nat
  raBase   : Nat
  deriving DecidableEq, Repr

/-- A hem in progress (R33). -/
structure Hem where
  h        : Stamp
  cut      : Stamp
  forced   : Bool
  /-- step 4 has run -/
  withdrawn : Bool
  /-- the zone write-back asked for in step 5 is still on its way to memory -/
  writingBack : Bool
  /-- the HD.HEM instructions that complete with it -/
  waiters  : List Waiter
  deriving DecidableEq, Repr

/-- A relocation list entry in force for a band of the pass (R143). -/
structure Reloc where
  band    : Nat
  isVoid  : Bool
  track   : Nat
  slot    : Nat
  spTrack : Nat
  spSlot  : Nat
  deriving DecidableEq, Repr

/-- A slot entry of a write band descriptor as the head island holds it (Table 7-2). -/
structure SlotEntry where
  track   : Nat
  slot    : Nat
  payload : Nat
  group   : Nat
  member  : Nat
  write   : Bool
  spare   : Bool
  isVoid  : Bool
  tag     : Nat
  raw     : Nat
  /-- its payload is in the head island's write staging -/
  staged  : Bool
  /-- its first symbol has been sent, and its last -/
  started : Bool
  done    : Bool
  cut     : Bool
  deriving DecidableEq, Repr

/-- A write band descriptor as fetched (Table 7-1). -/
structure BandDesc where
  band     : Nat
  addr     : Nat
  asmStamp : Nat
  slots    : List SlotEntry
  deriving DecidableEq, Repr

/-- The write side of a backstitch pass (R147 to R153). -/
structure WriteRev where
  /-- revolution number, from 1 -/
  rev      : Nat
  /-- its WSTART has not been sent yet -/
  due      : Bool
  writing  : Bool
  mask     : Nat
  startAt  : Stamp
  stopAt   : Stamp
  /-- write-data blocks sent since the WSTART, and for each frame that carried some the number sent by its end, newest
  first -/
  nextBlock : Nat
  byFrame   : List (Nat × Nat)
  /-- slots voided in this revolution with the first one's address and cause -/
  voided   : Nat
  firstVoid : Option (Nat × Nat)
  /-- the write NCO model, newest first: the tick from which an increment applies, the increment, and the symbols consumed
  by then in 2^-32 channel bits -/
  rates    : List (Stamp × Nat × Nat)
  /-- what the WRATE that waits to leave aims at: symbols consumed, in 2^-32, at a tick (R148) -/
  aim      : Option (Nat × Stamp)
  /-- its WSTOP has been sent -/
  stopSent : Bool
  deriving DecidableEq, Repr

/-- An open pass (R32). -/
structure Pass where
  no       : Nat
  opened   : Stamp
  desc     : PassDesc
  cfg      : PassCfg
  zone     : Nat
  /-- index of the band or, in backstitch, of the revolution now under the beams, from 0 -/
  rev      : Nat
  relocs   : List Reloc
  bandDescs : List BandDesc
  writeRev : Option WriteRev
  /-- commands aborted at the head: their slots, by track and slot, and the slot start from which nothing of them is
  written (R155) -/
  aborts   : List (List (Nat × Nat) × Stamp)
  /-- actuator codes clamped since the pass opened (R157) stand in the laser state -/
  hem      : Option Hem
  /-- slots already admitted in this band: (track, slot) -/
  admitted : List (Nat × Nat)
  /-- run-ahead bands that have been discarded, and those that have been claimed (R133, R134) -/
  dropped  : List Nat
  claimed  : List Nat
  deriving DecidableEq, Repr

/-- How far a waiting HD.OPEN has come (R236). -/
inductive OpenStage where
  | awaitHem | claim | seeding | awaitSeam
  deriving DecidableEq, Repr

/-- A waiting HD.OPEN. -/
structure OpenReq where
  who    : Waiter
  desc   : PassDesc
  cfg    : PassCfg
  stage  : OpenStage
  relocs : List Reloc
  /-- beams whose seeds were clamped (R97) -/
  clamps : Nat
  deriving DecidableEq, Repr

/-- How far an HD.SEEK has come (R236). -/
inductive SeekStage where
  | awaitHem | moving | trackOn | awaitAddr (since : Stamp) | jumping
  deriving DecidableEq, Repr

/-- An HD.SEEK in progress. -/
structure SeekReq where
  who     : Waiter
  target  : Nat
  stage   : SeekStage
  corrections : Nat
  fmt     : Nat
  /-- the result of the sequence that this seek ran last, not yet acted on -/
  note    : Option Nat
  deriving DecidableEq, Repr

/-- A front-end instruction that waits for its REPLY or STAT (R234). -/
inductive FeKind where
  | safe | resume | write | read
  deriving DecidableEq, Repr

/-- A waiting HD.SAFE, HD.FEWR or HD.FERD. -/
structure FeReq where
  who   : Waiter
  kind  : FeKind
  since : Stamp
  /-- D0 frame that carried its message, once launched -/
  frame : Option Nat
  deriving DecidableEq, Repr

/-- The laser state of a head that no register holds (R157, R158, R161). -/
structure LaserState where
  /-- actuator codes whose clamp has been logged in the present span -/
  clampLogged : List Nat
  /-- tick from which the derate item's staleness counts -/
  staleFrom   : Stamp
  /-- event 0x1203 has been logged for that tick -/
  staleTold   : Bool
  /-- last temperature taken from the item, as it stood in the block -/
  lastTemp    : Nat
  /-- STAT.LEN of the last verified STAT -/
  feLen       : Bool
  deriving DecidableEq, Repr

/-- A retained Form R copy (R50, R111): its beam and expected address, and the sector stamp of the record it was
made from. -/
structure Copy where
  beam    : Nat
  address : Nat
  stamp   : Stamp
  deriving DecidableEq, Repr

/-- The ingest buffer (R113): admission stopped now, and the copies in the retained area (R50, R111). -/
structure Ingest where
  stopped  : Bool
  /-- the next retained slot, and for each retained slot in use its copy -/
  nextSlot : Nat
  copies   : List (Nat × Copy)
  /-- next place of the spill area -/
  spilled  : Nat
  /-- the zone-table base whose retained area holds the copies (R114) -/
  base     : Nat
  deriving DecidableEq, Repr

/-- One head island. -/
structure Head where
  fly     : Flywheel
  link    : Link
  beams   : Vector Beam 12
  replayQ : List Replay
  lanes   : Vector (Option ReplayLane) 2
  flag    : Option (Stamp × Nat)
  ingest  : Ingest
  passNo  : Nat
  pass    : Option Pass
  opening : Option OpenReq
  seek    : Option SeekReq
  fe      : List FeReq
  laser   : LaserState
  leaving : Option Leaving
  deriving DecidableEq, Repr

/-! ## After reset -/

/-- Nothing on the flywheel: not READY, no address. -/
def Flywheel.reset : Flywheel :=
  { frames := [], tags := [], firstWord := none, expected := none, offset := none, nextIdx := 0, seamRev := 0
    origin := 0, readyFrom := 0, lostFrom := 0 }

/-- A lane as it stands while it is off. -/
def Lane.off : Lane :=
  { st := .off, cur := none, next := none, errs := 0, winStart := 0, syncBad := [], latUp := 0, goodRun := 0, attempts := 0,
    leftAt := none, prbsAt := none }

/-- The link endpoint DOWN, with nothing queued (Table 4-8). -/
def Link.reset : Link :=
  { state := .down, since := 0, prev := .down, asked := false, lanes := Vector.replicate 4 Lane.off
    pairs := Vector.replicate 4 none, runs := Vector.replicate 4 (0, 0), moves := [], clock := false, faultHold := false, training := none
    servoQ := [], d0 := none, displaced := [], scram := 0, queue := [], held := [], side := [], asks := [], wrCorrupt := false
    lastD0 := none, lastStat := none, feSafe := false, hk := [], rt := 0, presDelay := 0, sent := [],
    srf := [] }

/-- The adaptive quantities and the seeds of a channel that nothing has seeded: the defaults of R86. -/
def Adaptive.reset : Adaptive :=
  { gain := 4096, offset := 0, asym := 0, eq := (List.replicate 15 0).set 2 16384, xtIn := List.replicate 7 0,
    xtOut := List.replicate 7 0, trim := 0, decM := 1 }
def Seeds.reset : Seeds := { ampRef := 768, target := [16, 32, 32, 16, 0], lagIn := 0, lagOut := 0 }

/-- A beam channel with nothing in it. -/
def Beam.reset : Beam :=
  { inService := false, rejoin := none, adapt := Adaptive.reset, seeds := Seeds.reset, seeded := false, raw := [],
    recent := [], group := [], ring := [], phase := 0, nominal := 0, bits := [], fwd := List.replicate 16 0, pos := 0, unit := 0
    acq := 0, follows := false, sector := none, intervals := [], dropout := none, guard := none, longDrop := false, acqBits := 0, frozen := false,
    thaw := false, lastCheck := Adaptive.reset }

/-- A head island after reset: no pass, pass number 0 (R32), link DOWN. -/
def Head.reset : Head :=
  { fly := Flywheel.reset, link := Link.reset, beams := Vector.replicate 12 Beam.reset, replayQ := []
    lanes := Vector.replicate 2 none, flag := none
    ingest := { stopped := false, nextSlot := 0, copies := [], spilled := 0, base := 0 }
    passNo := 0, pass := none, opening := none, seek := none, fe := []
    laser := { clampLogged := [], staleFrom := 0, staleTold := false, lastTemp := 0, feLen := false }
    leaving := none }

end Sys2Proof.Machine
end

