-- ==== Sys2Proof/Machine/Store.lean ====
section
/-!
DEFINITION. Machine/Store.lean: sparse data by key, in one canonical form: keys strictly rising, and no
entry equal to what an unlisted key reads as. Registers, buffer memory and the rings are held this way, so
that equal contents are equal data.
-/

namespace Sys2Proof.Machine

/-- What key k holds: its entry, or the default of an unlisted key. -/
def storeGet {α : Type} (dflt : Nat → α) (k : Nat) : List (Nat × α) → α
  | [] => dflt k
  | (k', v) :: rest => if k = k' then v else storeGet dflt k rest

/-- The list without an entry for key k. -/
def storeErase {α : Type} (k : Nat) : List (Nat × α) → List (Nat × α)
  | [] => []
  | (k', v) :: rest => if k = k' then storeErase k rest else (k', v) :: storeErase k rest

/-- The list with key k holding v, kept in rising order. -/
def storeInsert {α : Type} (k : Nat) (v : α) : List (Nat × α) → List (Nat × α)
  | [] => [(k, v)]
  | (k', v') :: rest =>
    if k < k' then (k, v) :: (k', v') :: rest
    else if k = k' then (k, v) :: rest
    else (k', v') :: storeInsert k v rest

/-- Write v at key k: a value equal to what an unlisted key reads as removes the entry. -/
def storePut {α : Type} [DecidableEq α] (dflt : Nat → α) (k : Nat) (v : α)
    (l : List (Nat × α)) : List (Nat × α) :=
  if v = dflt k then storeErase k l else storeInsert k v l

/-- Every key of the list is above k. -/
def storeAbove {α : Type} (k : Nat) : List (Nat × α) → Bool
  | [] => true
  | (k', _) :: rest => decide (k < k') && storeAbove k rest

/-- The canonical form: keys strictly rising, no entry equal to the default. -/
def storeWf {α : Type} [DecidableEq α] (dflt : Nat → α) : List (Nat × α) → Bool
  | [] => true
  | (k, v) :: rest => decide (v ≠ dflt k) && storeAbove k rest && storeWf dflt rest

end Sys2Proof.Machine
end

