-- ==== Sys2Proof/Machine/State/Security.lean ====
section
/-!
DEFINITION. Machine/State/Security.lean: the state of the calibration engine (chapter 15) and of the security island with
its boot flash and fuses (chapter 16).
-/

namespace Sys2Proof.Machine

/-- The calibration engine. -/
structure CalState where
  /-- slot pairs (z, r) of each of the 33 channels, newest first, at most 64 -/
  pairs    : List (List (Int × Int))
  /-- the last witness comparison differed by more than 1.0 % -/
  deviant  : Bool
  /-- a first copy is in service (R326) -/
  copied   : Bool
  /-- sensor 19 at the last copy, and its tick -/
  copyTemp : Int
  copyAt   : Stamp
  /-- the targets that the applied values move toward (OFS, GAIN), by channel -/
  goals    : List (Int × Int)
  /-- tick at which a comparator trim began -/
  trimAt   : Option Stamp
  deriving DecidableEq, Repr

/-- A key slot's fused hash, 48 bytes. -/
structure KeySlot where
  hash : List Byte
  deriving DecidableEq, Repr

/-- A transport of SPDM messages (R342): the DOE mailbox of a function, or Security Send and Receive of a function. -/
inductive Transport where
  | doe (fn : Fin 2) | secProto (fn : Fin 2)
  deriving DecidableEq, Repr

/-- An open SPDM session: its identifier, its transport, and whether FINISH has completed it. -/
structure Session where
  id   : Nat
  via  : Transport
  done : Bool
  deriving DecidableEq, Repr

/-- What runs (R336, R343): the slot it came from, the SVN and the key slot of its BOOT object, the first 512 bytes of the
BOOT payload, the initialisation list, and the digests of its objects. -/
structure Running where
  slot    : Nat
  svn     : Nat
  keySlot : Nat
  record  : List Nat
  init    : List (Nat × Nat)
  boot    : List Byte
  patch   : List Byte
  prog    : List Byte
  deriving DecidableEq, Repr

/-- The security island. -/
structure SecState where
  /-- boot flash: an unlisted byte is erased, 0xFF -/
  flash    : List (Nat × Byte)
  keys     : List KeySlot
  token    : List (Nat × Word)
  /-- how far each transport's negotiation has come: 1 version, 2 capabilities, 3 algorithms -/
  conns    : List (Transport × Nat)
  sessions : List Session
  running  : Option Running
  /-- a package that takes effect at the activation now in progress -/
  staged   : Option Running
  /-- responses that wait for a Security Receive, by function: the response code and its content -/
  replies  : List (Nat × Nat × List Nat)
  deriving DecidableEq, Repr

/-- The calibration engine after reset. -/
def CalState.reset : CalState :=
  { pairs := List.replicate 33 [], deviant := false, copied := false, copyTemp := 0, copyAt := 0,
    goals := List.replicate 33 (0, 0), trimAt := none }

/-- The security island after power-on reset, with flash and fuses as a part that nothing has written (DESIGN CHOICE). -/
def SecState.reset : SecState :=
  { flash := [], keys := [], token := [], conns := [], sessions := [], running := none, staged := none, replies := [] }

end Sys2Proof.Machine
end

