-- ==== Sys2Proof/Machine/Operand.lean ====
section
/-!
DEFINITION. Machine/Operand.lean: the operand types of the commands that are no part of the state.
-/

namespace Sys2Proof.Machine

/-- Who accesses a register: the host through a function's BAR0, or a bobbin through the sequencer's register window
(R8, R18). -/
inductive Accessor where
  | host (fn : Fin 2)
  | window (b : Fin 24)
  deriving DecidableEq, Repr

/-- What the memories give an instruction (R225, R242): clean words, an uncorrectable instruction fetch, or an
uncorrectable word where a load reads. -/
inductive Upset where
  | none | fetch | data
  deriving DecidableEq, Repr

/-- How a command that is a register write and an Obkin instruction as well is given: by a register write of x, or by
bobbin b issuing the instruction at its PC. -/
inductive Via (α : Type) where
  | reg (x : α)
  | obkin (b : Fin 24) (u : Upset)
  deriving DecidableEq, Repr

/-- The registers of a slot that only a DISABLED slot takes (R166). -/
inductive SlotReg where
  | cfg | start | node (j : Fin 24)
  deriving DecidableEq, Repr

/-- A submission queue entry as the host wrote it (NVMe Base Specification 2.0, log entry 34): command dword 0 by its
fields, the namespace, the data pointer, and command dwords 10 to 15. -/
structure SqEntry where
  opcode : Fin 256
  fuse   : Fin 4
  /-- bits [13:10] of dword 0, reserved -/
  rsvd   : Fin 16
  psdt   : Fin 4
  cid    : Fin 65536
  nsid   : Nat
  dptr0  : Nat
  dptr1  : Nat
  c10    : Nat
  c11    : Nat
  c12    : Nat
  c13    : Nat
  c14    : Nat
  c15    : Nat
  deriving DecidableEq, Repr

/-- What a configuration request of a PCIe function reads (R256, R12): an item of Table 12-1. -/
inductive ConfigItem where
  /-- Device ID and Vendor ID -/
  | identity
  /-- class code and Revision ID -/
  | classRevision
  /-- subsystem ID and subsystem Vendor ID -/
  | subsystem
  /-- what Base Address Register k holds once all ones were written to it: its size and its type -/
  | barSize (k : Fin 6)
  | interruptPin
  /-- Link Capabilities -/
  | linkCap
  /-- Max Payload Size supported, in bytes -/
  | maxPayload
  /-- whether the function has the capability with this identifier -/
  | capability (id : Nat)
  deriving DecidableEq, Repr

/-- A configuration request of a function. -/
structure ConfigReq where
  fn   : Fin 2
  item : ConfigItem
  deriving DecidableEq, Repr

/-- What the walk of a command's PRP list or SGL in host memory finds beyond the entry's own pointer. -/
inductive PtrWalk where
  | good | badOffset | badType
  deriving DecidableEq, Repr

end Sys2Proof.Machine
end

