-- ==== Sys2Proof/Syntax.lean ====
section
/-!
DEFINITION. Syntax.lean: the commands of the block, one constructor per row of spec/opcode_table.json in the
table's order. An operand says which head, sled, bobbin, slot or queue a command names, what a register
write carries, or what arrived from outside (a frame, a comparator edge, a medium sample, a host entry).
-/

namespace Sys2Proof

open Machine

/-- The commands of the SX16 (one per row of the table of operations and events). -/
inductive Instr where
  /-- R7. A host or register-window write to a register that has no row of its own sets fields by their access types (RW, W1C, W1S, RWS) and any store limits. -/
  | registerWrite (acc : Accessor) (off : Nat) (val : Nat)
  /-- R8. A read of the _LO half of a 64-bit pair returns the lower half and latches the whole value in the reader's own latch. -/
  | loRegisterRead (acc : Accessor) (off : Nat)
  /-- R8. A write to the _HI half of an RW pair applies the held _LO write and updates all 64 bits at once. -/
  | rwPairHiWrite (acc : Accessor) (off : Nat) (val : Nat)
  /-- R5. A BAR0 access that is not a naturally aligned 32-bit access is discarded or reads 0xFFFF_FFFF, and event 0x7008 is logged. -/
  | refusedRegisterAccess (fn : Fin 2) (off : Nat) (bytes : Nat) (write : Bool)
  /-- R16. An access to an unassigned BAR0 offset reads 0 or is ignored, and no event is logged. -/
  | unassignedOffsetAccess (acc : Accessor) (off : Nat) (write : Bool)
  /-- R17. An access to a block whose island is not in service reads 0xFFFF_FFFF or is discarded, and event 0x7009 is logged. -/
  | outOfServiceBlockAccess (acc : Accessor) (off : Nat) (write : Bool)
  /-- R258. Unmasking an MSI-X vector whose pending bit is set sends the vector. -/
  | msixVectorUnmask (fn : Fin 2) (vec : Fin 288)
  /-- R20. The time-base PLL first reports lock after power-on reset and the 64-bit counter starts from 0. -/
  | pllLock
  /-- R21. No reference edge for 240 ticks puts the PLL in holdover, sets HOLDOVER and logs event 0x9010. -/
  | holdoverEntry
  /-- R21. The reference present without a gap for 20 µs makes the PLL relock in frequency without stepping the count and logs event 0x9011. -/
  | pllRelock
  /-- R23. An island's newly sampled time-base value fails the advance check, is replaced by the previous value plus the nominal advance, is counted and logs event 0x9012. -/
  | distributionError (isl : Island) (prev sample : Nat)
  /-- R27. When a slot frees in a source's full event crossing, the source writes an events-lost record with code 0x0001 before any other record. -/
  | eventsLostRecord (src : Nat)
  /-- R29. An event record reaches the event log merger, and a late record is written at once with the late bit set. -/
  | eventMergerArrival (src : Nat)
  /-- R28. When the time base reaches a held record's stamp plus 384 ticks, the merger writes it to the ring in stamp and source order. -/
  | eventMergerRelease
  /-- R29. The trace merger releases trace records in stamp order 384 ticks after their stamps and publishes its completeness stamp. -/
  | traceMergerRelease
  /-- R33. The head island accepts a hem request at stamp h, and an open pass starts its hem while a second request joins it and a request with no pass completes with no pass. -/
  | hemRequest (head : Fin 16)
  /-- R33. At h + 525,000 ticks or when nothing of the pass is outstanding, the hem withdraws unresolved sectors for re-read and closes the pass's groups. -/
  | hemWithdrawal (head : Fin 16)
  /-- R87. The zone write-back reaches buffer memory and event 0x1105 is logged. -/
  | zoneWriteBackComplete (head : Fin 16)
  /-- R33. Once the adaptive state is discarded and the pass's records have entered the outcome ring, the hem-complete event is posted and the pass's claim ends. -/
  | hemComplete (head : Fin 16)
  /-- R42. The chevron timer completes a servo frame, forms its centre stamp and offset y, and sends them to the control island or marks the frame no-chevron. -/
  | servoFrame (head : Fin 16) (idx : Nat) (fwd bwd : Option Stamp) (span : Nat)
  /-- R45. An expected servo frame is absent or rejected and MISS_RUN rises by 1. -/
  | servoFrameMissed (head : Fin 16) (idx : Nat)
  /-- R43. The tags of 31 frames complete an address word, which is checked by CRC-3 and counted toward acceptance. -/
  | addressWord (head : Fin 16)
  /-- R37. The seam of the head's track opens at the flywheel-predicted stamp. -/
  | seamOpening (head : Fin 16)
  /-- R90. At q0 − 80 the beam channel admits the sector, chooses M, reloads the nominal spacing and starts interval 0. -/
  | sectorAcquisitionStart (head : Fin 16) (beam : Fin 12) (slot : Nat)
  /-- R48. When settled decisions cover the last window position, the head island clusters candidates and opens up to two framings. -/
  | syncSearchComplete (sector : Nat)
  /-- R372. A write of HD_FMT_CFG stores the pitch and lead-in bit, or refuses a pitch outside 160 to 320 nm and logs event 0x1303. -/
  | hdFmtCfgWrite (head : Fin 16) (val : Word)
  /-- R65. An up frame header arrives on a lane and verifies the previous frame's CRC, counting lost frames. -/
  | upFrame (head : Fin 16) (pair : Fin 4) (arrival : Stamp) (header : Block) (blocks : List Block)
  /-- R63. A verified SRF block delivers servo RF samples to the chevron timer. -/
  | srfBlock (head : Fin 16)
  /-- R63. A verified QUAD block is released to the loop engine as a quadrant set. -/
  | quadBlock (head : Fin 16)
  /-- R63. A verified HK block updates the head's latest value of the housekeeping item. -/
  | hkBlock (head : Fin 16)
  /-- R64. A verified STAT block updates link and front-end status and reports which D0 frames were good. -/
  | statBlock (head : Fin 16)
  /-- R63. A verified CAP block records the front end's latencies, pipeline depth, write limit and identifier. -/
  | capBlock (head : Fin 16)
  /-- R67. A verified REPLY block answers a D0 message, forming RT and sending ALIGN for an echo or completing HD.FEWR or HD.FERD. -/
  | replyBlock (head : Fin 16) (arrival : Stamp)
  /-- R63. A verified FEEV block logs front-end event 0x2009. -/
  | feevBlock (head : Fin 16)
  /-- R69. At each tick multiple of 48 the SX16 launches a D0 frame with servo SETPTs, write data and queued messages in their positions. -/
  | d0FrameLaunch (head : Fin 16)
  /-- R73. A held message whose frame no verified STAT covered within eight frames is resent, unless a WSTART would lose its lead. -/
  | messageResend (head : Fin 16)
  /-- R76. At the end of a lane's error window its error count is cleared. -/
  | laneErrorWindowEnd (head : Fin 16) (lane : Fin 4)
  /-- R77. A lane not rejoined 20 µs after its PRBS began starts another attempt. -/
  | laneRetrainTimeout (head : Fin 16) (lane : Fin 4)
  /-- R76. No verified STAT for 8 frames takes the link to FAULT. -/
  | statTimeout (head : Fin 16)
  /-- R76. A write of TL_CTRL.ENABLE = 1 lets a link in DOWN of a head in service enter TRAIN. -/
  | linkEnable (head : Fin 16)
  /-- R76. A write of TL_CTRL.ENABLE = 0 takes the link to DOWN. -/
  | linkDisable (head : Fin 16)
  /-- R76. A write of TL_CTRL.RETRAIN enters TRAIN from any state except DOWN. -/
  | linkRetrain (head : Fin 16)
  /-- R371. A write of TL_CTRL.REALIGN in UP, DEGRADED or FAULT runs alignment steps 6 and 7 without retraining lanes. -/
  | linkRealign (head : Fin 16)
  /-- R370. A write of TL_CTRL.FE_SAFE sends SAFE to the front end, or defers or discards it outside UP and DEGRADED. -/
  | feSafeRequest (head : Fin 16)
  /-- R80. The SX16 finishes adapting its four receivers and switches D0 to idle frames. -/
  | trainingReceiversAdapted (head : Fin 16)
  /-- R80. A training attempt that misses a bound is retried, or after RETRIES ends in FAULT with event 0x2005. -/
  | trainingAttemptTimeout (head : Fin 16)
  /-- R98. At the first bit of each 512-bit interval the channel records a checkpoint of its adaptive state. -/
  | intervalCheckpoint (head : Fin 16) (beam : Fin 12)
  /-- R99. One tick after an interval's last settled decision the channel compares basted and settled decisions and decides whether to unpick. -/
  | unpickTest (head : Fin 16) (beam : Fin 12)
  /-- R102. A free replay lane takes the oldest eligible entry and starts re-running its interval. -/
  | replayStart (head : Fin 16)
  /-- R101. A replay ends, the live path adopts its end state, replaces the next checkpoint and resumes adaptation. -/
  | replayFinish (head : Fin 16) (lane : Fin 2)
  /-- R103. A queued entry whose first needed sample or q is overwritten expires and its interval is soft-erased. -/
  | replayExpiry (head : Fin 16)
  /-- R105. An interval whose values are settled and resolved, after all earlier intervals, is released to demodulation. -/
  | intervalRelease (head : Fin 16) (beam : Fin 12)
  /-- R107. A raw sample whose envelope falls below the entry threshold starts a dropout, is erased and freezes the beam's adaptation. -/
  | dropoutStart (head : Fin 16) (beam : Fin 12) (stamp : Stamp)
  /-- R108. A run of REC samples above the recovery threshold ends the beam's dropout and starts its guard. -/
  | dropoutEnd (head : Fin 16) (beam : Fin 12) (stamp : Stamp)
  /-- R108. After GUARD channel bits adaptation resumes, with acquisition gains for 64 bits after a long dropout. -/
  | dropoutGuardEnd (head : Fin 16) (beam : Fin 12)
  /-- R86. The zone table entry returns and the beam channels are seeded, or defaults are seeded with event 0x1101. -/
  | zoneSeedReadDone (head : Fin 16)
  /-- R113. Ingest occupancy at 128 KiB or more spills the oldest complete records to the spill area. -/
  | ingestSpill (head : Fin 16)
  /-- R113. Ingest occupancy at 208 KiB or more stops admission, queues new sectors for re-read and logs event 0x1103. -/
  | ingestAdmissionStop (head : Fin 16)
  /-- R113. Ingest occupancy at 240 KiB or more sheds the latest in-flight sector and logs event 0x1102. -/
  | ingestShed (head : Fin 16)
  /-- R117. A free first-pass input buffer is bound to the waiting record with the lowest acquisition stamp, or to a REFRAME order every 32nd binding. -/
  | firstPassBind (eng : Fin 32) (buf : Fin 2) (bad : Bool)
  /-- R117. A free first-pass core starts a record that is fully in its buffer. -/
  | firstPassStart (eng : Fin 32) (bufErr : Bool)
  /-- R118. A first-pass iteration ends with its syndrome weight and the decode continues, accepts, erases or sends the sector to the deep queue. -/
  | firstPassIterationEnd (eng : Fin 32)
  /-- R121. A free deep engine takes the oldest deep-queue entry and restarts from scaled channel values. -/
  | deepStart (eng : Fin 4) (bad : Bool)
  /-- R121. A deep iteration ends and the sector is accepted, continues, or is erased with DEEP_FAIL at the cap. -/
  | deepIterationEnd (eng : Fin 4)
  /-- R127. The twill engine takes its next job by priority: TWILL_ENC, then closed groups, then TWILL_DEC. -/
  | twillJobStart
  /-- R126. A twill job ends, writing rebuilt or corrected members and the group record, or logging unresolved or inconsistent. -/
  | twillJobEnd
  /-- R130. The surface-parity engine takes the next SP_ENC or SP_REC order in submission order. -/
  | spJobStart
  /-- R130. A surface-parity job writes parity or rebuilt sectors, or completes with too many unknowns and event 0x3009. -/
  | spJobEnd
  /-- R131. A decode work order from DC.SUBMIT reaches the decode island's work queue. -/
  | decodeWorkArrival
  /-- R138. A write of DC_OUT_CONS frees ring slots so waiting records enter the ring and OUT_FULL clears. -/
  | dcOutConsWrite (val : Word)
  /-- R134. A run-ahead discard report from the placement-map assist reaches the decode island. -/
  | runAheadDiscardReport (head : Fin 16) (layer band : Nat)
  /-- R139. A write of DC_CNT_CLR.CLEAR sets every decode counter to 0. -/
  | dcCntClear (val : Word)
  /-- R139. A write to an outcome-ring or run-ahead base register is ignored with event 0x300A while any pass is open. -/
  | dcBaseWrite (ra : Bool) (lo hi : Word)
  /-- R142. A WRITE slot whose payload is not staged 2,000 ticks before its first symbol is not written and becomes void. -/
  | slotPayloadLate (head : Fin 16) (track slot : Nat)
  /-- R155. An abort reaching the head island stops the command's slots from the next slot start, replacing symbols by HOLD or sending WSTOP. -/
  | writeAbortAtHead (head : Fin 16) (slots : List (Nat × Nat))
  /-- R158. No verified HK block carrying the derate item for 46,080 ticks drops F to 0, sets HK_STALE and logs event 0x1203. -/
  | derateStale (head : Fin 16)
  /-- R160. A qualifying low on LASER_INH_N sets INH_LATCH in all heads, drives every HD_LEN low and logs event 0x1204. -/
  | laserInterlock
  /-- R161. A write of HD_LASER_CTRL.REARM clears INH_LATCH when LASER_INH_N has been high 10 ms, or is ignored with event 0x1205. -/
  | laserRearm (head : Fin 16)
  /-- R159. A write of HD_LASER_CTRL.LEN_EN lets HD_LEN rise when all interlock conditions hold, or drives it low. -/
  | laserEnableWrite (head : Fin 16) (enable : Bool)
  /-- R157. A write of a read or write power ceiling is stored, or ignored with event 0x1209 once LOCK is set. -/
  | ceilingWrite (head : Fin 16) (write : Bool) (val : Nat)
  /-- R157. A write of 1 to HD_CEIL_WR.LOCK locks both ceilings until power-on reset. -/
  | ceilingLock (head : Fin 16)
  /-- R158. A write of HD_DERATE_CTRL.EN or HK_ITEM restarts derate staleness, or sets F to 256 and clears HK_STALE when disabled. -/
  | derateEnableWrite (head : Fin 16) (val : Word)
  /-- R164. An admitted loop slot due in a frame executes its nodes at its scheduled start and sends its outputs. -/
  | slotExecution (slot : Fin 96) (memErr : Option Nat)
  /-- R168. A QUAD set becomes visible to the loop engine over the head-to-control crossing. -/
  | quadSetVisible (head : Fin 16)
  /-- R171. A chevron offset reaches the loop engine and updates the CHV offset estimate unless excluded. -/
  | chevronOffsetArrival (head : Fin 16)
  /-- R170. A head dropout flag rise or fall reaches the loop engine and opens or extends the hold window. -/
  | dropoutFlagArrival (head : Fin 16)
  /-- R174. A write of LP_SLOT_CTRL.REQ or LP.REQ requests a slot state, taking effect at the next execution start. -/
  | slotStateRequest (via : Via (Fin 96 × Fin 4))
  /-- R177. A write of LP_SLOT_CTRL.CLR_STATE clears BIQ, RATE and PLANT states at the next execution start. -/
  | slotClearState (via : Via (Fin 96 × Fin 4))
  /-- R177. A write of LP_COEF or LP.COEF waits and applies at the slot's next execution start, or at once for a DISABLED slot. -/
  | coefficientWrite (via : Via (Fin 96 × Fin 64 × Word))
  /-- R166. A write of LP_SLOT_CFG, START or LP_NODE is accepted only while the slot is DISABLED, otherwise ignored with event 0x4003. -/
  | slotConfigWrite (slot : Fin 96) (which : SlotReg) (val : Word)
  /-- R185. A focus acquisition, layer jump or track-on not complete within its timeout ends with result 3. -/
  | sequenceTimeout (head : Fin 16)
  /-- R188. At the predicted start of servo frame 0 an unsettled seam jump ends with result 5 and clears ADDR_OK. -/
  | seamJumpDeadline (head : Fin 16)
  /-- R190. A write of LP_TRC_CTRL.MODE sets the trace mode and restarts the ring. -/
  | traceModeWrite (val : Word)
  /-- R190. A write of LP_TRC_CTRL.FREEZE triggers a mode 3 freeze after POST records. -/
  | traceFreeze
  /-- R197. The IDLE command coasts the sled at the next profile tick, setting UNCERTAIN if it was moving. -/
  | sledIdle (via : Via (Fin 16))
  /-- R197. The HOLD command stops the profile and energises the sled at its address at the next profile tick. -/
  | sledHold (via : Via (Fin 16))
  /-- R195. The MOVE command runs the trapezoidal profile toward SL_TARGET from the present M and V. -/
  | sledMove (via : Via (Fin 16))
  /-- R196. The FOLLOW command makes the sled track the tracking slot's sled demand within its limits. -/
  | sledFollow (via : Via (Fin 16))
  /-- R205. The HOME command moves the sled to its home switch and sets OFFSET at the qualified assertion. -/
  | sledHome (via : Via (Fin 16))
  /-- R195. The SOFTSTOP command enters MOVE with a target at the exact stopping distance so the sled stops at AMAX. -/
  | sledSoftstop (via : Via (Fin 16))
  /-- R197. The STOP command freezes the sled at the next motor cycle and discards pending commands. -/
  | sledStop (via : Via (Fin 16))
  /-- R194. A write of SL_CTRL.CLR_FAULT sets FAULT to 0 unless its cause persists. -/
  | sledClearFault (sled : Fin 16)
  /-- R195. A write of SL_TARGET clamps the target to the soft limits and retargets a move in progress. -/
  | sledTargetWrite (sled : Fin 16) (val : Word)
  /-- R193. Every 1,500 ticks the profile generator applies pending commands and computes V for each sled. -/
  | profileTick
  /-- R201. Every 64 profile ticks at speed the estimator forms load angle λ and back-EMF magnitude. -/
  | loadAngleWindow (sled : Fin 16)
  /-- R202. BOOST_HOLD ms without a boost window deselect I_BOOST. -/
  | boostHoldExpiry (sled : Fin 16)
  /-- R198. A sled at rest in HOLD for HOLD_DLY ms switches to I_HOLD. -/
  | holdCurrentDelay (sled : Fin 16)
  /-- R203. Phase current above OC in two consecutive samples coasts the bridge, enters IDLE with FAULT 3 and logs event 0x5003. -/
  | sledOverCurrent (sled : Fin 16) (phase : Fin 2) (first second : Int)
  /-- R204. A first edge of a home or EOT switch after a qualified level opens a debounce window. -/
  | switchEdge (sled : Fin 16) (eot : Bool)
  /-- R204. At the end of the debounce window the level qualifies the transition and latches stamp and position, or discards it with event 0x5008. -/
  | switchDebounceEnd (sled : Fin 16) (eot asserted : Bool)
  /-- R209. A floating phase's comparator qualifies a zero crossing, updating T60 and scheduling the next commutation. -/
  | bemfCrossing (phase : Fin 3) (rising : Bool) (stamp : Stamp)
  /-- R210. At the stamp computed from a qualified crossing and phase advance the spindle commutates to the next sector. -/
  | commutation
  /-- R210. With no qualified crossing by t_f the spindle commutates and counts a miss. -/
  | forcedCommutation
  /-- R211. No resynchronisation 50 ms after the loss makes a controlled stop and full start and logs event 0x5016. -/
  | lostRotorTimeout
  /-- R212. SP_CTRL.START or SP.CMD START begins a start attempt with LISTEN, or waits for a controlled stop to finish. -/
  | spindleStart (via : Via Unit) (fltLow : Bool)
  /-- R216. SP_CTRL.STOP or SP.CMD STOP begins a controlled stop. -/
  | spindleStop (via : Via Unit)
  /-- R220. A write of SP_GOV.DEMAND or SP.CMD DEMAND sets the governor's DEMAND speed. -/
  | spindleDemandSet (via : Via (Fin 128))
  /-- R212. After 20 ms of LISTEN the start proceeds by catch, brake or align-and-go as the crossings found decide. -/
  | listenEnd
  /-- R215. A 50 ms braking short ends and a 20 ms LISTEN follows. -/
  | brakeBurstEnd
  /-- R215. After ALIGN_T ms on sector 0 the open-loop ramp begins. -/
  | alignEnd
  /-- R215. An open-loop commutation falls due on the ramp, handing over to RUN after six qualified sectors. -/
  | openLoopCommutation
  /-- R216. The final 2 s short of a controlled stop ends, the phases float and the spindle is STOPPED. -/
  | stopShortEnd
  /-- R217. SP_FLT_N low for 1 µs drives all gates low, enters FAULT, requests hems and logs event 0x5017. -/
  | spindleBridgeFault
  /-- R217. Spindle current above OC_TRIP in two consecutive samples drives all gates low, enters FAULT and logs event 0x5018. -/
  | spindleOverCurrent (first second : Int)
  /-- R219. A spindle demand from the loop engine sets the duty at the next PWM period in RUN. -/
  | spindleDemand (demand : Int)
  /-- R219. A sled demand from a tracking slot acts in FOLLOW from the next profile tick. -/
  | sledDemand (sled : Fin 16) (demand : Int)
  /-- R220. Every 1 ms REF moves toward TARGET by at most the rate limit. -/
  | governorUpdate
  /-- R218. Every 1 ms the spindle thermal state s is updated from the mean current. -/
  | thermalModelUpdate
  /-- R221. A waiting HD.OPEN proceeds once REF and the measured speed are at or below the CEIL of its claim. -/
  | claimSatisfied (head : Fin 16)
  /-- R227. ADD writes ra + rb modulo 2^64 to rd. -/
  | add (b : Fin 24) (u : Upset)
  /-- R227. SUB writes ra − rb to rd. -/
  | sub (b : Fin 24) (u : Upset)
  /-- R227. AND writes ra & rb to rd. -/
  | and (b : Fin 24) (u : Upset)
  /-- R227. OR writes ra | rb to rd. -/
  | or (b : Fin 24) (u : Upset)
  /-- R227. XOR writes ra ^ rb to rd. -/
  | xor (b : Fin 24) (u : Upset)
  /-- R227. SHL shifts ra left by rb[5:0]. -/
  | shl (b : Fin 24) (u : Upset)
  /-- R227. SHR shifts ra logically right by rb[5:0]. -/
  | shr (b : Fin 24) (u : Upset)
  /-- R227. SAR shifts ra arithmetically right by rb[5:0]. -/
  | sar (b : Fin 24) (u : Upset)
  /-- R227. MUL writes the low 64 bits of ra × rb. -/
  | mul (b : Fin 24) (u : Upset)
  /-- R227. MULH writes the high 64 bits of the signed product. -/
  | mulh (b : Fin 24) (u : Upset)
  /-- R227. MIN writes the signed minimum of ra and rb. -/
  | min (b : Fin 24) (u : Upset)
  /-- R227. MAX writes the signed maximum of ra and rb. -/
  | max (b : Fin 24) (u : Upset)
  /-- R227. ADDI adds a sign-extended immediate to ra. -/
  | addi (b : Fin 24) (u : Upset)
  /-- R227. ANDI ands ra with a zero-extended immediate. -/
  | andi (b : Fin 24) (u : Upset)
  /-- R227. ORI ors ra with a zero-extended immediate. -/
  | ori (b : Fin 24) (u : Upset)
  /-- R227. SHI shifts ra by an immediate amount in the direction the immediate selects. -/
  | shi (b : Fin 24) (u : Upset)
  /-- R227. CMP sets predicate pd from comparing ra and rb by the FN condition. -/
  | cmp (b : Fin 24) (u : Upset)
  /-- R227. CMPI.EQ sets pd when ra equals the sign-extended immediate. -/
  | cmpiEq (b : Fin 24) (u : Upset)
  /-- R227. CMPI.LT sets pd when ra is signed less than the immediate. -/
  | cmpiLt (b : Fin 24) (u : Upset)
  /-- R227. CMPI.LTU sets pd when ra is unsigned less than the sign-extended immediate. -/
  | cmpiLtu (b : Fin 24) (u : Upset)
  /-- R227. PSET combines two predicates by the FN operation into pd. -/
  | pset (b : Fin 24) (u : Upset)
  /-- R227. SEL writes ra or rb to rd by a predicate. -/
  | sel (b : Fin 24) (u : Upset)
  /-- R227. BFX extracts a bit field of ra into rd. -/
  | bfx (b : Fin 24) (u : Upset)
  /-- R227. BFI inserts rd's low bits into ra at a position and writes the result to rd. -/
  | bfi (b : Fin 24) (u : Upset)
  /-- R227. CNT writes the population count, leading zeros or trailing zeros of ra. -/
  | cnt (b : Fin 24) (u : Upset)
  /-- R223. DIVU writes the unsigned quotient after stalling the bobbin 34 cycles. -/
  | divu (b : Fin 24) (u : Upset)
  /-- R225. LDB loads a zero-extended byte from the bobbin address space. -/
  | ldb (b : Fin 24) (u : Upset)
  /-- R225. LDH loads a zero-extended halfword. -/
  | ldh (b : Fin 24) (u : Upset)
  /-- R225. LDW loads a zero-extended word, including a BAR0 register read through the window. -/
  | ldw (b : Fin 24) (u : Upset)
  /-- R225. LDD loads a doubleword. -/
  | ldd (b : Fin 24) (u : Upset)
  /-- R225. LDBS loads a sign-extended byte. -/
  | ldbs (b : Fin 24) (u : Upset)
  /-- R225. LDHS loads a sign-extended halfword. -/
  | ldhs (b : Fin 24) (u : Upset)
  /-- R225. LDWS loads a sign-extended word. -/
  | ldws (b : Fin 24) (u : Upset)
  /-- R225. STB stores a byte. -/
  | stb (b : Fin 24) (u : Upset)
  /-- R225. STH stores a halfword. -/
  | sth (b : Fin 24) (u : Upset)
  /-- R225. STW stores a word, including a BAR0 register write through the window. -/
  | stw (b : Fin 24) (u : Upset)
  /-- R225. STD stores a doubleword. -/
  | std (b : Fin 24) (u : Upset)
  /-- R226. AMO performs an atomic swap, add, and, or or compare-and-swap on shared scratch. -/
  | amo (b : Fin 24) (u : Upset)
  /-- R226. FENCE stalls the bobbin until its earlier stores are complete. -/
  | fence (b : Fin 24) (u : Upset)
  /-- R227. BR branches by a signed word offset. -/
  | br (b : Fin 24) (u : Upset)
  /-- R227. CALL writes the return address to g31 and branches. -/
  | call (b : Fin 24) (u : Upset)
  /-- R227. JR jumps to ra[15:0], linking into g31 when FN[0] is 1. -/
  | jr (b : Fin 24) (u : Upset)
  /-- R242. TRAP raises exception 0x09 with its immediate as argument. -/
  | trap (b : Fin 24) (u : Upset)
  /-- R227. HALT puts the issuing bobbin in HALTED with PC at the next instruction. -/
  | halt (b : Fin 24) (u : Upset)
  /-- R231. SIGNAL posts a doorbell to a target bobbin and sets pd to whether it was posted. -/
  | signal (b : Fin 24) (u : Upset)
  /-- R230. TB.NOW writes the stamp of the issue cycle to rd. -/
  | tbNow (b : Fin 24) (u : Upset)
  /-- R230. TB.LAST writes the stamp of the entry last returned by WAIT.EV or POLL. -/
  | tbLast (b : Fin 24) (u : Upset)
  /-- R230. WAIT.EV waits for a matching event-queue entry with a deadline. -/
  | waitEv (b : Fin 24) (u : Upset)
  /-- R230. WAIT.UNTIL waits until the time base reaches ra. -/
  | waitUntil (b : Fin 24) (u : Upset)
  /-- R230. POLL returns a released matching entry now or clears the predicate. -/
  | poll (b : Fin 24) (u : Upset)
  /-- R229. A completion, doorbell or work-order-available entry arrives in a bobbin's event queue, stale epochs being discarded. -/
  | eventQueueEntry (bobbin : Fin 24)
  /-- R229. An entry is released 96 ticks after its stamp and satisfies a matching wait. -/
  | eventQueueRelease (bobbin : Fin 24)
  /-- R30. At d + 96 ticks with no qualifying entry a wait resolves as a timeout. -/
  | waitTimeout (bobbin : Fin 24)
  /-- R230. The time base reaches a WAIT.UNTIL target and the bobbin becomes READY. -/
  | waitUntilReached (bobbin : Fin 24)
  /-- R236. HD.OPEN reads a pass descriptor, hems any open pass, enters its claim, checks position and seeds the channels before opening at a seam. -/
  | hdOpen (b : Fin 24) (u : Upset)
  /-- R33. HD.HEM requests a hem of the head's open pass and completes at hem-complete. -/
  | hdHem (b : Fin 24) (u : Upset)
  /-- R236. HD.SEEK moves the sled toward a target track, runs track-on and corrects with seam jumps. -/
  | hdSeek (b : Fin 24) (u : Upset)
  /-- R236. An HD.SEEK advances when the awaited sled arrival, track-on or ADDR_OK arrives and issues the next correction or completes. -/
  | seekStep (head : Fin 16)
  /-- R236. No address within 2 ms after track-on completes HD.SEEK with result 2. -/
  | seekAddressTimeout (head : Fin 16)
  /-- R185. HD.FOCUS starts focus acquisition to a layer. -/
  | hdFocus (b : Fin 24) (u : Upset)
  /-- R186. HD.LJUMP starts a layer jump of k layers. -/
  | hdLjump (b : Fin 24) (u : Upset)
  /-- R187. HD.TRKON starts track-on. -/
  | hdTrkon (b : Fin 24) (u : Upset)
  /-- R188. HD.SJUMP starts a seam jump of n tracks at the next seam. -/
  | hdSjump (b : Fin 24) (u : Upset)
  /-- R234. HD.SAFE sends SAFE or RESUME and completes when a verified STAT shows the new state. -/
  | hdSafe (b : Fin 24) (u : Upset)
  /-- R234. HD.FEWR sends FEWR and completes on the front end's acknowledgement. -/
  | hdFewr (b : Fin 24) (u : Upset)
  /-- R234. HD.FERD sends FERD and completes with the read data. -/
  | hdFerd (b : Fin 24) (u : Upset)
  /-- R234. HD.SAFE, HD.FEWR or HD.FERD without its reply or STAT within 1 ms completes with result 3. -/
  | frontEndReplyTimeout (head : Fin 16)
  /-- R234. HD.HK returns the latest verified value of a housekeeping item. -/
  | hdHk (b : Fin 24) (u : Upset)
  /-- R234. HD.STAT returns the head's link, flywheel, pass and sequence status. -/
  | hdStat (b : Fin 24) (u : Upset)
  /-- R234. SL.POS returns a sled's position, state, UNCERTAIN and FAULT. -/
  | slPos (b : Fin 24) (u : Upset)
  /-- R207. SL.REREF sets the sled's OFFSET from a chevron radius and lens offset at a stamp and clears UNCERTAIN. -/
  | slReref (b : Fin 24) (u : Upset)
  /-- R234. SP.STAT returns the spindle's speed, state, fault, TARGET and CEIL. -/
  | spStat (b : Fin 24) (u : Upset)
  /-- R234. LP.STAT returns a slot's LP_SLOT_STATUS. -/
  | lpStat (b : Fin 24) (u : Upset)
  /-- R131. DC.SUBMIT takes a tag, reserves an entry and submits a decode work order, stalling while the work queue is full. -/
  | dcSubmit (b : Fin 24) (u : Upset)
  /-- R234. DC.STAT returns DC_STATUS. -/
  | dcStat (b : Fin 24) (u : Upset)
  /-- R234. MM.XFER moves or fills buffer memory and scratch and completes when its writes are accepted. -/
  | mmXfer (b : Fin 24) (u : Upset)
  /-- R239. WO.GET moves the next work order or abort notice to scratch, or clears pd when the queue is empty. -/
  | woGet (b : Fin 24) (u : Upset)
  /-- R239. WO.DONE submits a completion request that the host island carries out, or reports it stale. -/
  | woDone (b : Fin 24) (u : Upset)
  /-- R283. WO.AEN raises an asynchronous event for the host. -/
  | woAen (b : Fin 24) (u : Upset)
  /-- R234. EV.LOG writes a program event record with the issue stamp. -/
  | evLog (b : Fin 24) (u : Upset)
  /-- R241. SQ_BOB_CTRL.START or BOB.START starts a halted or excepted bobbin at its entry with state cleared and epoch advanced. -/
  | bobStart (via : Via (Accessor × Fin 24))
  /-- R240. SQ_BOB_CTRL.HALT or BOB.HALT sends a halt request to a bobbin. -/
  | bobHalt (via : Via (Accessor × Fin 24))
  /-- R241. SQ_BOB_CTRL.RESUME continues a halted or excepted bobbin at its PC with state kept. -/
  | bobResume (acc : Accessor) (bobbin : Fin 24)
  /-- R240. A bobbin with a halt request reaches its next safe point and enters HALTED, aborting its instruction by Table 10-13. -/
  | bobbinHalted (bobbin : Fin 24)
  /-- R243. BOB.STAT returns a target bobbin's status and PC. -/
  | bobStat (b : Fin 24) (u : Upset)
  /-- R233. CAP.WR or a write of SQ_BOB_CAP sets a halted bobbin's capability mask, or is ignored with event 0x6004. -/
  | capWr (via : Via (Accessor × Fin 24 × Word))
  /-- R245. A micro-word fetch fails parity or lies outside the control store and the word is not executed. -/
  | controlStoreParityError (b : Fin 24) (uaddr : Fin 32768) (mask : Fin 256)
  /-- R250. A bobbin's count since its last safe point reaches 257 micro-cycles. -/
  | safePointOverrun (b : Fin 24) (uaddr : Fin 32768)
  /-- R248. A verified patch image is loaded into the inactive bank and sets PENDING, or is refused with event 0x6011. -/
  | patchLoad (image : List Byte)
  /-- R254. The re-verified active patch is reloaded into the active bank, or matches are disabled with event 0x6013. -/
  | patchReload
  /-- R255. A write of CS_TEST under debug unlock arms a parity fault on a ROM address, or is ignored with event 0x6014. -/
  | csTestWrite (rom : Fin 16384)
  /-- R254. A write of CS_MC_ADDR.CLEAR sets BOBBIN and UADDR to 0. -/
  | mcAddrClear
  /-- R259. A submission queue tail doorbell write makes new entries available for fetch. -/
  | sqTailDoorbell (fn : Fin 2) (qid : Nat) (tail : Nat)
  /-- R269. A completion queue head doorbell write frees CQ room so held completions may post. -/
  | cqHeadDoorbell (fn : Fin 2) (qid : Nat) (head : Nat)
  /-- R267. The queue engine fetches a command into a slot, stamps it, checks its fields and forms its lock requests. -/
  | commandFetch (entry : SqEntry) (data : List Byte) (walk : PtrWalk)
  /-- R271. A lock request is granted once all earlier conflicting requests are released. -/
  | rangeLockGrant (slot : Fin 8192) (idx : Nat)
  /-- R268. A command's host-to-controller data transfer into its data area completes. -/
  | writeDataArrived (slot : Fin 8192) (data : List Byte)
  /-- R268. When its condition is met the host island issues the command's work order with its slot record. -/
  | workOrderIssue (slot : Fin 8192)
  /-- R269. The host island posts a completion after the command's data, with its phase tag and interrupt, and releases its locks. -/
  | completionPost (slot : Fin 8192)
  /-- R276. A write of SNIP_CMD queues a snip request, or is dropped with event 0x7004 when the queue is full. -/
  | snipRequest (fn : Fin 2) (sqid cid : Fin 65536)
  /-- R276. A queued snip request is resolved against its target and SNIP_STATUS is updated. -/
  | snipResolve (fn : Fin 2)
  /-- R277. CC.EN 1→0 stops fetch, discards commands, hems heads, restarts bobbins and resets the function, clearing a machine check. -/
  | controllerReset (fn : Fin 2)
  /-- R349. CC.EN 0→1 raises CSTS.RDY once HOST_READY is 1, or sets CFS for unsupported queue entry sizes. -/
  | controllerEnable (fn : Fin 2) (cc : Word)
  /-- R277. A Function Level Reset acts on its function as a controller reset. -/
  | functionLevelReset (fn : Fin 2)
  /-- R278. CC.SHN = 0b01 stops fetch, completes outstanding commands, commits writes and checkpoints the journal. -/
  | shutdownNormal (fn : Fin 2)
  /-- R278. CC.SHN = 0b10 stops fetch and discards outstanding commands. -/
  | shutdownAbrupt (fn : Fin 2)
  /-- R278. When shutdown work ends CSTS.SHST reads 0b10. -/
  | shutdownComplete (fn : Fin 2)
  /-- R280. A committed CA = 0b011 image stops fetch at t0 and sets CSTS.PP. -/
  | firmwareActivationStart
  /-- R280. At t0 + 300 ms outstanding commands are aborted with event 0x7006, heads hem and bobbins halt. -/
  | activationDrainDeadline
  /-- R280. The new programs and patch take effect, bobbins start, fetch resumes and the Commit completes. -/
  | firmwareActivationResume
  /-- R349. A PCIe configuration request is answered with Request Retry Status until boot stage 2. -/
  | configRequest (req : ConfigReq)
  /-- R284. An SMBus NVMe-MI Basic Management Command returns status flags, warnings and temperature. -/
  | nvmeMiBasicCommand (code : Fin 256)
  /-- R260. Delete I/O SQ deletes a submission queue and aborts its commands. -/
  | deleteIoSq (entry : SqEntry)
  /-- R260. Delete I/O CQ deletes a completion queue. -/
  | deleteIoCq (entry : SqEntry)
  /-- R260. Create I/O SQ creates a physically contiguous submission queue with its priority. -/
  | createIoSq (entry : SqEntry)
  /-- R260. Create I/O CQ creates a completion queue bound to an MSI-X vector. -/
  | createIoCq (entry : SqEntry)
  /-- R264. Get Log Page returns a supported log page. -/
  | getLogPage (entry : SqEntry) (walk : PtrWalk)
  /-- R262. Identify returns a controller, namespace or list structure. -/
  | identify (entry : SqEntry) (walk : PtrWalk)
  /-- R274. The Abort command makes an abort request for a (SQID, CID) at its fetch stamp. -/
  | abort (entry : SqEntry)
  /-- R263. Set Features sets a supported feature value. -/
  | setFeatures (entry : SqEntry)
  /-- R263. Get Features returns a supported feature value. -/
  | getFeatures (entry : SqEntry)
  /-- R283. Asynchronous Event Request holds an outstanding request for a pending event. -/
  | asynchronousEventRequest (entry : SqEntry)
  /-- R261. Namespace Management creates or deletes a namespace with its surface-parity mode. -/
  | namespaceManagement (entry : SqEntry) (data : List Byte) (walk : PtrWalk)
  /-- R260. Namespace Attachment attaches or detaches a namespace. -/
  | namespaceAttachment (entry : SqEntry) (data : List Byte) (walk : PtrWalk)
  /-- R279. Firmware Image Download stages an image piece in the staging area. -/
  | firmwareImageDownload (entry : SqEntry) (data : List Byte) (walk : PtrWalk)
  /-- R279. Firmware Commit verifies the staged package, writes it to a slot and acts on the CA value. -/
  | firmwareCommit (entry : SqEntry)
  /-- R339. The commit's flash write and read-back verification finish and the directory is updated or event 0xA004 logged. -/
  | firmwareCommitWriteDone (upset : Bool)
  /-- R261. Format NVM formats one namespace, optionally changing its surface-parity mode. -/
  | formatNvm (entry : SqEntry)
  /-- R342. Security Send delivers an SPDM message over protocol 0xE8. -/
  | securitySend (entry : SqEntry) (data : List Byte) (walk : PtrWalk)
  /-- R342. Security Receive returns an SPDM response or the protocol list. -/
  | securityReceive (entry : SqEntry) (walk : PtrWalk)
  /-- R273. Flush completes once every earlier Write and Dataset Management in its namespaces is committed to the medium. -/
  | flush (entry : SqEntry)
  /-- R270. Write takes an exclusive range lock, transfers its data and issues a work order. -/
  | write (entry : SqEntry) (walk : PtrWalk)
  /-- R270. Read takes a shared range lock and issues a work order, returning data after WO.DONE. -/
  | read (entry : SqEntry) (walk : PtrWalk)
  /-- R261. Dataset Management deallocates ranges under exclusive locks. -/
  | datasetManagement (entry : SqEntry) (data : List Byte) (walk : PtrWalk)
  /-- R270. Verify reads and checks the medium under a shared lock without data transfer. -/
  | verify (entry : SqEntry)
  /-- R281. Sequencer Call issues a work order for a program function with data in both directions. -/
  | sequencerCall (entry : SqEntry) (walk : PtrWalk)
  /-- R281. Cartridge Load takes the whole-device lock and issues a work order to load and read in the cartridge. -/
  | cartridgeLoad (entry : SqEntry)
  /-- R281. Medium Health Report issues a work order that returns the report for a scope. -/
  | mediumHealthReport (entry : SqEntry) (walk : PtrWalk)
  /-- R281. Cartridge Release takes the whole-device lock and issues a work order to commit, stop and unclamp. -/
  | cartridgeRelease (entry : SqEntry)
  /-- R292. A deferred write apply proceeds once frames are free, unsealed or committed. -/
  | deferredApply
  /-- R293. HC_PL_CTRL OP 1 seals whole atomic groups into a write batch with new generations. -/
  | seal (count : Fin 65536)
  /-- R295. HC_PL_CTRL OP 2 accepts a batch's NEW entries and builds its journal chain, or refuses with event 0x7010. -/
  | commit (batch : Fin 256)
  /-- R295. HC_PL_CTRL OP 3 returns a sealed batch's frames to dirty. -/
  | abandon (batch : Fin 256)
  /-- R298. HC_PL_CTRL OP 5 ends replay and returns namespaces from the start-up limited state. -/
  | replayEnd
  /-- R299. HC_PL_CTRL OP 6 commits COUNT frames of a sealed batch as their own chain in the limited state. -/
  | splitCommit (batch : Fin 256) (count : Fin 65536)
  /-- R296. A write of HC_JRN_DUR raises the highest durable journal sequence. -/
  | journalDurable (seq : Nat)
  /-- R296. The assist applies each chain whose END record is durable, frees frames and releases held completions. -/
  | chainApply
  /-- R311. A buffer-memory read is decoded word by word by syndrome and returns corrected data. -/
  | memoryRead (cls : Fin 7) (addr len : Nat)
  /-- R314. A buffer-memory write is stored, partial words by locked read-merge-write, poisoned where the old word is bad. -/
  | memoryWrite (cls : Fin 7) (addr : Nat) (bytes : List Byte)
  /-- R311. A queued corrected word is written back by a locked read-merge-write. -/
  | eccWriteBack
  /-- R308. All-bank refresh is issued every tREFI, or postponed while head ingest waits. -/
  | refresh (sub : Fin 4) (ingestWaits : Bool)
  /-- R308. Every 1 ms MR4 is read and the reported refresh rate applied. -/
  | mr4Read (sub : Fin 4) (value : Fin 256)
  /-- R309. Every 32 ms each bank's activate count table is cleared. -/
  | activateTableClear
  /-- R309. A row count reaching THR issues DRFM or RFM, resets the count and logs event 0x8005. -/
  | neighbourRefresh (sub : Fin 4) (bank : Fin 32) (row : Nat) (drfm : Bool)
  /-- R307. A bank's idle timer expires and precharges its open row. -/
  | pageIdlePrecharge (sub : Fin 4) (bank : Fin 32)
  /-- R316. Patrol scrub reads its next burst and writes back corrected words. -/
  | patrolScrubRead
  /-- R312. A write of MC_ECC_ERASE erases a device from the next access. -/
  | eccEraseWrite (val : Word)
  /-- R311. A write of MC_ECC_CFG.CLR zeroes the ECC counters. -/
  | eccCountClear (val : Word)
  /-- R317. A write of MC_FLIP_ADDR_HI under debug unlock arms a codeword flip, or is ignored with event 0x800A. -/
  | flipArm (lo hi : Word)
  /-- R318. A write of MC_CFG.ENABLE puts buffer memory in service with the active timing set. -/
  | memoryEnable (val : Word)
  /-- R318. MC_TRN_CMD OP 1 issues a mode register write to selected subchannels. -/
  | mrw (scmask : Fin 16) (mr data : Fin 256)
  /-- R318. MC_TRN_CMD OP 2 issues a mode register read. -/
  | mrr (scmask : Fin 16) (mr answer : Fin 256)
  /-- R318. MC_TRN_CMD OP 3 issues a multi-purpose command. -/
  | mpc (scmask : Fin 16) (op : Fin 256)
  /-- R318. MC_TRN_CMD OP 4 precharges all banks. -/
  | prechargeAll (scmask : Fin 16)
  /-- R318. MC_TRN_CMD OP 5 issues an all-bank refresh. -/
  | refreshAll (scmask : Fin 16)
  /-- R318. MC_TRN_CMD OP 6 writes and reads raw patterns and records sticky DQ fails. -/
  | patternRun (scmask : Fin 16) (bursts : Fin 65536) (errs : List (Fin 4 × Nat))
  /-- R319. A write of MC_SWEEP.START runs the compatibility sweep in hardware. -/
  | sweepStart
  /-- R319. The sweep writes delay bank 0 and logs event 0x800B. -/
  | sweepEnd (failMask : Fin 16) (codes : List (Nat × Word))
  /-- R320. A write of MC_FC_CTRL.REQ starts a change to the target timing set through self-refresh, or is refused with event 0x8007. -/
  | frequencyChangeRequest (target : Fin 2)
  /-- R320. The frequency change resumes admission with the new set and logs event 0x8006. -/
  | frequencyChangeDone
  /-- R322. Every 1 ms the witness band-gap is compared with VBG, a persistent deviation freezing coefficients and logging 0x9001. -/
  | bandgapCompare (dev : Nat)
  /-- R324. Every 1 ms each sense channel converts its shorted input and reference point in two calibration slots. -/
  | calibrationSlots (z r : List Int)
  /-- R326. On power-on, a temperature change of DT or PERIOD seconds the targets are copied into service with event 0x9005. -/
  | calibrationCopy
  /-- R327. Every 1 ms the applied coefficients step toward their targets. -/
  | calibrationSlew
  /-- R328. A write of CAL_ADC_TGT while MAN is 1 sets a target, clamping to the limits. -/
  | adcTargetWrite (c : Fin 33) (val : Word)
  /-- R329. A write of CAL_CMP_CTRL.RUN with the spindle stopped trims the comparator offset DACs, or is ignored with 0x9004. -/
  | comparatorTrim
  /-- R329. The comparator trim ends and logs event 0x9003. -/
  | comparatorTrimDone (rise fall : Vector (Fin 64) 3)
  /-- R330. Every 100 µs each temperature sensor reports and the composite temperature is updated. -/
  | temperatureReport (readings : List Int)
  /-- R336. After lock the boot ROM chooses and verifies a firmware slot, updating the directory and logging refusals. -/
  | bootVerify
  /-- R338. Stage 2 applies the configuration record and its register list and powers the memory, decode and head domains. -/
  | bootConfigApply
  /-- R348. Stage 3 activates the patch, loads the program image and starts the bobbins. -/
  | bootBobbinsStart
  /-- R349. A write of SYS_BOOT.HOST_READY marks boot stage 5 and allows CSTS.RDY to rise. -/
  | hostReadySet
  /-- R335. A write of SEC_CTRL.FLOOR_COMMIT raises the fused floor, or is refused with event 0xA006. -/
  | floorCommit
  /-- R335. A write of SEC_CTRL.REVOKE revokes a key slot, or is refused with event 0xA006. -/
  | revoke (slot : Fin 4)
  /-- R344. A write of SEC_DBG_CTRL.SUBMIT checks the unlock token, grants or refuses it and draws a new nonce. -/
  | debugUnlockSubmit
  /-- R342. A DOE Discovery request returns the supported data object protocols. -/
  | doeDiscovery (fn : Fin 2) (index : Nat)
  /-- R342. The SPDM GET_VERSION request returns the supported SPDM version. -/
  | getVersion (via : Transport) (msg : List Byte)
  /-- R342. The SPDM GET_CAPABILITIES request returns the responder's capabilities. -/
  | getCapabilities (via : Transport) (msg : List Byte)
  /-- R342. The SPDM NEGOTIATE_ALGORITHMS request selects P-384, SHA-384, secp384r1 and AES-256-GCM. -/
  | negotiateAlgorithms (via : Transport) (msg : List Byte)
  /-- R342. The SPDM GET_DIGESTS request returns the digest of certificate slot 0. -/
  | getDigests (via : Transport) (msg : List Byte)
  /-- R342. The SPDM GET_CERTIFICATE request returns the certificate chain of slot 0. -/
  | getCertificate (via : Transport) (msg : List Byte)
  /-- R342. The SPDM CHALLENGE request returns a response signed with the identity key. -/
  | challenge (via : Transport) (msg : List Byte)
  /-- R343. The SPDM GET_MEASUREMENTS request returns the measurement blocks in force. -/
  | getMeasurements (via : Transport) (msg : List Byte)
  /-- R342. The SPDM KEY_EXCHANGE request opens a session unless four are open. -/
  | keyExchange (via : Transport) (msg : List Byte)
  /-- R342. The SPDM FINISH request completes session establishment. -/
  | finish (via : Transport) (sid : Nat) (msg : List Byte)
  /-- R342. The SPDM HEARTBEAT request keeps a session alive. -/
  | heartbeat (via : Transport) (sid : Nat) (msg : List Byte)
  /-- R342. The SPDM KEY_UPDATE request updates a session's keys. -/
  | keyUpdate (via : Transport) (sid : Nat) (msg : List Byte)
  /-- R342. The SPDM END_SESSION request closes a session. -/
  | endSession (via : Transport) (sid : Nat) (msg : List Byte)
  /-- R351. SYS_POR_N or SYS_PWRGD_AON low resets everything except fuses and boot flash. -/
  | powerOnReset
  /-- R351. PERST_N asserted resets every island except the time base and event log and reruns the boot from stage 1. -/
  | warmReset
  /-- R346. A power domain falls due and its switch closes once every supply group it needs is good. -/
  | domainPowerUp (dom : Fin 19) (levels : Fin 16)
  /-- R346. After the settle time the domain's power-good is checked and isolation, reset and clock are released, or the domain fails. -/
  | domainPowerCheck (dom : Fin 19) (good : Bool)
  /-- R346. A supply group not good 100 ms after a power-up fell due fails every domain that needs it. -/
  | supplyGroupWaitTimeout (group : Fin 3)
  /-- R346. 1 ms after a failed PD16 to PD18 power-up the SX16 tries once more, then leaves it off with event 0x9015. -/
  | domainPowerRetry (dom : Fin 19)
  /-- R347. A non-AON power-good low for 1 µs drops every HD_LEN, isolates its domains and logs event 0x9014. -/
  | supplyGroupLost (group : Fin 3)
  /-- R352. A write of SYS_HEAD_CTRL.ISOLATE takes a head out of service and isolates its domain after its hem. -/
  | headIsolate (n : Fin 16)
  /-- R352. A head domain losing power-good in service takes the head out of service with outcomes completed on its behalf. -/
  | headDomainPowerLost (n : Fin 16)
  /-- R352. At hem completion or i + 600,000 ticks the head's crossings close, PD(n) is isolated and event 0x1001 is logged. -/
  | headIsolationDeadline (n : Fin 16)
  /-- R353. A write of SYS_HEAD_CTRL.POWER powers an isolated populated head again, or is refused, logging event 0x1003. -/
  | headPower (n : Fin 16)
  /-- R356. A write of EV_RPTR updates the consumer count and re-evaluates the attention backlog test. -/
  | evRptrWrite (val : Word)
  /-- R356. A write of EV_ATTN sets mask and threshold and re-evaluates the attention backlog test. -/
  | evAttnWrite (val : Word)
  /-- R356. A write clearing EV_STATUS.ATTN clears it, and it sets again with vector 258 if a condition still holds. -/
  | attnClear
  /-- R298. A write of HC_PL_CTRL with OP = 4 empties the journal ring, sets HC_JRN_DUR to 0, sets REPLAY and puts every namespace in the limited state by start-up. -/
  | journalReplayStart
  /-- R65. An up lane's header is missing at its expected tick, so the frame is lost, counted against the lane and its held side blocks are dropped. -/
  | upFrameMissing (head : Fin 16) (lane : Fin 4) (fcnt : Fin 65536)
  /-- R199. Every 150 ticks each sled phase's sense input is sampled and the hysteresis chopper moves between DRIVE, DECAY and FAST, updating δ at each chop-cycle end. -/
  | chopperSample (sled : Fin 16) (rawA rawB : Int)
  /-- R218. At each spindle PWM period start the motor island applies the pending duty, publishes the motor quantities to the loop engine and applies the braking ILIM release. -/
  | pwmPeriod (current : Int)
  /-- R161. LASER_INH_N rising clears INH_PIN and starts the continuous-high time that a later REARM write must find at 10 ms. -/
  | laserInhRelease
  /-- R350. In a boot without image, the always-on logic's zero fill of 0x0 to 0x8410_0000 − 1 ends and HOST_READY is set. -/
  | noImageFillDone
  /-- R351. Deassertion of PERST_N lets the PCIe link train and reruns the boot from stage 1 after a warm reset. -/
  | perstNRelease
  /-- R269. The Interrupt Coalescing aggregation time runs out and the held completion-queue interrupt is sent. -/
  | interruptCoalescingTime (fn : Fin 2) (qid : Nat)
  /-- R282. A PCIe error on a command's DMA makes the host island complete the command with Data Transfer Error. -/
  | pcieDmaError (slot : Fin 8192)
  deriving DecidableEq, Repr

end Sys2Proof
end

