-- ==== Sys2Proof/Decode.lean ====
section
/-!
DEFINITION. Decode.lean: the command that a word of the table of operations spells. No row of the table gives bits, so no word
spells one.
-/

namespace Sys2Proof

/-- The command of a word of the table: none of its rows has bits. -/
def decodeTableWord (_nbits _w : Nat) : Option Instr := none

end Sys2Proof
end

