-- ==== Sys2Proof/Config.lean ====
section
/-!
DEFINITION. Config.lean: what an implementation fixes and the spec leaves open. Every constant here has no
body: no proof can see its value, and a claim that holds, holds for every value of it. The assumption log says
which rule leaves each one open.
-/

namespace Sys2Proof.Config

/-- R22, R24: a stamp lies within one tick of the counter at the edge that captured the event. The residual is
this value less 1, by island or stamp cell and tick (log entry 3). -/
opaque stampResidual : Nat → Nat → Fin 3

/-- A value that the spec leaves open and that no operand determines, by the free-value counter of the state
(log entry 4). -/
opaque freeValue : Nat → Nat

/-- Whether a result whose rounding the spec does not give is rounded up: by the numerator and the
denominator of the exact value (log entry 5). -/
opaque roundsUp : Int → Nat → Bool

/-- Fuse and mask contents that the spec calls fixed at manufacture: the register's offset gives the word
(log entry 6). -/
opaque fusedWord : Nat → Word

/-- What a 40-bit loop state holds after an update that falls outside it (R167 gives no result): by the exact
value (log entry 9). -/
opaque wideState : Int → Int

/-- How the pattern unit fills a beat from SEED (R318, Table 14-32 give no rule): by MC_TRN_PAT and the beat's
index (log entry 13). -/
opaque patternBeat : Nat → Nat → Nat

/-- The numbers of the decode work statuses that the spec gives in words only (R50, R130, R131; log entry 15). -/
opaque workStatus : Nat → Nat

/-- The bytes of the header of a retained copy or of a spilled or staged record: the spec lists its fields and gives no
layout (R111, R112; log entry 100): by the fields, one after another as a number, and the byte's place. -/
opaque headerByte : Nat → Nat → Byte

/-- The surface that holds P of the stripe that a surface-parity order names: the order gives its addresses by surface and
neither the band nor the layer that place P and Q (R129, Table 10-11; log entry 19): by the order's bytes as a number. -/
opaque paritySurface : Nat → Nat

/-- Where the spill area of a head and the deep staging area lie in buffer memory (R113, R120; log entry 136): by head, 16 for
deep staging, and the record's number. -/
opaque stagingAddr : Nat → Nat → Nat

/-- The bit of Asynchronous Event Configuration that enables a vendor event or an event of a program (R263, R283 name no
bit; log entry 38): by 256·type + information. -/
opaque asyncEventBit : Nat → Nat

/-- Bytes of an answer to the host whose content comes from the configuration record, or whose layout the spec does not
give (R262, R264, R302; log entry 41): by the answer's number, the state's free-value counter, and the byte's place. -/
opaque answerByte : Nat → Nat → Nat → Byte

/-- How many bytes a program's answer returns (R281: the count comes from the program; Table 10-12 has no place for it;
log entry 42): by a free value. -/
opaque returnedBytes : Nat → Nat

/-- SHA-384 and ECDSA P-384 verification (key, digest, signature): public standards that the spec names and does not state
(log entry 54). -/
opaque sha384 : List Byte → List Byte
opaque ecdsaVerifies : List Byte → List Byte → List Byte → Bool

/-- A signature by the identity key over a message (R341, R342; log entry 54). -/
opaque identitySign : List Byte → List Byte

/-- The boot ROM's contents as measured (R343), and whether the certificate area's device certificate carries the derived
identity key (R341; log entry 54). -/
opaque romMeasured : List Byte
opaque certificateMatches : Bool

end Sys2Proof.Config
end

