-- ==== Sys2Proof/Machine/RegMap.lean ====
section
/-!
DEFINITION. Machine/RegMap.lean: the register map of BAR0 (Tables 1-10 and the register tables of every
chapter): the offset of each register, the place of each of its fields, and the table of access types,
reset values and store limits that R5 to R8 act on.
-/

namespace Sys2Proof.Machine

/-- The access types of Table 0-4 (R7). -/
inductive Access where
  | ro | rw | wo | w1c | w1s | rws
  deriving DecidableEq, Repr

/-- One field of a register: its place, access type, reset value, and the least and greatest value a
write stores (R7 and the field's own description: a write outside them is stored as the nearest end). -/
structure RegField where
  pos   : FieldPos
  acc   : Access
  reset : Nat
  least : Nat
  most  : Nat
  deriving DecidableEq, Repr

/-- How a register takes part in a 64-bit pair under R8. -/
inductive PairRole where
  | single | roLo | roHi | rwLo | rwHi
  deriving DecidableEq, Repr

/-- One row of the register map: the registers `base + i1*stride1 + i2*stride2 + …`. -/
structure RegDesc where
  base   : Nat
  dims   : List (Nat × Nat)
  pair   : PairRole
  fields : List RegField
  deriving DecidableEq, Repr

namespace R

/-- Table 2-3. -/
def TB_NOW_LO : Nat := 0x018000
/-- Table 2-4. -/
def TB_NOW_HI : Nat := 0x018004
/-- Table 2-5. -/
def TB_STATUS : Nat := 0x018008
/-- Table 2-6. -/
def TB_FAULT_CNT : Nat := 0x01800C
/-- Table 2-7. -/
def TB_STAMP_FAULT : Nat := 0x018010
/-- Table 2-8. -/
def TB_ISL_OFS0 : Nat := 0x018014
/-- Table 2-9. -/
def TB_ISL_OFS1 : Nat := 0x018018
/-- Table 3-9. -/
def HD_FMT_CFG (n : Nat) : Nat := 0x400100 + n * 0x20000
/-- Table 3-10. -/
def HD_SYNC_CFG (n : Nat) : Nat := 0x400104 + n * 0x20000
/-- Table 3-11. -/
def HD_FLY_STATUS (n : Nat) : Nat := 0x400108 + n * 0x20000
/-- Table 3-12. -/
def HD_ADDR (n : Nat) : Nat := 0x40010C + n * 0x20000
/-- Table 3-13. -/
def HD_SYNC_CNT0 (n : Nat) : Nat := 0x400110 + n * 0x20000
/-- Table 3-14. -/
def HD_SYNC_CNT1 (n : Nat) : Nat := 0x400114 + n * 0x20000
/-- Table 4-12. -/
def TL_CTRL (n : Nat) : Nat := 0x410000 + n * 0x20000
/-- Table 4-13. -/
def TL_STATUS (n : Nat) : Nat := 0x410004 + n * 0x20000
/-- Table 4-14. -/
def TL_ERR_CFG (n : Nat) : Nat := 0x410008 + n * 0x20000
/-- Table 4-15. -/
def TL_ERR_CNT (n : Nat) : Nat := 0x41000C + n * 0x20000
/-- Table 4-16. -/
def TL_DL_CNT (n : Nat) : Nat := 0x410010 + n * 0x20000
/-- Table 4-17. -/
def TL_ALIGN (n : Nat) : Nat := 0x410014 + n * 0x20000
/-- Table 4-18. -/
def TL_FE_CAP (n : Nat) : Nat := 0x410018 + n * 0x20000
/-- Table 4-19. -/
def TL_FE_ID (n : Nat) : Nat := 0x41001C + n * 0x20000
/-- Table 5-8. -/
def HD_CH_CFG (n : Nat) : Nat := 0x400200 + n * 0x20000
/-- Table 5-9. -/
def HD_ADAPT_CFG (n : Nat) : Nat := 0x400204 + n * 0x20000
/-- Table 5-10. -/
def HD_TIMING_CFG (n : Nat) : Nat := 0x400208 + n * 0x20000
/-- Table 5-11. -/
def HD_UNPICK_CFG (n : Nat) : Nat := 0x40020C + n * 0x20000
/-- Table 5-12. -/
def HD_DROP_CFG (n : Nat) : Nat := 0x400210 + n * 0x20000
/-- Table 5-13. -/
def HD_DROP_MASK (n : Nat) : Nat := 0x400214 + n * 0x20000
/-- Table 5-14. -/
def HD_ZONE_BASE_LO (n : Nat) : Nat := 0x400218 + n * 0x20000
/-- Table 5-15. -/
def HD_ZONE_BASE_HI (n : Nat) : Nat := 0x40021C + n * 0x20000
/-- Table 5-16. -/
def HD_CH_STATUS (n : Nat) : Nat := 0x400220 + n * 0x20000
/-- Table 5-17. -/
def HD_UNPICK_CNT (n : Nat) : Nat := 0x400224 + n * 0x20000
/-- Table 5-18. -/
def HD_SOFTERASE_CNT (n : Nat) : Nat := 0x400228 + n * 0x20000
/-- Table 5-19. -/
def HD_DROP_CNT (n : Nat) : Nat := 0x40022C + n * 0x20000
/-- Table 5-20. -/
def HD_CLAMP_CNT (n : Nat) : Nat := 0x400230 + n * 0x20000
/-- Table 5-21. -/
def HD_INGEST (n : Nat) : Nat := 0x400234 + n * 0x20000
/-- Table 6-7. -/
def DC_FP_CFG : Nat := 0x180000
/-- Table 6-8. -/
def DC_DEEP_CFG : Nat := 0x180004
/-- Table 6-9. -/
def DC_TWILL_CFG : Nat := 0x180008
/-- Table 6-10. -/
def DC_RA_CFG : Nat := 0x18000C
/-- Table 6-11. -/
def DC_OUT_BASE_LO : Nat := 0x180010
/-- Table 6-12. -/
def DC_OUT_BASE_HI : Nat := 0x180014
/-- Table 6-13. -/
def DC_OUT_PROD : Nat := 0x180018
/-- Table 6-14. -/
def DC_OUT_CONS : Nat := 0x18001C
/-- Table 6-15. -/
def DC_RA_BASE_LO : Nat := 0x180020
/-- Table 6-16. -/
def DC_RA_BASE_HI : Nat := 0x180024
/-- Table 6-17. -/
def DC_STATUS : Nat := 0x180028
/-- Table 6-18. -/
def DC_CNT_CLR : Nat := 0x18002C
/-- Table 6-19. -/
def DC_CNT (n : Nat) : Nat := 0x180040 + n * 0x4
/-- Table 7-8. -/
def HD_WR_CFG (n : Nat) : Nat := 0x400300 + n * 0x20000
/-- Table 7-9. -/
def HD_VFY_RAW (n : Nat) : Nat := 0x400304 + n * 0x20000
/-- Table 7-10. -/
def HD_STRAT_BASE_LO (n : Nat) : Nat := 0x400308 + n * 0x20000
/-- Table 7-11. -/
def HD_STRAT_BASE_HI (n : Nat) : Nat := 0x40030C + n * 0x20000
/-- Table 7-12. -/
def HD_LASER_CTRL (n : Nat) : Nat := 0x400310 + n * 0x20000
/-- Table 7-13. -/
def HD_CEIL_RD (n : Nat) : Nat := 0x400314 + n * 0x20000
/-- Table 7-14. -/
def HD_CEIL_WR (n : Nat) : Nat := 0x400318 + n * 0x20000
/-- Table 7-15. -/
def HD_DERATE_CFG (n : Nat) : Nat := 0x40031C + n * 0x20000
/-- Table 7-16. -/
def HD_DERATE_CTRL (n : Nat) : Nat := 0x400320 + n * 0x20000
/-- Table 7-17. -/
def HD_LASER_STATUS (n : Nat) : Nat := 0x400324 + n * 0x20000
/-- Table 7-18. -/
def HD_WR_CNT (n : Nat) : Nat := 0x400328 + n * 0x20000
/-- Table 7-19. -/
def HD_VFY_CNT (n : Nat) : Nat := 0x40032C + n * 0x20000
/-- Table 7-20. -/
def HD_VFY_CNT1 (n : Nat) : Nat := 0x400330 + n * 0x20000
/-- Table 8-11. -/
def LP_TRC_CTRL : Nat := 0x100000
/-- Table 8-12. -/
def LP_TRC_STATUS : Nat := 0x100004
/-- Table 8-13. -/
def LP_TRC_COMP_LO : Nat := 0x100008
/-- Table 8-14. -/
def LP_TRC_COMP_HI : Nat := 0x10000C
/-- Table 8-15. -/
def LP_HEAD_CFG (n : Nat) : Nat := 0x100100 + n * 0x4
/-- Table 8-16. -/
def LP_HEAD_MAP (n : Nat) : Nat := 0x100140 + n * 0x4
/-- Table 8-17. -/
def LP_SEQ_ACQ (n : Nat) : Nat := 0x100800 + n * 0x20
/-- Table 8-18. -/
def LP_SEQ_LOCK (n : Nat) : Nat := 0x100804 + n * 0x20
/-- Table 8-19. -/
def LP_SEQ_DRV (n : Nat) : Nat := 0x100808 + n * 0x20
/-- Table 8-20. -/
def LP_SEQ_LIM (n : Nat) : Nat := 0x10080C + n * 0x20
/-- Table 8-21. -/
def LP_SEQ_TIME (n : Nat) : Nat := 0x100810 + n * 0x20
/-- Table 8-22. -/
def LP_SEQ_STATUS (n : Nat) : Nat := 0x100814 + n * 0x20
/-- Table 8-23. -/
def LP_SLOT_CTRL (n : Nat) : Nat := 0x110000 + n * 0x200
/-- Table 8-24. -/
def LP_SLOT_CFG (n : Nat) : Nat := 0x110004 + n * 0x200
/-- Table 8-25. -/
def LP_SLOT_SCHED (n : Nat) : Nat := 0x110008 + n * 0x200
/-- Table 8-26. -/
def LP_SLOT_SUP (n : Nat) : Nat := 0x11000C + n * 0x200
/-- Table 8-27. -/
def LP_SLOT_TRC (n : Nat) : Nat := 0x110010 + n * 0x200
/-- Table 8-28. -/
def LP_SLOT_STATUS (n : Nat) : Nat := 0x110014 + n * 0x200
/-- Table 8-29. -/
def LP_NODE (n : Nat) (k : Nat) : Nat := 0x110040 + n * 0x200 + k * 0x4
/-- Table 8-31. -/
def LP_COEF (n : Nat) (k : Nat) : Nat := 0x110100 + n * 0x200 + k * 0x4
/-- Table 9-9. -/
def SL_CTRL (n : Nat) : Nat := 0x141000 + n * 0x200
/-- Table 9-10. -/
def SL_STATUS (n : Nat) : Nat := 0x141004 + n * 0x200
/-- Table 9-11. -/
def SL_TARGET (n : Nat) : Nat := 0x141008 + n * 0x200
/-- Table 9-12. -/
def SL_POS (n : Nat) : Nat := 0x14100C + n * 0x200
/-- Table 9-13. -/
def SL_VMAX (n : Nat) : Nat := 0x141010 + n * 0x200
/-- Table 9-14. -/
def SL_PROFILE (n : Nat) : Nat := 0x141014 + n * 0x200
/-- Table 9-15. -/
def SL_LIMIT_LO (n : Nat) : Nat := 0x141018 + n * 0x200
/-- Table 9-16. -/
def SL_LIMIT_HI (n : Nat) : Nat := 0x14101C + n * 0x200
/-- Table 9-17. -/
def SL_CUR (n : Nat) : Nat := 0x141020 + n * 0x200
/-- Table 9-18. -/
def SL_PROT (n : Nat) : Nat := 0x141024 + n * 0x200
/-- Table 9-19. -/
def SL_CHOP (n : Nat) : Nat := 0x141028 + n * 0x200
/-- Table 9-20. -/
def SL_LA_CFG (n : Nat) : Nat := 0x14102C + n * 0x200
/-- Table 9-21. -/
def SL_LA_THR (n : Nat) : Nat := 0x141030 + n * 0x200
/-- Table 9-22. -/
def SL_LA (n : Nat) : Nat := 0x141034 + n * 0x200
/-- Table 9-23. -/
def SL_AUX_CFG (n : Nat) : Nat := 0x141038 + n * 0x200
/-- Table 9-24. -/
def SL_HOME_POS (n : Nat) : Nat := 0x14103C + n * 0x200
/-- Table 9-25. -/
def SL_LATCH_LO (n : Nat) : Nat := 0x141040 + n * 0x200
/-- Table 9-26. -/
def SL_LATCH_HI (n : Nat) : Nat := 0x141044 + n * 0x200
/-- Table 9-27. -/
def SL_LATCH_POS (n : Nat) : Nat := 0x141048 + n * 0x200
/-- Table 9-28. -/
def SL_ORIGIN (n : Nat) : Nat := 0x14104C + n * 0x200
/-- Table 9-29. -/
def SP_CTRL : Nat := 0x140000
/-- Table 9-30. -/
def SP_STATUS : Nat := 0x140004
/-- Table 9-31. -/
def SP_SPEED : Nat := 0x140008
/-- Table 9-32. -/
def SP_GOV : Nat := 0x14000C
/-- Table 9-33. -/
def SP_REF : Nat := 0x140010
/-- Table 9-34. -/
def SP_START_CFG : Nat := 0x140014
/-- Table 9-35. -/
def SP_ALIGN_CFG : Nat := 0x140018
/-- Table 9-36. -/
def SP_COMM_CFG : Nat := 0x14001C
/-- Table 9-37. -/
def SP_PWM : Nat := 0x140020
/-- Table 9-38. -/
def SP_PROT : Nat := 0x140024
/-- Table 9-39. -/
def SP_THERM : Nat := 0x140028
/-- Table 9-40. -/
def SP_DUTY : Nat := 0x14002C
/-- Table 10-17. -/
def SQ_RUNNING : Nat := 0x080000
/-- Table 10-18. -/
def SQ_EXC : Nat := 0x080004
/-- Table 10-19. -/
def SQ_WO_STATUS : Nat := 0x080008
/-- Table 10-20. -/
def SQ_BOB_CTRL (n : Nat) : Nat := 0x081000 + n * 0x40
/-- Table 10-21. -/
def SQ_BOB_STATUS (n : Nat) : Nat := 0x081004 + n * 0x40
/-- Table 10-22. -/
def SQ_BOB_PC (n : Nat) : Nat := 0x081008 + n * 0x40
/-- Table 10-23. -/
def SQ_BOB_ENTRY (n : Nat) : Nat := 0x08100C + n * 0x40
/-- Table 10-24. -/
def SQ_BOB_CAP (n : Nat) : Nat := 0x081010 + n * 0x40
/-- Table 10-25. -/
def SQ_BOB_EXC (n : Nat) : Nat := 0x081014 + n * 0x40
/-- Table 10-26. -/
def SQ_BOB_EXC_LO (n : Nat) : Nat := 0x081018 + n * 0x40
/-- Table 10-27. -/
def SQ_BOB_EXC_HI (n : Nat) : Nat := 0x08101C + n * 0x40
/-- Table 10-28. -/
def SQ_BOB_ISSUED (n : Nat) : Nat := 0x081020 + n * 0x40
/-- Table 11-7. -/
def CS_ROM_ID : Nat := 0x0C0000
/-- Table 11-8. -/
def CS_STATUS : Nat := 0x0C0004
/-- Table 11-9. -/
def CS_PATCH_VER : Nat := 0x0C0008
/-- Table 11-10. -/
def CS_MC_STATUS : Nat := 0x0C000C
/-- Table 11-11. -/
def CS_MC_ADDR : Nat := 0x0C0010
/-- Table 11-12. -/
def CS_MC_STAMP_LO : Nat := 0x0C0014
/-- Table 11-13. -/
def CS_MC_STAMP_HI : Nat := 0x0C0018
/-- Table 11-14. -/
def CS_TEST : Nat := 0x0C001C
/-- Table 11-15. -/
def CS_MATCH (n : Nat) : Nat := 0x0C0100 + n * 0x4
/-- Table 12-11. -/
def SNIP_CMD : Nat := 0x003000
/-- Table 12-12. -/
def SNIP_STATUS : Nat := 0x003004
/-- Table 12-18. -/
def HC_STATUS : Nat := 0x040000
/-- Table 12-19. -/
def HC_OCC : Nat := 0x040004
/-- Table 12-20. -/
def HC_SUMP : Nat := 0x040008
/-- Table 12-21. -/
def HC_DATA_BASE_LO : Nat := 0x040010
/-- Table 12-22. -/
def HC_DATA_BASE_HI : Nat := 0x040014
/-- Table 12-23. -/
def HC_ABORT_CNT : Nat := 0x040018
/-- Table 12-24. -/
def HC_FETCH_CNT : Nat := 0x04001C
/-- Table 13-11. -/
def HC_PL_BASE_LO : Nat := 0x040100
/-- Table 13-12. -/
def HC_PL_BASE_HI : Nat := 0x040104
/-- Table 13-13. -/
def HC_PL_CFG : Nat := 0x040108
/-- Table 13-14. -/
def HC_PL_CTRL : Nat := 0x04010C
/-- Table 13-15. -/
def HC_PL_STATUS : Nat := 0x040110
/-- Table 13-16. -/
def HC_JRN_DUR_LO : Nat := 0x040114
/-- Table 13-17. -/
def HC_JRN_DUR_HI : Nat := 0x040118
/-- Table 14-10. -/
def MC_CFG : Nat := 0x1C0000
/-- Table 14-11. -/
def MC_STATUS : Nat := 0x1C0004
/-- Table 14-12. -/
def MC_ARB : Nat := 0x1C0008
/-- Table 14-13. -/
def MC_TSET0 (n : Nat) : Nat := 0x1C0100 + n * 0x20
/-- Table 14-13. -/
def MC_TSET1 (n : Nat) : Nat := 0x1C0104 + n * 0x20
/-- Table 14-13. -/
def MC_TSET2 (n : Nat) : Nat := 0x1C0108 + n * 0x20
/-- Table 14-13. -/
def MC_TSET3 (n : Nat) : Nat := 0x1C010C + n * 0x20
/-- Table 14-13. -/
def MC_TSET4 (n : Nat) : Nat := 0x1C0110 + n * 0x20
/-- Table 14-14. -/
def MC_PAGE : Nat := 0x1C000C
/-- Table 14-15. -/
def MC_ACT_CFG : Nat := 0x1C0010
/-- Table 14-16. -/
def MC_ACT_CNT : Nat := 0x1C0014
/-- Table 14-17. -/
def MC_ECC_CFG : Nat := 0x1C0018
/-- Table 14-18. -/
def MC_ECC_ERASE : Nat := 0x1C001C
/-- Table 14-19. -/
def MC_ECC_CNT : Nat := 0x1C0020
/-- Table 14-20. -/
def MC_ECC_DEV (n : Nat) : Nat := 0x1C0024 + n * 0x4
/-- Table 14-21. -/
def MC_ECC_LAST_LO : Nat := 0x1C0034
/-- Table 14-22. -/
def MC_ECC_LAST_HI : Nat := 0x1C0038
/-- Table 14-23. -/
def MC_SCRUB_CFG : Nat := 0x1C0040
/-- Table 14-24. -/
def MC_SCRUB_STATUS : Nat := 0x1C0044
/-- Table 14-25. -/
def MC_FLIP_ADDR_LO : Nat := 0x1C0048
/-- Table 14-26. -/
def MC_FLIP_ADDR_HI : Nat := 0x1C004C
/-- Table 14-27. -/
def MC_FLIP_MASK0 : Nat := 0x1C0050
/-- Table 14-27. -/
def MC_FLIP_MASK1 : Nat := 0x1C0054
/-- Table 14-27. -/
def MC_FLIP_MASK2 : Nat := 0x1C0058
/-- Table 14-28. -/
def MC_FC_CTRL : Nat := 0x1C0060
/-- Table 14-29. -/
def MC_SWEEP : Nat := 0x1C0070
/-- Table 14-30. -/
def MC_TRN_CMD : Nat := 0x1C0200
/-- Table 14-31. -/
def MC_TRN_ADDR : Nat := 0x1C0204
/-- Table 14-32. -/
def MC_TRN_PAT : Nat := 0x1C0208
/-- Table 14-33. -/
def MC_TRN_STATUS : Nat := 0x1C020C
/-- Table 14-34. -/
def MC_TRN_FAIL (n : Nat) (k : Nat) : Nat := 0x1C0210 + n * 0x8 + k * 0x4
/-- Table 14-35. -/
def MC_DLY_DQ (n : Nat) (k : Nat) (j : Nat) : Nat := 0x1C1000 + n * 0x400 + k * 0x100 + j * 0x4
/-- Table 14-36. -/
def MC_DLY_LANE (n : Nat) (k : Nat) (j : Nat) : Nat := 0x1C10A0 + n * 0x400 + k * 0x100 + j * 0x4
/-- Table 15-3. -/
def CAL_STATUS : Nat := 0x200000
/-- Table 15-4. -/
def CAL_STATUS1 : Nat := 0x200004
/-- Table 15-5. -/
def CAL_TRIG : Nat := 0x200008
/-- Table 15-6. -/
def CAL_SLEW : Nat := 0x20000C
/-- Table 15-7. -/
def CAL_COMPOSITE : Nat := 0x200010
/-- Table 15-8. -/
def CAL_TEMP (n : Nat) : Nat := 0x200100 + n * 0x4
/-- Table 15-9. -/
def CAL_ADC_APP (n : Nat) : Nat := 0x200200 + n * 0x8
/-- Table 15-10. -/
def CAL_ADC_TGT (n : Nat) : Nat := 0x200204 + n * 0x8
/-- Table 15-11. -/
def CAL_CMP_CTRL : Nat := 0x200400
/-- Table 15-12. -/
def CAL_CMP_DAC : Nat := 0x200404
/-- Table 16-8. -/
def SEC_STATUS : Nat := 0x240000
/-- Table 16-9. -/
def SEC_FUSE : Nat := 0x240004
/-- Table 16-10. -/
def SEC_CTRL : Nat := 0x240008
/-- Table 16-11. -/
def SEC_UID (n : Nat) : Nat := 0x240010 + n * 0x4
/-- Table 16-12. -/
def SEC_DBG_CHAL (n : Nat) : Nat := 0x240100 + n * 0x4
/-- Table 16-13. -/
def SEC_DBG_BUF (n : Nat) : Nat := 0x240200 + n * 0x4
/-- Table 16-14. -/
def SEC_DBG_CTRL : Nat := 0x240400
/-- Table 17-9. -/
def SYS_IDENT : Nat := 0x010000
/-- Table 17-10. -/
def SYS_IDENT1 : Nat := 0x010004
/-- Table 17-11. -/
def SYS_RST_CAUSE : Nat := 0x010008
/-- Table 17-12. -/
def SYS_BOOT : Nat := 0x01000C
/-- Table 17-13. -/
def SYS_DOMAIN : Nat := 0x010010
/-- Table 17-14. -/
def SYS_DOMAIN_FAIL : Nat := 0x010014
/-- Table 17-15. -/
def SYS_HEAD_CTRL : Nat := 0x010018
/-- Table 17-16. -/
def SYS_HEAD_STATUS : Nat := 0x01001C
/-- Table 17-17. -/
def SYS_SUPPLY : Nat := 0x010020
/-- Table 17-18. -/
def EV_WPTR : Nat := 0x020000
/-- Table 17-19. -/
def EV_RPTR : Nat := 0x020004
/-- Table 17-20. -/
def EV_COMP_LO : Nat := 0x020008
/-- Table 17-21. -/
def EV_COMP_HI : Nat := 0x02000C
/-- Table 17-22. -/
def EV_ATTN : Nat := 0x020010
/-- Table 17-23. -/
def EV_STATUS : Nat := 0x020014

end R

namespace F

def TB_NOW_LO_NOW_LO : FieldPos := ⟨31, 0⟩
def TB_NOW_HI_NOW_HI : FieldPos := ⟨31, 0⟩
def TB_STATUS_DIST_ERR_SEEN : FieldPos := ⟨4, 4⟩
def TB_STATUS_REF_LOST_SEEN : FieldPos := ⟨3, 3⟩
def TB_STATUS_HOLDOVER : FieldPos := ⟨2, 2⟩
def TB_STATUS_REF_PRESENT : FieldPos := ⟨1, 1⟩
def TB_STATUS_LOCKED : FieldPos := ⟨0, 0⟩
def TB_FAULT_CNT_DIST_ERR_CNT : FieldPos := ⟨15, 0⟩
def TB_STAMP_FAULT_SECURITY : FieldPos := ⟨21, 21⟩
def TB_STAMP_FAULT_MOTOR : FieldPos := ⟨20, 20⟩
def TB_STAMP_FAULT_CONTROL : FieldPos := ⟨19, 19⟩
def TB_STAMP_FAULT_HOST : FieldPos := ⟨18, 18⟩
def TB_STAMP_FAULT_MEMORY : FieldPos := ⟨17, 17⟩
def TB_STAMP_FAULT_DECODE : FieldPos := ⟨16, 16⟩
def TB_STAMP_FAULT_HEAD : FieldPos := ⟨15, 0⟩
def TB_ISL_OFS0_HOST : FieldPos := ⟨31, 24⟩
def TB_ISL_OFS0_MEMORY : FieldPos := ⟨23, 16⟩
def TB_ISL_OFS0_DECODE : FieldPos := ⟨15, 8⟩
def TB_ISL_OFS0_HEAD : FieldPos := ⟨7, 0⟩
def TB_ISL_OFS1_STAMP_CELL : FieldPos := ⟨31, 24⟩
def TB_ISL_OFS1_SECURITY : FieldPos := ⟨23, 16⟩
def TB_ISL_OFS1_MOTOR : FieldPos := ⟨15, 8⟩
def TB_ISL_OFS1_CONTROL : FieldPos := ⟨7, 0⟩
def HD_FMT_CFG_LEADIN : FieldPos := ⟨9, 9⟩
def HD_FMT_CFG_PITCH_NM : FieldPos := ⟨8, 0⟩
def HD_SYNC_CFG_CLUSTER : FieldPos := ⟨18, 16⟩
def HD_SYNC_CFG_MAX_MISS : FieldPos := ⟨15, 12⟩
def HD_SYNC_CFG_NEAR : FieldPos := ⟨11, 8⟩
def HD_SYNC_CFG_HALF_WIN : FieldPos := ⟨5, 0⟩
def HD_FLY_STATUS_MISS_RUN : FieldPos := ⟨23, 16⟩
def HD_FLY_STATUS_LOST_SEEN : FieldPos := ⟨2, 2⟩
def HD_FLY_STATUS_ADDR_OK : FieldPos := ⟨1, 1⟩
def HD_FLY_STATUS_READY : FieldPos := ⟨0, 0⟩
def HD_ADDR_VALID : FieldPos := ⟨31, 31⟩
def HD_ADDR_WORD : FieldPos := ⟨30, 27⟩
def HD_ADDR_LAYER : FieldPos := ⟨26, 23⟩
def HD_ADDR_TRACK : FieldPos := ⟨18, 0⟩
def HD_SYNC_CNT0_DUAL : FieldPos := ⟨31, 16⟩
def HD_SYNC_CNT0_SINGLE : FieldPos := ⟨15, 0⟩
def HD_SYNC_CNT1_FAR_WON : FieldPos := ⟨31, 16⟩
def HD_SYNC_CNT1_INFERRED : FieldPos := ⟨15, 0⟩
def TL_CTRL_LANE_DIS : FieldPos := ⟨7, 4⟩
def TL_CTRL_FE_SAFE : FieldPos := ⟨3, 3⟩
def TL_CTRL_REALIGN : FieldPos := ⟨2, 2⟩
def TL_CTRL_RETRAIN : FieldPos := ⟨1, 1⟩
def TL_CTRL_ENABLE : FieldPos := ⟨0, 0⟩
def TL_STATUS_FE_SAFE : FieldPos := ⟨20, 20⟩
def TL_STATUS_LEN : FieldPos := ⟨19, 19⟩
def TL_STATUS_ALIGNED : FieldPos := ⟨18, 18⟩
def TL_STATUS_DL_LOCK : FieldPos := ⟨17, 17⟩
def TL_STATUS_FE_PLL_LOCK : FieldPos := ⟨16, 16⟩
def TL_STATUS_LANE_ST : FieldPos := ⟨15, 8⟩
def TL_STATUS_LINK_STATE : FieldPos := ⟨2, 0⟩
def TL_ERR_CFG_WINDOW : FieldPos := ⟨23, 16⟩
def TL_ERR_CFG_BURST : FieldPos := ⟨15, 8⟩
def TL_ERR_CFG_RETRIES : FieldPos := ⟨3, 0⟩
def TL_ERR_CNT_U3 : FieldPos := ⟨31, 24⟩
def TL_ERR_CNT_U2 : FieldPos := ⟨23, 16⟩
def TL_ERR_CNT_U1 : FieldPos := ⟨15, 8⟩
def TL_ERR_CNT_U0 : FieldPos := ⟨7, 0⟩
def TL_DL_CNT_WR_CUT : FieldPos := ⟨31, 16⟩
def TL_DL_CNT_D0_BAD : FieldPos := ⟨15, 0⟩
def TL_ALIGN_LAT_UP : FieldPos := ⟨31, 16⟩
def TL_ALIGN_RT : FieldPos := ⟨15, 0⟩
def TL_FE_CAP_L_RX : FieldPos := ⟨31, 24⟩
def TL_FE_CAP_L_TX : FieldPos := ⟨23, 16⟩
def TL_FE_CAP_K : FieldPos := ⟨15, 12⟩
def TL_FE_CAP_WMAX : FieldPos := ⟨11, 8⟩
def TL_FE_CAP_VERSION : FieldPos := ⟨7, 0⟩
def TL_FE_ID_ID : FieldPos := ⟨31, 0⟩
def HD_CH_CFG_LLR_SCALE : FieldPos := ⟨15, 8⟩
def HD_CH_CFG_DEC_M : FieldPos := ⟨7, 4⟩
def HD_CH_CFG_DEC_OVR : FieldPos := ⟨3, 3⟩
def HD_CH_CFG_XT_EN : FieldPos := ⟨2, 2⟩
def HD_CH_CFG_ADAPT_EN : FieldPos := ⟨0, 0⟩
def HD_ADAPT_CFG_SX : FieldPos := ⟨24, 20⟩
def HD_ADAPT_CFG_SC : FieldPos := ⟨19, 15⟩
def HD_ADAPT_CFG_SA : FieldPos := ⟨14, 10⟩
def HD_ADAPT_CFG_SO : FieldPos := ⟨9, 5⟩
def HD_ADAPT_CFG_SG : FieldPos := ⟨4, 0⟩
def HD_TIMING_CFG_KI_TRK : FieldPos := ⟨19, 15⟩
def HD_TIMING_CFG_KP_TRK : FieldPos := ⟨14, 10⟩
def HD_TIMING_CFG_KI_ACQ : FieldPos := ⟨9, 5⟩
def HD_TIMING_CFG_KP_ACQ : FieldPos := ⟨4, 0⟩
def HD_UNPICK_CFG_SE : FieldPos := ⟨31, 24⟩
def HD_UNPICK_CFG_MIN_CNT : FieldPos := ⟨17, 8⟩
def HD_UNPICK_CFG_THR : FieldPos := ⟨7, 0⟩
def HD_DROP_CFG_GUARD : FieldPos := ⟨31, 24⟩
def HD_DROP_CFG_REC : FieldPos := ⟨23, 17⟩
def HD_DROP_CFG_HI : FieldPos := ⟨16, 11⟩
def HD_DROP_CFG_LO : FieldPos := ⟨10, 5⟩
def HD_DROP_CFG_WIN : FieldPos := ⟨3, 0⟩
def HD_DROP_MASK_SERVO : FieldPos := ⟨11, 0⟩
def HD_ZONE_BASE_LO_BASE_LO : FieldPos := ⟨31, 20⟩
def HD_ZONE_BASE_HI_BASE_HI : FieldPos := ⟨7, 0⟩
def HD_CH_STATUS_PRES_DLY : FieldPos := ⟨31, 22⟩
def HD_CH_STATUS_QUEUE : FieldPos := ⟨21, 19⟩
def HD_CH_STATUS_LANE_BUSY : FieldPos := ⟨18, 17⟩
def HD_CH_STATUS_FLAG : FieldPos := ⟨16, 16⟩
def HD_CH_STATUS_DROP : FieldPos := ⟨11, 0⟩
def HD_UNPICK_CNT_REPLAYED : FieldPos := ⟨31, 16⟩
def HD_UNPICK_CNT_UNPICKED : FieldPos := ⟨15, 0⟩
def HD_SOFTERASE_CNT_EXPIRED : FieldPos := ⟨31, 16⟩
def HD_SOFTERASE_CNT_SOFT : FieldPos := ⟨15, 0⟩
def HD_DROP_CNT_FORCED : FieldPos := ⟨31, 16⟩
def HD_DROP_CNT_DROPOUTS : FieldPos := ⟨15, 0⟩
def HD_CLAMP_CNT_SHED : FieldPos := ⟨31, 16⟩
def HD_CLAMP_CNT_CLAMP : FieldPos := ⟨15, 0⟩
def HD_INGEST_PEAK : FieldPos := ⟨24, 16⟩
def HD_INGEST_OCC : FieldPos := ⟨8, 0⟩
def DC_FP_CFG_OFFSET : FieldPos := ⟨27, 24⟩
def DC_FP_CFG_HOPELESS : FieldPos := ⟨23, 12⟩
def DC_FP_CFG_ITER : FieldPos := ⟨2, 0⟩
def DC_DEEP_CFG_RA_LIMIT : FieldPos := ⟨24, 16⟩
def DC_DEEP_CFG_SCALE : FieldPos := ⟨15, 8⟩
def DC_DEEP_CFG_ITER : FieldPos := ⟨5, 0⟩
def DC_TWILL_CFG_ERR_EN : FieldPos := ⟨1, 1⟩
def DC_TWILL_CFG_CHECK_ALL : FieldPos := ⟨0, 0⟩
def DC_RA_CFG_BANDS : FieldPos := ⟨3, 0⟩
def DC_OUT_BASE_LO_BASE_LO : FieldPos := ⟨31, 22⟩
def DC_OUT_BASE_HI_BASE_HI : FieldPos := ⟨7, 0⟩
def DC_OUT_PROD_PROD : FieldPos := ⟨15, 0⟩
def DC_OUT_CONS_CONS : FieldPos := ⟨15, 0⟩
def DC_RA_BASE_LO_BASE_LO : FieldPos := ⟨31, 20⟩
def DC_RA_BASE_HI_BASE_HI : FieldPos := ⟨7, 0⟩
def DC_STATUS_OUT_FULL : FieldPos := ⟨31, 31⟩
def DC_STATUS_WORK_Q : FieldPos := ⟨28, 22⟩
def DC_STATUS_TWILL_Q : FieldPos := ⟨21, 15⟩
def DC_STATUS_FP_BUSY : FieldPos := ⟨14, 9⟩
def DC_STATUS_DEEP_OCC : FieldPos := ⟨8, 0⟩
def DC_CNT_CLR_CLEAR : FieldPos := ⟨0, 0⟩
def DC_CNT_COUNT : FieldPos := ⟨31, 0⟩
def HD_WR_CFG_SLIP_MAX : FieldPos := ⟨23, 16⟩
def HD_WR_CFG_VFY_ITER : FieldPos := ⟨7, 4⟩
def HD_WR_CFG_VFY_DROP : FieldPos := ⟨1, 1⟩
def HD_WR_CFG_DROP_STOP : FieldPos := ⟨0, 0⟩
def HD_VFY_RAW_VFY_RAW : FieldPos := ⟨15, 0⟩
def HD_STRAT_BASE_LO_BASE_LO : FieldPos := ⟨31, 18⟩
def HD_STRAT_BASE_HI_BASE_HI : FieldPos := ⟨7, 0⟩
def HD_LASER_CTRL_REARM : FieldPos := ⟨1, 1⟩
def HD_LASER_CTRL_LEN_EN : FieldPos := ⟨0, 0⟩
def HD_CEIL_RD_CEIL : FieldPos := ⟨22, 0⟩
def HD_CEIL_WR_LOCK : FieldPos := ⟨31, 31⟩
def HD_CEIL_WR_CEIL : FieldPos := ⟨22, 0⟩
def HD_DERATE_CFG_T1 : FieldPos := ⟨31, 16⟩
def HD_DERATE_CFG_T0 : FieldPos := ⟨15, 0⟩
def HD_DERATE_CTRL_MIN_F : FieldPos := ⟨23, 16⟩
def HD_DERATE_CTRL_EN : FieldPos := ⟨8, 8⟩
def HD_DERATE_CTRL_HK_ITEM : FieldPos := ⟨7, 0⟩
def HD_LASER_STATUS_DERATE : FieldPos := ⟨16, 8⟩
def HD_LASER_STATUS_HK_STALE : FieldPos := ⟨4, 4⟩
def HD_LASER_STATUS_CLAMPED : FieldPos := ⟨3, 3⟩
def HD_LASER_STATUS_INH_PIN : FieldPos := ⟨2, 2⟩
def HD_LASER_STATUS_INH_LATCH : FieldPos := ⟨1, 1⟩
def HD_LASER_STATUS_LEN : FieldPos := ⟨0, 0⟩
def HD_WR_CNT_VOIDED : FieldPos := ⟨31, 16⟩
def HD_WR_CNT_WRITTEN : FieldPos := ⟨15, 0⟩
def HD_VFY_CNT_FAILED : FieldPos := ⟨31, 16⟩
def HD_VFY_CNT_VERIFIED : FieldPos := ⟨15, 0⟩
def HD_VFY_CNT1_RAW_FAIL : FieldPos := ⟨31, 16⟩
def HD_VFY_CNT1_PENDING : FieldPos := ⟨15, 0⟩
def LP_TRC_CTRL_POST : FieldPos := ⟨31, 16⟩
def LP_TRC_CTRL_FREEZE : FieldPos := ⟨2, 2⟩
def LP_TRC_CTRL_MODE : FieldPos := ⟨1, 0⟩
def LP_TRC_STATUS_LOST : FieldPos := ⟨31, 16⟩
def LP_TRC_STATUS_FROZEN : FieldPos := ⟨15, 15⟩
def LP_TRC_STATUS_WRAPPED : FieldPos := ⟨14, 14⟩
def LP_TRC_STATUS_WPTR : FieldPos := ⟨12, 0⟩
def LP_TRC_COMP_LO_COMP_LO : FieldPos := ⟨31, 0⟩
def LP_TRC_COMP_HI_COMP_HI : FieldPos := ⟨31, 0⟩
def LP_HEAD_CFG_REL : FieldPos := ⟨31, 16⟩
def LP_HEAD_CFG_SUM_MIN : FieldPos := ⟨15, 0⟩
def LP_HEAD_MAP_SA_SLOT : FieldPos := ⟨22, 16⟩
def LP_HEAD_MAP_TRACK_SLOT : FieldPos := ⟨14, 8⟩
def LP_HEAD_MAP_FOCUS_SLOT : FieldPos := ⟨6, 0⟩
def LP_SEQ_ACQ_SUM_ACQ : FieldPos := ⟨31, 16⟩
def LP_SEQ_ACQ_SUM_LOST : FieldPos := ⟨15, 0⟩
def LP_SEQ_LOCK_LOCK_THR : FieldPos := ⟨31, 16⟩
def LP_SEQ_LOCK_LOCK_N : FieldPos := ⟨15, 8⟩
def LP_SEQ_LOCK_LOST_N : FieldPos := ⟨7, 0⟩
def LP_SEQ_DRV_KICK : FieldPos := ⟨31, 16⟩
def LP_SEQ_DRV_SWEEP_STEP : FieldPos := ⟨15, 0⟩
def LP_SEQ_LIM_SWEEP_LIM : FieldPos := ⟨31, 16⟩
def LP_SEQ_LIM_VEL_THR : FieldPos := ⟨15, 0⟩
def LP_SEQ_TIME_LJ_TMO : FieldPos := ⟨31, 22⟩
def LP_SEQ_TIME_ACQ_TMO : FieldPos := ⟨21, 12⟩
def LP_SEQ_TIME_KICK_T : FieldPos := ⟨11, 6⟩
def LP_SEQ_TIME_SETTLE_N : FieldPos := ⟨5, 0⟩
def LP_SEQ_STATUS_RESULT : FieldPos := ⟨31, 28⟩
def LP_SEQ_STATUS_RUNNING : FieldPos := ⟨27, 24⟩
def LP_SEQ_STATUS_CROSS : FieldPos := ⟨23, 16⟩
def LP_SEQ_STATUS_SCURVES : FieldPos := ⟨15, 8⟩
def LP_SLOT_CTRL_CLR_STATE : FieldPos := ⟨2, 2⟩
def LP_SLOT_CTRL_REQ : FieldPos := ⟨1, 0⟩
def LP_SLOT_CFG_HEAD : FieldPos := ⟨31, 28⟩
def LP_SLOT_CFG_SPINDLE : FieldPos := ⟨27, 27⟩
def LP_SLOT_CFG_LANE : FieldPos := ⟨26, 24⟩
def LP_SLOT_CFG_DIV : FieldPos := ⟨21, 12⟩
def LP_SLOT_CFG_OFS : FieldPos := ⟨9, 0⟩
def LP_SLOT_SCHED_COST : FieldPos := ⟨25, 16⟩
def LP_SLOT_SCHED_START : FieldPos := ⟨9, 0⟩
def LP_SLOT_SUP_THR : FieldPos := ⟨31, 16⟩
def LP_SLOT_SUP_CNT : FieldPos := ⟨15, 8⟩
def LP_SLOT_SUP_SATCNT : FieldPos := ⟨7, 2⟩
def LP_SLOT_SUP_ACT : FieldPos := ⟨1, 0⟩
def LP_SLOT_TRC_EN : FieldPos := ⟨5, 5⟩
def LP_SLOT_TRC_NODE : FieldPos := ⟨4, 0⟩
def LP_SLOT_STATUS_SUP_RUN : FieldPos := ⟨31, 24⟩
def LP_SLOT_STATUS_HW_HOLD : FieldPos := ⟨7, 7⟩
def LP_SLOT_STATUS_OVERRIDE : FieldPos := ⟨6, 6⟩
def LP_SLOT_STATUS_HELD : FieldPos := ⟨5, 5⟩
def LP_SLOT_STATUS_COEF_PEND : FieldPos := ⟨4, 4⟩
def LP_SLOT_STATUS_MIN_WIN : FieldPos := ⟨3, 2⟩
def LP_SLOT_STATUS_STATE : FieldPos := ⟨1, 0⟩
def LP_NODE_TYPE : FieldPos := ⟨31, 28⟩
def LP_NODE_A : FieldPos := ⟨27, 23⟩
def LP_NODE_B : FieldPos := ⟨22, 18⟩
def LP_NODE_C : FieldPos := ⟨17, 12⟩
def LP_NODE_ARG : FieldPos := ⟨11, 0⟩
def LP_COEF_VALUE : FieldPos := ⟨23, 0⟩
def SL_CTRL_CLR_FAULT : FieldPos := ⟨3, 3⟩
def SL_CTRL_CMD : FieldPos := ⟨2, 0⟩
def SL_STATUS_CLAMPED : FieldPos := ⟨12, 12⟩
def SL_STATUS_FAULT : FieldPos := ⟨11, 8⟩
def SL_STATUS_BOOST : FieldPos := ⟨5, 5⟩
def SL_STATUS_UNCERTAIN : FieldPos := ⟨4, 4⟩
def SL_STATUS_STATE : FieldPos := ⟨2, 0⟩
def SL_TARGET_TARGET : FieldPos := ⟨31, 0⟩
def SL_POS_POS : FieldPos := ⟨31, 0⟩
def SL_VMAX_VMAX : FieldPos := ⟨27, 0⟩
def SL_PROFILE_HOME_V : FieldPos := ⟨31, 16⟩
def SL_PROFILE_AMAX : FieldPos := ⟨15, 0⟩
def SL_LIMIT_LO_LO : FieldPos := ⟨31, 0⟩
def SL_LIMIT_HI_HI : FieldPos := ⟨31, 0⟩
def SL_CUR_HOLD_DLY : FieldPos := ⟨31, 24⟩
def SL_CUR_HOLD : FieldPos := ⟨23, 12⟩
def SL_CUR_RUN : FieldPos := ⟨11, 0⟩
def SL_PROT_BOOST_HOLD : FieldPos := ⟨31, 24⟩
def SL_PROT_OC : FieldPos := ⟨23, 12⟩
def SL_PROT_BOOST : FieldPos := ⟨11, 0⟩
def SL_CHOP_BLANK : FieldPos := ⟨23, 20⟩
def SL_CHOP_KO : FieldPos := ⟨19, 16⟩
def SL_CHOP_TOFF : FieldPos := ⟨15, 8⟩
def SL_CHOP_HYST : FieldPos := ⟨7, 0⟩
def SL_LA_CFG_VMIN : FieldPos := ⟨31, 24⟩
def SL_LA_CFG_VBUS : FieldPos := ⟨23, 12⟩
def SL_LA_CFG_RPH : FieldPos := ⟨11, 0⟩
def SL_LA_THR_EMIN : FieldPos := ⟨31, 26⟩
def SL_LA_THR_STALL_N : FieldPos := ⟨25, 22⟩
def SL_LA_THR_STALL : FieldPos := ⟨21, 11⟩
def SL_LA_THR_BOOST : FieldPos := ⟨10, 0⟩
def SL_LA_EMAG : FieldPos := ⟨31, 16⟩
def SL_LA_LAMBDA : FieldPos := ⟨11, 0⟩
def SL_AUX_CFG_KV : FieldPos := ⟨31, 16⟩
def SL_AUX_CFG_DEB : FieldPos := ⟨15, 0⟩
def SL_HOME_POS_HOME_POS : FieldPos := ⟨31, 0⟩
def SL_LATCH_LO_STAMP_LO : FieldPos := ⟨31, 0⟩
def SL_LATCH_HI_STAMP_HI : FieldPos := ⟨31, 0⟩
def SL_LATCH_POS_POS : FieldPos := ⟨31, 0⟩
def SL_ORIGIN_ORIGIN : FieldPos := ⟨31, 0⟩
def SP_CTRL_STOP : FieldPos := ⟨1, 1⟩
def SP_CTRL_START : FieldPos := ⟨0, 0⟩
def SP_STATUS_FAULT : FieldPos := ⟨19, 16⟩
def SP_STATUS_SECTOR : FieldPos := ⟨15, 13⟩
def SP_STATUS_MISSES : FieldPos := ⟨12, 11⟩
def SP_STATUS_ATTEMPT : FieldPos := ⟨10, 8⟩
def SP_STATUS_PATH : FieldPos := ⟨7, 6⟩
def SP_STATUS_STATE : FieldPos := ⟨3, 0⟩
def SP_SPEED_MEAS : FieldPos := ⟨19, 0⟩
def SP_GOV_RATE : FieldPos := ⟨31, 23⟩
def SP_GOV_CEIL : FieldPos := ⟨22, 16⟩
def SP_GOV_TARGET : FieldPos := ⟨14, 8⟩
def SP_GOV_DEMAND : FieldPos := ⟨6, 0⟩
def SP_REF_REF : FieldPos := ⟨19, 0⟩
def SP_START_CFG_KE : FieldPos := ⟨29, 18⟩
def SP_START_CFG_BRAKE_THR : FieldPos := ⟨17, 9⟩
def SP_START_CFG_CATCH : FieldPos := ⟨8, 0⟩
def SP_ALIGN_CFG_RETRIES : FieldPos := ⟨31, 28⟩
def SP_ALIGN_CFG_OL_ACC : FieldPos := ⟨27, 20⟩
def SP_ALIGN_CFG_ALIGN_T : FieldPos := ⟨19, 12⟩
def SP_ALIGN_CFG_DUTY : FieldPos := ⟨11, 0⟩
def SP_COMM_CFG_HANDOVER : FieldPos := ⟨31, 26⟩
def SP_COMM_CFG_ADV_MAX : FieldPos := ⟨25, 18⟩
def SP_COMM_CFG_ADV_K : FieldPos := ⟨17, 6⟩
def SP_COMM_CFG_DEMAG : FieldPos := ⟨5, 0⟩
def SP_PWM_DEAD : FieldPos := ⟨23, 16⟩
def SP_PWM_PERIOD : FieldPos := ⟨12, 0⟩
def SP_PROT_OC_TRIP : FieldPos := ⟨23, 12⟩
def SP_PROT_ILIM : FieldPos := ⟨11, 0⟩
def SP_THERM_LIM : FieldPos := ⟨31, 16⟩
def SP_THERM_TAU_SH : FieldPos := ⟨4, 0⟩
def SP_DUTY_DUTY : FieldPos := ⟨11, 0⟩
def SQ_RUNNING_RUN : FieldPos := ⟨23, 0⟩
def SQ_EXC_EXC : FieldPos := ⟨23, 0⟩
def SQ_WO_STATUS_WAITING : FieldPos := ⟨13, 0⟩
def SQ_BOB_CTRL_RESUME : FieldPos := ⟨2, 2⟩
def SQ_BOB_CTRL_HALT : FieldPos := ⟨1, 1⟩
def SQ_BOB_CTRL_START : FieldPos := ⟨0, 0⟩
def SQ_BOB_STATUS_STALE : FieldPos := ⟨31, 24⟩
def SQ_BOB_STATUS_OUTST : FieldPos := ⟨19, 14⟩
def SQ_BOB_STATUS_EVQ : FieldPos := ⟨13, 8⟩
def SQ_BOB_STATUS_STATE : FieldPos := ⟨2, 0⟩
def SQ_BOB_PC_PC : FieldPos := ⟨15, 0⟩
def SQ_BOB_ENTRY_ENTRY : FieldPos := ⟨15, 0⟩
def SQ_BOB_CAP_HEADS : FieldPos := ⟨31, 16⟩
def SQ_BOB_CAP_PRIV : FieldPos := ⟨15, 15⟩
def SQ_BOB_CAP_REGW : FieldPos := ⟨14, 14⟩
def SQ_BOB_CAP_REGR : FieldPos := ⟨13, 13⟩
def SQ_BOB_CAP_FAM : FieldPos := ⟨8, 0⟩
def SQ_BOB_EXC_PC : FieldPos := ⟨31, 16⟩
def SQ_BOB_EXC_CODE : FieldPos := ⟨7, 0⟩
def SQ_BOB_EXC_LO_STAMP_LO : FieldPos := ⟨31, 0⟩
def SQ_BOB_EXC_HI_STAMP_HI : FieldPos := ⟨31, 0⟩
def SQ_BOB_ISSUED_COUNT : FieldPos := ⟨31, 0⟩
def CS_ROM_ID_ROM_ID : FieldPos := ⟨31, 0⟩
def CS_STATUS_MATCHES : FieldPos := ⟨7, 2⟩
def CS_STATUS_PENDING : FieldPos := ⟨1, 1⟩
def CS_STATUS_BANK : FieldPos := ⟨0, 0⟩
def CS_PATCH_VER_VERSION : FieldPos := ⟨31, 0⟩
def CS_MC_STATUS_ACTIVE : FieldPos := ⟨31, 31⟩
def CS_MC_STATUS_CAUSE : FieldPos := ⟨25, 24⟩
def CS_MC_STATUS_COUNT : FieldPos := ⟨15, 0⟩
def CS_MC_ADDR_CLEAR : FieldPos := ⟨31, 31⟩
def CS_MC_ADDR_BOBBIN : FieldPos := ⟨28, 24⟩
def CS_MC_ADDR_UADDR : FieldPos := ⟨14, 0⟩
def CS_MC_STAMP_LO_STAMP_LO : FieldPos := ⟨31, 0⟩
def CS_MC_STAMP_HI_STAMP_HI : FieldPos := ⟨31, 0⟩
def CS_TEST_INJECT : FieldPos := ⟨13, 0⟩
def CS_MATCH_EN : FieldPos := ⟨31, 31⟩
def CS_MATCH_ROM_ADDR : FieldPos := ⟨23, 10⟩
def CS_MATCH_TARGET : FieldPos := ⟨9, 0⟩
def SNIP_CMD_CID : FieldPos := ⟨31, 16⟩
def SNIP_CMD_SQID : FieldPos := ⟨15, 0⟩
def SNIP_STATUS_DROPPED : FieldPos := ⟨31, 24⟩
def SNIP_STATUS_QUEUED : FieldPos := ⟨23, 17⟩
def SNIP_STATUS_RESULT : FieldPos := ⟨15, 14⟩
def SNIP_STATUS_SLOT : FieldPos := ⟨13, 0⟩
def HC_STATUS_PAUSED : FieldPos := ⟨31, 31⟩
def HC_STATUS_CAUSE : FieldPos := ⟨30, 28⟩
def HC_OCC_LOCKS : FieldPos := ⟨24, 14⟩
def HC_OCC_SLOTS : FieldPos := ⟨13, 0⟩
def HC_SUMP_PEAK : FieldPos := ⟨30, 16⟩
def HC_SUMP_OCC : FieldPos := ⟨14, 0⟩
def HC_DATA_BASE_LO_BASE_LO : FieldPos := ⟨31, 30⟩
def HC_DATA_BASE_HI_BASE_HI : FieldPos := ⟨7, 0⟩
def HC_ABORT_CNT_SNIPPED : FieldPos := ⟨31, 16⟩
def HC_ABORT_CNT_ABORTED : FieldPos := ⟨15, 0⟩
def HC_FETCH_CNT_FETCHED : FieldPos := ⟨31, 0⟩
def HC_PL_BASE_LO_BASE_LO : FieldPos := ⟨31, 30⟩
def HC_PL_BASE_HI_BASE_HI : FieldPos := ⟨7, 0⟩
def HC_PL_CFG_MAPSZ : FieldPos := ⟨31, 16⟩
def HC_PL_CFG_FRAMES : FieldPos := ⟨15, 0⟩
def HC_PL_CTRL_OP : FieldPos := ⟨31, 29⟩
def HC_PL_CTRL_BATCH : FieldPos := ⟨23, 16⟩
def HC_PL_CTRL_COUNT : FieldPos := ⟨15, 0⟩
def HC_PL_STATUS_REPLAY : FieldPos := ⟨31, 31⟩
def HC_PL_STATUS_RING_FULL : FieldPos := ⟨30, 30⟩
def HC_PL_STATUS_PENDING : FieldPos := ⟨24, 12⟩
def HC_PL_STATUS_SEALED : FieldPos := ⟨8, 0⟩
def HC_JRN_DUR_LO_DUR_LO : FieldPos := ⟨31, 0⟩
def HC_JRN_DUR_HI_DUR_HI : FieldPos := ⟨31, 0⟩
def MC_CFG_SUBCH : FieldPos := ⟨7, 6⟩
def MC_CFG_DENSITY : FieldPos := ⟨5, 4⟩
def MC_CFG_ENABLE : FieldPos := ⟨0, 0⟩
def MC_STATUS_SWEEP_BUSY : FieldPos := ⟨5, 5⟩
def MC_STATUS_SWEEP_FAIL : FieldPos := ⟨4, 4⟩
def MC_STATUS_FC_BUSY : FieldPos := ⟨3, 3⟩
def MC_STATUS_ACTIVE_SET : FieldPos := ⟨2, 2⟩
def MC_STATUS_SCRUB_RUN : FieldPos := ⟨1, 1⟩
def MC_STATUS_READY : FieldPos := ⟨0, 0⟩
def MC_ARB_HITMAX : FieldPos := ⟨15, 8⟩
def MC_ARB_AGE : FieldPos := ⟨7, 0⟩
def MC_TSET0_TRP : FieldPos := ⟨31, 24⟩
def MC_TSET0_TRCD : FieldPos := ⟨23, 16⟩
def MC_TSET0_CL : FieldPos := ⟨15, 8⟩
def MC_TSET0_SPEED : FieldPos := ⟨1, 0⟩
def MC_TSET1_TWR : FieldPos := ⟨31, 24⟩
def MC_TSET1_TRAS : FieldPos := ⟨23, 16⟩
def MC_TSET1_TRTP : FieldPos := ⟨15, 8⟩
def MC_TSET1_TWTR_L : FieldPos := ⟨7, 0⟩
def MC_TSET2_TFAW : FieldPos := ⟨31, 24⟩
def MC_TSET2_TRRD_L : FieldPos := ⟨23, 16⟩
def MC_TSET2_TRRD_S : FieldPos := ⟨15, 8⟩
def MC_TSET2_TCCD_L : FieldPos := ⟨7, 0⟩
def MC_TSET3_TREFI : FieldPos := ⟨31, 16⟩
def MC_TSET3_TRFC1 : FieldPos := ⟨15, 0⟩
def MC_TSET4_TXS : FieldPos := ⟨31, 16⟩
def MC_TSET4_TRFCSB : FieldPos := ⟨15, 0⟩
def MC_PAGE_IDLE : FieldPos := ⟨7, 0⟩
def MC_ACT_CFG_THR : FieldPos := ⟨31, 16⟩
def MC_ACT_CFG_DRFM_OFF : FieldPos := ⟨1, 1⟩
def MC_ACT_CFG_EN : FieldPos := ⟨0, 0⟩
def MC_ACT_CNT_COUNT : FieldPos := ⟨31, 0⟩
def MC_ECC_CFG_AUTO_N : FieldPos := ⟨15, 8⟩
def MC_ECC_CFG_CLR : FieldPos := ⟨1, 1⟩
def MC_ECC_CFG_AUTO_EN : FieldPos := ⟨0, 0⟩
def MC_ECC_ERASE_DEV : FieldPos := ⟨11, 0⟩
def MC_ECC_CNT_UNCORR : FieldPos := ⟨31, 16⟩
def MC_ECC_CNT_CORR : FieldPos := ⟨15, 0⟩
def MC_ECC_DEV_COUNT : FieldPos := ⟨29, 0⟩
def MC_ECC_LAST_LO_ADDR_LO : FieldPos := ⟨31, 0⟩
def MC_ECC_LAST_HI_POISON : FieldPos := ⟨31, 31⟩
def MC_ECC_LAST_HI_ADDR_HI : FieldPos := ⟨7, 0⟩
def MC_SCRUB_CFG_PERIOD_H : FieldPos := ⟨31, 16⟩
def MC_SCRUB_CFG_EN : FieldPos := ⟨0, 0⟩
def MC_SCRUB_STATUS_PTR : FieldPos := ⟨29, 0⟩
def MC_FLIP_ADDR_LO_ADDR_LO : FieldPos := ⟨31, 3⟩
def MC_FLIP_ADDR_HI_ARMED : FieldPos := ⟨31, 31⟩
def MC_FLIP_ADDR_HI_ADDR_HI : FieldPos := ⟨7, 0⟩
def MC_FLIP_MASK0_MASK : FieldPos := ⟨31, 0⟩
def MC_FLIP_MASK1_MASK : FieldPos := ⟨31, 0⟩
def MC_FLIP_MASK2_MASK : FieldPos := ⟨15, 0⟩
def MC_FC_CTRL_TARGET : FieldPos := ⟨1, 1⟩
def MC_FC_CTRL_REQ : FieldPos := ⟨0, 0⟩
def MC_SWEEP_START : FieldPos := ⟨0, 0⟩
def MC_TRN_CMD_OP : FieldPos := ⟨31, 28⟩
def MC_TRN_CMD_SCMASK : FieldPos := ⟨27, 24⟩
def MC_TRN_CMD_MR : FieldPos := ⟨23, 16⟩
def MC_TRN_CMD_DATA : FieldPos := ⟨15, 0⟩
def MC_TRN_ADDR_ROW : FieldPos := ⟨31, 15⟩
def MC_TRN_ADDR_BG : FieldPos := ⟨14, 12⟩
def MC_TRN_ADDR_BA : FieldPos := ⟨11, 10⟩
def MC_TRN_ADDR_COL : FieldPos := ⟨5, 0⟩
def MC_TRN_PAT_MODE : FieldPos := ⟨31, 30⟩
def MC_TRN_PAT_SEED : FieldPos := ⟨29, 0⟩
def MC_TRN_STATUS_BUSY : FieldPos := ⟨31, 31⟩
def MC_TRN_STATUS_MRR : FieldPos := ⟨7, 0⟩
def MC_TRN_FAIL_FAIL : FieldPos := ⟨31, 0⟩
def MC_DLY_DQ_WR : FieldPos := ⟨14, 8⟩
def MC_DLY_DQ_RD : FieldPos := ⟨6, 0⟩
def MC_DLY_LANE_GATE : FieldPos := ⟨28, 20⟩
def MC_DLY_LANE_WR_DQS : FieldPos := ⟨18, 10⟩
def MC_DLY_LANE_RD_DQS : FieldPos := ⟨8, 0⟩
def CAL_STATUS_BG_DEV : FieldPos := ⟨31, 31⟩
def CAL_STATUS_SLEWING : FieldPos := ⟨30, 30⟩
def CAL_STATUS_TRIM_BUSY : FieldPos := ⟨29, 29⟩
def CAL_STATUS_ADC_BAD : FieldPos := ⟨28, 0⟩
def CAL_STATUS1_ADC_BAD : FieldPos := ⟨3, 0⟩
def CAL_TRIG_MAN : FieldPos := ⟨31, 31⟩
def CAL_TRIG_DT : FieldPos := ⟨23, 16⟩
def CAL_TRIG_PERIOD : FieldPos := ⟨15, 0⟩
def CAL_SLEW_GAIN_STEP : FieldPos := ⟨31, 16⟩
def CAL_SLEW_OFS_STEP : FieldPos := ⟨15, 0⟩
def CAL_COMPOSITE_SOURCE : FieldPos := ⟨20, 16⟩
def CAL_COMPOSITE_TEMP : FieldPos := ⟨15, 0⟩
def CAL_TEMP_VALID : FieldPos := ⟨31, 31⟩
def CAL_TEMP_TEMP : FieldPos := ⟨15, 0⟩
def CAL_ADC_APP_GAIN : FieldPos := ⟨31, 16⟩
def CAL_ADC_APP_OFS : FieldPos := ⟨15, 0⟩
def CAL_ADC_TGT_GAIN : FieldPos := ⟨31, 16⟩
def CAL_ADC_TGT_OFS : FieldPos := ⟨15, 0⟩
def CAL_CMP_CTRL_RUN : FieldPos := ⟨0, 0⟩
def CAL_CMP_DAC_W : FieldPos := ⟨17, 12⟩
def CAL_CMP_DAC_V : FieldPos := ⟨11, 6⟩
def CAL_CMP_DAC_U : FieldPos := ⟨5, 0⟩
def SEC_STATUS_SESSIONS : FieldPos := ⟨11, 8⟩
def SEC_STATUS_CERT_BAD : FieldPos := ⟨7, 7⟩
def SEC_STATUS_DBG : FieldPos := ⟨6, 4⟩
def SEC_STATUS_SLOT : FieldPos := ⟨3, 2⟩
def SEC_STATUS_BOOT : FieldPos := ⟨1, 0⟩
def SEC_FUSE_FLOOR : FieldPos := ⟨17, 12⟩
def SEC_FUSE_DEBUG_OK : FieldPos := ⟨11, 8⟩
def SEC_FUSE_REVOKED : FieldPos := ⟨7, 4⟩
def SEC_FUSE_PROGRAMMED : FieldPos := ⟨3, 0⟩
def SEC_CTRL_REV_SLOT : FieldPos := ⟨3, 2⟩
def SEC_CTRL_REVOKE : FieldPos := ⟨1, 1⟩
def SEC_CTRL_FLOOR_COMMIT : FieldPos := ⟨0, 0⟩
def SEC_UID_UID : FieldPos := ⟨31, 0⟩
def SEC_DBG_CHAL_NONCE : FieldPos := ⟨31, 0⟩
def SEC_DBG_BUF_DATA : FieldPos := ⟨31, 0⟩
def SEC_DBG_CTRL_BUSY : FieldPos := ⟨1, 1⟩
def SEC_DBG_CTRL_SUBMIT : FieldPos := ⟨0, 0⟩
def SYS_IDENT_VENDOR : FieldPos := ⟨31, 16⟩
def SYS_IDENT_DEVICE : FieldPos := ⟨15, 0⟩
def SYS_IDENT1_REVISION : FieldPos := ⟨7, 0⟩
def SYS_RST_CAUSE_SUPPLY : FieldPos := ⟨5, 5⟩
def SYS_RST_CAUSE_CTRL : FieldPos := ⟨4, 4⟩
def SYS_RST_CAUSE_FLR : FieldPos := ⟨3, 3⟩
def SYS_RST_CAUSE_WARM : FieldPos := ⟨2, 2⟩
def SYS_RST_CAUSE_POR : FieldPos := ⟨0, 0⟩
def SYS_BOOT_HOST_READY : FieldPos := ⟨31, 31⟩
def SYS_BOOT_STAGE : FieldPos := ⟨2, 0⟩
def SYS_DOMAIN_ON : FieldPos := ⟨19, 0⟩
def SYS_DOMAIN_FAIL_SUPPLY : FieldPos := ⟨22, 20⟩
def SYS_DOMAIN_FAIL_FAIL : FieldPos := ⟨18, 0⟩
def SYS_HEAD_CTRL_POWER : FieldPos := ⟨31, 16⟩
def SYS_HEAD_CTRL_ISOLATE : FieldPos := ⟨15, 0⟩
def SYS_HEAD_STATUS_POPULATED : FieldPos := ⟨31, 16⟩
def SYS_HEAD_STATUS_IN_SERVICE : FieldPos := ⟨15, 0⟩
def SYS_SUPPLY_PWRGD : FieldPos := ⟨3, 0⟩
def EV_WPTR_WPTR : FieldPos := ⟨31, 0⟩
def EV_RPTR_RPTR : FieldPos := ⟨31, 0⟩
def EV_COMP_LO_COMP_LO : FieldPos := ⟨31, 0⟩
def EV_COMP_HI_COMP_HI : FieldPos := ⟨31, 0⟩
def EV_ATTN_THRESH : FieldPos := ⟨31, 16⟩
def EV_ATTN_MASK : FieldPos := ⟨15, 0⟩
def EV_STATUS_LATE : FieldPos := ⟨31, 16⟩
def EV_STATUS_ATTN : FieldPos := ⟨0, 0⟩

end F

/-- Register rows of chapter 2, part 1. -/
def regTable02a : List RegDesc := [
  ⟨0x018000, [], .roLo, [⟨F.TB_NOW_LO_NOW_LO, .ro, 0x0, 0, 4294967295⟩]⟩,
  ⟨0x018004, [], .roHi, [⟨F.TB_NOW_HI_NOW_HI, .ro, 0x0, 0, 4294967295⟩]⟩,
  ⟨0x018008, [], .single, [⟨F.TB_STATUS_DIST_ERR_SEEN, .w1c, 0x0, 0, 1⟩, ⟨F.TB_STATUS_REF_LOST_SEEN, .w1c, 0x0, 0, 1⟩, ⟨F.TB_STATUS_HOLDOVER, .ro, 0x0, 0, 1⟩, ⟨F.TB_STATUS_REF_PRESENT, .ro, 0x0, 0, 1⟩, ⟨F.TB_STATUS_LOCKED, .ro, 0x0, 0, 1⟩]⟩,
  ⟨0x01800C, [], .single, [⟨F.TB_FAULT_CNT_DIST_ERR_CNT, .ro, 0x0, 0, 65535⟩]⟩,
  ⟨0x018010, [], .single, [⟨F.TB_STAMP_FAULT_SECURITY, .ro, 0x0, 0, 1⟩, ⟨F.TB_STAMP_FAULT_MOTOR, .ro, 0x0, 0, 1⟩, ⟨F.TB_STAMP_FAULT_CONTROL, .ro, 0x0, 0, 1⟩, ⟨F.TB_STAMP_FAULT_HOST, .ro, 0x0, 0, 1⟩, ⟨F.TB_STAMP_FAULT_MEMORY, .ro, 0x0, 0, 1⟩, ⟨F.TB_STAMP_FAULT_DECODE, .ro, 0x0, 0, 1⟩, ⟨F.TB_STAMP_FAULT_HEAD, .ro, 0x0, 0, 65535⟩]⟩,
  ⟨0x018014, [], .single, [⟨F.TB_ISL_OFS0_HOST, .ro, 0xB, 0, 255⟩, ⟨F.TB_ISL_OFS0_MEMORY, .ro, 0xD, 0, 255⟩, ⟨F.TB_ISL_OFS0_DECODE, .ro, 0x9, 0, 255⟩, ⟨F.TB_ISL_OFS0_HEAD, .ro, 0x7, 0, 255⟩]⟩,
  ⟨0x018018, [], .single, [⟨F.TB_ISL_OFS1_STAMP_CELL, .ro, 0x4, 0, 255⟩, ⟨F.TB_ISL_OFS1_SECURITY, .ro, 0xA, 0, 255⟩, ⟨F.TB_ISL_OFS1_MOTOR, .ro, 0xA, 0, 255⟩, ⟨F.TB_ISL_OFS1_CONTROL, .ro, 0x8, 0, 255⟩]⟩]

/-- Register rows of chapter 3, part 1. -/
def regTable03a : List RegDesc := [
  ⟨0x400100, [(0x20000, 16)], .single, [⟨F.HD_FMT_CFG_LEADIN, .rw, 0x0, 0, 1⟩, ⟨F.HD_FMT_CFG_PITCH_NM, .rw, 0xC8, 160, 320⟩]⟩,
  ⟨0x400104, [(0x20000, 16)], .single, [⟨F.HD_SYNC_CFG_CLUSTER, .rw, 0x3, 1, 7⟩, ⟨F.HD_SYNC_CFG_MAX_MISS, .rw, 0x6, 0, 12⟩, ⟨F.HD_SYNC_CFG_NEAR, .rw, 0x8, 0, 15⟩, ⟨F.HD_SYNC_CFG_HALF_WIN, .rw, 0x30, 8, 48⟩]⟩,
  ⟨0x400108, [(0x20000, 16)], .single, [⟨F.HD_FLY_STATUS_MISS_RUN, .ro, 0x0, 0, 255⟩, ⟨F.HD_FLY_STATUS_LOST_SEEN, .w1c, 0x0, 0, 1⟩, ⟨F.HD_FLY_STATUS_ADDR_OK, .ro, 0x0, 0, 1⟩, ⟨F.HD_FLY_STATUS_READY, .ro, 0x0, 0, 1⟩]⟩,
  ⟨0x40010C, [(0x20000, 16)], .single, [⟨F.HD_ADDR_VALID, .ro, 0x0, 0, 1⟩, ⟨F.HD_ADDR_WORD, .ro, 0x0, 0, 15⟩, ⟨F.HD_ADDR_LAYER, .ro, 0x0, 0, 15⟩, ⟨F.HD_ADDR_TRACK, .ro, 0x0, 0, 524287⟩]⟩,
  ⟨0x400110, [(0x20000, 16)], .single, [⟨F.HD_SYNC_CNT0_DUAL, .ro, 0x0, 0, 65535⟩, ⟨F.HD_SYNC_CNT0_SINGLE, .ro, 0x0, 0, 65535⟩]⟩,
  ⟨0x400114, [(0x20000, 16)], .single, [⟨F.HD_SYNC_CNT1_FAR_WON, .ro, 0x0, 0, 65535⟩, ⟨F.HD_SYNC_CNT1_INFERRED, .ro, 0x0, 0, 65535⟩]⟩]

/-- Register rows of chapter 4, part 1. -/
def regTable04a : List RegDesc := [
  ⟨0x410000, [(0x20000, 16)], .single, [⟨F.TL_CTRL_LANE_DIS, .rw, 0x0, 0, 15⟩, ⟨F.TL_CTRL_FE_SAFE, .wo, 0x0, 0, 1⟩, ⟨F.TL_CTRL_REALIGN, .wo, 0x0, 0, 1⟩, ⟨F.TL_CTRL_RETRAIN, .wo, 0x0, 0, 1⟩, ⟨F.TL_CTRL_ENABLE, .rw, 0x0, 0, 1⟩]⟩,
  ⟨0x410004, [(0x20000, 16)], .single, [⟨F.TL_STATUS_FE_SAFE, .ro, 0x0, 0, 1⟩, ⟨F.TL_STATUS_LEN, .ro, 0x0, 0, 1⟩, ⟨F.TL_STATUS_ALIGNED, .ro, 0x0, 0, 1⟩, ⟨F.TL_STATUS_DL_LOCK, .ro, 0x0, 0, 1⟩, ⟨F.TL_STATUS_FE_PLL_LOCK, .ro, 0x0, 0, 1⟩, ⟨F.TL_STATUS_LANE_ST, .ro, 0x0, 0, 255⟩, ⟨F.TL_STATUS_LINK_STATE, .ro, 0x0, 0, 7⟩]⟩,
  ⟨0x410008, [(0x20000, 16)], .single, [⟨F.TL_ERR_CFG_WINDOW, .rw, 0x10, 1, 255⟩, ⟨F.TL_ERR_CFG_BURST, .rw, 0x8, 1, 255⟩, ⟨F.TL_ERR_CFG_RETRIES, .rw, 0x3, 1, 15⟩]⟩,
  ⟨0x41000C, [(0x20000, 16)], .single, [⟨F.TL_ERR_CNT_U3, .ro, 0x0, 0, 255⟩, ⟨F.TL_ERR_CNT_U2, .ro, 0x0, 0, 255⟩, ⟨F.TL_ERR_CNT_U1, .ro, 0x0, 0, 255⟩, ⟨F.TL_ERR_CNT_U0, .ro, 0x0, 0, 255⟩]⟩,
  ⟨0x410010, [(0x20000, 16)], .single, [⟨F.TL_DL_CNT_WR_CUT, .ro, 0x0, 0, 65535⟩, ⟨F.TL_DL_CNT_D0_BAD, .ro, 0x0, 0, 65535⟩]⟩,
  ⟨0x410014, [(0x20000, 16)], .single, [⟨F.TL_ALIGN_LAT_UP, .ro, 0x0, 0, 65535⟩, ⟨F.TL_ALIGN_RT, .ro, 0x0, 0, 65535⟩]⟩,
  ⟨0x410018, [(0x20000, 16)], .single, [⟨F.TL_FE_CAP_L_RX, .ro, 0x0, 0, 255⟩, ⟨F.TL_FE_CAP_L_TX, .ro, 0x0, 0, 255⟩, ⟨F.TL_FE_CAP_K, .ro, 0x0, 0, 15⟩, ⟨F.TL_FE_CAP_WMAX, .ro, 0x0, 0, 15⟩, ⟨F.TL_FE_CAP_VERSION, .ro, 0x0, 0, 255⟩]⟩,
  ⟨0x41001C, [(0x20000, 16)], .single, [⟨F.TL_FE_ID_ID, .ro, 0x0, 0, 4294967295⟩]⟩]

/-- Register rows of chapter 5, part 1. -/
def regTable05a : List RegDesc := [
  ⟨0x400200, [(0x20000, 16)], .single, [⟨F.HD_CH_CFG_LLR_SCALE, .rw, 0x40, 0, 255⟩, ⟨F.HD_CH_CFG_DEC_M, .rw, 0x1, 1, 15⟩, ⟨F.HD_CH_CFG_DEC_OVR, .rw, 0x0, 0, 1⟩, ⟨F.HD_CH_CFG_XT_EN, .rw, 0x1, 0, 1⟩, ⟨F.HD_CH_CFG_ADAPT_EN, .rw, 0x1, 0, 1⟩]⟩,
  ⟨0x400204, [(0x20000, 16)], .single, [⟨F.HD_ADAPT_CFG_SX, .rw, 0xE, 0, 31⟩, ⟨F.HD_ADAPT_CFG_SC, .rw, 0xD, 0, 31⟩, ⟨F.HD_ADAPT_CFG_SA, .rw, 0xE, 0, 31⟩, ⟨F.HD_ADAPT_CFG_SO, .rw, 0xA, 0, 31⟩, ⟨F.HD_ADAPT_CFG_SG, .rw, 0xC, 0, 31⟩]⟩,
  ⟨0x400208, [(0x20000, 16)], .single, [⟨F.HD_TIMING_CFG_KI_TRK, .rw, 0xD, 0, 31⟩, ⟨F.HD_TIMING_CFG_KP_TRK, .rw, 0x6, 0, 31⟩, ⟨F.HD_TIMING_CFG_KI_ACQ, .rw, 0x9, 0, 31⟩, ⟨F.HD_TIMING_CFG_KP_ACQ, .rw, 0x3, 0, 31⟩]⟩,
  ⟨0x40020C, [(0x20000, 16)], .single, [⟨F.HD_UNPICK_CFG_SE, .rw, 0x8, 1, 64⟩, ⟨F.HD_UNPICK_CFG_MIN_CNT, .rw, 0x80, 1, 512⟩, ⟨F.HD_UNPICK_CFG_THR, .rw, 0x4, 0, 255⟩]⟩,
  ⟨0x400210, [(0x20000, 16)], .single, [⟨F.HD_DROP_CFG_GUARD, .rw, 0x20, 0, 255⟩, ⟨F.HD_DROP_CFG_REC, .rw, 0x20, 8, 64⟩, ⟨F.HD_DROP_CFG_HI, .rw, 0x18, 0, 63⟩, ⟨F.HD_DROP_CFG_LO, .rw, 0xC, 0, 63⟩, ⟨F.HD_DROP_CFG_WIN, .rw, 0x4, 1, 8⟩]⟩,
  ⟨0x400214, [(0x20000, 16)], .single, [⟨F.HD_DROP_MASK_SERVO, .rw, 0x70, 0, 4095⟩]⟩,
  ⟨0x400218, [(0x20000, 16)], .rwLo, [⟨F.HD_ZONE_BASE_LO_BASE_LO, .rw, 0x0, 0, 4095⟩]⟩,
  ⟨0x40021C, [(0x20000, 16)], .rwHi, [⟨F.HD_ZONE_BASE_HI_BASE_HI, .rw, 0x0, 0, 255⟩]⟩,
  ⟨0x400220, [(0x20000, 16)], .single, [⟨F.HD_CH_STATUS_PRES_DLY, .ro, 0x0, 0, 1023⟩, ⟨F.HD_CH_STATUS_QUEUE, .ro, 0x0, 0, 7⟩, ⟨F.HD_CH_STATUS_LANE_BUSY, .ro, 0x0, 0, 3⟩, ⟨F.HD_CH_STATUS_FLAG, .ro, 0x0, 0, 1⟩, ⟨F.HD_CH_STATUS_DROP, .ro, 0x0, 0, 4095⟩]⟩,
  ⟨0x400224, [(0x20000, 16)], .single, [⟨F.HD_UNPICK_CNT_REPLAYED, .ro, 0x0, 0, 65535⟩, ⟨F.HD_UNPICK_CNT_UNPICKED, .ro, 0x0, 0, 65535⟩]⟩,
  ⟨0x400228, [(0x20000, 16)], .single, [⟨F.HD_SOFTERASE_CNT_EXPIRED, .ro, 0x0, 0, 65535⟩, ⟨F.HD_SOFTERASE_CNT_SOFT, .ro, 0x0, 0, 65535⟩]⟩,
  ⟨0x40022C, [(0x20000, 16)], .single, [⟨F.HD_DROP_CNT_FORCED, .ro, 0x0, 0, 65535⟩, ⟨F.HD_DROP_CNT_DROPOUTS, .ro, 0x0, 0, 65535⟩]⟩]

/-- Register rows of chapter 5, part 2. -/
def regTable05b : List RegDesc := [
  ⟨0x400230, [(0x20000, 16)], .single, [⟨F.HD_CLAMP_CNT_SHED, .ro, 0x0, 0, 65535⟩, ⟨F.HD_CLAMP_CNT_CLAMP, .ro, 0x0, 0, 65535⟩]⟩,
  ⟨0x400234, [(0x20000, 16)], .single, [⟨F.HD_INGEST_PEAK, .w1c, 0x0, 0, 511⟩, ⟨F.HD_INGEST_OCC, .ro, 0x0, 0, 511⟩]⟩]

/-- Register rows of chapter 6, part 1. -/
def regTable06a : List RegDesc := [
  ⟨0x180000, [], .single, [⟨F.DC_FP_CFG_OFFSET, .rw, 0x1, 0, 15⟩, ⟨F.DC_FP_CFG_HOPELESS, .rw, 0x3C0, 0, 4095⟩, ⟨F.DC_FP_CFG_ITER, .rw, 0x4, 1, 4⟩]⟩,
  ⟨0x180004, [], .single, [⟨F.DC_DEEP_CFG_RA_LIMIT, .rw, 0x80, 0, 256⟩, ⟨F.DC_DEEP_CFG_SCALE, .rw, 0x80, 0, 255⟩, ⟨F.DC_DEEP_CFG_ITER, .rw, 0x20, 1, 32⟩]⟩,
  ⟨0x180008, [], .single, [⟨F.DC_TWILL_CFG_ERR_EN, .rw, 0x1, 0, 1⟩, ⟨F.DC_TWILL_CFG_CHECK_ALL, .rw, 0x0, 0, 1⟩]⟩,
  ⟨0x18000C, [], .single, [⟨F.DC_RA_CFG_BANDS, .rw, 0x4, 0, 15⟩]⟩,
  ⟨0x180010, [], .rwLo, [⟨F.DC_OUT_BASE_LO_BASE_LO, .rw, 0x0, 0, 1023⟩]⟩,
  ⟨0x180014, [], .rwHi, [⟨F.DC_OUT_BASE_HI_BASE_HI, .rw, 0x0, 0, 255⟩]⟩,
  ⟨0x180018, [], .single, [⟨F.DC_OUT_PROD_PROD, .ro, 0x0, 0, 65535⟩]⟩,
  ⟨0x18001C, [], .single, [⟨F.DC_OUT_CONS_CONS, .rw, 0x0, 0, 65535⟩]⟩,
  ⟨0x180020, [], .rwLo, [⟨F.DC_RA_BASE_LO_BASE_LO, .rw, 0x0, 0, 4095⟩]⟩,
  ⟨0x180024, [], .rwHi, [⟨F.DC_RA_BASE_HI_BASE_HI, .rw, 0x0, 0, 255⟩]⟩,
  ⟨0x180028, [], .single, [⟨F.DC_STATUS_OUT_FULL, .ro, 0x0, 0, 1⟩, ⟨F.DC_STATUS_WORK_Q, .ro, 0x0, 0, 127⟩, ⟨F.DC_STATUS_TWILL_Q, .ro, 0x0, 0, 127⟩, ⟨F.DC_STATUS_FP_BUSY, .ro, 0x0, 0, 63⟩, ⟨F.DC_STATUS_DEEP_OCC, .ro, 0x0, 0, 511⟩]⟩,
  ⟨0x18002C, [], .single, [⟨F.DC_CNT_CLR_CLEAR, .wo, 0x0, 0, 1⟩]⟩]

/-- Register rows of chapter 6, part 2. -/
def regTable06b : List RegDesc := [
  ⟨0x180040, [(0x4, 12)], .single, [⟨F.DC_CNT_COUNT, .ro, 0x0, 0, 4294967295⟩]⟩]

/-- Register rows of chapter 7, part 1. -/
def regTable07a : List RegDesc := [
  ⟨0x400300, [(0x20000, 16)], .single, [⟨F.HD_WR_CFG_SLIP_MAX, .rw, 0x4, 1, 32⟩, ⟨F.HD_WR_CFG_VFY_ITER, .rw, 0x3, 1, 4⟩, ⟨F.HD_WR_CFG_VFY_DROP, .rw, 0x1, 0, 1⟩, ⟨F.HD_WR_CFG_DROP_STOP, .rw, 0x1, 0, 1⟩]⟩,
  ⟨0x400304, [(0x20000, 16)], .single, [⟨F.HD_VFY_RAW_VFY_RAW, .rw, 0x188, 0, 65535⟩]⟩,
  ⟨0x400308, [(0x20000, 16)], .rwLo, [⟨F.HD_STRAT_BASE_LO_BASE_LO, .rw, 0x0, 0, 16383⟩]⟩,
  ⟨0x40030C, [(0x20000, 16)], .rwHi, [⟨F.HD_STRAT_BASE_HI_BASE_HI, .rw, 0x0, 0, 255⟩]⟩,
  ⟨0x400310, [(0x20000, 16)], .single, [⟨F.HD_LASER_CTRL_REARM, .wo, 0x0, 0, 1⟩, ⟨F.HD_LASER_CTRL_LEN_EN, .rw, 0x0, 0, 1⟩]⟩,
  ⟨0x400314, [(0x20000, 16)], .single, [⟨F.HD_CEIL_RD_CEIL, .rw, 0x0, 0, 8388607⟩]⟩,
  ⟨0x400318, [(0x20000, 16)], .single, [⟨F.HD_CEIL_WR_LOCK, .w1s, 0x0, 0, 1⟩, ⟨F.HD_CEIL_WR_CEIL, .rw, 0x0, 0, 8388607⟩]⟩,
  ⟨0x40031C, [(0x20000, 16)], .single, [⟨F.HD_DERATE_CFG_T1, .rw, 0x7FFF, 0, 65535⟩, ⟨F.HD_DERATE_CFG_T0, .rw, 0x7FFF, 0, 65535⟩]⟩,
  ⟨0x400320, [(0x20000, 16)], .single, [⟨F.HD_DERATE_CTRL_MIN_F, .rw, 0xC0, 0, 255⟩, ⟨F.HD_DERATE_CTRL_EN, .rw, 0x0, 0, 1⟩, ⟨F.HD_DERATE_CTRL_HK_ITEM, .rw, 0x0, 0, 255⟩]⟩,
  ⟨0x400324, [(0x20000, 16)], .single, [⟨F.HD_LASER_STATUS_DERATE, .ro, 0x100, 0, 511⟩, ⟨F.HD_LASER_STATUS_HK_STALE, .ro, 0x0, 0, 1⟩, ⟨F.HD_LASER_STATUS_CLAMPED, .w1c, 0x0, 0, 1⟩, ⟨F.HD_LASER_STATUS_INH_PIN, .ro, 0x0, 0, 1⟩, ⟨F.HD_LASER_STATUS_INH_LATCH, .ro, 0x0, 0, 1⟩, ⟨F.HD_LASER_STATUS_LEN, .ro, 0x0, 0, 1⟩]⟩,
  ⟨0x400328, [(0x20000, 16)], .single, [⟨F.HD_WR_CNT_VOIDED, .ro, 0x0, 0, 65535⟩, ⟨F.HD_WR_CNT_WRITTEN, .ro, 0x0, 0, 65535⟩]⟩,
  ⟨0x40032C, [(0x20000, 16)], .single, [⟨F.HD_VFY_CNT_FAILED, .ro, 0x0, 0, 65535⟩, ⟨F.HD_VFY_CNT_VERIFIED, .ro, 0x0, 0, 65535⟩]⟩]

/-- Register rows of chapter 7, part 2. -/
def regTable07b : List RegDesc := [
  ⟨0x400330, [(0x20000, 16)], .single, [⟨F.HD_VFY_CNT1_RAW_FAIL, .ro, 0x0, 0, 65535⟩, ⟨F.HD_VFY_CNT1_PENDING, .ro, 0x0, 0, 65535⟩]⟩]

/-- Register rows of chapter 8, part 1. -/
def regTable08a : List RegDesc := [
  ⟨0x100000, [], .single, [⟨F.LP_TRC_CTRL_POST, .rw, 0x1000, 0, 65535⟩, ⟨F.LP_TRC_CTRL_FREEZE, .wo, 0x0, 0, 1⟩, ⟨F.LP_TRC_CTRL_MODE, .rw, 0x0, 0, 3⟩]⟩,
  ⟨0x100004, [], .single, [⟨F.LP_TRC_STATUS_LOST, .ro, 0x0, 0, 65535⟩, ⟨F.LP_TRC_STATUS_FROZEN, .ro, 0x0, 0, 1⟩, ⟨F.LP_TRC_STATUS_WRAPPED, .ro, 0x0, 0, 1⟩, ⟨F.LP_TRC_STATUS_WPTR, .ro, 0x0, 0, 8191⟩]⟩,
  ⟨0x100008, [], .roLo, [⟨F.LP_TRC_COMP_LO_COMP_LO, .ro, 0x0, 0, 4294967295⟩]⟩,
  ⟨0x10000C, [], .roHi, [⟨F.LP_TRC_COMP_HI_COMP_HI, .ro, 0x0, 0, 4294967295⟩]⟩,
  ⟨0x100100, [(0x4, 16)], .single, [⟨F.LP_HEAD_CFG_REL, .rw, 0xBB8, 0, 65535⟩, ⟨F.LP_HEAD_CFG_SUM_MIN, .rw, 0x100, 0, 65535⟩]⟩,
  ⟨0x100140, [(0x4, 16)], .single, [⟨F.LP_HEAD_MAP_SA_SLOT, .rw, 0x0, 0, 127⟩, ⟨F.LP_HEAD_MAP_TRACK_SLOT, .rw, 0x0, 0, 127⟩, ⟨F.LP_HEAD_MAP_FOCUS_SLOT, .rw, 0x0, 0, 127⟩]⟩,
  ⟨0x100800, [(0x20, 16)], .single, [⟨F.LP_SEQ_ACQ_SUM_ACQ, .rw, 0x400, 0, 65535⟩, ⟨F.LP_SEQ_ACQ_SUM_LOST, .rw, 0x200, 0, 65535⟩]⟩,
  ⟨0x100804, [(0x20, 16)], .single, [⟨F.LP_SEQ_LOCK_LOCK_THR, .rw, 0x200, 0, 65535⟩, ⟨F.LP_SEQ_LOCK_LOCK_N, .rw, 0x40, 1, 255⟩, ⟨F.LP_SEQ_LOCK_LOST_N, .rw, 0x8, 1, 255⟩]⟩,
  ⟨0x100808, [(0x20, 16)], .single, [⟨F.LP_SEQ_DRV_KICK, .rw, 0x1000, 0, 65535⟩, ⟨F.LP_SEQ_DRV_SWEEP_STEP, .rw, 0x1A00, 0, 65535⟩]⟩,
  ⟨0x10080C, [(0x20, 16)], .single, [⟨F.LP_SEQ_LIM_SWEEP_LIM, .rw, 0x4000, 0, 65535⟩, ⟨F.LP_SEQ_LIM_VEL_THR, .rw, 0x800, 0, 65535⟩]⟩,
  ⟨0x100810, [(0x20, 16)], .single, [⟨F.LP_SEQ_TIME_LJ_TMO, .rw, 0x1F4, 0, 1023⟩, ⟨F.LP_SEQ_TIME_ACQ_TMO, .rw, 0x3E8, 0, 1023⟩, ⟨F.LP_SEQ_TIME_KICK_T, .rw, 0x10, 0, 63⟩, ⟨F.LP_SEQ_TIME_SETTLE_N, .rw, 0x10, 1, 63⟩]⟩,
  ⟨0x100814, [(0x20, 16)], .single, [⟨F.LP_SEQ_STATUS_RESULT, .ro, 0x0, 0, 15⟩, ⟨F.LP_SEQ_STATUS_RUNNING, .ro, 0x0, 0, 15⟩, ⟨F.LP_SEQ_STATUS_CROSS, .ro, 0x0, 0, 255⟩, ⟨F.LP_SEQ_STATUS_SCURVES, .ro, 0x0, 0, 255⟩]⟩]

/-- Register rows of chapter 8, part 2. -/
def regTable08b : List RegDesc := [
  ⟨0x110000, [(0x200, 96)], .single, [⟨F.LP_SLOT_CTRL_CLR_STATE, .wo, 0x0, 0, 1⟩, ⟨F.LP_SLOT_CTRL_REQ, .rw, 0x0, 0, 3⟩]⟩,
  ⟨0x110004, [(0x200, 96)], .single, [⟨F.LP_SLOT_CFG_HEAD, .rw, 0x0, 0, 15⟩, ⟨F.LP_SLOT_CFG_SPINDLE, .rw, 0x0, 0, 1⟩, ⟨F.LP_SLOT_CFG_LANE, .rw, 0x0, 0, 7⟩, ⟨F.LP_SLOT_CFG_DIV, .rw, 0x1, 1, 1023⟩, ⟨F.LP_SLOT_CFG_OFS, .rw, 0x0, 0, 1023⟩]⟩,
  ⟨0x110008, [(0x200, 96)], .single, [⟨F.LP_SLOT_SCHED_COST, .ro, 0x4, 0, 1023⟩, ⟨F.LP_SLOT_SCHED_START, .rw, 0x0, 0, 1023⟩]⟩,
  ⟨0x11000C, [(0x200, 96)], .single, [⟨F.LP_SLOT_SUP_THR, .rw, 0xFFFF, 0, 65535⟩, ⟨F.LP_SLOT_SUP_CNT, .rw, 0x0, 0, 255⟩, ⟨F.LP_SLOT_SUP_SATCNT, .rw, 0x0, 0, 63⟩, ⟨F.LP_SLOT_SUP_ACT, .rw, 0x0, 0, 2⟩]⟩,
  ⟨0x110010, [(0x200, 96)], .single, [⟨F.LP_SLOT_TRC_EN, .rw, 0x0, 0, 1⟩, ⟨F.LP_SLOT_TRC_NODE, .rw, 0x0, 0, 31⟩]⟩,
  ⟨0x110014, [(0x200, 96)], .single, [⟨F.LP_SLOT_STATUS_SUP_RUN, .ro, 0x0, 0, 255⟩, ⟨F.LP_SLOT_STATUS_HW_HOLD, .ro, 0x0, 0, 1⟩, ⟨F.LP_SLOT_STATUS_OVERRIDE, .ro, 0x0, 0, 1⟩, ⟨F.LP_SLOT_STATUS_HELD, .ro, 0x0, 0, 1⟩, ⟨F.LP_SLOT_STATUS_COEF_PEND, .ro, 0x0, 0, 1⟩, ⟨F.LP_SLOT_STATUS_MIN_WIN, .ro, 0x0, 0, 3⟩, ⟨F.LP_SLOT_STATUS_STATE, .ro, 0x0, 0, 3⟩]⟩,
  ⟨0x110040, [(0x200, 96), (0x4, 24)], .single, [⟨F.LP_NODE_TYPE, .rw, 0x0, 0, 15⟩, ⟨F.LP_NODE_A, .rw, 0x0, 0, 31⟩, ⟨F.LP_NODE_B, .rw, 0x0, 0, 31⟩, ⟨F.LP_NODE_C, .rw, 0x0, 0, 63⟩, ⟨F.LP_NODE_ARG, .rw, 0x0, 0, 4095⟩]⟩,
  ⟨0x110100, [(0x200, 96), (0x4, 64)], .single, [⟨F.LP_COEF_VALUE, .rw, 0x0, 0, 16777215⟩]⟩]

/-- Register rows of chapter 9, part 1. -/
def regTable09a : List RegDesc := [
  ⟨0x141000, [(0x200, 16)], .single, [⟨F.SL_CTRL_CLR_FAULT, .wo, 0x0, 0, 1⟩, ⟨F.SL_CTRL_CMD, .wo, 0x0, 0, 7⟩]⟩,
  ⟨0x141004, [(0x200, 16)], .single, [⟨F.SL_STATUS_CLAMPED, .w1c, 0x0, 0, 1⟩, ⟨F.SL_STATUS_FAULT, .ro, 0x0, 0, 15⟩, ⟨F.SL_STATUS_BOOST, .ro, 0x0, 0, 1⟩, ⟨F.SL_STATUS_UNCERTAIN, .ro, 0x1, 0, 1⟩, ⟨F.SL_STATUS_STATE, .ro, 0x0, 0, 7⟩]⟩,
  ⟨0x141008, [(0x200, 16)], .single, [⟨F.SL_TARGET_TARGET, .rw, 0x0, 0, 4294967295⟩]⟩,
  ⟨0x14100C, [(0x200, 16)], .single, [⟨F.SL_POS_POS, .ro, 0x0, 0, 4294967295⟩]⟩,
  ⟨0x141010, [(0x200, 16)], .single, [⟨F.SL_VMAX_VMAX, .rw, 0xD1B7176, 0, 219902326⟩]⟩,
  ⟨0x141014, [(0x200, 16)], .single, [⟨F.SL_PROFILE_HOME_V, .rw, 0x431C, 0, 65535⟩, ⟨F.SL_PROFILE_AMAX, .rw, 0x225C, 1, 65535⟩]⟩,
  ⟨0x141018, [(0x200, 16)], .single, [⟨F.SL_LIMIT_LO_LO, .rw, 0x0, 0, 4294967295⟩]⟩,
  ⟨0x14101C, [(0x200, 16)], .single, [⟨F.SL_LIMIT_HI_HI, .rw, 0x0, 0, 4294967295⟩]⟩,
  ⟨0x141020, [(0x200, 16)], .single, [⟨F.SL_CUR_HOLD_DLY, .rw, 0x64, 0, 255⟩, ⟨F.SL_CUR_HOLD, .rw, 0x200, 0, 4095⟩, ⟨F.SL_CUR_RUN, .rw, 0x400, 0, 4095⟩]⟩,
  ⟨0x141024, [(0x200, 16)], .single, [⟨F.SL_PROT_BOOST_HOLD, .rw, 0x14, 0, 255⟩, ⟨F.SL_PROT_OC, .rw, 0x7C0, 0, 4095⟩, ⟨F.SL_PROT_BOOST, .rw, 0x600, 0, 4095⟩]⟩,
  ⟨0x141028, [(0x200, 16)], .single, [⟨F.SL_CHOP_BLANK, .rw, 0x2, 0, 15⟩, ⟨F.SL_CHOP_KO, .rw, 0x4, 0, 15⟩, ⟨F.SL_CHOP_TOFF, .rw, 0x5, 0, 255⟩, ⟨F.SL_CHOP_HYST, .rw, 0x20, 1, 255⟩]⟩,
  ⟨0x14102C, [(0x200, 16)], .single, [⟨F.SL_LA_CFG_VMIN, .rw, 0x11, 0, 255⟩, ⟨F.SL_LA_CFG_VBUS, .rw, 0x400, 0, 4095⟩, ⟨F.SL_LA_CFG_RPH, .rw, 0x40, 0, 4095⟩]⟩]

/-- Register rows of chapter 9, part 2. -/
def regTable09b : List RegDesc := [
  ⟨0x141030, [(0x200, 16)], .single, [⟨F.SL_LA_THR_EMIN, .rw, 0x4, 0, 63⟩, ⟨F.SL_LA_THR_STALL_N, .rw, 0x3, 1, 15⟩, ⟨F.SL_LA_THR_STALL, .rw, 0x380, 0, 2047⟩, ⟨F.SL_LA_THR_BOOST, .rw, 0x200, 0, 2047⟩]⟩,
  ⟨0x141034, [(0x200, 16)], .single, [⟨F.SL_LA_EMAG, .ro, 0x0, 0, 65535⟩, ⟨F.SL_LA_LAMBDA, .ro, 0x0, 0, 4095⟩]⟩,
  ⟨0x141038, [(0x200, 16)], .single, [⟨F.SL_AUX_CFG_KV, .rw, 0x100, 0, 65535⟩, ⟨F.SL_AUX_CFG_DEB, .rw, 0x7D0, 1, 65535⟩]⟩,
  ⟨0x14103C, [(0x200, 16)], .single, [⟨F.SL_HOME_POS_HOME_POS, .rw, 0x0, 0, 4294967295⟩]⟩,
  ⟨0x141040, [(0x200, 16)], .roLo, [⟨F.SL_LATCH_LO_STAMP_LO, .ro, 0x0, 0, 4294967295⟩]⟩,
  ⟨0x141044, [(0x200, 16)], .roHi, [⟨F.SL_LATCH_HI_STAMP_HI, .ro, 0x0, 0, 4294967295⟩]⟩,
  ⟨0x141048, [(0x200, 16)], .single, [⟨F.SL_LATCH_POS_POS, .ro, 0x0, 0, 4294967295⟩]⟩,
  ⟨0x14104C, [(0x200, 16)], .single, [⟨F.SL_ORIGIN_ORIGIN, .rw, 0x0, 0, 4294967295⟩]⟩,
  ⟨0x140000, [], .single, [⟨F.SP_CTRL_STOP, .wo, 0x0, 0, 1⟩, ⟨F.SP_CTRL_START, .wo, 0x0, 0, 1⟩]⟩,
  ⟨0x140004, [], .single, [⟨F.SP_STATUS_FAULT, .ro, 0x0, 0, 15⟩, ⟨F.SP_STATUS_SECTOR, .ro, 0x0, 0, 7⟩, ⟨F.SP_STATUS_MISSES, .ro, 0x0, 0, 3⟩, ⟨F.SP_STATUS_ATTEMPT, .ro, 0x0, 0, 7⟩, ⟨F.SP_STATUS_PATH, .ro, 0x0, 0, 3⟩, ⟨F.SP_STATUS_STATE, .ro, 0x0, 0, 15⟩]⟩,
  ⟨0x140008, [], .single, [⟨F.SP_SPEED_MEAS, .ro, 0x0, 0, 1048575⟩]⟩,
  ⟨0x14000C, [], .single, [⟨F.SP_GOV_RATE, .rw, 0x1F4, 0, 500⟩, ⟨F.SP_GOV_CEIL, .ro, 0x64, 0, 127⟩, ⟨F.SP_GOV_TARGET, .ro, 0x14, 0, 127⟩, ⟨F.SP_GOV_DEMAND, .rw, 0x14, 20, 100⟩]⟩]

/-- Register rows of chapter 9, part 3. -/
def regTable09c : List RegDesc := [
  ⟨0x140010, [], .single, [⟨F.SP_REF_REF, .ro, 0x0, 0, 1048575⟩]⟩,
  ⟨0x140014, [], .single, [⟨F.SP_START_CFG_KE, .rw, 0x9D4, 0, 4095⟩, ⟨F.SP_START_CFG_BRAKE_THR, .rw, 0x78, 0, 511⟩, ⟨F.SP_START_CFG_CATCH, .rw, 0x12C, 0, 511⟩]⟩,
  ⟨0x140018, [], .single, [⟨F.SP_ALIGN_CFG_RETRIES, .rw, 0x3, 0, 15⟩, ⟨F.SP_ALIGN_CFG_OL_ACC, .rw, 0x19, 0, 255⟩, ⟨F.SP_ALIGN_CFG_ALIGN_T, .rw, 0xC8, 0, 255⟩, ⟨F.SP_ALIGN_CFG_DUTY, .rw, 0x200, 0, 4095⟩]⟩,
  ⟨0x14001C, [], .single, [⟨F.SP_COMM_CFG_HANDOVER, .rw, 0x14, 0, 63⟩, ⟨F.SP_COMM_CFG_ADV_MAX, .rw, 0xF0, 0, 255⟩, ⟨F.SP_COMM_CFG_ADV_K, .rw, 0x100, 0, 4095⟩, ⟨F.SP_COMM_CFG_DEMAG, .rw, 0x8, 0, 63⟩]⟩,
  ⟨0x140020, [], .single, [⟨F.SP_PWM_DEAD, .rw, 0x10, 0, 255⟩, ⟨F.SP_PWM_PERIOD, .rw, 0x1388, 1000, 8191⟩]⟩,
  ⟨0x140024, [], .single, [⟨F.SP_PROT_OC_TRIP, .rw, 0x7C0, 0, 4095⟩, ⟨F.SP_PROT_ILIM, .rw, 0x600, 0, 4095⟩]⟩,
  ⟨0x140028, [], .single, [⟨F.SP_THERM_LIM, .rw, 0xC000, 0, 65535⟩, ⟨F.SP_THERM_TAU_SH, .rw, 0xC, 0, 31⟩]⟩,
  ⟨0x14002C, [], .single, [⟨F.SP_DUTY_DUTY, .ro, 0x0, 0, 4095⟩]⟩]

/-- Register rows of chapter 10, part 1. -/
def regTable10a : List RegDesc := [
  ⟨0x080000, [], .single, [⟨F.SQ_RUNNING_RUN, .ro, 0x0, 0, 16777215⟩]⟩,
  ⟨0x080004, [], .single, [⟨F.SQ_EXC_EXC, .ro, 0x0, 0, 16777215⟩]⟩,
  ⟨0x080008, [], .single, [⟨F.SQ_WO_STATUS_WAITING, .ro, 0x0, 0, 16383⟩]⟩,
  ⟨0x081000, [(0x40, 24)], .single, [⟨F.SQ_BOB_CTRL_RESUME, .wo, 0x0, 0, 1⟩, ⟨F.SQ_BOB_CTRL_HALT, .wo, 0x0, 0, 1⟩, ⟨F.SQ_BOB_CTRL_START, .wo, 0x0, 0, 1⟩]⟩,
  ⟨0x081004, [(0x40, 24)], .single, [⟨F.SQ_BOB_STATUS_STALE, .ro, 0x0, 0, 255⟩, ⟨F.SQ_BOB_STATUS_OUTST, .ro, 0x0, 0, 63⟩, ⟨F.SQ_BOB_STATUS_EVQ, .ro, 0x0, 0, 63⟩, ⟨F.SQ_BOB_STATUS_STATE, .ro, 0x0, 0, 7⟩]⟩,
  ⟨0x081008, [(0x40, 24)], .single, [⟨F.SQ_BOB_PC_PC, .ro, 0x0, 0, 65535⟩]⟩,
  ⟨0x08100C, [(0x40, 24)], .single, [⟨F.SQ_BOB_ENTRY_ENTRY, .rw, 0x0, 0, 65535⟩]⟩,
  ⟨0x081010, [(0x40, 24)], .single, [⟨F.SQ_BOB_CAP_HEADS, .rw, 0x0, 0, 65535⟩, ⟨F.SQ_BOB_CAP_PRIV, .rw, 0x0, 0, 1⟩, ⟨F.SQ_BOB_CAP_REGW, .rw, 0x0, 0, 1⟩, ⟨F.SQ_BOB_CAP_REGR, .rw, 0x0, 0, 1⟩, ⟨F.SQ_BOB_CAP_FAM, .rw, 0x0, 0, 511⟩]⟩,
  ⟨0x081014, [(0x40, 24)], .single, [⟨F.SQ_BOB_EXC_PC, .ro, 0x0, 0, 65535⟩, ⟨F.SQ_BOB_EXC_CODE, .ro, 0x0, 0, 255⟩]⟩,
  ⟨0x081018, [(0x40, 24)], .roLo, [⟨F.SQ_BOB_EXC_LO_STAMP_LO, .ro, 0x0, 0, 4294967295⟩]⟩,
  ⟨0x08101C, [(0x40, 24)], .roHi, [⟨F.SQ_BOB_EXC_HI_STAMP_HI, .ro, 0x0, 0, 4294967295⟩]⟩,
  ⟨0x081020, [(0x40, 24)], .single, [⟨F.SQ_BOB_ISSUED_COUNT, .ro, 0x0, 0, 4294967295⟩]⟩]

/-- Register rows of chapter 11, part 1. -/
def regTable11a : List RegDesc := [
  ⟨0x0C0000, [], .single, [⟨F.CS_ROM_ID_ROM_ID, .ro, 0x0, 0, 4294967295⟩]⟩,
  ⟨0x0C0004, [], .single, [⟨F.CS_STATUS_MATCHES, .ro, 0x0, 0, 63⟩, ⟨F.CS_STATUS_PENDING, .ro, 0x0, 0, 1⟩, ⟨F.CS_STATUS_BANK, .ro, 0x0, 0, 1⟩]⟩,
  ⟨0x0C0008, [], .single, [⟨F.CS_PATCH_VER_VERSION, .ro, 0x0, 0, 4294967295⟩]⟩,
  ⟨0x0C000C, [], .single, [⟨F.CS_MC_STATUS_ACTIVE, .ro, 0x0, 0, 1⟩, ⟨F.CS_MC_STATUS_CAUSE, .ro, 0x0, 0, 3⟩, ⟨F.CS_MC_STATUS_COUNT, .rws, 0x0, 0, 65535⟩]⟩,
  ⟨0x0C0010, [], .single, [⟨F.CS_MC_ADDR_CLEAR, .wo, 0x0, 0, 1⟩, ⟨F.CS_MC_ADDR_BOBBIN, .ro, 0x0, 0, 31⟩, ⟨F.CS_MC_ADDR_UADDR, .ro, 0x0, 0, 32767⟩]⟩,
  ⟨0x0C0014, [], .roLo, [⟨F.CS_MC_STAMP_LO_STAMP_LO, .ro, 0x0, 0, 4294967295⟩]⟩,
  ⟨0x0C0018, [], .roHi, [⟨F.CS_MC_STAMP_HI_STAMP_HI, .ro, 0x0, 0, 4294967295⟩]⟩,
  ⟨0x0C001C, [], .single, [⟨F.CS_TEST_INJECT, .wo, 0x0, 0, 16383⟩]⟩,
  ⟨0x0C0100, [(0x4, 32)], .single, [⟨F.CS_MATCH_EN, .ro, 0x0, 0, 1⟩, ⟨F.CS_MATCH_ROM_ADDR, .ro, 0x0, 0, 16383⟩, ⟨F.CS_MATCH_TARGET, .ro, 0x0, 0, 1023⟩]⟩]

/-- Register rows of chapter 12, part 1. -/
def regTable12a : List RegDesc := [
  ⟨0x003000, [], .single, [⟨F.SNIP_CMD_CID, .wo, 0x0, 0, 65535⟩, ⟨F.SNIP_CMD_SQID, .wo, 0x0, 0, 65535⟩]⟩,
  ⟨0x003004, [], .single, [⟨F.SNIP_STATUS_DROPPED, .w1c, 0x0, 0, 255⟩, ⟨F.SNIP_STATUS_QUEUED, .ro, 0x0, 0, 127⟩, ⟨F.SNIP_STATUS_RESULT, .ro, 0x0, 0, 3⟩, ⟨F.SNIP_STATUS_SLOT, .ro, 0x0, 0, 16383⟩]⟩,
  ⟨0x040000, [], .single, [⟨F.HC_STATUS_PAUSED, .ro, 0x0, 0, 1⟩, ⟨F.HC_STATUS_CAUSE, .ro, 0x0, 0, 7⟩]⟩,
  ⟨0x040004, [], .single, [⟨F.HC_OCC_LOCKS, .ro, 0x0, 0, 2047⟩, ⟨F.HC_OCC_SLOTS, .ro, 0x0, 0, 16383⟩]⟩,
  ⟨0x040008, [], .single, [⟨F.HC_SUMP_PEAK, .w1c, 0x0, 0, 32767⟩, ⟨F.HC_SUMP_OCC, .ro, 0x0, 0, 32767⟩]⟩,
  ⟨0x040010, [], .rwLo, [⟨F.HC_DATA_BASE_LO_BASE_LO, .rw, 0x0, 0, 3⟩]⟩,
  ⟨0x040014, [], .rwHi, [⟨F.HC_DATA_BASE_HI_BASE_HI, .rw, 0x0, 0, 255⟩]⟩,
  ⟨0x040018, [], .single, [⟨F.HC_ABORT_CNT_SNIPPED, .ro, 0x0, 0, 65535⟩, ⟨F.HC_ABORT_CNT_ABORTED, .ro, 0x0, 0, 65535⟩]⟩,
  ⟨0x04001C, [], .single, [⟨F.HC_FETCH_CNT_FETCHED, .ro, 0x0, 0, 4294967295⟩]⟩]

/-- Register rows of chapter 13, part 1. -/
def regTable13a : List RegDesc := [
  ⟨0x040100, [], .rwLo, [⟨F.HC_PL_BASE_LO_BASE_LO, .rws, 0x0, 0, 3⟩]⟩,
  ⟨0x040104, [], .rwHi, [⟨F.HC_PL_BASE_HI_BASE_HI, .rws, 0x0, 0, 255⟩]⟩,
  ⟨0x040108, [], .single, [⟨F.HC_PL_CFG_MAPSZ, .rws, 0x0, 0, 65535⟩, ⟨F.HC_PL_CFG_FRAMES, .rws, 0x0, 0, 65535⟩]⟩,
  ⟨0x04010C, [], .single, [⟨F.HC_PL_CTRL_OP, .wo, 0x0, 0, 7⟩, ⟨F.HC_PL_CTRL_BATCH, .wo, 0x0, 0, 255⟩, ⟨F.HC_PL_CTRL_COUNT, .wo, 0x0, 0, 65535⟩]⟩,
  ⟨0x040110, [], .single, [⟨F.HC_PL_STATUS_REPLAY, .ro, 0x0, 0, 1⟩, ⟨F.HC_PL_STATUS_RING_FULL, .ro, 0x0, 0, 1⟩, ⟨F.HC_PL_STATUS_PENDING, .ro, 0x0, 0, 8191⟩, ⟨F.HC_PL_STATUS_SEALED, .ro, 0x0, 0, 511⟩]⟩,
  ⟨0x040114, [], .rwLo, [⟨F.HC_JRN_DUR_LO_DUR_LO, .rws, 0x0, 0, 4294967295⟩]⟩,
  ⟨0x040118, [], .rwHi, [⟨F.HC_JRN_DUR_HI_DUR_HI, .rws, 0x0, 0, 4294967295⟩]⟩]

/-- Register rows of chapter 14, part 1. -/
def regTable14a : List RegDesc := [
  ⟨0x1C0000, [], .single, [⟨F.MC_CFG_SUBCH, .rw, 0x2, 0, 2⟩, ⟨F.MC_CFG_DENSITY, .rw, 0x0, 0, 2⟩, ⟨F.MC_CFG_ENABLE, .rw, 0x0, 0, 1⟩]⟩,
  ⟨0x1C0004, [], .single, [⟨F.MC_STATUS_SWEEP_BUSY, .ro, 0x0, 0, 1⟩, ⟨F.MC_STATUS_SWEEP_FAIL, .ro, 0x0, 0, 1⟩, ⟨F.MC_STATUS_FC_BUSY, .ro, 0x0, 0, 1⟩, ⟨F.MC_STATUS_ACTIVE_SET, .ro, 0x0, 0, 1⟩, ⟨F.MC_STATUS_SCRUB_RUN, .ro, 0x0, 0, 1⟩, ⟨F.MC_STATUS_READY, .ro, 0x0, 0, 1⟩]⟩,
  ⟨0x1C0008, [], .single, [⟨F.MC_ARB_HITMAX, .rw, 0x10, 0, 255⟩, ⟨F.MC_ARB_AGE, .rw, 0x14, 0, 255⟩]⟩,
  ⟨0x1C0100, [(0x20, 2)], .single, [⟨F.MC_TSET0_TRP, .rw, 0x28, 0, 255⟩, ⟨F.MC_TSET0_TRCD, .rw, 0x28, 0, 255⟩, ⟨F.MC_TSET0_CL, .rw, 0x28, 0, 255⟩, ⟨F.MC_TSET0_SPEED, .rw, 0x0, 0, 2⟩]⟩,
  ⟨0x1C0104, [(0x20, 2)], .single, [⟨F.MC_TSET1_TWR, .rw, 0x48, 0, 255⟩, ⟨F.MC_TSET1_TRAS, .rw, 0x4D, 0, 255⟩, ⟨F.MC_TSET1_TRTP, .rw, 0x12, 0, 255⟩, ⟨F.MC_TSET1_TWTR_L, .rw, 0x18, 0, 255⟩]⟩,
  ⟨0x1C0108, [(0x20, 2)], .single, [⟨F.MC_TSET2_TFAW, .rw, 0x20, 0, 255⟩, ⟨F.MC_TSET2_TRRD_L, .rw, 0xC, 0, 255⟩, ⟨F.MC_TSET2_TRRD_S, .rw, 0x8, 0, 255⟩, ⟨F.MC_TSET2_TCCD_L, .rw, 0xC, 0, 255⟩]⟩,
  ⟨0x1C010C, [(0x20, 2)], .single, [⟨F.MC_TSET3_TREFI, .rw, 0x2490, 0, 65535⟩, ⟨F.MC_TSET3_TRFC1, .rw, 0x3D8, 0, 65535⟩]⟩,
  ⟨0x1C0110, [(0x20, 2)], .single, [⟨F.MC_TSET4_TXS, .rw, 0x3F0, 0, 65535⟩, ⟨F.MC_TSET4_TRFCSB, .rw, 0x1C8, 0, 65535⟩]⟩,
  ⟨0x1C000C, [], .single, [⟨F.MC_PAGE_IDLE, .rw, 0x20, 0, 255⟩]⟩,
  ⟨0x1C0010, [], .single, [⟨F.MC_ACT_CFG_THR, .rw, 0x800, 1, 65535⟩, ⟨F.MC_ACT_CFG_DRFM_OFF, .rw, 0x0, 0, 1⟩, ⟨F.MC_ACT_CFG_EN, .rw, 0x1, 0, 1⟩]⟩,
  ⟨0x1C0014, [], .single, [⟨F.MC_ACT_CNT_COUNT, .ro, 0x0, 0, 4294967295⟩]⟩,
  ⟨0x1C0018, [], .single, [⟨F.MC_ECC_CFG_AUTO_N, .rw, 0x10, 1, 255⟩, ⟨F.MC_ECC_CFG_CLR, .wo, 0x0, 0, 1⟩, ⟨F.MC_ECC_CFG_AUTO_EN, .rw, 0x1, 0, 1⟩]⟩]

/-- Register rows of chapter 14, part 2. -/
def regTable14b : List RegDesc := [
  ⟨0x1C001C, [], .single, [⟨F.MC_ECC_ERASE_DEV, .rws, 0xFFF, 0, 4095⟩]⟩,
  ⟨0x1C0020, [], .single, [⟨F.MC_ECC_CNT_UNCORR, .ro, 0x0, 0, 65535⟩, ⟨F.MC_ECC_CNT_CORR, .ro, 0x0, 0, 65535⟩]⟩,
  ⟨0x1C0024, [(0x4, 4)], .single, [⟨F.MC_ECC_DEV_COUNT, .ro, 0x0, 0, 1073741823⟩]⟩,
  ⟨0x1C0034, [], .roLo, [⟨F.MC_ECC_LAST_LO_ADDR_LO, .ro, 0x0, 0, 4294967295⟩]⟩,
  ⟨0x1C0038, [], .roHi, [⟨F.MC_ECC_LAST_HI_POISON, .ro, 0x0, 0, 1⟩, ⟨F.MC_ECC_LAST_HI_ADDR_HI, .ro, 0x0, 0, 255⟩]⟩,
  ⟨0x1C0040, [], .single, [⟨F.MC_SCRUB_CFG_PERIOD_H, .rw, 0x18, 1, 65535⟩, ⟨F.MC_SCRUB_CFG_EN, .rw, 0x0, 0, 1⟩]⟩,
  ⟨0x1C0044, [], .single, [⟨F.MC_SCRUB_STATUS_PTR, .ro, 0x0, 0, 1073741823⟩]⟩,
  ⟨0x1C0048, [], .rwLo, [⟨F.MC_FLIP_ADDR_LO_ADDR_LO, .rw, 0x0, 0, 536870911⟩]⟩,
  ⟨0x1C004C, [], .rwHi, [⟨F.MC_FLIP_ADDR_HI_ARMED, .ro, 0x0, 0, 1⟩, ⟨F.MC_FLIP_ADDR_HI_ADDR_HI, .rw, 0x0, 0, 255⟩]⟩,
  ⟨0x1C0050, [], .single, [⟨F.MC_FLIP_MASK0_MASK, .rw, 0x0, 0, 4294967295⟩]⟩,
  ⟨0x1C0054, [], .single, [⟨F.MC_FLIP_MASK1_MASK, .rw, 0x0, 0, 4294967295⟩]⟩,
  ⟨0x1C0058, [], .single, [⟨F.MC_FLIP_MASK2_MASK, .rw, 0x0, 0, 65535⟩]⟩]

/-- Register rows of chapter 14, part 3. -/
def regTable14c : List RegDesc := [
  ⟨0x1C0060, [], .single, [⟨F.MC_FC_CTRL_TARGET, .rw, 0x0, 0, 1⟩, ⟨F.MC_FC_CTRL_REQ, .wo, 0x0, 0, 1⟩]⟩,
  ⟨0x1C0070, [], .single, [⟨F.MC_SWEEP_START, .wo, 0x0, 0, 1⟩]⟩,
  ⟨0x1C0200, [], .single, [⟨F.MC_TRN_CMD_OP, .wo, 0x0, 0, 15⟩, ⟨F.MC_TRN_CMD_SCMASK, .wo, 0x0, 0, 15⟩, ⟨F.MC_TRN_CMD_MR, .wo, 0x0, 0, 255⟩, ⟨F.MC_TRN_CMD_DATA, .wo, 0x0, 0, 65535⟩]⟩,
  ⟨0x1C0204, [], .single, [⟨F.MC_TRN_ADDR_ROW, .rw, 0x0, 0, 131071⟩, ⟨F.MC_TRN_ADDR_BG, .rw, 0x0, 0, 7⟩, ⟨F.MC_TRN_ADDR_BA, .rw, 0x0, 0, 3⟩, ⟨F.MC_TRN_ADDR_COL, .rw, 0x0, 0, 63⟩]⟩,
  ⟨0x1C0208, [], .single, [⟨F.MC_TRN_PAT_MODE, .rw, 0x0, 0, 3⟩, ⟨F.MC_TRN_PAT_SEED, .rw, 0x1, 0, 1073741823⟩]⟩,
  ⟨0x1C020C, [], .single, [⟨F.MC_TRN_STATUS_BUSY, .ro, 0x0, 0, 1⟩, ⟨F.MC_TRN_STATUS_MRR, .ro, 0x0, 0, 255⟩]⟩,
  ⟨0x1C0210, [(0x8, 4), (0x4, 2)], .single, [⟨F.MC_TRN_FAIL_FAIL, .ro, 0x0, 0, 4294967295⟩]⟩,
  ⟨0x1C1000, [(0x400, 2), (0x100, 4), (0x4, 40)], .single, [⟨F.MC_DLY_DQ_WR, .rw, 0x0, 0, 127⟩, ⟨F.MC_DLY_DQ_RD, .rw, 0x0, 0, 127⟩]⟩,
  ⟨0x1C10A0, [(0x400, 2), (0x100, 4), (0x4, 5)], .single, [⟨F.MC_DLY_LANE_GATE, .rw, 0x0, 0, 511⟩, ⟨F.MC_DLY_LANE_WR_DQS, .rw, 0x0, 0, 511⟩, ⟨F.MC_DLY_LANE_RD_DQS, .rw, 0x20, 0, 511⟩]⟩]

/-- Register rows of chapter 15, part 1. -/
def regTable15a : List RegDesc := [
  ⟨0x200000, [], .single, [⟨F.CAL_STATUS_BG_DEV, .ro, 0x0, 0, 1⟩, ⟨F.CAL_STATUS_SLEWING, .ro, 0x0, 0, 1⟩, ⟨F.CAL_STATUS_TRIM_BUSY, .ro, 0x0, 0, 1⟩, ⟨F.CAL_STATUS_ADC_BAD, .w1c, 0x0, 0, 536870911⟩]⟩,
  ⟨0x200004, [], .single, [⟨F.CAL_STATUS1_ADC_BAD, .w1c, 0x0, 0, 15⟩]⟩,
  ⟨0x200008, [], .single, [⟨F.CAL_TRIG_MAN, .rw, 0x0, 0, 1⟩, ⟨F.CAL_TRIG_DT, .rw, 0x40, 1, 255⟩, ⟨F.CAL_TRIG_PERIOD, .rw, 0x3C, 1, 65535⟩]⟩,
  ⟨0x20000C, [], .single, [⟨F.CAL_SLEW_GAIN_STEP, .rw, 0x4, 1, 65535⟩, ⟨F.CAL_SLEW_OFS_STEP, .rw, 0x2, 1, 65535⟩]⟩,
  ⟨0x200010, [], .single, [⟨F.CAL_COMPOSITE_SOURCE, .ro, 0x0, 0, 31⟩, ⟨F.CAL_COMPOSITE_TEMP, .ro, 0x0, 0, 65535⟩]⟩,
  ⟨0x200100, [(0x4, 20)], .single, [⟨F.CAL_TEMP_VALID, .ro, 0x0, 0, 1⟩, ⟨F.CAL_TEMP_TEMP, .ro, 0x0, 0, 65535⟩]⟩,
  ⟨0x200200, [(0x8, 33)], .single, [⟨F.CAL_ADC_APP_GAIN, .ro, 0x0, 0, 65535⟩, ⟨F.CAL_ADC_APP_OFS, .ro, 0x0, 0, 65535⟩]⟩,
  ⟨0x200204, [(0x8, 33)], .single, [⟨F.CAL_ADC_TGT_GAIN, .rw, 0x0, 0, 65535⟩, ⟨F.CAL_ADC_TGT_OFS, .rw, 0x0, 0, 65535⟩]⟩,
  ⟨0x200400, [], .single, [⟨F.CAL_CMP_CTRL_RUN, .wo, 0x0, 0, 1⟩]⟩,
  ⟨0x200404, [], .single, [⟨F.CAL_CMP_DAC_W, .rw, 0x0, 0, 63⟩, ⟨F.CAL_CMP_DAC_V, .rw, 0x0, 0, 63⟩, ⟨F.CAL_CMP_DAC_U, .rw, 0x0, 0, 63⟩]⟩]

/-- Register rows of chapter 16, part 1. -/
def regTable16a : List RegDesc := [
  ⟨0x240000, [], .single, [⟨F.SEC_STATUS_SESSIONS, .ro, 0x0, 0, 15⟩, ⟨F.SEC_STATUS_CERT_BAD, .ro, 0x0, 0, 1⟩, ⟨F.SEC_STATUS_DBG, .ro, 0x0, 0, 7⟩, ⟨F.SEC_STATUS_SLOT, .ro, 0x0, 0, 3⟩, ⟨F.SEC_STATUS_BOOT, .ro, 0x0, 0, 3⟩]⟩,
  ⟨0x240004, [], .single, [⟨F.SEC_FUSE_FLOOR, .ro, 0x0, 0, 63⟩, ⟨F.SEC_FUSE_DEBUG_OK, .ro, 0x0, 0, 15⟩, ⟨F.SEC_FUSE_REVOKED, .ro, 0x0, 0, 15⟩, ⟨F.SEC_FUSE_PROGRAMMED, .ro, 0x0, 0, 15⟩]⟩,
  ⟨0x240008, [], .single, [⟨F.SEC_CTRL_REV_SLOT, .wo, 0x0, 0, 3⟩, ⟨F.SEC_CTRL_REVOKE, .wo, 0x0, 0, 1⟩, ⟨F.SEC_CTRL_FLOOR_COMMIT, .wo, 0x0, 0, 1⟩]⟩,
  ⟨0x240010, [(0x4, 4)], .single, [⟨F.SEC_UID_UID, .ro, 0x0, 0, 4294967295⟩]⟩,
  ⟨0x240100, [(0x4, 12)], .single, [⟨F.SEC_DBG_CHAL_NONCE, .ro, 0x0, 0, 4294967295⟩]⟩,
  ⟨0x240200, [(0x4, 88)], .single, [⟨F.SEC_DBG_BUF_DATA, .wo, 0x0, 0, 4294967295⟩]⟩,
  ⟨0x240400, [], .single, [⟨F.SEC_DBG_CTRL_BUSY, .ro, 0x0, 0, 1⟩, ⟨F.SEC_DBG_CTRL_SUBMIT, .wo, 0x0, 0, 1⟩]⟩]

/-- Register rows of chapter 17, part 1. -/
def regTable17a : List RegDesc := [
  ⟨0x010000, [], .single, [⟨F.SYS_IDENT_VENDOR, .ro, 0x0, 0, 65535⟩, ⟨F.SYS_IDENT_DEVICE, .ro, 0x5316, 0, 65535⟩]⟩,
  ⟨0x010004, [], .single, [⟨F.SYS_IDENT1_REVISION, .ro, 0x1, 0, 255⟩]⟩,
  ⟨0x010008, [], .single, [⟨F.SYS_RST_CAUSE_SUPPLY, .w1c, 0x0, 0, 1⟩, ⟨F.SYS_RST_CAUSE_CTRL, .w1c, 0x0, 0, 1⟩, ⟨F.SYS_RST_CAUSE_FLR, .w1c, 0x0, 0, 1⟩, ⟨F.SYS_RST_CAUSE_WARM, .w1c, 0x0, 0, 1⟩, ⟨F.SYS_RST_CAUSE_POR, .w1c, 0x1, 0, 1⟩]⟩,
  ⟨0x01000C, [], .single, [⟨F.SYS_BOOT_HOST_READY, .w1s, 0x0, 0, 1⟩, ⟨F.SYS_BOOT_STAGE, .ro, 0x0, 0, 7⟩]⟩,
  ⟨0x010010, [], .single, [⟨F.SYS_DOMAIN_ON, .ro, 0x80000, 0, 1048575⟩]⟩,
  ⟨0x010014, [], .single, [⟨F.SYS_DOMAIN_FAIL_SUPPLY, .ro, 0x0, 0, 7⟩, ⟨F.SYS_DOMAIN_FAIL_FAIL, .ro, 0x0, 0, 524287⟩]⟩,
  ⟨0x010018, [], .single, [⟨F.SYS_HEAD_CTRL_POWER, .wo, 0x0, 0, 65535⟩, ⟨F.SYS_HEAD_CTRL_ISOLATE, .wo, 0x0, 0, 65535⟩]⟩,
  ⟨0x01001C, [], .single, [⟨F.SYS_HEAD_STATUS_POPULATED, .ro, 0x0, 0, 65535⟩, ⟨F.SYS_HEAD_STATUS_IN_SERVICE, .ro, 0x0, 0, 65535⟩]⟩,
  ⟨0x010020, [], .single, [⟨F.SYS_SUPPLY_PWRGD, .ro, 0x0, 0, 15⟩]⟩,
  ⟨0x020000, [], .single, [⟨F.EV_WPTR_WPTR, .ro, 0x0, 0, 4294967295⟩]⟩,
  ⟨0x020004, [], .single, [⟨F.EV_RPTR_RPTR, .rw, 0x0, 0, 4294967295⟩]⟩,
  ⟨0x020008, [], .roLo, [⟨F.EV_COMP_LO_COMP_LO, .ro, 0x0, 0, 4294967295⟩]⟩]

/-- Register rows of chapter 17, part 2. -/
def regTable17b : List RegDesc := [
  ⟨0x02000C, [], .roHi, [⟨F.EV_COMP_HI_COMP_HI, .ro, 0x0, 0, 4294967295⟩]⟩,
  ⟨0x020010, [], .single, [⟨F.EV_ATTN_THRESH, .rw, 0x400, 0, 65535⟩, ⟨F.EV_ATTN_MASK, .rw, 0x8400, 0, 65535⟩]⟩,
  ⟨0x020014, [], .single, [⟨F.EV_STATUS_LATE, .ro, 0x0, 0, 65535⟩, ⟨F.EV_STATUS_ATTN, .w1c, 0x0, 0, 1⟩]⟩]

/-- The whole register map of BAR0. -/
def regTable : List RegDesc :=
  regTable02a ++ regTable03a ++ regTable04a ++ regTable05a ++ regTable05b ++ regTable06a ++ regTable06b ++ regTable07a ++ regTable07b ++ regTable08a ++ regTable08b ++ regTable09a ++ regTable09b ++ regTable09c ++ regTable10a ++ regTable11a ++ regTable12a ++ regTable13a ++ regTable14a ++ regTable14b ++ regTable14c ++ regTable15a ++ regTable16a ++ regTable17a ++ regTable17b

end Sys2Proof.Machine
end

