-- ==== Sys2Proof/Machine/State/Decode.lean ====
section
/-!
DEFINITION. Machine/State/Decode.lean: the state of the decode island: sectors on their way from a head to
their outcome, the first-pass and deep engines, the twill and surface-parity engines, decode work, run-ahead
bands and the outcome ring (chapter 6).
-/

namespace Sys2Proof.Machine

/-- Sector outcomes (Table 2-12), in the order of their codes. -/
inductive SecOutcome where
  | decoded | erased | reread | verified | verifyFailed | verifyPending | cut
  deriving DecidableEq, Repr

/-- What a sector is read or written for. -/
inductive SecKind where
  | read | verify | reframe (work : Nat)
  deriving DecidableEq, Repr

/-- One framing of a sector (R48): its position less q0, and its mismatches. -/
structure Framing where
  ofs  : Int
  miss : Nat
  deriving DecidableEq, Repr

/-- Where a sector is (R33, R117 to R122). -/
inductive SecStage where
  /-- samples still arriving -/
  | inFlight
  /-- its record is building in or complete in the ingest buffer, or spilled, unbound -/
  | waiting
  /-- in the input buffer of a first-pass engine: engine, buffer -/
  | bound (e b : Nat)
  /-- in the core of a first-pass engine -/
  | firstPass (e : Nat)
  | deepQueue
  | deep (e : Nat)
  /-- its outcome is decided -/
  | done
  deriving DecidableEq, Repr

/-- Flags and counts that a sector's record carries (Tables 5-6 and 6-4). -/
structure SecInfo where
  framing    : Nat
  syncOfs    : Int
  syncMiss   : Nat
  formR      : Bool
  replayed   : Nat
  softErased : List Nat
  forced     : Nat
  erasedBits : Nat
  dropout    : Bool
  meanAbs    : Nat
  decM       : Nat
  miscorrect : Bool
  misplaced  : Bool
  deepFull   : Bool
  deepFail   : Bool
  hopeless   : Bool
  corrected  : Bool
  fpIter     : Nat
  deepIter   : Nat
  syndrome   : Nat
  flipped    : Nat
  /-- raw mismatches of a verify read, one count per framing (R152) -/
  raws       : List Nat
  deriving DecidableEq, Repr

/-- One sector. `soft` holds its soft values: code bits in Form C, channel bits in Form R. -/
structure Sector where
  id       : Nat
  head     : Nat
  beam     : Nat
  pass     : Nat
  kind     : SecKind
  layer    : Nat
  track    : Nat
  slot     : Nat
  group    : Nat
  member   : Nat
  band     : Nat
  spec     : Bool
  stamp    : Stamp
  acq      : Stamp
  /-- position q0 in data bits, and the predicted stamp of the mark -/
  q0       : Nat
  predicted : Stamp
  framings : List Framing
  inferred : Bool
  framed   : Bool
  complete : Bool
  /-- stamp of its last sample, once all its samples are in -/
  lastSample : Option Stamp
  stage    : SecStage
  /-- stop at the next iteration end and discard (R122) -/
  withdrawn : Bool
  /-- DC_FP_CFG as it stood at the binding (R139), and the tick by which the record is fully in its buffer -/
  fpCfg    : Nat
  inBufAt  : Stamp
  /-- where its record lies in the head's spill area, once it has been spilled (R113) -/
  spilled  : Option Nat
  /-- soft values released so far from the acquisition start, none at an erased position -/
  released : List (Option Int)
  /-- positions that a dropout erased, and the instants of interval 0's bits in 1/256 tick, from the acquisition start -/
  drops    : List Nat
  insts    : List Int
  soft     : List Int
  channel  : List Int
  dest     : Nat
  info     : SecInfo
  outcome  : Option SecOutcome
  deriving DecidableEq, Repr

/-- The min-sum state of a decode core (R118, R121). `msg` holds one list of messages per check, in the
order of that check's bits. -/
structure DecodeCore where
  sector : Nat
  ch     : Array Int
  post   : Array Int
  msg    : Array (List Int)
  iter   : Nat
  iterEnds : Stamp
  /-- framings still in the contest of R49, with the weight found for the first -/
  contest : List Framing
  firstWeight : Option Nat
  cap    : Nat
  beta   : Nat
  hopeless : Nat
  deriving DecidableEq, Repr

/-- A first-pass engine: one core and two input buffers (R117). -/
structure FpEngine where
  core : Option DecodeCore
  buf0 : Option Nat
  buf1 : Option Nat
  deriving DecidableEq, Repr

/-- What a twill group knows of one member: its outcome, whether its payload is at `data`, and what its sector
record says. -/
structure Member where
  outcome : SecOutcome
  known   : Bool
  data    : Nat
  tag     : Nat
  /-- the band-assembly stamp of its header, where it was decoded (R125) -/
  asm     : Nat
  stamp   : Stamp
  beam    : Nat
  track   : Nat
  slot    : Nat
  info    : SecInfo
  deriving DecidableEq, Repr

/-- A twill group of a pass or of a work order (R124, R126). -/
structure Group where
  head    : Nat
  pass    : Nat
  layer   : Nat
  band    : Nat
  g       : Nat
  /-- members that have an outcome, by member index -/
  members : List (Nat × Member)
  closed  : Option Stamp
  checkAll : Bool
  errEn   : Bool
  spec    : Bool
  deriving DecidableEq, Repr

/-- A decode work order (Table 6-1 and Table 10-11), its scratch bytes read at submission. -/
structure DecWork where
  op     : Nat
  who    : Waiter
  bytes  : List Nat
  /-- twill step of the named head's bands when the order was accepted (R131) -/
  d      : Nat
  deriving DecidableEq, Repr

/-- What the twill engine runs (R127). -/
inductive TwillJob where
  | group (g : Group)
  | enc (w : DecWork)
  | dec (w : DecWork)
  deriving DecidableEq, Repr

/-- A record on its way to the outcome ring (R138): 64 bytes, and the pass it belongs to. -/
structure OutRecord where
  bytes : List Nat
  head  : Nat
  pass  : Nat
  work  : Bool
  /-- layer and band of a speculative sector's record -/
  spec  : Option (Nat × Nat)
  deriving DecidableEq, Repr

/-- A run-ahead band (R132 to R134). -/
structure RunAhead where
  head    : Nat
  pass    : Nat
  layer   : Nat
  band    : Nat
  slot    : Nat
  /-- BANDS and the area's base as the pass that opened the band holds them (R139) -/
  bands   : Nat
  base    : Nat
  opened  : Stamp
  /-- the fetch stamp of the read that claimed it, while its data has not been moved (R133) -/
  claim   : Option Stamp
  sectors : Nat
  /-- what the band adds to each decode counter once it is claimed -/
  counts  : List Nat
  /-- ring slots of the band's records -/
  records : List Nat
  deriving DecidableEq, Repr

/-- An entry of the deep queue (R120): its sector, the tick it entered, the sector's stamp, and where the channel values of
its winning framing lie in deep staging. -/
structure DeepEntry where
  sector  : Nat
  entered : Stamp
  stamp   : Stamp
  addr    : Nat
  deriving DecidableEq, Repr

/-- The decode island. -/
structure DecodeState where
  nextId   : Nat
  sectors  : List Sector
  engines  : Vector FpEngine 32
  deep     : Vector (Option DecodeCore) 4
  /-- the deep queue in order of leaving -/
  deepQ    : List DeepEntry
  /-- a refusal episode of the deep queue is on (Table 6-3) -/
  deepRefusing : Bool
  bindings : Nat
  groups   : List Group
  twillQ   : List Group
  twillEncQ : List DecWork
  twillDecQ : List DecWork
  twill    : Option (TwillJob × Stamp)
  spQ      : List DecWork
  sp       : Option (DecWork × Stamp)
  reframeQ : List DecWork
  /-- REFRAME orders bound to an engine or in the deep queue -/
  running  : List DecWork
  /-- orders on the control-to-decode crossing, oldest first -/
  workXing : List DecWork
  /-- records that wait for room in the ring, oldest first -/
  waiting  : List OutRecord
  runAhead : List RunAhead
  /-- an episode of a full outcome ring is on -/
  outFull  : Bool
  deriving DecidableEq, Repr

/-- The decode island after reset: nothing bound, queued or running. -/
def DecodeState.reset : DecodeState :=
  { nextId := 0, sectors := [], engines := Vector.replicate 32 ⟨none, none, none⟩, deep := Vector.replicate 4 none, deepQ := []
    deepRefusing := false, bindings := 0, groups := [], twillQ := [], twillEncQ := [], twillDecQ := [], twill := none, spQ := []
    sp := none, reframeQ := [], running := [], workXing := [], waiting := [], runAhead := [], outFull := false }

end Sys2Proof.Machine
end

