-- ==== Sys2Proof/Machine/State/Seq.lean ====
section
/-!
DEFINITION. Machine/State/Seq.lean: the state of the sequencer: the 24 bobbins, their event queues and waits,
program memory and the scratches (chapter 10), and the control store (chapter 11).
-/

namespace Sys2Proof.Machine

/-- Table 10-1, in the order of the codes. -/
inductive BobState where
  | halted | ready | stalled | waiting | exception
  deriving DecidableEq, Repr

/-- Kinds of event-queue entries (R229), in the order of their codes from 1. -/
inductive EntryKind where
  | device | decode | doorbell | workOrder
  deriving DecidableEq, Repr

/-- An entry of a bobbin's event queue (R229), with the source number that orders equal stamps. -/
structure EvEntry where
  stamp    : Stamp
  tag      : Nat
  kind     : EntryKind
  result   : Nat
  data     : Nat
  src      : Nat
  epoch    : Nat
  released : Bool
  deriving DecidableEq, Repr

/-- A wait in progress (Table 10-5). -/
inductive Wait where
  /-- WAIT.EV: match operand, deadline, destination register, predicate -/
  | event (m deadline rd p : Nat)
  /-- WAIT.UNTIL: target -/
  | until_ (target : Nat)
  deriving DecidableEq, Repr

/-- Why a bobbin is STALLED (Table 10-1). -/
inductive Stall where
  /-- the result is in the registers already and the bobbin is ready at this tick -/
  | busy (till : Stamp)
  /-- DC.SUBMIT waits for room in the work queue, or an instruction for a free entry -/
  | retry
  deriving DecidableEq, Repr

/-- Who asked a bobbin to halt (R240): a bobbin's number or 0xFF for the host, or the hardware itself. -/
inductive HaltBy where
  | request (who : Nat)
  | hardware
  deriving DecidableEq, Repr

/-- A bobbin. -/
structure Bobbin where
  st       : BobState
  g        : Vector DWord 32
  p        : Vector Bool 8
  pc       : Nat
  scratch  : List (Nat × Byte)
  /-- the event queue, oldest arrival first -/
  queue    : List EvEntry
  /-- entries on their way to the queue -/
  arriving : List EvEntry
  /-- tags of the asynchronous instructions of this epoch that are outstanding: each has an entry reserved -/
  outst    : List Nat
  epoch    : Nat
  tagCount : Nat
  wait     : Option Wait
  stall    : Option Stall
  haltReq  : Option HaltBy
  lastStamp : Stamp
  /-- WO.GET found the queue empty and the next order is to be announced -/
  wantsOrder : Bool
  /-- the first tick at which the issue stage may take it again (R223) -/
  nextIssue : Stamp
  deriving DecidableEq, Repr

/-- A machine check's cause (Table 11-4). -/
inductive McCause where
  | parity | safePoint | stampFault
  deriving DecidableEq, Repr

/-- A patch image in a bank of the control store (R247, R248). -/
structure PatchBank where
  version  : Nat
  /-- 72-bit words, relocated, the parity bits above the micro-word -/
  words    : List Nat
  /-- match entries as MATCH[k] of Table 11-3 -/
  matchSet : List Nat
  deriving DecidableEq, Repr

/-- The sequencer and the control store. -/
structure SeqState where
  bobbins : Vector Bobbin 24
  shared  : List (Nat × Byte)
  prog    : List (Nat × Word)
  banks   : Vector PatchBank 2
  /-- ROM address whose parity fault CS_TEST armed, if one is armed -/
  inject  : Option Nat
  /-- the bobbin issued last -/
  lastIssue  : Nat
  /-- the control-island cycle of the last issue, and how many instructions issued in it -/
  issueCycle : Nat
  issueCount : Nat
  deriving DecidableEq, Repr

/-- A bobbin after reset: HALTED (Table 10-1). -/
def Bobbin.reset : Bobbin :=
  { st := .halted, g := Vector.replicate 32 0, p := Vector.replicate 8 false, pc := 0, scratch := [], queue := [], arriving := []
    outst := [], epoch := 0, tagCount := 0, wait := none, stall := none, haltReq := none, lastStamp := 0
    wantsOrder := false, nextIssue := 0 }

/-- The sequencer and the control store after reset: no programs, no patch. -/
def SeqState.reset : SeqState :=
  { bobbins := Vector.replicate 24 Bobbin.reset, shared := [], prog := [], banks := Vector.replicate 2 ⟨0, [], []⟩, inject := none
    lastIssue := 23, issueCycle := 0, issueCount := 0 }

end Sys2Proof.Machine
end

