-- ==== Sys2Proof/Machine/State/Host.lean ====
section
/-!
DEFINITION. Machine/State/Host.lean: the state of the host island: queues, command slots, range locks and the sump, aborts,
asynchronous events, features, resets and firmware activation (chapter 12), and the placement-map assist (chapter 13).
-/

namespace Sys2Proof.Machine

/-! ## Queues -/

/-- A submission queue: function, identifier, size, its completion queue, its priority (0 urgent, 1 high, 2 medium, 3 low),
and its head and tail. -/
structure SubQ where
  fn   : Nat
  qid  : Nat
  base : Nat
  size : Nat
  cq   : Nat
  prio : Nat
  head : Nat
  tail : Nat
  deriving DecidableEq, Repr

/-- A completion queue, with its phase tag, its interrupt vector, and the completions whose interrupt is held by
coalescing since `heldSince`. -/
structure CmpQ where
  fn    : Nat
  qid   : Nat
  base  : Nat
  size  : Nat
  head  : Nat
  tail  : Nat
  phase : Bool
  ien   : Bool
  iv    : Nat
  heldN : Nat
  heldSince : Stamp
  deriving DecidableEq, Repr

/-- Where the arbitration of R265 stands: the queue whose turn it is with the entries left to it, the queue last served in
each class (0 admin, 1 urgent, 2 high, 3 medium, 4 low), and the turns left to high, medium and low in this round. -/
structure Arbiter where
  turn  : Option (Nat × Nat × Nat)
  last  : List (Nat × (Nat × Nat))
  left  : Nat × Nat × Nat
  deriving DecidableEq, Repr

/-! ## Commands -/

/-- What a fetched command is. `admin` stands for the admin commands that the host island carries out whole at the fetch. -/
inductive CmdKind where
  | read | write | flush | verify | dsm | format | seqCall | cartLoad | cartRelease | mediumHealth
  | abort | aer | fwCommit | admin
  deriving DecidableEq, Repr

/-- Where a command's work order is (R238). -/
inductive OrderSt where
  | notIssued | queued | taken (b : Fin 24) | returned
  deriving DecidableEq, Repr

/-- A decided completion: status as 256·SCT + SC, dword 0, the bytes that the host island itself returns to the host, and
its place in the order of deciding. -/
structure Decision where
  status : Nat
  dw0    : Nat
  bytes  : List Nat
  seq    : Nat
  deriving DecidableEq, Repr

/-- An accepted WO.DONE with success that a completion waits for: its dword 0. -/
structure Accepted where
  dw0 : Nat
  deriving DecidableEq, Repr

/-- A fetched command. -/
structure HostCmd where
  slot    : Nat
  fn      : Nat
  sqid    : Nat
  /-- the completion queue of its submission queue -/
  cqid    : Nat
  cid     : Nat
  stamp   : Stamp
  kind    : CmdKind
  nsid    : Nat
  slba    : Nat
  nlb     : Nat
  fua     : Bool
  /-- command dwords 10 to 15 -/
  cdw     : List Nat
  /-- ranges of a Dataset Management command: first block and count -/
  ranges  : List (Nat × Nat)
  /-- the command carries a data pointer -/
  hasPtr  : Bool
  /-- host-to-controller data still on its way -/
  dataDue : Bool
  /-- frames that its OLD entries name (R291) -/
  named   : List Nat
  order   : OrderSt
  accepted : Option Accepted
  decided : Option Decision
  /-- an Abort command's target by its fetch stamp, and whether the target was aborted -/
  target  : Option (Stamp × Bool)
  deriving DecidableEq, Repr

/-- An abort notice (R238): the slot, the fetch stamp and the function of a command whose order a bobbin had taken. -/
structure Notice where
  slot  : Nat
  stamp : Stamp
  fn    : Nat
  deriving DecidableEq, Repr

/-- A range-lock request (R270): `ns` is none for the whole device. -/
structure LockReq where
  slot    : Nat
  stamp   : Stamp
  ns      : Option Nat
  lo      : Nat
  hi      : Nat
  excl    : Bool
  granted : Bool
  deriving DecidableEq, Repr

/-- A queued snip request (R274, R276): SQID, CID, its request stamp, and what stood at that stamp: the target's fetch stamp and
slot, and the RESULT that the request will show (Table 12-12). -/
structure Snip where
  sqid   : Nat
  cid    : Nat
  a      : Stamp
  target : Option (Stamp × Nat)
  result : Nat
  deriving DecidableEq, Repr

/-- An asynchronous event (R283). -/
structure AsyncEv where
  type : Nat
  info : Nat
  lid  : Nat
  deriving DecidableEq, Repr

/-- An Error Information entry (R282). -/
structure ErrEntry where
  count  : Nat
  sqid   : Nat
  cid    : Nat
  status : Nat
  lba    : Nat
  nsid   : Nat
  deriving DecidableEq, Repr

/-- How far a reset or a shutdown of a function has come. -/
inductive FnPhase where
  | running
  /-- a controller reset waits for the end of a firmware activation (R277), by its cause -/
  | awaitResume (cause : Nat)
  /-- a controller reset waits for the heads' hems, and then for a patch reload (R277, R254) -/
  | resetting
  /-- a normal shutdown completes its commands and commits the writes fetched before this stamp (R278) -/
  | draining (since : Stamp)
  /-- a shutdown's heads hem -/
  | hemming
  | shutDown
  deriving DecidableEq, Repr

/-- What one function keeps. -/
structure FnState where
  phase    : FnPhase
  /-- CC.EN rose and CSTS.RDY waits for HOST_READY (R349) -/
  wantsRdy : Bool
  snips    : List Snip
  pending  : List AsyncEv
  /-- event types posted and not yet acknowledged by the log page they name: type and log page -/
  posted   : List (Nat × Nat)
  changed  : List Nat
  /-- a pause of fetch by cause 1 or 2 has been logged -/
  pauseLogged : Bool
  errors   : List ErrEntry
  errCount : Nat
  /-- features by 65,536·FID + selector -/
  features : List (Nat × Nat)
  deriving DecidableEq, Repr

/-- A namespace: granules, surface-parity mode, state under log page 0xC0 with the stamp of its last change, the offset of
its map table, its size in blocks, and the functions it is attached to. -/
structure Namespace where
  granules : Nat
  mode     : Nat
  state    : Nat
  changedAt : Stamp
  mapOfs   : Nat
  size     : Nat
  attached : List Nat
  deriving DecidableEq, Repr

/-- A firmware activation (R280): t0, the Commit's fetch stamp, the slot written, and whether its drain has ended. -/
structure Activation where
  t0      : Stamp
  cmd     : Stamp
  slot    : Nat
  drained : Bool
  deriving DecidableEq, Repr

/-- A Firmware Commit whose package is being written to flash: its command, slot and CA value. -/
structure CommitJob where
  cmd  : Stamp
  slot : Nat
  ca   : Nat
  len  : Nat
  /-- the flash has been written and read back -/
  written : Bool
  deriving DecidableEq, Repr

/-! ## The placement-map assist -/

/-- An atomic group of dirty frames (R293), with the stamp of its first apply. -/
structure FrameGroup where
  stamp  : Stamp
  frames : List Nat
  deriving DecidableEq, Repr

/-- What the assist knows of a sealed batch beside its table entry: the groups it took, and the TRIM and NSOP entries of a
private batch, as key and value. -/
structure BatchInfo where
  batch   : Nat
  groups  : List FrameGroup
  entries : List (Nat × Nat)
  deriving DecidableEq, Repr

/-- A chain of journal records built and not applied: its first and last sequence, its frames, and its batch. -/
structure Chain where
  first  : Nat
  last   : Nat
  frames : List Nat
  batch  : Option Nat
  deriving DecidableEq, Repr

/-- A Write, Dataset Management or Format command that is not yet committed to the medium (R273): its fetch stamp and
namespace, the frames it waits for, or the private batch of its entries. -/
structure Track where
  stamp  : Stamp
  nsid   : Nat
  frames : List Nat
  batch  : Option Nat
  /-- a Flush waits for it: not so for a Format -/
  flushed : Bool
  deriving DecidableEq, Repr

/-- The assist's own state; its tables stand in buffer memory (Table 13-2). -/
structure PlaceState where
  groups   : List FrameGroup
  batches  : List BatchInfo
  chains   : List Chain
  tracks   : List Track
  /-- for each cached granule's frame, the map entry before the apply (R296) -/
  before   : List (Nat × Nat)
  /-- fetch stamps of the commands whose apply is deferred, in acceptance order -/
  deferred : List Stamp
  /-- accepted commits that wait for room in the journal ring, by batch -/
  waiting  : List Nat
  /-- the next sequence to build, and the last applied -/
  nextSeq  : Nat
  applied  : Nat
  /-- replay has met a record that fails its checks -/
  ended    : Bool
  /-- the grown-defect list -/
  defects  : List Nat
  deriving DecidableEq, Repr

/-- A write through port 1 of a register that both functions share (R18): the clock of the host island, the register, its word
before, and the word written. -/
structure PortWrite where
  clock  : Nat
  key    : Nat
  before : Word
  word   : Word
  deriving DecidableEq, Repr

/-- The host island. -/
structure HostState where
  /-- port 1's last write of a shared register (R18) -/
  port1    : Option PortWrite
  sqs      : List SubQ
  cqs      : List CmpQ
  arb      : Arbiter
  /-- fetched commands in order of fetch -/
  cmds     : List HostCmd
  notices  : List Notice
  locks    : List LockReq
  sump     : List LockReq
  /-- fetch is paused by a full sump, and an episode of a non-empty sump is on (R272) -/
  sumpFull : Bool
  lastFetch : Stamp
  nextSeq  : Nat
  fns      : Vector FnState 2
  namespaces : Vector (Option Namespace) 16
  activation : Option Activation
  commit   : Option CommitJob
  /-- staged firmware pieces: offset and length -/
  pieces   : List (Nat × Nat)
  /-- unrecovered reads, and commands and blocks read and written (log page 0x02) -/
  mediaErrors : Nat
  reads    : Nat
  writes   : Nat
  blocksRead : Nat
  blocksWritten : Nat
  /-- Critical Warning bits in force (R302, R322) -/
  warnings : Nat
  /-- a Cartridge Load has succeeded and no Release since -/
  loaded   : Bool
  /-- the header of the last Medium Health Report in summary scope, with the time base at its capture (log page 0xC2) -/
  health   : List Nat
  healthAt : Stamp
  place    : PlaceState
  deriving DecidableEq, Repr

/-- A function after reset. -/
def FnState.reset : FnState :=
  { phase := .running, wantsRdy := false, snips := [], pending := [], posted := [], changed := [], pauseLogged := false,
    errors := [], errCount := 0, features := [] }

/-- The assist after reset. -/
def PlaceState.reset : PlaceState :=
  { groups := [], batches := [], chains := [], tracks := [], before := [], deferred := [], waiting := [], nextSeq := 1,
    applied := 0, ended := false, defects := [] }

/-- The host island after reset. -/
def HostState.reset : HostState :=
  { port1 := none, sqs := [], cqs := [], arb := ⟨none, [], (0, 0, 0)⟩, cmds := [], notices := [], locks := [], sump := [],
    sumpFull := false, lastFetch := 0, nextSeq := 0, fns := Vector.replicate 2 FnState.reset,
    namespaces := Vector.replicate 16 none, activation := none, commit := none, pieces := [], mediaErrors := 0, reads := 0,
    writes := 0, blocksRead := 0, blocksWritten := 0, warnings := 0, loaded := false, health := [], healthAt := 0, place := PlaceState.reset }

end Sys2Proof.Machine
end

