-- ==== Sys2Proof/Machine/State/Loop.lean ====
section
/-!
DEFINITION. Machine/State/Loop.lean: the state of the loop engine: slots, their node states, the inputs visible
to the engine, the head sequences and the trace (chapter 8).
-/

namespace Sys2Proof.Machine

/-- Table 8-5, in the order of the codes. -/
inductive SlotSt where
  | disabled | hold | ramp | run
  deriving DecidableEq, Repr

/-- A QUAD set as the engine sees it (R63, R168): stamp, the tick at which it became visible, the four
quadrants, and whether it was marked invalid. -/
structure QuadSet where
  stamp   : Stamp
  seen    : Stamp
  a       : Int
  b       : Int
  c       : Int
  d       : Int
  invalid : Bool
  deriving DecidableEq, Repr

/-- A chevron offset: y in 1/8 nm and its centre stamp in half ticks (R42). -/
structure ChevOffset where
  y   : Int
  tc2 : Nat
  deriving DecidableEq, Repr

/-- What travels on the head-to-control crossing to the loop engine. -/
inductive LoopItem where
  | quad (q : QuadSet)
  | chevron (c : ChevOffset)
  | rise (stamp : Stamp)
  | fall (stamp : Stamp)
  deriving DecidableEq, Repr

/-- The state of one node: its last output, and up to two words of state in Q.31. -/
structure NodeState where
  out : Int
  s1  : Int
  s2  : Int
  s3  : Int
  s4  : Int
  /-- a MIN node's last winner: 0 none, 1 A, 2 B -/
  win : Nat
  /-- an OUT node's last sent value and the executions since -/
  sent : Option Int
  since : Nat
  deriving DecidableEq, Repr

/-- One laser loop of an APC node (R179): integrator, last value sent, executions since. -/
structure ApcLoop where
  i     : Int
  sent  : Option Int
  since : Nat
  deriving DecidableEq, Repr

/-- A loop slot (Table 8-5, R164 to R181). Its nodes, coefficients and configuration stand in its registers. -/
structure Slot where
  st        : SlotSt
  /-- a request that waits for the next execution start, with CLR_STATE -/
  req       : Option Nat
  clear     : Bool
  /-- admitted: its interval is reserved (R165) -/
  reserved  : Bool
  /-- a hardware cause asks for HOLD at the next execution start -/
  hwHold    : Bool
  /-- the persistent cause of the slot itself: an uncorrectable error in its memories (Table 8-6) -/
  memHold   : Bool
  coefPend  : List (Nat × Nat)
  nodes     : Vector NodeState 24
  /-- the laser loops of the slot's APC nodes, by 24·node + loop; one that is not listed is at zero -/
  apc       : List (Nat × ApcLoop)
  rampDone  : Bool
  resid     : Nat
  sat       : Nat
  held      : Bool
  minWin    : Nat
  minLogged : Option Stamp
  lastExec  : Option Stamp
  lastOut   : Int
  override  : Bool
  deriving DecidableEq, Repr

/-- The four head sequences (R185 to R188). -/
inductive SeqKind where
  | focus (layer : Nat) | layerJump (k : Int) | trackOn | seamJump (n : Int)
  deriving DecidableEq, Repr

/-- What a sequence is doing. -/
inductive SeqPhase where
  /-- focus acquisition: toward −SWEEP_LIM, and the rising sweep -/
  | toStart | sweep
  /-- layer jump: the kick, the wait for the last but one sign change, the brake -/
  | kick (left : Nat) | coast | brake (left : Nat)
  /-- track-on: waiting for a slow crossing -/
  | awaitCross
  /-- seam jump: before the seam, and counting crossings; each with its deadline -/
  | awaitSeam (seam deadline : Stamp) | counting (deadline : Stamp)
  /-- counting executions in lock; a seam jump has a deadline -/
  | settle (deadline : Option Stamp)
  deriving DecidableEq, Repr

/-- A running sequence: who asked (none when an HD.SEEK runs it), when it began, where it is. -/
structure Sequence where
  kind  : SeqKind
  who   : Option Waiter
  t0    : Stamp
  phase : SeqPhase
  drive : Int
  /-- starting value of the layer jump's kick -/
  base  : Int
  count : Nat
  lock  : Nat
  /-- the last FE or PP seen that was not 0, for sign changes -/
  prev  : Option Int
  /-- the PP of the execution before, for ΔPP (R187) -/
  last  : Option Int
  deriving DecidableEq, Repr

/-- What the engine keeps for one head. -/
structure LoopHead where
  /-- items on the head-to-control crossing, oldest first -/
  xing   : List LoopItem
  /-- visible QUAD sets, newest first, at most nine -/
  quads  : List QuadSet
  chev   : Option ChevOffset
  /-- the hold window of R170: its rise, and the fall once received -/
  rise   : Option Stamp
  fall   : Option Stamp
  lostRun : Nat
  /-- the layer that the last focus acquisition and the layer jumps after it reached (log entry 24) -/
  layer  : Nat
  seq    : Option Sequence
  deriving DecidableEq, Repr

/-- A trace record (R190). -/
structure TraceRec where
  stamp : Stamp
  slot  : Nat
  node  : Nat
  flags : Nat
  value : Int
  deriving DecidableEq, Repr

/-- The loop engine. -/
structure LoopState where
  slots : Vector Slot 96
  heads : Vector LoopHead 16
  /-- trace records on the crossing and at the merger, in order of arrival -/
  trace : List TraceRec
  /-- records accepted in this frame -/
  traceFrame : Nat
  traceCount : Nat
  traceRing  : List (Nat × TraceRec)
  /-- records still to be taken after a freeze trigger -/
  freezeLeft : Option Nat
  deriving DecidableEq, Repr

/-- A node with its state cleared. -/
def NodeState.zero : NodeState := { out := 0, s1 := 0, s2 := 0, s3 := 0, s4 := 0, win := 0, sent := none, since := 0 }

/-- A slot after reset: DISABLED (R183). -/
def Slot.reset : Slot :=
  { st := .disabled, req := none, clear := false, reserved := false, hwHold := false, memHold := false
    coefPend := [], nodes := Vector.replicate 24 NodeState.zero, apc := []
    rampDone := false, resid := 0, sat := 0, held := false, minWin := 0, minLogged := none, lastExec := none, lastOut := 0
    override := false }

/-- What the engine keeps for a head, after reset. -/
def LoopHead.reset : LoopHead :=
  { xing := [], quads := [], chev := none, rise := none, fall := none, lostRun := 0, layer := 0, seq := none }

/-- The loop engine after reset. -/
def LoopState.reset : LoopState :=
  { slots := Vector.replicate 96 Slot.reset, heads := Vector.replicate 16 LoopHead.reset, trace := [], traceFrame := 0
    traceCount := 0, traceRing := [], freezeLeft := none }

end Sys2Proof.Machine
end

