-- ==== Sys2Proof/Machine/State/Memory.lean ====
section
/-!
DEFINITION. Machine/State/Memory.lean: the state of the memory island (chapter 14): the stored codewords, the banks
with their open rows and activate tables, the write-back queue, refresh, scrub and the training helpers.
-/

namespace Sys2Proof.Machine

/-- One bank of one subchannel: the open row with the tick its idle timer ends (R307), and the activate table of
R309 as (row, count), at most 32 entries, and the rolling activate count (R309). -/
structure Bank where
  row  : Option (Nat × Stamp)
  acts : List (Nat × Nat)
  raa  : Nat
  deriving DecidableEq, Repr

/-- A bank as reset leaves it. -/
def Bank.idle : Bank := ⟨none, [], 0⟩

/-- What one subchannel keeps of its refresh and of its corrections. -/
structure SubCh where
  /-- when the next all-bank refresh is due, and how many are postponed (R308) -/
  refreshAt : Stamp
  postponed : Nat
  /-- MR4 as last read -/
  mr4       : Nat
  /-- when event 0x8001 was last logged, and corrections since (R311) -/
  corrLog   : Option Stamp
  corrSince : Nat
  deriving DecidableEq, Repr

/-- The data that the last read command returned to its agent: the address, the bytes, and the words that were
uncorrectable or poisoned. -/
structure MemReply where
  addr  : Nat
  bytes : List Byte
  bad   : List Nat
  deriving DecidableEq, Repr

/-- The memory island. -/
structure MemState where
  /-- data bytes by address, and the two check symbols of the word at address A under 2·⌊A/8⌋ and 2·⌊A/8⌋ + 1 (R310) -/
  data     : List (Nat × Byte)
  check    : List (Nat × Byte)
  /-- the zero fill of a boot without image has covered every address below this (R350): the check symbols of an unlisted
  word there are those of zero data -/
  filled   : Nat
  /-- words that wait for their write-back, oldest first (R311) -/
  wbQ      : List Nat
  /-- entries dropped since event 0x800C was last logged, and when that was -/
  wbLost   : Nat
  wbLog    : Option Stamp
  /-- banks by 32·subchannel + 8·bank + bank group; an idle bank with an empty table is not listed -/
  banks    : List (Nat × Bank)
  subch    : Vector SubCh 4
  /-- mode registers written by MRW, by 256·subchannel + register -/
  modeRegs : List (Nat × Nat)
  /-- next patrol read, and corrected, uncorrectable and poisoned words of the present pass (R316) -/
  scrubAt  : Stamp
  scrubCor : Nat
  scrubUnc : Nat
  scrubPoi : Nat
  /-- a frequency change in progress: its acceptance and its target set (R320) -/
  change   : Option (Stamp × Nat)
  reply    : Option MemReply
  deriving DecidableEq, Repr

/-- The memory island after reset: nothing stored, nothing open, nothing due. -/
def MemState.reset : MemState :=
  { data := [], check := [], filled := 0, wbQ := [], wbLost := 0, wbLog := none, banks := [],
    subch := Vector.replicate 4 ⟨0, 0, 0, none, 0⟩, modeRegs := [],
    scrubAt := 0, scrubCor := 0, scrubUnc := 0, scrubPoi := 0, change := none, reply := none }

end Sys2Proof.Machine
end

