-- ==== Sys2Proof/Machine/State/Motion.lean ====
section
/-!
DEFINITION. Machine/State/Motion.lean: the state of the motor island: the sixteen sleds with their choppers and
switches, the spindle, and the claims on the governor (chapter 9).
-/

namespace Sys2Proof.Machine

/-- Table 9-1, in the order of the codes. -/
inductive SledSt where
  | idle | hold | move | follow | home | frozen
  deriving DecidableEq, Repr

/-- SL_CTRL.CMD (Table 9-9). STOP acts at once and never waits. -/
inductive SledCmd where
  | idle | hold | move | follow | home | softstop
  deriving DecidableEq, Repr

/-- The stages of homing (R205). -/
inductive HomeStage where
  | outward | inward | slowing
  deriving DecidableEq, Repr

/-- Table 9-3. -/
inductive Drive where
  | drive | decay | fast
  deriving DecidableEq, Repr

/-- A phase's hysteresis chopper (R199, R200) and its part of the load-angle window (R201). -/
structure Chopper where
  st      : Drive
  /-- the bridge input pair, first pin in bit 1: 2 drives positive current, 1 negative, 3 slow decay, 0 coast -/
  bridge  : Nat
  /-- the sign of the last reference that was not 0 -/
  sign    : Int
  /-- δ in 1/16 code -/
  delta   : Int
  /-- samples since the bridge inputs last changed, and since the drive state was entered -/
  since   : Nat
  inState : Nat
  /-- sum and number of the samples of j in the present chop cycle -/
  cycSum  : Int
  cycCnt  : Nat
  /-- applied drive and sensed current summed over the load-angle window -/
  winDrive : Int
  winCur  : Int
  winCnt  : Nat
  /-- the code delivered last, which stands in for a calibration slot (R324) -/
  last    : Int
  deriving DecidableEq, Repr

/-- An open debounce window (R204): the stamp of its first edge, the sled's position P then, and the edges in it. -/
structure EdgeWindow where
  start : Stamp
  pos   : Int
  edges : Nat
  deriving DecidableEq, Repr

/-- A home or end-of-travel switch (R204): its qualified level, and its open window. -/
structure Switch where
  asserted : Bool
  window   : Option EdgeWindow
  deriving DecidableEq, Repr

/-- A stretch of constant velocity: its tick, M there in 2^-32 microsteps, and V (R193). -/
structure MotionMark where
  tick : Stamp
  m    : Int
  v    : Int
  deriving DecidableEq, Repr

/-- A sled (R192 to R207). FAULT, UNCERTAIN, BOOST and CLAMPED stand in SL_STATUS. -/
structure Sled where
  st       : SledSt
  /-- M and V now and over the last 1,024 profile ticks, newest first -/
  marks    : List MotionMark
  ofs      : Int
  /-- target in P -/
  target   : Int
  /-- commands that wait for the next profile tick, oldest first -/
  cmds     : List SledCmd
  stage    : HomeStage
  /-- latest sled demand, Q0.23 (R196) -/
  demand   : Int
  /-- tick from which V has been 0 without a break, and whether I_HOLD is selected in HOLD -/
  restFrom : Stamp
  holdCur  : Bool
  /-- stamp of the last boost window (R202) -/
  boostAt  : Option Stamp
  stallRun : Nat
  /-- the window in progress: its profile ticks, whether VMIN held throughout, and M at its midpoint -/
  winTicks : Nat
  winFast  : Bool
  winMid   : Int
  chopA    : Chopper
  chopB    : Chopper
  home     : Switch
  eot      : Switch
  /-- SL.CMD instructions with FN[3] that wait for rest -/
  waiters  : List Waiter
  deriving DecidableEq, Repr

/-- Table 9-30, in the order of the codes. -/
inductive SpinSt where
  | stopped | listen | brake | align | openLoop | run | lost | stopping | fault
  deriving DecidableEq, Repr

/-- What STOPPING and the stages of a start are doing. -/
inductive SpinStage where
  /-- nothing beyond the state -/
  | plain
  /-- LISTEN has ended and the first crossing is awaited (R214) -/
  | catching
  /-- REF ramps down (R216 step 1) -/
  | ramp
  /-- a braking burst, and the LISTEN after it -/
  | burst | burstListen
  /-- the final short -/
  | short
  deriving DecidableEq, Repr

/-- The spindle (R208 to R219). Its registers hold STATE, SECTOR, MISSES, ATTEMPT, PATH, FAULT and the speeds. -/
structure Spindle where
  st        : SpinSt
  stage     : SpinStage
  sector    : Nat
  misses    : Nat
  attempt   : Nat
  path      : Nat
  /-- tick at which the present state or stage began -/
  since     : Stamp
  /-- mean interval between crossings, 0 while none is known -/
  t60       : Nat
  /-- t60 as it stood before the last loss of the rotor (event 0x5016) -/
  lostT60   : Nat
  /-- qualified crossings, newest first: place in Table 9-4 and stamp -/
  crossings : List (Nat × Stamp)
  /-- last commutation, and the one that a crossing has scheduled -/
  tk        : Stamp
  next      : Option Stamp
  /-- open-loop commutations made, and sectors in a row with a crossing -/
  steps     : Nat
  goodRun   : Nat
  /-- entry to RUN by a start, for the 1 s test of R213 -/
  runSince  : Stamp
  duty      : Nat
  dutyNext  : Option Nat
  /-- phases released for the rest of a braking period (R215) -/
  released  : Bool
  /-- a START waits for STOPPED -/
  restart   : Bool
  /-- mean current of the last PWM period, and the sum and count of this millisecond -/
  current   : Int
  msSum     : Int
  msCnt     : Nat
  /-- thermal state in 2^-31 FS -/
  therm     : Int
  lastPwm   : Stamp
  /-- an episode of speed above CEIL -/
  above     : Bool
  deriving DecidableEq, Repr

/-- The motor island. -/
structure MotionState where
  sleds   : Vector Sled 16
  spin    : Spindle
  /-- claims u of open passes and of waiting opens, by head (R221): at most one of each -/
  claims  : List (Nat × Nat)
  waiting : List (Nat × Nat)
  /-- quantities 0x010 to 0x017 in 2^-23 FS as last published, quantity 6 apart (R218) -/
  pub     : List Int
  /-- quantity 6 by sled -/
  pubV    : List Int
  deriving DecidableEq, Repr

/-- A chopper at rest. -/
def Chopper.reset : Chopper :=
  { st := .decay, bridge := 0, sign := 1, delta := 0, since := 0, inState := 0, cycSum := 0, cycCnt := 0,
    winDrive := 0, winCur := 0, winCnt := 0, last := 0 }

/-- A sled after power-on reset: IDLE, with M and V at 0. -/
def Sled.reset : Sled :=
  { st := .idle, marks := [⟨0, 0, 0⟩], ofs := 0, target := 0, cmds := [], stage := .inward, demand := 0, restFrom := 0,
    holdCur := false, boostAt := none, stallRun := 0, winTicks := 0, winFast := false, winMid := 0,
    chopA := Chopper.reset, chopB := Chopper.reset, home := ⟨false, none⟩, eot := ⟨false, none⟩, waiters := [] }

/-- The spindle after power-on reset: STOPPED. -/
def Spindle.reset : Spindle :=
  { st := .stopped, stage := .plain, sector := 0, misses := 0, attempt := 0, path := 0, since := 0, t60 := 0, lostT60 := 0,
    crossings := [], tk := 0, next := none, steps := 0, goodRun := 0, runSince := 0, duty := 0, dutyNext := none,
    released := false, restart := false, current := 0, msSum := 0, msCnt := 0, therm := 0,
    lastPwm := 0, above := false }

/-- The motor island after power-on reset. -/
def MotionState.reset : MotionState :=
  { sleds := Vector.replicate 16 Sled.reset, spin := Spindle.reset, claims := [], waiting := [],
    pub := List.replicate 8 0, pubV := List.replicate 16 0 }

end Sys2Proof.Machine
end

