-- ==== Sys2Proof/Machine/State/Output.lean ====
section
/-!
DEFINITION. Machine/State/Output.lean: what the block has sent to its surroundings, newest first.
-/

namespace Sys2Proof.Machine

/-- A command to the DRAM devices of one subchannel (R307 to R309, R318 to R320). -/
inductive DramCmd where
  | refresh (count : Nat)
  | drfm (bank row : Nat)
  | rfm (bank : Nat)
  | precharge (bank : Nat)
  | prechargeAll
  | mrw (reg data : Nat)
  | mrr (reg : Nat)
  | mpc (op : Nat)
  | selfRefreshEntry
  | selfRefreshExit
  deriving DecidableEq, Repr

/-- An item that left the SX16. -/
inductive Output where
  /-- MSI-X vector of a function (R258) -/
  | msix (fn vec : Nat)
  /-- D0 frame of a head, complete, with the state of the scrambler at its start (R54, R58, R69) -/
  | d0 (head : Nat) (frame : D0Frame) (scram : Nat)
  /-- the level of HD_LEN[n] changes (R159) -/
  | hdLen (head : Nat) (high : Bool)
  /-- a command to a memory subchannel (R303) -/
  | dram (sub : Nat) (cmd : DramCmd)
  /-- a completion queue entry: function, queue, place and its four dwords (R269) -/
  | cqe (fn qid index : Nat) (dwords : List Nat)
  /-- data of a command that reach the host: function, submission queue, command identifier and the bytes (R268) -/
  | hostData (fn sqid cid : Nat) (bytes : List Nat)
  /-- the answer to a PCIe configuration request of a function: Request Retry Status (R349), or the item that was asked
  for (R256) -/
  | config (fn : Nat) (item : Option Nat)
  /-- the answer on the SMBus pins (R284) -/
  | smbus (bytes : List Nat)
  /-- the data that an accessor's register read returns (R5, R8) -/
  | readData (who off data : Nat)
  /-- an SPDM or DOE response of a transport, by response code and content (R342, R343): 0 and 1 are the DOE mailboxes, 2
  and 3 Security Receive -/
  | spdm (via code : Nat) (bytes : List Nat)
  deriving DecidableEq, Repr

end Sys2Proof.Machine
end

