-- ==== Sys2Proof/Machine/State.lean ====
section
/-!
DEFINITION. Machine/State.lean: the state of the block as plain data, the reasons a step can stop, and the
state right after power-on reset.
-/

namespace Sys2Proof.Machine

/-- Why a step faults. No command of the block faults: the spec gives every one an effect (safe: none). -/
inductive Fault where
  /-- raised by nothing; kept so that the type is not empty -/
  | none
  deriving DecidableEq, Repr

/-- Why a command is refused. -/
inductive Refusal where
  /-- raised by Dispatch for a command whose meaning is not written yet (safe) -/
  | notModelled (mnemonic : String)
  deriving DecidableEq, Repr

/-- The state of the SX16. -/
structure State where
  time    : TimeState
  events  : EventState
  regs    : List (Nat × Word)
  /-- the R8 latch of host function 0, host function 1 and the sequencer window -/
  latches : Vector Nat 3
  /-- held writes of the _LO half of RW pairs, keyed by accessor and offset -/
  heldLo  : List (Nat × Word)
  msix    : Vector MsixState 2
  domains : Vector Domain 19
  boot    : BootState
  pins    : Pins
  heads   : Vector Head 16
  decode  : DecodeState
  loop    : LoopState
  seq     : SeqState
  mem     : MemState
  motion  : MotionState
  host    : HostState
  cal     : CalState
  sec     : SecState
  out     : List Output
  /-- how many free values have been drawn (the model's own field) -/
  free    : Nat
  pending : List Instr
  deriving DecidableEq, Repr

/-- The machine right after power-on reset (R351, and the reset columns of the register tables, which `regs` follows where it
lists nothing): PLL not locked, every switched domain off, no command waiting. -/
def State.reset : State :=
  { time := { tb := 0, started := false, holdSince := none, refSince := none, dist := [] }
    events := { xing := [], held := [], ring := [] }
    regs := []
    latches := Vector.replicate 3 0
    heldLo := []
    msix := Vector.replicate 2 ⟨[], []⟩
    domains := Vector.replicate 19 ⟨.off, 0⟩
    boot := { since := 0, slot := 0, noImage := false, perst := false, bifurcated := false, applied := false, filling := false,
              deadGroups := [] }
    pins := { inhLow := false, inhSince := 0 }
    heads := Vector.replicate 16 Head.reset
    decode := DecodeState.reset
    loop := LoopState.reset
    seq := SeqState.reset
    mem := MemState.reset
    motion := MotionState.reset
    host := HostState.reset
    cal := CalState.reset
    sec := SecState.reset
    out := []
    free := 0
    pending := [] }

end Sys2Proof.Machine
end

