-- ==== Sys2Proof/Machine/Ops.lean ====
section
/-!
DEFINITION. Machine/Ops.lean: the named operations over the state that every chapter uses: registers and their
fields, the time base and stamps, event records, MSI-X vectors, and which islands and heads are in service.
-/

namespace Sys2Proof.Machine

/-! ## Outcomes -/

/-- What a meaning answers: a next state. -/
abbrev Result := Host.Outcome State Fault Refusal

/-- A command that comes about only while `c` holds, with the effect `t`; otherwise it cannot occur now and
leaves the state as it is (log entry 2). -/
def when (c : Bool) (s t : State) : Result := .next (if c then t else s)

/-! ## Time and stamps -/

/-- The count of the time base now (R20). -/
def State.now (s : State) : Stamp := s.time.tb

/-- The bit of TB_STAMP_FAULT that stands for an island (Table 2-7). -/
def islandBit : Island → Nat
  | .head n => n.val | .decode => 16 | .memory => 17 | .host => 18
  | .control => 19 | .motor => 20 | .security => 21

/-- Ticks per island clock cycle, in eighths of a tick (Table 2-1). -/
def islandCycle8 : Island → Nat
  | .head _ => 8 | .decode => 10 | .memory => 15 | .host => 12
  | .control => 16 | .motor => 60 | .security => 30

/-- The compensation constant of an island in ticks (Table 2-1). -/
def islandComp : Island → Nat
  | .head _ => 7 | .decode => 9 | .memory => 13 | .host => 11
  | .control => 8 | .motor => 10 | .security => 10

/-- The index under which a stamp cell's residual is drawn: one past the islands. -/
def stampCellIndex : Nat := 22

/-- A stamp lies within one tick of the counter value (R22). -/
def residualStamp (index now : Nat) : Stamp := now + (Config.stampResidual index now).val - 1

/-- The stamp an island forms now: the substituted value plus its constant while a distribution error's
substitution is in use (R23), and otherwise within one tick of the counter (R22). -/
def State.stamp (s : State) (i : Island) : Stamp :=
  match s.time.dist.lookup (islandBit i) with
  | some d =>
    if d.run ≠ 0 ∧ s.now < d.tick + ceilDiv (islandCycle8 i) 8 then d.used + islandComp i
    else residualStamp (islandBit i) s.now
  | none => residualStamp (islandBit i) s.now

/-- The stamp a stamp cell forms for an edge at the pin now (R22, R24). -/
def State.cellStamp (s : State) : Stamp := residualStamp stampCellIndex s.now

/-- Ticks in a microsecond, a millisecond and a second. -/
def ticksUs : Nat := 1500
def ticksMs : Nat := 1500000
def ticksS : Nat := 1500000000

/-! ## Registers -/

/-- The word of the register map's row that covers an offset, if one does. -/
def coversDims : List (Nat × Nat) → Nat → Bool
  | [], x => x == 0
  | (stride, count) :: rest, x => x / stride < count && coversDims rest (x % stride)

/-- A row of the register map covers an offset. -/
def RegDesc.covers (d : RegDesc) (off : Nat) : Bool := d.base ≤ off && coversDims d.dims (off - d.base)

/-- The row of the register map for an offset. -/
def findReg (off : Nat) : Option RegDesc := regTable.find? (fun d => d.covers off)

/-- The microstep table entries, 0x0014_3000 + 4k, lie outside the register tables (Table 1-10). -/
def isSlTab (off : Nat) : Bool := 0x143000 ≤ off && off < 0x144000 && off % 4 == 0

/-- The reset word of a row's fields. -/
def fieldsReset (fs : List RegField) : Nat :=
  fs.foldl (fun w f => w + f.reset * 2 ^ f.pos.lo) 0

/-- Offsets whose reset contents are fused or fixed at manufacture: CS_ROM_ID, CAL_ADC_APP and CAL_ADC_TGT,
CAL_CMP_DAC, SEC_FUSE, SEC_UID, and the nonce SEC_DBG_CHAL drawn at reset. -/
def isFused (off : Nat) : Bool :=
  off == R.CS_ROM_ID || (0x200200 ≤ off && off < 0x200308) || off == R.CAL_CMP_DAC ||
  off == R.SEC_FUSE || (0x240010 ≤ off && off < 0x240020) || (0x240100 ≤ off && off < 0x240130)

/-- The default capability mask of a bobbin (Table 10-6). -/
def capReset (b : Nat) : Nat :=
  -- families: bit 0 HD, 1 SL, 2 SP, 3 LP, 4 DC, 5 MM, 6 WO, 7 EV; 13 REGR, 14 REGW, 15 PRIV, 31:16 HEADS
  if b < 16 then 0xAB + 2 ^ 13 + 2 ^ (16 + b)
  else if b = 16 then 0xAE + 2 ^ 13 + 2 ^ 14 + 2 ^ 15 + 0xFFFF0000
  else if b < 21 then 0xF0 + 2 ^ 13
  else if b = 21 then 0xB9 + 2 ^ 13 + 2 ^ 14 + 2 ^ 15 + 0xFFFF0000
  else 0xB9 + 2 ^ 13 + 2 ^ 14 + 0xFFFF0000

/-- The reset content of SL_TAB[k]: the nearest integer to 32,767 · sin(2πk / 4,096) (R198), computed exactly
by the Taylor series of the sine in units of 2^-64 of a radian. -/
def slTabReset (k : Nat) : Nat :=
  -- x = 2πk/4096 in Q64; 2π/4096 in Q64 is 28296951008113761
  let x : Int := 28296951008113761 * k
  let one : Int := 2 ^ 64
  let x2 := floorDiv (x * x) one
  let term (t : Int) (a b : Int) : Int := - floorDiv (floorDiv (t * x2) one) (a * b)
  let t1 := x
  let t3 := term t1 2 3
  let t5 := term t3 4 5
  let t7 := term t5 6 7
  let t9 := term t7 8 9
  let t11 := term t9 10 11
  let t13 := term t11 12 13
  let t15 := term t13 14 15
  let t17 := term t15 16 17
  let sum := t1 + t3 + t5 + t7 + t9 + t11 + t13 + t15 + t17
  (roundDiv (sum * 32767) one).toNat

/-- The magnitude of an integer. -/
abbrev absN (v : Int) : Int := v.natAbs

/-- The angle of (y, x) in 1/4,096 turn, from 0 to 4,095: the octant, then the ratio's arc tangent found by the greatest
step whose tangent, from the sine table's rule, it reaches. The spec gives no rounding (log entry 22). -/
def atan2Turn (y x : Int) : Nat :=
  let ax := absN x
  let ay := absN y
  -- sin and cos of 2πk/4096 in Q15
  let sine (k : Nat) : Int := slTabReset k
  let reaches (k : Nat) : Bool := decide (ax * sine k ≤ ay * sine (1024 - k))
  let quarter := ((List.range 1025).filter fun k => reaches k).getLastD 0
  if x = 0 ∧ y = 0 then 0
  else if 0 ≤ x ∧ 0 ≤ y then quarter % 4096
  else if x < 0 ∧ 0 ≤ y then 2048 - quarter
  else if x < 0 then 2048 + quarter
  else (4096 - quarter) % 4096

/-- An angle difference wrapped to −2,048 to +2,047 (R201). -/
def wrapTurn (v : Int) : Int := (v + 2048) % 4096 - 2048

/-- The bits of a register that belong to a field: its reserved bits read 0 (R6). -/
def fieldsMask (off : Nat) : Word :=
  match findReg off with
  | some d => BitVec.ofNat 32 ((d.fields.map fun f => (2 ^ f.pos.width - 1) * 2 ^ f.pos.lo).sum)
  | none => 0

/-- What a register reads as before anything has written it (the tables' reset column). The key of function 1's
own registers is the offset plus 2^24. -/
def regReset (key : Nat) : Word :=
  let off := key % 0x1000000
  if isSlTab off then BitVec.ofNat 32 (slTabReset ((off - 0x143000) / 4))
  else if off = R.SYS_IDENT then
    setField (Config.fusedWord off) F.SYS_IDENT_DEVICE 0x5316
  else if isFused off then Config.fusedWord off &&& fieldsMask off
  else if R.LP_HEAD_MAP 0 ≤ off ∧ off < R.LP_HEAD_MAP 16 then
    let n := (off - R.LP_HEAD_MAP 0) / 4
    BitVec.ofNat 32 ((5 * n + 3) * 2 ^ 16 + (5 * n + 1) * 2 ^ 8 + 5 * n)
  else if R.SQ_BOB_CAP 0 ≤ off ∧ off < R.SQ_BOB_CAP 24 ∧ (off - R.SQ_BOB_CAP 0) % 0x40 = 0 then
    BitVec.ofNat 32 (capReset ((off - R.SQ_BOB_CAP 0) / 0x40))
  else match findReg off with
    | some d => BitVec.ofNat 32 (fieldsReset d.fields)
    | none => 0

/-- A register as it stands. -/
def State.reg (s : State) (key : Nat) : Word := storeGet regReset key s.regs

/-- A register set by hardware or by an accepted write. -/
def State.setReg (s : State) (key : Nat) (w : Word) : State :=
  { s with regs := storePut regReset key w s.regs }

/-- A field of a register. -/
def State.fld (s : State) (key : Nat) (p : FieldPos) : Nat := getField (s.reg key) p

/-- A one-bit field read as a flag. -/
def State.flag (s : State) (key : Nat) (p : FieldPos) : Bool := getFlag (s.reg key) p

/-- A field of a register set by hardware. -/
def State.setFld (s : State) (key : Nat) (p : FieldPos) (v : Nat) : State :=
  s.setReg key (setField (s.reg key) p v)

/-- A counter field that saturates, raised by n. -/
def State.bump (s : State) (key : Nat) (p : FieldPos) (n : Nat) : State :=
  s.setFld key p (satAdd (2 ^ p.width - 1) (s.fld key p) n)

/-- The register's reset value put back. -/
def State.resetReg (s : State) (key : Nat) : State := s.setReg key (regReset key)

/-- The value of a 64-bit pair by its _LO offset (R8). -/
def State.pair (s : State) (lo : Nat) : Nat := (s.reg lo).toNat + 2 ^ 32 * (s.reg (lo + 4)).toNat

/-- A 64-bit pair set by hardware. -/
def State.setPair (s : State) (lo v : Nat) : State :=
  (s.setReg lo (BitVec.ofNat 32 v)).setReg (lo + 4) (BitVec.ofNat 32 (v / 2 ^ 32))

/-! ## Free values -/

/-- The next free value, and the state with the counter advanced (log entry 4). -/
def State.draw (s : State) : Nat × State := (Config.freeValue s.free, { s with free := s.free + 1 })

/-- An exact quotient, or the whole number below or above it where the spec gives no rounding (log entry 5). -/
def openRound (num : Int) (den : Nat) : Int :=
  let q := floorDiv num den
  if q * den = num then q else if Config.roundsUp num den then q + 1 else q

/-! ## Heads -/

/-- A head island's state. -/
def State.head (s : State) (n : Fin 16) : Head := s.heads[n]

/-- A head island's state changed. -/
def State.modHead (s : State) (n : Fin 16) (f : Head → Head) : State :=
  { s with heads := s.heads.set n (f s.heads[n]) }

/-- Head n is in service (R14). -/
def State.headInService (s : State) (n : Nat) : Bool := testBitN (s.fld R.SYS_HEAD_STATUS F.SYS_HEAD_STATUS_IN_SERVICE) n

/-- Head n is named by the populated-head mask (R14). -/
def State.headPopulated (s : State) (n : Nat) : Bool := testBitN (s.fld R.SYS_HEAD_STATUS F.SYS_HEAD_STATUS_POPULATED) n

/-- A domain's power-up has completed (R11, R17). -/
def State.domainOn (s : State) (d : Nat) : Bool := testBitN (s.fld R.SYS_DOMAIN F.SYS_DOMAIN_ON) d

/-! ## MSI-X -/

/-- The MSI-X table entry of a vector: masked, with address and data 0, until the host writes it (log entry 7). -/
def MsixState.entry (m : MsixState) (v : Nat) : MsixEntry :=
  storeGet (fun _ => ⟨0, 0, true⟩) v m.table

/-- Send a vector of one function, or set its pending bit while it is masked (R258). -/
def State.sendVector (s : State) (fn : Fin 2) (v : Nat) : State :=
  if (s.msix[fn].entry v).masked then
    let m := s.msix[fn]
    let m' := { m with pending := if v ∈ m.pending then m.pending else v :: m.pending }
    { s with msix := s.msix.set fn m' }
  else { s with out := .msix fn.val v :: s.out }

/-- The functions the part presents: one, or two when the link is bifurcated (R18). -/
def State.functions (s : State) : List (Fin 2) := if s.boot.bifurcated then [0, 1] else [0]

/-- Send a vector in every function. -/
def State.sendAll (s : State) (v : Nat) : State :=
  s.functions.foldl (fun t fn => t.sendVector fn v) s

/-! ## Event records -/

/-- Event source numbers (Table 17-4). -/
def srcDecode : Nat := 0x10
def srcMemory : Nat := 0x11
def srcHost (fn : Nat) : Nat := 0x12 + fn
def srcLoop : Nat := 0x14
def srcSeq : Nat := 0x15
def srcMotor : Nat := 0x16
def srcCal : Nat := 0x17
def srcSec : Nat := 0x18
def srcBobbin (b : Nat) : Nat := 0x20 + b

/-- The depth of the crossing from a source to the mergers (Table 2-10). -/
def eventXingDepth : Nat := 32

/-- A source's crossing with nothing in it. -/
def EventXing.empty : EventXing := ⟨[], 0, 0, 0⟩

/-- The crossing of a source. -/
def State.xing (s : State) (src : Nat) : EventXing :=
  storeGet (fun _ => EventXing.empty) src s.events.xing

/-- The crossing of a source changed. -/
def State.setXing (s : State) (src : Nat) (x : EventXing) : State :=
  { s with events := { s.events with xing := storePut (fun _ => EventXing.empty) src x s.events.xing } }

/-- Hand a record to the source's crossing: while it is full, or while a loss waits to be reported, the record
is dropped and counted (R27). -/
def State.post (s : State) (r : EventRec) : State :=
  let x := s.xing r.src
  if x.queue.length < eventXingDepth ∧ x.lost = 0 then
    s.setXing r.src { x with queue := x.queue ++ [r] }
  else
    s.setXing r.src { x with
      lost := satAdd 0xFFFFFFFF x.lost 1
      firstLost := if x.lost = 0 then r.stamp else x.firstLost
      lastLost := r.stamp }

/-- Log an event with a stamp of its own (R24). -/
def State.logAt (s : State) (src : Nat) (stamp : Stamp) (code : Nat) (a0 a1 a2 a3 : Nat := 0) : State :=
  s.post ⟨stamp, code, src, false, a0 % 2 ^ 32, a1 % 2 ^ 32, a2 % 2 ^ 32, a3 % 2 ^ 32⟩

/-- Log an event that an island registers now (R24). -/
def State.log (s : State) (src : Nat) (i : Island) (code : Nat) (a0 a1 a2 a3 : Nat := 0) : State :=
  s.logAt src (s.stamp i) code a0 a1 a2 a3

/-- An event of head island n: its first argument is the head. -/
def State.logHead (s : State) (n : Fin 16) (code : Nat) (a1 a2 a3 : Nat := 0) : State :=
  s.log n.val (.head n) code n.val a1 a2 a3

/-- Two's complement of an event argument. -/
def arg (v : Int) : Nat := ofSigned v 32

/-! ## The ring and its attention -/

/-- A condition of R356 holds for the record just written, or the backlog test does. -/
def State.attnHolds (s : State) (code : Option Nat) : Bool :=
  let backlog := (s.fld R.EV_WPTR F.EV_WPTR_WPTR + 2 ^ 32 - s.fld R.EV_RPTR F.EV_RPTR_RPTR) % 2 ^ 32
  let thresh := s.fld R.EV_ATTN F.EV_ATTN_THRESH
  (match code with
    | some c => testBitN (s.fld R.EV_ATTN F.EV_ATTN_MASK) (c / 4096 % 16)
    | none => false) || (thresh != 0 && thresh ≤ backlog)

/-- Evaluate the attention conditions: EV_STATUS.ATTN sets, and each time it goes from 0 to 1 vector 258 is
sent in every function (R356). -/
def State.attention (s : State) (code : Option Nat) : State :=
  if s.attnHolds code && !s.flag R.EV_STATUS F.EV_STATUS_ATTN then
    (s.setFld R.EV_STATUS F.EV_STATUS_ATTN 1).sendAll 258
  else s

/-- The number of records the ring holds (R355). -/
def ringSize : Nat := 2048

/-- An empty ring slot reads as zeroes. -/
def EventRec.zero : EventRec := ⟨0, 0, 0, false, 0, 0, 0, 0⟩

/-- Write one record to the ring (R355), a late one counted, and evaluate the attention test (R356). -/
def State.writeRing (s : State) (r : EventRec) : State :=
  let w := s.fld R.EV_WPTR F.EV_WPTR_WPTR
  let ring := storePut (fun _ => EventRec.zero) (w % ringSize) r s.events.ring
  let s := { s with events := { s.events with ring := ring } }
  let s := s.setFld R.EV_WPTR F.EV_WPTR_WPTR (w + 1)
  let s := if r.late then s.bump R.EV_STATUS F.EV_STATUS_LATE 1 else s
  s.attention (some r.code)

/-- The horizon of the mergers (Table 2-11). -/
def mergerHorizon : Nat := 384

/-- a leaves the merger before b: by stamp, then by source number (R28). -/
def EventRec.before (a b : EventRec) : Bool :=
  a.stamp < b.stamp || (a.stamp == b.stamp && a.src < b.src)

/-- A record put into an ordered list behind every record that does not follow it, so that records of one source
keep their order of arrival. -/
def insertRec (r : EventRec) : List EventRec → List EventRec
  | [] => [r]
  | x :: rest => if r.before x then r :: x :: rest else x :: insertRec r rest

/-- The records in the order of R28. -/
def orderRecs (l : List EventRec) : List EventRec := l.foldl (fun acc r => insertRec r acc) []

/-- Publish the completeness stamp: the time base less 384, once no record of this tick is left to release,
and 0 while the time base is below 384 (R29). -/
def State.publishC (s : State) : State :=
  if s.events.held.any (fun r => r.stamp + mergerHorizon ≤ s.now) then s
  else s.setPair R.EV_COMP_LO (s.now - mergerHorizon)

end Sys2Proof.Machine
end

