-- ==== Sys2Proof/Machine/SeqOps.lean ====
section
/-!
DEFINITION. Machine/SeqOps.lean: operations over the bobbins that the other islands use: completions and
doorbells on their way to an event queue, and halt requests (R229, R240, R241).
-/

namespace Sys2Proof.Machine

/-- A bobbin. -/
def State.bob (s : State) (b : Fin 24) : Bobbin := s.seq.bobbins[b]

/-- A bobbin changed. -/
def State.modBob (s : State) (b : Fin 24) (f : Bobbin → Bobbin) : State :=
  { s with seq := { s.seq with bobbins := s.seq.bobbins.set b (f s.seq.bobbins[b]) } }

/-- The code of a bobbin state (Table 10-1). -/
def bobStateCode : BobState → Nat
  | .halted => 0 | .ready => 1 | .stalled => 2 | .waiting => 3 | .exception => 4

/-- Put an entry on its way to a bobbin's event queue (R229). -/
def State.sendEntry (s : State) (b : Fin 24) (e : EvEntry) : State :=
  s.modBob b fun x => { x with arriving := x.arriving ++ [e] }

/-- Complete an asynchronous instruction: its entry carries the tag, the result and the data (R229, R234). The
source number orders equal stamps (R28). -/
def State.complete (s : State) (w : Waiter) (kind : EntryKind) (src : Nat) (stamp : Stamp)
    (result data : Nat) : State :=
  s.sendEntry w.bobbin ⟨stamp, w.tag, kind, result % 256, data % 2 ^ 32, src, w.epoch, false⟩

/-- A completion that head island n posts now. -/
def State.completeHead (s : State) (n : Fin 16) (w : Waiter) (result data : Nat) : State :=
  s.complete w .device n.val (s.stamp (.head n)) result data

/-- A halt request reaches a bobbin (R240): one that is halted or excepted has nothing to halt, and a request that
names its sender is kept over the hardware's. -/
def State.requestHalt (s : State) (b : Fin 24) (by' : HaltBy) : State :=
  if (s.bob b).st = .halted ∨ (s.bob b).st = .exception then s
  else s.modBob b fun x => { x with haltReq := some (x.haltReq.getD by') }

/-- Every bobbin is asked to halt by the hardware. -/
def State.requestHaltAll (s : State) : State :=
  (List.finRange 24).foldl (fun t b => t.requestHalt b .hardware) s

end Sys2Proof.Machine
end

