-- ==== Sys2Proof/Machine/Format.lean ====
section
/-!
DEFINITION. Machine/Format.lean: the arithmetic of the SAF-1 medium (R36 to R44), the flywheel's prediction (R45),
the twill geometry (R124) and the clustering of sync candidates (R46 to R48).
-/

namespace Sys2Proof.Machine

/-! ## Geometry -/

/-- Angular units of a revolution, of the seam, and per servo period (R37). -/
def unitsPerRev : Nat := 63488
def seamUnits : Nat := 992
def framesPerRev : Nat := 496

/-- HD_FMT_CFG.LEADIN of a held format word. -/
def fmtLeadin (fmt : Nat) : Bool := testBitN fmt 9

/-- The innermost radius and the pitch that R38 uses, in nm, by the format word (R38, R44). -/
def fmtR0 (fmt : Nat) : Nat := if fmtLeadin fmt then 39000000 else 40000000
def fmtPitch (fmt : Nat) : Nat := if fmtLeadin fmt then 320 else natBits fmt 8 0

/-- Tracks and bands of a layer (Table 3-1, R44). -/
def fmtTracks (fmt : Nat) : Nat :=
  if fmtLeadin fmt then 900000 / 320 else 80000000 / fmtPitch fmt
def fmtBands (fmt : Nat) : Nat := fmtTracks fmt / 12

/-- The zone of a band: floor(32·b / B), and zone 0 for every lead-in band (Table 3-1, R44). -/
def fmtZone (fmt b : Nat) : Nat := if fmtLeadin fmt then 0 else 32 * b / fmtBands fmt

/-- Circumference of the innermost track centre of band b, in nm (R38). -/
def circNm (r0 p b : Nat) : Nat := ((r0 + 12 * b * p) * 26986075409) / 2 ^ 32

/-- Channel bits per angular unit of band b (R38). -/
def bandU (b r0 p : Nat) : Nat := circNm r0 p b / 3174400

/-- The same by the format word. -/
def fmtU (fmt b : Nat) : Nat := bandU b (fmtR0 fmt) (fmtPitch fmt)

/-- Channel bits of a sector slot and of its parts (Table 3-4). -/
def slotBits : Nat := 39392
def preambleBits : Nat := 128
def codewordChanBits : Nat := 39168

/-- Sector slots per track, the twill slot step, and the spares per track (R38). -/
def slotsOf (u : Nat) : Nat := 62000 * u / slotBits
def twillStep (u : Nat) : Nat := slotsOf u / 16
def sparesOf (u : Nat) : Nat := slotsOf u - 16 * twillStep u

/-- Position of a data bit in channel bits from the start of unit 0 (R40). -/
def dataToPhys (o u : Nat) : Nat :=
  let seg := o / (125 * u)
  992 * u + seg * 126 * u + u + o % (125 * u)

/-- The radius of a track centre, in nm (Table 3-1, R44). -/
def trackRadius (fmt t : Nat) : Nat := fmtR0 fmt + t * fmtPitch fmt

/-- The angle of the start of frame k of revolution rev, in units, unwrapped (R37, R45). -/
def frameAngle (idx : Nat) : Nat := unitsPerRev * (idx / framesPerRev) + 992 + 126 * (idx % framesPerRev)

/-! ## Servo frames -/

/-- tan 6° in units of 10^-7, as the code of R42 takes it (log entry 8). -/
def tan6e7 : Nat := 1051042

/-- The offset y of R42 in units of 1/8 nm, from the crossing interval in ticks, the pitch, and the flywheel's
ticks per unit (as a quotient) and unit length (as a quotient): p/4 + 10.51 − 0.0525521·d nm, to nearest. -/
def chevronOffset (p dt : Nat) (tpuNum tpuDen circ : Nat) : Int :=
  -- d = dt / (tpuNum/tpuDen) · circ/63488 nm; y·8 = 2p + 84.08 − 0.4204168·d
  let dNum : Int := (dt : Int) * tpuDen * circ
  let dDen : Int := (tpuNum : Int) * unitsPerRev
  let fixed : Int := (2 * (p : Int) * 10000000 + 840800000)
  roundDiv (fixed * dDen - 4204168 * dNum) (10000000 * dDen)

/-- The remainder of m(x)·x^3 divided by x^3 + x + 1, for n bits of m, the first sent the most significant (R43). -/
def crc3 (m : Nat) : Nat → Nat → Nat
  | 0, r => r
  | k + 1, r =>
    let top := (r / 4) ^^^ (if testBitN m k then 1 else 0)
    let r' := (r % 4) * 2
    crc3 m k (if top = 1 then r' ^^^ 3 else r')

/-- The CRC-3 of the 27 bits of an address word (R43). -/
def addrCrc (w : AddrWord) : Nat := crc3 (w.word * 2 ^ 23 + w.layer * 2 ^ 19 + w.track) 27 0

/-! ## The flywheel -/

/-- Two or more frames are accepted: the newest, and the one 8 acceptances earlier or the oldest (R45). -/
def flyEnds (f : Flywheel) : Option (FlyFrame × FlyFrame) :=
  match f.frames with
  | k :: j :: rest => some (k, ((j :: rest).take 8).getLastD j)
  | _ => none

/-- The flywheel's prediction of the stamp at angle a/b units, unwrapped (R45), for a band of circumference circ
and pitch p. The centre of a frame lies (700 nm + X)/unit_nm units past the frame's start. -/
def flyPredict (f : Flywheel) (circ p : Nat) (a b : Nat) : Option Stamp :=
  match flyEnds f with
  | none => none
  | some (k, j) =>
    let cNum : Int := ((700 * 2 * tan6e7 + p * 10000000 : Nat) : Int) * unitsPerRev
    let cDen : Int := ((circ * 2 * tan6e7 : Nat) : Int)
    -- Δ = a/b − angle(k) − c
    let dn : Int := (a : Int) * cDen - (frameAngle k.idx : Int) * b * cDen - cNum * b
    let dd : Int := (b : Int) * cDen
    let num := dn * ((k.tc2 : Int) - j.tc2)
    let den := dd * 2 * ((frameAngle k.idx : Int) - frameAngle j.idx)
    let steps := roundDiv num den
    some (((k.tc2 : Int) + 2 * steps).toNat / 2)

/-- The band under the beams in revolution `rev` of a pass, from 0: bands follow the pass's direction, one to a
revolution, and one to two revolutions in backstitch (R150). -/
def PassDesc.bandAt (d : PassDesc) (rev : Nat) : Nat :=
  let m := if d.mode = .backstitch then rev / 2 else rev
  if d.inward then d.start - m else d.start + m

/-- The band whose arithmetic the head's flywheel uses now: that of the open pass, else that of the expected
track. -/
def bandNow (h : Head) : Nat :=
  match h.pass with
  | some p => p.desc.bandAt p.rev
  | none =>
    match h.fly.expected with
    | some (_, t) => t / 12
    | none => 0

/-- The format word in force for the head: the one the pass holds, else the register (R52). -/
def fmtNow (s : State) (n : Fin 16) : Nat :=
  match (s.head n).pass with
  | some p => p.cfg.fmt
  | none => (s.reg (R.HD_FMT_CFG n.val)).toNat

/-- The predicted stamp at angle a/b units for a head. -/
def predictAt (s : State) (n : Fin 16) (a b : Nat) : Option Stamp :=
  let fmt := fmtNow s n
  let h := s.head n
  flyPredict h.fly (circNm (fmtR0 fmt) (fmtPitch fmt) (bandNow h)) (fmtPitch fmt) a b

/-- The revolution of the last accepted frame. -/
def frameRev (f : Flywheel) : Nat :=
  match f.frames with
  | k :: _ => k.idx / framesPerRev
  | [] => 0

/-- The revolution now under the beams: that of the last accepted frame, or a later one whose seam has opened (R46). -/
def revNow (h : Head) : Nat := max (frameRev h.fly) h.fly.seamRev

/-- The first predicted seam opening (unit 0) at or after a stamp (R37, R45). -/
def nextSeam (s : State) (n : Fin 16) (t : Stamp) : Option (Nat × Stamp) :=
  let r := revNow (s.head n)
  let cand := [r, r + 1, r + 2].filterMap fun k =>
    (predictAt s n (unitsPerRev * k) 1).map fun p => (k, p)
  cand.find? fun c => t ≤ c.2

/-- The predicted stamp of a data bit of the present band in a revolution (R46). -/
def predictBit (s : State) (n : Fin 16) (rev o : Nat) : Option Stamp :=
  let fmt := fmtNow s n
  let u := fmtU fmt (bandNow (s.head n))
  predictAt s n (unitsPerRev * rev * u + dataToPhys o u) u

/-- The predicted stamp of a data bit of a band in a revolution. -/
def predictIn (s : State) (n : Fin 16) (band rev o : Nat) : Option Stamp :=
  let fmt := fmtNow s n
  let u := fmtU fmt band
  flyPredict (s.head n).fly (circNm (fmtR0 fmt) (fmtPitch fmt) band) (fmtPitch fmt)
    (unitsPerRev * rev * u + dataToPhys o u) u

/-- The next sector boundary at or after a stamp: the start of a slot, or the end of the last one (R33). -/
def nextBoundary (s : State) (n : Fin 16) (t : Stamp) : Option Stamp :=
  let u := fmtU (fmtNow s n) (bandNow (s.head n))
  let r := revNow (s.head n)
  let stamps (rev : Nat) := (List.range (slotsOf u + 1)).filterMap fun k => predictBit s n rev (k * slotBits)
  ((stamps r) ++ (stamps (r + 1))).find? fun b => t ≤ b

/-- HD_FLY_STATUS.READY as R45 defines it: two accepted frames and ADDR_OK. -/
def flyReady (s : State) (n : Fin 16) : Bool := s.flag (R.HD_FLY_STATUS n.val) F.HD_FLY_STATUS_READY

/-- READY brought up to the accepted frames and ADDR_OK, with the tick of its rise or fall (R45). -/
def State.updateReady (s : State) (n : Fin 16) : State :=
  let r := decide (2 ≤ (s.head n).fly.frames.length) && s.flag (R.HD_FLY_STATUS n.val) F.HD_FLY_STATUS_ADDR_OK
  let was := flyReady s n
  let s := s.setFld (R.HD_FLY_STATUS n.val) F.HD_FLY_STATUS_READY (bitOf r)
  if r = was then s
  else s.modHead n fun h => { h with fly :=
    if r then { h.fly with readyFrom := s.now } else { h.fly with lostFrom := s.now } }

/-- READY was 1 at a stamp that lies at most one change back (R45). -/
def readyAt (s : State) (n : Fin 16) (t : Stamp) : Bool :=
  let f := (s.head n).fly
  if flyReady s n then decide (f.readyFrom ≤ t) else decide (t < f.lostFrom)

/-- The accepted frames lie on the present layer only: a change of layer forgets them (R45). -/
def State.forgetFrames (s : State) (n : Fin 16) : State :=
  (s.modHead n fun h => { h with fly := { h.fly with frames := [], tags := [], firstWord := none } }).updateReady n

/-- A disagreement: ADDR_OK clears and acceptance starts again, with a word as the first of two if one is given
(R43, R188). -/
def State.dropAddress (s : State) (n : Fin 16) (first : Option AddrWord) : State :=
  let s := s.modHead n fun h => { h with fly := { h.fly with firstWord := first } }
  (s.setFld (R.HD_FLY_STATUS n.val) F.HD_FLY_STATUS_ADDR_OK 0).updateReady n

/-! ## Twill geometry -/

/-- The twill group and member of a slot of a band with step D: member i of group G lies on track (G mod 12 + i)
mod 12 at slot ⌊G/12⌋ + i·D (R124). -/
def twillOf (d track slot : Nat) : Nat × Nat :=
  let i := slot / d
  (12 * (slot % d) + (track + 12 * 2 - i % 12) % 12, i)

/-- The track and slot of member i of group G (R124). -/
def memberPlace (d g i : Nat) : Nat × Nat := ((g % 12 + i) % 12, g / 12 + i * d)

/-! ## Sync search -/

/-- A candidate position relative to q0 and its mismatches (R47). -/
abbrev Candidate := Framing

/-- a is better than b: fewer mismatches, then nearer q0, then earlier (R48). -/
def Framing.better (a b : Framing) : Bool :=
  a.miss < b.miss || (a.miss == b.miss &&
    (a.ofs.natAbs < b.ofs.natAbs || (a.ofs.natAbs == b.ofs.natAbs && a.ofs < b.ofs)))

/-- The best of a cluster. -/
def bestOf (a : Framing) (l : List Framing) : Framing :=
  l.foldl (fun m x => if x.better m then x else m) a

/-- The clusters of candidates in rising position, each as its best member (R48). -/
def clusterReps (dist : Nat) : List Framing → List Framing
  | [] => []
  | a :: rest => go a a rest
where
  go (best last : Framing) : List Framing → List Framing
    | [] => [best]
    | x :: xs =>
      if x.ofs - last.ofs ≤ dist then go (if x.better best then x else best) x xs
      else best :: go x x xs

/-- Representatives in order, the better first. -/
def sortBetter (l : List Framing) : List Framing :=
  l.foldl (fun acc x =>
    acc.takeWhile (fun y => !x.better y) ++ x :: acc.dropWhile (fun y => !x.better y)) []

/-- The framings to open (Table 3-7): none, one, the best near and the best not near, or the best two. -/
def openFramings (near dist : Nat) (cands : List Framing) : List Framing :=
  let reps := clusterReps dist cands
  let isNear (f : Framing) : Bool := f.ofs.natAbs ≤ near
  match sortBetter (reps.filter isNear), sortBetter (reps.filter (fun f => !isNear f)) with
  | n :: _, f :: _ => [n, f]
  | ns, [] => ns.take 2
  | [], fs => fs.take 2

/-- The candidates: positions of the window whose mismatch count is at most MAX_MISS (R47). `miss` gives the count
at each offset of the window from −H. -/
def candidates (h maxMiss : Nat) (miss : List Nat) : List Framing :=
  (indexed miss).filterMap fun (i, m) =>
    if m ≤ maxMiss then some ⟨(i : Int) - h, m⟩ else none

end Sys2Proof.Machine
end

