-- ==== Sys2Proof/Machine/Galois.lean ====
section
/-!
DEFINITION. Machine/Galois.lean: the field of R125 (GF(256) with x^8 + x^4 + x^3 + x^2 + 1, α = 2), the two-symbol
syndromes that the twill code (R125), the surface-parity code (R130) and the DRAM code (R310) share, and the
cyclic redundancy checks the spec uses.
-/

namespace Sys2Proof.Machine

/-- α times a value. -/
def gfDouble (a : Nat) : Nat := if 128 ≤ a then (2 * a) ^^^ 0x11D else 2 * a

/-- The product, taken bit by bit of b from the lowest. -/
def gfMulGo : Nat → Nat → Nat → Nat
  | 0, _, _ => 0
  | k + 1, a, b => (if b % 2 = 1 then a else 0) ^^^ gfMulGo k (gfDouble a) (b / 2)

/-- The product in the field. -/
def gfMul (a b : Nat) : Nat := gfMulGo 8 a b

/-- α^k. -/
def gfPow : Nat → Nat
  | 0 => 1
  | k + 1 => gfDouble (gfPow k)

/-- a to the power 254, which is its inverse. -/
def gfInv (a : Nat) : Nat :=
  let a2 := gfMul a a
  let a4 := gfMul a2 a2
  let a8 := gfMul a4 a4
  let a16 := gfMul a8 a8
  let a32 := gfMul a16 a16
  let a64 := gfMul a32 a32
  let a128 := gfMul a64 a64
  gfMul a128 (gfMul a64 (gfMul a32 (gfMul a16 (gfMul a8 (gfMul a4 a2)))))

/-- S0, the exclusive or of the symbols. -/
def syn0 (c : List Nat) : Nat := c.foldl (· ^^^ ·) 0

/-- S1, the exclusive or of α^(n − 1 − i)·c_i over n symbols, by Horner's rule. -/
def syn1 (c : List Nat) : Nat := c.foldl (fun r x => gfDouble r ^^^ x) 0

/-- The position that a single error of syndrome (s0, s1) locates in a word of n symbols. -/
def locate (n s0 s1 : Nat) : Option Nat :=
  if s0 = 0 then none
  else (List.range n).find? fun i => gfMul (gfPow (n - 1 - i)) s0 == s1

/-- The two unknown symbols at places a and b of n, from the syndromes with them set to 0 (R126). -/
def twoUnknown (n a b s0 s1 : Nat) : Nat × Nat :=
  let ea := gfPow (n - 1 - a)
  let eb := gfPow (n - 1 - b)
  let x := gfMul (s1 ^^^ gfMul eb s0) (gfInv (ea ^^^ eb))
  (x, s0 ^^^ x)

/-- One bit of a reflected CRC register. -/
def crcBits (poly : Nat) : Nat → Nat → Nat
  | 0, r => r
  | k + 1, r => crcBits poly k (if r % 2 = 1 then (r / 2) ^^^ poly else r / 2)

/-- A reflected CRC over bytes. -/
def crcReflected (poly : Nat) (r : Nat) : List Nat → Nat
  | [] => r
  | b :: bs => crcReflected poly (crcBits poly 8 (r ^^^ b)) bs

/-- CRC-32C: initial value and final inversion of all ones. -/
def crc32c (bytes : List Nat) : Nat := crcReflected 0x82F63B78 0xFFFFFFFF bytes ^^^ 0xFFFFFFFF

/-- CRC-32 of the IEEE 802.3 polynomial, as Ethernet computes it. -/
def crc32 (bytes : List Nat) : Nat := crcReflected 0xEDB88320 0xFFFFFFFF bytes ^^^ 0xFFFFFFFF

end Sys2Proof.Machine
end

