-- ==== Sys2Proof/Machine/Mem.lean ====
section
/-!
DEFINITION. Machine/Mem.lean: buffer memory as every island uses it: the address map (R304), the DRAM code
(R310, R311), reads with their counts and events (R311 to R313), and writes (R314, R317).
-/

namespace Sys2Proof.Machine

/-! ## The address map -/

/-- The number w of R304: 0, 1 or 2 for one, two or four subchannels. -/
def State.memW (s : State) : Nat := min 2 (s.fld R.MC_CFG F.MC_CFG_SUBCH)

/-- Bytes per populated subchannel (Table 14-1). -/
def densityBytes : Nat → Nat
  | 0 => 8 * 2 ^ 30 | 1 => 12 * 2 ^ 30 | _ => 16 * 2 ^ 30

/-- The capacity of the population that MC_CFG names (Table 14-1). -/
def State.memSize (s : State) : Nat := densityBytes (s.fld R.MC_CFG F.MC_CFG_DENSITY) * 2 ^ s.memW

/-- Memory is in service (Table 14-10). -/
def State.memOn (s : State) : Bool := s.flag R.MC_CFG F.MC_CFG_ENABLE

/-- The subchannel of an address (R304). -/
def State.memSub (s : State) (a : Nat) : Nat := a / 64 % 2 ^ s.memW

/-- Bank (by 8·bank + bank group) and row of an address (R304). -/
def State.memBankRow (s : State) (a : Nat) : Nat × Nat :=
  let r := a / 2 ^ (12 + s.memW)
  let row := r / 32
  (8 * ((r / 8 % 4) ^^^ (row / 8 % 4)) + ((r % 8) ^^^ (row % 8)), row)

/-- The address of the first byte of a burst at a device location, the inverse of R304. -/
def State.memAddr (s : State) (sub row ba bg col : Nat) : Nat :=
  let r := (row * 4 + (ba ^^^ (row / 8 % 4))) * 8 + (bg ^^^ (row % 8))
  (r * 64 + col) * 2 ^ (6 + s.memW) + sub * 64

/-! ## Stored words -/

/-- What an unlisted data byte and an unlisted check symbol read as. A word that nothing has written has all data
0 and both check symbols 1, which decodes as uncorrectable (log entry 10); a word below `filled` holds the zeroes of R350,
whose check symbols are 0. -/
def unwrittenData : Nat → Byte := fun _ => 0
def unwrittenCheck (filled : Nat) : Nat → Byte := fun k => if k / 2 * 8 < filled then 0 else 1

/-- The stored codewords are in canonical form: keys strictly rising, no entry equal to what an unlisted one reads as. -/
def Memory.wf (m : MemState) : Bool :=
  storeWf unwrittenData m.data && storeWf (unwrittenCheck m.filled) m.check

/-- A data byte as stored. -/
def State.memByte (s : State) (a : Nat) : Byte := storeGet unwrittenData a s.mem.data

/-- The ten symbols of the word at an 8-aligned address (R310). -/
def State.memSymbols (s : State) (a : Nat) : List Nat :=
  ((List.range 8).map fun i => (s.memByte (a + i)).toNat) ++
    [(storeGet (unwrittenCheck s.mem.filled) (a / 4) s.mem.check).toNat,
     (storeGet (unwrittenCheck s.mem.filled) (a / 4 + 1) s.mem.check).toNat]

/-- Bytes put at consecutive keys. -/
def putBytes (dflt : Nat → Byte) (a : Nat) : List Nat → List (Nat × Byte) → List (Nat × Byte)
  | [], l => l
  | b :: bs, l => putBytes dflt (a + 1) bs (storePut dflt a (BitVec.ofNat 8 b) l)

/-- The ten symbols of a word stored as they are. -/
def State.storeSymbols (s : State) (a : Nat) (c : List Nat) : State :=
  { s with mem := { s.mem with
      data := putBytes unwrittenData a (c.take 8) s.mem.data
      check := putBytes (unwrittenCheck s.mem.filled) (a / 4) (c.drop 8) s.mem.check } }

/-- The check symbols of eight data symbols (R310): the rule of two unknowns at places 8 and 9. -/
def checkSymbols (d : List Nat) : List Nat :=
  let c := d ++ [0, 0]
  let p := twoUnknown 10 8 9 (syn0 c) (syn1 c)
  [p.1, p.2]

/-- What decoding a word finds (Table 14-3). -/
inductive WordRead where
  | clean
  | corrected (pos : Nat)
  | uncorrectable
  | poison
  deriving DecidableEq, Repr

/-- The device of a position (R310). -/
def deviceOf (pos : Nat) : Nat := if pos < 8 then pos % 4 else 4

/-- The positions of a device. -/
def devicePositions (d : Nat) : Nat × Nat := if d = 4 then (8, 9) else (d, d + 4)

/-- A word decoded by its syndrome, with a device erased or none (Table 14-3): what is found and the data. -/
def decodeWord (erased : Option Nat) (c : List Nat) : WordRead × List Nat :=
  let s0 := syn0 c
  let s1 := syn1 c
  if s0 = 0 ∧ s1 = 0xEE then (.poison, c.take 8)
  else if s0 = 0 ∧ s1 = 0 then (.clean, c.take 8)
  else match erased with
    | none =>
      match locate 10 s0 s1 with
      | some j => (.corrected j, (c.set j ((c.getD j 0) ^^^ s0)).take 8)
      | none => (.uncorrectable, c.take 8)
    | some d =>
      let (a, b) := devicePositions d
      let z := (c.set a 0).set b 0
      let (x, y) := twoUnknown 10 a b (syn0 z) (syn1 z)
      let c' := (c.set a x).set b y
      if c' = c then (.clean, c.take 8)
      else (.corrected (if x = c.getD a 0 then b else a), c'.take 8)

/-- The erased device of a subchannel (Table 14-18). -/
def State.erasedDevice (s : State) (k : Nat) : Option Nat :=
  let d := natBits (s.fld R.MC_ECC_ERASE F.MC_ECC_ERASE_DEV) (3 * k + 2) (3 * k)
  if d ≤ 4 then some d else none

/-! ## Counts and events -/

/-- An event of the memory island. -/
def State.logMem (s : State) (code : Nat) (a0 a1 a2 a3 : Nat := 0) : State := s.log srcMemory .memory code a0 a1 a2 a3

/-- A condition logged at most once per millisecond may be logged again. -/
def quiet (last : Option Stamp) (now : Stamp) : Bool :=
  match last with
  | some t => t + ticksMs ≤ now
  | none => true

/-- A subchannel's own state changed. -/
def State.modSub (s : State) (k : Nat) (f : SubCh → SubCh) : State :=
  { s with mem := { s.mem with subch := s.mem.subch.set (k % 4) (f s.mem.subch[k % 4]) (Nat.mod_lt _ (by decide)) } }

/-- A subchannel's own state. -/
def State.sub (s : State) (k : Nat) : SubCh := s.mem.subch[k % 4]

/-- Device d of subchannel k has reached AUTO_N corrections: it is erased, or refused because another is
(R312). -/
def State.autoErase (s : State) (k d count : Nat) : State :=
  match s.erasedDevice k with
  | some _ => s.logMem 0x8004 k d 2 count
  | none =>
    if s.flag R.MC_ECC_CFG F.MC_ECC_CFG_AUTO_EN then
      let w := s.fld R.MC_ECC_ERASE F.MC_ECC_ERASE_DEV
      let w' := w - natBits w (3 * k + 2) (3 * k) * 2 ^ (3 * k) + d * 2 ^ (3 * k)
      (s.setFld R.MC_ECC_ERASE F.MC_ECC_ERASE_DEV w').logMem 0x8004 k d 0 count
    else s

/-- One correction: CORR, the device's count, event 0x8001 at most once per millisecond and subchannel, and the
automatic erasure (R311, R312). -/
def State.countCorrection (s : State) (a pos : Nat) : State :=
  let k := s.memSub a
  let d := deviceOf pos
  let s := s.bump R.MC_ECC_CNT F.MC_ECC_CNT_CORR 1
  let place : FieldPos := ⟨6 * d + 5, 6 * d⟩
  let old := s.fld (R.MC_ECC_DEV k) place
  let s := s.bump (R.MC_ECC_DEV k) place 1
  let count := s.fld (R.MC_ECC_DEV k) place
  let s := s.modSub k fun x => { x with corrSince := x.corrSince + 1 }
  let s := if quiet (s.sub k).corrLog s.now then
      (s.logMem 0x8001 k (a % 2 ^ 32) pos (s.sub k).corrSince).modSub k
        fun x => { x with corrSince := 0, corrLog := some s.now }
    else s
  if old < count ∧ count = s.fld R.MC_ECC_CFG F.MC_ECC_CFG_AUTO_N then s.autoErase k d count else s

/-- A corrected word of a demand read joins the write-back queue of 16 entries, or is dropped with event 0x800C
(R311). -/
def State.queueWriteBack (s : State) (a : Nat) : State :=
  if s.mem.wbQ.length < 16 then { s with mem := { s.mem with wbQ := s.mem.wbQ ++ [a] } }
  else
    let s := { s with mem := { s.mem with wbLost := s.mem.wbLost + 1 } }
    if quiet s.mem.wbLog s.now then
      let s := s.logMem 0x800C s.mem.wbLost
      { s with mem := { s.mem with wbLost := 0, wbLog := some s.now } }
    else s

/-- An uncorrectable or poisoned read: UNCORR, MC_ECC_LAST and event 0x8002 (R313). -/
def State.countUncorrectable (s : State) (cls a : Nat) (poison : Bool) : State :=
  let s := s.bump R.MC_ECC_CNT F.MC_ECC_CNT_UNCORR 1
  let s := s.setReg R.MC_ECC_LAST_LO (BitVec.ofNat 32 a)
  let s := s.setReg R.MC_ECC_LAST_HI (BitVec.ofNat 32 (a / 2 ^ 32 % 256 + bitOf poison * 2 ^ 31))
  s.logMem 0x8002 (s.memSub a) (a % 2 ^ 32) cls (bitOf poison)

/-- An access outside memory (R304). -/
def State.logOutside (s : State) (cls a : Nat) : State :=
  s.logMem 0x8009 cls (a % 2 ^ 32) (a / 2 ^ 32 % 256)

/-! ## Pages and activates -/

/-- A bank by its key 32·subchannel + bank. -/
def State.bank (s : State) (key : Nat) : Bank := storeGet (fun _ => Bank.idle) key s.mem.banks
def State.setBank (s : State) (key : Nat) (b : Bank) : State :=
  { s with mem := { s.mem with banks := storePut (fun _ => Bank.idle) key b s.mem.banks } }

/-- An activate of a row counted in the bank's table of 32 entries (R309). -/
def countActivate (acts : List (Nat × Nat)) (row : Nat) : List (Nat × Nat) :=
  if acts.any (fun e => e.1 == row) then acts.map fun e => if e.1 = row then (row, e.2 + 1) else e
  else if acts.length < 32 then acts ++ [(row, 1)]
  else (acts.map fun e => (e.1, e.2 - 1)).filter fun e => e.2 ≠ 0

/-- Ticks of a number of memory controller cycles of 800 MHz, rounded up. -/
def mcCycles (n : Nat) : Nat := ceilDiv (n * 15) 8

/-- A command sent to a subchannel. -/
def State.dram (s : State) (k : Nat) (c : DramCmd) : State := { s with out := .dram k c :: s.out }

/-- The activates after which the devices of a subchannel want an RFM, as the last read of their MR58 declares; none where RFM is
not required (R309; log entry 12). -/
def State.rfmEvery (s : State) (k : Nat) : Option Nat :=
  let v := storeGet (fun _ => (0 : Nat)) (256 * k + 58) s.mem.modeRegs
  if v % 2 = 1 ∧ v / 2 % 16 ≠ 0 then some (8 * (v / 2 % 16)) else none

/-- One activate of a bank, given its key, in the rolling count: at the declared threshold an RFM goes to the bank (R309). -/
def State.rollActivate (s : State) (key : Nat) : State :=
  let n := (s.bank key).raa + 1
  match s.rfmEvery (key / 32) with
  | some m =>
    if m ≤ n then (s.setBank key { s.bank key with raa := n - m }).dram (key / 32) (.rfm (key % 32))
    else s.setBank key { s.bank key with raa := n }
  | none => s

/-- One access to a burst: another row of the bank is precharged, the burst's row is opened and counted if it is not open, and the
idle timer reloads; a row whose timer has run out is no longer open, and with IDLE = 0 the row closes at once (R307, R309). -/
def State.touchBurst (s : State) (a : Nat) : State :=
  let (bk, row) := s.memBankRow a
  let k := s.memSub a
  let key := 32 * k + bk
  let b := s.bank key
  let opened := b.row.filter fun (e : Nat × Stamp) => decide (s.now ≤ e.2)
  let hit := (opened.map (·.1)) == some row
  let acts := if hit || !s.flag R.MC_ACT_CFG F.MC_ACT_CFG_EN then b.acts else countActivate b.acts row
  let idle := s.fld R.MC_PAGE F.MC_PAGE_IDLE
  let s := if opened.isSome && !hit then s.dram k (.precharge bk) else s
  let s := s.setBank key { b with row := if idle = 0 then none else some (row, s.now + mcCycles idle), acts := acts }
  let s := if hit then s else s.rollActivate key
  if idle = 0 then s.dram k (.precharge bk) else s

/-- Refreshes take their part off the rolling activate counts of a subchannel's banks (R309; log entry 12). -/
def State.easeActivates (s : State) (k n : Nat) : State :=
  match s.rfmEvery k with
  | some m => s.mem.banks.foldl (fun (t : State) (e : Nat × Bank) =>
      if e.1 / 32 = k then t.setBank e.1 { t.bank e.1 with raa := (t.bank e.1).raa - n * m } else t) s
  | none => s

/-- The refreshes that a subchannel has postponed are issued. -/
def State.payRefreshes (s : State) (k : Nat) : State :=
  let n := (s.sub k).postponed
  if n = 0 then s
  else ((s.easeActivates k n).modSub k fun x => { x with postponed := 0 }).dram k (.refresh n)

/-- A burst as a request of a class reaches it: before one of classes 2 to 6 the postponed refreshes of its subchannel are issued
(R305, R308). -/
def State.serveBurst (s : State) (cls a : Nat) : State :=
  if a < s.memSize then (if 2 ≤ cls then s.payRefreshes (s.memSub a) else s).touchBurst a else s

/-- The bursts that an access of n bytes at a touches. -/
def burstsOf (a n : Nat) : List Nat :=
  if n = 0 then [] else (List.range ((a + n - 1) / 64 - a / 64 + 1)).map fun i => (a / 64 + i) * 64

/-! ## Reads -/

/-- One word read by an agent of a class: its data, and whether it was good (R311 to R313). -/
def State.readWord (s : State) (cls a : Nat) : (List Nat × Bool) × State :=
  let (r, d) := decodeWord (s.erasedDevice (s.memSub a)) (s.memSymbols a)
  match r with
  | .clean => ((d, true), s)
  | .corrected p =>
    let s := s.countCorrection a p
    ((d, true), if cls = 5 then s else s.queueWriteBack a)
  | .uncorrectable => ((d, false), s.countUncorrectable cls a false)
  | .poison => ((d, false), s.countUncorrectable cls a true)

/-- What a read returns: the data of whole words from the word of its first byte, and the addresses of the words
that were uncorrectable, poisoned or outside memory. -/
structure ReadRun where
  bytes   : List Nat
  bad     : List Nat
  outside : Bool
  st      : State

/-- Read n words one after another. -/
def State.readWords (s : State) (cls : Nat) : Nat → Nat → ReadRun
  | _, 0 => ⟨[], [], false, s⟩
  | a, n + 1 =>
    if a + 8 ≤ s.memSize ∧ s.memOn then
      let ((d, ok), s1) := s.readWord cls a
      let r := s1.readWords cls (a + 8) n
      ⟨d ++ r.bytes, if ok then r.bad else a :: r.bad, r.outside, r.st⟩
    else
      let r := s.readWords cls (a + 8) n
      ⟨List.replicate 8 0 ++ r.bytes, a :: r.bad, s.memOn || r.outside, r.st⟩

/-- A read by an agent of `len` bytes at `a`: page state of its bursts, then its words; a part outside memory logs
event 0x8009 once, with its first address (R304, R311, R313). -/
def State.memRead (s : State) (cls a len : Nat) : ReadRun :=
  let s := (burstsOf a len).foldl (fun (t : State) (b : Nat) => t.serveBurst cls b) s
  let first := a / 8 * 8
  let words := if len = 0 then 0 else (a + len - 1) / 8 - a / 8 + 1
  let r := s.readWords cls first words
  let st := if r.outside then r.st.logOutside cls (max a s.memSize) else r.st
  { r with bytes := (r.bytes.drop (a - first)).take len, st := st }

/-! ## Writes -/

/-- The flip that MC_FLIP arms, applied to the codeword of a full-word write at its address (R317). -/
def State.flipWord (s : State) (a : Nat) (c : List Nat) : State × List Nat :=
  let lo := s.fld R.MC_FLIP_ADDR_LO F.MC_FLIP_ADDR_LO_ADDR_LO * 8
  let hi := s.fld R.MC_FLIP_ADDR_HI F.MC_FLIP_ADDR_HI_ADDR_HI * 2 ^ 32
  if s.flag R.MC_FLIP_ADDR_HI F.MC_FLIP_ADDR_HI_ARMED ∧ hi + lo = a then
    let m := bytesLE 4 (s.reg R.MC_FLIP_MASK0).toNat ++ bytesLE 4 (s.reg R.MC_FLIP_MASK1).toNat ++
      bytesLE 2 (s.reg R.MC_FLIP_MASK2).toNat
    (s.setFld R.MC_FLIP_ADDR_HI F.MC_FLIP_ADDR_HI_ARMED 0, List.zipWith (fun x y => x ^^^ y.toNat) c m)
  else (s, c)

/-- A word written whole (R310, R317). -/
def State.writeFull (s : State) (a : Nat) (d : List Nat) : State :=
  let (s, c) := s.flipWord a (d ++ checkSymbols d)
  s.storeSymbols a c

/-- The check symbols of poison: each XORed with 0x5A (R314). -/
def poisonSymbols (d : List Nat) : List Nat := d ++ (checkSymbols d).map (· ^^^ 0x5A)

/-- The old data of a word with new bytes in place from byte i. -/
def mergeBytes (old : List Nat) (i : Nat) (new : List Nat) : List Nat :=
  old.take i ++ new ++ old.drop (i + new.length)

/-- A word written in part (Table 14-5). -/
def State.writePart (s : State) (cls a i : Nat) (new : List Nat) : State :=
  let (r, d) := decodeWord (s.erasedDevice (s.memSub a)) (s.memSymbols a)
  let m := mergeBytes d i new
  match r with
  | .clean => s.storeSymbols a (m ++ checkSymbols m)
  | .corrected p => (s.countCorrection a p).storeSymbols a (m ++ checkSymbols m)
  | .uncorrectable | .poison =>
    (s.storeSymbols a (poisonSymbols m)).logMem 0x8003 (s.memSub a) (a % 2 ^ 32) cls 0

/-- Bytes of a list that fall in the word at a, for a write that starts at byte address w. -/
def State.writeWordAt (s : State) (cls a w : Nat) (bytes : List Nat) : State :=
  let i := w - a
  let part := (bytes.drop (a - w)).take (8 - i)
  if part.length = 8 then s.writeFull a part else s.writePart cls a i part

/-- A write by an agent: the words it covers, whole or merged; what lies outside memory is discarded and logs
event 0x8009 once (R304, R314). -/
def State.memWrite (s : State) (cls a : Nat) (bytes : List Nat) : State :=
  let len := bytes.length
  if len = 0 || !s.memOn then s
  else
    let s := (burstsOf a len).foldl (fun (t : State) (b : Nat) => t.serveBurst cls b) s
    let words := (List.range ((a + len - 1) / 8 - a / 8 + 1)).map fun k => (a / 8 + k) * 8
    let s := (words.filter fun x => x + 8 ≤ s.memSize).foldl (fun t x => t.writeWordAt cls x a bytes) s
    if s.memSize < a + len then s.logOutside cls (max a s.memSize) else s

/-- A number written little-endian in n bytes. -/
def natBytes (n v : Nat) : List Nat := (bytesLE n v).map (·.toNat)

/-- The number that stored bytes spell. -/
def bytesNat : List Nat → Nat
  | [] => 0
  | b :: bs => b % 256 + 256 * bytesNat bs

/-- A little-endian field of a list of bytes. -/
def fieldAt (bytes : List Nat) (ofs n : Nat) : Nat := bytesNat ((bytes.drop ofs).take n)

end Sys2Proof.Machine
end

