-- ==== Sys2Proof/Machine/DecodeOps.lean ====
section
/-!
DEFINITION. Machine/DecodeOps.lean: what the decode island does to sectors, groups and records (chapter 6): the
LDPC code, min-sum decoding, acceptance, outcome records and their ring, twill groups, and run-ahead bands.
-/

namespace Sys2Proof.Machine

/-! ## The LDPC code (R115) -/

/-- The shift of the block in row r of column c, if it is not zero. -/
def ldpcShift (r c : Nat) : Option Nat :=
  if c < 86 then
    let a := c % 10
    let k := c / 10 % 4
    if r = a ∨ r = (a + 1 + k) % 10 ∨ r = (a + 5 + k) % 10 then some ((r + 3) * (c + 7) * (c + 11) % 384)
    else none
  else if c = 86 then (if r = 0 ∨ r = 9 then some 1 else if r = 4 then some 0 else none)
  else if r + 87 = c ∨ r + 86 = c then some 0 else none

/-- The codeword bits of check z of block row r. -/
def checkBits (r z : Nat) : List Nat :=
  (List.range 96).filterMap fun c => (ldpcShift r c).map fun sh => 384 * c + (z + sh) % 384

/-- Bits of a codeword and its checks. -/
def codeBits : Nat := 36864
def codeInfoBits : Nat := 33024
def codeChecks : Nat := 3840

/-- The number of unsatisfied checks of hard decisions (a negative posterior decides 1). -/
def syndromeWeight (post : Array Int) : Nat :=
  (List.range codeChecks).foldl (fun n q =>
    let odd := (checkBits (q / 384) (q % 384)).foldl (fun b v => if post.getD v 0 < 0 then !b else b) false
    if odd then n + 1 else n) 0

/-! ## Layered min-sum (R118, R121) -/

/-- What distinguishes first-pass from deep decoding: saturation of messages and posteriors, and the magnitude step. -/
structure MinSum where
  satMsg  : Int
  satPost : Int
  beta    : Nat
  deep    : Bool
  deriving DecidableEq, Repr

/-- The magnitude of a message: the offset step of R118, or the normalisation of R121. -/
def MinSum.mag (p : MinSum) (m : Int) : Int := if p.deep then m * 3 / 4 else max 0 (m - p.beta)

/-- The two smallest magnitudes of a list, and the place of the first smallest. -/
def twoSmallest (l : List Int) : Int × Int × Nat :=
  (indexed l).foldl (fun (a, b, i) (j, t) =>
    let m := (t.natAbs : Int)
    if m < a then (m, a, j) else if m < b then (a, m, i) else (a, b, i)) (2 ^ 20, 2 ^ 20, 0)

/-- One check: its new messages and posteriors. -/
def checkStep (p : MinSum) (bits : List Nat) (st : Array Int × List Int) : Array Int × List Int :=
  let (post, old) := st
  let t := List.zipWith (fun v m => post.getD v 0 - m) bits old
  let (m1, m2, k) := twoSmallest t
  let neg := t.foldl (fun b x => if x < 0 then !b else b) false
  let new := (indexed t).map fun (j, x) =>
    let m := clampInt 0 p.satMsg (p.mag (if j = k then m2 else m1))
    if neg != decide (x < 0) then -m else m
  let post := (List.zip bits (List.zip t new)).foldl
    (fun a (v, x, m) => a.setIfInBounds v (clampInt (-p.satPost) p.satPost (x + m))) post
  (post, new)

/-- One iteration over the ten block rows in order. -/
def iterate (p : MinSum) (post : Array Int) (msg : Array (List Int)) : Array Int × Array (List Int) :=
  (List.range codeChecks).foldl (fun (post, msg) q =>
    let bits := checkBits (q / 384) (q % 384)
    let old := match msg.getD q [] with
      | [] => List.replicate bits.length 0
      | l => l
    let (post, new) := checkStep p bits (post, old)
    (post, msg.setIfInBounds q new)) (post, msg)

/-- A core that starts on channel values. -/
def DecodeCore.start (id : Nat) (ch : Array Int) (cap beta hopeless : Nat) (ends : Stamp)
    (contest : List Framing) : DecodeCore :=
  { sector := id, ch := ch, post := ch, msg := Array.replicate codeChecks [], iter := 0, iterEnds := ends,
    contest := contest, firstWeight := none, cap := cap, beta := beta, hopeless := hopeless }

/-! ## Demodulation and bytes -/

/-- The min-sum demodulation of one code bit (R96). -/
def demodBit (sx sf : Int) : Int :=
  let m := min (sx.natAbs : Int) sf.natAbs
  if (sx < 0) != (sf < 0) then -m else m

/-- The code-bit values of a codeword whose channel bits start at `start` (R96). -/
def demodulate (chan : Array Int) (start : Nat) : Array Int :=
  ((List.range codeBits).map fun v =>
    let g := start + 17 * (v / 16)
    demodBit (chan.getD (g + 1 + v % 16) 0) (chan.getD g 0)).toArray

/-- Byte m of the hard decisions: information bit 8m + (7 − i) is bit i (R116). -/
def hardByte (post : Array Int) (m : Nat) : Nat :=
  (List.range 8).foldl (fun b j => 2 * b + (if post.getD (8 * m + j) 0 < 0 then 1 else 0)) 0

/-- The 4,128 bytes of header and payload. -/
def hardBytes (post : Array Int) : List Nat := (List.range 4128).map (hardByte post)

/-- Positions whose decision differs from the sign of a channel value that is not 0 (Table 6-4). -/
def flippedCount (ch post : Array Int) : Nat :=
  (List.range codeBits).foldl (fun n v =>
    let c := ch.getD v 0
    if c ≠ 0 ∧ (c < 0) ≠ (post.getD v 0 < 0) then n + 1 else n) 0

/-! ## Records and the outcome ring -/

/-- An event of the decode island. -/
def State.logDec (s : State) (code : Nat) (a0 a1 a2 a3 : Nat := 0) : State := s.log srcDecode .decode code a0 a1 a2 a3

/-- The decode island's state changed. -/
def State.modDec (s : State) (f : DecodeState → DecodeState) : State := { s with decode := f s.decode }

/-- The code of a sector outcome (Table 6-4). -/
def outcomeCode : SecOutcome → Nat
  | .decoded => 0 | .erased => 1 | .reread => 2 | .verified => 3
  | .verifyFailed => 4 | .verifyPending => 5 | .cut => 6

/-- Layer, track and slot as one word. -/
def addressWord (layer track slot : Nat) : Nat := layer * 2 ^ 28 + track * 2 ^ 9 + slot

/-- No flag and no count: what a sector starts with. SYNDROME is 0xFFFF until an iteration ends. -/
def SecInfo.none : SecInfo :=
  { framing := 0, syncOfs := 0, syncMiss := 0, formR := false, replayed := 0, softErased := [], forced := 0,
    erasedBits := 0, dropout := false, meanAbs := 0, decM := 0, miscorrect := false, misplaced := false,
    deepFull := false, deepFail := false, hopeless := false, corrected := false, fpIter := 0, deepIter := 0,
    syndrome := 0xFFFF, flipped := 0, raws := [] }

/-- FLAGS of Table 6-4. -/
def SecInfo.flags (i : SecInfo) (spec : Bool) : Nat :=
  bitOf spec + 2 * bitOf (i.framing == 3) + 4 * bitOf i.miscorrect + 8 * bitOf i.misplaced +
  16 * bitOf (i.framing == 1 || i.framing == 2) + 32 * bitOf (!i.softErased.isEmpty) +
  64 * bitOf i.deepFull + 128 * bitOf i.hopeless

/-- A sector record (Table 6-4). -/
def sectorRecord (stamp : Stamp) (addr head beam outcome path pass group mem : Nat) (i : SecInfo) (spec work : Bool)
    (data tag : Nat) : List Nat :=
  natBytes 8 stamp ++ natBytes 4 addr ++ [head + 16 * beam, outcome + 8 * path] ++ natBytes 2 pass ++
  natBytes 2 (16 * group + mem) ++ [i.flags spec, i.fpIter, i.deepIter,
    bitOf i.deepFail + 2 * bitOf i.corrected + 4 * bitOf work] ++
  natBytes 2 i.syndrome ++ natBytes 2 i.flipped ++ natBytes 2 i.erasedBits ++
  [i.meanAbs, i.framing + 16 * i.syncMiss, ofSigned i.syncOfs 8, 0] ++
  natBytes 8 data ++ natBytes 8 tag ++ List.replicate 16 0

/-- A group record (Table 6-5). -/
def groupRecord (stamp : Stamp) (bandWord head status pass g unknown rebuilt reread : Nat) (work : Bool) : List Nat :=
  natBytes 8 stamp ++ natBytes 4 bandWord ++ [head, status] ++ natBytes 2 pass ++ natBytes 2 (16 * g) ++
  natBytes 2 unknown ++ natBytes 2 rebuilt ++ natBytes 2 reread ++ [bitOf work] ++ List.replicate 6 0 ++ [1] ++
  List.replicate 32 0

/-- The outcome ring's base, producer and consumer (R138). -/
def State.outBase (s : State) : Nat :=
  s.fld R.DC_OUT_BASE_HI F.DC_OUT_BASE_HI_BASE_HI * 2 ^ 32 + s.fld R.DC_OUT_BASE_LO F.DC_OUT_BASE_LO_BASE_LO * 2 ^ 22
def State.outProd (s : State) : Nat := s.fld R.DC_OUT_PROD F.DC_OUT_PROD_PROD
def State.outCons (s : State) : Nat := s.fld R.DC_OUT_CONS F.DC_OUT_CONS_CONS

/-- The ring is full (R138). -/
def State.outRingFull (s : State) : Bool := (s.outProd + 1) % 65536 == s.outCons

/-- An episode of a full ring begins or ends: event 0x3008 once per episode. -/
def State.outEpisode (s : State) : State :=
  if s.outRingFull ∧ ¬ s.decode.outFull then
    (s.modDec fun d => { d with outFull := true }).logDec 0x3008 s.outProd
  else if ¬ s.outRingFull ∧ s.decode.outFull then s.modDec fun d => { d with outFull := false }
  else s

/-- Every run-ahead band changed. -/
def State.mapRunAhead (s : State) (f : RunAhead → RunAhead) : State :=
  s.modDec fun d => { d with runAhead := d.runAhead.map f }

/-- A record written to the ring: its write is discarded where the ring lies outside memory, and PROD advances
either way (R138). -/
def State.putRecord (s : State) (r : OutRecord) : State :=
  let i := s.outProd
  let s := s.memWrite 1 (s.outBase + 64 * i) r.bytes
  let s := s.setFld R.DC_OUT_PROD F.DC_OUT_PROD_PROD ((i + 1) % 65536)
  let s := match r.spec with
    | some (l, b) => s.mapRunAhead fun x =>
        if x.head = r.head ∧ x.pass = r.pass ∧ x.layer = l ∧ x.band = b then { x with records := i :: x.records }
        else x
    | none => s
  s.outEpisode

/-- A record in the order of decision: into the ring, or behind those that wait for room (R138). -/
def State.emitRecord (s : State) (r : OutRecord) : State :=
  if s.outRingFull || !s.decode.waiting.isEmpty then
    (s.modDec fun d => { d with waiting := d.waiting ++ [r] }).outEpisode
  else s.putRecord r

/-- Records that waited enter the ring as slots free; `fuel` bounds them by their number. -/
def State.drainRecords (s : State) : Nat → State
  | 0 => s
  | k + 1 =>
    match s.decode.waiting with
    | [] => s
    | r :: rest =>
      if s.outRingFull then s
      else ((s.modDec fun d => { d with waiting := rest }).putRecord r).drainRecords k

/-- The buffer address that the next record decided will have. -/
def State.nextRecordAddr (s : State) : Nat :=
  s.outBase + 64 * ((s.outProd + s.decode.waiting.length) % 65536)

/-! ## Counters -/

/-- A decode counter raised (Table 6-20). -/
def State.bumpDc (s : State) (k n : Nat) : State := s.bump (R.DC_CNT k) F.DC_CNT_COUNT n

/-- The run-ahead band of a speculative sector. -/
def RunAhead.holds (r : RunAhead) (x : Sector) : Bool :=
  r.head == x.head && r.pass == x.pass && r.layer == x.layer && r.band == x.band

/-- The run-ahead band of a head's pass. -/
def RunAhead.isBand (r : RunAhead) (head pass layer band : Nat) : Bool :=
  r.head == head && r.pass == pass && r.layer == layer && r.band == band

/-- Counter k raised by n for a band: at once, or held in the run-ahead band while nothing has claimed it (R133, R135). -/
def State.countIn (s : State) (head pass layer band k n : Nat) : State :=
  if s.decode.runAhead.any fun r => r.isBand head pass layer band && r.claim.isNone then
    s.mapRunAhead fun r =>
      if r.isBand head pass layer band then { r with counts := r.counts.modify k (· + n) } else r
  else s.bumpDc k n

/-- Counter k for one sector (R133, R135). -/
def State.countSector (s : State) (x : Sector) (k : Nat) : State := s.countIn x.head x.pass x.layer x.band k 1

/-- The SPEC mark of a band's records: its layer and band while it is an unclaimed run-ahead band (R132). -/
def specMark (s : State) (head pass layer band : Nat) : Option (Nat × Nat) :=
  if s.decode.runAhead.any fun r => r.isBand head pass layer band && r.claim.isNone then some (layer, band) else none

/-! ## Sectors -/

/-- A sector by its number. -/
def State.sector (s : State) (id : Nat) : Option Sector := s.decode.sectors.find? fun x => x.id == id

/-- A sector changed. -/
def State.modSector (s : State) (id : Nat) (f : Sector → Sector) : State :=
  s.modDec fun d => { d with sectors := d.sectors.map fun x => if x.id = id then f x else x }

/-- The open pass of a head with a pass number. -/
def State.passOf (s : State) (head pass : Nat) : Option Pass :=
  if h : head < 16 then
    match (s.head ⟨head, h⟩).pass with
    | some p => if p.no = pass then some p else none
    | none => none
  else none

/-- Twill decoding runs for groups of read and verify-only passes (R126). -/
def State.twillRuns (s : State) (head pass : Nat) : Bool :=
  match s.passOf head pass with
  | some p => p.desc.mode != .backstitch
  | none => false

/-- A group of a pass that has no member outcome yet. -/
def Group.fresh (head pass layer band g : Nat) : Group :=
  { head := head, pass := pass, layer := layer, band := band, g := g, members := [], closed := none,
    checkAll := false, errEn := false, spec := false }

/-- The members that are unknown, by bit: erased, queued for re-read, or never admitted (R126, R128). -/
def Group.unknownMask (g : Group) : Nat :=
  ((List.range 16).map fun i =>
    match g.members.lookup i with
    | some m => if m.known then 0 else 2 ^ i
    | none => 2 ^ i).sum

/-- The members queued for re-read, by bit. -/
def Group.rereadMask (g : Group) : Nat :=
  ((List.range 16).map fun i =>
    match g.members.lookup i with
    | some m => if m.outcome = .reread then 2 ^ i else 0
    | none => 0).sum

/-- The BAND word of a group record. -/
def bandWord (layer band : Nat) : Nat := layer * 2 ^ 28 + 12 * band * 2 ^ 9

/-- A group's record of a pass. -/
def State.emitGroup (s : State) (g : Group) (status unknown rebuilt : Nat) : State :=
  let stamp := g.closed.getD s.now
  s.emitRecord ⟨groupRecord stamp (bandWord g.layer g.band) g.head status g.pass g.g unknown rebuilt
    g.rereadMask false, g.head, g.pass, false, specMark s g.head g.pass g.layer g.band⟩

/-- A DEFERRED group: its record and its counter (R127, R128). -/
def State.deferGroup (s : State) (g : Group) : State :=
  (s.emitGroup g 4 g.unknownMask 0).countIn g.head g.pass g.layer g.band 9 1

/-- A group closes: no work where nothing is unknown and CHECK_ALL is 0; a DEFERRED record at a hem's step 4 or
with the twill queue full; otherwise it joins the queue (R126, R127, R128). -/
def State.closeGroup (s : State) (g : Group) (atHem : Bool) : State :=
  let s := s.modDec fun d => { d with groups := d.groups.filter fun x =>
    !(x.head == g.head && x.pass == g.pass && x.layer == g.layer && x.band == g.band && x.g == g.g) }
  let g := { g with
    closed := some (s.stamp .decode), checkAll := s.flag R.DC_TWILL_CFG F.DC_TWILL_CFG_CHECK_ALL,
    errEn := s.flag R.DC_TWILL_CFG F.DC_TWILL_CFG_ERR_EN }
  if g.unknownMask = 0 ∧ ¬ g.checkAll then s
  else if atHem then s.deferGroup g
  else if 64 ≤ s.decode.twillQ.length then (s.deferGroup g).logDec 0x3006 g.head g.band g.g
  else s.modDec fun d => { d with twillQ := d.twillQ ++ [g] }

/-- A member takes its outcome; the group closes with its sixteenth (R126). -/
def State.memberOutcome (s : State) (head pass layer band grp i : Nat) (m : Member) : State :=
  if !s.twillRuns head pass then s
  else
    let same (x : Group) := x.head == head && x.pass == pass && x.layer == layer && x.band == band && x.g == grp
    let g := (s.decode.groups.find? same).getD (Group.fresh head pass layer band grp)
    let g := { g with members := (i, m) :: g.members.filter fun e => e.1 ≠ i }
    if g.members.length = 16 then s.closeGroup g false
    else s.modDec fun d => { d with groups := d.groups.filter (fun x => !same x) ++ [g] }

/-- The record of an outcome, the member's part in its group, and the sector leaves the decode island (R34, R138). -/
def State.finishSector (s : State) (x : Sector) (o : SecOutcome) (path data tag asm : Nat) (known : Bool) : State :=
  let work := match x.kind with
    | .reframe _ => true
    | _ => false
  let bytes := sectorRecord x.stamp (addressWord x.layer x.track x.slot) x.head x.beam (outcomeCode o) path x.pass
    x.group x.member x.info x.spec work data tag
  let s := s.emitRecord ⟨bytes, x.head, x.pass, work, if x.spec then some (x.layer, x.band) else none⟩
  let s := if work then s else
    s.memberOutcome x.head x.pass x.layer x.band x.group x.member
      ⟨o, known, data, tag, asm, x.stamp, x.beam, x.track, x.slot, x.info⟩
  s.modDec fun d => { d with sectors := d.sectors.filter fun y => y.id ≠ x.id }

/-- What a REFRAME order answers where the spec names a status and gives no number (log entry 15): 1 nothing
delivered, 2 copy gone, 3 deep full, 4 too many unknowns. -/
def workStatus (k : Nat) : Nat := Config.workStatus k % 256

/-- A decode work order completes: its status and the address of its first record (R131). -/
def State.completeWork (s : State) (w : Waiter) (status data : Nat) : State :=
  s.complete w .decode srcDecode (s.stamp .decode) status data

/-- The waiting order of a REFRAME sector: its work number stands in the sector, its waiter in the queue of orders
that run. -/
def Sector.isReframe (x : Sector) : Bool :=
  match x.kind with
  | .reframe _ => true
  | _ => false

/-- The end of a sector that is not delivered: erased or, for REFRAME, nothing delivered with a status. -/
def State.failSector (s : State) (x : Sector) (path status : Nat) : State :=
  match x.kind with
  | .reframe w =>
    let addr := s.nextRecordAddr
    let s := s.finishSector x .erased 7 0 0 0 false
    (match s.decode.running.find? fun o => o.who.tag == w with
     | some o => (s.modDec fun d => { d with running := d.running.filter fun y => y.who.tag ≠ w }).completeWork o.who
        (workStatus status) addr
     | none => s)
  | .verify => s.finishSector x .verifyFailed path 0 0 0 false
  | .read => s.finishSector x .erased path 0 0 0 false

/-! ## Acceptance (R123) and verify (R152) -/

/-- The header check of CRC-32 over header bytes 0 to 27 and the payload (Table 3-5). -/
def crcHolds (b : List Nat) : Bool := crc32 (b.take 28 ++ b.drop 32) == fieldAt b 28 4

/-- The header names the sector's expected place. -/
def placeHolds (x : Sector) (b : List Nat) : Bool :=
  fieldAt b 0 4 == addressWord x.layer x.track x.slot && fieldAt b 4 2 == 16 * x.group + x.member

/-- A free place for a payload of a band: inside the band's slot of the run-ahead area where it is a run-ahead band (R132),
and otherwise anywhere, since the spec gives no place (log entry 16). -/
def State.payloadAddr (s : State) (head pass layer band : Nat) : Nat × State :=
  let (v, s) := s.draw
  match s.decode.runAhead.find? fun r => r.isBand head pass layer band with
  | some r => (r.base + (r.head * r.bands + r.slot) * (24 * 2 ^ 20) + v % 6144 * 4096, s)
  | none => (v % (s.memSize / 4096) * 4096, s)

/-- Where an accepted sector is delivered: to the destination that its order names, or to its band's place. -/
def State.deliveryAddr (s : State) (x : Sector) : Nat × State :=
  match x.kind with
  | .reframe _ => (x.dest, s)
  | _ => s.payloadAddr x.head x.pass x.layer x.band

/-- The heads of the surface that a head serves (Table 1-1 of the names: surface s carries heads 2s and 2s + 1). -/
def sameSurface (head : Nat) (n : Fin 16) : Bool := n.val / 2 == head / 2

/-- The retained copies of a sector whose data has been delivered are released, on every head that may hold one (R50). -/
def State.releaseCopy (s : State) (heads : Fin 16 → Bool) (address : Nat) : State :=
  (List.finRange 16).foldl (fun t n =>
    if heads n then t.modHead n fun hd => { hd with ingest := { hd.ingest with
      copies := hd.ingest.copies.filter fun c => c.2.address != address } }
    else t) s

/-- The verify criteria of R152 for an accepted sector. -/
def verifyPasses (s : State) (x : Sector) (deep : Bool) : Bool :=
  match s.passOf x.head x.pass with
  | none => false
  | some p =>
    let raw := x.info.raws.getD (if x.info.framing = 2 then 1 else 0) 0
    !deep && x.info.fpIter ≤ natBits p.cfg.wr 7 4 && raw ≤ p.cfg.vfyRaw &&
      (!testBitN p.cfg.wr 1 || !x.info.dropout)

/-- The counters of verify reads of a head (Tables 7-29 and 7-30 of the registers). -/
def State.countVerify (s : State) (x : Sector) (ok rawFail : Bool) : State :=
  let s := if ok then s.bump (R.HD_VFY_CNT x.head) F.HD_VFY_CNT_VERIFIED 1
    else s.bump (R.HD_VFY_CNT x.head) F.HD_VFY_CNT_FAILED 1
  if rawFail then s.bump (R.HD_VFY_CNT1 x.head) F.HD_VFY_CNT1_RAW_FAIL 1 else s

/-- An accepted sector is delivered and takes its outcome (R123, R152). -/
def State.deliverSector (s : State) (x : Sector) (b : List Nat) (deep : Bool) : State :=
  let path := bitOf deep
  let s := s.countSector x path
  let (addr, s) := s.deliveryAddr x
  let s := (s.memWrite 1 addr (b.drop 32)).releaseCopy (sameSurface x.head) (addressWord x.layer x.track x.slot)
  let tag := fieldAt b 16 8
  let asm := fieldAt b 8 8
  match x.kind with
  | .read => s.finishSector x .decoded path addr tag asm true
  | .verify =>
    let ok := verifyPasses s x deep
    let raw := x.info.raws.getD (if x.info.framing = 2 then 1 else 0) 0
    let rawFail := match s.passOf x.head x.pass with
      | some p => !(raw ≤ p.cfg.vfyRaw : Bool)
      | none => false
    let s := s.countVerify x ok rawFail
    s.finishSector x (if ok then .verified else .verifyFailed) path addr tag asm true
  | .reframe w =>
    let rec0 := s.nextRecordAddr
    let s := s.finishSector x .decoded 3 addr tag asm true
    match s.decode.running.find? fun o => o.who.tag == w with
    | some o => (s.modDec fun d => { d with running := d.running.filter fun y => y.who.tag ≠ w }).completeWork o.who
        0 rec0
    | none => s

/-- A sector is erased with a flag set in its record. -/
def State.eraseSector (s : State) (x : Sector) (path status : Nat) (f : SecInfo → SecInfo) : State :=
  let x := { x with info := f x.info }
  let s := match x.kind with
    | .verify => s.countVerify x false false
    | _ => s
  s.failSector x path status

/-- An entry put into the deep queue: by entry tick, equal ticks in ascending sector stamp order (R120). -/
def queueDeep (e : DeepEntry) : List DeepEntry → List DeepEntry
  | [] => [e]
  | x :: rest => if x.entered = e.entered ∧ e.stamp < x.stamp then e :: x :: rest else x :: queueDeep e rest

/-- Where a deep entry's values go in deep staging: inside buffer memory, at a place that the spec does not give (R120; log
entry 136). -/
def stagingPlace (s : State) (area k : Nat) : Nat := Config.stagingAddr area k % (s.memSize / 32768) * 32768

/-- Soft values packed five to a word, the first the least significant, as 6-bit fields (R96). -/
def packSoft : List Int → List Nat
  | a :: b :: c :: d :: e :: rest => natBytes 4 (word [a, b, c, d, e]) ++ packSoft rest
  | [] => []
  | part => natBytes 4 (word part)
where
  /-- One word of up to five values. -/
  word (l : List Int) : Nat := ((indexed l).map fun (i, v) => ofSigned v 6 * 2 ^ (6 * i)).sum

/-- The soft values of a packed word list. -/
def unpackSoft (bytes : List Nat) (n : Nat) : List Int :=
  (List.range n).map fun i => toSigned (fieldAt bytes (4 * (i / 5)) 4 / 2 ^ (6 * (i % 5))) 6

/-- Bytes that n packed values take. -/
def softBytes (n : Nat) : Nat := 4 * ceilDiv n 5

/-- The fields of a soft-bit record's header one after another: those of Tables 3-8 and 5-6, the address and the stamp (R111,
R112). -/
def headerFields (x : Sector) : Nat :=
  let add (v : Nat) (f : Nat × Nat) : Nat := v * 2 ^ f.2 + f.1 % 2 ^ f.2
  [(x.info.framing, 2), (ofSigned x.info.syncOfs 8, 8), (x.info.syncMiss, 4), (bitOf x.info.formR, 1), (x.beam, 4),
   (x.info.replayed, 7), ((x.info.softErased.map (2 ^ ·)).sum, 80), (x.info.forced, 7), (x.info.erasedBits, 16),
   (bitOf x.info.dropout, 1), (x.info.meanAbs, 8), (x.info.decM, 4), (addressWord x.layer x.track x.slot, 32),
   (x.stamp, 64)].foldl add 0

/-- The 64 bytes of a soft-bit record's header: its fields, in a layout that the spec does not give (log entry 100). -/
def recordHeader (x : Sector) : List Nat :=
  (List.range 64).map fun k => (Config.headerByte (headerFields x) k).toNat

/-- The deep queue takes a sector, its values written to deep staging, or refuses it: a REFRAME order then completes with
"deep full" and is not erased as a head record is (R119, R120, R131, Table 6-3). -/
def State.enterDeep (s : State) (x : Sector) (ch : Array Int) : State :=
  let occ := s.decode.deepQ.length
  let limit := s.fld R.DC_DEEP_CFG F.DC_DEEP_CFG_RA_LIMIT
  if occ < 256 ∧ (!x.spec ∨ occ < limit) then
    let s := s.modSector x.id fun _ => { x with stage := .deepQueue }
    let addr := stagingPlace s 16 x.id
    let s := s.memWrite 3 addr (recordHeader x ++ packSoft ch.toList)
    s.modDec fun d => { d with deepQ := queueDeep ⟨x.id, s.now, x.stamp, addr⟩ d.deepQ }
  else
    let s := if 256 ≤ occ ∧ ¬ s.decode.deepRefusing then
        (s.modDec fun d => { d with deepRefusing := true }).logDec 0x3001 x.head occ
      else s
    if x.isReframe then s.failSector x 7 3
    else (s.countSector x 3).eraseSector x 0 3 fun i => { i with deepFull := true }

/-- A refusal episode of the deep queue ends once fewer than 192 entries are left (Table 6-3). -/
def State.deepEpisode (s : State) : State :=
  if s.decode.deepRefusing ∧ s.decode.deepQ.length < 192 then s.modDec fun d => { d with deepRefusing := false } else s

/-- A zero-syndrome codeword: checked by CRC, then by its place, and delivered, sent deep, or erased (R123). -/
def State.acceptSector (s : State) (x : Sector) (ch post : Array Int) (deep : Bool) : State :=
  let b := hardBytes post
  let path := bitOf deep
  if !crcHolds b then
    let s := (s.countSector x 5).logDec 0x3002 x.head (addressWord x.layer x.track x.slot) path
    if deep then s.eraseSector x 1 1 fun i => { i with miscorrect := true }
    else s.enterDeep { x with info := { x.info with miscorrect := true } } ch
  else if !placeHolds x b then
    let s := (s.countSector x 6).logDec 0x3003 x.head (addressWord x.layer x.track x.slot) (fieldAt b 0 4)
    s.eraseSector x path 1 fun i => { i with misplaced := true }
  else s.deliverSector x b deep

/-! ## Withdrawal (R122) and run-ahead (R132 to R135) -/

/-- Sectors leave every queue, buffer and engine at once; an engine that decodes one finds it gone at its next
iteration end (R122). -/
def State.dropFromQueues (s : State) (ids : List Nat) : State :=
  let keep (o : Option Nat) : Option Nat := match o with
    | some i => if i ∈ ids then none else some i
    | none => none
  (s.modDec fun d => { d with
    deepQ := d.deepQ.filter fun e => !(ids.contains e.sector)
    engines := d.engines.map fun e => { e with buf0 := keep e.buf0, buf1 := keep e.buf1 } }).deepEpisode

/-- The sectors of a pass without an outcome that satisfy a test. -/
def State.openSectors (s : State) (head pass : Nat) (test : Sector → Bool) : List Sector :=
  s.decode.sectors.filter fun x => x.head == head && x.pass == pass && !x.isReframe && test x

/-- Withdraw sectors of a pass: each is queued for re-read (R33, R122). -/
def State.withdrawSectors (s : State) (xs : List Sector) : State :=
  let s := s.dropFromQueues (xs.map (·.id))
  xs.foldl (fun t x => t.finishSector x .reread 7 0 0 0 false) s

/-- Every group of a pass closes at step 4 of its hem: those that wait in the queue and those still open get
DEFERRED records (R128). -/
def State.closePassGroups (s : State) (head pass : Nat) : State :=
  let mine (g : Group) := g.head == head && g.pass == pass
  let queued := s.decode.twillQ.filter mine
  let s := s.modDec fun d => { d with twillQ := d.twillQ.filter fun g => !mine g }
  let s := queued.foldl State.deferGroup s
  (s.decode.groups.filter mine).foldl (fun t g => t.closeGroup g true) s

/-- The twill engine runs a group of the pass. -/
def State.twillBusyFor (s : State) (head pass : Nat) : Bool :=
  match s.decode.twill with
  | some (.group g, _) => g.head == head && g.pass == pass
  | _ => false

/-- Nothing of the pass is outstanding: no sector without an outcome, no group of it in the twill queue or engine. -/
def State.passSettled (s : State) (head pass : Nat) : Bool :=
  (s.openSectors head pass fun _ => true).isEmpty &&
  !(s.decode.twillQ.any fun g => g.head == head && g.pass == pass) && !s.twillBusyFor head pass

/-- The open pass forgets or gains run-ahead bands. -/
def State.markBand (s : State) (r : RunAhead) (f : Pass → Pass) : State :=
  if h : r.head < 16 then
    s.modHead ⟨r.head, h⟩ fun hd => { hd with pass := hd.pass.map fun p => if p.no = r.pass then f p else p }
  else s

/-- A run-ahead band is discarded whole (R134): its sectors leave every queue and engine, its groups and the twill job that
runs on one end, no further record of it is written, and the pass takes no more of it. -/
def State.discardBand (s : State) (r : RunAhead) (cause : Nat) : State :=
  let gone := s.decode.sectors.filter fun x => r.holds x
  let s := s.dropFromQueues (gone.map (·.id))
  let mine (g : Group) := g.head == r.head && g.pass == r.pass && g.layer == r.layer && g.band == r.band
  let s := s.modDec fun d => { d with
    sectors := d.sectors.filter fun x => !(r.holds x)
    groups := d.groups.filter fun g => !mine g
    twillQ := d.twillQ.filter fun g => !mine g
    twill := match d.twill with
      | some (.group g, t) => if mine g then none else some (.group g, t)
      | other => other
    waiting := d.waiting.filter fun o => !(o.head == r.head && o.pass == r.pass && o.spec == some (r.layer, r.band))
    runAhead := d.runAhead.filter fun y => y != r }
  let s := s.markBand r fun p => { p with dropped := r.band :: p.dropped }
  (s.bumpDc 11 r.sectors).logDec 0x3007 r.head r.band cause r.sectors

/-- Every unclaimed band of a head is discarded. -/
def State.discardHeadBands (s : State) (head cause : Nat) : State :=
  (s.decode.runAhead.filter fun r => r.head == head && r.claim.isNone).foldl (fun t r => t.discardBand r cause) s

/-- A claim of a run-ahead band by the read of a fetch stamp: SPEC clears in its records and its sectors, its counts enter
the counters, and the pass's later sectors of it are ordinary. Its slot stays taken until its data has been moved (R133). -/
def State.claimBand (s : State) (r : RunAhead) (by' : Stamp) : State :=
  let clear (t : State) (i : Nat) : State :=
    let a := t.outBase + 64 * i + 18
    t.memWrite 1 a [(t.memByte a).toNat / 2 * 2]
  let s := r.records.foldl clear s
  let s := s.modDec fun d => { d with
    sectors := d.sectors.map fun x => if r.holds x then { x with spec := false } else x
    waiting := d.waiting.map fun o =>
      if o.head == r.head && o.pass == r.pass && o.spec == some (r.layer, r.band) then
        { o with bytes := o.bytes.modify 18 (fun b => b / 2 * 2), spec := none }
      else o
    runAhead := d.runAhead.map fun y => if y == r then { y with claim := some by', counts := List.replicate 12 0 } else y }
  let s := s.markBand r fun p => { p with claimed := r.band :: p.claimed }
  let s := (indexed r.counts).foldl (fun t (k, n) => t.bumpDc k n) s
  s.bumpDc 10 r.sectors

/-- The bands that a read had claimed free their slots once it has ended: its data has been moved (R133; log entry
139). -/
def State.releaseBands (s : State) (by' : Stamp) : State :=
  s.modDec fun d => { d with runAhead := d.runAhead.filter fun r => r.claim != some by' }

end Sys2Proof.Machine
end

