-- ==== Sys2Proof/Machine/DownFrame.lean ====
section
/-!
DEFINITION. Machine/DownFrame.lean: the D0 frame as it stands on the line: messages in blocks (R71, Table 4-6), the frame's
header and CRC (R59, R60), scrambling and PAM4 levels (R54), and the positions of a frame under way (R58, R173).
-/

namespace Sys2Proof.Machine

/-! ## Messages in blocks -/

/-- The message code (Table 4-6). -/
def msgCode : Msg → Nat
  | .setpt _ _ => 1 | .wrate _ => 2 | .wstart _ _ => 3 | .wstop _ _ => 4 | .strat _ _ => 5 | .align _ => 0x10
  | .echo => 0x11 | .lane _ _ => 0x12 | .fewr _ _ => 0x20 | .ferd _ => 0x21 | .safe => 0x30 | .resume => 0x31

/-- The argument of a message's first block (Table 4-6). -/
def Msg.argument : Msg → Nat
  | .setpt act v => act % 256 * 2 ^ 40 + ofSigned v 24 * 2 ^ 16
  | .wrate inc => inc % 2 ^ 32
  | .wstart mask t | .wstop mask t => mask % 2 ^ 12 * 2 ^ 36 + t % 2 ^ 36
  | .strat table bytes => table % 256 * 2 ^ 40 + ceilDiv bytes.length 6 % 256 * 2 ^ 32
  | .align a => a / 2 ^ 32 % 2 ^ 32
  | .lane k act => k % 4 * 2 ^ 46 + act % 4 * 2 ^ 44
  | .fewr reg data => reg % 2 ^ 16 * 2 ^ 32 + data % 2 ^ 32
  | .ferd reg => reg % 2 ^ 16 * 2 ^ 32
  | .echo | .safe | .resume => 0

/-- The data of a message's continuation blocks, in order: six bytes of a table each, the first in [47:40] (R71, R146). -/
def Msg.continuations : Msg → List Nat
  | .strat _ bytes => (List.range (ceilDiv bytes.length 6)).map fun i =>
      (List.range 6).foldl (fun v j => v * 256 + bytes.getD (6 * i + j) 0) 0
  | .align a => [a % 2 ^ 32]
  | _ => []

/-- Blocks of a message (Table 4-6). -/
def Msg.blocks (m : Msg) : Nat := 1 + m.continuations.length

/-- The payload of block `part` of a message: TYPE 0x4B with the code, or 0x4C with the continuation index (R71). -/
def Msg.payload (m : Msg) (part : Nat) : Nat :=
  if part = 0 then 0x4B * 2 ^ 56 + msgCode m * 2 ^ 48 + m.argument
  else 0x4C * 2 ^ 56 + part * 2 ^ 48 + m.continuations.getD (part - 1) 0

/-- The positions of a message, block by block. -/
def Msg.slots (m : Msg) : List D0Slot := (List.range m.blocks).map fun i => .msg m i

/-- The block in a payload position (R69, R71): control blocks carry sync 0b10, write data 0b01. -/
def D0Slot.block : D0Slot → Block
  | .idle => ⟨2, 0x1E * 2 ^ 56⟩
  | .servo m => ⟨2, m.payload 0⟩
  | .wdata symbols => ⟨1, (List.range 16).foldl (fun v i => v * 16 + symbols.getD i 0 % 16) 0⟩
  | .msg m part => ⟨2, m.payload part⟩

/-! ## Header, CRC and the line -/

/-- The bytes of a payload in transmission order, bit 63 first. -/
def beBytes (n v : Nat) : List Nat := (natBytes n v).reverse

/-- The CRC of a frame from its header's upper half and its 24 payload blocks (R60); the order of the bits within it is
log entry 141. -/
def frameCrc (hdr : Block) (blocks : List Block) : Nat :=
  crc32c (beBytes 4 (hdr.payload / 2 ^ 32) ++ blocks.flatMap fun b => beBytes 8 b.payload)

/-- The header block of a D0 frame: LANE 0, the sender's state, and FCNT as f mod 2^16 (R58, R59). -/
def D0Frame.header (f : D0Frame) : Block :=
  ⟨2, 0xE1 * 2 ^ 56 + f.state % 8 * 2 ^ 51 + f.frame % 65536 * 2 ^ 32 + f.crc % 2 ^ 32⟩

/-- The 25 blocks of a D0 frame (R58). -/
def D0Frame.blocks (f : D0Frame) : List Block := f.header :: f.slots.map D0Slot.block

/-- The CRC that the next header carries for this frame (R60). -/
def D0Frame.sum (f : D0Frame) : Nat := frameCrc f.header (f.slots.map D0Slot.block)

/-- The self-synchronous x^58 + x^39 + 1 scrambler on bits in transmission order; its state holds the last 58 line bits, the
newest in bit 0 (R54). -/
def scramble (st : Nat) : List Bool → List Bool × Nat
  | [] => ([], st)
  | b :: rest =>
    let o := (b != testBitN st 38) != testBitN st 57
    let (line, st') := scramble ((st * 2 + bitOf o) % 2 ^ 58) rest
    (o :: line, st')

/-- A block on the line: its sync header, then its scrambled payload from bit 63 (R54). -/
def Block.line (st : Nat) (b : Block) : List Bool × Nat :=
  let (bits, st') := scramble st ((List.range 64).map fun i => testBitN b.payload (63 - i))
  (testBitN b.sync 1 :: testBitN b.sync 0 :: bits, st')

/-- The 1,650 line bits of a frame and the state that they leave the scrambler in (R54, R58). -/
def D0Frame.line (st : Nat) (f : D0Frame) : List Bool × Nat :=
  f.blocks.foldl (fun (acc : List Bool × Nat) b =>
    let (bits, st') := b.line acc.2
    (acc.1 ++ bits, st')) (([] : List Bool), st)

/-- The PAM4 levels of line bits: pairs 00, 01, 11 and 10 are −3, −1, +1 and +3, the earlier bit the more significant
(R54). -/
def pam4 : List Bool → List Int
  | a :: b :: rest =>
    (match a, b with
     | false, false => -3
     | false, true => -1
     | true, true => 1
     | true, false => 3) :: pam4 rest
  | _ => []

/-! ## The frame under way -/

/-- The first payload position of frame f whose transmission has not begun at a tick: block j of 25 begins 48·j/25 ticks after
tick 48·f (R58). -/
def D0Frame.begun (f : D0Frame) (now : Stamp) : Nat :=
  ((List.range 24).filter fun i => decide (48 * (i + 1) < 25 * (now - 48 * f.frame))).length

/-- A servo SETPT put into positions that have not begun: behind those that hold one already, ahead of everything else, which
moves on; what leaves the frame is the second part (R173). -/
def putServo (m : Msg) : List D0Slot → List D0Slot × List D0Slot
  | [] => ([], [.servo m])
  | .servo x :: rest =>
    let (a, b) := putServo m rest
    (.servo x :: a, b)
  | .idle :: rest => (.servo m :: rest, [])
  | x :: rest => (.servo m :: pushSlot x rest, lastPushed x rest)
where
  /-- An item moves on: it takes the next position, and what it finds there moves on in turn, up to an idle one. -/
  pushSlot (x : D0Slot) : List D0Slot → List D0Slot
    | [] => []
    | .idle :: rest => x :: rest
    | y :: rest => x :: pushSlot y rest
  /-- What leaves the frame when an item moves on. -/
  lastPushed (x : D0Slot) : List D0Slot → List D0Slot
    | [] => [x]
    | .idle :: _ => []
    | y :: rest => lastPushed y rest

/-- A servo SETPT reaches the link while a frame is under way (R173): it takes the first position not begun, or waits for the
next frame. -/
def Link.placeServo (l : Link) (now : Stamp) (m : Msg) : Link :=
  match l.d0 with
  | none => { l with servoQ := l.servoQ ++ [m] }
  | some f =>
    let k := f.begun now
    match putServo m (f.slots.drop k) with
    | (slots, [.servo x]) => { l with d0 := some { f with slots := f.slots.take k ++ slots }, servoQ := l.servoQ ++ [x] }
    | (slots, out) => { l with d0 := some { f with slots := f.slots.take k ++ slots }, displaced := out ++ l.displaced }

end Sys2Proof.Machine
end

