-- ==== Sys2Proof/Machine/LoopOps.lean ====
section
/-!
DEFINITION. Machine/LoopOps.lean: the loop engine's slots as the other islands act on them: reading a slot's
registers, final set-points, holds and disabling, and the end of a head sequence (R165 to R189).
-/

namespace Sys2Proof.Machine

/-- A slot, and a slot changed. -/
def State.slot (s : State) (k : Fin 96) : Slot := s.loop.slots[k]
def State.modSlot (s : State) (k : Fin 96) (f : Slot → Slot) : State :=
  { s with loop := { s.loop with slots := s.loop.slots.set k (f s.loop.slots[k]) } }

/-- What the engine keeps for a head, and that changed. -/
def State.loopHead (s : State) (n : Fin 16) : LoopHead := s.loop.heads[n]
def State.modLoopHead (s : State) (n : Fin 16) (f : LoopHead → LoopHead) : State :=
  { s with loop := { s.loop with heads := s.loop.heads.set n (f s.loop.heads[n]) } }

/-- A field of a slot's configuration. -/
def slotCfg (s : State) (k : Fin 96) (p : FieldPos) : Nat := s.fld (R.LP_SLOT_CFG k.val) p

/-- The slot is bound to the spindle (R165, R172). -/
def slotSpindle (s : State) (k : Fin 96) : Bool := slotCfg s k F.LP_SLOT_CFG_SPINDLE != 0

/-- The head a slot is bound to; a spindle slot has none. -/
def slotHead (s : State) (k : Fin 96) : Option (Fin 16) :=
  if slotSpindle s k then none else some (Fin.ofNat 16 (slotCfg s k F.LP_SLOT_CFG_HEAD))

/-- A node word of a slot, split into its fields (Table 8-29). -/
structure NodeWord where
  type : Nat
  a    : Nat
  b    : Nat
  c    : Nat
  arg  : Nat
  deriving DecidableEq, Repr

/-- Node j of a slot. -/
def nodeWord (s : State) (k : Fin 96) (j : Nat) : NodeWord :=
  let w := s.reg (R.LP_NODE k.val j)
  ⟨getField w F.LP_NODE_TYPE, getField w F.LP_NODE_A, getField w F.LP_NODE_B,
    getField w F.LP_NODE_C, getField w F.LP_NODE_ARG⟩

/-- The 24 nodes of a slot. -/
def slotNodes (s : State) (k : Fin 96) : List NodeWord := (List.range 24).map (nodeWord s k)

/-- Multiply-accumulates of a node type (Table 8-1). -/
def nodeMacs : Nat → Nat
  | 2 => 1 | 4 => 5 | 5 => 1 | 0xA => 2 | 0xB => 4 | 0xD => 1 | 0xE => 1 | 0xF => 60 | _ => 0

/-- COST of a slot: 4 + Σ (1 + MACs) over its non-NOP nodes (R164). -/
def slotCost (nodes : List NodeWord) : Nat :=
  4 + (nodes.map fun w => if w.type = 0 then 0 else 1 + nodeMacs w.type).sum

/-- A quadrant source of Table 8-2. -/
def isQuadSource (src : Nat) : Bool := 1 ≤ src && src ≤ 5

/-- An IN node's source (Table 8-30). -/
def inSource (w : NodeWord) : Nat := w.arg % 512

/-- A servo slot has an IN node with a quadrant source (R164). -/
def isServo (nodes : List NodeWord) : Bool := nodes.any fun w => w.type == 1 && isQuadSource (inSource w)

/-- Hand a SETPT to a head island: a servo slot's takes the first D0 position not begun (R173), and while the link is not UP
or DEGRADED the head island discards it (R172). -/
def State.sendSetpt (s : State) (n : Fin 16) (servo : Bool) (act : Nat) (v : Int) : State :=
  let l := (s.head n).link
  if l.state = .up ∨ l.state = .degraded then
    s.modHead n fun h =>
      if servo then { h with link := h.link.placeServo s.now (.setpt act v) }
      else { h with link := { h.link with queue := h.link.queue ++ [⟨.setpt act v, s.now, false⟩] } }
  else s

/-- The value that the slot's first OUT node sent last is now 0, where that node drives an actuator (Table 8-2, R174). -/
def State.zeroLastOut (s : State) (k : Fin 96) : State :=
  match (slotNodes s k).find? fun w => w.type == 0xD with
  | some w => if w.arg % 256 ≤ 4 then s.modSlot k fun x => { x with lastOut := 0 } else s
  | none => s

/-- On entry to DISABLED a slot sends 0 for every actuator it drives: each OUT node with destination 0x00 to 0x04,
and all 24 laser codes of an APC node (R174). -/
def State.finalSetpoints (s : State) (k : Fin 96) : State :=
  match slotHead s k with
  | none => s
  | some n =>
    let nodes := slotNodes s k
    (s.zeroLastOut k) |> nodes.foldl (fun t w =>
      if w.type = 0xD ∧ w.arg % 256 ≤ 4 then t.sendSetpt n (isServo nodes) (w.arg % 256) 0
      else if w.type = 0xF then
        ((List.range 12).map (0x10 + ·) ++ (List.range 12).map (0x20 + ·)).foldl
          (fun u code => u.sendSetpt n (isServo nodes) code 0) t
      else t)

/-- A coefficient word with its sign extension (R167). -/
def coefWord (v : Nat) : Word := BitVec.ofNat 32 (ofSigned (toSigned v 24) 32)

/-- The coefficient writes that wait apply, in order of arrival (R177). -/
def State.applyCoefs (s : State) (k : Fin 96) : State :=
  let s := (s.slot k).coefPend.foldl (fun t (i, v) => t.setReg (R.LP_COEF k.val i) (coefWord v)) s
  s.modSlot k fun x => { x with coefPend := [] }

/-- The run of low executions of R182 starts anew when the focus slot of a head changes state. -/
def State.restartLost (s : State) (k : Fin 96) : State :=
  match slotHead s k with
  | some n =>
    if s.fld (R.LP_HEAD_MAP n.val) F.LP_HEAD_MAP_FOCUS_SLOT = k.val then s.modLoopHead n fun h => { h with lostRun := 0 } else s
  | none => s

/-- A slot's entry to DISABLED: nothing of its admission or requests is left (R165, R174), and coefficient writes that wait
apply, as a write to a DISABLED slot does (R177). -/
def State.disableSlot (s : State) (k : Fin 96) : State :=
  let s := if (s.slot k).st = .disabled then s else s.finalSetpoints k
  ((s.applyCoefs k).restartLost k).modSlot k fun x => { x with
    st := .disabled, req := none, clear := false, reserved := false, hwHold := false, memHold := false,
    resid := 0, sat := 0, override := false, rampDone := false }

/-- The slots bound to a head. -/
def headSlots (s : State) (n : Fin 16) : List (Fin 96) :=
  (List.finRange 96).filter fun k => slotHead s k == some n

/-- The focus and tracking slots that LP_HEAD_MAP names (R182). -/
def focusSlot (s : State) (n : Fin 16) : Option (Fin 96) :=
  let k := s.fld (R.LP_HEAD_MAP n.val) F.LP_HEAD_MAP_FOCUS_SLOT
  if h : k < 96 then some ⟨k, h⟩ else none
def trackSlot (s : State) (n : Fin 16) : Option (Fin 96) :=
  let k := s.fld (R.LP_HEAD_MAP n.val) F.LP_HEAD_MAP_TRACK_SLOT
  if h : k < 96 then some ⟨k, h⟩ else none

/-- A hardware cause asks for HOLD of a slot at its next execution start (R175); a DISABLED slot has none. -/
def State.hwHoldSlot (s : State) (k : Fin 96) : State :=
  s.modSlot k fun x => { x with hwHold := x.hwHold || x.st != .disabled }

/-- The persistent link cause of Table 8-6 stands for a slot: that of the head to which it is bound now. -/
def State.linkHolds (s : State) (k : Fin 96) : Bool :=
  match slotHead s k with
  | some n => (s.head n).link.faultHold
  | none => false

/-- Every slot of a head is put in hold, for as long as the link's cause lasts (Table 8-6, R78). -/
def State.linkHoldSlots (s : State) (n : Fin 16) : State :=
  let s := s.modHead n fun h => { h with link := { h.link with faultHold := true } }
  (headSlots s n).foldl (fun t k => t.hwHoldSlot k) s

/-- The persistent link cause ends once the link is UP or DEGRADED with ALIGNED = 1 (Table 8-6). -/
def State.linkReleaseSlots (s : State) (n : Fin 16) : State :=
  s.modHead n fun h => { h with link := { h.link with faultHold := false } }

/-- Every slot of a head is disabled, as when it leaves service (R14, R174). -/
def State.disableHeadSlots (s : State) (n : Fin 16) : State :=
  (headSlots s n).foldl (fun t k => t.disableSlot k) s

/-- The code of a link state (Table 4-8). -/
def linkCode : LinkState → Nat
  | .down => 0 | .train => 1 | .up => 2 | .degraded => 3 | .fault => 4

/-- The number of a sequence in events and LP_SEQ_STATUS (Table 8-10). -/
def seqNumber : SeqKind → Nat
  | .focus _ => 1 | .layerJump _ => 2 | .trackOn => 3 | .seamJump _ => 4

/-- The slot that a sequence overrides, or requests to RUN. -/
def seqSlot (s : State) (n : Fin 16) : SeqKind → Option (Fin 96)
  | .focus _ | .layerJump _ => focusSlot s n
  | .trackOn | .seamJump _ => trackSlot s n

/-- The end of a head's sequence: the override ends, event 0x4006 is logged and the result goes to the bobbin, or
to the HD.SEEK that runs it (R184). -/
def State.endSequence (s : State) (n : Fin 16) (result : Nat) : State :=
  match (s.loopHead n).seq with
  | none => s
  | some q =>
    let s := match seqSlot s n q.kind with
      | some k => s.modSlot k fun x => { x with override := false }
      | none => s
    let s := s.modLoopHead n fun h => { h with seq := none }
    let s := s.setFld (R.LP_SEQ_STATUS n.val) F.LP_SEQ_STATUS_RESULT result
    let s := s.setFld (R.LP_SEQ_STATUS n.val) F.LP_SEQ_STATUS_RUNNING 0
    let s := s.log srcLoop .control 0x4006 n.val (seqNumber q.kind) result (s.now - q.t0)
    match q.who with
    | some w => s.complete w .device srcLoop (s.stamp .control) result 0
    | none => s.modHead n fun h => { h with seek := h.seek.map fun k => { k with note := some result } }

end Sys2Proof.Machine
end

