-- ==== Sys2Proof/Machine/HeadOps.lean ====
section
/-!
DEFINITION. Machine/HeadOps.lean: what several chapters do to a head island: queueing a downlink message (R69,
R370), HD_LEN (R159, R162), the write slots of a pass and their voids (R147, R150, R153), hems (R33 to R35), the loss
of the link (R78, R237), and a head leaving service (R14, R352).
-/

namespace Sys2Proof.Machine

/-- A head's link, pass and beams changed. -/
def State.modLink (s : State) (n : Fin 16) (f : Link → Link) : State :=
  s.modHead n fun h => { h with link := f h.link }
def State.modPass (s : State) (n : Fin 16) (f : Pass → Pass) : State :=
  s.modHead n fun h => { h with pass := h.pass.map f }
def State.modBeam (s : State) (n : Fin 16) (b : Fin 12) (f : Beam → Beam) : State :=
  s.modHead n fun h => { h with beams := h.beams.set b (f h.beams[b]) }

/-! ## Downlink messages -/

/-- The link carries messages: UP or DEGRADED. -/
def Link.usable (l : Link) : Bool := l.state == .up || l.state == .degraded

/-- A message joins the queue of a usable link, and is discarded otherwise (R69, R370). -/
def State.sendMsg (s : State) (n : Fin 16) (m : Msg) : State :=
  if (s.head n).link.usable then s.modLink n fun l => { l with queue := l.queue ++ [⟨m, s.now, false⟩] } else s

/-- A SAFE asked for: queued, held for the training's first messages, covered by the SAFE of entry to FAULT, or
discarded in DOWN (R370). -/
def State.sendSafe (s : State) (n : Fin 16) : State :=
  match (s.head n).link.state with
  | .up | .degraded => s.sendMsg n .safe
  | .train => s.modLink n fun l => { l with training := l.training.map fun t => { t with safe := true } }
  | .fault | .down => s

/-- The number of the D0 frame that launches next (R58). -/
def State.nextFrame (s : State) : Nat := s.now / 48 + 1

/-- The earliest tick at which a WSTOP sent now stops the beams (R72). -/
def State.earliestStop (s : State) : Stamp := 48 * (s.nextFrame + 2)

/-! ## The writes of a backstitch pass -/

/-- The step direction of the pass: +1 outward, −1 inward. -/
def PassDesc.sigma (d : PassDesc) : Int := if d.inward then -1 else 1

/-- The track under b0 in revolution k of a backstitch pass, k from 1 (R150). -/
def Pass.trackB0 (p : Pass) (k : Nat) : Int :=
  12 * (p.desc.start : Int) - 6 * p.desc.sigma + 6 * p.desc.sigma * ((k : Int) - 1)

/-- The first beam of the writing and of the verifying half (Table 7-6). -/
def Pass.writeBeam (p : Pass) : Nat := if p.desc.inward then 0 else 6
def Pass.verifyBeam (p : Pass) : Nat := if p.desc.inward then 6 else 0

/-- The six (beam, track) pairs that revolution k writes. -/
def Pass.writeTracks (p : Pass) (k : Nat) : List (Nat × Nat) :=
  (List.range 6).map fun i => (p.writeBeam + i, (p.trackB0 k + p.writeBeam + i).toNat)

/-- The mask of the writing half. -/
def Pass.writeMask (p : Pass) : Nat := if p.desc.inward then 0x03F else 0xFC0

/-- The band of the pass, counting from 0, that revolution k writes. -/
def Pass.bandOfRev (p : Pass) (k : Nat) : Nat :=
  if p.desc.inward then p.desc.start - (k - 1) / 2 else p.desc.start + (k - 1) / 2

/-- The write revolution in progress. -/
def Pass.rev1 (p : Pass) : Nat := p.rev + 1

/-- The predicted write ticks of the first and the last symbol of a slot in the revolution now under the beams. -/
def slotTicks (s : State) (n : Fin 16) (slot : Nat) : Option (Stamp × Stamp) :=
  let rev := revNow (s.head n)
  match predictBit s n rev (slot * slotBits), predictBit s n rev (slot * slotBits + slotBits - 1) with
  | some a, some b => some (a, b)
  | _, _ => none

/-- The slots of the present write revolution: band descriptor and entry. -/
def Pass.revSlots (p : Pass) : List (BandDesc × SlotEntry) :=
  let tracks := (p.writeTracks p.rev1).map (·.2)
  p.bandDescs.flatMap fun d => (d.slots.filter fun e => tracks.contains e.track).map fun e => (d, e)

/-- A slot entry of the pass changed. -/
def Pass.modSlot (p : Pass) (band track slot : Nat) (f : SlotEntry → SlotEntry) : Pass :=
  { p with bandDescs := p.bandDescs.map fun d =>
      if d.band = band then
        { d with slots := d.slots.map fun e => if e.track = track ∧ e.slot = slot then f e else e }
      else d }

/-- Symbols that the model of the front end's write oscillator has consumed by a tick, in 2^-32 channel bits of the track
from unit 993 (R70, R148). -/
def WriteRev.consumedAt (w : WriteRev) (t : Stamp) : Nat :=
  match w.rates.find? fun r => decide (r.1 ≤ t) with
  | some (a, inc, c) => c + inc * (t - a)
  | none => (w.rates.getLastD (0, 0, 0)).2.2

/-- The tick at which the model consumes a symbol, counted from unit 993; none while no increment consumes it (R148). -/
def WriteRev.tickOf (w : WriteRev) (sym : Nat) : Option Stamp :=
  match w.rates.find? fun r => decide (r.2.2 ≤ sym * 2 ^ 32) with
  | some (a, inc, c) => if inc = 0 then none else some (a + ceilDiv (sym * 2 ^ 32 - c) inc)
  | none => none

/-- The symbol with which the stream begins. -/
def WriteRev.firstSymbol (w : WriteRev) : Nat := (w.rates.getLastD (0, 0, 0)).2.2 / 2 ^ 32

/-- The symbols that carry a slot's first and last channel bit, counted from unit 993 (R40, R145). -/
def slotSymbols (u slot : Nat) : Nat × Nat :=
  (dataToPhys (slot * slotBits) u - 993 * u, dataToPhys (slot * slotBits + slotBits - 1) u - 993 * u)

/-- The ticks at which a slot's first and last symbol are written, by the model of the write oscillator (R148). -/
def writeTicks (s : State) (n : Fin 16) (w : WriteRev) (slot : Nat) : Option (Stamp × Stamp) :=
  let (i, j) := slotSymbols (fmtU (fmtNow s n) (bandNow (s.head n))) slot
  match w.tickOf i, w.tickOf j with
  | some a, some b => if w.firstSymbol ≤ i then some (a, b) else none
  | _, _ => none

/-- Slots whose symbols have begun or been written completely by tick t are marked, and completed ones counted in
HD_WR_CNT (R147); the stream is over once its WSTOP's tick has passed. -/
def State.settleWrites (s : State) (n : Fin 16) (t : Stamp) : State :=
  match (s.head n).pass with
  | none => s
  | some p =>
    match p.writeRev with
    | none => s
    | some w =>
      if !w.writing then s
      else
        let upto := min t w.stopAt
        let s := (p.revSlots).foldl (fun s (d, e) =>
          if !e.write || e.isVoid || e.done || e.cut then s
          else match writeTicks s n w e.slot with
            | none => s
            | some (a, b) =>
              let s := if a ≤ upto then
                  s.modPass n fun p => p.modSlot d.band e.track e.slot fun e => { e with started := true }
                else s
              if b ≤ upto then
                (s.modPass n fun p => p.modSlot d.band e.track e.slot fun e => { e with done := true }).bump
                  (R.HD_WR_CNT n.val) F.HD_WR_CNT_WRITTEN 1
              else s) s
        let ended (w : WriteRev) : WriteRev := { w with writing := decide (t ≤ w.stopAt) }
        s.modPass n fun p => { p with writeRev := p.writeRev.map ended }

/-- Where a slot's entry lies in its descriptor (R140). -/
def entryAddr (d : BandDesc) (slots track slot : Nat) : Nat := d.addr + 64 + (track % 12 * slots + slot) * 32

/-- A WRITE slot becomes void: VOID in its entry, VOIDS, and HD_WR_CNT.VOIDED (R153). -/
def State.voidSlot (s : State) (n : Fin 16) (d : BandDesc) (e : SlotEntry) (cause : Nat) : State :=
  let u := fmtU (fmtNow s n) d.band
  let a := entryAddr d (slotsOf u) e.track e.slot
  let s := s.memWrite 1 (a + 7) [(s.memByte (a + 7)).toNat ||| 4]
  let voids := (s.memByte (d.addr + 17)).toNat
  let s := s.memWrite 1 (d.addr + 17) [min 255 (voids + 1)]
  let s := s.bump (R.HD_WR_CNT n.val) F.HD_WR_CNT_VOIDED 1
  let addr := match (s.head n).pass with
    | some p => addressWord p.desc.layer e.track e.slot
    | none => 0
  let count (w : WriteRev) : WriteRev :=
    { w with voided := w.voided + 1, firstVoid := some (w.firstVoid.getD (addr, cause)) }
  s.modPass n fun p =>
    let p := p.modSlot d.band e.track e.slot fun e => { e with isVoid := true }
    { p with writeRev := p.writeRev.map count }

/-- The write sector of a slot is recorded as cut (R33, R74, R149): outcome 6 with no data. -/
def State.recordCut (s : State) (n : Fin 16) (p : Pass) (e : SlotEntry) (t : Stamp) (o : SecOutcome) : State :=
  let beam := match (p.writeTracks p.rev1).find? fun x => x.2 == e.track with
    | some (b, _) => b
    | none => 0
  s.emitRecord ⟨sectorRecord t (addressWord p.desc.layer e.track e.slot) n.val beam (outcomeCode o) 7 p.no e.group
    e.member SecInfo.none false false 0 0, n.val, p.no, false, none⟩

/-- Writing stops at tick t, with a last symbol at `last`: slots in progress at t are cut and void, and every later WRITE slot
of the revolution becomes void too. What is written completely by `last` still counts when its tick comes. -/
def State.stopWrites (s : State) (n : Fin 16) (t last : Stamp) (cause : Nat) : State :=
  let s := s.settleWrites n (min s.now last)
  match (s.head n).pass with
  | none => s
  | some p =>
    match p.writeRev with
    | none => s
    | some w =>
      if !w.writing then s
      else
        let s := p.revSlots.foldl (fun s (d, e) =>
          if !e.write || e.isVoid || e.done || e.cut then s
          else match writeTicks s n w e.slot with
            | some (a, b) =>
              if b ≤ last then s
              else if a ≤ t then
                ((s.recordCut n p e t .cut).modPass n fun p =>
                  p.modSlot d.band e.track e.slot fun e => { e with cut := true }).voidSlot n d e cause
              else s.voidSlot n d e cause
            | none => s.voidSlot n d e cause) s
        let stop (w : WriteRev) : WriteRev :=
          { w with writing := decide (s.now ≤ last), stopAt := min w.stopAt last, stopSent := true, due := false }
        s.modPass n fun p => { p with writeRev := p.writeRev.map stop }

/-- Stop the writing half with a WSTOP at the earliest tick that R72 allows (R148, R149). -/
def State.gateStop (s : State) (n : Fin 16) (cause : Nat) : State :=
  match (s.head n).pass with
  | none => s
  | some p =>
    let t := s.earliestStop
    (s.sendMsg n (.wstop p.writeMask t)).stopWrites n t t cause

/-- The pass writes now. -/
def Head.writingNow (h : Head) : Bool :=
  match h.pass with
  | some p => match p.writeRev with
    | some w => w.writing
    | none => false
  | none => false

/-- Event 0x1207 at the end of a write revolution in which slots became void (R153). -/
def State.reportVoids (s : State) (n : Fin 16) : State :=
  match (s.head n).pass.bind (·.writeRev) with
  | some w =>
    match w.firstVoid with
    | some (a, c) =>
      let clear (w : WriteRev) : WriteRev := { w with voided := 0, firstVoid := none }
      (s.logHead n 0x1207 a c w.voided).modPass n fun p => { p with writeRev := p.writeRev.map clear }
    | none => s
  | none => s

/-- Event 0x1206: writing stopped by the gate, with the slots it voided (R149). -/
def State.gateEvent (s : State) (n : Fin 16) (cause : Nat) (stamp : Stamp) (before : Nat) : State :=
  let now := ((s.head n).pass.bind (·.writeRev)).elim 0 (·.voided)
  s.logHead n 0x1206 cause (stamp % 2 ^ 32) (now - before)

/-- The tick of the last symbol before the next sector boundary of the write stream, or the earliest stop where none comes
(R149). -/
def State.boundaryStop (s : State) (n : Fin 16) : Stamp :=
  match (s.head n).pass.bind (·.writeRev) with
  | none => s.earliestStop
  | some w =>
    let u := fmtU (fmtNow s n) (bandNow (s.head n))
    let ends := (List.range (slotsOf u)).filterMap fun k => (writeTicks s n w k).map (·.2)
    (ends.find? fun b => decide (s.now ≤ b)).getD s.earliestStop

/-- A gate condition fails in a write revolution: the flywheel (0) and the dropout flag (1) stop at the earliest
WSTOP, the derate factor (2) at the next sector boundary (Table 7-5). -/
def State.gateFails (s : State) (n : Fin 16) (cause : Nat) : State :=
  if !(s.head n).writingNow then s
  else
    let before := ((s.head n).pass.bind (·.writeRev)).elim 0 (·.voided)
    let s := if cause = 2 then
        let t := s.boundaryStop n
        match (s.head n).pass with
        | some p => (s.sendMsg n (.wstop p.writeMask t)).stopWrites n t t 1
        | none => s
      else s.gateStop n 1
    s.gateEvent n cause s.now before

/-! ## Hems -/

/-- Sectors in flight, whose samples have not all arrived. -/
def Sector.arriving (x : Sector) (h : Stamp) : Bool :=
  match x.lastSample with
  | none => true
  | some t => h ≤ t

/-- Replays of a head whose sector is among those given are cancelled without a soft erase (R104). -/
def State.cancelReplays (s : State) (n : Fin 16) (gone : List Nat) : State :=
  s.modHead n fun h => { h with
    replayQ := h.replayQ.filter fun r => !(gone.contains r.sector)
    lanes := h.lanes.map fun l => match l with
      | some j => if gone.contains j.job.sector then none else some j
      | none => none }

/-- Beams forget the sectors that left, and what they staged of them. -/
def State.dropBeamSectors (s : State) (n : Fin 16) (gone : List Nat) : State :=
  s.modHead n fun h => { h with
    beams := h.beams.map fun b =>
      { b with sector := b.sector.filter fun i => !gone.contains i
               intervals := b.intervals.filter fun x => !gone.contains x.sector } }

/-- Sectors of a head are queued for re-read and leave every place that holds them (R33, R77, R122). -/
def State.requeue (s : State) (n : Fin 16) (xs : List Sector) : State :=
  let ids := xs.map (·.id)
  ((s.cancelReplays n ids).dropBeamSectors n ids).withdrawSectors xs

/-- The cut point of a hem at h, and whether it cuts what is in flight at h (R33, R35): the next boundary where it comes soon,
or an abort's stopping point if that is earlier; c = h where the cause forces it, where no boundary comes within 150 µs, and
where the flywheel gives no boundary (log entry 140). -/
def hemCut (s : State) (n : Fin 16) (h : Stamp) (forced : Bool) : Stamp × Bool :=
  if forced then (h, true)
  else
    let stop := match (s.head n).pass with
      | some p => ((p.aborts.map (·.2)).filter fun a => decide (h ≤ a)).min?
      | none => none
    let next := match nextBoundary s n h with
      | some b => if b < h + 225000 then some b else none
      | none => none
    match next, stop with
    | some b, some a => (min b a, false)
    | some b, none => (b, false)
    | none, some a => if a < h + 225000 then (a, false) else (h, true)
    | none, none => (h, true)

/-- The tick of the write stream's last symbol before a cut point at a sector boundary: the end of the slot whose end lies
nearest to it (R33, R148). -/
def State.lastBefore (s : State) (n : Fin 16) (c : Stamp) : Stamp :=
  match (s.head n).pass.bind (·.writeRev) with
  | none => c
  | some w =>
    let u := fmtU (fmtNow s n) (bandNow (s.head n))
    let ends := (List.range (slotsOf u)).filterMap fun k => (writeTicks s n w k).map (·.2)
    let apart (b : Stamp) : Nat := ((b : Int) - (c : Int)).natAbs
    ends.foldl (fun m b => if apart b < apart m then b else m) (ends.headD c)

/-- A hem starts (step 1 of R33), or a request joins the one in progress (R35). With no pass open nothing happens. -/
def State.hemRequest (s : State) (n : Fin 16) (h : Stamp) (forced : Bool) (who : List Waiter) : State :=
  match (s.head n).pass with
  | none => s
  | some p =>
    match p.hem with
    | some m => s.modPass n fun p => { p with hem := some { m with waiters := m.waiters ++ who } }
    | none =>
      let (c, cuts) := hemCut s n h forced
      let m : Hem := { h := h, cut := c, forced := forced, withdrawn := false, writingBack := false, waiters := who }
      let s := s.modPass n fun p => { p with hem := some m }
      let writing := (s.head n).writingNow
      if cuts then
        let s := if writing then s.sendMsg n (.wstop p.writeMask s.earliestStop) else s
        (s.requeue n (s.openSectors n.val p.no fun x => x.arriving h)).stopWrites n h (h - 1) 0
      else if writing then
        let last := s.lastBefore n c
        (s.sendMsg n (.wstop p.writeMask last)).stopWrites n c last 0
      else s

/-! ## HD_LEN -/

/-- The level of HD_LEN (Table 7-17). -/
def State.hdLen (s : State) (n : Fin 16) : Bool := s.flag (R.HD_LASER_STATUS n.val) F.HD_LASER_STATUS_LEN

/-- The link's ALIGNED flag (Table 4-13). -/
def State.aligned (s : State) (n : Fin 16) : Bool := s.flag (R.TL_STATUS n.val) F.TL_STATUS_ALIGNED

/-- Every condition of R159 holds, and no supply group has been lost, which gates every HD_LEN low (R347). -/
def State.lenAllowed (s : State) (n : Fin 16) : Bool :=
  s.headInService n.val && (s.head n).link.usable && s.aligned n && !s.pins.inhLow &&
  s.fld R.SYS_DOMAIN_FAIL F.SYS_DOMAIN_FAIL_SUPPLY == 0 &&
  !s.flag (R.HD_LASER_STATUS n.val) F.HD_LASER_STATUS_INH_LATCH &&
  s.flag (R.HD_LASER_CTRL n.val) F.HD_LASER_CTRL_LEN_EN

/-- HD_LEN brought to the level that R159 gives it; a fall with a pass open requests a hem with h at the stamp of the
fall and c = h (R162), and ends a focus acquisition, layer jump or track-on (R189). -/
def State.updateLen (s : State) (n : Fin 16) (stamp : Stamp) : State :=
  let want := s.lenAllowed n
  if want = s.hdLen n then s
  else
    let s := s.setFld (R.HD_LASER_STATUS n.val) F.HD_LASER_STATUS_LEN (bitOf want)
    let s := { s with out := .hdLen n.val want :: s.out }
    if want then s
    else
      let s := match (s.loopHead n).seq with
        | some q => if seqNumber q.kind = 4 then s else s.endSequence n 1
        | none => s
      s.hemRequest n stamp true []

/-! ## Loss of the link -/

/-- The state of an HD.SEEK's answer: the track reached. -/
def trackReached (s : State) (n : Fin 16) : Nat :=
  match (s.head n).fly.expected with
  | some (_, t) => t
  | none => 0

/-- CEIL for a claim u (R220). -/
def ceilOf (u : Nat) : Nat := if u = 0 then 100 else min 100 (1440000000 / (63488 * u))

/-- Claims brought into SP_GOV: CEIL from the largest claim, and TARGET, which a controlled stop forces to 20
(R216, R220). -/
def State.updateGov (s : State) : State :=
  let us := (s.motion.claims ++ s.motion.waiting).map (·.2)
  let ceil := ceilOf (us.foldl max 0)
  let dem := s.fld R.SP_GOV F.SP_GOV_DEMAND
  let target := if s.motion.spin.st = .stopping then 20 else max 20 (min dem ceil)
  (s.setFld R.SP_GOV F.SP_GOV_CEIL ceil).setFld R.SP_GOV F.SP_GOV_TARGET target

/-- The claim of a waiting open is withdrawn (R221). -/
def State.dropOpenClaim (s : State) (n : Fin 16) : State :=
  { s with motion := { s.motion with waiting := s.motion.waiting.filter fun (c : Nat × Nat) => c.1 != n.val } }.updateGov

/-- The asynchronous head instructions in progress end as the link leaves UP and DEGRADED (R237). -/
def State.endHeadWork (s : State) (n : Fin 16) : State :=
  let h := s.head n
  let s := match h.opening with
    | some o => ((s.modHead n fun h => { h with opening := none }).dropOpenClaim n).completeHead n o.who 6 0
    | none => s
  let s := h.fe.foldl (fun t f => t.completeHead n f.who 6 0) s
  let s := s.modHead n fun h => { h with fe := [] }
  let s := if (s.loopHead n).seq.isSome then s.endSequence n 7 else s
  match (s.head n).seek with
  | some k => (s.modHead n fun h => { h with seek := none }).completeHead n k.who 7 (trackReached s n)
  | none => s

/-- What a usable link loses: instructions in progress, slots to hold, the pass by a forced hem, messages held for
resend, and HD_LEN (R78, R237, R370). -/
def State.linkLost (s : State) (n : Fin 16) (entry : Stamp) : State :=
  let s := s.endHeadWork n
  let s := s.modLink n fun l => { l with
    queue := [], servoQ := [], displaced := [], held := [], side := [], sent := [], asks := [] }
  let s := s.linkHoldSlots n
  let s := s.hemRequest n entry true []
  s.updateLen n entry

/-- A link state is entered: the tick, and the state that it leaves (Table 4-9). -/
def Link.enter (l : Link) (now : Stamp) (st : LinkState) (asked : Bool) : Link :=
  { l with state := st, since := now, prev := l.state, asked := asked }

/-- The order in which causes of one clock are reported (R76): slip, PLL lock, D0 lock, STAT missing, second lane. -/
def faultRank : Nat → Nat
  | 4 => 0 | 2 => 1 | 1 => 2 | 3 => 3 | 0 => 4 | _ => 5

/-- The link may take a fault now: it is usable, or it left UP or DEGRADED in this same tick, for FAULT or by a command
(R76: of two conditions of one clock, the transition lower in Table 4-9). -/
def Link.faultable (l : Link) (now : Stamp) : Bool :=
  l.usable || (l.since == now && (l.prev == .up || l.prev == .degraded) &&
    (l.state == .fault || (l.state == .train && l.asked)))

/-- A further condition of the tick in which the link entered FAULT: the event that still waits names the first of them in
R76's order. -/
def State.recause (s : State) (n : Fin 16) (cause : Nat) : State :=
  let x := s.xing n.val
  let fix (r : EventRec) : EventRec :=
    if r.code = 0x2005 ∧ s.now ≤ r.stamp + 1 ∧ faultRank cause < faultRank r.a1 then { r with a1 := cause } else r
  s.setXing n.val { x with queue := x.queue.map fix }

/-- Entry to FAULT (R78, R370): the losses, one SAFE, and event 0x2005 with its cause. A slip clears ALIGNED
(Table 4-13). -/
def State.linkFault (s : State) (n : Fin 16) (cause : Nat) : State :=
  let entry := s.stamp (.head n)
  let s := if cause = 4 then s.setFld (R.TL_STATUS n.val) F.TL_STATUS_ALIGNED 0 else s
  if (s.head n).link.state = .fault then s.recause n cause
  else
    let s := s.modLink n fun l => { l.enter s.now .fault false with training := none }
    let s := s.linkLost n entry
    let s := s.modLink n fun l => { l with queue := l.queue ++ [⟨.safe, s.now, false⟩] }
    s.logHead n 0x2005 cause

/-- Entry to DOWN (Table 4-9, R78): from UP, DEGRADED or FAULT it has the effects of FAULT without its event. D0 is in
electrical idle (R370). -/
def State.linkDown (s : State) (n : Fin 16) : State :=
  let entry := s.stamp (.head n)
  let was := (s.head n).link.state
  let s := s.modLink n fun l => { l.enter s.now .down false with training := none, lanes := Vector.replicate 4 Lane.off }
  let s := s.setFld (R.TL_STATUS n.val) F.TL_STATUS_ALIGNED 0
  let s := if was = .up ∨ was = .degraded ∨ was = .fault then s.linkLost n entry else s
  s.modLink n fun l => { l with
    queue := [], servoQ := [], held := [], displaced := [], d0 := none, asks := [] }

/-! ## Leaving service -/

/-- Steps 3 and 4 of R352: the head's domain is isolated and switched off, and event 0x1001 is logged. -/
def State.finishLeaving (s : State) (n : Fin 16) : State :=
  match (s.head n).leaving with
  | none => s
  | some l =>
    let s := s.modHead n fun h => { h with leaving := none }
    let s := { s with domains := s.domains.set n.val { phase := .off, attempts := 0 } (by omega) }
    let on := s.fld R.SYS_DOMAIN F.SYS_DOMAIN_ON
    let s := s.setFld R.SYS_DOMAIN F.SYS_DOMAIN_ON (clearBitN on n.val)
    let cause := match l.cause with
      | .request => 0
      | .stampFault => 1
      | .powerLost => 2
    s.logAt srcCal s.now 0x1001 n.val cause (l.since % 2 ^ 32)

/-- Head n leaves service at stamp i (R14, R352): HD_LEN low, link DOWN, slots disabled, its bobbin halted, a hem with
c = h = i. With no pass open the domain is isolated at once. -/
def State.leaveService (s : State) (n : Fin 16) (cause : LeaveCause) (i : Stamp) (alive : Bool) : State :=
  if !s.headInService n.val then s
  else
    let m := s.fld R.SYS_HEAD_STATUS F.SYS_HEAD_STATUS_IN_SERVICE
    let s := s.setFld R.SYS_HEAD_STATUS F.SYS_HEAD_STATUS_IN_SERVICE (clearBitN m n.val)
    let s := s.modHead n fun h => { h with leaving := some ⟨i, cause, alive⟩ }
    let s := s.updateLen n i
    let s := s.linkDown n
    let s := s.modLink n fun l => { l with clock := false }
    let s := s.hemRequest n i true []
    let s := s.disableHeadSlots n
    let s := s.requestHalt ⟨n.val, by omega⟩ .hardware
    if (s.head n).pass.isSome then s else s.finishLeaving n

end Sys2Proof.Machine
end

