-- ==== Sys2Proof/Machine/Laser.lean ====
section
/-!
DEFINITION. Machine/Laser.lean: ceilings, the thermal derate and the interlock (R157 to R162).
-/

namespace Sys2Proof.Machine

/-- The derate factor F (R158). -/
def derateNow (s : State) (n : Fin 16) : Nat := s.fld (R.HD_LASER_STATUS n.val) F.HD_LASER_STATUS_DERATE

/-- F set: below MIN_F the write gate stops (R149). -/
def State.setDerate (s : State) (n : Fin 16) (f : Nat) : State :=
  let s := s.setFld (R.HD_LASER_STATUS n.val) F.HD_LASER_STATUS_DERATE f
  if f < s.fld (R.HD_DERATE_CTRL n.val) F.HD_DERATE_CTRL_MIN_F then s.gateFails n 2 else s

/-- The ticks after which a derate item without a block is stale (R158). -/
def staleTicks : Nat := 46080

/-- R158. 46,080 ticks without a verified HK block that carries the item: F falls to 0 and HK_STALE sets. The event comes once
for each tick from which the staleness counts. -/
def execDerateStale (head : Fin 16) (s : State) : Result :=
  let n := head
  let r := R.HD_LASER_STATUS n.val
  let on := s.flag (R.HD_DERATE_CTRL n.val) F.HD_DERATE_CTRL_EN
  when (on && !(s.head n).laser.staleTold && decide ((s.head n).laser.staleFrom + staleTicks ≤ s.now)) s <|
    let s := s.setDerate n 0
    let s := s.modHead n fun h => { h with laser := { h.laser with staleTold := true } }
    let s := s.setFld r F.HD_LASER_STATUS_HK_STALE 1
    s.logHead n 0x1203 (s.fld (R.HD_DERATE_CTRL n.val) F.HD_DERATE_CTRL_HK_ITEM) (s.head n).laser.lastTemp

/-- The event of the interlock: the heads whose HD_LEN fell, and the edge's stamp. -/
def heldHigh (s : State) : List (Fin 16) := (List.finRange 16).filter fun n => s.hdLen n

/-- R160. A qualifying low on LASER_INH_N: INH_LATCH sets in every head and every HD_LEN falls, with the hems of R162
at the stamp of the edge. -/
def execLaserInterlock (s : State) : Result :=
  when (!s.pins.inhLow) s <|
    let e := s.cellStamp
    let high := heldHigh s
    let s := { s with pins := { s.pins with inhLow := true, inhSince := e } }
    let s := (List.finRange 16).foldl (fun t n =>
      let r := R.HD_LASER_STATUS n.val
      let t := (t.setFld r F.HD_LASER_STATUS_INH_LATCH 1).setFld r F.HD_LASER_STATUS_INH_PIN 1
      t.updateLen n e) s
    let mask := (high.map fun n => 2 ^ n.val).sum
    s.logAt srcCal e 0x1204 mask (e % 2 ^ 32)

/-- R161. LASER_INH_N rises: INH_PIN clears in every head, and the time that a REARM must find begins. -/
def execLaserInhRelease (s : State) : Result :=
  when s.pins.inhLow s <|
    let e := s.cellStamp
    let s := { s with pins := { s.pins with inhLow := false, inhSince := e } }
    (List.finRange 16).foldl (fun t n =>
      (t.setFld (R.HD_LASER_STATUS n.val) F.HD_LASER_STATUS_INH_PIN 0).updateLen n e) s

/-- How long LASER_INH_N must have been high (R161). -/
def rearmTicks : Nat := 15000000

/-- R161. A write of REARM clears INH_LATCH of the head once the pin has been high for 10 ms, and is refused before. -/
def execLaserRearm (head : Fin 16) (s : State) : Result :=
  let high := if s.pins.inhLow then 0 else s.now - s.pins.inhSince
  if !s.pins.inhLow && decide (rearmTicks ≤ high) then
    .next ((s.setFld (R.HD_LASER_STATUS head.val) F.HD_LASER_STATUS_INH_LATCH 0).updateLen head s.now)
  else .next (s.logHead head 0x1205 high)

/-- R159. A write of LEN_EN lets HD_LEN rise where every condition holds, or drives it low. -/
def execLaserEnableWrite (head : Fin 16) (enable : Bool) (s : State) : Result :=
  let s := s.setFld (R.HD_LASER_CTRL head.val) F.HD_LASER_CTRL_LEN_EN (bitOf enable)
  .next (s.updateLen head (s.stamp (.head head)))

/-- The ceilings are locked (R157). -/
def ceilLocked (s : State) (n : Fin 16) : Bool := s.flag (R.HD_CEIL_WR n.val) F.HD_CEIL_WR_LOCK

/-- R157. A write of the read or the write power ceiling: stored, or refused with event 0x1209 once LOCK is set. -/
def execCeilingWrite (head : Fin 16) (write : Bool) (val : Nat) (s : State) : Result :=
  let r := if write then R.HD_CEIL_WR head.val else R.HD_CEIL_RD head.val
  if ceilLocked s head then .next (s.logHead head 0x1209 r)
  else .next (s.setFld r (if write then F.HD_CEIL_WR_CEIL else F.HD_CEIL_RD_CEIL) val)

/-- R157. A write of 1 to LOCK locks both ceilings until power-on reset. -/
def execCeilingLock (head : Fin 16) (s : State) : Result :=
  .next (s.setFld (R.HD_CEIL_WR head.val) F.HD_CEIL_WR_LOCK 1)

/-- R158. A write of HD_DERATE_CTRL: with EN 0, F is 256 and HK_STALE 0; with EN 1 the item's staleness counts anew. -/
def execDerateEnableWrite (head : Fin 16) (val : Word) (s : State) : Result :=
  let n := head
  let r := R.HD_DERATE_CTRL n.val
  let s := s.setFld r F.HD_DERATE_CTRL_MIN_F (getField val F.HD_DERATE_CTRL_MIN_F)
  let s := s.setFld r F.HD_DERATE_CTRL_HK_ITEM (getField val F.HD_DERATE_CTRL_HK_ITEM)
  let s := s.setFld r F.HD_DERATE_CTRL_EN (getField val F.HD_DERATE_CTRL_EN)
  if getFlag val F.HD_DERATE_CTRL_EN then
    let s := s.modHead n fun h => { h with laser := { h.laser with staleFrom := s.now, staleTold := false } }
    .next (s.setDerate n (derateNow s n))
  else
    .next ((s.setFld (R.HD_LASER_STATUS n.val) F.HD_LASER_STATUS_HK_STALE 0).setDerate n 256)

end Sys2Proof.Machine
end

