-- ==== Sys2Proof/Machine/Channel.lean ====
section
/-!
DEFINITION. Machine/Channel.lean: the arithmetic of a beam channel (chapter 5): decimation (R83), conditioning
(R88), the interpolator and its oscillator (R89 to R91), equalizer and targets (R92), the basted detector (R93), the
canceller (R94), the settled detector (R95), adaptation (R97), the soft-erase law (R103), and the zone table's layout
(R85).
-/

namespace Sys2Proof.Machine

/-- What a pass's held registers say to a channel (Tables 5-8 to 5-10). -/
structure ChanCfg where
  ch     : Nat
  adapt  : Nat
  timing : Nat
  /-- presentation delay (R81) -/
  pres   : Nat
  deriving DecidableEq, Repr

def ChanCfg.adaptEn (c : ChanCfg) : Bool := testBitN c.ch 0
def ChanCfg.xtEn (c : ChanCfg) : Bool := testBitN c.ch 2

/-- A signed quantity rounded to nearest, ties away from zero, of num / den. -/
abbrev nearest (num : Int) (den : Nat) : Int := roundDiv num den

/-- One oscillator unit: a decimated sample. -/
def onePhase : Int := 2 ^ 32

/-! ## Targets and detection -/

/-- The target's taps in Q8.4 (Table 5-4). -/
def targetTaps (sd : Seeds) : List Int := sd.target.map (· * 16)

/-- A decision as +1, −1, or 0 where there is none. -/
def signOf : Option Bool → Int
  | some true => 1
  | some false => -1
  | none => 0

/-- Σ h_j·a_j over matching lists. -/
def dot (a b : List Int) : Int := (List.zipWith (· * ·) a b).foldl (· + ·) 0

/-- The basted decision of a bit from its q and the next bit's, and the earlier decisions, newest first (R93). -/
def bastedDecision (h : List Int) (q q1 : Int) (past : List Int) : Bool :=
  let b0 := q - dot (h.drop 1) past
  let b1 := q1 - dot (h.drop 2) past
  let h0 := h.getD 0 0
  let h1 := h.getD 1 0
  let sq (x : Int) : Int := x * x
  let cost (a : Int) : Int := sq (b0 - h0 * a) + min (sq (b1 - h1 * a - h0)) (sq (b1 - h1 * a + h0))
  if cost 1 < cost (-1) then true
  else if cost (-1) < cost 1 then false
  else Config.roundsUp q 0

/-- Level of a transition: the new decision a on a state of the last four, newest in bit 0. -/
def transLevel (h : List Int) (st : Nat) (a : Bool) : Int :=
  dot h (signOf (some a) :: (List.range 4).map fun i => signOf (some (testBitN st i)))

/-- The next state. -/
def transNext (st : Nat) (a : Bool) : Nat := (2 * st + if a then 1 else 0) % 16

/-- The branch metric at a position: 0 where it is erased (R95). -/
def branchMetric (h : List Int) (y : Option Int) (st : Nat) (a : Bool) : Int :=
  match y with
  | some v => (v - transLevel h st a) * (v - transLevel h st a)
  | none => 0

/-- The least of a list that is not empty. -/
def leastOf (l : List Int) : Int := l.foldl min (l.headD 0)

/-- One forward step over the 16 states. -/
def forwardStep (h : List Int) (m : List Int) (y : Option Int) : List Int :=
  (List.range 16).map fun st' =>
    let a := testBitN st' 0
    leastOf ([st' / 2, st' / 2 + 8].map fun st => m.getD st 0 + branchMetric h y st a)

/-- One backward step. -/
def backwardStep (h : List Int) (y : Option Int) (m : List Int) : List Int :=
  (List.range 16).map fun st =>
    leastOf ([false, true].map fun a => m.getD (transNext st a) 0 + branchMetric h y st a)

/-- The forward metrics after a run of positions, oldest first. -/
def forwardRun (h m : List Int) (ys : List (Option Int)) : List Int := ys.foldl (forwardStep h) m

/-- The backward metrics before a run of positions, oldest first. -/
def backwardRun (h : List Int) (ys : List (Option Int)) : List Int :=
  ys.foldr (backwardStep h) (List.replicate 16 0)

/-- Λ of one position: the best path with the bit at 1 less the best with it at 0. -/
def lambdaAt (h : List Int) (f b : List Int) (y : Option Int) : Int :=
  let best (a : Bool) : Int :=
    leastOf ((List.range 16).map fun st => f.getD st 0 + branchMetric h y st a + b.getD (transNext st a) 0)
  best true - best false

/-- How far the canceller runs behind the newest bit, and how many newest bits have no q yet: the first 72 bits of a
traceback enter with y, the next 22 with q, the last two not at all (log entry 134). -/
def cancelLag : Nat := 24

/-- Λ of every position of a run, with the traceback of 96 bits (R95): `m` holds the path metrics before the first, `ys`
and `qs` the canceller's and the equalizer's outputs, none where erased. -/
def settledFrom (h : List Int) : List Int → List (Option Int) → List (Option Int) → List Int
  | m, y :: ys, qs =>
    let after := ys.take 72 ++ (qs.drop 73).take 22
    lambdaAt h m (backwardRun h after) y :: settledFrom h (forwardStep h m y) ys (qs.drop 1)
  | _, [], _ => []

/-- The soft value of a metric difference (R95). -/
def softValue (scale : Nat) (m : Int) : Int := clampInt (-31) 31 (floorDiv (m * scale + 2 ^ 15) (2 ^ 16))

/-- The settled decision that a soft value stands for. -/
def settledBit (s : Int) : Bool := decide (s < 0)

/-- The soft-erase law (R103). -/
def softErase (se : Nat) (s : Int) : Int :=
  if s = 0 then 0
  else
    let m := max 1 (((s.natAbs * se + 32) / 64 : Nat) : Int)
    if s < 0 then -m else m

/-! ## Conditioning and interpolation -/

/-- Conditioning of a decimated sample (R88). -/
def condition (a : Adaptive) (x : Int) : Int :=
  let v := x * 16 - a.offset
  let w := v + floorDiv (a.asym * v * v.natAbs) (2 ^ 25)
  clampInt (-2047) 2047 (floorDiv (a.gain * w) (2 ^ 12))

/-- The 4-tap cubic Lagrange interpolation at f/64 between s0 and s1 (R89). -/
def lagrange (sm s0 s1 s2 : Int) (f : Int) : Int :=
  let n := -sm * (f * (f - 64) * (f - 128)) + 3 * s0 * ((f + 64) * (f - 64) * (f - 128)) -
    3 * s1 * ((f + 64) * f * (f - 128)) + s2 * ((f + 64) * f * (f - 64))
  clampInt (-2047) 2047 (openRound n (6 * 64 * 64 * 64))

/-- The mean of a decimation group (R83). -/
def decimate (a : Adaptive) (g : List RawSample) : DecSample :=
  let sum := g.foldl (fun t x => t + x.value) 0
  let v := nearest sum (max 1 g.length)
  { stamp := (g.headD ⟨0, 0, false, false⟩).stamp, value := v, z := condition a v,
    erased := g.any fun x => x.drop || x.bad, bad := g.any (·.bad), drop := g.any (·.drop) }

/-- The oscillator's increment: the nominal times 1 + TRIM·2^-20 (R89). -/
def incrementOf (nominal : Nat) (trim : Int) : Int := nominal + openRound ((nominal : Int) * trim) (2 ^ 20)

/-- The advance from a position to the next one, over a servo unit where a data segment ends (R89, R91). -/
def advanceOf (nominal unit pos : Nat) (trim : Int) : Int :=
  let inc := incrementOf nominal trim
  if (pos + 1) % (125 * max 1 unit) = 0 then inc + (unit : Int) * inc else inc

/-- Correlation with the cosine and the sine of the quarter-rate tone, the first value at phase 0. -/
def toneParts (rs : List Int) : Int × Int :=
  (indexed rs).foldl (fun (i, q) (n, r) =>
    match n % 4 with
    | 0 => (i + r, q)
    | 1 => (i, q + r)
    | 2 => (i - r, q)
    | _ => (i, q - r)) ((0 : Int), (0 : Int))

/-- The response of a target to the 0b0011 preamble, over one period (R92). -/
def preambleResponse (h : List Int) : List Int :=
  let a (k : Nat) : Int := if k % 4 < 2 then -1 else 1
  (List.range 4).map fun n => dot h ((List.range 5).map fun j => a (n + 8 - j))

/-- The phase step of the tone estimate from the 32 values r of [q0 − 80, q0 − 48), in 2^-32 samples: it turns the fitted
tone to the phase that the target gives, by at most two channel bits (R90; its precision is log entry 20). With no tone in
the 32 values there is no step. -/
def toneShift (h rs : List Int) (nominal : Nat) : Int :=
  let (i, q) := toneParts rs
  let (ti, tq) := toneParts (preambleResponse h)
  if i = 0 ∧ q = 0 then 0
  else
    let turn := wrapTurn ((atan2Turn q i : Int) - atan2Turn tq ti)
    openRound (turn * nominal) 1024

/-! ## Adaptation -/

/-- Limits of the adaptive quantities (Table 5-5). -/
def Adaptive.limit (a : Adaptive) : Adaptive :=
  { a with
    gain := clampInt 1024 65531 a.gain, offset := clampInt (-1024) 1023 a.offset,
    asym := clampInt (-8192) 8192 a.asym, trim := clampInt (-20971) 20971 a.trim,
    eq := (indexed a.eq).map fun (i, c) => if i = 2 then clampInt 8192 32767 c else clampInt (-32767) 32767 c,
    xtIn := a.xtIn.map (clampInt (-127) 127), xtOut := a.xtOut.map (clampInt (-127) 127) }

/-- The change of every quantity but the cross taps, the phase and TRIM on one counted bit (Table 5-5): e and t in
Q8.4, rs the fifteen r from r_(n+2) to r_(n−12). The main tap stands still. -/
def Adaptive.learn (a : Adaptive) (cfg : Nat) (e t : Int) (rs : List Int) : Adaptive :=
  let sg := natBits cfg 4 0
  let so := natBits cfg 9 5
  let sa := natBits cfg 14 10
  let sc := natBits cfg 19 15
  { a with
    gain := a.gain + nearest (-(e * t)) (4 * 2 ^ sg),
    offset := a.offset + nearest e (2 ^ so),
    asym := a.asym + nearest (-(e * t * t)) (1024 * 2 ^ sa),
    eq := List.zipWith (fun (i, c) r => if i = 2 then c else c + nearest (-(e * r)) (2 ^ sc)) (indexed a.eq) rs }

/-- The change of one side's cross taps on a bit: e' and the neighbour inputs in Q8.4. -/
def learnCross (sx : Nat) (e : Int) (w ins : List Int) : List Int :=
  List.zipWith (fun c q => c + nearest (e * q) (128 * 2 ^ sx)) w ins

/-! ## One channel bit -/

/-- The gains at a position of a sector: none before q0 − 48, acquisition gains to q0 + 16, then tracking gains (R90). -/
def sectorGains (timing acq pos : Nat) : Option (Nat × Nat) :=
  let d := pos - acq
  if d < 32 then none
  else if d < 96 then some (natBits timing 4 0, natBits timing 9 5)
  else some (natBits timing 14 10, natBits timing 19 15)

/-- The gains now, KP and KI: those of the sector, with acquisition gains for 64 bits after a long dropout (R90, R108). -/
def Beam.gains (b : Beam) (cfg : ChanCfg) (pos : Nat) : Option (Nat × Nat) :=
  match sectorGains cfg.timing b.acq pos with
  | some g => some (if 0 < b.acqBits then (natBits cfg.timing 4 0, natBits cfg.timing 9 5) else g)
  | none => none

/-- How φ and TRIM move on a bit (R89): φ in 1/64 sample, TRIM in its own unit. -/
def timingStep (g : Option (Nat × Nat)) (t q tPrev qPrev : Int) : Int × Int :=
  match g with
  | some (kp, ki) =>
    let tau := tPrev * q - t * qPrev
    (nearest (tau * 64) (256 * 4096 * 2 ^ kp), nearest (tau * 2 ^ 20) (256 * 4096 * 2 ^ ki))
  | none => (0, 0)

/-- Adaptation is held by a dropout or its guard. -/
def Beam.dropHeld (b : Beam) : Bool := b.dropout.isSome || b.guard.isSome

/-- Adaptation is frozen: by a dropout, its guard, or an unpick. -/
def Beam.isFrozen (b : Beam) : Bool := b.dropHeld || b.frozen

/-- The interval that holds a position has had a clamp (R97). -/
def Beam.markClamp (b : Beam) (pos : Nat) : Beam :=
  { b with intervals := b.intervals.map fun i =>
      if i.first ≤ pos ∧ pos < i.first + i.len then { i with clamped := true } else i }

/-- The basted decision and the adaptation of the bit that is third newest, whose successor now has its q. While the beam
is frozen by an unpick only, φ still moves under the proportional path (R93, R97, R100). -/
def Beam.decideBit (b : Beam) (cfg : ChanCfg) : Beam :=
  match b.bits with
  | b0 :: b1 :: b2 :: b3 :: older =>
    let h := targetTaps b.seeds
    let past := (older.take 4).map fun x => signOf x.basted
    let dec := if b3.erased then none else some (bastedDecision h b3.q b2.q past)
    let t := dot h (signOf dec :: past)
    let moves := b3.live && !b3.erased && !b.dropHeld && cfg.adaptEn
    let counted := moves && !b.frozen
    let b3' := { b3 with basted := dec, t := t, counted := counted, held := b.dropHeld }
    let b := { b with bits := b0 :: b1 :: b2 :: b3' :: older }
    if !moves then b
    else
      let (dPhase, dTrim) := match older with
        | o :: _ => timingStep (b.gains cfg b3.pos) t b3.q o.t o.q
        | [] => (0, 0)
      let b := { b with phase := b.phase + dPhase * 2 ^ 26 }
      if !counted then b
      else
        let rs := (b.bits.drop 1).take 15 |>.map (·.r)
        let learnt := b.adapt.learn cfg.adapt (b3.q - t) t rs
        let moved : Adaptive := { learnt with trim := learnt.trim + dTrim }
        let lim : Adaptive := moved.limit
        let b := { b with adapt := lim }
        if lim = moved then b else b.markClamp b3.pos
  | _ => b

/-- The four decimated samples about an instant x/2^32 samples before the newest, from a ring read newest first, and the
fraction in 1/64 past the second (R89). -/
def samplesAt (ring : Nat → DecSample) (x : Nat) : DecSample × DecSample × DecSample × DecSample × Int :=
  let i := x / 2 ^ 32
  (ring (i + 2), ring (i + 1), ring i, ring (i - 1),
   openRound ((((i + 1) * 2 ^ 32 - x : Nat) : Int) * 64) (2 ^ 32))

/-- The instant of a fraction past a sample, in 1/256 tick, with the group delay of (M − 1)/2 ticks (R83). -/
def instantAt (stamp : Stamp) (f : Int) (m : Nat) : Int := 256 * (stamp : Int) + f * 4 * m + 128 * ((m : Int) - 1)

/-- A ring entry that is not there counts as erased. -/
def ringAt (ring : List DecSample) (k : Nat) : DecSample := ring.getD k ⟨0, 0, 0, true, false, false⟩

/-- What a bit enters the settled detector with: nothing where it is erased (R95). -/
def ChanBit.settledY (x : ChanBit) : Option Int := if x.erased then none else some (x.y.getD x.q)
def ChanBit.settledQ (x : ChanBit) : Option Int := if x.erased then none else some x.q

/-- A bit joins the last 1,024; the one that falls out has taken the settled detector's path metrics on (R84, R95). -/
def Beam.pushBit (b : Beam) (x : ChanBit) : Beam :=
  match b.bits.drop 1023 with
  | old :: _ =>
    let m := forwardStep (targetTaps b.seeds) b.fwd old.settledY
    { b with bits := x :: b.bits.take 1023, fwd := m.map (· - leastOf m) }
  | [] => { b with bits := x :: b.bits }

/-- Data bits of the sector on the beam from its acquisition start: up to the next slot's acquisition start where the pass
reads on, else to the end of its slot (R91, R98; log entry 135). -/
def Beam.sectorBits (b : Beam) : Nat := if b.follows then slotBits else slotBits - 48

/-- The position lies in the sector on the beam. -/
def Beam.inSector (b : Beam) (pos : Nat) : Bool := b.sector.isSome && b.acq ≤ pos && pos < b.acq + b.sectorBits

/-- The tone step that follows a bit: at q0 − 48, from the newest 32 values (R90). -/
def toneAfter (h : List Int) (bits : List ChanBit) (pos acq nominal : Nat) : Int :=
  if pos = acq + 31 then toneShift h ((bits.take 32).reverse.map (·.r)) nominal else 0

/-- The oscillator's next bit, where the two samples after its instant are in the ring: interpolation, the equalizer
output of the bit two before, the decision of the bit three before, and the step to the next bit, over a servo unit
where a data segment ends (R89 to R93). -/
def Beam.nextBit (b : Beam) (cfg : ChanCfg) : Beam :=
  let (sm, s0, s1, s2, f) := samplesAt (ringAt b.ring) (-b.phase).toNat
  let live := b.inSector b.pos
  let bit : ChanBit :=
    { pos := b.pos, inst := instantAt s0.stamp f b.adapt.decM, r := lagrange sm.z s0.z s1.z s2.z f, q := 0, t := 0,
      erased := sm.erased || s0.erased || s1.erased || s2.erased, bad := sm.bad || s0.bad || s1.bad || s2.bad,
      drop := sm.drop || s0.drop || s1.drop || s2.drop,
      live := live, held := false, counted := false, basted := none, y := none }
  let b := b.pushBit bit
  let q := clampInt (-2047) 2047 (openRound (dot b.adapt.eq ((b.bits.take 15).map fun x => x.r)) (2 ^ 14))
  let b2 : Beam := { b with bits := b.bits.modify 2 fun y => { y with q := q } }
  let b : Beam := b2.decideBit cfg
  let tone := if live then toneAfter (targetTaps b.seeds) b.bits b.pos b.acq b.nominal else 0
  { b with
    phase := b.phase + advanceOf b.nominal b.unit b.pos b.adapt.trim + tone
    pos := b.pos + 1, acqBits := b.acqBits - 1 }

/-- A checkpoint is due before the next bit: an interval of the sector begins there (R98). -/
def Beam.checkpointDue (b : Beam) : Bool :=
  b.inSector b.pos && (b.pos - b.acq) % 512 == 0 && !(b.intervals.any fun i => i.first == b.pos)

/-- Every bit whose samples are in the ring, up to the next checkpoint. -/
def Beam.runBits (b : Beam) (cfg : ChanCfg) : Nat → Beam
  | 0 => b
  | k + 1 =>
    if b.nominal = 0 ∨ -onePhase < b.phase ∨ b.checkpointDue then b
    else (b.nextBit cfg).runBits cfg k

/-- One raw sample presented: erased in a dropout, into its group, and on (R83, R108). -/
def Beam.takeSample (b : Beam) (cfg : ChanCfg) (x : RawSample) : Beam :=
  let g := b.group ++ [x]
  if g.length < max 1 b.adapt.decM then { b with group := g }
  else
    let d := decimate b.adapt g
    ({ b with group := [], ring := d :: b.ring.take 2047, phase := b.phase - onePhase }).runBits cfg 64

/-- Present every sample whose tick has come, unless a checkpoint is due first. -/
def Beam.present (b : Beam) (cfg : ChanCfg) (now : Stamp) : Nat → Beam
  | 0 => b
  | k + 1 =>
    match b.raw with
    | [] => b
    | x :: rest =>
      if b.checkpointDue ∨ now < x.stamp + cfg.pres then b
      else (({ b with raw := rest }).takeSample cfg x).present cfg now k

/-! ## The canceller -/

/-- The neighbour's bit whose instant is nearest, the earlier where two are equally near: its place in the list. -/
def nearestBit (bits : List ChanBit) (inst : Int) : Option Nat :=
  (indexed bits).foldl (fun (best : Option (Nat × Nat)) (i, x) =>
    let d := (x.inst - inst).natAbs
    match best with
    | some (_, d0) => if d ≤ d0 then some (i, d) else best
    | none => some (i, d)) none |>.map (·.1)

/-- A side's seven inputs for a bit, with the neighbour's lag: k from −3 to +3; an erased or missing one is 0. -/
def sideInputs (nb : Beam) (lag : Int) (inst : Int) : List Int × Bool :=
  match nearestBit nb.bits inst with
  | none => (List.replicate 7 0, true)
  | some m =>
    let xs := (List.range 7).map fun (j : Nat) =>
      let i : Int := (m : Int) - (lag + (j : Int) - 3)
      if i < 0 then none else nb.bits[i.toNat]?
    (xs.map fun x => match x with
      | some y => if y.erased then 0 else y.q
      | none => 0,
     xs.any fun x => match x with
      | some y => y.erased
      | none => true)

/-- What a side adds to the estimate of a bit: its inputs with the neighbour's lag, or nothing where the side is left out
(R94). -/
def cancelSide (xtEn : Bool) (nb : Option Beam) (lag inst : Int) : Option (List Int × Bool) :=
  if xtEn then nb.map fun v => sideInputs v lag inst else none

/-- The estimate of one side. -/
def sideEstimate (w : List Int) : Option (List Int × Bool) → Int
  | some (ins, _) => dot w ins
  | none => 0

/-- y of a bit from its q and both sides (R94). -/
def cancelled (a : Adaptive) (q : Int) (si so : Option (List Int × Bool)) : Int :=
  clampInt (-2047) 2047 (q - openRound (sideEstimate a.xtIn si + sideEstimate a.xtOut so) 128)

/-- The cross taps after a counted bit with error e' (R94, R97): a side with an erased input stands still. -/
def learnSides (a : Adaptive) (sx : Nat) (e : Int) (si so : Option (List Int × Bool)) : Adaptive :=
  let upd (w : List Int) : Option (List Int × Bool) → List Int
    | some (ins, false) => learnCross sx e w ins
    | _ => w
  { a with xtIn := upd a.xtIn si, xtOut := upd a.xtOut so }

/-- The canceller and its adaptation for bits at least `cancelLag` behind the newest that have no y yet, oldest first
(R94). -/
def Beam.cancel (b : Beam) (cfg : ChanCfg) (inner outer : Option Beam) : Beam :=
  let todo := (indexed b.bits).filter fun e => cancelLag ≤ e.1 && e.2.y.isNone
  todo.reverse.foldl (fun b (i, x) =>
    let si := cancelSide cfg.xtEn inner b.seeds.lagIn x.inst
    let so := cancelSide cfg.xtEn outer b.seeds.lagOut x.inst
    let y := cancelled b.adapt x.q si so
    let b := { b with bits := b.bits.modify i fun z => { z with y := some y } }
    if !x.counted || b.isFrozen then b
    else
      let moved := learnSides b.adapt (natBits cfg.adapt 24 20) (y - x.t) si so
      let lim : Adaptive := moved.limit
      let b := { b with adapt := lim }
      if lim = moved then b else b.markClamp x.pos) b

/-! ## Settled values of an interval -/

/-- The bits from a position on that are kept, oldest first, and those before it. -/
def Beam.bitsFrom (b : Beam) (first : Nat) : List ChanBit × List ChanBit :=
  let seq := b.bits.reverse
  (seq.dropWhile fun x => x.pos != first, seq.takeWhile fun x => x.pos != first)

/-- The settled soft values of an interval (R95); none at an erased position. -/
def intervalSoft (b : Beam) (scale : Nat) (i : Interval) : List (Option Int) :=
  let h := targetTaps b.seeds
  let (rest, before) := b.bitsFrom i.first
  let m := forwardRun h b.fwd (before.map ChanBit.settledY)
  let ms := settledFrom h m (rest.map ChanBit.settledY) (rest.map ChanBit.settledQ)
  (List.zip (rest.take i.len) ms).map fun (x, v) => if x.erased then none else some (softValue scale v)

/-- Non-erased positions and disagreements of an interval (R99). -/
def intervalTest (b : Beam) (i : Interval) (soft : List (Option Int)) : Nat × Nat :=
  (List.zip ((b.bitsFrom i.first).1.take i.len) soft).foldl (fun (n, d) (x, s) =>
    match s, x.basted with
    | some v, some a => (n + 1, if a = settledBit v then d else d + 1)
    | some _, none => (n + 1, d + 1)
    | none, _ => (n, d)) (0, 0)

/-! ## Replays -/

/-- A replay lane at work (R102): its adaptive state, its oscillator, its bits newest first, the settled detector's path
metrics before the oldest undecided bit, and the interval's soft values so far, newest first. -/
structure LaneRun where
  adapt   : Adaptive
  phase   : Int
  bits    : List ChanBit
  fwd     : List Int
  clamped : Bool
  soft    : List (Option Int)
  deriving DecidableEq, Repr

/-- Everything a replay reads (R84, R102): the beam with its rings, its neighbours' live q, its interval, and the pass's
configuration. -/
structure ReplayIn where
  beam  : Beam
  inner : Option Beam
  outer : Option Beam
  iv    : Interval
  cfg   : ChanCfg

/-- The sector's acquisition start, from the interval's number. -/
def ReplayIn.acq (r : ReplayIn) : Nat := r.iv.first - 512 * r.iv.k

/-- The settled decision of the bit 96 behind the newest, and the adaptation that it drives (R95, R97, R102): the first 32
bits of a run warm up and drive none. -/
def LaneRun.settle (l : LaneRun) (r : ReplayIn) : LaneRun :=
  match l.bits.drop 96 with
  | x :: older =>
    let h := targetTaps r.beam.seeds
    let after := ((l.bits.take 96).reverse.take 94).map ChanBit.settledY
    let v := lambdaAt h l.fwd (backwardRun h after) x.settledY
    let s := softValue (natBits r.cfg.ch 15 8) v
    let dec := if x.erased then none else some (settledBit s)
    let t := dot h (signOf dec :: (older.take 4).map fun z => signOf z.basted)
    let mine := decide (r.iv.first ≤ x.pos) && decide (x.pos < r.iv.first + r.iv.len)
    let l := { l with
      bits := l.bits.modify 96 fun z => { z with basted := dec, t := t }
      fwd := forwardStep h l.fwd x.settledY
      soft := if mine then (if x.erased then none else some s) :: l.soft else l.soft }
    if !(mine && x.live && !x.erased && !x.held && r.cfg.adaptEn) then l
    else
      let rs := (l.bits.drop 94).take 15 |>.map (·.r)
      let learnt := l.adapt.learn r.cfg.adapt (x.q - t) t rs
      let (dPhase, dTrim) := match older with
        | o :: _ => timingStep (sectorGains r.cfg.timing r.acq x.pos) t x.q o.t o.q
        | [] => (0, 0)
      let si := cancelSide r.cfg.xtEn r.inner r.beam.seeds.lagIn x.inst
      let so := cancelSide r.cfg.xtEn r.outer r.beam.seeds.lagOut x.inst
      let moved := learnSides { learnt with trim := learnt.trim + dTrim } (natBits r.cfg.adapt 24 20)
        (x.y.getD x.q - t) si so
      let lim : Adaptive := moved.limit
      { l with adapt := lim, phase := l.phase + dPhase * 2 ^ 26, clamped := l.clamped || decide (lim ≠ moved) }
  | [] => l

/-- One bit of a replay (R102): the samples conditioned with the lane's state, interpolated, equalized and cancelled with
the neighbours' live q, then the settled decision that falls due. -/
def LaneRun.step (l : LaneRun) (r : ReplayIn) (pos : Nat) : LaneRun :=
  let (sm, s0, s1, s2, f) := samplesAt (ringAt r.beam.ring) (-l.phase).toNat
  let z (d : DecSample) : Int := condition l.adapt d.value
  let live := r.beam.bits.find? fun x => x.pos == pos
  let bit : ChanBit :=
    { pos := pos, inst := instantAt s0.stamp f r.iv.checkpoint.decM, r := lagrange (z sm) (z s0) (z s1) (z s2) f
      q := 0, t := 0, erased := sm.erased || s0.erased || s1.erased || s2.erased
      bad := sm.bad || s0.bad || s1.bad || s2.bad, drop := sm.drop || s0.drop || s1.drop || s2.drop
      live := live.any (·.live), held := live.any (·.held), counted := false, basted := none, y := none }
  let bits := bit :: l.bits
  let q := clampInt (-2047) 2047 (openRound (dot l.adapt.eq ((bits.take 15).map fun x => x.r)) (2 ^ 14))
  let y (x : ChanBit) : Int := cancelled l.adapt q (cancelSide r.cfg.xtEn r.inner r.beam.seeds.lagIn x.inst)
    (cancelSide r.cfg.xtEn r.outer r.beam.seeds.lagOut x.inst)
  let l := { l with bits := bits.modify 2 fun x => { x with q := q, y := some (y x) } }.settle r
  let tone := if r.iv.k = 0 then toneAfter (targetTaps r.beam.seeds) l.bits pos r.acq r.beam.nominal else 0
  { l with phase := l.phase + advanceOf r.beam.nominal r.beam.unit pos l.adapt.trim + tone }

/-- Where an instant lies from the newest ring entry, in 2^-32 samples. -/
def phaseOfInstant (ring : List DecSample) (m : Nat) (inst : Int) : Int :=
  match ring with
  | d :: _ => openRound ((inst - 128 * ((m : Int) - 1) - 256 * d.stamp) * 2 ^ 32) (256 * max 1 m)
  | [] => 0

/-- A replay from 32 bits before its interval to 96 after its end, from the instant that the live path gave the first bit
(R102; log entry 21). -/
def runReplay (r : ReplayIn) : LaneRun :=
  let m := r.iv.checkpoint.decM
  let start : Int := match ((r.beam.bits.dropWhile fun x => x.pos != r.iv.first).drop 32).head? with
    | some x => phaseOfInstant r.beam.ring m x.inst
    | none => 0
  let l : LaneRun := { adapt := r.iv.checkpoint, phase := start, bits := [], fwd := List.replicate 16 0,
                       clamped := false, soft := [] }
  (List.range (r.iv.len + 128)).foldl (fun l k => l.step r (r.iv.first + k - 32)) l

/-! ## The zone table -/

/-- Where entry (h, l, z) lies (R85). -/
def zoneAddr (base h l z : Nat) : Nat := base + ((h * 16 + l) * 32 + z) * 1024

/-- The taps of a target (Table 5-4). -/
def targetOf (sel : Nat) (t3 : List Int) : List Int :=
  match sel with
  | 0 => [16, 32, 32, 16, 0]
  | 1 => [12, 24, 24, 24, 12]
  | 2 => [24, 48, 24, 0, 0]
  | _ => t3

/-- The default seeds (R86). -/
def defaultSeeds : Adaptive × Seeds :=
  ({ gain := 4096, offset := 0, asym := 0, eq := (List.replicate 15 0).set 2 16384, xtIn := List.replicate 7 0,
     xtOut := List.replicate 7 0, trim := 0, decM := 1 },
   { ampRef := 768, target := targetOf 0 [], lagIn := 0, lagOut := 0 })

/-- The seeds of a beam record (Table 5-2), with the five T3 taps of the head record. -/
def seedsOf (r t3 : List Nat) : Adaptive × Seeds :=
  let s16 (o : Nat) : Int := toSigned (fieldAt r o 2) 16
  let s8 (o : Nat) : Int := toSigned (fieldAt r o 1) 8
  ({ gain := fieldAt r 0 2, offset := s16 2, asym := s16 4, eq := (List.range 15).map fun k => s16 (8 + 2 * k),
     xtIn := (List.range 7).map fun k => s8 (38 + k), xtOut := (List.range 7).map fun k => s8 (45 + k),
     trim := s16 52, decM := 1 },
   { ampRef := fieldAt r 6 2, target := targetOf (fieldAt r 54 1 % 4) (t3.map fun v => toSigned v 8),
     lagIn := toSigned (fieldAt r 55 1 / 16) 4, lagOut := toSigned (fieldAt r 55 1 % 16) 4 })

/-- The bytes that a write-back puts into a beam record: bytes 0 to 5, 8 to 53 (R87). -/
def writeBackHead (a : Adaptive) : List Nat :=
  natBytes 2 (ofSigned a.gain 16) ++ natBytes 2 (ofSigned a.offset 16) ++ natBytes 2 (ofSigned a.asym 16)
def writeBackTail (a : Adaptive) : List Nat :=
  a.eq.flatMap (fun c => natBytes 2 (ofSigned c 16)) ++ a.xtIn.map (fun c => ofSigned c 8) ++
  a.xtOut.map (fun c => ofSigned c 8) ++ natBytes 2 (ofSigned a.trim 16)

end Sys2Proof.Machine
end

