-- ==== Sys2Proof/Machine/WriteOps.lean ====
section
/-!
DEFINITION. Machine/WriteOps.lean: the write path of a backstitch pass (chapter 7): band descriptors (R140 to R142),
sectors built and turned into symbols (R144, R145), the write oscillator and WRATE (R148), the gate and WSTART
(R147, R149), and the end of a write revolution (R153).
-/

namespace Sys2Proof.Machine

/-! ## From descriptor to symbols -/

/-- A byte's bits, the most significant first. -/
def byteBits (b : Nat) : List Bool := (List.range 8).map fun i => testBitN b (7 - i)

/-- The 384 information parities of block row r: the checks over columns 0 to 85 (R115). -/
def infoSyndrome (info : Array Bool) (r : Nat) : List Bool :=
  (List.range 384).map fun z => (checkBits r z).foldl
    (fun b v => if v < codeInfoBits then b != info.getD v false else b) false

/-- A 384-bit block turned by one place, as shift 1 reads it. -/
def turnOne (l : List Bool) : List Bool := l.drop 1 ++ l.take 1

/-- The exclusive or of two blocks. -/
def xorBlock (a b : List Bool) : List Bool := List.zipWith (fun x y => x != y) a b

/-- The parity blocks of rows 0 to 8 after the first one, each from the row before it. -/
def parityChain (prev : List Bool) : List (List Bool) → List Bool
  | [] => []
  | row :: rest => let p := xorBlock row prev; p ++ parityChain p rest

/-- The 3,840 parity bits that satisfy every check of R115 (R144): column 86 is the sum of all rows, and each later
column follows from its row. -/
def parityBits (info : Array Bool) : List Bool :=
  let rows := (List.range 10).map (infoSyndrome info)
  let p0 := rows.foldl xorBlock (List.replicate 384 false)
  let withP0 := (indexed rows).map fun (r, row) =>
    if r = 0 ∨ r = 9 then xorBlock row (turnOne p0) else if r = 4 then xorBlock row p0 else row
  p0 ++ parityChain (List.replicate 384 false) (withP0.take 9)

/-- 16/17 modulation with the flag that brings the running digital sum nearer 0 (R96, R144). -/
def modulate (rds : Int) : List Bool → Nat → List Bool
  | _, 0 => []
  | bits, k + 1 =>
    let g := bits.take 16
    let d : Int := g.foldl (fun t b => if b then t + 1 else t - 1) (-1)
    let f := decide (0 < rds * d)
    (f :: g.map fun b => b != f) ++ modulate (rds + if f then -d else d) (bits.drop 16) k

/-- The sync mark and the 0b0011 pattern (Table 3-4). -/
def syncMark : Nat := 0xB3C62E950DA76F18
def tone (n : Nat) : List Bool := (List.replicate n [false, false, true, true]).flatten

/-- The header and payload of a slot's sector (R144, Table 3-5). -/
def sectorBytes (s : State) (layer : Nat) (d : BandDesc) (e : SlotEntry) : List Nat :=
  let h := natBytes 4 (addressWord layer e.track e.slot) ++ natBytes 2 (16 * e.group + e.member) ++ natBytes 2 1 ++
    natBytes 8 d.asmStamp ++ natBytes 8 e.tag ++ natBytes 4 (bitOf e.spare + 2 * bitOf (decide (14 ≤ e.member)))
  let payload := (List.range 4096).map fun i => (s.memByte (e.payload + i)).toNat
  h ++ natBytes 4 (crc32 (h ++ payload)) ++ payload

/-- The 39,392 channel bits of a slot's sector (R144). -/
def sectorChannel (s : State) (layer : Nat) (d : BandDesc) (e : SlotEntry) : List Bool :=
  let info := (sectorBytes s layer d e).flatMap byteBits
  let code := info ++ parityBits info.toArray
  tone 32 ++ (List.range 64).map (fun i => testBitN syncMark (63 - i)) ++ modulate 0 code 2304 ++ tone 8

/-- The codeword's channel bits alone. -/
def codewordChannel (s : State) (layer : Nat) (d : BandDesc) (e : SlotEntry) : List Bool :=
  ((sectorChannel s layer d e).drop 192).take codewordChanBits

/-- Length of the run of one value at the head of a list. -/
def runLength (v : Bool) : List Bool → Nat
  | [] => 0
  | b :: rest => if b = v then runLength v rest + 1 else 0

/-- The symbol codes of channel bits that follow one another on the track (R145, Table 7-4): a mark's class is its run length,
and 4 more after a space exactly one bit long. `space` is the length of the space before, `cls` the class of the mark in
progress. -/
def symbolsOf (space : Nat) (cls : Option Nat) : List Bool → List Nat
  | [] => []
  | false :: rest => 1 :: symbolsOf (if cls.isSome then 1 else space + 1) none rest
  | true :: rest =>
    let c := cls.getD (min 3 (runLength true rest) + if space = 1 then 4 else 0)
    (8 + c) :: symbolsOf 0 (some c) rest

/-- The symbol of bit `at'` of a sector that starts at data bit o of the track: the HOLD of a servo unit breaks a run and counts
as a long space, so each data segment's share of the sector stands for itself (R145). -/
def sectorSymbol (u o at' : Nat) (bits : List Bool) : Nat :=
  let seg := 125 * u
  let first := ((o + at') / seg * seg) - o
  let last := (o + at') / seg * seg + seg - o
  (symbolsOf 2 none ((bits.take last).drop first)).getD (at' - first) 0

/-- The symbol of channel bit i of the track, counted from unit 993, for a beam on a track: HOLD outside written slots
and in servo units (R145). -/
def symbolAt (s : State) (p : Pass) (u track i : Nat) : Nat :=
  let unit := i / u
  if unit % 126 = 125 then 0
  else
    let o := (unit / 126) * 125 * u + i % (126 * u)
    match p.revSlots.find? fun (_, e) => e.track == track && e.slot == o / slotBits with
    | some (d, e) =>
      if e.write && !e.isVoid && !e.cut then
        sectorSymbol u (o / slotBits * slotBits) (o % slotBits) (sectorChannel s p.desc.layer d e)
      else 0
    | none => 0

/-! ## Band descriptors -/

/-- Where the descriptor of the pass's band m lies (R140). -/
def wbdAddr (p : Pass) (m : Nat) : Nat := p.desc.wbd + m * 262144

/-- A number read from memory. -/
def memNat (s : State) (a n : Nat) : Nat := bytesNat ((List.range n).map fun i => (s.memByte (a + i)).toNat)

/-- One slot entry of a descriptor (Table 7-2); G and i come from the position where SPARE is 0 (R141). -/
def readEntry (s : State) (band addr slots d j k : Nat) : SlotEntry :=
  let w := memNat s (addr + 64 + (j * slots + k) * 32) 8
  let spare := testBitN w 57
  let (g, i) := if spare then (natBits w 51 40, natBits w 55 52) else twillOf d j k
  { track := 12 * band + j, slot := k, payload := natBits w 39 0, group := g, member := i,
    write := testBitN w 56, spare := spare, isVoid := testBitN w 58,
    tag := memNat s (addr + 64 + (j * slots + k) * 32 + 8) 8, raw := 0xFFFF,
    staged := false, started := false, done := false, cut := false }

/-- A band's descriptor (R140). -/
def readBand (s : State) (fmt : Nat) (p : Pass) (m : Nat) : BandDesc :=
  let band := if p.desc.inward then p.desc.start - m else p.desc.start + m
  let addr := wbdAddr p m
  let slots := slotsOf (fmtU fmt band)
  let d := twillStep (fmtU fmt band)
  { band := band, addr := addr, asmStamp := memNat s (addr + 8) 8,
    slots := (List.range 12).flatMap fun j => (List.range slots).map fun k => readEntry s band addr slots d j k }

/-- READY of a band's descriptor. -/
def bandReady (s : State) (p : Pass) (m : Nat) : Bool := testBitN (s.memByte (wbdAddr p m + 16)).toNat 0

/-! ## The write oscillator -/

/-- The greatest increment (R70). -/
def maxIncrement : Nat := 0xF5C28F5C

/-- Ticks per angular unit of the flywheel, as a quotient (R45). -/
def flyRate (f : Flywheel) : Option (Nat × Nat) :=
  match flyEnds f with
  | some (k, j) => some (k.tc2 - j.tc2, 2 * (frameAngle k.idx - frameAngle j.idx))
  | none => none

/-- The increment at the flywheel's rate: u channel bits per unit. -/
def nominalIncrement (f : Flywheel) (u : Nat) : Nat :=
  match flyRate f with
  | some (num, den) => min maxIncrement (roundDiv ((u * den * 2 ^ 32 : Nat) : Int) (max 1 num)).toNat
  | none => 0

/-- The tick from which a message of the next D0 frame applies (R72). -/
def State.applyTick (s : State) : Stamp := 48 * (s.nextFrame + 2)

/-- The first bit of the first data segment of the write revolution, from segment `seg` on, that comes after a tick: the symbols
up to it in 2^-32, and its predicted stamp (R148; log entry 105). -/
def nextSegment (s : State) (n : Fin 16) (seg : Nat) (after : Stamp) : Option (Nat × Stamp) :=
  let u := fmtU (fmtNow s n) (bandNow (s.head n))
  let cand := (List.range 4).filterMap fun i =>
    if seg + i < framesPerRev then
      (predictBit s n (revNow (s.head n)) (125 * u * (seg + i))).map fun t => (126 * u * (seg + i) * 2 ^ 32, t)
    else none
  cand.find? fun c => after < c.2

/-- WRATE at a servo frame accepted during a write revolution, and the slip check (R148). Its increment is formed as it
leaves. -/
def State.rateMatch (s : State) (n : Fin 16) (idx : Nat) (frameStamp : Stamp) : State :=
  match (s.head n).pass with
  | none => s
  | some p =>
    match p.writeRev with
    | none => s
    | some w =>
      match nextSegment s n (idx % framesPerRev) (max s.applyTick w.startAt) with
      | none => s
      | some (target, pred) =>
        if !w.writing then s
        else
          let eps : Int := ((w.consumedAt pred : Nat) : Int) - (target : Int)
          let s := if w.aim.isSome then s else s.sendMsg n (.wrate 0)
          let upd (w : WriteRev) : WriteRev := { w with aim := some (target, pred) }
          let s := s.modPass n fun p => { p with writeRev := p.writeRev.map upd }
          if natBits p.cfg.wr 23 16 * 2 ^ 32 < eps.natAbs then
            let s := s.gateStop n 0
            let s := s.logHead n 0x1201 w.mask (arg (openRound eps (2 ^ 26))) (frameStamp % 2 ^ 32)
            s.hemRequest n frameStamp false []
          else s

/-- The increment of a WRATE that leaves in frame f: it consumes every symbol up to the aim exactly at the aim's stamp, rounded
to nearest and limited (R148). The model follows it from its apply count on. -/
def State.launchRate (s : State) (n : Fin 16) (frame inc : Nat) : Nat × State :=
  match (s.head n).pass.bind (·.writeRev) with
  | none => (inc, s)
  | some w =>
    match w.aim with
    | none => (inc, s)
    | some (target, pred) =>
      let a := 48 * (frame + 2)
      let c := w.consumedAt a
      let old := (w.rates.headD (0, 0, 0)).2.1
      let inc := if a < pred then
          (clampInt 0 maxIncrement (roundDiv ((target : Int) - (c : Int)) ((pred - a : Nat) : Int))).toNat
        else old
      let upd (w : WriteRev) : WriteRev := { w with aim := none, rates := (a, inc, c) :: w.rates }
      (inc, s.modPass n fun p => { p with writeRev := p.writeRev.map upd })

/-! ## The gate and WSTART -/

/-- The head's dropout flag is high (R109). -/
def Head.dropFlag (h : Head) : Bool := h.flag.isSome

/-- The first of the gate's own conditions that fails (R149): 0 flywheel and track, 1 dropout, 2 derate. The interlock
and the link have the hems of R162 and R78. -/
def gateFault (s : State) (n : Fin 16) (p : Pass) : Option Nat :=
  let h := s.head n
  let onTrack := match h.fly.expected with
    | some (_, t) => (t : Int) == p.trackB0 p.rev1 + 5
    | none => false
  if !(flyReady s n && s.flag (R.HD_FLY_STATUS n.val) F.HD_FLY_STATUS_ADDR_OK && onTrack) then some 0
  else if h.dropFlag && testBitN p.cfg.wr 0 then some 1
  else if s.fld (R.HD_LASER_STATUS n.val) F.HD_LASER_STATUS_DERATE <
      s.fld (R.HD_DERATE_CTRL n.val) F.HD_DERATE_CTRL_MIN_F then some 2
  else none

/-- Every condition of Table 7-5, and every STRAT reported good (R146). -/
def gateOpen (s : State) (n : Fin 16) (p : Pass) : Bool :=
  let h := s.head n
  (gateFault s n p).isNone && s.hdLen n && h.laser.feLen && h.link.usable && s.aligned n &&
  !(h.link.held.any fun m => match m.msg with
    | .strat _ _ => true
    | _ => false) &&
  !(h.link.queue.any fun m => match m.msg with
    | .strat _ _ => true
    | _ => false)

/-- A WSTART leaves at least this long before its stamp (R73). -/
def wstartLead : Nat := 480

/-- The slots of the present write revolution that are still to be written. -/
def Pass.toWrite (p : Pass) : List (BandDesc × SlotEntry) :=
  p.revSlots.filter fun (_, e) => e.write && !e.isVoid && !e.done && !e.cut

/-- Every slot still to be written in this revolution becomes void. -/
def State.voidRest (s : State) (n : Fin 16) (cause : Nat) : State :=
  match (s.head n).pass with
  | none => s
  | some p => p.toWrite.foldl (fun t (d, e) => t.voidSlot n d e cause) s

/-- The revolution's WSTART, sent once the gate is open (R147, R149), with the rate that it starts at; a revolution whose
WSTART has no lead left is not written (R153). -/
def State.tryWstart (s : State) (n : Fin 16) : State :=
  match (s.head n).pass with
  | none => s
  | some p =>
    match p.writeRev with
    | none => s
    | some w =>
      if !w.due then s
      else if s.now + wstartLead ≤ w.startAt then
        if !gateOpen s n p || p.hem.isSome then s
        else
          let inc := nominalIncrement (s.head n).fly (fmtU (fmtNow s n) (bandNow (s.head n)))
          let s := s.sendMsg n (.wrate inc)
          let s := s.sendMsg n (.wstart w.mask w.startAt)
          let go (w : WriteRev) : WriteRev :=
            { w with due := false, writing := true, rates := [(w.startAt, inc, 0)] }
          s.modPass n fun p => { p with writeRev := p.writeRev.map go }
      else
        let cause := if (gateFault s n p).isSome then 1 else 2
        let s := s.voidRest n cause
        let off (w : WriteRev) : WriteRev := { w with due := false }
        s.modPass n fun p => { p with writeRev := p.writeRev.map off }

/-- A WSTOP goes out this long before its tick, so that a resend under R73 still meets its tick (log entry 105). -/
def wstopLead : Nat := 960

/-- The revolution's WSTOP: its stamp is the write tick of the last symbol of the last slot that is still to be written (R147),
which the model gives once that tick is near. -/
def State.tryWstop (s : State) (n : Fin 16) : State :=
  match (s.head n).pass with
  | none => s
  | some p =>
    match p.writeRev with
    | none => s
    | some w =>
      let last := ((p.revSlots.filter fun (_, e) => e.write && !e.isVoid && !e.cut).map fun (_, e) => e.slot).foldl max 0
      match writeTicks s n w last with
      | some (_, b) =>
        let go (w : WriteRev) : WriteRev := { w with stopAt := b, stopSent := true }
        let near (w : WriteRev) : WriteRev := { w with stopAt := b }
        if !w.writing || w.stopSent then s
        else if b ≤ s.now + wstopLead then
          (s.sendMsg n (.wstop w.mask b)).modPass n fun p => { p with writeRev := p.writeRev.map go }
        else s.modPass n fun p => { p with writeRev := p.writeRev.map near }
      | none => s

/-- What a revolution leaves unwritten of its WRITE slots is void (R153); the cause of a slot that nothing else accounts for is
log entry 137. -/
def State.voidUnwritten (s : State) (n : Fin 16) (cause : Nat) : State :=
  match (s.head n).pass with
  | none => s
  | some p => p.toWrite.foldl (fun t (d, e) => t.voidSlot n d e cause) s

/-- A write revolution ends: what was written is counted, what was not is void, voids are reported, and the band's DONE is set
after its second revolution (R140, R147, R153). -/
def State.endWriteRev (s : State) (n : Fin 16) : State :=
  let s := s.settleWrites n s.now
  match (s.head n).pass with
  | none => s
  | some p =>
    match p.writeRev with
    | none => s
    | some w =>
      let s := (s.voidUnwritten n 0).reportVoids n
      let s := if w.rev % 2 = 0 ∧ p.bandDescs.any (fun d => d.addr == wbdAddr p ((w.rev - 1) / 2)) then
          let a := wbdAddr p ((w.rev - 1) / 2) + 16
          s.memWrite 1 a [(s.memByte a).toNat ||| 2]
        else s
      s.modPass n fun p => { p with writeRev := none }

/-- The slots of commands that were aborted at the head before this revolution are not written (R155). -/
def State.voidAborted (s : State) (n : Fin 16) : State :=
  match (s.head n).pass with
  | none => s
  | some p =>
    let mine (e : SlotEntry) : Bool := p.aborts.any fun a => a.1.contains (e.track, e.slot)
    (p.toWrite.filter fun (_, e) => mine e).foldl (fun t (d, e) => t.voidSlot n d e 4) s

/-- A write revolution begins at the seam that opens it (R142, R147, R150): the descriptor of a band's first revolution
is read, and with READY 0 nothing is written and the pass is hemmed. -/
def State.beginWriteRev (s : State) (n : Fin 16) (seam : Stamp) : State :=
  match (s.head n).pass with
  | none => s
  | some p =>
    let k := p.rev1
    let m := (k - 1) / 2
    if p.desc.mode ≠ .backstitch ∨ 2 * p.desc.count < k then s
    else if k % 2 = 1 ∧ ¬ bandReady s p m then
      (s.logHead n 0x1208 (p.desc.bandAt (k - 1)) p.no).hemRequest n seam false []
    else
      let p := if k % 2 = 1 then { p with bandDescs := p.bandDescs ++ [readBand s p.cfg.fmt p m] } else p
      let rev := revNow (s.head n)
      let last := (p.toWrite.map fun (_, e) => e.slot).foldl max 0
      let w : WriteRev :=
        { rev := k, due := !p.toWrite.isEmpty, writing := false, mask := p.writeMask
          startAt := (predictBit s n rev 0).getD 0
          stopAt := (predictBit s n rev (last * slotBits + slotBits - 1)).getD 0
          nextBlock := 0, byFrame := [], voided := 0, firstVoid := none, rates := [], aim := none, stopSent := false }
      (s.modPass n fun _ => { p with writeRev := some w }).voidAborted n

/-- The write-data blocks of the frame that launches now (R69, R145): every block with a symbol that would otherwise be
written before the following frame could bring it, up to `room` blocks and to the last symbol of the stream. Blocks go round
robin over the mask. -/
def State.writeBlocks (s : State) (n : Fin 16) (room : Nat) : List (List Nat) × State :=
  match (s.head n).pass with
  | none => ([], s)
  | some p =>
    match p.writeRev with
    | none => ([], s)
    | some w =>
      let beams := (List.range 12).filter fun b => testBitN w.mask b
      let upto := min (max w.startAt (s.now + 240)) w.stopAt
      let need := w.consumedAt upto / 2 ^ 32 + 1 - w.firstSymbol
      let blocks := ceilDiv need 16 * beams.length
      let k := min room (blocks - w.nextBlock)
      if !w.writing then ([], s)
      else
        let u := fmtU (fmtNow s n) (bandNow (s.head n))
        let block (j : Nat) : List Nat :=
          let q := w.nextBlock + j
          let beam := beams.getD (q % max 1 beams.length) 0
          let track := (p.trackB0 p.rev1 + beam).toNat
          (List.range 16).map fun i => symbolAt s p u track (w.firstSymbol + 16 * (q / max 1 beams.length) + i)
        let adv (w : WriteRev) : WriteRev :=
          { w with nextBlock := w.nextBlock + k, byFrame := (s.now / 48, w.nextBlock + k) :: w.byFrame }
        ((List.range k).map block, s.modPass n fun p => { p with writeRev := p.writeRev.map adv })

end Sys2Proof.Machine
end

