-- ==== Sys2Proof/Machine/MotionOps.lean ====
section
/-!
DEFINITION. Machine/MotionOps.lean: what the motor island does: sled commands and their effects (R191 to R207), the
spindle's states (R208 to R217), and the governor with its claims (R220, R221).
-/

namespace Sys2Proof.Machine

/-! ## Sleds -/

/-- A sled, and a sled changed. -/
def State.sled (s : State) (n : Fin 16) : Sled := s.motion.sleds[n]
def State.modSled (s : State) (n : Fin 16) (f : Sled → Sled) : State :=
  { s with motion := { s.motion with sleds := s.motion.sleds.set n (f s.motion.sleds[n]) } }

/-- An event of the motor island. -/
def State.logMot (s : State) (code : Nat) (a0 a1 a2 a3 : Nat := 0) : State := s.log srcMotor .motor code a0 a1 a2 a3

/-- The code of a sled state, and of a command (Tables 9-9, 9-10). -/
def sledStCode : SledSt → Nat
  | .idle => 0 | .hold => 1 | .move => 2 | .follow => 3 | .home => 4 | .frozen => 5
def sledCmdCode : SledCmd → Nat
  | .idle => 1 | .hold => 2 | .move => 3 | .follow => 4 | .home => 5 | .softstop => 6

/-- M at a tick, in 2^-32 microsteps, from the velocities kept (R193): the emitter adds V on every motor cycle of 7.5
ticks, the first of a stretch included. -/
def Sled.mAt (x : Sled) (t : Stamp) : Option Int :=
  (x.marks.find? fun k => k.tick ≤ t).map fun k => k.m + k.v * ((2 * (t - k.tick) / 15 + 1 : Nat) : Int)

/-- M and V now. -/
def Sled.mNow (x : Sled) (now : Stamp) : Int := (x.mAt now).getD 0
def Sled.v (x : Sled) : Int := (x.marks.headD ⟨0, 0, 0⟩).v

/-- Whole microsteps of M, and P (R192). -/
def wholeM (m : Int) : Int := floorDiv m (2 ^ 32)
def Sled.pNow (x : Sled) (now : Stamp) : Int := wholeM (x.mNow now) + x.ofs

/-- A stretch of velocity v that begins now at M = m; marks older than 1,024 profile ticks are dropped, except the one
that covers the oldest tick. A stretch of 0 after a motion is where V begins to be 0. -/
def Sled.mark (x : Sled) (now : Stamp) (m v : Int) : Sled :=
  let young := x.marks.takeWhile fun k => now < k.tick + 1024 * ticksUs
  let old := (x.marks.dropWhile fun k => now < k.tick + 1024 * ticksUs).take 1
  { x with marks := ⟨now, m, v⟩ :: young ++ old, restFrom := if v = 0 ∧ x.v = 0 then x.restFrom else now }

/-- SL_STATUS.STATE brought up to the sled. -/
def State.showSled (s : State) (n : Fin 16) : State :=
  s.setFld (R.SL_STATUS n.val) F.SL_STATUS_STATE (sledStCode (s.sled n).st)

/-- The SL.CMD completions of a sled (Table 10-10): result 0 at HOLD, 1 at FROZEN or IDLE, with P as data. -/
def State.completeSled (s : State) (n : Fin 16) (result : Nat) : State :=
  let x := s.sled n
  let s := x.waiters.foldl (fun t w => t.complete w .device srcMotor (t.stamp .motor) result (arg (x.pNow s.now))) s
  s.modSled n fun x => { x with waiters := [] }

/-- M at a profile tick, before the motor cycle of that tick adds V. -/
def Sled.mBefore (x : Sled) (now : Stamp) : Int :=
  match x.marks with
  | k :: _ => if k.tick = now then k.m else k.m + k.v * (2 * ((now - k.tick : Nat) : Int) / 15)
  | [] => 0

/-- A sled enters a state in which it rests: V is 0 and M holds at m (R197). In motion, UNCERTAIN is set. -/
def State.restSled (s : State) (n : Fin 16) (st : SledSt) (m : Int) : State :=
  let moving : Bool := (s.sled n).v != 0
  let s := if moving then s.setFld (R.SL_STATUS n.val) F.SL_STATUS_UNCERTAIN 1 else s
  let s := s.modSled n fun x =>
    let y := x.mark s.now m 0
    { y with st := st, holdCur := x.holdCur && x.st == .hold && st == .hold && !moving }
  let s := if st = .idle then s.modSled n fun x => { x with
      chopA := { x.chopA with delta := 0, bridge := 0 }, chopB := { x.chopB with delta := 0, bridge := 0 } } else s
  (s.showSled n).completeSled n (if st = .hold then 0 else 1)

/-- STOP, HOLD or IDLE of a moving sled logs event 0x5001. -/
def State.restByCommand (s : State) (n : Fin 16) (st : SledSt) (m : Int) : State :=
  let v := (s.sled n).v
  let p := wholeM m + (s.sled n).ofs
  let s := s.restSled n st m
  if v ≠ 0 then s.logMot 0x5001 n.val (arg p) (arg v) (s.stamp .motor % 2 ^ 32) else s

/-- A fault freezes a sled at once, and commands that have not taken effect are discarded (R194, R197). -/
def State.freezeSled (s : State) (n : Fin 16) (fault : Nat) : State :=
  let s := s.modSled n fun x => { x with cmds := [] }
  (s.restSled n .frozen ((s.sled n).mNow s.now)).setFld (R.SL_STATUS n.val) F.SL_STATUS_FAULT fault

/-- Why a command to a sled is refused (R191, R194): its head was never populated, or FAULT is set and the command is
not IDLE. -/
def sledRefusal (s : State) (n : Fin 16) (cmd : Nat) : Option Nat :=
  if !s.headPopulated n.val then some 0
  else if s.fld (R.SL_STATUS n.val) F.SL_STATUS_FAULT ≠ 0 ∧ cmd ≠ 1 then some 1
  else none

/-- A command reaches the motor island: refused with event 0x500A, or waiting for the next profile tick (R194). -/
def State.sledCommand (s : State) (n : Fin 16) (c : SledCmd) (who : Option Waiter) : State :=
  match sledRefusal s n (sledCmdCode c) with
  | some cause => s.logMot 0x500A n.val (sledCmdCode c) cause
  | none => s.modSled n fun x => { x with cmds := x.cmds ++ [c], waiters := x.waiters ++ who.toList }

/-- STOP acts at the next motor cycle and discards the commands that wait (R194, R197). -/
def State.sledStop (s : State) (n : Fin 16) (who : Option Waiter) : State :=
  match sledRefusal s n 7 with
  | some cause => s.logMot 0x500A n.val 7 cause
  | none =>
    let s := s.modSled n fun x => { x with cmds := [], waiters := x.waiters ++ who.toList }
    s.restByCommand n .frozen ((s.sled n).mNow s.now)

/-- A target held within the soft limits (R195). -/
def State.writeTarget (s : State) (n : Fin 16) (p : Int) : State :=
  let lo := toSigned (s.reg (R.SL_LIMIT_LO n.val)).toNat 32
  let hi := toSigned (s.reg (R.SL_LIMIT_HI n.val)).toNat 32
  let c := clampInt lo hi p
  let s := if c = p then s else s.setFld (R.SL_STATUS n.val) F.SL_STATUS_CLAMPED 1
  let s := s.setReg (R.SL_TARGET n.val) (BitVec.ofNat 32 (arg c))
  s.modSled n fun x => { x with target := if x.st = .move then c else x.target }

/-- SOFTSTOP's stopping distance 100·v²/a + 200·|v|, rounded up to a whole microstep (R195). -/
def softstopDist (v a : Int) : Int :=
  let num := 100 * v * v + 200 * (v.natAbs : Int) * a
  let den := a * 2 ^ 32
  if den = 0 then 0 else - floorDiv (-num) den

/-- The level of the switch's pin: its qualified level, turned by each edge of an open window (R204, R205). -/
def Switch.level (w : Switch) : Bool :=
  match w.window with
  | some e => w.asserted != (e.edges % 2 == 1)
  | none => w.asserted

/-- One command takes effect at a profile tick (Table 9-1). -/
def State.applySledCmd (s : State) (n : Fin 16) (c : SledCmd) : State :=
  let x := s.sled n
  let a : Int := s.fld (R.SL_PROFILE n.val) F.SL_PROFILE_AMAX
  match c with
  | .idle => s.restByCommand n .idle (x.mBefore s.now)
  | .hold => s.restByCommand n .hold (x.mBefore s.now)
  | .move =>
    let t := toSigned (s.reg (R.SL_TARGET n.val)).toNat 32
    s.modSled n fun x => { x with st := .move, target := t, holdCur := false }
  | .follow => s.modSled n fun x => { x with st := .follow, holdCur := false }
  | .home => s.modSled n fun x =>
      { x with st := .home, stage := if x.home.level then .outward else .inward, holdCur := false }
  | .softstop =>
    let t := wholeM (x.mBefore s.now) + x.ofs + (if x.v < 0 then -1 else 1) * softstopDist x.v a
    s.modSled n fun x => { x with st := .move, target := t, holdCur := false }

/-- What a profile tick makes of a sled: V, and the state that it ends in where it comes to rest. -/
inductive ProfileOut where
  | velocity (v : Int)
  | arrive
  | homed
  deriving DecidableEq, Repr

/-- Microsteps to rest from V at A, and in one profile tick (R195). -/
def dstopOf (v a : Int) : Int := if a = 0 then 2 ^ 40 else floorDiv (floorDiv (100 * v * v) a) (2 ^ 32)
def leadOf (v : Int) : Int := floorDiv ((v.natAbs : Int) * 200) (2 ^ 32)
def sgn (v : Int) : Int := if 0 < v then 1 else if v < 0 then -1 else 0
def absI (v : Int) : Int := (v.natAbs : Int)

/-- MOVE (R195). D is the distance in whole microsteps to the target. -/
def profileMove (v a vmax d : Int) : ProfileOut :=
  let dir := sgn d
  if absI d ≤ 1 ∧ absI v ≤ a then .arrive
  else if v ≠ 0 ∧ sgn v ≠ dir then .velocity (v + dir * a)
  else if absI d ≤ dstopOf v a + leadOf v then .velocity (v - sgn v * min a (absI v))
  else .velocity (dir * min (absI v + a) vmax)

/-- FOLLOW (R196): p, lo, hi are the position and its limits. -/
def profileFollow (v a vmax vr p lo hi : Int) : Int :=
  let c := v + clampInt (-a) a (clampInt (-vmax) vmax vr - v)
  let room := if 0 < c then hi - p else p - lo
  if c ≠ 0 ∧ room ≤ dstopOf c a + leadOf c then v - sgn v * min a (absI v) else c

/-- HOME (R205): outward until a deassertion qualifies, then inward, at HOME_V, and at last to rest. -/
def profileHome (v a homeV : Int) : HomeStage → ProfileOut
  | .outward => .velocity (v + clampInt (-a) a (homeV - v))
  | .inward => .velocity (v + clampInt (-a) a (-homeV - v))
  | .slowing => if absI v ≤ a then .homed else .velocity (v - sgn v * a)

/-- One sled's profile tick: waiting commands, then V (R193 to R196), and its part of the load-angle window (R201). -/
def State.profileSled (s : State) (n : Fin 16) : State :=
  let cmds := (s.sled n).cmds
  let s := s.modSled n fun x => { x with cmds := [] }
  let s := cmds.foldl (fun t c => t.applySledCmd n c) s
  let x := s.sled n
  let m := x.mBefore s.now
  let v := x.v
  let a : Int := s.fld (R.SL_PROFILE n.val) F.SL_PROFILE_AMAX
  let vmax : Int := s.fld (R.SL_VMAX n.val) F.SL_VMAX_VMAX
  let homeV : Int := 256 * s.fld (R.SL_PROFILE n.val) F.SL_PROFILE_HOME_V
  let lo := toSigned (s.reg (R.SL_LIMIT_LO n.val)).toNat 32
  let hi := toSigned (s.reg (R.SL_LIMIT_HI n.val)).toNat 32
  let kv : Int := s.fld (R.SL_AUX_CFG n.val) F.SL_AUX_CFG_KV
  let p := wholeM m + x.ofs
  let out := match x.st with
    | .move => profileMove v a vmax (x.target - p)
    | .follow => .velocity (profileFollow v a vmax (roundDiv (x.demand * kv) 128) p lo hi)
    | .home => profileHome v a homeV x.stage
    | _ => .velocity 0
  let s := match out with
    | .velocity w => s.modSled n fun x => x.mark s.now m w
    | .arrive =>
      let s := s.modSled n fun x =>
        let y := x.mark s.now ((x.target - x.ofs) * 2 ^ 32) 0
        { y with st := .hold, holdCur := false }
      (s.showSled n).completeSled n 0
    | .homed =>
      let s := s.modSled n fun x =>
        let y := x.mark s.now m 0
        { y with st := .hold, holdCur := false }
      (s.showSled n).completeSled n 0
  let vmin : Int := (s.fld (R.SL_LA_CFG n.val) F.SL_LA_CFG_VMIN : Int) * 2 ^ 20
  let s := s.modSled n fun x =>
    let fast := decide (vmin ≤ absI x.v)
    { x with
      winTicks := x.winTicks + 1
      winFast := if x.winTicks = 0 then fast else x.winFast && fast
      winMid := if x.winTicks = 32 then wholeM m else x.winMid }
  s.showSled n

/-- SL.REREF (R207). -/
def State.reref (s : State) (n : Fin 16) (rho lam : Int) (t : Stamp) : State :=
  let x := s.sled n
  let refuse (cause : Nat) := s.logMot 0x500A n.val 8 cause
  if !s.headPopulated n.val then refuse 0
  else if s.fld (R.SL_STATUS n.val) F.SL_STATUS_FAULT ≠ 0 then refuse 1
  else if x.st = .home then refuse 3
  else if s.now < t ∨ t + 1024 * ticksUs < s.now then refuse 2
  else
    let origin := toSigned (s.reg (R.SL_ORIGIN n.val)).toNat 32
    let p := roundDiv ((rho - lam - origin) * 256) 6250
    let ofs := p - wholeM ((x.mAt t).getD 0)
    let s := s.modSled n fun x => { x with ofs := ofs }
    let s := s.setFld (R.SL_STATUS n.val) F.SL_STATUS_UNCERTAIN 0
    (s.showSled n).logMot 0x5009 n.val (arg (ofs - x.ofs)) (arg rho) (t % 2 ^ 32)

/-! ## The governor -/

/-- A claim of a waiting open, its change into the claim of an open pass, and the end of that (R221). -/
def State.claimOpen (s : State) (n : Fin 16) (u : Nat) : State :=
  { s with motion := { s.motion with waiting := (n.val, u) :: (s.motion.waiting.filter fun (c : Nat × Nat) => c.1 != n.val) } }.updateGov
def State.openClaim (s : State) (n : Fin 16) : State :=
  let mine := s.motion.waiting.filter fun (c : Nat × Nat) => c.1 == n.val
  { s with motion := { s.motion with
      claims := mine ++ (s.motion.claims.filter fun (c : Nat × Nat) => c.1 != n.val)
      waiting := s.motion.waiting.filter fun (c : Nat × Nat) => c.1 != n.val } }.updateGov
def State.endClaim (s : State) (n : Fin 16) : State :=
  { s with motion := { s.motion with claims := s.motion.claims.filter fun (c : Nat × Nat) => c.1 != n.val } }.updateGov

/-- REF and the measured speed are at or below the CEIL of a claim (R221). -/
def claimMet (s : State) (u : Nat) : Bool :=
  let lim := ceilOf u * 960
  s.fld R.SP_REF F.SP_REF_REF ≤ lim && s.fld R.SP_SPEED F.SP_SPEED_MEAS ≤ lim

/-! ## The spindle -/

/-- The spindle changed. -/
def State.modSpin (s : State) (f : Spindle → Spindle) : State :=
  { s with motion := { s.motion with spin := f s.motion.spin } }

/-- The code of a spindle state. -/
def spinStCode : SpinSt → Nat
  | .stopped => 0 | .listen => 1 | .brake => 2 | .align => 3 | .openLoop => 4
  | .run => 5 | .lost => 6 | .stopping => 7 | .fault => 8

/-- SP_STATUS, SP_SPEED and SP_DUTY brought up to the spindle. MEAS is 3,750,000,000 / T60 rpm in 1/16 rpm (R209). -/
def State.showSpin (s : State) : State :=
  let x := s.motion.spin
  let r := R.SP_STATUS
  let s := s.setFld r F.SP_STATUS_STATE (spinStCode x.st)
  let s := s.setFld r F.SP_STATUS_SECTOR x.sector
  let s := s.setFld r F.SP_STATUS_MISSES x.misses
  let s := s.setFld r F.SP_STATUS_ATTEMPT (min 7 x.attempt)
  let s := s.setFld r F.SP_STATUS_PATH x.path
  let meas := if x.t60 = 0 then 0 else min (2 ^ 20 - 1) (openRound 60000000000 x.t60).toNat
  (s.setFld R.SP_SPEED F.SP_SPEED_MEAS meas).setFld R.SP_DUTY F.SP_DUTY_DUTY x.duty

/-- Measured speed in whole rpm. -/
def rpmNow (s : State) : Nat := s.fld R.SP_SPEED F.SP_SPEED_MEAS / 16

/-- The speed above CEIL with a pass open is logged once per episode (R221). -/
def State.overSpeed (s : State) : State :=
  let ceil := s.fld R.SP_GOV F.SP_GOV_CEIL
  let above := ceil * 960 < s.fld R.SP_SPEED F.SP_SPEED_MEAS ∧ s.motion.claims ≠ []
  if above ∧ ¬ s.motion.spin.above then
    (s.modSpin fun x => { x with above := true }).logMot 0x5019 (rpmNow s) ceil
  else if ¬ above then s.modSpin fun x => { x with above := false }
  else s

/-- Every head with an open pass is hemmed at stamp h with c = h (R211, R217). -/
def State.hemAll (s : State) (h : Stamp) : State :=
  (List.finRange 16).foldl (fun t n => t.hemRequest n h true []) s

/-- The spindle enters a state now. -/
def State.spinTo (s : State) (st : SpinSt) (stage : SpinStage) : State :=
  (s.modSpin fun x => { x with st := st, stage := stage, since := s.now }).updateGov.showSpin

/-- All phases float, and a LISTEN begins. -/
def State.spinListen (s : State) (st : SpinSt) (stage : SpinStage) : State :=
  (s.modSpin fun x => { x with
    crossings := [], t60 := 0, next := none, duty := 0, dutyNext := none, goodRun := 0, misses := 0 }).spinTo st stage

/-- A start attempt begins with LISTEN (R212). -/
def State.beginAttempt (s : State) (k : Nat) : State :=
  (s.modSpin fun x => { x with attempt := k, restart := false }).spinListen .listen .plain

/-- Entry to FAULT: gates low, and the hems of R211 at the entry stamp (R217). -/
def State.spinFault (s : State) (cause : Nat) (h : Stamp) : State :=
  let s := s.modSpin fun x => { x with duty := 0, dutyNext := none, next := none, restart := false }
  let s := s.spinTo .fault .plain
  (s.setFld R.SP_STATUS F.SP_STATUS_FAULT cause).hemAll h

/-- A start attempt fails (R213). -/
def State.failAttempt (s : State) (cause : Nat) : State :=
  let k := s.motion.spin.attempt
  let s := s.logMot 0x5011 k cause
  if s.fld R.SP_ALIGN_CFG F.SP_ALIGN_CFG_RETRIES < k then
    (s.spinFault 3 (s.stamp .motor)).logMot 0x5012 k 3
  else s.beginAttempt (k + 1)

/-- The preset duty at a measured speed (R214). -/
def presetDuty (s : State) (rpm : Nat) : Nat := min 4095 (rpm * s.fld R.SP_START_CFG F.SP_START_CFG_KE / 4096)

/-- RUN is entered by a start: REF starts at the measured speed, and event 0x5010 tells the path (R213, R220). -/
def State.enterRun (s : State) (path : Nat) (stamp : Stamp) : State :=
  let s := s.modSpin fun x => { x with path := path, runSince := stamp, misses := 0 }
  let s := s.spinTo .run .plain
  let s := s.setFld R.SP_REF F.SP_REF_REF (s.fld R.SP_SPEED F.SP_SPEED_MEAS)
  s.logMot 0x5010 path s.motion.spin.attempt (rpmNow s) (stamp % 2 ^ 32)

/-- RUN resumes after a resynchronisation (R211), with REF at the measured speed (R220). -/
def State.resumeRun (s : State) : State :=
  let s := s.spinTo .run .plain
  s.setFld R.SP_REF F.SP_REF_REF (s.fld R.SP_SPEED F.SP_SPEED_MEAS)

/-- The advance of R210 in ticks. -/
def advanceTicks (s : State) (t60 : Nat) : Nat :=
  let fe := 1500000000 / (6 * t60)
  let phi := min (s.fld R.SP_COMM_CFG F.SP_COMM_CFG_ADV_MAX) (s.fld R.SP_COMM_CFG F.SP_COMM_CFG_ADV_K * fe / 1024)
  t60 * phi / 960

/-- The commutation stamp after a qualified crossing (R210). -/
def commutationAfter (s : State) (t60 tz : Nat) : Stamp := max s.now (tz + t60 / 2 - advanceTicks s t60)

/-- The forced commutation stamp (R210). -/
def forcedAt (s : State) : Stamp :=
  let x := s.motion.spin
  x.tk + x.t60 - advanceTicks s x.t60

/-- The mean of up to six intervals between crossings, newest first (R209). -/
def meanT60 (cs : List (Nat × Stamp)) : Nat :=
  match cs with
  | (_, a) :: _ :: _ =>
    let l := cs.take 7
    let k := l.length - 1
    (a - (l.getLastD (0, a)).2) / max 1 k
  | _ => 0

/-- A controlled stop from a stage of it (R216): past the ramp no phase is driven. -/
def State.controlledStop (s : State) (stage : SpinStage) (relost : Bool) : State :=
  (s.modSpin fun x =>
    if stage = .ramp then { x with restart := relost }
    else { x with restart := relost, duty := 0, dutyNext := none, next := none }).spinTo .stopping stage

/-- The phases float, and braking follows, once REF has ramped down to 1,200 rpm (R216). -/
def State.rampDone (s : State) : State :=
  if s.motion.spin.stage = .ramp ∧ s.fld R.SP_REF F.SP_REF_REF ≤ 1200 * 16 then
    s.controlledStop .burst s.motion.spin.restart
  else s

/-- R219. A spindle demand v, in Q0.23, sets the duty of the next PWM period in RUN, and is ignored otherwise. -/
def State.spinDemand (s : State) (v : Int) : State :=
  if s.motion.spin.st = .run then
    s.modSpin fun x => { x with dutyNext := some (min 4095 (roundDiv (max 0 v * 4095) (2 ^ 23)).toNat) }
  else s

/-- Stopped: a START that waits runs now (R212, R216). -/
def State.spinStopped (s : State) : State :=
  let again := s.motion.spin.restart
  let s := (s.modSpin fun x => { x with duty := 0, t60 := 0, restart := false }).spinTo .stopped .plain
  if again then s.beginAttempt 1 else s

/-- START (R212): a start in STOPPED or FAULT, a wait in STOPPING, otherwise ignored. `faultPin` is the level of
SP_FLT_N: low keeps a bridge fault's cause, and a current still above OC_TRIP keeps that of a trip. -/
def State.spinStart (s : State) (faultPin : Bool) : State :=
  match s.motion.spin.st with
  | .stopped => s.beginAttempt 1
  | .fault =>
    let cause := s.fld R.SP_STATUS F.SP_STATUS_FAULT
    let oc : Int := s.fld R.SP_PROT F.SP_PROT_OC_TRIP
    if (cause = 1 ∧ faultPin) ∨ (cause = 2 ∧ oc < s.motion.spin.current) then s.logMot 0x5012 s.motion.spin.attempt cause
    else (s.setFld R.SP_STATUS F.SP_STATUS_FAULT 0).beginAttempt 1
  | .stopping => s.modSpin fun x => { x with restart := true }
  | _ => s

/-- STOP (R216): in RUN the reference ramps down first; a spindle that is not driven brakes at once; at rest or in
FAULT there is nothing to stop, but a START that waits for a trim is withdrawn. -/
def State.spinStop (s : State) : State :=
  match s.motion.spin.st with
  | .run => (s.controlledStop .ramp false).rampDone
  | .stopped => s.modSpin fun x => { x with restart := false }
  | .fault => s
  | .stopping => s.modSpin fun x => { x with restart := false }
  | _ => s.controlledStop .burst false

/-- DEMAND (R220), held to 20 to 100. -/
def State.setDemand (s : State) (d : Nat) : State :=
  (s.setFld R.SP_GOV F.SP_GOV_DEMAND (clampNat 20 100 d)).updateGov

end Sys2Proof.Machine
end

