-- ==== Sys2Proof/Machine/PassOps.lean ====
section
/-!
DEFINITION. Machine/PassOps.lean: the opening and the end of a pass: seeding (R85, R86), the opening at a seam (R236),
relocation lists (R143), the zone write-back (R87), and what follows a hem's completion (R33, R236).
-/

namespace Sys2Proof.Machine

/-! ## Beam channels between passes -/

/-- The adaptive state of a beam is discarded (R33); what its dropout detector watches stays. -/
def Beam.discard (b : Beam) : Beam :=
  { Beam.reset with
    raw := b.raw, recent := b.recent, dropout := b.dropout, guard := b.guard, longDrop := b.longDrop }

/-- Up lane k carries beams 3k to 3k + 2: a beam is in service while its lane is active (R77). -/
def laneActive (h : Head) (beam : Fin 12) : Bool := (h.link.lanes[beam.val / 3]'(by omega)).st == .active

/-! ## Seeding -/

/-- The bytes of a zone entry (R85). -/
def zoneBytes (s : State) (addr n : Nat) : List Nat := (List.range n).map fun i => (s.memByte (addr + i)).toNat

/-- The seeds of a beam from a zone entry, held to their limits, and whether a limit acted (R97). -/
def seedBeam (s : State) (entry j : Nat) (valid : Bool) : Adaptive × Seeds × Bool :=
  if valid then
    let (a, sd) := seedsOf (zoneBytes s (entry + 64 * j) 64) (zoneBytes s (entry + 768) 5)
    (a.limit, sd, decide (a.limit ≠ a))
  else (defaultSeeds.1, defaultSeeds.2, false)

/-- Seeds put into every beam channel of a head (R86). -/
def State.seedHead (s : State) (n : Fin 16) (entry : Nat) (valid : Bool) : State :=
  (List.finRange 12).foldl (fun t j =>
    let (a, sd, _) := seedBeam s entry j.val valid
    t.modBeam n j fun b => { b with adapt := a, seeds := sd, seeded := true, lastCheck := a }) s

/-- How many beams had a seed outside its limits: they are counted once the pass has opened (R97). -/
def seedClamps (s : State) (entry : Nat) (valid : Bool) : Nat :=
  ((List.range 12).filter fun j => (seedBeam s entry j valid).2.2).length

/-! ## Relocation lists -/

/-- The entries of one band's list, up to its end or 192 entries (R143). -/
def readReloc (s : State) (band addr : Nat) : Nat → List Reloc
  | 0 => []
  | k + 1 =>
    let w := memNat s addr 4
    if w = 0xFFFFFFFF then []
    else
      let rest := readReloc s band (addr + 4) k
      let kind := natBits w 31 30
      if kind ≤ 1 then
        ⟨band, kind == 1, natBits w 29 26, natBits w 25 17, natBits w 16 13, natBits w 12 4⟩ :: rest
      else rest

/-- The lists of a pass: COUNT pointers at RELOC, none where RELOC is 0 (Table 10-9, R143). -/
def readRelocs (s : State) (d : PassDesc) : List Reloc :=
  if d.reloc = 0 then []
  else (List.range d.count).flatMap fun i =>
    readReloc s (if d.inward then d.start - i else d.start + i) (memNat s (d.reloc + 8 * i) 8) 192

/-! ## Opening -/

/-- A waiting open that needs READY completes with result 4 when READY clears, and its claim is withdrawn (R236). -/
def State.openNotReady (s : State) (n : Fin 16) : State :=
  match (s.head n).opening with
  | some o =>
    if (o.stage = .seeding ∨ o.stage = .awaitSeam) ∧ ¬ flyReady s n then
      ((s.modHead n fun h => { h with opening := none }).dropOpenClaim n).completeHead n o.who 4 0
    else s
  | none => s

/-- An address as event arguments and HD_ADDR lay it out: [22:19] layer, [18:0] track. -/
def addrPlace (layer track : Nat) : Nat := layer * 2 ^ 19 + track

/-- A disagreement with the expected address (R43): event 0x1301 with what the head meets, ADDR_OK clears, the write gate fails,
and acceptance starts again, with the word that disagreed as the first of two if there is one. -/
def State.disagree (s : State) (n : Fin 16) (first : Option AddrWord) (place word : Nat) : State :=
  let e := (s.head n).fly.expected
  let s := s.logHead n 0x1301 (e.elim 0 fun x => addrPlace x.1 x.2) place word
  let s := s.modHead n fun h => { h with fly := { h.fly with expected := none } }
  ((s.dropAddress n first).gateFails n 0).openNotReady n

/-- The counters that a pass opening sets to 0. -/
def State.clearPassCounters (s : State) (n : Fin 16) : State :=
  [R.HD_SYNC_CNT0 n.val, R.HD_SYNC_CNT1 n.val, R.HD_UNPICK_CNT n.val, R.HD_SOFTERASE_CNT n.val, R.HD_DROP_CNT n.val,
   R.HD_CLAMP_CNT n.val, R.HD_WR_CNT n.val, R.HD_VFY_CNT n.val, R.HD_VFY_CNT1 n.val].foldl (fun t r => t.setReg r 0) s

/-- The strategy tables of a backstitch pass, one STRAT for each writing beam (R146): 32 bytes and 4 of zero. -/
def State.sendStrats (s : State) (n : Fin 16) (p : Pass) : State :=
  let base := p.cfg.strat + (p.desc.layer * 32 + p.zone) * 512
  (List.range 6).foldl (fun t i =>
    let j := p.writeBeam + i
    t.sendMsg n (.strat j (zoneBytes s (base + 32 * j) 32 ++ [0, 0, 0, 0]))) s

/-- The register values that a pass takes, read at the tick at which its HD.OPEN reaches the head island (R52, R114,
R139). -/
def passCfgNow (s : State) (n : Fin 16) : PassCfg :=
  let w (r : Nat) : Nat := (s.reg r).toNat
  { fmt := w (R.HD_FMT_CFG n.val), sync := w (R.HD_SYNC_CFG n.val), ch := w (R.HD_CH_CFG n.val)
    adapt := w (R.HD_ADAPT_CFG n.val), timing := w (R.HD_TIMING_CFG n.val), unpick := w (R.HD_UNPICK_CFG n.val)
    drop := w (R.HD_DROP_CFG n.val), dropMask := w (R.HD_DROP_MASK n.val), wr := w (R.HD_WR_CFG n.val)
    vfyRaw := s.fld (R.HD_VFY_RAW n.val) F.HD_VFY_RAW_VFY_RAW
    zoneBase := s.fld (R.HD_ZONE_BASE_HI n.val) F.HD_ZONE_BASE_HI_BASE_HI * 2 ^ 32 +
      s.fld (R.HD_ZONE_BASE_LO n.val) F.HD_ZONE_BASE_LO_BASE_LO * 2 ^ 20
    strat := s.fld (R.HD_STRAT_BASE_HI n.val) F.HD_STRAT_BASE_HI_BASE_HI * 2 ^ 32 +
      (s.reg (R.HD_STRAT_BASE_LO n.val)).toNat
    raBands := s.fld R.DC_RA_CFG F.DC_RA_CFG_BANDS
    raBase := s.fld R.DC_RA_BASE_HI F.DC_RA_BASE_HI_BASE_HI * 2 ^ 32 +
      s.fld R.DC_RA_BASE_LO F.DC_RA_BASE_LO_BASE_LO * 2 ^ 20 }

/-- The pass opens at a seam (R32, R236): its number, its claim, its counters, and the answer to HD.OPEN. -/
def State.openPass (s : State) (n : Fin 16) (o : OpenReq) (seam : Stamp) : State :=
  let no := ((s.head n).passNo + 1) % 65536
  let zone := fmtZone o.cfg.fmt o.desc.start
  let cfg := o.cfg
  let p : Pass :=
    { no := no, opened := seam, desc := o.desc, cfg := cfg, zone := zone, rev := 0, relocs := o.relocs,
      bandDescs := [], writeRev := none, aborts := [], hem := none, admitted := [],
      dropped := [], claimed := [] }
  let s := (s.clearPassCounters n).bump (R.HD_CLAMP_CNT n.val) F.HD_CLAMP_CNT_CLAMP o.clamps
  let s := s.modHead n fun h =>
    let g := if h.ingest.base = cfg.zoneBase then h.ingest
      else { h.ingest with copies := [], nextSlot := 0, base := cfg.zoneBase }
    { h with
      passNo := no, pass := some p, opening := none, ingest := g
      laser := { h.laser with clampLogged := [] }
      beams := Vector.ofFn fun j => { h.beams[j] with inService := laneActive h j, rejoin := none } }
  let s := if o.desc.mode = .backstitch then s.sendStrats n p else s
  let s := s.openClaim n
  s.completeHead n o.who 0 (no * 65536 + seam % 65536)

/-! ## The end of a pass -/

/-- The zone write-back of R87: each beam's live state, WRITTEN_BACK and VALID, PASS and WB_STAMP. -/
def State.zoneWriteBack (s : State) (n : Fin 16) (p : Pass) : State :=
  let entry := zoneAddr p.cfg.zoneBase n.val p.desc.layer (fmtZone p.cfg.fmt (p.desc.bandAt p.rev))
  let s := (List.finRange 12).foldl (fun t j =>
    let b := (s.head n).beams[j]
    let a := if b.inService then b.adapt else b.lastCheck
    (t.memWrite 1 (entry + 64 * j.val) (writeBackHead a)).memWrite 1 (entry + 64 * j.val + 8) (writeBackTail a)) s
  let flags := (s.memByte (entry + 773)).toNat
  (s.memWrite 1 (entry + 773) [flags ||| 3]).memWrite 1 (entry + 774) (natBytes 2 p.no ++ natBytes 8 s.now)

/-- The claim u of an open: band_u of its outermost band (R221, R44). -/
def claimOf (fmt : Nat) (d : PassDesc) : Nat :=
  fmtU fmt (if d.inward then d.start else d.start + d.count - 1)

/-- A waiting HD.OPEN goes on once no hem is in its way: the head's unclaimed run-ahead bands are discarded, and the
claim is entered (R134, R236). -/
def State.openAfterHem (s : State) (n : Fin 16) : State :=
  match (s.head n).opening with
  | some o =>
    if o.stage = .awaitHem then
      let s := s.discardHeadBands n.val 1
      let s := s.modHead n fun h => { h with opening := h.opening.map fun o => { o with stage := .claim } }
      (s.claimOpen n (claimOf o.cfg.fmt o.desc)).overSpeed
    else s
  | none => s

/-- Step 6 of R33: the pass is closed, its adaptive state discarded, its claim ended, and every HD.HEM that waited
completes with result 0 and the pass number. -/
def State.closePass (s : State) (n : Fin 16) (p : Pass) (m : Hem) : State :=
  let s := s.modHead n fun h => { h with
    pass := none, beams := h.beams.map Beam.discard, replayQ := [], lanes := Vector.replicate 2 none
    seek := h.seek.map fun k => if k.stage = .awaitHem then { k with stage := .moving, note := some 0 } else k }
  let s := s.endClaim n
  let s := m.waiters.foldl (fun t w => t.completeHead n w 0 p.no) s
  let s := s.openAfterHem n
  if (s.head n).leaving.isSome then s.finishLeaving n else s

end Sys2Proof.Machine
end

