-- ==== Sys2Proof/Machine/LinkOps.lean ====
section
/-!
DEFINITION. Machine/LinkOps.lean: what happens on a Teant link: frames and their CRC (R58 to R60), samples found bad
(R66), lanes that leave and rejoin (R76, R77), the states of the link (R80, R371), and the D0 frame (R69 to R73, R157).
-/

namespace Sys2Proof.Machine

/-! ## Frames -/

/-- A lane of a head's link, and that lane changed. -/
def State.lane (s : State) (n : Fin 16) (k : Fin 4) : Lane := (s.head n).link.lanes[k]
def State.modLane (s : State) (n : Fin 16) (k : Fin 4) (f : Lane → Lane) : State :=
  s.modLink n fun l => { l with lanes := l.lanes.set k (f l.lanes[k]) }

/-- The header fields of a block (Table 4-2). -/
def parseHdr (b : Block) : FrameHdr :=
  let p := b.payload
  ⟨b.sync, natBits p 63 56, natBits p 55 54, natBits p 53 51, natBits p 47 32, natBits p 31 0⟩

/-- The header is valid: a control block of type 0xE1 with its reserved bits 0. -/
def hdrValid (b : Block) : Bool :=
  b.sync == 2 && natBits b.payload 63 56 == 0xE1 && natBits b.payload 50 48 == 0

/-- The declared pipeline depth, and the declared latencies (Table 4-18). -/
def feK (s : State) (n : Fin 16) : Nat := s.fld (R.TL_FE_CAP n.val) F.TL_FE_CAP_K
def feRx (s : State) (n : Fin 16) : Nat := s.fld (R.TL_FE_CAP n.val) F.TL_FE_CAP_L_RX
def feTx (s : State) (n : Fin 16) : Nat := s.fld (R.TL_FE_CAP n.val) F.TL_FE_CAP_L_TX

/-- The stamp c0 of a frame with count fcnt whose header arrived at a tick: the nearest launch with that count (R58). -/
def frameStamp (fcnt : Nat) (arrival : Stamp) : Stamp :=
  let f := arrival / 48
  let d := (f + 65536 - fcnt) % 65536
  48 * (if d < 32768 then f - d else f + (65536 - d))

/-! ## Samples found bad -/

/-- The samples of a beam stamped in [a, b) are found bad: erased, with every bit made of them marked, and every
unreleased interval that holds such a bit to be unpicked (R66, R99). -/
def Beam.markBad (bm : Beam) (a b : Stamp) : Beam :=
  let hit (t : Stamp) : Bool := a ≤ t && t < b
  let m := max 1 bm.adapt.decM
  let raw (x : RawSample) : RawSample := if hit x.stamp then { x with bad := true } else x
  let dec (x : DecSample) : DecSample :=
    if x.stamp < b ∧ a < x.stamp + m then { x with erased := true, bad := true } else x
  let near (x : ChanBit) : Bool :=
    decide (256 * (a : Int) - 768 * m < x.inst) && decide (x.inst < 256 * (b : Int) + 768 * m)
  let bit (x : ChanBit) : ChanBit := if near x then { x with bad := true, erased := true } else x
  let bits := bm.bits.map bit
  let force (i : Interval) : Interval :=
    if bm.bits.any fun x => near x && i.first ≤ x.pos && x.pos < i.first + i.len then { i with forced := true } else i
  { bm with raw := bm.raw.map raw, group := bm.group.map raw, recent := bm.recent.map raw, ring := bm.ring.map dec,
            bits := bits, intervals := bm.intervals.map force }

/-- The samples that beams took in the frame of stamp c0 are found bad. -/
def State.badSamples (s : State) (n : Fin 16) (beams : List (Fin 12)) (c0 : Stamp) : State :=
  let a := c0 - 48 * feK s n
  beams.foldl (fun t j => t.modBeam n j fun b => b.markBad a (a + 48)) s

/-- The beams of lane k. -/
def laneBeams (k : Fin 4) : List (Fin 12) := (List.finRange 12).filter fun j => j.val / 3 == k.val

/-- Lane k's fixed side blocks stand on another lane in a frame of stamp c0: the LANE message that moves them has applied, and
none that returns them since (R61, R72). -/
def Link.away (l : Link) (k : Nat) (c0 : Stamp) : Bool :=
  match l.moves.find? fun m => m.2.1 == k && decide (m.1 ≤ c0) with
  | some (_, _, gone) => gone
  | none => false

/-- The lane that carries STAT in a frame of stamp c0: U3, or the next one in order whose side blocks stand in their place
(R61). -/
def Link.statLane (l : Link) (c0 : Stamp) : Nat :=
  (([3, 0, 1, 2] : List Nat).find? fun k => !l.away k c0).getD 3

/-! ## Lanes -/

/-- The active lanes, by bit. -/
def activeMask (h : Head) : Nat :=
  ((indexed h.link.lanes.toList).map fun (k, l) => if l.st = .active then 2 ^ k else 0).sum

/-- A retraining lane's frames count again from this tick on: before it the lane carries PRBS31, or what it sent before its
LANE message applied (R77). -/
def Lane.from (l : Lane) : Option Stamp := l.prbsAt.map fun p => p + 12000

/-- How many lanes are active. -/
def activeCount (h : Head) : Nat := (h.link.lanes.toList.filter fun l => l.st == .active).length

/-- A lane leaves active (R76, R77): its beams leave service for the open pass, LANE(k, retrain) goes out, and a second
lane out of active is a link fault. `cause` is 0 for a burst and 1 for block lock. Sectors in flight on its beams, and those
that a replay of them was to finish, are queued for re-read (R104). -/
def State.laneLeaves (s : State) (n : Fin 16) (k : Fin 4) (cause : Nat) : State :=
  let errs := (s.lane n k).errs
  let s := s.modLane n k fun l => { l with
    st := .training, leftAt := some s.now, prbsAt := none, attempts := 1, goodRun := 0, cur := none, next := none
    syncBad := [] }
  let s := s.logHead n 0x2002 k.val cause errs
  if activeCount (s.head n) < 3 then s.linkFault n 0
  else
    let s := s.modLink n fun l => l.enter s.now .degraded false
    let s := s.sendMsg n (.lane k.val 0)
    let beams := laneBeams k
    let h := s.head n
    let replays := (h.replayQ ++ h.lanes.toList.filterMap fun l => l.map (·.job)).map (·.sector)
    let s := match h.pass with
      | some p =>
        s.requeue n (s.openSectors n.val p.no fun x =>
          beams.any (fun j => j.val == x.beam) && (x.lastSample.isNone || replays.contains x.id))
      | none => s
    beams.foldl (fun t j => t.modBeam n j fun b =>
      { b with inService := false, adapt := b.lastCheck, sector := none }) s

/-- A lost frame counts against its lane in TL_ERR_CNT, and against the window of an active lane of a usable link: at BURST the
lane leaves active (R76). -/
def State.laneError (s : State) (n : Fin 16) (k : Fin 4) : State :=
  let s := s.modLane n k fun l => { l with errs := l.errs + 1, goodRun := 0 }
  let f := match k.val with
    | 0 => F.TL_ERR_CNT_U0 | 1 => F.TL_ERR_CNT_U1 | 2 => F.TL_ERR_CNT_U2 | _ => F.TL_ERR_CNT_U3
  let s := s.bump (R.TL_ERR_CNT n.val) f 1
  if (s.lane n k).st = .active ∧ (s.head n).link.usable ∧
      s.fld (R.TL_ERR_CFG n.val) F.TL_ERR_CFG_BURST ≤ (s.lane n k).errs then
    s.laneLeaves n k 0
  else s

/-- A frame of a lane is lost (R65, R66): its samples are bad, those of every beam where it carried STAT. -/
def State.lostFrame (s : State) (n : Fin 16) (k : Fin 4) (c0 : Stamp) : State :=
  let beams := if (s.head n).link.statLane c0 = k.val then List.finRange 12 else laneBeams k
  (s.badSamples n beams c0).laneError n k

/-- A lane rejoins (R77). -/
def State.laneRejoins (s : State) (n : Fin 16) (k : Fin 4) : State :=
  let l := s.lane n k
  let s := s.modLane n k fun l => { l with st := .active, errs := 0, winStart := s.now, prbsAt := none, syncBad := [] }
  let s := s.sendMsg n (.lane k.val 1)
  let s := if activeCount (s.head n) = 4 then s.modLink n fun l => l.enter s.now .up false else s
  let s := (laneBeams k).foldl (fun t j => t.modBeam n j fun b => { b with inService := true, rejoin := some s.now }) s
  s.logHead n 0x2003 k.val l.attempts (s.now - l.leftAt.getD s.now)

/-! ## Link states -/

/-- Entry to TRAIN (Table 4-9, R80, R371), `asked` by RETRAIN or REALIGN. From a usable state the instructions in progress
end, and HD_LEN falls. A full training starts the forwarded clock, learns the lanes anew and sends PRBS31 on D0; a realignment
keeps D0 and the active lanes. -/
def State.linkTrain (s : State) (n : Fin 16) (realign asked : Bool) : State :=
  let usable := (s.head n).link.usable
  let t : Training := { t0 := s.now, realign := realign, attempts := 1,
                        step := if realign then .lanesLocked else .forwardClock, safe := false, echoes := []
                        alignAt := 0, locked := [], capSeen := false }
  let s := if usable then s.endHeadWork n else s
  let keep (l : Lane) : Lane :=
    if realign then { l with st := if l.st = .active then .active else .failed }
    else { Lane.off with st := .training }
  let s := s.modLink n fun l =>
    let l := { l.enter s.now .train asked with
      training := some t, queue := [], servoQ := [], displaced := [], held := [], side := [], sent := [], asks := []
      lanes := l.lanes.map keep, runs := Vector.replicate 4 (0, 0) }
    if realign then l
    else { l with pairs := Vector.replicate 4 none, moves := [], clock := true, d0 := none }
  let s := s.setFld (R.TL_STATUS n.val) F.TL_STATUS_ALIGNED 0
  let s := (s.setReg (R.TL_ERR_CNT n.val) 0).setReg (R.TL_DL_CNT n.val) 0
  s.updateLen n (s.stamp (.head n))

/-- An attempt fails (R80, R371): another from step 1, or FAULT with its cause after RETRIES attempts. -/
def State.trainFails (s : State) (n : Fin 16) (cause : Nat) : State :=
  match (s.head n).link.training with
  | none => s
  | some t =>
    if s.fld (R.TL_ERR_CFG n.val) F.TL_ERR_CFG_RETRIES ≤ t.attempts then s.linkFault n cause
    else
      let again : Training := { t with
        t0 := s.now, attempts := t.attempts + 1, step := if t.realign then .lanesLocked else .forwardClock
        locked := [], echoes := [], capSeen := false }
      s.modLink n fun l =>
        let l := { l with training := some again, runs := Vector.replicate 4 (0, 0) }
        if t.realign then l
        else { l with
          pairs := Vector.replicate 4 none, lanes := l.lanes.map fun _ => { Lane.off with st := .training }, d0 := none
          queue := [], held := [], displaced := [], side := [] }

/-- The alignment check passes (R68, R80, R371): LAT_UP and P are recorded, ALIGNED sets, and the link enters UP or
DEGRADED with event 0x2001; fewer than three lanes are a fault. -/
def State.linkAligned (s : State) (n : Fin 16) : State :=
  match (s.head n).link.training with
  | none => s
  | some t =>
    let h := s.head n
    let act := (List.finRange 4).filter fun k =>
      if t.realign then (h.link.lanes[k]).st == .active else t.locked.contains k.val
    if act.length < 3 then s.linkFault n 6
    else
      let lat := (act.map fun k => (h.link.lanes[k]).latUp).foldl max 0
      let p := 48 * feK s n + lat + 56
      let lanes := Vector.ofFn fun (k : Fin 4) =>
        let l := h.link.lanes[k]
        if act.contains k then { l with st := .active, errs := 0, winStart := s.now, syncBad := [], goodRun := 0 }
        else { l with st := .failed }
      let gone := ((List.finRange 4).filter fun k => !act.contains k).map fun k => (((0 : Nat), k.val, true) : Stamp × Nat × Bool)
      let s := s.modLink n fun l => { l.enter s.now (if act.length = 4 then .up else .degraded) false with
        training := none, lanes := lanes, presDelay := p, lastStat := some s.now
        moves := if t.realign then l.moves else gone }
      let s := s.setFld (R.TL_STATUS n.val) F.TL_STATUS_ALIGNED 1
      let s := s.setFld (R.TL_ALIGN n.val) F.TL_ALIGN_LAT_UP (h.link.lanes[(0 : Fin 4)]).latUp
      let s := s.setFld (R.HD_CH_STATUS n.val) F.HD_CH_STATUS_PRES_DLY p
      let s := s.linkReleaseSlots n
      let s := if t.safe then s.sendMsg n .safe else s
      let mask := (act.map fun k => 2 ^ k.val).sum
      let s := s.logHead n 0x2001 mask h.link.rt (h.link.lanes[(0 : Fin 4)]).latUp
      s.updateLen n (s.stamp (.head n))

/-! ## The D0 frame -/

/-- Messages that R73 keeps until a STAT reports their frame good: all but SETPT and WRATE. -/
def Msg.kept : Msg → Bool
  | .setpt _ _ | .wrate _ => false
  | _ => true

/-- R157. A laser set-point as it leaves: clamped to its limit, the clamp flagged, and logged once per actuator code and
span. -/
def State.clampSetpt (s : State) (n : Fin 16) (act : Nat) (v : Int) : Int × State :=
  if act < 0x10 ∨ 0x2B < act ∨ (0x1B < act ∧ act < 0x20) then (v, s)
  else
    let lim : Nat := if act < 0x20 then s.fld (R.HD_CEIL_RD n.val) F.HD_CEIL_RD_CEIL
      else s.fld (R.HD_CEIL_WR n.val) F.HD_CEIL_WR_CEIL * derateNow s n / 256
    let c := clampInt 0 lim v
    if c = v then (v, s)
    else
      let s := s.setFld (R.HD_LASER_STATUS n.val) F.HD_LASER_STATUS_CLAMPED 1
      if (s.head n).laser.clampLogged.contains act then (c, s)
      else
        let s := s.modHead n fun h => { h with laser := { h.laser with clampLogged := act :: h.laser.clampLogged } }
        (c, s.logHead n 0x1202 act (arg v) lim)

/-- A message as it leaves on D0 in a frame: a set-point clamped, a WRATE with its increment. -/
def State.emitMsg (s : State) (n : Fin 16) (frame : Nat) : Msg → Msg × State
  | .setpt a v => let (c, s) := s.clampSetpt n a v; (.setpt a c, s)
  | .wrate inc => let (i, s) := s.launchRate n frame inc; (.wrate i, s)
  | m => (m, s)

/-- Messages that leave, in order, while `room` blocks are left; the rest wait in their order (R69). -/
def takeMsgs (room : Nat) : List QMsg → List QMsg × List QMsg
  | [] => ([], [])
  | m :: rest =>
    if m.msg.blocks ≤ room then
      let (a, b) := takeMsgs (room - m.msg.blocks) rest
      (m :: a, b)
    else ([], m :: rest)

/-- The slots that a WSTART which cannot go out any more would have started are void (R73, R153): those of the revolution for
one of the whole mask, the one slot for a beam that an abort had stopped (R155). -/
def State.wstartLost (s : State) (n : Fin 16) (mask : Nat) (t : Stamp) : State :=
  match (s.head n).pass with
  | none => s
  | some p =>
    match p.writeRev with
    | none => s
    | some w =>
      if mask = w.mask then
        let off (w : WriteRev) : WriteRev := { w with writing := false }
        (s.voidRest n 2).modPass n fun p => { p with writeRev := p.writeRev.map off }
      else
        let beams := (p.writeTracks p.rev1).filter fun x => testBitN mask x.1
        (p.toWrite.filter fun (_, e) => beams.any (fun x => x.2 == e.track) &&
          (writeTicks s n w e.slot).any fun x => x.1 == t).foldl (fun u (d, e) => u.voidSlot n d e 2) s

/-- A WSTART whose lead is gone is not sent, and its slots are not written (R73, R153). -/
def State.dropLateWstarts (s : State) (n : Fin 16) : State :=
  let late (m : QMsg) : Option (Nat × Stamp) := match m.msg with
    | .wstart mask t => if t < s.now + wstartLead then some (mask, t) else none
    | _ => none
  let gone := (s.head n).link.queue.filterMap late
  let s := s.modLink n fun l => { l with queue := l.queue.filter fun m => (late m).isNone }
  gone.foldl (fun u x => u.wstartLost n x.1 x.2) s

/-- The front-end instruction whose message leaves in this frame notes the frame (R234). -/
def noteFe (fe : List FeReq) (m : Msg) (frame : Nat) : List FeReq :=
  let hit (f : FeReq) : Bool := f.frame.isNone && match m, f.kind with
    | .safe, .safe | .resume, .resume | .fewr _ _, .write | .ferd _, .read => true
    | _, _ => false
  match fe.span fun f => !hit f with
  | (a, f :: b) => a ++ { f with frame := some frame } :: b
  | (a, []) => a

/-- Messages that a REPLY may answer (R63, R72). -/
def Msg.asks : Msg → Bool
  | .echo | .fewr _ _ | .ferd _ | .wstart _ _ => true
  | _ => false

/-- What a message that has left changes besides the frame: kept messages, those that a REPLY may answer, retraining lanes'
PRBS and the places of side blocks from the apply count on, and waiting instructions. -/
def State.noteSent (s : State) (n : Fin 16) (frame : Nat) (m : Msg) : State :=
  let s := if m.kept then s.modLink n fun l => { l with held := l.held ++ [⟨m, frame⟩] } else s
  let s := if m.asks then s.modLink n fun l => { l with asks := (l.asks ++ [(⟨m, frame⟩ : HeldMsg)]).drop (l.asks.length - 63) } else s
  let s := s.modHead n fun h => { h with fe := noteFe h.fe m frame }
  match m with
  | .lane k act =>
    if h : k < 4 then
      let at' := 48 * (frame + 2)
      let s := s.modLink n fun l => { l with
        moves := if act = 2 then l.moves else ((at', k, decide (act = 0)) :: l.moves).take 16 }
      if act = 0 then s.modLane n ⟨k, h⟩ fun l => { l with prbsAt := some at' } else s
    else s
  | _ => s

/-- The messages that a training sends in this frame (Table 4-11, R67, R370). -/
def State.trainMsgs (s : State) (n : Fin 16) (frame : Nat) : List Msg × State :=
  match (s.head n).link.training with
  | none => ([], s)
  | some t =>
    let safe : List Msg := if t.safe then [.safe] else []
    let upd (f : Training → Training) : State := s.modLink n fun l => { l with training := l.training.map f }
    match t.step with
    | .lanesLocked =>
      (safe ++ [.echo], upd fun t => { t with step := .echoSent, echoes := frame :: t.echoes, safe := false })
    | .alignSent =>
      let a := 48 * (frame + 1) + feRx s n + ((s.head n).link.rt + 1) / 2
      let s := upd fun t => { t with step := .relocking, alignAt := a, safe := false }
      (safe ++ [.align a], s.modLink n fun l => { l with runs := Vector.replicate 4 (0, 0) })
    | _ => ([], s)

/-- A place of a frame as it leaves: a servo slot's set-point held to the ceilings (R157). -/
def State.clampPlace (s : State) (n : Fin 16) (x : D0Slot) : D0Slot × State :=
  match x with
  | .servo (.setpt a v) =>
    let (c, s) := s.clampSetpt n a v
    (.servo (.setpt a c), s)
  | _ => (x, s)

/-- The places of a frame as they leave, in order. -/
def State.clampServo (s : State) (n : Fin 16) : List D0Slot → List D0Slot × State
  | [] => ([], s)
  | x :: rest =>
    let (y, s) := s.clampPlace n x
    let (l, s) := s.clampServo n rest
    (y :: l, s)

/-- The D0 frame under way is complete: it has left, and its messages are noted (R58, R69, R73). Its CRC goes into the next
header; 0 stands there where no frame came before (log entry 142). -/
def State.finishD0 (s : State) (n : Fin 16) : Nat × State :=
  match (s.head n).link.d0 with
  | none => (0, s)
  | some f0 =>
    let (slots, s) := s.clampServo n f0.slots
    let f := { f0 with slots := slots }
    let st := (s.head n).link.scram
    let s := { s with out := .d0 n.val f st :: s.out }
    let s := s.modLink n fun l => { l with d0 := none, scram := (f.line st).2 }
    let done := f.slots.filterMap fun x => match x with
      | .msg m part => if part + 1 = m.blocks then some m else none
      | _ => none
    (f.sum, done.foldl (fun t m => t.noteSent n f.frame m) s)

/-- D0 carries PRBS31 and no frames (Table 4-11, step 1). -/
def Link.prbs (l : Link) : Bool :=
  match l.training with
  | some t => l.state == .train && t.step == .forwardClock
  | none => false

/-- A D0 frame launches (R58, R69, R157, R173): SETPTs of servo slots and what they pushed out of the last frame, write data,
then messages in queue order; the rest is idle. -/
def State.launchD0 (s : State) (n : Fin 16) : State :=
  let frame := s.now / 48
  let (crc, s) := s.finishD0 n
  if (s.head n).link.prbs then s
  else
    let s := (((s.settleWrites n s.now).tryWstart n).tryWstop n).dropLateWstarts n
    let l := (s.head n).link
    let (train, s) := s.trainMsgs n frame
    let first := l.servoQ.map .servo ++ l.displaced
    let (wdata, s) := if l.usable then s.writeBlocks n (24 - first.length) else ([], s)
    let room := 24 - first.length - wdata.length - (train.map Msg.blocks).sum
    let (go, stay) := takeMsgs room (s.head n).link.queue
    let (msgs, s) := (train ++ go.map (·.msg)).foldl (fun (acc : List Msg × State) m =>
      let (m', t) := acc.2.emitMsg n frame m
      (acc.1 ++ [m'], t)) (([] : List Msg), s)
    let slots := first ++ wdata.map .wdata ++ msgs.flatMap Msg.slots
    let d0 : D0Frame := ⟨frame, linkCode (s.head n).link.state, crc, (slots ++ List.replicate 24 .idle).take 24⟩
    s.modLink n fun l => { l with
      d0 := some d0, displaced := slots.drop 24, servoQ := [], queue := stay, lastD0 := some frame
      sent := frame :: l.sent.take 31 }

/-- Messages of a frame are sent again, ahead of later requests (R73); a WSTART without its lead is given up. -/
def State.resend (s : State) (n : Fin 16) (frames : List Nat) : State :=
  let hit (m : HeldMsg) : Bool := frames.contains m.frame
  let again := (s.head n).link.held.filter hit
  let forget (f : FeReq) : FeReq :=
    if f.frame.any fun x => frames.contains x then { f with frame := none } else f
  let s := s.modHead n fun h => { h with fe := h.fe.map forget }
  s.modLink n fun l => { l with
    held := l.held.filter fun m => !hit m
    asks := l.asks.filter fun m => !frames.contains m.frame
    queue := again.map (fun m => ⟨m.msg, s.now, true⟩) ++ l.queue }

end Sys2Proof.Machine
end

