-- ==== Sys2Proof/Machine/Link.lean ====
section
/-!
DEFINITION. Machine/Link.lean: the Teant link of a head: up frames, side blocks, D0 frames, training and the commands
of TL_CTRL (R58 to R80, R370, R371).
-/

namespace Sys2Proof.Machine

/-! ## Up frames -/

/-- A verified frame: its control blocks other than idle ones wait for their step, oldest first (R63, R66). -/
def State.verifyFrame (s : State) (n : Fin 16) (f : LaneFrame) : State :=
  let side := f.blocks.filterMap fun b =>
    let k := natBits b.payload 63 60
    if b.sync = 2 ∧ 1 ≤ k ∧ k ≤ 7 ∧ natBits b.payload 63 56 ≠ 0x1E then
      some (⟨k, natBits b.payload 59 56, natBits b.payload 55 48, natBits b.payload 47 0, f.c0⟩ : SideBlock)
    else none
  s.modLink n fun l => { l with side := l.side ++ side }

/-- The 48 samples of each of a lane's beams in a frame (R62). -/
def frameSamples (k : Nat) (c0 depth : Nat) (blocks : List Block) : List (Nat × List RawSample) :=
  (List.range 3).map fun i =>
    let six := (blocks.drop (6 * i)).take 6
    (3 * k + i, (indexed (six.flatMap fun b => beBytes 8 b.payload)).map fun (j, v) =>
      ({ stamp := c0 - 48 * depth + j, value := (v : Int) - 128, drop := false, bad := false } : RawSample))

/-- A pass's channel configuration, or the registers while none is open. -/
def chanCfg (s : State) (n : Fin 16) : ChanCfg :=
  match (s.head n).pass with
  | some p => ⟨p.cfg.ch, p.cfg.adapt, p.cfg.timing, (s.head n).link.presDelay⟩
  | none => ⟨(s.reg (R.HD_CH_CFG n.val)).toNat, (s.reg (R.HD_ADAPT_CFG n.val)).toNat,
      (s.reg (R.HD_TIMING_CFG n.val)).toNat, (s.head n).link.presDelay⟩

/-- The neighbour of a beam that its canceller takes: in service, and in backstitch not of the writing half (R94,
R151). -/
def neighbour (h : Head) (j : Nat) : Option Beam :=
  match h.beams.toList[j]? with
  | none => none
  | some b =>
    let writes := match h.pass with
      | some p => p.desc.mode == .backstitch && decide (p.writeBeam ≤ j) && decide (j < p.writeBeam + 6)
      | none => false
    if b.inService && !writes then some b else none

/-- A beam whose bits have passed the end of its sector's slot has all the sector's samples: the sector is in flight no
more. The beam counts it up to the end of its last interval (R98). -/
def State.endSamples (s : State) (n : Fin 16) (j : Fin 12) : State :=
  let b := (s.head n).beams[j]
  match b.sector with
  | some i =>
    if b.acq + slotBits - 48 ≤ b.pos then
      let last := match b.ring with
        | d :: _ => d.stamp
        | [] => s.now
      let s := s.modSector i fun x => { x with lastSample := some (x.lastSample.getD last) }
      if b.acq + b.sectorBits ≤ b.pos then s.modBeam n j fun b => { b with sector := none } else s
    else s
  | none => s

/-- Every channel of a head brought up to now: samples whose tick has come are presented, then the canceller runs. -/
def State.runChannels (s : State) (n : Fin 16) : State :=
  let cfg := chanCfg s n
  let now := s.now
  let s := s.modHead n fun h => { h with beams := h.beams.map fun b => b.present cfg now b.raw.length }
  let s := s.modHead n fun h =>
    { h with beams := Vector.ofFn fun (j : Fin 12) =>
        h.beams[j].cancel cfg (if j.val = 0 then none else neighbour h (j.val - 1)) (neighbour h (j.val + 1)) }
  (List.finRange 12).foldl (fun t j => t.endSamples n j) s

/-- The samples of a frame leave deskew: they join their beams' queues, erased while the beam is in a dropout. -/
def State.takeSamples (s : State) (n : Fin 16) (k : Nat) (c0 : Stamp) (blocks : List Block) : State :=
  (frameSamples k c0 (feK s n) blocks).foldl (fun t (j, xs) =>
    if h : j < 12 then
      t.modBeam n ⟨j, h⟩ fun b =>
        let ys := if b.dropout.isSome then xs.map fun x => { x with drop := true } else xs
        { b with raw := b.raw ++ ys, recent := (ys.reverse ++ b.recent).take 128 }
    else t) s

/-- 16 of 64 consecutive blocks carry invalid sync headers, at some block of those that arrive now; `old` holds the blocks
before them, newest first (R76). -/
def blockLockLost (old : List Bool) : List Bool → Bool
  | [] => false
  | b :: rest =>
    let window := (b :: old).take 64
    decide (16 ≤ (window.filter id).length) || blockLockLost window rest

/-- A U0 header checked after ALIGN: 16 in a row must arrive where R68 puts them. -/
def State.checkAlign (s : State) (n : Fin 16) (good : Nat) (c0 arrival : Stamp) : State :=
  let rt := (s.head n).link.rt
  let want := c0 + feTx s n + rt - (rt + 1) / 2
  if want ≤ arrival + 1 ∧ arrival ≤ want + 1 then
    if good + 1 = 16 then s.linkAligned n
    else s.modLink n fun l => { l with training := l.training.map fun t => { t with step := .checking (good + 1) } }
  else (s.logHead n 0x2006 0 (want % 2 ^ 32) (arrival % 2 ^ 32)).trainFails n 7

/-- A header on a receiver pair counts toward frame lock: four valid ones in a row with one LANE value (R55, R80). -/
def Link.countRun (l : Link) (pair : Fin 4) (hdr : FrameHdr) (valid : Bool) : Link :=
  let (k, lane) := l.runs[pair]
  let run := if !valid then (0, 0) else if 0 < k ∧ lane = hdr.lane then (k + 1, lane) else (1, hdr.lane)
  { l with runs := l.runs.set pair run }

/-- A receiver pair reaches frame lock in step 5: the lane that its headers name is learnt, unless it is disabled or another
pair has it (R55, R80). -/
def State.learnPair (s : State) (n : Fin 16) (pair : Fin 4) : State :=
  let l := (s.head n).link
  let (k, lane) := l.runs[pair]
  if h : lane < 4 then
    let off := testBitN (s.fld (R.TL_CTRL n.val) F.TL_CTRL_LANE_DIS) lane
    if 4 ≤ k ∧ !off ∧ !l.pairs.toList.contains (some ⟨lane, h⟩) then
      s.modLink n fun l => { l with
        pairs := l.pairs.set pair (some ⟨lane, h⟩)
        training := l.training.map fun t => { t with locked := lane :: t.locked } }
    else s
  else s

/-- Step 5 ends once every lane that is not disabled is in frame lock and CAP has come (R80). -/
def State.stepFive (s : State) (n : Fin 16) : State :=
  match (s.head n).link.training with
  | some t =>
    let wanted := 4 - popCount 4 (s.fld (R.TL_CTRL n.val) F.TL_CTRL_LANE_DIS)
    if t.step = .receiversAdapted ∧ t.locked.length = wanted ∧ 3 ≤ wanted ∧ t.capSeen then
      s.modLink n fun l => { l with training := l.training.map fun t => { t with step := .lanesLocked } }
    else s
  | none => s

/-- The lanes of an alignment: those in frame lock, or the active ones of a realignment (R80, R371). -/
def Link.aligning (l : Link) (t : Training) : List (Fin 4) :=
  (List.finRange 4).filter fun k => if t.realign then l.lanes[k].st == .active else t.locked.contains k.val

/-- Frame lock has returned on every lane of the alignment: its check begins (R67, R68). -/
def State.relocked (s : State) (n : Fin 16) (t : Training) : State :=
  let l := (s.head n).link
  let back (k : Fin 4) : Bool := (List.finRange 4).any fun p => l.pairs[p] == some k && decide (4 ≤ (l.runs[p]).1)
  if (l.aligning t).all back then
    s.modLink n fun l => { l with training := l.training.map fun t => { t with step := .checking 0 } }
  else s

/-- A header arrives on a lane: it verifies the frame before it or shows it lost, and opens its own frame, which is lost at once
where the header is invalid or does not follow (R65, R66). -/
def State.verifyPrevious (s : State) (n : Fin 16) (k : Fin 4) (hdr : FrameHdr) (valid : Bool) : State :=
  match (s.lane n k).cur with
  | none => s
  | some f =>
    let head : Block := ⟨2, f.hdr.type * 2 ^ 56 + f.hdr.lane * 2 ^ 54 + f.hdr.state * 2 ^ 51 + f.hdr.fcnt * 2 ^ 32⟩
    if valid && frameCrc head f.blocks == hdr.crc then
      (s.verifyFrame n f).modLane n k fun x => { x with goodRun := x.goodRun + 1, cur := none }
    else (s.modLane n k fun x => { x with cur := none }).lostFrame n k f.c0

/-- The header follows the one before it on its lane (R65). -/
def Lane.follows (l : Lane) (hdr : FrameHdr) : Bool := l.next.all fun c => c == hdr.fcnt

/-- The count of a frame: its header's, or the expected one where the header is not to be trusted (R58, R65). -/
def Lane.count (l : Lane) (hdr : FrameHdr) (good : Bool) : Nat := if good then hdr.fcnt else l.next.getD hdr.fcnt

/-- A frame's content is kept until the next header; the count that must follow is noted (R65). -/
def State.openFrame (s : State) (n : Fin 16) (k : Fin 4) (hdr : FrameHdr) (valid good : Bool) (blocks : List Block)
    (c0 : Stamp) : State :=
  s.modLane n k fun l => { l with
    cur := if good then some ⟨hdr, blocks, c0⟩ else none
    next := some (((if valid then hdr.fcnt else l.next.getD hdr.fcnt) + 1) % 65536) }

/-- An up frame of a training or realignment (R67, R68, R80): frame lock and lanes are learnt in step 5; after the ALIGN the
content is ignored until frame lock has returned; then U0's headers are checked. -/
def State.trainFrame (s : State) (n : Fin 16) (t : Training) (pair : Fin 4) (hdr : FrameHdr) (valid : Bool) (arrival : Stamp)
    (blocks : List Block) : State :=
  let s := s.modLink n fun l => l.countRun pair hdr valid
  if t.step = .relocking ∧ t.alignAt ≤ arrival then
    (match (s.head n).link.pairs[pair] with
     | some k => s.modLane n k fun l => { l with cur := none, next := none }
     | none => s).relocked n t
  else
    let s := if t.step = .receiversAdapted then s.learnPair n pair else s
    match (s.head n).link.pairs[pair] with
    | none => s
    | some k =>
      let good := valid && hdr.lane == k.val && (s.lane n k).follows hdr
      let c0 := frameStamp ((s.lane n k).count hdr good) arrival
      let s := (s.verifyPrevious n k hdr (valid && hdr.lane == k.val)).openFrame n k hdr valid good blocks c0
      let s := if good then s.modLane n k fun l => { l with latUp := arrival - c0 } else s.lostFrame n k c0
      let s := s.stepFive n
      match t.step with
      | .checking g =>
        if k.val ≠ 0 then s
        else if good then s.checkAlign n g c0 arrival
        else (s.logHead n 0x2006 0 ((c0 + (s.lane n k).latUp) % 2 ^ 32) (arrival % 2 ^ 32)).trainFails n 7
      | _ => s

/-- An up frame of an active lane (R65, R66, R76): it verifies the frame before it, its samples go to the channels at once, and
what it shows of the lane is judged. -/
def State.activeFrame (s : State) (n : Fin 16) (k : Fin 4) (hdr : FrameHdr) (valid : Bool) (arrival : Stamp) (header : Block)
    (blocks : List Block) : State :=
  let ln := s.lane n k
  let good := valid && ln.follows hdr
  let c0 := frameStamp (ln.count hdr good) arrival
  let s := (s.verifyPrevious n k hdr valid).openFrame n k hdr valid good blocks c0
  if (s.lane n k).st ≠ .active then s
  else
    let bad := (header :: blocks).map fun b => b.sync == 0 || b.sync == 3
    let s := s.modLane n k fun x => { x with syncBad := (bad.reverse ++ x.syncBad).take 64 }
    let s := if (s.head n).link.usable then s.takeSamples n k.val c0 blocks else s
    let s := if good then s else s.lostFrame n k c0
    let want := c0 + (s.lane n k).latUp
    if good ∧ (want + 1 < arrival ∨ arrival + 1 < want) ∧ (s.head n).link.faultable s.now then
      (s.logHead n 0x2006 k.val (want % 2 ^ 32) (arrival % 2 ^ 32)).linkFault n 4
    else if (s.lane n k).st = .active ∧ (s.head n).link.usable ∧ blockLockLost ln.syncBad bad then s.laneLeaves n k 1
    else s

/-- An up frame of a lane that retrains (R77): ignored until its PRBS has ended; the frame whose header follows four good ones
is its first as an active lane again. -/
def State.retrainFrame (s : State) (n : Fin 16) (k : Fin 4) (hdr : FrameHdr) (valid : Bool) (arrival : Stamp)
    (blocks : List Block) : State :=
  let ln := s.lane n k
  let good := valid && ln.follows hdr
  let c0 := if good then frameStamp hdr.fcnt arrival else arrival - ln.latUp
  if !(ln.from.any fun t => decide (t ≤ c0)) then s
  else
    let s := (s.verifyPrevious n k hdr valid).openFrame n k hdr valid good blocks c0
    let s := if good then s else s.laneError n k
    if good ∧ 4 ≤ (s.lane n k).goodRun then (s.laneRejoins n k).takeSamples n k.val c0 blocks else s

/-- R54 to R66, R76, R77. An up frame arrives on a receiver pair: its header verifies the frame before it; its samples go to the
channels at once, and its side blocks wait until it verifies. -/
def execUpFrame (head : Fin 16) (pair : Fin 4) (arrival : Stamp) (header : Block) (blocks : List Block) (s : State) :
    Result :=
  let n := head
  let l := (s.head n).link
  when (l.state != .down && !l.prbs) s <|
    let hdr := parseHdr header
    let s := match l.training, l.pairs[pair] with
      | some t, _ => s.trainFrame n t pair hdr (hdrValid header) arrival blocks
      | none, none => s
      | none, some k =>
        let valid := hdrValid header && hdr.lane == k.val
        match (s.lane n k).st with
        | .active => s.activeFrame n k hdr valid arrival header blocks
        | .training => s.retrainFrame n k hdr valid arrival blocks
        | .off | .failed => s
    s.runChannels n

/-- R65. A header is missing at its expected tick: that frame and the one before it, which it would have verified, are
lost; a U0 header missing from the alignment check fails it (R68). -/
def execUpFrameMissing (head : Fin 16) (lane : Fin 4) (fcnt : Fin 65536) (s : State) : Result :=
  let n := head
  let l := (s.head n).link
  when ((l.usable || l.state == .fault || l.training.isSome) && (s.lane n lane).st != .off) s <|
    let c0 := frameStamp fcnt.val s.now
    let lose (s : State) : State :=
      let s := match (s.lane n lane).cur with
        | some f => (s.modLane n lane fun x => { x with cur := none }).lostFrame n lane f.c0
        | none => s
      (s.modLane n lane fun x => { x with next := some ((fcnt.val + 1) % 65536) }).lostFrame n lane c0
    match l.training with
    | some t =>
      match t.step with
      | .checking _ =>
        if lane.val = 0 then
          ((lose s).logHead n 0x2006 0 ((c0 + (s.lane n lane).latUp) % 2 ^ 32) (s.now % 2 ^ 32)).trainFails n 7
        else lose s
      | _ => s
    | none => if (s.lane n lane).st = .active then lose s else s

/-! ## Side blocks -/

/-- The oldest verified side block of a kind, and the state without it. -/
def State.takeSide (s : State) (n : Fin 16) (kind : Nat) : Option (SideBlock × State) :=
  match (s.head n).link.side.span fun b => b.kind != kind with
  | (a, b :: rest) => some (b, s.modLink n fun l => { l with side := a ++ rest })
  | (_, []) => none

/-- The front end declares the block's data invalid (R63). -/
def SideBlock.invalid (b : SideBlock) : Bool := testBitN b.flags 0

/-- A span of verified servo RF samples joins those that the chevron timer has (R63). -/
def addSpan (a b : Stamp) : List (Stamp × Stamp) → List (Stamp × Stamp)
  | (x, y) :: rest => if y = a then (x, b) :: rest else ((a, b) :: (x, y) :: rest).take 64
  | [] => [(a, b)]

/-- R63. Servo RF samples reach the chevron timer: six of them, taken four ticks apart. -/
def execSrfBlock (head : Fin 16) (s : State) : Result :=
  match s.takeSide head 1 with
  | none => .next s
  | some (b, s) =>
    let a := b.c0 - 48 * feK s head + 24 * b.part
    .next (if b.invalid then s else s.modLink head fun l => { l with srf := addSpan a (a + 24) l.srf })

/-- R63, R66. A quadrant set goes to the loop engine, marked where the front end declares it invalid. -/
def execQuadBlock (head : Fin 16) (s : State) : Result :=
  match s.takeSide head 2 with
  | none => .next s
  | some (b, s) =>
    let q : QuadSet := { stamp := b.c0 - 48 * feK s head, seen := 0, a := toSigned (natBits b.data 47 36) 12,
                         b := toSigned (natBits b.data 35 24) 12, c := toSigned (natBits b.data 23 12) 12,
                         d := toSigned (natBits b.data 11 0) 12, invalid := b.invalid }
    .next (s.modLoopHead head fun h => { h with xing := h.xing ++ [.quad q] })

/-- F from a temperature T (R158). -/
def derateOf (t0 t1 t : Int) : Nat :=
  if t1 ≤ t then 0 else if t ≤ t0 then 256 else (floorDiv (256 * (t1 - t)) (t1 - t0)).toNat

/-- R63, R158. A housekeeping item takes its latest value; the derate item recomputes F. -/
def execHkBlock (head : Fin 16) (s : State) : Result :=
  let n := head
  match s.takeSide n 3 with
  | none => .next s
  | some (b, s) =>
    when (!b.invalid) s <|
      let item := natBits b.data 47 40
      let v := natBits b.data 39 0
      let s := s.modLink n fun l => { l with hk := (item, (v, s.now)) :: l.hk.filter fun e => e.1 != item }
      if s.flag (R.HD_DERATE_CTRL n.val) F.HD_DERATE_CTRL_EN ∧
          item = s.fld (R.HD_DERATE_CTRL n.val) F.HD_DERATE_CTRL_HK_ITEM then
        let t0 := toSigned (s.fld (R.HD_DERATE_CFG n.val) F.HD_DERATE_CFG_T0) 16
        let t1 := toSigned (s.fld (R.HD_DERATE_CFG n.val) F.HD_DERATE_CFG_T1) 16
        let s := s.modHead n fun h => { h with laser := { h.laser with staleFrom := s.now, staleTold := false, lastTemp := v % 65536 } }
        let s := s.setFld (R.HD_LASER_STATUS n.val) F.HD_LASER_STATUS_HK_STALE 0
        s.setDerate n (derateOf t0 t1 (toSigned v 16))
      else s

/-- What of the stream the front end has (R74): the blocks sent by the end of the last frame before the first failed one. -/
def WriteRev.verifiedBlocks (w : WriteRev) (firstBad : Option Nat) : Nat :=
  match firstBad with
  | none => w.nextBlock
  | some f => ((w.byFrame.find? fun x => decide (x.1 < f)).map (·.2)).getD 0

/-- Symbols that beam `i` of the mask, counted from 0, has of a number of blocks (R69). -/
def WriteRev.beamSymbols (w : WriteRev) (blocks i : Nat) : Nat :=
  let k := max 1 (popCount 12 w.mask)
  w.firstSymbol + 16 * (blocks / k + if i < blocks % k then 1 else 0)

/-- The stream starts anew at the first slot boundary that a WSTART still reaches (R74); what lies before it is void. -/
def State.resumeStream (s : State) (n : Fin 16) : State :=
  match (s.head n).pass with
  | none => s
  | some p =>
    let ok (e : SlotEntry) : Bool := (slotTicks s n e.slot).any fun x => decide (s.now + wstartLead + 48 ≤ x.1)
    let s := (p.toWrite.filter fun (_, e) => !ok e).foldl (fun t (d, e) => t.voidSlot n d e 0) s
    let rest := (p.toWrite.filter fun (_, e) => ok e).map fun (_, e) => e.slot
    match rest.min? with
    | none => s
    | some k =>
      let u := fmtU (fmtNow s n) (bandNow (s.head n))
      let at' := ((slotTicks s n k).map (·.1)).getD 0
      let again (w : WriteRev) : WriteRev := { w with
        due := true, writing := false, startAt := at', nextBlock := 0, byFrame := [], aim := none, stopSent := false
        rates := [(at', 0, (slotSymbols u k).1 * 2 ^ 32)] }
      s.modPass n fun p => { p with writeRev := p.writeRev.map again }

/-- The symbols of the track that the beam on a track has when `blocks` blocks have verified (R69, R74). -/
def trackSymbols (p : Pass) (w : WriteRev) (blocks track : Nat) : Nat :=
  match (indexed (p.writeTracks p.rev1)).find? fun x => x.2.2 == track with
  | some (i, _) => w.beamSymbols blocks i
  | none => 0

/-- A slot whose beam ends with symbol `has` while the slot is being written is recorded as cut and void; one that counted as
written counts no more (R74). -/
def State.cutAtSymbol (s : State) (n : Fin 16) (p : Pass) (w : WriteRev) (has : Nat) (d : BandDesc) (e : SlotEntry) : State :=
  let r := R.HD_WR_CNT n.val
  let s := if e.done then s.setFld r F.HD_WR_CNT_WRITTEN (s.fld r F.HD_WR_CNT_WRITTEN - 1) else s
  let mark (e : SlotEntry) : SlotEntry := { e with done := false, cut := true }
  let s := s.recordCut n p e ((w.tickOf has).getD s.now) .cut
  (s.modPass n fun p => p.modSlot d.band e.track e.slot mark).voidSlot n d e 0

/-- A write stream that a failed D0 frame stopped (R74): every beam ends with the last symbol of the last verified frame; slots
in progress there are cut, event 0x2008 gives the first cut, and a new WSTART follows at a later sector boundary. -/
def State.writeCorrupt (s : State) (n : Fin 16) (firstBad : Option Nat) : State :=
  let s := s.settleWrites n s.now
  match (s.head n).pass with
  | none => s
  | some p =>
    match p.writeRev with
    | none => s
    | some w =>
      if !w.writing then s
      else
        let blocks := w.verifiedBlocks firstBad
        let u := fmtU (fmtNow s n) (bandNow (s.head n))
        let cutAt := (w.tickOf (w.beamSymbols blocks (popCount 12 w.mask))).getD s.now
        let hit (x : BandDesc × SlotEntry) : Bool :=
          let has := trackSymbols p w blocks x.2.track
          x.2.write && !x.2.isVoid && !x.2.cut && Nat.ble has (slotSymbols u x.2.slot).2 &&
            Nat.blt (slotSymbols u x.2.slot).1 has
        let s := (p.revSlots.filter hit).foldl (fun s x =>
          s.cutAtSymbol n p w (trackSymbols p w blocks x.2.track) x.1 x.2) s
        let stop (w : WriteRev) : WriteRev := { w with writing := false, stopAt := min w.stopAt cutAt }
        let s := s.modPass n fun p => { p with writeRev := p.writeRev.map stop }
        let s := (s.bump (R.TL_DL_CNT n.val) F.TL_DL_CNT_WR_CUT 1).logHead n 0x2008 (cutAt % 2 ^ 32) w.mask
        s.resumeStream n

/-- The front-end instructions that a STAT satisfies: HD.SAFE once the state shows (Table 10-7). -/
def State.feByStat (s : State) (n : Fin 16) (safe : Bool) : State :=
  let done (f : FeReq) : Bool := f.frame.isSome && match f.kind with
    | .safe => safe
    | .resume => !safe
    | _ => false
  let s' := s.modHead n fun h => { h with fe := h.fe.filter fun f => !done f }
  ((s.head n).fe.filter done).foldl (fun t f => t.completeHead n f.who 0 0) s'

/-- R64, R66, R73, R74, R76. A verified STAT: D0 frames judged good or bad, samples declared bad, the front end's
state, and the faults it reports. -/
def execStatBlock (head : Fin 16) (s : State) : Result :=
  let n := head
  match s.takeSide n 4 with
  | none => .next s
  | some (b, s) =>
    when (!b.invalid) s <|
      let d := b.data
      let last := natBits d 47 32
      let badBits := natBits d 31 24
      let safe := testBitN d 10
      let was := (s.head n).link.feSafe
      let pll := testBitN d 8
      let lock := testBitN d 7
      let age (f : Nat) : Nat := (last + 65536 - f % 65536) % 65536
      let covered (f : Nat) : Bool := age f < 8
      let isBad (f : Nat) : Bool := testBitN badBits (age f)
      let judged := (s.head n).link.sent.filter covered
      let newBad := judged.filter isBad
      let s := s.modLink n fun l => { l with
        sent := l.sent.filter fun f => !covered f
        held := l.held.filter fun m => !(covered m.frame && !isBad m.frame)
        feSafe := safe, lastStat := some s.now }
      let len := testBitN d 9
      let fell := (s.head n).laser.feLen && !len
      let corrupt := testBitN d 11
      let rises := corrupt && !(s.head n).link.wrCorrupt
      let s := s.modLink n fun l => { l with wrCorrupt := corrupt }
      let s := s.modHead n fun h => { h with laser := { h.laser with feLen := len } }
      let r := R.TL_STATUS n.val
      let s := (s.setFld r F.TL_STATUS_FE_SAFE (bitOf safe)).setFld r F.TL_STATUS_FE_PLL_LOCK (bitOf pll)
      let s := s.setFld r F.TL_STATUS_DL_LOCK (bitOf lock)
      let s := if newBad.isEmpty then s else
        (s.bump (R.TL_DL_CNT n.val) F.TL_DL_CNT_D0_BAD newBad.length).logHead n 0x2007 last badBits
      let s := s.resend n newBad
      let beams := (List.finRange 12).filter fun j => testBitN d (12 + j.val)
      let s := s.badSamples n beams b.c0
      let s := if rises then s.writeCorrupt n newBad.min? else s
      let s := if fell && (s.head n).writingNow then s.hemRequest n (s.stamp (.head n)) true [] else s
      let s := if safe && !was then s.logHead n 0x200A (bitOf (!lock)) else s
      let s := s.feByStat n safe
      if (s.head n).link.faultable s.now then
        if !pll then s.linkFault n 2 else if !lock then s.linkFault n 1 else s
      else s

/-- R63. CAP: the declared latencies, depth and limits, or the front end's identifier. -/
def execCapBlock (head : Fin 16) (s : State) : Result :=
  let n := head
  match s.takeSide n 5 with
  | none => .next s
  | some (b, s) =>
    when (!b.invalid) s <|
      if b.part = 0 then
        let r := R.TL_FE_CAP n.val
        let s := s.setFld r F.TL_FE_CAP_VERSION (natBits b.data 47 40)
        let s := s.setFld r F.TL_FE_CAP_L_RX (natBits b.data 39 32)
        let s := s.setFld r F.TL_FE_CAP_L_TX (natBits b.data 31 24)
        let s := s.setFld r F.TL_FE_CAP_K (natBits b.data 23 20)
        let s := s.setFld r F.TL_FE_CAP_WMAX (natBits b.data 19 16)
        s.modLink n fun l => { l with training := l.training.map fun t => { t with capSeen := true } }
      else s.setReg (R.TL_FE_ID n.val) (BitVec.ofNat 32 (natBits b.data 47 16))

/-- The REPLY to an ECHO forms RT, and ALIGN goes out in the next frame (R67). `fc` is the low byte of the count of the D0
frame that carried the ECHO. A result below 0 is taken as 0 (log entry 143). -/
def State.echoReply (s : State) (n : Fin 16) (fc delta : Nat) (arrival : Stamp) : State :=
  match (s.head n).link.training with
  | some t =>
    match t.echoes.find? fun f => f % 256 == fc with
    | some f =>
      if t.step = .echoSent then
        let rt := ((arrival : Int) - 48 * (f + 1) - feRx s n - delta - feTx s n).toNat
        let s := s.setFld (R.TL_ALIGN n.val) F.TL_ALIGN_RT rt
        s.modLink n fun l => { l with rt := rt, training := l.training.map fun t => { t with step := .alignSent } }
      else s
    | none => s
  | none => s

/-- The messages that an answer for a frame of low count byte `fc` may stand for: those of the frame, in the order in which they
left, up to the first that the answer's kind fits; it and those before it are answered (R63). -/
def Link.answered (l : Link) (fc : Nat) (fits : Msg → Bool) : Option HeldMsg × Link :=
  let mine := l.asks.filter fun m => m.frame % 256 == fc
  match mine.dropWhile fun m => !fits m.msg with
  | [] => (none, l)
  | m :: rest => (some m, { l with asks := (l.asks.filter fun x => x.frame % 256 != fc) ++ rest })

/-- What a REPLY kind answers (R63, R72). -/
def replyFits (kind : Nat) : Msg → Bool
  | .echo => kind == 0
  | .fewr _ _ => kind == 1 || kind == 3
  | .ferd _ => kind == 2 || kind == 3
  | .wstart _ _ => kind == 3
  | _ => false

/-- R67, R72, R234. A REPLY answers a D0 message: an echo, a write acknowledged, data read, or a message rejected.
`arrival` is when the header of the up frame that carried it arrived. -/
def execReplyBlock (head : Fin 16) (arrival : Stamp) (s : State) : Result :=
  let n := head
  match s.takeSide n 6 with
  | none => .next s
  | some (b, s) =>
    when (!b.invalid) s <|
      let kind := natBits b.data 47 40
      let fc := natBits b.data 39 32
      let v := natBits b.data 31 0
      let (hit, l) := (s.head n).link.answered fc (replyFits kind)
      let s := s.modLink n fun _ => l
      let answer (s : State) (want : FeKind) (result data : Nat) : State :=
        match (s.head n).fe.find? fun f => f.kind == want && (f.frame.map fun x => x % 256) == some fc with
        | some f => (s.modHead n fun h => { h with fe := h.fe.filter fun g => g.who != f.who }).completeHead n f.who
            result data
        | none => s
      match kind with
      | 0 => s.echoReply n fc v arrival
      | 1 => answer s .write 0 0
      | 2 => answer s .read 0 v
      | 3 =>
        match hit with
        | none => s.logHead n 0x200B 0 fc
        | some m =>
          let s := match m.msg with
            | .fewr _ _ => answer s .write 3 0
            | .ferd _ => answer s .read 3 0
            | .wstart mask t => s.wstartLost n mask t
            | _ => s
          s.logHead n 0x200B (msgCode m.msg) (m.frame % 65536)
      | _ => s

/-- R63, R79. A front-end event is logged. -/
def execFeevBlock (head : Fin 16) (s : State) : Result :=
  match s.takeSide head 7 with
  | none => .next s
  | some (b, s) => when (!b.invalid) s <| s.logHead head 0x2009 (natBits b.data 47 32) (natBits b.data 31 0)

/-! ## Down frames -/

/-- R58, R69, R370. At each multiple of 48 a D0 frame launches, unless the link is down. -/
def execD0FrameLaunch (head : Fin 16) (s : State) : Result :=
  when (s.now % 48 == 0 && (s.head head).link.state != .down) s <| s.launchD0 head

/-- R73. Messages whose frame no STAT has covered within eight later frames are sent again. -/
def execMessageResend (head : Fin 16) (s : State) : Result :=
  let l := (s.head head).link
  match l.lastD0 with
  | none => .next s
  | some f =>
    let old := (l.held.filter fun m => m.frame + 8 ≤ f).map (·.frame)
    .next (if old.isEmpty then s else s.resend head old)

/-! ## Windows and time-outs -/

/-- R76. The end of a lane's error window clears its count. -/
def execLaneErrorWindowEnd (head : Fin 16) (lane : Fin 4) (s : State) : Result :=
  let l := s.lane head lane
  let w := s.fld (R.TL_ERR_CFG head.val) F.TL_ERR_CFG_WINDOW * 64 * 48
  when (l.st == .active && decide (l.winStart + w ≤ s.now)) s <|
    s.modLane head lane fun l => { l with errs := 0, winStart := l.winStart + w }

/-- R77. A lane has not rejoined 20 µs after its PRBS began: another attempt, or it is failed. -/
def execLaneRetrainTimeout (head : Fin 16) (lane : Fin 4) (s : State) : Result :=
  let n := head
  let l := s.lane n lane
  match l.prbsAt with
  | none => .next s
  | some p =>
    when (l.st == .training && (s.head n).link.usable && decide (p + 30000 ≤ s.now)) s <|
      if s.fld (R.TL_ERR_CFG n.val) F.TL_ERR_CFG_RETRIES ≤ l.attempts then
        let s := s.modLane n lane fun l => { l with st := .failed, prbsAt := none }
        (s.sendMsg n (.lane lane.val 2)).logHead n 0x2004 lane.val l.attempts
      else
        let s := s.modLane n lane fun l => { l with attempts := l.attempts + 1, prbsAt := none, goodRun := 0 }
        s.sendMsg n (.lane lane.val 0)

/-- R76. No STAT has verified for eight frames: the link faults. -/
def execStatTimeout (head : Fin 16) (s : State) : Result :=
  let l := (s.head head).link
  when (l.faultable s.now && decide (l.lastStat.getD 0 + 8 * 48 ≤ s.now)) s <| s.linkFault head 3

/-! ## Commands of TL_CTRL -/

/-- R76. ENABLE = 1: a link in DOWN of a head in service enters TRAIN. -/
def execLinkEnable (head : Fin 16) (s : State) : Result :=
  let s := s.setFld (R.TL_CTRL head.val) F.TL_CTRL_ENABLE 1
  .next (if (s.head head).link.state = .down ∧ s.headInService head.val then s.linkTrain head false false else s)

/-- R76. ENABLE = 0: the link goes to DOWN. -/
def execLinkDisable (head : Fin 16) (s : State) : Result :=
  let s := s.setFld (R.TL_CTRL head.val) F.TL_CTRL_ENABLE 0
  .next (if (s.head head).link.state = .down then s else s.linkDown head)

/-- The link left UP or DEGRADED for FAULT in this very tick: of the two transitions FAULT is the lower one of Table 4-9. -/
def Link.justFaulted (l : Link) (now : Stamp) : Bool :=
  l.state == .fault && l.since == now && (l.prev == .up || l.prev == .degraded)

/-- R76. RETRAIN enters TRAIN from any state except DOWN. -/
def execLinkRetrain (head : Fin 16) (s : State) : Result :=
  let l := (s.head head).link
  when (l.state != .down && !l.justFaulted s.now) s (s.linkTrain head false true)

/-- R371. REALIGN in UP, DEGRADED or FAULT repeats the alignment without retraining lanes; elsewhere it is ignored. -/
def execLinkRealign (head : Fin 16) (s : State) : Result :=
  let l := (s.head head).link
  when ((l.state == .up || l.state == .degraded || l.state == .fault) && !l.justFaulted s.now) s (s.linkTrain head true true)

/-- R370. FE_SAFE: SAFE is sent, deferred in TRAIN, covered in FAULT, or discarded in DOWN. -/
def execFeSafeRequest (head : Fin 16) (s : State) : Result := .next (s.sendSafe head)

/-! ## Training -/

/-- R80. The four receivers are adapted: D0 carries idle frames, and the up lanes are to send theirs. -/
def execTrainingReceiversAdapted (head : Fin 16) (s : State) : Result :=
  match (s.head head).link.training with
  | none => .next s
  | some t =>
    when (decide (t.step = .forwardClock) && decide (s.now ≤ t.t0 + 2 * ticksMs)) s <|
      s.modLink head fun l => { l with training := l.training.map fun t => { t with step := .receiversAdapted } }

/-- No receiver pair has seen a valid frame header in this attempt. -/
def Link.noHeader (l : Link) : Bool := l.runs.toList.all fun r => r.1 == 0

/-- The tick by which the present step of an attempt must be over (Table 4-11, R371): step 4 ends when the up lanes switch to
frames. -/
def trainBound (l : Link) (t : Training) : Stamp :=
  if t.realign then t.t0 + ticksMs
  else match t.step with
    | .forwardClock => t.t0 + 2 * ticksMs
    | .receiversAdapted => if l.noHeader then t.t0 + 2500 * ticksUs else t.t0 + 3 * ticksMs
    | .lanesLocked | .echoSent | .alignSent => t.t0 + 3200 * ticksUs
    | _ => t.t0 + 4 * ticksMs

/-- R80. An attempt misses a bound. With three lanes in frame lock by step 5's bound, the fourth counts as failed and
the attempt goes on; otherwise it is retried or ends in FAULT with its cause: 5 with no lane in frame lock, 6 with fewer than
three or without CAP (log entry 144), 7 in the alignment. -/
def execTrainingAttemptTimeout (head : Fin 16) (s : State) : Result :=
  match (s.head head).link.training with
  | none => .next s
  | some t =>
    when (decide (trainBound (s.head head).link t ≤ s.now)) s <|
      match t.step with
      | .receiversAdapted =>
        if 3 ≤ t.locked.length ∧ t.capSeen then
          s.modLink head fun l => { l with training := l.training.map fun t => { t with step := .lanesLocked } }
        else s.trainFails head (if t.locked.isEmpty then 5 else 6)
      | .forwardClock => s.trainFails head 5
      | _ => s.trainFails head 7

end Sys2Proof.Machine
end

