-- ==== Sys2Proof/Machine/Beam.lean ====
section
/-!
DEFINITION. Machine/Beam.lean: sectors on a beam: admission (R90, R113, R132, R143, R151), sync search (R46 to R51),
intervals, unpicks and replays (R98 to R106), dropouts (R107 to R109), and the ingest buffer (R111 to R113).
-/

namespace Sys2Proof.Machine

/-! ## The ingest buffer -/

/-- The first channel bit of the codeword of a framing (R46). -/
def Sector.codeStart (x : Sector) (f : Framing) : Int := (x.q0 : Int) + f.ofs + 64

/-- The span of channel bits that a sector's record covers: from the earlier framing's codeword start to the later one's end
(R49, R111). -/
def Sector.recordSpan (x : Sector) : Int × Int :=
  let starts := x.framings.map x.codeStart
  (starts.foldl min (starts.headD 0), starts.foldl max (starts.headD 0) + codewordChanBits)

/-- Bytes that a sector's record takes in the ingest buffer as its values arrive (R111, R113): its header alone until it is
framed, then the code-bit values of Form C or the channel-bit values of Form R. -/
def Sector.ingestBytes (x : Sector) : Nat :=
  if !x.framed then 64
  else
    let (lo, hi) := x.recordSpan
    let have' := (clampInt 0 (hi - lo) (((x.slot * slotBits + 48 + x.released.length : Nat) : Int) - lo)).toNat
    64 + softBytes (if x.framings.length ≤ 1 then have' / 17 * 16 + (have' % 17 - 1) else have')

/-- The sector is in the ingest buffer: on its way in or unbound, and not spilled. -/
def Sector.inIngest (x : Sector) : Bool := (x.stage == .inFlight || x.stage == .waiting) && x.spilled.isNone

/-- Occupancy of a head's ingest buffer (R113). -/
def ingestBytes (s : State) (n : Nat) : Nat :=
  ((s.decode.sectors.filter fun x => x.head == n && x.inIngest && !x.isReframe).map Sector.ingestBytes).sum

/-- HD_INGEST.PEAK keeps the highest occupancy, in KiB. -/
def State.ingestPeak (s : State) (n : Fin 16) : State :=
  let k := ceilDiv (ingestBytes s n.val) 1024
  if s.fld (R.HD_INGEST n.val) F.HD_INGEST_PEAK < k then s.setFld (R.HD_INGEST n.val) F.HD_INGEST_PEAK k else s

/-- The marks of R113. -/
def spillMark : Nat := 128 * 1024
def stopMark : Nat := 208 * 1024
def shedMark : Nat := 240 * 1024

/-- Admission is stopped while occupancy stays at its mark. -/
def State.reopenAdmission (s : State) (n : Fin 16) : State :=
  if (s.head n).ingest.stopped ∧ ingestBytes s n.val < stopMark then
    s.modHead n fun h => { h with ingest := { h.ingest with stopped := false } }
  else s

/-- R113. At 208 KiB admission stops: event 0x1103 once per episode. -/
def execIngestAdmissionStop (head : Fin 16) (s : State) : Result :=
  let s := s.reopenAdmission head
  let occ := ingestBytes s head.val
  when (decide (stopMark ≤ occ) && !(s.head head).ingest.stopped) s <|
    (s.modHead head fun h => { h with ingest := { h.ingest with stopped := true } }).logHead head 0x1103 (occ / 1024)

/-- The values of a complete record: code bits in Form C, channel bits in Form R (R111). -/
def Sector.values (x : Sector) : List Int := if x.info.formR then x.channel else x.soft

/-- R113. At 128 KiB the oldest complete record is spilled to the head's spill area in buffer memory (log entries 100 and
136). -/
def execIngestSpill (head : Fin 16) (s : State) : Result :=
  when (decide (spillMark ≤ ingestBytes s head.val)) s <|
    match s.decode.sectors.find? fun x => x.head == head.val && x.stage == .waiting && x.complete && x.spilled.isNone with
    | some x =>
      let addr := stagingPlace s head.val (s.head head).ingest.spilled
      let s := s.memWrite 0 addr (recordHeader x ++ packSoft x.values)
      let s := s.modHead head fun h => { h with ingest := { h.ingest with spilled := h.ingest.spilled + 1 } }
      s.modSector x.id fun y => { y with spilled := some addr, soft := [], channel := [] }
    | none => s

/-- One in-flight sector is shed: the latest acquisition start, the highest beam on a tie (R113). -/
def State.shedOne (s : State) (n : Fin 16) : State :=
  let mine := s.decode.sectors.filter fun x => x.head == n.val && x.stage == .inFlight
  match mine with
  | [] => s
  | a :: rest =>
    let x := rest.foldl (fun m y =>
      if m.acq < y.acq ∨ (m.acq = y.acq ∧ m.beam < y.beam) then y else m) a
    let s := s.logHead n 0x1102 x.beam x.slot (x.acq % 2 ^ 32)
    (s.bump (R.HD_CLAMP_CNT n.val) F.HD_CLAMP_CNT_SHED 1).requeue n [x]

/-- Sectors shed while occupancy stays at 240 KiB; `fuel` bounds them by their number. -/
def State.shedAll (s : State) (n : Fin 16) : Nat → State
  | 0 => s
  | k + 1 => if shedMark ≤ ingestBytes s n.val then (s.shedOne n).shedAll n k else s

/-- R113. At 240 KiB the latest in-flight sectors are shed. -/
def execIngestShed (head : Fin 16) (s : State) : Result := .next (s.shedAll head s.decode.sectors.length)

/-! ## Admission -/

/-- What a slot of the medium is for a pass. -/
inductive SlotUse where
  /-- not read: a spare not in use, a relocated original, a slot not written -/
  | skip
  /-- a void member: it takes the outcome erased without being read (R143) -/
  | voided (group mem : Nat)
  /-- read as member `mem` of `group` -/
  | member (group mem : Nat)
  deriving DecidableEq, Repr

/-- A slot of band track j in a read pass, with the band's relocation list (R124, R143). -/
def readUse (relocs : List Reloc) (d j slot : Nat) : SlotUse :=
  match relocs.find? fun (r : Reloc) => !r.isVoid && r.spTrack == j && r.spSlot == slot with
  | some r => let (g, i) := twillOf d r.track r.slot; .member g i
  | none =>
    if 16 * d ≤ slot then .skip
    else
      let (g, i) := twillOf d j slot
      match relocs.find? fun (r : Reloc) => r.track == j && r.slot == slot with
      | some r => if r.isVoid then .voided g i else .skip
      | none => .member g i

/-- The slot entry that a verify read compares with: written in this pass's previous revolution, or named by a
verify-only pass's descriptor. -/
def verifyEntry (p : Pass) (band track slot : Nat) : Option (BandDesc × SlotEntry) :=
  let all := p.bandDescs.flatMap fun d => d.slots.map fun e => (d, e)
  all.find? fun (d, e) => e.track == track && e.slot == slot && e.write &&
    (if p.desc.mode = .verifyOnly then d.band == band else e.done && !e.cut)

/-- The use of a slot under a beam, by the mode of the pass (R143, R150, R151). -/
def slotUse (p : Pass) (band d track slot : Nat) (beam : Nat) : SlotUse :=
  match p.desc.mode with
  | .read => readUse (p.relocs.filter fun r => r.band == band) d (track % 12) slot
  | .backstitch =>
    if beam < p.verifyBeam ∨ p.verifyBeam + 6 ≤ beam ∨ p.rev = 0 then .skip
    else match verifyEntry p band track slot with
      | some (_, e) => .member e.group e.member
      | none => .skip
  | .verifyOnly =>
    match p.relocs.find? fun (r : Reloc) => r.band == band && r.track == track % 12 && r.slot == slot with
    | some r => if r.isVoid then (let (g, i) := twillOf d (track % 12) slot; .voided g i) else .skip
    | none =>
      match verifyEntry p band track slot with
      | some (_, e) => .member e.group e.member
      | none => .skip

/-- The place of a beam's sector: the band it belongs to and its track (R36, R150). -/
def beamPlace (p : Pass) (beam : Nat) : Nat × Nat :=
  match p.desc.mode with
  | .backstitch =>
    let t := (p.trackB0 p.rev1 + beam).toNat
    (t / 12, t)
  | _ => let b := p.desc.bandAt p.rev; (b, 12 * b + beam)

/-- A run-ahead band: beyond the bands that the pass was opened for (R132). -/
def isSpec (p : Pass) : Bool := p.desc.mode == .read && decide (p.desc.count ≤ p.rev)

/-- Run-ahead bands that the pass may still take: no more than BANDS as the pass holds it, and none that has been discarded
(R132, R134, R139). -/
def specAllowed (p : Pass) : Bool :=
  decide (p.rev < p.desc.count + min p.desc.runAhead p.cfg.raBands) && !p.dropped.contains (p.desc.bandAt p.rev) &&
  decide (p.desc.bandAt p.rev < fmtBands p.cfg.fmt) && (!p.desc.inward || decide (p.rev ≤ p.desc.start))

/-- A slot of the run-ahead area for a band, where it has none yet: with all in use the oldest unclaimed band of the
head is discarded (R134). -/
def State.openRunAhead (s : State) (n : Fin 16) (p : Pass) (band : Nat) : State :=
  let mine (r : RunAhead) : Bool := r.head == n.val
  if p.claimed.contains band || s.decode.runAhead.any fun r => r.isBand n.val p.no p.desc.layer band then s
  else
    let bands := p.cfg.raBands
    let owned : List RunAhead := s.decode.runAhead.filter mine
    let s := match owned with
      | r :: rest =>
        if bands ≤ rest.length + 1 then
          s.discardBand (rest.foldl (fun (m y : RunAhead) => if y.opened < m.opened then y else m) r) 2
        else s
      | [] => s
    let used : List Nat := (s.decode.runAhead.filter mine).map fun (r : RunAhead) => r.slot
    let slot := ((List.range bands).find? fun k => !used.contains k).getD 0
    let fresh : RunAhead := { head := n.val, pass := p.no, layer := p.desc.layer, band := band, slot := slot,
                              bands := bands, base := p.cfg.raBase, opened := s.now, claim := none, sectors := 0, counts := List.replicate 12 0, records := [] }
    s.modDec fun d => { d with runAhead := d.runAhead ++ [fresh] }

/-- Ticks of a data bit's window and mark as the flywheel predicts them in the present revolution. -/
def predictSlot (s : State) (n : Fin 16) (band slot back : Nat) : Option Stamp :=
  predictIn s n band (revNow (s.head n)) (slot * slotBits + 128 - back)

/-- M for a rate (R83): max(1, ⌊T_b / 1.2⌋) up to 15, or DEC_M with DEC_OVR. The rate is num/den ticks per unit. -/
def chooseM (ch u num den : Nat) : Nat :=
  if testBitN ch 3 then max 1 (natBits ch 7 4)
  else min 15 (max 1 (10 * num / (12 * max 1 (den * u))))

/-- The nominal spacing T_b / M in 2^-32 decimated samples (R89). -/
def nominalOf (u num den m : Nat) : Nat := (openRound ((num * 2 ^ 32 : Nat) : Int) (max 1 (den * u * m))).toNat

/-- Where the instant of stamp a lies from the newest decimated sample, in 2^-32 samples. -/
def phaseOf (b : Beam) (m : Nat) (a : Stamp) : Int :=
  let r0 : Int := match b.ring, b.raw with
    | d :: _, _ => d.stamp
    | [], x :: _ => (x.stamp : Int) - m
    | [], [] => (a : Int)
  openRound ((2 * ((a : Int) - r0) - ((m : Int) - 1)) * 2 ^ 31) m

/-- Intervals of an earlier sector end with the bits that there are (R98): `last` is the position after the newest of them. -/
def endIntervals (last : Nat) (l : List Interval) : List Interval :=
  (l.map fun i => if i.fate = .live ∧ last < i.first + i.len ∧ i.first ≤ last then { i with len := last - i.first } else i).filter
    fun i => i.len != 0

/-- The beam takes a sector (R90): M, the nominal spacing, the acquisition start, and interval 0 to come. The oscillator starts
at the flywheel's prediction of q0 − 80 (log entry 147); where M changes, a decimation group that is not complete is dropped
(log entry 148). Bits that the oscillator counted past the acquisition start are the new sector's to count. -/
def Beam.acquire (b : Beam) (id pos u num den : Nat) (ch : Nat) (a : Stamp) (follows : Bool) : Beam :=
  let m := chooseM ch u num den
  let bits := b.bits.dropWhile fun x => pos ≤ x.pos && x.pos < pos + 1024
  let last := match bits with
    | x :: _ => x.pos + 1
    | [] => b.pos
  { b with
    sector := some id, acq := pos, pos := pos, unit := u, nominal := nominalOf u num den m, follows := follows
    adapt := { b.adapt with decM := m }
    group := if b.adapt.decM = m then b.group else []
    phase := phaseOf b m a
    intervals := endIntervals last b.intervals
    bits := bits }

/-- A sector of the pass at its acquisition start. -/
def newSector (s : State) (n : Fin 16) (p : Pass) (beam band track slot g i : Nat) (a q : Stamp) (m : Nat) : Sector :=
  { id := s.decode.nextId, head := n.val, beam := beam, pass := p.no,
    kind := if p.desc.mode = .read then .read else .verify,
    layer := p.desc.layer, track := track, slot := slot, group := g, member := i, band := band,
    spec := isSpec p && !p.claimed.contains band,
    stamp := q, acq := a, q0 := slot * slotBits + 128, predicted := q, framings := [], inferred := false,
    framed := false, complete := false, lastSample := none, stage := .inFlight, withdrawn := false, fpCfg := 0,
    inBufAt := 0, spilled := none, released := [], drops := [], insts := [], soft := [], channel := [], dest := 0,
    info := { SecInfo.none with decM := m }, outcome := none }

/-- The descriptor of the band of a verify-only pass, read when its first slot comes. -/
def State.readVerifyBand (s : State) (n : Fin 16) (p : Pass) : State :=
  if p.desc.mode = .verifyOnly ∧ ¬ (p.bandDescs.any fun d => d.band == p.desc.bandAt p.rev) then
    s.modPass n fun q => { q with bandDescs := q.bandDescs ++ [readBand s q.cfg.fmt q q.rev] }
  else s

/-- A sector that a beam still counts has all its samples once the next one is acquired. -/
def State.closeSector (s : State) (n : Fin 16) (j : Fin 12) : State :=
  let b := (s.head n).beams[j]
  match b.sector with
  | some i =>
    let last := match b.ring with
      | d :: _ => d.stamp
      | [] => s.now
    s.modSector i fun x => { x with lastSample := some (x.lastSample.getD last) }
  | none => s

/-- The pass reads the next slot of a beam's track too (R91, R98; log entry 135). -/
def nextFollows (p : Pass) (band track slot beam u : Nat) : Bool :=
  decide (slot + 1 < slotsOf u) &&
  match slotUse p band (twillStep u) track (slot + 1) beam with
  | .member _ _ => true
  | _ => false

/-- A slot that the pass reads comes to its acquisition start on a beam, predicted at `a` with its mark at `q`: it is admitted,
or queued for re-read while the ingest buffer is at its mark or the flywheel was not READY as its search window opened (R45,
R90, R113). -/
def State.admitSlot (s : State) (n : Fin 16) (beam : Fin 12) (p : Pass) (slot g i : Nat) (at' : Option (Stamp × Stamp))
    (ready : Bool) : State :=
  let (band, track) := beamPlace p beam.val
  let u := fmtU p.cfg.fmt band
  let (a, q) := at'.getD (s.now, s.now)
  let (num, den) := (flyRate (s.head n).fly).getD (0, 1)
  let s := if isSpec p then s.openRunAhead n p band else s
  let x := newSector s n p beam.val band track slot g i a q (chooseM p.cfg.ch u num den)
  let s := s.modDec fun d => { d with
    nextId := d.nextId + 1, sectors := d.sectors ++ [x]
    runAhead := d.runAhead.map fun r => if x.spec && r.holds x then { r with sectors := r.sectors + 1 } else r }
  let s := s.reopenAdmission n
  if !ready || at'.isNone || decide (stopMark ≤ ingestBytes s n.val) then s.withdrawSectors [x]
  else
    let s := s.closeSector n beam
    let s := s.modBeam n beam fun b =>
      b.acquire x.id (slot * slotBits + 48) u num den p.cfg.ch a (nextFollows p band track slot beam.val u)
    (s.ingestPeak n).runChannels n

/-- R90, R113, R45, R77, R143, R151. The acquisition start of a slot on a beam: the sector is admitted, queued for
re-read, or is none of the pass's. With no prediction the flywheel is not READY, and the slot's window opens as the medium
turns. -/
def execSectorAcquisitionStart (head : Fin 16) (beam : Fin 12) (slot : Nat) (s : State) : Result :=
  let n := head
  match (s.head n).pass with
  | none => .next s
  | some p0 =>
    let s := s.readVerifyBand n p0
    let p := ((s.head n).pass).getD p0
    let (band, track) := beamPlace p beam.val
    let u := fmtU p.cfg.fmt band
    let b := (s.head n).beams[beam]
    let half := natBits p.cfg.sync 5 0
    let at' := match predictSlot s n band slot 80, predictSlot s n band slot 0, flyRate (s.head n).fly with
      | some a, some q, some _ => some (a, q)
      | _, _, _ => none
    let opens := predictSlot s n band slot half
    let a := (at'.map (·.1)).getD s.now
    let late := match p.hem with
      | some m => decide (m.cut ≤ a)
      | none => false
    let beyond := p.desc.mode != .backstitch && decide (p.desc.count ≤ p.rev) && !(isSpec p && specAllowed p)
    let due := decide (slot < slotsOf u) && !(p.admitted.contains (track, slot)) && !late && !beyond && b.seeded &&
      at'.all fun x => decide (x.1 + (s.head n).link.presDelay ≤ s.now)
    let back := b.rejoin.all fun r => opens.any fun w => decide (r < w)
    when due s <|
      let s := s.modPass n fun p => { p with admitted := (track, slot) :: p.admitted }
      match slotUse p band (twillStep u) track slot beam.val with
      | .skip => s
      | .voided g i =>
        s.memberOutcome n.val p.no p.desc.layer band g i
          ⟨.erased, false, 0, 0, 0, (at'.map (·.2)).getD s.now, beam.val, track, slot, SecInfo.none⟩
      | .member g i =>
        if b.inService && back then s.admitSlot n beam p slot g i at' (opens.any fun w => readyAt s n w) else s

/-! ## Sync search -/

/-- Mismatches of the sync mark at data bit q of a sector, on its released values (R47). -/
def syncMisses (x : Sector) (q : Int) : Nat :=
  ((List.range 64).filter fun (i : Nat) =>
    let k : Int := q + (i : Int) - ((x.slot * slotBits + 48 : Nat) : Int)
    let v := if k < 0 then none else (x.released.getD k.toNat none)
    match v with
    | some v => settledBit v != testBitN syncMark (63 - i)
    | none => true).length

/-- The instant of a data bit of a sector's first interval, in 1/256 tick. -/
def Sector.instant (x : Sector) (pos : Int) : Option Int :=
  let k := pos - (x.slot * slotBits + 48 : Nat)
  if k < 0 then none else x.insts[k.toNat]?

/-- The stamp of the mark's first channel bit at a framing, interpolated by the oscillator and rounded to the tick (R24). -/
def Sector.markStamp (x : Sector) (f : Framing) : Stamp :=
  match x.instant ((x.q0 : Int) + f.ofs) with
  | some i => (nearest i 256).toNat
  | none => x.predicted

/-- q0: the recovered bit whose instant lies nearest the predicted stamp, the earlier of two (R46). -/
def Sector.findQ0 (x : Sector) : Nat :=
  let near := (indexed x.insts).foldl (fun (best : Option (Nat × Nat)) (i, v) =>
    let d := (v - 256 * (x.predicted : Int)).natAbs
    match best with
    | some (_, d0) => if d < d0 then some (i, d) else best
    | none => some (i, d)) none
  match near with
  | some (i, _) => x.slot * slotBits + 48 + i
  | none => x.q0

/-- The framing that lies nearer q0, the earlier of two at equal distance (Table 3-8). -/
def Framing.nearer (a b : Framing) : Bool :=
  a.ofs.natAbs < b.ofs.natAbs || (a.ofs.natAbs == b.ofs.natAbs && a.ofs < b.ofs)

/-- A sector is framed: inferred at q0, at one mark, or at two, the nearer first. What a dual framing shows before its contest
is log entry 149. -/
def Sector.frame (x : Sector) (q0 : Nat) (fs : List Framing) : Sector :=
  let x := { x with q0 := q0, framed := true }
  match fs with
  | [] => { x with
      inferred := true, framings := [⟨0, 15⟩], stamp := x.predicted
      info := { x.info with framing := 3, syncOfs := 0, syncMiss := 15 } }
  | [f] => { x with
      framings := [f], stamp := x.markStamp f, info := { x.info with framing := 0, syncOfs := f.ofs, syncMiss := f.miss } }
  | f :: g :: _ =>
    let (f, g) := if f.nearer g then (f, g) else (g, f)
    { x with framings := [f, g], stamp := x.markStamp f, info := { x.info with formR := true } }

/-- R46 to R51. Released decisions cover the window: candidates, clusters, and one or two framings, or inferred sync at
q0. -/
def execSyncSearchComplete (sector : Nat) (s : State) : Result :=
  match s.sector sector with
  | none => .next s
  | some x =>
    match s.passOf x.head x.pass with
    | none => .next s
    | some p =>
      let sync := p.cfg.sync
      let half := natBits sync 5 0
      let q0 := x.findQ0
      when (!x.framed && !x.isReframe && decide (q0 + half + 64 ≤ x.slot * slotBits + 48 + x.released.length)) s <|
        let misses := (List.range (2 * half + 1)).map fun (d : Nat) => syncMisses x ((q0 : Int) - half + d)
        let cands := candidates half (natBits sync 15 12) misses
        let fs := openFramings (natBits sync 11 8) (natBits sync 18 16) cands
        let s := s.modSector x.id fun x => x.frame q0 fs
        match fs with
        | [] => s.bump (R.HD_SYNC_CNT1 x.head) F.HD_SYNC_CNT1_INFERRED 1
        | [_] => s.bump (R.HD_SYNC_CNT0 x.head) F.HD_SYNC_CNT0_SINGLE 1
        | _ => s.bump (R.HD_SYNC_CNT0 x.head) F.HD_SYNC_CNT0_DUAL 1

/-! ## Intervals -/

/-- R98. The first bit of an interval: its checkpoint is recorded, and adaptation resumes here after a soft erase. -/
def execIntervalCheckpoint (head : Fin 16) (beam : Fin 12) (s : State) : Result :=
  let b := (s.head head).beams[beam]
  match b.sector with
  | none => .next s
  | some id =>
    when b.checkpointDue s <|
      let k := (b.pos - b.acq) / 512
      let iv : Interval := { sector := id, k := k, first := b.pos, len := min 512 (b.sectorBits - 512 * k),
                             checkpoint := b.adapt, fate := .live, forced := false, clamped := false, soft := [], drops := [] }
      let s := s.modBeam head beam fun b => { b with
        intervals := b.intervals ++ [iv], lastCheck := b.adapt, frozen := b.frozen && !b.thaw, thaw := false }
      s.runChannels head

/-- An interval of a beam changed, by its first position. -/
def Beam.modInterval (b : Beam) (first : Nat) (f : Interval → Interval) : Beam :=
  { b with intervals := b.intervals.map fun i => if i.first = first then f i else i }

/-- The interval after one, in the order in which they were taken. -/
def Beam.nextInterval (b : Beam) (first : Nat) : Option Interval :=
  ((b.intervals.dropWhile fun i => i.first != first).drop 1).head?

/-- The checkpoint of the interval after one is replaced; so is the one that the beam would hold out of service (R101). -/
def Beam.replaceNext (b : Beam) (first : Nat) (a : Adaptive) : Beam :=
  match b.nextInterval first with
  | some i => { b.modInterval i.first (fun i => { i with checkpoint := { a with decM := i.checkpoint.decM } }) with lastCheck := a }
  | none => b

/-- Another interval of the beam waits for its replay. -/
def Beam.pending (b : Beam) : Bool := b.intervals.any fun i => i.fate == .queued

/-- The soft erase of an interval (R103, R101): its values shrink, its record is flagged, the live path keeps the restored state,
and adaptation waits for the next boundary, or for another interval's replay. -/
def State.softEraseInterval (s : State) (n : Fin 16) (j : Fin 12) (first sector se : Nat) (expired : Bool) : State :=
  let iv := ((s.head n).beams[j]).intervals.find? fun i => i.first == first
  let s := s.modBeam n j fun b =>
    let a : Adaptive := { (iv.elim b.adapt (·.checkpoint)) with decM := b.adapt.decM }
    let b := b.modInterval first fun i =>
      { i with fate := .softErased, soft := i.soft.map fun v => v.map (softErase se) }
    let b := b.replaceNext first a
    { b with adapt := a, thaw := !b.pending }
  let s := s.modSector sector fun x => { x with info := { x.info with softErased := iv.elim 0 (·.k) :: x.info.softErased } }
  let s := s.bump (R.HD_SOFTERASE_CNT n.val) F.HD_SOFTERASE_CNT_SOFT 1
  if expired then s.bump (R.HD_SOFTERASE_CNT n.val) F.HD_SOFTERASE_CNT_EXPIRED 1 else s

/-- How many bits the oscillator has counted after a position. -/
def Beam.bitsAfter (b : Beam) (pos : Nat) : Option Nat :=
  ((indexed b.bits).find? fun x => x.2.pos == pos).map (·.1)

/-- The interval's last bit has its settled decision: 96 bits have followed it (R82, R95). -/
def Beam.settledFor (b : Beam) (i : Interval) : Bool := (b.bitsAfter (i.first + i.len - 1)).any fun k => decide (96 ≤ k)

/-- Ticks of n channel bits at the beam's nominal rate. -/
def Beam.ticksOf (b : Beam) (bits : Nat) : Nat := ceilDiv (bits * b.nominal * max 1 b.adapt.decM) (2 ^ 32)

/-- The ticks at which the rings overwrite the first sample and the first q that a replay needs (R84, R103). -/
def replayNeeds (b : Beam) (pres first : Nat) : Stamp × Stamp :=
  let inst := match ((b.bits.dropWhile fun x => x.pos != first).drop 32).head? with
    | some x => (x.inst / 256).toNat
    | none => (b.bits.getLast?.elim 0 fun x => x.inst / 256).toNat
  (inst + pres + 2048 * max 1 b.adapt.decM, inst + pres + b.ticksOf 1024)

/-- An unpick (R100): the checkpoint is restored, adaptation freezes, and the interval joins the replay queue, or is
soft-erased where both lanes run and the queue is full (R103). -/
def State.unpick (s : State) (n : Fin 16) (j : Fin 12) (p : Pass) (i : Interval) : State :=
  let s := s.bump (R.HD_UNPICK_CNT n.val) F.HD_UNPICK_CNT_UNPICKED 1
  let s := if i.forced then s.bump (R.HD_DROP_CNT n.val) F.HD_DROP_CNT_FORCED 1 else s
  let s := s.modSector i.sector fun x => { x with
    info := { x.info with forced := if i.forced then min 127 (x.info.forced + 1) else x.info.forced } }
  let s := s.modBeam n j fun b =>
    if b.pending then { b with frozen := true, thaw := false }
    else { b with
      adapt := { i.checkpoint with decM := b.adapt.decM }, lastCheck := i.checkpoint, frozen := true, thaw := false }
  let h := s.head n
  if h.lanes.toList.all Option.isSome ∧ 4 ≤ h.replayQ.length then
    s.softEraseInterval n j i.first i.sector (natBits p.cfg.unpick 31 24) false
  else
    let (ns, nq) := replayNeeds h.beams[j] h.link.presDelay i.first
    let r : Replay := { beam := j.val, first := i.first, sector := i.sector, decided := s.now, needSample := ns, needQ := nq }
    let ins (q : List Replay) : List Replay :=
      (q.filter fun x => x.decided < r.decided || (x.decided == r.decided && x.beam ≤ r.beam)) ++ [r] ++
      (q.filter fun x => !(x.decided < r.decided || (x.decided == r.decided && x.beam ≤ r.beam)))
    let s := s.modHead n fun h => { h with replayQ := ins h.replayQ }
    s.modBeam n j fun b => b.modInterval i.first fun i => { i with fate := .queued }

/-- What the bits of an interval leave in its sector: positions that a dropout erased, and interval 0's instants, which the sync
search and the sync-find stamp need (R24, R46, R112). -/
def noteBits (b : Beam) (i : Interval) (x : Sector) : Sector :=
  if i.k = 0 then { x with insts := ((b.bitsFrom i.first).1.take i.len).map (·.inst) } else x

/-- The positions of an interval that a dropout erased. -/
def dropsOf (b : Beam) (i : Interval) : List Nat :=
  ((b.bitsFrom i.first).1.take i.len).filterMap fun x => if x.drop then some x.pos else none

/-- R99. The test of the oldest interval that is settled and undecided, or passed and since found bad. -/
def execUnpickTest (head : Fin 16) (beam : Fin 12) (s : State) : Result :=
  let n := head
  let b := (s.head n).beams[beam]
  match (s.head n).pass, b.intervals.find? fun i => i.fate == .live || (i.fate == .passed && i.forced) with
  | some p, some i =>
    when (b.settledFor i || i.fate == .passed) s <|
      let kept := !b.settledFor i
      let soft := if kept then i.soft else intervalSoft b (natBits p.cfg.ch 15 8) i
      let drops := if kept then i.drops else dropsOf b i
      let (cnt, dis) := intervalTest b i soft
      let s := if kept then s else s.modSector i.sector (noteBits b i)
      let s := s.modBeam n beam fun b =>
        b.modInterval i.first fun i => { i with fate := .passed, soft := soft, drops := drops }
      if i.forced ∨ (natBits p.cfg.unpick 17 8 ≤ cnt ∧ natBits p.cfg.unpick 7 0 * cnt < dis * 256) then
        s.unpick n beam p { i with soft := soft }
      else if i.clamped then s.bump (R.HD_CLAMP_CNT n.val) F.HD_CLAMP_CNT_CLAMP 1
      else s
  | _, _ => .next s

/-- The work of a replay of an interval (R102): the beam's rings, its neighbours' live q, and the pass's configuration. -/
def replayInput (s : State) (n : Fin 16) (beam : Nat) (b : Beam) (i : Interval) : ReplayIn :=
  let h := s.head n
  { beam := b, inner := if beam = 0 then none else neighbour h (beam - 1), outer := neighbour h (beam + 1), iv := i
    cfg := chanCfg s n }

/-- R102. A free lane, lane 0 first, takes the oldest entry whose beam has none before it, and re-runs its interval. -/
def execReplayStart (head : Fin 16) (s : State) : Result :=
  let n := head
  let h := s.head n
  let running := h.lanes.toList.filterMap fun l => l.map fun (x : ReplayLane) => x.job.beam
  let eligible := (indexed h.replayQ).find? fun (k, r) =>
    !running.contains r.beam && !((h.replayQ.take k).any fun x => x.beam == r.beam)
  match (List.finRange 2).find? fun i => (h.lanes[i]).isNone, eligible with
  | some k, some (_, r) =>
    let b := h.beams.toList.getD r.beam Beam.reset
    match b.intervals.find? fun v => v.first == r.first with
    | none => .next (s.modHead n fun h => { h with replayQ := h.replayQ.filter fun x => x != r })
    | some i =>
      let ticks := 32 + ceilDiv ((i.len + 128) * b.nominal) (2 * 2 ^ 32)
      let run := runReplay (replayInput s n r.beam b i)
      let lane : ReplayLane :=
        { job := r, ends := s.now + ticks, adapt := run.adapt, soft := run.soft.reverse, clamped := run.clamped }
      .next (s.modHead n fun h => { h with
        replayQ := h.replayQ.filter fun x => x != r, lanes := h.lanes.set k (some lane) })
  | _, _ => .next s

/-- R101, R102. A replay ends: its soft values replace the interval's, the live path adopts its end state, the next
checkpoint is replaced, and adaptation resumes unless another interval waits. -/
def execReplayFinish (head : Fin 16) (lane : Fin 2) (s : State) : Result :=
  let n := head
  match (s.head n).lanes[lane] with
  | none => .next s
  | some l =>
    when (decide (l.ends ≤ s.now)) s <|
      let r := l.job
      let s := s.modHead n fun h => { h with lanes := h.lanes.set lane none }
      if hb : r.beam < 12 then
        let j : Fin 12 := ⟨r.beam, hb⟩
        let s := s.modBeam n j fun b =>
          let b := b.modInterval r.first fun i => { i with fate := .replayed, soft := l.soft }
          let b := b.replaceNext r.first l.adapt
          { b with adapt := { l.adapt with decM := b.adapt.decM }, frozen := b.pending, thaw := false }
        let s := s.modSector r.sector fun x => { x with info := { x.info with replayed := min 127 (x.info.replayed + 1) } }
        let s := if l.clamped then s.bump (R.HD_CLAMP_CNT n.val) F.HD_CLAMP_CNT_CLAMP 1 else s
        s.bump (R.HD_UNPICK_CNT n.val) F.HD_UNPICK_CNT_REPLAYED 1
      else s

/-- R103. A queued entry whose first sample or q is overwritten expires, and its interval is soft-erased. -/
def execReplayExpiry (head : Fin 16) (s : State) : Result :=
  let n := head
  match (s.head n).pass, (s.head n).replayQ.find? fun r => r.needSample ≤ s.now || r.needQ ≤ s.now with
  | some p, some r =>
    let s := s.modHead n fun h => { h with replayQ := h.replayQ.filter fun x => x != r }
    if hb : r.beam < 12 then
      .next (s.softEraseInterval n ⟨r.beam, hb⟩ r.first r.sector (natBits p.cfg.unpick 31 24) true)
    else .next s
  | _, _ => .next s

/-! ## Release and records -/

/-- The values of a sector from data bit `start`, n of them; none where erased. -/
def Sector.span (x : Sector) (start : Int) (n : Nat) : List (Option Int) :=
  let k := start - (x.slot * slotBits + 48 : Nat)
  (List.range n).map fun (i : Nat) => if k + (i : Int) < 0 then none else x.released.getD (k + (i : Int)).toNat none

/-- The released values reach the end of every framing's codeword. -/
def Sector.allReleased (x : Sector) : Bool :=
  x.framed && x.framings.all fun f =>
    decide (x.codeStart f + codewordChanBits ≤ (x.slot * slotBits + 48 + x.released.length : Nat))

/-- Mean of |s| over the values that are not erased, in Q5.3 (Table 5-6). -/
def meanAbsOf (l : List (Option Int)) : Nat :=
  let vs := l.filterMap id
  (openRound (8 * (vs.foldl (fun t v => t + absI v) 0)) (max 1 vs.length)).toNat % 256

/-- Raw mismatches of a framing against the slot's channel bits (R152): an erased position counts. -/
def rawMismatches (x : Sector) (f : Framing) (ref : List Bool) : Nat :=
  ((List.zip (x.span (x.codeStart f) codewordChanBits) ref).filter fun (v, r) =>
    match v with
    | some v => settledBit v != r
    | none => true).length

/-- A slot's RAW count goes into its entry in memory and in the pass (R152). -/
def State.writeRaw (s : State) (n : Fin 16) (d : BandDesc) (e : SlotEntry) (raw : Nat) : State :=
  let u := fmtU (fmtNow s n) d.band
  let s := s.memWrite 1 (entryAddr d (slotsOf u) e.track e.slot + 16) (natBytes 2 (min 0xFFFE raw))
  s.modPass n fun p => p.modSlot d.band e.track e.slot fun e => { e with raw := min 0xFFFE raw }

/-- The retained copy of an inferred-sync sector takes the head's next slot (R50, R111): the record's header, then
39,172 channel values. -/
def State.retainCopy (s : State) (n : Fin 16) (x : Sector) : State :=
  let g := (s.head n).ingest
  let slot := g.nextSlot % 256
  let addr := g.base + (n.val + 1) * 8388608 + slot * 32768
  let vals := (x.span ((x.q0 : Int) + 64 - 2) 39172).map fun v => v.getD 0
  let s := s.memWrite 0 addr (recordHeader { x with info := { x.info with formR := true } } ++ packSoft vals)
  let c : Copy := ⟨x.beam, addressWord x.layer x.track x.slot, x.stamp⟩
  s.modHead n fun h => { h with ingest := { h.ingest with
    nextSlot := (slot + 1) % 256, copies := (slot, c) :: h.ingest.copies.filter fun e => e.1 != slot } }

/-- A dropout overlapped the codeword of a framing (Table 5-6). -/
def Sector.dropIn (x : Sector) (f : Framing) : Bool :=
  x.drops.any fun d => decide (x.codeStart f ≤ (d : Int)) && decide ((d : Int) < x.codeStart f + codewordChanBits)

/-- ERASED and MEAN_ABS of a framing's codeword (Table 5-6). -/
def Sector.quality (x : Sector) (f : Framing) : Nat × Nat :=
  let code := x.span (x.codeStart f) codewordChanBits
  let erased := ((List.range codeBits).filter fun v => (code.getD (17 * (v / 16) + 1 + v % 16) none).isNone).length
  (min 0xFFFF erased, meanAbsOf code)

/-- A sector's record is complete (R111, R112): Form C for one framing, Form R for two, with its channel fields, the
raw counts of a verify read, and the retained copy of an inferred sync. -/
def State.completeRecord (s : State) (n : Fin 16) (x : Sector) : State :=
  let first := x.framings.headD ⟨0, 0⟩
  let (erased, mean) := x.quality first
  let entry := if x.kind = .verify then (s.passOf x.head x.pass).bind fun p => verifyEntry p x.band x.track x.slot else none
  let raws := match entry with
    | some (d, e) => x.framings.map fun f => rawMismatches x f (codewordChannel s x.layer d e)
    | none => []
  let info := { x.info with erasedBits := erased, meanAbs := mean, dropout := x.framings.any x.dropIn, raws := raws }
  let stage := if x.stage = .inFlight then .waiting else x.stage
  let y : Sector :=
    if x.framings.length ≤ 1 then
      let arr := ((x.span (x.codeStart first) codewordChanBits).map fun v => v.getD 0).toArray
      { x with soft := (demodulate arr 0).toList, info := info, complete := true, stage := stage, inBufAt := s.now }
    else
      let (lo, hi) := x.recordSpan
      { x with channel := (x.span lo (hi - lo).toNat).map (fun v => v.getD 0), info := info, complete := true,
               stage := stage, inBufAt := s.now }
  let s := s.modSector x.id fun _ => y
  let s := match entry with
    | some (d, e) => s.writeRaw n d e (raws.headD 0)
    | none => s
  if x.inferred then s.retainCopy n y else s

/-- R105, R111. The oldest interval of a beam is resolved: its values join its sector, whose record is complete once
they reach the codeword's end. -/
def execIntervalRelease (head : Fin 16) (beam : Fin 12) (s : State) : Result :=
  let n := head
  match (s.head n).beams[beam].intervals with
  | [] => .next s
  | i :: rest =>
    when (i.fate == .passed && !i.forced || i.fate == .replayed || i.fate == .softErased) s <|
      let s := s.modBeam n beam fun b => { b with intervals := rest }
      let s := s.modSector i.sector fun x => { x with released := x.released ++ i.soft, drops := x.drops ++ i.drops }
      let s := s.ingestPeak n
      match s.sector i.sector with
      | some x => if x.allReleased && !x.complete then s.completeRecord n x else s
      | none => s

/-! ## Dropouts -/

/-- The samples of a beam from the one with a stamp backwards, newest first. -/
def Beam.upTo (b : Beam) (stamp : Stamp) : List RawSample := b.recent.dropWhile fun x => x.stamp != stamp

/-- The envelope E_n of R107 over the newest W of a list. -/
def envelope (b : Beam) (w : Nat) (l : List RawSample) : Nat :=
  let o := floorDiv b.adapt.offset 16
  ((l.take w).map fun x => (x.value - o).natAbs).foldl max 0

/-- The dropout thresholds in force for a head. -/
def dropCfg (s : State) (n : Fin 16) : Nat × Nat :=
  match (s.head n).pass with
  | some p => (p.cfg.drop, p.cfg.dropMask)
  | none => ((s.reg (R.HD_DROP_CFG n.val)).toNat, (s.reg (R.HD_DROP_MASK n.val)).toNat)

/-- E_n lies below a threshold of k/64 of AMP_REF (R107, R108). -/
def belowThreshold (b : Beam) (w k : Nat) (l : List RawSample) : Bool :=
  decide (envelope b w l * 16 * 64 < k * b.seeds.ampRef)

/-- Every raw sample from a stamp on lies in a dropout, or does not any more. -/
def Beam.eraseFrom (b : Beam) (stamp : Stamp) (e : Bool) : Beam :=
  let f (x : RawSample) : RawSample := if stamp ≤ x.stamp then { x with drop := e } else x
  { b with raw := b.raw.map f, recent := b.recent.map f }

/-- The tick at which the block that carries a beam's sample leaves deskew (R62, R65): its place in the frame, after the
greatest arrival latency, which P holds (R81). -/
def sampleArrival (s : State) (n : Fin 16) (beam : Nat) (stamp : Stamp) : Stamp :=
  let k := 48 * feK s n
  let i := (stamp + k) % 48
  let block := 6 * (beam % 3) + i / 8
  (stamp + k - i) + ((s.head n).link.presDelay - k - 56) + ceilDiv ((block + 2) * 48) 25

/-- R107, R109. The first sample below the entry threshold: the beam is in dropout, and the head's flag rises with the
first masked beam. -/
def execDropoutStart (head : Fin 16) (beam : Fin 12) (stamp : Stamp) (s : State) : Result :=
  let n := head
  let (cfg, mask) := dropCfg s n
  let b := (s.head n).beams[beam]
  let l := b.upTo stamp
  let w := natBits cfg 3 0
  when (b.dropout.isNone && decide (w ≤ l.length) && belowThreshold b w (natBits cfg 10 5) l &&
      decide (sampleArrival s n beam.val stamp ≤ s.now)) s <|
    let s := s.modBeam n beam fun b =>
      { b.eraseFrom stamp true with dropout := some ⟨stamp⟩, guard := none, longDrop := false }
    let s := s.bump (R.HD_DROP_CNT n.val) F.HD_DROP_CNT_DROPOUTS 1
    match (s.head n).flag with
    | some (r, m) => s.modHead n fun h => { h with flag := some (r, setBitN m beam.val) }
    | none =>
      if testBitN mask beam.val then
        let up := (List.finRange 12).filter fun j => ((s.head n).beams[j]).dropout.isSome
        let s := s.modHead n fun h => { h with flag := some (stamp, (up.map fun j => 2 ^ j.val).sum) }
        let s := s.modLoopHead n fun h => { h with xing := h.xing ++ [.rise stamp] }
        match (s.head n).pass with
        | some p => if testBitN p.cfg.wr 0 then s.gateFails n 1 else s
        | none => s
      else s

/-- R108, R109. A run of REC samples at or above the recovery threshold ends the dropout; `stamp` is that of the sample
that completes the run. The flag falls with the last masked beam. -/
def execDropoutEnd (head : Fin 16) (beam : Fin 12) (stamp : Stamp) (s : State) : Result :=
  let n := head
  let (cfg, mask) := dropCfg s n
  let b := (s.head n).beams[beam]
  let l := b.upTo stamp
  let w := natBits cfg 3 0
  let rec' := natBits cfg 23 17
  let clear := (List.range rec').all fun k => !belowThreshold b w (natBits cfg 16 11) (l.drop k)
  match b.dropout with
  | none => .next s
  | some d =>
    when (decide (rec' + w ≤ l.length + 1) && clear && decide (d.start + rec' ≤ stamp + 1) &&
        decide (sampleArrival s n beam.val stamp ≤ s.now)) s <|
      let e := stamp + 1
      let s := s.modBeam n beam fun b =>
        { b.eraseFrom e false with dropout := none, guard := some e, longDrop := decide (b.ticksOf 64 < e - d.start) }
      let left := (List.finRange 12).any fun j => testBitN mask j.val && ((s.head n).beams[j]).dropout.isSome
      match (s.head n).flag with
      | some (r, m) =>
        if left || !testBitN mask beam.val then s
        else
          let s := s.modHead n fun h => { h with flag := none }
          let s := s.modLoopHead n fun h => { h with xing := h.xing ++ [.fall e] }
          s.logHead n 0x1104 (r % 2 ^ 32) (e % 2 ^ 32) m
      | none => s

/-- R108. GUARD channel bits after the end stamp adaptation resumes, with acquisition gains for 64 bits after a long
dropout. -/
def execDropoutGuardEnd (head : Fin 16) (beam : Fin 12) (s : State) : Result :=
  let n := head
  let b := (s.head n).beams[beam]
  let (cfg, _) := dropCfg s n
  match b.guard with
  | none => .next s
  | some e =>
    when (decide (e + b.ticksOf (natBits cfg 31 24) + (s.head n).link.presDelay ≤ s.now)) s <|
      s.modBeam n beam fun b =>
        { b with guard := none, acqBits := if b.longDrop then 64 else b.acqBits, longDrop := false }

end Sys2Proof.Machine
end

