-- ==== Sys2Proof/Machine/RegWrite.lean ====
section
/-!
DEFINITION. Machine/RegWrite.lean: what a write makes of the fields of one register by their access types (R7): the
part of a register write that is no action.
-/

namespace Sys2Proof.Machine

/-- Fields that a write of 1 to their lowest bit clears whole: HD_INGEST.PEAK, HC_SUMP.PEAK, SNIP_STATUS.DROPPED. -/
def clearsWhole (off : Nat) (f : FieldPos) : Bool :=
  f.width != 1 && (off == R.HC_SUMP || off == R.SNIP_STATUS || (0x400000 ≤ off && off < 0x600000))

/-- One field after a write of the word w (R7): RW and RWS fields are set, held to the nearest value that the field
stores; each 1 clears a W1C bit and sets a W1S bit; RO and WO fields keep what they hold. -/
def writeField (off : Nat) (w old : Word) (f : RegField) : Word :=
  let v := getField w f.pos
  let cur := getField old f.pos
  match f.acc with
  | .rw | .rws => setField old f.pos (clampNat f.least f.most v)
  | .w1c =>
    if clearsWhole off f.pos then (if v % 2 = 1 then setField old f.pos 0 else old)
    else setField old f.pos (cur - (cur &&& v))
  | .w1s => setField old f.pos (cur ||| v)
  | .ro | .wo => old

/-- A register's word after a plain write (R6, R7): reserved bits stay 0. -/
def writtenWord (off : Nat) (old w : Word) : Word :=
  match findReg off with
  | some d => d.fields.foldl (fun acc f => writeField off w acc f) old
  | none => old

/-- A register written by its access types alone. -/
def State.writePlain (s : State) (key : Nat) (w : Word) : State :=
  s.setReg key (writtenWord (key % 0x1000000) (s.reg key) w)

end Sys2Proof.Machine
end

