-- ==== Sys2Proof/Machine/LoopExec.lean ====
section
/-!
DEFINITION. Machine/LoopExec.lean: the loop engine: requests and admission (R165, R174 to R177), the inputs of an
execution (R168 to R170), the nodes (R166, R167, Table 8-1), supervision and focus loss (R180 to R182), the head
sequences (R184 to R189) and the trace (R190).
-/

namespace Sys2Proof.Machine

/-! ## Formats (R167) -/

/-- A signal: Q0.23, saturated. -/
def satSig (v : Int) : Int := clampInt (-(2 ^ 23)) (2 ^ 23 - 1) v

/-- A 40-bit state with 31 fraction bits: what falls outside is open (log entry 9). -/
def wide (v : Int) : Int := if -(2 ^ 39) ≤ v ∧ v < 2 ^ 39 then v else Config.wideState v

/-- Coefficient k of a slot, Q4.19, and as a signal and a state. -/
def coef (s : State) (k : Fin 96) (i : Nat) : Int :=
  toSigned (s.fld (R.LP_COEF k.val i) F.LP_COEF_VALUE) 24
def coefSig (s : State) (k : Fin 96) (i : Nat) : Int := coef s k i * 16
def coefState (s : State) (k : Fin 96) (i : Nat) : Int := coef s k i * 2 ^ 12

/-- Bits [23:8] of a signal's magnitude, as thresholds in FS/65,536 compare (R167). -/
def magHigh (v : Int) : Nat := v.natAbs / 256

/-! ## Requests and admission -/

/-- An event of the loop engine. -/
def State.logLoop (s : State) (code : Nat) (a0 a1 a2 a3 : Nat := 0) : State := s.log srcLoop .control code a0 a1 a2 a3

/-- START and LANE of a slot. -/
def slotStart (s : State) (k : Fin 96) : Nat := s.fld (R.LP_SLOT_SCHED k.val) F.LP_SLOT_SCHED_START
def slotLane (s : State) (k : Fin 96) : Nat := slotCfg s k F.LP_SLOT_CFG_LANE

/-- How many coefficients a node type takes from C on (Table 8-1), and which operand fields its law uses. -/
def nodeCoefs : Nat → Nat
  | 2 => 1 | 4 => 5 | 5 => 3 | 6 => 2 | 7 => 1 | 9 => 2 | 0xA => 2 | 0xB => 4 | 0xD => 1 | 0xF => 26 | _ => 0
def nodeUsesA (t : Nat) : Bool := 2 ≤ t && t ≤ 14
def nodeUsesB (t : Nat) : Bool := t == 3 || t == 8 || t == 0xB || t == 0xE

/-- A node stands in a slot of its kind with a destination of Table 8-3 (R172). -/
def nodePlaced (spindle : Bool) (w : NodeWord) : Bool :=
  if w.type = 0xD then
    let d := w.arg % 256
    if spindle then d == 0x41 else d ≤ 4 || d == 0x40
  else if w.type = 0xF then !spindle
  else if w.type = 1 then
    let src := inSource w
    !(spindle && ((1 ≤ src && src ≤ 8) || 0x100 ≤ src))
  else true

/-- A node's references are in range (condition 6 of R165). -/
def nodeInRange (w : NodeWord) : Bool :=
  (!nodeUsesA w.type || w.a < 24) && (!nodeUsesB w.type || w.b < 24) && w.c + nodeCoefs w.type ≤ 64 &&
    (w.type != 0xF || w.arg % 256 + 23 ≤ 255)

/-- The slot's interval is in use: it is not DISABLED, or is admitted. -/
def Slot.inUse (x : Slot) : Bool := x.st != .disabled || x.reserved

/-- Why a slot is not admitted: the cause of event 0x4002 (R165, Table 8-10). -/
def admitCause (s : State) (k : Fin 96) : Option Nat :=
  let nodes := slotNodes s k
  let cost := slotCost nodes
  let a := slotStart s k
  let clash (j : Fin 96) : Bool :=
    let b := slotStart s j
    j != k && (s.slot j).inUse && slotLane s j == slotLane s k && a < b + slotCost (slotNodes s j) && b < a + cost
  if 900 < a + cost then some 0
  else if (List.finRange 96).any clash then some 1
  else if isServo nodes ∧ 160 < cost then some 2
  else if !(nodes.all fun w => nodePlaced (slotSpindle s k) w) then some 3
  else if !(nodes.all nodeInRange) then some 4
  else none

/-- A state request reaches the engine (R174, R175, R189): 2 counts as 1. RUN is refused under a persistent hardware
hold; a DISABLED slot is admitted or refused now (R165). -/
def State.slotRequest (s : State) (k : Fin 96) (req : Nat) (clear : Bool) : State :=
  let r := if req = 2 then 1 else req
  let s := s.setFld (R.LP_SLOT_CTRL k.val) F.LP_SLOT_CTRL_REQ r
  let s := match slotHead s k with
    | some n =>
      if (s.slot k).override ∧ (((s.loopHead n).seq.bind fun q => seqSlot s n q.kind) = some k) then s.endSequence n 7 else s
    | none => s
  let s := if clear then s.modSlot k fun x => { x with clear := true } else s
  let x := s.slot k
  if r = 3 ∧ (s.linkHolds k ∨ x.memHold) then s.logLoop 0x4007 k.val (if s.linkHolds k then 0 else 1)
  else if x.inUse ∨ r = 0 then s.modSlot k fun x => { x with req := some r }
  else
    match slotHead s k with
    | some n =>
      if !s.headInService n.val then s.logLoop 0x4001 k.val n.val
      else match admitCause s k with
        | some c => s.logLoop 0x4002 k.val c (slotStart s k) (slotCost (slotNodes s k))
        | none => s.modSlot k fun x => { x with req := some r, reserved := true }
    | none => match admitCause s k with
      | some c => s.logLoop 0x4002 k.val c (slotStart s k) (slotCost (slotNodes s k))
      | none => s.modSlot k fun x => { x with req := some r, reserved := true }

/-- A coefficient write reaches the engine (R177): at once in a DISABLED slot, else at the next execution start. -/
def State.coefWrite (s : State) (k : Fin 96) (i v : Nat) : State :=
  if (s.slot k).st = .disabled then s.setReg (R.LP_COEF k.val (i % 64)) (coefWord v)
  else s.modSlot k fun x => { x with coefPend := x.coefPend ++ [(i % 64, v % 2 ^ 24)] }

/-- COST brought up to the nodes (R164). -/
def State.showCost (s : State) (k : Fin 96) : State :=
  s.setFld (R.LP_SLOT_SCHED k.val) F.LP_SLOT_SCHED_COST (slotCost (slotNodes s k))

/-- A write of LP_SLOT_CFG, LP_SLOT_SCHED.START or LP_NODE (R166). -/
def State.slotConfig (s : State) (k : Fin 96) (off : Nat) (w : Word) : State :=
  if (s.slot k).st = .disabled then (s.writePlain off w).showCost k else s.logLoop 0x4003 k.val off

/-! ## Node states -/

def ApcLoop.zero : ApcLoop := ⟨0, none, 0⟩

/-- The states after a clear on leaving DISABLED: every node state 0, an INT at clamp(0, LO, HI), and no winner of a MIN node
(R174, R178). -/
def State.clearNodes (s : State) (k : Fin 96) : State :=
  let fresh (j : Fin 24) : NodeState :=
    let w := nodeWord s k j.val
    if w.type = 5 then
      let y := clampInt (coefState s k (w.c + 1)) (coefState s k (w.c + 2)) 0
      { NodeState.zero with s1 := y, out := satSig (roundDiv y 256) }
    else NodeState.zero
  s.modSlot k fun x => { x with nodes := Vector.ofFn fresh, apc := [], minWin := 0 }

/-- CLR_STATE: BIQ, RATE and PLANT states are 0; INT states and CHV offsets stay (R177). -/
def State.clearFilters (s : State) (k : Fin 96) : State :=
  let wipe (j : Fin 24) (n : NodeState) : NodeState :=
    let t := (nodeWord s k j.val).type
    if t = 4 ∨ t = 7 ∨ t = 0xB then { n with out := 0, s1 := 0, s2 := 0, s3 := 0, s4 := 0 } else n
  s.modSlot k fun x => { x with nodes := Vector.ofFn fun j => wipe j x.nodes[j] }

/-- The slot's first node of a type. -/
def firstNode (s : State) (k : Fin 96) (t : Nat) : Option (Fin 24) :=
  (List.finRange 24).find? fun j => (nodeWord s k j.val).type == t

/-- A change of state: the supervision counts return to 0 (R180), and a ramp starts from its feedback (R176). -/
def State.slotTo (s : State) (k : Fin 96) (st : SlotSt) : State :=
  let ramps (j : Fin 24) (n : NodeState) : NodeState :=
    if (nodeWord s k j.val).type = 9 ∧ st = .ramp then { n with win := 0 } else n
  if (s.slot k).st = st then s
  else (s.restartLost k).modSlot k fun x => { x with
    st := st, reserved := false, resid := 0, sat := 0, rampDone := false
    nodes := Vector.ofFn fun j => ramps j x.nodes[j] }

/-- The state that RUN enters: RAMP, or RUN at once in a slot without a RAMP node (R174). -/
def runTarget (s : State) (k : Fin 96) : SlotSt := if (firstNode s k 9).isSome then .ramp else .run

/-- What is pending takes effect at an execution start, in this order: DISABLED over everything, then hardware holds and a
sequence's override, then the request, then the end of the ramp (R174 to R176, R184); coefficients and CLR_STATE (R177). -/
def State.startExec (s : State) (k : Fin 96) : State :=
  let s := s.applyCoefs k
  let x := s.slot k
  let s := s.modSlot k fun x => { x with req := none, hwHold := false, clear := false }
  if x.req = some 0 then s.disableSlot k
  else
    let held := x.hwHold || s.linkHolds k || x.memHold || x.override
    let s := if x.st = .disabled then s.clearNodes k else s
    let s := if x.clear then s.clearFilters k else s
    if held ∨ x.req = some 1 then s.slotTo k .hold
    else if x.req = some 3 ∧ (x.st = .disabled ∨ x.st = .hold) then s.slotTo k (runTarget s k)
    else if x.st = .ramp ∧ x.rampDone then s.slotTo k .run
    else if x.st = .disabled then s.slotTo k .hold
    else s

/-! ## Inputs -/

/-- The quadrants summed over the sets that an IN node takes, how many they are, and the newest stamp. -/
structure QuadSum where
  a : Int
  b : Int
  c : Int
  d : Int
  n : Nat
  newest : Stamp
  deriving DecidableEq, Repr

/-- Σ over the sets. -/
def QuadSum.total (q : QuadSum) : Int := q.a + q.b + q.c + q.d

/-- The longest gap between consecutive QUAD sets, half a set above their 144 ticks (R168, log entry 25). -/
def quadGap : Nat := 216

/-- The sets are consecutive: none between them was lost. -/
def consecutive : List QuadSet → Bool
  | x :: y :: rest => x.stamp ≤ y.stamp + quadGap && consecutive (y :: rest)
  | _ => true

/-- The end of the hold window: the fall plus REL (R170). -/
def dropEnd (s : State) (n : Fin 16) : Option Stamp :=
  (s.loopHead n).fall.map fun f => f + s.fld (R.LP_HEAD_CFG n.val) F.LP_HEAD_CFG_REL

/-- A stamp lies in the hold window [t_r, t_f + REL) (R170). -/
def inDropWindow (s : State) (n : Fin 16) (t : Stamp) : Bool :=
  match (s.loopHead n).rise, dropEnd s n with
  | some r, some e => r ≤ t && t < e
  | some r, none => r ≤ t
  | none, _ => false

/-- R170 holds an execution that starts at t. -/
def dropHolds (s : State) (n : Fin 16) (t : Stamp) : Bool :=
  match (s.loopHead n).rise, dropEnd s n with
  | some _, none => true
  | some _, some e => t < e
  | none, _ => false

/-- The QUAD sets that an IN node takes at an execution that starts at t: its NAVG newest visible ones, the newest first. -/
def quadSets (s : State) (n : Fin 16) (w : NodeWord) (t : Stamp) : List QuadSet :=
  (((s.loopHead n).quads.filter fun q => q.seen ≤ t)).take (2 ^ (natBits w.arg 10 9))

/-- The sums over the QUAD sets of an IN node, or none where one of the sets is missing (R168). -/
def quadInput (s : State) (n : Fin 16) (w : NodeWord) (t : Stamp) : Option QuadSum :=
  let cnt := 2 ^ (natBits w.arg 10 9)
  let sets := quadSets s n w t
  match sets with
  | [] => none
  | q :: _ =>
    if sets.length < cnt ∨ !consecutive sets ∨ sets.any (·.invalid) ∨ q.seen + 146 < t then none
    else
      let add (f : QuadSet → Int) : Int := sets.foldl (fun acc x => acc + f x) 0
      some ⟨add (·.a), add (·.b), add (·.c), add (·.d), cnt, q.stamp⟩

/-- R170 holds an execution of a slot that starts at t: one of its IN nodes has DROP_HOLD, and a rise stands without its fall,
the release has not passed, or some IN node of the slot takes a set stamped in the window. -/
def dropHeld (s : State) (n : Fin 16) (k : Fin 96) (t : Stamp) : Bool :=
  let ins := (slotNodes s k).filter fun w => w.type == 1
  (ins.any fun w => testBitN w.arg 11) &&
  (dropHolds s n t ||
    (ins.filter fun w => isQuadSource (inSource w)).any fun w => (quadSets s n w t).any fun x => inDropWindow s n x.stamp)

/-- A normalised source: num over the greater of Σ and SUM_MIN, or none where that divisor is not positive. -/
def normalised (sumMin : Nat) (q : QuadSum) (num : Int) : Option Int :=
  let den := max q.total ((sumMin * q.n : Nat) : Int)
  if den ≤ 0 then none else some (satSig (roundDiv (num * 2 ^ 23) den))

/-- FE and PP before any division. -/
def QuadSum.fe (q : QuadSum) : Int := (q.a + q.c) - (q.b + q.d)
def QuadSum.pp (q : QuadSum) : Int := (q.a + q.d) - (q.b + q.c)

/-- A quadrant source's value (Table 8-2). -/
def quadSource (sumMin : Nat) (src : Nat) (q : QuadSum) : Option Int :=
  match src with
  | 1 => normalised sumMin q q.fe
  | 2 => normalised sumMin q q.pp
  | 3 => some (satSig (roundDiv (q.total * 1024) q.n))
  | 4 => some (satSig (roundDiv (q.fe * 1024) q.n))
  | _ => some (satSig (roundDiv (q.pp * 1024) q.n))

/-- SUM_MIN of a head. -/
def sumMinOf (s : State) (n : Fin 16) : Nat := s.fld (R.LP_HEAD_CFG n.val) F.LP_HEAD_CFG_SUM_MIN

/-- The low 16 bits of a housekeeping item's latest verified value, × 2^8 (Table 8-2); 0 where none has come. -/
def hkSignal (s : State) (n : Fin 16) (item : Nat) : Int :=
  match (s.head n).link.hk.lookup item with
  | some (v, _) => toSigned v 16 * 256
  | none => 0

/-- A source that never holds (Table 8-2). -/
def plainSource (s : State) (head : Option (Fin 16)) (src : Nat) : Int :=
  if 0x10 ≤ src ∧ src ≤ 0x17 then
    if src = 0x16 then match head with
      | some n => satSig (s.motion.pubV.getD n.val 0)
      | none => 0
    else satSig (s.motion.pub.getD (src - 0x10) 0)
  else if h : 0x80 ≤ src ∧ src ≤ 0xDF then (s.slot ⟨src - 0x80, by omega⟩).lastOut
  else match head with
    | some n =>
      if src = 8 then match (s.loopHead n).chev with
        | some c => satSig (c.y * 2 ^ 12)
        | none => 0
      else if 0x100 ≤ src then hkSignal s n (src - 0x100)
      else 0
    | none => 0

/-- The values of a slot's IN nodes at an execution start: for each node index the value, or nothing at all where the
execution is held; with the newest QUAD stamp used. -/
def slotInputs (s : State) (k : Fin 96) (t : Stamp) : Option (List (Nat × Int)) × Option Stamp :=
  let head := slotHead s k
  let ins := (List.range 24).filter fun j => (nodeWord s k j).type == 1
  ins.foldl (fun (acc : Option (List (Nat × Int)) × Option Stamp) j =>
    let w := nodeWord s k j
    if isQuadSource (inSource w) then
      match head with
      | some n =>
        match quadInput s n w t with
        | some q => match quadSource (sumMinOf s n) (inSource w) q with
          | some v => (acc.1.map fun l => (j, v) :: l, some (max (acc.2.getD 0) q.newest))
          | none => (none, acc.2)
        | none => (none, acc.2)
      | none => (none, acc.2)
    else (acc.1.map fun l => (j, plainSource s head (inSource w)) :: l, acc.2)) (some [], none)

/-- FE, PP and Σ through the IN averaging of a slot's first quadrant IN node, whatever holds the slot (R184): the sums of the
sets, none where one is missing. -/
def unitView (s : State) (n : Fin 16) (k : Fin 96) (t : Stamp) : Option QuadSum :=
  match (slotNodes s k).find? fun w => w.type == 1 && isQuadSource (inSource w) with
  | some w => quadInput s n w t
  | none => none

/-! ## Node laws -/

/-- What the nodes of an execution share. -/
structure ExecCtx where
  st      : SlotSt
  held    : Bool
  inputs  : List (Nat × Int)
  drive   : Option Int
  deriving DecidableEq, Repr

/-- The operand that names node i: this execution's output below the own index, the previous one otherwise (R166). -/
def operand (prev cur : List NodeState) (own i : Nat) : Int :=
  if i < own then (cur.getD i NodeState.zero).out else (prev.getD i NodeState.zero).out

/-- The winner of a MIN node as the INT at `own` sees it (R178). -/
def minWinner (prev cur : List NodeState) (own m : Nat) : Nat :=
  if m < own then (cur.getD m NodeState.zero).win else (prev.getD m NodeState.zero).win

/-- An OUT node or APC loop sends: at every execution, or under DELTA on a new value or after 64 executions (R172). -/
def deltaSends (delta : Bool) (sent : Option Int) (since : Nat) (v : Int) : Bool :=
  !delta || sent != some v || 64 ≤ since + 1

/-- A 40-bit state as an operand of a 24 × 24-bit product: converted to a signal (R164, R167). -/
def stateSig (v : Int) : Int := satSig (roundDiv v 256)

/-- One node's law (Table 8-1): its new state. Products are of 24-bit operands and keep 48 bits; their sums with a state stay
within the 56 bits of the accumulator; each result is rounded once (R167). -/
def nodeLaw (s : State) (k : Fin 96) (x : ExecCtx) (prev cur : List NodeState) (j : Nat) (firstDrv : Bool) : NodeState :=
  let w := nodeWord s k j
  let n := prev.getD j NodeState.zero
  let a := operand prev cur j w.a
  let b := operand prev cur j w.b
  let c (i : Nat) : Int := coef s k (w.c + i)
  match w.type with
  | 1 => { n with out := if x.held then 0 else (x.inputs.lookup j).getD 0 }
  | 2 => { n with out := satSig (roundDiv (c 0 * a) (2 ^ 19)) }
  | 3 => { n with out := satSig (if testBitN w.arg 0 then a - b else a + b) }
  | 4 =>
    let y := satSig (roundDiv (c 0 * a + n.s1 * 2 ^ 11) (2 ^ 19))
    { n with
      out := y
      s1 := wide (roundDiv (c 1 * a - c 3 * y + n.s2 * 2 ^ 11) (2 ^ 11))
      s2 := wide (roundDiv (c 2 * a - c 4 * y) (2 ^ 11)) }
  | 5 =>
    if x.held then n
    else
      let u := clampInt (coefState s k (w.c + 1)) (coefState s k (w.c + 2)) (roundDiv (n.s1 * 2 ^ 11 + c 0 * a) (2 ^ 11))
      let win := minWinner prev cur j (w.arg % 32)
      let own := if testBitN w.arg 5 then 2 else 1
      let y := if testBitN w.arg 6 ∧ win ≠ 0 ∧ win ≠ own then min n.s1 u else u
      { n with s1 := y, out := satSig (roundDiv y 256) }
  | 6 => { n with out := satSig (clampInt (coefSig s k w.c) (coefSig s k (w.c + 1)) a) }
  | 7 =>
    let r := coefState s k w.c
    let y := wide (n.s1 + clampInt (-r) r (a * 256 - n.s1))
    { n with s1 := y, out := satSig (roundDiv y 256) }
  | 8 => { n with out := min a b, win := if a ≤ b then 1 else 2 }
  | 9 =>
    if x.held then n
    else if x.st = .ramp ∧ n.win = 0 then { n with out := satSig a, win := 1 }
    else
      let r := coefSig s k (w.c + 1)
      { n with out := satSig (n.out + clampInt (-r) r (coefSig s k w.c - n.out)) }
  | 0xA => { n with out := satSig (a - n.s1) }
  | 0xB =>
    let m := wide (roundDiv (c 0 * n.s1 + c 1 * n.s2 - c 2 * stateSig n.s3 - c 3 * stateSig n.s4) (2 ^ 11))
    { n with out := satSig (roundDiv (b * 256 - m) 256), s1 := a, s2 := n.s1, s3 := m, s4 := n.s3 }
  | 0xC => { n with out := if firstDrv then x.drive.getD a else a }
  | 0xD =>
    let v := satSig (roundDiv (c 0 * a) (2 ^ 19))
    let send := deltaSends (testBitN w.arg 8) n.sent n.since v
    { n with out := v, sent := if send then some v else n.sent, since := if send then 0 else n.since + 1 }
  | 0xE => { n with out := satSig (roundDiv (a * b) (2 ^ 23)) }
  | _ => n

/-- A LIM node clamps (Table 8-1). -/
def limClamps (s : State) (k : Fin 96) (prev cur : List NodeState) (j : Nat) : Bool :=
  let w := nodeWord s k j
  let a := operand prev cur j w.a
  w.type == 6 && clampInt (coefSig s k w.c) (coefSig s k (w.c + 1)) a != a

/-- The nodes in index order (R166). -/
def runNodes (s : State) (k : Fin 96) (x : ExecCtx) (prev : List NodeState) : List NodeState :=
  let drv := (firstNode s k 0xC).map (·.val)
  (List.range 24).foldl (fun cur j => cur ++ [nodeLaw s k x prev cur j (drv == some j)]) []

/-! ## The laser slot (R179) -/

/-- Beam j lies between a WSTART and the WSTOP that follows it. -/
def beamWriting (s : State) (n : Fin 16) (j : Nat) (t : Stamp) : Bool :=
  match (s.head n).pass.bind (·.writeRev) with
  | some w => !w.due && testBitN w.mask j && w.startAt ≤ t && t < w.stopAt
  | none => false

/-- One loop of an APC node: its new state and what it sends. With a new monitor value the node forms e, moves the integrator
(a write loop's only while its beam writes), and adds the proportional part; in HOLD it outputs the integrator as it stands (R179;
log entry 115). -/
def apcLoop (s : State) (n : Fin 16) (k : Fin 96) (w : NodeWord) (hold : Bool) (last : Option Stamp) (t : Stamp)
    (i : Nat) (l : ApcLoop) : ApcLoop × Option Int :=
  let wr := 12 ≤ i
  let j := i % 12
  let item := w.arg % 256 + i
  let fresh := match (s.head n).link.hk.lookup item with
    | some (_, at') => last.all fun e => e < at'
    | none => false
  let e := satSig (coefSig s k (w.c + i) - hkSignal s n item)
  let new := fresh && !hold
  let integ := if new && (!wr || beamWriting s n j t)
    then clampInt 0 (2 ^ 23 - 1) (roundDiv (l.i * 2 ^ 19 + coef s k (w.c + 25) * e) (2 ^ 19)) else l.i
  let u := if new then roundDiv (integ * 2 ^ 19 + coef s k (w.c + 24) * e) (2 ^ 19) else integ
  let ceil : Int := if wr then s.fld (R.HD_CEIL_WR n.val) F.HD_CEIL_WR_CEIL
    else s.fld (R.HD_CEIL_RD n.val) F.HD_CEIL_RD_CEIL
  let lim := if wr then min ceil (roundDiv (ceil * derateNow s n) 256) else ceil
  let v := max 0 (min u lim)
  let send := deltaSends true l.sent l.since v
  ({ i := integ, sent := if send then some v else l.sent, since := if send then 0 else l.since + 1 },
    if send then some v else none)

/-- The loops of the slot's APC nodes run in index order and send on codes 0x10 + j and 0x20 + j; a servo slot's have a servo
slot's place in D0 (R173). -/
def State.runApc (s : State) (k : Fin 96) (hold : Bool) (t : Stamp) : State :=
  match slotHead s k with
  | some n =>
    let last := (s.slot k).lastExec
    let servo := isServo (slotNodes s k)
    (((List.range 24).filter fun j => (nodeWord s k j).type == 0xF).flatMap fun j => (List.range 24).map fun i => (j, i)).foldl
      (fun st (j, i) =>
        let key := 24 * j + i
        let (l, v) := apcLoop s n k (nodeWord s k j) hold last t i (((st.slot k).apc.lookup key).getD ApcLoop.zero)
        let st := st.modSlot k fun x => { x with apc := storeInsert key l x.apc }
        let code := if i < 12 then 0x10 + i else 0x20 + (i - 12)
        match v with
        | some v => st.sendSetpt n servo code v
        | none => st) s
  | none => s

/-! ## The trace (R190) -/

/-- A freeze trigger: POST records more, then the ring stops. -/
def State.freezeTrace (s : State) : State :=
  let post := s.fld R.LP_TRC_CTRL F.LP_TRC_CTRL_POST
  if (s.loop.freezeLeft).isSome ∨ s.flag R.LP_TRC_STATUS F.LP_TRC_STATUS_FROZEN then s
  else if post = 0 then s.setFld R.LP_TRC_STATUS F.LP_TRC_STATUS_FROZEN 1
  else { s with loop := { s.loop with freezeLeft := some post } }

/-- In mode 2 a supervision fault or a focus loss triggers the freeze. -/
def State.faultTrace (s : State) : State :=
  if s.fld R.LP_TRC_CTRL F.LP_TRC_CTRL_MODE = 2 then s.freezeTrace else s

/-- A record on its way to the merger: 16 in a frame, the rest counted as lost. -/
def State.sendTrace (s : State) (r : TraceRec) : State :=
  let frame := s.now / 1875
  let cnt := if s.loop.traceFrame = frame then s.loop.traceCount else 0
  if s.fld R.LP_TRC_CTRL F.LP_TRC_CTRL_MODE = 0 then s
  else if cnt < 16 then
    { s with loop := { s.loop with trace := s.loop.trace ++ [r], traceFrame := frame, traceCount := cnt + 1 } }
  else (s.bump R.LP_TRC_STATUS F.LP_TRC_STATUS_LOST 1)

/-- A released record enters the ring, unless it is frozen. -/
def State.putTrace (s : State) (r : TraceRec) : State :=
  if s.flag R.LP_TRC_STATUS F.LP_TRC_STATUS_FROZEN then s
  else
    let p := s.fld R.LP_TRC_STATUS F.LP_TRC_STATUS_WPTR
    let ring := storePut (fun _ => (⟨0, 0, 0, 0, 0⟩ : TraceRec)) p r s.loop.traceRing
    let s := { s with loop := { s.loop with traceRing := ring } }
    let s := s.setFld R.LP_TRC_STATUS F.LP_TRC_STATUS_WPTR ((p + 1) % 8192)
    let s := if p + 1 = 8192 then s.setFld R.LP_TRC_STATUS F.LP_TRC_STATUS_WRAPPED 1 else s
    match s.loop.freezeLeft with
    | none => s
    | some left =>
      let s := { s with loop := { s.loop with freezeLeft := if left ≤ 1 then none else some (left - 1) } }
      if left ≤ 1 then s.setFld R.LP_TRC_STATUS F.LP_TRC_STATUS_FROZEN 1 else s

/-- The code of a slot state (Table 8-5). -/
def slotStCode : SlotSt → Nat
  | .disabled => 0 | .hold => 1 | .ramp => 2 | .run => 3

/-! ## Supervision and focus loss -/

/-- A hem and SAFE for a supervision fault with ACT 2 (R181). -/
def State.faultHead (s : State) (n : Fin 16) (t : Stamp) : State :=
  let s := (headSlots s n).foldl (fun st j => if isServo (slotNodes st j) then st.hwHoldSlot j else st) s
  (s.sendSafe n).hemRequest n t false []

/-- R181. -/
def State.supervisionFault (s : State) (k : Fin 96) (t : Stamp) (kind val : Nat) : State :=
  let act := s.fld (R.LP_SLOT_SUP k.val) F.LP_SLOT_SUP_ACT
  let s := s.modSlot k fun x => { x with resid := 0, sat := 0 }
  let s := (s.logLoop 0x4004 k.val kind act val).faultTrace
  if act = 0 then s
  else match slotHead s k with
    | some n => if act = 1 then s.hwHoldSlot k else s.faultHead n t
    | none => s.hwHoldSlot k

/-- The checks of R180 after a non-held execution in RUN: the residuals of the slot's PLANT nodes, and, whether it has one or
not, the clamps of its LIM nodes (log entry 115). -/
def State.supervise (s : State) (k : Fin 96) (t : Stamp) (prev cur : List NodeState) : State :=
  let r := R.LP_SLOT_SUP k.val
  let plants := (List.range 24).filter fun j => (nodeWord s k j).type == 0xB
  let out (j : Nat) : Int := (cur.getD j NodeState.zero).out
  let bad := plants.find? fun j => s.fld r F.LP_SLOT_SUP_THR < magHigh (out j)
  let lim := (List.range 24).find? fun j => limClamps s k prev cur j
  let x := s.slot k
  let resid := if bad.isSome then min 255 (x.resid + 1) else 0
  let sat := if lim.isSome then x.sat + 1 else 0
  let s := s.modSlot k fun x => { x with resid := resid, sat := sat }
  let cnt := s.fld r F.LP_SLOT_SUP_CNT
  let satCnt := s.fld r F.LP_SLOT_SUP_SATCNT
  let s := if cnt ≠ 0 ∧ cnt ≤ resid then s.supervisionFault k t 0 (arg (floorDiv (out (bad.getD 0)) 256)) else s
  if satCnt ≠ 0 ∧ satCnt ≤ sat then s.supervisionFault k t 1 (lim.getD 0) else s

/-- Focus is lost (R182). -/
def State.focusLost (s : State) (n : Fin 16) (k : Fin 96) (q : QuadSum) (t : Stamp) : State :=
  let s := s.hwHoldSlot k
  let s := match trackSlot s n with
    | some j => s.hwHoldSlot j
    | none => s
  let s := s.modLoopHead n fun h => { h with lostRun := 0 }
  let s := (s.logLoop 0x4005 n.val k.val (arg (roundDiv q.total q.n)) (t % 2 ^ 32)).faultTrace
  s.endSequence n 4

/-- The check of R182 after a non-held execution of the focus slot in RUN. -/
def State.checkFocus (s : State) (n : Fin 16) (k : Fin 96) (t : Stamp) : State :=
  match unitView s n k t with
  | none => s
  | some q =>
    let low := q.total < ((s.fld (R.LP_SEQ_ACQ n.val) F.LP_SEQ_ACQ_SUM_LOST * q.n : Nat) : Int)
    let run := if low then (s.loopHead n).lostRun + 1 else 0
    let s := s.modLoopHead n fun h => { h with lostRun := run }
    if s.fld (R.LP_SEQ_LOCK n.val) F.LP_SEQ_LOCK_LOST_N ≤ run then s.focusLost n k q t else s

/-! ## Head sequences -/

/-- A sequence's parameters, in signals. -/
def kickDrive (s : State) (n : Fin 16) : Int := s.fld (R.LP_SEQ_DRV n.val) F.LP_SEQ_DRV_KICK * 128
def sweepStep (s : State) (n : Fin 16) : Int := s.fld (R.LP_SEQ_DRV n.val) F.LP_SEQ_DRV_SWEEP_STEP
def sweepLim (s : State) (n : Fin 16) : Int := s.fld (R.LP_SEQ_LIM n.val) F.LP_SEQ_LIM_SWEEP_LIM * 128
def acqTicks (s : State) (n : Fin 16) : Nat := s.fld (R.LP_SEQ_TIME n.val) F.LP_SEQ_TIME_ACQ_TMO * ticksUs
def ljTicks (s : State) (n : Fin 16) : Nat := s.fld (R.LP_SEQ_TIME n.val) F.LP_SEQ_TIME_LJ_TMO * ticksUs

/-- The running sequence changed. -/
def State.modSeq (s : State) (n : Fin 16) (f : Sequence → Sequence) : State :=
  s.modLoopHead n fun h => { h with seq := h.seq.map f }

/-- The unit takes a slot over: HOLD at its next execution start and while the override lasts, with the DRV node on the unit's
drive (R184). -/
def State.overrideSlot (s : State) (k : Fin 96) : State :=
  s.modSlot k fun x => { x with override := true }

/-- The override ends and the slot is requested to RUN. -/
def State.releaseToRun (s : State) (k : Fin 96) : State :=
  s.modSlot k fun x => { x with override := false, req := some 3 }

/-- The output of the slot's first DRV node now. -/
def drvOutput (s : State) (k : Fin 96) : Int :=
  match firstNode s k 0xC with
  | some j => (s.slot k).nodes[j].out
  | none => 0

/-- The chevron offset estimate of the slot's first CHV node. -/
def chvOffset (s : State) (k : Fin 96) : Int :=
  match firstNode s k 0xA with
  | some j => (s.slot k).nodes[j].s1
  | none => 0

/-- A seam jump that failed: a disagreement under R43, with the tracking slot in RUN or on its way there (R188). No word was met:
the address and the number that event 0x1301 gives are free values (log entry 150). -/
def State.jumpFails (s : State) (n : Fin 16) (k : Fin 96) (result : Nat) : State :=
  let s := if (s.slot k).override then s.releaseToRun k else s
  let (place, s) := (s.endSequence n result).draw
  let (word, s) := s.draw
  s.disagree n none (place % 2 ^ 23) (word % 16)

/-- A sequence reaches its end condition with result 0. On another layer the flywheel has no frame yet (R45), and a seam jump moves
the expected track (R188). -/
def State.seqDone (s : State) (n : Fin 16) (q : Sequence) : State :=
  let s := match q.kind with
    | .focus l => (s.modLoopHead n fun h => { h with layer := l }).forgetFrames n
    | .layerJump d => (s.modLoopHead n fun h => { h with layer := ((h.layer : Int) + d).toNat % 16 }).forgetFrames n
    | .trackOn => s
    | .seamJump d => s.modHead n fun h => { h with
        fly := { h.fly with expected := h.fly.expected.map fun (e : Nat × Nat) => (e.1, ((e.2 : Int) + d).toNat) } }
  s.endSequence n 0

/-- A qualifying S-curve: FE changes sign between executions that both have Σ at SUM_ACQ or above; `prev` is FE of the
last execution if it did, and an FE of 0 keeps the sign before it (log entry 26). -/
def sCurve (prev : Option Int) (fe : Option Int) : Bool :=
  match prev, fe with
  | some p, some f => (p < 0 && 0 < f) || (0 < p && f < 0)
  | _, _ => false

/-- The FE kept for the next comparison. -/
def keepSign (prev fe : Option Int) : Option Int :=
  match fe with
  | some f => if f = 0 then prev else some f
  | none => none

/-- What the unit sees: FE where Σ qualifies (R185), and PP. -/
def unitFe (s : State) (n : Fin 16) (q : QuadSum) : Option Int := normalised (sumMinOf s n) q q.fe
def unitPp (s : State) (n : Fin 16) (q : QuadSum) : Option Int := normalised (sumMinOf s n) q q.pp
def acqFe (s : State) (n : Fin 16) (view : Option QuadSum) : Option Int :=
  match view with
  | some q =>
    if ((s.fld (R.LP_SEQ_ACQ n.val) F.LP_SEQ_ACQ_SUM_ACQ * q.n : Nat) : Int) ≤ q.total then unitFe s n q else none
  | none => none

/-- The counters that LP_SEQ_STATUS shows. -/
def State.showCount (s : State) (n : Fin 16) (p : FieldPos) (v : Nat) : State :=
  s.setFld (R.LP_SEQ_STATUS n.val) p (min 255 v)

/-- One execution of the focus slot under a focus acquisition (R185). -/
def State.focusStep (s : State) (n : Fin 16) (k : Fin 96) (q : Sequence) (layer : Nat) (view : Option QuadSum) : State :=
  match q.phase with
  | .toStart =>
    let d := q.drive + clampInt (-(sweepStep s n)) (sweepStep s n) (-(sweepLim s n) - q.drive)
    s.modSeq n fun q => { q with drive := d, phase := if d = -(sweepLim s n) then .sweep else .toStart }
  | .sweep =>
    let fe := acqFe s n view
    let cross := sCurve q.prev fe
    let cnt := if cross then q.count + 1 else q.count
    let s := s.showCount n F.LP_SEQ_STATUS_SCURVES cnt
    let prev := keepSign q.prev fe
    if cross ∧ cnt = layer + 1 then
      (s.releaseToRun k).modSeq n fun q => { q with count := cnt, prev := prev, phase := .settle none, lock := 0 }
    else if sweepLim s n ≤ q.drive then (s.hwHoldSlot k).endSequence n 2
    else s.modSeq n fun q => { q with
      count := cnt, prev := prev, drive := min (sweepLim s n) (q.drive + sweepStep s n) }
  | _ => s

/-- One execution of the focus slot under a layer jump of d layers (R186). -/
def State.layerStep (s : State) (n : Fin 16) (k : Fin 96) (q : Sequence) (d : Int) (view : Option QuadSum) : State :=
  let fe := acqFe s n view
  let counting := match q.phase with
    | .coast | .brake _ => true
    | _ => false
  let cross := counting && sCurve q.prev fe
  let cnt := if cross then q.count + 1 else q.count
  let s := s.showCount n F.LP_SEQ_STATUS_SCURVES cnt
  let s := s.modSeq n fun q => { q with count := cnt, prev := keepSign q.prev fe }
  let kick := kickDrive s n
  let kickT := s.fld (R.LP_SEQ_TIME n.val) F.LP_SEQ_TIME_KICK_T
  if counting ∧ cnt = d.natAbs then (s.releaseToRun k).modSeq n fun q => { q with phase := .settle none, lock := 0 }
  else
    match q.phase with
    | .kick (left + 1) => s.modSeq n fun q => { q with drive := sgn d * kick, phase := .kick left }
    | .kick 0 | .coast =>
      if cnt + 1 = d.natAbs ∧ kickT ≠ 0 then
        s.modSeq n fun q => { q with drive := -(sgn d * kick), phase := .brake (kickT - 1) }
      else s.modSeq n fun q => { q with drive := q.base, phase := .coast }
    | .brake (left + 1) => s.modSeq n fun q => { q with drive := -(sgn d * kick), phase := .brake left }
    | .brake 0 => s.modSeq n fun q => { q with drive := q.base }
    | _ => s

/-- One execution of the tracking slot under track-on (R187). -/
def State.trackStep (s : State) (n : Fin 16) (k : Fin 96) (q : Sequence) (view : Option QuadSum) : State :=
  match q.phase with
  | .awaitCross =>
    let pp := view.bind (unitPp s n)
    let vel := s.fld (R.LP_SEQ_LIM n.val) F.LP_SEQ_LIM_VEL_THR
    let slow := match q.last, pp with
      | some p, some v => sCurve q.prev pp && magHigh (v - p) ≤ vel
      | _, _ => false
    let s := s.modSeq n fun q => { q with prev := keepSign q.prev pp, last := pp }
    if slow then (s.releaseToRun k).modSeq n fun q => { q with phase := .settle none, lock := 0 } else s
  | _ => s

/-- One execution of the tracking slot under a seam jump of d tracks (R188). -/
def State.jumpStep (s : State) (n : Fin 16) (k : Fin 96) (q : Sequence) (d : Int) (view : Option QuadSum)
    (t : Stamp) : State :=
  let kick := sgn d * kickDrive s n
  match q.phase with
  | .awaitSeam seam deadline =>
    if t < seam then s
    else
      let s := (s.modSlot k fun x => { x with override := true }).slotTo k .hold
      match view with
      | none => s.jumpFails n k 6
      | some v => s.modSeq n fun q => { q with
          phase := .counting deadline, drive := kick, count := 0, prev := keepSign none (unitPp s n v) }
  | .counting deadline =>
    match view with
    | none => s.jumpFails n k 6
    | some v =>
      -- where the divisor gives no PP nothing is seen, and the sign before it stays
      let pp := (unitPp s n v).getD 0
      let cnt := if sCurve q.prev (some pp) then q.count + 1 else q.count
      let s := s.showCount n F.LP_SEQ_STATUS_CROSS cnt
      let s := s.modSeq n fun q => { q with count := cnt, prev := keepSign q.prev (some pp) }
      if cnt = 2 * d.natAbs then
        (s.releaseToRun k).modSeq n fun q => { q with phase := .settle (some deadline), lock := 0 }
      else s.modSeq n fun q => { q with drive := if d.natAbs ≤ cnt then -kick else kick }
  | _ => s

/-- The unit's part of an execution of the slot it works on, before the nodes run. -/
def State.seqStep (s : State) (n : Fin 16) (k : Fin 96) (t : Stamp) : State :=
  match (s.loopHead n).seq with
  | none => s
  | some q =>
    if seqSlot s n q.kind ≠ some k then s
    else
      let view := unitView s n k t
      match q.kind with
      | .focus l => s.focusStep n k q l view
      | .layerJump d => s.layerStep n k q d view
      | .trackOn => s.trackStep n k q view
      | .seamJump d => s.jumpStep n k q d view t

/-- After a non-held execution: the lock count of a settling sequence (R185 to R188). -/
def State.seqSettle (s : State) (n : Fin 16) (k : Fin 96) (t : Stamp) : State :=
  match (s.loopHead n).seq with
  | none => s
  | some q =>
    match q.phase with
    | .settle _ =>
      if seqSlot s n q.kind ≠ some k then s
      else
        let track := seqNumber q.kind == 3 || seqNumber q.kind == 4
        match unitView s n k t with
        | none => s
        | some v =>
          match (if track then (unitPp s n v).map fun p => p - chvOffset s k else unitFe s n v) with
          | none => s
          | some e =>
            let thr := s.fld (R.LP_SEQ_LOCK n.val) F.LP_SEQ_LOCK_LOCK_THR
            let want := if seqNumber q.kind = 4 then s.fld (R.LP_SEQ_TIME n.val) F.LP_SEQ_TIME_SETTLE_N
              else s.fld (R.LP_SEQ_LOCK n.val) F.LP_SEQ_LOCK_LOCK_N
            let lock := if magHigh e < thr then q.lock + 1 else 0
            if want ≤ lock then s.seqDone n q else s.modSeq n fun q => { q with lock := lock }
    | _ => s

/-- Why a sequence does not start (R184 to R188, R237, R189): a result of Table 8-8. -/
def seqRefusal (s : State) (n : Fin 16) (kind : SeqKind) : Option Nat :=
  let run (k : Option (Fin 96)) : Bool := match k with
    | some k => (s.slot k).st == .run
    | none => false
  let exists' (k : Option (Fin 96)) : Bool := match k with
    | some k => (s.slot k).st != .disabled
    | none => false
  if (s.loopHead n).seq.isSome ∨ ¬(s.head n).link.usable then some 8
  else match kind with
    | .focus _ => if !exists' (focusSlot s n) then some 8 else if !s.hdLen n then some 1 else none
    | .layerJump _ => if !run (focusSlot s n) then some 8 else if !s.hdLen n then some 1 else none
    | .trackOn =>
      if !run (focusSlot s n) || !exists' (trackSlot s n) then some 8 else if !s.hdLen n then some 1 else none
    | .seamJump _ =>
      if !run (trackSlot s n) || !flyReady s n || (nextSeam s n s.now).isNone then some 8
      else if !s.hdLen n then some 1 else none

/-- A sequence starts (R184 to R188). -/
def State.seqBegin (s : State) (n : Fin 16) (kind : SeqKind) (who : Option Waiter) : State :=
  let q : Sequence :=
    { kind := kind, who := who, t0 := s.now, phase := .toStart, drive := 0, base := 0, count := 0, lock := 0, prev := none, last := none }
  let put (s : State) (q : Sequence) : State :=
    let s := s.modLoopHead n fun h => { h with seq := some q }
    let s := s.setFld (R.LP_SEQ_STATUS n.val) F.LP_SEQ_STATUS_RUNNING (seqNumber kind)
    (s.showCount n F.LP_SEQ_STATUS_CROSS 0).showCount n F.LP_SEQ_STATUS_SCURVES 0
  let holdTrack (s : State) : State := match trackSlot s n with
    | some k => s.hwHoldSlot k
    | none => s
  match kind with
  | .focus _ => match focusSlot s n with
    | some k => put ((holdTrack s).overrideSlot k) { q with drive := drvOutput s k }
    | none => s
  | .layerJump _ => match focusSlot s n with
    | some k =>
      let d := drvOutput s k
      let kickT := s.fld (R.LP_SEQ_TIME n.val) F.LP_SEQ_TIME_KICK_T
      put ((holdTrack s).overrideSlot k) { q with drive := d, base := d, phase := .kick kickT }
    | none => s
  | .trackOn => put (holdTrack s) { q with phase := .awaitCross }
  | .seamJump _ => match nextSeam s n s.now with
    | some (rev, seam) =>
      let deadline := (predictAt s n (unitsPerRev * rev + seamUnits) 1).getD seam
      put s { q with phase := .awaitSeam seam deadline }
    | none => s

/-! ## One execution -/

/-- The start of the execution of slot k in frame j: the first control-island edge at or after 1,875j + 2·START
(R164). -/
def execStart (s : State) (k : Fin 96) (j : Nat) : Stamp :=
  let t := 1875 * j + 2 * slotStart s k
  t + t % 2

/-- Slot k is due in frame j. -/
def slotDue (s : State) (k : Fin 96) (j : Nat) : Bool :=
  let d := max 1 (slotCfg s k F.LP_SLOT_CFG_DIV)
  j % d == slotCfg s k F.LP_SLOT_CFG_OFS % d

/-- The sends of the OUT nodes (R172). -/
def State.sendOutputs (s : State) (k : Fin 96) (prev cur : List NodeState) : State :=
  let servo := isServo (slotNodes s k)
  (List.range 24).foldl (fun st j =>
    let w := nodeWord s k j
    let n := cur.getD j NodeState.zero
    if w.type ≠ 0xD ∨ !(deltaSends (testBitN w.arg 8) (prev.getD j NodeState.zero).sent
        (prev.getD j NodeState.zero).since n.out) then st
    else
      let st := if firstNode s k 0xD == some (Fin.ofNat 24 j) then st.modSlot k fun x => { x with lastOut := n.out }
        else st
      match w.arg % 256, slotHead s k with
      | 0x41, _ => st.spinDemand n.out
      | 0x40, some h => st.modSled h fun x => { x with demand := n.out }
      | d, some h => st.sendSetpt h servo d n.out
      | _, none => st) s

/-- A change of winner at the first MIN node (R178). -/
def State.reportMin (s : State) (k : Fin 96) (cur : List NodeState) (t : Stamp) : State :=
  match firstNode s k 8 with
  | none => s
  | some j =>
    let win := (cur.getD j.val NodeState.zero).win
    let was := (s.slot k).minWin
    let s := s.modSlot k fun x => { x with minWin := win }
    let clear := (s.slot k).minLogged.all fun m => m + 1500000 ≤ t
    if was ≠ 0 ∧ was ≠ win ∧ clear then
      (s.modSlot k fun x => { x with minLogged := some t }).logLoop 0x4008 k.val j.val (win - 1) (t % 2 ^ 32)
    else s

/-- The trace record of an execution (R190). -/
def State.traceExec (s : State) (k : Fin 96) (newest : Option Stamp) (t : Stamp) (cur : List NodeState) : State :=
  let r := R.LP_SLOT_TRC k.val
  if !s.flag r F.LP_SLOT_TRC_EN then s
  else
    let x := s.slot k
    let node := s.fld r F.LP_SLOT_TRC_NODE
    let stamp := if isServo (slotNodes s k) then newest.getD t else t
    s.sendTrace ⟨stamp, k.val, node, bitOf x.held + 2 * bitOf x.override + 4 * slotStCode x.st,
      (cur.getD node NodeState.zero).out⟩

/-- The execution of slot k that starts at t, once pending changes have taken effect. -/
def State.execSlot (s : State) (k : Fin 96) (t : Stamp) : State :=
  let head := slotHead s k
  let s := match head with
    | some n => s.seqStep n k t
    | none => s
  let x := s.slot k
  let (ins, newest) := slotInputs s k t
  let isHeld := x.st == .hold || ins.isNone || head.any fun n => dropHeld s n k t
  let drive := if x.override then head.bind fun n => (s.loopHead n).seq.map (·.drive) else none
  let prev := x.nodes.toList
  let cur := runNodes s k ⟨x.st, isHeld, ins.getD [], drive⟩ prev
  let atT := match firstNode s k 9 with
    | some j =>
      let y := (cur.getD j.val NodeState.zero)
      x.st == .ramp && !isHeld && y.out == coefSig s k (nodeWord s k j.val).c
    | none => false
  let s := s.runApc k (x.st == .hold) t
  let nodes : Vector NodeState 24 := Vector.ofFn fun (j : Fin 24) => cur.getD j.val NodeState.zero
  let s := s.modSlot k fun x => { x with nodes := nodes, held := isHeld, rampDone := atT, lastExec := some t }
  let s := s.sendOutputs k prev cur
  let s := s.reportMin k cur t
  let s := s.traceExec k newest t cur
  if isHeld then s
  else
    let s := if x.st = .run then s.supervise k t prev cur else s
    match head with
    | none => s
    | some n =>
      let s := s.seqSettle n k t
      if focusSlot s n = some k ∧ x.st = .run then s.checkFocus n k t else s

end Sys2Proof.Machine
end

