-- ==== Sys2Proof/Machine/ObkinOps.lean ====
section
/-!
DEFINITION. Machine/ObkinOps.lean: how a bobbin issues an instruction: the word at its PC split by Tables 10-3 and 10-4,
its guard, exceptions (R242), capabilities (R232), the address space (R225), tags of asynchronous instructions (R229),
starts and halts (R240, R241), and machine checks (R252).
-/

namespace Sys2Proof.Machine

/-! ## Words and fields -/

/-- An instruction word split into its fields (Table 10-3): the opcode with 0x80 taken off a long form, the extension
word of a long form, the PC of the first word and of the next instruction, and the word itself. -/
structure Ins where
  op   : Nat
  pg   : Nat
  pn   : Bool
  rd   : Nat
  ra   : Nat
  rb   : Nat
  fn   : Nat
  imm  : Nat
  off  : Int
  ext  : Option Nat
  pc   : Nat
  next : Nat
  word : Nat
  deriving DecidableEq, Repr

/-- A word of program memory. -/
def progWord (s : State) (a : Nat) : Nat := (storeGet (fun _ => (0 : Word)) a s.seq.prog).toNat

/-- Opcodes with a long form (R228). -/
def hasLong (k : Nat) : Bool := k ≤ 0x2B || k == 0x30 || k == 0x31

/-- Opcodes that chapter 10 lists (Tables 10-4, 10-5, 10-7, 10-10, 10-15). -/
def listedOp (k : Nat) : Bool :=
  k ≤ 0x19 || (0x20 ≤ k && k ≤ 0x26) || (0x28 ≤ k && k ≤ 0x2D) || (0x30 ≤ k && k ≤ 0x35) ||
  (0x40 ≤ k && k ≤ 0x44) || (0x50 ≤ k && k ≤ 0x5B) || (0x60 ≤ k && k ≤ 0x62) || k == 0x64 || k == 0x65 ||
  (0x68 ≤ k && k ≤ 0x6A) || k == 0x6C || k == 0x6D || k == 0x70 || (0x74 ≤ k && k ≤ 0x76) || k == 0x78 ||
  (0xF0 ≤ k && k ≤ 0xF3)

/-- The instruction at a PC, and whether its opcode is legal (R227, R228). The PC counts modulo 2^16. -/
def fetchIns (s : State) (pc : Nat) : Ins × Bool :=
  let w := progWord s pc
  let op := natBits w 31 24
  let long := 0x80 ≤ op && op ≤ 0xBF && hasLong (op - 0x80)
  let k := if long then op - 0x80 else op
  ({ op := k, pg := natBits w 23 21, pn := testBitN w 20, rd := natBits w 19 15, ra := natBits w 14 10
     rb := natBits w 9 5, fn := natBits w 4 0, imm := natBits w 9 0, off := toSigned w 20
     ext := if long then some (progWord s ((pc + 1) % 65536)) else none
     pc := pc, next := (pc + if long then 2 else 1) % 65536, word := w },
   listedOp k && (long || op < 0x80 || 0xC0 ≤ op))

/-- The greatest FN an instruction gives a meaning: more is a reserved field (R227, log entry 27). -/
def fnMost (op : Nat) : Nat :=
  match op with
  | 0x10 => 5 | 0x14 => 3 | 0x15 => 7 | 0x18 => 2 | 0x2C => 4 | 0x32 => 1 | 0x42 => 7 | 0x44 => 7
  | 0x57 => 31 | 0x60 => 15 | 0x64 => 31 | 0x6C => 31 | 0x70 => 31 | _ => 0

/-- Formats I and B hold no FN. -/
def formatR (op : Nat) : Bool :=
  !((0x0C ≤ op && op ≤ 0x0F) || (0x11 ≤ op && op ≤ 0x13) || op == 0x16 || op == 0x17 || (0x20 ≤ op && op ≤ 0x2B) ||
    op == 0x30 || op == 0x31 || op == 0x33)

/-- Instructions whose rd names a predicate. -/
def rdIsPred (op : Nat) : Bool :=
  (0x10 ≤ op && op ≤ 0x14) || op == 0x35 || op == 0x74 || op == 0xF0 || op == 0xF3

/-- A legal word of a listed opcode (R227, Table 10-4). -/
def Ins.legal (i : Ins) : Bool :=
  (!formatR i.op || i.fn ≤ fnMost i.op) && (!rdIsPred i.op || i.rd < 8) &&
    (i.op != 0x0F || (natBits (i.ext.getD i.imm) 7 6 != 3 && natBits (i.ext.getD i.imm) 9 8 == 0))

/-! ## Registers -/

/-- A general register: g0 reads 0 (R224). -/
def Bobbin.get (x : Bobbin) (i : Nat) : DWord := if h : 0 < i ∧ i < 32 then x.g[i] else 0

/-- A general register written; a write to g0 is discarded. -/
def Bobbin.put (x : Bobbin) (i : Nat) (v : DWord) : Bobbin := if h : 0 < i ∧ i < 32 then { x with g := x.g.set i v } else x

/-- A predicate: p0 reads 1; a write to p0 is discarded. -/
def Bobbin.pred (x : Bobbin) (i : Nat) : Bool := if h : 0 < i ∧ i < 8 then x.p[i] else true
def Bobbin.putPred (x : Bobbin) (i : Nat) (v : Bool) : Bobbin := if h : 0 < i ∧ i < 8 then { x with p := x.p.set i v } else x

/-- The same of a bobbin of the state, as numbers. -/
def State.g (s : State) (b : Fin 24) (i : Nat) : Nat := ((s.bob b).get i).toNat
def State.setG (s : State) (b : Fin 24) (i v : Nat) : State := s.modBob b fun x => x.put i (BitVec.ofNat 64 v)
def State.setP (s : State) (b : Fin 24) (i : Nat) (v : Bool) : State := s.modBob b fun x => x.putPred i v

/-- Operand b of format R: rb, or imm32 in its place, sign-extended but for AND, OR and XOR (R228). -/
def opB (s : State) (b : Fin 24) (i : Ins) : Nat :=
  match i.ext with
  | some e => if 2 ≤ i.op ∧ i.op ≤ 4 then e else ofSigned (toSigned e 32) 64
  | none => s.g b i.rb

/-- The immediate of format I, sign-extended and zero-extended. -/
def immS (i : Ins) : Int := match i.ext with
  | some e => toSigned e 32
  | none => toSigned i.imm 10
def immZ (i : Ins) : Nat := i.ext.getD i.imm

/-! ## Issue and exceptions -/

/-- An event of the sequencer. -/
def State.logSeq (s : State) (code : Nat) (a0 a1 a2 a3 : Nat := 0) : State := s.log srcSeq .control code a0 a1 a2 a3

/-- An exception (R242): the bobbin stops with PC at the instruction; code, PC and stamp are recorded, event 0x6001 is
logged. -/
def State.takeException (s : State) (b : Fin 24) (code pc last : Nat) : State :=
  let s := s.modBob b fun x => { x with st := .exception, pc := pc, stall := none, wait := none, haltReq := none }
  let s := (s.setFld (R.SQ_BOB_EXC b.val) F.SQ_BOB_EXC_CODE code).setFld (R.SQ_BOB_EXC b.val) F.SQ_BOB_EXC_PC pc
  let s := s.setPair (R.SQ_BOB_EXC_LO b.val) (s.stamp .control)
  s.logSeq 0x6001 b.val code pc last

/-- The bobbin is READY and may issue in this cycle, its last issue lying two cycles back (R222, R223): a stall that has ended
leaves it READY. -/
def State.isReady (s : State) (b : Fin 24) : Bool :=
  let x := s.bob b
  x.nextIssue ≤ s.now &&
    match x.st, x.stall with
    | .ready, _ => true
    | .stalled, some (.busy t) => t ≤ s.now
    | _, _ => false

/-- Instructions issued in the present control-island cycle of 2 ticks (R223). -/
def State.issuesNow (s : State) : Nat := if s.seq.issueCycle = s.now / 2 then s.seq.issueCount else 0

/-- The issue stage picks this bobbin (R223): it has issued fewer than two instructions in this cycle, and no READY bobbin comes
before this one in round-robin order after the bobbin issued last. -/
def State.picks (s : State) (b : Fin 24) : Bool :=
  let turn (k : Fin 24) : Nat := (k.val + 47 - s.seq.lastIssue) % 24
  decide (s.issuesNow < 2) && (List.finRange 24).all fun k => !s.isReady k || decide (turn b ≤ turn k)

/-- The bobbin issues now: READY, or stalled for room that it tries again, and picked. -/
def State.canIssue (s : State) (b : Fin 24) : Bool :=
  let x := s.bob b
  (s.isReady b || (x.st == .stalled && x.nextIssue ≤ s.now && x.stall == some .retry)) && s.picks b

/-- What an instruction's effect answers: an exception code, or the next state. -/
abbrev Effect := Except Nat State

/-- The state as an instruction finds it once it has issued: counted, and the PC past it. -/
def State.issued (s : State) (b : Fin 24) (next : Nat) : State :=
  let again := (s.bob b).stall == some .retry
  let s := if again then s else s.bump (R.SQ_BOB_ISSUED b.val) F.SQ_BOB_ISSUED_COUNT 1
  let s := { s with seq := { s.seq with lastIssue := b.val, issueCycle := s.now / 2, issueCount := s.issuesNow + 1 } }
  s.modBob b fun x => { x with st := .ready, stall := none, pc := next, nextIssue := s.now + 4 }

/-- A bobbin issues the instruction at its PC (R223, R227, R242). `sel` says which words the command stands for; a word
with no listed opcode takes the illegal-instruction exception whichever command issues it (log entry 28). -/
def State.issue (s : State) (b : Fin 24) (u : Upset) (sel : Ins → Bool) (f : Ins → State → Effect) : Result :=
  if !s.canIssue b then .next s
  else
    let (i, listed) := fetchIns s (s.bob b).pc
    let t := s.issued b i.next
    if u = .fetch then .next (t.takeException b 8 i.pc i.word)
    else if listed && !sel i then .next s
    else if (s.bob b).pred i.pg == i.pn then .next t
    else if !listed || !i.legal then .next (t.takeException b 1 i.pc i.word)
    else match f i t with
      | .ok t' => .next t'
      | .error c => .next (t.takeException b c i.pc (if c = 9 then i.imm else i.word))

/-- The words of one opcode. -/
def isOp (k : Nat) (i : Ins) : Bool := i.op == k

/-! ## The address space (R225) -/

/-- Where an address leads (Table 10-2). -/
inductive Space where
  | scratch (off : Nat)
  | shared (off : Nat)
  | prog (off : Nat)
  | window (off : Nat)
  deriving DecidableEq, Repr

/-- Offsets of the window that writes cannot reach (R233). -/
def secBlock (off : Nat) : Bool := 0x240000 ≤ off && off ≤ 0x27FFFF

/-- The place of an access of n bytes, or the exception: misaligned before outside (log entry 29). -/
def spaceOf (addr n : Nat) (write : Bool) : Except Nat Space :=
  if addr % n ≠ 0 then .error 4
  else if addr < 0x2000 then .ok (.scratch addr)
  else if 0x100000 ≤ addr ∧ addr < 0x200000 then .ok (.shared (addr - 0x100000))
  else if 0x200000 ≤ addr ∧ addr < 0x240000 then (if write then .error 5 else .ok (.prog (addr - 0x200000)))
  else if 0x40010000 ≤ addr ∧ addr ≤ 0x405FFFFC then
    let off := addr - 0x40000000
    if n ≠ 4 ∨ (write ∧ secBlock off) then .error 5 else .ok (.window off)
  else .error 5

/-- A byte of scratch that nothing has written reads 0 (log entry 30). -/
def zeroByte : Nat → Byte := fun _ => 0

/-- Bytes of a scratch. -/
def scratchBytes (l : List (Nat × Byte)) (off n : Nat) : List Nat :=
  (List.range n).map fun i => (storeGet zeroByte (off + i) l).toNat
def putScratch (l : List (Nat × Byte)) (off : Nat) (bytes : List Nat) : List (Nat × Byte) :=
  putBytes zeroByte off bytes l

/-- The bytes of program memory. -/
def progBytes (s : State) (off n : Nat) : List Nat :=
  (List.range n).map fun i => progWord s ((off + i) / 4) / 2 ^ (8 * ((off + i) % 4)) % 256

/-- The bytes at a place of the scratches or program memory. -/
def State.spaceRead (s : State) (b : Fin 24) (p : Space) (n : Nat) : List Nat :=
  match p with
  | .scratch o => scratchBytes (s.bob b).scratch o n
  | .shared o => scratchBytes s.seq.shared o n
  | .prog o => progBytes s o n
  | .window _ => List.replicate n 0

/-- Bytes stored at a place of the scratches. -/
def State.spaceWrite (s : State) (b : Fin 24) (p : Space) (bytes : List Nat) : State :=
  match p with
  | .scratch o => s.modBob b fun x => { x with scratch := putScratch x.scratch o bytes }
  | .shared o => { s with seq := { s.seq with shared := putScratch s.seq.shared o bytes } }
  | .prog _ | .window _ => s

/-- n bytes of shared scratch at an operand address, which must lie in it (R234: out of range otherwise). -/
def State.sharedAt (s : State) (addr n : Nat) : Except Nat (List Nat) :=
  if 0x100000 ≤ addr ∧ addr + n ≤ 0x200000 then .ok (scratchBytes s.seq.shared (addr - 0x100000) n) else .error 6

/-- The place of n bytes of either scratch at an operand address. -/
def scratchAt (addr n : Nat) : Except Nat Space :=
  if addr + n ≤ 0x2000 then .ok (.scratch addr)
  else if 0x100000 ≤ addr ∧ addr + n ≤ 0x200000 then .ok (.shared (addr - 0x100000))
  else .error 6

/-! ## Capabilities (R232) -/

/-- A bit of a bobbin's capability mask. -/
def State.capBit (s : State) (b : Fin 24) (k : Nat) : Bool := testBitN (s.reg (R.SQ_BOB_CAP b.val)).toNat k

/-- The family bits (Table 10-24) and the mode bits. -/
def famHD : Nat := 0
def famSL : Nat := 1
def famSP : Nat := 2
def famLP : Nat := 3
def famDC : Nat := 4
def famMM : Nat := 5
def famWO : Nat := 6
def famEV : Nat := 7
def capREGR : Nat := 13
def capREGW : Nat := 14
def capPRIV : Nat := 15

/-- A device instruction's checks in order: the family, the operand's range, the head's capability, the head's service
(R232, R234, log entry 31). -/
def State.headChecks (s : State) (b : Fin 24) (fam v : Nat) (f : Fin 16 → Effect) : Effect :=
  if !s.capBit b fam then .error 2
  else if h : v < 16 then
    if !s.capBit b (16 + v) then .error 2
    else if !s.headInService v then .error 3
    else f ⟨v, h⟩
  else .error 6

/-- The same for a loop slot: a spindle slot needs the SP bit and no head (Table 10-10). -/
def State.slotChecks (s : State) (b : Fin 24) (v : Nat) (f : Fin 96 → Effect) : Effect :=
  if !s.capBit b famLP then .error 2
  else if h : v % 128 < 96 then
    let k : Fin 96 := ⟨v % 128, h⟩
    match slotHead s k with
    | none => if s.capBit b famSP then f k else .error 2
    | some n =>
      if !s.capBit b (16 + n.val) then .error 2
      else if !s.headInService n.val then .error 3
      else f k
  else .error 6

/-- A family alone. -/
def State.famChecks (s : State) (b : Fin 24) (fam : Nat) (f : Effect) : Effect := if s.capBit b fam then f else .error 2

/-! ## Asynchronous instructions (R229, R234) -/

/-- Entries that the queue holds, that are on their way to a free place, and that are reserved: a completion on its way goes to
its reserved place. -/
def Bobbin.occupied (x : Bobbin) : Nat :=
  x.queue.length + (x.arriving.filter fun (e : EvEntry) => e.kind == .doorbell || e.kind == .workOrder).length + x.outst.length

/-- The next tag that no outstanding instruction holds, and its count. -/
def Bobbin.nextTag (x : Bobbin) (b : Nat) : Nat :=
  ((List.range 33).map fun i => b * 1024 + (x.tagCount + 1 + i) % 1024).find? (fun t => !x.outst.contains t) |>.getD 0

/-- An asynchronous instruction: with no free entry (or `room` false) the bobbin stalls at it; otherwise its tag is in
rd, an entry is reserved, and its work begins. -/
def State.async (s : State) (b : Fin 24) (i : Ins) (room : Bool) (f : Waiter → State → State) : Effect :=
  let x := s.bob b
  if 32 ≤ x.occupied ∨ !room then
    .ok (s.modBob b fun x => { x with st := .stalled, stall := some .retry, pc := i.pc })
  else
    let tag := x.nextTag b.val
    let s := s.modBob b fun x => { x with outst := tag :: x.outst, tagCount := tag % 1024 }
    .ok (f ⟨b, tag, x.epoch⟩ (s.setG b i.rd tag))

/-! ## Starts and halts (R240, R241) -/

/-- A machine check is in force (R252). -/
def State.mcActive (s : State) : Bool := s.flag R.CS_MC_STATUS F.CS_MC_STATUS_ACTIVE

/-- The head bobbin of a head that is not in service stays HALTED (R14, R241). -/
def State.mayRun (s : State) (b : Fin 24) : Bool := 16 ≤ b.val || s.headInService b.val

/-- START carried out: PC at the entry, registers and predicates cleared, the queue discarded, the epoch advanced
(R241). -/
def State.startBobbin (s : State) (b : Fin 24) (entry cause : Nat) : State :=
  let s := s.modBob b fun x => { x with
    st := .ready, g := Vector.replicate 32 0, p := Vector.replicate 8 false, pc := entry % 65536, queue := []
    arriving := x.arriving.filter fun (e : EvEntry) => e.kind == .device || e.kind == .decode
    outst := [], epoch := x.epoch + 1, wait := none, stall := none, haltReq := none, wantsOrder := false
    nextIssue := s.now + 2 }
  let s := s.setFld (R.SQ_BOB_EXC b.val) F.SQ_BOB_EXC_CODE 0
  let s := s.setReg (R.SQ_BOB_ISSUED b.val) 0
  s.logSeq 0x6003 b.val entry cause

/-- The entry point that SQ_BOB_ENTRY holds. -/
def State.entryOf (s : State) (b : Fin 24) : Nat := s.fld (R.SQ_BOB_ENTRY b.val) F.SQ_BOB_ENTRY_ENTRY

/-- A START is asked for by `who`: done, or not (R241, R252). -/
def State.tryStart (s : State) (b : Fin 24) (entry who : Nat) : Bool × State :=
  if s.mcActive then (false, s.logSeq 0x6005 b.val who 0)
  else if ((s.bob b).st = .halted ∨ (s.bob b).st = .exception) ∧ s.mayRun b then (true, s.startBobbin b entry 0)
  else (false, s)

/-- A restart by a controller reset or an activation (R241): the bobbin runs again from its entry whatever it did. -/
def State.restart (s : State) (b : Fin 24) (cause : Nat) : State :=
  if s.mayRun b then s.startBobbin b (s.entryOf b) cause else s

/-- HD.OPEN of a bobbin that stops is aborted before its seeding ends: it is withdrawn with result 2 (Table 10-13). -/
def State.abortOpens (s : State) (b : Fin 24) : State :=
  (List.finRange 16).foldl (fun s n =>
    match (s.head n).opening with
    | some o =>
      if o.who.bobbin = b ∧ o.who.epoch = (s.bob b).epoch ∧ o.stage ≠ .awaitSeam then
        ((s.modHead n fun h => { h with opening := none }).dropOpenClaim n).completeHead n o.who 2 0
      else s
    | none => s) s

/-- HD.SEEK of a bobbin that a program halts is aborted: it stops its sled, its sequence and itself (Table 10-13). -/
def State.abortSeeks (s : State) (b : Fin 24) : State :=
  (List.finRange 16).foldl (fun s n =>
    match (s.head n).seek with
    | some k =>
      if k.who.bobbin = b ∧ k.who.epoch = (s.bob b).epoch then
        let s := match (s.loopHead n).seq with
          | some q => if q.who.isNone then s.endSequence n 7 else s
          | none => s
        let s := s.sledCommand n .softstop none
        (s.modHead n fun h => { h with seek := none }).completeHead n k.who 7 (trackReached s n)
      else s
    | none => s) s

/-- A bobbin stands in HALTED: a wait ends without result and keeps its PC. -/
def State.toHalted (s : State) (b : Fin 24) : State :=
  s.modBob b fun x => { x with st := .halted, wait := none, stall := none, haltReq := none }

/-- A bobbin enters HALTED at a safe point (R240), and what it waits for has the outcome of Table 10-13. A machine check and an
activation stop no sled, so there an HD.SEEK goes on (R191, R253; log entry 151). -/
def State.haltNow (s : State) (b : Fin 24) (by' : HaltBy) : State :=
  let s := s.abortOpens b
  match by' with
  | .request who =>
    let s := (s.abortSeeks b).toHalted b
    s.logSeq 0x6002 b.val who (s.bob b).pc
  | .hardware => s.toHalted b

/-- A capability write (R233): applied to a bobbin that is halted or excepted, else ignored with event 0x6004. -/
def State.capWrite (s : State) (b : Fin 24) (mask who : Nat) : Bool × State :=
  if (s.bob b).st = .halted ∨ (s.bob b).st = .exception then
    (true, s.writePlain (R.SQ_BOB_CAP b.val) (BitVec.ofNat 32 mask))
  else (false, s.logSeq 0x6004 b.val mask who)

/-! ## Machine checks (R251, R252) -/

/-- CSTS.CFS of every function, in the model's own place for the NVMe controller registers. -/
def cstsCfs : FieldPos := ⟨1, 1⟩
def cstsKey (fn : Nat) : Nat := 0x1C + fn * 0x1000000

/-- The code of a cause (Table 11-4). -/
def mcCode : McCause → Nat
  | .parity => 1 | .safePoint => 2 | .stampFault => 3

/-- A machine check (R252): the bobbin served enters HALTED, and work that it handed on goes on; the others are asked to; the registers record the first
cause; CFS sets and vector 257 is sent in every function. A cause while one is in force is a further cause. -/
def State.machineCheck (s : State) (c : McCause) (b : Option (Fin 24)) (uaddr mask : Nat) : State :=
  let s : State := match b with
    | some x => if (s.bob x).st = .halted then s else s.toHalted x
    | none => s
  let s := s.bump R.CS_MC_STATUS F.CS_MC_STATUS_COUNT 1
  let bn := match b with
    | some b => b.val
    | none => 0x1F
  if s.mcActive then s.logSeq 0xF004 (mcCode c) bn uaddr
  else
    let m := s.stamp .control
    let s := s.requestHaltAll
    let s := (s.setFld R.CS_MC_STATUS F.CS_MC_STATUS_ACTIVE 1).setFld R.CS_MC_STATUS F.CS_MC_STATUS_CAUSE (mcCode c)
    let s := (s.setFld R.CS_MC_ADDR F.CS_MC_ADDR_BOBBIN bn).setFld R.CS_MC_ADDR F.CS_MC_ADDR_UADDR uaddr
    let s := s.setPair R.CS_MC_STAMP_LO m
    let s := s.functions.foldl (fun (t : State) (fn : Fin 2) => t.setFld (cstsKey fn.val) cstsCfs 1) s
    let s := s.sendAll 257
    match c with
    | .parity => s.logSeq 0xF001 bn uaddr mask
    | .safePoint => s.logSeq 0xF002 bn uaddr
    | .stampFault => s.logSeq 0xF003 (s.reg R.TB_STAMP_FAULT).toNat

end Sys2Proof.Machine
end

