-- ==== Sys2Proof/Machine/HostOps.lean ====
section
/-!
DEFINITION. Machine/HostOps.lean: the host island's shared operations: the NVMe controller registers, command slots, decided
completions and error entries (R282), asynchronous events (R283), range locks and the sump (R270 to R272), aborts (R274 to
R276), and what holds back a Flush (R273).
-/

namespace Sys2Proof.Machine

/-! ## State access -/

/-- The host island changed. -/
def State.modHost (s : State) (f : HostState → HostState) : State := { s with host := f s.host }

/-- The placement-map assist changed. -/
def State.modPlace (s : State) (f : PlaceState → PlaceState) : State := s.modHost fun h => { h with place := f h.place }

/-- A function by its number. -/
def fnFin (k : Nat) : Fin 2 := ⟨k % 2, Nat.mod_lt _ (by decide)⟩

/-- What a function keeps. -/
def State.fnOf (s : State) (fn : Nat) : FnState := s.host.fns[fnFin fn]

/-- What a function keeps, changed. -/
def State.modFn (s : State) (fn : Nat) (f : FnState → FnState) : State :=
  s.modHost fun h => { h with fns := h.fns.set (fnFin fn) (f h.fns[fnFin fn]) }

/-- An event of the host island for a function. -/
def State.logHost (s : State) (fn code : Nat) (a0 a1 a2 a3 : Nat := 0) : State := s.log (srcHost fn) .host code a0 a1 a2 a3

/-- An event of the placement-map assist, which serves both functions, comes from function 0's source (log entry 35). -/
def State.logPlace (s : State) (code : Nat) (a0 a1 a2 a3 : Nat := 0) : State := s.logHost 0 code a0 a1 a2 a3

/-! ## Controller registers (R259) -/

/-- The key of a function's own register. -/
def fnKey (fn off : Nat) : Nat := off + fn * 0x1000000

/-- Offsets of the controller registers and their fields (log entry 34). -/
def nvmeCC : Nat := 0x14
def nvmeCSTS : Nat := 0x1C
def nvmeAQA : Nat := 0x24
def nvmeASQ : Nat := 0x28
def nvmeACQ : Nat := 0x30
def ccEn : FieldPos := ⟨0, 0⟩
def ccMps : FieldPos := ⟨10, 7⟩
def ccShn : FieldPos := ⟨15, 14⟩
def ccSqes : FieldPos := ⟨19, 16⟩
def ccCqes : FieldPos := ⟨23, 20⟩
def cstsRdy : FieldPos := ⟨0, 0⟩
def cstsShst : FieldPos := ⟨3, 2⟩
def cstsPp : FieldPos := ⟨5, 5⟩

/-- A field of a function's controller register, read and set. -/
def State.ctl (s : State) (fn off : Nat) (p : FieldPos) : Nat := s.fld (fnKey fn off) p
def State.setCtl (s : State) (fn off : Nat) (p : FieldPos) (v : Nat) : State := s.setFld (fnKey fn off) p v

/-- CC.EN and CSTS.RDY of a function. -/
def State.enabled (s : State) (fn : Nat) : Bool := s.ctl fn nvmeCC ccEn == 1
def State.rdy (s : State) (fn : Nat) : Bool := s.ctl fn nvmeCSTS cstsRdy == 1

/-- CC.EN is 1 in either function. -/
def State.anyEnabled (s : State) : Bool := s.enabled 0 || s.enabled 1

/-- The page size that CC.MPS selects. -/
def State.pageSize (s : State) (fn : Nat) : Nat := 2 ^ (12 + s.ctl fn nvmeCC ccMps)

/-- The greatest I/O queue identifier of a controller (R257). -/
def State.maxQid (s : State) : Nat := if s.boot.bifurcated then 128 else 256

/-! ## Features (R263) -/

/-- The value of a feature before the host sets it (log entry 36): write cache on, no upper temperature threshold. -/
def featureDefault (key : Nat) : Nat := if key = 0x060000 then 1 else if key = 0x040000 then 0xFFFF else 0

/-- A feature by its identifier and selector. -/
def State.feature (s : State) (fn fid sel : Nat) : Nat :=
  (((s.fnOf fn).features.lookup (fid * 65536 + sel)).getD (featureDefault (fid * 65536 + sel)))
def State.setFeature (s : State) (fn fid sel v : Nat) : State :=
  let k := fid * 65536 + sel
  s.modFn fn fun f => { f with features := (k, v) :: f.features.filter fun (e : Nat × Nat) => e.1 != k }

/-- The volatile write cache is enabled (feature 0x06). -/
def State.writeCache (s : State) (fn : Nat) : Bool := testBitN (s.feature fn 6 0) 0

/-! ## Commands and slots -/

/-- The command in a slot whose completion has not been posted. -/
def State.cmdAt (s : State) (slot : Nat) : Option HostCmd := s.host.cmds.find? fun c => c.slot == slot

/-- A command by its fetch stamp. -/
def State.cmdOf (s : State) (t : Stamp) : Option HostCmd := s.host.cmds.find? fun c => c.stamp == t

/-- A command changed. -/
def State.modCmd (s : State) (t : Stamp) (f : HostCmd → HostCmd) : State :=
  s.modHost fun h => { h with cmds := h.cmds.map fun (c : HostCmd) => if c.stamp = t then f c else c }

/-- Slots in use: by commands, and by abort notices that no bobbin has taken (R266). -/
def State.usedSlots (s : State) : List Nat :=
  let own := s.host.cmds.map (·.slot)
  own ++ (s.host.notices.map (·.slot)).filter fun x => !own.contains x

/-- The first free slot of a range. -/
def freeIn (used : List Nat) (lo n : Nat) : Option Nat := (List.range n).map (· + lo) |>.find? fun k => !used.contains k

/-- The slot a fetch takes: an admin command the reserved slots first (log entry 37). -/
def State.freeSlot (s : State) (admin : Bool) : Option Nat :=
  let used := s.usedSlots
  if admin then
    match freeIn used 8160 32 with
    | some k => some k
    | none => freeIn used 0 8160
  else freeIn used 0 8160

/-- The region of Table 12-8 and the data area of a slot (R268). -/
def State.dataBase (s : State) : Nat :=
  s.fld R.HC_DATA_BASE_LO F.HC_DATA_BASE_LO_BASE_LO * 2 ^ 30 + s.fld R.HC_DATA_BASE_HI F.HC_DATA_BASE_HI_BASE_HI * 2 ^ 32
def State.dataArea (s : State) (slot : Nat) : Nat := s.dataBase + slot * 0x40000

/-! ## Why fetch pauses (R266) -/

/-- The cause by which a function's fetch pauses (Table 12-18), apart from a want of slots. -/
def State.hardPause (s : State) (fn : Nat) : Nat :=
  let f := s.fnOf fn
  if !s.enabled fn || !s.rdy fn || s.ctl fn nvmeCC ccShn != 0 || f.phase != .running then 4
  else if s.host.activation.isSome then 3
  else if s.host.sumpFull then 2
  else 0

/-- HC_STATUS.CAUSE. -/
def State.pauseCause (s : State) (fn : Nat) : Nat :=
  let c := s.hardPause fn
  if c ≠ 0 then c else if (s.freeSlot false).isNone then 1 else 0

/-- Event 0x7001 each time a pause by slots or by the sump begins, in each function; a pause ends the turn under way
(R265, R266). -/
def State.notePause (s : State) : State :=
  s.functions.foldl (fun (t : State) (fn : Fin 2) =>
    let c := t.pauseCause fn.val
    let paused := c == 1 || c == 2
    let t := if paused && !(t.fnOf fn.val).pauseLogged then t.logHost fn.val 0x7001 fn.val c t.usedSlots.length else t
    let t := if paused then t.modHost fun h => { h with arb := { h.arb with turn := none } } else t
    t.modFn fn.val fun f => { f with pauseLogged := paused }) s

/-! ## Status codes (Table 12-10), as 256·SCT + SC -/

def stOpcode : Nat := 0x001
def stField : Nat := 0x002
def stTransfer : Nat := 0x004
def stInternal : Nat := 0x006
def stAborted : Nat := 0x007
def stSqDeleted : Nat := 0x008
def stNamespace : Nat := 0x00B
def stSglType : Nat := 0x011
def stRange : Nat := 0x080
def stNotReady : Nat := 0x082
def stNoCartridge : Nat := 0x0C0
def stUnrecovered : Nat := 0x281

/-- An error completion adds an Error Information entry, Command Abort Requested apart (R282). -/
def State.recordError (s : State) (c : HostCmd) (status dw0 : Nat) : State :=
  if status = 0 ∨ status = stAborted then s
  else s.modFn c.fn fun f =>
    let e : ErrEntry :=
      { count := f.errCount + 1, sqid := c.sqid, cid := c.cid, status := status
        lba := c.slba + if status = stUnrecovered then dw0 else 0, nsid := c.nsid }
    { f with errors := (e :: f.errors).take 64, errCount := f.errCount + 1 }

/-- A completion is decided: it keeps its place in the order of deciding (R269). A read's run-ahead bands have had their data
moved (R133). -/
def State.conclude (s : State) (t : Stamp) (status dw0 : Nat) (bytes : List Nat := []) : State :=
  match s.cmdOf t with
  | none => s
  | some c =>
    if c.decided.isSome then s
    else
      let s := (s.recordError c status dw0).releaseBands t
      let d : Decision :=
        { status := status, dw0 := if status = stUnrecovered then 0 else dw0, bytes := bytes, seq := s.host.nextSeq }
      (s.modCmd t fun c => { c with decided := some d }).modHost fun h => { h with nextSeq := h.nextSeq + 1 }

/-! ## Asynchronous events (R283) -/

/-- The bit of Asynchronous Event Configuration that enables an event: the standard bits of SMART / Health events and
notices, and for the others a bit that the spec does not place (log entry 38). -/
def eventBit (e : AsyncEv) : Nat :=
  if e.type = 1 ∧ e.info = 0 then 2
  else if e.type = 1 ∧ e.info = 1 then 1
  else if e.type = 1 ∧ e.info = 2 then 0
  else if e.type = 2 ∧ e.info = 0 then 8
  else if e.type = 2 ∧ e.info = 1 then 9
  else Config.asyncEventBit (e.type * 256 + e.info)

/-- An event is enabled in a function. -/
def State.eventEnabled (s : State) (fn : Nat) (e : AsyncEv) : Bool := testBitN (s.feature fn 0x0B 0) (eventBit e)

/-- The oldest outstanding Asynchronous Event Request of a function. -/
def State.openAer (s : State) (fn : Nat) : Option HostCmd :=
  s.host.cmds.find? fun c => c.fn == fn && c.kind == .aer && c.decided.isNone

/-- An event of this type waits until the host reads the log page that the last one named. -/
def FnState.typeHeld (f : FnState) (type : Nat) : Bool := f.posted.any fun e => e.1 == type

/-- Post an event to a request. -/
def State.answerAer (s : State) (fn : Nat) (c : HostCmd) (e : AsyncEv) : State :=
  (s.conclude c.stamp 0 (e.type + e.info * 256 + e.lid * 65536)).modFn fn fun f =>
    { f with posted := (e.type, e.lid) :: f.posted }

/-- An event in one function: posted, merged into one that is pending, held pending, or dropped with event 0x7005. -/
def State.asyncIn (s : State) (fn : Nat) (e : AsyncEv) : State :=
  let f := s.fnOf fn
  if !s.eventEnabled fn e then s
  else if f.pending.any fun x => x.type == e.type && x.info == e.info then s
  else match s.openAer fn, f.typeHeld e.type with
    | some c, false => s.answerAer fn c e
    | _, _ =>
      if 32 ≤ f.pending.length then s.logHost fn 0x7005 fn e.type e.info
      else s.modFn fn fun f => { f with pending := f.pending ++ [e] }

/-- An event in every function that enables it. -/
def State.raiseAsync (s : State) (type info lid : Nat) : State :=
  s.functions.foldl (fun (t : State) (fn : Fin 2) => t.asyncIn fn.val ⟨type, info, lid⟩) s

/-- Pending events go to outstanding requests, oldest first. -/
def State.serveAers (s : State) (fn : Nat) : Nat → State
  | 0 => s
  | k + 1 =>
    let f := s.fnOf fn
    match s.openAer fn, f.pending.find? fun e => !f.typeHeld e.type with
    | some c, some e =>
      let s := s.modFn fn fun f => { f with pending := f.pending.filter fun (x : AsyncEv) => x != e }
      (s.answerAer fn c e).serveAers fn k
    | _, _ => s

/-- Critical Warning bits in force: one that becomes set is an event (Table 12-16). -/
def State.setWarnings (s : State) (w : Nat) : State :=
  let rose := fun k => testBitN w k && !testBitN s.host.warnings k
  let s := s.modHost fun h => { h with warnings := w }
  let s := if rose 0 then s.raiseAsync 1 2 2 else s
  let s := if rose 1 then s.raiseAsync 1 1 2 else s
  if rose 2 || rose 3 || rose 4 then s.raiseAsync 1 0 2 else s

/-! ## Range locks and the sump -/

/-- Two requests conflict (R270): they share a block of one namespace, or of any, and one of them is exclusive. -/
def LockReq.conflicts (a b : LockReq) : Bool :=
  (a.ns == b.ns || a.ns.isNone || b.ns.isNone) && decide (max a.lo b.lo < min a.hi b.hi) && (a.excl || b.excl)

/-- The capacity of the lock table and of the sump. -/
def lockTableSize : Nat := 1024
def sumpSize : Nat := 16384

/-- HC_SUMP.PEAK follows the occupancy, in each function (log entry 39). -/
def State.sumpPeak (s : State) : State :=
  s.functions.foldl (fun (t : State) (fn : Fin 2) =>
    let k := fnKey fn.val R.HC_SUMP
    t.setFld k F.HC_SUMP_PEAK (max (t.fld k F.HC_SUMP_PEAK) t.host.sump.length)) s

/-- R272. A request of a command of function `fn` enters the table, or the tail of the sump. -/
def State.enterLock (s : State) (fn : Nat) (r : LockReq) : State :=
  if s.host.locks.length < lockTableSize ∧ s.host.sump = [] then s.modHost fun h => { h with locks := h.locks ++ [r] }
  else
    let s := if s.host.sump = [] then s.logHost fn 0x7002 fn r.stamp (lockTableSize - s.host.locks.length) else s
    let s := (s.modHost fun h => { h with sump := h.sump ++ [r] }).sumpPeak
    if s.host.sump.length = sumpSize ∧ !s.host.sumpFull then
      (s.modHost fun h => { h with sumpFull := true }).logHost fn 0x7003 fn r.stamp
    else s

/-- R272. Freed table entries take the head of the sump; fetch resumes when 256 sump entries are free. -/
def State.advanceSump (s : State) : State :=
  let room := lockTableSize - s.host.locks.length
  let s := s.modHost fun h => { h with locks := h.locks ++ h.sump.take room, sump := h.sump.drop room }
  s.modHost fun h => { h with sumpFull := h.sumpFull && decide (sumpSize < h.sump.length + 256) }

/-- All requests of a command are released (R271). -/
def State.releaseLocks (s : State) (t : Stamp) : State :=
  (s.modHost fun h => { h with
    locks := h.locks.filter fun (r : LockReq) => r.stamp != t
    sump := h.sump.filter fun (r : LockReq) => r.stamp != t }).advanceSump

/-- A command's locks are granted when every one of its requests is. -/
def State.locksGranted (s : State) (t : Stamp) : Bool :=
  (s.host.locks.all fun r => r.stamp != t || r.granted) && !(s.host.sump.any fun r => r.stamp == t)

/-! ## The work-order queue (R238) -/

/-- Orders that wait: notices, and issued orders that no bobbin has taken. -/
def State.ordersWaiting (s : State) : Nat :=
  s.host.notices.length + (s.host.cmds.filter fun c => c.order == .queued).length

/-- The tag of a work-order-available entry (R229). -/
def workOrderTag : Nat := 0xC000

/-- The queue has become non-empty: every bobbin whose WO.GET found it empty gets one entry, once its event queue has
room (R239, log entry 43). -/
def State.announceOrders (s : State) : State :=
  if s.ordersWaiting = 0 then s
  else (List.finRange 24).foldl (fun (t : State) (b : Fin 24) =>
    if (t.bob b).wantsOrder && decide ((t.bob b).occupied < 32) then
      let t := t.modBob b fun x => { x with wantsOrder := false }
      t.sendEntry b ⟨t.stamp .host, workOrderTag, .workOrder, 0, 0, srcHost 0, (t.bob b).epoch, false⟩
    else t) s

/-! ## Aborts -/

/-- What an abort request finds (Table 12-12). -/
inductive AbortFound where
  | aborted | nothing | decided
  deriving DecidableEq, Repr

def AbortFound.code : AbortFound → Nat
  | .aborted => 0 | .nothing => 1 | .decided => 2

/-- The work order of a command that ends without its program: withdrawn, or followed by a notice (R275). -/
def State.dropOrder (s : State) (c : HostCmd) : State :=
  match c.order with
  | .taken _ =>
    ((s.modCmd c.stamp fun c => { c with order := .returned, dataDue := false }).modHost fun h =>
      { h with notices := h.notices ++ [⟨c.slot, c.stamp, c.fn⟩] }).announceOrders
  | .notIssued | .queued | .returned => s.modCmd c.stamp fun c => { c with order := .returned, dataDue := false }

/-- The work of a Firmware Commit that ends before its activation has stopped fetch goes no further (R276). -/
def State.dropCommit (s : State) (t : Stamp) : State :=
  match s.host.commit with
  | some j =>
    if j.cmd = t ∧ s.host.activation.isNone then
      { s with host := { s.host with commit := none, pieces := [] }, sec := { s.sec with staged := none } }
    else s
  | none => s

/-- A command is ended with a status: DMA stopped, its completion decided, its order withdrawn or noticed (R275). -/
def State.endCommand (s : State) (c : HostCmd) (status : Nat) : State :=
  ((s.dropOrder c).dropCommit c.stamp).conclude c.stamp status 0

/-- A target that a request has just aborted: one that an earlier request had ended is not counted again. -/
def newlyAborted (found : AbortFound) (c : Option HostCmd) : Bool := found == .aborted && c.any fun x => x.decided.isNone

/-- A command may still be aborted (R276): nothing decided, and no WO.DONE accepted but for a Flush, which stops waiting
(log entry 40). -/
def HostCmd.abortable (c : HostCmd) : Bool := c.decided.isNone && (c.accepted.isNone || c.kind == .flush)

/-- What an abort request for a target of a function finds (R274, R276). -/
def State.abortLook (s : State) (fn sqid cid : Nat) : AbortFound × Option HostCmd :=
  match s.host.cmds.find? fun c => c.fn == fn && c.sqid == sqid && c.cid == cid with
  | none => (.nothing, none)
  | some c =>
    (if c.abortable || (c.decided.map (·.status)) == some stAborted then .aborted else .decided, some c)

/-- An abort request carried out (R275). -/
def State.abortRequest (s : State) (fn sqid cid : Nat) : AbortFound × Option HostCmd × State :=
  let (found, c) := s.abortLook fn sqid cid
  (found, c, match c with
    | some x => if x.abortable then s.endCommand x stAborted else s
    | none => s)

/-- A command that a waiting snip request has found abortable: a result that comes after that request's stamp does not count
(R276). -/
def State.snipHeld (s : State) (t : Stamp) : Bool :=
  s.host.fns.toList.any fun f => f.snips.any fun x => x.result == 0 && (x.target.map (·.1)) == some t

/-! ## Flush (R273) -/

/-- A Write or Dataset Management that a Flush with stamp f over namespace n (0xFFFFFFFF: all) still waits for. -/
def State.flushBlocked (s : State) (f : Stamp) (n : Nat) : Bool :=
  let named := fun (k : Nat) => n == 0xFFFFFFFF || k == n
  (s.host.cmds.any fun c => (c.kind == .write || c.kind == .dsm) && decide (c.stamp < f) && named c.nsid && c.decided.isNone) ||
    (s.host.place.tracks.any fun t => t.flushed && decide (t.stamp < f) && named t.nsid)

/-- Waiting Flushes that nothing holds back complete. -/
def State.decideFlushes (s : State) : State :=
  (s.host.cmds.filter fun c => c.kind == .flush && c.decided.isNone && c.accepted.isSome).foldl (fun (t : State) (c : HostCmd) =>
    if t.flushBlocked c.stamp c.nsid then t else t.conclude c.stamp 0 0) s

/-! ## Namespaces -/

/-- A namespace by its identifier. -/
def State.namespaceOf (s : State) (nsid : Nat) : Option Namespace :=
  if h : 1 ≤ nsid ∧ nsid ≤ 16 then s.host.namespaces[nsid - 1]'(by omega) else none

/-- A namespace slot set. -/
def State.setNamespace (s : State) (idx : Nat) (n : Option Namespace) : State :=
  if h : idx < 16 then s.modHost fun x => { x with namespaces := x.namespaces.set idx n } else s

/-- Critical Warning bit 3 is set while any namespace is limited by recovery (R302). -/
def State.recoveryWarning (s : State) : State :=
  let limited := s.host.namespaces.toList.any fun n => n.any fun n => n.state == 3
  s.setWarnings (if limited then setBitN s.host.warnings 3 else clearBitN s.host.warnings 3)

/-- R299. A namespace enters a state of log page 0xC0: event 0x7013 and the vendor event. -/
def State.setNsState (s : State) (idx st : Nat) : State :=
  match s.namespaceOf (idx + 1) with
  | none => s
  | some n =>
    if n.state = st then s
    else
      let s := s.setNamespace idx (some { n with state := st, changedAt := s.stamp .host })
      ((s.logPlace 0x7013 idx st).raiseAsync 7 0xC0 0xC0).recoveryWarning

/-- A namespace has changed (log page 0x04): it joins the list of every function, and a notice is raised. -/
def State.nsChanged (s : State) (nsid : Nat) : State :=
  let s := s.functions.foldl (fun (t : State) (fn : Fin 2) =>
    t.modFn fn.val fun f => { f with changed := nsid :: f.changed.filter fun (k : Nat) => k != nsid }) s
  s.raiseAsync 2 0 4

/-! ## Shutdown (R278) -/

/-- Every head hems as a request to it would (R33). -/
def State.hemEvery (s : State) : State :=
  (List.finRange 16).foldl (fun (t : State) (n : Fin 16) => t.hemRequest n (t.stamp (.head n)) false []) s

/-- No head has a pass open. -/
def State.noPass (s : State) : Bool := s.heads.toList.all fun h => h.pass.isNone

/-- The commands of a function have completed, Asynchronous Event Requests apart, and every write fetched before the
shutdown is on the medium (log entry 50). -/
def State.drained (s : State) (fn : Nat) (since : Stamp) : Bool :=
  !(s.host.cmds.any fun c => c.fn == fn && c.kind != .aer) && !s.flushBlocked since 0xFFFFFFFF

/-- A normal shutdown whose commands and writes have ended goes on to the hems. -/
def State.advanceShutdown (s : State) : State :=
  s.functions.foldl (fun (t : State) (fn : Fin 2) =>
    match (t.fnOf fn.val).phase with
    | .draining since =>
      if t.drained fn.val since then t.hemEvery.modFn fn.val fun f => { f with phase := .hemming } else t
    | _ => t) s

end Sys2Proof.Machine
end

