-- ==== Sys2Proof/Machine/Place.lean ====
section
/-!
DEFINITION. Machine/Place.lean: the placement-map assist's tables in buffer memory (Tables 13-2 to 13-9), slot records
(R291), the apply of a write to frames (R292, R294), and the private batches of deallocates and formats (R296).
-/

namespace Sys2Proof.Machine

/-! ## The region (Table 13-2) -/

/-- HC_PL_BASE, MAPSZ and FRAMES. -/
def State.plBase (s : State) : Nat :=
  s.fld R.HC_PL_BASE_LO F.HC_PL_BASE_LO_BASE_LO * 2 ^ 30 + s.fld R.HC_PL_BASE_HI F.HC_PL_BASE_HI_BASE_HI * 2 ^ 32
def State.plMapBytes (s : State) : Nat := s.fld R.HC_PL_CFG F.HC_PL_CFG_MAPSZ * 2 ^ 26
def State.plFrames (s : State) : Nat := s.fld R.HC_PL_CFG F.HC_PL_CFG_FRAMES

def State.dirAddr (s : State) (idx : Nat) : Nat := s.plBase + 32 * idx
def State.slotRecAddr (s : State) (slot : Nat) : Nat := s.plBase + 0x10000 + 128 * slot
def State.batchAddr (s : State) (b : Nat) : Nat := s.plBase + 0x200000 + 64 * b
def State.ringAddr (s : State) (seq : Nat) : Nat := s.plBase + 0x400000 + seq % 4096 * 4096
def State.metaAddr (s : State) (f : Nat) : Nat := s.plBase + 0x8000000 + 32 * f
def State.mapAddr (s : State) (ofs g : Nat) : Nat := s.plBase + 0x10000000 + ofs + 8 * g
def State.frameAddr (s : State) (f : Nat) : Nat := s.plBase + 0x10000000 + s.plMapBytes + 65536 * f

/-- The index of a band in the valid counts and in the band table. -/
def bandIndex (surface layer band : Nat) : Nat := (surface * 16 + layer) * 65536 + band
def State.validAddr (s : State) (i : Nat) : Nat := s.plBase + 0x2000000 + 2 * i
def State.bandAddr (s : State) (i : Nat) : Nat := s.plBase + 0x4000000 + 8 * i

/-- The assist's memory accesses are in class 4 (Table 14-2). -/
def State.plPut (s : State) (a n v : Nat) : State := s.memWrite 4 a (natBytes n v)

/-! ## Map entries (Table 13-3) -/

def entState (e : Nat) : Nat := natBits e 63 62
def entGen (e : Nat) : Nat := natBits e 23 0
def entFrame (e : Nat) : Nat := natBits e 39 24
def entSurface (e : Nat) : Nat := natBits e 61 59
def entLayer (e : Nat) : Nat := natBits e 58 55
def entBand (e : Nat) : Nat := natBits e 54 39
def entK (e : Nat) : Nat := natBits e 38 31

/-- An entry in STATE 2 with the generation of the committed data. -/
def entCached (frame gen : Nat) : Nat := 2 * 2 ^ 62 + frame * 2 ^ 24 + gen % 2 ^ 24

/-- An entry unmapped, its generation kept. -/
def entUnmapped (e : Nat) : Nat := entGen e

/-- The index of the band an entry names. -/
def entBandIndex (e : Nat) : Nat := bandIndex (entSurface e) (entLayer e) (entBand e)

/-- The map entry of a granule of namespace slot idx; none outside the namespace. -/
def State.mapEntry (s : State) (idx g : Nat) : Option Nat :=
  match s.namespaceOf (idx + 1) with
  | some n => if g < n.granules then some (memNat s (s.mapAddr n.mapOfs g) 8) else none
  | none => none

/-- A map entry written. -/
def State.putMapEntry (s : State) (idx g e : Nat) : State :=
  match s.namespaceOf (idx + 1) with
  | some n => if g < n.granules then s.plPut (s.mapAddr n.mapOfs g) 8 e else s
  | none => s

/-! ## Frame metadata (Table 13-5) -/

def State.frKey (s : State) (f : Nat) : Nat := memNat s (s.metaAddr f) 8
def State.frGen (s : State) (f : Nat) : Nat := memNat s (s.metaAddr f + 8) 3
def State.frState (s : State) (f : Nat) : Nat := memNat s (s.metaAddr f + 11) 1
def State.frBatch (s : State) (f : Nat) : Nat := memNat s (s.metaAddr f + 12) 2
def State.frRefs (s : State) (f : Nat) : Nat := memNat s (s.metaAddr f + 14) 2
def State.frNext (s : State) (f : Nat) : Nat := memNat s (s.metaAddr f + 16) 4
def State.frNew (s : State) (f : Nat) : Nat := memNat s (s.metaAddr f + 24) 8

def State.setFrState (s : State) (f v : Nat) : State := s.plPut (s.metaAddr f + 11) 1 v
def State.setFrBatch (s : State) (f v : Nat) : State := s.plPut (s.metaAddr f + 12) 2 v
def State.setFrRefs (s : State) (f v : Nat) : State := s.plPut (s.metaAddr f + 14) 2 v

/-- A free frame, if there is one. -/
def State.freeFrames (s : State) (n : Nat) : List Nat := ((List.range s.plFrames).filter fun f => s.frState f == 0).take n

/-- The KEY of a journal entry (Table 13-8). -/
def journalKey (kind idx g : Nat) : Nat := idx * 2 ^ 60 + kind * 2 ^ 56 + g % 2 ^ 30
def keyIdx (k : Nat) : Nat := natBits k 63 60
def keyKind (k : Nat) : Nat := natBits k 59 56
def keyGranule (k : Nat) : Nat := natBits k 29 0

/-! ## Batches -/

def State.batState (s : State) (b : Nat) : Nat := memNat s (s.batchAddr b) 1
def State.batKind (s : State) (b : Nat) : Nat := memNat s (s.batchAddr b + 1) 1
def State.batCount (s : State) (b : Nat) : Nat := memNat s (s.batchAddr b + 4) 4
def State.batFirst (s : State) (b : Nat) : Nat := memNat s (s.batchAddr b + 8) 4
def State.setBatState (s : State) (b v : Nat) : State := s.plPut (s.batchAddr b) 1 v

/-- A free batch number from 0 to 191. -/
def State.freeBatch (s : State) : Option Nat := (List.range 192).find? fun b => s.batState b == 0

/-- The frames of a chain of NEXT links. -/
def State.linkedFrames (s : State) : Nat → Nat → List Nat
  | 0, _ => []
  | n + 1, f => if f = 0xFFFFFFFF then [] else f :: s.linkedFrames n (s.frNext f)

/-- The frames of a batch. -/
def State.batFrames (s : State) (b : Nat) : List Nat := s.linkedFrames (min (s.batCount b) 65536) (s.batFirst b)

/-- A batch table entry written: sealed, of a kind, with its frames and the slot of a private batch. -/
def State.putBatch (s : State) (b kind : Nat) (count : Nat) (first slot : Nat) : State :=
  let s := s.plPut (s.batchAddr b) 8 (1 + kind * 2 ^ 8 + count * 2 ^ 32)
  let s := s.plPut (s.batchAddr b + 8) 8 (first + slot * 2 ^ 32)
  s.plPut (s.batchAddr b + 16) 8 0

/-- Frames linked into a batch in state st, each with the generation after its entry's (R293). -/
def State.linkFrames (s : State) (b st : Nat) : List Nat → State
  | [] => s
  | f :: rest =>
    let k := s.frKey f
    let gen := (entGen ((s.mapEntry (keyIdx k) (keyGranule k)).getD 0) + 1) % 2 ^ 24
    let s := s.plPut (s.metaAddr f + 8) 3 gen
    let s := (s.setFrState f st).setFrBatch f b
    let s := s.plPut (s.metaAddr f + 16) 4 (rest.headD 0xFFFFFFFF)
    s.linkFrames b st rest

/-! ## Slot records (R291) -/

/-- The granules a command touches, at most five of them (log entry 44). -/
def touched (slba nlb : Nat) : List Nat :=
  if nlb = 0 then [] else (List.range (min 5 ((slba + nlb - 1) / 16 - slba / 16 + 1))).map (· + slba / 16)

/-- The first range that a command names. -/
def HostCmd.firstRange (c : HostCmd) : Nat × Nat :=
  match c.kind with
  | .dsm => ((c.ranges.find? fun r => r.2 != 0).getD (0, 0))
  | _ => (c.slba, c.nlb)

/-- Lookups of a command's granules: the entries and whether every word was good (Table 14-4). -/
def State.lookup (s : State) (idx : Nat) : List Nat → List Nat × Bool × State
  | [] => ([], true, s)
  | g :: rest =>
    match s.namespaceOf (idx + 1) with
    | none => ([], true, s)
    | some n =>
      if n.granules ≤ g then ([], true, s)
      else
        let r := s.memRead 4 (s.mapAddr n.mapOfs g) 8
        let (es, ok, t) := r.st.lookup idx rest
        (bytesNat r.bytes :: es, r.bad.isEmpty && ok, t)

/-- R291. The slot record of a command: STATE 0, EDGE 0, the OLD entries, and the frames they name kept. -/
def State.writeSlotRecord (s : State) (c : HostCmd) : Bool × State :=
  let (slba, nlb) := c.firstRange
  let (es, ok, s) := s.lookup (c.nsid - 1) (touched slba nlb)
  let a := s.slotRecAddr c.slot
  let head := natBytes 8 0 ++ natBytes 8 0 ++ [clampNat 1 5 es.length, 0] ++ natBytes 2 0xFFFF ++ natBytes 4 0
  let olds := (es.flatMap (natBytes 8)) ++ List.replicate (40 - 8 * es.length) 0
  let s := s.memWrite 4 a (head ++ olds ++ List.replicate 64 0)
  let frames := ((es.filter fun e => entState e == 2).map entFrame)
  let s := frames.foldl (fun (t : State) f => t.setFrRefs f (t.frRefs f + 1)) s
  (ok, s.modCmd c.stamp fun c => { c with named := frames })

/-- STATE and BATCH of a slot record. -/
def State.slotState (s : State) (slot v : Nat) : State := s.plPut (s.slotRecAddr slot + 17) 1 v
def State.slotBatch (s : State) (slot b : Nat) : State := s.plPut (s.slotRecAddr slot + 18) 2 b

/-- A frame that nothing holds is freed. -/
def State.freeFrame (s : State) (f : Nat) : State :=
  let s := (s.setFrState f 0).setFrBatch f 0xFFFF
  s.modPlace fun p => { p with before := p.before.filter fun (e : Nat × Nat) => e.1 != f }

/-- A command names its frames no more: one whose chain has applied and that no other command names is freed (R296). -/
def State.dropNamed (s : State) (c : HostCmd) : State :=
  let s := c.named.foldl (fun (t : State) f =>
    let n := t.frRefs f - 1
    let t := t.setFrRefs f n
    if n = 0 ∧ t.frState f = 2 ∧ t.frBatch f = 0xFFFF then t.freeFrame f else t) s
  s.modCmd c.stamp fun c => { c with named := [] }

/-! ## Apply (R292, R294) -/

/-- A command is write-through: FUA, or the volatile write cache disabled. -/
def State.writeThrough (s : State) (c : HostCmd) : Bool := c.fua || !s.writeCache c.fn

/-- The granules of a Write, with the blocks of each that it covers: granule, first block of the granule, count, and the
block's place in the data. -/
structure Piece where
  granule : Nat
  first   : Nat
  count   : Nat
  source  : Nat
  deriving DecidableEq, Repr

/-- A range of blocks cut at the granules. -/
def pieces (slba nlb : Nat) : List Piece :=
  (touched slba nlb).map fun g =>
    let lo := max slba (16 * g)
    let hi := min (slba + nlb) (16 * g + 16)
    ⟨g, lo - 16 * g, hi - lo, lo - slba⟩

/-- A copy of memory, at host-DMA priority; whether every word read was good. -/
def State.copyMem (s : State) (src dst len : Nat) : Bool × State :=
  let r := s.memRead 6 src len
  (r.bad.isEmpty, r.st.memWrite 6 dst r.bytes)

/-- Why a Write cannot be applied now: too few free frames, a sealed or private frame, or a dirty frame under a
write-through write; and a write-through write also needs a batch number. -/
def State.applyBlocked (s : State) (c : HostCmd) (through : Bool) : Bool :=
  let es := (pieces c.slba c.nlb).map fun p => (s.mapEntry (c.nsid - 1) p.granule).getD 0
  let fresh := (es.filter fun e => entState e != 2).length
  let frames := (es.filter fun e => entState e == 2).map entFrame
  decide ((s.freeFrames fresh).length < fresh) || (frames.any fun f => s.frState f != 1) ||
    (through && (!frames.isEmpty || s.freeBatch.isNone))

/-- The image of a partial edge granule (Table 13-4): EDGE0 for the first granule of the command, EDGE1 for the last; no
other granule has one (log entry 44). -/
def State.edgeImage (s : State) (c : HostCmd) (p : Piece) : Nat :=
  let (lo, n) := c.firstRange
  if p.granule = lo / 16 then memNat s (s.slotRecAddr c.slot) 8
  else if p.granule = (lo + n - 1) / 16 then memNat s (s.slotRecAddr c.slot + 8) 8
  else 0

/-- The first partial edge granule in STATE 1 whose image is missing. -/
def State.missingImage (s : State) (c : HostCmd) : Option Nat :=
  ((pieces c.slba c.nlb).find? fun p =>
    p.count != 16 && entState ((s.mapEntry (c.nsid - 1) p.granule).getD 0) == 1 && s.edgeImage c p == 0).map (·.granule)

/-- One granule of a Write: its frame, filled if it is fresh, and the write's blocks copied into it. -/
def State.applyPiece (s : State) (c : HostCmd) (p : Piece) : Nat × Bool × State :=
  let idx := c.nsid - 1
  let e := (s.mapEntry idx p.granule).getD 0
  let data := s.dataArea c.slot + 4096 * p.source
  if entState e = 2 then
    let f := entFrame e
    let (ok, s) := s.copyMem data (s.frameAddr f + 4096 * p.first) (4096 * p.count)
    (f, ok, s)
  else
    let f := (s.freeFrames 1).headD 0
    let (ok1, s) : Bool × State :=
      if entState e = 1 then (if p.count = 16 then (true, s) else s.copyMem (s.edgeImage c p) (s.frameAddr f) 65536)
      else (true, s.memWrite 6 (s.frameAddr f) (List.replicate 65536 0))
    let (ok2, s) := s.copyMem data (s.frameAddr f + 4096 * p.first) (4096 * p.count)
    let s := s.plPut (s.metaAddr f) 8 (journalKey 0 idx p.granule)
    let s := ((s.setFrState f 1).setFrBatch f 0xFFFF).setFrRefs f 0
    let s := s.putMapEntry idx p.granule (entCached f (entGen e))
    (f, ok1 && ok2, s.modPlace fun x => { x with before := (f, e) :: x.before.filter fun (y : Nat × Nat) => y.1 != f })

/-- All granules of a Write. -/
def State.applyPieces (s : State) (c : HostCmd) : List Piece → List Nat × Bool × State
  | [] => ([], true, s)
  | p :: rest =>
    let (f, ok, s) := s.applyPiece c p
    let (fs, ok', s) := s.applyPieces c rest
    (f :: fs, ok && ok', s)

/-- R293. The groups of the frames become one, with the oldest stamp. -/
def State.joinGroups (s : State) (frames : List Nat) : State :=
  s.modPlace fun p =>
    let mine := p.groups.filter fun g => g.frames.any frames.contains
    let others := p.groups.filter fun g => !(g.frames.any frames.contains)
    let stamp := mine.foldl (fun a (g : FrameGroup) => min a g.stamp) s.now
    let all := frames ++ (mine.flatMap (·.frames)).filter fun f => !frames.contains f
    { p with groups := others ++ [⟨stamp, all⟩] }

/-- A track: what a Flush or a write-through completion waits for. -/
def State.addTrack (s : State) (c : HostCmd) (frames : List Nat) (batch : Option Nat) (flushed : Bool) : State :=
  s.modPlace fun p => { p with tracks := p.tracks ++ [⟨c.stamp, c.nsid, frames, batch, flushed⟩] }

/-- R292, R294. The apply of a Write: deferred, refused, or carried out. A command whose data cannot be read completes with
Internal Error (Table 14-4). -/
def State.applyWrite (s : State) (c : HostCmd) : State :=
  let through := s.writeThrough c
  if s.applyBlocked c through then
    let s := s.slotState c.slot 1
    if s.host.place.deferred.contains c.stamp then s
    else s.modPlace fun p => { p with deferred := p.deferred ++ [c.stamp] }
  else
    let s := s.modPlace fun p => { p with deferred := p.deferred.filter fun (t : Stamp) => t != c.stamp }
    match s.missingImage c with
    | some g => ((s.slotState c.slot 3).logPlace 0x7012 c.slot g).conclude c.stamp stInternal 0
    | none =>
      let (frames, ok, s) := s.applyPieces c (pieces c.slba c.nlb)
      let s := s.slotState c.slot 2
      if through then
        match s.freeBatch with
        | none => s
        | some b =>
          let s := s.linkFrames b 3 frames
          let s := (s.putBatch b 1 frames.length (frames.headD 0xFFFFFFFF) c.slot).slotBatch c.slot b
          let s := s.modPlace fun p => { p with batches := p.batches ++ [⟨b, [⟨s.now, frames⟩], []⟩] }
          let s := s.addTrack c frames (some b) true
          if ok then s else s.conclude c.stamp stInternal 0
      else
        let s := (s.joinGroups frames).addTrack c frames none true
        s.conclude c.stamp (if ok then 0 else stInternal) 0

/-! ## Deallocate and Format (R296) -/

/-- A private batch of TRIM and NSOP entries, committed through a program as any batch is; its command completes once the
chain is durable. -/
def State.entryBatch (s : State) (c : HostCmd) (entries : List (Nat × Nat)) (flushed : Bool) : State :=
  match s.freeBatch with
  | none => s
  | some b =>
    let s := (s.putBatch b 1 0 0xFFFFFFFF c.slot).slotBatch c.slot b
    let s := s.modPlace fun p => { p with batches := p.batches ++ [⟨b, [], entries⟩] }
    (s.slotState c.slot 2).addTrack c [] (some b) flushed

/-- The whole granules of a range: first and count. -/
def wholeGranules (lo n : Nat) : Nat × Nat := (ceilDiv lo 16, (lo + n) / 16 - ceilDiv lo 16)

/-- The partial edge granules of a range. -/
def edgePieces (lo n : Nat) : List Piece :=
  if n = 0 then []
  else
    let cut (g : Nat) : Piece :=
      let a := max lo (16 * g)
      ⟨g, a - 16 * g, min (lo + n) (16 * g + 16) - a, 0⟩
    (if lo / 16 = (lo + n - 1) / 16 then [cut (lo / 16)] else [cut (lo / 16), cut ((lo + n - 1) / 16)]).filter fun p => p.count != 16

/-- Whether some granule of a run is cached. -/
def State.anyCached (s : State) (idx first count : Nat) : Bool :=
  (List.range count).any fun i => entState ((s.mapEntry idx (first + i)).getD 0) == 2

/-- The blocks of a partial edge read as zeroes: written into the granule's dirty frame, or into a fresh one (R296). An
edge that is unmapped holds zeroes already. -/
def State.zeroEdge (s : State) (c : HostCmd) (p : Piece) : List Nat × State :=
  let idx := c.nsid - 1
  let e := (s.mapEntry idx p.granule).getD 0
  let zeros := List.replicate (4096 * p.count) 0
  if entState e = 2 then
    let f := entFrame e
    ([f], s.memWrite 6 (s.frameAddr f + 4096 * p.first) zeros)
  else if entState e = 0 then ([], s)
  else
    let f := (s.freeFrames 1).headD 0
    let (_, s) : Bool × State :=
      if entState e = 1 then s.copyMem (s.edgeImage c p) (s.frameAddr f) 65536
      else (true, s.memWrite 6 (s.frameAddr f) (List.replicate 65536 0))
    let s := s.memWrite 6 (s.frameAddr f + 4096 * p.first) zeros
    let s := s.plPut (s.metaAddr f) 8 (journalKey 0 idx p.granule)
    let s := ((s.setFrState f 1).setFrBatch f 0xFFFF).setFrRefs f 0
    let s := s.putMapEntry idx p.granule (entCached f (entGen e))
    ([f], s.modPlace fun x => { x with before := (f, e) :: x.before.filter fun (y : Nat × Nat) => y.1 != f })

/-- What holds a deallocate back: a cached whole granule, a sealed or private frame at an edge, too few free frames, or
no batch number. -/
def State.trimBlocked (s : State) (c : HostCmd) : Bool :=
  let idx := c.nsid - 1
  let edges := c.ranges.flatMap fun r => edgePieces r.1 r.2
  let es := edges.map fun p => (s.mapEntry idx p.granule).getD 0
  let fresh := (es.filter fun e => entState e == 1 || entState e == 3).length
  (c.ranges.any fun r => let w := wholeGranules r.1 r.2; s.anyCached idx w.1 w.2) ||
    (es.any fun e => entState e == 2 && s.frState (entFrame e) != 1) ||
    decide ((s.freeFrames fresh).length < fresh) || s.freeBatch.isNone

/-- R261, R296. A deallocate: whole granules in a private batch of TRIM entries, partial edges as writes of zeroes. Its
completion waits for both to be on the medium. -/
def State.applyTrim (s : State) (c : HostCmd) : State :=
  if s.trimBlocked c then
    let s := s.slotState c.slot 1
    if s.host.place.deferred.contains c.stamp then s
    else s.modPlace fun p => { p with deferred := p.deferred ++ [c.stamp] }
  else
    let s := s.modPlace fun p => { p with deferred := p.deferred.filter fun (t : Stamp) => t != c.stamp }
    let idx := c.nsid - 1
    let edges := c.ranges.flatMap fun r => edgePieces r.1 r.2
    let lost := edges.find? fun p =>
      entState ((s.mapEntry idx p.granule).getD 0) == 1 && s.edgeImage c p == 0
    match lost with
    | some p => ((s.slotState c.slot 3).logPlace 0x7012 c.slot p.granule).conclude c.stamp stInternal 0
    | none =>
      let (frames, s) : List Nat × State := edges.foldl (fun (a : List Nat × State) p =>
        let (fs, t) := a.2.zeroEdge c p
        (a.1 ++ fs, t)) ([], s)
      let s := if frames = [] then s else s.joinGroups frames
      let whole := (c.ranges.map fun r => wholeGranules r.1 r.2).filter fun w => w.2 != 0
      let entries := whole.map fun w => (journalKey 1 idx w.1, w.2)
      if entries = [] ∧ frames = [] then (s.slotState c.slot 2).conclude c.stamp 0 0
      else
        let s := if entries = [] then (s.slotState c.slot 2).addTrack c [] none true else s.entryBatch c entries true
        s.modPlace fun p => { p with tracks := p.tracks.map fun (t : Track) =>
          if t.stamp = c.stamp then { t with frames := frames } else t }

/-- A frame holds data of a namespace that is not on the medium yet. -/
def State.nsCached (s : State) (idx : Nat) : Bool :=
  (List.range s.plFrames).any fun f => s.frState f != 0 && keyIdx (s.frKey f) == idx && !(s.frState f == 2 && s.frBatch f == 0xFFFF)

/-- The VALUE of an NSOP entry (Table 13-8). -/
def nsopValue (op mode granules : Nat) : Nat := op + mode % 4 * 4 + granules % 2 ^ 30 * 16

/-- The surface-parity mode that a Format leaves (R261). -/
def formatMode (c : HostCmd) (now : Nat) : Nat :=
  let w := c.cdw.getD 1 0
  if testBitN w 2 then w % 4 else now

/-- R261, R296. A Format: a private batch of one NSOP entry, once no dirty data of the namespace is cached. -/
def State.applyFormat (s : State) (c : HostCmd) : State :=
  if s.nsCached (c.nsid - 1) || s.freeBatch.isNone then
    let s := s.slotState c.slot 1
    if s.host.place.deferred.contains c.stamp then s
    else s.modPlace fun p => { p with deferred := p.deferred ++ [c.stamp] }
  else
    let s := s.modPlace fun p => { p with deferred := p.deferred.filter fun (t : Stamp) => t != c.stamp }
    match s.namespaceOf c.nsid with
    | none => s.conclude c.stamp stNamespace 0
    | some n => s.entryBatch c [(journalKey 3 (c.nsid - 1) 0, nsopValue 2 (formatMode c n.mode) n.granules)] false

end Sys2Proof.Machine
end

