-- ==== Sys2Proof/Machine/Journal.lean ====
section
/-!
DEFINITION. Machine/Journal.lean: seals, commits and abandons of batches (R293, R295, R299), the journal ring and the
application of its chains (R296), replay (R298), and MM.XFER with the assist's tables closed to it (R289).
-/

namespace Sys2Proof.Machine

/-! ## Seal (R293) -/

/-- The group with the oldest first apply. -/
def oldestGroup : List FrameGroup → Option FrameGroup
  | [] => none
  | g :: rest => some (rest.foldl (fun (m y : FrameGroup) => if y.stamp < m.stamp then y else m) g)

/-- Whole groups, oldest first, until `count` frames are taken or the groups run out; at least one. -/
def takeGroups (count : Nat) : Nat → List FrameGroup → Nat → List FrameGroup
  | 0, _, _ => []
  | fuel + 1, gs, taken =>
    match oldestGroup gs with
    | none => []
    | some g =>
      if taken ≠ 0 ∧ count ≤ taken then []
      else g :: takeGroups count fuel (gs.filter fun x => x != g) (taken + g.frames.length)

/-- R293. HC_PL_CTRL with OP = 1: groups sealed into a free batch. With no group, or no free batch, nothing is sealed
(log entry 45). -/
def execSeal (count : Fin 65536) (s : State) : Result :=
  let gs := takeGroups count.val s.host.place.groups.length s.host.place.groups 0
  match s.freeBatch with
  | none => .next s
  | some b => when (!gs.isEmpty) s <|
      let frames := gs.flatMap (·.frames)
      let s := s.linkFrames b 2 frames
      let s := s.putBatch b 0 frames.length (frames.headD 0xFFFFFFFF) 0
      s.modPlace fun p => { p with
        groups := p.groups.filter fun (g : FrameGroup) => !gs.contains g
        batches := p.batches ++ [⟨b, gs, []⟩] }

/-! ## The journal ring (Table 13-7) -/

/-- HC_JRN_DUR and the sequences built and not durable. -/
def State.jrnDur (s : State) : Nat := s.pair R.HC_JRN_DUR_LO
def State.jrnPending (s : State) : Nat := s.host.place.nextSeq - 1 - s.jrnDur

/-- The bytes of a record, its CRC in place (R60). -/
def recordBytes (seq stamp chain flags : Nat) (entries : List (Nat × Nat)) : List Nat :=
  let head := natBytes 8 seq ++ natBytes 8 stamp ++ natBytes 2 entries.length ++ [flags, 0] ++ natBytes 8 chain ++
    List.replicate 32 0
  let body := entries.flatMap (fun e => natBytes 8 e.1 ++ natBytes 8 e.2) ++ List.replicate (4032 - 16 * entries.length) 0
  head ++ natBytes 4 (crc32c (head ++ body)) ++ body

/-- Records of at most 252 entries, with consecutive sequences from `seq`; the last carries END. -/
def State.putRecords (s : State) (chain : Nat) : Nat → Nat → List (Nat × Nat) → Nat × State
  | 0, seq, _ => (seq, s)
  | fuel + 1, seq, es =>
    let last := es.length ≤ 252
    let s := s.memWrite 4 (s.ringAddr seq) (recordBytes seq (s.stamp .host) chain (if last then 1 else 0) (es.take 252))
    if last then (seq, s) else s.putRecords chain fuel (seq + 1) (es.drop 252)

/-- Records that a chain takes. -/
def recordsFor (entries : Nat) : Nat := max 1 (ceilDiv entries 252)

/-- A chain built in the ring (R295): its last sequence. -/
def State.buildChain (s : State) (entries : List (Nat × Nat)) (frames : List Nat) (batch : Option Nat) : Nat × Nat × State :=
  let first := s.host.place.nextSeq
  let (last, s) := s.putRecords first (recordsFor entries.length) first entries
  (first, last, s.modPlace fun p => { p with nextSeq := last + 1, chains := p.chains ++ [⟨first, last, frames, batch⟩] })

/-- The SET entries of frames, as their metadata stand. -/
def State.setEntries (s : State) (frames : List Nat) : List (Nat × Nat) :=
  frames.map fun f =>
    let v := s.frNew f
    (s.frKey f, v - entGen v + s.frGen f)

/-- The list of a move batch (R295). -/
def State.moveEntries (s : State) (b : Nat) : List (Nat × Nat) :=
  let a := memNat s (s.batchAddr b + 32) 8
  (List.range (min (s.batCount b) 65536)).map fun i => (memNat s (a + 16 * i) 8, memNat s (a + 16 * i + 8) 8)

/-- The entries that a batch commits. -/
def State.batchEntries (s : State) (b : Nat) : List (Nat × Nat) :=
  if 192 ≤ b then s.moveEntries b
  else (((s.host.place.batches.find? fun x => x.batch == b).map (·.entries)).getD []) ++ s.setEntries (s.batFrames b)

/-- RING_FULL rises when 4,096 records are not durable, or when an accepted commit finds too little room: event 0x7011 once. -/
def State.ringFull (s : State) : State :=
  if s.flag R.HC_PL_STATUS F.HC_PL_STATUS_RING_FULL then s
  else (s.setFld R.HC_PL_STATUS F.HC_PL_STATUS_RING_FULL 1).logPlace 0x7011 s.host.place.nextSeq s.jrnDur

/-- An accepted batch's chain is built, if the ring has room for it. -/
def State.buildBatch (s : State) (b : Nat) : Bool × State :=
  let es := s.batchEntries b
  if 4096 < s.jrnPending + recordsFor es.length then (false, s.ringFull)
  else
    let (first, last, s) := s.buildChain es (if 192 ≤ b then [] else s.batFrames b) (some b)
    let s := (s.plPut (s.batchAddr b + 16) 8 first).plPut (s.batchAddr b + 24) 8 last
    (true, if s.jrnPending = 4096 then s.ringFull else s)

/-- Accepted commits that waited for room are built in order. -/
def State.buildWaiting (s : State) : Nat → State
  | 0 => s
  | k + 1 =>
    match s.host.place.waiting with
    | [] => s
    | b :: rest =>
      match s.buildBatch b with
      | (true, t) => (t.modPlace fun p => { p with waiting := rest }).buildWaiting k
      | (false, t) => t

/-! ## Commit and abandon (R295) -/

/-- NG of the band that an entry names: D from HD_FMT_CFG of the surface's head, v from the band table (R286). -/
def State.bandGranules (s : State) (e : Nat) : Nat :=
  let d := twillStep (fmtU (s.reg (R.HD_FMT_CFG (2 * entSurface e))).toNat (entBand e))
  (168 * d - memNat s (s.bandAddr (entBandIndex e) + 1) 1) / 16

/-- The location of an entry. -/
def entPlace (e : Nat) : Nat := natBits e 61 31

/-- Why a NEW is refused (Table 13-6, STATUS), given the ones before it. -/
def State.newFault (s : State) (before : List Nat) (e : Nat) : Option Nat :=
  if entState e ≠ 1 then some 4
  else
    let band := natBits (memNat s (s.bandAddr (entBandIndex e)) 1) 2 0
    if band ≠ 1 ∧ band ≠ 2 then some 1
    else if s.bandGranules e ≤ entK e then some 2
    else if before.any fun x => entPlace x == entPlace e then some 3
    else none

/-- The first NEW at fault: its place in the list and its STATUS. An entry that names no new location (none) has no fault. -/
def State.firstFault (s : State) : Nat → List Nat → List (Option Nat) → Option (Nat × Nat)
  | _, _, [] => none
  | i, before, none :: rest => s.firstFault (i + 1) before rest
  | i, before, some e :: rest =>
    match s.newFault before e with
    | some st => some (i, st)
    | none => s.firstFault (i + 1) (before ++ [e]) rest

/-- A batch that a program may commit: sealed or refused, or a move batch of its own (log entry 46). -/
def State.committable (s : State) (b : Nat) : Bool :=
  if 192 ≤ b then s.batKind b == 2 && s.batState b != 2
  else (s.batState b == 1 || s.batState b == 3) && s.host.place.batches.any fun x => x.batch == b

/-- The new locations that a batch names. A program's list may declare a granule lost by a SET entry of STATE 3, which names
its last location and no new one (R290, log entry 46). -/
def State.newPlaces (s : State) (b : Nat) (frames : List Nat) : List (Option Nat) :=
  if 192 ≤ b then (s.moveEntries b).map fun (e : Nat × Nat) => if keyKind e.1 = 0 ∧ entState e.2 = 3 then none else some e.2
  else frames.map fun f => some (s.frNew f)

/-- A commit is refused: the batch's STATUS, event 0x7010, and the batch stays sealed (STATE 3). -/
def State.refuseCommit (s : State) (b st first : Nat) : State :=
  ((s.setBatState b 3).plPut (s.batchAddr b + 2) 1 st).logPlace 0x7010 b st first

/-- R295. HC_PL_CTRL with OP = 2. -/
def execCommit (batch : Fin 256) (s : State) : Result :=
  let b := batch.val
  when (s.committable b) s <|
    let frames := s.batFrames b
    match s.firstFault 0 [] (s.newPlaces b frames) with
    | some (i, st) => s.refuseCommit b st (if 192 ≤ b then i else frames.getD i 0)
    | none =>
      let s := (s.setBatState b 2).plPut (s.batchAddr b + 2) 1 0
      let s := s.modPlace fun p => { p with waiting := p.waiting ++ [b] }
      s.buildWaiting s.host.place.waiting.length

/-- R295. HC_PL_CTRL with OP = 3: a sealed batch's frames are dirty again, in the groups they came from. -/
def execAbandon (batch : Fin 256) (s : State) : Result :=
  let b := batch.val
  match s.host.place.batches.find? fun x => x.batch == b with
  | none => .next s
  | some info => when ((s.batState b == 1 || s.batState b == 3) && info.entries.isEmpty) s <|
      let s := (s.batFrames b).foldl (fun (t : State) f => (t.setFrState f 1).setFrBatch f 0xFFFF) s
      let s := s.setBatState b 0
      s.modPlace fun p => { p with
        groups := p.groups ++ info.groups
        batches := p.batches.filter fun (x : BatchInfo) => x.batch != b
        tracks := p.tracks.map fun (t : Track) =>
          if t.batch = some b then { t with batch := none, frames := info.groups.flatMap (·.frames) } else t }

/-- R299. HC_PL_CTRL with OP = 6: in the limited state, `count` frames of a sealed batch become a chain of their own. -/
def execSplitCommit (batch : Fin 256) (count : Fin 65536) (s : State) : Result :=
  let b := batch.val
  let frames := s.batFrames b
  let part := frames.take count.val
  let rest := frames.drop count.val
  let limited := part.all fun f => match s.namespaceOf (keyIdx (s.frKey f) + 1) with
    | some n => n.state != 0
    | none => false
  when (decide (b < 192) && s.committable b && !part.isEmpty && limited) s <|
    match s.firstFault 0 [] (s.newPlaces b part) with
    | some (i, st) => s.refuseCommit b st (part.getD i 0)
    | none =>
      if rest = [] then
        let s := (s.setBatState b 2).plPut (s.batchAddr b + 2) 1 0
        let s := s.modPlace fun p => { p with waiting := p.waiting ++ [b] }
        s.buildWaiting s.host.place.waiting.length
      else
        let es := s.setEntries part
        if 4096 < s.jrnPending + recordsFor es.length then s.ringFull
        else
          let (_, _, s) := s.buildChain es part none
          let s := (s.plPut (s.batchAddr b + 4) 4 rest.length).plPut (s.batchAddr b + 8) 4 (rest.headD 0xFFFFFFFF)
          s.setBatState b 1

/-! ## Application of chains (R296) -/

/-- A valid count moved by one. -/
def State.validUp (s : State) (e : Nat) : State :=
  let a := s.validAddr (entBandIndex e)
  s.plPut a 2 (min 0xFFFF (memNat s a 2 + 1))
def State.validDown (s : State) (e : Nat) : State :=
  let a := s.validAddr (entBandIndex e)
  s.plPut a 2 (memNat s a 2 - 1)

/-- The medium entry that a granule had before it was cached. -/
def State.mediumBefore (s : State) (e : Nat) : Nat :=
  if entState e = 2 then ((s.host.place.before.lookup (entFrame e)).getD 0) else e

/-- A granule's old location no longer counts. -/
def State.leavePlace (s : State) (e : Nat) : State :=
  let old := s.mediumBefore e
  if entState old = 1 then s.validDown old else s

/-- A frame of a chain has a deferred apply that needs it: a write that is not write-through and touches its granule, or a
deallocate with a partial edge in it. -/
def State.wantedFrame (s : State) (f : Nat) : Bool :=
  let k := s.frKey f
  s.host.place.deferred.any fun t =>
    match s.cmdOf t with
    | some c => c.nsid == keyIdx k + 1 &&
        ((c.kind == .write && !s.writeThrough c && (touched c.slba c.nlb).contains (keyGranule k)) ||
          (c.kind == .dsm && (c.ranges.flatMap fun r => edgePieces r.1 r.2).any fun p => p.granule == keyGranule k))
    | none => false

/-- SET: the entry replaced, the valid counts moved. A frame kept for a deferred apply stays the granule's home, dirty. -/
def State.applySet (s : State) (frames : List Nat) (k v : Nat) : State :=
  match s.mapEntry (keyIdx k) (keyGranule k) with
  | none => s
  | some e =>
    let s := s.leavePlace e
    let s := if entState v = 1 then s.validUp v else s
    if entState e = 2 ∧ frames.contains (entFrame e) ∧ s.wantedFrame (entFrame e) then
      let f := entFrame e
      let s := s.putMapEntry (keyIdx k) (keyGranule k) (entCached f (entGen v))
      let s := (s.setFrState f 1).setFrBatch f 0xFFFF
      s.modPlace fun p => { p with
        before := (f, v) :: p.before.filter fun (y : Nat × Nat) => y.1 != f
        groups := p.groups ++ [⟨s.now, [f]⟩] }
    else s.putMapEntry (keyIdx k) (keyGranule k) v

/-- TRIM: entries unmapped with their generation kept. -/
def State.applyTrims (s : State) (idx g n : Nat) : State :=
  (List.range n).foldl (fun (t : State) i =>
    match t.mapEntry idx (g + i) with
    | some e => (t.leavePlace e).putMapEntry idx (g + i) (entUnmapped e)
    | none => t) s

/-- MOVE: only where the entry is STATE 1 with that generation. -/
def State.applyMove (s : State) (k v : Nat) : State :=
  match s.mapEntry (keyIdx k) (keyGranule k) with
  | none => s
  | some e =>
    if entState e = 1 ∧ entGen e = entGen v then ((s.validDown e).validUp v).putMapEntry (keyIdx k) (keyGranule k) v else s

/-- The first offset in the map tables at which n granules lie free of every namespace's table. -/
def State.mapRoom (s : State) (n : Nat) : Option Nat :=
  let used := s.host.namespaces.toList.filterMap fun x => x.map fun x => (x.mapOfs, x.mapOfs + 8 * x.granules)
  let starts := 0 :: used.map (·.2)
  starts.find? fun a => decide (a + 8 * n ≤ s.plMapBytes) && used.all fun u => decide (a + 8 * n ≤ u.1) || decide (u.2 ≤ a)

/-- The directory entry of a namespace slot (log entry 47). -/
def State.putDirectory (s : State) (idx : Nat) : State :=
  match s.namespaceOf (idx + 1) with
  | some n => s.memWrite 4 (s.dirAddr idx) (natBytes 8 n.mapOfs ++ natBytes 8 n.granules ++ [n.mode] ++ List.replicate 15 0)
  | none => s.memWrite 4 (s.dirAddr idx) (List.replicate 32 0)

/-- NSOP: the directory and the map table updated. The size in blocks and the state of a new namespace come from the
command that waits for this chain, or from the granule count (log entry 47). -/
def State.applyNsop (s : State) (size : Option Nat) (idx v : Nat) : State :=
  let granules := natBits v 33 4
  let mode := natBits v 3 2
  let fresh := if s.flag R.HC_PL_STATUS F.HC_PL_STATUS_REPLAY then 1 else 0
  match v % 4 with
  | 0 =>
    match s.mapRoom granules with
    | none => s
    | some ofs =>
      let n : Namespace :=
        { granules := granules, mode := mode, state := fresh, changedAt := s.stamp .host, mapOfs := ofs
          size := size.getD (16 * granules), attached := [] }
      let s := (s.setNamespace idx (some n)).putDirectory idx
      ((List.range granules).foldl (fun (t : State) g => t.plPut (t.mapAddr ofs g) 8 0) s).nsChanged (idx + 1)
  | 1 =>
    match s.namespaceOf (idx + 1) with
    | none => s
    | some n => (((s.applyTrims idx 0 n.granules).setNamespace idx none).putDirectory idx).nsChanged (idx + 1)
  | 2 =>
    match s.namespaceOf (idx + 1) with
    | none => s
    | some n =>
      let s := s.applyTrims idx 0 n.granules
      ((s.setNamespace idx (some { n with mode := mode })).putDirectory idx).nsChanged (idx + 1)
  | _ => s

/-- One journal entry applied (Table 13-8). A DEFECT's key fills the bits that hold KIND in the others: an entry with
VALUE 0 is a DEFECT (log entry 48). -/
def State.applyEntry (s : State) (frames : List Nat) (size : Option Nat) (e : Nat × Nat) : State :=
  match if e.2 = 0 then 4 else keyKind e.1 with
  | 0 => s.applySet frames e.1 e.2
  | 1 => s.applyTrims (keyIdx e.1) (keyGranule e.1) (e.2 % 2 ^ 32)
  | 2 => s.applyMove e.1 e.2
  | 3 => s.applyNsop size (keyIdx e.1) e.2
  | _ => s.modPlace fun p => { p with defects := p.defects ++ [e.1] }

/-- The entries of a record in the ring. -/
def State.recordEntries (s : State) (seq : Nat) : List (Nat × Nat) :=
  let a := s.ringAddr seq
  (List.range (min 252 (memNat s (a + 16) 2))).map fun i => (memNat s (a + 64 + 16 * i) 8, memNat s (a + 72 + 16 * i) 8)

/-- A frame of an applied chain: freed where no command names it, else once none does; one kept for a deferred apply has
become dirty (R296). -/
def State.settleFrame (s : State) (f : Nat) : State :=
  if s.frState f = 1 then s
  else if s.frRefs f = 0 then s.freeFrame f
  else (s.setFrState f 2).setFrBatch f 0xFFFF

/-- Tracks whose frames and batch are on the medium end: their held completions are released, but for a command whose
completion is decided already. -/
def State.endTracks (s : State) (frames : List Nat) (batch : Option Nat) : State :=
  let s := s.modPlace fun p => { p with tracks := p.tracks.map fun (t : Track) => { t with
    frames := t.frames.filter fun (f : Nat) => !frames.contains f
    batch := if t.batch.isSome && t.batch == batch then none else t.batch } }
  let ended := s.host.place.tracks.filter fun t => t.frames.isEmpty && t.batch.isNone
  let s := s.modPlace fun p => { p with tracks := p.tracks.filter fun (t : Track) => !(t.frames.isEmpty && t.batch.isNone) }
  let s := ended.foldl (fun (t : State) (x : Track) =>
    match t.cmdOf x.stamp with
    | some c => t.conclude c.stamp 0 ((c.accepted.map (·.dw0)).getD 0)
    | none => t) s
  s.decideFlushes

/-- A chain whose END record is durable is applied: entries, frames, tracks, its batch (R296). -/
def State.applyChain (s : State) (first last : Nat) : State :=
  let c := s.host.place.chains.find? fun x => x.first == first
  let frames := (c.map (·.frames)).getD []
  let batch := c.bind (·.batch)
  let size := (s.host.place.tracks.find? fun t => t.batch.isSome && t.batch == batch).bind fun t => (s.cmdOf t.stamp).map (·.nlb)
  let entries := (List.range (last + 1 - first)).flatMap fun i => s.recordEntries (first + i)
  let s := entries.foldl (fun (t : State) e => t.applyEntry frames size e) s
  let s := frames.foldl (fun (t : State) f => t.settleFrame f) s
  let s := match batch with
    | some b => s.setBatState b 0
    | none => s
  let s := s.modPlace fun p => { p with
    applied := last
    chains := p.chains.filter fun (x : Chain) => x.first != first
    batches := p.batches.filter fun (x : BatchInfo) => some x.batch != batch }
  s.endTracks frames batch

/-- A record passes the checks of replay (R298). -/
def State.recordGood (s : State) (seq chain : Nat) : Bool :=
  let a := s.ringAddr seq
  let b := (List.range 4096).map fun i => (s.memByte (a + i)).toNat
  decide (fieldAt b 0 8 = seq) && decide (fieldAt b 20 8 = chain) && decide (fieldAt b 16 2 ≤ 252) &&
    decide (fieldAt b 60 4 = crc32c (b.take 60 ++ b.drop 64))

/-- The chain that starts at a sequence: its last sequence once END is at or below `dur`, or that a record fails. -/
def State.chainFrom (s : State) (first dur : Nat) : Nat → Nat → Option (Option Nat)
  | 0, _ => none
  | fuel + 1, seq =>
    if dur < seq then none
    else if !s.recordGood seq first then some none
    else if testBitN (memNat s (s.ringAddr seq + 18) 1) 0 then some (some seq)
    else s.chainFrom first dur fuel (seq + 1)

/-- The first record of a replay: the records from `dur` back that the ring holds. -/
def State.ringStart (s : State) : Nat → Nat → Nat
  | 0, seq => seq
  | fuel + 1, seq => if 1 < seq ∧ memNat s (s.ringAddr (seq - 1)) 8 = seq - 1 then s.ringStart fuel (seq - 1) else seq

/-- The directory as a loaded checkpoint left it becomes the assist's own (R297, log entry 47). -/
def State.readDirectory (s : State) : State :=
  (List.range 16).foldl (fun (t : State) i =>
    let a := t.dirAddr i
    let granules := memNat t (a + 8) 8
    match t.namespaceOf (i + 1) with
    | some n => if granules = 0 then t.setNamespace i none else t.setNamespace i (some { n with
        granules := granules, mapOfs := memNat t a 8, mode := memNat t (a + 16) 1 % 4
        size := if n.granules = granules then n.size else 16 * granules })
    | none => if granules = 0 then t else t.setNamespace i (some
        { granules := granules, mode := memNat t (a + 16) 1 % 4, state := 1, changedAt := t.stamp .host
          mapOfs := memNat t a 8, size := 16 * granules, attached := [] })) s

/-- R296, R298. The next chain in sequence order whose END record is durable is applied; in replay each record is checked,
and the first that fails ends it at the last complete chain. -/
def execChainApply (s : State) : Result :=
  let dur := s.jrnDur
  let p := s.host.place
  if s.flag R.HC_PL_STATUS F.HC_PL_STATUS_REPLAY then
    let first := if p.applied = 0 then s.ringStart 4095 dur else p.applied + 1
    when (!p.ended && decide (first ≤ dur) && decide (0 < dur)) s <|
      let s := if p.applied = 0 then s.readDirectory else s
      match s.chainFrom first dur 4096 first with
      | none => s
      | some none => s.modPlace fun p => { p with ended := true }
      | some (some last) => (s.applyChain first last).advanceShutdown
  else
    match p.chains with
    | [] => .next s
    | c :: _ => when (decide (c.last ≤ dur)) s (s.applyChain c.first c.last).advanceShutdown

/-- R296. A write of HC_JRN_DUR: never lowered. Room in the ring lets waiting commits build. -/
def execJournalDurable (seq : Nat) (s : State) : Result :=
  let v := seq % 2 ^ 64
  when (decide (s.jrnDur ≤ v)) s <|
    let s := s.setPair R.HC_JRN_DUR_LO v
    let s := if s.jrnPending < 4096 then s.setFld R.HC_PL_STATUS F.HC_PL_STATUS_RING_FULL 0 else s
    s.buildWaiting s.host.place.waiting.length

/-- R292, R294. The deferred apply that was accepted first proceeds, once nothing holds it back. -/
def execDeferredApply (s : State) : Result :=
  match s.host.place.deferred.head?.bind s.cmdOf with
  | none => .next s
  | some c =>
    .next <| match c.kind with
      | .write => s.applyWrite c
      | .dsm => s.applyTrim c
      | _ => s.applyFormat c

/-! ## Replay (R298) -/

/-- Every namespace enters a state of log page 0xC0. -/
def State.setAllNs (s : State) (f : Namespace → Nat) : State :=
  (List.range 16).foldl (fun (t : State) i =>
    match t.namespaceOf (i + 1) with
    | some n => t.setNsState i (f n)
    | none => t) s

/-- R298. HC_PL_CTRL with OP = 4. -/
def execJournalReplayStart (s : State) : Result :=
  let s := (List.range 4096).foldl (fun (t : State) i => t.plPut (t.ringAddr i) 8 0) s
  let s := (s.setPair R.HC_JRN_DUR_LO 0).setFld R.HC_PL_STATUS F.HC_PL_STATUS_REPLAY 1
  let s := s.setFld R.HC_PL_STATUS F.HC_PL_STATUS_RING_FULL 0
  let s := s.modPlace fun p => { p with chains := [], waiting := [], nextSeq := 1, applied := 0, ended := false }
  .next (s.setAllNs fun _ => 1)

/-- A Cartridge Load under way asked for recovery (Table 12-15). -/
def State.recoveryLoad (s : State) : Bool :=
  s.host.cmds.any fun c => c.kind == .cartLoad && c.decided.isNone && testBitN (c.cdw.getD 0 0) 0

/-- R298. HC_PL_CTRL with OP = 5: namespaces leave the start-up limit, for recovery where the load asked for it. -/
def execReplayEnd (s : State) : Result :=
  when (s.flag R.HC_PL_STATUS F.HC_PL_STATUS_REPLAY) s <|
    let s := s.setFld R.HC_PL_STATUS F.HC_PL_STATUS_REPLAY 0
    let dur := s.jrnDur
    let s := s.modPlace fun p => { p with nextSeq := max dur p.applied + 1 }
    let recov := s.recoveryLoad
    s.readDirectory.setAllNs fun n => if n.state = 1 then (if recov then 3 else 0) else n.state

/-! ## A reset's discards (R277, R296) -/

/-- The uncommitted work of discarded commands is undone: private batches that no commit was accepted for are freed and
their entries restored; deferred applies end. -/
def State.discardApplies (s : State) (gone : List HostCmd) : State :=
  let stamps := gone.map (·.stamp)
  let s := s.modPlace fun p => { p with deferred := p.deferred.filter fun (t : Stamp) => !stamps.contains t }
  let mine := s.host.place.tracks.filter fun t => stamps.contains t.stamp
  mine.foldl (fun (t : State) (x : Track) =>
    match x.batch with
    | none => t
    | some b =>
      if t.batState b = 2 then t
      else
        let t := (t.batFrames b).foldl (fun (u : State) f =>
          let k := u.frKey f
          match u.host.place.before.lookup f with
          | some e => (u.putMapEntry (keyIdx k) (keyGranule k) e).freeFrame f
          | none => u.freeFrame f) t
        (t.setBatState b 0).modPlace fun p => { p with
          batches := p.batches.filter fun (y : BatchInfo) => y.batch != b
          tracks := p.tracks.filter fun (y : Track) => y.stamp != x.stamp }) s

/-! ## MM.XFER (R234, R289) -/

/-- The offsets of the placement region that MM.XFER must not write, but in replay. -/
def closedOffset (s : State) (o : Nat) : Bool :=
  o < 0x10000 || (0x400000 ≤ o && o < 0x1400000) || (0x2000000 ≤ o && o < 0x3000000) ||
    (0x8000000 ≤ o && o < 0x8000000 + 32 * s.plFrames && o % 32 < 24) ||
    (0x10000000 ≤ o && o < 0x10000000 + s.plMapBytes)

/-- A write of `len` bytes at `a` reaches a closed offset: both ends of each 8-byte word are tried. -/
def State.closedWrite (s : State) (a len : Nat) : Bool :=
  let base := s.plBase
  let size := 0x10000000 + s.plMapBytes + 65536 * s.plFrames
  !s.flag R.HC_PL_STATUS F.HC_PL_STATUS_REPLAY && decide (s.plFrames ≠ 0 ∨ s.plMapBytes ≠ 0) &&
    decide (a < base + size) && decide (base < a + len) &&
    (List.range (len / 8 + 1)).any fun i => decide (8 * i < len) &&
      [a + 8 * i, a + min (len - 1) (8 * i + 7)].any fun x => decide (base ≤ x) && closedOffset s (x - base)

/-- A transfer's outcome: result, data, and the state. -/
def State.transfer (s : State) (b : Fin 24) (fn src dst len pattern : Nat) : Nat × Nat × State :=
  let inMem (a : Nat) : Bool := decide (a + len ≤ s.memSize)
  let dstOk := fn = 0 || (inMem dst && !s.closedWrite dst len)
  let srcOk := fn = 1 || fn = 3 || inMem src
  if !(dstOk && srcOk) then (1, 0, s)
  else
    let place (a : Nat) : Option Space := match scratchAt a len with
      | .ok p => some p
      | .error _ => none
    match fn with
    | 0 =>
      let r := s.memRead 4 src len
      if r.bad = [] then
        match place dst with
        | some p => (0, 0, r.st.spaceWrite b p r.bytes)
        | none => (1, 0, r.st)
      else (2, r.bad.headD 0 - src, r.st)
    | 1 =>
      match place src with
      | some p => (0, 0, s.memWrite 4 dst (s.spaceRead b p len))
      | none => (1, 0, s)
    | 2 =>
      let r := s.memRead 4 src len
      if r.bad = [] then (0, 0, r.st.memWrite 4 dst r.bytes) else (2, r.bad.headD 0 - src, r.st)
    | _ => (0, 0, s.memWrite 4 dst ((List.replicate (len / 8) (natBytes 8 pattern)).flatten))

/-- R234, R289, R316. MM.XFER: the transfer's 24 bytes are read at issue; it completes once every write is accepted. -/
def execMmXfer (b : Fin 24) (u : Upset) (s : State) : Result :=
  s.issue b u (isOp 0x70) fun i t => t.famChecks b famMM <|
    if 3 < i.fn then .error 6
    else do
      let bytes ← t.sharedAt (t.g b i.ra) 24
      let len := fieldAt bytes 16 4
      if len % 8 ≠ 0 ∨ 2 ^ 24 < len then .error 6
      else
        t.async b i true fun w t =>
          let (result, data, t) := t.transfer b i.fn (fieldAt bytes 0 8) (fieldAt bytes 8 8) len (fieldAt bytes 0 8)
          t.complete w .device srcMemory (t.stamp .memory) result data

end Sys2Proof.Machine
end

