-- ==== Sys2Proof/Machine/HostIo.lean ====
section
/-!
DEFINITION. Machine/HostIo.lean: doorbells, data transfers, range-lock grants, work orders and their instructions (R238,
R239, R268, R271), completions and interrupts (R269), the snip window (R276), and WO.AEN (R283).
-/

namespace Sys2Proof.Machine

/-! ## Doorbells -/

/-- A queue changed. -/
def State.modSq (s : State) (fn qid : Nat) (f : SubQ → SubQ) : State :=
  s.modHost fun h => { h with sqs := h.sqs.map fun (q : SubQ) => if q.fn = fn ∧ q.qid = qid then f q else q }
def State.modCq (s : State) (fn qid : Nat) (f : CmpQ → CmpQ) : State :=
  s.modHost fun h => { h with cqs := h.cqs.map fun (q : CmpQ) => if q.fn = fn ∧ q.qid = qid then f q else q }
def State.sq (s : State) (fn qid : Nat) : Option SubQ := s.host.sqs.find? fun q => q.fn == fn && q.qid == qid
def State.cq (s : State) (fn qid : Nat) : Option CmpQ := s.host.cqs.find? fun q => q.fn == fn && q.qid == qid

/-- Doorbell writes count while the function is enabled and is not being reset (R277). -/
def State.doorbells (s : State) (fn : Nat) : Bool := s.enabled fn && (s.fnOf fn).phase != .resetting

/-- R259. A submission queue tail doorbell: a value outside the queue is ignored (log entry 51). -/
def execSqTailDoorbell (fn : Fin 2) (qid : Nat) (tail : Nat) (s : State) : Result :=
  when (s.doorbells fn.val) s (s.modSq fn.val qid fun q => if tail < q.size then { q with tail := tail } else q)

/-- R269. A completion queue head doorbell. -/
def execCqHeadDoorbell (fn : Fin 2) (qid : Nat) (head : Nat) (s : State) : Result :=
  when (s.doorbells fn.val) s (s.modCq fn.val qid fun q => if head < q.size then { q with head := head } else q)

/-! ## Data and locks -/

/-- R268. A command's host-to-controller data is in its data area: all of a Write's blocks, or up to 256 KiB. -/
def execWriteDataArrived (slot : Fin 8192) (data : List Byte) (s : State) : Result :=
  match s.cmdAt slot.val with
  | none => .next s
  | some c =>
    let fits := if c.kind = .write then decide (data.length = 4096 * c.nlb) else decide (data.length ≤ 0x40000)
    when (c.dataDue && fits) s <|
      (s.memWrite 6 (s.dataArea slot.val) (data.map (·.toNat))).modCmd c.stamp fun c => { c with dataDue := false }

/-- An unclaimed run-ahead band holds data that a Write is about to replace (R134): its discard comes first. -/
def State.runAheadUnder (s : State) (c : HostCmd) : Bool :=
  c.kind == .write && (touched c.slba c.nlb).any fun g =>
    let e := (s.mapEntry (c.nsid - 1) g).getD 0
    entState e == 1 && s.decode.runAhead.any fun r =>
      r.claim.isNone && r.head / 2 == entSurface e && r.layer == entLayer e && r.band == entBand e

/-- R271. A request in the table is granted once no conflicting request with an earlier fetch stamp is in the table. -/
def execRangeLockGrant (slot : Fin 8192) (idx : Nat) (s : State) : Result :=
  match s.cmdAt slot.val, (s.host.locks.filter fun r => r.slot == slot.val)[idx]? with
  | some c, some r =>
    let waits := s.host.locks.any fun x => decide (x.stamp < r.stamp) && x.conflicts r
    when (!r.granted && !waits && !s.runAheadUnder c) s <|
      s.modHost fun h => { h with locks := h.locks.map fun (x : LockReq) => if x = r then { x with granted := true } else x }
  | _, _ => .next s

/-! ## Work orders -/

/-- KIND of a work order (Table 10-12); none for a command the host island carries out. -/
def CmdKind.orderKind : CmdKind → Option Nat
  | .read => some 1 | .write => some 2 | .flush => some 3 | .verify => some 4 | .dsm => some 5 | .format => some 6
  | .seqCall => some 7 | .cartLoad => some 8 | .cartRelease => some 9 | .mediumHealth => some 10
  | .abort | .aer | .fwCommit | .admin => none

/-- Commands that the assist looks up (R291). -/
def CmdKind.looksUp : CmdKind → Bool
  | .read | .verify | .write | .dsm => true
  | _ => false

/-- The condition of Table 12-9. -/
def State.orderDue (s : State) (c : HostCmd) : Bool :=
  c.decided.isNone && c.order == .notIssued && c.kind.orderKind.isSome && s.locksGranted c.stamp && !c.dataDue

/-- R133. A read claims the run-ahead bands that hold its granules. -/
def State.claimFor (s : State) (c : HostCmd) : State :=
  let (slba, nlb) := c.firstRange
  (touched slba nlb).foldl (fun (t : State) g =>
    let e := (t.mapEntry (c.nsid - 1) g).getD 0
    if entState e = 1 then
      match t.decode.runAhead.find? fun r =>
        r.claim.isNone && r.head / 2 == entSurface e && r.layer == entLayer e && r.band == entBand e with
      | some r => t.claimBand r c.stamp
      | none => t
    else t) s

/-- R268, R291. A command's work order enters the queue, its slot record written first; a record that cannot be read ends
the command with Internal Error (Table 14-4). -/
def execWorkOrderIssue (slot : Fin 8192) (s : State) : Result :=
  match s.cmdAt slot.val with
  | none => .next s
  | some c => when (s.orderDue c) s <|
      let (ok, s) : Bool × State := if c.kind.looksUp then s.writeSlotRecord c else (true, s)
      if !ok then s.endCommand c stInternal
      else
        let s := if c.kind = .read then s.claimFor c else s
        (s.modCmd c.stamp fun c => { c with order := .queued }).announceOrders

/-- The 64 bytes of a work order (Table 10-12). -/
def State.orderBytes (s : State) (c : HostCmd) : List Nat :=
  let k := c.kind.orderKind.getD 0
  let (slba, nlb) := c.firstRange
  let cdw := if 6 ≤ k then (c.cdw.take 4).flatMap (natBytes 4) else List.replicate 16 0
  natBytes 8 c.stamp ++ natBytes 2 c.slot ++ [k, c.fn + 2 * bitOf c.fua] ++ natBytes 4 c.nsid ++ natBytes 8 slba ++
    natBytes 4 nlb ++ natBytes 4 0 ++ natBytes 8 (s.dataArea c.slot) ++
    natBytes 8 (if c.kind.looksUp then s.slotRecAddr c.slot else 0) ++ cdw

/-- The 64 bytes of an abort notice. -/
def noticeBytes (x : Notice) : List Nat :=
  natBytes 8 x.stamp ++ natBytes 2 x.slot ++ [11, x.fn] ++ List.replicate 52 0

/-- The issued order with the lowest fetch stamp. -/
def State.nextOrder (s : State) : Option HostCmd :=
  match s.host.cmds.filter fun c => c.order == .queued with
  | [] => none
  | c :: rest => some (rest.foldl (fun (m y : HostCmd) => if y.stamp < m.stamp then y else m) c)

/-- R239. WO.GET: an abort notice first, then the oldest order, to scratch at ra; with none, pd is 0. -/
def execWoGet (b : Fin 24) (u : Upset) (s : State) : Result :=
  s.issue b u (isOp 0x74) fun i t => t.famChecks b famWO <| do
    let p ← scratchAt (t.g b i.ra) 64
    match t.host.notices with
    | x :: rest =>
      let t := (t.spaceWrite b p (noticeBytes x)).setP b i.rd true
      .ok (t.modHost fun h => { h with notices := rest }).notePause
    | [] =>
      match t.nextOrder with
      | some c =>
        let t := (t.spaceWrite b p (t.orderBytes c)).setP b i.rd true
        .ok (t.modCmd c.stamp fun c => { c with order := .taken b })
      | none => .ok ((t.setP b i.rd false).modBob b fun x => { x with wantsOrder := true })

/-- What a program's success does, by the command (R268, R273, R292, R296). -/
def State.orderSucceeds (s : State) (c : HostCmd) (dw0 : Nat) : State :=
  let s := s.modCmd c.stamp fun c => { c with accepted := some ⟨dw0⟩ }
  match c.kind with
  | .write => (s.modHost fun h => { h with writes := h.writes + 1, blocksWritten := h.blocksWritten + c.nlb }).applyWrite c
  | .dsm => s.applyTrim c
  | .format => s.applyFormat c
  | .flush => s.decideFlushes
  | .read => (s.modHost fun h => { h with reads := h.reads + 1, blocksRead := h.blocksRead + c.nlb }).conclude c.stamp 0 dw0
  | .cartLoad => ((s.modHost fun h => { h with loaded := true }).raiseAsync 7 0xC1 0xC1).conclude c.stamp 0 dw0
  | .cartRelease =>
    let s := (List.range 16).foldl (fun (t : State) n => t.discardHeadBands n 3) s
    ((s.modHost fun h => { h with loaded := false }).raiseAsync 7 0xC1 0xC1).conclude c.stamp 0 dw0
  | .mediumHealth =>
    let head := (List.range 64).map fun k => (s.memByte (s.dataArea c.slot + k)).toNat
    let s := if c.cdw.getD 0 0 % 16 = 0 then s.modHost fun h => { h with health := head, healthAt := s.now } else s
    s.conclude c.stamp 0 dw0
  | _ => s.conclude c.stamp 0 dw0

/-- R239. A completion request: stale where the slot holds no order that a bobbin has taken and no completion has ended
(log entry 52), and where a snip request accepted before it has found the command (R276). The status is bits [15:1] of the field, bit 0 being the phase tag's place (log entry 53). -/
def State.orderDone (s : State) (slot field dw0 : Nat) : Bool × State :=
  match s.cmdAt slot with
  | none => (true, s)
  | some c =>
    let taken := match c.order with
      | .taken _ => true
      | _ => false
    if c.decided.isSome || !taken || s.snipHeld c.stamp then (true, s)
    else
      let s := s.modCmd c.stamp fun c => { c with order := .returned }
      let st := field / 2 % 2048
      if st = 0 then (false, (s.orderSucceeds c dw0).advanceShutdown)
      else
        let s := if st = stUnrecovered then s.modHost fun h => { h with mediaErrors := h.mediaErrors + 1 } else s
        (false, (s.conclude c.stamp st dw0).decideFlushes)

/-- R239. WO.DONE: rd is 0 for accepted, 1 for stale. -/
def execWoDone (b : Fin 24) (u : Upset) (s : State) : Result :=
  s.issue b u (isOp 0x75) fun i t => t.famChecks b famWO <| do
    let p ← scratchAt (t.g b i.ra) 16
    let bytes := t.spaceRead b p 16
    let (stale, t) := t.orderDone (fieldAt bytes 0 2) (fieldAt bytes 2 2) (fieldAt bytes 4 4)
    .ok (t.setG b i.rd (bitOf stale))

/-- R283. WO.AEN: an asynchronous event under the rules of the host's own. -/
def execWoAen (b : Fin 24) (u : Upset) (s : State) : Result :=
  s.issue b u (isOp 0x76) fun i t => t.famChecks b famWO <|
    let v := t.g b i.ra
    .ok (t.raiseAsync (v % 256) (v / 2 ^ 8 % 256) (v / 2 ^ 16 % 256))

/-! ## Completions -/

/-- How a command's returned data reach the host (R268): the bytes, whether all were good, and the state. -/
def State.returnData (s : State) (c : HostCmd) (d : Decision) : List Nat × Bool × State :=
  match c.kind with
  | .read =>
    let r := s.memRead 6 (s.dataArea c.slot) (4096 * c.nlb)
    (r.bytes, r.bad.isEmpty, r.st)
  | .seqCall | .mediumHealth =>
    if c.hasPtr then
      let (v, s) := s.draw
      let r := s.memRead 6 (s.dataArea c.slot) (min 0x40000 (Config.returnedBytes v))
      (r.bytes, r.bad.isEmpty, r.st)
    else ([], true, s)
  | _ => (d.bytes, true, s)

/-- The interrupt of a completion: at once, or held while coalescing gathers completions (R263, R269). -/
def State.interrupt (s : State) (fn : Nat) (q : CmpQ) : State :=
  if !q.ien then s
  else
    let f := s.feature fn 8 0
    let thr := f % 256
    let time := f / 256 % 256
    if q.qid = 0 ∨ time = 0 ∨ testBitN (s.feature fn 9 q.iv) 16 then s.sendVector (fnFin fn) q.iv
    else if thr < q.heldN + 1 then (s.sendVector (fnFin fn) q.iv).modCq fn q.qid fun x => { x with heldN := 0 }
    else s.modCq fn q.qid fun x => { x with heldN := x.heldN + 1, heldSince := if x.heldN = 0 then s.now else x.heldSince }

/-- The dwords of a completion queue entry: DNR is 0 with success, Namespace Not Ready and No Cartridge (R282). -/
def cqeDwords (dw0 sqhd sqid cid status : Nat) (phase : Bool) : List Nat :=
  let dnr := !(status == 0 || status == stNotReady || status == stNoCartridge)
  [dw0 % 2 ^ 32, 0, sqhd % 65536 + sqid * 65536, cid % 65536 + bitOf phase * 2 ^ 16 + status * 2 ^ 17 + bitOf dnr * 2 ^ 31]

/-- Abort commands whose target has completed (R276). -/
def State.finishAborts (s : State) (t : Stamp) : State :=
  (s.host.cmds.filter fun c => c.kind == .abort && c.decided.isNone && (c.target.map (·.1)) == some t).foldl
    (fun (u : State) (c : HostCmd) => u.conclude c.stamp 0 (if (c.target.map (·.2)) = some true then 0 else 1)) s

/-- A command that has left: its locks, its frames, its slot. -/
def State.retire (s : State) (c : HostCmd) : State :=
  let s := ((s.dropNamed c).dropCommit c.stamp).releaseLocks c.stamp
  s.modHost fun h => { h with cmds := h.cmds.filter fun (x : HostCmd) => x.stamp != c.stamp }

/-- R269. The completion in a slot is posted: it is the first decided of its completion queue, the queue has room, and no snip
request that found the command waits for its resolution (R276). Its data go first, then the entry, then the interrupt; then its locks and its slot are free. -/
def execCompletionPost (slot : Fin 8192) (s : State) : Result :=
  match s.cmdAt slot.val with
  | none => .next s
  | some c =>
    match c.decided, s.cq c.fn c.cqid with
    | some d, some q =>
      let mine (x : HostCmd) : Bool := x.fn == c.fn && x.cqid == c.cqid
      let first := s.host.cmds.all fun x => !mine x || match x.decided with
        | some y => decide (d.seq ≤ y.seq)
        | none => true
      when (first && decide ((q.tail + 1) % q.size ≠ q.head) && !s.snipHeld c.stamp) s <|
        let (bytes, ok, s) : List Nat × Bool × State := if d.status = 0 then s.returnData c d else ([], true, s)
        let (status, s) : Nat × State := if ok then (d.status, s) else (stInternal, s.recordError c stInternal 0)
        let s := if ok && !bytes.isEmpty then { s with out := .hostData c.fn c.sqid c.cid bytes :: s.out } else s
        let sqhd := ((s.sq c.fn c.sqid).map (·.head)).getD 0
        let s := { s with out := .cqe c.fn c.cqid q.tail (cqeDwords d.dw0 sqhd c.sqid c.cid status q.phase) :: s.out }
        let next := (q.tail + 1) % q.size
        let s := s.modCq c.fn c.cqid fun x => { x with tail := next, phase := if next = 0 then !x.phase else x.phase }
        let s := s.interrupt c.fn q
        let s := ((s.retire c).finishAborts c.stamp).decideFlushes
        s.notePause.advanceShutdown
    | _, _ => .next s

/-- R269. The aggregation time of a completion queue runs out: its held interrupt is sent. -/
def execInterruptCoalescingTime (fn : Fin 2) (qid : Nat) (s : State) : Result :=
  match s.cq fn.val qid with
  | none => .next s
  | some q =>
    let time := s.feature fn.val 8 0 / 256 % 256
    when (decide (q.heldN ≠ 0) && decide (q.heldSince + time * 150000 ≤ s.now)) s <|
      (s.sendVector fn q.iv).modCq fn.val qid fun x => { x with heldN := 0 }

/-- R282. A PCIe error on a command's DMA: Data Transfer Error in place of what it would have posted. -/
def execPcieDmaError (slot : Fin 8192) (s : State) : Result :=
  match s.cmdAt slot.val with
  | none => .next s
  | some c =>
    match c.decided with
    | none => when c.hasPtr s (s.endCommand c stTransfer)
    | some d => when (c.hasPtr && decide (d.status = 0)) s <|
        (s.recordError c stTransfer 0).modCmd c.stamp fun c => { c with decided := some { d with status := stTransfer, bytes := [] } }

/-! ## The snip window (R276) -/

/-- R274, R276. A write of SNIP_CMD: a request that finds its target as it stands at this stamp, or one dropped with the queue
full. -/
def execSnipRequest (fn : Fin 2) (sqid cid : Fin 65536) (s : State) : Result :=
  .next <|
    if 64 ≤ (s.fnOf fn.val).snips.length then
      (s.bump (fnKey fn.val R.SNIP_STATUS) F.SNIP_STATUS_DROPPED 1).logHost fn.val 0x7004 fn.val sqid.val cid.val
    else
      let (found, c) := s.abortLook fn.val sqid.val cid.val
      s.modFn fn.val fun f => { f with
        snips := f.snips ++ [⟨sqid.val, cid.val, s.stamp .host, c.map fun x => (x.stamp, x.slot), found.code⟩] }

/-- R275, R276. The oldest request of a function's snip queue is resolved: a target that it found without a result is aborted,
in place of a result decided after the request's stamp. -/
def execSnipResolve (fn : Fin 2) (s : State) : Result :=
  match (s.fnOf fn.val).snips with
  | [] => .next s
  | x :: rest =>
    let s := s.modFn fn.val fun f => { f with snips := rest }
    let k := fnKey fn.val R.SNIP_STATUS
    let s := (s.setFld k F.SNIP_STATUS_RESULT x.result).setFld k F.SNIP_STATUS_SLOT ((x.target.map (·.2)).getD 0)
    .next <| match (x.target.map (·.1)).bind s.cmdOf with
    | some c =>
      if x.result ≠ 0 ∨ (c.decided.map (·.status)) = some stAborted then s
      else
        let s := if c.decided.isNone then s.endCommand c stAborted
          else s.modCmd c.stamp fun c => { c with decided := c.decided.map fun d => { d with status := stAborted, dw0 := 0, bytes := [] } }
        s.bump (fnKey fn.val R.HC_ABORT_CNT) F.HC_ABORT_CNT_SNIPPED 1
    | none => s

end Sys2Proof.Machine
end

