-- ==== Sys2Proof/Machine/ControlStore.lean ====
section
/-!
DEFINITION. Machine/ControlStore.lean: patches and their match sets (R244 to R249), machine checks (R250 to R252), the
test write (R255), and the distribution errors that can raise a machine check (R23).
-/

namespace Sys2Proof.Machine

/-! ## Patch images (R247, R248) -/

/-- A patch bank with nothing in it. -/
def PatchBank.empty : PatchBank := ⟨0, [], []⟩

/-- The fields of an image (Table 11-3). -/
structure PatchImage where
  format  : Nat
  romId   : Nat
  version : Nat
  nWords  : Nat
  nMatch  : Nat
  rest    : List Nat
  entries : List Nat
  micro   : List Nat
  deriving DecidableEq, Repr

/-- An image read from its bytes. -/
def parsePatch (b : List Nat) : PatchImage :=
  let w := fieldAt b 12 2
  let m := fieldAt b 14 2
  { format := fieldAt b 0 4, romId := fieldAt b 4 4, version := fieldAt b 8 4, nWords := w, nMatch := m
    rest := (b.drop 16).take 48
    entries := (List.range (min m 32)).map fun (k : Nat) => fieldAt b (64 + 4 * k) 4
    micro := (List.range (min w 1024)).map fun (k : Nat) => fieldAt b (64 + 4 * m + 8 * k) 8 }

/-- A match entry's fields. -/
def matchEnabled (e : Nat) : Bool := testBitN e 31
def matchRom (e : Nat) : Nat := natBits e 23 10
def matchWord (e : Nat) : Nat := natBits e 9 0

/-- A micro-word's SEQ and NEXT (Table 11-2). -/
def microSeq (w : Nat) : Nat := natBits w 62 60
def microNext (w : Nat) : Nat := natBits w 56 42

/-- The first index of a list where a test holds. -/
def firstIndex {α : Type} (p : α → Bool) (l : List α) : Option Nat :=
  ((indexed l).find? fun e => p e.2).map (·.1)

/-- An enabled entry names the ROM address of an enabled one before it. -/
def duplicateAt (es : List Nat) : Option Nat :=
  firstIndex (fun (x : Nat × Nat) => matchEnabled x.2 &&
    (es.take x.1).any fun y => matchEnabled y && matchRom y == matchRom x.2) (indexed es)

/-- Why an image is refused: the check that fails and the index, in the order of event 0x6011's causes (R248). -/
def PatchImage.refusal (romId : Nat) (p : PatchImage) : Option (Nat × Nat) :=
  if p.format ≠ 1 then some (0, 0)
  else if p.romId ≠ romId then some (1, 0)
  else if 1024 < p.nWords ∨ 32 < p.nMatch then some (2, 0)
  else if p.rest.any (· ≠ 0) then some (3, 0)
  else match firstIndex (fun e => natBits e 30 24 ≠ 0) p.entries with
    | some k => some (3, k)
    | none => match firstIndex (fun e => p.nWords ≤ matchWord e) p.entries with
      | some k => some (4, k)
      | none => match duplicateAt p.entries with
        | some k => some (5, k)
        | none => match firstIndex (fun w => 0x4000 + p.nWords ≤ microNext w) p.micro with
          | some k => some (6, k)
          | none => (firstIndex (fun w => microSeq w == 7) p.micro).map fun k => (7, k)

/-- The parity bits of a micro-word: bit i is the even parity of byte i (R245). -/
def microParity (w : Nat) : Nat :=
  (List.range 8).foldl (fun a (i : Nat) => a + popCount 8 (w / 2 ^ (8 * i)) % 2 * 2 ^ i) 0

/-- A word as it stands in a bank: NEXT relocated, parity computed (R248). -/
def relocated (bank w : Nat) : Nat :=
  let w := if bank = 1 ∧ 0x4000 ≤ microNext w then w + 0x400 * 2 ^ 42 else w
  w + microParity w * 2 ^ 64

/-- What a bank holds after a load. -/
def PatchImage.bank (p : PatchImage) (bank : Nat) : PatchBank :=
  { version := p.version, words := p.micro.map (relocated bank), matchSet := p.entries }

/-! ## Banks -/

/-- The active bank (CS_STATUS.BANK). -/
def State.activeBank (s : State) : Nat := s.fld R.CS_STATUS F.CS_STATUS_BANK

/-- A bank set. -/
def State.setBankOf (s : State) (k : Nat) (p : PatchBank) : State :=
  { s with seq := { s.seq with banks := s.seq.banks.set (k % 2) p (Nat.mod_lt _ (by decide)) } }

/-- A bank's contents. -/
def State.bankOf (s : State) (k : Nat) : PatchBank := s.seq.banks[k % 2]

/-- CS_STATUS.MATCHES, CS_PATCH_VER and CS_MATCH show the active bank. -/
def State.showBank (s : State) : State :=
  let p := s.bankOf s.activeBank
  let s := s.setFld R.CS_STATUS F.CS_STATUS_MATCHES (p.matchSet.filter matchEnabled).length
  let s := s.setReg R.CS_PATCH_VER (BitVec.ofNat 32 p.version)
  (List.range 32).foldl (fun t (k : Nat) => t.setReg (R.CS_MATCH k) (BitVec.ofNat 32 (p.matchSet.getD k 0))) s

/-- R249. The pending patch becomes active, unless a machine check is in force: banks and match sets change places. -/
def State.activatePatch (s : State) : State :=
  if !s.flag R.CS_STATUS F.CS_STATUS_PENDING || s.mcActive then s
  else
    let k := 1 - s.activeBank
    let s := (s.setFld R.CS_STATUS F.CS_STATUS_BANK k).setFld R.CS_STATUS F.CS_STATUS_PENDING 0
    s.showBank.logSeq 0x6012 k (s.bankOf k).version

/-- A verified image reaches the inactive bank (R248). -/
def State.loadPatch (s : State) (image : List Nat) : State :=
  let p := parsePatch image
  let k := 1 - s.activeBank
  match p.refusal (s.reg R.CS_ROM_ID).toNat with
  | some (check, idx) =>
    ((s.setBankOf k PatchBank.empty).setFld R.CS_STATUS F.CS_STATUS_PENDING 0).logSeq 0x6011 p.version check idx
  | none =>
    ((s.setBankOf k (p.bank k)).setFld R.CS_STATUS F.CS_STATUS_PENDING 1).logSeq 0x6010 k p.version p.nWords p.nMatch

/-- R248. A verified patch image is loaded into the inactive bank, or refused whole. -/
def execPatchLoad (image : List Byte) (s : State) : Result := .next (s.loadPatch (image.map (·.toNat)))

/-- The recorded micro-address lay in patch RAM (R254). -/
def State.uaddrInPatch (s : State) : Bool :=
  let a := s.fld R.CS_MC_ADDR F.CS_MC_ADDR_UADDR
  0x4000 ≤ a && a ≤ 0x47FF

/-- R254 step 1. The active patch, verified again, is loaded into the active bank; an image that failed its verification
(none) or the checks of R248 leaves ROM alone. -/
def State.reloadPatch (s : State) (image : Option (List Nat)) : State :=
  let k := s.activeBank
  let good := match image with
    | some b => ((parsePatch b).refusal (s.reg R.CS_ROM_ID).toNat).isNone
    | none => false
  if good then (s.setBankOf k ((parsePatch (image.getD [])).bank k)).showBank
  else
    let v := (s.bankOf k).version
    ((s.setBankOf k PatchBank.empty).showBank).logSeq 0x6013 v

/-! ## Machine checks -/

/-- A bobbin is served by the micro-engine. -/
def State.served (s : State) (b : Fin 24) : Bool := (s.bob b).st != .halted && (s.bob b).st != .exception

/-- An enabled entry of the active match set redirects fetches from a ROM address, so its word is never read (R246). -/
def State.redirected (s : State) (uaddr : Nat) : Bool :=
  uaddr < 0x4000 && (s.bankOf s.activeBank).matchSet.any fun (e : Nat) => matchEnabled e && matchRom e == uaddr

/-- R245, R252. A micro-word that bobbin b fetches at `uaddr` fails parity, or lies outside the control store. `mask` names
the bytes of the stored word that fail; the fault of parity bit 0 that CS_TEST armed there joins them and is used up (R255). -/
def execControlStoreParityError (b : Fin 24) (uaddr : Fin 32768) (mask : Fin 256) (s : State) : Result :=
  when (s.served b && !s.redirected uaddr.val) s <|
    let armed := s.seq.inject == some uaddr.val
    let s := { s with seq := { s.seq with inject := if armed then none else s.seq.inject } }
    s.machineCheck .parity (some b) uaddr.val (if armed then mask.val ^^^ 1 else mask.val)

/-- R250, R252. Bobbin b's count since its last safe point reaches 257 at `uaddr`. -/
def execSafePointOverrun (b : Fin 24) (uaddr : Fin 32768) (s : State) : Result :=
  when (s.served b) s (s.machineCheck .safePoint (some b) uaddr.val 0)

/-- R255. A write of CS_TEST: it arms a parity fault on a ROM address while the debug unlock is in force. -/
def execCsTestWrite (rom : Fin 16384) (s : State) : Result :=
  .next <| if testBitN (s.fld R.SEC_STATUS F.SEC_STATUS_DBG) 1 then { s with seq := { s.seq with inject := some rom.val } }
    else s.logSeq 0x6014

/-- R254. A write of CS_MC_ADDR.CLEAR. -/
def execMcAddrClear (s : State) : Result := .next (s.setReg R.CS_MC_ADDR 0)

/-! ## Distribution errors (R23) -/

/-- The event source of an island. -/
def islandSrc : Island → Nat
  | .head n => n.val | .decode => srcDecode | .memory => srcMemory | .host => srcHost 0
  | .control => srcSeq | .motor => srcMotor | .security => srcSec

/-- An island's ticks per cycle, rounded up. -/
def islandCycle (i : Island) : Nat := ceilDiv (islandCycle8 i) 8

/-- The value an island compares its sample with: its own last substitute where the last sample was bad as well. -/
def distBase (s : State) (isl : Island) (prev : Nat) : Nat × Nat :=
  match s.time.dist.lookup (islandBit isl) with
  | some d => if d.run ≠ 0 ∧ s.now ≤ d.tick + islandCycle isl then (d.used, d.run) else (prev, 0)
  | none => (prev, 0)

/-- R23. An island samples the time base: `prev` is the value it took before. An advance outside 0 to its ticks per cycle
rounded up plus 1 is a distribution error, and the fourth in a row a stamp fault. -/
def execDistributionError (isl : Island) (prev sample : Nat) (s : State) : Result :=
  let (base, run) := distBase s isl prev
  when (decide (sample < base) || decide (base + islandCycle isl + 1 < sample)) s <|
    let used := base + (openRound (islandCycle8 isl) 8).toNat
    let others := s.time.dist.filter fun (e : Nat × DistState) => e.1 != islandBit isl
    let d : DistState := ⟨s.now, used, run + 1⟩
    let s := { s with time := { s.time with dist := (islandBit isl, d) :: others } }
    let s := s.bump R.TB_FAULT_CNT F.TB_FAULT_CNT_DIST_ERR_CNT 1
    let s := s.setFld R.TB_STATUS F.TB_STATUS_DIST_ERR_SEEN 1
    let s := s.log (islandSrc isl) isl 0x9012 (islandSrc isl) sample
    if run + 1 ≠ 4 then s
    else
      let w := (s.reg R.TB_STAMP_FAULT).toNat
      let s := s.setReg R.TB_STAMP_FAULT (BitVec.ofNat 32 (setBitN w (islandBit isl)))
      match isl with
      | .head n => (s.leaveService n .stampFault (s.stamp (.head n)) true).logHead n 0x9013
      | _ => s.machineCheck .stampFault none 0 0

end Sys2Proof.Machine
end

