-- ==== Sys2Proof/Machine/Security.lean ====
section
/-!
DEFINITION. Machine/Security.lean: boot flash and its directories (R331), signed objects and packages (R332, R333, R338),
the fuses (R334, R335), boot verification (R336, R337), the debug unlock (R344), and the SPDM responder (R342, R343).
-/

namespace Sys2Proof.Machine

/-- The security island changed. -/
def State.modSec (s : State) (f : SecState → SecState) : State := { s with sec := f s.sec }

/-- An event of the security island. -/
def State.logSec (s : State) (code : Nat) (a0 a1 a2 a3 : Nat := 0) : State := s.log srcSec .security code a0 a1 a2 a3

/-! ## Boot flash (R331) -/

/-- An erased byte of flash. -/
def erasedByte : Nat → Byte := fun _ => 0xFF

/-- Flash bytes. -/
def State.flashRead (s : State) (a n : Nat) : List Nat := (List.range n).map fun i => (storeGet erasedByte (a + i) s.sec.flash).toNat
def State.flashWrite (s : State) (a : Nat) (bytes : List Nat) : State :=
  s.modSec fun x => { x with flash := putBytes erasedByte a bytes x.flash }

/-- Where a firmware slot starts, and what it holds at most. -/
def slotBase (slot : Nat) : Nat := if slot = 2 then 0x2100000 else 0x100000
def slotBytes : Nat := 0x2000000

/-- A directory copy. -/
structure Directory where
  copy   : Nat
  seq    : Nat
  active : Nat
  next   : Nat
  len1   : Nat
  len2   : Nat
  deriving DecidableEq, Repr

/-- A copy, if its CRC holds. -/
def State.readDir (s : State) (copy : Nat) : Option Directory :=
  let b := s.flashRead (0x1000 * copy) 4096
  if fieldAt b 4092 4 = crc32c (b.take 4092) then
    some { copy := copy, seq := fieldAt b 0 8, active := fieldAt b 8 1, next := fieldAt b 9 1, len1 := fieldAt b 12 4, len2 := fieldAt b 16 4 }
  else none

/-- The ruling directory: the valid copy with the higher SEQ. -/
def State.directory (s : State) : Option Directory :=
  match s.readDir 0, s.readDir 1 with
  | some a, some b => some (if a.seq < b.seq then b else a)
  | some a, none => some a
  | none, b => b

/-- A directory's package length of a slot. -/
def Directory.len (d : Directory) (slot : Nat) : Nat := if slot = 2 then d.len2 else d.len1
def Directory.setLen (d : Directory) (slot n : Nat) : Directory := if slot = 2 then { d with len2 := n } else { d with len1 := n }

/-- A directory written: the other copy, with SEQ + 1. -/
def State.writeDir (s : State) (d : Directory) : State :=
  let body := natBytes 8 (d.seq + 1) ++ [d.active, d.next, 0, 0] ++ natBytes 4 d.len1 ++ natBytes 4 d.len2 ++ List.replicate 4072 0
  s.flashWrite (0x1000 * (1 - d.copy)) (body ++ natBytes 4 (crc32c body))

/-- The directory that stands in for none: nothing active, written to copy A next (log entry 55). -/
def noDirectory : Directory := { copy := 1, seq := 0, active := 0, next := 0, len1 := 0, len2 := 0 }

/-! ## Objects (R332, R333) -/

/-- Bytes as SHA-384 takes them. -/
def toBytes (l : List Nat) : List Byte := l.map (BitVec.ofNat 8)

/-- What an object is read from: its header and its payload. -/
structure SignedObj where
  header  : List Nat
  payload : List Nat
  deriving DecidableEq, Repr

def SignedObj.type (o : SignedObj) : Nat := fieldAt o.header 4 1
def SignedObj.keySlot (o : SignedObj) : Nat := fieldAt o.header 5 1
def SignedObj.svn (o : SignedObj) : Nat := fieldAt o.header 8 4
def objLength (header : List Nat) : Nat := fieldAt header 12 4

/-- The greatest and the least payload of a type: the configuration record and a list for BOOT, the largest patch image,
256 KiB of program, the token (R332, R338, R344). -/
def payloadFits (type len : Nat) : Bool :=
  match type with
  | 1 => 512 ≤ len && (len - 512) % 8 == 0 && len ≤ slotBytes
  | 2 => 64 ≤ len && len ≤ 8384
  | 3 => len ≤ 0x40000
  | _ => len == 96

/-- The checks of R333 in the order of event 0xA001: the first that fails. -/
def State.objectFault (s : State) (type : Nat) (o : SignedObj) : Option Nat :=
  let h := o.header
  let k := o.keySlot
  if fieldAt h 0 4 ≠ 0x53504F42 ∨ fieldAt h 4 1 ≠ type ∨ fieldAt h 6 2 ≠ 0 then some 0
  else if 4 ≤ k ∨ !testBitN (s.fld R.SEC_FUSE F.SEC_FUSE_PROGRAMMED) k ∨ testBitN (s.fld R.SEC_FUSE F.SEC_FUSE_REVOKED) k then some 1
  else if Config.sha384 (toBytes ((h.drop 64).take 96)) ≠ ((s.sec.keys[k]?).map (·.hash)).getD [] then some 2
  else if !Config.ecdsaVerifies (toBytes ((h.drop 64).take 96)) (Config.sha384 (toBytes (h.take 160))) (toBytes (h.drop 160)) then some 3
  else if o.svn < s.fld R.SEC_FUSE F.SEC_FUSE_FLOOR then some 4
  else if !payloadFits type (objLength h) then some 5
  else if Config.sha384 (toBytes o.payload) ≠ toBytes ((h.drop 16).take 48) then some 6
  else none

/-- Heads that a population of subchannels permits (Table 14-1). -/
def headsPermitted (subch : Nat) : Nat := if subch = 0 then 4 else if subch = 1 then 8 else 16

/-- The initialisation list after the configuration record. -/
def initList (payload : List Nat) : List (Nat × Nat) :=
  (List.range ((payload.length - 512) / 8)).map fun i => (fieldAt payload (512 + 8 * i) 4, fieldAt payload (516 + 8 * i) 4)

/-- Check 8 of a BOOT object (R338, R350): its format, its list, and the heads that its memory permits. -/
def bootRecordBad (payload : List Nat) : Bool :=
  fieldAt payload 0 4 != 1 ||
    (initList payload).any (fun e => decide (e.1 < 0x10000) || (decide (0x240000 ≤ e.1) && decide (e.1 < 0x280000))) ||
    decide (headsPermitted (fieldAt payload 7 1 % 4) < popCount 16 (fieldAt payload 4 2))

/-- A package as it verified: its BOOT, PATCH and PROG objects. -/
structure Package where
  boot  : SignedObj
  patch : Option SignedObj
  prog  : SignedObj
  deriving DecidableEq, Repr

/-- An object at an offset of an image. -/
def objectAt (image : List Nat) (ofs : Nat) : SignedObj :=
  let header := (image.drop ofs).take 256
  ⟨header, (image.drop (ofs + 256)).take (objLength header)⟩

/-- Where the next object starts: the next 4 KiB boundary. -/
def nextObject (ofs : Nat) (o : SignedObj) : Nat := (ofs + 256 + objLength o.header + 4095) / 4096 * 4096

/-- R333. A package verified: or the TYPE of the object and the check that failed first. -/
def State.verifyPackage (s : State) (image : List Nat) : Except (Nat × Nat) Package := do
  let boot := objectAt image 0
  match s.objectFault 1 boot with
  | some c => throw (1, c)
  | none => pure ()
  if bootRecordBad boot.payload then throw (1, 8)
  let at2 := nextObject 0 boot
  let second := objectAt image at2
  let patch := if second.type = 2 then some second else none
  match patch with
  | some p =>
    match s.objectFault 2 p with
    | some c => throw (2, c)
    | none => if p.svn ≠ boot.svn then throw (2, 7)
  | none => pure ()
  let prog := match patch with
    | some p => objectAt image (nextObject at2 p)
    | none => second
  match s.objectFault 3 prog with
  | some c => throw (3, c)
  | none => if prog.svn ≠ boot.svn then throw (3, 7)
  return ⟨boot, patch, prog⟩

/-- The digest of an object as a measurement (R343). -/
def objDigest (o : SignedObj) : List Byte := Config.sha384 (toBytes (o.header ++ o.payload))

/-- What runs once a package is chosen. -/
def Package.running (p : Package) (slot : Nat) : Running :=
  { slot := slot, svn := p.boot.svn, keySlot := p.boot.keySlot, record := p.boot.payload.take 512, init := initList p.boot.payload
    boot := objDigest p.boot, patch := (p.patch.map objDigest).getD (Config.sha384 []), prog := objDigest p.prog }

/-- The package in a slot, by the length a directory gives it. -/
def State.slotImage (s : State) (d : Directory) (slot : Nat) : List Nat := s.flashRead (slotBase slot) (min slotBytes (d.len slot))

/-! ## Boot verification -/

/-- An event that a boot stage is reached (R348). -/
def State.reachStage (s : State) (stage : Nat) : State :=
  (s.setFld R.SYS_BOOT F.SYS_BOOT_STAGE (max stage (s.fld R.SYS_BOOT F.SYS_BOOT_STAGE))).logAt srcCal s.cellStamp 0x9020 stage s.boot.slot

/-- A slot tried: the package, or event 0xA001. -/
def State.trySlot (s : State) (d : Directory) (slot : Nat) : Option Package × State :=
  match s.verifyPackage (s.slotImage d slot) with
  | .ok p => (some p, s)
  | .error (type, check) => (none, s.logSec 0xA001 slot type check)

/-- A package chosen: SEC_STATUS, what runs, and stage 1. -/
def State.chooseSlot (s : State) (p : Package) (slot boot : Nat) : State :=
  let s := (s.setFld R.SEC_STATUS F.SEC_STATUS_SLOT slot).setFld R.SEC_STATUS F.SEC_STATUS_BOOT boot
  let s := s.modSec fun x => { x with running := some (p.running slot) }
  { s with boot := { s.boot with slot := slot, noImage := false } }.reachStage 1

/-- R337. No slot verifies, or no directory copy is valid: argument 0 for the directories valid, 1 for none (log entry 56). -/
def State.bootNoImage (s : State) (dirState : Nat) : State :=
  let s := (s.setFld R.SEC_STATUS F.SEC_STATUS_BOOT 3).logSec 0xA003 dirState
  let s := { s with boot := { s.boot with slot := 0, noImage := true } }
  (s.modSec fun x => { x with running := none }).reachStage 1

/-- Steps 2 and 3 of R336: the slots of a list in order. -/
def State.trySlots (s : State) (d : Directory) (first : Nat) : List Nat → State
  | [] => s.bootNoImage 0
  | k :: rest =>
    match s.trySlot d k with
    | (some p, t) =>
      let t := t.chooseSlot p k (if k = first then 1 else 2)
      if k = first then t else t.logSec 0xA002 k first
    | (none, t) => t.trySlots d first rest

/-- R336, R337, R341. After lock the boot ROM senses the certificate's key, reads the ruling directory, and tries slots. -/
def execBootVerify (s : State) : Result :=
  when (s.time.started && decide (s.fld R.SYS_BOOT F.SYS_BOOT_STAGE = 0) && !s.boot.perst) s <|
    let s := if Config.certificateMatches then s else (s.setFld R.SEC_STATUS F.SEC_STATUS_CERT_BAD 1).logSec 0xA009
    match s.directory with
    | none => s.bootNoImage 1
    | some d =>
      let other (k : Nat) : Nat := if k = 1 then 2 else 1
      let active := if d.active = 2 then 2 else 1
      if d.next = 1 ∨ d.next = 2 then
        match s.trySlot d d.next with
        | (some p, t) => (t.writeDir { d with active := d.next, next := 0 }).chooseSlot p d.next 1
        | (none, t) =>
          let t := t.writeDir { d with next := 0 }
          t.trySlots d d.next (if active = d.next then [other active] else [active])
      else s.trySlots d active [active, other active]

/-! ## Fuses (R334, R335) -/

/-- The SVN that the BOOT object of a slot's package carries. -/
def State.slotSvn (s : State) (slot : Nat) : Nat := fieldAt (s.flashRead (slotBase slot) 256) 8 4

/-- R335. A write of SEC_CTRL.FLOOR_COMMIT. -/
def execFloorCommit (s : State) : Result :=
  let now := s.fld R.SEC_FUSE F.SEC_FUSE_FLOOR
  let want := (s.sec.running.map fun r => fieldAt r.record 8 4).getD 0
  let low := match s.sec.running with
    | some r =>
      let other := if r.slot = 1 then 2 else 1
      decide (r.svn < want) || match s.directory with
        | some d => decide (d.len other ≠ 0) && decide (s.slotSvn other < want)
        | none => false
    | none => true
  .next <|
    if decide (want ≤ now) || decide (32 < want) || low then s.logSec 0xA006 0 want
    else (s.setFld R.SEC_FUSE F.SEC_FUSE_FLOOR want).logSec 0xA005 0 want

/-- R335. A write of SEC_CTRL.REVOKE. -/
def execRevoke (slot : Fin 4) (s : State) : Result :=
  let revoked := setBitN (s.fld R.SEC_FUSE F.SEC_FUSE_REVOKED) slot.val
  let running := match s.sec.running with
    | some r => decide (r.keySlot = slot.val)
    | none => false
  let left := (List.range 4).any fun k => testBitN (s.fld R.SEC_FUSE F.SEC_FUSE_PROGRAMMED) k && !testBitN revoked k
  .next <|
    if running || !left then s.logSec 0xA006 1 slot.val
    else (s.setFld R.SEC_FUSE F.SEC_FUSE_REVOKED revoked).logSec 0xA005 1 revoked

/-! ## Debug unlock (R344) -/

/-- A new nonce in SEC_DBG_CHAL. -/
def State.drawNonce (s : State) : State :=
  (List.range 12).foldl (fun (t : State) k =>
    let (v, t) := t.draw
    t.setReg (R.SEC_DBG_CHAL k) (BitVec.ofNat 32 v)) s

/-- The token in SEC_DBG_BUF. -/
def State.tokenBytes (s : State) : List Nat :=
  (List.range 88).flatMap fun k => natBytes 4 (storeGet (fun _ => (0 : Word)) k s.sec.token).toNat

/-- Registers read as bytes. -/
def State.regBytes (s : State) (regs : List Nat) : List Nat := regs.flatMap fun r => natBytes 4 (s.reg r).toNat

/-- Every open session ends (R343). -/
def State.endSessions (s : State) : State :=
  (s.modSec fun x => { x with sessions := [] }).setFld R.SEC_STATUS F.SEC_STATUS_SESSIONS 0

/-- Why a token is refused: a check of R333, or the nonce, the identifier or DEBUG_OK. -/
def State.tokenFault (s : State) (o : SignedObj) : Option Nat :=
  match s.objectFault 4 o with
  | some c => some c
  | none =>
    if o.payload.take 48 ≠ s.regBytes ((List.range 12).map R.SEC_DBG_CHAL) then some 9
    else if (o.payload.drop 48).take 16 ≠ s.regBytes ((List.range 4).map R.SEC_UID) then some 10
    else if !testBitN (s.fld R.SEC_FUSE F.SEC_FUSE_DEBUG_OK) o.keySlot then some 11
    else none

/-- R344. A write of SEC_DBG_CTRL.SUBMIT: the token is checked, and the nonce is consumed either way. -/
def execDebugUnlockSubmit (s : State) : Result :=
  let bytes := s.tokenBytes
  let o : SignedObj := ⟨bytes.take 256, bytes.drop 256⟩
  let s := match s.tokenFault o with
    | some c => s.logSec 0xA008 c
    | none =>
      let perm := fieldAt o.payload 64 4 % 8
      let s := s.setFld R.SEC_STATUS F.SEC_STATUS_DBG (s.fld R.SEC_STATUS F.SEC_STATUS_DBG ||| perm)
      s.endSessions.logSec 0xA007 perm o.keySlot
  .next s.drawNonce

/-! ## The SPDM responder (R342, R343) -/

/-- The number of a transport among the outputs. -/
def Transport.code : Transport → Nat
  | .doe fn => fn.val
  | .secProto fn => 2 + fn.val

/-- A response leaves on its transport: a DOE mailbox sends it, Security Receive fetches it. -/
def State.respond (s : State) (via : Transport) (code : Nat) (bytes : List Nat) : State :=
  match via with
  | .doe _ => { s with out := .spdm via.code code bytes :: s.out }
  | .secProto fn => s.modSec fun x => { x with replies := x.replies ++ [(fn.val, code, bytes)] }

/-- An SPDM ERROR response with its code (log entry 57). -/
def State.spdmError (s : State) (via : Transport) (code : Nat) : State := s.respond via 0x7F [code]

/-- How far a transport's negotiation has come. -/
def State.connStage (s : State) (via : Transport) : Nat := (s.sec.conns.lookup via).getD 0
def State.setConn (s : State) (via : Transport) (k : Nat) : State :=
  s.modSec fun x => { x with conns := (via, k) :: x.conns.filter fun (c : Transport × Nat) => c.1 != via }

/-- A request that needs a stage of the negotiation, or the ERROR Unexpected Request (log entry 57). -/
def State.spdmAt (s : State) (via : Transport) (k : Nat) (f : State) : State :=
  if s.connStage via < k then s.spdmError via 4 else f

/-- A byte of a message. -/
def msgByte (m : List Byte) (k : Nat) : Nat := (m.getD k 0).toNat
def msgNat (m : List Byte) (ofs n : Nat) : Nat := fieldAt (m.map (·.toNat)) ofs n

/-- The certificate chain of slot 0: the certificate area. -/
def State.certChain (s : State) : List Nat := s.flashRead 0x10000 0x10000

/-- No certificate slot is offered on a mismatch (R341). -/
def State.certBad (s : State) : Bool := s.flag R.SEC_STATUS F.SEC_STATUS_CERT_BAD

/-- The fuse state as measured (R343): key hashes, and SEC_FUSE's fields. -/
def State.fuseBytes (s : State) : List Byte :=
  s.sec.keys.flatMap (·.hash) ++ toBytes (natBytes 4 (s.reg R.SEC_FUSE).toNat)

/-- The digest of a measurement block (Table 16-6). -/
def State.measurement (s : State) (k : Nat) : List Byte :=
  let run (f : Running → List Byte) : List Byte := (s.sec.running.map f).getD (Config.sha384 [])
  match k with
  | 1 => Config.sha384 (Config.romMeasured ++ toBytes (natBytes 4 (s.reg R.CS_ROM_ID).toNat))
  | 2 => run (·.boot)
  | 3 => run (·.patch)
  | 4 => run (·.prog)
  | 5 => Config.sha384 s.fuseBytes
  | _ => Config.sha384 (toBytes [s.fld R.SEC_STATUS F.SEC_STATUS_DBG])

/-- Bytes of a digest as they leave. -/
def ofByteList (l : List Byte) : List Nat := l.map (·.toNat)

/-- Measurement blocks by their index, each with its index before it. -/
def State.measurements (s : State) (ks : List Nat) : List Nat := ks.flatMap fun k => k :: ofByteList (s.measurement k)

/-- A response with the identity key's signature over what it answers. -/
def State.respondSigned (s : State) (via : Transport) (code : Nat) (m : List Byte) (bytes : List Nat) : State :=
  s.respond via code (bytes ++ ofByteList (Config.identitySign (m ++ toBytes bytes)))

/-- The number of open sessions shown. -/
def State.showSessions (s : State) : State := s.setFld R.SEC_STATUS F.SEC_STATUS_SESSIONS s.sec.sessions.length

/-- A session of a transport. -/
def State.session (s : State) (via : Transport) (sid : Nat) : Option Session :=
  s.sec.sessions.find? fun x => x.id == sid && x.via == via

/-- A request inside a session that FINISH has completed, or an ERROR. -/
def State.inSession (s : State) (via : Transport) (sid : Nat) (f : State) : State :=
  match s.session via sid with
  | some x => if x.done then f else s.spdmError via 4
  | none => s.spdmError via 1

/-- One SPDM request by its code (DSP0274, log entry 57); `sid` names the session that carries it. -/
def State.spdm (s : State) (via : Transport) (sid code : Nat) (m : List Byte) : State :=
  match code with
  | 0x84 =>
    let s := (s.setConn via 1).modSec fun x => { x with sessions := x.sessions.filter fun (y : Session) => y.via != via }
    s.showSessions.respond via 0x04 [0x12]
  | 0xE1 => s.spdmAt via 1 <| (s.setConn via 2).respond via 0x61 (natBytes 4 0x62D6)
  | 0xE3 => s.spdmAt via 2 <| (s.setConn via 3).respond via 0x63 (natBytes 4 0x80 ++ natBytes 4 2 ++ natBytes 2 0x10 ++ natBytes 2 2)
  | 0x81 => s.spdmAt via 3 <|
      if s.certBad then s.respond via 0x01 [0]
      else s.respond via 0x01 (1 :: ofByteList (Config.sha384 (toBytes s.certChain)))
  | 0x82 => s.spdmAt via 3 <|
      if s.certBad ∨ msgByte m 2 % 16 ≠ 0 then s.spdmError via 1
      else
        let ofs := msgNat m 4 2
        let part := (s.certChain.drop ofs).take (msgNat m 6 2)
        s.respond via 0x02 (natBytes 2 part.length ++ natBytes 2 (min 0xFFFF (0x10000 - ofs - part.length)) ++ part)
  | 0x83 => s.spdmAt via 3 <|
      if s.certBad ∨ msgByte m 2 ≠ 0 then s.spdmError via 1
      else s.respondSigned via 0x03 m (ofByteList (Config.sha384 (toBytes s.certChain)))
  | 0xE0 => s.spdmAt via 3 <|
      match msgByte m 3 with
      | 0 => s.respond via 0x60 [6]
      | 0xFF => s.respondSigned via 0x60 m (s.measurements [1, 2, 3, 4, 5, 6])
      | k => if k ≤ 6 then s.respondSigned via 0x60 m (s.measurements [k]) else s.spdmError via 1
  | 0xE4 => s.spdmAt via 3 <|
      if s.certBad then s.spdmError via 1
      else if 4 ≤ s.sec.sessions.length then s.spdmError via 0x0A
      else
        let id := ((List.range 4).find? fun k => !(s.sec.sessions.any fun x => x.id == k)).getD 0
        let s := (s.modSec fun x => { x with sessions := x.sessions ++ [⟨id, via, false⟩] }).showSessions
        s.respondSigned via 0x64 m [id]
  | 0xE5 =>
    match s.session via sid with
    | none => s.spdmError via 1
    | some y =>
      (s.modSec fun x => { x with sessions := x.sessions.map fun (z : Session) => if z = y then { z with done := true } else z }).respond via 0x65 []
  | 0xE8 => s.inSession via sid (s.respond via 0x68 [])
  | 0xE9 => s.inSession via sid (s.respond via 0x69 [msgByte m 2, msgByte m 3])
  | 0xEC => s.inSession via sid <|
      ((s.modSec fun x => { x with sessions := x.sessions.filter fun (y : Session) => !(y.id == sid && y.via == via) }).showSessions).respond via 0x6C []
  | _ => s.spdmError via 7

/-- R342. DOE Discovery answers with the protocols of a function's mailbox: Discovery, SPDM, Secured SPDM, by index. -/
def execDoeDiscovery (fn : Fin 2) (index : Nat) (s : State) : Result :=
  let s' := s.respond (.doe fn) 0 (if index < 3 then [1, 0, index, if index = 2 then 0 else index + 1] else [0xFF, 0xFF, 0, 0])
  .next s'

/-- R342, R343. The requests of Table 16-5, by the transport that carries each. -/
def execGetVersion (via : Transport) (msg : List Byte) (s : State) : Result := .next (s.spdm via 0 0x84 msg)
def execGetCapabilities (via : Transport) (msg : List Byte) (s : State) : Result := .next (s.spdm via 0 0xE1 msg)
def execNegotiateAlgorithms (via : Transport) (msg : List Byte) (s : State) : Result := .next (s.spdm via 0 0xE3 msg)
def execGetDigests (via : Transport) (msg : List Byte) (s : State) : Result := .next (s.spdm via 0 0x81 msg)
def execGetCertificate (via : Transport) (msg : List Byte) (s : State) : Result := .next (s.spdm via 0 0x82 msg)
def execChallenge (via : Transport) (msg : List Byte) (s : State) : Result := .next (s.spdm via 0 0x83 msg)
def execGetMeasurements (via : Transport) (msg : List Byte) (s : State) : Result := .next (s.spdm via 0 0xE0 msg)
def execKeyExchange (via : Transport) (msg : List Byte) (s : State) : Result := .next (s.spdm via 0 0xE4 msg)
def execFinish (via : Transport) (sid : Nat) (msg : List Byte) (s : State) : Result := .next (s.spdm via sid 0xE5 msg)
def execHeartbeat (via : Transport) (sid : Nat) (msg : List Byte) (s : State) : Result := .next (s.spdm via sid 0xE8 msg)
def execKeyUpdate (via : Transport) (sid : Nat) (msg : List Byte) (s : State) : Result := .next (s.spdm via sid 0xE9 msg)
def execEndSession (via : Transport) (sid : Nat) (msg : List Byte) (s : State) : Result := .next (s.spdm via sid 0xEC msg)

end Sys2Proof.Machine
end

