-- ==== Sys2Proof/Machine/HostAdmin.lean ====
section
/-!
DEFINITION. Machine/HostAdmin.lean: what a fetch checks (R260, R261, R267), and the admin commands that the host island
carries out itself: queues, log pages, Identify, features, aborts, events, namespaces, firmware (R260 to R264, R274, R279,
R283), Security Send and Receive (R342).
-/

namespace Sys2Proof.Machine

/-! ## Fields of a submission entry -/

/-- A command dword from 10 on. -/
def SqEntry.cdw (e : SqEntry) : List Nat := [e.c10, e.c11, e.c12, e.c13, e.c14, e.c15].map (· % 2 ^ 32)

/-- SLBA and NLB of an I/O command. -/
def SqEntry.slba (e : SqEntry) : Nat := e.c10 % 2 ^ 32 + e.c11 % 2 ^ 32 * 2 ^ 32
def SqEntry.nlb (e : SqEntry) : Nat := e.c12 % 65536 + 1

/-- What an opcode asks for, in the admin set or the I/O set (Tables 12-4, 12-15); none for one that is not supported. -/
def commandKind (admin : Bool) (opcode : Nat) : Option CmdKind :=
  if admin then
    match opcode with
    | 0x08 => some .abort | 0x0C => some .aer | 0x10 => some .fwCommit | 0x80 => some .format
    | 0xC3 => some .seqCall | 0xC4 => some .cartLoad | 0xC6 => some .mediumHealth | 0xC8 => some .cartRelease
    | 0x00 | 0x01 | 0x02 | 0x04 | 0x05 | 0x06 | 0x09 | 0x0A | 0x0D | 0x11 | 0x15 | 0x81 | 0x82 => some .admin
    | _ => none
  else
    match opcode with
    | 0x00 => some .flush | 0x01 => some .write | 0x02 => some .read | 0x09 => some .dsm | 0x0C => some .verify
    | _ => none

/-- The greatest transfer (MDTS). -/
def maxTransfer : Nat := 0x40000

/-- Bytes that a command moves between host and device, where its fields give them. -/
def transferBytes (admin : Bool) (e : SqEntry) : Nat :=
  if admin then
    match e.opcode.val with
    | 0x02 => 4 * (e.c10 / 65536 % 65536 + e.c11 % 65536 * 65536 + 1)
    | 0x06 | 0x15 => 4096
    | 0x0D => if e.c10 % 16 = 0 then 4096 else 0
    | 0x11 => 4 * (e.c10 % 2 ^ 32 + 1)
    | 0x81 | 0x82 => e.c11 % 2 ^ 32
    | 0xC3 | 0xC6 => if e.dptr0 = 0 ∧ e.dptr1 = 0 then 0 else 1
    | _ => 0
  else
    match e.opcode.val with
    | 0x01 | 0x02 => 4096 * e.nlb
    | 0x09 => 16 * (e.c10 % 256 + 1)
    | _ => 0

/-! ## Checks at fetch (R267) -/

/-- The data pointer's own faults (R261). -/
def pointerFault (page len : Nat) (e : SqEntry) (walk : PtrWalk) : Option Nat :=
  if len = 0 then none
  else
    let own : Option Nat :=
      if e.psdt.val = 0 then
        let room := page - e.dptr0 % page
        if e.dptr0 % 4 ≠ 0 then some stField
        else if room < len ∧ len ≤ room + page ∧ e.dptr1 % page ≠ 0 then some stField
        else if room + page < len ∧ e.dptr1 % 8 ≠ 0 then some stField
        else none
      else
        let t := e.dptr1 / 2 ^ 56 % 256
        if t = 0x00 ∨ t = 0x20 ∨ t = 0x30 then none else some stSglType
    match own, walk with
    | some x, _ => some x
    | none, .good => none
    | none, .badOffset => some stField
    | none, .badType => some stSglType

/-- A namespace is active in a function. -/
def State.nsActive (s : State) (fn nsid : Nat) : Bool :=
  match s.namespaceOf nsid with
  | some n => n.attached.contains fn
  | none => false

/-- The ranges of a Dataset Management command (NVM Command Set; log entry 34). -/
def dsmRanges (e : SqEntry) (data : List Nat) : List (Nat × Nat) :=
  (List.range (e.c10 % 256 + 1)).map fun i => (fieldAt data (16 * i + 8) 8, fieldAt data (16 * i + 4) 4)

/-- The deallocate attribute. -/
def SqEntry.deallocate (e : SqEntry) : Bool := testBitN e.c11 2

/-- Format NVM's fields (R261). -/
def formatFault (e : SqEntry) : Option Nat :=
  let ses := natBits e.c10 11 9
  if natBits e.c10 3 0 ≠ 0 ∨ natBits e.c10 13 12 ≠ 0 ∨ natBits e.c10 7 5 ≠ 0 then some 0x10A
  else if ses = 2 then some 0x10A
  else if 2 < ses then some stField
  else if testBitN e.c11 2 ∧ e.c11 % 4 = 3 then some 0x10A
  else none

/-- The namespace that a command names, and the range within it. -/
def State.namespaceFault (s : State) (fn : Nat) (k : CmdKind) (e : SqEntry) (data : List Nat) : Option Nat :=
  let size := ((s.namespaceOf e.nsid).map (·.size)).getD 0
  match k with
  | .read | .write | .verify =>
    if !s.nsActive fn e.nsid then some stNamespace
    else if size < e.slba + e.nlb then some stRange
    else none
  | .dsm =>
    if !s.nsActive fn e.nsid then some stNamespace
    else if e.deallocate && (dsmRanges e data).any fun r => decide (size < r.1 + r.2) then some stRange
    else none
  | .flush => if e.nsid = 0xFFFFFFFF ∨ s.nsActive fn e.nsid then none else some stNamespace
  | .format => if (s.namespaceOf e.nsid).isNone then some stNamespace else formatFault e
  | _ => none

/-- R267. The checks of a fetch, in the order of the model (log entry 58): the status of the first that fails. -/
def State.fetchFault (s : State) (fn : Nat) (admin : Bool) (e : SqEntry) (data : List Nat) (walk : PtrWalk) : Option Nat :=
  match commandKind admin e.opcode.val with
  | none => some stOpcode
  | some k =>
    let len := transferBytes admin e
    if e.fuse.val ≠ 0 ∨ e.rsvd.val ≠ 0 ∨ e.psdt.val ≥ 3 then some stField
    else if k = .mediumHealth ∨ k = .seqCall ∨ k = .cartLoad ∨ k = .cartRelease then
      if s.boot.noImage then some 0x0C2 else pointerFault (s.pageSize fn) len e walk
    else match s.namespaceFault fn k e data with
      | some x => some x
      | none => if maxTransfer < len then some stField else pointerFault (s.pageSize fn) len e walk

/-! ## Queues (R260) -/

/-- Create I/O Completion Queue. -/
def State.createCq (s : State) (fn : Nat) (e : SqEntry) : Nat × State :=
  let qid := e.c10 % 65536
  let size := e.c10 / 65536 % 65536
  let iv := e.c11 / 65536 % 65536
  if !testBitN e.c11 0 then (stField, s)
  else if qid = 0 ∨ s.maxQid < qid ∨ (s.cq fn qid).isSome then (0x101, s)
  else if size = 0 ∨ 4095 < size then (0x102, s)
  else if 256 < iv then (0x108, s)
  else if e.dptr0 % s.pageSize fn ≠ 0 then (stField, s)
  else
    let q : CmpQ :=
      { fn := fn, qid := qid, base := e.dptr0, size := size + 1, head := 0, tail := 0, phase := true, ien := testBitN e.c11 1
        iv := iv, heldN := 0, heldSince := 0 }
    (0, s.modHost fun h => { h with cqs := h.cqs ++ [q] })

/-- Create I/O Submission Queue. A completion queue that does not exist is an invalid identifier (Table 12-10). -/
def State.createSq (s : State) (fn : Nat) (e : SqEntry) : Nat × State :=
  let qid := e.c10 % 65536
  let size := e.c10 / 65536 % 65536
  let cq := e.c11 / 65536 % 65536
  if !testBitN e.c11 0 then (stField, s)
  else if qid = 0 ∨ s.maxQid < qid ∨ (s.sq fn qid).isSome ∨ cq = 0 ∨ (s.cq fn cq).isNone then (0x101, s)
  else if size = 0 ∨ 4095 < size then (0x102, s)
  else if e.dptr0 % s.pageSize fn ≠ 0 then (stField, s)
  else
    let q : SubQ := { fn := fn, qid := qid, base := e.dptr0, size := size + 1, cq := cq, prio := natBits e.c11 2 1, head := 0, tail := 0 }
    (0, s.modHost fun h => { h with sqs := h.sqs ++ [q] })

/-- Delete I/O Submission Queue: its commands complete with Command Aborted due to SQ Deletion. -/
def State.deleteSq (s : State) (fn qid : Nat) : Nat × State :=
  if qid = 0 ∨ (s.sq fn qid).isNone then (0x101, s)
  else
    let mine := s.host.cmds.filter fun c => c.fn == fn && c.sqid == qid && c.abortable
    let s := mine.foldl (fun (t : State) (c : HostCmd) => t.endCommand c stSqDeleted) s
    (0, s.modHost fun h => { h with sqs := h.sqs.filter fun (q : SubQ) => !(q.fn == fn && q.qid == qid) })

/-- Delete I/O Completion Queue: one that a submission queue still names stays (Invalid Queue Deletion, log entry 34). -/
def State.deleteCq (s : State) (fn qid : Nat) : Nat × State :=
  if qid = 0 ∨ (s.cq fn qid).isNone then (0x101, s)
  else if s.host.sqs.any fun q => q.fn == fn && q.cq == qid then (0x10C, s)
  else (0, s.modHost fun h => { h with cqs := h.cqs.filter fun (q : CmpQ) => !(q.fn == fn && q.qid == qid) })

/-! ## Identify (R262) -/

/-- Bytes put into a page at an offset. -/
def putAt (page : List Nat) (ofs : Nat) (bytes : List Nat) : List Nat := page.take ofs ++ bytes ++ page.drop (ofs + bytes.length)
def blankPage (n : Nat) : List Nat := List.replicate n 0

/-- Bytes whose content the spec leaves to the configuration record's absence or to a layout it does not give. -/
def State.openBytes (s : State) (answer n : Nat) : List Nat × State :=
  let k := s.free
  ((List.range n).map fun i => (Config.answerByte answer k i).toNat, { s with free := s.free + 1 })

/-- A field of the running configuration record. -/
def State.recordBytes (s : State) (ofs n : Nat) : List Nat :=
  match s.sec.running with
  | some r => (r.record.drop ofs).take n
  | none => List.replicate n 0x20

/-- "NO IMAGE" (R350). -/
def noImageFr : List Nat := [0x4E, 0x4F, 0x20, 0x49, 0x4D, 0x41, 0x47, 0x45]

/-- Identify Controller (Table 12-5; places from the NVMe Base Specification, log entry 34). -/
def State.identifyController (s : State) (fn : Nat) : List Nat :=
  let vid := natBytes 2 (s.fld R.SYS_IDENT F.SYS_IDENT_VENDOR)
  let two := bitOf s.boot.bifurcated
  let parts : List (Nat × List Nat) :=
    [(0, vid), (2, s.recordBytes 12 2), (4, s.recordBytes 160 20), (24, s.recordBytes 180 40)
    , (64, if s.boot.noImage then noImageFr else s.recordBytes 220 8), (76, [3 * two]), (77, [6]), (78, natBytes 2 fn)
    , (80, natBytes 4 0x20000), (88, natBytes 4 10000000), (92, natBytes 4 0x300), (111, [1]), (256, natBytes 2 0xF)
    , (258, [63]), (259, [15]), (260, [0x14]), (261, [6]), (262, [63]), (263, [0]), (512, [0x66]), (513, [0x44])
    , (514, natBytes 2 8192), (516, natBytes 4 16), (520, natBytes 2 0x84), (524, [0]), (525, [7])
    , (526, natBytes 2 63), (528, natBytes 2 63), (536, natBytes 4 1)]
  parts.foldl (fun p x => putAt p x.1 x.2) (blankPage 4096)

/-- Identify Namespace (Table 12-5). -/
def State.identifyNamespace (s : State) (n : Option Namespace) : List Nat :=
  match n with
  | none => blankPage 4096
  | some n =>
    let parts : List (Nat × List Nat) :=
      [(0, natBytes 8 n.size), (8, natBytes 8 n.size), (16, natBytes 8 n.size), (24, [4]), (30, [bitOf s.boot.bifurcated])
      , (33, [1]), (130, [12]), (3072, [n.mode + 4 * bitOf (n.state != 0)])]
    parts.foldl (fun p x => putAt p x.1 x.2) (blankPage 4096)

/-- A list of identifiers, each of w bytes, in a page. -/
def idPage (w : Nat) (head : List Nat) (ids : List Nat) : List Nat := putAt (blankPage 4096) 0 (head ++ ids.flatMap (natBytes w))

/-- Namespace identifiers above one, of those that a test keeps. -/
def State.nsList (s : State) (after : Nat) (f : Namespace → Bool) : List Nat :=
  ((List.range 16).map (· + 1)).filter fun k => decide (after < k) && match s.namespaceOf k with
    | some n => f n
    | none => false

/-- Identify, by CNS: a page, or a status. Namespace descriptors hold identifiers that the spec does not give (log entry 41). -/
def State.identify (s : State) (fn : Nat) (e : SqEntry) : Nat × List Nat × State :=
  let cntid := e.c10 / 65536 % 65536
  let controllers := (s.functions.map (·.val)).filter fun k => decide (cntid ≤ k)
  let known (nsid : Nat) : Bool := 1 ≤ nsid && nsid ≤ 16
  match e.c10 % 256 with
  | 0x00 =>
    if e.nsid = 0xFFFFFFFF then (0, putAt (putAt (blankPage 4096) 24 [4]) 130 [12], s)
    else if !known e.nsid then (stNamespace, [], s)
    else (0, s.identifyNamespace (if s.nsActive fn e.nsid then s.namespaceOf e.nsid else none), s)
  | 0x01 => (0, s.identifyController fn, s)
  | 0x02 => if 0xFFFFFFFE ≤ e.nsid then (stNamespace, [], s) else (0, idPage 4 [] (s.nsList e.nsid fun n => n.attached.contains fn), s)
  | 0x03 =>
    if !s.nsActive fn e.nsid then (stNamespace, [], s)
    else
      let (b, s) := s.openBytes 3 4096
      (0, b, s)
  | 0x10 => if 0xFFFFFFFE ≤ e.nsid then (stNamespace, [], s) else (0, idPage 4 [] (s.nsList e.nsid fun _ => true), s)
  | 0x11 => if !known e.nsid then (stNamespace, [], s) else (0, s.identifyNamespace (s.namespaceOf e.nsid), s)
  | 0x12 =>
    match s.namespaceOf e.nsid with
    | none => (stNamespace, [], s)
    | some n =>
      let ids := controllers.filter n.attached.contains
      (0, idPage 2 (natBytes 2 ids.length) ids, s)
  | 0x13 => (0, idPage 2 (natBytes 2 controllers.length) controllers, s)
  | _ => (stField, [], s)

/-! ## Log pages (R264) -/

/-- The composite temperature in kelvin (R330). -/
def State.kelvin (s : State) : Nat :=
  (roundDiv (toSigned (s.fld R.CAL_COMPOSITE F.CAL_COMPOSITE_TEMP) 16 * 100 + 437040) 1600).toNat

/-- Error Information: 64 entries, newest first. -/
def State.errorPage (s : State) (fn : Nat) : List Nat :=
  let one (e : ErrEntry) : List Nat :=
    natBytes 8 e.count ++ natBytes 2 e.sqid ++ natBytes 2 e.cid ++ natBytes 2 (2 * e.status) ++ natBytes 2 0xFFFF ++
      natBytes 8 e.lba ++ natBytes 4 e.nsid ++ List.replicate 36 0
  putAt (blankPage 4096) 0 ((s.fnOf fn).errors.flatMap one)

/-- SMART / Health (R302): spare and use rest on the lead-in's figures, and hours and cycles on counts that the spec does
not give, so those bytes are open (log entry 41). -/
def State.smartPage (s : State) : List Nat × State :=
  let (x, s) := s.openBytes 2 512
  let errs := s.functions.foldl (fun a (fn : Fin 2) => a + (s.fnOf fn.val).errCount) 0
  let units (blocks : Nat) : Nat := ceilDiv (8 * blocks) 1000
  let parts : List (Nat × List Nat) :=
    [(0, [s.host.warnings]), (1, natBytes 2 s.kelvin), (3, [x.getD 3 0]), (4, [10]), (5, [x.getD 5 0])
    , (32, natBytes 16 (units s.host.blocksRead)), (48, natBytes 16 (units s.host.blocksWritten)), (64, natBytes 16 s.host.reads)
    , (80, natBytes 16 s.host.writes), (96, (x.drop 96).take 64), (160, natBytes 16 s.host.mediaErrors), (176, natBytes 16 errs)]
  (parts.foldl (fun p q => putAt p q.1 q.2) (blankPage 512), s)

/-- Firmware Slot Information: the running and the next slot, and each package's FR. -/
def State.firmwarePage (s : State) : List Nat :=
  let d := s.directory.getD noDirectory
  let fr (k : Nat) : List Nat := if d.len k = 0 then List.replicate 8 0 else s.flashRead (slotBase k + 256 + 220) 8
  putAt (putAt (blankPage 512) 0 [s.boot.slot + 16 * d.next]) 8 (fr 1 ++ fr 2)

/-- Commands Supported and Effects. -/
def effectsPage : List Nat :=
  let one (admin : Bool) (k : Nat) : List Nat :=
    match commandKind admin k with
    | none => [0, 0, 0, 0]
    | some c => natBytes 4 (1 + (if c = .write ∨ c = .dsm ∨ c = .format then 2 else 0) + if admin ∧ k = 0x0D then 8 else 0)
  putAt (blankPage 4096) 0 ((List.range 256).flatMap (one true) ++ (List.range 256).flatMap (one false))

/-- Namespace State (Table 12-7). -/
def State.nsStatePage (s : State) : List Nat :=
  (List.range 16).flatMap fun k => match s.namespaceOf (k + 1) with
    | some n => [n.state, n.mode] ++ List.replicate 6 0 ++ natBytes 8 n.changedAt
    | none => List.replicate 16 0

/-- A log page, if it is supported. The layouts of 0xC1 and 0xC3 are not given: their bytes are open (log entry 41). -/
def State.logPage (s : State) (fn lid size : Nat) : Option (List Nat) × State :=
  match lid with
  | 0x01 => (some (s.errorPage fn), s)
  | 0x02 =>
    let (p, s) := s.smartPage
    (some p, s)
  | 0x03 => (some s.firmwarePage, s)
  | 0x04 => (some (idPage 4 [] ((List.range 17).filter (s.fnOf fn).changed.contains)), s)
  | 0x05 => (some effectsPage, s)
  | 0xC0 => (some s.nsStatePage, s)
  | 0xC1 | 0xC3 =>
    let (p, s) := s.openBytes lid size
    (some p, s)
  | 0xC2 => (some (s.host.health ++ List.replicate (64 - s.host.health.length) 0 ++ natBytes 8 s.host.healthAt), s)
  | _ => (none, s)

/-- Get Log Page: RAE = 0 acknowledges the events that name the page. -/
def State.getLogPage (s : State) (fn : Nat) (e : SqEntry) : Nat × List Nat × State :=
  let lid := e.c10 % 256
  let len := transferBytes true e
  let ofs := e.c12 % 2 ^ 32 + e.c13 % 2 ^ 32 * 2 ^ 32
  match s.logPage fn lid (ofs + len) with
  | (none, s) => (0x109, [], s)
  | (some p, s) =>
    if ofs % 4 ≠ 0 then (stField, [], s)
    else
      let part := (p.drop ofs).take len
      let s := if testBitN e.c10 15 then s
        else
          let s := s.modFn fn fun f => { f with
            posted := f.posted.filter fun (x : Nat × Nat) => x.2 != lid
            changed := if lid = 4 then [] else f.changed }
          s.serveAers fn 32
      (0, part ++ List.replicate (len - part.length) 0, s)

/-! ## Features (R263) -/

/-- The selector of a feature's value: THSEL, the vector, or none. -/
def featureSel (e : SqEntry) : Nat :=
  match e.c10 % 256 with
  | 4 => natBits e.c11 21 20
  | 9 => e.c11 % 65536
  | _ => 0

/-- Queues each way, 0's based. -/
def State.queueCount (s : State) : Nat := (s.maxQid - 1) * 65537

def featureKnown (fid : Nat) : Bool := 1 ≤ fid && fid ≤ 0x0B && fid != 3

/-- What a Set Features value must satisfy. -/
def featureFault (e : SqEntry) : Option Nat :=
  let fid := e.c10 % 256
  if !featureKnown fid then some stField
  else if testBitN e.c10 31 then some 0x10D
  else if fid = 2 ∧ e.c11 % 32 ≠ 0 then some stField
  else if fid = 4 ∧ (natBits e.c11 19 16 ≠ 0 ∨ 1 < natBits e.c11 21 20) then some stField
  else if fid = 5 ∧ testBitN e.c11 16 then some stField
  else if fid = 9 ∧ 256 < e.c11 % 65536 then some stField
  else none

def State.setFeatures (s : State) (fn : Nat) (e : SqEntry) : Nat × Nat × State :=
  match featureFault e with
  | some x => (x, 0, s)
  | none =>
    let fid := e.c10 % 256
    if fid = 7 then (0, s.queueCount, s)
    else (0, 0, s.setFeature fn fid (featureSel e) (if fid = 4 then e.c11 % 65536 else e.c11 % 2 ^ 32))

/-- Get Features, by SEL: the value, the default, the saved value (the default, as saving is not supported), or the
capabilities (changeable). -/
def State.getFeatures (s : State) (fn : Nat) (e : SqEntry) : Nat × Nat × State :=
  let fid := e.c10 % 256
  let sel := featureSel e
  if !featureKnown fid then (stField, 0, s)
  else match natBits e.c10 10 8 with
    | 0 => (0, if fid = 7 then s.queueCount else s.feature fn fid sel, s)
    | 1 | 2 => (0, if fid = 7 then s.queueCount else featureDefault (fid * 65536 + sel), s)
    | 3 => (0, 4, s)
    | _ => (stField, 0, s)

/-! ## Namespaces -/

/-- The entry batch of a namespace operation is committed at once by the assist: its chain is built in the ring (log
entry 47). -/
def State.nsopChain (s : State) (c : HostCmd) (entries : List (Nat × Nat)) (dw0 : Nat) : State :=
  match s.freeBatch with
  | none => s.conclude c.stamp stInternal 0
  | some b =>
    let s := (s.putBatch b 1 0 0xFFFFFFFF c.slot).setBatState b 2
    let s := s.modPlace fun p => { p with batches := p.batches ++ [⟨b, [], entries⟩], waiting := p.waiting ++ [b] }
    let s := s.modCmd c.stamp fun c => { c with accepted := some ⟨dw0⟩ }
    let s := s.addTrack c [] (some b) false
    s.buildWaiting s.host.place.waiting.length

/-- Namespace Management: create, or delete one or every namespace. -/
def State.manageNamespace (s : State) (c : HostCmd) (e : SqEntry) (data : List Nat) : State :=
  match e.c10 % 16 with
  | 0 =>
    let size := fieldAt data 0 8
    let granules := ceilDiv size 16
    let mode := fieldAt data 3072 1 % 4
    let used := s.host.namespaces.toList.foldl (fun a n => a + ((n.map (·.granules)).getD 0)) 0
    if size = 0 ∨ fieldAt data 8 8 ≠ size then s.conclude c.stamp stField 0
    else if fieldAt data 26 1 ≠ 0 ∨ fieldAt data 29 1 ≠ 0 ∨ mode = 3 then s.conclude c.stamp 0x10A 0
    else if s.plMapBytes / 8 < used + granules ∨ (s.mapRoom granules).isNone then s.conclude c.stamp 0x115 0
    else match (List.range 16).find? fun k => (s.namespaceOf (k + 1)).isNone with
      | none => s.conclude c.stamp 0x116 0
      | some k =>
        let s := s.modCmd c.stamp fun c => { c with nlb := size }
        s.nsopChain { c with nlb := size } [(journalKey 3 k 0, nsopValue 0 mode granules)] (k + 1)
  | 1 =>
    let ids := if e.nsid = 0xFFFFFFFF then s.nsList 0 fun _ => true else [e.nsid]
    if ids.any fun k => (s.namespaceOf k).isNone then s.conclude c.stamp stNamespace 0
    else if ids = [] then s.conclude c.stamp 0 0
    else s.nsopChain c (ids.map fun k => (journalKey 3 (k - 1) 0, nsopValue 1 0 (((s.namespaceOf k).map (·.granules)).getD 0))) 0
  | _ => s.conclude c.stamp stField 0

/-- Namespace Attachment: a controller list attached or detached. -/
def State.attachNamespace (s : State) (e : SqEntry) (data : List Nat) : Nat × State :=
  let ids := (List.range (min 2047 (fieldAt data 0 2))).map fun i => fieldAt data (2 + 2 * i) 2
  match s.namespaceOf e.nsid with
  | none => (stNamespace, s)
  | some n =>
    if ids = [] ∨ ids.any (fun k => decide (s.functions.length ≤ k)) then (stField, s)
    else match e.c10 % 16 with
      | 0 =>
        if ids.any n.attached.contains then (0x118, s)
        else (0, (s.setNamespace (e.nsid - 1) (some { n with attached := n.attached ++ ids })).nsChanged e.nsid)
      | 1 =>
        if ids.any fun k => !n.attached.contains k then (0x119, s)
        else (0, (s.setNamespace (e.nsid - 1) (some { n with attached := n.attached.filter fun (k : Nat) => !ids.contains k })).nsChanged e.nsid)
      | _ => (stField, s)

/-! ## Firmware (R279) -/

/-- Where the staging area lies (Table 12-8). -/
def State.stagingBase (s : State) : Nat := s.dataBase + 0x80100000

/-- Firmware Image Download. In a boot without image whose sweep failed it completes with Internal Error (R350). -/
def State.downloadImage (s : State) (e : SqEntry) (data : List Nat) : Nat × State :=
  let ofs := 4 * (e.c11 % 2 ^ 32)
  let len := transferBytes true e
  if s.boot.noImage && !s.memOn then (stInternal, s)
  else if 0x4000000 < ofs + len ∨ s.host.pieces.any (fun p => decide (ofs < p.1 + p.2) && decide (p.1 < ofs + len)) then (stField, s)
  else (0, (s.memWrite 6 (s.stagingBase + ofs) (data.take len)).modHost fun h => { h with pieces := h.pieces ++ [(ofs, len)] })

/-- The staged image: from offset 0 to the end of the last piece. -/
def State.stagedImage (s : State) : List Nat :=
  let n := s.host.pieces.foldl (fun a p => max a (p.1 + p.2)) 0
  (List.range n).map fun i => (s.memByte (s.stagingBase + i)).toNat

/-- What an activation without reset must keep of the configuration record: heads, bifurcation, capabilities. -/
def recordKeeps (a b : List Nat) : Bool :=
  (a.drop 4).take 3 == (b.drop 4).take 3 && (a.drop 16).take 96 == (b.drop 16).take 96

/-- The slot that Firmware Commit names: FS = 0 is the one that is not running. -/
def State.commitSlot (s : State) (fs : Nat) : Nat := if fs = 0 then (if s.boot.slot = 1 then 2 else 1) else fs

/-- Firmware Commit up to the writing of the slot; the write's end is FIRMWARE_COMMIT_WRITE_DONE. The staged pieces are
used up (log entry 59). -/
def State.commitFirmware (s : State) (c : HostCmd) (e : SqEntry) : State :=
  let ca := natBits e.c10 5 3
  let slot := s.commitSlot (natBits e.c10 2 0)
  let moving := s.host.cmds.any fun x => (x.kind == .cartLoad || x.kind == .cartRelease) && x.decided.isNone
  if 2 < slot then s.conclude c.stamp 0x106 0
  else if 3 < ca then s.conclude c.stamp stField 0
  else if s.mcActive || moving || s.host.commit.isSome || s.host.activation.isSome then s.conclude c.stamp 0x113 0
  else if ca = 3 ∧ s.boot.noImage then s.conclude c.stamp 0x10B 0
  else if ca = 2 then
    match s.directory with
    | none => s.conclude c.stamp 0x107 0
    | some d => if d.len slot = 0 then s.conclude c.stamp 0x107 0 else (s.writeDir { d with next := slot }).conclude c.stamp 0 0
  else
    let image := s.stagedImage
    let fault : Option Nat := if slotBytes < image.length then some 5
      else match s.verifyPackage image with
        | .ok _ => none
        | .error (_, k) => some k
    match fault with
    | some k =>
      ((s.modHost fun h => { h with pieces := [] }).logSec 0xA004 slot 0 k).conclude c.stamp 0x107 0
    | none =>
      let keeps := match s.sec.running with
        | some r => recordKeeps r.record ((image.drop 256).take 512)
        | none => false
      if ca = 3 ∧ !keeps then s.conclude c.stamp 0x10B 0
      else s.modHost fun h => { h with commit := some ⟨c.stamp, slot, ca, image.length, false⟩ }

/-- R339. The slot has been written and is read back: `upset` says that the read-back differs. The directory takes the
package; CA decides when it runs. -/
def execFirmwareCommitWriteDone (upset : Bool) (s : State) : Result :=
  match s.host.commit with
  | none => .next s
  | some j => when (!j.written) s <|
      let image := s.stagedImage.take j.len
      let s := s.flashWrite (slotBase j.slot) image
      let back := s.flashRead (slotBase j.slot) j.len
      match if upset then Except.error (0, 6) else s.verifyPackage back with
      | .error (_, k) =>
        ((s.modHost fun h => { h with commit := none, pieces := [] }).logSec 0xA004 j.slot 1 k).conclude j.cmd 0x107 0
      | .ok p =>
        let d := (s.directory.getD noDirectory).setLen j.slot j.len
        let d := if j.ca = 1 then { d with next := j.slot } else if j.ca = 3 then { d with active := j.slot, next := 0 } else d
        let d := if d.active = 0 then { d with active := j.slot } else d
        let s := (s.writeDir d).modHost fun h => { h with pieces := [] }
        if j.ca = 3 then
          (s.modHost fun h => { h with commit := some { j with written := true } }).modSec fun x => { x with staged := some (p.running j.slot) }
        else (s.modHost fun h => { h with commit := none }).conclude j.cmd 0 0

/-! ## Security Send and Receive (R342) -/

/-- Protocol 0xE8 delivers an SPDM message; the message's second byte is its code. -/
def State.securitySend (s : State) (fn : Nat) (e : SqEntry) (data : List Nat) : Nat × State :=
  let m := toBytes (data.take (e.c11 % 2 ^ 32))
  if e.c10 / 2 ^ 24 % 256 = 0xE8 then (0, s.spdm (.secProto (fnFin fn)) 0 (msgByte m 1) m) else (stField, s)

/-- Protocol 0 lists the protocols; 0xE8 returns the oldest response, or nothing where none waits. -/
def State.securityReceive (s : State) (fn : Nat) (e : SqEntry) : Nat × List Nat × State :=
  let len := e.c11 % 2 ^ 32
  let fill (b : List Nat) : List Nat := b.take len ++ List.replicate (len - b.length) 0
  match e.c10 / 2 ^ 24 % 256 with
  | 0 => (0, fill [0, 0, 0, 0, 0, 0, 0, 2, 0x00, 0xE8], s)
  | 0xE8 =>
    match s.sec.replies.find? fun r => r.1 == fn with
    | none => (0, fill [], s)
    | some r => (0, fill (0x12 :: r.2.1 :: r.2.2), s.modSec fun x => { x with replies := x.replies.erase r })
  | _ => (stField, [], s)

/-! ## Aborts and events -/

/-- The Abort command (R274, R276): it completes after its target, or at once where it finds nothing. -/
def State.abortCommand (s : State) (c : HostCmd) (e : SqEntry) : State :=
  let open' := (s.host.cmds.filter fun x => x.kind == .abort && x.fn == c.fn && x.decided.isNone && x.stamp != c.stamp).length
  if 64 ≤ open' then s.conclude c.stamp 0x103 0
  else
    let (found, t, s) := s.abortRequest c.fn (e.c10 % 65536) (e.c10 / 65536 % 65536)
    let s := if newlyAborted found t then s.bump (fnKey c.fn R.HC_ABORT_CNT) F.HC_ABORT_CNT_ABORTED 1 else s
    match t with
    | none => s.conclude c.stamp 0 1
    | some t =>
      if t.stamp = c.stamp then s.conclude c.stamp 0 1
      else s.modCmd c.stamp fun c => { c with target := some (t.stamp, decide (found = .aborted)) }

/-- Asynchronous Event Request (R283): the 17th outstanding is refused; a pending event answers at once. -/
def State.aerCommand (s : State) (c : HostCmd) : State :=
  let others := (s.host.cmds.filter fun x => x.kind == .aer && x.fn == c.fn && x.decided.isNone && x.stamp != c.stamp).length
  if 16 ≤ others then s.conclude c.stamp 0x105 0 else s.serveAers c.fn 32

/-! ## What a fetched command does -/

/-- A command that the host island carries out whole. -/
def State.carryOut (s : State) (c : HostCmd) (e : SqEntry) (data : List Nat) : State :=
  let done (r : Nat × State) : State := r.2.conclude c.stamp r.1 0
  match e.opcode.val with
  | 0x00 => done (s.deleteSq c.fn (e.c10 % 65536))
  | 0x01 => done (s.createSq c.fn e)
  | 0x02 =>
    let (st, bytes, s) := s.getLogPage c.fn e
    s.conclude c.stamp st 0 bytes
  | 0x04 => done (s.deleteCq c.fn (e.c10 % 65536))
  | 0x05 => done (s.createCq c.fn e)
  | 0x06 =>
    let (st, bytes, s) := s.identify c.fn e
    s.conclude c.stamp st 0 bytes
  | 0x09 =>
    let (st, dw0, s) := s.setFeatures c.fn e
    s.conclude c.stamp st dw0
  | 0x0A =>
    let (st, dw0, s) := s.getFeatures c.fn e
    s.conclude c.stamp st dw0
  | 0x0D => s.manageNamespace c e data
  | 0x11 => done (s.downloadImage e data)
  | 0x15 => done (s.attachNamespace e data)
  | 0x81 => done (s.securitySend c.fn e data)
  | 0x82 =>
    let (st, bytes, s) := s.securityReceive c.fn e
    s.conclude c.stamp st 0 bytes
  | _ => s.conclude c.stamp stOpcode 0

/-- A command's lock requests (R270). -/
def HostCmd.lockReqs (c : HostCmd) (slot : Nat) : List LockReq :=
  let one (ns : Option Nat) (lo hi : Nat) (excl : Bool) : LockReq :=
    { slot := slot, stamp := c.stamp, ns := ns, lo := lo, hi := hi, excl := excl, granted := false }
  match c.kind with
  | .read | .verify => [one (some c.nsid) c.slba (c.slba + c.nlb) false]
  | .write => [one (some c.nsid) c.slba (c.slba + c.nlb) true]
  | .dsm => c.ranges.map fun r => one (some c.nsid) r.1 (r.1 + r.2) true
  | .format => [one (some c.nsid) 0 (2 ^ 65) true]
  | .cartLoad | .cartRelease => [one none 0 (2 ^ 65) true]
  | _ => []

/-- A command that passed its checks: its locks, or its effect where the host island carries it out. -/
def State.startCommand (s : State) (c : HostCmd) (e : SqEntry) (data : List Nat) : State :=
  match c.kind with
  | .admin => s.carryOut c e data
  | .abort => s.abortCommand c e
  | .aer => s.aerCommand c
  | .fwCommit => s.commitFirmware c e
  | .dsm =>
    if !e.deallocate then s.conclude c.stamp 0 0
    else
      let s := s.memWrite 6 (s.dataArea c.slot) (data.take 4096)
      (c.lockReqs c.slot).foldl (fun (t : State) r => t.enterLock c.fn r) s
  | _ => (c.lockReqs c.slot).foldl (fun (t : State) r => t.enterLock c.fn r) s

end Sys2Proof.Machine
end

