-- ==== Sys2Proof/Machine/Cal.lean ====
section
/-!
DEFINITION. Machine/Cal.lean: the calibration engine (chapter 15): the witness band-gap, calibration slots and targets, copies
and slewing of the applied coefficients, the comparator trim, and the temperature sensors.
-/

namespace Sys2Proof.Machine

/-- The calibration engine changed. -/
def State.modCal (s : State) (f : CalState → CalState) : State := { s with cal := f s.cal }

/-- An event of the calibration engine. -/
def State.logCal (s : State) (code : Nat) (a0 a1 a2 a3 : Nat := 0) : State := s.log srcCal .control code a0 a1 a2 a3

/-- The witness has deviated: the applied coefficients stand still (R322). -/
def State.frozenCal (s : State) : Bool := s.flag R.CAL_STATUS F.CAL_STATUS_BG_DEV

/-- R322. Every 1 ms the witness is compared with VBG; `dev` is their difference in 0.01 %. The second comparison in a row
above 1.0 % freezes the applied coefficients. -/
def execBandgapCompare (dev : Nat) (s : State) : Result :=
  when (s.now % ticksMs == 0) s <|
    let far := decide (100 < dev)
    let again := far && s.cal.deviant && !s.frozenCal
    let s := s.modCal fun c => { c with deviant := far }
    if again then
      let s := s.setFld R.CAL_STATUS F.CAL_STATUS_BG_DEV 1
      (s.setWarnings (setBitN s.host.warnings 2)).logCal 0x9001 dev
    else s

/-- The limits of R325: OFS within ±1,024, GAIN within 0x6000 to 0xA000. -/
def targetValid (ofs gain : Int) : Bool :=
  decide (-1024 ≤ ofs) && decide (ofs ≤ 1024) && decide (0x6000 ≤ gain) && decide (gain ≤ 0xA000)

/-- A coefficient pair as CAL_ADC_APP and CAL_ADC_TGT hold it. -/
def adcWord (ofs gain : Int) : Word := BitVec.ofNat 32 (ofSigned gain 16 * 65536 + ofSigned ofs 16)
def adcOfs (w : Word) : Int := toSigned w.toNat 16
def adcGain (w : Word) : Int := (natBits w.toNat 31 16 : Nat)

/-- A channel's bit of ADC_BAD: channels 0 to 28 in CAL_STATUS, 29 to 32 in CAL_STATUS1. -/
def State.markAdcBad (s : State) (c : Nat) : State :=
  if c < 29 then
    s.setFld R.CAL_STATUS F.CAL_STATUS_ADC_BAD (setBitN (s.fld R.CAL_STATUS F.CAL_STATUS_ADC_BAD) c)
  else s.setFld R.CAL_STATUS1 F.CAL_STATUS1_ADC_BAD (setBitN (s.fld R.CAL_STATUS1 F.CAL_STATUS1_ADC_BAD) (c - 29))

/-- R325. The target of one channel from its last 64 pairs: OFS_T = 16·z̄ and GAIN_T = round(1,638·32,768/(r̄ − z̄)). With
r̄ = z̄ there is no quotient: GAIN_T is a free value, and the target is not valid (log entry 62). -/
def State.adcTarget (s : State) (c : Nat) (pairs : List (Int × Int)) : State :=
  let sumZ := (pairs.map (·.1)).foldl (· + ·) 0
  let sumR := (pairs.map (·.2)).foldl (· + ·) 0
  let d := sumR - sumZ
  let num : Int := 1638 * 32768 * 64
  let ofs := openRound sumZ 4
  let (v, t) := s.draw
  let s := if d = 0 then t else s
  let gain : Int := if 0 < d then roundDiv num d else if d < 0 then - roundDiv num (-d) else (v : Nat)
  if d ≠ 0 && targetValid ofs gain then s.setReg (R.CAL_ADC_TGT c) (adcWord ofs gain)
  else (s.markAdcBad c).logCal 0x9002 c (arg ofs) (arg gain) 0

/-- R324, R325. The two calibration slots of every channel: `z` its shorted input, `r` the 200.0 mV point, by channel. With 64
pairs taken, the targets are formed, unless programs write them (R328). -/
def execCalibrationSlots (z r : List Int) (s : State) : Result :=
  when (s.now % ticksMs == 150) s <|
    let s := s.modCal fun k => { k with
      pairs := (indexed k.pairs).map fun (c, l) => ((z.getD c 0, r.getD c 0) :: l).take 64 }
    if s.flag R.CAL_TRIG F.CAL_TRIG_MAN then s
    else (indexed s.cal.pairs).foldl (fun (t : State) (e : Nat × List (Int × Int)) =>
      if e.2.length = 64 then t.adcTarget e.1 e.2 else t) s

/-- Sensor 19 as last reported. -/
def State.sensor19 (s : State) : Int := toSigned (s.fld (R.CAL_TEMP 19) F.CAL_TEMP_TEMP) 16

/-- Why a copy is due: at power-on once 64 pairs are taken, by temperature, or by period (R326). -/
def State.copyCause (s : State) : Option Nat :=
  if !s.cal.copied then (if s.cal.pairs.all fun l => l.length == 64 then some 0 else none)
  else
    let dt := (s.sensor19 - s.cal.copyTemp).natAbs
    if s.fld R.CAL_TRIG F.CAL_TRIG_DT ≤ dt then some 1
    else if s.cal.copyAt + s.fld R.CAL_TRIG F.CAL_TRIG_PERIOD * ticksS ≤ s.now then some 2
    else none

/-- The targets that stand. -/
def State.adcTargets (s : State) : List (Int × Int) :=
  (List.range 33).map fun c =>
    let w := s.reg (R.CAL_ADC_TGT c)
    (adcOfs w, adcGain w)

/-- The applied pair of a channel set. -/
def State.setApplied (s : State) (c : Nat) (g : Int × Int) : State := s.setReg (R.CAL_ADC_APP c) (adcWord g.1 g.2)

/-- Whether a channel's applied pair differs from its goal. -/
def State.slewingNow (s : State) : Bool :=
  (indexed s.cal.goals).any fun (c, g) =>
    let w := s.reg (R.CAL_ADC_APP c)
    decide (adcOfs w ≠ g.1) || decide (adcGain w ≠ g.2)

/-- SLEWING as it stands. -/
def State.showSlew (s : State) : State := s.setFld R.CAL_STATUS F.CAL_STATUS_SLEWING (bitOf s.slewingNow)

/-- R326. The targets are copied: at power-on the applied values take them at once, later they slew. -/
def execCalibrationCopy (s : State) : Result :=
  match s.copyCause with
  | none => .next s
  | some cause =>
    let goals := s.adcTargets
    let temp := s.sensor19
    let s := s.modCal fun k => { k with copied := true, copyTemp := temp, copyAt := s.now, goals := goals }
    let s := if cause = 0 && !s.frozenCal then
        (indexed goals).foldl (fun (t : State) (e : Nat × (Int × Int)) => t.setApplied e.1 e.2) s
      else s
    .next (s.showSlew.logCal 0x9005 (arg temp) cause)

/-- One field moves toward its goal by at most a step. -/
def stepToward (cur goal step : Int) : Int := cur + clampInt (-step) step (goal - cur)

/-- R327. Every 1 ms both fields of each channel move toward their goals together; a copy made at this tick starts with the
next (Table 15-1). -/
def execCalibrationSlew (s : State) : Result :=
  when (s.now % ticksMs == 0 && !s.frozenCal && s.cal.copied && decide (s.cal.copyAt < s.now)) s <|
    let so : Int := s.fld R.CAL_SLEW F.CAL_SLEW_OFS_STEP
    let sg : Int := s.fld R.CAL_SLEW F.CAL_SLEW_GAIN_STEP
    let s := (indexed s.cal.goals).foldl (fun (t : State) (e : Nat × (Int × Int)) =>
      let w := t.reg (R.CAL_ADC_APP e.1)
      t.setApplied e.1 (stepToward (adcOfs w) e.2.1 so, stepToward (adcGain w) e.2.2 sg)) s
    s.showSlew

/-- R328. A write of CAL_ADC_TGT[c]: ignored while MAN is 0; outside the limits it is stored at the nearest, with event
0x9002. -/
def State.writeAdcTarget (s : State) (c : Nat) (val : Word) : State :=
  if !s.flag R.CAL_TRIG F.CAL_TRIG_MAN then s
  else
    let ofs := adcOfs val
    let gain := adcGain val
    let s := s.setReg (R.CAL_ADC_TGT c) (adcWord (clampInt (-1024) 1024 ofs) (clampInt 0x6000 0xA000 gain))
    if targetValid ofs gain then s else s.logCal 0x9002 c (arg ofs) (arg gain) 1

def execAdcTargetWrite (c : Fin 33) (val : Word) (s : State) : Result := .next (s.writeAdcTarget c.val val)

/-- R329. A write of CAL_CMP_CTRL.RUN: a trim begins with the spindle STOPPED, and is refused otherwise. -/
def State.startTrim (s : State) : State :=
  if s.motion.spin.st = .stopped then
    (s.setFld R.CAL_STATUS F.CAL_STATUS_TRIM_BUSY 1).modCal fun k => { k with trimAt := some s.now }
  else s.logCal 0x9004 (s.fld R.SP_STATUS F.SP_STATUS_STATE)

def execComparatorTrim (s : State) : Result := .next s.startTrim

/-- A DAC code as it steps from −32. -/
def dacCode (d : Fin 64) : Int := (d.val : Int) - 32

/-- R329. The trim ends: each DAC is ⌊(d_r + d_f)/2⌋, and a START that waited runs. -/
def execComparatorTrimDone (rise fall : Vector (Fin 64) 3) (s : State) : Result :=
  when (s.flag R.CAL_STATUS F.CAL_STATUS_TRIM_BUSY) s <|
    let dac (k : Fin 3) : Int := floorDiv (dacCode rise[k] + dacCode fall[k]) 2
    let s := s.setFld R.CAL_CMP_DAC F.CAL_CMP_DAC_U (ofSigned (dac 0) 6)
    let s := s.setFld R.CAL_CMP_DAC F.CAL_CMP_DAC_V (ofSigned (dac 1) 6)
    let s := s.setFld R.CAL_CMP_DAC F.CAL_CMP_DAC_W (ofSigned (dac 2) 6)
    let s := s.setFld R.CAL_STATUS F.CAL_STATUS_TRIM_BUSY 0
    let s := (s.modCal fun k => { k with trimAt := none }).logCal 0x9003 (arg (dac 0)) (arg (dac 1)) (arg (dac 2))
    if s.motion.spin.restart ∧ s.motion.spin.st = .stopped then
      (s.modSpin fun x => { x with restart := false }).spinStart false
    else s

/-- A sensor's reading is valid: its domain is powered, and its head in service (R330). -/
def State.sensorValid (s : State) (k : Nat) : Bool := s.domainOn k && (16 ≤ k || s.headInService k)

/-- The highest valid sensor, the first of equals (log entry 63). -/
def hottest : List (Nat × Int) → Option (Nat × Int)
  | [] => none
  | (k, t) :: rest =>
    match hottest rest with
    | some (j, u) => if t < u then some (j, u) else some (k, t)
    | none => some (k, t)

/-- The composite temperature lies outside a function's thresholds (feature 0x04). -/
def State.temperatureBad (s : State) : Bool :=
  s.functions.any fun fn => decide (s.feature fn.val 4 0 ≤ s.kelvin) || decide (s.kelvin ≤ s.feature fn.val 4 1)

/-- R330. Every 100 µs each sensor reports, in 1/16 °C; an invalid one keeps its last TEMP (log entry 63). The composite is
held to the thresholds of each function. -/
def execTemperatureReport (readings : List Int) (s : State) : Result :=
  when (s.now % 150000 == 0) s <|
    let valid := (List.range 20).filter fun k => s.sensorValid k
    let s := (List.range 20).foldl (fun (t : State) k =>
      let r := R.CAL_TEMP k
      if valid.contains k then (t.setFld r F.CAL_TEMP_VALID 1).setFld r F.CAL_TEMP_TEMP (ofSigned (readings.getD k 0) 16)
      else t.setFld r F.CAL_TEMP_VALID 0) s
    let s := match hottest (valid.map fun k => (k, readings.getD k 0)) with
      | some (k, temp) =>
        (s.setFld R.CAL_COMPOSITE F.CAL_COMPOSITE_SOURCE k).setFld R.CAL_COMPOSITE F.CAL_COMPOSITE_TEMP (ofSigned temp 16)
      | none => s
    s.setWarnings (if s.temperatureBad then setBitN s.host.warnings 1 else clearBitN s.host.warnings 1)

end Sys2Proof.Machine
end

