-- ==== Sys2Proof/Machine/Decode.lean ====
section
/-!
DEFINITION. Machine/Decode.lean: the commands of the decode island (chapter 6): the first-pass and deep engines, the
twill and surface-parity engines, decode work, run-ahead discards, and its registers.
-/

namespace Sys2Proof.Machine

/-! ## First pass -/

/-- A waiting record is served before another: lower acquisition stamp, then head, then beam (R117). -/
def Sector.sooner (a b : Sector) : Bool :=
  a.acq < b.acq || (a.acq == b.acq && (a.head < b.head || (a.head == b.head && a.beam < b.beam)))

/-- The first of a list by `sooner`. -/
def firstSector : List Sector → Option Sector
  | [] => none
  | x :: xs => some (xs.foldl (fun m y => if y.sooner m then y else m) x)

/-- A head record that waits for a buffer: complete, or still building once it is framed (R117). -/
def Sector.waits (x : Sector) : Bool := x.stage == .waiting || (x.stage == .inFlight && x.framed)

/-- The head record to bind next: a speculative one only where no other waits (R117). -/
def State.nextHeadRecord (s : State) : Option Sector :=
  let w := s.decode.sectors.filter Sector.waits
  match firstSector (w.filter fun x => !x.spec) with
  | some x => some x
  | none => firstSector w

/-- An input buffer of an engine. -/
def FpEngine.buf (e : FpEngine) (b : Fin 2) : Option Nat := if b = 0 then e.buf0 else e.buf1
def FpEngine.setBuf (e : FpEngine) (b : Fin 2) (v : Option Nat) : FpEngine :=
  if b = 0 then { e with buf0 := v } else { e with buf1 := v }

/-- A first-pass engine changed. -/
def State.modEngine (s : State) (e : Fin 32) (f : FpEngine → FpEngine) : State :=
  s.modDec fun d => { d with engines := d.engines.set e (f d.engines[e]) }

/-- Ticks in which a complete record of n soft values moves into a buffer at 128 B per tick (R117, R96). -/
def transferTicks (n : Nat) : Nat := ceilDiv (64 + 4 * ceilDiv n 5) 128

/-- A record bound to a buffer. One that is complete moves in; one still building streams in, and is there when its last value
is (R105, R117). -/
def State.bindSector (s : State) (e : Fin 32) (b : Fin 2) (x : Sector) : State :=
  let s := s.modEngine e fun g => g.setBuf b (some x.id)
  let s := s.modDec fun d => { d with bindings := d.bindings + 1 }
  let at' := s.now + transferTicks (max x.soft.length x.channel.length)
  let cfg := (s.reg R.DC_FP_CFG).toNat
  s.modSector x.id fun y => { y with stage := .bound e.val b.val, fpCfg := cfg, inBufAt := at' }

/-- Where retained slot k of a head lies: in the area that its copies were written to (R111). -/
def State.retainedAddr (s : State) (head : Fin 16) (k : Nat) : Nat :=
  (s.head head).ingest.base + (head.val + 1) * 2 ^ 23 + k * 2 ^ 15

/-- The sector that a REFRAME order names, without its values (Table 10-11). -/
def reframeSector (s : State) (w : DecWork) : Sector :=
  let a := fieldAt w.bytes 0 4
  let src := fieldAt w.bytes 4 2
  let track := natBits a 27 9
  let slot := a % 512
  let place := twillOf (max 1 w.d) (track % 12) slot
  { id := s.decode.nextId, head := src % 16, beam := src / 16 % 16, pass := w.who.tag, kind := .reframe w.who.tag,
    layer := a / 2 ^ 28, track := track, slot := slot, group := place.1, member := place.2, band := track / 12,
    spec := false, stamp := 0, acq := 0, q0 := 0, predicted := 0, framings := [], inferred := true, framed := true,
    complete := true, lastSample := none, stage := .waiting, withdrawn := false, fpCfg := 0, inBufAt := 0,
    spilled := none, released := [], drops := [], insts := [], soft := [], channel := [], outcome := none,
    dest := fieldAt w.bytes 8 8,
    info := { SecInfo.none with
      framing := 3, syncOfs := toSigned (src / 256) 8, syncMiss := 15, formR := true } }

/-- The retained copy that a REFRAME order names (R111): found by head, beam and address. -/
def findCopy (s : State) (x : Sector) : Option (Nat × Copy) :=
  if h : x.head < 16 then
    (s.head ⟨x.head, h⟩).ingest.copies.find? fun c =>
      c.2.beam == x.beam && c.2.address == addressWord x.layer x.track x.slot
  else none

/-- A REFRAME order takes a binding: its copy is read, or it completes with "copy gone" (R50, R131). -/
def State.bindReframe (s : State) (e : Fin 32) (b : Fin 2) (w : DecWork) : State :=
  let s := s.modDec fun d => { d with reframeQ := d.reframeQ.filter (fun y => y.who.tag ≠ w.who.tag) }
  let x := reframeSector s w
  let s := s.modDec fun d => { d with nextId := d.nextId + 1, running := w :: d.running }
  match findCopy s x with
  | none => s.failSector x 7 2
  | some (k, c) =>
    let r := s.memRead 3 (s.retainedAddr (Fin.ofNat 16 x.head) k + 64) (softBytes 39172)
    let ofs := x.info.syncOfs
    let chan := unpackSoft r.bytes 39172
    let x := { x with stamp := c.stamp, channel := (chan.drop (2 + ofs).toNat).take codewordChanBits }
    let s := r.st.modDec fun d => { d with sectors := d.sectors ++ [x] }
    if r.bad.isEmpty then s.bindSector e b x
    else s.eraseSector x 7 1 fun i => { i with deepFail := true }

/-- A spilled record fetched back from its head's spill area (R113): its values, or none where a word is uncorrectable. -/
def State.fetchSpilled (s : State) (x : Sector) : Option Sector × State :=
  match x.spilled with
  | none => (some x, s)
  | some a =>
    let (lo, hi) := x.recordSpan
    let n := if x.info.formR then (hi - lo).toNat else codeBits
    let r := s.memRead 0 (a + 64) (softBytes n)
    let vals := unpackSoft r.bytes n
    (if r.bad.isEmpty then some (if x.info.formR then { x with channel := vals } else { x with soft := vals }) else none, r.st)

/-- R117, R139. A free input buffer is bound: every 32nd binding to the oldest REFRAME order, if one waits, and
otherwise the next head record; a REFRAME order also binds while no head record waits (log entry 17), and no
head record binds while the outcome ring is full (R138). `bad` says that a spilled record's fetch met an
uncorrectable word (R313). -/
def execFirstPassBind (e : Fin 32) (b : Fin 2) (bad : Bool) (s : State) : Result :=
  if (s.decode.engines[e].buf b).isSome then .next s
  else
    let rec1 := if s.outRingFull then none else s.nextHeadRecord
    let turn := (s.decode.bindings + 1) % 32 == 0
    match s.decode.reframeQ, rec1 with
    | w :: _, none => .next (s.bindReframe e b w)
    | w :: _, some x => .next (if turn then s.bindReframe e b w else bindOr x)
    | [], some x => .next (bindOr x)
    | [], none => .next s
where
  /-- The head record bound, or erased with DEEP_FAIL where its spilled copy is lost. -/
  bindOr (x : Sector) : State :=
    match s.fetchSpilled x with
    | (some y, t) =>
      if bad then t.eraseSector x 7 1 fun i => { i with deepFail := true }
      else (t.modSector x.id fun _ => y).bindSector e b y
    | (none, t) => t.eraseSector x 7 1 fun i => { i with deepFail := true }

/-- Ticks of a first-pass and of a deep iteration (R118, R121). -/
def firstPassTicks : Nat := 1600
def deepTicks : Nat := 1800

/-- Where a framing's codeword starts in a Form R record, whose first value belongs to the earlier framing. -/
def framingStart (fs : List Framing) (f : Framing) : Nat :=
  (f.ofs - fs.foldl (fun m g => min m g.ofs) f.ofs).toNat

/-- The channel values that a core starts on: the code bits of a Form C record, or a framing demodulated (R118). -/
def coreInput (x : Sector) (f : Option Framing) : Array Int :=
  match f with
  | some f => demodulate x.channel.toArray (framingStart x.framings f)
  | none => if x.info.formR then demodulate x.channel.toArray 0 else x.soft.toArray

/-- R117. A free core starts the record that is fully in its buffer; of two, the one with the lower acquisition
stamp (log entry 18). `bufErr` says that the buffer's read was uncorrectable: the codeword is erased with
HOPELESS (Table 14-6). -/
def execFirstPassStart (e : Fin 32) (bufErr : Bool) (s : State) : Result :=
  let g := s.decode.engines[e]
  let ready (o : Option Nat) : List Sector := match o.bind s.sector with
    | some x => if x.complete ∧ x.inBufAt ≤ s.now then [x] else []
    | none => []
  match g.core, firstSector (ready g.buf0 ++ ready g.buf1) with
  | none, some x =>
    let clear := fun (q : FpEngine) =>
      if q.buf0 = some x.id then { q with buf0 := none } else { q with buf1 := none }
    let s := s.modEngine e clear
    if bufErr then .next ((s.countSector x 2).eraseSector x 0 1 fun i => { i with hopeless := true })
    else
      let contest := if 2 ≤ x.framings.length then x.framings else []
      let core := DecodeCore.start x.id (coreInput x contest.head?) (natBits x.fpCfg 2 0) (natBits x.fpCfg 27 24)
        (natBits x.fpCfg 23 12) (s.now + firstPassTicks) contest
      let s := s.modEngine e fun q => { q with core := some core }
      .next (s.modSector x.id fun y => { y with stage := .firstPass e.val })
  | _, _ => .next s

/-- The parameters of first-pass decoding (R118). -/
def firstPassRule (beta : Nat) : MinSum := ⟨31, 127, beta, false⟩

/-- The parameters of deep decoding (R121). -/
def deepRule : MinSum := ⟨127, 511, 0, true⟩

/-- A beats b in the framing contest of R49. -/
def contestWins (a : Framing) (wa : Nat) (b : Framing) (wb : Nat) : Bool :=
  wa < wb || (wa == wb && (a.ofs.natAbs < b.ofs.natAbs ||
    (a.ofs.natAbs == b.ofs.natAbs && (a.miss < b.miss || (a.miss == b.miss && a.ofs < b.ofs)))))

/-- FRAMING of a contest's winner: 1 where it is the nearer to q0, the earlier on equal distance (Table 3-8). -/
def contestCode (w l : Framing) : Nat :=
  if w.ofs.natAbs < l.ofs.natAbs ∨ (w.ofs.natAbs = l.ofs.natAbs ∧ w.ofs < l.ofs) then 1 else 2

/-- The record of a sector after an iteration. -/
def SecInfo.afterFirst (i : SecInfo) (iters weight flipped : Nat) : SecInfo :=
  { i with fpIter := iters, syndrome := weight, flipped := flipped }

/-- The end of a first-pass decode: accepted, erased as hopeless, or on to the deep queue (R119). -/
def State.endFirstPass (s : State) (x : Sector) (c : DecodeCore) (post : Array Int) (w iters : Nat) : State :=
  let x := { x with info := x.info.afterFirst iters w (flippedCount c.ch post) }
  let s := s.modSector x.id fun _ => x
  if w = 0 then s.acceptSector x c.ch post false
  else if c.hopeless ≠ 0 ∧ c.hopeless < w then
    (s.countSector x 2).eraseSector x 0 1 fun i => { i with hopeless := true }
  else s.enterDeep x c.ch

/-- One iteration of a core that is past its contest, or the end of its decode. -/
def State.runFirstPass (s : State) (e : Fin 32) (x : Sector) (c : DecodeCore) (extra : Nat) : State :=
  let (post, msg) := iterate (firstPassRule c.beta) c.post c.msg
  let w := syndromeWeight post
  let it := c.iter + 1
  if w = 0 ∨ c.cap ≤ it then
    (s.modEngine e fun q => { q with core := none }).endFirstPass x c post w (it + extra)
  else
    let c' := { c with post := post, msg := msg, iter := it, iterEnds := s.now + firstPassTicks }
    let s := s.modEngine e fun q => { q with core := some c' }
    s.modSector x.id fun y => { y with info := y.info.afterFirst (it + extra) w (flippedCount c.ch post) }

/-- R118, R49. An iteration ends: first the two framings of a contest in turn, then the winner's decode. -/
def execFirstPassIterationEnd (e : Fin 32) (s : State) : Result :=
  match s.decode.engines[e].core with
  | none => .next s
  | some c =>
    if s.now < c.iterEnds then .next s
    else match s.sector c.sector with
    | none => .next (s.modEngine e fun q => { q with core := none })
    | some x =>
      match c.contest, c.firstWeight with
      | fa :: fb :: _, none =>
        -- the first framing's iteration: its weight is kept, and the second framing starts
        let (post, _) := iterate (firstPassRule c.beta) c.post c.msg
        let w := syndromeWeight post
        let c' := DecodeCore.start x.id (coreInput x (some fb)) c.cap c.beta c.hopeless (s.now + firstPassTicks)
          [fa, fb]
        let s := s.modEngine e fun q => { q with core := some { c' with firstWeight := some w } }
        .next (s.modSector x.id fun y => { y with info := { y.info with fpIter := 1, syndrome := w } })
      | fa :: fb :: _, some wa =>
        -- the second framing's iteration: the lower weight wins and keeps its first iteration
        let (post, msg) := iterate (firstPassRule c.beta) c.post c.msg
        let wb := syndromeWeight post
        let first := contestWins fa wa fb wb
        let (win, lose) := if first then (fa, fb) else (fb, fa)
        let ch := coreInput x (some win)
        let (post, msg) := if first then iterate (firstPassRule c.beta) ch (Array.replicate codeChecks [])
          else (post, msg)
        let w := if first then wa else wb
        let code := contestCode win lose
        let s := if code = 2 then s.bump (R.HD_SYNC_CNT1 x.head) F.HD_SYNC_CNT1_FAR_WON 1 else s
        let raw := x.info.raws.getD (if win == fa then 0 else 1) 0
        let (erased, mean) := x.quality win
        let info := { x.info with
          framing := code, syncOfs := win.ofs, syncMiss := win.miss, fpIter := 2, syndrome := w,
          flipped := flippedCount ch post, raws := [raw, raw], erasedBits := erased, meanAbs := mean
          dropout := x.dropIn win }
        let x := { x with info := info, framings := [win], stamp := x.markStamp win }
        let s := s.modSector x.id fun _ => x
        let c := { c with ch := ch, post := post, msg := msg, iter := 1, contest := [win], firstWeight := none }
        if w = 0 ∨ c.cap ≤ 1 then
          .next ((s.modEngine e fun q => { q with core := none }).endFirstPass x c post w 2)
        else
          .next (s.modEngine e fun q => { q with core := some { c with iterEnds := s.now + firstPassTicks } })
      | [_], _ => .next (s.runFirstPass e x c 1)
      | [], _ => .next (s.runFirstPass e x c 0)

/-! ## Deep decoding -/

/-- A channel value scaled by SCALE/128, to nearest with ties away from zero, within ±63 (R121). -/
def deepScale (scale : Nat) (v : Int) : Int := clampInt (-63) 63 (roundDiv (v * scale) 128)

/-- A deep core on a framing's channel values: the posteriors start on the scaled values, and FLIPPED compares with the values
themselves (R121, Table 6-4). -/
def deepCore (id : Nat) (ch : Array Int) (scale cap ends : Nat) : DecodeCore :=
  { DecodeCore.start id ch cap 0 0 ends [] with post := ch.map (deepScale scale) }

/-- R120, R121. A free deep engine takes the first entry of the queue and reads its values from deep staging. Where that read
is uncorrectable (`bad`, or as memory holds it) the sector is erased with DEEP_FAIL (R313). -/
def execDeepStart (e : Fin 4) (bad : Bool) (s : State) : Result :=
  match s.decode.deep[e], s.decode.deepQ with
  | none, ⟨id, _, _, addr⟩ :: _ =>
    let s := (s.modDec fun d => { d with deepQ := d.deepQ.drop 1 }).deepEpisode
    match s.sector id with
    | none => .next s
    | some x =>
      let r := s.memRead 3 (addr + 64) (softBytes codeBits)
      let s := r.st
      if bad || !r.bad.isEmpty then .next ((s.countSector x 4).eraseSector x 1 1 fun i => { i with deepFail := true })
      else
        let core := deepCore id (unpackSoft r.bytes codeBits).toArray (s.fld R.DC_DEEP_CFG F.DC_DEEP_CFG_SCALE)
          (s.fld R.DC_DEEP_CFG F.DC_DEEP_CFG_ITER) (s.now + deepTicks)
        let s := s.modDec fun d => { d with deep := d.deep.set e (some core) }
        .next (s.modSector id fun y => { y with stage := .deep e.val })
  | _, _ => .next s

/-- R121, R123. A deep iteration ends: acceptance at zero syndrome, erasure with DEEP_FAIL at the cap. -/
def execDeepIterationEnd (e : Fin 4) (s : State) : Result :=
  match s.decode.deep[e] with
  | none => .next s
  | some c =>
    if s.now < c.iterEnds then .next s
    else
      let free := s.modDec fun d => { d with deep := d.deep.set e none }
      match s.sector c.sector with
      | none => .next free
      | some x =>
        let (post, msg) := iterate deepRule c.post c.msg
        let w := syndromeWeight post
        let it := c.iter + 1
        let info := { x.info with deepIter := it, syndrome := w, flipped := flippedCount c.ch post }
        let x := { x with info := info }
        if w = 0 then .next ((free.modSector x.id fun _ => x).acceptSector x c.ch post true)
        else if c.cap ≤ it then
          .next ((free.countSector x 4).eraseSector x 1 1 fun i => { i with deepFail := true })
        else
          let c' := { c with post := post, msg := msg, iter := it, iterEnds := s.now + deepTicks }
          let s := s.modDec fun d => { d with deep := d.deep.set e (some c') }
          .next (s.modSector x.id fun _ => x)

/-! ## Twill -/

/-- What a twill decode finds: the status of Table 6-5, the members with new data, and the first failing column. -/
structure TwillPlan where
  status  : Nat
  newData : List (Nat × List Nat)
  column  : Nat

/-- The bytes of column j of the members, an unknown one counted as 0. -/
def twillColumn (mem : List (Option (Array Nat))) (j : Nat) : List Nat :=
  mem.map fun m => match m with
    | some a => a.getD j 0
    | none => 0

/-- The member that a column's syndromes locate (R126). -/
def columnMember (c : List Nat) : Option Nat := locate 16 (syn0 c) (syn1 c)

/-- Twill decoding by the number of unknowns (R126). -/
def twillPlan (checkAll errEn : Bool) (mem : List (Option (Array Nat))) : TwillPlan :=
  let unk := (List.range 16).filter fun i => (mem.getD i none).isNone
  let cols := (List.range 4096).map (twillColumn mem)
  let bad (c : List Nat) : Bool := syn0 c != 0 || syn1 c != 0
  match unk with
  | [] =>
    if !checkAll then ⟨0, [], 0⟩
    else match (indexed cols).find? fun e => bad e.2 with
      | none => ⟨0, [], 0⟩
      | some (j0, c0) =>
        if !errEn then ⟨3, [], j0⟩
        else
          let who := columnMember c0
          match (indexed cols).find? fun e => bad e.2 && (columnMember e.2 != who || who.isNone) with
          | some (j, _) => ⟨3, [], j⟩
          | none =>
            let i := who.getD 0
            ⟨5, [(i, cols.map fun c => c.getD i 0 ^^^ syn0 c)], 0⟩
  | [a] =>
    let data := cols.map syn0
    match (indexed cols).find? fun e => syn1 (e.2.set a (syn0 e.2)) != 0 with
    | some (j, _) => ⟨3, [], j⟩
    | none => ⟨1, [(a, data)], 0⟩
  | [a, b] =>
    let xy := cols.map fun c => twoUnknown 16 a b (syn0 c) (syn1 c)
    ⟨1, [(a, xy.map (·.1)), (b, xy.map (·.2))], 0⟩
  | _ => ⟨2, [], 0⟩

/-- Sixteen members read: those not in the mask, from their addresses; one with an uncorrectable word, or outside
memory, counts as unknown (R313). -/
def State.readMembers (s : State) (mask : Nat) (addrs : List Nat) : List (Option (Array Nat)) × State :=
  (indexed addrs).foldl (fun (acc, t) (i, a) =>
    if testBitN mask i then (acc ++ [none], t)
    else
      let r := t.memRead 3 a 4096
      (acc ++ [if r.bad.isEmpty then some r.bytes.toArray else none], r.st)) ([], s)

/-- Ticks of a twill or surface-parity job that reads m members and writes e (R127): 64 + 128·(m + e) decode cycles. -/
def jobTicks (m e : Nat) : Nat := ceilDiv ((64 + 128 * (m + e)) * 5) 4

/-- The unknown mask and the sixteen addresses of a job. -/
def twillInputs : TwillJob → Nat × List Nat
  | .group g => (g.unknownMask, (List.range 16).map fun i => ((g.members.lookup i).map (·.data)).getD 0)
  | .enc w => (0xC000, (List.range 16).map fun i => fieldAt w.bytes (8 + 8 * i) 8)
  | .dec w => (fieldAt w.bytes 6 2, (List.range 16).map fun i => fieldAt w.bytes (8 + 8 * i) 8)

/-- CHECK_ALL and ERR_EN for a job: as a group closed, or as they stand for an order. -/
def State.twillFlags (s : State) : TwillJob → Bool × Bool
  | .group g => (g.checkAll, g.errEn)
  | _ => (s.flag R.DC_TWILL_CFG F.DC_TWILL_CFG_CHECK_ALL, s.flag R.DC_TWILL_CFG F.DC_TWILL_CFG_ERR_EN)

/-- The plan of a job over the members as memory holds them, with the mask of unknowns and the state after the
reads. More than two unknowns by the mask read nothing (R127). -/
def State.planTwill (s : State) (j : TwillJob) : TwillPlan × Nat × State :=
  let (mask, addrs) := twillInputs j
  if 2 < popCount 16 mask then (⟨2, [], 0⟩, mask, s)
  else
    let (mem, t) := s.readMembers mask addrs
    let (ca, ee) := s.twillFlags j
    let unk := ((List.range 16).map fun i => if (mem.getD i none).isNone then 2 ^ i else 0).sum
    (twillPlan ca ee mem, unk, t)

/-- R127. The idle engine takes the next job: TWILL_ENC work, then closed groups in order, then TWILL_DEC work. -/
def execTwillJobStart (s : State) : Result :=
  let start (s : State) (j : TwillJob) : State :=
    let (plan, unk, _) := s.planTwill j
    let m := if plan.status = 2 then 0 else 16 - popCount 16 unk
    s.modDec fun d => { d with twill := some (j, s.now + jobTicks m plan.newData.length) }
  match s.decode.twill, s.decode.twillEncQ, s.decode.twillQ, s.decode.twillDecQ with
  | none, w :: r, _, _ => .next (start (s.modDec fun d => { d with twillEncQ := r }) (.enc w))
  | none, [], g :: r, _ => .next (start (s.modDec fun d => { d with twillQ := r }) (.group g))
  | none, [], [], w :: r => .next (start (s.modDec fun d => { d with twillDecQ := r }) (.dec w))
  | _, _, _, _ => .next s

/-- The counters and the event of a twill outcome (Tables 6-6 and 6-20); `count` raises a counter, at once or in the band that
holds it (R135). -/
def State.countTwill (s : State) (p : TwillPlan) (head band g unk : Nat) (enc : Bool) (count : State → Nat → Nat → State) :
    State :=
  if p.status = 2 then (count s 8 1).logDec 0x3004 head band g unk
  else if p.status = 3 then (count s 8 1).logDec 0x3005 head band g p.column
  else if enc then s
  else count s 7 p.newData.length

/-- The members of a plan by bit. -/
def TwillPlan.mask (p : TwillPlan) : Nat := (p.newData.map fun e => 2 ^ e.1).sum

/-- The header of a rebuilt member (R125): its address and twill fields from its position, version 1, the band-assembly stamp
of a decoded member, tag 0, the flags of its position (a spare, a parity member), and the CRC over them and its payload. -/
def rebuiltHeader (layer track slot d g i asm : Nat) (payload : List Nat) : List Nat :=
  let h := natBytes 4 (addressWord layer track slot) ++ natBytes 2 (16 * g + i) ++ natBytes 2 1 ++ natBytes 8 asm ++
    natBytes 8 0 ++ natBytes 4 (bitOf (decide (16 * d ≤ slot)) + 2 * bitOf (decide (14 ≤ i)))
  h ++ natBytes 4 (crc32 (h ++ payload))

/-- The band-assembly stamp that a group's rebuilt headers carry: that of its first decoded member, which is one choice of "any
decoded member" (R125; log entry 138). -/
def Group.assembly (g : Group) : Nat :=
  ((List.range 16).findSome? fun i => (g.members.lookup i).bind fun m => if m.known then some m.asm else none).getD 0

/-- Address, twill fields and tag as a rebuilt header gives them to its sector record (Tables 3-5 and 6-4). -/
def rebuiltRecord (h : List Nat) (stamp : Stamp) (head beam outcome path pass : Nat) (i : SecInfo) (spec work : Bool)
    (data : Nat) : List Nat :=
  sectorRecord stamp (fieldAt h 0 4) head beam outcome path pass (fieldAt h 4 2 / 16) (fieldAt h 4 2 % 16) i spec work data
    (fieldAt h 16 8)

/-- The pitch word that a pass's bands are laid out by (R52). -/
def State.passFmt (s : State) (head pass : Nat) : Nat :=
  match s.passOf head pass with
  | some p => p.cfg.fmt
  | none => (s.reg (R.HD_FMT_CFG head)).toNat

/-- A member of a group that the twill engine has rebuilt or corrected: its payload, then its sector record (R125, R138). -/
def State.putMember (s : State) (g : Group) (d : Nat) (corrected : Bool) (spec : Option (Nat × Nat)) (e : Nat × List Nat) : State :=
  let (addr, s) := s.payloadAddr g.head g.pass g.layer g.band
  let place := memberPlace d g.g e.1
  let m := (g.members.lookup e.1).getD ⟨.erased, false, 0, 0, 0, s.now, 0, 12 * g.band + place.1, place.2, SecInfo.none⟩
  let s := (s.memWrite 3 addr e.2).releaseCopy (sameSurface g.head) (addressWord g.layer m.track m.slot)
  let h := rebuiltHeader g.layer m.track m.slot d g.g e.1 g.assembly e.2
  s.emitRecord ⟨rebuiltRecord h m.stamp g.head m.beam (outcomeCode m.outcome) 2 g.pass
    { m.info with corrected := corrected } spec.isSome false addr, g.head, g.pass, false, spec⟩

/-- A group of a pass is decoded: rebuilt members written, their records, and the group's (R126, R138). -/
def State.endGroupJob (s : State) (g : Group) : State :=
  let (p, unk, s) := s.planTwill (.group g)
  let d := max 1 (twillStep (fmtU (s.passFmt g.head g.pass) g.band))
  let spec := specMark s g.head g.pass g.layer g.band
  let s := p.newData.foldl (fun t e => t.putMember g d (p.status == 5) spec e) s
  let s := s.emitGroup g p.status unk p.mask
  s.countTwill p g.head g.band g.g unk false fun t k n => t.countIn g.head g.pass g.layer g.band k n

/-- A member that a TWILL_DEC order has rebuilt or corrected: its payload, then its sector record. The band-assembly stamp is open
(R125). -/
def State.putOutput (s : State) (w : DecWork) (layer band head g addr : Nat) (corrected : Bool) (stamp : Stamp)
    (e : Nat × List Nat) : State :=
  let s := s.memWrite 3 addr e.2
  let place := memberPlace (max 1 w.d) g e.1
  let s := s.releaseCopy (sameSurface head) (addressWord layer (12 * band + place.1) place.2)
  let (asm, s) := s.draw
  let h := rebuiltHeader layer (12 * band + place.1) place.2 (max 1 w.d) g e.1 (asm % 2 ^ 64) e.2
  s.emitRecord ⟨rebuiltRecord h stamp head 0 0 2 w.who.tag { SecInfo.none with corrected := corrected } false true
    addr, head, w.who.tag, true, none⟩

/-- A TWILL_DEC or TWILL_ENC order ends: outputs written, its records and its completion, whose status is that of the
group record (R131; log entry 15). -/
def State.endTwillWork (s : State) (j : TwillJob) (w : DecWork) (enc : Bool) : State :=
  let (p, unk, s) := s.planTwill j
  let bw := fieldAt w.bytes 0 4
  let src := fieldAt w.bytes 4 2
  let (layer, band, head, g) := (bw / 2 ^ 28, natBits bw 27 9 / 12, src % 16, src / 16)
  let (_, addrs) := twillInputs j
  let stamp := s.stamp .decode
  let first := s.nextRecordAddr
  let put (t : State) (e : Nat × List Nat) : State :=
    let addr := addrs.getD e.1 0
    if enc then t.memWrite 3 addr e.2 else t.putOutput w layer band head g addr (p.status == 5) stamp e
  let s := p.newData.foldl put s
  let s := s.emitRecord ⟨groupRecord stamp bw head p.status w.who.tag g unk p.mask 0 true, head, w.who.tag, true, none⟩
  let s := s.countTwill p head band g unk enc State.bumpDc
  s.completeWork w.who p.status first

/-- R126, R131. The twill engine's job ends. -/
def execTwillJobEnd (s : State) : Result :=
  match s.decode.twill with
  | none => .next s
  | some (j, t) =>
    if s.now < t then .next s
    else
      let s := s.modDec fun d => { d with twill := none }
      match j with
      | .group g => .next (s.endGroupJob g)
      | .enc w => .next (s.endTwillWork j w true)
      | .dec w => .next (s.endTwillWork j w false)

/-! ## Surface parity -/

/-- Data surfaces of a mode: 7 in 7+1, 6 in 6+2. -/
def spData (mode : Nat) : Nat := if mode = 2 then 6 else 7

/-- The surfaces of a stripe in the order of the code's places: the data surfaces in ascending order, then P, then in 6+2 Q,
which follows P (R129). Which surface holds P is log entry 19. -/
def spSurfaces (mode p : Nat) : List Nat :=
  let parity := if mode = 2 then [p % 8, (p + 1) % 8] else [p % 8]
  (List.range 8).filter (fun k => !parity.contains k) ++ parity

/-- The XOR of α^k·D_k over known data (R130). -/
def spQ (ds : List Nat) : Nat := ((indexed ds).map fun (k, d) => gfMul (gfPow k) d).foldl (· ^^^ ·) 0

/-- One byte column with unknown places set to 0: the values of the unknown places (R130). -/
def spColumn (n : Nat) (unk : List Nat) (c : List Nat) : List (Nat × Nat) :=
  let d := c.take n
  let p := c.getD n 0
  let q := c.getD (n + 1) 0
  let pd := syn0 d
  let solved : List Nat := match unk.filter (· < n) with
    | [x] =>
      if n ∈ unk then d.set x (gfMul (q ^^^ spQ d) (gfInv (gfPow x)))
      else d.set x (p ^^^ pd)
    | [x, y] =>
      let pxy := p ^^^ pd
      let dx := gfMul ((q ^^^ spQ d) ^^^ gfMul (gfPow y) pxy) (gfInv (gfPow x ^^^ gfPow y))
      (d.set x dx).set y (pxy ^^^ dx)
    | _ => d
  unk.map fun i =>
    if i < n then (i, solved.getD i 0)
    else if i = n then (i, syn0 solved)
    else (i, spQ solved)

/-- Data places, unknown places and addresses by place of a surface-parity order, which gives its mask and its addresses by
surface (Table 10-11): for SP_ENC the parity places are unknown. -/
def spInputs (w : DecWork) : Nat × List Nat × List Nat :=
  let mode := fieldAt w.bytes 0 4 % 4
  let n := spData mode
  let surf := spSurfaces mode (Config.paritySurface (fieldAt w.bytes 0 72))
  let unk := if w.op = 4 then (List.range 8).filter (fun i => n ≤ i)
    else (List.range 8).filter fun i => testBitN (fieldAt w.bytes 6 2) (surf.getD i 0)
  (n, unk, surf.map fun k => fieldAt w.bytes (8 + 8 * k) 8)

/-- R130. The idle engine takes the next order. -/
def execSpJobStart (s : State) : Result :=
  match s.decode.sp, s.decode.spQ with
  | none, w :: r =>
    let (n, unk, _) := spInputs w
    let t := if unk.length ≤ 8 - n then jobTicks (8 - unk.length) unk.length else jobTicks 0 0
    .next (s.modDec fun d => { d with spQ := r, sp := some (w, s.now + t) })
  | _, _ => .next s

/-- A surface-parity order ends: the unknown payloads rebuilt and written, or too many unknowns (R130, R313). -/
def State.endSp (s : State) (w : DecWork) : State :=
  let (n, unk, addrs) := spInputs w
  let fail (s : State) : State :=
    (s.logDec 0x3009 w.who.tag (workStatus 4)).completeWork w.who (workStatus 4) 0
  if 8 - n < unk.length then fail s
  else
    let mask := (unk.map (2 ^ ·)).sum
    let (mem, s) := s.readMembers mask addrs
    if (indexed mem).any fun (i, m) => m.isNone && !(unk.contains i) then fail s
    else
      let cols := (List.range 4096).map fun j => spColumn n unk (twillColumn mem j)
      let first := s.nextRecordAddr
      let stamp := s.stamp .decode
      let put (s : State) (i : Nat) : State :=
        let data := cols.map fun c => (c.lookup i).getD 0
        let s := s.memWrite 3 (addrs.getD i 0) data
        if w.op = 4 then s
        else
          -- the order gives neither the address nor the twill place that the rebuilt header needs: log entry 19
          let (v, s) := s.draw
          let (asm, s) := s.draw
          let (layer, track, slot) := (v / 2 ^ 28 % 16, natBits v 27 9, v % 512)
          let s := s.releaseCopy (fun _ => true) (addressWord layer track slot)
          let h := rebuiltHeader layer track slot (v / 2 ^ 32 % 32) (v / 2 ^ 37 % 4096) (v / 2 ^ 49 % 16) (asm % 2 ^ 64) data
          s.emitRecord ⟨rebuiltRecord h stamp (v / 2 ^ 53 % 16) (v / 2 ^ 57 % 16) 0 4 w.who.tag SecInfo.none false true
            (addrs.getD i 0), 0, w.who.tag, true, none⟩
      (unk.foldl put s).completeWork w.who 0 (if w.op = 4 then 0 else first)

/-- R130, R131. The surface-parity engine's order ends. -/
def execSpJobEnd (s : State) : Result :=
  match s.decode.sp with
  | none => .next s
  | some (w, t) => when (t ≤ s.now) s <| (s.modDec fun d => { d with sp := none }).endSp w

/-! ## Work, discards and registers -/

/-- R131. An order arrives over the control-to-decode crossing and joins its engine's queue; D is taken from the named
head's HD_FMT_CFG as it stands. -/
def execDecodeWorkArrival (s : State) : Result :=
  match s.decode.workXing with
  | [] => .next s
  | w :: rest =>
    let s := s.modDec fun d => { d with workXing := rest }
    let a := fieldAt w.bytes 0 4
    let head := fieldAt w.bytes 4 2 % 16
    let band := natBits a 27 9 / 12
    let w := { w with d := twillStep (fmtU (s.reg (R.HD_FMT_CFG head)).toNat band) }
    .next <| s.modDec fun d => match w.op with
      | 1 => { d with reframeQ := d.reframeQ ++ [w] }
      | 2 => { d with twillDecQ := d.twillDecQ ++ [w] }
      | 3 => { d with twillEncQ := d.twillEncQ ++ [w] }
      | _ => { d with spQ := d.spQ ++ [w] }

/-- R134. A discard report of the placement assist reaches the decode island: an unclaimed band is discarded whole. -/
def execRunAheadDiscardReport (head : Fin 16) (layer band : Nat) (s : State) : Result :=
  match s.decode.runAhead.find? fun r => r.head == head.val && r.layer == layer && r.band == band && r.claim.isNone with
  | some r => .next (s.discardBand r 0)
  | none => .next s

/-- R138. A program writes DC_OUT_CONS: records that waited enter the ring as far as room goes. -/
def execDcOutConsWrite (val : Word) (s : State) : Result :=
  let s := (s.setFld R.DC_OUT_CONS F.DC_OUT_CONS_CONS val.toNat).outEpisode
  .next (s.drainRecords s.decode.waiting.length)

/-- A write of DC_CNT_CLR with CLEAR sets every decode counter to 0 (Table 6-18). -/
def execDcCntClear (val : Word) (s : State) : Result :=
  .next <| if getFlag val F.DC_CNT_CLR_CLEAR then (List.range 12).foldl (fun t k => t.setReg (R.DC_CNT k) 0) s else s

/-- A pass is open on some head. -/
def State.passAnywhere (s : State) : Bool := s.heads.any fun h => h.pass.isSome

/-- R139. A write of the outcome ring's or the run-ahead area's base, both halves at once: ignored with event 0x300A while a
pass is open on any head. -/
def execDcBaseWrite (ra : Bool) (lo hi : Word) (s : State) : Result :=
  let (rl, rh, al) := if ra then (R.DC_RA_BASE_LO, R.DC_RA_BASE_HI, 2 ^ 20)
    else (R.DC_OUT_BASE_LO, R.DC_OUT_BASE_HI, 2 ^ 22)
  .next <| if s.passAnywhere then s.logDec 0x300A rl
    else (s.setReg rl (BitVec.ofNat 32 (lo.toNat / al * al))).setReg rh (BitVec.ofNat 32 (hi.toNat % 256))

end Sys2Proof.Machine
end

