-- ==== Sys2Proof/Machine/Framing.lean ====
section
/-!
DEFINITION. Machine/Framing.lean: servo frames, tags and address words, the flywheel's losses, and the format
register (R42, R43, R45, R372).
-/

namespace Sys2Proof.Machine

/-- A frame is absent or rejected: MISS_RUN rises, and at the 32nd in a row the flywheel is lost (R45). -/
def State.missFrame (s : State) (n : Fin 16) : State :=
  let s := s.bump (R.HD_FLY_STATUS n.val) F.HD_FLY_STATUS_MISS_RUN 1
  if s.fld (R.HD_FLY_STATUS n.val) F.HD_FLY_STATUS_MISS_RUN = 32 then
    let h := s.head n
    let last := match h.fly.frames with
      | k :: _ => k.tc2 / 2
      | [] => 0
    let pass := match h.pass with
      | some p => p.no
      | none => 0
    let s := s.setFld (R.HD_FLY_STATUS n.val) F.HD_FLY_STATUS_LOST_SEEN 1
    let s := s.modHead n fun h => { h with fly := { h.fly with frames := [] } }
    let s := s.updateReady n
    let s := s.logHead n 0x1302 pass (last % 2 ^ 32) 32
    (s.gateFails n 0).openNotReady n
  else s

/-- The flywheel's prediction of a frame's centre stamp, in half ticks. -/
def predictFrame2 (f : Flywheel) (idx : Nat) : Option Int :=
  match flyEnds f with
  | none => none
  | some (k, j) =>
    let num := ((frameAngle idx : Int) - frameAngle k.idx) * ((k.tc2 : Int) - j.tc2)
    let den := 2 * ((frameAngle k.idx : Int) - frameAngle j.idx)
    some ((k.tc2 : Int) + 2 * roundDiv num den)

/-- The acceptance tests of R45 for a frame with both crossings. -/
def acceptsFrame (f : Flywheel) (idx tc2 : Nat) : Bool :=
  match predictFrame2 f idx, flyRate f with
  | some p, some (num, den) => decide (2 * ((tc2 : Int) - p).natAbs * den ≤ num)
  | _, _ => true

/-- The tag of a frame from the span between its mark's edges: no mark, below 300 nm of travel, or longer (R43). -/
def tagOf (f : Flywheel) (circ span : Nat) : Option Tag :=
  if span = 0 then some .none
  else match flyRate f with
    | some (num, den) => some (if span * den * circ < 300 * num * unitsPerRev then .short else .marker)
    | none => none

/-- A crossing that the chevron timer has found stands only where the servo RF samples around it have verified: lost samples
leave the crossings in their span unfound (R66). -/
def Link.found (l : Link) (x : Option Stamp) : Option Stamp :=
  x.filter fun t => l.srf.any fun (a, b) => decide (a ≤ t) && decide (t < b)

/-- R42, R45, R148. A servo frame is complete: with both crossings its centre stamp and offset form and the offset goes
to the loop engine; without, the frame is marked no-chevron. Its tag joins the address word in progress. `no` is the frame's
running number, which stands for an angle once an address word has located the seam (R43; log entry 146). The offset is
rounded to the nearest 0.125 nm, and none is sent while the flywheel has no rate (log entry 145). -/
def execServoFrame (head : Fin 16) (no : Nat) (fwd bwd : Option Stamp) (span : Nat) (s : State) : Result :=
  let n := head
  when (s.headInService n.val && decide ((s.head n).fly.nextIdx ≤ no)) s <|
    let fmt := fmtNow s n
    let circ := circNm (fmtR0 fmt) (fmtPitch fmt) (bandNow (s.head n))
    let idx := no + (s.head n).fly.origin
    let fwd := (s.head n).link.found fwd
    let bwd := (s.head n).link.found bwd
    let s := s.modHead n fun h => { h with fly := { h.fly with nextIdx := no + 1 } }
    let s := match tagOf (s.head n).fly circ span with
      | some t => s.modHead n fun h => { h with fly := { h.fly with tags := (idx, t) :: h.fly.tags.take 30 } }
      | none => s.modHead n fun h => { h with fly := { h.fly with tags := [] } }
    match fwd, bwd with
    | some f, some b =>
      let tc2 := f + b
      let good := acceptsFrame (s.head n).fly idx tc2
      let s := if good then
          let s := s.modHead n fun h => { h with fly := { h.fly with frames := ⟨idx, tc2⟩ :: h.fly.frames.take 8 } }
          (s.setFld (R.HD_FLY_STATUS n.val) F.HD_FLY_STATUS_MISS_RUN 0).updateReady n
        else s.missFrame n
      let s := match flyRate (s.head n).fly with
        | some (num, den) =>
          let y := chevronOffset (fmtPitch fmt) (b - f) num den circ
          let s := s.modHead n fun h => { h with fly := { h.fly with offset := some (y, tc2) } }
          s.modLoopHead n fun h => { h with xing := h.xing ++ [.chevron ⟨y, tc2⟩] }
        | none => s
      if good then s.rateMatch n idx (tc2 / 2) else s
    | _, _ => s.missFrame n

/-- R45. An expected servo frame is absent. -/
def execServoFrameMissed (head : Fin 16) (no : Nat) (s : State) : Result :=
  when (s.headInService head.val && decide ((s.head head).fly.nextIdx ≤ no)) s <|
    let s := s.modHead head fun h => { h with fly := { h.fly with nextIdx := no + 1, tags := [] } }
    s.missFrame head

/-- The index of the marker's frame and the 30 bits of the 31 tags that end with the newest, when they lie on consecutive
frames, begin with a marker and hold no other. Once the seam is located, a word begins only at frames 31j (R43). -/
def wordTags (f : Flywheel) (located : Bool) : Option (Nat × List Bool) :=
  match (f.tags.take 31).reverse with
  | (i0, .marker) :: rest =>
    if rest.length = 30 ∧ (indexed rest).all (fun (k, j, t) => j == i0 + k + 1 && t != .marker) ∧
        (located = true → i0 % 31 = 0) then
      some (i0, rest.map fun (_, t) => t == .short)
    else none
  | _ => none

/-- An accepted word j whose marker stood on the frame of index i0 locates the seam: that frame is frame 31j of its revolution,
and every index moves by what is missing (R43). -/
def State.locateSeam (s : State) (n : Fin 16) (i0 : Nat) (w : AddrWord) : State :=
  let d := (31 * w.word + framesPerRev - i0 % framesPerRev) % framesPerRev
  s.modHead n fun h => { h with fly := { h.fly with
    origin := h.fly.origin + d
    frames := h.fly.frames.map fun f => { f with idx := f.idx + d }
    tags := h.fly.tags.map fun (i, t) => (i + d, t) } }

/-- The number that bits spell, the first the most significant. -/
def bitsNat (l : List Bool) : Nat := l.foldl (fun v b => 2 * v + if b then 1 else 0) 0

/-- The address word that tags spell, where its CRC-3 holds (R43). -/
def parseWord (bits : List Bool) : Option AddrWord :=
  let v := bitsNat bits
  let w : AddrWord := { word := natBits v 29 26, layer := natBits v 25 22, track := natBits v 21 3 }
  if addrCrc w = natBits v 2 0 then some w else none

/-- HD_ADDR holds an accepted word. -/
def State.setAddr (s : State) (n : Fin 16) (w : AddrWord) : State :=
  let r := R.HD_ADDR n.val
  (((s.setFld r F.HD_ADDR_VALID 1).setFld r F.HD_ADDR_WORD w.word).setFld r F.HD_ADDR_LAYER w.layer).setFld r
    F.HD_ADDR_TRACK w.track

/-- R43. An address word whose CRC holds: while ADDR_OK is 1 it updates HD_ADDR, or, where it disagrees with the expected
address, clears ADDR_OK; while ADDR_OK is 0 two consecutive ones in agreement set it. The word that disagrees is the first of
the two. -/
def State.acceptWord (s : State) (n : Fin 16) (i0 : Nat) (w : AddrWord) : State :=
  let f := (s.head n).fly
  if s.flag (R.HD_FLY_STATUS n.val) F.HD_FLY_STATUS_ADDR_OK && f.expected.isSome then
    if f.expected = some (w.layer, w.track) then (s.setAddr n w).locateSeam n i0 w
    else s.disagree n (some w) (addrPlace w.layer w.track) w.word
  else if f.firstWord.any (fun a => a.layer = w.layer ∧ a.track = w.track ∧ w.word = (a.word + 1) % 16) then
    let s := s.modHead n fun h => { h with fly := { h.fly with firstWord := none, expected := some (w.layer, w.track) } }
    (((s.setFld (R.HD_FLY_STATUS n.val) F.HD_FLY_STATUS_ADDR_OK 1).setAddr n w).locateSeam n i0 w).updateReady n
  else s.modHead n fun h => { h with fly := { h.fly with firstWord := some w } }

/-- What thirty bits that a marker led in spell: an address word, or none. -/
def State.takeWord (s : State) (n : Fin 16) (i0 : Nat) : Option AddrWord → State
  | none => s
  | some w => s.acceptWord n i0 w

/-- R43. The tags of 31 frames complete an address word. One that fails its CRC is ignored. -/
def execAddressWord (head : Fin 16) (s : State) : Result :=
  let f := (s.head head).fly
  let located := s.flag (R.HD_FLY_STATUS head.val) F.HD_FLY_STATUS_ADDR_OK && f.expected.isSome
  match wordTags f located with
  | none => .next s
  | some (i0, bits) =>
    let s := s.modHead head fun h => { h with fly := { h.fly with tags := [] } }
    .next (s.takeWord head i0 (parseWord bits))

/-- R372, Table 3-9. A write of HD_FMT_CFG: a pitch outside 160 to 320 nm is refused with event 0x1303, and the whole register
keeps its value, LEADIN too (log entry 103). -/
def execHdFmtCfgWrite (head : Fin 16) (val : Word) (s : State) : Result :=
  let r := R.HD_FMT_CFG head.val
  let p := getField val F.HD_FMT_CFG_PITCH_NM
  if 160 ≤ p ∧ p ≤ 320 then
    .next ((s.setFld r F.HD_FMT_CFG_PITCH_NM p).setFld r F.HD_FMT_CFG_LEADIN (getField val F.HD_FMT_CFG_LEADIN))
  else .next (s.logHead head 0x1303 p (s.fld r F.HD_FMT_CFG_PITCH_NM))

end Sys2Proof.Machine
end

