-- ==== Sys2Proof/Machine/Fetch.lean ====
section
/-!
DEFINITION. Machine/Fetch.lean: the queue engine: which submission queue is served (R265, R266), the fetch of one entry with its
slot, stamp and checks (R267), and the commands of Tables 12-4 and 12-15 as they are fetched.
-/

namespace Sys2Proof.Machine

/-! ## Arbitration (R265) -/

/-- The class of a queue: 0 admin, 1 urgent, 2 to 4 high, medium and low. -/
def SubQ.cls (q : SubQ) : Nat := if q.qid = 0 then 0 else 1 + q.prio % 4

/-- A queue holds an entry that may be fetched now (R266). -/
def State.servable (s : State) (q : SubQ) : Bool :=
  q.head != q.tail && s.hardPause q.fn == 0 && (s.freeSlot (q.qid == 0)).isSome

/-- Queues in an order: by identifier, then function, those after the last served first. -/
def qKey (q : SubQ) : Nat := 2 * q.qid + q.fn
def insertQ (q : SubQ) : List SubQ → List SubQ
  | [] => [q]
  | x :: rest => if qKey q < qKey x then q :: x :: rest else x :: insertQ q rest

/-- The next queue of a class after the one served last. -/
def State.nextOfClass (s : State) (cls : Nat) : Option SubQ :=
  let qs := (s.host.sqs.filter fun q => q.cls == cls && s.servable q).foldl (fun acc q => insertQ q acc) []
  match s.host.arb.last.lookup cls with
  | some (fn, qid) =>
    match qs.find? fun q => 2 * qid + fn < qKey q with
    | some q => some q
    | none => qs.head?
  | none => qs.head?

/-- HPW + 1, MPW + 1 and LPW + 1 of the Arbitration feature of function 0 (log entry 60). -/
def State.weights (s : State) : Nat × Nat × Nat :=
  let v := s.feature 0 1 0
  (v / 2 ^ 24 % 256 + 1, v / 2 ^ 16 % 256 + 1, v / 2 ^ 8 % 256 + 1)

/-- Entries of one turn: 2^AB, or without limit. -/
def State.burst (s : State) (fn : Nat) : Nat :=
  let ab := s.feature fn 1 0 % 8
  if ab = 7 then 65536 else 2 ^ ab

/-- A turn of the weighted classes: the first with turns left and an entry to fetch. -/
def State.weightedTurn (s : State) (left : Nat × Nat × Nat) : Option (SubQ × (Nat × Nat × Nat)) :=
  let (h, m, l) := left
  match s.nextOfClass 2, s.nextOfClass 3, s.nextOfClass 4 with
  | some q, x, y =>
    if h ≠ 0 then some (q, (h - 1, m, l))
    else match x, y with
      | some q, y => if m ≠ 0 then some (q, (h, m - 1, l)) else match y with
        | some q => if l ≠ 0 then some (q, (h, m, l - 1)) else none
        | none => none
      | none, some q => if l ≠ 0 then some (q, (h, m, l - 1)) else none
      | none, none => none
  | none, some q, y => if m ≠ 0 then some (q, (h, m - 1, l)) else match y with
    | some q => if l ≠ 0 then some (q, (h, m, l - 1)) else none
    | none => none
  | none, none, some q => if l ≠ 0 then some (q, (h, m, l - 1)) else none
  | none, none, none => none

/-- The queue of a new turn, with what is left of the round. -/
def State.newTurn (s : State) : Option (SubQ × (Nat × Nat × Nat)) :=
  match s.nextOfClass 0 with
  | some q => some (q, s.host.arb.left)
  | none => match s.nextOfClass 1 with
    | some q => some (q, s.host.arb.left)
    | none => match s.weightedTurn s.host.arb.left with
      | some r => some r
      | none => s.weightedTurn s.weights

/-- The queue that is served next, and the arbiter after it: a turn under way goes on while it may. -/
def State.nextQueue (s : State) : Option (SubQ × Arbiter) :=
  let arb := s.host.arb
  let running : Option (SubQ × Nat) := match arb.turn with
    | some (fn, qid, k) => if k = 0 then none else ((s.sq fn qid).filter s.servable).map fun q => (q, k)
    | none => none
  match running with
  | some (q, k) => some (q, { arb with turn := some (q.fn, q.qid, k - 1) })
  | none => s.newTurn.map fun (q, left) =>
      (q, { turn := some (q.fn, q.qid, s.burst q.fn - 1), left := left
            last := (q.cls, (q.fn, q.qid)) :: arb.last.filter fun (e : Nat × (Nat × Nat)) => e.1 != q.cls })

/-! ## Fetch (R267) -/

/-- Commands whose data arrive with the fetch. -/
def takesData (admin : Bool) (opcode : Nat) : Bool :=
  if admin then opcode == 0x0D || opcode == 0x11 || opcode == 0x15 || opcode == 0x81 else opcode == 0x09

/-- A command as it is fetched. -/
def SqEntry.command (e : SqEntry) (q : SubQ) (slot : Nat) (stamp : Stamp) (kind : CmdKind) (data : List Nat) : HostCmd :=
  let ptr := e.dptr0 != 0 || e.dptr1 != 0
  let io := kind == .read || kind == .write || kind == .verify
  { slot := slot, fn := q.fn, sqid := q.qid, cqid := q.cq, cid := e.cid.val, stamp := stamp, kind := kind, nsid := e.nsid
    slba := if io then e.slba else 0, nlb := if io then e.nlb else 0, fua := io && testBitN e.c12 30, cdw := e.cdw
    ranges := if kind = .dsm then dsmRanges e data else [], hasPtr := ptr
    dataDue := kind == .write || (kind == .seqCall && ptr), named := [], order := .notIssued, accepted := none, decided := none
    target := none }

/-- The fetch of the entry at the head of the queue that the arbiter serves: slot, stamp, checks, and what the command then
does. `sel` says which entries the row stands for. -/
def State.fetch (s : State) (sel : Bool → Nat → Bool) (e : SqEntry) (data : List Byte) (walk : PtrWalk) : Result :=
  match s.nextQueue with
  | none => .next s
  | some (q, arb) =>
    let admin := q.qid == 0
    match s.freeSlot admin with
    | none => .next s
    | some slot =>
      let bytes := data.map (·.toNat)
      let fault := s.fetchFault q.fn admin e bytes walk
      let whole := !takesData admin e.opcode.val || fault.isSome || decide (data.length = transferBytes admin e)
      when (sel admin e.opcode.val && whole) s <|
        let stamp := max (s.stamp .host) (s.host.lastFetch + 1)
        let c := e.command q slot stamp ((commandKind admin e.opcode.val).getD .admin) bytes
        let s := s.modSq q.fn q.qid fun x => { x with head := (x.head + 1) % x.size }
        let s := s.modHost fun h => { h with arb := arb, lastFetch := stamp, cmds := h.cmds ++ [c] }
        let s := s.bump (fnKey q.fn R.HC_FETCH_CNT) F.HC_FETCH_CNT_FETCHED 1
        let s := match fault with
          | some st => s.conclude stamp st 0
          | none => s.startCommand c e bytes
        s.notePause

/-- Entries of one opcode of the admin or the I/O set. -/
def only (admin : Bool) (opcode : Nat) (a : Bool) (k : Nat) : Bool := a == admin && k == opcode

/-- R267. The queue engine fetches an entry, whatever it holds. -/
def execCommandFetch (entry : SqEntry) (data : List Byte) (walk : PtrWalk) (s : State) : Result :=
  s.fetch (fun _ _ => true) entry data walk

/-- R260. A fetched Delete I/O SQ command. -/
def execDeleteIoSq (entry : SqEntry) (s : State) : Result :=
  s.fetch (only true 0x00) entry [] .good

/-- R260. A fetched Delete I/O CQ command. -/
def execDeleteIoCq (entry : SqEntry) (s : State) : Result :=
  s.fetch (only true 0x04) entry [] .good

/-- R260. A fetched Create I/O SQ command. -/
def execCreateIoSq (entry : SqEntry) (s : State) : Result :=
  s.fetch (only true 0x01) entry [] .good

/-- R260. A fetched Create I/O CQ command. -/
def execCreateIoCq (entry : SqEntry) (s : State) : Result :=
  s.fetch (only true 0x05) entry [] .good

/-- R264. A fetched Get Log Page command. -/
def execGetLogPage (entry : SqEntry) (walk : PtrWalk) (s : State) : Result :=
  s.fetch (only true 0x02) entry [] walk

/-- R262. A fetched Identify command. -/
def execIdentify (entry : SqEntry) (walk : PtrWalk) (s : State) : Result :=
  s.fetch (only true 0x06) entry [] walk

/-- R274. A fetched Abort command. -/
def execAbort (entry : SqEntry) (s : State) : Result :=
  s.fetch (only true 0x08) entry [] .good

/-- R263. A fetched Set Features command. -/
def execSetFeatures (entry : SqEntry) (s : State) : Result :=
  s.fetch (only true 0x09) entry [] .good

/-- R263. A fetched Get Features command. -/
def execGetFeatures (entry : SqEntry) (s : State) : Result :=
  s.fetch (only true 0x0A) entry [] .good

/-- R283. A fetched Asynchronous Event Request command. -/
def execAsynchronousEventRequest (entry : SqEntry) (s : State) : Result :=
  s.fetch (only true 0x0C) entry [] .good

/-- R261. A fetched Namespace Management command. -/
def execNamespaceManagement (entry : SqEntry) (data : List Byte) (walk : PtrWalk) (s : State) : Result :=
  s.fetch (only true 0x0D) entry data walk

/-- R260. A fetched Namespace Attachment command. -/
def execNamespaceAttachment (entry : SqEntry) (data : List Byte) (walk : PtrWalk) (s : State) : Result :=
  s.fetch (only true 0x15) entry data walk

/-- R279. A fetched Firmware Image Download command. -/
def execFirmwareImageDownload (entry : SqEntry) (data : List Byte) (walk : PtrWalk) (s : State) : Result :=
  s.fetch (only true 0x11) entry data walk

/-- R279. A fetched Firmware Commit command. -/
def execFirmwareCommit (entry : SqEntry) (s : State) : Result :=
  s.fetch (only true 0x10) entry [] .good

/-- R261. A fetched Format NVM command. -/
def execFormatNvm (entry : SqEntry) (s : State) : Result :=
  s.fetch (only true 0x80) entry [] .good

/-- R342. A fetched Security Send command. -/
def execSecuritySend (entry : SqEntry) (data : List Byte) (walk : PtrWalk) (s : State) : Result :=
  s.fetch (only true 0x81) entry data walk

/-- R342. A fetched Security Receive command. -/
def execSecurityReceive (entry : SqEntry) (walk : PtrWalk) (s : State) : Result :=
  s.fetch (only true 0x82) entry [] walk

/-- R273. A fetched Flush command. -/
def execFlush (entry : SqEntry) (s : State) : Result :=
  s.fetch (only false 0x00) entry [] .good

/-- R270. A fetched Write command. -/
def execWrite (entry : SqEntry) (walk : PtrWalk) (s : State) : Result :=
  s.fetch (only false 0x01) entry [] walk

/-- R270. A fetched Read command. -/
def execRead (entry : SqEntry) (walk : PtrWalk) (s : State) : Result :=
  s.fetch (only false 0x02) entry [] walk

/-- R261. A fetched Dataset Management command. -/
def execDatasetManagement (entry : SqEntry) (data : List Byte) (walk : PtrWalk) (s : State) : Result :=
  s.fetch (only false 0x09) entry data walk

/-- R270. A fetched Verify command. -/
def execVerify (entry : SqEntry) (s : State) : Result :=
  s.fetch (only false 0x0C) entry [] .good

/-- R281. A fetched Sequencer Call command. -/
def execSequencerCall (entry : SqEntry) (walk : PtrWalk) (s : State) : Result :=
  s.fetch (only true 0xC3) entry [] walk

/-- R281. A fetched Cartridge Load command. -/
def execCartridgeLoad (entry : SqEntry) (s : State) : Result :=
  s.fetch (only true 0xC4) entry [] .good

/-- R281. A fetched Medium Health Report command. -/
def execMediumHealthReport (entry : SqEntry) (walk : PtrWalk) (s : State) : Result :=
  s.fetch (only true 0xC6) entry [] walk

/-- R281. A fetched Cartridge Release command. -/
def execCartridgeRelease (entry : SqEntry) (s : State) : Result :=
  s.fetch (only true 0xC8) entry [] .good

end Sys2Proof.Machine
end

