-- ==== Sys2Proof/Machine/Pass.lean ====
section
/-!
DEFINITION. Machine/Pass.lean: hems up to their completion (R33, R35, R87), zone seeds (R86), the seam (R37, R142, R150, R236), and the
late and aborted slots of a write (R142, R155).
-/

namespace Sys2Proof.Machine

/-- R33, R35. A hem request reaches the head island: it starts a hem of the open pass, or joins the one in progress;
with no pass open it is complete at once. -/
def execHemRequest (head : Fin 16) (s : State) : Result :=
  .next (s.hemRequest head (s.stamp (.head head)) false [])

/-- Every sector written and not read back is recorded verify pending (R152). -/
def State.recordPending (s : State) (n : Fin 16) (p : Pass) : State :=
  (p.bandDescs.flatMap (·.slots)).foldl (fun t e =>
    if e.done && e.raw == 0xFFFF && !e.cut then
      (t.recordCut n p e t.now .verifyPending).bump (R.HD_VFY_CNT1 n.val) F.HD_VFY_CNT1_PENDING 1
    else t) s

/-- Samples of the pass admitted before the cut point still arrive. -/
def stillArriving (s : State) (n : Fin 16) (p : Pass) : Bool :=
  !(s.openSectors n.val p.no fun x => x.lastSample.isNone).isEmpty

/-- Every WRITE slot of a fetched descriptor that the pass has not written is void (R153; log entry 137). -/
def State.voidFetched (s : State) (n : Fin 16) : State :=
  match (s.head n).pass with
  | none => s
  | some p =>
    (p.bandDescs.flatMap fun d => (d.slots.filter fun e => e.write && !e.isVoid && !e.done).map fun e => (d, e)).foldl
      (fun t (d, e) => t.voidSlot n d e 0) s

/-- Step 4 of R33 carried out: what has no outcome is withdrawn and queued for re-read, and the pass's groups close; a zone
write-back follows where the pass asks for one. -/
def State.withdrawPass (s : State) (n : Fin 16) (p : Pass) (cut : Stamp) (writeBack : Bool) : State :=
  let s := s.requeue n (s.openSectors n.val p.no fun _ => true)
  let s := ((s.settleWrites n (min cut s.now)).voidFetched n).reportVoids n
  let s := s.modPass n fun p => { p with writeRev := none }
  let s := match (s.head n).pass with
    | some q => s.recordPending n q
    | none => s
  let s := s.closePassGroups n.val p.no
  let upd (m : Hem) : Hem := { m with withdrawn := true, writingBack := writeBack }
  s.modPass n fun p => { p with hem := p.hem.map upd }

/-- Step 4 of R33: at h + 525,000 ticks, or once nothing of the pass is outstanding, what has no outcome is withdrawn
and queued for re-read, and the pass's groups close. -/
def execHemWithdrawal (head : Fin 16) (s : State) : Result :=
  let n := head
  match (s.head n).pass with
  | none => .next s
  | some p =>
    match p.hem with
    | none => .next s
    | some m =>
      let settled := s.passSettled n.val p.no && decide (m.cut ≤ s.now) && !stillArriving s n p
      when (!m.withdrawn && (decide (m.h + 525000 ≤ s.now) || settled)) s
        (s.withdrawPass n p m.cut p.desc.writeBack)

/-- R87. The zone write-back reaches buffer memory. -/
def execZoneWriteBackComplete (head : Fin 16) (s : State) : Result :=
  let n := head
  match (s.head n).pass with
  | none => .next s
  | some p =>
    match p.hem with
    | none => .next s
    | some m =>
      when m.writingBack s <|
        let s := s.zoneWriteBack n p
        let done (m : Hem) : Hem := { m with writingBack := false }
        let s := s.modPass n fun p => { p with hem := p.hem.map done }
        s.logHead n 0x1105 p.desc.layer (fmtZone p.cfg.fmt (p.desc.bandAt p.rev)) p.no

/-- R86. The zone table entry returns: the channels are seeded from it, or with the defaults and event 0x1101 where it
is not valid. The open then waits for the seam. -/
def execZoneSeedReadDone (head : Fin 16) (s : State) : Result :=
  let n := head
  match (s.head n).opening with
  | none => .next s
  | some o =>
    when (decide (o.stage = .seeding)) s <|
      let zone := fmtZone o.cfg.fmt o.desc.start
      let entry := zoneAddr o.cfg.zoneBase n.val o.desc.layer zone
      let valid := testBitN (s.memByte (entry + 773)).toNat 0
      let s := s.seedHead n entry valid
      let s := if valid then s
        else s.logHead n 0x1101 o.desc.layer zone (((s.head n).passNo + 1) % 65536)
      let relocs := readRelocs s o.desc
      let clamps := seedClamps s entry valid
      s.modHead n fun h => { h with opening := h.opening.map fun o =>
        { o with stage := .awaitSeam, relocs := relocs, clamps := clamps } }

/-- The seam that opens now: its revolution and the predicted stamp of its unit 0. A seam is over once its 992 units have
passed (R37, R45). -/
def seamNow (s : State) (n : Fin 16) : Option (Nat × Stamp) :=
  let f := (s.head n).fly
  let cand := [frameRev f, frameRev f + 1].filterMap fun r =>
    match predictAt s n (unitsPerRev * r) 1, predictAt s n (unitsPerRev * r + seamUnits) 1 with
    | some a, some b => if f.seamRev < r ∧ a ≤ s.now ∧ s.now < b then some (r, a) else none
    | _, _ => none
  cand.head?

/-- R37, R150, R236. The seam opens: a waiting pass opens, and an open one goes to its next band or revolution. -/
def execSeamOpening (head : Fin 16) (s : State) : Result :=
  let n := head
  match seamNow s n with
  | none => .next s
  | some (r, t) =>
    let s := s.modHead n fun h => { h with fly := { h.fly with seamRev := r } }
    let waiting := (s.head n).opening.filter fun o => decide (o.stage = .awaitSeam)
    match waiting, (s.head n).pass with
    | some o, _ =>
      .next (if flyReady s n then (s.openPass n o t).beginWriteRev n t else s.openNotReady n)
    | none, none => .next s
    | none, some p =>
      let s := s.endWriteRev n
      when p.hem.isNone s <|
        (s.modPass n fun p => { p with rev := p.rev + 1, admitted := [] }).beginWriteRev n t

/-- The tick of a slot's first symbol: by the write oscillator's model once the stream runs, else as predicted (R142, R147). -/
def writeSlotStart (s : State) (n : Fin 16) (slot : Nat) : Option Stamp :=
  match (s.head n).pass.bind (·.writeRev) with
  | some w =>
    match writeTicks s n w slot with
    | some (a, _) => some a
    | none => (slotTicks s n slot).map (·.1)
  | none => (slotTicks s n slot).map (·.1)

/-- R142, R153. A WRITE slot's payload is not staged 2,000 ticks before its first symbol: the slot becomes void. -/
def execSlotPayloadLate (head : Fin 16) (track slot : Nat) (s : State) : Result :=
  let n := head
  match (s.head n).pass with
  | none => .next s
  | some p =>
    match p.toWrite.find? fun (_, e) => e.track == track && e.slot == slot && !e.started, writeSlotStart s n slot with
    | some (d, e), some a => when (decide (a ≤ s.now + 2000)) s <| s.voidSlot n d e 3
    | _, _ => .next s

/-- The first symbol of a slot has been sent already. -/
def symbolSent (s : State) (n : Fin 16) (slot : Nat) : Bool :=
  match (s.head n).pass.bind (·.writeRev) with
  | some w =>
    let u := fmtU (fmtNow s n) (bandNow (s.head n))
    w.writing && decide ((slotSymbols u slot).1 < w.firstSymbol + w.nextBlock / 6 * 16)
  | none => false

/-- The restart of a beam that an abort has stopped (R155): its next slot of another command that a WSTART still reaches with
its lead; the slots before that one are void. -/
def State.restartBeam (s : State) (n : Fin 16) (j : Nat) : List (BandDesc × SlotEntry) → State
  | [] => s
  | x :: rest =>
    match writeSlotStart s n x.2.slot with
    | some t =>
      if s.now + wstartLead ≤ t then s.sendMsg n (.wstart (2 ^ j) t)
      else (s.voidSlot n x.1 x.2 2).restartBeam n j rest
    | none => (s.voidSlot n x.1 x.2 2).restartBeam n j rest

/-- A beam whose aborted symbols have been sent: it is stopped at the first such slot's first symbol, and started again
(R155). `gone` holds the aborted slots of the beam's track and `others` the slots that it still writes, in slot order. -/
def State.stopBeam (s : State) (n : Fin 16) (j : Nat) (gone : List SlotEntry) (others : List (BandDesc × SlotEntry)) :
    State :=
  match gone.find? fun e => symbolSent s n e.slot with
  | none => s
  | some e =>
    match writeSlotStart s n e.slot with
    | none => s
    | some t => (s.sendMsg n (.wstop (2 ^ j) t)).restartBeam n j (others.filter fun x => e.slot < x.2.slot)

/-- R155. An abort reaches the head island: the command's slots that start from the next slot start on, in this revolution and
in every later one of the pass, are not written; a beam whose symbols have been sent is stopped, and started again for the
next slot of another command. -/
def execWriteAbortAtHead (head : Fin 16) (slots : List (Nat × Nat)) (s : State) : Result :=
  let n := head
  match (s.head n).pass with
  | none => .next s
  | some p =>
    let a := s.now
    let u := fmtU (fmtNow s n) (bandNow (s.head n))
    let starts := (List.range (slotsOf u)).filterMap fun k => writeSlotStart s n k
    let b := (starts.find? fun t => decide (a ≤ t)).getD ((nextBoundary s n a).getD a)
    let s := s.modPass n fun p => { p with aborts := (slots, b) :: p.aborts }
    let mine (e : SlotEntry) : Bool := slots.contains (e.track, e.slot) && e.write && !e.isVoid && !e.done && !e.cut
    let here := p.revSlots.map (·.2)
    let later (e : SlotEntry) : Bool := !here.contains e ||
      (match writeSlotStart s n e.slot with
       | some t => decide (b ≤ t)
       | none => true)
    let gone := p.bandDescs.flatMap fun d => (d.slots.filter fun e => mine e && later e).map fun e => (d, e)
    let stay := p.toWrite.filter fun x => !gone.contains x
    let s := (p.writeTracks p.rev1).foldl (fun t (j, track) =>
      t.stopBeam n j ((gone.map (·.2)).filter fun e => e.track == track && here.contains e)
        (stay.filter fun x => x.2.track == track)) s
    .next (gone.foldl (fun t (d, e) => t.voidSlot n d e 4) s)

end Sys2Proof.Machine
end

