-- ==== Sys2Proof/Machine/HostReset.lean ====
section
/-!
DEFINITION. Machine/HostReset.lean: controller enable, resets and shutdowns (R277, R278, R349), the way out of a machine check
(R254), firmware activation (R280), the completion of a hem, which some of these wait for, and the answers to configuration
requests and on the SMBus (R284, R349).
-/

namespace Sys2Proof.Machine

/-! ## Programs and patches (R249, R339) -/

/-- Program memory as a PROG payload gives it. -/
def programWords (payload : List Nat) : List (Nat × Word) :=
  (List.range (ceilDiv payload.length 4)).filterMap fun i =>
    let w : Word := BitVec.ofNat 32 (fieldAt payload (4 * i) 4)
    if w = 0 then none else some (i, w)

/-- The package in a slot, as its directory gives it. -/
def State.packageIn (s : State) (slot : Nat) : Option Package :=
  match s.directory with
  | none => none
  | some d => match s.verifyPackage (s.slotImage d slot) with
    | .ok p => some p
    | .error _ => none

/-- A verified package reaches the control island: its patch is loaded and activated, its program loaded, and the entry
points of its record set. -/
def State.loadPackage (s : State) (slot : Nat) : State :=
  match s.packageIn slot with
  | none => s
  | some p =>
    let s := match p.patch with
      | some o => (s.loadPatch o.payload).activatePatch
      | none => s
    let s := { s with seq := { s.seq with prog := programWords p.prog.payload } }
    (List.range 24).foldl (fun (t : State) b =>
      t.setFld (R.SQ_BOB_ENTRY b) F.SQ_BOB_ENTRY_ENTRY (fieldAt p.boot.payload (112 + 2 * b) 2)) s

/-- The running slot's PATCH object, verified again (R339). -/
def State.runningPatch (s : State) : Option (List Nat) :=
  match s.directory with
  | none => none
  | some d =>
    let image := s.slotImage d s.boot.slot
    let o := objectAt image (nextObject 0 (objectAt image 0))
    match s.objectFault 2 o with
    | some _ => none
    | none => some o.payload

/-! ## Controller reset and Function Level Reset (R277) -/

/-- A function's own registers, which its reset returns to their reset values: the controller registers, the snip window, and
its own part of the host command engine (R18, R285). None of their fields is RWS. -/
def ownRegister (fn key : Nat) : Bool :=
  let off := key % 0x1000000
  key / 0x1000000 == fn && (off < 0x4000 || (0x40000 ≤ off && off < 0x40100 && off != R.HC_DATA_BASE_LO && off != R.HC_DATA_BASE_HI))

/-- Bobbins restart (R241): B17 to B20 and every head bobbin whose head is in service, and any other that is halted or in
EXCEPTION. -/
def State.restartBobbins (s : State) (cause : Nat) : State :=
  (List.finRange 24).foldl (fun (t : State) (b : Fin 24) =>
    let always := b.val < 16 || (17 ≤ b.val && b.val ≤ 20)
    let down := (t.bob b).st == .halted || (t.bob b).st == .exception
    if always || down then ((if down then t else t.abortOpens b).restart b cause) else t) s

/-- Steps 4 to 6 of R277 and steps 2 and 3 of R254. -/
def State.finishReset (s : State) (fn : Nat) : State :=
  let s := if s.mcActive then
      let s := s.setFld R.CS_MC_STATUS F.CS_MC_STATUS_ACTIVE 0
      let s := s.functions.foldl (fun (t : State) (k : Fin 2) => t.setFld (cstsKey k.val) cstsCfs 0) s
      s.logSeq 0xF005 (s.fld R.CS_MC_STATUS F.CS_MC_STATUS_COUNT)
    else s
  let s := s.restartBobbins 1
  let requeue (c : HostCmd) : HostCmd := match c.order with
    | .taken _ => { c with order := .queued }
    | _ => c
  let s := s.modHost fun h => { h with
    cmds := h.cmds.map requeue
    sqs := h.sqs.filter fun (q : SubQ) => q.fn != fn
    cqs := h.cqs.filter fun (q : CmpQ) => q.fn != fn
    arb := { h.arb with turn := none } }
  let s := { s with regs := s.regs.filter fun (r : Nat × Word) => !ownRegister fn r.1 }
  let s := s.modFn fn fun f => { FnState.reset with errors := f.errors, errCount := f.errCount, changed := f.changed }
  s.announceOrders.notePause

/-- A patch bank must be reloaded before the restart (R254). -/
def State.reloadDue (s : State) : Bool := s.mcActive && s.uaddrInPatch

/-- Resets that waited for the heads end, once no pass is open. -/
def State.finishResets (s : State) : State :=
  s.functions.foldl (fun (t : State) (fn : Fin 2) =>
    if (t.fnOf fn.val).phase = .resetting ∧ t.noPass ∧ !t.reloadDue then t.finishReset fn.val else t) s

/-- A function's outstanding commands are discarded without completions, with their locks, orders and requests. -/
def State.discardCommands (s : State) (fn cause : Nat) : State :=
  let gone := s.host.cmds.filter fun c => c.fn == fn
  let s := s.discardApplies gone
  let s := gone.foldl (fun (t : State) (c : HostCmd) => t.retire c) s
  let s := s.modHost fun h => { h with notices := h.notices.filter fun (x : Notice) => x.fn != fn }
  let s := s.modFn fn fun f => { f with snips := [] }
  (s.logHost fn 0x7007 fn gone.length cause).decideFlushes

/-- CSTS.PP in every function. -/
def State.setPp (s : State) (v : Nat) : State :=
  s.functions.foldl (fun (t : State) (fn : Fin 2) => t.setCtl fn.val nvmeCSTS cstsPp v) s

/-- A reset discards the Firmware Commit of an activation, and fetch may resume (R277, R280). -/
def State.dropActivation (s : State) : State :=
  match s.host.activation with
  | none => s
  | some a =>
    let s := match s.cmdOf a.cmd with
      | some c => s.retire c
      | none => s
    (s.modHost fun h => { h with activation := none, commit := none }).setPp 0 |>.modSec fun x => { x with staged := none }

/-- Steps 1 to 3 of R277. -/
def State.beginReset (s : State) (fn cause : Nat) : State :=
  let s := s.setFld R.SYS_RST_CAUSE (if cause = 1 then F.SYS_RST_CAUSE_FLR else F.SYS_RST_CAUSE_CTRL) 1
  let s := (s.discardCommands fn cause).dropActivation
  let s := (List.range 16).foldl (fun (t : State) n => t.discardHeadBands n 3) s
  let s := s.hemEvery.modFn fn fun f => { f with phase := .resetting, wantsRdy := false }
  s.finishResets

/-- A reset of a function: at the fetch-resume point of an activation that no machine check has abandoned, else at once. -/
def State.resetFunction (s : State) (fn cause : Nat) : State :=
  let s := s.setCtl fn nvmeCC ccEn 0
  if s.host.activation.isSome && !s.mcActive then s.modFn fn fun f => { f with phase := .awaitResume cause }
  else s.beginReset fn cause

/-- A reset of the function is under way. -/
def State.resetting (s : State) (fn : Nat) : Bool :=
  match (s.fnOf fn).phase with
  | .resetting | .awaitResume _ => true
  | _ => false

/-- R277. CC.EN 1→0. -/
def execControllerReset (fn : Fin 2) (s : State) : Result :=
  when (s.functions.contains fn && s.enabled fn.val && !s.resetting fn.val) s (s.resetFunction fn.val 0)

/-- R277. A Function Level Reset. -/
def execFunctionLevelReset (fn : Fin 2) (s : State) : Result :=
  when (s.functions.contains fn && !s.resetting fn.val) s (s.resetFunction fn.val 1)

/-- R254, R339. The active bank is reloaded from boot flash, after the hems of a controller reset. -/
def execPatchReload (s : State) : Result :=
  when (s.reloadDue && s.noPass && s.functions.any fun fn => (s.fnOf fn.val).phase == .resetting) s <|
    let s := s.reloadPatch s.runningPatch
    s.functions.foldl (fun (t : State) (fn : Fin 2) =>
      if (t.fnOf fn.val).phase = .resetting then t.finishReset fn.val else t) s

/-! ## Enable and shutdown -/

/-- CSTS.RDY rises in a function that waits for it, once HOST_READY is 1 (R349). -/
def State.raiseReady (s : State) (fn : Nat) : State :=
  if (s.fnOf fn).wantsRdy && s.flag R.SYS_BOOT F.SYS_BOOT_HOST_READY then
    (s.setCtl fn nvmeCSTS cstsRdy 1).modFn fn fun f => { f with wantsRdy := false }
  else s

/-- R259, R349. CC.EN 0→1 with the value written to CC: the admin queues stand, and CSTS.RDY rises; queue entry sizes other
than 6 and 4 set CSTS.CFS. -/
def execControllerEnable (fn : Fin 2) (cc : Word) (s : State) : Result :=
  when (s.functions.contains fn && !s.enabled fn.val && decide ((s.fnOf fn.val).phase = .running)) s <|
    let f := fn.val
    let s := (s.setReg (fnKey f nvmeCC) cc).setCtl f nvmeCC ccEn 1
    let s := s.setCtl f nvmeCC ccShn 0
    if s.ctl f nvmeCC ccSqes ≠ 6 ∨ s.ctl f nvmeCC ccCqes ≠ 4 then s.setFld (cstsKey f) cstsCfs 1
    else
      let aqa := (s.reg (fnKey f nvmeAQA)).toNat
      let sq : SubQ :=
        { fn := f, qid := 0, base := s.pair (fnKey f nvmeASQ), size := aqa % 4096 + 1, cq := 0, prio := 0, head := 0, tail := 0 }
      let cq : CmpQ :=
        { fn := f, qid := 0, base := s.pair (fnKey f nvmeACQ), size := aqa / 65536 % 4096 + 1, head := 0, tail := 0, phase := true
          ien := true, iv := 0, heldN := 0, heldSince := 0 }
      let s := s.modHost fun h => { h with sqs := h.sqs ++ [sq], cqs := h.cqs ++ [cq] }
      (s.modFn f fun x => { x with wantsRdy := true }).raiseReady f

/-- R349. HOST_READY becomes 1: boot stage 5. -/
def State.hostReady (s : State) : State :=
  if s.flag R.SYS_BOOT F.SYS_BOOT_HOST_READY then s
  else
    let s := (s.setFld R.SYS_BOOT F.SYS_BOOT_HOST_READY 1).reachStage 5
    s.functions.foldl (fun (t : State) (fn : Fin 2) => t.raiseReady fn.val) s

/-- R349. A write of SYS_BOOT.HOST_READY. -/
def execHostReadySet (s : State) : Result := .next s.hostReady

/-- R278. CC.SHN = 0b01. -/
def execShutdownNormal (fn : Fin 2) (s : State) : Result :=
  when (s.enabled fn.val && decide ((s.fnOf fn.val).phase = .running)) s <|
    let s := (s.setCtl fn.val nvmeCC ccShn 1).setCtl fn.val nvmeCSTS cstsShst 1
    let since := s.host.lastFetch + 1
    (s.modFn fn.val fun f => { f with phase := .draining since }).advanceShutdown

/-- R278. CC.SHN = 0b10. -/
def execShutdownAbrupt (fn : Fin 2) (s : State) : Result :=
  when (s.enabled fn.val && !s.resetting fn.val) s <|
    let s := (s.setCtl fn.val nvmeCC ccShn 2).setCtl fn.val nvmeCSTS cstsShst 1
    (s.discardCommands fn.val 2).hemEvery.modFn fn.val fun f => { f with phase := .hemming }

/-- R278. The shutdown's work has ended. -/
def execShutdownComplete (fn : Fin 2) (s : State) : Result :=
  when (decide ((s.fnOf fn.val).phase = .hemming) && s.noPass) s <|
    (s.setCtl fn.val nvmeCSTS cstsShst 2).modFn fn.val fun f => { f with phase := .shutDown }

/-- Step 6 of R33, once step 4 and the write-back are done, no twill job of the pass still runs (R128), and the ring holds every
record of the pass (R138). A controller
reset that waited for the last hem goes on. -/
def execHemComplete (head : Fin 16) (s : State) : Result :=
  match (s.head head).pass with
  | none => .next s
  | some p =>
    match p.hem with
    | none => .next s
    | some m =>
      when (m.withdrawn && !m.writingBack && !s.twillBusyFor head.val p.no &&
          !(s.decode.waiting.any fun r => r.head == head.val && r.pass == p.no)) s <| (s.closePass head p m).finishResets

/-! ## Firmware activation (R280) -/

/-- R280. t0: fetch stops in both functions; the notice goes out before. -/
def execFirmwareActivationStart (s : State) : Result :=
  match s.host.commit with
  | none => .next s
  | some j => when (j.written && decide (j.ca = 3) && s.host.activation.isNone) s <|
      let s := s.raiseAsync 2 1 3
      (s.modHost fun h => { h with activation := some ⟨s.now, j.cmd, j.slot, false⟩, arb := { h.arb with turn := none } }).setPp 1

/-- R280. t0 + 300 ms: what is still outstanding is aborted, the Commit apart, the heads hem and the bobbins halt. -/
def execActivationDrainDeadline (s : State) : Result :=
  match s.host.activation with
  | none => .next s
  | some a => when (!a.drained && decide (a.t0 + 300 * ticksMs ≤ s.now) && !s.mcActive) s <|
      let left := s.host.cmds.filter fun c => c.abortable && c.stamp != a.cmd
      let s := left.foldl (fun (t : State) (c : HostCmd) => t.endCommand c stAborted) s
      let s := s.logHost 0 0x7006 left.length
      let s := s.hemEvery.requestHaltAll
      s.modHost fun h => { h with activation := some { a with drained := true } }

/-- R249, R280. The new programs and patch take effect, every bobbin starts, fetch resumes, and the Commit completes; a
controller reset that waited takes effect, and then the Commit is discarded (R277). A machine check abandons the activation:
the reset that waited takes effect at once. -/
def execFirmwareActivationResume (s : State) : Result :=
  match s.host.activation with
  | none => .next s
  | some a =>
    let halted := s.seq.bobbins.toList.all fun x => x.st == .halted || x.st == .exception
    let waiting := s.functions.any fun fn => s.resetting fn.val
    let carryOn (s : State) : State :=
      s.functions.foldl (fun (t : State) (fn : Fin 2) =>
        match (t.fnOf fn.val).phase with
        | .awaitResume cause => t.beginReset fn.val cause
        | _ => t) s
    if s.mcActive && waiting then .next (carryOn s)
    else when (a.drained && s.noPass && halted && !s.mcActive) s <|
      let s := s.loadPackage a.slot
      let s := s.modSec fun x => { x with running := if x.staged.isSome then x.staged else x.running, staged := none }
      let s := { s with boot := { s.boot with slot := a.slot } }
      let s := s.setFld R.SEC_STATUS F.SEC_STATUS_SLOT a.slot
      let s := (List.finRange 24).foldl (fun (t : State) (b : Fin 24) => t.restart b 2) s
      if waiting then carryOn s
      else ((s.modHost fun h => { h with activation := none, commit := none }).setPp 0).conclude a.cmd 0 0

/-! ## Answers without a command -/

/-- The Link Capabilities word of a function (R12, R18): the highest speed of PCIe 6.0, eight lanes, or four on each port of a
bifurcated link, and no ASPM support in bits 11:10. The places of the fields are PCIe's (PRESUMED, log entry 133). -/
def State.linkCap (s : State) : Nat := 6 + (if s.boot.bifurcated then 4 else 8) * 2 ^ 4

/-- The capabilities of a function by their PCI identifiers, an extended one plus 0x100 (R256; the identifiers are PCI's, log
entry 133): power management, PCIe, MSI-X, AER, DOE. -/
def pciCapabilities : List Nat := [0x01, 0x10, 0x11, 0x101, 0x12E]

/-- What a function answers to a read of one of its configuration items (R256, R12, R18). The subsystem identifiers are the
configuration record's, and open where none runs. -/
def State.configItem (s : State) : ConfigItem → Nat × State
  | .identity => (s.fld R.SYS_IDENT F.SYS_IDENT_DEVICE * 2 ^ 16 + s.fld R.SYS_IDENT F.SYS_IDENT_VENDOR, s)
  | .classRevision => (0x010802 * 2 ^ 8 + s.fld R.SYS_IDENT1 F.SYS_IDENT1_REVISION, s)
  | .subsystem => match s.sec.running with
    | some _ => (fieldAt (s.recordBytes 12 4) 0 4, s)
    | none =>
      let (b, s) := s.openBytes 0x256 4
      (fieldAt b 0 4, s)
  | .barSize k => (match k.val with
    | 0 => 0xFF000004 | 2 => 0xFFFF0004 | 1 | 3 => 0xFFFFFFFF | _ => 0, s)
  | .interruptPin => (0, s)
  | .linkCap => (s.linkCap, s)
  | .maxPayload => (512, s)
  | .capability i => (bitOf (pciCapabilities.contains i), s)

/-- R349, R256, R12. A configuration request of a function: Request Retry Status until stage 2, then the item. -/
def execConfigRequest (req : ConfigReq) (s : State) : Result :=
  .next <|
    if 2 ≤ s.fld R.SYS_BOOT F.SYS_BOOT_STAGE then
      let (x, s) := s.configItem req.item
      { s with out := .config req.fn.val (some x) :: s.out }
    else { s with out := .config req.fn.val none :: s.out }

/-- One step of the SMBus packet error code: CRC-8 with polynomial x^8 + x^2 + x + 1. -/
def crc8Bits : Nat → Nat → Nat
  | 0, c => c
  | n + 1, c => crc8Bits n (if 128 ≤ c then (2 * c) % 256 ^^^ 7 else 2 * c)
def crc8 (bytes : List Nat) : Nat := bytes.foldl (fun c b => crc8Bits 8 (c ^^^ b)) 0

/-- R284. The NVMe-MI Basic Management Command: status flags with drive-not-ready in bit 6, the warnings, the composite
temperature, the percentage used and the vendor ID, then the PEC. The other flags and the percentage are open, and so is
how many bytes of 0xFF another code returns (log entry 61). -/
def execNvmeMiBasicCommand (code : Fin 256) (s : State) : Result :=
  .next <|
    if code.val ≠ 0 then { s with out := .smbus (List.replicate 7 0xFF) :: s.out }
    else
      let (x, s) := s.openBytes 0x6A 2
      let notReady := !(s.functions.any fun fn => s.rdy fn.val)
      let other := x.getD 0 0
      let flags := other - other / 64 % 2 * 64 + 64 * bitOf notReady
      let temp := min 127 (s.kelvin - 273)
      let vid := natBytes 2 (s.fld R.SYS_IDENT F.SYS_IDENT_VENDOR)
      let body := [flags, s.host.warnings, temp, x.getD 1 0] ++ vid
      { s with out := .smbus (body ++ [crc8 ([0xD4, 0, 0xD5] ++ body)]) :: s.out }

end Sys2Proof.Machine
end

