-- ==== Sys2Proof/Machine/Loop.lean ====
section
/-!
DEFINITION. Machine/Loop.lean: the commands of the loop engine (chapter 8): executions, arrivals from the heads, slot
requests and configuration, the ends of sequences by time, and the trace.
-/

namespace Sys2Proof.Machine

/-- R164. The execution of a slot that is due in this frame, once at its start; `memErr` is the word offset of an
uncorrectable node or coefficient memory error found at it (R175). -/
def execSlotExecution (slot : Fin 96) (memErr : Option Nat) (s : State) : Result :=
  let j := s.now / 1875
  let t := execStart s slot j
  let x := s.slot slot
  when (x.inUse && slotDue s slot j && decide (t ≤ s.now) && x.lastExec.all fun e => e < t) s <|
    let s := match memErr with
      | some w => (s.modSlot slot fun x => { x with memHold := true }).logLoop 0x4009 slot.val w
      | none => s
    let s := s.startExec slot
    if (s.slot slot).st = .disabled then s else s.execSlot slot t

/-- R63, R168. The QUAD set at the front of a head's crossing becomes visible to the engine; nine sets are kept. -/
def execQuadSetVisible (head : Fin 16) (s : State) : Result :=
  match (s.loopHead head).xing with
  | .quad q :: rest =>
    .next (s.modLoopHead head fun h => { h with xing := rest, quads := ({ q with seen := s.now } :: h.quads).take 9 })
  | _ => .next s

/-- The nearer of two QUAD sets to a centre stamp in half ticks, the earlier one on a tie (R171). -/
def nearerSet (tc2 : Nat) (a b : QuadSet) : QuadSet :=
  let d (q : QuadSet) : Nat := ((2 * (q.stamp : Int) - tc2).natAbs)
  if d b < d a ∨ (d b = d a ∧ b.stamp < a.stamp) then b else a

/-- The CHV nodes of a slot take an offset y whose nearest QUAD set has the push-pull p: d = P − G·Y as a signal, then
o + K·(d − o) (R167, R171). -/
def State.chvUpdate (s : State) (k : Fin 96) (y p : Int) : State :=
  let upd (j : Fin 24) (n : NodeState) : NodeState :=
    let w := nodeWord s k j.val
    if w.type = 0xA then
      let g := coef s k w.c
      let kk := coef s k (w.c + 1)
      let d := satSig (roundDiv (p * 2 ^ 19 - g * y) (2 ^ 19))
      { n with s1 := satSig (roundDiv (n.s1 * 2 ^ 19 + kk * satSig (d - n.s1)) (2 ^ 19)) }
    else n
  s.modSlot k fun x => { x with nodes := Vector.ofFn fun j => upd j x.nodes[j] }

/-- R171. A chevron offset reaches the engine: it is the CHEV source from now on, and unless its centre stamp lies in the
hold window it moves the estimates of the head's slots that do not hold. -/
def execChevronOffsetArrival (head : Fin 16) (s : State) : Result :=
  match (s.loopHead head).xing with
  | .chevron c :: rest =>
    let s := s.modLoopHead head fun h => { h with xing := rest, chev := some c }
    let y := satSig (c.y * 2 ^ 12)
    match (s.loopHead head).quads.filter fun q => !q.invalid with
    | [] => .next s
    | q :: qs =>
      let near := qs.foldl (nearerSet c.tc2) q
      match normalised (sumMinOf s head) ⟨near.a, near.b, near.c, near.d, 1, near.stamp⟩
          (near.a + near.d - (near.b + near.c)) with
      | none => .next s
      | some p =>
        let live (k : Fin 96) : Bool := ((s.slot k).st == .ramp || (s.slot k).st == .run) && !(s.slot k).held
        if inDropWindow s head (c.tc2 / 2) then .next s
        else .next (((headSlots s head).filter live).foldl (fun t k => t.chvUpdate k y p) s)
  | _ => .next s

/-- R170. A rise or fall of the head dropout flag reaches the engine: a rise received while the window before it is
still open extends it. -/
def execDropoutFlagArrival (head : Fin 16) (s : State) : Result :=
  match (s.loopHead head).xing with
  | .rise r :: rest =>
    let isOpen := match dropEnd s head with
      | some e => decide (s.now < e)
      | none => (s.loopHead head).rise.isSome
    .next (s.modLoopHead head fun h => { h with
      xing := rest, rise := if isOpen then some (h.rise.getD r) else some r, fall := none })
  | .fall f :: rest => .next (s.modLoopHead head fun h => { h with xing := rest, fall := some f })
  | _ => .next s

/-- R174. A state request by a write of LP_SLOT_CTRL or by LP.REQ. -/
def execSlotStateRequest (via : Via (Fin 96 × Fin 4)) (s : State) : Result :=
  match via with
  | .reg (k, req) => .next (s.slotRequest k req.val false)
  | .obkin b u => s.issue b u (fun i => isOp 0x68 i && !testBitN (s.g b i.rb) 2) fun i t =>
      t.slotChecks b (t.g b i.ra) fun k => .ok (t.slotRequest k (t.g b i.rb % 4) false)

/-- R177. The same with CLR_STATE set: BIQ, RATE and PLANT states clear at the next execution start. -/
def execSlotClearState (via : Via (Fin 96 × Fin 4)) (s : State) : Result :=
  match via with
  | .reg (k, req) => .next (s.slotRequest k req.val true)
  | .obkin b u => s.issue b u (fun i => isOp 0x68 i && testBitN (s.g b i.rb) 2) fun i t =>
      t.slotChecks b (t.g b i.ra) fun k => .ok (t.slotRequest k (t.g b i.rb % 4) true)

/-- R177. A coefficient by a write of LP_COEF or by LP.COEF, whose value is rd[23:0]. -/
def execCoefficientWrite (via : Via (Fin 96 × Fin 64 × Word)) (s : State) : Result :=
  match via with
  | .reg (k, i, w) => .next (s.coefWrite k i.val w.toNat)
  | .obkin b u => s.issue b u (isOp 0x69) fun i t =>
      t.slotChecks b (t.g b i.ra) fun k => .ok (t.coefWrite k (t.g b i.rb % 64) (t.g b i.rd % 2 ^ 24))

/-- The offset of a register of a slot that only a DISABLED slot takes. -/
def slotRegOff (k : Fin 96) : SlotReg → Nat
  | .cfg => R.LP_SLOT_CFG k.val
  | .start => R.LP_SLOT_SCHED k.val
  | .node j => R.LP_NODE k.val j.val

/-- R166. A write of LP_SLOT_CFG, LP_SLOT_SCHED.START or LP_NODE. -/
def execSlotConfigWrite (slot : Fin 96) (which : SlotReg) (val : Word) (s : State) : Result :=
  .next (s.slotConfig slot (slotRegOff slot which) val)

/-- The time limit of a running sequence (R185 to R187). -/
def seqLimit (s : State) (n : Fin 16) (q : Sequence) : Option Stamp :=
  match q.kind with
  | .focus _ | .trackOn => some (q.t0 + acqTicks s n)
  | .layerJump _ => some (q.t0 + ljTicks s n)
  | .seamJump _ => none

/-- R185 to R187. A sequence that is not complete within its time ends with result 3; a focus slot stays in HOLD. -/
def execSequenceTimeout (head : Fin 16) (s : State) : Result :=
  match (s.loopHead head).seq with
  | none => .next s
  | some q =>
    when ((seqLimit s head q).any fun e => e ≤ s.now) s <|
      let s := match q.kind, focusSlot s head with
        | .trackOn, _ | _, none => s
        | _, some k => s.hwHoldSlot k
      s.endSequence head 3

/-- R188. The predicted start of servo frame 0 ends a seam jump that has not settled. -/
def execSeamJumpDeadline (head : Fin 16) (s : State) : Result :=
  match (s.loopHead head).seq with
  | none => .next s
  | some q =>
    let dl := match q.kind, q.phase with
      | .seamJump _, .awaitSeam _ d => some d
      | .seamJump _, .counting d => some d
      | .seamJump _, .settle d => d
      | _, _ => none
    when (dl.any fun d => d ≤ s.now) s <| match trackSlot s head with
      | some k => s.jumpFails head k 5
      | none => s.endSequence head 5

/-- R190. A write of LP_TRC_CTRL.MODE restarts the ring. -/
def execTraceModeWrite (val : Word) (s : State) : Result :=
  let s := s.writePlain R.LP_TRC_CTRL val
  let s := ((s.setFld R.LP_TRC_STATUS F.LP_TRC_STATUS_FROZEN 0).setFld R.LP_TRC_STATUS F.LP_TRC_STATUS_WRAPPED 0).setFld
    R.LP_TRC_STATUS F.LP_TRC_STATUS_WPTR 0
  .next { s with loop := { s.loop with freezeLeft := none, traceRing := [] } }

/-- R190. A write of FREEZE triggers the freeze in mode 3. -/
def execTraceFreeze (s : State) : Result :=
  when (s.fld R.LP_TRC_CTRL F.LP_TRC_CTRL_MODE == 3) s s.freezeTrace

/-- Trace records in the order of R28: by stamp. They all come from one source, the loop engine, so equal stamps keep their order
of arrival. -/
def TraceRec.before (a b : TraceRec) : Bool := a.stamp < b.stamp
def insertTrace (r : TraceRec) : List TraceRec → List TraceRec
  | [] => [r]
  | x :: rest => if r.before x then r :: x :: rest else x :: insertTrace r rest

/-- R29, R190. The trace merger releases what is due in stamp order and publishes its completeness stamp. -/
def execTraceMergerRelease (s : State) : Result :=
  let isDue (r : TraceRec) : Bool := r.stamp + mergerHorizon ≤ s.now
  let due := (s.loop.trace.filter isDue).foldl (fun acc r => insertTrace r acc) []
  let s := { s with loop := { s.loop with trace := s.loop.trace.filter fun r => !isDue r } }
  let s := due.foldl (fun t r => t.putTrace r) s
  .next (s.setPair R.LP_TRC_COMP_LO (s.now - mergerHorizon))

end Sys2Proof.Machine
end

