-- ==== Sys2Proof/Machine/Memory.lean ====
section
/-!
DEFINITION. Machine/Memory.lean: the commands of the memory island (chapter 14): reads and writes by an agent,
write-backs, refresh, row disturbance, patrol scrub, the training helpers, the sweep and the frequency change.
-/

namespace Sys2Proof.Machine

/-- The populated subchannels. -/
def State.subs (s : State) : List Nat := List.range (2 ^ s.memW)

/-- R311, R313. A read by an agent of class `cls`: every word decoded by its syndrome, the reply holding the data
and the words that were bad. -/
def execMemoryRead (cls : Fin 7) (addr len : Nat) (s : State) : Result :=
  let r := s.memRead cls.val addr len
  let reply : MemReply := ⟨addr, r.bytes.map (BitVec.ofNat 8 ·), r.bad⟩
  let s := r.st
  .next { s with mem := { s.mem with reply := some reply } }

/-- R314. A write by an agent of class `cls`. -/
def execMemoryWrite (cls : Fin 7) (addr : Nat) (bytes : List Byte) (s : State) : Result :=
  .next (s.memWrite cls.val addr (bytes.map (·.toNat)))

/-- A word read again and, if it is still correctable, written with fresh check symbols (R311); its correction was
counted when it was read (log entry 11). -/
def State.writeBackWord (s : State) (a : Nat) : State :=
  match decodeWord (s.erasedDevice (s.memSub a)) (s.memSymbols a) with
  | (.corrected _, d) => s.storeSymbols a (d ++ checkSymbols d)
  | _ => s

/-- R311. The oldest queued word is written back by a locked read-merge-write. -/
def execEccWriteBack (s : State) : Result :=
  match s.mem.wbQ with
  | [] => .next s
  | a :: rest => .next ({ s with mem := { s.mem with wbQ := rest } }.writeBackWord a)

/-- The active timing set (Table 14-11). -/
def State.activeSet (s : State) : Nat := s.fld R.MC_STATUS F.MC_STATUS_ACTIVE_SET

/-- Data rate in MT/s of a timing set's SPEED (Table 14-13). -/
def setRate : Nat → Nat
  | 0 => 4800 | 1 => 5600 | _ => 6400

/-- tREFI of the active set in ticks, rounded down, halved while MR4 asks for a doubled rate (R308; log entry 12). -/
def State.refreshInterval (s : State) (k : Nat) : Nat :=
  let clocks := s.fld (R.MC_TSET3 s.activeSet) F.MC_TSET3_TREFI
  let rate := setRate (s.fld (R.MC_TSET0 s.activeSet) F.MC_TSET0_SPEED)
  let t := clocks * 3000 / rate
  if 3 ≤ (s.sub k).mr4 % 8 then t / 2 else t

/-- Memory is in service and no frequency change is in progress: MC_STATUS.READY (Table 14-11). -/
def State.memReady (s : State) : Bool := s.memOn && !s.flag R.MC_STATUS F.MC_STATUS_FC_BUSY

/-- R308. An all-bank refresh falls due on a subchannel: postponed, up to 4, while class 1 requests wait there, and
otherwise issued with the postponed ones. -/
def execRefresh (sub : Fin 4) (ingestWaits : Bool) (s : State) : Result :=
  let x := s.sub sub.val
  when (s.memReady && sub.val < 2 ^ s.memW && x.refreshAt ≤ s.now) s <|
    let at' := s.now + s.refreshInterval sub.val
    if ingestWaits ∧ x.postponed < 4 then
      s.modSub sub.val fun x => { x with refreshAt := at', postponed := x.postponed + 1 }
    else
      ((s.easeActivates sub.val (x.postponed + 1)).modSub sub.val fun x => { x with refreshAt := at', postponed := 0 }).dram
        sub.val (.refresh (x.postponed + 1))

/-- R308. Every 1,500,000 ticks MR4 of a subchannel is read, and the rate it reports applies. -/
def execMr4Read (sub : Fin 4) (value : Fin 256) (s : State) : Result :=
  when (s.memReady && sub.val < 2 ^ s.memW && s.now % ticksMs == 0) s <|
    (s.modSub sub.val fun x => { x with mr4 := value.val }).dram sub.val (.mrr 4)

/-- R309. Every 48,000,000 ticks the activate tables are cleared. -/
def execActivateTableClear (s : State) : Result :=
  when (s.now % (32 * ticksMs) == 0) s <|
    s.mem.banks.foldl (fun t e => t.setBank e.1 { t.bank e.1 with acts := [] }) s

/-- R309. A row's count has reached THR: a directed refresh of the row, or RFM of the bank where the devices
report no DRFM or DRFM_OFF is 1; the count restarts from 0. -/
def execNeighbourRefresh (sub : Fin 4) (bank : Fin 32) (row : Nat) (drfm : Bool) (s : State) : Result :=
  let key := 32 * sub.val + bank.val
  let b := s.bank key
  let thr := s.fld R.MC_ACT_CFG F.MC_ACT_CFG_THR
  when (b.acts.any fun e => e.1 == row && thr ≤ e.2) s <|
    let useRfm := !drfm || s.flag R.MC_ACT_CFG F.MC_ACT_CFG_DRFM_OFF
    let s := s.setBank key { b with acts := b.acts.map fun e => if e.1 = row then (row, 0) else e }
    let s := s.bump R.MC_ACT_CNT F.MC_ACT_CNT_COUNT 1
    let s := s.dram sub.val (if useRfm then .rfm bank.val else .drfm bank.val row)
    s.logMem 0x8005 sub.val bank.val row (bitOf useRfm)

/-- R307. A bank's idle timer expires: its row is precharged. -/
def execPageIdlePrecharge (sub : Fin 4) (bank : Fin 32) (s : State) : Result :=
  let key := 32 * sub.val + bank.val
  let b := s.bank key
  match b.row with
  | some (_, t) => when (t ≤ s.now) s <| (s.setBank key { b with row := none }).dram sub.val (.precharge bank.val)
  | none => .next s

/-- Ticks between two patrol reads: one burst at a time, the whole capacity in PERIOD_H hours (R316). -/
def State.scrubInterval (s : State) : Nat :=
  s.fld R.MC_SCRUB_CFG F.MC_SCRUB_CFG_PERIOD_H * 3600 * ticksS / (s.memSize / 64)

/-- The words of one patrol burst: a corrected one is written back, and each is counted for the pass. -/
def State.scrubWord (s : State) (a : Nat) : State :=
  let kind := (decodeWord (s.erasedDevice (s.memSub a)) (s.memSymbols a)).1
  let (_, t) := s.readWord 5 a
  match kind with
  | .clean => t
  | .corrected _ => { t.writeBackWord a with mem.scrubCor := t.mem.scrubCor + 1 }
  | .uncorrectable => { t with mem.scrubUnc := t.mem.scrubUnc + 1 }
  | .poison => { t with mem.scrubPoi := t.mem.scrubPoi + 1 }

/-- R316. Patrol scrub reads its next burst; at the top of memory it wraps and reports the pass. -/
def execPatrolScrubRead (s : State) : Result :=
  when (s.memReady && s.flag R.MC_SCRUB_CFG F.MC_SCRUB_CFG_EN && s.mem.scrubAt ≤ s.now) s <|
    let burst := s.fld R.MC_SCRUB_STATUS F.MC_SCRUB_STATUS_PTR
    let s := { s with mem := { s.mem with scrubAt := s.now + s.scrubInterval } }
    let s := s.serveBurst 5 (burst * 64)
    let s := (List.range 8).foldl (fun t i => t.scrubWord (burst * 64 + 8 * i)) s
    if (burst + 1) * 64 < s.memSize then s.setFld R.MC_SCRUB_STATUS F.MC_SCRUB_STATUS_PTR (burst + 1)
    else
      let s := (s.setFld R.MC_SCRUB_STATUS F.MC_SCRUB_STATUS_PTR 0).logMem 0x8008
        s.mem.scrubCor s.mem.scrubUnc s.mem.scrubPoi
      { s with mem := { s.mem with scrubCor := 0, scrubUnc := 0, scrubPoi := 0 } }

/-- R312. A write of MC_ECC_ERASE: each device newly erased logs event 0x8004 with cause 1. -/
def execEccEraseWrite (val : Word) (s : State) : Result :=
  let t := s.setFld R.MC_ECC_ERASE F.MC_ECC_ERASE_DEV val.toNat
  .next <| (List.range 4).foldl (fun u k =>
    match t.erasedDevice k with
    | some d =>
      if s.erasedDevice k = some d then u
      else u.logMem 0x8004 k d 1 (u.fld (R.MC_ECC_DEV k) ⟨6 * d + 5, 6 * d⟩)
    | none => u) t

/-- A write of MC_ECC_CFG: a threshold of 0 is stored as 1, and CLR zeroes the counts (Table 14-17). -/
def execEccCountClear (val : Word) (s : State) : Result :=
  let n := getField val F.MC_ECC_CFG_AUTO_N
  let s := s.setFld R.MC_ECC_CFG F.MC_ECC_CFG_AUTO_N (max 1 n)
  let s := s.setFld R.MC_ECC_CFG F.MC_ECC_CFG_AUTO_EN (getField val F.MC_ECC_CFG_AUTO_EN)
  .next <| if getFlag val F.MC_ECC_CFG_CLR then
      (List.range 4).foldl (fun t k => t.setReg (R.MC_ECC_DEV k) 0) (s.setReg R.MC_ECC_CNT 0)
    else s

/-- A test or training write refused: event 0x800A with the register's offset (R317, R318). -/
def State.refuseTraining (s : State) (off : Nat) : State := s.logMem 0x800A off

/-- R317. A write of MC_FLIP_ADDR_HI, which stores the held _LO value and arms the flip while the debug unlock is
in force, and at any other time is ignored. -/
def execFlipArm (lo hi : Word) (s : State) : Result :=
  .next <| if testBitN (s.fld R.SEC_STATUS F.SEC_STATUS_DBG) 2 then
      let s := s.setReg R.MC_FLIP_ADDR_LO (BitVec.ofNat 32 (lo.toNat / 8 * 8))
      s.setReg R.MC_FLIP_ADDR_HI (BitVec.ofNat 32 (hi.toNat % 256 + 2 ^ 31))
    else s.refuseTraining R.MC_FLIP_ADDR_HI

/-- MC_STATUS.READY: ENABLE is 1 and no change is in progress (Table 14-11). -/
def State.updateMcReady (s : State) : State :=
  s.setFld R.MC_STATUS F.MC_STATUS_READY (bitOf s.memReady)

/-- A write of MC_CFG (Table 14-10): SUBCH and DENSITY only while ENABLE is 0, 3 stored as 2; ENABLE puts memory in
service with the active set (R318). -/
def State.writeMcCfg (s : State) (val : Word) : State :=
  let s := if s.memOn then s else
    (s.setFld R.MC_CFG F.MC_CFG_SUBCH (min 2 (getField val F.MC_CFG_SUBCH))).setFld R.MC_CFG
      F.MC_CFG_DENSITY (min 2 (getField val F.MC_CFG_DENSITY))
  let first := !s.memOn
  let s := (s.setFld R.MC_CFG F.MC_CFG_ENABLE (getField val F.MC_CFG_ENABLE)).updateMcReady
  if first && s.memOn then
    -- the first refresh and the first patrol read count from the moment memory is in service
    let s := s.subs.foldl (fun t k => t.modSub k fun x => { x with refreshAt := t.now + t.refreshInterval k }) s
    { s with mem := { s.mem with scrubAt := s.now } }
  else s

/-- R318. MEMORY_ENABLE: a write of MC_CFG. -/
def execMemoryEnable (val : Word) (s : State) : Result := .next (s.writeMcCfg val)

/-- The training helpers act only while ENABLE is 0 (R318). -/
def trainOnly (s : State) (off : Nat) (t : State) : Result := .next (if s.memOn then s.refuseTraining off else t)

/-- The subchannels of a mask. -/
def maskSubs (mask : Nat) : List Nat := (List.range 4).filter (testBitN mask)

/-- A mode register of a subchannel's devices written. -/
def State.modeWrite (s : State) (k mr data : Nat) : State :=
  let s := s.dram k (.mrw mr data)
  { s with mem := { s.mem with modeRegs := storePut (fun _ => 0) (256 * k + mr) data s.mem.modeRegs } }

/-- R318. MC_TRN_CMD OP 1: a mode register write to the selected subchannels. -/
def execMrw (scmask : Fin 16) (mr : Fin 256) (data : Fin 256) (s : State) : Result :=
  trainOnly s R.MC_TRN_CMD <| (maskSubs scmask.val).foldl (fun (t : State) (k : Nat) => t.modeWrite k mr.val data.val) s

/-- R318. MC_TRN_CMD OP 2: a mode register read; the devices' answer stands in MC_TRN_STATUS.MRR, and as the register's content. -/
def execMrr (scmask : Fin 16) (mr answer : Fin 256) (s : State) : Result :=
  trainOnly s R.MC_TRN_CMD <|
    ((maskSubs scmask.val).foldl (fun t k =>
      let t := t.dram k (.mrr mr.val)
      { t with mem := { t.mem with
          modeRegs := storePut (fun _ => 0) (256 * k + mr.val) answer.val t.mem.modeRegs } }) s).setFld R.MC_TRN_STATUS
      F.MC_TRN_STATUS_MRR answer.val

/-- R318. MC_TRN_CMD OP 3: a multi-purpose command. -/
def execMpc (scmask : Fin 16) (op : Fin 256) (s : State) : Result :=
  trainOnly s R.MC_TRN_CMD <| (maskSubs scmask.val).foldl (fun t k => t.dram k (.mpc op.val)) s

/-- The banks of the selected subchannels lose their open rows. -/
def State.closeRows (s : State) (subs : List Nat) : State :=
  s.mem.banks.foldl (fun t e => if e.1 / 32 ∈ subs then t.setBank e.1 { t.bank e.1 with row := none } else t) s

/-- R318. MC_TRN_CMD OP 4: all banks of the selected subchannels are precharged. -/
def execPrechargeAll (scmask : Fin 16) (s : State) : Result :=
  let ks := maskSubs scmask.val
  trainOnly s R.MC_TRN_CMD <| ks.foldl (fun t k => t.dram k .prechargeAll) (s.closeRows ks)

/-- R318. MC_TRN_CMD OP 5: an all-bank refresh. -/
def execRefreshAll (scmask : Fin 16) (s : State) : Result :=
  trainOnly s R.MC_TRN_CMD <| (maskSubs scmask.val).foldl (fun t k => t.dram k (.refresh 1)) s

/-- The symbols of a word from two 40-bit beats: device d carries bits [8d+7:8d] (R310). -/
def beatSymbols (b0 b1 : Nat) : List Nat :=
  let lane (b d : Nat) := natBits b (8 * d + 7) (8 * d)
  (List.range 4).map (lane b0) ++ (List.range 4).map (lane b1) ++ [lane b0 4, lane b1 4]

/-- The beat at index i of a pattern: walking one and zero run over the 40 lines; for the others the spec does not
give how SEED fills a beat (log entry 13). -/
def patternBeat (pat : Nat) (i : Nat) : Nat :=
  match natBits pat 31 30 with
  | 2 => 2 ^ (i % 40)
  | 3 => 2 ^ 40 - 1 - 2 ^ (i % 40)
  | _ => Config.patternBeat pat i % 2 ^ 40

/-- R318. MC_TRN_CMD OP 6: raw beats are written from the pattern unit to a burst range of the selected subchannels
and read back; `errs` lists each subchannel with the DQ lines that failed. -/
def execPatternRun (scmask : Fin 16) (bursts : Fin 65536) (errs : List (Fin 4 × Nat)) (s : State) : Result :=
  let ks := maskSubs scmask.val
  trainOnly s R.MC_TRN_CMD <|
    let s := (List.range 4).foldl (fun t k => (t.setReg (R.MC_TRN_FAIL k 0) 0).setReg (R.MC_TRN_FAIL k 1) 0) s
    let pat := (s.reg R.MC_TRN_PAT).toNat
    let f := s.fld R.MC_TRN_ADDR
    let first := ((f F.MC_TRN_ADDR_ROW * 4 + f F.MC_TRN_ADDR_BA) * 8 + f F.MC_TRN_ADDR_BG) * 64 +
      f F.MC_TRN_ADDR_COL
    let putBurst (k i : Nat) (t : State) : State :=
      let x := first + i
      let a := t.memAddr k (x / 2048) (x / 512 % 4) (x / 64 % 8) (x % 64)
      (List.range 8).foldl (fun u w =>
        u.storeSymbols (a + 8 * w)
          (beatSymbols (patternBeat pat (16 * i + 2 * w)) (patternBeat pat (16 * i + 2 * w + 1)))) t
    let s := ks.foldl (fun t k => (List.range bursts.val).foldl (fun u i => putBurst k i u) t) s
    errs.foldl (fun t e =>
      if e.1.val ∈ ks then
        (t.setReg (R.MC_TRN_FAIL e.1.val 0) (t.reg (R.MC_TRN_FAIL e.1.val 0) ||| BitVec.ofNat 32 e.2)).setReg
          (R.MC_TRN_FAIL e.1.val 1)
          (t.reg (R.MC_TRN_FAIL e.1.val 1) ||| BitVec.ofNat 32 (e.2 / 2 ^ 32 % 256))
      else t) s

/-- R319. The compatibility sweep starts: set 0 takes its reset values and becomes active. -/
def State.startSweep (s : State) : State :=
  let regs := [R.MC_TSET0 0, R.MC_TSET1 0, R.MC_TSET2 0, R.MC_TSET3 0, R.MC_TSET4 0]
  let s := regs.foldl (fun t r => t.resetReg r) s
  let s := s.setFld R.MC_STATUS F.MC_STATUS_ACTIVE_SET 0
  s.setFld R.MC_STATUS F.MC_STATUS_SWEEP_BUSY 1

/-- R319. A write of 1 to MC_SWEEP.START while ENABLE is 0 runs the sweep; a write while one runs changes
nothing (log entry 14). -/
def execSweepStart (s : State) : Result :=
  .next <| if s.memOn then s.refuseTraining R.MC_SWEEP
    else if s.flag R.MC_STATUS F.MC_STATUS_SWEEP_BUSY then s
    else s.startSweep

/-- Whether an offset within delay bank 0 names a delay register, and the bits it holds (Tables 14-35, 14-36). -/
def delayMask (ofs : Nat) : Option Nat :=
  if ofs % 4 ≠ 0 ∨ 0x400 ≤ ofs then none
  else if ofs % 0x100 < 0xA0 then some 0x7F7F
  else if ofs % 0x100 < 0xB4 then some 0x1FF7FDFF
  else none

/-- R319. The sweep ends: its results stand in delay bank 0, and event 0x800B says whether it passed. `codes` gives
the delay registers found, by offset within the bank. -/
def State.endSweep (s : State) (failMask : Nat) (codes : List (Nat × Word)) : State :=
  let s := codes.foldl (fun t e =>
    match delayMask e.1 with
    | some m => t.setReg (R.MC_DLY_DQ 0 0 0 + e.1) (BitVec.ofNat 32 (e.2.toNat &&& m))
    | none => t) s
  let s := s.setFld R.MC_STATUS F.MC_STATUS_SWEEP_BUSY 0
  let s := s.setFld R.MC_STATUS F.MC_STATUS_SWEEP_FAIL (bitOf (failMask != 0))
  s.logMem 0x800B (bitOf (failMask != 0)) failMask

/-- The reason a frequency change is refused, the first that holds in the order of R320. -/
def State.changeRefusal (s : State) (target : Nat) : Option Nat :=
  if s.heads.any (fun h => h.pass.isSome || h.opening.isSome) then some 0
  else if !s.memOn then some 1
  else if s.flag R.MC_STATUS F.MC_STATUS_FC_BUSY || s.flag R.MC_STATUS F.MC_STATUS_SWEEP_BUSY then some 2
  else if target = s.activeSet then some 3
  else none

/-- R320. A write of MC_FC_CTRL with REQ asks for a change to TARGET: refused with event 0x8007, or begun. -/
def execFrequencyChangeRequest (target : Fin 2) (s : State) : Result :=
  let s := s.setFld R.MC_FC_CTRL F.MC_FC_CTRL_TARGET target.val
  .next <| match s.changeRefusal target.val with
    | some c => s.logMem 0x8007 c
    | none =>
      let s := { s with mem := { s.mem with change := some (s.now, target.val) } }
      (s.setFld R.MC_STATUS F.MC_STATUS_FC_BUSY 1).updateMcReady

/-- What one subchannel goes through in a change (Table 14-7): precharge, the postponed refreshes and one more,
self-refresh entry and exit, MR0 and MR6 from the set, and MR4. -/
def State.changeSub (s : State) (k : Nat) : State :=
  let s := (s.dram k .prechargeAll).closeRows [k]
  let s := (s.easeActivates k ((s.sub k).postponed + 1)).dram k (.refresh ((s.sub k).postponed + 1))
  let s := s.modSub k fun x => { x with postponed := 0 }
  let s := (s.dram k .selfRefreshEntry).dram k .selfRefreshExit
  let set := s.activeSet
  let cl := s.fld (R.MC_TSET0 set) F.MC_TSET0_CL
  let rtp := s.fld (R.MC_TSET1 set) F.MC_TSET1_TRTP
  let wr := s.fld (R.MC_TSET1 set) F.MC_TSET1_TWR
  let s := (s.modeWrite k 0 cl).modeWrite k 6 (256 * wr + rtp)
  s.dram k (.mrr 4)

/-- R320. Step 6 of a frequency change: admission resumes with the new set. -/
def execFrequencyChangeDone (s : State) : Result :=
  match s.mem.change with
  | none => .next s
  | some (q, target) =>
    let old := s.activeSet
    let s := s.setFld R.MC_STATUS F.MC_STATUS_ACTIVE_SET target
    let s := s.subs.foldl (fun t k => t.changeSub k) s
    let s := { s with mem := { s.mem with change := none } }
    let s := (s.setFld R.MC_STATUS F.MC_STATUS_FC_BUSY 0).updateMcReady
    .next (s.logMem 0x8006 old target (s.now - q))

end Sys2Proof.Machine
end

