-- ==== Sys2Proof/Machine/Motion.lean ====
section
/-!
DEFINITION. Machine/Motion.lean: what happens to the sleds by time and from their pins: profile ticks, choppers,
load-angle windows, currents, and switches (R193 to R206).
-/

namespace Sys2Proof.Machine

/-- R193. A profile tick, at each count that is a multiple of 1,500: every sled takes its waiting commands and its next
V. -/
def execProfileTick (s : State) : Result :=
  when (s.now % ticksUs == 0) s <| (List.finRange 16).foldl (fun t n => t.profileSled n) s

/-- The current level selected (R198). -/
def sledCurrent (s : State) (n : Fin 16) : Nat :=
  let x := s.sled n
  if s.flag (R.SL_STATUS n.val) F.SL_STATUS_BOOST then s.fld (R.SL_PROT n.val) F.SL_PROT_BOOST
  else if (x.st = .hold ∧ x.holdCur) ∨ x.st = .frozen then s.fld (R.SL_CUR n.val) F.SL_CUR_HOLD
  else s.fld (R.SL_CUR n.val) F.SL_CUR_RUN

/-- The full wave of the microstep table (R198), by symmetry from the quarter wave. -/
def tabWave (s : State) (a : Nat) : Int :=
  let k := a % 4096
  let q (j : Nat) : Int := ((s.reg (0x143000 + 4 * j)).toNat % 65536 : Nat)
  -- the peak, a quarter turn in, is the entry past the table's end, which the reset table's rule gives as 32,767
  let at' (j : Nat) : Int := if j = 1024 then 32767 else q j
  if k < 1024 then at' k
  else if k < 2048 then at' (2048 - k)
  else if k < 3072 then - at' (k - 2048)
  else - at' (4096 - k)

/-- The bridge inputs for a drive state and the reference's sign (R199). -/
def bridgeOf (st : Drive) (sign : Int) : Nat :=
  match st with
  | .drive => if 0 < sign then 2 else 1
  | .fast => if 0 < sign then 1 else 2
  | .decay => 3

/-- The mean applied drive that a bridge state stands for (R201). -/
def driveValue (bridge : Nat) : Int := if bridge = 2 then 4096 else if bridge = 1 then -4096 else 0

/-- One sample of a chopper (R199, R200): `ref` is the reference and `code` the sensed current. A sample comes 100 ns after the
one before, so `since + 1` and `inState + 1` are the times, in 100 ns, since the last change and the last entry. -/
def Chopper.sample (c : Chopper) (ref code : Int) (h ko toff blank : Nat) : Chopper :=
  let sign := if ref = 0 then c.sign else sgn ref
  let j := code * sign
  let hh : Int := h
  -- a, in 1/16 code
  let a16 := 16 * absI ref + c.delta
  let j16 := 16 * j
  let c := { c with sign := sign, cycSum := c.cycSum + j, cycCnt := c.cycCnt + 1,
                    winDrive := c.winDrive + driveValue c.bridge, winCur := c.winCur + code, winCnt := c.winCnt + 1 }
  let free := blank ≤ c.since + 1
  let st :=
    if !free then c.st
    else if a16 + 16 * hh ≤ j16 ∧ c.st ≠ .fast then .fast
    else match c.st with
      | .drive => if a16 + 8 * hh ≤ j16 then .decay else .drive
      | .decay => if j16 ≤ a16 - 8 * hh ∧ toff ≤ c.inState + 1 then .drive else .decay
      | .fast => if j16 ≤ a16 + 8 * hh then .decay else .fast
  let bridge := bridgeOf st sign
  -- a chop cycle ends on entry into DRIVE
  let ends := st = .drive ∧ c.st ≠ .drive
  let mean := openRound c.cycSum (max 1 c.cycCnt)
  let delta := if ends then
      clampInt (-16 * hh) (16 * hh) (c.delta + floorDiv ((absI ref - mean) * 16) (2 ^ ko))
    else c.delta
  { c with st := st, bridge := bridge, delta := delta,
           since := if bridge = c.bridge then c.since + 1 else 0,
           inState := if st = c.st then c.inState + 1 else 0,
           cycSum := if ends then 0 else c.cycSum, cycCnt := if ends then 0 else c.cycCnt }

/-- R323. The corrected code of a raw conversion of sense channel c, by the channel's applied coefficients. -/
def correctedCode (s : State) (c : Nat) (raw : Int) : Int :=
  let w := (s.reg (R.CAL_ADC_APP c)).toNat
  let ofs := toSigned w 16
  let gain : Int := (w / 65536 : Nat)
  clampInt (-2047) 2047 (floorDiv ((raw * 16 - ofs) * gain + 2 ^ 18) (2 ^ 19))

/-- R324. A tick at which the conversion is a calibration slot. -/
def isCalSlot (t : Stamp) : Bool := t % ticksMs == 0 || t % ticksMs == 150

/-- R198, R199, R200, R323. Every 150 ticks the sense inputs of a sled are sampled: each phase's raw conversion is
corrected, or in a calibration slot its last code stands in (R324). In IDLE, until the calibration's first copy is in
service (R326), and on a head never populated (R14), the bridge coasts; otherwise each phase's chopper moves. -/
def execChopperSample (sled : Fin 16) (rawA rawB : Int) (s : State) : Result :=
  when (s.now % 150 == 0) s <|
    let x := s.sled sled
    let slot := isCalSlot s.now
    let codeA := if slot then x.chopA.last else correctedCode s (2 * sled.val) rawA
    let codeB := if slot then x.chopB.last else correctedCode s (2 * sled.val + 1) rawB
    let s := s.modSled sled fun x => { x with chopA := { x.chopA with last := codeA }, chopB := { x.chopB with last := codeB } }
    if x.st = .idle ∨ !s.cal.copied ∨ !s.headPopulated sled.val then s
    else
      let i : Int := sledCurrent s sled
      let a := ((wholeM (x.mNow s.now)) % 4096).toNat
      let r := R.SL_CHOP sled.val
      let h := s.fld r F.SL_CHOP_HYST
      let ko := s.fld r F.SL_CHOP_KO
      let toff := s.fld r F.SL_CHOP_TOFF
      let blank := s.fld r F.SL_CHOP_BLANK
      let ra := openRound (i * tabWave s a) 32768
      let rb := openRound (i * tabWave s (a + 1024)) 32768
      s.modSled sled fun x => { x with chopA := x.chopA.sample ra codeA h ko toff blank
                                       chopB := x.chopB.sample rb codeB h ko toff blank }

/-- R201, R202. After 64 profile ticks at speed the load angle forms; it selects boost, and stall windows in a row
freeze the sled. -/
def execLoadAngleWindow (sled : Fin 16) (s : State) : Result :=
  let n := sled
  let x := s.sled n
  when (decide (64 ≤ x.winTicks)) s <|
    let clear (c : Chopper) : Chopper := { c with winDrive := 0, winCur := 0, winCnt := 0 }
    let s := s.modSled n fun x => { x with winTicks := 0, chopA := clear x.chopA, chopB := clear x.chopB }
    if !x.winFast ∨ !s.headPopulated n.val then s
    else
      let vbus : Int := s.fld (R.SL_LA_CFG n.val) F.SL_LA_CFG_VBUS
      let rph : Int := s.fld (R.SL_LA_CFG n.val) F.SL_LA_CFG_RPH
      let emf (c : Chopper) : Int :=
        let d := openRound c.winDrive (max 1 c.winCnt)
        let i := openRound c.winCur (max 1 c.winCnt)
        floorDiv (vbus * d) 4096 - floorDiv (rph * i) 256
      let eA := emf x.chopA
      let eB := emf x.chopB
      let sg : Int := if 0 < x.v then 1 else -1
      let th := atan2Turn (-sg * eB) (sg * eA)
      let lam := wrapTurn (sg * (x.winMid % 4096 - th))
      let mag := absI eA + absI eB
      let s := s.setFld (R.SL_LA n.val) F.SL_LA_EMAG (min 65535 mag.toNat)
      let s := s.setFld (R.SL_LA n.val) F.SL_LA_LAMBDA (ofSigned lam 12)
      let thr (p : FieldPos) : Int := s.fld (R.SL_LA_THR n.val) p
      let s := if thr F.SL_LA_THR_BOOST ≤ lam then
          (s.setFld (R.SL_STATUS n.val) F.SL_STATUS_BOOST 1).modSled n fun x => { x with boostAt := some s.now }
        else s
      if thr F.SL_LA_THR_STALL ≤ lam ∨ mag < 16 * thr F.SL_LA_THR_EMIN then
        let s := s.modSled n fun x => { x with stallRun := x.stallRun + 1 }
        if s.fld (R.SL_LA_THR n.val) F.SL_LA_THR_STALL_N ≤ (s.sled n).stallRun then
          let p := (s.sled n).pNow s.now
          let s := s.modSled n fun x => { x with stallRun := 0 }
          (s.freezeSled n 2).logMot 0x5002 n.val (arg lam) (arg mag) (arg p)
        else s
      else s.modSled n fun x => { x with stallRun := 0 }

/-- R202. BOOST_HOLD ms without a boost window deselect I_BOOST. -/
def execBoostHoldExpiry (sled : Fin 16) (s : State) : Result :=
  match (s.sled sled).boostAt with
  | none => .next s
  | some t =>
    when (decide (t + s.fld (R.SL_PROT sled.val) F.SL_PROT_BOOST_HOLD * ticksMs ≤ s.now)) s <|
      (s.setFld (R.SL_STATUS sled.val) F.SL_STATUS_BOOST 0).modSled sled fun x => { x with boostAt := none }

/-- R198. A sled at rest in HOLD for HOLD_DLY ms takes I_HOLD. -/
def execHoldCurrentDelay (sled : Fin 16) (s : State) : Result :=
  let x := s.sled sled
  when (x.st == .hold && !x.holdCur &&
      decide (x.restFrom + s.fld (R.SL_CUR sled.val) F.SL_CUR_HOLD_DLY * ticksMs ≤ s.now)) s <|
    s.modSled sled fun x => { x with holdCur := true }

/-- R203. Two consecutive samples of a phase above OC: the bridge coasts, and the sled enters IDLE with FAULT 3 and
UNCERTAIN set. `phase` is 0 for A and 1 for B. -/
def execSledOverCurrent (sled : Fin 16) (phase : Fin 2) (first second : Int) (s : State) : Result :=
  let oc : Int := s.fld (R.SL_PROT sled.val) F.SL_PROT_OC
  when (decide (oc < absI first) && decide (oc < absI second)) s <|
    let p := (s.sled sled).pNow s.now
    let s := s.modSled sled fun x => { x with cmds := [] }
    let s := s.restSled sled .idle ((s.sled sled).mNow s.now)
    let s := s.setFld (R.SL_STATUS sled.val) F.SL_STATUS_FAULT 3
    let s := s.setFld (R.SL_STATUS sled.val) F.SL_STATUS_UNCERTAIN 1
    s.logMot 0x5003 sled.val phase.val (arg second) (arg p)

/-- A switch of a sled, and that switch changed: false for home, true for end of travel. -/
def Sled.switch (x : Sled) (eot : Bool) : Switch := if eot then x.eot else x.home
def Sled.setSwitch (x : Sled) (eot : Bool) (w : Switch) : Sled :=
  if eot then { x with eot := w } else { x with home := w }

/-- The debounce time of a sled's switches, in ticks (R204). -/
def debTicks (s : State) (n : Fin 16) : Nat := s.fld (R.SL_AUX_CFG n.val) F.SL_AUX_CFG_DEB * ticksUs

/-- A qualified transition in HOME (R205) and outside it (R206). -/
def State.switchQualified (s : State) (n : Fin 16) (eot asserted : Bool) (stamp : Stamp) (pos : Int) : State :=
  let x := s.sled n
  let p := x.pNow s.now
  if x.st = .home then
    if eot && asserted then (s.freezeSled n 6).logMot 0x5005 n.val (stamp % 2 ^ 32) (arg p)
    else if !eot && asserted && x.stage != .slowing then
      let want := toSigned (s.reg (R.SL_HOME_POS n.val)).toNat 32
      let s := s.modSled n fun x => { x with ofs := x.ofs + want - pos, stage := .slowing }
      (s.setFld (R.SL_STATUS n.val) F.SL_STATUS_UNCERTAIN 0).showSled n
    else if !eot then s.modSled n fun x => { x with stage := if x.stage = .outward then .inward else x.stage }
    else s
  else if eot && asserted && decide (0 < x.v) then (s.freezeSled n 4).logMot 0x5006 n.val (stamp % 2 ^ 32) (arg p)
  else if !eot && asserted && decide (x.v < 0) then (s.freezeSled n 5).logMot 0x5007 n.val (stamp % 2 ^ 32) (arg p)
  else s

/-- A debounce window ends with the level that the pin has then (R204): a new level qualifies, and latches the first edge's stamp
and position; the old one discards the transition. -/
def State.endWindow (s : State) (n : Fin 16) (eot : Bool) (e : EdgeWindow) (level : Bool) : State :=
  let was := ((s.sled n).switch eot).asserted
  let s := s.modSled n fun x => x.setSwitch eot ⟨level, none⟩
  if level = was then s.logMot 0x5008 n.val (bitOf eot) (e.start % 2 ^ 32) e.edges
  else
    let s := s.setPair (R.SL_LATCH_LO n.val) e.start
    let s := s.setFld (R.SL_LATCH_POS n.val) F.SL_LATCH_POS_POS (arg e.pos)
    let s := s.logMot 0x5004 n.val (bitOf eot) (e.start % 2 ^ 32) (arg e.pos)
    s.switchQualified n eot level e.start e.pos

/-- R204. An edge of a home or end-of-travel switch: the first after a qualified level opens a window, and later edges inside
the window are only counted. An edge stamped at or after the window's end stands after it (R31): the window ends first, with
the level before this edge, and the edge opens the next one. -/
def execSwitchEdge (sled : Fin 16) (eot : Bool) (s : State) : Result :=
  let n := sled
  let w := (s.sled n).switch eot
  let t := s.cellStamp
  let first (s : State) : State :=
    let x := s.sled n
    let pos := wholeM ((x.mAt t).getD (x.mNow s.now)) + x.ofs
    s.modSled n fun x => x.setSwitch eot { x.switch eot with window := some ⟨t, pos, 1⟩ }
  .next <| match w.window with
    | none => first s
    | some e =>
      if t < e.start + debTicks s n then s.modSled n fun x => x.setSwitch eot { w with window := some { e with edges := e.edges + 1 } }
      else first (s.endWindow n eot e w.level)

/-- R204. The end of the window: `asserted` is the level sampled then. -/
def execSwitchDebounceEnd (sled : Fin 16) (eot asserted : Bool) (s : State) : Result :=
  match ((s.sled sled).switch eot).window with
  | none => .next s
  | some e => when (decide (e.start + debTicks s sled ≤ s.now)) s <| s.endWindow sled eot e asserted

/-- R194. A write of CLR_FAULT sets FAULT to 0, except while its cause is present: a switch still asserted, or a sensed current
still above OC. -/
def State.clearSledFault (s : State) (n : Fin 16) : State :=
  let f := s.fld (R.SL_STATUS n.val) F.SL_STATUS_FAULT
  let x := s.sled n
  let oc : Int := s.fld (R.SL_PROT n.val) F.SL_PROT_OC
  let present := ((f = 4 ∨ f = 6) ∧ x.eot.level) ∨ (f = 5 ∧ x.home.level) ∨
    (f = 3 ∧ (oc < absI x.chopA.last ∨ oc < absI x.chopB.last))
  if present then s else s.setFld (R.SL_STATUS n.val) F.SL_STATUS_FAULT 0

/-- R194. A write of 1 to SL_CTRL.CLR_FAULT. -/
def execSledClearFault (sled : Fin 16) (s : State) : Result := .next (s.clearSledFault sled)

/-- R195. A write of SL_TARGET: the target is clamped to the soft limits, and a move in progress is retargeted. -/
def execSledTargetWrite (sled : Fin 16) (val : Word) (s : State) : Result :=
  .next (s.writeTarget sled (toSigned val.toNat 32))

/-- R219. A sled demand is kept; it acts only in FOLLOW. -/
def execSledDemand (sled : Fin 16) (demand : Int) (s : State) : Result :=
  .next (s.modSled sled fun x => { x with demand := demand })

end Sys2Proof.Machine
end

