-- ==== Sys2Proof/Machine/Obkin.lean ====
section
/-!
DEFINITION. Machine/Obkin.lean: the ALU, predicate and control instructions (Table 10-4), signals, time and waits (R229 to
R231), and the bobbins' starts and halts (R240, R241, R243).
-/

namespace Sys2Proof.Machine

/-! ## Arithmetic -/

/-- An instruction that writes rd from a pair of operands. -/
def State.aluIns (s : State) (b : Fin 24) (u : Upset) (k : Nat) (f : Ins → Nat → Nat → Nat) : Result :=
  s.issue b u (isOp k) fun i t => .ok (t.setG b i.rd (f i (t.g b i.ra) (opB t b i) % 2 ^ 64))

/-- Signed reading of a register. -/
def sx (v : Nat) : Int := toSigned v 64

/-- R227. ADD: rd = ra + rb. -/
def execAdd (b : Fin 24) (u : Upset) (s : State) : Result := s.aluIns b u 0x0 fun _ a b => a + b

/-- R227. SUB: rd = ra − rb. -/
def execSub (b : Fin 24) (u : Upset) (s : State) : Result := s.aluIns b u 0x1 fun _ a b => a + 2 ^ 64 - b

/-- R227. AND: rd = ra & rb. -/
def execAnd (b : Fin 24) (u : Upset) (s : State) : Result := s.aluIns b u 0x2 fun _ a b => a &&& b

/-- R227. OR: rd = ra | rb. -/
def execOr (b : Fin 24) (u : Upset) (s : State) : Result := s.aluIns b u 0x3 fun _ a b => a ||| b

/-- R227. XOR: rd = ra ^ rb. -/
def execXor (b : Fin 24) (u : Upset) (s : State) : Result := s.aluIns b u 0x4 fun _ a b => a ^^^ b

/-- R227. SHL: left shift by rb[5:0]. -/
def execShl (b : Fin 24) (u : Upset) (s : State) : Result := s.aluIns b u 0x5 fun _ a b => a * 2 ^ (b % 64)

/-- R227. SHR: logical right shift by rb[5:0]. -/
def execShr (b : Fin 24) (u : Upset) (s : State) : Result := s.aluIns b u 0x6 fun _ a b => a / 2 ^ (b % 64)

/-- R227. SAR: arithmetic right shift by rb[5:0]. -/
def execSar (b : Fin 24) (u : Upset) (s : State) : Result := s.aluIns b u 0x7 fun _ a b => ofSigned (floorDiv (sx a) (2 ^ (b % 64))) 64

/-- R227. MUL: low 64 bits of the product. -/
def execMul (b : Fin 24) (u : Upset) (s : State) : Result := s.aluIns b u 0x8 fun _ a b => a * b

/-- R227. MULH: high 64 bits of the signed product. -/
def execMulh (b : Fin 24) (u : Upset) (s : State) : Result := s.aluIns b u 0x9 fun _ a b => ofSigned (floorDiv (sx a * sx b) (2 ^ 64)) 64

/-- R227. MIN: signed minimum. -/
def execMin (b : Fin 24) (u : Upset) (s : State) : Result := s.aluIns b u 0xa fun _ a b => if sx a ≤ sx b then a else b

/-- R227. MAX: signed maximum. -/
def execMax (b : Fin 24) (u : Upset) (s : State) : Result := s.aluIns b u 0xb fun _ a b => if sx a ≤ sx b then b else a

/-- R227. ADDI: rd = ra + simm. -/
def execAddi (b : Fin 24) (u : Upset) (s : State) : Result := s.aluIns b u 0xC fun i a _ => ofSigned (a + immS i) 64

/-- R227. ANDI and ORI take the immediate zero-extended (R228). -/
def execAndi (b : Fin 24) (u : Upset) (s : State) : Result := s.aluIns b u 0xD fun i a _ => a &&& immZ i
def execOri (b : Fin 24) (u : Upset) (s : State) : Result := s.aluIns b u 0xE fun i a _ => a ||| immZ i

/-- A shift by kind: 0 left, 1 logical right, 2 arithmetic right. -/
def shiftBy (kind a n : Nat) : Nat :=
  match kind with
  | 0 => a * 2 ^ n
  | 1 => a / 2 ^ n
  | _ => ofSigned (floorDiv (sx a) (2 ^ n)) 64

/-- R227. SHI: imm[5:0] is the amount and imm[7:6] the kind; kind 3 and imm[9:8] other than 0 are illegal. -/
def execShi (b : Fin 24) (u : Upset) (s : State) : Result :=
  s.aluIns b u 0xF fun i a _ => shiftBy (natBits (immZ i) 7 6) a (natBits (immZ i) 5 0)

/-- The field width of BFX and BFI. -/
def bfWidth (imm : Nat) : Nat := natBits imm 9 6 * 4 + 4

/-- R227. BFX: the field of ra at imm[5:0]. -/
def execBfx (b : Fin 24) (u : Upset) (s : State) : Result :=
  s.aluIns b u 0x16 fun i a _ => a / 2 ^ natBits (immZ i) 5 0 % 2 ^ bfWidth (immZ i)

/-- R227. BFI: rd's low w bits inserted into ra at imm[5:0]; bits past bit 63 are lost. -/
def execBfi (b : Fin 24) (u : Upset) (s : State) : Result :=
  s.issue b u (isOp 0x17) fun i t =>
    let at' := natBits (immZ i) 5 0
    let w := min (bfWidth (immZ i)) (64 - at')
    let a := t.g b i.ra
    let old := a / 2 ^ at' % 2 ^ w
    .ok (t.setG b i.rd (a - old * 2 ^ at' + t.g b i.rd % 2 ^ w * 2 ^ at'))

/-- Leading and trailing zeros of a 64-bit value. -/
def leadingZeros (a : Nat) : Nat := if a = 0 then 64 else 63 - Nat.log2 a
def trailingZeros (a : Nat) : Nat := ((List.range 64).find? fun i => testBitN a i).getD 64

/-- R227. CNT: FN 0 population count, 1 leading zeros, 2 trailing zeros. -/
def execCnt (b : Fin 24) (u : Upset) (s : State) : Result :=
  s.aluIns b u 0x18 fun i a _ => if i.fn = 0 then popCount 64 a else if i.fn = 1 then leadingZeros a else trailingZeros a

/-- R223. DIVU: the unsigned quotient, all ones for a divisor of 0, after a stall of 34 cycles. -/
def execDivu (b : Fin 24) (u : Upset) (s : State) : Result :=
  s.issue b u (isOp 0x19) fun i t =>
    let d := opB t b i
    let t := t.setG b i.rd (if d = 0 then 2 ^ 64 - 1 else t.g b i.ra / d)
    .ok (t.modBob b fun x => { x with st := .stalled, stall := some (.busy (t.now + 68)) })

/-! ## Predicates -/

/-- An instruction that writes pd. -/
def State.predIns (s : State) (b : Fin 24) (u : Upset) (k : Nat) (f : Ins → State → Bool) : Result :=
  s.issue b u (isOp k) fun i t => .ok (t.setP b i.rd (f i t))

/-- The conditions of CMP. -/
def compare (fn a b : Nat) : Bool :=
  match fn with
  | 0 => a == b
  | 1 => a != b
  | 2 => sx a < sx b
  | 3 => sx b ≤ sx a
  | 4 => a < b
  | _ => b ≤ a

/-- R227. CMP by the condition of FN. -/
def execCmp (b : Fin 24) (u : Upset) (s : State) : Result :=
  s.predIns b u 0x10 fun i t => compare i.fn (t.g b i.ra) (opB t b i)

/-- R227. CMPI.EQ, CMPI.LT and CMPI.LTU: against the sign-extended immediate. -/
def execCmpiEq (b : Fin 24) (u : Upset) (s : State) : Result :=
  s.predIns b u 0x11 fun i t => t.g b i.ra == ofSigned (immS i) 64
def execCmpiLt (b : Fin 24) (u : Upset) (s : State) : Result :=
  s.predIns b u 0x12 fun i t => sx (t.g b i.ra) < immS i
def execCmpiLtu (b : Fin 24) (u : Upset) (s : State) : Result :=
  s.predIns b u 0x13 fun i t => t.g b i.ra < ofSigned (immS i) 64

/-- The operations of PSET. -/
def predOp (fn : Nat) (x y : Bool) : Bool :=
  match fn with
  | 0 => x && y
  | 1 => x || y
  | 2 => x != y
  | _ => x && !y

/-- R227. PSET: two predicates by FN; the long form's immediate stands in the place of rb. -/
def execPset (b : Fin 24) (u : Upset) (s : State) : Result :=
  s.predIns b u 0x14 fun i t => predOp i.fn ((t.bob b).pred (i.ra % 8)) ((t.bob b).pred ((i.ext.getD i.rb) % 8))

/-- R227. SEL: ra or rb by the predicate that FN names. -/
def execSel (b : Fin 24) (u : Upset) (s : State) : Result :=
  s.issue b u (isOp 0x15) fun i t => .ok (t.setG b i.rd (if (t.bob b).pred (i.fn % 8) then t.g b i.ra else opB t b i))

/-! ## Control -/

/-- A branch target from the first word, or the exception (R228, Table 10-4). -/
def branchTarget (i : Ins) : Except Nat Nat :=
  let t : Int := i.pc + (match i.ext with
    | some e => toSigned e 32
    | none => i.off)
  if 0 ≤ t ∧ t < 65536 then .ok t.toNat else .error 6

/-- The PC set. -/
def State.setPc (s : State) (b : Fin 24) (pc : Nat) : State := s.modBob b fun x => { x with pc := pc }

/-- R227. BR. -/
def execBr (b : Fin 24) (u : Upset) (s : State) : Result :=
  s.issue b u (isOp 0x30) fun i t => (branchTarget i).map fun pc => t.setPc b pc

/-- R227. CALL: the return address in g31. -/
def execCall (b : Fin 24) (u : Upset) (s : State) : Result :=
  s.issue b u (isOp 0x31) fun i t => (branchTarget i).map fun pc => (t.setG b 31 i.next).setPc b pc

/-- R227. JR: PC = ra[15:0], linking with FN[0]. -/
def execJr (b : Fin 24) (u : Upset) (s : State) : Result :=
  s.issue b u (isOp 0x32) fun i t =>
    let pc := t.g b i.ra % 65536
    .ok ((if i.fn % 2 = 1 then t.setG b 31 i.next else t).setPc b pc)

/-- R242. TRAP: exception 0x09 with imm10 as the event's argument. -/
def execTrap (b : Fin 24) (u : Upset) (s : State) : Result := s.issue b u (isOp 0x33) fun _ _ => .error 9

/-- R227. HALT: HALTED, with PC at the next instruction. -/
def execHalt (b : Fin 24) (u : Upset) (s : State) : Result :=
  s.issue b u (isOp 0x34) fun _ t => .ok (t.modBob b fun x => { x with st := .halted, haltReq := none })

/-- R226. FENCE: every earlier store is complete, since each completes as it issues (log entry 32). -/
def execFence (b : Fin 24) (u : Upset) (s : State) : Result := s.issue b u (isOp 0x2D) fun _ t => .ok t

/-- R231. SIGNAL: a doorbell to bobbin ra[4:0] with data rb[31:0], and pd tells whether it was posted. -/
def execSignal (b : Fin 24) (u : Upset) (s : State) : Result :=
  s.issue b u (isOp 0x35) fun i t =>
    let n := t.g b i.ra % 32
    if h : n < 24 then
      let k : Fin 24 := ⟨n, h⟩
      let x := t.bob k
      if x.st = .halted ∨ x.st = .exception ∨ 32 ≤ x.occupied then .ok (t.setP b i.rd false)
      else
        let e : EvEntry := ⟨t.stamp .control, 0x8000 + b.val, .doorbell, 0, t.g b i.rb % 2 ^ 32, srcBobbin b.val, x.epoch, false⟩
        .ok ((t.sendEntry k e).setP b i.rd true)
    else .error 6

/-! ## Time and waits -/

/-- R230. TB.NOW: the stamp of the issue cycle. -/
def execTbNow (b : Fin 24) (u : Upset) (s : State) : Result :=
  s.issue b u (isOp 0x40) fun i t => .ok (t.setG b i.rd (t.stamp .control))

/-- R230. TB.LAST: the stamp of the entry last returned. -/
def execTbLast (b : Fin 24) (u : Upset) (s : State) : Result :=
  s.issue b u (isOp 0x41) fun i t => .ok (t.setG b i.rd (t.bob b).lastStamp)

/-- The code of an entry's kind, and its 64-bit value (R229). -/
def kindCode : EntryKind → Nat
  | .device => 1 | .decode => 2 | .doorbell => 3 | .workOrder => 4
def EvEntry.value (e : EvEntry) : Nat := e.tag * 2 ^ 48 + kindCode e.kind * 2 ^ 40 + e.result * 2 ^ 32 + e.data

/-- A match operand selects an entry (R230). -/
def selects (m : Nat) (e : EvEntry) : Bool := e.tag &&& natBits m 31 16 == natBits m 15 0 &&& natBits m 31 16

/-- The deadline that never expires. -/
def noDeadline : Nat := 2 ^ 64 - 1

/-- An entry that a wait with deadline d may return: released, matching, stamped at or before d (R30, R230). -/
def qualifies (m d : Nat) (e : EvEntry) : Bool := e.released && selects m e && (d == noDeadline || e.stamp ≤ d)

/-- An entry comes before another: by stamp, then by source number (R28). -/
def EvEntry.sooner (a b : EvEntry) : Bool := a.stamp < b.stamp || (a.stamp == b.stamp && a.src < b.src)

/-- The first of a list by `sooner`, the earlier place on a tie. -/
def firstEntry : List EvEntry → Option EvEntry
  | [] => none
  | e :: es => some (es.foldl (fun m y => if y.sooner m then y else m) e)

/-- The entry that a wait returns. -/
def Bobbin.best (x : Bobbin) (m d : Nat) : Option EvEntry := firstEntry (x.queue.filter (qualifies m d))

/-- An entry is returned: removed from the queue, its value in rd, its predicate 1. -/
def State.deliver (s : State) (b : Fin 24) (e : EvEntry) (rd p : Nat) : State :=
  let s := s.modBob b fun x => { x with queue := x.queue.erase e, lastStamp := e.stamp }
  (s.setG b rd e.value).setP b p true

/-- R230. WAIT.EV: a qualifying entry now, or WAITING with PC kept at the wait. -/
def execWaitEv (b : Fin 24) (u : Upset) (s : State) : Result :=
  s.issue b u (isOp 0x42) fun i t =>
    let d := t.g b i.ra
    let m := t.g b i.rb
    match (t.bob b).best m d with
    | some e => .ok (t.deliver b e i.rd i.fn)
    | none => .ok (t.modBob b fun x => { x with st := .waiting, wait := some (.event m d i.rd i.fn), pc := i.pc })

/-- R230. WAIT.UNTIL: at once when the time base has reached ra. -/
def execWaitUntil (b : Fin 24) (u : Upset) (s : State) : Result :=
  s.issue b u (isOp 0x43) fun i t =>
    let g := t.g b i.ra
    if g ≤ t.now then .ok t
    else .ok (t.modBob b fun x => { x with st := .waiting, wait := some (.until_ g), pc := i.pc })

/-- R230. POLL: a released match stamped at or before ra, or p = 0 and rd = 0. -/
def execPoll (b : Fin 24) (u : Upset) (s : State) : Result :=
  s.issue b u (isOp 0x44) fun i t =>
    match (t.bob b).best (t.g b i.rb) (t.g b i.ra) with
    | some e => .ok (t.deliver b e i.rd i.fn)
    | none => .ok ((t.setG b i.rd 0).setP b i.fn false)

/-- A wait ends: READY past the wait instruction. -/
def State.endWait (s : State) (b : Fin 24) : State :=
  let i := (fetchIns s (s.bob b).pc).1
  s.modBob b fun x => { x with st := .ready, wait := none, pc := i.next, nextIssue := max x.nextIssue s.now }

/-- R229, R241. The first entry on its way to bobbin b arrives: a completion of an earlier epoch is discarded and counted,
another fills its reserved place. -/
def execEventQueueEntry (bobbin : Fin 24) (s : State) : Result :=
  match (s.bob bobbin).arriving with
  | [] => .next s
  | e :: rest =>
    let s := s.modBob bobbin fun x => { x with arriving := rest }
    let own := e.kind == .device || e.kind == .decode
    if own ∧ e.epoch ≠ (s.bob bobbin).epoch then
      .next (s.bump (R.SQ_BOB_STATUS bobbin.val) F.SQ_BOB_STATUS_STALE 1)
    else
      let s := if own then s.modBob bobbin fun x => { x with outst := x.outst.erase e.tag } else s
      .next (s.modBob bobbin fun x => { x with queue := x.queue ++ [e] })

/-- The horizon of the event queues (Table 2-11). -/
def queueHorizon : Nat := 96

/-- The next entry to release: due, and first by stamp and source (R28). -/
def Bobbin.dueEntry (x : Bobbin) (now : Stamp) : Option EvEntry :=
  firstEntry (x.queue.filter fun e => !e.released && decide (e.stamp + queueHorizon ≤ now))

/-- R229. An entry is released 96 ticks after its stamp, and satisfies a wait that matches it. -/
def execEventQueueRelease (bobbin : Fin 24) (s : State) : Result :=
  match (s.bob bobbin).dueEntry s.now with
  | none => .next s
  | some e =>
    let s := s.modBob bobbin fun x => { x with queue := x.queue.map fun y => if y = e then { y with released := true } else y }
    match (s.bob bobbin).wait with
    | some (.event m d rd p) => match (s.bob bobbin).best m d with
      | some r => .next ((s.deliver bobbin r rd p).endWait bobbin)
      | none => .next s
    | _ => .next s

/-- R30. At d + 96 ticks, with nothing more to release at this tick, a wait resolves as a timeout. -/
def execWaitTimeout (bobbin : Fin 24) (s : State) : Result :=
  match (s.bob bobbin).wait with
  | some (.event _ d rd p) =>
    when (d != noDeadline && decide (d + queueHorizon ≤ s.now) && ((s.bob bobbin).dueEntry s.now).isNone) s
      (((s.setG bobbin rd 0).setP bobbin p false).endWait bobbin)
  | _ => .next s

/-- R230. The time base reaches a WAIT.UNTIL's target. -/
def execWaitUntilReached (bobbin : Fin 24) (s : State) : Result :=
  match (s.bob bobbin).wait with
  | some (.until_ g) => when (decide (g ≤ s.now)) s (s.endWait bobbin)
  | _ => .next s

/-! ## Bobbins -/

/-- Who a register access comes from, as event arguments name it (Table 10-29). -/
def requester : Accessor → Nat
  | .host _ => 0xFF
  | .window b => b.val

/-- The bobbin that a privileged instruction names, or the exception (R232, R243). -/
def State.privileged (s : State) (b : Fin 24) (i : Ins) (f : Fin 24 → Effect) : Effect :=
  if !s.capBit b capPRIV then .error 2
  else
    let n := s.g b i.ra % 32
    if h : n < 24 then f ⟨n, h⟩ else .error 6

/-- R241. START by a register write at SQ_BOB_ENTRY, or by BOB.START at rb[15:0]. -/
def execBobStart (via : Via (Accessor × Fin 24)) (s : State) : Result :=
  match via with
  | .reg (acc, k) => .next (s.tryStart k (s.entryOf k) (requester acc)).2
  | .obkin b u => s.issue b u (isOp 0xF0) fun i t => t.privileged b i fun k =>
      let (done, t) := t.tryStart k (t.g b i.rb % 65536) b.val
      .ok (t.setP b i.rd done)

/-- R240. A halt request by a register write or by BOB.HALT; a bobbin that names itself halts as by HALT. -/
def execBobHalt (via : Via (Accessor × Fin 24)) (s : State) : Result :=
  match via with
  | .reg (acc, k) => .next (s.requestHalt k (.request (requester acc)))
  | .obkin b u => s.issue b u (isOp 0xF1) fun i t => t.privileged b i fun k =>
      if k = b then .ok (t.modBob b fun x => { x with st := .halted, haltReq := none })
      else .ok (t.requestHalt k (.request b.val))

/-- R241. RESUME: the bobbin continues at its PC with all state kept. -/
def execBobResume (acc : Accessor) (bobbin : Fin 24) (s : State) : Result :=
  if s.mcActive then .next (s.logSeq 0x6005 bobbin.val (requester acc) 1)
  else
    let x := s.bob bobbin
    when ((x.st == .halted || x.st == .exception) && s.mayRun bobbin) s
      (s.modBob bobbin fun x => { x with st := .ready, nextIssue := max x.nextIssue s.now })

/-- R240. The bobbin reaches its safe point with a halt request. -/
def execBobbinHalted (bobbin : Fin 24) (s : State) : Result :=
  match (s.bob bobbin).haltReq with
  | some by' => .next (s.haltNow bobbin by')
  | none => .next s

/-- SQ_BOB_STATUS as it reads now (Table 10-21). -/
def State.bobStatus (s : State) (b : Fin 24) : Nat :=
  let x := s.bob b
  let st := match x.st, x.stall with
    | .stalled, some (.busy t) => if t ≤ s.now then 1 else 2
    | st, _ => bobStateCode st
  s.fld (R.SQ_BOB_STATUS b.val) F.SQ_BOB_STATUS_STALE * 2 ^ 24 + min 63 x.outst.length * 2 ^ 14 +
    min 63 x.queue.length * 2 ^ 8 + st

/-- R243. BOB.STAT: the target's status with its PC in [63:48]. -/
def execBobStat (b : Fin 24) (u : Upset) (s : State) : Result :=
  s.issue b u (isOp 0xF2) fun i t => t.privileged b i fun k =>
    .ok (t.setG b i.rd (t.bobStatus k + (t.bob k).pc * 2 ^ 48))

/-- R233. CAP.WR, or a write of SQ_BOB_CAP. -/
def execCapWr (via : Via (Accessor × Fin 24 × Word)) (s : State) : Result :=
  match via with
  | .reg (acc, k, w) => .next (s.capWrite k w.toNat (requester acc)).2
  | .obkin b u => s.issue b u (isOp 0xF3) fun i t => t.privileged b i fun k =>
      let (done, t) := t.capWrite k (t.g b i.rb % 2 ^ 32) b.val
      .ok (t.setP b i.rd done)

end Sys2Proof.Machine
end

