-- ==== Sys2Proof/Machine/RegView.lean ====
section
/-!
DEFINITION. Machine/RegView.lean: read-only registers that show what the state holds elsewhere: each has one home, and
its register is computed when it is read.
-/

namespace Sys2Proof.Machine

/-- The bits of a list of flags, bit 0 first. -/
def flagBits (l : List Bool) : Nat := l.foldr (fun b n => bitOf b + 2 * n) 0

/-- DC_STATUS (Table 6-17). -/
def State.dcStatus (s : State) : Nat :=
  let d := s.decode
  let work := d.reframeQ.length + d.twillEncQ.length + d.twillDecQ.length + d.spQ.length
  let busy := (d.engines.toList.filter fun e => e.core.isSome).length
  bitOf s.outRingFull * 2 ^ 31 + min 64 work * 2 ^ 22 + min 64 d.twillQ.length * 2 ^ 15 + busy * 2 ^ 9 +
    min 256 d.deepQ.length

/-- LP_SLOT_STATUS (Table 8-28). -/
def State.lpStatus (s : State) (k : Fin 96) : Nat :=
  let x := s.slot k
  min 255 x.resid * 2 ^ 24 + bitOf (s.linkHolds k || x.memHold) * 2 ^ 7 + bitOf x.override * 2 ^ 6 +
    bitOf x.held * 2 ^ 5 + bitOf (!x.coefPend.isEmpty) * 2 ^ 4 + x.minWin % 4 * 2 ^ 2 + slotStCode x.st

/-- The codes of lane states (Table 4-13). -/
def laneStateCode : LaneState → Nat
  | .off => 0 | .training => 1 | .active => 2 | .failed => 3

/-- TL_STATUS (Table 4-13). -/
def State.tlStatus (s : State) (n : Fin 16) : Nat :=
  let w := s.reg (R.TL_STATUS n.val)
  let l := (s.head n).link
  let lanes := l.lanes.toList.foldr (fun x a => laneStateCode x.st + 4 * a) 0
  (setField (setField (setField w F.TL_STATUS_LEN (bitOf (s.hdLen n))) F.TL_STATUS_LANE_ST lanes)
    F.TL_STATUS_LINK_STATE (linkCode l.state)).toNat

/-- HD_CH_STATUS (Table 5-16). -/
def State.chStatus (s : State) (n : Fin 16) : Nat :=
  let h := s.head n
  let drop := flagBits (h.beams.toList.map fun b => b.dropout.isSome || b.guard.any fun g => s.now < g)
  s.fld (R.HD_CH_STATUS n.val) F.HD_CH_STATUS_PRES_DLY * 2 ^ 22 + min 4 h.replayQ.length * 2 ^ 19 +
    flagBits (h.lanes.toList.map (·.isSome)) * 2 ^ 17 + bitOf h.flag.isSome * 2 ^ 16 + drop

/-- HD_INGEST (Table 5-21). -/
def State.ingestStatus (s : State) (n : Fin 16) : Nat :=
  (setField (s.reg (R.HD_INGEST n.val)) F.HD_INGEST_OCC (min 511 (ceilDiv (ingestBytes s n.val) 1024))).toNat

/-- SQ_RUNNING and SQ_EXC (Tables 10-17 and 10-18). -/
def State.sqRunning (s : State) : Nat :=
  flagBits (s.seq.bobbins.toList.map fun x => x.st == .ready || x.st == .stalled || x.st == .waiting)
def State.sqExc (s : State) : Nat := flagBits (s.seq.bobbins.toList.map fun x => x.st == .exception)

end Sys2Proof.Machine
end

