-- ==== Sys2Proof/Machine/MotionIns.lean ====
section
/-!
DEFINITION. Machine/MotionIns.lean: the commands of the sleds and the spindle, each a register write or an Obkin
instruction (Tables 9-1, 9-9 and 10-10), and the SL., SP. instructions that read or re-reference.
-/

namespace Sys2Proof.Machine

/-! ## Sled commands -/

/-- A sled command by its code (Table 9-9): 7 is STOP. -/
def State.sledCode (s : State) (n : Fin 16) (c : Nat) : State :=
  match c with
  | 1 => s.sledCommand n .idle none
  | 2 => s.sledCommand n .hold none
  | 3 => s.sledCommand n .move none
  | 4 => s.sledCommand n .follow none
  | 5 => s.sledCommand n .home none
  | 6 => s.sledCommand n .softstop none
  | 7 => s.sledStop n none
  | _ => s

/-- A write of SL_CTRL.CMD, or SL.CMD with the code in FN[2:0]: a MOVE writes its target first, and FN[3] asks for a
completion, whose waiter stands before the command acts (Table 10-10). -/
def State.sledIns (s : State) (codes : List Nat) (via : Via (Fin 16)) : Result :=
  match via with
  | .reg n => .next (s.sledCode n (codes.headD 0))
  | .obkin b u => s.issue b u (fun i => isOp 0x60 i && codes.contains (i.fn % 8)) fun i t =>
      t.headChecks b famSL (t.g b i.ra) fun n =>
        let c := i.fn % 8
        let p := toSigned (t.g b i.rb) 32
        let act (t : State) : State := (if c = 3 then t.writeTarget n p else t).sledCode n c
        if i.fn < 8 then .ok (act t)
        else t.async b i true fun w t => act (t.modSled n fun x => { x with waiters := x.waiters ++ [w] })

/-- R197. IDLE; an SL.CMD with command 0 stands here and gives no command. -/
def execSledIdle (via : Via (Fin 16)) (s : State) : Result := s.sledIns [1, 0] via

/-- R197. HOLD. -/
def execSledHold (via : Via (Fin 16)) (s : State) : Result := s.sledIns [2] via

/-- R195. MOVE. -/
def execSledMove (via : Via (Fin 16)) (s : State) : Result := s.sledIns [3] via

/-- R196. FOLLOW. -/
def execSledFollow (via : Via (Fin 16)) (s : State) : Result := s.sledIns [4] via

/-- R205. HOME. -/
def execSledHome (via : Via (Fin 16)) (s : State) : Result := s.sledIns [5] via

/-- R195. SOFTSTOP. -/
def execSledSoftstop (via : Via (Fin 16)) (s : State) : Result := s.sledIns [6] via

/-- R197. STOP. -/
def execSledStop (via : Via (Fin 16)) (s : State) : Result := s.sledIns [7] via

/-- R234. SL.POS. -/
def execSlPos (b : Fin 24) (u : Upset) (s : State) : Result :=
  s.issue b u (isOp 0x61) fun i t => t.headChecks b famSL (t.g b i.ra) fun n =>
    let x := t.sled n
    let r := R.SL_STATUS n.val
    .ok (t.setG b i.rd (arg (x.pNow t.now) + sledStCode x.st * 2 ^ 32 +
      t.fld r F.SL_STATUS_UNCERTAIN * 2 ^ 35 + t.fld r F.SL_STATUS_FAULT * 2 ^ 36))

/-- R207. SL.REREF: ρ in rb[31:0], λ_L in rb[63:32], the stamp in rd. -/
def execSlReref (b : Fin 24) (u : Upset) (s : State) : Result :=
  s.issue b u (isOp 0x62) fun i t => t.headChecks b famSL (t.g b i.ra) fun n =>
    let v := t.g b i.rb
    .ok (t.reref n (v % 2 ^ 32) (toSigned (v / 2 ^ 32) 32) (t.g b i.rd))

/-! ## Spindle commands -/

/-- SP.CMD with FN in a range. -/
def State.spIns (s : State) (b : Fin 24) (u : Upset) (sel : Nat → Bool) (f : Ins → State → State) : Result :=
  s.issue b u (fun i => isOp 0x64 i && sel i.fn) fun i t => t.famChecks b famSP (if 2 < i.fn then .error 6 else .ok (f i t))

/-- A START waits while the comparator trim runs, until the trim ends (R329). -/
def State.askSpinStart (s : State) (fltLow : Bool) : State :=
  if s.flag R.CAL_STATUS F.CAL_STATUS_TRIM_BUSY then s.modSpin fun x => { x with restart := true }
  else s.spinStart fltLow

/-- R212. START; `fltLow` is the level of SP_FLT_N. An SP.CMD with FN above 2 stands here and is out of range. -/
def execSpindleStart (via : Via Unit) (fltLow : Bool) (s : State) : Result :=
  match via with
  | .reg _ => .next (s.askSpinStart fltLow)
  | .obkin b u => s.spIns b u (fun fn => fn = 0 ∨ 2 < fn) fun _ t => t.askSpinStart fltLow

/-- R216. STOP. -/
def execSpindleStop (via : Via Unit) (s : State) : Result :=
  match via with
  | .reg _ => .next s.spinStop
  | .obkin b u => s.spIns b u (· == 1) fun _ t => t.spinStop

/-- R220. DEMAND, in rev/s. -/
def execSpindleDemandSet (via : Via (Fin 128)) (s : State) : Result :=
  match via with
  | .reg d => .next (s.setDemand d.val)
  | .obkin b u => s.spIns b u (· == 2) fun i t => t.setDemand (t.g b i.ra % 128)

/-- R234. SP.STAT. -/
def execSpStat (b : Fin 24) (u : Upset) (s : State) : Result :=
  s.issue b u (isOp 0x65) fun i t => t.famChecks b famSP <| .ok (t.setG b i.rd
    (t.fld R.SP_SPEED F.SP_SPEED_MEAS + spinStCode t.motion.spin.st * 2 ^ 32 +
      t.fld R.SP_STATUS F.SP_STATUS_FAULT * 2 ^ 36 + t.fld R.SP_GOV F.SP_GOV_TARGET * 2 ^ 40 +
      t.fld R.SP_GOV F.SP_GOV_CEIL * 2 ^ 47))

/-! ## Other status instructions -/

/-- R234. LP.STAT. -/
def execLpStat (b : Fin 24) (u : Upset) (s : State) : Result :=
  s.issue b u (isOp 0x6A) fun i t => t.slotChecks b (t.g b i.ra) fun k => .ok (t.setG b i.rd (t.lpStatus k))

/-- R234. DC.STAT. -/
def execDcStat (b : Fin 24) (u : Upset) (s : State) : Result :=
  s.issue b u (isOp 0x6D) fun i t => t.famChecks b famDC <| .ok (t.setG b i.rd t.dcStatus)

/-- Orders that the work queue holds or that are on their way to it. -/
def State.workQueued (s : State) : Nat :=
  let d := s.decode
  d.reframeQ.length + d.twillEncQ.length + d.twillDecQ.length + d.spQ.length + d.workXing.length

/-- R131. DC.SUBMIT: the order is read at issue; a full work queue stalls it before it takes a tag. -/
def execDcSubmit (b : Fin 24) (u : Upset) (s : State) : Result :=
  s.issue b u (isOp 0x6C) fun i t => t.famChecks b famDC <|
    if i.fn = 0 ∨ 5 < i.fn then .error 6
    else do
      let bytes ← t.sharedAt (t.g b i.ra) 136
      t.async b i (t.workQueued < 64) fun w t =>
        { t with decode := { t.decode with workXing := t.decode.workXing ++ [⟨i.fn, w, bytes, 0⟩] } }

/-- R234. EV.LOG: a program's event with the issue stamp and the bobbin as source. -/
def execEvLog (b : Fin 24) (u : Upset) (s : State) : Result :=
  s.issue b u (isOp 0x78) fun i t => t.famChecks b famEV <|
    let code := t.g b i.ra % 65536
    if code < 0x6800 ∨ 0x6FFF < code then .error 6
    else
      let x := t.g b i.rb
      let y := t.g b i.rd
      .ok (t.log (srcBobbin b.val) .control code x (x / 2 ^ 32) y (y / 2 ^ 32))

end Sys2Proof.Machine
end

