-- ==== Sys2Proof/Machine/ObkinMem.lean ====
section
/-!
DEFINITION. Machine/ObkinMem.lean: loads and stores of the scratches and program memory, and the atomic of shared scratch
(R225, R226, Table 10-4). Words, which also reach the register window, are with the register accesses.
-/

namespace Sys2Proof.Machine

/-- The address of a load or a store. -/
def memAddrOf (s : State) (b : Fin 24) (i : Ins) : Nat := ofSigned (s.g b i.ra + immS i) 64

/-- The cycles by which a load's result is later than the bobbin's next issue, in ticks (Table 10-2). -/
def loadStall : Space → Nat
  | .shared _ => 12 | .prog _ => 8 | _ => 0

/-- A load's result in rd, and the bobbin STALLED until it is there. -/
def State.loaded (s : State) (b : Fin 24) (p : Space) (rd v : Nat) : State :=
  let s := s.setG b rd v
  if loadStall p = 0 then s
  else s.modBob b fun x => { x with st := .stalled, stall := some (.busy (s.now + loadStall p)) }

/-- What a load of n bytes makes of them. -/
def loadValue (n : Nat) (signed : Bool) (bytes : List Nat) : Nat :=
  if signed then ofSigned (toSigned (bytesNat bytes) (8 * n)) 64 else bytesNat bytes

/-- A load from a place that is no register. -/
def State.loadAt (s : State) (b : Fin 24) (u : Upset) (i : Ins) (n : Nat) (signed : Bool) (p : Space) : Effect :=
  if u = .data then .error 7 else .ok (s.loaded b p i.rd (loadValue n signed (s.spaceRead b p n)))

/-- A load of n bytes, other than a word. -/
def State.loadIns (s : State) (b : Fin 24) (u : Upset) (op n : Nat) (signed : Bool) : Result :=
  s.issue b u (isOp op) fun i t => do
    let p ← spaceOf (memAddrOf t b i) n false
    t.loadAt b u i n signed p

/-- A store of n bytes, other than a word. -/
def State.storeIns (s : State) (b : Fin 24) (u : Upset) (op n : Nat) : Result :=
  s.issue b u (isOp op) fun i t => do
    let p ← spaceOf (memAddrOf t b i) n true
    .ok (t.spaceWrite b p (natBytes n (t.g b i.rd)))

/-- R225. LDB, LDH, LDD and the sign-extended LDBS, LDHS. -/
def execLdb (b : Fin 24) (u : Upset) (s : State) : Result := s.loadIns b u 0x20 1 false
def execLdh (b : Fin 24) (u : Upset) (s : State) : Result := s.loadIns b u 0x21 2 false
def execLdd (b : Fin 24) (u : Upset) (s : State) : Result := s.loadIns b u 0x23 8 false
def execLdbs (b : Fin 24) (u : Upset) (s : State) : Result := s.loadIns b u 0x24 1 true
def execLdhs (b : Fin 24) (u : Upset) (s : State) : Result := s.loadIns b u 0x25 2 true

/-- R225. STB, STH, STD. -/
def execStb (b : Fin 24) (u : Upset) (s : State) : Result := s.storeIns b u 0x28 1
def execSth (b : Fin 24) (u : Upset) (s : State) : Result := s.storeIns b u 0x29 2
def execStd (b : Fin 24) (u : Upset) (s : State) : Result := s.storeIns b u 0x2B 8

/-- What an AMO stores: swap, add, and, or, and compare-and-swap against rd. -/
def amoValue (fn old rb rd : Nat) : Nat :=
  match fn with
  | 0 => rb
  | 1 => (old + rb) % 2 ^ 64
  | 2 => old &&& rb
  | 3 => old ||| rb
  | _ => if old = rd then rb else old

/-- R226. AMO on an aligned 64-bit value of shared scratch. -/
def execAmo (b : Fin 24) (u : Upset) (s : State) : Result :=
  s.issue b u (isOp 0x2C) fun i t => do
    match ← spaceOf (t.g b i.ra) 8 true with
    | .shared o =>
      if u = .data then .error 7
      else
        let old := bytesNat (t.spaceRead b (.shared o) 8)
        let new := amoValue i.fn old (t.g b i.rb) (t.g b i.rd)
        .ok ((t.spaceWrite b (.shared o) (natBytes 8 new)).loaded b (.shared o) i.rd old)
    | _ => .error 5

end Sys2Proof.Machine
end

