-- ==== Sys2Proof/Machine/Power.lean ====
section
/-!
DEFINITION. Machine/Power.lean: power domains and supply groups (R345 to R347), heads leaving and returning to service (R352,
R353), and the attention registers of the event log (R356).
-/

namespace Sys2Proof.Machine

/-! ## Supply groups and domains -/

/-- The supply groups of Table 17-1's chapter beside AON: 0 CORE, 1 MEM, 2 SER. -/
def groupList : List Nat := [0, 1, 2]

/-- Domain d needs group g: every switched domain CORE, PD17 also MEM, PD0 to PD15 and PD18 also SER. -/
def domainNeeds (d g : Nat) : Bool :=
  if g = 0 then true else if g = 1 then d == 17 else decide (d < 16) || d == 18

/-- A group's power-good level, as SYS_SUPPLY shows it. -/
def State.groupGood (s : State) (g : Nat) : Bool := testBitN (s.fld R.SYS_SUPPLY F.SYS_SUPPLY_PWRGD) (g + 1)

/-- Every group that a domain needs is good. -/
def State.supplied (s : State) (d : Nat) : Bool := groupList.all fun g => !domainNeeds d g || s.groupGood g

/-- A domain needs a group that a power-up waited for in vain, or that has been lost. -/
def State.starved (s : State) (d : Nat) : Bool := s.boot.deadGroups.any (domainNeeds d)

/-- A domain, and its phase set. -/
def State.domain (s : State) (d : Fin 19) : Domain := s.domains[d]
def State.setPhase (s : State) (d : Fin 19) (p : DomainPhase) : State :=
  { s with domains := s.domains.set d { s.domains[d] with phase := p } }

/-- A bit of SYS_DOMAIN_FAIL.FAIL set. -/
def State.markFailed (s : State) (d : Nat) : State :=
  s.setFld R.SYS_DOMAIN_FAIL F.SYS_DOMAIN_FAIL_FAIL (setBitN (s.fld R.SYS_DOMAIN_FAIL F.SYS_DOMAIN_FAIL_FAIL) d)

/-- SYS_DOMAIN.ON of a domain. -/
def State.setOn (s : State) (d : Nat) (on : Bool) : State :=
  let w := s.fld R.SYS_DOMAIN F.SYS_DOMAIN_ON
  s.setFld R.SYS_DOMAIN F.SYS_DOMAIN_ON (if on then setBitN w d else clearBitN w d)

/-- A power-up has failed (R346): a head stays out of service with event 0x1002; PD16 to PD18 are tried once more, and then
stay off with event 0x9015. -/
def State.failDomain (s : State) (d : Fin 19) : State :=
  if d.val < 16 then ((s.setPhase d .failed).markFailed d.val).logAt srcCal s.cellStamp 0x1002 d.val 0
  else if (s.domain d).attempts = 0 then
    { s with domains := s.domains.set d ⟨.retryAt s.now, 1⟩ }
  else ((s.setPhase d .failed).markFailed d.val).logAt srcCal s.cellStamp 0x9015 d.val

/-- A domain whose power-up is due: failed at once where a group it needs is known dead, and switched on where every group
is good. -/
def State.tryClose (s : State) (d : Fin 19) : State :=
  if s.starved d.val then s.failDomain d
  else if s.supplied d.val then s.setPhase d (.settling s.now)
  else s

/-- R346. `levels` are the power-good inputs (AON, CORE, MEM, SER from bit 0): a domain that is due has its switch closed
once every group it needs is good. -/
def execDomainPowerUp (dom : Fin 19) (levels : Fin 16) (s : State) : Result :=
  match (s.domain dom).phase with
  | .waiting due => when (decide (due ≤ s.now)) s ((s.setFld R.SYS_SUPPLY F.SYS_SUPPLY_PWRGD levels.val).tryClose dom)
  | _ => .next s

/-! ## A head island's own state -/

/-- A key of head n's register blocks. -/
def headBlock (n key : Nat) : Bool := decide (0x400000 + n * 0x20000 ≤ key) && decide (key < 0x420000 + n * 0x20000)

/-- Registers kept while a head island takes its reset state: the ceilings with LOCK (R157), and INH_LATCH, which no loss of
the island's power clears. -/
def State.resetHeadRegs (s : State) (n : Nat) : State :=
  let latch := s.fld (R.HD_LASER_STATUS n) F.HD_LASER_STATUS_INH_LATCH
  let kept (key : Nat) : Bool := key == R.HD_CEIL_WR n || key == R.HD_CEIL_RD n
  let s := { s with regs := s.regs.filter fun (r : Nat × Word) => !headBlock n r.1 || kept r.1 }
  s.setFld (R.HD_LASER_STATUS n) F.HD_LASER_STATUS_INH_LATCH latch

/-- A domain is up (R346): a head enters service with its island as reset leaves it (R32, R353), and the memory island of a
boot begins its sweep (R348). -/
def State.domainUp (s : State) (d : Fin 19) : State :=
  let s := (s.setPhase d .up).setOn d.val true
  if h : d.val < 16 then
    let s := { s with heads := s.heads.set d.val Head.reset h }
    let s := s.resetHeadRegs d.val
    if s.headPopulated d.val then
      s.setFld R.SYS_HEAD_STATUS F.SYS_HEAD_STATUS_IN_SERVICE (setBitN (s.fld R.SYS_HEAD_STATUS F.SYS_HEAD_STATUS_IN_SERVICE) d.val)
    else s
  else if d.val = 17 then s.startSweep
  else s

/-- R346. The domain's own power-good is checked: from 30,000 ticks after the switch closed it may be good, and at 300,000
without it the domain has failed. -/
def execDomainPowerCheck (dom : Fin 19) (good : Bool) (s : State) : Result :=
  match (s.domain dom).phase with
  | .settling closed =>
    if good then when (decide (closed + 30000 ≤ s.now)) s (s.domainUp dom)
    else when (decide (closed + 300000 ≤ s.now)) s (s.failDomain dom)
  | _ => .next s

/-- Domains that a power-up keeps waiting since a tick or before, and that need group g. -/
def State.waitingFor (s : State) (g : Nat) (limit : Nat) : List (Fin 19) :=
  (List.finRange 19).filter fun d => domainNeeds d.val g && (match (s.domain d).phase with
    | .waiting due => decide (due + limit ≤ s.now)
    | _ => false)

/-- R346. A group is not good 100 ms after a power-up that needs it fell due: every domain that needs it and is due has
failed, and no later one waits for it. -/
def execSupplyGroupWaitTimeout (group : Fin 3) (s : State) : Result :=
  when (!(s.waitingFor group.val (100 * ticksMs)).isEmpty && !s.groupGood group.val) s <|
    let s := { s with boot := { s.boot with deadGroups := group.val :: s.boot.deadGroups } }
    (s.waitingFor group.val 0).foldl (fun (t : State) d => t.failDomain d) s

/-- R346. 1 ms after its first failure PD16, PD17 or PD18 is tried once more. -/
def execDomainPowerRetry (dom : Fin 19) (s : State) : Result :=
  match (s.domain dom).phase with
  | .retryAt opened => when (decide (opened + ticksMs ≤ s.now)) s ((s.setPhase dom (.waiting s.now)).tryClose dom)
  | _ => .next s

/-! ## A supply group lost (R347) -/

/-- A head island is gone with its power: its pass ends without a hem, its instructions complete, and its sectors that no
engine holds are dropped. -/
def State.headGone (s : State) (n : Fin 16) : State :=
  let s := match (s.head n).pass with
    | some p =>
      let s := s.modHead n fun h => { h with pass := none }
      let s := (match p.hem with
        | some m => m.waiters
        | none => []).foldl (fun (t : State) w => t.completeHead n w 1 p.no) s
      let inIsland (x : Sector) : Bool := x.head == n.val && !x.isReframe && (match x.stage with
        | .inFlight | .waiting => true
        | .bound _ _ => !x.complete
        | _ => false)
      let s := s.dropFromQueues ((s.decode.sectors.filter inIsland).map fun (x : Sector) => x.id)
      let s := s.modDec fun d => { d with sectors := d.sectors.filter fun (x : Sector) => !inIsland x }
      s.endClaim n
    | none => s
  let s := (s.linkDown n).endHeadWork n
  let s := s.disableHeadSlots n
  let s := s.requestHalt ⟨n.val, by omega⟩ .hardware
  let m := s.fld R.SYS_HEAD_STATUS F.SYS_HEAD_STATUS_IN_SERVICE
  let s := s.setFld R.SYS_HEAD_STATUS F.SYS_HEAD_STATUS_IN_SERVICE (clearBitN m n.val)
  { s with heads := s.heads.set n { Head.reset with passNo := (s.head n).passNo } }

/-- An island other than a head's is gone with its power. -/
def State.islandGone (s : State) (d : Nat) : State :=
  let drop (lo hi : Nat) (t : State) : State :=
    { t with regs := t.regs.filter fun (r : Nat × Word) => decide (r.1 % 0x1000000 < lo) || decide (hi ≤ r.1 % 0x1000000) }
  if d = 16 then drop 0x180000 0x1C0000 { s with decode := DecodeState.reset }
  else if d = 17 then drop 0x1C0000 0x200000 { s with mem := MemState.reset }
  else drop 0x40000 0x80000 (drop 0 0x4000 { s with host := HostState.reset, msix := Vector.replicate 2 ⟨[], []⟩ })

/-- A domain is powered: its switch is closed. -/
def Domain.powered (d : Domain) : Bool :=
  match d.phase with
  | .settling _ | .up => true
  | _ => false

/-- One domain isolated and switched off by the loss of its group. -/
def State.loseDomain (s : State) (d : Fin 19) : State :=
  let s := if h : d.val < 16 then s.headGone ⟨d.val, h⟩ else s.islandGone d.val
  (s.setPhase d .failed |>.setOn d.val false).markFailed d.val

/-- R347. The power-good of a group has been low for 1 µs while domains that need it are powered: every HD_LEN falls, those
domains are isolated and switched off, and event 0x9014 is logged. -/
def execSupplyGroupLost (group : Fin 3) (s : State) : Result :=
  let g := group.val
  let hit := (List.finRange 19).filter fun d => domainNeeds d.val g && (s.domain d).powered
  when (!hit.isEmpty) s <|
    let s := s.setFld R.SYS_SUPPLY F.SYS_SUPPLY_PWRGD (clearBitN (s.fld R.SYS_SUPPLY F.SYS_SUPPLY_PWRGD) (g + 1))
    let s := s.setFld R.SYS_DOMAIN_FAIL F.SYS_DOMAIN_FAIL_SUPPLY (setBitN (s.fld R.SYS_DOMAIN_FAIL F.SYS_DOMAIN_FAIL_SUPPLY) g)
    let s := s.setFld R.SYS_RST_CAUSE F.SYS_RST_CAUSE_SUPPLY 1
    let s := { s with boot := { s.boot with deadGroups := g :: s.boot.deadGroups } }
    let s := (List.finRange 16).foldl (fun (t : State) n => t.updateLen n t.cellStamp) s
    let s := hit.foldl (fun (t : State) d => t.loseDomain d) s
    s.logAt srcCal s.cellStamp 0x9014 g

/-! ## Heads leaving and returning (R352, R353) -/

/-- R352. A write of 1 to SYS_HEAD_CTRL.ISOLATE[n]. -/
def execHeadIsolate (n : Fin 16) (s : State) : Result :=
  .next ((s.leaveService n .request (s.stamp .control) true).finishResets)

/-- R352. The domain of a head in service loses its power-good: what the decode island still owes the pass is completed on
the head's behalf. -/
def execHeadDomainPowerLost (n : Fin 16) (s : State) : Result :=
  when (s.headInService n.val) s <|
    let s := (s.markFailed n.val).logAt srcCal s.cellStamp 0x1002 n.val 1
    let i := s.stamp .control
    let s := s.leaveService n .powerLost i false
    let s := match (s.head n).pass with
      | some p => s.withdrawPass n p i false
      | none => s
    s.finishResets

/-- R352. At i + 600,000 ticks a hem that has not completed is ended on the head's behalf; where the domain is dead, as soon
as the ring holds every record of the pass. -/
def execHeadIsolationDeadline (n : Fin 16) (s : State) : Result :=
  match (s.head n).leaving, (s.head n).pass with
  | some l, some p =>
    let held := s.decode.waiting.any fun r => r.head == n.val && r.pass == p.no
    when (decide (l.since + 600000 ≤ s.now) || (!l.alive && !held)) s <|
      match p.hem with
      | some m =>
        let s := if m.withdrawn then s else s.withdrawPass n p m.cut false
        let s := s.modDec fun d => { d with waiting := d.waiting.filter fun (r : OutRecord) => !(r.head == n.val && r.pass == p.no) }
        let m : Hem := match (s.head n).pass.bind (·.hem) with
          | some m => m
          | none => m
        (s.closePass n p m).finishResets
      | none => s
  | some _, none => .next (s.finishLeaving n)
  | none, _ => .next s

/-- Every condition of R353 holds, and no group that the head needs has been lost (R347). -/
def State.mayPowerHead (s : State) (n : Fin 16) : Bool :=
  let d : Fin 19 := ⟨n.val, by omega⟩
  let off := match (s.domain d).phase with
    | .off | .failed => true
    | _ => false
  s.headPopulated n.val && !testBitN (s.reg R.TB_STAMP_FAULT).toNat n.val && s.groupGood 0 && s.groupGood 2 &&
    !s.headInService n.val && (s.head n).leaving.isNone && off && !s.starved n.val

/-- R353. A write of 1 to SYS_HEAD_CTRL.POWER[n]: the domain's power-up falls due, or the write is refused. -/
def execHeadPower (n : Fin 16) (s : State) : Result :=
  .next <|
    if s.mayPowerHead n then
      (s.setPhase ⟨n.val, by omega⟩ (.waiting s.now)).logAt srcCal s.cellStamp 0x1003 n.val 0
    else s.logAt srcCal s.cellStamp 0x1003 n.val 1

/-! ## The attention registers (R356) -/

/-- A write of EV_RPTR. -/
def execEvRptrWrite (val : Word) (s : State) : Result := .next ((s.setReg R.EV_RPTR val).attention none)

/-- A write of EV_ATTN. -/
def execEvAttnWrite (val : Word) (s : State) : Result := .next ((s.setReg R.EV_ATTN val).attention none)

/-- A write of 1 to EV_STATUS.ATTN clears it; while the backlog still holds it sets again, and vector 258 goes again. -/
def execAttnClear (s : State) : Result := .next ((s.setFld R.EV_STATUS F.EV_STATUS_ATTN 0).attention none)

end Sys2Proof.Machine
end

