-- ==== Sys2Proof/Machine/TimeBase.lean ====
section
/-!
DEFINITION. Machine/TimeBase.lean: the PLL and holdover (R20, R21), the event crossings and mergers (R27 to R29)
and the unmasking of MSI-X vectors (R258).
-/

namespace Sys2Proof.Machine

/-- R20. The PLL first reports lock after power-on reset: the counter starts from 0, and the boot is measured
from here, and PD18 is due (R348). -/
def execPllLock (s : State) : Result :=
  when (!s.time.started) s <|
    let s := { s with time := { s.time with tb := 0, started := true } }
    let s := { s with boot := { s.boot with since := 0 }, domains := s.domains.set 18 ⟨.waiting 0, 0⟩ }
    (s.setFld R.TB_STATUS F.TB_STATUS_LOCKED 1).setFld R.TB_STATUS F.TB_STATUS_REF_PRESENT 1

/-- One tick of the time base, which counts modulo 2^64 once it has started (R20); a merger with nothing left to release then
publishes its completeness stamp (R29). -/
def State.tick (s : State) : State :=
  if s.time.started then ({ s with time := { s.time with tb := (s.time.tb + 1) % stampModulus } }).publishC else s

/-- R21, R357. No reference edge for 240 ticks: holdover. The count goes on. -/
def execHoldoverEntry (s : State) : Result :=
  when s.time.started s <|
    if s.flag R.TB_STATUS F.TB_STATUS_HOLDOVER then
      -- a gap in a reference that had come back
      ({ s with time := { s.time with refSince := none } }).setFld R.TB_STATUS F.TB_STATUS_REF_PRESENT 0
    else
    let s := { s with time := { s.time with holdSince := some s.now, refSince := none } }
    let s := s.setFld R.TB_STATUS F.TB_STATUS_HOLDOVER 1
    let s := s.setFld R.TB_STATUS F.TB_STATUS_REF_LOST_SEEN 1
    let s := s.setFld R.TB_STATUS F.TB_STATUS_REF_PRESENT 0
    let s := s.setFld R.TB_STATUS F.TB_STATUS_LOCKED 0
    s.logAt srcCal s.cellStamp 0x9010

/-- The reference must have been present this long, 20 µs, before the PLL relocks (R21). -/
def relockTicks : Nat := 20 * ticksUs

/-- R21, R357. The first notice of the reference in holdover says that its edges are back; once it has been present without a
gap for 20 µs the PLL relocks in frequency, without a step of the count (log 163). -/
def execPllRelock (s : State) : Result :=
  match s.time.holdSince, s.time.refSince with
  | some _, none =>
    .next (({ s with time := { s.time with refSince := some s.now } }).setFld R.TB_STATUS F.TB_STATUS_REF_PRESENT 1)
  | some h, some back =>
    when (decide (back + relockTicks ≤ s.now)) s <|
      let s := { s with time := { s.time with holdSince := none, refSince := none } }
      let s := s.setFld R.TB_STATUS F.TB_STATUS_HOLDOVER 0
      let s := s.setFld R.TB_STATUS F.TB_STATUS_REF_PRESENT 1
      let s := s.setFld R.TB_STATUS F.TB_STATUS_LOCKED 1
      s.logAt srcCal s.cellStamp 0x9011 (s.now - h)
  | none, _ => .next s

/-- The events-lost record of a source (R27): the stamp of the first record dropped, and as arguments the number
dropped and the stamp of the last. -/
def lostRecord (src : Nat) (x : EventXing) : EventRec :=
  ⟨x.firstLost, 0x0001, src, false, x.lost, x.lastLost % 2 ^ 32, x.lastLost / 2 ^ 32 % 2 ^ 32, 0⟩

/-- R27. A slot has freed in the crossing of a source that dropped records: the events-lost record goes first. -/
def execEventsLostRecord (src : Nat) (s : State) : Result :=
  let x := s.xing src
  when (x.lost != 0 && x.queue.length < eventXingDepth) s <|
    s.setXing src { EventXing.empty with queue := x.queue ++ [lostRecord src x] }

/-- R29. A record reaches the merger: a late one is written at once with the late bit, any other is held. The
completeness stamp is published once nothing of this tick is left to release. -/
def execEventMergerArrival (src : Nat) (s : State) : Result :=
  match (s.xing src).queue with
  | [] => .next s
  | r :: rest =>
    let s := s.setXing src { s.xing src with queue := rest }
    if r.stamp + mergerHorizon < s.now then
      .next (s.writeRing { r with late := true }).publishC
    else
      .next { s with events := { s.events with held := s.events.held ++ [r] } }.publishC

/-- The records that the merger releases on this tick, in order (R28). -/
def dueRecords (s : State) : List EventRec :=
  orderRecs (s.events.held.filter fun r => r.stamp + mergerHorizon ≤ s.now)

/-- R28, R29, R355, R356. Every held record whose stamp plus 384 the time base has reached is written in order;
then the completeness stamp is published. -/
def execEventMergerRelease (s : State) : Result :=
  let due := dueRecords s
  when (!due.isEmpty) s <|
    let kept := s.events.held.filter fun r => !(r.stamp + mergerHorizon ≤ s.now)
    let s := { s with events := { s.events with held := kept } }
    (due.foldl (fun t r => t.writeRing r) s).publishC

/-- A function's MSI-X table entry replaced (R19): once it is not masked, a pending vector is sent (R258). -/
def State.setVector (s : State) (fn : Fin 2) (v : Nat) (e : MsixEntry) : State :=
  let m := s.msix[fn]
  let table := storePut (fun _ => ⟨0, 0, true⟩) v e m.table
  let waiting := !e.masked && m.pending.contains v
  let m' := { m with table := table, pending := if e.masked then m.pending else m.pending.filter (· ≠ v) }
  let s := { s with msix := s.msix.set fn m' }
  if waiting then { s with out := .msix fn.val v :: s.out } else s

/-- R258, R19. The host unmasks a vector: a pending one is sent. -/
def execMsixVectorUnmask (fn : Fin 2) (vec : Fin 288) (s : State) : Result :=
  .next (s.setVector fn vec.val { s.msix[fn].entry vec.val with masked := false })

/-! ## BAR2 (R19) -/

/-- BAR2 follows BAR0 in the offsets of an access: offset o of BAR2 is bar2Base + o. A 64-bit access is two of these, the lower
first. -/
def bar2Base : Nat := 0x1000000

/-- A doubleword of BAR2: the 288 table entries of 16 bytes (address, data and the mask bit, in the order of the PCIe MSI-X
rules), the pending bits from 0x8000, and 0 elsewhere. -/
def State.bar2Read (s : State) (fn : Fin 2) (o : Nat) : Nat :=
  let m := s.msix[fn]
  let e := m.entry (o / 16)
  if o < 0x1200 then
    match o % 16 / 4 with
    | 0 => e.addr % 2 ^ 32
    | 1 => e.addr / 2 ^ 32 % 2 ^ 32
    | 2 => e.data % 2 ^ 32
    | _ => bitOf e.masked
  else if 0x8000 ≤ o ∧ o < 0x8028 then
    ((List.range 32).map fun b => if m.pending.contains ((o - 0x8000) / 4 * 32 + b) then 2 ^ b else 0).sum
  else 0

/-- A write of a doubleword of BAR2: of the table alone. An address is held as a multiple of 4 (the MSI-X rules). -/
def State.bar2Write (s : State) (fn : Fin 2) (o v : Nat) : State :=
  let e := s.msix[fn].entry (o / 16)
  if o < 0x1200 then
    s.setVector fn (o / 16) (match o % 16 / 4 with
      | 0 => { e with addr := e.addr / 2 ^ 32 * 2 ^ 32 + v % 2 ^ 32 / 4 * 4 }
      | 1 => { e with addr := e.addr % 2 ^ 32 + v % 2 ^ 32 * 2 ^ 32 }
      | 2 => { e with data := v % 2 ^ 32 }
      | _ => { e with masked := decide (v % 2 = 1) })
  else s

end Sys2Proof.Machine
end

