-- ==== Sys2Proof/Machine/RegAccess.lean ====
section
/-!
DEFINITION. Machine/RegAccess.lean: accesses to BAR0 by the host and through the sequencer's register window (R5 to R8, R15 to
R18, R285): where an offset leads, what a read answers, what a write sets off, and the word loads and stores that reach the
window (R225, R226).
-/

namespace Sys2Proof.Machine

/-! ## Where an offset leads -/

/-- Which of the three latches of R8 an accessor reads through. -/
def latchOf : Accessor → Fin 3
  | .host fn => ⟨fn.val, by omega⟩
  | .window _ => 2

/-- The function that an access is made through; the window counts as function 0 in events (DESIGN CHOICE, log entry 88). -/
def accFn : Accessor → Nat
  | .host fn => fn.val
  | .window _ => 0

/-- The accessor is the sequencer's window. -/
def isWindow : Accessor → Bool
  | .host _ => false
  | .window _ => true

/-- Offsets whose registers each function has for itself (R18, R285). -/
def perFunction (off : Nat) : Bool :=
  off < 0x4000 || (0x40000 ≤ off && off < 0x40100 && off != R.HC_DATA_BASE_LO && off != R.HC_DATA_BASE_HI)

/-- The key of the register that an offset leads to (R18, R285). -/
def State.keyOf (s : State) (acc : Accessor) (off : Nat) : Option Nat :=
  match acc with
  | .host fn => some (if perFunction off then fnKey fn.val off else off)
  | .window _ =>
    if off < 0x10000 then none
    else if 0x60000 ≤ off ∧ off < 0x60100 then
      if s.boot.bifurcated && perFunction (off - 0x20000) then some (fnKey 1 (off - 0x20000)) else none
    else some off

/-- Offsets of the controller registers that have a value or take one (log entry 34). -/
def nvmeRegister (off : Nat) : Bool :=
  off % 4 == 0 && (off ≤ 0x14 || off == nvmeCSTS || off == 0x20 || (nvmeAQA ≤ off && off < nvmeACQ + 8))

/-- A doorbell of one of the 257 queue pairs (R15). -/
def isDoorbell (off : Nat) : Bool := 0x1000 ≤ off && off < 0x1808 && off % 4 == 0

/-- The event ring (R355) and the trace ring (R190). -/
def inEventRing (off : Nat) : Bool := 0x30000 ≤ off && off < 0x40000
def inTraceRing (off : Nat) : Bool := 0x120000 ≤ off && off < 0x140000

/-- Something stands at the register's key. -/
def assignedKey (key : Nat) : Bool :=
  let off := key % 0x1000000
  nvmeRegister off || isDoorbell off || inEventRing off || inTraceRing off || isSlTab off || (findReg off).isSome

/-- The block that an offset lies in, by its start, for blocks whose island can be out of service (Table 1-10). -/
def blockStart (off : Nat) : Nat :=
  if off < 0x1000 then 0
  else if off < 0x3000 then 0x1000
  else if off < 0x4000 then 0x3000
  else if off < 0x80000 then 0x40000
  else if off < 0x1C0000 then 0x180000
  else if off < 0x400000 then 0x1C0000
  else off / 0x10000 * 0x10000

/-- The island that owns the offset's block is in service (R17). -/
def State.ownerUp (s : State) (off : Nat) : Bool :=
  if off < 0x4000 ∨ (0x40000 ≤ off ∧ off < 0x80000) then s.domainOn 18
  else if 0x180000 ≤ off ∧ off < 0x1C0000 then s.domainOn 16
  else if 0x1C0000 ≤ off ∧ off < 0x200000 then s.domainOn 17
  else if 0x400000 ≤ off ∧ off < 0x600000 then s.headInService ((off - 0x400000) / 0x20000)
  else true

/-- The part the register at a key plays in a pair. -/
def roleOf (key : Nat) : PairRole :=
  match findReg (key % 0x1000000) with
  | some d => d.pair
  | none => .single

/-- Index k of an array of registers, when `off` is one of them. -/
def indexOf (base stride count off : Nat) : Option Nat :=
  if base ≤ off ∧ (off - base) % stride = 0 ∧ (off - base) / stride < count then some ((off - base) / stride) else none

/-- A number below n, for an index that a range check has bounded. -/
def toFin (n : Nat) [NeZero n] (k : Nat) : Fin n := Fin.ofNat n k

/-! ## Reads -/

/-- The bytes of an event record (Table 17-3) and of a trace record (R190). -/
def EventRec.bytes (r : EventRec) : List Nat :=
  natBytes 8 r.stamp ++ natBytes 2 r.code ++ natBytes 2 (r.src + bitOf r.late * 2 ^ 15) ++ natBytes 4 r.a0 ++ natBytes 4 r.a1 ++
    natBytes 4 r.a2 ++ natBytes 4 r.a3 ++ natBytes 4 0
def TraceRec.bytes (r : TraceRec) : List Nat :=
  natBytes 8 r.stamp ++ [r.slot, r.node, r.flags, 0] ++ natBytes 4 (arg r.value)

/-- A controller register or a doorbell of a function as it reads (Table 12-3). -/
def State.hostView (s : State) (fn off : Nat) : Nat :=
  if off = 0 then 0x02030FFF
  else if off = 4 then 0x00400020
  else if off = 8 then 0x00020000
  else if isDoorbell off then 0
  else if off = R.SNIP_STATUS then
    (setField (s.reg (fnKey fn off)) F.SNIP_STATUS_QUEUED ((s.fnOf fn).snips.length)).toNat
  else (s.reg (fnKey fn off)).toNat

/-- Batches that are sealed, or committed and not durable (HC_PL_STATUS.SEALED). -/
def State.sealedBatches (s : State) : Nat :=
  let p := s.host.place
  let dur := s.jrnDur
  let done := p.chains.filterMap fun c => if c.last ≤ dur then c.batch else none
  let all := p.batches.map (·.batch) ++ p.waiting ++ p.chains.filterMap (·.batch)
  (all.filter fun (b : Nat) => !done.contains b).eraseDups.length

/-- A register of the host command engine as it reads. -/
def State.hcView (s : State) (key : Nat) : Nat :=
  let off := key % 0x1000000
  let fn := key / 0x1000000
  if off = R.HC_STATUS then
    let c := s.pauseCause fn
    c * 2 ^ 28 + bitOf (c != 0) * 2 ^ 31
  else if off = R.HC_OCC then s.host.locks.length % 2048 * 2 ^ 14 + s.usedSlots.length % 2 ^ 14
  else if off = R.HC_SUMP then (setField (s.reg key) F.HC_SUMP_OCC s.host.sump.length).toNat
  else if off = R.HC_PL_STATUS then
    (setField (setField (s.reg key) F.HC_PL_STATUS_PENDING s.jrnPending) F.HC_PL_STATUS_SEALED s.sealedBatches).toNat
  else (s.reg key).toNat

/-- A sequencer register as it reads. -/
def State.sqView (s : State) (off : Nat) : Nat :=
  if off = R.SQ_RUNNING then s.sqRunning
  else if off = R.SQ_EXC then s.sqExc
  else if off = R.SQ_WO_STATUS then s.ordersWaiting % 2 ^ 14
  else match indexOf (R.SQ_BOB_STATUS 0) 0x40 24 off, indexOf (R.SQ_BOB_PC 0) 0x40 24 off with
    | some b, _ => s.bobStatus (toFin 24 b)
    | _, some b => (s.bob (toFin 24 b)).pc
    | _, _ => (s.reg off).toNat

/-- A head island or link register as it reads. -/
def State.headView (s : State) (off : Nat) : Nat :=
  let n := toFin 16 ((off - 0x400000) / 0x20000)
  if off = R.TL_STATUS n.val then s.tlStatus n
  else if off = R.HD_CH_STATUS n.val then s.chStatus n
  else if off = R.HD_INGEST n.val then s.ingestStatus n
  else (s.reg off).toNat

/-- What a register reads as (R7): its word, or what the state shows where the register has no word of its own. -/
def State.viewReg (s : State) (key : Nat) : Nat :=
  let off := key % 0x1000000
  let o := off % 4
  if o ≠ 0 then 0
  else if off < 0x4000 then s.hostView (key / 0x1000000) off
  else if inEventRing off then
    fieldAt (storeGet (fun _ => EventRec.zero) ((off - 0x30000) / 32) s.events.ring).bytes (off % 32) 4
  else if 0x40000 ≤ off ∧ off < 0x80000 then s.hcView key
  else if 0x80000 ≤ off ∧ off < 0xC0000 then s.sqView off
  else if inTraceRing off then
    fieldAt (storeGet (fun _ => (⟨0, 0, 0, 0, 0⟩ : TraceRec)) ((off - 0x120000) / 16) s.loop.traceRing).bytes (off % 16) 4
  else if off = R.DC_STATUS then s.dcStatus
  else if off = R.MC_STATUS then
    (setField (s.reg off) F.MC_STATUS_SCRUB_RUN (bitOf (s.memOn && s.flag R.MC_SCRUB_CFG F.MC_SCRUB_CFG_EN))).toNat
  else if 0x400000 ≤ off then s.headView off
  else match indexOf (R.LP_SLOT_STATUS 0) 0x200 96 off, indexOf (R.SL_POS 0) 0x200 16 off with
    | some k, _ => s.lpStatus (toFin 96 k)
    | _, some n => arg ((s.sled (toFin 16 n)).pNow s.now)
    | none, none => (s.reg off).toNat

/-- The whole value of the pair whose _LO half has this key. TB_NOW is a stamp formed now, by the host island or, through the
window, by the control island. -/
def State.wholePair (s : State) (acc : Accessor) (key : Nat) : Nat :=
  if key = R.TB_NOW_LO then s.stamp (if isWindow acc then .control else .host) else s.pair key

/-- Event 0x7009: an access to a block that is out of service (R17). -/
def State.logOutOfService (s : State) (acc : Accessor) (off : Nat) (write : Bool) : State :=
  s.logHost (accFn acc) 0x7009 (accFn acc) (blockStart off) off (bitOf write)

/-- R5, R8, R16, R17, R19. An aligned 32-bit read: the word, and the state after it. -/
def State.regRead (s : State) (acc : Accessor) (off : Nat) : Nat × State :=
  if bar2Base ≤ off then (s.bar2Read (toFin 2 (accFn acc)) (off - bar2Base), s)
  else if !s.ownerUp off then (0xFFFFFFFF, s.logOutOfService acc off false)
  else match s.keyOf acc off with
    | none => (0, s)
    | some key =>
      if !assignedKey key then (0, s)
      else match roleOf key with
        | .roLo | .rwLo =>
          let v := s.wholePair acc key
          (v % 2 ^ 32, { s with latches := s.latches.set (latchOf acc) v })
        | .roHi | .rwHi => (s.latches[latchOf acc] / 2 ^ 32 % 2 ^ 32, s)
        | .single => (s.viewReg key, s)

/-! ## Writes -/

/-- The state that an operation with a row of its own leaves. -/
def Result.settle (r : Result) (s : State) : State :=
  match r with
  | .next t => t
  | .fault _ | .refused _ => s

/-- A write of CC (R259, R277, R278): EN starts or resets the controller, SHN shuts it down, and the other fields are stored.
The fields are those of NVMe (log entry 34). -/
def State.writeCc (s : State) (fn : Fin 2) (w : Word) : State :=
  let k := fnKey fn.val nvmeCC
  let w : Word := w &&& 0x00FFFFF1
  let shn := s.ctl fn.val nvmeCC ccShn
  match s.enabled fn.val, getFlag w ccEn with
  | false, true => (execControllerEnable fn w s).settle s
  | true, false => (execControllerReset fn s).settle s
  | false, false => s.setReg k (setField w ccShn 0)
  | true, true =>
    let t := s.setReg k (setField w ccShn shn)
    if getField w ccShn = 1 ∧ shn = 0 then (execShutdownNormal fn t).settle t
    else if getField w ccShn = 2 ∧ shn ≠ 2 then (execShutdownAbrupt fn t).settle t
    else t

/-- A write below 0x4000: a controller register, a doorbell, or the snip window. -/
def State.writeHost (s : State) (fn : Fin 2) (off : Nat) (w : Word) : State :=
  let k := fnKey fn.val off
  if off = nvmeCC then s.writeCc fn w
  else if off = nvmeAQA then s.setReg k (w &&& 0x0FFF0FFF)
  else if off = nvmeASQ ∨ off = nvmeACQ then s.setReg k (w &&& 0xFFFFF000)
  else if off = nvmeASQ + 4 ∨ off = nvmeACQ + 4 then s.setReg k w
  else if isDoorbell off then
    let q := (off - 0x1000) / 8
    let v := w.toNat % 65536
    if off % 8 = 0 then (execSqTailDoorbell fn q v s).settle s else (execCqHeadDoorbell fn q v s).settle s
  else if off = R.SNIP_CMD then
    let sq := toFin 65536 (getField w F.SNIP_CMD_SQID)
    (execSnipRequest fn sq (toFin 65536 (getField w F.SNIP_CMD_CID)) s).settle s
  else if off = R.SNIP_STATUS then s.writePlain k w
  else s

/-- A write of HC_PL_CTRL (Table 13-14). -/
def State.writePlCtrl (s : State) (w : Word) : State :=
  let b := toFin 256 (getField w F.HC_PL_CTRL_BATCH)
  let n := toFin 65536 (getField w F.HC_PL_CTRL_COUNT)
  match getField w F.HC_PL_CTRL_OP with
  | 1 => (execSeal n s).settle s
  | 2 => (execCommit b s).settle s
  | 3 => (execAbandon b s).settle s
  | 4 => (execJournalReplayStart s).settle s
  | 5 => (execReplayEnd s).settle s
  | 6 => (execSplitCommit b n s).settle s
  | _ => s

/-- A write of a single register of the host command engine: the placement registers take writes from the window alone, and
their configuration only while no function is enabled. -/
def State.writeHc (s : State) (acc : Accessor) (key : Nat) (w : Word) : State :=
  let off := key % 0x1000000
  if off = R.HC_PL_CTRL then (if isWindow acc then s.writePlCtrl w else s)
  else if off = R.HC_PL_CFG then (if isWindow acc && !s.anyEnabled then s.writePlain key w else s)
  else s.writePlain key w

/-- A write of a register of the system block or the event log. -/
def State.writeSys (s : State) (off : Nat) (w : Word) : State :=
  if off = R.SYS_BOOT then (if getFlag w F.SYS_BOOT_HOST_READY then (execHostReadySet s).settle s else s)
  else if off = R.SYS_HEAD_CTRL then
    let iso := getField w F.SYS_HEAD_CTRL_ISOLATE
    let pow := getField w F.SYS_HEAD_CTRL_POWER
    let s := (List.finRange 16).foldl (fun (t : State) n => if testBitN iso n.val then (execHeadIsolate n t).settle t else t) s
    (List.finRange 16).foldl (fun (t : State) n => if testBitN pow n.val then (execHeadPower n t).settle t else t) s
  else if off = R.EV_RPTR then (execEvRptrWrite w s).settle s
  else if off = R.EV_ATTN then (execEvAttnWrite w s).settle s
  else if off = R.EV_STATUS then (if getFlag w F.EV_STATUS_ATTN then (execAttnClear s).settle s else s)
  else s.writePlain off w

/-- A write of SQ_BOB_CTRL: exactly one of its bits (Table 10-20). -/
def State.writeBobCtrl (s : State) (acc : Accessor) (b : Fin 24) (w : Word) : State :=
  match w.toNat % 8 with
  | 1 => (execBobStart (.reg (acc, b)) s).settle s
  | 2 => (execBobHalt (.reg (acc, b)) s).settle s
  | 4 => (execBobResume acc b s).settle s
  | _ => s

/-- A write of a sequencer register. -/
def State.writeSq (s : State) (acc : Accessor) (off : Nat) (w : Word) : State :=
  match indexOf (R.SQ_BOB_CTRL 0) 0x40 24 off, indexOf (R.SQ_BOB_CAP 0) 0x40 24 off with
  | some b, _ => s.writeBobCtrl acc (toFin 24 b) w
  | _, some b => (execCapWr (.reg (acc, toFin 24 b, w)) s).settle s
  | _, _ => s.writePlain off w

/-- A write of a control store register. -/
def State.writeCs (s : State) (off : Nat) (w : Word) : State :=
  if off = R.CS_TEST then (execCsTestWrite (toFin 16384 (getField w F.CS_TEST_INJECT)) s).settle s
  else if off = R.CS_MC_ADDR then (if getFlag w F.CS_MC_ADDR_CLEAR then (execMcAddrClear s).settle s else s)
  else s.writePlain off w

/-- A write of LP_TRC_CTRL: a write of FREEZE that keeps MODE changes POST and freezes; any other restarts the ring. -/
def State.writeTrcCtrl (s : State) (w : Word) : State :=
  if getFlag w F.LP_TRC_CTRL_FREEZE then
    let s := s.setFld R.LP_TRC_CTRL F.LP_TRC_CTRL_POST (getField w F.LP_TRC_CTRL_POST)
    let s := if getField w F.LP_TRC_CTRL_MODE = s.fld R.LP_TRC_CTRL F.LP_TRC_CTRL_MODE then s
      else (execTraceModeWrite w s).settle s
    (execTraceFreeze s).settle s
  else (execTraceModeWrite w s).settle s

/-- A write of a register of loop slot k at an offset within the slot. -/
def State.writeSlot (s : State) (k : Fin 96) (o : Nat) (w : Word) : State :=
  let off := R.LP_SLOT_CTRL k.val + o
  if o = 0 then
    let req := toFin 4 (getField w F.LP_SLOT_CTRL_REQ)
    if getFlag w F.LP_SLOT_CTRL_CLR_STATE then (execSlotClearState (.reg (k, req)) s).settle s
    else (execSlotStateRequest (.reg (k, req)) s).settle s
  else if o = 4 then (execSlotConfigWrite k .cfg w s).settle s
  else if o = 8 then (execSlotConfigWrite k .start w s).settle s
  else if 0x40 ≤ o ∧ o < 0xA0 then (execSlotConfigWrite k (.node (toFin 24 ((o - 0x40) / 4))) w s).settle s
  else if 0x100 ≤ o then (execCoefficientWrite (.reg (k, toFin 64 ((o - 0x100) / 4), w)) s).settle s
  else s.writePlain off w

/-- A write of a loop engine register. -/
def State.writeLp (s : State) (off : Nat) (w : Word) : State :=
  if off = R.LP_TRC_CTRL then s.writeTrcCtrl w
  else if 0x110000 ≤ off ∧ off < 0x11C000 then s.writeSlot (toFin 96 ((off - 0x110000) / 0x200)) (off % 0x200) w
  else s.writePlain off w

/-- A write of SP_CTRL. The level of SP_FLT_N matters to a START in FAULT alone; a register write does not carry it. -/
def State.writeSpCtrl (s : State) (w : Word) : State :=
  let s := if !getFlag w F.SP_CTRL_START then s
    else if s.motion.spin.st = .fault then
      let (v, t) := s.draw
      (execSpindleStart (.reg ()) (v % 2 == 1) t).settle t
    else (execSpindleStart (.reg ()) false s).settle s
  if getFlag w F.SP_CTRL_STOP then (execSpindleStop (.reg ()) s).settle s else s

/-- A write of a sled's register at an offset within the sled's block. -/
def State.writeSled (s : State) (n : Fin 16) (off : Nat) (w : Word) : State :=
  if off = R.SL_CTRL n.val then
    let s := if getFlag w F.SL_CTRL_CLR_FAULT then (execSledClearFault n s).settle s else s
    s.sledCode n (getField w F.SL_CTRL_CMD)
  else if off = R.SL_TARGET n.val then (execSledTargetWrite n w s).settle s
  else s.writePlain off w

/-- A write of a motor island register. -/
def State.writeMotion (s : State) (off : Nat) (w : Word) : State :=
  if off = R.SP_CTRL then s.writeSpCtrl w
  else if off = R.SP_GOV then
    let s := s.writePlain off w
    (execSpindleDemandSet (.reg (toFin 128 (getField w F.SP_GOV_DEMAND))) s).settle s
  else if off < 0x141000 then s.writePlain off w
  else if isSlTab off then s.setReg off (w &&& 0xFFFF)
  else s.writeSled (toFin 16 ((off - 0x141000) / 0x200)) off w

/-- A write of a decode island register. -/
def State.writeDc (s : State) (off : Nat) (w : Word) : State :=
  if off = R.DC_OUT_CONS then (execDcOutConsWrite w s).settle s
  else if off = R.DC_CNT_CLR then (execDcCntClear w s).settle s
  else s.writePlain off w

/-- A write of MC_TRN_CMD (R318). What the devices answer to a mode register read, and which lines fail a pattern, is not the
write's: each is a free value. -/
def State.writeTrnCmd (s : State) (w : Word) : State :=
  let mask := toFin 16 (getField w F.MC_TRN_CMD_SCMASK)
  let mr := toFin 256 (getField w F.MC_TRN_CMD_MR)
  let data := getField w F.MC_TRN_CMD_DATA
  match getField w F.MC_TRN_CMD_OP with
  | 1 => (execMrw mask mr (toFin 256 data) s).settle s
  | 2 =>
    let (v, t) := s.draw
    (execMrr mask mr (toFin 256 v) t).settle t
  | 3 => (execMpc mask (toFin 256 data) s).settle s
  | 4 => (execPrechargeAll mask s).settle s
  | 5 => (execRefreshAll mask s).settle s
  | 6 =>
    let (v, t) := s.draw
    let errs := (List.finRange 4).map fun k => (k, v / 2 ^ (40 * k.val) % 2 ^ 40)
    (execPatternRun mask (toFin 65536 data) errs t).settle t
  | _ => s

/-- Training registers that take a write only while ENABLE is 0 (R318). -/
def trainingReg (off : Nat) : Bool :=
  off == R.MC_TRN_ADDR || off == R.MC_TRN_PAT || (0x1C1000 ≤ off && off < 0x1C1800)

/-- A write of a memory controller register. -/
def State.writeMc (s : State) (off : Nat) (w : Word) : State :=
  if off = R.MC_CFG then (execMemoryEnable w s).settle s
  else if off = R.MC_ECC_CFG then (execEccCountClear w s).settle s
  else if off = R.MC_ECC_ERASE then (execEccEraseWrite w s).settle s
  else if off = R.MC_FC_CTRL then
    let target := getField w F.MC_FC_CTRL_TARGET
    if getFlag w F.MC_FC_CTRL_REQ then (execFrequencyChangeRequest (toFin 2 target) s).settle s
    else s.setFld off F.MC_FC_CTRL_TARGET target
  else if off = R.MC_SWEEP then (if getFlag w F.MC_SWEEP_START then (execSweepStart s).settle s else s)
  else if off = R.MC_TRN_CMD then s.writeTrnCmd w
  else if trainingReg off then (if s.memOn then s.refuseTraining off else s.writePlain off w)
  else if R.MC_TSET0 0 ≤ off ∧ off < R.MC_TSET0 2 then
    -- the active set's timings change only while ENABLE is 0
    (if s.memOn && (off - R.MC_TSET0 0) / 0x20 == s.activeSet then s else s.writePlain off w)
  else if R.MC_FLIP_MASK0 ≤ off ∧ off ≤ R.MC_FLIP_MASK2 then
    (if testBitN (s.fld R.SEC_STATUS F.SEC_STATUS_DBG) 2 then s.writePlain off w else s.refuseTraining off)
  else s.writePlain off w

/-- A write of a calibration register. -/
def State.writeCal (s : State) (off : Nat) (w : Word) : State :=
  match indexOf (R.CAL_ADC_TGT 0) 8 33 off with
  | some c => (execAdcTargetWrite (toFin 33 c) w s).settle s
  | none =>
    if off = R.CAL_CMP_CTRL then (if getFlag w F.CAL_CMP_CTRL_RUN then (execComparatorTrim s).settle s else s)
    else if off = R.CAL_CMP_DAC ∧ s.flag R.CAL_STATUS F.CAL_STATUS_TRIM_BUSY then s
    else s.writePlain off w

/-- A write of a security register, which only the host can make (R233). -/
def State.writeSec (s : State) (off : Nat) (w : Word) : State :=
  if off = R.SEC_CTRL then
    let s := if getFlag w F.SEC_CTRL_FLOOR_COMMIT then (execFloorCommit s).settle s else s
    if getFlag w F.SEC_CTRL_REVOKE then (execRevoke (toFin 4 (getField w F.SEC_CTRL_REV_SLOT)) s).settle s else s
  else if off = R.SEC_DBG_CTRL then
    (if getFlag w F.SEC_DBG_CTRL_SUBMIT then (execDebugUnlockSubmit s).settle s else s)
  else match indexOf (R.SEC_DBG_BUF 0) 4 88 off with
    | some k => s.modSec fun x => { x with token := storePut (fun _ => 0) k w x.token }
    | none => s.writePlain off w

/-- A write of TL_CTRL (Table 4-12): LANE_DIS, then ENABLE, then the commands. -/
def State.writeTlCtrl (s : State) (n : Fin 16) (w : Word) : State :=
  let s := s.setFld (R.TL_CTRL n.val) F.TL_CTRL_LANE_DIS (getField w F.TL_CTRL_LANE_DIS)
  let s := if getFlag w F.TL_CTRL_ENABLE then (execLinkEnable n s).settle s else (execLinkDisable n s).settle s
  let s := if getFlag w F.TL_CTRL_RETRAIN then (execLinkRetrain n s).settle s else s
  let s := if getFlag w F.TL_CTRL_REALIGN then (execLinkRealign n s).settle s else s
  if getFlag w F.TL_CTRL_FE_SAFE then (execFeSafeRequest n s).settle s else s

/-- A write of a register of head island n, or of its link endpoint. -/
def State.writeHead (s : State) (n : Fin 16) (off : Nat) (w : Word) : State :=
  if off = R.TL_CTRL n.val then s.writeTlCtrl n w
  else if off = R.HD_FMT_CFG n.val then (execHdFmtCfgWrite n w s).settle s
  else if off = R.HD_SYNC_CFG n.val then
    let s := s.writePlain off w
    let half := s.fld off F.HD_SYNC_CFG_HALF_WIN
    if half ≤ s.fld off F.HD_SYNC_CFG_NEAR then s.setFld off F.HD_SYNC_CFG_NEAR (half - 1) else s
  else if off = R.HD_DROP_CFG n.val then
    let s := s.writePlain off w
    let lo := s.fld off F.HD_DROP_CFG_LO
    if s.fld off F.HD_DROP_CFG_HI ≤ lo then s.setFld off F.HD_DROP_CFG_HI (min 63 (lo + 1)) else s
  else if off = R.HD_LASER_CTRL n.val then
    let s := if getFlag w F.HD_LASER_CTRL_REARM then (execLaserRearm n s).settle s else s
    (execLaserEnableWrite n (getFlag w F.HD_LASER_CTRL_LEN_EN) s).settle s
  else if off = R.HD_CEIL_RD n.val then (execCeilingWrite n false (getField w F.HD_CEIL_RD_CEIL) s).settle s
  else if off = R.HD_CEIL_WR n.val then
    let s := (execCeilingWrite n true (getField w F.HD_CEIL_WR_CEIL) s).settle s
    if getFlag w F.HD_CEIL_WR_LOCK then (execCeilingLock n s).settle s else s
  else if off = R.HD_DERATE_CTRL n.val then (execDerateEnableWrite n w s).settle s
  else s.writePlain off w

/-- A write of a single register. -/
def State.writeSingle (s : State) (acc : Accessor) (key : Nat) (w : Word) : State :=
  let off := key % 0x1000000
  if off < 0x4000 then s.writeHost (toFin 2 (key / 0x1000000)) off w
  else if off < 0x40000 then s.writeSys off w
  else if off < 0x80000 then s.writeHc acc key w
  else if off < 0xC0000 then s.writeSq acc off w
  else if off < 0x100000 then s.writeCs off w
  else if off < 0x140000 then s.writeLp off w
  else if off < 0x180000 then s.writeMotion off w
  else if off < 0x1C0000 then s.writeDc off w
  else if off < 0x200000 then s.writeMc off w
  else if off < 0x240000 then s.writeCal off w
  else if off < 0x400000 then s.writeSec off w
  else s.writeHead (toFin 16 ((off - 0x400000) / 0x20000)) off w

/-! ## RW pairs (R8) -/

/-- The base pairs of the decode island, which no write changes while a pass is open (R139). -/
def decodeBase (lo : Nat) : Bool := lo == R.DC_OUT_BASE_LO || lo == R.DC_RA_BASE_LO

/-- A write of either half of an RW pair is taken: HC_DATA_BASE and HC_PL_BASE only while no function is enabled (R285), the
placement pairs only from the window, the flip address only under the debug unlock (R317). -/
def State.pairOpen (s : State) (acc : Accessor) (lo : Nat) : Bool :=
  if lo = R.HC_DATA_BASE_LO then !s.anyEnabled
  else if lo = R.HC_PL_BASE_LO then isWindow acc && !s.anyEnabled
  else if lo = R.HC_JRN_DUR_LO then isWindow acc
  else if lo = R.MC_FLIP_ADDR_LO then testBitN (s.fld R.SEC_STATUS F.SEC_STATUS_DBG) 2
  else if decodeBase lo then !s.passAnywhere
  else true

/-- The key under which an accessor's write of a _LO half is held. -/
def heldKey (acc : Accessor) (lo : Nat) : Nat := lo + (latchOf acc).val * 0x4000000

/-- Both halves of a pair updated at once. -/
def State.applyPair (s : State) (lo : Nat) (wl wh : Word) : State :=
  if lo = R.DC_OUT_BASE_LO then (execDcBaseWrite false wl wh s).settle s
  else if lo = R.DC_RA_BASE_LO then (execDcBaseWrite true wl wh s).settle s
  else if lo = R.MC_FLIP_ADDR_LO then (execFlipArm wl wh s).settle s
  else if lo = R.HC_JRN_DUR_LO then (execJournalDurable (wl.toNat + wh.toNat * 2 ^ 32) s).settle s
  else (s.writePlain lo wl).writePlain (lo + 4) wh

/-- A write of the _LO half is held (R8). -/
def State.holdLo (s : State) (acc : Accessor) (lo : Nat) (w : Word) : State :=
  if s.pairOpen acc lo then { s with heldLo := storeInsert (heldKey acc lo) w s.heldLo }
  else if lo = R.MC_FLIP_ADDR_LO then s.refuseTraining lo
  else if decodeBase lo then s.logDec 0x300A lo
  else s

/-- A write of the _HI half applies the held write of the _LO half; with none held the lower half stays. -/
def State.writeHi (s : State) (acc : Accessor) (lo : Nat) (w : Word) : State :=
  if s.pairOpen acc lo then
    let wl := (s.heldLo.lookup (heldKey acc lo)).getD (s.reg lo)
    ({ s with heldLo := storeErase (heldKey acc lo) s.heldLo }).applyPair lo wl w
  else if lo = R.MC_FLIP_ADDR_LO then s.refuseTraining (lo + 4)
  else if decodeBase lo then s.logDec 0x300A (lo + 4)
  else s

/-- R5 to R8, R16, R17, R19. An aligned 32-bit write. -/
def State.regWrite (s : State) (acc : Accessor) (off val : Nat) : State :=
  let w : Word := BitVec.ofNat 32 val
  if bar2Base ≤ off then s.bar2Write (toFin 2 (accFn acc)) (off - bar2Base) val
  else if !s.ownerUp off then s.logOutOfService acc off true
  else match s.keyOf acc off with
    | none => s
    | some key =>
      if !assignedKey key then s
      else match roleOf key with
        | .rwLo => s.holdLo acc key w
        | .rwHi => s.writeHi acc (key - 4) w
        | .roLo | .roHi => s
        | .single => s.writeSingle acc key w

/-! ## The access commands -/

/-- The access can come about: an aligned offset of BAR0, or of BAR2 while the host island is powered, through a function that
exists, or in the window's range and not a write of the security block (R5, R18, R19, R233). -/
def State.accessible (s : State) (acc : Accessor) (off : Nat) (write : Bool) : Bool :=
  off % 4 == 0 && match acc with
    | .host fn => s.functions.contains fn && (decide (off < bar2Base) || (decide (off < bar2Base + 0x10000) && s.domainOn 18))
    | .window _ => decide (0x10000 ≤ off) && decide (off ≤ 0x5FFFFC) && !(write && secBlock off)

/-- The number of an accessor among the outputs. -/
def accNumber (acc : Accessor) : Nat := (latchOf acc).val

/-- A read's data leave to the accessor. -/
def State.answerRead (acc : Accessor) (off : Nat) (r : Nat × State) : State :=
  { r.2 with out := .readData (accNumber acc) off r.1 :: r.2.out }

/-- The cycle of the host island's clock that the tick lies in (Table 2-1). -/
def State.hostClock (s : State) : Nat := s.now * 8 / islandCycle8 .host

/-- R18. The two ports write one shared register in one clock of the host island: port 0's write counts as the first. Port 1's
write is noted with the word that it met; port 0's then leaves the word that the two writes give in port order. A register
whose write sets something off keeps that effect in the order of the queue. -/
def State.portOrder (s : State) (acc : Accessor) (off : Nat) (val : Nat) (t : State) : State :=
  let w : Word := BitVec.ofNat 32 val
  if !s.boot.bifurcated || perFunction off || bar2Base ≤ off then t
  else match acc with
    | .window _ => t
    | .host 1 => t.modHost fun h => { h with port1 := some ⟨s.hostClock, off, s.reg off, w⟩ }
    | .host _ =>
      match s.host.port1 with
      | some p =>
        if p.clock = s.hostClock ∧ p.key = off ∧ t.reg off = writtenWord off (s.reg off) w ∧
            s.reg off = writtenWord off p.before p.word then
          t.setReg off (writtenWord off (writtenWord off p.before w) p.word)
        else t
      | none => t

/-- R7, R18. A register write. -/
def execRegisterWrite (acc : Accessor) (off : Nat) (val : Nat) (s : State) : Result :=
  when (s.accessible acc off true) s (s.portOrder acc off val (s.regWrite acc off val))

/-- R8. A register read; of a _LO half it latches the whole value. -/
def execLoRegisterRead (acc : Accessor) (off : Nat) (s : State) : Result :=
  when (s.accessible acc off false) s (State.answerRead acc off (s.regRead acc off))

/-- R8. A write of the _HI half of an RW pair. -/
def execRwPairHiWrite (acc : Accessor) (off : Nat) (val : Nat) (s : State) : Result :=
  when (s.accessible acc off true && decide (roleOf off = .rwHi)) s (s.regWrite acc off val)

/-- R5. An access that is not a naturally aligned 32-bit one: discarded, or read as 0xFFFF_FFFF, with event 0x7008. Of an access
that is wrong in width and in alignment the event names the width (DESIGN CHOICE, log entry 82). -/
def execRefusedRegisterAccess (fn : Fin 2) (off : Nat) (bytes : Nat) (write : Bool) (s : State) : Result :=
  when (s.functions.contains fn && decide (off < bar2Base) && (bytes != 4 || off % 4 != 0)) s <|
    let s := s.logHost fn.val 0x7008 fn.val off (if bytes = 4 then 1 else 0)
    if write then s else State.answerRead (.host fn) off (0xFFFFFFFF, s)

/-- R16. An access to an unassigned offset of a block in service: a read answers 0, a write is ignored, and no event is
logged. -/
def execUnassignedOffsetAccess (acc : Accessor) (off : Nat) (write : Bool) (s : State) : Result :=
  let assigned := match s.keyOf acc off with
    | some key => assignedKey key
    | none => false
  when (s.accessible acc off write && decide (off < bar2Base) && s.ownerUp off && !assigned) s
    (if write then s else State.answerRead acc off (0, s))

/-- R17. An access to a block whose island is not in service: a read answers 0xFFFF_FFFF, a write is discarded, and event
0x7009 is logged. -/
def execOutOfServiceBlockAccess (acc : Accessor) (off : Nat) (write : Bool) (s : State) : Result :=
  when (s.accessible acc off write && decide (off < bar2Base) && !s.ownerUp off) s
    (if write then s.logOutOfService acc off true
     else State.answerRead acc off (0xFFFFFFFF, s.logOutOfService acc off false))

/-! ## Words (R225, R226) -/

/-- A load of a word, of a scratch, of program memory or through the window, which needs REGR. -/
def State.loadWord (s : State) (b : Fin 24) (u : Upset) (op : Nat) (signed : Bool) : Result :=
  s.issue b u (isOp op) fun i t => do
    match ← spaceOf (memAddrOf t b i) 4 false with
    | .window o =>
      if !t.capBit b capREGR then .error 2
      else
        let (v, t) := t.regRead (.window b) o
        .ok (t.setG b i.rd (loadValue 4 signed (natBytes 4 v)))
    | p => t.loadAt b u i 4 signed p

/-- R225. LDW and LDWS. -/
def execLdw (b : Fin 24) (u : Upset) (s : State) : Result := s.loadWord b u 0x22 false
def execLdws (b : Fin 24) (u : Upset) (s : State) : Result := s.loadWord b u 0x26 true

/-- R225, R233. STW; through the window it needs REGW. -/
def execStw (b : Fin 24) (u : Upset) (s : State) : Result :=
  s.issue b u (isOp 0x2A) fun i t => do
    match ← spaceOf (memAddrOf t b i) 4 true with
    | .window o => if !t.capBit b capREGW then .error 2 else .ok (t.regWrite (.window b) o (t.g b i.rd % 2 ^ 32))
    | p => .ok (t.spaceWrite b p (natBytes 4 (t.g b i.rd)))

end Sys2Proof.Machine
end

