-- ==== Sys2Proof/Machine/Boot.lean ====
section
/-!
DEFINITION. Machine/Boot.lean: the boot after its verification (R338, R348, R350) with the end of the compatibility sweep (R319),
and the power-on and warm resets (R351, Table 17-2).
-/

namespace Sys2Proof.Machine

/-! ## Stages 2 to 4 -/

/-- A domain's power-up falls due at a tick; one that has failed stays off until a power-on reset. -/
def State.dueAt (s : State) (d : Fin 19) (t : Stamp) : State :=
  match (s.domain d).phase with
  | .failed => s
  | _ => { s with domains := s.domains.set d ⟨.waiting t, 0⟩ }

/-- Heads whose domains a boot powers: named by the mask, with no stamp fault. -/
def State.bootHeads (s : State) : List (Fin 16) :=
  (List.finRange 16).filter fun n => s.headPopulated n.val && !testBitN (s.reg R.TB_STAMP_FAULT).toNat n.val

/-- PD17 and PD16 fall due at once, then each head's domain in ascending order, 150,000 ticks apart (Table 17-1). -/
def State.powerDomains (s : State) (heads : List (Fin 16)) : State :=
  let s := (s.dueAt 17 s.now).dueAt 16 s.now
  (indexed heads).foldl (fun (t : State) (e : Nat × Fin 16) => t.dueAt ⟨e.2.val, by omega⟩ (t.now + 150000 * e.1)) s

/-- SUBCH and DENSITY of MC_CFG as a boot loads them. -/
def State.loadMcCfg (s : State) (subch density : Nat) : State :=
  (s.setFld R.MC_CFG F.MC_CFG_SUBCH (min 2 subch)).setFld R.MC_CFG F.MC_CFG_DENSITY (min 2 density)

/-- SQ_BOB_CAP of a bobbin from its word of the record: all ones select Table 10-6. -/
def State.loadCap (s : State) (b word : Nat) : State :=
  let key := R.SQ_BOB_CAP b
  if word = 0xFFFFFFFF then s.resetReg key else s.writePlain key (BitVec.ofNat 32 word)

/-- One entry of the initialisation list, written as the always-on logic writes it. -/
def State.initWrite (s : State) (e : Nat × Nat) : State :=
  if e.1 % 4 = 0 ∧ e.1 < 0x1000000 then s.regWrite (.host 0) e.1 e.2 else s

/-- R338, R348, R350. Stage 2: the configuration record and its list are applied, and the domains fall due; without an image,
one subchannel of 16 Gbit devices and no head. -/
def execBootConfigApply (s : State) : Result :=
  when (decide (s.fld R.SYS_BOOT F.SYS_BOOT_STAGE = 1) && !s.boot.perst) s <|
    match s.sec.running with
    | none => ((s.loadMcCfg 0 0).powerDomains []).reachStage 2
    | some r =>
      let s := s.setFld R.SYS_HEAD_STATUS F.SYS_HEAD_STATUS_POPULATED (fieldAt r.record 4 2)
      let s := if s.boot.applied then s
        else { s with boot := { s.boot with applied := true, bifurcated := testBitN (fieldAt r.record 6 1) 0 } }
      let mem := fieldAt r.record 7 1
      let s := s.loadMcCfg (mem % 4) (mem / 4 % 4)
      let s := (List.range 24).foldl (fun (t : State) b =>
        (t.loadCap b (fieldAt r.record (16 + 4 * b) 4)).setFld (R.SQ_BOB_ENTRY b) F.SQ_BOB_ENTRY_ENTRY
          (fieldAt r.record (112 + 2 * b) 2)) s
      let s := r.init.foldl (fun (t : State) e => t.initWrite e) s
      (s.powerDomains s.bootHeads).reachStage 2

/-- The power-up of a populated head's domain has not ended. -/
def State.headsPowering (s : State) : Bool :=
  (List.finRange 16).any fun (n : Fin 16) => match (s.domain ⟨n.val, by omega⟩).phase with
    | .waiting _ | .settling _ => true
    | _ => false

/-- R348. Stage 3: the patch is activated, the program image loaded, and every bobbin starts that may. -/
def execBootBobbinsStart (s : State) : Result :=
  when (decide (s.fld R.SYS_BOOT F.SYS_BOOT_STAGE = 2) && !s.boot.noImage && !s.headsPowering) s <|
    let s := s.loadPackage s.boot.slot
    let s := ((List.finRange 24).foldl (fun (t : State) b => t.restart b 0) s).reachStage 3
    -- a sweep that ended before
    if s.domainOn 17 && !s.flag R.MC_STATUS F.MC_STATUS_SWEEP_BUSY then s.reachStage 4 else s

/-- R319, R348, R350. The sweep ends: its results stand, stage 4 is reached in a boot, and a boot without image goes on with
the zero fill, or, where the sweep failed, with HOST_READY. -/
def execSweepEnd (failMask : Fin 16) (codes : List (Nat × Word)) (s : State) : Result :=
  when (s.flag R.MC_STATUS F.MC_STATUS_SWEEP_BUSY) s <|
    let stage := s.fld R.SYS_BOOT F.SYS_BOOT_STAGE
    let s := s.endSweep failMask.val codes
    if stage < 2 ∨ 4 ≤ stage ∨ (stage = 2 ∧ !s.boot.noImage) then s
    else
      let s := s.reachStage 4
      if !s.boot.noImage then s
      else if failMask.val = 0 then
        let s := s.writeMcCfg (setField (s.reg R.MC_CFG) F.MC_CFG_ENABLE 1)
        { s with boot := { s.boot with filling := true } }
      else s.hostReady

/-- The bytes that the zero fill of a boot without image covers (R350). -/
def fillEnd : Nat := 0x84100000

/-- R350. The zero fill ends: its words read as zero with their check symbols, and HOST_READY rises. -/
def execNoImageFillDone (s : State) : Result :=
  when s.boot.filling s <|
    let s := { s with
      mem := { s.mem with
        data := s.mem.data.filter fun (e : Nat × Byte) => decide (fillEnd ≤ e.1)
        check := s.mem.check.filter fun (e : Nat × Byte) => decide (fillEnd / 4 ≤ e.1) && e.2 != unwrittenCheck fillEnd e.1
        filled := fillEnd }
      boot := { s.boot with filling := false } }
    s.hostReady

/-! ## Resets (Table 17-2) -/

/-- HD_LEN falls on every head that holds it high. -/
def State.lenFalls (s : State) : List Output :=
  (List.finRange 16).filterMap fun n => if s.hdLen n then some (.hdLen n.val false) else none

/-- R351. A power-on reset: everything but the fuses and the boot flash. A new nonce is drawn (R344). -/
def execPowerOnReset (s : State) : Result :=
  let z := State.reset
  let t := { z with
    sec := { z.sec with flash := s.sec.flash, keys := s.sec.keys }
    out := s.lenFalls ++ s.out
    free := s.free
    pending := s.pending }
  .next (t.setReg R.SEC_FUSE (s.reg R.SEC_FUSE)).drawNonce

/-- Registers that a warm reset keeps (Table 17-2): the time base's and the event log's, the reset causes, the domains that
have failed and the supplies, the fuses, the nonce, and the power ceilings. -/
def keptByWarm (key : Nat) : Bool :=
  (0x18000 ≤ key && key < 0x40000) || key == R.SYS_RST_CAUSE || key == R.SYS_DOMAIN_FAIL || key == R.SYS_SUPPLY ||
    key == R.SEC_FUSE || (R.SEC_DBG_CHAL 0 ≤ key && key < R.SEC_DBG_CHAL 12) ||
    (0x400000 ≤ key && (key % 0x20000 == 0x314 || key % 0x20000 == 0x318))

/-- A domain at a warm reset: the host island stays powered, one that failed stays off, any other is off. -/
def warmDomain (s : State) (d : Fin 19) : Domain :=
  if d.val = 18 then s.domain d
  else match (s.domain d).phase with
    | .failed => s.domain d
    | _ => ⟨.off, 0⟩

/-- INH_LATCH, with INH_PIN, which shows the pin. -/
def State.keepInhibit (t s : State) : State :=
  (List.range 16).foldl (fun (t : State) n =>
    let r := R.HD_LASER_STATUS n
    (t.setFld r F.HD_LASER_STATUS_INH_LATCH (s.fld r F.HD_LASER_STATUS_INH_LATCH)).setFld r F.HD_LASER_STATUS_INH_PIN
      (bitOf s.pins.inhLow)) t

/-- A band-gap deviation is left by a power-on reset alone (Table 17-5): the applied coefficients stay frozen. -/
def State.keepDeviation (t s : State) : State :=
  if !s.flag R.CAL_STATUS F.CAL_STATUS_BG_DEV then t
  else
    let t := t.setFld R.CAL_STATUS F.CAL_STATUS_BG_DEV 1
    let t := (List.range 33).foldl (fun (t : State) c => t.setReg (R.CAL_ADC_APP c) (s.reg (R.CAL_ADC_APP c))) t
    { t with cal := { t.cal with deviant := s.cal.deviant, copied := s.cal.copied, goals := s.cal.goals } }

/-- R351. PERST_N is asserted: every island but the time base's counter and the event log takes its reset state. -/
def execWarmReset (s : State) : Result :=
  when (!s.boot.perst) s <|
    let z := State.reset
    let t := { z with
      time := { s.time with dist := [] }
      events := s.events
      regs := s.regs.filter fun (r : Nat × Word) => keptByWarm r.1
      domains := Vector.ofFn (warmDomain s)
      boot := { z.boot with since := s.now, perst := true, bifurcated := s.boot.bifurcated, applied := s.boot.applied,
                            deadGroups := s.boot.deadGroups }
      pins := s.pins
      sec := { z.sec with flash := s.sec.flash, keys := s.sec.keys }
      out := s.lenFalls ++ s.out
      free := s.free
      pending := s.pending }
    let t := t.setOn 18 (s.domainOn 18)
    let t := t.setFld R.SEC_STATUS F.SEC_STATUS_DBG (s.fld R.SEC_STATUS F.SEC_STATUS_DBG)
    let t := t.setFld R.SYS_RST_CAUSE F.SYS_RST_CAUSE_WARM 1
    (t.keepInhibit s).keepDeviation s

/-- R351. PERST_N is deasserted: the boot runs from stage 1. -/
def execPerstNRelease (s : State) : Result :=
  when s.boot.perst s { s with boot := { s.boot with perst := false, since := s.now } }

end Sys2Proof.Machine
end

