-- ==== Sys2Proof/Machine/HeadIns.lean ====
section
/-!
DEFINITION. Machine/HeadIns.lean: the head instructions (Tables 10-7 to 10-9, R234 to R237) and how an HD.SEEK goes on.
-/

namespace Sys2Proof.Machine

/-- A head instruction: its checks, then its effect on the head that ra names. -/
def State.headIns (s : State) (b : Fin 24) (u : Upset) (op : Nat) (f : Fin 16 → Ins → State → Effect) : Result :=
  s.issue b u (isOp op) fun i t => t.headChecks b famHD (t.g b i.ra) fun n => f n i t

/-- A head's link carries messages. -/
def State.linkUsable (s : State) (n : Fin 16) : Bool := (s.head n).link.usable

/-! ## HD.OPEN -/

/-- The descriptor's bytes (Table 10-9) as a pass, or nothing where a reserved field is not 0. -/
def parseDesc (d : List Nat) : Option PassDesc :=
  let mode := fieldAt d 1 1
  let m := mode % 4
  if fieldAt d 0 1 / 16 ≠ 0 ∨ m = 3 ∨ fieldAt d 2 2 ≠ 0 ∨ fieldAt d 12 4 ≠ 0 ∨ (d.drop 32).any (· ≠ 0) then none
  else some
    { layer := fieldAt d 0 1, mode := if m = 0 then .read else if m = 1 then .backstitch else .verifyOnly
      inward := testBitN mode 2, writeBack := testBitN mode 3, runAhead := mode / 16
      start := fieldAt d 4 4, count := fieldAt d 8 4, wbd := fieldAt d 16 8, reloc := fieldAt d 24 8 }

/-- The layer that the head is focused on: that of the accepted address, else what the sequences reached. -/
def focusLayer (s : State) (n : Fin 16) : Nat :=
  match s.flag (R.HD_FLY_STATUS n.val) F.HD_FLY_STATUS_ADDR_OK, (s.head n).fly.expected with
  | true, some (l, _) => l
  | _, _ => (s.loopHead n).layer

/-- The descriptor is valid for the head under a format word (R235). -/
def descValid (s : State) (n : Fin 16) (fmt : Nat) (d : PassDesc) : Bool :=
  let lead := fmtLeadin fmt
  let b := if lead then 234 else fmtBands fmt
  let inRange := if d.inward then d.start < b && d.count ≤ d.start + 1 else d.start + d.count ≤ b
  1 ≤ d.count && inRange && (!lead || d.mode == .read) && ((d.wbd == 0) == (d.mode == .read)) &&
    d.layer == focusLayer s n

/-- HD.OPEN reaches the head island (R236, R237); where it redirects a pass, that pass's unclaimed bands are discarded (R134). -/
def State.openArrives (s : State) (n : Fin 16) (bytes : List Nat) (w : Waiter) : State :=
  let h := s.head n
  if !h.link.usable then s.completeHead n w 6 0
  else if h.opening.isSome ∨ (s.loopHead n).seq.isSome then s.completeHead n w 5 0
  else
    let cfg := passCfgNow s n
    match parseDesc bytes with
    | none => s.completeHead n w 3 0
    | some d =>
      if !descValid s n cfg.fmt d then s.completeHead n w 3 0
      else
        let o : OpenReq := { who := w, desc := d, cfg := cfg, stage := .awaitHem, relocs := [], clamps := 0 }
        let s := s.modHead n fun h => { h with opening := some o }
        if h.pass.isSome then (s.discardHeadBands n.val 1).hemRequest n (s.stamp (.head n)) false [] else s.openAfterHem n

/-- R234 to R237. HD.OPEN: the descriptor is read at issue. -/
def execHdOpen (b : Fin 24) (u : Upset) (s : State) : Result :=
  s.headIns b u 0x50 fun n i t => do
    let d ← t.sharedAt (t.g b i.rb) 64
    t.async b i true fun w t => t.openArrives n d w

/-! ## HD.HEM -/

/-- HD.HEM reaches the head island: it withdraws an open that waits past its hem (R237), joins or starts a hem, or finds
no pass (R35). The pass's unclaimed bands are discarded (R134). -/
def State.hemArrives (s : State) (n : Fin 16) (w : Waiter) : State :=
  let s : State := match (s.head n).opening with
    | some o =>
      if o.stage == OpenStage.awaitHem then s
      else ((s.modHead n fun h => { h with opening := none }).dropOpenClaim n).completeHead n o.who 2 0
    | none => s
  if (s.head n).pass.isSome then (s.discardHeadBands n.val 1).hemRequest n (s.stamp (.head n)) false [w]
  else s.completeHead n w 1 (s.head n).passNo

/-- R33. HD.HEM. -/
def execHdHem (b : Fin 24) (u : Upset) (s : State) : Result :=
  s.headIns b u 0x51 fun n i t => t.async b i true fun w t => t.hemArrives n w

/-! ## HD.SEEK -/

/-- P of a track centre (R236). -/
def trackP (s : State) (n : Fin 16) (fmt : Nat) (track : Nat) : Int :=
  let origin := toSigned (s.reg (R.SL_ORIGIN n.val)).toNat 32
  roundDiv (((trackRadius fmt track : Nat) - origin) * 256) 6250

/-- A seek ends with a result and the track reached. -/
def State.endSeek (s : State) (n : Fin 16) (k : SeekReq) (result : Nat) : State :=
  (s.modHead n fun h => { h with seek := none }).completeHead n k.who result (trackReached s n)

/-- A seek moves its sled to P, or ends with result 1 where the sled cannot be moved or its position is uncertain. -/
def State.seekMove (s : State) (n : Fin 16) (k : SeekReq) (p : Int) : State :=
  let r := R.SL_STATUS n.val
  if s.fld r F.SL_STATUS_FAULT ≠ 0 ∨ s.flag r F.SL_STATUS_UNCERTAIN then s.endSeek n k 1
  else
    let s := (s.writeTarget n p).sledCommand n .move none
    s.modHead n fun h => { h with seek := some { k with stage := .moving, note := none } }

/-- HD.SEEK reaches the head island (R236, R237); where it redirects a pass, that pass's unclaimed bands are discarded (R134). -/
def State.seekArrives (s : State) (n : Fin 16) (track : Nat) (w : Waiter) : State :=
  let h := s.head n
  let focus := match focusSlot s n with
    | some k => (s.slot k).st == .run
    | none => false
  if !h.link.usable ∨ (s.loopHead n).seq.isSome ∨ h.seek.isSome ∨ h.opening.isSome ∨ !focus then
    s.completeHead n w 8 (trackReached s n)
  else
    let k : SeekReq :=
      { who := w, target := track, stage := .moving, corrections := 0, fmt := (s.reg (R.HD_FMT_CFG n.val)).toNat, note := none }
    if h.pass.isSome then
      let s := s.modHead n fun h => { h with seek := some { k with stage := .awaitHem } }
      (s.discardHeadBands n.val 1).hemRequest n (s.stamp (.head n)) false []
    else s.seekMove n k (trackP s n k.fmt track)

/-- R236. HD.SEEK. -/
def execHdSeek (b : Fin 24) (u : Upset) (s : State) : Result :=
  s.headIns b u 0x52 fun n i t =>
    let track := t.g b i.rb % 2 ^ 19
    t.async b i true fun w t => t.seekArrives n track w

/-- Track-on or a seam jump of a seek begins, or its refusal ends the seek (log entry 33). -/
def State.seekSequence (s : State) (n : Fin 16) (k : SeekReq) (kind : SeqKind) (stage : SeekStage) : State :=
  match seqRefusal s n kind with
  | some _ => s.endSeek n k 7
  | none =>
    let s := s.modHead n fun h => { h with seek := some { k with stage := stage, note := none } }
    s.seqBegin n kind none

/-- The accepted track against the target: done, a seam jump, or a new move; more than four corrections end the seek
with result 3 (R236). -/
def State.seekCorrect (s : State) (n : Fin 16) (k : SeekReq) : State :=
  match (s.head n).fly.expected with
  | none => s
  | some (_, t) =>
    let d : Int := (k.target : Int) - t
    if d = 0 then s.endSeek n k 0
    else if 4 ≤ k.corrections then s.endSeek n k 3
    else
      let k := { k with corrections := k.corrections + 1 }
      if d.natAbs ≤ 12 then s.seekSequence n k (.seamJump d) .jumping
      else
        let step := trackP s n k.fmt k.target - trackP s n k.fmt t
        s.seekMove n k ((s.sled n).pNow s.now + step)

/-- Whether the head has an accepted address. -/
def addrOk (s : State) (n : Fin 16) : Bool := s.flag (R.HD_FLY_STATUS n.val) F.HD_FLY_STATUS_ADDR_OK

/-- R236. An HD.SEEK goes on when what it waits for has come: the hem, the sled's rest, the end of its sequence, or an
accepted address. -/
def execSeekStep (head : Fin 16) (s : State) : Result :=
  match (s.head head).seek with
  | none => .next s
  | some k =>
    let x := s.sled head
    let r := R.SL_STATUS head.val
    match k.stage, k.note with
    | .awaitHem, _ => .next s
    | .moving, some _ => .next (s.seekMove head k (trackP s head k.fmt k.target))
    | .moving, none =>
      if s.fld r F.SL_STATUS_FAULT ≠ 0 ∨ s.flag r F.SL_STATUS_UNCERTAIN ∨ (x.cmds.isEmpty ∧ (x.st = .frozen ∨ x.st = .idle)) then
        .next (s.endSeek head k 1)
      else when (x.cmds.isEmpty && x.st == .hold) s (s.seekSequence head k .trackOn .trackOn)
    | .trackOn, some 0 => .next (s.modHead head fun h => { h with seek := some { k with stage := .awaitAddr s.now, note := none } })
    | .jumping, some 0 => .next (s.seekCorrect head k)
    | .jumping, some 5 | .jumping, some 6 =>
      .next (s.modHead head fun h => { h with seek := some { k with stage := .awaitAddr s.now, note := none } })
    | .trackOn, some _ | .jumping, some _ => .next (s.endSeek head k 7)
    | .trackOn, none | .jumping, none => .next s
    | .awaitAddr _, _ => when (addrOk s head) s (s.seekCorrect head k)

/-- R236. No address within 2 ms after track-on: result 2. -/
def execSeekAddressTimeout (head : Fin 16) (s : State) : Result :=
  match (s.head head).seek with
  | some k => match k.stage with
    | .awaitAddr t => when (!addrOk s head && decide (t + 2 * ticksMs ≤ s.now)) s (s.endSeek head k 2)
    | _ => .next s
  | none => .next s

/-! ## The sequences -/

/-- A request for a sequence ends at once with a result: event 0x4006, RESULT and the answer, as at every end (R184, Table
8-22). -/
def State.sequenceRefused (s : State) (n : Fin 16) (kind : SeqKind) (r : Nat) (w : Waiter) : State :=
  let s := s.setFld (R.LP_SEQ_STATUS n.val) F.LP_SEQ_STATUS_RESULT r
  (s.logLoop 0x4006 n.val (seqNumber kind) r 0).complete w .device srcLoop (s.stamp .control) r 0

/-- A sequence instruction reaches the head island (R184, R237). -/
def State.sequenceArrives (s : State) (n : Fin 16) (kind : SeqKind) (w : Waiter) : State :=
  if (s.head n).seek.isSome ∨ (s.head n).opening.isSome then s.sequenceRefused n kind 8 w
  else match seqRefusal s n kind with
    | some r => s.sequenceRefused n kind r w
    | none => s.seqBegin n kind (some w)

/-- R185. HD.FOCUS: rb[3:0] is the layer. -/
def execHdFocus (b : Fin 24) (u : Upset) (s : State) : Result :=
  s.headIns b u 0x53 fun n i t =>
    let l := t.g b i.rb % 16
    t.async b i true fun w t => t.sequenceArrives n (.focus l) w

/-- A signed count in a range, not 0. -/
def countIn (v : Nat) (m : Nat) : Option Int :=
  let k := sx v
  if k ≠ 0 ∧ k.natAbs ≤ m then some k else none

/-- R186. HD.LJUMP: rb is k, from −15 to +15 and not 0. -/
def execHdLjump (b : Fin 24) (u : Upset) (s : State) : Result :=
  s.headIns b u 0x54 fun n i t =>
    match countIn (t.g b i.rb) 15 with
    | none => .error 6
    | some k => t.async b i true fun w t => t.sequenceArrives n (.layerJump k) w

/-- R187. HD.TRKON. -/
def execHdTrkon (b : Fin 24) (u : Upset) (s : State) : Result :=
  s.headIns b u 0x55 fun n i t => t.async b i true fun w t => t.sequenceArrives n .trackOn w

/-- R188. HD.SJUMP: rb is n, from −12 to +12 and not 0. -/
def execHdSjump (b : Fin 24) (u : Upset) (s : State) : Result :=
  s.headIns b u 0x56 fun n i t =>
    match countIn (t.g b i.rb) 12 with
    | none => .error 6
    | some k => t.async b i true fun w t => t.sequenceArrives n (.seamJump k) w

/-! ## The front end -/

/-- A front-end instruction reaches the head island: its message is queued and its answer awaited for 1 ms (R234,
R237). -/
def State.feArrives (s : State) (n : Fin 16) (k : FeKind) (m : Msg) (w : Waiter) : State :=
  if !s.linkUsable n then s.completeHead n w 6 0
  else
    let s := s.modHead n fun h => { h with fe := h.fe ++ [⟨w, k, s.now, none⟩] }
    s.sendMsg n m

/-- R234. HD.SAFE: FN 0 SAFE, 1 RESUME. -/
def execHdSafe (b : Fin 24) (u : Upset) (s : State) : Result :=
  s.headIns b u 0x57 fun n i t =>
    if 1 < i.fn then .error 6
    else t.async b i true fun w t =>
      if i.fn = 0 then t.feArrives n .safe .safe w else t.feArrives n .resume .resume w

/-- R234. HD.FEWR: rb[15:0] is the front-end register, rb[63:32] the data. -/
def execHdFewr (b : Fin 24) (u : Upset) (s : State) : Result :=
  s.headIns b u 0x58 fun n i t =>
    let v := t.g b i.rb
    t.async b i true fun w t => t.feArrives n .write (.fewr (v % 65536) (v / 2 ^ 32)) w

/-- R234. HD.FERD: rb[15:0] is the front-end register. -/
def execHdFerd (b : Fin 24) (u : Upset) (s : State) : Result :=
  s.headIns b u 0x59 fun n i t =>
    let v := t.g b i.rb
    t.async b i true fun w t => t.feArrives n .read (.ferd (v % 65536)) w

/-- R234. The oldest front-end instruction has had no answer for 1 ms: result 3. -/
def execFrontEndReplyTimeout (head : Fin 16) (s : State) : Result :=
  match (s.head head).fe with
  | [] => .next s
  | f :: rest =>
    when (decide (f.since + ticksMs ≤ s.now)) s <|
      (s.modHead head fun h => { h with fe := rest }).completeHead head f.who 3 0

/-! ## Readings -/

/-- R234. HD.HK: bit 63 valid, [39:0] the latest verified value of item rb[7:0]. -/
def execHdHk (b : Fin 24) (u : Upset) (s : State) : Result :=
  s.headIns b u 0x5A fun n i t =>
    let v := match (t.head n).link.hk.lookup (t.g b i.rb % 256) with
      | some (v, _) => 2 ^ 63 + v % 2 ^ 40
      | none => 0
    .ok (t.setG b i.rd v)

/-- The result of HD.STAT (Table 10-8). -/
def headStat (s : State) (n : Fin 16) : Nat :=
  let h := s.head n
  let hemming := match h.pass with
    | some p => p.hem.isSome
    | none => false
  let track := match h.fly.expected with
    | some (_, t) => t
    | none => 0
  linkCode h.link.state + 8 * bitOf (s.aligned n) + 16 * bitOf (flyReady s n) + 32 * bitOf (addrOk s n) +
    64 * bitOf h.pass.isSome + 128 * bitOf hemming + 256 * bitOf (s.loopHead n).seq.isSome + 512 * bitOf (s.hdLen n) +
    2 ^ 16 * h.passNo + 2 ^ 32 * track + 2 ^ 51 * focusLayer s n

/-- R234. HD.STAT. -/
def execHdStat (b : Fin 24) (u : Upset) (s : State) : Result :=
  s.headIns b u 0x5B fun n i t => .ok (t.setG b i.rd (headStat t n))

end Sys2Proof.Machine
end

