-- ==== Sys2Proof/Machine/Spindle.lean ====
section
/-!
DEFINITION. Machine/Spindle.lean: what happens to the spindle by time and from its pins: crossings and commutation,
the stages of a start and a stop, protections, the governor and the motor quantities (R208 to R221).
-/

namespace Sys2Proof.Machine

/-- The place in Table 9-4 of a crossing: its phase (0 U, 1 V, 2 W) and polarity. -/
def crossingSector (phase : Fin 3) (rising : Bool) : Nat :=
  match phase.val, rising with
  | 2, false => 0 | 1, true => 1 | 0, false => 2 | 2, true => 3 | 1, false => 4 | _, _ => 5

/-- A crossing joins the list, and T60 is the mean of the last six intervals (R209). -/
def State.noteCrossing (s : State) (sec : Nat) (stamp : Stamp) : State :=
  let cs := (sec, stamp) :: s.motion.spin.crossings.take 63
  (s.modSpin fun x => { x with crossings := cs, t60 := if 2 ≤ cs.length then meanT60 cs else x.t60 }).showSpin

/-- The present sector has had its crossing. -/
def crossedNow (x : Spindle) : Bool :=
  match x.crossings with
  | (sec, t) :: _ => sec == x.sector && decide (x.tk ≤ t)
  | [] => false

/-- R209 to R211, R214, R215. A zero crossing of a floating phase qualifies. -/
def execBemfCrossing (phase : Fin 3) (rising : Bool) (stamp : Stamp) (s : State) : Result :=
  let sec := crossingSector phase rising
  let x := s.motion.spin
  match x.st, x.stage with
  | .run, _ | .stopping, .ramp =>
    let open64 := 64 * x.tk + x.t60 * s.fld R.SP_COMM_CFG F.SP_COMM_CFG_DEMAG
    when (sec == x.sector && x.next.isNone && decide (open64 ≤ 64 * stamp) && decide (stamp < forcedAt s)) s <|
      let s := s.noteCrossing sec stamp
      let s := s.modSpin fun y => { y with next := some (commutationAfter s y.t60 stamp), misses := 0 }
      s.showSpin.overSpeed
  | .listen, .catching =>
    -- the first crossing after LISTEN gives the sector, with T60 from LISTEN (R214)
    when x.next.isNone s <|
      (s.modSpin fun y => { y with sector := sec, next := some (commutationAfter s y.t60 stamp)
                                   crossings := (sec, stamp) :: y.crossings.take 63 }).showSpin
  | .openLoop, _ =>
    let again := crossedNow x
    let s := s.noteCrossing sec stamp
    let s := s.modSpin fun y => { y with goodRun := if sec ≠ y.sector then 0 else if again then y.goodRun else y.goodRun + 1 }
    let x := s.motion.spin
    let hand := 8 * s.fld R.SP_COMM_CFG F.SP_COMM_CFG_HANDOVER
    let ramp := 4 * s.fld R.SP_ALIGN_CFG F.SP_ALIGN_CFG_OL_ACC * (s.now - x.since)
    if 6 ≤ x.goodRun ∧ hand * ticksS ≤ ramp then
      -- T60 from the crossings of the six sectors
      let six := x.crossings.take 6
      let s := s.modSpin fun y => { y with crossings := six, t60 := meanT60 six, tk := stamp }
      let s := s.modSpin fun y => { y with next := some (commutationAfter s y.t60 stamp) }
      .next (s.showSpin.enterRun x.path stamp)
    else .next s
  | .lost, .catching => .next s
  | .lost, _ =>
    match x.crossings with
    | (a, t) :: _ =>
      let gap := stamp - t
      let rpm := if gap = 0 then 0 else 3750000000 / gap
      if sec = (a + 1) % 6 ∧ s.fld R.SP_START_CFG F.SP_START_CFG_CATCH ≤ rpm then
        let s := s.modSpin fun y => { y with crossings := [(sec, stamp), (a, t)], t60 := gap, sector := sec, misses := 0
                                             next := some (commutationAfter s gap stamp), stage := .catching }
        .next (s.showSpin.logMot 0x5015 (stamp - x.since) rpm)
      else .next (s.noteCrossing sec stamp)
    | [] => .next (s.modSpin fun y => { y with crossings := [(sec, stamp)] })
  | .listen, _ | .stopping, .burstListen => .next (s.noteCrossing sec stamp)
  | _, _ => .next s

/-- R210, R211, R214. The commutation that a crossing scheduled falls due: the next sector, and RUN where a catch or a
resynchronisation was waiting for it. -/
def execCommutation (s : State) : Result :=
  let x := s.motion.spin
  match x.next with
  | none => .next s
  | some t =>
    when (decide (t ≤ s.now)) s <|
      let s := s.modSpin fun y => { y with sector := (y.sector + 1) % 6, tk := t, next := none }
      if x.stage = .catching then
        let s := s.modSpin fun y => { y with duty := presetDuty s (rpmNow s) }
        if x.st = .lost then s.resumeRun else s.enterRun 0 t
      else s.showSpin

/-- The rotor is lost (R211): phases float, event 0x5014, and a hem on every head with an open pass at h = t_L. A loss
within 1 s of a start's entry to RUN fails the attempt (R213), and one in a controlled stop's ramp lets it brake (R216). -/
def State.rotorLost (s : State) (tl : Stamp) : State :=
  let x := s.motion.spin
  let s := s.modSpin fun y => { y with duty := 0, dutyNext := none, next := none, crossings := [], misses := 3, lostT60 := x.t60 }
  let s := s.spinTo .lost .plain
  let s := s.modSpin fun y => { y with since := tl }
  let s := s.logMot 0x5014 x.t60 x.sector (tl % 2 ^ 32)
  let s := s.hemAll tl
  if x.st = .stopping then s.controlledStop .burst x.restart
  else if 0 < x.attempt ∧ tl < x.runSince + ticksS then s.failAttempt 2
  else s

/-- R210, R211. No crossing by t_f: a forced commutation, counted as a miss, and at the third the rotor is lost. -/
def execForcedCommutation (s : State) : Result :=
  let x := s.motion.spin
  let tf := forcedAt s
  let driven := x.st == .run || (x.st == .stopping && x.stage == .ramp)
  when (driven && x.next.isNone && decide (0 < x.t60) && decide (tf ≤ s.now)) s <|
    if x.misses + 1 = 3 then s.rotorLost tf
    else (s.modSpin fun y => { y with sector := (y.sector + 1) % 6, tk := tf, misses := y.misses + 1 }).showSpin

/-- R211. No resynchronisation within 50 ms: event 0x5016, the controlled stop from its braking stage, then a start. -/
def execLostRotorTimeout (s : State) : Result :=
  let x := s.motion.spin
  when (x.st == .lost && x.stage == .plain && decide (x.since + 75000000 ≤ s.now)) s <|
    (s.logMot 0x5016 x.lostT60).controlledStop .burst true

/-- The direction of the crossings kept: forward, backward, or neither. -/
def directionOf (cs : List (Nat × Stamp)) : Int :=
  match cs with
  | (a, _) :: (b, _) :: _ => if a = (b + 1) % 6 then 1 else if b = (a + 1) % 6 then -1 else 0
  | _ => 0

/-- Align-and-go begins: sector 0 at the align duty (R215). -/
def State.spinAlign (s : State) (path : Nat) : State :=
  let duty := s.fld R.SP_ALIGN_CFG F.SP_ALIGN_CFG_DUTY
  (s.modSpin fun x => { x with path := path, sector := 0, duty := duty, t60 := 0, crossings := [], goodRun := 0 }).spinTo
    .align .plain

/-- R212, R215, R216, R326. 20 ms of LISTEN have passed: the start proceeds by Table 9-5, braking goes on or ends. No bridge
drives before the calibration's first copy: until then the LISTEN goes on. -/
def execListenEnd (s : State) : Result :=
  let x := s.motion.spin
  let fresh := x.crossings.filter fun c => s.now < c.2 + 30000000
  let dir := directionOf fresh
  let rpm := if 2 ≤ fresh.length then rpmNow s else 0
  let slow := rpm < s.fld R.SP_START_CFG F.SP_START_CFG_BRAKE_THR
  when (decide (x.since + 30000000 ≤ s.now) && s.cal.copied) s <|
    match x.st, x.stage with
    | .listen, .plain =>
      if dir = 1 ∧ s.fld R.SP_START_CFG F.SP_START_CFG_CATCH ≤ rpm then
        (s.modSpin fun y => { y with path := 0 }).spinTo .listen .catching
      else if dir = -1 ∧ ¬ slow then (s.modSpin fun y => { y with path := 1 }).spinTo .brake .burst
      else s.spinAlign 2
    | .brake, .burstListen =>
      if slow ∨ dir = 1 then s.spinAlign 1 else s.spinTo .brake .burst
    | .stopping, .burstListen =>
      if slow then s.spinTo .stopping .short else s.spinTo .stopping .burst
    | _, _ => s

/-- R215. A 50 ms braking short ends, and a LISTEN of 20 ms follows. -/
def execBrakeBurstEnd (s : State) : Result :=
  let x := s.motion.spin
  when (x.stage == .burst && decide (x.since + 75000000 ≤ s.now)) s <| s.spinListen x.st .burstListen

/-- R215. ALIGN_T ms on sector 0 have passed: the open-loop ramp begins. -/
def execAlignEnd (s : State) : Result :=
  let x := s.motion.spin
  when (x.st == .align && decide (x.since + s.fld R.SP_ALIGN_CFG F.SP_ALIGN_CFG_ALIGN_T * ticksMs ≤ s.now)) s <|
    (s.modSpin fun y => { y with steps := 0, goodRun := 0 }).spinTo .openLoop .plain

/-- R213, R215. The next open-loop commutation falls due on the ramp: after x ticks at a rpm/s the rotor stands a·x²/5
sectors of (1.5·10⁹)² on. At twice the handover speed without a handover the attempt fails. -/
def execOpenLoopCommutation (s : State) : Result :=
  let x := s.motion.spin
  let a := 4 * s.fld R.SP_ALIGN_CFG F.SP_ALIGN_CFG_OL_ACC
  let dt := s.now - x.since
  let hand := 8 * s.fld R.SP_COMM_CFG F.SP_COMM_CFG_HANDOVER
  when (x.st == .openLoop && decide (5 * (x.steps + 1) * ticksS * ticksS ≤ a * dt * dt)) s <|
    if 2 * hand * ticksS ≤ a * dt then s.failAttempt 0
    else (s.modSpin fun y => { y with
      steps := y.steps + 1, goodRun := if crossedNow y then y.goodRun else 0, sector := (y.sector + 1) % 6, tk := s.now }).showSpin

/-- R216. The final 2 s short ends: the phases float, and the state is STOPPED. -/
def execStopShortEnd (s : State) : Result :=
  let x := s.motion.spin
  when (x.st == .stopping && x.stage == .short && decide (x.since + 3000000000 ≤ s.now)) s s.spinStopped

/-- R217. SP_FLT_N low for 1 µs: all gates low and FAULT, with the hems of R211. -/
def execSpindleBridgeFault (s : State) : Result :=
  let h := s.stamp .motor
  .next ((s.spinFault 1 h).logMot 0x5017 (h % 2 ^ 32) s.motion.spin.sector)

/-- R213, R217. Two consecutive PWM samples above OC_TRIP: all gates low; in a start attempt the attempt fails, and
otherwise the spindle enters FAULT. -/
def execSpindleOverCurrent (first second : Int) (s : State) : Result :=
  let trip : Int := s.fld R.SP_PROT F.SP_PROT_OC_TRIP
  let x := s.motion.spin
  when (decide (trip < first) && decide (trip < second)) s <|
    let h := s.stamp .motor
    let s := s.logMot 0x5018 (arg second) x.sector
    match x.st with
    | .listen | .brake | .align | .openLoop => s.failAttempt 1
    | _ => s.spinFault 2 h

/-- R219. A spindle demand reaches the motor island. -/
def execSpindleDemand (demand : Int) (s : State) : Result := .next (s.spinDemand demand)

/-- R216, R220. Every 1 ms REF moves toward TARGET by at most the rate limit; the ramp of a controlled stop ends with REF at
1,200 rpm. -/
def execGovernorUpdate (s : State) : Result :=
  when (s.now % ticksMs == 0) s <|
    let s := s.updateGov
    let ref : Int := s.fld R.SP_REF F.SP_REF_REF
    let goal : Int := s.fld R.SP_GOV F.SP_GOV_TARGET * 960
    let step := roundDiv ((s.fld R.SP_GOV F.SP_GOV_RATE : Int) * 16) 1000
    (s.setFld R.SP_REF F.SP_REF_REF (ref + clampInt (-step) step (goal - ref)).toNat).rampDone

/-- R218. Every 1 ms the thermal state moves toward the square of the mean current: s and the square in 2^-31 FS. -/
def execThermalModelUpdate (s : State) : Result :=
  when (s.now % ticksMs == 0) s <|
    let x := s.motion.spin
    let c := openRound x.msSum (max 1 x.msCnt)
    let sq := c * c * 512
    let therm := x.therm + floorDiv (sq - x.therm) (2 ^ s.fld R.SP_THERM F.SP_THERM_TAU_SH)
    s.modSpin fun y => { y with therm := therm, msSum := 0, msCnt := 0 }

/-- Ticks of a PWM period (R208). -/
def pwmTicks (s : State) : Nat := 15 * s.fld R.SP_PWM F.SP_PWM_PERIOD / 2

/-- R215, R218, R219. A PWM period starts: the pending duty applies, the motor quantities go to the loop engine, and a
braking short with the current above ILIM lets the phases float for the period. `current` is the mean over the period
that ended. -/
def execPwmPeriod (current : Int) (s : State) : Result :=
  when (decide (s.motion.spin.lastPwm + pwmTicks s ≤ s.now)) s <|
    let ilim : Int := s.fld R.SP_PROT F.SP_PROT_ILIM
    let s := s.modSpin fun x => { x with
      lastPwm := s.now, current := current, msSum := x.msSum + current, msCnt := x.msCnt + 1
      duty := x.dutyNext.getD x.duty, dutyNext := none
      released := (x.stage == .burst || x.stage == .short) && decide (ilim < current) }
    let s := s.showSpin
    let x := s.motion.spin
    let meas : Int := s.fld R.SP_SPEED F.SP_SPEED_MEAS
    let ref : Int := s.fld R.SP_REF F.SP_REF_REF
    let lim : Int := s.fld R.SP_THERM F.SP_THERM_LIM
    let pub : List Int := [meas * 64, ref * 64, current * 4096, ilim * 4096, roundDiv x.therm 256, lim * 128, 0, x.duty * 2048]
    let pubV := (List.finRange 16).map fun n => roundDiv ((s.sled n).v * 200) (2 ^ 13)
    { s with motion := { s.motion with pub := pub, pubV := pubV } }

/-- R221, R236. A waiting HD.OPEN proceeds once REF and the measured speed are at or below the CEIL of its claim: it
then needs READY and its first position, and seeds the channels. -/
def execClaimSatisfied (head : Fin 16) (s : State) : Result :=
  match (s.head head).opening, s.motion.waiting.lookup head.val with
  | some o, some u =>
    when (decide (o.stage = .claim) && claimMet s u) s <|
      let first : Int := match o.desc.mode with
        | .backstitch => 12 * (o.desc.start : Int) - 6 * o.desc.sigma + 5
        | _ => 12 * (o.desc.start : Int) + 5
      let near := match (s.head head).fly.expected with
        | some (_, t) => decide (((t : Int) - first).natAbs ≤ 12)
        | none => false
      if flyReady s head && near then
        s.modHead head fun h => { h with opening := h.opening.map fun o => { o with stage := .seeding } }
      else
        let s := (s.modHead head fun h => { h with opening := none }).dropOpenClaim head
        s.completeHead head o.who 4 0
  | _, _ => .next s

end Sys2Proof.Machine
end

