-- ==== Sys2Proof/Machine/Dispatch.lean ====
section
/-!
DEFINITION. Machine/Dispatch.lean: the meaning of each command, one arm per constructor of Instr.
-/

namespace Sys2Proof.Machine

def exec (i : Instr) (s : State) : Host.Outcome State Fault Refusal :=
  match i with
  | .registerWrite acc off val => Sys2Proof.Machine.execRegisterWrite acc off val s
  | .loRegisterRead acc off => Sys2Proof.Machine.execLoRegisterRead acc off s
  | .rwPairHiWrite acc off val => Sys2Proof.Machine.execRwPairHiWrite acc off val s
  | .refusedRegisterAccess fn off bytes write => Sys2Proof.Machine.execRefusedRegisterAccess fn off bytes write s
  | .unassignedOffsetAccess acc off write => Sys2Proof.Machine.execUnassignedOffsetAccess acc off write s
  | .outOfServiceBlockAccess acc off write => Sys2Proof.Machine.execOutOfServiceBlockAccess acc off write s
  | .msixVectorUnmask fn vec => Sys2Proof.Machine.execMsixVectorUnmask fn vec s
  | .pllLock => Sys2Proof.Machine.execPllLock s
  | .holdoverEntry => Sys2Proof.Machine.execHoldoverEntry s
  | .pllRelock => Sys2Proof.Machine.execPllRelock s
  | .distributionError isl prev sample => Sys2Proof.Machine.execDistributionError isl prev sample s
  | .eventsLostRecord src => Sys2Proof.Machine.execEventsLostRecord src s
  | .eventMergerArrival src => Sys2Proof.Machine.execEventMergerArrival src s
  | .eventMergerRelease => Sys2Proof.Machine.execEventMergerRelease s
  | .traceMergerRelease => Sys2Proof.Machine.execTraceMergerRelease s
  | .hemRequest head => Sys2Proof.Machine.execHemRequest head s
  | .hemWithdrawal head => Sys2Proof.Machine.execHemWithdrawal head s
  | .zoneWriteBackComplete head => Sys2Proof.Machine.execZoneWriteBackComplete head s
  | .hemComplete head => Sys2Proof.Machine.execHemComplete head s
  | .servoFrame head idx fwd bwd span => Sys2Proof.Machine.execServoFrame head idx fwd bwd span s
  | .servoFrameMissed head idx => Sys2Proof.Machine.execServoFrameMissed head idx s
  | .addressWord head => Sys2Proof.Machine.execAddressWord head s
  | .seamOpening head => Sys2Proof.Machine.execSeamOpening head s
  | .sectorAcquisitionStart head beam slot => Sys2Proof.Machine.execSectorAcquisitionStart head beam slot s
  | .syncSearchComplete sector => Sys2Proof.Machine.execSyncSearchComplete sector s
  | .hdFmtCfgWrite head val => Sys2Proof.Machine.execHdFmtCfgWrite head val s
  | .upFrame head pair arrival header blocks => Sys2Proof.Machine.execUpFrame head pair arrival header blocks s
  | .srfBlock head => Sys2Proof.Machine.execSrfBlock head s
  | .quadBlock head => Sys2Proof.Machine.execQuadBlock head s
  | .hkBlock head => Sys2Proof.Machine.execHkBlock head s
  | .statBlock head => Sys2Proof.Machine.execStatBlock head s
  | .capBlock head => Sys2Proof.Machine.execCapBlock head s
  | .replyBlock head arrival => Sys2Proof.Machine.execReplyBlock head arrival s
  | .feevBlock head => Sys2Proof.Machine.execFeevBlock head s
  | .d0FrameLaunch head => Sys2Proof.Machine.execD0FrameLaunch head s
  | .messageResend head => Sys2Proof.Machine.execMessageResend head s
  | .laneErrorWindowEnd head lane => Sys2Proof.Machine.execLaneErrorWindowEnd head lane s
  | .laneRetrainTimeout head lane => Sys2Proof.Machine.execLaneRetrainTimeout head lane s
  | .statTimeout head => Sys2Proof.Machine.execStatTimeout head s
  | .linkEnable head => Sys2Proof.Machine.execLinkEnable head s
  | .linkDisable head => Sys2Proof.Machine.execLinkDisable head s
  | .linkRetrain head => Sys2Proof.Machine.execLinkRetrain head s
  | .linkRealign head => Sys2Proof.Machine.execLinkRealign head s
  | .feSafeRequest head => Sys2Proof.Machine.execFeSafeRequest head s
  | .trainingReceiversAdapted head => Sys2Proof.Machine.execTrainingReceiversAdapted head s
  | .trainingAttemptTimeout head => Sys2Proof.Machine.execTrainingAttemptTimeout head s
  | .intervalCheckpoint head beam => Sys2Proof.Machine.execIntervalCheckpoint head beam s
  | .unpickTest head beam => Sys2Proof.Machine.execUnpickTest head beam s
  | .replayStart head => Sys2Proof.Machine.execReplayStart head s
  | .replayFinish head lane => Sys2Proof.Machine.execReplayFinish head lane s
  | .replayExpiry head => Sys2Proof.Machine.execReplayExpiry head s
  | .intervalRelease head beam => Sys2Proof.Machine.execIntervalRelease head beam s
  | .dropoutStart head beam stamp => Sys2Proof.Machine.execDropoutStart head beam stamp s
  | .dropoutEnd head beam stamp => Sys2Proof.Machine.execDropoutEnd head beam stamp s
  | .dropoutGuardEnd head beam => Sys2Proof.Machine.execDropoutGuardEnd head beam s
  | .zoneSeedReadDone head => Sys2Proof.Machine.execZoneSeedReadDone head s
  | .ingestSpill head => Sys2Proof.Machine.execIngestSpill head s
  | .ingestAdmissionStop head => Sys2Proof.Machine.execIngestAdmissionStop head s
  | .ingestShed head => Sys2Proof.Machine.execIngestShed head s
  | .firstPassBind eng buf bad => Sys2Proof.Machine.execFirstPassBind eng buf bad s
  | .firstPassStart eng bufErr => Sys2Proof.Machine.execFirstPassStart eng bufErr s
  | .firstPassIterationEnd eng => Sys2Proof.Machine.execFirstPassIterationEnd eng s
  | .deepStart eng bad => Sys2Proof.Machine.execDeepStart eng bad s
  | .deepIterationEnd eng => Sys2Proof.Machine.execDeepIterationEnd eng s
  | .twillJobStart => Sys2Proof.Machine.execTwillJobStart s
  | .twillJobEnd => Sys2Proof.Machine.execTwillJobEnd s
  | .spJobStart => Sys2Proof.Machine.execSpJobStart s
  | .spJobEnd => Sys2Proof.Machine.execSpJobEnd s
  | .decodeWorkArrival => Sys2Proof.Machine.execDecodeWorkArrival s
  | .dcOutConsWrite val => Sys2Proof.Machine.execDcOutConsWrite val s
  | .runAheadDiscardReport head layer band => Sys2Proof.Machine.execRunAheadDiscardReport head layer band s
  | .dcCntClear val => Sys2Proof.Machine.execDcCntClear val s
  | .dcBaseWrite ra lo hi => Sys2Proof.Machine.execDcBaseWrite ra lo hi s
  | .slotPayloadLate head track slot => Sys2Proof.Machine.execSlotPayloadLate head track slot s
  | .writeAbortAtHead head slots => Sys2Proof.Machine.execWriteAbortAtHead head slots s
  | .derateStale head => Sys2Proof.Machine.execDerateStale head s
  | .laserInterlock => Sys2Proof.Machine.execLaserInterlock s
  | .laserRearm head => Sys2Proof.Machine.execLaserRearm head s
  | .laserEnableWrite head enable => Sys2Proof.Machine.execLaserEnableWrite head enable s
  | .ceilingWrite head write val => Sys2Proof.Machine.execCeilingWrite head write val s
  | .ceilingLock head => Sys2Proof.Machine.execCeilingLock head s
  | .derateEnableWrite head val => Sys2Proof.Machine.execDerateEnableWrite head val s
  | .slotExecution slot memErr => Sys2Proof.Machine.execSlotExecution slot memErr s
  | .quadSetVisible head => Sys2Proof.Machine.execQuadSetVisible head s
  | .chevronOffsetArrival head => Sys2Proof.Machine.execChevronOffsetArrival head s
  | .dropoutFlagArrival head => Sys2Proof.Machine.execDropoutFlagArrival head s
  | .slotStateRequest via => Sys2Proof.Machine.execSlotStateRequest via s
  | .slotClearState via => Sys2Proof.Machine.execSlotClearState via s
  | .coefficientWrite via => Sys2Proof.Machine.execCoefficientWrite via s
  | .slotConfigWrite slot which val => Sys2Proof.Machine.execSlotConfigWrite slot which val s
  | .sequenceTimeout head => Sys2Proof.Machine.execSequenceTimeout head s
  | .seamJumpDeadline head => Sys2Proof.Machine.execSeamJumpDeadline head s
  | .traceModeWrite val => Sys2Proof.Machine.execTraceModeWrite val s
  | .traceFreeze => Sys2Proof.Machine.execTraceFreeze s
  | .sledIdle via => Sys2Proof.Machine.execSledIdle via s
  | .sledHold via => Sys2Proof.Machine.execSledHold via s
  | .sledMove via => Sys2Proof.Machine.execSledMove via s
  | .sledFollow via => Sys2Proof.Machine.execSledFollow via s
  | .sledHome via => Sys2Proof.Machine.execSledHome via s
  | .sledSoftstop via => Sys2Proof.Machine.execSledSoftstop via s
  | .sledStop via => Sys2Proof.Machine.execSledStop via s
  | .sledClearFault sled => Sys2Proof.Machine.execSledClearFault sled s
  | .sledTargetWrite sled val => Sys2Proof.Machine.execSledTargetWrite sled val s
  | .profileTick => Sys2Proof.Machine.execProfileTick s
  | .loadAngleWindow sled => Sys2Proof.Machine.execLoadAngleWindow sled s
  | .boostHoldExpiry sled => Sys2Proof.Machine.execBoostHoldExpiry sled s
  | .holdCurrentDelay sled => Sys2Proof.Machine.execHoldCurrentDelay sled s
  | .sledOverCurrent sled phase first second => Sys2Proof.Machine.execSledOverCurrent sled phase first second s
  | .switchEdge sled eot => Sys2Proof.Machine.execSwitchEdge sled eot s
  | .switchDebounceEnd sled eot asserted => Sys2Proof.Machine.execSwitchDebounceEnd sled eot asserted s
  | .bemfCrossing phase rising stamp => Sys2Proof.Machine.execBemfCrossing phase rising stamp s
  | .commutation => Sys2Proof.Machine.execCommutation s
  | .forcedCommutation => Sys2Proof.Machine.execForcedCommutation s
  | .lostRotorTimeout => Sys2Proof.Machine.execLostRotorTimeout s
  | .spindleStart via fltLow => Sys2Proof.Machine.execSpindleStart via fltLow s
  | .spindleStop via => Sys2Proof.Machine.execSpindleStop via s
  | .spindleDemandSet via => Sys2Proof.Machine.execSpindleDemandSet via s
  | .listenEnd => Sys2Proof.Machine.execListenEnd s
  | .brakeBurstEnd => Sys2Proof.Machine.execBrakeBurstEnd s
  | .alignEnd => Sys2Proof.Machine.execAlignEnd s
  | .openLoopCommutation => Sys2Proof.Machine.execOpenLoopCommutation s
  | .stopShortEnd => Sys2Proof.Machine.execStopShortEnd s
  | .spindleBridgeFault => Sys2Proof.Machine.execSpindleBridgeFault s
  | .spindleOverCurrent first second => Sys2Proof.Machine.execSpindleOverCurrent first second s
  | .spindleDemand demand => Sys2Proof.Machine.execSpindleDemand demand s
  | .sledDemand sled demand => Sys2Proof.Machine.execSledDemand sled demand s
  | .governorUpdate => Sys2Proof.Machine.execGovernorUpdate s
  | .thermalModelUpdate => Sys2Proof.Machine.execThermalModelUpdate s
  | .claimSatisfied head => Sys2Proof.Machine.execClaimSatisfied head s
  | .add b u => Sys2Proof.Machine.execAdd b u s
  | .sub b u => Sys2Proof.Machine.execSub b u s
  | .and b u => Sys2Proof.Machine.execAnd b u s
  | .or b u => Sys2Proof.Machine.execOr b u s
  | .xor b u => Sys2Proof.Machine.execXor b u s
  | .shl b u => Sys2Proof.Machine.execShl b u s
  | .shr b u => Sys2Proof.Machine.execShr b u s
  | .sar b u => Sys2Proof.Machine.execSar b u s
  | .mul b u => Sys2Proof.Machine.execMul b u s
  | .mulh b u => Sys2Proof.Machine.execMulh b u s
  | .min b u => Sys2Proof.Machine.execMin b u s
  | .max b u => Sys2Proof.Machine.execMax b u s
  | .addi b u => Sys2Proof.Machine.execAddi b u s
  | .andi b u => Sys2Proof.Machine.execAndi b u s
  | .ori b u => Sys2Proof.Machine.execOri b u s
  | .shi b u => Sys2Proof.Machine.execShi b u s
  | .cmp b u => Sys2Proof.Machine.execCmp b u s
  | .cmpiEq b u => Sys2Proof.Machine.execCmpiEq b u s
  | .cmpiLt b u => Sys2Proof.Machine.execCmpiLt b u s
  | .cmpiLtu b u => Sys2Proof.Machine.execCmpiLtu b u s
  | .pset b u => Sys2Proof.Machine.execPset b u s
  | .sel b u => Sys2Proof.Machine.execSel b u s
  | .bfx b u => Sys2Proof.Machine.execBfx b u s
  | .bfi b u => Sys2Proof.Machine.execBfi b u s
  | .cnt b u => Sys2Proof.Machine.execCnt b u s
  | .divu b u => Sys2Proof.Machine.execDivu b u s
  | .ldb b u => Sys2Proof.Machine.execLdb b u s
  | .ldh b u => Sys2Proof.Machine.execLdh b u s
  | .ldw b u => Sys2Proof.Machine.execLdw b u s
  | .ldd b u => Sys2Proof.Machine.execLdd b u s
  | .ldbs b u => Sys2Proof.Machine.execLdbs b u s
  | .ldhs b u => Sys2Proof.Machine.execLdhs b u s
  | .ldws b u => Sys2Proof.Machine.execLdws b u s
  | .stb b u => Sys2Proof.Machine.execStb b u s
  | .sth b u => Sys2Proof.Machine.execSth b u s
  | .stw b u => Sys2Proof.Machine.execStw b u s
  | .std b u => Sys2Proof.Machine.execStd b u s
  | .amo b u => Sys2Proof.Machine.execAmo b u s
  | .fence b u => Sys2Proof.Machine.execFence b u s
  | .br b u => Sys2Proof.Machine.execBr b u s
  | .call b u => Sys2Proof.Machine.execCall b u s
  | .jr b u => Sys2Proof.Machine.execJr b u s
  | .trap b u => Sys2Proof.Machine.execTrap b u s
  | .halt b u => Sys2Proof.Machine.execHalt b u s
  | .signal b u => Sys2Proof.Machine.execSignal b u s
  | .tbNow b u => Sys2Proof.Machine.execTbNow b u s
  | .tbLast b u => Sys2Proof.Machine.execTbLast b u s
  | .waitEv b u => Sys2Proof.Machine.execWaitEv b u s
  | .waitUntil b u => Sys2Proof.Machine.execWaitUntil b u s
  | .poll b u => Sys2Proof.Machine.execPoll b u s
  | .eventQueueEntry bobbin => Sys2Proof.Machine.execEventQueueEntry bobbin s
  | .eventQueueRelease bobbin => Sys2Proof.Machine.execEventQueueRelease bobbin s
  | .waitTimeout bobbin => Sys2Proof.Machine.execWaitTimeout bobbin s
  | .waitUntilReached bobbin => Sys2Proof.Machine.execWaitUntilReached bobbin s
  | .hdOpen b u => Sys2Proof.Machine.execHdOpen b u s
  | .hdHem b u => Sys2Proof.Machine.execHdHem b u s
  | .hdSeek b u => Sys2Proof.Machine.execHdSeek b u s
  | .seekStep head => Sys2Proof.Machine.execSeekStep head s
  | .seekAddressTimeout head => Sys2Proof.Machine.execSeekAddressTimeout head s
  | .hdFocus b u => Sys2Proof.Machine.execHdFocus b u s
  | .hdLjump b u => Sys2Proof.Machine.execHdLjump b u s
  | .hdTrkon b u => Sys2Proof.Machine.execHdTrkon b u s
  | .hdSjump b u => Sys2Proof.Machine.execHdSjump b u s
  | .hdSafe b u => Sys2Proof.Machine.execHdSafe b u s
  | .hdFewr b u => Sys2Proof.Machine.execHdFewr b u s
  | .hdFerd b u => Sys2Proof.Machine.execHdFerd b u s
  | .frontEndReplyTimeout head => Sys2Proof.Machine.execFrontEndReplyTimeout head s
  | .hdHk b u => Sys2Proof.Machine.execHdHk b u s
  | .hdStat b u => Sys2Proof.Machine.execHdStat b u s
  | .slPos b u => Sys2Proof.Machine.execSlPos b u s
  | .slReref b u => Sys2Proof.Machine.execSlReref b u s
  | .spStat b u => Sys2Proof.Machine.execSpStat b u s
  | .lpStat b u => Sys2Proof.Machine.execLpStat b u s
  | .dcSubmit b u => Sys2Proof.Machine.execDcSubmit b u s
  | .dcStat b u => Sys2Proof.Machine.execDcStat b u s
  | .mmXfer b u => Sys2Proof.Machine.execMmXfer b u s
  | .woGet b u => Sys2Proof.Machine.execWoGet b u s
  | .woDone b u => Sys2Proof.Machine.execWoDone b u s
  | .woAen b u => Sys2Proof.Machine.execWoAen b u s
  | .evLog b u => Sys2Proof.Machine.execEvLog b u s
  | .bobStart via => Sys2Proof.Machine.execBobStart via s
  | .bobHalt via => Sys2Proof.Machine.execBobHalt via s
  | .bobResume acc bobbin => Sys2Proof.Machine.execBobResume acc bobbin s
  | .bobbinHalted bobbin => Sys2Proof.Machine.execBobbinHalted bobbin s
  | .bobStat b u => Sys2Proof.Machine.execBobStat b u s
  | .capWr via => Sys2Proof.Machine.execCapWr via s
  | .controlStoreParityError b uaddr mask => Sys2Proof.Machine.execControlStoreParityError b uaddr mask s
  | .safePointOverrun b uaddr => Sys2Proof.Machine.execSafePointOverrun b uaddr s
  | .patchLoad image => Sys2Proof.Machine.execPatchLoad image s
  | .patchReload => Sys2Proof.Machine.execPatchReload s
  | .csTestWrite rom => Sys2Proof.Machine.execCsTestWrite rom s
  | .mcAddrClear => Sys2Proof.Machine.execMcAddrClear s
  | .sqTailDoorbell fn qid tail => Sys2Proof.Machine.execSqTailDoorbell fn qid tail s
  | .cqHeadDoorbell fn qid head => Sys2Proof.Machine.execCqHeadDoorbell fn qid head s
  | .commandFetch entry data walk => Sys2Proof.Machine.execCommandFetch entry data walk s
  | .rangeLockGrant slot idx => Sys2Proof.Machine.execRangeLockGrant slot idx s
  | .writeDataArrived slot data => Sys2Proof.Machine.execWriteDataArrived slot data s
  | .workOrderIssue slot => Sys2Proof.Machine.execWorkOrderIssue slot s
  | .completionPost slot => Sys2Proof.Machine.execCompletionPost slot s
  | .snipRequest fn sqid cid => Sys2Proof.Machine.execSnipRequest fn sqid cid s
  | .snipResolve fn => Sys2Proof.Machine.execSnipResolve fn s
  | .controllerReset fn => Sys2Proof.Machine.execControllerReset fn s
  | .controllerEnable fn cc => Sys2Proof.Machine.execControllerEnable fn cc s
  | .functionLevelReset fn => Sys2Proof.Machine.execFunctionLevelReset fn s
  | .shutdownNormal fn => Sys2Proof.Machine.execShutdownNormal fn s
  | .shutdownAbrupt fn => Sys2Proof.Machine.execShutdownAbrupt fn s
  | .shutdownComplete fn => Sys2Proof.Machine.execShutdownComplete fn s
  | .firmwareActivationStart => Sys2Proof.Machine.execFirmwareActivationStart s
  | .activationDrainDeadline => Sys2Proof.Machine.execActivationDrainDeadline s
  | .firmwareActivationResume => Sys2Proof.Machine.execFirmwareActivationResume s
  | .configRequest req => Sys2Proof.Machine.execConfigRequest req s
  | .nvmeMiBasicCommand code => Sys2Proof.Machine.execNvmeMiBasicCommand code s
  | .deleteIoSq entry => Sys2Proof.Machine.execDeleteIoSq entry s
  | .deleteIoCq entry => Sys2Proof.Machine.execDeleteIoCq entry s
  | .createIoSq entry => Sys2Proof.Machine.execCreateIoSq entry s
  | .createIoCq entry => Sys2Proof.Machine.execCreateIoCq entry s
  | .getLogPage entry walk => Sys2Proof.Machine.execGetLogPage entry walk s
  | .identify entry walk => Sys2Proof.Machine.execIdentify entry walk s
  | .abort entry => Sys2Proof.Machine.execAbort entry s
  | .setFeatures entry => Sys2Proof.Machine.execSetFeatures entry s
  | .getFeatures entry => Sys2Proof.Machine.execGetFeatures entry s
  | .asynchronousEventRequest entry => Sys2Proof.Machine.execAsynchronousEventRequest entry s
  | .namespaceManagement entry data walk => Sys2Proof.Machine.execNamespaceManagement entry data walk s
  | .namespaceAttachment entry data walk => Sys2Proof.Machine.execNamespaceAttachment entry data walk s
  | .firmwareImageDownload entry data walk => Sys2Proof.Machine.execFirmwareImageDownload entry data walk s
  | .firmwareCommit entry => Sys2Proof.Machine.execFirmwareCommit entry s
  | .firmwareCommitWriteDone upset => Sys2Proof.Machine.execFirmwareCommitWriteDone upset s
  | .formatNvm entry => Sys2Proof.Machine.execFormatNvm entry s
  | .securitySend entry data walk => Sys2Proof.Machine.execSecuritySend entry data walk s
  | .securityReceive entry walk => Sys2Proof.Machine.execSecurityReceive entry walk s
  | .flush entry => Sys2Proof.Machine.execFlush entry s
  | .write entry walk => Sys2Proof.Machine.execWrite entry walk s
  | .read entry walk => Sys2Proof.Machine.execRead entry walk s
  | .datasetManagement entry data walk => Sys2Proof.Machine.execDatasetManagement entry data walk s
  | .verify entry => Sys2Proof.Machine.execVerify entry s
  | .sequencerCall entry walk => Sys2Proof.Machine.execSequencerCall entry walk s
  | .cartridgeLoad entry => Sys2Proof.Machine.execCartridgeLoad entry s
  | .mediumHealthReport entry walk => Sys2Proof.Machine.execMediumHealthReport entry walk s
  | .cartridgeRelease entry => Sys2Proof.Machine.execCartridgeRelease entry s
  | .deferredApply => Sys2Proof.Machine.execDeferredApply s
  | .seal count => Sys2Proof.Machine.execSeal count s
  | .commit batch => Sys2Proof.Machine.execCommit batch s
  | .abandon batch => Sys2Proof.Machine.execAbandon batch s
  | .replayEnd => Sys2Proof.Machine.execReplayEnd s
  | .splitCommit batch count => Sys2Proof.Machine.execSplitCommit batch count s
  | .journalDurable seq => Sys2Proof.Machine.execJournalDurable seq s
  | .chainApply => Sys2Proof.Machine.execChainApply s
  | .memoryRead cls addr len => Sys2Proof.Machine.execMemoryRead cls addr len s
  | .memoryWrite cls addr bytes => Sys2Proof.Machine.execMemoryWrite cls addr bytes s
  | .eccWriteBack => Sys2Proof.Machine.execEccWriteBack s
  | .refresh sub ingestWaits => Sys2Proof.Machine.execRefresh sub ingestWaits s
  | .mr4Read sub value => Sys2Proof.Machine.execMr4Read sub value s
  | .activateTableClear => Sys2Proof.Machine.execActivateTableClear s
  | .neighbourRefresh sub bank row drfm => Sys2Proof.Machine.execNeighbourRefresh sub bank row drfm s
  | .pageIdlePrecharge sub bank => Sys2Proof.Machine.execPageIdlePrecharge sub bank s
  | .patrolScrubRead => Sys2Proof.Machine.execPatrolScrubRead s
  | .eccEraseWrite val => Sys2Proof.Machine.execEccEraseWrite val s
  | .eccCountClear val => Sys2Proof.Machine.execEccCountClear val s
  | .flipArm lo hi => Sys2Proof.Machine.execFlipArm lo hi s
  | .memoryEnable val => Sys2Proof.Machine.execMemoryEnable val s
  | .mrw scmask mr data => Sys2Proof.Machine.execMrw scmask mr data s
  | .mrr scmask mr answer => Sys2Proof.Machine.execMrr scmask mr answer s
  | .mpc scmask op => Sys2Proof.Machine.execMpc scmask op s
  | .prechargeAll scmask => Sys2Proof.Machine.execPrechargeAll scmask s
  | .refreshAll scmask => Sys2Proof.Machine.execRefreshAll scmask s
  | .patternRun scmask bursts errs => Sys2Proof.Machine.execPatternRun scmask bursts errs s
  | .sweepStart => Sys2Proof.Machine.execSweepStart s
  | .sweepEnd failMask codes => Sys2Proof.Machine.execSweepEnd failMask codes s
  | .frequencyChangeRequest target => Sys2Proof.Machine.execFrequencyChangeRequest target s
  | .frequencyChangeDone => Sys2Proof.Machine.execFrequencyChangeDone s
  | .bandgapCompare dev => Sys2Proof.Machine.execBandgapCompare dev s
  | .calibrationSlots z r => Sys2Proof.Machine.execCalibrationSlots z r s
  | .calibrationCopy => Sys2Proof.Machine.execCalibrationCopy s
  | .calibrationSlew => Sys2Proof.Machine.execCalibrationSlew s
  | .adcTargetWrite c val => Sys2Proof.Machine.execAdcTargetWrite c val s
  | .comparatorTrim => Sys2Proof.Machine.execComparatorTrim s
  | .comparatorTrimDone rise fall => Sys2Proof.Machine.execComparatorTrimDone rise fall s
  | .temperatureReport readings => Sys2Proof.Machine.execTemperatureReport readings s
  | .bootVerify => Sys2Proof.Machine.execBootVerify s
  | .bootConfigApply => Sys2Proof.Machine.execBootConfigApply s
  | .bootBobbinsStart => Sys2Proof.Machine.execBootBobbinsStart s
  | .hostReadySet => Sys2Proof.Machine.execHostReadySet s
  | .floorCommit => Sys2Proof.Machine.execFloorCommit s
  | .revoke slot => Sys2Proof.Machine.execRevoke slot s
  | .debugUnlockSubmit => Sys2Proof.Machine.execDebugUnlockSubmit s
  | .doeDiscovery fn index => Sys2Proof.Machine.execDoeDiscovery fn index s
  | .getVersion via msg => Sys2Proof.Machine.execGetVersion via msg s
  | .getCapabilities via msg => Sys2Proof.Machine.execGetCapabilities via msg s
  | .negotiateAlgorithms via msg => Sys2Proof.Machine.execNegotiateAlgorithms via msg s
  | .getDigests via msg => Sys2Proof.Machine.execGetDigests via msg s
  | .getCertificate via msg => Sys2Proof.Machine.execGetCertificate via msg s
  | .challenge via msg => Sys2Proof.Machine.execChallenge via msg s
  | .getMeasurements via msg => Sys2Proof.Machine.execGetMeasurements via msg s
  | .keyExchange via msg => Sys2Proof.Machine.execKeyExchange via msg s
  | .finish via sid msg => Sys2Proof.Machine.execFinish via sid msg s
  | .heartbeat via sid msg => Sys2Proof.Machine.execHeartbeat via sid msg s
  | .keyUpdate via sid msg => Sys2Proof.Machine.execKeyUpdate via sid msg s
  | .endSession via sid msg => Sys2Proof.Machine.execEndSession via sid msg s
  | .powerOnReset => Sys2Proof.Machine.execPowerOnReset s
  | .warmReset => Sys2Proof.Machine.execWarmReset s
  | .domainPowerUp dom levels => Sys2Proof.Machine.execDomainPowerUp dom levels s
  | .domainPowerCheck dom good => Sys2Proof.Machine.execDomainPowerCheck dom good s
  | .supplyGroupWaitTimeout group => Sys2Proof.Machine.execSupplyGroupWaitTimeout group s
  | .domainPowerRetry dom => Sys2Proof.Machine.execDomainPowerRetry dom s
  | .supplyGroupLost group => Sys2Proof.Machine.execSupplyGroupLost group s
  | .headIsolate n => Sys2Proof.Machine.execHeadIsolate n s
  | .headDomainPowerLost n => Sys2Proof.Machine.execHeadDomainPowerLost n s
  | .headIsolationDeadline n => Sys2Proof.Machine.execHeadIsolationDeadline n s
  | .headPower n => Sys2Proof.Machine.execHeadPower n s
  | .evRptrWrite val => Sys2Proof.Machine.execEvRptrWrite val s
  | .evAttnWrite val => Sys2Proof.Machine.execEvAttnWrite val s
  | .attnClear => Sys2Proof.Machine.execAttnClear s
  | .journalReplayStart => Sys2Proof.Machine.execJournalReplayStart s
  | .upFrameMissing head lane fcnt => Sys2Proof.Machine.execUpFrameMissing head lane fcnt s
  | .chopperSample sled rawA rawB => Sys2Proof.Machine.execChopperSample sled rawA rawB s
  | .pwmPeriod current => Sys2Proof.Machine.execPwmPeriod current s
  | .laserInhRelease => Sys2Proof.Machine.execLaserInhRelease s
  | .noImageFillDone => Sys2Proof.Machine.execNoImageFillDone s
  | .perstNRelease => Sys2Proof.Machine.execPerstNRelease s
  | .interruptCoalescingTime fn qid => Sys2Proof.Machine.execInterruptCoalescingTime fn qid s
  | .pcieDmaError slot => Sys2Proof.Machine.execPcieDmaError slot s

end Sys2Proof.Machine
end

