-- ==== Sys2Proof/Machine/Pins.lean ====
section
/-!
DEFINITION. Machine/Pins.lean: what the balls of the SX16 show, computed from the state (R14, R56, R199, R208, R364, R366): the
forwarded sample clocks, HD_LEN, D0, the bridges of the sleds and of the spindle, DDR_RESET_N and the TAP.
-/

namespace Sys2Proof.Machine

/-! ## The forwarded sample clock (R14, R56, R366) -/

/-- The pair HD_SCLK_P, HD_SCLK_M. -/
structure ClockPins where
  p : Bool
  m : Bool
  deriving DecidableEq, Repr

/-- The static state: P low and M high, driven (Table 18-13). -/
def ClockPins.static : ClockPins := ⟨false, true⟩

/-- Forwarded clock n of a head in service runs from step 1 of its link's training (R56, R78, R366). -/
def State.clockRuns (s : State) (n : Fin 16) : Bool := s.headInService n.val && (s.head n).link.clock

/-- The pair in a tick: 187.5 MHz, high for the first four of each eight ticks, so that a rising edge falls on each multiple
of 8 (R56), or static. -/
def State.clockPins (s : State) (n : Fin 16) : ClockPins :=
  if s.clockRuns n then ⟨decide (s.now % 8 < 4), decide (4 ≤ s.now % 8)⟩ else ClockPins.static

/-- A rising edge of forwarded clock n is launched in this tick (R56). -/
def State.clockEdge (s : State) (n : Fin 16) : Bool := s.clockRuns n && s.now % 8 == 0

/-! ## The link (R80, R366) -/

/-- What ball pair D0 of a head carries. -/
inductive D0Pins where
  | idle
  /-- PRBS31 of step 1 of a training -/
  | prbs31
  | frames
  deriving DecidableEq, Repr

/-- D0 of a head: PRBS31 while a training tells its receivers so, frames in any other state of a link that is on, and
electrical idle of a head that is out of service or whose link is DOWN. -/
def State.d0Pins (s : State) (n : Fin 16) : D0Pins :=
  let l := (s.head n).link
  if !s.headInService n.val || l.state == .down then .idle
  else if l.prbs then .prbs31
  else .frames

/-! ## The bridges -/

/-- A pair of bridge inputs, first pin first (R199). -/
def pinPair (bridge : Nat) : Bool × Bool := (testBitN bridge 1, testBitN bridge 0)

/-- The bridges may drive: the first copy of the sense coefficients has been made (R326, Table 17-8). -/
def State.bridgesOn (s : State) : Bool := s.cal.copied

/-- SL_GA1, SL_GA2 and SL_GB1, SL_GB2 of a sled; both 0,0 on a head that was never populated (R14, R199), and until the bridges
may drive. -/
def State.sledPins (s : State) (n : Fin 16) : (Bool × Bool) × (Bool × Bool) :=
  if s.headPopulated n.val && s.bridgesOn then (pinPair (s.sled n).chopA.bridge, pinPair (s.sled n).chopB.bridge)
  else ((false, false), (false, false))

/-- What the spindle bridge does: every gate low, all three low sides on, or the high side of one phase at a duty with the low
side of another on (0 U, 1 V, 2 W), under the PWM period and the dead time in motor cycles. -/
inductive SpindleDrive where
  | off
  | short
  | sector (high low : Nat) (duty : Nat) (period dead : Nat)
  deriving DecidableEq, Repr

/-- The phases of a sector: high side, low side (Table 9-4). -/
def sectorPhases : Nat → Nat × Nat
  | 0 => (0, 1) | 1 => (0, 2) | 2 => (1, 2) | 3 => (1, 0) | 4 => (2, 0) | _ => (2, 1)

/-- The spindle bridge (R208, R211 to R217): driven while it commutates or aligns, shorted in a braking burst and in the final
short unless the current has released it, and floating otherwise. -/
def State.spindleDrive (s : State) : SpindleDrive :=
  let x := s.motion.spin
  let drive := let (h, l) := sectorPhases x.sector
    SpindleDrive.sector h l x.duty (s.fld R.SP_PWM F.SP_PWM_PERIOD) (s.fld R.SP_PWM F.SP_PWM_DEAD)
  if !s.bridgesOn then .off
  else match x.st, x.stage with
  | .run, _ | .align, _ | .openLoop, _ | .stopping, .ramp => drive
  | .brake, .burst | .stopping, .burst | .stopping, .short => if x.released then .off else .short
  | _, _ => .off

/-! ## The memory's reset (R366) -/

/-- DDR_RESET_N of every subchannel: low until training starts, which the sweep does as the memory island comes up (R348). -/
def State.ddrResetN (s : State) : Bool := s.domainOn 17

/-! ## The TAP (R344, R364) -/

/-- The TAP answers more than BYPASS: DBG[0] grants JTAG (R344). -/
def State.jtagOpen (s : State) : Bool := testBitN (s.fld R.SEC_STATUS F.SEC_STATUS_DBG) 0

/-- The instruction in force for one that is shifted in: without the unlock the TAP offers BYPASS only (Table 18-11). -/
def State.tapInstruction (s : State) (asked bypass : Nat) : Nat := if s.jtagOpen then asked else bypass

/-- JTAG_TDO, for the bit that the selected register would shift out: without the unlock it stays high (Table 18-11). -/
def State.tdo (s : State) (bit : Bool) : Bool := !s.jtagOpen || bit

end Sys2Proof.Machine
end

