-- ==== Sys2Proof/Safety.lean ====
section
/-!
DEFINITION. Safety.lean: the terms in which the claims speak of whole states: the parts of a state, what a change leaves alone,
and when a state is sound.
-/

namespace Sys2Proof.Machine

/-- The parts of the state, one per field. -/
inductive Part where
  | time | events | regs | latches | heldLo | msix | domains | boot | pins | heads | decode | loop | seq | mem | motion | host
  | cal | sec | out | free | pending
  deriving DecidableEq, Repr

/-- A part of the state is the same in both. -/
def Part.same (p : Part) (s t : State) : Prop :=
  match p with
  | .time => t.time = s.time
  | .events => t.events = s.events
  | .regs => t.regs = s.regs
  | .latches => t.latches = s.latches
  | .heldLo => t.heldLo = s.heldLo
  | .msix => t.msix = s.msix
  | .domains => t.domains = s.domains
  | .boot => t.boot = s.boot
  | .pins => t.pins = s.pins
  | .heads => t.heads = s.heads
  | .decode => t.decode = s.decode
  | .loop => t.loop = s.loop
  | .seq => t.seq = s.seq
  | .mem => t.mem = s.mem
  | .motion => t.motion = s.motion
  | .host => t.host = s.host
  | .cal => t.cal = s.cal
  | .sec => t.sec = s.sec
  | .out => t.out = s.out
  | .free => t.free = s.free
  | .pending => t.pending = s.pending

/-- Every part but the ones listed is the same in both states. -/
def Frame (parts : List Part) (s t : State) : Prop := ∀ p : Part, p ∉ parts → p.same s t

/-- The registers are in canonical form. -/
def regsWf (s : State) : Bool := storeWf regReset s.regs

/-- A sound state: registers and buffer memory in canonical form, and a time base of 64 bits. -/
abbrev Sound (s : State) : Prop := regsWf s = true ∧ Memory.wf s.mem = true ∧ s.time.tb < stampModulus

/-- Every register but those with the listed keys reads the same in both states. -/
def RegsBut (keys : List Nat) (s t : State) : Prop := ∀ k : Nat, k ∉ keys → t.reg k = s.reg k

/-- Every head but one is the same in both states. -/
abbrev HeadsBut (n : Fin 16) (s t : State) : Prop := ∀ m : Fin 16, m ≠ n → t.head m = s.head m

/-- A head with nothing in progress: no pass, open, seek or front-end instruction, no sequence of its loop engine, HD_LEN low. -/
abbrev HeadIdle (s : State) (n : Fin 16) : Prop :=
  (s.head n).pass = none ∧ (s.head n).opening = none ∧ (s.head n).seek = none ∧ (s.head n).fe = [] ∧
    (s.loopHead n).seq = none ∧ s.hdLen n = false

/-- Bobbin b is at a legal instruction i whose guard lets it run, with its word read clean. -/
abbrev Issues (s : State) (b : Fin 24) (u : Upset) (i : Ins) : Prop :=
  s.canIssue b = true ∧ fetchIns s (s.bob b).pc = (i, true) ∧ i.legal = true ∧ (s.bob b).pred i.pg ≠ i.pn ∧ u ≠ .fetch

/-- A bobbin past an instruction: READY, its PC at the next one, to issue again four ticks later (R223). -/
def Bobbin.past (x : Bobbin) (i : Ins) (now : Stamp) : Bobbin :=
  { x with st := .ready, stall := none, pc := i.next, nextIssue := now + 4 }

/-- What the sequencer holds beside bobbin b is the same in both states. -/
abbrev Elsewhere (b : Fin 24) (s t : State) : Prop :=
  (∀ c : Fin 24, c ≠ b → t.bob c = s.bob c) ∧ t.seq.shared = s.seq.shared ∧ t.seq.prog = s.seq.prog ∧
    t.seq.banks = s.seq.banks ∧ t.seq.inject = s.seq.inject

/-- Bobbin b becomes x, and of the rest of the sequencer and the registers only its count of issued instructions changes. -/
def Becomes (b : Fin 24) (x : Bobbin) (s t : State) : Prop :=
  t.bob b = x ∧ Elsewhere b s t ∧ RegsBut [R.SQ_BOB_ISSUED b.val] s t

/-- An instruction writes a value into rd, or a truth value into pd, and nothing else. -/
def WritesRd (b : Fin 24) (i : Ins) (v : DWord) (s t : State) : Prop :=
  Becomes b (((s.bob b).past i s.now).put i.rd v) s t
def WritesPd (b : Fin 24) (i : Ins) (v : Bool) (s t : State) : Prop :=
  Becomes b (((s.bob b).past i s.now).putPred i.rd v) s t

/-- The operands of an instruction as Tables 10-3 and 10-4 give them: ra, rb or the long form's word, and the immediates. -/
def valA (s : State) (b : Fin 24) (i : Ins) : DWord := (s.bob b).get i.ra
def valB (s : State) (b : Fin 24) (i : Ins) : DWord :=
  match i.ext with
  | none => (s.bob b).get i.rb
  | some e => if i.op = 2 ∨ i.op = 3 ∨ i.op = 4 then BitVec.ofNat 64 e else (BitVec.ofNat 32 e).signExtend 64
def immSigned (i : Ins) : DWord :=
  match i.ext with
  | none => (BitVec.ofNat 10 i.imm).signExtend 64
  | some e => (BitVec.ofNat 32 e).signExtend 64
def immPlain (i : Ins) : DWord := BitVec.ofNat 64 (i.ext.getD i.imm)

/-- Bobbin b takes an exception at instruction i (R242): it is excepted with its PC at the instruction, the code and the PC stand
in SQ_BOB_EXC with the stamp in the pair beside it, and event 0x6001 is logged. -/
def Excepts (b : Fin 24) (i : Ins) (code last : Nat) (s t : State) : Prop :=
  t.bob b = { (s.bob b).past i s.now with st := .exception, pc := i.pc, wait := none, haltReq := none } ∧ Elsewhere b s t ∧
    t.fld (R.SQ_BOB_EXC b.val) F.SQ_BOB_EXC_CODE = code ∧ t.fld (R.SQ_BOB_EXC b.val) F.SQ_BOB_EXC_PC = i.pc % 65536 ∧
    RegsBut [R.SQ_BOB_ISSUED b.val, R.SQ_BOB_EXC b.val, R.SQ_BOB_EXC_LO b.val, R.SQ_BOB_EXC_HI b.val] s t ∧
    t.events = (s.logSeq 0x6001 b.val code i.pc last).events

/-- An asynchronous instruction of bobbin b starts (R229): its tag in rd, its place in the event queue reserved. -/
def Starts (b : Fin 24) (i : Ins) (s t : State) : Prop :=
  Becomes b { ((s.bob b).past i s.now).put i.rd (BitVec.ofNat 64 ((s.bob b).nextTag b.val)) with
    outst := (s.bob b).nextTag b.val :: (s.bob b).outst, tagCount := (s.bob b).nextTag b.val % 1024 } s t

/-- The address of a load or store: ra plus the immediate, modulo 2^64 (R225). -/
def addrOf (s : State) (b : Fin 24) (i : Ins) : Nat := (valA s b i + immSigned i).toNat

/-- A bobbin that waits for a load's result: 6 cycles for shared scratch, 4 for program memory (Table 10-2). -/
def Bobbin.waits (x : Bobbin) (p : Space) (now : Stamp) : Bobbin :=
  match p with
  | .shared _ => { x with st := .stalled, stall := some (.busy (now + 12)) }
  | .prog _ => { x with st := .stalled, stall := some (.busy (now + 8)) }
  | _ => x

/-- A load of n bytes from a place that is no register puts v into rd. -/
def Loads (b : Fin 24) (i : Ins) (p : Space) (v : DWord) (s t : State) : Prop :=
  Becomes b ((((s.bob b).past i s.now).put i.rd v).waits p s.now) s t

/-- A byte of a scratch. -/
def byteAt (l : List (Nat × Byte)) (a : Nat) : Byte := storeGet zeroByte a l

/-- A store of the low n bytes of v, least significant first, to bytes o and up of a scratch: every byte of either scratch reads
as stored, or as before. -/
def Stores (b : Fin 24) (i : Ins) (p : Space) (n : Nat) (v : DWord) (s t : State) : Prop :=
  t.bob b = { (s.bob b).past i s.now with scratch := (t.bob b).scratch } ∧
  (∀ a : Nat, byteAt (t.bob b).scratch a = match p with
    | .scratch o => if o ≤ a ∧ a < o + n then (v >>> (8 * (a - o))).setWidth 8 else byteAt (s.bob b).scratch a
    | _ => byteAt (s.bob b).scratch a) ∧
  (∀ a : Nat, byteAt t.seq.shared a = match p with
    | .shared o => if o ≤ a ∧ a < o + n then (v >>> (8 * (a - o))).setWidth 8 else byteAt s.seq.shared a
    | _ => byteAt s.seq.shared a) ∧
  (∀ c : Fin 24, c ≠ b → t.bob c = s.bob c) ∧ t.seq.prog = s.seq.prog ∧ RegsBut [R.SQ_BOB_ISSUED b.val] s t

/-- Who waits for it. -/
def waiterOf (s : State) (b : Fin 24) : Waiter := ⟨b, (s.bob b).nextTag b.val, (s.bob b).epoch⟩

/-- A head instruction's checks hold for head n: capability, operand, head, service (R232, R234). -/
abbrev AimsAt (s : State) (b : Fin 24) (i : Ins) (fam : Nat) (n : Fin 16) : Prop :=
  s.capBit b fam = true ∧ (valA s b i).toNat = n.val ∧ s.capBit b (16 + n.val) = true ∧ s.headInService n.val = true

/-- A bobbin other than through its event queue is the same in both states. -/
def OnlyHears (c : Fin 24) (s t : State) : Prop := t.bob c = { s.bob c with arriving := (t.bob c).arriving }

/-- An asynchronous instruction of bobbin b starts: as `Starts`, where the rest of the machine may also change, and where
entries may leave for the event queues at once. -/
def Tagged (b : Fin 24) (i : Ins) (s t : State) : Prop :=
  t.bob b = { ((s.bob b).past i s.now).put i.rd (BitVec.ofNat 64 ((s.bob b).nextTag b.val)) with
    outst := (s.bob b).nextTag b.val :: (s.bob b).outst, tagCount := (s.bob b).nextTag b.val % 1024, arriving := (t.bob b).arriving } ∧
  (∀ c : Fin 24, c ≠ b → OnlyHears c s t) ∧ t.seq.shared = s.seq.shared ∧ t.seq.prog = s.seq.prog

/-- An entry leaves for the event queue of one bobbin, and nothing else of any bobbin changes. -/
def Posts (b : Fin 24) (e : EvEntry) (s t : State) : Prop :=
  t.bob b = { s.bob b with arriving := (s.bob b).arriving ++ [e] } ∧ Elsewhere b s t

/-- A completion entry of head n for a waiter (R229, R234). -/
def headEntry (s : State) (n : Fin 16) (w : Waiter) (result data : Nat) : EvEntry :=
  ⟨s.stamp (.head n), w.tag, .device, result, data % 2 ^ 32, n.val, w.epoch, false⟩

/-- The number of 8-byte words that an access of len bytes at a touches, and the address of the k-th of them. -/
def wordsOf (a len : Nat) : Nat := if len = 0 then 0 else (a + len - 1) / 8 - a / 8 + 1

/-- Buffer memory is in service, holds the access, and every word of it decodes as clean (R304, R311). -/
abbrev WordsClean (s : State) (a len : Nat) : Prop :=
  s.memOn = true ∧ a + len ≤ s.memSize ∧
    ∀ k ∈ List.range (wordsOf a len), (a / 8 + k) * 8 + 8 ≤ s.memSize ∧
      (decodeWord (s.erasedDevice (s.memSub ((a / 8 + k) * 8))) (s.memSymbols ((a / 8 + k) * 8))).1 = .clean

/-- An order as the decode island accepts it: with the twill step of the head and band that it names (R131). -/
def acceptedWork (s : State) (w : DecWork) : DecWork :=
  { w with d := twillStep (fmtU (s.reg (R.HD_FMT_CFG (fieldAt w.bytes 4 2 % 16))).toNat (natBits (fieldAt w.bytes 0 4) 27 9 / 12)) }

/-- A response has left on its transport: a mailbox has sent it, or it waits for a Security Receive. -/
def Answered (via : Transport) (code : Nat) (bytes : List Nat) (s t : State) : Prop :=
  match via with
  | .doe _ => t.out = .spdm via.code code bytes :: s.out ∧ t.sec.replies = s.sec.replies
  | .secProto fn => t.sec.replies = s.sec.replies ++ [(fn.val, code, bytes)] ∧ t.out = s.out

/-- The part of the certificate chain that GET_CERTIFICATE asks for by offset and length (R341, R342). -/
def certPart (s : State) (msg : List Byte) : List Nat := (s.certChain.drop (msgNat msg 4 2)).take (msgNat msg 6 2)

/-- An answer with the identity key's signature over the request and the answer (R342). -/
def signedBy (msg : List Byte) (bytes : List Nat) : List Nat := bytes ++ ofByteList (Config.identitySign (msg ++ toBytes bytes))

/-- Bobbin b at an MM.XFER instruction i whose block in shared scratch at offset o names a source or pattern, a destination and a
length that the instruction accepts (R234). -/
abbrev XferArgs (s : State) (b : Fin 24) (i : Ins) (o src dst len : Nat) : Prop :=
  i.op = 0x70 ∧ s.capBit b famMM = true ∧ (valA s b i).toNat = 0x100000 + o ∧ o + 24 ≤ 0x100000 ∧
    fieldAt (scratchBytes s.seq.shared o 24) 0 8 = src ∧ fieldAt (scratchBytes s.seq.shared o 24) 8 8 = dst ∧
    fieldAt (scratchBytes s.seq.shared o 24) 16 4 = len ∧ len % 8 = 0 ∧ len ≤ 2 ^ 24

/-- The completion entry of a transfer. -/
def xferEntry (s : State) (b : Fin 24) (result : Nat) : EvEntry :=
  ⟨s.stamp .memory, (s.bob b).nextTag b.val, .device, result, 0, srcMemory, (s.bob b).epoch, false⟩

/-- The stamp that the next fetch takes: greater than that of every fetch before (R267). -/
def State.fetchStamp (s : State) : Stamp := max (s.stamp .host) (s.host.lastFetch + 1)

/-- Entry e at the head of queue q is what the queue engine fetches next, into a slot: an entry of the admin or the I/O set with
this opcode, which passes the checks of R267; no command outstanding and no claim of a run-ahead band has the stamp it takes. -/
abbrev Fetching (s : State) (admin : Bool) (opcode : Nat) (e : SqEntry) (data : List Byte) (walk : PtrWalk) (q : SubQ)
    (slot : Nat) : Prop :=
  s.nextQueue.map (·.1) = some q ∧ (q.qid == 0) = admin ∧ e.opcode.val = opcode ∧ s.freeSlot admin = some slot ∧
    s.fetchFault q.fn admin e (data.map (·.toNat)) walk = none ∧ s.cmdOf s.fetchStamp = none ∧
    (∀ r ∈ s.decode.runAhead, r.claim ≠ some s.fetchStamp)

/-- The command that the fetch of e makes. -/
def fetchedCmd (s : State) (e : SqEntry) (data : List Byte) (q : SubQ) (slot : Nat) : HostCmd :=
  e.command q slot s.fetchStamp ((commandKind (q.qid == 0) e.opcode.val).getD .admin) (data.map (·.toNat))

/-- A command with its completion decided at a place in the order of deciding. -/
def HostCmd.concluded (c : HostCmd) (status dw0 : Nat) (bytes : List Nat) (seq : Nat) : HostCmd :=
  { c with decided := some ⟨status, dw0, bytes, seq⟩ }

/-- A fetch has taken c from queue q: c stands after the other commands, its stamp is the last fetch's, the queue's head has moved
by one entry, and HC_FETCH_CNT has counted it (R266, R267). -/
def Fetched (c : HostCmd) (q : SubQ) (s t : State) : Prop :=
  t.host.cmds = s.host.cmds ++ [c] ∧ t.host.lastFetch = s.fetchStamp ∧
    (t.sq q.fn q.qid).map (·.head) = (s.sq q.fn q.qid).map (fun x => (x.head + 1) % x.size) ∧
    t.fld (fnKey q.fn R.HC_FETCH_CNT) F.HC_FETCH_CNT_FETCHED =
      satAdd (2 ^ F.HC_FETCH_CNT_FETCHED.width - 1) (s.fld (fnKey q.fn R.HC_FETCH_CNT) F.HC_FETCH_CNT_FETCHED) 1

/-- The queues after the fetch of one entry of queue q. -/
def advanced (q : SubQ) (l : List SubQ) : List SubQ :=
  l.map fun x => if x.fn = q.fn ∧ x.qid = q.qid then { x with head := (x.head + 1) % x.size } else x

/-- A package passed its verification (R333). -/
def verified (r : Except (Nat × Nat) Package) : Bool :=
  match r with
  | .ok _ => true
  | .error _ => false

/-- The completion of the command with a stamp is decided with this status and dword 0. -/
def Decides (stamp : Stamp) (status dw0 : Nat) (t : State) : Prop :=
  ((t.cmdOf stamp).bind (·.decided)).map (fun d => (d.status, d.dw0)) = some (status, dw0)

/-- A command's order is out: bobbin b has taken it, its completion is open, and no snip request waits that has found it. -/
abbrev OrderOut (s : State) (slot : Nat) (c : HostCmd) (b : Fin 24) : Prop :=
  s.cmdAt slot = some c ∧ s.cmdOf c.stamp = some c ∧ c.order = .taken b ∧ c.decided = none ∧ s.snipHeld c.stamp = false

/-- A command answers a next state from every sound state where `pre` holds; it changes no part of the state but those listed,
and `post` holds of the two states. -/
def Completes (c : Instr) (pre : State → Prop) (parts : List Part) (post : State → State → Prop) : Prop :=
  ∀ s : State, Sound s → pre s → ∃ t : State, exec c s = .next t ∧ Frame parts s t ∧ post s t

end Sys2Proof.Machine
end

