-- ==== Sys2Proof/Certificates/Slice0/Obligations.lean ====
section
/-!
DEFINITION. Certificates/Slice0/Obligations.lean: the statements. `Completes c pre parts post` says that command c answers a next
state from every sound state where `pre` holds, that it changes no part of the state but those listed, and what `post` says of
the two states.
-/

open Sys2Proof Sys2Proof.Machine

/-- For every command c and state s, a step of s with c at the front of its queue is exec of c on s with the queue's rest. The queue is the model's own (log entry 1). -/
def Obligations.StepRunsFront : Prop :=
  ∀ (c : Instr) (s : State) (q : List Instr), step { s with pending := c :: q } = exec c { s with pending := q }

/-- With no command waiting, a step answers a next state. Once the time base has started it counts one tick, modulo 2 to the 64, and, unless a held event record is due, publishes the completeness stamp: the time base less 384, or 0 before tick 384. Before the start nothing changes. That a step on an empty queue is a tick is the model's choice (log entry 1). -/
def Obligations.IdleStepIsATick : Prop :=
  ∀ s : State, s.pending = [] → Sound s →
    (s.time.started = false → step s = .next s) ∧
    (s.time.started = true → ∃ t : State, step s = .next t ∧ Frame [.time, .regs] s t ∧
      t.time = { s.time with tb := (s.time.tb + 1) % stampModulus } ∧
      RegsBut [R.EV_COMP_LO, R.EV_COMP_HI] s t ∧
      ((∀ r ∈ s.events.held, t.now < r.stamp + mergerHorizon) → t.pair R.EV_COMP_LO = t.now - mergerHorizon))

/-- After power-on reset the registers and the buffer memory are in canonical form, the time base is below 2 to the 64, and no command waits. -/
def Obligations.ResetIsSound : Prop :=
  Sound State.reset ∧ State.reset.pending = []

/-- From every sound state, not only those a run reaches, a step that answers a next state answers a sound one: the registers and the codewords of buffer memory stay in their canonical form (each key once, in rising order, none that equals what an unlisted key reads as), and the time base stays a 64-bit count. -/
def Obligations.EveryStepKeepsSoundness : Prop :=
  ∀ s t : State, Sound s → step s = .next t → Sound t

/-- Every command, from every state, answers with the queue it was given, so that the waiting commands run in the order they came; and the counter from which the model draws the values the spec leaves open (log entry 4) never goes back, so no two draws share a value's place. -/
def Obligations.CommandsLeaveTheQueue : Prop :=
  (∀ (c : Instr) (s t : State), exec c s = .next t → t.pending = s.pending) ∧
  (∀ (c : Instr) (s t : State), exec c s = .next t → s.free ≤ t.free)

/-- Every command answers a next state from every state. A command that cannot come about in a state leaves that state as it is (log entry 2). -/
def Obligations.EveryCommandAnswersANextState : Prop :=
  ∀ (c : Instr) (s : State), ∃ t : State, exec c s = .next t

/-- Of all commands only the first lock of the PLL and a power-on reset, after which the counter waits for that lock, change the count of the time base; every other command, whatever it writes or runs, leaves it where it stands. -/
def Obligations.OnlyTheFirstLockStartsTheCounter : Prop :=
  ∀ (c : Instr) (s t : State), c ≠ .pllLock → c ≠ .powerOnReset → exec c s = .next t → t.time.tb = s.time.tb

/-- The first lock starts the count at 0 and shows LOCKED and REF_PRESENT. Entering holdover sets HOLDOVER and REF_LOST_SEEN, clears REF_PRESENT and LOCKED, keeps the count and logs event 0x9010. In holdover the reference that comes back sets REF_PRESENT, and a gap in it clears that again; the relock, once it has been back without a gap for 20 microseconds, clears HOLDOVER, sets REF_PRESENT and LOCKED, keeps the count and logs 0x9011 with the ticks since the entry. The events-lost record goes first into a crossing that has room again. A record that reaches the merger is held, or, when it is late, is written to the next slot of the ring with its late bit set, the write pointer moving on by one; the due records leave the held ones, the write pointer moves on by one per record, and the completeness stamp is the time base less 384. Unmasking a vector clears its mask and its pending bit and sends it if it was pending. -/
def Obligations.TimeBaseCommands : Prop :=
  (Completes .pllLock
      (fun s => s.time.started = false)
      [.time, .regs, .domains, .boot]
      fun s t => t.time.started = true ∧ t.time.tb = 0 ∧ t.flag R.TB_STATUS F.TB_STATUS_LOCKED = true ∧
          t.flag R.TB_STATUS F.TB_STATUS_REF_PRESENT = true ∧ RegsBut [R.TB_STATUS] s t) ∧
  (Completes .holdoverEntry
      (fun s => s.time.started = true ∧ s.flag R.TB_STATUS F.TB_STATUS_HOLDOVER = false)
      [.time, .events, .regs]
      fun s t => t.time.tb = s.time.tb ∧ t.time.holdSince = some s.now ∧ t.flag R.TB_STATUS F.TB_STATUS_HOLDOVER = true ∧
          t.flag R.TB_STATUS F.TB_STATUS_REF_LOST_SEEN = true ∧ t.flag R.TB_STATUS F.TB_STATUS_REF_PRESENT = false ∧
          t.flag R.TB_STATUS F.TB_STATUS_LOCKED = false ∧ RegsBut [R.TB_STATUS] s t ∧
          t.events = (s.logAt srcCal s.cellStamp 0x9010).events) ∧
  (Completes .holdoverEntry
      (fun s => s.time.started = true ∧ s.flag R.TB_STATUS F.TB_STATUS_HOLDOVER = true)
      [.time, .regs]
      fun s t => t.time = { s.time with refSince := none } ∧ t.flag R.TB_STATUS F.TB_STATUS_REF_PRESENT = false ∧ RegsBut [R.TB_STATUS] s t) ∧
  (∀ (h : Stamp), Completes .pllRelock
      (fun s => s.time.holdSince = some h ∧ s.time.refSince = none)
      [.time, .regs]
      fun s t => t.time = { s.time with refSince := some s.now } ∧ t.flag R.TB_STATUS F.TB_STATUS_REF_PRESENT = true ∧ RegsBut [R.TB_STATUS] s t) ∧
  (∀ (h back : Stamp), Completes .pllRelock
      (fun s => s.time.holdSince = some h ∧ s.time.refSince = some back ∧ back + 20 * ticksUs ≤ s.now)
      [.time, .events, .regs]
      fun s t => t.time.tb = s.time.tb ∧ t.time.holdSince = none ∧ t.flag R.TB_STATUS F.TB_STATUS_HOLDOVER = false ∧
          t.flag R.TB_STATUS F.TB_STATUS_REF_PRESENT = true ∧ t.flag R.TB_STATUS F.TB_STATUS_LOCKED = true ∧
          RegsBut [R.TB_STATUS] s t ∧ t.events = (s.logAt srcCal s.cellStamp 0x9011 (s.now - h)).events) ∧
  (∀ (src : Nat), Completes (.eventsLostRecord src)
      (fun s => (s.xing src).lost ≠ 0 ∧ (s.xing src).queue.length < 32)
      [.events]
      fun s t => t.xing src = ⟨(s.xing src).queue ++ [⟨(s.xing src).firstLost, 0x0001, src, false, (s.xing src).lost,
          (s.xing src).lastLost % 2 ^ 32, (s.xing src).lastLost / 2 ^ 32 % 2 ^ 32, 0⟩], 0, 0, 0⟩ ∧
          ∀ x : Nat, x ≠ src → t.xing x = s.xing x) ∧
  (∀ (src : Nat) (r : EventRec) (rest : List EventRec), Completes (.eventMergerArrival src)
      (fun s => (s.xing src).queue = r :: rest ∧ r.stamp + 384 < s.now)
      [.events, .regs, .msix, .out]
      fun s t => t.events.held = s.events.held ∧
          storeGet (fun _ => EventRec.zero) (s.fld R.EV_WPTR F.EV_WPTR_WPTR % 2048) t.events.ring = { r with late := true } ∧
          t.fld R.EV_WPTR F.EV_WPTR_WPTR = (s.fld R.EV_WPTR F.EV_WPTR_WPTR + 1) % 2 ^ 32) ∧
  (∀ (src : Nat) (r : EventRec) (rest : List EventRec), Completes (.eventMergerArrival src)
      (fun s => (s.xing src).queue = r :: rest ∧ s.now ≤ r.stamp + 384)
      [.events, .regs, .msix, .out]
      fun s t => t.events.held = s.events.held ++ [r] ∧ t.events.ring = s.events.ring ∧ t.out = s.out ∧
          RegsBut [R.EV_COMP_LO, R.EV_COMP_HI] s t) ∧
  (Completes .eventMergerRelease
      (fun s => ∃ r ∈ s.events.held, r.stamp + 384 ≤ s.now)
      [.events, .regs, .msix, .out]
      fun s t => t.events.held = s.events.held.filter (fun r => decide (s.now < r.stamp + 384)) ∧ t.events.xing = s.events.xing ∧
          t.fld R.EV_WPTR F.EV_WPTR_WPTR =
            (s.fld R.EV_WPTR F.EV_WPTR_WPTR + (s.events.held.filter fun r => decide (r.stamp + 384 ≤ s.now)).length) % 2 ^ 32 ∧
          t.pair R.EV_COMP_LO = s.now - 384) ∧
  (∀ (fn : Fin 2) (vec : Fin 288), Completes (.msixVectorUnmask fn vec)
      (fun _ => True)
      [.msix, .out]
      fun s t => (t.msix[fn].entry vec.val).masked = false ∧ vec.val ∉ t.msix[fn].pending ∧
          t.out = (if vec.val ∈ s.msix[fn].pending then .msix fn.val vec.val :: s.out else s.out))

/-- The records that a merger releases on one tick are exactly the held ones whose stamp plus 384 has been reached, and they stand in ascending order of stamp, equal stamps in ascending order of source number. -/
def Obligations.ReleasedRecordsAreInOrder : Prop :=
  ∀ s : State, (dueRecords s).Perm (s.events.held.filter fun r => decide (r.stamp + 384 ≤ s.now)) ∧
    (dueRecords s).Pairwise fun a b => a.stamp < b.stamp ∨ (a.stamp = b.stamp ∧ a.src ≤ b.src)

/-- An access to an unassigned offset of a block in service reads 0 or is ignored and logs nothing, and nothing but the answer changes; an access to a block whose island is out of service reads 0xFFFFFFFF or is discarded and logs event 0x7009 with the block's start, the offset and the direction; an access that is not an aligned 32-bit one reads 0xFFFFFFFF or is discarded and logs event 0x7008, with 0 for the width and 1 for the alignment (where both are wrong the model reports the width, log entry 82). No register changes. -/
def Obligations.UnassignedAndRefusedAccesses : Prop :=
  (∀ (acc : Accessor) (off : Nat) (w : Bool), Completes (.unassignedOffsetAccess acc off w)
      (fun s => s.accessible acc off w = true ∧ off < 0x1000000 ∧ s.ownerUp off = true ∧ ∃ key : Nat, s.keyOf acc off = some key ∧ assignedKey key = false)
      [.out]
      fun s t => t.out = if w then s.out else .readData (accNumber acc) off 0 :: s.out) ∧
  (∀ (acc : Accessor) (off : Nat) (w : Bool), Completes (.outOfServiceBlockAccess acc off w)
      (fun s => s.accessible acc off w = true ∧ off < 0x1000000 ∧ s.ownerUp off = false)
      [.events, .out]
      fun s t => t.events = (s.logHost (accFn acc) 0x7009 (accFn acc) (blockStart off) off (bitOf w)).events ∧
          t.out = if w then s.out else .readData (accNumber acc) off 0xFFFFFFFF :: s.out) ∧
  (∀ (fn : Fin 2) (off : Nat) (bytes : Nat) (w : Bool), Completes (.refusedRegisterAccess fn off bytes w)
      (fun s => s.functions.contains fn = true ∧ off < 0x1000000 ∧ (bytes ≠ 4 ∨ off % 4 ≠ 0))
      [.events, .out]
      fun s t => t.events = (s.logHost fn.val 0x7008 fn.val off (if bytes = 4 then 1 else 0)).events ∧
          t.out = if w then s.out else .readData fn.val off 0xFFFFFFFF :: s.out)

/-- A read of a _LO half answers the low half of the pair's whole value and latches the whole value for that accessor alone; a read of a _HI half answers the upper half of what the accessor has latched and changes no register. A write of a _LO half is held for its accessor and changes no register; the write of the _HI half takes the held word with it, so that both halves are written in one step, where the pair is the data base or the placement base and a low word is held. -/
def Obligations.PairsLatchAndHold : Prop :=
  (∀ (acc : Accessor) (off key : Nat), Completes (.loRegisterRead acc off)
      (fun s => s.accessible acc off false = true ∧ off < 0x1000000 ∧ s.ownerUp off = true ∧ s.keyOf acc off = some key ∧
          assignedKey key = true ∧ (roleOf key = .roLo ∨ roleOf key = .rwLo))
      [.events, .latches, .out]
      fun s t => t.events = s.events ∧ t.latches[latchOf acc] = s.wholePair acc key ∧
          (∀ i : Fin 3, i ≠ latchOf acc → t.latches[i] = s.latches[i]) ∧
          t.out = .readData (accNumber acc) off (s.wholePair acc key % 2 ^ 32) :: s.out) ∧
  (∀ (acc : Accessor) (off key : Nat), Completes (.loRegisterRead acc off)
      (fun s => s.accessible acc off false = true ∧ off < 0x1000000 ∧ s.ownerUp off = true ∧ s.keyOf acc off = some key ∧
          assignedKey key = true ∧ (roleOf key = .roHi ∨ roleOf key = .rwHi))
      [.events, .latches, .out]
      fun s t => t.events = s.events ∧ t.latches = s.latches ∧
          t.out = .readData (accNumber acc) off (s.latches[latchOf acc] / 2 ^ 32 % 2 ^ 32) :: s.out) ∧
  (∀ (acc : Accessor) (off val : Nat) (key : Nat), Completes (.registerWrite acc off val)
      (fun s => s.accessible acc off true = true ∧ off < 0x1000000 ∧ s.ownerUp off = true ∧ s.keyOf acc off = some key ∧
          assignedKey key = true ∧ roleOf key = .rwLo ∧ s.pairOpen acc key = true ∧
          (s.boot.bifurcated = false ∨ s.host.port1 = none ∨ acc ≠ .host 0))
      [.events, .regs, .heldLo, .msix, .domains, .heads, .decode, .loop, .seq, .mem, .motion, .host, .cal, .sec, .out, .free]
      fun s t => t.heldLo.lookup (heldKey acc key) = some (BitVec.ofNat 32 val) ∧ t.regs = s.regs ∧ t.mem = s.mem ∧ t.events = s.events) ∧
  (∀ (acc : Accessor) (off val : Nat) (wl : Word), Completes (.rwPairHiWrite acc off val)
      (fun s => s.accessible acc off true = true ∧ s.ownerUp off = true ∧ s.keyOf acc off = some off ∧ assignedKey off = true ∧
          roleOf off = .rwHi ∧ (off = R.HC_DATA_BASE_HI ∨ off = R.HC_PL_BASE_HI) ∧ s.pairOpen acc (off - 4) = true ∧
          s.heldLo.lookup (heldKey acc (off - 4)) = some wl)
      [.events, .regs, .heldLo, .msix, .domains, .heads, .decode, .loop, .seq, .mem, .motion, .host, .cal, .sec, .out, .free]
      fun s t => t.reg (off - 4) = writtenWord (off - 4) (s.reg (off - 4)) wl ∧ t.reg off = writtenWord off (s.reg off) (BitVec.ofNat 32 val) ∧
          RegsBut [off - 4, off] s t ∧ t.mem = s.mem ∧ t.host = s.host ∧ t.events = s.events)

/-- For every row of the register map, every word that the register holds and every word written: a read-only or write-only field and every reserved bit keep what they hold; a read-write field takes the value written, held to the range the field stores; a write-1-to-clear field loses the bits written as 1, or, in the counters that a write clears whole, is cleared by a 1 in its lowest bit; a write-1-to-set field gains them. A register with no action of its own, written through the host, takes exactly that word, and nothing else of the state changes (the decode island's configuration registers). With two ports the write of port 1 is noted beside it, and a write of port 0 to the same register in the same clock of the host island leaves the word that port 0's write and then port 1's would give. -/
def Obligations.RegisterWritesFollowTheAccessTypes : Prop :=
  (∀ d ∈ regTable, ∀ old w : Word, ∀ f ∈ d.fields,
    getField (writtenWord d.base old w) f.pos = match f.acc with
      | .ro | .wo => getField old f.pos
      | .rw | .rws => clampNat f.least f.most (getField w f.pos) % 2 ^ f.pos.width
      | .w1c =>
        if clearsWhole d.base f.pos then (if getField w f.pos % 2 = 1 then 0 else getField old f.pos)
        else getField old f.pos - (getField old f.pos &&& getField w f.pos)
      | .w1s => getField old f.pos ||| getField w f.pos) ∧
  (∀ (fn : Fin 2) (off val : Nat), Completes (.registerWrite (.host fn) off val)
      (fun s => s.boot.bifurcated = false ∧ s.accessible (.host fn) off true = true ∧ s.ownerUp off = true ∧ 0x180000 ≤ off ∧ off < 0x1C0000 ∧ (findReg off).isSome = true ∧
          roleOf off = .single ∧ off ≠ R.DC_OUT_CONS ∧ off ≠ R.DC_CNT_CLR)
      [.regs]
      fun s t => t.reg off = writtenWord off (s.reg off) (BitVec.ofNat 32 val) ∧ RegsBut [off] s t) ∧
  (∀ (off val : Nat), Completes (.registerWrite (.host 1) off val)
      (fun s => s.boot.bifurcated = true ∧ s.accessible (.host 1) off true = true ∧ s.ownerUp off = true ∧ 0x180000 ≤ off ∧ off < 0x1C0000 ∧
          (findReg off).isSome = true ∧ roleOf off = .single ∧ off ≠ R.DC_OUT_CONS ∧ off ≠ R.DC_CNT_CLR)
      [.regs, .host]
      fun s t => t.reg off = writtenWord off (s.reg off) (BitVec.ofNat 32 val) ∧ RegsBut [off] s t ∧
          t.host = { s.host with port1 := some ⟨s.hostClock, off, s.reg off, BitVec.ofNat 32 val⟩ }) ∧
  (∀ (off val : Nat) (p : PortWrite), Completes (.registerWrite (.host 0) off val)
      (fun s => s.boot.bifurcated = true ∧ s.accessible (.host 0) off true = true ∧ s.ownerUp off = true ∧ 0x180000 ≤ off ∧ off < 0x1C0000 ∧
          (findReg off).isSome = true ∧ roleOf off = .single ∧ off ≠ R.DC_OUT_CONS ∧ off ≠ R.DC_CNT_CLR ∧
          s.host.port1 = some p ∧ p.clock = s.hostClock ∧ p.key = off ∧ s.reg off = writtenWord off p.before p.word)
      [.regs]
      fun s t => t.reg off = writtenWord off (writtenWord off p.before (BitVec.ofNat 32 val)) p.word ∧ RegsBut [off] s t)

/-- A domain that is due and whose groups are all good has its switch closed, and SYS_SUPPLY shows the power-good inputs given. From 30,000 ticks on its own power-good puts PD16 up, as SYS_DOMAIN.ON shows, and puts a populated head's domain up with the head in service and its island as reset leaves it; at 300,000 ticks without it a head's domain has failed, SYS_DOMAIN_FAIL shows it and event 0x1002 is logged. A domain to be tried again is tried after 1 ms: it settles, or waits where a group is not good. A group not good 100 ms after a power-up that needs it fell due counts as dead, and each domain that waits for it has failed or is to be tried again. A lost group counts as dead, and each powered domain that needs it has failed. A power request for a head that may be powered makes its domain due and logs 0x1003 with 0, and any other logs 0x1003 with 1 and changes no domain. -/
def Obligations.PowerCommands : Prop :=
  (∀ (dom : Fin 19) (levels : Fin 16) (due : Stamp), Completes (.domainPowerUp dom levels)
      (fun s => (s.domain dom).phase = .waiting due ∧ due ≤ s.now ∧ s.starved dom.val = false ∧
          (∀ g ∈ List.range 3, domainNeeds dom.val g = true → testBitN levels.val (g + 1) = true))
      [.events, .regs, .domains]
      fun s t => (t.domain dom).phase = .settling s.now ∧ t.fld R.SYS_SUPPLY F.SYS_SUPPLY_PWRGD = levels.val ∧ t.events = s.events ∧
          RegsBut [R.SYS_SUPPLY] s t ∧ ∀ d : Fin 19, d ≠ dom → t.domain d = s.domain d) ∧
  (∀ (dom : Fin 19) (closed : Stamp), Completes (.domainPowerCheck dom true)
      (fun s => (s.domain dom).phase = .settling closed ∧ closed + 30000 ≤ s.now ∧ dom.val = 16)
      [.events, .regs, .domains, .heads]
      fun s t => (t.domain dom).phase = .up ∧ t.domainOn dom.val = true ∧ t.heads = s.heads ∧ RegsBut [R.SYS_DOMAIN] s t) ∧
  (∀ (n : Fin 16) (closed : Stamp), Completes (.domainPowerCheck ⟨n.val, by omega⟩ true)
      (fun s => (s.domain ⟨n.val, by omega⟩).phase = .settling closed ∧ closed + 30000 ≤ s.now ∧ s.headPopulated n.val = true)
      [.events, .regs, .domains, .heads]
      fun s t => (t.domain ⟨n.val, by omega⟩).phase = .up ∧ t.headInService n.val = true ∧ t.head n = Head.reset ∧
          ∀ m : Fin 16, m ≠ n → t.head m = s.head m) ∧
  (∀ (n : Fin 16) (closed : Stamp), Completes (.domainPowerCheck ⟨n.val, by omega⟩ false)
      (fun s => (s.domain ⟨n.val, by omega⟩).phase = .settling closed ∧ closed + 300000 ≤ s.now)
      [.events, .regs, .domains, .heads]
      fun s t => (t.domain ⟨n.val, by omega⟩).phase = .failed ∧ testBitN (t.fld R.SYS_DOMAIN_FAIL F.SYS_DOMAIN_FAIL_FAIL) n.val = true ∧
          RegsBut [R.SYS_DOMAIN_FAIL] s t ∧ t.events = (s.logAt srcCal s.cellStamp 0x1002 n.val 0).events) ∧
  (∀ (dom : Fin 19) (opened : Stamp), Completes (.domainPowerRetry dom)
      (fun s => (s.domain dom).phase = .retryAt opened ∧ opened + ticksMs ≤ s.now ∧ s.starved dom.val = false)
      [.events, .regs, .domains]
      fun s t => (t.domain dom).phase = (if s.supplied dom.val then .settling s.now else .waiting s.now) ∧ t.regs = s.regs ∧
          t.events = s.events ∧ ∀ d : Fin 19, d ≠ dom → t.domain d = s.domain d) ∧
  (∀ (group : Fin 3), Completes (.supplyGroupWaitTimeout group)
      (fun s => (∃ d : Fin 19, d ∈ s.waitingFor group.val (100 * ticksMs)) ∧ s.groupGood group.val = false)
      [.events, .regs, .domains, .boot]
      fun s t => t.boot.deadGroups = group.val :: s.boot.deadGroups ∧ t.heads = s.heads ∧
          (∀ d : Fin 19, d ∈ s.waitingFor group.val 0 → (t.domain d).phase = .failed ∨ (t.domain d).phase = .retryAt s.now) ∧
          ∀ d : Fin 19, d ∉ s.waitingFor group.val 0 → t.domain d = s.domain d) ∧
  (∀ (group : Fin 3), Completes (.supplyGroupLost group)
      (fun s => ∃ d : Fin 19, domainNeeds d.val group.val = true ∧ (s.domain d).powered = true)
      [.events, .regs, .msix, .domains, .boot, .heads, .decode, .loop, .seq, .mem, .motion, .host, .out]
      fun s t => t.boot.deadGroups = group.val :: s.boot.deadGroups ∧
          (∀ d : Fin 19, domainNeeds d.val group.val = true → (s.domain d).powered = true → (t.domain d).phase = .failed) ∧
          ∀ d : Fin 19, ¬ (domainNeeds d.val group.val = true ∧ (s.domain d).powered = true) → t.domain d = s.domain d) ∧
  (∀ (n : Fin 16), Completes (.headPower n)
      (fun s => s.mayPowerHead n = true)
      [.events, .domains]
      fun s t => (t.domain ⟨n.val, by omega⟩).phase = .waiting s.now ∧ t.events = (s.logAt srcCal s.cellStamp 0x1003 n.val 0).events ∧
          ∀ d : Fin 19, d.val ≠ n.val → t.domain d = s.domain d) ∧
  (∀ (n : Fin 16), Completes (.headPower n)
      (fun s => s.mayPowerHead n = false)
      [.events, .domains]
      fun s t => t.domains = s.domains ∧ t.events = (s.logAt srcCal s.cellStamp 0x1003 n.val 1).events)

/-- Isolating a head in service clears its in-service bit and, when no pass is open, isolates its domain at once, which is then off; the loss of its domain's power-good marks the domain failed in SYS_DOMAIN_FAIL and clears the in-service bit. Isolating a head that is not in service changes nothing. A head that is leaving service with no pass left has its domain switched off, as SYS_DOMAIN.ON shows, and its leaving ended. -/
def Obligations.HeadsLeaveService : Prop :=
  (∀ (n : Fin 16), Completes (.headIsolate n)
      (fun s => s.headInService n.val = true ∧ (s.head n).pass = none ∧ s.boot.bifurcated = false ∧ (s.fnOf 0).phase ≠ .resetting)
      [.events, .regs, .domains, .heads, .decode, .loop, .seq, .mem, .motion, .host, .out]
      fun _ t => t.headInService n.val = false ∧ (t.head n).leaving = none ∧ (t.domain ⟨n.val, by omega⟩).phase = .off ∧ t.domainOn n.val = false) ∧
  (∀ (n : Fin 16), Completes (.headIsolate n)
      (fun s => s.headInService n.val = false ∧ s.boot.bifurcated = false ∧ (s.fnOf 0).phase ≠ .resetting)
      [.events, .regs, .domains, .heads, .decode, .loop, .seq, .mem, .motion, .host, .out]
      fun s t => t = s) ∧
  (∀ (n : Fin 16), Completes (.headDomainPowerLost n)
      (fun s => s.headInService n.val = true ∧ (s.head n).pass = none ∧ s.boot.bifurcated = false ∧ (s.fnOf 0).phase ≠ .resetting)
      [.events, .regs, .domains, .heads, .decode, .loop, .seq, .mem, .motion, .host, .out]
      fun _ t => t.headInService n.val = false ∧ testBitN (t.fld R.SYS_DOMAIN_FAIL F.SYS_DOMAIN_FAIL_FAIL) n.val = true) ∧
  (∀ (n : Fin 16) (l : Leaving), Completes (.headIsolationDeadline n)
      (fun s => (s.head n).leaving = some l ∧ (s.head n).pass = none)
      [.events, .regs, .domains, .heads, .decode, .seq, .mem, .motion, .host, .out]
      fun s t => (t.head n).leaving = none ∧ t.domain ⟨n.val, by omega⟩ = ⟨.off, 0⟩ ∧ t.domainOn n.val = false ∧ RegsBut [R.SYS_DOMAIN] s t ∧
          ∀ m : Fin 16, m ≠ n → t.head m = s.head m)

/-- A write of the ring's read pointer or of the attention conditions stores the word, and a write of 1 to ATTN clears it; after each, ATTN reads 1 where it was left 1 or the backlog reaches a threshold that is not 0, and vector 258 is sent only where it goes from 0 to 1. No other register changes. -/
def Obligations.AttentionCommands : Prop :=
  (∀ (val : Word), Completes (.evRptrWrite val)
      (fun _ => True)
      [.regs, .msix, .out]
      fun s t => t.reg R.EV_RPTR = val ∧ RegsBut [R.EV_RPTR, R.EV_STATUS] s t ∧
          t.flag R.EV_STATUS F.EV_STATUS_ATTN = (s.flag R.EV_STATUS F.EV_STATUS_ATTN || (s.setReg R.EV_RPTR val).attnHolds none) ∧
          (s.flag R.EV_STATUS F.EV_STATUS_ATTN = true → t.out = s.out ∧ t.msix = s.msix)) ∧
  (∀ (val : Word), Completes (.evAttnWrite val)
      (fun _ => True)
      [.regs, .msix, .out]
      fun s t => t.reg R.EV_ATTN = val ∧ RegsBut [R.EV_ATTN, R.EV_STATUS] s t ∧
          t.flag R.EV_STATUS F.EV_STATUS_ATTN = (s.flag R.EV_STATUS F.EV_STATUS_ATTN || (s.setReg R.EV_ATTN val).attnHolds none) ∧
          (s.flag R.EV_STATUS F.EV_STATUS_ATTN = true → t.out = s.out ∧ t.msix = s.msix)) ∧
  (Completes .attnClear
      (fun _ => True)
      [.regs, .msix, .out]
      fun s t => t.flag R.EV_STATUS F.EV_STATUS_ATTN = s.attnHolds none ∧ RegsBut [R.EV_STATUS] s t)

/-- In stage 1 without an image the boot makes PD17 and PD16 due, powers no head and reaches stage 2; once no head's power-up runs in stage 2 with an image, the bobbins start and stage 3 is reached. The end of a boot's sweep clears SWEEP_BUSY, shows whether a byte failed and reaches stage 4; the zero fill of a boot without image then makes its words read as zero up to its end and raises HOST_READY. A power-on reset leaves every register but the fuses and the nonce at its reset value and keeps the boot flash and the keys; a warm reset keeps the count of the time base, the event records, the flash and the keys, sets WARM and holds the boot until PERST_N is released, with PD18 as it was (log entry 78); the release starts the boot's time. -/
def Obligations.BootCommands : Prop :=
  (Completes .bootConfigApply
      (fun s => s.fld R.SYS_BOOT F.SYS_BOOT_STAGE = 1 ∧ s.boot.perst = false ∧ s.sec.running = none ∧
          (s.domain 16).phase ≠ .failed ∧ (s.domain 17).phase ≠ .failed)
      [.events, .regs, .domains]
      fun s t => t.fld R.SYS_BOOT F.SYS_BOOT_STAGE = 2 ∧ t.domain 16 = ⟨.waiting s.now, 0⟩ ∧ t.domain 17 = ⟨.waiting s.now, 0⟩ ∧
          (∀ d : Fin 19, d ≠ 16 → d ≠ 17 → t.domain d = s.domain d) ∧ RegsBut [R.SYS_BOOT, R.MC_CFG] s t) ∧
  (Completes .bootBobbinsStart
      (fun s => s.fld R.SYS_BOOT F.SYS_BOOT_STAGE = 2 ∧ s.boot.noImage = false ∧ s.headsPowering = false)
      [.events, .regs, .seq]
      fun _ t => t.fld R.SYS_BOOT F.SYS_BOOT_STAGE = if t.domainOn 17 && !t.flag R.MC_STATUS F.MC_STATUS_SWEEP_BUSY then 4 else 3) ∧
  (∀ (failMask : Fin 16) (codes : List (Nat × Word)), Completes (.sweepEnd failMask codes)
      (fun s => s.flag R.MC_STATUS F.MC_STATUS_SWEEP_BUSY = true ∧ s.boot.noImage = false ∧
          s.fld R.SYS_BOOT F.SYS_BOOT_STAGE = 3)
      [.events, .regs]
      fun _ t => t.flag R.MC_STATUS F.MC_STATUS_SWEEP_BUSY = false ∧ t.fld R.SYS_BOOT F.SYS_BOOT_STAGE = 4 ∧
          t.flag R.MC_STATUS F.MC_STATUS_SWEEP_FAIL = decide (failMask ≠ 0)) ∧
  (Completes .noImageFillDone
      (fun s => s.boot.filling = true)
      [.events, .regs, .boot, .mem, .host]
      fun s t => t.boot.filling = false ∧ t.flag R.SYS_BOOT F.SYS_BOOT_HOST_READY = true ∧
          (∀ a : Nat, a < fillEnd → t.memByte a = unwrittenData a) ∧ ∀ a : Nat, fillEnd ≤ a → t.memByte a = s.memByte a) ∧
  (Completes .powerOnReset
      (fun _ => True)
      [.time, .events, .regs, .latches, .heldLo, .msix, .domains, .boot, .pins, .heads, .decode, .loop, .seq, .mem, .motion, .host, .cal, .sec, .out, .free]
      fun s t => t.time = State.reset.time ∧ t.events = State.reset.events ∧ t.heads = State.reset.heads ∧ t.loop = State.reset.loop ∧
          t.seq = State.reset.seq ∧ t.mem = State.reset.mem ∧ t.motion = State.reset.motion ∧ t.host = State.reset.host ∧
          t.decode = State.reset.decode ∧ t.sec.flash = s.sec.flash ∧ t.sec.keys = s.sec.keys ∧ t.reg R.SEC_FUSE = s.reg R.SEC_FUSE ∧
          RegsBut (R.SEC_FUSE :: (List.range 12).map R.SEC_DBG_CHAL) State.reset t) ∧
  (Completes .warmReset
      (fun s => s.boot.perst = false)
      [.time, .events, .regs, .latches, .heldLo, .msix, .domains, .boot, .pins, .heads, .decode, .loop, .seq, .mem, .motion, .host, .cal, .sec, .out, .free]
      fun s t => t.time.tb = s.time.tb ∧ t.events = s.events ∧ t.boot.perst = true ∧ t.flag R.SYS_RST_CAUSE F.SYS_RST_CAUSE_WARM = true ∧
          t.heads = State.reset.heads ∧ t.loop = State.reset.loop ∧ t.seq = State.reset.seq ∧ t.mem = State.reset.mem ∧
          t.host = State.reset.host ∧ t.motion = State.reset.motion ∧ t.sec.flash = s.sec.flash ∧ t.sec.keys = s.sec.keys ∧
          t.domain 18 = s.domain 18) ∧
  (Completes .perstNRelease
      (fun s => s.boot.perst = true)
      [.boot]
      fun s t => t.boot = { s.boot with perst := false, since := s.now })

/-- DOE Discovery answers the protocols of a mailbox by index. GET_VERSION restarts the transport's negotiation and drops its sessions; capabilities, algorithms and the later requests are answered in that order of stages, each with the response of its code. With the device certificate in order GET_DIGESTS answers slot 0's digest, GET_CERTIFICATE the part of slot 0's chain asked for, and CHALLENGE of slot 0 its digest under the identity key's signature over request and answer; GET_MEASUREMENTS answers the count for index 0, one block for 1 to 6 and all for 255, signed; KEY_EXCHANGE opens a session while fewer than four are open, FINISH completes it, and HEARTBEAT, KEY_UPDATE and END_SESSION are answered in a completed session, which END_SESSION ends. Request codes, response codes and capability words are those of DSP0274, which the spec names and does not print (log entry 57); the signature and the digest are opaque (log entry 54). -/
def Obligations.SpdmRequests : Prop :=
  (∀ (fn : Fin 2) (index : Nat), Completes (.doeDiscovery fn index)
      (fun _ => index < 3)
      [.sec, .out]
      fun s t => Answered (.doe fn) 0 [1, 0, index, if index = 2 then 0 else index + 1] s t ∧ t.sec = s.sec) ∧
  (∀ (via : Transport) (msg : List Byte), Completes (.getVersion via msg)
      (fun _ => True)
      [.regs, .sec, .out]
      fun s t => Answered via 0x04 [0x12] s t ∧ t.connStage via = 1 ∧ (∀ x ∈ t.sec.sessions, x.via ≠ via) ∧
          RegsBut [R.SEC_STATUS] s t) ∧
  (∀ (via : Transport) (msg : List Byte), Completes (.getCapabilities via msg)
      (fun s => 1 ≤ s.connStage via)
      [.regs, .sec, .out]
      fun s t => Answered via 0x61 (natBytes 4 0x62D6) s t ∧ t.connStage via = 2 ∧ t.regs = s.regs) ∧
  (∀ (via : Transport) (msg : List Byte), Completes (.negotiateAlgorithms via msg)
      (fun s => 2 ≤ s.connStage via)
      [.regs, .sec, .out]
      fun s t => Answered via 0x63 (natBytes 4 0x80 ++ natBytes 4 2 ++ natBytes 2 0x10 ++ natBytes 2 2) s t ∧ t.connStage via = 3 ∧
          t.regs = s.regs) ∧
  (∀ (via : Transport) (msg : List Byte), Completes (.getDigests via msg)
      (fun s => 3 ≤ s.connStage via ∧ s.certBad = false)
      [.regs, .sec, .out]
      fun s t => Answered via 0x01 (1 :: ofByteList (Config.sha384 (toBytes s.certChain))) s t ∧ t.regs = s.regs) ∧
  (∀ (via : Transport) (msg : List Byte), Completes (.getCertificate via msg)
      (fun s => 3 ≤ s.connStage via ∧ s.certBad = false ∧ msgByte msg 2 % 16 = 0)
      [.regs, .sec, .out]
      fun s t => Answered via 0x02 (natBytes 2 (certPart s msg).length ++
            natBytes 2 (min 0xFFFF (0x10000 - msgNat msg 4 2 - (certPart s msg).length)) ++ certPart s msg) s t ∧ t.regs = s.regs) ∧
  (∀ (via : Transport) (msg : List Byte), Completes (.challenge via msg)
      (fun s => 3 ≤ s.connStage via ∧ s.certBad = false ∧ msgByte msg 2 = 0)
      [.regs, .sec, .out]
      fun s t => Answered via 0x03 (signedBy msg (ofByteList (Config.sha384 (toBytes s.certChain)))) s t ∧ t.regs = s.regs) ∧
  (∀ (via : Transport) (msg : List Byte), Completes (.getMeasurements via msg)
      (fun s => 3 ≤ s.connStage via ∧ (msgByte msg 3 ≤ 6 ∨ msgByte msg 3 = 0xFF))
      [.regs, .sec, .out]
      fun s t => Answered via 0x60 (if msgByte msg 3 = 0 then [6] else
            signedBy msg (s.measurements (if msgByte msg 3 = 0xFF then [1, 2, 3, 4, 5, 6] else [msgByte msg 3]))) s t ∧ t.regs = s.regs) ∧
  (∀ (via : Transport) (msg : List Byte), Completes (.keyExchange via msg)
      (fun s => 3 ≤ s.connStage via ∧ s.certBad = false ∧ s.sec.sessions.length < 4)
      [.regs, .sec, .out]
      fun s t => (∃ id ∈ List.range 4, t.sec.sessions = s.sec.sessions ++ [({ id := id, via := via, done := false } : Session)] ∧
            Answered via 0x64 (signedBy msg [id]) s t) ∧
          t.fld R.SEC_STATUS F.SEC_STATUS_SESSIONS = s.sec.sessions.length + 1 ∧ RegsBut [R.SEC_STATUS] s t) ∧
  (∀ (via : Transport) (sid : Nat) (msg : List Byte) (y : Session), Completes (.finish via sid msg)
      (fun s => s.session via sid = some y)
      [.regs, .sec, .out]
      fun s t => Answered via 0x65 [] s t ∧ t.regs = s.regs ∧
          t.sec.sessions = s.sec.sessions.map (fun z => if z = y then { z with done := true } else z)) ∧
  (∀ (via : Transport) (sid : Nat) (msg : List Byte) (y : Session), Completes (.heartbeat via sid msg)
      (fun s => s.session via sid = some y ∧ y.done = true)
      [.regs, .sec, .out]
      fun s t => Answered via 0x68 [] s t ∧ t.sec.sessions = s.sec.sessions ∧ t.regs = s.regs) ∧
  (∀ (via : Transport) (sid : Nat) (msg : List Byte) (y : Session), Completes (.keyUpdate via sid msg)
      (fun s => s.session via sid = some y ∧ y.done = true)
      [.regs, .sec, .out]
      fun s t => Answered via 0x69 [msgByte msg 2, msgByte msg 3] s t ∧ t.sec.sessions = s.sec.sessions ∧ t.regs = s.regs) ∧
  (∀ (via : Transport) (sid : Nat) (msg : List Byte) (y : Session), Completes (.endSession via sid msg)
      (fun s => s.session via sid = some y ∧ y.done = true)
      [.regs, .sec, .out]
      fun s t => Answered via 0x6C [] s t ∧ t.session via sid = none ∧ RegsBut [R.SEC_STATUS] s t)

/-- With no package running a commit of the floor is refused with 0xA006; with one running and no valid directory it raises the floor to the record's value when that exceeds the floor, is at most 32 and at most the package's own, with event 0xA005. A revocation of a key that does not run, with another usable key left, sets the slot's bit with event 0xA005, and one of the running key is refused with 0xA006. The boot's verification reaches stage 1, with the outcome that nothing runs exactly where it takes no image; without a valid directory copy it takes none and shows outcome 3. A submitted debug token that passes its checks grants its permissions and ends every session, with event 0xA007, and one that fails is refused with 0xA008 and the check; the nonce is drawn anew either way. -/
def Obligations.SecurityCommands : Prop :=
  (Completes .bootVerify
      (fun s => s.time.started = true ∧ s.fld R.SYS_BOOT F.SYS_BOOT_STAGE = 0 ∧ s.boot.perst = false ∧ s.directory = none)
      [.events, .regs, .boot, .sec]
      fun s t => t.fld R.SYS_BOOT F.SYS_BOOT_STAGE = 1 ∧ t.fld R.SEC_STATUS F.SEC_STATUS_BOOT = 3 ∧ t.boot.noImage = true ∧ t.boot.slot = 0 ∧
          t.sec.running = none ∧ t.sec.flash = s.sec.flash ∧ RegsBut [R.SEC_STATUS, R.SYS_BOOT] s t) ∧
  (Completes .bootVerify
      (fun s => s.time.started = true ∧ s.fld R.SYS_BOOT F.SYS_BOOT_STAGE = 0 ∧ s.boot.perst = false)
      [.events, .regs, .boot, .sec]
      fun _ t => t.fld R.SYS_BOOT F.SYS_BOOT_STAGE = 1 ∧ (t.boot.noImage = true ↔ t.sec.running = none)) ∧
  (Completes .floorCommit
      (fun s => s.sec.running = none)
      [.events, .regs]
      fun s t => t.regs = s.regs ∧ t.events = (s.logSec 0xA006 0 0).events) ∧
  (∀ (r : Running), Completes .floorCommit
      (fun s => s.sec.running = some r ∧ s.directory = none ∧ fieldAt r.record 8 4 ≤ 32 ∧ fieldAt r.record 8 4 ≤ r.svn ∧
          s.fld R.SEC_FUSE F.SEC_FUSE_FLOOR < fieldAt r.record 8 4)
      [.events, .regs]
      fun s t => t.fld R.SEC_FUSE F.SEC_FUSE_FLOOR = fieldAt r.record 8 4 ∧ RegsBut [R.SEC_FUSE] s t ∧
          t.events = (s.logSec 0xA005 0 (fieldAt r.record 8 4)).events) ∧
  (∀ (slot : Fin 4), Completes (.revoke slot)
      (fun s => s.sec.running = none ∧
          ∃ k ∈ List.range 4, k ≠ slot.val ∧ testBitN (s.fld R.SEC_FUSE F.SEC_FUSE_PROGRAMMED) k = true ∧
            testBitN (s.fld R.SEC_FUSE F.SEC_FUSE_REVOKED) k = false)
      [.events, .regs]
      fun s t => t.fld R.SEC_FUSE F.SEC_FUSE_REVOKED = setBitN (s.fld R.SEC_FUSE F.SEC_FUSE_REVOKED) slot.val ∧ RegsBut [R.SEC_FUSE] s t ∧
          t.events = (s.logSec 0xA005 1 (setBitN (s.fld R.SEC_FUSE F.SEC_FUSE_REVOKED) slot.val)).events) ∧
  (∀ (slot : Fin 4) (r : Running), Completes (.revoke slot)
      (fun s => s.sec.running = some r ∧ r.keySlot = slot.val)
      [.events, .regs]
      fun s t => t.regs = s.regs ∧ t.events = (s.logSec 0xA006 1 slot.val).events) ∧
  (Completes .debugUnlockSubmit
      (fun _ => True)
      [.events, .regs, .sec, .free]
      fun s t => RegsBut (R.SEC_STATUS :: (List.range 12).map R.SEC_DBG_CHAL) s t ∧ t.free = s.free + 12 ∧
          (∀ c : Nat, s.tokenFault ⟨s.tokenBytes.take 256, s.tokenBytes.drop 256⟩ = some c →
            t.sec = s.sec ∧ t.reg R.SEC_STATUS = s.reg R.SEC_STATUS ∧ t.events = (s.logSec 0xA008 c).events) ∧
          (s.tokenFault ⟨s.tokenBytes.take 256, s.tokenBytes.drop 256⟩ = none →
            t.sec = { s.sec with sessions := [] } ∧ t.fld R.SEC_STATUS F.SEC_STATUS_SESSIONS = 0 ∧
            t.fld R.SEC_STATUS F.SEC_STATUS_DBG = s.fld R.SEC_STATUS F.SEC_STATUS_DBG ||| fieldAt (s.tokenBytes.drop 256) 64 4 % 8 ∧
            t.events = (s.logSec 0xA007 (fieldAt (s.tokenBytes.drop 256) 64 4 % 8)
              (SignedObj.keySlot ⟨s.tokenBytes.take 256, s.tokenBytes.drop 256⟩)).events))

/-- The second comparison in a row above 1.0 percent sets BG_DEV, and one within it ends the row. Each pair of calibration slots joins its channel's last 64. The power-on copy takes the targets as goals and as the applied values; each slew moves every field toward its goal by at most its step and never past it. A target write while programs write targets stores it held to its limits, with event 0x9002 where it had to be, and any other changes nothing. A trim with the spindle stopped sets TRIM_BUSY, one with it turning logs 0x9004, and a trim ends with each DAC at the floor of the mean of its two codes. A temperature report stores each valid sensor's reading and leaves an invalid one's. -/
def Obligations.CalibrationCommands : Prop :=
  (∀ (dev : Nat), Completes (.bandgapCompare dev)
      (fun s => s.now % 1500000 = 0 ∧ 100 < dev ∧ s.cal.deviant = true ∧ s.flag R.CAL_STATUS F.CAL_STATUS_BG_DEV = false)
      [.events, .regs, .decode, .host, .cal]
      fun s t => t.flag R.CAL_STATUS F.CAL_STATUS_BG_DEV = true ∧ t.cal = s.cal) ∧
  (∀ (dev : Nat), Completes (.bandgapCompare dev)
      (fun s => s.now % 1500000 = 0 ∧ dev ≤ 100)
      [.cal]
      fun s t => t.cal = { s.cal with deviant := false }) ∧
  (∀ (z r : List Int), Completes (.calibrationSlots z r)
      (fun s => s.now % 1500000 = 150 ∧ s.flag R.CAL_TRIG F.CAL_TRIG_MAN = true)
      [.cal]
      fun s t => t.cal.pairs = (indexed s.cal.pairs).map (fun (c, l) => ((z.getD c 0, r.getD c 0) :: l).take 64) ∧
          t.cal.goals = s.cal.goals) ∧
  (Completes .calibrationCopy
      (fun s => s.copyCause = some 0 ∧ s.flag R.CAL_STATUS F.CAL_STATUS_BG_DEV = false)
      [.events, .regs, .cal]
      fun s t => t.cal.copied = true ∧ t.cal.copyAt = s.now ∧ t.cal.goals = s.adcTargets ∧ t.cal.pairs = s.cal.pairs ∧
          (∀ c : Fin 33, adcOfs (t.reg (R.CAL_ADC_APP c.val)) = adcOfs (s.reg (R.CAL_ADC_TGT c.val)) ∧
            adcGain (t.reg (R.CAL_ADC_APP c.val)) = adcGain (s.reg (R.CAL_ADC_TGT c.val)))) ∧
  (Completes .calibrationSlew
      (fun s => s.now % 1500000 = 0 ∧ s.flag R.CAL_STATUS F.CAL_STATUS_BG_DEV = false ∧ s.cal.copied = true ∧ s.cal.copyAt < s.now ∧
          s.cal.goals.length = 33 ∧ (∀ g ∈ s.cal.goals, targetValid g.1 g.2 = true) ∧
          ∀ c : Fin 33, targetValid (adcOfs (s.reg (R.CAL_ADC_APP c.val))) (adcGain (s.reg (R.CAL_ADC_APP c.val))) = true)
      [.regs]
      fun s t => (∀ c : Fin 33, adcOfs (t.reg (R.CAL_ADC_APP c.val)) = stepToward (adcOfs (s.reg (R.CAL_ADC_APP c.val)))
            (s.cal.goals.getD c.val (0, 0)).1 (s.fld R.CAL_SLEW F.CAL_SLEW_OFS_STEP : Nat)) ∧
          (∀ c : Fin 33, adcGain (t.reg (R.CAL_ADC_APP c.val)) = stepToward (adcGain (s.reg (R.CAL_ADC_APP c.val)))
            (s.cal.goals.getD c.val (0, 0)).2 (s.fld R.CAL_SLEW F.CAL_SLEW_GAIN_STEP : Nat)) ∧
          RegsBut (R.CAL_STATUS :: (List.range 33).map R.CAL_ADC_APP) s t) ∧
  (∀ (c : Fin 33) (val : Word), Completes (.adcTargetWrite c val)
      (fun s => s.flag R.CAL_TRIG F.CAL_TRIG_MAN = true)
      [.events, .regs]
      fun s t => adcOfs (t.reg (R.CAL_ADC_TGT c.val)) = clampInt (-1024) 1024 (adcOfs val) ∧
          adcGain (t.reg (R.CAL_ADC_TGT c.val)) = clampInt 0x6000 0xA000 (adcGain val) ∧ RegsBut [R.CAL_ADC_TGT c.val] s t ∧
          (targetValid (adcOfs val) (adcGain val) = true → t.events = s.events) ∧
          (targetValid (adcOfs val) (adcGain val) = false →
            t.events = (s.logCal 0x9002 c.val (arg (adcOfs val)) (arg (adcGain val)) 1).events)) ∧
  (∀ (c : Fin 33) (val : Word), Completes (.adcTargetWrite c val)
      (fun s => s.flag R.CAL_TRIG F.CAL_TRIG_MAN = false)
      [.events, .regs]
      fun s t => t = s) ∧
  (Completes .comparatorTrim
      (fun s => s.motion.spin.st = .stopped)
      [.events, .regs, .cal]
      fun s t => t.flag R.CAL_STATUS F.CAL_STATUS_TRIM_BUSY = true ∧ t.cal = { s.cal with trimAt := some s.now } ∧ t.events = s.events ∧
          RegsBut [R.CAL_STATUS] s t) ∧
  (Completes .comparatorTrim
      (fun s => s.motion.spin.st ≠ .stopped)
      [.events, .regs, .cal]
      fun s t => t.regs = s.regs ∧ t.cal = s.cal ∧ t.events = (s.logCal 0x9004 (s.fld R.SP_STATUS F.SP_STATUS_STATE)).events) ∧
  (∀ (rise fall : Vector (Fin 64) 3), Completes (.comparatorTrimDone rise fall)
      (fun s => s.flag R.CAL_STATUS F.CAL_STATUS_TRIM_BUSY = true ∧ s.motion.spin.restart = false)
      [.events, .regs, .cal]
      fun s t => t.flag R.CAL_STATUS F.CAL_STATUS_TRIM_BUSY = false ∧ t.cal = { s.cal with trimAt := none } ∧
          t.fld R.CAL_CMP_DAC F.CAL_CMP_DAC_U = ofSigned (floorDiv (dacCode rise[0] + dacCode fall[0]) 2) 6 ∧
          t.fld R.CAL_CMP_DAC F.CAL_CMP_DAC_V = ofSigned (floorDiv (dacCode rise[1] + dacCode fall[1]) 2) 6 ∧
          t.fld R.CAL_CMP_DAC F.CAL_CMP_DAC_W = ofSigned (floorDiv (dacCode rise[2] + dacCode fall[2]) 2) 6 ∧
          RegsBut [R.CAL_STATUS, R.CAL_CMP_DAC] s t) ∧
  (∀ (readings : List Int), Completes (.temperatureReport readings)
      (fun s => s.now % 150000 = 0)
      [.events, .regs, .decode, .host]
      fun s t => ∀ k : Fin 20, t.flag (R.CAL_TEMP k.val) F.CAL_TEMP_VALID = s.sensorValid k.val ∧
          t.fld (R.CAL_TEMP k.val) F.CAL_TEMP_TEMP = if s.sensorValid k.val then ofSigned (readings.getD k.val 0) 16
            else s.fld (R.CAL_TEMP k.val) F.CAL_TEMP_TEMP)

/-- A patch image that passes its checks is loaded into the inactive bank, relocated and with its parity, and waits as PENDING with event 0x6010; one that fails leaves that bank empty with event 0x6011, its check and index. A parity fault or an overrun of 256 words that a bobbin meets starts a machine check with the fault's address and uses up a test fault armed there, unless a match entry redirects the fetch. The test write arms a fault only under the debug unlock, and with event 0x6014 without it, and CLEAR empties the recorded address. A distribution error is counted and shown, and the fourth in a row of the decode island sets its stamp-fault bit and starts a machine check. -/
def Obligations.ControlStoreCommands : Prop :=
  (∀ (image : List Byte), Completes (.patchLoad image)
      (fun s => (parsePatch (image.map (·.toNat))).refusal (s.reg R.CS_ROM_ID).toNat = none)
      [.events, .regs, .seq]
      fun s t => t.bankOf (1 - s.activeBank) = (parsePatch (image.map (·.toNat))).bank (1 - s.activeBank) ∧
          t.events = (s.logSeq 0x6010 (1 - s.activeBank) (parsePatch (image.map (·.toNat))).version
            (parsePatch (image.map (·.toNat))).nWords (parsePatch (image.map (·.toNat))).nMatch).events ∧
          t.flag R.CS_STATUS F.CS_STATUS_PENDING = true ∧ RegsBut [R.CS_STATUS] s t ∧ t.bankOf s.activeBank = s.bankOf s.activeBank) ∧
  (∀ (image : List Byte) (check idx : Nat), Completes (.patchLoad image)
      (fun s => (parsePatch (image.map (·.toNat))).refusal (s.reg R.CS_ROM_ID).toNat = some (check, idx))
      [.events, .regs, .seq]
      fun s t => t.bankOf (1 - s.activeBank) = PatchBank.empty ∧ t.flag R.CS_STATUS F.CS_STATUS_PENDING = false ∧ RegsBut [R.CS_STATUS] s t ∧
          t.events = (s.logSeq 0x6011 (parsePatch (image.map (·.toNat))).version check idx).events) ∧
  (∀ (b : Fin 24) (uaddr : Fin 32768) (mask : Fin 256), Completes (.controlStoreParityError b uaddr mask)
      (fun s => s.served b = true ∧ s.redirected uaddr.val = false ∧ s.mcActive = false)
      [.events, .regs, .msix, .seq, .out]
      fun s t => t.mcActive = true ∧ (s.seq.inject = some uaddr.val → t.seq.inject = none) ∧
          t.fld R.CS_MC_ADDR F.CS_MC_ADDR_UADDR = uaddr.val) ∧
  (∀ (b : Fin 24) (uaddr : Fin 32768), Completes (.safePointOverrun b uaddr)
      (fun s => s.served b = true ∧ s.mcActive = false)
      [.events, .regs, .msix, .seq, .out]
      fun s t => t.mcActive = true ∧ t.seq.inject = s.seq.inject ∧ t.fld R.CS_MC_ADDR F.CS_MC_ADDR_UADDR = uaddr.val) ∧
  (∀ (rom : Fin 16384), Completes (.csTestWrite rom)
      (fun s => testBitN (s.fld R.SEC_STATUS F.SEC_STATUS_DBG) 1 = true)
      [.events, .seq]
      fun s t => t.seq = { s.seq with inject := some rom.val } ∧ t.events = s.events) ∧
  (∀ (rom : Fin 16384), Completes (.csTestWrite rom)
      (fun s => testBitN (s.fld R.SEC_STATUS F.SEC_STATUS_DBG) 1 = false)
      [.events, .seq]
      fun s t => t.seq = s.seq ∧ t.events = (s.logSeq 0x6014).events) ∧
  (Completes .mcAddrClear
      (fun _ => True)
      [.regs]
      fun s t => t.reg R.CS_MC_ADDR = 0 ∧ RegsBut [R.CS_MC_ADDR] s t) ∧
  (∀ (isl : Island) (prev sample : Nat), Completes (.distributionError isl prev sample)
      (fun s => s.time.dist = [] ∧ (sample < prev ∨ prev + islandCycle isl + 1 < sample))
      [.time, .events, .regs]
      fun s t => t.flag R.TB_STATUS F.TB_STATUS_DIST_ERR_SEEN = true ∧
          t.fld R.TB_FAULT_CNT F.TB_FAULT_CNT_DIST_ERR_CNT = min 0xFFFF (s.fld R.TB_FAULT_CNT F.TB_FAULT_CNT_DIST_ERR_CNT + 1) ∧
          RegsBut [R.TB_STATUS, R.TB_FAULT_CNT] s t ∧ t.time.tb = s.time.tb) ∧
  (∀ (prev sample : Nat) (d : DistState), Completes (.distributionError .decode prev sample)
      (fun s => s.time.dist = [(16, d)] ∧ d.run = 3 ∧ s.now ≤ d.tick + 2 ∧ sample < d.used ∧ s.mcActive = false)
      [.time, .events, .regs, .msix, .domains, .heads, .decode, .loop, .seq, .mem, .motion, .out]
      fun _ t => testBitN (t.reg R.TB_STAMP_FAULT).toNat 16 = true ∧ t.mcActive = true)

/-- On a usable link a frame with a valid header, the expected count and no invalid sync header that arrives on time at the receiver pair of an active lane is kept until the header after it verifies it, with no event and no register changed. A header that is missing counts one error against its lane, in the lane and in TL_ERR_CNT; below BURST errors the lane stays active and no event is logged. At the end of a lane's error window its errors start again from 0. A retraining lane that has not rejoined 30,000 ticks after its PRBS began asks for another attempt, or has failed after its last one, with event 0x2004. -/
def Obligations.UplinkFrames : Prop :=
  (∀ (head : Fin 16) (pair lane : Fin 4) (arrival : Stamp) (hdr : Block) (blocks : List Block), Completes (.upFrame head pair arrival hdr blocks)
      (fun s => (s.head head).link.usable = true ∧ (s.head head).link.training = none ∧ (s.head head).link.pairs[pair] = some lane ∧
          (s.lane head lane).st = .active ∧ (s.lane head lane).cur = none ∧ (s.lane head lane).follows (parseHdr hdr) = true ∧ hdrValid hdr = true ∧ (parseHdr hdr).lane = lane.val ∧
          frameStamp (parseHdr hdr).fcnt arrival + (s.lane head lane).latUp = arrival ∧
          (∀ b ∈ hdr :: blocks, b.sync = 1 ∨ b.sync = 2) ∧ blockLockLost (s.lane head lane).syncBad ((hdr :: blocks).map fun _ => false) = false)
      [.events, .regs, .heads, .decode, .loop, .seq, .mem, .motion, .out]
      fun s t => (t.lane head lane).cur = some ⟨parseHdr hdr, blocks, frameStamp (parseHdr hdr).fcnt arrival⟩ ∧
          (t.lane head lane).next = some (((parseHdr hdr).fcnt + 1) % 65536) ∧ t.regs = s.regs ∧
          t.events = s.events ∧ (∀ k : Fin 4, k ≠ lane → t.lane head k = s.lane head k) ∧ HeadsBut head s t) ∧
  (∀ (head : Fin 16) (lane : Fin 4) (fcnt : Fin 65536), Completes (.upFrameMissing head lane fcnt)
      (fun s => (s.head head).link.usable = true ∧ (s.head head).link.training = none ∧ (s.lane head lane).st = .active ∧
          (s.lane head lane).cur = none ∧
          (s.lane head lane).errs + 1 < s.fld (R.TL_ERR_CFG head.val) F.TL_ERR_CFG_BURST)
      [.events, .regs, .heads, .decode, .loop, .seq, .mem, .motion, .out]
      fun s t => (t.lane head lane).errs = (s.lane head lane).errs + 1 ∧ (t.lane head lane).st = .active ∧ (t.lane head lane).cur = none ∧
          RegsBut [R.TL_ERR_CNT head.val] s t ∧ t.events = s.events ∧ HeadsBut head s t) ∧
  (∀ (head : Fin 16) (lane : Fin 4), Completes (.laneErrorWindowEnd head lane)
      (fun s => (s.lane head lane).st = .active ∧
          (s.lane head lane).winStart + s.fld (R.TL_ERR_CFG head.val) F.TL_ERR_CFG_WINDOW * 3072 ≤ s.now)
      [.heads]
      fun s t => (t.lane head lane).errs = 0 ∧
          (t.lane head lane).winStart = (s.lane head lane).winStart + s.fld (R.TL_ERR_CFG head.val) F.TL_ERR_CFG_WINDOW * 3072 ∧
          (t.lane head lane).st = .active ∧ (∀ k : Fin 4, k ≠ lane → t.lane head k = s.lane head k) ∧ HeadsBut head s t) ∧
  (∀ (head : Fin 16) (lane : Fin 4) (p : Stamp), Completes (.laneRetrainTimeout head lane)
      (fun s => (s.lane head lane).prbsAt = some p ∧ p + 30000 ≤ s.now ∧ (s.lane head lane).st = .training ∧ (s.head head).link.usable = true ∧
          s.fld (R.TL_ERR_CFG head.val) F.TL_ERR_CFG_RETRIES ≤ (s.lane head lane).attempts)
      [.events, .heads]
      fun s t => (t.lane head lane).st = .failed ∧ (t.lane head lane).prbsAt = none ∧
          (t.head head).link.queue = (s.head head).link.queue ++ [⟨.lane lane.val 2, s.now, false⟩] ∧
          t.events = (s.logHead head 0x2004 lane.val (s.lane head lane).attempts).events) ∧
  (∀ (head : Fin 16) (lane : Fin 4) (p : Stamp), Completes (.laneRetrainTimeout head lane)
      (fun s => (s.lane head lane).prbsAt = some p ∧ p + 30000 ≤ s.now ∧ (s.lane head lane).st = .training ∧ (s.head head).link.usable = true ∧
          (s.lane head lane).attempts < s.fld (R.TL_ERR_CFG head.val) F.TL_ERR_CFG_RETRIES)
      [.events, .heads]
      fun s t => (t.lane head lane).st = .training ∧ (t.lane head lane).attempts = (s.lane head lane).attempts + 1 ∧
          (t.head head).link.queue = (s.head head).link.queue ++ [⟨.lane lane.val 0, s.now, false⟩] ∧ t.events = s.events)

/-- The oldest verified block of its kind is taken. The span of a servo block's samples joins the spans that the chevron timer has; a quadrant set travels to the loop engine with the invalid mark that the front end gave it; a housekeeping item keeps its latest value, and the derate item sets F by its line and clears HK_STALE. A STAT with no bad frame, and no change of the safe state, judges the frames that it covers and shows the front end's state in TL_STATUS. CAP shows the declared version, latencies, depth and limit, or the front end's identifier. The REPLY to an echo forms RT (a result below 0 is taken as 0, log entry 143) and makes ALIGN the next step, the REPLY to a read ends the instruction that waits for it with its data, and an event of the front end is logged. -/
def Obligations.SideBlocks : Prop :=
  (∀ (head : Fin 16) (b : SideBlock) (rest : List SideBlock), Completes (.srfBlock head)
      (fun s => (s.head head).link.side = b :: rest ∧ b.kind = 1 ∧ b.invalid = false)
      [.heads]
      fun s t => (t.head head).link.side = rest ∧ (t.head head).link.srf =
            addSpan (b.c0 - 48 * feK s head + 24 * b.part) (b.c0 - 48 * feK s head + 24 * b.part + 24) (s.head head).link.srf ∧ HeadsBut head s t) ∧
  (∀ (head : Fin 16) (b : SideBlock) (rest : List SideBlock), Completes (.quadBlock head)
      (fun s => (s.head head).link.side = b :: rest ∧ b.kind = 2)
      [.heads, .loop]
      fun s t => (t.head head).link.side = rest ∧ (t.loopHead head).xing = (s.loopHead head).xing ++
            [.quad { stamp := b.c0 - 48 * feK s head, seen := 0, a := toSigned (b.data / 2 ^ 36 % 2 ^ 12) 12,
                     b := toSigned (b.data / 2 ^ 24 % 2 ^ 12) 12, c := toSigned (b.data / 2 ^ 12 % 2 ^ 12) 12,
                     d := toSigned (b.data % 2 ^ 12) 12, invalid := b.invalid }] ∧ HeadsBut head s t ∧
          ∀ m : Fin 16, m ≠ head → t.loopHead m = s.loopHead m) ∧
  (∀ (head : Fin 16) (b : SideBlock) (rest : List SideBlock), Completes (.hkBlock head)
      (fun s => (s.head head).link.side = b :: rest ∧ b.kind = 3 ∧ b.invalid = false ∧ s.flag (R.HD_DERATE_CTRL head.val) F.HD_DERATE_CTRL_EN = false)
      [.events, .regs, .heads, .decode, .mem, .out]
      fun s t => (t.head head).link.hk.lookup (natBits b.data 47 40) = some (natBits b.data 39 0, s.now) ∧ (t.head head).link.side = rest ∧
          t.regs = s.regs ∧ t.events = s.events ∧ HeadsBut head s t) ∧
  (∀ (head : Fin 16) (b : SideBlock) (rest : List SideBlock), Completes (.hkBlock head)
      (fun s => (s.head head).link.side = b :: rest ∧ b.kind = 3 ∧ b.invalid = false ∧ (s.head head).pass = none ∧
          s.flag (R.HD_DERATE_CTRL head.val) F.HD_DERATE_CTRL_EN = true ∧
          natBits b.data 47 40 = s.fld (R.HD_DERATE_CTRL head.val) F.HD_DERATE_CTRL_HK_ITEM)
      [.events, .regs, .heads, .decode, .mem, .out]
      fun s t => t.fld (R.HD_LASER_STATUS head.val) F.HD_LASER_STATUS_DERATE =
            derateOf (toSigned (s.fld (R.HD_DERATE_CFG head.val) F.HD_DERATE_CFG_T0) 16)
              (toSigned (s.fld (R.HD_DERATE_CFG head.val) F.HD_DERATE_CFG_T1) 16) (toSigned (natBits b.data 39 0) 16) ∧
          t.flag (R.HD_LASER_STATUS head.val) F.HD_LASER_STATUS_HK_STALE = false ∧ (t.head head).laser.staleFrom = s.now ∧
          RegsBut [R.HD_LASER_STATUS head.val] s t ∧ HeadsBut head s t) ∧
  (∀ (head : Fin 16) (b : SideBlock) (rest : List SideBlock), Completes (.statBlock head)
      (fun s => (s.head head).link.side = b :: rest ∧ b.kind = 4 ∧ b.invalid = false ∧ (s.head head).fe = [] ∧
          natBits b.data 31 24 = 0 ∧ testBitN b.data 11 = false ∧ testBitN b.data 10 = (s.head head).link.feSafe ∧
          testBitN b.data 8 = true ∧ testBitN b.data 7 = true ∧ (testBitN b.data 9 = true ∨ (s.head head).writingNow = false))
      [.regs, .heads]
      fun s t => (t.head head).link.lastStat = some s.now ∧ (t.head head).link.side = rest ∧
          (t.head head).link.feSafe = testBitN b.data 10 ∧ (t.head head).link.queue = (s.head head).link.queue ∧
          (t.head head).link.sent = (s.head head).link.sent.filter (fun f => decide (8 ≤ (natBits b.data 47 32 + 65536 - f % 65536) % 65536)) ∧
          (t.head head).link.state = (s.head head).link.state ∧ (t.head head).laser.feLen = testBitN b.data 9 ∧
          t.flag (R.TL_STATUS head.val) F.TL_STATUS_FE_SAFE = testBitN b.data 10 ∧
          t.flag (R.TL_STATUS head.val) F.TL_STATUS_FE_PLL_LOCK = true ∧ t.flag (R.TL_STATUS head.val) F.TL_STATUS_DL_LOCK = true ∧
          RegsBut [R.TL_STATUS head.val] s t ∧ HeadsBut head s t) ∧
  (∀ (head : Fin 16) (b : SideBlock) (rest : List SideBlock), Completes (.capBlock head)
      (fun s => (s.head head).link.side = b :: rest ∧ b.kind = 5 ∧ b.invalid = false ∧ b.part = 0)
      [.regs, .heads]
      fun s t => t.fld (R.TL_FE_CAP head.val) F.TL_FE_CAP_VERSION = natBits b.data 47 40 ∧
          t.fld (R.TL_FE_CAP head.val) F.TL_FE_CAP_L_RX = natBits b.data 39 32 ∧
          t.fld (R.TL_FE_CAP head.val) F.TL_FE_CAP_L_TX = natBits b.data 31 24 ∧
          t.fld (R.TL_FE_CAP head.val) F.TL_FE_CAP_K = natBits b.data 23 20 ∧
          t.fld (R.TL_FE_CAP head.val) F.TL_FE_CAP_WMAX = natBits b.data 19 16 ∧ (t.head head).link.side = rest ∧
          RegsBut [R.TL_FE_CAP head.val] s t ∧ HeadsBut head s t) ∧
  (∀ (head : Fin 16) (b : SideBlock) (rest : List SideBlock), Completes (.capBlock head)
      (fun s => (s.head head).link.side = b :: rest ∧ b.kind = 5 ∧ b.invalid = false ∧ b.part ≠ 0)
      [.regs, .heads]
      fun s t => t.reg (R.TL_FE_ID head.val) = BitVec.ofNat 32 (natBits b.data 47 16) ∧ RegsBut [R.TL_FE_ID head.val] s t) ∧
  (∀ (head : Fin 16) (arrival : Stamp) (b : SideBlock) (rest : List SideBlock) (tr : Training) (f : Nat), Completes (.replyBlock head arrival)
      (fun s => (s.head head).link.side = b :: rest ∧ b.kind = 6 ∧ b.invalid = false ∧ natBits b.data 47 40 = 0 ∧
          (s.head head).link.training = some tr ∧ tr.step = .echoSent ∧ tr.echoes.find? (fun x => x % 256 == natBits b.data 39 32) = some f)
      [.regs, .heads]
      fun s t => ((t.head head).link.rt : Int) = max 0 ((arrival : Int) - 48 * (f + 1) - feRx s head - natBits b.data 31 0 - feTx s head) ∧
          (t.head head).link.training = some { tr with step := .alignSent } ∧
          t.fld (R.TL_ALIGN head.val) F.TL_ALIGN_RT = (t.head head).link.rt % 2 ^ F.TL_ALIGN_RT.width ∧
          RegsBut [R.TL_ALIGN head.val] s t ∧ HeadsBut head s t) ∧
  (∀ (head : Fin 16) (arrival : Stamp) (b : SideBlock) (rest : List SideBlock) (f : FeReq), Completes (.replyBlock head arrival)
      (fun s => (s.head head).link.side = b :: rest ∧ b.kind = 6 ∧ b.invalid = false ∧ natBits b.data 47 40 = 2 ∧ (s.head head).fe = [f] ∧
          f.kind = .read ∧ f.frame.map (· % 256) = some (natBits b.data 39 32))
      [.events, .regs, .heads, .seq, .mem, .out]
      fun s t => (t.head head).fe = [] ∧ t.seq = (s.completeHead head f.who 0 (natBits b.data 31 0)).seq ∧ t.regs = s.regs ∧ t.events = s.events) ∧
  (∀ (head : Fin 16) (b : SideBlock) (rest : List SideBlock), Completes (.feevBlock head)
      (fun s => (s.head head).link.side = b :: rest ∧ b.kind = 7 ∧ b.invalid = false)
      [.events, .heads]
      fun s t => (t.head head).link.side = rest ∧ t.events = (s.logHead head 0x2009 (natBits b.data 47 32) (natBits b.data 31 0)).events ∧
          HeadsBut head s t)

/-- At a multiple of 48 ticks an UP link with no pass, no training and no servo set-point that waits launches the D0 frame of that number: all idle where nothing waits, the SAFE that waits in its first position where one does. The frame before it has then left on the line with its scrambler state, its CRC stands in the new frame's header, and a SAFE that it carried is held for a STAT. Messages whose frame no STAT has covered within eight later frames go back to the front of the queue, to be sent again. A SAFE asked for on a usable link is queued, one asked for in training waits for the training, and one asked for while DOWN is discarded. -/
def Obligations.DownlinkFrames : Prop :=
  (∀ (head : Fin 16), Completes (.d0FrameLaunch head)
      (fun s => s.now % 48 = 0 ∧ (s.head head).link.state = .up ∧ (s.head head).pass = none ∧ (s.head head).link.training = none ∧
          (s.head head).link.servoQ = [] ∧ (s.head head).link.displaced = [] ∧ (s.head head).link.queue = [] ∧ (s.head head).link.d0 = none)
      [.events, .regs, .heads, .mem, .out]
      fun s t => (t.head head).link.d0 = some ⟨s.now / 48, 2, 0, List.replicate 24 .idle⟩ ∧ (t.head head).link.lastD0 = some (s.now / 48) ∧
          (t.head head).link.sent = s.now / 48 :: (s.head head).link.sent.take 31 ∧ (t.head head).link.queue = [] ∧ t.regs = s.regs ∧
          t.out = s.out ∧ HeadsBut head s t) ∧
  (∀ (head : Fin 16), Completes (.d0FrameLaunch head)
      (fun s => s.now % 48 = 0 ∧ (s.head head).link.state = .up ∧ (s.head head).pass = none ∧ (s.head head).link.training = none ∧
          (s.head head).link.servoQ = [] ∧ (s.head head).link.displaced = [] ∧ (s.head head).link.queue.map (·.msg) = [.safe] ∧
          (s.head head).link.d0 = none)
      [.events, .regs, .heads, .mem, .out]
      fun s t => (t.head head).link.d0 = some ⟨s.now / 48, 2, 0, .msg .safe 0 :: List.replicate 23 .idle⟩ ∧ (t.head head).link.queue = [] ∧
          t.regs = s.regs ∧ t.out = s.out ∧ HeadsBut head s t) ∧
  (∀ (head : Fin 16) (f : D0Frame), Completes (.d0FrameLaunch head)
      (fun s => s.now % 48 = 0 ∧ (s.head head).link.state = .up ∧ (s.head head).pass = none ∧ (s.head head).link.training = none ∧
          (s.head head).link.servoQ = [] ∧ (s.head head).link.displaced = [] ∧ (s.head head).link.queue = [] ∧ (s.head head).fe = [] ∧
          (s.head head).link.d0 = some f ∧ f.slots = .msg .safe 0 :: List.replicate 23 .idle)
      [.events, .regs, .heads, .mem, .out]
      fun s t => t.out = .d0 head.val f (s.head head).link.scram :: s.out ∧ (t.head head).link.scram = (f.line (s.head head).link.scram).2 ∧
          (t.head head).link.d0 = some ⟨s.now / 48, 2, f.sum, List.replicate 24 .idle⟩ ∧
          (t.head head).link.held = (s.head head).link.held ++ [⟨.safe, f.frame⟩] ∧ t.regs = s.regs ∧ HeadsBut head s t) ∧
  (∀ (head : Fin 16) (f : Nat), Completes (.messageResend head)
      (fun s => (s.head head).link.lastD0 = some f ∧ ∀ m ∈ (s.head head).link.held, m.frame + 8 ≤ f)
      [.heads]
      fun s t => (t.head head).link.held = [] ∧ (t.head head).link.lastD0 = some f ∧ (t.head head).link.queue =
            (s.head head).link.held.map (fun m => ⟨m.msg, s.now, true⟩) ++ (s.head head).link.queue ∧ HeadsBut head s t) ∧
  (∀ (head : Fin 16) (f : Nat), Completes (.messageResend head)
      (fun s => (s.head head).link.lastD0 = some f ∧ ∀ m ∈ (s.head head).link.held, f < m.frame + 8)
      [.heads]
      fun s t => t = s) ∧
  (∀ (head : Fin 16), Completes (.feSafeRequest head)
      (fun s => (s.head head).link.usable = true)
      [.heads]
      fun s t => (t.head head).link.queue = (s.head head).link.queue ++ [⟨.safe, s.now, false⟩] ∧ HeadsBut head s t) ∧
  (∀ (head : Fin 16) (tr : Training), Completes (.feSafeRequest head)
      (fun s => (s.head head).link.state = .train ∧ (s.head head).link.training = some tr)
      [.heads]
      fun s t => (t.head head).link.training = some { tr with safe := true } ∧ (t.head head).link.queue = (s.head head).link.queue ∧ HeadsBut head s t) ∧
  (∀ (head : Fin 16), Completes (.feSafeRequest head)
      (fun s => (s.head head).link.state = .down)
      [.heads]
      fun s t => t = s)

/-- For a head with nothing in progress: enabling a link that is DOWN on a head in service, and a retrain from any other state, start a training from its first step with the link's error counters at 0; a realignment keeps the active lanes and starts at the alignment; disabling goes to DOWN with every lane off; a retrain or realignment in the very tick of a fault, and a realignment in DOWN or TRAIN, change nothing. Eight frames without a STAT are a fault: one SAFE is queued and event 0x2005 is logged with cause 3. The receivers' adaptation in time carries a training to its second step; an attempt that misses the bound of its first step starts again while attempts are left, and ends in FAULT with cause 5 when none is. -/
def Obligations.LinkStates : Prop :=
  (∀ (head : Fin 16), Completes (.linkEnable head)
      (fun s => (s.head head).link.state = .down ∧ s.headInService head.val = true ∧ HeadIdle s head)
      [.events, .regs, .heads, .decode, .loop, .seq, .mem, .motion, .out]
      fun s t => (t.head head).link.state = .train ∧ (t.head head).link.training = some ⟨s.now, false, 1, .forwardClock, false, [], 0, [], false⟩ ∧
          (∀ k : Fin 4, (t.lane head k).st = .training) ∧ t.flag (R.TL_CTRL head.val) F.TL_CTRL_ENABLE = true ∧
          t.flag (R.TL_STATUS head.val) F.TL_STATUS_ALIGNED = false ∧ t.reg (R.TL_ERR_CNT head.val) = 0 ∧ t.reg (R.TL_DL_CNT head.val) = 0 ∧
          RegsBut [R.TL_CTRL head.val, R.TL_STATUS head.val, R.TL_ERR_CNT head.val, R.TL_DL_CNT head.val] s t ∧ t.events = s.events ∧
          HeadsBut head s t) ∧
  (∀ (head : Fin 16), Completes (.linkDisable head)
      (fun s => (s.head head).link.state ≠ .down ∧ HeadIdle s head)
      [.events, .regs, .heads, .decode, .loop, .seq, .mem, .motion, .out]
      fun s t => (t.head head).link.state = .down ∧ (t.head head).link.training = none ∧ (∀ k : Fin 4, t.lane head k = Lane.off) ∧
          (t.head head).link.queue = [] ∧ t.flag (R.TL_CTRL head.val) F.TL_CTRL_ENABLE = false ∧
          t.flag (R.TL_STATUS head.val) F.TL_STATUS_ALIGNED = false ∧ RegsBut [R.TL_CTRL head.val, R.TL_STATUS head.val] s t ∧
          t.events = s.events ∧ HeadsBut head s t) ∧
  (∀ (head : Fin 16), Completes (.linkRetrain head)
      (fun s => (s.head head).link.state ≠ .down ∧ (s.head head).link.justFaulted s.now = false ∧ HeadIdle s head)
      [.events, .regs, .heads, .decode, .loop, .seq, .mem, .motion, .out]
      fun s t => (t.head head).link.state = .train ∧ (t.head head).link.training = some ⟨s.now, false, 1, .forwardClock, false, [], 0, [], false⟩ ∧
          (∀ k : Fin 4, (t.lane head k).st = .training) ∧ t.flag (R.TL_STATUS head.val) F.TL_STATUS_ALIGNED = false ∧
          RegsBut [R.TL_STATUS head.val, R.TL_ERR_CNT head.val, R.TL_DL_CNT head.val] s t ∧ t.events = s.events ∧ HeadsBut head s t) ∧
  (∀ (head : Fin 16), Completes (.linkRealign head)
      (fun s => ((s.head head).link.state = .up ∨ (s.head head).link.state = .degraded ∨ (s.head head).link.state = .fault) ∧
          (s.head head).link.justFaulted s.now = false ∧ HeadIdle s head)
      [.events, .regs, .heads, .decode, .loop, .seq, .mem, .motion, .out]
      fun s t => (t.head head).link.state = .train ∧ (t.head head).link.training = some ⟨s.now, true, 1, .lanesLocked, false, [], 0, [], false⟩ ∧
          (∀ k : Fin 4, (t.lane head k).st = if (s.lane head k).st = .active then .active else .failed) ∧
          t.flag (R.TL_STATUS head.val) F.TL_STATUS_ALIGNED = false ∧ t.events = s.events ∧ HeadsBut head s t) ∧
  (∀ (head : Fin 16), Completes (.linkRealign head)
      (fun s => (s.head head).link.state = .down ∨ (s.head head).link.state = .train ∨ (s.head head).link.justFaulted s.now = true)
      [.events, .regs, .heads, .decode, .loop, .seq, .mem, .motion, .out]
      fun s t => t = s) ∧
  (∀ (head : Fin 16), Completes (.statTimeout head)
      (fun s => (s.head head).link.usable = true ∧ (s.head head).link.lastStat.getD 0 + 384 ≤ s.now ∧ HeadIdle s head)
      [.events, .regs, .heads, .decode, .loop, .seq, .mem, .motion, .out]
      fun s t => (t.head head).link.state = .fault ∧ (t.head head).link.queue = [⟨.safe, s.now, false⟩] ∧
          t.regs = s.regs ∧ t.events = (s.logHead head 0x2005 3).events ∧ HeadsBut head s t) ∧
  (∀ (head : Fin 16) (tr : Training), Completes (.trainingReceiversAdapted head)
      (fun s => (s.head head).link.training = some tr ∧ tr.step = .forwardClock ∧ s.now ≤ tr.t0 + 3000000)
      [.heads]
      fun s t => (t.head head).link.training = some { tr with step := .receiversAdapted } ∧ HeadsBut head s t) ∧
  (∀ (head : Fin 16) (tr : Training), Completes (.trainingAttemptTimeout head)
      (fun s => (s.head head).link.training = some tr ∧ trainBound (s.head head).link tr ≤ s.now ∧ tr.step = .forwardClock ∧ tr.realign = false ∧
          tr.attempts < s.fld (R.TL_ERR_CFG head.val) F.TL_ERR_CFG_RETRIES)
      [.events, .regs, .heads, .decode, .loop, .seq, .mem, .motion, .out]
      fun s t => (t.head head).link.training = 
            some { tr with t0 := s.now, attempts := tr.attempts + 1, locked := [], echoes := [], capSeen := false } ∧
          (t.head head).link.state = (s.head head).link.state ∧ t.regs = s.regs ∧ t.events = s.events ∧ HeadsBut head s t) ∧
  (∀ (head : Fin 16) (tr : Training), Completes (.trainingAttemptTimeout head)
      (fun s => (s.head head).link.state = .train ∧ (s.head head).link.training = some tr ∧ trainBound (s.head head).link tr ≤ s.now ∧ tr.step = .forwardClock ∧ HeadIdle s head ∧
          s.fld (R.TL_ERR_CFG head.val) F.TL_ERR_CFG_RETRIES ≤ tr.attempts)
      [.events, .regs, .heads, .decode, .loop, .seq, .mem, .motion, .out]
      fun s t => (t.head head).link.state = .fault ∧ (t.head head).link.training = none ∧ t.events = (s.logHead head 0x2005 5).events ∧
          HeadsBut head s t)

/-- A rearm of a head clears its INH_LATCH when LASER_INH_N has been high for at least 15,000,000 ticks, and no latch of another head changes by it; otherwise nothing changes but that event 0x1205 is logged with the ticks for which the pin has been high. -/
def Obligations.LaserRearm : Prop :=
  (∀ (head : Fin 16), Completes (.laserRearm head)
      (fun s => s.pins.inhLow = false ∧ s.pins.inhSince + 15000000 ≤ s.now)
      [.events, .regs, .heads, .decode, .loop, .seq, .mem, .out]
      fun s t => t.flag (R.HD_LASER_STATUS head.val) F.HD_LASER_STATUS_INH_LATCH = false ∧
          ∀ m : Fin 16, m ≠ head → t.flag (R.HD_LASER_STATUS m.val) F.HD_LASER_STATUS_INH_LATCH =
            s.flag (R.HD_LASER_STATUS m.val) F.HD_LASER_STATUS_INH_LATCH) ∧
  (∀ (head : Fin 16), Completes (.laserRearm head)
      (fun s => s.pins.inhLow = true ∨ s.now < s.pins.inhSince + 15000000)
      [.events]
      fun s t => t.events = (s.logHead head 0x1205 (if s.pins.inhLow then 0 else s.now - s.pins.inhSince)).events)

/-- At a qualifying low on LASER_INH_N, from every state, INH_LATCH is set in every head and every HD_LEN is low, with the pin's time noted; its release clears INH_PIN in every head leaves every INH_LATCH as it is, and notes the time; HD_LEN of a latched head is low after it. -/
def Obligations.InterlockDarkensEveryHead : Prop :=
  (Completes .laserInterlock
      (fun s => s.pins.inhLow = false)
      [.events, .regs, .pins, .heads, .decode, .loop, .seq, .mem, .out]
      fun s t => (∀ n : Fin 16, t.flag (R.HD_LASER_STATUS n.val) F.HD_LASER_STATUS_INH_LATCH = true ∧
            t.flag (R.HD_LASER_STATUS n.val) F.HD_LASER_STATUS_INH_PIN = true ∧ t.hdLen n = false) ∧
          t.pins = { inhLow := true, inhSince := s.cellStamp }) ∧
  (Completes .laserInhRelease
      (fun s => s.pins.inhLow = true)
      [.events, .regs, .pins, .heads, .decode, .loop, .seq, .mem, .out]
      fun s t => (∀ n : Fin 16, t.flag (R.HD_LASER_STATUS n.val) F.HD_LASER_STATUS_INH_PIN = false ∧
            t.flag (R.HD_LASER_STATUS n.val) F.HD_LASER_STATUS_INH_LATCH = s.flag (R.HD_LASER_STATUS n.val) F.HD_LASER_STATUS_INH_LATCH ∧
            (s.flag (R.HD_LASER_STATUS n.val) F.HD_LASER_STATUS_INH_LATCH = true → t.hdLen n = false)) ∧
          t.pins = { inhLow := false, inhSince := s.cellStamp })

/-- A write of LEN_EN is stored and, with no pass and no sequence on the head, HD_LEN takes at once the level that its conditions give. A ceiling is stored while LOCK is 0, and a write of it with LOCK 1 changes no register and logs 0x1209; LOCK sets. A write of HD_DERATE_CTRL that leaves no write gate failing stores its fields: with EN 0 it makes F 256 and clears HK_STALE; with EN 1 it keeps F and starts the item's staleness anew. With no pass open an item without a block for 46,080 ticks makes F 0, sets HK_STALE and logs 0x1203, once. Each changes only the registers it names. -/
def Obligations.LaserRegisters : Prop :=
  (∀ (head : Fin 16) (enable : Bool), Completes (.laserEnableWrite head enable)
      (fun s => (s.head head).pass = none ∧ (s.loopHead head).seq = none)
      [.events, .regs, .heads, .decode, .loop, .seq, .mem, .out]
      fun s t => t.flag (R.HD_LASER_CTRL head.val) F.HD_LASER_CTRL_LEN_EN = enable ∧
          t.hdLen head = (s.setFld (R.HD_LASER_CTRL head.val) F.HD_LASER_CTRL_LEN_EN (bitOf enable)).lenAllowed head ∧
          (enable = false → t.hdLen head = false) ∧
          RegsBut [R.HD_LASER_CTRL head.val, R.HD_LASER_STATUS head.val] s t ∧ t.events = s.events ∧ HeadsBut head s t) ∧
  (∀ (head : Fin 16) (write : Bool) (val : Nat), Completes (.ceilingWrite head write val)
      (fun s => s.flag (R.HD_CEIL_WR head.val) F.HD_CEIL_WR_LOCK = false)
      [.events, .regs]
      fun s t => (if write then t.fld (R.HD_CEIL_WR head.val) F.HD_CEIL_WR_CEIL else t.fld (R.HD_CEIL_RD head.val) F.HD_CEIL_RD_CEIL) =
            val % 2 ^ 23 ∧ t.flag (R.HD_CEIL_WR head.val) F.HD_CEIL_WR_LOCK = false ∧ t.events = s.events ∧
          RegsBut [if write then R.HD_CEIL_WR head.val else R.HD_CEIL_RD head.val] s t) ∧
  (∀ (head : Fin 16) (write : Bool) (val : Nat), Completes (.ceilingWrite head write val)
      (fun s => s.flag (R.HD_CEIL_WR head.val) F.HD_CEIL_WR_LOCK = true)
      [.events, .regs]
      fun s t => t.regs = s.regs ∧
          t.events = (s.logHead head 0x1209 (if write then R.HD_CEIL_WR head.val else R.HD_CEIL_RD head.val)).events) ∧
  (∀ (head : Fin 16), Completes (.ceilingLock head)
      (fun _ => True)
      [.regs]
      fun s t => t.flag (R.HD_CEIL_WR head.val) F.HD_CEIL_WR_LOCK = true ∧
          t.fld (R.HD_CEIL_WR head.val) F.HD_CEIL_WR_CEIL = s.fld (R.HD_CEIL_WR head.val) F.HD_CEIL_WR_CEIL ∧ RegsBut [R.HD_CEIL_WR head.val] s t) ∧
  (∀ (head : Fin 16) (val : Word), Completes (.derateEnableWrite head val)
      (fun s => getFlag val F.HD_DERATE_CTRL_EN = false ∧ ((s.head head).pass = none ∨ getField val F.HD_DERATE_CTRL_MIN_F ≤ 256))
      [.events, .regs, .heads, .decode, .mem, .out]
      fun s t => t.fld (R.HD_LASER_STATUS head.val) F.HD_LASER_STATUS_DERATE = 256 ∧
          t.flag (R.HD_LASER_STATUS head.val) F.HD_LASER_STATUS_HK_STALE = false ∧
          t.fld (R.HD_DERATE_CTRL head.val) F.HD_DERATE_CTRL_MIN_F = getField val F.HD_DERATE_CTRL_MIN_F ∧
          t.fld (R.HD_DERATE_CTRL head.val) F.HD_DERATE_CTRL_HK_ITEM = getField val F.HD_DERATE_CTRL_HK_ITEM ∧
          t.flag (R.HD_DERATE_CTRL head.val) F.HD_DERATE_CTRL_EN = false ∧
          RegsBut [R.HD_DERATE_CTRL head.val, R.HD_LASER_STATUS head.val] s t ∧ t.events = s.events ∧ t.heads = s.heads) ∧
  (∀ (head : Fin 16) (val : Word), Completes (.derateEnableWrite head val)
      (fun s => getFlag val F.HD_DERATE_CTRL_EN = true ∧
          ((s.head head).pass = none ∨ getField val F.HD_DERATE_CTRL_MIN_F ≤ s.fld (R.HD_LASER_STATUS head.val) F.HD_LASER_STATUS_DERATE))
      [.events, .regs, .heads, .decode, .mem, .out]
      fun s t => (t.head head).laser.staleFrom = s.now ∧ t.flag (R.HD_DERATE_CTRL head.val) F.HD_DERATE_CTRL_EN = true ∧
          t.fld (R.HD_DERATE_CTRL head.val) F.HD_DERATE_CTRL_MIN_F = getField val F.HD_DERATE_CTRL_MIN_F ∧
          t.fld (R.HD_DERATE_CTRL head.val) F.HD_DERATE_CTRL_HK_ITEM = getField val F.HD_DERATE_CTRL_HK_ITEM ∧
          RegsBut [R.HD_DERATE_CTRL head.val] s t ∧ HeadsBut head s t) ∧
  (∀ (head : Fin 16), Completes (.derateStale head)
      (fun s => s.flag (R.HD_DERATE_CTRL head.val) F.HD_DERATE_CTRL_EN = true ∧ (s.head head).pass = none ∧
          (s.head head).laser.staleTold = false ∧ (s.head head).laser.staleFrom + 46080 ≤ s.now)
      [.events, .regs, .heads, .decode, .mem, .out]
      fun s t => t.fld (R.HD_LASER_STATUS head.val) F.HD_LASER_STATUS_DERATE = 0 ∧
          t.flag (R.HD_LASER_STATUS head.val) F.HD_LASER_STATUS_HK_STALE = true ∧ RegsBut [R.HD_LASER_STATUS head.val] s t ∧ HeadsBut head s t ∧
          (t.head head).laser = { (s.head head).laser with staleTold := true } ∧
          t.events = (s.logHead head 0x1203 (s.fld (R.HD_DERATE_CTRL head.val) F.HD_DERATE_CTRL_HK_ITEM) (s.head head).laser.lastTemp).events) ∧
  (∀ (head : Fin 16), Completes (.derateStale head)
      (fun s => s.flag (R.HD_DERATE_CTRL head.val) F.HD_DERATE_CTRL_EN = false ∨ (s.head head).laser.staleTold = true ∨ s.now < (s.head head).laser.staleFrom + 46080)
      [.events, .regs, .heads, .decode, .mem, .out]
      fun s t => t = s)

/-- Where no frame has been accepted yet and no pass is open, a frame whose two crossings lie in verified samples is accepted: it joins the flywheel and MISS_RUN is 0. A frame without its second crossing, or an absent one, raises MISS_RUN by one, and the 32nd in a row with nothing open empties the flywheel, clears READY, sets LOST_SEEN and logs 0x1302. The 31 tags of a word whose CRC holds are its first word; a second in agreement sets ADDR_OK, HD_ADDR and the expected address and locates the seam; with nothing open a word that disagrees with the expected address clears ADDR_OK and READY, becomes the first of two and logs 0x1301. A pitch from 160 to 320 nm is stored with LEADIN, and another is refused with 0x1303. No other register changes. How frames are numbered before the seam is located is log entry 146. -/
def Obligations.ServoFraming : Prop :=
  (∀ (head : Fin 16) (no : Nat) (f b : Stamp) (span : Nat), Completes (.servoFrame head no (some f) (some b) span)
      (fun s => s.headInService head.val = true ∧ (s.head head).fly.nextIdx ≤ no ∧ (s.head head).link.found (some f) = some f ∧
          (s.head head).link.found (some b) = some b ∧ (s.head head).fly.frames = [] ∧ (s.head head).pass = none)
      [.events, .regs, .heads, .decode, .loop, .seq, .mem, .motion, .out]
      fun s t => (t.head head).fly.frames = [⟨no + (s.head head).fly.origin, f + b⟩] ∧ (t.head head).fly.nextIdx = no + 1 ∧
          t.fld (R.HD_FLY_STATUS head.val) F.HD_FLY_STATUS_MISS_RUN = 0 ∧ flyReady t head = false ∧
          RegsBut [R.HD_FLY_STATUS head.val] s t ∧ t.events = s.events ∧ HeadsBut head s t) ∧
  (∀ (head : Fin 16) (no : Nat) (fwd : Option Stamp) (span : Nat), Completes (.servoFrame head no fwd none span)
      (fun s => s.headInService head.val = true ∧ (s.head head).fly.nextIdx ≤ no ∧
          s.fld (R.HD_FLY_STATUS head.val) F.HD_FLY_STATUS_MISS_RUN < 31)
      [.events, .regs, .heads, .decode, .loop, .seq, .mem, .motion, .out]
      fun s t => t.fld (R.HD_FLY_STATUS head.val) F.HD_FLY_STATUS_MISS_RUN = s.fld (R.HD_FLY_STATUS head.val) F.HD_FLY_STATUS_MISS_RUN + 1 ∧
          (t.head head).fly.frames = (s.head head).fly.frames ∧ (t.head head).fly.nextIdx = no + 1 ∧
          RegsBut [R.HD_FLY_STATUS head.val] s t ∧ t.events = s.events ∧ HeadsBut head s t) ∧
  (∀ (head : Fin 16) (no : Nat), Completes (.servoFrameMissed head no)
      (fun s => s.headInService head.val = true ∧ (s.head head).fly.nextIdx ≤ no ∧
          s.fld (R.HD_FLY_STATUS head.val) F.HD_FLY_STATUS_MISS_RUN < 31)
      [.events, .regs, .heads, .decode, .seq, .mem, .motion, .out]
      fun s t => t.fld (R.HD_FLY_STATUS head.val) F.HD_FLY_STATUS_MISS_RUN = s.fld (R.HD_FLY_STATUS head.val) F.HD_FLY_STATUS_MISS_RUN + 1 ∧
          (t.head head).fly.frames = (s.head head).fly.frames ∧ (t.head head).fly.tags = [] ∧ (t.head head).fly.nextIdx = no + 1 ∧
          RegsBut [R.HD_FLY_STATUS head.val] s t ∧ t.events = s.events ∧ HeadsBut head s t) ∧
  (∀ (head : Fin 16) (no : Nat) (k : FlyFrame) (rest : List FlyFrame), Completes (.servoFrameMissed head no)
      (fun s => s.headInService head.val = true ∧ (s.head head).fly.nextIdx ≤ no ∧ (s.head head).fly.frames = k :: rest ∧
          s.fld (R.HD_FLY_STATUS head.val) F.HD_FLY_STATUS_MISS_RUN = 31 ∧ (s.head head).pass = none ∧ (s.head head).opening = none)
      [.events, .regs, .heads, .decode, .seq, .mem, .motion, .out]
      fun s t => t.fld (R.HD_FLY_STATUS head.val) F.HD_FLY_STATUS_MISS_RUN = 32 ∧ (t.head head).fly.frames = [] ∧ flyReady t head = false ∧
          t.flag (R.HD_FLY_STATUS head.val) F.HD_FLY_STATUS_LOST_SEEN = true ∧ RegsBut [R.HD_FLY_STATUS head.val] s t ∧
          t.events = (s.logHead head 0x1302 0 (k.tc2 / 2 % 2 ^ 32) 32).events ∧ HeadsBut head s t) ∧
  (∀ (head : Fin 16) (w : AddrWord) (i0 : Nat) (bits : List Bool), Completes (.addressWord head)
      (fun s => wordTags (s.head head).fly false = some (i0, bits) ∧ parseWord bits = some w ∧ (s.head head).fly.expected = none ∧
          (s.head head).fly.firstWord = none)
      [.events, .regs, .heads, .decode, .seq, .mem, .motion, .out]
      fun s t => (t.head head).fly.firstWord = some w ∧ (t.head head).fly.expected = none ∧ (t.head head).fly.tags = [] ∧ t.regs = s.regs ∧
          t.events = s.events ∧ HeadsBut head s t) ∧
  (∀ (head : Fin 16) (w a : AddrWord) (i0 : Nat) (bits : List Bool), Completes (.addressWord head)
      (fun s => wordTags (s.head head).fly false = some (i0, bits) ∧ parseWord bits = some w ∧ (s.head head).fly.expected = none ∧
          (s.head head).fly.firstWord = some a ∧
          a.layer = w.layer ∧ a.track = w.track ∧ w.word = (a.word + 1) % 16)
      [.events, .regs, .heads, .decode, .seq, .mem, .motion, .out]
      fun s t => (t.head head).fly.expected = some (w.layer, w.track) ∧
          (t.head head).fly.origin = (s.head head).fly.origin + (31 * w.word + 496 - i0 % 496) % 496 ∧ t.flag (R.HD_FLY_STATUS head.val) F.HD_FLY_STATUS_ADDR_OK = true ∧
          flyReady t head = decide (2 ≤ (s.head head).fly.frames.length) ∧ t.flag (R.HD_ADDR head.val) F.HD_ADDR_VALID = true ∧
          t.fld (R.HD_ADDR head.val) F.HD_ADDR_TRACK = w.track % 2 ^ 19 ∧ t.fld (R.HD_ADDR head.val) F.HD_ADDR_LAYER = w.layer % 16 ∧
          t.fld (R.HD_ADDR head.val) F.HD_ADDR_WORD = w.word % 16 ∧
          RegsBut [R.HD_FLY_STATUS head.val, R.HD_ADDR head.val] s t ∧ t.events = s.events ∧ HeadsBut head s t) ∧
  (∀ (head : Fin 16) (w : AddrWord) (i0 : Nat) (bits : List Bool) (e : Nat × Nat), Completes (.addressWord head)
      (fun s => wordTags (s.head head).fly true = some (i0, bits) ∧ parseWord bits = some w ∧ (s.head head).fly.expected = some e ∧ e ≠ (w.layer, w.track) ∧
          s.flag (R.HD_FLY_STATUS head.val) F.HD_FLY_STATUS_ADDR_OK = true ∧ (s.head head).pass = none ∧ (s.head head).opening = none)
      [.events, .regs, .heads, .decode, .seq, .mem, .motion, .out]
      fun s t => t.flag (R.HD_FLY_STATUS head.val) F.HD_FLY_STATUS_ADDR_OK = false ∧ flyReady t head = false ∧
          (t.head head).fly.expected = none ∧ (t.head head).fly.firstWord = some w ∧ RegsBut [R.HD_FLY_STATUS head.val] s t ∧
          t.events = (s.logHead head 0x1301 (e.1 * 2 ^ 19 + e.2) (w.layer * 2 ^ 19 + w.track) w.word).events ∧ HeadsBut head s t) ∧
  (∀ (head : Fin 16) (val : Word), Completes (.hdFmtCfgWrite head val)
      (fun _ => 160 ≤ getField val F.HD_FMT_CFG_PITCH_NM ∧ getField val F.HD_FMT_CFG_PITCH_NM ≤ 320)
      [.events, .regs]
      fun s t => t.fld (R.HD_FMT_CFG head.val) F.HD_FMT_CFG_PITCH_NM = getField val F.HD_FMT_CFG_PITCH_NM ∧
          t.fld (R.HD_FMT_CFG head.val) F.HD_FMT_CFG_LEADIN = getField val F.HD_FMT_CFG_LEADIN ∧ RegsBut [R.HD_FMT_CFG head.val] s t ∧
          t.events = s.events) ∧
  (∀ (head : Fin 16) (val : Word), Completes (.hdFmtCfgWrite head val)
      (fun _ => getField val F.HD_FMT_CFG_PITCH_NM < 160 ∨ 320 < getField val F.HD_FMT_CFG_PITCH_NM)
      [.events, .regs]
      fun s t => t.regs = s.regs ∧ t.events = (s.logHead head 0x1303 (getField val F.HD_FMT_CFG_PITCH_NM)
            (s.fld (R.HD_FMT_CFG head.val) F.HD_FMT_CFG_PITCH_NM)).events)

/-- At 208 KiB admission stops with event 0x1103, and below that mark nothing stops; at 128 KiB the oldest complete waiting record moves to the next place of the head's spill area in buffer memory (log entries 100 and 136); a shed leaves the buffer below 240 KiB or no sector of the head in flight, and below 240 KiB it changes nothing. -/
def Obligations.IngestBuffer : Prop :=
  (∀ (head : Fin 16), Completes (.ingestAdmissionStop head)
      (fun s => 212992 ≤ ingestBytes s head.val ∧ (s.head head).ingest.stopped = false)
      [.events, .heads]
      fun s t => (t.head head).ingest.stopped = true ∧ t.events = (s.logHead head 0x1103 (ingestBytes s head.val / 1024)).events ∧ HeadsBut head s t) ∧
  (∀ (head : Fin 16), Completes (.ingestAdmissionStop head)
      (fun s => ingestBytes s head.val < 212992)
      [.events, .heads]
      fun s t => (t.head head).ingest.stopped = false ∧ t.events = s.events ∧ HeadsBut head s t) ∧
  (∀ (head : Fin 16) (x : Sector), Completes (.ingestSpill head)
      (fun s => 131072 ≤ ingestBytes s head.val ∧ s.sector x.id = some x ∧
          s.decode.sectors.find? (fun x => x.head == head.val && x.stage == .waiting && x.complete && x.spilled.isNone) = some x)
      [.events, .regs, .heads, .decode, .mem, .out]
      fun s t => t.sector x.id = some { x with spilled := some (stagingPlace s head.val (s.head head).ingest.spilled), soft := [], channel := [] } ∧
          (∀ k : Nat, k ≠ x.id → t.sector k = s.sector k) ∧ (t.head head).ingest.spilled = (s.head head).ingest.spilled + 1 ∧
          t.mem = (s.memWrite 0 (stagingPlace s head.val (s.head head).ingest.spilled) (recordHeader x ++ packSoft x.values)).mem ∧ HeadsBut head s t) ∧
  (∀ (head : Fin 16), Completes (.ingestSpill head)
      (fun s => ingestBytes s head.val < 131072)
      [.events, .regs, .heads, .decode, .mem, .out]
      fun s t => t = s) ∧
  (∀ (head : Fin 16), Completes (.ingestShed head)
      (fun s => 245760 ≤ ingestBytes s head.val)
      [.events, .regs, .heads, .decode, .mem, .out]
      fun _ t => ingestBytes t head.val < 245760 ∨ ∀ x ∈ t.decode.sectors, ¬ (x.head = head.val ∧ x.stage = .inFlight)) ∧
  (∀ (head : Fin 16), Completes (.ingestShed head)
      (fun s => ingestBytes s head.val < 245760)
      [.events, .regs, .heads, .decode, .mem, .out]
      fun s t => t = s)

/-- The acquisition start of a slot that a read pass reads, on a beam in service and with the flywheel READY at the opening of its search window and room in the ingest buffer, makes a new sector in flight with the slot's twill place, and the slot is admitted once. The sync search finds one framing, which the sector takes with the stamp of its mark's first channel bit, or none, and the sync is inferred at q0 with FRAMING 3 and the predicted stamp. The first bit of an interval records its checkpoint. The oldest interval that is resolved gives its values to its sector, which is not framed yet; one that is not resolved stays. -/
def Obligations.SectorsOnABeam : Prop :=
  (∀ (head : Fin 16) (beam : Fin 12) (slot g i : Nat) (p : Pass) (a q w : Stamp) (rate : Nat × Nat), Completes (.sectorAcquisitionStart head beam slot)
      (fun s => (s.head head).pass = some p ∧ p.desc.mode = .read ∧ p.hem = none ∧ p.rev < p.desc.count ∧ (s.head head).beams[beam].seeded = true ∧
          (s.head head).beams[beam].inService = true ∧ (s.head head).beams[beam].rejoin = none ∧ 
          predictSlot s head (beamPlace p beam.val).1 slot (natBits p.cfg.sync 5 0) = some w ∧ readyAt s head w = true ∧
          predictSlot s head (beamPlace p beam.val).1 slot 80 = some a ∧ predictSlot s head (beamPlace p beam.val).1 slot 0 = some q ∧
          flyRate (s.head head).fly = some rate ∧ slot < slotsOf (fmtU p.cfg.fmt (beamPlace p beam.val).1) ∧
          (∀ e ∈ p.admitted, e ≠ ((beamPlace p beam.val).2, slot)) ∧ a + (s.head head).link.presDelay ≤ s.now ∧
          slotUse p (beamPlace p beam.val).1 (twillStep (fmtU p.cfg.fmt (beamPlace p beam.val).1)) (beamPlace p beam.val).2 slot beam.val = .member g i ∧
          ingestBytes s head.val + 64 < 212992 ∧ s.sector s.decode.nextId = none)
      [.events, .regs, .heads, .decode, .mem, .out]
      fun s t => t.decode.nextId = s.decode.nextId + 1 ∧
          (t.sector s.decode.nextId).any (fun x => x.head == head.val && x.beam == beam.val && x.pass == p.no && x.kind == .read &&
            x.track == (beamPlace p beam.val).2 && x.slot == slot && x.group == g && x.member == i && x.stamp == q && x.stage == .inFlight) = true ∧
          (t.head head).pass = some { p with admitted := ((beamPlace p beam.val).2, slot) :: p.admitted } ∧ t.events = s.events) ∧
  (∀ (sector : Nat) (x : Sector) (p : Pass) (n : Fin 16) (j : Fin 12), Completes (.syncSearchComplete sector)
      (fun s => s.sector sector = some x ∧ s.passOf x.head x.pass = some p ∧ x.head = n.val ∧ x.beam = j.val ∧ x.framed = false ∧ x.kind = .read ∧
          x.findQ0 + natBits p.cfg.sync 5 0 + 64 ≤ x.slot * slotBits + 48 + x.released.length ∧
          openFramings (natBits p.cfg.sync 11 8) (natBits p.cfg.sync 18 16) (candidates (natBits p.cfg.sync 5 0) (natBits p.cfg.sync 15 12)
            ((List.range (2 * natBits p.cfg.sync 5 0 + 1)).map fun d => syncMisses x ((x.findQ0 : Int) - natBits p.cfg.sync 5 0 + d))) = [])
      [.regs, .decode]
      fun s t => t.sector sector = some { x with
            q0 := x.findQ0, framed := true, inferred := true, framings := [⟨0, 15⟩], stamp := x.predicted
            info := { x.info with framing := 3, syncOfs := 0, syncMiss := 15 } } ∧
          t.fld (R.HD_SYNC_CNT1 n.val) F.HD_SYNC_CNT1_INFERRED = min 0xFFFF (s.fld (R.HD_SYNC_CNT1 n.val) F.HD_SYNC_CNT1_INFERRED + 1) ∧
          RegsBut [R.HD_SYNC_CNT1 n.val] s t) ∧
  (∀ (sector : Nat) (x : Sector) (p : Pass) (n : Fin 16) (j : Fin 12) (f : Framing), Completes (.syncSearchComplete sector)
      (fun s => s.sector sector = some x ∧ s.passOf x.head x.pass = some p ∧ x.head = n.val ∧ x.beam = j.val ∧ x.framed = false ∧ x.kind = .read ∧
          x.findQ0 + natBits p.cfg.sync 5 0 + 64 ≤ x.slot * slotBits + 48 + x.released.length ∧
          openFramings (natBits p.cfg.sync 11 8) (natBits p.cfg.sync 18 16) (candidates (natBits p.cfg.sync 5 0) (natBits p.cfg.sync 15 12)
            ((List.range (2 * natBits p.cfg.sync 5 0 + 1)).map fun d => syncMisses x ((x.findQ0 : Int) - natBits p.cfg.sync 5 0 + d))) = [f])
      [.regs, .decode]
      fun s t => t.sector sector = some { x with
            q0 := x.findQ0, framed := true, framings := [f], stamp := { x with q0 := x.findQ0 }.markStamp f
            info := { x.info with framing := 0, syncOfs := f.ofs, syncMiss := f.miss } } ∧ RegsBut [R.HD_SYNC_CNT0 n.val] s t) ∧
  (∀ (head : Fin 16) (beam : Fin 12) (id : Nat), Completes (.intervalCheckpoint head beam)
      (fun s => (s.head head).beams[beam].sector = some id ∧ (s.head head).beams[beam].checkpointDue = true ∧ (s.head head).beams[beam].raw = [] ∧
          ((s.head head).beams[beam].bits.all fun x => x.y.isSome) = true)
      [.heads, .decode]
      fun s t => (t.head head).beams[beam].intervals = (s.head head).beams[beam].intervals ++
            [{ sector := id, k := ((s.head head).beams[beam].pos - (s.head head).beams[beam].acq) / 512, first := (s.head head).beams[beam].pos,
               len := min 512 ((s.head head).beams[beam].sectorBits - 512 * (((s.head head).beams[beam].pos - (s.head head).beams[beam].acq) / 512)),
               checkpoint := (s.head head).beams[beam].adapt, fate := .live, forced := false, clamped := false, soft := [], drops := [] }] ∧
          (t.head head).beams[beam].lastCheck = (s.head head).beams[beam].adapt ∧ HeadsBut head s t) ∧
  (∀ (head : Fin 16) (beam : Fin 12) (i : Interval) (rest : List Interval) (x : Sector), Completes (.intervalRelease head beam)
      (fun s => (s.head head).beams[beam].intervals = i :: rest ∧ ((i.fate = .passed ∧ i.forced = false) ∨ i.fate = .replayed ∨ i.fate = .softErased) ∧
          s.sector i.sector = some x ∧ x.framed = false)
      [.events, .regs, .heads, .decode, .mem, .out]
      fun s t => (t.head head).beams[beam].intervals = rest ∧ t.sector i.sector = some { x with released := x.released ++ i.soft, drops := x.drops ++ i.drops } ∧
          RegsBut [R.HD_INGEST head.val] s t ∧ t.events = s.events ∧ t.mem = s.mem ∧ HeadsBut head s t) ∧
  (∀ (head : Fin 16) (beam : Fin 12) (i : Interval) (rest : List Interval), Completes (.intervalRelease head beam)
      (fun s => (s.head head).beams[beam].intervals = i :: rest ∧ (i.fate = .live ∨ i.fate = .queued))
      [.events, .regs, .heads, .decode, .mem, .out]
      fun s t => t = s)

/-- The oldest undecided interval that is settled passes its test, where it shows no disagreement and no clamp, with its settled values and no register changed; one that is forced, on a beam with no other interval that waits, is unpicked: the checkpoint is restored, the channel freezes, the interval is queued for a replay and counts as unpicked. With both lanes free, lane 0 takes the oldest entry of the queue for its ticks. A replay that ends frees its lane, gives the beam its end state and counts as replayed; an entry whose samples are gone leaves the queue as a soft erase and counts as expired. -/
def Obligations.UnpicksAndReplays : Prop :=
  (∀ (head : Fin 16) (beam : Fin 12) (p : Pass) (i : Interval), Completes (.unpickTest head beam)
      (fun s => (s.head head).pass = some p ∧ (s.head head).beams[beam].intervals.find? (fun i => i.fate == .live || (i.fate == .passed && i.forced)) = some i ∧
          (s.head head).beams[beam].settledFor i = true ∧ i.clamped = false ∧ i.forced = false ∧
          (intervalTest (s.head head).beams[beam] i (intervalSoft (s.head head).beams[beam] (natBits p.cfg.ch 15 8) i)).2 = 0)
      [.regs, .heads, .decode]
      fun s t => (t.head head).beams[beam] = (s.head head).beams[beam].modInterval i.first (fun v =>
            { v with fate := .passed, soft := intervalSoft (s.head head).beams[beam] (natBits p.cfg.ch 15 8) i,
                     drops := dropsOf (s.head head).beams[beam] i }) ∧
          t.regs = s.regs ∧ t.decode = (s.modSector i.sector (noteBits (s.head head).beams[beam] i)).decode ∧ HeadsBut head s t) ∧
  (∀ (head : Fin 16) (beam : Fin 12) (p : Pass) (i : Interval), Completes (.unpickTest head beam)
      (fun s => (s.head head).pass = some p ∧ (s.head head).beams[beam].intervals.find? (fun i => i.fate == .live || (i.fate == .passed && i.forced)) = some i ∧
          (s.head head).beams[beam].settledFor i = true ∧ i.forced = true ∧ (s.head head).beams[beam].pending = false ∧
          (s.head head).replayQ.length < 4)
      [.regs, .heads, .decode]
      fun s t => (t.head head).beams[beam].frozen = true ∧
          (t.head head).beams[beam].adapt = { i.checkpoint with decM := (s.head head).beams[beam].adapt.decM } ∧
          (t.head head).replayQ.length = (s.head head).replayQ.length + 1 ∧
          t.fld (R.HD_UNPICK_CNT head.val) F.HD_UNPICK_CNT_UNPICKED = satAdd (2 ^ F.HD_UNPICK_CNT_UNPICKED.width - 1)
            (s.fld (R.HD_UNPICK_CNT head.val) F.HD_UNPICK_CNT_UNPICKED) 1 ∧
          RegsBut [R.HD_UNPICK_CNT head.val, R.HD_DROP_CNT head.val] s t ∧ HeadsBut head s t) ∧
  (∀ (head : Fin 16) (r : Replay) (rest : List Replay) (i : Interval), Completes (.replayStart head)
      (fun s => (s.head head).lanes = Vector.replicate 2 none ∧ (s.head head).replayQ = r :: rest ∧
          ((s.head head).beams.toList.getD r.beam Beam.reset).intervals.find? (fun v => v.first == r.first) = some i)
      [.heads]
      fun s t => ((t.head head).lanes[0].map fun l => (l.job, l.ends)) = some (r, s.now + (32 +
            ceilDiv ((i.len + 128) * ((s.head head).beams.toList.getD r.beam Beam.reset).nominal) (2 * 2 ^ 32))) ∧ (t.head head).lanes[1] = none ∧
          (t.head head).replayQ = (r :: rest).filter (· != r) ∧ HeadsBut head s t) ∧
  (∀ (head : Fin 16) (lane : Fin 2) (l : ReplayLane) (j : Fin 12), Completes (.replayFinish head lane)
      (fun s => (s.head head).lanes[lane] = some l ∧ l.ends ≤ s.now ∧ l.job.beam = j.val)
      [.regs, .heads, .decode]
      fun s t => (t.head head).lanes[lane] = none ∧
          (t.head head).beams[j].adapt = { l.adapt with decM := (s.head head).beams[j].adapt.decM } ∧
          t.fld (R.HD_UNPICK_CNT head.val) F.HD_UNPICK_CNT_REPLAYED = satAdd (2 ^ F.HD_UNPICK_CNT_REPLAYED.width - 1)
            (s.fld (R.HD_UNPICK_CNT head.val) F.HD_UNPICK_CNT_REPLAYED) 1 ∧
          RegsBut [R.HD_UNPICK_CNT head.val, R.HD_CLAMP_CNT head.val] s t ∧ HeadsBut head s t) ∧
  (∀ (head : Fin 16) (p : Pass) (r : Replay), Completes (.replayExpiry head)
      (fun s => (s.head head).pass = some p ∧ (s.head head).replayQ.find? (fun r => r.needSample ≤ s.now || r.needQ ≤ s.now) = some r ∧ r.beam < 12)
      [.regs, .heads, .decode]
      fun s t => (t.head head).replayQ = (s.head head).replayQ.filter (· != r) ∧
          t.fld (R.HD_SOFTERASE_CNT head.val) F.HD_SOFTERASE_CNT_EXPIRED = satAdd (2 ^ F.HD_SOFTERASE_CNT_EXPIRED.width - 1)
            (s.fld (R.HD_SOFTERASE_CNT head.val) F.HD_SOFTERASE_CNT_EXPIRED) 1 ∧
          t.fld (R.HD_SOFTERASE_CNT head.val) F.HD_SOFTERASE_CNT_SOFT = satAdd (2 ^ F.HD_SOFTERASE_CNT_SOFT.width - 1)
            (s.fld (R.HD_SOFTERASE_CNT head.val) F.HD_SOFTERASE_CNT_SOFT) 1 ∧
          RegsBut [R.HD_SOFTERASE_CNT head.val] s t ∧ HeadsBut head s t)

/-- With no pass open, the sample at which the envelope falls below the entry threshold, once it has left deskew, puts its beam in dropout and counts it, and the first masked beam raises the head's flag, whose rise travels to the loop engine; a beam in dropout stays in it. The run of recovered samples ends the dropout of the last masked beam and starts its guard: the flag falls, with event 0x1104, and the fall travels to the loop engine. The guard ends after its bits, with 64 acquisition bits to come after a long dropout. Thresholds are those of the open pass, or the registers' where none is open. -/
def Obligations.Dropouts : Prop :=
  (∀ (head : Fin 16) (beam : Fin 12) (stamp : Stamp) (cfg mask : Nat), Completes (.dropoutStart head beam stamp)
      (fun s => dropCfg s head = (cfg, mask) ∧ (s.head head).beams[beam].dropout = none ∧ (s.head head).beams[beam].sector = none ∧
          natBits cfg 3 0 ≤ ((s.head head).beams[beam].upTo stamp).length ∧
          belowThreshold (s.head head).beams[beam] (natBits cfg 3 0) (natBits cfg 10 5) ((s.head head).beams[beam].upTo stamp) = true ∧
          (s.head head).flag = none ∧ testBitN mask beam.val = true ∧ (s.head head).pass = none ∧ sampleArrival s head beam.val stamp ≤ s.now)
      [.events, .regs, .heads, .decode, .loop, .mem, .out]
      fun s t => (t.head head).beams[beam].dropout = some ⟨stamp⟩ ∧ ((t.head head).flag.map (·.1)) = some stamp ∧
          (t.loopHead head).xing = (s.loopHead head).xing ++ [.rise stamp] ∧
          t.fld (R.HD_DROP_CNT head.val) F.HD_DROP_CNT_DROPOUTS = satAdd (2 ^ F.HD_DROP_CNT_DROPOUTS.width - 1)
            (s.fld (R.HD_DROP_CNT head.val) F.HD_DROP_CNT_DROPOUTS) 1 ∧ RegsBut [R.HD_DROP_CNT head.val] s t ∧ t.events = s.events ∧ HeadsBut head s t) ∧
  (∀ (head : Fin 16) (beam : Fin 12) (stamp : Stamp) (d : Dropout), Completes (.dropoutStart head beam stamp)
      (fun s => (s.head head).beams[beam].dropout = some d)
      [.events, .regs, .heads, .decode, .loop, .mem, .out]
      fun s t => t = s) ∧
  (∀ (head : Fin 16) (beam : Fin 12) (stamp : Stamp) (d : Dropout) (cfg mask rise m : Nat), Completes (.dropoutEnd head beam stamp)
      (fun s => dropCfg s head = (cfg, mask) ∧ (s.head head).beams[beam].dropout = some d ∧
          natBits cfg 23 17 + natBits cfg 3 0 ≤ ((s.head head).beams[beam].upTo stamp).length + 1 ∧ d.start + natBits cfg 23 17 ≤ stamp + 1 ∧
          (∀ k ∈ List.range (natBits cfg 23 17), belowThreshold (s.head head).beams[beam] (natBits cfg 3 0) (natBits cfg 16 11)
            (((s.head head).beams[beam].upTo stamp).drop k) = false) ∧
          sampleArrival s head beam.val stamp ≤ s.now ∧ (s.head head).flag = some (rise, m) ∧ testBitN mask beam.val = true ∧
          (∀ j : Fin 12, j ≠ beam → (s.head head).beams[j].dropout = none))
      [.events, .heads, .loop]
      fun s t => (t.head head).beams[beam].dropout = none ∧ (t.head head).beams[beam].guard = some (stamp + 1) ∧ (t.head head).flag = none ∧
          (t.loopHead head).xing = (s.loopHead head).xing ++ [.fall (stamp + 1)] ∧
          t.events = (s.logHead head 0x1104 (rise % 2 ^ 32) ((stamp + 1) % 2 ^ 32) m).events ∧ HeadsBut head s t) ∧
  (∀ (head : Fin 16) (beam : Fin 12) (e : Stamp), Completes (.dropoutGuardEnd head beam)
      (fun s => (s.head head).beams[beam].guard = some e ∧
          e + (s.head head).beams[beam].ticksOf (natBits (dropCfg s head).1 31 24) + (s.head head).link.presDelay ≤ s.now)
      [.heads]
      fun s t => (t.head head).beams[beam].guard = none ∧ (t.head head).beams[beam].longDrop = false ∧
          (t.head head).beams[beam].acqBits = (if (s.head head).beams[beam].longDrop then 64 else (s.head head).beams[beam].acqBits) ∧ HeadsBut head s t)

/-- A hem request while no pass is open changes nothing; with a pass that does not write now and has no hem it starts the hem at its stamp, and with one in progress it changes nothing that this statement names. At h plus 525,000 ticks step 4 leaves the pass no sector without an outcome and notes whether the zone is written back; the write-back's end has put the zone's entry into memory and logs 0x1105. Zone seeds seed every beam of a waiting open from an entry that is valid, or with the defaults and event 0x1101 where it is not, and the open then waits for the seam. At a seam a read pass that waits for it opens with the next pass number, its counters at 0, and an open read pass goes to its next band with nothing admitted. A slot whose payload is late becomes void, in its entry in memory, in the pass and in HD_WR_CNT, and an abort at the head notes the command's slots and the stopping point. -/
def Obligations.HemsAndSeams : Prop :=
  (∀ (head : Fin 16), Completes (.hemRequest head)
      (fun s => (s.head head).pass = none)
      [.events, .regs, .heads, .decode, .mem, .out]
      fun s t => t = s) ∧
  (∀ (head : Fin 16) (p : Pass), Completes (.hemRequest head)
      (fun s => (s.head head).pass = some p ∧ p.hem = none ∧ (s.head head).writingNow = false)
      [.events, .regs, .heads, .decode, .mem, .out]
      fun s t => (((t.head head).pass.bind (·.hem)).map fun m => (m.h, m.forced, m.withdrawn, m.waiters)) =
            some (s.stamp (.head head), false, false, []) ∧ ((t.head head).pass.map (·.no)) = some p.no) ∧
  (∀ (head : Fin 16) (p : Pass) (m : Hem), Completes (.hemRequest head)
      (fun s => (s.head head).pass = some p ∧ p.hem = some m)
      [.events, .regs, .heads, .decode, .mem, .out]
      fun s t => t.head head = s.head head ∧ t.regs = s.regs ∧ t.decode = s.decode ∧ t.events = s.events ∧ t.mem = s.mem ∧ HeadsBut head s t) ∧
  (∀ (head : Fin 16) (p : Pass) (m : Hem), Completes (.hemWithdrawal head)
      (fun s => (s.head head).pass = some p ∧ p.hem = some m ∧ m.withdrawn = false ∧ m.h + 525000 ≤ s.now)
      [.events, .regs, .heads, .decode, .mem, .out]
      fun _ t => t.openSectors head.val p.no (fun _ => true) = [] ∧
          (((t.head head).pass.bind (·.hem)).map fun m => (m.withdrawn, m.writingBack)) = some (true, p.desc.writeBack)) ∧
  (∀ (head : Fin 16) (p : Pass) (m : Hem), Completes (.zoneWriteBackComplete head)
      (fun s => (s.head head).pass = some p ∧ p.hem = some m ∧ m.writingBack = true)
      [.events, .regs, .heads, .mem, .out]
      fun s t => (((t.head head).pass.bind (·.hem)).map (·.writingBack)) = some false ∧ t.mem = (s.zoneWriteBack head p).mem ∧
          t.xing head.val = (s.logHead head 0x1105 p.desc.layer (fmtZone p.cfg.fmt (p.desc.bandAt p.rev)) p.no).xing head.val ∧ HeadsBut head s t) ∧
  (∀ (head : Fin 16) (o : OpenReq), Completes (.zoneSeedReadDone head)
      (fun s => (s.head head).opening = some o ∧ o.stage = .seeding ∧
          testBitN (s.memByte (zoneAddr o.cfg.zoneBase head.val o.desc.layer (fmtZone o.cfg.fmt o.desc.start) + 773)).toNat 0 = false)
      [.events, .heads]
      fun s t => (t.head head).opening = some { o with stage := .awaitSeam, relocs := readRelocs s o.desc, clamps := 0 } ∧
          (∀ j : Fin 12, (t.head head).beams[j].seeded = true ∧ (t.head head).beams[j].adapt = defaultSeeds.1) ∧
          t.regs = s.regs ∧ t.events = (s.logHead head 0x1101 o.desc.layer (fmtZone o.cfg.fmt o.desc.start) (((s.head head).passNo + 1) % 65536)).events ∧
          HeadsBut head s t) ∧
  (∀ (head : Fin 16) (o : OpenReq) (entry : Nat), Completes (.zoneSeedReadDone head)
      (fun s => (s.head head).opening = some o ∧ o.stage = .seeding ∧ entry = zoneAddr o.cfg.zoneBase head.val o.desc.layer (fmtZone o.cfg.fmt o.desc.start) ∧
          testBitN (s.memByte (entry + 773)).toNat 0 = true)
      [.events, .heads]
      fun s t => (t.head head).opening = some { o with stage := .awaitSeam, relocs := readRelocs s o.desc, clamps := seedClamps s entry true } ∧
          (∀ j : Fin 12, (t.head head).beams[j].seeded = true ∧ (t.head head).beams[j].adapt = (seedBeam s entry j.val true).1) ∧
          t.regs = s.regs ∧ t.events = s.events ∧ HeadsBut head s t) ∧
  (∀ (head : Fin 16) (p : Pass) (r : Nat) (u : Stamp), Completes (.seamOpening head)
      (fun s => (s.head head).pass = some p ∧ (s.head head).opening = none ∧ p.desc.mode = .read ∧ p.hem = none ∧ p.writeRev = none ∧
          seamNow s head = some (r, u))
      [.events, .regs, .heads, .decode, .seq, .mem, .motion, .out]
      fun s t => (t.head head).pass = some { p with rev := p.rev + 1, admitted := [] } ∧ (t.head head).fly.seamRev = r ∧
          t.regs = s.regs ∧ t.events = s.events ∧ HeadsBut head s t) ∧
  (∀ (head : Fin 16) (o : OpenReq) (r : Nat) (u : Stamp), Completes (.seamOpening head)
      (fun s => (s.head head).opening = some o ∧ o.stage = .awaitSeam ∧ o.desc.mode = .read ∧ flyReady s head = true ∧ seamNow s head = some (r, u))
      [.events, .regs, .heads, .decode, .seq, .mem, .motion, .out]
      fun s t => ((t.head head).pass.map fun p => (p.no, p.opened, p.rev)) = some (((s.head head).passNo + 1) % 65536, u, 0) ∧
          (t.head head).opening = none ∧ (t.head head).passNo = ((s.head head).passNo + 1) % 65536 ∧
          t.reg (R.HD_WR_CNT head.val) = 0 ∧ t.reg (R.HD_UNPICK_CNT head.val) = 0 ∧ t.events = s.events ∧ HeadsBut head s t) ∧
  (∀ (head : Fin 16) (track slot : Nat) (p : Pass) (d : BandDesc) (e : SlotEntry) (a : Stamp), Completes (.slotPayloadLate head track slot)
      (fun s => (s.head head).pass = some p ∧ writeSlotStart s head slot = some a ∧ a ≤ s.now + 2000 ∧
          (p.toWrite.find? fun x => x.2.track == track && x.2.slot == slot && !x.2.started) = some (d, e))
      [.events, .regs, .heads, .mem, .out]
      fun s t => t.fld (R.HD_WR_CNT head.val) F.HD_WR_CNT_VOIDED = satAdd (2 ^ F.HD_WR_CNT_VOIDED.width - 1)
            (s.fld (R.HD_WR_CNT head.val) F.HD_WR_CNT_VOIDED) 1 ∧ RegsBut [R.HD_WR_CNT head.val] s t ∧ t.mem = (s.voidSlot head d e 3).mem ∧
          t.heads = (s.voidSlot head d e 3).heads ∧ HeadsBut head s t) ∧
  (∀ (head : Fin 16) (slots : List (Nat × Nat)) (p : Pass), Completes (.writeAbortAtHead head slots)
      (fun s => (s.head head).pass = some p)
      [.events, .regs, .heads, .mem, .out]
      fun s t => ((t.head head).pass.map (·.aborts)) = some ((slots, ((((List.range (slotsOf (fmtU (fmtNow s head)
            (bandNow (s.head head))))).filterMap fun k => writeSlotStart s head k).find? fun x => decide (s.now ≤ x)).getD
              ((nextBoundary s head s.now).getD s.now))) :: p.aborts) ∧
          RegsBut [R.HD_WR_CNT head.val] s t ∧ HeadsBut head s t)

/-- For every bobbin and every word of its opcode that may issue, in the short and in the long form: rd takes the sum, the difference, the conjunction, the disjunction, the exclusive or, the shifts by the low six bits of the second operand, the low half of the product, the high half of the signed product, or the signed minimum or maximum; the immediate forms take their immediate sign-extended (ADDI) or zero-extended (ANDI, ORI). Nothing else changes but the PC, the time of the next issue and the count of issued instructions. -/
def Obligations.IntegerInstructions : Prop :=
  (∀ (b : Fin 24) (u : Upset) (i : Ins), Completes (.add b u)
      (fun s => Issues s b u i ∧ i.op = 0x00)
      [.events, .regs, .seq]
      fun s t => WritesRd b i (valA s b i + valB s b i) s t) ∧
  (∀ (b : Fin 24) (u : Upset) (i : Ins), Completes (.add b u)
      (fun s => Issues s b u i ∧ i.op = 0x00)
      [.events, .regs, .seq]
      fun s t => WritesRd b i (valA s b i + valB s b i) s t) ∧
  (∀ (b : Fin 24) (u : Upset) (i : Ins), Completes (.sub b u)
      (fun s => Issues s b u i ∧ i.op = 0x01)
      [.events, .regs, .seq]
      fun s t => WritesRd b i (valA s b i - valB s b i) s t) ∧
  (∀ (b : Fin 24) (u : Upset) (i : Ins), Completes (.and b u)
      (fun s => Issues s b u i ∧ i.op = 0x02)
      [.events, .regs, .seq]
      fun s t => WritesRd b i (valA s b i &&& valB s b i) s t) ∧
  (∀ (b : Fin 24) (u : Upset) (i : Ins), Completes (.or b u)
      (fun s => Issues s b u i ∧ i.op = 0x03)
      [.events, .regs, .seq]
      fun s t => WritesRd b i (valA s b i ||| valB s b i) s t) ∧
  (∀ (b : Fin 24) (u : Upset) (i : Ins), Completes (.xor b u)
      (fun s => Issues s b u i ∧ i.op = 0x04)
      [.events, .regs, .seq]
      fun s t => WritesRd b i (valA s b i ^^^ valB s b i) s t) ∧
  (∀ (b : Fin 24) (u : Upset) (i : Ins), Completes (.shl b u)
      (fun s => Issues s b u i ∧ i.op = 0x05)
      [.events, .regs, .seq]
      fun s t => WritesRd b i (valA s b i <<< ((valB s b i).toNat % 64)) s t) ∧
  (∀ (b : Fin 24) (u : Upset) (i : Ins), Completes (.shr b u)
      (fun s => Issues s b u i ∧ i.op = 0x06)
      [.events, .regs, .seq]
      fun s t => WritesRd b i (valA s b i >>> ((valB s b i).toNat % 64)) s t) ∧
  (∀ (b : Fin 24) (u : Upset) (i : Ins), Completes (.sar b u)
      (fun s => Issues s b u i ∧ i.op = 0x07)
      [.events, .regs, .seq]
      fun s t => WritesRd b i ((valA s b i).sshiftRight ((valB s b i).toNat % 64)) s t) ∧
  (∀ (b : Fin 24) (u : Upset) (i : Ins), Completes (.mul b u)
      (fun s => Issues s b u i ∧ i.op = 0x08)
      [.events, .regs, .seq]
      fun s t => WritesRd b i (valA s b i * valB s b i) s t) ∧
  (∀ (b : Fin 24) (u : Upset) (i : Ins), Completes (.mulh b u)
      (fun s => Issues s b u i ∧ i.op = 0x09)
      [.events, .regs, .seq]
      fun s t => WritesRd b i (BitVec.ofInt 64 ((valA s b i).toInt * (valB s b i).toInt / 2 ^ 64)) s t) ∧
  (∀ (b : Fin 24) (u : Upset) (i : Ins), Completes (.min b u)
      (fun s => Issues s b u i ∧ i.op = 0x0A)
      [.events, .regs, .seq]
      fun s t => WritesRd b i (if (valA s b i).toInt ≤ (valB s b i).toInt then valA s b i else valB s b i) s t) ∧
  (∀ (b : Fin 24) (u : Upset) (i : Ins), Completes (.max b u)
      (fun s => Issues s b u i ∧ i.op = 0x0B)
      [.events, .regs, .seq]
      fun s t => WritesRd b i (if (valA s b i).toInt ≤ (valB s b i).toInt then valB s b i else valA s b i) s t) ∧
  (∀ (b : Fin 24) (u : Upset) (i : Ins), Completes (.addi b u)
      (fun s => Issues s b u i ∧ i.op = 0x0C)
      [.events, .regs, .seq]
      fun s t => WritesRd b i (valA s b i + immSigned i) s t) ∧
  (∀ (b : Fin 24) (u : Upset) (i : Ins), Completes (.andi b u)
      (fun s => Issues s b u i ∧ i.op = 0x0D)
      [.events, .regs, .seq]
      fun s t => WritesRd b i (valA s b i &&& immPlain i) s t) ∧
  (∀ (b : Fin 24) (u : Upset) (i : Ins), Completes (.ori b u)
      (fun s => Issues s b u i ∧ i.op = 0x0E)
      [.events, .regs, .seq]
      fun s t => WritesRd b i (valA s b i ||| immPlain i) s t)

/-- SHI shifts by its low six immediate bits, left, logically right or arithmetically right by the kind in the two bits above; BFX takes the field of its width at its position, and BFI puts the low bits of rd into it; CNT counts the set bits, the leading zeros or the trailing zeros; DIVU gives the unsigned quotient, or all ones for a divisor of 0, with a stall of 34 cycles; SEL takes ra or rb by its predicate. Nothing else changes but the PC, the time of the next issue and the count of issued instructions. -/
def Obligations.FieldInstructions : Prop :=
  (∀ (b : Fin 24) (u : Upset) (i : Ins), Completes (.shi b u)
      (fun s => Issues s b u i ∧ i.op = 0x0F)
      [.events, .regs, .seq]
      fun s t => WritesRd b i (if natBits (i.ext.getD i.imm) 7 6 = 0 then valA s b i <<< (i.ext.getD i.imm % 64) else if natBits (i.ext.getD i.imm) 7 6 = 1 then valA s b i >>> (i.ext.getD i.imm % 64) else (valA s b i).sshiftRight (i.ext.getD i.imm % 64)) s t) ∧
  (∀ (b : Fin 24) (u : Upset) (i : Ins), Completes (.bfx b u)
      (fun s => Issues s b u i ∧ i.op = 0x16)
      [.events, .regs, .seq]
      fun s t => WritesRd b i ((valA s b i >>> (i.ext.getD i.imm % 64)) &&& BitVec.ofNat 64 (2 ^ (4 * natBits (i.ext.getD i.imm) 9 6 + 4) - 1)) s t) ∧
  (∀ (b : Fin 24) (u : Upset) (i : Ins), Completes (.bfi b u)
      (fun s => Issues s b u i ∧ i.op = 0x17)
      [.events, .regs, .seq]
      fun s t => WritesRd b i ((valA s b i &&& ~~~((BitVec.ofNat 64 (2 ^ (4 * natBits (i.ext.getD i.imm) 9 6 + 4) - 1)) <<< (i.ext.getD i.imm % 64))) ||| (((s.bob b).get i.rd &&& (BitVec.ofNat 64 (2 ^ (4 * natBits (i.ext.getD i.imm) 9 6 + 4) - 1))) <<< (i.ext.getD i.imm % 64))) s t) ∧
  (∀ (b : Fin 24) (u : Upset) (i : Ins), Completes (.cnt b u)
      (fun s => Issues s b u i ∧ i.op = 0x18)
      [.events, .regs, .seq]
      fun s t => WritesRd b i (if i.fn = 0 then BitVec.ofNat 64 (((List.range 64).filter fun k => (valA s b i).getLsbD k).length) else if i.fn = 1 then BitVec.ofNat 64 (((List.range 64).takeWhile fun k => !(valA s b i).getLsbD (63 - k)).length) else BitVec.ofNat 64 (((List.range 64).takeWhile fun k => !(valA s b i).getLsbD k).length)) s t) ∧
  (∀ (b : Fin 24) (u : Upset) (i : Ins), Completes (.divu b u)
      (fun s => Issues s b u i ∧ i.op = 0x19)
      [.events, .regs, .seq]
      fun s t => Becomes b { ((s.bob b).past i s.now).put i.rd (if valB s b i = 0 then BitVec.ofNat 64 (2 ^ 64 - 1) else valA s b i / valB s b i) with
            st := .stalled, stall := some (.busy (s.now + 68)) } s t) ∧
  (∀ (b : Fin 24) (u : Upset) (i : Ins), Completes (.sel b u)
      (fun s => Issues s b u i ∧ i.op = 0x15)
      [.events, .regs, .seq]
      fun s t => WritesRd b i (if (s.bob b).pred i.fn then valA s b i else valB s b i) s t)

/-- CMP sets pd by the relation that FN names: equal, not equal, signed less, signed not less, unsigned less, unsigned not less; the immediate forms compare with the sign-extended immediate; PSET combines two predicates by AND, OR, exclusive or, or AND NOT. Nothing else changes but the PC, the time of the next issue and the count of issued instructions. -/
def Obligations.PredicateInstructions : Prop :=
  (∀ (b : Fin 24) (u : Upset) (i : Ins), Completes (.cmp b u)
      (fun s => Issues s b u i ∧ i.op = 0x10)
      [.events, .regs, .seq]
      fun s t => WritesPd b i (match i.fn with
            | 0 => valA s b i == valB s b i
            | 1 => valA s b i != valB s b i
            | 2 => (valA s b i).slt (valB s b i)
            | 3 => !(valA s b i).slt (valB s b i)
            | 4 => (valA s b i).ult (valB s b i)
            | _ => !(valA s b i).ult (valB s b i)) s t) ∧
  (∀ (b : Fin 24) (u : Upset) (i : Ins), Completes (.cmpiEq b u)
      (fun s => Issues s b u i ∧ i.op = 0x11)
      [.events, .regs, .seq]
      fun s t => WritesPd b i (valA s b i == immSigned i) s t) ∧
  (∀ (b : Fin 24) (u : Upset) (i : Ins), Completes (.cmpiLt b u)
      (fun s => Issues s b u i ∧ i.op = 0x12)
      [.events, .regs, .seq]
      fun s t => WritesPd b i ((valA s b i).slt (immSigned i)) s t) ∧
  (∀ (b : Fin 24) (u : Upset) (i : Ins), Completes (.cmpiLtu b u)
      (fun s => Issues s b u i ∧ i.op = 0x13)
      [.events, .regs, .seq]
      fun s t => WritesPd b i ((valA s b i).ult (immSigned i)) s t) ∧
  (∀ (b : Fin 24) (u : Upset) (i : Ins), Completes (.pset b u)
      (fun s => Issues s b u i ∧ i.op = 0x14)
      [.events, .regs, .seq]
      fun s t => WritesPd b i (match i.fn with
            | 0 => ((s.bob b).pred (i.ra % 8)) && ((s.bob b).pred (i.ext.getD i.rb % 8))
            | 1 => ((s.bob b).pred (i.ra % 8)) || ((s.bob b).pred (i.ext.getD i.rb % 8))
            | 2 => ((s.bob b).pred (i.ra % 8)) != ((s.bob b).pred (i.ext.getD i.rb % 8))
            | _ => ((s.bob b).pred (i.ra % 8)) && !((s.bob b).pred (i.ext.getD i.rb % 8))) s t)

/-- BR goes to the PC of its first word plus its offset where that lies in program memory, and takes exception 6 where it does not; CALL with such a target goes there with the return address in g31. JR goes to the low 16 bits of ra, with the return address in g31 where FN is 1. HALT leaves the bobbin HALTED with its PC at the next instruction, FENCE only goes on, since every store of the model is complete as it issues (log entry 32), and TRAP takes exception 9 with its immediate as the event argument. But for the exceptions each changes nothing else but the PC, the time of the next issue and the count of issued instructions. -/
def Obligations.ControlInstructions : Prop :=
  (∀ (b : Fin 24) (u : Upset) (i : Ins), Completes (.br b u)
      (fun s => Issues s b u i ∧ i.op = 0x30 ∧ 0 ≤ ((i.pc : Int) + (match i.ext with
            | none => i.off
            | some e => (BitVec.ofNat 32 e).toInt)) ∧ ((i.pc : Int) + (match i.ext with
            | none => i.off
            | some e => (BitVec.ofNat 32 e).toInt)) < 65536)
      [.events, .regs, .seq]
      fun s t => Becomes b { (s.bob b).past i s.now with pc := ((i.pc : Int) + (match i.ext with
            | none => i.off
            | some e => (BitVec.ofNat 32 e).toInt)).toNat } s t) ∧
  (∀ (b : Fin 24) (u : Upset) (i : Ins), Completes (.br b u)
      (fun s => Issues s b u i ∧ i.op = 0x30 ∧ (((i.pc : Int) + (match i.ext with
            | none => i.off
            | some e => (BitVec.ofNat 32 e).toInt)) < 0 ∨ 65536 ≤ ((i.pc : Int) + (match i.ext with
            | none => i.off
            | some e => (BitVec.ofNat 32 e).toInt))))
      [.events, .regs, .seq]
      fun s t => Excepts b i 6 i.word s t) ∧
  (∀ (b : Fin 24) (u : Upset) (i : Ins), Completes (.call b u)
      (fun s => Issues s b u i ∧ i.op = 0x31 ∧ 0 ≤ ((i.pc : Int) + (match i.ext with
            | none => i.off
            | some e => (BitVec.ofNat 32 e).toInt)) ∧ ((i.pc : Int) + (match i.ext with
            | none => i.off
            | some e => (BitVec.ofNat 32 e).toInt)) < 65536)
      [.events, .regs, .seq]
      fun s t => Becomes b { ((s.bob b).past i s.now).put 31 (BitVec.ofNat 64 i.next) with pc := ((i.pc : Int) + (match i.ext with
            | none => i.off
            | some e => (BitVec.ofNat 32 e).toInt)).toNat } s t) ∧
  (∀ (b : Fin 24) (u : Upset) (i : Ins), Completes (.jr b u)
      (fun s => Issues s b u i ∧ i.op = 0x32)
      [.events, .regs, .seq]
      fun s t => Becomes b { (if i.fn = 1 then ((s.bob b).past i s.now).put 31 (BitVec.ofNat 64 i.next) else (s.bob b).past i s.now) with
            pc := (valA s b i).toNat % 65536 } s t) ∧
  (∀ (b : Fin 24) (u : Upset) (i : Ins), Completes (.trap b u)
      (fun s => Issues s b u i ∧ i.op = 0x33)
      [.events, .regs, .seq]
      fun s t => Excepts b i 9 i.imm s t) ∧
  (∀ (b : Fin 24) (u : Upset) (i : Ins), Completes (.halt b u)
      (fun s => Issues s b u i ∧ i.op = 0x34)
      [.events, .regs, .seq]
      fun s t => Becomes b { (s.bob b).past i s.now with st := .halted, haltReq := none } s t) ∧
  (∀ (b : Fin 24) (u : Upset) (i : Ins), Completes (.fence b u)
      (fun s => Issues s b u i ∧ i.op = 0x2D)
      [.events, .regs, .seq]
      fun s t => Becomes b ((s.bob b).past i s.now) s t)

/-- SIGNAL posts a doorbell entry with its data toward a running bobbin that has a free place and sets pd, clears pd where the bobbin is another one that is halted, excepted or full, and takes exception 6 where it names none. TB.NOW reads the stamp of the issue and TB.LAST that of the last entry returned. WAIT.EV and POLL return the qualifying entry of least stamp, then source, which leaves the queue with its predicate set; without one WAIT.EV leaves the bobbin WAITING at the instruction, and POLL gives 0 with its predicate clear. WAIT.UNTIL goes on once the time base has reached its target and waits before. -/
def Obligations.SignalsAndTime : Prop :=
  (∀ (b : Fin 24) (u : Upset) (i : Ins) (k : Fin 24), Completes (.signal b u)
      (fun s => Issues s b u i ∧ i.op = 0x35 ∧ (valA s b i).toNat % 32 = k.val ∧ (s.bob k).st ≠ .halted ∧ (s.bob k).st ≠ .exception ∧
          (s.bob k).occupied < 32)
      [.events, .regs, .seq]
      fun s t => (∀ c : Fin 24, t.bob c = { (if c = b then ((s.bob b).past i s.now).putPred i.rd true else s.bob c) with
            arriving := if c = k then (s.bob c).arriving ++ [⟨s.stamp .control, 0x8000 + b.val, .doorbell, 0, (valB s b i).toNat % 2 ^ 32,
              srcBobbin b.val, (s.bob k).epoch, false⟩] else (s.bob c).arriving }) ∧
          t.seq.shared = s.seq.shared ∧ t.seq.prog = s.seq.prog ∧ RegsBut [R.SQ_BOB_ISSUED b.val] s t) ∧
  (∀ (b : Fin 24) (u : Upset) (i : Ins) (k : Fin 24), Completes (.signal b u)
      (fun s => Issues s b u i ∧ i.op = 0x35 ∧ (valA s b i).toNat % 32 = k.val ∧ k ≠ b ∧ ((s.bob k).st = .halted ∨ (s.bob k).st = .exception ∨ 32 ≤ (s.bob k).occupied))
      [.events, .regs, .seq]
      fun s t => WritesPd b i false s t) ∧
  (∀ (b : Fin 24) (u : Upset) (i : Ins), Completes (.signal b u)
      (fun s => Issues s b u i ∧ i.op = 0x35 ∧ 24 ≤ (valA s b i).toNat % 32)
      [.events, .regs, .seq]
      fun s t => Excepts b i 6 i.word s t) ∧
  (∀ (b : Fin 24) (u : Upset) (i : Ins), Completes (.tbNow b u)
      (fun s => Issues s b u i ∧ i.op = 0x40)
      [.events, .regs, .seq]
      fun s t => WritesRd b i (BitVec.ofNat 64 (s.stamp .control)) s t) ∧
  (∀ (b : Fin 24) (u : Upset) (i : Ins), Completes (.tbLast b u)
      (fun s => Issues s b u i ∧ i.op = 0x41)
      [.events, .regs, .seq]
      fun s t => WritesRd b i (BitVec.ofNat 64 (s.bob b).lastStamp) s t) ∧
  (∀ (b : Fin 24) (u : Upset) (i : Ins) (e : EvEntry), Completes (.waitEv b u)
      (fun s => Issues s b u i ∧ i.op = 0x42 ∧ (s.bob b).best (valB s b i).toNat (valA s b i).toNat = some e)
      [.events, .regs, .seq]
      fun s t => Becomes b ((({ (s.bob b).past i s.now with queue := (s.bob b).queue.erase e, lastStamp := e.stamp }).put i.rd
            (BitVec.ofNat 64 (e.tag * 2 ^ 48 + kindCode e.kind * 2 ^ 40 + e.result * 2 ^ 32 + e.data))).putPred i.fn true) s t) ∧
  (∀ (b : Fin 24) (u : Upset) (i : Ins), Completes (.waitEv b u)
      (fun s => Issues s b u i ∧ i.op = 0x42 ∧ (s.bob b).best (valB s b i).toNat (valA s b i).toNat = none)
      [.events, .regs, .seq]
      fun s t => Becomes b { (s.bob b).past i s.now with st := .waiting, wait := some (.event (valB s b i).toNat (valA s b i).toNat i.rd i.fn), pc := i.pc } s t) ∧
  (∀ (b : Fin 24) (u : Upset) (i : Ins), Completes (.waitUntil b u)
      (fun s => Issues s b u i ∧ i.op = 0x43 ∧ (valA s b i).toNat ≤ s.now)
      [.events, .regs, .seq]
      fun s t => Becomes b ((s.bob b).past i s.now) s t) ∧
  (∀ (b : Fin 24) (u : Upset) (i : Ins), Completes (.waitUntil b u)
      (fun s => Issues s b u i ∧ i.op = 0x43 ∧ s.now < (valA s b i).toNat)
      [.events, .regs, .seq]
      fun s t => Becomes b { (s.bob b).past i s.now with st := .waiting, wait := some (.until_ (valA s b i).toNat), pc := i.pc } s t) ∧
  (∀ (b : Fin 24) (u : Upset) (i : Ins) (e : EvEntry), Completes (.poll b u)
      (fun s => Issues s b u i ∧ i.op = 0x44 ∧ (s.bob b).best (valB s b i).toNat (valA s b i).toNat = some e)
      [.events, .regs, .seq]
      fun s t => Becomes b ((({ (s.bob b).past i s.now with queue := (s.bob b).queue.erase e, lastStamp := e.stamp }).put i.rd
            (BitVec.ofNat 64 (e.tag * 2 ^ 48 + kindCode e.kind * 2 ^ 40 + e.result * 2 ^ 32 + e.data))).putPred i.fn true) s t) ∧
  (∀ (b : Fin 24) (u : Upset) (i : Ins), Completes (.poll b u)
      (fun s => Issues s b u i ∧ i.op = 0x44 ∧ (s.bob b).best (valB s b i).toNat (valA s b i).toNat = none)
      [.events, .regs, .seq]
      fun s t => Becomes b ((((s.bob b).past i s.now).put i.rd 0).putPred i.fn false) s t)

/-- The oldest entry on its way to a bobbin joins its queue; a completion of an earlier epoch is discarded and counted as stale, and one of this epoch gives back its reserved place. The entry that is due first for a bobbin that does not wait is marked released, no earlier than 96 ticks after its stamp. With nothing more due, a wait for an event ends at its deadline plus 96 ticks with 0 and its predicate clear, and a wait for a time ends when the time base reaches it; the bobbin goes on past the wait. -/
def Obligations.EventQueues : Prop :=
  (∀ (bobbin : Fin 24) (e : EvEntry) (rest : List EvEntry), Completes (.eventQueueEntry bobbin)
      (fun s => (s.bob bobbin).arriving = e :: rest ∧ ((e.kind = .device ∨ e.kind = .decode) → e.epoch = (s.bob bobbin).epoch))
      [.regs, .seq]
      fun s t => t.bob bobbin = { s.bob bobbin with
            arriving := rest, queue := (s.bob bobbin).queue ++ [e]
            outst := if e.kind = .device ∨ e.kind = .decode then (s.bob bobbin).outst.erase e.tag else (s.bob bobbin).outst } ∧
          Elsewhere bobbin s t ∧ t.regs = s.regs) ∧
  (∀ (bobbin : Fin 24) (e : EvEntry) (rest : List EvEntry), Completes (.eventQueueEntry bobbin)
      (fun s => (s.bob bobbin).arriving = e :: rest ∧ (e.kind = .device ∨ e.kind = .decode) ∧ e.epoch ≠ (s.bob bobbin).epoch)
      [.regs, .seq]
      fun s t => t.bob bobbin = { s.bob bobbin with arriving := rest } ∧ Elsewhere bobbin s t ∧
          t.fld (R.SQ_BOB_STATUS bobbin.val) F.SQ_BOB_STATUS_STALE = min 255 (s.fld (R.SQ_BOB_STATUS bobbin.val) F.SQ_BOB_STATUS_STALE + 1) ∧
          RegsBut [R.SQ_BOB_STATUS bobbin.val] s t) ∧
  (∀ (bobbin : Fin 24) (e : EvEntry), Completes (.eventQueueRelease bobbin)
      (fun s => (s.bob bobbin).dueEntry s.now = some e ∧ (s.bob bobbin).wait = none)
      [.seq]
      fun s t => t.bob bobbin = { s.bob bobbin with queue := (s.bob bobbin).queue.map fun y => if y = e then { y with released := true } else y } ∧
          e ∈ (s.bob bobbin).queue ∧ e.released = false ∧ e.stamp + 96 ≤ s.now ∧ Elsewhere bobbin s t ∧ t.regs = s.regs) ∧
  (∀ (bobbin : Fin 24) (m d rd p : Nat), Completes (.waitTimeout bobbin)
      (fun s => (s.bob bobbin).wait = some (.event m d rd p) ∧ d ≠ 2 ^ 64 - 1 ∧ d + 96 ≤ s.now ∧ (s.bob bobbin).dueEntry s.now = none)
      [.seq]
      fun s t => t.bob bobbin = { ((s.bob bobbin).put rd 0).putPred p false with
            st := .ready, wait := none, pc := (fetchIns s (s.bob bobbin).pc).1.next, nextIssue := max (s.bob bobbin).nextIssue s.now } ∧
          Elsewhere bobbin s t) ∧
  (∀ (bobbin : Fin 24) (g : Nat), Completes (.waitUntilReached bobbin)
      (fun s => (s.bob bobbin).wait = some (.until_ g) ∧ g ≤ s.now)
      [.seq]
      fun s t => t.bob bobbin = { s.bob bobbin with
            st := .ready, wait := none, pc := (fetchIns s (s.bob bobbin).pc).1.next, nextIssue := max (s.bob bobbin).nextIssue s.now } ∧
          Elsewhere bobbin s t)

/-- A START by register of a halted or excepted bobbin that may run sets its PC to the entry, clears its registers, predicates, queue and outstanding tags, keeps its scratch, advances its epoch, leaves it READY and logs 0x6003; under a machine check it is refused with 0x6005. BOB.START of another such bobbin does so with the PC in rb and sets pd, and without PRIV takes exception 2. A halt by register is noted with its source, an earlier one being kept, and changes nothing for a halted or excepted bobbin; BOB.HALT of the bobbin itself leaves it HALTED past the instruction. A noted request takes effect with 0x6002 where no HD.OPEN or HD.SEEK is in progress. RESUME leaves the bobbin READY with everything else kept. BOB.STAT of another bobbin reads its status and PC. A capability mask by register is stored for a halted or excepted bobbin, and otherwise changes no register and logs 0x6004; BOB.CAP so refused for another bobbin clears pd and logs 0x6004. -/
def Obligations.BobbinControl : Prop :=
  (∀ (acc : Accessor) (k : Fin 24), Completes (.bobStart (.reg (acc, k)))
      (fun s => s.mcActive = false ∧ ((s.bob k).st = .halted ∨ (s.bob k).st = .exception) ∧ s.mayRun k = true)
      [.events, .regs, .seq]
      fun s t => (t.bob k).st = .ready ∧ (t.bob k).pc = s.entryOf k ∧ (t.bob k).g = Vector.replicate 32 0 ∧ (t.bob k).p = Vector.replicate 8 false ∧
          (t.bob k).queue = [] ∧ (t.bob k).outst = [] ∧ (t.bob k).epoch = (s.bob k).epoch + 1 ∧ (t.bob k).haltReq = none ∧
          (t.bob k).scratch = (s.bob k).scratch ∧ Elsewhere k s t ∧ t.events = (s.logSeq 0x6003 k.val (s.entryOf k) 0).events ∧
          RegsBut [R.SQ_BOB_EXC k.val, R.SQ_BOB_ISSUED k.val] s t) ∧
  (∀ (acc : Accessor) (k : Fin 24), Completes (.bobStart (.reg (acc, k)))
      (fun s => s.mcActive = true)
      [.events, .regs, .seq]
      fun s t => t.seq = s.seq ∧ t.regs = s.regs ∧ t.events = (s.logSeq 0x6005 k.val (match acc with | .host _ => 0xFF | .window b => b.val) 0).events) ∧
  (∀ (b : Fin 24) (u : Upset) (i : Ins) (k : Fin 24), Completes (.bobStart (.obkin b u))
      (fun s => Issues s b u i ∧ i.op = 0xF0 ∧ s.capBit b capPRIV = true ∧ (valA s b i).toNat % 32 = k.val ∧ k ≠ b ∧ s.mcActive = false ∧
          ((s.bob k).st = .halted ∨ (s.bob k).st = .exception) ∧ s.mayRun k = true)
      [.events, .regs, .seq]
      fun s t => t.bob b = ((s.bob b).past i s.now).putPred i.rd true ∧ (t.bob k).st = .ready ∧ (t.bob k).pc = (valB s b i).toNat % 65536 ∧
          (t.bob k).epoch = (s.bob k).epoch + 1 ∧ (t.bob k).queue = [] ∧ ∀ c : Fin 24, c ≠ b → c ≠ k → t.bob c = s.bob c) ∧
  (∀ (b : Fin 24) (u : Upset) (i : Ins), Completes (.bobStart (.obkin b u))
      (fun s => Issues s b u i ∧ i.op = 0xF0 ∧ s.capBit b capPRIV = false)
      [.events, .regs, .seq]
      fun s t => Excepts b i 2 i.word s t) ∧
  (∀ (acc : Accessor) (k : Fin 24), Completes (.bobHalt (.reg (acc, k)))
      (fun s => (s.bob k).st ≠ .halted ∧ (s.bob k).st ≠ .exception)
      [.events, .regs, .seq]
      fun s t => t.bob k = { s.bob k with haltReq := some ((s.bob k).haltReq.getD (.request (match acc with | .host _ => 0xFF | .window b => b.val))) } ∧
          Elsewhere k s t ∧ t.regs = s.regs ∧ t.events = s.events) ∧
  (∀ (acc : Accessor) (k : Fin 24), Completes (.bobHalt (.reg (acc, k)))
      (fun s => (s.bob k).st = .halted ∨ (s.bob k).st = .exception)
      [.events, .regs, .seq]
      fun s t => t = s) ∧
  (∀ (b : Fin 24) (u : Upset) (i : Ins), Completes (.bobHalt (.obkin b u))
      (fun s => Issues s b u i ∧ i.op = 0xF1 ∧ s.capBit b capPRIV = true ∧ (valA s b i).toNat % 32 = b.val)
      [.events, .regs, .seq]
      fun s t => Becomes b { (s.bob b).past i s.now with st := .halted, haltReq := none } s t) ∧
  (∀ (acc : Accessor) (bobbin : Fin 24), Completes (.bobResume acc bobbin)
      (fun s => s.mcActive = false ∧ ((s.bob bobbin).st = .halted ∨ (s.bob bobbin).st = .exception) ∧ s.mayRun bobbin = true)
      [.events, .seq]
      fun s t => t.bob bobbin = { s.bob bobbin with st := .ready, nextIssue := max (s.bob bobbin).nextIssue s.now } ∧ Elsewhere bobbin s t ∧
          t.regs = s.regs ∧ t.events = s.events) ∧
  (∀ (bobbin : Fin 24) (who : Nat), Completes (.bobbinHalted bobbin)
      (fun s => (s.bob bobbin).haltReq = some (.request who) ∧ ∀ n : Fin 16, (s.head n).opening = none ∧ (s.head n).seek = none)
      [.events, .regs, .heads, .loop, .seq, .motion]
      fun s t => t.bob bobbin = { s.bob bobbin with st := .halted, wait := none, stall := none, haltReq := none } ∧ Elsewhere bobbin s t ∧
          t.regs = s.regs ∧ t.heads = s.heads ∧ t.loop = s.loop ∧ t.events = (s.logSeq 0x6002 bobbin.val who (s.bob bobbin).pc).events) ∧
  (∀ (b : Fin 24) (u : Upset) (i : Ins) (k : Fin 24), Completes (.bobStat b u)
      (fun s => Issues s b u i ∧ i.op = 0xF2 ∧ s.capBit b capPRIV = true ∧ (valA s b i).toNat % 32 = k.val ∧ k ≠ b)
      [.events, .regs, .seq]
      fun s t => WritesRd b i (BitVec.ofNat 64 (s.bobStatus k + (s.bob k).pc * 2 ^ 48)) s t) ∧
  (∀ (acc : Accessor) (k : Fin 24) (w : Word), Completes (.capWr (.reg (acc, k, w)))
      (fun s => (s.bob k).st = .halted ∨ (s.bob k).st = .exception)
      [.events, .regs, .seq]
      fun s t => t.reg (R.SQ_BOB_CAP k.val) = writtenWord (R.SQ_BOB_CAP k.val) (s.reg (R.SQ_BOB_CAP k.val)) w ∧ RegsBut [R.SQ_BOB_CAP k.val] s t ∧
          t.seq = s.seq ∧ t.events = s.events) ∧
  (∀ (acc : Accessor) (k : Fin 24) (w : Word), Completes (.capWr (.reg (acc, k, w)))
      (fun s => (s.bob k).st ≠ .halted ∧ (s.bob k).st ≠ .exception)
      [.events, .regs, .seq]
      fun s t => t.regs = s.regs ∧ t.events = (s.logSeq 0x6004 k.val w.toNat (match acc with | .host _ => 0xFF | .window b => b.val)).events) ∧
  (∀ (b : Fin 24) (u : Upset) (i : Ins) (k : Fin 24), Completes (.capWr (.obkin b u))
      (fun s => Issues s b u i ∧ i.op = 0xF3 ∧ s.capBit b capPRIV = true ∧ (valA s b i).toNat % 32 = k.val ∧ (s.bob k).st ≠ .halted ∧
          (s.bob k).st ≠ .exception ∧ k ≠ b)
      [.events, .regs, .seq]
      fun s t => WritesPd b i false s t ∧ t.events = (s.logSeq 0x6004 k.val ((valB s b i).toNat % 2 ^ 32) b.val).events)

/-- For every address, access size of a power of two up to eight and direction: an address that is not aligned is exception 4; below 0x2000 it is the bobbin's own scratch, from 0x100000 to 0x1FFFFF shared scratch, from 0x200000 to 0x23FFFF program memory, which no store reaches, and from 0x40010000 to 0x405FFFFC the register window, for words alone and not for stores to the security block; everything else is exception 5. That misalignment comes first is the model's choice (log entry 29). -/
def Obligations.AddressSpace : Prop :=
  ∀ (addr n : Nat) (w : Bool), (n = 1 ∨ n = 2 ∨ n = 4 ∨ n = 8) →
    (addr % n ≠ 0 → spaceOf addr n w = .error 4) ∧
    (addr % n = 0 →
      (addr < 0x2000 → spaceOf addr n w = .ok (.scratch addr)) ∧
      (0x100000 ≤ addr → addr ≤ 0x1FFFFF → spaceOf addr n w = .ok (.shared (addr - 0x100000))) ∧
      (0x200000 ≤ addr → addr ≤ 0x23FFFF → spaceOf addr n w = if w then .error 5 else .ok (.prog (addr - 0x200000))) ∧
      (0x40010000 ≤ addr → addr ≤ 0x405FFFFC → spaceOf addr n w =
        if n = 4 ∧ ¬ (w = true ∧ 0x40240000 ≤ addr ∧ addr ≤ 0x4027FFFF) then .ok (.window (addr - 0x40000000)) else .error 5) ∧
      (0x2000 ≤ addr → addr < 0x100000 → spaceOf addr n w = .error 5) ∧
      (0x240000 ≤ addr → addr < 0x40010000 → spaceOf addr n w = .error 5) ∧
      (0x405FFFFC < addr → spaceOf addr n w = .error 5))

/-- LDB, LDH, LDW and LDD put the bytes that stand at their place in a scratch or in program memory, the first the least significant, zero-extended into rd, LDBS, LDHS and LDWS sign-extended, and stall the bobbin for the latency of the place. LDW and LDWS with REGR put the value of a register of a single word in the window into rd, zero-extended and sign-extended; LDW without REGR takes exception 2. LDB on an uncorrectable word takes exception 7, and LDH with an address that is no place takes the exception of the address. Nothing else changes but the PC, the time of the next issue and the count of issued instructions, or what the exception writes. -/
def Obligations.LoadInstructions : Prop :=
  (∀ (b : Fin 24) (u : Upset) (i : Ins) (p : Space), Completes (.ldb b u)
      (fun s => Issues s b u i ∧ i.op = 0x20 ∧ u = .none ∧ spaceOf (addrOf s b i) 1 false = .ok p)
      [.events, .regs, .seq]
      fun s t => Loads b i p (BitVec.ofNat 64 (bytesNat (s.spaceRead b p 1))) s t) ∧
  (∀ (b : Fin 24) (u : Upset) (i : Ins) (p : Space), Completes (.ldh b u)
      (fun s => Issues s b u i ∧ i.op = 0x21 ∧ u = .none ∧ spaceOf (addrOf s b i) 2 false = .ok p)
      [.events, .regs, .seq]
      fun s t => Loads b i p (BitVec.ofNat 64 (bytesNat (s.spaceRead b p 2))) s t) ∧
  (∀ (b : Fin 24) (u : Upset) (i : Ins) (p : Space), Completes (.ldd b u)
      (fun s => Issues s b u i ∧ i.op = 0x23 ∧ u = .none ∧ spaceOf (addrOf s b i) 8 false = .ok p)
      [.events, .regs, .seq]
      fun s t => Loads b i p (BitVec.ofNat 64 (bytesNat (s.spaceRead b p 8))) s t) ∧
  (∀ (b : Fin 24) (u : Upset) (i : Ins) (p : Space), Completes (.ldbs b u)
      (fun s => Issues s b u i ∧ i.op = 0x24 ∧ u = .none ∧ spaceOf (addrOf s b i) 1 false = .ok p)
      [.events, .regs, .seq]
      fun s t => Loads b i p ((BitVec.ofNat 8 (bytesNat (s.spaceRead b p 1))).signExtend 64) s t) ∧
  (∀ (b : Fin 24) (u : Upset) (i : Ins) (p : Space), Completes (.ldhs b u)
      (fun s => Issues s b u i ∧ i.op = 0x25 ∧ u = .none ∧ spaceOf (addrOf s b i) 2 false = .ok p)
      [.events, .regs, .seq]
      fun s t => Loads b i p ((BitVec.ofNat 16 (bytesNat (s.spaceRead b p 2))).signExtend 64) s t) ∧
  (∀ (b : Fin 24) (u : Upset) (i : Ins) (p : Space), Completes (.ldw b u)
      (fun s => Issues s b u i ∧ i.op = 0x22 ∧ u = .none ∧ spaceOf (addrOf s b i) 4 false = .ok p ∧ (match p with | .window _ => false | _ => true) = true)
      [.events, .regs, .latches, .seq]
      fun s t => Loads b i p (BitVec.ofNat 64 (bytesNat (s.spaceRead b p 4))) s t) ∧
  (∀ (b : Fin 24) (u : Upset) (i : Ins) (p : Space), Completes (.ldws b u)
      (fun s => Issues s b u i ∧ i.op = 0x26 ∧ u = .none ∧ spaceOf (addrOf s b i) 4 false = .ok p ∧ (match p with | .window _ => false | _ => true) = true)
      [.events, .regs, .latches, .seq]
      fun s t => Loads b i p ((BitVec.ofNat 32 (bytesNat (s.spaceRead b p 4))).signExtend 64) s t) ∧
  (∀ (b : Fin 24) (u : Upset) (i : Ins) (p : Space), Completes (.ldb b u)
      (fun s => Issues s b u i ∧ i.op = 0x20 ∧ u = .data ∧ spaceOf (addrOf s b i) 1 false = .ok p)
      [.events, .regs, .seq]
      fun s t => Excepts b i 7 i.word s t) ∧
  (∀ (b : Fin 24) (u : Upset) (i : Ins) (e : Nat), Completes (.ldh b u)
      (fun s => Issues s b u i ∧ i.op = 0x21 ∧ spaceOf (addrOf s b i) 2 false = .error e)
      [.events, .regs, .seq]
      fun s t => Excepts b i e i.word s t) ∧
  (∀ (b : Fin 24) (u : Upset) (i : Ins) (o key : Nat), Completes (.ldw b u)
      (fun s => Issues s b u i ∧ i.op = 0x22 ∧ spaceOf (addrOf s b i) 4 false = .ok (.window o) ∧ s.capBit b capREGR = true ∧ s.ownerUp o = true ∧
          s.keyOf (.window b) o = some key ∧ assignedKey key = true ∧ roleOf key = .single)
      [.events, .regs, .latches, .seq]
      fun s t => WritesRd b i (BitVec.ofNat 64 ((s.issued b i.next).viewReg key)) s t ∧ t.latches = s.latches) ∧
  (∀ (b : Fin 24) (u : Upset) (i : Ins) (o key : Nat), Completes (.ldws b u)
      (fun s => Issues s b u i ∧ i.op = 0x26 ∧ spaceOf (addrOf s b i) 4 false = .ok (.window o) ∧ s.capBit b capREGR = true ∧ s.ownerUp o = true ∧
          s.keyOf (.window b) o = some key ∧ assignedKey key = true ∧ roleOf key = .single)
      [.events, .regs, .latches, .seq]
      fun s t => WritesRd b i ((BitVec.ofNat 32 ((s.issued b i.next).viewReg key)).signExtend 64) s t ∧ t.latches = s.latches) ∧
  (∀ (b : Fin 24) (u : Upset) (i : Ins) (o : Nat), Completes (.ldw b u)
      (fun s => Issues s b u i ∧ i.op = 0x22 ∧ spaceOf (addrOf s b i) 4 false = .ok (.window o) ∧ s.capBit b capREGR = false)
      [.events, .regs, .latches, .seq]
      fun s t => Excepts b i 2 i.word s t)

/-- STB, STH, STW and STD put the low bytes of rd, least significant first, at their place in a scratch, and every other byte of either scratch reads as before; STW into the register window without REGW takes exception 2, and STB at a place that takes no store the exception of the address. AMO on shared scratch gives the old value in rd, stalls the bobbin for 12 ticks and stores rb, the sum, the conjunction, the disjunction or, where the old value equals rd, rb; on the bobbin's own scratch it takes exception 5. -/
def Obligations.StoreInstructions : Prop :=
  (∀ (b : Fin 24) (u : Upset) (i : Ins) (p : Space), Completes (.stb b u)
      (fun s => Issues s b u i ∧ i.op = 0x28 ∧ spaceOf (addrOf s b i) 1 true = .ok p)
      [.events, .regs, .seq]
      fun s t => Stores b i p 1 ((s.bob b).get i.rd) s t) ∧
  (∀ (b : Fin 24) (u : Upset) (i : Ins) (p : Space), Completes (.sth b u)
      (fun s => Issues s b u i ∧ i.op = 0x29 ∧ spaceOf (addrOf s b i) 2 true = .ok p)
      [.events, .regs, .seq]
      fun s t => Stores b i p 2 ((s.bob b).get i.rd) s t) ∧
  (∀ (b : Fin 24) (u : Upset) (i : Ins) (p : Space), Completes (.std b u)
      (fun s => Issues s b u i ∧ i.op = 0x2B ∧ spaceOf (addrOf s b i) 8 true = .ok p)
      [.events, .regs, .seq]
      fun s t => Stores b i p 8 ((s.bob b).get i.rd) s t) ∧
  (∀ (b : Fin 24) (u : Upset) (i : Ins) (p : Space), Completes (.stw b u)
      (fun s => Issues s b u i ∧ i.op = 0x2A ∧ spaceOf (addrOf s b i) 4 true = .ok p ∧ (match p with | .window _ => false | _ => true) = true)
      [.events, .regs, .heldLo, .msix, .domains, .heads, .decode, .loop, .seq, .mem, .motion, .host, .cal, .sec, .out, .free]
      fun s t => Stores b i p 4 ((s.bob b).get i.rd) s t) ∧
  (∀ (b : Fin 24) (u : Upset) (i : Ins) (o : Nat), Completes (.std b u)
      (fun s => Issues s b u i ∧ i.op = 0x2B ∧ spaceOf (addrOf s b i) 8 true = .ok (.shared o))
      [.events, .regs, .seq]
      fun s t => Stores b i (.shared o) 8 ((s.bob b).get i.rd) s t) ∧
  (∀ (b : Fin 24) (u : Upset) (i : Ins) (e : Nat), Completes (.stb b u)
      (fun s => Issues s b u i ∧ i.op = 0x28 ∧ spaceOf (addrOf s b i) 1 true = .error e)
      [.events, .regs, .seq]
      fun s t => Excepts b i e i.word s t) ∧
  (∀ (b : Fin 24) (u : Upset) (i : Ins) (o : Nat), Completes (.stw b u)
      (fun s => Issues s b u i ∧ i.op = 0x2A ∧ spaceOf (addrOf s b i) 4 true = .ok (.window o) ∧ s.capBit b capREGW = false)
      [.events, .regs, .seq]
      fun s t => Excepts b i 2 i.word s t) ∧
  (∀ (b : Fin 24) (u : Upset) (i : Ins) (o : Nat), Completes (.amo b u)
      (fun s => Issues s b u i ∧ i.op = 0x2C ∧ u = .none ∧ spaceOf (valA s b i).toNat 8 true = .ok (.shared o))
      [.events, .regs, .seq]
      fun s t => t.bob b = { ((s.bob b).past i s.now).put i.rd (BitVec.ofNat 64 (bytesNat (s.spaceRead b (.shared o) 8))) with st := .stalled, stall := some (.busy (s.now + 12)) } ∧
          (∀ c : Fin 24, c ≠ b → t.bob c = s.bob c) ∧
          BitVec.ofNat 64 (bytesNat (t.spaceRead b (.shared o) 8)) = (match i.fn with
            | 0 => valB s b i
            | 1 => BitVec.ofNat 64 (bytesNat (s.spaceRead b (.shared o) 8)) + valB s b i
            | 2 => BitVec.ofNat 64 (bytesNat (s.spaceRead b (.shared o) 8)) &&& valB s b i
            | 3 => BitVec.ofNat 64 (bytesNat (s.spaceRead b (.shared o) 8)) ||| valB s b i
            | _ => if BitVec.ofNat 64 (bytesNat (s.spaceRead b (.shared o) 8)) = ((s.bob b).get i.rd) then valB s b i else BitVec.ofNat 64 (bytesNat (s.spaceRead b (.shared o) 8))) ∧
          ∀ a : Nat, (a < o ∨ o + 8 ≤ a) → byteAt t.seq.shared a = byteAt s.seq.shared a) ∧
  (∀ (b : Fin 24) (u : Upset) (i : Ins) (o : Nat), Completes (.amo b u)
      (fun s => Issues s b u i ∧ i.op = 0x2C ∧ spaceOf (valA s b i).toNat 8 true = .ok (.scratch o))
      [.events, .regs, .seq]
      fun s t => Excepts b i 5 i.word s t)

/-- A state request by register for a slot in use that no sequence overrides waits in the slot, 2 counting as 1, and LP_SLOT_CTRL.REQ shows it; no other slot, register or event changes. RUN is refused with event 0x4007, and the engine unchanged, while the link of the slot's head holds it. With CLR_STATE the slot is also marked to clear its states. LP.REQ, by bit 2 of rb, does the same where the bobbin has capability LP and that of the head, the head is in service and nothing holds the slot, and takes exception 2 without capability LP. A coefficient goes at once into a DISABLED slot, sign-extended from 24 bits, by register or by LP.COEF; in another state a write by register waits in the slot and no register changes. A write of LP_NODE or LP_SLOT_CFG is stored in a DISABLED slot, and COST stands at the cost of the nodes after a write of LP_NODE; in another state a write of LP_SLOT_CFG, LP_SLOT_SCHED or LP_NODE changes no register and logs 0x4003 with the slot and the offset. -/
def Obligations.SlotRequests : Prop :=
  (∀ (k : Fin 96) (req : Fin 4), Completes (.slotStateRequest (.reg (k, req)))
      (fun s => (s.slot k).inUse = true ∧ (s.slot k).override = false ∧ ¬ (req = 3 ∧ (s.linkHolds k = true ∨ (s.slot k).memHold = true)))
      [.events, .regs, .heads, .loop, .seq]
      fun s t => t.slot k = { s.slot k with req := some (if req = 2 then 1 else req.val) } ∧ (∀ j : Fin 96, j ≠ k → t.slot j = s.slot j) ∧
          t.fld (R.LP_SLOT_CTRL k.val) F.LP_SLOT_CTRL_REQ = (if req = 2 then 1 else req.val) ∧ RegsBut [R.LP_SLOT_CTRL k.val] s t ∧ t.events = s.events) ∧
  (∀ (k : Fin 96) (req : Fin 4), Completes (.slotStateRequest (.reg (k, req)))
      (fun s => (s.slot k).override = false ∧ req = 3 ∧ s.linkHolds k = true)
      [.events, .regs, .heads, .loop, .seq]
      fun s t => t.slot k = s.slot k ∧ t.events = (s.logLoop 0x4007 k.val 0).events ∧ t.loop = s.loop) ∧
  (∀ (b : Fin 24) (u : Upset) (i : Ins) (k : Fin 96) (n : Fin 16), Completes (.slotStateRequest (.obkin b u))
      (fun s => Issues s b u i ∧ i.op = 0x68 ∧ (valB s b i).toNat / 4 % 2 = 0 ∧ s.capBit b famLP = true ∧ (valA s b i).toNat % 128 = k.val ∧
          slotHead s k = some n ∧ s.capBit b (16 + n.val) = true ∧ s.headInService n.val = true ∧ (s.slot k).inUse = true ∧ (s.slot k).override = false ∧
          s.linkHolds k = false ∧ (s.slot k).memHold = false)
      [.events, .regs, .heads, .loop, .seq]
      fun s t => (t.slot k).req = some (if (valB s b i).toNat % 4 = 2 then 1 else (valB s b i).toNat % 4) ∧ t.bob b = (s.bob b).past i s.now ∧
          Elsewhere b s t ∧ RegsBut [R.SQ_BOB_ISSUED b.val, R.LP_SLOT_CTRL k.val] s t) ∧
  (∀ (b : Fin 24) (u : Upset) (i : Ins), Completes (.slotStateRequest (.obkin b u))
      (fun s => Issues s b u i ∧ i.op = 0x68 ∧ (valB s b i).toNat / 4 % 2 = 0 ∧ s.capBit b famLP = false)
      [.events, .regs, .heads, .loop, .seq]
      fun s t => Excepts b i 2 i.word s t ∧ t.loop = s.loop) ∧
  (∀ (k : Fin 96) (req : Fin 4), Completes (.slotClearState (.reg (k, req)))
      (fun s => (s.slot k).inUse = true ∧ (s.slot k).override = false ∧ ¬ (req = 3 ∧ (s.linkHolds k = true ∨ (s.slot k).memHold = true)))
      [.events, .regs, .heads, .loop, .seq]
      fun s t => t.slot k = { s.slot k with req := some (if req = 2 then 1 else req.val), clear := true } ∧
          (∀ j : Fin 96, j ≠ k → t.slot j = s.slot j) ∧ RegsBut [R.LP_SLOT_CTRL k.val] s t ∧ t.events = s.events) ∧
  (∀ (b : Fin 24) (u : Upset) (i : Ins) (k : Fin 96) (n : Fin 16), Completes (.slotClearState (.obkin b u))
      (fun s => Issues s b u i ∧ i.op = 0x68 ∧ (valB s b i).toNat / 4 % 2 = 1 ∧ s.capBit b famLP = true ∧ (valA s b i).toNat % 128 = k.val ∧
          slotHead s k = some n ∧ s.capBit b (16 + n.val) = true ∧ s.headInService n.val = true ∧ (s.slot k).inUse = true ∧ (s.slot k).override = false ∧
          s.linkHolds k = false ∧ (s.slot k).memHold = false)
      [.events, .regs, .heads, .loop, .seq]
      fun s t => (t.slot k).req = some (if (valB s b i).toNat % 4 = 2 then 1 else (valB s b i).toNat % 4) ∧ (t.slot k).clear = true ∧
          t.bob b = (s.bob b).past i s.now ∧ Elsewhere b s t) ∧
  (∀ (k : Fin 96) (i : Fin 64) (w : Word), Completes (.coefficientWrite (.reg (k, i, w)))
      (fun s => (s.slot k).st = .disabled)
      [.events, .regs, .loop, .seq]
      fun s t => t.reg (R.LP_COEF k.val i.val) = (w.setWidth 24).signExtend 32 ∧ RegsBut [R.LP_COEF k.val i.val] s t ∧ t.loop = s.loop) ∧
  (∀ (k : Fin 96) (i : Fin 64) (w : Word), Completes (.coefficientWrite (.reg (k, i, w)))
      (fun s => (s.slot k).st ≠ .disabled)
      [.events, .regs, .loop, .seq]
      fun s t => t.slot k = { s.slot k with coefPend := (s.slot k).coefPend ++ [(i.val, w.toNat % 2 ^ 24)] } ∧
          (∀ j : Fin 96, j ≠ k → t.slot j = s.slot j) ∧ t.regs = s.regs) ∧
  (∀ (b : Fin 24) (u : Upset) (i : Ins) (k : Fin 96) (n : Fin 16), Completes (.coefficientWrite (.obkin b u))
      (fun s => Issues s b u i ∧ i.op = 0x69 ∧ s.capBit b famLP = true ∧ (valA s b i).toNat % 128 = k.val ∧ slotHead s k = some n ∧
          s.capBit b (16 + n.val) = true ∧ s.headInService n.val = true ∧ (s.slot k).st = .disabled)
      [.events, .regs, .loop, .seq]
      fun s t => t.reg (R.LP_COEF k.val ((valB s b i).toNat % 64)) = (((s.bob b).get i.rd).setWidth 24).signExtend 32 ∧
          t.bob b = (s.bob b).past i s.now ∧ Elsewhere b s t ∧
          RegsBut [R.SQ_BOB_ISSUED b.val, R.LP_COEF k.val ((valB s b i).toNat % 64)] s t) ∧
  (∀ (slot : Fin 96) (j : Fin 24) (val : Word), Completes (.slotConfigWrite slot (.node j) val)
      (fun s => (s.slot slot).st = .disabled)
      [.events, .regs]
      fun s t => t.reg (R.LP_NODE slot.val j.val) = writtenWord (R.LP_NODE slot.val j.val) (s.reg (R.LP_NODE slot.val j.val)) val ∧
          t.fld (R.LP_SLOT_SCHED slot.val) F.LP_SLOT_SCHED_COST = slotCost (slotNodes t slot) % 2 ^ F.LP_SLOT_SCHED_COST.width ∧
          RegsBut [R.LP_NODE slot.val j.val, R.LP_SLOT_SCHED slot.val] s t ∧ t.events = s.events) ∧
  (∀ (slot : Fin 96) (val : Word), Completes (.slotConfigWrite slot .cfg val)
      (fun s => (s.slot slot).st = .disabled)
      [.events, .regs]
      fun s t => t.reg (R.LP_SLOT_CFG slot.val) = writtenWord (R.LP_SLOT_CFG slot.val) (s.reg (R.LP_SLOT_CFG slot.val)) val ∧
          RegsBut [R.LP_SLOT_CFG slot.val, R.LP_SLOT_SCHED slot.val] s t ∧ t.events = s.events) ∧
  (∀ (slot : Fin 96) (which : SlotReg) (val : Word), Completes (.slotConfigWrite slot which val)
      (fun s => (s.slot slot).st ≠ .disabled)
      [.events, .regs]
      fun s t => t.regs = s.regs ∧ t.events = (s.logLoop 0x4003 slot.val (slotRegOff slot which)).events)

/-- At its execution start a slot with a pending request 0 is DISABLED, with no reservation, no waiting coefficient write and no override. A slot in RUN with a pending request 1 and no waiting coefficient, no sequence running, executes held in HOLD, and its last execution is the one due in this frame. No other slot changes in either. A QUAD set at the front of a head's crossing stands as the newest of at most nine visible ones, with this tick as the one it became visible; a chevron offset at the front becomes the head's CHEV source; a rise at the front with no window begins the hold window, and a fall at the front ends it. A write of LP_TRC_CTRL stores MODE and POST, empties the ring and clears FROZEN, WRAPPED and WPTR. A freeze in mode 3 with POST above 0 counts POST records down, and with POST 0 sets FROZEN at once. The merger keeps the records younger than 384 ticks, and publishes the tick 384 before as its completeness stamp; of two due records it puts the one with the smaller stamp into the ring first, at the write pointer, and the other after it. -/
def Obligations.LoopExecutions : Prop :=
  (∀ (slot : Fin 96) (memErr : Option Nat), Completes (.slotExecution slot memErr)
      (fun s => memErr = none ∧ (s.slot slot).inUse = true ∧ slotDue s slot (s.now / 1875) = true ∧ execStart s slot (s.now / 1875) ≤ s.now ∧
          (s.slot slot).lastExec = none ∧ (s.slot slot).req = some 0)
      [.events, .regs, .heads, .decode, .loop, .seq, .mem, .motion, .out, .free]
      fun s t => (t.slot slot).st = .disabled ∧ (t.slot slot).reserved = false ∧ (t.slot slot).coefPend = [] ∧ (t.slot slot).override = false ∧
          (∀ j : Fin 96, j ≠ slot → t.slot j = s.slot j)) ∧
  (∀ (slot : Fin 96) (memErr : Option Nat), Completes (.slotExecution slot memErr)
      (fun s => memErr = none ∧ (s.slot slot).inUse = true ∧ slotDue s slot (s.now / 1875) = true ∧ execStart s slot (s.now / 1875) ≤ s.now ∧
          (s.slot slot).lastExec = none ∧ (s.slot slot).req = some 1 ∧ (s.slot slot).coefPend = [] ∧ ∀ n : Fin 16, (s.loopHead n).seq = none)
      [.events, .regs, .heads, .decode, .loop, .seq, .mem, .motion, .out, .free]
      fun s t => (t.slot slot).st = .hold ∧ (t.slot slot).held = true ∧ (t.slot slot).lastExec = some (execStart s slot (s.now / 1875)) ∧
          (t.slot slot).req = none ∧ (∀ j : Fin 96, j ≠ slot → t.slot j = s.slot j) ∧ RegsBut [R.LP_TRC_STATUS] s t) ∧
  (∀ (head : Fin 16) (q : QuadSet) (rest : List LoopItem), Completes (.quadSetVisible head)
      (fun s => (s.loopHead head).xing = .quad q :: rest)
      [.loop]
      fun s t => t.loopHead head = { s.loopHead head with xing := rest, quads := ({ q with seen := s.now } :: (s.loopHead head).quads).take 9 } ∧
          (∀ m : Fin 16, m ≠ head → t.loopHead m = s.loopHead m) ∧ t.loop.slots = s.loop.slots) ∧
  (∀ (head : Fin 16) (c : ChevOffset) (rest : List LoopItem), Completes (.chevronOffsetArrival head)
      (fun s => (s.loopHead head).xing = .chevron c :: rest)
      [.loop]
      fun s t => t.loopHead head = { s.loopHead head with xing := rest, chev := some c } ∧ ∀ m : Fin 16, m ≠ head → t.loopHead m = s.loopHead m) ∧
  (∀ (head : Fin 16) (r : Stamp) (rest : List LoopItem), Completes (.dropoutFlagArrival head)
      (fun s => (s.loopHead head).xing = .rise r :: rest ∧ (s.loopHead head).rise = none ∧ (s.loopHead head).fall = none)
      [.loop]
      fun s t => t.loopHead head = { s.loopHead head with xing := rest, rise := some r, fall := none } ∧ t.loop.slots = s.loop.slots) ∧
  (∀ (head : Fin 16) (f : Stamp) (rest : List LoopItem), Completes (.dropoutFlagArrival head)
      (fun s => (s.loopHead head).xing = .fall f :: rest)
      [.loop]
      fun s t => t.loopHead head = { s.loopHead head with xing := rest, fall := some f } ∧ t.loop.slots = s.loop.slots) ∧
  (∀ (val : Word), Completes (.traceModeWrite val)
      (fun _ => True)
      [.regs, .loop]
      fun s t => t.fld R.LP_TRC_CTRL F.LP_TRC_CTRL_MODE = val.toNat % 4 ∧ t.fld R.LP_TRC_CTRL F.LP_TRC_CTRL_POST = val.toNat / 65536 ∧
          t.flag R.LP_TRC_STATUS F.LP_TRC_STATUS_FROZEN = false ∧ t.flag R.LP_TRC_STATUS F.LP_TRC_STATUS_WRAPPED = false ∧
          t.fld R.LP_TRC_STATUS F.LP_TRC_STATUS_WPTR = 0 ∧ t.loop = { s.loop with freezeLeft := none, traceRing := [] } ∧
          RegsBut [R.LP_TRC_CTRL, R.LP_TRC_STATUS] s t) ∧
  (Completes .traceFreeze
      (fun s => s.fld R.LP_TRC_CTRL F.LP_TRC_CTRL_MODE = 3 ∧ s.loop.freezeLeft = none ∧ s.flag R.LP_TRC_STATUS F.LP_TRC_STATUS_FROZEN = false ∧
          s.fld R.LP_TRC_CTRL F.LP_TRC_CTRL_POST ≠ 0)
      [.regs, .loop]
      fun s t => t.loop = { s.loop with freezeLeft := some (s.fld R.LP_TRC_CTRL F.LP_TRC_CTRL_POST) } ∧ t.regs = s.regs) ∧
  (Completes .traceFreeze
      (fun s => s.fld R.LP_TRC_CTRL F.LP_TRC_CTRL_MODE = 3 ∧ s.loop.freezeLeft = none ∧ s.fld R.LP_TRC_CTRL F.LP_TRC_CTRL_POST = 0)
      [.regs, .loop]
      fun s t => t.flag R.LP_TRC_STATUS F.LP_TRC_STATUS_FROZEN = true ∧ t.loop = s.loop ∧ RegsBut [R.LP_TRC_STATUS] s t) ∧
  (Completes .traceMergerRelease
      (fun _ => True)
      [.regs, .loop]
      fun s t => t.loop.trace = s.loop.trace.filter (fun r => decide (s.now < r.stamp + 384)) ∧ t.pair R.LP_TRC_COMP_LO = s.now - 384 ∧
          t.loop.slots = s.loop.slots ∧ RegsBut [R.LP_TRC_STATUS, R.LP_TRC_COMP_LO, R.LP_TRC_COMP_HI] s t) ∧
  (∀ (a b : TraceRec), Completes .traceMergerRelease
      (fun s => s.loop.trace = [a, b] ∧ b.stamp < a.stamp ∧ a.stamp + 384 ≤ s.now ∧ s.flag R.LP_TRC_STATUS F.LP_TRC_STATUS_FROZEN = false ∧
          s.loop.freezeLeft = none ∧ s.fld R.LP_TRC_STATUS F.LP_TRC_STATUS_WPTR + 2 < 8192)
      [.regs, .loop]
      fun s t => storeGet (fun _ => (⟨0, 0, 0, 0, 0⟩ : TraceRec)) (s.fld R.LP_TRC_STATUS F.LP_TRC_STATUS_WPTR) t.loop.traceRing = b ∧
          storeGet (fun _ => (⟨0, 0, 0, 0, 0⟩ : TraceRec)) (s.fld R.LP_TRC_STATUS F.LP_TRC_STATUS_WPTR + 1) t.loop.traceRing = a ∧
          t.fld R.LP_TRC_STATUS F.LP_TRC_STATUS_WPTR = s.fld R.LP_TRC_STATUS F.LP_TRC_STATUS_WPTR + 2 ∧ t.loop.trace = [])

/-- A track-on past its time ends with result 3, and a seam jump that still waits for its seam past the start of servo frame 0, on a head that writes nothing and has no open waiting, with result 5, ADDR_OK clear and no expected track: the head runs no sequence any more, the status register shows the result and that nothing runs, and event 0x4006 with the sequence's number, result and duration is logged, followed for the seam jump by 0x1301, whose address and word number are free values (log entry 150). -/
def Obligations.SequenceEnds : Prop :=
  (∀ (head : Fin 16) (q : Sequence) (e : Stamp), Completes (.sequenceTimeout head)
      (fun s => (s.loopHead head).seq = some q ∧ q.kind = .trackOn ∧ seqLimit s head q = some e ∧ e ≤ s.now)
      [.events, .regs, .heads, .loop, .seq]
      fun s t => (t.loopHead head).seq = none ∧ t.fld (R.LP_SEQ_STATUS head.val) F.LP_SEQ_STATUS_RESULT = 3 ∧
          t.fld (R.LP_SEQ_STATUS head.val) F.LP_SEQ_STATUS_RUNNING = 0 ∧ RegsBut [R.LP_SEQ_STATUS head.val] s t ∧
          t.events = (s.logLoop 0x4006 head.val 3 3 (s.now - q.t0)).events) ∧
  (∀ (head : Fin 16) (q : Sequence) (a d : Stamp) (k : Int), Completes (.seamJumpDeadline head)
      (fun s => (s.loopHead head).seq = some q ∧ q.kind = .seamJump k ∧ q.phase = .awaitSeam a d ∧ d ≤ s.now ∧ (trackSlot s head).isSome = true ∧
          (s.head head).writingNow = false ∧ (s.head head).opening = none)
      [.events, .regs, .heads, .decode, .loop, .seq, .mem, .motion, .out, .free]
      fun s t => (t.loopHead head).seq = none ∧ t.fld (R.LP_SEQ_STATUS head.val) F.LP_SEQ_STATUS_RESULT = 5 ∧
          t.fld (R.LP_SEQ_STATUS head.val) F.LP_SEQ_STATUS_RUNNING = 0 ∧ t.flag (R.HD_FLY_STATUS head.val) F.HD_FLY_STATUS_ADDR_OK = false ∧
          (t.head head).fly.expected = none ∧ RegsBut [R.LP_SEQ_STATUS head.val, R.HD_FLY_STATUS head.val] s t ∧
          t.events = ((s.logLoop 0x4006 head.val 4 5 (s.now - q.t0)).logHead head 0x1301
            ((s.head head).fly.expected.elim 0 fun x => addrPlace x.1 x.2) (s.draw.1 % 2 ^ 23) (s.draw.2.draw.1 % 16)).events)

/-- For every bobbin whose capabilities name the head, every head in service and every operand in range: where no seek, no open and no other sequence is in progress and the slots and the laser allow it, the loop engine holds the sequence with its operand, the instruction's tag and its starting time, and LP_SEQ_STATUS shows it running; HD.TRKON during a seek completes at once with result 8, and HD.FOCUS with the laser off with result 1, the result shown in LP_SEQ_STATUS and logged with 0x4006, the loop engine unchanged. The tag stands in rd in all these cases. An operand of 0, or one beyond 15 layers for HD.LJUMP or 12 tracks for HD.SJUMP, raises exception 6. -/
def Obligations.HeadSequences : Prop :=
  (∀ (b : Fin 24) (u : Upset) (i : Ins) (n : Fin 16), Completes (.hdFocus b u)
      (fun s => Issues s b u i ∧ i.op = 0x53 ∧ AimsAt s b i famHD n ∧ (s.bob b).occupied < 32 ∧ (s.head n).seek = none ∧ (s.head n).opening = none ∧
          seqRefusal s n (.focus ((valB s b i).toNat % 16)) = none)
      [.events, .regs, .loop, .seq]
      fun s t => (t.loopHead n).seq.map (fun q => (q.kind, q.who, q.t0)) = some (.focus ((valB s b i).toNat % 16), some (waiterOf s b), s.now) ∧
          t.fld (R.LP_SEQ_STATUS n.val) F.LP_SEQ_STATUS_RUNNING = 1 ∧ Tagged b i s t) ∧
  (∀ (b : Fin 24) (u : Upset) (i : Ins) (n : Fin 16), Completes (.hdFocus b u)
      (fun s => Issues s b u i ∧ i.op = 0x53 ∧ AimsAt s b i famHD n ∧ (s.bob b).occupied < 32 ∧ (s.head n).seek = none ∧ (s.head n).opening = none ∧
          (s.loopHead n).seq = none ∧ (s.head n).link.usable = true ∧ (focusSlot s n).any (fun k => (s.slot k).st != .disabled) = true ∧ s.hdLen n = false)
      [.events, .regs, .loop, .seq]
      fun s t => (t.bob b).arriving = (s.bob b).arriving ++ [⟨s.stamp .control, (s.bob b).nextTag b.val, .device, 1, 0, srcLoop, (s.bob b).epoch, false⟩] ∧
          Tagged b i s t ∧ t.fld (R.LP_SEQ_STATUS n.val) F.LP_SEQ_STATUS_RESULT = 1 ∧
          RegsBut [R.SQ_BOB_ISSUED b.val, R.LP_SEQ_STATUS n.val] s t ∧ t.loop = s.loop ∧ t.events = (s.logLoop 0x4006 n.val 1 1 0).events) ∧
  (∀ (b : Fin 24) (u : Upset) (i : Ins) (n : Fin 16) (k : Int), Completes (.hdLjump b u)
      (fun s => Issues s b u i ∧ i.op = 0x54 ∧ AimsAt s b i famHD n ∧ (s.bob b).occupied < 32 ∧ (s.head n).seek = none ∧ (s.head n).opening = none ∧
          (valB s b i).toInt = k ∧ k ≠ 0 ∧ k.natAbs ≤ 15 ∧ seqRefusal s n (.layerJump k) = none)
      [.events, .regs, .loop, .seq]
      fun s t => (t.loopHead n).seq.map (fun q => (q.kind, q.who, q.t0)) = some (.layerJump k, some (waiterOf s b), s.now) ∧
          t.fld (R.LP_SEQ_STATUS n.val) F.LP_SEQ_STATUS_RUNNING = 2 ∧ Tagged b i s t) ∧
  (∀ (b : Fin 24) (u : Upset) (i : Ins) (n : Fin 16), Completes (.hdLjump b u)
      (fun s => Issues s b u i ∧ i.op = 0x54 ∧ AimsAt s b i famHD n ∧ ((valB s b i).toInt = 0 ∨ 15 < (valB s b i).toInt.natAbs))
      [.events, .regs, .loop, .seq]
      fun s t => Excepts b i 6 i.word s t ∧ t.loop = s.loop) ∧
  (∀ (b : Fin 24) (u : Upset) (i : Ins) (n : Fin 16), Completes (.hdTrkon b u)
      (fun s => Issues s b u i ∧ i.op = 0x55 ∧ AimsAt s b i famHD n ∧ (s.bob b).occupied < 32 ∧ (s.head n).seek = none ∧ (s.head n).opening = none ∧
          seqRefusal s n .trackOn = none)
      [.events, .regs, .loop, .seq]
      fun s t => (t.loopHead n).seq.map (fun q => (q.kind, q.who, q.t0)) = some (.trackOn, some (waiterOf s b), s.now) ∧
          t.fld (R.LP_SEQ_STATUS n.val) F.LP_SEQ_STATUS_RUNNING = 3 ∧ Tagged b i s t) ∧
  (∀ (b : Fin 24) (u : Upset) (i : Ins) (n : Fin 16) (k : Int), Completes (.hdSjump b u)
      (fun s => Issues s b u i ∧ i.op = 0x56 ∧ AimsAt s b i famHD n ∧ (s.bob b).occupied < 32 ∧ (s.head n).seek = none ∧ (s.head n).opening = none ∧
          (valB s b i).toInt = k ∧ k ≠ 0 ∧ k.natAbs ≤ 12 ∧ seqRefusal s n (.seamJump k) = none)
      [.events, .regs, .loop, .seq]
      fun s t => (t.loopHead n).seq.map (fun q => (q.kind, q.who, q.t0)) = some (.seamJump k, some (waiterOf s b), s.now) ∧
          t.fld (R.LP_SEQ_STATUS n.val) F.LP_SEQ_STATUS_RUNNING = 4 ∧ Tagged b i s t) ∧
  (∀ (b : Fin 24) (u : Upset) (i : Ins) (n : Fin 16), Completes (.hdSjump b u)
      (fun s => Issues s b u i ∧ i.op = 0x56 ∧ AimsAt s b i famHD n ∧ ((valB s b i).toInt = 0 ∨ 12 < (valB s b i).toInt.natAbs))
      [.events, .regs, .loop, .seq]
      fun s t => Excepts b i 6 i.word s t ∧ t.loop = s.loop) ∧
  (∀ (b : Fin 24) (u : Upset) (i : Ins) (n : Fin 16) (k : SeekReq), Completes (.hdTrkon b u)
      (fun s => Issues s b u i ∧ i.op = 0x55 ∧ AimsAt s b i famHD n ∧ (s.bob b).occupied < 32 ∧ (s.head n).seek = some k)
      [.events, .regs, .loop, .seq]
      fun s t => (t.bob b).arriving = (s.bob b).arriving ++ [⟨s.stamp .control, (s.bob b).nextTag b.val, .device, 8, 0, srcLoop, (s.bob b).epoch, false⟩] ∧
          Tagged b i s t ∧ t.fld (R.LP_SEQ_STATUS n.val) F.LP_SEQ_STATUS_RESULT = 8 ∧
          RegsBut [R.SQ_BOB_ISSUED b.val, R.LP_SEQ_STATUS n.val] s t ∧ t.loop = s.loop ∧ t.events = (s.logLoop 0x4006 n.val 3 8 0).events)

/-- HD.OPEN with a valid descriptor is held with the register values of that moment and waits for the hem in progress (stated of a pass that has no unclaimed run-ahead band), or for its claim where no pass is open; a descriptor of zeros completes with result 3, and an address outside shared scratch raises exception 6. On a pass that has no unclaimed run-ahead band, HD.HEM joins the hem in progress, and with no pass open completes with result 1 and the head's last pass number. HD.SEEK on a head without a pass holds the request, writes SL_TARGET and orders the sled; after track-on with result 0 it waits for an address, ends with result 0 on its track, and with result 2 after 2 ms without an address. HD.SAFE, HD.FEWR and HD.FERD queue their message on a usable link and wait for the answer; after 1 ms without one the result is 3. HD.SAFE on any other link completes with result 6, and with FN 2 or 3 raises exception 6. HD.HK gives the latest value of its item with bit 63 set, or 0 where none has come. HD.STAT with a pass open and the link UP gives the head's status, and raises exception 3 where the head is out of service. -/
def Obligations.HeadInstructions : Prop :=
  (∀ (b : Fin 24) (u : Upset) (i : Ins) (n : Fin 16) (d : PassDesc) (p : Pass) (m : Hem), Completes (.hdOpen b u)
      (fun s => Issues s b u i ∧ i.op = 0x50 ∧ AimsAt s b i famHD n ∧ (s.bob b).occupied < 32 ∧ 0x100000 ≤ (valB s b i).toNat ∧
          (valB s b i).toNat + 64 ≤ 0x200000 ∧ (s.head n).link.usable = true ∧ (s.head n).opening = none ∧ (s.loopHead n).seq = none ∧
          parseDesc (scratchBytes s.seq.shared ((valB s b i).toNat - 0x100000) 64) = some d ∧ descValid s n (s.reg (R.HD_FMT_CFG n.val)).toNat d = true ∧
          (s.head n).pass = some p ∧ p.hem = some m ∧ (∀ r ∈ s.decode.runAhead, ¬ (r.head = n.val ∧ r.claim = none)))
      [.events, .regs, .heads, .decode, .seq, .mem, .motion, .out]
      fun s t => (t.head n).opening = some { who := waiterOf s b, desc := d, cfg := passCfgNow s n, stage := .awaitHem, relocs := [], clamps := 0 } ∧
          (t.head n).pass = (s.head n).pass ∧ HeadsBut n s t ∧ Starts b i s t) ∧
  (∀ (b : Fin 24) (u : Upset) (i : Ins) (n : Fin 16) (d : PassDesc), Completes (.hdOpen b u)
      (fun s => Issues s b u i ∧ i.op = 0x50 ∧ AimsAt s b i famHD n ∧ (s.bob b).occupied < 32 ∧ 0x100000 ≤ (valB s b i).toNat ∧
          (valB s b i).toNat + 64 ≤ 0x200000 ∧ (s.head n).link.usable = true ∧ (s.head n).opening = none ∧ (s.loopHead n).seq = none ∧
          parseDesc (scratchBytes s.seq.shared ((valB s b i).toNat - 0x100000) 64) = some d ∧ descValid s n (s.reg (R.HD_FMT_CFG n.val)).toNat d = true ∧
          (s.head n).pass = none)
      [.events, .regs, .heads, .decode, .seq, .mem, .motion, .out]
      fun s t => (t.head n).opening = some { who := waiterOf s b, desc := d, cfg := passCfgNow s n, stage := .claim, relocs := [], clamps := 0 } ∧
          (t.motion.waiting.any fun c => c.1 == n.val) = true ∧ HeadsBut n s t ∧ Tagged b i s t) ∧
  (∀ (b : Fin 24) (u : Upset) (i : Ins) (n : Fin 16), Completes (.hdOpen b u)
      (fun s => Issues s b u i ∧ i.op = 0x50 ∧ AimsAt s b i famHD n ∧ (s.bob b).occupied < 32 ∧ 0x100000 ≤ (valB s b i).toNat ∧
          (valB s b i).toNat + 64 ≤ 0x200000 ∧ (s.head n).link.usable = true ∧ (s.head n).opening = none ∧ (s.loopHead n).seq = none ∧
          (∀ x ∈ List.range 64, byteAt s.seq.shared ((valB s b i).toNat - 0x100000 + x) = 0))
      [.events, .regs, .heads, .decode, .seq, .mem, .motion, .out]
      fun s t => (t.bob b).arriving = (s.bob b).arriving ++ [headEntry s n (waiterOf s b) 3 0] ∧ t.heads = s.heads ∧ Tagged b i s t ∧
          RegsBut [R.SQ_BOB_ISSUED b.val] s t) ∧
  (∀ (b : Fin 24) (u : Upset) (i : Ins) (n : Fin 16), Completes (.hdOpen b u)
      (fun s => Issues s b u i ∧ i.op = 0x50 ∧ AimsAt s b i famHD n ∧ ((valB s b i).toNat < 0x100000 ∨ 0x200000 < (valB s b i).toNat + 64))
      [.events, .regs, .heads, .decode, .seq, .mem, .motion, .out]
      fun s t => Excepts b i 6 i.word s t ∧ t.heads = s.heads) ∧
  (∀ (b : Fin 24) (u : Upset) (i : Ins) (n : Fin 16) (p : Pass) (m : Hem), Completes (.hdHem b u)
      (fun s => Issues s b u i ∧ i.op = 0x51 ∧ AimsAt s b i famHD n ∧ (s.bob b).occupied < 32 ∧ (s.head n).opening = none ∧ (s.head n).pass = some p ∧ p.hem = some m ∧
          (∀ r ∈ s.decode.runAhead, ¬ (r.head = n.val ∧ r.claim = none)))
      [.events, .regs, .heads, .decode, .seq, .mem, .motion, .out]
      fun s t => t.head n = { s.head n with pass := some { p with hem := some { m with waiters := m.waiters ++ [waiterOf s b] } } } ∧ HeadsBut n s t ∧
          Starts b i s t) ∧
  (∀ (b : Fin 24) (u : Upset) (i : Ins) (n : Fin 16), Completes (.hdHem b u)
      (fun s => Issues s b u i ∧ i.op = 0x51 ∧ AimsAt s b i famHD n ∧ (s.bob b).occupied < 32 ∧ (s.head n).opening = none ∧ (s.head n).pass = none)
      [.events, .regs, .heads, .decode, .seq, .mem, .motion, .out]
      fun s t => (t.bob b).arriving = (s.bob b).arriving ++ [headEntry s n (waiterOf s b) 1 (s.head n).passNo] ∧ t.heads = s.heads ∧ Tagged b i s t) ∧
  (∀ (b : Fin 24) (u : Upset) (i : Ins) (n : Fin 16) (k : Fin 96), Completes (.hdSeek b u)
      (fun s => Issues s b u i ∧ i.op = 0x52 ∧ AimsAt s b i famHD n ∧ (s.bob b).occupied < 32 ∧ (s.head n).opening = none ∧ (s.head n).pass = none ∧
          (s.head n).seek = none ∧ (s.loopHead n).seq = none ∧ (s.head n).link.usable = true ∧ focusSlot s n = some k ∧ (s.slot k).st = .run ∧
          s.headPopulated n.val = true ∧ s.fld (R.SL_STATUS n.val) F.SL_STATUS_FAULT = 0 ∧ s.flag (R.SL_STATUS n.val) F.SL_STATUS_UNCERTAIN = false)
      [.events, .regs, .heads, .decode, .seq, .mem, .motion, .out]
      fun s t => (t.head n).seek = some { who := waiterOf s b, target := (valB s b i).toNat % 2 ^ 19, stage := .moving, corrections := 0, fmt := (s.reg (R.HD_FMT_CFG n.val)).toNat, note := none } ∧
          (t.sled n).cmds = (s.sled n).cmds ++ [.move] ∧
          t.reg (R.SL_TARGET n.val) = BitVec.ofInt 32 (clampInt (s.reg (R.SL_LIMIT_LO n.val)).toInt (s.reg (R.SL_LIMIT_HI n.val)).toInt
            (trackP s n (s.reg (R.HD_FMT_CFG n.val)).toNat ((valB s b i).toNat % 2 ^ 19))) ∧
          HeadsBut n s t ∧ Tagged b i s t ∧ RegsBut [R.SQ_BOB_ISSUED b.val, R.SL_STATUS n.val, R.SL_TARGET n.val] s t) ∧
  (∀ (head : Fin 16) (k : SeekReq), Completes (.seekStep head)
      (fun s => (s.head head).seek = some k ∧ k.stage = .trackOn ∧ k.note = some 0)
      [.events, .regs, .heads, .loop, .seq, .motion]
      fun s t => t.head head = { s.head head with seek := some { k with stage := .awaitAddr s.now, note := none } } ∧ HeadsBut head s t ∧
          t.regs = s.regs ∧ t.seq = s.seq ∧ t.motion = s.motion ∧ t.loop = s.loop ∧ t.events = s.events) ∧
  (∀ (head : Fin 16) (k : SeekReq) (since : Stamp) (l : Nat), Completes (.seekStep head)
      (fun s => (s.head head).seek = some k ∧ k.stage = .awaitAddr since ∧ s.flag (R.HD_FLY_STATUS head.val) F.HD_FLY_STATUS_ADDR_OK = true ∧
          (s.head head).fly.expected = some (l, k.target))
      [.events, .regs, .heads, .loop, .seq, .motion]
      fun s t => t.head head = { s.head head with seek := none } ∧ HeadsBut head s t ∧ Posts k.who.bobbin (headEntry s head k.who 0 k.target) s t ∧
          t.regs = s.regs ∧ t.motion = s.motion ∧ t.loop = s.loop) ∧
  (∀ (head : Fin 16) (k : SeekReq) (since : Stamp), Completes (.seekAddressTimeout head)
      (fun s => (s.head head).seek = some k ∧ k.stage = .awaitAddr since ∧ s.flag (R.HD_FLY_STATUS head.val) F.HD_FLY_STATUS_ADDR_OK = false ∧
          since + 3000000 ≤ s.now)
      [.heads, .seq]
      fun s t => t.head head = { s.head head with seek := none } ∧ HeadsBut head s t ∧
          Posts k.who.bobbin (headEntry s head k.who 2 (trackReached s head)) s t) ∧
  (∀ (b : Fin 24) (u : Upset) (i : Ins) (n : Fin 16), Completes (.hdSafe b u)
      (fun s => Issues s b u i ∧ i.op = 0x57 ∧ AimsAt s b i famHD n ∧ (s.bob b).occupied < 32 ∧ i.fn ≤ 1 ∧ (s.head n).link.usable = true)
      [.events, .regs, .heads, .seq]
      fun s t => t.head n = { s.head n with
            fe := (s.head n).fe ++ [⟨waiterOf s b, if i.fn = 0 then .safe else .resume, s.now, none⟩]
            link := { (s.head n).link with queue := (s.head n).link.queue ++ [⟨if i.fn = 0 then .safe else .resume, s.now, false⟩] } } ∧ HeadsBut n s t ∧
          Starts b i s t) ∧
  (∀ (b : Fin 24) (u : Upset) (i : Ins) (n : Fin 16), Completes (.hdSafe b u)
      (fun s => Issues s b u i ∧ i.op = 0x57 ∧ AimsAt s b i famHD n ∧ (s.bob b).occupied < 32 ∧ i.fn ≤ 1 ∧ (s.head n).link.usable = false)
      [.events, .regs, .heads, .seq]
      fun s t => (t.bob b).arriving = (s.bob b).arriving ++ [headEntry s n (waiterOf s b) 6 0] ∧ t.heads = s.heads ∧ Tagged b i s t) ∧
  (∀ (b : Fin 24) (u : Upset) (i : Ins) (n : Fin 16), Completes (.hdSafe b u)
      (fun s => Issues s b u i ∧ i.op = 0x57 ∧ AimsAt s b i famHD n ∧ 2 ≤ i.fn)
      [.events, .regs, .heads, .seq]
      fun s t => Excepts b i 6 i.word s t ∧ t.heads = s.heads) ∧
  (∀ (b : Fin 24) (u : Upset) (i : Ins) (n : Fin 16), Completes (.hdFewr b u)
      (fun s => Issues s b u i ∧ i.op = 0x58 ∧ AimsAt s b i famHD n ∧ (s.bob b).occupied < 32 ∧ (s.head n).link.usable = true)
      [.events, .regs, .heads, .seq]
      fun s t => t.head n = { s.head n with
            fe := (s.head n).fe ++ [⟨waiterOf s b, .write, s.now, none⟩]
            link := { (s.head n).link with queue := (s.head n).link.queue ++
              [⟨.fewr ((valB s b i).toNat % 65536) ((valB s b i).toNat / 2 ^ 32), s.now, false⟩] } } ∧ HeadsBut n s t ∧ Starts b i s t) ∧
  (∀ (b : Fin 24) (u : Upset) (i : Ins) (n : Fin 16), Completes (.hdFerd b u)
      (fun s => Issues s b u i ∧ i.op = 0x59 ∧ AimsAt s b i famHD n ∧ (s.bob b).occupied < 32 ∧ (s.head n).link.usable = true)
      [.events, .regs, .heads, .seq]
      fun s t => t.head n = { s.head n with
            fe := (s.head n).fe ++ [⟨waiterOf s b, .read, s.now, none⟩]
            link := { (s.head n).link with queue := (s.head n).link.queue ++ [⟨.ferd ((valB s b i).toNat % 65536), s.now, false⟩] } } ∧
          HeadsBut n s t ∧ Starts b i s t) ∧
  (∀ (head : Fin 16) (f : FeReq) (rest : List FeReq), Completes (.frontEndReplyTimeout head)
      (fun s => (s.head head).fe = f :: rest ∧ f.since + 1500000 ≤ s.now)
      [.heads, .seq]
      fun s t => t.head head = { s.head head with fe := rest } ∧ HeadsBut head s t ∧ Posts f.who.bobbin (headEntry s head f.who 3 0) s t) ∧
  (∀ (b : Fin 24) (u : Upset) (i : Ins) (n : Fin 16) (v : Nat) (x : Stamp), Completes (.hdHk b u)
      (fun s => Issues s b u i ∧ i.op = 0x5A ∧ AimsAt s b i famHD n ∧ (s.head n).link.hk.lookup ((valB s b i).toNat % 256) = some (v, x))
      [.events, .regs, .seq]
      fun s t => WritesRd b i (BitVec.ofNat 64 (2 ^ 63 + v % 2 ^ 40)) s t ∧ t.events = s.events) ∧
  (∀ (b : Fin 24) (u : Upset) (i : Ins) (n : Fin 16), Completes (.hdHk b u)
      (fun s => Issues s b u i ∧ i.op = 0x5A ∧ AimsAt s b i famHD n ∧ (s.head n).link.hk.lookup ((valB s b i).toNat % 256) = none)
      [.events, .regs, .seq]
      fun s t => WritesRd b i 0 s t ∧ t.events = s.events) ∧
  (∀ (b : Fin 24) (u : Upset) (i : Ins) (n : Fin 16) (p : Pass), Completes (.hdStat b u)
      (fun s => Issues s b u i ∧ i.op = 0x5B ∧ AimsAt s b i famHD n ∧ (s.head n).pass = some p ∧ (s.head n).link.state = .up)
      [.events, .regs, .seq]
      fun s t => WritesRd b i (BitVec.ofNat 64 (2 + 8 * bitOf (s.aligned n) + 16 * bitOf (flyReady s n) +
            32 * bitOf (s.flag (R.HD_FLY_STATUS n.val) F.HD_FLY_STATUS_ADDR_OK) + 64 + 128 * bitOf p.hem.isSome +
            256 * bitOf (s.loopHead n).seq.isSome + 512 * bitOf (s.hdLen n) + 2 ^ 16 * (s.head n).passNo + 2 ^ 32 * trackReached s n +
            2 ^ 51 * focusLayer s n)) s t ∧ t.events = s.events) ∧
  (∀ (b : Fin 24) (u : Upset) (i : Ins) (n : Fin 16), Completes (.hdStat b u)
      (fun s => Issues s b u i ∧ i.op = 0x5B ∧ s.capBit b famHD = true ∧ (valA s b i).toNat = n.val ∧ s.capBit b (16 + n.val) = true ∧ s.headInService n.val = false)
      [.events, .regs, .seq]
      fun s t => Excepts b i 3 i.word s t)

/-- IDLE to a sled of a populated head, and HOLD, MOVE, FOLLOW, HOME and SOFTSTOP where its FAULT is 0, wait for the next profile tick, and a write of SL_CTRL changes nothing else; a MOVE by SL.CMD first writes SL_TARGET, clamped to the soft limits, and retargets a move in progress; FN[3] takes a tag and lets the bobbin wait for the sled's rest. STOP acts at once where FAULT is 0: the commands and bobbins that wait are gone, and the sled stands FROZEN with velocity 0, UNCERTAIN where the write of SL_CTRL found it moving. With FAULT set HOLD by SL_CTRL changes nothing and logs event 0x500A. -/
def Obligations.SledCommands : Prop :=
  (∀ (n : Fin 16), Completes (.sledIdle (.reg n))
      (fun s => s.headPopulated n.val = true)
      [.events, .regs, .seq, .motion]
      fun s t => t.sled n = { s.sled n with cmds := (s.sled n).cmds ++ [.idle] } ∧ (∀ m : Fin 16, m ≠ n → t.sled m = s.sled m) ∧ t.motion.spin = s.motion.spin ∧
          t.regs = s.regs ∧ t.seq = s.seq ∧ t.events = s.events) ∧
  (∀ (b : Fin 24) (u : Upset) (i : Ins) (n : Fin 16), Completes (.sledIdle (.obkin b u))
      (fun s => Issues s b u i ∧ i.op = 0x60 ∧ i.fn = 1 ∧ AimsAt s b i famSL n ∧ s.headPopulated n.val = true)
      [.events, .regs, .seq, .motion]
      fun s t => t.sled n = { s.sled n with cmds := (s.sled n).cmds ++ [.idle] } ∧
          (∀ m : Fin 16, m ≠ n → t.sled m = s.sled m) ∧ Becomes b ((s.bob b).past i s.now) s t) ∧
  (∀ (b : Fin 24) (u : Upset) (i : Ins) (n : Fin 16), Completes (.sledIdle (.obkin b u))
      (fun s => Issues s b u i ∧ i.op = 0x60 ∧ i.fn = 9 ∧ AimsAt s b i famSL n ∧ (s.bob b).occupied < 32 ∧ s.headPopulated n.val = true)
      [.events, .regs, .seq, .motion]
      fun s t => t.sled n = { s.sled n with waiters := (s.sled n).waiters ++ [waiterOf s b], cmds := (s.sled n).cmds ++ [.idle] } ∧
          (∀ m : Fin 16, m ≠ n → t.sled m = s.sled m) ∧ Starts b i s t) ∧
  (∀ (n : Fin 16), Completes (.sledHold (.reg n))
      (fun s => s.headPopulated n.val = true ∧ s.fld (R.SL_STATUS n.val) F.SL_STATUS_FAULT = 0)
      [.events, .regs, .seq, .motion]
      fun s t => t.sled n = { s.sled n with cmds := (s.sled n).cmds ++ [.hold] } ∧ (∀ m : Fin 16, m ≠ n → t.sled m = s.sled m) ∧ t.motion.spin = s.motion.spin ∧
          t.regs = s.regs ∧ t.seq = s.seq ∧ t.events = s.events) ∧
  (∀ (b : Fin 24) (u : Upset) (i : Ins) (n : Fin 16), Completes (.sledHold (.obkin b u))
      (fun s => Issues s b u i ∧ i.op = 0x60 ∧ i.fn = 2 ∧ AimsAt s b i famSL n ∧ s.headPopulated n.val = true ∧ s.fld (R.SL_STATUS n.val) F.SL_STATUS_FAULT = 0)
      [.events, .regs, .seq, .motion]
      fun s t => t.sled n = { s.sled n with cmds := (s.sled n).cmds ++ [.hold] } ∧
          (∀ m : Fin 16, m ≠ n → t.sled m = s.sled m) ∧ Becomes b ((s.bob b).past i s.now) s t) ∧
  (∀ (b : Fin 24) (u : Upset) (i : Ins) (n : Fin 16), Completes (.sledHold (.obkin b u))
      (fun s => Issues s b u i ∧ i.op = 0x60 ∧ i.fn = 10 ∧ AimsAt s b i famSL n ∧ (s.bob b).occupied < 32 ∧ s.headPopulated n.val = true ∧ s.fld (R.SL_STATUS n.val) F.SL_STATUS_FAULT = 0)
      [.events, .regs, .seq, .motion]
      fun s t => t.sled n = { s.sled n with waiters := (s.sled n).waiters ++ [waiterOf s b], cmds := (s.sled n).cmds ++ [.hold] } ∧
          (∀ m : Fin 16, m ≠ n → t.sled m = s.sled m) ∧ Starts b i s t) ∧
  (∀ (n : Fin 16), Completes (.sledMove (.reg n))
      (fun s => s.headPopulated n.val = true ∧ s.fld (R.SL_STATUS n.val) F.SL_STATUS_FAULT = 0)
      [.events, .regs, .seq, .motion]
      fun s t => t.sled n = { s.sled n with cmds := (s.sled n).cmds ++ [.move] } ∧ (∀ m : Fin 16, m ≠ n → t.sled m = s.sled m) ∧ t.motion.spin = s.motion.spin ∧
          t.regs = s.regs ∧ t.seq = s.seq ∧ t.events = s.events) ∧
  (∀ (b : Fin 24) (u : Upset) (i : Ins) (n : Fin 16), Completes (.sledMove (.obkin b u))
      (fun s => Issues s b u i ∧ i.op = 0x60 ∧ i.fn = 3 ∧ AimsAt s b i famSL n ∧ s.headPopulated n.val = true ∧ s.fld (R.SL_STATUS n.val) F.SL_STATUS_FAULT = 0)
      [.events, .regs, .seq, .motion]
      fun s t => t.sled n = { s.sled n with target := if (s.sled n).st = .move then clampInt (s.reg (R.SL_LIMIT_LO n.val)).toInt (s.reg (R.SL_LIMIT_HI n.val)).toInt ((valB s b i).setWidth 32).toInt else (s.sled n).target, cmds := (s.sled n).cmds ++ [.move] } ∧
          (∀ m : Fin 16, m ≠ n → t.sled m = s.sled m) ∧ t.bob b = (s.bob b).past i s.now ∧ Elsewhere b s t ∧
          t.reg (R.SL_TARGET n.val) = BitVec.ofInt 32 (clampInt (s.reg (R.SL_LIMIT_LO n.val)).toInt (s.reg (R.SL_LIMIT_HI n.val)).toInt ((valB s b i).setWidth 32).toInt) ∧
          RegsBut [R.SQ_BOB_ISSUED b.val, R.SL_STATUS n.val, R.SL_TARGET n.val] s t) ∧
  (∀ (b : Fin 24) (u : Upset) (i : Ins) (n : Fin 16), Completes (.sledMove (.obkin b u))
      (fun s => Issues s b u i ∧ i.op = 0x60 ∧ i.fn = 11 ∧ AimsAt s b i famSL n ∧ (s.bob b).occupied < 32 ∧ s.headPopulated n.val = true ∧ s.fld (R.SL_STATUS n.val) F.SL_STATUS_FAULT = 0)
      [.events, .regs, .seq, .motion]
      fun s t => t.sled n = { s.sled n with waiters := (s.sled n).waiters ++ [waiterOf s b], target := if (s.sled n).st = .move then clampInt (s.reg (R.SL_LIMIT_LO n.val)).toInt (s.reg (R.SL_LIMIT_HI n.val)).toInt ((valB s b i).setWidth 32).toInt else (s.sled n).target, cmds := (s.sled n).cmds ++ [.move] } ∧
          (∀ m : Fin 16, m ≠ n → t.sled m = s.sled m) ∧ Tagged b i s t ∧
          t.reg (R.SL_TARGET n.val) = BitVec.ofInt 32 (clampInt (s.reg (R.SL_LIMIT_LO n.val)).toInt (s.reg (R.SL_LIMIT_HI n.val)).toInt ((valB s b i).setWidth 32).toInt) ∧
          RegsBut [R.SQ_BOB_ISSUED b.val, R.SL_STATUS n.val, R.SL_TARGET n.val] s t) ∧
  (∀ (n : Fin 16), Completes (.sledFollow (.reg n))
      (fun s => s.headPopulated n.val = true ∧ s.fld (R.SL_STATUS n.val) F.SL_STATUS_FAULT = 0)
      [.events, .regs, .seq, .motion]
      fun s t => t.sled n = { s.sled n with cmds := (s.sled n).cmds ++ [.follow] } ∧ (∀ m : Fin 16, m ≠ n → t.sled m = s.sled m) ∧ t.motion.spin = s.motion.spin ∧
          t.regs = s.regs ∧ t.seq = s.seq ∧ t.events = s.events) ∧
  (∀ (b : Fin 24) (u : Upset) (i : Ins) (n : Fin 16), Completes (.sledFollow (.obkin b u))
      (fun s => Issues s b u i ∧ i.op = 0x60 ∧ i.fn = 4 ∧ AimsAt s b i famSL n ∧ s.headPopulated n.val = true ∧ s.fld (R.SL_STATUS n.val) F.SL_STATUS_FAULT = 0)
      [.events, .regs, .seq, .motion]
      fun s t => t.sled n = { s.sled n with cmds := (s.sled n).cmds ++ [.follow] } ∧
          (∀ m : Fin 16, m ≠ n → t.sled m = s.sled m) ∧ Becomes b ((s.bob b).past i s.now) s t) ∧
  (∀ (b : Fin 24) (u : Upset) (i : Ins) (n : Fin 16), Completes (.sledFollow (.obkin b u))
      (fun s => Issues s b u i ∧ i.op = 0x60 ∧ i.fn = 12 ∧ AimsAt s b i famSL n ∧ (s.bob b).occupied < 32 ∧ s.headPopulated n.val = true ∧ s.fld (R.SL_STATUS n.val) F.SL_STATUS_FAULT = 0)
      [.events, .regs, .seq, .motion]
      fun s t => t.sled n = { s.sled n with waiters := (s.sled n).waiters ++ [waiterOf s b], cmds := (s.sled n).cmds ++ [.follow] } ∧
          (∀ m : Fin 16, m ≠ n → t.sled m = s.sled m) ∧ Starts b i s t) ∧
  (∀ (n : Fin 16), Completes (.sledHome (.reg n))
      (fun s => s.headPopulated n.val = true ∧ s.fld (R.SL_STATUS n.val) F.SL_STATUS_FAULT = 0)
      [.events, .regs, .seq, .motion]
      fun s t => t.sled n = { s.sled n with cmds := (s.sled n).cmds ++ [.home] } ∧ (∀ m : Fin 16, m ≠ n → t.sled m = s.sled m) ∧ t.motion.spin = s.motion.spin ∧
          t.regs = s.regs ∧ t.seq = s.seq ∧ t.events = s.events) ∧
  (∀ (b : Fin 24) (u : Upset) (i : Ins) (n : Fin 16), Completes (.sledHome (.obkin b u))
      (fun s => Issues s b u i ∧ i.op = 0x60 ∧ i.fn = 5 ∧ AimsAt s b i famSL n ∧ s.headPopulated n.val = true ∧ s.fld (R.SL_STATUS n.val) F.SL_STATUS_FAULT = 0)
      [.events, .regs, .seq, .motion]
      fun s t => t.sled n = { s.sled n with cmds := (s.sled n).cmds ++ [.home] } ∧
          (∀ m : Fin 16, m ≠ n → t.sled m = s.sled m) ∧ Becomes b ((s.bob b).past i s.now) s t) ∧
  (∀ (b : Fin 24) (u : Upset) (i : Ins) (n : Fin 16), Completes (.sledHome (.obkin b u))
      (fun s => Issues s b u i ∧ i.op = 0x60 ∧ i.fn = 13 ∧ AimsAt s b i famSL n ∧ (s.bob b).occupied < 32 ∧ s.headPopulated n.val = true ∧ s.fld (R.SL_STATUS n.val) F.SL_STATUS_FAULT = 0)
      [.events, .regs, .seq, .motion]
      fun s t => t.sled n = { s.sled n with waiters := (s.sled n).waiters ++ [waiterOf s b], cmds := (s.sled n).cmds ++ [.home] } ∧
          (∀ m : Fin 16, m ≠ n → t.sled m = s.sled m) ∧ Starts b i s t) ∧
  (∀ (n : Fin 16), Completes (.sledSoftstop (.reg n))
      (fun s => s.headPopulated n.val = true ∧ s.fld (R.SL_STATUS n.val) F.SL_STATUS_FAULT = 0)
      [.events, .regs, .seq, .motion]
      fun s t => t.sled n = { s.sled n with cmds := (s.sled n).cmds ++ [.softstop] } ∧ (∀ m : Fin 16, m ≠ n → t.sled m = s.sled m) ∧ t.motion.spin = s.motion.spin ∧
          t.regs = s.regs ∧ t.seq = s.seq ∧ t.events = s.events) ∧
  (∀ (b : Fin 24) (u : Upset) (i : Ins) (n : Fin 16), Completes (.sledSoftstop (.obkin b u))
      (fun s => Issues s b u i ∧ i.op = 0x60 ∧ i.fn = 6 ∧ AimsAt s b i famSL n ∧ s.headPopulated n.val = true ∧ s.fld (R.SL_STATUS n.val) F.SL_STATUS_FAULT = 0)
      [.events, .regs, .seq, .motion]
      fun s t => t.sled n = { s.sled n with cmds := (s.sled n).cmds ++ [.softstop] } ∧
          (∀ m : Fin 16, m ≠ n → t.sled m = s.sled m) ∧ Becomes b ((s.bob b).past i s.now) s t) ∧
  (∀ (b : Fin 24) (u : Upset) (i : Ins) (n : Fin 16), Completes (.sledSoftstop (.obkin b u))
      (fun s => Issues s b u i ∧ i.op = 0x60 ∧ i.fn = 14 ∧ AimsAt s b i famSL n ∧ (s.bob b).occupied < 32 ∧ s.headPopulated n.val = true ∧ s.fld (R.SL_STATUS n.val) F.SL_STATUS_FAULT = 0)
      [.events, .regs, .seq, .motion]
      fun s t => t.sled n = { s.sled n with waiters := (s.sled n).waiters ++ [waiterOf s b], cmds := (s.sled n).cmds ++ [.softstop] } ∧
          (∀ m : Fin 16, m ≠ n → t.sled m = s.sled m) ∧ Starts b i s t) ∧
  (∀ (n : Fin 16), Completes (.sledHold (.reg n))
      (fun s => s.headPopulated n.val = true ∧ s.fld (R.SL_STATUS n.val) F.SL_STATUS_FAULT ≠ 0)
      [.events, .regs, .seq, .motion]
      fun s t => t.motion = s.motion ∧ t.regs = s.regs ∧ t.events = (s.logMot 0x500A n.val 2 1).events) ∧
  (∀ (n : Fin 16), Completes (.sledStop (.reg n))
      (fun s => s.headPopulated n.val = true ∧ s.fld (R.SL_STATUS n.val) F.SL_STATUS_FAULT = 0 ∧ (s.sled n).v ≠ 0)
      [.events, .regs, .seq, .motion]
      fun s t => (t.sled n).st = .frozen ∧ (t.sled n).v = 0 ∧ (t.sled n).cmds = [] ∧ (t.sled n).waiters = [] ∧ (t.sled n).target = (s.sled n).target ∧
          (t.sled n).ofs = (s.sled n).ofs ∧ t.fld (R.SL_STATUS n.val) F.SL_STATUS_STATE = 5 ∧
          t.fld (R.SL_STATUS n.val) F.SL_STATUS_UNCERTAIN = 1 ∧ (∀ m : Fin 16, m ≠ n → t.sled m = s.sled m) ∧
          RegsBut [R.SL_STATUS n.val, R.SL_POS n.val] s t ∧ (∀ c : Fin 24, OnlyHears c s t)) ∧
  (∀ (b : Fin 24) (u : Upset) (i : Ins) (n : Fin 16), Completes (.sledStop (.obkin b u))
      (fun s => Issues s b u i ∧ i.op = 0x60 ∧ i.fn = 7 ∧ AimsAt s b i famSL n ∧ s.headPopulated n.val = true ∧
          s.fld (R.SL_STATUS n.val) F.SL_STATUS_FAULT = 0)
      [.events, .regs, .seq, .motion]
      fun s t => (t.sled n).st = .frozen ∧ (t.sled n).v = 0 ∧ (t.sled n).cmds = [] ∧ (t.sled n).waiters = [] ∧
          t.fld (R.SL_STATUS n.val) F.SL_STATUS_STATE = 5 ∧ (∀ m : Fin 16, m ≠ n → t.sled m = s.sled m) ∧
          (t.bob b).pc = i.next ∧ (t.bob b).g = (s.bob b).g)

/-- At a profile tick a HOLD that waits alone brings its sled to rest in HOLD, and a FOLLOW that waits alone puts it in FOLLOW with its offset kept. A chopper sample keeps the two corrected codes of an IDLE sled outside the calibration slots, and the codes before them in slot 0. A load-angle window with a slow tick in it starts again after 64 profile ticks with nothing else changed; one without back EMF that is the last allowed stall freezes the sled with FAULT 2. BOOST ends BOOST_HOLD ms after the last window that asked for it, and the holding current is selected HOLD_DLY ms after rest in HOLD. Two samples above OC put the sled in IDLE with FAULT 3 and UNCERTAIN, its bridges coasting and its waiting commands dropped. The first edge of a switch opens a window with its stamp and the sled's position then; later ones in it are counted; at its end the old level is logged as a glitch, and a new one, of a sled at rest outside HOME, stands qualified with the first edge's stamp and position latched. CLR_FAULT clears a fault other than 3 with both switches released, and leaves FAULT 5 while the home switch is asserted; SL_TARGET is stored within the soft limits and clamped above them; a demand is kept. SL.REREF with a stamp of the last 1,024 profile ticks, outside HOME and with FAULT 0, moves the offset and clears UNCERTAIN; a stamp to come is refused with event 0x500A. -/
def Obligations.SledMotion : Prop :=
  (∀ (n : Fin 16), Completes .profileTick
      (fun s => s.now % 1500 = 0 ∧ (s.sled n).cmds = [.hold])
      [.events, .regs, .seq, .motion]
      fun _ t => (t.sled n).cmds = [] ∧ (t.sled n).st = .hold ∧ (t.sled n).v = 0 ∧ t.fld (R.SL_STATUS n.val) F.SL_STATUS_STATE = 1) ∧
  (∀ (n : Fin 16), Completes .profileTick
      (fun s => s.now % 1500 = 0 ∧ (s.sled n).cmds = [.follow])
      [.events, .regs, .seq, .motion]
      fun s t => (t.sled n).cmds = [] ∧ (t.sled n).st = .follow ∧ t.fld (R.SL_STATUS n.val) F.SL_STATUS_STATE = 3 ∧ (t.sled n).ofs = (s.sled n).ofs) ∧
  (∀ (sled : Fin 16) (a c : Int), Completes (.chopperSample sled a c)
      (fun s => s.now % 1500000 = 0)
      [.motion]
      fun s t => (t.sled sled).chopA.last = (s.sled sled).chopA.last ∧ (t.sled sled).chopB.last = (s.sled sled).chopB.last ∧
          (∀ m : Fin 16, m ≠ sled → t.sled m = s.sled m)) ∧
  (∀ (sled : Fin 16) (a c : Int), Completes (.chopperSample sled a c)
      (fun s => s.now % 150 = 0 ∧ s.now % 1500000 ≠ 0 ∧ s.now % 1500000 ≠ 150 ∧ (s.sled sled).st = .idle)
      [.motion]
      fun s t => t.sled sled = { s.sled sled with
            chopA := { (s.sled sled).chopA with last := correctedCode s (2 * sled.val) a }
            chopB := { (s.sled sled).chopB with last := correctedCode s (2 * sled.val + 1) c } } ∧ (∀ m : Fin 16, m ≠ sled → t.sled m = s.sled m)) ∧
  (∀ (sled : Fin 16), Completes (.loadAngleWindow sled)
      (fun s => 64 ≤ (s.sled sled).winTicks ∧ (s.sled sled).winFast = false)
      [.events, .regs, .seq, .motion]
      fun s t => (t.sled sled).winTicks = 0 ∧ (t.sled sled).st = (s.sled sled).st ∧ (t.sled sled).marks = (s.sled sled).marks ∧
          (∀ m : Fin 16, m ≠ sled → t.sled m = s.sled m) ∧ t.regs = s.regs ∧ t.events = s.events) ∧
  (∀ (sled : Fin 16), Completes (.loadAngleWindow sled)
      (fun s => s.headPopulated sled.val = true ∧ 64 ≤ (s.sled sled).winTicks ∧ (s.sled sled).winFast = true ∧ 0 < s.fld (R.SL_LA_THR sled.val) F.SL_LA_THR_EMIN ∧
          (s.sled sled).chopA.winDrive = 0 ∧ (s.sled sled).chopA.winCur = 0 ∧ (s.sled sled).chopB.winDrive = 0 ∧ (s.sled sled).chopB.winCur = 0 ∧
          s.fld (R.SL_LA_THR sled.val) F.SL_LA_THR_STALL_N ≤ (s.sled sled).stallRun + 1)
      [.events, .regs, .seq, .motion]
      fun s t => (t.sled sled).st = .frozen ∧ (t.sled sled).v = 0 ∧ t.fld (R.SL_STATUS sled.val) F.SL_STATUS_FAULT = 2 ∧
          t.fld (R.SL_LA sled.val) F.SL_LA_EMAG = 0 ∧ (∀ m : Fin 16, m ≠ sled → t.sled m = s.sled m)) ∧
  (∀ (sled : Fin 16) (since : Stamp), Completes (.boostHoldExpiry sled)
      (fun s => (s.sled sled).boostAt = some since ∧ since + s.fld (R.SL_PROT sled.val) F.SL_PROT_BOOST_HOLD * 1500000 ≤ s.now)
      [.regs, .motion]
      fun s t => t.sled sled = { s.sled sled with boostAt := none } ∧ t.flag (R.SL_STATUS sled.val) F.SL_STATUS_BOOST = false ∧
          (∀ m : Fin 16, m ≠ sled → t.sled m = s.sled m) ∧ RegsBut [R.SL_STATUS sled.val] s t) ∧
  (∀ (sled : Fin 16), Completes (.holdCurrentDelay sled)
      (fun s => (s.sled sled).st = .hold ∧ (s.sled sled).holdCur = false ∧
          (s.sled sled).restFrom + s.fld (R.SL_CUR sled.val) F.SL_CUR_HOLD_DLY * 1500000 ≤ s.now)
      [.motion]
      fun s t => t.sled sled = { s.sled sled with holdCur := true } ∧ (∀ m : Fin 16, m ≠ sled → t.sled m = s.sled m) ∧ t.motion.spin = s.motion.spin) ∧
  (∀ (sled : Fin 16) (phase : Fin 2) (first second : Int), Completes (.sledOverCurrent sled phase first second)
      (fun s => (s.fld (R.SL_PROT sled.val) F.SL_PROT_OC : Int) < first.natAbs ∧ (s.fld (R.SL_PROT sled.val) F.SL_PROT_OC : Int) < second.natAbs)
      [.events, .regs, .seq, .motion]
      fun s t => (t.sled sled).st = .idle ∧ (t.sled sled).v = 0 ∧ (t.sled sled).cmds = [] ∧ (t.sled sled).chopA.bridge = 0 ∧ (t.sled sled).chopB.bridge = 0 ∧
          t.fld (R.SL_STATUS sled.val) F.SL_STATUS_FAULT = 3 ∧ t.flag (R.SL_STATUS sled.val) F.SL_STATUS_UNCERTAIN = true ∧
          (∀ m : Fin 16, m ≠ sled → t.sled m = s.sled m) ∧ RegsBut [R.SL_STATUS sled.val, R.SL_POS sled.val] s t) ∧
  (∀ (sled : Fin 16) (eot : Bool), Completes (.switchEdge sled eot)
      (fun s => ((s.sled sled).switch eot).window = none)
      [.events, .regs, .seq, .motion]
      fun s t => t.sled sled = (s.sled sled).setSwitch eot { (s.sled sled).switch eot with window := some ⟨s.cellStamp, wholeM (((s.sled sled).mAt s.cellStamp).getD ((s.sled sled).mNow s.now)) + (s.sled sled).ofs, 1⟩ } ∧
          (∀ m : Fin 16, m ≠ sled → t.sled m = s.sled m) ∧ t.motion.spin = s.motion.spin) ∧
  (∀ (sled : Fin 16) (eot : Bool) (e : EdgeWindow), Completes (.switchEdge sled eot)
      (fun s => ((s.sled sled).switch eot).window = some e ∧ s.cellStamp < e.start + debTicks s sled)
      [.events, .regs, .seq, .motion]
      fun s t => t.sled sled = (s.sled sled).setSwitch eot { (s.sled sled).switch eot with window := some { e with edges := e.edges + 1 } } ∧
          (∀ m : Fin 16, m ≠ sled → t.sled m = s.sled m)) ∧
  (∀ (sled : Fin 16) (eot asserted : Bool) (e : EdgeWindow), Completes (.switchDebounceEnd sled eot asserted)
      (fun s => ((s.sled sled).switch eot).window = some e ∧ e.start + debTicks s sled ≤ s.now ∧ asserted = ((s.sled sled).switch eot).asserted)
      [.events, .regs, .seq, .motion]
      fun s t => t.sled sled = (s.sled sled).setSwitch eot ⟨asserted, none⟩ ∧ (∀ m : Fin 16, m ≠ sled → t.sled m = s.sled m) ∧ t.regs = s.regs ∧
          t.events = (s.logMot 0x5008 sled.val (if eot then 1 else 0) (e.start % 2 ^ 32) e.edges).events) ∧
  (∀ (sled : Fin 16) (eot asserted : Bool) (e : EdgeWindow), Completes (.switchDebounceEnd sled eot asserted)
      (fun s => ((s.sled sled).switch eot).window = some e ∧ e.start + debTicks s sled ≤ s.now ∧ asserted ≠ ((s.sled sled).switch eot).asserted ∧
          (s.sled sled).st ≠ .home ∧ (s.sled sled).v = 0)
      [.events, .regs, .seq, .motion]
      fun s t => t.sled sled = (s.sled sled).setSwitch eot ⟨asserted, none⟩ ∧ (∀ m : Fin 16, m ≠ sled → t.sled m = s.sled m) ∧
          (t.reg (R.SL_LATCH_LO sled.val)).toNat = e.start % 2 ^ 32 ∧ t.fld (R.SL_LATCH_POS sled.val) F.SL_LATCH_POS_POS = arg e.pos ∧ RegsBut [R.SL_LATCH_LO sled.val, R.SL_LATCH_HI sled.val, R.SL_LATCH_POS sled.val] s t) ∧
  (∀ (sled : Fin 16), Completes (.sledClearFault sled)
      (fun s => (s.sled sled).eot.level = false ∧ (s.sled sled).home.level = false ∧ s.fld (R.SL_STATUS sled.val) F.SL_STATUS_FAULT ≠ 3)
      [.regs]
      fun s t => t.fld (R.SL_STATUS sled.val) F.SL_STATUS_FAULT = 0 ∧ RegsBut [R.SL_STATUS sled.val] s t) ∧
  (∀ (sled : Fin 16), Completes (.sledClearFault sled)
      (fun s => s.fld (R.SL_STATUS sled.val) F.SL_STATUS_FAULT = 5 ∧ (s.sled sled).home.level = true)
      [.regs]
      fun s t => t.regs = s.regs) ∧
  (∀ (sled : Fin 16) (val : Word), Completes (.sledTargetWrite sled val)
      (fun s => (s.reg (R.SL_LIMIT_LO sled.val)).toInt ≤ val.toInt ∧ val.toInt ≤ (s.reg (R.SL_LIMIT_HI sled.val)).toInt)
      [.regs, .motion]
      fun s t => t.reg (R.SL_TARGET sled.val) = val ∧ RegsBut [R.SL_TARGET sled.val] s t ∧
          t.sled sled = { s.sled sled with target := if (s.sled sled).st = .move then val.toInt else (s.sled sled).target } ∧
          (∀ m : Fin 16, m ≠ sled → t.sled m = s.sled m)) ∧
  (∀ (sled : Fin 16) (val : Word), Completes (.sledTargetWrite sled val)
      (fun s => (s.reg (R.SL_LIMIT_HI sled.val)).toInt < val.toInt ∧ (s.reg (R.SL_LIMIT_LO sled.val)).toInt ≤ (s.reg (R.SL_LIMIT_HI sled.val)).toInt)
      [.regs, .motion]
      fun s t => t.reg (R.SL_TARGET sled.val) = s.reg (R.SL_LIMIT_HI sled.val) ∧ t.flag (R.SL_STATUS sled.val) F.SL_STATUS_CLAMPED = true ∧
          RegsBut [R.SL_TARGET sled.val, R.SL_STATUS sled.val] s t) ∧
  (∀ (sled : Fin 16) (demand : Int), Completes (.sledDemand sled demand)
      (fun _ => True)
      [.motion]
      fun s t => t.sled sled = { s.sled sled with demand := demand } ∧ (∀ m : Fin 16, m ≠ sled → t.sled m = s.sled m) ∧ t.motion.spin = s.motion.spin) ∧
  (∀ (b : Fin 24) (u : Upset) (i : Ins) (n : Fin 16), Completes (.slReref b u)
      (fun s => Issues s b u i ∧ i.op = 0x62 ∧ AimsAt s b i famSL n ∧ s.headPopulated n.val = true ∧ s.fld (R.SL_STATUS n.val) F.SL_STATUS_FAULT = 0 ∧
          (s.sled n).st ≠ .home ∧ ((s.bob b).get i.rd).toNat ≤ s.now ∧ s.now ≤ ((s.bob b).get i.rd).toNat + 1536000)
      [.events, .regs, .seq, .motion]
      fun s t => t.flag (R.SL_STATUS n.val) F.SL_STATUS_UNCERTAIN = false ∧ (t.sled n).st = (s.sled n).st ∧ (t.sled n).marks = (s.sled n).marks ∧
          (t.sled n).ofs = roundDiv ((((valB s b i).toNat % 2 ^ 32 : Nat) - (((valB s b i) >>> 32).setWidth 32).toInt - (s.reg (R.SL_ORIGIN n.val)).toInt) * 256) 6250 -
            wholeM (((s.sled n).mAt ((s.bob b).get i.rd).toNat).getD 0) ∧
          (∀ m : Fin 16, m ≠ n → t.sled m = s.sled m) ∧ t.bob b = (s.bob b).past i s.now ∧ Elsewhere b s t ∧
          RegsBut [R.SQ_BOB_ISSUED b.val, R.SL_STATUS n.val, R.SL_POS n.val] s t) ∧
  (∀ (b : Fin 24) (u : Upset) (i : Ins) (n : Fin 16), Completes (.slReref b u)
      (fun s => Issues s b u i ∧ i.op = 0x62 ∧ AimsAt s b i famSL n ∧ s.headPopulated n.val = true ∧ s.fld (R.SL_STATUS n.val) F.SL_STATUS_FAULT = 0 ∧
          (s.sled n).st ≠ .home ∧ s.now < ((s.bob b).get i.rd).toNat)
      [.events, .regs, .seq, .motion]
      fun s t => t.motion = s.motion ∧ Becomes b ((s.bob b).past i s.now) s t ∧ t.events = (s.logMot 0x500A n.val 8 2).events)

/-- SL.POS, SP.STAT, LP.STAT and DC.STAT, where the bobbin has their capability and that of the head, put their reading into rd and change nothing else but the PC, the time of the next issue and the count of issued instructions. DC.SUBMIT with a number from 1 to 5 and room for the order takes a tag and sends the order's 136 bytes, as they stand at issue, on their way to the work queue; another number raises exception 6. EV.LOG logs the program's event with rb and rd as its arguments, and a code outside 0x6800 to 0x6FFF raises exception 6. -/
def Obligations.IslandReadings : Prop :=
  (∀ (b : Fin 24) (u : Upset) (i : Ins) (n : Fin 16), Completes (.slPos b u)
      (fun s => Issues s b u i ∧ i.op = 0x61 ∧ AimsAt s b i famSL n)
      [.events, .regs, .seq]
      fun s t => WritesRd b i (BitVec.ofNat 64 (arg ((s.sled n).pNow s.now) + sledStCode (s.sled n).st * 2 ^ 32 +
            s.fld (R.SL_STATUS n.val) F.SL_STATUS_UNCERTAIN * 2 ^ 35 + s.fld (R.SL_STATUS n.val) F.SL_STATUS_FAULT * 2 ^ 36)) s t ∧ t.events = s.events) ∧
  (∀ (b : Fin 24) (u : Upset) (i : Ins), Completes (.spStat b u)
      (fun s => Issues s b u i ∧ i.op = 0x65 ∧ s.capBit b famSP = true)
      [.events, .regs, .seq]
      fun s t => WritesRd b i (BitVec.ofNat 64 (s.fld R.SP_SPEED F.SP_SPEED_MEAS + spinStCode s.motion.spin.st * 2 ^ 32 +
            s.fld R.SP_STATUS F.SP_STATUS_FAULT * 2 ^ 36 + s.fld R.SP_GOV F.SP_GOV_TARGET * 2 ^ 40 + s.fld R.SP_GOV F.SP_GOV_CEIL * 2 ^ 47)) s t ∧ t.events = s.events) ∧
  (∀ (b : Fin 24) (u : Upset) (i : Ins) (k : Fin 96) (n : Fin 16), Completes (.lpStat b u)
      (fun s => Issues s b u i ∧ i.op = 0x6A ∧ s.capBit b famLP = true ∧ (valA s b i).toNat % 128 = k.val ∧ slotHead s k = some n ∧
          s.capBit b (16 + n.val) = true ∧ s.headInService n.val = true)
      [.events, .regs, .seq]
      fun s t => WritesRd b i (BitVec.ofNat 64 (s.lpStatus k)) s t ∧ t.events = s.events) ∧
  (∀ (b : Fin 24) (u : Upset) (i : Ins), Completes (.dcStat b u)
      (fun s => Issues s b u i ∧ i.op = 0x6D ∧ s.capBit b famDC = true)
      [.events, .regs, .seq]
      fun s t => WritesRd b i (BitVec.ofNat 64 s.dcStatus) s t ∧ t.events = s.events) ∧
  (∀ (b : Fin 24) (u : Upset) (i : Ins), Completes (.dcSubmit b u)
      (fun s => Issues s b u i ∧ i.op = 0x6C ∧ s.capBit b famDC = true ∧ 1 ≤ i.fn ∧ i.fn ≤ 5 ∧ 0x100000 ≤ (valA s b i).toNat ∧
          (valA s b i).toNat + 136 ≤ 0x200000 ∧ s.workQueued < 64 ∧ (s.bob b).occupied < 32)
      [.events, .regs, .decode, .seq]
      fun s t => t.decode = { s.decode with workXing := s.decode.workXing ++
            [⟨i.fn, waiterOf s b, scratchBytes s.seq.shared ((valA s b i).toNat - 0x100000) 136, 0⟩] } ∧ Starts b i s t) ∧
  (∀ (b : Fin 24) (u : Upset) (i : Ins), Completes (.dcSubmit b u)
      (fun s => Issues s b u i ∧ i.op = 0x6C ∧ s.capBit b famDC = true ∧ (i.fn = 0 ∨ 5 < i.fn))
      [.events, .regs, .decode, .seq]
      fun s t => Excepts b i 6 i.word s t ∧ t.decode = s.decode) ∧
  (∀ (b : Fin 24) (u : Upset) (i : Ins), Completes (.evLog b u)
      (fun s => Issues s b u i ∧ i.op = 0x78 ∧ s.capBit b famEV = true ∧ 0x6800 ≤ (valA s b i).toNat % 65536 ∧ (valA s b i).toNat % 65536 ≤ 0x6FFF)
      [.events, .regs, .seq]
      fun s t => Becomes b ((s.bob b).past i s.now) s t ∧
          t.events = (s.log (srcBobbin b.val) .control ((valA s b i).toNat % 65536) (valB s b i).toNat ((valB s b i).toNat / 2 ^ 32)
            ((s.bob b).get i.rd).toNat (((s.bob b).get i.rd).toNat / 2 ^ 32)).events) ∧
  (∀ (b : Fin 24) (u : Upset) (i : Ins), Completes (.evLog b u)
      (fun s => Issues s b u i ∧ i.op = 0x78 ∧ s.capBit b famEV = true ∧ ((valA s b i).toNat % 65536 < 0x6800 ∨ 0x6FFF < (valA s b i).toNat % 65536))
      [.events, .regs, .seq]
      fun s t => Excepts b i 6 i.word s t)

/-- START in STOPPED begins attempt 1 with LISTEN; in FAULT it clears the cause and does the same with the bridge's fault pin released and the current not above OC_TRIP, and with FAULT 1 and the pin low, or FAULT 2 and the current above OC_TRIP, changes nothing and logs 0x5012; in STOPPING it waits, and so it does while the comparator trim runs. STOP in RUN begins the controlled stop with its ramp, and TARGET shows 20; with REF not above 1,200 rpm it begins with the braking burst, and so it does in the stages of a start; in STOPPED it withdraws a START that waits. DEMAND is held to 20 to 100, and without claims and outside STOPPING TARGET follows it under the ceiling. SP.CMD 0 in STOPPED, 1 in RUN and 2 do the same for a bobbin with the SP bit; FN 3 or more raises exception 6, and SP.CMD 2 without the bit exception 2. A demand of the loop engine in RUN waits, as a duty rounded to 4,095 steps and no less than 0, for the next PWM period. -/
def Obligations.SpindleCommands : Prop :=
  (∀ (fltLow : Bool), Completes (.spindleStart (.reg ()) fltLow)
      (fun s => s.motion.spin.st = .stopped ∧ s.flag R.CAL_STATUS F.CAL_STATUS_TRIM_BUSY = false)
      [.events, .regs, .seq, .motion]
      fun s t => t.motion.spin.st = .listen ∧ t.motion.spin.stage = .plain ∧ t.motion.spin.attempt = 1 ∧ t.motion.spin.since = s.now ∧ t.motion.spin.duty = 0 ∧
          t.motion.spin.crossings = [] ∧ t.motion.sleds = s.motion.sleds ∧ t.fld R.SP_STATUS F.SP_STATUS_STATE = 1 ∧
          RegsBut [R.SP_STATUS, R.SP_SPEED, R.SP_DUTY, R.SP_GOV] s t ∧ t.seq = s.seq ∧ t.events = s.events) ∧
  (∀ (fltLow : Bool), Completes (.spindleStart (.reg ()) fltLow)
      (fun s => s.motion.spin.st = .fault ∧ fltLow = false ∧ (s.fld R.SP_STATUS F.SP_STATUS_FAULT ≠ 2 ∨ s.motion.spin.current ≤ s.fld R.SP_PROT F.SP_PROT_OC_TRIP) ∧ s.flag R.CAL_STATUS F.CAL_STATUS_TRIM_BUSY = false)
      [.events, .regs, .seq, .motion]
      fun s t => t.motion.spin.st = .listen ∧ t.motion.spin.attempt = 1 ∧ t.fld R.SP_STATUS F.SP_STATUS_FAULT = 0 ∧ t.fld R.SP_STATUS F.SP_STATUS_STATE = 1 ∧
          t.motion.sleds = s.motion.sleds ∧ RegsBut [R.SP_STATUS, R.SP_SPEED, R.SP_DUTY, R.SP_GOV] s t) ∧
  (∀ (fltLow : Bool), Completes (.spindleStart (.reg ()) fltLow)
      (fun s => s.motion.spin.st = .fault ∧ fltLow = true ∧ s.fld R.SP_STATUS F.SP_STATUS_FAULT = 1 ∧ s.flag R.CAL_STATUS F.CAL_STATUS_TRIM_BUSY = false)
      [.events, .regs, .seq, .motion]
      fun s t => t.motion = s.motion ∧ t.regs = s.regs ∧ t.events = (s.logMot 0x5012 s.motion.spin.attempt 1).events) ∧
  (∀ (fltLow : Bool), Completes (.spindleStart (.reg ()) fltLow)
      (fun s => s.motion.spin.st = .fault ∧ (s.fld R.SP_PROT F.SP_PROT_OC_TRIP : Int) < s.motion.spin.current ∧ s.fld R.SP_STATUS F.SP_STATUS_FAULT = 2 ∧ s.flag R.CAL_STATUS F.CAL_STATUS_TRIM_BUSY = false)
      [.events, .regs, .seq, .motion]
      fun s t => t.motion = s.motion ∧ t.regs = s.regs ∧ t.events = (s.logMot 0x5012 s.motion.spin.attempt 2).events) ∧
  (∀ (fltLow : Bool), Completes (.spindleStart (.reg ()) fltLow)
      (fun s => s.flag R.CAL_STATUS F.CAL_STATUS_TRIM_BUSY = true ∨ s.motion.spin.st = .stopping)
      [.events, .regs, .seq, .motion]
      fun s t => t.motion.spin = { s.motion.spin with restart := true } ∧ t.motion.sleds = s.motion.sleds ∧ t.regs = s.regs) ∧
  (∀ (b : Fin 24) (u : Upset) (i : Ins) (fltLow : Bool), Completes (.spindleStart (.obkin b u) fltLow)
      (fun s => Issues s b u i ∧ i.op = 0x64 ∧ s.capBit b famSP = true ∧ i.fn = 0 ∧ s.motion.spin.st = .stopped ∧
          s.flag R.CAL_STATUS F.CAL_STATUS_TRIM_BUSY = false)
      [.events, .regs, .seq, .motion]
      fun s t => t.motion.spin.st = .listen ∧ t.motion.spin.attempt = 1 ∧ t.motion.sleds = s.motion.sleds ∧ t.bob b = (s.bob b).past i s.now ∧ Elsewhere b s t ∧
          RegsBut [R.SQ_BOB_ISSUED b.val, R.SP_STATUS, R.SP_SPEED, R.SP_DUTY, R.SP_GOV] s t) ∧
  (∀ (b : Fin 24) (u : Upset) (i : Ins) (fltLow : Bool), Completes (.spindleStart (.obkin b u) fltLow)
      (fun s => Issues s b u i ∧ i.op = 0x64 ∧ s.capBit b famSP = true ∧ 2 < i.fn)
      [.events, .regs, .seq, .motion]
      fun s t => Excepts b i 6 i.word s t ∧ t.motion = s.motion) ∧
  (Completes (.spindleStop (.reg ()))
      (fun s => s.motion.spin.st = .run ∧ 1200 * 16 < s.fld R.SP_REF F.SP_REF_REF)
      [.events, .regs, .seq, .motion]
      fun s t => t.motion.spin = { s.motion.spin with restart := false, st := .stopping, stage := .ramp, since := s.now } ∧ t.motion.sleds = s.motion.sleds ∧
          t.fld R.SP_GOV F.SP_GOV_TARGET = 20 ∧ t.fld R.SP_STATUS F.SP_STATUS_STATE = 7 ∧
          RegsBut [R.SP_STATUS, R.SP_SPEED, R.SP_DUTY, R.SP_GOV] s t ∧ t.events = s.events) ∧
  (Completes (.spindleStop (.reg ()))
      (fun s => s.motion.spin.st = .run ∧ s.fld R.SP_REF F.SP_REF_REF ≤ 1200 * 16)
      [.events, .regs, .seq, .motion]
      fun s t => t.motion.spin.st = .stopping ∧ t.motion.spin.stage = .burst ∧ t.motion.spin.duty = 0 ∧ t.motion.spin.since = s.now ∧ t.motion.sleds = s.motion.sleds ∧
          RegsBut [R.SP_STATUS, R.SP_SPEED, R.SP_DUTY, R.SP_GOV] s t ∧ t.events = s.events) ∧
  (Completes (.spindleStop (.reg ()))
      (fun s => s.motion.spin.st = .listen ∨ s.motion.spin.st = .brake ∨ s.motion.spin.st = .align ∨ s.motion.spin.st = .openLoop)
      [.events, .regs, .seq, .motion]
      fun s t => t.motion.spin = { s.motion.spin with restart := false, duty := 0, dutyNext := none, next := none, st := .stopping, stage := .burst, since := s.now } ∧
          t.fld R.SP_GOV F.SP_GOV_TARGET = 20 ∧ t.fld R.SP_STATUS F.SP_STATUS_STATE = 7) ∧
  (Completes (.spindleStop (.reg ()))
      (fun s => s.motion.spin.st = .stopped)
      [.events, .regs, .seq, .motion]
      fun s t => t.motion.spin = { s.motion.spin with restart := false } ∧ t.regs = s.regs ∧ t.events = s.events) ∧
  (∀ (b : Fin 24) (u : Upset) (i : Ins), Completes (.spindleStop (.obkin b u))
      (fun s => Issues s b u i ∧ i.op = 0x64 ∧ s.capBit b famSP = true ∧ i.fn = 1 ∧ s.motion.spin.st = .run ∧ 1200 * 16 < s.fld R.SP_REF F.SP_REF_REF)
      [.events, .regs, .seq, .motion]
      fun s t => t.motion.spin = { s.motion.spin with restart := false, st := .stopping, stage := .ramp, since := s.now } ∧
          t.bob b = (s.bob b).past i s.now ∧ Elsewhere b s t ∧
          RegsBut [R.SQ_BOB_ISSUED b.val, R.SP_STATUS, R.SP_SPEED, R.SP_DUTY, R.SP_GOV] s t) ∧
  (∀ (d : Fin 128), Completes (.spindleDemandSet (.reg d))
      (fun s => s.motion.spin.st ≠ .stopping ∧ s.motion.claims = [] ∧ s.motion.waiting = [])
      [.events, .regs, .seq]
      fun s t => t.fld R.SP_GOV F.SP_GOV_DEMAND = max 20 (min 100 d.val) ∧ t.fld R.SP_GOV F.SP_GOV_TARGET = max 20 (min (max 20 (min 100 d.val)) (ceilOf 0)) ∧
          RegsBut [R.SP_GOV] s t) ∧
  (∀ (b : Fin 24) (u : Upset) (i : Ins), Completes (.spindleDemandSet (.obkin b u))
      (fun s => Issues s b u i ∧ i.op = 0x64 ∧ s.capBit b famSP = true ∧ i.fn = 2)
      [.events, .regs, .seq]
      fun s t => t.fld R.SP_GOV F.SP_GOV_DEMAND = max 20 (min 100 ((valA s b i).toNat % 128)) ∧ t.bob b = (s.bob b).past i s.now ∧ Elsewhere b s t ∧
          RegsBut [R.SQ_BOB_ISSUED b.val, R.SP_GOV] s t) ∧
  (∀ (b : Fin 24) (u : Upset) (i : Ins), Completes (.spindleDemandSet (.obkin b u))
      (fun s => Issues s b u i ∧ i.op = 0x64 ∧ s.capBit b famSP = false ∧ i.fn = 2)
      [.events, .regs, .seq]
      fun s t => Excepts b i 2 i.word s t) ∧
  (∀ (demand : Int), Completes (.spindleDemand demand)
      (fun s => s.motion.spin.st = .run ∧ 0 ≤ demand ∧ demand < 8388608)
      [.motion]
      fun s t => t.motion.spin = { s.motion.spin with dutyNext := some (roundDiv (demand * 4095) 8388608).toNat } ∧ t.motion.sleds = s.motion.sleds) ∧
  (∀ (demand : Int), Completes (.spindleDemand demand)
      (fun s => s.motion.spin.st = .run ∧ demand < 0)
      [.motion]
      fun s t => t.motion.spin = { s.motion.spin with dutyNext := some 0 } ∧ t.motion.sleds = s.motion.sleds)

/-- A crossing that RUN expects inside its window is kept, ends the run of misses and sets the next commutation; in LISTEN it is kept with its sector. A commutation due in RUN advances the sector; of a catch it also enters RUN on path 0, and of a resynchronisation it resumes RUN. Without a crossing the commutation is forced and counted, and the third in a row, outside a start attempt, loses the rotor with the duty at 0. 50 ms without resynchronisation begin the controlled stop at its burst, with a start to follow, and log 0x5016. 20 ms of LISTEN without a crossing lead to ALIGN on path 2; a burst is followed by LISTEN after 50 ms, ALIGN by the open-loop ramp after ALIGN_T, a step of the ramp below the hand-over speed advances the sector, and the last short of 2 s ends in STOPPED where no start waits. The bridge's fault pin ends in FAULT with cause 1, and two samples above OC_TRIP in RUN with cause 2; in ALIGN they begin the next start attempt while retries are left. In STOPPING the governor's TARGET is 20, and each millisecond REF moves toward it by no more than the rate; in the ramp of a stop, REF at 1,200 rpm begins the braking burst. The thermal state takes its decay once a millisecond in which no current flowed. A PWM period takes the pending duty and counts its current. A claim whose speed is reached lets its read open seed where the head is READY within 12 tracks of the band, and ends it with result 4 where the head is not READY. -/
def Obligations.SpindleInTime : Prop :=
  (∀ (phase : Fin 3) (rising : Bool) (stamp : Stamp), Completes (.bemfCrossing phase rising stamp)
      (fun s => s.motion.spin.st = .run ∧ crossingSector phase rising = s.motion.spin.sector ∧ s.motion.spin.next = none ∧
          64 * s.motion.spin.tk + s.motion.spin.t60 * s.fld R.SP_COMM_CFG F.SP_COMM_CFG_DEMAG ≤ 64 * stamp ∧ stamp < forcedAt s)
      [.events, .regs, .motion]
      fun s t => t.motion.spin.crossings = (s.motion.spin.sector, stamp) :: s.motion.spin.crossings.take 63 ∧
          t.motion.spin.next = some (commutationAfter s t.motion.spin.t60 stamp) ∧ t.motion.spin.misses = 0 ∧ t.motion.spin.st = .run ∧
          t.motion.spin.sector = s.motion.spin.sector ∧ t.motion.sleds = s.motion.sleds) ∧
  (∀ (phase : Fin 3) (rising : Bool) (stamp : Stamp), Completes (.bemfCrossing phase rising stamp)
      (fun s => s.motion.spin.st = .listen ∧ s.motion.spin.stage = .plain)
      [.events, .regs, .motion]
      fun s t => t.motion.spin.crossings = (crossingSector phase rising, stamp) :: s.motion.spin.crossings.take 63 ∧ t.motion.spin.st = .listen ∧
          RegsBut [R.SP_STATUS, R.SP_SPEED, R.SP_DUTY] s t ∧ t.events = s.events) ∧
  (∀ (at' : Stamp), Completes .commutation
      (fun s => s.motion.spin.st = .run ∧ s.motion.spin.stage = .plain ∧ s.motion.spin.next = some at' ∧ at' ≤ s.now)
      [.events, .regs, .motion]
      fun s t => t.motion.spin = { s.motion.spin with sector := (s.motion.spin.sector + 1) % 6, tk := at', next := none } ∧ t.motion.sleds = s.motion.sleds ∧
          RegsBut [R.SP_STATUS, R.SP_SPEED, R.SP_DUTY] s t ∧ t.events = s.events) ∧
  (∀ (at' : Stamp), Completes .commutation
      (fun s => s.motion.spin.st = .listen ∧ s.motion.spin.stage = .catching ∧ s.motion.spin.next = some at' ∧ at' ≤ s.now)
      [.events, .regs, .motion]
      fun s t => t.motion.spin.st = .run ∧ t.motion.spin.sector = (s.motion.spin.sector + 1) % 6 ∧ t.motion.spin.tk = at' ∧ t.motion.spin.path = 0 ∧
          t.motion.spin.runSince = at' ∧ t.fld R.SP_STATUS F.SP_STATUS_STATE = 5) ∧
  (Completes .forcedCommutation
      (fun s => s.motion.spin.st = .run ∧ s.motion.spin.next = none ∧ 0 < s.motion.spin.t60 ∧ forcedAt s ≤ s.now ∧ s.motion.spin.misses < 2)
      [.events, .regs, .heads, .decode, .mem, .motion, .out]
      fun s t => t.motion.spin = { s.motion.spin with
            sector := (s.motion.spin.sector + 1) % 6, tk := forcedAt s, misses := s.motion.spin.misses + 1 } ∧ t.motion.sleds = s.motion.sleds ∧
          RegsBut [R.SP_STATUS, R.SP_SPEED, R.SP_DUTY] s t ∧ t.events = s.events) ∧
  (Completes .forcedCommutation
      (fun s => s.motion.spin.st = .run ∧ s.motion.spin.next = none ∧ 0 < s.motion.spin.t60 ∧ forcedAt s ≤ s.now ∧ s.motion.spin.misses = 2 ∧
          s.motion.spin.attempt = 0)
      [.events, .regs, .heads, .decode, .mem, .motion, .out]
      fun s t => t.motion.spin.st = .lost ∧ t.motion.spin.duty = 0 ∧ t.motion.spin.since = forcedAt s ∧ t.motion.spin.next = none ∧
          t.fld R.SP_STATUS F.SP_STATUS_STATE = 6 ∧ t.motion.sleds = s.motion.sleds) ∧
  (∀ (at' : Stamp), Completes .commutation
      (fun s => s.motion.spin.st = .lost ∧ s.motion.spin.stage = .catching ∧ s.motion.spin.next = some at' ∧ at' ≤ s.now)
      [.events, .regs, .motion]
      fun s t => t.motion.spin.st = .run ∧ t.motion.spin.stage = .plain ∧ t.motion.spin.sector = (s.motion.spin.sector + 1) % 6 ∧ t.motion.spin.tk = at' ∧
          t.motion.spin.t60 = s.motion.spin.t60 ∧ t.fld R.SP_STATUS F.SP_STATUS_STATE = 5) ∧
  (Completes .lostRotorTimeout
      (fun s => s.motion.spin.st = .lost ∧ s.motion.spin.stage = .plain ∧ s.motion.spin.since + 75000000 ≤ s.now)
      [.events, .regs, .motion]
      fun s t => t.motion.spin = { s.motion.spin with restart := true, duty := 0, dutyNext := none, next := none, st := .stopping, stage := .burst, since := s.now } ∧ t.motion.sleds = s.motion.sleds ∧
          t.fld R.SP_STATUS F.SP_STATUS_STATE = 7 ∧ t.events = (s.logMot 0x5016 s.motion.spin.lostT60).events) ∧
  (Completes .listenEnd
      (fun s => s.motion.spin.st = .listen ∧ s.motion.spin.stage = .plain ∧ s.motion.spin.crossings = [] ∧ s.motion.spin.since + 30000000 ≤ s.now ∧
          s.cal.copied = true)
      [.regs, .motion]
      fun s t => t.motion.spin = { s.motion.spin with
            path := 2, sector := 0, duty := s.fld R.SP_ALIGN_CFG F.SP_ALIGN_CFG_DUTY, t60 := 0, goodRun := 0, st := .align, since := s.now } ∧
          t.fld R.SP_STATUS F.SP_STATUS_STATE = 3 ∧ t.motion.sleds = s.motion.sleds) ∧
  (Completes .brakeBurstEnd
      (fun s => s.motion.spin.stage = .burst ∧ s.motion.spin.since + 75000000 ≤ s.now)
      [.regs, .motion]
      fun s t => t.motion.spin.st = s.motion.spin.st ∧ t.motion.spin.stage = .burstListen ∧ t.motion.spin.since = s.now ∧ t.motion.spin.crossings = [] ∧
          t.motion.spin.duty = 0 ∧ t.motion.sleds = s.motion.sleds) ∧
  (Completes .alignEnd
      (fun s => s.motion.spin.st = .align ∧ s.motion.spin.since + s.fld R.SP_ALIGN_CFG F.SP_ALIGN_CFG_ALIGN_T * 1500000 ≤ s.now)
      [.regs, .motion]
      fun s t => t.motion.spin = { s.motion.spin with steps := 0, goodRun := 0, st := .openLoop, stage := .plain, since := s.now } ∧
          t.fld R.SP_STATUS F.SP_STATUS_STATE = 4 ∧ t.motion.sleds = s.motion.sleds) ∧
  (Completes .openLoopCommutation
      (fun s => s.motion.spin.st = .openLoop ∧
          5 * (s.motion.spin.steps + 1) * 1500000000 ^ 2 ≤ 4 * s.fld R.SP_ALIGN_CFG F.SP_ALIGN_CFG_OL_ACC * (s.now - s.motion.spin.since) ^ 2 ∧
          4 * s.fld R.SP_ALIGN_CFG F.SP_ALIGN_CFG_OL_ACC * (s.now - s.motion.spin.since) < 16 * s.fld R.SP_COMM_CFG F.SP_COMM_CFG_HANDOVER * 1500000000)
      [.events, .regs, .heads, .decode, .mem, .motion, .out]
      fun s t => t.motion.spin = { s.motion.spin with
            steps := s.motion.spin.steps + 1, goodRun := (if crossedNow s.motion.spin then s.motion.spin.goodRun else 0)
            sector := (s.motion.spin.sector + 1) % 6, tk := s.now } ∧ t.motion.sleds = s.motion.sleds ∧
          RegsBut [R.SP_STATUS, R.SP_SPEED, R.SP_DUTY] s t ∧ t.events = s.events) ∧
  (Completes .stopShortEnd
      (fun s => s.motion.spin.st = .stopping ∧ s.motion.spin.stage = .short ∧ s.motion.spin.since + 3000000000 ≤ s.now ∧ s.motion.spin.restart = false)
      [.regs, .motion]
      fun s t => t.motion.spin = { s.motion.spin with duty := 0, t60 := 0, st := .stopped, stage := .plain, since := s.now } ∧
          t.fld R.SP_STATUS F.SP_STATUS_STATE = 0 ∧ t.motion.sleds = s.motion.sleds) ∧
  (Completes .spindleBridgeFault
      (fun _ => True)
      [.events, .regs, .heads, .decode, .mem, .motion, .out]
      fun s t => t.motion.spin.st = .fault ∧ t.motion.spin.duty = 0 ∧ t.motion.spin.dutyNext = none ∧ t.motion.spin.next = none ∧ t.motion.spin.restart = false ∧
          t.fld R.SP_STATUS F.SP_STATUS_FAULT = 1 ∧ t.fld R.SP_STATUS F.SP_STATUS_STATE = 8 ∧ t.motion.sleds = s.motion.sleds) ∧
  (∀ (first second : Int), Completes (.spindleOverCurrent first second)
      (fun s => (s.fld R.SP_PROT F.SP_PROT_OC_TRIP : Int) < first ∧ (s.fld R.SP_PROT F.SP_PROT_OC_TRIP : Int) < second ∧ s.motion.spin.st = .run)
      [.events, .regs, .heads, .decode, .mem, .motion, .out]
      fun s t => t.motion.spin.st = .fault ∧ t.motion.spin.duty = 0 ∧ t.motion.spin.next = none ∧
          t.fld R.SP_STATUS F.SP_STATUS_FAULT = 2 ∧ t.fld R.SP_STATUS F.SP_STATUS_STATE = 8 ∧ t.motion.sleds = s.motion.sleds) ∧
  (∀ (first second : Int), Completes (.spindleOverCurrent first second)
      (fun s => (s.fld R.SP_PROT F.SP_PROT_OC_TRIP : Int) < first ∧ (s.fld R.SP_PROT F.SP_PROT_OC_TRIP : Int) < second ∧ s.motion.spin.st = .align ∧
          s.motion.spin.attempt ≤ s.fld R.SP_ALIGN_CFG F.SP_ALIGN_CFG_RETRIES)
      [.events, .regs, .heads, .decode, .mem, .motion, .out]
      fun s t => t.motion.spin.st = .listen ∧ t.motion.spin.attempt = s.motion.spin.attempt + 1 ∧ t.motion.spin.duty = 0 ∧ t.motion.sleds = s.motion.sleds ∧
          t.heads = s.heads) ∧
  (Completes .governorUpdate
      (fun s => s.now % 1500000 = 0 ∧ s.motion.spin.st = .stopping ∧ s.motion.spin.stage ≠ .ramp)
      [.regs, .motion]
      fun s t => t.fld R.SP_GOV F.SP_GOV_TARGET = 20 ∧ RegsBut [R.SP_GOV, R.SP_REF] s t ∧
          (t.fld R.SP_REF F.SP_REF_REF : Int) = (s.fld R.SP_REF F.SP_REF_REF : Int) +
            clampInt (-roundDiv ((s.fld R.SP_GOV F.SP_GOV_RATE : Int) * 16) 1000) (roundDiv ((s.fld R.SP_GOV F.SP_GOV_RATE : Int) * 16) 1000)
              (19200 - (s.fld R.SP_REF F.SP_REF_REF : Int))) ∧
  (Completes .governorUpdate
      (fun s => s.now % 1500000 = 0 ∧ s.motion.spin.st = .stopping ∧ s.motion.spin.stage = .ramp ∧ s.fld R.SP_REF F.SP_REF_REF ≤ 19200 + 1 ∧
          19200 ≤ s.fld R.SP_REF F.SP_REF_REF ∧ 63 ≤ s.fld R.SP_GOV F.SP_GOV_RATE)
      [.regs, .motion]
      fun s t => t.fld R.SP_REF F.SP_REF_REF = 19200 ∧ t.motion.spin.st = .stopping ∧ t.motion.spin.stage = .burst ∧ t.motion.spin.duty = 0 ∧
          t.motion.sleds = s.motion.sleds ∧ RegsBut [R.SP_GOV, R.SP_REF, R.SP_STATUS, R.SP_SPEED, R.SP_DUTY] s t) ∧
  (Completes .thermalModelUpdate
      (fun s => s.now % 1500000 = 0 ∧ s.motion.spin.msSum = 0)
      [.motion]
      fun s t => t.motion.spin = { s.motion.spin with
            therm := s.motion.spin.therm + floorDiv (-s.motion.spin.therm) (2 ^ s.fld R.SP_THERM F.SP_THERM_TAU_SH), msSum := 0, msCnt := 0 } ∧
          t.motion.sleds = s.motion.sleds) ∧
  (∀ (current : Int), Completes (.pwmPeriod current)
      (fun s => s.motion.spin.lastPwm + 15 * s.fld R.SP_PWM F.SP_PWM_PERIOD / 2 ≤ s.now)
      [.regs, .motion]
      fun s t => t.motion.spin = { s.motion.spin with
            lastPwm := s.now, current := current, msSum := s.motion.spin.msSum + current, msCnt := s.motion.spin.msCnt + 1
            duty := s.motion.spin.dutyNext.getD s.motion.spin.duty, dutyNext := none
            released := (s.motion.spin.stage == .burst || s.motion.spin.stage == .short) && decide ((s.fld R.SP_PROT F.SP_PROT_ILIM : Int) < current) } ∧
          t.motion.sleds = s.motion.sleds ∧ RegsBut [R.SP_STATUS, R.SP_SPEED, R.SP_DUTY] s t) ∧
  (∀ (head : Fin 16) (o : OpenReq) (n : Nat) (l tr : Nat), Completes (.claimSatisfied head)
      (fun s => (s.head head).opening = some o ∧ o.stage = .claim ∧ o.desc.mode = .read ∧ s.motion.waiting.lookup head.val = some n ∧ claimMet s n = true ∧
          flyReady s head = true ∧ (s.head head).fly.expected = some (l, tr) ∧ ((tr : Int) - (12 * o.desc.start + 5)).natAbs ≤ 12)
      [.regs, .heads, .seq, .motion]
      fun s t => t.head head = { s.head head with opening := some { o with stage := .seeding } } ∧ HeadsBut head s t ∧ t.motion = s.motion ∧ t.regs = s.regs ∧
          t.seq = s.seq) ∧
  (∀ (head : Fin 16) (o : OpenReq) (n : Nat), Completes (.claimSatisfied head)
      (fun s => (s.head head).opening = some o ∧ o.stage = .claim ∧ s.motion.waiting.lookup head.val = some n ∧ claimMet s n = true ∧ flyReady s head = false)
      [.regs, .heads, .seq, .motion]
      fun s t => t.head head = { s.head head with opening := none } ∧ HeadsBut head s t ∧ Posts o.who.bobbin (headEntry s head o.who 4 0) s t ∧
          (t.motion.waiting.any fun c => c.1 == head.val) = false ∧ RegsBut [R.SP_GOV] s t)

/-- A read of clean words returns the bytes stored, finds nothing bad, and changes no memory, register or event. A read of one word that is uncorrectable reports its address as bad, puts it in MC_ECC_LAST and logs 0x8002. A write of any length over clean words leaves every byte in its range as given and every other byte of memory unchanged, and a whole word gets the check symbols of its data. A write of one byte of an uncorrectable word stores it, changes no other byte, poisons the check symbols and logs 0x8003. A write outside memory changes nothing in it and logs 0x8009. A write-back takes the oldest word and stores its corrected data, every other byte unchanged. A patrol read of clean words moves the pointer to the next burst and waits for the next. MC_ECC_ERASE takes its value, with no event where no device is newly erased; a threshold of 0 in MC_ECC_CFG is stored as 1, and CLR zeroes the counts. A flip is armed, for the word that holds its address, under the debug unlock alone, and otherwise changes no register and logs 0x800A. -/
def Obligations.MemoryAccess : Prop :=
  (∀ (cls : Fin 7) (addr len : Nat), Completes (.memoryRead cls addr len)
      (fun s => 0 < len ∧ WordsClean s addr len)
      [.events, .regs, .mem, .out]
      fun s t => t.mem.reply = some ⟨addr, (List.range len).map fun k => s.memByte (addr + k), []⟩ ∧ t.mem.data = s.mem.data ∧ t.mem.check = s.mem.check ∧
          t.regs = s.regs ∧ t.events = s.events) ∧
  (∀ (cls : Fin 7) (addr : Nat), Completes (.memoryRead cls addr 8)
      (fun s => addr % 8 = 0 ∧ addr + 8 ≤ s.memSize ∧ s.memOn = true ∧
          (decodeWord (s.erasedDevice (s.memSub addr)) (s.memSymbols addr)).1 = .uncorrectable)
      [.events, .regs, .mem, .out]
      fun s t => (t.mem.reply.map fun r => (r.addr, r.bad)) = some (addr, [addr]) ∧ t.mem.data = s.mem.data ∧ t.mem.check = s.mem.check ∧
          (t.reg R.MC_ECC_LAST_LO).toNat = addr % 2 ^ 32 ∧ RegsBut [R.MC_ECC_CNT, R.MC_ECC_LAST_LO, R.MC_ECC_LAST_HI] s t ∧
          t.events = (s.logMem 0x8002 (s.memSub addr) (addr % 2 ^ 32) cls.val 0).events) ∧
  (∀ (cls : Fin 7) (addr : Nat) (bytes : List Byte), Completes (.memoryWrite cls addr bytes)
      (fun s => WordsClean s addr bytes.length ∧ s.flag R.MC_FLIP_ADDR_HI F.MC_FLIP_ADDR_HI_ARMED = false)
      [.events, .regs, .mem, .out]
      fun s t => (∀ x : Nat, t.memByte x = if addr ≤ x ∧ x < addr + bytes.length then bytes.getD (x - addr) 0 else s.memByte x) ∧
          t.regs = s.regs ∧ t.events = s.events) ∧
  (∀ (cls : Fin 7) (addr : Nat) (bytes : List Byte), Completes (.memoryWrite cls addr bytes)
      (fun s => addr % 8 = 0 ∧ bytes.length = 8 ∧ addr + 8 ≤ s.memSize ∧ s.memOn = true ∧ s.flag R.MC_FLIP_ADDR_HI F.MC_FLIP_ADDR_HI_ARMED = false)
      [.events, .regs, .mem, .out]
      fun s t => t.memSymbols addr = (bytes.map fun x => x.toNat) ++ (checkSymbols (bytes.map fun x => x.toNat)).map (· % 256) ∧
          (∀ x : Nat, (x < addr ∨ addr + 8 ≤ x) → t.memByte x = s.memByte x) ∧ t.regs = s.regs ∧ t.events = s.events) ∧
  (∀ (cls : Fin 7) (addr : Nat) (v : Byte), Completes (.memoryWrite cls addr [v])
      (fun s => addr / 8 * 8 + 8 ≤ s.memSize ∧ s.memOn = true ∧
          (decodeWord (s.erasedDevice (s.memSub (addr / 8 * 8))) (s.memSymbols (addr / 8 * 8))).1 = .uncorrectable)
      [.events, .regs, .mem, .out]
      fun s t => (∀ x : Nat, t.memByte x = if x = addr then v else s.memByte x) ∧ t.regs = s.regs ∧
          t.events = (s.logMem 0x8003 (s.memSub (addr / 8 * 8)) (addr / 8 * 8 % 2 ^ 32) cls.val 0).events ∧
          (t.memSymbols (addr / 8 * 8)).drop 8 = (checkSymbols ((t.memSymbols (addr / 8 * 8)).take 8)).map fun c => (c ^^^ 0x5A) % 256) ∧
  (∀ (cls : Fin 7) (addr : Nat) (bytes : List Byte), Completes (.memoryWrite cls addr bytes)
      (fun s => s.memOn = true ∧ 0 < bytes.length ∧ s.memSize ≤ addr)
      [.events, .regs, .mem, .out]
      fun s t => t.mem.data = s.mem.data ∧ t.mem.check = s.mem.check ∧ t.regs = s.regs ∧
          t.events = (s.logMem 0x8009 cls.val (addr % 2 ^ 32) (addr / 2 ^ 32 % 256)).events) ∧
  (∀ (a : Nat) (rest : List Nat) (p : Nat) (d : List Nat), Completes .eccWriteBack
      (fun s => s.mem.wbQ = a :: rest ∧ a % 8 = 0 ∧ decodeWord (s.erasedDevice (s.memSub a)) (s.memSymbols a) = (.corrected p, d) ∧ d.length = 8)
      [.mem]
      fun s t => t.mem.wbQ = rest ∧ (t.memSymbols a).take 8 = d.map (· % 256) ∧ (∀ x : Nat, (x < a ∨ a + 8 ≤ x) → t.memByte x = s.memByte x)) ∧
  (Completes .patrolScrubRead
      (fun s => s.memReady = true ∧ s.flag R.MC_SCRUB_CFG F.MC_SCRUB_CFG_EN = true ∧ s.mem.scrubAt ≤ s.now ∧
          WordsClean s (s.fld R.MC_SCRUB_STATUS F.MC_SCRUB_STATUS_PTR * 64) 64 ∧
          (s.fld R.MC_SCRUB_STATUS F.MC_SCRUB_STATUS_PTR + 1) * 64 < s.memSize)
      [.events, .regs, .mem, .out]
      fun s t => t.fld R.MC_SCRUB_STATUS F.MC_SCRUB_STATUS_PTR = s.fld R.MC_SCRUB_STATUS F.MC_SCRUB_STATUS_PTR + 1 ∧
          t.mem.scrubAt = s.now + s.scrubInterval ∧ t.mem.data = s.mem.data ∧ t.mem.check = s.mem.check ∧ RegsBut [R.MC_SCRUB_STATUS] s t ∧
          t.events = s.events) ∧
  (∀ (val : Word), Completes (.eccEraseWrite val)
      (fun _ => ∀ k ∈ List.range 4, 4 < natBits val.toNat (3 * k + 2) (3 * k))
      [.events, .regs]
      fun s t => t.fld R.MC_ECC_ERASE F.MC_ECC_ERASE_DEV = val.toNat % 2 ^ F.MC_ECC_ERASE_DEV.width ∧ RegsBut [R.MC_ECC_ERASE] s t ∧ t.events = s.events) ∧
  (∀ (val : Word), Completes (.eccCountClear val)
      (fun _ => getFlag val F.MC_ECC_CFG_CLR = true)
      [.regs]
      fun s t => t.reg R.MC_ECC_CNT = 0 ∧ (∀ k : Fin 4, t.reg (R.MC_ECC_DEV k.val) = 0) ∧
          t.fld R.MC_ECC_CFG F.MC_ECC_CFG_AUTO_N = max 1 (getField val F.MC_ECC_CFG_AUTO_N) ∧
          RegsBut ([R.MC_ECC_CFG, R.MC_ECC_CNT] ++ (List.range 4).map R.MC_ECC_DEV) s t) ∧
  (∀ (val : Word), Completes (.eccCountClear val)
      (fun _ => getFlag val F.MC_ECC_CFG_CLR = false)
      [.regs]
      fun s t => t.fld R.MC_ECC_CFG F.MC_ECC_CFG_AUTO_N = max 1 (getField val F.MC_ECC_CFG_AUTO_N) ∧ RegsBut [R.MC_ECC_CFG] s t) ∧
  (∀ (lo hi : Word), Completes (.flipArm lo hi)
      (fun s => testBitN (s.fld R.SEC_STATUS F.SEC_STATUS_DBG) 2 = true)
      [.events, .regs]
      fun s t => t.flag R.MC_FLIP_ADDR_HI F.MC_FLIP_ADDR_HI_ARMED = true ∧ t.reg R.MC_FLIP_ADDR_LO = (lo >>> 3) <<< 3 ∧
          RegsBut [R.MC_FLIP_ADDR_LO, R.MC_FLIP_ADDR_HI] s t ∧ t.events = s.events) ∧
  (∀ (lo hi : Word), Completes (.flipArm lo hi)
      (fun s => testBitN (s.fld R.SEC_STATUS F.SEC_STATUS_DBG) 2 = false)
      [.events, .regs]
      fun s t => t.regs = s.regs ∧ t.events = (s.logMem 0x800A R.MC_FLIP_ADDR_HI).events)

/-- An all-bank refresh that is due on a populated subchannel of a ready memory is postponed while ingest waits and fewer than four are postponed, and otherwise issued together with those. MR4 is read every 1,500,000 ticks and kept, and the activate tables are cleared every 48,000,000. A row that reaches THR where the devices report no DRFM has its count cleared, and RFM of its bank is issued and logged. A row whose idle time is over is precharged. MC_CFG with ENABLE puts memory in service with SUBCH and DENSITY held to 2, and READY set. While ENABLE is 0 MRW, MRR, MPC, precharge and refresh go to the selected subchannels, MRW's value stands in their mode register, MRR's answer in MC_TRN_STATUS, a precharge closes every row there, a pattern's failing lines stand in MC_TRN_FAIL, and the sweep starts with set 0 active at its reset values; MRW and the sweep while ENABLE is 1 change no register and no memory and log 0x800A. A frequency change begins with memory in service, no pass or open, no change or sweep and another set, ends with the new set active and event 0x8006, and with a pass open is refused with 0x8007 and reason 0. -/
def Obligations.MemoryService : Prop :=
  (∀ (sub : Fin 4) (ingestWaits : Bool), Completes (.refresh sub ingestWaits)
      (fun s => s.memReady = true ∧ sub.val < 2 ^ s.memW ∧ (s.sub sub.val).refreshAt ≤ s.now ∧ ingestWaits = true ∧ (s.sub sub.val).postponed < 4)
      [.mem, .out]
      fun s t => t.sub sub.val = { s.sub sub.val with refreshAt := s.now + s.refreshInterval sub.val, postponed := (s.sub sub.val).postponed + 1 } ∧
          t.out = s.out ∧ t.mem.data = s.mem.data ∧ (∀ k : Fin 4, k ≠ sub → t.sub k.val = s.sub k.val)) ∧
  (∀ (sub : Fin 4) (ingestWaits : Bool), Completes (.refresh sub ingestWaits)
      (fun s => s.memReady = true ∧ sub.val < 2 ^ s.memW ∧ (s.sub sub.val).refreshAt ≤ s.now ∧ (ingestWaits = false ∨ 4 ≤ (s.sub sub.val).postponed))
      [.mem, .out]
      fun s t => t.sub sub.val = { s.sub sub.val with refreshAt := s.now + s.refreshInterval sub.val, postponed := 0 } ∧
          t.out = .dram sub.val (.refresh ((s.sub sub.val).postponed + 1)) :: s.out ∧ (∀ k : Fin 4, k ≠ sub → t.sub k.val = s.sub k.val)) ∧
  (∀ (sub : Fin 4) (value : Fin 256), Completes (.mr4Read sub value)
      (fun s => s.memReady = true ∧ sub.val < 2 ^ s.memW ∧ s.now % 1500000 = 0)
      [.mem, .out]
      fun s t => t.sub sub.val = { s.sub sub.val with mr4 := value.val } ∧ t.out = .dram sub.val (.mrr 4) :: s.out ∧
          (∀ k : Fin 4, k ≠ sub → t.sub k.val = s.sub k.val)) ∧
  (Completes .activateTableClear
      (fun s => s.now % 48000000 = 0)
      [.mem]
      fun s t => ∀ x : Nat, t.bank x = { s.bank x with acts := [] }) ∧
  (∀ (sub : Fin 4) (bank : Fin 32) (row : Nat) (drfm : Bool), Completes (.neighbourRefresh sub bank row drfm)
      (fun s => ((s.bank (32 * sub.val + bank.val)).acts.any fun e => e.1 == row && decide (s.fld R.MC_ACT_CFG F.MC_ACT_CFG_THR ≤ e.2)) = true ∧ drfm = false)
      [.events, .regs, .mem, .out]
      fun s t => (t.bank (32 * sub.val + bank.val)).acts = (s.bank (32 * sub.val + bank.val)).acts.map (fun e => if e.1 = row then (row, 0) else e) ∧
          (∀ x : Nat, x ≠ 32 * sub.val + bank.val → t.bank x = s.bank x) ∧ t.out = .dram sub.val (.rfm bank.val) :: s.out ∧
          t.events = (s.logMem 0x8005 sub.val bank.val row 1).events ∧ RegsBut [R.MC_ACT_CNT] s t) ∧
  (∀ (sub : Fin 4) (bank : Fin 32) (row : Nat) (at' : Stamp), Completes (.pageIdlePrecharge sub bank)
      (fun s => (s.bank (32 * sub.val + bank.val)).row = some (row, at') ∧ at' ≤ s.now)
      [.mem, .out]
      fun s t => t.bank (32 * sub.val + bank.val) = { s.bank (32 * sub.val + bank.val) with row := none } ∧
          (∀ x : Nat, x ≠ 32 * sub.val + bank.val → t.bank x = s.bank x) ∧ t.out = .dram sub.val (.precharge bank.val) :: s.out) ∧
  (∀ (val : Word), Completes (.memoryEnable val)
      (fun s => s.memOn = false ∧ getField val F.MC_CFG_ENABLE = 1 ∧ s.flag R.MC_STATUS F.MC_STATUS_FC_BUSY = false)
      [.regs, .mem]
      fun s t => t.memOn = true ∧ t.fld R.MC_CFG F.MC_CFG_SUBCH = min 2 (getField val F.MC_CFG_SUBCH) ∧
          t.fld R.MC_CFG F.MC_CFG_DENSITY = min 2 (getField val F.MC_CFG_DENSITY) ∧ t.fld R.MC_STATUS F.MC_STATUS_READY = 1 ∧
          t.mem.scrubAt = s.now ∧ t.mem.data = s.mem.data ∧ t.mem.check = s.mem.check ∧ RegsBut [R.MC_CFG, R.MC_STATUS] s t) ∧
  (∀ (scmask : Fin 16) (mr data : Fin 256), Completes (.mrw scmask mr data)
      (fun s => s.memOn = false)
      [.events, .mem, .out]
      fun s t => t.out = ((maskSubs scmask.val).map fun k => Output.dram k (.mrw mr.val data.val)).reverse ++ s.out ∧
          (∀ k : Fin 4, ∀ x : Fin 256, storeGet (fun _ => 0) (256 * k.val + x.val) t.mem.modeRegs =
            if testBitN scmask.val k.val = true ∧ x = mr then data.val else storeGet (fun _ => 0) (256 * k.val + x.val) s.mem.modeRegs) ∧
          t.mem.data = s.mem.data ∧ t.events = s.events) ∧
  (∀ (scmask : Fin 16) (mr data : Fin 256), Completes (.mrw scmask mr data)
      (fun s => s.memOn = true)
      [.events, .mem, .out]
      fun s t => t.out = s.out ∧ t.mem = s.mem ∧ t.events = (s.logMem 0x800A R.MC_TRN_CMD).events) ∧
  (∀ (scmask : Fin 16) (mr answer : Fin 256), Completes (.mrr scmask mr answer)
      (fun s => s.memOn = false)
      [.events, .regs, .mem, .out]
      fun s t => t.out = ((maskSubs scmask.val).map fun k => Output.dram k (.mrr mr.val)).reverse ++ s.out ∧ t.fld R.MC_TRN_STATUS F.MC_TRN_STATUS_MRR = answer.val ∧ t.mem.data = s.mem.data ∧
          RegsBut [R.MC_TRN_STATUS] s t) ∧
  (∀ (scmask : Fin 16) (op : Fin 256), Completes (.mpc scmask op)
      (fun s => s.memOn = false)
      [.events, .out]
      fun s t => t.out = ((maskSubs scmask.val).map fun k => Output.dram k (.mpc op.val)).reverse ++ s.out ∧ t.events = s.events) ∧
  (∀ (scmask : Fin 16), Completes (.prechargeAll scmask)
      (fun s => s.memOn = false)
      [.events, .mem, .out]
      fun s t => t.out = ((maskSubs scmask.val).map fun k => Output.dram k .prechargeAll).reverse ++ s.out ∧
          ∀ x : Nat, t.bank x = if x / 32 ∈ maskSubs scmask.val then { s.bank x with row := none } else s.bank x) ∧
  (∀ (scmask : Fin 16), Completes (.refreshAll scmask)
      (fun s => s.memOn = false)
      [.events, .out]
      fun s t => t.out = ((maskSubs scmask.val).map fun k => Output.dram k (.refresh 1)).reverse ++ s.out ∧ t.events = s.events) ∧
  (∀ (scmask : Fin 16) (bursts : Fin 65536) (errs : List (Fin 4 × Nat)), Completes (.patternRun scmask bursts errs)
      (fun s => s.memOn = false)
      [.events, .regs, .mem]
      fun s t => (∀ k : Fin 4, t.reg (R.MC_TRN_FAIL k.val 0) =
            (errs.filter fun e => e.1 == k && testBitN scmask.val k.val).foldl (fun w e => w ||| BitVec.ofNat 32 e.2) 0 ∧
            t.reg (R.MC_TRN_FAIL k.val 1) =
            (errs.filter fun e => e.1 == k && testBitN scmask.val k.val).foldl (fun w e => w ||| BitVec.ofNat 32 (e.2 / 2 ^ 32 % 256)) 0) ∧
          RegsBut ((List.range 4).flatMap fun k => [R.MC_TRN_FAIL k 0, R.MC_TRN_FAIL k 1]) s t ∧ t.events = s.events) ∧
  (Completes .sweepStart
      (fun s => s.memOn = false ∧ s.flag R.MC_STATUS F.MC_STATUS_SWEEP_BUSY = false)
      [.events, .regs]
      fun s t => t.flag R.MC_STATUS F.MC_STATUS_SWEEP_BUSY = true ∧ t.fld R.MC_STATUS F.MC_STATUS_ACTIVE_SET = 0 ∧
          (∀ r ∈ [R.MC_TSET0 0, R.MC_TSET1 0, R.MC_TSET2 0, R.MC_TSET3 0, R.MC_TSET4 0], t.reg r = regReset r) ∧
          RegsBut [R.MC_STATUS, R.MC_TSET0 0, R.MC_TSET1 0, R.MC_TSET2 0, R.MC_TSET3 0, R.MC_TSET4 0] s t ∧ t.events = s.events) ∧
  (Completes .sweepStart
      (fun s => s.memOn = true)
      [.events, .regs]
      fun s t => t.regs = s.regs ∧ t.events = (s.logMem 0x800A R.MC_SWEEP).events) ∧
  (∀ (target : Fin 2), Completes (.frequencyChangeRequest target)
      (fun s => (∀ n : Fin 16, (s.head n).pass = none ∧ (s.head n).opening = none) ∧ s.memOn = true ∧ s.flag R.MC_STATUS F.MC_STATUS_FC_BUSY = false ∧
          s.flag R.MC_STATUS F.MC_STATUS_SWEEP_BUSY = false ∧ target.val ≠ s.activeSet)
      [.events, .regs, .mem]
      fun s t => t.mem = { s.mem with change := some (s.now, target.val) } ∧ t.flag R.MC_STATUS F.MC_STATUS_FC_BUSY = true ∧
          t.fld R.MC_STATUS F.MC_STATUS_READY = 0 ∧ RegsBut [R.MC_STATUS, R.MC_FC_CTRL] s t ∧ t.events = s.events) ∧
  (∀ (target : Fin 2) (n : Fin 16), Completes (.frequencyChangeRequest target)
      (fun s => (s.head n).pass.isSome = true)
      [.events, .regs, .mem]
      fun s t => t.mem = s.mem ∧ RegsBut [R.MC_FC_CTRL] s t ∧ t.events = (s.logMem 0x8007 0).events) ∧
  (∀ (q : Stamp) (target : Nat), Completes .frequencyChangeDone
      (fun s => s.mem.change = some (q, target))
      [.events, .regs, .mem, .out]
      fun s t => t.mem.change = none ∧ t.activeSet = target % 2 ^ F.MC_STATUS_ACTIVE_SET.width ∧ t.flag R.MC_STATUS F.MC_STATUS_FC_BUSY = false ∧ t.mem.data = s.mem.data ∧
          t.mem.check = s.mem.check ∧ RegsBut [R.MC_STATUS] s t ∧ t.events = (s.logMem 0x8006 s.activeSet target (s.now - q)).events)

/-- With no REFRAME order waiting and room in the outcome ring a free input buffer takes the head record that is next and not spilled, with DC_FP_CFG as it stands and the tick by which the record has moved in, and the bindings are counted; a buffer in use takes nothing. A free core starts the one record in its buffers once it is there, with the parameters of its DC_FP_CFG, and the buffer is free again. An iteration that neither satisfies every check nor is the last one is followed by the next, 1,600 ticks later in first pass outside a contest and 1,800 ticks later in deep decoding; with every check satisfied, and in deep decoding at the cap, the core is free; and so is a core whose sector is gone at the end of its iteration. A free deep engine takes the first entry of the queue: with its values read clean from deep staging a core starts with the number of iterations of DC_DEEP_CFG, and otherwise the engine stays free. -/
def Obligations.DecodeEngines : Prop :=
  (∀ (e : Fin 32) (b : Fin 2) (bad : Bool) (x : Sector), Completes (.firstPassBind e b bad)
      (fun s => (s.decode.engines[e].buf b) = none ∧ bad = false ∧ s.decode.reframeQ = [] ∧ s.outRingFull = false ∧ s.nextHeadRecord = some x ∧ s.sector x.id = some x ∧ x.spilled = none)
      [.events, .regs, .decode, .seq, .mem, .out]
      fun s t => t.decode.engines[e] = s.decode.engines[e].setBuf b (some x.id) ∧ t.decode.bindings = s.decode.bindings + 1 ∧
          t.sector x.id = some { x with
            stage := .bound e.val b.val, fpCfg := (s.reg R.DC_FP_CFG).toNat, inBufAt := s.now + transferTicks (max x.soft.length x.channel.length) } ∧
          (∀ f : Fin 32, f ≠ e → t.decode.engines[f] = s.decode.engines[f]) ∧ t.regs = s.regs ∧ t.mem = s.mem ∧ t.events = s.events) ∧
  (∀ (e : Fin 32) (b : Fin 2) (bad : Bool), Completes (.firstPassBind e b bad)
      (fun s => (s.decode.engines[e].buf b).isSome = true)
      [.events, .regs, .decode, .seq, .mem, .out]
      fun s t => t.decode = s.decode ∧ t.regs = s.regs ∧ t.mem = s.mem) ∧
  (∀ (e : Fin 32) (bufErr : Bool) (x : Sector), Completes (.firstPassStart e bufErr)
      (fun s => s.decode.engines[e] = ⟨none, some x.id, none⟩ ∧ s.sector x.id = some x ∧ x.complete = true ∧ x.inBufAt ≤ s.now ∧ bufErr = false ∧
          x.framings.length < 2)
      [.events, .regs, .decode, .seq, .mem, .out]
      fun s t => (t.decode.engines[e].core.map fun c => (c.sector, c.iter, c.cap, c.iterEnds)) = some (x.id, 0, natBits x.fpCfg 2 0, s.now + 1600) ∧
          (t.decode.engines[e].core.map fun c => (c.beta, c.hopeless, c.contest)) = some (natBits x.fpCfg 27 24, natBits x.fpCfg 23 12, []) ∧
          t.decode.engines[e].buf0 = none ∧ t.sector x.id = some { x with stage := .firstPass e.val } ∧
          (∀ f : Fin 32, f ≠ e → t.decode.engines[f] = s.decode.engines[f]) ∧ t.regs = s.regs ∧ t.mem = s.mem) ∧
  (∀ (e : Fin 32) (c : DecodeCore) (x : Sector), Completes (.firstPassIterationEnd e)
      (fun s => s.decode.engines[e].core = some c ∧ c.iterEnds ≤ s.now ∧ s.sector c.sector = some x ∧ c.contest = [] ∧ c.iter + 1 < c.cap)
      [.events, .regs, .heads, .decode, .seq, .mem, .out, .free]
      fun s t => (syndromeWeight (iterate (firstPassRule c.beta) c.post c.msg).1 ≠ 0 →
            t.decode.engines[e].core = some { c with
              post := (iterate (firstPassRule c.beta) c.post c.msg).1, msg := (iterate (firstPassRule c.beta) c.post c.msg).2
              iter := c.iter + 1, iterEnds := s.now + 1600 } ∧ t.regs = s.regs ∧ t.mem = s.mem ∧ t.free = s.free) ∧
          (syndromeWeight (iterate (firstPassRule c.beta) c.post c.msg).1 = 0 → t.decode.engines[e].core = none)) ∧
  (∀ (e : Fin 32) (c : DecodeCore), Completes (.firstPassIterationEnd e)
      (fun s => s.decode.engines[e].core = some c ∧ c.iterEnds ≤ s.now ∧ s.sector c.sector = none)
      [.events, .regs, .heads, .decode, .seq, .mem, .out, .free]
      fun s t => t.decode = { s.decode with engines := s.decode.engines.set e { s.decode.engines[e] with core := none } } ∧ t.regs = s.regs ∧ t.mem = s.mem ∧
          t.heads = s.heads ∧ t.free = s.free) ∧
  (∀ (e : Fin 4) (bad : Bool) (d : DeepEntry) (rest : List DeepEntry) (x : Sector), Completes (.deepStart e bad)
      (fun s => s.decode.deep[e] = none ∧ s.decode.deepQ = d :: rest ∧ s.sector d.sector = some x ∧ bad = false)
      [.events, .regs, .decode, .seq, .mem, .out]
      fun s t => t.decode.deepQ = rest ∧ (∀ f : Fin 4, f ≠ e → t.decode.deep[f] = s.decode.deep[f]) ∧
          ((s.memRead 3 (d.addr + 64) (softBytes codeBits)).bad = [] →
            (t.decode.deep[e].map fun c => (c.sector, c.iter, c.cap, c.iterEnds)) =
              some (d.sector, 0, s.fld R.DC_DEEP_CFG F.DC_DEEP_CFG_ITER, s.now + 1800) ∧
            t.sector d.sector = some { x with stage := .deep e.val }) ∧
          ((s.memRead 3 (d.addr + 64) (softBytes codeBits)).bad ≠ [] → t.decode.deep[e] = none)) ∧
  (∀ (e : Fin 4) (c : DecodeCore) (x : Sector), Completes (.deepIterationEnd e)
      (fun s => s.decode.deep[e] = some c ∧ c.iterEnds ≤ s.now ∧ s.sector c.sector = some x)
      [.events, .regs, .heads, .decode, .seq, .mem, .out, .free]
      fun s t => (syndromeWeight (iterate deepRule c.post c.msg).1 ≠ 0 → c.iter + 1 < c.cap →
            t.decode.deep[e] = some { c with
              post := (iterate deepRule c.post c.msg).1, msg := (iterate deepRule c.post c.msg).2, iter := c.iter + 1, iterEnds := s.now + 1800 } ∧
            t.regs = s.regs ∧ t.mem = s.mem ∧ t.free = s.free) ∧
          (syndromeWeight (iterate deepRule c.post c.msg).1 = 0 ∨ c.cap ≤ c.iter + 1 → t.decode.deep[e] = none)) ∧
  (∀ (e : Fin 4) (c : DecodeCore), Completes (.deepIterationEnd e)
      (fun s => s.decode.deep[e] = some c ∧ c.iterEnds ≤ s.now ∧ s.sector c.sector = none)
      [.events, .regs, .heads, .decode, .seq, .mem, .out, .free]
      fun s t => t.decode = { s.decode with deep := s.decode.deep.set e none } ∧ t.regs = s.regs ∧ t.mem = s.mem ∧ t.free = s.free)

/-- The idle twill engine takes encoding work, then the oldest closed group, then decoding work; a group with more than two unknown members takes 80 ticks, leaves the engine idle, is counted in DC_CNT 8 where its band is no unclaimed run-ahead band, and adds a record to the ring with room. The idle surface-parity engine takes its first order, an encoding for 1,360 ticks; a decoding with too many unknown places completes with status 4, event 0x3009, and no write, and an encoding whose members read clean completes with 0. An order that arrives joins the queue of its number with the twill step of its head. A discard report for an unclaimed run-ahead band takes the band, its sectors and its closed groups out of the decode island and logs 0x3007, and for no such band changes nothing. DC_OUT_CONS takes the value written; DC_CNT_CLR clears every decode counter; both halves of the bases of the outcome ring and of the run-ahead area are stored, aligned, while no pass is open, and otherwise no register changes and 0x300A is logged. -/
def Obligations.DecodeWork : Prop :=
  (∀ (g : Group) (rest : List Group), Completes .twillJobStart
      (fun s => s.decode.twill = none ∧ s.decode.twillEncQ = [] ∧ s.decode.twillQ = g :: rest ∧ 2 < popCount 16 g.unknownMask)
      [.events, .regs, .decode, .mem, .out]
      fun s t => t.decode = { s.decode with twillQ := rest, twill := some (.group g, s.now + 80) } ∧ t.regs = s.regs ∧ t.mem = s.mem) ∧
  (∀ (w : DecWork) (rest : List DecWork), Completes .twillJobStart
      (fun s => s.decode.twill = none ∧ s.decode.twillEncQ = w :: rest)
      [.events, .regs, .decode, .mem, .out]
      fun s t => t.decode.twillEncQ = rest ∧ t.decode.twill.map Prod.fst = some (.enc w) ∧ t.decode.twillQ = s.decode.twillQ) ∧
  (∀ (w : DecWork) (rest : List DecWork), Completes .twillJobStart
      (fun s => s.decode.twill = none ∧ s.decode.twillEncQ = [] ∧ s.decode.twillQ = [] ∧ s.decode.twillDecQ = w :: rest)
      [.events, .regs, .decode, .mem, .out]
      fun _ t => t.decode.twillDecQ = rest ∧ t.decode.twill.map Prod.fst = some (.dec w)) ∧
  (∀ (g : Group) (at' : Stamp), Completes .twillJobEnd
      (fun s => s.decode.twill = some (.group g, at') ∧ at' ≤ s.now ∧ 2 < popCount 16 g.unknownMask ∧ s.outRingFull = false ∧ s.decode.waiting = [] ∧
          s.fld (R.DC_CNT 8) F.DC_CNT_COUNT < 4294967295 ∧
          (s.decode.runAhead.any fun r => r.isBand g.head g.pass g.layer g.band && r.claim.isNone) = false)
      [.events, .regs, .heads, .decode, .seq, .mem, .out, .free]
      fun s t => t.decode.twill = none ∧ t.fld (R.DC_CNT 8) F.DC_CNT_COUNT = s.fld (R.DC_CNT 8) F.DC_CNT_COUNT + 1 ∧
          t.fld R.DC_OUT_PROD F.DC_OUT_PROD_PROD = (s.fld R.DC_OUT_PROD F.DC_OUT_PROD_PROD + 1) % 65536 ∧ t.free = s.free ∧ t.seq = s.seq) ∧
  (∀ (w : DecWork) (rest : List DecWork), Completes .spJobStart
      (fun s => s.decode.sp = none ∧ s.decode.spQ = w :: rest ∧ w.op = 4 ∧ fieldAt w.bytes 0 4 % 4 ≠ 2)
      [.decode]
      fun s t => t.decode = { s.decode with spQ := rest, sp := some (w, s.now + 1360) }) ∧
  (∀ (w : DecWork) (rest : List DecWork), Completes .spJobStart
      (fun s => s.decode.sp = none ∧ s.decode.spQ = w :: rest ∧ w.op = 4 ∧ fieldAt w.bytes 0 4 % 4 = 2)
      [.decode]
      fun s t => t.decode = { s.decode with spQ := rest, sp := some (w, s.now + 1360) }) ∧
  (∀ (w : DecWork) (at' : Stamp), Completes .spJobEnd
      (fun s => s.decode.sp = some (w, at') ∧ at' ≤ s.now ∧ 8 - (spInputs w).1 < (spInputs w).2.1.length)
      [.events, .regs, .heads, .decode, .seq, .mem, .out, .free]
      fun s t => t.decode = { s.decode with sp := none } ∧ t.mem = s.mem ∧ t.regs = s.regs ∧
          Posts w.who.bobbin ⟨s.stamp .decode, w.who.tag, .decode, workStatus 4 % 256, 0, srcDecode, w.who.epoch, false⟩ s t ∧
          t.events = (s.logDec 0x3009 w.who.tag (workStatus 4)).events) ∧
  (∀ (w : DecWork) (at' : Stamp), Completes .spJobEnd
      (fun s => s.decode.sp = some (w, at') ∧ at' ≤ s.now ∧ (spInputs w).2.1.length ≤ 8 - (spInputs w).1)
      [.events, .regs, .heads, .decode, .seq, .mem, .out, .free]
      fun s t => t.decode.sp = none ∧
          (((indexed (s.readMembers ((spInputs w).2.1.map (2 ^ ·)).sum (spInputs w).2.2).1).any
              fun m => m.2.isNone && !((spInputs w).2.1.contains m.1)) = false → w.op = 4 →
            Posts w.who.bobbin ⟨s.stamp .decode, w.who.tag, .decode, 0, 0, srcDecode, w.who.epoch, false⟩ s t)) ∧
  (∀ (w : DecWork) (rest : List DecWork), Completes .decodeWorkArrival
      (fun s => s.decode.workXing = w :: rest)
      [.decode]
      fun s t => t.decode = { s.decode with
            workXing := rest
            reframeQ := s.decode.reframeQ ++ (if w.op = 1 then [acceptedWork s w] else [])
            twillDecQ := s.decode.twillDecQ ++ (if w.op = 2 then [acceptedWork s w] else [])
            twillEncQ := s.decode.twillEncQ ++ (if w.op = 3 then [acceptedWork s w] else [])
            spQ := s.decode.spQ ++ (if w.op = 1 ∨ w.op = 2 ∨ w.op = 3 then [] else [acceptedWork s w]) }) ∧
  (∀ (head : Fin 16) (layer band : Nat) (r : RunAhead), Completes (.runAheadDiscardReport head layer band)
      (fun s => s.decode.runAhead.find? (fun r => r.head == head.val && r.layer == layer && r.band == band && r.claim.isNone) = some r)
      [.events, .regs, .heads, .decode]
      fun s t => (∀ x ∈ t.decode.runAhead, x ≠ r) ∧ (∀ x ∈ t.decode.sectors, r.holds x = false) ∧
          (∀ g ∈ t.decode.twillQ, ¬ (g.head = r.head ∧ g.pass = r.pass ∧ g.layer = r.layer ∧ g.band = r.band)) ∧
          RegsBut [R.DC_CNT 11] s t ∧ t.events = (s.logDec 0x3007 r.head r.band 0 r.sectors).events) ∧
  (∀ (head : Fin 16) (layer band : Nat), Completes (.runAheadDiscardReport head layer band)
      (fun s => s.decode.runAhead.find? (fun r => r.head == head.val && r.layer == layer && r.band == band && r.claim.isNone) = none)
      [.events, .regs, .heads, .decode]
      fun s t => t.decode = s.decode ∧ t.regs = s.regs ∧ t.events = s.events) ∧
  (∀ (val : Word), Completes (.dcOutConsWrite val)
      (fun s => s.decode.waiting = [])
      [.events, .regs, .decode, .mem, .out]
      fun s t => t.fld R.DC_OUT_CONS F.DC_OUT_CONS_CONS = val.toNat % 65536 ∧ RegsBut [R.DC_OUT_CONS] s t ∧ t.mem = s.mem) ∧
  (∀ (val : Word), Completes (.dcCntClear val)
      (fun _ => getFlag val F.DC_CNT_CLR_CLEAR = true)
      [.regs]
      fun s t => (∀ k : Fin 12, t.reg (R.DC_CNT k.val) = 0) ∧ RegsBut ((List.range 12).map R.DC_CNT) s t) ∧
  (∀ (ra : Bool) (lo hi : Word), Completes (.dcBaseWrite ra lo hi)
      (fun s => (∀ n : Fin 16, (s.head n).pass = none) ∧ ra = false)
      [.events, .regs]
      fun s t => t.reg R.DC_OUT_BASE_LO = (lo >>> 22) <<< 22 ∧ t.reg R.DC_OUT_BASE_HI = hi &&& 0xFF ∧ RegsBut [R.DC_OUT_BASE_LO, R.DC_OUT_BASE_HI] s t ∧
          t.events = s.events) ∧
  (∀ (ra : Bool) (lo hi : Word), Completes (.dcBaseWrite ra lo hi)
      (fun s => (∀ n : Fin 16, (s.head n).pass = none) ∧ ra = true)
      [.events, .regs]
      fun s t => t.reg R.DC_RA_BASE_LO = (lo >>> 20) <<< 20 ∧ t.reg R.DC_RA_BASE_HI = hi &&& 0xFF ∧ RegsBut [R.DC_RA_BASE_LO, R.DC_RA_BASE_HI] s t ∧
          t.events = s.events) ∧
  (∀ (ra : Bool) (lo hi : Word) (n : Fin 16), Completes (.dcBaseWrite ra lo hi)
      (fun s => (s.head n).pass.isSome = true)
      [.events, .regs]
      fun s t => t.regs = s.regs ∧ t.events = (s.logDec 0x300A (if ra then R.DC_RA_BASE_LO else R.DC_OUT_BASE_LO)).events)

/-- A seal moves the oldest whole groups into a free batch, whose frames are linked in memory, and without a free batch or a group changes nothing. A commit whose every new place is good is accepted: with room in the ring its chain, from the next sequence on, follows the chains before it, and with the ring full the batch waits and RING_FULL is set; a commit with a faulty place leaves the host state as it was, the batch in state 3 with the fault's status. An abandoned sealed batch leaves the list of batches, and its groups and tracks stand as before the seal. A split commit in the limited state builds a chain of the frames it takes, where some are left. HC_JRN_DUR takes a value that is no lower with nothing waiting, and RING_FULL is clear where the ring has room; the oldest chain whose last record is durable is applied and gone, and in replay a record that fails its checks ends the application. Replay starts with no chain, an empty ring and every namespace in state 1, and its end clears REPLAY, goes on with the sequence after the last, and leaves no namespace in state 1. The oldest deferred write, deallocate or format that nothing holds back is no longer deferred: the write is decided, and the format has a batch with its journal entry; one held back changes nothing in the host state. MM.XFER, its words clean and its places in range and not closed, fills memory with its pattern, copies scratch to memory, memory to scratch, or memory to memory with result 0, every other byte unchanged, and one that writes outside memory or reaches a closed offset of the placement region has result 1 and writes nothing. -/
def Obligations.PlacementJournal : Prop :=
  (∀ (count : Fin 65536) (b : Nat), Completes (.seal count)
      (fun s => s.freeBatch = some b ∧ takeGroups count.val s.host.place.groups.length s.host.place.groups 0 ≠ [])
      [.events, .regs, .mem, .host, .out]
      fun s t => t.host.place = { s.host.place with
            groups := s.host.place.groups.filter fun g => !(takeGroups count.val s.host.place.groups.length s.host.place.groups 0).contains g
            batches := s.host.place.batches ++ [⟨b, takeGroups count.val s.host.place.groups.length s.host.place.groups 0, []⟩] } ∧
          t.mem = ((s.linkFrames b 2 ((takeGroups count.val s.host.place.groups.length s.host.place.groups 0).flatMap (·.frames))).putBatch b 0
            ((takeGroups count.val s.host.place.groups.length s.host.place.groups 0).flatMap (·.frames)).length
            (((takeGroups count.val s.host.place.groups.length s.host.place.groups 0).flatMap (·.frames)).headD 0xFFFFFFFF) 0).mem) ∧
  (∀ (count : Fin 65536), Completes (.seal count)
      (fun s => s.freeBatch = none ∨ s.host.place.groups = [])
      []
      fun _ _ => True) ∧
  (∀ (batch : Fin 256), Completes (.commit batch)
      (fun s => s.committable batch.val = true ∧ batch.val < 192 ∧ s.firstFault 0 [] (s.newPlaces batch.val (s.batFrames batch.val)) = none ∧ s.host.place.waiting = [] ∧
          ((s.host.place.batches.find? fun x => x.batch == batch.val).map (·.entries)) = some [] ∧ s.jrnPending + 261 ≤ 4096)
      [.events, .regs, .mem, .host, .out]
      fun s t => t.host.place.chains.dropLast = s.host.place.chains ∧
          (t.host.place.chains.getLast?.map fun c => (c.first, c.batch)) = some (s.host.place.nextSeq, some batch.val) ∧
          (t.host.place.chains.getLast?.map fun c => c.last + 1) = some t.host.place.nextSeq ∧
          t.host.place.waiting = [] ∧ t.host.place.batches = s.host.place.batches ∧ t.host.cmds = s.host.cmds) ∧
  (∀ (batch : Fin 256), Completes (.commit batch)
      (fun s => s.committable batch.val = true ∧ 192 ≤ batch.val ∧ s.firstFault 0 [] (s.newPlaces batch.val (s.batFrames batch.val)) = none ∧ s.host.place.waiting = [] ∧
          s.jrnPending + 261 ≤ 4096)
      [.events, .regs, .mem, .host, .out]
      fun s t => t.host.place.chains.dropLast = s.host.place.chains ∧
          (t.host.place.chains.getLast?.map fun c => (c.first, c.frames, c.batch)) = some (s.host.place.nextSeq, [], some batch.val) ∧
          (t.host.place.chains.getLast?.map fun c => c.last + 1) = some t.host.place.nextSeq ∧ t.host.place.waiting = []) ∧
  (∀ (batch : Fin 256), Completes (.commit batch)
      (fun s => s.committable batch.val = true ∧ batch.val < 192 ∧ s.firstFault 0 [] (s.newPlaces batch.val (s.batFrames batch.val)) = none ∧ s.host.place.waiting = [] ∧
          4096 ≤ s.jrnPending)
      [.events, .regs, .mem, .host, .out]
      fun s t => t.host.place = { s.host.place with waiting := [batch.val] } ∧ t.flag R.HC_PL_STATUS F.HC_PL_STATUS_RING_FULL = true) ∧
  (∀ (batch : Fin 256) (i st : Nat), Completes (.commit batch)
      (fun s => s.committable batch.val = true ∧ batch.val < 192 ∧ s.firstFault 0 [] (s.newPlaces batch.val (s.batFrames batch.val)) = some (i, st))
      [.events, .regs, .mem, .host, .out]
      fun s t => t.host = s.host ∧ t.mem = ((s.setBatState batch.val 3).plPut (s.batchAddr batch.val + 2) 1 st).mem) ∧
  (∀ (batch : Fin 256) (info : BatchInfo), Completes (.abandon batch)
      (fun s => (s.host.place.batches.find? fun x => x.batch == batch.val) = some info ∧ (s.batState batch.val = 1 ∨ s.batState batch.val = 3) ∧
          info.entries = [])
      [.events, .regs, .mem, .host, .out]
      fun s t => t.host = { s.host with place := { s.host.place with
            groups := s.host.place.groups ++ info.groups
            batches := s.host.place.batches.filter fun x => x.batch != batch.val
            tracks := s.host.place.tracks.map fun x =>
              if x.batch = some batch.val then { x with batch := none, frames := info.groups.flatMap (·.frames) } else x } }) ∧
  (∀ (batch : Fin 256) (count : Fin 65536), Completes (.splitCommit batch count)
      (fun s => batch.val < 192 ∧ s.committable batch.val = true ∧ (s.batFrames batch.val).take count.val ≠ [] ∧ (s.batFrames batch.val).drop count.val ≠ [] ∧
          (∀ f ∈ (s.batFrames batch.val).take count.val, ((s.namespaceOf (keyIdx (s.frKey f) + 1)).map fun n => n.state != 0) = some true) ∧
          s.firstFault 0 [] (s.newPlaces batch.val ((s.batFrames batch.val).take count.val)) = none ∧
          s.jrnPending + recordsFor ((s.batFrames batch.val).take count.val).length ≤ 4096)
      [.events, .regs, .mem, .host, .out]
      fun s t => t.host = { s.host with place := { s.host.place with
            nextSeq := s.host.place.nextSeq + recordsFor ((s.batFrames batch.val).take count.val).length
            chains := s.host.place.chains ++ [⟨s.host.place.nextSeq,
              s.host.place.nextSeq + recordsFor ((s.batFrames batch.val).take count.val).length - 1, (s.batFrames batch.val).take count.val, none⟩] } }) ∧
  (∀ (seq : Nat), Completes (.journalDurable seq)
      (fun s => s.jrnDur ≤ seq % 2 ^ 64 ∧ s.host.place.waiting = [])
      [.events, .regs, .mem, .host, .out]
      fun s t => t.pair R.HC_JRN_DUR_LO = seq % 2 ^ 64 ∧ (t.jrnPending < 4096 → t.flag R.HC_PL_STATUS F.HC_PL_STATUS_RING_FULL = false) ∧
          t.host = s.host ∧ RegsBut [R.HC_JRN_DUR_LO, R.HC_JRN_DUR_HI, R.HC_PL_STATUS] s t ∧ t.mem = s.mem ∧ t.events = s.events) ∧
  (∀ (c : Chain) (rest : List Chain), Completes .chainApply
      (fun s => s.flag R.HC_PL_STATUS F.HC_PL_STATUS_REPLAY = false ∧ s.host.place.chains = c :: rest ∧ c.last ≤ s.jrnDur)
      [.events, .regs, .heads, .decode, .mem, .host, .out]
      fun _ t => t.host.place.applied = c.last ∧ t.host.place.chains = (c :: rest).filter (fun x => x.first != c.first)) ∧
  (Completes .chainApply
      (fun s => s.flag R.HC_PL_STATUS F.HC_PL_STATUS_REPLAY = true ∧ s.host.place.applied ≠ 0 ∧ s.host.place.ended = false ∧
          s.host.place.applied + 1 ≤ s.jrnDur ∧ s.recordGood (s.host.place.applied + 1) (s.host.place.applied + 1) = false)
      [.host]
      fun s t => t.host = { s.host with place := { s.host.place with ended := true } }) ∧
  (∀ (c : HostCmd), Completes .deferredApply
      (fun s => s.host.place.deferred.head?.bind s.cmdOf = some c ∧ c.kind = .write ∧ s.applyBlocked c (s.writeThrough c) = false ∧
          s.writeThrough c = false)
      [.events, .regs, .decode, .mem, .host, .out]
      fun s t => t.host.place.deferred = s.host.place.deferred.filter (fun x => x != c.stamp) ∧
          ((t.cmdOf c.stamp).map fun x => x.decided.isSome) = some true) ∧
  (∀ (c : HostCmd), Completes .deferredApply
      (fun s => s.host.place.deferred.head?.bind s.cmdOf = some c ∧ c.kind = .dsm ∧ s.trimBlocked c = false)
      [.events, .regs, .decode, .mem, .host, .out]
      fun s t => t.host.place.deferred = s.host.place.deferred.filter (fun x => x != c.stamp)) ∧
  (∀ (c : HostCmd) (b : Nat) (n : Namespace), Completes .deferredApply
      (fun s => s.host.place.deferred.head?.bind s.cmdOf = some c ∧ c.kind = .format ∧ s.nsCached (c.nsid - 1) = false ∧ s.freeBatch = some b ∧
          s.namespaceOf c.nsid = some n)
      [.events, .regs, .decode, .mem, .host, .out]
      fun s t => t.host = { s.host with place := { s.host.place with
            deferred := s.host.place.deferred.filter (fun x => x != c.stamp)
            batches := s.host.place.batches ++ [⟨b, [], [(journalKey 3 (c.nsid - 1) 0, nsopValue 2 (formatMode c n.mode) n.granules)]⟩]
            tracks := s.host.place.tracks ++ [⟨c.stamp, c.nsid, [], some b, false⟩] } }) ∧
  (∀ (c : HostCmd), Completes .deferredApply
      (fun s => s.host.place.deferred.head?.bind s.cmdOf = some c ∧ c.kind = .write ∧ s.applyBlocked c (s.writeThrough c) = true)
      [.events, .regs, .decode, .mem, .host, .out]
      fun s t => t.host = s.host ∧ t.mem = (s.slotState c.slot 1).mem) ∧
  (Completes .journalReplayStart
      (fun _ => True)
      [.events, .regs, .decode, .mem, .host, .out]
      fun s t => t.pair R.HC_JRN_DUR_LO = 0 ∧ t.flag R.HC_PL_STATUS F.HC_PL_STATUS_REPLAY = true ∧ t.flag R.HC_PL_STATUS F.HC_PL_STATUS_RING_FULL = false ∧
          t.host.place = { s.host.place with chains := [], waiting := [], nextSeq := 1, applied := 0, ended := false } ∧
          (∀ i : Fin 16, (t.namespaceOf (i.val + 1)).map (·.state) = (s.namespaceOf (i.val + 1)).map fun _ => 1)) ∧
  (Completes .replayEnd
      (fun s => s.flag R.HC_PL_STATUS F.HC_PL_STATUS_REPLAY = true)
      [.events, .regs, .decode, .host]
      fun s t => t.flag R.HC_PL_STATUS F.HC_PL_STATUS_REPLAY = false ∧ t.host.place = { s.host.place with nextSeq := max s.jrnDur s.host.place.applied + 1 } ∧
          (∀ i : Fin 16, (t.namespaceOf (i.val + 1)).map (·.state) ≠ some 1)) ∧
  (∀ (b : Fin 24) (u : Upset) (i : Ins) (o src dst len : Nat), Completes (.mmXfer b u)
      (fun s => Issues s b u i ∧ XferArgs s b i o src dst len ∧ i.fn = 3 ∧ (s.bob b).occupied < 32 ∧ s.memOn = true ∧ dst % 8 = 0 ∧ dst + len ≤ s.memSize ∧
          s.closedWrite dst len = false ∧ s.flag R.MC_FLIP_ADDR_HI F.MC_FLIP_ADDR_HI_ARMED = false)
      [.events, .regs, .seq, .mem, .out]
      fun s t => Tagged b i s t ∧ (t.bob b).arriving = (s.bob b).arriving ++ [xferEntry s b 0] ∧
          (∀ a : Nat, (t.memByte a).toNat = if dst ≤ a ∧ a < dst + len then src / 2 ^ (8 * ((a - dst) % 8)) % 256 else (s.memByte a).toNat)) ∧
  (∀ (b : Fin 24) (u : Upset) (i : Ins) (o src dst len : Nat), Completes (.mmXfer b u)
      (fun s => Issues s b u i ∧ XferArgs s b i o src dst len ∧ i.fn = 1 ∧ (s.bob b).occupied < 32 ∧ s.memOn = true ∧ dst % 8 = 0 ∧ dst + len ≤ s.memSize ∧
          s.closedWrite dst len = false ∧ s.flag R.MC_FLIP_ADDR_HI F.MC_FLIP_ADDR_HI_ARMED = false ∧ src + len ≤ 0x2000)
      [.events, .regs, .seq, .mem, .out]
      fun s t => Tagged b i s t ∧ (t.bob b).arriving = (s.bob b).arriving ++ [xferEntry s b 0] ∧
          (∀ a : Nat, t.memByte a = if dst ≤ a ∧ a < dst + len then byteAt (s.bob b).scratch (src + (a - dst)) else s.memByte a)) ∧
  (∀ (b : Fin 24) (u : Upset) (i : Ins) (o src dst len : Nat) (e : Nat), Completes (.mmXfer b u)
      (fun s => Issues s b u i ∧ XferArgs s b i o src dst len ∧ i.fn = 0 ∧ (s.bob b).occupied < 32 ∧ WordsClean s src len ∧
          dst = 0x100000 + e ∧ e + len ≤ 0x100000)
      [.events, .regs, .seq, .mem, .out]
      fun s t => (t.bob b).arriving = (s.bob b).arriving ++ [xferEntry s b 0] ∧
          (∀ a : Nat, byteAt t.seq.shared a = if e ≤ a ∧ a < e + len then s.memByte (src + (a - e)) else byteAt s.seq.shared a) ∧
          (t.bob b).scratch = (s.bob b).scratch) ∧
  (∀ (b : Fin 24) (u : Upset) (i : Ins) (o src dst len : Nat), Completes (.mmXfer b u)
      (fun s => Issues s b u i ∧ XferArgs s b i o src dst len ∧ i.fn = 2 ∧ (s.bob b).occupied < 32 ∧ WordsClean s src len ∧ dst % 8 = 0 ∧
          dst + len ≤ s.memSize ∧ s.closedWrite dst len = false ∧ s.flag R.MC_FLIP_ADDR_HI F.MC_FLIP_ADDR_HI_ARMED = false)
      [.events, .regs, .seq, .mem, .out]
      fun s t => Tagged b i s t ∧ (t.bob b).arriving = (s.bob b).arriving ++ [xferEntry s b 0] ∧
          (∀ a : Nat, t.memByte a = if dst ≤ a ∧ a < dst + len then s.memByte (src + (a - dst)) else s.memByte a)) ∧
  (∀ (b : Fin 24) (u : Upset) (i : Ins) (o src dst len : Nat), Completes (.mmXfer b u)
      (fun s => Issues s b u i ∧ XferArgs s b i o src dst len ∧ (i.fn = 1 ∨ i.fn = 2 ∨ i.fn = 3) ∧ (s.bob b).occupied < 32 ∧
          (s.memSize < dst + len ∨ s.closedWrite dst len = true))
      [.events, .regs, .seq, .mem, .out]
      fun s t => Tagged b i s t ∧ (t.bob b).arriving = (s.bob b).arriving ++ [xferEntry s b 1] ∧ t.mem = s.mem ∧ RegsBut [R.SQ_BOB_ISSUED b.val] s t ∧
          t.events = s.events)

/-- The queue engine takes the entry that arbitration picks into a free slot with a stamp above every earlier one, moves the queue's head and counts the fetch; an entry that fails a check completes with its status and an Error Information entry. A fetched admin command creates or deletes its queue, returns its page, sets or reads its feature, opens its namespace operation, stages its piece, sets the slot that runs next, answers its security protocol, aborts its target, or waits for an event; the data commands and the cartridge commands enter their range locks, in the table or behind the sump, and the others wait for their work order. -/
def Obligations.HostCommands : Prop :=
  (∀ (e : SqEntry) (data : List Byte) (walk : PtrWalk) (q : SubQ) (slot st : Nat), Completes (.commandFetch e data walk)
      (fun s => s.nextQueue.map (·.1) = some q ∧ s.freeSlot (q.qid == 0) = some slot ∧
          s.fetchFault q.fn (q.qid == 0) e (data.map (·.toNat)) walk = some st ∧ s.cmdOf s.fetchStamp = none ∧ (∀ r ∈ s.decode.runAhead, r.claim ≠ some s.fetchStamp) ∧ st ≠ 0 ∧ q.fn < 2)
      [.events, .regs, .host]
      fun s t => Fetched ((fetchedCmd s e data q slot).concluded st 0 [] s.host.nextSeq) q s t ∧
          (st ≠ stAborted → ((t.fnOf q.fn).errors.head?.map fun x => (x.status, x.cid, x.count)) = some (st, e.cid.val, (s.fnOf q.fn).errCount + 1)) ∧
          t.host.sqs = advanced q s.host.sqs ∧ t.host.locks = s.host.locks) ∧
  (∀ (e : SqEntry) (data : List Byte) (walk : PtrWalk) (q : SubQ) (slot : Nat), Completes (.commandFetch e data walk)
      (fun s => Fetching s false 0x00 e data walk q slot)
      [.events, .regs, .host]
      fun s t => Fetched (fetchedCmd s e data q slot) q s t ∧ t.host.locks = s.host.locks ∧ t.host.sqs = advanced q s.host.sqs) ∧
  (∀ (e : SqEntry) (q : SubQ) (slot : Nat), Completes (.deleteIoSq e)
      (fun s => Fetching s true 0x00 e [] .good q slot ∧ e.c10 % 65536 ≠ 0 ∧ (s.sq q.fn (e.c10 % 65536)).isSome = true ∧
          (∀ c ∈ s.host.cmds, ¬ (c.fn = q.fn ∧ c.sqid = e.c10 % 65536)))
      [.events, .regs, .host]
      fun s t => Fetched ((fetchedCmd s e [] q slot).concluded 0 0 [] s.host.nextSeq) q s t ∧ t.host.cqs = s.host.cqs ∧
          t.host.sqs = (advanced q s.host.sqs).filter fun x => !(x.fn == q.fn && x.qid == e.c10 % 65536)) ∧
  (∀ (e : SqEntry) (q : SubQ) (slot : Nat) (c : HostCmd), Completes (.deleteIoSq e)
      (fun s => Fetching s true 0x00 e [] .good q slot ∧ e.c10 % 65536 ≠ 0 ∧ (s.sq q.fn (e.c10 % 65536)).isSome = true ∧
          s.host.cmds = [c] ∧ c.fn = q.fn ∧ c.sqid = e.c10 % 65536 ∧ c.abortable = true ∧ c.order = .queued)
      [.events, .regs, .host, .decode, .sec]
      fun s t => t.host.cmds = [HostCmd.concluded { c with order := .returned, dataDue := false } stSqDeleted 0 [] s.host.nextSeq, (fetchedCmd s e [] q slot).concluded 0 0 [] (s.host.nextSeq + 1)] ∧
          t.host.sqs = (advanced q s.host.sqs).filter fun x => !(x.fn == q.fn && x.qid == e.c10 % 65536)) ∧
  (∀ (e : SqEntry) (q : SubQ) (slot : Nat), Completes (.deleteIoCq e)
      (fun s => Fetching s true 0x04 e [] .good q slot ∧ e.c10 % 65536 ≠ 0 ∧ (s.cq q.fn (e.c10 % 65536)).isSome = true ∧
          (∀ x ∈ s.host.sqs, ¬ (x.fn = q.fn ∧ x.cq = e.c10 % 65536)))
      [.events, .regs, .host]
      fun s t => Fetched ((fetchedCmd s e [] q slot).concluded 0 0 [] s.host.nextSeq) q s t ∧ t.host.sqs = advanced q s.host.sqs ∧
          t.host.cqs = s.host.cqs.filter fun x => !(x.fn == q.fn && x.qid == e.c10 % 65536)) ∧
  (∀ (e : SqEntry) (q : SubQ) (slot : Nat), Completes (.createIoSq e)
      (fun s => Fetching s true 0x01 e [] .good q slot ∧ testBitN e.c11 0 = true ∧ e.c10 % 65536 ≠ 0 ∧ e.c10 % 65536 ≤ s.maxQid ∧ s.sq q.fn (e.c10 % 65536) = none ∧
          e.c11 / 65536 % 65536 ≠ 0 ∧ (s.cq q.fn (e.c11 / 65536 % 65536)).isSome = true ∧ e.c10 / 65536 % 65536 ≠ 0 ∧
          e.c10 / 65536 % 65536 ≤ 4095 ∧ e.dptr0 % s.pageSize q.fn = 0)
      [.events, .regs, .host]
      fun s t => Fetched ((fetchedCmd s e [] q slot).concluded 0 0 [] s.host.nextSeq) q s t ∧ t.host.cqs = s.host.cqs ∧
          t.host.sqs = advanced q s.host.sqs ++ [⟨q.fn, e.c10 % 65536, e.dptr0, e.c10 / 65536 % 65536 + 1, e.c11 / 65536 % 65536, natBits e.c11 2 1, 0, 0⟩]) ∧
  (∀ (e : SqEntry) (q : SubQ) (slot : Nat), Completes (.createIoCq e)
      (fun s => Fetching s true 0x05 e [] .good q slot ∧ testBitN e.c11 0 = true ∧ e.c10 % 65536 ≠ 0 ∧ e.c10 % 65536 ≤ s.maxQid ∧ s.cq q.fn (e.c10 % 65536) = none ∧
          e.c10 / 65536 % 65536 ≠ 0 ∧ e.c10 / 65536 % 65536 ≤ 4095 ∧ e.c11 / 65536 % 65536 ≤ 256 ∧ e.dptr0 % s.pageSize q.fn = 0)
      [.events, .regs, .host]
      fun s t => Fetched ((fetchedCmd s e [] q slot).concluded 0 0 [] s.host.nextSeq) q s t ∧ t.host.sqs = advanced q s.host.sqs ∧
          t.host.cqs = s.host.cqs ++ [⟨q.fn, e.c10 % 65536, e.dptr0, e.c10 / 65536 % 65536 + 1, 0, 0, true, testBitN e.c11 1, e.c11 / 65536 % 65536, 0, 0⟩]) ∧
  (∀ (e : SqEntry) (walk : PtrWalk) (q : SubQ) (slot : Nat) (p : List Nat), Completes (.getLogPage e walk)
      (fun s => Fetching s true 0x02 e [] walk q slot ∧ testBitN e.c10 15 = true ∧ (e.c12 % 2 ^ 32 + e.c13 % 2 ^ 32 * 2 ^ 32) % 4 = 0 ∧
          (s.logPage q.fn (e.c10 % 256) ((e.c12 % 2 ^ 32 + e.c13 % 2 ^ 32 * 2 ^ 32) + transferBytes true e)).1 = some p)
      [.events, .regs, .host, .free]
      fun s t => Fetched ((fetchedCmd s e [] q slot).concluded 0 0 ((p.drop (e.c12 % 2 ^ 32 + e.c13 % 2 ^ 32 * 2 ^ 32)).take (transferBytes true e) ++
            List.replicate (transferBytes true e - ((p.drop (e.c12 % 2 ^ 32 + e.c13 % 2 ^ 32 * 2 ^ 32)).take (transferBytes true e)).length) 0) s.host.nextSeq) q s t) ∧
  (∀ (e : SqEntry) (walk : PtrWalk) (q : SubQ) (slot : Nat) (p : List Nat), Completes (.getLogPage e walk)
      (fun s => Fetching s true 0x02 e [] walk q slot ∧ testBitN e.c10 15 = false ∧ (e.c12 % 2 ^ 32 + e.c13 % 2 ^ 32 * 2 ^ 32) % 4 = 0 ∧ (s.fnOf q.fn).pending = [] ∧ q.fn < 2 ∧
          (s.logPage q.fn (e.c10 % 256) ((e.c12 % 2 ^ 32 + e.c13 % 2 ^ 32 * 2 ^ 32) + transferBytes true e)).1 = some p)
      [.events, .regs, .host, .free]
      fun s t => Fetched ((fetchedCmd s e [] q slot).concluded 0 0 ((p.drop (e.c12 % 2 ^ 32 + e.c13 % 2 ^ 32 * 2 ^ 32)).take (transferBytes true e) ++
            List.replicate (transferBytes true e - ((p.drop (e.c12 % 2 ^ 32 + e.c13 % 2 ^ 32 * 2 ^ 32)).take (transferBytes true e)).length) 0) s.host.nextSeq) q s t ∧
          (t.fnOf q.fn).posted = (s.fnOf q.fn).posted.filter (fun x => x.2 != e.c10 % 256) ∧
          (t.fnOf q.fn).changed = (if e.c10 % 256 = 4 then [] else (s.fnOf q.fn).changed)) ∧
  (∀ (e : SqEntry) (walk : PtrWalk) (q : SubQ) (slot : Nat), Completes (.identify e walk)
      (fun s => Fetching s true 0x06 e [] walk q slot ∧ (s.identify q.fn e).1 = 0)
      [.events, .regs, .host, .free]
      fun s t => Fetched ((fetchedCmd s e [] q slot).concluded 0 0 (s.identify q.fn e).2.1 s.host.nextSeq) q s t ∧ t.host.namespaces = s.host.namespaces) ∧
  (∀ (e : SqEntry) (q : SubQ) (slot : Nat) (c : HostCmd), Completes (.abort e)
      (fun s => Fetching s true 0x08 e [] .good q slot ∧ (s.host.cmds.filter fun x => x.kind == .abort && x.fn == q.fn && x.decided.isNone).length < 64 ∧ s.host.cmds.find? (fun x => x.fn == q.fn && x.sqid == e.c10 % 65536 && x.cid == e.c10 / 65536 % 65536) = some c ∧
          s.cmdOf c.stamp = some c ∧ c.abortable = true ∧ c.order = .queued)
      [.events, .regs, .host, .decode, .sec]
      fun s t => t.cmdOf c.stamp = some (HostCmd.concluded { c with order := .returned, dataDue := false } stAborted 0 [] s.host.nextSeq) ∧
          t.cmdOf s.fetchStamp = some { (fetchedCmd s e [] q slot) with target := some (c.stamp, true) } ∧
          t.fld (fnKey q.fn R.HC_ABORT_CNT) F.HC_ABORT_CNT_ABORTED =
            satAdd (2 ^ F.HC_ABORT_CNT_ABORTED.width - 1) (s.fld (fnKey q.fn R.HC_ABORT_CNT) F.HC_ABORT_CNT_ABORTED) 1) ∧
  (∀ (e : SqEntry) (q : SubQ) (slot : Nat), Completes (.abort e)
      (fun s => Fetching s true 0x08 e [] .good q slot ∧ (s.host.cmds.filter fun x => x.kind == .abort && x.fn == q.fn && x.decided.isNone).length < 64 ∧ s.host.cmds.find? (fun x => x.fn == q.fn && x.sqid == e.c10 % 65536 && x.cid == e.c10 / 65536 % 65536) = none ∧
          ¬ (q.qid = e.c10 % 65536 ∧ e.cid.val = e.c10 / 65536 % 65536))
      [.events, .regs, .host]
      fun s t => Fetched ((fetchedCmd s e [] q slot).concluded 0 1 [] s.host.nextSeq) q s t) ∧
  (∀ (e : SqEntry) (q : SubQ) (slot : Nat), Completes (.asynchronousEventRequest e)
      (fun s => Fetching s true 0x0C e [] .good q slot ∧ (s.host.cmds.filter fun x => x.kind == .aer && x.fn == q.fn && x.decided.isNone).length < 16 ∧
          (s.fnOf q.fn).pending = [])
      [.events, .regs, .host]
      fun s t => Fetched (fetchedCmd s e [] q slot) q s t) ∧
  (∀ (e : SqEntry) (q : SubQ) (slot : Nat) (v : AsyncEv), Completes (.asynchronousEventRequest e)
      (fun s => Fetching s true 0x0C e [] .good q slot ∧ s.openAer q.fn = none ∧ (s.fnOf q.fn).pending = [v] ∧ (s.fnOf q.fn).typeHeld v.type = false ∧ q.fn < 2)
      [.events, .regs, .host]
      fun s t => Fetched ((fetchedCmd s e [] q slot).concluded 0 (v.type + v.info * 256 + v.lid * 65536) [] s.host.nextSeq) q s t ∧ (t.fnOf q.fn).pending = [] ∧ (t.fnOf q.fn).posted = (v.type, v.lid) :: (s.fnOf q.fn).posted) ∧
  (∀ (e : SqEntry) (q : SubQ) (slot : Nat), Completes (.setFeatures e)
      (fun s => Fetching s true 0x09 e [] .good q slot ∧ featureFault e = none ∧ e.c10 % 256 ≠ 7 ∧ q.fn < 2)
      [.events, .regs, .host]
      fun s t => Fetched ((fetchedCmd s e [] q slot).concluded 0 0 [] s.host.nextSeq) q s t ∧
          t.feature q.fn (e.c10 % 256) (featureSel e) = (if e.c10 % 256 = 4 then e.c11 % 65536 else e.c11 % 2 ^ 32)) ∧
  (∀ (e : SqEntry) (q : SubQ) (slot : Nat), Completes (.setFeatures e)
      (fun s => Fetching s true 0x09 e [] .good q slot ∧ featureFault e = none ∧ e.c10 % 256 = 7)
      [.events, .regs, .host]
      fun s t => Fetched ((fetchedCmd s e [] q slot).concluded 0 s.queueCount [] s.host.nextSeq) q s t) ∧
  (∀ (e : SqEntry) (q : SubQ) (slot : Nat), Completes (.getFeatures e)
      (fun s => Fetching s true 0x0A e [] .good q slot ∧ (s.getFeatures q.fn e).1 = 0)
      [.events, .regs, .host]
      fun s t => Fetched ((fetchedCmd s e [] q slot).concluded 0 (s.getFeatures q.fn e).2.1 [] s.host.nextSeq) q s t) ∧
  (∀ (e : SqEntry) (data : List Byte) (walk : PtrWalk) (q : SubQ) (slot : Nat) (k b : Nat), Completes (.namespaceManagement e data walk)
      (fun s => Fetching s true 0x0D e data walk q slot ∧ data.length = transferBytes true e ∧ e.c10 % 16 = 0 ∧ fieldAt (data.map (·.toNat)) 0 8 ≠ 0 ∧ fieldAt (data.map (·.toNat)) 8 8 = fieldAt (data.map (·.toNat)) 0 8 ∧
          fieldAt (data.map (·.toNat)) 26 1 = 0 ∧ fieldAt (data.map (·.toNat)) 29 1 = 0 ∧ fieldAt (data.map (·.toNat)) 3072 1 % 4 ≠ 3 ∧
          s.host.namespaces.toList.foldl (fun a n => a + ((n.map (·.granules)).getD 0)) 0 + ceilDiv (fieldAt (data.map (·.toNat)) 0 8) 16 ≤ s.plMapBytes / 8 ∧
          (s.mapRoom (ceilDiv (fieldAt (data.map (·.toNat)) 0 8) 16)).isSome = true ∧ ((List.range 16).find? fun k => (s.namespaceOf (k + 1)).isNone) = some k ∧ s.freeBatch = some b)
      [.events, .regs, .mem, .host, .out]
      fun s t => t.cmdOf s.fetchStamp = some { (fetchedCmd s e data q slot) with nlb := fieldAt (data.map (·.toNat)) 0 8, accepted := some ⟨k + 1⟩ } ∧
          t.host.place.tracks = s.host.place.tracks ++ [⟨s.fetchStamp, e.nsid, [], some b, false⟩] ∧
          t.host.place.batches = s.host.place.batches ++
            [⟨b, [], [(journalKey 3 k 0, nsopValue 0 (fieldAt (data.map (·.toNat)) 3072 1 % 4) (ceilDiv (fieldAt (data.map (·.toNat)) 0 8) 16))]⟩] ∧
          t.host.namespaces = s.host.namespaces) ∧
  (∀ (e : SqEntry) (data : List Byte) (walk : PtrWalk) (q : SubQ) (slot : Nat) (n : Namespace) (b : Nat), Completes (.namespaceManagement e data walk)
      (fun s => Fetching s true 0x0D e data walk q slot ∧ data.length = transferBytes true e ∧ e.c10 % 16 = 1 ∧ e.nsid ≠ 0xFFFFFFFF ∧ s.namespaceOf e.nsid = some n ∧ s.freeBatch = some b)
      [.events, .regs, .mem, .host, .out]
      fun s t => t.cmdOf s.fetchStamp = some { (fetchedCmd s e data q slot) with accepted := some ⟨0⟩ } ∧
          t.host.place.tracks = s.host.place.tracks ++ [⟨s.fetchStamp, e.nsid, [], some b, false⟩] ∧
          t.host.place.batches = s.host.place.batches ++ [⟨b, [], [(journalKey 3 (e.nsid - 1) 0, nsopValue 1 0 n.granules)]⟩]) ∧
  (∀ (e : SqEntry) (data : List Byte) (walk : PtrWalk) (q : SubQ) (slot : Nat) (n : Namespace) (ids : List Nat), Completes (.namespaceAttachment e data walk)
      (fun s => Fetching s true 0x15 e data walk q slot ∧ data.length = transferBytes true e ∧ e.c10 % 16 = 0 ∧ s.namespaceOf e.nsid = some n ∧ ((List.range (min 2047 (fieldAt (data.map (·.toNat)) 0 2))).map fun i => fieldAt (data.map (·.toNat)) (2 + 2 * i) 2) = ids ∧ ids ≠ [] ∧
          (∀ k ∈ ids, k < s.functions.length ∧ k ∉ n.attached))
      [.events, .regs, .host]
      fun s t => t.namespaceOf e.nsid = some { n with attached := n.attached ++ ids } ∧ Decides s.fetchStamp 0 0 t ∧
          (∀ f ∈ s.functions, e.nsid ∈ (t.fnOf f.val).changed)) ∧
  (∀ (e : SqEntry) (data : List Byte) (walk : PtrWalk) (q : SubQ) (slot : Nat) (n : Namespace) (ids : List Nat), Completes (.namespaceAttachment e data walk)
      (fun s => Fetching s true 0x15 e data walk q slot ∧ data.length = transferBytes true e ∧ e.c10 % 16 = 1 ∧ s.namespaceOf e.nsid = some n ∧ ((List.range (min 2047 (fieldAt (data.map (·.toNat)) 0 2))).map fun i => fieldAt (data.map (·.toNat)) (2 + 2 * i) 2) = ids ∧ ids ≠ [] ∧
          (∀ k ∈ ids, k < s.functions.length ∧ k ∈ n.attached))
      [.events, .regs, .host]
      fun s t => t.namespaceOf e.nsid = some { n with attached := n.attached.filter fun k => !ids.contains k } ∧ Decides s.fetchStamp 0 0 t) ∧
  (∀ (e : SqEntry) (data : List Byte) (walk : PtrWalk) (q : SubQ) (slot : Nat), Completes (.firmwareImageDownload e data walk)
      (fun s => Fetching s true 0x11 e data walk q slot ∧ data.length = transferBytes true e ∧ ¬ (s.boot.noImage = true ∧ s.memOn = false) ∧ 4 * (e.c11 % 2 ^ 32) + transferBytes true e ≤ 0x4000000 ∧
          (∀ p ∈ s.host.pieces, p.1 + p.2 ≤ 4 * (e.c11 % 2 ^ 32) ∨ 4 * (e.c11 % 2 ^ 32) + transferBytes true e ≤ p.1))
      [.events, .regs, .mem, .host, .out]
      fun s t => Fetched ((fetchedCmd s e data q slot).concluded 0 0 [] s.host.nextSeq) q s t ∧ t.host.pieces = s.host.pieces ++ [(4 * (e.c11 % 2 ^ 32), transferBytes true e)]) ∧
  (∀ (e : SqEntry) (q : SubQ) (slot : Nat), Completes (.firmwareCommit e)
      (fun s => Fetching s true 0x10 e [] .good q slot ∧ natBits e.c10 5 3 = 2 ∧ (s.commitSlot (natBits e.c10 2 0)) ≤ 2 ∧ s.mcActive = false ∧
          (∀ x ∈ s.host.cmds, x.kind = .cartLoad ∨ x.kind = .cartRelease → x.decided.isSome = true) ∧ s.host.commit = none ∧ s.host.activation = none)
      [.events, .regs, .host, .sec]
      fun s t => ((s.directory.map fun d => d.len (s.commitSlot (natBits e.c10 2 0)) != 0) = some true →
            Decides s.fetchStamp 0 0 t ∧ t.sec = (s.writeDir { (s.directory.getD noDirectory) with next := (s.commitSlot (natBits e.c10 2 0)) }).sec) ∧
          ((s.directory.map fun d => d.len (s.commitSlot (natBits e.c10 2 0)) != 0) ≠ some true → Decides s.fetchStamp 0x107 0 t ∧ t.sec = s.sec) ∧ t.host.pieces = s.host.pieces) ∧
  (∀ (e : SqEntry) (q : SubQ) (slot : Nat), Completes (.firmwareCommit e)
      (fun s => Fetching s true 0x10 e [] .good q slot ∧ natBits e.c10 5 3 ≤ 3 ∧ natBits e.c10 5 3 ≠ 2 ∧ (natBits e.c10 5 3 = 3 → s.boot.noImage = false) ∧ (s.commitSlot (natBits e.c10 2 0)) ≤ 2 ∧ s.mcActive = false ∧
          (∀ x ∈ s.host.cmds, x.kind = .cartLoad ∨ x.kind = .cartRelease → x.decided.isSome = true) ∧ s.host.commit = none ∧ s.host.activation = none ∧ s.stagedImage.length ≤ slotBytes)
      [.events, .regs, .host]
      fun s t => (verified (s.verifyPackage s.stagedImage) = true ∧ (natBits e.c10 5 3 = 3 → (s.sec.running.map fun r => recordKeeps r.record ((s.stagedImage.drop 256).take 512)) = some true) →
            t.host.commit = some ⟨s.fetchStamp, (s.commitSlot (natBits e.c10 2 0)), natBits e.c10 5 3, s.stagedImage.length, false⟩ ∧ Fetched (fetchedCmd s e [] q slot) q s t) ∧
          (verified (s.verifyPackage s.stagedImage) = true ∧ natBits e.c10 5 3 = 3 ∧ (s.sec.running.map fun r => recordKeeps r.record ((s.stagedImage.drop 256).take 512)) ≠ some true →
            t.host.commit = none ∧ Decides s.fetchStamp 0x10B 0 t) ∧
          (verified (s.verifyPackage s.stagedImage) = false → t.host.commit = none ∧ t.host.pieces = [] ∧ Decides s.fetchStamp 0x107 0 t)) ∧
  (∀ (upset : Bool) (j : CommitJob) (c : HostCmd), Completes (.firmwareCommitWriteDone upset)
      (fun s => s.host.commit = some j ∧ j.written = false ∧ s.cmdOf j.cmd = some c ∧ c.decided = none ∧ c.stamp = j.cmd)
      [.events, .decode, .host, .sec]
      fun s t => t.host.pieces = [] ∧
          (¬ (upset = false ∧ verified ((s.flashWrite (slotBase j.slot) (s.stagedImage.take j.len)).verifyPackage
              ((s.flashWrite (slotBase j.slot) (s.stagedImage.take j.len)).flashRead (slotBase j.slot) j.len)) = true) → t.host.commit = none ∧ Decides j.cmd 0x107 0 t ∧
            t.sec = (s.flashWrite (slotBase j.slot) (s.stagedImage.take j.len)).sec) ∧
          ((upset = false ∧ verified ((s.flashWrite (slotBase j.slot) (s.stagedImage.take j.len)).verifyPackage
              ((s.flashWrite (slotBase j.slot) (s.stagedImage.take j.len)).flashRead (slotBase j.slot) j.len)) = true) → if j.ca = 3 then t.host.commit = some { j with written := true } ∧ t.sec.staged.isSome = true
            else t.host.commit = none ∧ Decides j.cmd 0 0 t)) ∧
  (∀ (e : SqEntry) (data : List Byte) (walk : PtrWalk) (q : SubQ) (slot : Nat), Completes (.securitySend e data walk)
      (fun s => Fetching s true 0x81 e data walk q slot ∧ data.length = transferBytes true e ∧ e.c10 / 2 ^ 24 % 256 = 0xE8 ∧ q.fn < 2 ∧ msgByte (toBytes ((data.map (·.toNat)).take (e.c11 % 2 ^ 32))) 1 = 0x84)
      [.events, .regs, .host, .sec]
      fun s t => Fetched ((fetchedCmd s e data q slot).concluded 0 0 [] s.host.nextSeq) q s t ∧
          t.sec.replies = s.sec.replies ++ [(q.fn, 0x04, [0x12])]) ∧
  (∀ (e : SqEntry) (walk : PtrWalk) (q : SubQ) (slot : Nat) (r : Nat × Nat × List Nat), Completes (.securityReceive e walk)
      (fun s => Fetching s true 0x82 e [] walk q slot ∧ e.c10 / 2 ^ 24 % 256 = 0xE8 ∧ s.sec.replies.find? (fun x => x.1 == q.fn) = some r)
      [.events, .regs, .host, .sec]
      fun s t => Fetched ((fetchedCmd s e [] q slot).concluded 0 0 ((0x12 :: r.2.1 :: r.2.2).take (e.c11 % 2 ^ 32) ++
            List.replicate (e.c11 % 2 ^ 32 - (0x12 :: r.2.1 :: r.2.2).length) 0) s.host.nextSeq) q s t ∧ t.sec = { s.sec with replies := s.sec.replies.erase r }) ∧
  (∀ (e : SqEntry) (walk : PtrWalk) (q : SubQ) (slot : Nat), Completes (.securityReceive e walk)
      (fun s => Fetching s true 0x82 e [] walk q slot ∧ e.c10 / 2 ^ 24 % 256 = 0)
      [.events, .regs, .host]
      fun s t => Fetched ((fetchedCmd s e [] q slot).concluded 0 0 ([0, 0, 0, 0, 0, 0, 0, 2, 0x00, 0xE8].take (e.c11 % 2 ^ 32) ++ List.replicate (e.c11 % 2 ^ 32 - 10) 0) s.host.nextSeq) q s t) ∧
  (∀ (e : SqEntry) (walk : PtrWalk) (q : SubQ) (slot : Nat), Completes (.read e walk)
      (fun s => Fetching s false 0x02 e [] walk q slot ∧ s.host.locks.length < 1024 ∧ s.host.sump = [])
      [.events, .regs, .host]
      fun s t => Fetched (fetchedCmd s e [] q slot) q s t ∧ t.host.locks = s.host.locks ++ (fetchedCmd s e [] q slot).lockReqs slot ∧ t.host.sump = []) ∧
  (∀ (e : SqEntry) (walk : PtrWalk) (q : SubQ) (slot : Nat), Completes (.write e walk)
      (fun s => Fetching s false 0x01 e [] walk q slot ∧ s.host.locks.length < 1024 ∧ s.host.sump = [])
      [.events, .regs, .host]
      fun s t => Fetched (fetchedCmd s e [] q slot) q s t ∧ t.host.locks = s.host.locks ++ (fetchedCmd s e [] q slot).lockReqs slot ∧ t.host.sump = []) ∧
  (∀ (e : SqEntry) (q : SubQ) (slot : Nat), Completes (.verify e)
      (fun s => Fetching s false 0x0C e [] .good q slot ∧ s.host.locks.length < 1024 ∧ s.host.sump = [])
      [.events, .regs, .host]
      fun s t => Fetched (fetchedCmd s e [] q slot) q s t ∧ t.host.locks = s.host.locks ++ (fetchedCmd s e [] q slot).lockReqs slot ∧ t.host.sump = []) ∧
  (∀ (e : SqEntry) (q : SubQ) (slot : Nat), Completes (.formatNvm e)
      (fun s => Fetching s true 0x80 e [] .good q slot ∧ s.host.locks.length < 1024 ∧ s.host.sump = [])
      [.events, .regs, .host]
      fun s t => Fetched (fetchedCmd s e [] q slot) q s t ∧ t.host.locks = s.host.locks ++ (fetchedCmd s e [] q slot).lockReqs slot ∧ t.host.sump = []) ∧
  (∀ (e : SqEntry) (q : SubQ) (slot : Nat), Completes (.cartridgeLoad e)
      (fun s => Fetching s true 0xC4 e [] .good q slot ∧ s.host.locks.length < 1024 ∧ s.host.sump = [])
      [.events, .regs, .host]
      fun s t => Fetched (fetchedCmd s e [] q slot) q s t ∧ t.host.locks = s.host.locks ++ (fetchedCmd s e [] q slot).lockReqs slot ∧ t.host.sump = []) ∧
  (∀ (e : SqEntry) (q : SubQ) (slot : Nat), Completes (.cartridgeRelease e)
      (fun s => Fetching s true 0xC8 e [] .good q slot ∧ s.host.locks.length < 1024 ∧ s.host.sump = [])
      [.events, .regs, .host]
      fun s t => Fetched (fetchedCmd s e [] q slot) q s t ∧ t.host.locks = s.host.locks ++ (fetchedCmd s e [] q slot).lockReqs slot ∧ t.host.sump = []) ∧
  (∀ (e : SqEntry) (walk : PtrWalk) (q : SubQ) (slot : Nat), Completes (.write e walk)
      (fun s => Fetching s false 0x01 e [] walk q slot ∧ s.host.sump ≠ [] ∧ s.host.sump.length + 1 < sumpSize)
      [.events, .regs, .host]
      fun s t => Fetched (fetchedCmd s e [] q slot) q s t ∧ t.host.locks = s.host.locks ∧ t.host.sump = s.host.sump ++ (fetchedCmd s e [] q slot).lockReqs slot) ∧
  (∀ (e : SqEntry) (data : List Byte) (walk : PtrWalk) (q : SubQ) (slot : Nat), Completes (.datasetManagement e data walk)
      (fun s => Fetching s false 0x09 e data walk q slot ∧ data.length = transferBytes false e ∧ e.deallocate = true ∧ s.host.locks.length + (dsmRanges e (data.map (·.toNat))).length ≤ 1024 ∧ s.host.sump = [])
      [.events, .regs, .mem, .host, .out]
      fun s t => Fetched (fetchedCmd s e data q slot) q s t ∧ t.host.locks = s.host.locks ++ (fetchedCmd s e data q slot).lockReqs slot ∧ t.host.sump = []) ∧
  (∀ (e : SqEntry) (data : List Byte) (walk : PtrWalk) (q : SubQ) (slot : Nat), Completes (.datasetManagement e data walk)
      (fun s => Fetching s false 0x09 e data walk q slot ∧ data.length = transferBytes false e ∧ e.deallocate = false)
      [.events, .regs, .host]
      fun s t => Fetched ((fetchedCmd s e data q slot).concluded 0 0 [] s.host.nextSeq) q s t ∧ t.host.locks = s.host.locks) ∧
  (∀ (e : SqEntry) (q : SubQ) (slot : Nat), Completes (.flush e)
      (fun s => Fetching s false 0x00 e [] .good q slot)
      [.events, .regs, .host]
      fun s t => Fetched (fetchedCmd s e [] q slot) q s t ∧ t.host.locks = s.host.locks ∧ t.host.place = s.host.place) ∧
  (∀ (e : SqEntry) (walk : PtrWalk) (q : SubQ) (slot : Nat), Completes (.sequencerCall e walk)
      (fun s => Fetching s true 0xC3 e [] walk q slot)
      [.events, .regs, .host]
      fun s t => Fetched (fetchedCmd s e [] q slot) q s t ∧ t.host.locks = s.host.locks ∧ t.host.place = s.host.place) ∧
  (∀ (e : SqEntry) (walk : PtrWalk) (q : SubQ) (slot : Nat), Completes (.mediumHealthReport e walk)
      (fun s => Fetching s true 0xC6 e [] walk q slot)
      [.events, .regs, .host]
      fun s t => Fetched (fetchedCmd s e [] q slot) q s t ∧ t.host.locks = s.host.locks ∧ t.host.place = s.host.place)

/-- Doorbells move their queue's tail or head. A lock is granted that no earlier conflicting request holds back; data that arrive and orders that are due reach the queue, and WO.GET, WO.DONE and WO.AEN take, end and announce. A decided completion that is first of its queue is posted, with its slot, locks and place in the queue; a snip finds its target at its request and ends it with Command Abort Requested when it is resolved, and a WO.DONE in between is stale. A function that is enabled has its admin queues and rises to RDY with HOST_READY; a reset discards its commands, queues and own registers once no pass is open, and waits where one is; shutdowns show their progress in SHST. An activation stops fetch, ends what is left at its deadline, and completes with its Firmware Commit. A configuration request and the SMBus are answered. -/
def Obligations.HostControl : Prop :=
  (∀ (fn : Fin 2) (qid : Nat) (tail : Nat) (q : SubQ), Completes (.sqTailDoorbell fn qid tail)
      (fun s => s.doorbells fn.val = true ∧ s.sq fn.val qid = some q ∧ tail < q.size)
      [.host]
      fun s t => t.sq fn.val qid = some { q with tail := tail } ∧
          t.host = { s.host with sqs := s.host.sqs.map fun x => if x.fn = fn.val ∧ x.qid = qid then (if tail < x.size then { x with tail := tail } else x) else x }) ∧
  (∀ (fn : Fin 2) (qid : Nat) (tail : Nat), Completes (.sqTailDoorbell fn qid tail)
      (fun s => s.enabled fn.val = false)
      []
      fun _ _ => True) ∧
  (∀ (fn : Fin 2) (qid : Nat) (head : Nat) (q : CmpQ), Completes (.cqHeadDoorbell fn qid head)
      (fun s => s.doorbells fn.val = true ∧ s.cq fn.val qid = some q ∧ head < q.size)
      [.host]
      fun s t => t.cq fn.val qid = some { q with head := head } ∧ t.host.sqs = s.host.sqs ∧ t.host.cmds = s.host.cmds) ∧
  (∀ (slot : Fin 8192) (idx : Nat) (c : HostCmd) (r : LockReq), Completes (.rangeLockGrant slot idx)
      (fun s => s.cmdAt slot.val = some c ∧ (s.host.locks.filter fun x => x.slot == slot.val)[idx]? = some r ∧ r.granted = false ∧
          (∀ x ∈ s.host.locks, x.stamp < r.stamp → x.conflicts r = false) ∧ s.runAheadUnder c = false)
      [.host]
      fun s t => t.host = { s.host with locks := s.host.locks.map fun x => if x = r then { x with granted := true } else x }) ∧
  (∀ (slot : Fin 8192) (idx : Nat) (r x : LockReq), Completes (.rangeLockGrant slot idx)
      (fun s => (s.host.locks.filter fun x => x.slot == slot.val)[idx]? = some r ∧ x ∈ s.host.locks ∧ x.stamp < r.stamp ∧ x.conflicts r = true)
      []
      fun _ _ => True) ∧
  (∀ (slot : Fin 8192) (data : List Byte) (c : HostCmd), Completes (.writeDataArrived slot data)
      (fun s => s.cmdAt slot.val = some c ∧ s.cmdOf c.stamp = some c ∧ c.dataDue = true ∧
          (if c.kind = .write then data.length = 4096 * c.nlb else data.length ≤ 0x40000))
      [.events, .regs, .mem, .host, .out]
      fun s t => t.cmdOf c.stamp = some { c with dataDue := false } ∧ t.mem = (s.memWrite 6 (s.dataArea slot.val) (data.map (·.toNat))).mem) ∧
  (∀ (slot : Fin 8192) (c : HostCmd), Completes (.workOrderIssue slot)
      (fun s => s.cmdAt slot.val = some c ∧ s.cmdOf c.stamp = some c ∧ s.orderDue c = true ∧ c.kind.looksUp = false)
      [.seq, .host]
      fun s t => t.cmdOf c.stamp = some { c with order := .queued } ∧
          (∀ b : Fin 24, (s.bob b).wantsOrder = true → (s.bob b).occupied < 32 →
            t.bob b = { s.bob b with wantsOrder := false, arriving := (s.bob b).arriving ++ [⟨s.stamp .host, workOrderTag, .workOrder, 0, 0, srcHost 0, (s.bob b).epoch, false⟩] }) ∧
          (∀ b : Fin 24, (s.bob b).wantsOrder = false → t.bob b = s.bob b)) ∧
  (∀ (slot : Fin 8192) (c : HostCmd), Completes (.workOrderIssue slot)
      (fun s => s.cmdAt slot.val = some c ∧ s.cmdOf c.stamp = some c ∧ s.orderDue c = true ∧ c.kind.looksUp = true ∧ (s.writeSlotRecord c).1 = true)
      [.events, .regs, .heads, .decode, .seq, .mem, .host, .sec, .out]
      fun s t => (t.cmdOf c.stamp).map (·.order) = some .queued ∧ (c.kind ≠ .read → t.mem = (s.writeSlotRecord c).2.mem)) ∧
  (∀ (b : Fin 24) (u : Upset) (i : Ins) (p : Space) (c : HostCmd), Completes (.woGet b u)
      (fun s => Issues s b u i ∧ i.op = 0x74 ∧ s.capBit b famWO = true ∧ scratchAt (valA s b i).toNat 64 = .ok p ∧ s.host.notices = [] ∧
          s.nextOrder = some c ∧ s.cmdOf c.stamp = some c)
      [.events, .regs, .seq, .host]
      fun s t => t.bob b = { ((s.bob b).past i s.now).putPred i.rd true with scratch := (t.bob b).scratch } ∧ (t.spaceRead b p 64).take 48 =
            natBytes 8 c.stamp ++ natBytes 2 c.slot ++ [c.kind.orderKind.getD 0, (c.fn + 2 * bitOf c.fua) % 256] ++ natBytes 4 c.nsid ++
              natBytes 8 c.firstRange.1 ++ natBytes 4 c.firstRange.2 ++ natBytes 4 0 ++ natBytes 8 (s.dataArea c.slot) ++
              natBytes 8 (if c.kind.looksUp then s.slotRecAddr c.slot else 0) ∧
          (4 ≤ c.cdw.length → (t.spaceRead b p 64).drop 48 =
            if 6 ≤ c.kind.orderKind.getD 0 then (c.cdw.take 4).flatMap (natBytes 4) else List.replicate 16 0) ∧
          t.cmdOf c.stamp = some { c with order := .taken b } ∧ (∀ d : Fin 24, d ≠ b → t.bob d = s.bob d) ∧ RegsBut [R.SQ_BOB_ISSUED b.val] s t) ∧
  (∀ (b : Fin 24) (u : Upset) (i : Ins) (p : Space) (x : Notice) (rest : List Notice), Completes (.woGet b u)
      (fun s => Issues s b u i ∧ i.op = 0x74 ∧ s.capBit b famWO = true ∧ scratchAt (valA s b i).toNat 64 = .ok p ∧ s.host.notices = x :: rest)
      [.events, .regs, .seq, .host]
      fun s t => t.bob b = { ((s.bob b).past i s.now).putPred i.rd true with scratch := (t.bob b).scratch } ∧ 
          t.spaceRead b p 64 = natBytes 8 x.stamp ++ natBytes 2 x.slot ++ [11, x.fn % 256] ++ List.replicate 52 0 ∧
          t.host.notices = rest ∧ t.host.cmds = s.host.cmds ∧ (∀ d : Fin 24, d ≠ b → t.bob d = s.bob d) ∧ RegsBut [R.SQ_BOB_ISSUED b.val] s t) ∧
  (∀ (b : Fin 24) (u : Upset) (i : Ins) (p : Space), Completes (.woGet b u)
      (fun s => Issues s b u i ∧ i.op = 0x74 ∧ s.capBit b famWO = true ∧ scratchAt (valA s b i).toNat 64 = .ok p ∧ s.host.notices = [] ∧ s.nextOrder = none)
      [.events, .regs, .seq, .host]
      fun s t => Becomes b { (((s.bob b).past i s.now).putPred i.rd false) with wantsOrder := true } s t ∧ t.host = s.host ∧ t.events = s.events) ∧
  (∀ (b : Fin 24) (u : Upset) (i : Ins) (p : Space) (c : HostCmd) (a : Fin 24), Completes (.woDone b u)
      (fun s => Issues s b u i ∧ i.op = 0x75 ∧ s.capBit b famWO = true ∧ scratchAt (valA s b i).toNat 16 = .ok p ∧
          OrderOut s (fieldAt (s.spaceRead b p 16) 0 2) c a ∧ c.kind = .read ∧ fieldAt (s.spaceRead b p 16) 2 2 / 2 % 2048 = 0 ∧
          (∀ k : Fin 2, (s.fnOf k.val).phase = .running))
      [.events, .regs, .heads, .decode, .seq, .mem, .host, .out]
      fun s t => WritesRd b i 0 s t ∧ t.host.reads = s.host.reads + 1 ∧ t.host.blocksRead = s.host.blocksRead + c.nlb ∧
          t.cmdOf c.stamp = some (HostCmd.concluded { c with order := .returned, accepted := some ⟨fieldAt (s.spaceRead b p 16) 4 4⟩ } 0
            (fieldAt (s.spaceRead b p 16) 4 4) [] s.host.nextSeq)) ∧
  (∀ (b : Fin 24) (u : Upset) (i : Ins) (p : Space) (c : HostCmd) (a : Fin 24), Completes (.woDone b u)
      (fun s => Issues s b u i ∧ i.op = 0x75 ∧ s.capBit b famWO = true ∧ scratchAt (valA s b i).toNat 16 = .ok p ∧
          OrderOut s (fieldAt (s.spaceRead b p 16) 0 2) c a ∧ c.kind = .flush ∧ fieldAt (s.spaceRead b p 16) 2 2 / 2 % 2048 = 0 ∧
          s.host.cmds = [c] ∧ s.flushBlocked c.stamp c.nsid = false)
      [.events, .regs, .heads, .decode, .seq, .mem, .host, .out]
      fun s t => t.host.cmds = [HostCmd.concluded { c with order := .returned, accepted := some ⟨fieldAt (s.spaceRead b p 16) 4 4⟩ } 0 0 [] s.host.nextSeq]) ∧
  (∀ (b : Fin 24) (u : Upset) (i : Ins) (p : Space) (c : HostCmd) (a : Fin 24), Completes (.woDone b u)
      (fun s => Issues s b u i ∧ i.op = 0x75 ∧ s.capBit b famWO = true ∧ scratchAt (valA s b i).toNat 16 = .ok p ∧
          OrderOut s (fieldAt (s.spaceRead b p 16) 0 2) c a ∧ fieldAt (s.spaceRead b p 16) 2 2 / 2 % 2048 = stUnrecovered)
      [.events, .regs, .heads, .decode, .seq, .mem, .host, .out]
      fun s t => WritesRd b i 0 s t ∧ t.host.mediaErrors = s.host.mediaErrors + 1 ∧ Decides c.stamp stUnrecovered 0 t ∧
          (c.fn < 2 → ((t.fnOf c.fn).errors.head?.map fun x => (x.status, x.lba)) = some (stUnrecovered, c.slba + fieldAt (s.spaceRead b p 16) 4 4))) ∧
  (∀ (b : Fin 24) (u : Upset) (i : Ins) (p : Space), Completes (.woDone b u)
      (fun s => Issues s b u i ∧ i.op = 0x75 ∧ s.capBit b famWO = true ∧ scratchAt (valA s b i).toNat 16 = .ok p ∧
          s.cmdAt (fieldAt (s.spaceRead b p 16) 0 2) = none)
      [.events, .regs, .heads, .decode, .seq, .mem, .host, .out]
      fun s t => WritesRd b i 1 s t ∧ t.host = s.host ∧ t.events = s.events) ∧
  (∀ (b : Fin 24) (u : Upset) (i : Ins) (p : Space) (c : HostCmd), Completes (.woDone b u)
      (fun s => Issues s b u i ∧ i.op = 0x75 ∧ s.capBit b famWO = true ∧ scratchAt (valA s b i).toNat 16 = .ok p ∧
          s.cmdAt (fieldAt (s.spaceRead b p 16) 0 2) = some c ∧ s.snipHeld c.stamp = true)
      [.events, .regs, .heads, .decode, .seq, .mem, .host, .out]
      fun s t => WritesRd b i 1 s t ∧ t.host = s.host ∧ t.events = s.events) ∧
  (∀ (b : Fin 24) (u : Upset) (i : Ins), Completes (.woAen b u)
      (fun s => Issues s b u i ∧ i.op = 0x76 ∧ s.capBit b famWO = true)
      [.events, .regs, .decode, .seq, .host]
      fun s t => Becomes b ((s.bob b).past i s.now) s t ∧
          (∀ f ∈ s.functions,
            (s.eventEnabled f.val ⟨(valA s b i).toNat % 256, (valA s b i).toNat / 2 ^ 8 % 256, (valA s b i).toNat / 2 ^ 16 % 256⟩ = false →
              t.fnOf f.val = s.fnOf f.val) ∧
            (s.eventEnabled f.val ⟨(valA s b i).toNat % 256, (valA s b i).toNat / 2 ^ 8 % 256, (valA s b i).toNat / 2 ^ 16 % 256⟩ = true →
              s.openAer f.val = none → (s.fnOf f.val).pending = [] →
              (t.fnOf f.val).pending = [⟨(valA s b i).toNat % 256, (valA s b i).toNat / 2 ^ 8 % 256, (valA s b i).toNat / 2 ^ 16 % 256⟩]))) ∧
  (∀ (slot : Fin 8192) (c : HostCmd) (d : Decision) (q : CmpQ), Completes (.completionPost slot)
      (fun s => s.cmdAt slot.val = some c ∧ c.decided = some d ∧ s.cq c.fn c.cqid = some q ∧ (q.tail + 1) % q.size ≠ q.head ∧ s.snipHeld c.stamp = false ∧
          (∀ x ∈ s.host.cmds, x.fn = c.fn ∧ x.cqid = c.cqid → (x.decided.map fun y => decide (d.seq ≤ y.seq)) ≠ some false))
      [.events, .regs, .msix, .heads, .decode, .mem, .host, .sec, .out, .free]
      fun s t => Output.cqe c.fn c.cqid q.tail (cqeDwords d.dw0 (((s.sq c.fn c.sqid).map (·.head)).getD 0) c.sqid c.cid
              (if d.status = 0 ∧ (s.returnData c d).2.1 = false then stInternal else d.status) q.phase) ∈ t.out ∧
          (d.status = 0 → (s.returnData c d).2.1 = true → (s.returnData c d).1 ≠ [] → Output.hostData c.fn c.sqid c.cid (s.returnData c d).1 ∈ t.out) ∧
          (∀ x ∈ t.host.cmds, x.stamp ≠ c.stamp) ∧ (∀ r ∈ t.host.locks, r.stamp ≠ c.stamp) ∧
          (t.cq c.fn c.cqid).map (fun x => (x.tail, x.phase, x.head)) =
            some ((q.tail + 1) % q.size, (if (q.tail + 1) % q.size = 0 then !q.phase else q.phase), q.head)) ∧
  (∀ (slot : Fin 8192) (c : HostCmd) (d : Decision) (q : CmpQ), Completes (.completionPost slot)
      (fun s => s.cmdAt slot.val = some c ∧ c.decided = some d ∧ s.cq c.fn c.cqid = some q ∧ (q.tail + 1) % q.size = q.head)
      []
      fun _ _ => True) ∧
  (∀ (fn : Fin 2) (qid : Nat) (q : CmpQ), Completes (.interruptCoalescingTime fn qid)
      (fun s => s.cq fn.val qid = some q ∧ q.heldN ≠ 0 ∧ q.heldSince + s.feature fn.val 8 0 / 256 % 256 * 150000 ≤ s.now)
      [.msix, .host, .out]
      fun s t => t.cq fn.val qid = some { q with heldN := 0 } ∧ t.out = (s.sendVector fn q.iv).out ∧ t.msix = (s.sendVector fn q.iv).msix ∧
          t.host.cmds = s.host.cmds ∧ t.host.sqs = s.host.sqs) ∧
  (∀ (slot : Fin 8192) (c : HostCmd), Completes (.pcieDmaError slot)
      (fun s => s.cmdAt slot.val = some c ∧ s.cmdOf c.stamp = some c ∧ c.decided = none ∧ c.hasPtr = true ∧ (c.order = .notIssued ∨ c.order = .queued))
      [.host, .decode, .sec]
      fun s t => t.cmdOf c.stamp = some (HostCmd.concluded { c with order := .returned, dataDue := false } stTransfer 0 [] s.host.nextSeq)) ∧
  (∀ (slot : Fin 8192) (c : HostCmd) (d : Decision), Completes (.pcieDmaError slot)
      (fun s => s.cmdAt slot.val = some c ∧ s.cmdOf c.stamp = some c ∧ c.decided = some d ∧ d.status = 0 ∧ c.hasPtr = true)
      [.host]
      fun _ t => t.cmdOf c.stamp = some { c with decided := some { d with status := stTransfer, bytes := [] } }) ∧
  (∀ (fn : Fin 2) (sqid cid : Fin 65536), Completes (.snipRequest fn sqid cid)
      (fun s => (s.fnOf fn.val).snips.length < 64)
      [.host]
      fun s t => t.fnOf fn.val = { s.fnOf fn.val with snips := (s.fnOf fn.val).snips ++
              [⟨sqid.val, cid.val, s.stamp .host, (s.abortLook fn.val sqid.val cid.val).2.map fun x => (x.stamp, x.slot),
                (s.abortLook fn.val sqid.val cid.val).1.code⟩] } ∧
          t.host.cmds = s.host.cmds ∧ (∀ k : Fin 2, k ≠ fn → t.fnOf k.val = s.fnOf k.val)) ∧
  (∀ (fn : Fin 2) (sqid cid : Fin 65536), Completes (.snipRequest fn sqid cid)
      (fun s => 64 ≤ (s.fnOf fn.val).snips.length)
      [.events, .regs, .host]
      fun s t => t.host = s.host ∧ t.events = (s.logHost fn.val 0x7004 fn.val sqid.val cid.val).events ∧
          t.fld (fnKey fn.val R.SNIP_STATUS) F.SNIP_STATUS_DROPPED =
            satAdd (2 ^ F.SNIP_STATUS_DROPPED.width - 1) (s.fld (fnKey fn.val R.SNIP_STATUS) F.SNIP_STATUS_DROPPED) 1) ∧
  (∀ (fn : Fin 2) (x : Snip) (rest : List Snip) (c : HostCmd), Completes (.snipResolve fn)
      (fun s => (s.fnOf fn.val).snips = x :: rest ∧ x.result = 0 ∧ x.target = some (c.stamp, c.slot) ∧ s.cmdOf c.stamp = some c ∧ c.decided = none)
      [.regs, .decode, .seq, .host, .sec]
      fun s t => Decides c.stamp stAborted 0 t ∧ (t.fnOf fn.val).snips = rest ∧ t.fld (fnKey fn.val R.SNIP_STATUS) F.SNIP_STATUS_RESULT = 0 ∧
          t.fld (fnKey fn.val R.SNIP_STATUS) F.SNIP_STATUS_SLOT = c.slot % 16384 ∧
          t.fld (fnKey fn.val R.HC_ABORT_CNT) F.HC_ABORT_CNT_SNIPPED =
            satAdd (2 ^ F.HC_ABORT_CNT_SNIPPED.width - 1) (s.fld (fnKey fn.val R.HC_ABORT_CNT) F.HC_ABORT_CNT_SNIPPED) 1) ∧
  (∀ (fn : Fin 2) (x : Snip) (rest : List Snip), Completes (.snipResolve fn)
      (fun s => (s.fnOf fn.val).snips = x :: rest ∧ x.result ≠ 0)
      [.regs, .decode, .seq, .host, .sec]
      fun s t => t.host.cmds = s.host.cmds ∧ (t.fnOf fn.val).snips = rest ∧ t.fld (fnKey fn.val R.SNIP_STATUS) F.SNIP_STATUS_RESULT = x.result % 4 ∧
          t.fld (fnKey fn.val R.SNIP_STATUS) F.SNIP_STATUS_SLOT = ((x.target.map (·.2)).getD 0) % 16384 ∧
          RegsBut [fnKey fn.val R.SNIP_STATUS] s t ∧ t.seq = s.seq) ∧
  (∀ (fn : Fin 2) (cc : Word), Completes (.controllerEnable fn cc)
      (fun s => s.functions.contains fn = true ∧ s.enabled fn.val = false ∧ (s.fnOf fn.val).phase = .running ∧ natBits cc.toNat 19 16 = 6 ∧
          natBits cc.toNat 23 20 = 4)
      [.regs, .host]
      fun s t => t.enabled fn.val = true ∧ t.ctl fn.val nvmeCC ccShn = 0 ∧ t.ctl fn.val nvmeCC ccMps = natBits cc.toNat 10 7 ∧
          t.host.sqs = s.host.sqs ++ [⟨fn.val, 0, s.pair (fnKey fn.val nvmeASQ), (s.reg (fnKey fn.val nvmeAQA)).toNat % 4096 + 1, 0, 0, 0, 0⟩] ∧
          t.host.cqs = s.host.cqs ++ [⟨fn.val, 0, s.pair (fnKey fn.val nvmeACQ), (s.reg (fnKey fn.val nvmeAQA)).toNat / 65536 % 4096 + 1, 0, 0, true, true, 0, 0, 0⟩] ∧
          (s.flag R.SYS_BOOT F.SYS_BOOT_HOST_READY = true → t.rdy fn.val = true) ∧
          (s.flag R.SYS_BOOT F.SYS_BOOT_HOST_READY = false → (t.fnOf fn.val).wantsRdy = true ∧ t.rdy fn.val = s.rdy fn.val) ∧
          RegsBut [fnKey fn.val nvmeCC, fnKey fn.val nvmeCSTS] s t) ∧
  (∀ (fn : Fin 2) (cc : Word), Completes (.controllerEnable fn cc)
      (fun s => s.functions.contains fn = true ∧ s.enabled fn.val = false ∧ (s.fnOf fn.val).phase = .running ∧
          (natBits cc.toNat 19 16 ≠ 6 ∨ natBits cc.toNat 23 20 ≠ 4))
      [.regs]
      fun _ t => t.enabled fn.val = true ∧ t.fld (cstsKey fn.val) cstsCfs = 1) ∧
  (Completes .hostReadySet
      (fun s => s.flag R.SYS_BOOT F.SYS_BOOT_HOST_READY = false)
      [.events, .regs, .host]
      fun s t => t.flag R.SYS_BOOT F.SYS_BOOT_HOST_READY = true ∧ t.fld R.SYS_BOOT F.SYS_BOOT_STAGE = max 5 (s.fld R.SYS_BOOT F.SYS_BOOT_STAGE) ∧
          (∀ f ∈ s.functions, (s.fnOf f.val).wantsRdy = true → t.rdy f.val = true ∧ (t.fnOf f.val).wantsRdy = false) ∧
          (∀ f ∈ s.functions, (s.fnOf f.val).wantsRdy = false → t.rdy f.val = s.rdy f.val)) ∧
  (Completes .hostReadySet
      (fun s => s.flag R.SYS_BOOT F.SYS_BOOT_HOST_READY = true)
      []
      fun _ _ => True) ∧
  (∀ (fn : Fin 2), Completes (.shutdownNormal fn)
      (fun s => s.functions.contains fn = true ∧ s.enabled fn.val = true ∧ (s.fnOf fn.val).phase = .running)
      [.events, .regs, .heads, .decode, .mem, .host, .out]
      fun s t => t.ctl fn.val nvmeCC ccShn = 1 ∧ t.ctl fn.val nvmeCSTS cstsShst = 1 ∧ t.host.cmds = s.host.cmds ∧
          (t.fnOf fn.val).phase = (if s.drained fn.val (s.host.lastFetch + 1) then .hemming else .draining (s.host.lastFetch + 1))) ∧
  (∀ (fn : Fin 2), Completes (.shutdownAbrupt fn)
      (fun s => s.enabled fn.val = true ∧ s.resetting fn.val = false)
      [.events, .regs, .heads, .decode, .mem, .host, .sec, .out]
      fun _ t => t.ctl fn.val nvmeCC ccShn = 2 ∧ t.ctl fn.val nvmeCSTS cstsShst = 1 ∧ (t.fnOf fn.val).phase = .hemming ∧
          (∀ c ∈ t.host.cmds, c.fn ≠ fn.val) ∧ (t.fnOf fn.val).snips = []) ∧
  (∀ (fn : Fin 2), Completes (.shutdownComplete fn)
      (fun s => (s.fnOf fn.val).phase = .hemming ∧ s.noPass = true)
      [.regs, .host]
      fun s t => t.ctl fn.val nvmeCSTS cstsShst = 2 ∧ t.fnOf fn.val = { s.fnOf fn.val with phase := .shutDown } ∧ RegsBut [fnKey fn.val nvmeCSTS] s t) ∧
  (∀ (fn : Fin 2), Completes (.shutdownComplete fn)
      (fun s => s.noPass = false)
      []
      fun _ _ => True) ∧
  (∀ (fn : Fin 2), Completes (.controllerReset fn)
      (fun s => s.functions.contains fn = true ∧ s.enabled fn.val = true ∧ s.resetting fn.val = false ∧ s.host.activation = none ∧ s.noPass = true ∧
          s.reloadDue = false)
      [.events, .regs, .heads, .decode, .seq, .mem, .motion, .host, .sec, .out]
      fun s t => (t.fnOf fn.val).phase = .running ∧ t.enabled fn.val = false ∧ (∀ k : Nat, ownRegister fn.val k = true → t.reg k = regReset k) ∧
          (∀ c ∈ t.host.cmds, c.fn ≠ fn.val) ∧ (∀ q ∈ t.host.sqs, q.fn ≠ fn.val) ∧ (∀ q ∈ t.host.cqs, q.fn ≠ fn.val) ∧
          t.flag R.SYS_RST_CAUSE F.SYS_RST_CAUSE_CTRL = true ∧ t.mcActive = false ∧
          (∀ b : Fin 24, 17 ≤ b.val → b.val ≤ 20 → (t.bob b).st = .ready ∧ (t.bob b).pc = s.entryOf b % 65536)) ∧
  (∀ (fn : Fin 2), Completes (.controllerReset fn)
      (fun s => s.functions.contains fn = true ∧ s.enabled fn.val = true ∧ s.resetting fn.val = false ∧ s.host.activation = none ∧ s.noPass = false)
      [.events, .regs, .heads, .decode, .seq, .mem, .motion, .host, .sec, .out]
      fun s t => (t.fnOf fn.val).phase = .resetting ∧ t.enabled fn.val = false ∧ (∀ c ∈ t.host.cmds, c.fn ≠ fn.val) ∧
          (∀ n : Fin 16, (s.head n).pass.isSome = true → ((t.head n).pass.bind (·.hem)).isSome = true)) ∧
  (∀ (fn : Fin 2), Completes (.controllerReset fn)
      (fun s => s.functions.contains fn = true ∧ s.enabled fn.val = true ∧ s.resetting fn.val = false ∧ s.host.activation.isSome = true ∧ s.mcActive = false)
      [.regs, .host]
      fun s t => t.fnOf fn.val = { s.fnOf fn.val with phase := .awaitResume 0 } ∧ t.enabled fn.val = false ∧ t.host.cmds = s.host.cmds ∧
          RegsBut [fnKey fn.val nvmeCC] s t) ∧
  (∀ (fn : Fin 2), Completes (.functionLevelReset fn)
      (fun s => s.functions.contains fn = true ∧ s.resetting fn.val = false ∧ s.host.activation = none ∧ s.noPass = true ∧ s.reloadDue = false)
      [.events, .regs, .heads, .decode, .seq, .mem, .motion, .host, .sec, .out]
      fun _ t => (t.fnOf fn.val).phase = .running ∧ t.enabled fn.val = false ∧ (∀ k : Nat, ownRegister fn.val k = true → t.reg k = regReset k) ∧
          (∀ c ∈ t.host.cmds, c.fn ≠ fn.val) ∧ (∀ q ∈ t.host.sqs, q.fn ≠ fn.val) ∧ (∀ q ∈ t.host.cqs, q.fn ≠ fn.val) ∧
          t.flag R.SYS_RST_CAUSE F.SYS_RST_CAUSE_FLR = true ∧ t.mcActive = false) ∧
  (∀ (fn : Fin 2), Completes (.functionLevelReset fn)
      (fun s => s.functions.contains fn = true ∧ s.resetting fn.val = false ∧ s.host.activation.isSome = true ∧ s.mcActive = false)
      [.regs, .host]
      fun s t => t.fnOf fn.val = { s.fnOf fn.val with phase := .awaitResume 1 } ∧ t.host.cmds = s.host.cmds ∧ RegsBut [fnKey fn.val nvmeCC] s t) ∧
  (Completes .patchReload
      (fun s => s.reloadDue = true ∧ s.noPass = true ∧ (∃ f ∈ s.functions, (s.fnOf f.val).phase = .resetting))
      [.events, .regs, .heads, .seq, .motion, .host]
      fun s t => (∀ f ∈ s.functions, (s.fnOf f.val).phase = .resetting → (t.fnOf f.val).phase = .running) ∧ t.mcActive = false) ∧
  (∀ (head : Fin 16) (p : Pass) (m : Hem) (w : Waiter), Completes (.hemComplete head)
      (fun s => (s.head head).pass = some p ∧ p.hem = some m ∧ m.withdrawn = true ∧ m.writingBack = false ∧ s.twillBusyFor head.val p.no = false ∧
          (∀ r ∈ s.decode.waiting, ¬ (r.head = head.val ∧ r.pass = p.no)) ∧ m.waiters = [w] ∧ (s.head head).opening = none ∧
          (s.head head).leaving = none ∧ (∀ k : Fin 2, (s.fnOf k.val).phase ≠ .resetting))
      [.events, .regs, .domains, .heads, .decode, .seq, .motion, .host]
      fun s t => (t.head head).pass = none ∧ (t.head head).replayQ = [] ∧ HeadsBut head s t ∧ Posts w.bobbin (headEntry s head w 0 p.no) s t ∧ t.host = s.host) ∧
  (∀ (head : Fin 16) (p : Pass) (m : Hem), Completes (.hemComplete head)
      (fun s => (s.head head).pass = some p ∧ p.hem = some m ∧ (m.withdrawn = false ∨ m.writingBack = true))
      []
      fun _ _ => True) ∧
  (∀ (head : Fin 16) (p : Pass) (m : Hem), Completes (.hemComplete head)
      (fun s => (s.head head).pass = some p ∧ p.hem = some m ∧ m.withdrawn = true ∧ m.writingBack = false ∧ s.twillBusyFor head.val p.no = false ∧
          (∀ r ∈ s.decode.waiting, ¬ (r.head = head.val ∧ r.pass = p.no)) ∧ m.waiters = [] ∧ (s.head head).opening = none ∧
          (s.head head).leaving = none ∧ (s.fnOf 0).phase = .resetting ∧ (∀ k : Fin 16, k ≠ head → (s.head k).pass = none) ∧ s.reloadDue = false)
      [.events, .regs, .domains, .heads, .decode, .seq, .motion, .host]
      fun _ t => (t.head head).pass = none ∧ (t.fnOf 0).phase = .running ∧ (∀ q ∈ t.host.sqs, q.fn ≠ 0)) ∧
  (∀ (j : CommitJob), Completes .firmwareActivationStart
      (fun s => s.host.commit = some j ∧ j.written = true ∧ j.ca = 3 ∧ s.host.activation = none)
      [.events, .regs, .decode, .host]
      fun s t => t.host.activation = some ⟨s.now, j.cmd, j.slot, false⟩ ∧ (∀ f ∈ s.functions, t.ctl f.val nvmeCSTS cstsPp = 1) ∧ t.host.commit = s.host.commit) ∧
  (∀ (a : Activation) (c : HostCmd), Completes .activationDrainDeadline
      (fun s => s.host.activation = some a ∧ a.drained = false ∧ a.t0 + 300 * ticksMs ≤ s.now ∧ s.mcActive = false ∧ s.cmdOf c.stamp = some c ∧
          c.abortable = true ∧ c.stamp ≠ a.cmd)
      [.events, .regs, .heads, .decode, .seq, .mem, .host, .sec, .out]
      fun s t => t.host.activation = some { a with drained := true } ∧ Decides c.stamp stAborted 0 t ∧
          (∀ b : Fin 24, (s.bob b).st = .halted ∨ (s.bob b).st = .exception ∨ (t.bob b).haltReq.isSome = true) ∧
          (∀ n : Fin 16, (s.head n).pass.isSome = true → ((t.head n).pass.bind (·.hem)).isSome = true)) ∧
  (∀ (a : Activation) (c : HostCmd), Completes .firmwareActivationResume
      (fun s => s.host.activation = some a ∧ a.drained = true ∧ s.noPass = true ∧ s.mcActive = false ∧
          (∀ b : Fin 24, (s.bob b).st = .halted ∨ (s.bob b).st = .exception) ∧ (∀ f ∈ s.functions, s.resetting f.val = false) ∧
          s.cmdOf a.cmd = some c ∧ c.decided = none)
      [.events, .regs, .boot, .heads, .decode, .seq, .mem, .motion, .host, .sec, .out]
      fun s t => t.host.activation = none ∧ t.host.commit = none ∧ t.boot = { s.boot with slot := a.slot } ∧ t.sec.staged = none ∧
          t.fld R.SEC_STATUS F.SEC_STATUS_SLOT = a.slot % 4 ∧ (∀ f ∈ s.functions, t.ctl f.val nvmeCSTS cstsPp = 0) ∧ Decides a.cmd 0 0 t ∧
          (∀ b : Fin 24, 16 ≤ b.val → (t.bob b).st = .ready)) ∧
  (∀ (req : ConfigReq), Completes (.configRequest req)
      (fun s => s.fld R.SYS_BOOT F.SYS_BOOT_STAGE < 2)
      [.out]
      fun s t => t.out = .config req.fn.val none :: s.out) ∧
  (∀ (req : ConfigReq), Completes (.configRequest req)
      (fun s => 2 ≤ s.fld R.SYS_BOOT F.SYS_BOOT_STAGE ∧ req.item ≠ .subsystem)
      [.out]
      fun s t => t.out = .config req.fn.val (some (match req.item with
            | .identity => 65536 * s.fld R.SYS_IDENT F.SYS_IDENT_DEVICE + s.fld R.SYS_IDENT F.SYS_IDENT_VENDOR
            | .classRevision => 0x01080200 + s.fld R.SYS_IDENT1 F.SYS_IDENT1_REVISION
            | .barSize k => if k = 0 then 0xFF000004 else if k = 2 then 0xFFFF0004 else if k = 1 ∨ k = 3 then 0xFFFFFFFF else 0
            | .linkCap => s.linkCap
            | .maxPayload => 512
            | .capability i => if i ∈ [0x01, 0x10, 0x11, 0x101, 0x12E] then 1 else 0
            | _ => 0)) :: s.out) ∧
  (∀ (req : ConfigReq) (r : Running), Completes (.configRequest req)
      (fun s => 2 ≤ s.fld R.SYS_BOOT F.SYS_BOOT_STAGE ∧ req.item = .subsystem ∧ s.sec.running = some r)
      [.out]
      fun s t => t.out = .config req.fn.val (some (fieldAt r.record 12 4)) :: s.out) ∧
  (∀ (code : Fin 256), Completes (.nvmeMiBasicCommand code)
      (fun _ => code.val = 0)
      [.out, .free]
      fun s t => t.out.tail = s.out ∧ (t.out.head?.map fun x => match x with
            | .smbus bytes => ((bytes.drop 1).take 2, (bytes.drop 4).take 2, (bytes.headD 0) / 64 % 2, bytes.length == 7)
            | _ => ([], [], 0, false)) =
          some ([s.host.warnings, min 127 (s.kelvin - 273)], natBytes 2 (s.fld R.SYS_IDENT F.SYS_IDENT_VENDOR), (if s.functions.any (fun f => s.rdy f.val) then 0 else 1), true)) ∧
  (∀ (code : Fin 256), Completes (.nvmeMiBasicCommand code)
      (fun _ => code.val ≠ 0)
      [.out]
      fun s t => t.out = .smbus (List.replicate 7 0xFF) :: s.out)
end

