-- ==== Sys2Proof/Laws/Store.lean ====
section
/-!
SUPPORT. Laws/Store.lean: sparse stores keep their canonical form, and a read after a write answers what was written.
-/

namespace Sys2Proof.Machine

variable {α : Type}

theorem storeAbove_mono {k k' : Nat} {l : List (Nat × α)} (h : storeAbove k' l = true) (hk : k ≤ k') : storeAbove k l = true := by
  induction l with
  | nil => rfl
  | cons e l ih =>
    obtain ⟨a, v⟩ := e
    simp only [storeAbove, Bool.and_eq_true, decide_eq_true_eq] at h ⊢
    exact ⟨by omega, ih h.2⟩

theorem storeAbove_insert {k k' : Nat} {v : α} {l : List (Nat × α)} (h : storeAbove k' l = true) (hk : k' < k) :
    storeAbove k' (storeInsert k v l) = true := by
  induction l with
  | nil => simp [storeInsert, storeAbove, hk]
  | cons e l ih =>
    obtain ⟨a, w⟩ := e
    simp only [storeAbove, Bool.and_eq_true, decide_eq_true_eq] at h
    simp only [storeInsert]
    split
    · simp [storeAbove, hk, h.1, h.2]
    · split
      · simp [storeAbove, hk, h.2]
      · simp [storeAbove, h.1, ih h.2]

theorem storeAbove_erase {k k' : Nat} {l : List (Nat × α)} (h : storeAbove k' l = true) : storeAbove k' (storeErase k l) = true := by
  induction l with
  | nil => rfl
  | cons e l ih =>
    obtain ⟨a, w⟩ := e
    simp only [storeAbove, Bool.and_eq_true, decide_eq_true_eq] at h
    simp only [storeErase]
    split
    · exact ih h.2
    · simp [storeAbove, h.1, ih h.2]

theorem storeAbove_filter {k : Nat} {l : List (Nat × α)} (f : Nat × α → Bool) (h : storeAbove k l = true) :
    storeAbove k (l.filter f) = true := by
  induction l with
  | nil => rfl
  | cons e l ih =>
    obtain ⟨a, w⟩ := e
    simp only [storeAbove, Bool.and_eq_true, decide_eq_true_eq] at h
    simp only [List.filter_cons]
    split
    · simp [storeAbove, h.1, ih h.2]
    · exact ih h.2

variable [DecidableEq α] {dflt : Nat → α}

theorem storeWf_cons {k : Nat} {v : α} {l : List (Nat × α)} :
    storeWf dflt ((k, v) :: l) = true ↔ v ≠ dflt k ∧ storeAbove k l = true ∧ storeWf dflt l = true := by
  simp [storeWf, and_assoc]

theorem storeWf_insert {k : Nat} {v : α} {l : List (Nat × α)} (h : storeWf dflt l = true) (hv : v ≠ dflt k) :
    storeWf dflt (storeInsert k v l) = true := by
  induction l with
  | nil => simp [storeInsert, storeWf, storeAbove, hv]
  | cons e l ih =>
    obtain ⟨a, w⟩ := e
    rw [storeWf_cons] at h
    simp only [storeInsert]
    split
    · rename_i hk
      rw [storeWf_cons, storeWf_cons]
      refine ⟨hv, ?_, h⟩
      simp only [storeAbove, Bool.and_eq_true, decide_eq_true_eq]
      exact ⟨hk, storeAbove_mono h.2.1 (by omega)⟩
    · split
      · rename_i hk; subst hk
        rw [storeWf_cons]
        exact ⟨hv, h.2⟩
      · rename_i h1 h2
        rw [storeWf_cons]
        exact ⟨h.1, storeAbove_insert h.2.1 (by omega), ih h.2.2⟩

theorem storeWf_erase {k : Nat} {l : List (Nat × α)} (h : storeWf dflt l = true) : storeWf dflt (storeErase k l) = true := by
  induction l with
  | nil => rfl
  | cons e l ih =>
    obtain ⟨a, w⟩ := e
    rw [storeWf_cons] at h
    simp only [storeErase]
    split
    · exact ih h.2.2
    · rw [storeWf_cons]
      exact ⟨h.1, storeAbove_erase h.2.1, ih h.2.2⟩

/-- A write keeps the canonical form. -/
theorem storeWf_put {k : Nat} {v : α} {l : List (Nat × α)} (h : storeWf dflt l = true) : storeWf dflt (storePut dflt k v l) = true := by
  unfold storePut
  split
  · exact storeWf_erase h
  · exact storeWf_insert h ‹_›

/-- Entries dropped keep the canonical form. -/
theorem storeWf_filter {l : List (Nat × α)} (f : Nat × α → Bool) (h : storeWf dflt l = true) : storeWf dflt (l.filter f) = true := by
  induction l with
  | nil => rfl
  | cons e l ih =>
    obtain ⟨a, w⟩ := e
    rw [storeWf_cons] at h
    simp only [List.filter_cons]
    split
    · rw [storeWf_cons]
      exact ⟨h.1, storeAbove_filter f h.2.1, ih h.2.2⟩
    · exact ih h.2.2

/-- Entries dropped, among them every one that equals a new default, leave the canonical form of that default. -/
theorem storeWf_filterTo {dflt' : Nat → α} {l : List (Nat × α)} (f : Nat × α → Bool) (h : storeWf dflt l = true) :
    storeWf dflt' (l.filter fun e => f e && e.2 != dflt' e.1) = true := by
  induction l with
  | nil => rfl
  | cons e l ih =>
    obtain ⟨a, w⟩ := e
    rw [storeWf_cons] at h
    simp only [List.filter_cons]
    split
    · rename_i hc
      rw [storeWf_cons]
      refine ⟨fun hw => ?_, storeAbove_filter _ h.2.1, ih h.2.2⟩
      simp [hw] at hc
    · exact ih h.2.2

omit [DecidableEq α] in
theorem storeGet_above {k : Nat} {l : List (Nat × α)} (h : storeAbove k l = true) : storeGet dflt k l = dflt k := by
  induction l with
  | nil => rfl
  | cons e l ih =>
    obtain ⟨a, w⟩ := e
    simp only [storeAbove, Bool.and_eq_true, decide_eq_true_eq] at h
    simp only [storeGet]
    rw [if_neg (by omega)]
    exact ih h.2

omit [DecidableEq α] in
theorem storeGet_insert_self {k : Nat} {v : α} {l : List (Nat × α)} : storeGet dflt k (storeInsert k v l) = v := by
  induction l with
  | nil => simp [storeInsert, storeGet]
  | cons e l ih =>
    obtain ⟨a, w⟩ := e
    simp only [storeInsert]
    split
    · simp [storeGet]
    · split
      · simp [storeGet]
      · simp [storeGet, *]

omit [DecidableEq α] in
theorem storeGet_insert_other {k k' : Nat} {v : α} {l : List (Nat × α)} (hk : k' ≠ k) :
    storeGet dflt k' (storeInsert k v l) = storeGet dflt k' l := by
  induction l with
  | nil => simp [storeInsert, storeGet, hk]
  | cons e l ih =>
    obtain ⟨a, w⟩ := e
    simp only [storeInsert]
    split
    · simp [storeGet, hk]
    · split
      · rename_i h; subst h; simp [storeGet, hk]
      · simp only [storeGet, ih]

omit [DecidableEq α] in
theorem storeGet_erase_self {k : Nat} {l : List (Nat × α)} : storeGet dflt k (storeErase k l) = dflt k := by
  induction l with
  | nil => rfl
  | cons e l ih =>
    obtain ⟨a, w⟩ := e
    simp only [storeErase]
    split
    · exact ih
    · rename_i hk
      simp only [storeGet]
      rw [if_neg hk]
      exact ih

omit [DecidableEq α] in
theorem storeGet_erase_other {k k' : Nat} {l : List (Nat × α)} (hk : k' ≠ k) : storeGet dflt k' (storeErase k l) = storeGet dflt k' l := by
  induction l with
  | nil => rfl
  | cons e l ih =>
    obtain ⟨a, w⟩ := e
    simp only [storeErase]
    split
    · rename_i h; subst h; simp [storeGet, hk, ih]
    · simp only [storeGet, ih]

/-- A read of what was just written. -/
theorem storeGet_put_self {k : Nat} {v : α} {l : List (Nat × α)} : storeGet dflt k (storePut dflt k v l) = v := by
  unfold storePut
  split
  · rename_i hv; rw [hv]; exact storeGet_erase_self
  · exact storeGet_insert_self

/-- A write leaves every other key alone. -/
theorem storeGet_put_other {k k' : Nat} {v : α} {l : List (Nat × α)} (hk : k' ≠ k) :
    storeGet dflt k' (storePut dflt k v l) = storeGet dflt k' l := by
  unfold storePut
  split
  · exact storeGet_erase_other hk
  · exact storeGet_insert_other hk

end Sys2Proof.Machine
end

