-- ==== Sys2Proof/Laws/Keeps.lean ====
section
/-!
SUPPORT. Laws/Keeps.lean: the relation that every operation of the model is shown to have with the state it starts from: it
changes no part but those listed, it keeps a sound state sound, and it never turns the free-value counter back.
-/

namespace Sys2Proof.Machine

/-- Every part of the first list stands in the second. -/
def Part.sub (q p : List Part) : Bool := q.all fun x => p.contains x

/-- `t` differs from `s` in the listed parts alone, is sound where `s` is, and has drawn no fewer free values. -/
structure Keeps (P : List Part) (s t : State) : Prop where
  frame : Frame P s t
  regs  : regsWf s = true → regsWf t = true
  mem   : Memory.wf s.mem = true → Memory.wf t.mem = true
  tb    : s.time.tb < stampModulus → t.time.tb < stampModulus
  free  : s.free ≤ t.free

/-- The same of an outcome that is a next state. -/
def KeepsR (P : List Part) (s : State) (r : Result) : Prop := ∀ t, r = .next t → Keeps P s t

/-- The same of an instruction's effect that is no exception. -/
def KeepsE (P : List Part) (s : State) (e : Effect) : Prop := ∀ t, e = .ok t → Keeps P s t

theorem Part.same_refl (p : Part) (s : State) : p.same s s := by cases p <;> rfl

theorem Part.same_trans {p : Part} {s t u : State} (h : p.same s t) (k : p.same t u) : p.same s u := by
  cases p <;> exact Eq.trans k h

theorem Part.sub_mem {p q : List Part} (h : Part.sub q p = true) {x : Part} (hx : x ∈ q) : x ∈ p := by
  have := List.all_eq_true.mp h x hx
  exact List.contains_iff_mem.mp this

theorem Keeps.refl (P : List Part) (s : State) : Keeps P s s :=
  ⟨fun p _ => p.same_refl s, id, id, id, Nat.le_refl _⟩

/-- An operation that keeps its own parts, after what keeps the parts of the whole. -/
theorem Keeps.step {P Q : List Part} {s x t : State} (h : Keeps Q x t) (hq : Part.sub Q P = true) (k : Keeps P s x) : Keeps P s t :=
  ⟨fun p hp => Part.same_trans (k.frame p hp) (h.frame p fun hx => hp (Part.sub_mem hq hx)),
   fun hw => h.regs (k.regs hw), fun hw => h.mem (k.mem hw), fun hw => h.tb (k.tb hw), Nat.le_trans k.free h.free⟩

theorem Keeps.mono {P Q : List Part} {s t : State} (h : Keeps Q s t) (hq : Part.sub Q P = true) : Keeps P s t :=
  Keeps.step h hq (Keeps.refl P s)

/-- What is shown of a state may be used of it from there on. -/
theorem Keeps.cut {P : List Part} {s x t : State} (h : Keeps P s x) (k : Keeps P s x → Keeps P s t) : Keeps P s t := k h
theorem KeepsR.cut {P : List Part} {s x : State} {r : Result} (h : Keeps P s x) (k : Keeps P s x → KeepsR P s r) : KeepsR P s r := k h
theorem KeepsE.cut {P : List Part} {s x : State} {e : Effect} (h : Keeps P s x) (k : Keeps P s x → KeepsE P s e) : KeepsE P s e := k h

theorem Keeps.foldl {α : Type} {P : List Part} {s x : State} {f : State → α → State} {l : List α} (h : Keeps P s x)
    (k : ∀ y e, Keeps P s y → Keeps P s (f y e)) : Keeps P s (l.foldl f x) := by
  induction l generalizing x with
  | nil => exact h
  | cons e l ih => exact ih (k x e h)

/-- A fold that carries a state beside other data. -/
theorem Keeps.foldlSnd {α β : Type} {P : List Part} {s : State} {x : β × State} {f : β × State → α → β × State} {l : List α}
    (h : Keeps P s x.2) (k : ∀ y e, Keeps P s y.2 → Keeps P s (f y e).2) : Keeps P s (l.foldl f x).2 := by
  induction l generalizing x with
  | nil => exact h
  | cons e l ih => exact ih (k x e h)

theorem Keeps.foldlFst {α β : Type} {P : List Part} {s : State} {x : State × β} {f : State × β → α → State × β} {l : List α}
    (h : Keeps P s x.1) (k : ∀ y e, Keeps P s y.1 → Keeps P s (f y e).1) : Keeps P s (l.foldl f x).1 := by
  induction l generalizing x with
  | nil => exact h
  | cons e l ih => exact ih (k x e h)

theorem Keeps.ofSnd {β : Type} {P : List Part} {s t : State} {e : β × State} {b : β} (h : e = (b, t)) (k : Keeps P s e.2) :
    Keeps P s t := by subst h; exact k
theorem Keeps.ofFst {β : Type} {P : List Part} {s t : State} {e : State × β} {b : β} (h : e = (t, b)) (k : Keeps P s e.1) :
    Keeps P s t := by subst h; exact k
theorem Keeps.ofThird {β γ : Type} {P : List Part} {s t : State} {e : β × γ × State} {b : β} {c : γ} (h : e = (b, c, t))
    (k : Keeps P s e.2.2) : Keeps P s t := by subst h; exact k

theorem Keeps.ofMk {β : Type} {P : List Part} {s t : State} {b : β} (k : Keeps P s t) : Keeps P s (b, t).2 := k
theorem Keeps.ofMkFst {β : Type} {P : List Part} {s t : State} {b : β} (k : Keeps P s t) : Keeps P s (t, b).1 := k
theorem Keeps.ofMkSnd {β γ : Type} {P : List Part} {s : State} {b : β} {e : γ × State} (k : Keeps P s e.2) :
    Keeps P s (b, e).2.2 := k

/-- Several parts at once, none of them under an invariant. -/
theorem Keeps.many {P : List Part} {s x t : State} (Q : List Part) (hq : Part.sub Q P = true)
    (hf : ∀ p : Part, Q.contains p = false → p.same x t) (hr : regsWf x = true → regsWf t = true)
    (hm : Memory.wf x.mem = true → Memory.wf t.mem = true) (ht : x.time.tb < stampModulus → t.time.tb < stampModulus)
    (hn : x.free ≤ t.free) (k : Keeps P s x) : Keeps P s t := by
  refine Keeps.step (Q := Q) ⟨fun p hp => hf p ?_, hr, hm, ht, hn⟩ hq k
  exact Bool.eq_false_iff.mpr fun h => hp (List.contains_iff_mem.mp h)

theorem Keeps.ofRun {P : List Part} {s t : State} {b d : List Nat} {o : Bool} (k : Keeps P s t) :
    Keeps P s (ReadRun.mk b d o t).st := k

theorem Part.sub_trans {p q r : List Part} (h : Part.sub p q = true) (k : Part.sub q r = true) : Part.sub p r = true :=
  List.all_eq_true.mpr fun _ hx => List.contains_iff_mem.mpr (Part.sub_mem k (Part.sub_mem h hx))

theorem Part.sub_contains {q r : List Part} {x : Part} (k : Part.sub q r = true) (h : q.contains x = true) : r.contains x = true :=
  List.contains_iff_mem.mpr (Part.sub_mem k (List.contains_iff_mem.mp h))

/-! ## Outcomes and effects -/

theorem KeepsR.next {P : List Part} {s t : State} (h : Keeps P s t) : KeepsR P s (.next t) := by
  intro u hu; cases hu; exact h
theorem KeepsR.when {P : List Part} {s x t : State} {c : Bool} (h : Keeps P s x) (k : Keeps P s t) : KeepsR P s (Machine.when c x t) := by
  intro u hu; unfold Machine.when at hu; cases hu; split
  · exact k
  · exact h
theorem KeepsR.step {P Q : List Part} {s x : State} {r : Result} (h : KeepsR Q x r) (hq : Part.sub Q P = true) (k : Keeps P s x) :
    KeepsR P s r := fun t ht => Keeps.step (h t ht) hq k
theorem KeepsE.ok {P : List Part} {s t : State} (h : Keeps P s t) : KeepsE P s (.ok t) := by
  intro u hu; cases hu; exact h
theorem KeepsE.error {P : List Part} {s : State} {c : Nat} : KeepsE P s (.error c) := by
  intro u hu; cases hu
theorem KeepsE.step {P Q : List Part} {s x : State} {e : Effect} (h : KeepsE Q x e) (hq : Part.sub Q P = true) (k : Keeps P s x) :
    KeepsE P s e := fun t ht => Keeps.step (h t ht) hq k
theorem Keeps.ofOk {P : List Part} {s t : State} {e : Effect} (h : e = .ok t) (k : KeepsE P s e) : Keeps P s t := k t h
theorem KeepsE.bind {α : Type} {P : List Part} {s : State} {e : Except Nat α} {f : α → Effect} (h : ∀ a, KeepsE P s (f a)) :
    KeepsE P s (e >>= f) := by
  cases e with
  | error c => intro u hu; cases hu
  | ok a => exact h a

theorem KeepsE.map {α : Type} {P : List Part} {s : State} {e : Except Nat α} {f : α → State} (h : ∀ a, Keeps P s (f a)) :
    KeepsE P s (e.map f) := by
  cases e with
  | error c => intro u hu; cases hu
  | ok a => intro u hu; cases hu; exact h a

/-! ## Record updates -/


theorem Keeps.timeTo {P : List Part} {s x : State} {v : TimeState} (hp : P.contains .time = true) (hv : x.time.tb < stampModulus → v.tb < stampModulus) (k : Keeps P s x) :
    Keeps P s { x with time := v } := by
  refine ⟨fun p hn => ?_, k.regs, k.mem, fun h => hv (k.tb h), k.free⟩
  have h := k.frame p hn
  cases p <;> first | exact h | exact absurd (List.contains_iff_mem.mp hp) hn

theorem Keeps.eventsTo {P : List Part} {s x : State} {v : EventState} (hp : P.contains .events = true) (k : Keeps P s x) :
    Keeps P s { x with events := v } := by
  refine ⟨fun p hn => ?_, k.regs, k.mem, k.tb, k.free⟩
  have h := k.frame p hn
  cases p <;> first | exact h | exact absurd (List.contains_iff_mem.mp hp) hn

theorem Keeps.regsTo {P : List Part} {s x : State} {v : List (Nat × Word)} (hp : P.contains .regs = true) (hv : regsWf x = true → storeWf regReset v = true) (k : Keeps P s x) :
    Keeps P s { x with regs := v } := by
  refine ⟨fun p hn => ?_, fun h => hv (k.regs h), k.mem, k.tb, k.free⟩
  have h := k.frame p hn
  cases p <;> first | exact h | exact absurd (List.contains_iff_mem.mp hp) hn

theorem Keeps.latchesTo {P : List Part} {s x : State} {v : Vector Nat 3} (hp : P.contains .latches = true) (k : Keeps P s x) :
    Keeps P s { x with latches := v } := by
  refine ⟨fun p hn => ?_, k.regs, k.mem, k.tb, k.free⟩
  have h := k.frame p hn
  cases p <;> first | exact h | exact absurd (List.contains_iff_mem.mp hp) hn

theorem Keeps.heldLoTo {P : List Part} {s x : State} {v : List (Nat × Word)} (hp : P.contains .heldLo = true) (k : Keeps P s x) :
    Keeps P s { x with heldLo := v } := by
  refine ⟨fun p hn => ?_, k.regs, k.mem, k.tb, k.free⟩
  have h := k.frame p hn
  cases p <;> first | exact h | exact absurd (List.contains_iff_mem.mp hp) hn

theorem Keeps.msixTo {P : List Part} {s x : State} {v : Vector MsixState 2} (hp : P.contains .msix = true) (k : Keeps P s x) :
    Keeps P s { x with msix := v } := by
  refine ⟨fun p hn => ?_, k.regs, k.mem, k.tb, k.free⟩
  have h := k.frame p hn
  cases p <;> first | exact h | exact absurd (List.contains_iff_mem.mp hp) hn

theorem Keeps.domainsTo {P : List Part} {s x : State} {v : Vector Domain 19} (hp : P.contains .domains = true) (k : Keeps P s x) :
    Keeps P s { x with domains := v } := by
  refine ⟨fun p hn => ?_, k.regs, k.mem, k.tb, k.free⟩
  have h := k.frame p hn
  cases p <;> first | exact h | exact absurd (List.contains_iff_mem.mp hp) hn

theorem Keeps.bootTo {P : List Part} {s x : State} {v : BootState} (hp : P.contains .boot = true) (k : Keeps P s x) :
    Keeps P s { x with boot := v } := by
  refine ⟨fun p hn => ?_, k.regs, k.mem, k.tb, k.free⟩
  have h := k.frame p hn
  cases p <;> first | exact h | exact absurd (List.contains_iff_mem.mp hp) hn

theorem Keeps.pinsTo {P : List Part} {s x : State} {v : Pins} (hp : P.contains .pins = true) (k : Keeps P s x) :
    Keeps P s { x with pins := v } := by
  refine ⟨fun p hn => ?_, k.regs, k.mem, k.tb, k.free⟩
  have h := k.frame p hn
  cases p <;> first | exact h | exact absurd (List.contains_iff_mem.mp hp) hn

theorem Keeps.headsTo {P : List Part} {s x : State} {v : Vector Head 16} (hp : P.contains .heads = true) (k : Keeps P s x) :
    Keeps P s { x with heads := v } := by
  refine ⟨fun p hn => ?_, k.regs, k.mem, k.tb, k.free⟩
  have h := k.frame p hn
  cases p <;> first | exact h | exact absurd (List.contains_iff_mem.mp hp) hn

theorem Keeps.decodeTo {P : List Part} {s x : State} {v : DecodeState} (hp : P.contains .decode = true) (k : Keeps P s x) :
    Keeps P s { x with decode := v } := by
  refine ⟨fun p hn => ?_, k.regs, k.mem, k.tb, k.free⟩
  have h := k.frame p hn
  cases p <;> first | exact h | exact absurd (List.contains_iff_mem.mp hp) hn

theorem Keeps.loopTo {P : List Part} {s x : State} {v : LoopState} (hp : P.contains .loop = true) (k : Keeps P s x) :
    Keeps P s { x with loop := v } := by
  refine ⟨fun p hn => ?_, k.regs, k.mem, k.tb, k.free⟩
  have h := k.frame p hn
  cases p <;> first | exact h | exact absurd (List.contains_iff_mem.mp hp) hn

theorem Keeps.seqTo {P : List Part} {s x : State} {v : SeqState} (hp : P.contains .seq = true) (k : Keeps P s x) :
    Keeps P s { x with seq := v } := by
  refine ⟨fun p hn => ?_, k.regs, k.mem, k.tb, k.free⟩
  have h := k.frame p hn
  cases p <;> first | exact h | exact absurd (List.contains_iff_mem.mp hp) hn

theorem Keeps.memTo {P : List Part} {s x : State} {v : MemState} (hp : P.contains .mem = true) (hv : Memory.wf x.mem = true → Memory.wf v = true) (k : Keeps P s x) :
    Keeps P s { x with mem := v } := by
  refine ⟨fun p hn => ?_, k.regs, fun h => hv (k.mem h), k.tb, k.free⟩
  have h := k.frame p hn
  cases p <;> first | exact h | exact absurd (List.contains_iff_mem.mp hp) hn

theorem Keeps.motionTo {P : List Part} {s x : State} {v : MotionState} (hp : P.contains .motion = true) (k : Keeps P s x) :
    Keeps P s { x with motion := v } := by
  refine ⟨fun p hn => ?_, k.regs, k.mem, k.tb, k.free⟩
  have h := k.frame p hn
  cases p <;> first | exact h | exact absurd (List.contains_iff_mem.mp hp) hn

theorem Keeps.hostTo {P : List Part} {s x : State} {v : HostState} (hp : P.contains .host = true) (k : Keeps P s x) :
    Keeps P s { x with host := v } := by
  refine ⟨fun p hn => ?_, k.regs, k.mem, k.tb, k.free⟩
  have h := k.frame p hn
  cases p <;> first | exact h | exact absurd (List.contains_iff_mem.mp hp) hn

theorem Keeps.calTo {P : List Part} {s x : State} {v : CalState} (hp : P.contains .cal = true) (k : Keeps P s x) :
    Keeps P s { x with cal := v } := by
  refine ⟨fun p hn => ?_, k.regs, k.mem, k.tb, k.free⟩
  have h := k.frame p hn
  cases p <;> first | exact h | exact absurd (List.contains_iff_mem.mp hp) hn

theorem Keeps.secTo {P : List Part} {s x : State} {v : SecState} (hp : P.contains .sec = true) (k : Keeps P s x) :
    Keeps P s { x with sec := v } := by
  refine ⟨fun p hn => ?_, k.regs, k.mem, k.tb, k.free⟩
  have h := k.frame p hn
  cases p <;> first | exact h | exact absurd (List.contains_iff_mem.mp hp) hn

theorem Keeps.outTo {P : List Part} {s x : State} {v : List Output} (hp : P.contains .out = true) (k : Keeps P s x) :
    Keeps P s { x with out := v } := by
  refine ⟨fun p hn => ?_, k.regs, k.mem, k.tb, k.free⟩
  have h := k.frame p hn
  cases p <;> first | exact h | exact absurd (List.contains_iff_mem.mp hp) hn

theorem Keeps.freeTo {P : List Part} {s x : State} {v : Nat} (hp : P.contains .free = true) (hv : x.free ≤ v) (k : Keeps P s x) :
    Keeps P s { x with free := v } := by
  refine ⟨fun p hn => ?_, k.regs, k.mem, k.tb, Nat.le_trans k.free hv⟩
  have h := k.frame p hn
  cases p <;> first | exact h | exact absurd (List.contains_iff_mem.mp hp) hn

/-- A store of memory that leaves the codewords alone. -/
theorem Memory.wf_same {m v : MemState} (hd : v.data = m.data) (hc : v.check = m.check) (hf : v.filled = m.filled)
    (h : Memory.wf m = true) : Memory.wf v = true := by
  unfold Memory.wf at h ⊢
  rw [hd, hc, hf]; exact h

theorem putBytes_wf (dflt : Nat → Byte) (a : Nat) (bs : List Nat) (l : List (Nat × Byte)) (h : storeWf dflt l = true) :
    storeWf dflt (putBytes dflt a bs l) = true := by
  induction bs generalizing a l with
  | nil => exact h
  | cons b bs ih => exact ih _ _ (storeWf_put h)

/-! ## Registers, free values, and the primitive updates -/

theorem State.setReg_keeps (s : State) (key : Nat) (w : Word) : Keeps [.regs] s (s.setReg key w) :=
  Keeps.regsTo rfl (fun h => storeWf_put h) (Keeps.refl _ _)

theorem State.draw_keeps (s : State) : Keeps [.free] s s.draw.2 := Keeps.freeTo rfl (Nat.le_succ _) (Keeps.refl _ _)

end Sys2Proof.Machine
end

