-- ==== Sys2Proof/Laws/KeepsOps.lean ====
section
/-!
SUPPORT. Laws/KeepsOps.lean: which parts of a state each operation of Machine/Ops.lean may change, and that it keeps a sound
state sound.
-/

namespace Sys2Proof.Machine

theorem State.setFld_keeps (s : State) (key : ℕ) (p : FieldPos) (v : ℕ) :
    Keeps [.regs] s (State.setFld s key p v) := by
  unfold State.setFld
  refine Keeps.step (State.setReg_keeps ..) rfl ?_
  exact Keeps.refl _ _

theorem State.bump_keeps (s : State) (key : ℕ) (p : FieldPos) (n : ℕ) :
    Keeps [.regs] s (State.bump s key p n) := by
  unfold State.bump
  refine Keeps.step (State.setFld_keeps ..) rfl ?_
  exact Keeps.refl _ _

theorem State.resetReg_keeps (s : State) (key : ℕ) :
    Keeps [.regs] s (State.resetReg s key) := by
  unfold State.resetReg
  refine Keeps.step (State.setReg_keeps ..) rfl ?_
  exact Keeps.refl _ _

theorem State.setPair_keeps (s : State) (lo : ℕ) (v : ℕ) :
    Keeps [.regs] s (State.setPair s lo v) := by
  unfold State.setPair
  refine Keeps.step (State.setReg_keeps ..) rfl ?_
  refine Keeps.step (State.setReg_keeps ..) rfl ?_
  exact Keeps.refl _ _

theorem State.modHead_keeps (s : State) (n : Fin 16) (f : Head → Head) :
    Keeps [.heads] s (State.modHead s n f) := by
  unfold State.modHead
  refine Keeps.headsTo rfl ?_
  exact Keeps.refl _ _

theorem State.sendVector_keeps (s : State) (fn : Fin 2) (v : ℕ) :
    Keeps [.msix, .out] s (State.sendVector s fn v) := by
  unfold State.sendVector
  split
  · extract_lets +onlyGivenNames z1
    extract_lets +onlyGivenNames z2
    refine Keeps.msixTo rfl ?_
    exact Keeps.refl _ _
  · refine Keeps.outTo rfl ?_
    exact Keeps.refl _ _

theorem State.sendAll_keeps (s : State) (v : ℕ) :
    Keeps [.msix, .out] s (State.sendAll s v) := by
  unfold State.sendAll
  refine Keeps.foldl ?_ (fun _ _ _ => ?_)
  · exact Keeps.refl _ _
  · refine Keeps.step (State.sendVector_keeps ..) rfl ?_
    assumption

theorem State.setXing_keeps (s : State) (src : ℕ) (x : EventXing) :
    Keeps [.events] s (State.setXing s src x) := by
  unfold State.setXing
  refine Keeps.eventsTo rfl ?_
  exact Keeps.refl _ _

theorem State.post_keeps (s : State) (r : EventRec) :
    Keeps [.events] s (State.post s r) := by
  unfold State.post
  extract_lets +onlyGivenNames z1
  split
  · refine Keeps.step (State.setXing_keeps ..) rfl ?_
    exact Keeps.refl _ _
  · refine Keeps.step (State.setXing_keeps ..) rfl ?_
    exact Keeps.refl _ _

theorem State.logAt_keeps (s : State) (src : ℕ) (stamp : Stamp) (code : ℕ) (a0 : ℕ) (a1 : ℕ) (a2 : ℕ) (a3 : ℕ) :
    Keeps [.events] s (State.logAt s src stamp code a0 a1 a2 a3) := by
  unfold State.logAt
  refine Keeps.step (State.post_keeps ..) rfl ?_
  exact Keeps.refl _ _

theorem State.log_keeps (s : State) (src : ℕ) (i : Island) (code : ℕ) (a0 : ℕ) (a1 : ℕ) (a2 : ℕ) (a3 : ℕ) :
    Keeps [.events] s (State.log s src i code a0 a1 a2 a3) := by
  unfold State.log
  refine Keeps.step (State.logAt_keeps ..) rfl ?_
  exact Keeps.refl _ _

theorem State.logHead_keeps (s : State) (n : Fin 16) (code : ℕ) (a1 : ℕ) (a2 : ℕ) (a3 : ℕ) :
    Keeps [.events] s (State.logHead s n code a1 a2 a3) := by
  unfold State.logHead
  refine Keeps.step (State.log_keeps ..) rfl ?_
  exact Keeps.refl _ _

theorem State.attention_keeps (s : State) (code : Option ℕ) :
    Keeps [.regs, .msix, .out] s (State.attention s code) := by
  unfold State.attention
  split
  · refine Keeps.step (State.sendAll_keeps ..) rfl ?_
    refine Keeps.step (State.setFld_keeps ..) rfl ?_
    exact Keeps.refl _ _
  · exact Keeps.refl _ _

theorem State.writeRing_keeps (s : State) (r : EventRec) :
    Keeps [.events, .regs, .msix, .out] s (State.writeRing s r) := by
  unfold State.writeRing
  extract_lets +onlyGivenNames z1
  extract_lets +onlyGivenNames z2
  extract_lets +onlyGivenNames z3
  extract_lets +onlyGivenNames z5
  refine Keeps.cut (x := z5) ?_ (fun h6 => ?_)
  · unfold z5
    refine Keeps.eventsTo rfl ?_
    exact Keeps.refl _ _
  clear_value z5
  extract_lets +onlyGivenNames z7
  refine Keeps.cut (x := z7) ?_ (fun h8 => ?_)
  · unfold z7
    refine Keeps.step (State.setFld_keeps ..) rfl ?_
    assumption
  clear_value z7
  extract_lets +onlyGivenNames z9
  refine Keeps.cut (x := z9) ?_ (fun h10 => ?_)
  · unfold z9
    split
    · refine Keeps.step (State.bump_keeps ..) rfl ?_
      assumption
    · assumption
  clear_value z9
  refine Keeps.step (State.attention_keeps ..) rfl ?_
  assumption

theorem State.publishC_keeps (s : State) :
    Keeps [.regs] s (State.publishC s) := by
  unfold State.publishC
  split
  · exact Keeps.refl _ _
  · refine Keeps.step (State.setPair_keeps ..) rfl ?_
    exact Keeps.refl _ _

end Sys2Proof.Machine
end

