-- ==== Sys2Proof/Laws/KeepsSeqOps.lean ====
section
/-!
SUPPORT. Laws/KeepsSeqOps.lean: which parts of a state each operation of Machine/SeqOps.lean may change, and that it keeps a sound
state sound.
-/

namespace Sys2Proof.Machine

theorem State.modBob_keeps (s : State) (b : Fin 24) (f : Bobbin → Bobbin) :
    Keeps [.seq] s (State.modBob s b f) := by
  unfold State.modBob
  refine Keeps.seqTo rfl ?_
  exact Keeps.refl _ _

theorem State.sendEntry_keeps (s : State) (b : Fin 24) (e : EvEntry) :
    Keeps [.seq] s (State.sendEntry s b e) := by
  unfold State.sendEntry
  refine Keeps.step (State.modBob_keeps ..) rfl ?_
  exact Keeps.refl _ _

theorem State.complete_keeps (s : State) (w : Waiter) (kind : EntryKind) (src : ℕ) (stamp : Stamp) (result : ℕ) (data : ℕ) :
    Keeps [.seq] s (State.complete s w kind src stamp result data) := by
  unfold State.complete
  refine Keeps.step (State.sendEntry_keeps ..) rfl ?_
  exact Keeps.refl _ _

theorem State.completeHead_keeps (s : State) (n : Fin 16) (w : Waiter) (result : ℕ) (data : ℕ) :
    Keeps [.seq] s (State.completeHead s n w result data) := by
  unfold State.completeHead
  refine Keeps.step (State.complete_keeps ..) rfl ?_
  exact Keeps.refl _ _

theorem State.requestHalt_keeps (s : State) (b : Fin 24) (by' : HaltBy) :
    Keeps [.seq] s (State.requestHalt s b by') := by
  unfold State.requestHalt
  split
  · exact Keeps.refl _ _
  · refine Keeps.step (State.modBob_keeps ..) rfl ?_
    exact Keeps.refl _ _

theorem State.requestHaltAll_keeps (s : State) :
    Keeps [.seq] s (State.requestHaltAll s) := by
  unfold State.requestHaltAll
  refine Keeps.foldl ?_ (fun _ _ _ => ?_)
  · exact Keeps.refl _ _
  · refine Keeps.step (State.requestHalt_keeps ..) rfl ?_
    assumption

end Sys2Proof.Machine
end

