-- ==== Sys2Proof/Laws/KeepsFormat.lean ====
section
/-!
SUPPORT. Laws/KeepsFormat.lean: which parts of a state each operation of Machine/Format.lean may change, and that it keeps a sound
state sound.
-/

namespace Sys2Proof.Machine

theorem State.updateReady_keeps (s : State) (n : Fin 16) :
    Keeps [.regs, .heads] s (State.updateReady s n) := by
  unfold State.updateReady
  extract_lets +onlyGivenNames z1
  extract_lets +onlyGivenNames z2
  extract_lets +onlyGivenNames z3
  refine Keeps.cut (x := z3) ?_ (fun h4 => ?_)
  · unfold z3
    refine Keeps.step (State.setFld_keeps ..) rfl ?_
    exact Keeps.refl _ _
  clear_value z3
  split
  · assumption
  · refine Keeps.step (State.modHead_keeps ..) rfl ?_
    assumption

theorem State.forgetFrames_keeps (s : State) (n : Fin 16) :
    Keeps [.regs, .heads] s (State.forgetFrames s n) := by
  unfold State.forgetFrames
  refine Keeps.step (State.updateReady_keeps ..) rfl ?_
  refine Keeps.step (State.modHead_keeps ..) rfl ?_
  exact Keeps.refl _ _

theorem State.dropAddress_keeps (s : State) (n : Fin 16) (first : Option AddrWord) :
    Keeps [.regs, .heads] s (State.dropAddress s n first) := by
  unfold State.dropAddress
  extract_lets +onlyGivenNames z1
  refine Keeps.cut (x := z1) ?_ (fun h2 => ?_)
  · unfold z1
    refine Keeps.step (State.modHead_keeps ..) rfl ?_
    exact Keeps.refl _ _
  clear_value z1
  refine Keeps.step (State.updateReady_keeps ..) rfl ?_
  refine Keeps.step (State.setFld_keeps ..) rfl ?_
  assumption

end Sys2Proof.Machine
end

