-- ==== Sys2Proof/Laws/KeepsMem.lean ====
section
/-!
SUPPORT. Laws/KeepsMem.lean: which parts of a state each operation of Machine/Mem.lean may change, and that it keeps a sound
state sound.
-/

namespace Sys2Proof.Machine

theorem State.storeSymbols_keeps (s : State) (a : Nat) (c : List Nat) : Keeps [.mem] s (s.storeSymbols a c) := by
  unfold State.storeSymbols
  refine Keeps.memTo rfl (fun h => ?_) (Keeps.refl _ _)
  unfold Memory.wf at h ⊢
  have h' := Bool.and_eq_true_iff.mp h
  exact Bool.and_eq_true_iff.mpr ⟨putBytes_wf _ _ _ _ h'.1, putBytes_wf _ _ _ _ h'.2⟩

theorem State.logMem_keeps (s : State) (code : ℕ) (a0 : ℕ) (a1 : ℕ) (a2 : ℕ) (a3 : ℕ) :
    Keeps [.events] s (State.logMem s code a0 a1 a2 a3) := by
  unfold State.logMem
  refine Keeps.step (State.log_keeps ..) rfl ?_
  exact Keeps.refl _ _

theorem State.modSub_keeps (s : State) (k : ℕ) (f : SubCh → SubCh) :
    Keeps [.mem] s (State.modSub s k f) := by
  unfold State.modSub
  refine Keeps.memTo rfl ?_ ?_
  · exact Memory.wf_same rfl rfl rfl
  · exact Keeps.refl _ _

theorem State.autoErase_keeps (s : State) (k : ℕ) (d : ℕ) (count : ℕ) :
    Keeps [.events, .regs] s (State.autoErase s k d count) := by
  unfold State.autoErase
  split
  · refine Keeps.step (State.logMem_keeps ..) rfl ?_
    exact Keeps.refl _ _
  · split
    · extract_lets +onlyGivenNames z1
      extract_lets +onlyGivenNames z2
      refine Keeps.step (State.logMem_keeps ..) rfl ?_
      refine Keeps.step (State.setFld_keeps ..) rfl ?_
      exact Keeps.refl _ _
    · exact Keeps.refl _ _

theorem State.countCorrection_keeps (s : State) (a : ℕ) (pos : ℕ) :
    Keeps [.events, .regs, .mem] s (State.countCorrection s a pos) := by
  unfold State.countCorrection
  extract_lets +onlyGivenNames z1
  extract_lets +onlyGivenNames z2
  extract_lets +onlyGivenNames z3
  refine Keeps.cut (x := z3) ?_ (fun h4 => ?_)
  · unfold z3
    refine Keeps.step (State.bump_keeps ..) rfl ?_
    exact Keeps.refl _ _
  clear_value z3
  extract_lets +onlyGivenNames z5
  extract_lets +onlyGivenNames z6
  extract_lets +onlyGivenNames z7
  refine Keeps.cut (x := z7) ?_ (fun h8 => ?_)
  · unfold z7
    refine Keeps.step (State.bump_keeps ..) rfl ?_
    assumption
  clear_value z7
  extract_lets +onlyGivenNames z9
  extract_lets +onlyGivenNames z10
  refine Keeps.cut (x := z10) ?_ (fun h11 => ?_)
  · unfold z10
    refine Keeps.step (State.modSub_keeps ..) rfl ?_
    assumption
  clear_value z10
  extract_lets +onlyGivenNames z12
  refine Keeps.cut (x := z12) ?_ (fun h13 => ?_)
  · unfold z12
    split
    · refine Keeps.step (State.modSub_keeps ..) rfl ?_
      refine Keeps.step (State.logMem_keeps ..) rfl ?_
      assumption
    · assumption
  clear_value z12
  split
  · refine Keeps.step (State.autoErase_keeps ..) rfl ?_
    assumption
  · assumption

theorem State.queueWriteBack_keeps (s : State) (a : ℕ) :
    Keeps [.events, .mem] s (State.queueWriteBack s a) := by
  unfold State.queueWriteBack
  split
  · refine Keeps.memTo rfl ?_ ?_
    · exact Memory.wf_same rfl rfl rfl
    · exact Keeps.refl _ _
  · extract_lets +onlyGivenNames z1
    extract_lets +onlyGivenNames z3
    refine Keeps.cut (x := z3) ?_ (fun h4 => ?_)
    · unfold z3
      refine Keeps.memTo rfl ?_ ?_
      · exact Memory.wf_same rfl rfl rfl
      · exact Keeps.refl _ _
    clear_value z3
    split
    · extract_lets +onlyGivenNames z5
      refine Keeps.cut (x := z5) ?_ (fun h6 => ?_)
      · unfold z5
        refine Keeps.step (State.logMem_keeps ..) rfl ?_
        assumption
      clear_value z5
      refine Keeps.memTo rfl ?_ ?_
      · exact Memory.wf_same rfl rfl rfl
      · assumption
    · assumption

theorem State.countUncorrectable_keeps (s : State) (cls : ℕ) (a : ℕ) (poison : Bool) :
    Keeps [.events, .regs] s (State.countUncorrectable s cls a poison) := by
  unfold State.countUncorrectable
  extract_lets +onlyGivenNames z1
  refine Keeps.cut (x := z1) ?_ (fun h2 => ?_)
  · unfold z1
    refine Keeps.step (State.bump_keeps ..) rfl ?_
    exact Keeps.refl _ _
  clear_value z1
  extract_lets +onlyGivenNames z3
  refine Keeps.cut (x := z3) ?_ (fun h4 => ?_)
  · unfold z3
    refine Keeps.step (State.setReg_keeps ..) rfl ?_
    assumption
  clear_value z3
  extract_lets +onlyGivenNames z5
  refine Keeps.cut (x := z5) ?_ (fun h6 => ?_)
  · unfold z5
    refine Keeps.step (State.setReg_keeps ..) rfl ?_
    assumption
  clear_value z5
  refine Keeps.step (State.logMem_keeps ..) rfl ?_
  assumption

theorem State.logOutside_keeps (s : State) (cls : ℕ) (a : ℕ) :
    Keeps [.events] s (State.logOutside s cls a) := by
  unfold State.logOutside
  refine Keeps.step (State.logMem_keeps ..) rfl ?_
  exact Keeps.refl _ _

theorem State.setBank_keeps (s : State) (key : ℕ) (b : Bank) :
    Keeps [.mem] s (State.setBank s key b) := by
  unfold State.setBank
  refine Keeps.memTo rfl ?_ ?_
  · exact Memory.wf_same rfl rfl rfl
  · exact Keeps.refl _ _

theorem State.dram_keeps (s : State) (k : ℕ) (c : DramCmd) :
    Keeps [.out] s (State.dram s k c) := by
  unfold State.dram
  refine Keeps.outTo rfl ?_
  exact Keeps.refl _ _

theorem State.rollActivate_keeps (s : State) (key : ℕ) :
    Keeps [.mem, .out] s (State.rollActivate s key) := by
  unfold State.rollActivate
  extract_lets +onlyGivenNames z1
  split
  · split
    · refine Keeps.step (State.dram_keeps ..) rfl ?_
      refine Keeps.step (State.setBank_keeps ..) rfl ?_
      exact Keeps.refl _ _
    · refine Keeps.step (State.setBank_keeps ..) rfl ?_
      exact Keeps.refl _ _
  · exact Keeps.refl _ _

theorem State.touchBurst_keeps (s : State) (a : ℕ) :
    Keeps [.mem, .out] s (State.touchBurst s a) := by
  unfold State.touchBurst
  split
  extract_lets +onlyGivenNames z1
  extract_lets +onlyGivenNames z2
  extract_lets +onlyGivenNames z3
  extract_lets +onlyGivenNames z4
  extract_lets +onlyGivenNames z5
  extract_lets +onlyGivenNames z6
  extract_lets +onlyGivenNames z7
  extract_lets +onlyGivenNames z8
  refine Keeps.cut (x := z8) ?_ (fun h9 => ?_)
  · unfold z8
    split
    · refine Keeps.step (State.dram_keeps ..) rfl ?_
      exact Keeps.refl _ _
    · exact Keeps.refl _ _
  clear_value z8
  extract_lets +onlyGivenNames z10
  refine Keeps.cut (x := z10) ?_ (fun h11 => ?_)
  · unfold z10
    refine Keeps.step (State.setBank_keeps ..) rfl ?_
    assumption
  clear_value z10
  extract_lets +onlyGivenNames z12
  refine Keeps.cut (x := z12) ?_ (fun h13 => ?_)
  · unfold z12
    split
    · assumption
    · refine Keeps.step (State.rollActivate_keeps ..) rfl ?_
      assumption
  clear_value z12
  split
  · refine Keeps.step (State.dram_keeps ..) rfl ?_
    assumption
  · assumption

theorem State.easeActivates_keeps (s : State) (k : ℕ) (n : ℕ) :
    Keeps [.mem] s (State.easeActivates s k n) := by
  unfold State.easeActivates
  split
  · refine Keeps.foldl ?_ (fun _ _ _ => ?_)
    · exact Keeps.refl _ _
    · split
      · rename_i a1 a2 a3 a4 a5 a6 a7
        refine Keeps.step (State.setBank_keeps ..) rfl ?_
        assumption
      · rename_i a8 a9 a10 a11 a12 a13 a14
        assumption
  · exact Keeps.refl _ _

theorem State.payRefreshes_keeps (s : State) (k : ℕ) :
    Keeps [.mem, .out] s (State.payRefreshes s k) := by
  unfold State.payRefreshes
  extract_lets +onlyGivenNames z1
  split
  · exact Keeps.refl _ _
  · refine Keeps.step (State.dram_keeps ..) rfl ?_
    refine Keeps.step (State.modSub_keeps ..) rfl ?_
    refine Keeps.step (State.easeActivates_keeps ..) rfl ?_
    exact Keeps.refl _ _

theorem State.serveBurst_keeps (s : State) (cls : ℕ) (a : ℕ) :
    Keeps [.mem, .out] s (State.serveBurst s cls a) := by
  unfold State.serveBurst
  split
  · refine Keeps.step (State.touchBurst_keeps ..) rfl ?_
    split
    · refine Keeps.step (State.payRefreshes_keeps ..) rfl ?_
      exact Keeps.refl _ _
    · exact Keeps.refl _ _
  · exact Keeps.refl _ _

theorem State.readWord_keeps (s : State) (cls : ℕ) (a : ℕ) :
    Keeps [.events, .regs, .mem] s (State.readWord s cls a).2 := by
  unfold State.readWord
  split
  split
  · refine Keeps.ofMk ?_
    exact Keeps.refl _ _
  · extract_lets +onlyGivenNames z1
    refine Keeps.cut (x := z1) ?_ (fun h2 => ?_)
    · unfold z1
      refine Keeps.step (State.countCorrection_keeps ..) rfl ?_
      exact Keeps.refl _ _
    clear_value z1
    refine Keeps.ofMk ?_
    split
    · assumption
    · refine Keeps.step (State.queueWriteBack_keeps ..) rfl ?_
      assumption
  · refine Keeps.ofMk ?_
    refine Keeps.step (State.countUncorrectable_keeps ..) rfl ?_
    exact Keeps.refl _ _
  · refine Keeps.ofMk ?_
    refine Keeps.step (State.countUncorrectable_keeps ..) rfl ?_
    exact Keeps.refl _ _

theorem State.readWords_keeps (s : State) (cls a k : Nat) :
    Keeps [.events, .regs, .mem] s (s.readWords cls a k).st := by
  induction k generalizing s a with
  | zero =>
    exact Keeps.refl _ _
  | succ k ih =>
    rw [State.readWords]
    split
    · split
      rename_i a1 a2 a3 a4 a5 a6
      extract_lets +onlyGivenNames z7
      refine Keeps.cut (x := z7.st) ?_ (fun h8 => ?_)
      · unfold z7
        refine Keeps.step (ih ..) rfl ?_
        refine Keeps.ofSnd a6 ?_
        refine Keeps.step (State.readWord_keeps ..) rfl ?_
        exact Keeps.refl _ _
      clear_value z7
      refine Keeps.ofRun ?_
      assumption
    · extract_lets +onlyGivenNames z9
      refine Keeps.cut (x := z9.st) ?_ (fun h10 => ?_)
      · unfold z9
        refine Keeps.step (ih ..) rfl ?_
        exact Keeps.refl _ _
      clear_value z9
      refine Keeps.ofRun ?_
      assumption

theorem State.memRead_keeps (s : State) (cls : ℕ) (a : ℕ) (len : ℕ) :
    Keeps [.events, .regs, .mem, .out] s (State.memRead s cls a len).st := by
  unfold State.memRead
  extract_lets +onlyGivenNames z1
  refine Keeps.cut (x := z1) ?_ (fun h2 => ?_)
  · unfold z1
    refine Keeps.foldl ?_ (fun _ _ _ => ?_)
    · exact Keeps.refl _ _
    · refine Keeps.step (State.serveBurst_keeps ..) rfl ?_
      assumption
  clear_value z1
  extract_lets +onlyGivenNames z3
  extract_lets +onlyGivenNames z4
  extract_lets +onlyGivenNames z5
  refine Keeps.cut (x := z5.st) ?_ (fun h6 => ?_)
  · unfold z5
    refine Keeps.step (State.readWords_keeps ..) rfl ?_
    assumption
  clear_value z5
  extract_lets +onlyGivenNames z7
  refine Keeps.cut (x := z7) ?_ (fun h8 => ?_)
  · unfold z7
    split
    · refine Keeps.step (State.logOutside_keeps ..) rfl ?_
      assumption
    · assumption
  clear_value z7
  refine Keeps.ofRun ?_
  assumption

theorem State.flipWord_keeps (s : State) (a : ℕ) (c : List ℕ) :
    Keeps [.regs] s (State.flipWord s a c).1 := by
  unfold State.flipWord
  extract_lets +onlyGivenNames z1
  extract_lets +onlyGivenNames z2
  split
  · extract_lets +onlyGivenNames z3
    refine Keeps.ofMkFst ?_
    refine Keeps.step (State.setFld_keeps ..) rfl ?_
    exact Keeps.refl _ _
  · refine Keeps.ofMkFst ?_
    exact Keeps.refl _ _

theorem State.writeFull_keeps (s : State) (a : ℕ) (d : List ℕ) :
    Keeps [.regs, .mem] s (State.writeFull s a d) := by
  unfold State.writeFull
  split
  rename_i a1 a2 a3 a4
  refine Keeps.step (State.storeSymbols_keeps ..) rfl ?_
  refine Keeps.ofFst a4 ?_
  refine Keeps.step (State.flipWord_keeps ..) rfl ?_
  exact Keeps.refl _ _

theorem State.writePart_keeps (s : State) (cls : ℕ) (a : ℕ) (i : ℕ) (new : List ℕ) :
    Keeps [.events, .regs, .mem] s (State.writePart s cls a i new) := by
  unfold State.writePart
  split
  extract_lets +onlyGivenNames z1
  split
  · refine Keeps.step (State.storeSymbols_keeps ..) rfl ?_
    exact Keeps.refl _ _
  · refine Keeps.step (State.storeSymbols_keeps ..) rfl ?_
    refine Keeps.step (State.countCorrection_keeps ..) rfl ?_
    exact Keeps.refl _ _
  · refine Keeps.step (State.logMem_keeps ..) rfl ?_
    refine Keeps.step (State.storeSymbols_keeps ..) rfl ?_
    exact Keeps.refl _ _
  · refine Keeps.step (State.logMem_keeps ..) rfl ?_
    refine Keeps.step (State.storeSymbols_keeps ..) rfl ?_
    exact Keeps.refl _ _

theorem State.writeWordAt_keeps (s : State) (cls : ℕ) (a : ℕ) (w : ℕ) (bytes : List ℕ) :
    Keeps [.events, .regs, .mem] s (State.writeWordAt s cls a w bytes) := by
  unfold State.writeWordAt
  extract_lets +onlyGivenNames z1
  extract_lets +onlyGivenNames z2
  split
  · refine Keeps.step (State.writeFull_keeps ..) rfl ?_
    exact Keeps.refl _ _
  · refine Keeps.step (State.writePart_keeps ..) rfl ?_
    exact Keeps.refl _ _

theorem State.memWrite_keeps (s : State) (cls : ℕ) (a : ℕ) (bytes : List ℕ) :
    Keeps [.events, .regs, .mem, .out] s (State.memWrite s cls a bytes) := by
  unfold State.memWrite
  extract_lets +onlyGivenNames z1
  split
  · exact Keeps.refl _ _
  · extract_lets +onlyGivenNames z2
    refine Keeps.cut (x := z2) ?_ (fun h3 => ?_)
    · unfold z2
      refine Keeps.foldl ?_ (fun _ _ _ => ?_)
      · exact Keeps.refl _ _
      · refine Keeps.step (State.serveBurst_keeps ..) rfl ?_
        assumption
    clear_value z2
    extract_lets +onlyGivenNames z4
    extract_lets +onlyGivenNames z5
    refine Keeps.cut (x := z5) ?_ (fun h6 => ?_)
    · unfold z5
      refine Keeps.foldl ?_ (fun _ _ _ => ?_)
      · assumption
      · refine Keeps.step (State.writeWordAt_keeps ..) rfl ?_
        assumption
    clear_value z5
    split
    · refine Keeps.step (State.logOutside_keeps ..) rfl ?_
      assumption
    · assumption

end Sys2Proof.Machine
end

