-- ==== Sys2Proof/Laws/KeepsDecodeOps.lean ====
section
/-!
SUPPORT. Laws/KeepsDecodeOps.lean: which parts of a state each operation of Machine/DecodeOps.lean may change, and that it keeps a sound
state sound.
-/

namespace Sys2Proof.Machine

theorem State.logDec_keeps (s : State) (code : ℕ) (a0 : ℕ) (a1 : ℕ) (a2 : ℕ) (a3 : ℕ) :
    Keeps [.events] s (State.logDec s code a0 a1 a2 a3) := by
  unfold State.logDec
  refine Keeps.step (State.log_keeps ..) rfl ?_
  exact Keeps.refl _ _

theorem State.modDec_keeps (s : State) (f : DecodeState → DecodeState) :
    Keeps [.decode] s (State.modDec s f) := by
  unfold State.modDec
  refine Keeps.decodeTo rfl ?_
  exact Keeps.refl _ _

theorem State.outEpisode_keeps (s : State) :
    Keeps [.events, .decode] s (State.outEpisode s) := by
  unfold State.outEpisode
  split
  · refine Keeps.step (State.logDec_keeps ..) rfl ?_
    refine Keeps.step (State.modDec_keeps ..) rfl ?_
    exact Keeps.refl _ _
  · split
    · refine Keeps.step (State.modDec_keeps ..) rfl ?_
      exact Keeps.refl _ _
    · exact Keeps.refl _ _

theorem State.mapRunAhead_keeps (s : State) (f : RunAhead → RunAhead) :
    Keeps [.decode] s (State.mapRunAhead s f) := by
  unfold State.mapRunAhead
  refine Keeps.step (State.modDec_keeps ..) rfl ?_
  exact Keeps.refl _ _

theorem State.putRecord_keeps (s : State) (r : OutRecord) :
    Keeps [.events, .regs, .decode, .mem, .out] s (State.putRecord s r) := by
  unfold State.putRecord
  extract_lets +onlyGivenNames z1
  extract_lets +onlyGivenNames z2
  refine Keeps.cut (x := z2) ?_ (fun h3 => ?_)
  · unfold z2
    refine Keeps.step (State.memWrite_keeps ..) rfl ?_
    exact Keeps.refl _ _
  clear_value z2
  extract_lets +onlyGivenNames z4
  refine Keeps.cut (x := z4) ?_ (fun h5 => ?_)
  · unfold z4
    refine Keeps.step (State.setFld_keeps ..) rfl ?_
    assumption
  clear_value z4
  extract_lets +onlyGivenNames z6
  refine Keeps.cut (x := z6) ?_ (fun h7 => ?_)
  · unfold z6
    split
    · refine Keeps.step (State.mapRunAhead_keeps ..) rfl ?_
      assumption
    · assumption
  clear_value z6
  refine Keeps.step (State.outEpisode_keeps ..) rfl ?_
  assumption

theorem State.emitRecord_keeps (s : State) (r : OutRecord) :
    Keeps [.events, .regs, .decode, .mem, .out] s (State.emitRecord s r) := by
  unfold State.emitRecord
  split
  · refine Keeps.step (State.outEpisode_keeps ..) rfl ?_
    refine Keeps.step (State.modDec_keeps ..) rfl ?_
    exact Keeps.refl _ _
  · refine Keeps.step (State.putRecord_keeps ..) rfl ?_
    exact Keeps.refl _ _

theorem State.drainRecords_keeps (s : State) (k : Nat) :
    Keeps [.events, .regs, .decode, .mem, .out] s (s.drainRecords k) := by
  induction k generalizing s with
  | zero =>
    rw [State.drainRecords]
    exact Keeps.refl _ _
  | succ k ih =>
    rw [State.drainRecords]
    split
    · exact Keeps.refl _ _
    · split
      · exact Keeps.refl _ _
      · refine Keeps.step (ih ..) rfl ?_
        refine Keeps.step (State.putRecord_keeps ..) rfl ?_
        refine Keeps.step (State.modDec_keeps ..) rfl ?_
        exact Keeps.refl _ _

theorem State.bumpDc_keeps (s : State) (k : ℕ) (n : ℕ) :
    Keeps [.regs] s (State.bumpDc s k n) := by
  unfold State.bumpDc
  refine Keeps.step (State.bump_keeps ..) rfl ?_
  exact Keeps.refl _ _

theorem State.countIn_keeps (s : State) (head : ℕ) (pass : ℕ) (layer : ℕ) (band : ℕ) (k : ℕ) (n : ℕ) :
    Keeps [.regs, .decode] s (State.countIn s head pass layer band k n) := by
  unfold State.countIn
  split
  · refine Keeps.step (State.mapRunAhead_keeps ..) rfl ?_
    exact Keeps.refl _ _
  · refine Keeps.step (State.bumpDc_keeps ..) rfl ?_
    exact Keeps.refl _ _

theorem State.countSector_keeps (s : State) (x : Sector) (k : ℕ) :
    Keeps [.regs, .decode] s (State.countSector s x k) := by
  unfold State.countSector
  refine Keeps.step (State.countIn_keeps ..) rfl ?_
  exact Keeps.refl _ _

theorem State.modSector_keeps (s : State) (id : ℕ) (f : Sector → Sector) :
    Keeps [.decode] s (State.modSector s id f) := by
  unfold State.modSector
  refine Keeps.step (State.modDec_keeps ..) rfl ?_
  exact Keeps.refl _ _

theorem State.emitGroup_keeps (s : State) (g : Group) (status : ℕ) (unknown : ℕ) (rebuilt : ℕ) :
    Keeps [.events, .regs, .decode, .mem, .out] s (State.emitGroup s g status unknown rebuilt) := by
  unfold State.emitGroup
  extract_lets +onlyGivenNames z1
  refine Keeps.step (State.emitRecord_keeps ..) rfl ?_
  exact Keeps.refl _ _

theorem State.deferGroup_keeps (s : State) (g : Group) :
    Keeps [.events, .regs, .decode, .mem, .out] s (State.deferGroup s g) := by
  unfold State.deferGroup
  refine Keeps.step (State.countIn_keeps ..) rfl ?_
  refine Keeps.step (State.emitGroup_keeps ..) rfl ?_
  exact Keeps.refl _ _

theorem State.closeGroup_keeps (s : State) (g : Group) (atHem : Bool) :
    Keeps [.events, .regs, .decode, .mem, .out] s (State.closeGroup s g atHem) := by
  unfold State.closeGroup
  extract_lets +onlyGivenNames z1
  refine Keeps.cut (x := z1) ?_ (fun h2 => ?_)
  · unfold z1
    refine Keeps.step (State.modDec_keeps ..) rfl ?_
    exact Keeps.refl _ _
  extract_lets +onlyGivenNames z3
  split
  · assumption
  · split
    · refine Keeps.step (State.deferGroup_keeps ..) rfl ?_
      assumption
    · split
      · refine Keeps.step (State.logDec_keeps ..) rfl ?_
        refine Keeps.step (State.deferGroup_keeps ..) rfl ?_
        assumption
      · refine Keeps.step (State.modDec_keeps ..) rfl ?_
        assumption

theorem State.memberOutcome_keeps (s : State) (head : ℕ) (pass : ℕ) (layer : ℕ) (band : ℕ) (grp : ℕ) (i : ℕ) (m : Member) :
    Keeps [.events, .regs, .decode, .mem, .out] s (State.memberOutcome s head pass layer band grp i m) := by
  unfold State.memberOutcome
  split
  · exact Keeps.refl _ _
  · extract_lets +onlyGivenNames z1
    extract_lets +onlyGivenNames z2
    extract_lets +onlyGivenNames z3
    split
    · refine Keeps.step (State.closeGroup_keeps ..) rfl ?_
      exact Keeps.refl _ _
    · refine Keeps.step (State.modDec_keeps ..) rfl ?_
      exact Keeps.refl _ _

theorem State.finishSector_keeps (s : State) (x : Sector) (o : SecOutcome) (path : ℕ) (data : ℕ) (tag : ℕ) (asm : ℕ) (known : Bool) :
    Keeps [.events, .regs, .decode, .mem, .out] s (State.finishSector s x o path data tag asm known) := by
  unfold State.finishSector
  extract_lets +onlyGivenNames z1
  extract_lets +onlyGivenNames z2
  extract_lets +onlyGivenNames z3
  refine Keeps.cut (x := z3) ?_ (fun h4 => ?_)
  · unfold z3
    refine Keeps.step (State.emitRecord_keeps ..) rfl ?_
    exact Keeps.refl _ _
  clear_value z3
  extract_lets +onlyGivenNames z5
  refine Keeps.cut (x := z5) ?_ (fun h6 => ?_)
  · unfold z5
    split
    · assumption
    · refine Keeps.step (State.memberOutcome_keeps ..) rfl ?_
      assumption
  clear_value z5
  refine Keeps.step (State.modDec_keeps ..) rfl ?_
  assumption

theorem State.completeWork_keeps (s : State) (w : Waiter) (status : ℕ) (data : ℕ) :
    Keeps [.seq] s (State.completeWork s w status data) := by
  unfold State.completeWork
  refine Keeps.step (State.complete_keeps ..) rfl ?_
  exact Keeps.refl _ _

theorem State.failSector_keeps (s : State) (x : Sector) (path : ℕ) (status : ℕ) :
    Keeps [.events, .regs, .decode, .seq, .mem, .out] s (State.failSector s x path status) := by
  unfold State.failSector
  split
  · extract_lets +onlyGivenNames z1
    extract_lets +onlyGivenNames z2
    refine Keeps.cut (x := z2) ?_ (fun h3 => ?_)
    · unfold z2
      refine Keeps.step (State.finishSector_keeps ..) rfl ?_
      exact Keeps.refl _ _
    clear_value z2
    split
    · refine Keeps.step (State.completeWork_keeps ..) rfl ?_
      refine Keeps.step (State.modDec_keeps ..) rfl ?_
      assumption
    · assumption
  · refine Keeps.step (State.finishSector_keeps ..) rfl ?_
    exact Keeps.refl _ _
  · refine Keeps.step (State.finishSector_keeps ..) rfl ?_
    exact Keeps.refl _ _

theorem State.payloadAddr_keeps (s : State) (head : ℕ) (pass : ℕ) (layer : ℕ) (band : ℕ) :
    Keeps [.free] s (State.payloadAddr s head pass layer band).2 := by
  unfold State.payloadAddr
  split
  rename_i a1 a2 a3 a4
  split
  · refine Keeps.ofMk ?_
    refine Keeps.ofSnd a4 ?_
    refine Keeps.step (State.draw_keeps ..) rfl ?_
    exact Keeps.refl _ _
  · refine Keeps.ofMk ?_
    refine Keeps.ofSnd a4 ?_
    refine Keeps.step (State.draw_keeps ..) rfl ?_
    exact Keeps.refl _ _

theorem State.deliveryAddr_keeps (s : State) (x : Sector) :
    Keeps [.free] s (State.deliveryAddr s x).2 := by
  unfold State.deliveryAddr
  split
  · refine Keeps.ofMk ?_
    exact Keeps.refl _ _
  · refine Keeps.step (State.payloadAddr_keeps ..) rfl ?_
    exact Keeps.refl _ _

theorem State.releaseCopy_keeps (s : State) (heads : Fin 16 → Bool) (address : ℕ) :
    Keeps [.heads] s (State.releaseCopy s heads address) := by
  unfold State.releaseCopy
  refine Keeps.foldl ?_ (fun _ _ _ => ?_)
  · exact Keeps.refl _ _
  · split
    · rename_i a1 a2 a3 a4
      refine Keeps.step (State.modHead_keeps ..) rfl ?_
      assumption
    · rename_i a5 a6 a7 a8
      assumption

theorem State.countVerify_keeps (s : State) (x : Sector) (ok : Bool) (rawFail : Bool) :
    Keeps [.regs] s (State.countVerify s x ok rawFail) := by
  unfold State.countVerify
  extract_lets +onlyGivenNames z1
  refine Keeps.cut (x := z1) ?_ (fun h2 => ?_)
  · unfold z1
    split
    · refine Keeps.step (State.bump_keeps ..) rfl ?_
      exact Keeps.refl _ _
    · refine Keeps.step (State.bump_keeps ..) rfl ?_
      exact Keeps.refl _ _
  clear_value z1
  split
  · refine Keeps.step (State.bump_keeps ..) rfl ?_
    assumption
  · assumption

theorem State.deliverSector_keeps (s : State) (x : Sector) (b : List ℕ) (deep : Bool) :
    Keeps [.events, .regs, .heads, .decode, .seq, .mem, .out, .free] s (State.deliverSector s x b deep) := by
  unfold State.deliverSector
  extract_lets +onlyGivenNames z1
  extract_lets +onlyGivenNames z2
  refine Keeps.cut (x := z2) ?_ (fun h3 => ?_)
  · unfold z2
    refine Keeps.step (State.countSector_keeps ..) rfl ?_
    exact Keeps.refl _ _
  clear_value z2
  split
  rename_i a4 a5 a6 a7
  extract_lets +onlyGivenNames z8
  refine Keeps.cut (x := z8) ?_ (fun h9 => ?_)
  · unfold z8
    refine Keeps.step (State.releaseCopy_keeps ..) rfl ?_
    refine Keeps.step (State.memWrite_keeps ..) rfl ?_
    refine Keeps.ofSnd a7 ?_
    refine Keeps.step (State.deliveryAddr_keeps ..) rfl ?_
    assumption
  clear_value z8
  extract_lets +onlyGivenNames z10
  extract_lets +onlyGivenNames z11
  split
  · refine Keeps.step (State.finishSector_keeps ..) rfl ?_
    assumption
  · extract_lets +onlyGivenNames z12
    extract_lets +onlyGivenNames z13
    extract_lets +onlyGivenNames z14
    extract_lets +onlyGivenNames z15
    refine Keeps.cut (x := z15) ?_ (fun h16 => ?_)
    · unfold z15
      refine Keeps.step (State.countVerify_keeps ..) rfl ?_
      assumption
    clear_value z15
    refine Keeps.step (State.finishSector_keeps ..) rfl ?_
    assumption
  · extract_lets +onlyGivenNames z17
    extract_lets +onlyGivenNames z18
    refine Keeps.cut (x := z18) ?_ (fun h19 => ?_)
    · unfold z18
      refine Keeps.step (State.finishSector_keeps ..) rfl ?_
      assumption
    clear_value z18
    split
    · refine Keeps.step (State.completeWork_keeps ..) rfl ?_
      refine Keeps.step (State.modDec_keeps ..) rfl ?_
      assumption
    · assumption

theorem State.eraseSector_keeps (s : State) (x : Sector) (path : ℕ) (status : ℕ) (f : SecInfo → SecInfo) :
    Keeps [.events, .regs, .decode, .seq, .mem, .out] s (State.eraseSector s x path status f) := by
  unfold State.eraseSector
  extract_lets +onlyGivenNames z1
  extract_lets +onlyGivenNames z2
  refine Keeps.cut (x := z2) ?_ (fun h3 => ?_)
  · unfold z2
    split
    · refine Keeps.step (State.countVerify_keeps ..) rfl ?_
      exact Keeps.refl _ _
    · exact Keeps.refl _ _
  clear_value z2
  refine Keeps.step (State.failSector_keeps ..) rfl ?_
  assumption

theorem State.enterDeep_keeps (s : State) (x : Sector) (ch : Array ℤ) :
    Keeps [.events, .regs, .decode, .seq, .mem, .out] s (State.enterDeep s x ch) := by
  unfold State.enterDeep
  extract_lets +onlyGivenNames z1
  extract_lets +onlyGivenNames z2
  split
  · extract_lets +onlyGivenNames z3
    refine Keeps.cut (x := z3) ?_ (fun h4 => ?_)
    · unfold z3
      refine Keeps.step (State.modSector_keeps ..) rfl ?_
      exact Keeps.refl _ _
    clear_value z3
    extract_lets +onlyGivenNames z5
    extract_lets +onlyGivenNames z6
    refine Keeps.cut (x := z6) ?_ (fun h7 => ?_)
    · unfold z6
      refine Keeps.step (State.memWrite_keeps ..) rfl ?_
      assumption
    clear_value z6
    refine Keeps.step (State.modDec_keeps ..) rfl ?_
    assumption
  · extract_lets +onlyGivenNames z8
    refine Keeps.cut (x := z8) ?_ (fun h9 => ?_)
    · unfold z8
      split
      · refine Keeps.step (State.logDec_keeps ..) rfl ?_
        refine Keeps.step (State.modDec_keeps ..) rfl ?_
        exact Keeps.refl _ _
      · exact Keeps.refl _ _
    clear_value z8
    split
    · refine Keeps.step (State.failSector_keeps ..) rfl ?_
      assumption
    · refine Keeps.step (State.eraseSector_keeps ..) rfl ?_
      refine Keeps.step (State.countSector_keeps ..) rfl ?_
      assumption

theorem State.deepEpisode_keeps (s : State) :
    Keeps [.decode] s (State.deepEpisode s) := by
  unfold State.deepEpisode
  split
  · refine Keeps.step (State.modDec_keeps ..) rfl ?_
    exact Keeps.refl _ _
  · exact Keeps.refl _ _

theorem State.acceptSector_keeps (s : State) (x : Sector) (ch : Array ℤ) (post : Array ℤ) (deep : Bool) :
    Keeps [.events, .regs, .heads, .decode, .seq, .mem, .out, .free] s (State.acceptSector s x ch post deep) := by
  unfold State.acceptSector
  extract_lets +onlyGivenNames z1
  extract_lets +onlyGivenNames z2
  split
  · extract_lets +onlyGivenNames z3
    refine Keeps.cut (x := z3) ?_ (fun h4 => ?_)
    · unfold z3
      refine Keeps.step (State.logDec_keeps ..) rfl ?_
      refine Keeps.step (State.countSector_keeps ..) rfl ?_
      exact Keeps.refl _ _
    clear_value z3
    split
    · refine Keeps.step (State.eraseSector_keeps ..) rfl ?_
      assumption
    · refine Keeps.step (State.enterDeep_keeps ..) rfl ?_
      assumption
  · split
    · extract_lets +onlyGivenNames z5
      refine Keeps.cut (x := z5) ?_ (fun h6 => ?_)
      · unfold z5
        refine Keeps.step (State.logDec_keeps ..) rfl ?_
        refine Keeps.step (State.countSector_keeps ..) rfl ?_
        exact Keeps.refl _ _
      clear_value z5
      refine Keeps.step (State.eraseSector_keeps ..) rfl ?_
      assumption
    · refine Keeps.step (State.deliverSector_keeps ..) rfl ?_
      exact Keeps.refl _ _

theorem State.dropFromQueues_keeps (s : State) (ids : List ℕ) :
    Keeps [.decode] s (State.dropFromQueues s ids) := by
  unfold State.dropFromQueues
  extract_lets +onlyGivenNames z1
  refine Keeps.step (State.deepEpisode_keeps ..) rfl ?_
  refine Keeps.step (State.modDec_keeps ..) rfl ?_
  exact Keeps.refl _ _

theorem State.withdrawSectors_keeps (s : State) (xs : List Sector) :
    Keeps [.events, .regs, .decode, .mem, .out] s (State.withdrawSectors s xs) := by
  unfold State.withdrawSectors
  extract_lets +onlyGivenNames z1
  refine Keeps.cut (x := z1) ?_ (fun h2 => ?_)
  · unfold z1
    refine Keeps.step (State.dropFromQueues_keeps ..) rfl ?_
    exact Keeps.refl _ _
  clear_value z1
  refine Keeps.foldl ?_ (fun _ _ _ => ?_)
  · assumption
  · refine Keeps.step (State.finishSector_keeps ..) rfl ?_
    assumption

theorem State.closePassGroups_keeps (s : State) (head : ℕ) (pass : ℕ) :
    Keeps [.events, .regs, .decode, .mem, .out] s (State.closePassGroups s head pass) := by
  unfold State.closePassGroups
  extract_lets +onlyGivenNames z1
  extract_lets +onlyGivenNames z2
  extract_lets +onlyGivenNames z3
  refine Keeps.cut (x := z3) ?_ (fun h4 => ?_)
  · unfold z3
    refine Keeps.step (State.modDec_keeps ..) rfl ?_
    exact Keeps.refl _ _
  clear_value z3
  extract_lets +onlyGivenNames z5
  refine Keeps.cut (x := z5) ?_ (fun h6 => ?_)
  · unfold z5
    refine Keeps.foldl ?_ (fun _ _ _ => ?_)
    · assumption
    · refine Keeps.step (State.deferGroup_keeps ..) rfl ?_
      assumption
  clear_value z5
  refine Keeps.foldl ?_ (fun _ _ _ => ?_)
  · assumption
  · refine Keeps.step (State.closeGroup_keeps ..) rfl ?_
    assumption

theorem State.markBand_keeps (s : State) (r : RunAhead) (f : Pass → Pass) :
    Keeps [.heads] s (State.markBand s r f) := by
  unfold State.markBand
  split
  · refine Keeps.step (State.modHead_keeps ..) rfl ?_
    exact Keeps.refl _ _
  · exact Keeps.refl _ _

theorem State.discardBand_keeps (s : State) (r : RunAhead) (cause : ℕ) :
    Keeps [.events, .regs, .heads, .decode] s (State.discardBand s r cause) := by
  unfold State.discardBand
  extract_lets +onlyGivenNames z1
  extract_lets +onlyGivenNames z2
  refine Keeps.cut (x := z2) ?_ (fun h3 => ?_)
  · unfold z2
    refine Keeps.step (State.dropFromQueues_keeps ..) rfl ?_
    exact Keeps.refl _ _
  clear_value z2
  extract_lets +onlyGivenNames z4
  extract_lets +onlyGivenNames z5
  refine Keeps.cut (x := z5) ?_ (fun h6 => ?_)
  · unfold z5
    refine Keeps.step (State.modDec_keeps ..) rfl ?_
    assumption
  clear_value z5
  extract_lets +onlyGivenNames z7
  refine Keeps.cut (x := z7) ?_ (fun h8 => ?_)
  · unfold z7
    refine Keeps.step (State.markBand_keeps ..) rfl ?_
    assumption
  clear_value z7
  refine Keeps.step (State.logDec_keeps ..) rfl ?_
  refine Keeps.step (State.bumpDc_keeps ..) rfl ?_
  assumption

theorem State.discardHeadBands_keeps (s : State) (head : ℕ) (cause : ℕ) :
    Keeps [.events, .regs, .heads, .decode] s (State.discardHeadBands s head cause) := by
  unfold State.discardHeadBands
  refine Keeps.foldl ?_ (fun _ _ _ => ?_)
  · exact Keeps.refl _ _
  · refine Keeps.step (State.discardBand_keeps ..) rfl ?_
    assumption

theorem State.claimBand_keeps (s : State) (r : RunAhead) (by' : Stamp) :
    Keeps [.events, .regs, .heads, .decode, .mem, .out] s (State.claimBand s r by') := by
  unfold State.claimBand
  extract_lets +onlyGivenNames z1
  extract_lets +onlyGivenNames z2
  refine Keeps.cut (x := z2) ?_ (fun h3 => ?_)
  · unfold z2
    refine Keeps.foldl ?_ (fun _ _ _ => ?_)
    · exact Keeps.refl _ _
    · unfold z1
      extract_lets +onlyGivenNames z4
      refine Keeps.step (State.memWrite_keeps ..) rfl ?_
      assumption
  clear_value z2
  extract_lets +onlyGivenNames z5
  refine Keeps.cut (x := z5) ?_ (fun h6 => ?_)
  · unfold z5
    refine Keeps.step (State.modDec_keeps ..) rfl ?_
    assumption
  clear_value z5
  extract_lets +onlyGivenNames z7
  refine Keeps.cut (x := z7) ?_ (fun h8 => ?_)
  · unfold z7
    refine Keeps.step (State.markBand_keeps ..) rfl ?_
    assumption
  clear_value z7
  extract_lets +onlyGivenNames z9
  refine Keeps.cut (x := z9) ?_ (fun h10 => ?_)
  · unfold z9
    refine Keeps.foldl ?_ (fun _ _ _ => ?_)
    · assumption
    · split
      rename_i a11 a12 a13 a14 a15
      refine Keeps.step (State.bumpDc_keeps ..) rfl ?_
      assumption
  clear_value z9
  refine Keeps.step (State.bumpDc_keeps ..) rfl ?_
  assumption

theorem State.releaseBands_keeps (s : State) (by' : Stamp) :
    Keeps [.decode] s (State.releaseBands s by') := by
  unfold State.releaseBands
  refine Keeps.step (State.modDec_keeps ..) rfl ?_
  exact Keeps.refl _ _

end Sys2Proof.Machine
end

