-- ==== Sys2Proof/Laws/KeepsLoopOps.lean ====
section
/-!
SUPPORT. Laws/KeepsLoopOps.lean: which parts of a state each operation of Machine/LoopOps.lean may change, and that it keeps a sound
state sound.
-/

namespace Sys2Proof.Machine

theorem State.modSlot_keeps (s : State) (k : Fin 96) (f : Slot → Slot) :
    Keeps [.loop] s (State.modSlot s k f) := by
  unfold State.modSlot
  refine Keeps.loopTo rfl ?_
  exact Keeps.refl _ _

theorem State.modLoopHead_keeps (s : State) (n : Fin 16) (f : LoopHead → LoopHead) :
    Keeps [.loop] s (State.modLoopHead s n f) := by
  unfold State.modLoopHead
  refine Keeps.loopTo rfl ?_
  exact Keeps.refl _ _

theorem State.sendSetpt_keeps (s : State) (n : Fin 16) (servo : Bool) (act : ℕ) (v : ℤ) :
    Keeps [.heads] s (State.sendSetpt s n servo act v) := by
  unfold State.sendSetpt
  extract_lets +onlyGivenNames z1
  split
  · refine Keeps.step (State.modHead_keeps ..) rfl ?_
    exact Keeps.refl _ _
  · exact Keeps.refl _ _

theorem State.zeroLastOut_keeps (s : State) (k : Fin 96) :
    Keeps [.loop] s (State.zeroLastOut s k) := by
  unfold State.zeroLastOut
  split
  · split
    · refine Keeps.step (State.modSlot_keeps ..) rfl ?_
      exact Keeps.refl _ _
    · exact Keeps.refl _ _
  · exact Keeps.refl _ _

theorem State.finalSetpoints_keeps (s : State) (k : Fin 96) :
    Keeps [.heads, .loop] s (State.finalSetpoints s k) := by
  unfold State.finalSetpoints
  split
  · exact Keeps.refl _ _
  · extract_lets +onlyGivenNames z1
    refine Keeps.foldl ?_ (fun _ _ _ => ?_)
    · refine Keeps.step (State.zeroLastOut_keeps ..) rfl ?_
      exact Keeps.refl _ _
    · split
      · rename_i a2 a3 a4 a5 a6 a7 a8
        refine Keeps.step (State.sendSetpt_keeps ..) rfl ?_
        assumption
      · rename_i a9 a10 a11 a12 a13 a14 a15
        split
        · refine Keeps.foldl ?_ (fun _ _ _ => ?_)
          · assumption
          · refine Keeps.step (State.sendSetpt_keeps ..) rfl ?_
            assumption
        · assumption

theorem State.applyCoefs_keeps (s : State) (k : Fin 96) :
    Keeps [.regs, .loop] s (State.applyCoefs s k) := by
  unfold State.applyCoefs
  extract_lets +onlyGivenNames z1
  refine Keeps.cut (x := z1) ?_ (fun h2 => ?_)
  · unfold z1
    refine Keeps.foldl ?_ (fun _ _ _ => ?_)
    · exact Keeps.refl _ _
    · split
      rename_i a3 a4 a5 a6 a7
      refine Keeps.step (State.setReg_keeps ..) rfl ?_
      assumption
  clear_value z1
  refine Keeps.step (State.modSlot_keeps ..) rfl ?_
  assumption

theorem State.restartLost_keeps (s : State) (k : Fin 96) :
    Keeps [.loop] s (State.restartLost s k) := by
  unfold State.restartLost
  split
  · split
    · refine Keeps.step (State.modLoopHead_keeps ..) rfl ?_
      exact Keeps.refl _ _
    · exact Keeps.refl _ _
  · exact Keeps.refl _ _

theorem State.disableSlot_keeps (s : State) (k : Fin 96) :
    Keeps [.regs, .heads, .loop] s (State.disableSlot s k) := by
  unfold State.disableSlot
  extract_lets +onlyGivenNames z1
  refine Keeps.cut (x := z1) ?_ (fun h2 => ?_)
  · unfold z1
    split
    · exact Keeps.refl _ _
    · refine Keeps.step (State.finalSetpoints_keeps ..) rfl ?_
      exact Keeps.refl _ _
  clear_value z1
  refine Keeps.step (State.modSlot_keeps ..) rfl ?_
  refine Keeps.step (State.restartLost_keeps ..) rfl ?_
  refine Keeps.step (State.applyCoefs_keeps ..) rfl ?_
  assumption

theorem State.hwHoldSlot_keeps (s : State) (k : Fin 96) :
    Keeps [.loop] s (State.hwHoldSlot s k) := by
  unfold State.hwHoldSlot
  refine Keeps.step (State.modSlot_keeps ..) rfl ?_
  exact Keeps.refl _ _

theorem State.linkHoldSlots_keeps (s : State) (n : Fin 16) :
    Keeps [.heads, .loop] s (State.linkHoldSlots s n) := by
  unfold State.linkHoldSlots
  extract_lets +onlyGivenNames z1
  refine Keeps.cut (x := z1) ?_ (fun h2 => ?_)
  · unfold z1
    refine Keeps.step (State.modHead_keeps ..) rfl ?_
    exact Keeps.refl _ _
  clear_value z1
  refine Keeps.foldl ?_ (fun _ _ _ => ?_)
  · assumption
  · refine Keeps.step (State.hwHoldSlot_keeps ..) rfl ?_
    assumption

theorem State.linkReleaseSlots_keeps (s : State) (n : Fin 16) :
    Keeps [.heads] s (State.linkReleaseSlots s n) := by
  unfold State.linkReleaseSlots
  refine Keeps.step (State.modHead_keeps ..) rfl ?_
  exact Keeps.refl _ _

theorem State.disableHeadSlots_keeps (s : State) (n : Fin 16) :
    Keeps [.regs, .heads, .loop] s (State.disableHeadSlots s n) := by
  unfold State.disableHeadSlots
  refine Keeps.foldl ?_ (fun _ _ _ => ?_)
  · exact Keeps.refl _ _
  · refine Keeps.step (State.disableSlot_keeps ..) rfl ?_
    assumption

theorem State.endSequence_keeps (s : State) (n : Fin 16) (result : ℕ) :
    Keeps [.events, .regs, .heads, .loop, .seq] s (State.endSequence s n result) := by
  unfold State.endSequence
  split
  · exact Keeps.refl _ _
  · extract_lets +onlyGivenNames z1
    refine Keeps.cut (x := z1) ?_ (fun h2 => ?_)
    · unfold z1
      split
      · refine Keeps.step (State.modSlot_keeps ..) rfl ?_
        exact Keeps.refl _ _
      · exact Keeps.refl _ _
    clear_value z1
    extract_lets +onlyGivenNames z3
    refine Keeps.cut (x := z3) ?_ (fun h4 => ?_)
    · unfold z3
      refine Keeps.step (State.modLoopHead_keeps ..) rfl ?_
      assumption
    clear_value z3
    extract_lets +onlyGivenNames z5
    refine Keeps.cut (x := z5) ?_ (fun h6 => ?_)
    · unfold z5
      refine Keeps.step (State.setFld_keeps ..) rfl ?_
      assumption
    clear_value z5
    extract_lets +onlyGivenNames z7
    refine Keeps.cut (x := z7) ?_ (fun h8 => ?_)
    · unfold z7
      refine Keeps.step (State.setFld_keeps ..) rfl ?_
      assumption
    clear_value z7
    extract_lets +onlyGivenNames z9
    refine Keeps.cut (x := z9) ?_ (fun h10 => ?_)
    · unfold z9
      refine Keeps.step (State.log_keeps ..) rfl ?_
      assumption
    clear_value z9
    split
    · refine Keeps.step (State.complete_keeps ..) rfl ?_
      assumption
    · refine Keeps.step (State.modHead_keeps ..) rfl ?_
      assumption

end Sys2Proof.Machine
end

