-- ==== Sys2Proof/Laws/KeepsHeadOps.lean ====
section
/-!
SUPPORT. Laws/KeepsHeadOps.lean: which parts of a state each operation of Machine/HeadOps.lean may change, and that it keeps a sound
state sound.
-/

namespace Sys2Proof.Machine

theorem State.modLink_keeps (s : State) (n : Fin 16) (f : Link → Link) :
    Keeps [.heads] s (State.modLink s n f) := by
  unfold State.modLink
  refine Keeps.step (State.modHead_keeps ..) rfl ?_
  exact Keeps.refl _ _

theorem State.modPass_keeps (s : State) (n : Fin 16) (f : Pass → Pass) :
    Keeps [.heads] s (State.modPass s n f) := by
  unfold State.modPass
  refine Keeps.step (State.modHead_keeps ..) rfl ?_
  exact Keeps.refl _ _

theorem State.modBeam_keeps (s : State) (n : Fin 16) (b : Fin 12) (f : Beam → Beam) :
    Keeps [.heads] s (State.modBeam s n b f) := by
  unfold State.modBeam
  refine Keeps.step (State.modHead_keeps ..) rfl ?_
  exact Keeps.refl _ _

theorem State.sendMsg_keeps (s : State) (n : Fin 16) (m : Msg) :
    Keeps [.heads] s (State.sendMsg s n m) := by
  unfold State.sendMsg
  split
  · refine Keeps.step (State.modLink_keeps ..) rfl ?_
    exact Keeps.refl _ _
  · exact Keeps.refl _ _

theorem State.sendSafe_keeps (s : State) (n : Fin 16) :
    Keeps [.heads] s (State.sendSafe s n) := by
  unfold State.sendSafe
  split
  · refine Keeps.step (State.sendMsg_keeps ..) rfl ?_
    exact Keeps.refl _ _
  · refine Keeps.step (State.sendMsg_keeps ..) rfl ?_
    exact Keeps.refl _ _
  · refine Keeps.step (State.modLink_keeps ..) rfl ?_
    exact Keeps.refl _ _
  · exact Keeps.refl _ _
  · exact Keeps.refl _ _

theorem State.settleWrites_keeps (s : State) (n : Fin 16) (t : Stamp) :
    Keeps [.regs, .heads] s (State.settleWrites s n t) := by
  unfold State.settleWrites
  split
  · exact Keeps.refl _ _
  · split
    · exact Keeps.refl _ _
    · split
      · exact Keeps.refl _ _
      · extract_lets +onlyGivenNames z1
        extract_lets +onlyGivenNames z2
        refine Keeps.cut (x := z2) ?_ (fun h3 => ?_)
        · unfold z2
          refine Keeps.foldl ?_ (fun _ _ _ => ?_)
          · exact Keeps.refl _ _
          · split
            rename_i a4 a5 a6 a7 a8 a9 a10 a11 a12 a13 a14 a15
            split
            · assumption
            · split
              · assumption
              · extract_lets +onlyGivenNames z16
                refine Keeps.cut (x := z16) ?_ (fun h17 => ?_)
                · unfold z16
                  split
                  · refine Keeps.step (State.modPass_keeps ..) rfl ?_
                    assumption
                  · assumption
                clear_value z16
                split
                · refine Keeps.step (State.bump_keeps ..) rfl ?_
                  refine Keeps.step (State.modPass_keeps ..) rfl ?_
                  assumption
                · assumption
        clear_value z2
        extract_lets +onlyGivenNames z18
        refine Keeps.step (State.modPass_keeps ..) rfl ?_
        assumption

theorem State.voidSlot_keeps (s : State) (n : Fin 16) (d : BandDesc) (e : SlotEntry) (cause : ℕ) :
    Keeps [.events, .regs, .heads, .mem, .out] s (State.voidSlot s n d e cause) := by
  unfold State.voidSlot
  extract_lets +onlyGivenNames z1
  extract_lets +onlyGivenNames z2
  extract_lets +onlyGivenNames z3
  refine Keeps.cut (x := z3) ?_ (fun h4 => ?_)
  · unfold z3
    refine Keeps.step (State.memWrite_keeps ..) rfl ?_
    exact Keeps.refl _ _
  clear_value z3
  extract_lets +onlyGivenNames z5
  extract_lets +onlyGivenNames z6
  refine Keeps.cut (x := z6) ?_ (fun h7 => ?_)
  · unfold z6
    refine Keeps.step (State.memWrite_keeps ..) rfl ?_
    assumption
  clear_value z6
  extract_lets +onlyGivenNames z8
  refine Keeps.cut (x := z8) ?_ (fun h9 => ?_)
  · unfold z8
    refine Keeps.step (State.bump_keeps ..) rfl ?_
    assumption
  clear_value z8
  extract_lets +onlyGivenNames z10
  extract_lets +onlyGivenNames z11
  refine Keeps.step (State.modPass_keeps ..) rfl ?_
  assumption

theorem State.recordCut_keeps (s : State) (n : Fin 16) (p : Pass) (e : SlotEntry) (t : Stamp) (o : SecOutcome) :
    Keeps [.events, .regs, .decode, .mem, .out] s (State.recordCut s n p e t o) := by
  unfold State.recordCut
  extract_lets +onlyGivenNames z1
  refine Keeps.step (State.emitRecord_keeps ..) rfl ?_
  exact Keeps.refl _ _

theorem State.stopWrites_keeps (s : State) (n : Fin 16) (t : Stamp) (last : Stamp) (cause : ℕ) :
    Keeps [.events, .regs, .heads, .decode, .mem, .out] s (State.stopWrites s n t last cause) := by
  unfold State.stopWrites
  extract_lets +onlyGivenNames z1
  refine Keeps.cut (x := z1) ?_ (fun h2 => ?_)
  · unfold z1
    refine Keeps.step (State.settleWrites_keeps ..) rfl ?_
    exact Keeps.refl _ _
  clear_value z1
  split
  · assumption
  · split
    · assumption
    · split
      · assumption
      · extract_lets +onlyGivenNames z3
        refine Keeps.cut (x := z3) ?_ (fun h4 => ?_)
        · unfold z3
          refine Keeps.foldl ?_ (fun _ _ _ => ?_)
          · assumption
          · split
            rename_i a5 a6 a7 a8 a9 a10 a11 a12 a13 a14 a15 a16
            split
            · assumption
            · split
              · split
                · assumption
                · split
                  · refine Keeps.step (State.voidSlot_keeps ..) rfl ?_
                    refine Keeps.step (State.modPass_keeps ..) rfl ?_
                    refine Keeps.step (State.recordCut_keeps ..) rfl ?_
                    assumption
                  · refine Keeps.step (State.voidSlot_keeps ..) rfl ?_
                    assumption
              · refine Keeps.step (State.voidSlot_keeps ..) rfl ?_
                assumption
        clear_value z3
        extract_lets +onlyGivenNames z17
        refine Keeps.step (State.modPass_keeps ..) rfl ?_
        assumption

theorem State.gateStop_keeps (s : State) (n : Fin 16) (cause : ℕ) :
    Keeps [.events, .regs, .heads, .decode, .mem, .out] s (State.gateStop s n cause) := by
  unfold State.gateStop
  split
  · exact Keeps.refl _ _
  · extract_lets +onlyGivenNames z1
    refine Keeps.step (State.stopWrites_keeps ..) rfl ?_
    refine Keeps.step (State.sendMsg_keeps ..) rfl ?_
    exact Keeps.refl _ _

theorem State.reportVoids_keeps (s : State) (n : Fin 16) :
    Keeps [.events, .heads] s (State.reportVoids s n) := by
  unfold State.reportVoids
  split
  · split
    · extract_lets +onlyGivenNames z1
      refine Keeps.step (State.modPass_keeps ..) rfl ?_
      refine Keeps.step (State.logHead_keeps ..) rfl ?_
      exact Keeps.refl _ _
    · exact Keeps.refl _ _
  · exact Keeps.refl _ _

theorem State.gateEvent_keeps (s : State) (n : Fin 16) (cause : ℕ) (stamp : Stamp) (before : ℕ) :
    Keeps [.events] s (State.gateEvent s n cause stamp before) := by
  unfold State.gateEvent
  extract_lets +onlyGivenNames z1
  refine Keeps.step (State.logHead_keeps ..) rfl ?_
  exact Keeps.refl _ _

theorem State.gateFails_keeps (s : State) (n : Fin 16) (cause : ℕ) :
    Keeps [.events, .regs, .heads, .decode, .mem, .out] s (State.gateFails s n cause) := by
  unfold State.gateFails
  split
  · exact Keeps.refl _ _
  · extract_lets +onlyGivenNames z1
    extract_lets +onlyGivenNames z2
    extract_lets +onlyGivenNames z4
    refine Keeps.cut (x := z4) ?_ (fun h5 => ?_)
    · unfold z4
      split
      · split
        · refine Keeps.step (State.stopWrites_keeps ..) rfl ?_
          refine Keeps.step (State.sendMsg_keeps ..) rfl ?_
          exact Keeps.refl _ _
        · exact Keeps.refl _ _
      · refine Keeps.step (State.gateStop_keeps ..) rfl ?_
        exact Keeps.refl _ _
    clear_value z4
    refine Keeps.step (State.gateEvent_keeps ..) rfl ?_
    assumption

theorem State.cancelReplays_keeps (s : State) (n : Fin 16) (gone : List ℕ) :
    Keeps [.heads] s (State.cancelReplays s n gone) := by
  unfold State.cancelReplays
  refine Keeps.step (State.modHead_keeps ..) rfl ?_
  exact Keeps.refl _ _

theorem State.dropBeamSectors_keeps (s : State) (n : Fin 16) (gone : List ℕ) :
    Keeps [.heads] s (State.dropBeamSectors s n gone) := by
  unfold State.dropBeamSectors
  refine Keeps.step (State.modHead_keeps ..) rfl ?_
  exact Keeps.refl _ _

theorem State.requeue_keeps (s : State) (n : Fin 16) (xs : List Sector) :
    Keeps [.events, .regs, .heads, .decode, .mem, .out] s (State.requeue s n xs) := by
  unfold State.requeue
  extract_lets +onlyGivenNames z1
  refine Keeps.step (State.withdrawSectors_keeps ..) rfl ?_
  refine Keeps.step (State.dropBeamSectors_keeps ..) rfl ?_
  refine Keeps.step (State.cancelReplays_keeps ..) rfl ?_
  exact Keeps.refl _ _

theorem State.hemRequest_keeps (s : State) (n : Fin 16) (h : Stamp) (forced : Bool) (who : List Waiter) :
    Keeps [.events, .regs, .heads, .decode, .mem, .out] s (State.hemRequest s n h forced who) := by
  unfold State.hemRequest
  split
  · exact Keeps.refl _ _
  · split
    · refine Keeps.step (State.modPass_keeps ..) rfl ?_
      exact Keeps.refl _ _
    · split
      extract_lets +onlyGivenNames z1
      extract_lets +onlyGivenNames z2
      refine Keeps.cut (x := z2) ?_ (fun h3 => ?_)
      · unfold z2
        refine Keeps.step (State.modPass_keeps ..) rfl ?_
        exact Keeps.refl _ _
      clear_value z2
      extract_lets +onlyGivenNames z4
      split
      · extract_lets +onlyGivenNames z5
        refine Keeps.cut (x := z5) ?_ (fun h6 => ?_)
        · unfold z5
          split
          · refine Keeps.step (State.sendMsg_keeps ..) rfl ?_
            assumption
          · assumption
        clear_value z5
        refine Keeps.step (State.stopWrites_keeps ..) rfl ?_
        refine Keeps.step (State.requeue_keeps ..) rfl ?_
        assumption
      · split
        · extract_lets +onlyGivenNames z7
          refine Keeps.step (State.stopWrites_keeps ..) rfl ?_
          refine Keeps.step (State.sendMsg_keeps ..) rfl ?_
          assumption
        · assumption

theorem State.updateLen_keeps (s : State) (n : Fin 16) (stamp : Stamp) :
    Keeps [.events, .regs, .heads, .decode, .loop, .seq, .mem, .out] s (State.updateLen s n stamp) := by
  unfold State.updateLen
  extract_lets +onlyGivenNames z1
  split
  · exact Keeps.refl _ _
  · extract_lets +onlyGivenNames z2
    refine Keeps.cut (x := z2) ?_ (fun h3 => ?_)
    · unfold z2
      refine Keeps.step (State.setFld_keeps ..) rfl ?_
      exact Keeps.refl _ _
    clear_value z2
    extract_lets +onlyGivenNames z4
    refine Keeps.cut (x := z4) ?_ (fun h5 => ?_)
    · unfold z4
      refine Keeps.outTo rfl ?_
      assumption
    clear_value z4
    split
    · assumption
    · extract_lets +onlyGivenNames z6
      refine Keeps.cut (x := z6) ?_ (fun h7 => ?_)
      · unfold z6
        split
        · split
          · assumption
          · refine Keeps.step (State.endSequence_keeps ..) rfl ?_
            assumption
        · assumption
      clear_value z6
      refine Keeps.step (State.hemRequest_keeps ..) rfl ?_
      assumption

theorem State.updateGov_keeps (s : State) :
    Keeps [.regs] s (State.updateGov s) := by
  unfold State.updateGov
  extract_lets +onlyGivenNames z1
  extract_lets +onlyGivenNames z2
  extract_lets +onlyGivenNames z3
  extract_lets +onlyGivenNames z4
  refine Keeps.step (State.setFld_keeps ..) rfl ?_
  refine Keeps.step (State.setFld_keeps ..) rfl ?_
  exact Keeps.refl _ _

theorem State.dropOpenClaim_keeps (s : State) (n : Fin 16) :
    Keeps [.regs, .motion] s (State.dropOpenClaim s n) := by
  unfold State.dropOpenClaim
  refine Keeps.step (State.updateGov_keeps ..) rfl ?_
  refine Keeps.motionTo rfl ?_
  exact Keeps.refl _ _

theorem State.endHeadWork_keeps (s : State) (n : Fin 16) :
    Keeps [.events, .regs, .heads, .loop, .seq, .motion] s (State.endHeadWork s n) := by
  unfold State.endHeadWork
  extract_lets +onlyGivenNames z1
  extract_lets +onlyGivenNames z2
  refine Keeps.cut (x := z2) ?_ (fun h3 => ?_)
  · unfold z2
    split
    · refine Keeps.step (State.completeHead_keeps ..) rfl ?_
      refine Keeps.step (State.dropOpenClaim_keeps ..) rfl ?_
      refine Keeps.step (State.modHead_keeps ..) rfl ?_
      exact Keeps.refl _ _
    · exact Keeps.refl _ _
  clear_value z2
  extract_lets +onlyGivenNames z4
  refine Keeps.cut (x := z4) ?_ (fun h5 => ?_)
  · unfold z4
    refine Keeps.foldl ?_ (fun _ _ _ => ?_)
    · assumption
    · refine Keeps.step (State.completeHead_keeps ..) rfl ?_
      assumption
  clear_value z4
  extract_lets +onlyGivenNames z6
  refine Keeps.cut (x := z6) ?_ (fun h7 => ?_)
  · unfold z6
    refine Keeps.step (State.modHead_keeps ..) rfl ?_
    assumption
  clear_value z6
  extract_lets +onlyGivenNames z8
  refine Keeps.cut (x := z8) ?_ (fun h9 => ?_)
  · unfold z8
    split
    · refine Keeps.step (State.endSequence_keeps ..) rfl ?_
      assumption
    · assumption
  clear_value z8
  split
  · refine Keeps.step (State.completeHead_keeps ..) rfl ?_
    refine Keeps.step (State.modHead_keeps ..) rfl ?_
    assumption
  · assumption

theorem State.linkLost_keeps (s : State) (n : Fin 16) (entry : Stamp) :
    Keeps [.events, .regs, .heads, .decode, .loop, .seq, .mem, .motion, .out] s (State.linkLost s n entry) := by
  unfold State.linkLost
  extract_lets +onlyGivenNames z1
  refine Keeps.cut (x := z1) ?_ (fun h2 => ?_)
  · unfold z1
    refine Keeps.step (State.endHeadWork_keeps ..) rfl ?_
    exact Keeps.refl _ _
  clear_value z1
  extract_lets +onlyGivenNames z3
  refine Keeps.cut (x := z3) ?_ (fun h4 => ?_)
  · unfold z3
    refine Keeps.step (State.modLink_keeps ..) rfl ?_
    assumption
  clear_value z3
  extract_lets +onlyGivenNames z5
  refine Keeps.cut (x := z5) ?_ (fun h6 => ?_)
  · unfold z5
    refine Keeps.step (State.linkHoldSlots_keeps ..) rfl ?_
    assumption
  clear_value z5
  extract_lets +onlyGivenNames z7
  refine Keeps.cut (x := z7) ?_ (fun h8 => ?_)
  · unfold z7
    refine Keeps.step (State.hemRequest_keeps ..) rfl ?_
    assumption
  clear_value z7
  refine Keeps.step (State.updateLen_keeps ..) rfl ?_
  assumption

theorem State.recause_keeps (s : State) (n : Fin 16) (cause : ℕ) :
    Keeps [.events] s (State.recause s n cause) := by
  unfold State.recause
  extract_lets +onlyGivenNames z1
  extract_lets +onlyGivenNames z2
  refine Keeps.step (State.setXing_keeps ..) rfl ?_
  exact Keeps.refl _ _

theorem State.linkFault_keeps (s : State) (n : Fin 16) (cause : ℕ) :
    Keeps [.events, .regs, .heads, .decode, .loop, .seq, .mem, .motion, .out] s (State.linkFault s n cause) := by
  unfold State.linkFault
  extract_lets +onlyGivenNames z1
  extract_lets +onlyGivenNames z2
  refine Keeps.cut (x := z2) ?_ (fun h3 => ?_)
  · unfold z2
    split
    · refine Keeps.step (State.setFld_keeps ..) rfl ?_
      exact Keeps.refl _ _
    · exact Keeps.refl _ _
  clear_value z2
  split
  · refine Keeps.step (State.recause_keeps ..) rfl ?_
    assumption
  · extract_lets +onlyGivenNames z4
    refine Keeps.cut (x := z4) ?_ (fun h5 => ?_)
    · unfold z4
      refine Keeps.step (State.modLink_keeps ..) rfl ?_
      assumption
    clear_value z4
    extract_lets +onlyGivenNames z6
    refine Keeps.cut (x := z6) ?_ (fun h7 => ?_)
    · unfold z6
      refine Keeps.step (State.linkLost_keeps ..) rfl ?_
      assumption
    clear_value z6
    extract_lets +onlyGivenNames z8
    refine Keeps.cut (x := z8) ?_ (fun h9 => ?_)
    · unfold z8
      refine Keeps.step (State.modLink_keeps ..) rfl ?_
      assumption
    clear_value z8
    refine Keeps.step (State.logHead_keeps ..) rfl ?_
    assumption

theorem State.linkDown_keeps (s : State) (n : Fin 16) :
    Keeps [.events, .regs, .heads, .decode, .loop, .seq, .mem, .motion, .out] s (State.linkDown s n) := by
  unfold State.linkDown
  extract_lets +onlyGivenNames z1
  extract_lets +onlyGivenNames z2
  extract_lets +onlyGivenNames z3
  refine Keeps.cut (x := z3) ?_ (fun h4 => ?_)
  · unfold z3
    refine Keeps.step (State.modLink_keeps ..) rfl ?_
    exact Keeps.refl _ _
  clear_value z3
  extract_lets +onlyGivenNames z5
  refine Keeps.cut (x := z5) ?_ (fun h6 => ?_)
  · unfold z5
    refine Keeps.step (State.setFld_keeps ..) rfl ?_
    assumption
  clear_value z5
  extract_lets +onlyGivenNames z7
  refine Keeps.cut (x := z7) ?_ (fun h8 => ?_)
  · unfold z7
    split
    · refine Keeps.step (State.linkLost_keeps ..) rfl ?_
      assumption
    · assumption
  clear_value z7
  refine Keeps.step (State.modLink_keeps ..) rfl ?_
  assumption

theorem State.finishLeaving_keeps (s : State) (n : Fin 16) :
    Keeps [.events, .regs, .domains, .heads] s (State.finishLeaving s n) := by
  unfold State.finishLeaving
  split
  · exact Keeps.refl _ _
  · extract_lets +onlyGivenNames z1
    refine Keeps.cut (x := z1) ?_ (fun h2 => ?_)
    · unfold z1
      refine Keeps.step (State.modHead_keeps ..) rfl ?_
      exact Keeps.refl _ _
    clear_value z1
    extract_lets +onlyGivenNames z3
    refine Keeps.cut (x := z3) ?_ (fun h4 => ?_)
    · unfold z3
      refine Keeps.domainsTo rfl ?_
      assumption
    clear_value z3
    extract_lets +onlyGivenNames z5
    extract_lets +onlyGivenNames z6
    refine Keeps.cut (x := z6) ?_ (fun h7 => ?_)
    · unfold z6
      refine Keeps.step (State.setFld_keeps ..) rfl ?_
      assumption
    clear_value z6
    extract_lets +onlyGivenNames z8
    refine Keeps.step (State.logAt_keeps ..) rfl ?_
    assumption

theorem State.leaveService_keeps (s : State) (n : Fin 16) (cause : LeaveCause) (i : Stamp) (alive : Bool) :
    Keeps [.events, .regs, .domains, .heads, .decode, .loop, .seq, .mem, .motion, .out] s (State.leaveService s n cause i alive) := by
  unfold State.leaveService
  split
  · exact Keeps.refl _ _
  · extract_lets +onlyGivenNames z1
    extract_lets +onlyGivenNames z2
    refine Keeps.cut (x := z2) ?_ (fun h3 => ?_)
    · unfold z2
      refine Keeps.step (State.setFld_keeps ..) rfl ?_
      exact Keeps.refl _ _
    clear_value z2
    extract_lets +onlyGivenNames z4
    refine Keeps.cut (x := z4) ?_ (fun h5 => ?_)
    · unfold z4
      refine Keeps.step (State.modHead_keeps ..) rfl ?_
      assumption
    clear_value z4
    extract_lets +onlyGivenNames z6
    refine Keeps.cut (x := z6) ?_ (fun h7 => ?_)
    · unfold z6
      refine Keeps.step (State.updateLen_keeps ..) rfl ?_
      assumption
    clear_value z6
    extract_lets +onlyGivenNames z8
    refine Keeps.cut (x := z8) ?_ (fun h9 => ?_)
    · unfold z8
      refine Keeps.step (State.linkDown_keeps ..) rfl ?_
      assumption
    clear_value z8
    extract_lets +onlyGivenNames z10
    refine Keeps.cut (x := z10) ?_ (fun h11 => ?_)
    · unfold z10
      refine Keeps.step (State.modLink_keeps ..) rfl ?_
      assumption
    clear_value z10
    extract_lets +onlyGivenNames z12
    refine Keeps.cut (x := z12) ?_ (fun h13 => ?_)
    · unfold z12
      refine Keeps.step (State.hemRequest_keeps ..) rfl ?_
      assumption
    clear_value z12
    extract_lets +onlyGivenNames z14
    refine Keeps.cut (x := z14) ?_ (fun h15 => ?_)
    · unfold z14
      refine Keeps.step (State.disableHeadSlots_keeps ..) rfl ?_
      assumption
    clear_value z14
    extract_lets +onlyGivenNames z16
    refine Keeps.cut (x := z16) ?_ (fun h17 => ?_)
    · unfold z16
      refine Keeps.step (State.requestHalt_keeps ..) rfl ?_
      assumption
    clear_value z16
    split
    · assumption
    · refine Keeps.step (State.finishLeaving_keeps ..) rfl ?_
      assumption

end Sys2Proof.Machine
end

