-- ==== Sys2Proof/Laws/KeepsLaser.lean ====
section
/-!
SUPPORT. Laws/KeepsLaser.lean: which parts of a state each operation of Machine/Laser.lean may change, and that it keeps a sound
state sound.
-/

namespace Sys2Proof.Machine

theorem State.setDerate_keeps (s : State) (n : Fin 16) (f : ℕ) :
    Keeps [.events, .regs, .heads, .decode, .mem, .out] s (State.setDerate s n f) := by
  unfold State.setDerate
  extract_lets +onlyGivenNames z1
  refine Keeps.cut (x := z1) ?_ (fun h2 => ?_)
  · unfold z1
    refine Keeps.step (State.setFld_keeps ..) rfl ?_
    exact Keeps.refl _ _
  clear_value z1
  split
  · refine Keeps.step (State.gateFails_keeps ..) rfl ?_
    assumption
  · assumption

theorem execDerateStale_keeps (head : Fin 16) (s : State) :
    KeepsR [.events, .regs, .heads, .decode, .mem, .out] s (execDerateStale head s) := by
  unfold execDerateStale
  extract_lets +onlyGivenNames z1
  extract_lets +onlyGivenNames z2
  extract_lets +onlyGivenNames z3
  refine KeepsR.when ?_ ?_
  · exact Keeps.refl _ _
  · extract_lets +onlyGivenNames z4
    refine Keeps.cut (x := z4) ?_ (fun h5 => ?_)
    · unfold z4
      refine Keeps.step (State.setDerate_keeps ..) rfl ?_
      exact Keeps.refl _ _
    clear_value z4
    extract_lets +onlyGivenNames z6
    refine Keeps.cut (x := z6) ?_ (fun h7 => ?_)
    · unfold z6
      refine Keeps.step (State.modHead_keeps ..) rfl ?_
      assumption
    clear_value z6
    extract_lets +onlyGivenNames z8
    refine Keeps.cut (x := z8) ?_ (fun h9 => ?_)
    · unfold z8
      refine Keeps.step (State.setFld_keeps ..) rfl ?_
      assumption
    clear_value z8
    refine Keeps.step (State.logHead_keeps ..) rfl ?_
    assumption

theorem execLaserInterlock_keeps (s : State) :
    KeepsR [.events, .regs, .pins, .heads, .decode, .loop, .seq, .mem, .out] s (execLaserInterlock s) := by
  unfold execLaserInterlock
  refine KeepsR.when ?_ ?_
  · exact Keeps.refl _ _
  · extract_lets +onlyGivenNames z1
    extract_lets +onlyGivenNames z2
    extract_lets +onlyGivenNames z3
    extract_lets +onlyGivenNames z5
    refine Keeps.cut (x := z5) ?_ (fun h6 => ?_)
    · unfold z5
      refine Keeps.pinsTo rfl ?_
      exact Keeps.refl _ _
    clear_value z5
    extract_lets +onlyGivenNames z7
    refine Keeps.cut (x := z7) ?_ (fun h8 => ?_)
    · unfold z7
      refine Keeps.foldl ?_ (fun _ _ _ => ?_)
      · assumption
      · extract_lets +onlyGivenNames z9
        extract_lets +onlyGivenNames z10
        refine Keeps.cut (x := z10) ?_ (fun h11 => ?_)
        · unfold z10
          refine Keeps.step (State.setFld_keeps ..) rfl ?_
          refine Keeps.step (State.setFld_keeps ..) rfl ?_
          assumption
        clear_value z10
        refine Keeps.step (State.updateLen_keeps ..) rfl ?_
        assumption
    clear_value z7
    extract_lets +onlyGivenNames z12
    refine Keeps.step (State.logAt_keeps ..) rfl ?_
    assumption

theorem execLaserInhRelease_keeps (s : State) :
    KeepsR [.events, .regs, .pins, .heads, .decode, .loop, .seq, .mem, .out] s (execLaserInhRelease s) := by
  unfold execLaserInhRelease
  refine KeepsR.when ?_ ?_
  · exact Keeps.refl _ _
  · extract_lets +onlyGivenNames z1
    extract_lets +onlyGivenNames z2
    extract_lets +onlyGivenNames z4
    refine Keeps.cut (x := z4) ?_ (fun h5 => ?_)
    · unfold z4
      refine Keeps.pinsTo rfl ?_
      exact Keeps.refl _ _
    clear_value z4
    refine Keeps.foldl ?_ (fun _ _ _ => ?_)
    · assumption
    · refine Keeps.step (State.updateLen_keeps ..) rfl ?_
      refine Keeps.step (State.setFld_keeps ..) rfl ?_
      assumption

theorem execLaserRearm_keeps (head : Fin 16) (s : State) :
    KeepsR [.events, .regs, .heads, .decode, .loop, .seq, .mem, .out] s (execLaserRearm head s) := by
  unfold execLaserRearm
  extract_lets +onlyGivenNames z1
  split
  · refine KeepsR.next ?_
    refine Keeps.step (State.updateLen_keeps ..) rfl ?_
    refine Keeps.step (State.setFld_keeps ..) rfl ?_
    exact Keeps.refl _ _
  · refine KeepsR.next ?_
    refine Keeps.step (State.logHead_keeps ..) rfl ?_
    exact Keeps.refl _ _

theorem execLaserEnableWrite_keeps (head : Fin 16) (enable : Bool) (s : State) :
    KeepsR [.events, .regs, .heads, .decode, .loop, .seq, .mem, .out] s (execLaserEnableWrite head enable s) := by
  unfold execLaserEnableWrite
  extract_lets +onlyGivenNames z1
  refine KeepsR.cut (x := z1) ?_ (fun h2 => ?_)
  · unfold z1
    refine Keeps.step (State.setFld_keeps ..) rfl ?_
    exact Keeps.refl _ _
  clear_value z1
  refine KeepsR.next ?_
  refine Keeps.step (State.updateLen_keeps ..) rfl ?_
  assumption

theorem execCeilingWrite_keeps (head : Fin 16) (write : Bool) (val : ℕ) (s : State) :
    KeepsR [.events, .regs] s (execCeilingWrite head write val s) := by
  unfold execCeilingWrite
  extract_lets +onlyGivenNames z1
  split
  · refine KeepsR.next ?_
    refine Keeps.step (State.logHead_keeps ..) rfl ?_
    exact Keeps.refl _ _
  · refine KeepsR.next ?_
    refine Keeps.step (State.setFld_keeps ..) rfl ?_
    exact Keeps.refl _ _

theorem execCeilingLock_keeps (head : Fin 16) (s : State) :
    KeepsR [.regs] s (execCeilingLock head s) := by
  unfold execCeilingLock
  refine KeepsR.next ?_
  refine Keeps.step (State.setFld_keeps ..) rfl ?_
  exact Keeps.refl _ _

theorem execDerateEnableWrite_keeps (head : Fin 16) (val : Word) (s : State) :
    KeepsR [.events, .regs, .heads, .decode, .mem, .out] s (execDerateEnableWrite head val s) := by
  unfold execDerateEnableWrite
  extract_lets +onlyGivenNames z1
  extract_lets +onlyGivenNames z2
  extract_lets +onlyGivenNames z3
  refine KeepsR.cut (x := z3) ?_ (fun h4 => ?_)
  · unfold z3
    refine Keeps.step (State.setFld_keeps ..) rfl ?_
    exact Keeps.refl _ _
  clear_value z3
  extract_lets +onlyGivenNames z5
  refine KeepsR.cut (x := z5) ?_ (fun h6 => ?_)
  · unfold z5
    refine Keeps.step (State.setFld_keeps ..) rfl ?_
    assumption
  clear_value z5
  extract_lets +onlyGivenNames z7
  refine KeepsR.cut (x := z7) ?_ (fun h8 => ?_)
  · unfold z7
    refine Keeps.step (State.setFld_keeps ..) rfl ?_
    assumption
  clear_value z7
  split
  · extract_lets +onlyGivenNames z9
    refine KeepsR.cut (x := z9) ?_ (fun h10 => ?_)
    · unfold z9
      refine Keeps.step (State.modHead_keeps ..) rfl ?_
      assumption
    clear_value z9
    refine KeepsR.next ?_
    refine Keeps.step (State.setDerate_keeps ..) rfl ?_
    assumption
  · refine KeepsR.next ?_
    refine Keeps.step (State.setDerate_keeps ..) rfl ?_
    refine Keeps.step (State.setFld_keeps ..) rfl ?_
    assumption

end Sys2Proof.Machine
end

