-- ==== Sys2Proof/Laws/KeepsWriteOps.lean ====
section
/-!
SUPPORT. Laws/KeepsWriteOps.lean: which parts of a state each operation of Machine/WriteOps.lean may change, and that it keeps a sound
state sound.
-/

namespace Sys2Proof.Machine

theorem State.rateMatch_keeps (s : State) (n : Fin 16) (idx : ℕ) (frameStamp : Stamp) :
    Keeps [.events, .regs, .heads, .decode, .mem, .out] s (State.rateMatch s n idx frameStamp) := by
  unfold State.rateMatch
  split
  · exact Keeps.refl _ _
  · split
    · exact Keeps.refl _ _
    · split
      · exact Keeps.refl _ _
      · split
        · exact Keeps.refl _ _
        · extract_lets +onlyGivenNames z1
          extract_lets +onlyGivenNames z2
          refine Keeps.cut (x := z2) ?_ (fun h3 => ?_)
          · unfold z2
            split
            · exact Keeps.refl _ _
            · refine Keeps.step (State.sendMsg_keeps ..) rfl ?_
              exact Keeps.refl _ _
          clear_value z2
          extract_lets +onlyGivenNames z4
          extract_lets +onlyGivenNames z5
          refine Keeps.cut (x := z5) ?_ (fun h6 => ?_)
          · unfold z5
            refine Keeps.step (State.modPass_keeps ..) rfl ?_
            assumption
          clear_value z5
          split
          · extract_lets +onlyGivenNames z7
            refine Keeps.cut (x := z7) ?_ (fun h8 => ?_)
            · unfold z7
              refine Keeps.step (State.gateStop_keeps ..) rfl ?_
              assumption
            clear_value z7
            extract_lets +onlyGivenNames z9
            refine Keeps.cut (x := z9) ?_ (fun h10 => ?_)
            · unfold z9
              refine Keeps.step (State.logHead_keeps ..) rfl ?_
              assumption
            clear_value z9
            refine Keeps.step (State.hemRequest_keeps ..) rfl ?_
            assumption
          · assumption

theorem State.launchRate_keeps (s : State) (n : Fin 16) (frame : ℕ) (inc : ℕ) :
    Keeps [.heads] s (State.launchRate s n frame inc).2 := by
  unfold State.launchRate
  split
  · refine Keeps.ofMk ?_
    exact Keeps.refl _ _
  · split
    · refine Keeps.ofMk ?_
      exact Keeps.refl _ _
    · extract_lets +onlyGivenNames z1
      extract_lets +onlyGivenNames z2
      extract_lets +onlyGivenNames z3
      extract_lets +onlyGivenNames z4
      extract_lets +onlyGivenNames z5
      refine Keeps.ofMk ?_
      refine Keeps.step (State.modPass_keeps ..) rfl ?_
      exact Keeps.refl _ _

theorem State.voidRest_keeps (s : State) (n : Fin 16) (cause : ℕ) :
    Keeps [.events, .regs, .heads, .mem, .out] s (State.voidRest s n cause) := by
  unfold State.voidRest
  split
  · exact Keeps.refl _ _
  · refine Keeps.foldl ?_ (fun _ _ _ => ?_)
    · exact Keeps.refl _ _
    · split
      rename_i a1 a2 a3 a4 a5 a6 a7 a8
      refine Keeps.step (State.voidSlot_keeps ..) rfl ?_
      assumption

theorem State.tryWstart_keeps (s : State) (n : Fin 16) :
    Keeps [.events, .regs, .heads, .mem, .out] s (State.tryWstart s n) := by
  unfold State.tryWstart
  split
  · exact Keeps.refl _ _
  · split
    · exact Keeps.refl _ _
    · split
      · exact Keeps.refl _ _
      · split
        · split
          · exact Keeps.refl _ _
          · extract_lets +onlyGivenNames z1
            extract_lets +onlyGivenNames z2
            refine Keeps.cut (x := z2) ?_ (fun h3 => ?_)
            · unfold z2
              refine Keeps.step (State.sendMsg_keeps ..) rfl ?_
              exact Keeps.refl _ _
            clear_value z2
            extract_lets +onlyGivenNames z4
            refine Keeps.cut (x := z4) ?_ (fun h5 => ?_)
            · unfold z4
              refine Keeps.step (State.sendMsg_keeps ..) rfl ?_
              assumption
            clear_value z4
            extract_lets +onlyGivenNames z6
            refine Keeps.step (State.modPass_keeps ..) rfl ?_
            assumption
        · extract_lets +onlyGivenNames z7
          extract_lets +onlyGivenNames z8
          refine Keeps.cut (x := z8) ?_ (fun h9 => ?_)
          · unfold z8
            refine Keeps.step (State.voidRest_keeps ..) rfl ?_
            exact Keeps.refl _ _
          clear_value z8
          extract_lets +onlyGivenNames z10
          refine Keeps.step (State.modPass_keeps ..) rfl ?_
          assumption

theorem State.tryWstop_keeps (s : State) (n : Fin 16) :
    Keeps [.heads] s (State.tryWstop s n) := by
  unfold State.tryWstop
  split
  · exact Keeps.refl _ _
  · split
    · exact Keeps.refl _ _
    · extract_lets +onlyGivenNames z1
      split
      · extract_lets +onlyGivenNames z2
        extract_lets +onlyGivenNames z3
        split
        · exact Keeps.refl _ _
        · split
          · refine Keeps.step (State.modPass_keeps ..) rfl ?_
            refine Keeps.step (State.sendMsg_keeps ..) rfl ?_
            exact Keeps.refl _ _
          · refine Keeps.step (State.modPass_keeps ..) rfl ?_
            exact Keeps.refl _ _
      · exact Keeps.refl _ _

theorem State.voidUnwritten_keeps (s : State) (n : Fin 16) (cause : ℕ) :
    Keeps [.events, .regs, .heads, .mem, .out] s (State.voidUnwritten s n cause) := by
  unfold State.voidUnwritten
  split
  · exact Keeps.refl _ _
  · refine Keeps.foldl ?_ (fun _ _ _ => ?_)
    · exact Keeps.refl _ _
    · split
      rename_i a1 a2 a3 a4 a5 a6 a7 a8
      refine Keeps.step (State.voidSlot_keeps ..) rfl ?_
      assumption

theorem State.endWriteRev_keeps (s : State) (n : Fin 16) :
    Keeps [.events, .regs, .heads, .mem, .out] s (State.endWriteRev s n) := by
  unfold State.endWriteRev
  extract_lets +onlyGivenNames z1
  refine Keeps.cut (x := z1) ?_ (fun h2 => ?_)
  · unfold z1
    refine Keeps.step (State.settleWrites_keeps ..) rfl ?_
    exact Keeps.refl _ _
  clear_value z1
  split
  · assumption
  · split
    · assumption
    · extract_lets +onlyGivenNames z3
      refine Keeps.cut (x := z3) ?_ (fun h4 => ?_)
      · unfold z3
        refine Keeps.step (State.reportVoids_keeps ..) rfl ?_
        refine Keeps.step (State.voidUnwritten_keeps ..) rfl ?_
        assumption
      clear_value z3
      extract_lets +onlyGivenNames z5
      extract_lets +onlyGivenNames z7
      refine Keeps.cut (x := z7) ?_ (fun h8 => ?_)
      · unfold z7
        split
        · refine Keeps.step (State.memWrite_keeps ..) rfl ?_
          assumption
        · assumption
      clear_value z7
      refine Keeps.step (State.modPass_keeps ..) rfl ?_
      assumption

theorem State.voidAborted_keeps (s : State) (n : Fin 16) :
    Keeps [.events, .regs, .heads, .mem, .out] s (State.voidAborted s n) := by
  unfold State.voidAborted
  split
  · exact Keeps.refl _ _
  · extract_lets +onlyGivenNames z1
    refine Keeps.foldl ?_ (fun _ _ _ => ?_)
    · exact Keeps.refl _ _
    · split
      rename_i a2 a3 a4 a5 a6 a7 a8 a9
      refine Keeps.step (State.voidSlot_keeps ..) rfl ?_
      assumption

theorem State.beginWriteRev_keeps (s : State) (n : Fin 16) (seam : Stamp) :
    Keeps [.events, .regs, .heads, .decode, .mem, .out] s (State.beginWriteRev s n seam) := by
  unfold State.beginWriteRev
  split
  · exact Keeps.refl _ _
  · extract_lets +onlyGivenNames z1
    extract_lets +onlyGivenNames z2
    split
    · exact Keeps.refl _ _
    · split
      · refine Keeps.step (State.hemRequest_keeps ..) rfl ?_
        refine Keeps.step (State.logHead_keeps ..) rfl ?_
        exact Keeps.refl _ _
      · extract_lets +onlyGivenNames z3
        extract_lets +onlyGivenNames z4
        extract_lets +onlyGivenNames z5
        extract_lets +onlyGivenNames z6
        refine Keeps.step (State.voidAborted_keeps ..) rfl ?_
        refine Keeps.step (State.modPass_keeps ..) rfl ?_
        exact Keeps.refl _ _

theorem State.writeBlocks_keeps (s : State) (n : Fin 16) (room : ℕ) :
    Keeps [.heads] s (State.writeBlocks s n room).2 := by
  unfold State.writeBlocks
  split
  · refine Keeps.ofMk ?_
    exact Keeps.refl _ _
  · split
    · refine Keeps.ofMk ?_
      exact Keeps.refl _ _
    · extract_lets +onlyGivenNames z1
      extract_lets +onlyGivenNames z2
      extract_lets +onlyGivenNames z3
      extract_lets +onlyGivenNames z4
      extract_lets +onlyGivenNames z5
      split
      · refine Keeps.ofMk ?_
        exact Keeps.refl _ _
      · extract_lets +onlyGivenNames z6
        extract_lets +onlyGivenNames z7
        extract_lets +onlyGivenNames z8
        refine Keeps.ofMk ?_
        refine Keeps.step (State.modPass_keeps ..) rfl ?_
        exact Keeps.refl _ _

end Sys2Proof.Machine
end

