-- ==== Sys2Proof/Laws/KeepsMotionOps.lean ====
section
/-!
SUPPORT. Laws/KeepsMotionOps.lean: which parts of a state each operation of Machine/MotionOps.lean may change, and that it keeps a sound
state sound.
-/

namespace Sys2Proof.Machine

theorem State.modSled_keeps (s : State) (n : Fin 16) (f : Sled → Sled) :
    Keeps [.motion] s (State.modSled s n f) := by
  unfold State.modSled
  refine Keeps.motionTo rfl ?_
  exact Keeps.refl _ _

theorem State.logMot_keeps (s : State) (code : ℕ) (a0 : ℕ) (a1 : ℕ) (a2 : ℕ) (a3 : ℕ) :
    Keeps [.events] s (State.logMot s code a0 a1 a2 a3) := by
  unfold State.logMot
  refine Keeps.step (State.log_keeps ..) rfl ?_
  exact Keeps.refl _ _

theorem State.showSled_keeps (s : State) (n : Fin 16) :
    Keeps [.regs] s (State.showSled s n) := by
  unfold State.showSled
  refine Keeps.step (State.setFld_keeps ..) rfl ?_
  exact Keeps.refl _ _

theorem State.completeSled_keeps (s : State) (n : Fin 16) (result : ℕ) :
    Keeps [.seq, .motion] s (State.completeSled s n result) := by
  unfold State.completeSled
  extract_lets +onlyGivenNames z1
  extract_lets +onlyGivenNames z2
  refine Keeps.cut (x := z2) ?_ (fun h3 => ?_)
  · unfold z2
    refine Keeps.foldl ?_ (fun _ _ _ => ?_)
    · exact Keeps.refl _ _
    · refine Keeps.step (State.complete_keeps ..) rfl ?_
      assumption
  clear_value z2
  refine Keeps.step (State.modSled_keeps ..) rfl ?_
  assumption

theorem State.restSled_keeps (s : State) (n : Fin 16) (st : SledSt) (m : ℤ) :
    Keeps [.regs, .seq, .motion] s (State.restSled s n st m) := by
  unfold State.restSled
  extract_lets +onlyGivenNames z1
  extract_lets +onlyGivenNames z2
  refine Keeps.cut (x := z2) ?_ (fun h3 => ?_)
  · unfold z2
    split
    · refine Keeps.step (State.setFld_keeps ..) rfl ?_
      exact Keeps.refl _ _
    · exact Keeps.refl _ _
  clear_value z2
  extract_lets +onlyGivenNames z4
  refine Keeps.cut (x := z4) ?_ (fun h5 => ?_)
  · unfold z4
    refine Keeps.step (State.modSled_keeps ..) rfl ?_
    assumption
  clear_value z4
  extract_lets +onlyGivenNames z6
  refine Keeps.cut (x := z6) ?_ (fun h7 => ?_)
  · unfold z6
    split
    · refine Keeps.step (State.modSled_keeps ..) rfl ?_
      assumption
    · assumption
  clear_value z6
  refine Keeps.step (State.completeSled_keeps ..) rfl ?_
  refine Keeps.step (State.showSled_keeps ..) rfl ?_
  assumption

theorem State.restByCommand_keeps (s : State) (n : Fin 16) (st : SledSt) (m : ℤ) :
    Keeps [.events, .regs, .seq, .motion] s (State.restByCommand s n st m) := by
  unfold State.restByCommand
  extract_lets +onlyGivenNames z1
  extract_lets +onlyGivenNames z2
  extract_lets +onlyGivenNames z3
  refine Keeps.cut (x := z3) ?_ (fun h4 => ?_)
  · unfold z3
    refine Keeps.step (State.restSled_keeps ..) rfl ?_
    exact Keeps.refl _ _
  clear_value z3
  split
  · refine Keeps.step (State.logMot_keeps ..) rfl ?_
    assumption
  · assumption

theorem State.freezeSled_keeps (s : State) (n : Fin 16) (fault : ℕ) :
    Keeps [.regs, .seq, .motion] s (State.freezeSled s n fault) := by
  unfold State.freezeSled
  extract_lets +onlyGivenNames z1
  refine Keeps.cut (x := z1) ?_ (fun h2 => ?_)
  · unfold z1
    refine Keeps.step (State.modSled_keeps ..) rfl ?_
    exact Keeps.refl _ _
  clear_value z1
  refine Keeps.step (State.setFld_keeps ..) rfl ?_
  refine Keeps.step (State.restSled_keeps ..) rfl ?_
  assumption

theorem State.sledCommand_keeps (s : State) (n : Fin 16) (c : SledCmd) (who : Option Waiter) :
    Keeps [.events, .motion] s (State.sledCommand s n c who) := by
  unfold State.sledCommand
  split
  · refine Keeps.step (State.logMot_keeps ..) rfl ?_
    exact Keeps.refl _ _
  · refine Keeps.step (State.modSled_keeps ..) rfl ?_
    exact Keeps.refl _ _

theorem State.sledStop_keeps (s : State) (n : Fin 16) (who : Option Waiter) :
    Keeps [.events, .regs, .seq, .motion] s (State.sledStop s n who) := by
  unfold State.sledStop
  split
  · refine Keeps.step (State.logMot_keeps ..) rfl ?_
    exact Keeps.refl _ _
  · extract_lets +onlyGivenNames z1
    refine Keeps.cut (x := z1) ?_ (fun h2 => ?_)
    · unfold z1
      refine Keeps.step (State.modSled_keeps ..) rfl ?_
      exact Keeps.refl _ _
    clear_value z1
    refine Keeps.step (State.restByCommand_keeps ..) rfl ?_
    assumption

theorem State.writeTarget_keeps (s : State) (n : Fin 16) (p : ℤ) :
    Keeps [.regs, .motion] s (State.writeTarget s n p) := by
  unfold State.writeTarget
  extract_lets +onlyGivenNames z1
  extract_lets +onlyGivenNames z2
  extract_lets +onlyGivenNames z3
  extract_lets +onlyGivenNames z4
  refine Keeps.cut (x := z4) ?_ (fun h5 => ?_)
  · unfold z4
    split
    · exact Keeps.refl _ _
    · refine Keeps.step (State.setFld_keeps ..) rfl ?_
      exact Keeps.refl _ _
  clear_value z4
  extract_lets +onlyGivenNames z6
  refine Keeps.cut (x := z6) ?_ (fun h7 => ?_)
  · unfold z6
    refine Keeps.step (State.setReg_keeps ..) rfl ?_
    assumption
  clear_value z6
  refine Keeps.step (State.modSled_keeps ..) rfl ?_
  assumption

theorem State.applySledCmd_keeps (s : State) (n : Fin 16) (c : SledCmd) :
    Keeps [.events, .regs, .seq, .motion] s (State.applySledCmd s n c) := by
  unfold State.applySledCmd
  extract_lets +onlyGivenNames z1
  extract_lets +onlyGivenNames z2
  split
  · refine Keeps.step (State.restByCommand_keeps ..) rfl ?_
    exact Keeps.refl _ _
  · refine Keeps.step (State.restByCommand_keeps ..) rfl ?_
    exact Keeps.refl _ _
  · extract_lets +onlyGivenNames z3
    refine Keeps.step (State.modSled_keeps ..) rfl ?_
    exact Keeps.refl _ _
  · refine Keeps.step (State.modSled_keeps ..) rfl ?_
    exact Keeps.refl _ _
  · refine Keeps.step (State.modSled_keeps ..) rfl ?_
    exact Keeps.refl _ _
  · extract_lets +onlyGivenNames z4
    refine Keeps.step (State.modSled_keeps ..) rfl ?_
    exact Keeps.refl _ _

theorem State.profileSled_keeps (s : State) (n : Fin 16) :
    Keeps [.events, .regs, .seq, .motion] s (State.profileSled s n) := by
  unfold State.profileSled
  extract_lets +onlyGivenNames z1
  extract_lets +onlyGivenNames z2
  refine Keeps.cut (x := z2) ?_ (fun h3 => ?_)
  · unfold z2
    refine Keeps.step (State.modSled_keeps ..) rfl ?_
    exact Keeps.refl _ _
  clear_value z2
  extract_lets +onlyGivenNames z4
  refine Keeps.cut (x := z4) ?_ (fun h5 => ?_)
  · unfold z4
    refine Keeps.foldl ?_ (fun _ _ _ => ?_)
    · assumption
    · refine Keeps.step (State.applySledCmd_keeps ..) rfl ?_
      assumption
  clear_value z4
  extract_lets +onlyGivenNames z6
  extract_lets +onlyGivenNames z7
  extract_lets +onlyGivenNames z8
  extract_lets +onlyGivenNames z9
  extract_lets +onlyGivenNames z10
  extract_lets +onlyGivenNames z11
  extract_lets +onlyGivenNames z12
  extract_lets +onlyGivenNames z13
  extract_lets +onlyGivenNames z14
  extract_lets +onlyGivenNames z15
  extract_lets +onlyGivenNames z16
  extract_lets +onlyGivenNames z17
  refine Keeps.cut (x := z17) ?_ (fun h18 => ?_)
  · unfold z17
    refine Keeps.step (State.modSled_keeps ..) rfl ?_
    assumption
  clear_value z17
  extract_lets +onlyGivenNames z19
  refine Keeps.cut (x := z19) ?_ (fun h20 => ?_)
  · unfold z19
    refine Keeps.step (State.modSled_keeps ..) rfl ?_
    assumption
  clear_value z19
  extract_lets +onlyGivenNames z21
  refine Keeps.cut (x := z21) ?_ (fun h22 => ?_)
  · unfold z21
    clear_value z16
    split
    · refine Keeps.step (State.modSled_keeps ..) rfl ?_
      assumption
    · refine Keeps.step (State.completeSled_keeps ..) rfl ?_
      refine Keeps.step (State.showSled_keeps ..) rfl ?_
      assumption
    · refine Keeps.step (State.completeSled_keeps ..) rfl ?_
      refine Keeps.step (State.showSled_keeps ..) rfl ?_
      assumption
  clear_value z21
  extract_lets +onlyGivenNames z23
  extract_lets +onlyGivenNames z24
  refine Keeps.cut (x := z24) ?_ (fun h25 => ?_)
  · unfold z24
    refine Keeps.step (State.modSled_keeps ..) rfl ?_
    assumption
  clear_value z24
  refine Keeps.step (State.showSled_keeps ..) rfl ?_
  assumption

theorem State.reref_keeps (s : State) (n : Fin 16) (rho : ℤ) (lam : ℤ) (t : Stamp) :
    Keeps [.events, .regs, .motion] s (State.reref s n rho lam t) := by
  unfold State.reref
  extract_lets +onlyGivenNames z1
  extract_lets +onlyGivenNames z2
  split
  · unfold z2
    refine Keeps.step (State.logMot_keeps ..) rfl ?_
    exact Keeps.refl _ _
  · split
    · unfold z2
      refine Keeps.step (State.logMot_keeps ..) rfl ?_
      exact Keeps.refl _ _
    · split
      · unfold z2
        refine Keeps.step (State.logMot_keeps ..) rfl ?_
        exact Keeps.refl _ _
      · split
        · unfold z2
          refine Keeps.step (State.logMot_keeps ..) rfl ?_
          exact Keeps.refl _ _
        · extract_lets +onlyGivenNames z3
          extract_lets +onlyGivenNames z4
          extract_lets +onlyGivenNames z5
          extract_lets +onlyGivenNames z6
          refine Keeps.cut (x := z6) ?_ (fun h7 => ?_)
          · unfold z6
            refine Keeps.step (State.modSled_keeps ..) rfl ?_
            exact Keeps.refl _ _
          clear_value z6
          extract_lets +onlyGivenNames z8
          refine Keeps.cut (x := z8) ?_ (fun h9 => ?_)
          · unfold z8
            refine Keeps.step (State.setFld_keeps ..) rfl ?_
            assumption
          clear_value z8
          refine Keeps.step (State.logMot_keeps ..) rfl ?_
          refine Keeps.step (State.showSled_keeps ..) rfl ?_
          assumption

theorem State.claimOpen_keeps (s : State) (n : Fin 16) (u : ℕ) :
    Keeps [.regs, .motion] s (State.claimOpen s n u) := by
  unfold State.claimOpen
  refine Keeps.step (State.updateGov_keeps ..) rfl ?_
  refine Keeps.motionTo rfl ?_
  exact Keeps.refl _ _

theorem State.openClaim_keeps (s : State) (n : Fin 16) :
    Keeps [.regs, .motion] s (State.openClaim s n) := by
  unfold State.openClaim
  extract_lets +onlyGivenNames z1
  refine Keeps.step (State.updateGov_keeps ..) rfl ?_
  refine Keeps.motionTo rfl ?_
  exact Keeps.refl _ _

theorem State.endClaim_keeps (s : State) (n : Fin 16) :
    Keeps [.regs, .motion] s (State.endClaim s n) := by
  unfold State.endClaim
  refine Keeps.step (State.updateGov_keeps ..) rfl ?_
  refine Keeps.motionTo rfl ?_
  exact Keeps.refl _ _

theorem State.modSpin_keeps (s : State) (f : Spindle → Spindle) :
    Keeps [.motion] s (State.modSpin s f) := by
  unfold State.modSpin
  refine Keeps.motionTo rfl ?_
  exact Keeps.refl _ _

theorem State.showSpin_keeps (s : State) :
    Keeps [.regs] s (State.showSpin s) := by
  unfold State.showSpin
  extract_lets +onlyGivenNames z1
  extract_lets +onlyGivenNames z2
  extract_lets +onlyGivenNames z3
  refine Keeps.cut (x := z3) ?_ (fun h4 => ?_)
  · unfold z3
    refine Keeps.step (State.setFld_keeps ..) rfl ?_
    exact Keeps.refl _ _
  clear_value z3
  extract_lets +onlyGivenNames z5
  refine Keeps.cut (x := z5) ?_ (fun h6 => ?_)
  · unfold z5
    refine Keeps.step (State.setFld_keeps ..) rfl ?_
    assumption
  clear_value z5
  extract_lets +onlyGivenNames z7
  refine Keeps.cut (x := z7) ?_ (fun h8 => ?_)
  · unfold z7
    refine Keeps.step (State.setFld_keeps ..) rfl ?_
    assumption
  clear_value z7
  extract_lets +onlyGivenNames z9
  refine Keeps.cut (x := z9) ?_ (fun h10 => ?_)
  · unfold z9
    refine Keeps.step (State.setFld_keeps ..) rfl ?_
    assumption
  clear_value z9
  extract_lets +onlyGivenNames z11
  refine Keeps.cut (x := z11) ?_ (fun h12 => ?_)
  · unfold z11
    refine Keeps.step (State.setFld_keeps ..) rfl ?_
    assumption
  clear_value z11
  extract_lets +onlyGivenNames z13
  refine Keeps.step (State.setFld_keeps ..) rfl ?_
  refine Keeps.step (State.setFld_keeps ..) rfl ?_
  assumption

theorem State.overSpeed_keeps (s : State) :
    Keeps [.events, .motion] s (State.overSpeed s) := by
  unfold State.overSpeed
  extract_lets +onlyGivenNames z1
  extract_lets +onlyGivenNames z2
  split
  · refine Keeps.step (State.logMot_keeps ..) rfl ?_
    refine Keeps.step (State.modSpin_keeps ..) rfl ?_
    exact Keeps.refl _ _
  · split
    · refine Keeps.step (State.modSpin_keeps ..) rfl ?_
      exact Keeps.refl _ _
    · exact Keeps.refl _ _

theorem State.hemAll_keeps (s : State) (h : Stamp) :
    Keeps [.events, .regs, .heads, .decode, .mem, .out] s (State.hemAll s h) := by
  unfold State.hemAll
  refine Keeps.foldl ?_ (fun _ _ _ => ?_)
  · exact Keeps.refl _ _
  · refine Keeps.step (State.hemRequest_keeps ..) rfl ?_
    assumption

theorem State.spinTo_keeps (s : State) (st : SpinSt) (stage : SpinStage) :
    Keeps [.regs, .motion] s (State.spinTo s st stage) := by
  unfold State.spinTo
  refine Keeps.step (State.showSpin_keeps ..) rfl ?_
  refine Keeps.step (State.updateGov_keeps ..) rfl ?_
  refine Keeps.step (State.modSpin_keeps ..) rfl ?_
  exact Keeps.refl _ _

theorem State.spinListen_keeps (s : State) (st : SpinSt) (stage : SpinStage) :
    Keeps [.regs, .motion] s (State.spinListen s st stage) := by
  unfold State.spinListen
  refine Keeps.step (State.spinTo_keeps ..) rfl ?_
  refine Keeps.step (State.modSpin_keeps ..) rfl ?_
  exact Keeps.refl _ _

theorem State.beginAttempt_keeps (s : State) (k : ℕ) :
    Keeps [.regs, .motion] s (State.beginAttempt s k) := by
  unfold State.beginAttempt
  refine Keeps.step (State.spinListen_keeps ..) rfl ?_
  refine Keeps.step (State.modSpin_keeps ..) rfl ?_
  exact Keeps.refl _ _

theorem State.spinFault_keeps (s : State) (cause : ℕ) (h : Stamp) :
    Keeps [.events, .regs, .heads, .decode, .mem, .motion, .out] s (State.spinFault s cause h) := by
  unfold State.spinFault
  extract_lets +onlyGivenNames z1
  refine Keeps.cut (x := z1) ?_ (fun h2 => ?_)
  · unfold z1
    refine Keeps.step (State.modSpin_keeps ..) rfl ?_
    exact Keeps.refl _ _
  clear_value z1
  extract_lets +onlyGivenNames z3
  refine Keeps.cut (x := z3) ?_ (fun h4 => ?_)
  · unfold z3
    refine Keeps.step (State.spinTo_keeps ..) rfl ?_
    assumption
  clear_value z3
  refine Keeps.step (State.hemAll_keeps ..) rfl ?_
  refine Keeps.step (State.setFld_keeps ..) rfl ?_
  assumption

theorem State.failAttempt_keeps (s : State) (cause : ℕ) :
    Keeps [.events, .regs, .heads, .decode, .mem, .motion, .out] s (State.failAttempt s cause) := by
  unfold State.failAttempt
  extract_lets +onlyGivenNames z1
  extract_lets +onlyGivenNames z2
  refine Keeps.cut (x := z2) ?_ (fun h3 => ?_)
  · unfold z2
    refine Keeps.step (State.logMot_keeps ..) rfl ?_
    exact Keeps.refl _ _
  clear_value z2
  split
  · refine Keeps.step (State.logMot_keeps ..) rfl ?_
    refine Keeps.step (State.spinFault_keeps ..) rfl ?_
    assumption
  · refine Keeps.step (State.beginAttempt_keeps ..) rfl ?_
    assumption

theorem State.enterRun_keeps (s : State) (path : ℕ) (stamp : Stamp) :
    Keeps [.events, .regs, .motion] s (State.enterRun s path stamp) := by
  unfold State.enterRun
  extract_lets +onlyGivenNames z1
  refine Keeps.cut (x := z1) ?_ (fun h2 => ?_)
  · unfold z1
    refine Keeps.step (State.modSpin_keeps ..) rfl ?_
    exact Keeps.refl _ _
  clear_value z1
  extract_lets +onlyGivenNames z3
  refine Keeps.cut (x := z3) ?_ (fun h4 => ?_)
  · unfold z3
    refine Keeps.step (State.spinTo_keeps ..) rfl ?_
    assumption
  clear_value z3
  extract_lets +onlyGivenNames z5
  refine Keeps.cut (x := z5) ?_ (fun h6 => ?_)
  · unfold z5
    refine Keeps.step (State.setFld_keeps ..) rfl ?_
    assumption
  clear_value z5
  refine Keeps.step (State.logMot_keeps ..) rfl ?_
  assumption

theorem State.resumeRun_keeps (s : State) :
    Keeps [.regs, .motion] s (State.resumeRun s) := by
  unfold State.resumeRun
  extract_lets +onlyGivenNames z1
  refine Keeps.cut (x := z1) ?_ (fun h2 => ?_)
  · unfold z1
    refine Keeps.step (State.spinTo_keeps ..) rfl ?_
    exact Keeps.refl _ _
  clear_value z1
  refine Keeps.step (State.setFld_keeps ..) rfl ?_
  assumption

theorem State.controlledStop_keeps (s : State) (stage : SpinStage) (relost : Bool) :
    Keeps [.regs, .motion] s (State.controlledStop s stage relost) := by
  unfold State.controlledStop
  refine Keeps.step (State.spinTo_keeps ..) rfl ?_
  refine Keeps.step (State.modSpin_keeps ..) rfl ?_
  exact Keeps.refl _ _

theorem State.rampDone_keeps (s : State) :
    Keeps [.regs, .motion] s (State.rampDone s) := by
  unfold State.rampDone
  split
  · refine Keeps.step (State.controlledStop_keeps ..) rfl ?_
    exact Keeps.refl _ _
  · exact Keeps.refl _ _

theorem State.spinDemand_keeps (s : State) (v : ℤ) :
    Keeps [.motion] s (State.spinDemand s v) := by
  unfold State.spinDemand
  split
  · refine Keeps.step (State.modSpin_keeps ..) rfl ?_
    exact Keeps.refl _ _
  · exact Keeps.refl _ _

theorem State.spinStopped_keeps (s : State) :
    Keeps [.regs, .motion] s (State.spinStopped s) := by
  unfold State.spinStopped
  extract_lets +onlyGivenNames z1
  extract_lets +onlyGivenNames z2
  refine Keeps.cut (x := z2) ?_ (fun h3 => ?_)
  · unfold z2
    refine Keeps.step (State.spinTo_keeps ..) rfl ?_
    refine Keeps.step (State.modSpin_keeps ..) rfl ?_
    exact Keeps.refl _ _
  clear_value z2
  split
  · refine Keeps.step (State.beginAttempt_keeps ..) rfl ?_
    assumption
  · assumption

theorem State.spinStart_keeps (s : State) (faultPin : Bool) :
    Keeps [.events, .regs, .motion] s (State.spinStart s faultPin) := by
  unfold State.spinStart
  split
  · refine Keeps.step (State.beginAttempt_keeps ..) rfl ?_
    exact Keeps.refl _ _
  · extract_lets +onlyGivenNames z1
    extract_lets +onlyGivenNames z2
    split
    · refine Keeps.step (State.logMot_keeps ..) rfl ?_
      exact Keeps.refl _ _
    · refine Keeps.step (State.beginAttempt_keeps ..) rfl ?_
      refine Keeps.step (State.setFld_keeps ..) rfl ?_
      exact Keeps.refl _ _
  · refine Keeps.step (State.modSpin_keeps ..) rfl ?_
    exact Keeps.refl _ _
  · exact Keeps.refl _ _

theorem State.spinStop_keeps (s : State) :
    Keeps [.regs, .motion] s (State.spinStop s) := by
  unfold State.spinStop
  split
  · refine Keeps.step (State.rampDone_keeps ..) rfl ?_
    refine Keeps.step (State.controlledStop_keeps ..) rfl ?_
    exact Keeps.refl _ _
  · refine Keeps.step (State.modSpin_keeps ..) rfl ?_
    exact Keeps.refl _ _
  · exact Keeps.refl _ _
  · refine Keeps.step (State.modSpin_keeps ..) rfl ?_
    exact Keeps.refl _ _
  · refine Keeps.step (State.controlledStop_keeps ..) rfl ?_
    exact Keeps.refl _ _

theorem State.setDemand_keeps (s : State) (d : ℕ) :
    Keeps [.regs] s (State.setDemand s d) := by
  unfold State.setDemand
  refine Keeps.step (State.updateGov_keeps ..) rfl ?_
  refine Keeps.step (State.setFld_keeps ..) rfl ?_
  exact Keeps.refl _ _

end Sys2Proof.Machine
end

