-- ==== Sys2Proof/Laws/KeepsPassOps.lean ====
section
/-!
SUPPORT. Laws/KeepsPassOps.lean: which parts of a state each operation of Machine/PassOps.lean may change, and that it keeps a sound
state sound.
-/

namespace Sys2Proof.Machine

theorem State.seedHead_keeps (s : State) (n : Fin 16) (entry : ℕ) (valid : Bool) :
    Keeps [.heads] s (State.seedHead s n entry valid) := by
  unfold State.seedHead
  refine Keeps.foldl ?_ (fun _ _ _ => ?_)
  · exact Keeps.refl _ _
  · split
    rename_i a1 a2 a3 a4 a5 a6 a7 a8
    refine Keeps.step (State.modBeam_keeps ..) rfl ?_
    assumption

theorem State.openNotReady_keeps (s : State) (n : Fin 16) :
    Keeps [.regs, .heads, .seq, .motion] s (State.openNotReady s n) := by
  unfold State.openNotReady
  split
  · split
    · refine Keeps.step (State.completeHead_keeps ..) rfl ?_
      refine Keeps.step (State.dropOpenClaim_keeps ..) rfl ?_
      refine Keeps.step (State.modHead_keeps ..) rfl ?_
      exact Keeps.refl _ _
    · exact Keeps.refl _ _
  · exact Keeps.refl _ _

theorem State.disagree_keeps (s : State) (n : Fin 16) (first : Option AddrWord) (place : ℕ) (word : ℕ) :
    Keeps [.events, .regs, .heads, .decode, .seq, .mem, .motion, .out] s (State.disagree s n first place word) := by
  unfold State.disagree
  extract_lets +onlyGivenNames z1
  extract_lets +onlyGivenNames z2
  refine Keeps.cut (x := z2) ?_ (fun h3 => ?_)
  · unfold z2
    refine Keeps.step (State.logHead_keeps ..) rfl ?_
    exact Keeps.refl _ _
  clear_value z2
  extract_lets +onlyGivenNames z4
  refine Keeps.cut (x := z4) ?_ (fun h5 => ?_)
  · unfold z4
    refine Keeps.step (State.modHead_keeps ..) rfl ?_
    assumption
  clear_value z4
  refine Keeps.step (State.openNotReady_keeps ..) rfl ?_
  refine Keeps.step (State.gateFails_keeps ..) rfl ?_
  refine Keeps.step (State.dropAddress_keeps ..) rfl ?_
  assumption

theorem State.clearPassCounters_keeps (s : State) (n : Fin 16) :
    Keeps [.regs] s (State.clearPassCounters s n) := by
  unfold State.clearPassCounters
  refine Keeps.foldl ?_ (fun _ _ _ => ?_)
  · exact Keeps.refl _ _
  · refine Keeps.step (State.setReg_keeps ..) rfl ?_
    assumption

theorem State.sendStrats_keeps (s : State) (n : Fin 16) (p : Pass) :
    Keeps [.heads] s (State.sendStrats s n p) := by
  unfold State.sendStrats
  extract_lets +onlyGivenNames z1
  refine Keeps.foldl ?_ (fun _ _ _ => ?_)
  · exact Keeps.refl _ _
  · extract_lets +onlyGivenNames z2
    refine Keeps.step (State.sendMsg_keeps ..) rfl ?_
    assumption

theorem State.openPass_keeps (s : State) (n : Fin 16) (o : OpenReq) (seam : Stamp) :
    Keeps [.regs, .heads, .seq, .motion] s (State.openPass s n o seam) := by
  unfold State.openPass
  extract_lets +onlyGivenNames z1
  extract_lets +onlyGivenNames z2
  extract_lets +onlyGivenNames z3
  extract_lets +onlyGivenNames z4
  extract_lets +onlyGivenNames z5
  refine Keeps.cut (x := z5) ?_ (fun h6 => ?_)
  · unfold z5
    refine Keeps.step (State.bump_keeps ..) rfl ?_
    refine Keeps.step (State.clearPassCounters_keeps ..) rfl ?_
    exact Keeps.refl _ _
  clear_value z5
  extract_lets +onlyGivenNames z7
  refine Keeps.cut (x := z7) ?_ (fun h8 => ?_)
  · unfold z7
    refine Keeps.step (State.modHead_keeps ..) rfl ?_
    assumption
  clear_value z7
  extract_lets +onlyGivenNames z9
  refine Keeps.cut (x := z9) ?_ (fun h10 => ?_)
  · unfold z9
    split
    · refine Keeps.step (State.sendStrats_keeps ..) rfl ?_
      assumption
    · assumption
  clear_value z9
  extract_lets +onlyGivenNames z11
  refine Keeps.cut (x := z11) ?_ (fun h12 => ?_)
  · unfold z11
    refine Keeps.step (State.openClaim_keeps ..) rfl ?_
    assumption
  clear_value z11
  refine Keeps.step (State.completeHead_keeps ..) rfl ?_
  assumption

theorem State.zoneWriteBack_keeps (s : State) (n : Fin 16) (p : Pass) :
    Keeps [.events, .regs, .mem, .out] s (State.zoneWriteBack s n p) := by
  unfold State.zoneWriteBack
  extract_lets +onlyGivenNames z1
  extract_lets +onlyGivenNames z2
  refine Keeps.cut (x := z2) ?_ (fun h3 => ?_)
  · unfold z2
    refine Keeps.foldl ?_ (fun _ _ _ => ?_)
    · exact Keeps.refl _ _
    · extract_lets +onlyGivenNames z4
      extract_lets +onlyGivenNames z5
      refine Keeps.step (State.memWrite_keeps ..) rfl ?_
      refine Keeps.step (State.memWrite_keeps ..) rfl ?_
      assumption
  clear_value z2
  extract_lets +onlyGivenNames z6
  refine Keeps.step (State.memWrite_keeps ..) rfl ?_
  refine Keeps.step (State.memWrite_keeps ..) rfl ?_
  assumption

theorem State.openAfterHem_keeps (s : State) (n : Fin 16) :
    Keeps [.events, .regs, .heads, .decode, .motion] s (State.openAfterHem s n) := by
  unfold State.openAfterHem
  split
  · split
    · extract_lets +onlyGivenNames z1
      refine Keeps.cut (x := z1) ?_ (fun h2 => ?_)
      · unfold z1
        refine Keeps.step (State.discardHeadBands_keeps ..) rfl ?_
        exact Keeps.refl _ _
      clear_value z1
      extract_lets +onlyGivenNames z3
      refine Keeps.cut (x := z3) ?_ (fun h4 => ?_)
      · unfold z3
        refine Keeps.step (State.modHead_keeps ..) rfl ?_
        assumption
      clear_value z3
      refine Keeps.step (State.overSpeed_keeps ..) rfl ?_
      refine Keeps.step (State.claimOpen_keeps ..) rfl ?_
      assumption
    · exact Keeps.refl _ _
  · exact Keeps.refl _ _

theorem State.closePass_keeps (s : State) (n : Fin 16) (p : Pass) (m : Hem) :
    Keeps [.events, .regs, .domains, .heads, .decode, .seq, .motion] s (State.closePass s n p m) := by
  unfold State.closePass
  extract_lets +onlyGivenNames z1
  refine Keeps.cut (x := z1) ?_ (fun h2 => ?_)
  · unfold z1
    refine Keeps.step (State.modHead_keeps ..) rfl ?_
    exact Keeps.refl _ _
  clear_value z1
  extract_lets +onlyGivenNames z3
  refine Keeps.cut (x := z3) ?_ (fun h4 => ?_)
  · unfold z3
    refine Keeps.step (State.endClaim_keeps ..) rfl ?_
    assumption
  clear_value z3
  extract_lets +onlyGivenNames z5
  refine Keeps.cut (x := z5) ?_ (fun h6 => ?_)
  · unfold z5
    refine Keeps.foldl ?_ (fun _ _ _ => ?_)
    · assumption
    · refine Keeps.step (State.completeHead_keeps ..) rfl ?_
      assumption
  clear_value z5
  extract_lets +onlyGivenNames z7
  refine Keeps.cut (x := z7) ?_ (fun h8 => ?_)
  · unfold z7
    refine Keeps.step (State.openAfterHem_keeps ..) rfl ?_
    assumption
  clear_value z7
  split
  · refine Keeps.step (State.finishLeaving_keeps ..) rfl ?_
    assumption
  · assumption

end Sys2Proof.Machine
end

