-- ==== Sys2Proof/Laws/KeepsLinkOps.lean ====
section
/-!
SUPPORT. Laws/KeepsLinkOps.lean: which parts of a state each operation of Machine/LinkOps.lean may change, and that it keeps a sound
state sound.
-/

namespace Sys2Proof.Machine

theorem State.modLane_keeps (s : State) (n : Fin 16) (k : Fin 4) (f : Lane → Lane) :
    Keeps [.heads] s (State.modLane s n k f) := by
  unfold State.modLane
  refine Keeps.step (State.modLink_keeps ..) rfl ?_
  exact Keeps.refl _ _

theorem State.badSamples_keeps (s : State) (n : Fin 16) (beams : List (Fin 12)) (c0 : Stamp) :
    Keeps [.heads] s (State.badSamples s n beams c0) := by
  unfold State.badSamples
  extract_lets +onlyGivenNames z1
  refine Keeps.foldl ?_ (fun _ _ _ => ?_)
  · exact Keeps.refl _ _
  · refine Keeps.step (State.modBeam_keeps ..) rfl ?_
    assumption

theorem State.laneLeaves_keeps (s : State) (n : Fin 16) (k : Fin 4) (cause : ℕ) :
    Keeps [.events, .regs, .heads, .decode, .loop, .seq, .mem, .motion, .out] s (State.laneLeaves s n k cause) := by
  unfold State.laneLeaves
  extract_lets +onlyGivenNames z1
  extract_lets +onlyGivenNames z2
  refine Keeps.cut (x := z2) ?_ (fun h3 => ?_)
  · unfold z2
    refine Keeps.step (State.modLane_keeps ..) rfl ?_
    exact Keeps.refl _ _
  clear_value z2
  extract_lets +onlyGivenNames z4
  refine Keeps.cut (x := z4) ?_ (fun h5 => ?_)
  · unfold z4
    refine Keeps.step (State.logHead_keeps ..) rfl ?_
    assumption
  clear_value z4
  split
  · refine Keeps.step (State.linkFault_keeps ..) rfl ?_
    assumption
  · extract_lets +onlyGivenNames z6
    refine Keeps.cut (x := z6) ?_ (fun h7 => ?_)
    · unfold z6
      refine Keeps.step (State.modLink_keeps ..) rfl ?_
      assumption
    clear_value z6
    extract_lets +onlyGivenNames z8
    refine Keeps.cut (x := z8) ?_ (fun h9 => ?_)
    · unfold z8
      refine Keeps.step (State.sendMsg_keeps ..) rfl ?_
      assumption
    clear_value z8
    extract_lets +onlyGivenNames z10
    extract_lets +onlyGivenNames z11
    extract_lets +onlyGivenNames z12
    extract_lets +onlyGivenNames z13
    refine Keeps.cut (x := z13) ?_ (fun h14 => ?_)
    · unfold z13
      split
      · refine Keeps.step (State.requeue_keeps ..) rfl ?_
        assumption
      · assumption
    clear_value z13
    refine Keeps.foldl ?_ (fun _ _ _ => ?_)
    · assumption
    · refine Keeps.step (State.modBeam_keeps ..) rfl ?_
      assumption

theorem State.laneError_keeps (s : State) (n : Fin 16) (k : Fin 4) :
    Keeps [.events, .regs, .heads, .decode, .loop, .seq, .mem, .motion, .out] s (State.laneError s n k) := by
  unfold State.laneError
  extract_lets +onlyGivenNames z1
  refine Keeps.cut (x := z1) ?_ (fun h2 => ?_)
  · unfold z1
    refine Keeps.step (State.modLane_keeps ..) rfl ?_
    exact Keeps.refl _ _
  clear_value z1
  extract_lets +onlyGivenNames z3
  extract_lets +onlyGivenNames z4
  refine Keeps.cut (x := z4) ?_ (fun h5 => ?_)
  · unfold z4
    refine Keeps.step (State.bump_keeps ..) rfl ?_
    assumption
  clear_value z4
  split
  · refine Keeps.step (State.laneLeaves_keeps ..) rfl ?_
    assumption
  · assumption

theorem State.lostFrame_keeps (s : State) (n : Fin 16) (k : Fin 4) (c0 : Stamp) :
    Keeps [.events, .regs, .heads, .decode, .loop, .seq, .mem, .motion, .out] s (State.lostFrame s n k c0) := by
  unfold State.lostFrame
  extract_lets +onlyGivenNames z1
  refine Keeps.step (State.laneError_keeps ..) rfl ?_
  refine Keeps.step (State.badSamples_keeps ..) rfl ?_
  exact Keeps.refl _ _

theorem State.laneRejoins_keeps (s : State) (n : Fin 16) (k : Fin 4) :
    Keeps [.events, .heads] s (State.laneRejoins s n k) := by
  unfold State.laneRejoins
  extract_lets +onlyGivenNames z1
  extract_lets +onlyGivenNames z2
  refine Keeps.cut (x := z2) ?_ (fun h3 => ?_)
  · unfold z2
    refine Keeps.step (State.modLane_keeps ..) rfl ?_
    exact Keeps.refl _ _
  clear_value z2
  extract_lets +onlyGivenNames z4
  refine Keeps.cut (x := z4) ?_ (fun h5 => ?_)
  · unfold z4
    refine Keeps.step (State.sendMsg_keeps ..) rfl ?_
    assumption
  clear_value z4
  extract_lets +onlyGivenNames z6
  refine Keeps.cut (x := z6) ?_ (fun h7 => ?_)
  · unfold z6
    split
    · refine Keeps.step (State.modLink_keeps ..) rfl ?_
      assumption
    · assumption
  clear_value z6
  extract_lets +onlyGivenNames z8
  refine Keeps.cut (x := z8) ?_ (fun h9 => ?_)
  · unfold z8
    refine Keeps.foldl ?_ (fun _ _ _ => ?_)
    · assumption
    · refine Keeps.step (State.modBeam_keeps ..) rfl ?_
      assumption
  clear_value z8
  refine Keeps.step (State.logHead_keeps ..) rfl ?_
  assumption

theorem State.linkTrain_keeps (s : State) (n : Fin 16) (realign : Bool) (asked : Bool) :
    Keeps [.events, .regs, .heads, .decode, .loop, .seq, .mem, .motion, .out] s (State.linkTrain s n realign asked) := by
  unfold State.linkTrain
  extract_lets +onlyGivenNames z1
  extract_lets +onlyGivenNames z2
  extract_lets +onlyGivenNames z3
  refine Keeps.cut (x := z3) ?_ (fun h4 => ?_)
  · unfold z3
    split
    · refine Keeps.step (State.endHeadWork_keeps ..) rfl ?_
      exact Keeps.refl _ _
    · exact Keeps.refl _ _
  clear_value z3
  extract_lets +onlyGivenNames z5
  extract_lets +onlyGivenNames z6
  extract_lets +onlyGivenNames z7
  refine Keeps.cut (x := z7) ?_ (fun h8 => ?_)
  · unfold z7
    refine Keeps.step (State.modLink_keeps ..) rfl ?_
    assumption
  clear_value z7
  extract_lets +onlyGivenNames z9
  refine Keeps.cut (x := z9) ?_ (fun h10 => ?_)
  · unfold z9
    refine Keeps.step (State.setFld_keeps ..) rfl ?_
    assumption
  clear_value z9
  extract_lets +onlyGivenNames z11
  refine Keeps.cut (x := z11) ?_ (fun h12 => ?_)
  · unfold z11
    refine Keeps.step (State.setReg_keeps ..) rfl ?_
    refine Keeps.step (State.setReg_keeps ..) rfl ?_
    assumption
  clear_value z11
  refine Keeps.step (State.updateLen_keeps ..) rfl ?_
  assumption

theorem State.trainFails_keeps (s : State) (n : Fin 16) (cause : ℕ) :
    Keeps [.events, .regs, .heads, .decode, .loop, .seq, .mem, .motion, .out] s (State.trainFails s n cause) := by
  unfold State.trainFails
  split
  · exact Keeps.refl _ _
  · split
    · refine Keeps.step (State.linkFault_keeps ..) rfl ?_
      exact Keeps.refl _ _
    · extract_lets +onlyGivenNames z1
      refine Keeps.step (State.modLink_keeps ..) rfl ?_
      exact Keeps.refl _ _

theorem State.linkAligned_keeps (s : State) (n : Fin 16) :
    Keeps [.events, .regs, .heads, .decode, .loop, .seq, .mem, .motion, .out] s (State.linkAligned s n) := by
  unfold State.linkAligned
  split
  · exact Keeps.refl _ _
  · extract_lets +onlyGivenNames z1
    extract_lets +onlyGivenNames z2
    split
    · refine Keeps.step (State.linkFault_keeps ..) rfl ?_
      exact Keeps.refl _ _
    · extract_lets +onlyGivenNames z3
      extract_lets +onlyGivenNames z4
      extract_lets +onlyGivenNames z5
      extract_lets +onlyGivenNames z6
      extract_lets +onlyGivenNames z7
      refine Keeps.cut (x := z7) ?_ (fun h8 => ?_)
      · unfold z7
        refine Keeps.step (State.modLink_keeps ..) rfl ?_
        exact Keeps.refl _ _
      clear_value z7
      extract_lets +onlyGivenNames z9
      refine Keeps.cut (x := z9) ?_ (fun h10 => ?_)
      · unfold z9
        refine Keeps.step (State.setFld_keeps ..) rfl ?_
        assumption
      clear_value z9
      extract_lets +onlyGivenNames z11
      refine Keeps.cut (x := z11) ?_ (fun h12 => ?_)
      · unfold z11
        refine Keeps.step (State.setFld_keeps ..) rfl ?_
        assumption
      clear_value z11
      extract_lets +onlyGivenNames z13
      refine Keeps.cut (x := z13) ?_ (fun h14 => ?_)
      · unfold z13
        refine Keeps.step (State.setFld_keeps ..) rfl ?_
        assumption
      clear_value z13
      extract_lets +onlyGivenNames z15
      refine Keeps.cut (x := z15) ?_ (fun h16 => ?_)
      · unfold z15
        refine Keeps.step (State.linkReleaseSlots_keeps ..) rfl ?_
        assumption
      clear_value z15
      extract_lets +onlyGivenNames z17
      refine Keeps.cut (x := z17) ?_ (fun h18 => ?_)
      · unfold z17
        split
        · refine Keeps.step (State.sendMsg_keeps ..) rfl ?_
          assumption
        · assumption
      clear_value z17
      extract_lets +onlyGivenNames z19
      extract_lets +onlyGivenNames z20
      refine Keeps.cut (x := z20) ?_ (fun h21 => ?_)
      · unfold z20
        refine Keeps.step (State.logHead_keeps ..) rfl ?_
        assumption
      clear_value z20
      refine Keeps.step (State.updateLen_keeps ..) rfl ?_
      assumption

theorem State.clampSetpt_keeps (s : State) (n : Fin 16) (act : ℕ) (v : ℤ) :
    Keeps [.events, .regs, .heads] s (State.clampSetpt s n act v).2 := by
  unfold State.clampSetpt
  split
  · refine Keeps.ofMk ?_
    exact Keeps.refl _ _
  · extract_lets +onlyGivenNames z1
    extract_lets +onlyGivenNames z2
    split
    · refine Keeps.ofMk ?_
      exact Keeps.refl _ _
    · extract_lets +onlyGivenNames z3
      refine Keeps.cut (x := z3) ?_ (fun h4 => ?_)
      · unfold z3
        refine Keeps.step (State.setFld_keeps ..) rfl ?_
        exact Keeps.refl _ _
      clear_value z3
      split
      · refine Keeps.ofMk ?_
        assumption
      · extract_lets +onlyGivenNames z5
        refine Keeps.cut (x := z5) ?_ (fun h6 => ?_)
        · unfold z5
          refine Keeps.step (State.modHead_keeps ..) rfl ?_
          assumption
        clear_value z5
        refine Keeps.ofMk ?_
        refine Keeps.step (State.logHead_keeps ..) rfl ?_
        assumption

theorem State.emitMsg_keeps (s : State) (n : Fin 16) (frame : ℕ) (x3 : Msg) :
    Keeps [.events, .regs, .heads] s (State.emitMsg s n frame x3).2 := by
  unfold State.emitMsg
  split
  · split
    rename_i a1 a2 a3 a4 a5 a6 a7
    refine Keeps.ofMk ?_
    refine Keeps.ofSnd a7 ?_
    refine Keeps.step (State.clampSetpt_keeps ..) rfl ?_
    exact Keeps.refl _ _
  · split
    rename_i a8 a9 a10 a11 a12 a13
    refine Keeps.ofMk ?_
    refine Keeps.ofSnd a13 ?_
    refine Keeps.step (State.launchRate_keeps ..) rfl ?_
    exact Keeps.refl _ _
  · refine Keeps.ofMk ?_
    exact Keeps.refl _ _

theorem State.wstartLost_keeps (s : State) (n : Fin 16) (mask : ℕ) (t : Stamp) :
    Keeps [.events, .regs, .heads, .mem, .out] s (State.wstartLost s n mask t) := by
  unfold State.wstartLost
  split
  · exact Keeps.refl _ _
  · split
    · exact Keeps.refl _ _
    · split
      · extract_lets +onlyGivenNames z1
        refine Keeps.step (State.modPass_keeps ..) rfl ?_
        refine Keeps.step (State.voidRest_keeps ..) rfl ?_
        exact Keeps.refl _ _
      · extract_lets +onlyGivenNames z2
        refine Keeps.foldl ?_ (fun _ _ _ => ?_)
        · exact Keeps.refl _ _
        · split
          rename_i a3 a4 a5 a6 a7 a8 a9 a10 a11 a12 a13 a14
          refine Keeps.step (State.voidSlot_keeps ..) rfl ?_
          assumption

theorem State.dropLateWstarts_keeps (s : State) (n : Fin 16) :
    Keeps [.events, .regs, .heads, .mem, .out] s (State.dropLateWstarts s n) := by
  unfold State.dropLateWstarts
  extract_lets +onlyGivenNames z1
  extract_lets +onlyGivenNames z2
  extract_lets +onlyGivenNames z3
  refine Keeps.cut (x := z3) ?_ (fun h4 => ?_)
  · unfold z3
    refine Keeps.step (State.modLink_keeps ..) rfl ?_
    exact Keeps.refl _ _
  clear_value z3
  refine Keeps.foldl ?_ (fun _ _ _ => ?_)
  · assumption
  · refine Keeps.step (State.wstartLost_keeps ..) rfl ?_
    assumption

theorem State.noteSent_keeps (s : State) (n : Fin 16) (frame : ℕ) (m : Msg) :
    Keeps [.heads] s (State.noteSent s n frame m) := by
  unfold State.noteSent
  extract_lets +onlyGivenNames z1
  refine Keeps.cut (x := z1) ?_ (fun h2 => ?_)
  · unfold z1
    split
    · refine Keeps.step (State.modLink_keeps ..) rfl ?_
      exact Keeps.refl _ _
    · exact Keeps.refl _ _
  clear_value z1
  extract_lets +onlyGivenNames z3
  refine Keeps.cut (x := z3) ?_ (fun h4 => ?_)
  · unfold z3
    split
    · refine Keeps.step (State.modLink_keeps ..) rfl ?_
      assumption
    · assumption
  clear_value z3
  extract_lets +onlyGivenNames z5
  refine Keeps.cut (x := z5) ?_ (fun h6 => ?_)
  · unfold z5
    refine Keeps.step (State.modHead_keeps ..) rfl ?_
    assumption
  clear_value z5
  split
  · split
    · extract_lets +onlyGivenNames z7
      extract_lets +onlyGivenNames z8
      refine Keeps.cut (x := z8) ?_ (fun h9 => ?_)
      · unfold z8
        refine Keeps.step (State.modLink_keeps ..) rfl ?_
        assumption
      clear_value z8
      split
      · refine Keeps.step (State.modLane_keeps ..) rfl ?_
        assumption
      · assumption
    · assumption
  · assumption

theorem State.trainMsgs_keeps (s : State) (n : Fin 16) (frame : ℕ) :
    Keeps [.heads] s (State.trainMsgs s n frame).2 := by
  unfold State.trainMsgs
  split
  · refine Keeps.ofMk ?_
    exact Keeps.refl _ _
  · extract_lets +onlyGivenNames z1
    extract_lets +onlyGivenNames z2
    split
    · refine Keeps.ofMk ?_
      unfold z2
      refine Keeps.step (State.modLink_keeps ..) rfl ?_
      exact Keeps.refl _ _
    · extract_lets +onlyGivenNames z3
      extract_lets +onlyGivenNames z4
      refine Keeps.cut (x := z4) ?_ (fun h5 => ?_)
      · unfold z4
        unfold z2
        refine Keeps.step (State.modLink_keeps ..) rfl ?_
        exact Keeps.refl _ _
      clear_value z4
      refine Keeps.ofMk ?_
      refine Keeps.step (State.modLink_keeps ..) rfl ?_
      assumption
    · refine Keeps.ofMk ?_
      exact Keeps.refl _ _

theorem State.clampPlace_keeps (s : State) (n : Fin 16) (x : D0Slot) :
    Keeps [.events, .regs, .heads] s (State.clampPlace s n x).2 := by
  unfold State.clampPlace
  split
  · split
    rename_i a1 a2 a3 a4 a5 a6 a7
    refine Keeps.ofMk ?_
    refine Keeps.ofSnd a7 ?_
    refine Keeps.step (State.clampSetpt_keeps ..) rfl ?_
    exact Keeps.refl _ _
  · refine Keeps.ofMk ?_
    exact Keeps.refl _ _

theorem State.clampServo_keeps (s : State) (n : Fin 16) (l : List D0Slot) :
    Keeps [.events, .regs, .heads] s (s.clampServo n l).2 := by
  induction l generalizing s with
  | nil =>
    rw [State.clampServo]
    refine Keeps.ofMk ?_
    exact Keeps.refl _ _
  | cons x rest ih =>
    rw [State.clampServo]
    split
    rename_i a1 a2 a3 a4
    split
    rename_i a5 a6 a7 a8
    refine Keeps.ofMk ?_
    refine Keeps.ofSnd a8 ?_
    refine Keeps.step (ih ..) rfl ?_
    refine Keeps.ofSnd a4 ?_
    refine Keeps.step (State.clampPlace_keeps ..) rfl ?_
    exact Keeps.refl _ _

theorem State.finishD0_keeps (s : State) (n : Fin 16) :
    Keeps [.events, .regs, .heads, .out] s (State.finishD0 s n).2 := by
  unfold State.finishD0
  split
  · refine Keeps.ofMk ?_
    exact Keeps.refl _ _
  · split
    rename_i a1 a2 a3 a4 a5 a6 a7
    extract_lets +onlyGivenNames z8
    extract_lets +onlyGivenNames z9
    extract_lets +onlyGivenNames z10
    refine Keeps.cut (x := z10) ?_ (fun h11 => ?_)
    · unfold z10
      refine Keeps.outTo rfl ?_
      refine Keeps.ofSnd a7 ?_
      refine Keeps.step (State.clampServo_keeps ..) rfl ?_
      exact Keeps.refl _ _
    clear_value z10
    extract_lets +onlyGivenNames z12
    refine Keeps.cut (x := z12) ?_ (fun h13 => ?_)
    · unfold z12
      refine Keeps.step (State.modLink_keeps ..) rfl ?_
      assumption
    clear_value z12
    extract_lets +onlyGivenNames z14
    refine Keeps.ofMk ?_
    refine Keeps.foldl ?_ (fun _ _ _ => ?_)
    · assumption
    · refine Keeps.step (State.noteSent_keeps ..) rfl ?_
      assumption

theorem State.launchD0_keeps (s : State) (n : Fin 16) :
    Keeps [.events, .regs, .heads, .mem, .out] s (State.launchD0 s n) := by
  unfold State.launchD0
  extract_lets +onlyGivenNames z1
  split
  rename_i a2 a3 a4 a5
  split
  · refine Keeps.ofSnd a5 ?_
    refine Keeps.step (State.finishD0_keeps ..) rfl ?_
    exact Keeps.refl _ _
  · extract_lets +onlyGivenNames z6
    refine Keeps.cut (x := z6) ?_ (fun h7 => ?_)
    · unfold z6
      refine Keeps.step (State.dropLateWstarts_keeps ..) rfl ?_
      refine Keeps.step (State.tryWstop_keeps ..) rfl ?_
      refine Keeps.step (State.tryWstart_keeps ..) rfl ?_
      refine Keeps.step (State.settleWrites_keeps ..) rfl ?_
      refine Keeps.ofSnd a5 ?_
      refine Keeps.step (State.finishD0_keeps ..) rfl ?_
      exact Keeps.refl _ _
    clear_value z6
    extract_lets +onlyGivenNames z8
    split
    rename_i a9 a10 a11 a12 a13
    extract_lets +onlyGivenNames z14
    split
    rename_i a15 a16 a17 a18
    extract_lets +onlyGivenNames z19
    split
    split
    rename_i a20 a21 a22 a23 a24 a25 a26 a27
    extract_lets +onlyGivenNames z28
    extract_lets +onlyGivenNames z29
    refine Keeps.step (State.modLink_keeps ..) rfl ?_
    refine Keeps.ofSnd a27 ?_
    refine Keeps.foldlSnd ?_ (fun _ _ _ => ?_)
    · refine Keeps.ofMk ?_
      refine Keeps.ofSnd a18 ?_
      split
      · refine Keeps.step (State.writeBlocks_keeps ..) rfl ?_
        refine Keeps.ofSnd a13 ?_
        refine Keeps.step (State.trainMsgs_keeps ..) rfl ?_
        assumption
      · refine Keeps.ofMk ?_
        refine Keeps.ofSnd a13 ?_
        refine Keeps.step (State.trainMsgs_keeps ..) rfl ?_
        assumption
    · split
      rename_i a30 a31 a32 a33 a34 a35 a36
      refine Keeps.ofMk ?_
      refine Keeps.ofSnd a36 ?_
      refine Keeps.step (State.emitMsg_keeps ..) rfl ?_
      assumption

theorem State.resend_keeps (s : State) (n : Fin 16) (frames : List ℕ) :
    Keeps [.heads] s (State.resend s n frames) := by
  unfold State.resend
  extract_lets +onlyGivenNames z1
  extract_lets +onlyGivenNames z2
  extract_lets +onlyGivenNames z3
  extract_lets +onlyGivenNames z4
  refine Keeps.cut (x := z4) ?_ (fun h5 => ?_)
  · unfold z4
    refine Keeps.step (State.modHead_keeps ..) rfl ?_
    exact Keeps.refl _ _
  clear_value z4
  refine Keeps.step (State.modLink_keeps ..) rfl ?_
  assumption

end Sys2Proof.Machine
end

