-- ==== Sys2Proof/Laws/KeepsLink.lean ====
section
/-!
SUPPORT. Laws/KeepsLink.lean: which parts of a state each operation of Machine/Link.lean may change, and that it keeps a sound
state sound.
-/

namespace Sys2Proof.Machine

theorem State.verifyFrame_keeps (s : State) (n : Fin 16) (f : LaneFrame) :
    Keeps [.heads] s (State.verifyFrame s n f) := by
  unfold State.verifyFrame
  extract_lets +onlyGivenNames z1
  refine Keeps.step (State.modLink_keeps ..) rfl ?_
  exact Keeps.refl _ _

theorem State.endSamples_keeps (s : State) (n : Fin 16) (j : Fin 12) :
    Keeps [.heads, .decode] s (State.endSamples s n j) := by
  unfold State.endSamples
  extract_lets +onlyGivenNames z1
  split
  · split
    · extract_lets +onlyGivenNames z2
      extract_lets +onlyGivenNames z3
      refine Keeps.cut (x := z3) ?_ (fun h4 => ?_)
      · unfold z3
        refine Keeps.step (State.modSector_keeps ..) rfl ?_
        exact Keeps.refl _ _
      clear_value z3
      split
      · refine Keeps.step (State.modBeam_keeps ..) rfl ?_
        assumption
      · assumption
    · exact Keeps.refl _ _
  · exact Keeps.refl _ _

theorem State.runChannels_keeps (s : State) (n : Fin 16) :
    Keeps [.heads, .decode] s (State.runChannels s n) := by
  unfold State.runChannels
  extract_lets +onlyGivenNames z1
  extract_lets +onlyGivenNames z2
  extract_lets +onlyGivenNames z3
  refine Keeps.cut (x := z3) ?_ (fun h4 => ?_)
  · unfold z3
    refine Keeps.step (State.modHead_keeps ..) rfl ?_
    exact Keeps.refl _ _
  clear_value z3
  extract_lets +onlyGivenNames z5
  refine Keeps.cut (x := z5) ?_ (fun h6 => ?_)
  · unfold z5
    refine Keeps.step (State.modHead_keeps ..) rfl ?_
    assumption
  clear_value z5
  refine Keeps.foldl ?_ (fun _ _ _ => ?_)
  · assumption
  · refine Keeps.step (State.endSamples_keeps ..) rfl ?_
    assumption

theorem State.takeSamples_keeps (s : State) (n : Fin 16) (k : ℕ) (c0 : Stamp) (blocks : List Block) :
    Keeps [.heads] s (State.takeSamples s n k c0 blocks) := by
  unfold State.takeSamples
  refine Keeps.foldl ?_ (fun _ _ _ => ?_)
  · exact Keeps.refl _ _
  · split
    rename_i a1 a2 a3 a4 a5
    split
    · refine Keeps.step (State.modBeam_keeps ..) rfl ?_
      assumption
    · assumption

theorem State.checkAlign_keeps (s : State) (n : Fin 16) (good : ℕ) (c0 : Stamp) (arrival : Stamp) :
    Keeps [.events, .regs, .heads, .decode, .loop, .seq, .mem, .motion, .out] s (State.checkAlign s n good c0 arrival) := by
  unfold State.checkAlign
  extract_lets +onlyGivenNames z1
  extract_lets +onlyGivenNames z2
  split
  · split
    · refine Keeps.step (State.linkAligned_keeps ..) rfl ?_
      exact Keeps.refl _ _
    · refine Keeps.step (State.modLink_keeps ..) rfl ?_
      exact Keeps.refl _ _
  · refine Keeps.step (State.trainFails_keeps ..) rfl ?_
    refine Keeps.step (State.logHead_keeps ..) rfl ?_
    exact Keeps.refl _ _

theorem State.learnPair_keeps (s : State) (n : Fin 16) (pair : Fin 4) :
    Keeps [.heads] s (State.learnPair s n pair) := by
  unfold State.learnPair
  extract_lets +onlyGivenNames z1
  split
  split
  · extract_lets +onlyGivenNames z2
    split
    · refine Keeps.step (State.modLink_keeps ..) rfl ?_
      exact Keeps.refl _ _
    · exact Keeps.refl _ _
  · exact Keeps.refl _ _

theorem State.stepFive_keeps (s : State) (n : Fin 16) :
    Keeps [.heads] s (State.stepFive s n) := by
  unfold State.stepFive
  split
  · extract_lets +onlyGivenNames z1
    split
    · refine Keeps.step (State.modLink_keeps ..) rfl ?_
      exact Keeps.refl _ _
    · exact Keeps.refl _ _
  · exact Keeps.refl _ _

theorem State.relocked_keeps (s : State) (n : Fin 16) (t : Training) :
    Keeps [.heads] s (State.relocked s n t) := by
  unfold State.relocked
  extract_lets +onlyGivenNames z1
  extract_lets +onlyGivenNames z2
  split
  · refine Keeps.step (State.modLink_keeps ..) rfl ?_
    exact Keeps.refl _ _
  · exact Keeps.refl _ _

theorem State.verifyPrevious_keeps (s : State) (n : Fin 16) (k : Fin 4) (hdr : FrameHdr) (valid : Bool) :
    Keeps [.events, .regs, .heads, .decode, .loop, .seq, .mem, .motion, .out] s (State.verifyPrevious s n k hdr valid) := by
  unfold State.verifyPrevious
  split
  · exact Keeps.refl _ _
  · extract_lets +onlyGivenNames z1
    split
    · refine Keeps.step (State.modLane_keeps ..) rfl ?_
      refine Keeps.step (State.verifyFrame_keeps ..) rfl ?_
      exact Keeps.refl _ _
    · refine Keeps.step (State.lostFrame_keeps ..) rfl ?_
      refine Keeps.step (State.modLane_keeps ..) rfl ?_
      exact Keeps.refl _ _

theorem State.openFrame_keeps (s : State) (n : Fin 16) (k : Fin 4) (hdr : FrameHdr) (valid : Bool) (good : Bool) (blocks : List Block)
    (c0 : Stamp) :
    Keeps [.heads] s (State.openFrame s n k hdr valid good blocks c0) := by
  unfold State.openFrame
  refine Keeps.step (State.modLane_keeps ..) rfl ?_
  exact Keeps.refl _ _

theorem State.trainFrame_keeps (s : State) (n : Fin 16) (t : Training) (pair : Fin 4) (hdr : FrameHdr) (valid : Bool) (arrival : Stamp)
    (blocks : List Block) :
    Keeps [.events, .regs, .heads, .decode, .loop, .seq, .mem, .motion, .out] s (State.trainFrame s n t pair hdr valid arrival blocks) := by
  unfold State.trainFrame
  extract_lets +onlyGivenNames z1
  refine Keeps.cut (x := z1) ?_ (fun h2 => ?_)
  · unfold z1
    refine Keeps.step (State.modLink_keeps ..) rfl ?_
    exact Keeps.refl _ _
  clear_value z1
  split
  · refine Keeps.step (State.relocked_keeps ..) rfl ?_
    split
    · refine Keeps.step (State.modLane_keeps ..) rfl ?_
      assumption
    · assumption
  · extract_lets +onlyGivenNames z3
    refine Keeps.cut (x := z3) ?_ (fun h4 => ?_)
    · unfold z3
      split
      · refine Keeps.step (State.learnPair_keeps ..) rfl ?_
        assumption
      · assumption
    clear_value z3
    split
    · assumption
    · extract_lets +onlyGivenNames z5
      extract_lets +onlyGivenNames z6
      extract_lets +onlyGivenNames z7
      refine Keeps.cut (x := z7) ?_ (fun h8 => ?_)
      · unfold z7
        refine Keeps.step (State.openFrame_keeps ..) rfl ?_
        refine Keeps.step (State.verifyPrevious_keeps ..) rfl ?_
        assumption
      clear_value z7
      extract_lets +onlyGivenNames z9
      refine Keeps.cut (x := z9) ?_ (fun h10 => ?_)
      · unfold z9
        split
        · refine Keeps.step (State.modLane_keeps ..) rfl ?_
          assumption
        · refine Keeps.step (State.lostFrame_keeps ..) rfl ?_
          assumption
      clear_value z9
      extract_lets +onlyGivenNames z11
      refine Keeps.cut (x := z11) ?_ (fun h12 => ?_)
      · unfold z11
        refine Keeps.step (State.stepFive_keeps ..) rfl ?_
        assumption
      clear_value z11
      split
      · split
        · assumption
        · split
          · refine Keeps.step (State.checkAlign_keeps ..) rfl ?_
            assumption
          · refine Keeps.step (State.trainFails_keeps ..) rfl ?_
            refine Keeps.step (State.logHead_keeps ..) rfl ?_
            assumption
      · assumption

theorem State.activeFrame_keeps (s : State) (n : Fin 16) (k : Fin 4) (hdr : FrameHdr) (valid : Bool) (arrival : Stamp) (header : Block)
    (blocks : List Block) :
    Keeps [.events, .regs, .heads, .decode, .loop, .seq, .mem, .motion, .out] s (State.activeFrame s n k hdr valid arrival header blocks) := by
  unfold State.activeFrame
  extract_lets +onlyGivenNames z1
  extract_lets +onlyGivenNames z2
  extract_lets +onlyGivenNames z3
  extract_lets +onlyGivenNames z4
  refine Keeps.cut (x := z4) ?_ (fun h5 => ?_)
  · unfold z4
    refine Keeps.step (State.openFrame_keeps ..) rfl ?_
    refine Keeps.step (State.verifyPrevious_keeps ..) rfl ?_
    exact Keeps.refl _ _
  clear_value z4
  split
  · assumption
  · extract_lets +onlyGivenNames z6
    extract_lets +onlyGivenNames z7
    refine Keeps.cut (x := z7) ?_ (fun h8 => ?_)
    · unfold z7
      refine Keeps.step (State.modLane_keeps ..) rfl ?_
      assumption
    clear_value z7
    extract_lets +onlyGivenNames z9
    refine Keeps.cut (x := z9) ?_ (fun h10 => ?_)
    · unfold z9
      split
      · refine Keeps.step (State.takeSamples_keeps ..) rfl ?_
        assumption
      · assumption
    clear_value z9
    extract_lets +onlyGivenNames z11
    refine Keeps.cut (x := z11) ?_ (fun h12 => ?_)
    · unfold z11
      split
      · assumption
      · refine Keeps.step (State.lostFrame_keeps ..) rfl ?_
        assumption
    clear_value z11
    extract_lets +onlyGivenNames z13
    split
    · refine Keeps.step (State.linkFault_keeps ..) rfl ?_
      refine Keeps.step (State.logHead_keeps ..) rfl ?_
      assumption
    · split
      · refine Keeps.step (State.laneLeaves_keeps ..) rfl ?_
        assumption
      · assumption

theorem State.retrainFrame_keeps (s : State) (n : Fin 16) (k : Fin 4) (hdr : FrameHdr) (valid : Bool) (arrival : Stamp)
    (blocks : List Block) :
    Keeps [.events, .regs, .heads, .decode, .loop, .seq, .mem, .motion, .out] s (State.retrainFrame s n k hdr valid arrival blocks) := by
  unfold State.retrainFrame
  extract_lets +onlyGivenNames z1
  extract_lets +onlyGivenNames z2
  extract_lets +onlyGivenNames z3
  split
  · exact Keeps.refl _ _
  · extract_lets +onlyGivenNames z4
    refine Keeps.cut (x := z4) ?_ (fun h5 => ?_)
    · unfold z4
      refine Keeps.step (State.openFrame_keeps ..) rfl ?_
      refine Keeps.step (State.verifyPrevious_keeps ..) rfl ?_
      exact Keeps.refl _ _
    clear_value z4
    extract_lets +onlyGivenNames z6
    refine Keeps.cut (x := z6) ?_ (fun h7 => ?_)
    · unfold z6
      split
      · assumption
      · refine Keeps.step (State.laneError_keeps ..) rfl ?_
        assumption
    clear_value z6
    split
    · refine Keeps.step (State.takeSamples_keeps ..) rfl ?_
      refine Keeps.step (State.laneRejoins_keeps ..) rfl ?_
      assumption
    · assumption

theorem execUpFrame_keeps (head : Fin 16) (pair : Fin 4) (arrival : Stamp) (header : Block) (blocks : List Block) (s : State) :
    KeepsR [.events, .regs, .heads, .decode, .loop, .seq, .mem, .motion, .out] s (execUpFrame head pair arrival header blocks s) := by
  unfold execUpFrame
  extract_lets +onlyGivenNames z1
  extract_lets +onlyGivenNames z2
  refine KeepsR.when ?_ ?_
  · exact Keeps.refl _ _
  · extract_lets +onlyGivenNames z3
    extract_lets +onlyGivenNames z4
    refine Keeps.cut (x := z4) ?_ (fun h5 => ?_)
    · unfold z4
      split
      · refine Keeps.step (State.trainFrame_keeps ..) rfl ?_
        exact Keeps.refl _ _
      · exact Keeps.refl _ _
      · extract_lets +onlyGivenNames z6
        split
        · refine Keeps.step (State.activeFrame_keeps ..) rfl ?_
          exact Keeps.refl _ _
        · refine Keeps.step (State.retrainFrame_keeps ..) rfl ?_
          exact Keeps.refl _ _
        · exact Keeps.refl _ _
        · exact Keeps.refl _ _
    clear_value z4
    refine Keeps.step (State.runChannels_keeps ..) rfl ?_
    assumption

theorem execUpFrameMissing_keeps (head : Fin 16) (lane : Fin 4) (fcnt : Fin 65536) (s : State) :
    KeepsR [.events, .regs, .heads, .decode, .loop, .seq, .mem, .motion, .out] s (execUpFrameMissing head lane fcnt s) := by
  unfold execUpFrameMissing
  extract_lets +onlyGivenNames z1
  extract_lets +onlyGivenNames z2
  refine KeepsR.when ?_ ?_
  · exact Keeps.refl _ _
  · extract_lets +onlyGivenNames z3
    extract_lets +onlyGivenNames z4
    split
    · split
      · split
        · refine Keeps.step (State.trainFails_keeps ..) rfl ?_
          refine Keeps.step (State.logHead_keeps ..) rfl ?_
          unfold z4
          extract_lets +onlyGivenNames z5
          refine Keeps.cut (x := z5) ?_ (fun h6 => ?_)
          · unfold z5
            split
            · refine Keeps.step (State.lostFrame_keeps ..) rfl ?_
              refine Keeps.step (State.modLane_keeps ..) rfl ?_
              exact Keeps.refl _ _
            · exact Keeps.refl _ _
          clear_value z5
          refine Keeps.step (State.lostFrame_keeps ..) rfl ?_
          refine Keeps.step (State.modLane_keeps ..) rfl ?_
          assumption
        · unfold z4
          extract_lets +onlyGivenNames z7
          refine Keeps.cut (x := z7) ?_ (fun h8 => ?_)
          · unfold z7
            split
            · refine Keeps.step (State.lostFrame_keeps ..) rfl ?_
              refine Keeps.step (State.modLane_keeps ..) rfl ?_
              exact Keeps.refl _ _
            · exact Keeps.refl _ _
          clear_value z7
          refine Keeps.step (State.lostFrame_keeps ..) rfl ?_
          refine Keeps.step (State.modLane_keeps ..) rfl ?_
          assumption
      · exact Keeps.refl _ _
    · split
      · unfold z4
        extract_lets +onlyGivenNames z9
        refine Keeps.cut (x := z9) ?_ (fun h10 => ?_)
        · unfold z9
          split
          · refine Keeps.step (State.lostFrame_keeps ..) rfl ?_
            refine Keeps.step (State.modLane_keeps ..) rfl ?_
            exact Keeps.refl _ _
          · exact Keeps.refl _ _
        clear_value z9
        refine Keeps.step (State.lostFrame_keeps ..) rfl ?_
        refine Keeps.step (State.modLane_keeps ..) rfl ?_
        assumption
      · exact Keeps.refl _ _

theorem State.takeSide_keeps {s : State} {n : Fin 16} {kind : Nat} {P : List Part} {s0 : State} {b : SideBlock} {t : State}
    (h : s.takeSide n kind = some (b, t)) (hP : Part.sub [.heads] P = true) (k : Keeps P s0 s) : Keeps P s0 t := by
  unfold State.takeSide at h
  split at h
  · cases h
    exact Keeps.step (State.modLink_keeps ..) hP k
  · cases h

theorem execSrfBlock_keeps (head : Fin 16) (s : State) :
    KeepsR [.heads] s (execSrfBlock head s) := by
  unfold execSrfBlock
  split
  · rename_i a1 a2
    refine KeepsR.next ?_
    exact Keeps.refl _ _
  · rename_i a3 a4 a5 a6
    extract_lets +onlyGivenNames z7
    refine KeepsR.next ?_
    split
    · refine State.takeSide_keeps a6 rfl ?_
      exact Keeps.refl _ _
    · refine Keeps.step (State.modLink_keeps ..) rfl ?_
      refine State.takeSide_keeps a6 rfl ?_
      exact Keeps.refl _ _

theorem execQuadBlock_keeps (head : Fin 16) (s : State) :
    KeepsR [.heads, .loop] s (execQuadBlock head s) := by
  unfold execQuadBlock
  split
  · rename_i a1 a2
    refine KeepsR.next ?_
    exact Keeps.refl _ _
  · rename_i a3 a4 a5 a6
    extract_lets +onlyGivenNames z7
    refine KeepsR.next ?_
    refine Keeps.step (State.modLoopHead_keeps ..) rfl ?_
    refine State.takeSide_keeps a6 rfl ?_
    exact Keeps.refl _ _

theorem execHkBlock_keeps (head : Fin 16) (s : State) :
    KeepsR [.events, .regs, .heads, .decode, .mem, .out] s (execHkBlock head s) := by
  unfold execHkBlock
  extract_lets +onlyGivenNames z1
  split
  · rename_i a2 a3
    refine KeepsR.next ?_
    exact Keeps.refl _ _
  · rename_i a4 a5 a6 a7
    refine KeepsR.when ?_ ?_
    · refine State.takeSide_keeps a7 rfl ?_
      exact Keeps.refl _ _
    · extract_lets +onlyGivenNames z8
      extract_lets +onlyGivenNames z9
      extract_lets +onlyGivenNames z10
      refine Keeps.cut (x := z10) ?_ (fun h11 => ?_)
      · unfold z10
        refine Keeps.step (State.modLink_keeps ..) rfl ?_
        refine State.takeSide_keeps a7 rfl ?_
        exact Keeps.refl _ _
      clear_value z10
      split
      · extract_lets +onlyGivenNames z12
        extract_lets +onlyGivenNames z13
        extract_lets +onlyGivenNames z14
        refine Keeps.cut (x := z14) ?_ (fun h15 => ?_)
        · unfold z14
          refine Keeps.step (State.modHead_keeps ..) rfl ?_
          assumption
        clear_value z14
        extract_lets +onlyGivenNames z16
        refine Keeps.cut (x := z16) ?_ (fun h17 => ?_)
        · unfold z16
          refine Keeps.step (State.setFld_keeps ..) rfl ?_
          assumption
        clear_value z16
        refine Keeps.step (State.setDerate_keeps ..) rfl ?_
        assumption
      · assumption

theorem State.resumeStream_keeps (s : State) (n : Fin 16) :
    Keeps [.events, .regs, .heads, .mem, .out] s (State.resumeStream s n) := by
  unfold State.resumeStream
  split
  · exact Keeps.refl _ _
  · extract_lets +onlyGivenNames z1
    extract_lets +onlyGivenNames z2
    refine Keeps.cut (x := z2) ?_ (fun h3 => ?_)
    · unfold z2
      refine Keeps.foldl ?_ (fun _ _ _ => ?_)
      · exact Keeps.refl _ _
      · split
        rename_i a4 a5 a6 a7 a8 a9 a10 a11
        refine Keeps.step (State.voidSlot_keeps ..) rfl ?_
        assumption
    clear_value z2
    extract_lets +onlyGivenNames z12
    split
    · assumption
    · extract_lets +onlyGivenNames z13
      extract_lets +onlyGivenNames z14
      extract_lets +onlyGivenNames z15
      refine Keeps.step (State.modPass_keeps ..) rfl ?_
      assumption

theorem State.cutAtSymbol_keeps (s : State) (n : Fin 16) (p : Pass) (w : WriteRev) (has : ℕ) (d : BandDesc) (e : SlotEntry) :
    Keeps [.events, .regs, .heads, .decode, .mem, .out] s (State.cutAtSymbol s n p w has d e) := by
  unfold State.cutAtSymbol
  extract_lets +onlyGivenNames z1
  extract_lets +onlyGivenNames z2
  refine Keeps.cut (x := z2) ?_ (fun h3 => ?_)
  · unfold z2
    split
    · refine Keeps.step (State.setFld_keeps ..) rfl ?_
      exact Keeps.refl _ _
    · exact Keeps.refl _ _
  clear_value z2
  extract_lets +onlyGivenNames z4
  extract_lets +onlyGivenNames z5
  refine Keeps.cut (x := z5) ?_ (fun h6 => ?_)
  · unfold z5
    refine Keeps.step (State.recordCut_keeps ..) rfl ?_
    assumption
  clear_value z5
  refine Keeps.step (State.voidSlot_keeps ..) rfl ?_
  refine Keeps.step (State.modPass_keeps ..) rfl ?_
  assumption

theorem State.writeCorrupt_keeps (s : State) (n : Fin 16) (firstBad : Option ℕ) :
    Keeps [.events, .regs, .heads, .decode, .mem, .out] s (State.writeCorrupt s n firstBad) := by
  unfold State.writeCorrupt
  extract_lets +onlyGivenNames z1
  refine Keeps.cut (x := z1) ?_ (fun h2 => ?_)
  · unfold z1
    refine Keeps.step (State.settleWrites_keeps ..) rfl ?_
    exact Keeps.refl _ _
  clear_value z1
  split
  · assumption
  · split
    · assumption
    · split
      · assumption
      · extract_lets +onlyGivenNames z3
        extract_lets +onlyGivenNames z4
        extract_lets +onlyGivenNames z5
        extract_lets +onlyGivenNames z6
        extract_lets +onlyGivenNames z7
        refine Keeps.cut (x := z7) ?_ (fun h8 => ?_)
        · unfold z7
          refine Keeps.foldl ?_ (fun _ _ _ => ?_)
          · assumption
          · refine Keeps.step (State.cutAtSymbol_keeps ..) rfl ?_
            assumption
        clear_value z7
        extract_lets +onlyGivenNames z9
        extract_lets +onlyGivenNames z10
        refine Keeps.cut (x := z10) ?_ (fun h11 => ?_)
        · unfold z10
          refine Keeps.step (State.modPass_keeps ..) rfl ?_
          assumption
        clear_value z10
        extract_lets +onlyGivenNames z12
        refine Keeps.cut (x := z12) ?_ (fun h13 => ?_)
        · unfold z12
          refine Keeps.step (State.logHead_keeps ..) rfl ?_
          refine Keeps.step (State.bump_keeps ..) rfl ?_
          assumption
        clear_value z12
        refine Keeps.step (State.resumeStream_keeps ..) rfl ?_
        assumption

theorem State.feByStat_keeps (s : State) (n : Fin 16) (safe : Bool) :
    Keeps [.heads, .seq] s (State.feByStat s n safe) := by
  unfold State.feByStat
  extract_lets +onlyGivenNames z1
  extract_lets +onlyGivenNames z2
  refine Keeps.cut (x := z2) ?_ (fun h3 => ?_)
  · unfold z2
    refine Keeps.step (State.modHead_keeps ..) rfl ?_
    exact Keeps.refl _ _
  clear_value z2
  refine Keeps.foldl ?_ (fun _ _ _ => ?_)
  · assumption
  · refine Keeps.step (State.completeHead_keeps ..) rfl ?_
    assumption

theorem execStatBlock_keeps (head : Fin 16) (s : State) :
    KeepsR [.events, .regs, .heads, .decode, .loop, .seq, .mem, .motion, .out] s (execStatBlock head s) := by
  unfold execStatBlock
  extract_lets +onlyGivenNames z1
  split
  · rename_i a2 a3
    refine KeepsR.next ?_
    exact Keeps.refl _ _
  · rename_i a4 a5 a6 a7
    refine KeepsR.when ?_ ?_
    · refine State.takeSide_keeps a7 rfl ?_
      exact Keeps.refl _ _
    · extract_lets +onlyGivenNames z8
      extract_lets +onlyGivenNames z9
      extract_lets +onlyGivenNames z10
      extract_lets +onlyGivenNames z11
      extract_lets +onlyGivenNames z12
      extract_lets +onlyGivenNames z13
      extract_lets +onlyGivenNames z14
      extract_lets +onlyGivenNames z15
      extract_lets +onlyGivenNames z16
      extract_lets +onlyGivenNames z17
      extract_lets +onlyGivenNames z18
      extract_lets +onlyGivenNames z19
      extract_lets +onlyGivenNames z20
      refine Keeps.cut (x := z20) ?_ (fun h21 => ?_)
      · unfold z20
        refine Keeps.step (State.modLink_keeps ..) rfl ?_
        refine State.takeSide_keeps a7 rfl ?_
        exact Keeps.refl _ _
      clear_value z20
      extract_lets +onlyGivenNames z22
      extract_lets +onlyGivenNames z23
      extract_lets +onlyGivenNames z24
      extract_lets +onlyGivenNames z25
      extract_lets +onlyGivenNames z26
      refine Keeps.cut (x := z26) ?_ (fun h27 => ?_)
      · unfold z26
        refine Keeps.step (State.modLink_keeps ..) rfl ?_
        assumption
      clear_value z26
      extract_lets +onlyGivenNames z28
      refine Keeps.cut (x := z28) ?_ (fun h29 => ?_)
      · unfold z28
        refine Keeps.step (State.modHead_keeps ..) rfl ?_
        assumption
      clear_value z28
      extract_lets +onlyGivenNames z30
      extract_lets +onlyGivenNames z31
      refine Keeps.cut (x := z31) ?_ (fun h32 => ?_)
      · unfold z31
        refine Keeps.step (State.setFld_keeps ..) rfl ?_
        refine Keeps.step (State.setFld_keeps ..) rfl ?_
        assumption
      clear_value z31
      extract_lets +onlyGivenNames z33
      refine Keeps.cut (x := z33) ?_ (fun h34 => ?_)
      · unfold z33
        refine Keeps.step (State.setFld_keeps ..) rfl ?_
        assumption
      clear_value z33
      extract_lets +onlyGivenNames z35
      refine Keeps.cut (x := z35) ?_ (fun h36 => ?_)
      · unfold z35
        split
        · assumption
        · refine Keeps.step (State.logHead_keeps ..) rfl ?_
          refine Keeps.step (State.bump_keeps ..) rfl ?_
          assumption
      clear_value z35
      extract_lets +onlyGivenNames z37
      refine Keeps.cut (x := z37) ?_ (fun h38 => ?_)
      · unfold z37
        refine Keeps.step (State.resend_keeps ..) rfl ?_
        assumption
      clear_value z37
      extract_lets +onlyGivenNames z39
      extract_lets +onlyGivenNames z40
      refine Keeps.cut (x := z40) ?_ (fun h41 => ?_)
      · unfold z40
        refine Keeps.step (State.badSamples_keeps ..) rfl ?_
        assumption
      clear_value z40
      extract_lets +onlyGivenNames z42
      refine Keeps.cut (x := z42) ?_ (fun h43 => ?_)
      · unfold z42
        split
        · refine Keeps.step (State.writeCorrupt_keeps ..) rfl ?_
          assumption
        · assumption
      clear_value z42
      extract_lets +onlyGivenNames z44
      refine Keeps.cut (x := z44) ?_ (fun h45 => ?_)
      · unfold z44
        split
        · refine Keeps.step (State.hemRequest_keeps ..) rfl ?_
          assumption
        · assumption
      clear_value z44
      extract_lets +onlyGivenNames z46
      refine Keeps.cut (x := z46) ?_ (fun h47 => ?_)
      · unfold z46
        split
        · refine Keeps.step (State.logHead_keeps ..) rfl ?_
          assumption
        · assumption
      clear_value z46
      extract_lets +onlyGivenNames z48
      refine Keeps.cut (x := z48) ?_ (fun h49 => ?_)
      · unfold z48
        refine Keeps.step (State.feByStat_keeps ..) rfl ?_
        assumption
      clear_value z48
      split
      · split
        · refine Keeps.step (State.linkFault_keeps ..) rfl ?_
          assumption
        · split
          · refine Keeps.step (State.linkFault_keeps ..) rfl ?_
            assumption
          · assumption
      · assumption

theorem execCapBlock_keeps (head : Fin 16) (s : State) :
    KeepsR [.regs, .heads] s (execCapBlock head s) := by
  unfold execCapBlock
  extract_lets +onlyGivenNames z1
  split
  · rename_i a2 a3
    refine KeepsR.next ?_
    exact Keeps.refl _ _
  · rename_i a4 a5 a6 a7
    refine KeepsR.when ?_ ?_
    · refine State.takeSide_keeps a7 rfl ?_
      exact Keeps.refl _ _
    · split
      · extract_lets +onlyGivenNames z8
        extract_lets +onlyGivenNames z9
        refine Keeps.cut (x := z9) ?_ (fun h10 => ?_)
        · unfold z9
          refine Keeps.step (State.setFld_keeps ..) rfl ?_
          refine State.takeSide_keeps a7 rfl ?_
          exact Keeps.refl _ _
        clear_value z9
        extract_lets +onlyGivenNames z11
        refine Keeps.cut (x := z11) ?_ (fun h12 => ?_)
        · unfold z11
          refine Keeps.step (State.setFld_keeps ..) rfl ?_
          assumption
        clear_value z11
        extract_lets +onlyGivenNames z13
        refine Keeps.cut (x := z13) ?_ (fun h14 => ?_)
        · unfold z13
          refine Keeps.step (State.setFld_keeps ..) rfl ?_
          assumption
        clear_value z13
        extract_lets +onlyGivenNames z15
        refine Keeps.cut (x := z15) ?_ (fun h16 => ?_)
        · unfold z15
          refine Keeps.step (State.setFld_keeps ..) rfl ?_
          assumption
        clear_value z15
        extract_lets +onlyGivenNames z17
        refine Keeps.cut (x := z17) ?_ (fun h18 => ?_)
        · unfold z17
          refine Keeps.step (State.setFld_keeps ..) rfl ?_
          assumption
        clear_value z17
        refine Keeps.step (State.modLink_keeps ..) rfl ?_
        assumption
      · refine Keeps.step (State.setReg_keeps ..) rfl ?_
        refine State.takeSide_keeps a7 rfl ?_
        exact Keeps.refl _ _

theorem State.echoReply_keeps (s : State) (n : Fin 16) (fc : ℕ) (delta : ℕ) (arrival : Stamp) :
    Keeps [.regs, .heads] s (State.echoReply s n fc delta arrival) := by
  unfold State.echoReply
  split
  · split
    · split
      · extract_lets +onlyGivenNames z1
        extract_lets +onlyGivenNames z2
        refine Keeps.cut (x := z2) ?_ (fun h3 => ?_)
        · unfold z2
          refine Keeps.step (State.setFld_keeps ..) rfl ?_
          exact Keeps.refl _ _
        clear_value z2
        refine Keeps.step (State.modLink_keeps ..) rfl ?_
        assumption
      · exact Keeps.refl _ _
    · exact Keeps.refl _ _
  · exact Keeps.refl _ _

theorem execReplyBlock_keeps (head : Fin 16) (arrival : Stamp) (s : State) :
    KeepsR [.events, .regs, .heads, .seq, .mem, .out] s (execReplyBlock head arrival s) := by
  unfold execReplyBlock
  extract_lets +onlyGivenNames z1
  split
  · rename_i a2 a3
    refine KeepsR.next ?_
    exact Keeps.refl _ _
  · rename_i a4 a5 a6 a7
    refine KeepsR.when ?_ ?_
    · refine State.takeSide_keeps a7 rfl ?_
      exact Keeps.refl _ _
    · extract_lets +onlyGivenNames z8
      extract_lets +onlyGivenNames z9
      extract_lets +onlyGivenNames z10
      split
      extract_lets +onlyGivenNames z11
      refine Keeps.cut (x := z11) ?_ (fun h12 => ?_)
      · unfold z11
        refine Keeps.step (State.modLink_keeps ..) rfl ?_
        refine State.takeSide_keeps a7 rfl ?_
        exact Keeps.refl _ _
      clear_value z11
      extract_lets +onlyGivenNames z13
      clear_value z8
      split
      · refine Keeps.step (State.echoReply_keeps ..) rfl ?_
        assumption
      · unfold z13
        split
        · refine Keeps.step (State.completeHead_keeps ..) rfl ?_
          refine Keeps.step (State.modHead_keeps ..) rfl ?_
          assumption
        · assumption
      · unfold z13
        split
        · refine Keeps.step (State.completeHead_keeps ..) rfl ?_
          refine Keeps.step (State.modHead_keeps ..) rfl ?_
          assumption
        · assumption
      · split
        · refine Keeps.step (State.logHead_keeps ..) rfl ?_
          assumption
        · extract_lets +onlyGivenNames z14
          refine Keeps.cut (x := z14) ?_ (fun h15 => ?_)
          · unfold z14
            split
            · unfold z13
              split
              · refine Keeps.step (State.completeHead_keeps ..) rfl ?_
                refine Keeps.step (State.modHead_keeps ..) rfl ?_
                assumption
              · assumption
            · unfold z13
              split
              · refine Keeps.step (State.completeHead_keeps ..) rfl ?_
                refine Keeps.step (State.modHead_keeps ..) rfl ?_
                assumption
              · assumption
            · refine Keeps.step (State.wstartLost_keeps ..) rfl ?_
              assumption
            · assumption
          clear_value z14
          refine Keeps.step (State.logHead_keeps ..) rfl ?_
          assumption
      · assumption

theorem execFeevBlock_keeps (head : Fin 16) (s : State) :
    KeepsR [.events, .heads] s (execFeevBlock head s) := by
  unfold execFeevBlock
  split
  · rename_i a1 a2
    refine KeepsR.next ?_
    exact Keeps.refl _ _
  · rename_i a3 a4 a5 a6
    refine KeepsR.when ?_ ?_
    · refine State.takeSide_keeps a6 rfl ?_
      exact Keeps.refl _ _
    · refine Keeps.step (State.logHead_keeps ..) rfl ?_
      refine State.takeSide_keeps a6 rfl ?_
      exact Keeps.refl _ _

theorem execD0FrameLaunch_keeps (head : Fin 16) (s : State) :
    KeepsR [.events, .regs, .heads, .mem, .out] s (execD0FrameLaunch head s) := by
  unfold execD0FrameLaunch
  refine KeepsR.when ?_ ?_
  · exact Keeps.refl _ _
  · refine Keeps.step (State.launchD0_keeps ..) rfl ?_
    exact Keeps.refl _ _

theorem execMessageResend_keeps (head : Fin 16) (s : State) :
    KeepsR [.heads] s (execMessageResend head s) := by
  unfold execMessageResend
  extract_lets +onlyGivenNames z1
  split
  · refine KeepsR.next ?_
    exact Keeps.refl _ _
  · extract_lets +onlyGivenNames z2
    refine KeepsR.next ?_
    split
    · exact Keeps.refl _ _
    · refine Keeps.step (State.resend_keeps ..) rfl ?_
      exact Keeps.refl _ _

theorem execLaneErrorWindowEnd_keeps (head : Fin 16) (lane : Fin 4) (s : State) :
    KeepsR [.heads] s (execLaneErrorWindowEnd head lane s) := by
  unfold execLaneErrorWindowEnd
  extract_lets +onlyGivenNames z1
  extract_lets +onlyGivenNames z2
  refine KeepsR.when ?_ ?_
  · exact Keeps.refl _ _
  · refine Keeps.step (State.modLane_keeps ..) rfl ?_
    exact Keeps.refl _ _

theorem execLaneRetrainTimeout_keeps (head : Fin 16) (lane : Fin 4) (s : State) :
    KeepsR [.events, .heads] s (execLaneRetrainTimeout head lane s) := by
  unfold execLaneRetrainTimeout
  extract_lets +onlyGivenNames z1
  extract_lets +onlyGivenNames z2
  split
  · refine KeepsR.next ?_
    exact Keeps.refl _ _
  · refine KeepsR.when ?_ ?_
    · exact Keeps.refl _ _
    · split
      · extract_lets +onlyGivenNames z3
        refine Keeps.cut (x := z3) ?_ (fun h4 => ?_)
        · unfold z3
          refine Keeps.step (State.modLane_keeps ..) rfl ?_
          exact Keeps.refl _ _
        clear_value z3
        refine Keeps.step (State.logHead_keeps ..) rfl ?_
        refine Keeps.step (State.sendMsg_keeps ..) rfl ?_
        assumption
      · extract_lets +onlyGivenNames z5
        refine Keeps.cut (x := z5) ?_ (fun h6 => ?_)
        · unfold z5
          refine Keeps.step (State.modLane_keeps ..) rfl ?_
          exact Keeps.refl _ _
        clear_value z5
        refine Keeps.step (State.sendMsg_keeps ..) rfl ?_
        assumption

theorem execStatTimeout_keeps (head : Fin 16) (s : State) :
    KeepsR [.events, .regs, .heads, .decode, .loop, .seq, .mem, .motion, .out] s (execStatTimeout head s) := by
  unfold execStatTimeout
  extract_lets +onlyGivenNames z1
  refine KeepsR.when ?_ ?_
  · exact Keeps.refl _ _
  · refine Keeps.step (State.linkFault_keeps ..) rfl ?_
    exact Keeps.refl _ _

theorem execLinkEnable_keeps (head : Fin 16) (s : State) :
    KeepsR [.events, .regs, .heads, .decode, .loop, .seq, .mem, .motion, .out] s (execLinkEnable head s) := by
  unfold execLinkEnable
  extract_lets +onlyGivenNames z1
  refine KeepsR.cut (x := z1) ?_ (fun h2 => ?_)
  · unfold z1
    refine Keeps.step (State.setFld_keeps ..) rfl ?_
    exact Keeps.refl _ _
  clear_value z1
  refine KeepsR.next ?_
  split
  · refine Keeps.step (State.linkTrain_keeps ..) rfl ?_
    assumption
  · assumption

theorem execLinkDisable_keeps (head : Fin 16) (s : State) :
    KeepsR [.events, .regs, .heads, .decode, .loop, .seq, .mem, .motion, .out] s (execLinkDisable head s) := by
  unfold execLinkDisable
  extract_lets +onlyGivenNames z1
  refine KeepsR.cut (x := z1) ?_ (fun h2 => ?_)
  · unfold z1
    refine Keeps.step (State.setFld_keeps ..) rfl ?_
    exact Keeps.refl _ _
  clear_value z1
  refine KeepsR.next ?_
  split
  · assumption
  · refine Keeps.step (State.linkDown_keeps ..) rfl ?_
    assumption

theorem execLinkRetrain_keeps (head : Fin 16) (s : State) :
    KeepsR [.events, .regs, .heads, .decode, .loop, .seq, .mem, .motion, .out] s (execLinkRetrain head s) := by
  unfold execLinkRetrain
  extract_lets +onlyGivenNames z1
  refine KeepsR.when ?_ ?_
  · exact Keeps.refl _ _
  · refine Keeps.step (State.linkTrain_keeps ..) rfl ?_
    exact Keeps.refl _ _

theorem execLinkRealign_keeps (head : Fin 16) (s : State) :
    KeepsR [.events, .regs, .heads, .decode, .loop, .seq, .mem, .motion, .out] s (execLinkRealign head s) := by
  unfold execLinkRealign
  extract_lets +onlyGivenNames z1
  refine KeepsR.when ?_ ?_
  · exact Keeps.refl _ _
  · refine Keeps.step (State.linkTrain_keeps ..) rfl ?_
    exact Keeps.refl _ _

theorem execFeSafeRequest_keeps (head : Fin 16) (s : State) :
    KeepsR [.heads] s (execFeSafeRequest head s) := by
  unfold execFeSafeRequest
  refine KeepsR.next ?_
  refine Keeps.step (State.sendSafe_keeps ..) rfl ?_
  exact Keeps.refl _ _

theorem execTrainingReceiversAdapted_keeps (head : Fin 16) (s : State) :
    KeepsR [.heads] s (execTrainingReceiversAdapted head s) := by
  unfold execTrainingReceiversAdapted
  split
  · refine KeepsR.next ?_
    exact Keeps.refl _ _
  · refine KeepsR.when ?_ ?_
    · exact Keeps.refl _ _
    · refine Keeps.step (State.modLink_keeps ..) rfl ?_
      exact Keeps.refl _ _

theorem execTrainingAttemptTimeout_keeps (head : Fin 16) (s : State) :
    KeepsR [.events, .regs, .heads, .decode, .loop, .seq, .mem, .motion, .out] s (execTrainingAttemptTimeout head s) := by
  unfold execTrainingAttemptTimeout
  split
  · refine KeepsR.next ?_
    exact Keeps.refl _ _
  · refine KeepsR.when ?_ ?_
    · exact Keeps.refl _ _
    · split
      · split
        · refine Keeps.step (State.modLink_keeps ..) rfl ?_
          exact Keeps.refl _ _
        · refine Keeps.step (State.trainFails_keeps ..) rfl ?_
          exact Keeps.refl _ _
      · refine Keeps.step (State.trainFails_keeps ..) rfl ?_
        exact Keeps.refl _ _
      · refine Keeps.step (State.trainFails_keeps ..) rfl ?_
        exact Keeps.refl _ _

end Sys2Proof.Machine
end

