-- ==== Sys2Proof/Laws/KeepsBeam.lean ====
section
/-!
SUPPORT. Laws/KeepsBeam.lean: which parts of a state each operation of Machine/Beam.lean may change, and that it keeps a sound
state sound.
-/

namespace Sys2Proof.Machine

theorem State.ingestPeak_keeps (s : State) (n : Fin 16) :
    Keeps [.regs] s (State.ingestPeak s n) := by
  unfold State.ingestPeak
  extract_lets +onlyGivenNames z1
  split
  · refine Keeps.step (State.setFld_keeps ..) rfl ?_
    exact Keeps.refl _ _
  · exact Keeps.refl _ _

theorem State.reopenAdmission_keeps (s : State) (n : Fin 16) :
    Keeps [.heads] s (State.reopenAdmission s n) := by
  unfold State.reopenAdmission
  split
  · refine Keeps.step (State.modHead_keeps ..) rfl ?_
    exact Keeps.refl _ _
  · exact Keeps.refl _ _

theorem execIngestAdmissionStop_keeps (head : Fin 16) (s : State) :
    KeepsR [.events, .heads] s (execIngestAdmissionStop head s) := by
  unfold execIngestAdmissionStop
  extract_lets +onlyGivenNames z1
  refine KeepsR.cut (x := z1) ?_ (fun h2 => ?_)
  · unfold z1
    refine Keeps.step (State.reopenAdmission_keeps ..) rfl ?_
    exact Keeps.refl _ _
  clear_value z1
  extract_lets +onlyGivenNames z3
  refine KeepsR.when ?_ ?_
  · assumption
  · refine Keeps.step (State.logHead_keeps ..) rfl ?_
    refine Keeps.step (State.modHead_keeps ..) rfl ?_
    assumption

theorem execIngestSpill_keeps (head : Fin 16) (s : State) :
    KeepsR [.events, .regs, .heads, .decode, .mem, .out] s (execIngestSpill head s) := by
  unfold execIngestSpill
  refine KeepsR.when ?_ ?_
  · exact Keeps.refl _ _
  · split
    · extract_lets +onlyGivenNames z1
      extract_lets +onlyGivenNames z2
      refine Keeps.cut (x := z2) ?_ (fun h3 => ?_)
      · unfold z2
        refine Keeps.step (State.memWrite_keeps ..) rfl ?_
        exact Keeps.refl _ _
      clear_value z2
      extract_lets +onlyGivenNames z4
      refine Keeps.cut (x := z4) ?_ (fun h5 => ?_)
      · unfold z4
        refine Keeps.step (State.modHead_keeps ..) rfl ?_
        assumption
      clear_value z4
      refine Keeps.step (State.modSector_keeps ..) rfl ?_
      assumption
    · exact Keeps.refl _ _

theorem State.shedOne_keeps (s : State) (n : Fin 16) :
    Keeps [.events, .regs, .heads, .decode, .mem, .out] s (State.shedOne s n) := by
  unfold State.shedOne
  extract_lets +onlyGivenNames z1
  clear_value z1
  split
  · exact Keeps.refl _ _
  · extract_lets +onlyGivenNames z2
    extract_lets +onlyGivenNames z3
    refine Keeps.cut (x := z3) ?_ (fun h4 => ?_)
    · unfold z3
      refine Keeps.step (State.logHead_keeps ..) rfl ?_
      exact Keeps.refl _ _
    clear_value z3
    refine Keeps.step (State.requeue_keeps ..) rfl ?_
    refine Keeps.step (State.bump_keeps ..) rfl ?_
    assumption

theorem State.shedAll_keeps (s : State) (n : Fin 16) (k : Nat) :
    Keeps [.events, .regs, .heads, .decode, .mem, .out] s (s.shedAll n k) := by
  induction k generalizing s with
  | zero =>
    rw [State.shedAll]
    exact Keeps.refl _ _
  | succ k ih =>
    rw [State.shedAll]
    split
    · refine Keeps.step (ih ..) rfl ?_
      refine Keeps.step (State.shedOne_keeps ..) rfl ?_
      exact Keeps.refl _ _
    · exact Keeps.refl _ _

theorem execIngestShed_keeps (head : Fin 16) (s : State) :
    KeepsR [.events, .regs, .heads, .decode, .mem, .out] s (execIngestShed head s) := by
  unfold execIngestShed
  refine KeepsR.next ?_
  refine Keeps.step (State.shedAll_keeps ..) rfl ?_
  exact Keeps.refl _ _

theorem State.openRunAhead_keeps (s : State) (n : Fin 16) (p : Pass) (band : ℕ) :
    Keeps [.events, .regs, .heads, .decode] s (State.openRunAhead s n p band) := by
  unfold State.openRunAhead
  extract_lets +onlyGivenNames z1
  split
  · exact Keeps.refl _ _
  · extract_lets +onlyGivenNames z2
    extract_lets +onlyGivenNames z3
    extract_lets +onlyGivenNames z4
    refine Keeps.cut (x := z4) ?_ (fun h5 => ?_)
    · unfold z4
      clear_value z3
      split
      · split
        · refine Keeps.step (State.discardBand_keeps ..) rfl ?_
          exact Keeps.refl _ _
        · exact Keeps.refl _ _
      · exact Keeps.refl _ _
    clear_value z4
    extract_lets +onlyGivenNames z6
    extract_lets +onlyGivenNames z7
    extract_lets +onlyGivenNames z8
    refine Keeps.step (State.modDec_keeps ..) rfl ?_
    assumption

theorem State.readVerifyBand_keeps (s : State) (n : Fin 16) (p : Pass) :
    Keeps [.heads] s (State.readVerifyBand s n p) := by
  unfold State.readVerifyBand
  split
  · refine Keeps.step (State.modPass_keeps ..) rfl ?_
    exact Keeps.refl _ _
  · exact Keeps.refl _ _

theorem State.closeSector_keeps (s : State) (n : Fin 16) (j : Fin 12) :
    Keeps [.decode] s (State.closeSector s n j) := by
  unfold State.closeSector
  extract_lets +onlyGivenNames z1
  split
  · extract_lets +onlyGivenNames z2
    refine Keeps.step (State.modSector_keeps ..) rfl ?_
    exact Keeps.refl _ _
  · exact Keeps.refl _ _

theorem State.admitSlot_keeps (s : State) (n : Fin 16) (beam : Fin 12) (p : Pass) (slot : ℕ) (g : ℕ) (i : ℕ) (at' : Option
    (Stamp × Stamp)) (ready : Bool) :
    Keeps [.events, .regs, .heads, .decode, .mem, .out] s (State.admitSlot s n beam p slot g i at' ready) := by
  unfold State.admitSlot
  split
  extract_lets +onlyGivenNames z1
  split
  split
  extract_lets +onlyGivenNames z2
  refine Keeps.cut (x := z2) ?_ (fun h3 => ?_)
  · unfold z2
    split
    · refine Keeps.step (State.openRunAhead_keeps ..) rfl ?_
      exact Keeps.refl _ _
    · exact Keeps.refl _ _
  clear_value z2
  extract_lets +onlyGivenNames z4
  extract_lets +onlyGivenNames z5
  refine Keeps.cut (x := z5) ?_ (fun h6 => ?_)
  · unfold z5
    refine Keeps.step (State.modDec_keeps ..) rfl ?_
    assumption
  clear_value z5
  extract_lets +onlyGivenNames z7
  refine Keeps.cut (x := z7) ?_ (fun h8 => ?_)
  · unfold z7
    refine Keeps.step (State.reopenAdmission_keeps ..) rfl ?_
    assumption
  clear_value z7
  split
  · refine Keeps.step (State.withdrawSectors_keeps ..) rfl ?_
    assumption
  · extract_lets +onlyGivenNames z9
    refine Keeps.cut (x := z9) ?_ (fun h10 => ?_)
    · unfold z9
      refine Keeps.step (State.closeSector_keeps ..) rfl ?_
      assumption
    clear_value z9
    extract_lets +onlyGivenNames z11
    refine Keeps.cut (x := z11) ?_ (fun h12 => ?_)
    · unfold z11
      refine Keeps.step (State.modBeam_keeps ..) rfl ?_
      assumption
    clear_value z11
    refine Keeps.step (State.runChannels_keeps ..) rfl ?_
    refine Keeps.step (State.ingestPeak_keeps ..) rfl ?_
    assumption

theorem execSectorAcquisitionStart_keeps (head : Fin 16) (beam : Fin 12) (slot : ℕ) (s : State) :
    KeepsR [.events, .regs, .heads, .decode, .mem, .out] s (execSectorAcquisitionStart head beam slot s) := by
  unfold execSectorAcquisitionStart
  extract_lets +onlyGivenNames z1
  split
  · refine KeepsR.next ?_
    exact Keeps.refl _ _
  · extract_lets +onlyGivenNames z2
    refine KeepsR.cut (x := z2) ?_ (fun h3 => ?_)
    · unfold z2
      refine Keeps.step (State.readVerifyBand_keeps ..) rfl ?_
      exact Keeps.refl _ _
    clear_value z2
    extract_lets +onlyGivenNames z4
    split
    extract_lets +onlyGivenNames z5
    extract_lets +onlyGivenNames z6
    extract_lets +onlyGivenNames z7
    extract_lets +onlyGivenNames z8
    extract_lets +onlyGivenNames z9
    extract_lets +onlyGivenNames z10
    extract_lets +onlyGivenNames z11
    extract_lets +onlyGivenNames z12
    extract_lets +onlyGivenNames z13
    extract_lets +onlyGivenNames z14
    refine KeepsR.when ?_ ?_
    · assumption
    · extract_lets +onlyGivenNames z15
      refine Keeps.cut (x := z15) ?_ (fun h16 => ?_)
      · unfold z15
        refine Keeps.step (State.modPass_keeps ..) rfl ?_
        assumption
      clear_value z15
      split
      · assumption
      · refine Keeps.step (State.memberOutcome_keeps ..) rfl ?_
        assumption
      · split
        · refine Keeps.step (State.admitSlot_keeps ..) rfl ?_
          assumption
        · assumption

theorem execSyncSearchComplete_keeps (sector : ℕ) (s : State) :
    KeepsR [.regs, .decode] s (execSyncSearchComplete sector s) := by
  unfold execSyncSearchComplete
  split
  · refine KeepsR.next ?_
    exact Keeps.refl _ _
  · split
    · refine KeepsR.next ?_
      exact Keeps.refl _ _
    · extract_lets +onlyGivenNames z1
      extract_lets +onlyGivenNames z2
      extract_lets +onlyGivenNames z3
      refine KeepsR.when ?_ ?_
      · exact Keeps.refl _ _
      · extract_lets +onlyGivenNames z4
        extract_lets +onlyGivenNames z5
        extract_lets +onlyGivenNames z6
        extract_lets +onlyGivenNames z7
        refine Keeps.cut (x := z7) ?_ (fun h8 => ?_)
        · unfold z7
          refine Keeps.step (State.modSector_keeps ..) rfl ?_
          exact Keeps.refl _ _
        clear_value z7
        clear_value z6
        split
        · refine Keeps.step (State.bump_keeps ..) rfl ?_
          assumption
        · refine Keeps.step (State.bump_keeps ..) rfl ?_
          assumption
        · refine Keeps.step (State.bump_keeps ..) rfl ?_
          assumption

theorem execIntervalCheckpoint_keeps (head : Fin 16) (beam : Fin 12) (s : State) :
    KeepsR [.heads, .decode] s (execIntervalCheckpoint head beam s) := by
  unfold execIntervalCheckpoint
  extract_lets +onlyGivenNames z1
  split
  · refine KeepsR.next ?_
    exact Keeps.refl _ _
  · refine KeepsR.when ?_ ?_
    · exact Keeps.refl _ _
    · extract_lets +onlyGivenNames z2
      extract_lets +onlyGivenNames z3
      extract_lets +onlyGivenNames z4
      refine Keeps.cut (x := z4) ?_ (fun h5 => ?_)
      · unfold z4
        refine Keeps.step (State.modBeam_keeps ..) rfl ?_
        exact Keeps.refl _ _
      clear_value z4
      refine Keeps.step (State.runChannels_keeps ..) rfl ?_
      assumption

theorem State.softEraseInterval_keeps (s : State) (n : Fin 16) (j : Fin 12) (first : ℕ) (sector : ℕ) (se : ℕ) (expired : Bool) :
    Keeps [.regs, .heads, .decode] s (State.softEraseInterval s n j first sector se expired) := by
  unfold State.softEraseInterval
  extract_lets +onlyGivenNames z1
  extract_lets +onlyGivenNames z2
  refine Keeps.cut (x := z2) ?_ (fun h3 => ?_)
  · unfold z2
    refine Keeps.step (State.modBeam_keeps ..) rfl ?_
    exact Keeps.refl _ _
  clear_value z2
  extract_lets +onlyGivenNames z4
  refine Keeps.cut (x := z4) ?_ (fun h5 => ?_)
  · unfold z4
    refine Keeps.step (State.modSector_keeps ..) rfl ?_
    assumption
  clear_value z4
  extract_lets +onlyGivenNames z6
  refine Keeps.cut (x := z6) ?_ (fun h7 => ?_)
  · unfold z6
    refine Keeps.step (State.bump_keeps ..) rfl ?_
    assumption
  clear_value z6
  split
  · refine Keeps.step (State.bump_keeps ..) rfl ?_
    assumption
  · assumption

theorem State.unpick_keeps (s : State) (n : Fin 16) (j : Fin 12) (p : Pass) (i : Interval) :
    Keeps [.regs, .heads, .decode] s (State.unpick s n j p i) := by
  unfold State.unpick
  extract_lets +onlyGivenNames z1
  refine Keeps.cut (x := z1) ?_ (fun h2 => ?_)
  · unfold z1
    refine Keeps.step (State.bump_keeps ..) rfl ?_
    exact Keeps.refl _ _
  clear_value z1
  extract_lets +onlyGivenNames z3
  refine Keeps.cut (x := z3) ?_ (fun h4 => ?_)
  · unfold z3
    split
    · refine Keeps.step (State.bump_keeps ..) rfl ?_
      assumption
    · assumption
  clear_value z3
  extract_lets +onlyGivenNames z5
  refine Keeps.cut (x := z5) ?_ (fun h6 => ?_)
  · unfold z5
    refine Keeps.step (State.modSector_keeps ..) rfl ?_
    assumption
  clear_value z5
  extract_lets +onlyGivenNames z7
  extract_lets +onlyGivenNames z9
  refine Keeps.cut (x := z9) ?_ (fun h10 => ?_)
  · unfold z9
    refine Keeps.step (State.modBeam_keeps ..) rfl ?_
    assumption
  clear_value z9
  extract_lets +onlyGivenNames z11
  split
  · refine Keeps.step (State.softEraseInterval_keeps ..) rfl ?_
    assumption
  · split
    extract_lets +onlyGivenNames z12
    extract_lets +onlyGivenNames z13
    extract_lets +onlyGivenNames z14
    refine Keeps.cut (x := z14) ?_ (fun h15 => ?_)
    · unfold z14
      refine Keeps.step (State.modHead_keeps ..) rfl ?_
      assumption
    clear_value z14
    refine Keeps.step (State.modBeam_keeps ..) rfl ?_
    assumption

theorem execUnpickTest_keeps (head : Fin 16) (beam : Fin 12) (s : State) :
    KeepsR [.regs, .heads, .decode] s (execUnpickTest head beam s) := by
  unfold execUnpickTest
  extract_lets +onlyGivenNames z1
  extract_lets +onlyGivenNames z2
  split
  · refine KeepsR.when ?_ ?_
    · exact Keeps.refl _ _
    · extract_lets +onlyGivenNames z3
      extract_lets +onlyGivenNames z4
      extract_lets +onlyGivenNames z5
      split
      extract_lets +onlyGivenNames z6
      refine Keeps.cut (x := z6) ?_ (fun h7 => ?_)
      · unfold z6
        split
        · exact Keeps.refl _ _
        · refine Keeps.step (State.modSector_keeps ..) rfl ?_
          exact Keeps.refl _ _
      clear_value z6
      extract_lets +onlyGivenNames z8
      refine Keeps.cut (x := z8) ?_ (fun h9 => ?_)
      · unfold z8
        refine Keeps.step (State.modBeam_keeps ..) rfl ?_
        assumption
      clear_value z8
      split
      · refine Keeps.step (State.unpick_keeps ..) rfl ?_
        assumption
      · split
        · refine Keeps.step (State.bump_keeps ..) rfl ?_
          assumption
        · assumption
  · refine KeepsR.next ?_
    exact Keeps.refl _ _

theorem execReplayStart_keeps (head : Fin 16) (s : State) :
    KeepsR [.heads] s (execReplayStart head s) := by
  unfold execReplayStart
  extract_lets +onlyGivenNames z1
  extract_lets +onlyGivenNames z2
  extract_lets +onlyGivenNames z3
  extract_lets +onlyGivenNames z4
  split
  · extract_lets +onlyGivenNames z5
    split
    · refine KeepsR.next ?_
      refine Keeps.step (State.modHead_keeps ..) rfl ?_
      exact Keeps.refl _ _
    · extract_lets +onlyGivenNames z6
      extract_lets +onlyGivenNames z7
      extract_lets +onlyGivenNames z8
      refine KeepsR.next ?_
      refine Keeps.step (State.modHead_keeps ..) rfl ?_
      exact Keeps.refl _ _
  · refine KeepsR.next ?_
    exact Keeps.refl _ _

theorem execReplayFinish_keeps (head : Fin 16) (lane : Fin 2) (s : State) :
    KeepsR [.regs, .heads, .decode] s (execReplayFinish head lane s) := by
  unfold execReplayFinish
  extract_lets +onlyGivenNames z1
  split
  · refine KeepsR.next ?_
    exact Keeps.refl _ _
  · refine KeepsR.when ?_ ?_
    · exact Keeps.refl _ _
    · extract_lets +onlyGivenNames z2
      extract_lets +onlyGivenNames z3
      refine Keeps.cut (x := z3) ?_ (fun h4 => ?_)
      · unfold z3
        refine Keeps.step (State.modHead_keeps ..) rfl ?_
        exact Keeps.refl _ _
      clear_value z3
      split
      · extract_lets +onlyGivenNames z5
        extract_lets +onlyGivenNames z6
        extract_lets +onlyGivenNames z8
        refine Keeps.cut (x := z8) ?_ (fun h9 => ?_)
        · unfold z8
          refine Keeps.step (State.modBeam_keeps ..) rfl ?_
          assumption
        clear_value z8
        extract_lets +onlyGivenNames z10
        refine Keeps.cut (x := z10) ?_ (fun h11 => ?_)
        · unfold z10
          refine Keeps.step (State.modSector_keeps ..) rfl ?_
          assumption
        clear_value z10
        extract_lets +onlyGivenNames z12
        refine Keeps.cut (x := z12) ?_ (fun h13 => ?_)
        · unfold z12
          split
          · refine Keeps.step (State.bump_keeps ..) rfl ?_
            assumption
          · assumption
        clear_value z12
        refine Keeps.step (State.bump_keeps ..) rfl ?_
        assumption
      · assumption

theorem execReplayExpiry_keeps (head : Fin 16) (s : State) :
    KeepsR [.regs, .heads, .decode] s (execReplayExpiry head s) := by
  unfold execReplayExpiry
  extract_lets +onlyGivenNames z1
  split
  · extract_lets +onlyGivenNames z2
    refine KeepsR.cut (x := z2) ?_ (fun h3 => ?_)
    · unfold z2
      refine Keeps.step (State.modHead_keeps ..) rfl ?_
      exact Keeps.refl _ _
    clear_value z2
    split
    · refine KeepsR.next ?_
      refine Keeps.step (State.softEraseInterval_keeps ..) rfl ?_
      assumption
    · refine KeepsR.next ?_
      assumption
  · refine KeepsR.next ?_
    exact Keeps.refl _ _

theorem State.writeRaw_keeps (s : State) (n : Fin 16) (d : BandDesc) (e : SlotEntry) (raw : ℕ) :
    Keeps [.events, .regs, .heads, .mem, .out] s (State.writeRaw s n d e raw) := by
  unfold State.writeRaw
  extract_lets +onlyGivenNames z1
  extract_lets +onlyGivenNames z2
  refine Keeps.cut (x := z2) ?_ (fun h3 => ?_)
  · unfold z2
    refine Keeps.step (State.memWrite_keeps ..) rfl ?_
    exact Keeps.refl _ _
  clear_value z2
  refine Keeps.step (State.modPass_keeps ..) rfl ?_
  assumption

theorem State.retainCopy_keeps (s : State) (n : Fin 16) (x : Sector) :
    Keeps [.events, .regs, .heads, .mem, .out] s (State.retainCopy s n x) := by
  unfold State.retainCopy
  extract_lets +onlyGivenNames z1
  extract_lets +onlyGivenNames z2
  extract_lets +onlyGivenNames z3
  extract_lets +onlyGivenNames z4
  extract_lets +onlyGivenNames z5
  extract_lets +onlyGivenNames z7
  refine Keeps.cut (x := z7) ?_ (fun h8 => ?_)
  · unfold z7
    refine Keeps.step (State.memWrite_keeps ..) rfl ?_
    exact Keeps.refl _ _
  clear_value z7
  extract_lets +onlyGivenNames z9
  refine Keeps.step (State.modHead_keeps ..) rfl ?_
  assumption

theorem State.completeRecord_keeps (s : State) (n : Fin 16) (x : Sector) :
    Keeps [.events, .regs, .heads, .decode, .mem, .out] s (State.completeRecord s n x) := by
  unfold State.completeRecord
  extract_lets +onlyGivenNames z1
  split
  extract_lets +onlyGivenNames z2
  extract_lets +onlyGivenNames z3
  extract_lets +onlyGivenNames z4
  extract_lets +onlyGivenNames z5
  extract_lets +onlyGivenNames z6
  extract_lets +onlyGivenNames z7
  extract_lets +onlyGivenNames z8
  extract_lets +onlyGivenNames z9
  refine Keeps.cut (x := z9) ?_ (fun h10 => ?_)
  · unfold z9
    refine Keeps.step (State.modSector_keeps ..) rfl ?_
    exact Keeps.refl _ _
  clear_value z9
  extract_lets +onlyGivenNames z11
  refine Keeps.cut (x := z11) ?_ (fun h12 => ?_)
  · unfold z11
    clear_value z2
    split
    · refine Keeps.step (State.writeRaw_keeps ..) rfl ?_
      assumption
    · assumption
  clear_value z11
  split
  · refine Keeps.step (State.retainCopy_keeps ..) rfl ?_
    assumption
  · assumption

theorem execIntervalRelease_keeps (head : Fin 16) (beam : Fin 12) (s : State) :
    KeepsR [.events, .regs, .heads, .decode, .mem, .out] s (execIntervalRelease head beam s) := by
  unfold execIntervalRelease
  extract_lets +onlyGivenNames z1
  split
  · refine KeepsR.next ?_
    exact Keeps.refl _ _
  · refine KeepsR.when ?_ ?_
    · exact Keeps.refl _ _
    · extract_lets +onlyGivenNames z2
      refine Keeps.cut (x := z2) ?_ (fun h3 => ?_)
      · unfold z2
        refine Keeps.step (State.modBeam_keeps ..) rfl ?_
        exact Keeps.refl _ _
      clear_value z2
      extract_lets +onlyGivenNames z4
      refine Keeps.cut (x := z4) ?_ (fun h5 => ?_)
      · unfold z4
        refine Keeps.step (State.modSector_keeps ..) rfl ?_
        assumption
      clear_value z4
      extract_lets +onlyGivenNames z6
      refine Keeps.cut (x := z6) ?_ (fun h7 => ?_)
      · unfold z6
        refine Keeps.step (State.ingestPeak_keeps ..) rfl ?_
        assumption
      clear_value z6
      split
      · split
        · refine Keeps.step (State.completeRecord_keeps ..) rfl ?_
          assumption
        · assumption
      · assumption

theorem execDropoutStart_keeps (head : Fin 16) (beam : Fin 12) (stamp : Stamp) (s : State) :
    KeepsR [.events, .regs, .heads, .decode, .loop, .mem, .out] s (execDropoutStart head beam stamp s) := by
  unfold execDropoutStart
  extract_lets +onlyGivenNames z1
  split
  extract_lets +onlyGivenNames z2
  extract_lets +onlyGivenNames z3
  extract_lets +onlyGivenNames z4
  refine KeepsR.when ?_ ?_
  · exact Keeps.refl _ _
  · extract_lets +onlyGivenNames z5
    refine Keeps.cut (x := z5) ?_ (fun h6 => ?_)
    · unfold z5
      refine Keeps.step (State.modBeam_keeps ..) rfl ?_
      exact Keeps.refl _ _
    clear_value z5
    extract_lets +onlyGivenNames z7
    refine Keeps.cut (x := z7) ?_ (fun h8 => ?_)
    · unfold z7
      refine Keeps.step (State.bump_keeps ..) rfl ?_
      assumption
    clear_value z7
    split
    · refine Keeps.step (State.modHead_keeps ..) rfl ?_
      assumption
    · split
      · extract_lets +onlyGivenNames z9
        extract_lets +onlyGivenNames z10
        refine Keeps.cut (x := z10) ?_ (fun h11 => ?_)
        · unfold z10
          refine Keeps.step (State.modHead_keeps ..) rfl ?_
          assumption
        clear_value z10
        extract_lets +onlyGivenNames z12
        refine Keeps.cut (x := z12) ?_ (fun h13 => ?_)
        · unfold z12
          refine Keeps.step (State.modLoopHead_keeps ..) rfl ?_
          assumption
        clear_value z12
        split
        · split
          · refine Keeps.step (State.gateFails_keeps ..) rfl ?_
            assumption
          · assumption
        · assumption
      · assumption

theorem execDropoutEnd_keeps (head : Fin 16) (beam : Fin 12) (stamp : Stamp) (s : State) :
    KeepsR [.events, .heads, .loop] s (execDropoutEnd head beam stamp s) := by
  unfold execDropoutEnd
  extract_lets +onlyGivenNames z1
  split
  extract_lets +onlyGivenNames z2
  extract_lets +onlyGivenNames z3
  extract_lets +onlyGivenNames z4
  extract_lets +onlyGivenNames z5
  extract_lets +onlyGivenNames z6
  split
  · refine KeepsR.next ?_
    exact Keeps.refl _ _
  · refine KeepsR.when ?_ ?_
    · exact Keeps.refl _ _
    · extract_lets +onlyGivenNames z7
      extract_lets +onlyGivenNames z8
      refine Keeps.cut (x := z8) ?_ (fun h9 => ?_)
      · unfold z8
        refine Keeps.step (State.modBeam_keeps ..) rfl ?_
        exact Keeps.refl _ _
      clear_value z8
      extract_lets +onlyGivenNames z10
      split
      · split
        · assumption
        · extract_lets +onlyGivenNames z11
          refine Keeps.cut (x := z11) ?_ (fun h12 => ?_)
          · unfold z11
            refine Keeps.step (State.modHead_keeps ..) rfl ?_
            assumption
          clear_value z11
          extract_lets +onlyGivenNames z13
          refine Keeps.cut (x := z13) ?_ (fun h14 => ?_)
          · unfold z13
            refine Keeps.step (State.modLoopHead_keeps ..) rfl ?_
            assumption
          clear_value z13
          refine Keeps.step (State.logHead_keeps ..) rfl ?_
          assumption
      · assumption

theorem execDropoutGuardEnd_keeps (head : Fin 16) (beam : Fin 12) (s : State) :
    KeepsR [.heads] s (execDropoutGuardEnd head beam s) := by
  unfold execDropoutGuardEnd
  extract_lets +onlyGivenNames z1
  extract_lets +onlyGivenNames z2
  split
  split
  · refine KeepsR.next ?_
    exact Keeps.refl _ _
  · refine KeepsR.when ?_ ?_
    · exact Keeps.refl _ _
    · refine Keeps.step (State.modBeam_keeps ..) rfl ?_
      exact Keeps.refl _ _

end Sys2Proof.Machine
end

