-- ==== Sys2Proof/Laws/KeepsRegWrite.lean ====
section
/-!
SUPPORT. Laws/KeepsRegWrite.lean: which parts of a state each operation of Machine/RegWrite.lean may change, and that it keeps a sound
state sound.
-/

namespace Sys2Proof.Machine

theorem State.writePlain_keeps (s : State) (key : ℕ) (w : Word) :
    Keeps [.regs] s (State.writePlain s key w) := by
  unfold State.writePlain
  refine Keeps.step (State.setReg_keeps ..) rfl ?_
  exact Keeps.refl _ _

end Sys2Proof.Machine
end

