-- ==== Sys2Proof/Laws/KeepsLoopExec.lean ====
section
/-!
SUPPORT. Laws/KeepsLoopExec.lean: which parts of a state each operation of Machine/LoopExec.lean may change, and that it keeps a sound
state sound.
-/

namespace Sys2Proof.Machine

theorem State.logLoop_keeps (s : State) (code : ℕ) (a0 : ℕ) (a1 : ℕ) (a2 : ℕ) (a3 : ℕ) :
    Keeps [.events] s (State.logLoop s code a0 a1 a2 a3) := by
  unfold State.logLoop
  refine Keeps.step (State.log_keeps ..) rfl ?_
  exact Keeps.refl _ _

theorem State.slotRequest_keeps (s : State) (k : Fin 96) (req : ℕ) (clear : Bool) :
    Keeps [.events, .regs, .heads, .loop, .seq] s (State.slotRequest s k req clear) := by
  unfold State.slotRequest
  extract_lets +onlyGivenNames z1
  extract_lets +onlyGivenNames z2
  refine Keeps.cut (x := z2) ?_ (fun h3 => ?_)
  · unfold z2
    refine Keeps.step (State.setFld_keeps ..) rfl ?_
    exact Keeps.refl _ _
  clear_value z2
  extract_lets +onlyGivenNames z4
  refine Keeps.cut (x := z4) ?_ (fun h5 => ?_)
  · unfold z4
    split
    · split
      · refine Keeps.step (State.endSequence_keeps ..) rfl ?_
        assumption
      · assumption
    · assumption
  clear_value z4
  extract_lets +onlyGivenNames z6
  refine Keeps.cut (x := z6) ?_ (fun h7 => ?_)
  · unfold z6
    split
    · refine Keeps.step (State.modSlot_keeps ..) rfl ?_
      assumption
    · assumption
  clear_value z6
  extract_lets +onlyGivenNames z8
  split
  · refine Keeps.step (State.logLoop_keeps ..) rfl ?_
    assumption
  · split
    · refine Keeps.step (State.modSlot_keeps ..) rfl ?_
      assumption
    · split
      · split
        · refine Keeps.step (State.logLoop_keeps ..) rfl ?_
          assumption
        · split
          · refine Keeps.step (State.logLoop_keeps ..) rfl ?_
            assumption
          · refine Keeps.step (State.modSlot_keeps ..) rfl ?_
            assumption
      · split
        · refine Keeps.step (State.logLoop_keeps ..) rfl ?_
          assumption
        · refine Keeps.step (State.modSlot_keeps ..) rfl ?_
          assumption

theorem State.coefWrite_keeps (s : State) (k : Fin 96) (i : ℕ) (v : ℕ) :
    Keeps [.regs, .loop] s (State.coefWrite s k i v) := by
  unfold State.coefWrite
  split
  · refine Keeps.step (State.setReg_keeps ..) rfl ?_
    exact Keeps.refl _ _
  · refine Keeps.step (State.modSlot_keeps ..) rfl ?_
    exact Keeps.refl _ _

theorem State.showCost_keeps (s : State) (k : Fin 96) :
    Keeps [.regs] s (State.showCost s k) := by
  unfold State.showCost
  refine Keeps.step (State.setFld_keeps ..) rfl ?_
  exact Keeps.refl _ _

theorem State.slotConfig_keeps (s : State) (k : Fin 96) (off : ℕ) (w : Word) :
    Keeps [.events, .regs] s (State.slotConfig s k off w) := by
  unfold State.slotConfig
  split
  · refine Keeps.step (State.showCost_keeps ..) rfl ?_
    refine Keeps.step (State.writePlain_keeps ..) rfl ?_
    exact Keeps.refl _ _
  · refine Keeps.step (State.logLoop_keeps ..) rfl ?_
    exact Keeps.refl _ _

theorem State.clearNodes_keeps (s : State) (k : Fin 96) :
    Keeps [.loop] s (State.clearNodes s k) := by
  unfold State.clearNodes
  extract_lets +onlyGivenNames z1
  extract_lets +onlyGivenNames z2
  refine Keeps.step (State.modSlot_keeps ..) rfl ?_
  exact Keeps.refl _ _

theorem State.clearFilters_keeps (s : State) (k : Fin 96) :
    Keeps [.loop] s (State.clearFilters s k) := by
  unfold State.clearFilters
  extract_lets +onlyGivenNames z1
  refine Keeps.step (State.modSlot_keeps ..) rfl ?_
  exact Keeps.refl _ _

theorem State.slotTo_keeps (s : State) (k : Fin 96) (st : SlotSt) :
    Keeps [.loop] s (State.slotTo s k st) := by
  unfold State.slotTo
  extract_lets +onlyGivenNames z1
  split
  · exact Keeps.refl _ _
  · refine Keeps.step (State.modSlot_keeps ..) rfl ?_
    refine Keeps.step (State.restartLost_keeps ..) rfl ?_
    exact Keeps.refl _ _

theorem State.startExec_keeps (s : State) (k : Fin 96) :
    Keeps [.regs, .heads, .loop] s (State.startExec s k) := by
  unfold State.startExec
  extract_lets +onlyGivenNames z1
  refine Keeps.cut (x := z1) ?_ (fun h2 => ?_)
  · unfold z1
    refine Keeps.step (State.applyCoefs_keeps ..) rfl ?_
    exact Keeps.refl _ _
  clear_value z1
  extract_lets +onlyGivenNames z3
  extract_lets +onlyGivenNames z4
  refine Keeps.cut (x := z4) ?_ (fun h5 => ?_)
  · unfold z4
    refine Keeps.step (State.modSlot_keeps ..) rfl ?_
    assumption
  clear_value z4
  split
  · refine Keeps.step (State.disableSlot_keeps ..) rfl ?_
    assumption
  · extract_lets +onlyGivenNames z6
    extract_lets +onlyGivenNames z7
    refine Keeps.cut (x := z7) ?_ (fun h8 => ?_)
    · unfold z7
      split
      · refine Keeps.step (State.clearNodes_keeps ..) rfl ?_
        assumption
      · assumption
    clear_value z7
    extract_lets +onlyGivenNames z9
    refine Keeps.cut (x := z9) ?_ (fun h10 => ?_)
    · unfold z9
      split
      · refine Keeps.step (State.clearFilters_keeps ..) rfl ?_
        assumption
      · assumption
    clear_value z9
    split
    · refine Keeps.step (State.slotTo_keeps ..) rfl ?_
      assumption
    · split
      · refine Keeps.step (State.slotTo_keeps ..) rfl ?_
        assumption
      · split
        · refine Keeps.step (State.slotTo_keeps ..) rfl ?_
          assumption
        · split
          · refine Keeps.step (State.slotTo_keeps ..) rfl ?_
            assumption
          · assumption

theorem State.runApc_keeps (s : State) (k : Fin 96) (hold : Bool) (t : Stamp) :
    Keeps [.heads, .loop] s (State.runApc s k hold t) := by
  unfold State.runApc
  split
  · extract_lets +onlyGivenNames z1
    extract_lets +onlyGivenNames z2
    refine Keeps.foldl ?_ (fun _ _ _ => ?_)
    · exact Keeps.refl _ _
    · split
      rename_i a3 a4 a5 a6 a7 a8 a9 a10
      extract_lets +onlyGivenNames z11
      split
      extract_lets +onlyGivenNames z12
      refine Keeps.cut (x := z12) ?_ (fun h13 => ?_)
      · unfold z12
        refine Keeps.step (State.modSlot_keeps ..) rfl ?_
        assumption
      clear_value z12
      extract_lets +onlyGivenNames z14
      split
      · refine Keeps.step (State.sendSetpt_keeps ..) rfl ?_
        assumption
      · assumption
  · exact Keeps.refl _ _

theorem State.freezeTrace_keeps (s : State) :
    Keeps [.regs, .loop] s (State.freezeTrace s) := by
  unfold State.freezeTrace
  extract_lets +onlyGivenNames z1
  split
  · exact Keeps.refl _ _
  · split
    · refine Keeps.step (State.setFld_keeps ..) rfl ?_
      exact Keeps.refl _ _
    · refine Keeps.loopTo rfl ?_
      exact Keeps.refl _ _

theorem State.faultTrace_keeps (s : State) :
    Keeps [.regs, .loop] s (State.faultTrace s) := by
  unfold State.faultTrace
  split
  · refine Keeps.step (State.freezeTrace_keeps ..) rfl ?_
    exact Keeps.refl _ _
  · exact Keeps.refl _ _

theorem State.sendTrace_keeps (s : State) (r : TraceRec) :
    Keeps [.regs, .loop] s (State.sendTrace s r) := by
  unfold State.sendTrace
  extract_lets +onlyGivenNames z1
  extract_lets +onlyGivenNames z2
  split
  · exact Keeps.refl _ _
  · split
    · refine Keeps.loopTo rfl ?_
      exact Keeps.refl _ _
    · refine Keeps.step (State.bump_keeps ..) rfl ?_
      exact Keeps.refl _ _

theorem State.putTrace_keeps (s : State) (r : TraceRec) :
    Keeps [.regs, .loop] s (State.putTrace s r) := by
  unfold State.putTrace
  split
  · exact Keeps.refl _ _
  · extract_lets +onlyGivenNames z1
    extract_lets +onlyGivenNames z2
    extract_lets +onlyGivenNames z3
    extract_lets +onlyGivenNames z5
    refine Keeps.cut (x := z5) ?_ (fun h6 => ?_)
    · unfold z5
      refine Keeps.loopTo rfl ?_
      exact Keeps.refl _ _
    clear_value z5
    extract_lets +onlyGivenNames z7
    refine Keeps.cut (x := z7) ?_ (fun h8 => ?_)
    · unfold z7
      refine Keeps.step (State.setFld_keeps ..) rfl ?_
      assumption
    clear_value z7
    extract_lets +onlyGivenNames z9
    refine Keeps.cut (x := z9) ?_ (fun h10 => ?_)
    · unfold z9
      split
      · refine Keeps.step (State.setFld_keeps ..) rfl ?_
        assumption
      · assumption
    clear_value z9
    split
    · assumption
    · extract_lets +onlyGivenNames z11
      extract_lets +onlyGivenNames z13
      refine Keeps.cut (x := z13) ?_ (fun h14 => ?_)
      · unfold z13
        refine Keeps.loopTo rfl ?_
        assumption
      clear_value z13
      split
      · refine Keeps.step (State.setFld_keeps ..) rfl ?_
        assumption
      · assumption

theorem State.faultHead_keeps (s : State) (n : Fin 16) (t : Stamp) :
    Keeps [.events, .regs, .heads, .decode, .loop, .mem, .out] s (State.faultHead s n t) := by
  unfold State.faultHead
  extract_lets +onlyGivenNames z1
  refine Keeps.cut (x := z1) ?_ (fun h2 => ?_)
  · unfold z1
    refine Keeps.foldl ?_ (fun _ _ _ => ?_)
    · exact Keeps.refl _ _
    · split
      · rename_i a3 a4 a5 a6
        refine Keeps.step (State.hwHoldSlot_keeps ..) rfl ?_
        assumption
      · rename_i a7 a8 a9 a10
        assumption
  clear_value z1
  refine Keeps.step (State.hemRequest_keeps ..) rfl ?_
  refine Keeps.step (State.sendSafe_keeps ..) rfl ?_
  assumption

theorem State.supervisionFault_keeps (s : State) (k : Fin 96) (t : Stamp) (kind : ℕ) (val : ℕ) :
    Keeps [.events, .regs, .heads, .decode, .loop, .mem, .out] s (State.supervisionFault s k t kind val) := by
  unfold State.supervisionFault
  extract_lets +onlyGivenNames z1
  extract_lets +onlyGivenNames z2
  refine Keeps.cut (x := z2) ?_ (fun h3 => ?_)
  · unfold z2
    refine Keeps.step (State.modSlot_keeps ..) rfl ?_
    exact Keeps.refl _ _
  clear_value z2
  extract_lets +onlyGivenNames z4
  refine Keeps.cut (x := z4) ?_ (fun h5 => ?_)
  · unfold z4
    refine Keeps.step (State.faultTrace_keeps ..) rfl ?_
    refine Keeps.step (State.logLoop_keeps ..) rfl ?_
    assumption
  clear_value z4
  split
  · assumption
  · split
    · split
      · refine Keeps.step (State.hwHoldSlot_keeps ..) rfl ?_
        assumption
      · refine Keeps.step (State.faultHead_keeps ..) rfl ?_
        assumption
    · refine Keeps.step (State.hwHoldSlot_keeps ..) rfl ?_
      assumption

theorem State.supervise_keeps (s : State) (k : Fin 96) (t : Stamp) (prev : List NodeState) (cur : List NodeState) :
    Keeps [.events, .regs, .heads, .decode, .loop, .mem, .out] s (State.supervise s k t prev cur) := by
  unfold State.supervise
  extract_lets +onlyGivenNames z1
  extract_lets +onlyGivenNames z2
  extract_lets +onlyGivenNames z3
  extract_lets +onlyGivenNames z4
  extract_lets +onlyGivenNames z5
  extract_lets +onlyGivenNames z6
  extract_lets +onlyGivenNames z7
  extract_lets +onlyGivenNames z8
  extract_lets +onlyGivenNames z9
  refine Keeps.cut (x := z9) ?_ (fun h10 => ?_)
  · unfold z9
    refine Keeps.step (State.modSlot_keeps ..) rfl ?_
    exact Keeps.refl _ _
  clear_value z9
  extract_lets +onlyGivenNames z11
  extract_lets +onlyGivenNames z12
  extract_lets +onlyGivenNames z13
  refine Keeps.cut (x := z13) ?_ (fun h14 => ?_)
  · unfold z13
    split
    · refine Keeps.step (State.supervisionFault_keeps ..) rfl ?_
      assumption
    · assumption
  clear_value z13
  split
  · refine Keeps.step (State.supervisionFault_keeps ..) rfl ?_
    assumption
  · assumption

theorem State.focusLost_keeps (s : State) (n : Fin 16) (k : Fin 96) (q : QuadSum) (t : Stamp) :
    Keeps [.events, .regs, .heads, .loop, .seq] s (State.focusLost s n k q t) := by
  unfold State.focusLost
  extract_lets +onlyGivenNames z1
  refine Keeps.cut (x := z1) ?_ (fun h2 => ?_)
  · unfold z1
    refine Keeps.step (State.hwHoldSlot_keeps ..) rfl ?_
    exact Keeps.refl _ _
  clear_value z1
  extract_lets +onlyGivenNames z3
  refine Keeps.cut (x := z3) ?_ (fun h4 => ?_)
  · unfold z3
    split
    · refine Keeps.step (State.hwHoldSlot_keeps ..) rfl ?_
      assumption
    · assumption
  clear_value z3
  extract_lets +onlyGivenNames z5
  refine Keeps.cut (x := z5) ?_ (fun h6 => ?_)
  · unfold z5
    refine Keeps.step (State.modLoopHead_keeps ..) rfl ?_
    assumption
  clear_value z5
  extract_lets +onlyGivenNames z7
  refine Keeps.cut (x := z7) ?_ (fun h8 => ?_)
  · unfold z7
    refine Keeps.step (State.faultTrace_keeps ..) rfl ?_
    refine Keeps.step (State.logLoop_keeps ..) rfl ?_
    assumption
  clear_value z7
  refine Keeps.step (State.endSequence_keeps ..) rfl ?_
  assumption

theorem State.checkFocus_keeps (s : State) (n : Fin 16) (k : Fin 96) (t : Stamp) :
    Keeps [.events, .regs, .heads, .loop, .seq] s (State.checkFocus s n k t) := by
  unfold State.checkFocus
  split
  · exact Keeps.refl _ _
  · extract_lets +onlyGivenNames z1
    extract_lets +onlyGivenNames z2
    extract_lets +onlyGivenNames z3
    refine Keeps.cut (x := z3) ?_ (fun h4 => ?_)
    · unfold z3
      refine Keeps.step (State.modLoopHead_keeps ..) rfl ?_
      exact Keeps.refl _ _
    clear_value z3
    split
    · refine Keeps.step (State.focusLost_keeps ..) rfl ?_
      assumption
    · assumption

theorem State.modSeq_keeps (s : State) (n : Fin 16) (f : Sequence → Sequence) :
    Keeps [.loop] s (State.modSeq s n f) := by
  unfold State.modSeq
  refine Keeps.step (State.modLoopHead_keeps ..) rfl ?_
  exact Keeps.refl _ _

theorem State.overrideSlot_keeps (s : State) (k : Fin 96) :
    Keeps [.loop] s (State.overrideSlot s k) := by
  unfold State.overrideSlot
  refine Keeps.step (State.modSlot_keeps ..) rfl ?_
  exact Keeps.refl _ _

theorem State.releaseToRun_keeps (s : State) (k : Fin 96) :
    Keeps [.loop] s (State.releaseToRun s k) := by
  unfold State.releaseToRun
  refine Keeps.step (State.modSlot_keeps ..) rfl ?_
  exact Keeps.refl _ _

theorem State.jumpFails_keeps (s : State) (n : Fin 16) (k : Fin 96) (result : ℕ) :
    Keeps [.events, .regs, .heads, .decode, .loop, .seq, .mem, .motion, .out, .free] s (State.jumpFails s n k result) := by
  unfold State.jumpFails
  extract_lets +onlyGivenNames z1
  refine Keeps.cut (x := z1) ?_ (fun h2 => ?_)
  · unfold z1
    split
    · refine Keeps.step (State.releaseToRun_keeps ..) rfl ?_
      exact Keeps.refl _ _
    · exact Keeps.refl _ _
  clear_value z1
  split
  rename_i a3 a4 a5 a6
  split
  rename_i a7 a8 a9 a10
  refine Keeps.step (State.disagree_keeps ..) rfl ?_
  refine Keeps.ofSnd a10 ?_
  refine Keeps.step (State.draw_keeps ..) rfl ?_
  refine Keeps.ofSnd a6 ?_
  refine Keeps.step (State.draw_keeps ..) rfl ?_
  refine Keeps.step (State.endSequence_keeps ..) rfl ?_
  assumption

theorem State.seqDone_keeps (s : State) (n : Fin 16) (q : Sequence) :
    Keeps [.events, .regs, .heads, .loop, .seq] s (State.seqDone s n q) := by
  unfold State.seqDone
  extract_lets +onlyGivenNames z1
  refine Keeps.cut (x := z1) ?_ (fun h2 => ?_)
  · unfold z1
    split
    · refine Keeps.step (State.forgetFrames_keeps ..) rfl ?_
      refine Keeps.step (State.modLoopHead_keeps ..) rfl ?_
      exact Keeps.refl _ _
    · refine Keeps.step (State.forgetFrames_keeps ..) rfl ?_
      refine Keeps.step (State.modLoopHead_keeps ..) rfl ?_
      exact Keeps.refl _ _
    · exact Keeps.refl _ _
    · refine Keeps.step (State.modHead_keeps ..) rfl ?_
      exact Keeps.refl _ _
  clear_value z1
  refine Keeps.step (State.endSequence_keeps ..) rfl ?_
  assumption

theorem State.showCount_keeps (s : State) (n : Fin 16) (p : FieldPos) (v : ℕ) :
    Keeps [.regs] s (State.showCount s n p v) := by
  unfold State.showCount
  refine Keeps.step (State.setFld_keeps ..) rfl ?_
  exact Keeps.refl _ _

theorem State.focusStep_keeps (s : State) (n : Fin 16) (k : Fin 96) (q : Sequence) (layer : ℕ) (view : Option QuadSum) :
    Keeps [.events, .regs, .heads, .loop, .seq] s (State.focusStep s n k q layer view) := by
  unfold State.focusStep
  split
  · extract_lets +onlyGivenNames z1
    refine Keeps.step (State.modSeq_keeps ..) rfl ?_
    exact Keeps.refl _ _
  · extract_lets +onlyGivenNames z2
    extract_lets +onlyGivenNames z3
    extract_lets +onlyGivenNames z4
    extract_lets +onlyGivenNames z5
    refine Keeps.cut (x := z5) ?_ (fun h6 => ?_)
    · unfold z5
      refine Keeps.step (State.showCount_keeps ..) rfl ?_
      exact Keeps.refl _ _
    clear_value z5
    extract_lets +onlyGivenNames z7
    split
    · refine Keeps.step (State.modSeq_keeps ..) rfl ?_
      refine Keeps.step (State.releaseToRun_keeps ..) rfl ?_
      assumption
    · split
      · refine Keeps.step (State.endSequence_keeps ..) rfl ?_
        refine Keeps.step (State.hwHoldSlot_keeps ..) rfl ?_
        assumption
      · refine Keeps.step (State.modSeq_keeps ..) rfl ?_
        assumption
  · exact Keeps.refl _ _

theorem State.layerStep_keeps (s : State) (n : Fin 16) (k : Fin 96) (q : Sequence) (d : ℤ) (view : Option QuadSum) :
    Keeps [.regs, .loop] s (State.layerStep s n k q d view) := by
  unfold State.layerStep
  extract_lets +onlyGivenNames z1
  extract_lets +onlyGivenNames z2
  extract_lets +onlyGivenNames z3
  extract_lets +onlyGivenNames z4
  extract_lets +onlyGivenNames z5
  refine Keeps.cut (x := z5) ?_ (fun h6 => ?_)
  · unfold z5
    refine Keeps.step (State.showCount_keeps ..) rfl ?_
    exact Keeps.refl _ _
  clear_value z5
  extract_lets +onlyGivenNames z7
  refine Keeps.cut (x := z7) ?_ (fun h8 => ?_)
  · unfold z7
    refine Keeps.step (State.modSeq_keeps ..) rfl ?_
    assumption
  clear_value z7
  extract_lets +onlyGivenNames z9
  extract_lets +onlyGivenNames z10
  split
  · refine Keeps.step (State.modSeq_keeps ..) rfl ?_
    refine Keeps.step (State.releaseToRun_keeps ..) rfl ?_
    assumption
  · split
    · refine Keeps.step (State.modSeq_keeps ..) rfl ?_
      assumption
    · split
      · refine Keeps.step (State.modSeq_keeps ..) rfl ?_
        assumption
      · refine Keeps.step (State.modSeq_keeps ..) rfl ?_
        assumption
    · split
      · refine Keeps.step (State.modSeq_keeps ..) rfl ?_
        assumption
      · refine Keeps.step (State.modSeq_keeps ..) rfl ?_
        assumption
    · refine Keeps.step (State.modSeq_keeps ..) rfl ?_
      assumption
    · refine Keeps.step (State.modSeq_keeps ..) rfl ?_
      assumption
    · assumption

theorem State.trackStep_keeps (s : State) (n : Fin 16) (k : Fin 96) (q : Sequence) (view : Option QuadSum) :
    Keeps [.loop] s (State.trackStep s n k q view) := by
  unfold State.trackStep
  split
  · extract_lets +onlyGivenNames z1
    extract_lets +onlyGivenNames z2
    extract_lets +onlyGivenNames z3
    extract_lets +onlyGivenNames z4
    refine Keeps.cut (x := z4) ?_ (fun h5 => ?_)
    · unfold z4
      refine Keeps.step (State.modSeq_keeps ..) rfl ?_
      exact Keeps.refl _ _
    clear_value z4
    split
    · refine Keeps.step (State.modSeq_keeps ..) rfl ?_
      refine Keeps.step (State.releaseToRun_keeps ..) rfl ?_
      assumption
    · assumption
  · exact Keeps.refl _ _

theorem State.jumpStep_keeps (s : State) (n : Fin 16) (k : Fin 96) (q : Sequence) (d : ℤ) (view : Option QuadSum) (t : Stamp) :
    Keeps [.events, .regs, .heads, .decode, .loop, .seq, .mem, .motion, .out, .free] s (State.jumpStep s n k q d view t) := by
  unfold State.jumpStep
  extract_lets +onlyGivenNames z1
  split
  · split
    · exact Keeps.refl _ _
    · extract_lets +onlyGivenNames z2
      refine Keeps.cut (x := z2) ?_ (fun h3 => ?_)
      · unfold z2
        refine Keeps.step (State.slotTo_keeps ..) rfl ?_
        refine Keeps.step (State.modSlot_keeps ..) rfl ?_
        exact Keeps.refl _ _
      clear_value z2
      split
      · refine Keeps.step (State.jumpFails_keeps ..) rfl ?_
        assumption
      · refine Keeps.step (State.modSeq_keeps ..) rfl ?_
        assumption
  · split
    · refine Keeps.step (State.jumpFails_keeps ..) rfl ?_
      exact Keeps.refl _ _
    · extract_lets +onlyGivenNames z4
      extract_lets +onlyGivenNames z5
      extract_lets +onlyGivenNames z6
      refine Keeps.cut (x := z6) ?_ (fun h7 => ?_)
      · unfold z6
        refine Keeps.step (State.showCount_keeps ..) rfl ?_
        exact Keeps.refl _ _
      clear_value z6
      extract_lets +onlyGivenNames z8
      refine Keeps.cut (x := z8) ?_ (fun h9 => ?_)
      · unfold z8
        refine Keeps.step (State.modSeq_keeps ..) rfl ?_
        assumption
      clear_value z8
      split
      · refine Keeps.step (State.modSeq_keeps ..) rfl ?_
        refine Keeps.step (State.releaseToRun_keeps ..) rfl ?_
        assumption
      · refine Keeps.step (State.modSeq_keeps ..) rfl ?_
        assumption
  · exact Keeps.refl _ _

theorem State.seqStep_keeps (s : State) (n : Fin 16) (k : Fin 96) (t : Stamp) :
    Keeps [.events, .regs, .heads, .decode, .loop, .seq, .mem, .motion, .out, .free] s (State.seqStep s n k t) := by
  unfold State.seqStep
  split
  · exact Keeps.refl _ _
  · split
    · exact Keeps.refl _ _
    · extract_lets +onlyGivenNames z1
      split
      · refine Keeps.step (State.focusStep_keeps ..) rfl ?_
        exact Keeps.refl _ _
      · refine Keeps.step (State.layerStep_keeps ..) rfl ?_
        exact Keeps.refl _ _
      · refine Keeps.step (State.trackStep_keeps ..) rfl ?_
        exact Keeps.refl _ _
      · refine Keeps.step (State.jumpStep_keeps ..) rfl ?_
        exact Keeps.refl _ _

theorem State.seqSettle_keeps (s : State) (n : Fin 16) (k : Fin 96) (t : Stamp) :
    Keeps [.events, .regs, .heads, .loop, .seq] s (State.seqSettle s n k t) := by
  unfold State.seqSettle
  split
  · exact Keeps.refl _ _
  · split
    · split
      · exact Keeps.refl _ _
      · extract_lets +onlyGivenNames z1
        split
        · exact Keeps.refl _ _
        · split
          · exact Keeps.refl _ _
          · extract_lets +onlyGivenNames z2
            extract_lets +onlyGivenNames z3
            extract_lets +onlyGivenNames z4
            split
            · refine Keeps.step (State.seqDone_keeps ..) rfl ?_
              exact Keeps.refl _ _
            · refine Keeps.step (State.modSeq_keeps ..) rfl ?_
              exact Keeps.refl _ _
    · exact Keeps.refl _ _

theorem State.seqBegin_keeps (s : State) (n : Fin 16) (kind : SeqKind) (who : Option Waiter) :
    Keeps [.regs, .loop] s (State.seqBegin s n kind who) := by
  unfold State.seqBegin
  extract_lets +onlyGivenNames z1
  extract_lets +onlyGivenNames z2
  extract_lets +onlyGivenNames z3
  split
  · split
    · unfold z2
      extract_lets +onlyGivenNames z4
      refine Keeps.cut (x := z4) ?_ (fun h5 => ?_)
      · unfold z4
        refine Keeps.step (State.modLoopHead_keeps ..) rfl ?_
        refine Keeps.step (State.overrideSlot_keeps ..) rfl ?_
        unfold z3
        split
        · refine Keeps.step (State.hwHoldSlot_keeps ..) rfl ?_
          exact Keeps.refl _ _
        · exact Keeps.refl _ _
      clear_value z4
      extract_lets +onlyGivenNames z6
      refine Keeps.cut (x := z6) ?_ (fun h7 => ?_)
      · unfold z6
        refine Keeps.step (State.setFld_keeps ..) rfl ?_
        assumption
      clear_value z6
      refine Keeps.step (State.showCount_keeps ..) rfl ?_
      refine Keeps.step (State.showCount_keeps ..) rfl ?_
      assumption
    · exact Keeps.refl _ _
  · split
    · extract_lets +onlyGivenNames z8
      extract_lets +onlyGivenNames z9
      unfold z2
      extract_lets +onlyGivenNames z10
      refine Keeps.cut (x := z10) ?_ (fun h11 => ?_)
      · unfold z10
        refine Keeps.step (State.modLoopHead_keeps ..) rfl ?_
        refine Keeps.step (State.overrideSlot_keeps ..) rfl ?_
        unfold z3
        split
        · refine Keeps.step (State.hwHoldSlot_keeps ..) rfl ?_
          exact Keeps.refl _ _
        · exact Keeps.refl _ _
      clear_value z10
      extract_lets +onlyGivenNames z12
      refine Keeps.cut (x := z12) ?_ (fun h13 => ?_)
      · unfold z12
        refine Keeps.step (State.setFld_keeps ..) rfl ?_
        assumption
      clear_value z12
      refine Keeps.step (State.showCount_keeps ..) rfl ?_
      refine Keeps.step (State.showCount_keeps ..) rfl ?_
      assumption
    · exact Keeps.refl _ _
  · unfold z2
    extract_lets +onlyGivenNames z14
    refine Keeps.cut (x := z14) ?_ (fun h15 => ?_)
    · unfold z14
      refine Keeps.step (State.modLoopHead_keeps ..) rfl ?_
      unfold z3
      split
      · refine Keeps.step (State.hwHoldSlot_keeps ..) rfl ?_
        exact Keeps.refl _ _
      · exact Keeps.refl _ _
    clear_value z14
    extract_lets +onlyGivenNames z16
    refine Keeps.cut (x := z16) ?_ (fun h17 => ?_)
    · unfold z16
      refine Keeps.step (State.setFld_keeps ..) rfl ?_
      assumption
    clear_value z16
    refine Keeps.step (State.showCount_keeps ..) rfl ?_
    refine Keeps.step (State.showCount_keeps ..) rfl ?_
    assumption
  · split
    · extract_lets +onlyGivenNames z18
      unfold z2
      extract_lets +onlyGivenNames z19
      refine Keeps.cut (x := z19) ?_ (fun h20 => ?_)
      · unfold z19
        refine Keeps.step (State.modLoopHead_keeps ..) rfl ?_
        exact Keeps.refl _ _
      clear_value z19
      extract_lets +onlyGivenNames z21
      refine Keeps.cut (x := z21) ?_ (fun h22 => ?_)
      · unfold z21
        refine Keeps.step (State.setFld_keeps ..) rfl ?_
        assumption
      clear_value z21
      refine Keeps.step (State.showCount_keeps ..) rfl ?_
      refine Keeps.step (State.showCount_keeps ..) rfl ?_
      assumption
    · exact Keeps.refl _ _

theorem State.sendOutputs_keeps (s : State) (k : Fin 96) (prev : List NodeState) (cur : List NodeState) :
    Keeps [.heads, .loop, .motion] s (State.sendOutputs s k prev cur) := by
  unfold State.sendOutputs
  extract_lets +onlyGivenNames z1
  refine Keeps.foldl ?_ (fun _ _ _ => ?_)
  · exact Keeps.refl _ _
  · extract_lets +onlyGivenNames z2
    extract_lets +onlyGivenNames z3
    split
    · rename_i a4 a5 a6 a7
      assumption
    · rename_i a8 a9 a10 a11
      extract_lets +onlyGivenNames z12
      refine Keeps.cut (x := z12) ?_ (fun h13 => ?_)
      · unfold z12
        split
        · refine Keeps.step (State.modSlot_keeps ..) rfl ?_
          assumption
        · assumption
      clear_value z12
      split
      · refine Keeps.step (State.spinDemand_keeps ..) rfl ?_
        assumption
      · refine Keeps.step (State.modSled_keeps ..) rfl ?_
        assumption
      · refine Keeps.step (State.sendSetpt_keeps ..) rfl ?_
        assumption
      · assumption

theorem State.reportMin_keeps (s : State) (k : Fin 96) (cur : List NodeState) (t : Stamp) :
    Keeps [.events, .loop] s (State.reportMin s k cur t) := by
  unfold State.reportMin
  split
  · exact Keeps.refl _ _
  · extract_lets +onlyGivenNames z1
    extract_lets +onlyGivenNames z2
    extract_lets +onlyGivenNames z3
    refine Keeps.cut (x := z3) ?_ (fun h4 => ?_)
    · unfold z3
      refine Keeps.step (State.modSlot_keeps ..) rfl ?_
      exact Keeps.refl _ _
    clear_value z3
    extract_lets +onlyGivenNames z5
    split
    · refine Keeps.step (State.logLoop_keeps ..) rfl ?_
      refine Keeps.step (State.modSlot_keeps ..) rfl ?_
      assumption
    · assumption

theorem State.traceExec_keeps (s : State) (k : Fin 96) (newest : Option Stamp) (t : Stamp) (cur : List NodeState) :
    Keeps [.regs, .loop] s (State.traceExec s k newest t cur) := by
  unfold State.traceExec
  extract_lets +onlyGivenNames z1
  split
  · exact Keeps.refl _ _
  · extract_lets +onlyGivenNames z2
    extract_lets +onlyGivenNames z3
    extract_lets +onlyGivenNames z4
    refine Keeps.step (State.sendTrace_keeps ..) rfl ?_
    exact Keeps.refl _ _

theorem State.execSlot_keeps (s : State) (k : Fin 96) (t : Stamp) :
    Keeps [.events, .regs, .heads, .decode, .loop, .seq, .mem, .motion, .out, .free] s (State.execSlot s k t) := by
  unfold State.execSlot
  extract_lets +onlyGivenNames z1
  extract_lets +onlyGivenNames z2
  refine Keeps.cut (x := z2) ?_ (fun h3 => ?_)
  · unfold z2
    clear_value z1
    split
    · refine Keeps.step (State.seqStep_keeps ..) rfl ?_
      exact Keeps.refl _ _
    · exact Keeps.refl _ _
  clear_value z2
  extract_lets +onlyGivenNames z4
  split
  extract_lets +onlyGivenNames z5
  extract_lets +onlyGivenNames z6
  extract_lets +onlyGivenNames z7
  extract_lets +onlyGivenNames z8
  extract_lets +onlyGivenNames z9
  extract_lets +onlyGivenNames z10
  refine Keeps.cut (x := z10) ?_ (fun h11 => ?_)
  · unfold z10
    refine Keeps.step (State.runApc_keeps ..) rfl ?_
    assumption
  clear_value z10
  extract_lets +onlyGivenNames z12
  extract_lets +onlyGivenNames z13
  refine Keeps.cut (x := z13) ?_ (fun h14 => ?_)
  · unfold z13
    refine Keeps.step (State.modSlot_keeps ..) rfl ?_
    assumption
  clear_value z13
  extract_lets +onlyGivenNames z15
  refine Keeps.cut (x := z15) ?_ (fun h16 => ?_)
  · unfold z15
    refine Keeps.step (State.sendOutputs_keeps ..) rfl ?_
    assumption
  clear_value z15
  extract_lets +onlyGivenNames z17
  refine Keeps.cut (x := z17) ?_ (fun h18 => ?_)
  · unfold z17
    refine Keeps.step (State.reportMin_keeps ..) rfl ?_
    assumption
  clear_value z17
  extract_lets +onlyGivenNames z19
  refine Keeps.cut (x := z19) ?_ (fun h20 => ?_)
  · unfold z19
    refine Keeps.step (State.traceExec_keeps ..) rfl ?_
    assumption
  clear_value z19
  split
  · assumption
  · extract_lets +onlyGivenNames z21
    refine Keeps.cut (x := z21) ?_ (fun h22 => ?_)
    · unfold z21
      split
      · refine Keeps.step (State.supervise_keeps ..) rfl ?_
        assumption
      · assumption
    clear_value z21
    clear_value z1
    split
    · assumption
    · extract_lets +onlyGivenNames z23
      refine Keeps.cut (x := z23) ?_ (fun h24 => ?_)
      · unfold z23
        refine Keeps.step (State.seqSettle_keeps ..) rfl ?_
        assumption
      split
      · refine Keeps.step (State.checkFocus_keeps ..) rfl ?_
        assumption
      · assumption

end Sys2Proof.Machine
end

