-- ==== Sys2Proof/Laws/KeepsObkinOps.lean ====
section
/-!
SUPPORT. Laws/KeepsObkinOps.lean: which parts of a state each operation of Machine/ObkinOps.lean may change, and that it keeps a sound
state sound.
-/

namespace Sys2Proof.Machine

theorem State.setG_keeps (s : State) (b : Fin 24) (i : ℕ) (v : ℕ) :
    Keeps [.seq] s (State.setG s b i v) := by
  unfold State.setG
  refine Keeps.step (State.modBob_keeps ..) rfl ?_
  exact Keeps.refl _ _

theorem State.setP_keeps (s : State) (b : Fin 24) (i : ℕ) (v : Bool) :
    Keeps [.seq] s (State.setP s b i v) := by
  unfold State.setP
  refine Keeps.step (State.modBob_keeps ..) rfl ?_
  exact Keeps.refl _ _

theorem State.logSeq_keeps (s : State) (code : ℕ) (a0 : ℕ) (a1 : ℕ) (a2 : ℕ) (a3 : ℕ) :
    Keeps [.events] s (State.logSeq s code a0 a1 a2 a3) := by
  unfold State.logSeq
  refine Keeps.step (State.log_keeps ..) rfl ?_
  exact Keeps.refl _ _

theorem State.takeException_keeps (s : State) (b : Fin 24) (code : ℕ) (pc : ℕ) (last : ℕ) :
    Keeps [.events, .regs, .seq] s (State.takeException s b code pc last) := by
  unfold State.takeException
  extract_lets +onlyGivenNames z1
  refine Keeps.cut (x := z1) ?_ (fun h2 => ?_)
  · unfold z1
    refine Keeps.step (State.modBob_keeps ..) rfl ?_
    exact Keeps.refl _ _
  clear_value z1
  extract_lets +onlyGivenNames z3
  refine Keeps.cut (x := z3) ?_ (fun h4 => ?_)
  · unfold z3
    refine Keeps.step (State.setFld_keeps ..) rfl ?_
    refine Keeps.step (State.setFld_keeps ..) rfl ?_
    assumption
  clear_value z3
  extract_lets +onlyGivenNames z5
  refine Keeps.cut (x := z5) ?_ (fun h6 => ?_)
  · unfold z5
    refine Keeps.step (State.setPair_keeps ..) rfl ?_
    assumption
  clear_value z5
  refine Keeps.step (State.logSeq_keeps ..) rfl ?_
  assumption

theorem State.issued_keeps (s : State) (b : Fin 24) (next : ℕ) :
    Keeps [.regs, .seq] s (State.issued s b next) := by
  unfold State.issued
  extract_lets +onlyGivenNames z1
  extract_lets +onlyGivenNames z2
  refine Keeps.cut (x := z2) ?_ (fun h3 => ?_)
  · unfold z2
    split
    · exact Keeps.refl _ _
    · refine Keeps.step (State.bump_keeps ..) rfl ?_
      exact Keeps.refl _ _
  clear_value z2
  extract_lets +onlyGivenNames z4
  extract_lets +onlyGivenNames z6
  refine Keeps.cut (x := z6) ?_ (fun h7 => ?_)
  · unfold z6
    refine Keeps.seqTo rfl ?_
    assumption
  clear_value z6
  refine Keeps.step (State.modBob_keeps ..) rfl ?_
  assumption

theorem State.issue_keeps {P : List Part} {s0 : State} {s : State} {b : Fin 24} {u : Upset} {sel : Ins → Bool}
    {f : Ins → State → Effect} (hP : Part.sub [.events, .regs, .seq] P = true) (hf : ∀ a0 a1, Keeps P s0 a1 → KeepsE P s0 (f a0 a1))
    (hs : Keeps P s0 s) :
    KeepsR P s0 (State.issue s b u sel f) := by
  unfold State.issue
  split
  · refine KeepsR.next ?_
    assumption
  · split
    extract_lets +onlyGivenNames z1
    refine KeepsR.cut (x := z1) ?_ (fun h2 => ?_)
    · unfold z1
      refine Keeps.step (State.issued_keeps ..) (Part.sub_trans rfl hP) ?_
      assumption
    clear_value z1
    split
    · refine KeepsR.next ?_
      refine Keeps.step (State.takeException_keeps ..) (Part.sub_trans rfl hP) ?_
      assumption
    · split
      · refine KeepsR.next ?_
        assumption
      · split
        · refine KeepsR.next ?_
          assumption
        · split
          · refine KeepsR.next ?_
            refine Keeps.step (State.takeException_keeps ..) (Part.sub_trans rfl hP) ?_
            assumption
          · split
            · rename_i a3 a4 a5 a6 a7 a8 a9 a10 a11 a12 a13 a14
              refine KeepsR.next ?_
              refine Keeps.ofOk a14 ?_
              refine hf _ _ ?_
              assumption
            · rename_i a15 a16 a17 a18 a19 a20 a21 a22 a23 a24 a25 a26
              refine KeepsR.next ?_
              refine Keeps.step (State.takeException_keeps ..) (Part.sub_trans rfl hP) ?_
              assumption

theorem State.spaceWrite_keeps (s : State) (b : Fin 24) (p : Space) (bytes : List ℕ) :
    Keeps [.seq] s (State.spaceWrite s b p bytes) := by
  unfold State.spaceWrite
  split
  · refine Keeps.step (State.modBob_keeps ..) rfl ?_
    exact Keeps.refl _ _
  · refine Keeps.seqTo rfl ?_
    exact Keeps.refl _ _
  · exact Keeps.refl _ _
  · exact Keeps.refl _ _

theorem State.headChecks_keeps {P : List Part} {s0 : State} {s : State} {b : Fin 24} {fam : ℕ} {v : ℕ} {f : Fin 16 → Effect}
    (_hP : Part.sub [] P = true) (hf : ∀ a0, KeepsE P s0 (f a0)) (_hs : Keeps P s0 s) :
    KeepsE P s0 (State.headChecks s b fam v f) := by
  unfold State.headChecks
  split
  · exact KeepsE.error
  · split
    · split
      · exact KeepsE.error
      · split
        · exact KeepsE.error
        · refine hf _
    · exact KeepsE.error

theorem State.slotChecks_keeps {P : List Part} {s0 : State} {s : State} {b : Fin 24} {v : ℕ} {f : Fin 96 → Effect}
    (_hP : Part.sub [] P = true) (hf : ∀ a0, KeepsE P s0 (f a0)) (_hs : Keeps P s0 s) :
    KeepsE P s0 (State.slotChecks s b v f) := by
  unfold State.slotChecks
  split
  · exact KeepsE.error
  · split
    · extract_lets +onlyGivenNames z1
      split
      · split
        · refine hf _
        · exact KeepsE.error
      · split
        · exact KeepsE.error
        · split
          · exact KeepsE.error
          · refine hf _
    · exact KeepsE.error

theorem State.famChecks_keeps {P : List Part} {s0 s : State} {b : Fin 24} {fam : Nat} {f : Effect} (hf : KeepsE P s0 f) :
    KeepsE P s0 (State.famChecks s b fam f) := by
  unfold State.famChecks
  split
  · assumption
  · exact KeepsE.error

theorem State.async_keeps {P : List Part} {s0 : State} {s : State} {b : Fin 24} {i : Ins} {room : Bool} {f : Waiter → State → State}
    (hP : Part.sub [.seq] P = true) (hf : ∀ a0 a1, Keeps P s0 a1 → Keeps P s0 (f a0 a1)) (hs : Keeps P s0 s) :
    KeepsE P s0 (State.async s b i room f) := by
  unfold State.async
  extract_lets +onlyGivenNames z1
  split
  · refine KeepsE.ok ?_
    refine Keeps.step (State.modBob_keeps ..) (Part.sub_trans rfl hP) ?_
    assumption
  · extract_lets +onlyGivenNames z2
    extract_lets +onlyGivenNames z3
    refine KeepsE.cut (x := z3) ?_ (fun h4 => ?_)
    · unfold z3
      refine Keeps.step (State.modBob_keeps ..) (Part.sub_trans rfl hP) ?_
      assumption
    clear_value z3
    refine KeepsE.ok ?_
    refine hf _ _ ?_
    refine Keeps.step (State.setG_keeps ..) (Part.sub_trans rfl hP) ?_
    assumption

theorem State.startBobbin_keeps (s : State) (b : Fin 24) (entry : ℕ) (cause : ℕ) :
    Keeps [.events, .regs, .seq] s (State.startBobbin s b entry cause) := by
  unfold State.startBobbin
  extract_lets +onlyGivenNames z1
  refine Keeps.cut (x := z1) ?_ (fun h2 => ?_)
  · unfold z1
    refine Keeps.step (State.modBob_keeps ..) rfl ?_
    exact Keeps.refl _ _
  clear_value z1
  extract_lets +onlyGivenNames z3
  refine Keeps.cut (x := z3) ?_ (fun h4 => ?_)
  · unfold z3
    refine Keeps.step (State.setFld_keeps ..) rfl ?_
    assumption
  clear_value z3
  extract_lets +onlyGivenNames z5
  refine Keeps.cut (x := z5) ?_ (fun h6 => ?_)
  · unfold z5
    refine Keeps.step (State.setReg_keeps ..) rfl ?_
    assumption
  clear_value z5
  refine Keeps.step (State.logSeq_keeps ..) rfl ?_
  assumption

theorem State.tryStart_keeps (s : State) (b : Fin 24) (entry : ℕ) (who : ℕ) :
    Keeps [.events, .regs, .seq] s (State.tryStart s b entry who).2 := by
  unfold State.tryStart
  split
  · refine Keeps.ofMk ?_
    refine Keeps.step (State.logSeq_keeps ..) rfl ?_
    exact Keeps.refl _ _
  · split
    · refine Keeps.ofMk ?_
      refine Keeps.step (State.startBobbin_keeps ..) rfl ?_
      exact Keeps.refl _ _
    · refine Keeps.ofMk ?_
      exact Keeps.refl _ _

theorem State.restart_keeps (s : State) (b : Fin 24) (cause : ℕ) :
    Keeps [.events, .regs, .seq] s (State.restart s b cause) := by
  unfold State.restart
  split
  · refine Keeps.step (State.startBobbin_keeps ..) rfl ?_
    exact Keeps.refl _ _
  · exact Keeps.refl _ _

theorem State.abortOpens_keeps (s : State) (b : Fin 24) :
    Keeps [.regs, .heads, .seq, .motion] s (State.abortOpens s b) := by
  unfold State.abortOpens
  refine Keeps.foldl ?_ (fun _ _ _ => ?_)
  · exact Keeps.refl _ _
  · split
    · rename_i a1 a2 a3 a4 a5 a6
      split
      · refine Keeps.step (State.completeHead_keeps ..) rfl ?_
        refine Keeps.step (State.dropOpenClaim_keeps ..) rfl ?_
        refine Keeps.step (State.modHead_keeps ..) rfl ?_
        assumption
      · assumption
    · rename_i a7 a8 a9 a10 a11
      assumption

theorem State.abortSeeks_keeps (s : State) (b : Fin 24) :
    Keeps [.events, .regs, .heads, .loop, .seq, .motion] s (State.abortSeeks s b) := by
  unfold State.abortSeeks
  refine Keeps.foldl ?_ (fun _ _ _ => ?_)
  · exact Keeps.refl _ _
  · split
    · rename_i a1 a2 a3 a4 a5 a6
      split
      · extract_lets +onlyGivenNames z7
        refine Keeps.cut (x := z7) ?_ (fun h8 => ?_)
        · unfold z7
          split
          · split
            · refine Keeps.step (State.endSequence_keeps ..) rfl ?_
              assumption
            · assumption
          · assumption
        clear_value z7
        extract_lets +onlyGivenNames z9
        refine Keeps.cut (x := z9) ?_ (fun h10 => ?_)
        · unfold z9
          refine Keeps.step (State.sledCommand_keeps ..) rfl ?_
          assumption
        clear_value z9
        refine Keeps.step (State.completeHead_keeps ..) rfl ?_
        refine Keeps.step (State.modHead_keeps ..) rfl ?_
        assumption
      · assumption
    · rename_i a11 a12 a13 a14 a15
      assumption

theorem State.toHalted_keeps (s : State) (b : Fin 24) :
    Keeps [.seq] s (State.toHalted s b) := by
  unfold State.toHalted
  refine Keeps.step (State.modBob_keeps ..) rfl ?_
  exact Keeps.refl _ _

theorem State.haltNow_keeps (s : State) (b : Fin 24) (by' : HaltBy) :
    Keeps [.events, .regs, .heads, .loop, .seq, .motion] s (State.haltNow s b by') := by
  unfold State.haltNow
  extract_lets +onlyGivenNames z1
  refine Keeps.cut (x := z1) ?_ (fun h2 => ?_)
  · unfold z1
    refine Keeps.step (State.abortOpens_keeps ..) rfl ?_
    exact Keeps.refl _ _
  clear_value z1
  split
  · extract_lets +onlyGivenNames z3
    refine Keeps.cut (x := z3) ?_ (fun h4 => ?_)
    · unfold z3
      refine Keeps.step (State.toHalted_keeps ..) rfl ?_
      refine Keeps.step (State.abortSeeks_keeps ..) rfl ?_
      assumption
    clear_value z3
    refine Keeps.step (State.logSeq_keeps ..) rfl ?_
    assumption
  · refine Keeps.step (State.toHalted_keeps ..) rfl ?_
    assumption

theorem State.capWrite_keeps (s : State) (b : Fin 24) (mask : ℕ) (who : ℕ) :
    Keeps [.events, .regs] s (State.capWrite s b mask who).2 := by
  unfold State.capWrite
  split
  · refine Keeps.ofMk ?_
    refine Keeps.step (State.writePlain_keeps ..) rfl ?_
    exact Keeps.refl _ _
  · refine Keeps.ofMk ?_
    refine Keeps.step (State.logSeq_keeps ..) rfl ?_
    exact Keeps.refl _ _

theorem State.machineCheck_keeps (s : State) (c : McCause) (b : Option (Fin 24)) (uaddr : ℕ) (mask : ℕ) :
    Keeps [.events, .regs, .msix, .seq, .out] s (State.machineCheck s c b uaddr mask) := by
  unfold State.machineCheck
  extract_lets +onlyGivenNames z1
  refine Keeps.cut (x := z1) ?_ (fun h2 => ?_)
  · unfold z1
    split
    · split
      · exact Keeps.refl _ _
      · refine Keeps.step (State.toHalted_keeps ..) rfl ?_
        exact Keeps.refl _ _
    · exact Keeps.refl _ _
  clear_value z1
  extract_lets +onlyGivenNames z3
  refine Keeps.cut (x := z3) ?_ (fun h4 => ?_)
  · unfold z3
    refine Keeps.step (State.bump_keeps ..) rfl ?_
    assumption
  clear_value z3
  extract_lets +onlyGivenNames z5
  split
  · refine Keeps.step (State.logSeq_keeps ..) rfl ?_
    assumption
  · extract_lets +onlyGivenNames z6
    extract_lets +onlyGivenNames z7
    refine Keeps.cut (x := z7) ?_ (fun h8 => ?_)
    · unfold z7
      refine Keeps.step (State.requestHaltAll_keeps ..) rfl ?_
      assumption
    clear_value z7
    extract_lets +onlyGivenNames z9
    refine Keeps.cut (x := z9) ?_ (fun h10 => ?_)
    · unfold z9
      refine Keeps.step (State.setFld_keeps ..) rfl ?_
      refine Keeps.step (State.setFld_keeps ..) rfl ?_
      assumption
    clear_value z9
    extract_lets +onlyGivenNames z11
    refine Keeps.cut (x := z11) ?_ (fun h12 => ?_)
    · unfold z11
      refine Keeps.step (State.setFld_keeps ..) rfl ?_
      refine Keeps.step (State.setFld_keeps ..) rfl ?_
      assumption
    clear_value z11
    extract_lets +onlyGivenNames z13
    refine Keeps.cut (x := z13) ?_ (fun h14 => ?_)
    · unfold z13
      refine Keeps.step (State.setPair_keeps ..) rfl ?_
      assumption
    clear_value z13
    extract_lets +onlyGivenNames z15
    refine Keeps.cut (x := z15) ?_ (fun h16 => ?_)
    · unfold z15
      refine Keeps.foldl ?_ (fun _ _ _ => ?_)
      · assumption
      · refine Keeps.step (State.setFld_keeps ..) rfl ?_
        assumption
    clear_value z15
    extract_lets +onlyGivenNames z17
    refine Keeps.cut (x := z17) ?_ (fun h18 => ?_)
    · unfold z17
      refine Keeps.step (State.sendAll_keeps ..) rfl ?_
      assumption
    clear_value z17
    split
    · refine Keeps.step (State.logSeq_keeps ..) rfl ?_
      assumption
    · refine Keeps.step (State.logSeq_keeps ..) rfl ?_
      assumption
    · refine Keeps.step (State.logSeq_keeps ..) rfl ?_
      assumption

end Sys2Proof.Machine
end

