-- ==== Sys2Proof/Laws/KeepsHostOps.lean ====
section
/-!
SUPPORT. Laws/KeepsHostOps.lean: which parts of a state each operation of Machine/HostOps.lean may change, and that it keeps a sound
state sound.
-/

namespace Sys2Proof.Machine

theorem State.modHost_keeps (s : State) (f : HostState → HostState) :
    Keeps [.host] s (State.modHost s f) := by
  unfold State.modHost
  refine Keeps.hostTo rfl ?_
  exact Keeps.refl _ _

theorem State.modPlace_keeps (s : State) (f : PlaceState → PlaceState) :
    Keeps [.host] s (State.modPlace s f) := by
  unfold State.modPlace
  refine Keeps.step (State.modHost_keeps ..) rfl ?_
  exact Keeps.refl _ _

theorem State.modFn_keeps (s : State) (fn : ℕ) (f : FnState → FnState) :
    Keeps [.host] s (State.modFn s fn f) := by
  unfold State.modFn
  refine Keeps.step (State.modHost_keeps ..) rfl ?_
  exact Keeps.refl _ _

theorem State.logHost_keeps (s : State) (fn : ℕ) (code : ℕ) (a0 : ℕ) (a1 : ℕ) (a2 : ℕ) (a3 : ℕ) :
    Keeps [.events] s (State.logHost s fn code a0 a1 a2 a3) := by
  unfold State.logHost
  refine Keeps.step (State.log_keeps ..) rfl ?_
  exact Keeps.refl _ _

theorem State.logPlace_keeps (s : State) (code : ℕ) (a0 : ℕ) (a1 : ℕ) (a2 : ℕ) (a3 : ℕ) :
    Keeps [.events] s (State.logPlace s code a0 a1 a2 a3) := by
  unfold State.logPlace
  refine Keeps.step (State.logHost_keeps ..) rfl ?_
  exact Keeps.refl _ _

theorem State.setCtl_keeps (s : State) (fn : ℕ) (off : ℕ) (p : FieldPos) (v : ℕ) :
    Keeps [.regs] s (State.setCtl s fn off p v) := by
  unfold State.setCtl
  refine Keeps.step (State.setFld_keeps ..) rfl ?_
  exact Keeps.refl _ _

theorem State.setFeature_keeps (s : State) (fn : ℕ) (fid : ℕ) (sel : ℕ) (v : ℕ) :
    Keeps [.host] s (State.setFeature s fn fid sel v) := by
  unfold State.setFeature
  extract_lets +onlyGivenNames z1
  refine Keeps.step (State.modFn_keeps ..) rfl ?_
  exact Keeps.refl _ _

theorem State.modCmd_keeps (s : State) (t : Stamp) (f : HostCmd → HostCmd) :
    Keeps [.host] s (State.modCmd s t f) := by
  unfold State.modCmd
  refine Keeps.step (State.modHost_keeps ..) rfl ?_
  exact Keeps.refl _ _

theorem State.notePause_keeps (s : State) :
    Keeps [.events, .host] s (State.notePause s) := by
  unfold State.notePause
  refine Keeps.foldl ?_ (fun _ _ _ => ?_)
  · exact Keeps.refl _ _
  · extract_lets +onlyGivenNames z1
    extract_lets +onlyGivenNames z2
    extract_lets +onlyGivenNames z3
    refine Keeps.cut (x := z3) ?_ (fun h4 => ?_)
    · unfold z3
      split
      · rename_i a5 a6 a7 a8
        refine Keeps.step (State.logHost_keeps ..) rfl ?_
        assumption
      · rename_i a9 a10 a11 a12
        assumption
    clear_value z3
    extract_lets +onlyGivenNames z13
    refine Keeps.cut (x := z13) ?_ (fun h14 => ?_)
    · unfold z13
      split
      · rename_i a15 a16 a17 a18
        refine Keeps.step (State.modHost_keeps ..) rfl ?_
        assumption
      · rename_i a19 a20 a21 a22
        assumption
    clear_value z13
    refine Keeps.step (State.modFn_keeps ..) rfl ?_
    assumption

theorem State.recordError_keeps (s : State) (c : HostCmd) (status : ℕ) (dw0 : ℕ) :
    Keeps [.host] s (State.recordError s c status dw0) := by
  unfold State.recordError
  split
  · exact Keeps.refl _ _
  · refine Keeps.step (State.modFn_keeps ..) rfl ?_
    exact Keeps.refl _ _

theorem State.conclude_keeps (s : State) (t : Stamp) (status : ℕ) (dw0 : ℕ) (bytes : List ℕ) :
    Keeps [.decode, .host] s (State.conclude s t status dw0 bytes) := by
  unfold State.conclude
  split
  · exact Keeps.refl _ _
  · split
    · exact Keeps.refl _ _
    · extract_lets +onlyGivenNames z1
      refine Keeps.cut (x := z1) ?_ (fun h2 => ?_)
      · unfold z1
        refine Keeps.step (State.releaseBands_keeps ..) rfl ?_
        refine Keeps.step (State.recordError_keeps ..) rfl ?_
        exact Keeps.refl _ _
      clear_value z1
      extract_lets +onlyGivenNames z3
      refine Keeps.step (State.modHost_keeps ..) rfl ?_
      refine Keeps.step (State.modCmd_keeps ..) rfl ?_
      assumption

theorem State.answerAer_keeps (s : State) (fn : ℕ) (c : HostCmd) (e : AsyncEv) :
    Keeps [.decode, .host] s (State.answerAer s fn c e) := by
  unfold State.answerAer
  refine Keeps.step (State.modFn_keeps ..) rfl ?_
  refine Keeps.step (State.conclude_keeps ..) rfl ?_
  exact Keeps.refl _ _

theorem State.asyncIn_keeps (s : State) (fn : ℕ) (e : AsyncEv) :
    Keeps [.events, .decode, .host] s (State.asyncIn s fn e) := by
  unfold State.asyncIn
  extract_lets +onlyGivenNames z1
  split
  · exact Keeps.refl _ _
  · split
    · exact Keeps.refl _ _
    · split
      · refine Keeps.step (State.answerAer_keeps ..) rfl ?_
        exact Keeps.refl _ _
      · split
        · refine Keeps.step (State.logHost_keeps ..) rfl ?_
          exact Keeps.refl _ _
        · refine Keeps.step (State.modFn_keeps ..) rfl ?_
          exact Keeps.refl _ _

theorem State.raiseAsync_keeps (s : State) (type : ℕ) (info : ℕ) (lid : ℕ) :
    Keeps [.events, .decode, .host] s (State.raiseAsync s type info lid) := by
  unfold State.raiseAsync
  refine Keeps.foldl ?_ (fun _ _ _ => ?_)
  · exact Keeps.refl _ _
  · refine Keeps.step (State.asyncIn_keeps ..) rfl ?_
    assumption

theorem State.serveAers_keeps (s : State) (fn k : Nat) :
    Keeps [.decode, .host] s (s.serveAers fn k) := by
  induction k generalizing s with
  | zero =>
    rw [State.serveAers]
    exact Keeps.refl _ _
  | succ k ih =>
    rw [State.serveAers]
    split
    · extract_lets +onlyGivenNames z1
      refine Keeps.cut (x := z1) ?_ (fun h2 => ?_)
      · unfold z1
        refine Keeps.step (State.modFn_keeps ..) rfl ?_
        exact Keeps.refl _ _
      clear_value z1
      refine Keeps.step (ih ..) rfl ?_
      refine Keeps.step (State.answerAer_keeps ..) rfl ?_
      assumption
    · exact Keeps.refl _ _

theorem State.setWarnings_keeps (s : State) (w : ℕ) :
    Keeps [.events, .decode, .host] s (State.setWarnings s w) := by
  unfold State.setWarnings
  extract_lets +onlyGivenNames z1
  extract_lets +onlyGivenNames z2
  refine Keeps.cut (x := z2) ?_ (fun h3 => ?_)
  · unfold z2
    refine Keeps.step (State.modHost_keeps ..) rfl ?_
    exact Keeps.refl _ _
  clear_value z2
  extract_lets +onlyGivenNames z4
  refine Keeps.cut (x := z4) ?_ (fun h5 => ?_)
  · unfold z4
    split
    · refine Keeps.step (State.raiseAsync_keeps ..) rfl ?_
      assumption
    · assumption
  clear_value z4
  extract_lets +onlyGivenNames z6
  refine Keeps.cut (x := z6) ?_ (fun h7 => ?_)
  · unfold z6
    split
    · refine Keeps.step (State.raiseAsync_keeps ..) rfl ?_
      assumption
    · assumption
  clear_value z6
  split
  · refine Keeps.step (State.raiseAsync_keeps ..) rfl ?_
    assumption
  · assumption

theorem State.sumpPeak_keeps (s : State) :
    Keeps [.regs] s (State.sumpPeak s) := by
  unfold State.sumpPeak
  refine Keeps.foldl ?_ (fun _ _ _ => ?_)
  · exact Keeps.refl _ _
  · extract_lets +onlyGivenNames z1
    refine Keeps.step (State.setFld_keeps ..) rfl ?_
    assumption

theorem State.enterLock_keeps (s : State) (fn : ℕ) (r : LockReq) :
    Keeps [.events, .regs, .host] s (State.enterLock s fn r) := by
  unfold State.enterLock
  split
  · refine Keeps.step (State.modHost_keeps ..) rfl ?_
    exact Keeps.refl _ _
  · extract_lets +onlyGivenNames z1
    refine Keeps.cut (x := z1) ?_ (fun h2 => ?_)
    · unfold z1
      split
      · refine Keeps.step (State.logHost_keeps ..) rfl ?_
        exact Keeps.refl _ _
      · exact Keeps.refl _ _
    clear_value z1
    extract_lets +onlyGivenNames z3
    refine Keeps.cut (x := z3) ?_ (fun h4 => ?_)
    · unfold z3
      refine Keeps.step (State.sumpPeak_keeps ..) rfl ?_
      refine Keeps.step (State.modHost_keeps ..) rfl ?_
      assumption
    clear_value z3
    split
    · refine Keeps.step (State.logHost_keeps ..) rfl ?_
      refine Keeps.step (State.modHost_keeps ..) rfl ?_
      assumption
    · assumption

theorem State.advanceSump_keeps (s : State) :
    Keeps [.host] s (State.advanceSump s) := by
  unfold State.advanceSump
  extract_lets +onlyGivenNames z1
  extract_lets +onlyGivenNames z2
  refine Keeps.cut (x := z2) ?_ (fun h3 => ?_)
  · unfold z2
    refine Keeps.step (State.modHost_keeps ..) rfl ?_
    exact Keeps.refl _ _
  clear_value z2
  refine Keeps.step (State.modHost_keeps ..) rfl ?_
  assumption

theorem State.releaseLocks_keeps (s : State) (t : Stamp) :
    Keeps [.host] s (State.releaseLocks s t) := by
  unfold State.releaseLocks
  refine Keeps.step (State.advanceSump_keeps ..) rfl ?_
  refine Keeps.step (State.modHost_keeps ..) rfl ?_
  exact Keeps.refl _ _

theorem State.announceOrders_keeps (s : State) :
    Keeps [.seq] s (State.announceOrders s) := by
  unfold State.announceOrders
  split
  · exact Keeps.refl _ _
  · refine Keeps.foldl ?_ (fun _ _ _ => ?_)
    · exact Keeps.refl _ _
    · split
      · rename_i a1 a2 a3 a4 a5
        extract_lets +onlyGivenNames z6
        refine Keeps.cut (x := z6) ?_ (fun h7 => ?_)
        · unfold z6
          refine Keeps.step (State.modBob_keeps ..) rfl ?_
          assumption
        clear_value z6
        refine Keeps.step (State.sendEntry_keeps ..) rfl ?_
        assumption
      · rename_i a8 a9 a10 a11 a12
        assumption

theorem State.dropOrder_keeps (s : State) (c : HostCmd) :
    Keeps [.seq, .host] s (State.dropOrder s c) := by
  unfold State.dropOrder
  split
  · refine Keeps.step (State.announceOrders_keeps ..) rfl ?_
    refine Keeps.step (State.modHost_keeps ..) rfl ?_
    refine Keeps.step (State.modCmd_keeps ..) rfl ?_
    exact Keeps.refl _ _
  · refine Keeps.step (State.modCmd_keeps ..) rfl ?_
    exact Keeps.refl _ _
  · refine Keeps.step (State.modCmd_keeps ..) rfl ?_
    exact Keeps.refl _ _
  · refine Keeps.step (State.modCmd_keeps ..) rfl ?_
    exact Keeps.refl _ _

theorem State.dropCommit_keeps (s : State) (t : Stamp) :
    Keeps [.host, .sec] s (State.dropCommit s t) := by
  unfold State.dropCommit
  split
  · split
    · refine Keeps.many (x := s) [.host, .sec] rfl (by intro p hp; cases p <;> first | exact absurd hp (by decide) | rfl) id id id (Nat.le_refl _) ?_
      exact Keeps.refl _ _
    · exact Keeps.refl _ _
  · exact Keeps.refl _ _

theorem State.endCommand_keeps (s : State) (c : HostCmd) (status : ℕ) :
    Keeps [.decode, .seq, .host, .sec] s (State.endCommand s c status) := by
  unfold State.endCommand
  refine Keeps.step (State.conclude_keeps ..) rfl ?_
  refine Keeps.step (State.dropCommit_keeps ..) rfl ?_
  refine Keeps.step (State.dropOrder_keeps ..) rfl ?_
  exact Keeps.refl _ _

theorem State.abortRequest_keeps (s : State) (fn : ℕ) (sqid : ℕ) (cid : ℕ) :
    Keeps [.decode, .seq, .host, .sec] s (State.abortRequest s fn sqid cid).2.2 := by
  unfold State.abortRequest
  split
  refine Keeps.ofMkSnd ?_
  refine Keeps.ofMk ?_
  split
  · split
    · refine Keeps.step (State.endCommand_keeps ..) rfl ?_
      exact Keeps.refl _ _
    · exact Keeps.refl _ _
  · exact Keeps.refl _ _

theorem State.decideFlushes_keeps (s : State) :
    Keeps [.decode, .host] s (State.decideFlushes s) := by
  unfold State.decideFlushes
  refine Keeps.foldl ?_ (fun _ _ _ => ?_)
  · exact Keeps.refl _ _
  · split
    · rename_i a1 a2 a3 a4
      assumption
    · rename_i a5 a6 a7 a8
      refine Keeps.step (State.conclude_keeps ..) rfl ?_
      assumption

theorem State.setNamespace_keeps (s : State) (idx : ℕ) (n : Option Namespace) :
    Keeps [.host] s (State.setNamespace s idx n) := by
  unfold State.setNamespace
  split
  · refine Keeps.step (State.modHost_keeps ..) rfl ?_
    exact Keeps.refl _ _
  · exact Keeps.refl _ _

theorem State.recoveryWarning_keeps (s : State) :
    Keeps [.events, .decode, .host] s (State.recoveryWarning s) := by
  unfold State.recoveryWarning
  extract_lets +onlyGivenNames z1
  refine Keeps.step (State.setWarnings_keeps ..) rfl ?_
  exact Keeps.refl _ _

theorem State.setNsState_keeps (s : State) (idx : ℕ) (st : ℕ) :
    Keeps [.events, .decode, .host] s (State.setNsState s idx st) := by
  unfold State.setNsState
  split
  · exact Keeps.refl _ _
  · split
    · exact Keeps.refl _ _
    · extract_lets +onlyGivenNames z1
      refine Keeps.cut (x := z1) ?_ (fun h2 => ?_)
      · unfold z1
        refine Keeps.step (State.setNamespace_keeps ..) rfl ?_
        exact Keeps.refl _ _
      clear_value z1
      refine Keeps.step (State.recoveryWarning_keeps ..) rfl ?_
      refine Keeps.step (State.raiseAsync_keeps ..) rfl ?_
      refine Keeps.step (State.logPlace_keeps ..) rfl ?_
      assumption

theorem State.nsChanged_keeps (s : State) (nsid : ℕ) :
    Keeps [.events, .decode, .host] s (State.nsChanged s nsid) := by
  unfold State.nsChanged
  extract_lets +onlyGivenNames z1
  refine Keeps.cut (x := z1) ?_ (fun h2 => ?_)
  · unfold z1
    refine Keeps.foldl ?_ (fun _ _ _ => ?_)
    · exact Keeps.refl _ _
    · refine Keeps.step (State.modFn_keeps ..) rfl ?_
      assumption
  clear_value z1
  refine Keeps.step (State.raiseAsync_keeps ..) rfl ?_
  assumption

theorem State.hemEvery_keeps (s : State) :
    Keeps [.events, .regs, .heads, .decode, .mem, .out] s (State.hemEvery s) := by
  unfold State.hemEvery
  refine Keeps.foldl ?_ (fun _ _ _ => ?_)
  · exact Keeps.refl _ _
  · refine Keeps.step (State.hemRequest_keeps ..) rfl ?_
    assumption

theorem State.advanceShutdown_keeps (s : State) :
    Keeps [.events, .regs, .heads, .decode, .mem, .host, .out] s (State.advanceShutdown s) := by
  unfold State.advanceShutdown
  refine Keeps.foldl ?_ (fun _ _ _ => ?_)
  · exact Keeps.refl _ _
  · split
    · rename_i a1 a2 a3 a4 a5 a6
      split
      · refine Keeps.step (State.modFn_keeps ..) rfl ?_
        refine Keeps.step (State.hemEvery_keeps ..) rfl ?_
        assumption
      · assumption
    · rename_i a7 a8 a9 a10 a11
      assumption

end Sys2Proof.Machine
end

