-- ==== Sys2Proof/Laws/KeepsPlace.lean ====
section
/-!
SUPPORT. Laws/KeepsPlace.lean: which parts of a state each operation of Machine/Place.lean may change, and that it keeps a sound
state sound.
-/

namespace Sys2Proof.Machine

theorem State.plPut_keeps (s : State) (a : ℕ) (n : ℕ) (v : ℕ) :
    Keeps [.events, .regs, .mem, .out] s (State.plPut s a n v) := by
  unfold State.plPut
  refine Keeps.step (State.memWrite_keeps ..) rfl ?_
  exact Keeps.refl _ _

theorem State.putMapEntry_keeps (s : State) (idx : ℕ) (g : ℕ) (e : ℕ) :
    Keeps [.events, .regs, .mem, .out] s (State.putMapEntry s idx g e) := by
  unfold State.putMapEntry
  split
  · split
    · refine Keeps.step (State.plPut_keeps ..) rfl ?_
      exact Keeps.refl _ _
    · exact Keeps.refl _ _
  · exact Keeps.refl _ _

theorem State.setFrState_keeps (s : State) (f : ℕ) (v : ℕ) :
    Keeps [.events, .regs, .mem, .out] s (State.setFrState s f v) := by
  unfold State.setFrState
  refine Keeps.step (State.plPut_keeps ..) rfl ?_
  exact Keeps.refl _ _

theorem State.setFrBatch_keeps (s : State) (f : ℕ) (v : ℕ) :
    Keeps [.events, .regs, .mem, .out] s (State.setFrBatch s f v) := by
  unfold State.setFrBatch
  refine Keeps.step (State.plPut_keeps ..) rfl ?_
  exact Keeps.refl _ _

theorem State.setFrRefs_keeps (s : State) (f : ℕ) (v : ℕ) :
    Keeps [.events, .regs, .mem, .out] s (State.setFrRefs s f v) := by
  unfold State.setFrRefs
  refine Keeps.step (State.plPut_keeps ..) rfl ?_
  exact Keeps.refl _ _

theorem State.setBatState_keeps (s : State) (b : ℕ) (v : ℕ) :
    Keeps [.events, .regs, .mem, .out] s (State.setBatState s b v) := by
  unfold State.setBatState
  refine Keeps.step (State.plPut_keeps ..) rfl ?_
  exact Keeps.refl _ _

theorem State.putBatch_keeps (s : State) (b : ℕ) (kind : ℕ) (count : ℕ) (first : ℕ) (slot : ℕ) :
    Keeps [.events, .regs, .mem, .out] s (State.putBatch s b kind count first slot) := by
  unfold State.putBatch
  extract_lets +onlyGivenNames z1
  refine Keeps.cut (x := z1) ?_ (fun h2 => ?_)
  · unfold z1
    refine Keeps.step (State.plPut_keeps ..) rfl ?_
    exact Keeps.refl _ _
  clear_value z1
  extract_lets +onlyGivenNames z3
  refine Keeps.cut (x := z3) ?_ (fun h4 => ?_)
  · unfold z3
    refine Keeps.step (State.plPut_keeps ..) rfl ?_
    assumption
  clear_value z3
  refine Keeps.step (State.plPut_keeps ..) rfl ?_
  assumption

theorem State.linkFrames_keeps (s : State) (b st : Nat) (l : List Nat) :
    Keeps [.events, .regs, .mem, .out] s (s.linkFrames b st l) := by
  induction l generalizing s with
  | nil =>
    rw [State.linkFrames]
    exact Keeps.refl _ _
  | cons f rest ih =>
    rw [State.linkFrames]
    refine Keeps.step (ih ..) rfl ?_
    refine Keeps.step (State.plPut_keeps ..) rfl ?_
    refine Keeps.step (State.setFrBatch_keeps ..) rfl ?_
    refine Keeps.step (State.setFrState_keeps ..) rfl ?_
    refine Keeps.step (State.plPut_keeps ..) rfl ?_
    exact Keeps.refl _ _

theorem State.lookup_keeps (s : State) (idx : Nat) (l : List Nat) :
    Keeps [.events, .regs, .mem, .out] s (s.lookup idx l).2.2 := by
  induction l generalizing s with
  | nil =>
    rw [State.lookup]
    refine Keeps.ofMkSnd ?_
    refine Keeps.ofMk ?_
    exact Keeps.refl _ _
  | cons g rest ih =>
    rw [State.lookup]
    split
    · refine Keeps.ofMkSnd ?_
      refine Keeps.ofMk ?_
      exact Keeps.refl _ _
    · split
      · refine Keeps.ofMkSnd ?_
        refine Keeps.ofMk ?_
        exact Keeps.refl _ _
      · extract_lets +onlyGivenNames z1
        refine Keeps.cut (x := z1.st) ?_ (fun h2 => ?_)
        · unfold z1
          refine Keeps.step (State.memRead_keeps ..) rfl ?_
          exact Keeps.refl _ _
        clear_value z1
        split
        rename_i a3 a4 a5 a6 a7 a8 a9 a10 a11
        refine Keeps.ofMkSnd ?_
        refine Keeps.ofMk ?_
        refine Keeps.ofThird a11 ?_
        refine Keeps.step (ih ..) rfl ?_
        assumption

theorem State.writeSlotRecord_keeps (s : State) (c : HostCmd) :
    Keeps [.events, .regs, .mem, .host, .out] s (State.writeSlotRecord s c).2 := by
  unfold State.writeSlotRecord
  split
  split
  rename_i a1 a2 a3 a4 a5 a6 a7 a8 a9
  extract_lets +onlyGivenNames z10
  extract_lets +onlyGivenNames z11
  extract_lets +onlyGivenNames z12
  extract_lets +onlyGivenNames z13
  refine Keeps.cut (x := z13) ?_ (fun h14 => ?_)
  · unfold z13
    refine Keeps.step (State.memWrite_keeps ..) rfl ?_
    refine Keeps.ofThird a9 ?_
    refine Keeps.step (State.lookup_keeps ..) rfl ?_
    exact Keeps.refl _ _
  clear_value z13
  extract_lets +onlyGivenNames z15
  extract_lets +onlyGivenNames z16
  refine Keeps.cut (x := z16) ?_ (fun h17 => ?_)
  · unfold z16
    refine Keeps.foldl ?_ (fun _ _ _ => ?_)
    · assumption
    · refine Keeps.step (State.setFrRefs_keeps ..) rfl ?_
      assumption
  clear_value z16
  refine Keeps.ofMk ?_
  refine Keeps.step (State.modCmd_keeps ..) rfl ?_
  assumption

theorem State.slotState_keeps (s : State) (slot : ℕ) (v : ℕ) :
    Keeps [.events, .regs, .mem, .out] s (State.slotState s slot v) := by
  unfold State.slotState
  refine Keeps.step (State.plPut_keeps ..) rfl ?_
  exact Keeps.refl _ _

theorem State.slotBatch_keeps (s : State) (slot : ℕ) (b : ℕ) :
    Keeps [.events, .regs, .mem, .out] s (State.slotBatch s slot b) := by
  unfold State.slotBatch
  refine Keeps.step (State.plPut_keeps ..) rfl ?_
  exact Keeps.refl _ _

theorem State.freeFrame_keeps (s : State) (f : ℕ) :
    Keeps [.events, .regs, .mem, .host, .out] s (State.freeFrame s f) := by
  unfold State.freeFrame
  extract_lets +onlyGivenNames z1
  refine Keeps.cut (x := z1) ?_ (fun h2 => ?_)
  · unfold z1
    refine Keeps.step (State.setFrBatch_keeps ..) rfl ?_
    refine Keeps.step (State.setFrState_keeps ..) rfl ?_
    exact Keeps.refl _ _
  clear_value z1
  refine Keeps.step (State.modPlace_keeps ..) rfl ?_
  assumption

theorem State.dropNamed_keeps (s : State) (c : HostCmd) :
    Keeps [.events, .regs, .mem, .host, .out] s (State.dropNamed s c) := by
  unfold State.dropNamed
  extract_lets +onlyGivenNames z1
  refine Keeps.cut (x := z1) ?_ (fun h2 => ?_)
  · unfold z1
    refine Keeps.foldl ?_ (fun _ _ _ => ?_)
    · exact Keeps.refl _ _
    · extract_lets +onlyGivenNames z3
      extract_lets +onlyGivenNames z4
      refine Keeps.cut (x := z4) ?_ (fun h5 => ?_)
      · unfold z4
        refine Keeps.step (State.setFrRefs_keeps ..) rfl ?_
        assumption
      clear_value z4
      split
      · rename_i a6 a7 a8 a9
        refine Keeps.step (State.freeFrame_keeps ..) rfl ?_
        assumption
      · rename_i a10 a11 a12 a13
        assumption
  clear_value z1
  refine Keeps.step (State.modCmd_keeps ..) rfl ?_
  assumption

theorem State.copyMem_keeps (s : State) (src : ℕ) (dst : ℕ) (len : ℕ) :
    Keeps [.events, .regs, .mem, .out] s (State.copyMem s src dst len).2 := by
  unfold State.copyMem
  extract_lets +onlyGivenNames z1
  refine Keeps.cut (x := z1.st) ?_ (fun h2 => ?_)
  · unfold z1
    refine Keeps.step (State.memRead_keeps ..) rfl ?_
    exact Keeps.refl _ _
  clear_value z1
  refine Keeps.ofMk ?_
  refine Keeps.step (State.memWrite_keeps ..) rfl ?_
  assumption

theorem State.applyPiece_keeps (s : State) (c : HostCmd) (p : Piece) :
    Keeps [.events, .regs, .mem, .host, .out] s (State.applyPiece s c p).2.2 := by
  unfold State.applyPiece
  extract_lets +onlyGivenNames z1
  extract_lets +onlyGivenNames z2
  extract_lets +onlyGivenNames z3
  split
  · extract_lets +onlyGivenNames z4
    split
    rename_i a5 a6 a7 a8 a9
    refine Keeps.ofMkSnd ?_
    refine Keeps.ofMk ?_
    refine Keeps.ofSnd a9 ?_
    refine Keeps.step (State.copyMem_keeps ..) rfl ?_
    exact Keeps.refl _ _
  · extract_lets +onlyGivenNames z10
    split
    rename_i a11 a12 a13 a14 a15
    split
    rename_i a16 a17 a18 a19
    extract_lets +onlyGivenNames z20
    refine Keeps.cut (x := z20) ?_ (fun h21 => ?_)
    · unfold z20
      refine Keeps.step (State.plPut_keeps ..) rfl ?_
      refine Keeps.ofSnd a19 ?_
      refine Keeps.step (State.copyMem_keeps ..) rfl ?_
      refine Keeps.ofSnd a15 ?_
      split
      · split
        · refine Keeps.ofMk ?_
          exact Keeps.refl _ _
        · refine Keeps.step (State.copyMem_keeps ..) rfl ?_
          exact Keeps.refl _ _
      · refine Keeps.ofMk ?_
        refine Keeps.step (State.memWrite_keeps ..) rfl ?_
        exact Keeps.refl _ _
    clear_value z20
    extract_lets +onlyGivenNames z22
    refine Keeps.cut (x := z22) ?_ (fun h23 => ?_)
    · unfold z22
      refine Keeps.step (State.setFrRefs_keeps ..) rfl ?_
      refine Keeps.step (State.setFrBatch_keeps ..) rfl ?_
      refine Keeps.step (State.setFrState_keeps ..) rfl ?_
      assumption
    clear_value z22
    extract_lets +onlyGivenNames z24
    refine Keeps.cut (x := z24) ?_ (fun h25 => ?_)
    · unfold z24
      refine Keeps.step (State.putMapEntry_keeps ..) rfl ?_
      assumption
    clear_value z24
    refine Keeps.ofMkSnd ?_
    refine Keeps.ofMk ?_
    refine Keeps.step (State.modPlace_keeps ..) rfl ?_
    assumption

theorem State.applyPieces_keeps (s : State) (c : HostCmd) (l : List Piece) :
    Keeps [.events, .regs, .mem, .host, .out] s (s.applyPieces c l).2.2 := by
  induction l generalizing s with
  | nil =>
    rw [State.applyPieces]
    refine Keeps.ofMkSnd ?_
    refine Keeps.ofMk ?_
    exact Keeps.refl _ _
  | cons p rest ih =>
    rw [State.applyPieces]
    split
    rename_i a1 a2 a3 a4 a5
    split
    rename_i a6 a7 a8 a9 a10
    refine Keeps.ofMkSnd ?_
    refine Keeps.ofMk ?_
    refine Keeps.ofThird a10 ?_
    refine Keeps.step (ih ..) rfl ?_
    refine Keeps.ofThird a5 ?_
    refine Keeps.step (State.applyPiece_keeps ..) rfl ?_
    exact Keeps.refl _ _

theorem State.joinGroups_keeps (s : State) (frames : List ℕ) :
    Keeps [.host] s (State.joinGroups s frames) := by
  unfold State.joinGroups
  refine Keeps.step (State.modPlace_keeps ..) rfl ?_
  exact Keeps.refl _ _

theorem State.addTrack_keeps (s : State) (c : HostCmd) (frames : List ℕ) (batch : Option ℕ) (flushed : Bool) :
    Keeps [.host] s (State.addTrack s c frames batch flushed) := by
  unfold State.addTrack
  refine Keeps.step (State.modPlace_keeps ..) rfl ?_
  exact Keeps.refl _ _

theorem State.applyWrite_keeps (s : State) (c : HostCmd) :
    Keeps [.events, .regs, .decode, .mem, .host, .out] s (State.applyWrite s c) := by
  unfold State.applyWrite
  extract_lets +onlyGivenNames z1
  split
  · extract_lets +onlyGivenNames z2
    refine Keeps.cut (x := z2) ?_ (fun h3 => ?_)
    · unfold z2
      refine Keeps.step (State.slotState_keeps ..) rfl ?_
      exact Keeps.refl _ _
    clear_value z2
    split
    · assumption
    · refine Keeps.step (State.modPlace_keeps ..) rfl ?_
      assumption
  · extract_lets +onlyGivenNames z4
    refine Keeps.cut (x := z4) ?_ (fun h5 => ?_)
    · unfold z4
      refine Keeps.step (State.modPlace_keeps ..) rfl ?_
      exact Keeps.refl _ _
    clear_value z4
    split
    · refine Keeps.step (State.conclude_keeps ..) rfl ?_
      refine Keeps.step (State.logPlace_keeps ..) rfl ?_
      refine Keeps.step (State.slotState_keeps ..) rfl ?_
      assumption
    · split
      rename_i a6 a7 a8 a9 a10 a11 a12 a13
      extract_lets +onlyGivenNames z14
      refine Keeps.cut (x := z14) ?_ (fun h15 => ?_)
      · unfold z14
        refine Keeps.step (State.slotState_keeps ..) rfl ?_
        refine Keeps.ofThird a13 ?_
        refine Keeps.step (State.applyPieces_keeps ..) rfl ?_
        assumption
      clear_value z14
      split
      · split
        · assumption
        · extract_lets +onlyGivenNames z16
          refine Keeps.cut (x := z16) ?_ (fun h17 => ?_)
          · unfold z16
            refine Keeps.step (State.linkFrames_keeps ..) rfl ?_
            assumption
          clear_value z16
          extract_lets +onlyGivenNames z18
          refine Keeps.cut (x := z18) ?_ (fun h19 => ?_)
          · unfold z18
            refine Keeps.step (State.slotBatch_keeps ..) rfl ?_
            refine Keeps.step (State.putBatch_keeps ..) rfl ?_
            assumption
          clear_value z18
          extract_lets +onlyGivenNames z20
          refine Keeps.cut (x := z20) ?_ (fun h21 => ?_)
          · unfold z20
            refine Keeps.step (State.modPlace_keeps ..) rfl ?_
            assumption
          clear_value z20
          extract_lets +onlyGivenNames z22
          refine Keeps.cut (x := z22) ?_ (fun h23 => ?_)
          · unfold z22
            refine Keeps.step (State.addTrack_keeps ..) rfl ?_
            assumption
          clear_value z22
          split
          · assumption
          · refine Keeps.step (State.conclude_keeps ..) rfl ?_
            assumption
      · extract_lets +onlyGivenNames z24
        refine Keeps.cut (x := z24) ?_ (fun h25 => ?_)
        · unfold z24
          refine Keeps.step (State.addTrack_keeps ..) rfl ?_
          refine Keeps.step (State.joinGroups_keeps ..) rfl ?_
          assumption
        clear_value z24
        refine Keeps.step (State.conclude_keeps ..) rfl ?_
        assumption

theorem State.entryBatch_keeps (s : State) (c : HostCmd) (entries : List (ℕ × ℕ)) (flushed : Bool) :
    Keeps [.events, .regs, .mem, .host, .out] s (State.entryBatch s c entries flushed) := by
  unfold State.entryBatch
  split
  · exact Keeps.refl _ _
  · extract_lets +onlyGivenNames z1
    refine Keeps.cut (x := z1) ?_ (fun h2 => ?_)
    · unfold z1
      refine Keeps.step (State.slotBatch_keeps ..) rfl ?_
      refine Keeps.step (State.putBatch_keeps ..) rfl ?_
      exact Keeps.refl _ _
    clear_value z1
    extract_lets +onlyGivenNames z3
    refine Keeps.cut (x := z3) ?_ (fun h4 => ?_)
    · unfold z3
      refine Keeps.step (State.modPlace_keeps ..) rfl ?_
      assumption
    clear_value z3
    refine Keeps.step (State.addTrack_keeps ..) rfl ?_
    refine Keeps.step (State.slotState_keeps ..) rfl ?_
    assumption

theorem State.zeroEdge_keeps (s : State) (c : HostCmd) (p : Piece) :
    Keeps [.events, .regs, .mem, .host, .out] s (State.zeroEdge s c p).2 := by
  unfold State.zeroEdge
  extract_lets +onlyGivenNames z1
  extract_lets +onlyGivenNames z2
  extract_lets +onlyGivenNames z3
  split
  · extract_lets +onlyGivenNames z4
    refine Keeps.ofMk ?_
    refine Keeps.step (State.memWrite_keeps ..) rfl ?_
    exact Keeps.refl _ _
  · split
    · refine Keeps.ofMk ?_
      exact Keeps.refl _ _
    · extract_lets +onlyGivenNames z5
      split
      rename_i a6 a7 a8 a9 a10 a11
      extract_lets +onlyGivenNames z12
      refine Keeps.cut (x := z12) ?_ (fun h13 => ?_)
      · unfold z12
        refine Keeps.step (State.memWrite_keeps ..) rfl ?_
        refine Keeps.ofSnd a11 ?_
        split
        · refine Keeps.step (State.copyMem_keeps ..) rfl ?_
          exact Keeps.refl _ _
        · refine Keeps.ofMk ?_
          refine Keeps.step (State.memWrite_keeps ..) rfl ?_
          exact Keeps.refl _ _
      clear_value z12
      extract_lets +onlyGivenNames z14
      refine Keeps.cut (x := z14) ?_ (fun h15 => ?_)
      · unfold z14
        refine Keeps.step (State.plPut_keeps ..) rfl ?_
        assumption
      clear_value z14
      extract_lets +onlyGivenNames z16
      refine Keeps.cut (x := z16) ?_ (fun h17 => ?_)
      · unfold z16
        refine Keeps.step (State.setFrRefs_keeps ..) rfl ?_
        refine Keeps.step (State.setFrBatch_keeps ..) rfl ?_
        refine Keeps.step (State.setFrState_keeps ..) rfl ?_
        assumption
      clear_value z16
      extract_lets +onlyGivenNames z18
      refine Keeps.cut (x := z18) ?_ (fun h19 => ?_)
      · unfold z18
        refine Keeps.step (State.putMapEntry_keeps ..) rfl ?_
        assumption
      clear_value z18
      refine Keeps.ofMk ?_
      refine Keeps.step (State.modPlace_keeps ..) rfl ?_
      assumption

theorem State.applyTrim_keeps (s : State) (c : HostCmd) :
    Keeps [.events, .regs, .decode, .mem, .host, .out] s (State.applyTrim s c) := by
  unfold State.applyTrim
  split
  · extract_lets +onlyGivenNames z1
    refine Keeps.cut (x := z1) ?_ (fun h2 => ?_)
    · unfold z1
      refine Keeps.step (State.slotState_keeps ..) rfl ?_
      exact Keeps.refl _ _
    clear_value z1
    split
    · assumption
    · refine Keeps.step (State.modPlace_keeps ..) rfl ?_
      assumption
  · extract_lets +onlyGivenNames z3
    refine Keeps.cut (x := z3) ?_ (fun h4 => ?_)
    · unfold z3
      refine Keeps.step (State.modPlace_keeps ..) rfl ?_
      exact Keeps.refl _ _
    clear_value z3
    extract_lets +onlyGivenNames z5
    extract_lets +onlyGivenNames z6
    extract_lets +onlyGivenNames z7
    split
    rename_i a8 a9 a10 a11 a12
    clear_value z7
    split
    · refine Keeps.step (State.conclude_keeps ..) rfl ?_
      refine Keeps.step (State.logPlace_keeps ..) rfl ?_
      refine Keeps.step (State.slotState_keeps ..) rfl ?_
      assumption
    · extract_lets +onlyGivenNames z13
      refine Keeps.cut (x := z13) ?_ (fun h14 => ?_)
      · unfold z13
        split
        · refine Keeps.ofSnd a12 ?_
          refine Keeps.foldlSnd ?_ (fun _ _ _ => ?_)
          · refine Keeps.ofMk ?_
            assumption
          · split
            rename_i a15 a16 a17 a18 a19 a20 a21 a22 a23
            refine Keeps.ofMk ?_
            refine Keeps.ofSnd a23 ?_
            refine Keeps.step (State.zeroEdge_keeps ..) rfl ?_
            assumption
        · refine Keeps.step (State.joinGroups_keeps ..) rfl ?_
          refine Keeps.ofSnd a12 ?_
          refine Keeps.foldlSnd ?_ (fun _ _ _ => ?_)
          · refine Keeps.ofMk ?_
            assumption
          · split
            rename_i a24 a25 a26 a27 a28 a29 a30 a31 a32
            refine Keeps.ofMk ?_
            refine Keeps.ofSnd a32 ?_
            refine Keeps.step (State.zeroEdge_keeps ..) rfl ?_
            assumption
      clear_value z13
      extract_lets +onlyGivenNames z33
      extract_lets +onlyGivenNames z34
      split
      · refine Keeps.step (State.conclude_keeps ..) rfl ?_
        refine Keeps.step (State.slotState_keeps ..) rfl ?_
        assumption
      · extract_lets +onlyGivenNames z35
        refine Keeps.cut (x := z35) ?_ (fun h36 => ?_)
        · unfold z35
          split
          · refine Keeps.step (State.addTrack_keeps ..) rfl ?_
            refine Keeps.step (State.slotState_keeps ..) rfl ?_
            assumption
          · refine Keeps.step (State.entryBatch_keeps ..) rfl ?_
            assumption
        clear_value z35
        refine Keeps.step (State.modPlace_keeps ..) rfl ?_
        assumption

theorem State.applyFormat_keeps (s : State) (c : HostCmd) :
    Keeps [.events, .regs, .decode, .mem, .host, .out] s (State.applyFormat s c) := by
  unfold State.applyFormat
  split
  · extract_lets +onlyGivenNames z1
    refine Keeps.cut (x := z1) ?_ (fun h2 => ?_)
    · unfold z1
      refine Keeps.step (State.slotState_keeps ..) rfl ?_
      exact Keeps.refl _ _
    clear_value z1
    split
    · assumption
    · refine Keeps.step (State.modPlace_keeps ..) rfl ?_
      assumption
  · extract_lets +onlyGivenNames z3
    refine Keeps.cut (x := z3) ?_ (fun h4 => ?_)
    · unfold z3
      refine Keeps.step (State.modPlace_keeps ..) rfl ?_
      exact Keeps.refl _ _
    clear_value z3
    split
    · refine Keeps.step (State.conclude_keeps ..) rfl ?_
      assumption
    · refine Keeps.step (State.entryBatch_keeps ..) rfl ?_
      assumption

end Sys2Proof.Machine
end

