-- ==== Sys2Proof/Laws/KeepsJournal.lean ====
section
/-!
SUPPORT. Laws/KeepsJournal.lean: which parts of a state each operation of Machine/Journal.lean may change, and that it keeps a sound
state sound.
-/

namespace Sys2Proof.Machine

theorem execSeal_keeps (count : Fin 65536) (s : State) :
    KeepsR [.events, .regs, .mem, .host, .out] s (execSeal count s) := by
  unfold execSeal
  extract_lets +onlyGivenNames z1
  split
  · refine KeepsR.next ?_
    exact Keeps.refl _ _
  · refine KeepsR.when ?_ ?_
    · exact Keeps.refl _ _
    · extract_lets +onlyGivenNames z2
      extract_lets +onlyGivenNames z3
      refine Keeps.cut (x := z3) ?_ (fun h4 => ?_)
      · unfold z3
        refine Keeps.step (State.linkFrames_keeps ..) rfl ?_
        exact Keeps.refl _ _
      clear_value z3
      extract_lets +onlyGivenNames z5
      refine Keeps.cut (x := z5) ?_ (fun h6 => ?_)
      · unfold z5
        refine Keeps.step (State.putBatch_keeps ..) rfl ?_
        assumption
      clear_value z5
      refine Keeps.step (State.modPlace_keeps ..) rfl ?_
      assumption

theorem State.putRecords_keeps (s : State) (chain fuel seq : Nat) (l : List (Nat × Nat)) :
    Keeps [.events, .regs, .mem, .out] s (s.putRecords chain fuel seq l).2 := by
  induction fuel generalizing s seq l with
  | zero =>
    rw [State.putRecords]
    refine Keeps.ofMk ?_
    exact Keeps.refl _ _
  | succ fuel ih =>
    rw [State.putRecords]
    split
    · refine Keeps.ofMk ?_
      refine Keeps.step (State.memWrite_keeps ..) rfl ?_
      exact Keeps.refl _ _
    · refine Keeps.step (ih ..) rfl ?_
      refine Keeps.step (State.memWrite_keeps ..) rfl ?_
      exact Keeps.refl _ _

theorem State.buildChain_keeps (s : State) (entries : List (ℕ × ℕ)) (frames : List ℕ) (batch : Option ℕ) :
    Keeps [.events, .regs, .mem, .host, .out] s (State.buildChain s entries frames batch).2.2 := by
  unfold State.buildChain
  extract_lets +onlyGivenNames z1
  split
  rename_i a2 a3 a4 a5
  refine Keeps.ofMkSnd ?_
  refine Keeps.ofMk ?_
  refine Keeps.step (State.modPlace_keeps ..) rfl ?_
  refine Keeps.ofSnd a5 ?_
  refine Keeps.step (State.putRecords_keeps ..) rfl ?_
  exact Keeps.refl _ _

theorem State.ringFull_keeps (s : State) :
    Keeps [.events, .regs] s (State.ringFull s) := by
  unfold State.ringFull
  split
  · exact Keeps.refl _ _
  · refine Keeps.step (State.logPlace_keeps ..) rfl ?_
    refine Keeps.step (State.setFld_keeps ..) rfl ?_
    exact Keeps.refl _ _

theorem State.buildBatch_keeps (s : State) (b : ℕ) :
    Keeps [.events, .regs, .mem, .host, .out] s (State.buildBatch s b).2 := by
  unfold State.buildBatch
  extract_lets +onlyGivenNames z1
  split
  · refine Keeps.ofMk ?_
    refine Keeps.step (State.ringFull_keeps ..) rfl ?_
    exact Keeps.refl _ _
  · split
    rename_i a2 a3 a4 a5 a6 a7
    extract_lets +onlyGivenNames z8
    refine Keeps.cut (x := z8) ?_ (fun h9 => ?_)
    · unfold z8
      refine Keeps.step (State.plPut_keeps ..) rfl ?_
      refine Keeps.step (State.plPut_keeps ..) rfl ?_
      refine Keeps.ofThird a7 ?_
      refine Keeps.step (State.buildChain_keeps ..) rfl ?_
      exact Keeps.refl _ _
    clear_value z8
    refine Keeps.ofMk ?_
    split
    · refine Keeps.step (State.ringFull_keeps ..) rfl ?_
      assumption
    · assumption

theorem State.buildWaiting_keeps (s : State) (k : Nat) :
    Keeps [.events, .regs, .mem, .host, .out] s (s.buildWaiting k) := by
  induction k generalizing s with
  | zero =>
    rw [State.buildWaiting]
    exact Keeps.refl _ _
  | succ k ih =>
    rw [State.buildWaiting]
    split
    · exact Keeps.refl _ _
    · split
      · rename_i a1 a2 a3 a4 a5 a6 a7
        refine Keeps.step (ih ..) rfl ?_
        refine Keeps.step (State.modPlace_keeps ..) rfl ?_
        refine Keeps.ofSnd a7 ?_
        refine Keeps.step (State.buildBatch_keeps ..) rfl ?_
        exact Keeps.refl _ _
      · rename_i a8 a9 a10 a11 a12 a13 a14
        refine Keeps.ofSnd a14 ?_
        refine Keeps.step (State.buildBatch_keeps ..) rfl ?_
        exact Keeps.refl _ _

theorem State.refuseCommit_keeps (s : State) (b : ℕ) (st : ℕ) (first : ℕ) :
    Keeps [.events, .regs, .mem, .out] s (State.refuseCommit s b st first) := by
  unfold State.refuseCommit
  refine Keeps.step (State.logPlace_keeps ..) rfl ?_
  refine Keeps.step (State.plPut_keeps ..) rfl ?_
  refine Keeps.step (State.setBatState_keeps ..) rfl ?_
  exact Keeps.refl _ _

theorem execCommit_keeps (batch : Fin 256) (s : State) :
    KeepsR [.events, .regs, .mem, .host, .out] s (execCommit batch s) := by
  unfold execCommit
  extract_lets +onlyGivenNames z1
  refine KeepsR.when ?_ ?_
  · exact Keeps.refl _ _
  · extract_lets +onlyGivenNames z2
    split
    · refine Keeps.step (State.refuseCommit_keeps ..) rfl ?_
      exact Keeps.refl _ _
    · extract_lets +onlyGivenNames z3
      refine Keeps.cut (x := z3) ?_ (fun h4 => ?_)
      · unfold z3
        refine Keeps.step (State.plPut_keeps ..) rfl ?_
        refine Keeps.step (State.setBatState_keeps ..) rfl ?_
        exact Keeps.refl _ _
      clear_value z3
      extract_lets +onlyGivenNames z5
      refine Keeps.cut (x := z5) ?_ (fun h6 => ?_)
      · unfold z5
        refine Keeps.step (State.modPlace_keeps ..) rfl ?_
        assumption
      clear_value z5
      refine Keeps.step (State.buildWaiting_keeps ..) rfl ?_
      assumption

theorem execAbandon_keeps (batch : Fin 256) (s : State) :
    KeepsR [.events, .regs, .mem, .host, .out] s (execAbandon batch s) := by
  unfold execAbandon
  extract_lets +onlyGivenNames z1
  split
  · refine KeepsR.next ?_
    exact Keeps.refl _ _
  · refine KeepsR.when ?_ ?_
    · exact Keeps.refl _ _
    · extract_lets +onlyGivenNames z2
      refine Keeps.cut (x := z2) ?_ (fun h3 => ?_)
      · unfold z2
        refine Keeps.foldl ?_ (fun _ _ _ => ?_)
        · exact Keeps.refl _ _
        · refine Keeps.step (State.setFrBatch_keeps ..) rfl ?_
          refine Keeps.step (State.setFrState_keeps ..) rfl ?_
          assumption
      clear_value z2
      extract_lets +onlyGivenNames z4
      refine Keeps.cut (x := z4) ?_ (fun h5 => ?_)
      · unfold z4
        refine Keeps.step (State.setBatState_keeps ..) rfl ?_
        assumption
      clear_value z4
      refine Keeps.step (State.modPlace_keeps ..) rfl ?_
      assumption

theorem execSplitCommit_keeps (batch : Fin 256) (count : Fin 65536) (s : State) :
    KeepsR [.events, .regs, .mem, .host, .out] s (execSplitCommit batch count s) := by
  unfold execSplitCommit
  extract_lets +onlyGivenNames z1
  extract_lets +onlyGivenNames z2
  extract_lets +onlyGivenNames z3
  extract_lets +onlyGivenNames z4
  extract_lets +onlyGivenNames z5
  refine KeepsR.when ?_ ?_
  · exact Keeps.refl _ _
  · split
    · refine Keeps.step (State.refuseCommit_keeps ..) rfl ?_
      exact Keeps.refl _ _
    · split
      · extract_lets +onlyGivenNames z6
        refine Keeps.cut (x := z6) ?_ (fun h7 => ?_)
        · unfold z6
          refine Keeps.step (State.plPut_keeps ..) rfl ?_
          refine Keeps.step (State.setBatState_keeps ..) rfl ?_
          exact Keeps.refl _ _
        clear_value z6
        extract_lets +onlyGivenNames z8
        refine Keeps.cut (x := z8) ?_ (fun h9 => ?_)
        · unfold z8
          refine Keeps.step (State.modPlace_keeps ..) rfl ?_
          assumption
        clear_value z8
        refine Keeps.step (State.buildWaiting_keeps ..) rfl ?_
        assumption
      · extract_lets +onlyGivenNames z10
        split
        · refine Keeps.step (State.ringFull_keeps ..) rfl ?_
          exact Keeps.refl _ _
        · split
          rename_i a11 a12 a13 a14 a15 a16 a17 a18 a19
          extract_lets +onlyGivenNames z20
          refine Keeps.cut (x := z20) ?_ (fun h21 => ?_)
          · unfold z20
            refine Keeps.step (State.plPut_keeps ..) rfl ?_
            refine Keeps.step (State.plPut_keeps ..) rfl ?_
            refine Keeps.ofThird a19 ?_
            refine Keeps.step (State.buildChain_keeps ..) rfl ?_
            exact Keeps.refl _ _
          clear_value z20
          refine Keeps.step (State.setBatState_keeps ..) rfl ?_
          assumption

theorem State.validUp_keeps (s : State) (e : ℕ) :
    Keeps [.events, .regs, .mem, .out] s (State.validUp s e) := by
  unfold State.validUp
  extract_lets +onlyGivenNames z1
  refine Keeps.step (State.plPut_keeps ..) rfl ?_
  exact Keeps.refl _ _

theorem State.validDown_keeps (s : State) (e : ℕ) :
    Keeps [.events, .regs, .mem, .out] s (State.validDown s e) := by
  unfold State.validDown
  extract_lets +onlyGivenNames z1
  refine Keeps.step (State.plPut_keeps ..) rfl ?_
  exact Keeps.refl _ _

theorem State.leavePlace_keeps (s : State) (e : ℕ) :
    Keeps [.events, .regs, .mem, .out] s (State.leavePlace s e) := by
  unfold State.leavePlace
  extract_lets +onlyGivenNames z1
  split
  · refine Keeps.step (State.validDown_keeps ..) rfl ?_
    exact Keeps.refl _ _
  · exact Keeps.refl _ _

theorem State.applySet_keeps (s : State) (frames : List ℕ) (k : ℕ) (v : ℕ) :
    Keeps [.events, .regs, .mem, .host, .out] s (State.applySet s frames k v) := by
  unfold State.applySet
  split
  · exact Keeps.refl _ _
  · extract_lets +onlyGivenNames z1
    refine Keeps.cut (x := z1) ?_ (fun h2 => ?_)
    · unfold z1
      refine Keeps.step (State.leavePlace_keeps ..) rfl ?_
      exact Keeps.refl _ _
    clear_value z1
    extract_lets +onlyGivenNames z3
    refine Keeps.cut (x := z3) ?_ (fun h4 => ?_)
    · unfold z3
      split
      · refine Keeps.step (State.validUp_keeps ..) rfl ?_
        assumption
      · assumption
    clear_value z3
    split
    · extract_lets +onlyGivenNames z5
      extract_lets +onlyGivenNames z6
      refine Keeps.cut (x := z6) ?_ (fun h7 => ?_)
      · unfold z6
        refine Keeps.step (State.putMapEntry_keeps ..) rfl ?_
        assumption
      clear_value z6
      extract_lets +onlyGivenNames z8
      refine Keeps.cut (x := z8) ?_ (fun h9 => ?_)
      · unfold z8
        refine Keeps.step (State.setFrBatch_keeps ..) rfl ?_
        refine Keeps.step (State.setFrState_keeps ..) rfl ?_
        assumption
      clear_value z8
      refine Keeps.step (State.modPlace_keeps ..) rfl ?_
      assumption
    · refine Keeps.step (State.putMapEntry_keeps ..) rfl ?_
      assumption

theorem State.applyTrims_keeps (s : State) (idx : ℕ) (g : ℕ) (n : ℕ) :
    Keeps [.events, .regs, .mem, .out] s (State.applyTrims s idx g n) := by
  unfold State.applyTrims
  refine Keeps.foldl ?_ (fun _ _ _ => ?_)
  · exact Keeps.refl _ _
  · split
    · rename_i a1 a2 a3 a4 a5 a6
      refine Keeps.step (State.putMapEntry_keeps ..) rfl ?_
      refine Keeps.step (State.leavePlace_keeps ..) rfl ?_
      assumption
    · rename_i a7 a8 a9 a10 a11
      assumption

theorem State.applyMove_keeps (s : State) (k : ℕ) (v : ℕ) :
    Keeps [.events, .regs, .mem, .out] s (State.applyMove s k v) := by
  unfold State.applyMove
  split
  · exact Keeps.refl _ _
  · split
    · refine Keeps.step (State.putMapEntry_keeps ..) rfl ?_
      refine Keeps.step (State.validUp_keeps ..) rfl ?_
      refine Keeps.step (State.validDown_keeps ..) rfl ?_
      exact Keeps.refl _ _
    · exact Keeps.refl _ _

theorem State.putDirectory_keeps (s : State) (idx : ℕ) :
    Keeps [.events, .regs, .mem, .out] s (State.putDirectory s idx) := by
  unfold State.putDirectory
  split
  · refine Keeps.step (State.memWrite_keeps ..) rfl ?_
    exact Keeps.refl _ _
  · refine Keeps.step (State.memWrite_keeps ..) rfl ?_
    exact Keeps.refl _ _

theorem State.applyNsop_keeps (s : State) (size : Option ℕ) (idx : ℕ) (v : ℕ) :
    Keeps [.events, .regs, .decode, .mem, .host, .out] s (State.applyNsop s size idx v) := by
  unfold State.applyNsop
  extract_lets +onlyGivenNames z1
  extract_lets +onlyGivenNames z2
  extract_lets +onlyGivenNames z3
  split
  · split
    · exact Keeps.refl _ _
    · extract_lets +onlyGivenNames z4
      extract_lets +onlyGivenNames z5
      refine Keeps.cut (x := z5) ?_ (fun h6 => ?_)
      · unfold z5
        refine Keeps.step (State.putDirectory_keeps ..) rfl ?_
        refine Keeps.step (State.setNamespace_keeps ..) rfl ?_
        exact Keeps.refl _ _
      clear_value z5
      refine Keeps.step (State.nsChanged_keeps ..) rfl ?_
      refine Keeps.foldl ?_ (fun _ _ _ => ?_)
      · assumption
      · refine Keeps.step (State.plPut_keeps ..) rfl ?_
        assumption
  · split
    · exact Keeps.refl _ _
    · refine Keeps.step (State.nsChanged_keeps ..) rfl ?_
      refine Keeps.step (State.putDirectory_keeps ..) rfl ?_
      refine Keeps.step (State.setNamespace_keeps ..) rfl ?_
      refine Keeps.step (State.applyTrims_keeps ..) rfl ?_
      exact Keeps.refl _ _
  · split
    · exact Keeps.refl _ _
    · extract_lets +onlyGivenNames z7
      refine Keeps.cut (x := z7) ?_ (fun h8 => ?_)
      · unfold z7
        refine Keeps.step (State.applyTrims_keeps ..) rfl ?_
        exact Keeps.refl _ _
      clear_value z7
      refine Keeps.step (State.nsChanged_keeps ..) rfl ?_
      refine Keeps.step (State.putDirectory_keeps ..) rfl ?_
      refine Keeps.step (State.setNamespace_keeps ..) rfl ?_
      assumption
  · exact Keeps.refl _ _

theorem State.applyEntry_keeps (s : State) (frames : List ℕ) (size : Option ℕ) (e : ℕ × ℕ) :
    Keeps [.events, .regs, .decode, .mem, .host, .out] s (State.applyEntry s frames size e) := by
  unfold State.applyEntry
  split
  · refine Keeps.step (State.applySet_keeps ..) rfl ?_
    exact Keeps.refl _ _
  · refine Keeps.step (State.applyTrims_keeps ..) rfl ?_
    exact Keeps.refl _ _
  · refine Keeps.step (State.applyMove_keeps ..) rfl ?_
    exact Keeps.refl _ _
  · refine Keeps.step (State.applyNsop_keeps ..) rfl ?_
    exact Keeps.refl _ _
  · refine Keeps.step (State.modPlace_keeps ..) rfl ?_
    exact Keeps.refl _ _

theorem State.settleFrame_keeps (s : State) (f : ℕ) :
    Keeps [.events, .regs, .mem, .host, .out] s (State.settleFrame s f) := by
  unfold State.settleFrame
  split
  · exact Keeps.refl _ _
  · split
    · refine Keeps.step (State.freeFrame_keeps ..) rfl ?_
      exact Keeps.refl _ _
    · refine Keeps.step (State.setFrBatch_keeps ..) rfl ?_
      refine Keeps.step (State.setFrState_keeps ..) rfl ?_
      exact Keeps.refl _ _

theorem State.endTracks_keeps (s : State) (frames : List ℕ) (batch : Option ℕ) :
    Keeps [.decode, .host] s (State.endTracks s frames batch) := by
  unfold State.endTracks
  extract_lets +onlyGivenNames z1
  refine Keeps.cut (x := z1) ?_ (fun h2 => ?_)
  · unfold z1
    refine Keeps.step (State.modPlace_keeps ..) rfl ?_
    exact Keeps.refl _ _
  clear_value z1
  extract_lets +onlyGivenNames z3
  extract_lets +onlyGivenNames z4
  refine Keeps.cut (x := z4) ?_ (fun h5 => ?_)
  · unfold z4
    refine Keeps.step (State.modPlace_keeps ..) rfl ?_
    assumption
  clear_value z4
  extract_lets +onlyGivenNames z6
  refine Keeps.cut (x := z6) ?_ (fun h7 => ?_)
  · unfold z6
    refine Keeps.foldl ?_ (fun _ _ _ => ?_)
    · assumption
    · split
      · rename_i a8 a9 a10 a11 a12 a13
        refine Keeps.step (State.conclude_keeps ..) rfl ?_
        assumption
      · rename_i a14 a15 a16 a17 a18
        assumption
  clear_value z6
  refine Keeps.step (State.decideFlushes_keeps ..) rfl ?_
  assumption

theorem State.applyChain_keeps (s : State) (first : ℕ) (last : ℕ) :
    Keeps [.events, .regs, .decode, .mem, .host, .out] s (State.applyChain s first last) := by
  unfold State.applyChain
  extract_lets +onlyGivenNames z1
  extract_lets +onlyGivenNames z2
  extract_lets +onlyGivenNames z3
  extract_lets +onlyGivenNames z4
  extract_lets +onlyGivenNames z5
  extract_lets +onlyGivenNames z6
  refine Keeps.cut (x := z6) ?_ (fun h7 => ?_)
  · unfold z6
    refine Keeps.foldl ?_ (fun _ _ _ => ?_)
    · exact Keeps.refl _ _
    · refine Keeps.step (State.applyEntry_keeps ..) rfl ?_
      assumption
  clear_value z6
  extract_lets +onlyGivenNames z8
  refine Keeps.cut (x := z8) ?_ (fun h9 => ?_)
  · unfold z8
    refine Keeps.foldl ?_ (fun _ _ _ => ?_)
    · assumption
    · refine Keeps.step (State.settleFrame_keeps ..) rfl ?_
      assumption
  clear_value z8
  extract_lets +onlyGivenNames z10
  refine Keeps.cut (x := z10) ?_ (fun h11 => ?_)
  · unfold z10
    clear_value z3
    split
    · refine Keeps.step (State.setBatState_keeps ..) rfl ?_
      assumption
    · assumption
  clear_value z10
  extract_lets +onlyGivenNames z12
  refine Keeps.cut (x := z12) ?_ (fun h13 => ?_)
  · unfold z12
    refine Keeps.step (State.modPlace_keeps ..) rfl ?_
    assumption
  clear_value z12
  refine Keeps.step (State.endTracks_keeps ..) rfl ?_
  assumption

theorem State.readDirectory_keeps (s : State) :
    Keeps [.host] s (State.readDirectory s) := by
  unfold State.readDirectory
  refine Keeps.foldl ?_ (fun _ _ _ => ?_)
  · exact Keeps.refl _ _
  · extract_lets +onlyGivenNames z1
    extract_lets +onlyGivenNames z2
    split
    · rename_i a3 a4 a5 a6 a7 a8
      split
      · refine Keeps.step (State.setNamespace_keeps ..) rfl ?_
        assumption
      · refine Keeps.step (State.setNamespace_keeps ..) rfl ?_
        assumption
    · rename_i a9 a10 a11 a12 a13
      split
      · assumption
      · refine Keeps.step (State.setNamespace_keeps ..) rfl ?_
        assumption

theorem execChainApply_keeps (s : State) :
    KeepsR [.events, .regs, .heads, .decode, .mem, .host, .out] s (execChainApply s) := by
  unfold execChainApply
  extract_lets +onlyGivenNames z1
  extract_lets +onlyGivenNames z2
  split
  · extract_lets +onlyGivenNames z3
    refine KeepsR.when ?_ ?_
    · exact Keeps.refl _ _
    · extract_lets +onlyGivenNames z4
      refine Keeps.cut (x := z4) ?_ (fun h5 => ?_)
      · unfold z4
        split
        · refine Keeps.step (State.readDirectory_keeps ..) rfl ?_
          exact Keeps.refl _ _
        · exact Keeps.refl _ _
      clear_value z4
      split
      · assumption
      · refine Keeps.step (State.modPlace_keeps ..) rfl ?_
        assumption
      · refine Keeps.step (State.advanceShutdown_keeps ..) rfl ?_
        refine Keeps.step (State.applyChain_keeps ..) rfl ?_
        assumption
  · split
    · refine KeepsR.next ?_
      exact Keeps.refl _ _
    · refine KeepsR.when ?_ ?_
      · exact Keeps.refl _ _
      · refine Keeps.step (State.advanceShutdown_keeps ..) rfl ?_
        refine Keeps.step (State.applyChain_keeps ..) rfl ?_
        exact Keeps.refl _ _

theorem execJournalDurable_keeps (seq : ℕ) (s : State) :
    KeepsR [.events, .regs, .mem, .host, .out] s (execJournalDurable seq s) := by
  unfold execJournalDurable
  extract_lets +onlyGivenNames z1
  refine KeepsR.when ?_ ?_
  · exact Keeps.refl _ _
  · extract_lets +onlyGivenNames z2
    refine Keeps.cut (x := z2) ?_ (fun h3 => ?_)
    · unfold z2
      refine Keeps.step (State.setPair_keeps ..) rfl ?_
      exact Keeps.refl _ _
    clear_value z2
    extract_lets +onlyGivenNames z4
    refine Keeps.cut (x := z4) ?_ (fun h5 => ?_)
    · unfold z4
      split
      · refine Keeps.step (State.setFld_keeps ..) rfl ?_
        assumption
      · assumption
    clear_value z4
    refine Keeps.step (State.buildWaiting_keeps ..) rfl ?_
    assumption

theorem execDeferredApply_keeps (s : State) :
    KeepsR [.events, .regs, .decode, .mem, .host, .out] s (execDeferredApply s) := by
  unfold execDeferredApply
  split
  · refine KeepsR.next ?_
    exact Keeps.refl _ _
  · refine KeepsR.next ?_
    split
    · refine Keeps.step (State.applyWrite_keeps ..) rfl ?_
      exact Keeps.refl _ _
    · refine Keeps.step (State.applyTrim_keeps ..) rfl ?_
      exact Keeps.refl _ _
    · refine Keeps.step (State.applyFormat_keeps ..) rfl ?_
      exact Keeps.refl _ _

theorem State.setAllNs_keeps (s : State) (f : Namespace → ℕ) :
    Keeps [.events, .decode, .host] s (State.setAllNs s f) := by
  unfold State.setAllNs
  refine Keeps.foldl ?_ (fun _ _ _ => ?_)
  · exact Keeps.refl _ _
  · split
    · rename_i a1 a2 a3 a4 a5 a6
      refine Keeps.step (State.setNsState_keeps ..) rfl ?_
      assumption
    · rename_i a7 a8 a9 a10 a11
      assumption

theorem execJournalReplayStart_keeps (s : State) :
    KeepsR [.events, .regs, .decode, .mem, .host, .out] s (execJournalReplayStart s) := by
  unfold execJournalReplayStart
  extract_lets +onlyGivenNames z1
  refine KeepsR.cut (x := z1) ?_ (fun h2 => ?_)
  · unfold z1
    refine Keeps.foldl ?_ (fun _ _ _ => ?_)
    · exact Keeps.refl _ _
    · refine Keeps.step (State.plPut_keeps ..) rfl ?_
      assumption
  clear_value z1
  extract_lets +onlyGivenNames z3
  refine KeepsR.cut (x := z3) ?_ (fun h4 => ?_)
  · unfold z3
    refine Keeps.step (State.setFld_keeps ..) rfl ?_
    refine Keeps.step (State.setPair_keeps ..) rfl ?_
    assumption
  clear_value z3
  extract_lets +onlyGivenNames z5
  refine KeepsR.cut (x := z5) ?_ (fun h6 => ?_)
  · unfold z5
    refine Keeps.step (State.setFld_keeps ..) rfl ?_
    assumption
  clear_value z5
  extract_lets +onlyGivenNames z7
  refine KeepsR.cut (x := z7) ?_ (fun h8 => ?_)
  · unfold z7
    refine Keeps.step (State.modPlace_keeps ..) rfl ?_
    assumption
  clear_value z7
  refine KeepsR.next ?_
  refine Keeps.step (State.setAllNs_keeps ..) rfl ?_
  assumption

theorem execReplayEnd_keeps (s : State) :
    KeepsR [.events, .regs, .decode, .host] s (execReplayEnd s) := by
  unfold execReplayEnd
  refine KeepsR.when ?_ ?_
  · exact Keeps.refl _ _
  · extract_lets +onlyGivenNames z1
    refine Keeps.cut (x := z1) ?_ (fun h2 => ?_)
    · unfold z1
      refine Keeps.step (State.setFld_keeps ..) rfl ?_
      exact Keeps.refl _ _
    clear_value z1
    extract_lets +onlyGivenNames z3
    extract_lets +onlyGivenNames z4
    refine Keeps.cut (x := z4) ?_ (fun h5 => ?_)
    · unfold z4
      refine Keeps.step (State.modPlace_keeps ..) rfl ?_
      assumption
    clear_value z4
    extract_lets +onlyGivenNames z6
    refine Keeps.step (State.setAllNs_keeps ..) rfl ?_
    refine Keeps.step (State.readDirectory_keeps ..) rfl ?_
    assumption

theorem State.discardApplies_keeps (s : State) (gone : List HostCmd) :
    Keeps [.events, .regs, .mem, .host, .out] s (State.discardApplies s gone) := by
  unfold State.discardApplies
  extract_lets +onlyGivenNames z1
  extract_lets +onlyGivenNames z2
  refine Keeps.cut (x := z2) ?_ (fun h3 => ?_)
  · unfold z2
    refine Keeps.step (State.modPlace_keeps ..) rfl ?_
    exact Keeps.refl _ _
  clear_value z2
  extract_lets +onlyGivenNames z4
  refine Keeps.foldl ?_ (fun _ _ _ => ?_)
  · assumption
  · split
    · rename_i a5 a6 a7 a8 a9
      assumption
    · rename_i a10 a11 a12 a13 a14 a15
      split
      · assumption
      · extract_lets +onlyGivenNames z16
        refine Keeps.cut (x := z16) ?_ (fun h17 => ?_)
        · unfold z16
          refine Keeps.foldl ?_ (fun _ _ _ => ?_)
          · assumption
          · extract_lets +onlyGivenNames z18
            split
            · rename_i a19 a20 a21 a22 a23 a24 a25
              refine Keeps.step (State.freeFrame_keeps ..) rfl ?_
              refine Keeps.step (State.putMapEntry_keeps ..) rfl ?_
              assumption
            · rename_i a26 a27 a28 a29 a30 a31
              refine Keeps.step (State.freeFrame_keeps ..) rfl ?_
              assumption
        clear_value z16
        refine Keeps.step (State.modPlace_keeps ..) rfl ?_
        refine Keeps.step (State.setBatState_keeps ..) rfl ?_
        assumption

theorem State.transfer_keeps (s : State) (b : Fin 24) (fn : ℕ) (src : ℕ) (dst : ℕ) (len : ℕ) (pattern : ℕ) :
    Keeps [.events, .regs, .seq, .mem, .out] s (State.transfer s b fn src dst len pattern).2.2 := by
  unfold State.transfer
  extract_lets +onlyGivenNames z1
  extract_lets +onlyGivenNames z2
  extract_lets +onlyGivenNames z3
  split
  · refine Keeps.ofMkSnd ?_
    refine Keeps.ofMk ?_
    exact Keeps.refl _ _
  · extract_lets +onlyGivenNames z4
    split
    · extract_lets +onlyGivenNames z5
      refine Keeps.cut (x := z5.st) ?_ (fun h6 => ?_)
      · unfold z5
        refine Keeps.step (State.memRead_keeps ..) rfl ?_
        exact Keeps.refl _ _
      clear_value z5
      split
      · split
        · refine Keeps.ofMkSnd ?_
          refine Keeps.ofMk ?_
          refine Keeps.step (State.spaceWrite_keeps ..) rfl ?_
          assumption
        · refine Keeps.ofMkSnd ?_
          refine Keeps.ofMk ?_
          assumption
      · refine Keeps.ofMkSnd ?_
        refine Keeps.ofMk ?_
        assumption
    · split
      · refine Keeps.ofMkSnd ?_
        refine Keeps.ofMk ?_
        refine Keeps.step (State.memWrite_keeps ..) rfl ?_
        exact Keeps.refl _ _
      · refine Keeps.ofMkSnd ?_
        refine Keeps.ofMk ?_
        exact Keeps.refl _ _
    · extract_lets +onlyGivenNames z7
      refine Keeps.cut (x := z7.st) ?_ (fun h8 => ?_)
      · unfold z7
        refine Keeps.step (State.memRead_keeps ..) rfl ?_
        exact Keeps.refl _ _
      clear_value z7
      split
      · refine Keeps.ofMkSnd ?_
        refine Keeps.ofMk ?_
        refine Keeps.step (State.memWrite_keeps ..) rfl ?_
        assumption
      · refine Keeps.ofMkSnd ?_
        refine Keeps.ofMk ?_
        assumption
    · refine Keeps.ofMkSnd ?_
      refine Keeps.ofMk ?_
      refine Keeps.step (State.memWrite_keeps ..) rfl ?_
      exact Keeps.refl _ _

theorem execMmXfer_keeps (b : Fin 24) (u : Upset) (s : State) :
    KeepsR [.events, .regs, .seq, .mem, .out] s (execMmXfer b u s) := by
  unfold execMmXfer
  refine State.issue_keeps ?_ ?_ ?_
  · exact rfl
  · intro y1 y2 y3
    refine State.famChecks_keeps ?_
    split
    · exact KeepsE.error
    · refine KeepsE.bind (fun _ => ?_)
      extract_lets +onlyGivenNames z4
      split
      · exact KeepsE.error
      · refine State.async_keeps ?_ ?_ ?_
        · exact rfl
        · intro y5 y6 y7
          split
          rename_i a8 a9 a10 a11 a12 a13 a14 a15
          refine Keeps.step (State.complete_keeps ..) rfl ?_
          refine Keeps.ofThird a15 ?_
          refine Keeps.step (State.transfer_keeps ..) rfl ?_
          assumption
        · assumption
  · exact Keeps.refl _ _

end Sys2Proof.Machine
end

