-- ==== Sys2Proof/Laws/KeepsHostIo.lean ====
section
/-!
SUPPORT. Laws/KeepsHostIo.lean: which parts of a state each operation of Machine/HostIo.lean may change, and that it keeps a sound
state sound.
-/

namespace Sys2Proof.Machine

theorem State.modSq_keeps (s : State) (fn : ℕ) (qid : ℕ) (f : SubQ → SubQ) :
    Keeps [.host] s (State.modSq s fn qid f) := by
  unfold State.modSq
  refine Keeps.step (State.modHost_keeps ..) rfl ?_
  exact Keeps.refl _ _

theorem State.modCq_keeps (s : State) (fn : ℕ) (qid : ℕ) (f : CmpQ → CmpQ) :
    Keeps [.host] s (State.modCq s fn qid f) := by
  unfold State.modCq
  refine Keeps.step (State.modHost_keeps ..) rfl ?_
  exact Keeps.refl _ _

theorem execSqTailDoorbell_keeps (fn : Fin 2) (qid : ℕ) (tail : ℕ) (s : State) :
    KeepsR [.host] s (execSqTailDoorbell fn qid tail s) := by
  unfold execSqTailDoorbell
  refine KeepsR.when ?_ ?_
  · exact Keeps.refl _ _
  · refine Keeps.step (State.modSq_keeps ..) rfl ?_
    exact Keeps.refl _ _

theorem execCqHeadDoorbell_keeps (fn : Fin 2) (qid : ℕ) (head : ℕ) (s : State) :
    KeepsR [.host] s (execCqHeadDoorbell fn qid head s) := by
  unfold execCqHeadDoorbell
  refine KeepsR.when ?_ ?_
  · exact Keeps.refl _ _
  · refine Keeps.step (State.modCq_keeps ..) rfl ?_
    exact Keeps.refl _ _

theorem execWriteDataArrived_keeps (slot : Fin 8192) (data : List Byte) (s : State) :
    KeepsR [.events, .regs, .mem, .host, .out] s (execWriteDataArrived slot data s) := by
  unfold execWriteDataArrived
  split
  · refine KeepsR.next ?_
    exact Keeps.refl _ _
  · extract_lets +onlyGivenNames z1
    refine KeepsR.when ?_ ?_
    · exact Keeps.refl _ _
    · refine Keeps.step (State.modCmd_keeps ..) rfl ?_
      refine Keeps.step (State.memWrite_keeps ..) rfl ?_
      exact Keeps.refl _ _

theorem execRangeLockGrant_keeps (slot : Fin 8192) (idx : ℕ) (s : State) :
    KeepsR [.host] s (execRangeLockGrant slot idx s) := by
  unfold execRangeLockGrant
  split
  · extract_lets +onlyGivenNames z1
    refine KeepsR.when ?_ ?_
    · exact Keeps.refl _ _
    · refine Keeps.step (State.modHost_keeps ..) rfl ?_
      exact Keeps.refl _ _
  · refine KeepsR.next ?_
    exact Keeps.refl _ _

theorem State.claimFor_keeps (s : State) (c : HostCmd) :
    Keeps [.events, .regs, .heads, .decode, .mem, .out] s (State.claimFor s c) := by
  unfold State.claimFor
  split
  refine Keeps.foldl ?_ (fun _ _ _ => ?_)
  · exact Keeps.refl _ _
  · extract_lets +onlyGivenNames z1
    split
    · rename_i a2 a3 a4 a5 a6 a7 a8 a9
      split
      · refine Keeps.step (State.claimBand_keeps ..) rfl ?_
        assumption
      · assumption
    · rename_i a10 a11 a12 a13 a14 a15 a16 a17
      assumption

theorem execWorkOrderIssue_keeps (slot : Fin 8192) (s : State) :
    KeepsR [.events, .regs, .heads, .decode, .seq, .mem, .host, .sec, .out] s (execWorkOrderIssue slot s) := by
  unfold execWorkOrderIssue
  split
  · refine KeepsR.next ?_
    exact Keeps.refl _ _
  · refine KeepsR.when ?_ ?_
    · exact Keeps.refl _ _
    · split
      rename_i a1 a2 a3 a4 a5 a6 a7
      split
      · refine Keeps.step (State.endCommand_keeps ..) rfl ?_
        refine Keeps.ofSnd a7 ?_
        split
        · refine Keeps.step (State.writeSlotRecord_keeps ..) rfl ?_
          exact Keeps.refl _ _
        · refine Keeps.ofMk ?_
          exact Keeps.refl _ _
      · extract_lets +onlyGivenNames z8
        refine Keeps.cut (x := z8) ?_ (fun h9 => ?_)
        · unfold z8
          split
          · refine Keeps.step (State.claimFor_keeps ..) rfl ?_
            refine Keeps.ofSnd a7 ?_
            split
            · refine Keeps.step (State.writeSlotRecord_keeps ..) rfl ?_
              exact Keeps.refl _ _
            · refine Keeps.ofMk ?_
              exact Keeps.refl _ _
          · refine Keeps.ofSnd a7 ?_
            split
            · refine Keeps.step (State.writeSlotRecord_keeps ..) rfl ?_
              exact Keeps.refl _ _
            · refine Keeps.ofMk ?_
              exact Keeps.refl _ _
        clear_value z8
        refine Keeps.step (State.announceOrders_keeps ..) rfl ?_
        refine Keeps.step (State.modCmd_keeps ..) rfl ?_
        assumption

theorem execWoGet_keeps (b : Fin 24) (u : Upset) (s : State) :
    KeepsR [.events, .regs, .seq, .host] s (execWoGet b u s) := by
  unfold execWoGet
  refine State.issue_keeps ?_ ?_ ?_
  · exact rfl
  · intro y1 y2 y3
    refine State.famChecks_keeps ?_
    refine KeepsE.bind (fun _ => ?_)
    split
    · extract_lets +onlyGivenNames z4
      refine KeepsE.cut (x := z4) ?_ (fun h5 => ?_)
      · unfold z4
        refine Keeps.step (State.setP_keeps ..) rfl ?_
        refine Keeps.step (State.spaceWrite_keeps ..) rfl ?_
        assumption
      clear_value z4
      refine KeepsE.ok ?_
      refine Keeps.step (State.notePause_keeps ..) rfl ?_
      refine Keeps.step (State.modHost_keeps ..) rfl ?_
      assumption
    · split
      · extract_lets +onlyGivenNames z6
        refine KeepsE.cut (x := z6) ?_ (fun h7 => ?_)
        · unfold z6
          refine Keeps.step (State.setP_keeps ..) rfl ?_
          refine Keeps.step (State.spaceWrite_keeps ..) rfl ?_
          assumption
        clear_value z6
        refine KeepsE.ok ?_
        refine Keeps.step (State.modCmd_keeps ..) rfl ?_
        assumption
      · refine KeepsE.ok ?_
        refine Keeps.step (State.modBob_keeps ..) rfl ?_
        refine Keeps.step (State.setP_keeps ..) rfl ?_
        assumption
  · exact Keeps.refl _ _

theorem State.orderSucceeds_keeps (s : State) (c : HostCmd) (dw0 : ℕ) :
    Keeps [.events, .regs, .heads, .decode, .mem, .host, .out] s (State.orderSucceeds s c dw0) := by
  unfold State.orderSucceeds
  extract_lets +onlyGivenNames z1
  refine Keeps.cut (x := z1) ?_ (fun h2 => ?_)
  · unfold z1
    refine Keeps.step (State.modCmd_keeps ..) rfl ?_
    exact Keeps.refl _ _
  clear_value z1
  split
  · refine Keeps.step (State.applyWrite_keeps ..) rfl ?_
    refine Keeps.step (State.modHost_keeps ..) rfl ?_
    assumption
  · refine Keeps.step (State.applyTrim_keeps ..) rfl ?_
    assumption
  · refine Keeps.step (State.applyFormat_keeps ..) rfl ?_
    assumption
  · refine Keeps.step (State.decideFlushes_keeps ..) rfl ?_
    assumption
  · refine Keeps.step (State.conclude_keeps ..) rfl ?_
    refine Keeps.step (State.modHost_keeps ..) rfl ?_
    assumption
  · refine Keeps.step (State.conclude_keeps ..) rfl ?_
    refine Keeps.step (State.raiseAsync_keeps ..) rfl ?_
    refine Keeps.step (State.modHost_keeps ..) rfl ?_
    assumption
  · extract_lets +onlyGivenNames z3
    refine Keeps.cut (x := z3) ?_ (fun h4 => ?_)
    · unfold z3
      refine Keeps.foldl ?_ (fun _ _ _ => ?_)
      · assumption
      · refine Keeps.step (State.discardHeadBands_keeps ..) rfl ?_
        assumption
    clear_value z3
    refine Keeps.step (State.conclude_keeps ..) rfl ?_
    refine Keeps.step (State.raiseAsync_keeps ..) rfl ?_
    refine Keeps.step (State.modHost_keeps ..) rfl ?_
    assumption
  · extract_lets +onlyGivenNames z5
    extract_lets +onlyGivenNames z6
    refine Keeps.cut (x := z6) ?_ (fun h7 => ?_)
    · unfold z6
      split
      · refine Keeps.step (State.modHost_keeps ..) rfl ?_
        assumption
      · assumption
    clear_value z6
    refine Keeps.step (State.conclude_keeps ..) rfl ?_
    assumption
  · refine Keeps.step (State.conclude_keeps ..) rfl ?_
    assumption

theorem State.orderDone_keeps (s : State) (slot : ℕ) (field : ℕ) (dw0 : ℕ) :
    Keeps [.events, .regs, .heads, .decode, .mem, .host, .out] s (State.orderDone s slot field dw0).2 := by
  unfold State.orderDone
  split
  · refine Keeps.ofMk ?_
    exact Keeps.refl _ _
  · extract_lets +onlyGivenNames z1
    split
    · refine Keeps.ofMk ?_
      exact Keeps.refl _ _
    · extract_lets +onlyGivenNames z2
      refine Keeps.cut (x := z2) ?_ (fun h3 => ?_)
      · unfold z2
        refine Keeps.step (State.modCmd_keeps ..) rfl ?_
        exact Keeps.refl _ _
      clear_value z2
      extract_lets +onlyGivenNames z4
      split
      · refine Keeps.ofMk ?_
        refine Keeps.step (State.advanceShutdown_keeps ..) rfl ?_
        refine Keeps.step (State.orderSucceeds_keeps ..) rfl ?_
        assumption
      · extract_lets +onlyGivenNames z5
        refine Keeps.cut (x := z5) ?_ (fun h6 => ?_)
        · unfold z5
          split
          · refine Keeps.step (State.modHost_keeps ..) rfl ?_
            assumption
          · assumption
        clear_value z5
        refine Keeps.ofMk ?_
        refine Keeps.step (State.decideFlushes_keeps ..) rfl ?_
        refine Keeps.step (State.conclude_keeps ..) rfl ?_
        assumption

theorem execWoDone_keeps (b : Fin 24) (u : Upset) (s : State) :
    KeepsR [.events, .regs, .heads, .decode, .seq, .mem, .host, .out] s (execWoDone b u s) := by
  unfold execWoDone
  refine State.issue_keeps ?_ ?_ ?_
  · exact rfl
  · intro y1 y2 y3
    refine State.famChecks_keeps ?_
    refine KeepsE.bind (fun _ => ?_)
    extract_lets +onlyGivenNames z4
    split
    rename_i a5 a6 a7 a8 a9
    refine KeepsE.ok ?_
    refine Keeps.step (State.setG_keeps ..) rfl ?_
    refine Keeps.ofSnd a9 ?_
    refine Keeps.step (State.orderDone_keeps ..) rfl ?_
    assumption
  · exact Keeps.refl _ _

theorem execWoAen_keeps (b : Fin 24) (u : Upset) (s : State) :
    KeepsR [.events, .regs, .decode, .seq, .host] s (execWoAen b u s) := by
  unfold execWoAen
  refine State.issue_keeps ?_ ?_ ?_
  · exact rfl
  · intro y1 y2 y3
    refine State.famChecks_keeps ?_
    extract_lets +onlyGivenNames z4
    refine KeepsE.ok ?_
    refine Keeps.step (State.raiseAsync_keeps ..) rfl ?_
    assumption
  · exact Keeps.refl _ _

theorem State.returnData_keeps (s : State) (c : HostCmd) (d : Decision) :
    Keeps [.events, .regs, .mem, .out, .free] s (State.returnData s c d).2.2 := by
  unfold State.returnData
  split
  · extract_lets +onlyGivenNames z1
    refine Keeps.cut (x := z1.st) ?_ (fun h2 => ?_)
    · unfold z1
      refine Keeps.step (State.memRead_keeps ..) rfl ?_
      exact Keeps.refl _ _
    clear_value z1
    refine Keeps.ofMkSnd ?_
    refine Keeps.ofMk ?_
    assumption
  · split
    · split
      rename_i a3 a4 a5 a6 a7 a8 a9
      extract_lets +onlyGivenNames z10
      refine Keeps.cut (x := z10.st) ?_ (fun h11 => ?_)
      · unfold z10
        refine Keeps.step (State.memRead_keeps ..) rfl ?_
        refine Keeps.ofSnd a9 ?_
        refine Keeps.step (State.draw_keeps ..) rfl ?_
        exact Keeps.refl _ _
      clear_value z10
      refine Keeps.ofMkSnd ?_
      refine Keeps.ofMk ?_
      assumption
    · refine Keeps.ofMkSnd ?_
      refine Keeps.ofMk ?_
      exact Keeps.refl _ _
  · split
    · split
      rename_i a12 a13 a14 a15 a16 a17 a18
      extract_lets +onlyGivenNames z19
      refine Keeps.cut (x := z19.st) ?_ (fun h20 => ?_)
      · unfold z19
        refine Keeps.step (State.memRead_keeps ..) rfl ?_
        refine Keeps.ofSnd a18 ?_
        refine Keeps.step (State.draw_keeps ..) rfl ?_
        exact Keeps.refl _ _
      clear_value z19
      refine Keeps.ofMkSnd ?_
      refine Keeps.ofMk ?_
      assumption
    · refine Keeps.ofMkSnd ?_
      refine Keeps.ofMk ?_
      exact Keeps.refl _ _
  · refine Keeps.ofMkSnd ?_
    refine Keeps.ofMk ?_
    exact Keeps.refl _ _

theorem State.interrupt_keeps (s : State) (fn : ℕ) (q : CmpQ) :
    Keeps [.msix, .host, .out] s (State.interrupt s fn q) := by
  unfold State.interrupt
  split
  · exact Keeps.refl _ _
  · extract_lets +onlyGivenNames z1
    extract_lets +onlyGivenNames z2
    extract_lets +onlyGivenNames z3
    split
    · refine Keeps.step (State.sendVector_keeps ..) rfl ?_
      exact Keeps.refl _ _
    · split
      · refine Keeps.step (State.modCq_keeps ..) rfl ?_
        refine Keeps.step (State.sendVector_keeps ..) rfl ?_
        exact Keeps.refl _ _
      · refine Keeps.step (State.modCq_keeps ..) rfl ?_
        exact Keeps.refl _ _

theorem State.finishAborts_keeps (s : State) (t : Stamp) :
    Keeps [.decode, .host] s (State.finishAborts s t) := by
  unfold State.finishAborts
  refine Keeps.foldl ?_ (fun _ _ _ => ?_)
  · exact Keeps.refl _ _
  · refine Keeps.step (State.conclude_keeps ..) rfl ?_
    assumption

theorem State.retire_keeps (s : State) (c : HostCmd) :
    Keeps [.events, .regs, .mem, .host, .sec, .out] s (State.retire s c) := by
  unfold State.retire
  extract_lets +onlyGivenNames z1
  refine Keeps.cut (x := z1) ?_ (fun h2 => ?_)
  · unfold z1
    refine Keeps.step (State.releaseLocks_keeps ..) rfl ?_
    refine Keeps.step (State.dropCommit_keeps ..) rfl ?_
    refine Keeps.step (State.dropNamed_keeps ..) rfl ?_
    exact Keeps.refl _ _
  clear_value z1
  refine Keeps.step (State.modHost_keeps ..) rfl ?_
  assumption

theorem execCompletionPost_keeps (slot : Fin 8192) (s : State) :
    KeepsR [.events, .regs, .msix, .heads, .decode, .mem, .host, .sec, .out, .free] s (execCompletionPost slot s) := by
  unfold execCompletionPost
  split
  · refine KeepsR.next ?_
    exact Keeps.refl _ _
  · split
    · extract_lets +onlyGivenNames z1
      extract_lets +onlyGivenNames z2
      refine KeepsR.when ?_ ?_
      · exact Keeps.refl _ _
      · split
        rename_i a3 a4 a5 a6 a7 a8 a9 a10 a11 a12 a13 a14 a15 a16
        split
        rename_i a17 a18 a19 a20
        extract_lets +onlyGivenNames z21
        refine Keeps.cut (x := z21) ?_ (fun h22 => ?_)
        · unfold z21
          split
          · refine Keeps.outTo rfl ?_
            refine Keeps.ofSnd a20 ?_
            split
            · refine Keeps.ofMk ?_
              refine Keeps.ofThird a16 ?_
              split
              · refine Keeps.step (State.returnData_keeps ..) rfl ?_
                exact Keeps.refl _ _
              · refine Keeps.ofMkSnd ?_
                refine Keeps.ofMk ?_
                exact Keeps.refl _ _
            · refine Keeps.ofMk ?_
              refine Keeps.step (State.recordError_keeps ..) rfl ?_
              refine Keeps.ofThird a16 ?_
              split
              · refine Keeps.step (State.returnData_keeps ..) rfl ?_
                exact Keeps.refl _ _
              · refine Keeps.ofMkSnd ?_
                refine Keeps.ofMk ?_
                exact Keeps.refl _ _
          · refine Keeps.ofSnd a20 ?_
            split
            · refine Keeps.ofMk ?_
              refine Keeps.ofThird a16 ?_
              split
              · refine Keeps.step (State.returnData_keeps ..) rfl ?_
                exact Keeps.refl _ _
              · refine Keeps.ofMkSnd ?_
                refine Keeps.ofMk ?_
                exact Keeps.refl _ _
            · refine Keeps.ofMk ?_
              refine Keeps.step (State.recordError_keeps ..) rfl ?_
              refine Keeps.ofThird a16 ?_
              split
              · refine Keeps.step (State.returnData_keeps ..) rfl ?_
                exact Keeps.refl _ _
              · refine Keeps.ofMkSnd ?_
                refine Keeps.ofMk ?_
                exact Keeps.refl _ _
        clear_value z21
        extract_lets +onlyGivenNames z23
        extract_lets +onlyGivenNames z24
        refine Keeps.cut (x := z24) ?_ (fun h25 => ?_)
        · unfold z24
          refine Keeps.outTo rfl ?_
          assumption
        clear_value z24
        extract_lets +onlyGivenNames z26
        extract_lets +onlyGivenNames z27
        refine Keeps.cut (x := z27) ?_ (fun h28 => ?_)
        · unfold z27
          refine Keeps.step (State.modCq_keeps ..) rfl ?_
          assumption
        clear_value z27
        extract_lets +onlyGivenNames z29
        refine Keeps.cut (x := z29) ?_ (fun h30 => ?_)
        · unfold z29
          refine Keeps.step (State.interrupt_keeps ..) rfl ?_
          assumption
        clear_value z29
        extract_lets +onlyGivenNames z31
        refine Keeps.cut (x := z31) ?_ (fun h32 => ?_)
        · unfold z31
          refine Keeps.step (State.decideFlushes_keeps ..) rfl ?_
          refine Keeps.step (State.finishAborts_keeps ..) rfl ?_
          refine Keeps.step (State.retire_keeps ..) rfl ?_
          assumption
        clear_value z31
        refine Keeps.step (State.advanceShutdown_keeps ..) rfl ?_
        refine Keeps.step (State.notePause_keeps ..) rfl ?_
        assumption
    · refine KeepsR.next ?_
      exact Keeps.refl _ _

theorem execInterruptCoalescingTime_keeps (fn : Fin 2) (qid : ℕ) (s : State) :
    KeepsR [.msix, .host, .out] s (execInterruptCoalescingTime fn qid s) := by
  unfold execInterruptCoalescingTime
  split
  · refine KeepsR.next ?_
    exact Keeps.refl _ _
  · extract_lets +onlyGivenNames z1
    refine KeepsR.when ?_ ?_
    · exact Keeps.refl _ _
    · refine Keeps.step (State.modCq_keeps ..) rfl ?_
      refine Keeps.step (State.sendVector_keeps ..) rfl ?_
      exact Keeps.refl _ _

theorem execPcieDmaError_keeps (slot : Fin 8192) (s : State) :
    KeepsR [.decode, .seq, .host, .sec] s (execPcieDmaError slot s) := by
  unfold execPcieDmaError
  split
  · refine KeepsR.next ?_
    exact Keeps.refl _ _
  · split
    · refine KeepsR.when ?_ ?_
      · exact Keeps.refl _ _
      · refine Keeps.step (State.endCommand_keeps ..) rfl ?_
        exact Keeps.refl _ _
    · refine KeepsR.when ?_ ?_
      · exact Keeps.refl _ _
      · refine Keeps.step (State.modCmd_keeps ..) rfl ?_
        refine Keeps.step (State.recordError_keeps ..) rfl ?_
        exact Keeps.refl _ _

theorem execSnipRequest_keeps (fn : Fin 2) (sqid : Fin 65536) (cid : Fin 65536) (s : State) :
    KeepsR [.events, .regs, .host] s (execSnipRequest fn sqid cid s) := by
  unfold execSnipRequest
  refine KeepsR.next ?_
  split
  · refine Keeps.step (State.logHost_keeps ..) rfl ?_
    refine Keeps.step (State.bump_keeps ..) rfl ?_
    exact Keeps.refl _ _
  · split
    refine Keeps.step (State.modFn_keeps ..) rfl ?_
    exact Keeps.refl _ _

theorem execSnipResolve_keeps (fn : Fin 2) (s : State) :
    KeepsR [.regs, .decode, .seq, .host, .sec] s (execSnipResolve fn s) := by
  unfold execSnipResolve
  split
  · refine KeepsR.next ?_
    exact Keeps.refl _ _
  · extract_lets +onlyGivenNames z1
    refine KeepsR.cut (x := z1) ?_ (fun h2 => ?_)
    · unfold z1
      refine Keeps.step (State.modFn_keeps ..) rfl ?_
      exact Keeps.refl _ _
    clear_value z1
    extract_lets +onlyGivenNames z3
    extract_lets +onlyGivenNames z4
    refine KeepsR.cut (x := z4) ?_ (fun h5 => ?_)
    · unfold z4
      refine Keeps.step (State.setFld_keeps ..) rfl ?_
      refine Keeps.step (State.setFld_keeps ..) rfl ?_
      assumption
    clear_value z4
    refine KeepsR.next ?_
    split
    · split
      · assumption
      · extract_lets +onlyGivenNames z6
        refine Keeps.cut (x := z6) ?_ (fun h7 => ?_)
        · unfold z6
          split
          · refine Keeps.step (State.endCommand_keeps ..) rfl ?_
            assumption
          · refine Keeps.step (State.modCmd_keeps ..) rfl ?_
            assumption
        clear_value z6
        refine Keeps.step (State.bump_keeps ..) rfl ?_
        assumption
    · assumption

end Sys2Proof.Machine
end

