-- ==== Sys2Proof/Laws/KeepsControlStore.lean ====
section
/-!
SUPPORT. Laws/KeepsControlStore.lean: which parts of a state each operation of Machine/ControlStore.lean may change, and that it keeps a sound
state sound.
-/

namespace Sys2Proof.Machine

theorem State.setBankOf_keeps (s : State) (k : ℕ) (p : PatchBank) :
    Keeps [.seq] s (State.setBankOf s k p) := by
  unfold State.setBankOf
  refine Keeps.seqTo rfl ?_
  exact Keeps.refl _ _

theorem State.showBank_keeps (s : State) :
    Keeps [.regs] s (State.showBank s) := by
  unfold State.showBank
  extract_lets +onlyGivenNames z1
  extract_lets +onlyGivenNames z2
  refine Keeps.cut (x := z2) ?_ (fun h3 => ?_)
  · unfold z2
    refine Keeps.step (State.setFld_keeps ..) rfl ?_
    exact Keeps.refl _ _
  clear_value z2
  extract_lets +onlyGivenNames z4
  refine Keeps.cut (x := z4) ?_ (fun h5 => ?_)
  · unfold z4
    refine Keeps.step (State.setReg_keeps ..) rfl ?_
    assumption
  clear_value z4
  refine Keeps.foldl ?_ (fun _ _ _ => ?_)
  · assumption
  · refine Keeps.step (State.setReg_keeps ..) rfl ?_
    assumption

theorem State.activatePatch_keeps (s : State) :
    Keeps [.events, .regs] s (State.activatePatch s) := by
  unfold State.activatePatch
  split
  · exact Keeps.refl _ _
  · extract_lets +onlyGivenNames z1
    extract_lets +onlyGivenNames z2
    refine Keeps.cut (x := z2) ?_ (fun h3 => ?_)
    · unfold z2
      refine Keeps.step (State.setFld_keeps ..) rfl ?_
      refine Keeps.step (State.setFld_keeps ..) rfl ?_
      exact Keeps.refl _ _
    clear_value z2
    refine Keeps.step (State.logSeq_keeps ..) rfl ?_
    refine Keeps.step (State.showBank_keeps ..) rfl ?_
    assumption

theorem State.loadPatch_keeps (s : State) (image : List ℕ) :
    Keeps [.events, .regs, .seq] s (State.loadPatch s image) := by
  unfold State.loadPatch
  extract_lets +onlyGivenNames z1
  extract_lets +onlyGivenNames z2
  split
  · refine Keeps.step (State.logSeq_keeps ..) rfl ?_
    refine Keeps.step (State.setFld_keeps ..) rfl ?_
    refine Keeps.step (State.setBankOf_keeps ..) rfl ?_
    exact Keeps.refl _ _
  · refine Keeps.step (State.logSeq_keeps ..) rfl ?_
    refine Keeps.step (State.setFld_keeps ..) rfl ?_
    refine Keeps.step (State.setBankOf_keeps ..) rfl ?_
    exact Keeps.refl _ _

theorem execPatchLoad_keeps (image : List Byte) (s : State) :
    KeepsR [.events, .regs, .seq] s (execPatchLoad image s) := by
  unfold execPatchLoad
  refine KeepsR.next ?_
  refine Keeps.step (State.loadPatch_keeps ..) rfl ?_
  exact Keeps.refl _ _

theorem State.reloadPatch_keeps (s : State) (image : Option (List ℕ)) :
    Keeps [.events, .regs, .seq] s (State.reloadPatch s image) := by
  unfold State.reloadPatch
  extract_lets +onlyGivenNames z1
  extract_lets +onlyGivenNames z2
  split
  · refine Keeps.step (State.showBank_keeps ..) rfl ?_
    refine Keeps.step (State.setBankOf_keeps ..) rfl ?_
    exact Keeps.refl _ _
  · extract_lets +onlyGivenNames z3
    refine Keeps.step (State.logSeq_keeps ..) rfl ?_
    refine Keeps.step (State.showBank_keeps ..) rfl ?_
    refine Keeps.step (State.setBankOf_keeps ..) rfl ?_
    exact Keeps.refl _ _

theorem execControlStoreParityError_keeps (b : Fin 24) (uaddr : Fin 32768) (mask : Fin 256) (s : State) :
    KeepsR [.events, .regs, .msix, .seq, .out] s (execControlStoreParityError b uaddr mask s) := by
  unfold execControlStoreParityError
  refine KeepsR.when ?_ ?_
  · exact Keeps.refl _ _
  · extract_lets +onlyGivenNames z1
    extract_lets +onlyGivenNames z2
    extract_lets +onlyGivenNames z4
    refine Keeps.cut (x := z4) ?_ (fun h5 => ?_)
    · unfold z4
      refine Keeps.seqTo rfl ?_
      exact Keeps.refl _ _
    clear_value z4
    refine Keeps.step (State.machineCheck_keeps ..) rfl ?_
    assumption

theorem execSafePointOverrun_keeps (b : Fin 24) (uaddr : Fin 32768) (s : State) :
    KeepsR [.events, .regs, .msix, .seq, .out] s (execSafePointOverrun b uaddr s) := by
  unfold execSafePointOverrun
  refine KeepsR.when ?_ ?_
  · exact Keeps.refl _ _
  · refine Keeps.step (State.machineCheck_keeps ..) rfl ?_
    exact Keeps.refl _ _

theorem execCsTestWrite_keeps (rom : Fin 16384) (s : State) :
    KeepsR [.events, .seq] s (execCsTestWrite rom s) := by
  unfold execCsTestWrite
  refine KeepsR.next ?_
  split
  · refine Keeps.seqTo rfl ?_
    exact Keeps.refl _ _
  · refine Keeps.step (State.logSeq_keeps ..) rfl ?_
    exact Keeps.refl _ _

theorem execMcAddrClear_keeps (s : State) :
    KeepsR [.regs] s (execMcAddrClear s) := by
  unfold execMcAddrClear
  refine KeepsR.next ?_
  refine Keeps.step (State.setReg_keeps ..) rfl ?_
  exact Keeps.refl _ _

theorem execDistributionError_keeps (isl : Island) (prev : ℕ) (sample : ℕ) (s : State) :
    KeepsR [.time, .events, .regs, .msix, .domains, .heads, .decode, .loop, .seq, .mem, .motion, .out] s (execDistributionError isl prev sample s) := by
  unfold execDistributionError
  split
  refine KeepsR.when ?_ ?_
  · exact Keeps.refl _ _
  · extract_lets +onlyGivenNames z1
    extract_lets +onlyGivenNames z2
    extract_lets +onlyGivenNames z3
    extract_lets +onlyGivenNames z4
    extract_lets +onlyGivenNames z6
    refine Keeps.cut (x := z6) ?_ (fun h7 => ?_)
    · unfold z6
      refine Keeps.timeTo rfl ?_ ?_
      · with_reducible exact id
      · exact Keeps.refl _ _
    clear_value z6
    extract_lets +onlyGivenNames z8
    refine Keeps.cut (x := z8) ?_ (fun h9 => ?_)
    · unfold z8
      refine Keeps.step (State.bump_keeps ..) rfl ?_
      assumption
    clear_value z8
    extract_lets +onlyGivenNames z10
    refine Keeps.cut (x := z10) ?_ (fun h11 => ?_)
    · unfold z10
      refine Keeps.step (State.setFld_keeps ..) rfl ?_
      assumption
    clear_value z10
    extract_lets +onlyGivenNames z12
    refine Keeps.cut (x := z12) ?_ (fun h13 => ?_)
    · unfold z12
      refine Keeps.step (State.log_keeps ..) rfl ?_
      assumption
    clear_value z12
    split
    · assumption
    · extract_lets +onlyGivenNames z14
      extract_lets +onlyGivenNames z15
      refine Keeps.cut (x := z15) ?_ (fun h16 => ?_)
      · unfold z15
        refine Keeps.step (State.setReg_keeps ..) rfl ?_
        assumption
      clear_value z15
      split
      · refine Keeps.step (State.logHead_keeps ..) rfl ?_
        refine Keeps.step (State.leaveService_keeps ..) rfl ?_
        assumption
      · refine Keeps.step (State.machineCheck_keeps ..) rfl ?_
        assumption

end Sys2Proof.Machine
end

