-- ==== Sys2Proof/Laws/KeepsSecurity.lean ====
section
/-!
SUPPORT. Laws/KeepsSecurity.lean: which parts of a state each operation of Machine/Security.lean may change, and that it keeps a sound
state sound.
-/

namespace Sys2Proof.Machine

theorem State.modSec_keeps (s : State) (f : SecState → SecState) :
    Keeps [.sec] s (State.modSec s f) := by
  unfold State.modSec
  refine Keeps.secTo rfl ?_
  exact Keeps.refl _ _

theorem State.logSec_keeps (s : State) (code : ℕ) (a0 : ℕ) (a1 : ℕ) (a2 : ℕ) (a3 : ℕ) :
    Keeps [.events] s (State.logSec s code a0 a1 a2 a3) := by
  unfold State.logSec
  refine Keeps.step (State.log_keeps ..) rfl ?_
  exact Keeps.refl _ _

theorem State.flashWrite_keeps (s : State) (a : ℕ) (bytes : List ℕ) :
    Keeps [.sec] s (State.flashWrite s a bytes) := by
  unfold State.flashWrite
  refine Keeps.step (State.modSec_keeps ..) rfl ?_
  exact Keeps.refl _ _

theorem State.writeDir_keeps (s : State) (d : Directory) :
    Keeps [.sec] s (State.writeDir s d) := by
  unfold State.writeDir
  extract_lets +onlyGivenNames z1
  refine Keeps.step (State.flashWrite_keeps ..) rfl ?_
  exact Keeps.refl _ _

theorem State.reachStage_keeps (s : State) (stage : ℕ) :
    Keeps [.events, .regs] s (State.reachStage s stage) := by
  unfold State.reachStage
  refine Keeps.step (State.logAt_keeps ..) rfl ?_
  refine Keeps.step (State.setFld_keeps ..) rfl ?_
  exact Keeps.refl _ _

theorem State.trySlot_keeps (s : State) (d : Directory) (slot : ℕ) :
    Keeps [.events] s (State.trySlot s d slot).2 := by
  unfold State.trySlot
  split
  · refine Keeps.ofMk ?_
    exact Keeps.refl _ _
  · refine Keeps.ofMk ?_
    refine Keeps.step (State.logSec_keeps ..) rfl ?_
    exact Keeps.refl _ _

theorem State.chooseSlot_keeps (s : State) (p : Package) (slot : ℕ) (boot : ℕ) :
    Keeps [.events, .regs, .boot, .sec] s (State.chooseSlot s p slot boot) := by
  unfold State.chooseSlot
  extract_lets +onlyGivenNames z1
  refine Keeps.cut (x := z1) ?_ (fun h2 => ?_)
  · unfold z1
    refine Keeps.step (State.setFld_keeps ..) rfl ?_
    refine Keeps.step (State.setFld_keeps ..) rfl ?_
    exact Keeps.refl _ _
  clear_value z1
  extract_lets +onlyGivenNames z3
  refine Keeps.cut (x := z3) ?_ (fun h4 => ?_)
  · unfold z3
    refine Keeps.step (State.modSec_keeps ..) rfl ?_
    assumption
  clear_value z3
  refine Keeps.step (State.reachStage_keeps ..) rfl ?_
  refine Keeps.bootTo rfl ?_
  assumption

theorem State.bootNoImage_keeps (s : State) (dirState : ℕ) :
    Keeps [.events, .regs, .boot, .sec] s (State.bootNoImage s dirState) := by
  unfold State.bootNoImage
  extract_lets +onlyGivenNames z1
  refine Keeps.cut (x := z1) ?_ (fun h2 => ?_)
  · unfold z1
    refine Keeps.step (State.logSec_keeps ..) rfl ?_
    refine Keeps.step (State.setFld_keeps ..) rfl ?_
    exact Keeps.refl _ _
  clear_value z1
  extract_lets +onlyGivenNames z3
  extract_lets +onlyGivenNames z5
  refine Keeps.cut (x := z5) ?_ (fun h6 => ?_)
  · unfold z5
    refine Keeps.bootTo rfl ?_
    assumption
  clear_value z5
  refine Keeps.step (State.reachStage_keeps ..) rfl ?_
  refine Keeps.step (State.modSec_keeps ..) rfl ?_
  assumption

theorem State.trySlots_keeps (s : State) (d : Directory) (first : Nat) (l : List Nat) :
    Keeps [.events, .regs, .boot, .sec] s (s.trySlots d first l) := by
  induction l generalizing s with
  | nil =>
    rw [State.trySlots]
    refine Keeps.step (State.bootNoImage_keeps ..) rfl ?_
    exact Keeps.refl _ _
  | cons k rest ih =>
    rw [State.trySlots]
    split
    · rename_i a1 a2 a3 a4
      extract_lets +onlyGivenNames z5
      refine Keeps.cut (x := z5) ?_ (fun h6 => ?_)
      · unfold z5
        refine Keeps.step (State.chooseSlot_keeps ..) rfl ?_
        refine Keeps.ofSnd a4 ?_
        refine Keeps.step (State.trySlot_keeps ..) rfl ?_
        exact Keeps.refl _ _
      clear_value z5
      split
      · assumption
      · refine Keeps.step (State.logSec_keeps ..) rfl ?_
        assumption
    · rename_i a7 a8 a9
      refine Keeps.step (ih ..) rfl ?_
      refine Keeps.ofSnd a9 ?_
      refine Keeps.step (State.trySlot_keeps ..) rfl ?_
      exact Keeps.refl _ _

theorem execBootVerify_keeps (s : State) :
    KeepsR [.events, .regs, .boot, .sec] s (execBootVerify s) := by
  unfold execBootVerify
  refine KeepsR.when ?_ ?_
  · exact Keeps.refl _ _
  · extract_lets +onlyGivenNames z1
    refine Keeps.cut (x := z1) ?_ (fun h2 => ?_)
    · unfold z1
      split
      · exact Keeps.refl _ _
      · refine Keeps.step (State.logSec_keeps ..) rfl ?_
        refine Keeps.step (State.setFld_keeps ..) rfl ?_
        exact Keeps.refl _ _
    clear_value z1
    split
    · refine Keeps.step (State.bootNoImage_keeps ..) rfl ?_
      assumption
    · extract_lets +onlyGivenNames z3
      extract_lets +onlyGivenNames z4
      split
      · split
        · rename_i a5 a6 a7 a8 a9 a10 a11 a12
          refine Keeps.step (State.chooseSlot_keeps ..) rfl ?_
          refine Keeps.step (State.writeDir_keeps ..) rfl ?_
          refine Keeps.ofSnd a12 ?_
          refine Keeps.step (State.trySlot_keeps ..) rfl ?_
          assumption
        · rename_i a13 a14 a15 a16 a17 a18 a19
          extract_lets +onlyGivenNames z20
          refine Keeps.cut (x := z20) ?_ (fun h21 => ?_)
          · unfold z20
            refine Keeps.step (State.writeDir_keeps ..) rfl ?_
            refine Keeps.ofSnd a19 ?_
            refine Keeps.step (State.trySlot_keeps ..) rfl ?_
            assumption
          clear_value z20
          refine Keeps.step (State.trySlots_keeps ..) rfl ?_
          assumption
      · refine Keeps.step (State.trySlots_keeps ..) rfl ?_
        assumption

theorem execFloorCommit_keeps (s : State) :
    KeepsR [.events, .regs] s (execFloorCommit s) := by
  unfold execFloorCommit
  extract_lets +onlyGivenNames z1
  extract_lets +onlyGivenNames z2
  extract_lets +onlyGivenNames z3
  refine KeepsR.next ?_
  split
  · refine Keeps.step (State.logSec_keeps ..) rfl ?_
    exact Keeps.refl _ _
  · refine Keeps.step (State.logSec_keeps ..) rfl ?_
    refine Keeps.step (State.setFld_keeps ..) rfl ?_
    exact Keeps.refl _ _

theorem execRevoke_keeps (slot : Fin 4) (s : State) :
    KeepsR [.events, .regs] s (execRevoke slot s) := by
  unfold execRevoke
  extract_lets +onlyGivenNames z1
  extract_lets +onlyGivenNames z2
  extract_lets +onlyGivenNames z3
  refine KeepsR.next ?_
  split
  · refine Keeps.step (State.logSec_keeps ..) rfl ?_
    exact Keeps.refl _ _
  · refine Keeps.step (State.logSec_keeps ..) rfl ?_
    refine Keeps.step (State.setFld_keeps ..) rfl ?_
    exact Keeps.refl _ _

theorem State.drawNonce_keeps (s : State) :
    Keeps [.regs, .free] s (State.drawNonce s) := by
  unfold State.drawNonce
  refine Keeps.foldl ?_ (fun _ _ _ => ?_)
  · exact Keeps.refl _ _
  · split
    rename_i a1 a2 a3 a4 a5 a6 a7
    refine Keeps.step (State.setReg_keeps ..) rfl ?_
    refine Keeps.ofSnd a7 ?_
    refine Keeps.step (State.draw_keeps ..) rfl ?_
    assumption

theorem State.endSessions_keeps (s : State) :
    Keeps [.regs, .sec] s (State.endSessions s) := by
  unfold State.endSessions
  refine Keeps.step (State.setFld_keeps ..) rfl ?_
  refine Keeps.step (State.modSec_keeps ..) rfl ?_
  exact Keeps.refl _ _

theorem execDebugUnlockSubmit_keeps (s : State) :
    KeepsR [.events, .regs, .sec, .free] s (execDebugUnlockSubmit s) := by
  unfold execDebugUnlockSubmit
  extract_lets +onlyGivenNames z1
  extract_lets +onlyGivenNames z2
  extract_lets +onlyGivenNames z3
  extract_lets +onlyGivenNames z5
  refine KeepsR.cut (x := z5) ?_ (fun h6 => ?_)
  · unfold z5
    refine Keeps.step (State.setFld_keeps ..) rfl ?_
    exact Keeps.refl _ _
  clear_value z5
  extract_lets +onlyGivenNames z7
  refine KeepsR.cut (x := z7) ?_ (fun h8 => ?_)
  · unfold z7
    split
    · refine Keeps.step (State.logSec_keeps ..) rfl ?_
      exact Keeps.refl _ _
    · refine Keeps.step (State.logSec_keeps ..) rfl ?_
      refine Keeps.step (State.endSessions_keeps ..) rfl ?_
      assumption
  clear_value z7
  refine KeepsR.next ?_
  refine Keeps.step (State.drawNonce_keeps ..) rfl ?_
  assumption

theorem State.respond_keeps (s : State) (via : Transport) (code : ℕ) (bytes : List ℕ) :
    Keeps [.sec, .out] s (State.respond s via code bytes) := by
  unfold State.respond
  split
  · refine Keeps.outTo rfl ?_
    exact Keeps.refl _ _
  · refine Keeps.step (State.modSec_keeps ..) rfl ?_
    exact Keeps.refl _ _

theorem State.spdmError_keeps (s : State) (via : Transport) (code : ℕ) :
    Keeps [.sec, .out] s (State.spdmError s via code) := by
  unfold State.spdmError
  refine Keeps.step (State.respond_keeps ..) rfl ?_
  exact Keeps.refl _ _

theorem State.setConn_keeps (s : State) (via : Transport) (k : ℕ) :
    Keeps [.sec] s (State.setConn s via k) := by
  unfold State.setConn
  refine Keeps.step (State.modSec_keeps ..) rfl ?_
  exact Keeps.refl _ _

theorem State.spdmAt_keeps {P : List Part} {s0 : State} {s : State} {via : Transport} {k : ℕ} {f : State}
    (hP : Part.sub [.sec, .out] P = true) (hs : Keeps P s0 s) (hf : Keeps P s0 f) :
    Keeps P s0 (State.spdmAt s via k f) := by
  unfold State.spdmAt
  split
  · refine Keeps.step (State.spdmError_keeps ..) (Part.sub_trans rfl hP) ?_
    assumption
  · assumption

theorem State.respondSigned_keeps (s : State) (via : Transport) (code : ℕ) (m : List Byte) (bytes : List ℕ) :
    Keeps [.sec, .out] s (State.respondSigned s via code m bytes) := by
  unfold State.respondSigned
  refine Keeps.step (State.respond_keeps ..) rfl ?_
  exact Keeps.refl _ _

theorem State.showSessions_keeps (s : State) :
    Keeps [.regs] s (State.showSessions s) := by
  unfold State.showSessions
  refine Keeps.step (State.setFld_keeps ..) rfl ?_
  exact Keeps.refl _ _

theorem State.inSession_keeps {P : List Part} {s0 : State} {s : State} {via : Transport} {sid : ℕ} {f : State}
    (hP : Part.sub [.sec, .out] P = true) (hs : Keeps P s0 s) (hf : Keeps P s0 f) :
    Keeps P s0 (State.inSession s via sid f) := by
  unfold State.inSession
  split
  · split
    · assumption
    · refine Keeps.step (State.spdmError_keeps ..) (Part.sub_trans rfl hP) ?_
      assumption
  · refine Keeps.step (State.spdmError_keeps ..) (Part.sub_trans rfl hP) ?_
    assumption

theorem State.spdm_keeps (s : State) (via : Transport) (sid : ℕ) (code : ℕ) (m : List Byte) :
    Keeps [.regs, .sec, .out] s (State.spdm s via sid code m) := by
  unfold State.spdm
  split
  · extract_lets +onlyGivenNames z1
    refine Keeps.cut (x := z1) ?_ (fun h2 => ?_)
    · unfold z1
      refine Keeps.step (State.modSec_keeps ..) rfl ?_
      refine Keeps.step (State.setConn_keeps ..) rfl ?_
      exact Keeps.refl _ _
    clear_value z1
    refine Keeps.step (State.respond_keeps ..) rfl ?_
    refine Keeps.step (State.showSessions_keeps ..) rfl ?_
    assumption
  · refine State.spdmAt_keeps ?_ ?_ ?_
    · exact rfl
    · exact Keeps.refl _ _
    · refine Keeps.step (State.respond_keeps ..) rfl ?_
      refine Keeps.step (State.setConn_keeps ..) rfl ?_
      exact Keeps.refl _ _
  · refine State.spdmAt_keeps ?_ ?_ ?_
    · exact rfl
    · exact Keeps.refl _ _
    · refine Keeps.step (State.respond_keeps ..) rfl ?_
      refine Keeps.step (State.setConn_keeps ..) rfl ?_
      exact Keeps.refl _ _
  · refine State.spdmAt_keeps ?_ ?_ ?_
    · exact rfl
    · exact Keeps.refl _ _
    · split
      · refine Keeps.step (State.respond_keeps ..) rfl ?_
        exact Keeps.refl _ _
      · refine Keeps.step (State.respond_keeps ..) rfl ?_
        exact Keeps.refl _ _
  · refine State.spdmAt_keeps ?_ ?_ ?_
    · exact rfl
    · exact Keeps.refl _ _
    · split
      · refine Keeps.step (State.spdmError_keeps ..) rfl ?_
        exact Keeps.refl _ _
      · extract_lets +onlyGivenNames z3
        extract_lets +onlyGivenNames z4
        refine Keeps.step (State.respond_keeps ..) rfl ?_
        exact Keeps.refl _ _
  · refine State.spdmAt_keeps ?_ ?_ ?_
    · exact rfl
    · exact Keeps.refl _ _
    · split
      · refine Keeps.step (State.spdmError_keeps ..) rfl ?_
        exact Keeps.refl _ _
      · refine Keeps.step (State.respondSigned_keeps ..) rfl ?_
        exact Keeps.refl _ _
  · refine State.spdmAt_keeps ?_ ?_ ?_
    · exact rfl
    · exact Keeps.refl _ _
    · split
      · refine Keeps.step (State.respond_keeps ..) rfl ?_
        exact Keeps.refl _ _
      · refine Keeps.step (State.respondSigned_keeps ..) rfl ?_
        exact Keeps.refl _ _
      · split
        · refine Keeps.step (State.respondSigned_keeps ..) rfl ?_
          exact Keeps.refl _ _
        · refine Keeps.step (State.spdmError_keeps ..) rfl ?_
          exact Keeps.refl _ _
  · refine State.spdmAt_keeps ?_ ?_ ?_
    · exact rfl
    · exact Keeps.refl _ _
    · split
      · refine Keeps.step (State.spdmError_keeps ..) rfl ?_
        exact Keeps.refl _ _
      · split
        · refine Keeps.step (State.spdmError_keeps ..) rfl ?_
          exact Keeps.refl _ _
        · extract_lets +onlyGivenNames z5
          extract_lets +onlyGivenNames z6
          refine Keeps.cut (x := z6) ?_ (fun h7 => ?_)
          · unfold z6
            refine Keeps.step (State.showSessions_keeps ..) rfl ?_
            refine Keeps.step (State.modSec_keeps ..) rfl ?_
            exact Keeps.refl _ _
          clear_value z6
          refine Keeps.step (State.respondSigned_keeps ..) rfl ?_
          assumption
  · split
    · refine Keeps.step (State.spdmError_keeps ..) rfl ?_
      exact Keeps.refl _ _
    · refine Keeps.step (State.respond_keeps ..) rfl ?_
      refine Keeps.step (State.modSec_keeps ..) rfl ?_
      exact Keeps.refl _ _
  · refine State.inSession_keeps ?_ ?_ ?_
    · exact rfl
    · exact Keeps.refl _ _
    · refine Keeps.step (State.respond_keeps ..) rfl ?_
      exact Keeps.refl _ _
  · refine State.inSession_keeps ?_ ?_ ?_
    · exact rfl
    · exact Keeps.refl _ _
    · refine Keeps.step (State.respond_keeps ..) rfl ?_
      exact Keeps.refl _ _
  · refine State.inSession_keeps ?_ ?_ ?_
    · exact rfl
    · exact Keeps.refl _ _
    · refine Keeps.step (State.respond_keeps ..) rfl ?_
      refine Keeps.step (State.showSessions_keeps ..) rfl ?_
      refine Keeps.step (State.modSec_keeps ..) rfl ?_
      exact Keeps.refl _ _
  · refine Keeps.step (State.spdmError_keeps ..) rfl ?_
    exact Keeps.refl _ _

theorem execDoeDiscovery_keeps (fn : Fin 2) (index : ℕ) (s : State) :
    KeepsR [.sec, .out] s (execDoeDiscovery fn index s) := by
  unfold execDoeDiscovery
  extract_lets +onlyGivenNames z1
  refine KeepsR.cut (x := z1) ?_ (fun h2 => ?_)
  · unfold z1
    refine Keeps.step (State.respond_keeps ..) rfl ?_
    exact Keeps.refl _ _
  clear_value z1
  refine KeepsR.next ?_
  assumption

theorem execGetVersion_keeps (via : Transport) (msg : List Byte) (s : State) :
    KeepsR [.regs, .sec, .out] s (execGetVersion via msg s) := by
  unfold execGetVersion
  refine KeepsR.next ?_
  refine Keeps.step (State.spdm_keeps ..) rfl ?_
  exact Keeps.refl _ _

theorem execGetCapabilities_keeps (via : Transport) (msg : List Byte) (s : State) :
    KeepsR [.regs, .sec, .out] s (execGetCapabilities via msg s) := by
  unfold execGetCapabilities
  refine KeepsR.next ?_
  refine Keeps.step (State.spdm_keeps ..) rfl ?_
  exact Keeps.refl _ _

theorem execNegotiateAlgorithms_keeps (via : Transport) (msg : List Byte) (s : State) :
    KeepsR [.regs, .sec, .out] s (execNegotiateAlgorithms via msg s) := by
  unfold execNegotiateAlgorithms
  refine KeepsR.next ?_
  refine Keeps.step (State.spdm_keeps ..) rfl ?_
  exact Keeps.refl _ _

theorem execGetDigests_keeps (via : Transport) (msg : List Byte) (s : State) :
    KeepsR [.regs, .sec, .out] s (execGetDigests via msg s) := by
  unfold execGetDigests
  refine KeepsR.next ?_
  refine Keeps.step (State.spdm_keeps ..) rfl ?_
  exact Keeps.refl _ _

theorem execGetCertificate_keeps (via : Transport) (msg : List Byte) (s : State) :
    KeepsR [.regs, .sec, .out] s (execGetCertificate via msg s) := by
  unfold execGetCertificate
  refine KeepsR.next ?_
  refine Keeps.step (State.spdm_keeps ..) rfl ?_
  exact Keeps.refl _ _

theorem execChallenge_keeps (via : Transport) (msg : List Byte) (s : State) :
    KeepsR [.regs, .sec, .out] s (execChallenge via msg s) := by
  unfold execChallenge
  refine KeepsR.next ?_
  refine Keeps.step (State.spdm_keeps ..) rfl ?_
  exact Keeps.refl _ _

theorem execGetMeasurements_keeps (via : Transport) (msg : List Byte) (s : State) :
    KeepsR [.regs, .sec, .out] s (execGetMeasurements via msg s) := by
  unfold execGetMeasurements
  refine KeepsR.next ?_
  refine Keeps.step (State.spdm_keeps ..) rfl ?_
  exact Keeps.refl _ _

theorem execKeyExchange_keeps (via : Transport) (msg : List Byte) (s : State) :
    KeepsR [.regs, .sec, .out] s (execKeyExchange via msg s) := by
  unfold execKeyExchange
  refine KeepsR.next ?_
  refine Keeps.step (State.spdm_keeps ..) rfl ?_
  exact Keeps.refl _ _

theorem execFinish_keeps (via : Transport) (sid : ℕ) (msg : List Byte) (s : State) :
    KeepsR [.regs, .sec, .out] s (execFinish via sid msg s) := by
  unfold execFinish
  refine KeepsR.next ?_
  refine Keeps.step (State.spdm_keeps ..) rfl ?_
  exact Keeps.refl _ _

theorem execHeartbeat_keeps (via : Transport) (sid : ℕ) (msg : List Byte) (s : State) :
    KeepsR [.regs, .sec, .out] s (execHeartbeat via sid msg s) := by
  unfold execHeartbeat
  refine KeepsR.next ?_
  refine Keeps.step (State.spdm_keeps ..) rfl ?_
  exact Keeps.refl _ _

theorem execKeyUpdate_keeps (via : Transport) (sid : ℕ) (msg : List Byte) (s : State) :
    KeepsR [.regs, .sec, .out] s (execKeyUpdate via sid msg s) := by
  unfold execKeyUpdate
  refine KeepsR.next ?_
  refine Keeps.step (State.spdm_keeps ..) rfl ?_
  exact Keeps.refl _ _

theorem execEndSession_keeps (via : Transport) (sid : ℕ) (msg : List Byte) (s : State) :
    KeepsR [.regs, .sec, .out] s (execEndSession via sid msg s) := by
  unfold execEndSession
  refine KeepsR.next ?_
  refine Keeps.step (State.spdm_keeps ..) rfl ?_
  exact Keeps.refl _ _

end Sys2Proof.Machine
end

