-- ==== Sys2Proof/Laws/KeepsHostAdmin.lean ====
section
/-!
SUPPORT. Laws/KeepsHostAdmin.lean: which parts of a state each operation of Machine/HostAdmin.lean may change, and that it keeps a sound
state sound.
-/

namespace Sys2Proof.Machine

theorem State.createCq_keeps (s : State) (fn : ℕ) (e : SqEntry) :
    Keeps [.host] s (State.createCq s fn e).2 := by
  unfold State.createCq
  extract_lets +onlyGivenNames z1
  extract_lets +onlyGivenNames z2
  extract_lets +onlyGivenNames z3
  split
  · refine Keeps.ofMk ?_
    exact Keeps.refl _ _
  · split
    · refine Keeps.ofMk ?_
      exact Keeps.refl _ _
    · split
      · refine Keeps.ofMk ?_
        exact Keeps.refl _ _
      · split
        · refine Keeps.ofMk ?_
          exact Keeps.refl _ _
        · split
          · refine Keeps.ofMk ?_
            exact Keeps.refl _ _
          · extract_lets +onlyGivenNames z4
            refine Keeps.ofMk ?_
            refine Keeps.step (State.modHost_keeps ..) rfl ?_
            exact Keeps.refl _ _

theorem State.createSq_keeps (s : State) (fn : ℕ) (e : SqEntry) :
    Keeps [.host] s (State.createSq s fn e).2 := by
  unfold State.createSq
  extract_lets +onlyGivenNames z1
  extract_lets +onlyGivenNames z2
  extract_lets +onlyGivenNames z3
  split
  · refine Keeps.ofMk ?_
    exact Keeps.refl _ _
  · split
    · refine Keeps.ofMk ?_
      exact Keeps.refl _ _
    · split
      · refine Keeps.ofMk ?_
        exact Keeps.refl _ _
      · split
        · refine Keeps.ofMk ?_
          exact Keeps.refl _ _
        · extract_lets +onlyGivenNames z4
          refine Keeps.ofMk ?_
          refine Keeps.step (State.modHost_keeps ..) rfl ?_
          exact Keeps.refl _ _

theorem State.deleteSq_keeps (s : State) (fn : ℕ) (qid : ℕ) :
    Keeps [.decode, .seq, .host, .sec] s (State.deleteSq s fn qid).2 := by
  unfold State.deleteSq
  split
  · refine Keeps.ofMk ?_
    exact Keeps.refl _ _
  · extract_lets +onlyGivenNames z1
    extract_lets +onlyGivenNames z2
    refine Keeps.cut (x := z2) ?_ (fun h3 => ?_)
    · unfold z2
      refine Keeps.foldl ?_ (fun _ _ _ => ?_)
      · exact Keeps.refl _ _
      · refine Keeps.step (State.endCommand_keeps ..) rfl ?_
        assumption
    clear_value z2
    refine Keeps.ofMk ?_
    refine Keeps.step (State.modHost_keeps ..) rfl ?_
    assumption

theorem State.deleteCq_keeps (s : State) (fn : ℕ) (qid : ℕ) :
    Keeps [.host] s (State.deleteCq s fn qid).2 := by
  unfold State.deleteCq
  split
  · refine Keeps.ofMk ?_
    exact Keeps.refl _ _
  · split
    · refine Keeps.ofMk ?_
      exact Keeps.refl _ _
    · refine Keeps.ofMk ?_
      refine Keeps.step (State.modHost_keeps ..) rfl ?_
      exact Keeps.refl _ _

theorem State.openBytes_keeps (s : State) (answer : ℕ) (n : ℕ) :
    Keeps [.free] s (State.openBytes s answer n).2 := by
  unfold State.openBytes
  extract_lets +onlyGivenNames z1
  refine Keeps.ofMk ?_
  refine Keeps.freeTo rfl ?_ ?_
  · exact Nat.le_succ _
  · exact Keeps.refl _ _

theorem State.identify_keeps (s : State) (fn : ℕ) (e : SqEntry) :
    Keeps [.free] s (State.identify s fn e).2.2 := by
  unfold State.identify
  extract_lets +onlyGivenNames z1
  extract_lets +onlyGivenNames z2
  extract_lets +onlyGivenNames z3
  split
  · split
    · refine Keeps.ofMkSnd ?_
      refine Keeps.ofMk ?_
      exact Keeps.refl _ _
    · split
      · refine Keeps.ofMkSnd ?_
        refine Keeps.ofMk ?_
        exact Keeps.refl _ _
      · refine Keeps.ofMkSnd ?_
        refine Keeps.ofMk ?_
        exact Keeps.refl _ _
  · refine Keeps.ofMkSnd ?_
    refine Keeps.ofMk ?_
    exact Keeps.refl _ _
  · split
    · refine Keeps.ofMkSnd ?_
      refine Keeps.ofMk ?_
      exact Keeps.refl _ _
    · refine Keeps.ofMkSnd ?_
      refine Keeps.ofMk ?_
      exact Keeps.refl _ _
  · split
    · refine Keeps.ofMkSnd ?_
      refine Keeps.ofMk ?_
      exact Keeps.refl _ _
    · split
      rename_i a4 a5 a6 a7 a8 a9 a10
      refine Keeps.ofMkSnd ?_
      refine Keeps.ofMk ?_
      refine Keeps.ofSnd a10 ?_
      refine Keeps.step (State.openBytes_keeps ..) rfl ?_
      exact Keeps.refl _ _
  · split
    · refine Keeps.ofMkSnd ?_
      refine Keeps.ofMk ?_
      exact Keeps.refl _ _
    · refine Keeps.ofMkSnd ?_
      refine Keeps.ofMk ?_
      exact Keeps.refl _ _
  · split
    · refine Keeps.ofMkSnd ?_
      refine Keeps.ofMk ?_
      exact Keeps.refl _ _
    · refine Keeps.ofMkSnd ?_
      refine Keeps.ofMk ?_
      exact Keeps.refl _ _
  · split
    · refine Keeps.ofMkSnd ?_
      refine Keeps.ofMk ?_
      exact Keeps.refl _ _
    · extract_lets +onlyGivenNames z11
      refine Keeps.ofMkSnd ?_
      refine Keeps.ofMk ?_
      exact Keeps.refl _ _
  · refine Keeps.ofMkSnd ?_
    refine Keeps.ofMk ?_
    exact Keeps.refl _ _
  · refine Keeps.ofMkSnd ?_
    refine Keeps.ofMk ?_
    exact Keeps.refl _ _

theorem State.smartPage_keeps (s : State) :
    Keeps [.free] s (State.smartPage s).2 := by
  unfold State.smartPage
  split
  rename_i a1 a2 a3 a4
  extract_lets +onlyGivenNames z5
  extract_lets +onlyGivenNames z6
  extract_lets +onlyGivenNames z7
  refine Keeps.ofMk ?_
  refine Keeps.ofSnd a4 ?_
  refine Keeps.step (State.openBytes_keeps ..) rfl ?_
  exact Keeps.refl _ _

theorem State.logPage_keeps (s : State) (fn : ℕ) (lid : ℕ) (size : ℕ) :
    Keeps [.free] s (State.logPage s fn lid size).2 := by
  unfold State.logPage
  split
  · refine Keeps.ofMk ?_
    exact Keeps.refl _ _
  · split
    rename_i a1 a2 a3 a4 a5
    refine Keeps.ofMk ?_
    refine Keeps.ofSnd a5 ?_
    refine Keeps.step (State.smartPage_keeps ..) rfl ?_
    exact Keeps.refl _ _
  · refine Keeps.ofMk ?_
    exact Keeps.refl _ _
  · refine Keeps.ofMk ?_
    exact Keeps.refl _ _
  · refine Keeps.ofMk ?_
    exact Keeps.refl _ _
  · refine Keeps.ofMk ?_
    exact Keeps.refl _ _
  · split
    rename_i a6 a7 a8 a9 a10
    refine Keeps.ofMk ?_
    refine Keeps.ofSnd a10 ?_
    refine Keeps.step (State.openBytes_keeps ..) rfl ?_
    exact Keeps.refl _ _
  · split
    rename_i a11 a12 a13 a14 a15
    refine Keeps.ofMk ?_
    refine Keeps.ofSnd a15 ?_
    refine Keeps.step (State.openBytes_keeps ..) rfl ?_
    exact Keeps.refl _ _
  · refine Keeps.ofMk ?_
    exact Keeps.refl _ _
  · refine Keeps.ofMk ?_
    exact Keeps.refl _ _

theorem State.getLogPage_keeps (s : State) (fn : ℕ) (e : SqEntry) :
    Keeps [.decode, .host, .free] s (State.getLogPage s fn e).2.2 := by
  unfold State.getLogPage
  extract_lets +onlyGivenNames z1
  extract_lets +onlyGivenNames z2
  extract_lets +onlyGivenNames z3
  split
  · rename_i a4 a5 a6
    refine Keeps.ofMkSnd ?_
    refine Keeps.ofMk ?_
    refine Keeps.ofSnd a6 ?_
    refine Keeps.step (State.logPage_keeps ..) rfl ?_
    exact Keeps.refl _ _
  · rename_i a7 a8 a9 a10
    split
    · refine Keeps.ofMkSnd ?_
      refine Keeps.ofMk ?_
      refine Keeps.ofSnd a10 ?_
      refine Keeps.step (State.logPage_keeps ..) rfl ?_
      exact Keeps.refl _ _
    · extract_lets +onlyGivenNames z11
      extract_lets +onlyGivenNames z12
      refine Keeps.cut (x := z12) ?_ (fun h13 => ?_)
      · unfold z12
        refine Keeps.step (State.modFn_keeps ..) rfl ?_
        refine Keeps.ofSnd a10 ?_
        refine Keeps.step (State.logPage_keeps ..) rfl ?_
        exact Keeps.refl _ _
      clear_value z12
      extract_lets +onlyGivenNames z14
      refine Keeps.cut (x := z14) ?_ (fun h15 => ?_)
      · unfold z14
        split
        · refine Keeps.ofSnd a10 ?_
          refine Keeps.step (State.logPage_keeps ..) rfl ?_
          exact Keeps.refl _ _
        · refine Keeps.step (State.serveAers_keeps ..) rfl ?_
          assumption
      clear_value z14
      refine Keeps.ofMkSnd ?_
      refine Keeps.ofMk ?_
      assumption

theorem State.setFeatures_keeps (s : State) (fn : ℕ) (e : SqEntry) :
    Keeps [.host] s (State.setFeatures s fn e).2.2 := by
  unfold State.setFeatures
  split
  · refine Keeps.ofMkSnd ?_
    refine Keeps.ofMk ?_
    exact Keeps.refl _ _
  · extract_lets +onlyGivenNames z1
    split
    · refine Keeps.ofMkSnd ?_
      refine Keeps.ofMk ?_
      exact Keeps.refl _ _
    · refine Keeps.ofMkSnd ?_
      refine Keeps.ofMk ?_
      refine Keeps.step (State.setFeature_keeps ..) rfl ?_
      exact Keeps.refl _ _

theorem State.getFeatures_keeps (s : State) (fn : ℕ) (e : SqEntry) :
    Keeps [] s (State.getFeatures s fn e).2.2 := by
  unfold State.getFeatures
  extract_lets +onlyGivenNames z1
  extract_lets +onlyGivenNames z2
  split
  · refine Keeps.ofMkSnd ?_
    refine Keeps.ofMk ?_
    exact Keeps.refl _ _
  · split
    · refine Keeps.ofMkSnd ?_
      refine Keeps.ofMk ?_
      exact Keeps.refl _ _
    · refine Keeps.ofMkSnd ?_
      refine Keeps.ofMk ?_
      exact Keeps.refl _ _
    · refine Keeps.ofMkSnd ?_
      refine Keeps.ofMk ?_
      exact Keeps.refl _ _
    · refine Keeps.ofMkSnd ?_
      refine Keeps.ofMk ?_
      exact Keeps.refl _ _
    · refine Keeps.ofMkSnd ?_
      refine Keeps.ofMk ?_
      exact Keeps.refl _ _

theorem State.nsopChain_keeps (s : State) (c : HostCmd) (entries : List (ℕ × ℕ)) (dw0 : ℕ) :
    Keeps [.events, .regs, .decode, .mem, .host, .out] s (State.nsopChain s c entries dw0) := by
  unfold State.nsopChain
  split
  · refine Keeps.step (State.conclude_keeps ..) rfl ?_
    exact Keeps.refl _ _
  · extract_lets +onlyGivenNames z1
    refine Keeps.cut (x := z1) ?_ (fun h2 => ?_)
    · unfold z1
      refine Keeps.step (State.setBatState_keeps ..) rfl ?_
      refine Keeps.step (State.putBatch_keeps ..) rfl ?_
      exact Keeps.refl _ _
    clear_value z1
    extract_lets +onlyGivenNames z3
    refine Keeps.cut (x := z3) ?_ (fun h4 => ?_)
    · unfold z3
      refine Keeps.step (State.modPlace_keeps ..) rfl ?_
      assumption
    clear_value z3
    extract_lets +onlyGivenNames z5
    refine Keeps.cut (x := z5) ?_ (fun h6 => ?_)
    · unfold z5
      refine Keeps.step (State.modCmd_keeps ..) rfl ?_
      assumption
    clear_value z5
    extract_lets +onlyGivenNames z7
    refine Keeps.cut (x := z7) ?_ (fun h8 => ?_)
    · unfold z7
      refine Keeps.step (State.addTrack_keeps ..) rfl ?_
      assumption
    clear_value z7
    refine Keeps.step (State.buildWaiting_keeps ..) rfl ?_
    assumption

theorem State.manageNamespace_keeps (s : State) (c : HostCmd) (e : SqEntry) (data : List ℕ) :
    Keeps [.events, .regs, .decode, .mem, .host, .out] s (State.manageNamespace s c e data) := by
  unfold State.manageNamespace
  split
  · extract_lets +onlyGivenNames z1
    extract_lets +onlyGivenNames z2
    extract_lets +onlyGivenNames z3
    extract_lets +onlyGivenNames z4
    split
    · refine Keeps.step (State.conclude_keeps ..) rfl ?_
      exact Keeps.refl _ _
    · split
      · refine Keeps.step (State.conclude_keeps ..) rfl ?_
        exact Keeps.refl _ _
      · split
        · refine Keeps.step (State.conclude_keeps ..) rfl ?_
          exact Keeps.refl _ _
        · split
          · refine Keeps.step (State.conclude_keeps ..) rfl ?_
            exact Keeps.refl _ _
          · extract_lets +onlyGivenNames z5
            refine Keeps.cut (x := z5) ?_ (fun h6 => ?_)
            · unfold z5
              refine Keeps.step (State.modCmd_keeps ..) rfl ?_
              exact Keeps.refl _ _
            clear_value z5
            refine Keeps.step (State.nsopChain_keeps ..) rfl ?_
            assumption
  · extract_lets +onlyGivenNames z7
    split
    · refine Keeps.step (State.conclude_keeps ..) rfl ?_
      exact Keeps.refl _ _
    · split
      · refine Keeps.step (State.conclude_keeps ..) rfl ?_
        exact Keeps.refl _ _
      · refine Keeps.step (State.nsopChain_keeps ..) rfl ?_
        exact Keeps.refl _ _
  · refine Keeps.step (State.conclude_keeps ..) rfl ?_
    exact Keeps.refl _ _

theorem State.attachNamespace_keeps (s : State) (e : SqEntry) (data : List ℕ) :
    Keeps [.events, .decode, .host] s (State.attachNamespace s e data).2 := by
  unfold State.attachNamespace
  extract_lets +onlyGivenNames z1
  split
  · refine Keeps.ofMk ?_
    exact Keeps.refl _ _
  · split
    · refine Keeps.ofMk ?_
      exact Keeps.refl _ _
    · split
      · split
        · refine Keeps.ofMk ?_
          exact Keeps.refl _ _
        · refine Keeps.ofMk ?_
          refine Keeps.step (State.nsChanged_keeps ..) rfl ?_
          refine Keeps.step (State.setNamespace_keeps ..) rfl ?_
          exact Keeps.refl _ _
      · split
        · refine Keeps.ofMk ?_
          exact Keeps.refl _ _
        · refine Keeps.ofMk ?_
          refine Keeps.step (State.nsChanged_keeps ..) rfl ?_
          refine Keeps.step (State.setNamespace_keeps ..) rfl ?_
          exact Keeps.refl _ _
      · refine Keeps.ofMk ?_
        exact Keeps.refl _ _

theorem State.downloadImage_keeps (s : State) (e : SqEntry) (data : List ℕ) :
    Keeps [.events, .regs, .mem, .host, .out] s (State.downloadImage s e data).2 := by
  unfold State.downloadImage
  extract_lets +onlyGivenNames z1
  extract_lets +onlyGivenNames z2
  split
  · refine Keeps.ofMk ?_
    exact Keeps.refl _ _
  · split
    · refine Keeps.ofMk ?_
      exact Keeps.refl _ _
    · refine Keeps.ofMk ?_
      refine Keeps.step (State.modHost_keeps ..) rfl ?_
      refine Keeps.step (State.memWrite_keeps ..) rfl ?_
      exact Keeps.refl _ _

theorem State.commitFirmware_keeps (s : State) (c : HostCmd) (e : SqEntry) :
    Keeps [.events, .decode, .host, .sec] s (State.commitFirmware s c e) := by
  unfold State.commitFirmware
  extract_lets +onlyGivenNames z1
  extract_lets +onlyGivenNames z2
  extract_lets +onlyGivenNames z3
  split
  · refine Keeps.step (State.conclude_keeps ..) rfl ?_
    exact Keeps.refl _ _
  · split
    · refine Keeps.step (State.conclude_keeps ..) rfl ?_
      exact Keeps.refl _ _
    · split
      · refine Keeps.step (State.conclude_keeps ..) rfl ?_
        exact Keeps.refl _ _
      · split
        · refine Keeps.step (State.conclude_keeps ..) rfl ?_
          exact Keeps.refl _ _
        · split
          · split
            · refine Keeps.step (State.conclude_keeps ..) rfl ?_
              exact Keeps.refl _ _
            · split
              · refine Keeps.step (State.conclude_keeps ..) rfl ?_
                exact Keeps.refl _ _
              · refine Keeps.step (State.conclude_keeps ..) rfl ?_
                refine Keeps.step (State.writeDir_keeps ..) rfl ?_
                exact Keeps.refl _ _
          · extract_lets +onlyGivenNames z4
            extract_lets +onlyGivenNames z5
            split
            · clear_value z5
              split
              · refine Keeps.step (State.conclude_keeps ..) rfl ?_
                refine Keeps.step (State.logSec_keeps ..) rfl ?_
                refine Keeps.step (State.modHost_keeps ..) rfl ?_
                exact Keeps.refl _ _
              · extract_lets +onlyGivenNames z6
                split
                · refine Keeps.step (State.conclude_keeps ..) rfl ?_
                  exact Keeps.refl _ _
                · refine Keeps.step (State.modHost_keeps ..) rfl ?_
                  exact Keeps.refl _ _
            · clear_value z5
              split
              · refine Keeps.step (State.conclude_keeps ..) rfl ?_
                refine Keeps.step (State.logSec_keeps ..) rfl ?_
                refine Keeps.step (State.modHost_keeps ..) rfl ?_
                exact Keeps.refl _ _
              · extract_lets +onlyGivenNames z7
                split
                · refine Keeps.step (State.conclude_keeps ..) rfl ?_
                  exact Keeps.refl _ _
                · refine Keeps.step (State.modHost_keeps ..) rfl ?_
                  exact Keeps.refl _ _

theorem execFirmwareCommitWriteDone_keeps (upset : Bool) (s : State) :
    KeepsR [.events, .decode, .host, .sec] s (execFirmwareCommitWriteDone upset s) := by
  unfold execFirmwareCommitWriteDone
  split
  · refine KeepsR.next ?_
    exact Keeps.refl _ _
  · refine KeepsR.when ?_ ?_
    · exact Keeps.refl _ _
    · extract_lets +onlyGivenNames z1
      extract_lets +onlyGivenNames z2
      refine Keeps.cut (x := z2) ?_ (fun h3 => ?_)
      · unfold z2
        refine Keeps.step (State.flashWrite_keeps ..) rfl ?_
        exact Keeps.refl _ _
      clear_value z2
      extract_lets +onlyGivenNames z4
      split
      · refine Keeps.step (State.conclude_keeps ..) rfl ?_
        refine Keeps.step (State.logSec_keeps ..) rfl ?_
        refine Keeps.step (State.modHost_keeps ..) rfl ?_
        assumption
      · extract_lets +onlyGivenNames z5
        extract_lets +onlyGivenNames z6
        extract_lets +onlyGivenNames z7
        extract_lets +onlyGivenNames z8
        refine Keeps.cut (x := z8) ?_ (fun h9 => ?_)
        · unfold z8
          refine Keeps.step (State.modHost_keeps ..) rfl ?_
          refine Keeps.step (State.writeDir_keeps ..) rfl ?_
          assumption
        clear_value z8
        split
        · refine Keeps.step (State.modSec_keeps ..) rfl ?_
          refine Keeps.step (State.modHost_keeps ..) rfl ?_
          assumption
        · refine Keeps.step (State.conclude_keeps ..) rfl ?_
          refine Keeps.step (State.modHost_keeps ..) rfl ?_
          assumption

theorem State.securitySend_keeps (s : State) (fn : ℕ) (e : SqEntry) (data : List ℕ) :
    Keeps [.regs, .sec, .out] s (State.securitySend s fn e data).2 := by
  unfold State.securitySend
  extract_lets +onlyGivenNames z1
  split
  · refine Keeps.ofMk ?_
    refine Keeps.step (State.spdm_keeps ..) rfl ?_
    exact Keeps.refl _ _
  · refine Keeps.ofMk ?_
    exact Keeps.refl _ _

theorem State.securityReceive_keeps (s : State) (fn : ℕ) (e : SqEntry) :
    Keeps [.sec] s (State.securityReceive s fn e).2.2 := by
  unfold State.securityReceive
  extract_lets +onlyGivenNames z1
  extract_lets +onlyGivenNames z2
  split
  · refine Keeps.ofMkSnd ?_
    refine Keeps.ofMk ?_
    exact Keeps.refl _ _
  · split
    · refine Keeps.ofMkSnd ?_
      refine Keeps.ofMk ?_
      exact Keeps.refl _ _
    · refine Keeps.ofMkSnd ?_
      refine Keeps.ofMk ?_
      refine Keeps.step (State.modSec_keeps ..) rfl ?_
      exact Keeps.refl _ _
  · refine Keeps.ofMkSnd ?_
    refine Keeps.ofMk ?_
    exact Keeps.refl _ _

theorem State.abortCommand_keeps (s : State) (c : HostCmd) (e : SqEntry) :
    Keeps [.regs, .decode, .seq, .host, .sec] s (State.abortCommand s c e) := by
  unfold State.abortCommand
  extract_lets +onlyGivenNames z1
  split
  · refine Keeps.step (State.conclude_keeps ..) rfl ?_
    exact Keeps.refl _ _
  · split
    rename_i a2 a3 a4 a5 a6 a7
    extract_lets +onlyGivenNames z8
    refine Keeps.cut (x := z8) ?_ (fun h9 => ?_)
    · unfold z8
      split
      · refine Keeps.step (State.bump_keeps ..) rfl ?_
        refine Keeps.ofThird a7 ?_
        refine Keeps.step (State.abortRequest_keeps ..) rfl ?_
        exact Keeps.refl _ _
      · refine Keeps.ofThird a7 ?_
        refine Keeps.step (State.abortRequest_keeps ..) rfl ?_
        exact Keeps.refl _ _
    clear_value z8
    split
    · refine Keeps.step (State.conclude_keeps ..) rfl ?_
      assumption
    · split
      · refine Keeps.step (State.conclude_keeps ..) rfl ?_
        assumption
      · refine Keeps.step (State.modCmd_keeps ..) rfl ?_
        assumption

theorem State.aerCommand_keeps (s : State) (c : HostCmd) :
    Keeps [.decode, .host] s (State.aerCommand s c) := by
  unfold State.aerCommand
  extract_lets +onlyGivenNames z1
  split
  · refine Keeps.step (State.conclude_keeps ..) rfl ?_
    exact Keeps.refl _ _
  · refine Keeps.step (State.serveAers_keeps ..) rfl ?_
    exact Keeps.refl _ _

theorem State.carryOut_keeps (s : State) (c : HostCmd) (e : SqEntry) (data : List ℕ) :
    Keeps [.events, .regs, .decode, .seq, .mem, .host, .sec, .out, .free] s (State.carryOut s c e data) := by
  unfold State.carryOut
  extract_lets +onlyGivenNames z1
  split
  · unfold z1
    refine Keeps.step (State.conclude_keeps ..) rfl ?_
    refine Keeps.step (State.deleteSq_keeps ..) rfl ?_
    exact Keeps.refl _ _
  · unfold z1
    refine Keeps.step (State.conclude_keeps ..) rfl ?_
    refine Keeps.step (State.createSq_keeps ..) rfl ?_
    exact Keeps.refl _ _
  · split
    rename_i a2 a3 a4 a5 a6 a7 a8
    refine Keeps.step (State.conclude_keeps ..) rfl ?_
    refine Keeps.ofThird a8 ?_
    refine Keeps.step (State.getLogPage_keeps ..) rfl ?_
    exact Keeps.refl _ _
  · unfold z1
    refine Keeps.step (State.conclude_keeps ..) rfl ?_
    refine Keeps.step (State.deleteCq_keeps ..) rfl ?_
    exact Keeps.refl _ _
  · unfold z1
    refine Keeps.step (State.conclude_keeps ..) rfl ?_
    refine Keeps.step (State.createCq_keeps ..) rfl ?_
    exact Keeps.refl _ _
  · split
    rename_i a9 a10 a11 a12 a13 a14 a15
    refine Keeps.step (State.conclude_keeps ..) rfl ?_
    refine Keeps.ofThird a15 ?_
    refine Keeps.step (State.identify_keeps ..) rfl ?_
    exact Keeps.refl _ _
  · split
    rename_i a16 a17 a18 a19 a20 a21 a22
    refine Keeps.step (State.conclude_keeps ..) rfl ?_
    refine Keeps.ofThird a22 ?_
    refine Keeps.step (State.setFeatures_keeps ..) rfl ?_
    exact Keeps.refl _ _
  · split
    rename_i a23 a24 a25 a26 a27 a28 a29
    refine Keeps.step (State.conclude_keeps ..) rfl ?_
    refine Keeps.ofThird a29 ?_
    refine Keeps.step (State.getFeatures_keeps ..) rfl ?_
    exact Keeps.refl _ _
  · refine Keeps.step (State.manageNamespace_keeps ..) rfl ?_
    exact Keeps.refl _ _
  · unfold z1
    refine Keeps.step (State.conclude_keeps ..) rfl ?_
    refine Keeps.step (State.downloadImage_keeps ..) rfl ?_
    exact Keeps.refl _ _
  · unfold z1
    refine Keeps.step (State.conclude_keeps ..) rfl ?_
    refine Keeps.step (State.attachNamespace_keeps ..) rfl ?_
    exact Keeps.refl _ _
  · unfold z1
    refine Keeps.step (State.conclude_keeps ..) rfl ?_
    refine Keeps.step (State.securitySend_keeps ..) rfl ?_
    exact Keeps.refl _ _
  · split
    rename_i a30 a31 a32 a33 a34 a35 a36
    refine Keeps.step (State.conclude_keeps ..) rfl ?_
    refine Keeps.ofThird a36 ?_
    refine Keeps.step (State.securityReceive_keeps ..) rfl ?_
    exact Keeps.refl _ _
  · refine Keeps.step (State.conclude_keeps ..) rfl ?_
    exact Keeps.refl _ _

theorem State.startCommand_keeps (s : State) (c : HostCmd) (e : SqEntry) (data : List ℕ) :
    Keeps [.events, .regs, .decode, .seq, .mem, .host, .sec, .out, .free] s (State.startCommand s c e data) := by
  unfold State.startCommand
  split
  · refine Keeps.step (State.carryOut_keeps ..) rfl ?_
    exact Keeps.refl _ _
  · refine Keeps.step (State.abortCommand_keeps ..) rfl ?_
    exact Keeps.refl _ _
  · refine Keeps.step (State.aerCommand_keeps ..) rfl ?_
    exact Keeps.refl _ _
  · refine Keeps.step (State.commitFirmware_keeps ..) rfl ?_
    exact Keeps.refl _ _
  · split
    · refine Keeps.step (State.conclude_keeps ..) rfl ?_
      exact Keeps.refl _ _
    · extract_lets +onlyGivenNames z1
      refine Keeps.cut (x := z1) ?_ (fun h2 => ?_)
      · unfold z1
        refine Keeps.step (State.memWrite_keeps ..) rfl ?_
        exact Keeps.refl _ _
      clear_value z1
      refine Keeps.foldl ?_ (fun _ _ _ => ?_)
      · assumption
      · refine Keeps.step (State.enterLock_keeps ..) rfl ?_
        assumption
  · refine Keeps.foldl ?_ (fun _ _ _ => ?_)
    · exact Keeps.refl _ _
    · refine Keeps.step (State.enterLock_keeps ..) rfl ?_
      assumption

end Sys2Proof.Machine
end

