-- ==== Sys2Proof/Laws/KeepsCal.lean ====
section
/-!
SUPPORT. Laws/KeepsCal.lean: which parts of a state each operation of Machine/Cal.lean may change, and that it keeps a sound
state sound.
-/

namespace Sys2Proof.Machine

theorem State.modCal_keeps (s : State) (f : CalState → CalState) :
    Keeps [.cal] s (State.modCal s f) := by
  unfold State.modCal
  refine Keeps.calTo rfl ?_
  exact Keeps.refl _ _

theorem State.logCal_keeps (s : State) (code : ℕ) (a0 : ℕ) (a1 : ℕ) (a2 : ℕ) (a3 : ℕ) :
    Keeps [.events] s (State.logCal s code a0 a1 a2 a3) := by
  unfold State.logCal
  refine Keeps.step (State.log_keeps ..) rfl ?_
  exact Keeps.refl _ _

theorem execBandgapCompare_keeps (dev : ℕ) (s : State) :
    KeepsR [.events, .regs, .decode, .host, .cal] s (execBandgapCompare dev s) := by
  unfold execBandgapCompare
  refine KeepsR.when ?_ ?_
  · exact Keeps.refl _ _
  · extract_lets +onlyGivenNames z1
    extract_lets +onlyGivenNames z2
    extract_lets +onlyGivenNames z3
    refine Keeps.cut (x := z3) ?_ (fun h4 => ?_)
    · unfold z3
      refine Keeps.step (State.modCal_keeps ..) rfl ?_
      exact Keeps.refl _ _
    clear_value z3
    split
    · extract_lets +onlyGivenNames z5
      refine Keeps.cut (x := z5) ?_ (fun h6 => ?_)
      · unfold z5
        refine Keeps.step (State.setFld_keeps ..) rfl ?_
        assumption
      clear_value z5
      refine Keeps.step (State.logCal_keeps ..) rfl ?_
      refine Keeps.step (State.setWarnings_keeps ..) rfl ?_
      assumption
    · assumption

theorem State.markAdcBad_keeps (s : State) (c : ℕ) :
    Keeps [.regs] s (State.markAdcBad s c) := by
  unfold State.markAdcBad
  split
  · refine Keeps.step (State.setFld_keeps ..) rfl ?_
    exact Keeps.refl _ _
  · refine Keeps.step (State.setFld_keeps ..) rfl ?_
    exact Keeps.refl _ _

theorem State.adcTarget_keeps (s : State) (c : ℕ) (pairs : List (ℤ × ℤ)) :
    Keeps [.events, .regs, .free] s (State.adcTarget s c pairs) := by
  unfold State.adcTarget
  extract_lets +onlyGivenNames z1
  extract_lets +onlyGivenNames z2
  extract_lets +onlyGivenNames z3
  extract_lets +onlyGivenNames z4
  extract_lets +onlyGivenNames z5
  split
  rename_i a6 a7 a8 a9
  extract_lets +onlyGivenNames z10
  refine Keeps.cut (x := z10) ?_ (fun h11 => ?_)
  · unfold z10
    split
    · refine Keeps.ofSnd a9 ?_
      refine Keeps.step (State.draw_keeps ..) rfl ?_
      exact Keeps.refl _ _
    · exact Keeps.refl _ _
  clear_value z10
  extract_lets +onlyGivenNames z12
  split
  · refine Keeps.step (State.setReg_keeps ..) rfl ?_
    assumption
  · refine Keeps.step (State.logCal_keeps ..) rfl ?_
    refine Keeps.step (State.markAdcBad_keeps ..) rfl ?_
    assumption

theorem execCalibrationSlots_keeps (z : List ℤ) (r : List ℤ) (s : State) :
    KeepsR [.events, .regs, .cal, .free] s (execCalibrationSlots z r s) := by
  unfold execCalibrationSlots
  refine KeepsR.when ?_ ?_
  · exact Keeps.refl _ _
  · extract_lets +onlyGivenNames z1
    refine Keeps.cut (x := z1) ?_ (fun h2 => ?_)
    · unfold z1
      refine Keeps.step (State.modCal_keeps ..) rfl ?_
      exact Keeps.refl _ _
    clear_value z1
    split
    · assumption
    · refine Keeps.foldl ?_ (fun _ _ _ => ?_)
      · assumption
      · split
        · rename_i a3 a4 a5 a6 a7
          refine Keeps.step (State.adcTarget_keeps ..) rfl ?_
          assumption
        · rename_i a8 a9 a10 a11 a12
          assumption

theorem State.setApplied_keeps (s : State) (c : ℕ) (g : ℤ × ℤ) :
    Keeps [.regs] s (State.setApplied s c g) := by
  unfold State.setApplied
  refine Keeps.step (State.setReg_keeps ..) rfl ?_
  exact Keeps.refl _ _

theorem State.showSlew_keeps (s : State) :
    Keeps [.regs] s (State.showSlew s) := by
  unfold State.showSlew
  refine Keeps.step (State.setFld_keeps ..) rfl ?_
  exact Keeps.refl _ _

theorem execCalibrationCopy_keeps (s : State) :
    KeepsR [.events, .regs, .cal] s (execCalibrationCopy s) := by
  unfold execCalibrationCopy
  split
  · refine KeepsR.next ?_
    exact Keeps.refl _ _
  · extract_lets +onlyGivenNames z1
    extract_lets +onlyGivenNames z2
    extract_lets +onlyGivenNames z3
    refine KeepsR.cut (x := z3) ?_ (fun h4 => ?_)
    · unfold z3
      refine Keeps.step (State.modCal_keeps ..) rfl ?_
      exact Keeps.refl _ _
    clear_value z3
    extract_lets +onlyGivenNames z5
    refine KeepsR.cut (x := z5) ?_ (fun h6 => ?_)
    · unfold z5
      split
      · refine Keeps.foldl ?_ (fun _ _ _ => ?_)
        · assumption
        · refine Keeps.step (State.setApplied_keeps ..) rfl ?_
          assumption
      · assumption
    clear_value z5
    refine KeepsR.next ?_
    refine Keeps.step (State.logCal_keeps ..) rfl ?_
    refine Keeps.step (State.showSlew_keeps ..) rfl ?_
    assumption

theorem execCalibrationSlew_keeps (s : State) :
    KeepsR [.regs] s (execCalibrationSlew s) := by
  unfold execCalibrationSlew
  refine KeepsR.when ?_ ?_
  · exact Keeps.refl _ _
  · extract_lets +onlyGivenNames z1
    extract_lets +onlyGivenNames z2
    extract_lets +onlyGivenNames z3
    refine Keeps.cut (x := z3) ?_ (fun h4 => ?_)
    · unfold z3
      refine Keeps.foldl ?_ (fun _ _ _ => ?_)
      · exact Keeps.refl _ _
      · extract_lets +onlyGivenNames z5
        refine Keeps.step (State.setApplied_keeps ..) rfl ?_
        assumption
    clear_value z3
    refine Keeps.step (State.showSlew_keeps ..) rfl ?_
    assumption

theorem State.writeAdcTarget_keeps (s : State) (c : ℕ) (val : Word) :
    Keeps [.events, .regs] s (State.writeAdcTarget s c val) := by
  unfold State.writeAdcTarget
  split
  · exact Keeps.refl _ _
  · extract_lets +onlyGivenNames z1
    extract_lets +onlyGivenNames z2
    extract_lets +onlyGivenNames z3
    refine Keeps.cut (x := z3) ?_ (fun h4 => ?_)
    · unfold z3
      refine Keeps.step (State.setReg_keeps ..) rfl ?_
      exact Keeps.refl _ _
    clear_value z3
    split
    · assumption
    · refine Keeps.step (State.logCal_keeps ..) rfl ?_
      assumption

theorem execAdcTargetWrite_keeps (c : Fin 33) (val : Word) (s : State) :
    KeepsR [.events, .regs] s (execAdcTargetWrite c val s) := by
  unfold execAdcTargetWrite
  refine KeepsR.next ?_
  refine Keeps.step (State.writeAdcTarget_keeps ..) rfl ?_
  exact Keeps.refl _ _

theorem State.startTrim_keeps (s : State) :
    Keeps [.events, .regs, .cal] s (State.startTrim s) := by
  unfold State.startTrim
  split
  · refine Keeps.step (State.modCal_keeps ..) rfl ?_
    refine Keeps.step (State.setFld_keeps ..) rfl ?_
    exact Keeps.refl _ _
  · refine Keeps.step (State.logCal_keeps ..) rfl ?_
    exact Keeps.refl _ _

theorem execComparatorTrim_keeps (s : State) :
    KeepsR [.events, .regs, .cal] s (execComparatorTrim s) := by
  unfold execComparatorTrim
  refine KeepsR.next ?_
  refine Keeps.step (State.startTrim_keeps ..) rfl ?_
  exact Keeps.refl _ _

theorem execComparatorTrimDone_keeps (rise : Vector (Fin 64) 3) (fall : Vector (Fin 64) 3) (s : State) :
    KeepsR [.events, .regs, .motion, .cal] s (execComparatorTrimDone rise fall s) := by
  unfold execComparatorTrimDone
  refine KeepsR.when ?_ ?_
  · exact Keeps.refl _ _
  · extract_lets +onlyGivenNames z1
    extract_lets +onlyGivenNames z2
    refine Keeps.cut (x := z2) ?_ (fun h3 => ?_)
    · unfold z2
      refine Keeps.step (State.setFld_keeps ..) rfl ?_
      exact Keeps.refl _ _
    clear_value z2
    extract_lets +onlyGivenNames z4
    refine Keeps.cut (x := z4) ?_ (fun h5 => ?_)
    · unfold z4
      refine Keeps.step (State.setFld_keeps ..) rfl ?_
      assumption
    clear_value z4
    extract_lets +onlyGivenNames z6
    refine Keeps.cut (x := z6) ?_ (fun h7 => ?_)
    · unfold z6
      refine Keeps.step (State.setFld_keeps ..) rfl ?_
      assumption
    clear_value z6
    extract_lets +onlyGivenNames z8
    refine Keeps.cut (x := z8) ?_ (fun h9 => ?_)
    · unfold z8
      refine Keeps.step (State.setFld_keeps ..) rfl ?_
      assumption
    clear_value z8
    extract_lets +onlyGivenNames z10
    refine Keeps.cut (x := z10) ?_ (fun h11 => ?_)
    · unfold z10
      refine Keeps.step (State.logCal_keeps ..) rfl ?_
      refine Keeps.step (State.modCal_keeps ..) rfl ?_
      assumption
    clear_value z10
    split
    · refine Keeps.step (State.spinStart_keeps ..) rfl ?_
      refine Keeps.step (State.modSpin_keeps ..) rfl ?_
      assumption
    · assumption

theorem execTemperatureReport_keeps (readings : List ℤ) (s : State) :
    KeepsR [.events, .regs, .decode, .host] s (execTemperatureReport readings s) := by
  unfold execTemperatureReport
  refine KeepsR.when ?_ ?_
  · exact Keeps.refl _ _
  · extract_lets +onlyGivenNames z1
    extract_lets +onlyGivenNames z2
    refine Keeps.cut (x := z2) ?_ (fun h3 => ?_)
    · unfold z2
      refine Keeps.foldl ?_ (fun _ _ _ => ?_)
      · exact Keeps.refl _ _
      · extract_lets +onlyGivenNames z4
        split
        · rename_i a5 a6 a7 a8
          refine Keeps.step (State.setFld_keeps ..) rfl ?_
          refine Keeps.step (State.setFld_keeps ..) rfl ?_
          assumption
        · rename_i a9 a10 a11 a12
          refine Keeps.step (State.setFld_keeps ..) rfl ?_
          assumption
    clear_value z2
    extract_lets +onlyGivenNames z13
    refine Keeps.cut (x := z13) ?_ (fun h14 => ?_)
    · unfold z13
      split
      · refine Keeps.step (State.setFld_keeps ..) rfl ?_
        refine Keeps.step (State.setFld_keeps ..) rfl ?_
        assumption
      · assumption
    clear_value z13
    refine Keeps.step (State.setWarnings_keeps ..) rfl ?_
    assumption

end Sys2Proof.Machine
end

