-- ==== Sys2Proof/Laws/KeepsDecode.lean ====
section
/-!
SUPPORT. Laws/KeepsDecode.lean: which parts of a state each operation of Machine/Decode.lean may change, and that it keeps a sound
state sound.
-/

namespace Sys2Proof.Machine

theorem State.modEngine_keeps (s : State) (e : Fin 32) (f : FpEngine → FpEngine) :
    Keeps [.decode] s (State.modEngine s e f) := by
  unfold State.modEngine
  refine Keeps.step (State.modDec_keeps ..) rfl ?_
  exact Keeps.refl _ _

theorem State.bindSector_keeps (s : State) (e : Fin 32) (b : Fin 2) (x : Sector) :
    Keeps [.decode] s (State.bindSector s e b x) := by
  unfold State.bindSector
  extract_lets +onlyGivenNames z1
  refine Keeps.cut (x := z1) ?_ (fun h2 => ?_)
  · unfold z1
    refine Keeps.step (State.modEngine_keeps ..) rfl ?_
    exact Keeps.refl _ _
  clear_value z1
  extract_lets +onlyGivenNames z3
  refine Keeps.cut (x := z3) ?_ (fun h4 => ?_)
  · unfold z3
    refine Keeps.step (State.modDec_keeps ..) rfl ?_
    assumption
  clear_value z3
  extract_lets +onlyGivenNames z5
  extract_lets +onlyGivenNames z6
  refine Keeps.step (State.modSector_keeps ..) rfl ?_
  assumption

theorem State.bindReframe_keeps (s : State) (e : Fin 32) (b : Fin 2) (w : DecWork) :
    Keeps [.events, .regs, .decode, .seq, .mem, .out] s (State.bindReframe s e b w) := by
  unfold State.bindReframe
  extract_lets +onlyGivenNames z1
  refine Keeps.cut (x := z1) ?_ (fun h2 => ?_)
  · unfold z1
    refine Keeps.step (State.modDec_keeps ..) rfl ?_
    exact Keeps.refl _ _
  clear_value z1
  extract_lets +onlyGivenNames z3
  extract_lets +onlyGivenNames z4
  refine Keeps.cut (x := z4) ?_ (fun h5 => ?_)
  · unfold z4
    refine Keeps.step (State.modDec_keeps ..) rfl ?_
    assumption
  clear_value z4
  split
  · refine Keeps.step (State.failSector_keeps ..) rfl ?_
    assumption
  · extract_lets +onlyGivenNames z6
    refine Keeps.cut (x := z6.st) ?_ (fun h7 => ?_)
    · unfold z6
      refine Keeps.step (State.memRead_keeps ..) rfl ?_
      assumption
    clear_value z6
    extract_lets +onlyGivenNames z8
    extract_lets +onlyGivenNames z9
    extract_lets +onlyGivenNames z10
    extract_lets +onlyGivenNames z11
    refine Keeps.cut (x := z11) ?_ (fun h12 => ?_)
    · unfold z11
      refine Keeps.step (State.modDec_keeps ..) rfl ?_
      assumption
    clear_value z11
    split
    · refine Keeps.step (State.bindSector_keeps ..) rfl ?_
      assumption
    · refine Keeps.step (State.eraseSector_keeps ..) rfl ?_
      assumption

theorem State.fetchSpilled_keeps (s : State) (x : Sector) :
    Keeps [.events, .regs, .mem, .out] s (State.fetchSpilled s x).2 := by
  unfold State.fetchSpilled
  split
  · refine Keeps.ofMk ?_
    exact Keeps.refl _ _
  · split
    extract_lets +onlyGivenNames z1
    extract_lets +onlyGivenNames z2
    refine Keeps.cut (x := z2.st) ?_ (fun h3 => ?_)
    · unfold z2
      refine Keeps.step (State.memRead_keeps ..) rfl ?_
      exact Keeps.refl _ _
    clear_value z2
    extract_lets +onlyGivenNames z4
    refine Keeps.ofMk ?_
    assumption

theorem execFirstPassBind.bindOr_keeps (e : Fin 32) (b : Fin 2) (bad : Bool) (s : State) (x : Sector) :
    Keeps [.events, .regs, .decode, .seq, .mem, .out] s (execFirstPassBind.bindOr e b bad s x) := by
  unfold execFirstPassBind.bindOr
  split
  · rename_i a1 a2 a3 a4
    split
    · refine Keeps.step (State.eraseSector_keeps ..) rfl ?_
      refine Keeps.ofSnd a4 ?_
      refine Keeps.step (State.fetchSpilled_keeps ..) rfl ?_
      exact Keeps.refl _ _
    · refine Keeps.step (State.bindSector_keeps ..) rfl ?_
      refine Keeps.step (State.modSector_keeps ..) rfl ?_
      refine Keeps.ofSnd a4 ?_
      refine Keeps.step (State.fetchSpilled_keeps ..) rfl ?_
      exact Keeps.refl _ _
  · rename_i a5 a6 a7
    refine Keeps.step (State.eraseSector_keeps ..) rfl ?_
    refine Keeps.ofSnd a7 ?_
    refine Keeps.step (State.fetchSpilled_keeps ..) rfl ?_
    exact Keeps.refl _ _

theorem execFirstPassBind_keeps (e : Fin 32) (b : Fin 2) (bad : Bool) (s : State) :
    KeepsR [.events, .regs, .decode, .seq, .mem, .out] s (execFirstPassBind e b bad s) := by
  unfold execFirstPassBind
  split
  · refine KeepsR.next ?_
    exact Keeps.refl _ _
  · extract_lets +onlyGivenNames z1
    extract_lets +onlyGivenNames z2
    split
    · refine KeepsR.next ?_
      refine Keeps.step (State.bindReframe_keeps ..) rfl ?_
      exact Keeps.refl _ _
    · refine KeepsR.next ?_
      split
      · refine Keeps.step (State.bindReframe_keeps ..) rfl ?_
        exact Keeps.refl _ _
      · refine Keeps.step (execFirstPassBind.bindOr_keeps ..) rfl ?_
        exact Keeps.refl _ _
    · refine KeepsR.next ?_
      refine Keeps.step (execFirstPassBind.bindOr_keeps ..) rfl ?_
      exact Keeps.refl _ _
    · refine KeepsR.next ?_
      exact Keeps.refl _ _

theorem execFirstPassStart_keeps (e : Fin 32) (bufErr : Bool) (s : State) :
    KeepsR [.events, .regs, .decode, .seq, .mem, .out] s (execFirstPassStart e bufErr s) := by
  unfold execFirstPassStart
  extract_lets +onlyGivenNames z1
  extract_lets +onlyGivenNames z2
  split
  · extract_lets +onlyGivenNames z3
    extract_lets +onlyGivenNames z4
    refine KeepsR.cut (x := z4) ?_ (fun h5 => ?_)
    · unfold z4
      refine Keeps.step (State.modEngine_keeps ..) rfl ?_
      exact Keeps.refl _ _
    clear_value z4
    split
    · refine KeepsR.next ?_
      refine Keeps.step (State.eraseSector_keeps ..) rfl ?_
      refine Keeps.step (State.countSector_keeps ..) rfl ?_
      assumption
    · extract_lets +onlyGivenNames z6
      extract_lets +onlyGivenNames z7
      extract_lets +onlyGivenNames z8
      refine KeepsR.cut (x := z8) ?_ (fun h9 => ?_)
      · unfold z8
        refine Keeps.step (State.modEngine_keeps ..) rfl ?_
        assumption
      clear_value z8
      refine KeepsR.next ?_
      refine Keeps.step (State.modSector_keeps ..) rfl ?_
      assumption
  · refine KeepsR.next ?_
    exact Keeps.refl _ _

theorem State.endFirstPass_keeps (s : State) (x : Sector) (c : DecodeCore) (post : Array ℤ) (w : ℕ) (iters : ℕ) :
    Keeps [.events, .regs, .heads, .decode, .seq, .mem, .out, .free] s (State.endFirstPass s x c post w iters) := by
  unfold State.endFirstPass
  extract_lets +onlyGivenNames z1
  extract_lets +onlyGivenNames z2
  refine Keeps.cut (x := z2) ?_ (fun h3 => ?_)
  · unfold z2
    refine Keeps.step (State.modSector_keeps ..) rfl ?_
    exact Keeps.refl _ _
  clear_value z2
  split
  · refine Keeps.step (State.acceptSector_keeps ..) rfl ?_
    assumption
  · split
    · refine Keeps.step (State.eraseSector_keeps ..) rfl ?_
      refine Keeps.step (State.countSector_keeps ..) rfl ?_
      assumption
    · refine Keeps.step (State.enterDeep_keeps ..) rfl ?_
      assumption

theorem State.runFirstPass_keeps (s : State) (e : Fin 32) (x : Sector) (c : DecodeCore) (extra : ℕ) :
    Keeps [.events, .regs, .heads, .decode, .seq, .mem, .out, .free] s (State.runFirstPass s e x c extra) := by
  unfold State.runFirstPass
  split
  extract_lets +onlyGivenNames z1
  extract_lets +onlyGivenNames z2
  split
  · refine Keeps.step (State.endFirstPass_keeps ..) rfl ?_
    refine Keeps.step (State.modEngine_keeps ..) rfl ?_
    exact Keeps.refl _ _
  · extract_lets +onlyGivenNames z3
    extract_lets +onlyGivenNames z4
    refine Keeps.cut (x := z4) ?_ (fun h5 => ?_)
    · unfold z4
      refine Keeps.step (State.modEngine_keeps ..) rfl ?_
      exact Keeps.refl _ _
    clear_value z4
    refine Keeps.step (State.modSector_keeps ..) rfl ?_
    assumption

theorem execFirstPassIterationEnd_keeps (e : Fin 32) (s : State) :
    KeepsR [.events, .regs, .heads, .decode, .seq, .mem, .out, .free] s (execFirstPassIterationEnd e s) := by
  unfold execFirstPassIterationEnd
  split
  · refine KeepsR.next ?_
    exact Keeps.refl _ _
  · split
    · refine KeepsR.next ?_
      exact Keeps.refl _ _
    · split
      · refine KeepsR.next ?_
        refine Keeps.step (State.modEngine_keeps ..) rfl ?_
        exact Keeps.refl _ _
      · split
        · split
          extract_lets +onlyGivenNames z1
          extract_lets +onlyGivenNames z2
          extract_lets +onlyGivenNames z3
          refine KeepsR.cut (x := z3) ?_ (fun h4 => ?_)
          · unfold z3
            refine Keeps.step (State.modEngine_keeps ..) rfl ?_
            exact Keeps.refl _ _
          clear_value z3
          refine KeepsR.next ?_
          refine Keeps.step (State.modSector_keeps ..) rfl ?_
          assumption
        · split
          extract_lets +onlyGivenNames z5
          extract_lets +onlyGivenNames z6
          split
          extract_lets +onlyGivenNames z7
          split
          extract_lets +onlyGivenNames z8
          extract_lets +onlyGivenNames z9
          extract_lets +onlyGivenNames z10
          refine KeepsR.cut (x := z10) ?_ (fun h11 => ?_)
          · unfold z10
            split
            · refine Keeps.step (State.bump_keeps ..) rfl ?_
              exact Keeps.refl _ _
            · exact Keeps.refl _ _
          clear_value z10
          extract_lets +onlyGivenNames z12
          split
          extract_lets +onlyGivenNames z13
          extract_lets +onlyGivenNames z14
          extract_lets +onlyGivenNames z15
          extract_lets +onlyGivenNames z16
          refine KeepsR.cut (x := z16) ?_ (fun h17 => ?_)
          · unfold z16
            refine Keeps.step (State.modSector_keeps ..) rfl ?_
            assumption
          clear_value z16
          extract_lets +onlyGivenNames z18
          split
          · refine KeepsR.next ?_
            refine Keeps.step (State.endFirstPass_keeps ..) rfl ?_
            refine Keeps.step (State.modEngine_keeps ..) rfl ?_
            assumption
          · refine KeepsR.next ?_
            refine Keeps.step (State.modEngine_keeps ..) rfl ?_
            assumption
        · refine KeepsR.next ?_
          refine Keeps.step (State.runFirstPass_keeps ..) rfl ?_
          exact Keeps.refl _ _
        · refine KeepsR.next ?_
          refine Keeps.step (State.runFirstPass_keeps ..) rfl ?_
          exact Keeps.refl _ _

theorem execDeepStart_keeps (e : Fin 4) (bad : Bool) (s : State) :
    KeepsR [.events, .regs, .decode, .seq, .mem, .out] s (execDeepStart e bad s) := by
  unfold execDeepStart
  split
  · extract_lets +onlyGivenNames z1
    refine KeepsR.cut (x := z1) ?_ (fun h2 => ?_)
    · unfold z1
      refine Keeps.step (State.deepEpisode_keeps ..) rfl ?_
      refine Keeps.step (State.modDec_keeps ..) rfl ?_
      exact Keeps.refl _ _
    clear_value z1
    split
    · refine KeepsR.next ?_
      assumption
    · extract_lets +onlyGivenNames z3
      refine KeepsR.cut (x := z3.st) ?_ (fun h4 => ?_)
      · unfold z3
        refine Keeps.step (State.memRead_keeps ..) rfl ?_
        assumption
      clear_value z3
      extract_lets +onlyGivenNames z5
      refine KeepsR.cut (x := z5) ?_ (fun h6 => ?_)
      · unfold z5
        assumption
      clear_value z5
      split
      · refine KeepsR.next ?_
        refine Keeps.step (State.eraseSector_keeps ..) rfl ?_
        refine Keeps.step (State.countSector_keeps ..) rfl ?_
        assumption
      · extract_lets +onlyGivenNames z7
        extract_lets +onlyGivenNames z8
        refine KeepsR.cut (x := z8) ?_ (fun h9 => ?_)
        · unfold z8
          refine Keeps.step (State.modDec_keeps ..) rfl ?_
          assumption
        clear_value z8
        refine KeepsR.next ?_
        refine Keeps.step (State.modSector_keeps ..) rfl ?_
        assumption
  · refine KeepsR.next ?_
    exact Keeps.refl _ _

theorem execDeepIterationEnd_keeps (e : Fin 4) (s : State) :
    KeepsR [.events, .regs, .heads, .decode, .seq, .mem, .out, .free] s (execDeepIterationEnd e s) := by
  unfold execDeepIterationEnd
  split
  · refine KeepsR.next ?_
    exact Keeps.refl _ _
  · split
    · refine KeepsR.next ?_
      exact Keeps.refl _ _
    · extract_lets +onlyGivenNames z1
      refine KeepsR.cut (x := z1) ?_ (fun h2 => ?_)
      · unfold z1
        refine Keeps.step (State.modDec_keeps ..) rfl ?_
        exact Keeps.refl _ _
      clear_value z1
      split
      · refine KeepsR.next ?_
        assumption
      · split
        extract_lets +onlyGivenNames z3
        extract_lets +onlyGivenNames z4
        extract_lets +onlyGivenNames z5
        extract_lets +onlyGivenNames z6
        extract_lets +onlyGivenNames z7
        split
        · refine KeepsR.next ?_
          refine Keeps.step (State.acceptSector_keeps ..) rfl ?_
          refine Keeps.step (State.modSector_keeps ..) rfl ?_
          assumption
        · split
          · refine KeepsR.next ?_
            refine Keeps.step (State.eraseSector_keeps ..) rfl ?_
            refine Keeps.step (State.countSector_keeps ..) rfl ?_
            assumption
          · extract_lets +onlyGivenNames z8
            extract_lets +onlyGivenNames z9
            refine KeepsR.cut (x := z9) ?_ (fun h10 => ?_)
            · unfold z9
              refine Keeps.step (State.modDec_keeps ..) rfl ?_
              exact Keeps.refl _ _
            clear_value z9
            refine KeepsR.next ?_
            refine Keeps.step (State.modSector_keeps ..) rfl ?_
            assumption

theorem State.readMembers_keeps (s : State) (mask : ℕ) (addrs : List ℕ) :
    Keeps [.events, .regs, .mem, .out] s (State.readMembers s mask addrs).2 := by
  unfold State.readMembers
  refine Keeps.foldlSnd ?_ (fun _ _ _ => ?_)
  · refine Keeps.ofMk ?_
    exact Keeps.refl _ _
  · split
    rename_i a1 a2 a3 a4 a5
    split
    split
    · refine Keeps.ofMk ?_
      assumption
    · extract_lets +onlyGivenNames z6
      refine Keeps.cut (x := z6.st) ?_ (fun h7 => ?_)
      · unfold z6
        refine Keeps.step (State.memRead_keeps ..) rfl ?_
        assumption
      clear_value z6
      refine Keeps.ofMk ?_
      assumption

theorem State.planTwill_keeps (s : State) (j : TwillJob) :
    Keeps [.events, .regs, .mem, .out] s (State.planTwill s j).2.2 := by
  unfold State.planTwill
  split
  split
  · refine Keeps.ofMkSnd ?_
    refine Keeps.ofMk ?_
    exact Keeps.refl _ _
  · split
    rename_i a1 a2 a3 a4 a5 a6 a7 a8 a9
    split
    extract_lets +onlyGivenNames z10
    refine Keeps.ofMkSnd ?_
    refine Keeps.ofMk ?_
    refine Keeps.ofSnd a9 ?_
    refine Keeps.step (State.readMembers_keeps ..) rfl ?_
    exact Keeps.refl _ _

theorem execTwillJobStart_keeps (s : State) :
    KeepsR [.events, .regs, .decode, .mem, .out] s (execTwillJobStart s) := by
  unfold execTwillJobStart
  extract_lets +onlyGivenNames z1
  split
  · refine KeepsR.next ?_
    unfold z1
    split
    rename_i a2 a3 a4 a5 a6 a7 a8 a9 a10 a11 a12 a13 a14
    extract_lets +onlyGivenNames z15
    refine Keeps.step (State.modDec_keeps ..) rfl ?_
    refine Keeps.step (State.modDec_keeps ..) rfl ?_
    exact Keeps.refl _ _
  · refine KeepsR.next ?_
    unfold z1
    split
    rename_i a16 a17 a18 a19 a20 a21 a22 a23 a24 a25 a26 a27 a28 a29
    extract_lets +onlyGivenNames z30
    refine Keeps.step (State.modDec_keeps ..) rfl ?_
    refine Keeps.step (State.modDec_keeps ..) rfl ?_
    exact Keeps.refl _ _
  · refine KeepsR.next ?_
    unfold z1
    split
    rename_i a31 a32 a33 a34 a35 a36 a37 a38 a39 a40 a41 a42 a43 a44 a45
    extract_lets +onlyGivenNames z46
    refine Keeps.step (State.modDec_keeps ..) rfl ?_
    refine Keeps.step (State.modDec_keeps ..) rfl ?_
    exact Keeps.refl _ _
  · refine KeepsR.next ?_
    exact Keeps.refl _ _

theorem State.countTwill_keeps {P : List Part} {s0 : State} {s : State} {p : TwillPlan} {head : ℕ} {band : ℕ} {g : ℕ} {unk : ℕ}
    {enc : Bool} {count : State → ℕ → ℕ → State} (hP : Part.sub [.events] P = true) (hcount : ∀ a0 a1 a2, Keeps P s0 a0 → Keeps P s0
    (count a0 a1 a2)) (hs : Keeps P s0 s) :
    Keeps P s0 (State.countTwill s p head band g unk enc count) := by
  unfold State.countTwill
  split
  · refine Keeps.step (State.logDec_keeps ..) (Part.sub_trans rfl hP) ?_
    refine hcount _ _ _ ?_
    assumption
  · split
    · refine Keeps.step (State.logDec_keeps ..) (Part.sub_trans rfl hP) ?_
      refine hcount _ _ _ ?_
      assumption
    · split
      · assumption
      · refine hcount _ _ _ ?_
        assumption

theorem State.putMember_keeps (s : State) (g : Group) (d : ℕ) (corrected : Bool) (spec : Option (ℕ × ℕ)) (e : ℕ × List ℕ) :
    Keeps [.events, .regs, .heads, .decode, .mem, .out, .free] s (State.putMember s g d corrected spec e) := by
  unfold State.putMember
  split
  rename_i a1 a2 a3 a4
  extract_lets +onlyGivenNames z5
  extract_lets +onlyGivenNames z6
  extract_lets +onlyGivenNames z7
  refine Keeps.cut (x := z7) ?_ (fun h8 => ?_)
  · unfold z7
    refine Keeps.step (State.releaseCopy_keeps ..) rfl ?_
    refine Keeps.step (State.memWrite_keeps ..) rfl ?_
    refine Keeps.ofSnd a4 ?_
    refine Keeps.step (State.payloadAddr_keeps ..) rfl ?_
    exact Keeps.refl _ _
  clear_value z7
  extract_lets +onlyGivenNames z9
  refine Keeps.step (State.emitRecord_keeps ..) rfl ?_
  assumption

theorem State.endGroupJob_keeps (s : State) (g : Group) :
    Keeps [.events, .regs, .heads, .decode, .mem, .out, .free] s (State.endGroupJob s g) := by
  unfold State.endGroupJob
  split
  rename_i a1 a2 a3 a4 a5
  extract_lets +onlyGivenNames z6
  extract_lets +onlyGivenNames z7
  extract_lets +onlyGivenNames z8
  refine Keeps.cut (x := z8) ?_ (fun h9 => ?_)
  · unfold z8
    refine Keeps.foldl ?_ (fun _ _ _ => ?_)
    · refine Keeps.ofThird a5 ?_
      refine Keeps.step (State.planTwill_keeps ..) rfl ?_
      exact Keeps.refl _ _
    · refine Keeps.step (State.putMember_keeps ..) rfl ?_
      assumption
  clear_value z8
  extract_lets +onlyGivenNames z10
  refine Keeps.cut (x := z10) ?_ (fun h11 => ?_)
  · unfold z10
    refine Keeps.step (State.emitGroup_keeps ..) rfl ?_
    assumption
  clear_value z10
  refine State.countTwill_keeps ?_ ?_ ?_
  · exact rfl
  · intro y12 y13
    intro y14 y15
    refine Keeps.step (State.countIn_keeps ..) rfl ?_
    assumption
  · assumption

theorem State.putOutput_keeps (s : State) (w : DecWork) (layer : ℕ) (band : ℕ) (head : ℕ) (g : ℕ) (addr : ℕ) (corrected : Bool)
    (stamp : Stamp) (e : ℕ × List ℕ) :
    Keeps [.events, .regs, .heads, .decode, .mem, .out, .free] s (State.putOutput s w layer band head g addr corrected stamp e) := by
  unfold State.putOutput
  extract_lets +onlyGivenNames z1
  refine Keeps.cut (x := z1) ?_ (fun h2 => ?_)
  · unfold z1
    refine Keeps.step (State.memWrite_keeps ..) rfl ?_
    exact Keeps.refl _ _
  clear_value z1
  extract_lets +onlyGivenNames z3
  extract_lets +onlyGivenNames z4
  refine Keeps.cut (x := z4) ?_ (fun h5 => ?_)
  · unfold z4
    refine Keeps.step (State.releaseCopy_keeps ..) rfl ?_
    assumption
  clear_value z4
  split
  rename_i a6 a7 a8 a9
  extract_lets +onlyGivenNames z10
  refine Keeps.step (State.emitRecord_keeps ..) rfl ?_
  refine Keeps.ofSnd a9 ?_
  refine Keeps.step (State.draw_keeps ..) rfl ?_
  assumption

theorem State.endTwillWork_keeps (s : State) (j : TwillJob) (w : DecWork) (enc : Bool) :
    Keeps [.events, .regs, .heads, .decode, .seq, .mem, .out, .free] s (State.endTwillWork s j w enc) := by
  unfold State.endTwillWork
  split
  rename_i a1 a2 a3 a4 a5
  extract_lets +onlyGivenNames z6
  extract_lets +onlyGivenNames z7
  split
  split
  extract_lets +onlyGivenNames z8
  extract_lets +onlyGivenNames z9
  extract_lets +onlyGivenNames z10
  extract_lets +onlyGivenNames z11
  refine Keeps.cut (x := z11) ?_ (fun h12 => ?_)
  · unfold z11
    refine Keeps.foldl ?_ (fun _ _ _ => ?_)
    · refine Keeps.ofThird a5 ?_
      refine Keeps.step (State.planTwill_keeps ..) rfl ?_
      exact Keeps.refl _ _
    · unfold z10
      extract_lets +onlyGivenNames z13
      split
      · rename_i a14 a15 a16 a17 a18 a19 a20 a21 a22 a23 a24 a25 a26 a27
        refine Keeps.step (State.memWrite_keeps ..) rfl ?_
        assumption
      · rename_i a28 a29 a30 a31 a32 a33 a34 a35 a36 a37 a38 a39 a40 a41
        refine Keeps.step (State.putOutput_keeps ..) rfl ?_
        assumption
  clear_value z11
  extract_lets +onlyGivenNames z42
  refine Keeps.cut (x := z42) ?_ (fun h43 => ?_)
  · unfold z42
    refine Keeps.step (State.emitRecord_keeps ..) rfl ?_
    assumption
  clear_value z42
  extract_lets +onlyGivenNames z44
  refine Keeps.cut (x := z44) ?_ (fun h45 => ?_)
  · unfold z44
    refine State.countTwill_keeps ?_ ?_ ?_
    · exact rfl
    · intro y46 y47
      intro y48 y49
      refine Keeps.step (State.bumpDc_keeps ..) rfl ?_
      assumption
    · assumption
  clear_value z44
  refine Keeps.step (State.completeWork_keeps ..) rfl ?_
  assumption

theorem execTwillJobEnd_keeps (s : State) :
    KeepsR [.events, .regs, .heads, .decode, .seq, .mem, .out, .free] s (execTwillJobEnd s) := by
  unfold execTwillJobEnd
  split
  · refine KeepsR.next ?_
    exact Keeps.refl _ _
  · split
    · refine KeepsR.next ?_
      exact Keeps.refl _ _
    · extract_lets +onlyGivenNames z1
      refine KeepsR.cut (x := z1) ?_ (fun h2 => ?_)
      · unfold z1
        refine Keeps.step (State.modDec_keeps ..) rfl ?_
        exact Keeps.refl _ _
      clear_value z1
      split
      · refine KeepsR.next ?_
        refine Keeps.step (State.endGroupJob_keeps ..) rfl ?_
        assumption
      · refine KeepsR.next ?_
        refine Keeps.step (State.endTwillWork_keeps ..) rfl ?_
        assumption
      · refine KeepsR.next ?_
        refine Keeps.step (State.endTwillWork_keeps ..) rfl ?_
        assumption

theorem execSpJobStart_keeps (s : State) :
    KeepsR [.decode] s (execSpJobStart s) := by
  unfold execSpJobStart
  split
  · split
    extract_lets +onlyGivenNames z1
    refine KeepsR.next ?_
    refine Keeps.step (State.modDec_keeps ..) rfl ?_
    exact Keeps.refl _ _
  · refine KeepsR.next ?_
    exact Keeps.refl _ _

theorem State.endSp_keeps (s : State) (w : DecWork) :
    Keeps [.events, .regs, .heads, .decode, .seq, .mem, .out, .free] s (State.endSp s w) := by
  unfold State.endSp
  split
  extract_lets +onlyGivenNames z1
  split
  · unfold z1
    refine Keeps.step (State.completeWork_keeps ..) rfl ?_
    refine Keeps.step (State.logDec_keeps ..) rfl ?_
    exact Keeps.refl _ _
  · extract_lets +onlyGivenNames z2
    split
    rename_i a3 a4 a5 a6 a7 a8 a9 a10 a11 a12
    split
    · unfold z1
      refine Keeps.step (State.completeWork_keeps ..) rfl ?_
      refine Keeps.step (State.logDec_keeps ..) rfl ?_
      refine Keeps.ofSnd a12 ?_
      refine Keeps.step (State.readMembers_keeps ..) rfl ?_
      exact Keeps.refl _ _
    · extract_lets +onlyGivenNames z13
      extract_lets +onlyGivenNames z14
      extract_lets +onlyGivenNames z15
      extract_lets +onlyGivenNames z16
      refine Keeps.step (State.completeWork_keeps ..) rfl ?_
      refine Keeps.foldl ?_ (fun _ _ _ => ?_)
      · refine Keeps.ofSnd a12 ?_
        refine Keeps.step (State.readMembers_keeps ..) rfl ?_
        exact Keeps.refl _ _
      · unfold z16
        extract_lets +onlyGivenNames z17
        extract_lets +onlyGivenNames z18
        refine Keeps.cut (x := z18) ?_ (fun h19 => ?_)
        · unfold z18
          refine Keeps.step (State.memWrite_keeps ..) rfl ?_
          assumption
        clear_value z18
        split
        · rename_i a20 a21 a22 a23 a24
          assumption
        · rename_i a25 a26 a27 a28 a29
          split
          rename_i a30 a31 a32 a33
          split
          rename_i a34 a35 a36 a37
          split
          extract_lets +onlyGivenNames z38
          refine Keeps.cut (x := z38) ?_ (fun h39 => ?_)
          · unfold z38
            refine Keeps.step (State.releaseCopy_keeps ..) rfl ?_
            refine Keeps.ofSnd a37 ?_
            refine Keeps.step (State.draw_keeps ..) rfl ?_
            refine Keeps.ofSnd a33 ?_
            refine Keeps.step (State.draw_keeps ..) rfl ?_
            assumption
          clear_value z38
          extract_lets +onlyGivenNames z40
          refine Keeps.step (State.emitRecord_keeps ..) rfl ?_
          assumption

theorem execSpJobEnd_keeps (s : State) :
    KeepsR [.events, .regs, .heads, .decode, .seq, .mem, .out, .free] s (execSpJobEnd s) := by
  unfold execSpJobEnd
  split
  · refine KeepsR.next ?_
    exact Keeps.refl _ _
  · refine KeepsR.when ?_ ?_
    · exact Keeps.refl _ _
    · refine Keeps.step (State.endSp_keeps ..) rfl ?_
      refine Keeps.step (State.modDec_keeps ..) rfl ?_
      exact Keeps.refl _ _

theorem execDecodeWorkArrival_keeps (s : State) :
    KeepsR [.decode] s (execDecodeWorkArrival s) := by
  unfold execDecodeWorkArrival
  split
  · refine KeepsR.next ?_
    exact Keeps.refl _ _
  · extract_lets +onlyGivenNames z1
    refine KeepsR.cut (x := z1) ?_ (fun h2 => ?_)
    · unfold z1
      refine Keeps.step (State.modDec_keeps ..) rfl ?_
      exact Keeps.refl _ _
    clear_value z1
    extract_lets +onlyGivenNames z3
    extract_lets +onlyGivenNames z4
    extract_lets +onlyGivenNames z5
    extract_lets +onlyGivenNames z6
    refine KeepsR.next ?_
    refine Keeps.step (State.modDec_keeps ..) rfl ?_
    assumption

theorem execRunAheadDiscardReport_keeps (head : Fin 16) (layer : ℕ) (band : ℕ) (s : State) :
    KeepsR [.events, .regs, .heads, .decode] s (execRunAheadDiscardReport head layer band s) := by
  unfold execRunAheadDiscardReport
  split
  · refine KeepsR.next ?_
    refine Keeps.step (State.discardBand_keeps ..) rfl ?_
    exact Keeps.refl _ _
  · refine KeepsR.next ?_
    exact Keeps.refl _ _

theorem execDcOutConsWrite_keeps (val : Word) (s : State) :
    KeepsR [.events, .regs, .decode, .mem, .out] s (execDcOutConsWrite val s) := by
  unfold execDcOutConsWrite
  extract_lets +onlyGivenNames z1
  refine KeepsR.cut (x := z1) ?_ (fun h2 => ?_)
  · unfold z1
    refine Keeps.step (State.outEpisode_keeps ..) rfl ?_
    refine Keeps.step (State.setFld_keeps ..) rfl ?_
    exact Keeps.refl _ _
  clear_value z1
  refine KeepsR.next ?_
  refine Keeps.step (State.drainRecords_keeps ..) rfl ?_
  assumption

theorem execDcCntClear_keeps (val : Word) (s : State) :
    KeepsR [.regs] s (execDcCntClear val s) := by
  unfold execDcCntClear
  refine KeepsR.next ?_
  split
  · refine Keeps.foldl ?_ (fun _ _ _ => ?_)
    · exact Keeps.refl _ _
    · refine Keeps.step (State.setReg_keeps ..) rfl ?_
      assumption
  · exact Keeps.refl _ _

theorem execDcBaseWrite_keeps (ra : Bool) (lo : Word) (hi : Word) (s : State) :
    KeepsR [.events, .regs] s (execDcBaseWrite ra lo hi s) := by
  unfold execDcBaseWrite
  split
  refine KeepsR.next ?_
  split
  · refine Keeps.step (State.logDec_keeps ..) rfl ?_
    exact Keeps.refl _ _
  · refine Keeps.step (State.setReg_keeps ..) rfl ?_
    refine Keeps.step (State.setReg_keeps ..) rfl ?_
    exact Keeps.refl _ _

end Sys2Proof.Machine
end

