-- ==== Sys2Proof/Laws/KeepsFraming.lean ====
section
/-!
SUPPORT. Laws/KeepsFraming.lean: which parts of a state each operation of Machine/Framing.lean may change, and that it keeps a sound
state sound.
-/

namespace Sys2Proof.Machine

theorem State.missFrame_keeps (s : State) (n : Fin 16) :
    Keeps [.events, .regs, .heads, .decode, .seq, .mem, .motion, .out] s (State.missFrame s n) := by
  unfold State.missFrame
  extract_lets +onlyGivenNames z1
  refine Keeps.cut (x := z1) ?_ (fun h2 => ?_)
  · unfold z1
    refine Keeps.step (State.bump_keeps ..) rfl ?_
    exact Keeps.refl _ _
  clear_value z1
  split
  · extract_lets +onlyGivenNames z3
    extract_lets +onlyGivenNames z4
    extract_lets +onlyGivenNames z5
    extract_lets +onlyGivenNames z6
    refine Keeps.cut (x := z6) ?_ (fun h7 => ?_)
    · unfold z6
      refine Keeps.step (State.setFld_keeps ..) rfl ?_
      assumption
    clear_value z6
    extract_lets +onlyGivenNames z8
    refine Keeps.cut (x := z8) ?_ (fun h9 => ?_)
    · unfold z8
      refine Keeps.step (State.modHead_keeps ..) rfl ?_
      assumption
    clear_value z8
    extract_lets +onlyGivenNames z10
    refine Keeps.cut (x := z10) ?_ (fun h11 => ?_)
    · unfold z10
      refine Keeps.step (State.updateReady_keeps ..) rfl ?_
      assumption
    clear_value z10
    extract_lets +onlyGivenNames z12
    refine Keeps.cut (x := z12) ?_ (fun h13 => ?_)
    · unfold z12
      refine Keeps.step (State.logHead_keeps ..) rfl ?_
      assumption
    clear_value z12
    refine Keeps.step (State.openNotReady_keeps ..) rfl ?_
    refine Keeps.step (State.gateFails_keeps ..) rfl ?_
    assumption
  · assumption

theorem execServoFrame_keeps (head : Fin 16) (no : ℕ) (fwd : Option Stamp) (bwd : Option Stamp) (span : ℕ) (s : State) :
    KeepsR [.events, .regs, .heads, .decode, .loop, .seq, .mem, .motion, .out] s (execServoFrame head no fwd bwd span s) := by
  unfold execServoFrame
  extract_lets +onlyGivenNames z1
  refine KeepsR.when ?_ ?_
  · exact Keeps.refl _ _
  · extract_lets +onlyGivenNames z2
    extract_lets +onlyGivenNames z3
    extract_lets +onlyGivenNames z4
    extract_lets +onlyGivenNames z5
    extract_lets +onlyGivenNames z6
    extract_lets +onlyGivenNames z7
    refine Keeps.cut (x := z7) ?_ (fun h8 => ?_)
    · unfold z7
      refine Keeps.step (State.modHead_keeps ..) rfl ?_
      exact Keeps.refl _ _
    clear_value z7
    extract_lets +onlyGivenNames z9
    refine Keeps.cut (x := z9) ?_ (fun h10 => ?_)
    · unfold z9
      split
      · refine Keeps.step (State.modHead_keeps ..) rfl ?_
        assumption
      · refine Keeps.step (State.modHead_keeps ..) rfl ?_
        assumption
    clear_value z9
    clear_value z5 z6
    split
    · extract_lets +onlyGivenNames z11
      extract_lets +onlyGivenNames z12
      extract_lets +onlyGivenNames z13
      refine Keeps.cut (x := z13) ?_ (fun h14 => ?_)
      · unfold z13
        refine Keeps.step (State.modHead_keeps ..) rfl ?_
        assumption
      clear_value z13
      extract_lets +onlyGivenNames z15
      refine Keeps.cut (x := z15) ?_ (fun h16 => ?_)
      · unfold z15
        split
        · refine Keeps.step (State.updateReady_keeps ..) rfl ?_
          refine Keeps.step (State.setFld_keeps ..) rfl ?_
          assumption
        · refine Keeps.step (State.missFrame_keeps ..) rfl ?_
          assumption
      clear_value z15
      extract_lets +onlyGivenNames z17
      refine Keeps.cut (x := z17) ?_ (fun h18 => ?_)
      · unfold z17
        split
        · extract_lets +onlyGivenNames z19
          extract_lets +onlyGivenNames z20
          refine Keeps.cut (x := z20) ?_ (fun h21 => ?_)
          · unfold z20
            refine Keeps.step (State.modHead_keeps ..) rfl ?_
            assumption
          clear_value z20
          refine Keeps.step (State.modLoopHead_keeps ..) rfl ?_
          assumption
        · assumption
      clear_value z17
      split
      · refine Keeps.step (State.rateMatch_keeps ..) rfl ?_
        assumption
      · assumption
    · refine Keeps.step (State.missFrame_keeps ..) rfl ?_
      assumption

theorem execServoFrameMissed_keeps (head : Fin 16) (no : ℕ) (s : State) :
    KeepsR [.events, .regs, .heads, .decode, .seq, .mem, .motion, .out] s (execServoFrameMissed head no s) := by
  unfold execServoFrameMissed
  refine KeepsR.when ?_ ?_
  · exact Keeps.refl _ _
  · extract_lets +onlyGivenNames z1
    refine Keeps.cut (x := z1) ?_ (fun h2 => ?_)
    · unfold z1
      refine Keeps.step (State.modHead_keeps ..) rfl ?_
      exact Keeps.refl _ _
    clear_value z1
    refine Keeps.step (State.missFrame_keeps ..) rfl ?_
    assumption

theorem State.locateSeam_keeps (s : State) (n : Fin 16) (i0 : ℕ) (w : AddrWord) :
    Keeps [.heads] s (State.locateSeam s n i0 w) := by
  unfold State.locateSeam
  extract_lets +onlyGivenNames z1
  refine Keeps.step (State.modHead_keeps ..) rfl ?_
  exact Keeps.refl _ _

theorem State.setAddr_keeps (s : State) (n : Fin 16) (w : AddrWord) :
    Keeps [.regs] s (State.setAddr s n w) := by
  unfold State.setAddr
  extract_lets +onlyGivenNames z1
  refine Keeps.step (State.setFld_keeps ..) rfl ?_
  refine Keeps.step (State.setFld_keeps ..) rfl ?_
  refine Keeps.step (State.setFld_keeps ..) rfl ?_
  refine Keeps.step (State.setFld_keeps ..) rfl ?_
  exact Keeps.refl _ _

theorem State.acceptWord_keeps (s : State) (n : Fin 16) (i0 : ℕ) (w : AddrWord) :
    Keeps [.events, .regs, .heads, .decode, .seq, .mem, .motion, .out] s (State.acceptWord s n i0 w) := by
  unfold State.acceptWord
  extract_lets +onlyGivenNames z1
  split
  · split
    · refine Keeps.step (State.locateSeam_keeps ..) rfl ?_
      refine Keeps.step (State.setAddr_keeps ..) rfl ?_
      exact Keeps.refl _ _
    · refine Keeps.step (State.disagree_keeps ..) rfl ?_
      exact Keeps.refl _ _
  · split
    · extract_lets +onlyGivenNames z2
      refine Keeps.cut (x := z2) ?_ (fun h3 => ?_)
      · unfold z2
        refine Keeps.step (State.modHead_keeps ..) rfl ?_
        exact Keeps.refl _ _
      clear_value z2
      refine Keeps.step (State.updateReady_keeps ..) rfl ?_
      refine Keeps.step (State.locateSeam_keeps ..) rfl ?_
      refine Keeps.step (State.setAddr_keeps ..) rfl ?_
      refine Keeps.step (State.setFld_keeps ..) rfl ?_
      assumption
    · refine Keeps.step (State.modHead_keeps ..) rfl ?_
      exact Keeps.refl _ _

theorem State.takeWord_keeps (s : State) (n : Fin 16) (i0 : Nat) (w : Option AddrWord) :
    Keeps [.events, .regs, .heads, .decode, .seq, .mem, .motion, .out] s (s.takeWord n i0 w) := by
  cases w with
  | none => exact Keeps.refl _ _
  | some w => exact State.acceptWord_keeps ..

theorem execAddressWord_keeps (head : Fin 16) (s : State) :
    KeepsR [.events, .regs, .heads, .decode, .seq, .mem, .motion, .out] s (execAddressWord head s) := by
  unfold execAddressWord
  extract_lets +onlyGivenNames z1
  extract_lets +onlyGivenNames z2
  split
  · refine KeepsR.next ?_
    exact Keeps.refl _ _
  · extract_lets +onlyGivenNames z3
    refine KeepsR.cut (x := z3) ?_ (fun h4 => ?_)
    · unfold z3
      refine Keeps.step (State.modHead_keeps ..) rfl ?_
      exact Keeps.refl _ _
    clear_value z3
    refine KeepsR.next ?_
    refine Keeps.step (State.takeWord_keeps ..) rfl ?_
    assumption

theorem execHdFmtCfgWrite_keeps (head : Fin 16) (val : Word) (s : State) :
    KeepsR [.events, .regs] s (execHdFmtCfgWrite head val s) := by
  unfold execHdFmtCfgWrite
  extract_lets +onlyGivenNames z1
  extract_lets +onlyGivenNames z2
  split
  · refine KeepsR.next ?_
    refine Keeps.step (State.setFld_keeps ..) rfl ?_
    refine Keeps.step (State.setFld_keeps ..) rfl ?_
    exact Keeps.refl _ _
  · refine KeepsR.next ?_
    refine Keeps.step (State.logHead_keeps ..) rfl ?_
    exact Keeps.refl _ _

end Sys2Proof.Machine
end

