-- ==== Sys2Proof/Laws/KeepsFetch.lean ====
section
/-!
SUPPORT. Laws/KeepsFetch.lean: which parts of a state each operation of Machine/Fetch.lean may change, and that it keeps a sound
state sound.
-/

namespace Sys2Proof.Machine

theorem State.fetch_keeps (s : State) (sel : Bool → ℕ → Bool) (e : SqEntry) (data : List Byte) (walk : PtrWalk) :
    KeepsR [.events, .regs, .decode, .seq, .mem, .host, .sec, .out, .free] s (State.fetch s sel e data walk) := by
  unfold State.fetch
  split
  · refine KeepsR.next ?_
    exact Keeps.refl _ _
  · extract_lets +onlyGivenNames z1
    split
    · refine KeepsR.next ?_
      exact Keeps.refl _ _
    · extract_lets +onlyGivenNames z2
      extract_lets +onlyGivenNames z3
      extract_lets +onlyGivenNames z4
      refine KeepsR.when ?_ ?_
      · exact Keeps.refl _ _
      · extract_lets +onlyGivenNames z5
        extract_lets +onlyGivenNames z6
        extract_lets +onlyGivenNames z7
        refine Keeps.cut (x := z7) ?_ (fun h8 => ?_)
        · unfold z7
          refine Keeps.step (State.modSq_keeps ..) rfl ?_
          exact Keeps.refl _ _
        clear_value z7
        extract_lets +onlyGivenNames z9
        refine Keeps.cut (x := z9) ?_ (fun h10 => ?_)
        · unfold z9
          refine Keeps.step (State.modHost_keeps ..) rfl ?_
          assumption
        clear_value z9
        extract_lets +onlyGivenNames z11
        refine Keeps.cut (x := z11) ?_ (fun h12 => ?_)
        · unfold z11
          refine Keeps.step (State.bump_keeps ..) rfl ?_
          assumption
        clear_value z11
        extract_lets +onlyGivenNames z13
        refine Keeps.cut (x := z13) ?_ (fun h14 => ?_)
        · unfold z13
          clear_value z3
          split
          · refine Keeps.step (State.conclude_keeps ..) rfl ?_
            assumption
          · refine Keeps.step (State.startCommand_keeps ..) rfl ?_
            assumption
        clear_value z13
        refine Keeps.step (State.notePause_keeps ..) rfl ?_
        assumption

theorem execCommandFetch_keeps (entry : SqEntry) (data : List Byte) (walk : PtrWalk) (s : State) :
    KeepsR [.events, .regs, .decode, .seq, .mem, .host, .sec, .out, .free] s (execCommandFetch entry data walk s) := by
  unfold execCommandFetch
  refine KeepsR.step (State.fetch_keeps _ _ _ _ _) rfl ?_
  exact Keeps.refl _ _

theorem execDeleteIoSq_keeps (entry : SqEntry) (s : State) :
    KeepsR [.events, .regs, .decode, .seq, .mem, .host, .sec, .out, .free] s (execDeleteIoSq entry s) := by
  unfold execDeleteIoSq
  refine KeepsR.step (State.fetch_keeps _ _ _ _ _) rfl ?_
  exact Keeps.refl _ _

theorem execDeleteIoCq_keeps (entry : SqEntry) (s : State) :
    KeepsR [.events, .regs, .decode, .seq, .mem, .host, .sec, .out, .free] s (execDeleteIoCq entry s) := by
  unfold execDeleteIoCq
  refine KeepsR.step (State.fetch_keeps _ _ _ _ _) rfl ?_
  exact Keeps.refl _ _

theorem execCreateIoSq_keeps (entry : SqEntry) (s : State) :
    KeepsR [.events, .regs, .decode, .seq, .mem, .host, .sec, .out, .free] s (execCreateIoSq entry s) := by
  unfold execCreateIoSq
  refine KeepsR.step (State.fetch_keeps _ _ _ _ _) rfl ?_
  exact Keeps.refl _ _

theorem execCreateIoCq_keeps (entry : SqEntry) (s : State) :
    KeepsR [.events, .regs, .decode, .seq, .mem, .host, .sec, .out, .free] s (execCreateIoCq entry s) := by
  unfold execCreateIoCq
  refine KeepsR.step (State.fetch_keeps _ _ _ _ _) rfl ?_
  exact Keeps.refl _ _

theorem execGetLogPage_keeps (entry : SqEntry) (walk : PtrWalk) (s : State) :
    KeepsR [.events, .regs, .decode, .seq, .mem, .host, .sec, .out, .free] s (execGetLogPage entry walk s) := by
  unfold execGetLogPage
  refine KeepsR.step (State.fetch_keeps _ _ _ _ _) rfl ?_
  exact Keeps.refl _ _

theorem execIdentify_keeps (entry : SqEntry) (walk : PtrWalk) (s : State) :
    KeepsR [.events, .regs, .decode, .seq, .mem, .host, .sec, .out, .free] s (execIdentify entry walk s) := by
  unfold execIdentify
  refine KeepsR.step (State.fetch_keeps _ _ _ _ _) rfl ?_
  exact Keeps.refl _ _

theorem execAbort_keeps (entry : SqEntry) (s : State) :
    KeepsR [.events, .regs, .decode, .seq, .mem, .host, .sec, .out, .free] s (execAbort entry s) := by
  unfold execAbort
  refine KeepsR.step (State.fetch_keeps _ _ _ _ _) rfl ?_
  exact Keeps.refl _ _

theorem execSetFeatures_keeps (entry : SqEntry) (s : State) :
    KeepsR [.events, .regs, .decode, .seq, .mem, .host, .sec, .out, .free] s (execSetFeatures entry s) := by
  unfold execSetFeatures
  refine KeepsR.step (State.fetch_keeps _ _ _ _ _) rfl ?_
  exact Keeps.refl _ _

theorem execGetFeatures_keeps (entry : SqEntry) (s : State) :
    KeepsR [.events, .regs, .decode, .seq, .mem, .host, .sec, .out, .free] s (execGetFeatures entry s) := by
  unfold execGetFeatures
  refine KeepsR.step (State.fetch_keeps _ _ _ _ _) rfl ?_
  exact Keeps.refl _ _

theorem execAsynchronousEventRequest_keeps (entry : SqEntry) (s : State) :
    KeepsR [.events, .regs, .decode, .seq, .mem, .host, .sec, .out, .free] s (execAsynchronousEventRequest entry s) := by
  unfold execAsynchronousEventRequest
  refine KeepsR.step (State.fetch_keeps _ _ _ _ _) rfl ?_
  exact Keeps.refl _ _

theorem execNamespaceManagement_keeps (entry : SqEntry) (data : List Byte) (walk : PtrWalk) (s : State) :
    KeepsR [.events, .regs, .decode, .seq, .mem, .host, .sec, .out, .free] s (execNamespaceManagement entry data walk s) := by
  unfold execNamespaceManagement
  refine KeepsR.step (State.fetch_keeps _ _ _ _ _) rfl ?_
  exact Keeps.refl _ _

theorem execNamespaceAttachment_keeps (entry : SqEntry) (data : List Byte) (walk : PtrWalk) (s : State) :
    KeepsR [.events, .regs, .decode, .seq, .mem, .host, .sec, .out, .free] s (execNamespaceAttachment entry data walk s) := by
  unfold execNamespaceAttachment
  refine KeepsR.step (State.fetch_keeps _ _ _ _ _) rfl ?_
  exact Keeps.refl _ _

theorem execFirmwareImageDownload_keeps (entry : SqEntry) (data : List Byte) (walk : PtrWalk) (s : State) :
    KeepsR [.events, .regs, .decode, .seq, .mem, .host, .sec, .out, .free] s (execFirmwareImageDownload entry data walk s) := by
  unfold execFirmwareImageDownload
  refine KeepsR.step (State.fetch_keeps _ _ _ _ _) rfl ?_
  exact Keeps.refl _ _

theorem execFirmwareCommit_keeps (entry : SqEntry) (s : State) :
    KeepsR [.events, .regs, .decode, .seq, .mem, .host, .sec, .out, .free] s (execFirmwareCommit entry s) := by
  unfold execFirmwareCommit
  refine KeepsR.step (State.fetch_keeps _ _ _ _ _) rfl ?_
  exact Keeps.refl _ _

theorem execFormatNvm_keeps (entry : SqEntry) (s : State) :
    KeepsR [.events, .regs, .decode, .seq, .mem, .host, .sec, .out, .free] s (execFormatNvm entry s) := by
  unfold execFormatNvm
  refine KeepsR.step (State.fetch_keeps _ _ _ _ _) rfl ?_
  exact Keeps.refl _ _

theorem execSecuritySend_keeps (entry : SqEntry) (data : List Byte) (walk : PtrWalk) (s : State) :
    KeepsR [.events, .regs, .decode, .seq, .mem, .host, .sec, .out, .free] s (execSecuritySend entry data walk s) := by
  unfold execSecuritySend
  refine KeepsR.step (State.fetch_keeps _ _ _ _ _) rfl ?_
  exact Keeps.refl _ _

theorem execSecurityReceive_keeps (entry : SqEntry) (walk : PtrWalk) (s : State) :
    KeepsR [.events, .regs, .decode, .seq, .mem, .host, .sec, .out, .free] s (execSecurityReceive entry walk s) := by
  unfold execSecurityReceive
  refine KeepsR.step (State.fetch_keeps _ _ _ _ _) rfl ?_
  exact Keeps.refl _ _

theorem execFlush_keeps (entry : SqEntry) (s : State) :
    KeepsR [.events, .regs, .decode, .seq, .mem, .host, .sec, .out, .free] s (execFlush entry s) := by
  unfold execFlush
  refine KeepsR.step (State.fetch_keeps _ _ _ _ _) rfl ?_
  exact Keeps.refl _ _

theorem execWrite_keeps (entry : SqEntry) (walk : PtrWalk) (s : State) :
    KeepsR [.events, .regs, .decode, .seq, .mem, .host, .sec, .out, .free] s (execWrite entry walk s) := by
  unfold execWrite
  refine KeepsR.step (State.fetch_keeps _ _ _ _ _) rfl ?_
  exact Keeps.refl _ _

theorem execRead_keeps (entry : SqEntry) (walk : PtrWalk) (s : State) :
    KeepsR [.events, .regs, .decode, .seq, .mem, .host, .sec, .out, .free] s (execRead entry walk s) := by
  unfold execRead
  refine KeepsR.step (State.fetch_keeps _ _ _ _ _) rfl ?_
  exact Keeps.refl _ _

theorem execDatasetManagement_keeps (entry : SqEntry) (data : List Byte) (walk : PtrWalk) (s : State) :
    KeepsR [.events, .regs, .decode, .seq, .mem, .host, .sec, .out, .free] s (execDatasetManagement entry data walk s) := by
  unfold execDatasetManagement
  refine KeepsR.step (State.fetch_keeps _ _ _ _ _) rfl ?_
  exact Keeps.refl _ _

theorem execVerify_keeps (entry : SqEntry) (s : State) :
    KeepsR [.events, .regs, .decode, .seq, .mem, .host, .sec, .out, .free] s (execVerify entry s) := by
  unfold execVerify
  refine KeepsR.step (State.fetch_keeps _ _ _ _ _) rfl ?_
  exact Keeps.refl _ _

theorem execSequencerCall_keeps (entry : SqEntry) (walk : PtrWalk) (s : State) :
    KeepsR [.events, .regs, .decode, .seq, .mem, .host, .sec, .out, .free] s (execSequencerCall entry walk s) := by
  unfold execSequencerCall
  refine KeepsR.step (State.fetch_keeps _ _ _ _ _) rfl ?_
  exact Keeps.refl _ _

theorem execCartridgeLoad_keeps (entry : SqEntry) (s : State) :
    KeepsR [.events, .regs, .decode, .seq, .mem, .host, .sec, .out, .free] s (execCartridgeLoad entry s) := by
  unfold execCartridgeLoad
  refine KeepsR.step (State.fetch_keeps _ _ _ _ _) rfl ?_
  exact Keeps.refl _ _

theorem execMediumHealthReport_keeps (entry : SqEntry) (walk : PtrWalk) (s : State) :
    KeepsR [.events, .regs, .decode, .seq, .mem, .host, .sec, .out, .free] s (execMediumHealthReport entry walk s) := by
  unfold execMediumHealthReport
  refine KeepsR.step (State.fetch_keeps _ _ _ _ _) rfl ?_
  exact Keeps.refl _ _

theorem execCartridgeRelease_keeps (entry : SqEntry) (s : State) :
    KeepsR [.events, .regs, .decode, .seq, .mem, .host, .sec, .out, .free] s (execCartridgeRelease entry s) := by
  unfold execCartridgeRelease
  refine KeepsR.step (State.fetch_keeps _ _ _ _ _) rfl ?_
  exact Keeps.refl _ _

end Sys2Proof.Machine
end

