-- ==== Sys2Proof/Laws/KeepsPass.lean ====
section
/-!
SUPPORT. Laws/KeepsPass.lean: which parts of a state each operation of Machine/Pass.lean may change, and that it keeps a sound
state sound.
-/

namespace Sys2Proof.Machine

theorem execHemRequest_keeps (head : Fin 16) (s : State) :
    KeepsR [.events, .regs, .heads, .decode, .mem, .out] s (execHemRequest head s) := by
  unfold execHemRequest
  refine KeepsR.next ?_
  refine Keeps.step (State.hemRequest_keeps ..) rfl ?_
  exact Keeps.refl _ _

theorem State.recordPending_keeps (s : State) (n : Fin 16) (p : Pass) :
    Keeps [.events, .regs, .decode, .mem, .out] s (State.recordPending s n p) := by
  unfold State.recordPending
  refine Keeps.foldl ?_ (fun _ _ _ => ?_)
  · exact Keeps.refl _ _
  · split
    · rename_i a1 a2 a3 a4
      refine Keeps.step (State.bump_keeps ..) rfl ?_
      refine Keeps.step (State.recordCut_keeps ..) rfl ?_
      assumption
    · rename_i a5 a6 a7 a8
      assumption

theorem State.voidFetched_keeps (s : State) (n : Fin 16) :
    Keeps [.events, .regs, .heads, .mem, .out] s (State.voidFetched s n) := by
  unfold State.voidFetched
  split
  · exact Keeps.refl _ _
  · refine Keeps.foldl ?_ (fun _ _ _ => ?_)
    · exact Keeps.refl _ _
    · split
      rename_i a1 a2 a3 a4 a5 a6 a7 a8
      refine Keeps.step (State.voidSlot_keeps ..) rfl ?_
      assumption

theorem State.withdrawPass_keeps (s : State) (n : Fin 16) (p : Pass) (cut : Stamp) (writeBack : Bool) :
    Keeps [.events, .regs, .heads, .decode, .mem, .out] s (State.withdrawPass s n p cut writeBack) := by
  unfold State.withdrawPass
  extract_lets +onlyGivenNames z1
  refine Keeps.cut (x := z1) ?_ (fun h2 => ?_)
  · unfold z1
    refine Keeps.step (State.requeue_keeps ..) rfl ?_
    exact Keeps.refl _ _
  clear_value z1
  extract_lets +onlyGivenNames z3
  refine Keeps.cut (x := z3) ?_ (fun h4 => ?_)
  · unfold z3
    refine Keeps.step (State.reportVoids_keeps ..) rfl ?_
    refine Keeps.step (State.voidFetched_keeps ..) rfl ?_
    refine Keeps.step (State.settleWrites_keeps ..) rfl ?_
    assumption
  clear_value z3
  extract_lets +onlyGivenNames z5
  refine Keeps.cut (x := z5) ?_ (fun h6 => ?_)
  · unfold z5
    refine Keeps.step (State.modPass_keeps ..) rfl ?_
    assumption
  clear_value z5
  extract_lets +onlyGivenNames z7
  refine Keeps.cut (x := z7) ?_ (fun h8 => ?_)
  · unfold z7
    split
    · refine Keeps.step (State.recordPending_keeps ..) rfl ?_
      assumption
    · assumption
  clear_value z7
  extract_lets +onlyGivenNames z9
  refine Keeps.cut (x := z9) ?_ (fun h10 => ?_)
  · unfold z9
    refine Keeps.step (State.closePassGroups_keeps ..) rfl ?_
    assumption
  clear_value z9
  extract_lets +onlyGivenNames z11
  refine Keeps.step (State.modPass_keeps ..) rfl ?_
  assumption

theorem execHemWithdrawal_keeps (head : Fin 16) (s : State) :
    KeepsR [.events, .regs, .heads, .decode, .mem, .out] s (execHemWithdrawal head s) := by
  unfold execHemWithdrawal
  extract_lets +onlyGivenNames z1
  split
  · refine KeepsR.next ?_
    exact Keeps.refl _ _
  · split
    · refine KeepsR.next ?_
      exact Keeps.refl _ _
    · extract_lets +onlyGivenNames z2
      refine KeepsR.when ?_ ?_
      · exact Keeps.refl _ _
      · refine Keeps.step (State.withdrawPass_keeps ..) rfl ?_
        exact Keeps.refl _ _

theorem execZoneWriteBackComplete_keeps (head : Fin 16) (s : State) :
    KeepsR [.events, .regs, .heads, .mem, .out] s (execZoneWriteBackComplete head s) := by
  unfold execZoneWriteBackComplete
  extract_lets +onlyGivenNames z1
  split
  · refine KeepsR.next ?_
    exact Keeps.refl _ _
  · split
    · refine KeepsR.next ?_
      exact Keeps.refl _ _
    · refine KeepsR.when ?_ ?_
      · exact Keeps.refl _ _
      · extract_lets +onlyGivenNames z2
        refine Keeps.cut (x := z2) ?_ (fun h3 => ?_)
        · unfold z2
          refine Keeps.step (State.zoneWriteBack_keeps ..) rfl ?_
          exact Keeps.refl _ _
        clear_value z2
        extract_lets +onlyGivenNames z4
        extract_lets +onlyGivenNames z5
        refine Keeps.cut (x := z5) ?_ (fun h6 => ?_)
        · unfold z5
          refine Keeps.step (State.modPass_keeps ..) rfl ?_
          assumption
        clear_value z5
        refine Keeps.step (State.logHead_keeps ..) rfl ?_
        assumption

theorem execZoneSeedReadDone_keeps (head : Fin 16) (s : State) :
    KeepsR [.events, .heads] s (execZoneSeedReadDone head s) := by
  unfold execZoneSeedReadDone
  extract_lets +onlyGivenNames z1
  split
  · refine KeepsR.next ?_
    exact Keeps.refl _ _
  · refine KeepsR.when ?_ ?_
    · exact Keeps.refl _ _
    · extract_lets +onlyGivenNames z2
      extract_lets +onlyGivenNames z3
      extract_lets +onlyGivenNames z4
      extract_lets +onlyGivenNames z5
      refine Keeps.cut (x := z5) ?_ (fun h6 => ?_)
      · unfold z5
        refine Keeps.step (State.seedHead_keeps ..) rfl ?_
        exact Keeps.refl _ _
      clear_value z5
      extract_lets +onlyGivenNames z7
      refine Keeps.cut (x := z7) ?_ (fun h8 => ?_)
      · unfold z7
        split
        · assumption
        · refine Keeps.step (State.logHead_keeps ..) rfl ?_
          assumption
      clear_value z7
      extract_lets +onlyGivenNames z9
      extract_lets +onlyGivenNames z10
      refine Keeps.step (State.modHead_keeps ..) rfl ?_
      assumption

theorem execSeamOpening_keeps (head : Fin 16) (s : State) :
    KeepsR [.events, .regs, .heads, .decode, .seq, .mem, .motion, .out] s (execSeamOpening head s) := by
  unfold execSeamOpening
  extract_lets +onlyGivenNames z1
  split
  · refine KeepsR.next ?_
    exact Keeps.refl _ _
  · extract_lets +onlyGivenNames z2
    refine KeepsR.cut (x := z2) ?_ (fun h3 => ?_)
    · unfold z2
      refine Keeps.step (State.modHead_keeps ..) rfl ?_
      exact Keeps.refl _ _
    clear_value z2
    extract_lets +onlyGivenNames z4
    split
    · refine KeepsR.next ?_
      split
      · refine Keeps.step (State.beginWriteRev_keeps ..) rfl ?_
        refine Keeps.step (State.openPass_keeps ..) rfl ?_
        assumption
      · refine Keeps.step (State.openNotReady_keeps ..) rfl ?_
        assumption
    · refine KeepsR.next ?_
      assumption
    · extract_lets +onlyGivenNames z5
      refine KeepsR.cut (x := z5) ?_ (fun h6 => ?_)
      · unfold z5
        refine Keeps.step (State.endWriteRev_keeps ..) rfl ?_
        assumption
      clear_value z5
      refine KeepsR.when ?_ ?_
      · assumption
      · refine Keeps.step (State.beginWriteRev_keeps ..) rfl ?_
        refine Keeps.step (State.modPass_keeps ..) rfl ?_
        assumption

theorem execSlotPayloadLate_keeps (head : Fin 16) (track : ℕ) (slot : ℕ) (s : State) :
    KeepsR [.events, .regs, .heads, .mem, .out] s (execSlotPayloadLate head track slot s) := by
  unfold execSlotPayloadLate
  extract_lets +onlyGivenNames z1
  split
  · refine KeepsR.next ?_
    exact Keeps.refl _ _
  · split
    · refine KeepsR.when ?_ ?_
      · exact Keeps.refl _ _
      · refine Keeps.step (State.voidSlot_keeps ..) rfl ?_
        exact Keeps.refl _ _
    · refine KeepsR.next ?_
      exact Keeps.refl _ _

theorem State.restartBeam_keeps (s : State) (n : Fin 16) (j : Nat) (l : List (BandDesc × SlotEntry)) :
    Keeps [.events, .regs, .heads, .mem, .out] s (s.restartBeam n j l) := by
  induction l generalizing s with
  | nil =>
    rw [State.restartBeam]
    exact Keeps.refl _ _
  | cons x rest ih =>
    rw [State.restartBeam]
    split
    · split
      · refine Keeps.step (State.sendMsg_keeps ..) rfl ?_
        exact Keeps.refl _ _
      · refine Keeps.step (ih ..) rfl ?_
        refine Keeps.step (State.voidSlot_keeps ..) rfl ?_
        exact Keeps.refl _ _
    · refine Keeps.step (ih ..) rfl ?_
      refine Keeps.step (State.voidSlot_keeps ..) rfl ?_
      exact Keeps.refl _ _

theorem State.stopBeam_keeps (s : State) (n : Fin 16) (j : ℕ) (gone : List SlotEntry) (others : List (BandDesc × SlotEntry)) :
    Keeps [.events, .regs, .heads, .mem, .out] s (State.stopBeam s n j gone others) := by
  unfold State.stopBeam
  split
  · exact Keeps.refl _ _
  · split
    · exact Keeps.refl _ _
    · refine Keeps.step (State.restartBeam_keeps ..) rfl ?_
      refine Keeps.step (State.sendMsg_keeps ..) rfl ?_
      exact Keeps.refl _ _

theorem execWriteAbortAtHead_keeps (head : Fin 16) (slots : List (ℕ × ℕ)) (s : State) :
    KeepsR [.events, .regs, .heads, .mem, .out] s (execWriteAbortAtHead head slots s) := by
  unfold execWriteAbortAtHead
  extract_lets +onlyGivenNames z1
  split
  · refine KeepsR.next ?_
    exact Keeps.refl _ _
  · extract_lets +onlyGivenNames z2
    extract_lets +onlyGivenNames z3
    extract_lets +onlyGivenNames z4
    extract_lets +onlyGivenNames z5
    extract_lets +onlyGivenNames z6
    refine KeepsR.cut (x := z6) ?_ (fun h7 => ?_)
    · unfold z6
      refine Keeps.step (State.modPass_keeps ..) rfl ?_
      exact Keeps.refl _ _
    clear_value z6
    extract_lets +onlyGivenNames z8
    extract_lets +onlyGivenNames z9
    extract_lets +onlyGivenNames z10
    extract_lets +onlyGivenNames z11
    extract_lets +onlyGivenNames z12
    extract_lets +onlyGivenNames z13
    refine KeepsR.cut (x := z13) ?_ (fun h14 => ?_)
    · unfold z13
      refine Keeps.foldl ?_ (fun _ _ _ => ?_)
      · assumption
      · split
        rename_i a15 a16 a17 a18 a19 a20 a21 a22
        refine Keeps.step (State.stopBeam_keeps ..) rfl ?_
        assumption
    clear_value z13
    refine KeepsR.next ?_
    refine Keeps.foldl ?_ (fun _ _ _ => ?_)
    · assumption
    · split
      rename_i a23 a24 a25 a26 a27 a28 a29 a30
      refine Keeps.step (State.voidSlot_keeps ..) rfl ?_
      assumption

end Sys2Proof.Machine
end

