-- ==== Sys2Proof/Laws/KeepsHostReset.lean ====
section
/-!
SUPPORT. Laws/KeepsHostReset.lean: which parts of a state each operation of Machine/HostReset.lean may change, and that it keeps a sound
state sound.
-/

namespace Sys2Proof.Machine

theorem State.loadPackage_keeps (s : State) (slot : ℕ) :
    Keeps [.events, .regs, .seq] s (State.loadPackage s slot) := by
  unfold State.loadPackage
  split
  · exact Keeps.refl _ _
  · extract_lets +onlyGivenNames z1
    refine Keeps.cut (x := z1) ?_ (fun h2 => ?_)
    · unfold z1
      split
      · refine Keeps.step (State.activatePatch_keeps ..) rfl ?_
        refine Keeps.step (State.loadPatch_keeps ..) rfl ?_
        exact Keeps.refl _ _
      · exact Keeps.refl _ _
    clear_value z1
    extract_lets +onlyGivenNames z3
    extract_lets +onlyGivenNames z5
    refine Keeps.cut (x := z5) ?_ (fun h6 => ?_)
    · unfold z5
      refine Keeps.seqTo rfl ?_
      assumption
    clear_value z5
    refine Keeps.foldl ?_ (fun _ _ _ => ?_)
    · assumption
    · refine Keeps.step (State.setFld_keeps ..) rfl ?_
      assumption

theorem State.restartBobbins_keeps (s : State) (cause : ℕ) :
    Keeps [.events, .regs, .heads, .seq, .motion] s (State.restartBobbins s cause) := by
  unfold State.restartBobbins
  refine Keeps.foldl ?_ (fun _ _ _ => ?_)
  · exact Keeps.refl _ _
  · extract_lets +onlyGivenNames z1
    extract_lets +onlyGivenNames z2
    split
    · rename_i a3 a4 a5 a6
      refine Keeps.step (State.restart_keeps ..) rfl ?_
      split
      · assumption
      · refine Keeps.step (State.abortOpens_keeps ..) rfl ?_
        assumption
    · rename_i a7 a8 a9 a10
      assumption

theorem State.finishReset_keeps (s : State) (fn : ℕ) :
    Keeps [.events, .regs, .heads, .seq, .motion, .host] s (State.finishReset s fn) := by
  unfold State.finishReset
  extract_lets +onlyGivenNames z1
  refine Keeps.cut (x := z1) ?_ (fun h2 => ?_)
  · unfold z1
    refine Keeps.step (State.setFld_keeps ..) rfl ?_
    exact Keeps.refl _ _
  clear_value z1
  extract_lets +onlyGivenNames z3
  refine Keeps.cut (x := z3) ?_ (fun h4 => ?_)
  · unfold z3
    refine Keeps.foldl ?_ (fun _ _ _ => ?_)
    · assumption
    · refine Keeps.step (State.setFld_keeps ..) rfl ?_
      assumption
  clear_value z3
  extract_lets +onlyGivenNames z5
  refine Keeps.cut (x := z5) ?_ (fun h6 => ?_)
  · unfold z5
    split
    · refine Keeps.step (State.logSeq_keeps ..) rfl ?_
      assumption
    · exact Keeps.refl _ _
  clear_value z5
  extract_lets +onlyGivenNames z7
  refine Keeps.cut (x := z7) ?_ (fun h8 => ?_)
  · unfold z7
    refine Keeps.step (State.restartBobbins_keeps ..) rfl ?_
    assumption
  clear_value z7
  extract_lets +onlyGivenNames z9
  extract_lets +onlyGivenNames z10
  refine Keeps.cut (x := z10) ?_ (fun h11 => ?_)
  · unfold z10
    refine Keeps.step (State.modHost_keeps ..) rfl ?_
    assumption
  clear_value z10
  extract_lets +onlyGivenNames z12
  refine Keeps.cut (x := z12) ?_ (fun h13 => ?_)
  · unfold z12
    refine Keeps.regsTo rfl ?_ ?_
    · exact fun h => storeWf_filter _ h
    · assumption
  clear_value z12
  extract_lets +onlyGivenNames z14
  extract_lets +onlyGivenNames z16
  refine Keeps.cut (x := z16) ?_ (fun h17 => ?_)
  · unfold z16
    refine Keeps.step (State.modFn_keeps ..) rfl ?_
    assumption
  clear_value z16
  refine Keeps.step (State.notePause_keeps ..) rfl ?_
  refine Keeps.step (State.announceOrders_keeps ..) rfl ?_
  assumption

theorem State.finishResets_keeps (s : State) :
    Keeps [.events, .regs, .heads, .seq, .motion, .host] s (State.finishResets s) := by
  unfold State.finishResets
  refine Keeps.foldl ?_ (fun _ _ _ => ?_)
  · exact Keeps.refl _ _
  · split
    · rename_i a1 a2 a3 a4
      refine Keeps.step (State.finishReset_keeps ..) rfl ?_
      assumption
    · rename_i a5 a6 a7 a8
      assumption

theorem State.discardCommands_keeps (s : State) (fn : ℕ) (cause : ℕ) :
    Keeps [.events, .regs, .decode, .mem, .host, .sec, .out] s (State.discardCommands s fn cause) := by
  unfold State.discardCommands
  extract_lets +onlyGivenNames z1
  extract_lets +onlyGivenNames z2
  refine Keeps.cut (x := z2) ?_ (fun h3 => ?_)
  · unfold z2
    refine Keeps.step (State.discardApplies_keeps ..) rfl ?_
    exact Keeps.refl _ _
  clear_value z2
  extract_lets +onlyGivenNames z4
  refine Keeps.cut (x := z4) ?_ (fun h5 => ?_)
  · unfold z4
    refine Keeps.foldl ?_ (fun _ _ _ => ?_)
    · assumption
    · refine Keeps.step (State.retire_keeps ..) rfl ?_
      assumption
  clear_value z4
  extract_lets +onlyGivenNames z6
  refine Keeps.cut (x := z6) ?_ (fun h7 => ?_)
  · unfold z6
    refine Keeps.step (State.modHost_keeps ..) rfl ?_
    assumption
  clear_value z6
  extract_lets +onlyGivenNames z8
  refine Keeps.cut (x := z8) ?_ (fun h9 => ?_)
  · unfold z8
    refine Keeps.step (State.modFn_keeps ..) rfl ?_
    assumption
  clear_value z8
  refine Keeps.step (State.decideFlushes_keeps ..) rfl ?_
  refine Keeps.step (State.logHost_keeps ..) rfl ?_
  assumption

theorem State.setPp_keeps (s : State) (v : ℕ) :
    Keeps [.regs] s (State.setPp s v) := by
  unfold State.setPp
  refine Keeps.foldl ?_ (fun _ _ _ => ?_)
  · exact Keeps.refl _ _
  · refine Keeps.step (State.setCtl_keeps ..) rfl ?_
    assumption

theorem State.dropActivation_keeps (s : State) :
    Keeps [.events, .regs, .mem, .host, .sec, .out] s (State.dropActivation s) := by
  unfold State.dropActivation
  split
  · exact Keeps.refl _ _
  · extract_lets +onlyGivenNames z1
    refine Keeps.cut (x := z1) ?_ (fun h2 => ?_)
    · unfold z1
      split
      · refine Keeps.step (State.retire_keeps ..) rfl ?_
        exact Keeps.refl _ _
      · exact Keeps.refl _ _
    clear_value z1
    refine Keeps.step (State.modSec_keeps ..) rfl ?_
    refine Keeps.step (State.setPp_keeps ..) rfl ?_
    refine Keeps.step (State.modHost_keeps ..) rfl ?_
    assumption

theorem State.beginReset_keeps (s : State) (fn : ℕ) (cause : ℕ) :
    Keeps [.events, .regs, .heads, .decode, .seq, .mem, .motion, .host, .sec, .out] s (State.beginReset s fn cause) := by
  unfold State.beginReset
  extract_lets +onlyGivenNames z1
  refine Keeps.cut (x := z1) ?_ (fun h2 => ?_)
  · unfold z1
    refine Keeps.step (State.setFld_keeps ..) rfl ?_
    exact Keeps.refl _ _
  clear_value z1
  extract_lets +onlyGivenNames z3
  refine Keeps.cut (x := z3) ?_ (fun h4 => ?_)
  · unfold z3
    refine Keeps.step (State.dropActivation_keeps ..) rfl ?_
    refine Keeps.step (State.discardCommands_keeps ..) rfl ?_
    assumption
  clear_value z3
  extract_lets +onlyGivenNames z5
  refine Keeps.cut (x := z5) ?_ (fun h6 => ?_)
  · unfold z5
    refine Keeps.foldl ?_ (fun _ _ _ => ?_)
    · assumption
    · refine Keeps.step (State.discardHeadBands_keeps ..) rfl ?_
      assumption
  clear_value z5
  extract_lets +onlyGivenNames z7
  refine Keeps.cut (x := z7) ?_ (fun h8 => ?_)
  · unfold z7
    refine Keeps.step (State.modFn_keeps ..) rfl ?_
    refine Keeps.step (State.hemEvery_keeps ..) rfl ?_
    assumption
  clear_value z7
  refine Keeps.step (State.finishResets_keeps ..) rfl ?_
  assumption

theorem State.resetFunction_keeps (s : State) (fn : ℕ) (cause : ℕ) :
    Keeps [.events, .regs, .heads, .decode, .seq, .mem, .motion, .host, .sec, .out] s (State.resetFunction s fn cause) := by
  unfold State.resetFunction
  extract_lets +onlyGivenNames z1
  refine Keeps.cut (x := z1) ?_ (fun h2 => ?_)
  · unfold z1
    refine Keeps.step (State.setCtl_keeps ..) rfl ?_
    exact Keeps.refl _ _
  clear_value z1
  split
  · refine Keeps.step (State.modFn_keeps ..) rfl ?_
    assumption
  · refine Keeps.step (State.beginReset_keeps ..) rfl ?_
    assumption

theorem execControllerReset_keeps (fn : Fin 2) (s : State) :
    KeepsR [.events, .regs, .heads, .decode, .seq, .mem, .motion, .host, .sec, .out] s (execControllerReset fn s) := by
  unfold execControllerReset
  refine KeepsR.when ?_ ?_
  · exact Keeps.refl _ _
  · refine Keeps.step (State.resetFunction_keeps ..) rfl ?_
    exact Keeps.refl _ _

theorem execFunctionLevelReset_keeps (fn : Fin 2) (s : State) :
    KeepsR [.events, .regs, .heads, .decode, .seq, .mem, .motion, .host, .sec, .out] s (execFunctionLevelReset fn s) := by
  unfold execFunctionLevelReset
  refine KeepsR.when ?_ ?_
  · exact Keeps.refl _ _
  · refine Keeps.step (State.resetFunction_keeps ..) rfl ?_
    exact Keeps.refl _ _

theorem execPatchReload_keeps (s : State) :
    KeepsR [.events, .regs, .heads, .seq, .motion, .host] s (execPatchReload s) := by
  unfold execPatchReload
  refine KeepsR.when ?_ ?_
  · exact Keeps.refl _ _
  · extract_lets +onlyGivenNames z1
    refine Keeps.cut (x := z1) ?_ (fun h2 => ?_)
    · unfold z1
      refine Keeps.step (State.reloadPatch_keeps ..) rfl ?_
      exact Keeps.refl _ _
    clear_value z1
    refine Keeps.foldl ?_ (fun _ _ _ => ?_)
    · assumption
    · split
      · rename_i a3 a4 a5 a6
        refine Keeps.step (State.finishReset_keeps ..) rfl ?_
        assumption
      · rename_i a7 a8 a9 a10
        assumption

theorem State.raiseReady_keeps (s : State) (fn : ℕ) :
    Keeps [.regs, .host] s (State.raiseReady s fn) := by
  unfold State.raiseReady
  split
  · refine Keeps.step (State.modFn_keeps ..) rfl ?_
    refine Keeps.step (State.setCtl_keeps ..) rfl ?_
    exact Keeps.refl _ _
  · exact Keeps.refl _ _

theorem execControllerEnable_keeps (fn : Fin 2) (cc : Word) (s : State) :
    KeepsR [.regs, .host] s (execControllerEnable fn cc s) := by
  unfold execControllerEnable
  refine KeepsR.when ?_ ?_
  · exact Keeps.refl _ _
  · extract_lets +onlyGivenNames z1
    extract_lets +onlyGivenNames z2
    refine Keeps.cut (x := z2) ?_ (fun h3 => ?_)
    · unfold z2
      refine Keeps.step (State.setCtl_keeps ..) rfl ?_
      refine Keeps.step (State.setReg_keeps ..) rfl ?_
      exact Keeps.refl _ _
    clear_value z2
    extract_lets +onlyGivenNames z4
    refine Keeps.cut (x := z4) ?_ (fun h5 => ?_)
    · unfold z4
      refine Keeps.step (State.setCtl_keeps ..) rfl ?_
      assumption
    clear_value z4
    split
    · refine Keeps.step (State.setFld_keeps ..) rfl ?_
      assumption
    · extract_lets +onlyGivenNames z6
      extract_lets +onlyGivenNames z7
      extract_lets +onlyGivenNames z8
      extract_lets +onlyGivenNames z9
      refine Keeps.cut (x := z9) ?_ (fun h10 => ?_)
      · unfold z9
        refine Keeps.step (State.modHost_keeps ..) rfl ?_
        assumption
      clear_value z9
      refine Keeps.step (State.raiseReady_keeps ..) rfl ?_
      refine Keeps.step (State.modFn_keeps ..) rfl ?_
      assumption

theorem State.hostReady_keeps (s : State) :
    Keeps [.events, .regs, .host] s (State.hostReady s) := by
  unfold State.hostReady
  split
  · exact Keeps.refl _ _
  · extract_lets +onlyGivenNames z1
    refine Keeps.cut (x := z1) ?_ (fun h2 => ?_)
    · unfold z1
      refine Keeps.step (State.reachStage_keeps ..) rfl ?_
      refine Keeps.step (State.setFld_keeps ..) rfl ?_
      exact Keeps.refl _ _
    clear_value z1
    refine Keeps.foldl ?_ (fun _ _ _ => ?_)
    · assumption
    · refine Keeps.step (State.raiseReady_keeps ..) rfl ?_
      assumption

theorem execHostReadySet_keeps (s : State) :
    KeepsR [.events, .regs, .host] s (execHostReadySet s) := by
  unfold execHostReadySet
  refine KeepsR.next ?_
  refine Keeps.step (State.hostReady_keeps ..) rfl ?_
  exact Keeps.refl _ _

theorem execShutdownNormal_keeps (fn : Fin 2) (s : State) :
    KeepsR [.events, .regs, .heads, .decode, .mem, .host, .out] s (execShutdownNormal fn s) := by
  unfold execShutdownNormal
  refine KeepsR.when ?_ ?_
  · exact Keeps.refl _ _
  · extract_lets +onlyGivenNames z1
    refine Keeps.cut (x := z1) ?_ (fun h2 => ?_)
    · unfold z1
      refine Keeps.step (State.setCtl_keeps ..) rfl ?_
      refine Keeps.step (State.setCtl_keeps ..) rfl ?_
      exact Keeps.refl _ _
    clear_value z1
    extract_lets +onlyGivenNames z3
    refine Keeps.step (State.advanceShutdown_keeps ..) rfl ?_
    refine Keeps.step (State.modFn_keeps ..) rfl ?_
    assumption

theorem execShutdownAbrupt_keeps (fn : Fin 2) (s : State) :
    KeepsR [.events, .regs, .heads, .decode, .mem, .host, .sec, .out] s (execShutdownAbrupt fn s) := by
  unfold execShutdownAbrupt
  refine KeepsR.when ?_ ?_
  · exact Keeps.refl _ _
  · extract_lets +onlyGivenNames z1
    refine Keeps.cut (x := z1) ?_ (fun h2 => ?_)
    · unfold z1
      refine Keeps.step (State.setCtl_keeps ..) rfl ?_
      refine Keeps.step (State.setCtl_keeps ..) rfl ?_
      exact Keeps.refl _ _
    clear_value z1
    refine Keeps.step (State.modFn_keeps ..) rfl ?_
    refine Keeps.step (State.hemEvery_keeps ..) rfl ?_
    refine Keeps.step (State.discardCommands_keeps ..) rfl ?_
    assumption

theorem execShutdownComplete_keeps (fn : Fin 2) (s : State) :
    KeepsR [.regs, .host] s (execShutdownComplete fn s) := by
  unfold execShutdownComplete
  refine KeepsR.when ?_ ?_
  · exact Keeps.refl _ _
  · refine Keeps.step (State.modFn_keeps ..) rfl ?_
    refine Keeps.step (State.setCtl_keeps ..) rfl ?_
    exact Keeps.refl _ _

theorem execHemComplete_keeps (head : Fin 16) (s : State) :
    KeepsR [.events, .regs, .domains, .heads, .decode, .seq, .motion, .host] s (execHemComplete head s) := by
  unfold execHemComplete
  split
  · refine KeepsR.next ?_
    exact Keeps.refl _ _
  · split
    · refine KeepsR.next ?_
      exact Keeps.refl _ _
    · refine KeepsR.when ?_ ?_
      · exact Keeps.refl _ _
      · refine Keeps.step (State.finishResets_keeps ..) rfl ?_
        refine Keeps.step (State.closePass_keeps ..) rfl ?_
        exact Keeps.refl _ _

theorem execFirmwareActivationStart_keeps (s : State) :
    KeepsR [.events, .regs, .decode, .host] s (execFirmwareActivationStart s) := by
  unfold execFirmwareActivationStart
  split
  · refine KeepsR.next ?_
    exact Keeps.refl _ _
  · refine KeepsR.when ?_ ?_
    · exact Keeps.refl _ _
    · extract_lets +onlyGivenNames z1
      refine Keeps.cut (x := z1) ?_ (fun h2 => ?_)
      · unfold z1
        refine Keeps.step (State.raiseAsync_keeps ..) rfl ?_
        exact Keeps.refl _ _
      clear_value z1
      refine Keeps.step (State.setPp_keeps ..) rfl ?_
      refine Keeps.step (State.modHost_keeps ..) rfl ?_
      assumption

theorem execActivationDrainDeadline_keeps (s : State) :
    KeepsR [.events, .regs, .heads, .decode, .seq, .mem, .host, .sec, .out] s (execActivationDrainDeadline s) := by
  unfold execActivationDrainDeadline
  split
  · refine KeepsR.next ?_
    exact Keeps.refl _ _
  · refine KeepsR.when ?_ ?_
    · exact Keeps.refl _ _
    · extract_lets +onlyGivenNames z1
      extract_lets +onlyGivenNames z2
      refine Keeps.cut (x := z2) ?_ (fun h3 => ?_)
      · unfold z2
        refine Keeps.foldl ?_ (fun _ _ _ => ?_)
        · exact Keeps.refl _ _
        · refine Keeps.step (State.endCommand_keeps ..) rfl ?_
          assumption
      clear_value z2
      extract_lets +onlyGivenNames z4
      refine Keeps.cut (x := z4) ?_ (fun h5 => ?_)
      · unfold z4
        refine Keeps.step (State.logHost_keeps ..) rfl ?_
        assumption
      clear_value z4
      extract_lets +onlyGivenNames z6
      refine Keeps.cut (x := z6) ?_ (fun h7 => ?_)
      · unfold z6
        refine Keeps.step (State.requestHaltAll_keeps ..) rfl ?_
        refine Keeps.step (State.hemEvery_keeps ..) rfl ?_
        assumption
      clear_value z6
      refine Keeps.step (State.modHost_keeps ..) rfl ?_
      assumption

theorem execFirmwareActivationResume_keeps (s : State) :
    KeepsR [.events, .regs, .boot, .heads, .decode, .seq, .mem, .motion, .host, .sec, .out] s (execFirmwareActivationResume s) := by
  unfold execFirmwareActivationResume
  split
  · refine KeepsR.next ?_
    exact Keeps.refl _ _
  · extract_lets +onlyGivenNames z1
    extract_lets +onlyGivenNames z2
    extract_lets +onlyGivenNames z3
    split
    · refine KeepsR.next ?_
      unfold z3
      refine Keeps.foldl ?_ (fun _ _ _ => ?_)
      · exact Keeps.refl _ _
      · split
        · rename_i a4 a5 a6 a7 a8 a9 a10 a11 a12 a13
          refine Keeps.step (State.beginReset_keeps ..) rfl ?_
          assumption
        · rename_i a14 a15 a16 a17 a18 a19 a20 a21 a22
          assumption
    · refine KeepsR.when ?_ ?_
      · exact Keeps.refl _ _
      · extract_lets +onlyGivenNames z23
        refine Keeps.cut (x := z23) ?_ (fun h24 => ?_)
        · unfold z23
          refine Keeps.step (State.loadPackage_keeps ..) rfl ?_
          exact Keeps.refl _ _
        clear_value z23
        extract_lets +onlyGivenNames z25
        refine Keeps.cut (x := z25) ?_ (fun h26 => ?_)
        · unfold z25
          refine Keeps.step (State.modSec_keeps ..) rfl ?_
          assumption
        clear_value z25
        extract_lets +onlyGivenNames z27
        extract_lets +onlyGivenNames z29
        refine Keeps.cut (x := z29) ?_ (fun h30 => ?_)
        · unfold z29
          refine Keeps.bootTo rfl ?_
          assumption
        clear_value z29
        extract_lets +onlyGivenNames z31
        refine Keeps.cut (x := z31) ?_ (fun h32 => ?_)
        · unfold z31
          refine Keeps.step (State.setFld_keeps ..) rfl ?_
          assumption
        clear_value z31
        extract_lets +onlyGivenNames z33
        refine Keeps.cut (x := z33) ?_ (fun h34 => ?_)
        · unfold z33
          refine Keeps.foldl ?_ (fun _ _ _ => ?_)
          · assumption
          · refine Keeps.step (State.restart_keeps ..) rfl ?_
            assumption
        clear_value z33
        split
        · unfold z3
          refine Keeps.foldl ?_ (fun _ _ _ => ?_)
          · assumption
          · split
            · rename_i a35 a36 a37 a38 a39 a40 a41 a42 a43 a44 a45
              refine Keeps.step (State.beginReset_keeps ..) rfl ?_
              assumption
            · rename_i a46 a47 a48 a49 a50 a51 a52 a53 a54 a55
              assumption
        · refine Keeps.step (State.conclude_keeps ..) rfl ?_
          refine Keeps.step (State.setPp_keeps ..) rfl ?_
          refine Keeps.step (State.modHost_keeps ..) rfl ?_
          assumption

theorem State.configItem_keeps (s : State) (x1 : ConfigItem) :
    Keeps [.free] s (State.configItem s x1).2 := by
  unfold State.configItem
  split
  · refine Keeps.ofMk ?_
    exact Keeps.refl _ _
  · refine Keeps.ofMk ?_
    exact Keeps.refl _ _
  · split
    · refine Keeps.ofMk ?_
      exact Keeps.refl _ _
    · split
      rename_i a1 a2 a3 a4 a5 a6 a7
      refine Keeps.ofMk ?_
      refine Keeps.ofSnd a7 ?_
      refine Keeps.step (State.openBytes_keeps ..) rfl ?_
      exact Keeps.refl _ _
  · refine Keeps.ofMk ?_
    exact Keeps.refl _ _
  · refine Keeps.ofMk ?_
    exact Keeps.refl _ _
  · refine Keeps.ofMk ?_
    exact Keeps.refl _ _
  · refine Keeps.ofMk ?_
    exact Keeps.refl _ _
  · refine Keeps.ofMk ?_
    exact Keeps.refl _ _

theorem execConfigRequest_keeps (req : ConfigReq) (s : State) :
    KeepsR [.out, .free] s (execConfigRequest req s) := by
  unfold execConfigRequest
  refine KeepsR.next ?_
  split
  · split
    rename_i a1 a2 a3 a4 a5
    refine Keeps.outTo rfl ?_
    refine Keeps.ofSnd a5 ?_
    refine Keeps.step (State.configItem_keeps ..) rfl ?_
    exact Keeps.refl _ _
  · refine Keeps.outTo rfl ?_
    exact Keeps.refl _ _

theorem execNvmeMiBasicCommand_keeps (code : Fin 256) (s : State) :
    KeepsR [.out, .free] s (execNvmeMiBasicCommand code s) := by
  unfold execNvmeMiBasicCommand
  refine KeepsR.next ?_
  split
  · refine Keeps.outTo rfl ?_
    exact Keeps.refl _ _
  · split
    rename_i a1 a2 a3 a4 a5
    extract_lets +onlyGivenNames z6
    extract_lets +onlyGivenNames z7
    extract_lets +onlyGivenNames z8
    extract_lets +onlyGivenNames z9
    extract_lets +onlyGivenNames z10
    extract_lets +onlyGivenNames z11
    refine Keeps.outTo rfl ?_
    refine Keeps.ofSnd a5 ?_
    refine Keeps.step (State.openBytes_keeps ..) rfl ?_
    exact Keeps.refl _ _

end Sys2Proof.Machine
end

