-- ==== Sys2Proof/Laws/KeepsLoop.lean ====
section
/-!
SUPPORT. Laws/KeepsLoop.lean: which parts of a state each operation of Machine/Loop.lean may change, and that it keeps a sound
state sound.
-/

namespace Sys2Proof.Machine

theorem execSlotExecution_keeps (slot : Fin 96) (memErr : Option ℕ) (s : State) :
    KeepsR [.events, .regs, .heads, .decode, .loop, .seq, .mem, .motion, .out, .free] s (execSlotExecution slot memErr s) := by
  unfold execSlotExecution
  extract_lets +onlyGivenNames z1
  extract_lets +onlyGivenNames z2
  extract_lets +onlyGivenNames z3
  refine KeepsR.when ?_ ?_
  · exact Keeps.refl _ _
  · extract_lets +onlyGivenNames z4
    refine Keeps.cut (x := z4) ?_ (fun h5 => ?_)
    · unfold z4
      split
      · refine Keeps.step (State.logLoop_keeps ..) rfl ?_
        refine Keeps.step (State.modSlot_keeps ..) rfl ?_
        exact Keeps.refl _ _
      · exact Keeps.refl _ _
    extract_lets +onlyGivenNames z6
    refine Keeps.cut (x := z6) ?_ (fun h7 => ?_)
    · unfold z6
      refine Keeps.step (State.startExec_keeps ..) rfl ?_
      assumption
    split
    · assumption
    · refine Keeps.step (State.execSlot_keeps ..) rfl ?_
      assumption

theorem execQuadSetVisible_keeps (head : Fin 16) (s : State) :
    KeepsR [.loop] s (execQuadSetVisible head s) := by
  unfold execQuadSetVisible
  split
  · refine KeepsR.next ?_
    refine Keeps.step (State.modLoopHead_keeps ..) rfl ?_
    exact Keeps.refl _ _
  · refine KeepsR.next ?_
    exact Keeps.refl _ _

theorem State.chvUpdate_keeps (s : State) (k : Fin 96) (y : ℤ) (p : ℤ) :
    Keeps [.loop] s (State.chvUpdate s k y p) := by
  unfold State.chvUpdate
  extract_lets +onlyGivenNames z1
  refine Keeps.step (State.modSlot_keeps ..) rfl ?_
  exact Keeps.refl _ _

theorem execChevronOffsetArrival_keeps (head : Fin 16) (s : State) :
    KeepsR [.loop] s (execChevronOffsetArrival head s) := by
  unfold execChevronOffsetArrival
  split
  · extract_lets +onlyGivenNames z1
    refine KeepsR.cut (x := z1) ?_ (fun h2 => ?_)
    · unfold z1
      refine Keeps.step (State.modLoopHead_keeps ..) rfl ?_
      exact Keeps.refl _ _
    clear_value z1
    extract_lets +onlyGivenNames z3
    split
    · refine KeepsR.next ?_
      assumption
    · extract_lets +onlyGivenNames z4
      split
      · refine KeepsR.next ?_
        assumption
      · extract_lets +onlyGivenNames z5
        split
        · refine KeepsR.next ?_
          assumption
        · refine KeepsR.next ?_
          refine Keeps.foldl ?_ (fun _ _ _ => ?_)
          · assumption
          · refine Keeps.step (State.chvUpdate_keeps ..) rfl ?_
            assumption
  · refine KeepsR.next ?_
    exact Keeps.refl _ _

theorem execDropoutFlagArrival_keeps (head : Fin 16) (s : State) :
    KeepsR [.loop] s (execDropoutFlagArrival head s) := by
  unfold execDropoutFlagArrival
  split
  · extract_lets +onlyGivenNames z1
    refine KeepsR.next ?_
    refine Keeps.step (State.modLoopHead_keeps ..) rfl ?_
    exact Keeps.refl _ _
  · refine KeepsR.next ?_
    refine Keeps.step (State.modLoopHead_keeps ..) rfl ?_
    exact Keeps.refl _ _
  · refine KeepsR.next ?_
    exact Keeps.refl _ _

theorem execSlotStateRequest_keeps (via : Via (Fin 96 × Fin 4)) (s : State) :
    KeepsR [.events, .regs, .heads, .loop, .seq] s (execSlotStateRequest via s) := by
  unfold execSlotStateRequest
  split
  · refine KeepsR.next ?_
    refine Keeps.step (State.slotRequest_keeps ..) rfl ?_
    exact Keeps.refl _ _
  · refine State.issue_keeps ?_ ?_ ?_
    · exact rfl
    · intro y1 y2 y3
      refine State.slotChecks_keeps ?_ ?_ ?_
      · exact rfl
      · intro y4
        refine KeepsE.ok ?_
        refine Keeps.step (State.slotRequest_keeps ..) rfl ?_
        assumption
      · assumption
    · exact Keeps.refl _ _

theorem execSlotClearState_keeps (via : Via (Fin 96 × Fin 4)) (s : State) :
    KeepsR [.events, .regs, .heads, .loop, .seq] s (execSlotClearState via s) := by
  unfold execSlotClearState
  split
  · refine KeepsR.next ?_
    refine Keeps.step (State.slotRequest_keeps ..) rfl ?_
    exact Keeps.refl _ _
  · refine State.issue_keeps ?_ ?_ ?_
    · exact rfl
    · intro y1 y2 y3
      refine State.slotChecks_keeps ?_ ?_ ?_
      · exact rfl
      · intro y4
        refine KeepsE.ok ?_
        refine Keeps.step (State.slotRequest_keeps ..) rfl ?_
        assumption
      · assumption
    · exact Keeps.refl _ _

theorem execCoefficientWrite_keeps (via : Via (Fin 96 × Fin 64 × Word)) (s : State) :
    KeepsR [.events, .regs, .loop, .seq] s (execCoefficientWrite via s) := by
  unfold execCoefficientWrite
  split
  · refine KeepsR.next ?_
    refine Keeps.step (State.coefWrite_keeps ..) rfl ?_
    exact Keeps.refl _ _
  · refine State.issue_keeps ?_ ?_ ?_
    · exact rfl
    · intro y1 y2 y3
      refine State.slotChecks_keeps ?_ ?_ ?_
      · exact rfl
      · intro y4
        refine KeepsE.ok ?_
        refine Keeps.step (State.coefWrite_keeps ..) rfl ?_
        assumption
      · assumption
    · exact Keeps.refl _ _

theorem execSlotConfigWrite_keeps (slot : Fin 96) (which : SlotReg) (val : Word) (s : State) :
    KeepsR [.events, .regs] s (execSlotConfigWrite slot which val s) := by
  unfold execSlotConfigWrite
  refine KeepsR.next ?_
  refine Keeps.step (State.slotConfig_keeps ..) rfl ?_
  exact Keeps.refl _ _

theorem execSequenceTimeout_keeps (head : Fin 16) (s : State) :
    KeepsR [.events, .regs, .heads, .loop, .seq] s (execSequenceTimeout head s) := by
  unfold execSequenceTimeout
  split
  · refine KeepsR.next ?_
    exact Keeps.refl _ _
  · refine KeepsR.when ?_ ?_
    · exact Keeps.refl _ _
    · extract_lets +onlyGivenNames z1
      refine Keeps.cut (x := z1) ?_ (fun h2 => ?_)
      · unfold z1
        split
        · exact Keeps.refl _ _
        · exact Keeps.refl _ _
        · refine Keeps.step (State.hwHoldSlot_keeps ..) rfl ?_
          exact Keeps.refl _ _
      clear_value z1
      refine Keeps.step (State.endSequence_keeps ..) rfl ?_
      assumption

theorem execSeamJumpDeadline_keeps (head : Fin 16) (s : State) :
    KeepsR [.events, .regs, .heads, .decode, .loop, .seq, .mem, .motion, .out, .free] s (execSeamJumpDeadline head s) := by
  unfold execSeamJumpDeadline
  split
  · refine KeepsR.next ?_
    exact Keeps.refl _ _
  · extract_lets +onlyGivenNames z1
    refine KeepsR.when ?_ ?_
    · exact Keeps.refl _ _
    · split
      · refine Keeps.step (State.jumpFails_keeps ..) rfl ?_
        exact Keeps.refl _ _
      · refine Keeps.step (State.endSequence_keeps ..) rfl ?_
        exact Keeps.refl _ _

theorem execTraceModeWrite_keeps (val : Word) (s : State) :
    KeepsR [.regs, .loop] s (execTraceModeWrite val s) := by
  unfold execTraceModeWrite
  extract_lets +onlyGivenNames z1
  refine KeepsR.cut (x := z1) ?_ (fun h2 => ?_)
  · unfold z1
    refine Keeps.step (State.writePlain_keeps ..) rfl ?_
    exact Keeps.refl _ _
  clear_value z1
  extract_lets +onlyGivenNames z3
  refine KeepsR.cut (x := z3) ?_ (fun h4 => ?_)
  · unfold z3
    refine Keeps.step (State.setFld_keeps ..) rfl ?_
    refine Keeps.step (State.setFld_keeps ..) rfl ?_
    refine Keeps.step (State.setFld_keeps ..) rfl ?_
    assumption
  clear_value z3
  refine KeepsR.next ?_
  refine Keeps.loopTo rfl ?_
  assumption

theorem execTraceFreeze_keeps (s : State) :
    KeepsR [.regs, .loop] s (execTraceFreeze s) := by
  unfold execTraceFreeze
  refine KeepsR.when ?_ ?_
  · exact Keeps.refl _ _
  · refine Keeps.step (State.freezeTrace_keeps ..) rfl ?_
    exact Keeps.refl _ _

theorem execTraceMergerRelease_keeps (s : State) :
    KeepsR [.regs, .loop] s (execTraceMergerRelease s) := by
  unfold execTraceMergerRelease
  extract_lets +onlyGivenNames z1
  extract_lets +onlyGivenNames z2
  extract_lets +onlyGivenNames z3
  extract_lets +onlyGivenNames z5
  refine KeepsR.cut (x := z5) ?_ (fun h6 => ?_)
  · unfold z5
    refine Keeps.loopTo rfl ?_
    exact Keeps.refl _ _
  clear_value z5
  extract_lets +onlyGivenNames z7
  refine KeepsR.cut (x := z7) ?_ (fun h8 => ?_)
  · unfold z7
    refine Keeps.foldl ?_ (fun _ _ _ => ?_)
    · assumption
    · refine Keeps.step (State.putTrace_keeps ..) rfl ?_
      assumption
  clear_value z7
  refine KeepsR.next ?_
  refine Keeps.step (State.setPair_keeps ..) rfl ?_
  assumption

end Sys2Proof.Machine
end

