-- ==== Sys2Proof/Laws/KeepsMemory.lean ====
section
/-!
SUPPORT. Laws/KeepsMemory.lean: which parts of a state each operation of Machine/Memory.lean may change, and that it keeps a sound
state sound.
-/

namespace Sys2Proof.Machine

theorem execMemoryRead_keeps (cls : Fin 7) (addr : ℕ) (len : ℕ) (s : State) :
    KeepsR [.events, .regs, .mem, .out] s (execMemoryRead cls addr len s) := by
  unfold execMemoryRead
  extract_lets +onlyGivenNames z1
  refine KeepsR.cut (x := z1.st) ?_ (fun h2 => ?_)
  · unfold z1
    refine Keeps.step (State.memRead_keeps ..) rfl ?_
    exact Keeps.refl _ _
  clear_value z1
  extract_lets +onlyGivenNames z3
  extract_lets +onlyGivenNames z4
  refine KeepsR.cut (x := z4) ?_ (fun h5 => ?_)
  · unfold z4
    assumption
  clear_value z4
  refine KeepsR.next ?_
  refine Keeps.memTo rfl ?_ ?_
  · exact Memory.wf_same rfl rfl rfl
  · assumption

theorem execMemoryWrite_keeps (cls : Fin 7) (addr : ℕ) (bytes : List Byte) (s : State) :
    KeepsR [.events, .regs, .mem, .out] s (execMemoryWrite cls addr bytes s) := by
  unfold execMemoryWrite
  refine KeepsR.next ?_
  refine Keeps.step (State.memWrite_keeps ..) rfl ?_
  exact Keeps.refl _ _

theorem State.writeBackWord_keeps (s : State) (a : ℕ) :
    Keeps [.mem] s (State.writeBackWord s a) := by
  unfold State.writeBackWord
  split
  · refine Keeps.step (State.storeSymbols_keeps ..) rfl ?_
    exact Keeps.refl _ _
  · exact Keeps.refl _ _

theorem execEccWriteBack_keeps (s : State) :
    KeepsR [.mem] s (execEccWriteBack s) := by
  unfold execEccWriteBack
  split
  · refine KeepsR.next ?_
    exact Keeps.refl _ _
  · refine KeepsR.next ?_
    refine Keeps.step (State.writeBackWord_keeps ..) rfl ?_
    refine Keeps.memTo rfl ?_ ?_
    · exact Memory.wf_same rfl rfl rfl
    · exact Keeps.refl _ _

theorem execRefresh_keeps (sub : Fin 4) (ingestWaits : Bool) (s : State) :
    KeepsR [.mem, .out] s (execRefresh sub ingestWaits s) := by
  unfold execRefresh
  extract_lets +onlyGivenNames z1
  refine KeepsR.when ?_ ?_
  · exact Keeps.refl _ _
  · extract_lets +onlyGivenNames z2
    split
    · refine Keeps.step (State.modSub_keeps ..) rfl ?_
      exact Keeps.refl _ _
    · refine Keeps.step (State.dram_keeps ..) rfl ?_
      refine Keeps.step (State.modSub_keeps ..) rfl ?_
      refine Keeps.step (State.easeActivates_keeps ..) rfl ?_
      exact Keeps.refl _ _

theorem execMr4Read_keeps (sub : Fin 4) (value : Fin 256) (s : State) :
    KeepsR [.mem, .out] s (execMr4Read sub value s) := by
  unfold execMr4Read
  refine KeepsR.when ?_ ?_
  · exact Keeps.refl _ _
  · refine Keeps.step (State.dram_keeps ..) rfl ?_
    refine Keeps.step (State.modSub_keeps ..) rfl ?_
    exact Keeps.refl _ _

theorem execActivateTableClear_keeps (s : State) :
    KeepsR [.mem] s (execActivateTableClear s) := by
  unfold execActivateTableClear
  refine KeepsR.when ?_ ?_
  · exact Keeps.refl _ _
  · refine Keeps.foldl ?_ (fun _ _ _ => ?_)
    · exact Keeps.refl _ _
    · refine Keeps.step (State.setBank_keeps ..) rfl ?_
      assumption

theorem execNeighbourRefresh_keeps (sub : Fin 4) (bank : Fin 32) (row : ℕ) (drfm : Bool) (s : State) :
    KeepsR [.events, .regs, .mem, .out] s (execNeighbourRefresh sub bank row drfm s) := by
  unfold execNeighbourRefresh
  extract_lets +onlyGivenNames z1
  extract_lets +onlyGivenNames z2
  extract_lets +onlyGivenNames z3
  refine KeepsR.when ?_ ?_
  · exact Keeps.refl _ _
  · extract_lets +onlyGivenNames z4
    extract_lets +onlyGivenNames z5
    refine Keeps.cut (x := z5) ?_ (fun h6 => ?_)
    · unfold z5
      refine Keeps.step (State.setBank_keeps ..) rfl ?_
      exact Keeps.refl _ _
    clear_value z5
    extract_lets +onlyGivenNames z7
    refine Keeps.cut (x := z7) ?_ (fun h8 => ?_)
    · unfold z7
      refine Keeps.step (State.bump_keeps ..) rfl ?_
      assumption
    clear_value z7
    extract_lets +onlyGivenNames z9
    refine Keeps.cut (x := z9) ?_ (fun h10 => ?_)
    · unfold z9
      refine Keeps.step (State.dram_keeps ..) rfl ?_
      assumption
    clear_value z9
    refine Keeps.step (State.logMem_keeps ..) rfl ?_
    assumption

theorem execPageIdlePrecharge_keeps (sub : Fin 4) (bank : Fin 32) (s : State) :
    KeepsR [.mem, .out] s (execPageIdlePrecharge sub bank s) := by
  unfold execPageIdlePrecharge
  extract_lets +onlyGivenNames z1
  extract_lets +onlyGivenNames z2
  split
  · refine KeepsR.when ?_ ?_
    · exact Keeps.refl _ _
    · refine Keeps.step (State.dram_keeps ..) rfl ?_
      refine Keeps.step (State.setBank_keeps ..) rfl ?_
      exact Keeps.refl _ _
  · refine KeepsR.next ?_
    exact Keeps.refl _ _

theorem State.scrubWord_keeps (s : State) (a : ℕ) :
    Keeps [.events, .regs, .mem] s (State.scrubWord s a) := by
  unfold State.scrubWord
  extract_lets +onlyGivenNames z1
  split
  rename_i a2 a3 a4 a5
  clear_value z1
  split
  · refine Keeps.ofSnd a5 ?_
    refine Keeps.step (State.readWord_keeps ..) rfl ?_
    exact Keeps.refl _ _
  · extract_lets +onlyGivenNames z6
    refine Keeps.cut (x := z6) ?_ (fun h7 => ?_)
    · unfold z6
      refine Keeps.step (State.writeBackWord_keeps ..) rfl ?_
      refine Keeps.ofSnd a5 ?_
      refine Keeps.step (State.readWord_keeps ..) rfl ?_
      exact Keeps.refl _ _
    clear_value z6
    refine Keeps.memTo rfl ?_ ?_
    · exact Memory.wf_same rfl rfl rfl
    · assumption
  · refine Keeps.memTo rfl ?_ ?_
    · exact Memory.wf_same rfl rfl rfl
    · refine Keeps.ofSnd a5 ?_
      refine Keeps.step (State.readWord_keeps ..) rfl ?_
      exact Keeps.refl _ _
  · refine Keeps.memTo rfl ?_ ?_
    · exact Memory.wf_same rfl rfl rfl
    · refine Keeps.ofSnd a5 ?_
      refine Keeps.step (State.readWord_keeps ..) rfl ?_
      exact Keeps.refl _ _

theorem execPatrolScrubRead_keeps (s : State) :
    KeepsR [.events, .regs, .mem, .out] s (execPatrolScrubRead s) := by
  unfold execPatrolScrubRead
  refine KeepsR.when ?_ ?_
  · exact Keeps.refl _ _
  · extract_lets +onlyGivenNames z1
    extract_lets +onlyGivenNames z2
    extract_lets +onlyGivenNames z4
    refine Keeps.cut (x := z4) ?_ (fun h5 => ?_)
    · unfold z4
      refine Keeps.memTo rfl ?_ ?_
      · exact Memory.wf_same rfl rfl rfl
      · exact Keeps.refl _ _
    clear_value z4
    extract_lets +onlyGivenNames z6
    refine Keeps.cut (x := z6) ?_ (fun h7 => ?_)
    · unfold z6
      refine Keeps.step (State.serveBurst_keeps ..) rfl ?_
      assumption
    clear_value z6
    extract_lets +onlyGivenNames z8
    refine Keeps.cut (x := z8) ?_ (fun h9 => ?_)
    · unfold z8
      refine Keeps.foldl ?_ (fun _ _ _ => ?_)
      · assumption
      · refine Keeps.step (State.scrubWord_keeps ..) rfl ?_
        assumption
    clear_value z8
    split
    · refine Keeps.step (State.setFld_keeps ..) rfl ?_
      assumption
    · extract_lets +onlyGivenNames z10
      refine Keeps.cut (x := z10) ?_ (fun h11 => ?_)
      · unfold z10
        refine Keeps.step (State.logMem_keeps ..) rfl ?_
        refine Keeps.step (State.setFld_keeps ..) rfl ?_
        assumption
      clear_value z10
      refine Keeps.memTo rfl ?_ ?_
      · exact Memory.wf_same rfl rfl rfl
      · assumption

theorem execEccEraseWrite_keeps (val : Word) (s : State) :
    KeepsR [.events, .regs] s (execEccEraseWrite val s) := by
  unfold execEccEraseWrite
  extract_lets +onlyGivenNames z1
  refine KeepsR.cut (x := z1) ?_ (fun h2 => ?_)
  · unfold z1
    refine Keeps.step (State.setFld_keeps ..) rfl ?_
    exact Keeps.refl _ _
  clear_value z1
  refine KeepsR.next ?_
  refine Keeps.foldl ?_ (fun _ _ _ => ?_)
  · assumption
  · split
    · rename_i a3 a4 a5 a6 a7 a8
      split
      · assumption
      · refine Keeps.step (State.logMem_keeps ..) rfl ?_
        assumption
    · rename_i a9 a10 a11 a12 a13
      assumption

theorem execEccCountClear_keeps (val : Word) (s : State) :
    KeepsR [.regs] s (execEccCountClear val s) := by
  unfold execEccCountClear
  extract_lets +onlyGivenNames z1
  extract_lets +onlyGivenNames z2
  refine KeepsR.cut (x := z2) ?_ (fun h3 => ?_)
  · unfold z2
    refine Keeps.step (State.setFld_keeps ..) rfl ?_
    exact Keeps.refl _ _
  clear_value z2
  extract_lets +onlyGivenNames z4
  refine KeepsR.cut (x := z4) ?_ (fun h5 => ?_)
  · unfold z4
    refine Keeps.step (State.setFld_keeps ..) rfl ?_
    assumption
  clear_value z4
  refine KeepsR.next ?_
  split
  · refine Keeps.foldl ?_ (fun _ _ _ => ?_)
    · refine Keeps.step (State.setReg_keeps ..) rfl ?_
      assumption
    · refine Keeps.step (State.setReg_keeps ..) rfl ?_
      assumption
  · assumption

theorem State.refuseTraining_keeps (s : State) (off : ℕ) :
    Keeps [.events] s (State.refuseTraining s off) := by
  unfold State.refuseTraining
  refine Keeps.step (State.logMem_keeps ..) rfl ?_
  exact Keeps.refl _ _

theorem execFlipArm_keeps (lo : Word) (hi : Word) (s : State) :
    KeepsR [.events, .regs] s (execFlipArm lo hi s) := by
  unfold execFlipArm
  refine KeepsR.next ?_
  split
  · extract_lets +onlyGivenNames z1
    refine Keeps.cut (x := z1) ?_ (fun h2 => ?_)
    · unfold z1
      refine Keeps.step (State.setReg_keeps ..) rfl ?_
      exact Keeps.refl _ _
    clear_value z1
    refine Keeps.step (State.setReg_keeps ..) rfl ?_
    assumption
  · refine Keeps.step (State.refuseTraining_keeps ..) rfl ?_
    exact Keeps.refl _ _

theorem State.updateMcReady_keeps (s : State) :
    Keeps [.regs] s (State.updateMcReady s) := by
  unfold State.updateMcReady
  refine Keeps.step (State.setFld_keeps ..) rfl ?_
  exact Keeps.refl _ _

theorem State.writeMcCfg_keeps (s : State) (val : Word) :
    Keeps [.regs, .mem] s (State.writeMcCfg s val) := by
  unfold State.writeMcCfg
  extract_lets +onlyGivenNames z1
  refine Keeps.cut (x := z1) ?_ (fun h2 => ?_)
  · unfold z1
    split
    · exact Keeps.refl _ _
    · refine Keeps.step (State.setFld_keeps ..) rfl ?_
      refine Keeps.step (State.setFld_keeps ..) rfl ?_
      exact Keeps.refl _ _
  clear_value z1
  extract_lets +onlyGivenNames z3
  extract_lets +onlyGivenNames z4
  refine Keeps.cut (x := z4) ?_ (fun h5 => ?_)
  · unfold z4
    refine Keeps.step (State.updateMcReady_keeps ..) rfl ?_
    refine Keeps.step (State.setFld_keeps ..) rfl ?_
    assumption
  clear_value z4
  split
  · extract_lets +onlyGivenNames z6
    refine Keeps.cut (x := z6) ?_ (fun h7 => ?_)
    · unfold z6
      refine Keeps.foldl ?_ (fun _ _ _ => ?_)
      · assumption
      · refine Keeps.step (State.modSub_keeps ..) rfl ?_
        assumption
    clear_value z6
    refine Keeps.memTo rfl ?_ ?_
    · exact Memory.wf_same rfl rfl rfl
    · assumption
  · assumption

theorem execMemoryEnable_keeps (val : Word) (s : State) :
    KeepsR [.regs, .mem] s (execMemoryEnable val s) := by
  unfold execMemoryEnable
  refine KeepsR.next ?_
  refine Keeps.step (State.writeMcCfg_keeps ..) rfl ?_
  exact Keeps.refl _ _

theorem trainOnly_keeps {P : List Part} {s0 s t : State} {off : Nat} (hP : Part.sub [.events] P = true)
    (hs : Keeps P s0 s) (ht : Keeps P s0 t) : KeepsR P s0 (trainOnly s off t) := by
  unfold trainOnly
  refine KeepsR.next ?_
  split
  · refine Keeps.step (State.refuseTraining_keeps ..) (Part.sub_trans rfl hP) ?_
    assumption
  · assumption

theorem State.modeWrite_keeps (s : State) (k : ℕ) (mr : ℕ) (data : ℕ) :
    Keeps [.mem, .out] s (State.modeWrite s k mr data) := by
  unfold State.modeWrite
  extract_lets +onlyGivenNames z1
  refine Keeps.cut (x := z1) ?_ (fun h2 => ?_)
  · unfold z1
    refine Keeps.step (State.dram_keeps ..) rfl ?_
    exact Keeps.refl _ _
  clear_value z1
  refine Keeps.memTo rfl ?_ ?_
  · exact Memory.wf_same rfl rfl rfl
  · assumption

theorem execMrw_keeps (scmask : Fin 16) (mr : Fin 256) (data : Fin 256) (s : State) :
    KeepsR [.events, .mem, .out] s (execMrw scmask mr data s) := by
  unfold execMrw
  refine trainOnly_keeps ?_ ?_ ?_
  · exact rfl
  · exact Keeps.refl _ _
  · refine Keeps.foldl ?_ (fun _ _ _ => ?_)
    · exact Keeps.refl _ _
    · refine Keeps.step (State.modeWrite_keeps ..) rfl ?_
      assumption

theorem execMrr_keeps (scmask : Fin 16) (mr : Fin 256) (answer : Fin 256) (s : State) :
    KeepsR [.events, .regs, .mem, .out] s (execMrr scmask mr answer s) := by
  unfold execMrr
  refine trainOnly_keeps ?_ ?_ ?_
  · exact rfl
  · exact Keeps.refl _ _
  · refine Keeps.step (State.setFld_keeps ..) rfl ?_
    refine Keeps.foldl ?_ (fun _ _ _ => ?_)
    · exact Keeps.refl _ _
    · extract_lets +onlyGivenNames z1
      refine Keeps.cut (x := z1) ?_ (fun h2 => ?_)
      · unfold z1
        refine Keeps.step (State.dram_keeps ..) rfl ?_
        assumption
      clear_value z1
      refine Keeps.memTo rfl ?_ ?_
      · exact Memory.wf_same rfl rfl rfl
      · assumption

theorem execMpc_keeps (scmask : Fin 16) (op : Fin 256) (s : State) :
    KeepsR [.events, .out] s (execMpc scmask op s) := by
  unfold execMpc
  refine trainOnly_keeps ?_ ?_ ?_
  · exact rfl
  · exact Keeps.refl _ _
  · refine Keeps.foldl ?_ (fun _ _ _ => ?_)
    · exact Keeps.refl _ _
    · refine Keeps.step (State.dram_keeps ..) rfl ?_
      assumption

theorem State.closeRows_keeps (s : State) (subs : List ℕ) :
    Keeps [.mem] s (State.closeRows s subs) := by
  unfold State.closeRows
  refine Keeps.foldl ?_ (fun _ _ _ => ?_)
  · exact Keeps.refl _ _
  · split
    · rename_i a1 a2 a3 a4
      refine Keeps.step (State.setBank_keeps ..) rfl ?_
      assumption
    · rename_i a5 a6 a7 a8
      assumption

theorem execPrechargeAll_keeps (scmask : Fin 16) (s : State) :
    KeepsR [.events, .mem, .out] s (execPrechargeAll scmask s) := by
  unfold execPrechargeAll
  extract_lets +onlyGivenNames z1
  refine trainOnly_keeps ?_ ?_ ?_
  · exact rfl
  · exact Keeps.refl _ _
  · refine Keeps.foldl ?_ (fun _ _ _ => ?_)
    · refine Keeps.step (State.closeRows_keeps ..) rfl ?_
      exact Keeps.refl _ _
    · refine Keeps.step (State.dram_keeps ..) rfl ?_
      assumption

theorem execRefreshAll_keeps (scmask : Fin 16) (s : State) :
    KeepsR [.events, .out] s (execRefreshAll scmask s) := by
  unfold execRefreshAll
  refine trainOnly_keeps ?_ ?_ ?_
  · exact rfl
  · exact Keeps.refl _ _
  · refine Keeps.foldl ?_ (fun _ _ _ => ?_)
    · exact Keeps.refl _ _
    · refine Keeps.step (State.dram_keeps ..) rfl ?_
      assumption

theorem execPatternRun_keeps (scmask : Fin 16) (bursts : Fin 65536) (errs : List (Fin 4 × ℕ)) (s : State) :
    KeepsR [.events, .regs, .mem] s (execPatternRun scmask bursts errs s) := by
  unfold execPatternRun
  extract_lets +onlyGivenNames z1
  refine trainOnly_keeps ?_ ?_ ?_
  · exact rfl
  · exact Keeps.refl _ _
  · extract_lets +onlyGivenNames z2
    refine Keeps.cut (x := z2) ?_ (fun h3 => ?_)
    · unfold z2
      refine Keeps.foldl ?_ (fun _ _ _ => ?_)
      · exact Keeps.refl _ _
      · refine Keeps.step (State.setReg_keeps ..) rfl ?_
        refine Keeps.step (State.setReg_keeps ..) rfl ?_
        assumption
    clear_value z2
    extract_lets +onlyGivenNames z4
    extract_lets +onlyGivenNames z5
    extract_lets +onlyGivenNames z6
    extract_lets +onlyGivenNames z7
    extract_lets +onlyGivenNames z8
    refine Keeps.cut (x := z8) ?_ (fun h9 => ?_)
    · unfold z8
      refine Keeps.foldl ?_ (fun _ _ _ => ?_)
      · assumption
      · refine Keeps.foldl ?_ (fun _ _ _ => ?_)
        · assumption
        · unfold z7
          extract_lets +onlyGivenNames z10
          extract_lets +onlyGivenNames z11
          refine Keeps.foldl ?_ (fun _ _ _ => ?_)
          · assumption
          · refine Keeps.step (State.storeSymbols_keeps ..) rfl ?_
            assumption
    clear_value z8
    refine Keeps.foldl ?_ (fun _ _ _ => ?_)
    · assumption
    · split
      · rename_i a12 a13 a14 a15
        refine Keeps.step (State.setReg_keeps ..) rfl ?_
        refine Keeps.step (State.setReg_keeps ..) rfl ?_
        assumption
      · rename_i a16 a17 a18 a19
        assumption

theorem State.startSweep_keeps (s : State) :
    Keeps [.regs] s (State.startSweep s) := by
  unfold State.startSweep
  extract_lets +onlyGivenNames z1
  extract_lets +onlyGivenNames z2
  refine Keeps.cut (x := z2) ?_ (fun h3 => ?_)
  · unfold z2
    refine Keeps.foldl ?_ (fun _ _ _ => ?_)
    · exact Keeps.refl _ _
    · refine Keeps.step (State.resetReg_keeps ..) rfl ?_
      assumption
  clear_value z2
  extract_lets +onlyGivenNames z4
  refine Keeps.cut (x := z4) ?_ (fun h5 => ?_)
  · unfold z4
    refine Keeps.step (State.setFld_keeps ..) rfl ?_
    assumption
  clear_value z4
  refine Keeps.step (State.setFld_keeps ..) rfl ?_
  assumption

theorem execSweepStart_keeps (s : State) :
    KeepsR [.events, .regs] s (execSweepStart s) := by
  unfold execSweepStart
  refine KeepsR.next ?_
  split
  · refine Keeps.step (State.refuseTraining_keeps ..) rfl ?_
    exact Keeps.refl _ _
  · split
    · exact Keeps.refl _ _
    · refine Keeps.step (State.startSweep_keeps ..) rfl ?_
      exact Keeps.refl _ _

theorem State.endSweep_keeps (s : State) (failMask : ℕ) (codes : List (ℕ × Word)) :
    Keeps [.events, .regs] s (State.endSweep s failMask codes) := by
  unfold State.endSweep
  extract_lets +onlyGivenNames z1
  refine Keeps.cut (x := z1) ?_ (fun h2 => ?_)
  · unfold z1
    refine Keeps.foldl ?_ (fun _ _ _ => ?_)
    · exact Keeps.refl _ _
    · split
      · rename_i a3 a4 a5 a6 a7 a8
        refine Keeps.step (State.setReg_keeps ..) rfl ?_
        assumption
      · rename_i a9 a10 a11 a12 a13
        assumption
  clear_value z1
  extract_lets +onlyGivenNames z14
  refine Keeps.cut (x := z14) ?_ (fun h15 => ?_)
  · unfold z14
    refine Keeps.step (State.setFld_keeps ..) rfl ?_
    assumption
  clear_value z14
  extract_lets +onlyGivenNames z16
  refine Keeps.cut (x := z16) ?_ (fun h17 => ?_)
  · unfold z16
    refine Keeps.step (State.setFld_keeps ..) rfl ?_
    assumption
  clear_value z16
  refine Keeps.step (State.logMem_keeps ..) rfl ?_
  assumption

theorem execFrequencyChangeRequest_keeps (target : Fin 2) (s : State) :
    KeepsR [.events, .regs, .mem] s (execFrequencyChangeRequest target s) := by
  unfold execFrequencyChangeRequest
  extract_lets +onlyGivenNames z1
  refine KeepsR.cut (x := z1) ?_ (fun h2 => ?_)
  · unfold z1
    refine Keeps.step (State.setFld_keeps ..) rfl ?_
    exact Keeps.refl _ _
  clear_value z1
  refine KeepsR.next ?_
  split
  · refine Keeps.step (State.logMem_keeps ..) rfl ?_
    assumption
  · extract_lets +onlyGivenNames z3
    extract_lets +onlyGivenNames z5
    refine Keeps.cut (x := z5) ?_ (fun h6 => ?_)
    · unfold z5
      refine Keeps.memTo rfl ?_ ?_
      · exact Memory.wf_same rfl rfl rfl
      · assumption
    clear_value z5
    refine Keeps.step (State.updateMcReady_keeps ..) rfl ?_
    refine Keeps.step (State.setFld_keeps ..) rfl ?_
    assumption

theorem State.changeSub_keeps (s : State) (k : ℕ) :
    Keeps [.mem, .out] s (State.changeSub s k) := by
  unfold State.changeSub
  extract_lets +onlyGivenNames z1
  refine Keeps.cut (x := z1) ?_ (fun h2 => ?_)
  · unfold z1
    refine Keeps.step (State.closeRows_keeps ..) rfl ?_
    refine Keeps.step (State.dram_keeps ..) rfl ?_
    exact Keeps.refl _ _
  clear_value z1
  extract_lets +onlyGivenNames z3
  refine Keeps.cut (x := z3) ?_ (fun h4 => ?_)
  · unfold z3
    refine Keeps.step (State.dram_keeps ..) rfl ?_
    refine Keeps.step (State.easeActivates_keeps ..) rfl ?_
    assumption
  clear_value z3
  extract_lets +onlyGivenNames z5
  refine Keeps.cut (x := z5) ?_ (fun h6 => ?_)
  · unfold z5
    refine Keeps.step (State.modSub_keeps ..) rfl ?_
    assumption
  clear_value z5
  extract_lets +onlyGivenNames z7
  refine Keeps.cut (x := z7) ?_ (fun h8 => ?_)
  · unfold z7
    refine Keeps.step (State.dram_keeps ..) rfl ?_
    refine Keeps.step (State.dram_keeps ..) rfl ?_
    assumption
  clear_value z7
  extract_lets +onlyGivenNames z9
  extract_lets +onlyGivenNames z10
  extract_lets +onlyGivenNames z11
  extract_lets +onlyGivenNames z12
  extract_lets +onlyGivenNames z13
  refine Keeps.cut (x := z13) ?_ (fun h14 => ?_)
  · unfold z13
    refine Keeps.step (State.modeWrite_keeps ..) rfl ?_
    refine Keeps.step (State.modeWrite_keeps ..) rfl ?_
    assumption
  clear_value z13
  refine Keeps.step (State.dram_keeps ..) rfl ?_
  assumption

theorem execFrequencyChangeDone_keeps (s : State) :
    KeepsR [.events, .regs, .mem, .out] s (execFrequencyChangeDone s) := by
  unfold execFrequencyChangeDone
  split
  · refine KeepsR.next ?_
    exact Keeps.refl _ _
  · extract_lets +onlyGivenNames z1
    extract_lets +onlyGivenNames z2
    refine KeepsR.cut (x := z2) ?_ (fun h3 => ?_)
    · unfold z2
      refine Keeps.step (State.setFld_keeps ..) rfl ?_
      exact Keeps.refl _ _
    clear_value z2
    extract_lets +onlyGivenNames z4
    refine KeepsR.cut (x := z4) ?_ (fun h5 => ?_)
    · unfold z4
      refine Keeps.foldl ?_ (fun _ _ _ => ?_)
      · assumption
      · refine Keeps.step (State.changeSub_keeps ..) rfl ?_
        assumption
    clear_value z4
    extract_lets +onlyGivenNames z6
    extract_lets +onlyGivenNames z8
    refine KeepsR.cut (x := z8) ?_ (fun h9 => ?_)
    · unfold z8
      refine Keeps.memTo rfl ?_ ?_
      · exact Memory.wf_same rfl rfl rfl
      · assumption
    clear_value z8
    extract_lets +onlyGivenNames z10
    refine KeepsR.cut (x := z10) ?_ (fun h11 => ?_)
    · unfold z10
      refine Keeps.step (State.updateMcReady_keeps ..) rfl ?_
      refine Keeps.step (State.setFld_keeps ..) rfl ?_
      assumption
    clear_value z10
    refine KeepsR.next ?_
    refine Keeps.step (State.logMem_keeps ..) rfl ?_
    assumption

end Sys2Proof.Machine
end

