-- ==== Sys2Proof/Laws/KeepsMotion.lean ====
section
/-!
SUPPORT. Laws/KeepsMotion.lean: which parts of a state each operation of Machine/Motion.lean may change, and that it keeps a sound
state sound.
-/

namespace Sys2Proof.Machine

theorem execProfileTick_keeps (s : State) :
    KeepsR [.events, .regs, .seq, .motion] s (execProfileTick s) := by
  unfold execProfileTick
  refine KeepsR.when ?_ ?_
  · exact Keeps.refl _ _
  · refine Keeps.foldl ?_ (fun _ _ _ => ?_)
    · exact Keeps.refl _ _
    · refine Keeps.step (State.profileSled_keeps ..) rfl ?_
      assumption

theorem execChopperSample_keeps (sled : Fin 16) (rawA : ℤ) (rawB : ℤ) (s : State) :
    KeepsR [.motion] s (execChopperSample sled rawA rawB s) := by
  unfold execChopperSample
  refine KeepsR.when ?_ ?_
  · exact Keeps.refl _ _
  · extract_lets +onlyGivenNames z1
    extract_lets +onlyGivenNames z2
    extract_lets +onlyGivenNames z3
    extract_lets +onlyGivenNames z4
    extract_lets +onlyGivenNames z5
    refine Keeps.cut (x := z5) ?_ (fun h6 => ?_)
    · unfold z5
      refine Keeps.step (State.modSled_keeps ..) rfl ?_
      exact Keeps.refl _ _
    clear_value z5
    split
    · assumption
    · extract_lets +onlyGivenNames z7
      extract_lets +onlyGivenNames z8
      extract_lets +onlyGivenNames z9
      extract_lets +onlyGivenNames z10
      extract_lets +onlyGivenNames z11
      extract_lets +onlyGivenNames z12
      extract_lets +onlyGivenNames z13
      extract_lets +onlyGivenNames z14
      extract_lets +onlyGivenNames z15
      refine Keeps.step (State.modSled_keeps ..) rfl ?_
      assumption

theorem execLoadAngleWindow_keeps (sled : Fin 16) (s : State) :
    KeepsR [.events, .regs, .seq, .motion] s (execLoadAngleWindow sled s) := by
  unfold execLoadAngleWindow
  extract_lets +onlyGivenNames z1
  extract_lets +onlyGivenNames z2
  refine KeepsR.when ?_ ?_
  · exact Keeps.refl _ _
  · extract_lets +onlyGivenNames z3
    extract_lets +onlyGivenNames z4
    refine Keeps.cut (x := z4) ?_ (fun h5 => ?_)
    · unfold z4
      refine Keeps.step (State.modSled_keeps ..) rfl ?_
      exact Keeps.refl _ _
    clear_value z4
    split
    · assumption
    · extract_lets +onlyGivenNames z6
      extract_lets +onlyGivenNames z7
      extract_lets +onlyGivenNames z8
      extract_lets +onlyGivenNames z9
      extract_lets +onlyGivenNames z10
      extract_lets +onlyGivenNames z11
      extract_lets +onlyGivenNames z12
      extract_lets +onlyGivenNames z13
      extract_lets +onlyGivenNames z14
      extract_lets +onlyGivenNames z15
      refine Keeps.cut (x := z15) ?_ (fun h16 => ?_)
      · unfold z15
        refine Keeps.step (State.setFld_keeps ..) rfl ?_
        assumption
      clear_value z15
      extract_lets +onlyGivenNames z17
      refine Keeps.cut (x := z17) ?_ (fun h18 => ?_)
      · unfold z17
        refine Keeps.step (State.setFld_keeps ..) rfl ?_
        assumption
      clear_value z17
      extract_lets +onlyGivenNames z19
      extract_lets +onlyGivenNames z20
      refine Keeps.cut (x := z20) ?_ (fun h21 => ?_)
      · unfold z20
        split
        · refine Keeps.step (State.modSled_keeps ..) rfl ?_
          refine Keeps.step (State.setFld_keeps ..) rfl ?_
          assumption
        · assumption
      clear_value z20
      split
      · extract_lets +onlyGivenNames z22
        refine Keeps.cut (x := z22) ?_ (fun h23 => ?_)
        · unfold z22
          refine Keeps.step (State.modSled_keeps ..) rfl ?_
          assumption
        clear_value z22
        split
        · extract_lets +onlyGivenNames z24
          extract_lets +onlyGivenNames z25
          refine Keeps.cut (x := z25) ?_ (fun h26 => ?_)
          · unfold z25
            refine Keeps.step (State.modSled_keeps ..) rfl ?_
            assumption
          clear_value z25
          refine Keeps.step (State.logMot_keeps ..) rfl ?_
          refine Keeps.step (State.freezeSled_keeps ..) rfl ?_
          assumption
        · assumption
      · refine Keeps.step (State.modSled_keeps ..) rfl ?_
        assumption

theorem execBoostHoldExpiry_keeps (sled : Fin 16) (s : State) :
    KeepsR [.regs, .motion] s (execBoostHoldExpiry sled s) := by
  unfold execBoostHoldExpiry
  split
  · refine KeepsR.next ?_
    exact Keeps.refl _ _
  · refine KeepsR.when ?_ ?_
    · exact Keeps.refl _ _
    · refine Keeps.step (State.modSled_keeps ..) rfl ?_
      refine Keeps.step (State.setFld_keeps ..) rfl ?_
      exact Keeps.refl _ _

theorem execHoldCurrentDelay_keeps (sled : Fin 16) (s : State) :
    KeepsR [.motion] s (execHoldCurrentDelay sled s) := by
  unfold execHoldCurrentDelay
  extract_lets +onlyGivenNames z1
  refine KeepsR.when ?_ ?_
  · exact Keeps.refl _ _
  · refine Keeps.step (State.modSled_keeps ..) rfl ?_
    exact Keeps.refl _ _

theorem execSledOverCurrent_keeps (sled : Fin 16) (phase : Fin 2) (first : ℤ) (second : ℤ) (s : State) :
    KeepsR [.events, .regs, .seq, .motion] s (execSledOverCurrent sled phase first second s) := by
  unfold execSledOverCurrent
  extract_lets +onlyGivenNames z1
  refine KeepsR.when ?_ ?_
  · exact Keeps.refl _ _
  · extract_lets +onlyGivenNames z2
    extract_lets +onlyGivenNames z3
    refine Keeps.cut (x := z3) ?_ (fun h4 => ?_)
    · unfold z3
      refine Keeps.step (State.modSled_keeps ..) rfl ?_
      exact Keeps.refl _ _
    clear_value z3
    extract_lets +onlyGivenNames z5
    refine Keeps.cut (x := z5) ?_ (fun h6 => ?_)
    · unfold z5
      refine Keeps.step (State.restSled_keeps ..) rfl ?_
      assumption
    clear_value z5
    extract_lets +onlyGivenNames z7
    refine Keeps.cut (x := z7) ?_ (fun h8 => ?_)
    · unfold z7
      refine Keeps.step (State.setFld_keeps ..) rfl ?_
      assumption
    clear_value z7
    extract_lets +onlyGivenNames z9
    refine Keeps.cut (x := z9) ?_ (fun h10 => ?_)
    · unfold z9
      refine Keeps.step (State.setFld_keeps ..) rfl ?_
      assumption
    clear_value z9
    refine Keeps.step (State.logMot_keeps ..) rfl ?_
    assumption

theorem State.switchQualified_keeps (s : State) (n : Fin 16) (eot : Bool) (asserted : Bool) (stamp : Stamp) (pos : ℤ) :
    Keeps [.events, .regs, .seq, .motion] s (State.switchQualified s n eot asserted stamp pos) := by
  unfold State.switchQualified
  extract_lets +onlyGivenNames z1
  extract_lets +onlyGivenNames z2
  split
  · split
    · refine Keeps.step (State.logMot_keeps ..) rfl ?_
      refine Keeps.step (State.freezeSled_keeps ..) rfl ?_
      exact Keeps.refl _ _
    · split
      · extract_lets +onlyGivenNames z3
        extract_lets +onlyGivenNames z4
        refine Keeps.cut (x := z4) ?_ (fun h5 => ?_)
        · unfold z4
          refine Keeps.step (State.modSled_keeps ..) rfl ?_
          exact Keeps.refl _ _
        clear_value z4
        refine Keeps.step (State.showSled_keeps ..) rfl ?_
        refine Keeps.step (State.setFld_keeps ..) rfl ?_
        assumption
      · split
        · refine Keeps.step (State.modSled_keeps ..) rfl ?_
          exact Keeps.refl _ _
        · exact Keeps.refl _ _
  · split
    · refine Keeps.step (State.logMot_keeps ..) rfl ?_
      refine Keeps.step (State.freezeSled_keeps ..) rfl ?_
      exact Keeps.refl _ _
    · split
      · refine Keeps.step (State.logMot_keeps ..) rfl ?_
        refine Keeps.step (State.freezeSled_keeps ..) rfl ?_
        exact Keeps.refl _ _
      · exact Keeps.refl _ _

theorem State.endWindow_keeps (s : State) (n : Fin 16) (eot : Bool) (e : EdgeWindow) (level : Bool) :
    Keeps [.events, .regs, .seq, .motion] s (State.endWindow s n eot e level) := by
  unfold State.endWindow
  extract_lets +onlyGivenNames z1
  extract_lets +onlyGivenNames z2
  refine Keeps.cut (x := z2) ?_ (fun h3 => ?_)
  · unfold z2
    refine Keeps.step (State.modSled_keeps ..) rfl ?_
    exact Keeps.refl _ _
  clear_value z2
  split
  · refine Keeps.step (State.logMot_keeps ..) rfl ?_
    assumption
  · extract_lets +onlyGivenNames z4
    refine Keeps.cut (x := z4) ?_ (fun h5 => ?_)
    · unfold z4
      refine Keeps.step (State.setPair_keeps ..) rfl ?_
      assumption
    clear_value z4
    extract_lets +onlyGivenNames z6
    refine Keeps.cut (x := z6) ?_ (fun h7 => ?_)
    · unfold z6
      refine Keeps.step (State.setFld_keeps ..) rfl ?_
      assumption
    clear_value z6
    extract_lets +onlyGivenNames z8
    refine Keeps.cut (x := z8) ?_ (fun h9 => ?_)
    · unfold z8
      refine Keeps.step (State.logMot_keeps ..) rfl ?_
      assumption
    clear_value z8
    refine Keeps.step (State.switchQualified_keeps ..) rfl ?_
    assumption

theorem execSwitchEdge_keeps (sled : Fin 16) (eot : Bool) (s : State) :
    KeepsR [.events, .regs, .seq, .motion] s (execSwitchEdge sled eot s) := by
  unfold execSwitchEdge
  extract_lets +onlyGivenNames z1
  extract_lets +onlyGivenNames z2
  extract_lets +onlyGivenNames z3
  extract_lets +onlyGivenNames z4
  refine KeepsR.next ?_
  split
  · unfold z4
    extract_lets +onlyGivenNames z5
    extract_lets +onlyGivenNames z6
    refine Keeps.step (State.modSled_keeps ..) rfl ?_
    exact Keeps.refl _ _
  · split
    · refine Keeps.step (State.modSled_keeps ..) rfl ?_
      exact Keeps.refl _ _
    · unfold z4
      extract_lets +onlyGivenNames z7
      extract_lets +onlyGivenNames z8
      refine Keeps.step (State.modSled_keeps ..) rfl ?_
      refine Keeps.step (State.endWindow_keeps ..) rfl ?_
      exact Keeps.refl _ _

theorem execSwitchDebounceEnd_keeps (sled : Fin 16) (eot : Bool) (asserted : Bool) (s : State) :
    KeepsR [.events, .regs, .seq, .motion] s (execSwitchDebounceEnd sled eot asserted s) := by
  unfold execSwitchDebounceEnd
  split
  · refine KeepsR.next ?_
    exact Keeps.refl _ _
  · refine KeepsR.when ?_ ?_
    · exact Keeps.refl _ _
    · refine Keeps.step (State.endWindow_keeps ..) rfl ?_
      exact Keeps.refl _ _

theorem State.clearSledFault_keeps (s : State) (n : Fin 16) :
    Keeps [.regs] s (State.clearSledFault s n) := by
  unfold State.clearSledFault
  extract_lets +onlyGivenNames z1
  extract_lets +onlyGivenNames z2
  extract_lets +onlyGivenNames z3
  extract_lets +onlyGivenNames z4
  split
  · exact Keeps.refl _ _
  · refine Keeps.step (State.setFld_keeps ..) rfl ?_
    exact Keeps.refl _ _

theorem execSledClearFault_keeps (sled : Fin 16) (s : State) :
    KeepsR [.regs] s (execSledClearFault sled s) := by
  unfold execSledClearFault
  refine KeepsR.next ?_
  refine Keeps.step (State.clearSledFault_keeps ..) rfl ?_
  exact Keeps.refl _ _

theorem execSledTargetWrite_keeps (sled : Fin 16) (val : Word) (s : State) :
    KeepsR [.regs, .motion] s (execSledTargetWrite sled val s) := by
  unfold execSledTargetWrite
  refine KeepsR.next ?_
  refine Keeps.step (State.writeTarget_keeps ..) rfl ?_
  exact Keeps.refl _ _

theorem execSledDemand_keeps (sled : Fin 16) (demand : ℤ) (s : State) :
    KeepsR [.motion] s (execSledDemand sled demand s) := by
  unfold execSledDemand
  refine KeepsR.next ?_
  refine Keeps.step (State.modSled_keeps ..) rfl ?_
  exact Keeps.refl _ _

end Sys2Proof.Machine
end

