-- ==== Sys2Proof/Laws/KeepsObkin.lean ====
section
/-!
SUPPORT. Laws/KeepsObkin.lean: which parts of a state each operation of Machine/Obkin.lean may change, and that it keeps a sound
state sound.
-/

namespace Sys2Proof.Machine

theorem State.aluIns_keeps (s : State) (b : Fin 24) (u : Upset) (k : ℕ) (f : Ins → ℕ → ℕ → ℕ) :
    KeepsR [.events, .regs, .seq] s (State.aluIns s b u k f) := by
  unfold State.aluIns
  refine State.issue_keeps ?_ ?_ ?_
  · exact rfl
  · intro y1 y2 y3
    refine KeepsE.ok ?_
    refine Keeps.step (State.setG_keeps ..) rfl ?_
    assumption
  · exact Keeps.refl _ _

theorem execAdd_keeps (b : Fin 24) (u : Upset) (s : State) :
    KeepsR [.events, .regs, .seq] s (execAdd b u s) := by
  unfold execAdd
  refine KeepsR.step (State.aluIns_keeps _ _ _ _ _) rfl ?_
  exact Keeps.refl _ _

theorem execSub_keeps (b : Fin 24) (u : Upset) (s : State) :
    KeepsR [.events, .regs, .seq] s (execSub b u s) := by
  unfold execSub
  refine KeepsR.step (State.aluIns_keeps _ _ _ _ _) rfl ?_
  exact Keeps.refl _ _

theorem execAnd_keeps (b : Fin 24) (u : Upset) (s : State) :
    KeepsR [.events, .regs, .seq] s (execAnd b u s) := by
  unfold execAnd
  refine KeepsR.step (State.aluIns_keeps _ _ _ _ _) rfl ?_
  exact Keeps.refl _ _

theorem execOr_keeps (b : Fin 24) (u : Upset) (s : State) :
    KeepsR [.events, .regs, .seq] s (execOr b u s) := by
  unfold execOr
  refine KeepsR.step (State.aluIns_keeps _ _ _ _ _) rfl ?_
  exact Keeps.refl _ _

theorem execXor_keeps (b : Fin 24) (u : Upset) (s : State) :
    KeepsR [.events, .regs, .seq] s (execXor b u s) := by
  unfold execXor
  refine KeepsR.step (State.aluIns_keeps _ _ _ _ _) rfl ?_
  exact Keeps.refl _ _

theorem execShl_keeps (b : Fin 24) (u : Upset) (s : State) :
    KeepsR [.events, .regs, .seq] s (execShl b u s) := by
  unfold execShl
  refine KeepsR.step (State.aluIns_keeps _ _ _ _ _) rfl ?_
  exact Keeps.refl _ _

theorem execShr_keeps (b : Fin 24) (u : Upset) (s : State) :
    KeepsR [.events, .regs, .seq] s (execShr b u s) := by
  unfold execShr
  refine KeepsR.step (State.aluIns_keeps _ _ _ _ _) rfl ?_
  exact Keeps.refl _ _

theorem execSar_keeps (b : Fin 24) (u : Upset) (s : State) :
    KeepsR [.events, .regs, .seq] s (execSar b u s) := by
  unfold execSar
  refine KeepsR.step (State.aluIns_keeps _ _ _ _ _) rfl ?_
  exact Keeps.refl _ _

theorem execMul_keeps (b : Fin 24) (u : Upset) (s : State) :
    KeepsR [.events, .regs, .seq] s (execMul b u s) := by
  unfold execMul
  refine KeepsR.step (State.aluIns_keeps _ _ _ _ _) rfl ?_
  exact Keeps.refl _ _

theorem execMulh_keeps (b : Fin 24) (u : Upset) (s : State) :
    KeepsR [.events, .regs, .seq] s (execMulh b u s) := by
  unfold execMulh
  refine KeepsR.step (State.aluIns_keeps _ _ _ _ _) rfl ?_
  exact Keeps.refl _ _

theorem execMin_keeps (b : Fin 24) (u : Upset) (s : State) :
    KeepsR [.events, .regs, .seq] s (execMin b u s) := by
  unfold execMin
  refine KeepsR.step (State.aluIns_keeps _ _ _ _ _) rfl ?_
  exact Keeps.refl _ _

theorem execMax_keeps (b : Fin 24) (u : Upset) (s : State) :
    KeepsR [.events, .regs, .seq] s (execMax b u s) := by
  unfold execMax
  refine KeepsR.step (State.aluIns_keeps _ _ _ _ _) rfl ?_
  exact Keeps.refl _ _

theorem execAddi_keeps (b : Fin 24) (u : Upset) (s : State) :
    KeepsR [.events, .regs, .seq] s (execAddi b u s) := by
  unfold execAddi
  refine KeepsR.step (State.aluIns_keeps _ _ _ _ _) rfl ?_
  exact Keeps.refl _ _

theorem execAndi_keeps (b : Fin 24) (u : Upset) (s : State) :
    KeepsR [.events, .regs, .seq] s (execAndi b u s) := by
  unfold execAndi
  refine KeepsR.step (State.aluIns_keeps _ _ _ _ _) rfl ?_
  exact Keeps.refl _ _

theorem execOri_keeps (b : Fin 24) (u : Upset) (s : State) :
    KeepsR [.events, .regs, .seq] s (execOri b u s) := by
  unfold execOri
  refine KeepsR.step (State.aluIns_keeps _ _ _ _ _) rfl ?_
  exact Keeps.refl _ _

theorem execShi_keeps (b : Fin 24) (u : Upset) (s : State) :
    KeepsR [.events, .regs, .seq] s (execShi b u s) := by
  unfold execShi
  refine KeepsR.step (State.aluIns_keeps _ _ _ _ _) rfl ?_
  exact Keeps.refl _ _

theorem execBfx_keeps (b : Fin 24) (u : Upset) (s : State) :
    KeepsR [.events, .regs, .seq] s (execBfx b u s) := by
  unfold execBfx
  refine KeepsR.step (State.aluIns_keeps _ _ _ _ _) rfl ?_
  exact Keeps.refl _ _

theorem execBfi_keeps (b : Fin 24) (u : Upset) (s : State) :
    KeepsR [.events, .regs, .seq] s (execBfi b u s) := by
  unfold execBfi
  refine State.issue_keeps ?_ ?_ ?_
  · exact rfl
  · intro y1 y2 y3
    extract_lets +onlyGivenNames z4
    extract_lets +onlyGivenNames z5
    extract_lets +onlyGivenNames z6
    extract_lets +onlyGivenNames z7
    refine KeepsE.ok ?_
    refine Keeps.step (State.setG_keeps ..) rfl ?_
    assumption
  · exact Keeps.refl _ _

theorem execCnt_keeps (b : Fin 24) (u : Upset) (s : State) :
    KeepsR [.events, .regs, .seq] s (execCnt b u s) := by
  unfold execCnt
  refine KeepsR.step (State.aluIns_keeps _ _ _ _ _) rfl ?_
  exact Keeps.refl _ _

theorem execDivu_keeps (b : Fin 24) (u : Upset) (s : State) :
    KeepsR [.events, .regs, .seq] s (execDivu b u s) := by
  unfold execDivu
  refine State.issue_keeps ?_ ?_ ?_
  · exact rfl
  · intro y1 y2 y3
    extract_lets +onlyGivenNames z4
    extract_lets +onlyGivenNames z5
    refine KeepsE.cut (x := z5) ?_ (fun h6 => ?_)
    · unfold z5
      refine Keeps.step (State.setG_keeps ..) rfl ?_
      assumption
    clear_value z5
    refine KeepsE.ok ?_
    refine Keeps.step (State.modBob_keeps ..) rfl ?_
    assumption
  · exact Keeps.refl _ _

theorem State.predIns_keeps (s : State) (b : Fin 24) (u : Upset) (k : ℕ) (f : Ins → State → Bool) :
    KeepsR [.events, .regs, .seq] s (State.predIns s b u k f) := by
  unfold State.predIns
  refine State.issue_keeps ?_ ?_ ?_
  · exact rfl
  · intro y1 y2 y3
    refine KeepsE.ok ?_
    refine Keeps.step (State.setP_keeps ..) rfl ?_
    assumption
  · exact Keeps.refl _ _

theorem execCmp_keeps (b : Fin 24) (u : Upset) (s : State) :
    KeepsR [.events, .regs, .seq] s (execCmp b u s) := by
  unfold execCmp
  refine KeepsR.step (State.predIns_keeps _ _ _ _ _) rfl ?_
  exact Keeps.refl _ _

theorem execCmpiEq_keeps (b : Fin 24) (u : Upset) (s : State) :
    KeepsR [.events, .regs, .seq] s (execCmpiEq b u s) := by
  unfold execCmpiEq
  refine KeepsR.step (State.predIns_keeps _ _ _ _ _) rfl ?_
  exact Keeps.refl _ _

theorem execCmpiLt_keeps (b : Fin 24) (u : Upset) (s : State) :
    KeepsR [.events, .regs, .seq] s (execCmpiLt b u s) := by
  unfold execCmpiLt
  refine KeepsR.step (State.predIns_keeps _ _ _ _ _) rfl ?_
  exact Keeps.refl _ _

theorem execCmpiLtu_keeps (b : Fin 24) (u : Upset) (s : State) :
    KeepsR [.events, .regs, .seq] s (execCmpiLtu b u s) := by
  unfold execCmpiLtu
  refine KeepsR.step (State.predIns_keeps _ _ _ _ _) rfl ?_
  exact Keeps.refl _ _

theorem execPset_keeps (b : Fin 24) (u : Upset) (s : State) :
    KeepsR [.events, .regs, .seq] s (execPset b u s) := by
  unfold execPset
  refine KeepsR.step (State.predIns_keeps _ _ _ _ _) rfl ?_
  exact Keeps.refl _ _

theorem execSel_keeps (b : Fin 24) (u : Upset) (s : State) :
    KeepsR [.events, .regs, .seq] s (execSel b u s) := by
  unfold execSel
  refine State.issue_keeps ?_ ?_ ?_
  · exact rfl
  · intro y1 y2 y3
    refine KeepsE.ok ?_
    refine Keeps.step (State.setG_keeps ..) rfl ?_
    assumption
  · exact Keeps.refl _ _

theorem State.setPc_keeps (s : State) (b : Fin 24) (pc : ℕ) :
    Keeps [.seq] s (State.setPc s b pc) := by
  unfold State.setPc
  refine Keeps.step (State.modBob_keeps ..) rfl ?_
  exact Keeps.refl _ _

theorem execBr_keeps (b : Fin 24) (u : Upset) (s : State) :
    KeepsR [.events, .regs, .seq] s (execBr b u s) := by
  unfold execBr
  refine State.issue_keeps rfl (fun i t h => ?_) (Keeps.refl _ _)
  refine KeepsE.map (fun pc => ?_)
  refine Keeps.step (State.setPc_keeps ..) rfl ?_
  assumption

theorem execCall_keeps (b : Fin 24) (u : Upset) (s : State) :
    KeepsR [.events, .regs, .seq] s (execCall b u s) := by
  unfold execCall
  refine State.issue_keeps rfl (fun i t h => ?_) (Keeps.refl _ _)
  refine KeepsE.map (fun pc => ?_)
  refine Keeps.step (State.setPc_keeps ..) rfl ?_
  refine Keeps.step (State.setG_keeps ..) rfl ?_
  assumption

theorem execJr_keeps (b : Fin 24) (u : Upset) (s : State) :
    KeepsR [.events, .regs, .seq] s (execJr b u s) := by
  unfold execJr
  refine State.issue_keeps ?_ ?_ ?_
  · exact rfl
  · intro y1 y2 y3
    extract_lets +onlyGivenNames z4
    refine KeepsE.ok ?_
    refine Keeps.step (State.setPc_keeps ..) rfl ?_
    split
    · refine Keeps.step (State.setG_keeps ..) rfl ?_
      assumption
    · assumption
  · exact Keeps.refl _ _

theorem execTrap_keeps (b : Fin 24) (u : Upset) (s : State) :
    KeepsR [.events, .regs, .seq] s (execTrap b u s) := by
  unfold execTrap
  refine State.issue_keeps ?_ ?_ ?_
  · exact rfl
  · intro y1 y2 y3
    exact KeepsE.error
  · exact Keeps.refl _ _

theorem execHalt_keeps (b : Fin 24) (u : Upset) (s : State) :
    KeepsR [.events, .regs, .seq] s (execHalt b u s) := by
  unfold execHalt
  refine State.issue_keeps ?_ ?_ ?_
  · exact rfl
  · intro y1 y2 y3
    refine KeepsE.ok ?_
    refine Keeps.step (State.modBob_keeps ..) rfl ?_
    assumption
  · exact Keeps.refl _ _

theorem execFence_keeps (b : Fin 24) (u : Upset) (s : State) :
    KeepsR [.events, .regs, .seq] s (execFence b u s) := by
  unfold execFence
  refine State.issue_keeps ?_ ?_ ?_
  · exact rfl
  · intro y1 y2 y3
    refine KeepsE.ok ?_
    assumption
  · exact Keeps.refl _ _

theorem execSignal_keeps (b : Fin 24) (u : Upset) (s : State) :
    KeepsR [.events, .regs, .seq] s (execSignal b u s) := by
  unfold execSignal
  refine State.issue_keeps ?_ ?_ ?_
  · exact rfl
  · intro y1 y2 y3
    extract_lets +onlyGivenNames z4
    split
    · extract_lets +onlyGivenNames z5
      extract_lets +onlyGivenNames z6
      split
      · refine KeepsE.ok ?_
        refine Keeps.step (State.setP_keeps ..) rfl ?_
        assumption
      · extract_lets +onlyGivenNames z7
        refine KeepsE.ok ?_
        refine Keeps.step (State.setP_keeps ..) rfl ?_
        refine Keeps.step (State.sendEntry_keeps ..) rfl ?_
        assumption
    · exact KeepsE.error
  · exact Keeps.refl _ _

theorem execTbNow_keeps (b : Fin 24) (u : Upset) (s : State) :
    KeepsR [.events, .regs, .seq] s (execTbNow b u s) := by
  unfold execTbNow
  refine State.issue_keeps ?_ ?_ ?_
  · exact rfl
  · intro y1 y2 y3
    refine KeepsE.ok ?_
    refine Keeps.step (State.setG_keeps ..) rfl ?_
    assumption
  · exact Keeps.refl _ _

theorem execTbLast_keeps (b : Fin 24) (u : Upset) (s : State) :
    KeepsR [.events, .regs, .seq] s (execTbLast b u s) := by
  unfold execTbLast
  refine State.issue_keeps ?_ ?_ ?_
  · exact rfl
  · intro y1 y2 y3
    refine KeepsE.ok ?_
    refine Keeps.step (State.setG_keeps ..) rfl ?_
    assumption
  · exact Keeps.refl _ _

theorem State.deliver_keeps (s : State) (b : Fin 24) (e : EvEntry) (rd : ℕ) (p : ℕ) :
    Keeps [.seq] s (State.deliver s b e rd p) := by
  unfold State.deliver
  extract_lets +onlyGivenNames z1
  refine Keeps.cut (x := z1) ?_ (fun h2 => ?_)
  · unfold z1
    refine Keeps.step (State.modBob_keeps ..) rfl ?_
    exact Keeps.refl _ _
  clear_value z1
  refine Keeps.step (State.setP_keeps ..) rfl ?_
  refine Keeps.step (State.setG_keeps ..) rfl ?_
  assumption

theorem execWaitEv_keeps (b : Fin 24) (u : Upset) (s : State) :
    KeepsR [.events, .regs, .seq] s (execWaitEv b u s) := by
  unfold execWaitEv
  refine State.issue_keeps ?_ ?_ ?_
  · exact rfl
  · intro y1 y2 y3
    extract_lets +onlyGivenNames z4
    extract_lets +onlyGivenNames z5
    split
    · refine KeepsE.ok ?_
      refine Keeps.step (State.deliver_keeps ..) rfl ?_
      assumption
    · refine KeepsE.ok ?_
      refine Keeps.step (State.modBob_keeps ..) rfl ?_
      assumption
  · exact Keeps.refl _ _

theorem execWaitUntil_keeps (b : Fin 24) (u : Upset) (s : State) :
    KeepsR [.events, .regs, .seq] s (execWaitUntil b u s) := by
  unfold execWaitUntil
  refine State.issue_keeps ?_ ?_ ?_
  · exact rfl
  · intro y1 y2 y3
    extract_lets +onlyGivenNames z4
    split
    · refine KeepsE.ok ?_
      assumption
    · refine KeepsE.ok ?_
      refine Keeps.step (State.modBob_keeps ..) rfl ?_
      assumption
  · exact Keeps.refl _ _

theorem execPoll_keeps (b : Fin 24) (u : Upset) (s : State) :
    KeepsR [.events, .regs, .seq] s (execPoll b u s) := by
  unfold execPoll
  refine State.issue_keeps ?_ ?_ ?_
  · exact rfl
  · intro y1 y2 y3
    split
    · refine KeepsE.ok ?_
      refine Keeps.step (State.deliver_keeps ..) rfl ?_
      assumption
    · refine KeepsE.ok ?_
      refine Keeps.step (State.setP_keeps ..) rfl ?_
      refine Keeps.step (State.setG_keeps ..) rfl ?_
      assumption
  · exact Keeps.refl _ _

theorem State.endWait_keeps (s : State) (b : Fin 24) :
    Keeps [.seq] s (State.endWait s b) := by
  unfold State.endWait
  extract_lets +onlyGivenNames z1
  refine Keeps.step (State.modBob_keeps ..) rfl ?_
  exact Keeps.refl _ _

theorem execEventQueueEntry_keeps (bobbin : Fin 24) (s : State) :
    KeepsR [.regs, .seq] s (execEventQueueEntry bobbin s) := by
  unfold execEventQueueEntry
  split
  · refine KeepsR.next ?_
    exact Keeps.refl _ _
  · extract_lets +onlyGivenNames z1
    refine KeepsR.cut (x := z1) ?_ (fun h2 => ?_)
    · unfold z1
      refine Keeps.step (State.modBob_keeps ..) rfl ?_
      exact Keeps.refl _ _
    clear_value z1
    extract_lets +onlyGivenNames z3
    split
    · refine KeepsR.next ?_
      refine Keeps.step (State.bump_keeps ..) rfl ?_
      assumption
    · extract_lets +onlyGivenNames z4
      refine KeepsR.cut (x := z4) ?_ (fun h5 => ?_)
      · unfold z4
        split
        · refine Keeps.step (State.modBob_keeps ..) rfl ?_
          assumption
        · assumption
      clear_value z4
      refine KeepsR.next ?_
      refine Keeps.step (State.modBob_keeps ..) rfl ?_
      assumption

theorem execEventQueueRelease_keeps (bobbin : Fin 24) (s : State) :
    KeepsR [.seq] s (execEventQueueRelease bobbin s) := by
  unfold execEventQueueRelease
  split
  · refine KeepsR.next ?_
    exact Keeps.refl _ _
  · extract_lets +onlyGivenNames z1
    refine KeepsR.cut (x := z1) ?_ (fun h2 => ?_)
    · unfold z1
      refine Keeps.step (State.modBob_keeps ..) rfl ?_
      exact Keeps.refl _ _
    clear_value z1
    split
    · split
      · refine KeepsR.next ?_
        refine Keeps.step (State.endWait_keeps ..) rfl ?_
        refine Keeps.step (State.deliver_keeps ..) rfl ?_
        assumption
      · refine KeepsR.next ?_
        assumption
    · refine KeepsR.next ?_
      assumption

theorem execWaitTimeout_keeps (bobbin : Fin 24) (s : State) :
    KeepsR [.seq] s (execWaitTimeout bobbin s) := by
  unfold execWaitTimeout
  split
  · refine KeepsR.when ?_ ?_
    · exact Keeps.refl _ _
    · refine Keeps.step (State.endWait_keeps ..) rfl ?_
      refine Keeps.step (State.setP_keeps ..) rfl ?_
      refine Keeps.step (State.setG_keeps ..) rfl ?_
      exact Keeps.refl _ _
  · refine KeepsR.next ?_
    exact Keeps.refl _ _

theorem execWaitUntilReached_keeps (bobbin : Fin 24) (s : State) :
    KeepsR [.seq] s (execWaitUntilReached bobbin s) := by
  unfold execWaitUntilReached
  split
  · refine KeepsR.when ?_ ?_
    · exact Keeps.refl _ _
    · refine Keeps.step (State.endWait_keeps ..) rfl ?_
      exact Keeps.refl _ _
  · refine KeepsR.next ?_
    exact Keeps.refl _ _

theorem State.privileged_keeps {P : List Part} {s0 : State} {s : State} {b : Fin 24} {i : Ins} {f : Fin 24 → Effect}
    (_hP : Part.sub [] P = true) (hf : ∀ a0, KeepsE P s0 (f a0)) (_hs : Keeps P s0 s) :
    KeepsE P s0 (State.privileged s b i f) := by
  unfold State.privileged
  split
  · exact KeepsE.error
  · extract_lets +onlyGivenNames z1
    split
    · refine hf _
    · exact KeepsE.error

theorem execBobStart_keeps (via : Via (Accessor × Fin 24)) (s : State) :
    KeepsR [.events, .regs, .seq] s (execBobStart via s) := by
  unfold execBobStart
  split
  · refine KeepsR.next ?_
    refine Keeps.step (State.tryStart_keeps ..) rfl ?_
    exact Keeps.refl _ _
  · refine State.issue_keeps ?_ ?_ ?_
    · exact rfl
    · intro y1 y2 y3
      refine State.privileged_keeps ?_ ?_ ?_
      · exact rfl
      · intro y4
        split
        rename_i a5 a6 a7 a8 a9 a10 a11
        refine KeepsE.ok ?_
        refine Keeps.step (State.setP_keeps ..) rfl ?_
        refine Keeps.ofSnd a11 ?_
        refine Keeps.step (State.tryStart_keeps ..) rfl ?_
        assumption
      · assumption
    · exact Keeps.refl _ _

theorem execBobHalt_keeps (via : Via (Accessor × Fin 24)) (s : State) :
    KeepsR [.events, .regs, .seq] s (execBobHalt via s) := by
  unfold execBobHalt
  split
  · refine KeepsR.next ?_
    refine Keeps.step (State.requestHalt_keeps ..) rfl ?_
    exact Keeps.refl _ _
  · refine State.issue_keeps ?_ ?_ ?_
    · exact rfl
    · intro y1 y2 y3
      refine State.privileged_keeps ?_ ?_ ?_
      · exact rfl
      · intro y4
        split
        · refine KeepsE.ok ?_
          refine Keeps.step (State.modBob_keeps ..) rfl ?_
          assumption
        · refine KeepsE.ok ?_
          refine Keeps.step (State.requestHalt_keeps ..) rfl ?_
          assumption
      · assumption
    · exact Keeps.refl _ _

theorem execBobResume_keeps (acc : Accessor) (bobbin : Fin 24) (s : State) :
    KeepsR [.events, .seq] s (execBobResume acc bobbin s) := by
  unfold execBobResume
  split
  · refine KeepsR.next ?_
    refine Keeps.step (State.logSeq_keeps ..) rfl ?_
    exact Keeps.refl _ _
  · extract_lets +onlyGivenNames z1
    refine KeepsR.when ?_ ?_
    · exact Keeps.refl _ _
    · refine Keeps.step (State.modBob_keeps ..) rfl ?_
      exact Keeps.refl _ _

theorem execBobbinHalted_keeps (bobbin : Fin 24) (s : State) :
    KeepsR [.events, .regs, .heads, .loop, .seq, .motion] s (execBobbinHalted bobbin s) := by
  unfold execBobbinHalted
  split
  · refine KeepsR.next ?_
    refine Keeps.step (State.haltNow_keeps ..) rfl ?_
    exact Keeps.refl _ _
  · refine KeepsR.next ?_
    exact Keeps.refl _ _

theorem execBobStat_keeps (b : Fin 24) (u : Upset) (s : State) :
    KeepsR [.events, .regs, .seq] s (execBobStat b u s) := by
  unfold execBobStat
  refine State.issue_keeps ?_ ?_ ?_
  · exact rfl
  · intro y1 y2 y3
    refine State.privileged_keeps ?_ ?_ ?_
    · exact rfl
    · intro y4
      refine KeepsE.ok ?_
      refine Keeps.step (State.setG_keeps ..) rfl ?_
      assumption
    · assumption
  · exact Keeps.refl _ _

theorem execCapWr_keeps (via : Via (Accessor × Fin 24 × Word)) (s : State) :
    KeepsR [.events, .regs, .seq] s (execCapWr via s) := by
  unfold execCapWr
  split
  · refine KeepsR.next ?_
    refine Keeps.step (State.capWrite_keeps ..) rfl ?_
    exact Keeps.refl _ _
  · refine State.issue_keeps ?_ ?_ ?_
    · exact rfl
    · intro y1 y2 y3
      refine State.privileged_keeps ?_ ?_ ?_
      · exact rfl
      · intro y4
        split
        rename_i a5 a6 a7 a8 a9 a10 a11
        refine KeepsE.ok ?_
        refine Keeps.step (State.setP_keeps ..) rfl ?_
        refine Keeps.ofSnd a11 ?_
        refine Keeps.step (State.capWrite_keeps ..) rfl ?_
        assumption
      · assumption
    · exact Keeps.refl _ _

end Sys2Proof.Machine
end

