-- ==== Sys2Proof/Laws/KeepsMotionIns.lean ====
section
/-!
SUPPORT. Laws/KeepsMotionIns.lean: which parts of a state each operation of Machine/MotionIns.lean may change, and that it keeps a sound
state sound.
-/

namespace Sys2Proof.Machine

theorem State.sledCode_keeps (s : State) (n : Fin 16) (c : ℕ) :
    Keeps [.events, .regs, .seq, .motion] s (State.sledCode s n c) := by
  unfold State.sledCode
  split
  · refine Keeps.step (State.sledCommand_keeps ..) rfl ?_
    exact Keeps.refl _ _
  · refine Keeps.step (State.sledCommand_keeps ..) rfl ?_
    exact Keeps.refl _ _
  · refine Keeps.step (State.sledCommand_keeps ..) rfl ?_
    exact Keeps.refl _ _
  · refine Keeps.step (State.sledCommand_keeps ..) rfl ?_
    exact Keeps.refl _ _
  · refine Keeps.step (State.sledCommand_keeps ..) rfl ?_
    exact Keeps.refl _ _
  · refine Keeps.step (State.sledCommand_keeps ..) rfl ?_
    exact Keeps.refl _ _
  · refine Keeps.step (State.sledStop_keeps ..) rfl ?_
    exact Keeps.refl _ _
  · exact Keeps.refl _ _

theorem State.sledIns_keeps (s : State) (codes : List ℕ) (via : Via (Fin 16)) :
    KeepsR [.events, .regs, .seq, .motion] s (State.sledIns s codes via) := by
  unfold State.sledIns
  split
  · refine KeepsR.next ?_
    refine Keeps.step (State.sledCode_keeps ..) rfl ?_
    exact Keeps.refl _ _
  · refine State.issue_keeps ?_ ?_ ?_
    · exact rfl
    · intro y1 y2 y3
      refine State.headChecks_keeps ?_ ?_ ?_
      · exact rfl
      · intro y4
        extract_lets +onlyGivenNames z5
        extract_lets +onlyGivenNames z6
        extract_lets +onlyGivenNames z7
        split
        · refine KeepsE.ok ?_
          unfold z7
          refine Keeps.step (State.sledCode_keeps ..) rfl ?_
          split
          · refine Keeps.step (State.writeTarget_keeps ..) rfl ?_
            assumption
          · assumption
        · refine State.async_keeps ?_ ?_ ?_
          · exact rfl
          · intro y8 y9 y10
            unfold z7
            refine Keeps.step (State.sledCode_keeps ..) rfl ?_
            split
            · refine Keeps.step (State.writeTarget_keeps ..) rfl ?_
              refine Keeps.step (State.modSled_keeps ..) rfl ?_
              assumption
            · refine Keeps.step (State.modSled_keeps ..) rfl ?_
              assumption
          · assumption
      · assumption
    · exact Keeps.refl _ _

theorem execSledIdle_keeps (via : Via (Fin 16)) (s : State) :
    KeepsR [.events, .regs, .seq, .motion] s (execSledIdle via s) := by
  unfold execSledIdle
  refine KeepsR.step (State.sledIns_keeps _ _ _) rfl ?_
  exact Keeps.refl _ _

theorem execSledHold_keeps (via : Via (Fin 16)) (s : State) :
    KeepsR [.events, .regs, .seq, .motion] s (execSledHold via s) := by
  unfold execSledHold
  refine KeepsR.step (State.sledIns_keeps _ _ _) rfl ?_
  exact Keeps.refl _ _

theorem execSledMove_keeps (via : Via (Fin 16)) (s : State) :
    KeepsR [.events, .regs, .seq, .motion] s (execSledMove via s) := by
  unfold execSledMove
  refine KeepsR.step (State.sledIns_keeps _ _ _) rfl ?_
  exact Keeps.refl _ _

theorem execSledFollow_keeps (via : Via (Fin 16)) (s : State) :
    KeepsR [.events, .regs, .seq, .motion] s (execSledFollow via s) := by
  unfold execSledFollow
  refine KeepsR.step (State.sledIns_keeps _ _ _) rfl ?_
  exact Keeps.refl _ _

theorem execSledHome_keeps (via : Via (Fin 16)) (s : State) :
    KeepsR [.events, .regs, .seq, .motion] s (execSledHome via s) := by
  unfold execSledHome
  refine KeepsR.step (State.sledIns_keeps _ _ _) rfl ?_
  exact Keeps.refl _ _

theorem execSledSoftstop_keeps (via : Via (Fin 16)) (s : State) :
    KeepsR [.events, .regs, .seq, .motion] s (execSledSoftstop via s) := by
  unfold execSledSoftstop
  refine KeepsR.step (State.sledIns_keeps _ _ _) rfl ?_
  exact Keeps.refl _ _

theorem execSledStop_keeps (via : Via (Fin 16)) (s : State) :
    KeepsR [.events, .regs, .seq, .motion] s (execSledStop via s) := by
  unfold execSledStop
  refine KeepsR.step (State.sledIns_keeps _ _ _) rfl ?_
  exact Keeps.refl _ _

theorem execSlPos_keeps (b : Fin 24) (u : Upset) (s : State) :
    KeepsR [.events, .regs, .seq] s (execSlPos b u s) := by
  unfold execSlPos
  refine State.issue_keeps ?_ ?_ ?_
  · exact rfl
  · intro y1 y2 y3
    refine State.headChecks_keeps ?_ ?_ ?_
    · exact rfl
    · intro y4
      extract_lets +onlyGivenNames z5
      extract_lets +onlyGivenNames z6
      refine KeepsE.ok ?_
      refine Keeps.step (State.setG_keeps ..) rfl ?_
      assumption
    · assumption
  · exact Keeps.refl _ _

theorem execSlReref_keeps (b : Fin 24) (u : Upset) (s : State) :
    KeepsR [.events, .regs, .seq, .motion] s (execSlReref b u s) := by
  unfold execSlReref
  refine State.issue_keeps ?_ ?_ ?_
  · exact rfl
  · intro y1 y2 y3
    refine State.headChecks_keeps ?_ ?_ ?_
    · exact rfl
    · intro y4
      extract_lets +onlyGivenNames z5
      refine KeepsE.ok ?_
      refine Keeps.step (State.reref_keeps ..) rfl ?_
      assumption
    · assumption
  · exact Keeps.refl _ _

theorem State.spIns_keeps {P : List Part} {s0 : State} {s : State} {b : Fin 24} {u : Upset} {sel : ℕ → Bool} {f : Ins → State → State}
    (hP : Part.sub [.events, .regs, .seq] P = true) (hf : ∀ a0 a1, Keeps P s0 a1 → Keeps P s0 (f a0 a1)) (hs : Keeps P s0 s) :
    KeepsR P s0 (State.spIns s b u sel f) := by
  unfold State.spIns
  refine State.issue_keeps ?_ ?_ ?_
  · assumption
  · intro y1 y2 y3
    refine State.famChecks_keeps ?_
    split
    · exact KeepsE.error
    · refine KeepsE.ok ?_
      refine hf _ _ ?_
      assumption
  · assumption

theorem State.askSpinStart_keeps (s : State) (fltLow : Bool) :
    Keeps [.events, .regs, .motion] s (State.askSpinStart s fltLow) := by
  unfold State.askSpinStart
  split
  · refine Keeps.step (State.modSpin_keeps ..) rfl ?_
    exact Keeps.refl _ _
  · refine Keeps.step (State.spinStart_keeps ..) rfl ?_
    exact Keeps.refl _ _

theorem execSpindleStart_keeps (via : Via Unit) (fltLow : Bool) (s : State) :
    KeepsR [.events, .regs, .seq, .motion] s (execSpindleStart via fltLow s) := by
  unfold execSpindleStart
  split
  · refine KeepsR.next ?_
    refine Keeps.step (State.askSpinStart_keeps ..) rfl ?_
    exact Keeps.refl _ _
  · refine State.spIns_keeps ?_ ?_ ?_
    · exact rfl
    · intro y1 y2 y3
      refine Keeps.step (State.askSpinStart_keeps ..) rfl ?_
      assumption
    · exact Keeps.refl _ _

theorem execSpindleStop_keeps (via : Via Unit) (s : State) :
    KeepsR [.events, .regs, .seq, .motion] s (execSpindleStop via s) := by
  unfold execSpindleStop
  split
  · refine KeepsR.next ?_
    refine Keeps.step (State.spinStop_keeps ..) rfl ?_
    exact Keeps.refl _ _
  · refine State.spIns_keeps ?_ ?_ ?_
    · exact rfl
    · intro y1 y2 y3
      refine Keeps.step (State.spinStop_keeps ..) rfl ?_
      assumption
    · exact Keeps.refl _ _

theorem execSpindleDemandSet_keeps (via : Via (Fin 128)) (s : State) :
    KeepsR [.events, .regs, .seq] s (execSpindleDemandSet via s) := by
  unfold execSpindleDemandSet
  split
  · refine KeepsR.next ?_
    refine Keeps.step (State.setDemand_keeps ..) rfl ?_
    exact Keeps.refl _ _
  · refine State.spIns_keeps ?_ ?_ ?_
    · exact rfl
    · intro y1 y2 y3
      refine Keeps.step (State.setDemand_keeps ..) rfl ?_
      assumption
    · exact Keeps.refl _ _

theorem execSpStat_keeps (b : Fin 24) (u : Upset) (s : State) :
    KeepsR [.events, .regs, .seq] s (execSpStat b u s) := by
  unfold execSpStat
  refine State.issue_keeps ?_ ?_ ?_
  · exact rfl
  · intro y1 y2 y3
    refine State.famChecks_keeps ?_
    refine KeepsE.ok ?_
    refine Keeps.step (State.setG_keeps ..) rfl ?_
    assumption
  · exact Keeps.refl _ _

theorem execLpStat_keeps (b : Fin 24) (u : Upset) (s : State) :
    KeepsR [.events, .regs, .seq] s (execLpStat b u s) := by
  unfold execLpStat
  refine State.issue_keeps ?_ ?_ ?_
  · exact rfl
  · intro y1 y2 y3
    refine State.slotChecks_keeps ?_ ?_ ?_
    · exact rfl
    · intro y4
      refine KeepsE.ok ?_
      refine Keeps.step (State.setG_keeps ..) rfl ?_
      assumption
    · assumption
  · exact Keeps.refl _ _

theorem execDcStat_keeps (b : Fin 24) (u : Upset) (s : State) :
    KeepsR [.events, .regs, .seq] s (execDcStat b u s) := by
  unfold execDcStat
  refine State.issue_keeps ?_ ?_ ?_
  · exact rfl
  · intro y1 y2 y3
    refine State.famChecks_keeps ?_
    refine KeepsE.ok ?_
    refine Keeps.step (State.setG_keeps ..) rfl ?_
    assumption
  · exact Keeps.refl _ _

theorem execDcSubmit_keeps (b : Fin 24) (u : Upset) (s : State) :
    KeepsR [.events, .regs, .decode, .seq] s (execDcSubmit b u s) := by
  unfold execDcSubmit
  refine State.issue_keeps ?_ ?_ ?_
  · exact rfl
  · intro y1 y2 y3
    refine State.famChecks_keeps ?_
    split
    · exact KeepsE.error
    · refine KeepsE.bind (fun _ => ?_)
      refine State.async_keeps ?_ ?_ ?_
      · exact rfl
      · intro y4 y5 y6
        refine Keeps.decodeTo rfl ?_
        assumption
      · assumption
  · exact Keeps.refl _ _

theorem execEvLog_keeps (b : Fin 24) (u : Upset) (s : State) :
    KeepsR [.events, .regs, .seq] s (execEvLog b u s) := by
  unfold execEvLog
  refine State.issue_keeps ?_ ?_ ?_
  · exact rfl
  · intro y1 y2 y3
    refine State.famChecks_keeps ?_
    extract_lets +onlyGivenNames z4
    split
    · exact KeepsE.error
    · extract_lets +onlyGivenNames z5
      extract_lets +onlyGivenNames z6
      refine KeepsE.ok ?_
      refine Keeps.step (State.log_keeps ..) rfl ?_
      assumption
  · exact Keeps.refl _ _

end Sys2Proof.Machine
end

