-- ==== Sys2Proof/Laws/KeepsObkinMem.lean ====
section
/-!
SUPPORT. Laws/KeepsObkinMem.lean: which parts of a state each operation of Machine/ObkinMem.lean may change, and that it keeps a sound
state sound.
-/

namespace Sys2Proof.Machine

theorem State.loaded_keeps (s : State) (b : Fin 24) (p : Space) (rd : ℕ) (v : ℕ) :
    Keeps [.seq] s (State.loaded s b p rd v) := by
  unfold State.loaded
  extract_lets +onlyGivenNames z1
  refine Keeps.cut (x := z1) ?_ (fun h2 => ?_)
  · unfold z1
    refine Keeps.step (State.setG_keeps ..) rfl ?_
    exact Keeps.refl _ _
  clear_value z1
  split
  · assumption
  · refine Keeps.step (State.modBob_keeps ..) rfl ?_
    assumption

theorem State.loadAt_keeps (s : State) (b : Fin 24) (u : Upset) (i : Ins) (n : ℕ) (signed : Bool) (p : Space) :
    KeepsE [.seq] s (State.loadAt s b u i n signed p) := by
  unfold State.loadAt
  split
  · exact KeepsE.error
  · refine KeepsE.ok ?_
    refine Keeps.step (State.loaded_keeps ..) rfl ?_
    exact Keeps.refl _ _

theorem State.loadIns_keeps (s : State) (b : Fin 24) (u : Upset) (op : ℕ) (n : ℕ) (signed : Bool) :
    KeepsR [.events, .regs, .seq] s (State.loadIns s b u op n signed) := by
  unfold State.loadIns
  refine State.issue_keeps ?_ ?_ ?_
  · exact rfl
  · intro y1 y2 y3
    refine KeepsE.bind (fun _ => ?_)
    refine KeepsE.step (State.loadAt_keeps _ _ _ _ _ _ _) rfl ?_
    assumption
  · exact Keeps.refl _ _

theorem State.storeIns_keeps (s : State) (b : Fin 24) (u : Upset) (op : ℕ) (n : ℕ) :
    KeepsR [.events, .regs, .seq] s (State.storeIns s b u op n) := by
  unfold State.storeIns
  refine State.issue_keeps ?_ ?_ ?_
  · exact rfl
  · intro y1 y2 y3
    refine KeepsE.bind (fun _ => ?_)
    refine KeepsE.ok ?_
    refine Keeps.step (State.spaceWrite_keeps ..) rfl ?_
    assumption
  · exact Keeps.refl _ _

theorem execLdb_keeps (b : Fin 24) (u : Upset) (s : State) :
    KeepsR [.events, .regs, .seq] s (execLdb b u s) := by
  unfold execLdb
  refine KeepsR.step (State.loadIns_keeps _ _ _ _ _ _) rfl ?_
  exact Keeps.refl _ _

theorem execLdh_keeps (b : Fin 24) (u : Upset) (s : State) :
    KeepsR [.events, .regs, .seq] s (execLdh b u s) := by
  unfold execLdh
  refine KeepsR.step (State.loadIns_keeps _ _ _ _ _ _) rfl ?_
  exact Keeps.refl _ _

theorem execLdd_keeps (b : Fin 24) (u : Upset) (s : State) :
    KeepsR [.events, .regs, .seq] s (execLdd b u s) := by
  unfold execLdd
  refine KeepsR.step (State.loadIns_keeps _ _ _ _ _ _) rfl ?_
  exact Keeps.refl _ _

theorem execLdbs_keeps (b : Fin 24) (u : Upset) (s : State) :
    KeepsR [.events, .regs, .seq] s (execLdbs b u s) := by
  unfold execLdbs
  refine KeepsR.step (State.loadIns_keeps _ _ _ _ _ _) rfl ?_
  exact Keeps.refl _ _

theorem execLdhs_keeps (b : Fin 24) (u : Upset) (s : State) :
    KeepsR [.events, .regs, .seq] s (execLdhs b u s) := by
  unfold execLdhs
  refine KeepsR.step (State.loadIns_keeps _ _ _ _ _ _) rfl ?_
  exact Keeps.refl _ _

theorem execStb_keeps (b : Fin 24) (u : Upset) (s : State) :
    KeepsR [.events, .regs, .seq] s (execStb b u s) := by
  unfold execStb
  refine KeepsR.step (State.storeIns_keeps _ _ _ _ _) rfl ?_
  exact Keeps.refl _ _

theorem execSth_keeps (b : Fin 24) (u : Upset) (s : State) :
    KeepsR [.events, .regs, .seq] s (execSth b u s) := by
  unfold execSth
  refine KeepsR.step (State.storeIns_keeps _ _ _ _ _) rfl ?_
  exact Keeps.refl _ _

theorem execStd_keeps (b : Fin 24) (u : Upset) (s : State) :
    KeepsR [.events, .regs, .seq] s (execStd b u s) := by
  unfold execStd
  refine KeepsR.step (State.storeIns_keeps _ _ _ _ _) rfl ?_
  exact Keeps.refl _ _

theorem execAmo_keeps (b : Fin 24) (u : Upset) (s : State) :
    KeepsR [.events, .regs, .seq] s (execAmo b u s) := by
  unfold execAmo
  refine State.issue_keeps ?_ ?_ ?_
  · exact rfl
  · intro y1 y2 y3
    refine KeepsE.bind (fun _ => ?_)
    split
    · split
      · exact KeepsE.error
      · extract_lets +onlyGivenNames z4
        extract_lets +onlyGivenNames z5
        refine KeepsE.ok ?_
        refine Keeps.step (State.loaded_keeps ..) rfl ?_
        refine Keeps.step (State.spaceWrite_keeps ..) rfl ?_
        assumption
    · exact KeepsE.error
  · exact Keeps.refl _ _

end Sys2Proof.Machine
end

