-- ==== Sys2Proof/Laws/KeepsPower.lean ====
section
/-!
SUPPORT. Laws/KeepsPower.lean: which parts of a state each operation of Machine/Power.lean may change, and that it keeps a sound
state sound.
-/

namespace Sys2Proof.Machine

theorem State.setPhase_keeps (s : State) (d : Fin 19) (p : DomainPhase) :
    Keeps [.domains] s (State.setPhase s d p) := by
  unfold State.setPhase
  refine Keeps.domainsTo rfl ?_
  exact Keeps.refl _ _

theorem State.markFailed_keeps (s : State) (d : ℕ) :
    Keeps [.regs] s (State.markFailed s d) := by
  unfold State.markFailed
  refine Keeps.step (State.setFld_keeps ..) rfl ?_
  exact Keeps.refl _ _

theorem State.setOn_keeps (s : State) (d : ℕ) (on : Bool) :
    Keeps [.regs] s (State.setOn s d on) := by
  unfold State.setOn
  extract_lets +onlyGivenNames z1
  refine Keeps.step (State.setFld_keeps ..) rfl ?_
  exact Keeps.refl _ _

theorem State.failDomain_keeps (s : State) (d : Fin 19) :
    Keeps [.events, .regs, .domains] s (State.failDomain s d) := by
  unfold State.failDomain
  split
  · refine Keeps.step (State.logAt_keeps ..) rfl ?_
    refine Keeps.step (State.markFailed_keeps ..) rfl ?_
    refine Keeps.step (State.setPhase_keeps ..) rfl ?_
    exact Keeps.refl _ _
  · split
    · refine Keeps.domainsTo rfl ?_
      exact Keeps.refl _ _
    · refine Keeps.step (State.logAt_keeps ..) rfl ?_
      refine Keeps.step (State.markFailed_keeps ..) rfl ?_
      refine Keeps.step (State.setPhase_keeps ..) rfl ?_
      exact Keeps.refl _ _

theorem State.tryClose_keeps (s : State) (d : Fin 19) :
    Keeps [.events, .regs, .domains] s (State.tryClose s d) := by
  unfold State.tryClose
  split
  · refine Keeps.step (State.failDomain_keeps ..) rfl ?_
    exact Keeps.refl _ _
  · split
    · refine Keeps.step (State.setPhase_keeps ..) rfl ?_
      exact Keeps.refl _ _
    · exact Keeps.refl _ _

theorem execDomainPowerUp_keeps (dom : Fin 19) (levels : Fin 16) (s : State) :
    KeepsR [.events, .regs, .domains] s (execDomainPowerUp dom levels s) := by
  unfold execDomainPowerUp
  split
  · refine KeepsR.when ?_ ?_
    · exact Keeps.refl _ _
    · refine Keeps.step (State.tryClose_keeps ..) rfl ?_
      refine Keeps.step (State.setFld_keeps ..) rfl ?_
      exact Keeps.refl _ _
  · refine KeepsR.next ?_
    exact Keeps.refl _ _

theorem State.resetHeadRegs_keeps (s : State) (n : ℕ) :
    Keeps [.regs] s (State.resetHeadRegs s n) := by
  unfold State.resetHeadRegs
  extract_lets +onlyGivenNames z1
  extract_lets +onlyGivenNames z2
  extract_lets +onlyGivenNames z3
  refine Keeps.cut (x := z3) ?_ (fun h4 => ?_)
  · unfold z3
    refine Keeps.regsTo rfl ?_ ?_
    · exact fun h => storeWf_filter _ h
    · exact Keeps.refl _ _
  clear_value z3
  refine Keeps.step (State.setFld_keeps ..) rfl ?_
  assumption

theorem State.domainUp_keeps (s : State) (d : Fin 19) :
    Keeps [.regs, .domains, .heads] s (State.domainUp s d) := by
  unfold State.domainUp
  extract_lets +onlyGivenNames z1
  refine Keeps.cut (x := z1) ?_ (fun h2 => ?_)
  · unfold z1
    refine Keeps.step (State.setOn_keeps ..) rfl ?_
    refine Keeps.step (State.setPhase_keeps ..) rfl ?_
    exact Keeps.refl _ _
  clear_value z1
  split
  · extract_lets +onlyGivenNames z3
    refine Keeps.cut (x := z3) ?_ (fun h4 => ?_)
    · unfold z3
      refine Keeps.headsTo rfl ?_
      assumption
    clear_value z3
    extract_lets +onlyGivenNames z5
    refine Keeps.cut (x := z5) ?_ (fun h6 => ?_)
    · unfold z5
      refine Keeps.step (State.resetHeadRegs_keeps ..) rfl ?_
      assumption
    clear_value z5
    split
    · refine Keeps.step (State.setFld_keeps ..) rfl ?_
      assumption
    · assumption
  · split
    · refine Keeps.step (State.startSweep_keeps ..) rfl ?_
      assumption
    · assumption

theorem execDomainPowerCheck_keeps (dom : Fin 19) (good : Bool) (s : State) :
    KeepsR [.events, .regs, .domains, .heads] s (execDomainPowerCheck dom good s) := by
  unfold execDomainPowerCheck
  split
  · split
    · refine KeepsR.when ?_ ?_
      · exact Keeps.refl _ _
      · refine Keeps.step (State.domainUp_keeps ..) rfl ?_
        exact Keeps.refl _ _
    · refine KeepsR.when ?_ ?_
      · exact Keeps.refl _ _
      · refine Keeps.step (State.failDomain_keeps ..) rfl ?_
        exact Keeps.refl _ _
  · refine KeepsR.next ?_
    exact Keeps.refl _ _

theorem execSupplyGroupWaitTimeout_keeps (group : Fin 3) (s : State) :
    KeepsR [.events, .regs, .domains, .boot] s (execSupplyGroupWaitTimeout group s) := by
  unfold execSupplyGroupWaitTimeout
  refine KeepsR.when ?_ ?_
  · exact Keeps.refl _ _
  · extract_lets +onlyGivenNames z1
    extract_lets +onlyGivenNames z3
    refine Keeps.cut (x := z3) ?_ (fun h4 => ?_)
    · unfold z3
      refine Keeps.bootTo rfl ?_
      exact Keeps.refl _ _
    clear_value z3
    refine Keeps.foldl ?_ (fun _ _ _ => ?_)
    · assumption
    · refine Keeps.step (State.failDomain_keeps ..) rfl ?_
      assumption

theorem execDomainPowerRetry_keeps (dom : Fin 19) (s : State) :
    KeepsR [.events, .regs, .domains] s (execDomainPowerRetry dom s) := by
  unfold execDomainPowerRetry
  split
  · refine KeepsR.when ?_ ?_
    · exact Keeps.refl _ _
    · refine Keeps.step (State.tryClose_keeps ..) rfl ?_
      refine Keeps.step (State.setPhase_keeps ..) rfl ?_
      exact Keeps.refl _ _
  · refine KeepsR.next ?_
    exact Keeps.refl _ _

theorem State.headGone_keeps (s : State) (n : Fin 16) :
    Keeps [.events, .regs, .heads, .decode, .loop, .seq, .mem, .motion, .out] s (State.headGone s n) := by
  unfold State.headGone
  extract_lets +onlyGivenNames z1
  refine Keeps.cut (x := z1) ?_ (fun h2 => ?_)
  · unfold z1
    refine Keeps.step (State.modHead_keeps ..) rfl ?_
    exact Keeps.refl _ _
  clear_value z1
  extract_lets +onlyGivenNames z3
  extract_lets +onlyGivenNames z5
  refine Keeps.cut (x := z5) ?_ (fun h6 => ?_)
  · unfold z5
    split
    · extract_lets +onlyGivenNames z7
      refine Keeps.cut (x := z7) ?_ (fun h8 => ?_)
      · unfold z7
        refine Keeps.foldl ?_ (fun _ _ _ => ?_)
        · assumption
        · refine Keeps.step (State.completeHead_keeps ..) rfl ?_
          assumption
      clear_value z7
      extract_lets +onlyGivenNames z9
      refine Keeps.cut (x := z9) ?_ (fun h10 => ?_)
      · unfold z9
        refine Keeps.step (State.dropFromQueues_keeps ..) rfl ?_
        assumption
      clear_value z9
      extract_lets +onlyGivenNames z11
      refine Keeps.cut (x := z11) ?_ (fun h12 => ?_)
      · unfold z11
        refine Keeps.step (State.modDec_keeps ..) rfl ?_
        assumption
      clear_value z11
      refine Keeps.step (State.endClaim_keeps ..) rfl ?_
      assumption
    · exact Keeps.refl _ _
  clear_value z5
  extract_lets +onlyGivenNames z13
  refine Keeps.cut (x := z13) ?_ (fun h14 => ?_)
  · unfold z13
    refine Keeps.step (State.endHeadWork_keeps ..) rfl ?_
    refine Keeps.step (State.linkDown_keeps ..) rfl ?_
    assumption
  clear_value z13
  extract_lets +onlyGivenNames z15
  refine Keeps.cut (x := z15) ?_ (fun h16 => ?_)
  · unfold z15
    refine Keeps.step (State.disableHeadSlots_keeps ..) rfl ?_
    assumption
  clear_value z15
  extract_lets +onlyGivenNames z17
  refine Keeps.cut (x := z17) ?_ (fun h18 => ?_)
  · unfold z17
    refine Keeps.step (State.requestHalt_keeps ..) rfl ?_
    assumption
  clear_value z17
  extract_lets +onlyGivenNames z19
  extract_lets +onlyGivenNames z20
  refine Keeps.cut (x := z20) ?_ (fun h21 => ?_)
  · unfold z20
    refine Keeps.step (State.setFld_keeps ..) rfl ?_
    assumption
  clear_value z20
  refine Keeps.headsTo rfl ?_
  assumption

theorem State.islandGone_keeps (s : State) (d : ℕ) :
    Keeps [.regs, .msix, .decode, .mem, .host] s (State.islandGone s d) := by
  unfold State.islandGone
  extract_lets +onlyGivenNames z1
  split
  · unfold z1
    refine Keeps.regsTo rfl ?_ ?_
    · exact fun h => storeWf_filter _ h
    · refine Keeps.decodeTo rfl ?_
      exact Keeps.refl _ _
  · split
    · unfold z1
      refine Keeps.regsTo rfl ?_ ?_
      · exact fun h => storeWf_filter _ h
      · refine Keeps.memTo rfl ?_ ?_
        · exact fun _ => rfl
        · exact Keeps.refl _ _
    · unfold z1
      refine Keeps.regsTo rfl ?_ ?_
      · exact fun h => storeWf_filter _ h
      · refine Keeps.regsTo rfl ?_ ?_
        · exact fun h => storeWf_filter _ h
        · refine Keeps.many (x := s) [.msix, .host] rfl (by intro p hp; cases p <;> first | exact absurd hp (by decide) | rfl) id id id (Nat.le_refl _) ?_
          exact Keeps.refl _ _

theorem State.loseDomain_keeps (s : State) (d : Fin 19) :
    Keeps [.events, .regs, .msix, .domains, .heads, .decode, .loop, .seq, .mem, .motion, .host, .out] s (State.loseDomain s d) := by
  unfold State.loseDomain
  extract_lets +onlyGivenNames z1
  refine Keeps.cut (x := z1) ?_ (fun h2 => ?_)
  · unfold z1
    split
    · refine Keeps.step (State.headGone_keeps ..) rfl ?_
      exact Keeps.refl _ _
    · refine Keeps.step (State.islandGone_keeps ..) rfl ?_
      exact Keeps.refl _ _
  clear_value z1
  refine Keeps.step (State.markFailed_keeps ..) rfl ?_
  refine Keeps.step (State.setOn_keeps ..) rfl ?_
  refine Keeps.step (State.setPhase_keeps ..) rfl ?_
  assumption

theorem execSupplyGroupLost_keeps (group : Fin 3) (s : State) :
    KeepsR [.events, .regs, .msix, .domains, .boot, .heads, .decode, .loop, .seq, .mem, .motion, .host, .out] s (execSupplyGroupLost group s) := by
  unfold execSupplyGroupLost
  extract_lets +onlyGivenNames z1
  extract_lets +onlyGivenNames z2
  refine KeepsR.when ?_ ?_
  · exact Keeps.refl _ _
  · extract_lets +onlyGivenNames z3
    refine Keeps.cut (x := z3) ?_ (fun h4 => ?_)
    · unfold z3
      refine Keeps.step (State.setFld_keeps ..) rfl ?_
      exact Keeps.refl _ _
    clear_value z3
    extract_lets +onlyGivenNames z5
    refine Keeps.cut (x := z5) ?_ (fun h6 => ?_)
    · unfold z5
      refine Keeps.step (State.setFld_keeps ..) rfl ?_
      assumption
    clear_value z5
    extract_lets +onlyGivenNames z7
    refine Keeps.cut (x := z7) ?_ (fun h8 => ?_)
    · unfold z7
      refine Keeps.step (State.setFld_keeps ..) rfl ?_
      assumption
    clear_value z7
    extract_lets +onlyGivenNames z9
    extract_lets +onlyGivenNames z11
    refine Keeps.cut (x := z11) ?_ (fun h12 => ?_)
    · unfold z11
      refine Keeps.bootTo rfl ?_
      assumption
    clear_value z11
    extract_lets +onlyGivenNames z13
    refine Keeps.cut (x := z13) ?_ (fun h14 => ?_)
    · unfold z13
      refine Keeps.foldl ?_ (fun _ _ _ => ?_)
      · assumption
      · refine Keeps.step (State.updateLen_keeps ..) rfl ?_
        assumption
    clear_value z13
    extract_lets +onlyGivenNames z15
    refine Keeps.cut (x := z15) ?_ (fun h16 => ?_)
    · unfold z15
      refine Keeps.foldl ?_ (fun _ _ _ => ?_)
      · assumption
      · refine Keeps.step (State.loseDomain_keeps ..) rfl ?_
        assumption
    clear_value z15
    refine Keeps.step (State.logAt_keeps ..) rfl ?_
    assumption

theorem execHeadIsolate_keeps (n : Fin 16) (s : State) :
    KeepsR [.events, .regs, .domains, .heads, .decode, .loop, .seq, .mem, .motion, .host, .out] s (execHeadIsolate n s) := by
  unfold execHeadIsolate
  refine KeepsR.next ?_
  refine Keeps.step (State.finishResets_keeps ..) rfl ?_
  refine Keeps.step (State.leaveService_keeps ..) rfl ?_
  exact Keeps.refl _ _

theorem execHeadDomainPowerLost_keeps (n : Fin 16) (s : State) :
    KeepsR [.events, .regs, .domains, .heads, .decode, .loop, .seq, .mem, .motion, .host, .out] s (execHeadDomainPowerLost n s) := by
  unfold execHeadDomainPowerLost
  refine KeepsR.when ?_ ?_
  · exact Keeps.refl _ _
  · extract_lets +onlyGivenNames z1
    refine Keeps.cut (x := z1) ?_ (fun h2 => ?_)
    · unfold z1
      refine Keeps.step (State.logAt_keeps ..) rfl ?_
      refine Keeps.step (State.markFailed_keeps ..) rfl ?_
      exact Keeps.refl _ _
    clear_value z1
    extract_lets +onlyGivenNames z3
    extract_lets +onlyGivenNames z4
    refine Keeps.cut (x := z4) ?_ (fun h5 => ?_)
    · unfold z4
      refine Keeps.step (State.leaveService_keeps ..) rfl ?_
      assumption
    clear_value z4
    extract_lets +onlyGivenNames z6
    refine Keeps.cut (x := z6) ?_ (fun h7 => ?_)
    · unfold z6
      split
      · refine Keeps.step (State.withdrawPass_keeps ..) rfl ?_
        assumption
      · assumption
    clear_value z6
    refine Keeps.step (State.finishResets_keeps ..) rfl ?_
    assumption

theorem execHeadIsolationDeadline_keeps (n : Fin 16) (s : State) :
    KeepsR [.events, .regs, .domains, .heads, .decode, .seq, .mem, .motion, .host, .out] s (execHeadIsolationDeadline n s) := by
  unfold execHeadIsolationDeadline
  split
  · extract_lets +onlyGivenNames z1
    refine KeepsR.when ?_ ?_
    · exact Keeps.refl _ _
    · split
      · extract_lets +onlyGivenNames z2
        refine Keeps.cut (x := z2) ?_ (fun h3 => ?_)
        · unfold z2
          split
          · exact Keeps.refl _ _
          · refine Keeps.step (State.withdrawPass_keeps ..) rfl ?_
            exact Keeps.refl _ _
        clear_value z2
        extract_lets +onlyGivenNames z4
        refine Keeps.cut (x := z4) ?_ (fun h5 => ?_)
        · unfold z4
          refine Keeps.step (State.modDec_keeps ..) rfl ?_
          assumption
        clear_value z4
        extract_lets +onlyGivenNames z6
        refine Keeps.step (State.finishResets_keeps ..) rfl ?_
        refine Keeps.step (State.closePass_keeps ..) rfl ?_
        assumption
      · exact Keeps.refl _ _
  · refine KeepsR.next ?_
    refine Keeps.step (State.finishLeaving_keeps ..) rfl ?_
    exact Keeps.refl _ _
  · refine KeepsR.next ?_
    exact Keeps.refl _ _

theorem execHeadPower_keeps (n : Fin 16) (s : State) :
    KeepsR [.events, .domains] s (execHeadPower n s) := by
  unfold execHeadPower
  refine KeepsR.next ?_
  split
  · refine Keeps.step (State.logAt_keeps ..) rfl ?_
    refine Keeps.step (State.setPhase_keeps ..) rfl ?_
    exact Keeps.refl _ _
  · refine Keeps.step (State.logAt_keeps ..) rfl ?_
    exact Keeps.refl _ _

theorem execEvRptrWrite_keeps (val : Word) (s : State) :
    KeepsR [.regs, .msix, .out] s (execEvRptrWrite val s) := by
  unfold execEvRptrWrite
  refine KeepsR.next ?_
  refine Keeps.step (State.attention_keeps ..) rfl ?_
  refine Keeps.step (State.setReg_keeps ..) rfl ?_
  exact Keeps.refl _ _

theorem execEvAttnWrite_keeps (val : Word) (s : State) :
    KeepsR [.regs, .msix, .out] s (execEvAttnWrite val s) := by
  unfold execEvAttnWrite
  refine KeepsR.next ?_
  refine Keeps.step (State.attention_keeps ..) rfl ?_
  refine Keeps.step (State.setReg_keeps ..) rfl ?_
  exact Keeps.refl _ _

theorem execAttnClear_keeps (s : State) :
    KeepsR [.regs, .msix, .out] s (execAttnClear s) := by
  unfold execAttnClear
  refine KeepsR.next ?_
  refine Keeps.step (State.attention_keeps ..) rfl ?_
  refine Keeps.step (State.setFld_keeps ..) rfl ?_
  exact Keeps.refl _ _

end Sys2Proof.Machine
end

