-- ==== Sys2Proof/Laws/KeepsTimeBase.lean ====
section
/-!
SUPPORT. Laws/KeepsTimeBase.lean: which parts of a state each operation of Machine/TimeBase.lean may change, and that it keeps a sound
state sound.
-/

namespace Sys2Proof.Machine

theorem execPllLock_keeps (s : State) :
    KeepsR [.time, .regs, .domains, .boot] s (execPllLock s) := by
  unfold execPllLock
  refine KeepsR.when ?_ ?_
  · exact Keeps.refl _ _
  · extract_lets +onlyGivenNames z1
    extract_lets +onlyGivenNames z3
    refine Keeps.cut (x := z3) ?_ (fun h4 => ?_)
    · unfold z3
      refine Keeps.timeTo rfl ?_ ?_
      · exact fun _ => (by decide : 0 < stampModulus)
      · exact Keeps.refl _ _
    clear_value z3
    extract_lets +onlyGivenNames z5
    extract_lets +onlyGivenNames z7
    refine Keeps.cut (x := z7) ?_ (fun h8 => ?_)
    · unfold z7
      refine Keeps.many (x := z3) [.domains, .boot] rfl (by intro p hp; cases p <;> first | exact absurd hp (by decide) | rfl) id id id (Nat.le_refl _) ?_
      assumption
    clear_value z7
    refine Keeps.step (State.setFld_keeps ..) rfl ?_
    refine Keeps.step (State.setFld_keeps ..) rfl ?_
    assumption

theorem State.tick_keeps (s : State) :
    Keeps [.time, .regs] s s.tick := by
  unfold State.tick
  split
  · refine Keeps.step (State.publishC_keeps ..) rfl ?_
    exact Keeps.timeTo rfl (fun _ => Nat.mod_lt _ (by decide)) (Keeps.refl _ _)
  · exact Keeps.refl _ _

theorem execHoldoverEntry_keeps (s : State) :
    KeepsR [.time, .events, .regs] s (execHoldoverEntry s) := by
  unfold execHoldoverEntry
  refine KeepsR.when ?_ ?_
  · exact Keeps.refl _ _
  · split
    · refine Keeps.step (State.setFld_keeps ..) rfl ?_
      refine Keeps.timeTo rfl ?_ ?_
      · with_reducible exact id
      · exact Keeps.refl _ _
    · extract_lets +onlyGivenNames z1
      extract_lets +onlyGivenNames z3
      refine Keeps.cut (x := z3) ?_ (fun h4 => ?_)
      · unfold z3
        refine Keeps.timeTo rfl ?_ ?_
        · with_reducible exact id
        · exact Keeps.refl _ _
      clear_value z3
      extract_lets +onlyGivenNames z5
      refine Keeps.cut (x := z5) ?_ (fun h6 => ?_)
      · unfold z5
        refine Keeps.step (State.setFld_keeps ..) rfl ?_
        assumption
      clear_value z5
      extract_lets +onlyGivenNames z7
      refine Keeps.cut (x := z7) ?_ (fun h8 => ?_)
      · unfold z7
        refine Keeps.step (State.setFld_keeps ..) rfl ?_
        assumption
      clear_value z7
      extract_lets +onlyGivenNames z9
      refine Keeps.cut (x := z9) ?_ (fun h10 => ?_)
      · unfold z9
        refine Keeps.step (State.setFld_keeps ..) rfl ?_
        assumption
      clear_value z9
      extract_lets +onlyGivenNames z11
      refine Keeps.cut (x := z11) ?_ (fun h12 => ?_)
      · unfold z11
        refine Keeps.step (State.setFld_keeps ..) rfl ?_
        assumption
      clear_value z11
      refine Keeps.step (State.logAt_keeps ..) rfl ?_
      assumption

theorem execPllRelock_keeps (s : State) :
    KeepsR [.time, .events, .regs] s (execPllRelock s) := by
  unfold execPllRelock
  split
  · refine KeepsR.next ?_
    refine Keeps.step (State.setFld_keeps ..) rfl ?_
    refine Keeps.timeTo rfl ?_ ?_
    · with_reducible exact id
    · exact Keeps.refl _ _
  · refine KeepsR.when ?_ ?_
    · exact Keeps.refl _ _
    · extract_lets +onlyGivenNames z1
      extract_lets +onlyGivenNames z3
      refine Keeps.cut (x := z3) ?_ (fun h4 => ?_)
      · unfold z3
        refine Keeps.timeTo rfl ?_ ?_
        · with_reducible exact id
        · exact Keeps.refl _ _
      clear_value z3
      extract_lets +onlyGivenNames z5
      refine Keeps.cut (x := z5) ?_ (fun h6 => ?_)
      · unfold z5
        refine Keeps.step (State.setFld_keeps ..) rfl ?_
        assumption
      clear_value z5
      extract_lets +onlyGivenNames z7
      refine Keeps.cut (x := z7) ?_ (fun h8 => ?_)
      · unfold z7
        refine Keeps.step (State.setFld_keeps ..) rfl ?_
        assumption
      clear_value z7
      extract_lets +onlyGivenNames z9
      refine Keeps.cut (x := z9) ?_ (fun h10 => ?_)
      · unfold z9
        refine Keeps.step (State.setFld_keeps ..) rfl ?_
        assumption
      clear_value z9
      refine Keeps.step (State.logAt_keeps ..) rfl ?_
      assumption
  · refine KeepsR.next ?_
    exact Keeps.refl _ _

theorem execEventsLostRecord_keeps (src : ℕ) (s : State) :
    KeepsR [.events] s (execEventsLostRecord src s) := by
  unfold execEventsLostRecord
  extract_lets +onlyGivenNames z1
  refine KeepsR.when ?_ ?_
  · exact Keeps.refl _ _
  · refine Keeps.step (State.setXing_keeps ..) rfl ?_
    exact Keeps.refl _ _

theorem execEventMergerArrival_keeps (src : ℕ) (s : State) :
    KeepsR [.events, .regs, .msix, .out] s (execEventMergerArrival src s) := by
  unfold execEventMergerArrival
  split
  · refine KeepsR.next ?_
    exact Keeps.refl _ _
  · extract_lets +onlyGivenNames z1
    extract_lets +onlyGivenNames z3
    refine KeepsR.cut (x := z3) ?_ (fun h4 => ?_)
    · unfold z3
      refine Keeps.step (State.setXing_keeps ..) rfl ?_
      exact Keeps.refl _ _
    clear_value z3
    split
    · refine KeepsR.next ?_
      refine Keeps.step (State.publishC_keeps ..) rfl ?_
      refine Keeps.step (State.writeRing_keeps ..) rfl ?_
      assumption
    · refine KeepsR.next ?_
      refine Keeps.step (State.publishC_keeps ..) rfl ?_
      refine Keeps.eventsTo rfl ?_
      assumption

theorem execEventMergerRelease_keeps (s : State) :
    KeepsR [.events, .regs, .msix, .out] s (execEventMergerRelease s) := by
  unfold execEventMergerRelease
  extract_lets +onlyGivenNames z1
  refine KeepsR.when ?_ ?_
  · exact Keeps.refl _ _
  · extract_lets +onlyGivenNames z2
    extract_lets +onlyGivenNames z3
    extract_lets +onlyGivenNames z5
    refine Keeps.cut (x := z5) ?_ (fun h6 => ?_)
    · unfold z5
      refine Keeps.eventsTo rfl ?_
      exact Keeps.refl _ _
    clear_value z5
    refine Keeps.step (State.publishC_keeps ..) rfl ?_
    refine Keeps.foldl ?_ (fun _ _ _ => ?_)
    · assumption
    · refine Keeps.step (State.writeRing_keeps ..) rfl ?_
      assumption

theorem State.setVector_keeps (s : State) (fn : Fin 2) (v : ℕ) (e : MsixEntry) :
    Keeps [.msix, .out] s (State.setVector s fn v e) := by
  unfold State.setVector
  extract_lets +onlyGivenNames z1
  extract_lets +onlyGivenNames z2
  extract_lets +onlyGivenNames z3
  extract_lets +onlyGivenNames z4
  extract_lets +onlyGivenNames z5
  refine Keeps.cut (x := z5) ?_ (fun h6 => ?_)
  · unfold z5
    refine Keeps.msixTo rfl ?_
    exact Keeps.refl _ _
  clear_value z5
  split
  · refine Keeps.outTo rfl ?_
    assumption
  · assumption

theorem execMsixVectorUnmask_keeps (fn : Fin 2) (vec : Fin 288) (s : State) :
    KeepsR [.msix, .out] s (execMsixVectorUnmask fn vec s) := by
  unfold execMsixVectorUnmask
  refine KeepsR.next ?_
  refine Keeps.step (State.setVector_keeps ..) rfl ?_
  exact Keeps.refl _ _

theorem State.bar2Write_keeps (s : State) (fn : Fin 2) (o : ℕ) (v : ℕ) :
    Keeps [.msix, .out] s (State.bar2Write s fn o v) := by
  unfold State.bar2Write
  extract_lets +onlyGivenNames z1
  split
  · refine Keeps.step (State.setVector_keeps ..) rfl ?_
    exact Keeps.refl _ _
  · exact Keeps.refl _ _

end Sys2Proof.Machine
end

