-- ==== Sys2Proof/Laws/KeepsRegAccess.lean ====
section
/-!
SUPPORT. Laws/KeepsRegAccess.lean: which parts of a state each operation of Machine/RegAccess.lean may change, and that it keeps a sound
state sound.
-/

namespace Sys2Proof.Machine

theorem State.logOutOfService_keeps (s : State) (acc : Accessor) (off : ℕ) (write : Bool) :
    Keeps [.events] s (State.logOutOfService s acc off write) := by
  unfold State.logOutOfService
  refine Keeps.step (State.logHost_keeps ..) rfl ?_
  exact Keeps.refl _ _

theorem State.regRead_keeps (s : State) (acc : Accessor) (off : ℕ) :
    Keeps [.events, .latches] s (State.regRead s acc off).2 := by
  unfold State.regRead
  split
  · refine Keeps.ofMk ?_
    exact Keeps.refl _ _
  · split
    · refine Keeps.ofMk ?_
      refine Keeps.step (State.logOutOfService_keeps ..) rfl ?_
      exact Keeps.refl _ _
    · split
      · refine Keeps.ofMk ?_
        exact Keeps.refl _ _
      · split
        · refine Keeps.ofMk ?_
          exact Keeps.refl _ _
        · split
          · extract_lets +onlyGivenNames z1
            refine Keeps.ofMk ?_
            refine Keeps.latchesTo rfl ?_
            exact Keeps.refl _ _
          · extract_lets +onlyGivenNames z2
            refine Keeps.ofMk ?_
            refine Keeps.latchesTo rfl ?_
            exact Keeps.refl _ _
          · refine Keeps.ofMk ?_
            exact Keeps.refl _ _
          · refine Keeps.ofMk ?_
            exact Keeps.refl _ _
          · refine Keeps.ofMk ?_
            exact Keeps.refl _ _

theorem Result.settle_keeps {P : List Part} {s0 s : State} {r : Result} (h : KeepsR P s0 r) (k : Keeps P s0 s) :
    Keeps P s0 (r.settle s) := by
  unfold Result.settle
  split
  · exact h _ rfl
  · exact k
  · exact k

theorem State.writeCc_keeps (s : State) (fn : Fin 2) (w : Word) :
    Keeps [.events, .regs, .heads, .decode, .seq, .mem, .motion, .host, .sec, .out] s (State.writeCc s fn w) := by
  unfold State.writeCc
  extract_lets +onlyGivenNames z1
  extract_lets +onlyGivenNames z2
  extract_lets +onlyGivenNames z3
  split
  · refine Result.settle_keeps ?_ ?_
    · refine KeepsR.step (execControllerEnable_keeps _ _ _) rfl ?_
      exact Keeps.refl _ _
    · exact Keeps.refl _ _
  · refine Result.settle_keeps ?_ ?_
    · refine KeepsR.step (execControllerReset_keeps _ _) rfl ?_
      exact Keeps.refl _ _
    · exact Keeps.refl _ _
  · refine Keeps.step (State.setReg_keeps ..) rfl ?_
    exact Keeps.refl _ _
  · extract_lets +onlyGivenNames z4
    refine Keeps.cut (x := z4) ?_ (fun h5 => ?_)
    · unfold z4
      refine Keeps.step (State.setReg_keeps ..) rfl ?_
      exact Keeps.refl _ _
    clear_value z4
    split
    · refine Result.settle_keeps ?_ ?_
      · refine KeepsR.step (execShutdownNormal_keeps _ _) rfl ?_
        assumption
      · assumption
    · split
      · refine Result.settle_keeps ?_ ?_
        · refine KeepsR.step (execShutdownAbrupt_keeps _ _) rfl ?_
          assumption
        · assumption
      · assumption

theorem State.writeHost_keeps (s : State) (fn : Fin 2) (off : ℕ) (w : Word) :
    Keeps [.events, .regs, .heads, .decode, .seq, .mem, .motion, .host, .sec, .out] s (State.writeHost s fn off w) := by
  unfold State.writeHost
  extract_lets +onlyGivenNames z1
  split
  · refine Keeps.step (State.writeCc_keeps ..) rfl ?_
    exact Keeps.refl _ _
  · split
    · refine Keeps.step (State.setReg_keeps ..) rfl ?_
      exact Keeps.refl _ _
    · split
      · refine Keeps.step (State.setReg_keeps ..) rfl ?_
        exact Keeps.refl _ _
      · split
        · refine Keeps.step (State.setReg_keeps ..) rfl ?_
          exact Keeps.refl _ _
        · split
          · extract_lets +onlyGivenNames z2
            extract_lets +onlyGivenNames z3
            split
            · refine Result.settle_keeps ?_ ?_
              · refine KeepsR.step (execSqTailDoorbell_keeps _ _ _ _) rfl ?_
                exact Keeps.refl _ _
              · exact Keeps.refl _ _
            · refine Result.settle_keeps ?_ ?_
              · refine KeepsR.step (execCqHeadDoorbell_keeps _ _ _ _) rfl ?_
                exact Keeps.refl _ _
              · exact Keeps.refl _ _
          · split
            · extract_lets +onlyGivenNames z4
              refine Result.settle_keeps ?_ ?_
              · refine KeepsR.step (execSnipRequest_keeps _ _ _ _) rfl ?_
                exact Keeps.refl _ _
              · exact Keeps.refl _ _
            · split
              · refine Keeps.step (State.writePlain_keeps ..) rfl ?_
                exact Keeps.refl _ _
              · exact Keeps.refl _ _

theorem State.writePlCtrl_keeps (s : State) (w : Word) :
    Keeps [.events, .regs, .decode, .mem, .host, .out] s (State.writePlCtrl s w) := by
  unfold State.writePlCtrl
  extract_lets +onlyGivenNames z1
  extract_lets +onlyGivenNames z2
  split
  · refine Result.settle_keeps ?_ ?_
    · refine KeepsR.step (execSeal_keeps _ _) rfl ?_
      exact Keeps.refl _ _
    · exact Keeps.refl _ _
  · refine Result.settle_keeps ?_ ?_
    · refine KeepsR.step (execCommit_keeps _ _) rfl ?_
      exact Keeps.refl _ _
    · exact Keeps.refl _ _
  · refine Result.settle_keeps ?_ ?_
    · refine KeepsR.step (execAbandon_keeps _ _) rfl ?_
      exact Keeps.refl _ _
    · exact Keeps.refl _ _
  · refine Result.settle_keeps ?_ ?_
    · refine KeepsR.step (execJournalReplayStart_keeps _) rfl ?_
      exact Keeps.refl _ _
    · exact Keeps.refl _ _
  · refine Result.settle_keeps ?_ ?_
    · refine KeepsR.step (execReplayEnd_keeps _) rfl ?_
      exact Keeps.refl _ _
    · exact Keeps.refl _ _
  · refine Result.settle_keeps ?_ ?_
    · refine KeepsR.step (execSplitCommit_keeps _ _ _) rfl ?_
      exact Keeps.refl _ _
    · exact Keeps.refl _ _
  · exact Keeps.refl _ _

theorem State.writeHc_keeps (s : State) (acc : Accessor) (key : ℕ) (w : Word) :
    Keeps [.events, .regs, .decode, .mem, .host, .out] s (State.writeHc s acc key w) := by
  unfold State.writeHc
  extract_lets +onlyGivenNames z1
  split
  · split
    · refine Keeps.step (State.writePlCtrl_keeps ..) rfl ?_
      exact Keeps.refl _ _
    · exact Keeps.refl _ _
  · split
    · split
      · refine Keeps.step (State.writePlain_keeps ..) rfl ?_
        exact Keeps.refl _ _
      · exact Keeps.refl _ _
    · refine Keeps.step (State.writePlain_keeps ..) rfl ?_
      exact Keeps.refl _ _

theorem State.writeSys_keeps (s : State) (off : ℕ) (w : Word) :
    Keeps [.events, .regs, .msix, .domains, .heads, .decode, .loop, .seq, .mem, .motion, .host, .out] s (State.writeSys s off w) := by
  unfold State.writeSys
  split
  · split
    · refine Result.settle_keeps ?_ ?_
      · refine KeepsR.step (execHostReadySet_keeps _) rfl ?_
        exact Keeps.refl _ _
      · exact Keeps.refl _ _
    · exact Keeps.refl _ _
  · split
    · extract_lets +onlyGivenNames z1
      extract_lets +onlyGivenNames z2
      extract_lets +onlyGivenNames z3
      refine Keeps.cut (x := z3) ?_ (fun h4 => ?_)
      · unfold z3
        refine Keeps.foldl ?_ (fun _ _ _ => ?_)
        · exact Keeps.refl _ _
        · split
          · rename_i a5 a6 a7 a8 a9 a10
            refine Result.settle_keeps ?_ ?_
            · refine KeepsR.step (execHeadIsolate_keeps _ _) rfl ?_
              assumption
            · assumption
          · rename_i a11 a12 a13 a14 a15 a16
            assumption
      clear_value z3
      refine Keeps.foldl ?_ (fun _ _ _ => ?_)
      · assumption
      · split
        · rename_i a17 a18 a19 a20 a21 a22
          refine Result.settle_keeps ?_ ?_
          · refine KeepsR.step (execHeadPower_keeps _ _) rfl ?_
            assumption
          · assumption
        · rename_i a23 a24 a25 a26 a27 a28
          assumption
    · split
      · refine Result.settle_keeps ?_ ?_
        · refine KeepsR.step (execEvRptrWrite_keeps _ _) rfl ?_
          exact Keeps.refl _ _
        · exact Keeps.refl _ _
      · split
        · refine Result.settle_keeps ?_ ?_
          · refine KeepsR.step (execEvAttnWrite_keeps _ _) rfl ?_
            exact Keeps.refl _ _
          · exact Keeps.refl _ _
        · split
          · split
            · refine Result.settle_keeps ?_ ?_
              · refine KeepsR.step (execAttnClear_keeps _) rfl ?_
                exact Keeps.refl _ _
              · exact Keeps.refl _ _
            · exact Keeps.refl _ _
          · refine Keeps.step (State.writePlain_keeps ..) rfl ?_
            exact Keeps.refl _ _

theorem State.writeBobCtrl_keeps (s : State) (acc : Accessor) (b : Fin 24) (w : Word) :
    Keeps [.events, .regs, .seq] s (State.writeBobCtrl s acc b w) := by
  unfold State.writeBobCtrl
  split
  · refine Result.settle_keeps ?_ ?_
    · refine KeepsR.step (execBobStart_keeps _ _) rfl ?_
      exact Keeps.refl _ _
    · exact Keeps.refl _ _
  · refine Result.settle_keeps ?_ ?_
    · refine KeepsR.step (execBobHalt_keeps _ _) rfl ?_
      exact Keeps.refl _ _
    · exact Keeps.refl _ _
  · refine Result.settle_keeps ?_ ?_
    · refine KeepsR.step (execBobResume_keeps _ _ _) rfl ?_
      exact Keeps.refl _ _
    · exact Keeps.refl _ _
  · exact Keeps.refl _ _

theorem State.writeSq_keeps (s : State) (acc : Accessor) (off : ℕ) (w : Word) :
    Keeps [.events, .regs, .seq] s (State.writeSq s acc off w) := by
  unfold State.writeSq
  split
  · refine Keeps.step (State.writeBobCtrl_keeps ..) rfl ?_
    exact Keeps.refl _ _
  · refine Result.settle_keeps ?_ ?_
    · refine KeepsR.step (execCapWr_keeps _ _) rfl ?_
      exact Keeps.refl _ _
    · exact Keeps.refl _ _
  · refine Keeps.step (State.writePlain_keeps ..) rfl ?_
    exact Keeps.refl _ _

theorem State.writeCs_keeps (s : State) (off : ℕ) (w : Word) :
    Keeps [.events, .regs, .seq] s (State.writeCs s off w) := by
  unfold State.writeCs
  split
  · refine Result.settle_keeps ?_ ?_
    · refine KeepsR.step (execCsTestWrite_keeps _ _) rfl ?_
      exact Keeps.refl _ _
    · exact Keeps.refl _ _
  · split
    · split
      · refine Result.settle_keeps ?_ ?_
        · refine KeepsR.step (execMcAddrClear_keeps _) rfl ?_
          exact Keeps.refl _ _
        · exact Keeps.refl _ _
      · exact Keeps.refl _ _
    · refine Keeps.step (State.writePlain_keeps ..) rfl ?_
      exact Keeps.refl _ _

theorem State.writeTrcCtrl_keeps (s : State) (w : Word) :
    Keeps [.regs, .loop] s (State.writeTrcCtrl s w) := by
  unfold State.writeTrcCtrl
  split
  · extract_lets +onlyGivenNames z1
    refine Keeps.cut (x := z1) ?_ (fun h2 => ?_)
    · unfold z1
      refine Keeps.step (State.setFld_keeps ..) rfl ?_
      exact Keeps.refl _ _
    clear_value z1
    extract_lets +onlyGivenNames z3
    refine Keeps.cut (x := z3) ?_ (fun h4 => ?_)
    · unfold z3
      split
      · assumption
      · refine Result.settle_keeps ?_ ?_
        · refine KeepsR.step (execTraceModeWrite_keeps _ _) rfl ?_
          assumption
        · assumption
    clear_value z3
    refine Result.settle_keeps ?_ ?_
    · refine KeepsR.step (execTraceFreeze_keeps _) rfl ?_
      assumption
    · assumption
  · refine Result.settle_keeps ?_ ?_
    · refine KeepsR.step (execTraceModeWrite_keeps _ _) rfl ?_
      exact Keeps.refl _ _
    · exact Keeps.refl _ _

theorem State.writeSlot_keeps (s : State) (k : Fin 96) (o : ℕ) (w : Word) :
    Keeps [.events, .regs, .heads, .loop, .seq] s (State.writeSlot s k o w) := by
  unfold State.writeSlot
  extract_lets +onlyGivenNames z1
  split
  · extract_lets +onlyGivenNames z2
    split
    · refine Result.settle_keeps ?_ ?_
      · refine KeepsR.step (execSlotClearState_keeps _ _) rfl ?_
        exact Keeps.refl _ _
      · exact Keeps.refl _ _
    · refine Result.settle_keeps ?_ ?_
      · refine KeepsR.step (execSlotStateRequest_keeps _ _) rfl ?_
        exact Keeps.refl _ _
      · exact Keeps.refl _ _
  · split
    · refine Result.settle_keeps ?_ ?_
      · refine KeepsR.step (execSlotConfigWrite_keeps _ _ _ _) rfl ?_
        exact Keeps.refl _ _
      · exact Keeps.refl _ _
    · split
      · refine Result.settle_keeps ?_ ?_
        · refine KeepsR.step (execSlotConfigWrite_keeps _ _ _ _) rfl ?_
          exact Keeps.refl _ _
        · exact Keeps.refl _ _
      · split
        · refine Result.settle_keeps ?_ ?_
          · refine KeepsR.step (execSlotConfigWrite_keeps _ _ _ _) rfl ?_
            exact Keeps.refl _ _
          · exact Keeps.refl _ _
        · split
          · refine Result.settle_keeps ?_ ?_
            · refine KeepsR.step (execCoefficientWrite_keeps _ _) rfl ?_
              exact Keeps.refl _ _
            · exact Keeps.refl _ _
          · refine Keeps.step (State.writePlain_keeps ..) rfl ?_
            exact Keeps.refl _ _

theorem State.writeLp_keeps (s : State) (off : ℕ) (w : Word) :
    Keeps [.events, .regs, .heads, .loop, .seq] s (State.writeLp s off w) := by
  unfold State.writeLp
  split
  · refine Keeps.step (State.writeTrcCtrl_keeps ..) rfl ?_
    exact Keeps.refl _ _
  · split
    · refine Keeps.step (State.writeSlot_keeps ..) rfl ?_
      exact Keeps.refl _ _
    · refine Keeps.step (State.writePlain_keeps ..) rfl ?_
      exact Keeps.refl _ _

theorem State.writeSpCtrl_keeps (s : State) (w : Word) :
    Keeps [.events, .regs, .seq, .motion, .free] s (State.writeSpCtrl s w) := by
  unfold State.writeSpCtrl
  extract_lets +onlyGivenNames z1
  refine Keeps.cut (x := z1) ?_ (fun h2 => ?_)
  · unfold z1
    split
    · exact Keeps.refl _ _
    · split
      · split
        rename_i a3 a4 a5 a6 a7 a8
        refine Result.settle_keeps ?_ ?_
        · refine KeepsR.step (execSpindleStart_keeps _ _ _) rfl ?_
          refine Keeps.ofSnd a8 ?_
          refine Keeps.step (State.draw_keeps ..) rfl ?_
          exact Keeps.refl _ _
        · refine Keeps.ofSnd a8 ?_
          refine Keeps.step (State.draw_keeps ..) rfl ?_
          exact Keeps.refl _ _
      · refine Result.settle_keeps ?_ ?_
        · refine KeepsR.step (execSpindleStart_keeps _ _ _) rfl ?_
          exact Keeps.refl _ _
        · exact Keeps.refl _ _
  clear_value z1
  split
  · refine Result.settle_keeps ?_ ?_
    · refine KeepsR.step (execSpindleStop_keeps _ _) rfl ?_
      assumption
    · assumption
  · assumption

theorem State.writeSled_keeps (s : State) (n : Fin 16) (off : ℕ) (w : Word) :
    Keeps [.events, .regs, .seq, .motion] s (State.writeSled s n off w) := by
  unfold State.writeSled
  split
  · extract_lets +onlyGivenNames z1
    refine Keeps.cut (x := z1) ?_ (fun h2 => ?_)
    · unfold z1
      split
      · refine Result.settle_keeps ?_ ?_
        · refine KeepsR.step (execSledClearFault_keeps _ _) rfl ?_
          exact Keeps.refl _ _
        · exact Keeps.refl _ _
      · exact Keeps.refl _ _
    clear_value z1
    refine Keeps.step (State.sledCode_keeps ..) rfl ?_
    assumption
  · split
    · refine Result.settle_keeps ?_ ?_
      · refine KeepsR.step (execSledTargetWrite_keeps _ _ _) rfl ?_
        exact Keeps.refl _ _
      · exact Keeps.refl _ _
    · refine Keeps.step (State.writePlain_keeps ..) rfl ?_
      exact Keeps.refl _ _

theorem State.writeMotion_keeps (s : State) (off : ℕ) (w : Word) :
    Keeps [.events, .regs, .seq, .motion, .free] s (State.writeMotion s off w) := by
  unfold State.writeMotion
  split
  · refine Keeps.step (State.writeSpCtrl_keeps ..) rfl ?_
    exact Keeps.refl _ _
  · split
    · extract_lets +onlyGivenNames z1
      refine Keeps.cut (x := z1) ?_ (fun h2 => ?_)
      · unfold z1
        refine Keeps.step (State.writePlain_keeps ..) rfl ?_
        exact Keeps.refl _ _
      clear_value z1
      refine Result.settle_keeps ?_ ?_
      · refine KeepsR.step (execSpindleDemandSet_keeps _ _) rfl ?_
        assumption
      · assumption
    · split
      · refine Keeps.step (State.writePlain_keeps ..) rfl ?_
        exact Keeps.refl _ _
      · split
        · refine Keeps.step (State.setReg_keeps ..) rfl ?_
          exact Keeps.refl _ _
        · refine Keeps.step (State.writeSled_keeps ..) rfl ?_
          exact Keeps.refl _ _

theorem State.writeDc_keeps (s : State) (off : ℕ) (w : Word) :
    Keeps [.events, .regs, .decode, .mem, .out] s (State.writeDc s off w) := by
  unfold State.writeDc
  split
  · refine Result.settle_keeps ?_ ?_
    · refine KeepsR.step (execDcOutConsWrite_keeps _ _) rfl ?_
      exact Keeps.refl _ _
    · exact Keeps.refl _ _
  · split
    · refine Result.settle_keeps ?_ ?_
      · refine KeepsR.step (execDcCntClear_keeps _ _) rfl ?_
        exact Keeps.refl _ _
      · exact Keeps.refl _ _
    · refine Keeps.step (State.writePlain_keeps ..) rfl ?_
      exact Keeps.refl _ _

theorem State.writeTrnCmd_keeps (s : State) (w : Word) :
    Keeps [.events, .regs, .mem, .out, .free] s (State.writeTrnCmd s w) := by
  unfold State.writeTrnCmd
  extract_lets +onlyGivenNames z1
  extract_lets +onlyGivenNames z2
  extract_lets +onlyGivenNames z3
  split
  · refine Result.settle_keeps ?_ ?_
    · refine KeepsR.step (execMrw_keeps _ _ _ _) rfl ?_
      exact Keeps.refl _ _
    · exact Keeps.refl _ _
  · split
    rename_i a4 a5 a6 a7 a8 a9
    refine Result.settle_keeps ?_ ?_
    · refine KeepsR.step (execMrr_keeps _ _ _ _) rfl ?_
      refine Keeps.ofSnd a9 ?_
      refine Keeps.step (State.draw_keeps ..) rfl ?_
      exact Keeps.refl _ _
    · refine Keeps.ofSnd a9 ?_
      refine Keeps.step (State.draw_keeps ..) rfl ?_
      exact Keeps.refl _ _
  · refine Result.settle_keeps ?_ ?_
    · refine KeepsR.step (execMpc_keeps _ _ _) rfl ?_
      exact Keeps.refl _ _
    · exact Keeps.refl _ _
  · refine Result.settle_keeps ?_ ?_
    · refine KeepsR.step (execPrechargeAll_keeps _ _) rfl ?_
      exact Keeps.refl _ _
    · exact Keeps.refl _ _
  · refine Result.settle_keeps ?_ ?_
    · refine KeepsR.step (execRefreshAll_keeps _ _) rfl ?_
      exact Keeps.refl _ _
    · exact Keeps.refl _ _
  · split
    rename_i a10 a11 a12 a13 a14 a15
    extract_lets +onlyGivenNames z16
    refine Result.settle_keeps ?_ ?_
    · refine KeepsR.step (execPatternRun_keeps _ _ _ _) rfl ?_
      refine Keeps.ofSnd a15 ?_
      refine Keeps.step (State.draw_keeps ..) rfl ?_
      exact Keeps.refl _ _
    · refine Keeps.ofSnd a15 ?_
      refine Keeps.step (State.draw_keeps ..) rfl ?_
      exact Keeps.refl _ _
  · exact Keeps.refl _ _

theorem State.writeMc_keeps (s : State) (off : ℕ) (w : Word) :
    Keeps [.events, .regs, .mem, .out, .free] s (State.writeMc s off w) := by
  unfold State.writeMc
  split
  · refine Result.settle_keeps ?_ ?_
    · refine KeepsR.step (execMemoryEnable_keeps _ _) rfl ?_
      exact Keeps.refl _ _
    · exact Keeps.refl _ _
  · split
    · refine Result.settle_keeps ?_ ?_
      · refine KeepsR.step (execEccCountClear_keeps _ _) rfl ?_
        exact Keeps.refl _ _
      · exact Keeps.refl _ _
    · split
      · refine Result.settle_keeps ?_ ?_
        · refine KeepsR.step (execEccEraseWrite_keeps _ _) rfl ?_
          exact Keeps.refl _ _
        · exact Keeps.refl _ _
      · split
        · extract_lets +onlyGivenNames z1
          split
          · refine Result.settle_keeps ?_ ?_
            · refine KeepsR.step (execFrequencyChangeRequest_keeps _ _) rfl ?_
              exact Keeps.refl _ _
            · exact Keeps.refl _ _
          · refine Keeps.step (State.setFld_keeps ..) rfl ?_
            exact Keeps.refl _ _
        · split
          · split
            · refine Result.settle_keeps ?_ ?_
              · refine KeepsR.step (execSweepStart_keeps _) rfl ?_
                exact Keeps.refl _ _
              · exact Keeps.refl _ _
            · exact Keeps.refl _ _
          · split
            · refine Keeps.step (State.writeTrnCmd_keeps ..) rfl ?_
              exact Keeps.refl _ _
            · split
              · split
                · refine Keeps.step (State.refuseTraining_keeps ..) rfl ?_
                  exact Keeps.refl _ _
                · refine Keeps.step (State.writePlain_keeps ..) rfl ?_
                  exact Keeps.refl _ _
              · split
                · split
                  · exact Keeps.refl _ _
                  · refine Keeps.step (State.writePlain_keeps ..) rfl ?_
                    exact Keeps.refl _ _
                · split
                  · split
                    · refine Keeps.step (State.writePlain_keeps ..) rfl ?_
                      exact Keeps.refl _ _
                    · refine Keeps.step (State.refuseTraining_keeps ..) rfl ?_
                      exact Keeps.refl _ _
                  · refine Keeps.step (State.writePlain_keeps ..) rfl ?_
                    exact Keeps.refl _ _

theorem State.writeCal_keeps (s : State) (off : ℕ) (w : Word) :
    Keeps [.events, .regs, .cal] s (State.writeCal s off w) := by
  unfold State.writeCal
  split
  · refine Result.settle_keeps ?_ ?_
    · refine KeepsR.step (execAdcTargetWrite_keeps _ _ _) rfl ?_
      exact Keeps.refl _ _
    · exact Keeps.refl _ _
  · split
    · split
      · refine Result.settle_keeps ?_ ?_
        · refine KeepsR.step (execComparatorTrim_keeps _) rfl ?_
          exact Keeps.refl _ _
        · exact Keeps.refl _ _
      · exact Keeps.refl _ _
    · split
      · exact Keeps.refl _ _
      · refine Keeps.step (State.writePlain_keeps ..) rfl ?_
        exact Keeps.refl _ _

theorem State.writeSec_keeps (s : State) (off : ℕ) (w : Word) :
    Keeps [.events, .regs, .sec, .free] s (State.writeSec s off w) := by
  unfold State.writeSec
  split
  · extract_lets +onlyGivenNames z1
    refine Keeps.cut (x := z1) ?_ (fun h2 => ?_)
    · unfold z1
      split
      · refine Result.settle_keeps ?_ ?_
        · refine KeepsR.step (execFloorCommit_keeps _) rfl ?_
          exact Keeps.refl _ _
        · exact Keeps.refl _ _
      · exact Keeps.refl _ _
    clear_value z1
    split
    · refine Result.settle_keeps ?_ ?_
      · refine KeepsR.step (execRevoke_keeps _ _) rfl ?_
        assumption
      · assumption
    · assumption
  · split
    · split
      · refine Result.settle_keeps ?_ ?_
        · refine KeepsR.step (execDebugUnlockSubmit_keeps _) rfl ?_
          exact Keeps.refl _ _
        · exact Keeps.refl _ _
      · exact Keeps.refl _ _
    · split
      · refine Keeps.step (State.modSec_keeps ..) rfl ?_
        exact Keeps.refl _ _
      · refine Keeps.step (State.writePlain_keeps ..) rfl ?_
        exact Keeps.refl _ _

theorem State.writeTlCtrl_keeps (s : State) (n : Fin 16) (w : Word) :
    Keeps [.events, .regs, .heads, .decode, .loop, .seq, .mem, .motion, .out] s (State.writeTlCtrl s n w) := by
  unfold State.writeTlCtrl
  extract_lets +onlyGivenNames z1
  refine Keeps.cut (x := z1) ?_ (fun h2 => ?_)
  · unfold z1
    refine Keeps.step (State.setFld_keeps ..) rfl ?_
    exact Keeps.refl _ _
  clear_value z1
  extract_lets +onlyGivenNames z3
  refine Keeps.cut (x := z3) ?_ (fun h4 => ?_)
  · unfold z3
    split
    · refine Result.settle_keeps ?_ ?_
      · refine KeepsR.step (execLinkEnable_keeps _ _) rfl ?_
        assumption
      · assumption
    · refine Result.settle_keeps ?_ ?_
      · refine KeepsR.step (execLinkDisable_keeps _ _) rfl ?_
        assumption
      · assumption
  clear_value z3
  extract_lets +onlyGivenNames z5
  refine Keeps.cut (x := z5) ?_ (fun h6 => ?_)
  · unfold z5
    split
    · refine Result.settle_keeps ?_ ?_
      · refine KeepsR.step (execLinkRetrain_keeps _ _) rfl ?_
        assumption
      · assumption
    · assumption
  clear_value z5
  extract_lets +onlyGivenNames z7
  refine Keeps.cut (x := z7) ?_ (fun h8 => ?_)
  · unfold z7
    split
    · refine Result.settle_keeps ?_ ?_
      · refine KeepsR.step (execLinkRealign_keeps _ _) rfl ?_
        assumption
      · assumption
    · assumption
  clear_value z7
  split
  · refine Result.settle_keeps ?_ ?_
    · refine KeepsR.step (execFeSafeRequest_keeps _ _) rfl ?_
      assumption
    · assumption
  · assumption

theorem State.writeHead_keeps (s : State) (n : Fin 16) (off : ℕ) (w : Word) :
    Keeps [.events, .regs, .heads, .decode, .loop, .seq, .mem, .motion, .out] s (State.writeHead s n off w) := by
  unfold State.writeHead
  split
  · refine Keeps.step (State.writeTlCtrl_keeps ..) rfl ?_
    exact Keeps.refl _ _
  · split
    · refine Result.settle_keeps ?_ ?_
      · refine KeepsR.step (execHdFmtCfgWrite_keeps _ _ _) rfl ?_
        exact Keeps.refl _ _
      · exact Keeps.refl _ _
    · split
      · extract_lets +onlyGivenNames z1
        refine Keeps.cut (x := z1) ?_ (fun h2 => ?_)
        · unfold z1
          refine Keeps.step (State.writePlain_keeps ..) rfl ?_
          exact Keeps.refl _ _
        clear_value z1
        extract_lets +onlyGivenNames z3
        split
        · refine Keeps.step (State.setFld_keeps ..) rfl ?_
          assumption
        · assumption
      · split
        · extract_lets +onlyGivenNames z4
          refine Keeps.cut (x := z4) ?_ (fun h5 => ?_)
          · unfold z4
            refine Keeps.step (State.writePlain_keeps ..) rfl ?_
            exact Keeps.refl _ _
          clear_value z4
          extract_lets +onlyGivenNames z6
          split
          · refine Keeps.step (State.setFld_keeps ..) rfl ?_
            assumption
          · assumption
        · split
          · extract_lets +onlyGivenNames z7
            refine Keeps.cut (x := z7) ?_ (fun h8 => ?_)
            · unfold z7
              split
              · refine Result.settle_keeps ?_ ?_
                · refine KeepsR.step (execLaserRearm_keeps _ _) rfl ?_
                  exact Keeps.refl _ _
                · exact Keeps.refl _ _
              · exact Keeps.refl _ _
            clear_value z7
            refine Result.settle_keeps ?_ ?_
            · refine KeepsR.step (execLaserEnableWrite_keeps _ _ _) rfl ?_
              assumption
            · assumption
          · split
            · refine Result.settle_keeps ?_ ?_
              · refine KeepsR.step (execCeilingWrite_keeps _ _ _ _) rfl ?_
                exact Keeps.refl _ _
              · exact Keeps.refl _ _
            · split
              · extract_lets +onlyGivenNames z9
                refine Keeps.cut (x := z9) ?_ (fun h10 => ?_)
                · unfold z9
                  refine Result.settle_keeps ?_ ?_
                  · refine KeepsR.step (execCeilingWrite_keeps _ _ _ _) rfl ?_
                    exact Keeps.refl _ _
                  · exact Keeps.refl _ _
                clear_value z9
                split
                · refine Result.settle_keeps ?_ ?_
                  · refine KeepsR.step (execCeilingLock_keeps _ _) rfl ?_
                    assumption
                  · assumption
                · assumption
              · split
                · refine Result.settle_keeps ?_ ?_
                  · refine KeepsR.step (execDerateEnableWrite_keeps _ _ _) rfl ?_
                    exact Keeps.refl _ _
                  · exact Keeps.refl _ _
                · refine Keeps.step (State.writePlain_keeps ..) rfl ?_
                  exact Keeps.refl _ _

theorem State.writeSingle_keeps (s : State) (acc : Accessor) (key : ℕ) (w : Word) :
    Keeps [.events, .regs, .msix, .domains, .heads, .decode, .loop, .seq, .mem, .motion, .host, .cal, .sec, .out, .free] s (State.writeSingle s acc key w) := by
  unfold State.writeSingle
  extract_lets +onlyGivenNames z1
  split
  · refine Keeps.step (State.writeHost_keeps ..) rfl ?_
    exact Keeps.refl _ _
  · split
    · refine Keeps.step (State.writeSys_keeps ..) rfl ?_
      exact Keeps.refl _ _
    · split
      · refine Keeps.step (State.writeHc_keeps ..) rfl ?_
        exact Keeps.refl _ _
      · split
        · refine Keeps.step (State.writeSq_keeps ..) rfl ?_
          exact Keeps.refl _ _
        · split
          · refine Keeps.step (State.writeCs_keeps ..) rfl ?_
            exact Keeps.refl _ _
          · split
            · refine Keeps.step (State.writeLp_keeps ..) rfl ?_
              exact Keeps.refl _ _
            · split
              · refine Keeps.step (State.writeMotion_keeps ..) rfl ?_
                exact Keeps.refl _ _
              · split
                · refine Keeps.step (State.writeDc_keeps ..) rfl ?_
                  exact Keeps.refl _ _
                · split
                  · refine Keeps.step (State.writeMc_keeps ..) rfl ?_
                    exact Keeps.refl _ _
                  · split
                    · refine Keeps.step (State.writeCal_keeps ..) rfl ?_
                      exact Keeps.refl _ _
                    · split
                      · refine Keeps.step (State.writeSec_keeps ..) rfl ?_
                        exact Keeps.refl _ _
                      · refine Keeps.step (State.writeHead_keeps ..) rfl ?_
                        exact Keeps.refl _ _

theorem State.applyPair_keeps (s : State) (lo : ℕ) (wl : Word) (wh : Word) :
    Keeps [.events, .regs, .mem, .host, .out] s (State.applyPair s lo wl wh) := by
  unfold State.applyPair
  split
  · refine Result.settle_keeps ?_ ?_
    · refine KeepsR.step (execDcBaseWrite_keeps _ _ _ _) rfl ?_
      exact Keeps.refl _ _
    · exact Keeps.refl _ _
  · split
    · refine Result.settle_keeps ?_ ?_
      · refine KeepsR.step (execDcBaseWrite_keeps _ _ _ _) rfl ?_
        exact Keeps.refl _ _
      · exact Keeps.refl _ _
    · split
      · refine Result.settle_keeps ?_ ?_
        · refine KeepsR.step (execFlipArm_keeps _ _ _) rfl ?_
          exact Keeps.refl _ _
        · exact Keeps.refl _ _
      · split
        · refine Result.settle_keeps ?_ ?_
          · refine KeepsR.step (execJournalDurable_keeps _ _) rfl ?_
            exact Keeps.refl _ _
          · exact Keeps.refl _ _
        · refine Keeps.step (State.writePlain_keeps ..) rfl ?_
          refine Keeps.step (State.writePlain_keeps ..) rfl ?_
          exact Keeps.refl _ _

theorem State.holdLo_keeps (s : State) (acc : Accessor) (lo : ℕ) (w : Word) :
    Keeps [.events, .heldLo] s (State.holdLo s acc lo w) := by
  unfold State.holdLo
  split
  · refine Keeps.heldLoTo rfl ?_
    exact Keeps.refl _ _
  · split
    · refine Keeps.step (State.refuseTraining_keeps ..) rfl ?_
      exact Keeps.refl _ _
    · split
      · refine Keeps.step (State.logDec_keeps ..) rfl ?_
        exact Keeps.refl _ _
      · exact Keeps.refl _ _

theorem State.writeHi_keeps (s : State) (acc : Accessor) (lo : ℕ) (w : Word) :
    Keeps [.events, .regs, .heldLo, .mem, .host, .out] s (State.writeHi s acc lo w) := by
  unfold State.writeHi
  split
  · extract_lets +onlyGivenNames z1
    refine Keeps.step (State.applyPair_keeps ..) rfl ?_
    refine Keeps.heldLoTo rfl ?_
    exact Keeps.refl _ _
  · split
    · refine Keeps.step (State.refuseTraining_keeps ..) rfl ?_
      exact Keeps.refl _ _
    · split
      · refine Keeps.step (State.logDec_keeps ..) rfl ?_
        exact Keeps.refl _ _
      · exact Keeps.refl _ _

theorem State.regWrite_keeps (s : State) (acc : Accessor) (off : ℕ) (val : ℕ) :
    Keeps [.events, .regs, .heldLo, .msix, .domains, .heads, .decode, .loop, .seq, .mem, .motion, .host, .cal, .sec, .out, .free] s (State.regWrite s acc off val) := by
  unfold State.regWrite
  extract_lets +onlyGivenNames z1
  split
  · refine Keeps.step (State.bar2Write_keeps ..) rfl ?_
    exact Keeps.refl _ _
  · split
    · refine Keeps.step (State.logOutOfService_keeps ..) rfl ?_
      exact Keeps.refl _ _
    · split
      · exact Keeps.refl _ _
      · split
        · exact Keeps.refl _ _
        · split
          · refine Keeps.step (State.holdLo_keeps ..) rfl ?_
            exact Keeps.refl _ _
          · refine Keeps.step (State.writeHi_keeps ..) rfl ?_
            exact Keeps.refl _ _
          · exact Keeps.refl _ _
          · exact Keeps.refl _ _
          · refine Keeps.step (State.writeSingle_keeps ..) rfl ?_
            exact Keeps.refl _ _

theorem State.answerRead_keeps {P : List Part} {s0 : State} {acc : Accessor} {off : ℕ} {r : ℕ × State} (hP : Part.sub [.out] P = true)
    (hr : Keeps P s0 r.2) :
    Keeps P s0 (State.answerRead acc off r) := by
  unfold State.answerRead
  extract_lets +onlyGivenNames z1
  refine Keeps.cut (x := z1) ?_ (fun h2 => ?_)
  · unfold z1
    assumption
  clear_value z1
  refine Keeps.outTo (Part.sub_contains hP rfl) ?_
  assumption

theorem State.portOrder_keeps {P : List Part} {s0 : State} {s : State} {acc : Accessor} {off : ℕ} {val : ℕ} {t : State}
    (hP : Part.sub [.regs, .host] P = true) (hs : Keeps P s0 s) (ht : Keeps P s0 t) :
    Keeps P s0 (State.portOrder s acc off val t) := by
  unfold State.portOrder
  extract_lets +onlyGivenNames z1
  split
  · assumption
  · split
    · assumption
    · refine Keeps.step (State.modHost_keeps ..) (Part.sub_trans rfl hP) ?_
      assumption
    · split
      · split
        · refine Keeps.step (State.setReg_keeps ..) (Part.sub_trans rfl hP) ?_
          assumption
        · assumption
      · assumption

theorem execRegisterWrite_keeps (acc : Accessor) (off : ℕ) (val : ℕ) (s : State) :
    KeepsR [.events, .regs, .heldLo, .msix, .domains, .heads, .decode, .loop, .seq, .mem, .motion, .host, .cal, .sec, .out, .free] s (execRegisterWrite acc off val s) := by
  unfold execRegisterWrite
  refine KeepsR.when ?_ ?_
  · exact Keeps.refl _ _
  · refine State.portOrder_keeps ?_ ?_ ?_
    · exact rfl
    · exact Keeps.refl _ _
    · refine Keeps.step (State.regWrite_keeps ..) rfl ?_
      exact Keeps.refl _ _

theorem execLoRegisterRead_keeps (acc : Accessor) (off : ℕ) (s : State) :
    KeepsR [.events, .latches, .out] s (execLoRegisterRead acc off s) := by
  unfold execLoRegisterRead
  refine KeepsR.when ?_ ?_
  · exact Keeps.refl _ _
  · refine State.answerRead_keeps ?_ ?_
    · exact rfl
    · refine Keeps.step (State.regRead_keeps ..) rfl ?_
      exact Keeps.refl _ _

theorem execRwPairHiWrite_keeps (acc : Accessor) (off : ℕ) (val : ℕ) (s : State) :
    KeepsR [.events, .regs, .heldLo, .msix, .domains, .heads, .decode, .loop, .seq, .mem, .motion, .host, .cal, .sec, .out, .free] s (execRwPairHiWrite acc off val s) := by
  unfold execRwPairHiWrite
  refine KeepsR.when ?_ ?_
  · exact Keeps.refl _ _
  · refine Keeps.step (State.regWrite_keeps ..) rfl ?_
    exact Keeps.refl _ _

theorem execRefusedRegisterAccess_keeps (fn : Fin 2) (off : ℕ) (bytes : ℕ) (write : Bool) (s : State) :
    KeepsR [.events, .out] s (execRefusedRegisterAccess fn off bytes write s) := by
  unfold execRefusedRegisterAccess
  refine KeepsR.when ?_ ?_
  · exact Keeps.refl _ _
  · extract_lets +onlyGivenNames z1
    refine Keeps.cut (x := z1) ?_ (fun h2 => ?_)
    · unfold z1
      refine Keeps.step (State.logHost_keeps ..) rfl ?_
      exact Keeps.refl _ _
    clear_value z1
    split
    · assumption
    · refine State.answerRead_keeps ?_ ?_
      · exact rfl
      · refine Keeps.ofMk ?_
        assumption

theorem execUnassignedOffsetAccess_keeps (acc : Accessor) (off : ℕ) (write : Bool) (s : State) :
    KeepsR [.out] s (execUnassignedOffsetAccess acc off write s) := by
  unfold execUnassignedOffsetAccess
  extract_lets +onlyGivenNames z1
  refine KeepsR.when ?_ ?_
  · exact Keeps.refl _ _
  · split
    · exact Keeps.refl _ _
    · refine State.answerRead_keeps ?_ ?_
      · exact rfl
      · refine Keeps.ofMk ?_
        exact Keeps.refl _ _

theorem execOutOfServiceBlockAccess_keeps (acc : Accessor) (off : ℕ) (write : Bool) (s : State) :
    KeepsR [.events, .out] s (execOutOfServiceBlockAccess acc off write s) := by
  unfold execOutOfServiceBlockAccess
  refine KeepsR.when ?_ ?_
  · exact Keeps.refl _ _
  · split
    · refine Keeps.step (State.logOutOfService_keeps ..) rfl ?_
      exact Keeps.refl _ _
    · refine State.answerRead_keeps ?_ ?_
      · exact rfl
      · refine Keeps.ofMk ?_
        refine Keeps.step (State.logOutOfService_keeps ..) rfl ?_
        exact Keeps.refl _ _

theorem State.loadWord_keeps (s : State) (b : Fin 24) (u : Upset) (op : ℕ) (signed : Bool) :
    KeepsR [.events, .regs, .latches, .seq] s (State.loadWord s b u op signed) := by
  unfold State.loadWord
  refine State.issue_keeps ?_ ?_ ?_
  · exact rfl
  · intro y1 y2 y3
    refine KeepsE.bind (fun _ => ?_)
    split
    · split
      · exact KeepsE.error
      · split
        rename_i a4 a5 a6 a7 a8 a9 a10
        refine KeepsE.ok ?_
        refine Keeps.step (State.setG_keeps ..) rfl ?_
        refine Keeps.ofSnd a10 ?_
        refine Keeps.step (State.regRead_keeps ..) rfl ?_
        assumption
    · refine KeepsE.step (State.loadAt_keeps _ _ _ _ _ _ _) rfl ?_
      assumption
  · exact Keeps.refl _ _

theorem execLdw_keeps (b : Fin 24) (u : Upset) (s : State) :
    KeepsR [.events, .regs, .latches, .seq] s (execLdw b u s) := by
  unfold execLdw
  refine KeepsR.step (State.loadWord_keeps _ _ _ _ _) rfl ?_
  exact Keeps.refl _ _

theorem execLdws_keeps (b : Fin 24) (u : Upset) (s : State) :
    KeepsR [.events, .regs, .latches, .seq] s (execLdws b u s) := by
  unfold execLdws
  refine KeepsR.step (State.loadWord_keeps _ _ _ _ _) rfl ?_
  exact Keeps.refl _ _

theorem execStw_keeps (b : Fin 24) (u : Upset) (s : State) :
    KeepsR [.events, .regs, .heldLo, .msix, .domains, .heads, .decode, .loop, .seq, .mem, .motion, .host, .cal, .sec, .out, .free] s (execStw b u s) := by
  unfold execStw
  refine State.issue_keeps ?_ ?_ ?_
  · exact rfl
  · intro y1 y2 y3
    refine KeepsE.bind (fun _ => ?_)
    split
    · split
      · exact KeepsE.error
      · refine KeepsE.ok ?_
        refine Keeps.step (State.regWrite_keeps ..) rfl ?_
        assumption
    · refine KeepsE.ok ?_
      refine Keeps.step (State.spaceWrite_keeps ..) rfl ?_
      assumption
  · exact Keeps.refl _ _

end Sys2Proof.Machine
end

