-- ==== Sys2Proof/Laws/KeepsBoot.lean ====
section
/-!
SUPPORT. Laws/KeepsBoot.lean: which parts of a state each operation of Machine/Boot.lean may change, and that it keeps a sound
state sound.
-/

namespace Sys2Proof.Machine

theorem State.dueAt_keeps (s : State) (d : Fin 19) (t : Stamp) :
    Keeps [.domains] s (State.dueAt s d t) := by
  unfold State.dueAt
  split
  · exact Keeps.refl _ _
  · refine Keeps.domainsTo rfl ?_
    exact Keeps.refl _ _

theorem State.powerDomains_keeps (s : State) (heads : List (Fin 16)) :
    Keeps [.domains] s (State.powerDomains s heads) := by
  unfold State.powerDomains
  extract_lets +onlyGivenNames z1
  refine Keeps.cut (x := z1) ?_ (fun h2 => ?_)
  · unfold z1
    refine Keeps.step (State.dueAt_keeps ..) rfl ?_
    refine Keeps.step (State.dueAt_keeps ..) rfl ?_
    exact Keeps.refl _ _
  clear_value z1
  refine Keeps.foldl ?_ (fun _ _ _ => ?_)
  · assumption
  · refine Keeps.step (State.dueAt_keeps ..) rfl ?_
    assumption

theorem State.loadMcCfg_keeps (s : State) (subch : ℕ) (density : ℕ) :
    Keeps [.regs] s (State.loadMcCfg s subch density) := by
  unfold State.loadMcCfg
  refine Keeps.step (State.setFld_keeps ..) rfl ?_
  refine Keeps.step (State.setFld_keeps ..) rfl ?_
  exact Keeps.refl _ _

theorem State.loadCap_keeps (s : State) (b : ℕ) (word : ℕ) :
    Keeps [.regs] s (State.loadCap s b word) := by
  unfold State.loadCap
  extract_lets +onlyGivenNames z1
  split
  · refine Keeps.step (State.resetReg_keeps ..) rfl ?_
    exact Keeps.refl _ _
  · refine Keeps.step (State.writePlain_keeps ..) rfl ?_
    exact Keeps.refl _ _

theorem State.initWrite_keeps (s : State) (e : ℕ × ℕ) :
    Keeps [.events, .regs, .heldLo, .msix, .domains, .heads, .decode, .loop, .seq, .mem, .motion, .host, .cal, .sec, .out, .free] s (State.initWrite s e) := by
  unfold State.initWrite
  split
  · refine Keeps.step (State.regWrite_keeps ..) rfl ?_
    exact Keeps.refl _ _
  · exact Keeps.refl _ _

theorem execBootConfigApply_keeps (s : State) :
    KeepsR [.events, .regs, .heldLo, .msix, .domains, .boot, .heads, .decode, .loop, .seq, .mem, .motion, .host, .cal, .sec, .out, .free] s (execBootConfigApply s) := by
  unfold execBootConfigApply
  refine KeepsR.when ?_ ?_
  · exact Keeps.refl _ _
  · split
    · refine Keeps.step (State.reachStage_keeps ..) rfl ?_
      refine Keeps.step (State.powerDomains_keeps ..) rfl ?_
      refine Keeps.step (State.loadMcCfg_keeps ..) rfl ?_
      exact Keeps.refl _ _
    · extract_lets +onlyGivenNames z1
      refine Keeps.cut (x := z1) ?_ (fun h2 => ?_)
      · unfold z1
        refine Keeps.step (State.setFld_keeps ..) rfl ?_
        exact Keeps.refl _ _
      clear_value z1
      extract_lets +onlyGivenNames z3
      extract_lets +onlyGivenNames z5
      refine Keeps.cut (x := z5) ?_ (fun h6 => ?_)
      · unfold z5
        split
        · assumption
        · refine Keeps.bootTo rfl ?_
          assumption
      clear_value z5
      extract_lets +onlyGivenNames z7
      extract_lets +onlyGivenNames z8
      refine Keeps.cut (x := z8) ?_ (fun h9 => ?_)
      · unfold z8
        refine Keeps.step (State.loadMcCfg_keeps ..) rfl ?_
        assumption
      clear_value z8
      extract_lets +onlyGivenNames z10
      refine Keeps.cut (x := z10) ?_ (fun h11 => ?_)
      · unfold z10
        refine Keeps.foldl ?_ (fun _ _ _ => ?_)
        · assumption
        · refine Keeps.step (State.setFld_keeps ..) rfl ?_
          refine Keeps.step (State.loadCap_keeps ..) rfl ?_
          assumption
      clear_value z10
      extract_lets +onlyGivenNames z12
      refine Keeps.cut (x := z12) ?_ (fun h13 => ?_)
      · unfold z12
        refine Keeps.foldl ?_ (fun _ _ _ => ?_)
        · assumption
        · refine Keeps.step (State.initWrite_keeps ..) rfl ?_
          assumption
      clear_value z12
      refine Keeps.step (State.reachStage_keeps ..) rfl ?_
      refine Keeps.step (State.powerDomains_keeps ..) rfl ?_
      assumption

theorem execBootBobbinsStart_keeps (s : State) :
    KeepsR [.events, .regs, .seq] s (execBootBobbinsStart s) := by
  unfold execBootBobbinsStart
  refine KeepsR.when ?_ ?_
  · exact Keeps.refl _ _
  · extract_lets +onlyGivenNames z1
    refine Keeps.cut (x := z1) ?_ (fun h2 => ?_)
    · unfold z1
      refine Keeps.step (State.loadPackage_keeps ..) rfl ?_
      exact Keeps.refl _ _
    clear_value z1
    extract_lets +onlyGivenNames z3
    refine Keeps.cut (x := z3) ?_ (fun h4 => ?_)
    · unfold z3
      refine Keeps.step (State.reachStage_keeps ..) rfl ?_
      refine Keeps.foldl ?_ (fun _ _ _ => ?_)
      · assumption
      · refine Keeps.step (State.restart_keeps ..) rfl ?_
        assumption
    clear_value z3
    split
    · refine Keeps.step (State.reachStage_keeps ..) rfl ?_
      assumption
    · assumption

theorem execSweepEnd_keeps (failMask : Fin 16) (codes : List (ℕ × Word)) (s : State) :
    KeepsR [.events, .regs, .boot, .mem, .host] s (execSweepEnd failMask codes s) := by
  unfold execSweepEnd
  refine KeepsR.when ?_ ?_
  · exact Keeps.refl _ _
  · extract_lets +onlyGivenNames z1
    extract_lets +onlyGivenNames z2
    refine Keeps.cut (x := z2) ?_ (fun h3 => ?_)
    · unfold z2
      refine Keeps.step (State.endSweep_keeps ..) rfl ?_
      exact Keeps.refl _ _
    clear_value z2
    split
    · assumption
    · extract_lets +onlyGivenNames z4
      refine Keeps.cut (x := z4) ?_ (fun h5 => ?_)
      · unfold z4
        refine Keeps.step (State.reachStage_keeps ..) rfl ?_
        assumption
      clear_value z4
      split
      · assumption
      · split
        · extract_lets +onlyGivenNames z6
          refine Keeps.cut (x := z6) ?_ (fun h7 => ?_)
          · unfold z6
            refine Keeps.step (State.writeMcCfg_keeps ..) rfl ?_
            assumption
          clear_value z6
          refine Keeps.bootTo rfl ?_
          assumption
        · refine Keeps.step (State.hostReady_keeps ..) rfl ?_
          assumption

theorem execNoImageFillDone_keeps (s : State) :
    KeepsR [.events, .regs, .boot, .mem, .host] s (execNoImageFillDone s) := by
  unfold execNoImageFillDone
  refine KeepsR.when (Keeps.refl _ _) (Keeps.step (State.hostReady_keeps ..) rfl ?_)
  refine Keeps.many (x := s) [.mem, .boot] rfl (by intro p hp; cases p <;> first | exact absurd hp (by decide) | rfl) id (fun h => ?_) id
    (Nat.le_refl _) (Keeps.refl _ _)
  unfold Memory.wf at h ⊢
  have h' := Bool.and_eq_true_iff.mp h
  exact Bool.and_eq_true_iff.mpr ⟨storeWf_filter _ h'.1, storeWf_filterTo _ h'.2⟩

theorem execPowerOnReset_keeps (s : State) :
    KeepsR [.time, .events, .regs, .latches, .heldLo, .msix, .domains, .boot, .pins, .heads, .decode, .loop, .seq, .mem, .motion, .host, .cal, .sec, .out, .free] s (execPowerOnReset s) := by
  unfold execPowerOnReset
  refine KeepsR.next (Keeps.step (State.drawNonce_keeps ..) rfl (Keeps.step (State.setReg_keeps ..) rfl ?_))
  exact ⟨fun p hp => by cases p <;> first | exact absurd (by decide) hp | rfl, fun _ => rfl, fun _ => rfl, fun _ => (by decide : 0 < stampModulus),
    Nat.le_refl _⟩

theorem State.keepInhibit_keeps (t s : State) :
    Keeps [.regs] t (State.keepInhibit t s) := by
  unfold State.keepInhibit
  refine Keeps.foldl ?_ (fun _ _ _ => ?_)
  · exact Keeps.refl _ _
  · extract_lets +onlyGivenNames z1
    refine Keeps.step (State.setFld_keeps ..) rfl ?_
    refine Keeps.step (State.setFld_keeps ..) rfl ?_
    assumption

theorem State.keepDeviation_keeps (t s : State) :
    Keeps [.regs, .cal] t (State.keepDeviation t s) := by
  unfold State.keepDeviation
  split
  · exact Keeps.refl _ _
  · extract_lets +onlyGivenNames z1
    refine Keeps.cut (x := z1) ?_ (fun h2 => ?_)
    · unfold z1
      refine Keeps.step (State.setFld_keeps ..) rfl ?_
      exact Keeps.refl _ _
    clear_value z1
    extract_lets +onlyGivenNames z3
    refine Keeps.cut (x := z3) ?_ (fun h4 => ?_)
    · unfold z3
      refine Keeps.foldl ?_ (fun _ _ _ => ?_)
      · assumption
      · refine Keeps.step (State.setReg_keeps ..) rfl ?_
        assumption
    clear_value z3
    refine Keeps.calTo rfl ?_
    assumption

theorem execWarmReset_keeps (s : State) :
    KeepsR [.time, .events, .regs, .latches, .heldLo, .msix, .domains, .boot, .pins, .heads, .decode, .loop, .seq, .mem, .motion, .host, .cal, .sec, .out, .free] s (execWarmReset s) := by
  unfold execWarmReset
  refine KeepsR.when (Keeps.refl _ _) ?_
  refine Keeps.step (State.keepDeviation_keeps ..) rfl (Keeps.step (State.keepInhibit_keeps ..) rfl ?_)
  refine Keeps.step (State.setFld_keeps ..) rfl (Keeps.step (State.setFld_keeps ..) rfl (Keeps.step (State.setOn_keeps ..) rfl ?_))
  exact ⟨fun p hp => by cases p <;> first | exact absurd (by decide) hp | rfl, fun h => storeWf_filter _ h, fun _ => rfl, fun h => h,
    Nat.le_refl _⟩

theorem execPerstNRelease_keeps (s : State) :
    KeepsR [.boot] s (execPerstNRelease s) := by
  unfold execPerstNRelease
  refine KeepsR.when ?_ ?_
  · exact Keeps.refl _ _
  · refine Keeps.bootTo rfl ?_
    exact Keeps.refl _ _

end Sys2Proof.Machine
end

