-- ==== Sys2Proof/Laws/KeepsHeadIns.lean ====
section
/-!
SUPPORT. Laws/KeepsHeadIns.lean: which parts of a state each operation of Machine/HeadIns.lean may change, and that it keeps a sound
state sound.
-/

namespace Sys2Proof.Machine

theorem State.headIns_keeps {P : List Part} {s0 : State} {s : State} {b : Fin 24} {u : Upset} {op : ℕ}
    {f : Fin 16 → Ins → State → Effect} (hP : Part.sub [.events, .regs, .seq] P = true) (hf : ∀ a0 a1 a2, Keeps P s0 a2 → KeepsE P s0
    (f a0 a1 a2)) (hs : Keeps P s0 s) :
    KeepsR P s0 (State.headIns s b u op f) := by
  unfold State.headIns
  refine State.issue_keeps ?_ ?_ ?_
  · assumption
  · intro y1 y2 y3
    refine State.headChecks_keeps ?_ ?_ ?_
    · exact Part.sub_trans rfl hP
    · intro y4
      refine hf _ _ _ ?_
      assumption
    · assumption
  · assumption

theorem State.openArrives_keeps (s : State) (n : Fin 16) (bytes : List ℕ) (w : Waiter) :
    Keeps [.events, .regs, .heads, .decode, .seq, .mem, .motion, .out] s (State.openArrives s n bytes w) := by
  unfold State.openArrives
  extract_lets +onlyGivenNames z1
  split
  · refine Keeps.step (State.completeHead_keeps ..) rfl ?_
    exact Keeps.refl _ _
  · split
    · refine Keeps.step (State.completeHead_keeps ..) rfl ?_
      exact Keeps.refl _ _
    · extract_lets +onlyGivenNames z2
      split
      · refine Keeps.step (State.completeHead_keeps ..) rfl ?_
        exact Keeps.refl _ _
      · split
        · refine Keeps.step (State.completeHead_keeps ..) rfl ?_
          exact Keeps.refl _ _
        · extract_lets +onlyGivenNames z3
          extract_lets +onlyGivenNames z4
          refine Keeps.cut (x := z4) ?_ (fun h5 => ?_)
          · unfold z4
            refine Keeps.step (State.modHead_keeps ..) rfl ?_
            exact Keeps.refl _ _
          clear_value z4
          split
          · refine Keeps.step (State.hemRequest_keeps ..) rfl ?_
            refine Keeps.step (State.discardHeadBands_keeps ..) rfl ?_
            assumption
          · refine Keeps.step (State.openAfterHem_keeps ..) rfl ?_
            assumption

theorem execHdOpen_keeps (b : Fin 24) (u : Upset) (s : State) :
    KeepsR [.events, .regs, .heads, .decode, .seq, .mem, .motion, .out] s (execHdOpen b u s) := by
  unfold execHdOpen
  refine State.headIns_keeps ?_ ?_ ?_
  · exact rfl
  · intro y1 y2
    intro y3 y4
    refine KeepsE.bind (fun _ => ?_)
    refine State.async_keeps ?_ ?_ ?_
    · exact rfl
    · intro y5 y6 y7
      refine Keeps.step (State.openArrives_keeps ..) rfl ?_
      assumption
    · assumption
  · exact Keeps.refl _ _

theorem State.hemArrives_keeps (s : State) (n : Fin 16) (w : Waiter) :
    Keeps [.events, .regs, .heads, .decode, .seq, .mem, .motion, .out] s (State.hemArrives s n w) := by
  unfold State.hemArrives
  extract_lets +onlyGivenNames z1
  refine Keeps.cut (x := z1) ?_ (fun h2 => ?_)
  · unfold z1
    split
    · split
      · exact Keeps.refl _ _
      · refine Keeps.step (State.completeHead_keeps ..) rfl ?_
        refine Keeps.step (State.dropOpenClaim_keeps ..) rfl ?_
        refine Keeps.step (State.modHead_keeps ..) rfl ?_
        exact Keeps.refl _ _
    · exact Keeps.refl _ _
  clear_value z1
  split
  · refine Keeps.step (State.hemRequest_keeps ..) rfl ?_
    refine Keeps.step (State.discardHeadBands_keeps ..) rfl ?_
    assumption
  · refine Keeps.step (State.completeHead_keeps ..) rfl ?_
    assumption

theorem execHdHem_keeps (b : Fin 24) (u : Upset) (s : State) :
    KeepsR [.events, .regs, .heads, .decode, .seq, .mem, .motion, .out] s (execHdHem b u s) := by
  unfold execHdHem
  refine State.headIns_keeps ?_ ?_ ?_
  · exact rfl
  · intro y1 y2
    intro y3 y4
    refine State.async_keeps ?_ ?_ ?_
    · exact rfl
    · intro y5 y6 y7
      refine Keeps.step (State.hemArrives_keeps ..) rfl ?_
      assumption
    · assumption
  · exact Keeps.refl _ _

theorem State.endSeek_keeps (s : State) (n : Fin 16) (k : SeekReq) (result : ℕ) :
    Keeps [.heads, .seq] s (State.endSeek s n k result) := by
  unfold State.endSeek
  refine Keeps.step (State.completeHead_keeps ..) rfl ?_
  refine Keeps.step (State.modHead_keeps ..) rfl ?_
  exact Keeps.refl _ _

theorem State.seekMove_keeps (s : State) (n : Fin 16) (k : SeekReq) (p : ℤ) :
    Keeps [.events, .regs, .heads, .seq, .motion] s (State.seekMove s n k p) := by
  unfold State.seekMove
  extract_lets +onlyGivenNames z1
  split
  · refine Keeps.step (State.endSeek_keeps ..) rfl ?_
    exact Keeps.refl _ _
  · extract_lets +onlyGivenNames z2
    refine Keeps.cut (x := z2) ?_ (fun h3 => ?_)
    · unfold z2
      refine Keeps.step (State.sledCommand_keeps ..) rfl ?_
      refine Keeps.step (State.writeTarget_keeps ..) rfl ?_
      exact Keeps.refl _ _
    clear_value z2
    refine Keeps.step (State.modHead_keeps ..) rfl ?_
    assumption

theorem State.seekArrives_keeps (s : State) (n : Fin 16) (track : ℕ) (w : Waiter) :
    Keeps [.events, .regs, .heads, .decode, .seq, .mem, .motion, .out] s (State.seekArrives s n track w) := by
  unfold State.seekArrives
  extract_lets +onlyGivenNames z1
  extract_lets +onlyGivenNames z2
  split
  · refine Keeps.step (State.completeHead_keeps ..) rfl ?_
    exact Keeps.refl _ _
  · extract_lets +onlyGivenNames z3
    split
    · extract_lets +onlyGivenNames z4
      refine Keeps.cut (x := z4) ?_ (fun h5 => ?_)
      · unfold z4
        refine Keeps.step (State.modHead_keeps ..) rfl ?_
        exact Keeps.refl _ _
      clear_value z4
      refine Keeps.step (State.hemRequest_keeps ..) rfl ?_
      refine Keeps.step (State.discardHeadBands_keeps ..) rfl ?_
      assumption
    · refine Keeps.step (State.seekMove_keeps ..) rfl ?_
      exact Keeps.refl _ _

theorem execHdSeek_keeps (b : Fin 24) (u : Upset) (s : State) :
    KeepsR [.events, .regs, .heads, .decode, .seq, .mem, .motion, .out] s (execHdSeek b u s) := by
  unfold execHdSeek
  refine State.headIns_keeps ?_ ?_ ?_
  · exact rfl
  · intro y1 y2
    intro y3 y4
    extract_lets +onlyGivenNames z5
    refine State.async_keeps ?_ ?_ ?_
    · exact rfl
    · intro y6 y7 y8
      refine Keeps.step (State.seekArrives_keeps ..) rfl ?_
      assumption
    · assumption
  · exact Keeps.refl _ _

theorem State.seekSequence_keeps (s : State) (n : Fin 16) (k : SeekReq) (kind : SeqKind) (stage : SeekStage) :
    Keeps [.regs, .heads, .loop, .seq] s (State.seekSequence s n k kind stage) := by
  unfold State.seekSequence
  split
  · refine Keeps.step (State.endSeek_keeps ..) rfl ?_
    exact Keeps.refl _ _
  · extract_lets +onlyGivenNames z1
    refine Keeps.cut (x := z1) ?_ (fun h2 => ?_)
    · unfold z1
      refine Keeps.step (State.modHead_keeps ..) rfl ?_
      exact Keeps.refl _ _
    clear_value z1
    refine Keeps.step (State.seqBegin_keeps ..) rfl ?_
    assumption

theorem State.seekCorrect_keeps (s : State) (n : Fin 16) (k : SeekReq) :
    Keeps [.events, .regs, .heads, .loop, .seq, .motion] s (State.seekCorrect s n k) := by
  unfold State.seekCorrect
  split
  · exact Keeps.refl _ _
  · extract_lets +onlyGivenNames z1
    split
    · refine Keeps.step (State.endSeek_keeps ..) rfl ?_
      exact Keeps.refl _ _
    · split
      · refine Keeps.step (State.endSeek_keeps ..) rfl ?_
        exact Keeps.refl _ _
      · extract_lets +onlyGivenNames z2
        split
        · refine Keeps.step (State.seekSequence_keeps ..) rfl ?_
          exact Keeps.refl _ _
        · extract_lets +onlyGivenNames z3
          refine Keeps.step (State.seekMove_keeps ..) rfl ?_
          exact Keeps.refl _ _

theorem execSeekStep_keeps (head : Fin 16) (s : State) :
    KeepsR [.events, .regs, .heads, .loop, .seq, .motion] s (execSeekStep head s) := by
  unfold execSeekStep
  split
  · refine KeepsR.next ?_
    exact Keeps.refl _ _
  · extract_lets +onlyGivenNames z1
    extract_lets +onlyGivenNames z2
    split
    · refine KeepsR.next ?_
      exact Keeps.refl _ _
    · refine KeepsR.next ?_
      refine Keeps.step (State.seekMove_keeps ..) rfl ?_
      exact Keeps.refl _ _
    · split
      · refine KeepsR.next ?_
        refine Keeps.step (State.endSeek_keeps ..) rfl ?_
        exact Keeps.refl _ _
      · refine KeepsR.when ?_ ?_
        · exact Keeps.refl _ _
        · refine Keeps.step (State.seekSequence_keeps ..) rfl ?_
          exact Keeps.refl _ _
    · refine KeepsR.next ?_
      refine Keeps.step (State.modHead_keeps ..) rfl ?_
      exact Keeps.refl _ _
    · refine KeepsR.next ?_
      refine Keeps.step (State.seekCorrect_keeps ..) rfl ?_
      exact Keeps.refl _ _
    · refine KeepsR.next ?_
      refine Keeps.step (State.modHead_keeps ..) rfl ?_
      exact Keeps.refl _ _
    · refine KeepsR.next ?_
      refine Keeps.step (State.modHead_keeps ..) rfl ?_
      exact Keeps.refl _ _
    · refine KeepsR.next ?_
      refine Keeps.step (State.endSeek_keeps ..) rfl ?_
      exact Keeps.refl _ _
    · refine KeepsR.next ?_
      refine Keeps.step (State.endSeek_keeps ..) rfl ?_
      exact Keeps.refl _ _
    · refine KeepsR.next ?_
      exact Keeps.refl _ _
    · refine KeepsR.next ?_
      exact Keeps.refl _ _
    · refine KeepsR.when ?_ ?_
      · exact Keeps.refl _ _
      · refine Keeps.step (State.seekCorrect_keeps ..) rfl ?_
        exact Keeps.refl _ _

theorem execSeekAddressTimeout_keeps (head : Fin 16) (s : State) :
    KeepsR [.heads, .seq] s (execSeekAddressTimeout head s) := by
  unfold execSeekAddressTimeout
  split
  · split
    · refine KeepsR.when ?_ ?_
      · exact Keeps.refl _ _
      · refine Keeps.step (State.endSeek_keeps ..) rfl ?_
        exact Keeps.refl _ _
    · refine KeepsR.next ?_
      exact Keeps.refl _ _
  · refine KeepsR.next ?_
    exact Keeps.refl _ _

theorem State.sequenceRefused_keeps (s : State) (n : Fin 16) (kind : SeqKind) (r : ℕ) (w : Waiter) :
    Keeps [.events, .regs, .seq] s (State.sequenceRefused s n kind r w) := by
  unfold State.sequenceRefused
  extract_lets +onlyGivenNames z1
  refine Keeps.cut (x := z1) ?_ (fun h2 => ?_)
  · unfold z1
    refine Keeps.step (State.setFld_keeps ..) rfl ?_
    exact Keeps.refl _ _
  clear_value z1
  refine Keeps.step (State.complete_keeps ..) rfl ?_
  refine Keeps.step (State.logLoop_keeps ..) rfl ?_
  assumption

theorem State.sequenceArrives_keeps (s : State) (n : Fin 16) (kind : SeqKind) (w : Waiter) :
    Keeps [.events, .regs, .loop, .seq] s (State.sequenceArrives s n kind w) := by
  unfold State.sequenceArrives
  split
  · refine Keeps.step (State.sequenceRefused_keeps ..) rfl ?_
    exact Keeps.refl _ _
  · split
    · refine Keeps.step (State.sequenceRefused_keeps ..) rfl ?_
      exact Keeps.refl _ _
    · refine Keeps.step (State.seqBegin_keeps ..) rfl ?_
      exact Keeps.refl _ _

theorem execHdFocus_keeps (b : Fin 24) (u : Upset) (s : State) :
    KeepsR [.events, .regs, .loop, .seq] s (execHdFocus b u s) := by
  unfold execHdFocus
  refine State.headIns_keeps ?_ ?_ ?_
  · exact rfl
  · intro y1 y2
    intro y3 y4
    extract_lets +onlyGivenNames z5
    refine State.async_keeps ?_ ?_ ?_
    · exact rfl
    · intro y6 y7 y8
      refine Keeps.step (State.sequenceArrives_keeps ..) rfl ?_
      assumption
    · assumption
  · exact Keeps.refl _ _

theorem execHdLjump_keeps (b : Fin 24) (u : Upset) (s : State) :
    KeepsR [.events, .regs, .loop, .seq] s (execHdLjump b u s) := by
  unfold execHdLjump
  refine State.headIns_keeps ?_ ?_ ?_
  · exact rfl
  · intro y1 y2
    intro y3 y4
    split
    · exact KeepsE.error
    · refine State.async_keeps ?_ ?_ ?_
      · exact rfl
      · intro y5 y6 y7
        refine Keeps.step (State.sequenceArrives_keeps ..) rfl ?_
        assumption
      · assumption
  · exact Keeps.refl _ _

theorem execHdTrkon_keeps (b : Fin 24) (u : Upset) (s : State) :
    KeepsR [.events, .regs, .loop, .seq] s (execHdTrkon b u s) := by
  unfold execHdTrkon
  refine State.headIns_keeps ?_ ?_ ?_
  · exact rfl
  · intro y1 y2
    intro y3 y4
    refine State.async_keeps ?_ ?_ ?_
    · exact rfl
    · intro y5 y6 y7
      refine Keeps.step (State.sequenceArrives_keeps ..) rfl ?_
      assumption
    · assumption
  · exact Keeps.refl _ _

theorem execHdSjump_keeps (b : Fin 24) (u : Upset) (s : State) :
    KeepsR [.events, .regs, .loop, .seq] s (execHdSjump b u s) := by
  unfold execHdSjump
  refine State.headIns_keeps ?_ ?_ ?_
  · exact rfl
  · intro y1 y2
    intro y3 y4
    split
    · exact KeepsE.error
    · refine State.async_keeps ?_ ?_ ?_
      · exact rfl
      · intro y5 y6 y7
        refine Keeps.step (State.sequenceArrives_keeps ..) rfl ?_
        assumption
      · assumption
  · exact Keeps.refl _ _

theorem State.feArrives_keeps (s : State) (n : Fin 16) (k : FeKind) (m : Msg) (w : Waiter) :
    Keeps [.heads, .seq] s (State.feArrives s n k m w) := by
  unfold State.feArrives
  split
  · refine Keeps.step (State.completeHead_keeps ..) rfl ?_
    exact Keeps.refl _ _
  · extract_lets +onlyGivenNames z1
    refine Keeps.cut (x := z1) ?_ (fun h2 => ?_)
    · unfold z1
      refine Keeps.step (State.modHead_keeps ..) rfl ?_
      exact Keeps.refl _ _
    clear_value z1
    refine Keeps.step (State.sendMsg_keeps ..) rfl ?_
    assumption

theorem execHdSafe_keeps (b : Fin 24) (u : Upset) (s : State) :
    KeepsR [.events, .regs, .heads, .seq] s (execHdSafe b u s) := by
  unfold execHdSafe
  refine State.headIns_keeps ?_ ?_ ?_
  · exact rfl
  · intro y1 y2
    intro y3 y4
    split
    · exact KeepsE.error
    · refine State.async_keeps ?_ ?_ ?_
      · exact rfl
      · intro y5 y6 y7
        split
        · refine Keeps.step (State.feArrives_keeps ..) rfl ?_
          assumption
        · refine Keeps.step (State.feArrives_keeps ..) rfl ?_
          assumption
      · assumption
  · exact Keeps.refl _ _

theorem execHdFewr_keeps (b : Fin 24) (u : Upset) (s : State) :
    KeepsR [.events, .regs, .heads, .seq] s (execHdFewr b u s) := by
  unfold execHdFewr
  refine State.headIns_keeps ?_ ?_ ?_
  · exact rfl
  · intro y1 y2
    intro y3 y4
    extract_lets +onlyGivenNames z5
    refine State.async_keeps ?_ ?_ ?_
    · exact rfl
    · intro y6 y7 y8
      refine Keeps.step (State.feArrives_keeps ..) rfl ?_
      assumption
    · assumption
  · exact Keeps.refl _ _

theorem execHdFerd_keeps (b : Fin 24) (u : Upset) (s : State) :
    KeepsR [.events, .regs, .heads, .seq] s (execHdFerd b u s) := by
  unfold execHdFerd
  refine State.headIns_keeps ?_ ?_ ?_
  · exact rfl
  · intro y1 y2
    intro y3 y4
    extract_lets +onlyGivenNames z5
    refine State.async_keeps ?_ ?_ ?_
    · exact rfl
    · intro y6 y7 y8
      refine Keeps.step (State.feArrives_keeps ..) rfl ?_
      assumption
    · assumption
  · exact Keeps.refl _ _

theorem execFrontEndReplyTimeout_keeps (head : Fin 16) (s : State) :
    KeepsR [.heads, .seq] s (execFrontEndReplyTimeout head s) := by
  unfold execFrontEndReplyTimeout
  split
  · refine KeepsR.next ?_
    exact Keeps.refl _ _
  · refine KeepsR.when ?_ ?_
    · exact Keeps.refl _ _
    · refine Keeps.step (State.completeHead_keeps ..) rfl ?_
      refine Keeps.step (State.modHead_keeps ..) rfl ?_
      exact Keeps.refl _ _

theorem execHdHk_keeps (b : Fin 24) (u : Upset) (s : State) :
    KeepsR [.events, .regs, .seq] s (execHdHk b u s) := by
  unfold execHdHk
  refine State.headIns_keeps ?_ ?_ ?_
  · exact rfl
  · intro y1 y2
    intro y3 y4
    extract_lets +onlyGivenNames z5
    refine KeepsE.ok ?_
    refine Keeps.step (State.setG_keeps ..) rfl ?_
    assumption
  · exact Keeps.refl _ _

theorem execHdStat_keeps (b : Fin 24) (u : Upset) (s : State) :
    KeepsR [.events, .regs, .seq] s (execHdStat b u s) := by
  unfold execHdStat
  refine State.headIns_keeps ?_ ?_ ?_
  · exact rfl
  · intro y1 y2
    intro y3 y4
    refine KeepsE.ok ?_
    refine Keeps.step (State.setG_keeps ..) rfl ?_
    assumption
  · exact Keeps.refl _ _

end Sys2Proof.Machine
end

