-- ==== Sys2Proof/Laws/KeepsSpindle.lean ====
section
/-!
SUPPORT. Laws/KeepsSpindle.lean: which parts of a state each operation of Machine/Spindle.lean may change, and that it keeps a sound
state sound.
-/

namespace Sys2Proof.Machine

theorem State.noteCrossing_keeps (s : State) (sec : ℕ) (stamp : Stamp) :
    Keeps [.regs, .motion] s (State.noteCrossing s sec stamp) := by
  unfold State.noteCrossing
  extract_lets +onlyGivenNames z1
  refine Keeps.step (State.showSpin_keeps ..) rfl ?_
  refine Keeps.step (State.modSpin_keeps ..) rfl ?_
  exact Keeps.refl _ _

theorem execBemfCrossing_keeps (phase : Fin 3) (rising : Bool) (stamp : Stamp) (s : State) :
    KeepsR [.events, .regs, .motion] s (execBemfCrossing phase rising stamp s) := by
  unfold execBemfCrossing
  extract_lets +onlyGivenNames z1
  extract_lets +onlyGivenNames z2
  split
  · extract_lets +onlyGivenNames z3
    refine KeepsR.when ?_ ?_
    · exact Keeps.refl _ _
    · extract_lets +onlyGivenNames z4
      refine Keeps.cut (x := z4) ?_ (fun h5 => ?_)
      · unfold z4
        refine Keeps.step (State.noteCrossing_keeps ..) rfl ?_
        exact Keeps.refl _ _
      clear_value z4
      extract_lets +onlyGivenNames z6
      refine Keeps.cut (x := z6) ?_ (fun h7 => ?_)
      · unfold z6
        refine Keeps.step (State.modSpin_keeps ..) rfl ?_
        assumption
      clear_value z6
      refine Keeps.step (State.overSpeed_keeps ..) rfl ?_
      refine Keeps.step (State.showSpin_keeps ..) rfl ?_
      assumption
  · extract_lets +onlyGivenNames z8
    refine KeepsR.when ?_ ?_
    · exact Keeps.refl _ _
    · extract_lets +onlyGivenNames z9
      refine Keeps.cut (x := z9) ?_ (fun h10 => ?_)
      · unfold z9
        refine Keeps.step (State.noteCrossing_keeps ..) rfl ?_
        exact Keeps.refl _ _
      clear_value z9
      extract_lets +onlyGivenNames z11
      refine Keeps.cut (x := z11) ?_ (fun h12 => ?_)
      · unfold z11
        refine Keeps.step (State.modSpin_keeps ..) rfl ?_
        assumption
      clear_value z11
      refine Keeps.step (State.overSpeed_keeps ..) rfl ?_
      refine Keeps.step (State.showSpin_keeps ..) rfl ?_
      assumption
  · refine KeepsR.when ?_ ?_
    · exact Keeps.refl _ _
    · refine Keeps.step (State.showSpin_keeps ..) rfl ?_
      refine Keeps.step (State.modSpin_keeps ..) rfl ?_
      exact Keeps.refl _ _
  · extract_lets +onlyGivenNames z13
    extract_lets +onlyGivenNames z14
    refine KeepsR.cut (x := z14) ?_ (fun h15 => ?_)
    · unfold z14
      refine Keeps.step (State.noteCrossing_keeps ..) rfl ?_
      exact Keeps.refl _ _
    clear_value z14
    extract_lets +onlyGivenNames z16
    refine KeepsR.cut (x := z16) ?_ (fun h17 => ?_)
    · unfold z16
      refine Keeps.step (State.modSpin_keeps ..) rfl ?_
      assumption
    clear_value z16
    extract_lets +onlyGivenNames z18
    extract_lets +onlyGivenNames z19
    extract_lets +onlyGivenNames z20
    split
    · extract_lets +onlyGivenNames z21
      extract_lets +onlyGivenNames z22
      refine KeepsR.cut (x := z22) ?_ (fun h23 => ?_)
      · unfold z22
        refine Keeps.step (State.modSpin_keeps ..) rfl ?_
        assumption
      clear_value z22
      extract_lets +onlyGivenNames z24
      refine KeepsR.cut (x := z24) ?_ (fun h25 => ?_)
      · unfold z24
        refine Keeps.step (State.modSpin_keeps ..) rfl ?_
        assumption
      clear_value z24
      refine KeepsR.next ?_
      refine Keeps.step (State.enterRun_keeps ..) rfl ?_
      refine Keeps.step (State.showSpin_keeps ..) rfl ?_
      assumption
    · refine KeepsR.next ?_
      assumption
  · refine KeepsR.next ?_
    exact Keeps.refl _ _
  · split
    · extract_lets +onlyGivenNames z26
      extract_lets +onlyGivenNames z27
      split
      · extract_lets +onlyGivenNames z28
        refine KeepsR.cut (x := z28) ?_ (fun h29 => ?_)
        · unfold z28
          refine Keeps.step (State.modSpin_keeps ..) rfl ?_
          exact Keeps.refl _ _
        clear_value z28
        refine KeepsR.next ?_
        refine Keeps.step (State.logMot_keeps ..) rfl ?_
        refine Keeps.step (State.showSpin_keeps ..) rfl ?_
        assumption
      · refine KeepsR.next ?_
        refine Keeps.step (State.noteCrossing_keeps ..) rfl ?_
        exact Keeps.refl _ _
    · refine KeepsR.next ?_
      refine Keeps.step (State.modSpin_keeps ..) rfl ?_
      exact Keeps.refl _ _
  · refine KeepsR.next ?_
    refine Keeps.step (State.noteCrossing_keeps ..) rfl ?_
    exact Keeps.refl _ _
  · refine KeepsR.next ?_
    refine Keeps.step (State.noteCrossing_keeps ..) rfl ?_
    exact Keeps.refl _ _
  · refine KeepsR.next ?_
    exact Keeps.refl _ _

theorem execCommutation_keeps (s : State) :
    KeepsR [.events, .regs, .motion] s (execCommutation s) := by
  unfold execCommutation
  extract_lets +onlyGivenNames z1
  split
  · refine KeepsR.next ?_
    exact Keeps.refl _ _
  · refine KeepsR.when ?_ ?_
    · exact Keeps.refl _ _
    · extract_lets +onlyGivenNames z2
      refine Keeps.cut (x := z2) ?_ (fun h3 => ?_)
      · unfold z2
        refine Keeps.step (State.modSpin_keeps ..) rfl ?_
        exact Keeps.refl _ _
      clear_value z2
      split
      · extract_lets +onlyGivenNames z4
        refine Keeps.cut (x := z4) ?_ (fun h5 => ?_)
        · unfold z4
          refine Keeps.step (State.modSpin_keeps ..) rfl ?_
          assumption
        clear_value z4
        split
        · refine Keeps.step (State.resumeRun_keeps ..) rfl ?_
          assumption
        · refine Keeps.step (State.enterRun_keeps ..) rfl ?_
          assumption
      · refine Keeps.step (State.showSpin_keeps ..) rfl ?_
        assumption

theorem State.rotorLost_keeps (s : State) (tl : Stamp) :
    Keeps [.events, .regs, .heads, .decode, .mem, .motion, .out] s (State.rotorLost s tl) := by
  unfold State.rotorLost
  extract_lets +onlyGivenNames z1
  extract_lets +onlyGivenNames z2
  refine Keeps.cut (x := z2) ?_ (fun h3 => ?_)
  · unfold z2
    refine Keeps.step (State.modSpin_keeps ..) rfl ?_
    exact Keeps.refl _ _
  clear_value z2
  extract_lets +onlyGivenNames z4
  refine Keeps.cut (x := z4) ?_ (fun h5 => ?_)
  · unfold z4
    refine Keeps.step (State.spinTo_keeps ..) rfl ?_
    assumption
  clear_value z4
  extract_lets +onlyGivenNames z6
  refine Keeps.cut (x := z6) ?_ (fun h7 => ?_)
  · unfold z6
    refine Keeps.step (State.modSpin_keeps ..) rfl ?_
    assumption
  clear_value z6
  extract_lets +onlyGivenNames z8
  refine Keeps.cut (x := z8) ?_ (fun h9 => ?_)
  · unfold z8
    refine Keeps.step (State.logMot_keeps ..) rfl ?_
    assumption
  clear_value z8
  extract_lets +onlyGivenNames z10
  refine Keeps.cut (x := z10) ?_ (fun h11 => ?_)
  · unfold z10
    refine Keeps.step (State.hemAll_keeps ..) rfl ?_
    assumption
  clear_value z10
  split
  · refine Keeps.step (State.controlledStop_keeps ..) rfl ?_
    assumption
  · split
    · refine Keeps.step (State.failAttempt_keeps ..) rfl ?_
      assumption
    · assumption

theorem execForcedCommutation_keeps (s : State) :
    KeepsR [.events, .regs, .heads, .decode, .mem, .motion, .out] s (execForcedCommutation s) := by
  unfold execForcedCommutation
  extract_lets +onlyGivenNames z1
  extract_lets +onlyGivenNames z2
  extract_lets +onlyGivenNames z3
  refine KeepsR.when ?_ ?_
  · exact Keeps.refl _ _
  · split
    · refine Keeps.step (State.rotorLost_keeps ..) rfl ?_
      exact Keeps.refl _ _
    · refine Keeps.step (State.showSpin_keeps ..) rfl ?_
      refine Keeps.step (State.modSpin_keeps ..) rfl ?_
      exact Keeps.refl _ _

theorem execLostRotorTimeout_keeps (s : State) :
    KeepsR [.events, .regs, .motion] s (execLostRotorTimeout s) := by
  unfold execLostRotorTimeout
  extract_lets +onlyGivenNames z1
  refine KeepsR.when ?_ ?_
  · exact Keeps.refl _ _
  · refine Keeps.step (State.controlledStop_keeps ..) rfl ?_
    refine Keeps.step (State.logMot_keeps ..) rfl ?_
    exact Keeps.refl _ _

theorem State.spinAlign_keeps (s : State) (path : ℕ) :
    Keeps [.regs, .motion] s (State.spinAlign s path) := by
  unfold State.spinAlign
  extract_lets +onlyGivenNames z1
  refine Keeps.step (State.spinTo_keeps ..) rfl ?_
  refine Keeps.step (State.modSpin_keeps ..) rfl ?_
  exact Keeps.refl _ _

theorem execListenEnd_keeps (s : State) :
    KeepsR [.regs, .motion] s (execListenEnd s) := by
  unfold execListenEnd
  extract_lets +onlyGivenNames z1
  extract_lets +onlyGivenNames z2
  extract_lets +onlyGivenNames z3
  extract_lets +onlyGivenNames z4
  extract_lets +onlyGivenNames z5
  refine KeepsR.when ?_ ?_
  · exact Keeps.refl _ _
  · split
    · split
      · refine Keeps.step (State.spinTo_keeps ..) rfl ?_
        refine Keeps.step (State.modSpin_keeps ..) rfl ?_
        exact Keeps.refl _ _
      · split
        · refine Keeps.step (State.spinTo_keeps ..) rfl ?_
          refine Keeps.step (State.modSpin_keeps ..) rfl ?_
          exact Keeps.refl _ _
        · refine Keeps.step (State.spinAlign_keeps ..) rfl ?_
          exact Keeps.refl _ _
    · split
      · refine Keeps.step (State.spinAlign_keeps ..) rfl ?_
        exact Keeps.refl _ _
      · refine Keeps.step (State.spinTo_keeps ..) rfl ?_
        exact Keeps.refl _ _
    · split
      · refine Keeps.step (State.spinTo_keeps ..) rfl ?_
        exact Keeps.refl _ _
      · refine Keeps.step (State.spinTo_keeps ..) rfl ?_
        exact Keeps.refl _ _
    · exact Keeps.refl _ _

theorem execBrakeBurstEnd_keeps (s : State) :
    KeepsR [.regs, .motion] s (execBrakeBurstEnd s) := by
  unfold execBrakeBurstEnd
  extract_lets +onlyGivenNames z1
  refine KeepsR.when ?_ ?_
  · exact Keeps.refl _ _
  · refine Keeps.step (State.spinListen_keeps ..) rfl ?_
    exact Keeps.refl _ _

theorem execAlignEnd_keeps (s : State) :
    KeepsR [.regs, .motion] s (execAlignEnd s) := by
  unfold execAlignEnd
  extract_lets +onlyGivenNames z1
  refine KeepsR.when ?_ ?_
  · exact Keeps.refl _ _
  · refine Keeps.step (State.spinTo_keeps ..) rfl ?_
    refine Keeps.step (State.modSpin_keeps ..) rfl ?_
    exact Keeps.refl _ _

theorem execOpenLoopCommutation_keeps (s : State) :
    KeepsR [.events, .regs, .heads, .decode, .mem, .motion, .out] s (execOpenLoopCommutation s) := by
  unfold execOpenLoopCommutation
  extract_lets +onlyGivenNames z1
  extract_lets +onlyGivenNames z2
  extract_lets +onlyGivenNames z3
  extract_lets +onlyGivenNames z4
  refine KeepsR.when ?_ ?_
  · exact Keeps.refl _ _
  · split
    · refine Keeps.step (State.failAttempt_keeps ..) rfl ?_
      exact Keeps.refl _ _
    · refine Keeps.step (State.showSpin_keeps ..) rfl ?_
      refine Keeps.step (State.modSpin_keeps ..) rfl ?_
      exact Keeps.refl _ _

theorem execStopShortEnd_keeps (s : State) :
    KeepsR [.regs, .motion] s (execStopShortEnd s) := by
  unfold execStopShortEnd
  extract_lets +onlyGivenNames z1
  refine KeepsR.when ?_ ?_
  · exact Keeps.refl _ _
  · refine Keeps.step (State.spinStopped_keeps ..) rfl ?_
    exact Keeps.refl _ _

theorem execSpindleBridgeFault_keeps (s : State) :
    KeepsR [.events, .regs, .heads, .decode, .mem, .motion, .out] s (execSpindleBridgeFault s) := by
  unfold execSpindleBridgeFault
  extract_lets +onlyGivenNames z1
  refine KeepsR.next ?_
  refine Keeps.step (State.logMot_keeps ..) rfl ?_
  refine Keeps.step (State.spinFault_keeps ..) rfl ?_
  exact Keeps.refl _ _

theorem execSpindleOverCurrent_keeps (first : ℤ) (second : ℤ) (s : State) :
    KeepsR [.events, .regs, .heads, .decode, .mem, .motion, .out] s (execSpindleOverCurrent first second s) := by
  unfold execSpindleOverCurrent
  extract_lets +onlyGivenNames z1
  extract_lets +onlyGivenNames z2
  refine KeepsR.when ?_ ?_
  · exact Keeps.refl _ _
  · extract_lets +onlyGivenNames z3
    extract_lets +onlyGivenNames z4
    refine Keeps.cut (x := z4) ?_ (fun h5 => ?_)
    · unfold z4
      refine Keeps.step (State.logMot_keeps ..) rfl ?_
      exact Keeps.refl _ _
    clear_value z4
    split
    · refine Keeps.step (State.failAttempt_keeps ..) rfl ?_
      assumption
    · refine Keeps.step (State.failAttempt_keeps ..) rfl ?_
      assumption
    · refine Keeps.step (State.failAttempt_keeps ..) rfl ?_
      assumption
    · refine Keeps.step (State.failAttempt_keeps ..) rfl ?_
      assumption
    · refine Keeps.step (State.spinFault_keeps ..) rfl ?_
      assumption

theorem execSpindleDemand_keeps (demand : ℤ) (s : State) :
    KeepsR [.motion] s (execSpindleDemand demand s) := by
  unfold execSpindleDemand
  refine KeepsR.next ?_
  refine Keeps.step (State.spinDemand_keeps ..) rfl ?_
  exact Keeps.refl _ _

theorem execGovernorUpdate_keeps (s : State) :
    KeepsR [.regs, .motion] s (execGovernorUpdate s) := by
  unfold execGovernorUpdate
  refine KeepsR.when ?_ ?_
  · exact Keeps.refl _ _
  · extract_lets +onlyGivenNames z1
    refine Keeps.cut (x := z1) ?_ (fun h2 => ?_)
    · unfold z1
      refine Keeps.step (State.updateGov_keeps ..) rfl ?_
      exact Keeps.refl _ _
    clear_value z1
    extract_lets +onlyGivenNames z3
    extract_lets +onlyGivenNames z4
    extract_lets +onlyGivenNames z5
    refine Keeps.step (State.rampDone_keeps ..) rfl ?_
    refine Keeps.step (State.setFld_keeps ..) rfl ?_
    assumption

theorem execThermalModelUpdate_keeps (s : State) :
    KeepsR [.motion] s (execThermalModelUpdate s) := by
  unfold execThermalModelUpdate
  refine KeepsR.when ?_ ?_
  · exact Keeps.refl _ _
  · extract_lets +onlyGivenNames z1
    extract_lets +onlyGivenNames z2
    extract_lets +onlyGivenNames z3
    extract_lets +onlyGivenNames z4
    refine Keeps.step (State.modSpin_keeps ..) rfl ?_
    exact Keeps.refl _ _

theorem execPwmPeriod_keeps (current : ℤ) (s : State) :
    KeepsR [.regs, .motion] s (execPwmPeriod current s) := by
  unfold execPwmPeriod
  refine KeepsR.when ?_ ?_
  · exact Keeps.refl _ _
  · extract_lets +onlyGivenNames z1
    extract_lets +onlyGivenNames z2
    refine Keeps.cut (x := z2) ?_ (fun h3 => ?_)
    · unfold z2
      refine Keeps.step (State.modSpin_keeps ..) rfl ?_
      exact Keeps.refl _ _
    clear_value z2
    extract_lets +onlyGivenNames z4
    refine Keeps.cut (x := z4) ?_ (fun h5 => ?_)
    · unfold z4
      refine Keeps.step (State.showSpin_keeps ..) rfl ?_
      assumption
    clear_value z4
    extract_lets +onlyGivenNames z6
    extract_lets +onlyGivenNames z7
    extract_lets +onlyGivenNames z8
    extract_lets +onlyGivenNames z9
    extract_lets +onlyGivenNames z10
    extract_lets +onlyGivenNames z11
    refine Keeps.motionTo rfl ?_
    assumption

theorem execClaimSatisfied_keeps (head : Fin 16) (s : State) :
    KeepsR [.regs, .heads, .seq, .motion] s (execClaimSatisfied head s) := by
  unfold execClaimSatisfied
  split
  · refine KeepsR.when ?_ ?_
    · exact Keeps.refl _ _
    · extract_lets +onlyGivenNames z1
      extract_lets +onlyGivenNames z2
      split
      · refine Keeps.step (State.modHead_keeps ..) rfl ?_
        exact Keeps.refl _ _
      · extract_lets +onlyGivenNames z3
        refine Keeps.cut (x := z3) ?_ (fun h4 => ?_)
        · unfold z3
          refine Keeps.step (State.dropOpenClaim_keeps ..) rfl ?_
          refine Keeps.step (State.modHead_keeps ..) rfl ?_
          exact Keeps.refl _ _
        clear_value z3
        refine Keeps.step (State.completeHead_keeps ..) rfl ?_
        assumption
  · refine KeepsR.next ?_
    exact Keeps.refl _ _

end Sys2Proof.Machine
end

