-- ==== Sys2Proof/Laws/State.lean ====
section
/-!
SUPPORT. Laws/State.lean: reads of registers and fields after a write; and for each update of the state, what it leaves of each
field.
-/

namespace Sys2Proof.Machine

/-! ## Registers -/

@[simp] theorem State.reg_setReg_self (s : State) (k : Nat) (w : Word) : (s.setReg k w).reg k = w := storeGet_put_self

theorem State.reg_setReg_other (s : State) {k j : Nat} (w : Word) (h : j ≠ k) : (s.setReg k w).reg j = s.reg j := storeGet_put_other h

theorem State.reg_setReg (s : State) (k j : Nat) (w : Word) : (s.setReg k w).reg j = if j = k then w else s.reg j := by
  split
  · subst j; exact s.reg_setReg_self k w
  · exact s.reg_setReg_other w ‹_›

@[simp] theorem State.reg_resetReg_self (s : State) (k : Nat) : (s.resetReg k).reg k = regReset k := s.reg_setReg_self k _

@[simp] theorem State.reg_setFld_self (s : State) (k : Nat) (p : FieldPos) (v : Nat) : (s.setFld k p v).reg k = setField (s.reg k) p v :=
  s.reg_setReg_self k _

theorem State.reg_setFld_other (s : State) {k j : Nat} (p : FieldPos) (v : Nat) (h : j ≠ k) : (s.setFld k p v).reg j = s.reg j :=
  s.reg_setReg_other _ h

theorem State.regsBut_setReg (s : State) (k : Nat) (w : Word) : RegsBut [k] s (s.setReg k w) :=
  fun _ h => s.reg_setReg_other w (by simpa using h)

theorem RegsBut.refl (ks : List Nat) (s : State) : RegsBut ks s s := fun _ _ => rfl

theorem RegsBut.trans {ks : List Nat} {s t u : State} (h : RegsBut ks s t) (h' : RegsBut ks t u) : RegsBut ks s u :=
  fun k hk => (h' k hk).trans (h k hk)

theorem RegsBut.mono {ks ls : List Nat} {s t : State} (h : RegsBut ks s t) (hs : ∀ k ∈ ks, k ∈ ls) : RegsBut ls s t :=
  fun k hk => h k fun hm => hk (hs k hm)

theorem regsWf_setReg {s : State} (k : Nat) (w : Word) (h : regsWf s = true) : regsWf (s.setReg k w) = true := storeWf_put h

/-- A fold that writes each register of a list. -/
theorem State.reg_foldl_setReg (l : List Nat) (key : Nat → Nat) (w : Word) (s : State) (k : Nat) :
    (l.foldl (fun (t : State) c => t.setReg (key c) w) s).reg k = if k ∈ l.map key then w else s.reg k := by
  induction l generalizing s with
  | nil => simp
  | cons c l ih =>
    rw [List.foldl_cons, ih, State.reg_setReg]
    by_cases h : k ∈ l.map key
    · simp [h]
    · by_cases h' : k = key c <;> simp [h', h]

/-- The same fold changes the registers alone. -/
theorem State.foldl_setReg (l : List Nat) (key : Nat → Nat) (w : Word) (s : State) :
    l.foldl (fun (t : State) c => t.setReg (key c) w) s =
      { s with regs := l.foldl (fun r c => storePut regReset (key c) w r) s.regs } := by
  induction l generalizing s with
  | nil => rfl
  | cons c l ih => rw [List.foldl_cons, ih]; rfl

theorem regsWf_foldl_setReg (l : List Nat) (key : Nat → Nat) (w : Word) (s : State) (h : regsWf s = true) :
    regsWf (l.foldl (fun (t : State) c => t.setReg (key c) w) s) = true := by
  induction l generalizing s with
  | nil => exact h
  | cons c l ih => exact ih _ (regsWf_setReg _ _ h)

/-- A stamp cell's stamp lies within one tick of the counter (R22). -/
theorem State.cellStamp_le (s : State) : s.cellStamp ≤ s.now + 1 := by
  show (s.now + (Config.stampResidual stampCellIndex s.now).val - 1 : Nat) ≤ (s.now + 1 : Nat)
  have h : (Config.stampResidual stampCellIndex s.now).val < 3 := (Config.stampResidual stampCellIndex s.now).isLt
  generalize (Config.stampResidual stampCellIndex s.now).val = x at h ⊢
  generalize s.now = y
  exact Nat.sub_le_of_le_add (by change (y + x : Nat) ≤ y + 1 + 1; exact Nat.add_le_add_left (Nat.lt_succ_iff.mp h) y)

/-! ## Fields -/

/-- A word cut at a field: what stands above it, in it and below it. -/
theorem word_cut (w lo n : Nat) :
    w = w / 2 ^ (lo + n) * 2 ^ (lo + n) + w / 2 ^ lo % 2 ^ n * 2 ^ lo + w % 2 ^ lo := by
  have h1 := Nat.div_add_mod w (2 ^ lo)
  have h2 := Nat.div_add_mod (w / 2 ^ lo) (2 ^ n)
  rw [Nat.div_div_eq_div_mul, ← Nat.pow_add] at h2
  have h3 : w / 2 ^ lo * 2 ^ lo = w / 2 ^ (lo + n) * 2 ^ (lo + n) + w / 2 ^ lo % 2 ^ n * 2 ^ lo := by
    conv_lhs => rw [← h2]
    rw [Nat.add_mul, Nat.pow_add]
    ring
  have h4 : 2 ^ lo * (w / 2 ^ lo) = w / 2 ^ lo * 2 ^ lo := Nat.mul_comm ..
  omega

/-- A field written into a word, as a number. -/
theorem setField_toNat (w : Word) (p : FieldPos) (v : Nat) (h : p.hi < 32) (h' : p.lo ≤ p.hi) :
    (setField w p v).toNat =
      w.toNat / 2 ^ (p.hi + 1) * 2 ^ (p.hi + 1) + v % 2 ^ p.width * 2 ^ p.lo + w.toNat % 2 ^ p.lo := by
  have e : p.lo + p.width = p.hi + 1 := by unfold FieldPos.width; omega
  have c := word_cut w.toNat p.lo p.width
  rw [e] at c
  have hf : getField w p = w.toNat / 2 ^ p.lo % 2 ^ p.width := rfl
  have hv : v % 2 ^ p.width < 2 ^ p.width := Nat.mod_lt _ (by positivity)
  have hl : w.toNat % 2 ^ p.lo < 2 ^ p.lo := Nat.mod_lt _ (by positivity)
  have hw := w.isLt
  have hq : w.toNat / 2 ^ (p.hi + 1) < 2 ^ (32 - (p.hi + 1)) := by
    apply Nat.div_lt_of_lt_mul
    rw [← Nat.pow_add]
    have : p.hi + 1 + (32 - (p.hi + 1)) = 32 := by omega
    rw [this]
    exact hw
  have h1 : v % 2 ^ p.width * 2 ^ p.lo + w.toNat % 2 ^ p.lo < 2 ^ (p.hi + 1) := by
    have := Nat.mul_le_mul_right (2 ^ p.lo) (Nat.succ_le_of_lt hv)
    rw [Nat.succ_mul] at this
    rw [← e, Nat.pow_add, Nat.mul_comm (2 ^ p.lo)]
    omega
  have h2 : w.toNat / 2 ^ (p.hi + 1) * 2 ^ (p.hi + 1) + 2 ^ (p.hi + 1) ≤ 2 ^ 32 := by
    have : (2 : Nat) ^ 32 = 2 ^ (32 - (p.hi + 1)) * 2 ^ (p.hi + 1) := by
      rw [← Nat.pow_add]
      congr 1
      omega
    rw [this, ← Nat.succ_mul]
    exact Nat.mul_le_mul_right _ hq
  have hs : w.toNat - getField w p * 2 ^ p.lo = w.toNat / 2 ^ (p.hi + 1) * 2 ^ (p.hi + 1) + w.toNat % 2 ^ p.lo := by
    rw [hf]
    omega
  unfold setField
  rw [BitVec.toNat_ofNat, hs, Nat.mod_eq_of_lt (by omega)]
  omega

/-- A field read after it is written. -/
theorem getField_setField_self (w : Word) (p : FieldPos) (v : Nat) (h : p.hi < 32) (h' : p.lo ≤ p.hi) :
    getField (setField w p v) p = v % 2 ^ p.width := by
  have e : p.hi + 1 = p.lo + p.width := by unfold FieldPos.width; omega
  have hl : w.toNat % 2 ^ p.lo < 2 ^ p.lo := Nat.mod_lt _ (by positivity)
  unfold getField natBits
  rw [setField_toNat w p v h h', show p.hi + 1 - p.lo = p.width from rfl, e]
  have : w.toNat / 2 ^ (p.lo + p.width) * 2 ^ (p.lo + p.width) + v % 2 ^ p.width * 2 ^ p.lo + w.toNat % 2 ^ p.lo =
      w.toNat % 2 ^ p.lo + (w.toNat / 2 ^ (p.lo + p.width) * 2 ^ p.width + v % 2 ^ p.width) * 2 ^ p.lo := by
    rw [Nat.pow_add]
    ring
  rw [this, Nat.add_mul_div_right _ _ (by positivity), Nat.div_eq_of_lt hl, Nat.zero_add, Nat.mul_add_mod_self_right, Nat.mod_mod]

/-- Another field read after one is written. -/
theorem getField_setField_other (w : Word) (p q : FieldPos) (v : Nat) (h : p.hi < 32) (h' : p.lo ≤ p.hi) (hq : q.lo ≤ q.hi)
    (hd : p.hi < q.lo ∨ q.hi < p.lo) : getField (setField w p v) q = getField w q := by
  have e : p.hi + 1 = p.lo + p.width := by unfold FieldPos.width; omega
  have hl : w.toNat % 2 ^ p.lo < 2 ^ p.lo := Nat.mod_lt _ (by positivity)
  have hv : v % 2 ^ p.width < 2 ^ p.width := Nat.mod_lt _ (by positivity)
  unfold getField natBits
  rw [setField_toNat w p v h h']
  rcases hd with hd | hd
  · have h1 : v % 2 ^ p.width * 2 ^ p.lo + w.toNat % 2 ^ p.lo < 2 ^ (p.hi + 1) := by
      have := Nat.mul_le_mul_right (2 ^ p.lo) (Nat.succ_le_of_lt hv)
      rw [Nat.succ_mul] at this
      rw [e, Nat.pow_add, Nat.mul_comm (2 ^ p.lo)]
      omega
    obtain ⟨d, hd'⟩ : ∃ d, q.lo = p.hi + 1 + d := ⟨q.lo - (p.hi + 1), by omega⟩
    congr 1
    rw [hd', Nat.pow_add 2 (p.hi + 1) d, ← Nat.div_div_eq_div_mul, ← Nat.div_div_eq_div_mul, Nat.add_assoc, Nat.add_comm,
      Nat.add_mul_div_right _ _ (by positivity), Nat.div_eq_of_lt h1, Nat.zero_add]
  · obtain ⟨d, hd'⟩ : ∃ d, p.lo = q.hi + 1 + d := ⟨p.lo - (q.hi + 1), by omega⟩
    obtain ⟨f, hf⟩ : ∃ f, q.hi + 1 = q.lo + f := ⟨q.hi + 1 - q.lo, by omega⟩
    have hm : (w.toNat / 2 ^ (p.hi + 1) * 2 ^ (p.hi + 1) + v % 2 ^ p.width * 2 ^ p.lo + w.toNat % 2 ^ p.lo) % 2 ^ (q.lo + f) =
        w.toNat % 2 ^ (q.lo + f) := by
      have h1 : 2 ^ (q.lo + f) ∣ 2 ^ (p.hi + 1) := Nat.pow_dvd_pow 2 (by omega)
      have h2 : 2 ^ (q.lo + f) ∣ 2 ^ p.lo := Nat.pow_dvd_pow 2 (by omega)
      rw [Nat.add_mod, Nat.mod_mod_of_dvd _ h2, Nat.mod_eq_zero_of_dvd
        (Nat.dvd_add (Dvd.dvd.mul_left h1 _) (Dvd.dvd.mul_left h2 _)), Nat.zero_add, Nat.mod_mod]
    have hx : ∀ x : Nat, x / 2 ^ q.lo % 2 ^ (q.hi + 1 - q.lo) = x % 2 ^ (q.lo + f) / 2 ^ q.lo := by
      intro x
      rw [show q.hi + 1 - q.lo = f by omega, Nat.pow_add, Nat.mod_mul_right_div_self]
    rw [hx, hx, hm]

theorem State.fld_setFld_self (s : State) (k : Nat) (p : FieldPos) (v : Nat) (h : p.hi < 32) (h' : p.lo ≤ p.hi) :
    (s.setFld k p v).fld k p = v % 2 ^ p.width := by
  unfold State.fld
  rw [State.reg_setFld_self]
  exact getField_setField_self _ p v h h'

theorem State.fld_setFld_other (s : State) (k : Nat) (p q : FieldPos) (v : Nat) (h : p.hi < 32) (h' : p.lo ≤ p.hi) (hq : q.lo ≤ q.hi)
    (hd : p.hi < q.lo ∨ q.hi < p.lo) : (s.setFld k p v).fld k q = s.fld k q := by
  unfold State.fld
  rw [State.reg_setFld_self]
  exact getField_setField_other _ p q v h h' hq hd

theorem State.fld_setFld_key (s : State) {k j : Nat} (p q : FieldPos) (v : Nat) (h : j ≠ k) : (s.setFld k p v).fld j q = s.fld j q := by
  unfold State.fld
  rw [State.reg_setFld_other s p v h]

/-! ## One element of each row of things -/

@[simp] theorem State.head_modHead_self (s : State) (n : Fin 16) (f : Head → Head) : (s.modHead n f).head n = f (s.head n) := by
  simp [State.head, State.modHead]

theorem State.head_modHead_other (s : State) {n m : Fin 16} (f : Head → Head) (h : m ≠ n) : (s.modHead n f).head m = s.head m := by
  simp [State.head, State.modHead, Fin.val_ne_of_ne (Ne.symm h)]

@[simp] theorem State.bob_modBob_self (s : State) (b : Fin 24) (f : Bobbin → Bobbin) : (s.modBob b f).bob b = f (s.bob b) := by
  simp [State.bob, State.modBob]

theorem State.bob_modBob_other (s : State) {b c : Fin 24} (f : Bobbin → Bobbin) (h : c ≠ b) : (s.modBob b f).bob c = s.bob c := by
  simp [State.bob, State.modBob, Fin.val_ne_of_ne (Ne.symm h)]

@[simp] theorem State.slot_modSlot_self (s : State) (k : Fin 96) (f : Slot → Slot) : (s.modSlot k f).slot k = f (s.slot k) := by
  simp [State.slot, State.modSlot]

theorem State.slot_modSlot_other (s : State) {k j : Fin 96} (f : Slot → Slot) (h : j ≠ k) : (s.modSlot k f).slot j = s.slot j := by
  simp [State.slot, State.modSlot, Fin.val_ne_of_ne (Ne.symm h)]

@[simp] theorem State.loopHead_modLoopHead_self (s : State) (n : Fin 16) (f : LoopHead → LoopHead) :
    (s.modLoopHead n f).loopHead n = f (s.loopHead n) := by
  simp [State.loopHead, State.modLoopHead]

theorem State.loopHead_modLoopHead_other (s : State) {n m : Fin 16} (f : LoopHead → LoopHead) (h : m ≠ n) :
    (s.modLoopHead n f).loopHead m = s.loopHead m := by
  simp [State.loopHead, State.modLoopHead, Fin.val_ne_of_ne (Ne.symm h)]

@[simp] theorem State.sled_modSled_self (s : State) (n : Fin 16) (f : Sled → Sled) : (s.modSled n f).sled n = f (s.sled n) := by
  simp [State.sled, State.modSled]

theorem State.sled_modSled_other (s : State) {n m : Fin 16} (f : Sled → Sled) (h : m ≠ n) : (s.modSled n f).sled m = s.sled m := by
  simp [State.sled, State.modSled, Fin.val_ne_of_ne (Ne.symm h)]

@[simp] theorem State.fnOf_modFn_self (s : State) (fn : Nat) (f : FnState → FnState) : (s.modFn fn f).fnOf fn = f (s.fnOf fn) := by
  simp [State.fnOf, State.modFn, State.modHost]

theorem State.fnOf_modFn_other (s : State) {fn k : Nat} (f : FnState → FnState) (h : k % 2 ≠ fn % 2) : (s.modFn fn f).fnOf k = s.fnOf k := by
  simp [State.fnOf, State.modFn, State.modHost, fnFin, Ne.symm h]

/-! ## What an update leaves -/

@[simp] theorem State.setReg_time (s : State) (k : Nat) (w : Word) : (s.setReg k w).time = s.time := rfl
@[simp] theorem State.setReg_events (s : State) (k : Nat) (w : Word) : (s.setReg k w).events = s.events := rfl
@[simp] theorem State.setReg_latches (s : State) (k : Nat) (w : Word) : (s.setReg k w).latches = s.latches := rfl
@[simp] theorem State.setReg_heldLo (s : State) (k : Nat) (w : Word) : (s.setReg k w).heldLo = s.heldLo := rfl
@[simp] theorem State.setReg_msix (s : State) (k : Nat) (w : Word) : (s.setReg k w).msix = s.msix := rfl
@[simp] theorem State.setReg_domains (s : State) (k : Nat) (w : Word) : (s.setReg k w).domains = s.domains := rfl
@[simp] theorem State.setReg_boot (s : State) (k : Nat) (w : Word) : (s.setReg k w).boot = s.boot := rfl
@[simp] theorem State.setReg_pins (s : State) (k : Nat) (w : Word) : (s.setReg k w).pins = s.pins := rfl
@[simp] theorem State.setReg_heads (s : State) (k : Nat) (w : Word) : (s.setReg k w).heads = s.heads := rfl
@[simp] theorem State.setReg_decode (s : State) (k : Nat) (w : Word) : (s.setReg k w).decode = s.decode := rfl
@[simp] theorem State.setReg_loop (s : State) (k : Nat) (w : Word) : (s.setReg k w).loop = s.loop := rfl
@[simp] theorem State.setReg_seq (s : State) (k : Nat) (w : Word) : (s.setReg k w).seq = s.seq := rfl
@[simp] theorem State.setReg_mem (s : State) (k : Nat) (w : Word) : (s.setReg k w).mem = s.mem := rfl
@[simp] theorem State.setReg_motion (s : State) (k : Nat) (w : Word) : (s.setReg k w).motion = s.motion := rfl
@[simp] theorem State.setReg_host (s : State) (k : Nat) (w : Word) : (s.setReg k w).host = s.host := rfl
@[simp] theorem State.setReg_cal (s : State) (k : Nat) (w : Word) : (s.setReg k w).cal = s.cal := rfl
@[simp] theorem State.setReg_sec (s : State) (k : Nat) (w : Word) : (s.setReg k w).sec = s.sec := rfl
@[simp] theorem State.setReg_out (s : State) (k : Nat) (w : Word) : (s.setReg k w).out = s.out := rfl
@[simp] theorem State.setReg_free (s : State) (k : Nat) (w : Word) : (s.setReg k w).free = s.free := rfl
@[simp] theorem State.setReg_pending (s : State) (k : Nat) (w : Word) : (s.setReg k w).pending = s.pending := rfl

@[simp] theorem State.setFld_time (s : State) (k : Nat) (p : FieldPos) (v : Nat) : (s.setFld k p v).time = s.time := State.setReg_time _ _ _
@[simp] theorem State.setFld_events (s : State) (k : Nat) (p : FieldPos) (v : Nat) : (s.setFld k p v).events = s.events := State.setReg_events _ _ _
@[simp] theorem State.setFld_latches (s : State) (k : Nat) (p : FieldPos) (v : Nat) : (s.setFld k p v).latches = s.latches := State.setReg_latches _ _ _
@[simp] theorem State.setFld_heldLo (s : State) (k : Nat) (p : FieldPos) (v : Nat) : (s.setFld k p v).heldLo = s.heldLo := State.setReg_heldLo _ _ _
@[simp] theorem State.setFld_msix (s : State) (k : Nat) (p : FieldPos) (v : Nat) : (s.setFld k p v).msix = s.msix := State.setReg_msix _ _ _
@[simp] theorem State.setFld_domains (s : State) (k : Nat) (p : FieldPos) (v : Nat) : (s.setFld k p v).domains = s.domains := State.setReg_domains _ _ _
@[simp] theorem State.setFld_boot (s : State) (k : Nat) (p : FieldPos) (v : Nat) : (s.setFld k p v).boot = s.boot := State.setReg_boot _ _ _
@[simp] theorem State.setFld_pins (s : State) (k : Nat) (p : FieldPos) (v : Nat) : (s.setFld k p v).pins = s.pins := State.setReg_pins _ _ _
@[simp] theorem State.setFld_heads (s : State) (k : Nat) (p : FieldPos) (v : Nat) : (s.setFld k p v).heads = s.heads := State.setReg_heads _ _ _
@[simp] theorem State.setFld_decode (s : State) (k : Nat) (p : FieldPos) (v : Nat) : (s.setFld k p v).decode = s.decode := State.setReg_decode _ _ _
@[simp] theorem State.setFld_loop (s : State) (k : Nat) (p : FieldPos) (v : Nat) : (s.setFld k p v).loop = s.loop := State.setReg_loop _ _ _
@[simp] theorem State.setFld_seq (s : State) (k : Nat) (p : FieldPos) (v : Nat) : (s.setFld k p v).seq = s.seq := State.setReg_seq _ _ _
@[simp] theorem State.setFld_mem (s : State) (k : Nat) (p : FieldPos) (v : Nat) : (s.setFld k p v).mem = s.mem := State.setReg_mem _ _ _
@[simp] theorem State.setFld_motion (s : State) (k : Nat) (p : FieldPos) (v : Nat) : (s.setFld k p v).motion = s.motion := State.setReg_motion _ _ _
@[simp] theorem State.setFld_host (s : State) (k : Nat) (p : FieldPos) (v : Nat) : (s.setFld k p v).host = s.host := State.setReg_host _ _ _
@[simp] theorem State.setFld_cal (s : State) (k : Nat) (p : FieldPos) (v : Nat) : (s.setFld k p v).cal = s.cal := State.setReg_cal _ _ _
@[simp] theorem State.setFld_sec (s : State) (k : Nat) (p : FieldPos) (v : Nat) : (s.setFld k p v).sec = s.sec := State.setReg_sec _ _ _
@[simp] theorem State.setFld_out (s : State) (k : Nat) (p : FieldPos) (v : Nat) : (s.setFld k p v).out = s.out := State.setReg_out _ _ _
@[simp] theorem State.setFld_free (s : State) (k : Nat) (p : FieldPos) (v : Nat) : (s.setFld k p v).free = s.free := State.setReg_free _ _ _
@[simp] theorem State.setFld_pending (s : State) (k : Nat) (p : FieldPos) (v : Nat) : (s.setFld k p v).pending = s.pending := State.setReg_pending _ _ _

@[simp] theorem State.resetReg_time (s : State) (k : Nat) : (s.resetReg k).time = s.time := State.setReg_time _ _ _
@[simp] theorem State.resetReg_events (s : State) (k : Nat) : (s.resetReg k).events = s.events := State.setReg_events _ _ _
@[simp] theorem State.resetReg_latches (s : State) (k : Nat) : (s.resetReg k).latches = s.latches := State.setReg_latches _ _ _
@[simp] theorem State.resetReg_heldLo (s : State) (k : Nat) : (s.resetReg k).heldLo = s.heldLo := State.setReg_heldLo _ _ _
@[simp] theorem State.resetReg_msix (s : State) (k : Nat) : (s.resetReg k).msix = s.msix := State.setReg_msix _ _ _
@[simp] theorem State.resetReg_domains (s : State) (k : Nat) : (s.resetReg k).domains = s.domains := State.setReg_domains _ _ _
@[simp] theorem State.resetReg_boot (s : State) (k : Nat) : (s.resetReg k).boot = s.boot := State.setReg_boot _ _ _
@[simp] theorem State.resetReg_pins (s : State) (k : Nat) : (s.resetReg k).pins = s.pins := State.setReg_pins _ _ _
@[simp] theorem State.resetReg_heads (s : State) (k : Nat) : (s.resetReg k).heads = s.heads := State.setReg_heads _ _ _
@[simp] theorem State.resetReg_decode (s : State) (k : Nat) : (s.resetReg k).decode = s.decode := State.setReg_decode _ _ _
@[simp] theorem State.resetReg_loop (s : State) (k : Nat) : (s.resetReg k).loop = s.loop := State.setReg_loop _ _ _
@[simp] theorem State.resetReg_seq (s : State) (k : Nat) : (s.resetReg k).seq = s.seq := State.setReg_seq _ _ _
@[simp] theorem State.resetReg_mem (s : State) (k : Nat) : (s.resetReg k).mem = s.mem := State.setReg_mem _ _ _
@[simp] theorem State.resetReg_motion (s : State) (k : Nat) : (s.resetReg k).motion = s.motion := State.setReg_motion _ _ _
@[simp] theorem State.resetReg_host (s : State) (k : Nat) : (s.resetReg k).host = s.host := State.setReg_host _ _ _
@[simp] theorem State.resetReg_cal (s : State) (k : Nat) : (s.resetReg k).cal = s.cal := State.setReg_cal _ _ _
@[simp] theorem State.resetReg_sec (s : State) (k : Nat) : (s.resetReg k).sec = s.sec := State.setReg_sec _ _ _
@[simp] theorem State.resetReg_out (s : State) (k : Nat) : (s.resetReg k).out = s.out := State.setReg_out _ _ _
@[simp] theorem State.resetReg_free (s : State) (k : Nat) : (s.resetReg k).free = s.free := State.setReg_free _ _ _
@[simp] theorem State.resetReg_pending (s : State) (k : Nat) : (s.resetReg k).pending = s.pending := State.setReg_pending _ _ _

@[simp] theorem State.bump_time (s : State) (k : Nat) (p : FieldPos) (v : Nat) : (s.bump k p v).time = s.time := State.setFld_time _ _ _ _
@[simp] theorem State.bump_events (s : State) (k : Nat) (p : FieldPos) (v : Nat) : (s.bump k p v).events = s.events := State.setFld_events _ _ _ _
@[simp] theorem State.bump_latches (s : State) (k : Nat) (p : FieldPos) (v : Nat) : (s.bump k p v).latches = s.latches := State.setFld_latches _ _ _ _
@[simp] theorem State.bump_heldLo (s : State) (k : Nat) (p : FieldPos) (v : Nat) : (s.bump k p v).heldLo = s.heldLo := State.setFld_heldLo _ _ _ _
@[simp] theorem State.bump_msix (s : State) (k : Nat) (p : FieldPos) (v : Nat) : (s.bump k p v).msix = s.msix := State.setFld_msix _ _ _ _
@[simp] theorem State.bump_domains (s : State) (k : Nat) (p : FieldPos) (v : Nat) : (s.bump k p v).domains = s.domains := State.setFld_domains _ _ _ _
@[simp] theorem State.bump_boot (s : State) (k : Nat) (p : FieldPos) (v : Nat) : (s.bump k p v).boot = s.boot := State.setFld_boot _ _ _ _
@[simp] theorem State.bump_pins (s : State) (k : Nat) (p : FieldPos) (v : Nat) : (s.bump k p v).pins = s.pins := State.setFld_pins _ _ _ _
@[simp] theorem State.bump_heads (s : State) (k : Nat) (p : FieldPos) (v : Nat) : (s.bump k p v).heads = s.heads := State.setFld_heads _ _ _ _
@[simp] theorem State.bump_decode (s : State) (k : Nat) (p : FieldPos) (v : Nat) : (s.bump k p v).decode = s.decode := State.setFld_decode _ _ _ _
@[simp] theorem State.bump_loop (s : State) (k : Nat) (p : FieldPos) (v : Nat) : (s.bump k p v).loop = s.loop := State.setFld_loop _ _ _ _
@[simp] theorem State.bump_seq (s : State) (k : Nat) (p : FieldPos) (v : Nat) : (s.bump k p v).seq = s.seq := State.setFld_seq _ _ _ _
@[simp] theorem State.bump_mem (s : State) (k : Nat) (p : FieldPos) (v : Nat) : (s.bump k p v).mem = s.mem := State.setFld_mem _ _ _ _
@[simp] theorem State.bump_motion (s : State) (k : Nat) (p : FieldPos) (v : Nat) : (s.bump k p v).motion = s.motion := State.setFld_motion _ _ _ _
@[simp] theorem State.bump_host (s : State) (k : Nat) (p : FieldPos) (v : Nat) : (s.bump k p v).host = s.host := State.setFld_host _ _ _ _
@[simp] theorem State.bump_cal (s : State) (k : Nat) (p : FieldPos) (v : Nat) : (s.bump k p v).cal = s.cal := State.setFld_cal _ _ _ _
@[simp] theorem State.bump_sec (s : State) (k : Nat) (p : FieldPos) (v : Nat) : (s.bump k p v).sec = s.sec := State.setFld_sec _ _ _ _
@[simp] theorem State.bump_out (s : State) (k : Nat) (p : FieldPos) (v : Nat) : (s.bump k p v).out = s.out := State.setFld_out _ _ _ _
@[simp] theorem State.bump_free (s : State) (k : Nat) (p : FieldPos) (v : Nat) : (s.bump k p v).free = s.free := State.setFld_free _ _ _ _
@[simp] theorem State.bump_pending (s : State) (k : Nat) (p : FieldPos) (v : Nat) : (s.bump k p v).pending = s.pending := State.setFld_pending _ _ _ _

@[simp] theorem State.setPair_time (s : State) (lo v : Nat) : (s.setPair lo v).time = s.time := (State.setReg_time _ _ _).trans (State.setReg_time _ _ _)
@[simp] theorem State.setPair_events (s : State) (lo v : Nat) : (s.setPair lo v).events = s.events := (State.setReg_events _ _ _).trans (State.setReg_events _ _ _)
@[simp] theorem State.setPair_latches (s : State) (lo v : Nat) : (s.setPair lo v).latches = s.latches := (State.setReg_latches _ _ _).trans (State.setReg_latches _ _ _)
@[simp] theorem State.setPair_heldLo (s : State) (lo v : Nat) : (s.setPair lo v).heldLo = s.heldLo := (State.setReg_heldLo _ _ _).trans (State.setReg_heldLo _ _ _)
@[simp] theorem State.setPair_msix (s : State) (lo v : Nat) : (s.setPair lo v).msix = s.msix := (State.setReg_msix _ _ _).trans (State.setReg_msix _ _ _)
@[simp] theorem State.setPair_domains (s : State) (lo v : Nat) : (s.setPair lo v).domains = s.domains := (State.setReg_domains _ _ _).trans (State.setReg_domains _ _ _)
@[simp] theorem State.setPair_boot (s : State) (lo v : Nat) : (s.setPair lo v).boot = s.boot := (State.setReg_boot _ _ _).trans (State.setReg_boot _ _ _)
@[simp] theorem State.setPair_pins (s : State) (lo v : Nat) : (s.setPair lo v).pins = s.pins := (State.setReg_pins _ _ _).trans (State.setReg_pins _ _ _)
@[simp] theorem State.setPair_heads (s : State) (lo v : Nat) : (s.setPair lo v).heads = s.heads := (State.setReg_heads _ _ _).trans (State.setReg_heads _ _ _)
@[simp] theorem State.setPair_decode (s : State) (lo v : Nat) : (s.setPair lo v).decode = s.decode := (State.setReg_decode _ _ _).trans (State.setReg_decode _ _ _)
@[simp] theorem State.setPair_loop (s : State) (lo v : Nat) : (s.setPair lo v).loop = s.loop := (State.setReg_loop _ _ _).trans (State.setReg_loop _ _ _)
@[simp] theorem State.setPair_seq (s : State) (lo v : Nat) : (s.setPair lo v).seq = s.seq := (State.setReg_seq _ _ _).trans (State.setReg_seq _ _ _)
@[simp] theorem State.setPair_mem (s : State) (lo v : Nat) : (s.setPair lo v).mem = s.mem := (State.setReg_mem _ _ _).trans (State.setReg_mem _ _ _)
@[simp] theorem State.setPair_motion (s : State) (lo v : Nat) : (s.setPair lo v).motion = s.motion := (State.setReg_motion _ _ _).trans (State.setReg_motion _ _ _)
@[simp] theorem State.setPair_host (s : State) (lo v : Nat) : (s.setPair lo v).host = s.host := (State.setReg_host _ _ _).trans (State.setReg_host _ _ _)
@[simp] theorem State.setPair_cal (s : State) (lo v : Nat) : (s.setPair lo v).cal = s.cal := (State.setReg_cal _ _ _).trans (State.setReg_cal _ _ _)
@[simp] theorem State.setPair_sec (s : State) (lo v : Nat) : (s.setPair lo v).sec = s.sec := (State.setReg_sec _ _ _).trans (State.setReg_sec _ _ _)
@[simp] theorem State.setPair_out (s : State) (lo v : Nat) : (s.setPair lo v).out = s.out := (State.setReg_out _ _ _).trans (State.setReg_out _ _ _)
@[simp] theorem State.setPair_free (s : State) (lo v : Nat) : (s.setPair lo v).free = s.free := (State.setReg_free _ _ _).trans (State.setReg_free _ _ _)
@[simp] theorem State.setPair_pending (s : State) (lo v : Nat) : (s.setPair lo v).pending = s.pending := (State.setReg_pending _ _ _).trans (State.setReg_pending _ _ _)

@[simp] theorem State.setCtl_time (s : State) (fn off : Nat) (p : FieldPos) (v : Nat) : (s.setCtl fn off p v).time = s.time := State.setFld_time _ _ _ _
@[simp] theorem State.setCtl_events (s : State) (fn off : Nat) (p : FieldPos) (v : Nat) : (s.setCtl fn off p v).events = s.events := State.setFld_events _ _ _ _
@[simp] theorem State.setCtl_latches (s : State) (fn off : Nat) (p : FieldPos) (v : Nat) : (s.setCtl fn off p v).latches = s.latches := State.setFld_latches _ _ _ _
@[simp] theorem State.setCtl_heldLo (s : State) (fn off : Nat) (p : FieldPos) (v : Nat) : (s.setCtl fn off p v).heldLo = s.heldLo := State.setFld_heldLo _ _ _ _
@[simp] theorem State.setCtl_msix (s : State) (fn off : Nat) (p : FieldPos) (v : Nat) : (s.setCtl fn off p v).msix = s.msix := State.setFld_msix _ _ _ _
@[simp] theorem State.setCtl_domains (s : State) (fn off : Nat) (p : FieldPos) (v : Nat) : (s.setCtl fn off p v).domains = s.domains := State.setFld_domains _ _ _ _
@[simp] theorem State.setCtl_boot (s : State) (fn off : Nat) (p : FieldPos) (v : Nat) : (s.setCtl fn off p v).boot = s.boot := State.setFld_boot _ _ _ _
@[simp] theorem State.setCtl_pins (s : State) (fn off : Nat) (p : FieldPos) (v : Nat) : (s.setCtl fn off p v).pins = s.pins := State.setFld_pins _ _ _ _
@[simp] theorem State.setCtl_heads (s : State) (fn off : Nat) (p : FieldPos) (v : Nat) : (s.setCtl fn off p v).heads = s.heads := State.setFld_heads _ _ _ _
@[simp] theorem State.setCtl_decode (s : State) (fn off : Nat) (p : FieldPos) (v : Nat) : (s.setCtl fn off p v).decode = s.decode := State.setFld_decode _ _ _ _
@[simp] theorem State.setCtl_loop (s : State) (fn off : Nat) (p : FieldPos) (v : Nat) : (s.setCtl fn off p v).loop = s.loop := State.setFld_loop _ _ _ _
@[simp] theorem State.setCtl_seq (s : State) (fn off : Nat) (p : FieldPos) (v : Nat) : (s.setCtl fn off p v).seq = s.seq := State.setFld_seq _ _ _ _
@[simp] theorem State.setCtl_mem (s : State) (fn off : Nat) (p : FieldPos) (v : Nat) : (s.setCtl fn off p v).mem = s.mem := State.setFld_mem _ _ _ _
@[simp] theorem State.setCtl_motion (s : State) (fn off : Nat) (p : FieldPos) (v : Nat) : (s.setCtl fn off p v).motion = s.motion := State.setFld_motion _ _ _ _
@[simp] theorem State.setCtl_host (s : State) (fn off : Nat) (p : FieldPos) (v : Nat) : (s.setCtl fn off p v).host = s.host := State.setFld_host _ _ _ _
@[simp] theorem State.setCtl_cal (s : State) (fn off : Nat) (p : FieldPos) (v : Nat) : (s.setCtl fn off p v).cal = s.cal := State.setFld_cal _ _ _ _
@[simp] theorem State.setCtl_sec (s : State) (fn off : Nat) (p : FieldPos) (v : Nat) : (s.setCtl fn off p v).sec = s.sec := State.setFld_sec _ _ _ _
@[simp] theorem State.setCtl_out (s : State) (fn off : Nat) (p : FieldPos) (v : Nat) : (s.setCtl fn off p v).out = s.out := State.setFld_out _ _ _ _
@[simp] theorem State.setCtl_free (s : State) (fn off : Nat) (p : FieldPos) (v : Nat) : (s.setCtl fn off p v).free = s.free := State.setFld_free _ _ _ _
@[simp] theorem State.setCtl_pending (s : State) (fn off : Nat) (p : FieldPos) (v : Nat) : (s.setCtl fn off p v).pending = s.pending := State.setFld_pending _ _ _ _

@[simp] theorem State.modHead_time (s : State) (n : Fin 16) (f : Head → Head) : (s.modHead n f).time = s.time := rfl
@[simp] theorem State.modHead_events (s : State) (n : Fin 16) (f : Head → Head) : (s.modHead n f).events = s.events := rfl
@[simp] theorem State.modHead_regs (s : State) (n : Fin 16) (f : Head → Head) : (s.modHead n f).regs = s.regs := rfl
@[simp] theorem State.modHead_latches (s : State) (n : Fin 16) (f : Head → Head) : (s.modHead n f).latches = s.latches := rfl
@[simp] theorem State.modHead_heldLo (s : State) (n : Fin 16) (f : Head → Head) : (s.modHead n f).heldLo = s.heldLo := rfl
@[simp] theorem State.modHead_msix (s : State) (n : Fin 16) (f : Head → Head) : (s.modHead n f).msix = s.msix := rfl
@[simp] theorem State.modHead_domains (s : State) (n : Fin 16) (f : Head → Head) : (s.modHead n f).domains = s.domains := rfl
@[simp] theorem State.modHead_boot (s : State) (n : Fin 16) (f : Head → Head) : (s.modHead n f).boot = s.boot := rfl
@[simp] theorem State.modHead_pins (s : State) (n : Fin 16) (f : Head → Head) : (s.modHead n f).pins = s.pins := rfl
@[simp] theorem State.modHead_decode (s : State) (n : Fin 16) (f : Head → Head) : (s.modHead n f).decode = s.decode := rfl
@[simp] theorem State.modHead_loop (s : State) (n : Fin 16) (f : Head → Head) : (s.modHead n f).loop = s.loop := rfl
@[simp] theorem State.modHead_seq (s : State) (n : Fin 16) (f : Head → Head) : (s.modHead n f).seq = s.seq := rfl
@[simp] theorem State.modHead_mem (s : State) (n : Fin 16) (f : Head → Head) : (s.modHead n f).mem = s.mem := rfl
@[simp] theorem State.modHead_motion (s : State) (n : Fin 16) (f : Head → Head) : (s.modHead n f).motion = s.motion := rfl
@[simp] theorem State.modHead_host (s : State) (n : Fin 16) (f : Head → Head) : (s.modHead n f).host = s.host := rfl
@[simp] theorem State.modHead_cal (s : State) (n : Fin 16) (f : Head → Head) : (s.modHead n f).cal = s.cal := rfl
@[simp] theorem State.modHead_sec (s : State) (n : Fin 16) (f : Head → Head) : (s.modHead n f).sec = s.sec := rfl
@[simp] theorem State.modHead_out (s : State) (n : Fin 16) (f : Head → Head) : (s.modHead n f).out = s.out := rfl
@[simp] theorem State.modHead_free (s : State) (n : Fin 16) (f : Head → Head) : (s.modHead n f).free = s.free := rfl
@[simp] theorem State.modHead_pending (s : State) (n : Fin 16) (f : Head → Head) : (s.modHead n f).pending = s.pending := rfl
@[simp] theorem State.modHead_reg (s : State) (n : Fin 16) (f : Head → Head) (j : Nat) : (s.modHead n f).reg j = s.reg j := rfl

@[simp] theorem State.modLink_time (s : State) (n : Fin 16) (f : Link → Link) : (s.modLink n f).time = s.time := rfl
@[simp] theorem State.modLink_events (s : State) (n : Fin 16) (f : Link → Link) : (s.modLink n f).events = s.events := rfl
@[simp] theorem State.modLink_regs (s : State) (n : Fin 16) (f : Link → Link) : (s.modLink n f).regs = s.regs := rfl
@[simp] theorem State.modLink_latches (s : State) (n : Fin 16) (f : Link → Link) : (s.modLink n f).latches = s.latches := rfl
@[simp] theorem State.modLink_heldLo (s : State) (n : Fin 16) (f : Link → Link) : (s.modLink n f).heldLo = s.heldLo := rfl
@[simp] theorem State.modLink_msix (s : State) (n : Fin 16) (f : Link → Link) : (s.modLink n f).msix = s.msix := rfl
@[simp] theorem State.modLink_domains (s : State) (n : Fin 16) (f : Link → Link) : (s.modLink n f).domains = s.domains := rfl
@[simp] theorem State.modLink_boot (s : State) (n : Fin 16) (f : Link → Link) : (s.modLink n f).boot = s.boot := rfl
@[simp] theorem State.modLink_pins (s : State) (n : Fin 16) (f : Link → Link) : (s.modLink n f).pins = s.pins := rfl
@[simp] theorem State.modLink_decode (s : State) (n : Fin 16) (f : Link → Link) : (s.modLink n f).decode = s.decode := rfl
@[simp] theorem State.modLink_loop (s : State) (n : Fin 16) (f : Link → Link) : (s.modLink n f).loop = s.loop := rfl
@[simp] theorem State.modLink_seq (s : State) (n : Fin 16) (f : Link → Link) : (s.modLink n f).seq = s.seq := rfl
@[simp] theorem State.modLink_mem (s : State) (n : Fin 16) (f : Link → Link) : (s.modLink n f).mem = s.mem := rfl
@[simp] theorem State.modLink_motion (s : State) (n : Fin 16) (f : Link → Link) : (s.modLink n f).motion = s.motion := rfl
@[simp] theorem State.modLink_host (s : State) (n : Fin 16) (f : Link → Link) : (s.modLink n f).host = s.host := rfl
@[simp] theorem State.modLink_cal (s : State) (n : Fin 16) (f : Link → Link) : (s.modLink n f).cal = s.cal := rfl
@[simp] theorem State.modLink_sec (s : State) (n : Fin 16) (f : Link → Link) : (s.modLink n f).sec = s.sec := rfl
@[simp] theorem State.modLink_out (s : State) (n : Fin 16) (f : Link → Link) : (s.modLink n f).out = s.out := rfl
@[simp] theorem State.modLink_free (s : State) (n : Fin 16) (f : Link → Link) : (s.modLink n f).free = s.free := rfl
@[simp] theorem State.modLink_pending (s : State) (n : Fin 16) (f : Link → Link) : (s.modLink n f).pending = s.pending := rfl
@[simp] theorem State.modLink_reg (s : State) (n : Fin 16) (f : Link → Link) (j : Nat) : (s.modLink n f).reg j = s.reg j := rfl

@[simp] theorem State.modPass_time (s : State) (n : Fin 16) (f : Pass → Pass) : (s.modPass n f).time = s.time := rfl
@[simp] theorem State.modPass_events (s : State) (n : Fin 16) (f : Pass → Pass) : (s.modPass n f).events = s.events := rfl
@[simp] theorem State.modPass_regs (s : State) (n : Fin 16) (f : Pass → Pass) : (s.modPass n f).regs = s.regs := rfl
@[simp] theorem State.modPass_latches (s : State) (n : Fin 16) (f : Pass → Pass) : (s.modPass n f).latches = s.latches := rfl
@[simp] theorem State.modPass_heldLo (s : State) (n : Fin 16) (f : Pass → Pass) : (s.modPass n f).heldLo = s.heldLo := rfl
@[simp] theorem State.modPass_msix (s : State) (n : Fin 16) (f : Pass → Pass) : (s.modPass n f).msix = s.msix := rfl
@[simp] theorem State.modPass_domains (s : State) (n : Fin 16) (f : Pass → Pass) : (s.modPass n f).domains = s.domains := rfl
@[simp] theorem State.modPass_boot (s : State) (n : Fin 16) (f : Pass → Pass) : (s.modPass n f).boot = s.boot := rfl
@[simp] theorem State.modPass_pins (s : State) (n : Fin 16) (f : Pass → Pass) : (s.modPass n f).pins = s.pins := rfl
@[simp] theorem State.modPass_decode (s : State) (n : Fin 16) (f : Pass → Pass) : (s.modPass n f).decode = s.decode := rfl
@[simp] theorem State.modPass_loop (s : State) (n : Fin 16) (f : Pass → Pass) : (s.modPass n f).loop = s.loop := rfl
@[simp] theorem State.modPass_seq (s : State) (n : Fin 16) (f : Pass → Pass) : (s.modPass n f).seq = s.seq := rfl
@[simp] theorem State.modPass_mem (s : State) (n : Fin 16) (f : Pass → Pass) : (s.modPass n f).mem = s.mem := rfl
@[simp] theorem State.modPass_motion (s : State) (n : Fin 16) (f : Pass → Pass) : (s.modPass n f).motion = s.motion := rfl
@[simp] theorem State.modPass_host (s : State) (n : Fin 16) (f : Pass → Pass) : (s.modPass n f).host = s.host := rfl
@[simp] theorem State.modPass_cal (s : State) (n : Fin 16) (f : Pass → Pass) : (s.modPass n f).cal = s.cal := rfl
@[simp] theorem State.modPass_sec (s : State) (n : Fin 16) (f : Pass → Pass) : (s.modPass n f).sec = s.sec := rfl
@[simp] theorem State.modPass_out (s : State) (n : Fin 16) (f : Pass → Pass) : (s.modPass n f).out = s.out := rfl
@[simp] theorem State.modPass_free (s : State) (n : Fin 16) (f : Pass → Pass) : (s.modPass n f).free = s.free := rfl
@[simp] theorem State.modPass_pending (s : State) (n : Fin 16) (f : Pass → Pass) : (s.modPass n f).pending = s.pending := rfl
@[simp] theorem State.modPass_reg (s : State) (n : Fin 16) (f : Pass → Pass) (j : Nat) : (s.modPass n f).reg j = s.reg j := rfl

@[simp] theorem State.modBeam_time (s : State) (n : Fin 16) (b : Fin 12) (f : Beam → Beam) : (s.modBeam n b f).time = s.time := rfl
@[simp] theorem State.modBeam_events (s : State) (n : Fin 16) (b : Fin 12) (f : Beam → Beam) : (s.modBeam n b f).events = s.events := rfl
@[simp] theorem State.modBeam_regs (s : State) (n : Fin 16) (b : Fin 12) (f : Beam → Beam) : (s.modBeam n b f).regs = s.regs := rfl
@[simp] theorem State.modBeam_latches (s : State) (n : Fin 16) (b : Fin 12) (f : Beam → Beam) : (s.modBeam n b f).latches = s.latches := rfl
@[simp] theorem State.modBeam_heldLo (s : State) (n : Fin 16) (b : Fin 12) (f : Beam → Beam) : (s.modBeam n b f).heldLo = s.heldLo := rfl
@[simp] theorem State.modBeam_msix (s : State) (n : Fin 16) (b : Fin 12) (f : Beam → Beam) : (s.modBeam n b f).msix = s.msix := rfl
@[simp] theorem State.modBeam_domains (s : State) (n : Fin 16) (b : Fin 12) (f : Beam → Beam) : (s.modBeam n b f).domains = s.domains := rfl
@[simp] theorem State.modBeam_boot (s : State) (n : Fin 16) (b : Fin 12) (f : Beam → Beam) : (s.modBeam n b f).boot = s.boot := rfl
@[simp] theorem State.modBeam_pins (s : State) (n : Fin 16) (b : Fin 12) (f : Beam → Beam) : (s.modBeam n b f).pins = s.pins := rfl
@[simp] theorem State.modBeam_decode (s : State) (n : Fin 16) (b : Fin 12) (f : Beam → Beam) : (s.modBeam n b f).decode = s.decode := rfl
@[simp] theorem State.modBeam_loop (s : State) (n : Fin 16) (b : Fin 12) (f : Beam → Beam) : (s.modBeam n b f).loop = s.loop := rfl
@[simp] theorem State.modBeam_seq (s : State) (n : Fin 16) (b : Fin 12) (f : Beam → Beam) : (s.modBeam n b f).seq = s.seq := rfl
@[simp] theorem State.modBeam_mem (s : State) (n : Fin 16) (b : Fin 12) (f : Beam → Beam) : (s.modBeam n b f).mem = s.mem := rfl
@[simp] theorem State.modBeam_motion (s : State) (n : Fin 16) (b : Fin 12) (f : Beam → Beam) : (s.modBeam n b f).motion = s.motion := rfl
@[simp] theorem State.modBeam_host (s : State) (n : Fin 16) (b : Fin 12) (f : Beam → Beam) : (s.modBeam n b f).host = s.host := rfl
@[simp] theorem State.modBeam_cal (s : State) (n : Fin 16) (b : Fin 12) (f : Beam → Beam) : (s.modBeam n b f).cal = s.cal := rfl
@[simp] theorem State.modBeam_sec (s : State) (n : Fin 16) (b : Fin 12) (f : Beam → Beam) : (s.modBeam n b f).sec = s.sec := rfl
@[simp] theorem State.modBeam_out (s : State) (n : Fin 16) (b : Fin 12) (f : Beam → Beam) : (s.modBeam n b f).out = s.out := rfl
@[simp] theorem State.modBeam_free (s : State) (n : Fin 16) (b : Fin 12) (f : Beam → Beam) : (s.modBeam n b f).free = s.free := rfl
@[simp] theorem State.modBeam_pending (s : State) (n : Fin 16) (b : Fin 12) (f : Beam → Beam) : (s.modBeam n b f).pending = s.pending := rfl
@[simp] theorem State.modBeam_reg (s : State) (n : Fin 16) (b : Fin 12) (f : Beam → Beam) (j : Nat) : (s.modBeam n b f).reg j = s.reg j := rfl

@[simp] theorem State.modDec_time (s : State) (f : DecodeState → DecodeState) : (s.modDec f).time = s.time := rfl
@[simp] theorem State.modDec_events (s : State) (f : DecodeState → DecodeState) : (s.modDec f).events = s.events := rfl
@[simp] theorem State.modDec_regs (s : State) (f : DecodeState → DecodeState) : (s.modDec f).regs = s.regs := rfl
@[simp] theorem State.modDec_latches (s : State) (f : DecodeState → DecodeState) : (s.modDec f).latches = s.latches := rfl
@[simp] theorem State.modDec_heldLo (s : State) (f : DecodeState → DecodeState) : (s.modDec f).heldLo = s.heldLo := rfl
@[simp] theorem State.modDec_msix (s : State) (f : DecodeState → DecodeState) : (s.modDec f).msix = s.msix := rfl
@[simp] theorem State.modDec_domains (s : State) (f : DecodeState → DecodeState) : (s.modDec f).domains = s.domains := rfl
@[simp] theorem State.modDec_boot (s : State) (f : DecodeState → DecodeState) : (s.modDec f).boot = s.boot := rfl
@[simp] theorem State.modDec_pins (s : State) (f : DecodeState → DecodeState) : (s.modDec f).pins = s.pins := rfl
@[simp] theorem State.modDec_heads (s : State) (f : DecodeState → DecodeState) : (s.modDec f).heads = s.heads := rfl
@[simp] theorem State.modDec_loop (s : State) (f : DecodeState → DecodeState) : (s.modDec f).loop = s.loop := rfl
@[simp] theorem State.modDec_seq (s : State) (f : DecodeState → DecodeState) : (s.modDec f).seq = s.seq := rfl
@[simp] theorem State.modDec_mem (s : State) (f : DecodeState → DecodeState) : (s.modDec f).mem = s.mem := rfl
@[simp] theorem State.modDec_motion (s : State) (f : DecodeState → DecodeState) : (s.modDec f).motion = s.motion := rfl
@[simp] theorem State.modDec_host (s : State) (f : DecodeState → DecodeState) : (s.modDec f).host = s.host := rfl
@[simp] theorem State.modDec_cal (s : State) (f : DecodeState → DecodeState) : (s.modDec f).cal = s.cal := rfl
@[simp] theorem State.modDec_sec (s : State) (f : DecodeState → DecodeState) : (s.modDec f).sec = s.sec := rfl
@[simp] theorem State.modDec_out (s : State) (f : DecodeState → DecodeState) : (s.modDec f).out = s.out := rfl
@[simp] theorem State.modDec_free (s : State) (f : DecodeState → DecodeState) : (s.modDec f).free = s.free := rfl
@[simp] theorem State.modDec_pending (s : State) (f : DecodeState → DecodeState) : (s.modDec f).pending = s.pending := rfl
@[simp] theorem State.modDec_reg (s : State) (f : DecodeState → DecodeState) (j : Nat) : (s.modDec f).reg j = s.reg j := rfl

@[simp] theorem State.modSlot_time (s : State) (k : Fin 96) (f : Slot → Slot) : (s.modSlot k f).time = s.time := rfl
@[simp] theorem State.modSlot_events (s : State) (k : Fin 96) (f : Slot → Slot) : (s.modSlot k f).events = s.events := rfl
@[simp] theorem State.modSlot_regs (s : State) (k : Fin 96) (f : Slot → Slot) : (s.modSlot k f).regs = s.regs := rfl
@[simp] theorem State.modSlot_latches (s : State) (k : Fin 96) (f : Slot → Slot) : (s.modSlot k f).latches = s.latches := rfl
@[simp] theorem State.modSlot_heldLo (s : State) (k : Fin 96) (f : Slot → Slot) : (s.modSlot k f).heldLo = s.heldLo := rfl
@[simp] theorem State.modSlot_msix (s : State) (k : Fin 96) (f : Slot → Slot) : (s.modSlot k f).msix = s.msix := rfl
@[simp] theorem State.modSlot_domains (s : State) (k : Fin 96) (f : Slot → Slot) : (s.modSlot k f).domains = s.domains := rfl
@[simp] theorem State.modSlot_boot (s : State) (k : Fin 96) (f : Slot → Slot) : (s.modSlot k f).boot = s.boot := rfl
@[simp] theorem State.modSlot_pins (s : State) (k : Fin 96) (f : Slot → Slot) : (s.modSlot k f).pins = s.pins := rfl
@[simp] theorem State.modSlot_heads (s : State) (k : Fin 96) (f : Slot → Slot) : (s.modSlot k f).heads = s.heads := rfl
@[simp] theorem State.modSlot_decode (s : State) (k : Fin 96) (f : Slot → Slot) : (s.modSlot k f).decode = s.decode := rfl
@[simp] theorem State.modSlot_seq (s : State) (k : Fin 96) (f : Slot → Slot) : (s.modSlot k f).seq = s.seq := rfl
@[simp] theorem State.modSlot_mem (s : State) (k : Fin 96) (f : Slot → Slot) : (s.modSlot k f).mem = s.mem := rfl
@[simp] theorem State.modSlot_motion (s : State) (k : Fin 96) (f : Slot → Slot) : (s.modSlot k f).motion = s.motion := rfl
@[simp] theorem State.modSlot_host (s : State) (k : Fin 96) (f : Slot → Slot) : (s.modSlot k f).host = s.host := rfl
@[simp] theorem State.modSlot_cal (s : State) (k : Fin 96) (f : Slot → Slot) : (s.modSlot k f).cal = s.cal := rfl
@[simp] theorem State.modSlot_sec (s : State) (k : Fin 96) (f : Slot → Slot) : (s.modSlot k f).sec = s.sec := rfl
@[simp] theorem State.modSlot_out (s : State) (k : Fin 96) (f : Slot → Slot) : (s.modSlot k f).out = s.out := rfl
@[simp] theorem State.modSlot_free (s : State) (k : Fin 96) (f : Slot → Slot) : (s.modSlot k f).free = s.free := rfl
@[simp] theorem State.modSlot_pending (s : State) (k : Fin 96) (f : Slot → Slot) : (s.modSlot k f).pending = s.pending := rfl
@[simp] theorem State.modSlot_reg (s : State) (k : Fin 96) (f : Slot → Slot) (j : Nat) : (s.modSlot k f).reg j = s.reg j := rfl

@[simp] theorem State.modLoopHead_time (s : State) (n : Fin 16) (f : LoopHead → LoopHead) : (s.modLoopHead n f).time = s.time := rfl
@[simp] theorem State.modLoopHead_events (s : State) (n : Fin 16) (f : LoopHead → LoopHead) : (s.modLoopHead n f).events = s.events := rfl
@[simp] theorem State.modLoopHead_regs (s : State) (n : Fin 16) (f : LoopHead → LoopHead) : (s.modLoopHead n f).regs = s.regs := rfl
@[simp] theorem State.modLoopHead_latches (s : State) (n : Fin 16) (f : LoopHead → LoopHead) : (s.modLoopHead n f).latches = s.latches := rfl
@[simp] theorem State.modLoopHead_heldLo (s : State) (n : Fin 16) (f : LoopHead → LoopHead) : (s.modLoopHead n f).heldLo = s.heldLo := rfl
@[simp] theorem State.modLoopHead_msix (s : State) (n : Fin 16) (f : LoopHead → LoopHead) : (s.modLoopHead n f).msix = s.msix := rfl
@[simp] theorem State.modLoopHead_domains (s : State) (n : Fin 16) (f : LoopHead → LoopHead) : (s.modLoopHead n f).domains = s.domains := rfl
@[simp] theorem State.modLoopHead_boot (s : State) (n : Fin 16) (f : LoopHead → LoopHead) : (s.modLoopHead n f).boot = s.boot := rfl
@[simp] theorem State.modLoopHead_pins (s : State) (n : Fin 16) (f : LoopHead → LoopHead) : (s.modLoopHead n f).pins = s.pins := rfl
@[simp] theorem State.modLoopHead_heads (s : State) (n : Fin 16) (f : LoopHead → LoopHead) : (s.modLoopHead n f).heads = s.heads := rfl
@[simp] theorem State.modLoopHead_decode (s : State) (n : Fin 16) (f : LoopHead → LoopHead) : (s.modLoopHead n f).decode = s.decode := rfl
@[simp] theorem State.modLoopHead_seq (s : State) (n : Fin 16) (f : LoopHead → LoopHead) : (s.modLoopHead n f).seq = s.seq := rfl
@[simp] theorem State.modLoopHead_mem (s : State) (n : Fin 16) (f : LoopHead → LoopHead) : (s.modLoopHead n f).mem = s.mem := rfl
@[simp] theorem State.modLoopHead_motion (s : State) (n : Fin 16) (f : LoopHead → LoopHead) : (s.modLoopHead n f).motion = s.motion := rfl
@[simp] theorem State.modLoopHead_host (s : State) (n : Fin 16) (f : LoopHead → LoopHead) : (s.modLoopHead n f).host = s.host := rfl
@[simp] theorem State.modLoopHead_cal (s : State) (n : Fin 16) (f : LoopHead → LoopHead) : (s.modLoopHead n f).cal = s.cal := rfl
@[simp] theorem State.modLoopHead_sec (s : State) (n : Fin 16) (f : LoopHead → LoopHead) : (s.modLoopHead n f).sec = s.sec := rfl
@[simp] theorem State.modLoopHead_out (s : State) (n : Fin 16) (f : LoopHead → LoopHead) : (s.modLoopHead n f).out = s.out := rfl
@[simp] theorem State.modLoopHead_free (s : State) (n : Fin 16) (f : LoopHead → LoopHead) : (s.modLoopHead n f).free = s.free := rfl
@[simp] theorem State.modLoopHead_pending (s : State) (n : Fin 16) (f : LoopHead → LoopHead) : (s.modLoopHead n f).pending = s.pending := rfl
@[simp] theorem State.modLoopHead_reg (s : State) (n : Fin 16) (f : LoopHead → LoopHead) (j : Nat) : (s.modLoopHead n f).reg j = s.reg j := rfl

@[simp] theorem State.modBob_time (s : State) (b : Fin 24) (f : Bobbin → Bobbin) : (s.modBob b f).time = s.time := rfl
@[simp] theorem State.modBob_events (s : State) (b : Fin 24) (f : Bobbin → Bobbin) : (s.modBob b f).events = s.events := rfl
@[simp] theorem State.modBob_regs (s : State) (b : Fin 24) (f : Bobbin → Bobbin) : (s.modBob b f).regs = s.regs := rfl
@[simp] theorem State.modBob_latches (s : State) (b : Fin 24) (f : Bobbin → Bobbin) : (s.modBob b f).latches = s.latches := rfl
@[simp] theorem State.modBob_heldLo (s : State) (b : Fin 24) (f : Bobbin → Bobbin) : (s.modBob b f).heldLo = s.heldLo := rfl
@[simp] theorem State.modBob_msix (s : State) (b : Fin 24) (f : Bobbin → Bobbin) : (s.modBob b f).msix = s.msix := rfl
@[simp] theorem State.modBob_domains (s : State) (b : Fin 24) (f : Bobbin → Bobbin) : (s.modBob b f).domains = s.domains := rfl
@[simp] theorem State.modBob_boot (s : State) (b : Fin 24) (f : Bobbin → Bobbin) : (s.modBob b f).boot = s.boot := rfl
@[simp] theorem State.modBob_pins (s : State) (b : Fin 24) (f : Bobbin → Bobbin) : (s.modBob b f).pins = s.pins := rfl
@[simp] theorem State.modBob_heads (s : State) (b : Fin 24) (f : Bobbin → Bobbin) : (s.modBob b f).heads = s.heads := rfl
@[simp] theorem State.modBob_decode (s : State) (b : Fin 24) (f : Bobbin → Bobbin) : (s.modBob b f).decode = s.decode := rfl
@[simp] theorem State.modBob_loop (s : State) (b : Fin 24) (f : Bobbin → Bobbin) : (s.modBob b f).loop = s.loop := rfl
@[simp] theorem State.modBob_mem (s : State) (b : Fin 24) (f : Bobbin → Bobbin) : (s.modBob b f).mem = s.mem := rfl
@[simp] theorem State.modBob_motion (s : State) (b : Fin 24) (f : Bobbin → Bobbin) : (s.modBob b f).motion = s.motion := rfl
@[simp] theorem State.modBob_host (s : State) (b : Fin 24) (f : Bobbin → Bobbin) : (s.modBob b f).host = s.host := rfl
@[simp] theorem State.modBob_cal (s : State) (b : Fin 24) (f : Bobbin → Bobbin) : (s.modBob b f).cal = s.cal := rfl
@[simp] theorem State.modBob_sec (s : State) (b : Fin 24) (f : Bobbin → Bobbin) : (s.modBob b f).sec = s.sec := rfl
@[simp] theorem State.modBob_out (s : State) (b : Fin 24) (f : Bobbin → Bobbin) : (s.modBob b f).out = s.out := rfl
@[simp] theorem State.modBob_free (s : State) (b : Fin 24) (f : Bobbin → Bobbin) : (s.modBob b f).free = s.free := rfl
@[simp] theorem State.modBob_pending (s : State) (b : Fin 24) (f : Bobbin → Bobbin) : (s.modBob b f).pending = s.pending := rfl
@[simp] theorem State.modBob_reg (s : State) (b : Fin 24) (f : Bobbin → Bobbin) (j : Nat) : (s.modBob b f).reg j = s.reg j := rfl

@[simp] theorem State.setG_time (s : State) (b : Fin 24) (i v : Nat) : (s.setG b i v).time = s.time := rfl
@[simp] theorem State.setG_events (s : State) (b : Fin 24) (i v : Nat) : (s.setG b i v).events = s.events := rfl
@[simp] theorem State.setG_regs (s : State) (b : Fin 24) (i v : Nat) : (s.setG b i v).regs = s.regs := rfl
@[simp] theorem State.setG_latches (s : State) (b : Fin 24) (i v : Nat) : (s.setG b i v).latches = s.latches := rfl
@[simp] theorem State.setG_heldLo (s : State) (b : Fin 24) (i v : Nat) : (s.setG b i v).heldLo = s.heldLo := rfl
@[simp] theorem State.setG_msix (s : State) (b : Fin 24) (i v : Nat) : (s.setG b i v).msix = s.msix := rfl
@[simp] theorem State.setG_domains (s : State) (b : Fin 24) (i v : Nat) : (s.setG b i v).domains = s.domains := rfl
@[simp] theorem State.setG_boot (s : State) (b : Fin 24) (i v : Nat) : (s.setG b i v).boot = s.boot := rfl
@[simp] theorem State.setG_pins (s : State) (b : Fin 24) (i v : Nat) : (s.setG b i v).pins = s.pins := rfl
@[simp] theorem State.setG_heads (s : State) (b : Fin 24) (i v : Nat) : (s.setG b i v).heads = s.heads := rfl
@[simp] theorem State.setG_decode (s : State) (b : Fin 24) (i v : Nat) : (s.setG b i v).decode = s.decode := rfl
@[simp] theorem State.setG_loop (s : State) (b : Fin 24) (i v : Nat) : (s.setG b i v).loop = s.loop := rfl
@[simp] theorem State.setG_mem (s : State) (b : Fin 24) (i v : Nat) : (s.setG b i v).mem = s.mem := rfl
@[simp] theorem State.setG_motion (s : State) (b : Fin 24) (i v : Nat) : (s.setG b i v).motion = s.motion := rfl
@[simp] theorem State.setG_host (s : State) (b : Fin 24) (i v : Nat) : (s.setG b i v).host = s.host := rfl
@[simp] theorem State.setG_cal (s : State) (b : Fin 24) (i v : Nat) : (s.setG b i v).cal = s.cal := rfl
@[simp] theorem State.setG_sec (s : State) (b : Fin 24) (i v : Nat) : (s.setG b i v).sec = s.sec := rfl
@[simp] theorem State.setG_out (s : State) (b : Fin 24) (i v : Nat) : (s.setG b i v).out = s.out := rfl
@[simp] theorem State.setG_free (s : State) (b : Fin 24) (i v : Nat) : (s.setG b i v).free = s.free := rfl
@[simp] theorem State.setG_pending (s : State) (b : Fin 24) (i v : Nat) : (s.setG b i v).pending = s.pending := rfl
@[simp] theorem State.setG_reg (s : State) (b : Fin 24) (i v : Nat) (j : Nat) : (s.setG b i v).reg j = s.reg j := rfl

@[simp] theorem State.setP_time (s : State) (b : Fin 24) (i : Nat) (v : Bool) : (s.setP b i v).time = s.time := rfl
@[simp] theorem State.setP_events (s : State) (b : Fin 24) (i : Nat) (v : Bool) : (s.setP b i v).events = s.events := rfl
@[simp] theorem State.setP_regs (s : State) (b : Fin 24) (i : Nat) (v : Bool) : (s.setP b i v).regs = s.regs := rfl
@[simp] theorem State.setP_latches (s : State) (b : Fin 24) (i : Nat) (v : Bool) : (s.setP b i v).latches = s.latches := rfl
@[simp] theorem State.setP_heldLo (s : State) (b : Fin 24) (i : Nat) (v : Bool) : (s.setP b i v).heldLo = s.heldLo := rfl
@[simp] theorem State.setP_msix (s : State) (b : Fin 24) (i : Nat) (v : Bool) : (s.setP b i v).msix = s.msix := rfl
@[simp] theorem State.setP_domains (s : State) (b : Fin 24) (i : Nat) (v : Bool) : (s.setP b i v).domains = s.domains := rfl
@[simp] theorem State.setP_boot (s : State) (b : Fin 24) (i : Nat) (v : Bool) : (s.setP b i v).boot = s.boot := rfl
@[simp] theorem State.setP_pins (s : State) (b : Fin 24) (i : Nat) (v : Bool) : (s.setP b i v).pins = s.pins := rfl
@[simp] theorem State.setP_heads (s : State) (b : Fin 24) (i : Nat) (v : Bool) : (s.setP b i v).heads = s.heads := rfl
@[simp] theorem State.setP_decode (s : State) (b : Fin 24) (i : Nat) (v : Bool) : (s.setP b i v).decode = s.decode := rfl
@[simp] theorem State.setP_loop (s : State) (b : Fin 24) (i : Nat) (v : Bool) : (s.setP b i v).loop = s.loop := rfl
@[simp] theorem State.setP_mem (s : State) (b : Fin 24) (i : Nat) (v : Bool) : (s.setP b i v).mem = s.mem := rfl
@[simp] theorem State.setP_motion (s : State) (b : Fin 24) (i : Nat) (v : Bool) : (s.setP b i v).motion = s.motion := rfl
@[simp] theorem State.setP_host (s : State) (b : Fin 24) (i : Nat) (v : Bool) : (s.setP b i v).host = s.host := rfl
@[simp] theorem State.setP_cal (s : State) (b : Fin 24) (i : Nat) (v : Bool) : (s.setP b i v).cal = s.cal := rfl
@[simp] theorem State.setP_sec (s : State) (b : Fin 24) (i : Nat) (v : Bool) : (s.setP b i v).sec = s.sec := rfl
@[simp] theorem State.setP_out (s : State) (b : Fin 24) (i : Nat) (v : Bool) : (s.setP b i v).out = s.out := rfl
@[simp] theorem State.setP_free (s : State) (b : Fin 24) (i : Nat) (v : Bool) : (s.setP b i v).free = s.free := rfl
@[simp] theorem State.setP_pending (s : State) (b : Fin 24) (i : Nat) (v : Bool) : (s.setP b i v).pending = s.pending := rfl
@[simp] theorem State.setP_reg (s : State) (b : Fin 24) (i : Nat) (v : Bool) (j : Nat) : (s.setP b i v).reg j = s.reg j := rfl

@[simp] theorem State.setPc_time (s : State) (b : Fin 24) (pc : Nat) : (s.setPc b pc).time = s.time := rfl
@[simp] theorem State.setPc_events (s : State) (b : Fin 24) (pc : Nat) : (s.setPc b pc).events = s.events := rfl
@[simp] theorem State.setPc_regs (s : State) (b : Fin 24) (pc : Nat) : (s.setPc b pc).regs = s.regs := rfl
@[simp] theorem State.setPc_latches (s : State) (b : Fin 24) (pc : Nat) : (s.setPc b pc).latches = s.latches := rfl
@[simp] theorem State.setPc_heldLo (s : State) (b : Fin 24) (pc : Nat) : (s.setPc b pc).heldLo = s.heldLo := rfl
@[simp] theorem State.setPc_msix (s : State) (b : Fin 24) (pc : Nat) : (s.setPc b pc).msix = s.msix := rfl
@[simp] theorem State.setPc_domains (s : State) (b : Fin 24) (pc : Nat) : (s.setPc b pc).domains = s.domains := rfl
@[simp] theorem State.setPc_boot (s : State) (b : Fin 24) (pc : Nat) : (s.setPc b pc).boot = s.boot := rfl
@[simp] theorem State.setPc_pins (s : State) (b : Fin 24) (pc : Nat) : (s.setPc b pc).pins = s.pins := rfl
@[simp] theorem State.setPc_heads (s : State) (b : Fin 24) (pc : Nat) : (s.setPc b pc).heads = s.heads := rfl
@[simp] theorem State.setPc_decode (s : State) (b : Fin 24) (pc : Nat) : (s.setPc b pc).decode = s.decode := rfl
@[simp] theorem State.setPc_loop (s : State) (b : Fin 24) (pc : Nat) : (s.setPc b pc).loop = s.loop := rfl
@[simp] theorem State.setPc_mem (s : State) (b : Fin 24) (pc : Nat) : (s.setPc b pc).mem = s.mem := rfl
@[simp] theorem State.setPc_motion (s : State) (b : Fin 24) (pc : Nat) : (s.setPc b pc).motion = s.motion := rfl
@[simp] theorem State.setPc_host (s : State) (b : Fin 24) (pc : Nat) : (s.setPc b pc).host = s.host := rfl
@[simp] theorem State.setPc_cal (s : State) (b : Fin 24) (pc : Nat) : (s.setPc b pc).cal = s.cal := rfl
@[simp] theorem State.setPc_sec (s : State) (b : Fin 24) (pc : Nat) : (s.setPc b pc).sec = s.sec := rfl
@[simp] theorem State.setPc_out (s : State) (b : Fin 24) (pc : Nat) : (s.setPc b pc).out = s.out := rfl
@[simp] theorem State.setPc_free (s : State) (b : Fin 24) (pc : Nat) : (s.setPc b pc).free = s.free := rfl
@[simp] theorem State.setPc_pending (s : State) (b : Fin 24) (pc : Nat) : (s.setPc b pc).pending = s.pending := rfl
@[simp] theorem State.setPc_reg (s : State) (b : Fin 24) (pc : Nat) (j : Nat) : (s.setPc b pc).reg j = s.reg j := rfl

@[simp] theorem State.modSub_time (s : State) (k : Nat) (f : SubCh → SubCh) : (s.modSub k f).time = s.time := rfl
@[simp] theorem State.modSub_events (s : State) (k : Nat) (f : SubCh → SubCh) : (s.modSub k f).events = s.events := rfl
@[simp] theorem State.modSub_regs (s : State) (k : Nat) (f : SubCh → SubCh) : (s.modSub k f).regs = s.regs := rfl
@[simp] theorem State.modSub_latches (s : State) (k : Nat) (f : SubCh → SubCh) : (s.modSub k f).latches = s.latches := rfl
@[simp] theorem State.modSub_heldLo (s : State) (k : Nat) (f : SubCh → SubCh) : (s.modSub k f).heldLo = s.heldLo := rfl
@[simp] theorem State.modSub_msix (s : State) (k : Nat) (f : SubCh → SubCh) : (s.modSub k f).msix = s.msix := rfl
@[simp] theorem State.modSub_domains (s : State) (k : Nat) (f : SubCh → SubCh) : (s.modSub k f).domains = s.domains := rfl
@[simp] theorem State.modSub_boot (s : State) (k : Nat) (f : SubCh → SubCh) : (s.modSub k f).boot = s.boot := rfl
@[simp] theorem State.modSub_pins (s : State) (k : Nat) (f : SubCh → SubCh) : (s.modSub k f).pins = s.pins := rfl
@[simp] theorem State.modSub_heads (s : State) (k : Nat) (f : SubCh → SubCh) : (s.modSub k f).heads = s.heads := rfl
@[simp] theorem State.modSub_decode (s : State) (k : Nat) (f : SubCh → SubCh) : (s.modSub k f).decode = s.decode := rfl
@[simp] theorem State.modSub_loop (s : State) (k : Nat) (f : SubCh → SubCh) : (s.modSub k f).loop = s.loop := rfl
@[simp] theorem State.modSub_seq (s : State) (k : Nat) (f : SubCh → SubCh) : (s.modSub k f).seq = s.seq := rfl
@[simp] theorem State.modSub_motion (s : State) (k : Nat) (f : SubCh → SubCh) : (s.modSub k f).motion = s.motion := rfl
@[simp] theorem State.modSub_host (s : State) (k : Nat) (f : SubCh → SubCh) : (s.modSub k f).host = s.host := rfl
@[simp] theorem State.modSub_cal (s : State) (k : Nat) (f : SubCh → SubCh) : (s.modSub k f).cal = s.cal := rfl
@[simp] theorem State.modSub_sec (s : State) (k : Nat) (f : SubCh → SubCh) : (s.modSub k f).sec = s.sec := rfl
@[simp] theorem State.modSub_out (s : State) (k : Nat) (f : SubCh → SubCh) : (s.modSub k f).out = s.out := rfl
@[simp] theorem State.modSub_free (s : State) (k : Nat) (f : SubCh → SubCh) : (s.modSub k f).free = s.free := rfl
@[simp] theorem State.modSub_pending (s : State) (k : Nat) (f : SubCh → SubCh) : (s.modSub k f).pending = s.pending := rfl
@[simp] theorem State.modSub_reg (s : State) (k : Nat) (f : SubCh → SubCh) (j : Nat) : (s.modSub k f).reg j = s.reg j := rfl

@[simp] theorem State.modSled_time (s : State) (n : Fin 16) (f : Sled → Sled) : (s.modSled n f).time = s.time := rfl
@[simp] theorem State.modSled_events (s : State) (n : Fin 16) (f : Sled → Sled) : (s.modSled n f).events = s.events := rfl
@[simp] theorem State.modSled_regs (s : State) (n : Fin 16) (f : Sled → Sled) : (s.modSled n f).regs = s.regs := rfl
@[simp] theorem State.modSled_latches (s : State) (n : Fin 16) (f : Sled → Sled) : (s.modSled n f).latches = s.latches := rfl
@[simp] theorem State.modSled_heldLo (s : State) (n : Fin 16) (f : Sled → Sled) : (s.modSled n f).heldLo = s.heldLo := rfl
@[simp] theorem State.modSled_msix (s : State) (n : Fin 16) (f : Sled → Sled) : (s.modSled n f).msix = s.msix := rfl
@[simp] theorem State.modSled_domains (s : State) (n : Fin 16) (f : Sled → Sled) : (s.modSled n f).domains = s.domains := rfl
@[simp] theorem State.modSled_boot (s : State) (n : Fin 16) (f : Sled → Sled) : (s.modSled n f).boot = s.boot := rfl
@[simp] theorem State.modSled_pins (s : State) (n : Fin 16) (f : Sled → Sled) : (s.modSled n f).pins = s.pins := rfl
@[simp] theorem State.modSled_heads (s : State) (n : Fin 16) (f : Sled → Sled) : (s.modSled n f).heads = s.heads := rfl
@[simp] theorem State.modSled_decode (s : State) (n : Fin 16) (f : Sled → Sled) : (s.modSled n f).decode = s.decode := rfl
@[simp] theorem State.modSled_loop (s : State) (n : Fin 16) (f : Sled → Sled) : (s.modSled n f).loop = s.loop := rfl
@[simp] theorem State.modSled_seq (s : State) (n : Fin 16) (f : Sled → Sled) : (s.modSled n f).seq = s.seq := rfl
@[simp] theorem State.modSled_mem (s : State) (n : Fin 16) (f : Sled → Sled) : (s.modSled n f).mem = s.mem := rfl
@[simp] theorem State.modSled_host (s : State) (n : Fin 16) (f : Sled → Sled) : (s.modSled n f).host = s.host := rfl
@[simp] theorem State.modSled_cal (s : State) (n : Fin 16) (f : Sled → Sled) : (s.modSled n f).cal = s.cal := rfl
@[simp] theorem State.modSled_sec (s : State) (n : Fin 16) (f : Sled → Sled) : (s.modSled n f).sec = s.sec := rfl
@[simp] theorem State.modSled_out (s : State) (n : Fin 16) (f : Sled → Sled) : (s.modSled n f).out = s.out := rfl
@[simp] theorem State.modSled_free (s : State) (n : Fin 16) (f : Sled → Sled) : (s.modSled n f).free = s.free := rfl
@[simp] theorem State.modSled_pending (s : State) (n : Fin 16) (f : Sled → Sled) : (s.modSled n f).pending = s.pending := rfl
@[simp] theorem State.modSled_reg (s : State) (n : Fin 16) (f : Sled → Sled) (j : Nat) : (s.modSled n f).reg j = s.reg j := rfl

@[simp] theorem State.modSpin_time (s : State) (f : Spindle → Spindle) : (s.modSpin f).time = s.time := rfl
@[simp] theorem State.modSpin_events (s : State) (f : Spindle → Spindle) : (s.modSpin f).events = s.events := rfl
@[simp] theorem State.modSpin_regs (s : State) (f : Spindle → Spindle) : (s.modSpin f).regs = s.regs := rfl
@[simp] theorem State.modSpin_latches (s : State) (f : Spindle → Spindle) : (s.modSpin f).latches = s.latches := rfl
@[simp] theorem State.modSpin_heldLo (s : State) (f : Spindle → Spindle) : (s.modSpin f).heldLo = s.heldLo := rfl
@[simp] theorem State.modSpin_msix (s : State) (f : Spindle → Spindle) : (s.modSpin f).msix = s.msix := rfl
@[simp] theorem State.modSpin_domains (s : State) (f : Spindle → Spindle) : (s.modSpin f).domains = s.domains := rfl
@[simp] theorem State.modSpin_boot (s : State) (f : Spindle → Spindle) : (s.modSpin f).boot = s.boot := rfl
@[simp] theorem State.modSpin_pins (s : State) (f : Spindle → Spindle) : (s.modSpin f).pins = s.pins := rfl
@[simp] theorem State.modSpin_heads (s : State) (f : Spindle → Spindle) : (s.modSpin f).heads = s.heads := rfl
@[simp] theorem State.modSpin_decode (s : State) (f : Spindle → Spindle) : (s.modSpin f).decode = s.decode := rfl
@[simp] theorem State.modSpin_loop (s : State) (f : Spindle → Spindle) : (s.modSpin f).loop = s.loop := rfl
@[simp] theorem State.modSpin_seq (s : State) (f : Spindle → Spindle) : (s.modSpin f).seq = s.seq := rfl
@[simp] theorem State.modSpin_mem (s : State) (f : Spindle → Spindle) : (s.modSpin f).mem = s.mem := rfl
@[simp] theorem State.modSpin_host (s : State) (f : Spindle → Spindle) : (s.modSpin f).host = s.host := rfl
@[simp] theorem State.modSpin_cal (s : State) (f : Spindle → Spindle) : (s.modSpin f).cal = s.cal := rfl
@[simp] theorem State.modSpin_sec (s : State) (f : Spindle → Spindle) : (s.modSpin f).sec = s.sec := rfl
@[simp] theorem State.modSpin_out (s : State) (f : Spindle → Spindle) : (s.modSpin f).out = s.out := rfl
@[simp] theorem State.modSpin_free (s : State) (f : Spindle → Spindle) : (s.modSpin f).free = s.free := rfl
@[simp] theorem State.modSpin_pending (s : State) (f : Spindle → Spindle) : (s.modSpin f).pending = s.pending := rfl
@[simp] theorem State.modSpin_reg (s : State) (f : Spindle → Spindle) (j : Nat) : (s.modSpin f).reg j = s.reg j := rfl

@[simp] theorem State.modHost_time (s : State) (f : HostState → HostState) : (s.modHost f).time = s.time := rfl
@[simp] theorem State.modHost_events (s : State) (f : HostState → HostState) : (s.modHost f).events = s.events := rfl
@[simp] theorem State.modHost_regs (s : State) (f : HostState → HostState) : (s.modHost f).regs = s.regs := rfl
@[simp] theorem State.modHost_latches (s : State) (f : HostState → HostState) : (s.modHost f).latches = s.latches := rfl
@[simp] theorem State.modHost_heldLo (s : State) (f : HostState → HostState) : (s.modHost f).heldLo = s.heldLo := rfl
@[simp] theorem State.modHost_msix (s : State) (f : HostState → HostState) : (s.modHost f).msix = s.msix := rfl
@[simp] theorem State.modHost_domains (s : State) (f : HostState → HostState) : (s.modHost f).domains = s.domains := rfl
@[simp] theorem State.modHost_boot (s : State) (f : HostState → HostState) : (s.modHost f).boot = s.boot := rfl
@[simp] theorem State.modHost_pins (s : State) (f : HostState → HostState) : (s.modHost f).pins = s.pins := rfl
@[simp] theorem State.modHost_heads (s : State) (f : HostState → HostState) : (s.modHost f).heads = s.heads := rfl
@[simp] theorem State.modHost_decode (s : State) (f : HostState → HostState) : (s.modHost f).decode = s.decode := rfl
@[simp] theorem State.modHost_loop (s : State) (f : HostState → HostState) : (s.modHost f).loop = s.loop := rfl
@[simp] theorem State.modHost_seq (s : State) (f : HostState → HostState) : (s.modHost f).seq = s.seq := rfl
@[simp] theorem State.modHost_mem (s : State) (f : HostState → HostState) : (s.modHost f).mem = s.mem := rfl
@[simp] theorem State.modHost_motion (s : State) (f : HostState → HostState) : (s.modHost f).motion = s.motion := rfl
@[simp] theorem State.modHost_cal (s : State) (f : HostState → HostState) : (s.modHost f).cal = s.cal := rfl
@[simp] theorem State.modHost_sec (s : State) (f : HostState → HostState) : (s.modHost f).sec = s.sec := rfl
@[simp] theorem State.modHost_out (s : State) (f : HostState → HostState) : (s.modHost f).out = s.out := rfl
@[simp] theorem State.modHost_free (s : State) (f : HostState → HostState) : (s.modHost f).free = s.free := rfl
@[simp] theorem State.modHost_pending (s : State) (f : HostState → HostState) : (s.modHost f).pending = s.pending := rfl
@[simp] theorem State.modHost_reg (s : State) (f : HostState → HostState) (j : Nat) : (s.modHost f).reg j = s.reg j := rfl

@[simp] theorem State.modPlace_time (s : State) (f : PlaceState → PlaceState) : (s.modPlace f).time = s.time := rfl
@[simp] theorem State.modPlace_events (s : State) (f : PlaceState → PlaceState) : (s.modPlace f).events = s.events := rfl
@[simp] theorem State.modPlace_regs (s : State) (f : PlaceState → PlaceState) : (s.modPlace f).regs = s.regs := rfl
@[simp] theorem State.modPlace_latches (s : State) (f : PlaceState → PlaceState) : (s.modPlace f).latches = s.latches := rfl
@[simp] theorem State.modPlace_heldLo (s : State) (f : PlaceState → PlaceState) : (s.modPlace f).heldLo = s.heldLo := rfl
@[simp] theorem State.modPlace_msix (s : State) (f : PlaceState → PlaceState) : (s.modPlace f).msix = s.msix := rfl
@[simp] theorem State.modPlace_domains (s : State) (f : PlaceState → PlaceState) : (s.modPlace f).domains = s.domains := rfl
@[simp] theorem State.modPlace_boot (s : State) (f : PlaceState → PlaceState) : (s.modPlace f).boot = s.boot := rfl
@[simp] theorem State.modPlace_pins (s : State) (f : PlaceState → PlaceState) : (s.modPlace f).pins = s.pins := rfl
@[simp] theorem State.modPlace_heads (s : State) (f : PlaceState → PlaceState) : (s.modPlace f).heads = s.heads := rfl
@[simp] theorem State.modPlace_decode (s : State) (f : PlaceState → PlaceState) : (s.modPlace f).decode = s.decode := rfl
@[simp] theorem State.modPlace_loop (s : State) (f : PlaceState → PlaceState) : (s.modPlace f).loop = s.loop := rfl
@[simp] theorem State.modPlace_seq (s : State) (f : PlaceState → PlaceState) : (s.modPlace f).seq = s.seq := rfl
@[simp] theorem State.modPlace_mem (s : State) (f : PlaceState → PlaceState) : (s.modPlace f).mem = s.mem := rfl
@[simp] theorem State.modPlace_motion (s : State) (f : PlaceState → PlaceState) : (s.modPlace f).motion = s.motion := rfl
@[simp] theorem State.modPlace_cal (s : State) (f : PlaceState → PlaceState) : (s.modPlace f).cal = s.cal := rfl
@[simp] theorem State.modPlace_sec (s : State) (f : PlaceState → PlaceState) : (s.modPlace f).sec = s.sec := rfl
@[simp] theorem State.modPlace_out (s : State) (f : PlaceState → PlaceState) : (s.modPlace f).out = s.out := rfl
@[simp] theorem State.modPlace_free (s : State) (f : PlaceState → PlaceState) : (s.modPlace f).free = s.free := rfl
@[simp] theorem State.modPlace_pending (s : State) (f : PlaceState → PlaceState) : (s.modPlace f).pending = s.pending := rfl
@[simp] theorem State.modPlace_reg (s : State) (f : PlaceState → PlaceState) (j : Nat) : (s.modPlace f).reg j = s.reg j := rfl

@[simp] theorem State.modFn_time (s : State) (fn : Nat) (f : FnState → FnState) : (s.modFn fn f).time = s.time := rfl
@[simp] theorem State.modFn_events (s : State) (fn : Nat) (f : FnState → FnState) : (s.modFn fn f).events = s.events := rfl
@[simp] theorem State.modFn_regs (s : State) (fn : Nat) (f : FnState → FnState) : (s.modFn fn f).regs = s.regs := rfl
@[simp] theorem State.modFn_latches (s : State) (fn : Nat) (f : FnState → FnState) : (s.modFn fn f).latches = s.latches := rfl
@[simp] theorem State.modFn_heldLo (s : State) (fn : Nat) (f : FnState → FnState) : (s.modFn fn f).heldLo = s.heldLo := rfl
@[simp] theorem State.modFn_msix (s : State) (fn : Nat) (f : FnState → FnState) : (s.modFn fn f).msix = s.msix := rfl
@[simp] theorem State.modFn_domains (s : State) (fn : Nat) (f : FnState → FnState) : (s.modFn fn f).domains = s.domains := rfl
@[simp] theorem State.modFn_boot (s : State) (fn : Nat) (f : FnState → FnState) : (s.modFn fn f).boot = s.boot := rfl
@[simp] theorem State.modFn_pins (s : State) (fn : Nat) (f : FnState → FnState) : (s.modFn fn f).pins = s.pins := rfl
@[simp] theorem State.modFn_heads (s : State) (fn : Nat) (f : FnState → FnState) : (s.modFn fn f).heads = s.heads := rfl
@[simp] theorem State.modFn_decode (s : State) (fn : Nat) (f : FnState → FnState) : (s.modFn fn f).decode = s.decode := rfl
@[simp] theorem State.modFn_loop (s : State) (fn : Nat) (f : FnState → FnState) : (s.modFn fn f).loop = s.loop := rfl
@[simp] theorem State.modFn_seq (s : State) (fn : Nat) (f : FnState → FnState) : (s.modFn fn f).seq = s.seq := rfl
@[simp] theorem State.modFn_mem (s : State) (fn : Nat) (f : FnState → FnState) : (s.modFn fn f).mem = s.mem := rfl
@[simp] theorem State.modFn_motion (s : State) (fn : Nat) (f : FnState → FnState) : (s.modFn fn f).motion = s.motion := rfl
@[simp] theorem State.modFn_cal (s : State) (fn : Nat) (f : FnState → FnState) : (s.modFn fn f).cal = s.cal := rfl
@[simp] theorem State.modFn_sec (s : State) (fn : Nat) (f : FnState → FnState) : (s.modFn fn f).sec = s.sec := rfl
@[simp] theorem State.modFn_out (s : State) (fn : Nat) (f : FnState → FnState) : (s.modFn fn f).out = s.out := rfl
@[simp] theorem State.modFn_free (s : State) (fn : Nat) (f : FnState → FnState) : (s.modFn fn f).free = s.free := rfl
@[simp] theorem State.modFn_pending (s : State) (fn : Nat) (f : FnState → FnState) : (s.modFn fn f).pending = s.pending := rfl
@[simp] theorem State.modFn_reg (s : State) (fn : Nat) (f : FnState → FnState) (j : Nat) : (s.modFn fn f).reg j = s.reg j := rfl

@[simp] theorem State.modCmd_time (s : State) (t : Stamp) (f : HostCmd → HostCmd) : (s.modCmd t f).time = s.time := rfl
@[simp] theorem State.modCmd_events (s : State) (t : Stamp) (f : HostCmd → HostCmd) : (s.modCmd t f).events = s.events := rfl
@[simp] theorem State.modCmd_regs (s : State) (t : Stamp) (f : HostCmd → HostCmd) : (s.modCmd t f).regs = s.regs := rfl
@[simp] theorem State.modCmd_latches (s : State) (t : Stamp) (f : HostCmd → HostCmd) : (s.modCmd t f).latches = s.latches := rfl
@[simp] theorem State.modCmd_heldLo (s : State) (t : Stamp) (f : HostCmd → HostCmd) : (s.modCmd t f).heldLo = s.heldLo := rfl
@[simp] theorem State.modCmd_msix (s : State) (t : Stamp) (f : HostCmd → HostCmd) : (s.modCmd t f).msix = s.msix := rfl
@[simp] theorem State.modCmd_domains (s : State) (t : Stamp) (f : HostCmd → HostCmd) : (s.modCmd t f).domains = s.domains := rfl
@[simp] theorem State.modCmd_boot (s : State) (t : Stamp) (f : HostCmd → HostCmd) : (s.modCmd t f).boot = s.boot := rfl
@[simp] theorem State.modCmd_pins (s : State) (t : Stamp) (f : HostCmd → HostCmd) : (s.modCmd t f).pins = s.pins := rfl
@[simp] theorem State.modCmd_heads (s : State) (t : Stamp) (f : HostCmd → HostCmd) : (s.modCmd t f).heads = s.heads := rfl
@[simp] theorem State.modCmd_decode (s : State) (t : Stamp) (f : HostCmd → HostCmd) : (s.modCmd t f).decode = s.decode := rfl
@[simp] theorem State.modCmd_loop (s : State) (t : Stamp) (f : HostCmd → HostCmd) : (s.modCmd t f).loop = s.loop := rfl
@[simp] theorem State.modCmd_seq (s : State) (t : Stamp) (f : HostCmd → HostCmd) : (s.modCmd t f).seq = s.seq := rfl
@[simp] theorem State.modCmd_mem (s : State) (t : Stamp) (f : HostCmd → HostCmd) : (s.modCmd t f).mem = s.mem := rfl
@[simp] theorem State.modCmd_motion (s : State) (t : Stamp) (f : HostCmd → HostCmd) : (s.modCmd t f).motion = s.motion := rfl
@[simp] theorem State.modCmd_cal (s : State) (t : Stamp) (f : HostCmd → HostCmd) : (s.modCmd t f).cal = s.cal := rfl
@[simp] theorem State.modCmd_sec (s : State) (t : Stamp) (f : HostCmd → HostCmd) : (s.modCmd t f).sec = s.sec := rfl
@[simp] theorem State.modCmd_out (s : State) (t : Stamp) (f : HostCmd → HostCmd) : (s.modCmd t f).out = s.out := rfl
@[simp] theorem State.modCmd_free (s : State) (t : Stamp) (f : HostCmd → HostCmd) : (s.modCmd t f).free = s.free := rfl
@[simp] theorem State.modCmd_pending (s : State) (t : Stamp) (f : HostCmd → HostCmd) : (s.modCmd t f).pending = s.pending := rfl
@[simp] theorem State.modCmd_reg (s : State) (t : Stamp) (f : HostCmd → HostCmd) (j : Nat) : (s.modCmd t f).reg j = s.reg j := rfl

@[simp] theorem State.modCal_time (s : State) (f : CalState → CalState) : (s.modCal f).time = s.time := rfl
@[simp] theorem State.modCal_events (s : State) (f : CalState → CalState) : (s.modCal f).events = s.events := rfl
@[simp] theorem State.modCal_regs (s : State) (f : CalState → CalState) : (s.modCal f).regs = s.regs := rfl
@[simp] theorem State.modCal_latches (s : State) (f : CalState → CalState) : (s.modCal f).latches = s.latches := rfl
@[simp] theorem State.modCal_heldLo (s : State) (f : CalState → CalState) : (s.modCal f).heldLo = s.heldLo := rfl
@[simp] theorem State.modCal_msix (s : State) (f : CalState → CalState) : (s.modCal f).msix = s.msix := rfl
@[simp] theorem State.modCal_domains (s : State) (f : CalState → CalState) : (s.modCal f).domains = s.domains := rfl
@[simp] theorem State.modCal_boot (s : State) (f : CalState → CalState) : (s.modCal f).boot = s.boot := rfl
@[simp] theorem State.modCal_pins (s : State) (f : CalState → CalState) : (s.modCal f).pins = s.pins := rfl
@[simp] theorem State.modCal_heads (s : State) (f : CalState → CalState) : (s.modCal f).heads = s.heads := rfl
@[simp] theorem State.modCal_decode (s : State) (f : CalState → CalState) : (s.modCal f).decode = s.decode := rfl
@[simp] theorem State.modCal_loop (s : State) (f : CalState → CalState) : (s.modCal f).loop = s.loop := rfl
@[simp] theorem State.modCal_seq (s : State) (f : CalState → CalState) : (s.modCal f).seq = s.seq := rfl
@[simp] theorem State.modCal_mem (s : State) (f : CalState → CalState) : (s.modCal f).mem = s.mem := rfl
@[simp] theorem State.modCal_motion (s : State) (f : CalState → CalState) : (s.modCal f).motion = s.motion := rfl
@[simp] theorem State.modCal_host (s : State) (f : CalState → CalState) : (s.modCal f).host = s.host := rfl
@[simp] theorem State.modCal_sec (s : State) (f : CalState → CalState) : (s.modCal f).sec = s.sec := rfl
@[simp] theorem State.modCal_out (s : State) (f : CalState → CalState) : (s.modCal f).out = s.out := rfl
@[simp] theorem State.modCal_free (s : State) (f : CalState → CalState) : (s.modCal f).free = s.free := rfl
@[simp] theorem State.modCal_pending (s : State) (f : CalState → CalState) : (s.modCal f).pending = s.pending := rfl
@[simp] theorem State.modCal_reg (s : State) (f : CalState → CalState) (j : Nat) : (s.modCal f).reg j = s.reg j := rfl

@[simp] theorem State.modSec_time (s : State) (f : SecState → SecState) : (s.modSec f).time = s.time := rfl
@[simp] theorem State.modSec_events (s : State) (f : SecState → SecState) : (s.modSec f).events = s.events := rfl
@[simp] theorem State.modSec_regs (s : State) (f : SecState → SecState) : (s.modSec f).regs = s.regs := rfl
@[simp] theorem State.modSec_latches (s : State) (f : SecState → SecState) : (s.modSec f).latches = s.latches := rfl
@[simp] theorem State.modSec_heldLo (s : State) (f : SecState → SecState) : (s.modSec f).heldLo = s.heldLo := rfl
@[simp] theorem State.modSec_msix (s : State) (f : SecState → SecState) : (s.modSec f).msix = s.msix := rfl
@[simp] theorem State.modSec_domains (s : State) (f : SecState → SecState) : (s.modSec f).domains = s.domains := rfl
@[simp] theorem State.modSec_boot (s : State) (f : SecState → SecState) : (s.modSec f).boot = s.boot := rfl
@[simp] theorem State.modSec_pins (s : State) (f : SecState → SecState) : (s.modSec f).pins = s.pins := rfl
@[simp] theorem State.modSec_heads (s : State) (f : SecState → SecState) : (s.modSec f).heads = s.heads := rfl
@[simp] theorem State.modSec_decode (s : State) (f : SecState → SecState) : (s.modSec f).decode = s.decode := rfl
@[simp] theorem State.modSec_loop (s : State) (f : SecState → SecState) : (s.modSec f).loop = s.loop := rfl
@[simp] theorem State.modSec_seq (s : State) (f : SecState → SecState) : (s.modSec f).seq = s.seq := rfl
@[simp] theorem State.modSec_mem (s : State) (f : SecState → SecState) : (s.modSec f).mem = s.mem := rfl
@[simp] theorem State.modSec_motion (s : State) (f : SecState → SecState) : (s.modSec f).motion = s.motion := rfl
@[simp] theorem State.modSec_host (s : State) (f : SecState → SecState) : (s.modSec f).host = s.host := rfl
@[simp] theorem State.modSec_cal (s : State) (f : SecState → SecState) : (s.modSec f).cal = s.cal := rfl
@[simp] theorem State.modSec_out (s : State) (f : SecState → SecState) : (s.modSec f).out = s.out := rfl
@[simp] theorem State.modSec_free (s : State) (f : SecState → SecState) : (s.modSec f).free = s.free := rfl
@[simp] theorem State.modSec_pending (s : State) (f : SecState → SecState) : (s.modSec f).pending = s.pending := rfl
@[simp] theorem State.modSec_reg (s : State) (f : SecState → SecState) (j : Nat) : (s.modSec f).reg j = s.reg j := rfl

@[simp] theorem State.setPhase_time (s : State) (d : Fin 19) (p : DomainPhase) : (s.setPhase d p).time = s.time := rfl
@[simp] theorem State.setPhase_events (s : State) (d : Fin 19) (p : DomainPhase) : (s.setPhase d p).events = s.events := rfl
@[simp] theorem State.setPhase_regs (s : State) (d : Fin 19) (p : DomainPhase) : (s.setPhase d p).regs = s.regs := rfl
@[simp] theorem State.setPhase_latches (s : State) (d : Fin 19) (p : DomainPhase) : (s.setPhase d p).latches = s.latches := rfl
@[simp] theorem State.setPhase_heldLo (s : State) (d : Fin 19) (p : DomainPhase) : (s.setPhase d p).heldLo = s.heldLo := rfl
@[simp] theorem State.setPhase_msix (s : State) (d : Fin 19) (p : DomainPhase) : (s.setPhase d p).msix = s.msix := rfl
@[simp] theorem State.setPhase_boot (s : State) (d : Fin 19) (p : DomainPhase) : (s.setPhase d p).boot = s.boot := rfl
@[simp] theorem State.setPhase_pins (s : State) (d : Fin 19) (p : DomainPhase) : (s.setPhase d p).pins = s.pins := rfl
@[simp] theorem State.setPhase_heads (s : State) (d : Fin 19) (p : DomainPhase) : (s.setPhase d p).heads = s.heads := rfl
@[simp] theorem State.setPhase_decode (s : State) (d : Fin 19) (p : DomainPhase) : (s.setPhase d p).decode = s.decode := rfl
@[simp] theorem State.setPhase_loop (s : State) (d : Fin 19) (p : DomainPhase) : (s.setPhase d p).loop = s.loop := rfl
@[simp] theorem State.setPhase_seq (s : State) (d : Fin 19) (p : DomainPhase) : (s.setPhase d p).seq = s.seq := rfl
@[simp] theorem State.setPhase_mem (s : State) (d : Fin 19) (p : DomainPhase) : (s.setPhase d p).mem = s.mem := rfl
@[simp] theorem State.setPhase_motion (s : State) (d : Fin 19) (p : DomainPhase) : (s.setPhase d p).motion = s.motion := rfl
@[simp] theorem State.setPhase_host (s : State) (d : Fin 19) (p : DomainPhase) : (s.setPhase d p).host = s.host := rfl
@[simp] theorem State.setPhase_cal (s : State) (d : Fin 19) (p : DomainPhase) : (s.setPhase d p).cal = s.cal := rfl
@[simp] theorem State.setPhase_sec (s : State) (d : Fin 19) (p : DomainPhase) : (s.setPhase d p).sec = s.sec := rfl
@[simp] theorem State.setPhase_out (s : State) (d : Fin 19) (p : DomainPhase) : (s.setPhase d p).out = s.out := rfl
@[simp] theorem State.setPhase_free (s : State) (d : Fin 19) (p : DomainPhase) : (s.setPhase d p).free = s.free := rfl
@[simp] theorem State.setPhase_pending (s : State) (d : Fin 19) (p : DomainPhase) : (s.setPhase d p).pending = s.pending := rfl
@[simp] theorem State.setPhase_reg (s : State) (d : Fin 19) (p : DomainPhase) (j : Nat) : (s.setPhase d p).reg j = s.reg j := rfl

@[simp] theorem State.setXing_time (s : State) (src : Nat) (x : EventXing) : (s.setXing src x).time = s.time := rfl
@[simp] theorem State.setXing_regs (s : State) (src : Nat) (x : EventXing) : (s.setXing src x).regs = s.regs := rfl
@[simp] theorem State.setXing_latches (s : State) (src : Nat) (x : EventXing) : (s.setXing src x).latches = s.latches := rfl
@[simp] theorem State.setXing_heldLo (s : State) (src : Nat) (x : EventXing) : (s.setXing src x).heldLo = s.heldLo := rfl
@[simp] theorem State.setXing_msix (s : State) (src : Nat) (x : EventXing) : (s.setXing src x).msix = s.msix := rfl
@[simp] theorem State.setXing_domains (s : State) (src : Nat) (x : EventXing) : (s.setXing src x).domains = s.domains := rfl
@[simp] theorem State.setXing_boot (s : State) (src : Nat) (x : EventXing) : (s.setXing src x).boot = s.boot := rfl
@[simp] theorem State.setXing_pins (s : State) (src : Nat) (x : EventXing) : (s.setXing src x).pins = s.pins := rfl
@[simp] theorem State.setXing_heads (s : State) (src : Nat) (x : EventXing) : (s.setXing src x).heads = s.heads := rfl
@[simp] theorem State.setXing_decode (s : State) (src : Nat) (x : EventXing) : (s.setXing src x).decode = s.decode := rfl
@[simp] theorem State.setXing_loop (s : State) (src : Nat) (x : EventXing) : (s.setXing src x).loop = s.loop := rfl
@[simp] theorem State.setXing_seq (s : State) (src : Nat) (x : EventXing) : (s.setXing src x).seq = s.seq := rfl
@[simp] theorem State.setXing_mem (s : State) (src : Nat) (x : EventXing) : (s.setXing src x).mem = s.mem := rfl
@[simp] theorem State.setXing_motion (s : State) (src : Nat) (x : EventXing) : (s.setXing src x).motion = s.motion := rfl
@[simp] theorem State.setXing_host (s : State) (src : Nat) (x : EventXing) : (s.setXing src x).host = s.host := rfl
@[simp] theorem State.setXing_cal (s : State) (src : Nat) (x : EventXing) : (s.setXing src x).cal = s.cal := rfl
@[simp] theorem State.setXing_sec (s : State) (src : Nat) (x : EventXing) : (s.setXing src x).sec = s.sec := rfl
@[simp] theorem State.setXing_out (s : State) (src : Nat) (x : EventXing) : (s.setXing src x).out = s.out := rfl
@[simp] theorem State.setXing_free (s : State) (src : Nat) (x : EventXing) : (s.setXing src x).free = s.free := rfl
@[simp] theorem State.setXing_pending (s : State) (src : Nat) (x : EventXing) : (s.setXing src x).pending = s.pending := rfl
@[simp] theorem State.setXing_reg (s : State) (src : Nat) (x : EventXing) (j : Nat) : (s.setXing src x).reg j = s.reg j := rfl

@[simp] theorem State.post_time (s : State) (r : EventRec) : (s.post r).time = s.time := by simp only [State.post]; split <;> rfl
@[simp] theorem State.post_regs (s : State) (r : EventRec) : (s.post r).regs = s.regs := by simp only [State.post]; split <;> rfl
@[simp] theorem State.post_latches (s : State) (r : EventRec) : (s.post r).latches = s.latches := by simp only [State.post]; split <;> rfl
@[simp] theorem State.post_heldLo (s : State) (r : EventRec) : (s.post r).heldLo = s.heldLo := by simp only [State.post]; split <;> rfl
@[simp] theorem State.post_msix (s : State) (r : EventRec) : (s.post r).msix = s.msix := by simp only [State.post]; split <;> rfl
@[simp] theorem State.post_domains (s : State) (r : EventRec) : (s.post r).domains = s.domains := by simp only [State.post]; split <;> rfl
@[simp] theorem State.post_boot (s : State) (r : EventRec) : (s.post r).boot = s.boot := by simp only [State.post]; split <;> rfl
@[simp] theorem State.post_pins (s : State) (r : EventRec) : (s.post r).pins = s.pins := by simp only [State.post]; split <;> rfl
@[simp] theorem State.post_heads (s : State) (r : EventRec) : (s.post r).heads = s.heads := by simp only [State.post]; split <;> rfl
@[simp] theorem State.post_decode (s : State) (r : EventRec) : (s.post r).decode = s.decode := by simp only [State.post]; split <;> rfl
@[simp] theorem State.post_loop (s : State) (r : EventRec) : (s.post r).loop = s.loop := by simp only [State.post]; split <;> rfl
@[simp] theorem State.post_seq (s : State) (r : EventRec) : (s.post r).seq = s.seq := by simp only [State.post]; split <;> rfl
@[simp] theorem State.post_mem (s : State) (r : EventRec) : (s.post r).mem = s.mem := by simp only [State.post]; split <;> rfl
@[simp] theorem State.post_motion (s : State) (r : EventRec) : (s.post r).motion = s.motion := by simp only [State.post]; split <;> rfl
@[simp] theorem State.post_host (s : State) (r : EventRec) : (s.post r).host = s.host := by simp only [State.post]; split <;> rfl
@[simp] theorem State.post_cal (s : State) (r : EventRec) : (s.post r).cal = s.cal := by simp only [State.post]; split <;> rfl
@[simp] theorem State.post_sec (s : State) (r : EventRec) : (s.post r).sec = s.sec := by simp only [State.post]; split <;> rfl
@[simp] theorem State.post_out (s : State) (r : EventRec) : (s.post r).out = s.out := by simp only [State.post]; split <;> rfl
@[simp] theorem State.post_free (s : State) (r : EventRec) : (s.post r).free = s.free := by simp only [State.post]; split <;> rfl
@[simp] theorem State.post_pending (s : State) (r : EventRec) : (s.post r).pending = s.pending := by simp only [State.post]; split <;> rfl
@[simp] theorem State.post_reg (s : State) (r : EventRec) (j : Nat) : (s.post r).reg j = s.reg j := by unfold State.reg; rw [State.post_regs]

@[simp] theorem State.logAt_time (s : State) (src : Nat) (t : Stamp) (code a0 a1 a2 a3 : Nat) : (s.logAt src t code a0 a1 a2 a3).time = s.time := State.post_time _ _
@[simp] theorem State.logAt_regs (s : State) (src : Nat) (t : Stamp) (code a0 a1 a2 a3 : Nat) : (s.logAt src t code a0 a1 a2 a3).regs = s.regs := State.post_regs _ _
@[simp] theorem State.logAt_latches (s : State) (src : Nat) (t : Stamp) (code a0 a1 a2 a3 : Nat) : (s.logAt src t code a0 a1 a2 a3).latches = s.latches := State.post_latches _ _
@[simp] theorem State.logAt_heldLo (s : State) (src : Nat) (t : Stamp) (code a0 a1 a2 a3 : Nat) : (s.logAt src t code a0 a1 a2 a3).heldLo = s.heldLo := State.post_heldLo _ _
@[simp] theorem State.logAt_msix (s : State) (src : Nat) (t : Stamp) (code a0 a1 a2 a3 : Nat) : (s.logAt src t code a0 a1 a2 a3).msix = s.msix := State.post_msix _ _
@[simp] theorem State.logAt_domains (s : State) (src : Nat) (t : Stamp) (code a0 a1 a2 a3 : Nat) : (s.logAt src t code a0 a1 a2 a3).domains = s.domains := State.post_domains _ _
@[simp] theorem State.logAt_boot (s : State) (src : Nat) (t : Stamp) (code a0 a1 a2 a3 : Nat) : (s.logAt src t code a0 a1 a2 a3).boot = s.boot := State.post_boot _ _
@[simp] theorem State.logAt_pins (s : State) (src : Nat) (t : Stamp) (code a0 a1 a2 a3 : Nat) : (s.logAt src t code a0 a1 a2 a3).pins = s.pins := State.post_pins _ _
@[simp] theorem State.logAt_heads (s : State) (src : Nat) (t : Stamp) (code a0 a1 a2 a3 : Nat) : (s.logAt src t code a0 a1 a2 a3).heads = s.heads := State.post_heads _ _
@[simp] theorem State.logAt_decode (s : State) (src : Nat) (t : Stamp) (code a0 a1 a2 a3 : Nat) : (s.logAt src t code a0 a1 a2 a3).decode = s.decode := State.post_decode _ _
@[simp] theorem State.logAt_loop (s : State) (src : Nat) (t : Stamp) (code a0 a1 a2 a3 : Nat) : (s.logAt src t code a0 a1 a2 a3).loop = s.loop := State.post_loop _ _
@[simp] theorem State.logAt_seq (s : State) (src : Nat) (t : Stamp) (code a0 a1 a2 a3 : Nat) : (s.logAt src t code a0 a1 a2 a3).seq = s.seq := State.post_seq _ _
@[simp] theorem State.logAt_mem (s : State) (src : Nat) (t : Stamp) (code a0 a1 a2 a3 : Nat) : (s.logAt src t code a0 a1 a2 a3).mem = s.mem := State.post_mem _ _
@[simp] theorem State.logAt_motion (s : State) (src : Nat) (t : Stamp) (code a0 a1 a2 a3 : Nat) : (s.logAt src t code a0 a1 a2 a3).motion = s.motion := State.post_motion _ _
@[simp] theorem State.logAt_host (s : State) (src : Nat) (t : Stamp) (code a0 a1 a2 a3 : Nat) : (s.logAt src t code a0 a1 a2 a3).host = s.host := State.post_host _ _
@[simp] theorem State.logAt_cal (s : State) (src : Nat) (t : Stamp) (code a0 a1 a2 a3 : Nat) : (s.logAt src t code a0 a1 a2 a3).cal = s.cal := State.post_cal _ _
@[simp] theorem State.logAt_sec (s : State) (src : Nat) (t : Stamp) (code a0 a1 a2 a3 : Nat) : (s.logAt src t code a0 a1 a2 a3).sec = s.sec := State.post_sec _ _
@[simp] theorem State.logAt_out (s : State) (src : Nat) (t : Stamp) (code a0 a1 a2 a3 : Nat) : (s.logAt src t code a0 a1 a2 a3).out = s.out := State.post_out _ _
@[simp] theorem State.logAt_free (s : State) (src : Nat) (t : Stamp) (code a0 a1 a2 a3 : Nat) : (s.logAt src t code a0 a1 a2 a3).free = s.free := State.post_free _ _
@[simp] theorem State.logAt_pending (s : State) (src : Nat) (t : Stamp) (code a0 a1 a2 a3 : Nat) : (s.logAt src t code a0 a1 a2 a3).pending = s.pending := State.post_pending _ _
@[simp] theorem State.logAt_reg (s : State) (src : Nat) (t : Stamp) (code a0 a1 a2 a3 : Nat) (j : Nat) : (s.logAt src t code a0 a1 a2 a3).reg j = s.reg j := by unfold State.reg; rw [State.logAt_regs]

@[simp] theorem State.log_time (s : State) (src : Nat) (i : Island) (code a0 a1 a2 a3 : Nat) : (s.log src i code a0 a1 a2 a3).time = s.time := State.logAt_time _ _ _ _ _ _ _ _
@[simp] theorem State.log_regs (s : State) (src : Nat) (i : Island) (code a0 a1 a2 a3 : Nat) : (s.log src i code a0 a1 a2 a3).regs = s.regs := State.logAt_regs _ _ _ _ _ _ _ _
@[simp] theorem State.log_latches (s : State) (src : Nat) (i : Island) (code a0 a1 a2 a3 : Nat) : (s.log src i code a0 a1 a2 a3).latches = s.latches := State.logAt_latches _ _ _ _ _ _ _ _
@[simp] theorem State.log_heldLo (s : State) (src : Nat) (i : Island) (code a0 a1 a2 a3 : Nat) : (s.log src i code a0 a1 a2 a3).heldLo = s.heldLo := State.logAt_heldLo _ _ _ _ _ _ _ _
@[simp] theorem State.log_msix (s : State) (src : Nat) (i : Island) (code a0 a1 a2 a3 : Nat) : (s.log src i code a0 a1 a2 a3).msix = s.msix := State.logAt_msix _ _ _ _ _ _ _ _
@[simp] theorem State.log_domains (s : State) (src : Nat) (i : Island) (code a0 a1 a2 a3 : Nat) : (s.log src i code a0 a1 a2 a3).domains = s.domains := State.logAt_domains _ _ _ _ _ _ _ _
@[simp] theorem State.log_boot (s : State) (src : Nat) (i : Island) (code a0 a1 a2 a3 : Nat) : (s.log src i code a0 a1 a2 a3).boot = s.boot := State.logAt_boot _ _ _ _ _ _ _ _
@[simp] theorem State.log_pins (s : State) (src : Nat) (i : Island) (code a0 a1 a2 a3 : Nat) : (s.log src i code a0 a1 a2 a3).pins = s.pins := State.logAt_pins _ _ _ _ _ _ _ _
@[simp] theorem State.log_heads (s : State) (src : Nat) (i : Island) (code a0 a1 a2 a3 : Nat) : (s.log src i code a0 a1 a2 a3).heads = s.heads := State.logAt_heads _ _ _ _ _ _ _ _
@[simp] theorem State.log_decode (s : State) (src : Nat) (i : Island) (code a0 a1 a2 a3 : Nat) : (s.log src i code a0 a1 a2 a3).decode = s.decode := State.logAt_decode _ _ _ _ _ _ _ _
@[simp] theorem State.log_loop (s : State) (src : Nat) (i : Island) (code a0 a1 a2 a3 : Nat) : (s.log src i code a0 a1 a2 a3).loop = s.loop := State.logAt_loop _ _ _ _ _ _ _ _
@[simp] theorem State.log_seq (s : State) (src : Nat) (i : Island) (code a0 a1 a2 a3 : Nat) : (s.log src i code a0 a1 a2 a3).seq = s.seq := State.logAt_seq _ _ _ _ _ _ _ _
@[simp] theorem State.log_mem (s : State) (src : Nat) (i : Island) (code a0 a1 a2 a3 : Nat) : (s.log src i code a0 a1 a2 a3).mem = s.mem := State.logAt_mem _ _ _ _ _ _ _ _
@[simp] theorem State.log_motion (s : State) (src : Nat) (i : Island) (code a0 a1 a2 a3 : Nat) : (s.log src i code a0 a1 a2 a3).motion = s.motion := State.logAt_motion _ _ _ _ _ _ _ _
@[simp] theorem State.log_host (s : State) (src : Nat) (i : Island) (code a0 a1 a2 a3 : Nat) : (s.log src i code a0 a1 a2 a3).host = s.host := State.logAt_host _ _ _ _ _ _ _ _
@[simp] theorem State.log_cal (s : State) (src : Nat) (i : Island) (code a0 a1 a2 a3 : Nat) : (s.log src i code a0 a1 a2 a3).cal = s.cal := State.logAt_cal _ _ _ _ _ _ _ _
@[simp] theorem State.log_sec (s : State) (src : Nat) (i : Island) (code a0 a1 a2 a3 : Nat) : (s.log src i code a0 a1 a2 a3).sec = s.sec := State.logAt_sec _ _ _ _ _ _ _ _
@[simp] theorem State.log_out (s : State) (src : Nat) (i : Island) (code a0 a1 a2 a3 : Nat) : (s.log src i code a0 a1 a2 a3).out = s.out := State.logAt_out _ _ _ _ _ _ _ _
@[simp] theorem State.log_free (s : State) (src : Nat) (i : Island) (code a0 a1 a2 a3 : Nat) : (s.log src i code a0 a1 a2 a3).free = s.free := State.logAt_free _ _ _ _ _ _ _ _
@[simp] theorem State.log_pending (s : State) (src : Nat) (i : Island) (code a0 a1 a2 a3 : Nat) : (s.log src i code a0 a1 a2 a3).pending = s.pending := State.logAt_pending _ _ _ _ _ _ _ _
@[simp] theorem State.log_reg (s : State) (src : Nat) (i : Island) (code a0 a1 a2 a3 : Nat) (j : Nat) : (s.log src i code a0 a1 a2 a3).reg j = s.reg j := by unfold State.reg; rw [State.log_regs]

end Sys2Proof.Machine
end

