-- ==== Sys2Proof/WellFormed.lean ====
section
/-!
DEFINITION. WellFormed.lean: commands whose operands lie in the ranges that the spec gives them, where the operand's own type
does not already say so.
-/

namespace Sys2Proof

open Machine

/-- A value of a 32-bit register (R5). -/
def wordOk (v : Nat) : Bool := decide (v < 2 ^ 32)

/-- An offset inside BAR0, which is 16 MiB (R15), or in BAR2, which follows it here and is 64 KiB (R19). -/
def offsetOk (off : Nat) : Bool := decide (off < 0x1010000)

/-- A value of the 64-bit time base (R20). -/
def stampOk (t : Stamp) : Bool := decide (t < 2 ^ 64)
def optOk (t : Option Stamp) : Bool := t.all stampOk

/-- An event source (Table 17-4). -/
def sourceOk (src : Nat) : Bool := decide (src ≤ 0x18) || (decide (0x20 ≤ src) && decide (src ≤ 0x37))

/-- A servo frame of a track (R31). -/
def frameOk (idx : Nat) : Bool := decide (idx < 496)

/-- A queue identifier of Table 12-1. -/
def queueOk (qid : Nat) : Bool := decide (qid ≤ 256)

/-- A span of the address space of buffer memory (R303). -/
def memoryOk (addr len : Nat) : Bool := decide (addr + len ≤ 2 ^ 36)

/-- A block of the link: a 2-bit header and 64 bits (R60). -/
def blockOk (b : Block) : Bool := decide (b.sync < 4) && decide (b.payload < 2 ^ 64)

/-- The payload blocks of a frame: 24 of its 25 (R58). -/
def frameBlocks (l : List Block) : Bool := l.length == 24

/-- A submission queue entry of 64 bytes (log entry 34). -/
def entryOk (e : SqEntry) : Bool :=
  [e.nsid, e.c10, e.c11, e.c12, e.c13, e.c14, e.c15].all wordOk && [e.dptr0, e.dptr1].all fun v => decide (v < 2 ^ 64)

/-- A command is well-formed. -/
def Instr.wf (i : Instr) : Bool :=
  match i with
  | .registerWrite _ off val => offsetOk off && wordOk val
  | .loRegisterRead _ off => offsetOk off
  | .rwPairHiWrite _ off val => offsetOk off && wordOk val
  | .refusedRegisterAccess _ off bytes _ => offsetOk off && decide (0 < bytes)
  | .unassignedOffsetAccess _ off _ => offsetOk off
  | .outOfServiceBlockAccess _ off _ => offsetOk off
  | .msixVectorUnmask _ _ => true
  | .pllLock => true
  | .holdoverEntry => true
  | .pllRelock => true
  | .distributionError _ prev sample => stampOk prev && stampOk sample
  | .eventsLostRecord src => sourceOk src
  | .eventMergerArrival src => sourceOk src
  | .eventMergerRelease => true
  | .traceMergerRelease => true
  | .hemRequest _ => true
  | .hemWithdrawal _ => true
  | .zoneWriteBackComplete _ => true
  | .hemComplete _ => true
  | .servoFrame _ idx fwd bwd _ => frameOk idx && optOk fwd && optOk bwd
  | .servoFrameMissed _ idx => frameOk idx
  | .addressWord _ => true
  | .seamOpening _ => true
  | .sectorAcquisitionStart _ _ _ => true
  | .syncSearchComplete _ => true
  | .hdFmtCfgWrite _ _ => true
  | .upFrame _ _ arrival header blocks => stampOk arrival && blockOk header && blocks.all blockOk && frameBlocks blocks
  | .srfBlock _ => true
  | .quadBlock _ => true
  | .hkBlock _ => true
  | .statBlock _ => true
  | .capBlock _ => true
  | .replyBlock _ arrival => stampOk arrival
  | .feevBlock _ => true
  | .d0FrameLaunch _ => true
  | .messageResend _ => true
  | .laneErrorWindowEnd _ _ => true
  | .laneRetrainTimeout _ _ => true
  | .statTimeout _ => true
  | .linkEnable _ => true
  | .linkDisable _ => true
  | .linkRetrain _ => true
  | .linkRealign _ => true
  | .feSafeRequest _ => true
  | .trainingReceiversAdapted _ => true
  | .trainingAttemptTimeout _ => true
  | .intervalCheckpoint _ _ => true
  | .unpickTest _ _ => true
  | .replayStart _ => true
  | .replayFinish _ _ => true
  | .replayExpiry _ => true
  | .intervalRelease _ _ => true
  | .dropoutStart _ _ stamp => stampOk stamp
  | .dropoutEnd _ _ stamp => stampOk stamp
  | .dropoutGuardEnd _ _ => true
  | .zoneSeedReadDone _ => true
  | .ingestSpill _ => true
  | .ingestAdmissionStop _ => true
  | .ingestShed _ => true
  | .firstPassBind _ _ _ => true
  | .firstPassStart _ _ => true
  | .firstPassIterationEnd _ => true
  | .deepStart _ _ => true
  | .deepIterationEnd _ => true
  | .twillJobStart => true
  | .twillJobEnd => true
  | .spJobStart => true
  | .spJobEnd => true
  | .decodeWorkArrival => true
  | .dcOutConsWrite _ => true
  | .runAheadDiscardReport _ _ _ => true
  | .dcCntClear _ => true
  | .dcBaseWrite _ _ _ => true
  | .slotPayloadLate _ _ _ => true
  | .writeAbortAtHead _ _ => true
  | .derateStale _ => true
  | .laserInterlock => true
  | .laserRearm _ => true
  | .laserEnableWrite _ _ => true
  | .ceilingWrite _ _ val => decide (val < 2 ^ 23)
  | .ceilingLock _ => true
  | .derateEnableWrite _ _ => true
  | .slotExecution _ _ => true
  | .quadSetVisible _ => true
  | .chevronOffsetArrival _ => true
  | .dropoutFlagArrival _ => true
  | .slotStateRequest _ => true
  | .slotClearState _ => true
  | .coefficientWrite _ => true
  | .slotConfigWrite _ _ _ => true
  | .sequenceTimeout _ => true
  | .seamJumpDeadline _ => true
  | .traceModeWrite _ => true
  | .traceFreeze => true
  | .sledIdle _ => true
  | .sledHold _ => true
  | .sledMove _ => true
  | .sledFollow _ => true
  | .sledHome _ => true
  | .sledSoftstop _ => true
  | .sledStop _ => true
  | .sledClearFault _ => true
  | .sledTargetWrite _ _ => true
  | .profileTick => true
  | .loadAngleWindow _ => true
  | .boostHoldExpiry _ => true
  | .holdCurrentDelay _ => true
  | .sledOverCurrent _ _ _ _ => true
  | .switchEdge _ _ => true
  | .switchDebounceEnd _ _ _ => true
  | .bemfCrossing _ _ stamp => stampOk stamp
  | .commutation => true
  | .forcedCommutation => true
  | .lostRotorTimeout => true
  | .spindleStart _ _ => true
  | .spindleStop _ => true
  | .spindleDemandSet _ => true
  | .listenEnd => true
  | .brakeBurstEnd => true
  | .alignEnd => true
  | .openLoopCommutation => true
  | .stopShortEnd => true
  | .spindleBridgeFault => true
  | .spindleOverCurrent _ _ => true
  | .spindleDemand _ => true
  | .sledDemand _ _ => true
  | .governorUpdate => true
  | .thermalModelUpdate => true
  | .claimSatisfied _ => true
  | .add _ _ => true
  | .sub _ _ => true
  | .and _ _ => true
  | .or _ _ => true
  | .xor _ _ => true
  | .shl _ _ => true
  | .shr _ _ => true
  | .sar _ _ => true
  | .mul _ _ => true
  | .mulh _ _ => true
  | .min _ _ => true
  | .max _ _ => true
  | .addi _ _ => true
  | .andi _ _ => true
  | .ori _ _ => true
  | .shi _ _ => true
  | .cmp _ _ => true
  | .cmpiEq _ _ => true
  | .cmpiLt _ _ => true
  | .cmpiLtu _ _ => true
  | .pset _ _ => true
  | .sel _ _ => true
  | .bfx _ _ => true
  | .bfi _ _ => true
  | .cnt _ _ => true
  | .divu _ _ => true
  | .ldb _ _ => true
  | .ldh _ _ => true
  | .ldw _ _ => true
  | .ldd _ _ => true
  | .ldbs _ _ => true
  | .ldhs _ _ => true
  | .ldws _ _ => true
  | .stb _ _ => true
  | .sth _ _ => true
  | .stw _ _ => true
  | .std _ _ => true
  | .amo _ _ => true
  | .fence _ _ => true
  | .br _ _ => true
  | .call _ _ => true
  | .jr _ _ => true
  | .trap _ _ => true
  | .halt _ _ => true
  | .signal _ _ => true
  | .tbNow _ _ => true
  | .tbLast _ _ => true
  | .waitEv _ _ => true
  | .waitUntil _ _ => true
  | .poll _ _ => true
  | .eventQueueEntry _ => true
  | .eventQueueRelease _ => true
  | .waitTimeout _ => true
  | .waitUntilReached _ => true
  | .hdOpen _ _ => true
  | .hdHem _ _ => true
  | .hdSeek _ _ => true
  | .seekStep _ => true
  | .seekAddressTimeout _ => true
  | .hdFocus _ _ => true
  | .hdLjump _ _ => true
  | .hdTrkon _ _ => true
  | .hdSjump _ _ => true
  | .hdSafe _ _ => true
  | .hdFewr _ _ => true
  | .hdFerd _ _ => true
  | .frontEndReplyTimeout _ => true
  | .hdHk _ _ => true
  | .hdStat _ _ => true
  | .slPos _ _ => true
  | .slReref _ _ => true
  | .spStat _ _ => true
  | .lpStat _ _ => true
  | .dcSubmit _ _ => true
  | .dcStat _ _ => true
  | .mmXfer _ _ => true
  | .woGet _ _ => true
  | .woDone _ _ => true
  | .woAen _ _ => true
  | .evLog _ _ => true
  | .bobStart _ => true
  | .bobHalt _ => true
  | .bobResume _ _ => true
  | .bobbinHalted _ => true
  | .bobStat _ _ => true
  | .capWr _ => true
  | .controlStoreParityError _ _ _ => true
  | .safePointOverrun _ _ => true
  | .patchLoad _ => true
  | .patchReload => true
  | .csTestWrite _ => true
  | .mcAddrClear => true
  | .sqTailDoorbell _ qid tail => queueOk qid && decide (tail < 65536)
  | .cqHeadDoorbell _ qid head => queueOk qid && decide (head < 65536)
  | .commandFetch entry _ _ => entryOk entry
  | .rangeLockGrant _ _ => true
  | .writeDataArrived _ _ => true
  | .workOrderIssue _ => true
  | .completionPost _ => true
  | .snipRequest _ _ _ => true
  | .snipResolve _ => true
  | .controllerReset _ => true
  | .controllerEnable _ _ => true
  | .functionLevelReset _ => true
  | .shutdownNormal _ => true
  | .shutdownAbrupt _ => true
  | .shutdownComplete _ => true
  | .firmwareActivationStart => true
  | .activationDrainDeadline => true
  | .firmwareActivationResume => true
  | .configRequest _ => true
  | .nvmeMiBasicCommand _ => true
  | .deleteIoSq entry => entryOk entry
  | .deleteIoCq entry => entryOk entry
  | .createIoSq entry => entryOk entry
  | .createIoCq entry => entryOk entry
  | .getLogPage entry _ => entryOk entry
  | .identify entry _ => entryOk entry
  | .abort entry => entryOk entry
  | .setFeatures entry => entryOk entry
  | .getFeatures entry => entryOk entry
  | .asynchronousEventRequest entry => entryOk entry
  | .namespaceManagement entry _ _ => entryOk entry
  | .namespaceAttachment entry _ _ => entryOk entry
  | .firmwareImageDownload entry _ _ => entryOk entry
  | .firmwareCommit entry => entryOk entry
  | .firmwareCommitWriteDone _ => true
  | .formatNvm entry => entryOk entry
  | .securitySend entry _ _ => entryOk entry
  | .securityReceive entry _ => entryOk entry
  | .flush entry => entryOk entry
  | .write entry _ => entryOk entry
  | .read entry _ => entryOk entry
  | .datasetManagement entry _ _ => entryOk entry
  | .verify entry => entryOk entry
  | .sequencerCall entry _ => entryOk entry
  | .cartridgeLoad entry => entryOk entry
  | .mediumHealthReport entry _ => entryOk entry
  | .cartridgeRelease entry => entryOk entry
  | .deferredApply => true
  | .seal _ => true
  | .commit _ => true
  | .abandon _ => true
  | .replayEnd => true
  | .splitCommit _ _ => true
  | .journalDurable seq => decide (seq < 2 ^ 64)
  | .chainApply => true
  | .memoryRead _ addr len => memoryOk addr len
  | .memoryWrite _ addr bytes => memoryOk addr bytes.length
  | .eccWriteBack => true
  | .refresh _ _ => true
  | .mr4Read _ _ => true
  | .activateTableClear => true
  | .neighbourRefresh _ _ _ _ => true
  | .pageIdlePrecharge _ _ => true
  | .patrolScrubRead => true
  | .eccEraseWrite _ => true
  | .eccCountClear _ => true
  | .flipArm _ _ => true
  | .memoryEnable _ => true
  | .mrw _ _ _ => true
  | .mrr _ _ _ => true
  | .mpc _ _ => true
  | .prechargeAll _ => true
  | .refreshAll _ => true
  | .patternRun _ _ _ => true
  | .sweepStart => true
  | .sweepEnd _ _ => true
  | .frequencyChangeRequest _ => true
  | .frequencyChangeDone => true
  | .bandgapCompare _ => true
  | .calibrationSlots z r => decide (z.length = 33) && decide (r.length = 33)
  | .calibrationCopy => true
  | .calibrationSlew => true
  | .adcTargetWrite _ _ => true
  | .comparatorTrim => true
  | .comparatorTrimDone _ _ => true
  | .temperatureReport readings => decide (readings.length = 20)
  | .bootVerify => true
  | .bootConfigApply => true
  | .bootBobbinsStart => true
  | .hostReadySet => true
  | .floorCommit => true
  | .revoke _ => true
  | .debugUnlockSubmit => true
  | .doeDiscovery _ _ => true
  | .getVersion _ _ => true
  | .getCapabilities _ _ => true
  | .negotiateAlgorithms _ _ => true
  | .getDigests _ _ => true
  | .getCertificate _ _ => true
  | .challenge _ _ => true
  | .getMeasurements _ _ => true
  | .keyExchange _ _ => true
  | .finish _ _ _ => true
  | .heartbeat _ _ _ => true
  | .keyUpdate _ _ _ => true
  | .endSession _ _ _ => true
  | .powerOnReset => true
  | .warmReset => true
  | .domainPowerUp _ _ => true
  | .domainPowerCheck _ _ => true
  | .supplyGroupWaitTimeout _ => true
  | .domainPowerRetry _ => true
  | .supplyGroupLost _ => true
  | .headIsolate _ => true
  | .headDomainPowerLost _ => true
  | .headIsolationDeadline _ => true
  | .headPower _ => true
  | .evRptrWrite _ => true
  | .evAttnWrite _ => true
  | .attnClear => true
  | .journalReplayStart => true
  | .upFrameMissing _ _ _ => true
  | .chopperSample _ _ _ => true
  | .pwmPeriod _ => true
  | .laserInhRelease => true
  | .noImageFillDone => true
  | .perstNRelease => true
  | .interruptCoalescingTime _ qid => queueOk qid
  | .pcieDmaError _ => true

end Sys2Proof
end

