-- ==== Sys2Proof/Tests/Slice0.lean ====
section
/-!
SUPPORT. Tests/Slice0.lean: tests of the model, and a witness for the hypotheses of every statement: a state and operands that
meet them together.
-/

set_option Elab.async false

namespace Sys2Proof.Tests

open Sys2Proof.Machine

/-- R5: a register is 32 bits wide. -/
theorem test_wf_word : (Instr.registerWrite (.host 0) 0x10000 (2 ^ 32)).wf = false := by decide
/-- R15, R19: the offsets of BAR0 and, after them, of BAR2. -/
theorem test_wf_offset : (Instr.loRegisterRead (.host 0) 0x1010000).wf = false := by decide

/-- R16: an access has at least one byte. -/
theorem test_wf_bytes : (Instr.refusedRegisterAccess 0 0x10000 0 true).wf = false := by decide

/-- Table 17-4: no source between 0x18 and 0x20. -/
theorem test_wf_source : (Instr.eventsLostRecord 0x19).wf = false := by decide

/-- R31: a track has 496 servo frames; R20: a stamp has 64 bits. -/
theorem test_wf_frame : (Instr.servoFrame 0 496 none none 0).wf = false := by decide
theorem test_wf_stamp : (Instr.servoFrame 0 495 (some (2 ^ 64)) none 0).wf = false := by decide

/-- R60: a block's header has two bits. -/
theorem test_wf_block : (Instr.upFrame 0 0 0 ⟨4, 0⟩ []).wf = false := by decide

/-- Table 12-1: a function has 256 I/O queues; a doorbell's value has 16 bits. -/
theorem test_wf_queue : (Instr.sqTailDoorbell 0 257 0).wf = false := by decide
theorem test_wf_tail : (Instr.sqTailDoorbell 0 1 65536).wf = false := by decide

/-- A submission entry's dwords have 32 bits. -/
theorem test_wf_entry : (Instr.flush ⟨0, 0, 0, 0, 0, 2 ^ 32, 0, 0, 0, 0, 0, 0, 0, 0⟩).wf = false := by decide

/-- R303: buffer memory's addresses have 36 bits. -/
theorem test_wf_memory : (Instr.memoryRead 0 (2 ^ 36) 1).wf = false := by decide

/-- A ceiling has 23 bits; the calibration slots are 33; the journal's numbers have 64 bits. -/
theorem test_wf_ceiling : (Instr.ceilingWrite 0 0 (2 ^ 23)).wf = false := by decide
theorem test_wf_slots : (Instr.calibrationSlots [] []).wf = false := by decide
theorem test_wf_journal : (Instr.journalDurable (2 ^ 64)).wf = false := by decide
theorem test_wf_readings : (Instr.temperatureReport []).wf = false := by decide

/-! ## States -/

-- WITNESS STATES

/-- The state after reset. -/
def st0 : State := State.reset

/-- The time base runs and stands at a million ticks. -/
def stRun : State := { st0 with time := { st0.time with tb := 1000000, started := true } }

/-- The host island, the decode island, the memory island and every head are powered and in service. -/
def stUp : State :=
  ((((stRun.setReg R.SYS_DOMAIN (BitVec.ofNat 32 (2 ^ 19 - 1))).setReg R.SYS_HEAD_STATUS (BitVec.ofNat 32 (2 ^ 32 - 1))).setReg
    R.MC_CFG (BitVec.ofNat 32 (2 ^ 32 - 1))))

/-- A running package under a key slot, whose record names 3 as the floor. -/
def runA (key : Nat) : Running :=
  { slot := 1, svn := 5, keySlot := key, record := List.replicate 8 0 ++ [3, 0, 0, 0], init := [], boot := [], patch := [], prog := [] }

/-- The link of head 0 is UP with four active lanes. -/
def linkUp (s : State) : State := s.modLink 0 fun l => { l with
  state := .up, lanes := Vector.replicate 4 { Lane.off with st := .active }, pairs := #v[some 0, some 1, some 2, some 3] }
def stLink : State := linkUp stUp

/-- A side block of a kind waits on head 0's link. -/
def stSide (kind part data : Nat) : State := stLink.modLink 0 fun l => { l with side := [⟨kind, part, 0, data, 48000⟩] }

/-- The tags of the 31 frames of an address word, newest first. -/
def wordTagsOf (w : AddrWord) : List (Nat × Tag) :=
  let v := w.word * 2 ^ 26 + w.layer * 2 ^ 22 + w.track * 2 ^ 3 + addrCrc w
  (((0, Tag.marker) :: (List.range 30).map fun k => (k + 1, if testBitN v (29 - k) then Tag.short else Tag.none))).reverse

/-- An open read pass with the registers' reset values. -/
def passA : Pass :=
  { no := 7, opened := 100
    desc := { layer := 2, mode := .read, inward := false, writeBack := true, runAhead := 0, start := 10, count := 3, wbd := 0,
              reloc := 0 }
    cfg := { fmt := 200, sync := 223280, ch := 16405, adapt := 15120716, timing := 432419, unpick := 134250500, drop := 541114756,
             dropMask := 112, wr := 262195, vfyRaw := 392, zoneBase := 0, strat := 0, raBands := 0, raBase := 0 }
    zone := 0, rev := 0, relocs := [], bandDescs := [], writeRev := none, aborts := [], hem := none, admitted := [], dropped := [], claimed := [] }

/-- A hem of it, with step 4 still to come. -/
def hemA : Hem := { h := 100, cut := 100, forced := false, withdrawn := false, writingBack := false, waiters := [] }

/-- Pass A is open on head 0, whose flywheel has two frames and is READY. -/
def stPass : State :=
  (stLink.setReg (R.HD_FLY_STATUS 0) 3).modHead 0 fun h => { h with
    pass := some passA, fly := { h.fly with frames := [⟨1, 60000⟩, ⟨0, 1000⟩] }
    beams := h.beams.map fun b => { b with seeded := true, inService := true } }

/-- A sector of pass A with no value released. -/
def secA (id : Nat) (stage : SecStage) : Sector :=
  { id := id, head := 0, beam := 3, pass := 7, kind := .read, layer := 2, track := 123, slot := 5, group := 9, member := 1, band := 10,
    spec := false, stamp := 500, acq := 500, q0 := 1000, predicted := 600, framings := [], inferred := false, framed := false,
    complete := false, lastSample := none, stage := stage, withdrawn := false, fpCfg := 0, inBufAt := 0, spilled := none
    released := [], drops := [], insts := [], soft := [], channel := [], dest := 0, info := SecInfo.none, outcome := none }

/-- An interval of sector 1 on a beam. -/
def ivA (fate : IntervalFate) (forced : Bool) : Interval :=
  { sector := 1, k := 0, first := 512, len := 512, checkpoint := Adaptive.reset, fate := fate, forced := forced, clamped := false
    soft := [some 3, none], drops := [] }

/-- A replay of that interval. -/
def repA : Replay := { beam := 3, first := 512, sector := 1, decided := 5, needSample := 900, needQ := 900 }

/-- A slot to be written, its band, and a backstitch pass in its first write revolution. -/
def slotW : SlotEntry :=
  { track := 120, slot := 0, payload := 0, group := 0, member := 0, write := true, spare := false, isVoid := false, tag := 0, raw := 0xFFFF,
    staged := false, started := false, done := false, cut := false }
def bandW : BandDesc := { band := 10, addr := 0, asmStamp := 0, slots := [slotW] }
def passW : Pass := { passA with desc := { passA.desc with mode := .backstitch }, bandDescs := [bandW] }

/-- Bobbin 16 has every capability and is READY at PC 5, where the word w stands with 0x80000005 after it; g3 to g5, p1 and p2 are set. -/
def stIns (w : Nat) : State :=
  let s := (stUp.setReg (R.SQ_BOB_CAP 16) 0xFFFFFFFF).modBob 16 fun x => { x with
    st := .ready, pc := 5, g := ((x.g.set 3 0xFF).set 4 0x9000000000000007).set 5 3, p := (x.p.set 1 true).set 2 false }
  { s with seq := { s.seq with prog := [(5, BitVec.ofNat 32 w), (6, 0x80000005)] } }

/-- The instruction there. -/
def insA (w : Nat) : Ins := (fetchIns (stIns w) 5).1

/-- Head 0 is ready for a sequence: slots 5 and 6 run as its focus and tracking slots, and its laser is on. -/
def seqReady (s : State) : State :=
  (((((linkUp s).setReg (R.HD_LASER_STATUS 0) 0xFFFFFFFF).setFld (R.LP_HEAD_MAP 0) F.LP_HEAD_MAP_FOCUS_SLOT 5).setFld (R.LP_HEAD_MAP 0)
    F.LP_HEAD_MAP_TRACK_SLOT 6).modSlot 5 fun x => { x with st := .run }).modSlot 6 fun x => { x with st := .run }

/-- A descriptor for bands 4 and 5 stands in shared scratch, g4 leads to it, and head 0 has the pass p. -/
def opensA (p : Pass) : State :=
  let s := ((linkUp (stIns 0x50011880)).modHead 0 fun h => { h with pass := some p }).modBob 16 fun x => { x with g := x.g.set 4 0x100000 }
  { s with seq := { s.seq with shared := [(4, 4), (8, 2)] } }

/-- Two whole words stand at 0x1000. -/
def memA : State := stUp.memWrite 2 0x1000 [1, 2, 3, 4, 5, 6, 7, 8, 9, 10, 11, 12, 13, 14, 15, 16]

/-- A core that decodes sector 1 from two channel values. -/
def coreA : DecodeCore := { DecodeCore.start 1 #[1, -2] 20 1 100 900 [] with msg := #[] }

/-- Namespace 1 with 64 granules, limited by a replay; batch 3 is sealed with frames 0 and 1, whose new places lie in band 0, which
is open; the assist has both in one group. -/
def placeA : State :=
  let s := stUp.setNamespace 0 (some { granules := 64, mode := 0, state := 1, changedAt := 0, mapOfs := 0, size := 1024, attached := [0] })
  let s := ((s.putBatch 3 0 2 0 0).plPut (s.metaAddr 0 + 16) 8 1).plPut (s.metaAddr 1 + 16) 8 0xFFFFFFFF
  let s := (s.plPut (s.metaAddr 0 + 24) 8 (2 ^ 62)).plPut (s.metaAddr 1 + 24) 8 (2 ^ 62 + 2 ^ 31)
  (s.plPut (s.bandAddr 0) 8 1).modPlace fun p => { p with batches := [⟨3, [⟨5, [0, 1]⟩], []⟩] }

/-- A Write, a Dataset Management and a Format command that stand outstanding in slot 5. -/
def cmdA (kind : CmdKind) : HostCmd :=
  { slot := 5, fn := 0, sqid := 1, cqid := 1, cid := 9, stamp := 700, kind := kind, nsid := 1, slba := 0, nlb := 16, fua := false
    cdw := [0, 0, 0, 0, 0, 0], ranges := [], hasPtr := true, dataDue := false, named := [], order := .notIssued, accepted := none
    decided := none, target := none }
def stCmd (c : HostCmd) : State := placeA.modHost fun h => { h with cmds := [c] }

/-- Function 0 is enabled and ready, with an admin and an I/O queue; one entry waits in the one that is asked for. -/
def hostA (admin : Bool) : State :=
  let s := ((placeA.setReg (fnKey 0 nvmeCC) 0x460001).setReg (fnKey 0 nvmeCSTS) 1).setReg R.SYS_BOOT 0x80000005
  s.modHost fun h => { h with
    sqs := [⟨0, 0, 0x1000, 16, 0, 0, 0, bitOf admin⟩, ⟨0, 1, 0x2000, 16, 1, 0, 0, bitOf (!admin)⟩]
    cqs := [⟨0, 0, 0x3000, 16, 0, 0, true, true, 0, 0, 0⟩, ⟨0, 1, 0x4000, 16, 0, 0, true, true, 1, 0, 0⟩]
    lastFetch := 800 }

/-- A submission entry. -/
def entryA (op : Fin 256) (nsid c10 c11 : Nat) : SqEntry :=
  { opcode := op, fuse := 0, rsvd := 0, psdt := 0, cid := 77, nsid := nsid, dptr0 := 0x10000, dptr1 := 0, c10 := c10, c11 := c11
    c12 := 0, c13 := 0, c14 := 0, c15 := 0 }

/-- The admin and the I/O queue that hold it. -/
def sqAdm : SubQ := ⟨0, 0, 0x1000, 16, 0, 0, 0, 1⟩
def sqIo : SubQ := ⟨0, 1, 0x2000, 16, 1, 0, 0, 1⟩

/-- Bobbin 16 at the word w, with host command c outstanding in slot 5 and function 0 as above. -/
def insHost (w : Nat) (cs : List HostCmd) : State :=
  let h := hostA true
  { stIns w with host := { h.host with cmds := cs } }

/-- Host command c outstanding in slot 5, its queues standing. -/
def hostCmdA (c : HostCmd) : State := (hostA true).modHost fun h => { h with cmds := [c] }

/-- The calibration engine's coefficients are at rest at a calibration slot. -/
def stCal : State := { stRun with time := { stRun.time with tb := 3000000 } }
def calA : State := (List.range 33).foldl (fun (t : State) c => t.setReg (R.CAL_ADC_APP c) 0x80000000) stCal

-- END STATES

/-! ## Facts of those states -/

/-- n steps of g, each value formed before the next. -/
def steps (g : Nat → Nat) : Nat → Nat → Nat
  | 0, r => r
  | n + 1, r => match g r with
    | 0 => steps g n 0
    | k + 1 => steps g n (k + 1)

theorem steps_succ (g : Nat → Nat) (n r : Nat) : steps g (n + 1) r = steps g n (g r) := by
  rw [steps]
  split <;> simp_all

theorem steps_add (g : Nat → Nat) (n m r : Nat) : steps g (n + m) r = steps g m (steps g n r) := by
  induction n generalizing r with
  | zero => simp [steps]
  | succ n ih => rw [Nat.succ_add, steps_succ, steps_succ, ih]

/-- The CRC step for a byte of all ones. -/
def onesStep (r : Nat) : Nat := crcBits 0x82F63B78 8 (r ^^^ 255)

theorem crc_cons (p r b : Nat) (l : List Nat) : crcReflected p r (b :: l) = crcReflected p (crcBits p 8 (r ^^^ b)) l := rfl

theorem steps_ones (n r : Nat) : crcReflected 0x82F63B78 r (List.replicate n 255) = steps onesStep n r := by
  induction n generalizing r with
  | zero => rfl
  | succ n ih => rw [List.replicate_succ, crc_cons, steps_succ, ih, onesStep]

theorem steps_blank : steps onesStep 4092 0xFFFFFFFF = 2197005949 := by
  have h0 : steps onesStep 341 4294967295 = 1295596719 := by decide +kernel
  have h1 : steps onesStep 341 1295596719 = 1596730534 := by decide +kernel
  have h2 : steps onesStep 341 1596730534 = 737904677 := by decide +kernel
  have h3 : steps onesStep 341 737904677 = 3562324864 := by decide +kernel
  have h4 : steps onesStep 341 3562324864 = 1347139971 := by decide +kernel
  have h5 : steps onesStep 341 1347139971 = 2263017374 := by decide +kernel
  have h6 : steps onesStep 341 2263017374 = 3968516232 := by decide +kernel
  have h7 : steps onesStep 341 3968516232 = 486348058 := by decide +kernel
  have h8 : steps onesStep 341 486348058 = 3788809974 := by decide +kernel
  have h9 : steps onesStep 341 3788809974 = 2318608069 := by decide +kernel
  have h10 : steps onesStep 341 2318608069 = 304299099 := by decide +kernel
  have h11 : steps onesStep 341 304299099 = 2197005949 := by decide +kernel
  have e0 : steps onesStep 4092 4294967295 = steps onesStep 3751 1295596719 := h0 ▸ steps_add onesStep 341 3751 4294967295
  have e1 : steps onesStep 3751 1295596719 = steps onesStep 3410 1596730534 := h1 ▸ steps_add onesStep 341 3410 1295596719
  have e2 : steps onesStep 3410 1596730534 = steps onesStep 3069 737904677 := h2 ▸ steps_add onesStep 341 3069 1596730534
  have e3 : steps onesStep 3069 737904677 = steps onesStep 2728 3562324864 := h3 ▸ steps_add onesStep 341 2728 737904677
  have e4 : steps onesStep 2728 3562324864 = steps onesStep 2387 1347139971 := h4 ▸ steps_add onesStep 341 2387 3562324864
  have e5 : steps onesStep 2387 1347139971 = steps onesStep 2046 2263017374 := h5 ▸ steps_add onesStep 341 2046 1347139971
  have e6 : steps onesStep 2046 2263017374 = steps onesStep 1705 3968516232 := h6 ▸ steps_add onesStep 341 1705 2263017374
  have e7 : steps onesStep 1705 3968516232 = steps onesStep 1364 486348058 := h7 ▸ steps_add onesStep 341 1364 3968516232
  have e8 : steps onesStep 1364 486348058 = steps onesStep 1023 3788809974 := h8 ▸ steps_add onesStep 341 1023 486348058
  have e9 : steps onesStep 1023 3788809974 = steps onesStep 682 2318608069 := h9 ▸ steps_add onesStep 341 682 3788809974
  have e10 : steps onesStep 682 2318608069 = steps onesStep 341 304299099 := h10 ▸ steps_add onesStep 341 341 2318608069
  rw [e0, e1, e2, e3, e4, e5, e6, e7, e8, e9, e10, h11]

theorem crc32c_eq (l : List Nat) (v : Nat) (h : crcReflected 0x82F63B78 0xFFFFFFFF l = v) : crc32c l = v ^^^ 0xFFFFFFFF := by
  subst h
  rfl

theorem crc_blank : crc32c (List.replicate 4092 255) ≠ 0xFFFFFFFF := by
  rw [crc32c_eq _ _ ((steps_ones 4092 0xFFFFFFFF).trans steps_blank)]
  decide

theorem readDir_none (s : State) (c : Nat) (l : List Nat) (hr : s.flashRead (0x1000 * c) 4096 = l)
    (h : fieldAt l 4092 4 ≠ crc32c (l.take 4092)) : s.readDir c = none := by
  unfold State.readDir
  rw [hr]
  exact if_neg h

theorem ones_bad : ∀ n m : Nat, n + m = 4096 → n = 4092 →
    fieldAt (List.replicate 4096 255) 4092 4 ≠ crc32c ((List.replicate 4096 255).take 4092) := by
  intro n m e hn
  have h1 : fieldAt (List.replicate (n + m) 255) n m = bytesNat (List.replicate m 255) := by
    simp [fieldAt, List.drop_replicate, List.take_replicate]
  have h2 : (List.replicate (n + m) 255).take n = List.replicate n 255 := by simp [List.take_replicate]
  have hm : m = 4 := by omega
  rw [e, hn] at h1 h2
  rw [h2]
  subst hm
  rw [h1]
  exact crc_blank.symm

/-- A blank flash holds no valid directory: the CRC of an erased copy does not stand in it. -/
theorem directory_blank (s : State) (h : s.sec.flash = []) : s.directory = none := by
  have hr : ∀ a n : Nat, s.flashRead a n = List.replicate n 255 := by
    intro a n
    unfold State.flashRead
    rw [h, List.eq_replicate_iff]
    refine ⟨by simp, fun b hb => ?_⟩
    obtain ⟨i, -, rfl⟩ := List.mem_map.mp hb
    rfl
  have hd : ∀ c : Nat, s.readDir c = none := fun c => readDir_none s c _ (hr _ _) (ones_bad 4092 4 rfl rfl)
  unfold State.directory
  rw [hd, hd]

/-- Every place of a stripe whose order marks every surface as lost is unknown, wherever P lies. -/
theorem sp_all_unknown : 8 - (spInputs ⟨5, ⟨2, 2049, 0⟩, List.replicate 136 255, 9⟩).1 <
    (spInputs ⟨5, ⟨2, 2049, 0⟩, List.replicate 136 255, 9⟩).2.1.length := by
  have h : ∀ q : Fin 8, 8 - spData 3 <
      ((List.range 8).filter fun i => testBitN 65535 ((spSurfaces 3 q.val).getD i 0)).length := by decide
  have e : ∀ p : Nat, spSurfaces 3 p = spSurfaces 3 (p % 8) := fun p => by simp [spSurfaces]
  have a := h ⟨Config.paritySurface (fieldAt (List.replicate 136 255) 0 72) % 8, Nat.mod_lt _ (by decide)⟩
  rw [← e] at a
  exact a

/-- A fetch's stamp is no stamp of a command that is not later than the last fetch. -/
theorem fetch_fresh (s : State) (h : ∀ c ∈ s.host.cmds, c.stamp ≤ s.host.lastFetch) : s.cmdOf s.fetchStamp = none := by
  rw [State.cmdOf, List.find?_eq_none]
  intro c hc e
  have h1 := h c hc
  have h2 : s.host.lastFetch + 1 ≤ s.fetchStamp := Nat.le_max_right _ _
  have h3 : c.stamp = s.fetchStamp := by simpa using e
  exact Nat.not_succ_le_self _ (Nat.le_trans h2 (h3 ▸ h1))

theorem calA_reg (k : Nat) : calA.reg k = if k ∈ (List.range 33).map R.CAL_ADC_APP then 0x80000000 else stCal.reg k :=
  State.reg_foldl_setReg _ R.CAL_ADC_APP _ _ k

theorem calA_eq : calA = { stCal with regs := calA.regs } := State.foldl_setReg _ R.CAL_ADC_APP _ _

theorem reg_modCal (s : State) (f : CalState → CalState) (k : Nat) : (s.modCal f).reg k = s.reg k := rfl

theorem flag_modCal (s : State) (f : CalState → CalState) (k : Nat) (b : FieldPos) : (s.modCal f).flag k b = getFlag (s.reg k) b := rfl

theorem regsWf_modCal (s : State) (f : CalState → CalState) : regsWf (s.modCal f) = regsWf s := rfl

theorem calA_wf : regsWf calA = true := regsWf_foldl_setReg _ R.CAL_ADC_APP _ _ (by decide +kernel)



/-! ## Witnesses -/

theorem witness_IdleStepIsATick_stopped : st0.pending = [] ∧ Sound st0 ∧ st0.time.started = false := by decide +kernel
theorem witness_IdleStepIsATick_running : stRun.pending = [] ∧ Sound stRun ∧ stRun.time.started = true ∧
    ∀ r ∈ stRun.events.held, stRun.tick.now < r.stamp + mergerHorizon := by decide +kernel

theorem witness_EveryStepKeepsSoundness : Sound stRun ∧ ∃ t : State, step stRun = .next t := ⟨by decide +kernel, _, rfl⟩

theorem witness_CommandsLeaveTheQueue : exec .pllLock st0 = .next (match exec .pllLock st0 with | .next t => t | _ => st0) := rfl

theorem witness_OnlyTheFirstLockStartsTheCounter : Instr.warmReset ≠ .pllLock ∧ Instr.warmReset ≠ .powerOnReset ∧
    ∃ t : State, exec .warmReset stRun = .next t := ⟨by decide, by decide, _, rfl⟩

theorem witness_TimeBaseCommands_pllLock :
    (fun  (s : State) => Sound s ∧ (s.time.started = false))  st0 := by
  decide +kernel

theorem witness_TimeBaseCommands_holdoverEntry :
    (fun  (s : State) => Sound s ∧ (s.time.started = true ∧ s.flag R.TB_STATUS F.TB_STATUS_HOLDOVER = false))  stRun := by
  decide +kernel

theorem witness_TimeBaseCommands_holdoverEntry_2 :
    (fun  (s : State) => Sound s ∧ (s.time.started = true ∧ s.flag R.TB_STATUS F.TB_STATUS_HOLDOVER = true))  (({ stRun with time := { stRun.time with holdSince := some 5, refSince := some 9 } }).setFld R.TB_STATUS F.TB_STATUS_HOLDOVER 1) := by
  decide +kernel

theorem witness_TimeBaseCommands_pllRelock :
    (fun (h : Stamp) (s : State) => Sound s ∧ (s.time.holdSince = some h ∧ s.time.refSince = none)) ((5) : Stamp) (({ stRun with time := { stRun.time with holdSince := some 5 } })) := by
  decide +kernel

theorem witness_TimeBaseCommands_pllRelock_4 :
    (fun (h back : Stamp) (s : State) => Sound s ∧ (s.time.holdSince = some h ∧ s.time.refSince = some back ∧ back + 20 * ticksUs ≤ s.now)) ((5) : Stamp) ((9) : Stamp) (({ stRun with time := { stRun.time with holdSince := some 5, refSince := some 9 } })) := by
  decide +kernel

theorem witness_TimeBaseCommands_eventsLostRecord :
    (fun (src : Nat) (s : State) => Sound s ∧ ((s.xing src).lost ≠ 0 ∧ (s.xing src).queue.length < 32)) ((3) : Nat) ((stRun.setXing 3 ⟨[], 2, 100, 200⟩)) := by
  decide +kernel

theorem witness_TimeBaseCommands_eventMergerArrival :
    (fun (src : Nat) (r : EventRec) (rest : List EventRec) (s : State) => Sound s ∧ ((s.xing src).queue = r :: rest ∧ r.stamp + 384 < s.now)) ((3) : Nat) ((⟨10, 1, 3, false, 0, 0, 0, 0⟩) : EventRec) (([]) : List EventRec) ((stRun.setXing 3 ⟨[⟨10, 1, 3, false, 0, 0, 0, 0⟩], 0, 0, 0⟩)) := by
  decide +kernel

theorem witness_TimeBaseCommands_eventMergerArrival_7 :
    (fun (src : Nat) (r : EventRec) (rest : List EventRec) (s : State) => Sound s ∧ ((s.xing src).queue = r :: rest ∧ s.now ≤ r.stamp + 384)) ((3) : Nat) ((⟨999999, 1, 3, false, 0, 0, 0, 0⟩) : EventRec) (([]) : List EventRec) ((stRun.setXing 3 ⟨[⟨999999, 1, 3, false, 0, 0, 0, 0⟩], 0, 0, 0⟩)) := by
  decide +kernel

theorem witness_TimeBaseCommands_eventMergerRelease :
    (fun  (s : State) => Sound s ∧ (∃ r ∈ s.events.held, r.stamp + 384 ≤ s.now))  (({ stRun with events := { stRun.events with held := [⟨10, 1, 3, false, 0, 0, 0, 0⟩] } })) := by
  decide +kernel

theorem witness_UnassignedAndRefusedAccesses_unassignedOffsetAccess :
    (fun (acc : Accessor) (off : Nat) (w : Bool) (s : State) => Sound s ∧ (s.accessible acc off w = true ∧ off < 0x1000000 ∧ s.ownerUp off = true ∧ ∃ key : Nat, s.keyOf acc off = some key ∧ assignedKey key = false)) ((.host 0) : Accessor) ((0x50000) : Nat) ((false) : Bool) stUp := by
  decide +kernel

theorem witness_UnassignedAndRefusedAccesses_outOfServiceBlockAccess :
    (fun (acc : Accessor) (off : Nat) (w : Bool) (s : State) => Sound s ∧ (s.accessible acc off w = true ∧ off < 0x1000000 ∧ s.ownerUp off = false)) ((.host 0) : Accessor) ((0x420100) : Nat) ((false) : Bool) stRun := by
  decide +kernel

theorem witness_UnassignedAndRefusedAccesses_refusedRegisterAccess :
    (fun (fn : Fin 2) (off : Nat) (bytes : Nat) (_w : Bool) (s : State) => Sound s ∧ (s.functions.contains fn = true ∧ off < 0x1000000 ∧ (bytes ≠ 4 ∨ off % 4 ≠ 0))) ((0) : Fin 2) ((0x10002) : Nat) ((4) : Nat) ((false) : Bool) stRun := by
  decide +kernel

theorem witness_PairsLatchAndHold_loRegisterRead :
    (fun (acc : Accessor) (off key : Nat) (s : State) => Sound s ∧ (s.accessible acc off false = true ∧ off < 0x1000000 ∧ s.ownerUp off = true ∧ s.keyOf acc off = some key ∧
    assignedKey key = true ∧ (roleOf key = .roLo ∨ roleOf key = .rwLo))) ((.host 0) : Accessor) ((0x18000) : Nat) ((0x18000) : Nat) stRun := by
  decide +kernel

theorem witness_PairsLatchAndHold_loRegisterRead_1 :
    (fun (acc : Accessor) (off key : Nat) (s : State) => Sound s ∧ (s.accessible acc off false = true ∧ off < 0x1000000 ∧ s.ownerUp off = true ∧ s.keyOf acc off = some key ∧
    assignedKey key = true ∧ (roleOf key = .roHi ∨ roleOf key = .rwHi))) ((.host 0) : Accessor) ((0x18004) : Nat) ((0x18004) : Nat) stRun := by
  decide +kernel

theorem witness_PairsLatchAndHold_registerWrite :
    (fun (acc : Accessor) (off _val : Nat) (key : Nat) (s : State) => Sound s ∧ (s.accessible acc off true = true ∧ off < 0x1000000 ∧ s.ownerUp off = true ∧ s.keyOf acc off = some key ∧
    assignedKey key = true ∧ roleOf key = .rwLo ∧ s.pairOpen acc key = true ∧
    (s.boot.bifurcated = false ∨ s.host.port1 = none ∨ acc ≠ .host 0))) ((.host 0) : Accessor) ((0x40010) : Nat) ((77) : Nat) ((0x40010) : Nat) stUp := by
  decide +kernel

theorem witness_PairsLatchAndHold_rwPairHiWrite :
    (fun (acc : Accessor) (off _val : Nat) (wl : Word) (s : State) => Sound s ∧ (s.accessible acc off true = true ∧ s.ownerUp off = true ∧ s.keyOf acc off = some off ∧ assignedKey off = true ∧
    roleOf off = .rwHi ∧ (off = R.HC_DATA_BASE_HI ∨ off = R.HC_PL_BASE_HI) ∧ s.pairOpen acc (off - 4) = true ∧
    s.heldLo.lookup (heldKey acc (off - 4)) = some wl)) ((.host 0) : Accessor) ((0x40014) : Nat) ((1) : Nat) ((0x00300000) : Word) (({ stUp with heldLo := [(0x40010, 0x00300000)] })) := by
  decide +kernel

theorem witness_RegisterWritesFollowTheAccessTypes_registerWrite :
    (fun (fn : Fin 2) (off _val : Nat) (s : State) => Sound s ∧ (s.boot.bifurcated = false ∧ s.accessible (.host fn) off true = true ∧ s.ownerUp off = true ∧ 0x180000 ≤ off ∧ off < 0x1C0000 ∧ (findReg off).isSome = true ∧
    roleOf off = .single ∧ off ≠ R.DC_OUT_CONS ∧ off ≠ R.DC_CNT_CLR)) ((0) : Fin 2) ((0x180000) : Nat) ((5) : Nat) stUp := by
  decide +kernel

theorem witness_RegisterWritesFollowTheAccessTypes_registerWrite_2 :
    (fun (off _val : Nat) (s : State) => Sound s ∧ (s.boot.bifurcated = true ∧ s.accessible (.host 1) off true = true ∧ s.ownerUp off = true ∧ 0x180000 ≤ off ∧ off < 0x1C0000 ∧
    (findReg off).isSome = true ∧ roleOf off = .single ∧ off ≠ R.DC_OUT_CONS ∧ off ≠ R.DC_CNT_CLR)) ((0x180000) : Nat) ((5) : Nat) ({ stUp with boot := { stUp.boot with bifurcated := true } }) := by
  decide +kernel

theorem witness_RegisterWritesFollowTheAccessTypes_registerWrite_3 :
    (fun (off _val : Nat) (p : PortWrite) (s : State) => Sound s ∧ (s.boot.bifurcated = true ∧ s.accessible (.host 0) off true = true ∧ s.ownerUp off = true ∧ 0x180000 ≤ off ∧ off < 0x1C0000 ∧
    (findReg off).isSome = true ∧ roleOf off = .single ∧ off ≠ R.DC_OUT_CONS ∧ off ≠ R.DC_CNT_CLR ∧
    s.host.port1 = some p ∧ p.clock = s.hostClock ∧ p.key = off ∧ s.reg off = writtenWord off p.before p.word)) ((0x180000) : Nat) ((5) : Nat) ((⟨666666, 0x180000, 20709380, 20709380⟩) : PortWrite) ({ stUp with boot := { stUp.boot with bifurcated := true }, host := { stUp.host with port1 := some ⟨666666, 0x180000, 20709380, 20709380⟩ } }) := by
  decide +kernel

theorem witness_PowerCommands_domainPowerUp :
    (fun (dom : Fin 19) (levels : Fin 16) (due : Stamp) (s : State) => Sound s ∧ ((s.domain dom).phase = .waiting due ∧ due ≤ s.now ∧ s.starved dom.val = false ∧
    (∀ g ∈ List.range 3, domainNeeds dom.val g = true → testBitN levels.val (g + 1) = true))) ((16) : Fin 19) ((15) : Fin 16) ((5) : Stamp) (({ stRun with domains := stRun.domains.set 16 ⟨.waiting 5, 0⟩ })) := by
  decide +kernel

theorem witness_PowerCommands_domainPowerCheck :
    (fun (dom : Fin 19) (closed : Stamp) (s : State) => Sound s ∧ ((s.domain dom).phase = .settling closed ∧ closed + 30000 ≤ s.now ∧ dom.val = 16)) ((16) : Fin 19) ((5) : Stamp) (({ stRun with domains := stRun.domains.set 16 ⟨.settling 5, 0⟩ })) := by
  decide +kernel

theorem witness_PowerCommands_domainPowerCheck_2 :
    (fun (n : Fin 16) (closed : Stamp) (s : State) => Sound s ∧ ((s.domain ⟨n.val, by omega⟩).phase = .settling closed ∧ closed + 30000 ≤ s.now ∧ s.headPopulated n.val = true)) ((2) : Fin 16) ((5) : Stamp) ((({ stRun with domains := stRun.domains.set 2 ⟨.settling 5, 0⟩ }).setReg R.SYS_HEAD_STATUS 0xFFFF0000)) := by
  decide +kernel

theorem witness_PowerCommands_domainPowerCheck_3 :
    (fun (n : Fin 16) (closed : Stamp) (s : State) => Sound s ∧ ((s.domain ⟨n.val, by omega⟩).phase = .settling closed ∧ closed + 300000 ≤ s.now)) ((2) : Fin 16) ((5) : Stamp) (({ stRun with domains := stRun.domains.set 2 ⟨.settling 5, 0⟩ })) := by
  decide +kernel

theorem witness_PowerCommands_domainPowerRetry :
    (fun (dom : Fin 19) (opened : Stamp) (s : State) => Sound s ∧ ((s.domain dom).phase = .retryAt opened ∧ opened + ticksMs ≤ s.now ∧ s.starved dom.val = false)) ((17) : Fin 19) ((5) : Stamp) (({ stRun with time := { stRun.time with tb := 2000000 }, domains := stRun.domains.set 17 ⟨.retryAt 5, 1⟩ })) := by
  decide +kernel

theorem witness_PowerCommands_supplyGroupWaitTimeout :
    (fun (group : Fin 3) (s : State) => Sound s ∧ ((∃ d : Fin 19, d ∈ s.waitingFor group.val (100 * ticksMs)) ∧ s.groupGood group.val = false)) ((1) : Fin 3) (({ stRun with time := { stRun.time with tb := 200000000 }, domains := stRun.domains.set 17 ⟨.waiting 5, 1⟩ })) := by
  decide +kernel

theorem witness_PowerCommands_supplyGroupLost :
    (fun (group : Fin 3) (s : State) => Sound s ∧ (∃ d : Fin 19, domainNeeds d.val group.val = true ∧ (s.domain d).powered = true)) ((0) : Fin 3) (({ stUp with domains := stRun.domains.set 16 ⟨.up, 0⟩ })) := by
  decide +kernel

theorem witness_PowerCommands_headPower :
    (fun (n : Fin 16) (s : State) => Sound s ∧ (s.mayPowerHead n = true)) ((0) : Fin 16) (((stRun.setReg R.SYS_HEAD_STATUS 0xFFFF0000).setReg R.SYS_SUPPLY 15)) := by
  decide +kernel

theorem witness_PowerCommands_headPower_8 :
    (fun (n : Fin 16) (s : State) => Sound s ∧ (s.mayPowerHead n = false)) ((0) : Fin 16) stRun := by
  decide +kernel

theorem witness_HeadsLeaveService_headIsolate :
    (fun (n : Fin 16) (s : State) => Sound s ∧ (s.headInService n.val = true ∧ (s.head n).pass = none ∧ s.boot.bifurcated = false ∧ (s.fnOf 0).phase ≠ .resetting)) ((3) : Fin 16) stUp := by
  decide +kernel

theorem witness_HeadsLeaveService_headIsolate_1 :
    (fun (n : Fin 16) (s : State) => Sound s ∧ (s.headInService n.val = false ∧ s.boot.bifurcated = false ∧ (s.fnOf 0).phase ≠ .resetting)) ((3) : Fin 16) stRun := by
  decide +kernel

theorem witness_HeadsLeaveService_headDomainPowerLost :
    (fun (n : Fin 16) (s : State) => Sound s ∧ (s.headInService n.val = true ∧ (s.head n).pass = none ∧ s.boot.bifurcated = false ∧ (s.fnOf 0).phase ≠ .resetting)) ((3) : Fin 16) stUp := by
  decide +kernel

theorem witness_HeadsLeaveService_headIsolationDeadline :
    (fun (n : Fin 16) (l : Leaving) (s : State) => Sound s ∧ ((s.head n).leaving = some l ∧ (s.head n).pass = none)) ((3) : Fin 16) ((⟨5, .request, true⟩) : Leaving) ((stUp.modHead 3 fun h => { h with leaving := some ⟨5, .request, true⟩ })) := by
  decide +kernel

theorem witness_BootCommands_bootConfigApply :
    (fun  (s : State) => Sound s ∧ (s.fld R.SYS_BOOT F.SYS_BOOT_STAGE = 1 ∧ s.boot.perst = false ∧ s.sec.running = none ∧
    (s.domain 16).phase ≠ .failed ∧ (s.domain 17).phase ≠ .failed))  (((stRun.setFld R.SYS_BOOT F.SYS_BOOT_STAGE 1))) := by
  decide +kernel

theorem witness_BootCommands_bootBobbinsStart :
    (fun  (s : State) => Sound s ∧ (s.fld R.SYS_BOOT F.SYS_BOOT_STAGE = 2 ∧ s.boot.noImage = false ∧ s.headsPowering = false))  (((stRun.setFld R.SYS_BOOT F.SYS_BOOT_STAGE 2))) := by
  decide +kernel

theorem witness_BootCommands_sweepEnd :
    (fun (_failMask : Fin 16) (_codes : List (Nat × Word)) (s : State) => Sound s ∧ (s.flag R.MC_STATUS F.MC_STATUS_SWEEP_BUSY = true ∧ s.boot.noImage = false ∧
    s.fld R.SYS_BOOT F.SYS_BOOT_STAGE = 3)) ((1) : Fin 16) (([]) : List (Nat × Word)) ((((stRun.setFld R.SYS_BOOT F.SYS_BOOT_STAGE 3)).setFld R.MC_STATUS F.MC_STATUS_SWEEP_BUSY 1)) := by
  decide +kernel

theorem witness_BootCommands_noImageFillDone :
    (fun  (s : State) => Sound s ∧ (s.boot.filling = true))  ({ stRun with boot := { stRun.boot with filling := true } }) := by
  decide +kernel

theorem witness_BootCommands_warmReset :
    (fun  (s : State) => Sound s ∧ (s.boot.perst = false))  stUp := by
  decide +kernel

theorem witness_BootCommands_perstNRelease :
    (fun  (s : State) => Sound s ∧ (s.boot.perst = true))  ({ stRun with boot := { stRun.boot with perst := true } }) := by
  decide +kernel

theorem witness_SpdmRequests_doeDiscovery :
    (fun (_fn : Fin 2) (index : Nat) (s : State) => Sound s ∧ (index < 3)) ((0) : Fin 2) ((1) : Nat) st0 := by
  decide +kernel

theorem witness_SpdmRequests_getCapabilities :
    (fun (via : Transport) (_msg : List Byte) (s : State) => Sound s ∧ (1 ≤ s.connStage via)) ((.doe 0) : Transport) (([]) : List Byte) ((st0.setConn (.doe 0) 1)) := by
  decide +kernel

theorem witness_SpdmRequests_negotiateAlgorithms :
    (fun (via : Transport) (_msg : List Byte) (s : State) => Sound s ∧ (2 ≤ s.connStage via)) ((.doe 0) : Transport) (([]) : List Byte) ((st0.setConn (.doe 0) 2)) := by
  decide +kernel

theorem witness_SpdmRequests_getDigests :
    (fun (via : Transport) (_msg : List Byte) (s : State) => Sound s ∧ (3 ≤ s.connStage via ∧ s.certBad = false)) ((.doe 0) : Transport) (([]) : List Byte) ((st0.setConn (.doe 0) 3)) := by
  decide +kernel

theorem witness_SpdmRequests_getCertificate :
    (fun (via : Transport) (msg : List Byte) (s : State) => Sound s ∧ (3 ≤ s.connStage via ∧ s.certBad = false ∧ msgByte msg 2 % 16 = 0)) ((.doe 0) : Transport) (([]) : List Byte) ((st0.setConn (.doe 0) 3)) := by
  decide +kernel

theorem witness_SpdmRequests_challenge :
    (fun (via : Transport) (msg : List Byte) (s : State) => Sound s ∧ (3 ≤ s.connStage via ∧ s.certBad = false ∧ msgByte msg 2 = 0)) ((.doe 0) : Transport) (([]) : List Byte) ((st0.setConn (.doe 0) 3)) := by
  decide +kernel

theorem witness_SpdmRequests_getMeasurements :
    (fun (via : Transport) (msg : List Byte) (s : State) => Sound s ∧ (3 ≤ s.connStage via ∧ (msgByte msg 3 ≤ 6 ∨ msgByte msg 3 = 0xFF))) ((.doe 0) : Transport) (([0, 0, 0, 255]) : List Byte) ((st0.setConn (.doe 0) 3)) := by
  decide +kernel

theorem witness_SpdmRequests_keyExchange :
    (fun (via : Transport) (_msg : List Byte) (s : State) => Sound s ∧ (3 ≤ s.connStage via ∧ s.certBad = false ∧ s.sec.sessions.length < 4)) ((.doe 0) : Transport) (([]) : List Byte) ((st0.setConn (.doe 0) 3)) := by
  decide +kernel

theorem witness_SpdmRequests_finish :
    (fun (via : Transport) (sid : Nat) (_msg : List Byte) (y : Session) (s : State) => Sound s ∧ (s.session via sid = some y)) ((.doe 0) : Transport) ((2) : Nat) (([]) : List Byte) ((⟨2, .doe 0, false⟩) : Session) ((st0.modSec fun x => { x with sessions := [⟨2, .doe 0, false⟩] })) := by
  decide +kernel

theorem witness_SpdmRequests_heartbeat :
    (fun (via : Transport) (sid : Nat) (_msg : List Byte) (y : Session) (s : State) => Sound s ∧ (s.session via sid = some y ∧ y.done = true)) ((.doe 0) : Transport) ((2) : Nat) (([]) : List Byte) ((⟨2, .doe 0, true⟩) : Session) ((st0.modSec fun x => { x with sessions := [⟨2, .doe 0, true⟩] })) := by
  decide +kernel

theorem witness_SpdmRequests_keyUpdate :
    (fun (via : Transport) (sid : Nat) (_msg : List Byte) (y : Session) (s : State) => Sound s ∧ (s.session via sid = some y ∧ y.done = true)) ((.doe 0) : Transport) ((2) : Nat) (([]) : List Byte) ((⟨2, .doe 0, true⟩) : Session) ((st0.modSec fun x => { x with sessions := [⟨2, .doe 0, true⟩] })) := by
  decide +kernel

theorem witness_SpdmRequests_endSession :
    (fun (via : Transport) (sid : Nat) (_msg : List Byte) (y : Session) (s : State) => Sound s ∧ (s.session via sid = some y ∧ y.done = true)) ((.doe 0) : Transport) ((2) : Nat) (([]) : List Byte) ((⟨2, .doe 0, true⟩) : Session) ((st0.modSec fun x => { x with sessions := [⟨2, .doe 0, true⟩] })) := by
  decide +kernel

theorem witness_SecurityCommands_bootVerify :
    (fun  (s : State) => Sound s ∧ (s.time.started = true ∧ s.fld R.SYS_BOOT F.SYS_BOOT_STAGE = 0 ∧ s.boot.perst = false ∧ s.directory = none))  stRun := by
  refine ⟨?_, ?_, ?_, ?_, directory_blank _ rfl⟩ <;> decide +kernel

theorem witness_SecurityCommands_bootVerify_1 :
    (fun  (s : State) => Sound s ∧ (s.time.started = true ∧ s.fld R.SYS_BOOT F.SYS_BOOT_STAGE = 0 ∧ s.boot.perst = false))  stRun := by
  decide +kernel

theorem witness_SecurityCommands_floorCommit :
    (fun  (s : State) => Sound s ∧ (s.sec.running = none))  st0 := by
  decide +kernel

theorem witness_SecurityCommands_floorCommit_3 :
    (fun (r : Running) (s : State) => Sound s ∧ (s.sec.running = some r ∧ s.directory = none ∧ fieldAt r.record 8 4 ≤ 32 ∧ fieldAt r.record 8 4 ≤ r.svn ∧
    s.fld R.SEC_FUSE F.SEC_FUSE_FLOOR < fieldAt r.record 8 4)) ((runA 0) : Running) ((((st0.setReg R.SEC_FUSE 0).modSec fun x => { x with running := some (runA 0) }))) := by
  refine ⟨⟨storeWf_put (by decide), by decide +kernel, by decide +kernel⟩, rfl, directory_blank _ rfl, by decide +kernel, by decide +kernel, ?_⟩
  have h : ((st0.setReg R.SEC_FUSE 0).modSec fun x => { x with running := some (runA 0) }).reg R.SEC_FUSE = 0 := storeGet_put_self
  unfold State.fld
  rw [h]
  decide +kernel

theorem witness_SecurityCommands_revoke :
    (fun (slot : Fin 4) (s : State) => Sound s ∧ (s.sec.running = none ∧
    ∃ k ∈ List.range 4, k ≠ slot.val ∧ testBitN (s.fld R.SEC_FUSE F.SEC_FUSE_PROGRAMMED) k = true ∧
      testBitN (s.fld R.SEC_FUSE F.SEC_FUSE_REVOKED) k = false)) ((1) : Fin 4) ((st0.setReg R.SEC_FUSE 0x0F)) := by
  have h : (st0.setReg R.SEC_FUSE 0x0F).reg R.SEC_FUSE = 0x0F := storeGet_put_self
  refine ⟨⟨storeWf_put (by decide), by decide +kernel, by decide +kernel⟩, rfl, 0, by decide, by decide, ?_, ?_⟩ <;>
    (unfold State.fld; rw [h]; decide +kernel)

theorem witness_SecurityCommands_revoke_5 :
    (fun (slot : Fin 4) (r : Running) (s : State) => Sound s ∧ (s.sec.running = some r ∧ r.keySlot = slot.val)) ((1) : Fin 4) ((runA 1) : Running) ((st0.modSec fun x => { x with running := some (runA 1) })) := by
  decide +kernel

theorem witness_CalibrationCommands_bandgapCompare :
    (fun (dev : Nat) (s : State) => Sound s ∧ (s.now % 1500000 = 0 ∧ 100 < dev ∧ s.cal.deviant = true ∧ s.flag R.CAL_STATUS F.CAL_STATUS_BG_DEV = false)) ((150) : Nat) (({ stRun with time := { stRun.time with tb := 1500000 } }.modCal fun c => { c with deviant := true })) := by
  decide +kernel

theorem witness_CalibrationCommands_bandgapCompare_1 :
    (fun (dev : Nat) (s : State) => Sound s ∧ (s.now % 1500000 = 0 ∧ dev ≤ 100)) ((50) : Nat) (({ stRun with time := { stRun.time with tb := 1500000 } }.modCal fun c => { c with deviant := true })) := by
  decide +kernel

theorem witness_CalibrationCommands_calibrationSlots :
    (fun (_z _r : List Int) (s : State) => Sound s ∧ (s.now % 1500000 = 150 ∧ s.flag R.CAL_TRIG F.CAL_TRIG_MAN = true)) (([]) : List Int) (([]) : List Int) ((({ stRun with time := { stRun.time with tb := 150 } }).setFld R.CAL_TRIG F.CAL_TRIG_MAN 1)) := by
  decide +kernel

theorem witness_CalibrationCommands_calibrationCopy :
    (fun  (s : State) => Sound s ∧ (s.copyCause = some 0 ∧ s.flag R.CAL_STATUS F.CAL_STATUS_BG_DEV = false))  ((({ stRun with time := { stRun.time with tb := 2000000 } }).modCal fun c => { c with pairs := c.pairs.map fun _ => List.replicate 64 (0, 0) })) := by
  decide +kernel

theorem witness_CalibrationCommands_calibrationSlew :
    (fun  (s : State) => Sound s ∧ (s.now % 1500000 = 0 ∧ s.flag R.CAL_STATUS F.CAL_STATUS_BG_DEV = false ∧ s.cal.copied = true ∧ s.cal.copyAt < s.now ∧
    s.cal.goals.length = 33 ∧ (∀ g ∈ s.cal.goals, targetValid g.1 g.2 = true) ∧
    ∀ c : Fin 33, targetValid (adcOfs (s.reg (R.CAL_ADC_APP c.val))) (adcGain (s.reg (R.CAL_ADC_APP c.val))) = true))  ((calA.modCal fun c => { c with copied := true, copyAt := 5, goals := List.replicate 33 (7, 0x8000) })) := by
  refine ⟨⟨(regsWf_modCal calA _).trans calA_wf, ?_, ?_⟩, ?_, ?_, rfl, ?_, by decide +kernel, by decide +kernel, ?_⟩
  · rw [calA_eq]; decide +kernel
  · rw [calA_eq]; decide +kernel
  · rw [calA_eq]; decide +kernel
  · rw [flag_modCal, calA_reg, if_neg (by decide +kernel)]
    decide +kernel
  · rw [calA_eq]; decide +kernel
  · intro c
    rw [reg_modCal, calA_reg, if_pos (List.mem_map_of_mem (List.mem_range.mpr c.isLt))]
    decide +kernel

theorem witness_CalibrationCommands_adcTargetWrite :
    (fun (_c : Fin 33) (_val : Word) (s : State) => Sound s ∧ (s.flag R.CAL_TRIG F.CAL_TRIG_MAN = true)) ((4) : Fin 33) ((0x80000010) : Word) ((stRun.setFld R.CAL_TRIG F.CAL_TRIG_MAN 1)) := by
  decide +kernel

theorem witness_CalibrationCommands_adcTargetWrite_6 :
    (fun (_c : Fin 33) (_val : Word) (s : State) => Sound s ∧ (s.flag R.CAL_TRIG F.CAL_TRIG_MAN = false)) ((4) : Fin 33) ((0x80000010) : Word) stRun := by
  decide +kernel

theorem witness_CalibrationCommands_comparatorTrim :
    (fun  (s : State) => Sound s ∧ (s.motion.spin.st = .stopped))  stRun := by
  decide +kernel

theorem witness_CalibrationCommands_comparatorTrim_8 :
    (fun  (s : State) => Sound s ∧ (s.motion.spin.st ≠ .stopped))  ((stRun.modSpin fun x => { x with st := .run })) := by
  decide +kernel

theorem witness_CalibrationCommands_comparatorTrimDone :
    (fun (_rise _fall : Vector (Fin 64) 3) (s : State) => Sound s ∧ (s.flag R.CAL_STATUS F.CAL_STATUS_TRIM_BUSY = true ∧ s.motion.spin.restart = false)) (((Vector.replicate 3 (5 : Fin 64))) : Vector (Fin 64) 3) (((Vector.replicate 3 (40 : Fin 64))) : Vector (Fin 64) 3) ((stRun.setFld R.CAL_STATUS F.CAL_STATUS_TRIM_BUSY 1)) := by
  decide +kernel

theorem witness_CalibrationCommands_temperatureReport :
    (fun (_readings : List Int) (s : State) => Sound s ∧ (s.now % 150000 = 0)) ((List.replicate 20 400) : List Int) (({ stUp with time := { stUp.time with tb := 1500000 } })) := by
  decide +kernel

theorem witness_ControlStoreCommands_patchLoad :
    (fun (image : List Byte) (s : State) => Sound s ∧ ((parsePatch (image.map (·.toNat))).refusal (s.reg R.CS_ROM_ID).toNat = none)) (((toBytes ([1, 0, 0, 0] ++ natBytes 4 0 ++ [9, 0, 0, 0, 0, 0, 0, 0] ++ List.replicate 48 0))) : List Byte) ((st0.setReg R.CS_ROM_ID 0)) := by
  have h : (st0.setReg R.CS_ROM_ID 0).reg R.CS_ROM_ID = 0 := storeGet_put_self
  refine ⟨⟨storeWf_put (by decide), by decide +kernel, by decide +kernel⟩, ?_⟩
  rw [h]
  decide +kernel

theorem witness_ControlStoreCommands_patchLoad_1 :
    (fun (image : List Byte) (check idx : Nat) (s : State) => Sound s ∧ ((parsePatch (image.map (·.toNat))).refusal (s.reg R.CS_ROM_ID).toNat = some (check, idx))) (([]) : List Byte) ((0) : Nat) ((0) : Nat) st0 := by
  decide +kernel

theorem witness_ControlStoreCommands_controlStoreParityError :
    (fun (b : Fin 24) (uaddr : Fin 32768) (_mask : Fin 256) (s : State) => Sound s ∧ (s.served b = true ∧ s.redirected uaddr.val = false ∧ s.mcActive = false)) ((4) : Fin 24) ((0x1234) : Fin 32768) ((1) : Fin 256) ((stRun.modBob 4 fun x => { x with st := .ready })) := by
  decide +kernel

theorem witness_ControlStoreCommands_safePointOverrun :
    (fun (b : Fin 24) (_uaddr : Fin 32768) (s : State) => Sound s ∧ (s.served b = true ∧ s.mcActive = false)) ((4) : Fin 24) ((0x1234) : Fin 32768) ((stRun.modBob 4 fun x => { x with st := .ready })) := by
  decide +kernel

theorem witness_ControlStoreCommands_csTestWrite :
    (fun (_rom : Fin 16384) (s : State) => Sound s ∧ (testBitN (s.fld R.SEC_STATUS F.SEC_STATUS_DBG) 1 = true)) ((77) : Fin 16384) ((st0.setFld R.SEC_STATUS F.SEC_STATUS_DBG 2)) := by
  decide +kernel

theorem witness_ControlStoreCommands_csTestWrite_5 :
    (fun (_rom : Fin 16384) (s : State) => Sound s ∧ (testBitN (s.fld R.SEC_STATUS F.SEC_STATUS_DBG) 1 = false)) ((77) : Fin 16384) st0 := by
  decide +kernel

theorem witness_ControlStoreCommands_distributionError :
    (fun (isl : Island) (prev sample : Nat) (s : State) => Sound s ∧ (s.time.dist = [] ∧ (sample < prev ∨ prev + islandCycle isl + 1 < sample))) ((.decode) : Island) ((1000) : Nat) ((5) : Nat) stRun := by
  decide +kernel

theorem witness_ControlStoreCommands_distributionError_8 :
    (fun (_prev sample : Nat) (d : DistState) (s : State) => Sound s ∧ (s.time.dist = [(16, d)] ∧ d.run = 3 ∧ s.now ≤ d.tick + 2 ∧ sample < d.used ∧ s.mcActive = false)) ((1000) : Nat) ((5) : Nat) ((⟨1000000, 900, 3⟩) : DistState) (({ stRun with time := { stRun.time with dist := [(16, ⟨1000000, 900, 3⟩)] } })) := by
  decide +kernel

theorem witness_UplinkFrames_upFrame :
    (fun (head : Fin 16) (pair lane : Fin 4) (arrival : Stamp) (hdr : Block) (blocks : List Block) (s : State) => Sound s ∧ ((s.head head).link.usable = true ∧ (s.head head).link.training = none ∧ (s.head head).link.pairs[pair] = some lane ∧
    (s.lane head lane).st = .active ∧ (s.lane head lane).cur = none ∧ (s.lane head lane).follows (parseHdr hdr) = true ∧ hdrValid hdr = true ∧ (parseHdr hdr).lane = lane.val ∧
    frameStamp (parseHdr hdr).fcnt arrival + (s.lane head lane).latUp = arrival ∧
    (∀ b ∈ hdr :: blocks, b.sync = 1 ∨ b.sync = 2) ∧ blockLockLost (s.lane head lane).syncBad ((hdr :: blocks).map fun _ => false) = false)) ((0) : Fin 16) ((1) : Fin 4) ((1) : Fin 4) ((48) : Stamp) ((⟨2, 0xE140000100000000⟩) : Block) (([]) : List Block) stLink := by
  decide +kernel

theorem witness_UplinkFrames_upFrameMissing :
    (fun (head : Fin 16) (lane : Fin 4) (_fcnt : Fin 65536) (s : State) => Sound s ∧ ((s.head head).link.usable = true ∧ (s.head head).link.training = none ∧ (s.lane head lane).st = .active ∧
    (s.lane head lane).cur = none ∧
    (s.lane head lane).errs + 1 < s.fld (R.TL_ERR_CFG head.val) F.TL_ERR_CFG_BURST)) ((0) : Fin 16) ((2) : Fin 4) ((5) : Fin 65536) ((stLink.setReg (R.TL_ERR_CFG 0) 0xFFFFFFFF)) := by
  decide +kernel

theorem witness_UplinkFrames_laneErrorWindowEnd :
    (fun (head : Fin 16) (lane : Fin 4) (s : State) => Sound s ∧ ((s.lane head lane).st = .active ∧
    (s.lane head lane).winStart + s.fld (R.TL_ERR_CFG head.val) F.TL_ERR_CFG_WINDOW * 3072 ≤ s.now)) ((0) : Fin 16) ((2) : Fin 4) stLink := by
  decide +kernel

theorem witness_UplinkFrames_laneRetrainTimeout :
    (fun (head : Fin 16) (lane : Fin 4) (p : Stamp) (s : State) => Sound s ∧ ((s.lane head lane).prbsAt = some p ∧ p + 30000 ≤ s.now ∧ (s.lane head lane).st = .training ∧ (s.head head).link.usable = true ∧
    s.fld (R.TL_ERR_CFG head.val) F.TL_ERR_CFG_RETRIES ≤ (s.lane head lane).attempts)) ((0) : Fin 16) ((2) : Fin 4) ((5) : Stamp) ((stLink.modLane 0 2 fun l => { l with st := .training, prbsAt := some 5, attempts := 99 })) := by
  decide +kernel

theorem witness_UplinkFrames_laneRetrainTimeout_4 :
    (fun (head : Fin 16) (lane : Fin 4) (p : Stamp) (s : State) => Sound s ∧ ((s.lane head lane).prbsAt = some p ∧ p + 30000 ≤ s.now ∧ (s.lane head lane).st = .training ∧ (s.head head).link.usable = true ∧
    (s.lane head lane).attempts < s.fld (R.TL_ERR_CFG head.val) F.TL_ERR_CFG_RETRIES)) ((0) : Fin 16) ((2) : Fin 4) ((5) : Stamp) ((stLink.modLane 0 2 fun l => { l with st := .training, prbsAt := some 5, attempts := 0 })) := by
  decide +kernel

theorem witness_SideBlocks_srfBlock :
    (fun (head : Fin 16) (b : SideBlock) (rest : List SideBlock) (s : State) => Sound s ∧ ((s.head head).link.side = b :: rest ∧ b.kind = 1 ∧ b.invalid = false)) ((0) : Fin 16) ((⟨1, 2, 0, 0x0102030405FF, 48000⟩) : SideBlock) (([]) : List SideBlock) ((stSide 1 2 0x0102030405FF)) := by
  decide +kernel

theorem witness_SideBlocks_quadBlock :
    (fun (head : Fin 16) (b : SideBlock) (rest : List SideBlock) (s : State) => Sound s ∧ ((s.head head).link.side = b :: rest ∧ b.kind = 2)) ((0) : Fin 16) ((⟨2, 0, 0, 0x0102030405FF, 48000⟩) : SideBlock) (([]) : List SideBlock) ((stSide 2 0 0x0102030405FF)) := by
  decide +kernel

theorem witness_SideBlocks_hkBlock :
    (fun (head : Fin 16) (b : SideBlock) (rest : List SideBlock) (s : State) => Sound s ∧ ((s.head head).link.side = b :: rest ∧ b.kind = 3 ∧ b.invalid = false ∧ s.flag (R.HD_DERATE_CTRL head.val) F.HD_DERATE_CTRL_EN = false)) ((0) : Fin 16) ((⟨3, 0, 0, 0x0500000000FF, 48000⟩) : SideBlock) (([]) : List SideBlock) ((stSide 3 0 0x0500000000FF)) := by
  decide +kernel

theorem witness_SideBlocks_hkBlock_3 :
    (fun (head : Fin 16) (b : SideBlock) (rest : List SideBlock) (s : State) => Sound s ∧ ((s.head head).link.side = b :: rest ∧ b.kind = 3 ∧ b.invalid = false ∧ (s.head head).pass = none ∧
    s.flag (R.HD_DERATE_CTRL head.val) F.HD_DERATE_CTRL_EN = true ∧
    natBits b.data 47 40 = s.fld (R.HD_DERATE_CTRL head.val) F.HD_DERATE_CTRL_HK_ITEM)) ((0) : Fin 16) ((⟨3, 0, 0, 0x0500000000FF, 48000⟩) : SideBlock) (([]) : List SideBlock) ((((stSide 3 0 0x0500000000FF).setFld (R.HD_DERATE_CTRL 0) F.HD_DERATE_CTRL_EN 1).setFld (R.HD_DERATE_CTRL 0) F.HD_DERATE_CTRL_HK_ITEM 5)) := by
  decide +kernel

theorem witness_SideBlocks_statBlock :
    (fun (head : Fin 16) (b : SideBlock) (rest : List SideBlock) (s : State) => Sound s ∧ ((s.head head).link.side = b :: rest ∧ b.kind = 4 ∧ b.invalid = false ∧ (s.head head).fe = [] ∧
    natBits b.data 31 24 = 0 ∧ testBitN b.data 11 = false ∧ testBitN b.data 10 = (s.head head).link.feSafe ∧
    testBitN b.data 8 = true ∧ testBitN b.data 7 = true ∧ (testBitN b.data 9 = true ∨ (s.head head).writingNow = false))) ((0) : Fin 16) ((⟨4, 0, 0, 0x000500000180, 48000⟩) : SideBlock) (([]) : List SideBlock) ((stSide 4 0 0x000500000180)) := by
  decide +kernel

theorem witness_SideBlocks_capBlock :
    (fun (head : Fin 16) (b : SideBlock) (rest : List SideBlock) (s : State) => Sound s ∧ ((s.head head).link.side = b :: rest ∧ b.kind = 5 ∧ b.invalid = false ∧ b.part = 0)) ((0) : Fin 16) ((⟨5, 0, 0, 0x0102030405FF, 48000⟩) : SideBlock) (([]) : List SideBlock) ((stSide 5 0 0x0102030405FF)) := by
  decide +kernel

theorem witness_SideBlocks_capBlock_6 :
    (fun (head : Fin 16) (b : SideBlock) (rest : List SideBlock) (s : State) => Sound s ∧ ((s.head head).link.side = b :: rest ∧ b.kind = 5 ∧ b.invalid = false ∧ b.part ≠ 0)) ((0) : Fin 16) ((⟨5, 1, 0, 0x0102030405FF, 48000⟩) : SideBlock) (([]) : List SideBlock) ((stSide 5 1 0x0102030405FF)) := by
  decide +kernel

theorem witness_SideBlocks_replyBlock :
    (fun (head : Fin 16) (_arrival : Stamp) (b : SideBlock) (rest : List SideBlock) (tr : Training) (f : Nat) (s : State) => Sound s ∧ ((s.head head).link.side = b :: rest ∧ b.kind = 6 ∧ b.invalid = false ∧ natBits b.data 47 40 = 0 ∧
    (s.head head).link.training = some tr ∧ tr.step = .echoSent ∧ tr.echoes.find? (fun x => x % 256 == natBits b.data 39 32) = some f)) ((0) : Fin 16) ((48480) : Stamp) ((⟨6, 0, 0, 0xE80000012C, 48000⟩) : SideBlock) (([]) : List SideBlock) ((⟨0, false, 1, .echoSent, false, [1000], 0, [], true⟩) : Training) ((1000) : Nat) (((stSide 6 0 0xE80000012C).modLink 0 fun l => { l with training := some ⟨0, false, 1, .echoSent, false, [1000], 0, [], true⟩ })) := by
  decide +kernel

theorem witness_SideBlocks_replyBlock_8 :
    (fun (head : Fin 16) (_arrival : Stamp) (b : SideBlock) (rest : List SideBlock) (f : FeReq) (s : State) => Sound s ∧ ((s.head head).link.side = b :: rest ∧ b.kind = 6 ∧ b.invalid = false ∧ natBits b.data 47 40 = 2 ∧ (s.head head).fe = [f] ∧
    f.kind = .read ∧ f.frame.map (· % 256) = some (natBits b.data 39 32))) ((0) : Fin 16) ((48480) : Stamp) ((⟨6, 0, 0, 0x020500000007, 48000⟩) : SideBlock) (([]) : List SideBlock) ((⟨⟨3, 9, 0⟩, .read, 5, some 0x105⟩) : FeReq) (((stSide 6 0 0x020500000007).modHead 0 fun h => { h with fe := [⟨⟨3, 9, 0⟩, .read, 5, some 0x105⟩] })) := by
  decide +kernel

theorem witness_SideBlocks_feevBlock :
    (fun (head : Fin 16) (b : SideBlock) (rest : List SideBlock) (s : State) => Sound s ∧ ((s.head head).link.side = b :: rest ∧ b.kind = 7 ∧ b.invalid = false)) ((0) : Fin 16) ((⟨7, 0, 0, 0x0102030405FF, 48000⟩) : SideBlock) (([]) : List SideBlock) ((stSide 7 0 0x0102030405FF)) := by
  decide +kernel

theorem witness_DownlinkFrames_d0FrameLaunch :
    (fun (head : Fin 16) (s : State) => Sound s ∧ (s.now % 48 = 0 ∧ (s.head head).link.state = .up ∧ (s.head head).pass = none ∧ (s.head head).link.training = none ∧
    (s.head head).link.servoQ = [] ∧ (s.head head).link.displaced = [] ∧ (s.head head).link.queue = [] ∧ (s.head head).link.d0 = none)) ((0) : Fin 16) (({ stLink with time := { stLink.time with tb := 4800 } }.modLink 0 fun l => { l with sent := [1, 2, 3] })) := by
  decide +kernel

theorem witness_DownlinkFrames_d0FrameLaunch_1 :
    (fun (head : Fin 16) (s : State) => Sound s ∧ (s.now % 48 = 0 ∧ (s.head head).link.state = .up ∧ (s.head head).pass = none ∧ (s.head head).link.training = none ∧
    (s.head head).link.servoQ = [] ∧ (s.head head).link.displaced = [] ∧ (s.head head).link.queue.map (·.msg) = [.safe] ∧
    (s.head head).link.d0 = none)) ((0) : Fin 16) (({ stLink with time := { stLink.time with tb := 4800 } }.modLink 0 fun l => { l with queue := [⟨.safe, 7, false⟩] })) := by
  decide +kernel

theorem witness_DownlinkFrames_d0FrameLaunch_2 :
    (fun (head : Fin 16) (f : D0Frame) (s : State) => Sound s ∧ (s.now % 48 = 0 ∧ (s.head head).link.state = .up ∧ (s.head head).pass = none ∧ (s.head head).link.training = none ∧
    (s.head head).link.servoQ = [] ∧ (s.head head).link.displaced = [] ∧ (s.head head).link.queue = [] ∧ (s.head head).fe = [] ∧
    (s.head head).link.d0 = some f ∧ f.slots = .msg .safe 0 :: List.replicate 23 .idle)) ((0) : Fin 16) ((⟨99, 2, 7, .msg .safe 0 :: List.replicate 23 .idle⟩) : D0Frame) (({ stLink with time := { stLink.time with tb := 4800 } }.modLink 0 fun l => { l with d0 := some ⟨99, 2, 7, .msg .safe 0 :: List.replicate 23 .idle⟩ })) := by
  decide +kernel

theorem witness_DownlinkFrames_messageResend :
    (fun (head : Fin 16) (f : Nat) (s : State) => Sound s ∧ ((s.head head).link.lastD0 = some f ∧ ∀ m ∈ (s.head head).link.held, m.frame + 8 ≤ f)) ((0) : Fin 16) ((100) : Nat) ((stLink.modLink 0 fun l => { l with lastD0 := some 100, held := [⟨.safe, 7⟩] })) := by
  decide +kernel

theorem witness_DownlinkFrames_messageResend_4 :
    (fun (head : Fin 16) (f : Nat) (s : State) => Sound s ∧ ((s.head head).link.lastD0 = some f ∧ ∀ m ∈ (s.head head).link.held, f < m.frame + 8)) ((0) : Fin 16) ((10) : Nat) ((stLink.modLink 0 fun l => { l with lastD0 := some 10, held := [⟨.safe, 7⟩] })) := by
  decide +kernel

theorem witness_DownlinkFrames_feSafeRequest :
    (fun (head : Fin 16) (s : State) => Sound s ∧ ((s.head head).link.usable = true)) ((0) : Fin 16) stLink := by
  decide +kernel

theorem witness_DownlinkFrames_feSafeRequest_6 :
    (fun (head : Fin 16) (tr : Training) (s : State) => Sound s ∧ ((s.head head).link.state = .train ∧ (s.head head).link.training = some tr)) ((0) : Fin 16) ((⟨0, false, 1, .echoSent, false, [1000], 0, [], true⟩) : Training) ((stLink.modLink 0 fun l => { l with state := .train, training := some ⟨0, false, 1, .echoSent, false, [1000], 0, [], true⟩ })) := by
  decide +kernel

theorem witness_DownlinkFrames_feSafeRequest_7 :
    (fun (head : Fin 16) (s : State) => Sound s ∧ ((s.head head).link.state = .down)) ((0) : Fin 16) stUp := by
  decide +kernel

theorem witness_LinkStates_linkEnable :
    (fun (head : Fin 16) (s : State) => Sound s ∧ ((s.head head).link.state = .down ∧ s.headInService head.val = true ∧ HeadIdle s head)) ((0) : Fin 16) stUp := by
  decide +kernel

theorem witness_LinkStates_linkDisable :
    (fun (head : Fin 16) (s : State) => Sound s ∧ ((s.head head).link.state ≠ .down ∧ HeadIdle s head)) ((0) : Fin 16) stLink := by
  decide +kernel

theorem witness_LinkStates_linkRetrain :
    (fun (head : Fin 16) (s : State) => Sound s ∧ ((s.head head).link.state ≠ .down ∧ (s.head head).link.justFaulted s.now = false ∧ HeadIdle s head)) ((0) : Fin 16) stLink := by
  decide +kernel

theorem witness_LinkStates_linkRealign :
    (fun (head : Fin 16) (s : State) => Sound s ∧ (((s.head head).link.state = .up ∨ (s.head head).link.state = .degraded ∨ (s.head head).link.state = .fault) ∧
    (s.head head).link.justFaulted s.now = false ∧ HeadIdle s head)) ((0) : Fin 16) stLink := by
  decide +kernel

theorem witness_LinkStates_linkRealign_4 :
    (fun (head : Fin 16) (s : State) => Sound s ∧ ((s.head head).link.state = .down ∨ (s.head head).link.state = .train ∨ (s.head head).link.justFaulted s.now = true)) ((0) : Fin 16) stUp := by
  decide +kernel

theorem witness_LinkStates_statTimeout :
    (fun (head : Fin 16) (s : State) => Sound s ∧ ((s.head head).link.usable = true ∧ (s.head head).link.lastStat.getD 0 + 384 ≤ s.now ∧ HeadIdle s head)) ((0) : Fin 16) stLink := by
  decide +kernel

theorem witness_LinkStates_trainingReceiversAdapted :
    (fun (head : Fin 16) (tr : Training) (s : State) => Sound s ∧ ((s.head head).link.training = some tr ∧ tr.step = .forwardClock ∧ s.now ≤ tr.t0 + 3000000)) ((0) : Fin 16) ((⟨0, false, 1, .forwardClock, false, [], 0, [], true⟩) : Training) ((stLink.modLink 0 fun l => { l with state := .train, training := some ⟨0, false, 1, .forwardClock, false, [], 0, [], true⟩ })) := by
  decide +kernel

theorem witness_LinkStates_trainingAttemptTimeout :
    (fun (head : Fin 16) (tr : Training) (s : State) => Sound s ∧ ((s.head head).link.training = some tr ∧ trainBound (s.head head).link tr ≤ s.now ∧ tr.step = .forwardClock ∧ tr.realign = false ∧
    tr.attempts < s.fld (R.TL_ERR_CFG head.val) F.TL_ERR_CFG_RETRIES)) ((0) : Fin 16) ((⟨0, false, 1, .forwardClock, false, [], 0, [], true⟩) : Training) (({ stLink with time := { stLink.time with tb := 9000000 } }.modLink 0 fun l => { l with state := .train, training := some ⟨0, false, 1, .forwardClock, false, [], 0, [], true⟩ })) := by
  decide +kernel

theorem witness_LinkStates_trainingAttemptTimeout_8 :
    (fun (head : Fin 16) (tr : Training) (s : State) => Sound s ∧ ((s.head head).link.state = .train ∧ (s.head head).link.training = some tr ∧ trainBound (s.head head).link tr ≤ s.now ∧ tr.step = .forwardClock ∧ HeadIdle s head ∧
    s.fld (R.TL_ERR_CFG head.val) F.TL_ERR_CFG_RETRIES ≤ tr.attempts)) ((0) : Fin 16) ((⟨0, false, 99, .forwardClock, false, [], 0, [], true⟩) : Training) (({ stLink with time := { stLink.time with tb := 9000000 } }.modLink 0 fun l => { l with state := .train, training := some ⟨0, false, 99, .forwardClock, false, [], 0, [], true⟩ })) := by
  decide +kernel

theorem witness_LaserRearm_laserRearm :
    (fun (_head : Fin 16) (s : State) => Sound s ∧ (s.pins.inhLow = false ∧ s.pins.inhSince + 15000000 ≤ s.now)) ((4) : Fin 16) (({ stUp with time := { stUp.time with tb := 20000000 } }.setFld (R.HD_LASER_STATUS 4) F.HD_LASER_STATUS_INH_LATCH 1)) := by
  decide +kernel

theorem witness_LaserRearm_laserRearm_1 :
    (fun (_head : Fin 16) (s : State) => Sound s ∧ (s.pins.inhLow = true ∨ s.now < s.pins.inhSince + 15000000)) ((4) : Fin 16) ((stUp.setFld (R.HD_LASER_STATUS 4) F.HD_LASER_STATUS_INH_LATCH 1)) := by
  decide +kernel

theorem witness_InterlockDarkensEveryHead_laserInterlock :
    (fun  (s : State) => Sound s ∧ (s.pins.inhLow = false))  stUp := by
  decide +kernel

theorem witness_InterlockDarkensEveryHead_laserInhRelease :
    (fun  (s : State) => Sound s ∧ (s.pins.inhLow = true))  (({ stUp with pins := { inhLow := true, inhSince := 5 } })) := by
  decide +kernel

theorem witness_LaserRegisters_laserEnableWrite :
    (fun (head : Fin 16) (_enable : Bool) (s : State) => Sound s ∧ ((s.head head).pass = none ∧ (s.loopHead head).seq = none)) ((4) : Fin 16) ((true) : Bool) stUp := by
  decide +kernel

theorem witness_LaserRegisters_ceilingWrite :
    (fun (head : Fin 16) (_write : Bool) (_val : Nat) (s : State) => Sound s ∧ (s.flag (R.HD_CEIL_WR head.val) F.HD_CEIL_WR_LOCK = false)) ((4) : Fin 16) ((true) : Bool) ((77) : Nat) stUp := by
  decide +kernel

theorem witness_LaserRegisters_ceilingWrite_2 :
    (fun (head : Fin 16) (_write : Bool) (_val : Nat) (s : State) => Sound s ∧ (s.flag (R.HD_CEIL_WR head.val) F.HD_CEIL_WR_LOCK = true)) ((4) : Fin 16) ((true) : Bool) ((77) : Nat) ((stUp.setFld (R.HD_CEIL_WR 4) F.HD_CEIL_WR_LOCK 1)) := by
  decide +kernel

theorem witness_LaserRegisters_derateEnableWrite :
    (fun (head : Fin 16) (val : Word) (s : State) => Sound s ∧ (getFlag val F.HD_DERATE_CTRL_EN = false ∧ ((s.head head).pass = none ∨ getField val F.HD_DERATE_CTRL_MIN_F ≤ 256))) ((4) : Fin 16) ((0xC00022) : Word) stUp := by
  decide +kernel

theorem witness_LaserRegisters_derateEnableWrite_5 :
    (fun (head : Fin 16) (val : Word) (s : State) => Sound s ∧ (getFlag val F.HD_DERATE_CTRL_EN = true ∧
    ((s.head head).pass = none ∨ getField val F.HD_DERATE_CTRL_MIN_F ≤ s.fld (R.HD_LASER_STATUS head.val) F.HD_LASER_STATUS_DERATE))) ((4) : Fin 16) ((0xC00122) : Word) stUp := by
  decide +kernel

theorem witness_LaserRegisters_derateStale :
    (fun (head : Fin 16) (s : State) => Sound s ∧ (s.flag (R.HD_DERATE_CTRL head.val) F.HD_DERATE_CTRL_EN = true ∧ (s.head head).pass = none ∧
    (s.head head).laser.staleTold = false ∧ (s.head head).laser.staleFrom + 46080 ≤ s.now)) ((4) : Fin 16) (((stUp.setFld (R.HD_DERATE_CTRL 4) F.HD_DERATE_CTRL_EN 1).setFld (R.HD_DERATE_CTRL 4) F.HD_DERATE_CTRL_HK_ITEM 9)) := by
  decide +kernel

theorem witness_LaserRegisters_derateStale_7 :
    (fun (head : Fin 16) (s : State) => Sound s ∧ (s.flag (R.HD_DERATE_CTRL head.val) F.HD_DERATE_CTRL_EN = false ∨ (s.head head).laser.staleTold = true ∨ s.now < (s.head head).laser.staleFrom + 46080)) ((4) : Fin 16) stUp := by
  decide +kernel

theorem witness_ServoFraming_servoFrame :
    (fun (head : Fin 16) (no : Nat) (f b : Stamp) (_span : Nat) (s : State) => Sound s ∧ (s.headInService head.val = true ∧ (s.head head).fly.nextIdx ≤ no ∧ (s.head head).link.found (some f) = some f ∧
    (s.head head).link.found (some b) = some b ∧ (s.head head).fly.frames = [] ∧ (s.head head).pass = none)) ((4) : Fin 16) ((3) : Nat) ((1000) : Stamp) ((1100) : Stamp) ((0) : Nat) ((stUp.modLink 4 fun l => { l with srf := [(0, 2000)] })) := by
  decide +kernel

theorem witness_ServoFraming_servoFrame_1 :
    (fun (head : Fin 16) (no : Nat) (_fwd : Option Stamp) (_span : Nat) (s : State) => Sound s ∧ (s.headInService head.val = true ∧ (s.head head).fly.nextIdx ≤ no ∧
    s.fld (R.HD_FLY_STATUS head.val) F.HD_FLY_STATUS_MISS_RUN < 31)) ((4) : Fin 16) ((3) : Nat) ((none) : Option Stamp) ((0) : Nat) stUp := by
  decide +kernel

theorem witness_ServoFraming_servoFrameMissed :
    (fun (head : Fin 16) (no : Nat) (s : State) => Sound s ∧ (s.headInService head.val = true ∧ (s.head head).fly.nextIdx ≤ no ∧
    s.fld (R.HD_FLY_STATUS head.val) F.HD_FLY_STATUS_MISS_RUN < 31)) ((4) : Fin 16) ((3) : Nat) stUp := by
  decide +kernel

theorem witness_ServoFraming_servoFrameMissed_3 :
    (fun (head : Fin 16) (no : Nat) (k : FlyFrame) (rest : List FlyFrame) (s : State) => Sound s ∧ (s.headInService head.val = true ∧ (s.head head).fly.nextIdx ≤ no ∧ (s.head head).fly.frames = k :: rest ∧
    s.fld (R.HD_FLY_STATUS head.val) F.HD_FLY_STATUS_MISS_RUN = 31 ∧ (s.head head).pass = none ∧ (s.head head).opening = none)) ((4) : Fin 16) ((3) : Nat) ((⟨2, 700⟩) : FlyFrame) (([]) : List FlyFrame) (((stUp.setFld (R.HD_FLY_STATUS 4) F.HD_FLY_STATUS_MISS_RUN 31).modHead 4 fun h => { h with fly := { h.fly with frames := [⟨2, 700⟩] } })) := by
  decide +kernel

theorem witness_ServoFraming_addressWord :
    (fun (head : Fin 16) (w : AddrWord) (i0 : Nat) (bits : List Bool) (s : State) => Sound s ∧ (wordTags (s.head head).fly false = some (i0, bits) ∧ parseWord bits = some w ∧ (s.head head).fly.expected = none ∧
    (s.head head).fly.firstWord = none)) ((4) : Fin 16) ((⟨3, 2, 77⟩) : AddrWord) ((0) : Nat) (((wordTags ((stUp.modHead 4 fun h => { h with fly := { h.fly with tags := wordTagsOf ⟨3, 2, 77⟩ } }).head 4).fly false).elim [] (·.2)) : List Bool) ((stUp.modHead 4 fun h => { h with fly := { h.fly with tags := wordTagsOf ⟨3, 2, 77⟩ } })) := by
  decide +kernel

theorem witness_ServoFraming_addressWord_5 :
    (fun (head : Fin 16) (w a : AddrWord) (i0 : Nat) (bits : List Bool) (s : State) => Sound s ∧ (wordTags (s.head head).fly false = some (i0, bits) ∧ parseWord bits = some w ∧ (s.head head).fly.expected = none ∧
    (s.head head).fly.firstWord = some a ∧
    a.layer = w.layer ∧ a.track = w.track ∧ w.word = (a.word + 1) % 16)) ((4) : Fin 16) ((⟨3, 2, 77⟩) : AddrWord) ((⟨2, 2, 77⟩) : AddrWord) ((0) : Nat) (((wordTags ((stUp.modHead 4 fun h => { h with fly := { h.fly with tags := wordTagsOf ⟨3, 2, 77⟩ } }).head 4).fly false).elim [] (·.2)) : List Bool) ((stUp.modHead 4 fun h => { h with fly := { h.fly with tags := wordTagsOf ⟨3, 2, 77⟩, firstWord := some ⟨2, 2, 77⟩ } })) := by
  decide +kernel

theorem witness_ServoFraming_addressWord_6 :
    (fun (head : Fin 16) (w : AddrWord) (i0 : Nat) (bits : List Bool) (e : Nat × Nat) (s : State) => Sound s ∧ (wordTags (s.head head).fly true = some (i0, bits) ∧ parseWord bits = some w ∧ (s.head head).fly.expected = some e ∧ e ≠ (w.layer, w.track) ∧
    s.flag (R.HD_FLY_STATUS head.val) F.HD_FLY_STATUS_ADDR_OK = true ∧ (s.head head).pass = none ∧ (s.head head).opening = none)) ((4) : Fin 16) ((⟨3, 2, 77⟩) : AddrWord) ((0) : Nat) (((wordTags ((stUp.modHead 4 fun h => { h with fly := { h.fly with tags := wordTagsOf ⟨3, 2, 77⟩ } }).head 4).fly false).elim [] (·.2)) : List Bool) (((2, 76)) : Nat × Nat) (((stUp.setFld (R.HD_FLY_STATUS 4) F.HD_FLY_STATUS_ADDR_OK 1).modHead 4 fun h => { h with fly := { h.fly with tags := wordTagsOf ⟨3, 2, 77⟩, expected := some (2, 76) } })) := by
  decide +kernel

theorem witness_ServoFraming_hdFmtCfgWrite :
    (fun (_head : Fin 16) (val : Word) (s : State) => Sound s ∧ (160 ≤ getField val F.HD_FMT_CFG_PITCH_NM ∧ getField val F.HD_FMT_CFG_PITCH_NM ≤ 320)) ((4) : Fin 16) ((200) : Word) stUp := by
  decide +kernel

theorem witness_ServoFraming_hdFmtCfgWrite_8 :
    (fun (_head : Fin 16) (val : Word) (s : State) => Sound s ∧ (getField val F.HD_FMT_CFG_PITCH_NM < 160 ∨ 320 < getField val F.HD_FMT_CFG_PITCH_NM)) ((4) : Fin 16) ((159) : Word) stUp := by
  decide +kernel

theorem witness_IngestBuffer_ingestAdmissionStop :
    (fun (head : Fin 16) (s : State) => Sound s ∧ (212992 ≤ ingestBytes s head.val ∧ (s.head head).ingest.stopped = false)) ((0) : Fin 16) ((stUp.modDec fun d => { d with sectors := List.replicate 3400 (secA 1 .inFlight) })) := by
  decide +kernel

theorem witness_IngestBuffer_ingestAdmissionStop_1 :
    (fun (head : Fin 16) (s : State) => Sound s ∧ (ingestBytes s head.val < 212992)) ((0) : Fin 16) stUp := by
  decide +kernel

theorem witness_IngestBuffer_ingestSpill :
    (fun (head : Fin 16) (x : Sector) (s : State) => Sound s ∧ (131072 ≤ ingestBytes s head.val ∧ s.sector x.id = some x ∧
    s.decode.sectors.find? (fun x => x.head == head.val && x.stage == .waiting && x.complete && x.spilled.isNone) = some x)) ((0) : Fin 16) (({ secA 1 .waiting with complete := true }) : Sector) ((stUp.modDec fun d => { d with sectors := { secA 1 .waiting with complete := true } :: List.replicate 2100 (secA 2 .inFlight) })) := by
  decide +kernel

theorem witness_IngestBuffer_ingestSpill_3 :
    (fun (head : Fin 16) (s : State) => Sound s ∧ (ingestBytes s head.val < 131072)) ((0) : Fin 16) stUp := by
  decide +kernel

theorem witness_IngestBuffer_ingestShed :
    (fun (head : Fin 16) (s : State) => Sound s ∧ (245760 ≤ ingestBytes s head.val)) ((0) : Fin 16) ((stPass.modDec fun d => { d with sectors := List.replicate 3900 (secA 2 .inFlight) })) := by
  decide +kernel

theorem witness_IngestBuffer_ingestShed_5 :
    (fun (head : Fin 16) (s : State) => Sound s ∧ (ingestBytes s head.val < 245760)) ((0) : Fin 16) stPass := by
  decide +kernel

theorem witness_SectorsOnABeam_sectorAcquisitionStart :
    (fun (head : Fin 16) (beam : Fin 12) (slot g i : Nat) (p : Pass) (a q w : Stamp) (rate : Nat × Nat) (s : State) => Sound s ∧ ((s.head head).pass = some p ∧ p.desc.mode = .read ∧ p.hem = none ∧ p.rev < p.desc.count ∧ (s.head head).beams[beam].seeded = true ∧
    (s.head head).beams[beam].inService = true ∧ (s.head head).beams[beam].rejoin = none ∧ 
    predictSlot s head (beamPlace p beam.val).1 slot (natBits p.cfg.sync 5 0) = some w ∧ readyAt s head w = true ∧
    predictSlot s head (beamPlace p beam.val).1 slot 80 = some a ∧ predictSlot s head (beamPlace p beam.val).1 slot 0 = some q ∧
    flyRate (s.head head).fly = some rate ∧ slot < slotsOf (fmtU p.cfg.fmt (beamPlace p beam.val).1) ∧
    (∀ e ∈ p.admitted, e ≠ ((beamPlace p beam.val).2, slot)) ∧ a + (s.head head).link.presDelay ≤ s.now ∧
    slotUse p (beamPlace p beam.val).1 (twillStep (fmtU p.cfg.fmt (beamPlace p beam.val).1)) (beamPlace p beam.val).2 slot beam.val = .member g i ∧
    ingestBytes s head.val + 64 < 212992 ∧ s.sector s.decode.nextId = none)) ((0) : Fin 16) ((3) : Fin 12) ((0) : Nat) ((3) : Nat) ((0) : Nat) ((passA) : Pass) ((779) : Stamp) ((1016) : Stamp) ((874) : Stamp) (((59000, 252)) : Nat × Nat) stPass := by
  decide +kernel

theorem witness_SectorsOnABeam_syncSearchComplete :
    (fun (sector : Nat) (x : Sector) (p : Pass) (n : Fin 16) (j : Fin 12) (s : State) => Sound s ∧ (s.sector sector = some x ∧ s.passOf x.head x.pass = some p ∧ x.head = n.val ∧ x.beam = j.val ∧ x.framed = false ∧ x.kind = .read ∧
    x.findQ0 + natBits p.cfg.sync 5 0 + 64 ≤ x.slot * slotBits + 48 + x.released.length ∧
    openFramings (natBits p.cfg.sync 11 8) (natBits p.cfg.sync 18 16) (candidates (natBits p.cfg.sync 5 0) (natBits p.cfg.sync 15 12)
      ((List.range (2 * natBits p.cfg.sync 5 0 + 1)).map fun d => syncMisses x ((x.findQ0 : Int) - natBits p.cfg.sync 5 0 + d))) = [])) ((1) : Nat) (({ secA 1 .inFlight with released := List.replicate 2000 none }) : Sector) ((passA) : Pass) ((0) : Fin 16) ((3) : Fin 12) ((stPass.modDec fun d => { d with sectors := [{ secA 1 .inFlight with released := List.replicate 2000 none }] })) := by
  decide +kernel

theorem witness_SectorsOnABeam_syncSearchComplete_2 :
    (fun (sector : Nat) (x : Sector) (p : Pass) (n : Fin 16) (j : Fin 12) (f : Framing) (s : State) => Sound s ∧ (s.sector sector = some x ∧ s.passOf x.head x.pass = some p ∧ x.head = n.val ∧ x.beam = j.val ∧ x.framed = false ∧ x.kind = .read ∧
    x.findQ0 + natBits p.cfg.sync 5 0 + 64 ≤ x.slot * slotBits + 48 + x.released.length ∧
    openFramings (natBits p.cfg.sync 11 8) (natBits p.cfg.sync 18 16) (candidates (natBits p.cfg.sync 5 0) (natBits p.cfg.sync 15 12)
      ((List.range (2 * natBits p.cfg.sync 5 0 + 1)).map fun d => syncMisses x ((x.findQ0 : Int) - natBits p.cfg.sync 5 0 + d))) = [f])) ((1) : Nat) (({ secA 1 .inFlight with q0 := 197100, released := (List.replicate 92 none) ++ (List.range 64).map (fun i => some (if testBitN syncMark (63 - i) then -7 else 7)) ++ List.replicate 200 none }) : Sector) ((passA) : Pass) ((0) : Fin 16) ((3) : Fin 12) ((⟨0, 0⟩) : Framing) ((stPass.modDec fun d => { d with sectors := [{ secA 1 .inFlight with q0 := 197100, released := (List.replicate 92 none) ++ (List.range 64).map (fun i => some (if testBitN syncMark (63 - i) then -7 else 7)) ++ List.replicate 200 none }] })) := by
  decide +kernel

theorem witness_SectorsOnABeam_intervalCheckpoint :
    (fun (head : Fin 16) (beam : Fin 12) (id : Nat) (s : State) => Sound s ∧ ((s.head head).beams[beam].sector = some id ∧ (s.head head).beams[beam].checkpointDue = true ∧ (s.head head).beams[beam].raw = [] ∧
    ((s.head head).beams[beam].bits.all fun x => x.y.isSome) = true)) ((0) : Fin 16) ((3) : Fin 12) ((1) : Nat) ((stPass.modBeam 0 3 fun b => { b with sector := some 1, acq := 1000, pos := 2024 })) := by
  decide +kernel

theorem witness_SectorsOnABeam_intervalRelease :
    (fun (head : Fin 16) (beam : Fin 12) (i : Interval) (rest : List Interval) (x : Sector) (s : State) => Sound s ∧ ((s.head head).beams[beam].intervals = i :: rest ∧ ((i.fate = .passed ∧ i.forced = false) ∨ i.fate = .replayed ∨ i.fate = .softErased) ∧
    s.sector i.sector = some x ∧ x.framed = false)) ((0) : Fin 16) ((3) : Fin 12) ((ivA .passed false) : Interval) (([]) : List Interval) ((secA 1 .inFlight) : Sector) (((stPass.modBeam 0 3 fun b => { b with intervals := [ivA .passed false] }).modDec fun d => { d with sectors := [secA 1 .inFlight] })) := by
  decide +kernel

theorem witness_SectorsOnABeam_intervalRelease_5 :
    (fun (head : Fin 16) (beam : Fin 12) (i : Interval) (rest : List Interval) (s : State) => Sound s ∧ ((s.head head).beams[beam].intervals = i :: rest ∧ (i.fate = .live ∨ i.fate = .queued))) ((0) : Fin 16) ((3) : Fin 12) ((ivA .live false) : Interval) (([]) : List Interval) ((stPass.modBeam 0 3 fun b => { b with intervals := [ivA .live false] })) := by
  decide +kernel

theorem witness_UnpicksAndReplays_unpickTest :
    (fun (head : Fin 16) (beam : Fin 12) (p : Pass) (i : Interval) (s : State) => Sound s ∧ ((s.head head).pass = some p ∧ (s.head head).beams[beam].intervals.find? (fun i => i.fate == .live || (i.fate == .passed && i.forced)) = some i ∧
    (s.head head).beams[beam].settledFor i = true ∧ i.clamped = false ∧ i.forced = false ∧
    (intervalTest (s.head head).beams[beam] i (intervalSoft (s.head head).beams[beam] (natBits p.cfg.ch 15 8) i)).2 = 0)) ((0) : Fin 16) ((3) : Fin 12) ((passA) : Pass) ((ivA .live false) : Interval) ((stPass.modBeam 0 3 fun b => { b with pos := 3000, intervals := [ivA .live false], bits := (List.range 98).map fun k => ({ pos := 1120 - k, inst := 0, r := 0, q := 0, t := 0, erased := false, bad := false, drop := false, live := true, held := false, counted := false, basted := none, y := none } : ChanBit) })) := by
  decide +kernel

theorem witness_UnpicksAndReplays_unpickTest_1 :
    (fun (head : Fin 16) (beam : Fin 12) (p : Pass) (i : Interval) (s : State) => Sound s ∧ ((s.head head).pass = some p ∧ (s.head head).beams[beam].intervals.find? (fun i => i.fate == .live || (i.fate == .passed && i.forced)) = some i ∧
    (s.head head).beams[beam].settledFor i = true ∧ i.forced = true ∧ (s.head head).beams[beam].pending = false ∧
    (s.head head).replayQ.length < 4)) ((0) : Fin 16) ((3) : Fin 12) ((passA) : Pass) ((ivA .live true) : Interval) ((stPass.modBeam 0 3 fun b => { b with pos := 3000, intervals := [ivA .live true], bits := (List.range 98).map fun k => ({ pos := 1120 - k, inst := 0, r := 0, q := 0, t := 0, erased := false, bad := false, drop := false, live := true, held := false, counted := false, basted := none, y := none } : ChanBit) })) := by
  decide +kernel

theorem witness_UnpicksAndReplays_replayStart :
    (fun (head : Fin 16) (r : Replay) (rest : List Replay) (i : Interval) (s : State) => Sound s ∧ ((s.head head).lanes = Vector.replicate 2 none ∧ (s.head head).replayQ = r :: rest ∧
    ((s.head head).beams.toList.getD r.beam Beam.reset).intervals.find? (fun v => v.first == r.first) = some i)) ((0) : Fin 16) ((repA) : Replay) (([]) : List Replay) ((ivA .queued false) : Interval) (((stPass.modHead 0 fun h => { h with replayQ := [repA] }).modBeam 0 3 fun b => { b with intervals := [ivA .queued false] })) := by
  decide +kernel

theorem witness_UnpicksAndReplays_replayFinish :
    (fun (head : Fin 16) (lane : Fin 2) (l : ReplayLane) (j : Fin 12) (s : State) => Sound s ∧ ((s.head head).lanes[lane] = some l ∧ l.ends ≤ s.now ∧ l.job.beam = j.val)) ((0) : Fin 16) ((1) : Fin 2) (({ job := repA, ends := 5, adapt := Adaptive.reset, soft := [], clamped := false }) : ReplayLane) ((3) : Fin 12) ((stPass.modHead 0 fun h => { h with lanes := h.lanes.set 1 (some { job := repA, ends := 5, adapt := Adaptive.reset, soft := [], clamped := false }) })) := by
  decide +kernel

theorem witness_UnpicksAndReplays_replayExpiry :
    (fun (head : Fin 16) (p : Pass) (r : Replay) (s : State) => Sound s ∧ ((s.head head).pass = some p ∧ (s.head head).replayQ.find? (fun r => r.needSample ≤ s.now || r.needQ ≤ s.now) = some r ∧ r.beam < 12)) ((0) : Fin 16) ((passA) : Pass) ((repA) : Replay) ((stPass.modHead 0 fun h => { h with replayQ := [repA] })) := by
  decide +kernel

theorem witness_Dropouts_dropoutStart :
    (fun (head : Fin 16) (beam : Fin 12) (stamp : Stamp) (cfg mask : Nat) (s : State) => Sound s ∧ (dropCfg s head = (cfg, mask) ∧ (s.head head).beams[beam].dropout = none ∧ (s.head head).beams[beam].sector = none ∧
    natBits cfg 3 0 ≤ ((s.head head).beams[beam].upTo stamp).length ∧
    belowThreshold (s.head head).beams[beam] (natBits cfg 3 0) (natBits cfg 10 5) ((s.head head).beams[beam].upTo stamp) = true ∧
    (s.head head).flag = none ∧ testBitN mask beam.val = true ∧ (s.head head).pass = none ∧ sampleArrival s head beam.val stamp ≤ s.now)) ((0) : Fin 16) ((4) : Fin 12) ((900) : Stamp) ((541114756) : Nat) ((112) : Nat) (((stUp.modBeam 0 4 fun b => { b with recent := List.replicate 64 ⟨900, 0, false, false⟩ }))) := by
  decide +kernel

theorem witness_Dropouts_dropoutStart_1 :
    (fun (head : Fin 16) (beam : Fin 12) (_stamp : Stamp) (d : Dropout) (s : State) => Sound s ∧ ((s.head head).beams[beam].dropout = some d)) ((0) : Fin 16) ((4) : Fin 12) ((900) : Stamp) ((⟨800⟩) : Dropout) (((stUp.modBeam 0 4 fun b => { b with dropout := some ⟨800⟩ }))) := by
  decide +kernel

theorem witness_Dropouts_dropoutEnd :
    (fun (head : Fin 16) (beam : Fin 12) (stamp : Stamp) (d : Dropout) (cfg mask rise m : Nat) (s : State) => Sound s ∧ (dropCfg s head = (cfg, mask) ∧ (s.head head).beams[beam].dropout = some d ∧
    natBits cfg 23 17 + natBits cfg 3 0 ≤ ((s.head head).beams[beam].upTo stamp).length + 1 ∧ d.start + natBits cfg 23 17 ≤ stamp + 1 ∧
    (∀ k ∈ List.range (natBits cfg 23 17), belowThreshold (s.head head).beams[beam] (natBits cfg 3 0) (natBits cfg 16 11)
      (((s.head head).beams[beam].upTo stamp).drop k) = false) ∧
    sampleArrival s head beam.val stamp ≤ s.now ∧ (s.head head).flag = some (rise, m) ∧ testBitN mask beam.val = true ∧
    (∀ j : Fin 12, j ≠ beam → (s.head head).beams[j].dropout = none))) ((0) : Fin 16) ((4) : Fin 12) ((900) : Stamp) ((⟨800⟩) : Dropout) ((541114756) : Nat) ((112) : Nat) ((800) : Nat) ((16) : Nat) (((stUp.modBeam 0 4 fun b => { b with dropout := some ⟨800⟩, recent := List.replicate 64 ⟨900, 100, false, false⟩ }).modHead 0 fun h => { h with flag := some (800, 16) })) := by
  decide +kernel

theorem witness_Dropouts_dropoutGuardEnd :
    (fun (head : Fin 16) (beam : Fin 12) (e : Stamp) (s : State) => Sound s ∧ ((s.head head).beams[beam].guard = some e ∧
    e + (s.head head).beams[beam].ticksOf (natBits (dropCfg s head).1 31 24) + (s.head head).link.presDelay ≤ s.now)) ((0) : Fin 16) ((4) : Fin 12) ((900) : Stamp) (((stUp.modBeam 0 4 fun b => { b with guard := some 900, longDrop := true }))) := by
  decide +kernel

theorem witness_HemsAndSeams_hemRequest :
    (fun (head : Fin 16) (s : State) => Sound s ∧ ((s.head head).pass = none)) ((0) : Fin 16) stLink := by
  decide +kernel

theorem witness_HemsAndSeams_hemRequest_1 :
    (fun (head : Fin 16) (p : Pass) (s : State) => Sound s ∧ ((s.head head).pass = some p ∧ p.hem = none ∧ (s.head head).writingNow = false)) ((0) : Fin 16) ((passA) : Pass) stPass := by
  decide +kernel

theorem witness_HemsAndSeams_hemRequest_2 :
    (fun (head : Fin 16) (p : Pass) (m : Hem) (s : State) => Sound s ∧ ((s.head head).pass = some p ∧ p.hem = some m)) ((0) : Fin 16) (({ passA with hem := some hemA }) : Pass) ((hemA) : Hem) ((stPass.modPass 0 fun p => { p with hem := some hemA })) := by
  decide +kernel

theorem witness_HemsAndSeams_hemWithdrawal :
    (fun (head : Fin 16) (p : Pass) (m : Hem) (s : State) => Sound s ∧ ((s.head head).pass = some p ∧ p.hem = some m ∧ m.withdrawn = false ∧ m.h + 525000 ≤ s.now)) ((0) : Fin 16) (({ passA with hem := some hemA }) : Pass) ((hemA) : Hem) (((stPass.modPass 0 fun p => { p with hem := some hemA }).modDec fun d => { d with sectors := [secA 1 .inFlight] })) := by
  decide +kernel

theorem witness_HemsAndSeams_zoneWriteBackComplete :
    (fun (head : Fin 16) (p : Pass) (m : Hem) (s : State) => Sound s ∧ ((s.head head).pass = some p ∧ p.hem = some m ∧ m.writingBack = true)) ((0) : Fin 16) (({ passA with hem := some { hemA with withdrawn := true, writingBack := true } }) : Pass) (({ hemA with withdrawn := true, writingBack := true }) : Hem) ((stPass.modPass 0 fun p => { p with hem := some { hemA with withdrawn := true, writingBack := true } })) := by
  decide +kernel

theorem witness_HemsAndSeams_zoneSeedReadDone :
    (fun (head : Fin 16) (o : OpenReq) (s : State) => Sound s ∧ ((s.head head).opening = some o ∧ o.stage = .seeding ∧
    testBitN (s.memByte (zoneAddr o.cfg.zoneBase head.val o.desc.layer (fmtZone o.cfg.fmt o.desc.start) + 773)).toNat 0 = false)) ((0) : Fin 16) ((⟨⟨3, 4, 0⟩, passA.desc, passA.cfg, .seeding, [], 0⟩) : OpenReq) ((stLink.modHead 0 fun h => { h with opening := some ⟨⟨3, 4, 0⟩, passA.desc, passA.cfg, .seeding, [], 0⟩ })) := by
  decide +kernel

theorem witness_HemsAndSeams_zoneSeedReadDone_6 :
    (fun (head : Fin 16) (o : OpenReq) (entry : Nat) (s : State) => Sound s ∧ ((s.head head).opening = some o ∧ o.stage = .seeding ∧ entry = zoneAddr o.cfg.zoneBase head.val o.desc.layer (fmtZone o.cfg.fmt o.desc.start) ∧
    testBitN (s.memByte (entry + 773)).toNat 0 = true)) ((0) : Fin 16) ((⟨⟨3, 4, 0⟩, passA.desc, passA.cfg, .seeding, [], 0⟩) : OpenReq) ((zoneAddr 0 0 2 (fmtZone 200 10)) : Nat) (((stLink.memWrite 1 (zoneAddr 0 0 2 (fmtZone 200 10) + 773) [1]).modHead 0 fun h => { h with opening := some ⟨⟨3, 4, 0⟩, passA.desc, passA.cfg, .seeding, [], 0⟩ })) := by
  decide +kernel

theorem witness_HemsAndSeams_seamOpening :
    (fun (head : Fin 16) (p : Pass) (r : Nat) (u : Stamp) (s : State) => Sound s ∧ ((s.head head).pass = some p ∧ (s.head head).opening = none ∧ p.desc.mode = .read ∧ p.hem = none ∧ p.writeRev = none ∧
    seamNow s head = some (r, u))) ((0) : Fin 16) ((passA) : Pass) ((1) : Nat) ((14632402) : Stamp) (({ stPass with time := { stPass.time with tb := 14700000 } })) := by
  decide +kernel

theorem witness_HemsAndSeams_seamOpening_8 :
    (fun (head : Fin 16) (o : OpenReq) (r : Nat) (u : Stamp) (s : State) => Sound s ∧ ((s.head head).opening = some o ∧ o.stage = .awaitSeam ∧ o.desc.mode = .read ∧ flyReady s head = true ∧ seamNow s head = some (r, u))) ((0) : Fin 16) ((⟨⟨3, 4, 0⟩, passA.desc, passA.cfg, .awaitSeam, [], 0⟩) : OpenReq) ((1) : Nat) ((14632402) : Stamp) (({ stPass with time := { stPass.time with tb := 14700000 } }.modHead 0 fun h => { h with pass := none, opening := some ⟨⟨3, 4, 0⟩, passA.desc, passA.cfg, .awaitSeam, [], 0⟩ })) := by
  decide +kernel

theorem witness_HemsAndSeams_slotPayloadLate :
    (fun (head : Fin 16) (track slot : Nat) (p : Pass) (d : BandDesc) (e : SlotEntry) (a : Stamp) (s : State) => Sound s ∧ ((s.head head).pass = some p ∧ writeSlotStart s head slot = some a ∧ a ≤ s.now + 2000 ∧
    (p.toWrite.find? fun x => x.2.track == track && x.2.slot == slot && !x.2.started) = some (d, e))) ((0) : Fin 16) ((120) : Nat) ((0) : Nat) ((passW) : Pass) ((bandW) : BandDesc) ((slotW) : SlotEntry) ((637) : Stamp) (({ stPass with time := { stPass.time with tb := 1000 } }.modHead 0 fun h => { h with pass := some passW })) := by
  decide +kernel

theorem witness_HemsAndSeams_writeAbortAtHead :
    (fun (head : Fin 16) (_slots : List (Nat × Nat)) (p : Pass) (s : State) => Sound s ∧ ((s.head head).pass = some p)) ((0) : Fin 16) (([(1, 2)]) : List (Nat × Nat)) ((passA) : Pass) stPass := by
  decide +kernel

theorem witness_IntegerInstructions_add :
    (fun (b : Fin 24) (u : Upset) (i : Ins) (s : State) => Sound s ∧ (Issues s b u i ∧ i.op = 0x00)) ((16) : Fin 24) ((.none) : Upset) ((insA 0x000190A0) : Ins) ((stIns 0x000190A0)) := by
  decide +kernel

theorem witness_IntegerInstructions_add_1 :
    (fun (b : Fin 24) (u : Upset) (i : Ins) (s : State) => Sound s ∧ (Issues s b u i ∧ i.op = 0x00)) ((16) : Fin 24) ((.none) : Upset) ((insA 0x800190A0) : Ins) ((stIns 0x800190A0)) := by
  decide +kernel

theorem witness_IntegerInstructions_sub :
    (fun (b : Fin 24) (u : Upset) (i : Ins) (s : State) => Sound s ∧ (Issues s b u i ∧ i.op = 0x01)) ((16) : Fin 24) ((.none) : Upset) ((insA 0x010190A0) : Ins) ((stIns 0x010190A0)) := by
  decide +kernel

theorem witness_IntegerInstructions_and :
    (fun (b : Fin 24) (u : Upset) (i : Ins) (s : State) => Sound s ∧ (Issues s b u i ∧ i.op = 0x02)) ((16) : Fin 24) ((.none) : Upset) ((insA 0x820190A0) : Ins) ((stIns 0x820190A0)) := by
  decide +kernel

theorem witness_IntegerInstructions_or :
    (fun (b : Fin 24) (u : Upset) (i : Ins) (s : State) => Sound s ∧ (Issues s b u i ∧ i.op = 0x03)) ((16) : Fin 24) ((.none) : Upset) ((insA 0x030190A0) : Ins) ((stIns 0x030190A0)) := by
  decide +kernel

theorem witness_IntegerInstructions_xor :
    (fun (b : Fin 24) (u : Upset) (i : Ins) (s : State) => Sound s ∧ (Issues s b u i ∧ i.op = 0x04)) ((16) : Fin 24) ((.none) : Upset) ((insA 0x040190A0) : Ins) ((stIns 0x040190A0)) := by
  decide +kernel

theorem witness_IntegerInstructions_shl :
    (fun (b : Fin 24) (u : Upset) (i : Ins) (s : State) => Sound s ∧ (Issues s b u i ∧ i.op = 0x05)) ((16) : Fin 24) ((.none) : Upset) ((insA 0x050190A0) : Ins) ((stIns 0x050190A0)) := by
  decide +kernel

theorem witness_IntegerInstructions_shr :
    (fun (b : Fin 24) (u : Upset) (i : Ins) (s : State) => Sound s ∧ (Issues s b u i ∧ i.op = 0x06)) ((16) : Fin 24) ((.none) : Upset) ((insA 0x060190A0) : Ins) ((stIns 0x060190A0)) := by
  decide +kernel

theorem witness_IntegerInstructions_sar :
    (fun (b : Fin 24) (u : Upset) (i : Ins) (s : State) => Sound s ∧ (Issues s b u i ∧ i.op = 0x07)) ((16) : Fin 24) ((.none) : Upset) ((insA 0x070190A0) : Ins) ((stIns 0x070190A0)) := by
  decide +kernel

theorem witness_IntegerInstructions_mul :
    (fun (b : Fin 24) (u : Upset) (i : Ins) (s : State) => Sound s ∧ (Issues s b u i ∧ i.op = 0x08)) ((16) : Fin 24) ((.none) : Upset) ((insA 0x080190A0) : Ins) ((stIns 0x080190A0)) := by
  decide +kernel

theorem witness_IntegerInstructions_mulh :
    (fun (b : Fin 24) (u : Upset) (i : Ins) (s : State) => Sound s ∧ (Issues s b u i ∧ i.op = 0x09)) ((16) : Fin 24) ((.none) : Upset) ((insA 0x090190A0) : Ins) ((stIns 0x090190A0)) := by
  decide +kernel

theorem witness_IntegerInstructions_min :
    (fun (b : Fin 24) (u : Upset) (i : Ins) (s : State) => Sound s ∧ (Issues s b u i ∧ i.op = 0x0A)) ((16) : Fin 24) ((.none) : Upset) ((insA 0x0A0190A0) : Ins) ((stIns 0x0A0190A0)) := by
  decide +kernel

theorem witness_IntegerInstructions_max :
    (fun (b : Fin 24) (u : Upset) (i : Ins) (s : State) => Sound s ∧ (Issues s b u i ∧ i.op = 0x0B)) ((16) : Fin 24) ((.none) : Upset) ((insA 0x0B0190A0) : Ins) ((stIns 0x0B0190A0)) := by
  decide +kernel

theorem witness_IntegerInstructions_addi :
    (fun (b : Fin 24) (u : Upset) (i : Ins) (s : State) => Sound s ∧ (Issues s b u i ∧ i.op = 0x0C)) ((16) : Fin 24) ((.none) : Upset) ((insA 0x0C0193FF) : Ins) ((stIns 0x0C0193FF)) := by
  decide +kernel

theorem witness_IntegerInstructions_andi :
    (fun (b : Fin 24) (u : Upset) (i : Ins) (s : State) => Sound s ∧ (Issues s b u i ∧ i.op = 0x0D)) ((16) : Fin 24) ((.none) : Upset) ((insA 0x0D0193FF) : Ins) ((stIns 0x0D0193FF)) := by
  decide +kernel

theorem witness_IntegerInstructions_ori :
    (fun (b : Fin 24) (u : Upset) (i : Ins) (s : State) => Sound s ∧ (Issues s b u i ∧ i.op = 0x0E)) ((16) : Fin 24) ((.none) : Upset) ((insA 0x0E0193FF) : Ins) ((stIns 0x0E0193FF)) := by
  decide +kernel

theorem witness_FieldInstructions_shi :
    (fun (b : Fin 24) (u : Upset) (i : Ins) (s : State) => Sound s ∧ (Issues s b u i ∧ i.op = 0x0F)) ((16) : Fin 24) ((.none) : Upset) ((insA 0x0F019083) : Ins) ((stIns 0x0F019083)) := by
  decide +kernel

theorem witness_FieldInstructions_bfx :
    (fun (b : Fin 24) (u : Upset) (i : Ins) (s : State) => Sound s ∧ (Issues s b u i ∧ i.op = 0x16)) ((16) : Fin 24) ((.none) : Upset) ((insA 0x16019043) : Ins) ((stIns 0x16019043)) := by
  decide +kernel

theorem witness_FieldInstructions_bfi :
    (fun (b : Fin 24) (u : Upset) (i : Ins) (s : State) => Sound s ∧ (Issues s b u i ∧ i.op = 0x17)) ((16) : Fin 24) ((.none) : Upset) ((insA 0x17019043) : Ins) ((stIns 0x17019043)) := by
  decide +kernel

theorem witness_FieldInstructions_cnt :
    (fun (b : Fin 24) (u : Upset) (i : Ins) (s : State) => Sound s ∧ (Issues s b u i ∧ i.op = 0x18)) ((16) : Fin 24) ((.none) : Upset) ((insA 0x180190A2) : Ins) ((stIns 0x180190A2)) := by
  decide +kernel

theorem witness_FieldInstructions_divu :
    (fun (b : Fin 24) (u : Upset) (i : Ins) (s : State) => Sound s ∧ (Issues s b u i ∧ i.op = 0x19)) ((16) : Fin 24) ((.none) : Upset) ((insA 0x190190A0) : Ins) ((stIns 0x190190A0)) := by
  decide +kernel

theorem witness_FieldInstructions_sel :
    (fun (b : Fin 24) (u : Upset) (i : Ins) (s : State) => Sound s ∧ (Issues s b u i ∧ i.op = 0x15)) ((16) : Fin 24) ((.none) : Upset) ((insA 0x150190A2) : Ins) ((stIns 0x150190A2)) := by
  decide +kernel

theorem witness_PredicateInstructions_cmp :
    (fun (b : Fin 24) (u : Upset) (i : Ins) (s : State) => Sound s ∧ (Issues s b u i ∧ i.op = 0x10)) ((16) : Fin 24) ((.none) : Upset) ((insA 0x100110A2) : Ins) ((stIns 0x100110A2)) := by
  decide +kernel

theorem witness_PredicateInstructions_cmpiEq :
    (fun (b : Fin 24) (u : Upset) (i : Ins) (s : State) => Sound s ∧ (Issues s b u i ∧ i.op = 0x11)) ((16) : Fin 24) ((.none) : Upset) ((insA 0x11011007) : Ins) ((stIns 0x11011007)) := by
  decide +kernel

theorem witness_PredicateInstructions_cmpiLt :
    (fun (b : Fin 24) (u : Upset) (i : Ins) (s : State) => Sound s ∧ (Issues s b u i ∧ i.op = 0x12)) ((16) : Fin 24) ((.none) : Upset) ((insA 0x12011007) : Ins) ((stIns 0x12011007)) := by
  decide +kernel

theorem witness_PredicateInstructions_cmpiLtu :
    (fun (b : Fin 24) (u : Upset) (i : Ins) (s : State) => Sound s ∧ (Issues s b u i ∧ i.op = 0x13)) ((16) : Fin 24) ((.none) : Upset) ((insA 0x130113FF) : Ins) ((stIns 0x130113FF)) := by
  decide +kernel

theorem witness_PredicateInstructions_pset :
    (fun (b : Fin 24) (u : Upset) (i : Ins) (s : State) => Sound s ∧ (Issues s b u i ∧ i.op = 0x14)) ((16) : Fin 24) ((.none) : Upset) ((insA 0x14010443) : Ins) ((stIns 0x14010443)) := by
  decide +kernel

theorem witness_ControlInstructions_br :
    (fun (b : Fin 24) (u : Upset) (i : Ins) (s : State) => Sound s ∧ (Issues s b u i ∧ i.op = 0x30 ∧ 0 ≤ ((i.pc : Int) + (match i.ext with
      | none => i.off
      | some e => (BitVec.ofNat 32 e).toInt)) ∧ ((i.pc : Int) + (match i.ext with
      | none => i.off
      | some e => (BitVec.ofNat 32 e).toInt)) < 65536)) ((16) : Fin 24) ((.none) : Upset) ((insA 0x300FFFFD) : Ins) ((stIns 0x300FFFFD)) := by
  decide +kernel

theorem witness_ControlInstructions_br_1 :
    (fun (b : Fin 24) (u : Upset) (i : Ins) (s : State) => Sound s ∧ (Issues s b u i ∧ i.op = 0x30 ∧ (((i.pc : Int) + (match i.ext with
      | none => i.off
      | some e => (BitVec.ofNat 32 e).toInt)) < 0 ∨ 65536 ≤ ((i.pc : Int) + (match i.ext with
      | none => i.off
      | some e => (BitVec.ofNat 32 e).toInt))))) ((16) : Fin 24) ((.none) : Upset) ((insA 0x300FFFF7) : Ins) ((stIns 0x300FFFF7)) := by
  decide +kernel

theorem witness_ControlInstructions_call :
    (fun (b : Fin 24) (u : Upset) (i : Ins) (s : State) => Sound s ∧ (Issues s b u i ∧ i.op = 0x31 ∧ 0 ≤ ((i.pc : Int) + (match i.ext with
      | none => i.off
      | some e => (BitVec.ofNat 32 e).toInt)) ∧ ((i.pc : Int) + (match i.ext with
      | none => i.off
      | some e => (BitVec.ofNat 32 e).toInt)) < 65536)) ((16) : Fin 24) ((.none) : Upset) ((insA 0x3100012C) : Ins) ((stIns 0x3100012C)) := by
  decide +kernel

theorem witness_ControlInstructions_jr :
    (fun (b : Fin 24) (u : Upset) (i : Ins) (s : State) => Sound s ∧ (Issues s b u i ∧ i.op = 0x32)) ((16) : Fin 24) ((.none) : Upset) ((insA 0x320190A1) : Ins) ((stIns 0x320190A1)) := by
  decide +kernel

theorem witness_ControlInstructions_trap :
    (fun (b : Fin 24) (u : Upset) (i : Ins) (s : State) => Sound s ∧ (Issues s b u i ∧ i.op = 0x33)) ((16) : Fin 24) ((.none) : Upset) ((insA 0x3301904D) : Ins) ((stIns 0x3301904D)) := by
  decide +kernel

theorem witness_ControlInstructions_halt :
    (fun (b : Fin 24) (u : Upset) (i : Ins) (s : State) => Sound s ∧ (Issues s b u i ∧ i.op = 0x34)) ((16) : Fin 24) ((.none) : Upset) ((insA 0x340190A0) : Ins) ((stIns 0x340190A0)) := by
  decide +kernel

theorem witness_ControlInstructions_fence :
    (fun (b : Fin 24) (u : Upset) (i : Ins) (s : State) => Sound s ∧ (Issues s b u i ∧ i.op = 0x2D)) ((16) : Fin 24) ((.none) : Upset) ((insA 0x2D0190A0) : Ins) ((stIns 0x2D0190A0)) := by
  decide +kernel

theorem witness_SignalsAndTime_signal :
    (fun (b : Fin 24) (u : Upset) (i : Ins) (k : Fin 24) (s : State) => Sound s ∧ (Issues s b u i ∧ i.op = 0x35 ∧ (valA s b i).toNat % 32 = k.val ∧ (s.bob k).st ≠ .halted ∧ (s.bob k).st ≠ .exception ∧
    (s.bob k).occupied < 32)) ((16) : Fin 24) ((.none) : Upset) ((insA 0x350110A0) : Ins) ((7) : Fin 24) (((stIns 0x350110A0).modBob 7 fun x => { x with st := .waiting, epoch := 9 }).modBob 16 fun x => { x with g := x.g.set 4 7 }) := by
  decide +kernel

theorem witness_SignalsAndTime_signal_1 :
    (fun (b : Fin 24) (u : Upset) (i : Ins) (k : Fin 24) (s : State) => Sound s ∧ (Issues s b u i ∧ i.op = 0x35 ∧ (valA s b i).toNat % 32 = k.val ∧ k ≠ b ∧ ((s.bob k).st = .halted ∨ (s.bob k).st = .exception ∨ 32 ≤ (s.bob k).occupied))) ((16) : Fin 24) ((.none) : Upset) ((insA 0x350110A0) : Ins) ((7) : Fin 24) ((stIns 0x350110A0)) := by
  decide +kernel

theorem witness_SignalsAndTime_signal_2 :
    (fun (b : Fin 24) (u : Upset) (i : Ins) (s : State) => Sound s ∧ (Issues s b u i ∧ i.op = 0x35 ∧ 24 ≤ (valA s b i).toNat % 32)) ((16) : Fin 24) ((.none) : Upset) ((insA 0x350120A0) : Ins) (((stIns 0x350120A0).modBob 16 fun x => { x with g := x.g.set 8 31 })) := by
  decide +kernel

theorem witness_SignalsAndTime_tbNow :
    (fun (b : Fin 24) (u : Upset) (i : Ins) (s : State) => Sound s ∧ (Issues s b u i ∧ i.op = 0x40)) ((16) : Fin 24) ((.none) : Upset) ((insA 0x40018000) : Ins) ((stIns 0x40018000)) := by
  decide +kernel

theorem witness_SignalsAndTime_tbLast :
    (fun (b : Fin 24) (u : Upset) (i : Ins) (s : State) => Sound s ∧ (Issues s b u i ∧ i.op = 0x41)) ((16) : Fin 24) ((.none) : Upset) ((insA 0x41018000) : Ins) (((stIns 0x41018000).modBob 16 fun x => { x with lastStamp := 77 })) := by
  decide +kernel

theorem witness_SignalsAndTime_waitEv :
    (fun (b : Fin 24) (u : Upset) (i : Ins) (e : EvEntry) (s : State) => Sound s ∧ (Issues s b u i ∧ i.op = 0x42 ∧ (s.bob b).best (valB s b i).toNat (valA s b i).toNat = some e)) ((16) : Fin 24) ((.none) : Upset) ((insA 0x42019022) : Ins) ((⟨100, 5, .device, 1, 2, 3, 0, true⟩) : EvEntry) (((stIns 0x42019022).modBob 16 fun x => { x with queue := [⟨100, 5, .device, 1, 2, 3, 0, true⟩], g := (x.g.set 4 1000).set 1 0 })) := by
  decide +kernel

theorem witness_SignalsAndTime_waitEv_6 :
    (fun (b : Fin 24) (u : Upset) (i : Ins) (s : State) => Sound s ∧ (Issues s b u i ∧ i.op = 0x42 ∧ (s.bob b).best (valB s b i).toNat (valA s b i).toNat = none)) ((16) : Fin 24) ((.none) : Upset) ((insA 0x42019022) : Ins) ((stIns 0x42019022)) := by
  decide +kernel

theorem witness_SignalsAndTime_waitUntil :
    (fun (b : Fin 24) (u : Upset) (i : Ins) (s : State) => Sound s ∧ (Issues s b u i ∧ i.op = 0x43 ∧ (valA s b i).toNat ≤ s.now)) ((16) : Fin 24) ((.none) : Upset) ((insA 0x43001400) : Ins) ((stIns 0x43001400)) := by
  decide +kernel

theorem witness_SignalsAndTime_waitUntil_8 :
    (fun (b : Fin 24) (u : Upset) (i : Ins) (s : State) => Sound s ∧ (Issues s b u i ∧ i.op = 0x43 ∧ s.now < (valA s b i).toNat)) ((16) : Fin 24) ((.none) : Upset) ((insA 0x43001000) : Ins) ((stIns 0x43001000)) := by
  decide +kernel

theorem witness_SignalsAndTime_poll :
    (fun (b : Fin 24) (u : Upset) (i : Ins) (e : EvEntry) (s : State) => Sound s ∧ (Issues s b u i ∧ i.op = 0x44 ∧ (s.bob b).best (valB s b i).toNat (valA s b i).toNat = some e)) ((16) : Fin 24) ((.none) : Upset) ((insA 0x44019022) : Ins) ((⟨100, 5, .device, 1, 2, 3, 0, true⟩) : EvEntry) (((stIns 0x44019022).modBob 16 fun x => { x with queue := [⟨100, 5, .device, 1, 2, 3, 0, true⟩], g := (x.g.set 4 1000).set 1 0 })) := by
  decide +kernel

theorem witness_SignalsAndTime_poll_10 :
    (fun (b : Fin 24) (u : Upset) (i : Ins) (s : State) => Sound s ∧ (Issues s b u i ∧ i.op = 0x44 ∧ (s.bob b).best (valB s b i).toNat (valA s b i).toNat = none)) ((16) : Fin 24) ((.none) : Upset) ((insA 0x44019022) : Ins) ((stIns 0x44019022)) := by
  decide +kernel

theorem witness_EventQueues_eventQueueEntry :
    (fun (bobbin : Fin 24) (e : EvEntry) (rest : List EvEntry) (s : State) => Sound s ∧ ((s.bob bobbin).arriving = e :: rest ∧ ((e.kind = .device ∨ e.kind = .decode) → e.epoch = (s.bob bobbin).epoch))) ((16) : Fin 24) ((⟨100, 5, .device, 1, 2, 3, 0, false⟩) : EvEntry) (([]) : List EvEntry) ((stUp.modBob 16 fun x => { x with arriving := [⟨100, 5, .device, 1, 2, 3, 0, false⟩], outst := [5] })) := by
  decide +kernel

theorem witness_EventQueues_eventQueueEntry_1 :
    (fun (bobbin : Fin 24) (e : EvEntry) (rest : List EvEntry) (s : State) => Sound s ∧ ((s.bob bobbin).arriving = e :: rest ∧ (e.kind = .device ∨ e.kind = .decode) ∧ e.epoch ≠ (s.bob bobbin).epoch)) ((16) : Fin 24) ((⟨100, 5, .device, 1, 2, 3, 7, false⟩) : EvEntry) (([]) : List EvEntry) ((stUp.modBob 16 fun x => { x with arriving := [⟨100, 5, .device, 1, 2, 3, 7, false⟩] })) := by
  decide +kernel

theorem witness_EventQueues_eventQueueRelease :
    (fun (bobbin : Fin 24) (e : EvEntry) (s : State) => Sound s ∧ ((s.bob bobbin).dueEntry s.now = some e ∧ (s.bob bobbin).wait = none)) ((16) : Fin 24) ((⟨100, 5, .device, 1, 2, 3, 0, false⟩) : EvEntry) ((stUp.modBob 16 fun x => { x with queue := [⟨100, 5, .device, 1, 2, 3, 0, false⟩] })) := by
  decide +kernel

theorem witness_EventQueues_waitTimeout :
    (fun (bobbin : Fin 24) (m d rd p : Nat) (s : State) => Sound s ∧ ((s.bob bobbin).wait = some (.event m d rd p) ∧ d ≠ 2 ^ 64 - 1 ∧ d + 96 ≤ s.now ∧ (s.bob bobbin).dueEntry s.now = none)) ((16) : Fin 24) ((0) : Nat) ((500) : Nat) ((3) : Nat) ((2) : Nat) (((stIns 0x42019022).modBob 16 fun x => { x with st := .waiting, wait := some (.event 0 500 3 2) })) := by
  decide +kernel

theorem witness_EventQueues_waitUntilReached :
    (fun (bobbin : Fin 24) (g : Nat) (s : State) => Sound s ∧ ((s.bob bobbin).wait = some (.until_ g) ∧ g ≤ s.now)) ((16) : Fin 24) ((500) : Nat) (((stIns 0x43001000).modBob 16 fun x => { x with st := .waiting, wait := some (.until_ 500) })) := by
  decide +kernel

theorem witness_BobbinControl_bobStart :
    (fun (_acc : Accessor) (k : Fin 24) (s : State) => Sound s ∧ (s.mcActive = false ∧ ((s.bob k).st = .halted ∨ (s.bob k).st = .exception) ∧ s.mayRun k = true)) ((.host 0) : Accessor) ((16) : Fin 24) stUp := by
  decide +kernel

theorem witness_BobbinControl_bobStart_1 :
    (fun (_acc : Accessor) (_k : Fin 24) (s : State) => Sound s ∧ (s.mcActive = true)) ((.host 0) : Accessor) ((16) : Fin 24) ((stUp.setFld R.CS_MC_STATUS F.CS_MC_STATUS_ACTIVE 1)) := by
  decide +kernel

theorem witness_BobbinControl_bobStart_2 :
    (fun (b : Fin 24) (u : Upset) (i : Ins) (k : Fin 24) (s : State) => Sound s ∧ (Issues s b u i ∧ i.op = 0xF0 ∧ s.capBit b capPRIV = true ∧ (valA s b i).toNat % 32 = k.val ∧ k ≠ b ∧ s.mcActive = false ∧
    ((s.bob k).st = .halted ∨ (s.bob k).st = .exception) ∧ s.mayRun k = true)) ((16) : Fin 24) ((.none) : Upset) ((insA 0xF0011480) : Ins) ((3) : Fin 24) (((stIns 0xF0011480).modBob 16 fun x => { x with g := x.g.set 0 0 })) := by
  decide +kernel

theorem witness_BobbinControl_bobStart_3 :
    (fun (b : Fin 24) (u : Upset) (i : Ins) (s : State) => Sound s ∧ (Issues s b u i ∧ i.op = 0xF0 ∧ s.capBit b capPRIV = false)) ((16) : Fin 24) ((.none) : Upset) ((insA 0xF0011480) : Ins) (((stIns 0xF0011480).setReg (R.SQ_BOB_CAP 16) 0)) := by
  decide +kernel

theorem witness_BobbinControl_bobHalt :
    (fun (_acc : Accessor) (k : Fin 24) (s : State) => Sound s ∧ ((s.bob k).st ≠ .halted ∧ (s.bob k).st ≠ .exception)) ((.host 0) : Accessor) ((16) : Fin 24) ((stIns 0)) := by
  decide +kernel

theorem witness_BobbinControl_bobHalt_5 :
    (fun (_acc : Accessor) (k : Fin 24) (s : State) => Sound s ∧ ((s.bob k).st = .halted ∨ (s.bob k).st = .exception)) ((.host 0) : Accessor) ((16) : Fin 24) stUp := by
  decide +kernel

theorem witness_BobbinControl_bobHalt_6 :
    (fun (b : Fin 24) (u : Upset) (i : Ins) (s : State) => Sound s ∧ (Issues s b u i ∧ i.op = 0xF1 ∧ s.capBit b capPRIV = true ∧ (valA s b i).toNat % 32 = b.val)) ((16) : Fin 24) ((.none) : Upset) ((insA 0xF1002000) : Ins) (((stIns 0xF1002000).modBob 16 fun x => { x with g := x.g.set 8 16 })) := by
  decide +kernel

theorem witness_BobbinControl_bobResume :
    (fun (_acc : Accessor) (bobbin : Fin 24) (s : State) => Sound s ∧ (s.mcActive = false ∧ ((s.bob bobbin).st = .halted ∨ (s.bob bobbin).st = .exception) ∧ s.mayRun bobbin = true)) ((.host 0) : Accessor) ((16) : Fin 24) stUp := by
  decide +kernel

theorem witness_BobbinControl_bobbinHalted :
    (fun (bobbin : Fin 24) (who : Nat) (s : State) => Sound s ∧ ((s.bob bobbin).haltReq = some (.request who) ∧ ∀ n : Fin 16, (s.head n).opening = none ∧ (s.head n).seek = none)) ((16) : Fin 24) ((0xFF) : Nat) (((stIns 0).modBob 16 fun x => { x with haltReq := some (.request 0xFF) })) := by
  decide +kernel

theorem witness_BobbinControl_bobStat :
    (fun (b : Fin 24) (u : Upset) (i : Ins) (k : Fin 24) (s : State) => Sound s ∧ (Issues s b u i ∧ i.op = 0xF2 ∧ s.capBit b capPRIV = true ∧ (valA s b i).toNat % 32 = k.val ∧ k ≠ b)) ((16) : Fin 24) ((.none) : Upset) ((insA 0xF2019400) : Ins) ((3) : Fin 24) ((stIns 0xF2019400)) := by
  decide +kernel

theorem witness_BobbinControl_capWr :
    (fun (_acc : Accessor) (k : Fin 24) (_w : Word) (s : State) => Sound s ∧ ((s.bob k).st = .halted ∨ (s.bob k).st = .exception)) ((.host 0) : Accessor) ((16) : Fin 24) ((0x12345678) : Word) stUp := by
  decide +kernel

theorem witness_BobbinControl_capWr_11 :
    (fun (_acc : Accessor) (k : Fin 24) (_w : Word) (s : State) => Sound s ∧ ((s.bob k).st ≠ .halted ∧ (s.bob k).st ≠ .exception)) ((.host 0) : Accessor) ((16) : Fin 24) ((0x12345678) : Word) ((stIns 0)) := by
  decide +kernel

theorem witness_BobbinControl_capWr_12 :
    (fun (b : Fin 24) (u : Upset) (i : Ins) (k : Fin 24) (s : State) => Sound s ∧ (Issues s b u i ∧ i.op = 0xF3 ∧ s.capBit b capPRIV = true ∧ (valA s b i).toNat % 32 = k.val ∧ (s.bob k).st ≠ .halted ∧
    (s.bob k).st ≠ .exception ∧ k ≠ b)) ((16) : Fin 24) ((.none) : Upset) ((insA 0xF3011480) : Ins) ((3) : Fin 24) (({ ((stIns 0xF3011480).modBob 3 fun x => { x with st := .ready }) with seq := { ((stIns 0xF3011480).modBob 3 fun x => { x with st := .ready }).seq with lastIssue := 15 } })) := by
  decide +kernel

theorem witness_LoadInstructions_ldb :
    (fun (b : Fin 24) (u : Upset) (i : Ins) (p : Space) (s : State) => Sound s ∧ (Issues s b u i ∧ i.op = 0x20 ∧ u = .none ∧ spaceOf (addrOf s b i) 1 false = .ok p)) ((16) : Fin 24) ((.none) : Upset) ((insA 0x2001A008) : Ins) ((.scratch 8) : Space) (((stIns 0x2001A008).modBob 16 fun x => { x with scratch := [(8, 0x85), (9, 0x96), (11, 0xA7), (15, 0x91)] })) := by
  decide +kernel

theorem witness_LoadInstructions_ldh :
    (fun (b : Fin 24) (u : Upset) (i : Ins) (p : Space) (s : State) => Sound s ∧ (Issues s b u i ∧ i.op = 0x21 ∧ u = .none ∧ spaceOf (addrOf s b i) 2 false = .ok p)) ((16) : Fin 24) ((.none) : Upset) ((insA 0x2101A008) : Ins) ((.scratch 8) : Space) (((stIns 0x2101A008).modBob 16 fun x => { x with scratch := [(8, 0x85), (9, 0x96), (11, 0xA7), (15, 0x91)] })) := by
  decide +kernel

theorem witness_LoadInstructions_ldd :
    (fun (b : Fin 24) (u : Upset) (i : Ins) (p : Space) (s : State) => Sound s ∧ (Issues s b u i ∧ i.op = 0x23 ∧ u = .none ∧ spaceOf (addrOf s b i) 8 false = .ok p)) ((16) : Fin 24) ((.none) : Upset) ((insA 0x2301A008) : Ins) ((.scratch 8) : Space) (((stIns 0x2301A008).modBob 16 fun x => { x with scratch := [(8, 0x85), (9, 0x96), (11, 0xA7), (15, 0x91)] })) := by
  decide +kernel

theorem witness_LoadInstructions_ldbs :
    (fun (b : Fin 24) (u : Upset) (i : Ins) (p : Space) (s : State) => Sound s ∧ (Issues s b u i ∧ i.op = 0x24 ∧ u = .none ∧ spaceOf (addrOf s b i) 1 false = .ok p)) ((16) : Fin 24) ((.none) : Upset) ((insA 0x2401A008) : Ins) ((.scratch 8) : Space) (((stIns 0x2401A008).modBob 16 fun x => { x with scratch := [(8, 0x85), (9, 0x96), (11, 0xA7), (15, 0x91)] })) := by
  decide +kernel

theorem witness_LoadInstructions_ldhs :
    (fun (b : Fin 24) (u : Upset) (i : Ins) (p : Space) (s : State) => Sound s ∧ (Issues s b u i ∧ i.op = 0x25 ∧ u = .none ∧ spaceOf (addrOf s b i) 2 false = .ok p)) ((16) : Fin 24) ((.none) : Upset) ((insA 0x2501A008) : Ins) ((.scratch 8) : Space) (((stIns 0x2501A008).modBob 16 fun x => { x with scratch := [(8, 0x85), (9, 0x96), (11, 0xA7), (15, 0x91)] })) := by
  decide +kernel

theorem witness_LoadInstructions_ldw :
    (fun (b : Fin 24) (u : Upset) (i : Ins) (p : Space) (s : State) => Sound s ∧ (Issues s b u i ∧ i.op = 0x22 ∧ u = .none ∧ spaceOf (addrOf s b i) 4 false = .ok p ∧ (match p with | .window _ => false | _ => true) = true)) ((16) : Fin 24) ((.none) : Upset) ((insA 0x2201A008) : Ins) ((.scratch 8) : Space) (((stIns 0x2201A008).modBob 16 fun x => { x with scratch := [(8, 0x85), (9, 0x96), (11, 0xA7), (15, 0x91)] })) := by
  decide +kernel

theorem witness_LoadInstructions_ldws :
    (fun (b : Fin 24) (u : Upset) (i : Ins) (p : Space) (s : State) => Sound s ∧ (Issues s b u i ∧ i.op = 0x26 ∧ u = .none ∧ spaceOf (addrOf s b i) 4 false = .ok p ∧ (match p with | .window _ => false | _ => true) = true)) ((16) : Fin 24) ((.none) : Upset) ((insA 0x2601A008) : Ins) ((.scratch 8) : Space) (((stIns 0x2601A008).modBob 16 fun x => { x with scratch := [(8, 0x85), (9, 0x96), (11, 0xA7), (15, 0x91)] })) := by
  decide +kernel

theorem witness_LoadInstructions_ldb_7 :
    (fun (b : Fin 24) (u : Upset) (i : Ins) (p : Space) (s : State) => Sound s ∧ (Issues s b u i ∧ i.op = 0x20 ∧ u = .data ∧ spaceOf (addrOf s b i) 1 false = .ok p)) ((16) : Fin 24) ((.data) : Upset) ((insA 0x2001A008) : Ins) ((.scratch 8) : Space) ((stIns 0x2001A008)) := by
  decide +kernel

theorem witness_LoadInstructions_ldh_8 :
    (fun (b : Fin 24) (u : Upset) (i : Ins) (e : Nat) (s : State) => Sound s ∧ (Issues s b u i ∧ i.op = 0x21 ∧ spaceOf (addrOf s b i) 2 false = .error e)) ((16) : Fin 24) ((.none) : Upset) ((insA 0x2101A009) : Ins) ((4) : Nat) ((stIns 0x2101A009)) := by
  decide +kernel

theorem witness_LoadInstructions_ldw_9 :
    (fun (b : Fin 24) (u : Upset) (i : Ins) (o key : Nat) (s : State) => Sound s ∧ (Issues s b u i ∧ i.op = 0x22 ∧ spaceOf (addrOf s b i) 4 false = .ok (.window o) ∧ s.capBit b capREGR = true ∧ s.ownerUp o = true ∧
    s.keyOf (.window b) o = some key ∧ assignedKey key = true ∧ roleOf key = .single)) ((16) : Fin 24) ((.none) : Upset) ((insA 0x2201A018) : Ins) ((0x10010) : Nat) ((0x10010) : Nat) ((((stIns 0x2201A018).modBob 16 fun x => { x with g := x.g.set 8 0x4000FFF8 }))) := by
  decide +kernel

theorem witness_LoadInstructions_ldws_10 :
    (fun (b : Fin 24) (u : Upset) (i : Ins) (o key : Nat) (s : State) => Sound s ∧ (Issues s b u i ∧ i.op = 0x26 ∧ spaceOf (addrOf s b i) 4 false = .ok (.window o) ∧ s.capBit b capREGR = true ∧ s.ownerUp o = true ∧
    s.keyOf (.window b) o = some key ∧ assignedKey key = true ∧ roleOf key = .single)) ((16) : Fin 24) ((.none) : Upset) ((insA 0x2601A018) : Ins) ((0x10010) : Nat) ((0x10010) : Nat) ((((stIns 0x2601A018).modBob 16 fun x => { x with g := x.g.set 8 0x4000FFF8 }))) := by
  decide +kernel

theorem witness_LoadInstructions_ldw_11 :
    (fun (b : Fin 24) (u : Upset) (i : Ins) (o : Nat) (s : State) => Sound s ∧ (Issues s b u i ∧ i.op = 0x22 ∧ spaceOf (addrOf s b i) 4 false = .ok (.window o) ∧ s.capBit b capREGR = false)) ((16) : Fin 24) ((.none) : Upset) ((insA 0x2201A018) : Ins) ((0x10010) : Nat) (((((stIns 0x2201A018).modBob 16 fun x => { x with g := x.g.set 8 0x4000FFF8 })).setReg (R.SQ_BOB_CAP 16) 0)) := by
  decide +kernel

theorem witness_StoreInstructions_stb :
    (fun (b : Fin 24) (u : Upset) (i : Ins) (p : Space) (s : State) => Sound s ∧ (Issues s b u i ∧ i.op = 0x28 ∧ spaceOf (addrOf s b i) 1 true = .ok p)) ((16) : Fin 24) ((.none) : Upset) ((insA 0x2801A008) : Ins) ((.scratch 8) : Space) (((stIns 0x2801A008).modBob 16 fun x => { x with scratch := [(8, 0x85), (9, 0x96), (11, 0xA7), (15, 0x91)] })) := by
  decide +kernel

theorem witness_StoreInstructions_sth :
    (fun (b : Fin 24) (u : Upset) (i : Ins) (p : Space) (s : State) => Sound s ∧ (Issues s b u i ∧ i.op = 0x29 ∧ spaceOf (addrOf s b i) 2 true = .ok p)) ((16) : Fin 24) ((.none) : Upset) ((insA 0x2901A008) : Ins) ((.scratch 8) : Space) (((stIns 0x2901A008).modBob 16 fun x => { x with scratch := [(8, 0x85), (9, 0x96), (11, 0xA7), (15, 0x91)] })) := by
  decide +kernel

theorem witness_StoreInstructions_std :
    (fun (b : Fin 24) (u : Upset) (i : Ins) (p : Space) (s : State) => Sound s ∧ (Issues s b u i ∧ i.op = 0x2B ∧ spaceOf (addrOf s b i) 8 true = .ok p)) ((16) : Fin 24) ((.none) : Upset) ((insA 0x2B01A008) : Ins) ((.scratch 8) : Space) (((stIns 0x2B01A008).modBob 16 fun x => { x with scratch := [(8, 0x85), (9, 0x96), (11, 0xA7), (15, 0x91)] })) := by
  decide +kernel

theorem witness_StoreInstructions_stw :
    (fun (b : Fin 24) (u : Upset) (i : Ins) (p : Space) (s : State) => Sound s ∧ (Issues s b u i ∧ i.op = 0x2A ∧ spaceOf (addrOf s b i) 4 true = .ok p ∧ (match p with | .window _ => false | _ => true) = true)) ((16) : Fin 24) ((.none) : Upset) ((insA 0x2A01A008) : Ins) ((.scratch 8) : Space) (((stIns 0x2A01A008).modBob 16 fun x => { x with scratch := [(8, 0x85), (9, 0x96), (11, 0xA7), (15, 0x91)] })) := by
  decide +kernel

theorem witness_StoreInstructions_std_4 :
    (fun (b : Fin 24) (u : Upset) (i : Ins) (o : Nat) (s : State) => Sound s ∧ (Issues s b u i ∧ i.op = 0x2B ∧ spaceOf (addrOf s b i) 8 true = .ok (.shared o))) ((16) : Fin 24) ((.none) : Upset) ((insA 0x2B01A008) : Ins) ((0x10) : Nat) (((stIns 0x2B01A008).modBob 16 fun x => { x with g := x.g.set 8 0x100008 })) := by
  decide +kernel

theorem witness_StoreInstructions_stb_5 :
    (fun (b : Fin 24) (u : Upset) (i : Ins) (e : Nat) (s : State) => Sound s ∧ (Issues s b u i ∧ i.op = 0x28 ∧ spaceOf (addrOf s b i) 1 true = .error e)) ((16) : Fin 24) ((.none) : Upset) ((insA 0x2801A009) : Ins) ((5) : Nat) (((stIns 0x2801A009).modBob 16 fun x => { x with g := x.g.set 8 0x200008 })) := by
  decide +kernel

theorem witness_StoreInstructions_stw_6 :
    (fun (b : Fin 24) (u : Upset) (i : Ins) (o : Nat) (s : State) => Sound s ∧ (Issues s b u i ∧ i.op = 0x2A ∧ spaceOf (addrOf s b i) 4 true = .ok (.window o) ∧ s.capBit b capREGW = false)) ((16) : Fin 24) ((.none) : Upset) ((insA 0x2A01A018) : Ins) ((0x10010) : Nat) (((((stIns 0x2A01A018).modBob 16 fun x => { x with g := x.g.set 8 0x4000FFF8 })).setReg (R.SQ_BOB_CAP 16) 0)) := by
  decide +kernel

theorem witness_StoreInstructions_amo :
    (fun (b : Fin 24) (u : Upset) (i : Ins) (o : Nat) (s : State) => Sound s ∧ (Issues s b u i ∧ i.op = 0x2C ∧ u = .none ∧ spaceOf (valA s b i).toNat 8 true = .ok (.shared o))) ((16) : Fin 24) ((.none) : Upset) ((insA 0x2C01A0A1) : Ins) ((8) : Nat) (((stIns 0x2C01A0A1).modBob 16 fun x => { x with g := x.g.set 8 0x100008 })) := by
  decide +kernel

theorem witness_StoreInstructions_amo_8 :
    (fun (b : Fin 24) (u : Upset) (i : Ins) (o : Nat) (s : State) => Sound s ∧ (Issues s b u i ∧ i.op = 0x2C ∧ spaceOf (valA s b i).toNat 8 true = .ok (.scratch o))) ((16) : Fin 24) ((.none) : Upset) ((insA 0x2C01A0A1) : Ins) ((8) : Nat) (((stIns 0x2C01A0A1).modBob 16 fun x => { x with g := x.g.set 8 8 })) := by
  decide +kernel

theorem witness_SlotRequests_slotStateRequest :
    (fun (k : Fin 96) (req : Fin 4) (s : State) => Sound s ∧ ((s.slot k).inUse = true ∧ (s.slot k).override = false ∧ ¬ (req = 3 ∧ (s.linkHolds k = true ∨ (s.slot k).memHold = true)))) ((5) : Fin 96) ((3) : Fin 4) ((stUp.modSlot 5 fun x => { x with st := .hold })) := by
  decide +kernel

theorem witness_SlotRequests_slotStateRequest_1 :
    (fun (k : Fin 96) (req : Fin 4) (s : State) => Sound s ∧ ((s.slot k).override = false ∧ req = 3 ∧ s.linkHolds k = true)) ((5) : Fin 96) ((3) : Fin 4) (((stUp.modSlot 5 fun x => { x with st := .hold }).modHead 0 fun h => { h with link := { h.link with faultHold := true } })) := by
  decide +kernel

theorem witness_SlotRequests_slotStateRequest_2 :
    (fun (b : Fin 24) (u : Upset) (i : Ins) (k : Fin 96) (n : Fin 16) (s : State) => Sound s ∧ (Issues s b u i ∧ i.op = 0x68 ∧ (valB s b i).toNat / 4 % 2 = 0 ∧ s.capBit b famLP = true ∧ (valA s b i).toNat % 128 = k.val ∧
    slotHead s k = some n ∧ s.capBit b (16 + n.val) = true ∧ s.headInService n.val = true ∧ (s.slot k).inUse = true ∧ (s.slot k).override = false ∧
    s.linkHolds k = false ∧ (s.slot k).memHold = false)) ((16) : Fin 24) ((.none) : Upset) ((insA 0x680010A0) : Ins) ((7) : Fin 96) ((0) : Fin 16) (((stIns 0x680010A0).modSlot 7 fun x => { x with st := .hold })) := by
  decide +kernel

theorem witness_SlotRequests_slotStateRequest_3 :
    (fun (b : Fin 24) (u : Upset) (i : Ins) (s : State) => Sound s ∧ (Issues s b u i ∧ i.op = 0x68 ∧ (valB s b i).toNat / 4 % 2 = 0 ∧ s.capBit b famLP = false)) ((16) : Fin 24) ((.none) : Upset) ((insA 0x680010A0) : Ins) (((stIns 0x680010A0).setReg (R.SQ_BOB_CAP 16) 0)) := by
  decide +kernel

theorem witness_SlotRequests_slotClearState :
    (fun (k : Fin 96) (req : Fin 4) (s : State) => Sound s ∧ ((s.slot k).inUse = true ∧ (s.slot k).override = false ∧ ¬ (req = 3 ∧ (s.linkHolds k = true ∨ (s.slot k).memHold = true)))) ((5) : Fin 96) ((3) : Fin 4) ((stUp.modSlot 5 fun x => { x with st := .hold })) := by
  decide +kernel

theorem witness_SlotRequests_slotClearState_5 :
    (fun (b : Fin 24) (u : Upset) (i : Ins) (k : Fin 96) (n : Fin 16) (s : State) => Sound s ∧ (Issues s b u i ∧ i.op = 0x68 ∧ (valB s b i).toNat / 4 % 2 = 1 ∧ s.capBit b famLP = true ∧ (valA s b i).toNat % 128 = k.val ∧
    slotHead s k = some n ∧ s.capBit b (16 + n.val) = true ∧ s.headInService n.val = true ∧ (s.slot k).inUse = true ∧ (s.slot k).override = false ∧
    s.linkHolds k = false ∧ (s.slot k).memHold = false)) ((16) : Fin 24) ((.none) : Upset) ((insA 0x68001080) : Ins) ((7) : Fin 96) ((0) : Fin 16) (((stIns 0x68001080).modSlot 7 fun x => { x with st := .hold }).modBob 16 fun x => { x with g := x.g.set 4 7 }) := by
  decide +kernel

theorem witness_SlotRequests_coefficientWrite :
    (fun (k : Fin 96) (_i : Fin 64) (_w : Word) (s : State) => Sound s ∧ ((s.slot k).st = .disabled)) ((5) : Fin 96) ((3) : Fin 64) ((0x00800001) : Word) stUp := by
  decide +kernel

theorem witness_SlotRequests_coefficientWrite_7 :
    (fun (k : Fin 96) (_i : Fin 64) (_w : Word) (s : State) => Sound s ∧ ((s.slot k).st ≠ .disabled)) ((5) : Fin 96) ((3) : Fin 64) ((0x00800001) : Word) ((stUp.modSlot 5 fun x => { x with st := .run })) := by
  decide +kernel

theorem witness_SlotRequests_coefficientWrite_8 :
    (fun (b : Fin 24) (u : Upset) (i : Ins) (k : Fin 96) (n : Fin 16) (s : State) => Sound s ∧ (Issues s b u i ∧ i.op = 0x69 ∧ s.capBit b famLP = true ∧ (valA s b i).toNat % 128 = k.val ∧ slotHead s k = some n ∧
    s.capBit b (16 + n.val) = true ∧ s.headInService n.val = true ∧ (s.slot k).st = .disabled)) ((16) : Fin 24) ((.none) : Upset) ((insA 0x690190A0) : Ins) ((7) : Fin 96) ((0) : Fin 16) (((stIns 0x690190A0).modBob 16 fun x => { x with g := x.g.set 4 7 })) := by
  decide +kernel

theorem witness_SlotRequests_slotConfigWrite :
    (fun (slot : Fin 96) (_j : Fin 24) (_val : Word) (s : State) => Sound s ∧ ((s.slot slot).st = .disabled)) ((5) : Fin 96) ((3) : Fin 24) ((0x12345678) : Word) stUp := by
  decide +kernel

theorem witness_SlotRequests_slotConfigWrite_10 :
    (fun (slot : Fin 96) (_val : Word) (s : State) => Sound s ∧ ((s.slot slot).st = .disabled)) ((5) : Fin 96) ((0x12345678) : Word) stUp := by
  decide +kernel

theorem witness_SlotRequests_slotConfigWrite_11 :
    (fun (slot : Fin 96) (_which : SlotReg) (_val : Word) (s : State) => Sound s ∧ ((s.slot slot).st ≠ .disabled)) ((5) : Fin 96) ((.start) : SlotReg) ((0x12345678) : Word) ((stUp.modSlot 5 fun x => { x with st := .run })) := by
  decide +kernel

theorem witness_LoopExecutions_slotExecution :
    (fun (slot : Fin 96) (memErr : Option Nat) (s : State) => Sound s ∧ (memErr = none ∧ (s.slot slot).inUse = true ∧ slotDue s slot (s.now / 1875) = true ∧ execStart s slot (s.now / 1875) ≤ s.now ∧
    (s.slot slot).lastExec = none ∧ (s.slot slot).req = some 0)) ((5) : Fin 96) ((none) : Option Nat) ((stUp.modSlot 5 fun x => { x with st := .hold, req := some 0 })) := by
  decide +kernel

theorem witness_LoopExecutions_slotExecution_1 :
    (fun (slot : Fin 96) (memErr : Option Nat) (s : State) => Sound s ∧ (memErr = none ∧ (s.slot slot).inUse = true ∧ slotDue s slot (s.now / 1875) = true ∧ execStart s slot (s.now / 1875) ≤ s.now ∧
    (s.slot slot).lastExec = none ∧ (s.slot slot).req = some 1 ∧ (s.slot slot).coefPend = [] ∧ ∀ n : Fin 16, (s.loopHead n).seq = none)) ((5) : Fin 96) ((none) : Option Nat) ((stUp.modSlot 5 fun x => { x with st := .run, req := some 1 })) := by
  decide +kernel

theorem witness_LoopExecutions_quadSetVisible :
    (fun (head : Fin 16) (q : QuadSet) (rest : List LoopItem) (s : State) => Sound s ∧ ((s.loopHead head).xing = .quad q :: rest)) ((3) : Fin 16) ((⟨900, 0, 1, 2, 3, 4, false⟩) : QuadSet) (([]) : List LoopItem) ((stUp.modLoopHead 3 fun h => { h with xing := [.quad ⟨900, 0, 1, 2, 3, 4, false⟩] })) := by
  decide +kernel

theorem witness_LoopExecutions_chevronOffsetArrival :
    (fun (head : Fin 16) (c : ChevOffset) (rest : List LoopItem) (s : State) => Sound s ∧ ((s.loopHead head).xing = .chevron c :: rest)) ((3) : Fin 16) ((⟨7, 900⟩) : ChevOffset) (([]) : List LoopItem) ((stUp.modLoopHead 3 fun h => { h with xing := [.chevron ⟨7, 900⟩] })) := by
  decide +kernel

theorem witness_LoopExecutions_dropoutFlagArrival :
    (fun (head : Fin 16) (r : Stamp) (rest : List LoopItem) (s : State) => Sound s ∧ ((s.loopHead head).xing = .rise r :: rest ∧ (s.loopHead head).rise = none ∧ (s.loopHead head).fall = none)) ((3) : Fin 16) ((900) : Stamp) (([]) : List LoopItem) ((stUp.modLoopHead 3 fun h => { h with xing := [.rise 900] })) := by
  decide +kernel

theorem witness_LoopExecutions_dropoutFlagArrival_5 :
    (fun (head : Fin 16) (f : Stamp) (rest : List LoopItem) (s : State) => Sound s ∧ ((s.loopHead head).xing = .fall f :: rest)) ((3) : Fin 16) ((900) : Stamp) (([]) : List LoopItem) ((stUp.modLoopHead 3 fun h => { h with xing := [.fall 900], rise := some 700 })) := by
  decide +kernel

theorem witness_LoopExecutions_traceFreeze :
    (fun  (s : State) => Sound s ∧ (s.fld R.LP_TRC_CTRL F.LP_TRC_CTRL_MODE = 3 ∧ s.loop.freezeLeft = none ∧ s.flag R.LP_TRC_STATUS F.LP_TRC_STATUS_FROZEN = false ∧
    s.fld R.LP_TRC_CTRL F.LP_TRC_CTRL_POST ≠ 0))  ((stUp.setReg R.LP_TRC_CTRL 0x00200003)) := by
  decide +kernel

theorem witness_LoopExecutions_traceFreeze_8 :
    (fun  (s : State) => Sound s ∧ (s.fld R.LP_TRC_CTRL F.LP_TRC_CTRL_MODE = 3 ∧ s.loop.freezeLeft = none ∧ s.fld R.LP_TRC_CTRL F.LP_TRC_CTRL_POST = 0))  ((stUp.setReg R.LP_TRC_CTRL 0x00000003)) := by
  decide +kernel

theorem witness_LoopExecutions_traceMergerRelease_10 :
    (fun (a b : TraceRec) (s : State) => Sound s ∧ (s.loop.trace = [a, b] ∧ b.stamp < a.stamp ∧ a.stamp + 384 ≤ s.now ∧ s.flag R.LP_TRC_STATUS F.LP_TRC_STATUS_FROZEN = false ∧
    s.loop.freezeLeft = none ∧ s.fld R.LP_TRC_STATUS F.LP_TRC_STATUS_WPTR + 2 < 8192)) ((⟨300, 5, 0, 0, 7⟩) : TraceRec) ((⟨200, 6, 0, 0, 7⟩) : TraceRec) (({ stUp with loop := { stUp.loop with trace := [⟨300, 5, 0, 0, 7⟩, ⟨200, 6, 0, 0, 7⟩] } })) := by
  decide +kernel

theorem witness_SequenceEnds_sequenceTimeout :
    (fun (head : Fin 16) (q : Sequence) (e : Stamp) (s : State) => Sound s ∧ ((s.loopHead head).seq = some q ∧ q.kind = .trackOn ∧ seqLimit s head q = some e ∧ e ≤ s.now)) ((3) : Fin 16) ((⟨.trackOn, some ⟨20, 5, 0⟩, 5, .awaitCross, 0, 0, 0, 0, none, none⟩) : Sequence) ((1500005) : Stamp) (({ (stUp.modLoopHead 3 fun h => { h with seq := some ⟨.trackOn, some ⟨20, 5, 0⟩, 5, .awaitCross, 0, 0, 0, 0, none, none⟩ }) with time := { stUp.time with tb := 2000000 } })) := by
  decide +kernel

theorem witness_SequenceEnds_seamJumpDeadline :
    (fun (head : Fin 16) (q : Sequence) (a d : Stamp) (k : Int) (s : State) => Sound s ∧ ((s.loopHead head).seq = some q ∧ q.kind = .seamJump k ∧ q.phase = .awaitSeam a d ∧ d ≤ s.now ∧ (trackSlot s head).isSome = true ∧
    (s.head head).writingNow = false ∧ (s.head head).opening = none)) ((3) : Fin 16) ((⟨.seamJump 2, some ⟨20, 5, 0⟩, 5, .awaitSeam 40 50, 0, 0, 0, 0, none, none⟩) : Sequence) ((40) : Stamp) ((50) : Stamp) ((2) : Int) ((stUp.modLoopHead 3 fun h => { h with seq := some ⟨.seamJump 2, some ⟨20, 5, 0⟩, 5, .awaitSeam 40 50, 0, 0, 0, 0, none, none⟩ })) := by
  decide +kernel

theorem witness_HeadSequences_hdFocus :
    (fun (b : Fin 24) (u : Upset) (i : Ins) (n : Fin 16) (s : State) => Sound s ∧ (Issues s b u i ∧ i.op = 0x53 ∧ AimsAt s b i famHD n ∧ (s.bob b).occupied < 32 ∧ (s.head n).seek = none ∧ (s.head n).opening = none ∧
    seqRefusal s n (.focus ((valB s b i).toNat % 16)) = none)) ((16) : Fin 24) ((.none) : Upset) ((insA 0x530118A0) : Ins) ((0) : Fin 16) ((seqReady (stIns 0x530118A0))) := by
  decide +kernel

theorem witness_HeadSequences_hdFocus_1 :
    (fun (b : Fin 24) (u : Upset) (i : Ins) (n : Fin 16) (s : State) => Sound s ∧ (Issues s b u i ∧ i.op = 0x53 ∧ AimsAt s b i famHD n ∧ (s.bob b).occupied < 32 ∧ (s.head n).seek = none ∧ (s.head n).opening = none ∧
    (s.loopHead n).seq = none ∧ (s.head n).link.usable = true ∧ (focusSlot s n).any (fun k => (s.slot k).st != .disabled) = true ∧ s.hdLen n = false)) ((16) : Fin 24) ((.none) : Upset) ((insA 0x530118A0) : Ins) ((0) : Fin 16) (((seqReady (stIns 0x530118A0)).setReg (R.HD_LASER_STATUS 0) 0)) := by
  decide +kernel

theorem witness_HeadSequences_hdLjump :
    (fun (b : Fin 24) (u : Upset) (i : Ins) (n : Fin 16) (k : Int) (s : State) => Sound s ∧ (Issues s b u i ∧ i.op = 0x54 ∧ AimsAt s b i famHD n ∧ (s.bob b).occupied < 32 ∧ (s.head n).seek = none ∧ (s.head n).opening = none ∧
    (valB s b i).toInt = k ∧ k ≠ 0 ∧ k.natAbs ≤ 15 ∧ seqRefusal s n (.layerJump k) = none)) ((16) : Fin 24) ((.none) : Upset) ((insA 0x540118A0) : Ins) ((0) : Fin 16) ((3) : Int) ((seqReady (stIns 0x540118A0))) := by
  decide +kernel

theorem witness_HeadSequences_hdLjump_3 :
    (fun (b : Fin 24) (u : Upset) (i : Ins) (n : Fin 16) (s : State) => Sound s ∧ (Issues s b u i ∧ i.op = 0x54 ∧ AimsAt s b i famHD n ∧ ((valB s b i).toInt = 0 ∨ 15 < (valB s b i).toInt.natAbs))) ((16) : Fin 24) ((.none) : Upset) ((insA 0x54011880) : Ins) ((0) : Fin 16) (((stIns 0x54011880).modBob 16 fun x => { x with g := x.g.set 4 16 })) := by
  decide +kernel

theorem witness_HeadSequences_hdTrkon :
    (fun (b : Fin 24) (u : Upset) (i : Ins) (n : Fin 16) (s : State) => Sound s ∧ (Issues s b u i ∧ i.op = 0x55 ∧ AimsAt s b i famHD n ∧ (s.bob b).occupied < 32 ∧ (s.head n).seek = none ∧ (s.head n).opening = none ∧
    seqRefusal s n .trackOn = none)) ((16) : Fin 24) ((.none) : Upset) ((insA 0x550118A0) : Ins) ((0) : Fin 16) ((seqReady (stIns 0x550118A0))) := by
  decide +kernel

theorem witness_HeadSequences_hdSjump :
    (fun (b : Fin 24) (u : Upset) (i : Ins) (n : Fin 16) (k : Int) (s : State) => Sound s ∧ (Issues s b u i ∧ i.op = 0x56 ∧ AimsAt s b i famHD n ∧ (s.bob b).occupied < 32 ∧ (s.head n).seek = none ∧ (s.head n).opening = none ∧
    (valB s b i).toInt = k ∧ k ≠ 0 ∧ k.natAbs ≤ 12 ∧ seqRefusal s n (.seamJump k) = none)) ((16) : Fin 24) ((.none) : Upset) ((insA 0x560118A0) : Ins) ((0) : Fin 16) ((3) : Int) (((seqReady (stIns 0x560118A0)).modHead 0 fun h => { h with fly := { h.fly with frames := [⟨1, 60000⟩, ⟨0, 1000⟩] } }).setReg (R.HD_FLY_STATUS 0) 3) := by
  decide +kernel

theorem witness_HeadSequences_hdSjump_6 :
    (fun (b : Fin 24) (u : Upset) (i : Ins) (n : Fin 16) (s : State) => Sound s ∧ (Issues s b u i ∧ i.op = 0x56 ∧ AimsAt s b i famHD n ∧ ((valB s b i).toInt = 0 ∨ 12 < (valB s b i).toInt.natAbs))) ((16) : Fin 24) ((.none) : Upset) ((insA 0x56011880) : Ins) ((0) : Fin 16) (((stIns 0x56011880).modBob 16 fun x => { x with g := x.g.set 4 13 })) := by
  decide +kernel

theorem witness_HeadSequences_hdTrkon_7 :
    (fun (b : Fin 24) (u : Upset) (i : Ins) (n : Fin 16) (k : SeekReq) (s : State) => Sound s ∧ (Issues s b u i ∧ i.op = 0x55 ∧ AimsAt s b i famHD n ∧ (s.bob b).occupied < 32 ∧ (s.head n).seek = some k)) ((16) : Fin 24) ((.none) : Upset) ((insA 0x550118A0) : Ins) ((0) : Fin 16) ((⟨⟨2, 2049, 0⟩, 120, .moving, 0, 200, none⟩) : SeekReq) (((seqReady (stIns 0x550118A0)).modHead 0 fun h => { h with seek := some ⟨⟨2, 2049, 0⟩, 120, .moving, 0, 200, none⟩ })) := by
  decide +kernel

theorem witness_HeadInstructions_hdOpen :
    (fun (b : Fin 24) (u : Upset) (i : Ins) (n : Fin 16) (d : PassDesc) (p : Pass) (m : Hem) (s : State) => Sound s ∧ (Issues s b u i ∧ i.op = 0x50 ∧ AimsAt s b i famHD n ∧ (s.bob b).occupied < 32 ∧ 0x100000 ≤ (valB s b i).toNat ∧
    (valB s b i).toNat + 64 ≤ 0x200000 ∧ (s.head n).link.usable = true ∧ (s.head n).opening = none ∧ (s.loopHead n).seq = none ∧
    parseDesc (scratchBytes s.seq.shared ((valB s b i).toNat - 0x100000) 64) = some d ∧ descValid s n (s.reg (R.HD_FMT_CFG n.val)).toNat d = true ∧
    (s.head n).pass = some p ∧ p.hem = some m ∧ (∀ r ∈ s.decode.runAhead, ¬ (r.head = n.val ∧ r.claim = none)))) ((16) : Fin 24) ((.none) : Upset) ((insA 0x50011880) : Ins) ((0) : Fin 16) ((⟨0, .read, false, false, 0, 4, 2, 0, 0⟩) : PassDesc) (({ passA with hem := some hemA }) : Pass) ((hemA) : Hem) (opensA ({ passA with hem := some hemA })) := by
  decide +kernel

theorem witness_HeadInstructions_hdOpen_1 :
    (fun (b : Fin 24) (u : Upset) (i : Ins) (n : Fin 16) (d : PassDesc) (s : State) => Sound s ∧ (Issues s b u i ∧ i.op = 0x50 ∧ AimsAt s b i famHD n ∧ (s.bob b).occupied < 32 ∧ 0x100000 ≤ (valB s b i).toNat ∧
    (valB s b i).toNat + 64 ≤ 0x200000 ∧ (s.head n).link.usable = true ∧ (s.head n).opening = none ∧ (s.loopHead n).seq = none ∧
    parseDesc (scratchBytes s.seq.shared ((valB s b i).toNat - 0x100000) 64) = some d ∧ descValid s n (s.reg (R.HD_FMT_CFG n.val)).toNat d = true ∧
    (s.head n).pass = none)) ((16) : Fin 24) ((.none) : Upset) ((insA 0x50011880) : Ins) ((0) : Fin 16) ((⟨0, .read, false, false, 0, 4, 2, 0, 0⟩) : PassDesc) ((opensA passA).modHead 0 fun h => { h with pass := none }) := by
  decide +kernel

theorem witness_HeadInstructions_hdOpen_2 :
    (fun (b : Fin 24) (u : Upset) (i : Ins) (n : Fin 16) (s : State) => Sound s ∧ (Issues s b u i ∧ i.op = 0x50 ∧ AimsAt s b i famHD n ∧ (s.bob b).occupied < 32 ∧ 0x100000 ≤ (valB s b i).toNat ∧
    (valB s b i).toNat + 64 ≤ 0x200000 ∧ (s.head n).link.usable = true ∧ (s.head n).opening = none ∧ (s.loopHead n).seq = none ∧
    (∀ x ∈ List.range 64, byteAt s.seq.shared ((valB s b i).toNat - 0x100000 + x) = 0))) ((16) : Fin 24) ((.none) : Upset) ((insA 0x50011880) : Ins) ((0) : Fin 16) (((opensA passA).modHead 0 fun h => { h with pass := none }).modBob 16 fun x => { x with g := x.g.set 4 0x110000 }) := by
  decide +kernel

theorem witness_HeadInstructions_hdOpen_3 :
    (fun (b : Fin 24) (u : Upset) (i : Ins) (n : Fin 16) (s : State) => Sound s ∧ (Issues s b u i ∧ i.op = 0x50 ∧ AimsAt s b i famHD n ∧ ((valB s b i).toNat < 0x100000 ∨ 0x200000 < (valB s b i).toNat + 64))) ((16) : Fin 24) ((.none) : Upset) ((insA 0x500118A0) : Ins) ((0) : Fin 16) (linkUp (stIns 0x500118A0)) := by
  decide +kernel

theorem witness_HeadInstructions_hdHem :
    (fun (b : Fin 24) (u : Upset) (i : Ins) (n : Fin 16) (p : Pass) (m : Hem) (s : State) => Sound s ∧ (Issues s b u i ∧ i.op = 0x51 ∧ AimsAt s b i famHD n ∧ (s.bob b).occupied < 32 ∧ (s.head n).opening = none ∧ (s.head n).pass = some p ∧ p.hem = some m ∧
    (∀ r ∈ s.decode.runAhead, ¬ (r.head = n.val ∧ r.claim = none)))) ((16) : Fin 24) ((.none) : Upset) ((insA 0x51011880) : Ins) ((0) : Fin 16) (({ passA with hem := some hemA }) : Pass) ((hemA) : Hem) (((linkUp (stIns 0x51011880)).modHead 0 fun h => { h with pass := some { passA with hem := some hemA } })) := by
  decide +kernel

theorem witness_HeadInstructions_hdHem_5 :
    (fun (b : Fin 24) (u : Upset) (i : Ins) (n : Fin 16) (s : State) => Sound s ∧ (Issues s b u i ∧ i.op = 0x51 ∧ AimsAt s b i famHD n ∧ (s.bob b).occupied < 32 ∧ (s.head n).opening = none ∧ (s.head n).pass = none)) ((16) : Fin 24) ((.none) : Upset) ((insA 0x51011880) : Ins) ((0) : Fin 16) ((linkUp (stIns 0x51011880))) := by
  decide +kernel

theorem witness_HeadInstructions_hdSeek :
    (fun (b : Fin 24) (u : Upset) (i : Ins) (n : Fin 16) (k : Fin 96) (s : State) => Sound s ∧ (Issues s b u i ∧ i.op = 0x52 ∧ AimsAt s b i famHD n ∧ (s.bob b).occupied < 32 ∧ (s.head n).opening = none ∧ (s.head n).pass = none ∧
    (s.head n).seek = none ∧ (s.loopHead n).seq = none ∧ (s.head n).link.usable = true ∧ focusSlot s n = some k ∧ (s.slot k).st = .run ∧
    s.headPopulated n.val = true ∧ s.fld (R.SL_STATUS n.val) F.SL_STATUS_FAULT = 0 ∧ s.flag (R.SL_STATUS n.val) F.SL_STATUS_UNCERTAIN = false)) ((16) : Fin 24) ((.none) : Upset) ((insA 0x520118A0) : Ins) ((0) : Fin 16) ((5) : Fin 96) (((seqReady (stIns 0x520118A0)).setReg (R.SL_STATUS 0) 0)) := by
  decide +kernel

theorem witness_HeadInstructions_seekStep :
    (fun (head : Fin 16) (k : SeekReq) (s : State) => Sound s ∧ ((s.head head).seek = some k ∧ k.stage = .trackOn ∧ k.note = some 0)) ((0) : Fin 16) ((⟨⟨2, 2049, 0⟩, 120, .trackOn, 0, 200, some 0⟩) : SeekReq) ((stLink.modHead 0 fun h => { h with seek := some ⟨⟨2, 2049, 0⟩, 120, .trackOn, 0, 200, some 0⟩ })) := by
  decide +kernel

theorem witness_HeadInstructions_seekStep_8 :
    (fun (head : Fin 16) (k : SeekReq) (since : Stamp) (l : Nat) (s : State) => Sound s ∧ ((s.head head).seek = some k ∧ k.stage = .awaitAddr since ∧ s.flag (R.HD_FLY_STATUS head.val) F.HD_FLY_STATUS_ADDR_OK = true ∧
    (s.head head).fly.expected = some (l, k.target))) ((0) : Fin 16) ((⟨⟨2, 2049, 0⟩, 120, .awaitAddr 50, 0, 200, none⟩) : SeekReq) ((50) : Stamp) ((2) : Nat) ((stLink.setReg (R.HD_FLY_STATUS 0) 0xFFFFFFFF).modHead 0 fun h => { h with seek := some ⟨⟨2, 2049, 0⟩, 120, .awaitAddr 50, 0, 200, none⟩, fly := { h.fly with expected := some (2, 120) } }) := by
  decide +kernel

theorem witness_HeadInstructions_seekAddressTimeout :
    (fun (head : Fin 16) (k : SeekReq) (since : Stamp) (s : State) => Sound s ∧ ((s.head head).seek = some k ∧ k.stage = .awaitAddr since ∧ s.flag (R.HD_FLY_STATUS head.val) F.HD_FLY_STATUS_ADDR_OK = false ∧
    since + 3000000 ≤ s.now)) ((0) : Fin 16) ((⟨⟨2, 2049, 0⟩, 120, .awaitAddr 50, 0, 200, none⟩) : SeekReq) ((50) : Stamp) ((({ stLink with time := { stLink.time with tb := 4000000 } }).modHead 0 fun h => { h with seek := some ⟨⟨2, 2049, 0⟩, 120, .awaitAddr 50, 0, 200, none⟩ })) := by
  decide +kernel

theorem witness_HeadInstructions_hdSafe :
    (fun (b : Fin 24) (u : Upset) (i : Ins) (n : Fin 16) (s : State) => Sound s ∧ (Issues s b u i ∧ i.op = 0x57 ∧ AimsAt s b i famHD n ∧ (s.bob b).occupied < 32 ∧ i.fn ≤ 1 ∧ (s.head n).link.usable = true)) ((16) : Fin 24) ((.none) : Upset) ((insA 0x57011801) : Ins) ((0) : Fin 16) (linkUp (stIns 0x57011801)) := by
  decide +kernel

theorem witness_HeadInstructions_hdSafe_11 :
    (fun (b : Fin 24) (u : Upset) (i : Ins) (n : Fin 16) (s : State) => Sound s ∧ (Issues s b u i ∧ i.op = 0x57 ∧ AimsAt s b i famHD n ∧ (s.bob b).occupied < 32 ∧ i.fn ≤ 1 ∧ (s.head n).link.usable = false)) ((16) : Fin 24) ((.none) : Upset) ((insA 0x57011800) : Ins) ((0) : Fin 16) ((stIns 0x57011800)) := by
  decide +kernel

theorem witness_HeadInstructions_hdSafe_12 :
    (fun (b : Fin 24) (u : Upset) (i : Ins) (n : Fin 16) (s : State) => Sound s ∧ (Issues s b u i ∧ i.op = 0x57 ∧ AimsAt s b i famHD n ∧ 2 ≤ i.fn)) ((16) : Fin 24) ((.none) : Upset) ((insA 0x57011802) : Ins) ((0) : Fin 16) ((stIns 0x57011802)) := by
  decide +kernel

theorem witness_HeadInstructions_hdFewr :
    (fun (b : Fin 24) (u : Upset) (i : Ins) (n : Fin 16) (s : State) => Sound s ∧ (Issues s b u i ∧ i.op = 0x58 ∧ AimsAt s b i famHD n ∧ (s.bob b).occupied < 32 ∧ (s.head n).link.usable = true)) ((16) : Fin 24) ((.none) : Upset) ((insA 0x58011880) : Ins) ((0) : Fin 16) (linkUp (stIns 0x58011880)) := by
  decide +kernel

theorem witness_HeadInstructions_hdFerd :
    (fun (b : Fin 24) (u : Upset) (i : Ins) (n : Fin 16) (s : State) => Sound s ∧ (Issues s b u i ∧ i.op = 0x59 ∧ AimsAt s b i famHD n ∧ (s.bob b).occupied < 32 ∧ (s.head n).link.usable = true)) ((16) : Fin 24) ((.none) : Upset) ((insA 0x59011880) : Ins) ((0) : Fin 16) (linkUp (stIns 0x59011880)) := by
  decide +kernel

theorem witness_HeadInstructions_frontEndReplyTimeout :
    (fun (head : Fin 16) (f : FeReq) (rest : List FeReq) (s : State) => Sound s ∧ ((s.head head).fe = f :: rest ∧ f.since + 1500000 ≤ s.now)) ((0) : Fin 16) ((⟨⟨2, 2049, 0⟩, .read, 500, none⟩) : FeReq) (([]) : List FeReq) ((({ stLink with time := { stLink.time with tb := 4000000 } }).modHead 0 fun h => { h with fe := [⟨⟨2, 2049, 0⟩, .read, 500, none⟩] })) := by
  decide +kernel

theorem witness_HeadInstructions_hdHk :
    (fun (b : Fin 24) (u : Upset) (i : Ins) (n : Fin 16) (v : Nat) (x : Stamp) (s : State) => Sound s ∧ (Issues s b u i ∧ i.op = 0x5A ∧ AimsAt s b i famHD n ∧ (s.head n).link.hk.lookup ((valB s b i).toNat % 256) = some (v, x))) ((16) : Fin 24) ((.none) : Upset) ((insA 0x5A0118A0) : Ins) ((0) : Fin 16) ((0x1234) : Nat) ((5) : Stamp) (((linkUp (stIns 0x5A0118A0)).modLink 0 fun l => { l with hk := [(3, 0x1234, 5)] })) := by
  decide +kernel

theorem witness_HeadInstructions_hdHk_17 :
    (fun (b : Fin 24) (u : Upset) (i : Ins) (n : Fin 16) (s : State) => Sound s ∧ (Issues s b u i ∧ i.op = 0x5A ∧ AimsAt s b i famHD n ∧ (s.head n).link.hk.lookup ((valB s b i).toNat % 256) = none)) ((16) : Fin 24) ((.none) : Upset) ((insA 0x5A0118A0) : Ins) ((0) : Fin 16) ((linkUp (stIns 0x5A0118A0))) := by
  decide +kernel

theorem witness_HeadInstructions_hdStat :
    (fun (b : Fin 24) (u : Upset) (i : Ins) (n : Fin 16) (p : Pass) (s : State) => Sound s ∧ (Issues s b u i ∧ i.op = 0x5B ∧ AimsAt s b i famHD n ∧ (s.head n).pass = some p ∧ (s.head n).link.state = .up)) ((16) : Fin 24) ((.none) : Upset) ((insA 0x5B0118A0) : Ins) ((0) : Fin 16) ((passA) : Pass) (((linkUp (stIns 0x5B0118A0)).modHead 0 fun h => { h with pass := some passA, passNo := 7 })) := by
  decide +kernel

theorem witness_HeadInstructions_hdStat_19 :
    (fun (b : Fin 24) (u : Upset) (i : Ins) (n : Fin 16) (s : State) => Sound s ∧ (Issues s b u i ∧ i.op = 0x5B ∧ s.capBit b famHD = true ∧ (valA s b i).toNat = n.val ∧ s.capBit b (16 + n.val) = true ∧ s.headInService n.val = false)) ((16) : Fin 24) ((.none) : Upset) ((insA 0x5B0118A0) : Ins) ((0) : Fin 16) (((stIns 0x5B0118A0).setReg R.SYS_HEAD_STATUS 0)) := by
  decide +kernel

theorem witness_SledCommands_sledIdle :
    (fun (n : Fin 16) (s : State) => Sound s ∧ (s.headPopulated n.val = true)) ((3) : Fin 16) stUp := by
  decide +kernel

theorem witness_SledCommands_sledIdle_1 :
    (fun (b : Fin 24) (u : Upset) (i : Ins) (n : Fin 16) (s : State) => Sound s ∧ (Issues s b u i ∧ i.op = 0x60 ∧ i.fn = 1 ∧ AimsAt s b i famSL n ∧ s.headPopulated n.val = true)) ((16) : Fin 24) ((.none) : Upset) ((insA 0x600118A1) : Ins) ((0) : Fin 16) ((stIns 0x600118A1)) := by
  decide +kernel

theorem witness_SledCommands_sledIdle_2 :
    (fun (b : Fin 24) (u : Upset) (i : Ins) (n : Fin 16) (s : State) => Sound s ∧ (Issues s b u i ∧ i.op = 0x60 ∧ i.fn = 9 ∧ AimsAt s b i famSL n ∧ (s.bob b).occupied < 32 ∧ s.headPopulated n.val = true)) ((16) : Fin 24) ((.none) : Upset) ((insA 0x600118A9) : Ins) ((0) : Fin 16) ((stIns 0x600118A9)) := by
  decide +kernel

theorem witness_SledCommands_sledHold :
    (fun (n : Fin 16) (s : State) => Sound s ∧ (s.headPopulated n.val = true ∧ s.fld (R.SL_STATUS n.val) F.SL_STATUS_FAULT = 0)) ((3) : Fin 16) stUp := by
  decide +kernel

theorem witness_SledCommands_sledHold_4 :
    (fun (b : Fin 24) (u : Upset) (i : Ins) (n : Fin 16) (s : State) => Sound s ∧ (Issues s b u i ∧ i.op = 0x60 ∧ i.fn = 2 ∧ AimsAt s b i famSL n ∧ s.headPopulated n.val = true ∧ s.fld (R.SL_STATUS n.val) F.SL_STATUS_FAULT = 0)) ((16) : Fin 24) ((.none) : Upset) ((insA 0x600118A2) : Ins) ((0) : Fin 16) ((stIns 0x600118A2)) := by
  decide +kernel

theorem witness_SledCommands_sledHold_5 :
    (fun (b : Fin 24) (u : Upset) (i : Ins) (n : Fin 16) (s : State) => Sound s ∧ (Issues s b u i ∧ i.op = 0x60 ∧ i.fn = 10 ∧ AimsAt s b i famSL n ∧ (s.bob b).occupied < 32 ∧ s.headPopulated n.val = true ∧ s.fld (R.SL_STATUS n.val) F.SL_STATUS_FAULT = 0)) ((16) : Fin 24) ((.none) : Upset) ((insA 0x600118AA) : Ins) ((0) : Fin 16) ((stIns 0x600118AA)) := by
  decide +kernel

theorem witness_SledCommands_sledMove :
    (fun (n : Fin 16) (s : State) => Sound s ∧ (s.headPopulated n.val = true ∧ s.fld (R.SL_STATUS n.val) F.SL_STATUS_FAULT = 0)) ((3) : Fin 16) stUp := by
  decide +kernel

theorem witness_SledCommands_sledMove_7 :
    (fun (b : Fin 24) (u : Upset) (i : Ins) (n : Fin 16) (s : State) => Sound s ∧ (Issues s b u i ∧ i.op = 0x60 ∧ i.fn = 3 ∧ AimsAt s b i famSL n ∧ s.headPopulated n.val = true ∧ s.fld (R.SL_STATUS n.val) F.SL_STATUS_FAULT = 0)) ((16) : Fin 24) ((.none) : Upset) ((insA 0x600118A3) : Ins) ((0) : Fin 16) ((stIns 0x600118A3)) := by
  decide +kernel

theorem witness_SledCommands_sledMove_8 :
    (fun (b : Fin 24) (u : Upset) (i : Ins) (n : Fin 16) (s : State) => Sound s ∧ (Issues s b u i ∧ i.op = 0x60 ∧ i.fn = 11 ∧ AimsAt s b i famSL n ∧ (s.bob b).occupied < 32 ∧ s.headPopulated n.val = true ∧ s.fld (R.SL_STATUS n.val) F.SL_STATUS_FAULT = 0)) ((16) : Fin 24) ((.none) : Upset) ((insA 0x600118AB) : Ins) ((0) : Fin 16) ((stIns 0x600118AB)) := by
  decide +kernel

theorem witness_SledCommands_sledFollow :
    (fun (n : Fin 16) (s : State) => Sound s ∧ (s.headPopulated n.val = true ∧ s.fld (R.SL_STATUS n.val) F.SL_STATUS_FAULT = 0)) ((3) : Fin 16) stUp := by
  decide +kernel

theorem witness_SledCommands_sledFollow_10 :
    (fun (b : Fin 24) (u : Upset) (i : Ins) (n : Fin 16) (s : State) => Sound s ∧ (Issues s b u i ∧ i.op = 0x60 ∧ i.fn = 4 ∧ AimsAt s b i famSL n ∧ s.headPopulated n.val = true ∧ s.fld (R.SL_STATUS n.val) F.SL_STATUS_FAULT = 0)) ((16) : Fin 24) ((.none) : Upset) ((insA 0x600118A4) : Ins) ((0) : Fin 16) ((stIns 0x600118A4)) := by
  decide +kernel

theorem witness_SledCommands_sledFollow_11 :
    (fun (b : Fin 24) (u : Upset) (i : Ins) (n : Fin 16) (s : State) => Sound s ∧ (Issues s b u i ∧ i.op = 0x60 ∧ i.fn = 12 ∧ AimsAt s b i famSL n ∧ (s.bob b).occupied < 32 ∧ s.headPopulated n.val = true ∧ s.fld (R.SL_STATUS n.val) F.SL_STATUS_FAULT = 0)) ((16) : Fin 24) ((.none) : Upset) ((insA 0x600118AC) : Ins) ((0) : Fin 16) ((stIns 0x600118AC)) := by
  decide +kernel

theorem witness_SledCommands_sledHome :
    (fun (n : Fin 16) (s : State) => Sound s ∧ (s.headPopulated n.val = true ∧ s.fld (R.SL_STATUS n.val) F.SL_STATUS_FAULT = 0)) ((3) : Fin 16) stUp := by
  decide +kernel

theorem witness_SledCommands_sledHome_13 :
    (fun (b : Fin 24) (u : Upset) (i : Ins) (n : Fin 16) (s : State) => Sound s ∧ (Issues s b u i ∧ i.op = 0x60 ∧ i.fn = 5 ∧ AimsAt s b i famSL n ∧ s.headPopulated n.val = true ∧ s.fld (R.SL_STATUS n.val) F.SL_STATUS_FAULT = 0)) ((16) : Fin 24) ((.none) : Upset) ((insA 0x600118A5) : Ins) ((0) : Fin 16) ((stIns 0x600118A5)) := by
  decide +kernel

theorem witness_SledCommands_sledHome_14 :
    (fun (b : Fin 24) (u : Upset) (i : Ins) (n : Fin 16) (s : State) => Sound s ∧ (Issues s b u i ∧ i.op = 0x60 ∧ i.fn = 13 ∧ AimsAt s b i famSL n ∧ (s.bob b).occupied < 32 ∧ s.headPopulated n.val = true ∧ s.fld (R.SL_STATUS n.val) F.SL_STATUS_FAULT = 0)) ((16) : Fin 24) ((.none) : Upset) ((insA 0x600118AD) : Ins) ((0) : Fin 16) ((stIns 0x600118AD)) := by
  decide +kernel

theorem witness_SledCommands_sledSoftstop :
    (fun (n : Fin 16) (s : State) => Sound s ∧ (s.headPopulated n.val = true ∧ s.fld (R.SL_STATUS n.val) F.SL_STATUS_FAULT = 0)) ((3) : Fin 16) stUp := by
  decide +kernel

theorem witness_SledCommands_sledSoftstop_16 :
    (fun (b : Fin 24) (u : Upset) (i : Ins) (n : Fin 16) (s : State) => Sound s ∧ (Issues s b u i ∧ i.op = 0x60 ∧ i.fn = 6 ∧ AimsAt s b i famSL n ∧ s.headPopulated n.val = true ∧ s.fld (R.SL_STATUS n.val) F.SL_STATUS_FAULT = 0)) ((16) : Fin 24) ((.none) : Upset) ((insA 0x600118A6) : Ins) ((0) : Fin 16) ((stIns 0x600118A6)) := by
  decide +kernel

theorem witness_SledCommands_sledSoftstop_17 :
    (fun (b : Fin 24) (u : Upset) (i : Ins) (n : Fin 16) (s : State) => Sound s ∧ (Issues s b u i ∧ i.op = 0x60 ∧ i.fn = 14 ∧ AimsAt s b i famSL n ∧ (s.bob b).occupied < 32 ∧ s.headPopulated n.val = true ∧ s.fld (R.SL_STATUS n.val) F.SL_STATUS_FAULT = 0)) ((16) : Fin 24) ((.none) : Upset) ((insA 0x600118AE) : Ins) ((0) : Fin 16) ((stIns 0x600118AE)) := by
  decide +kernel

theorem witness_SledCommands_sledHold_18 :
    (fun (n : Fin 16) (s : State) => Sound s ∧ (s.headPopulated n.val = true ∧ s.fld (R.SL_STATUS n.val) F.SL_STATUS_FAULT ≠ 0)) ((3) : Fin 16) ((stUp.setFld (R.SL_STATUS 3) F.SL_STATUS_FAULT 4)) := by
  decide +kernel

theorem witness_SledCommands_sledStop :
    (fun (n : Fin 16) (s : State) => Sound s ∧ (s.headPopulated n.val = true ∧ s.fld (R.SL_STATUS n.val) F.SL_STATUS_FAULT = 0 ∧ (s.sled n).v ≠ 0)) ((3) : Fin 16) ((stUp.modSled 3 fun x => { x with st := .move, marks := [⟨900000, 0, 12345678⟩], cmds := [.hold] })) := by
  decide +kernel

theorem witness_SledCommands_sledStop_20 :
    (fun (b : Fin 24) (u : Upset) (i : Ins) (n : Fin 16) (s : State) => Sound s ∧ (Issues s b u i ∧ i.op = 0x60 ∧ i.fn = 7 ∧ AimsAt s b i famSL n ∧ s.headPopulated n.val = true ∧
    s.fld (R.SL_STATUS n.val) F.SL_STATUS_FAULT = 0)) ((16) : Fin 24) ((.none) : Upset) ((insA 0x600118A7) : Ins) ((0) : Fin 16) (((stIns 0x600118A7).modSled 0 fun x => { x with st := .move, cmds := [.hold] })) := by
  decide +kernel

theorem witness_SledMotion_profileTick :
    (fun (n : Fin 16) (s : State) => Sound s ∧ (s.now % 1500 = 0 ∧ (s.sled n).cmds = [.hold])) ((3) : Fin 16) (({ (stUp.modSled 3 fun x => { x with st := .move, marks := [⟨900000, 0, 12345678⟩], cmds := [.hold] }) with time := { stUp.time with tb := 1500000 } })) := by
  decide +kernel

theorem witness_SledMotion_profileTick_1 :
    (fun (n : Fin 16) (s : State) => Sound s ∧ (s.now % 1500 = 0 ∧ (s.sled n).cmds = [.follow])) ((3) : Fin 16) (({ (stUp.modSled 3 fun x => { x with cmds := [.follow], demand := 8388607 }) with time := { stUp.time with tb := 1500000 } })) := by
  decide +kernel

theorem witness_SledMotion_chopperSample :
    (fun (_sled : Fin 16) (_a _c : Int) (s : State) => Sound s ∧ (s.now % 1500000 = 0)) ((3) : Fin 16) ((900) : Int) ((-20) : Int) ((({ stUp with time := { stUp.time with tb := 3000000 } }).modSled 3 fun x => { x with chopA := { x.chopA with last := 77 }, chopB := { x.chopB with last := -5 } })) := by
  decide +kernel

theorem witness_SledMotion_chopperSample_3 :
    (fun (sled : Fin 16) (_a _c : Int) (s : State) => Sound s ∧ (s.now % 150 = 0 ∧ s.now % 1500000 ≠ 0 ∧ s.now % 1500000 ≠ 150 ∧ (s.sled sled).st = .idle)) ((3) : Fin 16) ((900) : Int) ((-20) : Int) (({ stUp with time := { stUp.time with tb := 3000300 } })) := by
  decide +kernel

theorem witness_SledMotion_loadAngleWindow :
    (fun (sled : Fin 16) (s : State) => Sound s ∧ (64 ≤ (s.sled sled).winTicks ∧ (s.sled sled).winFast = false)) ((3) : Fin 16) ((stUp.modSled 3 fun x => { x with winTicks := 64, winFast := false })) := by
  decide +kernel

theorem witness_SledMotion_loadAngleWindow_5 :
    (fun (sled : Fin 16) (s : State) => Sound s ∧ (s.headPopulated sled.val = true ∧ 64 ≤ (s.sled sled).winTicks ∧ (s.sled sled).winFast = true ∧ 0 < s.fld (R.SL_LA_THR sled.val) F.SL_LA_THR_EMIN ∧
    (s.sled sled).chopA.winDrive = 0 ∧ (s.sled sled).chopA.winCur = 0 ∧ (s.sled sled).chopB.winDrive = 0 ∧ (s.sled sled).chopB.winCur = 0 ∧
    s.fld (R.SL_LA_THR sled.val) F.SL_LA_THR_STALL_N ≤ (s.sled sled).stallRun + 1)) ((3) : Fin 16) (((stUp.setReg (R.SL_LA_THR 3) 0xFFFFFFFF).setFld (R.SL_LA_THR 3) F.SL_LA_THR_STALL_N 1).modSled 3 fun x => { x with st := .move, winTicks := 64, winFast := true, marks := [⟨900000, 0, 12345678⟩] }) := by
  decide +kernel

theorem witness_SledMotion_boostHoldExpiry :
    (fun (sled : Fin 16) (since : Stamp) (s : State) => Sound s ∧ ((s.sled sled).boostAt = some since ∧ since + s.fld (R.SL_PROT sled.val) F.SL_PROT_BOOST_HOLD * 1500000 ≤ s.now)) ((3) : Fin 16) ((500) : Stamp) ((({ stUp with time := { stUp.time with tb := 3000000000 } }).modSled 3 fun x => { x with boostAt := some 500 })) := by
  decide +kernel

theorem witness_SledMotion_holdCurrentDelay :
    (fun (sled : Fin 16) (s : State) => Sound s ∧ ((s.sled sled).st = .hold ∧ (s.sled sled).holdCur = false ∧
    (s.sled sled).restFrom + s.fld (R.SL_CUR sled.val) F.SL_CUR_HOLD_DLY * 1500000 ≤ s.now)) ((3) : Fin 16) ((({ stUp with time := { stUp.time with tb := 3000000000 } }).modSled 3 fun x => { x with st := .hold })) := by
  decide +kernel

theorem witness_SledMotion_sledOverCurrent :
    (fun (sled : Fin 16) (_phase : Fin 2) (first second : Int) (s : State) => Sound s ∧ ((s.fld (R.SL_PROT sled.val) F.SL_PROT_OC : Int) < first.natAbs ∧ (s.fld (R.SL_PROT sled.val) F.SL_PROT_OC : Int) < second.natAbs)) ((3) : Fin 16) ((1) : Fin 2) ((2047) : Int) ((-2047) : Int) ((stUp.modSled 3 fun x => { x with st := .move, cmds := [.hold] })) := by
  decide +kernel

theorem witness_SledMotion_switchEdge :
    (fun (sled : Fin 16) (eot : Bool) (s : State) => Sound s ∧ (((s.sled sled).switch eot).window = none)) ((3) : Fin 16) ((false) : Bool) stUp := by
  decide +kernel

theorem witness_SledMotion_switchEdge_10 :
    (fun (sled : Fin 16) (eot : Bool) (e : EdgeWindow) (s : State) => Sound s ∧ (((s.sled sled).switch eot).window = some e ∧ s.cellStamp < e.start + debTicks s sled)) ((3) : Fin 16) ((true) : Bool) ((⟨999000, 77, 4⟩) : EdgeWindow) ((stUp.modSled 3 fun x => { x with eot := ⟨false, some ⟨999000, 77, 4⟩⟩ })) := by
  refine ⟨by decide +kernel, by decide +kernel, lt_of_le_of_lt (State.cellStamp_le _) (by decide +kernel)⟩

theorem witness_SledMotion_switchDebounceEnd :
    (fun (sled : Fin 16) (eot asserted : Bool) (e : EdgeWindow) (s : State) => Sound s ∧ (((s.sled sled).switch eot).window = some e ∧ e.start + debTicks s sled ≤ s.now ∧ asserted = ((s.sled sled).switch eot).asserted)) ((3) : Fin 16) ((true) : Bool) ((false) : Bool) ((⟨9000, 77, 4⟩) : EdgeWindow) ((({ stUp with time := { stUp.time with tb := 900000000 } }).modSled 3 fun x => { x with eot := ⟨false, some ⟨9000, 77, 4⟩⟩ })) := by
  decide +kernel

theorem witness_SledMotion_switchDebounceEnd_12 :
    (fun (sled : Fin 16) (eot asserted : Bool) (e : EdgeWindow) (s : State) => Sound s ∧ (((s.sled sled).switch eot).window = some e ∧ e.start + debTicks s sled ≤ s.now ∧ asserted ≠ ((s.sled sled).switch eot).asserted ∧
    (s.sled sled).st ≠ .home ∧ (s.sled sled).v = 0)) ((3) : Fin 16) ((true) : Bool) ((true) : Bool) ((⟨9000, 77, 4⟩) : EdgeWindow) ((({ stUp with time := { stUp.time with tb := 900000000 } }).modSled 3 fun x => { x with eot := ⟨false, some ⟨9000, 77, 4⟩⟩ })) := by
  decide +kernel

theorem witness_SledMotion_sledClearFault :
    (fun (sled : Fin 16) (s : State) => Sound s ∧ ((s.sled sled).eot.level = false ∧ (s.sled sled).home.level = false ∧ s.fld (R.SL_STATUS sled.val) F.SL_STATUS_FAULT ≠ 3)) ((3) : Fin 16) ((stUp.setFld (R.SL_STATUS 3) F.SL_STATUS_FAULT 4)) := by
  decide +kernel

theorem witness_SledMotion_sledClearFault_14 :
    (fun (sled : Fin 16) (s : State) => Sound s ∧ (s.fld (R.SL_STATUS sled.val) F.SL_STATUS_FAULT = 5 ∧ (s.sled sled).home.level = true)) ((3) : Fin 16) (((stUp.setFld (R.SL_STATUS 3) F.SL_STATUS_FAULT 5).modSled 3 fun x => { x with home := ⟨true, none⟩ })) := by
  decide +kernel

theorem witness_SledMotion_sledTargetWrite :
    (fun (sled : Fin 16) (val : Word) (s : State) => Sound s ∧ ((s.reg (R.SL_LIMIT_LO sled.val)).toInt ≤ val.toInt ∧ val.toInt ≤ (s.reg (R.SL_LIMIT_HI sled.val)).toInt)) ((3) : Fin 16) ((0x12345) : Word) (((stUp.setReg (R.SL_LIMIT_LO 3) 0).setReg (R.SL_LIMIT_HI 3) 0x100000)) := by
  decide +kernel

theorem witness_SledMotion_sledTargetWrite_16 :
    (fun (sled : Fin 16) (val : Word) (s : State) => Sound s ∧ ((s.reg (R.SL_LIMIT_HI sled.val)).toInt < val.toInt ∧ (s.reg (R.SL_LIMIT_LO sled.val)).toInt ≤ (s.reg (R.SL_LIMIT_HI sled.val)).toInt)) ((3) : Fin 16) ((0x00005678) : Word) (((stUp.setReg (R.SL_LIMIT_LO 3) 0).setReg (R.SL_LIMIT_HI 3) 100)) := by
  decide +kernel

theorem witness_SledMotion_slReref :
    (fun (b : Fin 24) (u : Upset) (i : Ins) (n : Fin 16) (s : State) => Sound s ∧ (Issues s b u i ∧ i.op = 0x62 ∧ AimsAt s b i famSL n ∧ s.headPopulated n.val = true ∧ s.fld (R.SL_STATUS n.val) F.SL_STATUS_FAULT = 0 ∧
    (s.sled n).st ≠ .home ∧ ((s.bob b).get i.rd).toNat ≤ s.now ∧ s.now ≤ ((s.bob b).get i.rd).toNat + 1536000)) ((16) : Fin 24) ((.none) : Upset) ((insA 0x620118A0) : Ins) ((0) : Fin 16) (((stIns 0x620118A0).modBob 16 fun x => { x with g := x.g.set 2 999000 })) := by
  decide +kernel

theorem witness_SledMotion_slReref_19 :
    (fun (b : Fin 24) (u : Upset) (i : Ins) (n : Fin 16) (s : State) => Sound s ∧ (Issues s b u i ∧ i.op = 0x62 ∧ AimsAt s b i famSL n ∧ s.headPopulated n.val = true ∧ s.fld (R.SL_STATUS n.val) F.SL_STATUS_FAULT = 0 ∧
    (s.sled n).st ≠ .home ∧ s.now < ((s.bob b).get i.rd).toNat)) ((16) : Fin 24) ((.none) : Upset) ((insA 0x620118A0) : Ins) ((0) : Fin 16) (((stIns 0x620118A0).modBob 16 fun x => { x with g := x.g.set 2 2000000 })) := by
  decide +kernel

theorem witness_IslandReadings_slPos :
    (fun (b : Fin 24) (u : Upset) (i : Ins) (n : Fin 16) (s : State) => Sound s ∧ (Issues s b u i ∧ i.op = 0x61 ∧ AimsAt s b i famSL n)) ((16) : Fin 24) ((.none) : Upset) ((insA 0x610118A0) : Ins) ((0) : Fin 16) ((stIns 0x610118A0)) := by
  decide +kernel

theorem witness_IslandReadings_spStat :
    (fun (b : Fin 24) (u : Upset) (i : Ins) (s : State) => Sound s ∧ (Issues s b u i ∧ i.op = 0x65 ∧ s.capBit b famSP = true)) ((16) : Fin 24) ((.none) : Upset) ((insA 0x650118A0) : Ins) ((stIns 0x650118A0)) := by
  decide +kernel

theorem witness_IslandReadings_lpStat :
    (fun (b : Fin 24) (u : Upset) (i : Ins) (k : Fin 96) (n : Fin 16) (s : State) => Sound s ∧ (Issues s b u i ∧ i.op = 0x6A ∧ s.capBit b famLP = true ∧ (valA s b i).toNat % 128 = k.val ∧ slotHead s k = some n ∧
    s.capBit b (16 + n.val) = true ∧ s.headInService n.val = true)) ((16) : Fin 24) ((.none) : Upset) ((insA 0x6A0114A0) : Ins) ((3) : Fin 96) ((0) : Fin 16) ((stIns 0x6A0114A0)) := by
  decide +kernel

theorem witness_IslandReadings_dcStat :
    (fun (b : Fin 24) (u : Upset) (i : Ins) (s : State) => Sound s ∧ (Issues s b u i ∧ i.op = 0x6D ∧ s.capBit b famDC = true)) ((16) : Fin 24) ((.none) : Upset) ((insA 0x6D0114A0) : Ins) ((stIns 0x6D0114A0)) := by
  decide +kernel

theorem witness_IslandReadings_dcSubmit :
    (fun (b : Fin 24) (u : Upset) (i : Ins) (s : State) => Sound s ∧ (Issues s b u i ∧ i.op = 0x6C ∧ s.capBit b famDC = true ∧ 1 ≤ i.fn ∧ i.fn ≤ 5 ∧ 0x100000 ≤ (valA s b i).toNat ∧
    (valA s b i).toNat + 136 ≤ 0x200000 ∧ s.workQueued < 64 ∧ (s.bob b).occupied < 32)) ((16) : Fin 24) ((.none) : Upset) ((insA 0x6C011002) : Ins) (((stIns 0x6C011002).modBob 16 fun x => { x with g := x.g.set 4 0x100000 })) := by
  decide +kernel

theorem witness_IslandReadings_dcSubmit_5 :
    (fun (b : Fin 24) (u : Upset) (i : Ins) (s : State) => Sound s ∧ (Issues s b u i ∧ i.op = 0x6C ∧ s.capBit b famDC = true ∧ (i.fn = 0 ∨ 5 < i.fn))) ((16) : Fin 24) ((.none) : Upset) ((insA 0x6C011006) : Ins) (((stIns 0x6C011006).modBob 16 fun x => { x with g := x.g.set 4 0x100000 })) := by
  decide +kernel

theorem witness_IslandReadings_evLog :
    (fun (b : Fin 24) (u : Upset) (i : Ins) (s : State) => Sound s ∧ (Issues s b u i ∧ i.op = 0x78 ∧ s.capBit b famEV = true ∧ 0x6800 ≤ (valA s b i).toNat % 65536 ∧ (valA s b i).toNat % 65536 ≤ 0x6FFF)) ((16) : Fin 24) ((.none) : Upset) ((insA 0x780110A0) : Ins) (((stIns 0x780110A0).modBob 16 fun x => { x with g := x.g.set 4 0x6801 })) := by
  decide +kernel

theorem witness_IslandReadings_evLog_7 :
    (fun (b : Fin 24) (u : Upset) (i : Ins) (s : State) => Sound s ∧ (Issues s b u i ∧ i.op = 0x78 ∧ s.capBit b famEV = true ∧ ((valA s b i).toNat % 65536 < 0x6800 ∨ 0x6FFF < (valA s b i).toNat % 65536))) ((16) : Fin 24) ((.none) : Upset) ((insA 0x780110A0) : Ins) (((stIns 0x780110A0).modBob 16 fun x => { x with g := x.g.set 4 0x7000 })) := by
  decide +kernel

theorem witness_SpindleCommands_spindleStart :
    (fun (_fltLow : Bool) (s : State) => Sound s ∧ (s.motion.spin.st = .stopped ∧ s.flag R.CAL_STATUS F.CAL_STATUS_TRIM_BUSY = false)) ((true) : Bool) stUp := by
  decide +kernel

theorem witness_SpindleCommands_spindleStart_1 :
    (fun (fltLow : Bool) (s : State) => Sound s ∧ (s.motion.spin.st = .fault ∧ fltLow = false ∧ (s.fld R.SP_STATUS F.SP_STATUS_FAULT ≠ 2 ∨ s.motion.spin.current ≤ s.fld R.SP_PROT F.SP_PROT_OC_TRIP) ∧ s.flag R.CAL_STATUS F.CAL_STATUS_TRIM_BUSY = false)) ((false) : Bool) ((stUp.setFld R.SP_STATUS F.SP_STATUS_FAULT 2).modSpin fun x => { x with st := .fault, attempt := 3 }) := by
  decide +kernel

theorem witness_SpindleCommands_spindleStart_2 :
    (fun (fltLow : Bool) (s : State) => Sound s ∧ (s.motion.spin.st = .fault ∧ fltLow = true ∧ s.fld R.SP_STATUS F.SP_STATUS_FAULT = 1 ∧ s.flag R.CAL_STATUS F.CAL_STATUS_TRIM_BUSY = false)) ((true) : Bool) ((stUp.setFld R.SP_STATUS F.SP_STATUS_FAULT 1).modSpin fun x => { x with st := .fault }) := by
  decide +kernel

theorem witness_SpindleCommands_spindleStart_3 :
    (fun (_fltLow : Bool) (s : State) => Sound s ∧ (s.motion.spin.st = .fault ∧ (s.fld R.SP_PROT F.SP_PROT_OC_TRIP : Int) < s.motion.spin.current ∧ s.fld R.SP_STATUS F.SP_STATUS_FAULT = 2 ∧ s.flag R.CAL_STATUS F.CAL_STATUS_TRIM_BUSY = false)) ((false) : Bool) ((stUp.setFld R.SP_STATUS F.SP_STATUS_FAULT 2).modSpin fun x => { x with st := .fault, current := 5000 }) := by
  decide +kernel

theorem witness_SpindleCommands_spindleStart_4 :
    (fun (_fltLow : Bool) (s : State) => Sound s ∧ (s.flag R.CAL_STATUS F.CAL_STATUS_TRIM_BUSY = true ∨ s.motion.spin.st = .stopping)) ((true) : Bool) ((stUp.setReg R.CAL_STATUS 0xFFFFFFFF)) := by
  decide +kernel

theorem witness_SpindleCommands_spindleStart_5 :
    (fun (b : Fin 24) (u : Upset) (i : Ins) (_fltLow : Bool) (s : State) => Sound s ∧ (Issues s b u i ∧ i.op = 0x64 ∧ s.capBit b famSP = true ∧ i.fn = 0 ∧ s.motion.spin.st = .stopped ∧
    s.flag R.CAL_STATUS F.CAL_STATUS_TRIM_BUSY = false)) ((16) : Fin 24) ((.none) : Upset) ((insA 0x640110A0) : Ins) ((true) : Bool) ((stIns 0x640110A0)) := by
  decide +kernel

theorem witness_SpindleCommands_spindleStart_6 :
    (fun (b : Fin 24) (u : Upset) (i : Ins) (_fltLow : Bool) (s : State) => Sound s ∧ (Issues s b u i ∧ i.op = 0x64 ∧ s.capBit b famSP = true ∧ 2 < i.fn)) ((16) : Fin 24) ((.none) : Upset) ((insA 0x640110A3) : Ins) ((true) : Bool) ((stIns 0x640110A3)) := by
  decide +kernel

theorem witness_SpindleCommands_spindleStop :
    (fun  (s : State) => Sound s ∧ (s.motion.spin.st = .run ∧ 1200 * 16 < s.fld R.SP_REF F.SP_REF_REF))  (((stUp.setFld R.SP_REF F.SP_REF_REF 40000).modSpin fun x => { x with st := .run, t60 := 300000, duty := 900, restart := true })) := by
  decide +kernel

theorem witness_SpindleCommands_spindleStop_8 :
    (fun  (s : State) => Sound s ∧ (s.motion.spin.st = .run ∧ s.fld R.SP_REF F.SP_REF_REF ≤ 1200 * 16))  (((stUp.setFld R.SP_REF F.SP_REF_REF 19200).modSpin fun x => { x with st := .run, t60 := 300000, duty := 900 })) := by
  decide +kernel

theorem witness_SpindleCommands_spindleStop_9 :
    (fun  (s : State) => Sound s ∧ (s.motion.spin.st = .listen ∨ s.motion.spin.st = .brake ∨ s.motion.spin.st = .align ∨ s.motion.spin.st = .openLoop))  ((stUp.modSpin fun x => { x with st := .align, duty := 900 })) := by
  decide +kernel

theorem witness_SpindleCommands_spindleStop_10 :
    (fun  (s : State) => Sound s ∧ (s.motion.spin.st = .stopped))  ((stUp.modSpin fun x => { x with restart := true })) := by
  decide +kernel

theorem witness_SpindleCommands_spindleStop_11 :
    (fun (b : Fin 24) (u : Upset) (i : Ins) (s : State) => Sound s ∧ (Issues s b u i ∧ i.op = 0x64 ∧ s.capBit b famSP = true ∧ i.fn = 1 ∧ s.motion.spin.st = .run ∧ 1200 * 16 < s.fld R.SP_REF F.SP_REF_REF)) ((16) : Fin 24) ((.none) : Upset) ((insA 0x640110A1) : Ins) ((((stIns 0x640110A1).setFld R.SP_REF F.SP_REF_REF 40000).modSpin fun x => { x with st := .run, duty := 900 })) := by
  decide +kernel

theorem witness_SpindleCommands_spindleDemandSet :
    (fun (_d : Fin 128) (s : State) => Sound s ∧ (s.motion.spin.st ≠ .stopping ∧ s.motion.claims = [] ∧ s.motion.waiting = [])) ((37) : Fin 128) stUp := by
  decide +kernel

theorem witness_SpindleCommands_spindleDemandSet_13 :
    (fun (b : Fin 24) (u : Upset) (i : Ins) (s : State) => Sound s ∧ (Issues s b u i ∧ i.op = 0x64 ∧ s.capBit b famSP = true ∧ i.fn = 2)) ((16) : Fin 24) ((.none) : Upset) ((insA 0x640110A2) : Ins) ((stIns 0x640110A2)) := by
  decide +kernel

theorem witness_SpindleCommands_spindleDemandSet_14 :
    (fun (b : Fin 24) (u : Upset) (i : Ins) (s : State) => Sound s ∧ (Issues s b u i ∧ i.op = 0x64 ∧ s.capBit b famSP = false ∧ i.fn = 2)) ((16) : Fin 24) ((.none) : Upset) ((insA 0x640110A2) : Ins) (((stIns 0x640110A2).setReg (R.SQ_BOB_CAP 16) 0)) := by
  decide +kernel

theorem witness_SpindleCommands_spindleDemand :
    (fun (demand : Int) (s : State) => Sound s ∧ (s.motion.spin.st = .run ∧ 0 ≤ demand ∧ demand < 8388608)) ((4194304) : Int) ((stUp.modSpin fun x => { x with st := .run })) := by
  decide +kernel

theorem witness_SpindleCommands_spindleDemand_16 :
    (fun (demand : Int) (s : State) => Sound s ∧ (s.motion.spin.st = .run ∧ demand < 0)) ((-5) : Int) ((stUp.modSpin fun x => { x with st := .run })) := by
  decide +kernel

theorem witness_SpindleInTime_bemfCrossing :
    (fun (phase : Fin 3) (rising : Bool) (stamp : Stamp) (s : State) => Sound s ∧ (s.motion.spin.st = .run ∧ crossingSector phase rising = s.motion.spin.sector ∧ s.motion.spin.next = none ∧
    64 * s.motion.spin.tk + s.motion.spin.t60 * s.fld R.SP_COMM_CFG F.SP_COMM_CFG_DEMAG ≤ 64 * stamp ∧ stamp < forcedAt s)) ((1) : Fin 3) ((true) : Bool) ((990000) : Stamp) ((stUp.modSpin fun x => { x with st := .run, sector := 1, t60 := 300000, tk := 900000, misses := 2, crossings := [(0, 690000), (5, 390000)] })) := by
  decide +kernel

theorem witness_SpindleInTime_bemfCrossing_1 :
    (fun (_phase : Fin 3) (_rising : Bool) (_stamp : Stamp) (s : State) => Sound s ∧ (s.motion.spin.st = .listen ∧ s.motion.spin.stage = .plain)) ((1) : Fin 3) ((true) : Bool) ((990000) : Stamp) ((stUp.modSpin fun x => { x with st := .listen, crossings := [(0, 690000)] })) := by
  decide +kernel

theorem witness_SpindleInTime_commutation :
    (fun (at' : Stamp) (s : State) => Sound s ∧ (s.motion.spin.st = .run ∧ s.motion.spin.stage = .plain ∧ s.motion.spin.next = some at' ∧ at' ≤ s.now)) ((990000) : Stamp) ((stUp.modSpin fun x => { x with st := .run, sector := 5, t60 := 300000, next := some 990000 })) := by
  decide +kernel

theorem witness_SpindleInTime_commutation_3 :
    (fun (at' : Stamp) (s : State) => Sound s ∧ (s.motion.spin.st = .listen ∧ s.motion.spin.stage = .catching ∧ s.motion.spin.next = some at' ∧ at' ≤ s.now)) ((990000) : Stamp) ((stUp.modSpin fun x => { x with st := .listen, stage := .catching, sector := 5, t60 := 300000, next := some 990000, attempt := 1 })) := by
  decide +kernel

theorem witness_SpindleInTime_forcedCommutation :
    (fun  (s : State) => Sound s ∧ (s.motion.spin.st = .run ∧ s.motion.spin.next = none ∧ 0 < s.motion.spin.t60 ∧ forcedAt s ≤ s.now ∧ s.motion.spin.misses < 2))  ((stUp.modSpin fun x => { x with st := .run, sector := 5, t60 := 30000, tk := 500000, misses := 1 })) := by
  decide +kernel

theorem witness_SpindleInTime_forcedCommutation_5 :
    (fun  (s : State) => Sound s ∧ (s.motion.spin.st = .run ∧ s.motion.spin.next = none ∧ 0 < s.motion.spin.t60 ∧ forcedAt s ≤ s.now ∧ s.motion.spin.misses = 2 ∧
    s.motion.spin.attempt = 0))  ((stUp.modSpin fun x => { x with st := .run, sector := 5, t60 := 30000, tk := 500000, misses := 2, duty := 700 })) := by
  decide +kernel

theorem witness_SpindleInTime_commutation_6 :
    (fun (at' : Stamp) (s : State) => Sound s ∧ (s.motion.spin.st = .lost ∧ s.motion.spin.stage = .catching ∧ s.motion.spin.next = some at' ∧ at' ≤ s.now)) ((990000) : Stamp) ((stUp.modSpin fun x => { x with st := .lost, stage := .catching, sector := 5, t60 := 300000, next := some 990000 })) := by
  decide +kernel

theorem witness_SpindleInTime_lostRotorTimeout :
    (fun  (s : State) => Sound s ∧ (s.motion.spin.st = .lost ∧ s.motion.spin.stage = .plain ∧ s.motion.spin.since + 75000000 ≤ s.now))  (({ (stUp.modSpin fun x => { x with st := .lost, since := 4000 }) with time := { stUp.time with tb := 76000000 } })) := by
  decide +kernel

theorem witness_SpindleInTime_listenEnd :
    (fun  (s : State) => Sound s ∧ (s.motion.spin.st = .listen ∧ s.motion.spin.stage = .plain ∧ s.motion.spin.crossings = [] ∧ s.motion.spin.since + 30000000 ≤ s.now ∧
    s.cal.copied = true))  ((({ (stUp.modSpin fun x => { x with st := .listen, since := 4000 }) with time := { stUp.time with tb := 76000000 } }).modCal fun c => { c with copied := true })) := by
  decide +kernel

theorem witness_SpindleInTime_brakeBurstEnd :
    (fun  (s : State) => Sound s ∧ (s.motion.spin.stage = .burst ∧ s.motion.spin.since + 75000000 ≤ s.now))  (({ (stUp.modSpin fun x => { x with st := .brake, stage := .burst, since := 4000, duty := 50 }) with time := { stUp.time with tb := 76000000 } })) := by
  decide +kernel

theorem witness_SpindleInTime_alignEnd :
    (fun  (s : State) => Sound s ∧ (s.motion.spin.st = .align ∧ s.motion.spin.since + s.fld R.SP_ALIGN_CFG F.SP_ALIGN_CFG_ALIGN_T * 1500000 ≤ s.now))  (({ (stUp.modSpin fun x => { x with st := .align, since := 4000, steps := 9 }) with time := { stUp.time with tb := 7600000000 } })) := by
  decide +kernel

theorem witness_SpindleInTime_openLoopCommutation :
    (fun  (s : State) => Sound s ∧ (s.motion.spin.st = .openLoop ∧
    5 * (s.motion.spin.steps + 1) * 1500000000 ^ 2 ≤ 4 * s.fld R.SP_ALIGN_CFG F.SP_ALIGN_CFG_OL_ACC * (s.now - s.motion.spin.since) ^ 2 ∧
    4 * s.fld R.SP_ALIGN_CFG F.SP_ALIGN_CFG_OL_ACC * (s.now - s.motion.spin.since) < 16 * s.fld R.SP_COMM_CFG F.SP_COMM_CFG_HANDOVER * 1500000000))  (((({ (stUp.modSpin fun x => { x with st := .openLoop, since := 4000, sector := 5 }) with time := { stUp.time with tb := 150000000 } }).setReg R.SP_COMM_CFG 0xFFFFFFFF).setReg R.SP_ALIGN_CFG 0xFFFFFFFF)) := by
  decide +kernel

theorem witness_SpindleInTime_stopShortEnd :
    (fun  (s : State) => Sound s ∧ (s.motion.spin.st = .stopping ∧ s.motion.spin.stage = .short ∧ s.motion.spin.since + 3000000000 ≤ s.now ∧ s.motion.spin.restart = false))  (({ (stUp.modSpin fun x => { x with st := .stopping, stage := .short, since := 4000, duty := 9 }) with time := { stUp.time with tb := 7600000000 } })) := by
  decide +kernel

theorem witness_SpindleInTime_spindleOverCurrent :
    (fun (first second : Int) (s : State) => Sound s ∧ ((s.fld R.SP_PROT F.SP_PROT_OC_TRIP : Int) < first ∧ (s.fld R.SP_PROT F.SP_PROT_OC_TRIP : Int) < second ∧ s.motion.spin.st = .run)) ((5000) : Int) ((5000) : Int) ((stUp.modSpin fun x => { x with st := .run, duty := 900, next := some 5 })) := by
  decide +kernel

theorem witness_SpindleInTime_spindleOverCurrent_15 :
    (fun (first second : Int) (s : State) => Sound s ∧ ((s.fld R.SP_PROT F.SP_PROT_OC_TRIP : Int) < first ∧ (s.fld R.SP_PROT F.SP_PROT_OC_TRIP : Int) < second ∧ s.motion.spin.st = .align ∧
    s.motion.spin.attempt ≤ s.fld R.SP_ALIGN_CFG F.SP_ALIGN_CFG_RETRIES)) ((5000) : Int) ((5000) : Int) ((stUp.modSpin fun x => { x with st := .align, attempt := 1 })) := by
  decide +kernel

theorem witness_SpindleInTime_governorUpdate :
    (fun  (s : State) => Sound s ∧ (s.now % 1500000 = 0 ∧ s.motion.spin.st = .stopping ∧ s.motion.spin.stage ≠ .ramp))  (({ ((stUp.setFld R.SP_REF F.SP_REF_REF 40000).modSpin fun x => { x with st := .stopping }) with time := { stUp.time with tb := 3000000 } })) := by
  decide +kernel

theorem witness_SpindleInTime_governorUpdate_17 :
    (fun  (s : State) => Sound s ∧ (s.now % 1500000 = 0 ∧ s.motion.spin.st = .stopping ∧ s.motion.spin.stage = .ramp ∧ s.fld R.SP_REF F.SP_REF_REF ≤ 19200 + 1 ∧
    19200 ≤ s.fld R.SP_REF F.SP_REF_REF ∧ 63 ≤ s.fld R.SP_GOV F.SP_GOV_RATE))  (({ ((stUp.setFld R.SP_REF F.SP_REF_REF 19201).modSpin fun x => { x with st := .stopping, stage := .ramp, duty := 900 }) with time := { stUp.time with tb := 3000000 } })) := by
  decide +kernel

theorem witness_SpindleInTime_thermalModelUpdate :
    (fun  (s : State) => Sound s ∧ (s.now % 1500000 = 0 ∧ s.motion.spin.msSum = 0))  (({ (stUp.modSpin fun x => { x with therm := 100000, msSum := 0, msCnt := 20 }) with time := { stUp.time with tb := 3000000 } })) := by
  decide +kernel

theorem witness_SpindleInTime_pwmPeriod :
    (fun (_current : Int) (s : State) => Sound s ∧ (s.motion.spin.lastPwm + 15 * s.fld R.SP_PWM F.SP_PWM_PERIOD / 2 ≤ s.now)) ((321) : Int) ((stUp.modSpin fun x => { x with st := .run, dutyNext := some 1234 })) := by
  decide +kernel

theorem witness_SpindleInTime_claimSatisfied :
    (fun (head : Fin 16) (o : OpenReq) (n : Nat) (l tr : Nat) (s : State) => Sound s ∧ ((s.head head).opening = some o ∧ o.stage = .claim ∧ o.desc.mode = .read ∧ s.motion.waiting.lookup head.val = some n ∧ claimMet s n = true ∧
    flyReady s head = true ∧ (s.head head).fly.expected = some (l, tr) ∧ ((tr : Int) - (12 * o.desc.start + 5)).natAbs ≤ 12)) ((0) : Fin 16) ((⟨⟨2, 2049, 0⟩, passA.desc, passA.cfg, .claim, [], 0⟩) : OpenReq) ((40) : Nat) ((2) : Nat) ((120) : Nat) ((((stLink.setReg (R.HD_FLY_STATUS 0) 3).modHead 0 fun h => { h with opening := some ⟨⟨2, 2049, 0⟩, passA.desc, passA.cfg, .claim, [], 0⟩, fly := { h.fly with expected := some (2, 120), frames := [⟨1, 60000⟩, ⟨0, 1000⟩] } }).setReg R.SP_REF 0).claimOpen 0 40) := by
  decide +kernel

theorem witness_SpindleInTime_claimSatisfied_21 :
    (fun (head : Fin 16) (o : OpenReq) (n : Nat) (s : State) => Sound s ∧ ((s.head head).opening = some o ∧ o.stage = .claim ∧ s.motion.waiting.lookup head.val = some n ∧ claimMet s n = true ∧ flyReady s head = false)) ((0) : Fin 16) ((⟨⟨2, 2049, 0⟩, passA.desc, passA.cfg, .claim, [], 0⟩) : OpenReq) ((40) : Nat) ((((stLink.setReg (R.HD_FLY_STATUS 0) 0).modHead 0 fun h => { h with opening := some ⟨⟨2, 2049, 0⟩, passA.desc, passA.cfg, .claim, [], 0⟩ }).setReg R.SP_REF 0).claimOpen 0 40) := by
  decide +kernel

theorem witness_MemoryAccess_memoryRead :
    (fun (_cls : Fin 7) (addr len : Nat) (s : State) => Sound s ∧ (0 < len ∧ WordsClean s addr len)) ((2) : Fin 7) ((0x1003) : Nat) ((9) : Nat) memA := by
  decide +kernel

theorem witness_MemoryAccess_memoryRead_1 :
    (fun (_cls : Fin 7) (addr : Nat) (s : State) => Sound s ∧ (addr % 8 = 0 ∧ addr + 8 ≤ s.memSize ∧ s.memOn = true ∧
    (decodeWord (s.erasedDevice (s.memSub addr)) (s.memSymbols addr)).1 = .uncorrectable)) ((2) : Fin 7) ((0x1000) : Nat) stUp := by
  decide +kernel

theorem witness_MemoryAccess_memoryWrite :
    (fun (_cls : Fin 7) (addr : Nat) (bytes : List Byte) (s : State) => Sound s ∧ (WordsClean s addr bytes.length ∧ s.flag R.MC_FLIP_ADDR_HI F.MC_FLIP_ADDR_HI_ARMED = false)) ((2) : Fin 7) ((0x1003) : Nat) (([0xAB, 0xCD, 0, 0xEF, 0x12, 0x34, 0x56]) : List Byte) memA := by
  decide +kernel

theorem witness_MemoryAccess_memoryWrite_3 :
    (fun (_cls : Fin 7) (addr : Nat) (bytes : List Byte) (s : State) => Sound s ∧ (addr % 8 = 0 ∧ bytes.length = 8 ∧ addr + 8 ≤ s.memSize ∧ s.memOn = true ∧ s.flag R.MC_FLIP_ADDR_HI F.MC_FLIP_ADDR_HI_ARMED = false)) ((2) : Fin 7) ((0x1000) : Nat) (([1, 2, 3, 4, 5, 6, 7, 8]) : List Byte) stUp := by
  decide +kernel

theorem witness_MemoryAccess_memoryWrite_4 :
    (fun (_cls : Fin 7) (addr : Nat) (_v : Byte) (s : State) => Sound s ∧ (addr / 8 * 8 + 8 ≤ s.memSize ∧ s.memOn = true ∧
    (decodeWord (s.erasedDevice (s.memSub (addr / 8 * 8))) (s.memSymbols (addr / 8 * 8))).1 = .uncorrectable)) ((2) : Fin 7) ((0x1003) : Nat) ((0xAB) : Byte) stUp := by
  decide +kernel

theorem witness_MemoryAccess_memoryWrite_5 :
    (fun (_cls : Fin 7) (addr : Nat) (bytes : List Byte) (s : State) => Sound s ∧ (s.memOn = true ∧ 0 < bytes.length ∧ s.memSize ≤ addr)) ((2) : Fin 7) ((0x2000000000) : Nat) (([1, 2]) : List Byte) stUp := by
  decide +kernel

theorem witness_MemoryAccess_eccWriteBack :
    (fun (a : Nat) (rest : List Nat) (p : Nat) (d : List Nat) (s : State) => Sound s ∧ (s.mem.wbQ = a :: rest ∧ a % 8 = 0 ∧ decodeWord (s.erasedDevice (s.memSub a)) (s.memSymbols a) = (.corrected p, d) ∧ d.length = 8)) ((0x1000) : Nat) (([8]) : List Nat) ((2) : Nat) (([1, 2, 3, 4, 5, 6, 7, 8]) : List Nat) ((({ memA with mem := { memA.mem with wbQ := [0x1000, 8] } }).storeSymbols 0x1000 ([1, 2, 0x77, 4, 5, 6, 7, 8] ++ checkSymbols [1, 2, 3, 4, 5, 6, 7, 8]))) := by
  decide +kernel

theorem witness_MemoryAccess_patrolScrubRead :
    (fun  (s : State) => Sound s ∧ (s.memReady = true ∧ s.flag R.MC_SCRUB_CFG F.MC_SCRUB_CFG_EN = true ∧ s.mem.scrubAt ≤ s.now ∧
    WordsClean s (s.fld R.MC_SCRUB_STATUS F.MC_SCRUB_STATUS_PTR * 64) 64 ∧
    (s.fld R.MC_SCRUB_STATUS F.MC_SCRUB_STATUS_PTR + 1) * 64 < s.memSize))  (((stUp.memWrite 2 0 (List.range 64)).setReg R.MC_SCRUB_CFG 0xFFFFFFFF)) := by
  decide +kernel

theorem witness_MemoryAccess_eccEraseWrite :
    (fun (val : Word) (s : State) => Sound s ∧ (∀ k ∈ List.range 4, 4 < natBits val.toNat (3 * k + 2) (3 * k))) ((0xFFFFFFFF) : Word) stUp := by
  decide +kernel

theorem witness_MemoryAccess_eccCountClear :
    (fun (val : Word) (s : State) => Sound s ∧ (getFlag val F.MC_ECC_CFG_CLR = true)) ((0xFFFFFFFF) : Word) ((stUp.setReg R.MC_ECC_CNT 0x12345678)) := by
  decide +kernel

theorem witness_MemoryAccess_eccCountClear_10 :
    (fun (val : Word) (s : State) => Sound s ∧ (getFlag val F.MC_ECC_CFG_CLR = false)) ((0) : Word) ((stUp.setReg R.MC_ECC_CNT 0x12345678)) := by
  decide +kernel

theorem witness_MemoryAccess_flipArm :
    (fun (_lo _hi : Word) (s : State) => Sound s ∧ (testBitN (s.fld R.SEC_STATUS F.SEC_STATUS_DBG) 2 = true)) ((0x1007) : Word) ((0x12) : Word) ((stUp.setReg R.SEC_STATUS 0xFFFFFFFF)) := by
  decide +kernel

theorem witness_MemoryAccess_flipArm_12 :
    (fun (_lo _hi : Word) (s : State) => Sound s ∧ (testBitN (s.fld R.SEC_STATUS F.SEC_STATUS_DBG) 2 = false)) ((0x1007) : Word) ((0x12) : Word) ((stUp.setReg R.SEC_STATUS 0)) := by
  decide +kernel

theorem witness_MemoryService_refresh :
    (fun (sub : Fin 4) (ingestWaits : Bool) (s : State) => Sound s ∧ (s.memReady = true ∧ sub.val < 2 ^ s.memW ∧ (s.sub sub.val).refreshAt ≤ s.now ∧ ingestWaits = true ∧ (s.sub sub.val).postponed < 4)) ((1) : Fin 4) ((true) : Bool) stUp := by
  decide +kernel

theorem witness_MemoryService_refresh_1 :
    (fun (sub : Fin 4) (ingestWaits : Bool) (s : State) => Sound s ∧ (s.memReady = true ∧ sub.val < 2 ^ s.memW ∧ (s.sub sub.val).refreshAt ≤ s.now ∧ (ingestWaits = false ∨ 4 ≤ (s.sub sub.val).postponed))) ((1) : Fin 4) ((true) : Bool) ((stUp.modSub 1 fun x => { x with postponed := 4 })) := by
  decide +kernel

theorem witness_MemoryService_mr4Read :
    (fun (sub : Fin 4) (_value : Fin 256) (s : State) => Sound s ∧ (s.memReady = true ∧ sub.val < 2 ^ s.memW ∧ s.now % 1500000 = 0)) ((1) : Fin 4) ((3) : Fin 256) (({ stUp with time := { stUp.time with tb := 3000000 } })) := by
  decide +kernel

theorem witness_MemoryService_activateTableClear :
    (fun  (s : State) => Sound s ∧ (s.now % 48000000 = 0))  (({ (stUp.setBank 5 ⟨some (7, 9), [(7, 3)], 0⟩) with time := { stUp.time with tb := 48000000 } })) := by
  decide +kernel

theorem witness_MemoryService_neighbourRefresh :
    (fun (sub : Fin 4) (bank : Fin 32) (row : Nat) (drfm : Bool) (s : State) => Sound s ∧ (((s.bank (32 * sub.val + bank.val)).acts.any fun e => e.1 == row && decide (s.fld R.MC_ACT_CFG F.MC_ACT_CFG_THR ≤ e.2)) = true ∧ drfm = false)) ((1) : Fin 4) ((5) : Fin 32) ((7) : Nat) ((false) : Bool) ((stUp.setBank 37 ⟨some (7, 9), [(7, 0xFFFFFFFF), (8, 2)], 0⟩)) := by
  decide +kernel

theorem witness_MemoryService_pageIdlePrecharge :
    (fun (sub : Fin 4) (bank : Fin 32) (row : Nat) (at' : Stamp) (s : State) => Sound s ∧ ((s.bank (32 * sub.val + bank.val)).row = some (row, at') ∧ at' ≤ s.now)) ((1) : Fin 4) ((5) : Fin 32) ((7) : Nat) ((9) : Stamp) ((stUp.setBank 37 ⟨some (7, 9), [(7, 3)], 0⟩)) := by
  decide +kernel

theorem witness_MemoryService_memoryEnable :
    (fun (val : Word) (s : State) => Sound s ∧ (s.memOn = false ∧ getField val F.MC_CFG_ENABLE = 1 ∧ s.flag R.MC_STATUS F.MC_STATUS_FC_BUSY = false)) ((0xFFFFFFFF) : Word) stRun := by
  decide +kernel

theorem witness_MemoryService_mrw :
    (fun (_scmask : Fin 16) (_mr _data : Fin 256) (s : State) => Sound s ∧ (s.memOn = false)) ((2) : Fin 16) ((5) : Fin 256) ((9) : Fin 256) stRun := by
  decide +kernel

theorem witness_MemoryService_mrw_8 :
    (fun (_scmask : Fin 16) (_mr _data : Fin 256) (s : State) => Sound s ∧ (s.memOn = true)) ((2) : Fin 16) ((5) : Fin 256) ((9) : Fin 256) stUp := by
  decide +kernel

theorem witness_MemoryService_mrr :
    (fun (_scmask : Fin 16) (_mr _answer : Fin 256) (s : State) => Sound s ∧ (s.memOn = false)) ((3) : Fin 16) ((5) : Fin 256) ((9) : Fin 256) stRun := by
  decide +kernel

theorem witness_MemoryService_mpc :
    (fun (_scmask : Fin 16) (_op : Fin 256) (s : State) => Sound s ∧ (s.memOn = false)) ((8) : Fin 16) ((5) : Fin 256) stRun := by
  decide +kernel

theorem witness_MemoryService_prechargeAll :
    (fun (_scmask : Fin 16) (s : State) => Sound s ∧ (s.memOn = false)) ((1) : Fin 16) ((stRun.setBank 5 ⟨some (7, 9), [(7, 3)], 0⟩)) := by
  decide +kernel

theorem witness_MemoryService_refreshAll :
    (fun (_scmask : Fin 16) (s : State) => Sound s ∧ (s.memOn = false)) ((4) : Fin 16) stRun := by
  decide +kernel

theorem witness_MemoryService_patternRun :
    (fun (_scmask : Fin 16) (_bursts : Fin 65536) (_errs : List (Fin 4 × Nat)) (s : State) => Sound s ∧ (s.memOn = false)) ((4) : Fin 16) ((0) : Fin 65536) (([(2, 0x300000005)]) : List (Fin 4 × Nat)) stRun := by
  decide +kernel

theorem witness_MemoryService_sweepStart :
    (fun  (s : State) => Sound s ∧ (s.memOn = false ∧ s.flag R.MC_STATUS F.MC_STATUS_SWEEP_BUSY = false))  ((stRun.setReg (R.MC_TSET0 0) 0x12345678)) := by
  decide +kernel

theorem witness_MemoryService_sweepStart_15 :
    (fun  (s : State) => Sound s ∧ (s.memOn = true))  stUp := by
  decide +kernel

theorem witness_MemoryService_frequencyChangeRequest :
    (fun (target : Fin 2) (s : State) => Sound s ∧ ((∀ n : Fin 16, (s.head n).pass = none ∧ (s.head n).opening = none) ∧ s.memOn = true ∧ s.flag R.MC_STATUS F.MC_STATUS_FC_BUSY = false ∧
    s.flag R.MC_STATUS F.MC_STATUS_SWEEP_BUSY = false ∧ target.val ≠ s.activeSet)) ((1) : Fin 2) ((stUp.setReg R.MC_STATUS 0)) := by
  decide +kernel

theorem witness_MemoryService_frequencyChangeRequest_17 :
    (fun (_target : Fin 2) (n : Fin 16) (s : State) => Sound s ∧ ((s.head n).pass.isSome = true)) ((1) : Fin 2) ((0) : Fin 16) stPass := by
  decide +kernel

theorem witness_MemoryService_frequencyChangeDone :
    (fun (q : Stamp) (target : Nat) (s : State) => Sound s ∧ (s.mem.change = some (q, target))) ((500) : Stamp) ((1) : Nat) (({ (stUp.setReg R.MC_STATUS 0) with mem := { stUp.mem with change := some (500, 1) } })) := by
  decide +kernel

theorem witness_DecodeEngines_firstPassBind :
    (fun (e : Fin 32) (b : Fin 2) (bad : Bool) (x : Sector) (s : State) => Sound s ∧ ((s.decode.engines[e].buf b) = none ∧ bad = false ∧ s.decode.reframeQ = [] ∧ s.outRingFull = false ∧ s.nextHeadRecord = some x ∧ s.sector x.id = some x ∧ x.spilled = none)) ((5) : Fin 32) ((1) : Fin 2) ((false) : Bool) ((secA 1 .waiting) : Sector) ((stPass.modDec fun d => { d with sectors := [secA 1 .waiting] })) := by
  decide +kernel

theorem witness_DecodeEngines_firstPassBind_1 :
    (fun (e : Fin 32) (b : Fin 2) (_bad : Bool) (s : State) => Sound s ∧ ((s.decode.engines[e].buf b).isSome = true)) ((5) : Fin 32) ((1) : Fin 2) ((false) : Bool) ((stPass.modDec fun d => { d with engines := d.engines.set 5 ⟨none, none, some 1⟩ })) := by
  decide +kernel

theorem witness_DecodeEngines_firstPassStart :
    (fun (e : Fin 32) (bufErr : Bool) (x : Sector) (s : State) => Sound s ∧ (s.decode.engines[e] = ⟨none, some x.id, none⟩ ∧ s.sector x.id = some x ∧ x.complete = true ∧ x.inBufAt ≤ s.now ∧ bufErr = false ∧
    x.framings.length < 2)) ((5) : Fin 32) ((false) : Bool) (({ secA 1 (.bound 5 0) with complete := true }) : Sector) ((stPass.modDec fun d => { d with sectors := [{ secA 1 (.bound 5 0) with complete := true }], engines := d.engines.set 5 ⟨none, some 1, none⟩ })) := by
  decide +kernel

theorem witness_DecodeEngines_firstPassIterationEnd :
    (fun (e : Fin 32) (c : DecodeCore) (x : Sector) (s : State) => Sound s ∧ (s.decode.engines[e].core = some c ∧ c.iterEnds ≤ s.now ∧ s.sector c.sector = some x ∧ c.contest = [] ∧ c.iter + 1 < c.cap)) ((5) : Fin 32) ((coreA) : DecodeCore) (({ secA 1 (.firstPass 5) with complete := true }) : Sector) ((stPass.modDec fun d => { d with sectors := [{ secA 1 (.firstPass 5) with complete := true }], engines := d.engines.set 5 ⟨some coreA, none, none⟩ })) := by
  decide +kernel

theorem witness_DecodeEngines_firstPassIterationEnd_4 :
    (fun (e : Fin 32) (c : DecodeCore) (s : State) => Sound s ∧ (s.decode.engines[e].core = some c ∧ c.iterEnds ≤ s.now ∧ s.sector c.sector = none)) ((5) : Fin 32) ((coreA) : DecodeCore) ((stPass.modDec fun d => { d with engines := d.engines.set 5 ⟨some coreA, none, none⟩ })) := by
  decide +kernel

theorem witness_DecodeEngines_deepStart :
    (fun (e : Fin 4) (bad : Bool) (d : DeepEntry) (rest : List DeepEntry) (x : Sector) (s : State) => Sound s ∧ (s.decode.deep[e] = none ∧ s.decode.deepQ = d :: rest ∧ s.sector d.sector = some x ∧ bad = false)) ((2) : Fin 4) ((false) : Bool) ((⟨1, 5, 500, 0x4000⟩) : DeepEntry) (([]) : List DeepEntry) (({ secA 1 .deepQueue with complete := true }) : Sector) ((stPass.modDec fun y => { y with sectors := [{ secA 1 .deepQueue with complete := true }], deepQ := [⟨1, 5, 500, 0x4000⟩] })) := by
  decide +kernel

theorem witness_DecodeEngines_deepIterationEnd :
    (fun (e : Fin 4) (c : DecodeCore) (x : Sector) (s : State) => Sound s ∧ (s.decode.deep[e] = some c ∧ c.iterEnds ≤ s.now ∧ s.sector c.sector = some x)) ((2) : Fin 4) ((coreA) : DecodeCore) (({ secA 1 (.deep 2) with complete := true }) : Sector) ((stPass.modDec fun d => { d with sectors := [{ secA 1 (.deep 2) with complete := true }], deep := d.deep.set 2 (some coreA) })) := by
  decide +kernel

theorem witness_DecodeEngines_deepIterationEnd_7 :
    (fun (e : Fin 4) (c : DecodeCore) (s : State) => Sound s ∧ (s.decode.deep[e] = some c ∧ c.iterEnds ≤ s.now ∧ s.sector c.sector = none)) ((2) : Fin 4) ((coreA) : DecodeCore) ((stPass.modDec fun d => { d with deep := d.deep.set 2 (some coreA) })) := by
  decide +kernel

theorem witness_DecodeWork_twillJobStart :
    (fun (g : Group) (rest : List Group) (s : State) => Sound s ∧ (s.decode.twill = none ∧ s.decode.twillEncQ = [] ∧ s.decode.twillQ = g :: rest ∧ 2 < popCount 16 g.unknownMask)) ((Group.fresh 0 7 2 10 3) : Group) (([]) : List Group) ((stPass.modDec fun d => { d with twillQ := [Group.fresh 0 7 2 10 3] })) := by
  decide +kernel

theorem witness_DecodeWork_twillJobStart_1 :
    (fun (w : DecWork) (rest : List DecWork) (s : State) => Sound s ∧ (s.decode.twill = none ∧ s.decode.twillEncQ = w :: rest)) ((⟨3, ⟨2, 2049, 0⟩, List.replicate 136 0, 9⟩) : DecWork) (([]) : List DecWork) ((stPass.modDec fun d => { d with twillEncQ := [⟨3, ⟨2, 2049, 0⟩, List.replicate 136 0, 9⟩], twillQ := [Group.fresh 0 7 2 10 3] })) := by
  decide +kernel

theorem witness_DecodeWork_twillJobStart_2 :
    (fun (w : DecWork) (rest : List DecWork) (s : State) => Sound s ∧ (s.decode.twill = none ∧ s.decode.twillEncQ = [] ∧ s.decode.twillQ = [] ∧ s.decode.twillDecQ = w :: rest)) ((⟨2, ⟨2, 2049, 0⟩, List.replicate 136 255, 9⟩) : DecWork) (([]) : List DecWork) ((stPass.modDec fun d => { d with twillDecQ := [⟨2, ⟨2, 2049, 0⟩, List.replicate 136 255, 9⟩] })) := by
  decide +kernel

theorem witness_DecodeWork_twillJobEnd :
    (fun (g : Group) (at' : Stamp) (s : State) => Sound s ∧ (s.decode.twill = some (.group g, at') ∧ at' ≤ s.now ∧ 2 < popCount 16 g.unknownMask ∧ s.outRingFull = false ∧ s.decode.waiting = [] ∧
    s.fld (R.DC_CNT 8) F.DC_CNT_COUNT < 4294967295 ∧
    (s.decode.runAhead.any fun r => r.isBand g.head g.pass g.layer g.band && r.claim.isNone) = false)) (({ Group.fresh 0 7 2 10 3 with closed := some 900 }) : Group) ((90000) : Stamp) ((stPass.modDec fun d => { d with twill := some (.group { Group.fresh 0 7 2 10 3 with closed := some 900 }, 90000) })) := by
  decide +kernel

theorem witness_DecodeWork_spJobStart :
    (fun (w : DecWork) (rest : List DecWork) (s : State) => Sound s ∧ (s.decode.sp = none ∧ s.decode.spQ = w :: rest ∧ w.op = 4 ∧ fieldAt w.bytes 0 4 % 4 ≠ 2)) ((⟨4, ⟨2, 2049, 0⟩, 1 :: List.replicate 135 0, 9⟩) : DecWork) (([]) : List DecWork) ((stPass.modDec fun d => { d with spQ := [⟨4, ⟨2, 2049, 0⟩, 1 :: List.replicate 135 0, 9⟩] })) := by
  decide +kernel

theorem witness_DecodeWork_spJobStart_5 :
    (fun (w : DecWork) (rest : List DecWork) (s : State) => Sound s ∧ (s.decode.sp = none ∧ s.decode.spQ = w :: rest ∧ w.op = 4 ∧ fieldAt w.bytes 0 4 % 4 = 2)) ((⟨4, ⟨2, 2049, 0⟩, 2 :: List.replicate 135 0, 9⟩) : DecWork) (([]) : List DecWork) ((stPass.modDec fun d => { d with spQ := [⟨4, ⟨2, 2049, 0⟩, 2 :: List.replicate 135 0, 9⟩] })) := by
  decide +kernel

theorem witness_DecodeWork_spJobEnd :
    (fun (w : DecWork) (at' : Stamp) (s : State) => Sound s ∧ (s.decode.sp = some (w, at') ∧ at' ≤ s.now ∧ 8 - (spInputs w).1 < (spInputs w).2.1.length)) ((⟨5, ⟨2, 2049, 0⟩, List.replicate 136 255, 9⟩) : DecWork) ((500) : Stamp) ((stPass.modDec fun d => { d with sp := some (⟨5, ⟨2, 2049, 0⟩, List.replicate 136 255, 9⟩, 500) })) := by
  exact ⟨by decide +kernel, by decide +kernel, by decide +kernel, sp_all_unknown⟩

theorem witness_DecodeWork_spJobEnd_7 :
    (fun (w : DecWork) (at' : Stamp) (s : State) => Sound s ∧ (s.decode.sp = some (w, at') ∧ at' ≤ s.now ∧ (spInputs w).2.1.length ≤ 8 - (spInputs w).1)) ((⟨4, ⟨2, 2049, 0⟩, List.replicate 136 0, 9⟩) : DecWork) ((500) : Stamp) (((stPass.modDec fun d => { d with sp := some (⟨4, ⟨2, 2049, 0⟩, List.replicate 136 0, 9⟩, 500) }))) := by
  decide +kernel

theorem witness_DecodeWork_decodeWorkArrival :
    (fun (w : DecWork) (rest : List DecWork) (s : State) => Sound s ∧ (s.decode.workXing = w :: rest)) ((⟨1, ⟨2, 2049, 0⟩, List.replicate 136 0, 0⟩) : DecWork) (([]) : List DecWork) ((stPass.modDec fun d => { d with workXing := [⟨1, ⟨2, 2049, 0⟩, List.replicate 136 0, 0⟩] })) := by
  decide +kernel

theorem witness_DecodeWork_runAheadDiscardReport :
    (fun (head : Fin 16) (layer band : Nat) (r : RunAhead) (s : State) => Sound s ∧ (s.decode.runAhead.find? (fun r => r.head == head.val && r.layer == layer && r.band == band && r.claim.isNone) = some r)) ((3) : Fin 16) ((2) : Nat) ((10) : Nat) ((⟨3, 7, 2, 10, 0, 4, 0, 500, none, 40, [], []⟩) : RunAhead) ((stPass.modDec fun d => { d with runAhead := [⟨3, 7, 2, 10, 0, 4, 0, 500, none, 40, [], []⟩] })) := by
  decide +kernel

theorem witness_DecodeWork_runAheadDiscardReport_10 :
    (fun (head : Fin 16) (layer band : Nat) (s : State) => Sound s ∧ (s.decode.runAhead.find? (fun r => r.head == head.val && r.layer == layer && r.band == band && r.claim.isNone) = none)) ((3) : Fin 16) ((2) : Nat) ((10) : Nat) stPass := by
  decide +kernel

theorem witness_DecodeWork_dcOutConsWrite :
    (fun (_val : Word) (s : State) => Sound s ∧ (s.decode.waiting = [])) ((0x12345) : Word) stPass := by
  decide +kernel

theorem witness_DecodeWork_dcCntClear :
    (fun (val : Word) (s : State) => Sound s ∧ (getFlag val F.DC_CNT_CLR_CLEAR = true)) ((0xFFFFFFFF) : Word) (((stPass.setReg (R.DC_CNT 3) 5).setReg (R.DC_CNT 11) 7)) := by
  decide +kernel

theorem witness_DecodeWork_dcBaseWrite :
    (fun (ra : Bool) (_lo _hi : Word) (s : State) => Sound s ∧ ((∀ n : Fin 16, (s.head n).pass = none) ∧ ra = false)) ((false) : Bool) ((0x12345678) : Word) ((0x123) : Word) stUp := by
  decide +kernel

theorem witness_DecodeWork_dcBaseWrite_14 :
    (fun (ra : Bool) (_lo _hi : Word) (s : State) => Sound s ∧ ((∀ n : Fin 16, (s.head n).pass = none) ∧ ra = true)) ((true) : Bool) ((0x12345678) : Word) ((0x123) : Word) stUp := by
  decide +kernel

theorem witness_DecodeWork_dcBaseWrite_15 :
    (fun (_ra : Bool) (_lo _hi : Word) (n : Fin 16) (s : State) => Sound s ∧ ((s.head n).pass.isSome = true)) ((true) : Bool) ((0x12345678) : Word) ((0x123) : Word) ((0) : Fin 16) stPass := by
  decide +kernel

theorem witness_PlacementJournal_seal :
    (fun (count : Fin 65536) (b : Nat) (s : State) => Sound s ∧ (s.freeBatch = some b ∧ takeGroups count.val s.host.place.groups.length s.host.place.groups 0 ≠ [])) ((1) : Fin 65536) ((0) : Nat) ((placeA.modPlace fun p => { p with groups := [⟨7, [4, 5]⟩, ⟨6, [2]⟩] })) := by
  decide +kernel

theorem witness_PlacementJournal_seal_1 :
    (fun (_count : Fin 65536) (s : State) => Sound s ∧ (s.freeBatch = none ∨ s.host.place.groups = [])) ((1) : Fin 65536) placeA := by
  decide +kernel

theorem witness_PlacementJournal_commit :
    (fun (batch : Fin 256) (s : State) => Sound s ∧ (s.committable batch.val = true ∧ batch.val < 192 ∧ s.firstFault 0 [] (s.newPlaces batch.val (s.batFrames batch.val)) = none ∧ s.host.place.waiting = [] ∧
    ((s.host.place.batches.find? fun x => x.batch == batch.val).map (·.entries)) = some [] ∧ s.jrnPending + 261 ≤ 4096)) ((3) : Fin 256) placeA := by
  decide +kernel

theorem witness_PlacementJournal_commit_3 :
    (fun (batch : Fin 256) (s : State) => Sound s ∧ (s.committable batch.val = true ∧ 192 ≤ batch.val ∧ s.firstFault 0 [] (s.newPlaces batch.val (s.batFrames batch.val)) = none ∧ s.host.place.waiting = [] ∧
    s.jrnPending + 261 ≤ 4096)) ((200) : Fin 256) ((placeA.putBatch 200 2 0 0 0)) := by
  decide +kernel

theorem witness_PlacementJournal_commit_4 :
    (fun (batch : Fin 256) (s : State) => Sound s ∧ (s.committable batch.val = true ∧ batch.val < 192 ∧ s.firstFault 0 [] (s.newPlaces batch.val (s.batFrames batch.val)) = none ∧ s.host.place.waiting = [] ∧
    4096 ≤ s.jrnPending)) ((3) : Fin 256) ((placeA.modPlace fun p => { p with nextSeq := 4097 })) := by
  decide +kernel

theorem witness_PlacementJournal_commit_5 :
    (fun (batch : Fin 256) (i st : Nat) (s : State) => Sound s ∧ (s.committable batch.val = true ∧ batch.val < 192 ∧ s.firstFault 0 [] (s.newPlaces batch.val (s.batFrames batch.val)) = some (i, st))) ((3) : Fin 256) ((0) : Nat) ((4) : Nat) ((placeA.plPut (placeA.metaAddr 0 + 24) 8 5)) := by
  decide +kernel

theorem witness_PlacementJournal_abandon :
    (fun (batch : Fin 256) (info : BatchInfo) (s : State) => Sound s ∧ ((s.host.place.batches.find? fun x => x.batch == batch.val) = some info ∧ (s.batState batch.val = 1 ∨ s.batState batch.val = 3) ∧
    info.entries = [])) ((3) : Fin 256) ((⟨3, [⟨5, [0, 1]⟩], []⟩) : BatchInfo) placeA := by
  decide +kernel

theorem witness_PlacementJournal_splitCommit :
    (fun (batch : Fin 256) (count : Fin 65536) (s : State) => Sound s ∧ (batch.val < 192 ∧ s.committable batch.val = true ∧ (s.batFrames batch.val).take count.val ≠ [] ∧ (s.batFrames batch.val).drop count.val ≠ [] ∧
    (∀ f ∈ (s.batFrames batch.val).take count.val, ((s.namespaceOf (keyIdx (s.frKey f) + 1)).map fun n => n.state != 0) = some true) ∧
    s.firstFault 0 [] (s.newPlaces batch.val ((s.batFrames batch.val).take count.val)) = none ∧
    s.jrnPending + recordsFor ((s.batFrames batch.val).take count.val).length ≤ 4096)) ((3) : Fin 256) ((1) : Fin 65536) placeA := by
  decide +kernel

theorem witness_PlacementJournal_journalDurable :
    (fun (seq : Nat) (s : State) => Sound s ∧ (s.jrnDur ≤ seq % 2 ^ 64 ∧ s.host.place.waiting = [])) ((2) : Nat) (((placeA.modPlace fun p => { p with nextSeq := 3 }).setFld R.HC_PL_STATUS F.HC_PL_STATUS_RING_FULL 1)) := by
  decide +kernel

theorem witness_PlacementJournal_chainApply :
    (fun (c : Chain) (rest : List Chain) (s : State) => Sound s ∧ (s.flag R.HC_PL_STATUS F.HC_PL_STATUS_REPLAY = false ∧ s.host.place.chains = c :: rest ∧ c.last ≤ s.jrnDur)) ((⟨1, 1, [], none⟩) : Chain) (([]) : List Chain) (((placeA.modPlace fun p => { p with chains := [⟨1, 1, [], none⟩], nextSeq := 2 }).setReg R.HC_JRN_DUR_LO 1)) := by
  decide +kernel

theorem witness_PlacementJournal_chainApply_10 :
    (fun  (s : State) => Sound s ∧ (s.flag R.HC_PL_STATUS F.HC_PL_STATUS_REPLAY = true ∧ s.host.place.applied ≠ 0 ∧ s.host.place.ended = false ∧
    s.host.place.applied + 1 ≤ s.jrnDur ∧ s.recordGood (s.host.place.applied + 1) (s.host.place.applied + 1) = false))  (((placeA.modPlace fun p => { p with applied := 1 }).setReg R.HC_JRN_DUR_LO 5).setFld R.HC_PL_STATUS F.HC_PL_STATUS_REPLAY 1) := by
  decide +kernel

theorem witness_PlacementJournal_deferredApply :
    (fun (c : HostCmd) (s : State) => Sound s ∧ (s.host.place.deferred.head?.bind s.cmdOf = some c ∧ c.kind = .write ∧ s.applyBlocked c (s.writeThrough c) = false ∧
    s.writeThrough c = false)) (({ cmdA .write with nlb := 1 }) : HostCmd) (((((stCmd { cmdA .write with nlb := 1 }).setReg R.HC_PL_CFG 0x00010002).plPut 0x8000008 8 (2 ^ 24 + 0xFFFF * 2 ^ 32)).plPut 0x10000000 8 (entCached 0 5)).modPlace fun p => { p with deferred := [700] }) := by
  decide +kernel

theorem witness_PlacementJournal_deferredApply_12 :
    (fun (c : HostCmd) (s : State) => Sound s ∧ (s.host.place.deferred.head?.bind s.cmdOf = some c ∧ c.kind = .dsm ∧ s.trimBlocked c = false)) ((cmdA .dsm) : HostCmd) (((stCmd (cmdA .dsm)).modPlace fun p => { p with deferred := [700] })) := by
  decide +kernel

theorem witness_PlacementJournal_deferredApply_13 :
    (fun (c : HostCmd) (b : Nat) (n : Namespace) (s : State) => Sound s ∧ (s.host.place.deferred.head?.bind s.cmdOf = some c ∧ c.kind = .format ∧ s.nsCached (c.nsid - 1) = false ∧ s.freeBatch = some b ∧
    s.namespaceOf c.nsid = some n)) ((cmdA .format) : HostCmd) ((0) : Nat) (({ granules := 64, mode := 0, state := 1, changedAt := 0, mapOfs := 0, size := 1024, attached := [0] }) : Namespace) (((stCmd (cmdA .format)).modPlace fun p => { p with deferred := [700] })) := by
  decide +kernel

theorem witness_PlacementJournal_deferredApply_14 :
    (fun (c : HostCmd) (s : State) => Sound s ∧ (s.host.place.deferred.head?.bind s.cmdOf = some c ∧ c.kind = .write ∧ s.applyBlocked c (s.writeThrough c) = true)) ((cmdA .write) : HostCmd) (((stCmd (cmdA .write)).modPlace fun p => { p with deferred := [700] })) := by
  decide +kernel

theorem witness_PlacementJournal_replayEnd :
    (fun  (s : State) => Sound s ∧ (s.flag R.HC_PL_STATUS F.HC_PL_STATUS_REPLAY = true))  (((placeA.modPlace fun p => { p with applied := 4 }).setReg R.HC_JRN_DUR_LO 8).setFld R.HC_PL_STATUS F.HC_PL_STATUS_REPLAY 1) := by
  decide +kernel

theorem witness_PlacementJournal_mmXfer :
    (fun (b : Fin 24) (u : Upset) (i : Ins) (o src dst len : Nat) (s : State) => Sound s ∧ (Issues s b u i ∧ XferArgs s b i o src dst len ∧ i.fn = 3 ∧ (s.bob b).occupied < 32 ∧ s.memOn = true ∧ dst % 8 = 0 ∧ dst + len ≤ s.memSize ∧
    s.closedWrite dst len = false ∧ s.flag R.MC_FLIP_ADDR_HI F.MC_FLIP_ADDR_HI_ARMED = false)) ((16) : Fin 24) ((.none) : Upset) ((insA 0x70010C03) : Ins) ((0) : Nat) ((0x1122334455667788) : Nat) ((0x80) : Nat) ((16) : Nat) ((((stIns 0x70010C03).modBob 16 fun x => { x with g := x.g.set 3 0x100000 }).spaceWrite 16 (.shared 0) (natBytes 8 0x1122334455667788 ++ natBytes 8 0x80 ++ natBytes 8 16))) := by
  decide +kernel

theorem witness_PlacementJournal_mmXfer_18 :
    (fun (b : Fin 24) (u : Upset) (i : Ins) (o src dst len : Nat) (s : State) => Sound s ∧ (Issues s b u i ∧ XferArgs s b i o src dst len ∧ i.fn = 1 ∧ (s.bob b).occupied < 32 ∧ s.memOn = true ∧ dst % 8 = 0 ∧ dst + len ≤ s.memSize ∧
    s.closedWrite dst len = false ∧ s.flag R.MC_FLIP_ADDR_HI F.MC_FLIP_ADDR_HI_ARMED = false ∧ src + len ≤ 0x2000)) ((16) : Fin 24) ((.none) : Upset) ((insA 0x70010C01) : Ins) ((0) : Nat) ((0x40) : Nat) ((0x80) : Nat) ((16) : Nat) ((((stIns 0x70010C01).modBob 16 fun x => { x with g := x.g.set 3 0x100000, scratch := [(0x40, 7), (0x4F, 9)] }).spaceWrite 16 (.shared 0) (natBytes 8 0x40 ++ natBytes 8 0x80 ++ natBytes 8 16))) := by
  decide +kernel

theorem witness_PlacementJournal_mmXfer_19 :
    (fun (b : Fin 24) (u : Upset) (i : Ins) (o src dst len : Nat) (e : Nat) (s : State) => Sound s ∧ (Issues s b u i ∧ XferArgs s b i o src dst len ∧ i.fn = 0 ∧ (s.bob b).occupied < 32 ∧ WordsClean s src len ∧
    dst = 0x100000 + e ∧ e + len ≤ 0x100000)) ((16) : Fin 24) ((.none) : Upset) ((insA 0x70010C00) : Ins) ((0) : Nat) ((0x20) : Nat) ((0x100040) : Nat) ((16) : Nat) ((0x40) : Nat) ((((stIns 0x70010C00).modBob 16 fun x => { x with g := x.g.set 3 0x100000 }).spaceWrite 16 (.shared 0) (natBytes 8 0x20 ++ natBytes 8 0x100040 ++ natBytes 8 16)).memWrite 2 0x20 [1, 2, 3, 4, 5, 6, 7, 8, 9, 10, 11, 12, 13, 14, 15, 16]) := by
  decide +kernel

theorem witness_PlacementJournal_mmXfer_20 :
    (fun (b : Fin 24) (u : Upset) (i : Ins) (o src dst len : Nat) (s : State) => Sound s ∧ (Issues s b u i ∧ XferArgs s b i o src dst len ∧ i.fn = 2 ∧ (s.bob b).occupied < 32 ∧ WordsClean s src len ∧ dst % 8 = 0 ∧
    dst + len ≤ s.memSize ∧ s.closedWrite dst len = false ∧ s.flag R.MC_FLIP_ADDR_HI F.MC_FLIP_ADDR_HI_ARMED = false)) ((16) : Fin 24) ((.none) : Upset) ((insA 0x70010C02) : Ins) ((0) : Nat) ((0x20) : Nat) ((0x80) : Nat) ((16) : Nat) ((((stIns 0x70010C02).modBob 16 fun x => { x with g := x.g.set 3 0x100000 }).spaceWrite 16 (.shared 0) (natBytes 8 0x20 ++ natBytes 8 0x80 ++ natBytes 8 16)).memWrite 2 0x20 [1, 2, 3, 4, 5, 6, 7, 8, 9, 10, 11, 12, 13, 14, 15, 16]) := by
  decide +kernel

theorem witness_PlacementJournal_mmXfer_21 :
    (fun (b : Fin 24) (u : Upset) (i : Ins) (o src dst len : Nat) (s : State) => Sound s ∧ (Issues s b u i ∧ XferArgs s b i o src dst len ∧ (i.fn = 1 ∨ i.fn = 2 ∨ i.fn = 3) ∧ (s.bob b).occupied < 32 ∧
    (s.memSize < dst + len ∨ s.closedWrite dst len = true))) ((16) : Fin 24) ((.none) : Upset) ((insA 0x70010C03) : Ins) ((0) : Nat) ((5) : Nat) ((0) : Nat) ((16) : Nat) (((((stIns 0x70010C03).modBob 16 fun x => { x with g := x.g.set 3 0x100000 }).spaceWrite 16 (.shared 0) (natBytes 8 5 ++ natBytes 8 0 ++ natBytes 8 16)).setReg R.HC_PL_CFG 0x00010001)) := by
  decide +kernel

theorem witness_HostCommands_commandFetch :
    (fun (e : SqEntry) (data : List Byte) (walk : PtrWalk) (q : SubQ) (slot st : Nat) (s : State) => Sound s ∧ (s.nextQueue.map (·.1) = some q ∧ s.freeSlot (q.qid == 0) = some slot ∧
    s.fetchFault q.fn (q.qid == 0) e (data.map (·.toNat)) walk = some st ∧ s.cmdOf s.fetchStamp = none ∧ (∀ r ∈ s.decode.runAhead, r.claim ≠ some s.fetchStamp) ∧ st ≠ 0 ∧ q.fn < 2)) ((entryA 0xFF 1 0 0) : SqEntry) (([]) : List Byte) ((.good) : PtrWalk) ((sqAdm) : SubQ) ((8160) : Nat) ((1) : Nat) ((hostA true)) := by
  decide +kernel

theorem witness_HostCommands_commandFetch_1 :
    (fun (e : SqEntry) (data : List Byte) (walk : PtrWalk) (q : SubQ) (slot : Nat) (s : State) => Sound s ∧ (Fetching s false 0x00 e data walk q slot)) ((entryA 0 1 0 0) : SqEntry) (([]) : List Byte) ((.good) : PtrWalk) ((sqIo) : SubQ) ((0) : Nat) ((hostA false)) := by
  decide +kernel

theorem witness_HostCommands_deleteIoSq :
    (fun (e : SqEntry) (q : SubQ) (slot : Nat) (s : State) => Sound s ∧ (Fetching s true 0x00 e [] .good q slot ∧ e.c10 % 65536 ≠ 0 ∧ (s.sq q.fn (e.c10 % 65536)).isSome = true ∧
    (∀ c ∈ s.host.cmds, ¬ (c.fn = q.fn ∧ c.sqid = e.c10 % 65536)))) ((entryA 0 0 1 0) : SqEntry) ((sqAdm) : SubQ) ((8160) : Nat) ((hostA true)) := by
  decide +kernel

theorem witness_HostCommands_deleteIoSq_3 :
    (fun (e : SqEntry) (q : SubQ) (slot : Nat) (c : HostCmd) (s : State) => Sound s ∧ (Fetching s true 0x00 e [] .good q slot ∧ e.c10 % 65536 ≠ 0 ∧ (s.sq q.fn (e.c10 % 65536)).isSome = true ∧
    s.host.cmds = [c] ∧ c.fn = q.fn ∧ c.sqid = e.c10 % 65536 ∧ c.abortable = true ∧ c.order = .queued)) ((entryA 0 0 1 0) : SqEntry) ((sqAdm) : SubQ) ((8160) : Nat) (({ cmdA .read with order := .queued }) : HostCmd) (((hostA true).modHost fun h => { h with cmds := [{ cmdA .read with order := .queued }] })) := by
  refine ⟨by decide +kernel, ⟨by decide +kernel, by decide +kernel, by decide +kernel, by decide +kernel, by decide +kernel, fetch_fresh _ (by decide +kernel), by decide +kernel⟩, by decide +kernel⟩

theorem witness_HostCommands_deleteIoCq :
    (fun (e : SqEntry) (q : SubQ) (slot : Nat) (s : State) => Sound s ∧ (Fetching s true 0x04 e [] .good q slot ∧ e.c10 % 65536 ≠ 0 ∧ (s.cq q.fn (e.c10 % 65536)).isSome = true ∧
    (∀ x ∈ s.host.sqs, ¬ (x.fn = q.fn ∧ x.cq = e.c10 % 65536)))) ((entryA 4 0 1 0) : SqEntry) ((sqAdm) : SubQ) ((8160) : Nat) (((hostA true).modHost fun h => { h with sqs := [sqAdm] })) := by
  decide +kernel

theorem witness_HostCommands_createIoSq :
    (fun (e : SqEntry) (q : SubQ) (slot : Nat) (s : State) => Sound s ∧ (Fetching s true 0x01 e [] .good q slot ∧ testBitN e.c11 0 = true ∧ e.c10 % 65536 ≠ 0 ∧ e.c10 % 65536 ≤ s.maxQid ∧ s.sq q.fn (e.c10 % 65536) = none ∧
    e.c11 / 65536 % 65536 ≠ 0 ∧ (s.cq q.fn (e.c11 / 65536 % 65536)).isSome = true ∧ e.c10 / 65536 % 65536 ≠ 0 ∧
    e.c10 / 65536 % 65536 ≤ 4095 ∧ e.dptr0 % s.pageSize q.fn = 0)) ((entryA 1 0 0x70002 0x10005) : SqEntry) ((sqAdm) : SubQ) ((8160) : Nat) ((hostA true)) := by
  decide +kernel

theorem witness_HostCommands_createIoCq :
    (fun (e : SqEntry) (q : SubQ) (slot : Nat) (s : State) => Sound s ∧ (Fetching s true 0x05 e [] .good q slot ∧ testBitN e.c11 0 = true ∧ e.c10 % 65536 ≠ 0 ∧ e.c10 % 65536 ≤ s.maxQid ∧ s.cq q.fn (e.c10 % 65536) = none ∧
    e.c10 / 65536 % 65536 ≠ 0 ∧ e.c10 / 65536 % 65536 ≤ 4095 ∧ e.c11 / 65536 % 65536 ≤ 256 ∧ e.dptr0 % s.pageSize q.fn = 0)) ((entryA 5 0 0x70002 0x50003) : SqEntry) ((sqAdm) : SubQ) ((8160) : Nat) ((hostA true)) := by
  decide +kernel

theorem witness_HostCommands_getLogPage :
    (fun (e : SqEntry) (walk : PtrWalk) (q : SubQ) (slot : Nat) (p : List Nat) (s : State) => Sound s ∧ (Fetching s true 0x02 e [] walk q slot ∧ testBitN e.c10 15 = true ∧ (e.c12 % 2 ^ 32 + e.c13 % 2 ^ 32 * 2 ^ 32) % 4 = 0 ∧
    (s.logPage q.fn (e.c10 % 256) ((e.c12 % 2 ^ 32 + e.c13 % 2 ^ 32 * 2 ^ 32) + transferBytes true e)).1 = some p)) ((entryA 2 0 0x1F80C0 0) : SqEntry) ((.good) : PtrWalk) ((sqAdm) : SubQ) ((8160) : Nat) (((hostA true).nsStatePage) : List Nat) ((hostA true)) := by
  decide +kernel

theorem witness_HostCommands_getLogPage_8 :
    (fun (e : SqEntry) (walk : PtrWalk) (q : SubQ) (slot : Nat) (p : List Nat) (s : State) => Sound s ∧ (Fetching s true 0x02 e [] walk q slot ∧ testBitN e.c10 15 = false ∧ (e.c12 % 2 ^ 32 + e.c13 % 2 ^ 32 * 2 ^ 32) % 4 = 0 ∧ (s.fnOf q.fn).pending = [] ∧ q.fn < 2 ∧
    (s.logPage q.fn (e.c10 % 256) ((e.c12 % 2 ^ 32 + e.c13 % 2 ^ 32 * 2 ^ 32) + transferBytes true e)).1 = some p)) ((entryA 2 0 0x1F00C0 0) : SqEntry) ((.good) : PtrWalk) ((sqAdm) : SubQ) ((8160) : Nat) (((hostA true).nsStatePage) : List Nat) (((hostA true).modFn 0 fun f => { f with posted := [(7, 0xC0), (1, 2)], changed := [3] })) := by
  decide +kernel

theorem witness_HostCommands_identify :
    (fun (e : SqEntry) (walk : PtrWalk) (q : SubQ) (slot : Nat) (s : State) => Sound s ∧ (Fetching s true 0x06 e [] walk q slot ∧ (s.identify q.fn e).1 = 0)) ((entryA 6 1 0x00 0) : SqEntry) ((.good) : PtrWalk) ((sqAdm) : SubQ) ((8160) : Nat) ((hostA true)) := by
  decide +kernel

theorem witness_HostCommands_abort :
    (fun (e : SqEntry) (q : SubQ) (slot : Nat) (c : HostCmd) (s : State) => Sound s ∧ (Fetching s true 0x08 e [] .good q slot ∧ (s.host.cmds.filter fun x => x.kind == .abort && x.fn == q.fn && x.decided.isNone).length < 64 ∧ s.host.cmds.find? (fun x => x.fn == q.fn && x.sqid == e.c10 % 65536 && x.cid == e.c10 / 65536 % 65536) = some c ∧
    s.cmdOf c.stamp = some c ∧ c.abortable = true ∧ c.order = .queued)) ((entryA 8 0 0x90001 0) : SqEntry) ((sqAdm) : SubQ) ((8160) : Nat) (({ cmdA .read with order := .queued }) : HostCmd) (((hostA true).modHost fun h => { h with cmds := [{ cmdA .read with order := .queued }] })) := by
  refine ⟨by decide +kernel, ⟨by decide +kernel, by decide +kernel, by decide +kernel, by decide +kernel, by decide +kernel, fetch_fresh _ (by decide +kernel), by decide +kernel⟩, by decide +kernel⟩

theorem witness_HostCommands_abort_11 :
    (fun (e : SqEntry) (q : SubQ) (slot : Nat) (s : State) => Sound s ∧ (Fetching s true 0x08 e [] .good q slot ∧ (s.host.cmds.filter fun x => x.kind == .abort && x.fn == q.fn && x.decided.isNone).length < 64 ∧ s.host.cmds.find? (fun x => x.fn == q.fn && x.sqid == e.c10 % 65536 && x.cid == e.c10 / 65536 % 65536) = none ∧
    ¬ (q.qid = e.c10 % 65536 ∧ e.cid.val = e.c10 / 65536 % 65536))) ((entryA 8 0 0x90001 0) : SqEntry) ((sqAdm) : SubQ) ((8160) : Nat) ((hostA true)) := by
  decide +kernel

theorem witness_HostCommands_asynchronousEventRequest :
    (fun (e : SqEntry) (q : SubQ) (slot : Nat) (s : State) => Sound s ∧ (Fetching s true 0x0C e [] .good q slot ∧ (s.host.cmds.filter fun x => x.kind == .aer && x.fn == q.fn && x.decided.isNone).length < 16 ∧
    (s.fnOf q.fn).pending = [])) ((entryA 12 0 0 0) : SqEntry) ((sqAdm) : SubQ) ((8160) : Nat) ((hostA true)) := by
  decide +kernel

theorem witness_HostCommands_asynchronousEventRequest_13 :
    (fun (e : SqEntry) (q : SubQ) (slot : Nat) (v : AsyncEv) (s : State) => Sound s ∧ (Fetching s true 0x0C e [] .good q slot ∧ s.openAer q.fn = none ∧ (s.fnOf q.fn).pending = [v] ∧ (s.fnOf q.fn).typeHeld v.type = false ∧ q.fn < 2)) ((entryA 12 0 0 0) : SqEntry) ((sqAdm) : SubQ) ((8160) : Nat) ((⟨1, 2, 2⟩) : AsyncEv) (((hostA true).modFn 0 fun f => { f with pending := [⟨1, 2, 2⟩] })) := by
  decide +kernel

theorem witness_HostCommands_setFeatures :
    (fun (e : SqEntry) (q : SubQ) (slot : Nat) (s : State) => Sound s ∧ (Fetching s true 0x09 e [] .good q slot ∧ featureFault e = none ∧ e.c10 % 256 ≠ 7 ∧ q.fn < 2)) ((entryA 9 0 0x08 0x305) : SqEntry) ((sqAdm) : SubQ) ((8160) : Nat) ((hostA true)) := by
  decide +kernel

theorem witness_HostCommands_setFeatures_15 :
    (fun (e : SqEntry) (q : SubQ) (slot : Nat) (s : State) => Sound s ∧ (Fetching s true 0x09 e [] .good q slot ∧ featureFault e = none ∧ e.c10 % 256 = 7)) ((entryA 9 0 0x07 0x305) : SqEntry) ((sqAdm) : SubQ) ((8160) : Nat) ((hostA true)) := by
  decide +kernel

theorem witness_HostCommands_getFeatures :
    (fun (e : SqEntry) (q : SubQ) (slot : Nat) (s : State) => Sound s ∧ (Fetching s true 0x0A e [] .good q slot ∧ (s.getFeatures q.fn e).1 = 0)) ((entryA 10 0 0x06 0) : SqEntry) ((sqAdm) : SubQ) ((8160) : Nat) ((hostA true)) := by
  decide +kernel

theorem witness_HostCommands_namespaceManagement :
    (fun (e : SqEntry) (data : List Byte) (walk : PtrWalk) (q : SubQ) (slot : Nat) (k b : Nat) (s : State) => Sound s ∧ (Fetching s true 0x0D e data walk q slot ∧ data.length = transferBytes true e ∧ e.c10 % 16 = 0 ∧ fieldAt (data.map (·.toNat)) 0 8 ≠ 0 ∧ fieldAt (data.map (·.toNat)) 8 8 = fieldAt (data.map (·.toNat)) 0 8 ∧
    fieldAt (data.map (·.toNat)) 26 1 = 0 ∧ fieldAt (data.map (·.toNat)) 29 1 = 0 ∧ fieldAt (data.map (·.toNat)) 3072 1 % 4 ≠ 3 ∧
    s.host.namespaces.toList.foldl (fun a n => a + ((n.map (·.granules)).getD 0)) 0 + ceilDiv (fieldAt (data.map (·.toNat)) 0 8) 16 ≤ s.plMapBytes / 8 ∧
    (s.mapRoom (ceilDiv (fieldAt (data.map (·.toNat)) 0 8) 16)).isSome = true ∧ ((List.range 16).find? fun k => (s.namespaceOf (k + 1)).isNone) = some k ∧ s.freeBatch = some b)) ((entryA 13 0 0 0) : SqEntry) (([0x20, 0, 0, 0, 0, 0, 0, 0, 0x20] ++ List.replicate 4087 0) : List Byte) ((.good) : PtrWalk) ((sqAdm) : SubQ) ((8160) : Nat) ((1) : Nat) ((0) : Nat) (((hostA true).setReg R.HC_PL_CFG 0x00010002)) := by
  decide +kernel

theorem witness_HostCommands_namespaceManagement_18 :
    (fun (e : SqEntry) (data : List Byte) (walk : PtrWalk) (q : SubQ) (slot : Nat) (n : Namespace) (b : Nat) (s : State) => Sound s ∧ (Fetching s true 0x0D e data walk q slot ∧ data.length = transferBytes true e ∧ e.c10 % 16 = 1 ∧ e.nsid ≠ 0xFFFFFFFF ∧ s.namespaceOf e.nsid = some n ∧ s.freeBatch = some b)) ((entryA 13 1 1 0) : SqEntry) (([]) : List Byte) ((.good) : PtrWalk) ((sqAdm) : SubQ) ((8160) : Nat) (({ granules := 64, mode := 0, state := 1, changedAt := 0, mapOfs := 0, size := 1024, attached := [0] }) : Namespace) ((0) : Nat) ((hostA true)) := by
  decide +kernel

theorem witness_HostCommands_namespaceAttachment :
    (fun (e : SqEntry) (data : List Byte) (walk : PtrWalk) (q : SubQ) (slot : Nat) (n : Namespace) (ids : List Nat) (s : State) => Sound s ∧ (Fetching s true 0x15 e data walk q slot ∧ data.length = transferBytes true e ∧ e.c10 % 16 = 0 ∧ s.namespaceOf e.nsid = some n ∧ ((List.range (min 2047 (fieldAt (data.map (·.toNat)) 0 2))).map fun i => fieldAt (data.map (·.toNat)) (2 + 2 * i) 2) = ids ∧ ids ≠ [] ∧
    (∀ k ∈ ids, k < s.functions.length ∧ k ∉ n.attached))) ((entryA 0x15 1 0 0) : SqEntry) (([1] ++ List.replicate 4095 0) : List Byte) ((.good) : PtrWalk) ((sqAdm) : SubQ) ((8160) : Nat) (({ granules := 64, mode := 0, state := 1, changedAt := 0, mapOfs := 0, size := 1024, attached := [] }) : Namespace) (([0]) : List Nat) (((hostA true).setNamespace 0 (some { granules := 64, mode := 0, state := 1, changedAt := 0, mapOfs := 0, size := 1024, attached := [] }))) := by
  decide +kernel

theorem witness_HostCommands_namespaceAttachment_20 :
    (fun (e : SqEntry) (data : List Byte) (walk : PtrWalk) (q : SubQ) (slot : Nat) (n : Namespace) (ids : List Nat) (s : State) => Sound s ∧ (Fetching s true 0x15 e data walk q slot ∧ data.length = transferBytes true e ∧ e.c10 % 16 = 1 ∧ s.namespaceOf e.nsid = some n ∧ ((List.range (min 2047 (fieldAt (data.map (·.toNat)) 0 2))).map fun i => fieldAt (data.map (·.toNat)) (2 + 2 * i) 2) = ids ∧ ids ≠ [] ∧
    (∀ k ∈ ids, k < s.functions.length ∧ k ∈ n.attached))) ((entryA 0x15 1 1 0) : SqEntry) (([1] ++ List.replicate 4095 0) : List Byte) ((.good) : PtrWalk) ((sqAdm) : SubQ) ((8160) : Nat) (({ granules := 64, mode := 0, state := 1, changedAt := 0, mapOfs := 0, size := 1024, attached := [0] }) : Namespace) (([0]) : List Nat) ((hostA true)) := by
  decide +kernel

theorem witness_HostCommands_firmwareImageDownload :
    (fun (e : SqEntry) (data : List Byte) (walk : PtrWalk) (q : SubQ) (slot : Nat) (s : State) => Sound s ∧ (Fetching s true 0x11 e data walk q slot ∧ data.length = transferBytes true e ∧ ¬ (s.boot.noImage = true ∧ s.memOn = false) ∧ 4 * (e.c11 % 2 ^ 32) + transferBytes true e ≤ 0x4000000 ∧
    (∀ p ∈ s.host.pieces, p.1 + p.2 ≤ 4 * (e.c11 % 2 ^ 32) ∨ 4 * (e.c11 % 2 ^ 32) + transferBytes true e ≤ p.1))) ((entryA 0x11 0 1 0) : SqEntry) (([1, 2, 3, 4, 5, 6, 7, 8]) : List Byte) ((.good) : PtrWalk) ((sqAdm) : SubQ) ((8160) : Nat) ((hostA true)) := by
  decide +kernel

theorem witness_HostCommands_firmwareCommit :
    (fun (e : SqEntry) (q : SubQ) (slot : Nat) (s : State) => Sound s ∧ (Fetching s true 0x10 e [] .good q slot ∧ natBits e.c10 5 3 = 2 ∧ (s.commitSlot (natBits e.c10 2 0)) ≤ 2 ∧ s.mcActive = false ∧
    (∀ x ∈ s.host.cmds, x.kind = .cartLoad ∨ x.kind = .cartRelease → x.decided.isSome = true) ∧ s.host.commit = none ∧ s.host.activation = none)) ((entryA 0x10 0 0x12 0) : SqEntry) ((sqAdm) : SubQ) ((8160) : Nat) ((hostA true)) := by
  decide +kernel

theorem witness_HostCommands_firmwareCommit_23 :
    (fun (e : SqEntry) (q : SubQ) (slot : Nat) (s : State) => Sound s ∧ (Fetching s true 0x10 e [] .good q slot ∧ natBits e.c10 5 3 ≤ 3 ∧ natBits e.c10 5 3 ≠ 2 ∧ (natBits e.c10 5 3 = 3 → s.boot.noImage = false) ∧ (s.commitSlot (natBits e.c10 2 0)) ≤ 2 ∧ s.mcActive = false ∧
    (∀ x ∈ s.host.cmds, x.kind = .cartLoad ∨ x.kind = .cartRelease → x.decided.isSome = true) ∧ s.host.commit = none ∧ s.host.activation = none ∧ s.stagedImage.length ≤ slotBytes)) ((entryA 0x10 0 0x0A 0) : SqEntry) ((sqAdm) : SubQ) ((8160) : Nat) ((hostA true)) := by
  decide +kernel

theorem witness_HostCommands_firmwareCommitWriteDone :
    (fun (_upset : Bool) (j : CommitJob) (c : HostCmd) (s : State) => Sound s ∧ (s.host.commit = some j ∧ j.written = false ∧ s.cmdOf j.cmd = some c ∧ c.decided = none ∧ c.stamp = j.cmd)) ((true) : Bool) ((⟨700, 2, 1, 4, false⟩) : CommitJob) ((cmdA .fwCommit) : HostCmd) (((stCmd (cmdA .fwCommit)).modHost fun h => { h with commit := some ⟨700, 2, 1, 4, false⟩, pieces := [(0, 4)] })) := by
  decide +kernel

theorem witness_HostCommands_securitySend :
    (fun (e : SqEntry) (data : List Byte) (walk : PtrWalk) (q : SubQ) (slot : Nat) (s : State) => Sound s ∧ (Fetching s true 0x81 e data walk q slot ∧ data.length = transferBytes true e ∧ e.c10 / 2 ^ 24 % 256 = 0xE8 ∧ q.fn < 2 ∧ msgByte (toBytes ((data.map (·.toNat)).take (e.c11 % 2 ^ 32))) 1 = 0x84)) ((entryA 0x81 0 0xE8000000 4) : SqEntry) (([0x12, 0x84, 0, 0]) : List Byte) ((.good) : PtrWalk) ((sqAdm) : SubQ) ((8160) : Nat) ((hostA true)) := by
  decide +kernel

theorem witness_HostCommands_securityReceive :
    (fun (e : SqEntry) (walk : PtrWalk) (q : SubQ) (slot : Nat) (r : Nat × Nat × List Nat) (s : State) => Sound s ∧ (Fetching s true 0x82 e [] walk q slot ∧ e.c10 / 2 ^ 24 % 256 = 0xE8 ∧ s.sec.replies.find? (fun x => x.1 == q.fn) = some r)) ((entryA 0x82 0 0xE8000000 8) : SqEntry) ((.good) : PtrWalk) ((sqAdm) : SubQ) ((8160) : Nat) (((0, 4, [0x12])) : Nat × Nat × List Nat) (((hostA true).modSec fun x => { x with replies := [(0, 4, [0x12])] })) := by
  decide +kernel

theorem witness_HostCommands_securityReceive_27 :
    (fun (e : SqEntry) (walk : PtrWalk) (q : SubQ) (slot : Nat) (s : State) => Sound s ∧ (Fetching s true 0x82 e [] walk q slot ∧ e.c10 / 2 ^ 24 % 256 = 0)) ((entryA 0x82 0 0 8) : SqEntry) ((.good) : PtrWalk) ((sqAdm) : SubQ) ((8160) : Nat) ((hostA true)) := by
  decide +kernel

theorem witness_HostCommands_read :
    (fun (e : SqEntry) (walk : PtrWalk) (q : SubQ) (slot : Nat) (s : State) => Sound s ∧ (Fetching s false 0x02 e [] walk q slot ∧ s.host.locks.length < 1024 ∧ s.host.sump = [])) ((entryA 2 1 5 0) : SqEntry) ((.good) : PtrWalk) ((sqIo) : SubQ) ((0) : Nat) ((hostA false)) := by
  decide +kernel

theorem witness_HostCommands_write :
    (fun (e : SqEntry) (walk : PtrWalk) (q : SubQ) (slot : Nat) (s : State) => Sound s ∧ (Fetching s false 0x01 e [] walk q slot ∧ s.host.locks.length < 1024 ∧ s.host.sump = [])) ((entryA 1 1 5 0) : SqEntry) ((.good) : PtrWalk) ((sqIo) : SubQ) ((0) : Nat) ((hostA false)) := by
  decide +kernel

theorem witness_HostCommands_verify :
    (fun (e : SqEntry) (q : SubQ) (slot : Nat) (s : State) => Sound s ∧ (Fetching s false 0x0C e [] .good q slot ∧ s.host.locks.length < 1024 ∧ s.host.sump = [])) ((entryA 12 1 5 0) : SqEntry) ((sqIo) : SubQ) ((0) : Nat) ((hostA false)) := by
  decide +kernel

theorem witness_HostCommands_formatNvm :
    (fun (e : SqEntry) (q : SubQ) (slot : Nat) (s : State) => Sound s ∧ (Fetching s true 0x80 e [] .good q slot ∧ s.host.locks.length < 1024 ∧ s.host.sump = [])) ((entryA 0x80 1 0 0) : SqEntry) ((sqAdm) : SubQ) ((8160) : Nat) ((hostA true)) := by
  decide +kernel

theorem witness_HostCommands_cartridgeLoad :
    (fun (e : SqEntry) (q : SubQ) (slot : Nat) (s : State) => Sound s ∧ (Fetching s true 0xC4 e [] .good q slot ∧ s.host.locks.length < 1024 ∧ s.host.sump = [])) ((entryA 0xC4 0 0 0) : SqEntry) ((sqAdm) : SubQ) ((8160) : Nat) ((hostA true)) := by
  decide +kernel

theorem witness_HostCommands_cartridgeRelease :
    (fun (e : SqEntry) (q : SubQ) (slot : Nat) (s : State) => Sound s ∧ (Fetching s true 0xC8 e [] .good q slot ∧ s.host.locks.length < 1024 ∧ s.host.sump = [])) ((entryA 0xC8 0 0 0) : SqEntry) ((sqAdm) : SubQ) ((8160) : Nat) ((hostA true)) := by
  decide +kernel

theorem witness_HostCommands_write_34 :
    (fun (e : SqEntry) (walk : PtrWalk) (q : SubQ) (slot : Nat) (s : State) => Sound s ∧ (Fetching s false 0x01 e [] walk q slot ∧ s.host.sump ≠ [] ∧ s.host.sump.length + 1 < sumpSize)) ((entryA 1 1 5 0) : SqEntry) ((.good) : PtrWalk) ((sqIo) : SubQ) ((0) : Nat) (((hostA false).modHost fun h => { h with sump := [⟨9, 5, some 1, 0, 8, true, false⟩] })) := by
  decide +kernel

theorem witness_HostCommands_datasetManagement :
    (fun (e : SqEntry) (data : List Byte) (walk : PtrWalk) (q : SubQ) (slot : Nat) (s : State) => Sound s ∧ (Fetching s false 0x09 e data walk q slot ∧ data.length = transferBytes false e ∧ e.deallocate = true ∧ s.host.locks.length + (dsmRanges e (data.map (·.toNat))).length ≤ 1024 ∧ s.host.sump = [])) ((entryA 9 1 1 4) : SqEntry) ((List.replicate 4 0 ++ [8] ++ List.replicate 27 0) : List Byte) ((.good) : PtrWalk) ((sqIo) : SubQ) ((0) : Nat) ((hostA false)) := by
  decide +kernel

theorem witness_HostCommands_datasetManagement_36 :
    (fun (e : SqEntry) (data : List Byte) (walk : PtrWalk) (q : SubQ) (slot : Nat) (s : State) => Sound s ∧ (Fetching s false 0x09 e data walk q slot ∧ data.length = transferBytes false e ∧ e.deallocate = false)) ((entryA 9 1 1 0) : SqEntry) ((List.replicate 4 0 ++ [8] ++ List.replicate 27 0) : List Byte) ((.good) : PtrWalk) ((sqIo) : SubQ) ((0) : Nat) ((hostA false)) := by
  decide +kernel

theorem witness_HostCommands_flush :
    (fun (e : SqEntry) (q : SubQ) (slot : Nat) (s : State) => Sound s ∧ (Fetching s false 0x00 e [] .good q slot)) ((entryA 0 1 0 0) : SqEntry) ((sqIo) : SubQ) ((0) : Nat) ((hostA false)) := by
  decide +kernel

theorem witness_HostCommands_sequencerCall :
    (fun (e : SqEntry) (walk : PtrWalk) (q : SubQ) (slot : Nat) (s : State) => Sound s ∧ (Fetching s true 0xC3 e [] walk q slot)) ((entryA 0xC3 0 0 0) : SqEntry) ((.good) : PtrWalk) ((sqAdm) : SubQ) ((8160) : Nat) ((hostA true)) := by
  decide +kernel

theorem witness_HostCommands_mediumHealthReport :
    (fun (e : SqEntry) (walk : PtrWalk) (q : SubQ) (slot : Nat) (s : State) => Sound s ∧ (Fetching s true 0xC6 e [] walk q slot)) ((entryA 0xC6 0 0 0) : SqEntry) ((.good) : PtrWalk) ((sqAdm) : SubQ) ((8160) : Nat) ((hostA true)) := by
  decide +kernel

theorem witness_HostControl_sqTailDoorbell :
    (fun (fn : Fin 2) (qid : Nat) (tail : Nat) (q : SubQ) (s : State) => Sound s ∧ (s.doorbells fn.val = true ∧ s.sq fn.val qid = some q ∧ tail < q.size)) ((0) : Fin 2) ((1) : Nat) ((5) : Nat) ((⟨0, 1, 0x2000, 16, 1, 0, 0, 0⟩) : SubQ) ((hostA true)) := by
  decide +kernel

theorem witness_HostControl_sqTailDoorbell_1 :
    (fun (fn : Fin 2) (_qid : Nat) (_tail : Nat) (s : State) => Sound s ∧ (s.enabled fn.val = false)) ((0) : Fin 2) ((1) : Nat) ((5) : Nat) stUp := by
  decide +kernel

theorem witness_HostControl_cqHeadDoorbell :
    (fun (fn : Fin 2) (qid : Nat) (head : Nat) (q : CmpQ) (s : State) => Sound s ∧ (s.doorbells fn.val = true ∧ s.cq fn.val qid = some q ∧ head < q.size)) ((0) : Fin 2) ((1) : Nat) ((5) : Nat) ((⟨0, 1, 0x4000, 16, 0, 0, true, true, 1, 0, 0⟩) : CmpQ) ((hostA true)) := by
  decide +kernel

theorem witness_HostControl_rangeLockGrant :
    (fun (slot : Fin 8192) (idx : Nat) (c : HostCmd) (r : LockReq) (s : State) => Sound s ∧ (s.cmdAt slot.val = some c ∧ (s.host.locks.filter fun x => x.slot == slot.val)[idx]? = some r ∧ r.granted = false ∧
    (∀ x ∈ s.host.locks, x.stamp < r.stamp → x.conflicts r = false) ∧ s.runAheadUnder c = false)) ((5) : Fin 8192) ((0) : Nat) ((cmdA .read) : HostCmd) ((⟨5, 700, some 1, 0, 16, false, false⟩) : LockReq) (((hostCmdA (cmdA .read)).modHost fun h => { h with locks := [⟨4, 600, some 1, 8, 16, false, true⟩, ⟨5, 700, some 1, 0, 16, false, false⟩] })) := by
  decide +kernel

theorem witness_HostControl_rangeLockGrant_4 :
    (fun (slot : Fin 8192) (idx : Nat) (r x : LockReq) (s : State) => Sound s ∧ ((s.host.locks.filter fun x => x.slot == slot.val)[idx]? = some r ∧ x ∈ s.host.locks ∧ x.stamp < r.stamp ∧ x.conflicts r = true)) ((5) : Fin 8192) ((0) : Nat) ((⟨5, 700, some 1, 0, 16, false, false⟩) : LockReq) ((⟨4, 600, some 1, 8, 16, true, true⟩) : LockReq) (((hostCmdA (cmdA .read)).modHost fun h => { h with locks := [⟨4, 600, some 1, 8, 16, true, true⟩, ⟨5, 700, some 1, 0, 16, false, false⟩] })) := by
  decide +kernel

theorem witness_HostControl_writeDataArrived :
    (fun (slot : Fin 8192) (data : List Byte) (c : HostCmd) (s : State) => Sound s ∧ (s.cmdAt slot.val = some c ∧ s.cmdOf c.stamp = some c ∧ c.dataDue = true ∧
    (if c.kind = .write then data.length = 4096 * c.nlb else data.length ≤ 0x40000))) ((5) : Fin 8192) (([1, 2, 3, 4, 5, 6, 7, 8]) : List Byte) (({ cmdA .seqCall with dataDue := true }) : HostCmd) ((hostCmdA { cmdA .seqCall with dataDue := true })) := by
  decide +kernel

theorem witness_HostControl_workOrderIssue :
    (fun (slot : Fin 8192) (c : HostCmd) (s : State) => Sound s ∧ (s.cmdAt slot.val = some c ∧ s.cmdOf c.stamp = some c ∧ s.orderDue c = true ∧ c.kind.looksUp = false)) ((5) : Fin 8192) ((cmdA .seqCall) : HostCmd) ((hostCmdA (cmdA .seqCall))) := by
  decide +kernel

theorem witness_HostControl_workOrderIssue_7 :
    (fun (slot : Fin 8192) (c : HostCmd) (s : State) => Sound s ∧ (s.cmdAt slot.val = some c ∧ s.cmdOf c.stamp = some c ∧ s.orderDue c = true ∧ c.kind.looksUp = true ∧ (s.writeSlotRecord c).1 = true)) ((5) : Fin 8192) ((cmdA .dsm) : HostCmd) ((hostCmdA (cmdA .dsm))) := by
  decide +kernel

theorem witness_HostControl_woGet :
    (fun (b : Fin 24) (u : Upset) (i : Ins) (p : Space) (c : HostCmd) (s : State) => Sound s ∧ (Issues s b u i ∧ i.op = 0x74 ∧ s.capBit b famWO = true ∧ scratchAt (valA s b i).toNat 64 = .ok p ∧ s.host.notices = [] ∧
    s.nextOrder = some c ∧ s.cmdOf c.stamp = some c)) ((16) : Fin 24) ((.none) : Upset) ((insA 0x74008C00) : Ins) ((.scratch 0xFF) : Space) (({ cmdA .read with order := .queued }) : HostCmd) ((insHost 0x74008C00 [{ cmdA .read with order := .queued }])) := by
  decide +kernel

theorem witness_HostControl_woGet_9 :
    (fun (b : Fin 24) (u : Upset) (i : Ins) (p : Space) (x : Notice) (rest : List Notice) (s : State) => Sound s ∧ (Issues s b u i ∧ i.op = 0x74 ∧ s.capBit b famWO = true ∧ scratchAt (valA s b i).toNat 64 = .ok p ∧ s.host.notices = x :: rest)) ((16) : Fin 24) ((.none) : Upset) ((insA 0x74008C00) : Ins) ((.scratch 0xFF) : Space) ((⟨5, 700, 0⟩) : Notice) (([]) : List Notice) (((insHost 0x74008C00 []).modHost fun h => { h with notices := [⟨5, 700, 0⟩] })) := by
  decide +kernel

theorem witness_HostControl_woGet_10 :
    (fun (b : Fin 24) (u : Upset) (i : Ins) (p : Space) (s : State) => Sound s ∧ (Issues s b u i ∧ i.op = 0x74 ∧ s.capBit b famWO = true ∧ scratchAt (valA s b i).toNat 64 = .ok p ∧ s.host.notices = [] ∧ s.nextOrder = none)) ((16) : Fin 24) ((.none) : Upset) ((insA 0x74008C00) : Ins) ((.scratch 0xFF) : Space) ((insHost 0x74008C00 [])) := by
  decide +kernel

theorem witness_HostControl_woDone :
    (fun (b : Fin 24) (u : Upset) (i : Ins) (p : Space) (c : HostCmd) (a : Fin 24) (s : State) => Sound s ∧ (Issues s b u i ∧ i.op = 0x75 ∧ s.capBit b famWO = true ∧ scratchAt (valA s b i).toNat 16 = .ok p ∧
    OrderOut s (fieldAt (s.spaceRead b p 16) 0 2) c a ∧ c.kind = .read ∧ fieldAt (s.spaceRead b p 16) 2 2 / 2 % 2048 = 0 ∧
    (∀ k : Fin 2, (s.fnOf k.val).phase = .running))) ((16) : Fin 24) ((.none) : Upset) ((insA 0x75010C00) : Ins) ((.scratch 0xFF) : Space) (({ cmdA .read with order := .taken 3 }) : HostCmd) ((3) : Fin 24) (((insHost 0x75010C00 [{ cmdA .read with order := .taken 3 }]).spaceWrite 16 (.scratch 0xFF) [5, 0, 0, 0, 9])) := by
  decide +kernel

theorem witness_HostControl_woDone_12 :
    (fun (b : Fin 24) (u : Upset) (i : Ins) (p : Space) (c : HostCmd) (a : Fin 24) (s : State) => Sound s ∧ (Issues s b u i ∧ i.op = 0x75 ∧ s.capBit b famWO = true ∧ scratchAt (valA s b i).toNat 16 = .ok p ∧
    OrderOut s (fieldAt (s.spaceRead b p 16) 0 2) c a ∧ c.kind = .flush ∧ fieldAt (s.spaceRead b p 16) 2 2 / 2 % 2048 = 0 ∧
    s.host.cmds = [c] ∧ s.flushBlocked c.stamp c.nsid = false)) ((16) : Fin 24) ((.none) : Upset) ((insA 0x75010C00) : Ins) ((.scratch 0xFF) : Space) (({ cmdA .flush with order := .taken 3 }) : HostCmd) ((3) : Fin 24) (((insHost 0x75010C00 [{ cmdA .flush with order := .taken 3 }]).spaceWrite 16 (.scratch 0xFF) [5, 0, 0, 0, 9])) := by
  decide +kernel

theorem witness_HostControl_woDone_13 :
    (fun (b : Fin 24) (u : Upset) (i : Ins) (p : Space) (c : HostCmd) (a : Fin 24) (s : State) => Sound s ∧ (Issues s b u i ∧ i.op = 0x75 ∧ s.capBit b famWO = true ∧ scratchAt (valA s b i).toNat 16 = .ok p ∧
    OrderOut s (fieldAt (s.spaceRead b p 16) 0 2) c a ∧ fieldAt (s.spaceRead b p 16) 2 2 / 2 % 2048 = stUnrecovered)) ((16) : Fin 24) ((.none) : Upset) ((insA 0x75010C00) : Ins) ((.scratch 0xFF) : Space) (({ cmdA .read with order := .taken 3 }) : HostCmd) ((3) : Fin 24) (((insHost 0x75010C00 [{ cmdA .read with order := .taken 3 }]).spaceWrite 16 (.scratch 0xFF) [5, 0, 0x02, 0x05, 7])) := by
  decide +kernel

theorem witness_HostControl_woDone_14 :
    (fun (b : Fin 24) (u : Upset) (i : Ins) (p : Space) (s : State) => Sound s ∧ (Issues s b u i ∧ i.op = 0x75 ∧ s.capBit b famWO = true ∧ scratchAt (valA s b i).toNat 16 = .ok p ∧
    s.cmdAt (fieldAt (s.spaceRead b p 16) 0 2) = none)) ((16) : Fin 24) ((.none) : Upset) ((insA 0x75010C00) : Ins) ((.scratch 0xFF) : Space) ((insHost 0x75010C00 [])) := by
  decide +kernel

theorem witness_HostControl_woDone_15 :
    (fun (b : Fin 24) (u : Upset) (i : Ins) (p : Space) (c : HostCmd) (s : State) => Sound s ∧ (Issues s b u i ∧ i.op = 0x75 ∧ s.capBit b famWO = true ∧ scratchAt (valA s b i).toNat 16 = .ok p ∧
    s.cmdAt (fieldAt (s.spaceRead b p 16) 0 2) = some c ∧ s.snipHeld c.stamp = true)) ((16) : Fin 24) ((.none) : Upset) ((insA 0x75010C00) : Ins) ((.scratch 0xFF) : Space) (({ cmdA .read with order := .taken 3 }) : HostCmd) ((((insHost 0x75010C00 [{ cmdA .read with order := .taken 3 }]).spaceWrite 16 (.scratch 0xFF) [5, 0, 0, 0, 9]).modFn 0 fun f => { f with snips := [⟨1, 9, 50, some (700, 5), 0⟩] })) := by
  decide +kernel

theorem witness_HostControl_woAen :
    (fun (b : Fin 24) (u : Upset) (i : Ins) (s : State) => Sound s ∧ (Issues s b u i ∧ i.op = 0x76 ∧ s.capBit b famWO = true)) ((16) : Fin 24) ((.none) : Upset) ((insA 0x76000C00) : Ins) (((insHost 0x76000C00 []).modBob 16 fun x => { x with g := x.g.set 3 0xC10001 }).setFeature 0 0x0B 0 4) := by
  decide +kernel

theorem witness_HostControl_completionPost :
    (fun (slot : Fin 8192) (c : HostCmd) (d : Decision) (q : CmpQ) (s : State) => Sound s ∧ (s.cmdAt slot.val = some c ∧ c.decided = some d ∧ s.cq c.fn c.cqid = some q ∧ (q.tail + 1) % q.size ≠ q.head ∧ s.snipHeld c.stamp = false ∧
    (∀ x ∈ s.host.cmds, x.fn = c.fn ∧ x.cqid = c.cqid → (x.decided.map fun y => decide (d.seq ≤ y.seq)) ≠ some false))) ((5) : Fin 8192) (({ cmdA .admin with decided := some ⟨0, 6, [1, 2], 3⟩ }) : HostCmd) ((⟨0, 6, [1, 2], 3⟩) : Decision) ((⟨0, 1, 0x4000, 16, 0, 0, true, true, 1, 0, 0⟩) : CmpQ) ((hostCmdA { cmdA .admin with decided := some ⟨0, 6, [1, 2], 3⟩ })) := by
  decide +kernel

theorem witness_HostControl_completionPost_18 :
    (fun (slot : Fin 8192) (c : HostCmd) (d : Decision) (q : CmpQ) (s : State) => Sound s ∧ (s.cmdAt slot.val = some c ∧ c.decided = some d ∧ s.cq c.fn c.cqid = some q ∧ (q.tail + 1) % q.size = q.head)) ((5) : Fin 8192) (({ cmdA .admin with decided := some ⟨0, 6, [1, 2], 3⟩ }) : HostCmd) ((⟨0, 6, [1, 2], 3⟩) : Decision) ((⟨0, 1, 0x4000, 16, 4, 3, true, true, 1, 0, 0⟩) : CmpQ) (((hostCmdA { cmdA .admin with decided := some ⟨0, 6, [1, 2], 3⟩ }).modHost fun h => { h with cqs := [⟨0, 1, 0x4000, 16, 4, 3, true, true, 1, 0, 0⟩] })) := by
  decide +kernel

theorem witness_HostControl_interruptCoalescingTime :
    (fun (fn : Fin 2) (qid : Nat) (q : CmpQ) (s : State) => Sound s ∧ (s.cq fn.val qid = some q ∧ q.heldN ≠ 0 ∧ q.heldSince + s.feature fn.val 8 0 / 256 % 256 * 150000 ≤ s.now)) ((0) : Fin 2) ((1) : Nat) ((⟨0, 1, 0x4000, 16, 0, 0, true, true, 1, 2, 5⟩) : CmpQ) (((hostA true).modHost fun h => { h with cqs := [⟨0, 1, 0x4000, 16, 0, 0, true, true, 1, 2, 5⟩] })) := by
  decide +kernel

theorem witness_HostControl_pcieDmaError :
    (fun (slot : Fin 8192) (c : HostCmd) (s : State) => Sound s ∧ (s.cmdAt slot.val = some c ∧ s.cmdOf c.stamp = some c ∧ c.decided = none ∧ c.hasPtr = true ∧ (c.order = .notIssued ∨ c.order = .queued))) ((5) : Fin 8192) (({ cmdA .read with order := .queued }) : HostCmd) ((hostCmdA { cmdA .read with order := .queued })) := by
  decide +kernel

theorem witness_HostControl_pcieDmaError_21 :
    (fun (slot : Fin 8192) (c : HostCmd) (d : Decision) (s : State) => Sound s ∧ (s.cmdAt slot.val = some c ∧ s.cmdOf c.stamp = some c ∧ c.decided = some d ∧ d.status = 0 ∧ c.hasPtr = true)) ((5) : Fin 8192) (({ cmdA .read with decided := some ⟨0, 6, [1], 3⟩ }) : HostCmd) ((⟨0, 6, [1], 3⟩) : Decision) ((hostCmdA { cmdA .read with decided := some ⟨0, 6, [1], 3⟩ })) := by
  decide +kernel

theorem witness_HostControl_snipRequest :
    (fun (fn : Fin 2) (_sqid _cid : Fin 65536) (s : State) => Sound s ∧ ((s.fnOf fn.val).snips.length < 64)) ((0) : Fin 2) ((1) : Fin 65536) ((9) : Fin 65536) ((hostA true)) := by
  decide +kernel

theorem witness_HostControl_snipRequest_23 :
    (fun (fn : Fin 2) (_sqid _cid : Fin 65536) (s : State) => Sound s ∧ (64 ≤ (s.fnOf fn.val).snips.length)) ((0) : Fin 2) ((1) : Fin 65536) ((9) : Fin 65536) (((hostA true).modFn 0 fun f => { f with snips := List.replicate 64 ⟨1, 2, 3, none, 1⟩ })) := by
  decide +kernel

theorem witness_HostControl_snipResolve :
    (fun (fn : Fin 2) (x : Snip) (rest : List Snip) (c : HostCmd) (s : State) => Sound s ∧ ((s.fnOf fn.val).snips = x :: rest ∧ x.result = 0 ∧ x.target = some (c.stamp, c.slot) ∧ s.cmdOf c.stamp = some c ∧ c.decided = none)) ((0) : Fin 2) ((⟨1, 9, 50, some (700, 5), 0⟩) : Snip) (([]) : List Snip) (({ cmdA .read with order := .queued }) : HostCmd) (((hostCmdA { cmdA .read with order := .queued }).modFn 0 fun f => { f with snips := [⟨1, 9, 50, some (700, 5), 0⟩] })) := by
  decide +kernel

theorem witness_HostControl_snipResolve_25 :
    (fun (fn : Fin 2) (x : Snip) (rest : List Snip) (s : State) => Sound s ∧ ((s.fnOf fn.val).snips = x :: rest ∧ x.result ≠ 0)) ((0) : Fin 2) ((⟨1, 9, 50, none, 1⟩) : Snip) (([]) : List Snip) (((hostA true).modFn 0 fun f => { f with snips := [⟨1, 9, 50, none, 1⟩] })) := by
  decide +kernel

theorem witness_HostControl_controllerEnable :
    (fun (fn : Fin 2) (cc : Word) (s : State) => Sound s ∧ (s.functions.contains fn = true ∧ s.enabled fn.val = false ∧ (s.fnOf fn.val).phase = .running ∧ natBits cc.toNat 19 16 = 6 ∧
    natBits cc.toNat 23 20 = 4)) ((0) : Fin 2) ((0x460000) : Word) stUp := by
  decide +kernel

theorem witness_HostControl_controllerEnable_27 :
    (fun (fn : Fin 2) (cc : Word) (s : State) => Sound s ∧ (s.functions.contains fn = true ∧ s.enabled fn.val = false ∧ (s.fnOf fn.val).phase = .running ∧
    (natBits cc.toNat 19 16 ≠ 6 ∨ natBits cc.toNat 23 20 ≠ 4))) ((0) : Fin 2) ((0x450000) : Word) stUp := by
  decide +kernel

theorem witness_HostControl_hostReadySet :
    (fun  (s : State) => Sound s ∧ (s.flag R.SYS_BOOT F.SYS_BOOT_HOST_READY = false))  ((stUp.modFn 0 fun f => { f with wantsRdy := true })) := by
  decide +kernel

theorem witness_HostControl_hostReadySet_29 :
    (fun  (s : State) => Sound s ∧ (s.flag R.SYS_BOOT F.SYS_BOOT_HOST_READY = true))  ((hostA true)) := by
  decide +kernel

theorem witness_HostControl_shutdownNormal :
    (fun (fn : Fin 2) (s : State) => Sound s ∧ (s.functions.contains fn = true ∧ s.enabled fn.val = true ∧ (s.fnOf fn.val).phase = .running)) ((0) : Fin 2) ((hostA true)) := by
  decide +kernel

theorem witness_HostControl_shutdownAbrupt :
    (fun (fn : Fin 2) (s : State) => Sound s ∧ (s.enabled fn.val = true ∧ s.resetting fn.val = false)) ((0) : Fin 2) ((hostCmdA (cmdA .read))) := by
  decide +kernel

theorem witness_HostControl_shutdownComplete :
    (fun (fn : Fin 2) (s : State) => Sound s ∧ ((s.fnOf fn.val).phase = .hemming ∧ s.noPass = true)) ((0) : Fin 2) (((hostA true).modFn 0 fun f => { f with phase := .hemming })) := by
  decide +kernel

theorem witness_HostControl_shutdownComplete_33 :
    (fun (_fn : Fin 2) (s : State) => Sound s ∧ (s.noPass = false)) ((0) : Fin 2) ((stPass.modFn 0 fun f => { f with phase := .hemming })) := by
  decide +kernel

theorem witness_HostControl_controllerReset :
    (fun (fn : Fin 2) (s : State) => Sound s ∧ (s.functions.contains fn = true ∧ s.enabled fn.val = true ∧ s.resetting fn.val = false ∧ s.host.activation = none ∧ s.noPass = true ∧
    s.reloadDue = false)) ((0) : Fin 2) ((hostCmdA (cmdA .read))) := by
  decide +kernel

theorem witness_HostControl_controllerReset_35 :
    (fun (fn : Fin 2) (s : State) => Sound s ∧ (s.functions.contains fn = true ∧ s.enabled fn.val = true ∧ s.resetting fn.val = false ∧ s.host.activation = none ∧ s.noPass = false)) ((0) : Fin 2) (((stPass.setReg (fnKey 0 nvmeCC) 0x460001).modHost fun h => { h with cmds := [cmdA .read] })) := by
  decide +kernel

theorem witness_HostControl_controllerReset_36 :
    (fun (fn : Fin 2) (s : State) => Sound s ∧ (s.functions.contains fn = true ∧ s.enabled fn.val = true ∧ s.resetting fn.val = false ∧ s.host.activation.isSome = true ∧ s.mcActive = false)) ((0) : Fin 2) (((hostA true).modHost fun h => { h with activation := some ⟨100, 700, 2, false⟩ })) := by
  decide +kernel

theorem witness_HostControl_functionLevelReset :
    (fun (fn : Fin 2) (s : State) => Sound s ∧ (s.functions.contains fn = true ∧ s.resetting fn.val = false ∧ s.host.activation = none ∧ s.noPass = true ∧ s.reloadDue = false)) ((0) : Fin 2) ((hostCmdA (cmdA .read))) := by
  decide +kernel

theorem witness_HostControl_functionLevelReset_38 :
    (fun (fn : Fin 2) (s : State) => Sound s ∧ (s.functions.contains fn = true ∧ s.resetting fn.val = false ∧ s.host.activation.isSome = true ∧ s.mcActive = false)) ((0) : Fin 2) (((hostA true).modHost fun h => { h with activation := some ⟨100, 700, 2, false⟩ })) := by
  decide +kernel

theorem witness_HostControl_patchReload :
    (fun  (s : State) => Sound s ∧ (s.reloadDue = true ∧ s.noPass = true ∧ (∃ f ∈ s.functions, (s.fnOf f.val).phase = .resetting)))  ((((hostA true).setFld R.CS_MC_STATUS F.CS_MC_STATUS_ACTIVE 1).setFld R.CS_MC_ADDR F.CS_MC_ADDR_UADDR 0x4000).modFn 0 fun f => { f with phase := .resetting }) := by
  decide +kernel

theorem witness_HostControl_hemComplete :
    (fun (head : Fin 16) (p : Pass) (m : Hem) (w : Waiter) (s : State) => Sound s ∧ ((s.head head).pass = some p ∧ p.hem = some m ∧ m.withdrawn = true ∧ m.writingBack = false ∧ s.twillBusyFor head.val p.no = false ∧
    (∀ r ∈ s.decode.waiting, ¬ (r.head = head.val ∧ r.pass = p.no)) ∧ m.waiters = [w] ∧ (s.head head).opening = none ∧
    (s.head head).leaving = none ∧ (∀ k : Fin 2, (s.fnOf k.val).phase ≠ .resetting))) ((0) : Fin 16) (({ passA with hem := some { hemA with withdrawn := true, waiters := [⟨2, 2049, 0⟩] } }) : Pass) (({ hemA with withdrawn := true, waiters := [⟨2, 2049, 0⟩] }) : Hem) ((⟨2, 2049, 0⟩) : Waiter) ((stPass.modHead 0 fun h => { h with pass := some { passA with hem := some { hemA with withdrawn := true, waiters := [⟨2, 2049, 0⟩] } } })) := by
  decide +kernel

theorem witness_HostControl_hemComplete_41 :
    (fun (head : Fin 16) (p : Pass) (m : Hem) (s : State) => Sound s ∧ ((s.head head).pass = some p ∧ p.hem = some m ∧ (m.withdrawn = false ∨ m.writingBack = true))) ((0) : Fin 16) (({ passA with hem := some hemA }) : Pass) ((hemA) : Hem) ((stPass.modHead 0 fun h => { h with pass := some { passA with hem := some hemA } })) := by
  decide +kernel

theorem witness_HostControl_hemComplete_42 :
    (fun (head : Fin 16) (p : Pass) (m : Hem) (s : State) => Sound s ∧ ((s.head head).pass = some p ∧ p.hem = some m ∧ m.withdrawn = true ∧ m.writingBack = false ∧ s.twillBusyFor head.val p.no = false ∧
    (∀ r ∈ s.decode.waiting, ¬ (r.head = head.val ∧ r.pass = p.no)) ∧ m.waiters = [] ∧ (s.head head).opening = none ∧
    (s.head head).leaving = none ∧ (s.fnOf 0).phase = .resetting ∧ (∀ k : Fin 16, k ≠ head → (s.head k).pass = none) ∧ s.reloadDue = false)) ((0) : Fin 16) (({ passA with hem := some { hemA with withdrawn := true } }) : Pass) (({ hemA with withdrawn := true }) : Hem) (((stPass.modHead 0 fun h => { h with pass := some { passA with hem := some { hemA with withdrawn := true } } }).modFn 0 fun f => { f with phase := .resetting })) := by
  decide +kernel

theorem witness_HostControl_firmwareActivationStart :
    (fun (j : CommitJob) (s : State) => Sound s ∧ (s.host.commit = some j ∧ j.written = true ∧ j.ca = 3 ∧ s.host.activation = none)) ((⟨700, 2, 3, 4, true⟩) : CommitJob) (((hostA true).modHost fun h => { h with commit := some ⟨700, 2, 3, 4, true⟩ })) := by
  decide +kernel

theorem witness_HostControl_activationDrainDeadline :
    (fun (a : Activation) (c : HostCmd) (s : State) => Sound s ∧ (s.host.activation = some a ∧ a.drained = false ∧ a.t0 + 300 * ticksMs ≤ s.now ∧ s.mcActive = false ∧ s.cmdOf c.stamp = some c ∧
    c.abortable = true ∧ c.stamp ≠ a.cmd)) ((⟨100, 600, 2, false⟩) : Activation) (({ cmdA .read with order := .taken 3 }) : HostCmd) (({ stIns 0 with time := { (stIns 0).time with tb := 500000000 }, host := (hostCmdA { cmdA .read with order := .taken 3 }).host }.modHost fun h => { h with activation := some ⟨100, 600, 2, false⟩ })) := by
  decide +kernel

theorem witness_HostControl_firmwareActivationResume :
    (fun (a : Activation) (c : HostCmd) (s : State) => Sound s ∧ (s.host.activation = some a ∧ a.drained = true ∧ s.noPass = true ∧ s.mcActive = false ∧
    (∀ b : Fin 24, (s.bob b).st = .halted ∨ (s.bob b).st = .exception) ∧ (∀ f ∈ s.functions, s.resetting f.val = false) ∧
    s.cmdOf a.cmd = some c ∧ c.decided = none)) ((⟨100, 700, 2, true⟩) : Activation) ((cmdA .fwCommit) : HostCmd) (((hostCmdA (cmdA .fwCommit)).modHost fun h => { h with activation := some ⟨100, 700, 2, true⟩ })) := by
  decide +kernel

theorem witness_HostControl_configRequest :
    (fun (_req : ConfigReq) (s : State) => Sound s ∧ (s.fld R.SYS_BOOT F.SYS_BOOT_STAGE < 2)) ((⟨0, .identity⟩) : ConfigReq) stRun := by
  decide +kernel

theorem witness_HostControl_configRequest_47 :
    (fun (req : ConfigReq) (s : State) => Sound s ∧ (2 ≤ s.fld R.SYS_BOOT F.SYS_BOOT_STAGE ∧ req.item ≠ .subsystem)) ((⟨1, .barSize 2⟩) : ConfigReq) (((hostA true).setFld R.SYS_BOOT F.SYS_BOOT_STAGE 3)) := by
  decide +kernel

theorem witness_HostControl_configRequest_48 :
    (fun (req : ConfigReq) (r : Running) (s : State) => Sound s ∧ (2 ≤ s.fld R.SYS_BOOT F.SYS_BOOT_STAGE ∧ req.item = .subsystem ∧ s.sec.running = some r)) ((⟨0, .subsystem⟩) : ConfigReq) ((⟨1, 0, 0, [0, 0, 0, 0, 0, 0, 0, 0, 0, 0, 0, 0, 1, 2, 3, 4], [], [], [], []⟩) : Running) ((({ hostA true with sec := { (hostA true).sec with running := some ⟨1, 0, 0, [0, 0, 0, 0, 0, 0, 0, 0, 0, 0, 0, 0, 1, 2, 3, 4], [], [], [], []⟩ } }).setFld R.SYS_BOOT F.SYS_BOOT_STAGE 3)) := by
  decide +kernel

theorem witness_HostControl_nvmeMiBasicCommand :
    (fun (code : Fin 256) (s : State) => Sound s ∧ (code.val = 0)) ((0) : Fin 256) ((hostA true)) := by
  decide +kernel

theorem witness_HostControl_nvmeMiBasicCommand_50 :
    (fun (code : Fin 256) (s : State) => Sound s ∧ (code.val ≠ 0)) ((5) : Fin 256) ((hostA true)) := by
  decide +kernel

end Sys2Proof.Tests
end

section
/-!
PROOFS. Register pairs (R8): what a read of a _LO or _HI half answers and latches, what a write of a _LO half holds, and how
the write of the _HI half takes the held word with it. Settles O11.
-/

namespace Sys2Proof.Machine

/-! ## The pieces of an access -/

theorem when_of_true {c : Bool} (h : c = true) (s t : State) : when c s t = .next t := by
  rw [when, if_pos h]

/-- The entry just inserted is the one that a lookup of its key finds. -/
theorem lookup_storeInsert_self {α : Type} (k : Nat) (v : α) (l : List (Nat × α)) : (storeInsert k v l).lookup k = some v := by
  induction l with
  | nil => simp [storeInsert]
  | cons e l ih =>
    obtain ⟨a, w⟩ := e
    simp only [storeInsert]
    split
    · simp
    · split
      · simp
      · rw [List.lookup_cons, beq_false_of_ne ‹k ≠ a›]
        exact ih

theorem State.reg_writePlain (s : State) (k j : Nat) (w : Word) :
    (s.writePlain k w).reg j = if j = k then writtenWord (k % 0x1000000) (s.reg k) w else s.reg j :=
  s.reg_setReg k j _

/-- A write's place in port order leaves the state it is given, or notes the write in the host part alone, unless port 0 meets a
note of port 1 (R18). -/
theorem State.portOrder_cases (s : State) (acc : Accessor) (off val : Nat) (t : State)
    (h : s.boot.bifurcated = false ∨ s.host.port1 = none ∨ acc ≠ .host 0) :
    s.portOrder acc off val t = t ∨ ∃ f, s.portOrder acc off val t = t.modHost f := by
  simp only [State.portOrder]
  split
  · exact .inl rfl
  · rename_i hboth
    split
    · exact .inl rfl
    · exact .inr ⟨_, rfl⟩
    · rename_i fn hfn
      have hport : fn = 0 := by
        have : fn ≠ 1 := fun e => hfn (e ▸ rfl)
        omega
      have hnone : s.host.port1 = none := by
        rcases h with hb | hn | hacc
        · simp [hb] at hboth
        · exact hn
        · exact absurd (hport ▸ rfl) hacc
      rw [hnone]
      exact .inl rfl

/-! ## Where an assigned register of a block in service is read or written -/

section Assigned

variable {s : State} {acc : Accessor} {off key : Nat} (hoff : off < 0x1000000) (hup : s.ownerUp off = true)
  (hkey : s.keyOf acc off = some key) (hassigned : assignedKey key = true)

include hoff hup hkey hassigned

theorem State.regRead_lo (hrole : roleOf key = .roLo ∨ roleOf key = .rwLo) :
    s.regRead acc off =
      (s.wholePair acc key % 2 ^ 32, { s with latches := s.latches.set (latchOf acc) (s.wholePair acc key) }) := by
  have hbar : ¬ bar2Base ≤ off := Nat.not_le.mpr hoff
  rcases hrole with hrole | hrole <;> simp [State.regRead, hbar, hup, hkey, hassigned, hrole]

theorem State.regRead_hi (hrole : roleOf key = .roHi ∨ roleOf key = .rwHi) :
    s.regRead acc off = (s.latches[latchOf acc] / 2 ^ 32 % 2 ^ 32, s) := by
  have hbar : ¬ bar2Base ≤ off := Nat.not_le.mpr hoff
  rcases hrole with hrole | hrole <;> simp [State.regRead, hbar, hup, hkey, hassigned, hrole]

theorem State.regWrite_lo (val : Nat) (hrole : roleOf key = .rwLo) :
    s.regWrite acc off val = s.holdLo acc key (BitVec.ofNat 32 val) := by
  have hbar : ¬ bar2Base ≤ off := Nat.not_le.mpr hoff
  simp [State.regWrite, hbar, hup, hkey, hassigned, hrole]

theorem State.regWrite_hi (val : Nat) (hrole : roleOf key = .rwHi) :
    s.regWrite acc off val = s.writeHi acc (key - 4) (BitVec.ofNat 32 val) := by
  have hbar : ¬ bar2Base ≤ off := Nat.not_le.mpr hoff
  simp [State.regWrite, hbar, hup, hkey, hassigned, hrole]

end Assigned

/-! ## The halves of an RW pair -/

theorem State.holdLo_of_open {s : State} {acc : Accessor} {lo : Nat} (w : Word) (h : s.pairOpen acc lo = true) :
    s.holdLo acc lo w = { s with heldLo := storeInsert (heldKey acc lo) w s.heldLo } := by
  rw [State.holdLo, if_pos h]

theorem State.writeHi_of_held {s : State} {acc : Accessor} {lo : Nat} {wl : Word} (w : Word) (h : s.pairOpen acc lo = true)
    (hheld : s.heldLo.lookup (heldKey acc lo) = some wl) :
    s.writeHi acc lo w = ({ s with heldLo := storeErase (heldKey acc lo) s.heldLo }).applyPair lo wl w := by
  rw [State.writeHi, if_pos h, hheld]
  rfl

/-- The data base and the placement base set nothing off: their halves are stored by their access types. -/
theorem State.applyPair_base (s : State) {lo : Nat} (wl wh : Word) (h : lo = R.HC_DATA_BASE_LO ∨ lo = R.HC_PL_BASE_LO) :
    s.applyPair lo wl wh = (s.writePlain lo wl).writePlain (lo + 4) wh := by
  rcases h with rfl | rfl <;> rfl

/-- Both halves of a pair stored: each takes its word, and every other register stays. -/
theorem State.reg_writePlain_pair (s : State) (lo : Nat) (wl wh : Word) (h : lo + 4 < 0x1000000) :
    ((s.writePlain lo wl).writePlain (lo + 4) wh).reg lo = writtenWord lo (s.reg lo) wl ∧
    ((s.writePlain lo wl).writePlain (lo + 4) wh).reg (lo + 4) = writtenWord (lo + 4) (s.reg (lo + 4)) wh ∧
    RegsBut [lo, lo + 4] s ((s.writePlain lo wl).writePlain (lo + 4) wh) := by
  have hlo : lo % 0x1000000 = lo := Nat.mod_eq_of_lt (by omega)
  have hhi : (lo + 4) % 0x1000000 = lo + 4 := Nat.mod_eq_of_lt h
  refine ⟨?_, ?_, fun k hk => ?_⟩
  · simp [State.reg_writePlain, hlo]
  · simp [State.reg_writePlain, hhi]
  · obtain ⟨hkl, hkh⟩ : k ≠ lo ∧ k ≠ lo + 4 := by simpa using hk
    rw [State.reg_writePlain, if_neg hkh, State.reg_writePlain, if_neg hkl]

/-! ## The access commands -/

theorem exec_loRegisterRead_eq {s : State} {acc : Accessor} {off : Nat} (h : s.accessible acc off false = true) :
    exec (.loRegisterRead acc off) s = .next (State.answerRead acc off (s.regRead acc off)) :=
  when_of_true h _ _

theorem exec_registerWrite_eq {s : State} {acc : Accessor} {off : Nat} (val : Nat) (h : s.accessible acc off true = true) :
    exec (.registerWrite acc off val) s = .next (s.portOrder acc off val (s.regWrite acc off val)) :=
  when_of_true h _ _

theorem exec_rwPairHiWrite_eq {s : State} {acc : Accessor} {off : Nat} (val : Nat) (h : s.accessible acc off true = true)
    (hrole : roleOf off = .rwHi) : exec (.rwPairHiWrite acc off val) s = .next (s.regWrite acc off val) :=
  when_of_true (by simp [h, hrole]) _ _

/-- R8, a read of a _LO half: the answer is the low half, and the accessor's own latch alone takes the whole value. -/
theorem loRegisterRead_lo_completes (acc : Accessor) (off key : Nat) :
    Completes (.loRegisterRead acc off)
      (fun s => s.accessible acc off false = true ∧ off < 0x1000000 ∧ s.ownerUp off = true ∧ s.keyOf acc off = some key ∧
          assignedKey key = true ∧ (roleOf key = .roLo ∨ roleOf key = .rwLo))
      [.events, .latches, .out]
      fun s t => t.events = s.events ∧ t.latches[latchOf acc] = s.wholePair acc key ∧
          (∀ i : Fin 3, i ≠ latchOf acc → t.latches[i] = s.latches[i]) ∧
          t.out = .readData (accNumber acc) off (s.wholePair acc key % 2 ^ 32) :: s.out := by
  rintro s - ⟨hacc, hoff, hup, hkey, hassigned, hrole⟩
  have hexec := exec_loRegisterRead_eq hacc
  refine ⟨_, hexec, (execLoRegisterRead_keeps acc off s _ hexec).frame, ?_⟩
  rw [State.regRead_lo hoff hup hkey hassigned hrole]
  refine ⟨rfl, ?_, fun i hi => ?_, rfl⟩
  · simp [State.answerRead]
  · simp [State.answerRead, Fin.val_ne_of_ne hi.symm]

/-- R8, a read of a _HI half: the upper half of what the accessor has latched, and nothing else moves. -/
theorem loRegisterRead_hi_completes (acc : Accessor) (off key : Nat) :
    Completes (.loRegisterRead acc off)
      (fun s => s.accessible acc off false = true ∧ off < 0x1000000 ∧ s.ownerUp off = true ∧ s.keyOf acc off = some key ∧
          assignedKey key = true ∧ (roleOf key = .roHi ∨ roleOf key = .rwHi))
      [.events, .latches, .out]
      fun s t => t.events = s.events ∧ t.latches = s.latches ∧
          t.out = .readData (accNumber acc) off (s.latches[latchOf acc] / 2 ^ 32 % 2 ^ 32) :: s.out := by
  rintro s - ⟨hacc, hoff, hup, hkey, hassigned, hrole⟩
  have hexec := exec_loRegisterRead_eq hacc
  refine ⟨_, hexec, (execLoRegisterRead_keeps acc off s _ hexec).frame, ?_⟩
  rw [State.regRead_hi hoff hup hkey hassigned hrole]
  exact ⟨rfl, rfl, rfl⟩

/-- R8, a write of a _LO half: held for its accessor, whichever port it comes through. -/
theorem registerWrite_lo_completes (acc : Accessor) (off val key : Nat) :
    Completes (.registerWrite acc off val)
      (fun s => s.accessible acc off true = true ∧ off < 0x1000000 ∧ s.ownerUp off = true ∧ s.keyOf acc off = some key ∧
          assignedKey key = true ∧ roleOf key = .rwLo ∧ s.pairOpen acc key = true ∧
          (s.boot.bifurcated = false ∨ s.host.port1 = none ∨ acc ≠ .host 0))
      [.events, .regs, .heldLo, .msix, .domains, .heads, .decode, .loop, .seq, .mem, .motion, .host, .cal, .sec, .out, .free]
      fun s t => t.heldLo.lookup (heldKey acc key) = some (BitVec.ofNat 32 val) ∧ t.regs = s.regs ∧ t.mem = s.mem ∧
          t.events = s.events := by
  rintro s - ⟨hacc, hoff, hup, hkey, hassigned, hrole, hopen, hport⟩
  have hexec := exec_registerWrite_eq val hacc
  refine ⟨_, hexec, (execRegisterWrite_keeps acc off val s _ hexec).frame, ?_⟩
  have hheld := lookup_storeInsert_self (heldKey acc key) (BitVec.ofNat 32 val) s.heldLo
  rw [State.regWrite_lo hoff hup hkey hassigned val hrole, State.holdLo_of_open _ hopen]
  rcases s.portOrder_cases acc off val _ hport with h | ⟨f, h⟩
  · rw [h]
    exact ⟨hheld, rfl, rfl, rfl⟩
  · rw [h]
    exact ⟨hheld, rfl, rfl, rfl⟩

/-- R8, the write of the _HI half of the data base or the placement base: both halves change in one step. -/
theorem rwPairHiWrite_completes (acc : Accessor) (off val : Nat) (wl : Word) :
    Completes (.rwPairHiWrite acc off val)
      (fun s => s.accessible acc off true = true ∧ s.ownerUp off = true ∧ s.keyOf acc off = some off ∧ assignedKey off = true ∧
          roleOf off = .rwHi ∧ (off = R.HC_DATA_BASE_HI ∨ off = R.HC_PL_BASE_HI) ∧ s.pairOpen acc (off - 4) = true ∧
          s.heldLo.lookup (heldKey acc (off - 4)) = some wl)
      [.events, .regs, .heldLo, .msix, .domains, .heads, .decode, .loop, .seq, .mem, .motion, .host, .cal, .sec, .out, .free]
      fun s t => t.reg (off - 4) = writtenWord (off - 4) (s.reg (off - 4)) wl ∧
          t.reg off = writtenWord off (s.reg off) (BitVec.ofNat 32 val) ∧
          RegsBut [off - 4, off] s t ∧ t.mem = s.mem ∧ t.host = s.host ∧ t.events = s.events := by
  rintro s - ⟨hacc, hup, hkey, hassigned, hrole, hbase, hopen, hheld⟩
  obtain ⟨lo, rfl, hlo⟩ : ∃ lo, off = lo + 4 ∧ (lo = R.HC_DATA_BASE_LO ∨ lo = R.HC_PL_BASE_LO) := by
    rcases hbase with rfl | rfl
    · exact ⟨_, rfl, .inl rfl⟩
    · exact ⟨_, rfl, .inr rfl⟩
  have hoff : lo + 4 < 0x1000000 := by
    rcases hlo with rfl | rfl <;> decide
  have hexec := exec_rwPairHiWrite_eq val hacc hrole
  refine ⟨_, hexec, (execRwPairHiWrite_keeps acc (lo + 4) val s _ hexec).frame, ?_⟩
  rw [Nat.add_sub_cancel] at hopen hheld ⊢
  rw [State.regWrite_hi hoff hup hkey hassigned val hrole, Nat.add_sub_cancel, State.writeHi_of_held _ hopen hheld,
    State.applyPair_base _ _ _ hlo]
  obtain ⟨hl, hh, hbut⟩ := State.reg_writePlain_pair
    { s with heldLo := storeErase (heldKey acc lo) s.heldLo } lo wl (BitVec.ofNat 32 val) hoff
  exact ⟨hl, hh, hbut, rfl, rfl, rfl⟩

/-- Settles O11: the two reads, the held write and the write of both halves, one lemma each. -/
theorem pairsLatchAndHold : Obligations.PairsLatchAndHold :=
  ⟨loRegisterRead_lo_completes, loRegisterRead_hi_completes, registerWrite_lo_completes, rwPairHiWrite_completes⟩

end Sys2Proof.Machine
end

section
/-!
PROOFS. The queue and the free values (R9): a step runs the command at the front of the queue, and no command touches the waiting
commands or turns back the free-value counter. Settles O5 and O1.
-/

namespace Sys2Proof.Machine

/-! ## What every command keeps -/

theorem KeepsR.within {P Q : List Part} {s : State} {r : Result} (h : KeepsR Q s r) (hq : Part.sub Q P = true) : KeepsR P s r :=
  h.step hq (Keeps.refl P s)

/-- The parts that a command may change: every part but the queue of waiting commands. -/
def commandParts : List Part :=
  [.time, .events, .regs, .latches, .heldLo, .msix, .domains, .boot, .pins, .heads, .decode, .loop, .seq, .mem, .motion, .host,
    .cal, .sec, .out, .free]

/-- One case per row of the table: what the command's own meaning keeps, among the parts that any command may change. -/
theorem exec_keeps (c : Instr) (s : State) : KeepsR commandParts s (exec c s) :=
  match c with
  | .registerWrite acc off val => (execRegisterWrite_keeps acc off val s).within rfl
  | .loRegisterRead acc off => (execLoRegisterRead_keeps acc off s).within rfl
  | .rwPairHiWrite acc off val => (execRwPairHiWrite_keeps acc off val s).within rfl
  | .refusedRegisterAccess fn off bytes write => (execRefusedRegisterAccess_keeps fn off bytes write s).within rfl
  | .unassignedOffsetAccess acc off write => (execUnassignedOffsetAccess_keeps acc off write s).within rfl
  | .outOfServiceBlockAccess acc off write => (execOutOfServiceBlockAccess_keeps acc off write s).within rfl
  | .msixVectorUnmask fn vec => (execMsixVectorUnmask_keeps fn vec s).within rfl
  | .pllLock => (execPllLock_keeps s).within rfl
  | .holdoverEntry => (execHoldoverEntry_keeps s).within rfl
  | .pllRelock => (execPllRelock_keeps s).within rfl
  | .distributionError isl prev sample => (execDistributionError_keeps isl prev sample s).within rfl
  | .eventsLostRecord src => (execEventsLostRecord_keeps src s).within rfl
  | .eventMergerArrival src => (execEventMergerArrival_keeps src s).within rfl
  | .eventMergerRelease => (execEventMergerRelease_keeps s).within rfl
  | .traceMergerRelease => (execTraceMergerRelease_keeps s).within rfl
  | .hemRequest head => (execHemRequest_keeps head s).within rfl
  | .hemWithdrawal head => (execHemWithdrawal_keeps head s).within rfl
  | .zoneWriteBackComplete head => (execZoneWriteBackComplete_keeps head s).within rfl
  | .hemComplete head => (execHemComplete_keeps head s).within rfl
  | .servoFrame head idx fwd bwd span => (execServoFrame_keeps head idx fwd bwd span s).within rfl
  | .servoFrameMissed head idx => (execServoFrameMissed_keeps head idx s).within rfl
  | .addressWord head => (execAddressWord_keeps head s).within rfl
  | .seamOpening head => (execSeamOpening_keeps head s).within rfl
  | .sectorAcquisitionStart head beam slot => (execSectorAcquisitionStart_keeps head beam slot s).within rfl
  | .syncSearchComplete sector => (execSyncSearchComplete_keeps sector s).within rfl
  | .hdFmtCfgWrite head val => (execHdFmtCfgWrite_keeps head val s).within rfl
  | .upFrame head pair arrival header blocks => (execUpFrame_keeps head pair arrival header blocks s).within rfl
  | .srfBlock head => (execSrfBlock_keeps head s).within rfl
  | .quadBlock head => (execQuadBlock_keeps head s).within rfl
  | .hkBlock head => (execHkBlock_keeps head s).within rfl
  | .statBlock head => (execStatBlock_keeps head s).within rfl
  | .capBlock head => (execCapBlock_keeps head s).within rfl
  | .replyBlock head arrival => (execReplyBlock_keeps head arrival s).within rfl
  | .feevBlock head => (execFeevBlock_keeps head s).within rfl
  | .d0FrameLaunch head => (execD0FrameLaunch_keeps head s).within rfl
  | .messageResend head => (execMessageResend_keeps head s).within rfl
  | .laneErrorWindowEnd head lane => (execLaneErrorWindowEnd_keeps head lane s).within rfl
  | .laneRetrainTimeout head lane => (execLaneRetrainTimeout_keeps head lane s).within rfl
  | .statTimeout head => (execStatTimeout_keeps head s).within rfl
  | .linkEnable head => (execLinkEnable_keeps head s).within rfl
  | .linkDisable head => (execLinkDisable_keeps head s).within rfl
  | .linkRetrain head => (execLinkRetrain_keeps head s).within rfl
  | .linkRealign head => (execLinkRealign_keeps head s).within rfl
  | .feSafeRequest head => (execFeSafeRequest_keeps head s).within rfl
  | .trainingReceiversAdapted head => (execTrainingReceiversAdapted_keeps head s).within rfl
  | .trainingAttemptTimeout head => (execTrainingAttemptTimeout_keeps head s).within rfl
  | .intervalCheckpoint head beam => (execIntervalCheckpoint_keeps head beam s).within rfl
  | .unpickTest head beam => (execUnpickTest_keeps head beam s).within rfl
  | .replayStart head => (execReplayStart_keeps head s).within rfl
  | .replayFinish head lane => (execReplayFinish_keeps head lane s).within rfl
  | .replayExpiry head => (execReplayExpiry_keeps head s).within rfl
  | .intervalRelease head beam => (execIntervalRelease_keeps head beam s).within rfl
  | .dropoutStart head beam stamp => (execDropoutStart_keeps head beam stamp s).within rfl
  | .dropoutEnd head beam stamp => (execDropoutEnd_keeps head beam stamp s).within rfl
  | .dropoutGuardEnd head beam => (execDropoutGuardEnd_keeps head beam s).within rfl
  | .zoneSeedReadDone head => (execZoneSeedReadDone_keeps head s).within rfl
  | .ingestSpill head => (execIngestSpill_keeps head s).within rfl
  | .ingestAdmissionStop head => (execIngestAdmissionStop_keeps head s).within rfl
  | .ingestShed head => (execIngestShed_keeps head s).within rfl
  | .firstPassBind eng buf bad => (execFirstPassBind_keeps eng buf bad s).within rfl
  | .firstPassStart eng bufErr => (execFirstPassStart_keeps eng bufErr s).within rfl
  | .firstPassIterationEnd eng => (execFirstPassIterationEnd_keeps eng s).within rfl
  | .deepStart eng bad => (execDeepStart_keeps eng bad s).within rfl
  | .deepIterationEnd eng => (execDeepIterationEnd_keeps eng s).within rfl
  | .twillJobStart => (execTwillJobStart_keeps s).within rfl
  | .twillJobEnd => (execTwillJobEnd_keeps s).within rfl
  | .spJobStart => (execSpJobStart_keeps s).within rfl
  | .spJobEnd => (execSpJobEnd_keeps s).within rfl
  | .decodeWorkArrival => (execDecodeWorkArrival_keeps s).within rfl
  | .dcOutConsWrite val => (execDcOutConsWrite_keeps val s).within rfl
  | .runAheadDiscardReport head layer band => (execRunAheadDiscardReport_keeps head layer band s).within rfl
  | .dcCntClear val => (execDcCntClear_keeps val s).within rfl
  | .dcBaseWrite ra lo hi => (execDcBaseWrite_keeps ra lo hi s).within rfl
  | .slotPayloadLate head track slot => (execSlotPayloadLate_keeps head track slot s).within rfl
  | .writeAbortAtHead head slots => (execWriteAbortAtHead_keeps head slots s).within rfl
  | .derateStale head => (execDerateStale_keeps head s).within rfl
  | .laserInterlock => (execLaserInterlock_keeps s).within rfl
  | .laserRearm head => (execLaserRearm_keeps head s).within rfl
  | .laserEnableWrite head enable => (execLaserEnableWrite_keeps head enable s).within rfl
  | .ceilingWrite head write val => (execCeilingWrite_keeps head write val s).within rfl
  | .ceilingLock head => (execCeilingLock_keeps head s).within rfl
  | .derateEnableWrite head val => (execDerateEnableWrite_keeps head val s).within rfl
  | .slotExecution slot memErr => (execSlotExecution_keeps slot memErr s).within rfl
  | .quadSetVisible head => (execQuadSetVisible_keeps head s).within rfl
  | .chevronOffsetArrival head => (execChevronOffsetArrival_keeps head s).within rfl
  | .dropoutFlagArrival head => (execDropoutFlagArrival_keeps head s).within rfl
  | .slotStateRequest via => (execSlotStateRequest_keeps via s).within rfl
  | .slotClearState via => (execSlotClearState_keeps via s).within rfl
  | .coefficientWrite via => (execCoefficientWrite_keeps via s).within rfl
  | .slotConfigWrite slot which val => (execSlotConfigWrite_keeps slot which val s).within rfl
  | .sequenceTimeout head => (execSequenceTimeout_keeps head s).within rfl
  | .seamJumpDeadline head => (execSeamJumpDeadline_keeps head s).within rfl
  | .traceModeWrite val => (execTraceModeWrite_keeps val s).within rfl
  | .traceFreeze => (execTraceFreeze_keeps s).within rfl
  | .sledIdle via => (execSledIdle_keeps via s).within rfl
  | .sledHold via => (execSledHold_keeps via s).within rfl
  | .sledMove via => (execSledMove_keeps via s).within rfl
  | .sledFollow via => (execSledFollow_keeps via s).within rfl
  | .sledHome via => (execSledHome_keeps via s).within rfl
  | .sledSoftstop via => (execSledSoftstop_keeps via s).within rfl
  | .sledStop via => (execSledStop_keeps via s).within rfl
  | .sledClearFault sled => (execSledClearFault_keeps sled s).within rfl
  | .sledTargetWrite sled val => (execSledTargetWrite_keeps sled val s).within rfl
  | .profileTick => (execProfileTick_keeps s).within rfl
  | .loadAngleWindow sled => (execLoadAngleWindow_keeps sled s).within rfl
  | .boostHoldExpiry sled => (execBoostHoldExpiry_keeps sled s).within rfl
  | .holdCurrentDelay sled => (execHoldCurrentDelay_keeps sled s).within rfl
  | .sledOverCurrent sled phase first second => (execSledOverCurrent_keeps sled phase first second s).within rfl
  | .switchEdge sled eot => (execSwitchEdge_keeps sled eot s).within rfl
  | .switchDebounceEnd sled eot asserted => (execSwitchDebounceEnd_keeps sled eot asserted s).within rfl
  | .bemfCrossing phase rising stamp => (execBemfCrossing_keeps phase rising stamp s).within rfl
  | .commutation => (execCommutation_keeps s).within rfl
  | .forcedCommutation => (execForcedCommutation_keeps s).within rfl
  | .lostRotorTimeout => (execLostRotorTimeout_keeps s).within rfl
  | .spindleStart via fltLow => (execSpindleStart_keeps via fltLow s).within rfl
  | .spindleStop via => (execSpindleStop_keeps via s).within rfl
  | .spindleDemandSet via => (execSpindleDemandSet_keeps via s).within rfl
  | .listenEnd => (execListenEnd_keeps s).within rfl
  | .brakeBurstEnd => (execBrakeBurstEnd_keeps s).within rfl
  | .alignEnd => (execAlignEnd_keeps s).within rfl
  | .openLoopCommutation => (execOpenLoopCommutation_keeps s).within rfl
  | .stopShortEnd => (execStopShortEnd_keeps s).within rfl
  | .spindleBridgeFault => (execSpindleBridgeFault_keeps s).within rfl
  | .spindleOverCurrent first second => (execSpindleOverCurrent_keeps first second s).within rfl
  | .spindleDemand demand => (execSpindleDemand_keeps demand s).within rfl
  | .sledDemand sled demand => (execSledDemand_keeps sled demand s).within rfl
  | .governorUpdate => (execGovernorUpdate_keeps s).within rfl
  | .thermalModelUpdate => (execThermalModelUpdate_keeps s).within rfl
  | .claimSatisfied head => (execClaimSatisfied_keeps head s).within rfl
  | .add b u => (execAdd_keeps b u s).within rfl
  | .sub b u => (execSub_keeps b u s).within rfl
  | .and b u => (execAnd_keeps b u s).within rfl
  | .or b u => (execOr_keeps b u s).within rfl
  | .xor b u => (execXor_keeps b u s).within rfl
  | .shl b u => (execShl_keeps b u s).within rfl
  | .shr b u => (execShr_keeps b u s).within rfl
  | .sar b u => (execSar_keeps b u s).within rfl
  | .mul b u => (execMul_keeps b u s).within rfl
  | .mulh b u => (execMulh_keeps b u s).within rfl
  | .min b u => (execMin_keeps b u s).within rfl
  | .max b u => (execMax_keeps b u s).within rfl
  | .addi b u => (execAddi_keeps b u s).within rfl
  | .andi b u => (execAndi_keeps b u s).within rfl
  | .ori b u => (execOri_keeps b u s).within rfl
  | .shi b u => (execShi_keeps b u s).within rfl
  | .cmp b u => (execCmp_keeps b u s).within rfl
  | .cmpiEq b u => (execCmpiEq_keeps b u s).within rfl
  | .cmpiLt b u => (execCmpiLt_keeps b u s).within rfl
  | .cmpiLtu b u => (execCmpiLtu_keeps b u s).within rfl
  | .pset b u => (execPset_keeps b u s).within rfl
  | .sel b u => (execSel_keeps b u s).within rfl
  | .bfx b u => (execBfx_keeps b u s).within rfl
  | .bfi b u => (execBfi_keeps b u s).within rfl
  | .cnt b u => (execCnt_keeps b u s).within rfl
  | .divu b u => (execDivu_keeps b u s).within rfl
  | .ldb b u => (execLdb_keeps b u s).within rfl
  | .ldh b u => (execLdh_keeps b u s).within rfl
  | .ldw b u => (execLdw_keeps b u s).within rfl
  | .ldd b u => (execLdd_keeps b u s).within rfl
  | .ldbs b u => (execLdbs_keeps b u s).within rfl
  | .ldhs b u => (execLdhs_keeps b u s).within rfl
  | .ldws b u => (execLdws_keeps b u s).within rfl
  | .stb b u => (execStb_keeps b u s).within rfl
  | .sth b u => (execSth_keeps b u s).within rfl
  | .stw b u => (execStw_keeps b u s).within rfl
  | .std b u => (execStd_keeps b u s).within rfl
  | .amo b u => (execAmo_keeps b u s).within rfl
  | .fence b u => (execFence_keeps b u s).within rfl
  | .br b u => (execBr_keeps b u s).within rfl
  | .call b u => (execCall_keeps b u s).within rfl
  | .jr b u => (execJr_keeps b u s).within rfl
  | .trap b u => (execTrap_keeps b u s).within rfl
  | .halt b u => (execHalt_keeps b u s).within rfl
  | .signal b u => (execSignal_keeps b u s).within rfl
  | .tbNow b u => (execTbNow_keeps b u s).within rfl
  | .tbLast b u => (execTbLast_keeps b u s).within rfl
  | .waitEv b u => (execWaitEv_keeps b u s).within rfl
  | .waitUntil b u => (execWaitUntil_keeps b u s).within rfl
  | .poll b u => (execPoll_keeps b u s).within rfl
  | .eventQueueEntry bobbin => (execEventQueueEntry_keeps bobbin s).within rfl
  | .eventQueueRelease bobbin => (execEventQueueRelease_keeps bobbin s).within rfl
  | .waitTimeout bobbin => (execWaitTimeout_keeps bobbin s).within rfl
  | .waitUntilReached bobbin => (execWaitUntilReached_keeps bobbin s).within rfl
  | .hdOpen b u => (execHdOpen_keeps b u s).within rfl
  | .hdHem b u => (execHdHem_keeps b u s).within rfl
  | .hdSeek b u => (execHdSeek_keeps b u s).within rfl
  | .seekStep head => (execSeekStep_keeps head s).within rfl
  | .seekAddressTimeout head => (execSeekAddressTimeout_keeps head s).within rfl
  | .hdFocus b u => (execHdFocus_keeps b u s).within rfl
  | .hdLjump b u => (execHdLjump_keeps b u s).within rfl
  | .hdTrkon b u => (execHdTrkon_keeps b u s).within rfl
  | .hdSjump b u => (execHdSjump_keeps b u s).within rfl
  | .hdSafe b u => (execHdSafe_keeps b u s).within rfl
  | .hdFewr b u => (execHdFewr_keeps b u s).within rfl
  | .hdFerd b u => (execHdFerd_keeps b u s).within rfl
  | .frontEndReplyTimeout head => (execFrontEndReplyTimeout_keeps head s).within rfl
  | .hdHk b u => (execHdHk_keeps b u s).within rfl
  | .hdStat b u => (execHdStat_keeps b u s).within rfl
  | .slPos b u => (execSlPos_keeps b u s).within rfl
  | .slReref b u => (execSlReref_keeps b u s).within rfl
  | .spStat b u => (execSpStat_keeps b u s).within rfl
  | .lpStat b u => (execLpStat_keeps b u s).within rfl
  | .dcSubmit b u => (execDcSubmit_keeps b u s).within rfl
  | .dcStat b u => (execDcStat_keeps b u s).within rfl
  | .mmXfer b u => (execMmXfer_keeps b u s).within rfl
  | .woGet b u => (execWoGet_keeps b u s).within rfl
  | .woDone b u => (execWoDone_keeps b u s).within rfl
  | .woAen b u => (execWoAen_keeps b u s).within rfl
  | .evLog b u => (execEvLog_keeps b u s).within rfl
  | .bobStart via => (execBobStart_keeps via s).within rfl
  | .bobHalt via => (execBobHalt_keeps via s).within rfl
  | .bobResume acc bobbin => (execBobResume_keeps acc bobbin s).within rfl
  | .bobbinHalted bobbin => (execBobbinHalted_keeps bobbin s).within rfl
  | .bobStat b u => (execBobStat_keeps b u s).within rfl
  | .capWr via => (execCapWr_keeps via s).within rfl
  | .controlStoreParityError b uaddr mask => (execControlStoreParityError_keeps b uaddr mask s).within rfl
  | .safePointOverrun b uaddr => (execSafePointOverrun_keeps b uaddr s).within rfl
  | .patchLoad image => (execPatchLoad_keeps image s).within rfl
  | .patchReload => (execPatchReload_keeps s).within rfl
  | .csTestWrite rom => (execCsTestWrite_keeps rom s).within rfl
  | .mcAddrClear => (execMcAddrClear_keeps s).within rfl
  | .sqTailDoorbell fn qid tail => (execSqTailDoorbell_keeps fn qid tail s).within rfl
  | .cqHeadDoorbell fn qid head => (execCqHeadDoorbell_keeps fn qid head s).within rfl
  | .commandFetch entry data walk => (execCommandFetch_keeps entry data walk s).within rfl
  | .rangeLockGrant slot idx => (execRangeLockGrant_keeps slot idx s).within rfl
  | .writeDataArrived slot data => (execWriteDataArrived_keeps slot data s).within rfl
  | .workOrderIssue slot => (execWorkOrderIssue_keeps slot s).within rfl
  | .completionPost slot => (execCompletionPost_keeps slot s).within rfl
  | .snipRequest fn sqid cid => (execSnipRequest_keeps fn sqid cid s).within rfl
  | .snipResolve fn => (execSnipResolve_keeps fn s).within rfl
  | .controllerReset fn => (execControllerReset_keeps fn s).within rfl
  | .controllerEnable fn cc => (execControllerEnable_keeps fn cc s).within rfl
  | .functionLevelReset fn => (execFunctionLevelReset_keeps fn s).within rfl
  | .shutdownNormal fn => (execShutdownNormal_keeps fn s).within rfl
  | .shutdownAbrupt fn => (execShutdownAbrupt_keeps fn s).within rfl
  | .shutdownComplete fn => (execShutdownComplete_keeps fn s).within rfl
  | .firmwareActivationStart => (execFirmwareActivationStart_keeps s).within rfl
  | .activationDrainDeadline => (execActivationDrainDeadline_keeps s).within rfl
  | .firmwareActivationResume => (execFirmwareActivationResume_keeps s).within rfl
  | .configRequest req => (execConfigRequest_keeps req s).within rfl
  | .nvmeMiBasicCommand code => (execNvmeMiBasicCommand_keeps code s).within rfl
  | .deleteIoSq entry => (execDeleteIoSq_keeps entry s).within rfl
  | .deleteIoCq entry => (execDeleteIoCq_keeps entry s).within rfl
  | .createIoSq entry => (execCreateIoSq_keeps entry s).within rfl
  | .createIoCq entry => (execCreateIoCq_keeps entry s).within rfl
  | .getLogPage entry walk => (execGetLogPage_keeps entry walk s).within rfl
  | .identify entry walk => (execIdentify_keeps entry walk s).within rfl
  | .abort entry => (execAbort_keeps entry s).within rfl
  | .setFeatures entry => (execSetFeatures_keeps entry s).within rfl
  | .getFeatures entry => (execGetFeatures_keeps entry s).within rfl
  | .asynchronousEventRequest entry => (execAsynchronousEventRequest_keeps entry s).within rfl
  | .namespaceManagement entry data walk => (execNamespaceManagement_keeps entry data walk s).within rfl
  | .namespaceAttachment entry data walk => (execNamespaceAttachment_keeps entry data walk s).within rfl
  | .firmwareImageDownload entry data walk => (execFirmwareImageDownload_keeps entry data walk s).within rfl
  | .firmwareCommit entry => (execFirmwareCommit_keeps entry s).within rfl
  | .firmwareCommitWriteDone upset => (execFirmwareCommitWriteDone_keeps upset s).within rfl
  | .formatNvm entry => (execFormatNvm_keeps entry s).within rfl
  | .securitySend entry data walk => (execSecuritySend_keeps entry data walk s).within rfl
  | .securityReceive entry walk => (execSecurityReceive_keeps entry walk s).within rfl
  | .flush entry => (execFlush_keeps entry s).within rfl
  | .write entry walk => (execWrite_keeps entry walk s).within rfl
  | .read entry walk => (execRead_keeps entry walk s).within rfl
  | .datasetManagement entry data walk => (execDatasetManagement_keeps entry data walk s).within rfl
  | .verify entry => (execVerify_keeps entry s).within rfl
  | .sequencerCall entry walk => (execSequencerCall_keeps entry walk s).within rfl
  | .cartridgeLoad entry => (execCartridgeLoad_keeps entry s).within rfl
  | .mediumHealthReport entry walk => (execMediumHealthReport_keeps entry walk s).within rfl
  | .cartridgeRelease entry => (execCartridgeRelease_keeps entry s).within rfl
  | .deferredApply => (execDeferredApply_keeps s).within rfl
  | .seal count => (execSeal_keeps count s).within rfl
  | .commit batch => (execCommit_keeps batch s).within rfl
  | .abandon batch => (execAbandon_keeps batch s).within rfl
  | .replayEnd => (execReplayEnd_keeps s).within rfl
  | .splitCommit batch count => (execSplitCommit_keeps batch count s).within rfl
  | .journalDurable seq => (execJournalDurable_keeps seq s).within rfl
  | .chainApply => (execChainApply_keeps s).within rfl
  | .memoryRead cls addr len => (execMemoryRead_keeps cls addr len s).within rfl
  | .memoryWrite cls addr bytes => (execMemoryWrite_keeps cls addr bytes s).within rfl
  | .eccWriteBack => (execEccWriteBack_keeps s).within rfl
  | .refresh sub ingestWaits => (execRefresh_keeps sub ingestWaits s).within rfl
  | .mr4Read sub value => (execMr4Read_keeps sub value s).within rfl
  | .activateTableClear => (execActivateTableClear_keeps s).within rfl
  | .neighbourRefresh sub bank row drfm => (execNeighbourRefresh_keeps sub bank row drfm s).within rfl
  | .pageIdlePrecharge sub bank => (execPageIdlePrecharge_keeps sub bank s).within rfl
  | .patrolScrubRead => (execPatrolScrubRead_keeps s).within rfl
  | .eccEraseWrite val => (execEccEraseWrite_keeps val s).within rfl
  | .eccCountClear val => (execEccCountClear_keeps val s).within rfl
  | .flipArm lo hi => (execFlipArm_keeps lo hi s).within rfl
  | .memoryEnable val => (execMemoryEnable_keeps val s).within rfl
  | .mrw scmask mr data => (execMrw_keeps scmask mr data s).within rfl
  | .mrr scmask mr answer => (execMrr_keeps scmask mr answer s).within rfl
  | .mpc scmask op => (execMpc_keeps scmask op s).within rfl
  | .prechargeAll scmask => (execPrechargeAll_keeps scmask s).within rfl
  | .refreshAll scmask => (execRefreshAll_keeps scmask s).within rfl
  | .patternRun scmask bursts errs => (execPatternRun_keeps scmask bursts errs s).within rfl
  | .sweepStart => (execSweepStart_keeps s).within rfl
  | .sweepEnd failMask codes => (execSweepEnd_keeps failMask codes s).within rfl
  | .frequencyChangeRequest target => (execFrequencyChangeRequest_keeps target s).within rfl
  | .frequencyChangeDone => (execFrequencyChangeDone_keeps s).within rfl
  | .bandgapCompare dev => (execBandgapCompare_keeps dev s).within rfl
  | .calibrationSlots z r => (execCalibrationSlots_keeps z r s).within rfl
  | .calibrationCopy => (execCalibrationCopy_keeps s).within rfl
  | .calibrationSlew => (execCalibrationSlew_keeps s).within rfl
  | .adcTargetWrite c val => (execAdcTargetWrite_keeps c val s).within rfl
  | .comparatorTrim => (execComparatorTrim_keeps s).within rfl
  | .comparatorTrimDone rise fall => (execComparatorTrimDone_keeps rise fall s).within rfl
  | .temperatureReport readings => (execTemperatureReport_keeps readings s).within rfl
  | .bootVerify => (execBootVerify_keeps s).within rfl
  | .bootConfigApply => (execBootConfigApply_keeps s).within rfl
  | .bootBobbinsStart => (execBootBobbinsStart_keeps s).within rfl
  | .hostReadySet => (execHostReadySet_keeps s).within rfl
  | .floorCommit => (execFloorCommit_keeps s).within rfl
  | .revoke slot => (execRevoke_keeps slot s).within rfl
  | .debugUnlockSubmit => (execDebugUnlockSubmit_keeps s).within rfl
  | .doeDiscovery fn index => (execDoeDiscovery_keeps fn index s).within rfl
  | .getVersion via msg => (execGetVersion_keeps via msg s).within rfl
  | .getCapabilities via msg => (execGetCapabilities_keeps via msg s).within rfl
  | .negotiateAlgorithms via msg => (execNegotiateAlgorithms_keeps via msg s).within rfl
  | .getDigests via msg => (execGetDigests_keeps via msg s).within rfl
  | .getCertificate via msg => (execGetCertificate_keeps via msg s).within rfl
  | .challenge via msg => (execChallenge_keeps via msg s).within rfl
  | .getMeasurements via msg => (execGetMeasurements_keeps via msg s).within rfl
  | .keyExchange via msg => (execKeyExchange_keeps via msg s).within rfl
  | .finish via sid msg => (execFinish_keeps via sid msg s).within rfl
  | .heartbeat via sid msg => (execHeartbeat_keeps via sid msg s).within rfl
  | .keyUpdate via sid msg => (execKeyUpdate_keeps via sid msg s).within rfl
  | .endSession via sid msg => (execEndSession_keeps via sid msg s).within rfl
  | .powerOnReset => (execPowerOnReset_keeps s).within rfl
  | .warmReset => (execWarmReset_keeps s).within rfl
  | .domainPowerUp dom levels => (execDomainPowerUp_keeps dom levels s).within rfl
  | .domainPowerCheck dom good => (execDomainPowerCheck_keeps dom good s).within rfl
  | .supplyGroupWaitTimeout group => (execSupplyGroupWaitTimeout_keeps group s).within rfl
  | .domainPowerRetry dom => (execDomainPowerRetry_keeps dom s).within rfl
  | .supplyGroupLost group => (execSupplyGroupLost_keeps group s).within rfl
  | .headIsolate n => (execHeadIsolate_keeps n s).within rfl
  | .headDomainPowerLost n => (execHeadDomainPowerLost_keeps n s).within rfl
  | .headIsolationDeadline n => (execHeadIsolationDeadline_keeps n s).within rfl
  | .headPower n => (execHeadPower_keeps n s).within rfl
  | .evRptrWrite val => (execEvRptrWrite_keeps val s).within rfl
  | .evAttnWrite val => (execEvAttnWrite_keeps val s).within rfl
  | .attnClear => (execAttnClear_keeps s).within rfl
  | .journalReplayStart => (execJournalReplayStart_keeps s).within rfl
  | .upFrameMissing head lane fcnt => (execUpFrameMissing_keeps head lane fcnt s).within rfl
  | .chopperSample sled rawA rawB => (execChopperSample_keeps sled rawA rawB s).within rfl
  | .pwmPeriod current => (execPwmPeriod_keeps current s).within rfl
  | .laserInhRelease => (execLaserInhRelease_keeps s).within rfl
  | .noImageFillDone => (execNoImageFillDone_keeps s).within rfl
  | .perstNRelease => (execPerstNRelease_keeps s).within rfl
  | .interruptCoalescingTime fn qid => (execInterruptCoalescingTime_keeps fn qid s).within rfl
  | .pcieDmaError slot => (execPcieDmaError_keeps slot s).within rfl

theorem exec_pending {c : Instr} {s t : State} (h : exec c s = .next t) : t.pending = s.pending :=
  (exec_keeps c s t h).frame .pending (by decide)

theorem exec_free_le {c : Instr} {s t : State} (h : exec c s = .next t) : s.free ≤ t.free :=
  (exec_keeps c s t h).free

/-- Settles O5: the queue is not among the parts that a command may change, and each command draws free values forward. -/
theorem commandsLeaveTheQueue : Obligations.CommandsLeaveTheQueue :=
  ⟨fun _ _ _ => exec_pending, fun _ _ _ => exec_free_le⟩

/-! ## A step with a command waiting -/

theorem step_of_pending {s : State} {c : Instr} {rest : List Instr} (h : s.pending = c :: rest) :
    step s = exec c { s with pending := rest } := by
  rw [step, h]

/-- Settles O1: the front of the queue runs on the state with the rest of the queue. -/
theorem stepRunsFront : Obligations.StepRunsFront :=
  fun _ _ _ => step_of_pending rfl

end Sys2Proof.Machine
end

section
/-!
PROOFS. Accesses that reach no register (R5, R16, R17): what an access to an unassigned offset, to a block out of service, or of
another width or alignment answers and logs. Settles O10.
-/

namespace Sys2Proof.Machine

theorem State.logHost_out (s : State) (fn code a0 a1 a2 a3 : Nat) : (s.logHost fn code a0 a1 a2 a3).out = s.out :=
  s.log_out _ _ _ _ _ _ _

/-- An access that reaches no register: a read answers `v`, a write is dropped, and the state is `s` otherwise. -/
def State.answerNone (s : State) (acc : Accessor) (off v : Nat) (write : Bool) : State :=
  if write then s else State.answerRead acc off (v, s)

theorem State.answerNone_out (s : State) (acc : Accessor) (off v : Nat) (write : Bool) :
    (s.answerNone acc off v write).out = if write then s.out else .readData (accNumber acc) off v :: s.out := by
  cases write <;> rfl

theorem State.answerNone_events (s : State) (acc : Accessor) (off v : Nat) (write : Bool) :
    (s.answerNone acc off v write).events = s.events := by
  cases write <;> rfl

theorem accNumber_host (fn : Fin 2) : accNumber (.host fn) = fn.val := rfl

/-! ## The access commands -/

theorem exec_unassignedOffsetAccess_eq {s : State} {acc : Accessor} {off key : Nat} {write : Bool}
    (hacc : s.accessible acc off write = true) (hoff : off < 0x1000000) (hup : s.ownerUp off = true)
    (hkey : s.keyOf acc off = some key) (hunassigned : assignedKey key = false) :
    exec (.unassignedOffsetAccess acc off write) s = .next (s.answerNone acc off 0 write) :=
  when_of_true (by simp [hacc, hup, hkey, hunassigned, bar2Base, hoff]) _ _

theorem exec_outOfServiceBlockAccess_eq {s : State} {acc : Accessor} {off : Nat} {write : Bool}
    (hacc : s.accessible acc off write = true) (hoff : off < 0x1000000) (hdown : s.ownerUp off = false) :
    exec (.outOfServiceBlockAccess acc off write) s =
      .next ((s.logOutOfService acc off write).answerNone acc off 0xFFFFFFFF write) := by
  cases write <;> exact when_of_true (by simp [hacc, hdown, bar2Base, hoff]) _ _

theorem exec_refusedRegisterAccess_eq {s : State} {fn : Fin 2} {off bytes : Nat} (write : Bool)
    (hfn : s.functions.contains fn = true) (hoff : off < 0x1000000) (hbad : bytes ≠ 4 ∨ off % 4 ≠ 0) :
    exec (.refusedRegisterAccess fn off bytes write) s =
      .next ((s.logHost fn.val 0x7008 fn.val off (if bytes = 4 then 1 else 0)).answerNone (.host fn) off 0xFFFFFFFF write) :=
  when_of_true (by rw [hfn]; simpa [bar2Base, hoff] using hbad) _ _

/-- R16: a read of an unassigned offset answers 0, a write is ignored, and nothing is logged. -/
theorem unassignedOffsetAccess_completes (acc : Accessor) (off : Nat) (w : Bool) :
    Completes (.unassignedOffsetAccess acc off w)
      (fun s => s.accessible acc off w = true ∧ off < 0x1000000 ∧ s.ownerUp off = true ∧
          ∃ key : Nat, s.keyOf acc off = some key ∧ assignedKey key = false)
      [.out]
      fun s t => t.out = if w then s.out else .readData (accNumber acc) off 0 :: s.out := by
  rintro s - ⟨hacc, hoff, hup, key, hkey, hunassigned⟩
  have hexec := exec_unassignedOffsetAccess_eq hacc hoff hup hkey hunassigned
  exact ⟨_, hexec, (execUnassignedOffsetAccess_keeps acc off w s _ hexec).frame, s.answerNone_out acc off 0 w⟩

/-- R17: a block out of service answers all ones or discards the write, and event 0x7009 names the block, the offset and the
direction. -/
theorem outOfServiceBlockAccess_completes (acc : Accessor) (off : Nat) (w : Bool) :
    Completes (.outOfServiceBlockAccess acc off w)
      (fun s => s.accessible acc off w = true ∧ off < 0x1000000 ∧ s.ownerUp off = false)
      [.events, .out]
      fun s t => t.events = (s.logHost (accFn acc) 0x7009 (accFn acc) (blockStart off) off (bitOf w)).events ∧
          t.out = if w then s.out else .readData (accNumber acc) off 0xFFFFFFFF :: s.out := by
  rintro s - ⟨hacc, hoff, hdown⟩
  have hexec := exec_outOfServiceBlockAccess_eq hacc hoff hdown
  refine ⟨_, hexec, (execOutOfServiceBlockAccess_keeps acc off w s _ hexec).frame, State.answerNone_events .., ?_⟩
  rw [State.answerNone_out, State.logOutOfService, State.logHost_out]

/-- R5: an access of another width or alignment answers all ones or is discarded, and event 0x7008 says which is wrong, the width
before the alignment (log entry 82). -/
theorem refusedRegisterAccess_completes (fn : Fin 2) (off bytes : Nat) (w : Bool) :
    Completes (.refusedRegisterAccess fn off bytes w)
      (fun s => s.functions.contains fn = true ∧ off < 0x1000000 ∧ (bytes ≠ 4 ∨ off % 4 ≠ 0))
      [.events, .out]
      fun s t => t.events = (s.logHost fn.val 0x7008 fn.val off (if bytes = 4 then 1 else 0)).events ∧
          t.out = if w then s.out else .readData fn.val off 0xFFFFFFFF :: s.out := by
  rintro s - ⟨hfn, hoff, hbad⟩
  have hexec := exec_refusedRegisterAccess_eq w hfn hoff hbad
  refine ⟨_, hexec, (execRefusedRegisterAccess_keeps fn off bytes w s _ hexec).frame, State.answerNone_events .., ?_⟩
  rw [State.answerNone_out, State.logHost_out, accNumber_host]

/-- Settles O10: the three accesses, one lemma each. -/
theorem unassignedAndRefusedAccesses : Obligations.UnassignedAndRefusedAccesses :=
  ⟨unassignedOffsetAccess_completes, outOfServiceBlockAccess_completes, refusedRegisterAccess_completes⟩

end Sys2Proof.Machine
end

section
/-!
PROOFS. The time base (R20, R351): a step keeps a sound state sound, a step on an empty queue counts one tick, and no command but
the first lock and a power-on reset changes the count. Settles O4, O2 and O7.
-/

namespace Sys2Proof.Machine

/-! ## Soundness -/

theorem Keeps.sound {P : List Part} {s t : State} (h : Keeps P s t) (hs : Sound s) : Sound t :=
  ⟨h.regs hs.1, h.mem hs.2.1, h.tb hs.2.2⟩

/-- The queue is no part of what soundness speaks of, so the step's own removal of the front command keeps it. -/
theorem step_sound {s t : State} (hs : Sound s) (h : step s = .next t) : Sound t := by
  cases hq : s.pending with
  | nil =>
    simp only [step, hq] at h
    cases h
    exact s.tick_keeps.sound hs
  | cons c rest =>
    rw [step_of_pending hq] at h
    exact (exec_keeps c { s with pending := rest } t h).sound hs

/-- Settles O4: a tick and every command keep the registers, the codewords and the time base sound. -/
theorem everyStepKeepsSoundness : Obligations.EveryStepKeepsSoundness :=
  fun _ _ => step_sound

/-! ## The completeness stamp -/

theorem State.pair_setPair_self (s : State) (lo v : Nat) (hv : v < 2 ^ 64) : (s.setPair lo v).pair lo = v := by
  have hlo : (s.setPair lo v).reg lo = BitVec.ofNat 32 v := by
    rw [State.setPair, State.reg_setReg_other _ _ (by omega), State.reg_setReg_self]
  have hhi : (s.setPair lo v).reg (lo + 4) = BitVec.ofNat 32 (v / 2 ^ 32) := State.reg_setReg_self ..
  rw [State.pair, hlo, hhi, BitVec.toNat_ofNat, BitVec.toNat_ofNat]
  omega

theorem State.regsBut_setPair (s : State) (lo v : Nat) : RegsBut [lo, lo + 4] s (s.setPair lo v) :=
  ((s.regsBut_setReg lo _).mono (by simp)).trans ((State.regsBut_setReg _ (lo + 4) _).mono (by simp))

/-- While a record of this tick is left to release nothing is published; otherwise the stamp is (R29). -/
theorem State.publishC_regsBut (s : State) : RegsBut [R.EV_COMP_LO, R.EV_COMP_HI] s s.publishC := by
  unfold State.publishC
  split
  · exact RegsBut.refl _ _
  · exact s.regsBut_setPair R.EV_COMP_LO _

theorem State.publishC_of_none_due {s : State} (h : ∀ r ∈ s.events.held, s.now < r.stamp + mergerHorizon) :
    s.publishC = s.setPair R.EV_COMP_LO (s.now - mergerHorizon) := by
  rw [State.publishC, if_neg]
  simpa using h

theorem State.publishC_stamp {s : State} (hs : s.now < stampModulus)
    (h : ∀ r ∈ s.events.held, s.now < r.stamp + mergerHorizon) : s.publishC.pair R.EV_COMP_LO = s.now - mergerHorizon := by
  rw [State.publishC_of_none_due h]
  exact s.pair_setPair_self _ _ (Nat.lt_of_le_of_lt (Nat.sub_le _ _) hs)

@[simp] theorem State.publishC_time (s : State) : s.publishC.time = s.time := s.publishC_keeps.frame .time (by decide)
@[simp] theorem State.publishC_events (s : State) : s.publishC.events = s.events := s.publishC_keeps.frame .events (by decide)
@[simp] theorem State.publishC_out (s : State) : s.publishC.out = s.out := s.publishC_keeps.frame .out (by decide)

/-! ## The tick -/

theorem State.tick_of_started {s : State} (h : s.time.started = true) :
    s.tick = ({ s with time := { s.time with tb := (s.time.tb + 1) % stampModulus } }).publishC := if_pos h

theorem State.tick_time {s : State} (h : s.time.started = true) :
    s.tick.time = { s.time with tb := (s.time.tb + 1) % stampModulus } := by
  rw [State.tick_of_started h, State.publishC_time]

theorem step_of_empty {s : State} (h : s.pending = []) : step s = .next s.tick := by
  rw [step, h]

/-- Settles O2: before the start a tick changes nothing, and after it the count moves on and the merger publishes. -/
theorem idleStepIsATick : Obligations.IdleStepIsATick := by
  refine fun s hq hs => ⟨fun hstop => ?_, fun hrun => ⟨s.tick, step_of_empty hq, s.tick_keeps.frame, State.tick_time hrun, ?_, ?_⟩⟩
  · rw [step_of_empty hq, State.tick, hstop]
    rfl
  · rw [State.tick_of_started hrun]
    exact State.publishC_regsBut _
  · have htb : s.tick.now < stampModulus := s.tick_keeps.tb hs.2.2
    have hnow : s.tick.now = (s.time.tb + 1) % stampModulus := congrArg TimeState.tb (State.tick_time hrun)
    rw [hnow] at htb ⊢
    rw [State.tick_of_started hrun]
    exact State.publishC_stamp (s := { s with time := { s.time with tb := (s.time.tb + 1) % stampModulus } }) htb

/-! ## Who changes the count -/

/-- An outcome that is a next state has the count that the state had. -/
def LeavesTb (s : State) (r : Result) : Prop := ∀ t, r = .next t → t.time.tb = s.time.tb

theorem Keeps.tb_eq {P : List Part} {s t : State} (h : Keeps P s t) (hp : P.contains .time = false) : t.time.tb = s.time.tb :=
  congrArg TimeState.tb (h.frame .time (by simpa using hp))

theorem KeepsR.leavesTb {P : List Part} {s : State} {r : Result} (h : KeepsR P s r) (hp : P.contains .time = false) :
    LeavesTb s r := fun t ht => (h t ht).tb_eq hp

theorem leavesTb_when {c : Bool} {s t : State} (h : t.time.tb = s.time.tb) : LeavesTb s (when c s t) := by
  rintro u hu
  cases hu
  split
  · exact h
  · rfl

theorem execHoldoverEntry_tb (s : State) : LeavesTb s (execHoldoverEntry s) := by
  refine leavesTb_when ?_
  split <;> simp

theorem execPllRelock_tb (s : State) : LeavesTb s (execPllRelock s) := by
  unfold execPllRelock
  split
  · rintro t ht
    cases ht
    simp
  · exact leavesTb_when (by simp)
  · rintro t ht
    cases ht
    rfl

/-- A warm reset clears the substitutions of R23 and leaves the counter (Table 17-2). -/
theorem execWarmReset_tb (s : State) : LeavesTb s (execWarmReset s) := by
  refine leavesTb_when ?_
  rw [(State.keepDeviation_keeps _ s).tb_eq rfl, (State.keepInhibit_keeps _ s).tb_eq rfl, (State.setFld_keeps ..).tb_eq rfl,
    (State.setFld_keeps ..).tb_eq rfl, (State.setOn_keeps ..).tb_eq rfl]

/-- A distribution error records its substitute beside the counter, and what follows a stamp fault leaves the time base alone. -/
theorem execDistributionError_tb (isl : Island) (prev sample : Nat) (s : State) :
    LeavesTb s (execDistributionError isl prev sample s) := by
  unfold execDistributionError
  generalize distBase s isl prev = b
  refine leavesTb_when ?_
  dsimp only
  split
  · rw [(State.log_keeps ..).tb_eq rfl, (State.setFld_keeps ..).tb_eq rfl, (State.bump_keeps ..).tb_eq rfl]
  · split
    · rw [(State.logHead_keeps ..).tb_eq rfl, (State.leaveService_keeps ..).tb_eq rfl]
      simp
    · rw [(State.machineCheck_keeps ..).tb_eq rfl]
      simp

/-- One case per row of the table: but for five of them, the time base is not among the parts that the command may change. -/
theorem exec_leavesTb (c : Instr) (s : State) (hl : c ≠ .pllLock) (hp : c ≠ .powerOnReset) : LeavesTb s (exec c s) :=
  match c, hl, hp with
  | .registerWrite .., _, _ => (execRegisterWrite_keeps _ _ _ _).leavesTb rfl
  | .loRegisterRead .., _, _ => (execLoRegisterRead_keeps _ _ _).leavesTb rfl
  | .rwPairHiWrite .., _, _ => (execRwPairHiWrite_keeps _ _ _ _).leavesTb rfl
  | .refusedRegisterAccess .., _, _ => (execRefusedRegisterAccess_keeps _ _ _ _ _).leavesTb rfl
  | .unassignedOffsetAccess .., _, _ => (execUnassignedOffsetAccess_keeps _ _ _ _).leavesTb rfl
  | .outOfServiceBlockAccess .., _, _ => (execOutOfServiceBlockAccess_keeps _ _ _ _).leavesTb rfl
  | .msixVectorUnmask .., _, _ => (execMsixVectorUnmask_keeps _ _ _).leavesTb rfl
  | .pllLock, hl, _ => absurd rfl hl
  | .holdoverEntry, _, _ => execHoldoverEntry_tb s
  | .pllRelock, _, _ => execPllRelock_tb s
  | .distributionError .., _, _ => execDistributionError_tb _ _ _ s
  | .eventsLostRecord .., _, _ => (execEventsLostRecord_keeps _ _).leavesTb rfl
  | .eventMergerArrival .., _, _ => (execEventMergerArrival_keeps _ _).leavesTb rfl
  | .eventMergerRelease, _, _ => (execEventMergerRelease_keeps _).leavesTb rfl
  | .traceMergerRelease, _, _ => (execTraceMergerRelease_keeps _).leavesTb rfl
  | .hemRequest .., _, _ => (execHemRequest_keeps _ _).leavesTb rfl
  | .hemWithdrawal .., _, _ => (execHemWithdrawal_keeps _ _).leavesTb rfl
  | .zoneWriteBackComplete .., _, _ => (execZoneWriteBackComplete_keeps _ _).leavesTb rfl
  | .hemComplete .., _, _ => (execHemComplete_keeps _ _).leavesTb rfl
  | .servoFrame .., _, _ => (execServoFrame_keeps _ _ _ _ _ _).leavesTb rfl
  | .servoFrameMissed .., _, _ => (execServoFrameMissed_keeps _ _ _).leavesTb rfl
  | .addressWord .., _, _ => (execAddressWord_keeps _ _).leavesTb rfl
  | .seamOpening .., _, _ => (execSeamOpening_keeps _ _).leavesTb rfl
  | .sectorAcquisitionStart .., _, _ => (execSectorAcquisitionStart_keeps _ _ _ _).leavesTb rfl
  | .syncSearchComplete .., _, _ => (execSyncSearchComplete_keeps _ _).leavesTb rfl
  | .hdFmtCfgWrite .., _, _ => (execHdFmtCfgWrite_keeps _ _ _).leavesTb rfl
  | .upFrame .., _, _ => (execUpFrame_keeps _ _ _ _ _ _).leavesTb rfl
  | .srfBlock .., _, _ => (execSrfBlock_keeps _ _).leavesTb rfl
  | .quadBlock .., _, _ => (execQuadBlock_keeps _ _).leavesTb rfl
  | .hkBlock .., _, _ => (execHkBlock_keeps _ _).leavesTb rfl
  | .statBlock .., _, _ => (execStatBlock_keeps _ _).leavesTb rfl
  | .capBlock .., _, _ => (execCapBlock_keeps _ _).leavesTb rfl
  | .replyBlock .., _, _ => (execReplyBlock_keeps _ _ _).leavesTb rfl
  | .feevBlock .., _, _ => (execFeevBlock_keeps _ _).leavesTb rfl
  | .d0FrameLaunch .., _, _ => (execD0FrameLaunch_keeps _ _).leavesTb rfl
  | .messageResend .., _, _ => (execMessageResend_keeps _ _).leavesTb rfl
  | .laneErrorWindowEnd .., _, _ => (execLaneErrorWindowEnd_keeps _ _ _).leavesTb rfl
  | .laneRetrainTimeout .., _, _ => (execLaneRetrainTimeout_keeps _ _ _).leavesTb rfl
  | .statTimeout .., _, _ => (execStatTimeout_keeps _ _).leavesTb rfl
  | .linkEnable .., _, _ => (execLinkEnable_keeps _ _).leavesTb rfl
  | .linkDisable .., _, _ => (execLinkDisable_keeps _ _).leavesTb rfl
  | .linkRetrain .., _, _ => (execLinkRetrain_keeps _ _).leavesTb rfl
  | .linkRealign .., _, _ => (execLinkRealign_keeps _ _).leavesTb rfl
  | .feSafeRequest .., _, _ => (execFeSafeRequest_keeps _ _).leavesTb rfl
  | .trainingReceiversAdapted .., _, _ => (execTrainingReceiversAdapted_keeps _ _).leavesTb rfl
  | .trainingAttemptTimeout .., _, _ => (execTrainingAttemptTimeout_keeps _ _).leavesTb rfl
  | .intervalCheckpoint .., _, _ => (execIntervalCheckpoint_keeps _ _ _).leavesTb rfl
  | .unpickTest .., _, _ => (execUnpickTest_keeps _ _ _).leavesTb rfl
  | .replayStart .., _, _ => (execReplayStart_keeps _ _).leavesTb rfl
  | .replayFinish .., _, _ => (execReplayFinish_keeps _ _ _).leavesTb rfl
  | .replayExpiry .., _, _ => (execReplayExpiry_keeps _ _).leavesTb rfl
  | .intervalRelease .., _, _ => (execIntervalRelease_keeps _ _ _).leavesTb rfl
  | .dropoutStart .., _, _ => (execDropoutStart_keeps _ _ _ _).leavesTb rfl
  | .dropoutEnd .., _, _ => (execDropoutEnd_keeps _ _ _ _).leavesTb rfl
  | .dropoutGuardEnd .., _, _ => (execDropoutGuardEnd_keeps _ _ _).leavesTb rfl
  | .zoneSeedReadDone .., _, _ => (execZoneSeedReadDone_keeps _ _).leavesTb rfl
  | .ingestSpill .., _, _ => (execIngestSpill_keeps _ _).leavesTb rfl
  | .ingestAdmissionStop .., _, _ => (execIngestAdmissionStop_keeps _ _).leavesTb rfl
  | .ingestShed .., _, _ => (execIngestShed_keeps _ _).leavesTb rfl
  | .firstPassBind .., _, _ => (execFirstPassBind_keeps _ _ _ _).leavesTb rfl
  | .firstPassStart .., _, _ => (execFirstPassStart_keeps _ _ _).leavesTb rfl
  | .firstPassIterationEnd .., _, _ => (execFirstPassIterationEnd_keeps _ _).leavesTb rfl
  | .deepStart .., _, _ => (execDeepStart_keeps _ _ _).leavesTb rfl
  | .deepIterationEnd .., _, _ => (execDeepIterationEnd_keeps _ _).leavesTb rfl
  | .twillJobStart, _, _ => (execTwillJobStart_keeps _).leavesTb rfl
  | .twillJobEnd, _, _ => (execTwillJobEnd_keeps _).leavesTb rfl
  | .spJobStart, _, _ => (execSpJobStart_keeps _).leavesTb rfl
  | .spJobEnd, _, _ => (execSpJobEnd_keeps _).leavesTb rfl
  | .decodeWorkArrival, _, _ => (execDecodeWorkArrival_keeps _).leavesTb rfl
  | .dcOutConsWrite .., _, _ => (execDcOutConsWrite_keeps _ _).leavesTb rfl
  | .runAheadDiscardReport .., _, _ => (execRunAheadDiscardReport_keeps _ _ _ _).leavesTb rfl
  | .dcCntClear .., _, _ => (execDcCntClear_keeps _ _).leavesTb rfl
  | .dcBaseWrite .., _, _ => (execDcBaseWrite_keeps _ _ _ _).leavesTb rfl
  | .slotPayloadLate .., _, _ => (execSlotPayloadLate_keeps _ _ _ _).leavesTb rfl
  | .writeAbortAtHead .., _, _ => (execWriteAbortAtHead_keeps _ _ _).leavesTb rfl
  | .derateStale .., _, _ => (execDerateStale_keeps _ _).leavesTb rfl
  | .laserInterlock, _, _ => (execLaserInterlock_keeps _).leavesTb rfl
  | .laserRearm .., _, _ => (execLaserRearm_keeps _ _).leavesTb rfl
  | .laserEnableWrite .., _, _ => (execLaserEnableWrite_keeps _ _ _).leavesTb rfl
  | .ceilingWrite .., _, _ => (execCeilingWrite_keeps _ _ _ _).leavesTb rfl
  | .ceilingLock .., _, _ => (execCeilingLock_keeps _ _).leavesTb rfl
  | .derateEnableWrite .., _, _ => (execDerateEnableWrite_keeps _ _ _).leavesTb rfl
  | .slotExecution .., _, _ => (execSlotExecution_keeps _ _ _).leavesTb rfl
  | .quadSetVisible .., _, _ => (execQuadSetVisible_keeps _ _).leavesTb rfl
  | .chevronOffsetArrival .., _, _ => (execChevronOffsetArrival_keeps _ _).leavesTb rfl
  | .dropoutFlagArrival .., _, _ => (execDropoutFlagArrival_keeps _ _).leavesTb rfl
  | .slotStateRequest .., _, _ => (execSlotStateRequest_keeps _ _).leavesTb rfl
  | .slotClearState .., _, _ => (execSlotClearState_keeps _ _).leavesTb rfl
  | .coefficientWrite .., _, _ => (execCoefficientWrite_keeps _ _).leavesTb rfl
  | .slotConfigWrite .., _, _ => (execSlotConfigWrite_keeps _ _ _ _).leavesTb rfl
  | .sequenceTimeout .., _, _ => (execSequenceTimeout_keeps _ _).leavesTb rfl
  | .seamJumpDeadline .., _, _ => (execSeamJumpDeadline_keeps _ _).leavesTb rfl
  | .traceModeWrite .., _, _ => (execTraceModeWrite_keeps _ _).leavesTb rfl
  | .traceFreeze, _, _ => (execTraceFreeze_keeps _).leavesTb rfl
  | .sledIdle .., _, _ => (execSledIdle_keeps _ _).leavesTb rfl
  | .sledHold .., _, _ => (execSledHold_keeps _ _).leavesTb rfl
  | .sledMove .., _, _ => (execSledMove_keeps _ _).leavesTb rfl
  | .sledFollow .., _, _ => (execSledFollow_keeps _ _).leavesTb rfl
  | .sledHome .., _, _ => (execSledHome_keeps _ _).leavesTb rfl
  | .sledSoftstop .., _, _ => (execSledSoftstop_keeps _ _).leavesTb rfl
  | .sledStop .., _, _ => (execSledStop_keeps _ _).leavesTb rfl
  | .sledClearFault .., _, _ => (execSledClearFault_keeps _ _).leavesTb rfl
  | .sledTargetWrite .., _, _ => (execSledTargetWrite_keeps _ _ _).leavesTb rfl
  | .profileTick, _, _ => (execProfileTick_keeps _).leavesTb rfl
  | .loadAngleWindow .., _, _ => (execLoadAngleWindow_keeps _ _).leavesTb rfl
  | .boostHoldExpiry .., _, _ => (execBoostHoldExpiry_keeps _ _).leavesTb rfl
  | .holdCurrentDelay .., _, _ => (execHoldCurrentDelay_keeps _ _).leavesTb rfl
  | .sledOverCurrent .., _, _ => (execSledOverCurrent_keeps _ _ _ _ _).leavesTb rfl
  | .switchEdge .., _, _ => (execSwitchEdge_keeps _ _ _).leavesTb rfl
  | .switchDebounceEnd .., _, _ => (execSwitchDebounceEnd_keeps _ _ _ _).leavesTb rfl
  | .bemfCrossing .., _, _ => (execBemfCrossing_keeps _ _ _ _).leavesTb rfl
  | .commutation, _, _ => (execCommutation_keeps _).leavesTb rfl
  | .forcedCommutation, _, _ => (execForcedCommutation_keeps _).leavesTb rfl
  | .lostRotorTimeout, _, _ => (execLostRotorTimeout_keeps _).leavesTb rfl
  | .spindleStart .., _, _ => (execSpindleStart_keeps _ _ _).leavesTb rfl
  | .spindleStop .., _, _ => (execSpindleStop_keeps _ _).leavesTb rfl
  | .spindleDemandSet .., _, _ => (execSpindleDemandSet_keeps _ _).leavesTb rfl
  | .listenEnd, _, _ => (execListenEnd_keeps _).leavesTb rfl
  | .brakeBurstEnd, _, _ => (execBrakeBurstEnd_keeps _).leavesTb rfl
  | .alignEnd, _, _ => (execAlignEnd_keeps _).leavesTb rfl
  | .openLoopCommutation, _, _ => (execOpenLoopCommutation_keeps _).leavesTb rfl
  | .stopShortEnd, _, _ => (execStopShortEnd_keeps _).leavesTb rfl
  | .spindleBridgeFault, _, _ => (execSpindleBridgeFault_keeps _).leavesTb rfl
  | .spindleOverCurrent .., _, _ => (execSpindleOverCurrent_keeps _ _ _).leavesTb rfl
  | .spindleDemand .., _, _ => (execSpindleDemand_keeps _ _).leavesTb rfl
  | .sledDemand .., _, _ => (execSledDemand_keeps _ _ _).leavesTb rfl
  | .governorUpdate, _, _ => (execGovernorUpdate_keeps _).leavesTb rfl
  | .thermalModelUpdate, _, _ => (execThermalModelUpdate_keeps _).leavesTb rfl
  | .claimSatisfied .., _, _ => (execClaimSatisfied_keeps _ _).leavesTb rfl
  | .add .., _, _ => (execAdd_keeps _ _ _).leavesTb rfl
  | .sub .., _, _ => (execSub_keeps _ _ _).leavesTb rfl
  | .and .., _, _ => (execAnd_keeps _ _ _).leavesTb rfl
  | .or .., _, _ => (execOr_keeps _ _ _).leavesTb rfl
  | .xor .., _, _ => (execXor_keeps _ _ _).leavesTb rfl
  | .shl .., _, _ => (execShl_keeps _ _ _).leavesTb rfl
  | .shr .., _, _ => (execShr_keeps _ _ _).leavesTb rfl
  | .sar .., _, _ => (execSar_keeps _ _ _).leavesTb rfl
  | .mul .., _, _ => (execMul_keeps _ _ _).leavesTb rfl
  | .mulh .., _, _ => (execMulh_keeps _ _ _).leavesTb rfl
  | .min .., _, _ => (execMin_keeps _ _ _).leavesTb rfl
  | .max .., _, _ => (execMax_keeps _ _ _).leavesTb rfl
  | .addi .., _, _ => (execAddi_keeps _ _ _).leavesTb rfl
  | .andi .., _, _ => (execAndi_keeps _ _ _).leavesTb rfl
  | .ori .., _, _ => (execOri_keeps _ _ _).leavesTb rfl
  | .shi .., _, _ => (execShi_keeps _ _ _).leavesTb rfl
  | .cmp .., _, _ => (execCmp_keeps _ _ _).leavesTb rfl
  | .cmpiEq .., _, _ => (execCmpiEq_keeps _ _ _).leavesTb rfl
  | .cmpiLt .., _, _ => (execCmpiLt_keeps _ _ _).leavesTb rfl
  | .cmpiLtu .., _, _ => (execCmpiLtu_keeps _ _ _).leavesTb rfl
  | .pset .., _, _ => (execPset_keeps _ _ _).leavesTb rfl
  | .sel .., _, _ => (execSel_keeps _ _ _).leavesTb rfl
  | .bfx .., _, _ => (execBfx_keeps _ _ _).leavesTb rfl
  | .bfi .., _, _ => (execBfi_keeps _ _ _).leavesTb rfl
  | .cnt .., _, _ => (execCnt_keeps _ _ _).leavesTb rfl
  | .divu .., _, _ => (execDivu_keeps _ _ _).leavesTb rfl
  | .ldb .., _, _ => (execLdb_keeps _ _ _).leavesTb rfl
  | .ldh .., _, _ => (execLdh_keeps _ _ _).leavesTb rfl
  | .ldw .., _, _ => (execLdw_keeps _ _ _).leavesTb rfl
  | .ldd .., _, _ => (execLdd_keeps _ _ _).leavesTb rfl
  | .ldbs .., _, _ => (execLdbs_keeps _ _ _).leavesTb rfl
  | .ldhs .., _, _ => (execLdhs_keeps _ _ _).leavesTb rfl
  | .ldws .., _, _ => (execLdws_keeps _ _ _).leavesTb rfl
  | .stb .., _, _ => (execStb_keeps _ _ _).leavesTb rfl
  | .sth .., _, _ => (execSth_keeps _ _ _).leavesTb rfl
  | .stw .., _, _ => (execStw_keeps _ _ _).leavesTb rfl
  | .std .., _, _ => (execStd_keeps _ _ _).leavesTb rfl
  | .amo .., _, _ => (execAmo_keeps _ _ _).leavesTb rfl
  | .fence .., _, _ => (execFence_keeps _ _ _).leavesTb rfl
  | .br .., _, _ => (execBr_keeps _ _ _).leavesTb rfl
  | .call .., _, _ => (execCall_keeps _ _ _).leavesTb rfl
  | .jr .., _, _ => (execJr_keeps _ _ _).leavesTb rfl
  | .trap .., _, _ => (execTrap_keeps _ _ _).leavesTb rfl
  | .halt .., _, _ => (execHalt_keeps _ _ _).leavesTb rfl
  | .signal .., _, _ => (execSignal_keeps _ _ _).leavesTb rfl
  | .tbNow .., _, _ => (execTbNow_keeps _ _ _).leavesTb rfl
  | .tbLast .., _, _ => (execTbLast_keeps _ _ _).leavesTb rfl
  | .waitEv .., _, _ => (execWaitEv_keeps _ _ _).leavesTb rfl
  | .waitUntil .., _, _ => (execWaitUntil_keeps _ _ _).leavesTb rfl
  | .poll .., _, _ => (execPoll_keeps _ _ _).leavesTb rfl
  | .eventQueueEntry .., _, _ => (execEventQueueEntry_keeps _ _).leavesTb rfl
  | .eventQueueRelease .., _, _ => (execEventQueueRelease_keeps _ _).leavesTb rfl
  | .waitTimeout .., _, _ => (execWaitTimeout_keeps _ _).leavesTb rfl
  | .waitUntilReached .., _, _ => (execWaitUntilReached_keeps _ _).leavesTb rfl
  | .hdOpen .., _, _ => (execHdOpen_keeps _ _ _).leavesTb rfl
  | .hdHem .., _, _ => (execHdHem_keeps _ _ _).leavesTb rfl
  | .hdSeek .., _, _ => (execHdSeek_keeps _ _ _).leavesTb rfl
  | .seekStep .., _, _ => (execSeekStep_keeps _ _).leavesTb rfl
  | .seekAddressTimeout .., _, _ => (execSeekAddressTimeout_keeps _ _).leavesTb rfl
  | .hdFocus .., _, _ => (execHdFocus_keeps _ _ _).leavesTb rfl
  | .hdLjump .., _, _ => (execHdLjump_keeps _ _ _).leavesTb rfl
  | .hdTrkon .., _, _ => (execHdTrkon_keeps _ _ _).leavesTb rfl
  | .hdSjump .., _, _ => (execHdSjump_keeps _ _ _).leavesTb rfl
  | .hdSafe .., _, _ => (execHdSafe_keeps _ _ _).leavesTb rfl
  | .hdFewr .., _, _ => (execHdFewr_keeps _ _ _).leavesTb rfl
  | .hdFerd .., _, _ => (execHdFerd_keeps _ _ _).leavesTb rfl
  | .frontEndReplyTimeout .., _, _ => (execFrontEndReplyTimeout_keeps _ _).leavesTb rfl
  | .hdHk .., _, _ => (execHdHk_keeps _ _ _).leavesTb rfl
  | .hdStat .., _, _ => (execHdStat_keeps _ _ _).leavesTb rfl
  | .slPos .., _, _ => (execSlPos_keeps _ _ _).leavesTb rfl
  | .slReref .., _, _ => (execSlReref_keeps _ _ _).leavesTb rfl
  | .spStat .., _, _ => (execSpStat_keeps _ _ _).leavesTb rfl
  | .lpStat .., _, _ => (execLpStat_keeps _ _ _).leavesTb rfl
  | .dcSubmit .., _, _ => (execDcSubmit_keeps _ _ _).leavesTb rfl
  | .dcStat .., _, _ => (execDcStat_keeps _ _ _).leavesTb rfl
  | .mmXfer .., _, _ => (execMmXfer_keeps _ _ _).leavesTb rfl
  | .woGet .., _, _ => (execWoGet_keeps _ _ _).leavesTb rfl
  | .woDone .., _, _ => (execWoDone_keeps _ _ _).leavesTb rfl
  | .woAen .., _, _ => (execWoAen_keeps _ _ _).leavesTb rfl
  | .evLog .., _, _ => (execEvLog_keeps _ _ _).leavesTb rfl
  | .bobStart .., _, _ => (execBobStart_keeps _ _).leavesTb rfl
  | .bobHalt .., _, _ => (execBobHalt_keeps _ _).leavesTb rfl
  | .bobResume .., _, _ => (execBobResume_keeps _ _ _).leavesTb rfl
  | .bobbinHalted .., _, _ => (execBobbinHalted_keeps _ _).leavesTb rfl
  | .bobStat .., _, _ => (execBobStat_keeps _ _ _).leavesTb rfl
  | .capWr .., _, _ => (execCapWr_keeps _ _).leavesTb rfl
  | .controlStoreParityError .., _, _ => (execControlStoreParityError_keeps _ _ _ _).leavesTb rfl
  | .safePointOverrun .., _, _ => (execSafePointOverrun_keeps _ _ _).leavesTb rfl
  | .patchLoad .., _, _ => (execPatchLoad_keeps _ _).leavesTb rfl
  | .patchReload, _, _ => (execPatchReload_keeps _).leavesTb rfl
  | .csTestWrite .., _, _ => (execCsTestWrite_keeps _ _).leavesTb rfl
  | .mcAddrClear, _, _ => (execMcAddrClear_keeps _).leavesTb rfl
  | .sqTailDoorbell .., _, _ => (execSqTailDoorbell_keeps _ _ _ _).leavesTb rfl
  | .cqHeadDoorbell .., _, _ => (execCqHeadDoorbell_keeps _ _ _ _).leavesTb rfl
  | .commandFetch .., _, _ => (execCommandFetch_keeps _ _ _ _).leavesTb rfl
  | .rangeLockGrant .., _, _ => (execRangeLockGrant_keeps _ _ _).leavesTb rfl
  | .writeDataArrived .., _, _ => (execWriteDataArrived_keeps _ _ _).leavesTb rfl
  | .workOrderIssue .., _, _ => (execWorkOrderIssue_keeps _ _).leavesTb rfl
  | .completionPost .., _, _ => (execCompletionPost_keeps _ _).leavesTb rfl
  | .snipRequest .., _, _ => (execSnipRequest_keeps _ _ _ _).leavesTb rfl
  | .snipResolve .., _, _ => (execSnipResolve_keeps _ _).leavesTb rfl
  | .controllerReset .., _, _ => (execControllerReset_keeps _ _).leavesTb rfl
  | .controllerEnable .., _, _ => (execControllerEnable_keeps _ _ _).leavesTb rfl
  | .functionLevelReset .., _, _ => (execFunctionLevelReset_keeps _ _).leavesTb rfl
  | .shutdownNormal .., _, _ => (execShutdownNormal_keeps _ _).leavesTb rfl
  | .shutdownAbrupt .., _, _ => (execShutdownAbrupt_keeps _ _).leavesTb rfl
  | .shutdownComplete .., _, _ => (execShutdownComplete_keeps _ _).leavesTb rfl
  | .firmwareActivationStart, _, _ => (execFirmwareActivationStart_keeps _).leavesTb rfl
  | .activationDrainDeadline, _, _ => (execActivationDrainDeadline_keeps _).leavesTb rfl
  | .firmwareActivationResume, _, _ => (execFirmwareActivationResume_keeps _).leavesTb rfl
  | .configRequest .., _, _ => (execConfigRequest_keeps _ _).leavesTb rfl
  | .nvmeMiBasicCommand .., _, _ => (execNvmeMiBasicCommand_keeps _ _).leavesTb rfl
  | .deleteIoSq .., _, _ => (execDeleteIoSq_keeps _ _).leavesTb rfl
  | .deleteIoCq .., _, _ => (execDeleteIoCq_keeps _ _).leavesTb rfl
  | .createIoSq .., _, _ => (execCreateIoSq_keeps _ _).leavesTb rfl
  | .createIoCq .., _, _ => (execCreateIoCq_keeps _ _).leavesTb rfl
  | .getLogPage .., _, _ => (execGetLogPage_keeps _ _ _).leavesTb rfl
  | .identify .., _, _ => (execIdentify_keeps _ _ _).leavesTb rfl
  | .abort .., _, _ => (execAbort_keeps _ _).leavesTb rfl
  | .setFeatures .., _, _ => (execSetFeatures_keeps _ _).leavesTb rfl
  | .getFeatures .., _, _ => (execGetFeatures_keeps _ _).leavesTb rfl
  | .asynchronousEventRequest .., _, _ => (execAsynchronousEventRequest_keeps _ _).leavesTb rfl
  | .namespaceManagement .., _, _ => (execNamespaceManagement_keeps _ _ _ _).leavesTb rfl
  | .namespaceAttachment .., _, _ => (execNamespaceAttachment_keeps _ _ _ _).leavesTb rfl
  | .firmwareImageDownload .., _, _ => (execFirmwareImageDownload_keeps _ _ _ _).leavesTb rfl
  | .firmwareCommit .., _, _ => (execFirmwareCommit_keeps _ _).leavesTb rfl
  | .firmwareCommitWriteDone .., _, _ => (execFirmwareCommitWriteDone_keeps _ _).leavesTb rfl
  | .formatNvm .., _, _ => (execFormatNvm_keeps _ _).leavesTb rfl
  | .securitySend .., _, _ => (execSecuritySend_keeps _ _ _ _).leavesTb rfl
  | .securityReceive .., _, _ => (execSecurityReceive_keeps _ _ _).leavesTb rfl
  | .flush .., _, _ => (execFlush_keeps _ _).leavesTb rfl
  | .write .., _, _ => (execWrite_keeps _ _ _).leavesTb rfl
  | .read .., _, _ => (execRead_keeps _ _ _).leavesTb rfl
  | .datasetManagement .., _, _ => (execDatasetManagement_keeps _ _ _ _).leavesTb rfl
  | .verify .., _, _ => (execVerify_keeps _ _).leavesTb rfl
  | .sequencerCall .., _, _ => (execSequencerCall_keeps _ _ _).leavesTb rfl
  | .cartridgeLoad .., _, _ => (execCartridgeLoad_keeps _ _).leavesTb rfl
  | .mediumHealthReport .., _, _ => (execMediumHealthReport_keeps _ _ _).leavesTb rfl
  | .cartridgeRelease .., _, _ => (execCartridgeRelease_keeps _ _).leavesTb rfl
  | .deferredApply, _, _ => (execDeferredApply_keeps _).leavesTb rfl
  | .seal .., _, _ => (execSeal_keeps _ _).leavesTb rfl
  | .commit .., _, _ => (execCommit_keeps _ _).leavesTb rfl
  | .abandon .., _, _ => (execAbandon_keeps _ _).leavesTb rfl
  | .replayEnd, _, _ => (execReplayEnd_keeps _).leavesTb rfl
  | .splitCommit .., _, _ => (execSplitCommit_keeps _ _ _).leavesTb rfl
  | .journalDurable .., _, _ => (execJournalDurable_keeps _ _).leavesTb rfl
  | .chainApply, _, _ => (execChainApply_keeps _).leavesTb rfl
  | .memoryRead .., _, _ => (execMemoryRead_keeps _ _ _ _).leavesTb rfl
  | .memoryWrite .., _, _ => (execMemoryWrite_keeps _ _ _ _).leavesTb rfl
  | .eccWriteBack, _, _ => (execEccWriteBack_keeps _).leavesTb rfl
  | .refresh .., _, _ => (execRefresh_keeps _ _ _).leavesTb rfl
  | .mr4Read .., _, _ => (execMr4Read_keeps _ _ _).leavesTb rfl
  | .activateTableClear, _, _ => (execActivateTableClear_keeps _).leavesTb rfl
  | .neighbourRefresh .., _, _ => (execNeighbourRefresh_keeps _ _ _ _ _).leavesTb rfl
  | .pageIdlePrecharge .., _, _ => (execPageIdlePrecharge_keeps _ _ _).leavesTb rfl
  | .patrolScrubRead, _, _ => (execPatrolScrubRead_keeps _).leavesTb rfl
  | .eccEraseWrite .., _, _ => (execEccEraseWrite_keeps _ _).leavesTb rfl
  | .eccCountClear .., _, _ => (execEccCountClear_keeps _ _).leavesTb rfl
  | .flipArm .., _, _ => (execFlipArm_keeps _ _ _).leavesTb rfl
  | .memoryEnable .., _, _ => (execMemoryEnable_keeps _ _).leavesTb rfl
  | .mrw .., _, _ => (execMrw_keeps _ _ _ _).leavesTb rfl
  | .mrr .., _, _ => (execMrr_keeps _ _ _ _).leavesTb rfl
  | .mpc .., _, _ => (execMpc_keeps _ _ _).leavesTb rfl
  | .prechargeAll .., _, _ => (execPrechargeAll_keeps _ _).leavesTb rfl
  | .refreshAll .., _, _ => (execRefreshAll_keeps _ _).leavesTb rfl
  | .patternRun .., _, _ => (execPatternRun_keeps _ _ _ _).leavesTb rfl
  | .sweepStart, _, _ => (execSweepStart_keeps _).leavesTb rfl
  | .sweepEnd .., _, _ => (execSweepEnd_keeps _ _ _).leavesTb rfl
  | .frequencyChangeRequest .., _, _ => (execFrequencyChangeRequest_keeps _ _).leavesTb rfl
  | .frequencyChangeDone, _, _ => (execFrequencyChangeDone_keeps _).leavesTb rfl
  | .bandgapCompare .., _, _ => (execBandgapCompare_keeps _ _).leavesTb rfl
  | .calibrationSlots .., _, _ => (execCalibrationSlots_keeps _ _ _).leavesTb rfl
  | .calibrationCopy, _, _ => (execCalibrationCopy_keeps _).leavesTb rfl
  | .calibrationSlew, _, _ => (execCalibrationSlew_keeps _).leavesTb rfl
  | .adcTargetWrite .., _, _ => (execAdcTargetWrite_keeps _ _ _).leavesTb rfl
  | .comparatorTrim, _, _ => (execComparatorTrim_keeps _).leavesTb rfl
  | .comparatorTrimDone .., _, _ => (execComparatorTrimDone_keeps _ _ _).leavesTb rfl
  | .temperatureReport .., _, _ => (execTemperatureReport_keeps _ _).leavesTb rfl
  | .bootVerify, _, _ => (execBootVerify_keeps _).leavesTb rfl
  | .bootConfigApply, _, _ => (execBootConfigApply_keeps _).leavesTb rfl
  | .bootBobbinsStart, _, _ => (execBootBobbinsStart_keeps _).leavesTb rfl
  | .hostReadySet, _, _ => (execHostReadySet_keeps _).leavesTb rfl
  | .floorCommit, _, _ => (execFloorCommit_keeps _).leavesTb rfl
  | .revoke .., _, _ => (execRevoke_keeps _ _).leavesTb rfl
  | .debugUnlockSubmit, _, _ => (execDebugUnlockSubmit_keeps _).leavesTb rfl
  | .doeDiscovery .., _, _ => (execDoeDiscovery_keeps _ _ _).leavesTb rfl
  | .getVersion .., _, _ => (execGetVersion_keeps _ _ _).leavesTb rfl
  | .getCapabilities .., _, _ => (execGetCapabilities_keeps _ _ _).leavesTb rfl
  | .negotiateAlgorithms .., _, _ => (execNegotiateAlgorithms_keeps _ _ _).leavesTb rfl
  | .getDigests .., _, _ => (execGetDigests_keeps _ _ _).leavesTb rfl
  | .getCertificate .., _, _ => (execGetCertificate_keeps _ _ _).leavesTb rfl
  | .challenge .., _, _ => (execChallenge_keeps _ _ _).leavesTb rfl
  | .getMeasurements .., _, _ => (execGetMeasurements_keeps _ _ _).leavesTb rfl
  | .keyExchange .., _, _ => (execKeyExchange_keeps _ _ _).leavesTb rfl
  | .finish .., _, _ => (execFinish_keeps _ _ _ _).leavesTb rfl
  | .heartbeat .., _, _ => (execHeartbeat_keeps _ _ _ _).leavesTb rfl
  | .keyUpdate .., _, _ => (execKeyUpdate_keeps _ _ _ _).leavesTb rfl
  | .endSession .., _, _ => (execEndSession_keeps _ _ _ _).leavesTb rfl
  | .powerOnReset, _, hp => absurd rfl hp
  | .warmReset, _, _ => execWarmReset_tb s
  | .domainPowerUp .., _, _ => (execDomainPowerUp_keeps _ _ _).leavesTb rfl
  | .domainPowerCheck .., _, _ => (execDomainPowerCheck_keeps _ _ _).leavesTb rfl
  | .supplyGroupWaitTimeout .., _, _ => (execSupplyGroupWaitTimeout_keeps _ _).leavesTb rfl
  | .domainPowerRetry .., _, _ => (execDomainPowerRetry_keeps _ _).leavesTb rfl
  | .supplyGroupLost .., _, _ => (execSupplyGroupLost_keeps _ _).leavesTb rfl
  | .headIsolate .., _, _ => (execHeadIsolate_keeps _ _).leavesTb rfl
  | .headDomainPowerLost .., _, _ => (execHeadDomainPowerLost_keeps _ _).leavesTb rfl
  | .headIsolationDeadline .., _, _ => (execHeadIsolationDeadline_keeps _ _).leavesTb rfl
  | .headPower .., _, _ => (execHeadPower_keeps _ _).leavesTb rfl
  | .evRptrWrite .., _, _ => (execEvRptrWrite_keeps _ _).leavesTb rfl
  | .evAttnWrite .., _, _ => (execEvAttnWrite_keeps _ _).leavesTb rfl
  | .attnClear, _, _ => (execAttnClear_keeps _).leavesTb rfl
  | .journalReplayStart, _, _ => (execJournalReplayStart_keeps _).leavesTb rfl
  | .upFrameMissing .., _, _ => (execUpFrameMissing_keeps _ _ _ _).leavesTb rfl
  | .chopperSample .., _, _ => (execChopperSample_keeps _ _ _ _).leavesTb rfl
  | .pwmPeriod .., _, _ => (execPwmPeriod_keeps _ _).leavesTb rfl
  | .laserInhRelease, _, _ => (execLaserInhRelease_keeps _).leavesTb rfl
  | .noImageFillDone, _, _ => (execNoImageFillDone_keeps _).leavesTb rfl
  | .perstNRelease, _, _ => (execPerstNRelease_keeps _).leavesTb rfl
  | .interruptCoalescingTime .., _, _ => (execInterruptCoalescingTime_keeps _ _ _).leavesTb rfl
  | .pcieDmaError .., _, _ => (execPcieDmaError_keeps _ _).leavesTb rfl

/-- Settles O7: row by row, from the parts that each command may change. -/
theorem onlyTheFirstLockStartsTheCounter : Obligations.OnlyTheFirstLockStartsTheCounter :=
  fun c s t hl hp h => exec_leavesTb c s hl hp t h

end Sys2Proof.Machine
end

section
/-!
PROOFS. Event records on their way to the ring (R27 to R29, R355, R356) and the PLL (R20, R21): the order in which a merger
releases records, what the crossings and the ring hold after each command of the time base, and what TB_STATUS shows.
Settles O9 and O8.
-/

namespace Sys2Proof.Machine

/-! ## The merger's order (R28) -/

/-- a may stand before b: a lower stamp, or the same stamp and no higher source. -/
def EventRec.notAfter (a b : EventRec) : Prop := a.stamp < b.stamp ∨ (a.stamp = b.stamp ∧ a.src ≤ b.src)

theorem EventRec.notAfter_of_before {a b : EventRec} (h : a.before b = true) : a.notAfter b := by
  simp only [EventRec.before, Bool.or_eq_true, decide_eq_true_eq, Bool.and_eq_true, beq_iff_eq] at h
  exact h.imp_right fun ⟨he, hl⟩ => ⟨he, Nat.le_of_lt hl⟩

theorem EventRec.notAfter_of_not_before {a b : EventRec} (h : a.before b = false) : b.notAfter a := by
  simp only [EventRec.before, Bool.or_eq_false_iff, decide_eq_false_iff_not, Bool.and_eq_false_imp, beq_iff_eq] at h
  obtain ⟨hstamp, hsrc⟩ := h
  rcases Nat.lt_or_eq_of_le (Nat.not_lt.mp hstamp) with hlt | heq
  · exact .inl hlt
  · exact .inr ⟨heq, Nat.not_lt.mp (hsrc heq.symm)⟩

theorem EventRec.notAfter_trans {a b c : EventRec} (h : a.notAfter b) (k : b.notAfter c) : a.notAfter c := by
  rcases h with h | ⟨h, h'⟩
  · exact k.elim (fun k => .inl (Nat.lt_trans h k)) fun ⟨k, _⟩ => .inl (Nat.lt_of_lt_of_eq h k)
  · exact k.elim (fun k => .inl (h ▸ k)) fun ⟨k, k'⟩ => .inr ⟨h.trans k, Nat.le_trans h' k'⟩

theorem insertRec_perm (r : EventRec) (l : List EventRec) : (insertRec r l).Perm (r :: l) := by
  induction l with
  | nil => exact .refl _
  | cons x l ih =>
    rw [insertRec]
    split
    · exact .refl _
    · exact (ih.cons x).trans (.swap ..)

theorem insertRec_pairwise (r : EventRec) {l : List EventRec} (h : l.Pairwise EventRec.notAfter) :
    (insertRec r l).Pairwise EventRec.notAfter := by
  induction l with
  | nil => exact List.pairwise_singleton _ _
  | cons x l ih =>
    obtain ⟨hx, hl⟩ := List.pairwise_cons.mp h
    rw [insertRec]
    split
    · rename_i hb
      have hrx := EventRec.notAfter_of_before hb
      refine List.pairwise_cons.mpr ⟨fun y hy => ?_, h⟩
      rcases List.mem_cons.mp hy with rfl | hy
      · exact hrx
      · exact EventRec.notAfter_trans hrx (hx y hy)
    · rename_i hb
      refine List.pairwise_cons.mpr ⟨fun y hy => ?_, ih hl⟩
      rcases List.mem_cons.mp ((insertRec_perm r l).mem_iff.mp hy) with rfl | hy
      · exact EventRec.notAfter_of_not_before (Bool.eq_false_iff.mpr hb)
      · exact hx y hy

theorem foldl_insertRec_perm (l acc : List EventRec) : (l.foldl (fun a r => insertRec r a) acc).Perm (l ++ acc) := by
  induction l generalizing acc with
  | nil => exact .refl _
  | cons r l ih => exact (ih _).trans (((insertRec_perm r acc).append_left l).trans List.perm_middle)

theorem foldl_insertRec_pairwise (l : List EventRec) {acc : List EventRec} (h : acc.Pairwise EventRec.notAfter) :
    (l.foldl (fun a r => insertRec r a) acc).Pairwise EventRec.notAfter := by
  induction l generalizing acc with
  | nil => exact h
  | cons r l ih => exact ih (insertRec_pairwise r h)

theorem dueRecords_perm (s : State) :
    (dueRecords s).Perm (s.events.held.filter fun r => decide (r.stamp + 384 ≤ s.now)) := by
  have h := foldl_insertRec_perm (s.events.held.filter fun r => decide (r.stamp + mergerHorizon ≤ s.now)) []
  rw [List.append_nil] at h
  exact h

/-- Settles O9: each insertion permutes and keeps the order of R28. -/
theorem releasedRecordsAreInOrder : Obligations.ReleasedRecordsAreInOrder :=
  fun s => ⟨dueRecords_perm s, foldl_insertRec_pairwise _ List.Pairwise.nil⟩

/-! ## Flags and fields after a write -/

theorem State.flag_setFld_set (s : State) (k : Nat) (p : FieldPos) (h : p.hi < 32) (hw : p.lo ≤ p.hi) :
    (s.setFld k p 1).flag k p = true := by
  have hb : 1 % 2 ^ p.width = 1 := Nat.mod_eq_of_lt (Nat.one_lt_two_pow (by unfold FieldPos.width; omega))
  show ((s.setFld k p 1).fld k p != 0) = true
  rw [State.fld_setFld_self s k p 1 h hw, hb]
  rfl

theorem State.flag_setFld_clear (s : State) (k : Nat) (p : FieldPos) (h : p.hi < 32) (hw : p.lo ≤ p.hi) :
    (s.setFld k p 0).flag k p = false := by
  show ((s.setFld k p 0).fld k p != 0) = false
  rw [State.fld_setFld_self s k p 0 h hw, Nat.zero_mod]
  rfl

theorem State.flag_setFld_other (s : State) (k : Nat) (p q : FieldPos) (v : Nat) (h : p.hi < 32) (h' : p.lo ≤ p.hi) (hq : q.lo ≤ q.hi)
    (hd : p.hi < q.lo ∨ q.hi < p.lo) : (s.setFld k p v).flag k q = s.flag k q :=
  congrArg (· != 0) (s.fld_setFld_other k p q v h h' hq hd)

theorem State.regsBut_setFld (s : State) (k : Nat) (p : FieldPos) (v : Nat) : RegsBut [k] s (s.setFld k p v) :=
  s.regsBut_setReg k _

/-- Registers are all that a read of a field looks at. -/
theorem State.fld_congr {s t : State} {k : Nat} (h : t.reg k = s.reg k) (p : FieldPos) : t.fld k p = s.fld k p :=
  congrArg (getField · p) h

theorem State.flag_congr {s t : State} {k : Nat} (h : t.reg k = s.reg k) (p : FieldPos) : t.flag k p = s.flag k p :=
  congrArg (getFlag · p) h

theorem regsBut_of_regs_eq {ks : List Nat} {s t : State} (h : t.regs = s.regs) : RegsBut ks s t :=
  fun k _ => congrArg (storeGet regReset k) h

@[simp] theorem State.logAt_flag (s : State) (src : Nat) (x : Stamp) (code a0 a1 a2 a3 k : Nat) (p : FieldPos) :
    (s.logAt src x code a0 a1 a2 a3).flag k p = s.flag k p := State.flag_congr (State.logAt_reg ..) p

/-! ## The crossings (R27) -/

@[simp] theorem State.xing_setXing_self (s : State) (src : Nat) (x : EventXing) : (s.setXing src x).xing src = x := storeGet_put_self

theorem State.xing_setXing_other (s : State) {src k : Nat} (x : EventXing) (h : k ≠ src) : (s.setXing src x).xing k = s.xing k :=
  storeGet_put_other h

/-- What a record does to the event log depends on the event log alone. -/
theorem State.post_events_congr {s t : State} (h : t.events = s.events) (r : EventRec) : (t.post r).events = (s.post r).events := by
  have hx : t.xing r.src = s.xing r.src := congrArg (fun e : EventState => storeGet (fun _ => EventXing.empty) r.src e.xing) h
  simp only [State.post, hx]
  split <;> simp only [State.setXing, h]

theorem State.logAt_events_congr {s t : State} (h : t.events = s.events) (src : Nat) (x : Stamp) (code a0 a1 a2 a3 : Nat) :
    (t.logAt src x code a0 a1 a2 a3).events = (s.logAt src x code a0 a1 a2 a3).events := State.post_events_congr h _

/-! ## The ring (R355, R356) -/

theorem State.sendAll_reg (s : State) (v k : Nat) : (s.sendAll v).reg k = s.reg k :=
  congrArg (storeGet regReset k) ((s.sendAll_keeps v).frame .regs (by decide))

theorem State.attention_regsBut (s : State) (code : Option Nat) : RegsBut [R.EV_STATUS] s (s.attention code) := by
  unfold State.attention
  split
  · exact (s.regsBut_setFld _ _ _).trans fun k _ => State.sendAll_reg _ 258 k
  · exact RegsBut.refl _ _

@[simp] theorem State.attention_events (s : State) (code : Option Nat) : (s.attention code).events = s.events :=
  (s.attention_keeps code).frame .events (by decide)

theorem State.writeRing_events (s : State) (r : EventRec) :
    (s.writeRing r).events = { s.events with
      ring := storePut (fun _ => EventRec.zero) (s.fld R.EV_WPTR F.EV_WPTR_WPTR % 2048) r s.events.ring } := by
  unfold State.writeRing
  dsimp only
  rw [State.attention_events]
  split <;> simp [ringSize]

/-- The write pointer counts every record, modulo 2^32. -/
theorem State.writeRing_wptr (s : State) (r : EventRec) :
    (s.writeRing r).fld R.EV_WPTR F.EV_WPTR_WPTR = (s.fld R.EV_WPTR F.EV_WPTR_WPTR + 1) % 2 ^ 32 := by
  unfold State.writeRing
  dsimp only
  rw [State.fld_congr (State.attention_regsBut _ _ R.EV_WPTR (by decide))]
  split
  · rw [State.bump, State.fld_setFld_key _ _ _ _ (by decide), State.fld_setFld_self _ _ _ _ (by decide) (by decide)]
    rfl
  · rw [State.fld_setFld_self _ _ _ _ (by decide) (by decide)]
    rfl

@[simp] theorem State.writeRing_time (s : State) (r : EventRec) : (s.writeRing r).time = s.time :=
  (s.writeRing_keeps r).frame .time (by decide)

/-- A record after another: the write pointer moves on by one each, and the merger and the crossings are not touched. -/
theorem State.foldl_writeRing (l : List EventRec) (s : State) :
    (l.foldl (fun t r => t.writeRing r) s).time = s.time ∧
    (l.foldl (fun t r => t.writeRing r) s).events.held = s.events.held ∧
    (l.foldl (fun t r => t.writeRing r) s).events.xing = s.events.xing ∧
    (l.foldl (fun t r => t.writeRing r) s).fld R.EV_WPTR F.EV_WPTR_WPTR % 2 ^ 32 =
      (s.fld R.EV_WPTR F.EV_WPTR_WPTR + l.length) % 2 ^ 32 := by
  induction l generalizing s with
  | nil => exact ⟨rfl, rfl, rfl, rfl⟩
  | cons r l ih =>
    obtain ⟨htime, hheld, hxing, hw⟩ := ih (s.writeRing r)
    rw [State.writeRing_time] at htime
    rw [State.writeRing_events] at hheld hxing
    rw [State.writeRing_wptr, Nat.mod_add_mod] at hw
    refine ⟨htime, hheld, hxing, hw.trans ?_⟩
    rw [List.length_cons]
    congr 1
    omega

theorem State.wptr_lt (s : State) : s.fld R.EV_WPTR F.EV_WPTR_WPTR < 2 ^ 32 := Nat.mod_lt _ (by decide)

/-! ## The PLL and holdover -/

theorem exec_pllLock_eq {s : State} (h : s.time.started = false) :
    exec .pllLock s = .next ((({ s with
        time := { s.time with tb := 0, started := true }, boot := { s.boot with since := 0 },
        domains := s.domains.set 18 ⟨.waiting 0, 0⟩ } : State).setFld
      R.TB_STATUS F.TB_STATUS_LOCKED 1).setFld R.TB_STATUS F.TB_STATUS_REF_PRESENT 1) :=
  when_of_true (by simp [h]) _ _

/-- R20: the first lock. -/
theorem pllLock_completes :
    Completes .pllLock (fun s => s.time.started = false) [.time, .regs, .domains, .boot]
      fun s t => t.time.started = true ∧ t.time.tb = 0 ∧ t.flag R.TB_STATUS F.TB_STATUS_LOCKED = true ∧
          t.flag R.TB_STATUS F.TB_STATUS_REF_PRESENT = true ∧ RegsBut [R.TB_STATUS] s t := by
  intro s _ hstop
  have hexec := exec_pllLock_eq hstop
  refine ⟨_, hexec, (execPllLock_keeps s _ hexec).frame, rfl, rfl, ?_, State.flag_setFld_set _ _ _ (by decide) (by decide),
    (State.regsBut_setFld _ _ _ _).trans (State.regsBut_setFld _ _ _ _)⟩
  rw [State.flag_setFld_other _ _ _ _ _ (by decide) (by decide) (by decide) (by decide)]
  exact State.flag_setFld_set _ _ _ (by decide) (by decide)

/-- TB_STATUS as the entry to holdover leaves it (R21). -/
def State.showHoldover (s : State) : State :=
  (((s.setFld R.TB_STATUS F.TB_STATUS_HOLDOVER 1).setFld R.TB_STATUS F.TB_STATUS_REF_LOST_SEEN 1).setFld
    R.TB_STATUS F.TB_STATUS_REF_PRESENT 0).setFld R.TB_STATUS F.TB_STATUS_LOCKED 0

theorem State.showHoldover_flags (s : State) :
    s.showHoldover.flag R.TB_STATUS F.TB_STATUS_HOLDOVER = true ∧ s.showHoldover.flag R.TB_STATUS F.TB_STATUS_REF_LOST_SEEN = true ∧
    s.showHoldover.flag R.TB_STATUS F.TB_STATUS_REF_PRESENT = false ∧ s.showHoldover.flag R.TB_STATUS F.TB_STATUS_LOCKED = false := by
  simp (decide := true) [State.showHoldover, State.flag_setFld_set, State.flag_setFld_clear, State.flag_setFld_other]

theorem State.showHoldover_regsBut (s : State) : RegsBut [R.TB_STATUS] s s.showHoldover :=
  (((s.regsBut_setFld _ _ _).trans (State.regsBut_setFld _ _ _ _)).trans (State.regsBut_setFld _ _ _ _)).trans (State.regsBut_setFld _ _ _ _)

theorem exec_holdoverEntry_eq {s : State} (h : s.time.started = true) (hh : s.flag R.TB_STATUS F.TB_STATUS_HOLDOVER = false) :
    exec .holdoverEntry s = .next (({ s with
      time := { s.time with holdSince := some s.now, refSince := none } } : State).showHoldover.logAt srcCal s.cellStamp 0x9010) := by
  show when s.time.started s _ = _
  rw [hh]
  exact when_of_true h _ _

/-- R21: the entry to holdover; the count goes on. -/
theorem holdoverEntry_completes :
    Completes .holdoverEntry
      (fun s => s.time.started = true ∧ s.flag R.TB_STATUS F.TB_STATUS_HOLDOVER = false) [.time, .events, .regs]
      fun s t => t.time.tb = s.time.tb ∧ t.time.holdSince = some s.now ∧ t.flag R.TB_STATUS F.TB_STATUS_HOLDOVER = true ∧
          t.flag R.TB_STATUS F.TB_STATUS_REF_LOST_SEEN = true ∧ t.flag R.TB_STATUS F.TB_STATUS_REF_PRESENT = false ∧
          t.flag R.TB_STATUS F.TB_STATUS_LOCKED = false ∧ RegsBut [R.TB_STATUS] s t ∧
          t.events = (s.logAt srcCal s.cellStamp 0x9010).events := by
  rintro s - ⟨hrun, hh⟩
  have hexec := exec_holdoverEntry_eq hrun hh
  have hflags := ({ s with time := { s.time with holdSince := some s.now, refSince := none } } : State).showHoldover_flags
  obtain ⟨hhold, hlost, href, hlock⟩ := hflags
  refine ⟨_, hexec, (execHoldoverEntry_keeps s _ hexec).frame, ?_⟩
  simp only [State.logAt_flag, State.logAt_time]
  refine ⟨rfl, rfl, hhold, hlost, href, hlock, ?_, State.logAt_events_congr (by rfl) ..⟩
  exact (State.showHoldover_regsBut _).trans (regsBut_of_regs_eq (State.logAt_regs ..))

/-- R21, R357: a gap in a reference that had come back (log entry 163). -/
theorem holdoverEntry_gap_completes :
    Completes .holdoverEntry
      (fun s => s.time.started = true ∧ s.flag R.TB_STATUS F.TB_STATUS_HOLDOVER = true) [.time, .regs]
      fun s t => t.time = { s.time with refSince := none } ∧ t.flag R.TB_STATUS F.TB_STATUS_REF_PRESENT = false ∧
          RegsBut [R.TB_STATUS] s t := by
  rintro s - ⟨hrun, hh⟩
  have hexec : exec .holdoverEntry s = .next (({ s with time := { s.time with refSince := none } } : State).setFld
      R.TB_STATUS F.TB_STATUS_REF_PRESENT 0) := by
    show when s.time.started s _ = _
    rw [hh]
    exact when_of_true hrun _ _
  have hkeeps : Keeps [.time, .regs] s (({ s with time := { s.time with refSince := none } } : State).setFld
      R.TB_STATUS F.TB_STATUS_REF_PRESENT 0) :=
    (State.setFld_keeps ..).step rfl (Keeps.timeTo rfl id (Keeps.refl _ _))
  exact ⟨_, hexec, hkeeps.frame, rfl, State.flag_setFld_clear _ _ _ (by decide) (by decide), State.regsBut_setFld _ _ _ _⟩

/-- R21: the reference's edges are back. -/
theorem pllRelock_back_completes (h : Stamp) :
    Completes .pllRelock
      (fun s => s.time.holdSince = some h ∧ s.time.refSince = none) [.time, .regs]
      fun s t => t.time = { s.time with refSince := some s.now } ∧ t.flag R.TB_STATUS F.TB_STATUS_REF_PRESENT = true ∧
          RegsBut [R.TB_STATUS] s t := by
  rintro s - ⟨hhold, hback⟩
  have hexec : exec .pllRelock s = .next (({ s with time := { s.time with refSince := some s.now } } : State).setFld
      R.TB_STATUS F.TB_STATUS_REF_PRESENT 1) := by
    show execPllRelock s = _
    rw [execPllRelock, hhold, hback]
  have hkeeps : Keeps [.time, .regs] s (({ s with time := { s.time with refSince := some s.now } } : State).setFld
      R.TB_STATUS F.TB_STATUS_REF_PRESENT 1) :=
    (State.setFld_keeps ..).step rfl (Keeps.timeTo rfl id (Keeps.refl _ _))
  exact ⟨_, hexec, hkeeps.frame, rfl, State.flag_setFld_set _ _ _ (by decide) (by decide), State.regsBut_setFld _ _ _ _⟩

/-- TB_STATUS as a relock leaves it. -/
def State.showRelock (s : State) : State :=
  ((s.setFld R.TB_STATUS F.TB_STATUS_HOLDOVER 0).setFld R.TB_STATUS F.TB_STATUS_REF_PRESENT 1).setFld
    R.TB_STATUS F.TB_STATUS_LOCKED 1

theorem State.showRelock_flags (s : State) :
    s.showRelock.flag R.TB_STATUS F.TB_STATUS_HOLDOVER = false ∧ s.showRelock.flag R.TB_STATUS F.TB_STATUS_REF_PRESENT = true ∧
    s.showRelock.flag R.TB_STATUS F.TB_STATUS_LOCKED = true := by
  simp (decide := true) [State.showRelock, State.flag_setFld_set, State.flag_setFld_clear, State.flag_setFld_other]

theorem State.showRelock_regsBut (s : State) : RegsBut [R.TB_STATUS] s s.showRelock :=
  ((s.regsBut_setFld _ _ _).trans (State.regsBut_setFld _ _ _ _)).trans (State.regsBut_setFld _ _ _ _)

/-- R21: the relock after 20 microseconds without a gap, with no step of the count. -/
theorem pllRelock_completes (h back : Stamp) :
    Completes .pllRelock
      (fun s => s.time.holdSince = some h ∧ s.time.refSince = some back ∧ back + 20 * ticksUs ≤ s.now) [.time, .events, .regs]
      fun s t => t.time.tb = s.time.tb ∧ t.time.holdSince = none ∧ t.flag R.TB_STATUS F.TB_STATUS_HOLDOVER = false ∧
          t.flag R.TB_STATUS F.TB_STATUS_REF_PRESENT = true ∧ t.flag R.TB_STATUS F.TB_STATUS_LOCKED = true ∧
          RegsBut [R.TB_STATUS] s t ∧ t.events = (s.logAt srcCal s.cellStamp 0x9011 (s.now - h)).events := by
  rintro s - ⟨hhold, hback, hlong⟩
  have hexec : exec .pllRelock s = .next (({ s with
      time := { s.time with holdSince := none, refSince := none } } : State).showRelock.logAt srcCal s.cellStamp 0x9011
        (s.now - h)) := by
    show execPllRelock s = _
    rw [execPllRelock, hhold, hback]
    exact when_of_true (decide_eq_true hlong) _ _
  obtain ⟨hh, href, hlock⟩ := ({ s with time := { s.time with holdSince := none, refSince := none } } : State).showRelock_flags
  refine ⟨_, hexec, (execPllRelock_keeps s _ hexec).frame, ?_⟩
  simp only [State.logAt_flag, State.logAt_time]
  refine ⟨rfl, rfl, hh, href, hlock, ?_, State.logAt_events_congr (by rfl) ..⟩
  exact (State.showRelock_regsBut _).trans (regsBut_of_regs_eq (State.logAt_regs ..))

/-! ## The crossings and the merger -/

/-- R27: the events-lost record goes first. -/
theorem eventsLostRecord_completes (src : Nat) :
    Completes (.eventsLostRecord src) (fun s => (s.xing src).lost ≠ 0 ∧ (s.xing src).queue.length < 32) [.events]
      fun s t => t.xing src = ⟨(s.xing src).queue ++ [⟨(s.xing src).firstLost, 0x0001, src, false, (s.xing src).lost,
          (s.xing src).lastLost % 2 ^ 32, (s.xing src).lastLost / 2 ^ 32 % 2 ^ 32, 0⟩], 0, 0, 0⟩ ∧
          ∀ x : Nat, x ≠ src → t.xing x = s.xing x := by
  rintro s - ⟨hlost, hroom⟩
  have hexec : exec (.eventsLostRecord src) s = .next (s.setXing src { EventXing.empty with
      queue := (s.xing src).queue ++ [lostRecord src (s.xing src)] }) :=
    when_of_true (by simp [hlost, eventXingDepth, hroom]) _ _
  exact ⟨_, hexec, (execEventsLostRecord_keeps src s _ hexec).frame, State.xing_setXing_self .., fun x hx => s.xing_setXing_other _ hx⟩

theorem exec_eventMergerArrival_late {s : State} {src : Nat} {r : EventRec} {rest : List EventRec}
    (hq : (s.xing src).queue = r :: rest) (h : r.stamp + 384 < s.now) :
    exec (.eventMergerArrival src) s =
      .next ((s.setXing src { s.xing src with queue := rest }).writeRing { r with late := true }).publishC := by
  show execEventMergerArrival src s = _
  rw [execEventMergerArrival, hq]
  exact if_pos h

theorem exec_eventMergerArrival_held {s : State} {src : Nat} {r : EventRec} {rest : List EventRec}
    (hq : (s.xing src).queue = r :: rest) (h : s.now ≤ r.stamp + 384) :
    exec (.eventMergerArrival src) s =
      .next ({ s.setXing src { s.xing src with queue := rest } with
        events := { (s.setXing src { s.xing src with queue := rest }).events with held := s.events.held ++ [r] } } : State).publishC := by
  show execEventMergerArrival src s = _
  rw [execEventMergerArrival, hq]
  exact if_neg (Nat.not_lt.mpr h)

/-- R29: a late record is written at once. -/
theorem eventMergerArrival_late_completes (src : Nat) (r : EventRec) (rest : List EventRec) :
    Completes (.eventMergerArrival src) (fun s => (s.xing src).queue = r :: rest ∧ r.stamp + 384 < s.now)
      [.events, .regs, .msix, .out]
      fun s t => t.events.held = s.events.held ∧
          storeGet (fun _ => EventRec.zero) (s.fld R.EV_WPTR F.EV_WPTR_WPTR % 2048) t.events.ring = { r with late := true } ∧
          t.fld R.EV_WPTR F.EV_WPTR_WPTR = (s.fld R.EV_WPTR F.EV_WPTR_WPTR + 1) % 2 ^ 32 := by
  rintro s - ⟨hq, hlate⟩
  have hexec := exec_eventMergerArrival_late hq hlate
  refine ⟨_, hexec, (execEventMergerArrival_keeps src s _ hexec).frame, ?_⟩
  dsimp only
  rw [State.publishC_events, State.writeRing_events, State.fld_congr (State.publishC_regsBut _ R.EV_WPTR (by decide)),
    State.writeRing_wptr]
  exact ⟨rfl, storeGet_put_self, rfl⟩

/-- R28: any other record is held. -/
theorem eventMergerArrival_held_completes (src : Nat) (r : EventRec) (rest : List EventRec) :
    Completes (.eventMergerArrival src) (fun s => (s.xing src).queue = r :: rest ∧ s.now ≤ r.stamp + 384)
      [.events, .regs, .msix, .out]
      fun s t => t.events.held = s.events.held ++ [r] ∧ t.events.ring = s.events.ring ∧ t.out = s.out ∧
          RegsBut [R.EV_COMP_LO, R.EV_COMP_HI] s t := by
  rintro s - ⟨hq, htime⟩
  have hexec := exec_eventMergerArrival_held hq htime
  refine ⟨_, hexec, (execEventMergerArrival_keeps src s _ hexec).frame, ?_⟩
  dsimp only
  rw [State.publishC_events, State.publishC_out]
  exact ⟨rfl, rfl, rfl, State.publishC_regsBut _⟩

/-- The due records have left the merger. -/
def State.withoutDue (s : State) : State :=
  { s with events := { s.events with held := s.events.held.filter fun r => decide (s.now < r.stamp + 384) } }

theorem exec_eventMergerRelease_eq {s : State} (h : ∃ r ∈ s.events.held, r.stamp + 384 ≤ s.now) :
    exec .eventMergerRelease s = .next ((dueRecords s).foldl (fun t r => t.writeRing r) s.withoutDue).publishC := by
  obtain ⟨r, hr, hdue⟩ := h
  have hne : (!(dueRecords s).isEmpty) = true := by
    have hmem : r ∈ dueRecords s := (dueRecords_perm s).mem_iff.mpr (List.mem_filter.mpr ⟨hr, decide_eq_true hdue⟩)
    rw [List.isEmpty_eq_false_iff_exists_mem.mpr ⟨r, hmem⟩]
    rfl
  have hkept : (fun r : EventRec => !decide (r.stamp + mergerHorizon ≤ s.now)) = fun r => decide (s.now < r.stamp + 384) := by
    funext x
    rw [← decide_not]
    exact decide_eq_decide.mpr Nat.not_le
  refine (when_of_true hne _ _).trans ?_
  dsimp only
  rw [hkept]
  rfl

/-- R28, R29: the due records leave the held ones for the ring, and the completeness stamp is published. -/
theorem eventMergerRelease_completes :
    Completes .eventMergerRelease (fun s => ∃ r ∈ s.events.held, r.stamp + 384 ≤ s.now) [.events, .regs, .msix, .out]
      fun s t => t.events.held = s.events.held.filter (fun r => decide (s.now < r.stamp + 384)) ∧ t.events.xing = s.events.xing ∧
          t.fld R.EV_WPTR F.EV_WPTR_WPTR =
            (s.fld R.EV_WPTR F.EV_WPTR_WPTR + (s.events.held.filter fun r => decide (r.stamp + 384 ≤ s.now)).length) % 2 ^ 32 ∧
          t.pair R.EV_COMP_LO = s.now - 384 := by
  rintro s ⟨-, -, htb⟩ hdue
  have hexec := exec_eventMergerRelease_eq hdue
  obtain ⟨htime, hheld, hxing, hw⟩ := State.foldl_writeRing (dueRecords s) s.withoutDue
  generalize (dueRecords s).foldl (fun t r => t.writeRing r) s.withoutDue = x at hexec htime hheld hxing hw
  have hnow : x.now = s.now := congrArg TimeState.tb htime
  have hnone : ∀ r ∈ x.events.held, x.now < r.stamp + mergerHorizon := by
    intro r hr
    rw [hheld] at hr
    rw [hnow]
    exact of_decide_eq_true (List.mem_filter.mp hr).2
  refine ⟨_, hexec, (execEventMergerRelease_keeps s _ hexec).frame, ?_⟩
  dsimp only
  rw [State.publishC_events, State.fld_congr (State.publishC_regsBut _ R.EV_WPTR (by decide)), ← (dueRecords_perm s).length_eq,
    State.publishC_stamp (hnow ▸ htb) hnone, hnow]
  exact ⟨hheld, hxing, (Nat.mod_eq_of_lt (State.wptr_lt _)).symm.trans hw, rfl⟩

/-! ## MSI-X vectors -/

/-- R258: an unmasked vector is not pending any more, and a pending one has been sent. -/
theorem State.setVector_unmasked (s : State) (fn : Fin 2) (v : Nat) (e : MsixEntry) (he : e.masked = false) :
    (s.setVector fn v e).msix[fn].entry v = e ∧ v ∉ (s.setVector fn v e).msix[fn].pending ∧
      (s.setVector fn v e).out = if v ∈ s.msix[fn].pending then .msix fn.val v :: s.out else s.out := by
  by_cases hv : v ∈ s.msix[fn.val].pending <;>
    simp [State.setVector, he, hv, MsixState.entry, storeGet_put_self]

theorem msixVectorUnmask_completes (fn : Fin 2) (vec : Fin 288) :
    Completes (.msixVectorUnmask fn vec) (fun _ => True) [.msix, .out]
      fun s t => (t.msix[fn].entry vec.val).masked = false ∧ vec.val ∉ t.msix[fn].pending ∧
          t.out = (if vec.val ∈ s.msix[fn].pending then .msix fn.val vec.val :: s.out else s.out) := by
  intro s _ _
  obtain ⟨hentry, hpending, hout⟩ := s.setVector_unmasked fn vec.val { s.msix[fn].entry vec.val with masked := false } rfl
  exact ⟨_, rfl, (execMsixVectorUnmask_keeps fn vec s _ rfl).frame, congrArg MsixEntry.masked hentry, hpending, hout⟩

/-- Settles O8: the PLL, the crossings, the merger and the vectors, one lemma each. -/
theorem timeBaseCommands : Obligations.TimeBaseCommands :=
  ⟨pllLock_completes, holdoverEntry_completes, holdoverEntry_gap_completes, pllRelock_back_completes, pllRelock_completes,
    eventsLostRecord_completes, eventMergerArrival_late_completes, eventMergerArrival_held_completes, eventMergerRelease_completes,
    msixVectorUnmask_completes⟩

end Sys2Proof.Machine
end

section
/-!
PROOFS. How a bobbin issues (R223, R227, R242): the state that an issued instruction finds, what it becomes when the instruction
ends or takes an exception, and the entries of the event queues. The layer that the instructions' own statements use.
-/

namespace Sys2Proof.Machine

/-! ## The rest of the sequencer -/

theorem Elsewhere.refl (b : Fin 24) (s : State) : Elsewhere b s s := ⟨fun _ _ => rfl, rfl, rfl, rfl, rfl⟩

theorem Elsewhere.trans {b : Fin 24} {s t u : State} (h : Elsewhere b s t) (k : Elsewhere b t u) : Elsewhere b s u := by
  obtain ⟨hbob, hshared, hprog, hbanks, hinject⟩ := h
  obtain ⟨kbob, kshared, kprog, kbanks, kinject⟩ := k
  exact ⟨fun c hc => (kbob c hc).trans (hbob c hc), kshared.trans hshared, kprog.trans hprog, kbanks.trans hbanks,
    kinject.trans hinject⟩

theorem Elsewhere.of_seq_eq {b : Fin 24} {s t : State} (h : t.seq = s.seq) : Elsewhere b s t := by
  unfold Elsewhere State.bob
  rw [h]
  exact ⟨fun _ _ => rfl, rfl, rfl, rfl, rfl⟩

theorem State.bob_congr {s t : State} (h : t.seq = s.seq) (b : Fin 24) : t.bob b = s.bob b :=
  congrArg (fun q : SeqState => q.bobbins[b]) h

theorem State.elsewhere_modBob (s : State) (b : Fin 24) (f : Bobbin → Bobbin) : Elsewhere b s (s.modBob b f) :=
  ⟨fun _ hc => s.bob_modBob_other f hc, rfl, rfl, rfl, rfl⟩

theorem State.stamp_congr {s t : State} (h : t.time = s.time) (i : Island) : t.stamp i = s.stamp i := by
  unfold State.stamp State.now
  rw [h]

/-! ## An instruction that has issued -/

theorem State.issued_bob_self (s : State) (b : Fin 24) (i : Ins) : (s.issued b i.next).bob b = (s.bob b).past i s.now := by
  unfold State.issued
  dsimp only
  split <;> exact State.bob_modBob_self ..

theorem State.issued_bob_other (s : State) {b c : Fin 24} (next : Nat) (h : c ≠ b) : (s.issued b next).bob c = s.bob c := by
  unfold State.issued
  dsimp only
  split <;> exact State.bob_modBob_other _ _ h

theorem State.issued_elsewhere (s : State) (b : Fin 24) (next : Nat) : Elsewhere b s (s.issued b next) := by
  refine ⟨fun c hc => s.issued_bob_other next hc, ?_⟩
  unfold State.issued
  dsimp only
  split <;> exact ⟨rfl, rfl, rfl, rfl⟩

theorem State.issued_regsBut (s : State) (b : Fin 24) (next : Nat) : RegsBut [R.SQ_BOB_ISSUED b.val] s (s.issued b next) := by
  unfold State.issued
  dsimp only
  split
  · exact RegsBut.refl _ s
  · exact s.regsBut_setFld _ _ _

/-- A register other than the count of issued instructions, as an issued instruction finds it. -/
theorem State.issued_reg (s : State) (b : Fin 24) (next : Nat) {k : Nat} (h : k ≠ R.SQ_BOB_ISSUED b.val) :
    (s.issued b next).reg k = s.reg k := s.issued_regsBut b next k (by simpa using h)

@[simp] theorem State.issued_time (s : State) (b : Fin 24) (next : Nat) : (s.issued b next).time = s.time :=
  (s.issued_keeps b next).frame .time (by decide)
@[simp] theorem State.issued_events (s : State) (b : Fin 24) (next : Nat) : (s.issued b next).events = s.events :=
  (s.issued_keeps b next).frame .events (by decide)
@[simp] theorem State.issued_heads (s : State) (b : Fin 24) (next : Nat) : (s.issued b next).heads = s.heads :=
  (s.issued_keeps b next).frame .heads (by decide)
@[simp] theorem State.issued_decode (s : State) (b : Fin 24) (next : Nat) : (s.issued b next).decode = s.decode :=
  (s.issued_keeps b next).frame .decode (by decide)
@[simp] theorem State.issued_loop (s : State) (b : Fin 24) (next : Nat) : (s.issued b next).loop = s.loop :=
  (s.issued_keeps b next).frame .loop (by decide)
@[simp] theorem State.issued_mem (s : State) (b : Fin 24) (next : Nat) : (s.issued b next).mem = s.mem :=
  (s.issued_keeps b next).frame .mem (by decide)
@[simp] theorem State.issued_motion (s : State) (b : Fin 24) (next : Nat) : (s.issued b next).motion = s.motion :=
  (s.issued_keeps b next).frame .motion (by decide)
@[simp] theorem State.issued_host (s : State) (b : Fin 24) (next : Nat) : (s.issued b next).host = s.host :=
  (s.issued_keeps b next).frame .host (by decide)
@[simp] theorem State.issued_out (s : State) (b : Fin 24) (next : Nat) : (s.issued b next).out = s.out :=
  (s.issued_keeps b next).frame .out (by decide)
@[simp] theorem State.issued_boot (s : State) (b : Fin 24) (next : Nat) : (s.issued b next).boot = s.boot :=
  (s.issued_keeps b next).frame .boot (by decide)
@[simp] theorem State.issued_now (s : State) (b : Fin 24) (next : Nat) : (s.issued b next).now = s.now :=
  congrArg TimeState.tb (s.issued_time b next)
@[simp] theorem State.issued_stamp (s : State) (b : Fin 24) (next : Nat) (i : Island) : (s.issued b next).stamp i = s.stamp i :=
  State.stamp_congr (s.issued_time b next) i

/-- Registers of a bobbin are what they were when it issued. -/
theorem State.g_issued (s : State) (b : Fin 24) (i : Ins) (k : Nat) : (s.issued b i.next).g b k = ((s.bob b).get k).toNat := by
  rw [State.g, s.issued_bob_self]
  rfl

theorem State.g_issued_ra (s : State) (b : Fin 24) (i : Ins) : (s.issued b i.next).g b i.ra = (valA s b i).toNat :=
  s.g_issued b i i.ra

/-- Only an opcode with a long form reads an extension word (R228). -/
theorem fetchIns_ext {s : State} {pc : Nat} {i : Ins} (h : fetchIns s pc = (i, true)) (hshort : hasLong i.op = false) :
    i.ext = none := by
  have hi : i = (fetchIns s pc).1 := by rw [h]
  subst hi
  by_cases hl : (decide (0x80 ≤ natBits (progWord s pc) 31 24) && decide (natBits (progWord s pc) 31 24 ≤ 0xBF) &&
      hasLong (natBits (progWord s pc) 31 24 - 0x80)) = true
  · exfalso
    simp only [fetchIns, hl, if_true] at hshort
    simp [hshort] at hl
  · simp only [fetchIns, if_neg hl]

theorem valB_short {s : State} {b : Fin 24} {i : Ins} (h : i.ext = none) : valB s b i = (s.bob b).get i.rb := by
  rw [valB, h]

theorem State.g_issued_rb {s : State} {b : Fin 24} {i : Ins} (h : i.ext = none) : (s.issued b i.next).g b i.rb = (valB s b i).toNat := by
  rw [s.g_issued, valB_short h]

/-! ## The two ends of an instruction -/

section Issue

variable {s : State} {b : Fin 24} {u : Upset} {i : Ins} {k : Nat} {f : Ins → State → Effect}
  {c : Instr} (h : Issues s b u i) (hop : i.op = k)

include h hop

theorem State.issue_ok {t : State} (hf : f i (s.issued b i.next) = .ok t) : s.issue b u (isOp k) f = .next t := by
  obtain ⟨hcan, hfetch, hlegal, hguard, hupset⟩ := h
  simp [State.issue, hcan, hfetch, hupset, isOp, hop, hguard, hlegal, hf]

theorem State.issue_error {e : Nat} (hf : f i (s.issued b i.next) = .error e) :
    s.issue b u (isOp k) f = .next ((s.issued b i.next).takeException b e i.pc (if e = 9 then i.imm else i.word)) := by
  obtain ⟨hcan, hfetch, hlegal, hguard, hupset⟩ := h
  simp [State.issue, hcan, hfetch, hupset, isOp, hop, hguard, hlegal, hf]

/-- A command that issues words of the bobbin's opcode, where the instruction has its effect. -/
theorem exec_ok_of_issues {t : State} (hc : exec c s = s.issue b u (isOp k) f) (hf : f i (s.issued b i.next) = .ok t) :
    exec c s = .next t := hc.trans (State.issue_ok h hop hf)

/-- And where it takes an exception other than a trap. -/
theorem exec_excepts_of_issues {e : Nat} (he : e ≠ 9) (hc : exec c s = s.issue b u (isOp k) f)
    (hf : f i (s.issued b i.next) = .error e) : exec c s = .next ((s.issued b i.next).takeException b e i.pc i.word) := by
  rw [hc, State.issue_error h hop hf, if_neg he]

end Issue

/-! ## What a bobbin becomes -/

theorem State.issued_becomes (s : State) (b : Fin 24) (i : Ins) : Becomes b ((s.bob b).past i s.now) s (s.issued b i.next) :=
  ⟨s.issued_bob_self b i, s.issued_elsewhere b i.next, s.issued_regsBut b i.next⟩

theorem Becomes.modBob {b : Fin 24} {x : Bobbin} {s t : State} (h : Becomes b x s t) (f : Bobbin → Bobbin) :
    Becomes b (f x) s (t.modBob b f) := by
  obtain ⟨hbob, helse, hregs⟩ := h
  exact ⟨by rw [State.bob_modBob_self, hbob], helse.trans (t.elsewhere_modBob b f), hregs⟩

theorem Becomes.setG {b : Fin 24} {x : Bobbin} {s t : State} (h : Becomes b x s t) (r v : Nat) :
    Becomes b (x.put r (BitVec.ofNat 64 v)) s (t.setG b r v) := h.modBob _

theorem Becomes.setP {b : Fin 24} {x : Bobbin} {s t : State} (h : Becomes b x s t) (r : Nat) (v : Bool) :
    Becomes b (x.putPred r v) s (t.setP b r v) := h.modBob _

/-! ## Exceptions (R242) -/

/-- The bobbin stopped at an exception. -/
def Bobbin.excepted (x : Bobbin) (pc : Nat) : Bobbin :=
  { x with st := .exception, pc := pc, stall := none, wait := none, haltReq := none }

/-- SQ_BOB_EXC and the stamp pair beside it written. -/
def State.recordException (s : State) (b : Fin 24) (code pc : Nat) : State :=
  let s := (s.setFld (R.SQ_BOB_EXC b.val) F.SQ_BOB_EXC_CODE code).setFld (R.SQ_BOB_EXC b.val) F.SQ_BOB_EXC_PC pc
  s.setPair (R.SQ_BOB_EXC_LO b.val) (s.stamp .control)

theorem State.takeException_eq (s : State) (b : Fin 24) (code pc last : Nat) :
    s.takeException b code pc last =
      ((s.modBob b fun x => x.excepted pc).recordException b code pc).logSeq 0x6001 b.val code pc last := rfl

theorem sqBobExcHi_eq (b : Fin 24) : R.SQ_BOB_EXC_HI b.val = R.SQ_BOB_EXC_LO b.val + 4 := Nat.add_right_comm 0x081018 4 _

theorem State.recordException_regsBut (s : State) (b : Fin 24) (code pc : Nat) :
    RegsBut [R.SQ_BOB_EXC b.val, R.SQ_BOB_EXC_LO b.val, R.SQ_BOB_EXC_HI b.val] s (s.recordException b code pc) := by
  rw [sqBobExcHi_eq]
  exact (((s.regsBut_setFld _ _ _).trans (State.regsBut_setFld _ _ _ _)).mono (by simp)).trans
    ((State.regsBut_setPair _ _ _).mono (by simp))

/-- The pair does not reach back into SQ_BOB_EXC. -/
theorem State.recordException_reg (s : State) (b : Fin 24) (code pc : Nat) :
    (s.recordException b code pc).reg (R.SQ_BOB_EXC b.val) =
      ((s.setFld (R.SQ_BOB_EXC b.val) F.SQ_BOB_EXC_CODE code).setFld (R.SQ_BOB_EXC b.val) F.SQ_BOB_EXC_PC pc).reg
        (R.SQ_BOB_EXC b.val) := by
  have hne : R.SQ_BOB_EXC b.val ≠ R.SQ_BOB_EXC_LO b.val ∧ R.SQ_BOB_EXC b.val ≠ R.SQ_BOB_EXC_LO b.val + 4 := by
    unfold R.SQ_BOB_EXC R.SQ_BOB_EXC_LO
    omega
  exact State.regsBut_setPair _ _ _ _ (by simpa using hne)

theorem State.recordException_code (s : State) (b : Fin 24) (code pc : Nat) :
    (s.recordException b code pc).fld (R.SQ_BOB_EXC b.val) F.SQ_BOB_EXC_CODE = code % 256 := by
  rw [State.fld, State.recordException_reg, ← State.fld,
    State.fld_setFld_other _ _ _ _ _ (by decide) (by decide) (by decide) (by decide),
    State.fld_setFld_self _ _ _ _ (by decide) (by decide)]
  rfl

theorem State.recordException_pc (s : State) (b : Fin 24) (code pc : Nat) :
    (s.recordException b code pc).fld (R.SQ_BOB_EXC b.val) F.SQ_BOB_EXC_PC = pc % 65536 := by
  rw [State.fld, State.recordException_reg, ← State.fld, State.fld_setFld_self _ _ _ _ (by decide) (by decide)]
  rfl

@[simp] theorem State.recordException_time (s : State) (b : Fin 24) (code pc : Nat) : (s.recordException b code pc).time = s.time := by
  simp only [State.recordException, State.setPair_time, State.setFld_time]
@[simp] theorem State.recordException_events (s : State) (b : Fin 24) (code pc : Nat) :
    (s.recordException b code pc).events = s.events := by
  simp only [State.recordException, State.setPair_events, State.setFld_events]
@[simp] theorem State.recordException_seq (s : State) (b : Fin 24) (code pc : Nat) : (s.recordException b code pc).seq = s.seq := by
  simp only [State.recordException, State.setPair_seq, State.setFld_seq]

@[simp] theorem State.logSeq_reg (s : State) (code a0 a1 a2 a3 k : Nat) : (s.logSeq code a0 a1 a2 a3).reg k = s.reg k :=
  State.log_reg ..

@[simp] theorem State.logSeq_seq (s : State) (code a0 a1 a2 a3 : Nat) : (s.logSeq code a0 a1 a2 a3).seq = s.seq :=
  State.log_seq ..

theorem State.logSeq_events_congr {s t : State} (he : t.events = s.events) (ht : t.time = s.time) (code a0 a1 a2 a3 : Nat) :
    (t.logSeq code a0 a1 a2 a3).events = (s.logSeq code a0 a1 a2 a3).events := by
  unfold State.logSeq State.log
  rw [State.logAt_events_congr he, State.stamp_congr ht]

/-- An issued instruction that takes an exception. -/
theorem State.takeException_excepts (s : State) (b : Fin 24) (i : Ins) (code last : Nat) (hcode : code < 256) :
    Excepts b i code last s ((s.issued b i.next).takeException b code i.pc last) := by
  rw [State.takeException_eq]
  refine ⟨?_, ?_, ?_, ?_, ?_, ?_⟩
  · rw [State.bob_congr (State.logSeq_seq ..), State.bob_congr (State.recordException_seq ..), State.bob_modBob_self, s.issued_bob_self]
    rfl
  · exact ((s.issued_elsewhere b i.next).trans (State.elsewhere_modBob _ b fun x => x.excepted i.pc)).trans (Elsewhere.of_seq_eq (by simp))
  · rw [State.fld_congr (State.logSeq_reg ..), State.recordException_code, Nat.mod_eq_of_lt hcode]
  · rw [State.fld_congr (State.logSeq_reg ..), State.recordException_pc]
  · refine ((s.issued_regsBut b i.next).mono (by simp)).trans fun k hk => ?_
    rw [State.logSeq_reg]
    exact State.recordException_regsBut _ b code i.pc k fun hm => hk (List.mem_cons_of_mem _ hm)
  · exact State.logSeq_events_congr (by simp) (by simp) ..

end Sys2Proof.Machine
end

section
/-!
PROOFS. Signals, time, waits and polls, and the event queues (R28 to R31, R229 to R231, R241): what each leaves of the bobbins.
Settles O38 and O39.
-/

namespace Sys2Proof.Machine

/-- A command whose rule says which parts it may change completes once its effect is known. -/
theorem Completes.of_keeps {c : Instr} {pre : State → Prop} {parts : List Part} {post : State → State → Prop}
    (hk : ∀ s, KeepsR parts s (exec c s)) (h : ∀ s, Sound s → pre s → ∃ t, exec c s = .next t ∧ post s t) :
    Completes c pre parts post := by
  intro s hs hp
  obtain ⟨t, he, ht⟩ := h s hs hp
  exact ⟨t, he, (hk s t he).frame, ht⟩

theorem State.bob_modBob (s : State) (b c : Fin 24) (f : Bobbin → Bobbin) :
    (s.modBob b f).bob c = if c = b then f (s.bob b) else s.bob c := by
  split
  · subst c
    exact s.bob_modBob_self b f
  · exact s.bob_modBob_other f ‹_›

theorem State.issued_bob (s : State) (b c : Fin 24) (i : Ins) :
    (s.issued b i.next).bob c = if c = b then (s.bob b).past i s.now else s.bob c := by
  split
  · subst c
    exact s.issued_bob_self b i
  · exact s.issued_bob_other i.next ‹_›

theorem Bobbin.putPred_withArriving (x : Bobbin) (r : Nat) (v : Bool) (l : List EvEntry) :
    ({ x with arriving := l }).putPred r v = { x.putPred r v with arriving := l } := by
  unfold Bobbin.putPred
  split <;> rfl

/-! ## SIGNAL (R231) -/

/-- The entry that a signal of bobbin b posts. -/
def signalEntry (s : State) (b k : Fin 24) (i : Ins) : EvEntry :=
  ⟨s.stamp .control, 0x8000 + b.val, .doorbell, 0, (valB s b i).toNat % 2 ^ 32, srcBobbin b.val, (s.bob k).epoch, false⟩

/-- What a signal finds of its target is what stood there before the issue, but for a target that is the bobbin itself. -/
theorem State.issued_target (s : State) (b k : Fin 24) (i : Ins) :
    ((s.issued b i.next).bob k).epoch = (s.bob k).epoch ∧ ((s.issued b i.next).bob k).occupied = (s.bob k).occupied ∧
      ((s.issued b i.next).bob k).st = if k = b then .ready else (s.bob k).st := by
  rw [State.issued_bob]
  split
  · subst k
    exact ⟨rfl, rfl, rfl⟩
  · exact ⟨rfl, rfl, rfl⟩

theorem signal_posts (b : Fin 24) (u : Upset) (i : Ins) (k : Fin 24) :
    Completes (.signal b u)
      (fun s => Issues s b u i ∧ i.op = 0x35 ∧ (valA s b i).toNat % 32 = k.val ∧ (s.bob k).st ≠ .halted ∧ (s.bob k).st ≠ .exception ∧
          (s.bob k).occupied < 32)
      [.events, .regs, .seq]
      fun s t => (∀ c : Fin 24, t.bob c = { (if c = b then ((s.bob b).past i s.now).putPred i.rd true else s.bob c) with
            arriving := if c = k then (s.bob c).arriving ++ [⟨s.stamp .control, 0x8000 + b.val, .doorbell, 0, (valB s b i).toNat % 2 ^ 32,
              srcBobbin b.val, (s.bob k).epoch, false⟩] else (s.bob c).arriving }) ∧
          t.seq.shared = s.seq.shared ∧ t.seq.prog = s.seq.prog ∧ RegsBut [R.SQ_BOB_ISSUED b.val] s t := by
  refine Completes.of_keeps (execSignal_keeps b u) ?_
  rintro s - ⟨hi, hop, hk, hhalt, hexc, hroom⟩
  have hext : i.ext = none := fetchIns_ext hi.2.1 (by rw [hop]; rfl)
  obtain ⟨hepoch, hocc, hst⟩ := s.issued_target b k i
  have hst' : ((s.issued b i.next).bob k).st ≠ .halted ∧ ((s.issued b i.next).bob k).st ≠ .exception := by
    rw [hst]
    split
    · decide
    · exact ⟨hhalt, hexc⟩
  refine ⟨((s.issued b i.next).sendEntry k (signalEntry s b k i)).setP b i.rd true, exec_ok_of_issues hi hop (.refl (execSignal b u s)) ?_, fun c => ?_, ?_⟩
  · simp [s.g_issued_ra, State.g_issued_rb hext, hk, hst', hocc, Nat.not_le.mpr hroom, hepoch, signalEntry]
  · simp only [State.setP, State.sendEntry, State.bob_modBob, State.issued_bob, signalEntry]
    by_cases hcb : c = b
    · subst c
      by_cases hbk : b = k
      · subst hbk
        simp only [if_true, Bobbin.putPred_withArriving]
        rfl
      · simp only [if_true, if_neg hbk]
        exact Bobbin.putPred_withArriving ((s.bob b).past i s.now) _ _ (s.bob b).arriving
    · by_cases hck : c = k
      · subst c
        simp only [if_neg hcb, if_true]
      · simp only [if_neg hcb, if_neg hck]
  · obtain ⟨-, hshared, hprog, -, -⟩ := s.issued_elsewhere b i.next
    exact ⟨hshared, hprog, s.issued_regsBut b i.next⟩

theorem signal_refused (b : Fin 24) (u : Upset) (i : Ins) (k : Fin 24) :
    Completes (.signal b u)
      (fun s => Issues s b u i ∧ i.op = 0x35 ∧ (valA s b i).toNat % 32 = k.val ∧ k ≠ b ∧
          ((s.bob k).st = .halted ∨ (s.bob k).st = .exception ∨ 32 ≤ (s.bob k).occupied))
      [.events, .regs, .seq] fun s t => WritesPd b i false s t := by
  refine Completes.of_keeps (execSignal_keeps b u) ?_
  rintro s - ⟨hi, hop, hk, hkb, hfull⟩
  refine ⟨(s.issued b i.next).setP b i.rd false, exec_ok_of_issues hi hop (.refl (execSignal b u s)) ?_, (s.issued_becomes b i).setP _ _⟩
  simp [s.g_issued_ra, hk, State.issued_bob, hkb, hfull]

theorem signal_nobody (b : Fin 24) (u : Upset) (i : Ins) :
    Completes (.signal b u)
      (fun s => Issues s b u i ∧ i.op = 0x35 ∧ 24 ≤ (valA s b i).toNat % 32)
      [.events, .regs, .seq] fun s t => Excepts b i 6 i.word s t := by
  refine Completes.of_keeps (execSignal_keeps b u) ?_
  rintro s - ⟨hi, hop, hnone⟩
  exact ⟨_, exec_excepts_of_issues (e := 6) hi hop (by decide) (.refl (execSignal b u s)) (by simp [s.g_issued_ra, hnone]), s.takeException_excepts b i 6 _ (by decide)⟩

/-! ## Time (R230) -/

theorem tbNow_completes (b : Fin 24) (u : Upset) (i : Ins) :
    Completes (.tbNow b u) (fun s => Issues s b u i ∧ i.op = 0x40) [.events, .regs, .seq]
      fun s t => WritesRd b i (BitVec.ofNat 64 (s.stamp .control)) s t := by
  refine Completes.of_keeps (execTbNow_keeps b u) ?_
  rintro s - ⟨hi, hop⟩
  exact ⟨_, exec_ok_of_issues hi hop (.refl (execTbNow b u s)) (by rw [State.issued_stamp]), (s.issued_becomes b i).setG _ _⟩

theorem tbLast_completes (b : Fin 24) (u : Upset) (i : Ins) :
    Completes (.tbLast b u) (fun s => Issues s b u i ∧ i.op = 0x41) [.events, .regs, .seq]
      fun s t => WritesRd b i (BitVec.ofNat 64 (s.bob b).lastStamp) s t := by
  refine Completes.of_keeps (execTbLast_keeps b u) ?_
  rintro s - ⟨hi, hop⟩
  exact ⟨_, exec_ok_of_issues hi hop (.refl (execTbLast b u s)) (by rw [State.issued_bob_self]; rfl), (s.issued_becomes b i).setG _ _⟩

/-! ## Waits and polls (R230) -/

/-- An entry that a wait or a poll returns leaves the queue, with its value and predicate set. -/
theorem Becomes.deliver {b : Fin 24} {x : Bobbin} {s t : State} (h : Becomes b x s t) (e : EvEntry) (rd p : Nat) :
    Becomes b ((({ x with queue := x.queue.erase e, lastStamp := e.stamp }).put rd (BitVec.ofNat 64 e.value)).putPred p true) s
      (t.deliver b e rd p) :=
  ((h.modBob fun x => { x with queue := x.queue.erase e, lastStamp := e.stamp }).setG rd e.value).setP p true

/-- The entry that a wait or a poll finds is chosen among those that stood in the queue at the issue. -/
theorem State.issued_best {s : State} {b : Fin 24} {i : Ins} (hext : i.ext = none) :
    ((s.issued b i.next).bob b).best ((s.issued b i.next).g b i.rb) ((s.issued b i.next).g b i.ra) =
      (s.bob b).best (valB s b i).toNat (valA s b i).toNat := by
  rw [s.issued_bob_self, State.g_issued_rb hext, s.g_issued_ra]
  rfl

theorem waitEv_returns (b : Fin 24) (u : Upset) (i : Ins) (e : EvEntry) :
    Completes (.waitEv b u)
      (fun s => Issues s b u i ∧ i.op = 0x42 ∧ (s.bob b).best (valB s b i).toNat (valA s b i).toNat = some e)
      [.events, .regs, .seq]
      fun s t => Becomes b ((({ (s.bob b).past i s.now with queue := (s.bob b).queue.erase e, lastStamp := e.stamp }).put i.rd
            (BitVec.ofNat 64 (e.tag * 2 ^ 48 + kindCode e.kind * 2 ^ 40 + e.result * 2 ^ 32 + e.data))).putPred i.fn true) s t := by
  refine Completes.of_keeps (execWaitEv_keeps b u) ?_
  rintro s - ⟨hi, hop, hbest⟩
  have hext : i.ext = none := fetchIns_ext hi.2.1 (by rw [hop]; rfl)
  refine ⟨_, exec_ok_of_issues (t := (s.issued b i.next).deliver b e i.rd i.fn) hi hop (.refl (execWaitEv b u s)) ?_,
    (s.issued_becomes b i).deliver e _ _⟩
  dsimp only
  rw [State.issued_best hext, hbest]

theorem waitEv_waits (b : Fin 24) (u : Upset) (i : Ins) :
    Completes (.waitEv b u)
      (fun s => Issues s b u i ∧ i.op = 0x42 ∧ (s.bob b).best (valB s b i).toNat (valA s b i).toNat = none)
      [.events, .regs, .seq]
      fun s t => Becomes b { (s.bob b).past i s.now with
        st := .waiting, wait := some (.event (valB s b i).toNat (valA s b i).toNat i.rd i.fn), pc := i.pc } s t := by
  refine Completes.of_keeps (execWaitEv_keeps b u) ?_
  rintro s - ⟨hi, hop, hbest⟩
  have hext : i.ext = none := fetchIns_ext hi.2.1 (by rw [hop]; rfl)
  refine ⟨_, exec_ok_of_issues (t := (s.issued b i.next).modBob b fun x => { x with
    st := .waiting, wait := some (.event (valB s b i).toNat (valA s b i).toNat i.rd i.fn), pc := i.pc }) hi hop (.refl (execWaitEv b u s)) ?_,
    (s.issued_becomes b i).modBob _⟩
  dsimp only
  rw [State.issued_best hext, hbest, State.g_issued_rb hext, s.g_issued_ra]

theorem waitUntil_passes (b : Fin 24) (u : Upset) (i : Ins) :
    Completes (.waitUntil b u)
      (fun s => Issues s b u i ∧ i.op = 0x43 ∧ (valA s b i).toNat ≤ s.now)
      [.events, .regs, .seq] fun s t => Becomes b ((s.bob b).past i s.now) s t := by
  refine Completes.of_keeps (execWaitUntil_keeps b u) ?_
  rintro s - ⟨hi, hop, hdue⟩
  refine ⟨_, exec_ok_of_issues (t := s.issued b i.next) hi hop (.refl (execWaitUntil b u s)) ?_, s.issued_becomes b i⟩
  rw [s.g_issued_ra, State.issued_now, if_pos hdue]

theorem waitUntil_waits (b : Fin 24) (u : Upset) (i : Ins) :
    Completes (.waitUntil b u)
      (fun s => Issues s b u i ∧ i.op = 0x43 ∧ s.now < (valA s b i).toNat)
      [.events, .regs, .seq]
      fun s t => Becomes b { (s.bob b).past i s.now with
        st := .waiting, wait := some (.until_ (valA s b i).toNat), pc := i.pc } s t := by
  refine Completes.of_keeps (execWaitUntil_keeps b u) ?_
  rintro s - ⟨hi, hop, hearly⟩
  refine ⟨_, exec_ok_of_issues (t := (s.issued b i.next).modBob b fun x => { x with
    st := .waiting, wait := some (.until_ (valA s b i).toNat), pc := i.pc }) hi hop (.refl (execWaitUntil b u s)) ?_, (s.issued_becomes b i).modBob _⟩
  rw [s.g_issued_ra, State.issued_now, if_neg (Nat.not_le.mpr hearly)]

theorem poll_returns (b : Fin 24) (u : Upset) (i : Ins) (e : EvEntry) :
    Completes (.poll b u)
      (fun s => Issues s b u i ∧ i.op = 0x44 ∧ (s.bob b).best (valB s b i).toNat (valA s b i).toNat = some e)
      [.events, .regs, .seq]
      fun s t => Becomes b ((({ (s.bob b).past i s.now with queue := (s.bob b).queue.erase e, lastStamp := e.stamp }).put i.rd
            (BitVec.ofNat 64 (e.tag * 2 ^ 48 + kindCode e.kind * 2 ^ 40 + e.result * 2 ^ 32 + e.data))).putPred i.fn true) s t := by
  refine Completes.of_keeps (execPoll_keeps b u) ?_
  rintro s - ⟨hi, hop, hbest⟩
  have hext : i.ext = none := fetchIns_ext hi.2.1 (by rw [hop]; rfl)
  refine ⟨_, exec_ok_of_issues (t := (s.issued b i.next).deliver b e i.rd i.fn) hi hop (.refl (execPoll b u s)) ?_,
    (s.issued_becomes b i).deliver e _ _⟩
  rw [State.issued_best hext, hbest]

theorem poll_finds_none (b : Fin 24) (u : Upset) (i : Ins) :
    Completes (.poll b u)
      (fun s => Issues s b u i ∧ i.op = 0x44 ∧ (s.bob b).best (valB s b i).toNat (valA s b i).toNat = none)
      [.events, .regs, .seq]
      fun s t => Becomes b ((((s.bob b).past i s.now).put i.rd 0).putPred i.fn false) s t := by
  refine Completes.of_keeps (execPoll_keeps b u) ?_
  rintro s - ⟨hi, hop, hbest⟩
  have hext : i.ext = none := fetchIns_ext hi.2.1 (by rw [hop]; rfl)
  refine ⟨_, exec_ok_of_issues (t := ((s.issued b i.next).setG b i.rd 0).setP b i.fn false) hi hop (.refl (execPoll b u s)) ?_,
    ((s.issued_becomes b i).setG _ _).setP _ _⟩
  rw [State.issued_best hext, hbest]

/-- Settles O38: signals, time, waits and polls, one lemma per outcome. -/
theorem signalsAndTime : Obligations.SignalsAndTime :=
  ⟨signal_posts, signal_refused, signal_nobody, tbNow_completes, tbLast_completes, waitEv_returns, waitEv_waits, waitUntil_passes,
    waitUntil_waits, poll_returns, poll_finds_none⟩

/-! ## The event queues (R229, R241) -/

theorem foldl_sooner_mem (l : List EvEntry) (m : EvEntry) :
    l.foldl (fun m y => if y.sooner m then y else m) m ∈ m :: l := by
  induction l generalizing m with
  | nil => exact List.mem_singleton.mpr rfl
  | cons y l ih =>
    have h := ih (if y.sooner m then y else m)
    rw [List.foldl_cons]
    split at h <;> grind

theorem firstEntry_mem {l : List EvEntry} {e : EvEntry} (h : firstEntry l = some e) : e ∈ l := by
  cases l with
  | nil => cases h
  | cons x l =>
    obtain rfl : _ = e := Option.some.inj h
    exact foldl_sooner_mem l x

/-- The entry that is due is in the queue, not yet released, and 96 ticks past its stamp. -/
theorem Bobbin.dueEntry_spec {x : Bobbin} {now : Stamp} {e : EvEntry} (h : x.dueEntry now = some e) :
    e ∈ x.queue ∧ e.released = false ∧ e.stamp + 96 ≤ now := by
  obtain ⟨hmem, hdue⟩ := List.mem_filter.mp (firstEntry_mem h)
  simp only [Bool.and_eq_true, Bool.not_eq_true', decide_eq_true_eq] at hdue
  exact ⟨hmem, hdue.1, hdue.2⟩

/-- A completion's kinds, as the model tests them. -/
theorem own_iff (e : EvEntry) : (e.kind == .device || e.kind == .decode) = true ↔ e.kind = .device ∨ e.kind = .decode := by
  simp

theorem eventQueueEntry_joins (bobbin : Fin 24) (e : EvEntry) (rest : List EvEntry) :
    Completes (.eventQueueEntry bobbin)
      (fun s => (s.bob bobbin).arriving = e :: rest ∧ ((e.kind = .device ∨ e.kind = .decode) → e.epoch = (s.bob bobbin).epoch))
      [.regs, .seq]
      fun s t => t.bob bobbin = { s.bob bobbin with
            arriving := rest, queue := (s.bob bobbin).queue ++ [e]
            outst := if e.kind = .device ∨ e.kind = .decode then (s.bob bobbin).outst.erase e.tag else (s.bob bobbin).outst } ∧
          Elsewhere bobbin s t ∧ t.regs = s.regs := by
  refine Completes.of_keeps (execEventQueueEntry_keeps bobbin) ?_
  rintro s - ⟨harr, hepoch⟩
  show ∃ t, execEventQueueEntry bobbin s = .next t ∧ _
  unfold execEventQueueEntry
  rw [harr]
  dsimp only
  rw [if_neg (by rw [own_iff, State.bob_modBob_self]; exact fun ⟨hown, hne⟩ => hne (hepoch hown))]
  refine ⟨_, rfl, ?_⟩
  by_cases hown : e.kind = .device ∨ e.kind = .decode
  · rw [if_pos ((own_iff e).mpr hown), if_pos hown]
    refine ⟨by simp only [State.bob_modBob_self], ?_, rfl⟩
    exact ((s.elsewhere_modBob _ _).trans (State.elsewhere_modBob _ _ _)).trans (State.elsewhere_modBob _ _ _)
  · rw [if_neg (mt (own_iff e).mp hown), if_neg hown]
    exact ⟨by simp only [State.bob_modBob_self], (s.elsewhere_modBob _ _).trans (State.elsewhere_modBob _ _ _), rfl⟩

theorem eventQueueEntry_stale (bobbin : Fin 24) (e : EvEntry) (rest : List EvEntry) :
    Completes (.eventQueueEntry bobbin)
      (fun s => (s.bob bobbin).arriving = e :: rest ∧ (e.kind = .device ∨ e.kind = .decode) ∧ e.epoch ≠ (s.bob bobbin).epoch)
      [.regs, .seq]
      fun s t => t.bob bobbin = { s.bob bobbin with arriving := rest } ∧ Elsewhere bobbin s t ∧
          t.fld (R.SQ_BOB_STATUS bobbin.val) F.SQ_BOB_STATUS_STALE = min 255 (s.fld (R.SQ_BOB_STATUS bobbin.val) F.SQ_BOB_STATUS_STALE + 1) ∧
          RegsBut [R.SQ_BOB_STATUS bobbin.val] s t := by
  refine Completes.of_keeps (execEventQueueEntry_keeps bobbin) ?_
  rintro s - ⟨harr, hown, hepoch⟩
  show ∃ t, execEventQueueEntry bobbin s = .next t ∧ _
  unfold execEventQueueEntry
  rw [harr]
  dsimp only
  rw [if_pos ⟨(own_iff e).mpr hown, by rw [State.bob_modBob_self]; exact hepoch⟩]
  refine ⟨_, rfl, ?_, (s.elsewhere_modBob _ _).trans (Elsewhere.of_seq_eq (State.bump_seq ..)), ?_, State.regsBut_setFld _ _ _ _⟩
  · rw [State.bob_congr (State.bump_seq ..), State.bob_modBob_self]
  · rw [State.bump, State.fld_setFld_self _ _ _ _ (by decide) (by decide)]
    exact Nat.mod_eq_of_lt (Nat.lt_of_le_of_lt (Nat.min_le_left ..) (by decide))

theorem eventQueueRelease_completes (bobbin : Fin 24) (e : EvEntry) :
    Completes (.eventQueueRelease bobbin)
      (fun s => (s.bob bobbin).dueEntry s.now = some e ∧ (s.bob bobbin).wait = none)
      [.seq]
      fun s t => t.bob bobbin = { s.bob bobbin with queue := (s.bob bobbin).queue.map fun y => if y = e then { y with released := true } else y } ∧
          e ∈ (s.bob bobbin).queue ∧ e.released = false ∧ e.stamp + 96 ≤ s.now ∧ Elsewhere bobbin s t ∧ t.regs = s.regs := by
  refine Completes.of_keeps (execEventQueueRelease_keeps bobbin) ?_
  rintro s - ⟨hdue, hwait⟩
  obtain ⟨hmem, hrel, hstamp⟩ := Bobbin.dueEntry_spec hdue
  have hexec : exec (.eventQueueRelease bobbin) s = .next (s.modBob bobbin fun x => { x with
      queue := x.queue.map fun y => if y = e then { y with released := true } else y }) := by
    show execEventQueueRelease bobbin s = _
    unfold execEventQueueRelease
    rw [hdue]
    dsimp only
    rw [State.bob_modBob_self]
    dsimp only
    rw [hwait]
  exact ⟨_, hexec, State.bob_modBob_self .., hmem, hrel, hstamp, s.elsewhere_modBob _ _, rfl⟩

/-- The instruction at a PC is read from program memory alone. -/
theorem fetchIns_congr {s t : State} (h : t.seq.prog = s.seq.prog) (pc : Nat) : fetchIns t pc = fetchIns s pc := by
  unfold fetchIns progWord
  rw [h]

/-- The end of a wait leaves the bobbin READY past the wait. -/
theorem State.endWait_bob (s : State) (b : Fin 24) :
    (s.endWait b).bob b = { s.bob b with
      st := .ready, wait := none, pc := (fetchIns s (s.bob b).pc).1.next, nextIssue := max (s.bob b).nextIssue s.now } :=
  s.bob_modBob_self b _

@[simp] theorem Bobbin.putPred_pc (x : Bobbin) (r : Nat) (v : Bool) : (x.putPred r v).pc = x.pc := by
  unfold Bobbin.putPred
  split <;> rfl
@[simp] theorem Bobbin.put_pc (x : Bobbin) (r : Nat) (v : DWord) : (x.put r v).pc = x.pc := by
  unfold Bobbin.put
  split <;> rfl
@[simp] theorem Bobbin.putPred_nextIssue (x : Bobbin) (r : Nat) (v : Bool) : (x.putPred r v).nextIssue = x.nextIssue := by
  unfold Bobbin.putPred
  split <;> rfl
@[simp] theorem Bobbin.put_nextIssue (x : Bobbin) (r : Nat) (v : DWord) : (x.put r v).nextIssue = x.nextIssue := by
  unfold Bobbin.put
  split <;> rfl

theorem waitTimeout_completes (bobbin : Fin 24) (m d rd p : Nat) :
    Completes (.waitTimeout bobbin)
      (fun s => (s.bob bobbin).wait = some (.event m d rd p) ∧ d ≠ 2 ^ 64 - 1 ∧ d + 96 ≤ s.now ∧ (s.bob bobbin).dueEntry s.now = none)
      [.seq]
      fun s t => t.bob bobbin = { ((s.bob bobbin).put rd 0).putPred p false with
            st := .ready, wait := none, pc := (fetchIns s (s.bob bobbin).pc).1.next, nextIssue := max (s.bob bobbin).nextIssue s.now } ∧
          Elsewhere bobbin s t := by
  refine Completes.of_keeps (execWaitTimeout_keeps bobbin) ?_
  rintro s - ⟨hwait, hd, hlate, hnone⟩
  have hexec : exec (.waitTimeout bobbin) s = .next (((s.setG bobbin rd 0).setP bobbin p false).endWait bobbin) := by
    show execWaitTimeout bobbin s = _
    unfold execWaitTimeout
    rw [hwait]
    exact when_of_true (by simpa [noDeadline, queueHorizon, hlate, hnone] using hd) _ _
  have hbob : ((s.setG bobbin rd 0).setP bobbin p false).bob bobbin = ((s.bob bobbin).put rd 0).putPred p false := by
    simp only [State.setP, State.setG, State.bob_modBob_self]
    rfl
  refine ⟨_, hexec, ?_, ?_⟩
  · rw [State.endWait_bob, hbob, fetchIns_congr (s := s) rfl, Bobbin.putPred_pc, Bobbin.put_pc, Bobbin.putPred_nextIssue,
      Bobbin.put_nextIssue]
    rfl
  · exact ((s.elsewhere_modBob _ _).trans (State.elsewhere_modBob _ _ _)).trans (State.elsewhere_modBob _ _ _)

theorem waitUntilReached_completes (bobbin : Fin 24) (g : Nat) :
    Completes (.waitUntilReached bobbin)
      (fun s => (s.bob bobbin).wait = some (.until_ g) ∧ g ≤ s.now)
      [.seq]
      fun s t => t.bob bobbin = { s.bob bobbin with
            st := .ready, wait := none, pc := (fetchIns s (s.bob bobbin).pc).1.next, nextIssue := max (s.bob bobbin).nextIssue s.now } ∧
          Elsewhere bobbin s t := by
  refine Completes.of_keeps (execWaitUntilReached_keeps bobbin) ?_
  rintro s - ⟨hwait, hg⟩
  have hexec : exec (.waitUntilReached bobbin) s = .next (s.endWait bobbin) := by
    show execWaitUntilReached bobbin s = _
    unfold execWaitUntilReached
    rw [hwait]
    exact when_of_true (decide_eq_true hg) _ _
  exact ⟨_, hexec, s.endWait_bob bobbin, s.elsewhere_modBob _ _⟩

/-- Settles O39: arrivals, releases and the ends of waits, one lemma per outcome. -/
theorem eventQueues : Obligations.EventQueues :=
  ⟨eventQueueEntry_joins, eventQueueEntry_stale, eventQueueRelease_completes, waitTimeout_completes, waitUntilReached_completes⟩

end Sys2Proof.Machine
end

section
/-!
PROOFS. The control store (R245 to R255) and distribution errors (R23): what a machine check records and leaves, patches and
their banks, and the island that takes its fourth bad sample. Settles O20.
-/

namespace Sys2Proof.Machine

/-! ## Folds over registers and the sequencer -/

theorem RegsBut.foldl {α : Type} {ks : List Nat} {f : State → α → State} (l : List α) (h : ∀ x e, RegsBut ks x (f x e)) (s : State) :
    RegsBut ks s (l.foldl f s) := by
  induction l generalizing s with
  | nil => exact RegsBut.refl _ _
  | cons e l ih => exact (h s e).trans (ih _)

/-- What of the sequencer a halt request does not reach. -/
theorem State.requestHaltAll_inject (s : State) : s.requestHaltAll.seq.inject = s.seq.inject := by
  have h : ∀ (l : List (Fin 24)) (t : State), (l.foldl (fun t b => t.requestHalt b .hardware) t).seq.inject = t.seq.inject := by
    intro l
    induction l with
    | nil => exact fun _ => rfl
    | cons b l ih =>
      intro t
      rw [List.foldl_cons, ih, State.requestHalt]
      split <;> rfl
  unfold State.requestHaltAll
  exact h _ s

/-! ## Machine checks (R252) -/

/-- The bobbin served stops, and the check is counted. -/
def State.mcStop (s : State) (b : Option (Fin 24)) : State :=
  (match b with
    | some x => if (s.bob x).st = .halted then s else s.toHalted x
    | none => s : State).bump R.CS_MC_STATUS F.CS_MC_STATUS_COUNT 1

/-- The registers that record a first cause. -/
def State.showMc (s : State) (c : McCause) (bn uaddr : Nat) (m : Stamp) : State :=
  let s := (s.setFld R.CS_MC_STATUS F.CS_MC_STATUS_ACTIVE 1).setFld R.CS_MC_STATUS F.CS_MC_STATUS_CAUSE (mcCode c)
  let s := (s.setFld R.CS_MC_ADDR F.CS_MC_ADDR_BOBBIN bn).setFld R.CS_MC_ADDR F.CS_MC_ADDR_UADDR uaddr
  let s := s.setPair R.CS_MC_STAMP_LO m
  s.functions.foldl (fun (t : State) (fn : Fin 2) => t.setFld (cstsKey fn.val) cstsCfs 1) s

/-- The registers that a first cause writes. -/
def mcKeys : List Nat :=
  [R.CS_MC_STATUS, R.CS_MC_ADDR, R.CS_MC_STAMP_LO, R.CS_MC_STAMP_HI, cstsKey 0, cstsKey 1]

theorem State.showCfs_regsBut (s : State) (l : List (Fin 2)) :
    RegsBut [cstsKey 0, cstsKey 1] s (l.foldl (fun (t : State) (fn : Fin 2) => t.setFld (cstsKey fn.val) cstsCfs 1) s) := by
  refine RegsBut.foldl l (fun x fn => (x.regsBut_setFld _ _ _).mono ?_) s
  intro k hk
  obtain rfl := List.mem_singleton.mp hk
  fin_cases fn
  · exact List.mem_cons_self
  · exact List.mem_cons_of_mem _ List.mem_cons_self

theorem State.showMc_regsBut (s : State) (c : McCause) (bn uaddr : Nat) (m : Stamp) : RegsBut mcKeys s (s.showMc c bn uaddr m) := by
  unfold State.showMc
  dsimp only
  refine RegsBut.trans ?_ ((State.showCfs_regsBut _ _).mono (by decide))
  refine RegsBut.trans ?_ ((State.regsBut_setPair _ R.CS_MC_STAMP_LO _).mono (by decide))
  refine RegsBut.trans ?_ ((State.regsBut_setFld _ _ _ _).mono (by decide))
  refine RegsBut.trans ?_ ((State.regsBut_setFld _ _ _ _).mono (by decide))
  exact ((s.regsBut_setFld _ _ _).trans (State.regsBut_setFld _ _ _ _)).mono (by decide)

theorem State.showMc_active (s : State) (c : McCause) (bn uaddr : Nat) (m : Stamp) : (s.showMc c bn uaddr m).mcActive = true := by
  unfold State.mcActive State.showMc
  dsimp only
  rw [State.flag_congr (State.showCfs_regsBut _ _ R.CS_MC_STATUS (by decide)),
    State.flag_congr (State.regsBut_setPair _ _ _ R.CS_MC_STATUS (by decide)),
    State.flag_congr (State.reg_setFld_other _ _ _ (by decide)), State.flag_congr (State.reg_setFld_other _ _ _ (by decide)),
    State.flag_setFld_other _ _ _ _ _ (by decide) (by decide) (by decide) (by decide)]
  exact State.flag_setFld_set _ _ _ (by decide) (by decide)

theorem State.showMc_uaddr (s : State) (c : McCause) (bn uaddr : Nat) (m : Stamp) :
    (s.showMc c bn uaddr m).fld R.CS_MC_ADDR F.CS_MC_ADDR_UADDR = uaddr % 32768 := by
  unfold State.showMc
  dsimp only
  rw [State.fld_congr (State.showCfs_regsBut _ _ R.CS_MC_ADDR (by decide)),
    State.fld_congr (State.regsBut_setPair _ _ _ R.CS_MC_ADDR (by decide)),
    State.fld_setFld_self _ _ _ _ (by decide) (by decide)]
  rfl

theorem State.mcStop_reg (s : State) (b : Option (Fin 24)) {k : Nat} (h : k ≠ R.CS_MC_STATUS) : (s.mcStop b).reg k = s.reg k := by
  unfold State.mcStop State.bump
  rw [State.reg_setFld_other _ _ _ h]
  split
  · split <;> rfl
  · rfl

/-- The count of checks leaves ACTIVE as it is. -/
theorem State.mcStop_active (s : State) (b : Option (Fin 24)) : (s.mcStop b).mcActive = s.mcActive := by
  unfold State.mcActive State.mcStop State.bump
  rw [State.flag_setFld_other _ _ _ _ _ (by decide) (by decide) (by decide) (by decide)]
  split
  · split <;> rfl
  · rfl

theorem State.mcStop_inject (s : State) (b : Option (Fin 24)) : (s.mcStop b).seq.inject = s.seq.inject := by
  unfold State.mcStop
  rw [State.bump_seq]
  split
  · split <;> rfl
  · rfl

/-- The number that a machine check records for the bobbin it met. -/
def mcBobbin (b : Option (Fin 24)) : Nat :=
  match b with
  | some b => b.val
  | none => 0x1F

/-- A first cause, but for its event: every bobbin is asked to halt, the registers record the cause, vector 257 is sent. -/
def State.mcFirst (s : State) (c : McCause) (b : Option (Fin 24)) (uaddr : Nat) : State :=
  ((s.mcStop b).requestHaltAll.showMc c (mcBobbin b) uaddr ((s.mcStop b).stamp .control)).sendAll 257

theorem State.machineCheck_first {s : State} (c : McCause) (b : Option (Fin 24)) (uaddr mask : Nat) (h : s.mcActive = false) :
    ∃ code a0 a1 a2 : Nat, s.machineCheck c b uaddr mask = (s.mcFirst c b uaddr).logSeq code a0 a1 a2 := by
  have hstop := Bool.eq_false_iff.mp ((s.mcStop_active b).trans h)
  cases c with
  | parity => exact ⟨0xF001, mcBobbin b, uaddr, mask, if_neg hstop⟩
  | safePoint => exact ⟨0xF002, mcBobbin b, uaddr, 0, if_neg hstop⟩
  | stampFault => exact ⟨0xF003, ((s.mcFirst .stampFault b uaddr).reg R.TB_STAMP_FAULT).toNat, 0, 0, if_neg hstop⟩

theorem State.mcFirst_reg (s : State) (c : McCause) (b : Option (Fin 24)) (uaddr k : Nat) :
    (s.mcFirst c b uaddr).reg k =
      ((s.mcStop b).requestHaltAll.showMc c (mcBobbin b) uaddr ((s.mcStop b).stamp .control)).reg k := State.sendAll_reg ..

theorem State.showMc_seq (s : State) (c : McCause) (bn uaddr : Nat) (m : Stamp) : (s.showMc c bn uaddr m).seq = s.seq := by
  have hfold : ∀ (l : List (Fin 2)) (x : State),
      (l.foldl (fun (t : State) (fn : Fin 2) => t.setFld (cstsKey fn.val) cstsCfs 1) x).seq = x.seq := by
    intro l
    induction l with
    | nil => exact fun _ => rfl
    | cons fn l ih => exact fun x => (ih _).trans (State.setFld_seq ..)
  unfold State.showMc
  dsimp only
  rw [hfold]
  simp only [State.setPair_seq, State.setFld_seq]

section FirstCause

variable {s : State} (c : McCause) (b : Option (Fin 24)) (uaddr mask : Nat) (h : s.mcActive = false)

include h

theorem State.machineCheck_active : (s.machineCheck c b uaddr mask).mcActive = true := by
  obtain ⟨code, a0, a1, a2, he⟩ := State.machineCheck_first c b uaddr mask h
  rw [he, State.mcActive, State.flag_congr (State.logSeq_reg ..), State.flag_congr (State.mcFirst_reg ..)]
  exact State.showMc_active ..

theorem State.machineCheck_uaddr : (s.machineCheck c b uaddr mask).fld R.CS_MC_ADDR F.CS_MC_ADDR_UADDR = uaddr % 32768 := by
  obtain ⟨code, a0, a1, a2, he⟩ := State.machineCheck_first c b uaddr mask h
  rw [he, State.fld_congr (State.logSeq_reg ..), State.fld_congr (State.mcFirst_reg ..)]
  exact State.showMc_uaddr ..

theorem State.machineCheck_inject : (s.machineCheck c b uaddr mask).seq.inject = s.seq.inject := by
  obtain ⟨code, a0, a1, a2, he⟩ := State.machineCheck_first c b uaddr mask h
  have hsend : (s.mcFirst c b uaddr).seq = _ := (State.sendAll_keeps _ 257).frame .seq (by decide)
  rw [he, State.logSeq_seq, hsend, State.showMc_seq, State.requestHaltAll_inject, State.mcStop_inject]

theorem State.machineCheck_reg {k : Nat} (hk : k ∉ mcKeys) : (s.machineCheck c b uaddr mask).reg k = s.reg k := by
  obtain ⟨code, a0, a1, a2, he⟩ := State.machineCheck_first c b uaddr mask h
  have hstatus : k ≠ R.CS_MC_STATUS := fun e => hk (e ▸ List.mem_cons_self)
  rw [he, State.logSeq_reg, State.mcFirst_reg, State.showMc_regsBut _ _ _ _ _ k hk, ← State.mcStop_reg s b hstatus]
  exact congrArg (storeGet regReset k) ((State.requestHaltAll_keeps _).frame .regs (by decide))

end FirstCause

/-! ## Patches (R247, R248) -/

theorem State.activeBank_lt (s : State) : s.activeBank < 2 := Nat.mod_lt _ (by decide)

theorem State.bankOf_setBankOf_self (s : State) (k : Nat) (p : PatchBank) : (s.setBankOf k p).bankOf k = p := by
  simp [State.bankOf, State.setBankOf]

theorem State.bankOf_setBankOf_other (s : State) {j k : Nat} (p : PatchBank) (h : j % 2 ≠ k % 2) :
    (s.setBankOf k p).bankOf j = s.bankOf j := by
  simp [State.bankOf, State.setBankOf, Ne.symm h]

theorem State.bankOf_congr {s t : State} (h : t.seq = s.seq) (k : Nat) : t.bankOf k = s.bankOf k :=
  congrArg (fun q : SeqState => q.banks[k % 2]) h

/-- The inactive bank is set and shown as pending or not, and an event is logged. -/
def State.settleBank (s : State) (p : PatchBank) (pending code a0 a1 a2 a3 : Nat) : State :=
  ((s.setBankOf (1 - s.activeBank) p).setFld R.CS_STATUS F.CS_STATUS_PENDING pending).logSeq code a0 a1 a2 a3

theorem State.settleBank_spec (s : State) (p : PatchBank) (pending code a0 a1 a2 a3 : Nat) :
    (s.settleBank p pending code a0 a1 a2 a3).bankOf (1 - s.activeBank) = p ∧
    (s.settleBank p pending code a0 a1 a2 a3).events = (s.logSeq code a0 a1 a2 a3).events ∧
    RegsBut [R.CS_STATUS] s (s.settleBank p pending code a0 a1 a2 a3) ∧
    (s.settleBank p pending code a0 a1 a2 a3).bankOf s.activeBank = s.bankOf s.activeBank := by
  have hseq : (s.settleBank p pending code a0 a1 a2 a3).seq = (s.setBankOf (1 - s.activeBank) p).seq :=
    (State.logSeq_seq ..).trans (State.setFld_seq ..)
  refine ⟨?_, ?_, ?_, ?_⟩
  · rw [State.bankOf_congr hseq, State.bankOf_setBankOf_self]
  · exact State.logSeq_events_congr (by rw [State.setFld_events]; rfl) (by rw [State.setFld_time]; rfl) ..
  · exact fun k hk => (State.logSeq_reg ..).trans (State.regsBut_setFld _ R.CS_STATUS _ _ k hk)
  · have := s.activeBank_lt
    rw [State.bankOf_congr hseq, State.bankOf_setBankOf_other _ _ (by omega)]

theorem State.settleBank_flag (s : State) (p : PatchBank) (pending code a0 a1 a2 a3 : Nat) :
    (s.settleBank p pending code a0 a1 a2 a3).flag R.CS_STATUS F.CS_STATUS_PENDING =
      ((s.setBankOf (1 - s.activeBank) p).setFld R.CS_STATUS F.CS_STATUS_PENDING pending).flag R.CS_STATUS F.CS_STATUS_PENDING :=
  State.flag_congr (State.logSeq_reg ..) _

theorem patchLoad_accepted (image : List Byte) :
    Completes (.patchLoad image)
      (fun s => (parsePatch (image.map (·.toNat))).refusal (s.reg R.CS_ROM_ID).toNat = none)
      [.events, .regs, .seq]
      fun s t => t.bankOf (1 - s.activeBank) = (parsePatch (image.map (·.toNat))).bank (1 - s.activeBank) ∧
          t.events = (s.logSeq 0x6010 (1 - s.activeBank) (parsePatch (image.map (·.toNat))).version
            (parsePatch (image.map (·.toNat))).nWords (parsePatch (image.map (·.toNat))).nMatch).events ∧
          t.flag R.CS_STATUS F.CS_STATUS_PENDING = true ∧ RegsBut [R.CS_STATUS] s t ∧ t.bankOf s.activeBank = s.bankOf s.activeBank := by
  refine Completes.of_keeps (execPatchLoad_keeps image) ?_
  intro s _ hgood
  generalize hp : parsePatch (image.map (·.toNat)) = p at hgood
  have hexec : exec (.patchLoad image) s = .next (s.settleBank (p.bank (1 - s.activeBank)) 1 0x6010 (1 - s.activeBank) p.version
      p.nWords p.nMatch) := by
    show Host.Outcome.next (s.loadPatch _) = _
    unfold State.loadPatch
    rw [hp]
    dsimp only
    rw [hgood]
    rfl
  obtain ⟨hbank, hevents, hregs, hactive⟩ := s.settleBank_spec (p.bank (1 - s.activeBank)) 1 0x6010 (1 - s.activeBank) p.version
    p.nWords p.nMatch
  refine ⟨_, hexec, hbank, hevents, ?_, hregs, hactive⟩
  rw [State.settleBank_flag]
  exact State.flag_setFld_set _ _ _ (by decide) (by decide)

theorem patchLoad_refused (image : List Byte) (check idx : Nat) :
    Completes (.patchLoad image)
      (fun s => (parsePatch (image.map (·.toNat))).refusal (s.reg R.CS_ROM_ID).toNat = some (check, idx))
      [.events, .regs, .seq]
      fun s t => t.bankOf (1 - s.activeBank) = PatchBank.empty ∧ t.flag R.CS_STATUS F.CS_STATUS_PENDING = false ∧ RegsBut [R.CS_STATUS] s t ∧
          t.events = (s.logSeq 0x6011 (parsePatch (image.map (·.toNat))).version check idx).events := by
  refine Completes.of_keeps (execPatchLoad_keeps image) ?_
  intro s _ hbad
  generalize hp : parsePatch (image.map (·.toNat)) = p at hbad
  have hexec : exec (.patchLoad image) s = .next (s.settleBank PatchBank.empty 0 0x6011 p.version check idx 0) := by
    show Host.Outcome.next (s.loadPatch _) = _
    unfold State.loadPatch
    rw [hp]
    dsimp only
    rw [hbad]
    rfl
  obtain ⟨hbank, hevents, hregs, -⟩ := s.settleBank_spec PatchBank.empty 0 0x6011 p.version check idx 0
  refine ⟨_, hexec, hbank, ?_, hregs, hevents⟩
  rw [State.settleBank_flag]
  exact State.flag_setFld_clear _ _ _ (by decide) (by decide)

/-! ## Faults that a bobbin meets, and the test write (R245, R250, R255) -/

theorem controlStoreParityError_completes (b : Fin 24) (uaddr : Fin 32768) (mask : Fin 256) :
    Completes (.controlStoreParityError b uaddr mask)
      (fun s => s.served b = true ∧ s.redirected uaddr.val = false ∧ s.mcActive = false)
      [.events, .regs, .msix, .seq, .out]
      fun s t => t.mcActive = true ∧ (s.seq.inject = some uaddr.val → t.seq.inject = none) ∧
          t.fld R.CS_MC_ADDR F.CS_MC_ADDR_UADDR = uaddr.val := by
  refine Completes.of_keeps (execControlStoreParityError_keeps b uaddr mask) ?_
  rintro s - ⟨hserved, hrom, hfirst⟩
  have hexec : exec (.controlStoreParityError b uaddr mask) s =
      .next (({ s with seq := { s.seq with inject := if s.seq.inject == some uaddr.val then none else s.seq.inject } } : State).machineCheck
        .parity (some b) uaddr.val (if s.seq.inject == some uaddr.val then mask.val ^^^ 1 else mask.val)) :=
    when_of_true (by rw [hserved, hrom]; rfl) _ _
  have hfirst' : ({ s with seq := { s.seq with
      inject := if s.seq.inject == some uaddr.val then none else s.seq.inject } } : State).mcActive = false := hfirst
  refine ⟨_, hexec, State.machineCheck_active _ _ _ _ hfirst', fun harmed => ?_, ?_⟩
  · rw [State.machineCheck_inject _ _ _ _ hfirst', harmed]
    simp
  · rw [State.machineCheck_uaddr _ _ _ _ hfirst', Nat.mod_eq_of_lt uaddr.isLt]

theorem safePointOverrun_completes (b : Fin 24) (uaddr : Fin 32768) :
    Completes (.safePointOverrun b uaddr)
      (fun s => s.served b = true ∧ s.mcActive = false)
      [.events, .regs, .msix, .seq, .out]
      fun s t => t.mcActive = true ∧ t.seq.inject = s.seq.inject ∧ t.fld R.CS_MC_ADDR F.CS_MC_ADDR_UADDR = uaddr.val := by
  refine Completes.of_keeps (execSafePointOverrun_keeps b uaddr) ?_
  rintro s - ⟨hserved, hfirst⟩
  refine ⟨_, when_of_true hserved _ _, State.machineCheck_active _ _ _ _ hfirst, State.machineCheck_inject _ _ _ _ hfirst, ?_⟩
  rw [State.machineCheck_uaddr _ _ _ _ hfirst, Nat.mod_eq_of_lt uaddr.isLt]

theorem csTestWrite_arms (rom : Fin 16384) :
    Completes (.csTestWrite rom)
      (fun s => testBitN (s.fld R.SEC_STATUS F.SEC_STATUS_DBG) 1 = true)
      [.events, .seq] fun s t => t.seq = { s.seq with inject := some rom.val } ∧ t.events = s.events := by
  refine Completes.of_keeps (execCsTestWrite_keeps rom) ?_
  intro s _ hdbg
  exact ⟨_, congrArg Host.Outcome.next (if_pos hdbg), rfl, rfl⟩

theorem csTestWrite_locked (rom : Fin 16384) :
    Completes (.csTestWrite rom)
      (fun s => testBitN (s.fld R.SEC_STATUS F.SEC_STATUS_DBG) 1 = false)
      [.events, .seq] fun s t => t.seq = s.seq ∧ t.events = (s.logSeq 0x6014).events := by
  refine Completes.of_keeps (execCsTestWrite_keeps rom) ?_
  intro s _ hdbg
  exact ⟨_, congrArg Host.Outcome.next (if_neg (Bool.eq_false_iff.mp hdbg)), State.logSeq_seq .., rfl⟩

theorem mcAddrClear_completes :
    Completes .mcAddrClear (fun _ => True) [.regs] fun s t => t.reg R.CS_MC_ADDR = 0 ∧ RegsBut [R.CS_MC_ADDR] s t := by
  refine Completes.of_keeps execMcAddrClear_keeps ?_
  exact fun s _ _ => ⟨_, rfl, s.reg_setReg_self .., s.regsBut_setReg _ _⟩

/-! ## Distribution errors (R23) -/

/-- A bad sample: the substitute is noted, counted and shown, and an event is logged. -/
def State.badSample (s : State) (isl : Island) (base run sample : Nat) : State :=
  let d : DistState := ⟨s.now, base + (openRound (islandCycle8 isl) 8).toNat, run + 1⟩
  let s := { s with time := { s.time with
    dist := (islandBit isl, d) :: s.time.dist.filter fun (e : Nat × DistState) => e.1 != islandBit isl } }
  ((s.bump R.TB_FAULT_CNT F.TB_FAULT_CNT_DIST_ERR_CNT 1).setFld R.TB_STATUS F.TB_STATUS_DIST_ERR_SEEN 1).log (islandSrc isl) isl
    0x9012 (islandSrc isl) sample

theorem State.badSample_regsBut (s : State) (isl : Island) (base run sample : Nat) :
    RegsBut [R.TB_STATUS, R.TB_FAULT_CNT] s (s.badSample isl base run sample) := by
  unfold State.badSample
  dsimp only
  refine RegsBut.trans ?_ fun k _ => State.log_reg ..
  refine RegsBut.trans ?_ ((State.regsBut_setFld _ _ _ _).mono (by decide))
  exact fun k hk => State.regsBut_setFld _ R.TB_FAULT_CNT _ _ k fun hm => hk (List.mem_cons_of_mem _ hm)

theorem State.badSample_seen (s : State) (isl : Island) (base run sample : Nat) :
    (s.badSample isl base run sample).flag R.TB_STATUS F.TB_STATUS_DIST_ERR_SEEN = true := by
  unfold State.badSample
  dsimp only
  rw [State.flag_congr (State.log_reg ..)]
  exact State.flag_setFld_set _ _ _ (by decide) (by decide)

theorem State.badSample_count (s : State) (isl : Island) (base run sample : Nat) :
    (s.badSample isl base run sample).fld R.TB_FAULT_CNT F.TB_FAULT_CNT_DIST_ERR_CNT =
      min 0xFFFF (s.fld R.TB_FAULT_CNT F.TB_FAULT_CNT_DIST_ERR_CNT + 1) := by
  unfold State.badSample State.bump
  dsimp only
  rw [State.fld_congr (State.log_reg ..), State.fld_setFld_key _ _ _ _ (by decide),
    State.fld_setFld_self _ _ _ _ (by decide) (by decide)]
  exact Nat.mod_eq_of_lt (Nat.lt_of_le_of_lt (Nat.min_le_left ..) (by decide))

theorem State.badSample_tb (s : State) (isl : Island) (base run sample : Nat) :
    (s.badSample isl base run sample).time.tb = s.time.tb := by
  unfold State.badSample
  dsimp only
  rw [State.log_time, State.setFld_time, State.bump_time]

/-- A sample outside the advance that R23 allows, not the fourth of its kind in a row. -/
theorem exec_distributionError_once {s : State} {isl : Island} {prev sample base run : Nat} (hb : distBase s isl prev = (base, run))
    (hbad : sample < base ∨ base + islandCycle isl + 1 < sample) (hrun : run + 1 ≠ 4) :
    exec (.distributionError isl prev sample) s = .next (s.badSample isl base run sample) := by
  show execDistributionError isl prev sample s = _
  unfold execDistributionError
  rw [hb]
  dsimp only
  rw [if_pos hrun]
  exact when_of_true (by simpa using hbad) _ _

/-- The fourth bad sample in a row of an island other than a head's is a stamp fault and a machine check. -/
theorem exec_distributionError_fourth {s : State} {prev sample base : Nat} (hb : distBase s .decode prev = (base, 3))
    (hbad : sample < base ∨ base + islandCycle .decode + 1 < sample) :
    exec (.distributionError .decode prev sample) s =
      .next (((s.badSample .decode base 3 sample).setReg R.TB_STAMP_FAULT
        (BitVec.ofNat 32 (setBitN ((s.badSample .decode base 3 sample).reg R.TB_STAMP_FAULT).toNat 16))).machineCheck
          .stampFault none 0 0) := by
  show execDistributionError .decode prev sample s = _
  unfold execDistributionError
  rw [hb]
  dsimp only
  rw [if_neg (by decide)]
  exact when_of_true (by simpa using hbad) _ _

theorem distributionError_first (isl : Island) (prev sample : Nat) :
    Completes (.distributionError isl prev sample)
      (fun s => s.time.dist = [] ∧ (sample < prev ∨ prev + islandCycle isl + 1 < sample))
      [.time, .events, .regs]
      fun s t => t.flag R.TB_STATUS F.TB_STATUS_DIST_ERR_SEEN = true ∧
          t.fld R.TB_FAULT_CNT F.TB_FAULT_CNT_DIST_ERR_CNT = min 0xFFFF (s.fld R.TB_FAULT_CNT F.TB_FAULT_CNT_DIST_ERR_CNT + 1) ∧
          RegsBut [R.TB_STATUS, R.TB_FAULT_CNT] s t ∧ t.time.tb = s.time.tb := by
  rintro s - ⟨hdist, hbad⟩
  have hb : distBase s isl prev = (prev, 0) := by rw [distBase, hdist]; rfl
  have hkeeps : Keeps [.time, .events, .regs] s (s.badSample isl prev 0 sample) := by
    unfold State.badSample
    dsimp only
    refine Keeps.step (State.log_keeps ..) rfl (Keeps.step (State.setFld_keeps ..) rfl (Keeps.step (State.bump_keeps ..) rfl ?_))
    exact Keeps.timeTo rfl id (Keeps.refl _ _)
  exact ⟨_, exec_distributionError_once hb hbad (by decide), hkeeps.frame, s.badSample_seen .., s.badSample_count ..,
    s.badSample_regsBut _ _ _ _, s.badSample_tb ..⟩

theorem testBitN_setBitN_self (w k : Nat) : testBitN (setBitN w k) k = true := by
  unfold setBitN
  split
  · assumption
  · rename_i h
    simp only [testBitN, beq_iff_eq] at h ⊢
    rw [Nat.add_div_right _ (by positivity)]
    omega

/-- A bit of a word is read below the word's width. -/
theorem testBitN_ofNat {w k : Nat} (hk : k < 32) : testBitN (BitVec.ofNat 32 w).toNat k = testBitN w k := by
  unfold testBitN
  rw [BitVec.toNat_ofNat]
  congr 1
  obtain ⟨m, hm⟩ : ∃ m, 32 = k + (m + 1) := ⟨31 - k, by omega⟩
  rw [hm, Nat.pow_add, Nat.mod_mul_right_div_self, Nat.mod_mod_of_dvd]
  exact Dvd.intro_left (2 ^ m) (Nat.pow_succ ..).symm

theorem distributionError_decode_fourth (prev sample : Nat) (d : DistState) :
    Completes (.distributionError .decode prev sample)
      (fun s => s.time.dist = [(16, d)] ∧ d.run = 3 ∧ s.now ≤ d.tick + 2 ∧ sample < d.used ∧ s.mcActive = false)
      [.time, .events, .regs, .msix, .domains, .heads, .decode, .loop, .seq, .mem, .motion, .out]
      fun _ t => testBitN (t.reg R.TB_STAMP_FAULT).toNat 16 = true ∧ t.mcActive = true := by
  refine Completes.of_keeps (execDistributionError_keeps .decode prev sample) ?_
  rintro s - ⟨hdist, hrun, hnow, hbad, hfirst⟩
  have hb : distBase s .decode prev = (d.used, 3) := by
    have hlook : s.time.dist.lookup (islandBit .decode) = some d := by rw [hdist]; rfl
    rw [distBase, hlook]
    dsimp only
    rw [if_pos ⟨by rw [hrun]; decide, hnow⟩, hrun]
  have hfirst' : ((s.badSample .decode d.used 3 sample).setReg R.TB_STAMP_FAULT
      (BitVec.ofNat 32 (setBitN ((s.badSample .decode d.used 3 sample).reg R.TB_STAMP_FAULT).toNat 16))).mcActive = false := by
    rw [State.mcActive, State.flag_congr (State.reg_setReg_other _ _ (by decide)),
      State.flag_congr (s.badSample_regsBut _ _ _ _ R.CS_MC_STATUS (by decide))]
    exact hfirst
  refine ⟨_, exec_distributionError_fourth hb (.inl hbad), ?_, State.machineCheck_active _ _ _ _ hfirst'⟩
  rw [State.machineCheck_reg _ _ _ _ hfirst' (by decide), State.reg_setReg_self, testBitN_ofNat (by decide)]
  exact testBitN_setBitN_self ..

/-- Settles O20: patches, faults, the test write and distribution errors, one lemma per outcome. -/
theorem controlStoreCommands : Obligations.ControlStoreCommands :=
  ⟨patchLoad_accepted, patchLoad_refused, controlStoreParityError_completes, safePointOverrun_completes, csTestWrite_arms,
    csTestWrite_locked, mcAddrClear_completes, distributionError_first, distributionError_decode_fourth⟩

end Sys2Proof.Machine
end

section
/-!
PROOFS. Hems and the seam (R142, R153, R310, R311). A slot that becomes void is marked by a write of one byte to its entry, and a
write in part reads the word first: where that word holds one wrong symbol the memory island corrects it and counts the
correction, so that HD_WR_CNT is not the only register that changes. Refutes O33.
-/

namespace Sys2Proof.Machine

open Sys2Proof.Tests

/-- A backstitch pass is open whose one slot starts at tick 637; the zeroed word at 64, which holds the slot's flags, has one
wrong symbol. -/
def lateOnMarredWord : State :=
  let s := { stPass with time := { stPass.time with tb := 1000 } }.modHead 0 fun h => { h with pass := some passW }
  { s with mem := { s.mem with filled := 128, data := [(65, 1)] } }

theorem lateOnMarredWord_premises : Sound lateOnMarredWord ∧ (lateOnMarredWord.head 0).pass = some passW ∧
    writeSlotStart lateOnMarredWord 0 0 = some 637 ∧ 637 ≤ lateOnMarredWord.now + 2000 ∧
    (passW.toWrite.find? fun x => x.2.track == 120 && x.2.slot == 0 && !x.2.started) = some (bandW, slotW) := by
  decide +kernel

theorem exec_lateOnMarredWord : exec (.slotPayloadLate 0 120 0) lateOnMarredWord = .next (lateOnMarredWord.voidSlot 0 bandW slotW 3) := by
  obtain ⟨-, hpass, hstart, hlate, hfind⟩ := lateOnMarredWord_premises
  show execSlotPayloadLate 0 120 0 lateOnMarredWord = _
  unfold execSlotPayloadLate
  simp only [hpass, hstart, hfind]
  exact when_of_true (decide_eq_true hlate) _ _

/-- The word is corrected, and the correction is counted. -/
theorem lateOnMarredWord_counts : lateOnMarredWord.reg R.MC_ECC_CNT = 0 ∧ (lateOnMarredWord.voidSlot 0 bandW slotW 3).reg R.MC_ECC_CNT = 1 := by
  decide +kernel

/-- Refutes O33: a late slot whose entry lies in a word with one wrong symbol is counted in MC_ECC_CNT too, where the statement
lets no register change but HD_WR_CNT. -/
theorem not_hemsAndSeams : ¬ Obligations.HemsAndSeams := by
  unfold Obligations.HemsAndSeams
  rintro ⟨-, -, -, -, -, -, -, -, -, late, -⟩
  obtain ⟨hsound, hpass, hstart, hlate, hfind⟩ := lateOnMarredWord_premises
  obtain ⟨t, hexec, -, -, hregs, -⟩ := late 0 120 0 passW bandW slotW 637 lateOnMarredWord hsound ⟨hpass, hstart, hlate, hfind⟩
  rw [exec_lateOnMarredWord] at hexec
  injection hexec with ht
  subst ht
  obtain ⟨before, after⟩ := lateOnMarredWord_counts
  have same := hregs R.MC_ECC_CNT (by decide)
  rw [before, after] at same
  exact absurd same (by decide)

end Sys2Proof.Machine

end

section
/-!
PROOFS. The layer of the head instructions (R229, R232, R234): an asynchronous instruction that begins, the entries that answer
it, and what a head island reads of the state in which it begins.
-/

namespace Sys2Proof.Machine

/-! ## An asynchronous instruction that begins (R229) -/

/-- The state in which an asynchronous instruction's work begins: its tag in rd, its place in the event queue reserved. -/
def State.began (s : State) (b : Fin 24) (i : Ins) : State :=
  ((s.issued b i.next).modBob b fun x => { x with
    outst := (s.bob b).nextTag b.val :: x.outst, tagCount := (s.bob b).nextTag b.val % 1024 }).setG b i.rd ((s.bob b).nextTag b.val)

theorem State.async_begins {s : State} {b : Fin 24} (i : Ins) (hroom : (s.bob b).occupied < 32) (f : Waiter → State → State) :
    (s.issued b i.next).async b i true f = .ok (f (waiterOf s b) (s.began b i)) := by
  unfold State.async
  have hocc : ¬ (32 ≤ ((s.bob b).past i s.now).occupied ∨ (!true) = true) := by
    rintro (h | h)
    · exact absurd h (Nat.not_le.mpr hroom)
    · cases h
  rw [s.issued_bob_self, if_neg hocc]
  rfl

theorem Bobbin.put_withOutst (x : Bobbin) (r : Nat) (v : DWord) (l : List Nat) (n : Nat) :
    ({ x with outst := l, tagCount := n }).put r v = { x.put r v with outst := l, tagCount := n } := by
  unfold Bobbin.put
  split <;> rfl

theorem State.began_starts (s : State) (b : Fin 24) (i : Ins) : Starts b i s (s.began b i) := by
  have h := ((s.issued_becomes b i).modBob fun x => { x with
    outst := (s.bob b).nextTag b.val :: x.outst, tagCount := (s.bob b).nextTag b.val % 1024 }).setG i.rd ((s.bob b).nextTag b.val)
  rw [Bobbin.put_withOutst] at h
  exact h

/-- What starts, starts whatever else happens to the parts that are neither bobbins nor registers. -/
theorem Starts.of_seq_regs_eq {b : Fin 24} {i : Ins} {s t u : State} (h : Starts b i s t) (hseq : u.seq = t.seq) (hregs : u.regs = t.regs) :
    Starts b i s u := by
  obtain ⟨hbob, helse, hreg⟩ := h
  exact ⟨(State.bob_congr hseq b).trans hbob, helse.trans (Elsewhere.of_seq_eq hseq),
    hreg.trans (regsBut_of_regs_eq hregs)⟩

@[simp] theorem Bobbin.put_arriving (x : Bobbin) (r : Nat) (v : DWord) : (x.put r v).arriving = x.arriving := by
  unfold Bobbin.put
  split <;> rfl

theorem State.began_arriving (s : State) (b : Fin 24) (i : Ins) : ((s.began b i).bob b).arriving = (s.bob b).arriving := by
  rw [(s.began_starts b i).1]
  exact Bobbin.put_arriving ..

/-- A start after which the bobbins stand as they do is a tagged one. -/
theorem State.tagged_of_seq_eq {s t : State} {b : Fin 24} {i : Ins} (h : t.seq = (s.began b i).seq) : Tagged b i s t := by
  obtain ⟨hbob, helse, -⟩ := s.began_starts b i
  obtain ⟨hother, hshared, hprog, -, -⟩ := helse
  refine ⟨?_, fun c hc => ?_, by rw [h, hshared], by rw [h, hprog]⟩
  · rw [State.bob_congr h, hbob]
  · unfold OnlyHears
    rw [State.bob_congr h, hother c hc]

/-- The answer that ends a request of head island n. -/
theorem State.completeHead_posts {s t : State} (hseq : t.seq = s.seq) (ht : t.time = s.time) (n : Fin 16) (w : Waiter) {result : Nat}
    (hr : result < 256) (data : Nat) : Posts w.bobbin (headEntry s n w result data) s (t.completeHead n w result data) := by
  unfold State.completeHead State.complete State.sendEntry headEntry
  rw [Nat.mod_eq_of_lt hr, State.stamp_congr ht]
  refine ⟨?_, (Elsewhere.of_seq_eq hseq).trans (t.elsewhere_modBob _ _)⟩
  rw [State.bob_modBob_self, State.bob_congr hseq]

/-- An entry for the bobbin that has started. -/
theorem Tagged.posts {b : Fin 24} {i : Ins} {e : EvEntry} {s t u : State} (h : Tagged b i s t) (hp : Posts b e t u) :
    Tagged b i s u := by
  obtain ⟨hbob, hother, hshared, hprog⟩ := h
  obtain ⟨pbob, pother, pshared, pprog, -, -⟩ := hp
  refine ⟨?_, fun c hc => ?_, pshared.trans hshared, pprog.trans hprog⟩
  · rw [pbob, hbob]
  · unfold OnlyHears
    rw [pother c hc]
    exact hother c hc

/-- An instruction that is answered as soon as it begins. -/
theorem State.began_answered (s : State) (b : Fin 24) (i : Ins) (n : Fin 16) {result : Nat} (hr : result < 256) (data : Nat) :
    (((s.began b i).completeHead n (waiterOf s b) result data).bob b).arriving =
        (s.bob b).arriving ++ [headEntry s n (waiterOf s b) result data] ∧
      Tagged b i s ((s.began b i).completeHead n (waiterOf s b) result data) := by
  have hp := State.completeHead_posts (s := s.began b i) rfl rfl n (waiterOf s b) hr data
  refine ⟨?_, (State.tagged_of_seq_eq rfl).posts hp⟩
  rw [show headEntry s n (waiterOf s b) result data = headEntry (s.began b i) n (waiterOf s b) result data by
    unfold headEntry
    rw [State.stamp_congr (s := s) (t := s.began b i) (s.issued_time b i.next)], ← s.began_arriving b i]
  exact congrArg Bobbin.arriving hp.1

/-! ## What a head island finds -/

/-- The heads, the loop engine, the time and every register outside the bobbins' own block are the same in both states. -/
def HeadsAlike (s t : State) : Prop :=
  t.heads = s.heads ∧ t.loop = s.loop ∧ t.time = s.time ∧ ∀ k : Nat, k < 0x081000 ∨ 0x082000 ≤ k → t.reg k = s.reg k

theorem State.issued_headsAlike (s : State) (b : Fin 24) (next : Nat) : HeadsAlike s (s.issued b next) := by
  refine ⟨State.issued_heads .., State.issued_loop .., State.issued_time .., fun k hk => State.issued_reg _ _ _ ?_⟩
  unfold R.SQ_BOB_ISSUED
  omega

theorem State.began_headsAlike (s : State) (b : Fin 24) (i : Ins) : HeadsAlike s (s.began b i) := s.issued_headsAlike b i.next

section Alike

variable {s t : State} (h : HeadsAlike s t)

include h

theorem HeadsAlike.head (n : Fin 16) : t.head n = s.head n := by
  unfold State.head
  rw [h.1]

theorem HeadsAlike.loopHead (n : Fin 16) : t.loopHead n = s.loopHead n := by
  unfold State.loopHead
  rw [h.2.1]

theorem HeadsAlike.slot (k : Fin 96) : t.slot k = s.slot k := by
  unfold State.slot
  rw [h.2.1]

theorem HeadsAlike.now : t.now = s.now := congrArg TimeState.tb h.2.2.1

theorem HeadsAlike.stamp (i : Island) : t.stamp i = s.stamp i := State.stamp_congr h.2.2.1 i

theorem HeadsAlike.reg {k : Nat} (hk : k < 0x081000 ∨ 0x082000 ≤ k) : t.reg k = s.reg k := h.2.2.2 k hk

theorem HeadsAlike.fld {k : Nat} (p : FieldPos) (hk : k < 0x081000 ∨ 0x082000 ≤ k) : t.fld k p = s.fld k p := State.fld_congr (h.reg hk) p

theorem HeadsAlike.flag {k : Nat} (p : FieldPos) (hk : k < 0x081000 ∨ 0x082000 ≤ k) : t.flag k p = s.flag k p := State.flag_congr (h.reg hk) p

theorem HeadsAlike.passCfgNow (n : Fin 16) : passCfgNow t n = passCfgNow s n := by
  unfold Machine.passCfgNow State.fld
  simp (disch := (simp only [R.HD_FMT_CFG, R.HD_SYNC_CFG, R.HD_CH_CFG, R.HD_ADAPT_CFG, R.HD_TIMING_CFG, R.HD_UNPICK_CFG,
    R.HD_DROP_CFG, R.HD_DROP_MASK, R.HD_WR_CFG, R.HD_VFY_RAW, R.HD_ZONE_BASE_HI, R.HD_ZONE_BASE_LO, R.HD_STRAT_BASE_HI,
    R.HD_STRAT_BASE_LO, R.DC_RA_CFG, R.DC_RA_BASE_HI, R.DC_RA_BASE_LO]; omega)) only [h.reg]

theorem HeadsAlike.flyStatus (n : Fin 16) (p : FieldPos) : t.flag (R.HD_FLY_STATUS n.val) p = s.flag (R.HD_FLY_STATUS n.val) p :=
  h.flag p (by unfold R.HD_FLY_STATUS; omega)

theorem HeadsAlike.focusLayer (n : Fin 16) : focusLayer t n = focusLayer s n := by
  unfold Machine.focusLayer
  rw [h.head, h.loopHead, h.flyStatus]

theorem HeadsAlike.descValid (n : Fin 16) (fmt : Nat) (d : PassDesc) : descValid t n fmt d = descValid s n fmt d := by
  unfold Machine.descValid
  rw [h.focusLayer]

theorem HeadsAlike.focusSlot (n : Fin 16) : focusSlot t n = focusSlot s n := by
  unfold Machine.focusSlot
  rw [h.fld _ (by unfold R.LP_HEAD_MAP; omega)]

theorem HeadsAlike.trackReached (n : Fin 16) : trackReached t n = trackReached s n := by
  unfold Machine.trackReached
  rw [h.head]

theorem HeadsAlike.sledStatus (n : Fin 16) : t.reg (R.SL_STATUS n.val) = s.reg (R.SL_STATUS n.val) :=
  h.reg (by unfold R.SL_STATUS; omega)

theorem HeadsAlike.trackP (n : Fin 16) (fmt track : Nat) : trackP t n fmt track = trackP s n fmt track := by
  unfold Machine.trackP
  rw [h.reg (by unfold R.SL_ORIGIN; omega)]

theorem HeadsAlike.headPopulated (n : Nat) : t.headPopulated n = s.headPopulated n := by
  unfold State.headPopulated
  rw [h.fld _ (by decide)]

theorem HeadsAlike.headInService (n : Nat) : t.headInService n = s.headInService n := by
  unfold State.headInService
  rw [h.fld _ (by decide)]

theorem HeadsAlike.headStat (n : Fin 16) : headStat t n = headStat s n := by
  unfold Machine.headStat
  rw [h.head, h.loopHead, h.focusLayer]
  unfold State.aligned flyReady addrOk State.hdLen
  rw [h.flyStatus, h.flyStatus, h.flag _ (by unfold R.TL_STATUS; omega), h.flag _ (by unfold R.HD_LASER_STATUS; omega)]

end Alike

/-! ## A head instruction (R232, R234) -/

theorem State.issued_capBit (s : State) (b : Fin 24) (next k : Nat) : (s.issued b next).capBit b k = s.capBit b k := by
  unfold State.capBit
  rw [State.issued_reg _ _ _ (by unfold R.SQ_BOB_CAP R.SQ_BOB_ISSUED; omega)]

theorem State.headChecks_ok {s : State} {b : Fin 24} {fam v : Nat} {n : Fin 16} (hfam : s.capBit b fam = true) (hv : v = n.val)
    (hcap : s.capBit b (16 + n.val) = true) (hserv : s.headInService n.val = true) (f : Fin 16 → Effect) :
    s.headChecks b fam v f = f n := by
  subst hv
  simp [State.headChecks, hfam, hcap, hserv]

section HeadIns

variable {s : State} {b : Fin 24} {u : Upset} {i : Ins} {k : Nat} {n : Fin 16} {f : Fin 16 → Ins → State → Effect} {c : Instr}
  (h : Issues s b u i) (hop : i.op = k) (hc : exec c s = s.headIns b u k f)

theorem AimsAt.headChecks (ha : AimsAt s b i famHD n) (g : Fin 16 → Effect) :
    (s.issued b i.next).headChecks b famHD ((s.issued b i.next).g b i.ra) g = g n := by
  obtain ⟨hfam, hv, hcap, hserv⟩ := ha
  exact State.headChecks_ok ((s.issued_capBit ..).trans hfam) ((s.g_issued_ra b i).trans hv) ((s.issued_capBit ..).trans hcap)
    (((s.issued_headsAlike b i.next).headInService _).trans hserv) g

include h hop hc

theorem exec_ok_of_aims {t : State} (ha : AimsAt s b i famHD n) (hf : f n i (s.issued b i.next) = .ok t) : exec c s = .next t :=
  exec_ok_of_issues h hop hc ((AimsAt.headChecks ha _).trans hf)

theorem exec_excepts_of_aims {e : Nat} (ha : AimsAt s b i famHD n) (he : e ≠ 9) (hf : f n i (s.issued b i.next) = .error e) :
    exec c s = .next ((s.issued b i.next).takeException b e i.pc i.word) :=
  exec_excepts_of_issues (e := e) h hop he hc ((AimsAt.headChecks ha _).trans hf)

/-- An asynchronous one with a free place in the event queue. -/
theorem exec_begins_of_aims {w : Waiter → State → State} (ha : AimsAt s b i famHD n) (hroom : (s.bob b).occupied < 32)
    (hf : f n i (s.issued b i.next) = (s.issued b i.next).async b i true w) : exec c s = .next (w (waiterOf s b) (s.began b i)) :=
  exec_ok_of_aims h hop hc ha (hf.trans (State.async_begins i hroom w))

end HeadIns

end Sys2Proof.Machine
end

section
/-!
PROOFS. HD.OPEN (R134, R234 to R237), one lemma per outcome, and the hem and the claim that it waits for.
-/

namespace Sys2Proof.Machine

/-! ## Parts of a head island -/

theorem State.head_congr {s t : State} (h : t.heads = s.heads) (n : Fin 16) : t.head n = s.head n := by
  unfold State.head
  rw [h]

theorem State.headsBut_modHead {s t : State} {n : Fin 16} (h : t.heads = s.heads) (f : Head → Head) : HeadsBut n s (t.modHead n f) :=
  fun m hm => (t.head_modHead_other f hm).trans (State.head_congr h m)

theorem State.began_heads (s : State) (b : Fin 24) (i : Ins) : (s.began b i).heads = s.heads := (s.began_headsAlike b i).1

theorem State.began_decode (s : State) (b : Fin 24) (i : Ins) : (s.began b i).decode = s.decode := s.issued_decode b i.next

/-- A head without unclaimed run-ahead bands has none to discard (R134). -/
theorem State.discardHeadBands_none {s : State} {n : Nat} (h : ∀ r ∈ s.decode.runAhead, ¬ (r.head = n ∧ r.claim = none)) (cause : Nat) :
    s.discardHeadBands n cause = s := by
  unfold State.discardHeadBands
  rw [List.filter_eq_nil_iff.mpr]
  · rfl
  · intro r hr
    simpa using h r hr

/-- A request joins the hem in progress (R35). -/
theorem State.hemRequest_joins {s : State} {n : Fin 16} {p : Pass} {m : Hem} (hp : (s.head n).pass = some p) (hm : p.hem = some m)
    (h : Stamp) (forced : Bool) (who : List Waiter) :
    s.hemRequest n h forced who = s.modPass n fun p => { p with hem := some { m with waiters := m.waiters ++ who } } := by
  unfold State.hemRequest
  rw [hp]
  dsimp only
  rw [hm]

/-! ## HD.OPEN (R234 to R237) -/

/-- The descriptor of an HD.OPEN is read at issue. -/
theorem State.sharedAt_issued {s : State} {b : Fin 24} {i : Ins} (hi : fetchIns s (s.bob b).pc = (i, true)) (hop : i.op = 0x50)
    (hlo : 0x100000 ≤ (valB s b i).toNat) (hhi : (valB s b i).toNat + 64 ≤ 0x200000) :
    (s.issued b i.next).sharedAt ((s.issued b i.next).g b i.rb) 64 =
      .ok (scratchBytes s.seq.shared ((valB s b i).toNat - 0x100000) 64) := by
  unfold State.sharedAt
  rw [State.g_issued_rb (fetchIns_ext hi (by rw [hop]; rfl)), if_pos ⟨hlo, hhi⟩, (s.issued_elsewhere b i.next).2.1]

section Open

variable {s : State} {b : Fin 24} {u : Upset} {i : Ins} {n : Fin 16}

/-- An HD.OPEN that reaches the head island. -/
theorem exec_hdOpen_begins (hi : Issues s b u i) (hop : i.op = 0x50) (ha : AimsAt s b i famHD n) (hroom : (s.bob b).occupied < 32)
    (hlo : 0x100000 ≤ (valB s b i).toNat) (hhi : (valB s b i).toNat + 64 ≤ 0x200000) :
    exec (.hdOpen b u) s =
      .next ((s.began b i).openArrives n (scratchBytes s.seq.shared ((valB s b i).toNat - 0x100000) 64) (waiterOf s b)) := by
  refine exec_begins_of_aims (c := .hdOpen b u) (w := fun w t => t.openArrives n _ w) hi hop (.refl (execHdOpen b u s)) ha hroom ?_
  simp only [State.sharedAt_issued hi.2.1 hop hlo hhi]
  rfl

/-- The request that an HD.OPEN leaves on its head, at a stage. -/
def openReq (s : State) (b : Fin 24) (n : Fin 16) (d : PassDesc) (stage : OpenStage) : OpenReq :=
  { who := waiterOf s b, desc := d, cfg := passCfgNow s n, stage := stage, relocs := [], clamps := 0 }

/-- The head holds a valid descriptor's request, and goes on with the hem of its pass or without one. -/
theorem State.began_openArrives {d : PassDesc} {bytes : List Nat} (husable : (s.head n).link.usable = true)
    (hopening : (s.head n).opening = none) (hseq : (s.loopHead n).seq = none) (hparse : parseDesc bytes = some d)
    (hvalid : descValid s n (s.reg (R.HD_FMT_CFG n.val)).toNat d = true) :
    (s.began b i).openArrives n bytes (waiterOf s b) =
      (let t := (s.began b i).modHead n fun h => { h with opening := some (openReq s b n d .awaitHem) }
       if (s.head n).pass.isSome then (t.discardHeadBands n.val 1).hemRequest n (t.stamp (.head n)) false [] else t.openAfterHem n) := by
  have h := s.began_headsAlike b i
  unfold State.openArrives
  simp only [h.head, h.loopHead, h.passCfgNow, h.descValid, husable, hopening, hseq, hparse]
  simp [show (passCfgNow s n).fmt = (s.reg (R.HD_FMT_CFG n.val)).toNat from rfl, hvalid, openReq]

end Open

/-- A change that leaves the pass of a head as it is. -/
theorem State.modPass_pass {s : State} {n : Fin 16} {p : Pass} (hp : (s.head n).pass = some p) (f : Pass → Pass) (hf : f p = p) :
    ((s.modPass n f).head n).pass = some p := by
  unfold State.modPass
  rw [State.head_modHead_self]
  dsimp only
  rw [hp, Option.map_some, hf]

theorem hdOpen_joins_hem (b : Fin 24) (u : Upset) (i : Ins) (n : Fin 16) (d : PassDesc) (p : Pass) (m : Hem) :
    Completes (.hdOpen b u)
      (fun s => Issues s b u i ∧ i.op = 0x50 ∧ AimsAt s b i famHD n ∧ (s.bob b).occupied < 32 ∧ 0x100000 ≤ (valB s b i).toNat ∧
          (valB s b i).toNat + 64 ≤ 0x200000 ∧ (s.head n).link.usable = true ∧ (s.head n).opening = none ∧ (s.loopHead n).seq = none ∧
          parseDesc (scratchBytes s.seq.shared ((valB s b i).toNat - 0x100000) 64) = some d ∧ descValid s n (s.reg (R.HD_FMT_CFG n.val)).toNat d = true ∧
          (s.head n).pass = some p ∧ p.hem = some m ∧ (∀ r ∈ s.decode.runAhead, ¬ (r.head = n.val ∧ r.claim = none)))
      [.events, .regs, .heads, .decode, .seq, .mem, .motion, .out]
      fun s t => (t.head n).opening = some { who := waiterOf s b, desc := d, cfg := passCfgNow s n, stage := .awaitHem, relocs := [], clamps := 0 } ∧
          (t.head n).pass = (s.head n).pass ∧ HeadsBut n s t ∧ Starts b i s t := by
  refine Completes.of_keeps (execHdOpen_keeps b u) ?_
  rintro s - ⟨hi, hop, ha, hroom, hlo, hhi, husable, hopening, hseq, hparse, hvalid, hp, hm, hbands⟩
  have hexec := exec_hdOpen_begins hi hop ha hroom hlo hhi
  rw [State.began_openArrives husable hopening hseq hparse hvalid, hp] at hexec
  dsimp only [Option.isSome_some, if_true] at hexec
  have hpass : (((s.began b i).modHead n fun h => { h with opening := some (openReq s b n d .awaitHem) }).head n).pass = some p := by
    rw [State.head_modHead_self, (s.began_headsAlike b i).head]
    exact hp
  rw [if_pos rfl, State.discardHeadBands_none (by rw [State.modHead_decode, s.began_decode]; exact hbands), State.hemRequest_joins hpass hm] at hexec
  refine ⟨_, hexec, ?_, ?_, ?_, ?_⟩
  · rw [State.modPass, State.head_modHead_self, State.head_modHead_self]
    rfl
  · rw [State.modPass_pass hpass _ (by simp [← hm]), hp]
  · exact fun k hk => (State.head_modHead_other _ _ hk).trans (State.headsBut_modHead (s.began_heads b i) _ k hk)
  · exact (s.began_starts b i).of_seq_regs_eq rfl rfl

/-- A head without a pass keeps its state where its run-ahead bands are discarded. -/
theorem State.markBand_heads {s : State} {n : Fin 16} {r : RunAhead} (hr : r.head = n.val) (hp : (s.head n).pass = none) (f : Pass → Pass) :
    (s.markBand r f).heads = s.heads := by
  have hp' : s.heads[n].pass = none := hp
  have hn : (⟨r.head, hr ▸ n.isLt⟩ : Fin 16) = n := Fin.ext hr
  rw [State.markBand, dif_pos (hr ▸ n.isLt), hn, State.modHead]
  have hsame : ({ s.heads[n] with pass := s.heads[n].pass.map fun p => if p.no = r.pass then f p else p } : Head) = s.heads[n] := by
    rw [hp', Option.map_none, ← hp']
  dsimp only
  rw [hsame]
  exact Vector.set_getElem_self ..

theorem State.discardBand_heads {s : State} {n : Fin 16} {r : RunAhead} (hr : r.head = n.val) (hp : (s.head n).pass = none) (cause : Nat) :
    (s.discardBand r cause).heads = s.heads := by
  have hdrop (l : List Nat) : (s.dropFromQueues l).heads = s.heads := (s.dropFromQueues_keeps l).frame .heads (by decide)
  unfold State.discardBand
  dsimp only
  rw [(State.logDec_keeps ..).frame .heads (by decide), (State.bumpDc_keeps ..).frame .heads (by decide)]
  refine (State.markBand_heads (n := n) hr ?_ _).trans (hdrop _)
  exact (congrArg Head.pass (State.head_congr (hdrop _) n)).trans hp

theorem State.discardBands_heads {n : Fin 16} (l : List RunAhead) (hl : ∀ r ∈ l, r.head = n.val) (cause : Nat) :
    ∀ s : State, (s.head n).pass = none → (l.foldl (fun t r => t.discardBand r cause) s).heads = s.heads := by
  induction l with
  | nil => exact fun _ _ => rfl
  | cons r l ih =>
    intro s hp
    have hr := State.discardBand_heads (hl r List.mem_cons_self) hp cause
    exact (ih (fun x hx => hl x (List.mem_cons_of_mem _ hx)) _ (by rw [State.head_congr hr, hp])).trans hr

theorem State.discardHeadBands_heads {s : State} {n : Fin 16} (hp : (s.head n).pass = none) (cause : Nat) :
    (s.discardHeadBands n.val cause).heads = s.heads := by
  refine State.discardBands_heads _ (fun r hr => ?_) cause s hp
  have := (List.mem_filter.mp hr).2
  simp only [Bool.and_eq_true, beq_iff_eq] at this
  exact this.1

theorem State.overSpeed_waiting (s : State) : s.overSpeed.motion.waiting = s.motion.waiting := by
  unfold State.overSpeed
  dsimp only
  split
  · rw [(State.logMot_keeps ..).frame .motion (by decide)]
    rfl
  · split <;> rfl

/-- A claim that has been entered stays among those that wait. -/
theorem State.claimOpen_overSpeed_waiting (s : State) (n : Fin 16) (u : Nat) :
    ((s.claimOpen n u).overSpeed.motion.waiting.any fun c => c.1 == n.val) = true := by
  rw [State.overSpeed_waiting, State.claimOpen, (State.updateGov_keeps _).frame .motion (by decide)]
  simp

theorem State.claimOpen_overSpeed_heads (s : State) (n : Fin 16) (u : Nat) : (s.claimOpen n u).overSpeed.heads = s.heads :=
  ((State.overSpeed_keeps _).frame .heads (by decide)).trans ((s.claimOpen_keeps n u).frame .heads (by decide))

/-- An open that no hem holds back waits for its claim (R236). -/
theorem State.openAfterHem_claims {s : State} {n : Fin 16} {o : OpenReq} (ho : (s.head n).opening = some o) (hstage : o.stage = .awaitHem)
    (hp : (s.head n).pass = none) :
    ((s.openAfterHem n).head n).opening = some { o with stage := .claim } ∧
      ((s.openAfterHem n).motion.waiting.any fun c => c.1 == n.val) = true ∧ HeadsBut n s (s.openAfterHem n) := by
  have hheads := State.discardHeadBands_heads hp 1
  unfold State.openAfterHem
  rw [ho]
  dsimp only
  rw [if_pos hstage]
  refine ⟨?_, State.claimOpen_overSpeed_waiting .., fun m hm => ?_⟩
  · rw [State.head_congr (State.claimOpen_overSpeed_heads ..), State.head_modHead_self, State.head_congr hheads, ho]
    rfl
  · rw [State.head_congr (State.claimOpen_overSpeed_heads ..)]
    exact State.headsBut_modHead hheads _ m hm

theorem hdOpen_claims (b : Fin 24) (u : Upset) (i : Ins) (n : Fin 16) (d : PassDesc) :
    Completes (.hdOpen b u)
      (fun s => Issues s b u i ∧ i.op = 0x50 ∧ AimsAt s b i famHD n ∧ (s.bob b).occupied < 32 ∧ 0x100000 ≤ (valB s b i).toNat ∧
          (valB s b i).toNat + 64 ≤ 0x200000 ∧ (s.head n).link.usable = true ∧ (s.head n).opening = none ∧ (s.loopHead n).seq = none ∧
          parseDesc (scratchBytes s.seq.shared ((valB s b i).toNat - 0x100000) 64) = some d ∧ descValid s n (s.reg (R.HD_FMT_CFG n.val)).toNat d = true ∧
          (s.head n).pass = none)
      [.events, .regs, .heads, .decode, .seq, .mem, .motion, .out]
      fun s t => (t.head n).opening = some { who := waiterOf s b, desc := d, cfg := passCfgNow s n, stage := .claim, relocs := [], clamps := 0 } ∧
          (t.motion.waiting.any fun c => c.1 == n.val) = true ∧ HeadsBut n s t ∧ Tagged b i s t := by
  refine Completes.of_keeps (execHdOpen_keeps b u) ?_
  rintro s - ⟨hi, hop, ha, hroom, hlo, hhi, husable, hopening, hseq, hparse, hvalid, hp⟩
  have hexec := exec_hdOpen_begins hi hop ha hroom hlo hhi
  rw [State.began_openArrives husable hopening hseq hparse hvalid, hp] at hexec
  dsimp only at hexec
  rw [if_neg (by decide)] at hexec
  have hhead := (s.began_headsAlike b i).head n
  obtain ⟨hopen, hclaim, hother⟩ := State.openAfterHem_claims (n := n) (o := openReq s b n d .awaitHem)
    (s := (s.began b i).modHead n fun h => { h with opening := some (openReq s b n d .awaitHem) })
    (by rw [State.head_modHead_self]) rfl (by rw [State.head_modHead_self, hhead]; exact hp)
  refine ⟨_, hexec, hopen, hclaim, fun m hm => ?_, State.tagged_of_seq_eq ?_⟩
  · exact (hother m hm).trans (State.headsBut_modHead (s.began_heads b i) _ m hm)
  · exact (State.openAfterHem_keeps _ n).frame .seq (by decide)

theorem scratchBytes_zero {l : List (Nat × Byte)} {off : Nat} (h : ∀ x ∈ List.range 64, byteAt l (off + x) = 0) :
    scratchBytes l off 64 = List.replicate 64 0 := by
  unfold scratchBytes
  rw [List.eq_replicate_iff]
  refine ⟨by simp, fun v hv => ?_⟩
  obtain ⟨x, hx, rfl⟩ := List.mem_map.mp hv
  exact congrArg BitVec.toNat (h x hx)

/-- A descriptor of zeros names no band. -/
def descZero : PassDesc :=
  { layer := 0, mode := .read, inward := false, writeBack := false, runAhead := 0, start := 0, count := 0, wbd := 0, reloc := 0 }

theorem parseDesc_zeros : parseDesc (List.replicate 64 0) = some descZero := by decide +kernel

theorem hdOpen_zeros (b : Fin 24) (u : Upset) (i : Ins) (n : Fin 16) :
    Completes (.hdOpen b u)
      (fun s => Issues s b u i ∧ i.op = 0x50 ∧ AimsAt s b i famHD n ∧ (s.bob b).occupied < 32 ∧ 0x100000 ≤ (valB s b i).toNat ∧
          (valB s b i).toNat + 64 ≤ 0x200000 ∧ (s.head n).link.usable = true ∧ (s.head n).opening = none ∧ (s.loopHead n).seq = none ∧
          (∀ x ∈ List.range 64, byteAt s.seq.shared ((valB s b i).toNat - 0x100000 + x) = 0))
      [.events, .regs, .heads, .decode, .seq, .mem, .motion, .out]
      fun s t => (t.bob b).arriving = (s.bob b).arriving ++ [headEntry s n (waiterOf s b) 3 0] ∧ t.heads = s.heads ∧ Tagged b i s t ∧
          RegsBut [R.SQ_BOB_ISSUED b.val] s t := by
  refine Completes.of_keeps (execHdOpen_keeps b u) ?_
  rintro s - ⟨hi, hop, ha, hroom, hlo, hhi, husable, hopening, hseq, hzero⟩
  have hexec := exec_hdOpen_begins hi hop ha hroom hlo hhi
  have harrives : (s.began b i).openArrives n (List.replicate 64 0) (waiterOf s b) = (s.began b i).completeHead n (waiterOf s b) 3 0 := by
    have h := s.began_headsAlike b i
    have hvalid (t : State) (fmt : Nat) : descValid t n fmt descZero = false := by simp [descValid, descZero]
    unfold State.openArrives
    simp only [h.head, h.loopHead, husable, hopening, hseq, parseDesc_zeros, hvalid]
    rfl
  rw [scratchBytes_zero hzero, harrives] at hexec
  obtain ⟨harr, htag⟩ := s.began_answered b i n (result := 3) (by decide) 0
  exact ⟨_, hexec, harr, s.began_heads b i, htag, (s.began_starts b i).2.2⟩

theorem hdOpen_outside (b : Fin 24) (u : Upset) (i : Ins) (n : Fin 16) :
    Completes (.hdOpen b u)
      (fun s => Issues s b u i ∧ i.op = 0x50 ∧ AimsAt s b i famHD n ∧ ((valB s b i).toNat < 0x100000 ∨ 0x200000 < (valB s b i).toNat + 64))
      [.events, .regs, .heads, .decode, .seq, .mem, .motion, .out]
      fun s t => Excepts b i 6 i.word s t ∧ t.heads = s.heads := by
  refine Completes.of_keeps (execHdOpen_keeps b u) ?_
  rintro s - ⟨hi, hop, ha, hout⟩
  have hexec := exec_excepts_of_aims (c := .hdOpen b u) (e := 6) hi hop (.refl (execHdOpen b u s)) ha (by decide) (by
    unfold State.sharedAt
    rw [State.g_issued_rb (fetchIns_ext hi.2.1 (by rw [hop]; rfl)), if_neg (by omega)]
    rfl)
  exact ⟨_, hexec, s.takeException_excepts b i 6 _ (by decide),
    ((State.takeException_keeps ..).frame .heads (by decide)).trans (s.issued_heads b i.next)⟩

end Sys2Proof.Machine
end

section
/-!
PROOFS. The head instructions, continued: HD.HEM, HD.SEEK, the front-end instructions and the readings. Settles O48.
-/

namespace Sys2Proof.Machine

/-! ## HD.HEM (R33, R35) -/

theorem exec_hdHem_begins {s : State} {b : Fin 24} {u : Upset} {i : Ins} {n : Fin 16} (hi : Issues s b u i) (hop : i.op = 0x51)
    (ha : AimsAt s b i famHD n) (hroom : (s.bob b).occupied < 32) :
    exec (.hdHem b u) s = .next ((s.began b i).hemArrives n (waiterOf s b)) :=
  exec_begins_of_aims (c := .hdHem b u) (w := fun w t => t.hemArrives n w) hi hop (.refl (execHdHem b u s)) ha hroom rfl

theorem hdHem_joins (b : Fin 24) (u : Upset) (i : Ins) (n : Fin 16) (p : Pass) (m : Hem) :
    Completes (.hdHem b u)
      (fun s => Issues s b u i ∧ i.op = 0x51 ∧ AimsAt s b i famHD n ∧ (s.bob b).occupied < 32 ∧ (s.head n).opening = none ∧ (s.head n).pass = some p ∧ p.hem = some m ∧
          (∀ r ∈ s.decode.runAhead, ¬ (r.head = n.val ∧ r.claim = none)))
      [.events, .regs, .heads, .decode, .seq, .mem, .motion, .out]
      fun s t => t.head n = { s.head n with pass := some { p with hem := some { m with waiters := m.waiters ++ [waiterOf s b] } } } ∧ HeadsBut n s t ∧
          Starts b i s t := by
  refine Completes.of_keeps (execHdHem_keeps b u) ?_
  rintro s - ⟨hi, hop, ha, hroom, hopening, hp, hm, hbands⟩
  have hhead := (s.began_headsAlike b i).head n
  have harrives : (s.began b i).hemArrives n (waiterOf s b) =
      (s.began b i).modPass n fun p => { p with hem := some { m with waiters := m.waiters ++ [waiterOf s b] } } := by
    unfold State.hemArrives
    simp only [hhead, hopening, hp]
    rw [Option.isSome_some, if_pos rfl, State.discardHeadBands_none (by rw [s.began_decode]; exact hbands),
      State.hemRequest_joins (by rw [hhead]; exact hp) hm]
  have hexec := exec_hdHem_begins hi hop ha hroom
  rw [harrives] at hexec
  refine ⟨_, hexec, ?_, State.headsBut_modHead (s.began_heads b i) _, (s.began_starts b i).of_seq_regs_eq rfl rfl⟩
  rw [State.modPass, State.head_modHead_self, hhead, hp]
  rfl

theorem hdHem_finds_none (b : Fin 24) (u : Upset) (i : Ins) (n : Fin 16) :
    Completes (.hdHem b u)
      (fun s => Issues s b u i ∧ i.op = 0x51 ∧ AimsAt s b i famHD n ∧ (s.bob b).occupied < 32 ∧ (s.head n).opening = none ∧ (s.head n).pass = none)
      [.events, .regs, .heads, .decode, .seq, .mem, .motion, .out]
      fun s t => (t.bob b).arriving = (s.bob b).arriving ++ [headEntry s n (waiterOf s b) 1 (s.head n).passNo] ∧ t.heads = s.heads ∧ Tagged b i s t := by
  refine Completes.of_keeps (execHdHem_keeps b u) ?_
  rintro s - ⟨hi, hop, ha, hroom, hopening, hp⟩
  have hhead := (s.began_headsAlike b i).head n
  have harrives : (s.began b i).hemArrives n (waiterOf s b) = (s.began b i).completeHead n (waiterOf s b) 1 (s.head n).passNo := by
    unfold State.hemArrives
    simp only [hhead, hopening, hp]
    rfl
  have hexec := exec_hdHem_begins hi hop ha hroom
  rw [harrives] at hexec
  obtain ⟨harr, htag⟩ := s.began_answered b i n (result := 1) (by decide) (s.head n).passNo
  exact ⟨_, hexec, harr, s.began_heads b i, htag⟩

/-! ## HD.SEEK (R236) -/

theorem toSigned_eq_toInt (v : Word) : toSigned v.toNat 32 = v.toInt := by
  unfold toSigned
  rw [Nat.mod_eq_of_lt v.isLt, BitVec.toInt_eq_toNat_cond]

theorem ofNat_arg (v : Int) : BitVec.ofNat 32 (arg v) = BitVec.ofInt 32 v := by
  refine BitVec.eq_of_toNat_eq ?_
  rw [BitVec.toNat_ofNat, BitVec.toNat_ofInt]
  unfold arg ofSigned
  omega

/-- SL_TARGET clamped to the soft limits, where CLAMPED may show it (R195). -/
def State.clampedTarget (s : State) (n : Fin 16) (p : Int) : Int :=
  clampInt (s.reg (R.SL_LIMIT_LO n.val)).toInt (s.reg (R.SL_LIMIT_HI n.val)).toInt p

theorem State.writeTarget_reg (s : State) (n : Fin 16) (p : Int) :
    (s.writeTarget n p).reg (R.SL_TARGET n.val) = BitVec.ofInt 32 (s.clampedTarget n p) := by
  unfold State.writeTarget
  dsimp only
  rw [State.modSled_reg, State.reg_setReg_self, ofNat_arg, toSigned_eq_toInt, toSigned_eq_toInt]
  rfl

theorem sledStatus_ne_target (n : Fin 16) : R.SL_STATUS n.val ≠ R.SL_TARGET n.val := by
  unfold R.SL_STATUS R.SL_TARGET
  omega

theorem State.writeTarget_regsBut (s : State) (n : Fin 16) (p : Int) :
    RegsBut [R.SL_STATUS n.val, R.SL_TARGET n.val] s (s.writeTarget n p) := by
  intro k hk
  obtain ⟨hstatus, htarget⟩ : k ≠ R.SL_STATUS n.val ∧ k ≠ R.SL_TARGET n.val := by simpa using hk
  unfold State.writeTarget
  dsimp only
  rw [State.modSled_reg, State.reg_setReg_other _ _ htarget]
  split
  · rfl
  · exact State.reg_setFld_other _ _ _ hstatus

theorem State.writeTarget_fault (s : State) (n : Fin 16) (p : Int) :
    (s.writeTarget n p).fld (R.SL_STATUS n.val) F.SL_STATUS_FAULT = s.fld (R.SL_STATUS n.val) F.SL_STATUS_FAULT := by
  unfold State.writeTarget
  dsimp only
  rw [State.fld_congr (State.modSled_reg ..), State.fld_congr (State.reg_setReg_other _ _ (sledStatus_ne_target n))]
  split
  · rfl
  · exact State.fld_setFld_other _ _ _ _ _ (by decide) (by decide) (by decide) (by decide)

theorem State.writeTarget_cmds (s : State) (n : Fin 16) (p : Int) : ((s.writeTarget n p).sled n).cmds = (s.sled n).cmds := by
  unfold State.writeTarget
  dsimp only
  rw [State.sled_modSled_self]
  split <;> simp only [State.sled, State.setReg_motion, State.setFld_motion]

/-- A command to the sled of a populated head without a fault waits for the next profile tick (R194). -/
theorem State.sledCommand_waits {s : State} {n : Fin 16} (hpop : s.headPopulated n.val = true)
    (hfault : s.fld (R.SL_STATUS n.val) F.SL_STATUS_FAULT = 0) (c : SledCmd) :
    s.sledCommand n c none = s.modSled n fun x => { x with cmds := x.cmds ++ [c], waiters := x.waiters ++ [] } := by
  simp [State.sledCommand, sledRefusal, hpop, hfault]

/-- A seek that moves its sled (R236). -/
theorem State.seekMove_moves {s : State} {n : Fin 16} {k : SeekReq} {p : Int} (hpop : s.headPopulated n.val = true)
    (hfault : s.fld (R.SL_STATUS n.val) F.SL_STATUS_FAULT = 0) (hcertain : s.flag (R.SL_STATUS n.val) F.SL_STATUS_UNCERTAIN = false) :
    ((s.seekMove n k p).head n).seek = some { k with stage := .moving, note := none } ∧
      ((s.seekMove n k p).sled n).cmds = (s.sled n).cmds ++ [.move] ∧
      (s.seekMove n k p).reg (R.SL_TARGET n.val) = BitVec.ofInt 32 (s.clampedTarget n p) ∧ HeadsBut n s (s.seekMove n k p) ∧
      (s.seekMove n k p).seq = s.seq ∧ RegsBut [R.SL_STATUS n.val, R.SL_TARGET n.val] s (s.seekMove n k p) := by
  have hpop' : (s.writeTarget n p).headPopulated n.val = true := by
    rw [← hpop]
    unfold State.headPopulated
    rw [State.fld_congr (s.writeTarget_regsBut n p _ (by simp [R.SYS_HEAD_STATUS, R.SL_STATUS, R.SL_TARGET]; omega))]
  have hmove : s.seekMove n k p = ((s.writeTarget n p).modSled n fun x => { x with cmds := x.cmds ++ [.move], waiters := x.waiters ++ [] }).modHead n
      fun h => { h with seek := some { k with stage := .moving, note := none } } := by
    rw [State.seekMove]
    dsimp only
    rw [if_neg (by simp [hfault, hcertain]), State.sledCommand_waits hpop' ((s.writeTarget_fault n p).trans hfault)]
  have hheads : (s.writeTarget n p).heads = s.heads := (s.writeTarget_keeps n p).frame .heads (by decide)
  rw [hmove]
  refine ⟨by rw [State.head_modHead_self], ?_, ?_, State.headsBut_modHead ((State.modSled_heads ..).trans hheads) _, ?_, fun j hj => ?_⟩
  · rw [State.sled, State.modHead_motion, ← State.sled, State.sled_modSled_self]
    dsimp only
    rw [s.writeTarget_cmds]
  · rw [State.modHead_reg, State.modSled_reg, s.writeTarget_reg]
  · rw [State.modHead_seq, State.modSled_seq]
    exact (s.writeTarget_keeps n p).frame .seq (by decide)
  · rw [State.modHead_reg, State.modSled_reg]
    exact s.writeTarget_regsBut n p j hj

theorem hdSeek_moves (b : Fin 24) (u : Upset) (i : Ins) (n : Fin 16) (k : Fin 96) :
    Completes (.hdSeek b u)
      (fun s => Issues s b u i ∧ i.op = 0x52 ∧ AimsAt s b i famHD n ∧ (s.bob b).occupied < 32 ∧ (s.head n).opening = none ∧ (s.head n).pass = none ∧
          (s.head n).seek = none ∧ (s.loopHead n).seq = none ∧ (s.head n).link.usable = true ∧ focusSlot s n = some k ∧ (s.slot k).st = .run ∧
          s.headPopulated n.val = true ∧ s.fld (R.SL_STATUS n.val) F.SL_STATUS_FAULT = 0 ∧ s.flag (R.SL_STATUS n.val) F.SL_STATUS_UNCERTAIN = false)
      [.events, .regs, .heads, .decode, .seq, .mem, .motion, .out]
      fun s t => (t.head n).seek = some { who := waiterOf s b, target := (valB s b i).toNat % 2 ^ 19, stage := .moving, corrections := 0, fmt := (s.reg (R.HD_FMT_CFG n.val)).toNat, note := none } ∧
          (t.sled n).cmds = (s.sled n).cmds ++ [.move] ∧
          t.reg (R.SL_TARGET n.val) = BitVec.ofInt 32 (clampInt (s.reg (R.SL_LIMIT_LO n.val)).toInt (s.reg (R.SL_LIMIT_HI n.val)).toInt
            (trackP s n (s.reg (R.HD_FMT_CFG n.val)).toNat ((valB s b i).toNat % 2 ^ 19))) ∧
          HeadsBut n s t ∧ Tagged b i s t ∧ RegsBut [R.SQ_BOB_ISSUED b.val, R.SL_STATUS n.val, R.SL_TARGET n.val] s t := by
  refine Completes.of_keeps (execHdSeek_keeps b u) ?_
  rintro s - ⟨hi, hop, ha, hroom, hopening, hp, hseek, hseq, husable, hfocus, hrun, hpop, hfault, hcertain⟩
  have h := s.began_headsAlike b i
  have hexec := exec_begins_of_aims (c := .hdSeek b u) (w := fun w t => t.seekArrives n ((valB s b i).toNat % 2 ^ 19) w) hi hop
    (.refl (execHdSeek b u s)) ha hroom (by rw [State.g_issued_rb (fetchIns_ext hi.2.1 (by rw [hop]; rfl))])
  have harrives : (s.began b i).seekArrives n ((valB s b i).toNat % 2 ^ 19) (waiterOf s b) =
      (s.began b i).seekMove n
        { who := waiterOf s b, target := (valB s b i).toNat % 2 ^ 19, stage := .moving, corrections := 0
          fmt := (s.reg (R.HD_FMT_CFG n.val)).toNat, note := none }
        (trackP s n (s.reg (R.HD_FMT_CFG n.val)).toNat ((valB s b i).toNat % 2 ^ 19)) := by
    unfold State.seekArrives
    simp [h.head, h.loopHead, h.focusSlot, h.slot, h.trackP, h.reg (k := R.HD_FMT_CFG n.val) (by unfold R.HD_FMT_CFG; omega), husable, hseq,
      hseek, hopening, hfocus, hrun, hp]
  rw [harrives] at hexec
  obtain ⟨hseek', hcmds, htarget, hheads, hseq', hregs⟩ := State.seekMove_moves (s := s.began b i) (n := n)
    (k := { who := waiterOf s b, target := (valB s b i).toNat % 2 ^ 19, stage := .moving, corrections := 0
            fmt := (s.reg (R.HD_FMT_CFG n.val)).toNat, note := none })
    (p := trackP s n (s.reg (R.HD_FMT_CFG n.val)).toNat ((valB s b i).toNat % 2 ^ 19))
    ((h.headPopulated _).trans hpop) ((State.fld_congr (h.sledStatus n) _).trans hfault) ((State.flag_congr (h.sledStatus n) _).trans hcertain)
  refine ⟨_, hexec, hseek', ?_, ?_, fun m hm => (hheads m hm).trans (h.head m), State.tagged_of_seq_eq hseq', ?_⟩
  · rw [hcmds, State.sled, State.sled, show (s.began b i).motion = s.motion from s.issued_motion b i.next]
  · rw [htarget, State.clampedTarget, h.reg (by unfold R.SL_LIMIT_LO; omega), h.reg (by unfold R.SL_LIMIT_HI; omega)]
  · exact ((s.began_starts b i).2.2.mono (by simp)).trans (hregs.mono (by simp))

/-- Track-on has ended with result 0: the seek waits for an address. -/
theorem seekStep_awaits_address (head : Fin 16) (k : SeekReq) :
    Completes (.seekStep head)
      (fun s => (s.head head).seek = some k ∧ k.stage = .trackOn ∧ k.note = some 0)
      [.events, .regs, .heads, .loop, .seq, .motion]
      fun s t => t.head head = { s.head head with seek := some { k with stage := .awaitAddr s.now, note := none } } ∧ HeadsBut head s t ∧
          t.regs = s.regs ∧ t.seq = s.seq ∧ t.motion = s.motion ∧ t.loop = s.loop ∧ t.events = s.events := by
  refine Completes.of_keeps (execSeekStep_keeps head) ?_
  rintro s - ⟨hseek, hstage, hnote⟩
  have hexec : exec (.seekStep head) s =
      .next (s.modHead head fun h => { h with seek := some { k with stage := .awaitAddr s.now, note := none } }) := by
    show execSeekStep head s = _
    unfold execSeekStep
    simp only [hseek, hstage, hnote]
  exact ⟨_, hexec, State.head_modHead_self .., State.headsBut_modHead rfl _, rfl, rfl, rfl, rfl, rfl⟩

/-- A seek that ends leaves its head without it and answers. -/
theorem State.endSeek_ends (s : State) (n : Fin 16) (k : SeekReq) {result : Nat} (hr : result < 256) :
    (s.endSeek n k result).head n = { s.head n with seek := none } ∧ HeadsBut n s (s.endSeek n k result) ∧
      Posts k.who.bobbin (headEntry s n k.who result (trackReached s n)) s (s.endSeek n k result) := by
  have hheads : (s.endSeek n k result).heads = (s.modHead n fun h => { h with seek := none }).heads :=
    (State.completeHead_keeps ..).frame .heads (by decide)
  refine ⟨?_, fun m hm => ?_, State.completeHead_posts (s := s) rfl rfl n k.who hr _⟩
  · rw [State.head_congr hheads, State.head_modHead_self]
  · rw [State.head_congr hheads, s.head_modHead_other _ hm]

theorem seekStep_arrives (head : Fin 16) (k : SeekReq) (since : Stamp) (l : Nat) :
    Completes (.seekStep head)
      (fun s => (s.head head).seek = some k ∧ k.stage = .awaitAddr since ∧ s.flag (R.HD_FLY_STATUS head.val) F.HD_FLY_STATUS_ADDR_OK = true ∧
          (s.head head).fly.expected = some (l, k.target))
      [.events, .regs, .heads, .loop, .seq, .motion]
      fun s t => t.head head = { s.head head with seek := none } ∧ HeadsBut head s t ∧ Posts k.who.bobbin (headEntry s head k.who 0 k.target) s t ∧
          t.regs = s.regs ∧ t.motion = s.motion ∧ t.loop = s.loop := by
  refine Completes.of_keeps (execSeekStep_keeps head) ?_
  rintro s - ⟨hseek, hstage, hok, hexpected⟩
  have hexec : exec (.seekStep head) s = .next (s.endSeek head k 0) := by
    show execSeekStep head s = _
    unfold execSeekStep
    simp only [hseek, hstage]
    rw [when_of_true (by exact hok), State.seekCorrect, hexpected]
    dsimp only
    rw [if_pos (Int.sub_self _)]
  have hreached : trackReached s head = k.target := by
    unfold trackReached
    rw [hexpected]
  obtain ⟨hhead, hother, hposts⟩ := s.endSeek_ends head k (result := 0) (by decide)
  rw [hreached] at hposts
  have hk := s.endSeek_keeps head k 0
  exact ⟨_, hexec, hhead, hother, hposts, hk.frame .regs (by decide), hk.frame .motion (by decide), hk.frame .loop (by decide)⟩

theorem seekAddressTimeout_ends (head : Fin 16) (k : SeekReq) (since : Stamp) :
    Completes (.seekAddressTimeout head)
      (fun s => (s.head head).seek = some k ∧ k.stage = .awaitAddr since ∧ s.flag (R.HD_FLY_STATUS head.val) F.HD_FLY_STATUS_ADDR_OK = false ∧
          since + 3000000 ≤ s.now)
      [.heads, .seq]
      fun s t => t.head head = { s.head head with seek := none } ∧ HeadsBut head s t ∧
          Posts k.who.bobbin (headEntry s head k.who 2 (trackReached s head)) s t := by
  refine Completes.of_keeps (execSeekAddressTimeout_keeps head) ?_
  rintro s - ⟨hseek, hstage, hok, hlate⟩
  have hexec : exec (.seekAddressTimeout head) s = .next (s.endSeek head k 2) := by
    show execSeekAddressTimeout head s = _
    unfold execSeekAddressTimeout
    simp only [hseek, hstage]
    exact when_of_true (by simp [addrOk, hok, ticksMs, hlate]) _ _
  exact ⟨_, hexec, s.endSeek_ends head k (by decide)⟩

/-! ## The front end (R234) -/

/-- The head with a front-end request that waits and its message queued. -/
def Head.asked (h : Head) (w : Waiter) (k : FeKind) (m : Msg) (now : Stamp) : Head :=
  { h with fe := h.fe ++ [⟨w, k, now, none⟩], link := { h.link with queue := h.link.queue ++ [⟨m, now, false⟩] } }

theorem State.began_feArrives {s : State} {b : Fin 24} {i : Ins} {n : Fin 16} (husable : (s.head n).link.usable = true) (k : FeKind) (m : Msg) :
    ((s.began b i).feArrives n k m (waiterOf s b)).head n = (s.head n).asked (waiterOf s b) k m s.now ∧
      HeadsBut n s ((s.began b i).feArrives n k m (waiterOf s b)) ∧ Starts b i s ((s.began b i).feArrives n k m (waiterOf s b)) := by
  have h := s.began_headsAlike b i
  have harrives : (s.began b i).feArrives n k m (waiterOf s b) =
      ((s.began b i).modHead n fun h => { h with fe := h.fe ++ [⟨waiterOf s b, k, (s.began b i).now, none⟩] }).modLink n
        fun l => { l with queue := l.queue ++ [⟨m, (s.began b i).now, false⟩] } := by
    rw [State.feArrives, State.linkUsable, h.head, husable, State.sendMsg, State.head_modHead_self, h.head]
    simp only [husable]
    rfl
  rw [harrives]
  refine ⟨?_, fun j hj => ?_, (s.began_starts b i).of_seq_regs_eq rfl rfl⟩
  · rw [State.modLink, State.head_modHead_self, State.head_modHead_self, h.head, h.now]
    rfl
  · exact (State.head_modHead_other _ _ hj).trans (State.headsBut_modHead (s.began_heads b i) _ j hj)

theorem exec_hdSafe_begins {s : State} {b : Fin 24} {u : Upset} {i : Ins} {n : Fin 16} (hi : Issues s b u i) (hop : i.op = 0x57)
    (ha : AimsAt s b i famHD n) (hroom : (s.bob b).occupied < 32) (hfn : i.fn ≤ 1) :
    exec (.hdSafe b u) s =
      .next ((s.began b i).feArrives n (if i.fn = 0 then .safe else .resume) (if i.fn = 0 then .safe else .resume) (waiterOf s b)) := by
  have hexec := exec_begins_of_aims (c := .hdSafe b u)
    (w := fun w t => if i.fn = 0 then t.feArrives n .safe .safe w else t.feArrives n .resume .resume w) hi hop
    (.refl (execHdSafe b u s)) ha hroom (if_neg (Nat.not_lt.mpr hfn))
  rw [hexec]
  split <;> rfl

theorem hdSafe_asks (b : Fin 24) (u : Upset) (i : Ins) (n : Fin 16) :
    Completes (.hdSafe b u)
      (fun s => Issues s b u i ∧ i.op = 0x57 ∧ AimsAt s b i famHD n ∧ (s.bob b).occupied < 32 ∧ i.fn ≤ 1 ∧ (s.head n).link.usable = true)
      [.events, .regs, .heads, .seq]
      fun s t => t.head n = { s.head n with
            fe := (s.head n).fe ++ [⟨waiterOf s b, if i.fn = 0 then .safe else .resume, s.now, none⟩]
            link := { (s.head n).link with queue := (s.head n).link.queue ++ [⟨if i.fn = 0 then .safe else .resume, s.now, false⟩] } } ∧ HeadsBut n s t ∧
          Starts b i s t := by
  refine Completes.of_keeps (execHdSafe_keeps b u) ?_
  rintro s - ⟨hi, hop, ha, hroom, hfn, husable⟩
  exact ⟨_, exec_hdSafe_begins hi hop ha hroom hfn, State.began_feArrives husable _ _⟩

theorem hdSafe_no_link (b : Fin 24) (u : Upset) (i : Ins) (n : Fin 16) :
    Completes (.hdSafe b u)
      (fun s => Issues s b u i ∧ i.op = 0x57 ∧ AimsAt s b i famHD n ∧ (s.bob b).occupied < 32 ∧ i.fn ≤ 1 ∧ (s.head n).link.usable = false)
      [.events, .regs, .heads, .seq]
      fun s t => (t.bob b).arriving = (s.bob b).arriving ++ [headEntry s n (waiterOf s b) 6 0] ∧ t.heads = s.heads ∧ Tagged b i s t := by
  refine Completes.of_keeps (execHdSafe_keeps b u) ?_
  rintro s - ⟨hi, hop, ha, hroom, hfn, hlink⟩
  have hexec := exec_hdSafe_begins hi hop ha hroom hfn
  rw [State.feArrives, State.linkUsable, (s.began_headsAlike b i).head, hlink, if_pos (by rfl)] at hexec
  obtain ⟨harr, htag⟩ := s.began_answered b i n (result := 6) (by decide) 0
  exact ⟨_, hexec, harr, s.began_heads b i, htag⟩

theorem hdSafe_excepts (b : Fin 24) (u : Upset) (i : Ins) (n : Fin 16) :
    Completes (.hdSafe b u)
      (fun s => Issues s b u i ∧ i.op = 0x57 ∧ AimsAt s b i famHD n ∧ 2 ≤ i.fn)
      [.events, .regs, .heads, .seq]
      fun s t => Excepts b i 6 i.word s t ∧ t.heads = s.heads := by
  refine Completes.of_keeps (execHdSafe_keeps b u) ?_
  rintro s - ⟨hi, hop, ha, hfn⟩
  exact ⟨_, exec_excepts_of_aims (c := .hdSafe b u) (e := 6) hi hop (.refl (execHdSafe b u s)) ha (by decide) (if_pos hfn),
    s.takeException_excepts b i 6 _ (by decide),
    ((State.takeException_keeps ..).frame .heads (by decide)).trans (s.issued_heads b i.next)⟩

theorem hdFewr_asks (b : Fin 24) (u : Upset) (i : Ins) (n : Fin 16) :
    Completes (.hdFewr b u)
      (fun s => Issues s b u i ∧ i.op = 0x58 ∧ AimsAt s b i famHD n ∧ (s.bob b).occupied < 32 ∧ (s.head n).link.usable = true)
      [.events, .regs, .heads, .seq]
      fun s t => t.head n = { s.head n with
            fe := (s.head n).fe ++ [⟨waiterOf s b, .write, s.now, none⟩]
            link := { (s.head n).link with queue := (s.head n).link.queue ++
              [⟨.fewr ((valB s b i).toNat % 65536) ((valB s b i).toNat / 2 ^ 32), s.now, false⟩] } } ∧ HeadsBut n s t ∧ Starts b i s t := by
  refine Completes.of_keeps (execHdFewr_keeps b u) ?_
  rintro s - ⟨hi, hop, ha, hroom, husable⟩
  have hexec := exec_begins_of_aims (c := .hdFewr b u)
    (w := fun w t => t.feArrives n .write (.fewr ((valB s b i).toNat % 65536) ((valB s b i).toNat / 2 ^ 32)) w) hi hop
    (.refl (execHdFewr b u s)) ha hroom (by rw [State.g_issued_rb (fetchIns_ext hi.2.1 (by rw [hop]; rfl))])
  exact ⟨_, hexec, State.began_feArrives husable _ _⟩

theorem hdFerd_asks (b : Fin 24) (u : Upset) (i : Ins) (n : Fin 16) :
    Completes (.hdFerd b u)
      (fun s => Issues s b u i ∧ i.op = 0x59 ∧ AimsAt s b i famHD n ∧ (s.bob b).occupied < 32 ∧ (s.head n).link.usable = true)
      [.events, .regs, .heads, .seq]
      fun s t => t.head n = { s.head n with
            fe := (s.head n).fe ++ [⟨waiterOf s b, .read, s.now, none⟩]
            link := { (s.head n).link with queue := (s.head n).link.queue ++ [⟨.ferd ((valB s b i).toNat % 65536), s.now, false⟩] } } ∧
          HeadsBut n s t ∧ Starts b i s t := by
  refine Completes.of_keeps (execHdFerd_keeps b u) ?_
  rintro s - ⟨hi, hop, ha, hroom, husable⟩
  have hexec := exec_begins_of_aims (c := .hdFerd b u)
    (w := fun w t => t.feArrives n .read (.ferd ((valB s b i).toNat % 65536)) w) hi hop
    (.refl (execHdFerd b u s)) ha hroom (by rw [State.g_issued_rb (fetchIns_ext hi.2.1 (by rw [hop]; rfl))])
  exact ⟨_, hexec, State.began_feArrives husable _ _⟩

theorem frontEndReplyTimeout_ends (head : Fin 16) (f : FeReq) (rest : List FeReq) :
    Completes (.frontEndReplyTimeout head)
      (fun s => (s.head head).fe = f :: rest ∧ f.since + 1500000 ≤ s.now)
      [.heads, .seq]
      fun s t => t.head head = { s.head head with fe := rest } ∧ HeadsBut head s t ∧ Posts f.who.bobbin (headEntry s head f.who 3 0) s t := by
  refine Completes.of_keeps (execFrontEndReplyTimeout_keeps head) ?_
  rintro s - ⟨hfe, hlate⟩
  have hexec : exec (.frontEndReplyTimeout head) s =
      .next ((s.modHead head fun h => { h with fe := rest }).completeHead head f.who 3 0) := by
    show execFrontEndReplyTimeout head s = _
    unfold execFrontEndReplyTimeout
    rw [hfe]
    exact when_of_true (by simp [ticksMs, hlate]) _ _
  refine ⟨_, hexec, ?_, fun m hm => ?_, State.completeHead_posts (s := s) rfl rfl head f.who (by decide) _⟩
  · rw [State.head_congr ((State.completeHead_keeps ..).frame .heads (by decide)), State.head_modHead_self]
  · rw [State.head_congr ((State.completeHead_keeps ..).frame .heads (by decide)), s.head_modHead_other _ hm]

/-! ## Readings (R234, Table 10-8) -/

theorem hdHk_reads (b : Fin 24) (u : Upset) (i : Ins) (n : Fin 16) (v : Nat) (x : Stamp) :
    Completes (.hdHk b u)
      (fun s => Issues s b u i ∧ i.op = 0x5A ∧ AimsAt s b i famHD n ∧ (s.head n).link.hk.lookup ((valB s b i).toNat % 256) = some (v, x))
      [.events, .regs, .seq]
      fun s t => WritesRd b i (BitVec.ofNat 64 (2 ^ 63 + v % 2 ^ 40)) s t ∧ t.events = s.events := by
  refine Completes.of_keeps (execHdHk_keeps b u) ?_
  rintro s - ⟨hi, hop, ha, hitem⟩
  have hexec := exec_ok_of_aims (c := .hdHk b u) (t := (s.issued b i.next).setG b i.rd (2 ^ 63 + v % 2 ^ 40)) hi hop (.refl (execHdHk b u s)) ha (by
    rw [State.g_issued_rb (fetchIns_ext hi.2.1 (by rw [hop]; rfl)), (s.issued_headsAlike b i.next).head, hitem])
  exact ⟨_, hexec, (s.issued_becomes b i).setG _ _, s.issued_events b i.next⟩

theorem hdHk_finds_none (b : Fin 24) (u : Upset) (i : Ins) (n : Fin 16) :
    Completes (.hdHk b u)
      (fun s => Issues s b u i ∧ i.op = 0x5A ∧ AimsAt s b i famHD n ∧ (s.head n).link.hk.lookup ((valB s b i).toNat % 256) = none)
      [.events, .regs, .seq]
      fun s t => WritesRd b i 0 s t ∧ t.events = s.events := by
  refine Completes.of_keeps (execHdHk_keeps b u) ?_
  rintro s - ⟨hi, hop, ha, hitem⟩
  have hexec := exec_ok_of_aims (c := .hdHk b u) (t := (s.issued b i.next).setG b i.rd 0) hi hop (.refl (execHdHk b u s)) ha (by
    rw [State.g_issued_rb (fetchIns_ext hi.2.1 (by rw [hop]; rfl)), (s.issued_headsAlike b i.next).head, hitem])
  exact ⟨_, hexec, (s.issued_becomes b i).setG _ _, s.issued_events b i.next⟩

/-- The status word of a head with a pass open and its link UP. -/
theorem headStat_of_pass {s : State} {n : Fin 16} {p : Pass} (hp : (s.head n).pass = some p) (hup : (s.head n).link.state = .up) :
    headStat s n = 2 + 8 * bitOf (s.aligned n) + 16 * bitOf (flyReady s n) +
      32 * bitOf (s.flag (R.HD_FLY_STATUS n.val) F.HD_FLY_STATUS_ADDR_OK) + 64 + 128 * bitOf p.hem.isSome +
      256 * bitOf (s.loopHead n).seq.isSome + 512 * bitOf (s.hdLen n) + 2 ^ 16 * (s.head n).passNo + 2 ^ 32 * trackReached s n +
      2 ^ 51 * focusLayer s n := by
  unfold headStat trackReached addrOk
  simp only [hp, hup]
  rfl

theorem hdStat_reads (b : Fin 24) (u : Upset) (i : Ins) (n : Fin 16) (p : Pass) :
    Completes (.hdStat b u)
      (fun s => Issues s b u i ∧ i.op = 0x5B ∧ AimsAt s b i famHD n ∧ (s.head n).pass = some p ∧ (s.head n).link.state = .up)
      [.events, .regs, .seq]
      fun s t => WritesRd b i (BitVec.ofNat 64 (2 + 8 * bitOf (s.aligned n) + 16 * bitOf (flyReady s n) +
            32 * bitOf (s.flag (R.HD_FLY_STATUS n.val) F.HD_FLY_STATUS_ADDR_OK) + 64 + 128 * bitOf p.hem.isSome +
            256 * bitOf (s.loopHead n).seq.isSome + 512 * bitOf (s.hdLen n) + 2 ^ 16 * (s.head n).passNo + 2 ^ 32 * trackReached s n +
            2 ^ 51 * focusLayer s n)) s t ∧ t.events = s.events := by
  refine Completes.of_keeps (execHdStat_keeps b u) ?_
  rintro s - ⟨hi, hop, ha, hp, hup⟩
  have hexec := exec_ok_of_aims (c := .hdStat b u) (t := (s.issued b i.next).setG b i.rd (headStat s n)) hi hop (.refl (execHdStat b u s)) ha (by
    rw [(s.issued_headsAlike b i.next).headStat])
  rw [headStat_of_pass hp hup] at hexec
  exact ⟨_, hexec, (s.issued_becomes b i).setG _ _, s.issued_events b i.next⟩

theorem hdStat_out_of_service (b : Fin 24) (u : Upset) (i : Ins) (n : Fin 16) :
    Completes (.hdStat b u)
      (fun s => Issues s b u i ∧ i.op = 0x5B ∧ s.capBit b famHD = true ∧ (valA s b i).toNat = n.val ∧ s.capBit b (16 + n.val) = true ∧ s.headInService n.val = false)
      [.events, .regs, .seq]
      fun s t => Excepts b i 3 i.word s t := by
  refine Completes.of_keeps (execHdStat_keeps b u) ?_
  rintro s - ⟨hi, hop, hfam, hv, hcap, hserv⟩
  have hexec := exec_excepts_of_issues (c := .hdStat b u) (e := 3) hi hop (by decide)
    (f := fun i t => t.headChecks b famHD (t.g b i.ra) fun n => .ok (t.setG b i.rd (headStat t n))) rfl (by
    rw [s.g_issued_ra, hv]
    simp [State.headChecks, State.issued_capBit, hfam, hcap, (s.issued_headsAlike b i.next).headInService, hserv])
  exact ⟨_, hexec, s.takeException_excepts b i 3 _ (by decide)⟩

/-- Settles O48: the head instructions, one lemma per outcome. -/
theorem headInstructions : Obligations.HeadInstructions :=
  ⟨hdOpen_joins_hem, hdOpen_claims, hdOpen_zeros, hdOpen_outside, hdHem_joins, hdHem_finds_none, hdSeek_moves, seekStep_awaits_address,
    seekStep_arrives, seekAddressTimeout_ends, hdSafe_asks, hdSafe_no_link, hdSafe_excepts, hdFewr_asks, hdFerd_asks,
    frontEndReplyTimeout_ends, hdHk_reads, hdHk_finds_none, hdStat_reads, hdStat_out_of_service⟩

end Sys2Proof.Machine
end

section
/-!
PROOFS. The layer of the host island (R259, R266 to R283): its queues and commands by their keys, what a decided completion
leaves, and the functions. Used by the statements of host control.
-/

namespace Sys2Proof.Machine

/-! ## Queues and commands by their keys -/

theorem find?_map_congr {α : Type} {p : α → Bool} {f : α → α} (h : ∀ x, p (f x) = p x) (l : List α) :
    (l.map f).find? p = (l.find? p).map f := by
  rw [List.find?_map, show p ∘ f = p from funext h]

/-- The queue with a key, where a change of it keeps the key. -/
theorem State.sq_modSq (s : State) (fn qid : Nat) (f : SubQ → SubQ) (hf : ∀ q, (f q).fn = q.fn ∧ (f q).qid = q.qid) :
    (s.modSq fn qid f).sq fn qid = (s.sq fn qid).map f := by
  unfold State.sq State.modSq State.modHost
  dsimp only
  rw [find?_map_congr]
  · cases h : s.host.sqs.find? fun q => q.fn == fn && q.qid == qid with
    | none => rfl
    | some q =>
      have hq := List.find?_some h
      simp only [Bool.and_eq_true, beq_iff_eq] at hq
      rw [Option.map_some, Option.map_some, if_pos hq]
  · intro q
    split <;> simp [hf]

theorem State.cq_modCq (s : State) (fn qid : Nat) (f : CmpQ → CmpQ) (hf : ∀ q, (f q).fn = q.fn ∧ (f q).qid = q.qid) :
    (s.modCq fn qid f).cq fn qid = (s.cq fn qid).map f := by
  unfold State.cq State.modCq State.modHost
  dsimp only
  rw [find?_map_congr]
  · cases h : s.host.cqs.find? fun q => q.fn == fn && q.qid == qid with
    | none => rfl
    | some q =>
      have hq := List.find?_some h
      simp only [Bool.and_eq_true, beq_iff_eq] at hq
      rw [Option.map_some, Option.map_some, if_pos hq]
  · intro q
    split <;> simp [hf]

theorem State.cmdOf_congr {s t : State} (h : t.host.cmds = s.host.cmds) (x : Stamp) : t.cmdOf x = s.cmdOf x := by
  unfold State.cmdOf
  rw [h]

theorem State.cmdOf_stamp {s : State} {x : Stamp} {c : HostCmd} (h : s.cmdOf x = some c) : c.stamp = x := by
  simpa using List.find?_some h

theorem State.cmdOf_mem {s : State} {x : Stamp} {c : HostCmd} (h : s.cmdOf x = some c) : c ∈ s.host.cmds := List.mem_of_find?_eq_some h

/-- The command with a stamp, where a change of one keeps the stamps. -/
theorem State.cmdOf_modCmd (s : State) (x y : Stamp) (f : HostCmd → HostCmd) (hf : ∀ c, (f c).stamp = c.stamp) :
    (s.modCmd x f).cmdOf y = (s.cmdOf y).map fun c => if c.stamp = x then f c else c := by
  unfold State.cmdOf State.modCmd State.modHost
  refine find?_map_congr (fun c => ?_) _
  split <;> simp [hf]

theorem State.cmdOf_modCmd_self {s : State} {x : Stamp} {c : HostCmd} (h : s.cmdOf x = some c) (f : HostCmd → HostCmd)
    (hf : ∀ c, (f c).stamp = c.stamp) : (s.modCmd x f).cmdOf x = some (f c) := by
  rw [s.cmdOf_modCmd x x f hf, h, Option.map_some, if_pos (State.cmdOf_stamp h)]

theorem State.cmdOf_modCmd_other {s : State} {x y : Stamp} (h : y ≠ x) (f : HostCmd → HostCmd) (hf : ∀ c, (f c).stamp = c.stamp) :
    (s.modCmd x f).cmdOf y = s.cmdOf y := by
  rw [s.cmdOf_modCmd x y f hf]
  cases hc : s.cmdOf y with
  | none => rfl
  | some c => rw [Option.map_some, if_neg (by rw [State.cmdOf_stamp hc]; exact h)]

/-- What a command is known by: its stamp and its function. -/
def State.cmdIds (s : State) : List (Stamp × Nat) := s.host.cmds.map fun c => (c.stamp, c.fn)

theorem State.modCmd_ids (s : State) (x : Stamp) (f : HostCmd → HostCmd) (hf : ∀ c, (f c).stamp = c.stamp ∧ (f c).fn = c.fn) :
    (s.modCmd x f).cmdIds = s.cmdIds := by
  unfold State.cmdIds State.modCmd State.modHost
  rw [List.map_map]
  refine List.map_congr_left fun c _ => ?_
  simp only [Function.comp]
  split <;> simp [hf]

theorem State.forall_cmds_of_ids {s t : State} (h : t.cmdIds = s.cmdIds) {P : Stamp × Nat → Prop} (hs : ∀ c ∈ s.host.cmds, P (c.stamp, c.fn)) :
    ∀ c ∈ t.host.cmds, P (c.stamp, c.fn) := by
  intro c hc
  have hmem : (c.stamp, c.fn) ∈ s.cmdIds := h ▸ List.mem_map_of_mem (f := fun c : HostCmd => (c.stamp, c.fn)) hc
  obtain ⟨d, hd, heq⟩ := List.mem_map.mp hmem
  exact heq ▸ hs d hd

/-! ## Functions -/

theorem State.mem_functions_iff (s : State) (f : Fin 2) : f ∈ s.functions ↔ f = 0 ∨ s.boot.bifurcated = true := by
  unfold State.functions
  split <;> fin_cases f <;> simp [*]

theorem State.functions_congr {s t : State} (h : t.boot = s.boot) : t.functions = s.functions := by
  unfold State.functions
  rw [h]

theorem State.fnOf_congr {s t : State} (h : t.host.fns = s.host.fns) (k : Nat) : t.fnOf k = s.fnOf k := by
  unfold State.fnOf
  rw [h]

theorem State.fnOf_modFn (s : State) (j k : Fin 2) (f : FnState → FnState) :
    (s.modFn j.val f).fnOf k.val = if k = j then f (s.fnOf j.val) else s.fnOf k.val := by
  split
  · subst k
    exact s.fnOf_modFn_self j.val f
  · exact s.fnOf_modFn_other f (by omega)

/-! ## A completion that is decided (R269, R282) -/

theorem State.recordError_eq (s : State) (c : HostCmd) (status dw0 : Nat) :
    (s.recordError c status dw0).host = { s.host with fns := (s.recordError c status dw0).host.fns } := by
  unfold State.recordError
  split <;> rfl

theorem State.recordError_cmds (s : State) (c : HostCmd) (status dw0 : Nat) : (s.recordError c status dw0).host.cmds = s.host.cmds := by
  rw [State.recordError_eq]

theorem State.recordError_none {s : State} {c : HostCmd} {status : Nat} (h : status = 0 ∨ status = stAborted) (dw0 : Nat) :
    s.recordError c status dw0 = s := if_pos h

/-- A decided or an unknown command is left. -/
theorem State.conclude_of_none {s : State} {x : Stamp} (h : s.cmdOf x = none) (status dw0 : Nat) (bytes : List Nat) :
    s.conclude x status dw0 bytes = s := by
  rw [State.conclude, h]

theorem State.conclude_of_decided {s : State} {x : Stamp} {c : HostCmd} {d : Decision} (h : s.cmdOf x = some c) (hd : c.decided = some d)
    (status dw0 : Nat) (bytes : List Nat) : s.conclude x status dw0 bytes = s := by
  rw [State.conclude, h]
  exact if_pos (by rw [hd]; rfl)

/-- An open completion is decided. -/
theorem State.conclude_of_open {s : State} {x : Stamp} {c : HostCmd} (h : s.cmdOf x = some c) (hopen : c.decided = none)
    (status dw0 : Nat) (bytes : List Nat) :
    s.conclude x status dw0 bytes = (((s.recordError c status dw0).releaseBands x).modCmd x fun c =>
      c.concluded status (if status = stUnrecovered then 0 else dw0) bytes s.host.nextSeq).modHost fun h => { h with nextSeq := h.nextSeq + 1 } := by
  have hseq : ((s.recordError c status dw0).releaseBands x).host.nextSeq = s.host.nextSeq := by
    show (s.recordError c status dw0).host.nextSeq = _
    rw [State.recordError_eq]
  rw [State.conclude, h]
  dsimp only
  rw [if_neg (by rw [hopen]; decide), hseq]
  rfl

/-- Every completion is left, or open and decided. -/
theorem State.conclude_cases (s : State) (x : Stamp) (status dw0 : Nat) (bytes : List Nat) :
    s.conclude x status dw0 bytes = s ∨ ∃ c, s.cmdOf x = some c ∧ c.decided = none := by
  cases h : s.cmdOf x with
  | none => exact .inl (State.conclude_of_none h ..)
  | some c =>
    cases hd : c.decided with
    | none => exact .inr ⟨c, rfl, hd⟩
    | some d => exact .inl (State.conclude_of_decided h hd ..)

theorem State.conclude_cmdOf {s : State} {x : Stamp} {c : HostCmd} (h : s.cmdOf x = some c) (hopen : c.decided = none)
    (status dw0 : Nat) (bytes : List Nat) :
    (s.conclude x status dw0 bytes).cmdOf x =
      some (c.concluded status (if status = stUnrecovered then 0 else dw0) bytes s.host.nextSeq) := by
  rw [State.conclude_of_open h hopen]
  exact State.cmdOf_modCmd_self ((State.cmdOf_congr (s.recordError_cmds c status dw0) x).trans h) _ fun _ => rfl

/-- A command that is decided stays as it is, whatever else is decided. -/
theorem State.conclude_keeps_decided {s : State} {x : Stamp} {c : HostCmd} {d : Decision} (hc : s.cmdOf x = some c) (hd : c.decided = some d)
    (y : Stamp) (status dw0 : Nat) (bytes : List Nat) : (s.conclude y status dw0 bytes).cmdOf x = some c := by
  obtain heq | ⟨e, he, hopen⟩ := s.conclude_cases y status dw0 bytes
  · rw [heq, hc]
  · have hne : x ≠ y := by
      rintro rfl
      rw [hc] at he
      cases he
      rw [hd] at hopen
      cases hopen
    rw [State.conclude_of_open he hopen]
    refine (State.cmdOf_modCmd_other hne _ ?_).trans ((State.cmdOf_congr (s.recordError_cmds e status dw0) x).trans hc)
    exact fun _ => rfl

/-- Of the host island a decided completion changes the commands, the functions' errors, and the place in the order of
deciding. -/
theorem State.conclude_host (s : State) (x : Stamp) (status dw0 : Nat) (bytes : List Nat) :
    (s.conclude x status dw0 bytes).host = { s.host with
      cmds := (s.conclude x status dw0 bytes).host.cmds, fns := (s.conclude x status dw0 bytes).host.fns
      nextSeq := (s.conclude x status dw0 bytes).host.nextSeq } := by
  obtain heq | ⟨c, hc, hopen⟩ := s.conclude_cases x status dw0 bytes
  · rw [heq]
  · rw [State.conclude_of_open hc hopen]
    have h := s.recordError_eq c status dw0
    unfold State.modHost State.modCmd State.modHost State.releaseBands State.modDec
    dsimp only
    rw [h]

theorem State.conclude_ids (s : State) (x : Stamp) (status dw0 : Nat) (bytes : List Nat) :
    (s.conclude x status dw0 bytes).cmdIds = s.cmdIds := by
  obtain heq | ⟨c, hc, hopen⟩ := s.conclude_cases x status dw0 bytes
  · rw [heq]
  · rw [State.conclude_of_open hc hopen]
    refine (State.modCmd_ids _ x _ ?_).trans (congrArg (List.map fun c : HostCmd => (c.stamp, c.fn)) (s.recordError_cmds c status dw0))
    exact fun _ => ⟨rfl, rfl⟩

/-- With success, or where it was aborted, no error is recorded. -/
theorem State.conclude_fns {s : State} {status : Nat} (h : status = 0 ∨ status = stAborted) (x : Stamp) (dw0 : Nat) (bytes : List Nat) :
    (s.conclude x status dw0 bytes).host.fns = s.host.fns := by
  unfold State.conclude
  split
  · rfl
  · split
    · rfl
    · dsimp only
      rw [State.recordError_none h]
      rfl

end Sys2Proof.Machine
end

section
/-!
PROOFS. Doorbells, range locks, snip requests, interrupts and DMA errors of the host island (R259, R268 to R271, R276, R282), and
the answers to configuration requests and on the SMBus (R256, R284, R349): one lemma per outcome.
-/

namespace Sys2Proof.Machine

theorem when_of_false {c : Bool} (h : c = false) (s t : State) : when c s t = .next s := by
  subst h
  rfl

theorem Frame.refl (P : List Part) (s : State) : Frame P s s := (Keeps.refl P s).frame

/-- A command that leaves every such state as it is. -/
theorem Completes.of_unchanged {c : Instr} {pre : State → Prop} (h : ∀ s, pre s → exec c s = .next s) :
    Completes c pre [] fun _ _ => True :=
  fun s _ hp => ⟨s, h s hp, Frame.refl _ s, trivial⟩

/-! ## Doorbells (R259, R277) -/

theorem sqTailDoorbell_moves (fn : Fin 2) (qid : Nat) (tail : Nat) (q : SubQ) :
    Completes (.sqTailDoorbell fn qid tail)
      (fun s => s.doorbells fn.val = true ∧ s.sq fn.val qid = some q ∧ tail < q.size)
      [.host]
      fun s t => t.sq fn.val qid = some { q with tail := tail } ∧
          t.host = { s.host with sqs := s.host.sqs.map fun x => if x.fn = fn.val ∧ x.qid = qid then (if tail < x.size then { x with tail := tail } else x) else x } := by
  refine Completes.of_keeps (execSqTailDoorbell_keeps fn qid tail) ?_
  rintro s - ⟨hon, hq, hin⟩
  refine ⟨_, when_of_true hon _ _, ?_, rfl⟩
  rw [State.sq_modSq, hq, Option.map_some, if_pos hin]
  intro x
  split <;> exact ⟨rfl, rfl⟩

theorem sqTailDoorbell_disabled (fn : Fin 2) (qid : Nat) (tail : Nat) :
    Completes (.sqTailDoorbell fn qid tail) (fun s => s.enabled fn.val = false) [] fun _ _ => True :=
  Completes.of_unchanged fun s h => when_of_false (by rw [State.doorbells, h]; rfl) _ _

theorem cqHeadDoorbell_moves (fn : Fin 2) (qid : Nat) (head : Nat) (q : CmpQ) :
    Completes (.cqHeadDoorbell fn qid head)
      (fun s => s.doorbells fn.val = true ∧ s.cq fn.val qid = some q ∧ head < q.size)
      [.host]
      fun s t => t.cq fn.val qid = some { q with head := head } ∧ t.host.sqs = s.host.sqs ∧ t.host.cmds = s.host.cmds := by
  refine Completes.of_keeps (execCqHeadDoorbell_keeps fn qid head) ?_
  rintro s - ⟨hon, hq, hin⟩
  refine ⟨_, when_of_true hon _ _, ?_, rfl, rfl⟩
  rw [State.cq_modCq, hq, Option.map_some, if_pos hin]
  intro x
  split <;> exact ⟨rfl, rfl⟩

/-! ## Range locks and data (R268, R271) -/

theorem rangeLockGrant_grants (slot : Fin 8192) (idx : Nat) (c : HostCmd) (r : LockReq) :
    Completes (.rangeLockGrant slot idx)
      (fun s => s.cmdAt slot.val = some c ∧ (s.host.locks.filter fun x => x.slot == slot.val)[idx]? = some r ∧ r.granted = false ∧
          (∀ x ∈ s.host.locks, x.stamp < r.stamp → x.conflicts r = false) ∧ s.runAheadUnder c = false)
      [.host]
      fun s t => t.host = { s.host with locks := s.host.locks.map fun x => if x = r then { x with granted := true } else x } := by
  refine Completes.of_keeps (execRangeLockGrant_keeps slot idx) ?_
  rintro s - ⟨hc, hr, hungranted, hfree, hbands⟩
  have hwaits : (s.host.locks.any fun x => decide (x.stamp < r.stamp) && x.conflicts r) = false := by
    rw [List.any_eq_false]
    intro x hx h
    simp only [Bool.and_eq_true, decide_eq_true_eq] at h
    rw [hfree x hx h.1] at h
    cases h.2
  have hexec : exec (.rangeLockGrant slot idx) s = .next (s.modHost fun h => { h with
      locks := h.locks.map fun (x : LockReq) => if x = r then { x with granted := true } else x }) := by
    show execRangeLockGrant slot idx s = _
    unfold execRangeLockGrant
    simp only [hc, hr]
    exact when_of_true (by rw [hungranted, hwaits, hbands]; rfl) _ _
  exact ⟨_, hexec, rfl⟩

theorem rangeLockGrant_waits (slot : Fin 8192) (idx : Nat) (r x : LockReq) :
    Completes (.rangeLockGrant slot idx)
      (fun s => (s.host.locks.filter fun x => x.slot == slot.val)[idx]? = some r ∧ x ∈ s.host.locks ∧ x.stamp < r.stamp ∧ x.conflicts r = true)
      [] fun _ _ => True := by
  refine Completes.of_unchanged fun s ⟨hr, hx, hearlier, hconflict⟩ => ?_
  have hwaits : (s.host.locks.any fun x => decide (x.stamp < r.stamp) && x.conflicts r) = true :=
    List.any_eq_true.mpr ⟨x, hx, by simp only [decide_eq_true hearlier, hconflict, Bool.and_self]⟩
  show execRangeLockGrant slot idx s = _
  unfold execRangeLockGrant
  rw [hr]
  cases s.cmdAt slot.val with
  | none => rfl
  | some c => exact when_of_false (by rw [hwaits]; simp) _ _

theorem writeDataArrived_completes (slot : Fin 8192) (data : List Byte) (c : HostCmd) :
    Completes (.writeDataArrived slot data)
      (fun s => s.cmdAt slot.val = some c ∧ s.cmdOf c.stamp = some c ∧ c.dataDue = true ∧
          (if c.kind = .write then data.length = 4096 * c.nlb else data.length ≤ 0x40000))
      [.events, .regs, .mem, .host, .out]
      fun s t => t.cmdOf c.stamp = some { c with dataDue := false } ∧ t.mem = (s.memWrite 6 (s.dataArea slot.val) (data.map (·.toNat))).mem := by
  refine Completes.of_keeps (execWriteDataArrived_keeps slot data) ?_
  rintro s - ⟨hat, hof, hdue, hfits⟩
  have hfits' : (if c.kind = .write then decide (data.length = 4096 * c.nlb) else decide (data.length ≤ 0x40000)) = true := by
    split at hfits <;> simp [*]
  have hexec : exec (.writeDataArrived slot data) s = .next ((s.memWrite 6 (s.dataArea slot.val) (data.map (·.toNat))).modCmd c.stamp
      fun c => { c with dataDue := false }) := by
    show execWriteDataArrived slot data s = _
    unfold execWriteDataArrived
    rw [hat]
    exact when_of_true (by rw [hfits', hdue]; rfl) _ _
  have hhost : (s.memWrite 6 (s.dataArea slot.val) (data.map (·.toNat))).host = s.host := (State.memWrite_keeps ..).frame .host (by decide)
  exact ⟨_, hexec, State.cmdOf_modCmd_self ((State.cmdOf_congr (congrArg HostState.cmds hhost) _).trans hof) _ fun _ => rfl, rfl⟩

/-! ## Interrupts and DMA errors (R269, R282) -/

theorem interruptCoalescingTime_sends (fn : Fin 2) (qid : Nat) (q : CmpQ) :
    Completes (.interruptCoalescingTime fn qid)
      (fun s => s.cq fn.val qid = some q ∧ q.heldN ≠ 0 ∧ q.heldSince + s.feature fn.val 8 0 / 256 % 256 * 150000 ≤ s.now)
      [.msix, .host, .out]
      fun s t => t.cq fn.val qid = some { q with heldN := 0 } ∧ t.out = (s.sendVector fn q.iv).out ∧ t.msix = (s.sendVector fn q.iv).msix ∧
          t.host.cmds = s.host.cmds ∧ t.host.sqs = s.host.sqs := by
  refine Completes.of_keeps (execInterruptCoalescingTime_keeps fn qid) ?_
  rintro s - ⟨hq, hheld, hdue⟩
  have hexec : exec (.interruptCoalescingTime fn qid) s =
      .next ((s.sendVector fn q.iv).modCq fn.val qid fun x => { x with heldN := 0 }) := by
    show execInterruptCoalescingTime fn qid s = _
    unfold execInterruptCoalescingTime
    rw [hq]
    exact when_of_true (by simp [hheld, hdue]) _ _
  have hhost : (s.sendVector fn q.iv).host = s.host := (State.sendVector_keeps ..).frame .host (by decide)
  refine ⟨_, hexec, ?_, rfl, rfl, ?_, ?_⟩
  · rw [State.cq_modCq, State.cq, hhost, ← State.cq, hq]
    · rfl
    · exact fun _ => ⟨rfl, rfl⟩
  · show (s.sendVector fn q.iv).host.cmds = _
    rw [hhost]
  · show (s.sendVector fn q.iv).host.sqs = _
    rw [hhost]

/-- An order that ends leaves its command, and a notice where a bobbin had taken it. -/
theorem State.dropOrder_host (s : State) (c : HostCmd) :
    (s.dropOrder c).host = { (s.modCmd c.stamp fun c => { c with order := .returned, dataDue := false }).host with
      notices := (s.dropOrder c).host.notices } := by
  unfold State.dropOrder
  cases c.order with
  | taken b =>
    dsimp only
    rw [(State.announceOrders_keeps _).frame .host (by decide)]
    rfl
  | notIssued => rfl
  | queued => rfl
  | returned => rfl

/-- The end of a Firmware Commit's work leaves the commands. -/
theorem State.dropCommit_host (s : State) (x : Stamp) :
    (s.dropCommit x).host = { s.host with commit := (s.dropCommit x).host.commit, pieces := (s.dropCommit x).host.pieces } := by
  unfold State.dropCommit
  split
  · split <;> rfl
  · rfl

/-- What the end of a command's order and of its commit's work leave of the commands. -/
theorem State.dropped_host (s : State) (c : HostCmd) :
    ((s.dropOrder c).dropCommit c.stamp).host.cmds =
        (s.modCmd c.stamp fun c => { c with order := .returned, dataDue := false }).host.cmds ∧
      ((s.dropOrder c).dropCommit c.stamp).host.nextSeq = s.host.nextSeq ∧ ((s.dropOrder c).dropCommit c.stamp).host.fns = s.host.fns := by
  rw [State.dropCommit_host, State.dropOrder_host]
  exact ⟨rfl, rfl, rfl⟩

theorem State.dropped_cmdOf {s : State} {c : HostCmd} (h : s.cmdOf c.stamp = some c) :
    ((s.dropOrder c).dropCommit c.stamp).cmdOf c.stamp = some { c with order := .returned, dataDue := false } :=
  (State.cmdOf_congr (s.dropped_host c).1 _).trans (State.cmdOf_modCmd_self h _ fun _ => rfl)

/-- A command that ends: its order is withdrawn or noticed, and its completion decided (R275). -/
theorem State.endCommand_cmdOf {s : State} {c : HostCmd} (h : s.cmdOf c.stamp = some c) (hopen : c.decided = none) (status : Nat) :
    (s.endCommand c status).cmdOf c.stamp =
      some (HostCmd.concluded { c with order := .returned, dataDue := false } status 0 [] s.host.nextSeq) := by
  rw [State.endCommand, State.conclude_cmdOf (State.dropped_cmdOf h) hopen, (s.dropped_host c).2.1, ite_self]

theorem pcieDmaError_ends (slot : Fin 8192) (c : HostCmd) :
    Completes (.pcieDmaError slot)
      (fun s => s.cmdAt slot.val = some c ∧ s.cmdOf c.stamp = some c ∧ c.decided = none ∧ c.hasPtr = true ∧ (c.order = .notIssued ∨ c.order = .queued))
      [.host, .decode, .sec]
      fun s t => t.cmdOf c.stamp = some (HostCmd.concluded { c with order := .returned, dataDue := false } stTransfer 0 [] s.host.nextSeq) := by
  rintro s - ⟨hat, hof, hopen, hptr, horder⟩
  have hexec : exec (.pcieDmaError slot) s = .next (s.endCommand c stTransfer) := by
    show execPcieDmaError slot s = _
    unfold execPcieDmaError
    simp only [hat, hopen]
    exact when_of_true hptr _ _
  have hdrop : s.dropOrder c = s.modCmd c.stamp fun c => { c with order := .returned, dataDue := false } := by
    unfold State.dropOrder
    obtain horder | horder := horder <;> rw [horder]
  refine ⟨_, hexec, Keeps.frame ?_, State.endCommand_cmdOf hof hopen stTransfer⟩
  rw [State.endCommand, hdrop]
  exact Keeps.step (State.conclude_keeps ..) rfl (Keeps.step (State.dropCommit_keeps ..) rfl (Keeps.mono (State.modCmd_keeps ..) rfl))

theorem pcieDmaError_replaces (slot : Fin 8192) (c : HostCmd) (d : Decision) :
    Completes (.pcieDmaError slot)
      (fun s => s.cmdAt slot.val = some c ∧ s.cmdOf c.stamp = some c ∧ c.decided = some d ∧ d.status = 0 ∧ c.hasPtr = true)
      [.host]
      fun _ t => t.cmdOf c.stamp = some { c with decided := some { d with status := stTransfer, bytes := [] } } := by
  rintro s - ⟨hat, hof, hd, hstatus, hptr⟩
  have hexec : exec (.pcieDmaError slot) s = .next ((s.recordError c stTransfer 0).modCmd c.stamp fun c =>
      { c with decided := some { d with status := stTransfer, bytes := [] } }) := by
    show execPcieDmaError slot s = _
    unfold execPcieDmaError
    simp only [hat, hd]
    exact when_of_true (by simp [hptr, hstatus]) _ _
  refine ⟨_, hexec, Keeps.frame (Keeps.step (State.modCmd_keeps ..) rfl (Keeps.mono (State.recordError_keeps ..) rfl)), ?_⟩
  exact State.cmdOf_modCmd_self ((State.cmdOf_congr (s.recordError_cmds c stTransfer 0) _).trans hof) _ fun _ => rfl

/-! ## The snip window (R274, R276) -/

theorem snipRequest_queues (fn : Fin 2) (sqid cid : Fin 65536) :
    Completes (.snipRequest fn sqid cid)
      (fun s => (s.fnOf fn.val).snips.length < 64)
      [.host]
      fun s t => t.fnOf fn.val = { s.fnOf fn.val with snips := (s.fnOf fn.val).snips ++
              [⟨sqid.val, cid.val, s.stamp .host, (s.abortLook fn.val sqid.val cid.val).2.map fun x => (x.stamp, x.slot),
                (s.abortLook fn.val sqid.val cid.val).1.code⟩] } ∧
          t.host.cmds = s.host.cmds ∧ (∀ k : Fin 2, k ≠ fn → t.fnOf k.val = s.fnOf k.val) := by
  rintro s - hroom
  have hexec : exec (.snipRequest fn sqid cid) s = .next (s.modFn fn.val fun f => { f with snips := f.snips ++
      [⟨sqid.val, cid.val, s.stamp .host, (s.abortLook fn.val sqid.val cid.val).2.map fun x => (x.stamp, x.slot),
        (s.abortLook fn.val sqid.val cid.val).1.code⟩] }) := by
    show execSnipRequest fn sqid cid s = _
    unfold execSnipRequest
    rw [if_neg (Nat.not_le.mpr hroom)]
  refine ⟨_, hexec, (State.modFn_keeps ..).frame, ?_, rfl, fun k hk => ?_⟩
  · rw [State.fnOf_modFn, if_pos rfl]
  · rw [State.fnOf_modFn, if_neg hk]

theorem snipRequest_drops (fn : Fin 2) (sqid cid : Fin 65536) :
    Completes (.snipRequest fn sqid cid)
      (fun s => 64 ≤ (s.fnOf fn.val).snips.length)
      [.events, .regs, .host]
      fun s t => t.host = s.host ∧ t.events = (s.logHost fn.val 0x7004 fn.val sqid.val cid.val).events ∧
          t.fld (fnKey fn.val R.SNIP_STATUS) F.SNIP_STATUS_DROPPED =
            satAdd (2 ^ F.SNIP_STATUS_DROPPED.width - 1) (s.fld (fnKey fn.val R.SNIP_STATUS) F.SNIP_STATUS_DROPPED) 1 := by
  refine Completes.of_keeps (execSnipRequest_keeps fn sqid cid) ?_
  rintro s - hfull
  have hexec : exec (.snipRequest fn sqid cid) s =
      .next ((s.bump (fnKey fn.val R.SNIP_STATUS) F.SNIP_STATUS_DROPPED 1).logHost fn.val 0x7004 fn.val sqid.val cid.val) := by
    show execSnipRequest fn sqid cid s = _
    unfold execSnipRequest
    rw [if_pos hfull]
  refine ⟨_, hexec, ?_, ?_, ?_⟩
  · rw [State.logHost, State.log_host, State.bump_host]
  · unfold State.logHost State.log
    rw [State.stamp_congr (State.bump_time ..)]
    exact State.logAt_events_congr (State.bump_events ..) ..
  · rw [State.logHost, State.fld_congr (State.log_reg ..), State.bump, State.fld_setFld_self _ _ _ _ (by decide) (by decide)]
    exact Nat.mod_eq_of_lt (Nat.lt_of_le_of_lt (Nat.min_le_left ..) (by decide))

/-- The queue without its oldest request, whose result and slot SNIP_STATUS shows. -/
def State.showSnip (s : State) (fn : Fin 2) (x : Snip) (rest : List Snip) : State :=
  ((s.modFn fn.val fun f => { f with snips := rest }).setFld (fnKey fn.val R.SNIP_STATUS) F.SNIP_STATUS_RESULT x.result).setFld
    (fnKey fn.val R.SNIP_STATUS) F.SNIP_STATUS_SLOT ((x.target.map (·.2)).getD 0)

theorem State.showSnip_fields (s : State) (fn : Fin 2) (x : Snip) (rest : List Snip) :
    (s.showSnip fn x rest).fld (fnKey fn.val R.SNIP_STATUS) F.SNIP_STATUS_RESULT = x.result % 4 ∧
      (s.showSnip fn x rest).fld (fnKey fn.val R.SNIP_STATUS) F.SNIP_STATUS_SLOT = ((x.target.map (·.2)).getD 0) % 16384 := by
  unfold State.showSnip
  constructor
  · rw [State.fld_setFld_other _ _ _ _ _ (by decide) (by decide) (by decide) (by decide), State.fld_setFld_self _ _ _ _ (by decide) (by decide)]
    rfl
  · rw [State.fld_setFld_self _ _ _ _ (by decide) (by decide)]
    rfl

theorem State.showSnip_host (s : State) (fn : Fin 2) (x : Snip) (rest : List Snip) :
    (s.showSnip fn x rest).host = (s.modFn fn.val fun f => { f with snips := rest }).host := by
  simp only [State.showSnip, State.setFld_host]

theorem State.showSnip_cmds (s : State) (fn : Fin 2) (x : Snip) (rest : List Snip) : (s.showSnip fn x rest).host.cmds = s.host.cmds := by
  rw [State.showSnip_host]
  rfl

theorem State.showSnip_regsBut (s : State) (fn : Fin 2) (x : Snip) (rest : List Snip) :
    RegsBut [fnKey fn.val R.SNIP_STATUS] s (s.showSnip fn x rest) :=
  ((s.modFn fn.val fun f => { f with snips := rest }).regsBut_setFld _ _ _).trans (State.regsBut_setFld _ _ _ _)

theorem State.showSnip_snips (s : State) (fn : Fin 2) (x : Snip) (rest : List Snip) : ((s.showSnip fn x rest).fnOf fn.val).snips = rest := by
  rw [State.fnOf_congr (congrArg HostState.fns (s.showSnip_host fn x rest)), State.fnOf_modFn, if_pos rfl]

theorem exec_snipResolve {s : State} {fn : Fin 2} {x : Snip} {rest : List Snip} (h : (s.fnOf fn.val).snips = x :: rest) :
    exec (.snipResolve fn) s = .next (match (x.target.map (·.1)).bind (s.showSnip fn x rest).cmdOf with
      | some c =>
        if x.result ≠ 0 ∨ (c.decided.map (·.status)) = some stAborted then s.showSnip fn x rest
        else (if c.decided.isNone then (s.showSnip fn x rest).endCommand c stAborted
          else (s.showSnip fn x rest).modCmd c.stamp fun c => { c with
            decided := c.decided.map fun d => { d with status := stAborted, dw0 := 0, bytes := [] } }).bump
              (fnKey fn.val R.HC_ABORT_CNT) F.HC_ABORT_CNT_SNIPPED 1
      | none => s.showSnip fn x rest) := by
  show execSnipResolve fn s = _
  unfold execSnipResolve
  rw [h]
  rfl

/-- The registers are none of a command that ends. -/
theorem State.endCommand_reg (s : State) (c : HostCmd) (status k : Nat) : (s.endCommand c status).reg k = s.reg k :=
  congrArg (storeGet regReset k) ((s.endCommand_keeps c status).frame .regs (by decide))

theorem snipStatus_ne_abortCnt (fn : Nat) : fnKey fn R.SNIP_STATUS ≠ fnKey fn R.HC_ABORT_CNT := by
  unfold fnKey R.SNIP_STATUS R.HC_ABORT_CNT
  omega

theorem snipResolve_aborts (fn : Fin 2) (x : Snip) (rest : List Snip) (c : HostCmd) :
    Completes (.snipResolve fn)
      (fun s => (s.fnOf fn.val).snips = x :: rest ∧ x.result = 0 ∧ x.target = some (c.stamp, c.slot) ∧ s.cmdOf c.stamp = some c ∧ c.decided = none)
      [.regs, .decode, .seq, .host, .sec]
      fun s t => Decides c.stamp stAborted 0 t ∧ (t.fnOf fn.val).snips = rest ∧ t.fld (fnKey fn.val R.SNIP_STATUS) F.SNIP_STATUS_RESULT = 0 ∧
          t.fld (fnKey fn.val R.SNIP_STATUS) F.SNIP_STATUS_SLOT = c.slot % 16384 ∧
          t.fld (fnKey fn.val R.HC_ABORT_CNT) F.HC_ABORT_CNT_SNIPPED =
            satAdd (2 ^ F.HC_ABORT_CNT_SNIPPED.width - 1) (s.fld (fnKey fn.val R.HC_ABORT_CNT) F.HC_ABORT_CNT_SNIPPED) 1 := by
  refine Completes.of_keeps (execSnipResolve_keeps fn) ?_
  rintro s - ⟨hsnips, hresult, htarget, hc, hopen⟩
  have hc' : (s.showSnip fn x rest).cmdOf c.stamp = some c :=
    (State.cmdOf_congr (s.showSnip_cmds fn x rest) _).trans hc
  have hexec : exec (.snipResolve fn) s =
      .next (((s.showSnip fn x rest).endCommand c stAborted).bump (fnKey fn.val R.HC_ABORT_CNT) F.HC_ABORT_CNT_SNIPPED 1) := by
    rw [exec_snipResolve hsnips]
    simp only [htarget, Option.map_some, Option.bind_some, hc', hresult, hopen]
    rfl
  have hne := snipStatus_ne_abortCnt fn.val
  obtain ⟨hres, hslot⟩ := s.showSnip_fields fn x rest
  refine ⟨_, hexec, ?_, ?_, ?_, ?_, ?_⟩
  · rw [Decides, State.cmdOf_congr (t := State.bump _ _ _ _) (congrArg HostState.cmds (State.bump_host ..)), State.endCommand_cmdOf hc' hopen]
    rfl
  · rw [State.fnOf_congr (congrArg HostState.fns (State.bump_host ..)), State.fnOf_congr (s := s.showSnip fn x rest) ?_, s.showSnip_snips]
    rw [State.endCommand, State.conclude_fns (.inr rfl), ((s.showSnip fn x rest).dropped_host c).2.2]
  · rw [State.bump, State.fld_setFld_key _ _ _ _ hne, State.fld_congr (State.endCommand_reg ..), hres, hresult]
  · rw [State.bump, State.fld_setFld_key _ _ _ _ hne, State.fld_congr (State.endCommand_reg ..), hslot, htarget]
    rfl
  · rw [State.bump, State.fld_setFld_self _ _ _ _ (by decide) (by decide), State.fld_congr (State.endCommand_reg ..),
      State.fld_congr (s.showSnip_regsBut fn x rest _ (by simpa using hne.symm))]
    exact Nat.mod_eq_of_lt (Nat.lt_of_le_of_lt (Nat.min_le_left ..) (by decide))

theorem snipResolve_finds_none (fn : Fin 2) (x : Snip) (rest : List Snip) :
    Completes (.snipResolve fn)
      (fun s => (s.fnOf fn.val).snips = x :: rest ∧ x.result ≠ 0)
      [.regs, .decode, .seq, .host, .sec]
      fun s t => t.host.cmds = s.host.cmds ∧ (t.fnOf fn.val).snips = rest ∧ t.fld (fnKey fn.val R.SNIP_STATUS) F.SNIP_STATUS_RESULT = x.result % 4 ∧
          t.fld (fnKey fn.val R.SNIP_STATUS) F.SNIP_STATUS_SLOT = ((x.target.map (·.2)).getD 0) % 16384 ∧
          RegsBut [fnKey fn.val R.SNIP_STATUS] s t ∧ t.seq = s.seq := by
  refine Completes.of_keeps (execSnipResolve_keeps fn) ?_
  rintro s - ⟨hsnips, hresult⟩
  have hexec : exec (.snipResolve fn) s = .next (s.showSnip fn x rest) := by
    rw [exec_snipResolve hsnips]
    cases (x.target.map (·.1)).bind (s.showSnip fn x rest).cmdOf with
    | none => rfl
    | some c => simp only [if_pos (Or.inl hresult)]
  obtain ⟨hres, hslot⟩ := s.showSnip_fields fn x rest
  refine ⟨_, hexec, s.showSnip_cmds fn x rest, s.showSnip_snips fn x rest, hres, hslot,
    s.showSnip_regsBut fn x rest, ?_⟩
  simp only [State.showSnip, State.setFld_seq]
  rfl

/-! ## Configuration requests and the SMBus (R256, R284, R349) -/

theorem configRequest_retries (req : ConfigReq) :
    Completes (.configRequest req)
      (fun s => s.fld R.SYS_BOOT F.SYS_BOOT_STAGE < 2)
      [.out]
      fun s t => t.out = .config req.fn.val none :: s.out := by
  rintro s - hstage
  have hexec : exec (.configRequest req) s = .next { s with out := .config req.fn.val none :: s.out } := by
    show execConfigRequest req s = _
    unfold execConfigRequest
    rw [if_neg (Nat.not_le.mpr hstage)]
  exact ⟨_, hexec, (Keeps.outTo rfl (Keeps.refl _ s)).frame, rfl⟩

/-- From stage 2 on an item that leaves the state is answered. -/
theorem exec_configRequest_answers {s : State} {req : ConfigReq} {v : Nat} (hstage : 2 ≤ s.fld R.SYS_BOOT F.SYS_BOOT_STAGE)
    (hitem : s.configItem req.item = (v, s)) :
    exec (.configRequest req) s = .next { s with out := .config req.fn.val (some v) :: s.out } := by
  show execConfigRequest req s = _
  unfold execConfigRequest
  rw [if_pos hstage, hitem]

theorem configRequest_answers (req : ConfigReq) :
    Completes (.configRequest req)
      (fun s => 2 ≤ s.fld R.SYS_BOOT F.SYS_BOOT_STAGE ∧ req.item ≠ .subsystem)
      [.out]
      fun s t => t.out = .config req.fn.val (some (match req.item with
            | .identity => 65536 * s.fld R.SYS_IDENT F.SYS_IDENT_DEVICE + s.fld R.SYS_IDENT F.SYS_IDENT_VENDOR
            | .classRevision => 0x01080200 + s.fld R.SYS_IDENT1 F.SYS_IDENT1_REVISION
            | .barSize k => if k = 0 then 0xFF000004 else if k = 2 then 0xFFFF0004 else if k = 1 ∨ k = 3 then 0xFFFFFFFF else 0
            | .linkCap => s.linkCap
            | .maxPayload => 512
            | .capability i => if i ∈ [0x01, 0x10, 0x11, 0x101, 0x12E] then 1 else 0
            | _ => 0)) :: s.out := by
  rintro s - ⟨hstage, hitem⟩
  refine ⟨_, exec_configRequest_answers (v := _) hstage ?_, (Keeps.outTo rfl (Keeps.refl _ s)).frame, rfl⟩
  cases h : req.item with
  | subsystem => exact absurd h hitem
  | identity => rw [Nat.mul_comm 65536]; rfl
  | classRevision => rfl
  | barSize k => fin_cases k <;> rfl
  | interruptPin => rfl
  | linkCap => rfl
  | maxPayload => rfl
  | capability i => simp [State.configItem, pciCapabilities, bitOf]

theorem configRequest_subsystem (req : ConfigReq) (r : Running) :
    Completes (.configRequest req)
      (fun s => 2 ≤ s.fld R.SYS_BOOT F.SYS_BOOT_STAGE ∧ req.item = .subsystem ∧ s.sec.running = some r)
      [.out]
      fun s t => t.out = .config req.fn.val (some (fieldAt r.record 12 4)) :: s.out := by
  rintro s - ⟨hstage, hitem, hrunning⟩
  refine ⟨_, exec_configRequest_answers (v := fieldAt r.record 12 4) hstage ?_, (Keeps.outTo rfl (Keeps.refl _ s)).frame, rfl⟩
  rw [hitem, State.configItem, hrunning]
  dsimp only
  rw [State.recordBytes, hrunning]
  simp [fieldAt, List.take_take]

/-- Bit 6 of the status flags, whatever the open ones are. -/
theorem statusFlags_bit (other : Nat) (b : Bool) : (other - other / 64 % 2 * 64 + 64 * bitOf b) / 64 % 2 = bitOf b := by
  have hb : bitOf b < 2 := by cases b <;> decide
  omega

theorem nvmeMiBasicCommand_status (code : Fin 256) :
    Completes (.nvmeMiBasicCommand code)
      (fun _ => code.val = 0)
      [.out, .free]
      fun s t => t.out.tail = s.out ∧ (t.out.head?.map fun x => match x with
            | .smbus bytes => ((bytes.drop 1).take 2, (bytes.drop 4).take 2, (bytes.headD 0) / 64 % 2, bytes.length == 7)
            | _ => ([], [], 0, false)) =
          some ([s.host.warnings, min 127 (s.kelvin - 273)], natBytes 2 (s.fld R.SYS_IDENT F.SYS_IDENT_VENDOR), (if s.functions.any (fun f => s.rdy f.val) then 0 else 1), true) := by
  refine Completes.of_keeps (execNvmeMiBasicCommand_keeps code) ?_
  rintro s - hcode
  refine ⟨_, (show execNvmeMiBasicCommand code s = .next _ from by
    unfold execNvmeMiBasicCommand
    rw [if_neg (by rw [hcode]; decide)]), rfl, ?_⟩
  simp only [List.head?_cons, Option.map_some, Option.some.injEq, Prod.mk.injEq]
  refine ⟨rfl, rfl, ?_, rfl⟩
  refine (statusFlags_bit _ _).trans ?_
  show bitOf (!s.functions.any fun f => s.rdy f.val) = _
  cases s.functions.any fun f => s.rdy f.val <;> rfl

theorem nvmeMiBasicCommand_other (code : Fin 256) :
    Completes (.nvmeMiBasicCommand code)
      (fun _ => code.val ≠ 0)
      [.out]
      fun s t => t.out = .smbus (List.replicate 7 0xFF) :: s.out := by
  rintro s - hcode
  have hexec : exec (.nvmeMiBasicCommand code) s = .next { s with out := .smbus (List.replicate 7 0xFF) :: s.out } := by
    show execNvmeMiBasicCommand code s = _
    unfold execNvmeMiBasicCommand
    rw [if_pos hcode]
  exact ⟨_, hexec, (Keeps.outTo rfl (Keeps.refl _ s)).frame, rfl⟩

end Sys2Proof.Machine
end

section
/-!
PROOFS. Controller enable, HOST_READY, the end of a shutdown, and resets that an activation holds back (R259, R277, R278, R349):
one lemma per outcome.
-/

namespace Sys2Proof.Machine

/-! ## Controller registers (R259) -/

section Ctl

variable {s t : State} {fn off : Nat}

theorem State.ctl_congr (p : FieldPos) (h : t.reg (fnKey fn off) = s.reg (fnKey fn off)) : t.ctl fn off p = s.ctl fn off p :=
  State.fld_congr h p

theorem State.enabled_congr (h : t.reg (fnKey fn nvmeCC) = s.reg (fnKey fn nvmeCC)) : t.enabled fn = s.enabled fn :=
  congrArg (· == 1) (State.ctl_congr ccEn h)

theorem State.rdy_congr (h : t.reg (fnKey fn nvmeCSTS) = s.reg (fnKey fn nvmeCSTS)) : t.rdy fn = s.rdy fn :=
  congrArg (· == 1) (State.ctl_congr cstsRdy h)

end Ctl

theorem State.ctl_setCtl_self (s : State) (fn off : Nat) (p : FieldPos) (v : Nat) (h : p.hi < 32) (h' : p.lo ≤ p.hi) :
    (s.setCtl fn off p v).ctl fn off p = v % 2 ^ p.width := s.fld_setFld_self _ _ _ h h'

theorem State.setCtl_regsBut (s : State) (fn off : Nat) (p : FieldPos) (v : Nat) : RegsBut [fnKey fn off] s (s.setCtl fn off p v) :=
  s.regsBut_setFld _ _ _

theorem State.modFn_cmds (s : State) (fn : Nat) (f : FnState → FnState) : (s.modFn fn f).host.cmds = s.host.cmds := rfl

/-! ## Controller enable (R259, R349) -/

/-- CC as CC.EN 0→1 leaves it. -/
def State.ccWritten (s : State) (fn : Nat) (cc : Word) : State :=
  ((s.setReg (fnKey fn nvmeCC) cc).setCtl fn nvmeCC ccEn 1).setCtl fn nvmeCC ccShn 0

/-- A field of CC that neither EN nor SHN overlaps is as written. -/
theorem State.ccWritten_other (s : State) (fn : Nat) (cc : Word) (p : FieldPos) (hp : p.lo ≤ p.hi) (hen : 0 < p.lo)
    (hshn : 15 < p.lo ∨ p.hi < 14) : (s.ccWritten fn cc).ctl fn nvmeCC p = getField cc p := by
  unfold State.ccWritten State.setCtl State.ctl
  rw [State.fld_setFld_other _ _ _ _ _ (by decide) (by decide) hp hshn, State.fld_setFld_other _ _ _ _ _ (by decide) (by decide) hp (.inl hen),
    State.fld, State.reg_setReg_self]

theorem State.ccWritten_enabled (s : State) (fn : Nat) (cc : Word) : (s.ccWritten fn cc).enabled fn = true := by
  unfold State.enabled State.ccWritten State.setCtl State.ctl
  rw [State.fld_setFld_other _ _ _ _ _ (by decide) (by decide) (by decide) (by decide), State.fld_setFld_self _ _ _ _ (by decide) (by decide)]
  rfl

theorem State.ccWritten_shn (s : State) (fn : Nat) (cc : Word) : (s.ccWritten fn cc).ctl fn nvmeCC ccShn = 0 := by
  unfold State.ccWritten State.setCtl State.ctl
  rw [State.fld_setFld_self _ _ _ _ (by decide) (by decide), Nat.zero_mod]

theorem State.ccWritten_regsBut (s : State) (fn : Nat) (cc : Word) : RegsBut [fnKey fn nvmeCC] s (s.ccWritten fn cc) :=
  ((s.regsBut_setReg _ _).trans (State.regsBut_setFld _ _ _ _)).trans (State.regsBut_setFld _ _ _ _)

theorem State.ccWritten_keeps (s : State) (fn : Nat) (cc : Word) : Keeps [.regs] s (s.ccWritten fn cc) := by
  unfold State.ccWritten State.setCtl
  exact Keeps.step (State.setFld_keeps ..) rfl (Keeps.step (State.setFld_keeps ..) rfl (State.setReg_keeps ..))

theorem State.ccWritten_host (s : State) (fn : Nat) (cc : Word) : (s.ccWritten fn cc).host = s.host :=
  (s.ccWritten_keeps fn cc).frame .host (by decide)

/-- RDY rises with HOST_READY in a function that waits for it. -/
theorem State.raiseReady_cases (s : State) (fn : Fin 2) :
    ((s.fnOf fn.val).wantsRdy = true ∧ s.flag R.SYS_BOOT F.SYS_BOOT_HOST_READY = true →
      (s.raiseReady fn.val).rdy fn.val = true ∧ ((s.raiseReady fn.val).fnOf fn.val).wantsRdy = false) ∧
    (¬ ((s.fnOf fn.val).wantsRdy = true ∧ s.flag R.SYS_BOOT F.SYS_BOOT_HOST_READY = true) → s.raiseReady fn.val = s) := by
  unfold State.raiseReady
  constructor
  · intro h
    rw [if_pos (by simpa using h)]
    refine ⟨?_, by rw [State.fnOf_modFn, if_pos rfl]⟩
    rw [State.rdy_congr (State.modFn_reg ..), State.rdy, State.ctl_setCtl_self _ _ _ _ _ (by decide) (by decide)]
    rfl
  · intro h
    rw [if_neg (by simpa using h)]

/-- Of the registers a rise of RDY changes its function's CSTS, and of the host island that function. -/
theorem State.raiseReady_regsBut (s : State) (fn : Nat) : RegsBut [fnKey fn nvmeCSTS] s (s.raiseReady fn) := by
  unfold State.raiseReady
  split
  · exact fun k hk => (State.modFn_reg ..).trans (s.setCtl_regsBut _ _ _ _ k hk)
  · exact RegsBut.refl _ s

theorem State.raiseReady_host (s : State) (fn : Nat) :
    (s.raiseReady fn).host = { s.host with fns := (s.raiseReady fn).host.fns } := by
  unfold State.raiseReady
  split
  · rw [State.modFn, State.modHost]
    dsimp only
    rw [State.setCtl_host]
  · rfl

theorem nvmeCSTS_ne_nvmeCC (fn : Nat) : fnKey fn nvmeCC ≠ fnKey fn nvmeCSTS := by
  unfold fnKey nvmeCC nvmeCSTS
  omega

/-- The admin queues that an enable makes stand (R259). -/
def State.adminSq (s : State) (fn : Nat) : SubQ :=
  ⟨fn, 0, s.pair (fnKey fn nvmeASQ), (s.reg (fnKey fn nvmeAQA)).toNat % 4096 + 1, 0, 0, 0, 0⟩
def State.adminCq (s : State) (fn : Nat) : CmpQ :=
  ⟨fn, 0, s.pair (fnKey fn nvmeACQ), (s.reg (fnKey fn nvmeAQA)).toNat / 65536 % 4096 + 1, 0, 0, true, true, 0, 0, 0⟩

/-- The function with its admin queues, waiting for RDY. -/
def State.withAdmin (s : State) (fn : Nat) : State :=
  (s.modHost fun h => { h with sqs := h.sqs ++ [s.adminSq fn], cqs := h.cqs ++ [s.adminCq fn] }).modFn fn fun x => { x with wantsRdy := true }

theorem State.withAdmin_reg (s : State) (fn k : Nat) : (s.withAdmin fn).reg k = s.reg k := (State.modFn_reg ..).trans (State.modHost_reg ..)

theorem State.ccWritten_admin (s : State) (fn : Nat) (cc : Word) :
    (s.ccWritten fn cc).adminSq fn = s.adminSq fn ∧ (s.ccWritten fn cc).adminCq fn = s.adminCq fn := by
  have h (k : Nat) (hk : 0x20 ≤ k) : (s.ccWritten fn cc).reg (fnKey fn k) = s.reg (fnKey fn k) :=
    s.ccWritten_regsBut fn cc _ (by simp only [List.mem_singleton, fnKey, nvmeCC]; omega)
  have hpair (k : Nat) (hk : 0x20 ≤ k) : (s.ccWritten fn cc).pair (fnKey fn k) = s.pair (fnKey fn k) := by
    have hhi : fnKey fn k + 4 = fnKey fn (k + 4) := Nat.add_right_comm ..
    rw [State.pair, State.pair, hhi, h k hk, h (k + 4) (Nat.le_add_right_of_le hk)]
  unfold State.adminSq State.adminCq
  rw [hpair nvmeASQ (by decide), hpair nvmeACQ (by decide), h nvmeAQA (by decide)]
  exact ⟨rfl, rfl⟩

section Enable

variable {s : State} {fn : Fin 2} {cc : Word} (hfn : s.functions.contains fn = true) (hoff : s.enabled fn.val = false)
  (hphase : (s.fnOf fn.val).phase = .running)

include hfn hoff hphase

theorem exec_controllerEnable_ready (hsq : natBits cc.toNat 19 16 = 6) (hcq : natBits cc.toNat 23 20 = 4) :
    exec (.controllerEnable fn cc) s = .next (((s.ccWritten fn.val cc).withAdmin fn.val).raiseReady fn.val) := by
  show execControllerEnable fn cc s = _
  unfold execControllerEnable
  rw [when_of_true (by rw [hfn, hoff, hphase]; rfl)]
  dsimp only
  rw [if_neg]
  · rfl
  · show ¬ ((s.ccWritten fn.val cc).ctl fn.val nvmeCC ccSqes ≠ 6 ∨ (s.ccWritten fn.val cc).ctl fn.val nvmeCC ccCqes ≠ 4)
    rw [s.ccWritten_other _ _ _ (by decide) (by decide) (by decide), s.ccWritten_other _ _ _ (by decide) (by decide) (by decide)]
    exact not_or.mpr ⟨not_not.mpr hsq, not_not.mpr hcq⟩

theorem exec_controllerEnable_fails (h : natBits cc.toNat 19 16 ≠ 6 ∨ natBits cc.toNat 23 20 ≠ 4) :
    exec (.controllerEnable fn cc) s = .next ((s.ccWritten fn.val cc).setFld (cstsKey fn.val) cstsCfs 1) := by
  show execControllerEnable fn cc s = _
  unfold execControllerEnable
  rw [when_of_true (by rw [hfn, hoff, hphase]; rfl)]
  dsimp only
  rw [if_pos]
  · rfl
  · show (s.ccWritten fn.val cc).ctl fn.val nvmeCC ccSqes ≠ 6 ∨ (s.ccWritten fn.val cc).ctl fn.val nvmeCC ccCqes ≠ 4
    rw [s.ccWritten_other _ _ _ (by decide) (by decide) (by decide), s.ccWritten_other _ _ _ (by decide) (by decide) (by decide)]
    exact h

end Enable

theorem controllerEnable_stands (fn : Fin 2) (cc : Word) :
    Completes (.controllerEnable fn cc)
      (fun s => s.functions.contains fn = true ∧ s.enabled fn.val = false ∧ (s.fnOf fn.val).phase = .running ∧ natBits cc.toNat 19 16 = 6 ∧
          natBits cc.toNat 23 20 = 4)
      [.regs, .host]
      fun s t => t.enabled fn.val = true ∧ t.ctl fn.val nvmeCC ccShn = 0 ∧ t.ctl fn.val nvmeCC ccMps = natBits cc.toNat 10 7 ∧
          t.host.sqs = s.host.sqs ++ [⟨fn.val, 0, s.pair (fnKey fn.val nvmeASQ), (s.reg (fnKey fn.val nvmeAQA)).toNat % 4096 + 1, 0, 0, 0, 0⟩] ∧
          t.host.cqs = s.host.cqs ++ [⟨fn.val, 0, s.pair (fnKey fn.val nvmeACQ), (s.reg (fnKey fn.val nvmeAQA)).toNat / 65536 % 4096 + 1, 0, 0, true, true, 0, 0, 0⟩] ∧
          (s.flag R.SYS_BOOT F.SYS_BOOT_HOST_READY = true → t.rdy fn.val = true) ∧
          (s.flag R.SYS_BOOT F.SYS_BOOT_HOST_READY = false → (t.fnOf fn.val).wantsRdy = true ∧ t.rdy fn.val = s.rdy fn.val) ∧
          RegsBut [fnKey fn.val nvmeCC, fnKey fn.val nvmeCSTS] s t := by
  refine Completes.of_keeps (execControllerEnable_keeps fn cc) ?_
  rintro s - ⟨hfn, hoff, hphase, hsq, hcq⟩
  have hcc := s.ccWritten_regsBut fn.val cc
  have hregs := ((s.ccWritten fn.val cc).withAdmin fn.val).raiseReady_regsBut fn.val
  have hreg : (((s.ccWritten fn.val cc).withAdmin fn.val).raiseReady fn.val).reg (fnKey fn.val nvmeCC) =
      (s.ccWritten fn.val cc).reg (fnKey fn.val nvmeCC) := (hregs _ (by simpa using nvmeCSTS_ne_nvmeCC fn.val)).trans (State.withAdmin_reg ..)
  have hboot : ((s.ccWritten fn.val cc).withAdmin fn.val).flag R.SYS_BOOT F.SYS_BOOT_HOST_READY = s.flag R.SYS_BOOT F.SYS_BOOT_HOST_READY :=
    State.flag_congr ((State.withAdmin_reg ..).trans (hcc _ (by simp [fnKey, nvmeCC, R.SYS_BOOT]; omega))) _
  have hhost := ((s.ccWritten fn.val cc).withAdmin fn.val).raiseReady_host fn.val
  have hwants : (((s.ccWritten fn.val cc).withAdmin fn.val).fnOf fn.val).wantsRdy = true := by
    rw [State.withAdmin, State.fnOf_modFn, if_pos rfl]
  obtain ⟨hrise, hwait⟩ := ((s.ccWritten fn.val cc).withAdmin fn.val).raiseReady_cases fn
  obtain ⟨hasq, hacq⟩ := s.ccWritten_admin fn.val cc
  refine ⟨_, exec_controllerEnable_ready hfn hoff hphase hsq hcq, ?_, ?_, ?_, ?_, ?_, fun hready => ?_, fun hnot => ?_, ?_⟩
  · rw [State.enabled_congr hreg, s.ccWritten_enabled]
  · rw [State.ctl_congr _ hreg, s.ccWritten_shn]
  · rw [State.ctl_congr _ hreg]
    exact s.ccWritten_other _ _ _ (by decide) (by decide) (by decide)
  · rw [hhost]
    show (s.ccWritten fn.val cc).host.sqs ++ [(s.ccWritten fn.val cc).adminSq fn.val] = _
    rw [hasq, s.ccWritten_host]
    rfl
  · rw [hhost]
    show (s.ccWritten fn.val cc).host.cqs ++ [(s.ccWritten fn.val cc).adminCq fn.val] = _
    rw [hacq, s.ccWritten_host]
    rfl
  · exact (hrise ⟨hwants, hboot.trans hready⟩).1
  · rw [hwait (by simp [hboot, hnot])]
    refine ⟨hwants, State.rdy_congr ?_⟩
    exact (State.withAdmin_reg ..).trans (hcc _ (by simpa using (nvmeCSTS_ne_nvmeCC fn.val).symm))
  · intro k hk
    rw [hregs k (by simp at hk ⊢; exact hk.2), State.withAdmin_reg, hcc k (by simp at hk ⊢; exact hk.1)]

theorem controllerEnable_fails (fn : Fin 2) (cc : Word) :
    Completes (.controllerEnable fn cc)
      (fun s => s.functions.contains fn = true ∧ s.enabled fn.val = false ∧ (s.fnOf fn.val).phase = .running ∧
          (natBits cc.toNat 19 16 ≠ 6 ∨ natBits cc.toNat 23 20 ≠ 4))
      [.regs]
      fun _ t => t.enabled fn.val = true ∧ t.fld (cstsKey fn.val) cstsCfs = 1 := by
  rintro s - ⟨hfn, hoff, hphase, hsize⟩
  refine ⟨_, exec_controllerEnable_fails hfn hoff hphase hsize,
    (Keeps.step (State.setFld_keeps ..) rfl (s.ccWritten_keeps fn.val cc)).frame, ?_, ?_⟩
  · rw [State.enabled_congr (State.reg_setFld_other _ _ _ (show fnKey fn.val nvmeCC ≠ cstsKey fn.val from nvmeCSTS_ne_nvmeCC fn.val)), s.ccWritten_enabled]
  · exact State.fld_setFld_self _ _ _ _ (by decide) (by decide)

/-! ## HOST_READY (R349) -/

theorem hostReadySet_again :
    Completes .hostReadySet (fun s => s.flag R.SYS_BOOT F.SYS_BOOT_HOST_READY = true) [] fun _ _ => True :=
  Completes.of_unchanged fun s h => by
    show execHostReadySet s = _
    rw [execHostReadySet, State.hostReady, if_pos h]

/-! ## The end of a shutdown (R278) -/

theorem shutdownComplete_ends (fn : Fin 2) :
    Completes (.shutdownComplete fn)
      (fun s => (s.fnOf fn.val).phase = .hemming ∧ s.noPass = true)
      [.regs, .host]
      fun s t => t.ctl fn.val nvmeCSTS cstsShst = 2 ∧ t.fnOf fn.val = { s.fnOf fn.val with phase := .shutDown } ∧ RegsBut [fnKey fn.val nvmeCSTS] s t := by
  refine Completes.of_keeps (execShutdownComplete_keeps fn) ?_
  rintro s - ⟨hphase, hnone⟩
  refine ⟨_, when_of_true (by rw [hphase, hnone]; rfl) _ _, ?_, ?_, fun k hk => ?_⟩
  · rw [State.ctl_congr _ (State.modFn_reg ..), State.ctl_setCtl_self _ _ _ _ _ (by decide) (by decide)]
    rfl
  · rw [State.fnOf_modFn, if_pos rfl, State.fnOf_congr (congrArg HostState.fns (State.setCtl_host ..))]
  · rw [State.modFn_reg, s.setCtl_regsBut _ _ _ _ k hk]

theorem shutdownComplete_waits (fn : Fin 2) :
    Completes (.shutdownComplete fn) (fun s => s.noPass = false) [] fun _ _ => True :=
  Completes.of_unchanged fun s h => when_of_false (by rw [h, Bool.and_false]) _ _

/-! ## Resets that an activation holds back (R277, R280) -/

/-- The function whose reset waits for the fetch-resume point. -/
theorem State.resetFunction_waits {s : State} (fn : Fin 2) (cause : Nat) (hact : s.host.activation.isSome = true) (hmc : s.mcActive = false) :
    s.resetFunction fn.val cause = (s.setCtl fn.val nvmeCC ccEn 0).modFn fn.val fun f => { f with phase := .awaitResume cause } := by
  have hmc' : (s.setCtl fn.val nvmeCC ccEn 0).mcActive = false := by
    rw [← hmc]
    exact State.flag_congr (s.setCtl_regsBut _ _ _ _ _ (by simp [R.CS_MC_STATUS, fnKey, nvmeCC]; omega)) _
  have hact' : (s.setCtl fn.val nvmeCC ccEn 0).host.activation.isSome = true := by
    rw [State.setCtl_host, hact]
  unfold State.resetFunction
  dsimp only
  rw [hact', hmc', if_pos (by rfl)]

theorem State.resetFunction_waits_spec {s : State} (fn : Fin 2) (cause : Nat) (hact : s.host.activation.isSome = true) (hmc : s.mcActive = false) :
    Frame [.regs, .host] s (s.resetFunction fn.val cause) ∧
      (s.resetFunction fn.val cause).fnOf fn.val = { s.fnOf fn.val with phase := .awaitResume cause } ∧
      (s.resetFunction fn.val cause).enabled fn.val = false ∧ (s.resetFunction fn.val cause).host.cmds = s.host.cmds ∧
      RegsBut [fnKey fn.val nvmeCC] s (s.resetFunction fn.val cause) := by
  have hhost := State.setCtl_host s fn.val nvmeCC ccEn 0
  have hregs := s.setCtl_regsBut fn.val nvmeCC ccEn 0
  have hoff : (s.setCtl fn.val nvmeCC ccEn 0).ctl fn.val nvmeCC ccEn = 0 := State.ctl_setCtl_self _ _ _ _ _ (by decide) (by decide)
  have hkeeps := State.setCtl_keeps s fn.val nvmeCC ccEn 0
  rw [State.resetFunction_waits fn cause hact hmc]
  generalize s.setCtl fn.val nvmeCC ccEn 0 = t at hhost hregs hoff hkeeps ⊢
  refine ⟨(Keeps.step (State.modFn_keeps ..) rfl (Keeps.mono hkeeps rfl)).frame, ?_, ?_, ?_, fun k hk => ?_⟩
  · rw [State.fnOf_modFn, if_pos rfl, State.fnOf_congr (congrArg HostState.fns hhost)]
  · rw [State.enabled_congr (State.modFn_reg ..), State.enabled, hoff]
    rfl
  · rw [State.modFn_cmds, hhost]
  · rw [State.modFn_reg, hregs k hk]

theorem controllerReset_held (fn : Fin 2) :
    Completes (.controllerReset fn)
      (fun s => s.functions.contains fn = true ∧ s.enabled fn.val = true ∧ s.resetting fn.val = false ∧ s.host.activation.isSome = true ∧ s.mcActive = false)
      [.regs, .host]
      fun s t => t.fnOf fn.val = { s.fnOf fn.val with phase := .awaitResume 0 } ∧ t.enabled fn.val = false ∧ t.host.cmds = s.host.cmds ∧
          RegsBut [fnKey fn.val nvmeCC] s t := by
  rintro s - ⟨hfn, hon, hnot, hact, hmc⟩
  exact ⟨_, when_of_true (by rw [hfn, hon, hnot]; rfl) _ _, State.resetFunction_waits_spec fn 0 hact hmc⟩

theorem functionLevelReset_held (fn : Fin 2) :
    Completes (.functionLevelReset fn)
      (fun s => s.functions.contains fn = true ∧ s.resetting fn.val = false ∧ s.host.activation.isSome = true ∧ s.mcActive = false)
      [.regs, .host]
      fun s t => t.fnOf fn.val = { s.fnOf fn.val with phase := .awaitResume 1 } ∧ t.host.cmds = s.host.cmds ∧ RegsBut [fnKey fn.val nvmeCC] s t := by
  rintro s - ⟨hfn, hnot, hact, hmc⟩
  obtain ⟨hframe, hphase, -, hcmds, hregs⟩ := State.resetFunction_waits_spec fn 1 hact hmc
  exact ⟨_, when_of_true (by rw [hfn, hnot]; rfl) _ _, hframe, hphase, hcmds, hregs⟩

end Sys2Proof.Machine
end

section
/-!
PROOFS. Work orders as a bobbin takes them (R238, R239): bytes put in a scratch, the fetch pause that is noted, orders that are
announced, and WO.GET.
-/

namespace Sys2Proof.Machine

/-! ## Bytes of the scratches -/

/-- A byte after bytes have been put. -/
theorem storeGet_putBytes (dflt : Nat → Byte) (bs : List Nat) (a : Nat) (l : List (Nat × Byte)) (k : Nat) :
    storeGet dflt (a + k) (putBytes dflt a bs l) = ((bs[k]?).map (BitVec.ofNat 8)).getD (storeGet dflt (a + k) l) := by
  have hbelow (cs : List Nat) (c : Nat) (m : List (Nat × Byte)) {j : Nat} (hj : j < c) :
      storeGet dflt j (putBytes dflt c cs m) = storeGet dflt j m := by
    induction cs generalizing c m with
    | nil => rfl
    | cons x xs ih => rw [putBytes, ih (c + 1) _ (by omega), storeGet_put_other (by omega)]
  induction bs generalizing a l k with
  | nil => rfl
  | cons b bs ih =>
    rw [putBytes]
    cases k with
    | zero => rw [Nat.add_zero, hbelow bs (a + 1) _ (by omega), storeGet_put_self]; rfl
    | succ k =>
      rw [show a + (k + 1) = a + 1 + k by omega, ih, List.getElem?_cons_succ, storeGet_put_other (by omega)]

/-- The first bytes read back at a place are the bytes put there. -/
theorem scratchBytes_putScratch (l : List (Nat × Byte)) (o : Nat) (bs : List Nat) {m n : Nat} (hn : m ≤ n) (hlen : m ≤ bs.length) :
    (scratchBytes (putScratch l o bs) o n).take m = (bs.take m).map (· % 256) := by
  refine List.ext_getElem (by simp [scratchBytes]; omega) fun k hk hk' => ?_
  have hkm : k < m := by simp at hk'; omega
  simp [scratchBytes, putScratch, storeGet_putBytes, List.getElem?_eq_getElem (show k < bs.length by omega)]

theorem natBytes_length (n v : Nat) : (natBytes n v).length = n := by
  unfold natBytes
  rw [List.length_map]
  induction n generalizing v with
  | zero => rfl
  | succ n ih => rw [bytesLE, List.length_cons, ih]

theorem natBytes_mod (n v : Nat) : (natBytes n v).map (· % 256) = natBytes n v := by
  unfold natBytes
  rw [List.map_map]
  exact List.map_congr_left fun x _ => Nat.mod_eq_of_lt x.isLt

section Space

variable {s : State} {b : Fin 24} {p : Space} {a n : Nat} (h : scratchAt a n = .ok p)

include h

/-- An operand's place is in one of the scratches. -/
theorem scratchAt_cases : (∃ o, p = .scratch o) ∨ ∃ o, p = .shared o := by
  unfold scratchAt at h
  split at h
  · cases h
    exact .inl ⟨_, rfl⟩
  · split at h
    · cases h
      exact .inr ⟨_, rfl⟩
    · cases h

/-- What a store at an operand's place leaves there. -/
theorem State.spaceRead_spaceWrite (bs : List Nat) {k m : Nat} (hk : m ≤ k) (hlen : m ≤ bs.length) :
    (((s.spaceWrite b p bs).spaceRead b p k).take m) = (bs.take m).map (· % 256) := by
  obtain ⟨o, rfl⟩ | ⟨o, rfl⟩ := scratchAt_cases h
  · unfold State.spaceWrite State.spaceRead
    dsimp only
    rw [State.bob_modBob_self]
    exact scratchBytes_putScratch _ _ _ hk hlen
  · exact scratchBytes_putScratch _ _ _ hk hlen

/-- And of the bobbins. -/
theorem State.spaceWrite_bob (bs : List Nat) :
    (s.spaceWrite b p bs).bob b = { s.bob b with scratch := ((s.spaceWrite b p bs).bob b).scratch } ∧
      ∀ d : Fin 24, d ≠ b → (s.spaceWrite b p bs).bob d = s.bob d := by
  obtain ⟨o, rfl⟩ | ⟨o, rfl⟩ := scratchAt_cases h
  · unfold State.spaceWrite
    refine ⟨?_, fun d hd => State.bob_modBob_other _ _ hd⟩
    rw [State.bob_modBob_self]
  · exact ⟨rfl, fun _ _ => rfl⟩

end Space

/-- What is read at a place depends on the sequencer alone. -/
theorem State.spaceRead_congr {s t : State} (h : t.seq = s.seq) (b : Fin 24) (p : Space) (n : Nat) : t.spaceRead b p n = s.spaceRead b p n := by
  unfold State.spaceRead progBytes progWord State.bob
  rw [h]

/-- An issued instruction reads the bytes that stood there. -/
theorem State.issued_spaceRead (s : State) (b : Fin 24) (i : Ins) {p : Space} {a n : Nat} (h : scratchAt a n = .ok p) (k : Nat) :
    (s.issued b i.next).spaceRead b p k = s.spaceRead b p k := by
  obtain ⟨o, rfl⟩ | ⟨o, rfl⟩ := scratchAt_cases h
  · show scratchBytes ((s.issued b i.next).bob b).scratch o k = _
    rw [State.issued_bob_self]
    rfl
  · obtain ⟨-, hshared, -, -, -⟩ := s.issued_elsewhere b i.next
    show scratchBytes (s.issued b i.next).seq.shared o k = _
    rw [hshared]
    rfl

theorem State.setP_spaceRead (s : State) (b : Fin 24) (r : Nat) (v : Bool) {p : Space} {a n : Nat} (h : scratchAt a n = .ok p) (k : Nat) :
    (s.setP b r v).spaceRead b p k = s.spaceRead b p k := by
  obtain ⟨o, rfl⟩ | ⟨o, rfl⟩ := scratchAt_cases h
  · show scratchBytes ((s.setP b r v).bob b).scratch o k = _
    rw [State.setP, State.bob_modBob_self]
    unfold Bobbin.putPred
    split <;> rfl
  · rfl

/-! ## Fetch pauses that are noted (R266) -/

/-- Of the host island nothing changes but the arbiter and what each function has logged of its pause. -/
def PauseNoted (s t : State) : Prop :=
  t.host = { s.host with fns := t.host.fns, arb := t.host.arb } ∧
    ∀ k : Fin 2, t.fnOf k.val = { s.fnOf k.val with pauseLogged := (t.fnOf k.val).pauseLogged }

theorem PauseNoted.of_host_eq {s t u : State} (h : PauseNoted s t) (heq : u.host = t.host) : PauseNoted s u := by
  obtain ⟨hhost, hfns⟩ := h
  unfold PauseNoted State.fnOf at *
  rw [heq]
  exact ⟨hhost, hfns⟩

theorem PauseNoted.endTurn {s t : State} (h : PauseNoted s t) : PauseNoted s (t.modHost fun h => { h with arb := { h.arb with turn := none } }) := by
  obtain ⟨hhost, hfns⟩ := h
  exact ⟨by unfold State.modHost; dsimp only; rw [hhost], hfns⟩

theorem PauseNoted.setLogged {s t : State} (h : PauseNoted s t) (fn : Fin 2) (v : Bool) :
    PauseNoted s (t.modFn fn.val fun f => { f with pauseLogged := v }) := by
  obtain ⟨hhost, hfns⟩ := h
  refine ⟨by unfold State.modFn State.modHost; dsimp only; rw [hhost], fun k => ?_⟩
  rw [State.fnOf_modFn]
  split
  · subst k
    rw [hfns fn]
  · exact hfns k

theorem PauseNoted.cmds {s t : State} (h : PauseNoted s t) : t.host.cmds = s.host.cmds := by rw [h.1]

theorem PauseNoted.notices {s t : State} (h : PauseNoted s t) : t.host.notices = s.host.notices := by rw [h.1]

theorem State.notePause_noted (s : State) : PauseNoted s s.notePause := by
  unfold State.notePause
  refine List.foldlRecOn s.functions _ ⟨rfl, fun k => rfl⟩ fun t ht fn _ => ?_
  dsimp only
  refine PauseNoted.setLogged ?_ fn _
  have hlog (c : Prop) [Decidable c] (a0 a1 a2 : Nat) : PauseNoted s (if c then t.logHost fn.val 0x7001 a0 a1 a2 else t) := by
    split
    · exact ht.of_host_eq ((State.logHost_keeps ..).frame .host (by decide))
    · exact ht
  split
  · exact (hlog ..).endTurn
  · exact hlog ..

/-! ## WO.GET (R239) -/

section WoGet

variable {s : State} {b : Fin 24} {u : Upset} {i : Ins}

theorem State.issued_famChecks {fam : Nat} (h : s.capBit b fam = true) (f : Effect) : (s.issued b i.next).famChecks b fam f = f := by
  rw [State.famChecks, State.issued_capBit, if_pos h]

theorem State.issued_nextOrder : (s.issued b i.next).nextOrder = s.nextOrder := by
  unfold State.nextOrder
  rw [State.issued_host]

/-- The place that an order's bytes name is the same when the instruction has issued. -/
theorem State.issued_orderBytes (c : HostCmd) : (s.issued b i.next).orderBytes c = s.orderBytes c := by
  have hfld {k : Nat} (hk : k < 0x081000 ∨ 0x082000 ≤ k) (p : FieldPos) : (s.issued b i.next).fld k p = s.fld k p :=
    (s.issued_headsAlike b i.next).fld p hk
  unfold State.orderBytes State.dataArea State.dataBase State.slotRecAddr State.plBase
  rw [hfld (by decide), hfld (by decide), hfld (by decide), hfld (by decide)]

theorem orderBytes_head (s : State) (c : HostCmd) :
    ((s.orderBytes c).take 48).map (· % 256) = natBytes 8 c.stamp ++ natBytes 2 c.slot ++ [c.kind.orderKind.getD 0, (c.fn + 2 * bitOf c.fua) % 256] ++
      natBytes 4 c.nsid ++ natBytes 8 c.firstRange.1 ++ natBytes 4 c.firstRange.2 ++ natBytes 4 0 ++ natBytes 8 (s.dataArea c.slot) ++
      natBytes 8 (if c.kind.looksUp then s.slotRecAddr c.slot else 0) := by
  have hkind : c.kind.orderKind.getD 0 % 256 = c.kind.orderKind.getD 0 := by
    cases c.kind <;> rfl
  unfold State.orderBytes
  dsimp only
  rw [List.take_left' (by simp [natBytes_length])]
  simp only [List.map_append, natBytes_mod, List.map_cons, List.map_nil, hkind]

/-- The bytes of an order are at least 48, and 64 where the command has its dwords. -/
theorem orderBytes_length (s : State) (c : HostCmd) : 48 ≤ (s.orderBytes c).length ∧ (4 ≤ c.cdw.length → (s.orderBytes c).length = 64) := by
  unfold State.orderBytes
  dsimp only
  simp only [List.length_append, natBytes_length, List.length_cons, List.length_nil]
  refine ⟨by omega, fun h => ?_⟩
  split
  · simp [natBytes_length]
    omega
  · simp

theorem orderBytes_dwords (s : State) (c : HostCmd) :
    ((s.orderBytes c).drop 48).map (· % 256) =
      if 6 ≤ c.kind.orderKind.getD 0 then (c.cdw.take 4).flatMap (natBytes 4) else List.replicate 16 0 := by
  unfold State.orderBytes
  dsimp only
  rw [List.drop_left' (by simp [natBytes_length])]
  split
  · rw [List.map_flatMap]
    simp only [natBytes_mod]
  · rfl

end WoGet

section Fetch

variable {s : State} {b : Fin 24} {i : Ins} {p : Space} {bs : List Nat}

/-- The state in which the bytes of an order or a notice lie in the bobbin's scratch and its predicate is set. -/
def State.fetched (s : State) (b : Fin 24) (i : Ins) (p : Space) (bs : List Nat) : State :=
  ((s.issued b i.next).spaceWrite b p bs).setP b i.rd true

theorem Bobbin.putPred_withScratch (x : Bobbin) (r : Nat) (v : Bool) (l : List (Nat × Byte)) :
    ({ x with scratch := l }).putPred r v = { x.putPred r v with scratch := l } := by
  unfold Bobbin.putPred
  split <;> rfl

theorem State.fetched_keeps (s : State) (b : Fin 24) (i : Ins) (p : Space) (bs : List Nat) : Keeps [.regs, .seq] s (s.fetched b i p bs) :=
  Keeps.step (State.setP_keeps ..) rfl (Keeps.step (State.spaceWrite_keeps ..) rfl (State.issued_keeps ..))

theorem State.fetched_host (s : State) (b : Fin 24) (i : Ins) (p : Space) (bs : List Nat) : (s.fetched b i p bs).host = s.host :=
  (s.fetched_keeps b i p bs).frame .host (by decide)

theorem State.fetched_regsBut (s : State) (b : Fin 24) (i : Ins) (p : Space) (bs : List Nat) :
    RegsBut [R.SQ_BOB_ISSUED b.val] s (s.fetched b i p bs) :=
  ((s.issued_regsBut b i.next).trans (regsBut_of_regs_eq ((State.spaceWrite_keeps ..).frame .regs (by decide)))).trans
    (regsBut_of_regs_eq ((State.setP_keeps ..).frame .regs (by decide)))

variable {a n : Nat} (h : scratchAt a n = .ok p)

include h

theorem State.fetched_bob :
    (s.fetched b i p bs).bob b = { ((s.bob b).past i s.now).putPred i.rd true with scratch := ((s.fetched b i p bs).bob b).scratch } ∧
      ∀ d : Fin 24, d ≠ b → (s.fetched b i p bs).bob d = s.bob d := by
  obtain ⟨hself, hother⟩ := State.spaceWrite_bob (s := s.issued b i.next) (b := b) h bs
  refine ⟨?_, fun d hd => ?_⟩
  · unfold State.fetched State.setP
    rw [State.bob_modBob_self, hself, s.issued_bob_self, Bobbin.putPred_withScratch]
  · rw [State.fetched, State.setP, State.bob_modBob_other _ _ hd, hother d hd, s.issued_bob_other _ hd]

theorem State.fetched_bytes {k m : Nat} (hk : m ≤ k) (hlen : m ≤ bs.length) :
    ((s.fetched b i p bs).spaceRead b p k).take m = (bs.take m).map (· % 256) := by
  unfold State.fetched
  rw [State.setP_spaceRead _ _ _ _ h]
  exact State.spaceRead_spaceWrite h bs hk hlen

end Fetch

section WoGetIssues

variable {s : State} {b : Fin 24} {u : Upset} {i : Ins} {p : Space} (hi : Issues s b u i) (hop : i.op = 0x74)
  (hcap : s.capBit b famWO = true) (hp : scratchAt (valA s b i).toNat 64 = .ok p)

include hi hop hcap hp

theorem exec_woGet_order {c : HostCmd} (hnone : s.host.notices = []) (hnext : s.nextOrder = some c) :
    exec (.woGet b u) s = .next ((s.fetched b i p (s.orderBytes c)).modCmd c.stamp fun c => { c with order := .taken b }) := by
  refine exec_ok_of_issues hi hop (.refl (execWoGet b u s)) ?_
  rw [State.issued_famChecks hcap, s.g_issued_ra, hp]
  simp only [bind, Except.bind, State.issued_host, hnone, State.issued_nextOrder, hnext, State.issued_orderBytes]
  rfl

theorem exec_woGet_notice {x : Notice} {rest : List Notice} (hx : s.host.notices = x :: rest) :
    exec (.woGet b u) s = .next ((s.fetched b i p (noticeBytes x)).modHost fun h => { h with notices := rest }).notePause := by
  refine exec_ok_of_issues hi hop (.refl (execWoGet b u s)) ?_
  rw [State.issued_famChecks hcap, s.g_issued_ra, hp]
  simp only [bind, Except.bind, State.issued_host, hx]
  rfl

theorem exec_woGet_empty (hnone : s.host.notices = []) (hnext : s.nextOrder = none) :
    exec (.woGet b u) s = .next (((s.issued b i.next).setP b i.rd false).modBob b fun x => { x with wantsOrder := true }) := by
  refine exec_ok_of_issues hi hop (.refl (execWoGet b u s)) ?_
  rw [State.issued_famChecks hcap, s.g_issued_ra, hp]
  simp only [bind, Except.bind, State.issued_host, hnone, State.issued_nextOrder, hnext]

end WoGetIssues

theorem woGet_order (b : Fin 24) (u : Upset) (i : Ins) (p : Space) (c : HostCmd) :
    Completes (.woGet b u)
      (fun s => Issues s b u i ∧ i.op = 0x74 ∧ s.capBit b famWO = true ∧ scratchAt (valA s b i).toNat 64 = .ok p ∧ s.host.notices = [] ∧
          s.nextOrder = some c ∧ s.cmdOf c.stamp = some c)
      [.events, .regs, .seq, .host]
      fun s t => t.bob b = { ((s.bob b).past i s.now).putPred i.rd true with scratch := (t.bob b).scratch } ∧ (t.spaceRead b p 64).take 48 =
            natBytes 8 c.stamp ++ natBytes 2 c.slot ++ [c.kind.orderKind.getD 0, (c.fn + 2 * bitOf c.fua) % 256] ++ natBytes 4 c.nsid ++
              natBytes 8 c.firstRange.1 ++ natBytes 4 c.firstRange.2 ++ natBytes 4 0 ++ natBytes 8 (s.dataArea c.slot) ++
              natBytes 8 (if c.kind.looksUp then s.slotRecAddr c.slot else 0) ∧
          (4 ≤ c.cdw.length → (t.spaceRead b p 64).drop 48 =
            if 6 ≤ c.kind.orderKind.getD 0 then (c.cdw.take 4).flatMap (natBytes 4) else List.replicate 16 0) ∧
          t.cmdOf c.stamp = some { c with order := .taken b } ∧ (∀ d : Fin 24, d ≠ b → t.bob d = s.bob d) ∧ RegsBut [R.SQ_BOB_ISSUED b.val] s t := by
  refine Completes.of_keeps (execWoGet_keeps b u) ?_
  rintro s - ⟨hi, hop, hcap, hp, hnone, hnext, hc⟩
  obtain ⟨hlen, hfull⟩ := orderBytes_length s c
  obtain ⟨hself, hother⟩ := State.fetched_bob (s := s) (b := b) (i := i) (bs := s.orderBytes c) hp
  refine ⟨_, exec_woGet_order hi hop hcap hp hnone hnext, hself, ?_, fun hcdw => ?_, ?_, hother, s.fetched_regsBut b i p _⟩
  · exact (State.fetched_bytes hp (by decide) hlen).trans (orderBytes_head s c)
  · have hall : (s.fetched b i p (s.orderBytes c)).spaceRead b p 64 = (s.orderBytes c).map (· % 256) := by
      have h := State.fetched_bytes (s := s) (b := b) (i := i) hp (Nat.le_refl 64) (hfull hcdw).ge
      rwa [List.take_of_length_le (hfull hcdw).le, List.take_of_length_le] at h
      obtain ⟨o, rfl⟩ | ⟨o, rfl⟩ := scratchAt_cases hp <;> simp [State.spaceRead, scratchBytes]
    show ((s.fetched b i p (s.orderBytes c)).spaceRead b p 64).drop 48 = _
    rw [hall, ← List.map_drop, orderBytes_dwords]
  · exact State.cmdOf_modCmd_self ((State.cmdOf_congr (congrArg HostState.cmds (State.fetched_host ..)) _).trans hc) _ fun _ => rfl

theorem woGet_notice (b : Fin 24) (u : Upset) (i : Ins) (p : Space) (x : Notice) (rest : List Notice) :
    Completes (.woGet b u)
      (fun s => Issues s b u i ∧ i.op = 0x74 ∧ s.capBit b famWO = true ∧ scratchAt (valA s b i).toNat 64 = .ok p ∧ s.host.notices = x :: rest)
      [.events, .regs, .seq, .host]
      fun s t => t.bob b = { ((s.bob b).past i s.now).putPred i.rd true with scratch := (t.bob b).scratch } ∧ 
          t.spaceRead b p 64 = natBytes 8 x.stamp ++ natBytes 2 x.slot ++ [11, x.fn % 256] ++ List.replicate 52 0 ∧
          t.host.notices = rest ∧ t.host.cmds = s.host.cmds ∧ (∀ d : Fin 24, d ≠ b → t.bob d = s.bob d) ∧ RegsBut [R.SQ_BOB_ISSUED b.val] s t := by
  refine Completes.of_keeps (execWoGet_keeps b u) ?_
  rintro s - ⟨hi, hop, hcap, hp, hx⟩
  obtain ⟨hself, hother⟩ := State.fetched_bob (s := s) (b := b) (i := i) (bs := noticeBytes x) hp
  have hlen : (noticeBytes x).length = 64 := by simp [noticeBytes, natBytes_length]
  have hkeeps := State.notePause_keeps ((s.fetched b i p (noticeBytes x)).modHost fun h => { h with notices := rest })
  have hseq := hkeeps.frame .seq (by decide)
  have hcmds := congrArg HostState.cmds (s.fetched_host b i p (noticeBytes x))
  have hnoted := State.notePause_noted ((s.fetched b i p (noticeBytes x)).modHost fun h => { h with notices := rest })
  refine ⟨_, exec_woGet_notice hi hop hcap hp hx, ?_, ?_, ?_, ?_, fun d hd => ?_, ?_⟩
  · rw [State.bob_congr hseq]
    exact hself
  · rw [State.spaceRead_congr hseq]
    have h := State.fetched_bytes (s := s) (b := b) (i := i) hp (Nat.le_refl 64) hlen.ge
    rw [List.take_of_length_le hlen.le, List.take_of_length_le] at h
    · refine Eq.trans h ?_
      simp only [noticeBytes, List.map_append, natBytes_mod]
      rfl
    · obtain ⟨o, rfl⟩ | ⟨o, rfl⟩ := scratchAt_cases hp <;> simp [State.spaceRead, scratchBytes]
  · exact hnoted.notices
  · exact hnoted.cmds.trans hcmds
  · rw [State.bob_congr hseq]
    exact hother d hd
  · exact (s.fetched_regsBut b i p _).trans (regsBut_of_regs_eq (hkeeps.frame .regs (by decide)))

theorem woGet_empty (b : Fin 24) (u : Upset) (i : Ins) (p : Space) :
    Completes (.woGet b u)
      (fun s => Issues s b u i ∧ i.op = 0x74 ∧ s.capBit b famWO = true ∧ scratchAt (valA s b i).toNat 64 = .ok p ∧ s.host.notices = [] ∧ s.nextOrder = none)
      [.events, .regs, .seq, .host]
      fun s t => Becomes b { (((s.bob b).past i s.now).putPred i.rd false) with wantsOrder := true } s t ∧ t.host = s.host ∧ t.events = s.events := by
  refine Completes.of_keeps (execWoGet_keeps b u) ?_
  rintro s - ⟨hi, hop, hcap, hp, hnone, hnext⟩
  exact ⟨_, exec_woGet_empty hi hop hcap hp hnone hnext, ((s.issued_becomes b i).setP i.rd false).modBob _, s.issued_host b i.next, s.issued_events b i.next⟩

end Sys2Proof.Machine
end

section
/-!
PROOFS. Work orders as they are issued and announced, the host's asynchronous events, HOST_READY and the start of a firmware
activation (R238, R239, R268, R280, R283, R349).
-/

namespace Sys2Proof.Machine

/-! ## A change of every bobbin -/

/-- What one change does at its own place, whenever its turn comes, every change of a run through places does at its. -/
theorem foldl_at {ι α : Type} {P : State → Prop} {f : State → ι → State} {view : State → ι → α} {r : ι → α → α → Prop} {l : List ι} (hl : l.Nodup)
    (hP : ∀ t i, P t → P (f t i)) (hself : ∀ t i, P t → r i (view t i) (view (f t i) i))
    (hother : ∀ t i j, j ≠ i → view (f t i) j = view t j) {s : State} (hs : P s) {i : ι} (hi : i ∈ l) :
    r i (view s i) (view (l.foldl f s) i) := by
  have hout (l : List ι) (t : State) (hi : i ∉ l) : view (l.foldl f t) i = view t i := by
    induction l generalizing t with
    | nil => rfl
    | cons c l ih =>
      obtain ⟨hne, hl⟩ := not_or.mp (mt List.mem_cons.mpr hi)
      rw [List.foldl_cons, ih _ hl, hother t c i hne]
  induction l generalizing s with
  | nil => cases hi
  | cons c l ih =>
    rw [List.nodup_cons] at hl
    rw [List.foldl_cons]
    by_cases hc : i = c
    · subst c
      rw [hout l _ hl.1]
      exact hself s i hs
    · rw [← hother s c i hc]
      exact ih hl.2 (hP s c hs) ((List.mem_cons.mp hi).resolve_left hc)

/-- So with all bobbins, and with the functions. -/
theorem foldl_bob {P : State → Prop} {f : State → Fin 24 → State} {r : Fin 24 → Bobbin → Bobbin → Prop} (hP : ∀ t b, P t → P (f t b))
    (hself : ∀ t b, P t → r b (t.bob b) ((f t b).bob b)) (hother : ∀ t b c, c ≠ b → (f t b).bob c = t.bob c) {s : State} (hs : P s)
    (b : Fin 24) : r b (s.bob b) (((List.finRange 24).foldl f s).bob b) :=
  foldl_at (List.nodup_finRange 24) hP hself hother hs (List.mem_finRange b)

theorem State.functions_nodup (s : State) : s.functions.Nodup := by
  unfold State.functions
  split <;> decide

/-! ## Orders that are announced (R238, R239) -/

/-- The entry that tells a bobbin of an order. -/
def orderEntry (s : State) (x : Bobbin) : EvEntry := ⟨s.stamp .host, workOrderTag, .workOrder, 0, 0, srcHost 0, x.epoch, false⟩

/-- A bobbin that wants an order and has room is told of it. -/
def State.told (s : State) (x : Bobbin) : Bobbin :=
  if x.wantsOrder = true ∧ x.occupied < 32 then { x with wantsOrder := false, arriving := x.arriving ++ [orderEntry s x] } else x

theorem State.announceOrders_bob {s : State} (h : s.ordersWaiting ≠ 0) (b : Fin 24) : s.announceOrders.bob b = s.told (s.bob b) := by
  unfold State.announceOrders
  rw [if_neg h]
  refine foldl_bob (P := fun t => t.time = s.time) (r := fun _ x y => y = s.told x) (fun t b ht => ?_) (fun t b ht => ?_) (fun t b c hc => ?_) rfl b
  · split
    · exact ht
    · exact ht
  · unfold State.told
    by_cases hw : (t.bob b).wantsOrder = true ∧ (t.bob b).occupied < 32
    · rw [if_pos hw, if_pos (by simpa using hw), State.sendEntry, State.bob_modBob_self, State.bob_modBob_self]
      unfold orderEntry
      rw [← State.stamp_congr ht]
      rfl
    · rw [if_neg hw, if_neg (by simpa using hw)]
  · split
    · rw [State.sendEntry, State.bob_modBob_other _ _ hc, State.bob_modBob_other _ _ hc]
    · rfl

theorem State.ordersWaiting_of_queued {s : State} {x : Stamp} {c : HostCmd} (h : s.cmdOf x = some c) (hq : c.order = .queued) :
    s.ordersWaiting ≠ 0 := by
  have hmem : c ∈ s.host.cmds.filter fun c => c.order == .queued := List.mem_filter.mpr ⟨State.cmdOf_mem h, by rw [hq]; rfl⟩
  have := List.length_pos_of_mem hmem
  unfold State.ordersWaiting
  omega

theorem State.announceOrders_cmdOf (s : State) (x : Stamp) : s.announceOrders.cmdOf x = s.cmdOf x :=
  State.cmdOf_congr (congrArg HostState.cmds ((State.announceOrders_keeps s).frame .host (by decide))) x

theorem workOrderIssue_plain (slot : Fin 8192) (c : HostCmd) :
    Completes (.workOrderIssue slot)
      (fun s => s.cmdAt slot.val = some c ∧ s.cmdOf c.stamp = some c ∧ s.orderDue c = true ∧ c.kind.looksUp = false)
      [.seq, .host]
      fun s t => t.cmdOf c.stamp = some { c with order := .queued } ∧
          (∀ b : Fin 24, (s.bob b).wantsOrder = true → (s.bob b).occupied < 32 →
            t.bob b = { s.bob b with wantsOrder := false, arriving := (s.bob b).arriving ++ [⟨s.stamp .host, workOrderTag, .workOrder, 0, 0, srcHost 0, (s.bob b).epoch, false⟩] }) ∧
          (∀ b : Fin 24, (s.bob b).wantsOrder = false → t.bob b = s.bob b) := by
  rintro s - ⟨hat, hc, hdue, hplain⟩
  have hread : c.kind ≠ .read := by
    intro h
    rw [h] at hplain
    cases hplain
  have hqueued : (s.modCmd c.stamp fun c => { c with order := .queued }).cmdOf c.stamp = some { c with order := .queued } :=
    State.cmdOf_modCmd_self hc _ fun _ => rfl
  have hbob := State.announceOrders_bob (State.ordersWaiting_of_queued hqueued rfl)
  refine ⟨(s.modCmd c.stamp fun c => { c with order := .queued }).announceOrders, ?_, ?_, ?_, fun b hw hroom => ?_, fun b hw => ?_⟩
  · show execWorkOrderIssue slot s = _
    rw [execWorkOrderIssue, hat]
    dsimp only
    rw [when_of_true hdue]
    simp only [hplain, hread, Bool.false_eq_true, if_false, Bool.not_true]
  · exact (Keeps.step (State.announceOrders_keeps _) rfl (Keeps.mono (State.modCmd_keeps ..) rfl)).frame
  · rw [State.announceOrders_cmdOf, hqueued]
  · rw [hbob b]
    exact if_pos ⟨hw, hroom⟩
  · rw [hbob b]
    exact if_neg (by rintro ⟨h, -⟩; exact Bool.false_ne_true (hw.symm.trans h))

/-! ## Orders whose granules are looked up (R268, R291) -/

theorem State.cmdOf_isSome_of_ids {s t : State} (h : t.cmdIds = s.cmdIds) (x : Stamp) : (t.cmdOf x).isSome = (s.cmdOf x).isSome := by
  have hids (u : State) : (u.cmdOf x).isSome = u.cmdIds.any fun e => e.1 == x := by
    rw [State.cmdOf, State.cmdIds, List.any_map, Bool.eq_iff_iff, List.find?_isSome, List.any_eq_true]
    rfl
  rw [hids, hids, h]

theorem State.cmdIds_congr {s t : State} (h : t.host = s.host) : t.cmdIds = s.cmdIds := by
  unfold State.cmdIds
  rw [h]

/-- A record of a slot changes no command but in the frames that it names. -/
theorem State.writeSlotRecord_ids (s : State) (c : HostCmd) : (s.writeSlotRecord c).2.cmdIds = s.cmdIds := by
  unfold State.writeSlotRecord
  dsimp only
  refine (State.modCmd_ids _ _ _ ?_).trans (State.cmdIds_congr ?_)
  · exact fun _ => ⟨rfl, rfl⟩
  refine List.foldlRecOn (motive := fun t : State => t.host = s.host) _ _ ?_ fun t ht f _ => ?_
  · exact ((State.memWrite_keeps ..).frame .host (by decide)).trans ((State.lookup_keeps ..).frame .host (by decide))
  · exact ((State.setFrRefs_keeps ..).frame .host (by decide)).trans ht

/-- The order enters the queue, the bobbins being told. -/
def State.queueOrder (s : State) (x : Stamp) : State := (s.modCmd x fun c => { c with order := .queued }).announceOrders

theorem State.queueOrder_order {s : State} {x : Stamp} (h : (s.cmdOf x).isSome = true) :
    ((s.queueOrder x).cmdOf x).map (·.order) = some .queued := by
  obtain ⟨c, hc⟩ := Option.isSome_iff_exists.mp h
  rw [State.queueOrder, State.announceOrders_cmdOf, State.cmdOf_modCmd_self hc (fun c => { c with order := .queued }) fun _ => rfl]
  rfl

theorem State.queueOrder_mem (s : State) (x : Stamp) : (s.queueOrder x).mem = s.mem := (State.announceOrders_keeps _).frame .mem (by decide)

theorem workOrderIssue_looksUp (slot : Fin 8192) (c : HostCmd) :
    Completes (.workOrderIssue slot)
      (fun s => s.cmdAt slot.val = some c ∧ s.cmdOf c.stamp = some c ∧ s.orderDue c = true ∧ c.kind.looksUp = true ∧ (s.writeSlotRecord c).1 = true)
      [.events, .regs, .heads, .decode, .seq, .mem, .host, .sec, .out]
      fun s t => (t.cmdOf c.stamp).map (·.order) = some .queued ∧ (c.kind ≠ .read → t.mem = (s.writeSlotRecord c).2.mem) := by
  refine Completes.of_keeps (execWorkOrderIssue_keeps slot) ?_
  rintro s - ⟨hat, hc, hdue, hlooks, hgood⟩
  have hfound : ((s.writeSlotRecord c).2.cmdOf c.stamp).isSome = true := by
    rw [State.cmdOf_isSome_of_ids (s.writeSlotRecord_ids c), hc]
    rfl
  refine ⟨(if c.kind = .read then (s.writeSlotRecord c).2.claimFor c else (s.writeSlotRecord c).2).queueOrder c.stamp, ?_, ?_, fun hnot => ?_⟩
  · show execWorkOrderIssue slot s = _
    rw [execWorkOrderIssue, hat]
    dsimp only
    rw [when_of_true hdue]
    simp only [hlooks, if_true, hgood, Bool.not_true, Bool.false_eq_true, if_false]
    rfl
  · refine State.queueOrder_order ?_
    split
    · rw [State.cmdOf_congr (congrArg HostState.cmds ((State.claimFor_keeps ..).frame .host (by decide)))]
      exact hfound
    · exact hfound
  · rw [if_neg hnot, State.queueOrder_mem]

/-! ## Completions with a full queue (R269) -/

theorem completionPost_full (slot : Fin 8192) (c : HostCmd) (d : Decision) (q : CmpQ) :
    Completes (.completionPost slot)
      (fun s => s.cmdAt slot.val = some c ∧ c.decided = some d ∧ s.cq c.fn c.cqid = some q ∧ (q.tail + 1) % q.size = q.head)
      []
      fun _ _ => True :=
  Completes.of_unchanged fun s ⟨hat, hd, hq, hfull⟩ => by
    show execCompletionPost slot s = _
    rw [execCompletionPost, hat]
    dsimp only
    rw [hd, hq]
    dsimp only
    exact when_of_false (by rw [hfull]; simp) _ _

/-! ## HOST_READY (R349) -/

/-- The stage that HOST_READY reaches. -/
theorem State.reachStage_reg (s : State) (stage k : Nat) :
    (s.reachStage stage).reg k = (s.setFld R.SYS_BOOT F.SYS_BOOT_STAGE (max stage (s.fld R.SYS_BOOT F.SYS_BOOT_STAGE))).reg k := State.logAt_reg ..

theorem State.raiseReady_other (s : State) {j k : Fin 2} (h : k ≠ j) :
    (s.raiseReady j.val).rdy k.val = s.rdy k.val ∧ (s.raiseReady j.val).fnOf k.val = s.fnOf k.val := by
  have hkey : fnKey k.val nvmeCSTS ∉ [fnKey j.val nvmeCSTS] := by
    simp only [List.mem_singleton, fnKey]
    omega
  refine ⟨State.rdy_congr (s.raiseReady_regsBut j.val _ hkey), ?_⟩
  unfold State.raiseReady
  split
  · rw [State.fnOf_modFn, if_neg h]
    exact State.fnOf_congr (congrArg HostState.fns (State.setCtl_host ..)) _
  · rfl

theorem State.raiseReady_boot (s : State) (j : Fin 2) : (s.raiseReady j.val).reg R.SYS_BOOT = s.reg R.SYS_BOOT :=
  s.raiseReady_regsBut j.val _ (by simp only [List.mem_singleton, fnKey, nvmeCSTS, R.SYS_BOOT]; omega)

theorem hostReadySet_first :
    Completes .hostReadySet
      (fun s => s.flag R.SYS_BOOT F.SYS_BOOT_HOST_READY = false)
      [.events, .regs, .host]
      fun s t => t.flag R.SYS_BOOT F.SYS_BOOT_HOST_READY = true ∧ t.fld R.SYS_BOOT F.SYS_BOOT_STAGE = max 5 (s.fld R.SYS_BOOT F.SYS_BOOT_STAGE) ∧
          (∀ f ∈ s.functions, (s.fnOf f.val).wantsRdy = true → t.rdy f.val = true ∧ (t.fnOf f.val).wantsRdy = false) ∧
          (∀ f ∈ s.functions, (s.fnOf f.val).wantsRdy = false → t.rdy f.val = s.rdy f.val) := by
  refine Completes.of_keeps execHostReadySet_keeps ?_
  rintro s - hnot
  have hrises : ∃ u : State, exec .hostReadySet s = .next (u.functions.foldl (fun (t : State) (fn : Fin 2) => t.raiseReady fn.val) u) ∧
      u.reg R.SYS_BOOT = ((s.setFld R.SYS_BOOT F.SYS_BOOT_HOST_READY 1).setFld R.SYS_BOOT F.SYS_BOOT_STAGE
        (max 5 ((s.setFld R.SYS_BOOT F.SYS_BOOT_HOST_READY 1).fld R.SYS_BOOT F.SYS_BOOT_STAGE))).reg R.SYS_BOOT ∧
      u.host = s.host ∧ u.boot = s.boot ∧ ∀ k : Fin 2, u.rdy k.val = s.rdy k.val := by
    refine ⟨_, ?_, State.reachStage_reg _ 5 _, ?_, ?_, fun k => State.rdy_congr ?_⟩
    · show execHostReadySet s = _
      rw [execHostReadySet, State.hostReady, if_neg (by rw [hnot]; decide)]
    · exact ((State.reachStage_keeps ..).frame .host (by decide)).trans (State.setFld_host ..)
    · exact ((State.reachStage_keeps ..).frame .boot (by decide)).trans (State.setFld_boot ..)
    · have hne : fnKey k.val nvmeCSTS ≠ R.SYS_BOOT := by
        simp only [fnKey, nvmeCSTS, R.SYS_BOOT]
        omega
      rw [State.reachStage_reg, State.reg_setFld_other _ _ _ hne, State.reg_setFld_other _ _ _ hne]
  obtain ⟨u, hexec, hboot, hhost, hsame, hrdy⟩ := hrises
  have hready : u.flag R.SYS_BOOT F.SYS_BOOT_HOST_READY = true := by
    rw [State.flag_congr hboot, State.flag_setFld_other _ _ _ _ _ (by decide) (by decide) (by decide) (by decide),
      State.flag_setFld_set _ _ _ (by decide) (by decide)]
  have hstage : u.fld R.SYS_BOOT F.SYS_BOOT_STAGE = max 5 (s.fld R.SYS_BOOT F.SYS_BOOT_STAGE) := by
    rw [State.fld_congr hboot, State.fld_setFld_self _ _ _ _ (by decide) (by decide),
      State.fld_setFld_other _ _ _ _ _ (by decide) (by decide) (by decide) (by decide)]
    exact Nat.mod_eq_of_lt (max_lt (by decide) (Nat.mod_lt _ (by decide)))
  have hkept : (u.functions.foldl (fun (t : State) (fn : Fin 2) => t.raiseReady fn.val) u).reg R.SYS_BOOT = u.reg R.SYS_BOOT :=
    List.foldlRecOn (motive := fun t : State => t.reg R.SYS_BOOT = u.reg R.SYS_BOOT) _ _ rfl fun t ht f _ => (t.raiseReady_boot f).trans ht
  have hrise (f : Fin 2) (hf : f ∈ s.functions) :=
    foldl_at (P := fun t => t.flag R.SYS_BOOT F.SYS_BOOT_HOST_READY = true) (view := fun t (k : Fin 2) => (t.rdy k.val, t.fnOf k.val))
      (f := fun (t : State) (fn : Fin 2) => t.raiseReady fn.val)
      (r := fun _ x y => (x.2.wantsRdy = true → y.1 = true ∧ y.2.wantsRdy = false) ∧ (x.2.wantsRdy = false → y.1 = x.1))
      u.functions_nodup (fun t k ht => (State.flag_congr (t.raiseReady_boot k) _).trans ht)
      (fun t k ht => ⟨fun hw => (t.raiseReady_cases k).1 ⟨hw, ht⟩,
        fun hw => by dsimp only at hw ⊢; rw [(t.raiseReady_cases k).2 (by simp [hw])]⟩)
      (fun t j k hne => Prod.ext (t.raiseReady_other hne).1 (t.raiseReady_other hne).2) hready
      (show f ∈ u.functions by rwa [State.functions_congr hsame])
  have hfn (k : Fin 2) : u.fnOf k.val = s.fnOf k.val := State.fnOf_congr (congrArg HostState.fns hhost) _
  refine ⟨_, hexec, (State.flag_congr hkept _).trans hready, (State.fld_congr hkept _).trans hstage, fun f hf hw => ?_, fun f hf hw => ?_⟩
  · exact (hrise f hf).1 ((congrArg FnState.wantsRdy (hfn f)).trans hw)
  · exact ((hrise f hf).2 ((congrArg FnState.wantsRdy (hfn f)).trans hw)).trans (hrdy f)

end Sys2Proof.Machine
end

section
/-!
PROOFS. Completions that are decided along the way (R269, R273, R276, R283): what they leave of the host island. The host's asynchronous
events, the start of a firmware activation, and WO.DONE.
-/

namespace Sys2Proof.Machine

/-! ## What deciding completions leaves -/

/-- From s to t completions have been decided: no command comes, leaves or opens again, and one that was decided stays as it is. -/
structure Concludes (s t : State) : Prop where
  host : t.host = { s.host with cmds := t.host.cmds, fns := t.host.fns, nextSeq := t.host.nextSeq }
  ids : t.cmdIds = s.cmdIds
  undecided : ∀ d ∈ t.host.cmds, d.decided = none → d ∈ s.host.cmds
  kept : ∀ x c, s.cmdOf x = some c → c.decided.isSome = true → t.cmdOf x = some c

theorem Concludes.refl (s : State) : Concludes s s := ⟨rfl, rfl, fun _ h _ => h, fun _ _ h _ => h⟩

theorem Concludes.trans {s t u : State} (h : Concludes s t) (k : Concludes t u) : Concludes s u :=
  ⟨k.host.trans (by rw [h.host]), k.ids.trans h.ids, fun d hd hopen => h.undecided d (k.undecided d hd hopen) hopen,
    fun x c hc hd => k.kept x c (h.kept x c hc hd) hd⟩

theorem Concludes.of_host_eq {s t : State} (h : t.host = s.host) : Concludes s t := by
  have hcmds := congrArg HostState.cmds h
  refine ⟨by rw [h], by rw [State.cmdIds, State.cmdIds, hcmds], fun d hd _ => hcmds ▸ hd, fun x c hc _ => (State.cmdOf_congr hcmds x).trans hc⟩

theorem State.modFn_concludes (s : State) (fn : Nat) (f : FnState → FnState) : Concludes s (s.modFn fn f) :=
  ⟨rfl, rfl, fun _ h _ => h, fun _ _ h _ => h⟩

theorem State.conclude_concludes (s : State) (x : Stamp) (status dw0 : Nat) (bytes : List Nat) : Concludes s (s.conclude x status dw0 bytes) := by
  refine ⟨s.conclude_host .., s.conclude_ids .., fun d hd hopen => ?_, fun y c hc hdec => ?_⟩
  · obtain heq | ⟨c, hc, hnone⟩ := s.conclude_cases x status dw0 bytes
    · rwa [heq] at hd
    · rw [State.conclude_of_open hc hnone] at hd
      obtain ⟨e, he, rfl⟩ := List.mem_map.mp hd
      rw [show ((s.recordError c status dw0).releaseBands x).host = (s.recordError c status dw0).host from rfl, s.recordError_cmds] at he
      by_cases hx : e.stamp = x
      · rw [if_pos hx] at hopen
        cases hopen
      · rwa [if_neg hx]
  · obtain ⟨d, hd⟩ := Option.isSome_iff_exists.mp hdec
    exact State.conclude_keeps_decided hc hd ..

theorem Concludes.foldl {α : Type} {s : State} {f : State → α → State} (hf : ∀ t x, Concludes t (f t x)) (l : List α) : Concludes s (l.foldl f s) :=
  List.foldlRecOn (motive := Concludes s) l f (.refl s) fun t ht x _ => ht.trans (hf t x)

/-- A completion that is decided stays decided so. -/
theorem Concludes.decides {s t : State} (h : Concludes s t) {x : Stamp} {status dw0 : Nat} (hd : Decides x status dw0 s) : Decides x status dw0 t := by
  unfold Decides at *
  cases hc : s.cmdOf x with
  | none =>
    rw [hc] at hd
    cases hd
  | some c =>
    rw [hc] at hd
    have hdec : c.decided.isSome = true := by
      cases hdec : c.decided with
      | none =>
        rw [Option.bind_some, hdec] at hd
        cases hd
      | some d => rfl
    rwa [h.kept x c hc hdec]

theorem State.decideFlushes_concludes (s : State) : Concludes s s.decideFlushes := by
  unfold State.decideFlushes
  refine Concludes.foldl (fun t c => ?_) _
  split
  · exact .refl t
  · exact t.conclude_concludes ..

theorem State.decideFlushes_fns (s : State) : s.decideFlushes.host.fns = s.host.fns := by
  unfold State.decideFlushes
  refine List.foldlRecOn (motive := fun t : State => t.host.fns = s.host.fns) _ _ rfl fun t ht c _ => ?_
  split
  · exact ht
  · exact (State.conclude_fns (.inl rfl) ..).trans ht

theorem State.finishAborts_concludes (s : State) (x : Stamp) : Concludes s (s.finishAborts x) :=
  Concludes.foldl (fun t _ => t.conclude_concludes ..) _

/-! ## Asynchronous events (R283) -/

/-- What a function that keeps this enables. -/
def FnState.enables (f : FnState) (e : AsyncEv) : Bool :=
  testBitN ((f.features.lookup (0x0B * 65536 + 0)).getD (featureDefault (0x0B * 65536 + 0))) (eventBit e)

theorem State.eventEnabled_eq (s : State) (fn : Nat) (e : AsyncEv) : s.eventEnabled fn e = (s.fnOf fn).enables e := rfl

theorem State.openAer_none_of_concludes {s t : State} (h : Concludes s t) {fn : Nat} (hs : s.openAer fn = none) : t.openAer fn = none := by
  unfold State.openAer at *
  rw [List.find?_eq_none] at *
  intro d hd hp
  refine hs d (h.undecided d hd ?_) hp
  simp only [Bool.and_eq_true, Option.isNone_iff_eq_none] at hp
  exact hp.2

theorem State.asyncIn_concludes (s : State) (fn : Nat) (e : AsyncEv) : Concludes s (s.asyncIn fn e) := by
  unfold State.asyncIn
  dsimp only
  split
  · exact .refl s
  · split
    · exact .refl s
    · split
      · exact (s.conclude_concludes ..).trans (State.modFn_concludes ..)
      · split
        · exact .of_host_eq ((State.logHost_keeps ..).frame .host (by decide))
        · exact s.modFn_concludes ..

theorem State.asyncIn_other (s : State) (e : AsyncEv) {j k : Fin 2} (h : k ≠ j) : (s.asyncIn j.val e).fnOf k.val = s.fnOf k.val := by
  unfold State.asyncIn
  dsimp only
  split
  · rfl
  · split
    · rfl
    · split
      · rw [State.answerAer, State.fnOf_modFn, if_neg h]
        exact State.fnOf_congr (State.conclude_fns (.inl rfl) ..) _
      · split
        · exact State.fnOf_congr (congrArg HostState.fns ((State.logHost_keeps ..).frame .host (by decide))) _
        · rw [State.fnOf_modFn, if_neg h]

/-- An event that no function waits for and none precedes is held pending. -/
theorem State.asyncIn_pending (s : State) (e : AsyncEv) (k : Fin 2) :
    ((s.fnOf k.val).enables e = false → s.asyncIn k.val e = s) ∧
      ((s.fnOf k.val).enables e = true → s.openAer k.val = none → (s.fnOf k.val).pending = [] →
        ((s.asyncIn k.val e).fnOf k.val).pending = [e]) := by
  unfold State.asyncIn
  dsimp only
  rw [State.eventEnabled_eq]
  refine ⟨fun hoff => if_pos (by rw [hoff]; rfl), fun hon haer hnone => ?_⟩
  rw [if_neg (by rw [hon]; decide), if_neg (by rw [hnone]; exact Bool.false_ne_true), haer]
  dsimp only
  rw [if_neg (by rw [hnone]; decide), State.fnOf_modFn, if_pos rfl, hnone]
  rfl

theorem State.raiseAsync_concludes (s : State) (type info lid : Nat) : Concludes s (s.raiseAsync type info lid) :=
  Concludes.foldl (fun t _ => t.asyncIn_concludes ..) _

/-- An event in each function. -/
theorem State.raiseAsync_fnOf (s : State) (type info lid : Nat) {f : Fin 2} (hf : f ∈ s.functions) :
    (s.eventEnabled f.val ⟨type, info, lid⟩ = false → (s.raiseAsync type info lid).fnOf f.val = s.fnOf f.val) ∧
      (s.eventEnabled f.val ⟨type, info, lid⟩ = true → s.openAer f.val = none → (s.fnOf f.val).pending = [] →
        ((s.raiseAsync type info lid).fnOf f.val).pending = [⟨type, info, lid⟩]) := by
  obtain ⟨hoff, hon⟩ := foldl_at (P := fun t => ∀ k : Fin 2, s.openAer k.val = none → t.openAer k.val = none)
    (view := fun t (k : Fin 2) => t.fnOf k.val) (f := fun (t : State) (fn : Fin 2) => t.asyncIn fn.val ⟨type, info, lid⟩)
    (r := fun k x y => (x.enables ⟨type, info, lid⟩ = false → y = x) ∧
      (x.enables ⟨type, info, lid⟩ = true → s.openAer k.val = none → x.pending = [] → y.pending = [⟨type, info, lid⟩]))
    s.functions_nodup (fun t j ht k hk => State.openAer_none_of_concludes (t.asyncIn_concludes ..) (ht k hk))
    (fun t k ht => ⟨fun h => congrArg (fun u : State => u.fnOf k.val) ((t.asyncIn_pending _ k).1 h),
      fun h haer => (t.asyncIn_pending _ k).2 h (ht k haer)⟩)
    (fun t j k hne => t.asyncIn_other _ hne) (fun _ h => h) hf
  exact ⟨hoff, hon⟩

theorem woAen_raises (b : Fin 24) (u : Upset) (i : Ins) :
    Completes (.woAen b u)
      (fun s => Issues s b u i ∧ i.op = 0x76 ∧ s.capBit b famWO = true)
      [.events, .regs, .decode, .seq, .host]
      fun s t => Becomes b ((s.bob b).past i s.now) s t ∧
          (∀ f ∈ s.functions,
            (s.eventEnabled f.val ⟨(valA s b i).toNat % 256, (valA s b i).toNat / 2 ^ 8 % 256, (valA s b i).toNat / 2 ^ 16 % 256⟩ = false →
              t.fnOf f.val = s.fnOf f.val) ∧
            (s.eventEnabled f.val ⟨(valA s b i).toNat % 256, (valA s b i).toNat / 2 ^ 8 % 256, (valA s b i).toNat / 2 ^ 16 % 256⟩ = true →
              s.openAer f.val = none → (s.fnOf f.val).pending = [] →
              (t.fnOf f.val).pending = [⟨(valA s b i).toNat % 256, (valA s b i).toNat / 2 ^ 8 % 256, (valA s b i).toNat / 2 ^ 16 % 256⟩])) := by
  refine Completes.of_keeps (execWoAen_keeps b u) ?_
  rintro s - ⟨hi, hop, hcap⟩
  obtain ⟨hbob, helse, hregs⟩ := s.issued_becomes b i
  have hkeeps := State.raiseAsync_keeps (s.issued b i.next) ((valA s b i).toNat % 256) ((valA s b i).toNat / 2 ^ 8 % 256) ((valA s b i).toNat / 2 ^ 16 % 256)
  have hseq := hkeeps.frame .seq (by decide)
  refine ⟨(s.issued b i.next).raiseAsync _ _ _, exec_ok_of_issues hi hop (.refl (execWoAen b u s)) ?_,
    ⟨(State.bob_congr hseq b).trans hbob, helse.trans (Elsewhere.of_seq_eq hseq), hregs.trans (regsBut_of_regs_eq (hkeeps.frame .regs (by decide)))⟩, fun f hf => ?_⟩
  · rw [State.issued_famChecks hcap, s.g_issued_ra]
  · have hhost := s.issued_host b i.next
    have hfn := State.fnOf_congr (congrArg HostState.fns hhost) f.val
    have haer : (s.issued b i.next).openAer f.val = s.openAer f.val := by rw [State.openAer, hhost, State.openAer]
    have h := (s.issued b i.next).raiseAsync_fnOf ((valA s b i).toNat % 256) ((valA s b i).toNat / 2 ^ 8 % 256) ((valA s b i).toNat / 2 ^ 16 % 256)
      (show f ∈ (s.issued b i.next).functions by rwa [State.functions_congr (s.issued_boot b i.next)])
    rwa [State.eventEnabled_eq, hfn, haer, ← State.eventEnabled_eq] at h

/-! ## The start of a firmware activation (R280) -/

theorem State.setPp_pp (s : State) (v : Nat) {f : Fin 2} (hf : f ∈ s.functions) : (s.setPp v).ctl f.val nvmeCSTS cstsPp = v % 2 := by
  refine foldl_at (P := fun _ => True) (view := fun t (k : Fin 2) => t.ctl k.val nvmeCSTS cstsPp)
    (f := fun (t : State) (fn : Fin 2) => t.setCtl fn.val nvmeCSTS cstsPp v) (r := fun _ _ y => y = v % 2)
    s.functions_nodup (fun _ _ h => h) (fun t k _ => State.ctl_setCtl_self _ _ _ _ _ (by decide) (by decide)) (fun t j k hne => ?_) trivial hf
  refine State.ctl_congr _ (t.setCtl_regsBut _ _ _ _ _ ?_)
  simp only [List.mem_singleton, fnKey]
  omega

theorem State.setPp_host (s : State) (v : Nat) : (s.setPp v).host = s.host := (State.setPp_keeps s v).frame .host (by decide)

theorem firmwareActivationStart_stops (j : CommitJob) :
    Completes .firmwareActivationStart
      (fun s => s.host.commit = some j ∧ j.written = true ∧ j.ca = 3 ∧ s.host.activation = none)
      [.events, .regs, .decode, .host]
      fun s t => t.host.activation = some ⟨s.now, j.cmd, j.slot, false⟩ ∧ (∀ f ∈ s.functions, t.ctl f.val nvmeCSTS cstsPp = 1) ∧ t.host.commit = s.host.commit := by
  refine Completes.of_keeps execFirmwareActivationStart_keeps ?_
  rintro s - ⟨hj, hwritten, hca, hnone⟩
  have hkeeps := State.raiseAsync_keeps s 2 1 3
  have hnow : (s.raiseAsync 2 1 3).now = s.now := congrArg TimeState.tb (hkeeps.frame .time (by decide))
  have hcommit : (s.raiseAsync 2 1 3).host.commit = s.host.commit := by rw [(s.raiseAsync_concludes 2 1 3).host]
  refine ⟨((s.raiseAsync 2 1 3).modHost fun h => { h with
    activation := some ⟨(s.raiseAsync 2 1 3).now, j.cmd, j.slot, false⟩, arb := { h.arb with turn := none } }).setPp 1, ?_, ?_, fun f hf => ?_, ?_⟩
  · show execFirmwareActivationStart s = _
    rw [execFirmwareActivationStart, hj]
    exact when_of_true (by rw [hwritten, hca, hnone]; rfl) _ _
  · rw [State.setPp_host]
    show some (Activation.mk (s.raiseAsync 2 1 3).now _ _ _) = _
    rw [hnow]
  · refine State.setPp_pp _ 1 ?_
    rwa [State.functions_congr]
    exact hkeeps.frame .boot (by decide)
  · rw [State.setPp_host]
    exact hcommit

/-! ## WO.DONE (R239) -/

section WoDone

variable {s : State} {b : Fin 24} {u : Upset} {i : Ins} {p : Space} {slot : Nat}

/-- A completion request that reaches no order that is out changes nothing. -/
theorem State.orderDone_absent (h : s.cmdAt slot = none) (field dw0 : Nat) : s.orderDone slot field dw0 = (true, s) := by
  rw [State.orderDone, h]

theorem State.orderDone_snipped {c : HostCmd} (h : s.cmdAt slot = some c) (hheld : s.snipHeld c.stamp = true) (field dw0 : Nat) :
    s.orderDone slot field dw0 = (true, s) := by
  rw [State.orderDone, h]
  dsimp only
  rw [if_pos (by rw [hheld, Bool.or_true])]

section Out

variable {c : HostCmd} {a : Fin 24} (h : OrderOut s slot c a)

include h

theorem State.orderDone_succeeds {field : Nat} (hst : field / 2 % 2048 = 0) (dw0 : Nat) :
    s.orderDone slot field dw0 =
      (false, ((s.modCmd c.stamp fun c => { c with order := .returned }).orderSucceeds c dw0).advanceShutdown) := by
  obtain ⟨hat, -, htaken, hopen, hfree⟩ := h
  rw [State.orderDone, hat]
  dsimp only
  rw [htaken, hopen, hfree]
  exact (if_neg Bool.false_ne_true).trans (if_pos hst)

theorem State.orderDone_unrecovered {field : Nat} (hst : field / 2 % 2048 = stUnrecovered) (dw0 : Nat) :
    s.orderDone slot field dw0 =
      (false, (((s.modCmd c.stamp fun c => { c with order := .returned }).modHost fun h => { h with mediaErrors := h.mediaErrors + 1 }).conclude
        c.stamp stUnrecovered dw0).decideFlushes) := by
  obtain ⟨hat, -, htaken, hopen, hfree⟩ := h
  rw [State.orderDone, hat]
  dsimp only
  rw [htaken, hopen, hfree, hst]
  exact (if_neg Bool.false_ne_true).trans (if_neg (by decide))

end Out

theorem OrderOut.issued {c : HostCmd} {a : Fin 24} (h : OrderOut s slot c a) (b : Fin 24) (i : Ins) : OrderOut (s.issued b i.next) slot c a := by
  unfold OrderOut State.cmdAt State.cmdOf State.snipHeld at *
  rwa [State.issued_host]

/-- How a WO.DONE ends, by what its request finds. -/
theorem exec_woDone {t : State} {stale : Bool} (hi : Issues s b u i) (hop : i.op = 0x75) (hcap : s.capBit b famWO = true)
    (hp : scratchAt (valA s b i).toNat 16 = .ok p)
    (hdone : (s.issued b i.next).orderDone (fieldAt (s.spaceRead b p 16) 0 2) (fieldAt (s.spaceRead b p 16) 2 2) (fieldAt (s.spaceRead b p 16) 4 4) = (stale, t)) :
    exec (.woDone b u) s = .next (t.setG b i.rd (bitOf stale)) := by
  refine exec_ok_of_issues hi hop (.refl (execWoDone b u s)) ?_
  rw [State.issued_famChecks hcap, s.g_issued_ra, hp]
  simp only [bind, Except.bind, s.issued_spaceRead b i hp, hdone]

/-- The bobbin's own part of a WO.DONE whose request leaves the sequencer and the registers. -/
theorem writesRd_of_keeps {t : State} (hseq : t.seq = (s.issued b i.next).seq) (hregs : t.regs = (s.issued b i.next).regs) (v : Nat) :
    WritesRd b i (BitVec.ofNat 64 v) s (t.setG b i.rd v) := by
  obtain ⟨hbob, helse, hreg⟩ := s.issued_becomes b i
  exact Becomes.setG ⟨(State.bob_congr hseq b).trans hbob, helse.trans (Elsewhere.of_seq_eq hseq), hreg.trans (regsBut_of_regs_eq hregs)⟩ i.rd v

end WoDone

theorem woDone_absent (b : Fin 24) (u : Upset) (i : Ins) (p : Space) :
    Completes (.woDone b u)
      (fun s => Issues s b u i ∧ i.op = 0x75 ∧ s.capBit b famWO = true ∧ scratchAt (valA s b i).toNat 16 = .ok p ∧
          s.cmdAt (fieldAt (s.spaceRead b p 16) 0 2) = none)
      [.events, .regs, .heads, .decode, .seq, .mem, .host, .out]
      fun s t => WritesRd b i 1 s t ∧ t.host = s.host ∧ t.events = s.events := by
  refine Completes.of_keeps (execWoDone_keeps b u) ?_
  rintro s - ⟨hi, hop, hcap, hp, hnone⟩
  have hnone' : (s.issued b i.next).cmdAt (fieldAt (s.spaceRead b p 16) 0 2) = none := by rw [State.cmdAt, State.issued_host]; exact hnone
  exact ⟨_, exec_woDone hi hop hcap hp (State.orderDone_absent hnone' _ _), writesRd_of_keeps rfl rfl 1, s.issued_host b i.next, s.issued_events b i.next⟩

theorem woDone_snipped (b : Fin 24) (u : Upset) (i : Ins) (p : Space) (c : HostCmd) :
    Completes (.woDone b u)
      (fun s => Issues s b u i ∧ i.op = 0x75 ∧ s.capBit b famWO = true ∧ scratchAt (valA s b i).toNat 16 = .ok p ∧
          s.cmdAt (fieldAt (s.spaceRead b p 16) 0 2) = some c ∧ s.snipHeld c.stamp = true)
      [.events, .regs, .heads, .decode, .seq, .mem, .host, .out]
      fun s t => WritesRd b i 1 s t ∧ t.host = s.host ∧ t.events = s.events := by
  refine Completes.of_keeps (execWoDone_keeps b u) ?_
  rintro s - ⟨hi, hop, hcap, hp, hat, hheld⟩
  have hat' : (s.issued b i.next).cmdAt (fieldAt (s.spaceRead b p 16) 0 2) = some c := by rw [State.cmdAt, State.issued_host]; exact hat
  have hheld' : (s.issued b i.next).snipHeld c.stamp = true := by rw [State.snipHeld, State.issued_host]; exact hheld
  exact ⟨_, exec_woDone hi hop hcap hp (State.orderDone_snipped hat' hheld' _ _), writesRd_of_keeps rfl rfl 1, s.issued_host b i.next, s.issued_events b i.next⟩

/-! ### Orders that succeed -/

/-- No shutdown waits while every function runs. -/
theorem State.advanceShutdown_of_running {s : State} (h : ∀ k : Fin 2, (s.fnOf k.val).phase = .running) : s.advanceShutdown = s := by
  unfold State.advanceShutdown
  refine List.foldlRecOn (motive := fun t : State => t = s) _ _ rfl fun t ht f _ => ?_
  subst ht
  rw [h f]

/-- Of the host island a shutdown that goes on changes the functions alone. -/
theorem State.advanceShutdown_host (s : State) : s.advanceShutdown.host = { s.host with fns := s.advanceShutdown.host.fns } := by
  unfold State.advanceShutdown
  refine List.foldlRecOn (motive := fun t : State => t.host = { s.host with fns := t.host.fns }) _ _ rfl fun t ht f _ => ?_
  split
  · split
    · unfold State.modFn State.modHost
      dsimp only
      rw [(State.hemEvery_keeps t).frame .host (by decide), ht]
    · exact ht
  · exact ht

/-- The command whose order has come back, its result noted. -/
def HostCmd.answered (c : HostCmd) (dw0 : Nat) : HostCmd := { c with order := .returned, accepted := some ⟨dw0⟩ }

def State.answer (s : State) (x : Stamp) (dw0 : Nat) : State :=
  (s.modCmd x fun c => { c with order := .returned }).modCmd x fun c => { c with accepted := some ⟨dw0⟩ }

theorem State.answer_cmdOf {s : State} {c : HostCmd} (h : s.cmdOf c.stamp = some c) (dw0 : Nat) :
    (s.answer c.stamp dw0).cmdOf c.stamp = some (c.answered dw0) :=
  State.cmdOf_modCmd_self (State.cmdOf_modCmd_self h (fun c => { c with order := .returned }) fun _ => rfl)
    (fun c => { c with accepted := some ⟨dw0⟩ }) fun _ => rfl

/-- A read that has been answered, and counted. -/
def State.readAnswered (s : State) (c : HostCmd) (dw0 : Nat) : State :=
  (s.answer c.stamp dw0).modHost fun h => { h with reads := h.reads + 1, blocksRead := h.blocksRead + c.nlb }

theorem woDone_read (b : Fin 24) (u : Upset) (i : Ins) (p : Space) (c : HostCmd) (a : Fin 24) :
    Completes (.woDone b u)
      (fun s => Issues s b u i ∧ i.op = 0x75 ∧ s.capBit b famWO = true ∧ scratchAt (valA s b i).toNat 16 = .ok p ∧
          OrderOut s (fieldAt (s.spaceRead b p 16) 0 2) c a ∧ c.kind = .read ∧ fieldAt (s.spaceRead b p 16) 2 2 / 2 % 2048 = 0 ∧
          (∀ k : Fin 2, (s.fnOf k.val).phase = .running))
      [.events, .regs, .heads, .decode, .seq, .mem, .host, .out]
      fun s t => WritesRd b i 0 s t ∧ t.host.reads = s.host.reads + 1 ∧ t.host.blocksRead = s.host.blocksRead + c.nlb ∧
          t.cmdOf c.stamp = some (HostCmd.concluded { c with order := .returned, accepted := some ⟨fieldAt (s.spaceRead b p 16) 4 4⟩ } 0
            (fieldAt (s.spaceRead b p 16) 4 4) [] s.host.nextSeq) := by
  refine Completes.of_keeps (execWoDone_keeps b u) ?_
  rintro s - ⟨hi, hop, hcap, hp, hout, hkind, hst, hphase⟩
  have hhost := s.issued_host b i.next
  have hsame {α : Type} (f : HostState → α) : f (s.issued b i.next).host = f s.host := congrArg f hhost
  obtain ⟨-, hc, -, hopen, -⟩ := hout.issued b i
  generalize hdw : fieldAt (s.spaceRead b p 16) 4 4 = dw0
  have hanswer : ((s.issued b i.next).readAnswered c dw0).cmdOf c.stamp = some (c.answered dw0) := State.answer_cmdOf hc dw0
  have hfns : (((s.issued b i.next).readAnswered c dw0).conclude c.stamp 0 dw0).host.fns = s.host.fns :=
    (State.conclude_fns (.inl rfl) ..).trans (hsame HostState.fns)
  have hdone : (s.issued b i.next).orderDone (fieldAt (s.spaceRead b p 16) 0 2) (fieldAt (s.spaceRead b p 16) 2 2) (fieldAt (s.spaceRead b p 16) 4 4) =
      (false, ((s.issued b i.next).readAnswered c dw0).conclude c.stamp 0 dw0) := by
    rw [State.orderDone_succeeds (hout.issued b i) hst, hdw, State.orderSucceeds, hkind]
    refine congrArg (Prod.mk false) (State.advanceShutdown_of_running fun k => ?_)
    exact (congrArg FnState.phase (State.fnOf_congr hfns k.val)).trans (hphase k)
  have hkeeps := State.conclude_keeps ((s.issued b i.next).readAnswered c dw0) c.stamp 0 dw0 []
  have hnew := State.conclude_host ((s.issued b i.next).readAnswered c dw0) c.stamp 0 dw0 []
  refine ⟨_, exec_woDone hi hop hcap hp hdone,
    writesRd_of_keeps (hkeeps.frame .seq (by decide)) (hkeeps.frame .regs (by decide)) 0, ?_, ?_, ?_⟩
  · show (((s.issued b i.next).readAnswered c dw0).conclude c.stamp 0 dw0).host.reads = _
    rw [hnew]
    show (s.issued b i.next).host.reads + 1 = _
    rw [hhost]
  · show (((s.issued b i.next).readAnswered c dw0).conclude c.stamp 0 dw0).host.blocksRead = _
    rw [hnew]
    show (s.issued b i.next).host.blocksRead + c.nlb = _
    rw [hhost]
  · have hcmd := State.conclude_cmdOf hanswer hopen 0 dw0 []
    have hseq : ((s.issued b i.next).readAnswered c dw0).host.nextSeq = s.host.nextSeq := hsame HostState.nextSeq
    rw [hseq, if_neg (by decide)] at hcmd
    exact hcmd

theorem woDone_flush (b : Fin 24) (u : Upset) (i : Ins) (p : Space) (c : HostCmd) (a : Fin 24) :
    Completes (.woDone b u)
      (fun s => Issues s b u i ∧ i.op = 0x75 ∧ s.capBit b famWO = true ∧ scratchAt (valA s b i).toNat 16 = .ok p ∧
          OrderOut s (fieldAt (s.spaceRead b p 16) 0 2) c a ∧ c.kind = .flush ∧ fieldAt (s.spaceRead b p 16) 2 2 / 2 % 2048 = 0 ∧
          s.host.cmds = [c] ∧ s.flushBlocked c.stamp c.nsid = false)
      [.events, .regs, .heads, .decode, .seq, .mem, .host, .out]
      fun s t => t.host.cmds = [HostCmd.concluded { c with order := .returned, accepted := some ⟨fieldAt (s.spaceRead b p 16) 4 4⟩ } 0 0 [] s.host.nextSeq] := by
  refine Completes.of_keeps (execWoDone_keeps b u) ?_
  rintro s - ⟨hi, hop, hcap, hp, hout, hkind, hst, honly, hfree⟩
  have hhost := s.issued_host b i.next
  have hsame {α : Type} (f : HostState → α) : f (s.issued b i.next).host = f s.host := congrArg f hhost
  obtain ⟨-, hc, -, hopen, -⟩ := hout.issued b i
  generalize hdw : fieldAt (s.spaceRead b p 16) 4 4 = dw0
  have hcmds : ((s.issued b i.next).answer c.stamp dw0).host.cmds = [c.answered dw0] := by
    unfold State.answer State.modCmd State.modHost
    dsimp only
    rw [hhost, honly]
    simp [HostCmd.answered]
  have hblocked : ((s.issued b i.next).answer c.stamp dw0).flushBlocked c.stamp c.nsid = false := by
    have hplace : ((s.issued b i.next).answer c.stamp dw0).host.place = s.host.place := hsame HostState.place
    unfold State.flushBlocked at hfree ⊢
    rw [hcmds, hplace]
    rw [honly] at hfree
    exact hfree
  have hflushes : ((s.issued b i.next).answer c.stamp dw0).decideFlushes = ((s.issued b i.next).answer c.stamp dw0).conclude c.stamp 0 0 := by
    unfold State.decideFlushes
    rw [hcmds]
    have hwaits : ([c.answered dw0].filter fun c => c.kind == .flush && c.decided.isNone && c.accepted.isSome) = [c.answered dw0] := by
      simp [HostCmd.answered, hkind, hopen]
    rw [hwaits, List.foldl_cons, List.foldl_nil]
    exact if_neg (by rw [show (c.answered dw0).stamp = c.stamp from rfl, show (c.answered dw0).nsid = c.nsid from rfl, hblocked]; decide)
  refine ⟨_, exec_woDone hi hop hcap hp ((State.orderDone_succeeds (hout.issued b i) hst _).trans rfl), ?_⟩
  show (State.advanceShutdown _).host.cmds = _
  have hsucceeds : (((s.issued b i.next).modCmd c.stamp fun c => { c with order := .returned }).orderSucceeds c dw0) =
      ((s.issued b i.next).answer c.stamp dw0).decideFlushes := by
    rw [State.orderSucceeds, hkind]
    rfl
  rw [State.advanceShutdown_host, hdw, hsucceeds]
  show ((s.issued b i.next).answer c.stamp dw0).decideFlushes.host.cmds = _
  have hnext : ((s.issued b i.next).answer c.stamp dw0).host.nextSeq = s.host.nextSeq := hsame HostState.nextSeq
  rw [hflushes, State.conclude_of_open (State.answer_cmdOf hc dw0) hopen, hnext, State.recordError_none (.inl rfl)]
  show (((s.issued b i.next).answer c.stamp dw0).host.cmds.map _) = _
  rw [hcmds]
  rw [List.map_singleton, if_pos (show (c.answered dw0).stamp = c.stamp from rfl), ite_self]
  rfl

/-- A command whose order has come back with an unrecovered read. -/
def State.mediaError (s : State) (x : Stamp) : State :=
  (s.modCmd x fun c => { c with order := .returned }).modHost fun h => { h with mediaErrors := h.mediaErrors + 1 }

theorem State.mediaError_cmdOf {s : State} {c : HostCmd} (h : s.cmdOf c.stamp = some c) :
    (s.mediaError c.stamp).cmdOf c.stamp = some { c with order := .returned } :=
  State.cmdOf_modCmd_self h (fun c => { c with order := .returned }) fun _ => rfl

/-- An unrecovered read among a function's errors. -/
theorem State.conclude_unrecovered_fnOf {s : State} {c : HostCmd} (h : s.cmdOf c.stamp = some c) (hopen : c.decided = none) (dw0 : Nat) :
    (((s.conclude c.stamp stUnrecovered dw0).fnOf c.fn).errors.head?.map fun x => (x.status, x.lba)) = some (stUnrecovered, c.slba + dw0) := by
  have hfns : (s.conclude c.stamp stUnrecovered dw0).fnOf c.fn = (s.recordError c stUnrecovered dw0).fnOf c.fn := by
    refine State.fnOf_congr ?_ _
    rw [State.conclude_of_open h hopen]
    rfl
  rw [hfns, State.recordError, if_neg (by decide), State.fnOf_modFn_self, if_pos rfl]
  rfl

theorem woDone_unrecovered (b : Fin 24) (u : Upset) (i : Ins) (p : Space) (c : HostCmd) (a : Fin 24) :
    Completes (.woDone b u)
      (fun s => Issues s b u i ∧ i.op = 0x75 ∧ s.capBit b famWO = true ∧ scratchAt (valA s b i).toNat 16 = .ok p ∧
          OrderOut s (fieldAt (s.spaceRead b p 16) 0 2) c a ∧ fieldAt (s.spaceRead b p 16) 2 2 / 2 % 2048 = stUnrecovered)
      [.events, .regs, .heads, .decode, .seq, .mem, .host, .out]
      fun s t => WritesRd b i 0 s t ∧ t.host.mediaErrors = s.host.mediaErrors + 1 ∧ Decides c.stamp stUnrecovered 0 t ∧
          (c.fn < 2 → ((t.fnOf c.fn).errors.head?.map fun x => (x.status, x.lba)) = some (stUnrecovered, c.slba + fieldAt (s.spaceRead b p 16) 4 4)) := by
  refine Completes.of_keeps (execWoDone_keeps b u) ?_
  rintro s - ⟨hi, hop, hcap, hp, hout, hst⟩
  have hhost := s.issued_host b i.next
  have hsame {α : Type} (f : HostState → α) : f (s.issued b i.next).host = f s.host := congrArg f hhost
  obtain ⟨-, hc, -, hopen, -⟩ := hout.issued b i
  generalize hdw : fieldAt (s.spaceRead b p 16) 4 4 = dw0
  have hdone := State.orderDone_unrecovered (hout.issued b i) hst dw0
  change _ = (false, (((s.issued b i.next).mediaError c.stamp).conclude c.stamp stUnrecovered dw0).decideFlushes) at hdone
  have hback : ((s.issued b i.next).mediaError c.stamp).cmdOf c.stamp = some { c with order := .returned } := State.mediaError_cmdOf hc
  have hmedia : ((s.issued b i.next).mediaError c.stamp).host.mediaErrors = s.host.mediaErrors + 1 := hsame fun h => h.mediaErrors + 1
  have hkept : Keeps [.host] (s.issued b i.next) ((s.issued b i.next).mediaError c.stamp) :=
    Keeps.step (State.modHost_keeps ..) rfl (State.modCmd_keeps ..)
  generalize (s.issued b i.next).mediaError c.stamp = v at hdone hback hmedia hkept
  have hkeeps : Keeps [.decode, .host] (s.issued b i.next) (v.conclude c.stamp stUnrecovered dw0).decideFlushes :=
    Keeps.step (State.decideFlushes_keeps _) rfl (Keeps.step (State.conclude_keeps ..) rfl (Keeps.mono hkept rfl))
  have hlater := (v.conclude c.stamp stUnrecovered dw0).decideFlushes_concludes
  have hfns := (v.conclude c.stamp stUnrecovered dw0).decideFlushes_fns
  have hnow := v.conclude_host c.stamp stUnrecovered dw0 []
  have hcmd := State.conclude_cmdOf hback hopen stUnrecovered dw0 []
  have herr := State.conclude_unrecovered_fnOf (c := { c with order := .returned }) hback hopen dw0
  generalize v.conclude c.stamp stUnrecovered dw0 = w at hdone hkeeps hlater hfns hnow hcmd herr
  have hend : (s.issued b i.next).orderDone (fieldAt (s.spaceRead b p 16) 0 2) (fieldAt (s.spaceRead b p 16) 2 2) (fieldAt (s.spaceRead b p 16) 4 4) =
      (false, w.decideFlushes) := by rw [hdw, hdone]
  refine ⟨_, exec_woDone hi hop hcap hp hend, writesRd_of_keeps (hkeeps.frame .seq (by decide)) (hkeeps.frame .regs (by decide)) 0, ?_, ?_, fun _ => ?_⟩
  · show w.decideFlushes.host.mediaErrors = _
    rw [hlater.host]
    show w.host.mediaErrors = _
    rw [hnow]
    exact hmedia
  · refine hlater.decides ?_
    unfold Decides
    rw [hcmd]
    rfl
  · show ((w.decideFlushes.fnOf c.fn).errors.head?.map _) = _
    rw [State.fnOf_congr hfns]
    exact herr

end Sys2Proof.Machine
end

section
/-!
PROOFS. What an engine's work leaves alone (R33, R142, R304 to R317): the reads and writes of buffer memory, the records of the decode
island and the hems of the heads write registers of their own blocks only, take back nothing that has been sent, and close no pass. One lemma
per operation, in the order of the definitions.
-/

namespace Sys2Proof.Machine

/-- From s to t engines have worked: no register outside their blocks has changed, all that had been sent stands, no pass has opened or
closed, and a hem that was in progress still is. -/
structure Serves (s t : State) : Prop where
  reg : ∀ k : Nat, k < 0x100000 ∨ 0x1000000 ≤ k → t.reg k = s.reg k
  out : ∀ x ∈ s.out, x ∈ t.out
  pass : ∀ n : Fin 16, (t.head n).pass.isSome = (s.head n).pass.isSome
  hem : ∀ n : Fin 16, ((s.head n).pass.bind (·.hem)).isSome = true → ((t.head n).pass.bind (·.hem)).isSome = true

namespace Serves

variable {s t u : State}

theorem refl (s : State) : Serves s s := ⟨fun _ _ => rfl, fun _ h => h, fun _ => rfl, fun _ h => h⟩

theorem trans (h : Serves s t) (k : Serves t u) : Serves s u :=
  ⟨fun j hj => (k.reg j hj).trans (h.reg j hj), fun x hx => k.out x (h.out x hx), fun n => (k.pass n).trans (h.pass n),
    fun n hn => k.hem n (h.hem n hn)⟩

/-- The last operation of a sequence. -/
theorem step (k : Serves t u) (h : Serves s t) : Serves s u := h.trans k

theorem foldl {α : Type} {f : State → α → State} (h : Serves s t) (l : List α) (hf : ∀ u, ∀ x ∈ l, Serves u (f u x)) : Serves s (l.foldl f t) :=
  List.foldlRecOn (motive := Serves s) l f h fun u hu x hx => hu.trans (hf u x hx)

theorem of_parts (hregs : t.regs = s.regs) (hout : t.out = s.out) (hheads : t.heads = s.heads) : Serves s t :=
  ⟨fun k _ => congrArg (storeGet regReset k) hregs, fun _ h => hout ▸ h, fun n => by rw [State.head_congr hheads],
    fun n h => by rwa [State.head_congr hheads]⟩

/-- An operation whose rule names neither the registers nor the outputs nor the heads. -/
theorem of_keeps {P : List Part} (h : Keeps P s t) (hregs : P.contains .regs = false) (hout : P.contains .out = false)
    (hheads : P.contains .heads = false) : Serves s t :=
  of_parts (h.frame .regs (by simpa using hregs)) (h.frame .out (by simpa using hout)) (h.frame .heads (by simpa using hheads))

/-- One that names the registers too, of which it changes those of the engines' blocks. -/
theorem of_regs {P : List Part} (h : Keeps P s t) (hout : P.contains .out = false) (hheads : P.contains .heads = false)
    (hreg : ∀ k : Nat, k < 0x100000 ∨ 0x1000000 ≤ k → t.reg k = s.reg k) : Serves s t where
  reg := hreg
  out := fun _ hx => (h.frame .out (by simpa using hout)).symm ▸ hx
  pass := fun n => by rw [State.head_congr (h.frame .heads (by simpa using hheads))]
  hem := fun n hn => by rwa [State.head_congr (h.frame .heads (by simpa using hheads))]

/-- The first of two pieces of work, where a test chooses whether it is done. -/
theorem ite {c : Prop} [Decidable c] (h : Serves s t) (k : Serves s u) : Serves s (if c then t else u) := by
  split
  · exact h
  · exact k

end Serves

/-! ## Registers of the engines' blocks -/

theorem State.setReg_serves (s : State) {k : Nat} (w : Word) (h : 0x100000 ≤ k) (h' : k < 0x1000000) : Serves s (s.setReg k w) :=
  .of_regs (s.setReg_keeps k w) rfl rfl fun j hj => s.regsBut_setReg k w j (by simp only [List.mem_singleton]; omega)

theorem State.setFld_serves (s : State) {k : Nat} (p : FieldPos) (v : Nat) (h : 0x100000 ≤ k) (h' : k < 0x1000000) : Serves s (s.setFld k p v) :=
  s.setReg_serves _ h h'

theorem State.bump_serves (s : State) {k : Nat} (p : FieldPos) (n : Nat) (h : 0x100000 ≤ k) (h' : k < 0x1000000) : Serves s (s.bump k p n) :=
  s.setFld_serves p _ h h'

theorem State.log_serves (s : State) (src : Nat) (i : Island) (code a0 a1 a2 a3 : Nat) : Serves s (s.log src i code a0 a1 a2 a3) :=
  .of_keeps (State.log_keeps ..) rfl rfl rfl

theorem State.logMem_serves (s : State) (code a0 a1 a2 a3 : Nat) : Serves s (s.logMem code a0 a1 a2 a3) := s.log_serves ..

theorem State.logDec_serves (s : State) (code a0 a1 a2 a3 : Nat) : Serves s (s.logDec code a0 a1 a2 a3) := s.log_serves ..

theorem State.modSub_serves (s : State) (k : Nat) (f : SubCh → SubCh) : Serves s (s.modSub k f) := .of_parts rfl rfl rfl

theorem State.modDec_serves (s : State) (f : DecodeState → DecodeState) : Serves s (s.modDec f) := .of_parts rfl rfl rfl

theorem State.modHost_serves (s : State) (f : HostState → HostState) : Serves s (s.modHost f) := .of_parts rfl rfl rfl

theorem State.out_serves (s : State) (x : Output) : Serves s { s with out := x :: s.out } :=
  ⟨fun _ _ => rfl, fun _ h => List.mem_cons_of_mem _ h, fun _ => rfl, fun _ h => h⟩

/-! ## Buffer memory -/

theorem State.memSub_lt (s : State) (a : Nat) : s.memSub a < 4 := by
  unfold State.memSub State.memW
  refine Nat.lt_of_lt_of_le (Nat.mod_lt _ (Nat.two_pow_pos _)) ?_
  exact Nat.pow_le_pow_right (by decide) (Nat.min_le_left ..)

theorem State.autoErase_serves (s : State) (k d count : Nat) : Serves s (s.autoErase k d count) := by
  unfold State.autoErase
  split
  · exact s.logMem_serves ..
  · refine Serves.ite ?_ (.refl s)
    exact .step (State.logMem_serves ..) (s.setFld_serves _ _ (by decide) (by decide))

theorem State.countCorrection_serves (s : State) (a pos : Nat) : Serves s (s.countCorrection a pos) := by
  have hk := s.memSub_lt a
  unfold State.countCorrection
  generalize s.memSub a = k at hk ⊢
  dsimp only
  have h0 := s.bump_serves F.MC_ECC_CNT_CORR 1 (show 0x100000 ≤ R.MC_ECC_CNT by decide) (by decide)
  generalize s.bump R.MC_ECC_CNT F.MC_ECC_CNT_CORR 1 = t at h0 ⊢
  have h1 := h0.trans ((t.bump_serves ⟨6 * deviceOf pos + 5, 6 * deviceOf pos⟩ 1 (show 0x100000 ≤ R.MC_ECC_DEV k by unfold R.MC_ECC_DEV; omega)
    (by unfold R.MC_ECC_DEV; omega)).trans (State.modSub_serves _ k fun x => { x with corrSince := x.corrSince + 1 }))
  generalize (State.bump t _ _ _).modSub k _ = v at h1 ⊢
  have h2 (c : Prop) [Decidable c] (e : Nat) (f : SubCh → SubCh) : Serves s (if c then (v.logMem 0x8001 k (a % 2 ^ 32) pos e).modSub k f else v) :=
    .ite (.step (State.modSub_serves ..) (.step (State.logMem_serves ..) h1)) h1
  exact .ite (.step (State.autoErase_serves ..) (h2 ..)) (h2 ..)

theorem State.dram_serves (s : State) (k : Nat) (c : DramCmd) : Serves s (s.dram k c) := s.out_serves _

theorem State.setBank_serves (s : State) (key : Nat) (b : Bank) : Serves s (s.setBank key b) := .of_parts rfl rfl rfl

theorem State.rollActivate_serves (s : State) (key : Nat) : Serves s (s.rollActivate key) := by
  unfold State.rollActivate
  dsimp only
  split
  · exact .ite (.step (State.dram_serves ..) (s.setBank_serves ..)) (s.setBank_serves ..)
  · exact .refl s

theorem State.touchBurst_serves (s : State) (a : Nat) : Serves s (s.touchBurst a) := by
  unfold State.touchBurst
  split
  rename_i bk row _
  extract_lets k key b opened hit acts idle t u v
  have ht : Serves s t := by
    unfold t
    split
    · exact s.dram_serves ..
    · exact .refl s
  clear_value t
  have hu : Serves s u := .step (State.setBank_serves ..) ht
  clear_value u
  have hv : Serves s v := by
    unfold v
    split
    · exact hu
    · exact .step (State.rollActivate_serves ..) hu
  clear_value v
  split
  · exact .step (State.dram_serves ..) hv
  · exact hv

theorem State.payRefreshes_serves (s : State) (k : Nat) : Serves s (s.payRefreshes k) := by
  unfold State.payRefreshes
  refine Serves.ite (.refl s) ?_
  exact .step (State.dram_serves ..) (.step (State.modSub_serves ..) (.of_keeps (State.easeActivates_keeps ..) rfl rfl rfl))

theorem State.serveBurst_serves (s : State) (cls a : Nat) : Serves s (s.serveBurst cls a) := by
  unfold State.serveBurst
  exact .ite (.step (State.touchBurst_serves ..) (.ite (s.payRefreshes_serves ..) (.refl s))) (.refl s)

theorem State.flipWord_serves (s : State) (a : Nat) (c : List Nat) : Serves s (s.flipWord a c).1 := by
  unfold State.flipWord
  dsimp only
  split
  · exact s.setFld_serves _ _ (by decide) (by decide)
  · exact .refl s

theorem State.storeSymbols_serves (s : State) (a : Nat) (c : List Nat) : Serves s (s.storeSymbols a c) := .of_parts rfl rfl rfl

theorem State.writeWordAt_serves (s : State) (cls a w : Nat) (bytes : List Nat) : Serves s (s.writeWordAt cls a w bytes) := by
  unfold State.writeWordAt
  dsimp only
  refine Serves.ite (.step (State.storeSymbols_serves ..) (s.flipWord_serves ..)) ?_
  unfold State.writePart
  split
  dsimp only
  split
  · exact s.storeSymbols_serves ..
  · exact .step (State.storeSymbols_serves ..) (s.countCorrection_serves ..)
  · exact .step (State.logMem_serves ..) (s.storeSymbols_serves ..)
  · exact .step (State.logMem_serves ..) (s.storeSymbols_serves ..)

theorem State.memWrite_serves (s : State) (cls a : Nat) (bytes : List Nat) : Serves s (s.memWrite cls a bytes) := by
  unfold State.memWrite
  extract_lets len t words u
  have hu : Serves s u := Serves.foldl (Serves.foldl (.refl s) _ fun v b _ => v.serveBurst_serves cls b) _ fun v x _ => v.writeWordAt_serves cls x a bytes
  exact .ite (.refl s) (.ite (.step (State.logMem_serves ..) hu) hu)

/-! ## Records and groups of the decode island -/

theorem State.outEpisode_serves (s : State) : Serves s s.outEpisode := by
  unfold State.outEpisode
  exact .ite (.step (State.logDec_serves ..) (s.modDec_serves _)) (.ite (s.modDec_serves _) (.refl s))

theorem State.putRecord_serves (s : State) (r : OutRecord) : Serves s (s.putRecord r) := by
  have hput : Serves s ((s.memWrite 1 (s.outBase + 64 * s.outProd) r.bytes).setFld R.DC_OUT_PROD F.DC_OUT_PROD_PROD ((s.outProd + 1) % 65536)) :=
    .step (State.setFld_serves _ _ _ (by decide) (by decide)) (s.memWrite_serves ..)
  unfold State.putRecord
  dsimp only
  refine .step (State.outEpisode_serves _) ?_
  split
  · exact .step (State.modDec_serves ..) hput
  · exact hput

theorem State.emitRecord_serves (s : State) (r : OutRecord) : Serves s (s.emitRecord r) := by
  unfold State.emitRecord
  exact .ite (.step (State.outEpisode_serves _) (s.modDec_serves _)) (s.putRecord_serves r)

theorem State.bumpDc_serves (s : State) {k : Nat} (n : Nat) (h : k < 16) : Serves s (s.bumpDc k n) :=
  s.bump_serves _ _ (by unfold R.DC_CNT; omega) (by unfold R.DC_CNT; omega)

theorem State.countIn_serves (s : State) (head pass layer band : Nat) {k : Nat} (n : Nat) (h : k < 16) :
    Serves s (s.countIn head pass layer band k n) :=
  .ite (s.modDec_serves _) (s.bumpDc_serves n h)

theorem State.deferGroup_serves (s : State) (g : Group) : Serves s (s.deferGroup g) :=
  .step (State.countIn_serves _ _ _ _ _ _ (by decide)) (s.emitRecord_serves _)

theorem State.closeGroup_serves (s : State) (g : Group) (atHem : Bool) : Serves s (s.closeGroup g atHem) := by
  unfold State.closeGroup
  dsimp only
  have ht : Serves s (s.modDec fun d => { d with groups := d.groups.filter fun x =>
    !(x.head == g.head && x.pass == g.pass && x.layer == g.layer && x.band == g.band && x.g == g.g) }) := s.modDec_serves _
  generalize (s.modDec fun d => { d with groups := d.groups.filter fun x =>
    !(x.head == g.head && x.pass == g.pass && x.layer == g.layer && x.band == g.band && x.g == g.g) }) = t at ht ⊢
  refine .ite ht (.ite (.step (State.deferGroup_serves ..) ht) (.ite ?_ (.step (State.modDec_serves ..) ht)))
  exact .step (State.logDec_serves ..) (.step (State.deferGroup_serves ..) ht)

theorem State.memberOutcome_serves (s : State) (head pass layer band grp i : Nat) (m : Member) :
    Serves s (s.memberOutcome head pass layer band grp i m) := by
  unfold State.memberOutcome
  dsimp only
  exact .ite (.refl s) (.ite (s.closeGroup_serves ..) (s.modDec_serves _))

theorem State.finishSector_serves (s : State) (x : Sector) (o : SecOutcome) (path data tag asm : Nat) (known : Bool) :
    Serves s (s.finishSector x o path data tag asm known) := by
  unfold State.finishSector
  extract_lets work bytes t u
  have ht : Serves s t := s.emitRecord_serves _
  clear_value t
  have hu : Serves s u := .ite ht (.step (State.memberOutcome_serves ..) ht)
  exact .step (State.modDec_serves ..) hu

theorem State.dropFromQueues_serves (s : State) (ids : List Nat) : Serves s (s.dropFromQueues ids) :=
  .of_keeps (State.dropFromQueues_keeps ..) rfl rfl rfl

theorem State.withdrawSectors_serves (s : State) (xs : List Sector) : Serves s (s.withdrawSectors xs) :=
  Serves.foldl (s.dropFromQueues_serves _) _ fun u _ _ => u.finishSector_serves ..

/-! ## Passes and their hems -/

/-- A head changed without its pass, or with a pass whose hem stays in progress. -/
theorem State.modHead_serves (s : State) (n : Fin 16) (f : Head → Head) (hpass : (f (s.head n)).pass.isSome = (s.head n).pass.isSome)
    (hhem : ((s.head n).pass.bind (·.hem)).isSome = true → ((f (s.head n)).pass.bind (·.hem)).isSome = true) : Serves s (s.modHead n f) where
  reg := fun _ _ => rfl
  out := fun _ h => h
  pass := fun m => by
    by_cases h : m = n
    · subst m
      rw [State.head_modHead_self, hpass]
    · rw [State.head_modHead_other _ _ h]
  hem := fun m hm => by
    by_cases h : m = n
    · subst m
      rw [State.head_modHead_self]
      exact hhem hm
    · rwa [State.head_modHead_other _ _ h]

theorem State.modPass_serves (s : State) (n : Fin 16) (f : Pass → Pass) (h : ∀ p, p.hem.isSome = true → (f p).hem.isSome = true) :
    Serves s (s.modPass n f) := by
  refine s.modHead_serves n _ ?_ fun hs => ?_
  · exact Option.isSome_map
  · cases hp : (s.head n).pass with
    | none =>
      rw [hp] at hs
      cases hs
    | some p =>
      rw [hp] at hs
      exact h p hs

theorem State.markBand_serves (s : State) (r : RunAhead) (f : Pass → Pass) (h : ∀ p, p.hem.isSome = true → (f p).hem.isSome = true) :
    Serves s (s.markBand r f) := by
  unfold State.markBand
  split
  · refine State.modPass_serves s _ (fun p => if p.no = r.pass then f p else p) fun p hp => ?_
    split
    · exact h p hp
    · exact hp
  · exact .refl s

theorem State.sendMsg_serves (s : State) (n : Fin 16) (m : Msg) : Serves s (s.sendMsg n m) := by
  unfold State.sendMsg
  exact .ite (s.modHead_serves n _ rfl id) (.refl s)

theorem State.requeue_serves (s : State) (n : Fin 16) (xs : List Sector) : Serves s (s.requeue n xs) :=
  .step (State.withdrawSectors_serves ..) (.step (State.modHead_serves _ n _ rfl id) (s.modHead_serves n _ rfl id))

theorem State.discardBand_serves (s : State) (r : RunAhead) (cause : Nat) : Serves s (s.discardBand r cause) :=
  .step (State.logDec_serves ..) <| .step (State.bumpDc_serves _ _ (by decide)) <| .step (State.markBand_serves _ _ _ fun _ h => h) <|
    .step (State.modDec_serves ..) (s.dropFromQueues_serves _)

theorem State.discardHeadBands_serves (s : State) (head cause : Nat) : Serves s (s.discardHeadBands head cause) :=
  Serves.foldl (.refl s) _ fun u _ _ => u.discardBand_serves ..

theorem hdWrCnt_range (n : Fin 16) : 0x100000 ≤ R.HD_WR_CNT n.val ∧ R.HD_WR_CNT n.val < 0x1000000 := by
  unfold R.HD_WR_CNT
  omega

theorem State.bumpWrites_serves (s : State) (n : Fin 16) (p : FieldPos) (k : Nat) : Serves s (s.bump (R.HD_WR_CNT n.val) p k) :=
  s.bump_serves p k (hdWrCnt_range n).1 (hdWrCnt_range n).2

theorem State.settleWrites_serves (s : State) (n : Fin 16) (x : Stamp) : Serves s (s.settleWrites n x) := by
  unfold State.settleWrites
  split
  · exact .refl s
  · split
    · exact .refl s
    · refine .ite (.refl s) ?_
      refine .step (State.modPass_serves _ n _ fun _ h => h) (Serves.foldl (.refl s) _ fun u e _ => ?_)
      dsimp only
      refine .ite (.refl u) ?_
      split
      · exact .refl u
      · have hstart (c : Prop) [Decidable c] : Serves u (if c then u.modPass n fun p => p.modSlot e.1.band e.2.track e.2.slot fun e => { e with started := true } else u) :=
          .ite (u.modPass_serves n _ fun _ h => h) (.refl u)
        exact .ite (.step (State.bumpWrites_serves ..) (.step (State.modPass_serves _ n _ fun _ h => h) (hstart _))) (hstart _)

theorem State.voidSlot_serves (s : State) (n : Fin 16) (d : BandDesc) (e : SlotEntry) (cause : Nat) : Serves s (s.voidSlot n d e cause) :=
  .step (State.modPass_serves _ n _ fun _ h => h) <| .step (State.bumpWrites_serves ..) <| .step (State.memWrite_serves ..) (s.memWrite_serves ..)

theorem State.stopWrites_serves (s : State) (n : Fin 16) (x last : Stamp) (cause : Nat) : Serves s (s.stopWrites n x last cause) := by
  unfold State.stopWrites
  extract_lets t
  have ht : Serves s t := s.settleWrites_serves ..
  clear_value t
  split
  · exact ht
  · split
    · exact ht
    · refine .ite ht ?_
      refine .step (State.modPass_serves _ n _ fun _ h => h) (Serves.foldl ht _ fun u e _ => ?_)
      dsimp only
      refine .ite (.refl u) ?_
      split
      · refine .ite (.refl u) (.ite ?_ (u.voidSlot_serves ..))
        exact .step (State.voidSlot_serves ..) (.step (State.modPass_serves _ n _ fun _ h => h) (u.emitRecord_serves _))
      · exact u.voidSlot_serves ..

/-- A hem that is asked for is in progress where a pass is open (R33). -/
theorem State.hemRequest_serves (s : State) (n : Fin 16) (h : Stamp) (forced : Bool) (who : List Waiter) :
    Serves s (s.hemRequest n h forced who) ∧
      ((s.head n).pass.isSome = true → (((s.hemRequest n h forced who).head n).pass.bind (·.hem)).isSome = true) := by
  have hset (f : Pass → Hem) : Serves s (s.modPass n fun p => { p with hem := some (f p) }) ∧
      ((s.head n).pass.isSome = true → (((s.modPass n fun p => { p with hem := some (f p) }).head n).pass.bind (·.hem)).isSome = true) := by
    refine ⟨s.modPass_serves n _ fun _ _ => rfl, fun hp => ?_⟩
    obtain ⟨p, hp⟩ := Option.isSome_iff_exists.mp hp
    rw [State.modPass, State.head_modHead_self, hp]
    rfl
  unfold State.hemRequest
  cases hp : (s.head n).pass with
  | none => exact ⟨.refl s, fun h => by cases h⟩
  | some p =>
    dsimp only
    cases hm : p.hem with
    | some m =>
      dsimp only
      have hh := hset fun _ => { m with waiters := m.waiters ++ who }
      rwa [hp] at hh
    | none =>
      dsimp only
      generalize hemCut s n h forced = c
      obtain ⟨c, cuts⟩ := c
      dsimp only
      have hh := hset fun _ => { h := h, cut := c, forced := forced, withdrawn := false, writingBack := false, waiters := who }
      rw [hp] at hh
      obtain ⟨h1, h2⟩ := hh
      generalize (s.modPass n fun p => { p with hem := some { h := h, cut := c, forced := forced, withdrawn := false, writingBack := false, waiters := who } }) = t
        at h1 h2 ⊢
      have hmore {u : State} (hu : Serves t u) : Serves s u ∧ ((some p).isSome = true → ((u.head n).pass.bind (·.hem)).isSome = true) :=
        ⟨h1.trans hu, fun hp => hu.hem n (h2 hp)⟩
      refine hmore (.ite (.step (State.stopWrites_serves ..) (.step (State.requeue_serves ..) ?_)) (.ite ?_ (.refl t)))
      · exact .ite (t.sendMsg_serves ..) (.refl t)
      · exact .step (State.stopWrites_serves ..) (t.sendMsg_serves ..)

/-- Every open pass is in its hem once each head has been asked for one. -/
theorem State.hemEvery_serves (s : State) :
    Serves s s.hemEvery ∧ ∀ n : Fin 16, (s.head n).pass.isSome = true → ((s.hemEvery.head n).pass.bind (·.hem)).isSome = true := by
  have hall (l : List (Fin 16)) (t : State) :
      Serves t (l.foldl (fun (t : State) (n : Fin 16) => t.hemRequest n (t.stamp (.head n)) false []) t) ∧ ∀ n ∈ l, (t.head n).pass.isSome = true →
        (((l.foldl (fun (t : State) (n : Fin 16) => t.hemRequest n (t.stamp (.head n)) false []) t).head n).pass.bind (·.hem)).isSome = true := by
    induction l generalizing t with
    | nil => exact ⟨.refl t, fun n hn => by cases hn⟩
    | cons m l ih =>
      obtain ⟨h1, h2⟩ := t.hemRequest_serves m (t.stamp (.head m)) false []
      obtain ⟨k1, k2⟩ := ih (t.hemRequest m (t.stamp (.head m)) false [])
      refine ⟨h1.trans k1, fun n hn hp => ?_⟩
      obtain rfl | hn := List.mem_cons.mp hn
      · exact k1.hem n (h2 hp)
      · exact k2 n hn (by rwa [h1.pass])
  obtain ⟨h1, h2⟩ := hall (List.finRange 16) s
  exact ⟨h1, fun n => h2 n (List.mem_finRange n)⟩

theorem State.noPass_iff (s : State) : s.noPass = true ↔ ∀ n : Fin 16, (s.head n).pass = none := by
  unfold State.noPass State.head
  rw [List.all_eq_true]
  constructor
  · intro h n
    simpa using h s.heads[n] (by simp)
  · intro h x hx
    obtain ⟨i, hi, rfl⟩ := List.mem_iff_getElem.mp hx
    have := h ⟨i, by simpa using hi⟩
    simpa using this

theorem Serves.noPass {s t : State} (h : Serves s t) : t.noPass = s.noPass := by
  rw [Bool.eq_iff_iff, State.noPass_iff, State.noPass_iff]
  exact forall_congr' fun n => by rw [← Option.not_isSome_iff_eq_none, ← Option.not_isSome_iff_eq_none, h.pass]

end Sys2Proof.Machine
end

section
/-!
PROOFS. Commands that leave (R269, R277, R296): their frames, locks and places are given up. What that leaves of the host island, and what
remains of the rest.
-/

namespace Sys2Proof.Machine

/-! ## Frames and map entries -/

theorem State.plPut_serves (s : State) (a n v : Nat) : Serves s (s.plPut a n v) := s.memWrite_serves ..

theorem State.freeFrame_serves (s : State) (f : Nat) : Serves s (s.freeFrame f) := by
  unfold State.freeFrame
  exact .step (State.modHost_serves ..) (.step (State.plPut_serves ..) (s.plPut_serves ..))

theorem State.dropNamed_serves (s : State) (c : HostCmd) : Serves s (s.dropNamed c) := by
  unfold State.dropNamed
  refine .step (State.modHost_serves ..) (Serves.foldl (.refl s) _ fun u f _ => ?_)
  exact .ite (.step (State.freeFrame_serves ..) (u.plPut_serves ..)) (u.plPut_serves ..)

theorem State.putMapEntry_serves (s : State) (idx g e : Nat) : Serves s (s.putMapEntry idx g e) := by
  unfold State.putMapEntry
  split
  · exact .ite (s.plPut_serves ..) (.refl s)
  · exact .refl s

theorem State.discardApplies_serves (s : State) (gone : List HostCmd) : Serves s (s.discardApplies gone) := by
  unfold State.discardApplies
  dsimp only
  refine Serves.foldl (s.modHost_serves _) _ fun t x _ => ?_
  split
  · exact .refl t
  · refine .ite (.refl t) (.step (State.modHost_serves ..) (.step (State.plPut_serves ..) (Serves.foldl (.refl t) _ fun u f _ => ?_)))
    split
    · exact .step (State.freeFrame_serves ..) (u.putMapEntry_serves ..)
    · exact u.freeFrame_serves f

theorem State.retire_serves (s : State) (c : HostCmd) : Serves s (s.retire c) := by
  unfold State.retire
  exact .step (State.modHost_serves ..) <| .step (.of_keeps (State.releaseLocks_keeps ..) rfl rfl rfl) <|
    .step (.of_keeps (State.dropCommit_keeps ..) rfl rfl rfl) (s.dropNamed_serves c)

theorem State.decideFlushes_serves (s : State) : Serves s s.decideFlushes := .of_keeps (State.decideFlushes_keeps s) rfl rfl rfl

theorem State.notePause_serves (s : State) : Serves s s.notePause := .of_keeps (State.notePause_keeps s) rfl rfl rfl

theorem State.advanceShutdown_serves (s : State) : Serves s s.advanceShutdown := by
  unfold State.advanceShutdown
  refine Serves.foldl (.refl s) _ fun t fn _ => ?_
  split
  · exact .ite (.step (State.modHost_serves ..) t.hemEvery_serves.1) (.refl t)
  · exact .refl t

/-! ## The host island -/

/-- From s to t the placement-map assist has worked: of the host island its part has changed alone. -/
def PlaceOnly (s t : State) : Prop := t.host = { s.host with place := t.host.place }

theorem PlaceOnly.of_host_eq {s t u : State} (h : PlaceOnly s t) (heq : u.host = t.host) : PlaceOnly s u := by
  unfold PlaceOnly at *
  rw [heq]
  exact h

theorem PlaceOnly.modPlace {s t : State} (h : PlaceOnly s t) (f : PlaceState → PlaceState) : PlaceOnly s (t.modPlace f) := by
  unfold PlaceOnly at *
  unfold State.modPlace State.modHost
  dsimp only
  rw [h]

theorem PlaceOnly.plPut {s t : State} (h : PlaceOnly s t) (a n v : Nat) : PlaceOnly s (t.plPut a n v) :=
  h.of_host_eq ((State.plPut_keeps ..).frame .host (by decide))

theorem PlaceOnly.freeFrame {s t : State} (h : PlaceOnly s t) (f : Nat) : PlaceOnly s (t.freeFrame f) :=
  ((h.plPut _ _ _).plPut _ _ _).modPlace _

theorem PlaceOnly.putMapEntry {s t : State} (h : PlaceOnly s t) (idx g e : Nat) : PlaceOnly s (t.putMapEntry idx g e) :=
  h.of_host_eq ((State.putMapEntry_keeps ..).frame .host (by decide))

theorem State.discardApplies_host (s : State) (gone : List HostCmd) : PlaceOnly s (s.discardApplies gone) := by
  unfold State.discardApplies
  dsimp only
  refine List.foldlRecOn (motive := PlaceOnly s) _ _ (PlaceOnly.modPlace rfl _) fun t ht x _ => ?_
  split
  · exact ht
  · split
    · exact ht
    · refine PlaceOnly.modPlace (PlaceOnly.plPut ?_ _ _ _) _
      refine List.foldlRecOn (motive := PlaceOnly s) _ _ ht fun u hu f _ => ?_
      split
      · exact (hu.putMapEntry _ _ _).freeFrame f
      · exact hu.freeFrame f

/-- What of the host island stays as commands leave: all but the commands, the locks and what the commit and the placement-map assist
have at work. -/
def Leaves (s t : State) : Prop :=
  t.host = { s.host with
    cmds := t.host.cmds, locks := t.host.locks, sump := t.host.sump, sumpFull := t.host.sumpFull, commit := t.host.commit
    pieces := t.host.pieces, place := t.host.place }

theorem Leaves.trans {s t u : State} (h : Leaves s t) (k : Leaves t u) : Leaves s u := by
  unfold Leaves at *
  exact k.trans (by rw [h])

theorem PlaceOnly.leaves {s t : State} (h : PlaceOnly s t) : Leaves s t := by
  unfold Leaves PlaceOnly at *
  rw [h]

theorem State.dropNamed_host (s : State) (c : HostCmd) :
    ∃ u, PlaceOnly s u ∧ (s.dropNamed c).host = (u.modCmd c.stamp fun c => { c with named := [] }).host := by
  unfold State.dropNamed
  refine ⟨_, ?_, rfl⟩
  refine List.foldlRecOn (motive := PlaceOnly s) _ _ rfl fun t ht f _ => ?_
  dsimp only
  split
  · exact (ht.plPut _ _ _).freeFrame f
  · exact ht.plPut _ _ _

/-- The locks that stand when a command's have been released. -/
theorem State.releaseLocks_spec (s : State) (x : Stamp) :
    Leaves s (s.releaseLocks x) ∧ (s.releaseLocks x).host.cmds = s.host.cmds ∧ ∀ r ∈ (s.releaseLocks x).host.locks, r.stamp ≠ x := by
  refine ⟨rfl, rfl, fun r hr => ?_⟩
  unfold State.releaseLocks State.advanceSump State.modHost at hr
  dsimp only at hr
  obtain hr | hr := List.mem_append.mp hr
  · simpa using (List.mem_filter.mp hr).2
  · simpa using (List.mem_filter.mp (List.mem_of_mem_take hr)).2

/-- A command that leaves: neither it nor a lock of it stays, and the others stand in their order, their frames apart. -/
theorem State.retire_spec (s : State) (c : HostCmd) :
    Leaves s (s.retire c) ∧ (s.retire c).cmdIds = s.cmdIds.filter (fun e => e.1 != c.stamp) ∧ ∀ r ∈ (s.retire c).host.locks, r.stamp ≠ c.stamp := by
  obtain ⟨u, hplace, hnamed⟩ := s.dropNamed_host c
  obtain ⟨hrel, hcmds, hlocks⟩ := ((s.dropNamed c).dropCommit c.stamp).releaseLocks_spec c.stamp
  have hdropped : Leaves s (s.dropNamed c) := by
    refine hplace.leaves.trans ?_
    unfold Leaves
    rw [hnamed]
    rfl
  have hcommit : Leaves (s.dropNamed c) ((s.dropNamed c).dropCommit c.stamp) := by
    unfold Leaves
    rw [State.dropCommit_host]
  have hids : ((s.dropNamed c).dropCommit c.stamp).cmdIds = s.cmdIds := by
    have h1 : ((s.dropNamed c).dropCommit c.stamp).cmdIds = (s.dropNamed c).cmdIds := by
      rw [State.cmdIds, State.dropCommit_host, State.cmdIds]
    have h2 : u.cmdIds = s.cmdIds := by
      rw [State.cmdIds, hplace, State.cmdIds]
    rw [h1, State.cmdIds_congr hnamed, ← h2]
    exact State.modCmd_ids _ _ _ fun _ => ⟨rfl, rfl⟩
  refine ⟨((hdropped.trans hcommit).trans hrel).trans rfl, ?_, hlocks⟩
  rw [← hids, State.retire, State.cmdIds, State.cmdIds, List.filter_map]
  show List.map _ (List.filter _ _) = _
  rw [← hcmds]
  rfl

end Sys2Proof.Machine
end

section
/-!
PROOFS. Completions that are posted (R269): the data, the entry, the interrupt, and the slot that is free again.
-/

namespace Sys2Proof.Machine

/-! ## The steps of a completion -/

/-- The data that come back with a completion, whether they are good, and the state that reading them leaves. -/
def State.dataReturned (s : State) (c : HostCmd) (d : Decision) : List Nat × Bool × State :=
  if d.status = 0 then s.returnData c d else ([], true, s)

/-- The data on their way to the host, or the error that reading them has recorded. -/
def State.dataSent (c : HostCmd) (bytes : List Nat) (ok : Bool) (s : State) : State :=
  if ok then (if bytes.isEmpty then s else { s with out := .hostData c.fn c.sqid c.cid bytes :: s.out }) else s.recordError c stInternal 0

/-- A completion queue that has gone on to an entry. -/
def CmpQ.movedTo (next : Nat) (x : CmpQ) : CmpQ := { x with tail := next, phase := if next = 0 then !x.phase else x.phase }

/-- The entry on its way to the host. -/
def State.entrySent (s : State) (c : HostCmd) (d : Decision) (q : CmpQ) (status : Nat) : State :=
  let sqhd := ((s.sq c.fn c.sqid).map (·.head)).getD 0
  { s with out := .cqe c.fn c.cqid q.tail (cqeDwords d.dw0 sqhd c.sqid c.cid status q.phase) :: s.out }

/-- The entry in its queue, and its interrupt. -/
def State.entryPosted (s : State) (c : HostCmd) (d : Decision) (q : CmpQ) (status : Nat) : State :=
  ((s.entrySent c d q status).modCq c.fn c.cqid (CmpQ.movedTo ((q.tail + 1) % q.size))).interrupt c.fn q

/-- The command gone, and what its leaving sets in motion. -/
def State.slotFreed (s : State) (c : HostCmd) : State := (((s.retire c).finishAborts c.stamp).decideFlushes).notePause.advanceShutdown

theorem exec_completionPost {s : State} {slot : Fin 8192} {c : HostCmd} {d : Decision} {q : CmpQ} (hat : s.cmdAt slot.val = some c)
    (hd : c.decided = some d) (hq : s.cq c.fn c.cqid = some q) (hroom : (q.tail + 1) % q.size ≠ q.head) (hfree : s.snipHeld c.stamp = false)
    (hfirst : ∀ x ∈ s.host.cmds, x.fn = c.fn ∧ x.cqid = c.cqid → (x.decided.map fun y => decide (d.seq ≤ y.seq)) ≠ some false) :
    exec (.completionPost slot) s = .next (((State.dataSent c (s.dataReturned c d).1 (s.dataReturned c d).2.1 (s.dataReturned c d).2.2).entryPosted c d q
      (if (s.dataReturned c d).2.1 then d.status else stInternal)).slotFreed c) := by
  show execCompletionPost slot s = _
  rw [execCompletionPost, hat]
  dsimp only
  rw [hd, hq]
  dsimp only
  rw [when_of_true]
  · unfold State.dataReturned
    obtain ⟨bytes, ok, t⟩ := (if d.status = 0 then s.returnData c d else ([], true, s) : List Nat × Bool × State)
    cases ok with
    | false => rfl
    | true => cases bytes <;> rfl
  · rw [hfree, Bool.and_eq_true, Bool.and_eq_true]
    refine ⟨⟨List.all_eq_true.mpr fun x hx => ?_, decide_eq_true hroom⟩, rfl⟩
    by_cases hmine : x.fn = c.fn ∧ x.cqid = c.cqid
    · have h := hfirst x hx hmine
      cases hy : x.decided with
      | none => simp
      | some y =>
        rw [hy] at h
        have hle : d.seq ≤ y.seq := by simpa using h
        simp [hle]
    · simp only [Bool.or_eq_true, Bool.not_eq_true', Bool.and_eq_false_iff, beq_eq_false_iff_ne]
      exact .inl (not_and_or.mp hmine)

/-! ## What each step leaves -/

theorem State.dataReturned_host (s : State) (c : HostCmd) (d : Decision) : (s.dataReturned c d).2.2.host = s.host := by
  unfold State.dataReturned
  split
  · exact (State.returnData_keeps s c d).frame .host (by decide)
  · rfl

theorem State.dataSent_host (c : HostCmd) (bytes : List Nat) (ok : Bool) (s : State) :
    (State.dataSent c bytes ok s).host = { s.host with fns := (State.dataSent c bytes ok s).host.fns } := by
  unfold State.dataSent
  split
  · split <;> rfl
  · exact State.recordError_eq ..

theorem State.dataSent_sends {c : HostCmd} {bytes : List Nat} (h : bytes ≠ []) (s : State) :
    Output.hostData c.fn c.sqid c.cid bytes ∈ (State.dataSent c bytes true s).out := by
  unfold State.dataSent
  rw [if_pos rfl, if_neg (by simpa using h)]
  exact List.mem_cons_self

theorem State.cq_congr {s t : State} (h : t.host.cqs = s.host.cqs) (fn qid : Nat) : t.cq fn qid = s.cq fn qid := by
  unfold State.cq
  rw [h]

theorem State.sq_congr {s t : State} (h : t.host.sqs = s.host.sqs) (fn qid : Nat) : t.sq fn qid = s.sq fn qid := by
  unfold State.sq
  rw [h]

theorem State.sendVector_out (s : State) (fn : Fin 2) (v : Nat) : ∀ x ∈ s.out, x ∈ (s.sendVector fn v).out := by
  intro x hx
  unfold State.sendVector
  split
  · exact hx
  · exact List.mem_cons_of_mem _ hx

/-- An interrupt sends what it sends, and moves no queue. -/
theorem State.interrupt_spec (s : State) (c : HostCmd) (q : CmpQ) :
    (∀ x ∈ s.out, x ∈ (s.interrupt c.fn q).out) ∧
      ((s.interrupt c.fn q).cq c.fn c.cqid).map (fun x => (x.tail, x.phase, x.head)) = (s.cq c.fn c.cqid).map fun x => (x.tail, x.phase, x.head) := by
  have hhost (v : Nat) : (s.sendVector (fnFin c.fn) v).host = s.host := (State.sendVector_keeps ..).frame .host (by decide)
  have hmod (t : State) (h : t.host = s.host) (f : CmpQ → CmpQ) (hf : ∀ x, (f x).fn = x.fn ∧ (f x).qid = x.qid)
      (hv : ∀ x : CmpQ, ((f x).tail, (f x).phase, (f x).head) = (x.tail, x.phase, x.head)) :
      ((t.modCq c.fn q.qid f).cq c.fn c.cqid).map (fun x => (x.tail, x.phase, x.head)) = (s.cq c.fn c.cqid).map fun x => (x.tail, x.phase, x.head) := by
    by_cases hq : c.cqid = q.qid
    · rw [hq, State.cq_modCq _ _ _ _ hf, Option.map_map, State.cq_congr (congrArg HostState.cqs h)]
      exact congrArg (fun g => (s.cq c.fn q.qid).map g) (funext hv)
    · have hother : (t.modCq c.fn q.qid f).cq c.fn c.cqid = t.cq c.fn c.cqid := by
        unfold State.cq State.modCq State.modHost
        dsimp only
        rw [find?_map_congr]
        · cases hfind : t.host.cqs.find? fun x => x.fn == c.fn && x.qid == c.cqid with
          | none => rfl
          | some x =>
            have hx := List.find?_some hfind
            simp only [Bool.and_eq_true, beq_iff_eq] at hx
            rw [Option.map_some, if_neg (by rintro ⟨-, h⟩; exact hq (hx.2.symm.trans h))]
        · intro x
          split <;> simp [hf]
      rw [hother, State.cq_congr (congrArg HostState.cqs h)]
  unfold State.interrupt
  dsimp only
  split
  · exact ⟨fun _ h => h, rfl⟩
  · split
    · exact ⟨s.sendVector_out _ _, by rw [State.cq_congr (congrArg HostState.cqs (hhost _))]⟩
    · split
      · exact ⟨s.sendVector_out _ _, hmod _ (hhost _) _ (fun _ => ⟨rfl, rfl⟩) fun _ => rfl⟩
      · exact ⟨fun _ h => h, hmod s rfl _ (fun _ => ⟨rfl, rfl⟩) fun _ => rfl⟩

theorem State.entryPosted_spec {s : State} {c : HostCmd} {q : CmpQ} (hq : s.cq c.fn c.cqid = some q) (d : Decision) (status : Nat) :
    (∀ x ∈ (s.entrySent c d q status).out, x ∈ (s.entryPosted c d q status).out) ∧
      ((s.entryPosted c d q status).cq c.fn c.cqid).map (fun x => (x.tail, x.phase, x.head)) =
        some ((q.tail + 1) % q.size, (if (q.tail + 1) % q.size = 0 then !q.phase else q.phase), q.head) := by
  obtain ⟨hout, hview⟩ := State.interrupt_spec ((s.entrySent c d q status).modCq c.fn c.cqid (CmpQ.movedTo ((q.tail + 1) % q.size))) c q
  refine ⟨hout, hview.trans ?_⟩
  rw [State.cq_modCq _ _ _ (CmpQ.movedTo ((q.tail + 1) % q.size)) fun _ => ⟨rfl, rfl⟩, show (s.entrySent c d q status).cq c.fn c.cqid = some q from hq]
  rfl

/-- What a command's leaving keeps: nothing that was sent is taken back, the queues stand, and the command and its locks are gone. -/
theorem State.slotFreed_spec (s : State) (c : HostCmd) :
    (∀ x ∈ s.out, x ∈ (s.slotFreed c).out) ∧ (s.slotFreed c).host.cqs = s.host.cqs ∧
      (∀ x ∈ (s.slotFreed c).host.cmds, x.stamp ≠ c.stamp) ∧ ∀ r ∈ (s.slotFreed c).host.locks, r.stamp ≠ c.stamp := by
  obtain ⟨hleaves, hids, hlocks⟩ := s.retire_spec c
  have hdone : Concludes (s.retire c) ((s.retire c).finishAborts c.stamp).decideFlushes :=
    (State.finishAborts_concludes _ _).trans (State.decideFlushes_concludes _)
  have hnoted := ((s.retire c).finishAborts c.stamp).decideFlushes.notePause_noted
  have hshut := ((s.retire c).finishAborts c.stamp).decideFlushes.notePause.advanceShutdown_host
  have hserves : Serves s (s.slotFreed c) :=
    .step (State.advanceShutdown_serves _) <| .step (State.notePause_serves _) <| .step (State.decideFlushes_serves _) <|
      .step (.of_keeps (State.finishAborts_keeps ..) rfl rfl rfl) (s.retire_serves c)
  have hgone : (s.slotFreed c).cmdIds = s.cmdIds.filter fun e => e.1 != c.stamp := by
    have h1 : (s.slotFreed c).cmdIds = ((s.retire c).finishAborts c.stamp).decideFlushes.cmdIds := by
      unfold State.cmdIds
      rw [State.slotFreed, hshut, ← hnoted.cmds]
    rw [h1, hdone.ids, hids]
  refine ⟨hserves.out, ?_, fun x hx => ?_, ?_⟩
  · rw [State.slotFreed, hshut]
    show ((s.retire c).finishAborts c.stamp).decideFlushes.notePause.host.cqs = _
    rw [hnoted.1]
    show ((s.retire c).finishAborts c.stamp).decideFlushes.host.cqs = _
    rw [hdone.host]
    show (s.retire c).host.cqs = _
    rw [hleaves]
  · have hmem : (x.stamp, x.fn) ∈ (s.slotFreed c).cmdIds := List.mem_map_of_mem (f := fun c : HostCmd => (c.stamp, c.fn)) hx
    rw [hgone] at hmem
    simpa using (List.mem_filter.mp hmem).2
  · have heq : (s.slotFreed c).host.locks = (s.retire c).host.locks := by
      rw [State.slotFreed, hshut]
      show ((s.retire c).finishAborts c.stamp).decideFlushes.notePause.host.locks = _
      rw [hnoted.1]
      show ((s.retire c).finishAborts c.stamp).decideFlushes.host.locks = _
      rw [hdone.host]
    rw [heq]
    exact hlocks

theorem completionPost_posts (slot : Fin 8192) (c : HostCmd) (d : Decision) (q : CmpQ) :
    Completes (.completionPost slot)
      (fun s => s.cmdAt slot.val = some c ∧ c.decided = some d ∧ s.cq c.fn c.cqid = some q ∧ (q.tail + 1) % q.size ≠ q.head ∧ s.snipHeld c.stamp = false ∧
          (∀ x ∈ s.host.cmds, x.fn = c.fn ∧ x.cqid = c.cqid → (x.decided.map fun y => decide (d.seq ≤ y.seq)) ≠ some false))
      [.events, .regs, .msix, .heads, .decode, .mem, .host, .sec, .out, .free]
      fun s t => Output.cqe c.fn c.cqid q.tail (cqeDwords d.dw0 (((s.sq c.fn c.sqid).map (·.head)).getD 0) c.sqid c.cid
              (if d.status = 0 ∧ (s.returnData c d).2.1 = false then stInternal else d.status) q.phase) ∈ t.out ∧
          (d.status = 0 → (s.returnData c d).2.1 = true → (s.returnData c d).1 ≠ [] → Output.hostData c.fn c.sqid c.cid (s.returnData c d).1 ∈ t.out) ∧
          (∀ x ∈ t.host.cmds, x.stamp ≠ c.stamp) ∧ (∀ r ∈ t.host.locks, r.stamp ≠ c.stamp) ∧
          (t.cq c.fn c.cqid).map (fun x => (x.tail, x.phase, x.head)) =
            some ((q.tail + 1) % q.size, (if (q.tail + 1) % q.size = 0 then !q.phase else q.phase), q.head) := by
  refine Completes.of_keeps (execCompletionPost_keeps slot) ?_
  rintro s - ⟨hat, hd, hq, hroom, hfree, hfirst⟩
  refine ⟨_, exec_completionPost hat hd hq hroom hfree hfirst, ?_⟩
  have hstatus : (if (s.dataReturned c d).2.1 then d.status else stInternal) = if d.status = 0 ∧ (s.returnData c d).2.1 = false then stInternal else d.status := by
    unfold State.dataReturned
    by_cases h0 : d.status = 0
    · rw [if_pos h0]
      cases (s.returnData c d).2.1 <;> simp [h0]
    · simp [h0]
  rw [hstatus]
  generalize (if d.status = 0 ∧ (s.returnData c d).2.1 = false then stInternal else d.status) = status
  have hhost := State.dataSent_host c (s.dataReturned c d).1 (s.dataReturned c d).2.1 (s.dataReturned c d).2.2
  rw [s.dataReturned_host] at hhost
  have hdata : d.status = 0 → (s.returnData c d).2.1 = true → (s.returnData c d).1 ≠ [] → Output.hostData c.fn c.sqid c.cid (s.returnData c d).1 ∈
      (State.dataSent c (s.dataReturned c d).1 (s.dataReturned c d).2.1 (s.dataReturned c d).2.2).out := by
    intro h0 hok hne
    unfold State.dataReturned
    rw [if_pos h0, hok]
    exact State.dataSent_sends hne _
  generalize State.dataSent c (s.dataReturned c d).1 (s.dataReturned c d).2.1 (s.dataReturned c d).2.2 = u at hhost hdata ⊢
  have hsq : u.sq c.fn c.sqid = s.sq c.fn c.sqid := State.sq_congr (by rw [hhost]) _ _
  have hcq : u.cq c.fn c.cqid = some q := (State.cq_congr (by rw [hhost]) _ _).trans hq
  obtain ⟨hout, hview⟩ := State.entryPosted_spec hcq d status
  obtain ⟨hkept, hcqs, hcmds, hlocks⟩ := (u.entryPosted c d q status).slotFreed_spec c
  refine ⟨hkept _ (hout _ ?_), fun h0 hok hne => hkept _ (hout _ (List.mem_cons_of_mem _ (hdata h0 hok hne))), hcmds, hlocks, ?_⟩
  · rw [← hsq]
    exact List.mem_cons_self
  · rw [State.cq_congr hcqs]
    exact hview

end Sys2Proof.Machine
end

section
/-!
PROOFS. Commands that a shutdown or a reset discards, shutdowns (R277, R278), and the deadline of an activation (R280).
-/

namespace Sys2Proof.Machine

/-! ## Discarded commands (R277, R278) -/

/-- Every command of a list leaves, and no other. -/
theorem foldl_retire (gone : List HostCmd) (s : State) :
    Serves s (gone.foldl (fun (t : State) (c : HostCmd) => t.retire c) s) ∧ Leaves s (gone.foldl (fun (t : State) (c : HostCmd) => t.retire c) s) ∧
      ∀ e ∈ (gone.foldl (fun (t : State) (c : HostCmd) => t.retire c) s).cmdIds, e ∈ s.cmdIds ∧ ∀ c ∈ gone, e.1 ≠ c.stamp := by
  induction gone generalizing s with
  | nil => exact ⟨.refl s, rfl, fun e he => ⟨he, fun c hc => by cases hc⟩⟩
  | cons g gone ih =>
    obtain ⟨hserves, hleaves, hids⟩ := ih (s.retire g)
    obtain ⟨gleaves, gids, -⟩ := s.retire_spec g
    refine ⟨(s.retire_serves g).trans hserves, gleaves.trans hleaves, fun e he => ?_⟩
    obtain ⟨hmem, hne⟩ := hids e he
    rw [gids] at hmem
    obtain ⟨hmem, hg⟩ := List.mem_filter.mp hmem
    refine ⟨hmem, fun c hc => ?_⟩
    obtain rfl | hc := List.mem_cons.mp hc
    · simpa using hg
    · exact hne c hc

/-- The commands of a function. -/
def State.cmdsOf (s : State) (fn : Nat) : List HostCmd := s.host.cmds.filter fun c => c.fn == fn

/-- The function's commands gone, and their deferred applies with them. -/
def State.withoutCmds (s : State) (fn : Nat) : State :=
  (s.cmdsOf fn).foldl (fun (t : State) (c : HostCmd) => t.retire c) (s.discardApplies (s.cmdsOf fn))

/-- The function's notices and snip requests gone. -/
def State.withoutRequests (s : State) (fn : Nat) : State :=
  (s.modHost fun h => { h with notices := h.notices.filter fun (x : Notice) => x.fn != fn }).modFn fn fun f => { f with snips := [] }

theorem State.discardCommands_eq (s : State) (fn cause : Nat) :
    s.discardCommands fn cause =
      (((s.withoutCmds fn).withoutRequests fn).logHost fn 0x7007 fn (s.cmdsOf fn).length cause).decideFlushes := rfl

theorem State.withoutCmds_spec (s : State) (fn : Nat) :
    Serves s (s.withoutCmds fn) ∧ Leaves s (s.withoutCmds fn) ∧ ∀ c ∈ (s.withoutCmds fn).host.cmds, c.fn ≠ fn := by
  obtain ⟨hserves, hleaves, hids⟩ := foldl_retire (s.cmdsOf fn) (s.discardApplies (s.cmdsOf fn))
  have hplace := s.discardApplies_host (s.cmdsOf fn)
  refine ⟨(s.discardApplies_serves _).trans hserves, hplace.leaves.trans hleaves, fun c hc hfn => ?_⟩
  obtain ⟨hmem, hne⟩ := hids _ (List.mem_map_of_mem (f := fun c : HostCmd => (c.stamp, c.fn)) hc)
  rw [State.cmdIds, hplace] at hmem
  obtain ⟨d, hd, heq⟩ := List.mem_map.mp hmem
  obtain ⟨hstamp, hdfn⟩ := Prod.mk.inj heq
  exact hne d (List.mem_filter.mpr ⟨hd, by simp [hdfn, hfn]⟩) hstamp.symm

/-- What a discard leaves. -/
structure Discarded (fn : Fin 2) (s t : State) : Prop where
  serves : Serves s t
  cmds : ∀ c ∈ t.host.cmds, c.fn ≠ fn.val
  own : t.fnOf fn.val = { s.fnOf fn.val with snips := [] }
  other : ∀ k : Fin 2, k ≠ fn → t.fnOf k.val = s.fnOf k.val
  activation : t.host.activation = s.host.activation

theorem State.discardCommands_spec (s : State) (fn : Fin 2) (cause : Nat) : Discarded fn s (s.discardCommands fn.val cause) := by
  obtain ⟨hserves, hleaves, hcmds⟩ := s.withoutCmds_spec fn.val
  have hfns : (s.withoutCmds fn.val).host.fns = s.host.fns := by rw [hleaves]
  have hact : (s.withoutCmds fn.val).host.activation = s.host.activation := by rw [hleaves]
  rw [State.discardCommands_eq]
  generalize s.withoutCmds fn.val = t at hserves hcmds hfns hact ⊢
  have hlog : ((t.withoutRequests fn.val).logHost fn.val 0x7007 fn.val (s.cmdsOf fn.val).length cause).host = (t.withoutRequests fn.val).host :=
    (State.logHost_keeps ..).frame .host (by decide)
  have hlogs : Serves (t.withoutRequests fn.val) ((t.withoutRequests fn.val).logHost fn.val 0x7007 fn.val (s.cmdsOf fn.val).length cause) :=
    State.log_serves ..
  generalize (t.withoutRequests fn.val).logHost fn.val 0x7007 fn.val (s.cmdsOf fn.val).length cause = u at hlog hlogs ⊢
  have hdone := u.decideFlushes_concludes
  have hfn (k : Fin 2) : u.decideFlushes.fnOf k.val = (t.withoutRequests fn.val).fnOf k.val :=
    (State.fnOf_congr u.decideFlushes_fns _).trans (State.fnOf_congr (congrArg HostState.fns hlog) _)
  have hold (k : Fin 2) : (t.modHost fun h => { h with notices := h.notices.filter fun (x : Notice) => x.fn != fn.val }).fnOf k.val = s.fnOf k.val :=
    State.fnOf_congr hfns _
  refine ⟨?_, fun c hc => ?_, ?_, fun k hk => ?_, ?_⟩
  · refine .step (State.decideFlushes_serves u) (.step hlogs (hserves.trans ?_))
    unfold State.withoutRequests
    exact (State.modHost_serves t _).trans (State.modHost_serves _ _)
  · have hids : u.decideFlushes.cmdIds = t.cmdIds := hdone.ids.trans ((State.cmdIds_congr hlog).trans rfl)
    exact State.forall_cmds_of_ids (P := fun e => e.2 ≠ fn.val) hids hcmds c hc
  · rw [hfn, State.withoutRequests, State.fnOf_modFn, if_pos rfl, hold]
  · rw [hfn, State.withoutRequests, State.fnOf_modFn, if_neg hk, hold]
  · rw [hdone.host]
    show u.host.activation = _
    rw [hlog]
    exact hact

theorem State.modFn_serves (s : State) (fn : Nat) (f : FnState → FnState) : Serves s (s.modFn fn f) := s.modHost_serves _

/-- A controller register of a function is none of the engines'. -/
theorem Serves.fnReg {s t : State} (h : Serves s t) (fn : Fin 2) {off : Nat} (hoff : off < 0x4000) : t.reg (fnKey fn.val off) = s.reg (fnKey fn.val off) :=
  h.reg _ (by unfold fnKey; omega)

/-! ## Shutdowns (R278) -/

/-- CC.SHN as written, and CSTS.SHST that shows the shutdown under way. -/
def State.shutdownShown (s : State) (fn : Fin 2) (shn : Nat) : State := (s.setCtl fn.val nvmeCC ccShn shn).setCtl fn.val nvmeCSTS cstsShst 1

theorem State.shutdownShown_spec (s : State) (fn : Fin 2) (shn : Nat) :
    (s.shutdownShown fn shn).ctl fn.val nvmeCC ccShn = shn % 4 ∧ (s.shutdownShown fn shn).ctl fn.val nvmeCSTS cstsShst = 1 ∧
      (s.shutdownShown fn shn).host = s.host ∧ (s.shutdownShown fn shn).boot = s.boot := by
  refine ⟨?_, State.ctl_setCtl_self _ _ _ _ _ (by decide) (by decide), (State.setCtl_host ..).trans (State.setCtl_host ..), ?_⟩
  · unfold State.shutdownShown
    rw [State.ctl_congr _ (State.setCtl_regsBut _ _ _ _ _ _ (by simpa using nvmeCSTS_ne_nvmeCC fn.val)),
      State.ctl_setCtl_self _ _ _ _ _ (by decide) (by decide)]
    rfl
  · exact ((State.setCtl_keeps ..).frame .boot (by decide)).trans ((State.setCtl_keeps ..).frame .boot (by decide))

theorem State.drained_congr {s t : State} (h : t.host = { s.host with fns := t.host.fns }) (fn : Nat) (since : Stamp) : t.drained fn since = s.drained fn since := by
  unfold State.drained State.flushBlocked
  rw [h]

/-- A normal shutdown whose commands have ended goes on to the hems, and stays draining else. -/
theorem State.advanceShutdown_phase (s : State) {f : Fin 2} (hf : f ∈ s.functions) {since : Stamp} (h : (s.fnOf f.val).phase = .draining since) :
    (s.advanceShutdown.fnOf f.val).phase = if s.drained f.val since then .hemming else .draining since := by
  refine foldl_at (P := fun t => t.host = { s.host with fns := t.host.fns }) (view := fun t (k : Fin 2) => t.fnOf k.val)
    (r := fun k x y => x.phase = .draining since → y.phase = if s.drained k.val since then .hemming else .draining since)
    s.functions_nodup (fun t k ht => ?_) (fun t k ht hphase => ?_) (fun t j k hne => ?_) rfl hf h
  · split
    · split
      · unfold State.modFn State.modHost
        dsimp only
        rw [(State.hemEvery_keeps t).frame .host (by decide), ht]
      · exact ht
    · exact ht
  · rw [hphase]
    dsimp only
    rw [State.drained_congr ht]
    split
    · rw [State.fnOf_modFn, if_pos rfl]
    · exact hphase
  · split
    · split
      · rw [State.fnOf_modFn, if_neg hne]
        exact State.fnOf_congr (congrArg HostState.fns ((State.hemEvery_keeps t).frame .host (by decide))) _
      · rfl
    · rfl

theorem shutdownNormal_drains (fn : Fin 2) :
    Completes (.shutdownNormal fn)
      (fun s => s.functions.contains fn = true ∧ s.enabled fn.val = true ∧ (s.fnOf fn.val).phase = .running)
      [.events, .regs, .heads, .decode, .mem, .host, .out]
      fun s t => t.ctl fn.val nvmeCC ccShn = 1 ∧ t.ctl fn.val nvmeCSTS cstsShst = 1 ∧ t.host.cmds = s.host.cmds ∧
          (t.fnOf fn.val).phase = (if s.drained fn.val (s.host.lastFetch + 1) then .hemming else .draining (s.host.lastFetch + 1)) := by
  refine Completes.of_keeps (execShutdownNormal_keeps fn) ?_
  rintro s - ⟨hfn, hon, hphase⟩
  obtain ⟨hshn, hshst, hhost, hboot⟩ := s.shutdownShown_spec fn 1
  have hexec : exec (.shutdownNormal fn) s = .next (((s.shutdownShown fn 1).modFn fn.val fun f =>
      { f with phase := .draining (s.host.lastFetch + 1) }).advanceShutdown) := by
    have hfetch : (s.shutdownShown fn 1).host.lastFetch = s.host.lastFetch := congrArg HostState.lastFetch hhost
    rw [← hfetch]
    exact when_of_true (by rw [hon, hphase]; rfl) _ _
  generalize s.shutdownShown fn 1 = u at hshn hshst hhost hboot hexec
  have hserves := (u.modFn_serves fn.val fun f => { f with phase := .draining (s.host.lastFetch + 1) }).trans (State.advanceShutdown_serves _)
  have hkeep := (u.modFn fn.val fun f => { f with phase := .draining (s.host.lastFetch + 1) }).advanceShutdown_host
  have hdraining : ((u.modFn fn.val fun f => { f with phase := .draining (s.host.lastFetch + 1) }).fnOf fn.val).phase = .draining (s.host.lastFetch + 1) := by
    rw [State.fnOf_modFn, if_pos rfl]
  have hmem : fn ∈ (u.modFn fn.val fun f => { f with phase := .draining (s.host.lastFetch + 1) }).functions := by
    rw [State.functions_congr ((State.modFn_boot ..).trans hboot)]
    simpa using hfn
  have hdrained : (u.modFn fn.val fun f => { f with phase := .draining (s.host.lastFetch + 1) }).drained fn.val (s.host.lastFetch + 1) =
      s.drained fn.val (s.host.lastFetch + 1) := by
    refine State.drained_congr ?_ _ _
    rw [← hhost]
    rfl
  have hphase' := State.advanceShutdown_phase _ hmem hdraining
  have hcmds : (u.modFn fn.val fun f => { f with phase := .draining (s.host.lastFetch + 1) }).host.cmds = s.host.cmds :=
    (State.modFn_cmds ..).trans (congrArg HostState.cmds hhost)
  generalize (u.modFn fn.val fun f => { f with phase := .draining (s.host.lastFetch + 1) }) = v at hserves hkeep hdrained hphase' hcmds hexec
  refine ⟨_, hexec, (State.ctl_congr _ (hserves.fnReg fn (by decide))).trans hshn, (State.ctl_congr _ (hserves.fnReg fn (by decide))).trans hshst, ?_, ?_⟩
  · rw [hkeep]
    exact hcmds
  · rw [hphase', hdrained]

theorem shutdownAbrupt_discards (fn : Fin 2) :
    Completes (.shutdownAbrupt fn)
      (fun s => s.enabled fn.val = true ∧ s.resetting fn.val = false)
      [.events, .regs, .heads, .decode, .mem, .host, .sec, .out]
      fun _ t => t.ctl fn.val nvmeCC ccShn = 2 ∧ t.ctl fn.val nvmeCSTS cstsShst = 1 ∧ (t.fnOf fn.val).phase = .hemming ∧
          (∀ c ∈ t.host.cmds, c.fn ≠ fn.val) ∧ (t.fnOf fn.val).snips = [] := by
  refine Completes.of_keeps (execShutdownAbrupt_keeps fn) ?_
  rintro s - ⟨hon, hnot⟩
  obtain ⟨hshn, hshst, -, -⟩ := s.shutdownShown_spec fn 2
  have hexec : exec (.shutdownAbrupt fn) s = .next (((s.shutdownShown fn 2).discardCommands fn.val 2).hemEvery.modFn fn.val fun f =>
      { f with phase := .hemming }) := when_of_true (by rw [hon, hnot]; rfl) _ _
  generalize s.shutdownShown fn 2 = u at hshn hshst hexec
  obtain ⟨hserves, hcmds, hown, -, -⟩ := u.discardCommands_spec fn 2
  generalize u.discardCommands fn.val 2 = v at hserves hcmds hown hexec
  have hhost : v.hemEvery.host = v.host := (State.hemEvery_keeps v).frame .host (by decide)
  have hall := (hserves.trans v.hemEvery_serves.1).trans (State.modFn_serves _ fn.val fun f => { f with phase := .hemming })
  refine ⟨_, hexec, (State.ctl_congr _ (hall.fnReg fn (by decide))).trans hshn, (State.ctl_congr _ (hall.fnReg fn (by decide))).trans hshst, ?_, ?_, ?_⟩
  · rw [State.fnOf_modFn, if_pos rfl]
  · rw [State.modFn_cmds, hhost]
    exact hcmds
  · rw [State.fnOf_modFn, if_pos rfl, State.fnOf_congr (congrArg HostState.fns hhost), hown]

/-! ## The deadline of an activation (R280) -/

/-- A completion is decided alike in states in which the command's completion is the same. -/
theorem decides_congr {s t : State} {x : Stamp} (h : (t.cmdOf x).map (·.decided) = (s.cmdOf x).map (·.decided)) (status dw0 : Nat) :
    Decides x status dw0 t ↔ Decides x status dw0 s := by
  have hbind (u : State) : (u.cmdOf x).bind (·.decided) = ((u.cmdOf x).map (·.decided)).join := by cases u.cmdOf x <;> rfl
  unfold Decides
  rw [hbind, hbind, h]

theorem State.dropped_decided (s : State) (c : HostCmd) (x : Stamp) :
    (((s.dropOrder c).dropCommit c.stamp).cmdOf x).map (·.decided) = (s.cmdOf x).map (·.decided) := by
  rw [State.cmdOf_congr (s.dropped_host c).1, s.cmdOf_modCmd c.stamp x (fun c => { c with order := .returned, dataDue := false }) fun _ => rfl,
    Option.map_map]
  refine congrArg (fun f => (s.cmdOf x).map f) (funext fun d => ?_)
  simp only [Function.comp]
  split <;> rfl

/-- The completion of a command is open, or decided with Command Abort Requested. -/
def OpenOrAborted (x : Stamp) (s : State) : Prop := (s.cmdOf x).map (·.decided) = some none ∨ Decides x stAborted 0 s

/-- Commands that are aborted: their own completion is decided, and no other is decided another way. -/
theorem State.endCommand_aborts (s : State) (c : HostCmd) {x : Stamp} (h : OpenOrAborted x s) :
    OpenOrAborted x (s.endCommand c stAborted) ∧ (c.stamp = x → Decides x stAborted 0 (s.endCommand c stAborted)) := by
  have hdrop := s.dropped_decided c x
  unfold State.endCommand
  generalize (s.dropOrder c).dropCommit c.stamp = u at hdrop ⊢
  have hlater := u.conclude_concludes c.stamp stAborted 0 []
  obtain hopen | hdone := h
  · rw [← hdrop] at hopen
    obtain ⟨e, he, hnone⟩ := Option.map_eq_some_iff.mp hopen
    by_cases hx : c.stamp = x
    · subst x
      have hdec : Decides c.stamp stAborted 0 (u.conclude c.stamp stAborted 0) := by
        unfold Decides
        rw [State.conclude_cmdOf he hnone]
        rfl
      exact ⟨.inr hdec, fun _ => hdec⟩
    · refine ⟨.inl ?_, fun h => absurd h hx⟩
      obtain heq | ⟨d, hd, hopen'⟩ := u.conclude_cases c.stamp stAborted 0 []
      · rw [heq, hopen]
      · rw [State.conclude_of_open hd hopen']
        have hother : (State.modHost (State.modCmd ((u.recordError d stAborted 0).releaseBands c.stamp) c.stamp fun c =>
            c.concluded stAborted (if stAborted = stUnrecovered then 0 else 0) [] u.host.nextSeq) fun h => { h with nextSeq := h.nextSeq + 1 }).cmdOf x =
            u.cmdOf x := by
          refine (State.cmdOf_modCmd_other (Ne.symm hx) _ ?_).trans (State.cmdOf_congr (u.recordError_cmds d stAborted 0) x)
          exact fun _ => rfl
        rw [hother, hopen]
  · have hdone' := (decides_congr hdrop stAborted 0).mpr hdone
    exact ⟨.inr (hlater.decides hdone'), fun _ => hlater.decides hdone'⟩

theorem foldl_endCommand_aborts (left : List HostCmd) {s : State} {x : Stamp} (h : OpenOrAborted x s) :
    OpenOrAborted x (left.foldl (fun (t : State) (c : HostCmd) => t.endCommand c stAborted) s) ∧
      ((∃ c ∈ left, c.stamp = x) → Decides x stAborted 0 (left.foldl (fun (t : State) (c : HostCmd) => t.endCommand c stAborted) s)) := by
  have hkept (l : List HostCmd) {t : State} (hd : Decides x stAborted 0 t) :
      Decides x stAborted 0 (l.foldl (fun (t : State) (c : HostCmd) => t.endCommand c stAborted) t) :=
    List.foldlRecOn (motive := Decides x stAborted 0) l _ hd fun t ht c _ =>
      (State.conclude_concludes ..).decides ((decides_congr (t.dropped_decided c x) stAborted 0).mpr ht)
  induction left generalizing s with
  | nil => exact ⟨h, fun ⟨c, hc, _⟩ => by cases hc⟩
  | cons c left ih =>
    obtain ⟨hnext, hself⟩ := s.endCommand_aborts c h
    obtain ⟨hall, hlater⟩ := ih hnext
    refine ⟨hall, fun ⟨d, hd, hx⟩ => ?_⟩
    obtain rfl | hd := List.mem_cons.mp hd
    · exact hkept left (hself hx)
    · exact hlater ⟨d, hd, hx⟩

theorem State.announceOrders_st (s : State) (b : Fin 24) : (s.announceOrders.bob b).st = (s.bob b).st ∧ (s.announceOrders.bob b).pc = (s.bob b).pc := by
  by_cases h : s.ordersWaiting = 0
  · rw [State.announceOrders, if_pos h]
    exact ⟨rfl, rfl⟩
  · rw [State.announceOrders_bob h]
    unfold State.told
    split <;> exact ⟨rfl, rfl⟩

theorem State.endCommand_st (s : State) (c : HostCmd) (status : Nat) (b : Fin 24) : ((s.endCommand c status).bob b).st = (s.bob b).st := by
  have h1 : (s.endCommand c status).bob b = (s.dropOrder c).bob b :=
    (State.bob_congr ((State.conclude_keeps ..).frame .seq (by decide)) b).trans (State.bob_congr ((State.dropCommit_keeps ..).frame .seq (by decide)) b)
  rw [h1]
  unfold State.dropOrder
  cases c.order with
  | taken a => exact (State.announceOrders_st _ b).1
  | notIssued => rfl
  | queued => rfl
  | returned => rfl

/-- Every bobbin that runs is asked to halt. -/
theorem State.requestHaltAll_bob (s : State) (b : Fin 24) :
    (s.bob b).st = .halted ∨ (s.bob b).st = .exception ∨ (s.requestHaltAll.bob b).haltReq.isSome = true := by
  refine foldl_bob (P := fun _ => True) (f := fun t b => t.requestHalt b .hardware)
    (r := fun _ x y => x.st = .halted ∨ x.st = .exception ∨ y.haltReq.isSome = true) (fun _ _ h => h) (fun t b _ => ?_) (fun t b c hc => ?_) trivial b
  · unfold State.requestHalt
    split
    · rename_i h
      exact h.elim .inl fun h => .inr (.inl h)
    · rw [State.bob_modBob_self]
      exact .inr (.inr rfl)
  · unfold State.requestHalt
    split
    · rfl
    · exact t.bob_modBob_other _ hc

/-- What an activation leaves outstanding at its deadline. -/
def State.outstanding (s : State) (a : Activation) : List HostCmd := s.host.cmds.filter fun c => c.abortable && c.stamp != a.cmd

/-- The outstanding commands aborted. -/
def State.aborted (s : State) (a : Activation) : State :=
  ((s.outstanding a).foldl (fun (t : State) (c : HostCmd) => t.endCommand c stAborted) s).logHost 0 0x7006 (s.outstanding a).length

theorem State.aborted_spec (s : State) (a : Activation) :
    (s.aborted a).heads = s.heads ∧ (∀ b : Fin 24, ((s.aborted a).bob b).st = (s.bob b).st) ∧
      ∀ c : HostCmd, s.cmdOf c.stamp = some c → c.abortable = true → c.stamp ≠ a.cmd → Decides c.stamp stAborted 0 (s.aborted a) := by
  have hlog (t : State) (n : Nat) := t.logHost_keeps 0 0x7006 n 0 0 0
  refine ⟨((hlog _ _).frame .heads (by decide)).trans ?_, fun b => ?_, fun c hc habort hne => ?_⟩
  · exact List.foldlRecOn (motive := fun t : State => t.heads = s.heads) _ _ rfl fun t ht c _ => ((t.endCommand_keeps c stAborted).frame .heads (by decide)).trans ht
  · rw [State.aborted, State.bob_congr ((hlog _ _).frame .seq (by decide))]
    exact List.foldlRecOn (motive := fun t : State => (t.bob b).st = (s.bob b).st) _ _ rfl fun t ht c _ => (t.endCommand_st c stAborted b).trans ht
  · have hopen : c.decided = none := by
      unfold HostCmd.abortable at habort
      rw [Bool.and_eq_true, Option.isNone_iff_eq_none] at habort
      exact habort.1
    have hmem : c ∈ s.outstanding a := List.mem_filter.mpr ⟨State.cmdOf_mem hc, by simp [habort, hne]⟩
    refine (decides_congr ?_ stAborted 0).mpr ((foldl_endCommand_aborts (s.outstanding a) (.inl (by rw [hc, Option.map_some, hopen]))).2 ⟨c, hmem, rfl⟩)
    rw [State.aborted, State.cmdOf_congr (congrArg HostState.cmds ((hlog _ _).frame .host (by decide)))]

theorem activationDrainDeadline_aborts (a : Activation) (c : HostCmd) :
    Completes .activationDrainDeadline
      (fun s => s.host.activation = some a ∧ a.drained = false ∧ a.t0 + 300 * ticksMs ≤ s.now ∧ s.mcActive = false ∧ s.cmdOf c.stamp = some c ∧
          c.abortable = true ∧ c.stamp ≠ a.cmd)
      [.events, .regs, .heads, .decode, .seq, .mem, .host, .sec, .out]
      fun s t => t.host.activation = some { a with drained := true } ∧ Decides c.stamp stAborted 0 t ∧
          (∀ b : Fin 24, (s.bob b).st = .halted ∨ (s.bob b).st = .exception ∨ (t.bob b).haltReq.isSome = true) ∧
          (∀ n : Fin 16, (s.head n).pass.isSome = true → ((t.head n).pass.bind (·.hem)).isSome = true) := by
  refine Completes.of_keeps execActivationDrainDeadline_keeps ?_
  rintro s - ⟨hact, hdrain, htime, hmc, hc, habort, hne⟩
  have hexec : exec .activationDrainDeadline s =
      .next ((s.aborted a).hemEvery.requestHaltAll.modHost fun h => { h with activation := some { a with drained := true } }) := by
    show execActivationDrainDeadline s = _
    rw [execActivationDrainDeadline, hact]
    exact when_of_true (by rw [hdrain, hmc]; simp [htime]) _ _
  obtain ⟨hheads, hst, hdec⟩ := s.aborted_spec a
  have hdec := hdec c hc habort hne
  generalize s.aborted a = u at hheads hst hdec hexec
  have hseq : u.hemEvery.seq = u.seq := (State.hemEvery_keeps u).frame .seq (by decide)
  have hhost : u.hemEvery.requestHaltAll.host = u.host :=
    ((State.requestHaltAll_keeps _).frame .host (by decide)).trans ((State.hemEvery_keeps u).frame .host (by decide))
  have hn : u.hemEvery.requestHaltAll.heads = u.hemEvery.heads := (State.requestHaltAll_keeps _).frame .heads (by decide)
  have hhalt (b : Fin 24) := u.hemEvery.requestHaltAll_bob b
  have hhem := u.hemEvery_serves.2
  generalize u.hemEvery.requestHaltAll = w at hhost hn hhalt hexec
  have hcmds := congrArg HostState.cmds hhost
  refine ⟨_, hexec, rfl, ?_, fun b => ?_, fun n hp => ?_⟩
  · exact (decides_congr (congrArg (Option.map HostCmd.decided) (State.cmdOf_congr hcmds c.stamp)) stAborted 0).mpr hdec
  · have h := hhalt b
    rw [State.bob_congr hseq, hst] at h
    exact h
  · rw [State.head_congr ((State.modHost_heads ..).trans hn)]
    exact hhem n (by rwa [State.head_congr hheads])

end Sys2Proof.Machine
end

section
/-!
PROOFS. Resets as they end (R241, R254, R277): the bobbins restart, the function's own registers and queues return to reset, and fetch may
resume.
-/

namespace Sys2Proof.Machine

/-! ## Bobbins that restart (R241) -/

/-- From s to t bobbins have restarted: no register has changed but their own and the governor's, their entry points stand, and the passes
are the same. -/
structure Restarts (s t : State) : Prop where
  reg : ∀ k : Nat, k < 0x081000 ∨ 0x082000 ≤ k → k ≠ R.SP_GOV → t.reg k = s.reg k
  entry : ∀ b : Fin 24, t.entryOf b = s.entryOf b
  pass : ∀ n : Fin 16, (t.head n).pass = (s.head n).pass

theorem Restarts.refl (s : State) : Restarts s s := ⟨fun _ _ _ => rfl, fun _ => rfl, fun _ => rfl⟩

theorem Restarts.trans {s t u : State} (h : Restarts s t) (k : Restarts t u) : Restarts s u :=
  ⟨fun j hj hne => (k.reg j hj hne).trans (h.reg j hj hne), fun b => (k.entry b).trans (h.entry b), fun n => (k.pass n).trans (h.pass n)⟩

theorem State.entryOf_congr {s t : State} {b : Fin 24} (h : t.reg (R.SQ_BOB_ENTRY b.val) = s.reg (R.SQ_BOB_ENTRY b.val)) : t.entryOf b = s.entryOf b :=
  State.fld_congr h _

theorem Restarts.of_regs_heads {s t : State} (hregs : t.regs = s.regs) (hheads : t.heads = s.heads) : Restarts s t :=
  ⟨fun k _ _ => congrArg (storeGet regReset k) hregs, fun _ => State.entryOf_congr (congrArg (storeGet regReset _) hregs),
    fun n => by rw [State.head_congr hheads]⟩

theorem State.updateGov_regsBut (s : State) : RegsBut [R.SP_GOV] s s.updateGov :=
  (s.regsBut_setFld _ _ _).trans (State.regsBut_setFld _ _ _ _)

theorem State.updateGov_restarts (s : State) : Restarts s s.updateGov := by
  have h := s.updateGov_regsBut
  refine ⟨fun k _ hne => h k (by simpa using hne), fun b => State.entryOf_congr (h _ ?_), fun n => ?_⟩
  · simp only [List.mem_singleton, R.SQ_BOB_ENTRY, R.SP_GOV]
    omega
  · rw [State.head_congr ((State.updateGov_keeps s).frame .heads (by decide))]

/-- An open that its bobbin's restart ends (R241). -/
def State.openAborted (s : State) (n : Fin 16) (who : Waiter) : State :=
  ((s.modHead n fun h => { h with opening := none }).dropOpenClaim n).completeHead n who 2 0

theorem State.openAborted_restarts (s : State) (n : Fin 16) (who : Waiter) :
    Restarts s (s.openAborted n who) ∧ ∀ c : Fin 24, c ≠ who.bobbin → (s.openAborted n who).bob c = s.bob c := by
  have h1 : Restarts s (s.modHead n fun h => { h with opening := none }) := by
    refine ⟨fun _ _ _ => rfl, fun _ => rfl, fun m => ?_⟩
    by_cases hm : m = n
    · subst m
      rw [State.head_modHead_self]
    · rw [State.head_modHead_other _ _ hm]
  have hseq : (s.modHead n fun h => { h with opening := none }).seq = s.seq := rfl
  unfold State.openAborted
  generalize (s.modHead n fun h => { h with opening := none }) = t at h1 hseq ⊢
  have h2 : Restarts t (t.dropOpenClaim n) := by
    have hmotion (m : MotionState) : Restarts t { t with motion := m } := .of_regs_heads rfl rfl
    exact (hmotion _).trans (State.updateGov_restarts _)
  have hseq' : (t.dropOpenClaim n).seq = t.seq := (State.dropOpenClaim_keeps t n).frame .seq (by decide)
  generalize t.dropOpenClaim n = u at h2 hseq' ⊢
  have h3 : Restarts u (u.completeHead n who 2 0) :=
    .of_regs_heads ((u.completeHead_keeps n who 2 0).frame .regs (by decide)) ((u.completeHead_keeps n who 2 0).frame .heads (by decide))
  refine ⟨(h1.trans h2).trans h3, fun c hc => ?_⟩
  rw [State.completeHead, State.complete, State.sendEntry, State.bob_modBob_other _ _ hc, State.bob_congr (hseq'.trans hseq)]

theorem State.abortOpens_restarts (s : State) (b : Fin 24) :
    Restarts s (s.abortOpens b) ∧ ∀ c : Fin 24, c ≠ b → (s.abortOpens b).bob c = s.bob c := by
  unfold State.abortOpens
  refine List.foldlRecOn (motive := fun t : State => Restarts s t ∧ ∀ c : Fin 24, c ≠ b → t.bob c = s.bob c) _ _ ⟨.refl s, fun _ _ => rfl⟩
    fun t ⟨ht, hbob⟩ n _ => ?_
  split
  · rename_i o _
    split
    · rename_i hwho
      obtain ⟨hnext, hother⟩ := t.openAborted_restarts n o.who
      exact ⟨ht.trans hnext, fun c hc => (hother c (hwho.1 ▸ hc)).trans (hbob c hc)⟩
    · exact ⟨ht, hbob⟩
  · exact ⟨ht, hbob⟩

theorem State.startBobbin_regsBut (s : State) (b : Fin 24) (entry cause : Nat) :
    RegsBut [R.SQ_BOB_EXC b.val, R.SQ_BOB_ISSUED b.val] s (s.startBobbin b entry cause) := by
  intro k hk
  simp only [List.mem_cons, List.not_mem_nil, or_false, not_or] at hk
  unfold State.startBobbin
  dsimp only
  rw [State.logSeq_reg, State.regsBut_setReg _ _ _ k (by simpa using hk.2), State.regsBut_setFld _ _ _ _ k (by simpa using hk.1)]
  rfl

theorem State.startBobbin_bob (s : State) (b : Fin 24) (entry cause : Nat) :
    ((s.startBobbin b entry cause).bob b).st = .ready ∧ ((s.startBobbin b entry cause).bob b).pc = entry % 65536 ∧
      ∀ c : Fin 24, c ≠ b → (s.startBobbin b entry cause).bob c = s.bob c := by
  unfold State.startBobbin
  dsimp only
  refine ⟨?_, ?_, fun c hc => ?_⟩
  · rw [State.bob_congr (State.logSeq_seq ..), State.bob_congr (State.setReg_seq ..), State.bob_congr (State.setFld_seq ..), State.bob_modBob_self]
  · rw [State.bob_congr (State.logSeq_seq ..), State.bob_congr (State.setReg_seq ..), State.bob_congr (State.setFld_seq ..), State.bob_modBob_self]
  · rw [State.bob_congr (State.logSeq_seq ..), State.bob_congr (State.setReg_seq ..), State.bob_congr (State.setFld_seq ..), State.bob_modBob_other _ _ hc]

theorem State.restart_restarts (s : State) (b : Fin 24) (cause : Nat) :
    Restarts s (s.restart b cause) ∧ (∀ c : Fin 24, c ≠ b → (s.restart b cause).bob c = s.bob c) ∧
      (16 ≤ b.val → ((s.restart b cause).bob b).st = .ready ∧ ((s.restart b cause).bob b).pc = s.entryOf b % 65536) := by
  unfold State.restart
  obtain ⟨hst, hpc, hother⟩ := s.startBobbin_bob b (s.entryOf b) cause
  have hregs := s.startBobbin_regsBut b (s.entryOf b) cause
  split
  · refine ⟨⟨fun k hk _ => hregs k ?_, fun c => State.entryOf_congr (hregs _ ?_), fun n => ?_⟩, hother, fun _ => ⟨hst, hpc⟩⟩
    · simp only [List.mem_cons, List.not_mem_nil, or_false, R.SQ_BOB_EXC, R.SQ_BOB_ISSUED]
      omega
    · simp only [List.mem_cons, List.not_mem_nil, or_false, R.SQ_BOB_ENTRY, R.SQ_BOB_EXC, R.SQ_BOB_ISSUED]
      omega
    · rw [State.head_congr]
      exact (State.startBobbin_keeps ..).frame .heads (by decide)
  · rename_i hstay
    refine ⟨.refl s, fun _ _ => rfl, fun hb => absurd ?_ hstay⟩
    unfold State.mayRun
    simp [hb]

/-- A bobbin's part of a reset. -/
def State.restartOne (cause : Nat) (t : State) (b : Fin 24) : State :=
  let always := b.val < 16 || (17 ≤ b.val && b.val ≤ 20)
  let down := (t.bob b).st == .halted || (t.bob b).st == .exception
  if always || down then ((if down then t else t.abortOpens b).restart b cause) else t

theorem State.restartOne_restarts (t : State) (cause : Nat) (b : Fin 24) :
    Restarts t (t.restartOne cause b) ∧ (∀ c : Fin 24, c ≠ b → (t.restartOne cause b).bob c = t.bob c) ∧
      (17 ≤ b.val → b.val ≤ 20 → ((t.restartOne cause b).bob b).st = .ready ∧ ((t.restartOne cause b).bob b).pc = t.entryOf b % 65536) := by
  unfold State.restartOne
  dsimp only
  have hpre (d : Bool) : Restarts t (if d then t else t.abortOpens b) ∧ ∀ c : Fin 24, c ≠ b → (if d then t else t.abortOpens b).bob c = t.bob c := by
    cases d with
    | true => exact ⟨.refl t, fun _ _ => rfl⟩
    | false => exact t.abortOpens_restarts b
  generalize ((t.bob b).st == .halted || (t.bob b).st == .exception) = down
  obtain ⟨h1, hother1⟩ := hpre down
  generalize (if down then t else t.abortOpens b) = u at h1 hother1 ⊢
  obtain ⟨h2, hother2, hself⟩ := u.restart_restarts b cause
  split
  · exact ⟨h1.trans h2, fun c hc => (hother2 c hc).trans (hother1 c hc), fun hlo _ => h1.entry b ▸ hself (by omega)⟩
  · rename_i hnot
    refine ⟨.refl t, fun _ _ => rfl, fun hlo hhi => absurd ?_ hnot⟩
    simp [hlo, hhi]

theorem State.restartBobbins_restarts (s : State) (cause : Nat) :
    Restarts s (s.restartBobbins cause) ∧ ∀ b : Fin 24, 17 ≤ b.val → b.val ≤ 20 →
      ((s.restartBobbins cause).bob b).st = .ready ∧ ((s.restartBobbins cause).bob b).pc = s.entryOf b % 65536 := by
  have heq : s.restartBobbins cause = (List.finRange 24).foldl (State.restartOne cause) s := rfl
  rw [heq]
  refine ⟨List.foldlRecOn (motive := Restarts s) _ _ (.refl s) fun t ht b _ => ht.trans (t.restartOne_restarts cause b).1, fun b => ?_⟩
  exact foldl_bob (P := Restarts s) (f := State.restartOne cause)
    (r := fun b _ y => 17 ≤ b.val → b.val ≤ 20 → y.st = .ready ∧ y.pc = s.entryOf b % 65536)
    (fun t b ht => ht.trans (t.restartOne_restarts cause b).1)
    (fun t b ht hlo hhi => ht.entry b ▸ (t.restartOne_restarts cause b).2.2 hlo hhi)
    (fun t b c hc => (t.restartOne_restarts cause b).2.1 c hc) (.refl s) b

/-! ## A function's own registers (R277) -/

theorem storeGet_filter {α : Type} (dflt : Nat → α) (p : Nat → Bool) (k : Nat) (l : List (Nat × α)) :
    storeGet dflt k (l.filter fun r => !p r.1) = if p k then dflt k else storeGet dflt k l := by
  induction l with
  | nil => simp [storeGet]
  | cons x l ih =>
    obtain ⟨j, v⟩ := x
    rw [List.filter_cons, storeGet]
    by_cases hp : p j = true
    · simp only [hp, Bool.not_true, Bool.false_eq_true, if_false, ih]
      by_cases hk : k = j
      · rw [hk, if_pos hp, if_pos hp]
      · rw [if_neg hk]
    · simp only [hp, Bool.not_false, if_true, storeGet, ih]
      by_cases hk : k = j
      · rw [if_pos hk, if_pos hk, hk, if_neg hp]
      · rw [if_neg hk, if_neg hk]

/-- The function's own registers at their reset values. -/
def State.withoutOwn (s : State) (fn : Nat) : State := { s with regs := s.regs.filter fun (r : Nat × Word) => !ownRegister fn r.1 }

theorem State.withoutOwn_reg (s : State) (fn k : Nat) : (s.withoutOwn fn).reg k = if ownRegister fn k then regReset k else s.reg k :=
  storeGet_filter regReset (ownRegister fn) k s.regs

/-- Where a function's own registers lie. -/
theorem ownRegister_range {fn k : Nat} (h : ownRegister fn k = true) :
    k / 0x1000000 = fn ∧ (k % 0x1000000 < 0x4000 ∨ 0x40000 ≤ k % 0x1000000 ∧ k % 0x1000000 < 0x40100) := by
  unfold ownRegister at h
  simp only [Bool.and_eq_true, Bool.or_eq_true, beq_iff_eq, decide_eq_true_eq] at h
  obtain ⟨hfn, hoff⟩ := h
  refine ⟨hfn, hoff.imp id fun h => ⟨h.1.1.1, h.1.1.2⟩⟩

theorem ownRegister_fnKey (fn : Fin 2) {off : Nat} (h : off < 0x4000) : ownRegister fn.val (fnKey fn.val off) = true := by
  have hmod : (off + fn.val * 0x1000000) % 0x1000000 = off := by omega
  have hdiv : (off + fn.val * 0x1000000) / 0x1000000 = fn.val := by omega
  unfold ownRegister fnKey
  simp [hmod, hdiv, h]

/-- A register outside both functions' own is neither function's. -/
theorem ownRegister_outside (fn : Fin 2) {k : Nat} (h : 0x4000 ≤ k) (h' : k < 0x40000 ∨ 0x40100 ≤ k) (hlt : k < 0x1000000) : ownRegister fn.val k = false := by
  rw [Bool.eq_false_iff]
  intro hown
  obtain ⟨hfn, hoff⟩ := ownRegister_range hown
  omega

/-! ## The end of a reset (R254, R277) -/

/-- A machine check that a reset ends. -/
def State.checkEnded (s : State) : State :=
  if s.mcActive then
    let s := s.setFld R.CS_MC_STATUS F.CS_MC_STATUS_ACTIVE 0
    let s := s.functions.foldl (fun (t : State) (k : Fin 2) => t.setFld (cstsKey k.val) cstsCfs 0) s
    s.logSeq 0xF005 (s.fld R.CS_MC_STATUS F.CS_MC_STATUS_COUNT)
  else s

theorem State.checkEnded_of_none {s : State} (h : s.mcActive = false) : s.checkEnded = s := if_neg (by rw [h]; decide)

theorem State.checkEnded_keeps (s : State) : Keeps [.events, .regs] s s.checkEnded := by
  unfold State.checkEnded
  split
  · refine Keeps.step (State.logSeq_keeps ..) rfl (Keeps.foldl ?_ fun t k ht => Keeps.step (State.setFld_keeps ..) rfl ht)
    exact Keeps.mono (State.setFld_keeps ..) rfl
  · exact Keeps.refl _ s

theorem State.checkEnded_spec (s : State) :
    s.checkEnded.mcActive = false ∧ RegsBut [R.CS_MC_STATUS, cstsKey 0, cstsKey 1] s s.checkEnded := by
  unfold State.checkEnded
  split
  · have hcsts (t : State) : RegsBut [cstsKey 0, cstsKey 1] t (t.functions.foldl (fun (t : State) (k : Fin 2) => t.setFld (cstsKey k.val) cstsCfs 0) t) := by
      refine RegsBut.foldl _ (fun u k => (u.regsBut_setFld _ _ _).mono ?_) t
      fin_cases k <;> simp
    have hset := s.regsBut_setFld R.CS_MC_STATUS F.CS_MC_STATUS_ACTIVE 0
    have hoff : (s.setFld R.CS_MC_STATUS F.CS_MC_STATUS_ACTIVE 0).mcActive = false := State.flag_setFld_clear _ _ _ (by decide) (by decide)
    dsimp only
    generalize s.setFld R.CS_MC_STATUS F.CS_MC_STATUS_ACTIVE 0 = t at hset hoff ⊢
    have hfold := hcsts t
    generalize t.functions.foldl (fun (t : State) (k : Fin 2) => t.setFld (cstsKey k.val) cstsCfs 0) t = u at hfold ⊢
    refine ⟨?_, fun k hk => ?_⟩
    · rw [← hoff]
      refine State.flag_congr ((State.logSeq_reg ..).trans (hfold _ ?_)) _
      decide
    · simp only [List.mem_cons, List.not_mem_nil, or_false, not_or] at hk
      rw [State.logSeq_reg, hfold k (by simpa using hk.2), hset k (by simpa using hk.1)]
  · rename_i h
    exact ⟨by simpa using h, RegsBut.refl _ s⟩

/-- Orders that bobbins had taken wait again, and the function's queues are gone. -/
def requeued (c : HostCmd) : HostCmd := match c.order with
  | .taken _ => { c with order := .queued }
  | _ => c

theorem requeued_id (c : HostCmd) : (requeued c).stamp = c.stamp ∧ (requeued c).fn = c.fn := by
  unfold requeued
  split <;> exact ⟨rfl, rfl⟩

def State.queuesGone (s : State) (fn : Nat) : State := s.modHost fun h => { h with
  cmds := h.cmds.map requeued
  sqs := h.sqs.filter fun (q : SubQ) => q.fn != fn
  cqs := h.cqs.filter fun (q : CmpQ) => q.fn != fn
  arb := { h.arb with turn := none } }

/-- The function as a reset leaves it: its errors and what it has to tell of them stay. -/
def State.fnReset (s : State) (fn : Nat) : State :=
  s.modFn fn fun f => { FnState.reset with errors := f.errors, errCount := f.errCount, changed := f.changed }

theorem State.finishReset_eq (s : State) (fn : Nat) :
    s.finishReset fn = ((((s.checkEnded.restartBobbins 1).queuesGone fn).withoutOwn fn).fnReset fn).announceOrders.notePause := rfl

/-- What the end of a function's reset leaves. -/
structure ResetDone (fn : Fin 2) (s t : State) : Prop where
  phase : (t.fnOf fn.val).phase = .running
  otherPhase : ∀ k : Fin 2, k ≠ fn → (t.fnOf k.val).phase = (s.fnOf k.val).phase
  ownReg : ∀ k : Nat, ownRegister fn.val k = true → t.reg k = regReset k
  reg : ∀ k : Nat, ownRegister fn.val k = false → k < 0x081000 ∨ 0x082000 ≤ k → k ≠ R.SP_GOV →
    s.mcActive = false ∨ (k ≠ R.CS_MC_STATUS ∧ k ≠ cstsKey 0 ∧ k ≠ cstsKey 1) → t.reg k = s.reg k
  noCheck : t.mcActive = false
  entry : ∀ b : Fin 24, t.entryOf b = s.entryOf b
  pass : ∀ n : Fin 16, (t.head n).pass = (s.head n).pass
  ids : t.cmdIds = s.cmdIds
  sqs : t.host.sqs = s.host.sqs.filter fun q => q.fn != fn.val
  cqs : t.host.cqs = s.host.cqs.filter fun q => q.fn != fn.val
  bobs : ∀ b : Fin 24, 17 ≤ b.val → b.val ≤ 20 → (t.bob b).st = .ready ∧ (t.bob b).pc = s.entryOf b % 65536

theorem State.finishReset_done (s : State) (fn : Fin 2) : ResetDone fn s (s.finishReset fn.val) := by
  rw [State.finishReset_eq]
  obtain ⟨hcheck, hregs⟩ := s.checkEnded_spec
  have hkeeps := s.checkEnded_keeps
  have hnone := s.checkEnded_of_none
  generalize s.checkEnded = a at hcheck hregs hkeeps hnone ⊢
  have hentry (b : Fin 24) : a.entryOf b = s.entryOf b := by
    refine State.entryOf_congr (hregs _ ?_)
    simp only [List.mem_cons, List.not_mem_nil, or_false, R.SQ_BOB_ENTRY, R.CS_MC_STATUS, cstsKey]
    omega
  obtain ⟨hrestarts, hbobs⟩ := a.restartBobbins_restarts 1
  have hhost : (a.restartBobbins 1).host = s.host :=
    ((a.restartBobbins_keeps 1).frame .host (by decide)).trans (hkeeps.frame .host (by decide))
  generalize a.restartBobbins 1 = u at hrestarts hbobs hhost ⊢
  have hnoted := (((u.queuesGone fn.val).withoutOwn fn.val).fnReset fn.val).announceOrders.notePause_noted
  have hnkeeps := (((u.queuesGone fn.val).withoutOwn fn.val).fnReset fn.val).announceOrders.notePause_keeps
  have htold := (((u.queuesGone fn.val).withoutOwn fn.val).fnReset fn.val).announceOrders_keeps
  have hst := (((u.queuesGone fn.val).withoutOwn fn.val).fnReset fn.val).announceOrders_st
  have hreg (k : Nat) : (((u.queuesGone fn.val).withoutOwn fn.val).fnReset fn.val).announceOrders.notePause.reg k =
      if ownRegister fn.val k then regReset k else u.reg k := by
    have hregs : (((u.queuesGone fn.val).withoutOwn fn.val).fnReset fn.val).announceOrders.notePause.regs = ((u.queuesGone fn.val).withoutOwn fn.val).regs :=
      (hnkeeps.frame .regs (by decide)).trans (htold.frame .regs (by decide))
    exact (congrArg (storeGet regReset k) hregs).trans ((u.queuesGone fn.val).withoutOwn_reg fn.val k)
  have hfn (k : Fin 2) : (((((u.queuesGone fn.val).withoutOwn fn.val).fnReset fn.val).announceOrders.notePause).fnOf k.val).phase =
      if k = fn then .running else (s.fnOf k.val).phase := by
    have hold := congrArg FnState.phase (State.fnOf_congr (congrArg HostState.fns hhost) k.val)
    rw [hnoted.2 k, State.fnOf_congr (congrArg HostState.fns (htold.frame .host (by decide))), State.fnReset, State.fnOf_modFn]
    split
    · rfl
    · exact hold
  have hheads : (((u.queuesGone fn.val).withoutOwn fn.val).fnReset fn.val).announceOrders.notePause.heads = u.heads :=
    (hnkeeps.frame .heads (by decide)).trans (htold.frame .heads (by decide))
  have hh : (((u.queuesGone fn.val).withoutOwn fn.val).fnReset fn.val).announceOrders.host = (((u.queuesGone fn.val).withoutOwn fn.val).fnReset fn.val).host :=
    htold.frame .host (by decide)
  have hbob (b : Fin 24) := State.bob_congr (hnkeeps.frame .seq (by decide)) b
  have hseq : (((u.queuesGone fn.val).withoutOwn fn.val).fnReset fn.val).seq = u.seq := rfl
  have hcq : (((u.queuesGone fn.val).withoutOwn fn.val).fnReset fn.val).host.cqs = s.host.cqs.filter fun q => q.fn != fn.val := by
    rw [← hhost]
    rfl
  have hsq : (((u.queuesGone fn.val).withoutOwn fn.val).fnReset fn.val).host.sqs = s.host.sqs.filter fun q => q.fn != fn.val := by
    rw [← hhost]
    rfl
  have hcmds : (((u.queuesGone fn.val).withoutOwn fn.val).fnReset fn.val).cmdIds = s.cmdIds := by
    have h : (((u.queuesGone fn.val).withoutOwn fn.val).fnReset fn.val).host.cmds = s.host.cmds.map requeued := by
      rw [← hhost]
      rfl
    rw [State.cmdIds, h, List.map_map, State.cmdIds]
    exact List.map_congr_left fun c _ => Prod.ext (requeued_id c).1 (requeued_id c).2
  generalize ((u.queuesGone fn.val).withoutOwn fn.val).fnReset fn.val = v at *
  refine ⟨(hfn fn).trans (if_pos rfl), fun k hk => (hfn k).trans (if_neg hk), fun k hk => (hreg k).trans (if_pos hk), fun k hk hblock hgov hcase => ?_, ?_,
    fun b => ?_, fun n => ?_, ?_, ?_, ?_, fun b hlo hhi => ?_⟩
  · rw [hreg, if_neg (by rw [hk]; decide), hrestarts.reg k hblock hgov]
    obtain hoff | ⟨h1, h2, h3⟩ := hcase
    · rw [hnone hoff]
    · exact hregs k (by simp [h1, h2, h3])
  · rw [← hcheck]
    refine State.flag_congr ?_ _
    rw [hreg, if_neg, hrestarts.reg _ (by decide) (by decide)]
    rw [ownRegister_outside fn (by decide) (by decide) (by decide)]
    decide
  · rw [← hentry, ← hrestarts.entry]
    refine State.entryOf_congr ?_
    rw [hreg, if_neg]
    have h1 : 0x4000 ≤ R.SQ_BOB_ENTRY b.val ∧ 0x40100 ≤ R.SQ_BOB_ENTRY b.val ∧ R.SQ_BOB_ENTRY b.val < 0x1000000 := by
      unfold R.SQ_BOB_ENTRY
      omega
    rw [ownRegister_outside fn h1.1 (.inr h1.2.1) h1.2.2]
    decide
  · rw [State.head_congr hheads, hrestarts.pass, State.head_congr (hkeeps.frame .heads (by decide))]
  · rw [State.cmdIds, hnoted.cmds, hh]
    exact hcmds
  · rw [hnoted.1]
    exact (congrArg HostState.sqs hh).trans hsq
  · rw [hnoted.1]
    exact (congrArg HostState.cqs hh).trans hcq
  · rw [hbob, (hst b).1, (hst b).2, State.bob_congr hseq, ← hentry]
    exact hbobs b hlo hhi

end Sys2Proof.Machine
end

section
/-!
PROOFS. Controller and Function Level Resets, and the patch bank that a reset waits for (R254, R277).
-/

namespace Sys2Proof.Machine

/-! ## Resets of both functions, one after the other -/

/-- A run through functions that reaches one of them: what holds before its turn, and after it. -/
theorem foldl_reaches {P Q : State → Prop} {f : State → Fin 2 → State} {i : Fin 2} (hbefore : ∀ t j, j ≠ i → P t → P (f t j)) (hturn : ∀ t, P t → Q (f t i))
    (hafter : ∀ t j, j ≠ i → Q t → Q (f t j)) {l : List (Fin 2)} (hl : l.Nodup) (hi : i ∈ l) {s : State} (hs : P s) : Q (l.foldl f s) := by
  induction l generalizing s with
  | nil => cases hi
  | cons j l ih =>
    rw [List.nodup_cons] at hl
    rw [List.foldl_cons]
    by_cases hj : j = i
    · subst j
      exact List.foldlRecOn (motive := Q) l f (hturn s hs) fun t ht k hk => hafter t k (fun h => hl.1 (h ▸ hk)) ht
    · exact ih hl.2 ((List.mem_cons.mp hi).resolve_left (Ne.symm hj)) (hbefore s j hj hs)

/-- One function of those whose resets may end. -/
def State.finishIfDue (t : State) (fn : Fin 2) : State :=
  if (t.fnOf fn.val).phase = .resetting ∧ t.noPass ∧ !t.reloadDue then t.finishReset fn.val else t

theorem State.finishResets_eq (s : State) : s.finishResets = s.functions.foldl State.finishIfDue s := rfl

/-- While a pass is open no reset ends. -/
theorem State.finishResets_of_pass {s : State} (h : s.noPass = false) : s.finishResets = s := by
  rw [State.finishResets_eq]
  refine List.foldlRecOn (motive := fun t : State => t = s) _ _ rfl fun t ht fn _ => ?_
  subst ht
  exact if_neg (by rintro ⟨-, hp, -⟩; exact Bool.false_ne_true (h.symm.trans hp))

/-- And none where no function is being reset. -/
theorem State.finishResets_of_none {s : State} (h : ∀ k : Fin 2, (s.fnOf k.val).phase ≠ .resetting) : s.finishResets = s := by
  rw [State.finishResets_eq]
  refine List.foldlRecOn (motive := fun t : State => t = s) _ _ rfl fun t ht fn _ => ?_
  subst ht
  exact if_neg fun hc => h fn hc.1

theorem State.noPass_congr {s t : State} (h : ∀ n : Fin 16, (t.head n).pass = (s.head n).pass) : t.noPass = s.noPass := by
  rw [Bool.eq_iff_iff, State.noPass_iff, State.noPass_iff]
  exact forall_congr' fun n => by rw [h]

/-- No command and no queue of a function. -/
def NoneOf (fn : Nat) (t : State) : Prop :=
  (∀ c ∈ t.host.cmds, c.fn ≠ fn) ∧ (∀ q ∈ t.host.sqs, q.fn ≠ fn) ∧ ∀ q ∈ t.host.cqs, q.fn ≠ fn

theorem ResetDone.cmds {fn : Fin 2} {s t : State} (h : ResetDone fn s t) {k : Nat} (hk : ∀ c ∈ s.host.cmds, c.fn ≠ k) : ∀ c ∈ t.host.cmds, c.fn ≠ k :=
  State.forall_cmds_of_ids (P := fun e => e.2 ≠ k) h.ids hk

theorem ResetDone.noneOf_self {fn : Fin 2} {s t : State} (h : ResetDone fn s t) (hc : ∀ c ∈ s.host.cmds, c.fn ≠ fn.val) : NoneOf fn.val t := by
  refine ⟨h.cmds hc, fun q hq => ?_, fun q hq => ?_⟩
  · rw [h.sqs] at hq
    simpa using (List.mem_filter.mp hq).2
  · rw [h.cqs] at hq
    simpa using (List.mem_filter.mp hq).2

theorem ResetDone.noneOf_other {fn : Fin 2} {s t : State} (h : ResetDone fn s t) {k : Nat} (hk : NoneOf k s) : NoneOf k t := by
  obtain ⟨hc, hs, hq⟩ := hk
  refine ⟨h.cmds hc, fun q hq' => hs q ?_, fun q hq' => hq q ?_⟩
  · rw [h.sqs] at hq'
    exact (List.mem_filter.mp hq').1
  · rw [h.cqs] at hq'
    exact (List.mem_filter.mp hq').1

/-- Another function's reset leaves a function's own registers, once no machine check is in progress. -/
theorem ResetDone.ownReg_other {j k : Fin 2} {s t : State} (h : ResetDone j s t) (hne : j ≠ k) (hmc : s.mcActive = false) {r : Nat}
    (hr : ownRegister k.val r = true) : t.reg r = s.reg r := by
  obtain ⟨hfn, hoff⟩ := ownRegister_range hr
  refine h.reg r ?_ (by omega) (by unfold R.SP_GOV; omega) (.inl hmc)
  rw [Bool.eq_false_iff]
  intro hj
  obtain ⟨hfj, -⟩ := ownRegister_range hj
  exact hne (Fin.ext (hfj.symm.trans hfn))

/-- The register of the reset's cause. -/
theorem ResetDone.cause {fn : Fin 2} {s t : State} (h : ResetDone fn s t) : t.reg R.SYS_RST_CAUSE = s.reg R.SYS_RST_CAUSE :=
  h.reg _ (ownRegister_outside fn (by decide) (by decide) (by decide)) (by decide) (by decide) (.inr (by decide))

/-- A function whose reset may end, its commands gone. -/
structure ResetDue (fn : Fin 2) (s t : State) : Prop where
  phase : (t.fnOf fn.val).phase = .resetting
  noPass : t.noPass = true
  reload : t.reloadDue = false
  entry : ∀ b : Fin 24, t.entryOf b = s.entryOf b
  cause : t.reg R.SYS_RST_CAUSE = s.reg R.SYS_RST_CAUSE
  cmds : (∀ c ∈ s.host.cmds, c.fn ≠ fn.val) → ∀ c ∈ t.host.cmds, c.fn ≠ fn.val

/-- A function whose reset has ended. -/
structure ResetOver (fn : Fin 2) (s t : State) : Prop where
  phase : (t.fnOf fn.val).phase = .running
  ownReg : ∀ k : Nat, ownRegister fn.val k = true → t.reg k = regReset k
  noCheck : t.mcActive = false
  noPass : t.noPass = true
  entry : ∀ b : Fin 24, t.entryOf b = s.entryOf b
  cause : t.reg R.SYS_RST_CAUSE = s.reg R.SYS_RST_CAUSE
  sqs : ∀ q ∈ t.host.sqs, q.fn ≠ fn.val
  gone : (∀ c ∈ s.host.cmds, c.fn ≠ fn.val) → NoneOf fn.val t
  bobs : ∀ b : Fin 24, 17 ≤ b.val → b.val ≤ 20 → (t.bob b).st = .ready ∧ (t.bob b).pc = s.entryOf b % 65536

theorem reloadDue_of_noCheck {t : State} (h : t.mcActive = false) : t.reloadDue = false := by
  unfold State.reloadDue
  rw [h, Bool.false_and]

/-- A reset that may end has ended once each function has had its turn. -/
theorem State.finishResets_over {s : State} {fn : Fin 2} (hfn : fn ∈ s.functions) (hphase : (s.fnOf fn.val).phase = .resetting) (hnone : s.noPass = true)
    (hreload : s.reloadDue = false) : ResetOver fn s s.finishResets := by
  rw [State.finishResets_eq]
  refine foldl_reaches (P := ResetDue fn s) (fun t j hj ht => ?_) (fun t ht => ?_) (fun t j hj ht => ?_) s.functions_nodup hfn
    ⟨hphase, hnone, hreload, fun _ => rfl, rfl, id⟩
  · unfold State.finishIfDue
    split
    · have hd := t.finishReset_done j
      exact ⟨(hd.otherPhase fn (Ne.symm hj)).trans ht.phase, (State.noPass_congr hd.pass).trans ht.noPass, reloadDue_of_noCheck hd.noCheck,
        fun b => (hd.entry b).trans (ht.entry b), hd.cause.trans ht.cause, fun hs => hd.cmds (ht.cmds hs)⟩
    · exact ht
  · have hd := t.finishReset_done fn
    unfold State.finishIfDue
    rw [if_pos ⟨ht.phase, ht.noPass, by rw [ht.reload]; rfl⟩]
    refine ⟨hd.phase, hd.ownReg, hd.noCheck, (State.noPass_congr hd.pass).trans ht.noPass, fun b => (hd.entry b).trans (ht.entry b), hd.cause.trans ht.cause,
      fun q hq => ?_, fun hs => hd.noneOf_self (ht.cmds hs), fun b hlo hhi => ht.entry b ▸ hd.bobs b hlo hhi⟩
    rw [hd.sqs] at hq
    simpa using (List.mem_filter.mp hq).2
  · unfold State.finishIfDue
    split
    · have hd := t.finishReset_done j
      refine ⟨(hd.otherPhase fn (Ne.symm hj)).trans ht.phase, fun k hk => (hd.ownReg_other hj ht.noCheck hk).trans (ht.ownReg k hk), hd.noCheck,
        (State.noPass_congr hd.pass).trans ht.noPass, fun b => (hd.entry b).trans (ht.entry b), hd.cause.trans ht.cause, fun q hq => ?_,
        fun hs => hd.noneOf_other (ht.gone hs), fun b hlo hhi => ht.entry b ▸ hd.bobs b hlo hhi⟩
      rw [hd.sqs] at hq
      exact ht.sqs q (List.mem_filter.mp hq).1
    · exact ht

/-! ## A reset as it begins (R277) -/

/-- SYS_RST_CAUSE shows the reset. -/
def State.causeShown (s : State) (cause : Nat) : State := s.setFld R.SYS_RST_CAUSE (if cause = 1 then F.SYS_RST_CAUSE_FLR else F.SYS_RST_CAUSE_CTRL) 1

/-- The function's commands and run-ahead bands discarded, and every hem asked for. -/
def State.resetBegun (s : State) (fn cause : Nat) : State :=
  ((List.range 16).foldl (fun (t : State) n => t.discardHeadBands n 3) ((s.causeShown cause).discardCommands fn cause)).hemEvery.modFn fn fun f =>
    { f with phase := .resetting, wantsRdy := false }

theorem State.beginReset_eq {s : State} (h : s.host.activation = none) (fn : Fin 2) (cause : Nat) :
    s.beginReset fn.val cause = (s.resetBegun fn.val cause).finishResets := by
  have hact : ((s.causeShown cause).discardCommands fn.val cause).host.activation = none := by
    rw [((s.causeShown cause).discardCommands_spec fn cause).activation]
    exact (congrArg HostState.activation (State.setFld_host ..)).trans h
  have hdrop : ((s.causeShown cause).discardCommands fn.val cause).dropActivation = (s.causeShown cause).discardCommands fn.val cause := by
    rw [State.dropActivation, hact]
  show ((((List.range 16).foldl (fun (t : State) n => t.discardHeadBands n 3) ((s.causeShown cause).discardCommands fn.val cause).dropActivation).hemEvery.modFn fn.val fun f =>
    { f with phase := .resetting, wantsRdy := false }).finishResets) = _
  rw [hdrop]
  rfl

/-- What a reset that has begun leaves. -/
structure ResetBegun (fn : Fin 2) (s t : State) : Prop where
  serves : Serves s t
  phase : (t.fnOf fn.val).phase = .resetting
  cmds : ∀ c ∈ t.host.cmds, c.fn ≠ fn.val
  hem : ∀ n : Fin 16, (s.head n).pass.isSome = true → ((t.head n).pass.bind (·.hem)).isSome = true
  boot : t.boot = s.boot

theorem State.resetBegun_spec (s : State) (fn : Fin 2) (cause : Nat) : ResetBegun fn (s.causeShown cause) (s.resetBegun fn.val cause) := by
  unfold State.resetBegun
  generalize s.causeShown cause = u
  obtain ⟨hserves, hcmds, -, -, -⟩ := u.discardCommands_spec fn cause
  have hboot : (u.discardCommands fn.val cause).boot = u.boot := (State.discardCommands_keeps ..).frame .boot (by decide)
  generalize u.discardCommands fn.val cause = v at hserves hcmds hboot ⊢
  have hbands : Serves v ((List.range 16).foldl (fun (t : State) n => t.discardHeadBands n 3) v) :=
    Serves.foldl (.refl v) _ fun t n _ => t.discardHeadBands_serves n 3
  have hhost : ((List.range 16).foldl (fun (t : State) n => t.discardHeadBands n 3) v).host = v.host :=
    List.foldlRecOn (motive := fun t : State => t.host = v.host) _ _ rfl fun t ht n _ => ((t.discardHeadBands_keeps n 3).frame .host (by decide)).trans ht
  have hbboot : ((List.range 16).foldl (fun (t : State) n => t.discardHeadBands n 3) v).boot = v.boot :=
    List.foldlRecOn (motive := fun t : State => t.boot = v.boot) _ _ rfl fun t ht n _ => ((t.discardHeadBands_keeps n 3).frame .boot (by decide)).trans ht
  generalize (List.range 16).foldl (fun (t : State) n => t.discardHeadBands n 3) v = w at hbands hhost hbboot ⊢
  obtain ⟨hw, hhem⟩ := w.hemEvery_serves
  have hwhost : w.hemEvery.host = w.host := (State.hemEvery_keeps w).frame .host (by decide)
  have hwboot : w.hemEvery.boot = w.boot := (State.hemEvery_keeps w).frame .boot (by decide)
  refine ⟨((hserves.trans hbands).trans hw).trans (State.modFn_serves ..), by rw [State.fnOf_modFn, if_pos rfl], ?_, fun n hp => ?_, ?_⟩
  · rw [State.modFn_cmds, hwhost, hhost]
    exact hcmds
  · rw [State.head_congr (State.modFn_heads ..)]
    exact hhem n (by rwa [(hserves.trans hbands).pass])
  · rw [State.modFn_boot, hwboot, hbboot, hboot]

/-! ## Resets that nothing holds back (R277) -/

/-- The state in which the function is disabled and its reset's cause shows. -/
def State.resetShown (s : State) (fn : Fin 2) (cause : Nat) : State := (s.setCtl fn.val nvmeCC ccEn 0).causeShown cause

theorem State.resetFunction_eq {s : State} (h : s.host.activation = none) (fn : Fin 2) (cause : Nat) :
    s.resetFunction fn.val cause = ((s.setCtl fn.val nvmeCC ccEn 0).resetBegun fn.val cause).finishResets := by
  have hact : (s.setCtl fn.val nvmeCC ccEn 0).host.activation = none := (congrArg HostState.activation (State.setCtl_host ..)).trans h
  rw [← State.beginReset_eq hact]
  unfold State.resetFunction
  dsimp only
  rw [hact]
  rfl

theorem State.resetShown_spec (s : State) (fn : Fin 2) (cause : Nat) :
    RegsBut [fnKey fn.val nvmeCC, R.SYS_RST_CAUSE] s (s.resetShown fn cause) ∧ (s.resetShown fn cause).enabled fn.val = false ∧
      (s.resetShown fn cause).heads = s.heads ∧ (s.resetShown fn cause).host = s.host ∧ (s.resetShown fn cause).boot = s.boot ∧
      (s.resetShown fn cause).flag R.SYS_RST_CAUSE (if cause = 1 then F.SYS_RST_CAUSE_FLR else F.SYS_RST_CAUSE_CTRL) = true := by
  have hne : fnKey fn.val nvmeCC ≠ R.SYS_RST_CAUSE := by
    simp only [fnKey, nvmeCC, R.SYS_RST_CAUSE]
    omega
  have hk : Keeps [.regs] s (s.resetShown fn cause) := Keeps.step (State.setFld_keeps ..) rfl (State.setCtl_keeps ..)
  refine ⟨((s.setCtl_regsBut fn.val nvmeCC ccEn 0).mono (by simp)).trans ((State.regsBut_setFld _ _ _ _).mono (by simp)), ?_, hk.frame .heads (by decide), hk.frame .host (by decide),
    hk.frame .boot (by decide), ?_⟩
  · rw [State.resetShown, State.causeShown, State.enabled_congr (State.reg_setFld_other _ _ _ hne), State.enabled, State.ctl_setCtl_self _ _ _ _ _ (by decide) (by decide)]
    rfl
  · by_cases h : cause = 1
    · rw [State.resetShown, State.causeShown, if_pos h]
      exact State.flag_setFld_set _ _ _ (by decide) (by decide)
    · rw [State.resetShown, State.causeShown, if_neg h]
      exact State.flag_setFld_set _ _ _ (by decide) (by decide)

theorem enabled_of_reset {t : State} {fn : Fin 2} (h : t.reg (fnKey fn.val nvmeCC) = regReset (fnKey fn.val nvmeCC)) : t.enabled fn.val = false := by
  have hzero : getField (regReset (fnKey fn.val nvmeCC)) ccEn = 0 := by
    fin_cases fn <;> decide
  unfold State.enabled State.ctl State.fld
  rw [h, hzero]
  rfl

theorem State.reloadDue_congr {s t : State} (h : t.reg R.CS_MC_STATUS = s.reg R.CS_MC_STATUS) (h' : t.reg R.CS_MC_ADDR = s.reg R.CS_MC_ADDR) :
    t.reloadDue = s.reloadDue := by
  unfold State.reloadDue State.mcActive State.uaddrInPatch
  rw [State.flag_congr h, State.fld_congr h']

/-- What a reset that nothing holds back has done by the time it has begun. -/
theorem State.resetBegun_from (s : State) (fn : Fin 2) (cause : Nat) :
    ResetBegun fn (s.resetShown fn cause) ((s.setCtl fn.val nvmeCC ccEn 0).resetBegun fn.val cause) := State.resetBegun_spec _ fn cause

/-- A reset without an open pass ends at once. -/
theorem State.resetFunction_over {s : State} {fn : Fin 2} (hfn : s.functions.contains fn = true) (hact : s.host.activation = none) (hnone : s.noPass = true)
    (hreload : s.reloadDue = false) (cause : Nat) :
    ((s.resetFunction fn.val cause).fnOf fn.val).phase = .running ∧ (s.resetFunction fn.val cause).enabled fn.val = false ∧
      (∀ k : Nat, ownRegister fn.val k = true → (s.resetFunction fn.val cause).reg k = regReset k) ∧ NoneOf fn.val (s.resetFunction fn.val cause) ∧
      (s.resetFunction fn.val cause).flag R.SYS_RST_CAUSE (if cause = 1 then F.SYS_RST_CAUSE_FLR else F.SYS_RST_CAUSE_CTRL) = true ∧
      (s.resetFunction fn.val cause).mcActive = false ∧
      ∀ b : Fin 24, 17 ≤ b.val → b.val ≤ 20 →
        ((s.resetFunction fn.val cause).bob b).st = .ready ∧ ((s.resetFunction fn.val cause).bob b).pc = s.entryOf b % 65536 := by
  obtain ⟨hregs, -, hheads, -, hboot, hflag⟩ := s.resetShown_spec fn cause
  have hbegun := s.resetBegun_from fn cause
  rw [State.resetFunction_eq hact]
  generalize (s.setCtl fn.val nvmeCC ccEn 0).resetBegun fn.val cause = u at hbegun ⊢
  have hreg {k : Nat} (hk : 0x4000 ≤ k) (hk' : k < 0x100000) (hne : k ≠ R.SYS_RST_CAUSE) : u.reg k = s.reg k := by
    refine (hbegun.serves.reg k (.inl hk')).trans (hregs k ?_)
    simp only [List.mem_cons, List.not_mem_nil, or_false, fnKey, nvmeCC, not_or]
    exact ⟨by omega, hne⟩
  have hdue : u.reloadDue = false := by
    rw [← hreload]
    exact State.reloadDue_congr (hreg (by decide) (by decide) (by decide)) (hreg (by decide) (by decide) (by decide))
  have hno : u.noPass = true := by
    rw [hbegun.serves.noPass, ← hnone]
    exact State.noPass_congr fun n => by rw [State.head_congr hheads]
  have hmem : fn ∈ u.functions := by
    rw [State.functions_congr (hbegun.boot.trans hboot)]
    simpa using hfn
  have hover := State.finishResets_over hmem hbegun.phase hno hdue
  generalize u.finishResets = t at hover ⊢
  refine ⟨hover.phase, enabled_of_reset (hover.ownReg _ (ownRegister_fnKey fn (by decide))), hover.ownReg, hover.gone hbegun.cmds, ?_, hover.noCheck,
    fun b hlo hhi => ?_⟩
  · rw [← hflag]
    exact State.flag_congr (hover.cause.trans (hbegun.serves.reg _ (by decide))) _
  · have hentry : u.entryOf b = s.entryOf b := by
      refine State.entryOf_congr (hreg ?_ ?_ ?_)
      all_goals
        unfold R.SQ_BOB_ENTRY
      · omega
      · omega
      · unfold R.SYS_RST_CAUSE
        omega
    rw [← hentry]
    exact hover.bobs b hlo hhi

theorem controllerReset_ends (fn : Fin 2) :
    Completes (.controllerReset fn)
      (fun s => s.functions.contains fn = true ∧ s.enabled fn.val = true ∧ s.resetting fn.val = false ∧ s.host.activation = none ∧ s.noPass = true ∧
          s.reloadDue = false)
      [.events, .regs, .heads, .decode, .seq, .mem, .motion, .host, .sec, .out]
      fun s t => (t.fnOf fn.val).phase = .running ∧ t.enabled fn.val = false ∧ (∀ k : Nat, ownRegister fn.val k = true → t.reg k = regReset k) ∧
          (∀ c ∈ t.host.cmds, c.fn ≠ fn.val) ∧ (∀ q ∈ t.host.sqs, q.fn ≠ fn.val) ∧ (∀ q ∈ t.host.cqs, q.fn ≠ fn.val) ∧
          t.flag R.SYS_RST_CAUSE F.SYS_RST_CAUSE_CTRL = true ∧ t.mcActive = false ∧
          (∀ b : Fin 24, 17 ≤ b.val → b.val ≤ 20 → (t.bob b).st = .ready ∧ (t.bob b).pc = s.entryOf b % 65536) := by
  refine Completes.of_keeps (execControllerReset_keeps fn) ?_
  rintro s - ⟨hfn, hon, hnot, hact, hnone, hreload⟩
  obtain ⟨hphase, hoff, hown, ⟨hcmds, hsqs, hcqs⟩, hcause, hmc, hbobs⟩ := State.resetFunction_over hfn hact hnone hreload 0
  exact ⟨_, when_of_true (by rw [hfn, hon, hnot]; rfl) _ _, hphase, hoff, hown, hcmds, hsqs, hcqs, hcause, hmc, hbobs⟩

theorem functionLevelReset_ends (fn : Fin 2) :
    Completes (.functionLevelReset fn)
      (fun s => s.functions.contains fn = true ∧ s.resetting fn.val = false ∧ s.host.activation = none ∧ s.noPass = true ∧ s.reloadDue = false)
      [.events, .regs, .heads, .decode, .seq, .mem, .motion, .host, .sec, .out]
      fun _ t => (t.fnOf fn.val).phase = .running ∧ t.enabled fn.val = false ∧ (∀ k : Nat, ownRegister fn.val k = true → t.reg k = regReset k) ∧
          (∀ c ∈ t.host.cmds, c.fn ≠ fn.val) ∧ (∀ q ∈ t.host.sqs, q.fn ≠ fn.val) ∧ (∀ q ∈ t.host.cqs, q.fn ≠ fn.val) ∧
          t.flag R.SYS_RST_CAUSE F.SYS_RST_CAUSE_FLR = true ∧ t.mcActive = false := by
  refine Completes.of_keeps (execFunctionLevelReset_keeps fn) ?_
  rintro s - ⟨hfn, hnot, hact, hnone, hreload⟩
  obtain ⟨hphase, hoff, hown, ⟨hcmds, hsqs, hcqs⟩, hcause, hmc, -⟩ := State.resetFunction_over hfn hact hnone hreload 1
  exact ⟨_, when_of_true (by rw [hfn, hnot]; rfl) _ _, hphase, hoff, hown, hcmds, hsqs, hcqs, hcause, hmc⟩

/-- A reset with a pass open waits for its hem. -/
theorem controllerReset_waits (fn : Fin 2) :
    Completes (.controllerReset fn)
      (fun s => s.functions.contains fn = true ∧ s.enabled fn.val = true ∧ s.resetting fn.val = false ∧ s.host.activation = none ∧ s.noPass = false)
      [.events, .regs, .heads, .decode, .seq, .mem, .motion, .host, .sec, .out]
      fun s t => (t.fnOf fn.val).phase = .resetting ∧ t.enabled fn.val = false ∧ (∀ c ∈ t.host.cmds, c.fn ≠ fn.val) ∧
          (∀ n : Fin 16, (s.head n).pass.isSome = true → ((t.head n).pass.bind (·.hem)).isSome = true) := by
  refine Completes.of_keeps (execControllerReset_keeps fn) ?_
  rintro s - ⟨hfn, hon, hnot, hact, hsome⟩
  obtain ⟨-, hoff, hheads, -, -, -⟩ := s.resetShown_spec fn 0
  have hbegun := s.resetBegun_from fn 0
  refine ⟨_, when_of_true (by rw [hfn, hon, hnot]; rfl) _ _, ?_⟩
  rw [State.resetFunction_eq hact]
  generalize (s.setCtl fn.val nvmeCC ccEn 0).resetBegun fn.val 0 = u at hbegun ⊢
  have hno : u.noPass = false := by
    rw [hbegun.serves.noPass, ← hsome]
    exact State.noPass_congr fun n => by rw [State.head_congr hheads]
  rw [State.finishResets_of_pass hno]
  refine ⟨hbegun.phase, (State.enabled_congr (hbegun.serves.fnReg fn (by decide))).trans hoff, hbegun.cmds, fun n hp => hbegun.hem n ?_⟩
  rwa [State.head_congr hheads]

/-! ## The patch bank reloaded (R254) -/

theorem patchReload_ends :
    Completes .patchReload
      (fun s => s.reloadDue = true ∧ s.noPass = true ∧ (∃ f ∈ s.functions, (s.fnOf f.val).phase = .resetting))
      [.events, .regs, .heads, .seq, .motion, .host]
      fun s t => (∀ f ∈ s.functions, (s.fnOf f.val).phase = .resetting → (t.fnOf f.val).phase = .running) ∧ t.mcActive = false := by
  refine Completes.of_keeps execPatchReload_keeps ?_
  rintro s - ⟨hdue, hnone, f, hf, hphase⟩
  have hkeeps := State.reloadPatch_keeps s s.runningPatch
  have hexec : exec .patchReload s = .next ((s.reloadPatch s.runningPatch).functions.foldl (fun (t : State) (fn : Fin 2) =>
      if (t.fnOf fn.val).phase = .resetting then t.finishReset fn.val else t) (s.reloadPatch s.runningPatch)) := by
    refine when_of_true ?_ _ _
    rw [hdue, hnone, Bool.true_and, Bool.true_and, List.any_eq_true]
    exact ⟨f, hf, by simp [hphase]⟩
  have hfns (k : Fin 2) := State.fnOf_congr (congrArg HostState.fns (hkeeps.frame .host (by decide))) k.val
  have hboot := State.functions_congr (hkeeps.frame .boot (by decide))
  generalize s.reloadPatch s.runningPatch = u at hexec hfns hboot
  have hends (k : Fin 2) (hk : k ∈ s.functions) (hp : (s.fnOf k.val).phase = .resetting) :=
    foldl_reaches (P := fun t => (t.fnOf k.val).phase = .resetting) (Q := fun t => (t.fnOf k.val).phase = .running ∧ t.mcActive = false)
      (f := fun (t : State) (fn : Fin 2) => if (t.fnOf fn.val).phase = .resetting then t.finishReset fn.val else t) (i := k)
      (fun t j hj ht => by
        split
        · exact ((t.finishReset_done j).otherPhase k (Ne.symm hj)).trans ht
        · exact ht)
      (fun t ht => by
        rw [if_pos ht]
        exact ⟨(t.finishReset_done k).phase, (t.finishReset_done k).noCheck⟩)
      (fun t j hj ⟨ht, hmc⟩ => by
        split
        · exact ⟨((t.finishReset_done j).otherPhase k (Ne.symm hj)).trans ht, (t.finishReset_done j).noCheck⟩
        · exact ⟨ht, hmc⟩)
      u.functions_nodup (by rwa [hboot]) ((congrArg FnState.phase (hfns k)).trans hp)
  exact ⟨_, hexec, fun k hk hp => (hends k hk hp).1, (hends f hf hphase).2⟩

end Sys2Proof.Machine
end

section
/-!
PROOFS. The completion of a hem, and fetch that an activation's end resumes (R33, R249, R280). Settles O60.
-/

namespace Sys2Proof.Machine

/-! ## The completion of a hem (R33) -/

/-- The pass gone from its head, and its claim of the governor with it. -/
def State.passClosed (s : State) (n : Fin 16) : State :=
  (s.modHead n fun h => { h with
    pass := none, beams := h.beams.map Beam.discard, replayQ := [], lanes := Vector.replicate 2 none
    seek := h.seek.map fun k => if k.stage = .awaitHem then { k with stage := .moving, note := some 0 } else k }).endClaim n

theorem State.passClosed_spec (s : State) (n : Fin 16) :
    ((s.passClosed n).head n).pass = none ∧ ((s.passClosed n).head n).replayQ = [] ∧ ((s.passClosed n).head n).opening = (s.head n).opening ∧
      ((s.passClosed n).head n).leaving = (s.head n).leaving ∧ HeadsBut n s (s.passClosed n) ∧ (s.passClosed n).seq = s.seq ∧
      (s.passClosed n).time = s.time ∧ (s.passClosed n).host = s.host ∧ (s.passClosed n).boot = s.boot ∧ RegsBut [R.SP_GOV] s (s.passClosed n) := by
  unfold State.passClosed
  have hself := s.head_modHead_self n fun h => { h with
    pass := none, beams := h.beams.map Beam.discard, replayQ := [], lanes := Vector.replicate 2 none
    seek := h.seek.map fun k => if k.stage = .awaitHem then { k with stage := .moving, note := some 0 } else k }
  have hother (m : Fin 16) (hm : m ≠ n) := s.head_modHead_other (fun h => { h with
    pass := none, beams := h.beams.map Beam.discard, replayQ := [], lanes := Vector.replicate 2 none
    seek := h.seek.map fun k => if k.stage = .awaitHem then { k with stage := .moving, note := some 0 } else k }) hm
  have hk := s.modHead_keeps n fun h => { h with
    pass := none, beams := h.beams.map Beam.discard, replayQ := [], lanes := Vector.replicate 2 none
    seek := h.seek.map fun k => if k.stage = .awaitHem then { k with stage := .moving, note := some 0 } else k }
  generalize (s.modHead n fun h => { h with
    pass := none, beams := h.beams.map Beam.discard, replayQ := [], lanes := Vector.replicate 2 none
    seek := h.seek.map fun k => if k.stage = .awaitHem then { k with stage := .moving, note := some 0 } else k }) = t at hself hother hk ⊢
  have hclaim := t.endClaim_keeps n
  have hregs : RegsBut [R.SP_GOV] t (t.endClaim n) := fun k hk => State.updateGov_regsBut _ k hk
  have hhead (m : Fin 16) : (t.endClaim n).head m = t.head m := State.head_congr (hclaim.frame .heads (by decide)) m
  rw [hhead n, hself]
  refine ⟨rfl, rfl, rfl, rfl, fun m hm => (hhead m).trans (hother m hm), (hclaim.frame .seq (by decide)).trans (hk.frame .seq (by decide)),
    (hclaim.frame .time (by decide)).trans (hk.frame .time (by decide)), (hclaim.frame .host (by decide)).trans (hk.frame .host (by decide)),
    (hclaim.frame .boot (by decide)).trans (hk.frame .boot (by decide)), (regsBut_of_regs_eq (hk.frame .regs (by decide))).trans hregs⟩

/-- A pass that no open and no removal waits for closes with the answers to those that wait for its hem. -/
theorem State.closePass_eq {s : State} {n : Fin 16} (p : Pass) (m : Hem) (hopen : (s.head n).opening = none) (hleave : (s.head n).leaving = none) :
    s.closePass n p m = m.waiters.foldl (fun t w => t.completeHead n w 0 p.no) (s.passClosed n) := by
  obtain ⟨-, -, hopening, hleaving, -⟩ := s.passClosed_spec n
  have hheads : (m.waiters.foldl (fun t w => t.completeHead n w 0 p.no) (s.passClosed n)).heads = (s.passClosed n).heads :=
    List.foldlRecOn (motive := fun t : State => t.heads = (s.passClosed n).heads) _ _ rfl fun t ht w _ =>
      ((t.completeHead_keeps n w 0 p.no).frame .heads (by decide)).trans ht
  show (if ((m.waiters.foldl (fun t w => t.completeHead n w 0 p.no) (s.passClosed n)).openAfterHem n |>.head n).leaving.isSome then _ else
    (m.waiters.foldl (fun t w => t.completeHead n w 0 p.no) (s.passClosed n)).openAfterHem n) = _
  generalize m.waiters.foldl (fun t w => t.completeHead n w 0 p.no) (s.passClosed n) = u at hheads ⊢
  have hid : u.openAfterHem n = u := by
    rw [State.openAfterHem, State.head_congr hheads, hopening, hopen]
  rw [hid, State.head_congr hheads, hleaving, hleave]
  exact if_neg Bool.false_ne_true

section HemEnds

variable {s : State} {head : Fin 16} {p : Pass} {m : Hem} (hp : (s.head head).pass = some p) (hm : p.hem = some m)

include hp hm

theorem exec_hemComplete_ends (hwith : m.withdrawn = true) (hback : m.writingBack = false) (hbusy : s.twillBusyFor head.val p.no = false)
    (hring : ∀ r ∈ s.decode.waiting, ¬ (r.head = head.val ∧ r.pass = p.no)) :
    exec (.hemComplete head) s = .next (s.closePass head p m).finishResets := by
  show execHemComplete head s = _
  rw [execHemComplete, hp]
  dsimp only
  rw [hm]
  refine when_of_true ?_ _ _
  have hnone : (s.decode.waiting.any fun r => r.head == head.val && r.pass == p.no) = false := by
    rw [List.any_eq_false]
    intro r hr h
    exact hring r hr (by simpa using h)
  rw [hwith, hback, hbusy, hnone]
  rfl

end HemEnds

theorem hemComplete_answers (head : Fin 16) (p : Pass) (m : Hem) (w : Waiter) :
    Completes (.hemComplete head)
      (fun s => (s.head head).pass = some p ∧ p.hem = some m ∧ m.withdrawn = true ∧ m.writingBack = false ∧ s.twillBusyFor head.val p.no = false ∧
          (∀ r ∈ s.decode.waiting, ¬ (r.head = head.val ∧ r.pass = p.no)) ∧ m.waiters = [w] ∧ (s.head head).opening = none ∧
          (s.head head).leaving = none ∧ (∀ k : Fin 2, (s.fnOf k.val).phase ≠ .resetting))
      [.events, .regs, .domains, .heads, .decode, .seq, .motion, .host]
      fun s t => (t.head head).pass = none ∧ (t.head head).replayQ = [] ∧ HeadsBut head s t ∧ Posts w.bobbin (headEntry s head w 0 p.no) s t ∧ t.host = s.host := by
  refine Completes.of_keeps (execHemComplete_keeps head) ?_
  rintro s - ⟨hp, hm, hwith, hback, hbusy, hring, hwaits, hopen, hleave, hphase⟩
  obtain ⟨hpass, hreplay, -, -, hbut, hseq, htime, hhost, -, -⟩ := s.passClosed_spec head
  have hposts := State.completeHead_posts hseq htime head w (result := 0) (by decide) p.no
  have hkeeps := (s.passClosed head).completeHead_keeps head w 0 p.no
  have hheads := hkeeps.frame .heads (by decide)
  have hhost' := (hkeeps.frame .host (by decide)).trans hhost
  have hclosed : s.closePass head p m = (s.passClosed head).completeHead head w 0 p.no := by
    rw [State.closePass_eq p m hopen hleave, hwaits]
    rfl
  have hexec := exec_hemComplete_ends hp hm hwith hback hbusy hring
  rw [hclosed] at hexec
  generalize (s.passClosed head).completeHead head w 0 p.no = u at hposts hheads hhost' hexec
  rw [State.finishResets_of_none fun k h => hphase k ((congrArg FnState.phase (State.fnOf_congr (congrArg HostState.fns hhost') k.val)).symm.trans h)] at hexec
  refine ⟨u, hexec, ?_, ?_, fun k hk => ?_, hposts, hhost'⟩
  · rw [State.head_congr hheads, hpass]
  · rw [State.head_congr hheads, hreplay]
  · rw [State.head_congr hheads, hbut k hk]

theorem hemComplete_waits (head : Fin 16) (p : Pass) (m : Hem) :
    Completes (.hemComplete head)
      (fun s => (s.head head).pass = some p ∧ p.hem = some m ∧ (m.withdrawn = false ∨ m.writingBack = true))
      []
      fun _ _ => True :=
  Completes.of_unchanged fun s ⟨hp, hm, hwait⟩ => by
    show execHemComplete head s = _
    rw [execHemComplete, hp]
    dsimp only
    rw [hm]
    refine when_of_false ?_ _ _
    obtain h | h := hwait
    · rw [h]
      rfl
    · rw [h, Bool.not_true, Bool.and_false]
      rfl

theorem hemComplete_resets (head : Fin 16) (p : Pass) (m : Hem) :
    Completes (.hemComplete head)
      (fun s => (s.head head).pass = some p ∧ p.hem = some m ∧ m.withdrawn = true ∧ m.writingBack = false ∧ s.twillBusyFor head.val p.no = false ∧
          (∀ r ∈ s.decode.waiting, ¬ (r.head = head.val ∧ r.pass = p.no)) ∧ m.waiters = [] ∧ (s.head head).opening = none ∧
          (s.head head).leaving = none ∧ (s.fnOf 0).phase = .resetting ∧ (∀ k : Fin 16, k ≠ head → (s.head k).pass = none) ∧ s.reloadDue = false)
      [.events, .regs, .domains, .heads, .decode, .seq, .motion, .host]
      fun _ t => (t.head head).pass = none ∧ (t.fnOf 0).phase = .running ∧ (∀ q ∈ t.host.sqs, q.fn ≠ 0) := by
  refine Completes.of_keeps (execHemComplete_keeps head) ?_
  rintro s - ⟨hp, hm, hwith, hback, hbusy, hring, hwaits, hopen, hleave, hphase, hothers, hreload⟩
  obtain ⟨hpass, -, -, -, hbut, -, -, hhost, -, hregs⟩ := s.passClosed_spec head
  have hclosed : s.closePass head p m = s.passClosed head := by
    rw [State.closePass_eq p m hopen hleave, hwaits]
    rfl
  have hexec := exec_hemComplete_ends hp hm hwith hback hbusy hring
  rw [hclosed] at hexec
  generalize s.passClosed head = u at hpass hbut hhost hregs hexec
  have hno : u.noPass = true := by
    rw [State.noPass_iff]
    intro n
    by_cases hn : n = head
    · rw [hn, hpass]
    · rw [hbut n hn, hothers n hn]
  have hdue : u.reloadDue = false := by
    rw [← hreload]
    exact State.reloadDue_congr (hregs _ (by decide)) (hregs _ (by decide))
  have hover := State.finishResets_over (fn := 0) ((u.mem_functions_iff 0).mpr (.inl rfl))
    ((congrArg FnState.phase (State.fnOf_congr (congrArg HostState.fns hhost) 0)).trans hphase) hno hdue
  exact ⟨_, hexec, (State.noPass_iff _).mp hover.noPass head, hover.phase, hover.sqs⟩

/-! ## Fetch that resumes (R249, R280) -/

/-- The new package in force, before the bobbins start. -/
def State.slotActivated (s : State) (slot : Nat) : State :=
  let t := (s.loadPackage slot).modSec fun x => { x with running := if x.staged.isSome then x.staged else x.running, staged := none }
  State.setFld { t with boot := { t.boot with slot := slot } } R.SEC_STATUS F.SEC_STATUS_SLOT slot

theorem State.slotActivated_spec (s : State) (slot : Nat) :
    (s.slotActivated slot).host = s.host ∧ (s.slotActivated slot).boot = { s.boot with slot := slot } ∧ (s.slotActivated slot).sec.staged = none ∧
      (s.slotActivated slot).fld R.SEC_STATUS F.SEC_STATUS_SLOT = slot % 4 := by
  have hk := s.loadPackage_keeps slot
  have hhost : (s.loadPackage slot).host = s.host := hk.frame .host (by decide)
  have hboot : (s.loadPackage slot).boot = s.boot := hk.frame .boot (by decide)
  unfold State.slotActivated
  generalize s.loadPackage slot = t at hhost hboot ⊢
  dsimp only
  refine ⟨(State.setFld_host ..).trans hhost, (State.setFld_boot ..).trans ?_, congrArg SecState.staged (State.setFld_sec ..), ?_⟩
  · rw [← hboot]
    rfl
  · rw [State.fld_setFld_self _ _ _ _ (by decide) (by decide)]
    rfl

/-- Every bobbin started after it. -/
def State.allStarted (s : State) : State := (List.finRange 24).foldl (fun (t : State) (b : Fin 24) => t.restart b 2) s

theorem State.allStarted_spec (s : State) :
    Restarts s s.allStarted ∧ Keeps [.events, .regs, .seq] s s.allStarted ∧ ∀ b : Fin 24, 16 ≤ b.val → (s.allStarted.bob b).st = .ready := by
  refine ⟨List.foldlRecOn (motive := Restarts s) _ _ (.refl s) fun t ht b _ => ht.trans (t.restart_restarts b 2).1,
    Keeps.foldl (Keeps.refl _ s) fun t b ht => Keeps.step (State.restart_keeps ..) rfl ht, fun b => ?_⟩
  exact foldl_bob (P := fun _ => True) (f := fun t b => t.restart b 2) (r := fun b _ y => 16 ≤ b.val → y.st = .ready) (fun _ _ h => h)
    (fun t b _ hb => ((t.restart_restarts b 2).2.2 hb).1) (fun t b c hc => (t.restart_restarts b 2).2.1 c hc) trivial b

/-- The activation over. -/
def State.activationOver (s : State) : State := (s.modHost fun h => { h with activation := none, commit := none }).setPp 0

theorem State.activationOver_spec (s : State) :
    s.activationOver.host = { s.host with activation := none, commit := none } ∧ Keeps [.regs, .host] s s.activationOver ∧
      RegsBut [cstsKey 0, cstsKey 1] s s.activationOver ∧ ∀ f ∈ s.functions, s.activationOver.ctl f.val nvmeCSTS cstsPp = 0 := by
  refine ⟨State.setPp_host _ _, Keeps.step (State.setPp_keeps ..) rfl (Keeps.mono (State.modHost_keeps ..) rfl), ?_, fun f hf => ?_⟩
  · unfold State.activationOver State.setPp
    refine RegsBut.trans (regsBut_of_regs_eq (State.modHost_regs ..)) (RegsBut.foldl _ (fun t f => (t.setCtl_regsBut _ _ _ _).mono ?_) _)
    fin_cases f <;> simp [cstsKey, fnKey, nvmeCSTS]
  · refine State.setPp_pp _ 0 ?_
    rwa [State.functions_congr (State.modHost_boot ..)]

theorem firmwareActivationResume_resumes (a : Activation) (c : HostCmd) :
    Completes .firmwareActivationResume
      (fun s => s.host.activation = some a ∧ a.drained = true ∧ s.noPass = true ∧ s.mcActive = false ∧
          (∀ b : Fin 24, (s.bob b).st = .halted ∨ (s.bob b).st = .exception) ∧ (∀ f ∈ s.functions, s.resetting f.val = false) ∧
          s.cmdOf a.cmd = some c ∧ c.decided = none)
      [.events, .regs, .boot, .heads, .decode, .seq, .mem, .motion, .host, .sec, .out]
      fun s t => t.host.activation = none ∧ t.host.commit = none ∧ t.boot = { s.boot with slot := a.slot } ∧ t.sec.staged = none ∧
          t.fld R.SEC_STATUS F.SEC_STATUS_SLOT = a.slot % 4 ∧ (∀ f ∈ s.functions, t.ctl f.val nvmeCSTS cstsPp = 0) ∧ Decides a.cmd 0 0 t ∧
          (∀ b : Fin 24, 16 ≤ b.val → (t.bob b).st = .ready) := by
  refine Completes.of_keeps execFirmwareActivationResume_keeps ?_
  rintro s - ⟨hact, hdrained, hnone, hmc, hhalt, hwait, hc, hopen⟩
  have hwaiting : (s.functions.any fun fn => s.resetting fn.val) = false := by
    rw [List.any_eq_false]
    exact fun f hf => by rw [hwait f hf]; decide
  have hhalted : (s.seq.bobbins.toList.all fun x => x.st == .halted || x.st == .exception) = true := by
    rw [List.all_eq_true]
    intro x hx
    obtain ⟨i, hi, rfl⟩ := List.mem_iff_getElem.mp hx
    have h := hhalt ⟨i, by simpa using hi⟩
    simpa [State.bob] using h
  have hexec : exec .firmwareActivationResume s = .next ((s.slotActivated a.slot).allStarted.activationOver.conclude a.cmd 0 0) := by
    show execFirmwareActivationResume s = _
    rw [execFirmwareActivationResume, hact]
    dsimp only
    rw [hwaiting, hhalted, hmc, hdrained, hnone, if_neg (by decide), when_of_true (by rfl), if_neg (by decide)]
    rfl
  obtain ⟨hhost, hboot, hstaged, hslot⟩ := s.slotActivated_spec a.slot
  generalize s.slotActivated a.slot = u at hhost hboot hstaged hslot hexec
  obtain ⟨hrestarts, hkeeps, hready⟩ := u.allStarted_spec
  have hhost' : u.allStarted.host = s.host := (hkeeps.frame .host (by decide)).trans hhost
  have hboot' : u.allStarted.boot = { s.boot with slot := a.slot } := (hkeeps.frame .boot (by decide)).trans hboot
  have hstaged' : u.allStarted.sec.staged = none := (congrArg SecState.staged (hkeeps.frame .sec (by decide))).trans hstaged
  have hslot' : u.allStarted.fld R.SEC_STATUS F.SEC_STATUS_SLOT = a.slot % 4 :=
    (State.fld_congr (hrestarts.reg _ (by decide) (by decide)) _).trans hslot
  generalize u.allStarted = v at hready hhost' hboot' hstaged' hslot' hexec
  obtain ⟨hover, hokeeps, hregs, hpp⟩ := v.activationOver_spec
  rw [hhost'] at hover
  have hcmds := congrArg HostState.cmds hover
  have hcmd : v.activationOver.cmdOf a.cmd = some c := (State.cmdOf_congr hcmds _).trans hc
  have hoboot := (hokeeps.frame .boot (by decide)).trans hboot'
  have hosec := (congrArg SecState.staged (hokeeps.frame .sec (by decide))).trans hstaged'
  have hoseq := hokeeps.frame .seq (by decide)
  have hoslot := (State.fld_congr (hregs R.SEC_STATUS (by decide)) F.SEC_STATUS_SLOT).trans hslot'
  have hfns : v.functions = s.functions := by
    unfold State.functions
    rw [hboot']
  rw [hfns] at hpp
  generalize v.activationOver = w at hover hcmd hoboot hosec hoseq hoslot hpp hexec
  have hck := w.conclude_keeps a.cmd 0 0 []
  have hreg (k : Nat) : (w.conclude a.cmd 0 0).reg k = w.reg k := congrArg (storeGet regReset k) (hck.frame .regs (by decide))
  have hend := w.conclude_host a.cmd 0 0 []
  refine ⟨_, hexec, ?_, ?_, (hck.frame .boot (by decide)).trans hoboot, (congrArg SecState.staged (hck.frame .sec (by decide))).trans hosec,
    (State.fld_congr (hreg _) _).trans hoslot, fun f hf => (State.ctl_congr _ (hreg _)).trans (hpp f hf), ?_, fun b hb => ?_⟩
  · rw [hend]
    exact congrArg HostState.activation hover
  · rw [hend]
    exact congrArg HostState.commit hover
  · unfold Decides
    rw [State.conclude_cmdOf hcmd hopen]
    rfl
  · rw [State.bob_congr ((hck.frame .seq (by decide)).trans hoseq)]
    exact hready b hb

/-! ## Host control -/

/-- Settles O60: each command of the host island by its own lemma, in the order of the statement. -/
theorem hostControl : Obligations.HostControl :=
  ⟨sqTailDoorbell_moves, sqTailDoorbell_disabled, cqHeadDoorbell_moves, rangeLockGrant_grants, rangeLockGrant_waits, writeDataArrived_completes,
    workOrderIssue_plain, workOrderIssue_looksUp, woGet_order, woGet_notice, woGet_empty, woDone_read, woDone_flush, woDone_unrecovered, woDone_absent,
    woDone_snipped, woAen_raises, completionPost_posts, completionPost_full, interruptCoalescingTime_sends, pcieDmaError_ends, pcieDmaError_replaces,
    snipRequest_queues, snipRequest_drops, snipResolve_aborts, snipResolve_finds_none, controllerEnable_stands, controllerEnable_fails, hostReadySet_first,
    hostReadySet_again, shutdownNormal_drains, shutdownAbrupt_discards, shutdownComplete_ends, shutdownComplete_waits, controllerReset_ends,
    controllerReset_waits, controllerReset_held, functionLevelReset_ends, functionLevelReset_held, patchReload_ends, hemComplete_answers,
    hemComplete_waits, hemComplete_resets, firmwareActivationStart_stops, activationDrainDeadline_aborts, firmwareActivationResume_resumes,
    configRequest_retries, configRequest_answers, configRequest_subsystem, nvmeMiBasicCommand_status, nvmeMiBasicCommand_other⟩

end Sys2Proof.Machine
end

section
/-!
PROOFS. Servo frames, address words and the format register (R42, R43, R45, R372): what each leaves of a flywheel and of
HD_FLY_STATUS. Settles O28.
-/

namespace Sys2Proof.Machine

/-! ## The flywheel of one head (R45) -/

/-- Of what the statements on servo framing name, nothing changes but the flywheel of head n and the registers listed. -/
structure FlyOnly (ks : List Nat) (n : Fin 16) (s t : State) : Prop where
  head : t.head n = { s.head n with fly := (t.head n).fly }
  others : HeadsBut n s t
  regs : RegsBut ks s t
  events : t.events = s.events
  time : t.time = s.time

section FlyOnly

variable {ks : List Nat} {n : Fin 16} {s t : State}

theorem FlyOnly.refl (ks : List Nat) (n : Fin 16) (s : State) : FlyOnly ks n s s := ⟨rfl, fun _ _ => rfl, RegsBut.refl _ _, rfl, rfl⟩

theorem FlyOnly.trans {u : State} (h : FlyOnly ks n s t) (k : FlyOnly ks n t u) : FlyOnly ks n s u where
  head := by rw [k.head, h.head]
  others m hm := (k.others m hm).trans (h.others m hm)
  regs := h.regs.trans k.regs
  events := k.events.trans h.events
  time := k.time.trans h.time

theorem FlyOnly.mono {ls : List Nat} (h : FlyOnly ks n s t) (hs : ∀ k ∈ ks, k ∈ ls) : FlyOnly ls n s t :=
  ⟨h.head, h.others, h.regs.mono hs, h.events, h.time⟩

theorem FlyOnly.pass (h : FlyOnly ks n s t) : (t.head n).pass = (s.head n).pass := by rw [h.head]

theorem FlyOnly.opening (h : FlyOnly ks n s t) : (t.head n).opening = (s.head n).opening := by rw [h.head]

theorem FlyOnly.modFly (h : FlyOnly ks n s t) (f : Flywheel → Flywheel) :
    FlyOnly ks n s (t.modHead n fun h => { h with fly := f h.fly }) where
  head := by
    rw [State.head_modHead_self, h.head]
  others m hm := (t.head_modHead_other _ hm).trans (h.others m hm)
  regs := h.regs
  events := h.events
  time := h.time

theorem FlyOnly.setFld (h : FlyOnly ks n s t) {k : Nat} (hk : k ∈ ks) (p : FieldPos) (v : Nat) : FlyOnly ks n s (t.setFld k p v) where
  head := h.head
  others := h.others
  regs := h.regs.trans ((t.regsBut_setFld k p v).mono (by simpa using hk))
  events := (t.setFld_events ..).trans h.events
  time := (t.setFld_time ..).trans h.time

theorem FlyOnly.updateReady (h : FlyOnly ks n s t) (hk : R.HD_FLY_STATUS n.val ∈ ks) : FlyOnly ks n s (t.updateReady n) := by
  unfold State.updateReady
  extract_lets ready was shown
  have hshown : FlyOnly ks n s shown := h.setFld hk _ _
  split
  · exact hshown
  · exact hshown.modFly fun f => if ready then { f with readyFrom := shown.now } else { f with lostFrom := shown.now }

end FlyOnly

/-- The turning of READY moves its ticks alone. -/
theorem State.updateReady_fly (s : State) (n : Fin 16) :
    ((s.updateReady n).head n).fly = { (s.head n).fly with
      readyFrom := ((s.updateReady n).head n).fly.readyFrom, lostFrom := ((s.updateReady n).head n).fly.lostFrom } := by
  unfold State.updateReady
  extract_lets ready was shown
  split
  · rfl
  · rw [State.head_modHead_self]
    dsimp only
    split <;> rfl

/-- READY as the frames and ADDR_OK give it. -/
def State.readyNow (s : State) (n : Fin 16) : Bool :=
  decide (2 ≤ (s.head n).fly.frames.length) && s.flag (R.HD_FLY_STATUS n.val) F.HD_FLY_STATUS_ADDR_OK

theorem State.updateReady_reg (s : State) (n : Fin 16) (k : Nat) :
    (s.updateReady n).reg k = (s.setFld (R.HD_FLY_STATUS n.val) F.HD_FLY_STATUS_READY (bitOf (s.readyNow n))).reg k := by
  unfold State.updateReady
  extract_lets ready was shown
  split <;> rfl

theorem State.updateReady_ready (s : State) (n : Fin 16) : flyReady (s.updateReady n) n = s.readyNow n := by
  unfold flyReady
  rw [State.flag_congr (s.updateReady_reg n _)]
  cases s.readyNow n
  · exact State.flag_setFld_clear _ _ _ (by decide) (by decide)
  · exact State.flag_setFld_set _ _ _ (by decide) (by decide)

/-- The other fields of HD_FLY_STATUS stand above READY. -/
theorem State.updateReady_fld (s : State) (n : Fin 16) {p : FieldPos} (h : F.HD_FLY_STATUS_READY.hi < p.lo) (h' : p.lo ≤ p.hi) :
    (s.updateReady n).fld (R.HD_FLY_STATUS n.val) p = s.fld (R.HD_FLY_STATUS n.val) p := by
  rw [State.fld_congr (s.updateReady_reg n _), State.fld_setFld_other _ _ _ _ _ (by decide) (by decide) h' (.inl h)]

theorem State.updateReady_flag (s : State) (n : Fin 16) {p : FieldPos} (h : F.HD_FLY_STATUS_READY.hi < p.lo) (h' : p.lo ≤ p.hi) :
    (s.updateReady n).flag (R.HD_FLY_STATUS n.val) p = s.flag (R.HD_FLY_STATUS n.val) p :=
  congrArg (· != 0) (s.updateReady_fld n h h')

@[simp] theorem State.logHead_reg (s : State) (n : Fin 16) (code a1 a2 a3 k : Nat) : (s.logHead n code a1 a2 a3).reg k = s.reg k :=
  State.log_reg ..

@[simp] theorem State.logHead_heads (s : State) (n : Fin 16) (code a1 a2 a3 : Nat) : (s.logHead n code a1 a2 a3).heads = s.heads :=
  State.log_heads ..

@[simp] theorem State.logHead_time (s : State) (n : Fin 16) (code a1 a2 a3 : Nat) : (s.logHead n code a1 a2 a3).time = s.time :=
  State.log_time ..

theorem State.logHead_events_congr {s t : State} (he : t.events = s.events) (ht : t.time = s.time) (n : Fin 16) (code a1 a2 a3 : Nat) :
    (t.logHead n code a1 a2 a3).events = (s.logHead n code a1 a2 a3).events := by
  unfold State.logHead State.log
  rw [State.logAt_events_congr he, State.stamp_congr ht]

/-- With no pass open no write gate fails (R149). -/
theorem State.gateFails_of_no_pass {s : State} {n : Fin 16} (h : (s.head n).pass = none) (cause : Nat) : s.gateFails n cause = s := by
  have hw : (s.head n).writingNow = false := by rw [Head.writingNow, h]
  rw [State.gateFails, hw]
  rfl

theorem State.openNotReady_of_no_open {s : State} {n : Fin 16} (h : (s.head n).opening = none) : s.openNotReady n = s := by
  rw [State.openNotReady, h]

/-! ## Missed frames (R45) -/

/-- MISS_RUN counts one more, and the flywheel with its frames has lost its lock. -/
theorem State.missRun_bump (s : State) (n : Fin 16) (h : s.fld (R.HD_FLY_STATUS n.val) F.HD_FLY_STATUS_MISS_RUN < 32) :
    (s.bump (R.HD_FLY_STATUS n.val) F.HD_FLY_STATUS_MISS_RUN 1).fld (R.HD_FLY_STATUS n.val) F.HD_FLY_STATUS_MISS_RUN =
      s.fld (R.HD_FLY_STATUS n.val) F.HD_FLY_STATUS_MISS_RUN + 1 := by
  unfold State.bump
  rw [State.fld_setFld_self _ _ _ _ (by decide) (by decide)]
  generalize s.fld (R.HD_FLY_STATUS n.val) F.HD_FLY_STATUS_MISS_RUN = m at h
  show min 255 (m + 1) % 256 = m + 1
  omega

theorem State.missFrame_below {s : State} {n : Fin 16} (h : s.fld (R.HD_FLY_STATUS n.val) F.HD_FLY_STATUS_MISS_RUN < 31) :
    s.missFrame n = s.bump (R.HD_FLY_STATUS n.val) F.HD_FLY_STATUS_MISS_RUN 1 := by
  unfold State.missFrame
  exact if_neg (by rw [s.missRun_bump n (by omega)]; omega)

/-- The flywheel has lost its frames. -/
def State.flyLost (s : State) (n : Fin 16) : State :=
  (((s.bump (R.HD_FLY_STATUS n.val) F.HD_FLY_STATUS_MISS_RUN 1).setFld (R.HD_FLY_STATUS n.val) F.HD_FLY_STATUS_LOST_SEEN 1).modHead n
    fun h => { h with fly := { h.fly with frames := [] } }).updateReady n

theorem State.flyLost_only (s : State) (n : Fin 16) : FlyOnly [R.HD_FLY_STATUS n.val] n s (s.flyLost n) :=
  ((((FlyOnly.refl _ n s).setFld List.mem_cons_self _ _).setFld List.mem_cons_self _ _).modFly
    fun f => { f with frames := [] }).updateReady List.mem_cons_self

theorem State.missFrame_lost {s : State} {n : Fin 16} {k : FlyFrame} {rest : List FlyFrame}
    (hrun : s.fld (R.HD_FLY_STATUS n.val) F.HD_FLY_STATUS_MISS_RUN = 31) (hframes : (s.head n).fly.frames = k :: rest)
    (hpass : (s.head n).pass = none) (hopen : (s.head n).opening = none) :
    s.missFrame n = (s.flyLost n).logHead n 0x1302 0 (k.tc2 / 2 % 2 ^ 32) 32 := by
  have honly := s.flyLost_only n
  have hheads : ((s.flyLost n).logHead n 0x1302 0 (k.tc2 / 2 % 2 ^ 32) 32).heads = (s.flyLost n).heads := State.logHead_heads ..
  have h32 := s.missRun_bump n (by omega)
  rw [hrun] at h32
  have hmiss : s.missFrame n =
      (((s.flyLost n).logHead n 0x1302 0 (k.tc2 / 2 % 2 ^ 32) 32).gateFails n 0).openNotReady n := by
    have hhead : (s.bump (R.HD_FLY_STATUS n.val) F.HD_FLY_STATUS_MISS_RUN 1).head n = s.head n := rfl
    unfold State.missFrame
    dsimp only
    rw [if_pos h32, hhead, hframes, hpass]
    rfl
  rw [hmiss, State.gateFails_of_no_pass (by rw [State.head_congr hheads, honly.pass, hpass]),
    State.openNotReady_of_no_open (by rw [State.head_congr hheads, honly.opening, hopen])]

/-! ## Frames (R42, R45) -/

/-- A frame has its running number noted, and its tag has joined the address word in progress, or has broken it off (R43). -/
def State.noteFrame (s : State) (n : Fin 16) (no span : Nat) : State :=
  let s' := s.modHead n fun h => { h with fly := { h.fly with nextIdx := no + 1 } }
  match tagOf (s'.head n).fly (circNm (fmtR0 (fmtNow s n)) (fmtPitch (fmtNow s n)) (bandNow (s.head n))) span with
  | some t => s'.modHead n fun h => { h with fly := { h.fly with tags := (no + (s.head n).fly.origin, t) :: h.fly.tags.take 30 } }
  | none => s'.modHead n fun h => { h with fly := { h.fly with tags := [] } }

theorem State.noteFrame_only (s : State) (n : Fin 16) (no span : Nat) : FlyOnly [] n s (s.noteFrame n no span) := by
  have hnext := (FlyOnly.refl [] n s).modFly fun f => { f with nextIdx := no + 1 }
  unfold State.noteFrame
  dsimp only
  split
  · exact hnext.modFly fun f => { f with tags := _ :: f.tags.take 30 }
  · exact hnext.modFly fun f => { f with tags := [] }

theorem State.noteFrame_regs (s : State) (n : Fin 16) (no span : Nat) : (s.noteFrame n no span).regs = s.regs := by
  unfold State.noteFrame
  dsimp only
  split <;> rfl

theorem State.noteFrame_fly (s : State) (n : Fin 16) (no span : Nat) :
    ((s.noteFrame n no span).head n).fly = { (s.head n).fly with nextIdx := no + 1, tags := ((s.noteFrame n no span).head n).fly.tags } := by
  unfold State.noteFrame
  dsimp only
  split <;> simp only [State.head_modHead_self]

/-- A frame with both crossings is accepted (R45). -/
def State.acceptFrame (s : State) (n : Fin 16) (idx tc2 : Nat) : State :=
  ((s.modHead n fun h => { h with fly := { h.fly with frames := ⟨idx, tc2⟩ :: h.fly.frames.take 8 } }).setFld (R.HD_FLY_STATUS n.val)
    F.HD_FLY_STATUS_MISS_RUN 0).updateReady n

theorem State.acceptFrame_only (s : State) (n : Fin 16) (idx tc2 : Nat) : FlyOnly [R.HD_FLY_STATUS n.val] n s (s.acceptFrame n idx tc2) :=
  (((FlyOnly.refl _ n s).modFly fun f => { f with frames := ⟨idx, tc2⟩ :: f.frames.take 8 }).setFld List.mem_cons_self _ _).updateReady
    List.mem_cons_self

theorem State.acceptFrame_fly (s : State) (n : Fin 16) (idx tc2 : Nat) :
    ((s.acceptFrame n idx tc2).head n).fly.frames = ⟨idx, tc2⟩ :: (s.head n).fly.frames.take 8 ∧
      ((s.acceptFrame n idx tc2).head n).fly.nextIdx = (s.head n).fly.nextIdx := by
  unfold State.acceptFrame
  rw [State.updateReady_fly]
  dsimp only
  have hhead (t : State) (k : Nat) (p : FieldPos) (v : Nat) : (t.setFld k p v).head n = t.head n := rfl
  rw [hhead, State.head_modHead_self]
  exact ⟨rfl, rfl⟩

theorem State.acceptFrame_missRun (s : State) (n : Fin 16) (idx tc2 : Nat) :
    (s.acceptFrame n idx tc2).fld (R.HD_FLY_STATUS n.val) F.HD_FLY_STATUS_MISS_RUN = 0 := by
  rw [State.acceptFrame, State.updateReady_fld _ _ (by decide) (by decide), State.fld_setFld_self _ _ _ _ (by decide) (by decide)]
  rfl

/-- One accepted frame gives no READY. -/
theorem State.acceptFrame_ready {s : State} {n : Fin 16} (h : (s.head n).fly.frames = []) (idx tc2 : Nat) :
    flyReady (s.acceptFrame n idx tc2) n = false := by
  have hframes := (s.acceptFrame_fly n idx tc2).1
  rw [State.acceptFrame, State.updateReady_fly] at hframes
  rw [State.acceptFrame, State.updateReady_ready, State.readyNow, hframes, h]
  rfl

/-- Without two accepted frames the flywheel has no rate and predicts nothing, so every frame is accepted. -/
theorem acceptsFrame_of_no_frames {f : Flywheel} (h : f.frames = []) (idx tc2 : Nat) : acceptsFrame f idx tc2 = true := by
  simp [acceptsFrame, predictFrame2, flyEnds, h]

theorem flyRate_of_one_frame {f : Flywheel} {k : FlyFrame} (h : f.frames = [k]) : flyRate f = none := by
  simp [flyRate, flyEnds, h]

theorem State.rateMatch_of_no_pass {s : State} {n : Fin 16} (h : (s.head n).pass = none) (idx : Nat) (x : Stamp) :
    s.rateMatch n idx x = s := by
  rw [State.rateMatch, h]

section Frames

variable {s : State} {head : Fin 16} {no : Nat} (hup : s.headInService head.val = true) (hnext : (s.head head).fly.nextIdx ≤ no)

include hup hnext

theorem exec_servoFrame_first {f b : Stamp} (span : Nat) (hf : (s.head head).link.found (some f) = some f)
    (hb : (s.head head).link.found (some b) = some b) (hframes : (s.head head).fly.frames = []) (hpass : (s.head head).pass = none) :
    exec (.servoFrame head no (some f) (some b) span) s =
      .next ((s.noteFrame head no span).acceptFrame head (no + (s.head head).fly.origin) (f + b)) := by
  show execServoFrame head no (some f) (some b) span s = _
  unfold execServoFrame
  rw [when_of_true (by simp [hup, hnext])]
  extract_lets fmt circ idx fwd bwd begun noted
  have hnoted : noted = s.noteFrame head no span := rfl
  have hempty : (noted.head head).fly.frames = [] := by rw [hnoted, State.noteFrame_fly, hframes]
  have hclosed : (noted.head head).pass = none := by rw [hnoted, (s.noteFrame_only head no span).pass, hpass]
  rw [← hnoted]
  clear_value noted
  have hgood : acceptsFrame (noted.head head).fly idx (f + b) = true := acceptsFrame_of_no_frames hempty _ _
  have hone : ((noted.acceptFrame head idx (f + b)).head head).fly.frames = [⟨idx, f + b⟩] := by
    rw [(noted.acceptFrame_fly head idx (f + b)).1, hempty]
    rfl
  have hrate := flyRate_of_one_frame hone
  have hmatch := State.rateMatch_of_no_pass (by rw [(noted.acceptFrame_only head idx (f + b)).pass, hclosed]) idx ((f + b) / 2)
  show _ = Host.Outcome.next (noted.acceptFrame head idx (f + b))
  unfold State.acceptFrame at hrate hmatch ⊢
  simp only [show fwd = some f from hf, show bwd = some b from hb, hgood, hrate, hmatch, if_true]

theorem exec_servoFrame_no_chevron (fwd : Option Stamp) (span : Nat) :
    exec (.servoFrame head no fwd none span) s = .next ((s.noteFrame head no span).missFrame head) := by
  show execServoFrame head no fwd none span s = _
  unfold execServoFrame
  rw [when_of_true (by simp [hup, hnext])]
  extract_lets fmt circ idx found missing begun noted
  have hnoted : noted = s.noteFrame head no span := rfl
  clear_value found noted
  subst hnoted
  cases found <;> rfl

theorem exec_servoFrameMissed_eq :
    exec (.servoFrameMissed head no) s =
      .next ((s.modHead head fun h => { h with fly := { h.fly with nextIdx := no + 1, tags := [] } }).missFrame head) :=
  when_of_true (by simp [hup, hnext]) _ _

end Frames

theorem servoFrame_first (head : Fin 16) (no : Nat) (f b : Stamp) (span : Nat) :
    Completes (.servoFrame head no (some f) (some b) span)
      (fun s => s.headInService head.val = true ∧ (s.head head).fly.nextIdx ≤ no ∧ (s.head head).link.found (some f) = some f ∧
          (s.head head).link.found (some b) = some b ∧ (s.head head).fly.frames = [] ∧ (s.head head).pass = none)
      [.events, .regs, .heads, .decode, .loop, .seq, .mem, .motion, .out]
      fun s t => (t.head head).fly.frames = [⟨no + (s.head head).fly.origin, f + b⟩] ∧ (t.head head).fly.nextIdx = no + 1 ∧
          t.fld (R.HD_FLY_STATUS head.val) F.HD_FLY_STATUS_MISS_RUN = 0 ∧ flyReady t head = false ∧
          RegsBut [R.HD_FLY_STATUS head.val] s t ∧ t.events = s.events ∧ HeadsBut head s t := by
  refine Completes.of_keeps (execServoFrame_keeps head no (some f) (some b) span) ?_
  rintro s - ⟨hup, hnext, hf, hb, hframes, hpass⟩
  have hexec := exec_servoFrame_first hup hnext span hf hb hframes hpass
  have hnoted := (s.noteFrame_only head no span).mono (ls := [R.HD_FLY_STATUS head.val]) (by simp)
  have hfly := s.noteFrame_fly head no span
  generalize s.noteFrame head no span = u at hexec hnoted hfly
  have hempty : (u.head head).fly.frames = [] := by rw [hfly, hframes]
  have honly := hnoted.trans (u.acceptFrame_only head (no + (s.head head).fly.origin) (f + b))
  obtain ⟨haccepted, hidx⟩ := u.acceptFrame_fly head (no + (s.head head).fly.origin) (f + b)
  refine ⟨_, hexec, ?_, ?_, u.acceptFrame_missRun .., State.acceptFrame_ready hempty .., honly.regs, honly.events, honly.others⟩
  · rw [haccepted, hempty]
    rfl
  · rw [hidx, hfly]

/-- A missed frame below the 32nd counts, and leaves the flywheel's frames. -/
theorem State.missFrame_counts {s : State} {n : Fin 16} (h : s.fld (R.HD_FLY_STATUS n.val) F.HD_FLY_STATUS_MISS_RUN < 31) :
    (s.missFrame n).fld (R.HD_FLY_STATUS n.val) F.HD_FLY_STATUS_MISS_RUN = s.fld (R.HD_FLY_STATUS n.val) F.HD_FLY_STATUS_MISS_RUN + 1 ∧
      (s.missFrame n).head n = s.head n ∧ FlyOnly [R.HD_FLY_STATUS n.val] n s (s.missFrame n) := by
  rw [State.missFrame_below h]
  exact ⟨s.missRun_bump n (by omega), rfl, (FlyOnly.refl _ n s).setFld List.mem_cons_self _ _⟩

theorem servoFrame_no_chevron (head : Fin 16) (no : Nat) (fwd : Option Stamp) (span : Nat) :
    Completes (.servoFrame head no fwd none span)
      (fun s => s.headInService head.val = true ∧ (s.head head).fly.nextIdx ≤ no ∧
          s.fld (R.HD_FLY_STATUS head.val) F.HD_FLY_STATUS_MISS_RUN < 31)
      [.events, .regs, .heads, .decode, .loop, .seq, .mem, .motion, .out]
      fun s t => t.fld (R.HD_FLY_STATUS head.val) F.HD_FLY_STATUS_MISS_RUN = s.fld (R.HD_FLY_STATUS head.val) F.HD_FLY_STATUS_MISS_RUN + 1 ∧
          (t.head head).fly.frames = (s.head head).fly.frames ∧ (t.head head).fly.nextIdx = no + 1 ∧
          RegsBut [R.HD_FLY_STATUS head.val] s t ∧ t.events = s.events ∧ HeadsBut head s t := by
  refine Completes.of_keeps (execServoFrame_keeps head no fwd none span) ?_
  rintro s - ⟨hup, hnext, hrun⟩
  have hexec := exec_servoFrame_no_chevron hup hnext fwd span
  have hnoted := (s.noteFrame_only head no span).mono (ls := [R.HD_FLY_STATUS head.val]) (by simp)
  have hfly := s.noteFrame_fly head no span
  have hrun' := State.fld_congr (congrArg (storeGet regReset (R.HD_FLY_STATUS head.val)) (s.noteFrame_regs head no span)) F.HD_FLY_STATUS_MISS_RUN
  generalize s.noteFrame head no span = u at hexec hnoted hfly hrun'
  obtain ⟨hcount, hhead, hmissed⟩ := State.missFrame_counts (hrun'.trans_lt hrun)
  have honly := hnoted.trans hmissed
  refine ⟨_, hexec, hcount.trans (congrArg (· + 1) hrun'), ?_, ?_, honly.regs, honly.events, honly.others⟩
  · rw [hhead, hfly]
  · rw [hhead, hfly]

/-- An absent frame is noted: it breaks off the address word in progress (R43). -/
def State.noteAbsent (s : State) (n : Fin 16) (no : Nat) : State :=
  s.modHead n fun h => { h with fly := { h.fly with nextIdx := no + 1, tags := [] } }

theorem State.noteAbsent_only (s : State) (n : Fin 16) (no : Nat) : FlyOnly [R.HD_FLY_STATUS n.val] n s (s.noteAbsent n no) :=
  (FlyOnly.refl _ n s).modFly fun f => { f with nextIdx := no + 1, tags := [] }

theorem State.noteAbsent_fly (s : State) (n : Fin 16) (no : Nat) :
    ((s.noteAbsent n no).head n).fly = { (s.head n).fly with nextIdx := no + 1, tags := [] } := by
  rw [State.noteAbsent, State.head_modHead_self]

theorem servoFrameMissed_counts (head : Fin 16) (no : Nat) :
    Completes (.servoFrameMissed head no)
      (fun s => s.headInService head.val = true ∧ (s.head head).fly.nextIdx ≤ no ∧
          s.fld (R.HD_FLY_STATUS head.val) F.HD_FLY_STATUS_MISS_RUN < 31)
      [.events, .regs, .heads, .decode, .seq, .mem, .motion, .out]
      fun s t => t.fld (R.HD_FLY_STATUS head.val) F.HD_FLY_STATUS_MISS_RUN = s.fld (R.HD_FLY_STATUS head.val) F.HD_FLY_STATUS_MISS_RUN + 1 ∧
          (t.head head).fly.frames = (s.head head).fly.frames ∧ (t.head head).fly.tags = [] ∧ (t.head head).fly.nextIdx = no + 1 ∧
          RegsBut [R.HD_FLY_STATUS head.val] s t ∧ t.events = s.events ∧ HeadsBut head s t := by
  refine Completes.of_keeps (execServoFrameMissed_keeps head no) ?_
  rintro s - ⟨hup, hnext, hrun⟩
  have hfly := s.noteAbsent_fly head no
  obtain ⟨hcount, hhead, hmissed⟩ := State.missFrame_counts (s := s.noteAbsent head no) (n := head) hrun
  have honly := (s.noteAbsent_only head no).trans hmissed
  refine ⟨(s.noteAbsent head no).missFrame head, exec_servoFrameMissed_eq hup hnext, hcount, ?_⟩
  rw [hhead, hfly]
  exact ⟨rfl, rfl, rfl, honly.regs, honly.events, honly.others⟩

/-- What the loss of the flywheel leaves in it and in HD_FLY_STATUS. -/
theorem State.flyLost_spec {s : State} {n : Fin 16} (h : s.fld (R.HD_FLY_STATUS n.val) F.HD_FLY_STATUS_MISS_RUN = 31) :
    (s.flyLost n).fld (R.HD_FLY_STATUS n.val) F.HD_FLY_STATUS_MISS_RUN = 32 ∧ ((s.flyLost n).head n).fly.frames = [] ∧
      flyReady (s.flyLost n) n = false ∧ (s.flyLost n).flag (R.HD_FLY_STATUS n.val) F.HD_FLY_STATUS_LOST_SEEN = true := by
  have hrun := s.missRun_bump n (by omega)
  rw [h] at hrun
  unfold State.flyLost
  refine ⟨?_, ?_, ?_, ?_⟩
  · rw [State.updateReady_fld _ _ (by decide) (by decide), State.fld_congr (State.modHead_reg ..),
      State.fld_setFld_other _ _ _ _ _ (by decide) (by decide) (by decide) (by decide)]
    exact hrun
  · rw [State.updateReady_fly, State.head_modHead_self]
  · rw [State.updateReady_ready, State.readyNow, State.head_modHead_self]
    rfl
  · rw [State.updateReady_flag _ _ (by decide) (by decide), State.flag_congr (State.modHead_reg ..)]
    exact State.flag_setFld_set _ _ _ (by decide) (by decide)

theorem servoFrameMissed_loses (head : Fin 16) (no : Nat) (k : FlyFrame) (rest : List FlyFrame) :
    Completes (.servoFrameMissed head no)
      (fun s => s.headInService head.val = true ∧ (s.head head).fly.nextIdx ≤ no ∧ (s.head head).fly.frames = k :: rest ∧
          s.fld (R.HD_FLY_STATUS head.val) F.HD_FLY_STATUS_MISS_RUN = 31 ∧ (s.head head).pass = none ∧ (s.head head).opening = none)
      [.events, .regs, .heads, .decode, .seq, .mem, .motion, .out]
      fun s t => t.fld (R.HD_FLY_STATUS head.val) F.HD_FLY_STATUS_MISS_RUN = 32 ∧ (t.head head).fly.frames = [] ∧ flyReady t head = false ∧
          t.flag (R.HD_FLY_STATUS head.val) F.HD_FLY_STATUS_LOST_SEEN = true ∧ RegsBut [R.HD_FLY_STATUS head.val] s t ∧
          t.events = (s.logHead head 0x1302 0 (k.tc2 / 2 % 2 ^ 32) 32).events ∧ HeadsBut head s t := by
  refine Completes.of_keeps (execServoFrameMissed_keeps head no) ?_
  rintro s - ⟨hup, hnext, hframes, hrun, hpass, hopen⟩
  have hnoted := s.noteAbsent_only head no
  have hfly := s.noteAbsent_fly head no
  have hexec : exec (.servoFrameMissed head no) s = .next ((s.noteAbsent head no).missFrame head) := exec_servoFrameMissed_eq hup hnext
  have hrun' : (s.noteAbsent head no).fld (R.HD_FLY_STATUS head.val) F.HD_FLY_STATUS_MISS_RUN = 31 := hrun
  generalize s.noteAbsent head no = u at hexec hnoted hfly hrun'
  rw [State.missFrame_lost hrun' (by rw [hfly, hframes]) (by rw [hnoted.pass, hpass]) (by rw [hnoted.opening, hopen])] at hexec
  obtain ⟨hmiss, hnone, hready, hseen⟩ := State.flyLost_spec hrun'
  have honly := hnoted.trans (u.flyLost_only head)
  refine ⟨_, hexec, ?_, ?_, ?_, ?_, fun r hr => ?_, State.logHead_events_congr honly.events honly.time .., fun m hm => ?_⟩
  · rw [State.fld_congr (State.logHead_reg ..), hmiss]
  · rw [State.head_congr (State.logHead_heads ..), hnone]
  · rw [← hready]
    exact State.flag_congr (State.logHead_reg ..) _
  · rw [State.flag_congr (State.logHead_reg ..), hseen]
  · exact (State.logHead_reg ..).trans (honly.regs r hr)
  · exact (State.head_congr (State.logHead_heads ..) m).trans (honly.others m hm)

/-! ## Address words (R43) -/

/-- The tags of a complete word are taken. -/
def State.tagsTaken (s : State) (n : Fin 16) : State := s.modHead n fun h => { h with fly := { h.fly with tags := [] } }

theorem State.tagsTaken_only (ks : List Nat) (s : State) (n : Fin 16) : FlyOnly ks n s (s.tagsTaken n) :=
  (FlyOnly.refl ks n s).modFly fun f => { f with tags := [] }

theorem State.tagsTaken_fly (s : State) (n : Fin 16) : ((s.tagsTaken n).head n).fly = { (s.head n).fly with tags := [] } := by
  rw [State.tagsTaken, State.head_modHead_self]

theorem exec_addressWord_eq {s : State} {head : Fin 16} {i0 : Nat} {bits : List Bool} {w : AddrWord}
    (htags : wordTags (s.head head).fly
      (s.flag (R.HD_FLY_STATUS head.val) F.HD_FLY_STATUS_ADDR_OK && (s.head head).fly.expected.isSome) = some (i0, bits))
    (hword : parseWord bits = some w) : exec (.addressWord head) s = .next ((s.tagsTaken head).acceptWord head i0 w) := by
  show execAddressWord head s = _
  unfold execAddressWord
  dsimp only
  rw [htags]
  dsimp only
  rw [hword]
  rfl

/-- No address is expected: a word is the first of two where none in agreement came before it. -/
theorem State.acceptWord_first {s : State} {n : Fin 16} (hexpected : (s.head n).fly.expected = none)
    (hfirst : (s.head n).fly.firstWord = none) (i0 : Nat) (w : AddrWord) :
    s.acceptWord n i0 w = s.modHead n fun h => { h with fly := { h.fly with firstWord := some w } } := by
  unfold State.acceptWord
  dsimp only
  rw [hexpected, hfirst, if_neg (by simp), if_neg (by simp)]

theorem addressWord_first (head : Fin 16) (w : AddrWord) (i0 : Nat) (bits : List Bool) :
    Completes (.addressWord head)
      (fun s => wordTags (s.head head).fly false = some (i0, bits) ∧ parseWord bits = some w ∧ (s.head head).fly.expected = none ∧
          (s.head head).fly.firstWord = none)
      [.events, .regs, .heads, .decode, .seq, .mem, .motion, .out]
      fun s t => (t.head head).fly.firstWord = some w ∧ (t.head head).fly.expected = none ∧ (t.head head).fly.tags = [] ∧ t.regs = s.regs ∧
          t.events = s.events ∧ HeadsBut head s t := by
  refine Completes.of_keeps (execAddressWord_keeps head) ?_
  rintro s - ⟨htags, hword, hexpected, hfirst⟩
  have hexec := exec_addressWord_eq (s := s) (head := head) (by rw [hexpected, Option.isSome_none, Bool.and_false]; exact htags) hword
  have hfly := s.tagsTaken_fly head
  rw [State.acceptWord_first (by rw [hfly, hexpected]) (by rw [hfly, hfirst])] at hexec
  have honly := (s.tagsTaken_only [] head).modFly fun f => { f with firstWord := some w }
  refine ⟨_, hexec, ?_, ?_, ?_, rfl, rfl, honly.others⟩ <;> rw [State.head_modHead_self, hfly]
  exact hexpected

/-- HD_ADDR shows the word. -/
theorem State.setAddr_spec (s : State) (n : Fin 16) (w : AddrWord) :
    (s.setAddr n w).flag (R.HD_ADDR n.val) F.HD_ADDR_VALID = true ∧ (s.setAddr n w).fld (R.HD_ADDR n.val) F.HD_ADDR_TRACK = w.track % 2 ^ 19 ∧
      (s.setAddr n w).fld (R.HD_ADDR n.val) F.HD_ADDR_LAYER = w.layer % 16 ∧ (s.setAddr n w).fld (R.HD_ADDR n.val) F.HD_ADDR_WORD = w.word % 16 := by
  unfold State.setAddr
  dsimp only
  refine ⟨?_, ?_, ?_, ?_⟩
  · rw [State.flag_setFld_other _ _ _ _ _ (by decide) (by decide) (by decide) (by decide),
      State.flag_setFld_other _ _ _ _ _ (by decide) (by decide) (by decide) (by decide),
      State.flag_setFld_other _ _ _ _ _ (by decide) (by decide) (by decide) (by decide)]
    exact State.flag_setFld_set _ _ _ (by decide) (by decide)
  · rw [State.fld_setFld_self _ _ _ _ (by decide) (by decide)]
    rfl
  · rw [State.fld_setFld_other _ _ _ _ _ (by decide) (by decide) (by decide) (by decide),
      State.fld_setFld_self _ _ _ _ (by decide) (by decide)]
    rfl
  · rw [State.fld_setFld_other _ _ _ _ _ (by decide) (by decide) (by decide) (by decide),
      State.fld_setFld_other _ _ _ _ _ (by decide) (by decide) (by decide) (by decide),
      State.fld_setFld_self _ _ _ _ (by decide) (by decide)]
    rfl

theorem FlyOnly.setAddr {ks : List Nat} {n : Fin 16} {s t : State} (h : FlyOnly ks n s t) (hk : R.HD_ADDR n.val ∈ ks) (w : AddrWord) :
    FlyOnly ks n s (t.setAddr n w) :=
  (((h.setFld hk _ _).setFld hk _ _).setFld hk _ _).setFld hk _ _

/-- The second of two words in agreement: ADDR_OK sets, the address is expected from now on, and the seam is located. -/
def State.locate (s : State) (n : Fin 16) (i0 : Nat) (w : AddrWord) : State :=
  ((((s.modHead n fun h => { h with fly := { h.fly with firstWord := none, expected := some (w.layer, w.track) } }).setFld
    (R.HD_FLY_STATUS n.val) F.HD_FLY_STATUS_ADDR_OK 1).setAddr n w).locateSeam n i0 w).updateReady n

theorem State.acceptWord_second {s : State} {n : Fin 16} {a w : AddrWord} (hexpected : (s.head n).fly.expected = none)
    (hfirst : (s.head n).fly.firstWord = some a) (hagree : a.layer = w.layer ∧ a.track = w.track ∧ w.word = (a.word + 1) % 16) (i0 : Nat) :
    s.acceptWord n i0 w = s.locate n i0 w := by
  unfold State.acceptWord
  dsimp only
  rw [hexpected, hfirst, if_neg (by simp), if_pos (by simpa using hagree)]
  rfl

/-- By how many frames a word whose marker stood on frame i0 moves every index (R43). -/
def seamShift (i0 : Nat) (w : AddrWord) : Nat := (31 * w.word + framesPerRev - i0 % framesPerRev) % framesPerRev

theorem State.locateSeam_fly (s : State) (n : Fin 16) (i0 : Nat) (w : AddrWord) :
    ((s.locateSeam n i0 w).head n).fly = { (s.head n).fly with
      origin := (s.head n).fly.origin + seamShift i0 w
      frames := (s.head n).fly.frames.map fun f => { f with idx := f.idx + seamShift i0 w }
      tags := (s.head n).fly.tags.map fun (i, t) => (i + seamShift i0 w, t) } := by
  unfold State.locateSeam
  dsimp only
  rw [State.head_modHead_self]
  rfl

theorem State.locate_only (s : State) (n : Fin 16) (i0 : Nat) (w : AddrWord) :
    FlyOnly [R.HD_FLY_STATUS n.val, R.HD_ADDR n.val] n s (s.locate n i0 w) :=
  (((((FlyOnly.refl _ n s).modFly fun f => { f with firstWord := none, expected := some (w.layer, w.track) }).setFld (by simp) _ _).setAddr
    (by simp) w).modFly fun f => { f with
      origin := f.origin + seamShift i0 w
      frames := f.frames.map fun f => { f with idx := f.idx + seamShift i0 w }
      tags := f.tags.map fun (i, t) => (i + seamShift i0 w, t) }).updateReady (by simp)

theorem flyStatus_ne_addr (n : Nat) : R.HD_FLY_STATUS n ≠ R.HD_ADDR n := by
  unfold R.HD_FLY_STATUS R.HD_ADDR
  omega

theorem State.setAddr_reg_other (s : State) (n : Fin 16) (w : AddrWord) {k : Nat} (h : k ≠ R.HD_ADDR n.val) : (s.setAddr n w).reg k = s.reg k := by
  unfold State.setAddr
  dsimp only
  rw [State.reg_setFld_other _ _ _ h, State.reg_setFld_other _ _ _ h, State.reg_setFld_other _ _ _ h, State.reg_setFld_other _ _ _ h]

@[simp] theorem State.locateSeam_reg (s : State) (n : Fin 16) (i0 : Nat) (w : AddrWord) (k : Nat) : (s.locateSeam n i0 w).reg k = s.reg k := rfl

/-- What the second word leaves in the flywheel and in HD_FLY_STATUS. -/
theorem State.locate_spec (s : State) (n : Fin 16) (i0 : Nat) (w : AddrWord) :
    ((s.locate n i0 w).head n).fly.expected = some (w.layer, w.track) ∧
      ((s.locate n i0 w).head n).fly.origin = (s.head n).fly.origin + seamShift i0 w ∧
      (s.locate n i0 w).flag (R.HD_FLY_STATUS n.val) F.HD_FLY_STATUS_ADDR_OK = true ∧
      flyReady (s.locate n i0 w) n = decide (2 ≤ (s.head n).fly.frames.length) := by
  have hok (t : State) : (((t.setFld (R.HD_FLY_STATUS n.val) F.HD_FLY_STATUS_ADDR_OK 1).setAddr n w).locateSeam n i0 w).flag
      (R.HD_FLY_STATUS n.val) F.HD_FLY_STATUS_ADDR_OK = true := by
    rw [State.flag_congr (State.locateSeam_reg ..), State.flag_congr (State.setAddr_reg_other _ n w (flyStatus_ne_addr n.val))]
    exact State.flag_setFld_set _ _ _ (by decide) (by decide)
  have hhead (t : State) : ((t.setFld (R.HD_FLY_STATUS n.val) F.HD_FLY_STATUS_ADDR_OK 1).setAddr n w).head n = t.head n :=
    State.head_congr ((State.setAddr_keeps ..).frame .heads (by decide)) n
  unfold State.locate
  refine ⟨?_, ?_, ?_, ?_⟩
  · rw [State.updateReady_fly, State.locateSeam_fly, hhead, State.head_modHead_self]
  · rw [State.updateReady_fly, State.locateSeam_fly, hhead, State.head_modHead_self]
  · rw [State.updateReady_flag _ _ (by decide) (by decide), hok]
  · rw [State.updateReady_ready, State.readyNow, hok, State.locateSeam_fly, hhead, State.head_modHead_self, Bool.and_true, List.length_map]

theorem State.locate_addr (s : State) (n : Fin 16) (i0 : Nat) (w : AddrWord) :
    (s.locate n i0 w).flag (R.HD_ADDR n.val) F.HD_ADDR_VALID = true ∧ (s.locate n i0 w).fld (R.HD_ADDR n.val) F.HD_ADDR_TRACK = w.track % 2 ^ 19 ∧
      (s.locate n i0 w).fld (R.HD_ADDR n.val) F.HD_ADDR_LAYER = w.layer % 16 ∧ (s.locate n i0 w).fld (R.HD_ADDR n.val) F.HD_ADDR_WORD = w.word % 16 := by
  unfold State.locate
  generalize (s.modHead n fun h => { h with fly := { h.fly with firstWord := none, expected := some (w.layer, w.track) } }).setFld
    (R.HD_FLY_STATUS n.val) F.HD_FLY_STATUS_ADDR_OK 1 = u
  have hreg : (((u.setAddr n w).locateSeam n i0 w).updateReady n).reg (R.HD_ADDR n.val) = (u.setAddr n w).reg (R.HD_ADDR n.val) := by
    rw [State.updateReady_reg, State.reg_setFld_other _ _ _ (flyStatus_ne_addr n.val).symm, State.locateSeam_reg]
  rw [State.flag_congr hreg, State.fld_congr hreg, State.fld_congr hreg, State.fld_congr hreg]
  exact u.setAddr_spec n w

theorem addressWord_second (head : Fin 16) (w a : AddrWord) (i0 : Nat) (bits : List Bool) :
    Completes (.addressWord head)
      (fun s => wordTags (s.head head).fly false = some (i0, bits) ∧ parseWord bits = some w ∧ (s.head head).fly.expected = none ∧
          (s.head head).fly.firstWord = some a ∧
          a.layer = w.layer ∧ a.track = w.track ∧ w.word = (a.word + 1) % 16)
      [.events, .regs, .heads, .decode, .seq, .mem, .motion, .out]
      fun s t => (t.head head).fly.expected = some (w.layer, w.track) ∧
          (t.head head).fly.origin = (s.head head).fly.origin + (31 * w.word + 496 - i0 % 496) % 496 ∧ t.flag (R.HD_FLY_STATUS head.val) F.HD_FLY_STATUS_ADDR_OK = true ∧
          flyReady t head = decide (2 ≤ (s.head head).fly.frames.length) ∧ t.flag (R.HD_ADDR head.val) F.HD_ADDR_VALID = true ∧
          t.fld (R.HD_ADDR head.val) F.HD_ADDR_TRACK = w.track % 2 ^ 19 ∧ t.fld (R.HD_ADDR head.val) F.HD_ADDR_LAYER = w.layer % 16 ∧
          t.fld (R.HD_ADDR head.val) F.HD_ADDR_WORD = w.word % 16 ∧
          RegsBut [R.HD_FLY_STATUS head.val, R.HD_ADDR head.val] s t ∧ t.events = s.events ∧ HeadsBut head s t := by
  refine Completes.of_keeps (execAddressWord_keeps head) ?_
  rintro s - ⟨htags, hword, hexpected, hfirst, hagree⟩
  have hexec := exec_addressWord_eq (s := s) (head := head) (by rw [hexpected, Option.isSome_none, Bool.and_false]; exact htags) hword
  have hfly := s.tagsTaken_fly head
  rw [State.acceptWord_second (by rw [hfly, hexpected]) (by rw [hfly, hfirst]) hagree] at hexec
  obtain ⟨hnow, horigin, hok, hready⟩ := (s.tagsTaken head).locate_spec head i0 w
  obtain ⟨hvalid, htrack, hlayer, hno⟩ := (s.tagsTaken head).locate_addr head i0 w
  have honly := (s.tagsTaken_only _ head).trans ((s.tagsTaken head).locate_only head i0 w)
  rw [hfly] at horigin hready
  exact ⟨_, hexec, hnow, horigin, hok, hready, hvalid, htrack, hlayer, hno, honly.regs, honly.events, honly.others⟩

/-- The address is expected no more, and acceptance starts again with the word. -/
def State.startOver (s : State) (n : Fin 16) (w : AddrWord) : State :=
  (s.modHead n fun h => { h with fly := { h.fly with expected := none } }).dropAddress n (some w)

theorem State.startOver_only (s : State) (n : Fin 16) (w : AddrWord) : FlyOnly [R.HD_FLY_STATUS n.val] n s (s.startOver n w) :=
  ((((FlyOnly.refl _ n s).modFly fun f => { f with expected := none }).modFly fun f => { f with firstWord := some w }).setFld
    List.mem_cons_self _ _).updateReady List.mem_cons_self

theorem State.startOver_spec (s : State) (n : Fin 16) (w : AddrWord) :
    (s.startOver n w).flag (R.HD_FLY_STATUS n.val) F.HD_FLY_STATUS_ADDR_OK = false ∧ flyReady (s.startOver n w) n = false ∧
      ((s.startOver n w).head n).fly.expected = none ∧ ((s.startOver n w).head n).fly.firstWord = some w := by
  have hclear (t : State) : (t.setFld (R.HD_FLY_STATUS n.val) F.HD_FLY_STATUS_ADDR_OK 0).flag (R.HD_FLY_STATUS n.val) F.HD_FLY_STATUS_ADDR_OK = false :=
    State.flag_setFld_clear _ _ _ (by decide) (by decide)
  have hhead (t : State) : (t.setFld (R.HD_FLY_STATUS n.val) F.HD_FLY_STATUS_ADDR_OK 0).head n = t.head n := rfl
  unfold State.startOver State.dropAddress
  refine ⟨?_, ?_, ?_, ?_⟩
  · rw [State.updateReady_flag _ _ (by decide) (by decide), hclear]
  · rw [State.updateReady_ready, State.readyNow, hclear, Bool.and_false]
  · rw [State.updateReady_fly, hhead, State.head_modHead_self, State.head_modHead_self]
  · rw [State.updateReady_fly, hhead, State.head_modHead_self]

/-- With nothing open a word that disagrees is logged, and acceptance starts over. -/
theorem State.acceptWord_disagrees {s : State} {n : Fin 16} {w : AddrWord} {e : Nat × Nat} (hexpected : (s.head n).fly.expected = some e)
    (hne : e ≠ (w.layer, w.track)) (hok : s.flag (R.HD_FLY_STATUS n.val) F.HD_FLY_STATUS_ADDR_OK = true)
    (hpass : (s.head n).pass = none) (hopen : (s.head n).opening = none) (i0 : Nat) :
    s.acceptWord n i0 w = (s.logHead n 0x1301 (addrPlace e.1 e.2) (addrPlace w.layer w.track) w.word).startOver n w := by
  have hlogged := State.head_congr (s.logHead_heads n 0x1301 (addrPlace e.1 e.2) (addrPlace w.layer w.track) w.word) n
  have honly := (s.logHead n 0x1301 (addrPlace e.1 e.2) (addrPlace w.layer w.track) w.word).startOver_only n w
  have hdis : s.acceptWord n i0 w =
      (((s.logHead n 0x1301 (addrPlace e.1 e.2) (addrPlace w.layer w.track) w.word).startOver n w).gateFails n 0).openNotReady n := by
    unfold State.acceptWord
    dsimp only
    rw [hexpected, hok, if_pos (show (true && (some e).isSome) = true from rfl), if_neg (fun h => hne (Option.some.inj h)), State.disagree, hexpected]
    rfl
  rw [hdis, State.gateFails_of_no_pass (by rw [honly.pass, hlogged, hpass]),
    State.openNotReady_of_no_open (by rw [honly.opening, hlogged, hopen])]

theorem addressWord_disagrees (head : Fin 16) (w : AddrWord) (i0 : Nat) (bits : List Bool) (e : Nat × Nat) :
    Completes (.addressWord head)
      (fun s => wordTags (s.head head).fly true = some (i0, bits) ∧ parseWord bits = some w ∧ (s.head head).fly.expected = some e ∧ e ≠ (w.layer, w.track) ∧
          s.flag (R.HD_FLY_STATUS head.val) F.HD_FLY_STATUS_ADDR_OK = true ∧ (s.head head).pass = none ∧ (s.head head).opening = none)
      [.events, .regs, .heads, .decode, .seq, .mem, .motion, .out]
      fun s t => t.flag (R.HD_FLY_STATUS head.val) F.HD_FLY_STATUS_ADDR_OK = false ∧ flyReady t head = false ∧
          (t.head head).fly.expected = none ∧ (t.head head).fly.firstWord = some w ∧ RegsBut [R.HD_FLY_STATUS head.val] s t ∧
          t.events = (s.logHead head 0x1301 (e.1 * 2 ^ 19 + e.2) (w.layer * 2 ^ 19 + w.track) w.word).events ∧ HeadsBut head s t := by
  refine Completes.of_keeps (execAddressWord_keeps head) ?_
  rintro s - ⟨htags, hword, hexpected, hne, hok, hpass, hopen⟩
  have hexec := exec_addressWord_eq (s := s) (head := head) (by rw [hexpected, hok]; exact htags) hword
  have hfly := s.tagsTaken_fly head
  have htaken := s.tagsTaken_only [R.HD_FLY_STATUS head.val] head
  have hok' : (s.tagsTaken head).flag (R.HD_FLY_STATUS head.val) F.HD_FLY_STATUS_ADDR_OK = true := hok
  rw [State.acceptWord_disagrees (by rw [hfly, hexpected]) hne hok' (by rw [htaken.pass, hpass]) (by rw [htaken.opening, hopen])] at hexec
  generalize s.tagsTaken head = u at hexec htaken
  generalize hl : u.logHead head 0x1301 (addrPlace e.1 e.2) (addrPlace w.layer w.track) w.word = v at hexec
  obtain ⟨hcleared, hready, hnone, hfirst⟩ := v.startOver_spec head w
  have honly := v.startOver_only head w
  subst hl
  refine ⟨_, hexec, hcleared, hready, hnone, hfirst, fun k hk => ?_, ?_, fun m hm => ?_⟩
  · rw [honly.regs k hk, State.logHead_reg, htaken.regs k hk]
  · exact honly.events.trans (State.logHead_events_congr htaken.events htaken.time ..)
  · rw [honly.others m hm, State.head_congr (State.logHead_heads ..), htaken.others m hm]

/-! ## The format register (R372) -/

theorem getField_lt (w : Word) (p : FieldPos) : getField w p < 2 ^ p.width := Nat.mod_lt _ (by positivity)

theorem hdFmtCfgWrite_stores (head : Fin 16) (val : Word) :
    Completes (.hdFmtCfgWrite head val)
      (fun _ => 160 ≤ getField val F.HD_FMT_CFG_PITCH_NM ∧ getField val F.HD_FMT_CFG_PITCH_NM ≤ 320)
      [.events, .regs]
      fun s t => t.fld (R.HD_FMT_CFG head.val) F.HD_FMT_CFG_PITCH_NM = getField val F.HD_FMT_CFG_PITCH_NM ∧
          t.fld (R.HD_FMT_CFG head.val) F.HD_FMT_CFG_LEADIN = getField val F.HD_FMT_CFG_LEADIN ∧ RegsBut [R.HD_FMT_CFG head.val] s t ∧
          t.events = s.events := by
  refine Completes.of_keeps (execHdFmtCfgWrite_keeps head val) ?_
  rintro s - hpitch
  refine ⟨_, if_pos hpitch, ?_, ?_, (s.regsBut_setFld _ _ _).trans (State.regsBut_setFld _ _ _ _), ?_⟩
  · rw [State.fld_setFld_other _ _ _ _ _ (by decide) (by decide) (by decide) (by decide),
      State.fld_setFld_self _ _ _ _ (by decide) (by decide), Nat.mod_eq_of_lt (getField_lt ..)]
  · rw [State.fld_setFld_self _ _ _ _ (by decide) (by decide), Nat.mod_eq_of_lt (getField_lt ..)]
  · rw [State.setFld_events, State.setFld_events]

theorem hdFmtCfgWrite_refuses (head : Fin 16) (val : Word) :
    Completes (.hdFmtCfgWrite head val)
      (fun _ => getField val F.HD_FMT_CFG_PITCH_NM < 160 ∨ 320 < getField val F.HD_FMT_CFG_PITCH_NM)
      [.events, .regs]
      fun s t => t.regs = s.regs ∧ t.events = (s.logHead head 0x1303 (getField val F.HD_FMT_CFG_PITCH_NM)
            (s.fld (R.HD_FMT_CFG head.val) F.HD_FMT_CFG_PITCH_NM)).events := by
  refine Completes.of_keeps (execHdFmtCfgWrite_keeps head val) ?_
  rintro s - hpitch
  exact ⟨_, if_neg (by omega), State.log_regs .., rfl⟩

/-- Settles O28: each form of a frame, a word and a write by its own lemma, in the order of the statement. -/
theorem servoFraming : Obligations.ServoFraming :=
  ⟨servoFrame_first, servoFrame_no_chevron, servoFrameMissed_counts, servoFrameMissed_loses, addressWord_first, addressWord_second,
    addressWord_disagrees, hdFmtCfgWrite_stores, hdFmtCfgWrite_refuses⟩

end Sys2Proof.Machine
end

section
/-!
PROOFS. The sectors of a head (R46 to R50, R98, R105): their search by number, the sync search, and the release of an interval.
-/

namespace Sys2Proof.Machine

/-! ## Sectors by their numbers -/

theorem State.sector_id {s : State} {k : Nat} {x : Sector} (h : s.sector k = some x) : x.id = k := by
  simpa using List.find?_some h

theorem State.sector_congr {s t : State} (h : t.decode = s.decode) (k : Nat) : t.sector k = s.sector k := by
  unfold State.sector
  rw [h]

/-- A change of sectors that keeps their numbers. -/
theorem State.sector_modSector (s : State) (id : Nat) (f : Sector → Sector) (hf : ∀ x, (f x).id = x.id) (k : Nat) :
    (s.modSector id f).sector k = (s.sector k).map fun x => if x.id = id then f x else x := by
  refine find?_map_congr (fun x => ?_) _
  split
  · rw [hf]
  · rfl

theorem State.sector_modSector_self {s : State} {k : Nat} {x : Sector} (h : s.sector k = some x) (f : Sector → Sector)
    (hf : ∀ x, (f x).id = x.id) : (s.modSector k f).sector k = some (f x) := by
  rw [s.sector_modSector k f hf, h, Option.map_some, if_pos (State.sector_id h)]

/-! ## The sync search (R46 to R50) -/

theorem Sector.frame_id (x : Sector) (q0 : Nat) (fs : List Framing) : (x.frame q0 fs).id = x.id := by
  cases fs with
  | nil => rfl
  | cons f fs => cases fs <;> rfl

/-- The framings that the search of a sector opens (R47, R48). -/
def Sector.found (x : Sector) (sync : Nat) : List Framing :=
  openFramings (natBits sync 11 8) (natBits sync 18 16) (candidates (natBits sync 5 0) (natBits sync 15 12)
    ((List.range (2 * natBits sync 5 0 + 1)).map fun (d : Nat) => syncMisses x ((x.findQ0 : Int) - natBits sync 5 0 + d)))

/-- The statement writes the offsets of the window as a list of integers, the model as one of numbers. -/
theorem map_intCast {α : Type} (g : Int → α) (l : List Nat) :
    ((do let d ← l; pure (d : Int)) : List Int).map g = l.map fun (d : Nat) => g d := by
  simp only [List.pure_def, List.bind_eq_flatMap, ← List.map_eq_flatMap, List.map_map]
  rfl

section SyncSearch

variable {s : State} {sector : Nat} {x : Sector} {p : Pass} {n : Fin 16} (hx : s.sector sector = some x)
  (hpass : s.passOf x.head x.pass = some p) (hhead : x.head = n.val) (hframed : x.framed = false) (hkind : x.kind = .read)
  (hlong : x.findQ0 + natBits p.cfg.sync 5 0 + 64 ≤ x.slot * slotBits + 48 + x.released.length)

include hx hpass hhead hframed hkind hlong

theorem exec_syncSearchComplete_none (hfound : x.found p.cfg.sync = []) :
    exec (.syncSearchComplete sector) s =
      .next ((s.modSector sector fun y => y.frame x.findQ0 []).bump (R.HD_SYNC_CNT1 n.val) F.HD_SYNC_CNT1_INFERRED 1) := by
  have hre : x.isReframe = false := by rw [Sector.isReframe, hkind]
  unfold Sector.found at hfound
  show execSyncSearchComplete sector s = _
  unfold execSyncSearchComplete
  simp only [hx, hpass, hfound]
  rw [when_of_true (by simp [hframed, hre, hlong]), State.sector_id hx, hhead]

theorem exec_syncSearchComplete_one {f : Framing} (hfound : x.found p.cfg.sync = [f]) :
    exec (.syncSearchComplete sector) s =
      .next ((s.modSector sector fun y => y.frame x.findQ0 [f]).bump (R.HD_SYNC_CNT0 n.val) F.HD_SYNC_CNT0_SINGLE 1) := by
  have hre : x.isReframe = false := by rw [Sector.isReframe, hkind]
  unfold Sector.found at hfound
  show execSyncSearchComplete sector s = _
  unfold execSyncSearchComplete
  simp only [hx, hpass, hfound]
  rw [when_of_true (by simp [hframed, hre, hlong]), State.sector_id hx, hhead]

end SyncSearch

/-- A counter of sectors changes no sector. -/
theorem State.sector_bump (s : State) (k : Nat) (p : FieldPos) (v id : Nat) : (s.bump k p v).sector id = s.sector id :=
  State.sector_congr (State.bump_decode ..) id

theorem State.regsBut_bump (s : State) (k : Nat) (p : FieldPos) (v : Nat) : RegsBut [k] s (s.bump k p v) := s.regsBut_setFld k p _

theorem syncSearchComplete_infers (sector : Nat) (x : Sector) (p : Pass) (n : Fin 16) (j : Fin 12) :
    Completes (.syncSearchComplete sector)
      (fun s => s.sector sector = some x ∧ s.passOf x.head x.pass = some p ∧ x.head = n.val ∧ x.beam = j.val ∧ x.framed = false ∧ x.kind = .read ∧
          x.findQ0 + natBits p.cfg.sync 5 0 + 64 ≤ x.slot * slotBits + 48 + x.released.length ∧
          openFramings (natBits p.cfg.sync 11 8) (natBits p.cfg.sync 18 16) (candidates (natBits p.cfg.sync 5 0) (natBits p.cfg.sync 15 12)
            ((List.range (2 * natBits p.cfg.sync 5 0 + 1)).map fun d => syncMisses x ((x.findQ0 : Int) - natBits p.cfg.sync 5 0 + d))) = [])
      [.regs, .decode]
      fun s t => t.sector sector = some { x with
            q0 := x.findQ0, framed := true, inferred := true, framings := [⟨0, 15⟩], stamp := x.predicted
            info := { x.info with framing := 3, syncOfs := 0, syncMiss := 15 } } ∧
          t.fld (R.HD_SYNC_CNT1 n.val) F.HD_SYNC_CNT1_INFERRED = min 0xFFFF (s.fld (R.HD_SYNC_CNT1 n.val) F.HD_SYNC_CNT1_INFERRED + 1) ∧
          RegsBut [R.HD_SYNC_CNT1 n.val] s t := by
  refine Completes.of_keeps (execSyncSearchComplete_keeps sector) ?_
  rintro s - ⟨hx, hpass, hhead, -, hframed, hkind, hlong, hfound⟩
  rw [map_intCast] at hfound
  refine ⟨_, exec_syncSearchComplete_none hx hpass hhead hframed hkind hlong hfound, ?_, ?_, State.regsBut_bump (s.modSector _ _) _ _ _⟩
  · rw [State.sector_bump, State.sector_modSector_self hx _ fun y => y.frame_id _ _]
    rfl
  · rw [State.bump, State.fld_setFld_self _ _ _ _ (by decide) (by decide)]
    exact Nat.mod_eq_of_lt (Nat.lt_of_le_of_lt (Nat.min_le_left ..) (by decide))

theorem syncSearchComplete_frames (sector : Nat) (x : Sector) (p : Pass) (n : Fin 16) (j : Fin 12) (f : Framing) :
    Completes (.syncSearchComplete sector)
      (fun s => s.sector sector = some x ∧ s.passOf x.head x.pass = some p ∧ x.head = n.val ∧ x.beam = j.val ∧ x.framed = false ∧ x.kind = .read ∧
          x.findQ0 + natBits p.cfg.sync 5 0 + 64 ≤ x.slot * slotBits + 48 + x.released.length ∧
          openFramings (natBits p.cfg.sync 11 8) (natBits p.cfg.sync 18 16) (candidates (natBits p.cfg.sync 5 0) (natBits p.cfg.sync 15 12)
            ((List.range (2 * natBits p.cfg.sync 5 0 + 1)).map fun d => syncMisses x ((x.findQ0 : Int) - natBits p.cfg.sync 5 0 + d))) = [f])
      [.regs, .decode]
      fun s t => t.sector sector = some { x with
            q0 := x.findQ0, framed := true, framings := [f], stamp := { x with q0 := x.findQ0 }.markStamp f
            info := { x.info with framing := 0, syncOfs := f.ofs, syncMiss := f.miss } } ∧ RegsBut [R.HD_SYNC_CNT0 n.val] s t := by
  refine Completes.of_keeps (execSyncSearchComplete_keeps sector) ?_
  rintro s - ⟨hx, hpass, hhead, -, hframed, hkind, hlong, hfound⟩
  rw [map_intCast] at hfound
  refine ⟨_, exec_syncSearchComplete_one hx hpass hhead hframed hkind hlong hfound, ?_, State.regsBut_bump (s.modSector _ _) _ _ _⟩
  rw [State.sector_bump, State.sector_modSector_self hx _ fun y => y.frame_id _ _]
  rfl

/-! ## The release of intervals (R105) -/

theorem State.beam_modBeam_self (s : State) (n : Fin 16) (j : Fin 12) (f : Beam → Beam) :
    ((s.modBeam n j f).head n).beams[j] = f (s.head n).beams[j] := by
  rw [State.modBeam, State.head_modHead_self]
  exact Vector.getElem_set_self j.isLt

theorem State.ingestPeak_regsBut (s : State) (n : Fin 16) : RegsBut [R.HD_INGEST n.val] s (s.ingestPeak n) := by
  unfold State.ingestPeak
  extract_lets k
  split
  · exact s.regsBut_setFld _ _ _
  · exact RegsBut.refl _ _

theorem State.headsBut_modBeam (s : State) (n : Fin 16) (j : Fin 12) (f : Beam → Beam) : HeadsBut n s (s.modBeam n j f) :=
  State.headsBut_modHead rfl _

/-- The oldest interval of a beam gives its values to its sector. -/
def State.giveValues (s : State) (n : Fin 16) (j : Fin 12) (i : Interval) (rest : List Interval) : State :=
  (s.modBeam n j fun b => { b with intervals := rest }).modSector i.sector fun x => { x with released := x.released ++ i.soft, drops := x.drops ++ i.drops }

theorem State.giveValues_sector {s : State} {i : Interval} {x : Sector} (h : s.sector i.sector = some x) (n : Fin 16) (j : Fin 12) (rest : List Interval) :
    (s.giveValues n j i rest).sector i.sector = some { x with released := x.released ++ i.soft, drops := x.drops ++ i.drops } :=
  State.sector_modSector_self (s := s.modBeam n j _) h _ fun _ => rfl

theorem exec_intervalRelease_gives {s : State} {head : Fin 16} {beam : Fin 12} {i : Interval} {rest : List Interval} {x : Sector}
    (hints : (s.head head).beams[beam].intervals = i :: rest)
    (hfate : (i.fate = .passed ∧ i.forced = false) ∨ i.fate = .replayed ∨ i.fate = .softErased)
    (hx : s.sector i.sector = some x) (hframed : x.framed = false) :
    exec (.intervalRelease head beam) s = .next ((s.giveValues head beam i rest).ingestPeak head) := by
  have hgiven := (State.sector_congr ((State.ingestPeak_keeps _ head).frame .decode (by decide)) i.sector).trans (State.giveValues_sector hx head beam rest)
  have hresolved : (i.fate == .passed && !i.forced || i.fate == .replayed || i.fate == .softErased) = true := by
    rcases hfate with ⟨h, h'⟩ | h | h <;> simp [h]
    exact h'
  show execIntervalRelease head beam s = _
  unfold execIntervalRelease
  dsimp only
  rw [hints]
  dsimp only
  rw [when_of_true hresolved]
  unfold State.giveValues at hgiven ⊢
  rw [hgiven]
  simp [Sector.allReleased, hframed]

theorem intervalRelease_gives (head : Fin 16) (beam : Fin 12) (i : Interval) (rest : List Interval) (x : Sector) :
    Completes (.intervalRelease head beam)
      (fun s => (s.head head).beams[beam].intervals = i :: rest ∧ ((i.fate = .passed ∧ i.forced = false) ∨ i.fate = .replayed ∨ i.fate = .softErased) ∧
          s.sector i.sector = some x ∧ x.framed = false)
      [.events, .regs, .heads, .decode, .mem, .out]
      fun s t => (t.head head).beams[beam].intervals = rest ∧ t.sector i.sector = some { x with released := x.released ++ i.soft, drops := x.drops ++ i.drops } ∧
          RegsBut [R.HD_INGEST head.val] s t ∧ t.events = s.events ∧ t.mem = s.mem ∧ HeadsBut head s t := by
  refine Completes.of_keeps (execIntervalRelease_keeps head beam) ?_
  rintro s - ⟨hints, hfate, hx, hframed⟩
  have hpeak := (s.giveValues head beam i rest).ingestPeak_keeps head
  have hheads := hpeak.frame .heads (by decide)
  refine ⟨_, exec_intervalRelease_gives hints hfate hx hframed, ?_, ?_, (s.giveValues head beam i rest).ingestPeak_regsBut head,
    hpeak.frame .events (by decide), hpeak.frame .mem (by decide), fun m hm => ?_⟩
  · rw [State.head_congr hheads]
    exact congrArg Beam.intervals (s.beam_modBeam_self head beam fun b => { b with intervals := rest })
  · exact (State.sector_congr (hpeak.frame .decode (by decide)) i.sector).trans (State.giveValues_sector hx head beam rest)
  · exact (State.head_congr hheads m).trans (s.headsBut_modBeam head beam (fun b => { b with intervals := rest }) m hm)

theorem intervalRelease_waits (head : Fin 16) (beam : Fin 12) (i : Interval) (rest : List Interval) :
    Completes (.intervalRelease head beam)
      (fun s => (s.head head).beams[beam].intervals = i :: rest ∧ (i.fate = .live ∨ i.fate = .queued))
      [.events, .regs, .heads, .decode, .mem, .out]
      fun s t => t = s := by
  refine Completes.of_keeps (execIntervalRelease_keeps head beam) ?_
  rintro s - ⟨hints, hfate⟩
  refine ⟨s, ?_, rfl⟩
  show execIntervalRelease head beam s = _
  unfold execIntervalRelease
  dsimp only
  rw [hints]
  exact when_of_false (by rcases hfate with h | h <;> rw [h] <;> rfl) _ _

end Sys2Proof.Machine
end

section
/-!
PROOFS. The samples of a head brought up to now (R83, R94, R98), the checkpoint of an interval (R98), and the admission of a slot
(R90, R113). Settles O30.
-/

namespace Sys2Proof.Machine

/-! ## Samples brought up to now -/

/-- Head n keeps its pass, every sector stands but for the stamp of its last sample, and no sector is new. -/
structure SamplesOnly (n : Fin 16) (s t : State) : Prop where
  pass : (t.head n).pass = (s.head n).pass
  others : HeadsBut n s t
  nextId : t.decode.nextId = s.decode.nextId
  sector : ∀ k x, s.sector k = some x → ∃ l, t.sector k = some { x with lastSample := l }
  events : t.events = s.events

section SamplesOnly

variable {n : Fin 16} {s t u : State}

theorem SamplesOnly.refl (n : Fin 16) (s : State) : SamplesOnly n s s :=
  ⟨rfl, fun _ _ => rfl, rfl, fun _ x h => ⟨x.lastSample, h⟩, rfl⟩

theorem SamplesOnly.trans (h : SamplesOnly n s t) (k : SamplesOnly n t u) : SamplesOnly n s u where
  pass := k.pass.trans h.pass
  others m hm := (k.others m hm).trans (h.others m hm)
  nextId := k.nextId.trans h.nextId
  sector id x hx := by
    obtain ⟨l, hl⟩ := h.sector id x hx
    obtain ⟨l', hl'⟩ := k.sector id _ hl
    exact ⟨l', hl'⟩
  events := k.events.trans h.events

theorem SamplesOnly.modHead (h : SamplesOnly n s t) (f : Head → Head) (hf : (f (t.head n)).pass = (t.head n).pass) :
    SamplesOnly n s (t.modHead n f) where
  pass := by rw [State.head_modHead_self, hf, h.pass]
  others m hm := (t.head_modHead_other f hm).trans (h.others m hm)
  nextId := h.nextId
  sector := h.sector
  events := h.events

theorem SamplesOnly.modBeam (h : SamplesOnly n s t) (j : Fin 12) (f : Beam → Beam) : SamplesOnly n s (t.modBeam n j f) := h.modHead _ rfl

theorem SamplesOnly.setLast (h : SamplesOnly n s t) (i : Nat) (f : Sector → Option Stamp) :
    SamplesOnly n s (t.modSector i fun x => { x with lastSample := f x }) where
  pass := h.pass
  others := h.others
  nextId := h.nextId
  sector k x hx := by
    obtain ⟨l, hl⟩ := h.sector k x hx
    rw [State.sector_modSector t i (fun x => { x with lastSample := f x }) fun _ => rfl, hl, Option.map_some]
    split
    · exact ⟨_, rfl⟩
    · exact ⟨l, rfl⟩
  events := h.events

theorem State.endSamples_only (s : State) (n : Fin 16) (j : Fin 12) : SamplesOnly n s (s.endSamples n j) := by
  unfold State.endSamples
  extract_lets +onlyGivenNames b
  split
  · split
    · extract_lets last ended
      have hended : SamplesOnly n s ended := (SamplesOnly.refl n s).setLast _ _
      split
      · exact hended.modBeam j _
      · exact hended
    · exact SamplesOnly.refl n s
  · exact SamplesOnly.refl n s

theorem State.closeSector_only (s : State) (n : Fin 16) (j : Fin 12) : SamplesOnly n s (s.closeSector n j) := by
  unfold State.closeSector
  extract_lets +onlyGivenNames b
  split
  · extract_lets last
    exact (SamplesOnly.refl n s).setLast _ _
  · exact SamplesOnly.refl n s

theorem State.runChannels_only (s : State) (n : Fin 16) : SamplesOnly n s (s.runChannels n) := by
  unfold State.runChannels
  extract_lets cfg now presented cancelled
  have hcancelled : SamplesOnly n s cancelled := ((SamplesOnly.refl n s).modHead _ rfl).modHead _ rfl
  exact List.foldlRecOn (motive := SamplesOnly n s) _ _ hcancelled fun t ht j _ => ht.trans (t.endSamples_only n j)

end SamplesOnly

/-! ## The checkpoint of an interval (R98) -/

/-- What a beam records of its intervals. -/
def Beam.record (b : Beam) : List Interval × Adaptive := (b.intervals, b.lastCheck)

theorem State.beam_modBeam_other (s : State) (n : Fin 16) {i j : Fin 12} (h : i ≠ j) (f : Beam → Beam) :
    ((s.modBeam n j f).head n).beams[i] = (s.head n).beams[i] := by
  rw [State.modBeam, State.head_modHead_self]
  exact Vector.getElem_set_ne j.isLt i.isLt (Fin.val_ne_of_ne h.symm)

theorem State.endSamples_record (s : State) (n : Fin 16) (i j : Fin 12) :
    ((s.endSamples n j).head n).beams[i].record = (s.head n).beams[i].record := by
  unfold State.endSamples
  extract_lets +onlyGivenNames b
  split
  · split
    · extract_lets last ended
      have hended : ended.head n = s.head n := rfl
      split
      · by_cases h : i = j
        · subst h
          rw [State.beam_modBeam_self, hended]
          rfl
        · rw [State.beam_modBeam_other _ _ h, hended]
      · rfl
    · rfl
  · rfl

/-- The canceller has nothing to do for a beam whose every bit has its y. -/
theorem Beam.cancel_of_done {b : Beam} (h : (b.bits.all fun x => x.y.isSome) = true) (cfg : ChanCfg) (inner outer : Option Beam) :
    b.cancel cfg inner outer = b := by
  have htodo : ((indexed b.bits).filter fun e => cancelLag ≤ e.1 && e.2.y.isNone) = [] := by
    refine List.filter_eq_nil_iff.mpr fun e he => ?_
    have hy := List.all_eq_true.mp h e.2 (List.of_mem_zip he).2
    simp [Option.isSome_iff_ne_none.mp hy]
  unfold Beam.cancel
  dsimp only
  rw [htodo]
  rfl

/-- A beam with no sample to come and every bit cancelled keeps its record. -/
theorem State.runChannels_record {s : State} {n : Fin 16} {j : Fin 12} (hraw : (s.head n).beams[j].raw = [])
    (hbits : ((s.head n).beams[j].bits.all fun x => x.y.isSome) = true) :
    ((s.runChannels n).head n).beams[j].record = (s.head n).beams[j].record := by
  unfold State.runChannels
  extract_lets cfg now presented cancelled
  have hpresented : (presented.head n).beams[j] = (s.head n).beams[j] := by
    rw [State.head_modHead_self]
    simp only [Fin.getElem_fin, Vector.getElem_map]
    rw [show (s.head n).beams[j.val].raw = [] from hraw]
    rfl
  have hcancelled : (cancelled.head n).beams[j] = (s.head n).beams[j] := by
    rw [State.head_modHead_self]
    simp only [Fin.getElem_fin, Vector.getElem_ofFn]
    exact (congrArg (fun b : Beam => b.cancel cfg _ _) hpresented).trans (Beam.cancel_of_done hbits ..)
  exact List.foldlRecOn (motive := fun t : State => (t.head n).beams[j].record = (s.head n).beams[j].record) _ _
    (congrArg Beam.record hcancelled) fun t ht i _ => (t.endSamples_record n j i).trans ht

/-- The interval that begins with a beam's next bit. -/
def Beam.nextIv (b : Beam) (id : Nat) : Interval :=
  { sector := id, k := (b.pos - b.acq) / 512, first := b.pos, len := min 512 (b.sectorBits - 512 * ((b.pos - b.acq) / 512)),
    checkpoint := b.adapt, fate := .live, forced := false, clamped := false, soft := [], drops := [] }

/-- A beam records the checkpoint of its next interval. -/
def Beam.check (iv : Interval) (b : Beam) : Beam :=
  { b with intervals := b.intervals ++ [iv], lastCheck := b.adapt, frozen := b.frozen && !b.thaw, thaw := false }

theorem exec_intervalCheckpoint_eq {s : State} {head : Fin 16} {beam : Fin 12} {id : Nat} (hsector : (s.head head).beams[beam].sector = some id)
    (hdue : (s.head head).beams[beam].checkpointDue = true) :
    exec (.intervalCheckpoint head beam) s =
      .next ((s.modBeam head beam (Beam.check ((s.head head).beams[beam].nextIv id))).runChannels head) := by
  show execIntervalCheckpoint head beam s = _
  unfold execIntervalCheckpoint
  dsimp only
  rw [hsector]
  exact when_of_true hdue _ _

theorem intervalCheckpoint_records (head : Fin 16) (beam : Fin 12) (id : Nat) :
    Completes (.intervalCheckpoint head beam)
      (fun s => (s.head head).beams[beam].sector = some id ∧ (s.head head).beams[beam].checkpointDue = true ∧ (s.head head).beams[beam].raw = [] ∧
          ((s.head head).beams[beam].bits.all fun x => x.y.isSome) = true)
      [.heads, .decode]
      fun s t => (t.head head).beams[beam].intervals = (s.head head).beams[beam].intervals ++
            [{ sector := id, k := ((s.head head).beams[beam].pos - (s.head head).beams[beam].acq) / 512, first := (s.head head).beams[beam].pos,
               len := min 512 ((s.head head).beams[beam].sectorBits - 512 * (((s.head head).beams[beam].pos - (s.head head).beams[beam].acq) / 512)),
               checkpoint := (s.head head).beams[beam].adapt, fate := .live, forced := false, clamped := false, soft := [], drops := [] }] ∧
          (t.head head).beams[beam].lastCheck = (s.head head).beams[beam].adapt ∧ HeadsBut head s t := by
  refine Completes.of_keeps (execIntervalCheckpoint_keeps head beam) ?_
  rintro s - ⟨hsector, hdue, hraw, hbits⟩
  have hbeam := s.beam_modBeam_self head beam (Beam.check ((s.head head).beams[beam].nextIv id))
  have hothers := s.headsBut_modBeam head beam (Beam.check ((s.head head).beams[beam].nextIv id))
  have hexec := exec_intervalCheckpoint_eq hsector hdue
  generalize s.modBeam head beam (Beam.check ((s.head head).beams[beam].nextIv id)) = u at hbeam hothers hexec
  have hrecord := State.runChannels_record (s := u) (n := head) (j := beam) (by rw [hbeam]; exact hraw) (by rw [hbeam]; exact hbits)
  rw [hbeam] at hrecord
  obtain ⟨hints, hlast⟩ := Prod.mk.inj hrecord
  exact ⟨_, hexec, hints, hlast, fun m hm => ((u.runChannels_only head).others m hm).trans (hothers m hm)⟩

/-! ## The admission of a slot (R90, R113) -/

theorem ingestBytes_congr {s t : State} (h : t.decode = s.decode) (n : Nat) : ingestBytes t n = ingestBytes s n := by
  unfold ingestBytes
  rw [h]

/-- A new sector joins the sectors of the decode island. -/
def State.addSector (s : State) (x : Sector) : State :=
  s.modDec fun d => { d with
    nextId := d.nextId + 1, sectors := d.sectors ++ [x]
    runAhead := d.runAhead.map fun r => if x.spec && r.holds x then { r with sectors := r.sectors + 1 } else r }

theorem State.addSector_sector {s : State} {x : Sector} (h : s.sector x.id = none) : (s.addSector x).sector x.id = some x := by
  unfold State.sector at h ⊢
  show (s.decode.sectors ++ [x]).find? _ = _
  rw [List.find?_append, h]
  simp

/-- A sector that is not framed takes its header alone in the ingest buffer. -/
theorem ingestBytes_addSector (s : State) {x : Sector} {n : Nat} (hhead : x.head = n) (hin : x.inIngest = true) (hre : x.isReframe = false)
    (hframed : x.framed = false) : ingestBytes (s.addSector x) n = ingestBytes s n + 64 := by
  have hmine : ([x].filter fun x => x.head == n && x.inIngest && !x.isReframe) = [x] := by simp [hhead, hin, hre]
  have hbytes : x.ingestBytes = 64 := by rw [Sector.ingestBytes, hframed]; rfl
  show (((s.decode.sectors ++ [x]).filter _).map Sector.ingestBytes).sum = _
  rw [List.filter_append, hmine, List.map_append, List.sum_append, List.map_singleton, List.sum_singleton, hbytes]
  rfl

theorem State.reopenAdmission_only (s : State) (n : Fin 16) : SamplesOnly n s (s.reopenAdmission n) := by
  unfold State.reopenAdmission
  split
  · exact (SamplesOnly.refl n s).modHead _ rfl
  · exact SamplesOnly.refl n s

theorem State.ingestPeak_only (s : State) (n : Fin 16) : SamplesOnly n s (s.ingestPeak n) := by
  have hk := s.ingestPeak_keeps n
  have hdec := hk.frame .decode (by decide)
  have hheads := State.head_congr (hk.frame .heads (by decide))
  exact ⟨by rw [hheads], fun m _ => hheads m, by rw [hdec], fun k x hx => ⟨x.lastSample, (State.sector_congr hdec k).trans hx⟩, hk.frame .events (by decide)⟩

theorem isSpec_of_lt {p : Pass} (h : p.rev < p.desc.count) : isSpec p = false := by
  simp [isSpec, h]

theorem newSector_kind {p : Pass} (h : p.desc.mode = .read) (s : State) (n : Fin 16) (beam band track slot g i : Nat) (a q : Stamp) (m : Nat) :
    (newSector s n p beam band track slot g i a q m).kind = .read := if_pos h

/-- With room in the ingest buffer a slot that the flywheel predicts is admitted: its sector is new, the beam takes it, and the samples
are brought up to now. -/
theorem State.admitSlot_admits {s : State} {n : Fin 16} {p : Pass} (hread : p.desc.mode = .read) (hrev : p.rev < p.desc.count)
    (hroom : ingestBytes s n.val + 64 < stopMark)    (beam : Fin 12) (slot g i : Nat) (a q : Stamp) :
    ∃ m, SamplesOnly n (s.addSector (newSector s n p beam.val (beamPlace p beam.val).1 (beamPlace p beam.val).2 slot g i a q m))
      (s.admitSlot n beam p slot g i (some (a, q)) true) := by
  unfold State.admitSlot
  generalize beamPlace p beam.val = place
  obtain ⟨band, track⟩ := place
  generalize (flyRate (s.head n).fly).getD (0, 1) = rate
  obtain ⟨num, den⟩ := rate
  dsimp only
  rw [isSpec_of_lt hrev, if_neg Bool.false_ne_true]
  have hbytes := ingestBytes_addSector s (x := newSector s n p beam.val band track slot g i a q (chooseM p.cfg.ch (fmtU p.cfg.fmt band) num den))
    (n := n.val) rfl rfl (by rw [Sector.isReframe, newSector_kind hread]) rfl
  refine ⟨chooseM p.cfg.ch (fmtU p.cfg.fmt band) num den, ?_⟩
  have hopen (t : State) := ingestBytes_congr ((t.reopenAdmission_keeps n).frame .decode (by decide)) n.val
  have hbelow := ((hopen _).trans hbytes).trans_lt hroom
  split
  next hfull => exact absurd (of_decide_eq_true hfull) (Nat.not_le.mpr hbelow)
  next =>
    exact ((((State.reopenAdmission_only _ n).trans (State.closeSector_only _ n beam)).modBeam beam _).trans
      (State.ingestPeak_only _ n)).trans (State.runChannels_only _ n)

theorem exec_sectorAcquisitionStart_member {s : State} {head : Fin 16} {beam : Fin 12} {slot g i : Nat} {p : Pass} {a q w : Stamp} {rate : Nat × Nat}
    (hpass : (s.head head).pass = some p) (hread : p.desc.mode = .read) (hhem : p.hem = none) (hrev : p.rev < p.desc.count)
    (hseeded : (s.head head).beams[beam].seeded = true) (hservice : (s.head head).beams[beam].inService = true)
    (hrejoin : (s.head head).beams[beam].rejoin = none)
    (hopens : predictSlot s head (beamPlace p beam.val).1 slot (natBits p.cfg.sync 5 0) = some w) (hready : readyAt s head w = true)
    (ha : predictSlot s head (beamPlace p beam.val).1 slot 80 = some a) (hq : predictSlot s head (beamPlace p beam.val).1 slot 0 = some q)
    (hrate : flyRate (s.head head).fly = some rate) (hslot : slot < slotsOf (fmtU p.cfg.fmt (beamPlace p beam.val).1))
    (hnew : ∀ e ∈ p.admitted, e ≠ ((beamPlace p beam.val).2, slot)) (hcome : a + (s.head head).link.presDelay ≤ s.now)
    (huse : slotUse p (beamPlace p beam.val).1 (twillStep (fmtU p.cfg.fmt (beamPlace p beam.val).1)) (beamPlace p beam.val).2 slot beam.val = .member g i) :
    exec (.sectorAcquisitionStart head beam slot) s =
      .next ((s.modPass head fun p' => { p' with admitted := ((beamPlace p beam.val).2, slot) :: p'.admitted }).admitSlot head beam p slot g i
        (some (a, q)) true) := by
  have hverify : s.readVerifyBand head p = s := if_neg (by simp [hread])
  have hwindow : readyAt (s.modPass head fun p' => { p' with admitted := ((beamPlace p beam.val).2, slot) :: p'.admitted }) head w = true := by
    unfold readyAt
    rw [State.modPass, State.head_modHead_self]
    exact hready
  show execSectorAcquisitionStart head beam slot s = _
  unfold execSectorAcquisitionStart
  simp only [hpass, hverify, Option.getD_some]
  generalize beamPlace p beam.val = place at *
  obtain ⟨band, track⟩ := place
  dsimp only at *
  simp only [ha, hq, hrate, hopens, hhem, huse]
  rw [when_of_true]
  · simp only [hservice, hrejoin, hwindow, Option.all_none, Option.any_some, Bool.and_self, if_true]
  · have hfresh : p.admitted.contains (track, slot) = false := by
      rw [← Bool.not_eq_true, List.contains_iff_mem]
      exact fun h => hnew _ h rfl
    simp only [hslot, hfresh, hseeded, hcome, Nat.not_le.mpr hrev, decide_true, decide_false, Bool.not_false, Bool.and_false, Bool.false_and,
      Bool.and_self, Option.all_some]

/-- A slot that is admitted leaves a new sector and the pass as it is. -/
theorem State.addSector_admits {s u : State} {n : Fin 16} {x : Sector} (hnew : s.sector x.id = none) (h : SamplesOnly n (s.addSector x) u) :
    u.decode.nextId = s.decode.nextId + 1 ∧ (u.head n).pass = (s.head n).pass ∧ u.events = s.events ∧
      ∃ l, u.sector x.id = some { x with lastSample := l } :=
  ⟨h.nextId, h.pass, h.events, h.sector _ x (State.addSector_sector hnew)⟩

theorem sectorAcquisitionStart_admits (head : Fin 16) (beam : Fin 12) (slot g i : Nat) (p : Pass) (a q w : Stamp) (rate : Nat × Nat) :
    Completes (.sectorAcquisitionStart head beam slot)
      (fun s => (s.head head).pass = some p ∧ p.desc.mode = .read ∧ p.hem = none ∧ p.rev < p.desc.count ∧ (s.head head).beams[beam].seeded = true ∧
          (s.head head).beams[beam].inService = true ∧ (s.head head).beams[beam].rejoin = none ∧
          predictSlot s head (beamPlace p beam.val).1 slot (natBits p.cfg.sync 5 0) = some w ∧ readyAt s head w = true ∧
          predictSlot s head (beamPlace p beam.val).1 slot 80 = some a ∧ predictSlot s head (beamPlace p beam.val).1 slot 0 = some q ∧
          flyRate (s.head head).fly = some rate ∧ slot < slotsOf (fmtU p.cfg.fmt (beamPlace p beam.val).1) ∧
          (∀ e ∈ p.admitted, e ≠ ((beamPlace p beam.val).2, slot)) ∧ a + (s.head head).link.presDelay ≤ s.now ∧
          slotUse p (beamPlace p beam.val).1 (twillStep (fmtU p.cfg.fmt (beamPlace p beam.val).1)) (beamPlace p beam.val).2 slot beam.val = .member g i ∧
          ingestBytes s head.val + 64 < 212992 ∧ s.sector s.decode.nextId = none)
      [.events, .regs, .heads, .decode, .mem, .out]
      fun s t => t.decode.nextId = s.decode.nextId + 1 ∧
          (t.sector s.decode.nextId).any (fun x => x.head == head.val && x.beam == beam.val && x.pass == p.no && x.kind == .read &&
            x.track == (beamPlace p beam.val).2 && x.slot == slot && x.group == g && x.member == i && x.stamp == q && x.stage == .inFlight) = true ∧
          (t.head head).pass = some { p with admitted := ((beamPlace p beam.val).2, slot) :: p.admitted } ∧ t.events = s.events := by
  refine Completes.of_keeps (execSectorAcquisitionStart_keeps head beam slot) ?_
  rintro s - ⟨hpass, hread, hhem, hrev, hseeded, hservice, hrejoin, hopens, hready, ha, hq, hrate, hslot, hnew, hcome, huse, hroom, hfree⟩
  have hexec := exec_sectorAcquisitionStart_member hpass hread hhem hrev hseeded hservice hrejoin hopens hready ha hq hrate hslot hnew hcome huse
  have hnow : ((s.modPass head fun p' => { p' with admitted := ((beamPlace p beam.val).2, slot) :: p'.admitted }).head head).pass =
      some { p with admitted := ((beamPlace p beam.val).2, slot) :: p.admitted } := by
    rw [State.modPass, State.head_modHead_self, hpass]
    rfl
  have hdec := s.modPass_decode head fun p' => { p' with admitted := ((beamPlace p beam.val).2, slot) :: p'.admitted }
  have hevents := s.modPass_events head fun p' => { p' with admitted := ((beamPlace p beam.val).2, slot) :: p'.admitted }
  generalize s.modPass head (fun p' => { p' with admitted := ((beamPlace p beam.val).2, slot) :: p'.admitted }) = u at hexec hnow hdec hevents
  have hroom' : ingestBytes u head.val + 64 < stopMark := by rw [ingestBytes_congr hdec]; exact hroom
  obtain ⟨m, honly⟩ := State.admitSlot_admits hread hrev hroom' beam slot g i a q
  have hid : u.sector u.decode.nextId = none := by rw [State.sector_congr hdec, hdec, hfree]
  obtain ⟨hnext, hpass', hsame, l, hsector⟩ := State.addSector_admits (s := u) hid honly
  refine ⟨_, hexec, by rw [hnext, hdec], ?_, by rw [hpass', hnow], by rw [hsame, hevents]⟩
  rw [← hdec, show u.decode.nextId = (newSector u head p beam.val (beamPlace p beam.val).1 (beamPlace p beam.val).2 slot g i a q m).id from rfl, hsector,
    Option.any_some]
  simp [newSector, hread]

/-- Settles O30: the admission, the two ends of the search, the checkpoint and the two forms of the release, one lemma each. -/
theorem sectorsOnABeam : Obligations.SectorsOnABeam :=
  ⟨sectorAcquisitionStart_admits, syncSearchComplete_infers, syncSearchComplete_frames, intervalCheckpoint_records, intervalRelease_gives,
    intervalRelease_waits⟩

end Sys2Proof.Machine
end

section
/-!
PROOFS. The verified side blocks that wait for their step (R63): servo samples, quadrant sets, events of the front end,
housekeeping items with the derate (R158), CAP, and the REPLY to an echo and to a read (R67, R72).
-/

namespace Sys2Proof.Machine

/-! ## One link of many -/

@[simp] theorem State.head_modLink_self (s : State) (n : Fin 16) (f : Link → Link) :
    (s.modLink n f).head n = { s.head n with link := f (s.head n).link } := s.head_modHead_self n _

theorem HeadsBut.modHead {n : Fin 16} {s t : State} (h : HeadsBut n s t) (f : Head → Head) : HeadsBut n s (t.modHead n f) :=
  fun m hm => (t.head_modHead_other f hm).trans (h m hm)

theorem HeadsBut.modLink {n : Fin 16} {s t : State} (h : HeadsBut n s t) (f : Link → Link) : HeadsBut n s (t.modLink n f) := h.modHead _

theorem HeadsBut.of_heads {n : Fin 16} {s t u : State} (h : HeadsBut n s t) (hu : u.heads = t.heads) : HeadsBut n s u :=
  fun m hm => (State.head_congr hu m).trans (h m hm)

/-- A change that leaves the head as it is leaves the state as it is. -/
theorem State.modHead_eq_self {s : State} {n : Fin 16} {f : Head → Head} (h : f (s.head n) = s.head n) : s.modHead n f = s := by
  unfold State.modHead
  rw [show f s.heads[n] = s.heads[n] from h]
  exact congrArg (fun v => { s with heads := v }) (Vector.set_getElem_self ..)

theorem State.modLink_eq_self {s : State} {n : Fin 16} {f : Link → Link} (h : f (s.head n).link = (s.head n).link) : s.modLink n f = s :=
  State.modHead_eq_self (by rw [h])

/-! ## The side block that is taken (R63) -/

/-- What is left once the oldest side block of head n is taken. -/
def State.sideTaken (s : State) (n : Fin 16) (rest : List SideBlock) : State := s.modLink n fun l => { l with side := rest }

theorem State.takeSide_front {s : State} {n : Fin 16} {b : SideBlock} {rest : List SideBlock} {kind : Nat}
    (hside : (s.head n).link.side = b :: rest) (hkind : b.kind = kind) : s.takeSide n kind = some (b, s.sideTaken n rest) := by
  unfold State.takeSide
  rw [hside, List.span_eq_takeWhile_dropWhile]
  simp [hkind, State.sideTaken]

theorem State.sideTaken_head (s : State) (n : Fin 16) (rest : List SideBlock) :
    (s.sideTaken n rest).head n = { s.head n with link := { (s.head n).link with side := rest } } := s.head_modLink_self n _

theorem State.headsBut_sideTaken (s : State) (n : Fin 16) (rest : List SideBlock) : HeadsBut n s (s.sideTaken n rest) :=
  State.headsBut_modHead rfl _

theorem State.sideTaken_events (s : State) (n : Fin 16) (rest : List SideBlock) : (s.sideTaken n rest).events = s.events := rfl

theorem State.sideTaken_time (s : State) (n : Fin 16) (rest : List SideBlock) : (s.sideTaken n rest).time = s.time := rfl

theorem State.sideTaken_now (s : State) (n : Fin 16) (rest : List SideBlock) : (s.sideTaken n rest).now = s.now :=
  congrArg TimeState.tb (s.sideTaken_time n rest)

theorem State.sideTaken_reg (s : State) (n : Fin 16) (rest : List SideBlock) (k : Nat) : (s.sideTaken n rest).reg k = s.reg k := rfl

theorem State.sideTaken_feK (s : State) (n : Fin 16) (rest : List SideBlock) : feK (s.sideTaken n rest) n = feK s n :=
  State.fld_congr (s.sideTaken_reg ..) _

theorem State.loopHead_congr {s t : State} (h : t.loop = s.loop) (n : Fin 16) : t.loopHead n = s.loopHead n := by
  unfold State.loopHead
  rw [h]

theorem State.sideTaken_loopHead (s : State) (n : Fin 16) (rest : List SideBlock) (m : Fin 16) : (s.sideTaken n rest).loopHead m = s.loopHead m :=
  State.loopHead_congr (State.modLink_loop ..) m

/-- A block that the front end does not declare invalid is acted on. -/
theorem when_valid {b : SideBlock} (h : b.invalid = false) (s t : State) : when (!b.invalid) s t = .next t :=
  when_of_true (by rw [h]; rfl) s t

/-! ## Servo samples, quadrant sets, events (R63, R66, R79) -/

theorem srfBlock_joins (head : Fin 16) (b : SideBlock) (rest : List SideBlock) :
    Completes (.srfBlock head)
      (fun s => (s.head head).link.side = b :: rest ∧ b.kind = 1 ∧ b.invalid = false)
      [.heads]
      fun s t => (t.head head).link.side = rest ∧ (t.head head).link.srf =
            addSpan (b.c0 - 48 * feK s head + 24 * b.part) (b.c0 - 48 * feK s head + 24 * b.part + 24) (s.head head).link.srf ∧ HeadsBut head s t := by
  refine Completes.of_keeps (execSrfBlock_keeps head) ?_
  rintro s - ⟨hside, hkind, hvalid⟩
  have hexec : exec (.srfBlock head) s = .next ((s.sideTaken head rest).modLink head fun l =>
      { l with srf := addSpan (b.c0 - 48 * feK s head + 24 * b.part) (b.c0 - 48 * feK s head + 24 * b.part + 24) l.srf }) := by
    show execSrfBlock head s = _
    unfold execSrfBlock
    simp only [State.takeSide_front hside hkind, hvalid, State.sideTaken_feK]
    rfl
  refine ⟨_, hexec, ?_, ?_, (s.headsBut_sideTaken head rest).modLink _⟩ <;> rw [State.head_modLink_self, State.sideTaken_head]

theorem quadBlock_travels (head : Fin 16) (b : SideBlock) (rest : List SideBlock) :
    Completes (.quadBlock head)
      (fun s => (s.head head).link.side = b :: rest ∧ b.kind = 2)
      [.heads, .loop]
      fun s t => (t.head head).link.side = rest ∧ (t.loopHead head).xing = (s.loopHead head).xing ++
            [.quad { stamp := b.c0 - 48 * feK s head, seen := 0, a := toSigned (b.data / 2 ^ 36 % 2 ^ 12) 12,
                     b := toSigned (b.data / 2 ^ 24 % 2 ^ 12) 12, c := toSigned (b.data / 2 ^ 12 % 2 ^ 12) 12,
                     d := toSigned (b.data % 2 ^ 12) 12, invalid := b.invalid }] ∧ HeadsBut head s t ∧
          ∀ m : Fin 16, m ≠ head → t.loopHead m = s.loopHead m := by
  refine Completes.of_keeps (execQuadBlock_keeps head) ?_
  rintro s - ⟨hside, hkind⟩
  have hexec : exec (.quadBlock head) s = .next ((s.sideTaken head rest).modLoopHead head fun h => { h with xing := h.xing ++
      [.quad { stamp := b.c0 - 48 * feK s head, seen := 0, a := toSigned (natBits b.data 47 36) 12, b := toSigned (natBits b.data 35 24) 12,
               c := toSigned (natBits b.data 23 12) 12, d := toSigned (natBits b.data 11 0) 12, invalid := b.invalid }] }) := by
    show execQuadBlock head s = _
    unfold execQuadBlock
    simp only [State.takeSide_front hside hkind, State.sideTaken_feK]
  refine ⟨_, hexec, ?_, ?_, s.headsBut_sideTaken head rest, fun m hm => (State.loopHead_modLoopHead_other _ _ hm).trans (s.sideTaken_loopHead ..)⟩
  · rw [State.head_congr (State.modLoopHead_heads ..), State.sideTaken_head]
  · rw [State.loopHead_modLoopHead_self, State.sideTaken_loopHead]
    simp [natBits]

theorem feevBlock_logs (head : Fin 16) (b : SideBlock) (rest : List SideBlock) :
    Completes (.feevBlock head)
      (fun s => (s.head head).link.side = b :: rest ∧ b.kind = 7 ∧ b.invalid = false)
      [.events, .heads]
      fun s t => (t.head head).link.side = rest ∧ t.events = (s.logHead head 0x2009 (natBits b.data 47 32) (natBits b.data 31 0)).events ∧
          HeadsBut head s t := by
  refine Completes.of_keeps (execFeevBlock_keeps head) ?_
  rintro s - ⟨hside, hkind, hvalid⟩
  have hheads (m : Fin 16) := State.head_congr ((s.sideTaken head rest).logHead_heads head 0x2009 (natBits b.data 47 32) (natBits b.data 31 0) 0) m
  refine ⟨(s.sideTaken head rest).logHead head 0x2009 (natBits b.data 47 32) (natBits b.data 31 0), ?_, ?_,
    State.logHead_events_congr (s.sideTaken_events ..) (s.sideTaken_time ..) .., fun m hm => (hheads m).trans (s.headsBut_sideTaken head rest m hm)⟩
  · show execFeevBlock head s = _
    unfold execFeevBlock
    simp only [State.takeSide_front hside hkind]
    exact when_valid hvalid ..
  · rw [hheads, State.sideTaken_head]

/-! ## Housekeeping (R63, R158) -/

/-- The housekeeping item of a block keeps its latest value (R63). -/
def State.hkTaken (s : State) (n : Fin 16) (b : SideBlock) (rest : List SideBlock) : State :=
  (s.sideTaken n rest).modLink n fun l =>
    { l with hk := (natBits b.data 47 40, (natBits b.data 39 0, (s.sideTaken n rest).now)) :: l.hk.filter fun e => e.1 != natBits b.data 47 40 }

theorem State.hkTaken_regs (s : State) (n : Fin 16) (b : SideBlock) (rest : List SideBlock) : (s.hkTaken n b rest).regs = s.regs := rfl

theorem State.hkTaken_reg (s : State) (n : Fin 16) (b : SideBlock) (rest : List SideBlock) (k : Nat) : (s.hkTaken n b rest).reg k = s.reg k :=
  congrArg (storeGet regReset k) (s.hkTaken_regs n b rest)

theorem State.hkTaken_now (s : State) (n : Fin 16) (b : SideBlock) (rest : List SideBlock) : (s.hkTaken n b rest).now = s.now :=
  congrArg TimeState.tb ((State.modLink_time ..).trans (s.sideTaken_time n rest))

theorem State.hkTaken_head (s : State) (n : Fin 16) (b : SideBlock) (rest : List SideBlock) : (s.hkTaken n b rest).head n = { s.head n with
    link := { (s.head n).link with
      side := rest
      hk := (natBits b.data 47 40, (natBits b.data 39 0, s.now)) :: (s.head n).link.hk.filter fun e => e.1 != natBits b.data 47 40 } } := by
  rw [State.hkTaken, State.head_modLink_self, State.sideTaken_head, State.sideTaken_now]

theorem State.headsBut_hkTaken (s : State) (n : Fin 16) (b : SideBlock) (rest : List SideBlock) : HeadsBut n s (s.hkTaken n b rest) :=
  (s.headsBut_sideTaken n rest).modLink _

/-- The derate item's staleness counts from now on (R158). -/
def State.derateFresh (s : State) (n : Fin 16) (v : Nat) : State :=
  s.modHead n fun h => { h with laser := { h.laser with staleFrom := s.now, staleTold := false, lastTemp := v % 65536 } }

/-- F for a temperature v of the derate item, by the line of HD_DERATE_CFG (R158). -/
def derateFor (s : State) (n : Fin 16) (v : Nat) : Nat :=
  derateOf (toSigned (s.fld (R.HD_DERATE_CFG n.val) F.HD_DERATE_CFG_T0) 16) (toSigned (s.fld (R.HD_DERATE_CFG n.val) F.HD_DERATE_CFG_T1) 16)
    (toSigned v 16)

/-- The temperature v of the derate item is acted on (R158). -/
def State.derateTaken (s : State) (n : Fin 16) (v : Nat) : State :=
  ((s.derateFresh n v).setFld (R.HD_LASER_STATUS n.val) F.HD_LASER_STATUS_HK_STALE 0).setDerate n (derateFor s n v)

theorem exec_hkBlock {s : State} {head : Fin 16} {b : SideBlock} {rest : List SideBlock} (hside : (s.head head).link.side = b :: rest)
    (hkind : b.kind = 3) (hvalid : b.invalid = false) :
    exec (.hkBlock head) s = .next (if s.flag (R.HD_DERATE_CTRL head.val) F.HD_DERATE_CTRL_EN = true ∧
        natBits b.data 47 40 = s.fld (R.HD_DERATE_CTRL head.val) F.HD_DERATE_CTRL_HK_ITEM then
      (s.hkTaken head b rest).derateTaken head (natBits b.data 39 0) else s.hkTaken head b rest) := by
  rw [← State.flag_congr (s.hkTaken_reg head b rest _), ← State.fld_congr (s.hkTaken_reg head b rest _)]
  show execHkBlock head s = _
  unfold execHkBlock
  extract_lets n
  rw [State.takeSide_front hside hkind]
  unfold State.derateTaken State.derateFresh derateFor State.hkTaken
  exact when_valid hvalid _ _

theorem hkBlock_keeps_item (head : Fin 16) (b : SideBlock) (rest : List SideBlock) :
    Completes (.hkBlock head)
      (fun s => (s.head head).link.side = b :: rest ∧ b.kind = 3 ∧ b.invalid = false ∧ s.flag (R.HD_DERATE_CTRL head.val) F.HD_DERATE_CTRL_EN = false)
      [.events, .regs, .heads, .decode, .mem, .out]
      fun s t => (t.head head).link.hk.lookup (natBits b.data 47 40) = some (natBits b.data 39 0, s.now) ∧ (t.head head).link.side = rest ∧
          t.regs = s.regs ∧ t.events = s.events ∧ HeadsBut head s t := by
  refine Completes.of_keeps (execHkBlock_keeps head) ?_
  rintro s - ⟨hside, hkind, hvalid, hoff⟩
  have hexec := exec_hkBlock hside hkind hvalid
  rw [if_neg fun h => absurd (hoff.symm.trans h.1) (by decide)] at hexec
  refine ⟨_, hexec, ?_, ?_, rfl, rfl, s.headsBut_hkTaken head b rest⟩ <;> rw [State.hkTaken_head]
  exact List.lookup_cons_self

/-- F is a fraction of 256. -/
theorem derateOf_le (t0 t1 t : Int) : derateOf t0 t1 t ≤ 256 := by
  unfold derateOf
  split
  · exact Nat.zero_le _
  next habove =>
    split
    · exact Nat.le_refl _
    next hbelow =>
      rw [Int.toNat_le, floorDiv, Int.fdiv_eq_ediv_of_nonneg _ (by omega)]
      exact Int.ediv_le_of_le_mul (by omega) (by push_cast; omega)

theorem State.setDerate_of_no_pass {s : State} {n : Fin 16} (h : (s.head n).pass = none) (f : Nat) :
    s.setDerate n f = s.setFld (R.HD_LASER_STATUS n.val) F.HD_LASER_STATUS_DERATE f := by
  unfold State.setDerate
  extract_lets u
  split
  · exact State.gateFails_of_no_pass (by rw [State.head_congr (s.setFld_heads ..), h]) 2
  · rfl

/-- HK_STALE clears and F is shown. -/
def State.derateShown (s : State) (n : Fin 16) (f : Nat) : State :=
  (s.setFld (R.HD_LASER_STATUS n.val) F.HD_LASER_STATUS_HK_STALE 0).setFld (R.HD_LASER_STATUS n.val) F.HD_LASER_STATUS_DERATE f

theorem State.derateShown_derate (s : State) (n : Fin 16) {f : Nat} (h : f ≤ 256) :
    (s.derateShown n f).fld (R.HD_LASER_STATUS n.val) F.HD_LASER_STATUS_DERATE = f := by
  rw [State.derateShown, State.fld_setFld_self _ _ _ _ (by decide) (by decide)]
  exact Nat.mod_eq_of_lt (Nat.lt_of_le_of_lt h (by decide))

theorem State.derateShown_stale (s : State) (n : Fin 16) (f : Nat) :
    (s.derateShown n f).flag (R.HD_LASER_STATUS n.val) F.HD_LASER_STATUS_HK_STALE = false := by
  rw [State.derateShown, State.flag_setFld_other _ _ _ _ _ (by decide) (by decide) (by decide) (by decide)]
  exact State.flag_setFld_clear _ _ _ (by decide) (by decide)

theorem State.derateShown_regsBut (s : State) (n : Fin 16) (f : Nat) : RegsBut [R.HD_LASER_STATUS n.val] s (s.derateShown n f) :=
  (s.regsBut_setFld _ _ _).trans (State.regsBut_setFld _ _ _ _)

theorem State.derateShown_heads (s : State) (n : Fin 16) (f : Nat) : (s.derateShown n f).heads = s.heads :=
  (State.setFld_heads ..).trans (State.setFld_heads ..)

theorem State.derateTaken_of_no_pass {s : State} {n : Fin 16} (h : (s.head n).pass = none) (v : Nat) :
    s.derateTaken n v = (s.derateFresh n v).derateShown n (derateFor s n v) :=
  State.setDerate_of_no_pass (by rw [State.head_congr (State.setFld_heads ..), State.derateFresh, State.head_modHead_self]; exact h) _

theorem hkBlock_derates (head : Fin 16) (b : SideBlock) (rest : List SideBlock) :
    Completes (.hkBlock head)
      (fun s => (s.head head).link.side = b :: rest ∧ b.kind = 3 ∧ b.invalid = false ∧ (s.head head).pass = none ∧
          s.flag (R.HD_DERATE_CTRL head.val) F.HD_DERATE_CTRL_EN = true ∧
          natBits b.data 47 40 = s.fld (R.HD_DERATE_CTRL head.val) F.HD_DERATE_CTRL_HK_ITEM)
      [.events, .regs, .heads, .decode, .mem, .out]
      fun s t => t.fld (R.HD_LASER_STATUS head.val) F.HD_LASER_STATUS_DERATE =
            derateOf (toSigned (s.fld (R.HD_DERATE_CFG head.val) F.HD_DERATE_CFG_T0) 16)
              (toSigned (s.fld (R.HD_DERATE_CFG head.val) F.HD_DERATE_CFG_T1) 16) (toSigned (natBits b.data 39 0) 16) ∧
          t.flag (R.HD_LASER_STATUS head.val) F.HD_LASER_STATUS_HK_STALE = false ∧ (t.head head).laser.staleFrom = s.now ∧
          RegsBut [R.HD_LASER_STATUS head.val] s t ∧ HeadsBut head s t := by
  refine Completes.of_keeps (execHkBlock_keeps head) ?_
  rintro s - ⟨hside, hkind, hvalid, hpass, hon, hitem⟩
  have hexec := exec_hkBlock hside hkind hvalid
  rw [if_pos ⟨hon, hitem⟩, State.derateTaken_of_no_pass (by rw [State.hkTaken_head]; exact hpass)] at hexec
  refine ⟨_, hexec, ?_, State.derateShown_stale .., ?_, ?_, ?_⟩
  · rw [derateFor, State.derateShown_derate _ _ (derateOf_le ..), State.fld_congr (s.hkTaken_reg ..), State.fld_congr (s.hkTaken_reg ..)]
  · rw [State.head_congr (State.derateShown_heads ..), State.derateFresh, State.head_modHead_self, State.hkTaken_now]
  · exact RegsBut.trans (regsBut_of_regs_eq (s.hkTaken_regs head b rest)) (RegsBut.trans (regsBut_of_regs_eq rfl) (State.derateShown_regsBut _ _ _))
  · exact ((s.headsBut_hkTaken head b rest).modHead _).of_heads (State.derateShown_heads ..)

/-! ## CAP (R63) -/

/-- What the front end declares of itself is shown (R63). -/
def State.capShown (s : State) (n : Fin 16) (d : Nat) : State :=
  ((((s.setFld (R.TL_FE_CAP n.val) F.TL_FE_CAP_VERSION (natBits d 47 40)).setFld (R.TL_FE_CAP n.val) F.TL_FE_CAP_L_RX (natBits d 39 32)).setFld
    (R.TL_FE_CAP n.val) F.TL_FE_CAP_L_TX (natBits d 31 24)).setFld (R.TL_FE_CAP n.val) F.TL_FE_CAP_K (natBits d 23 20)).setFld
    (R.TL_FE_CAP n.val) F.TL_FE_CAP_WMAX (natBits d 19 16)

theorem natBits_mod_width {v hi lo : Nat} {p : FieldPos} (h : p.width = hi + 1 - lo) : natBits v hi lo % 2 ^ p.width = natBits v hi lo := by
  rw [h]
  exact Nat.mod_mod ..

theorem State.capShown_regsBut (s : State) (n : Fin 16) (d : Nat) : RegsBut [R.TL_FE_CAP n.val] s (s.capShown n d) :=
  ((((s.regsBut_setFld _ _ _).trans (State.regsBut_setFld _ _ _ _)).trans (State.regsBut_setFld _ _ _ _)).trans
    (State.regsBut_setFld _ _ _ _)).trans (State.regsBut_setFld _ _ _ _)

theorem State.capShown_heads (s : State) (n : Fin 16) (d : Nat) : (s.capShown n d).heads = s.heads :=
  (((((State.setFld_heads ..).trans (State.setFld_heads ..)).trans (State.setFld_heads ..)).trans (State.setFld_heads ..)).trans
    (State.setFld_heads ..))

theorem State.capShown_fld (s : State) (n : Fin 16) (d : Nat) :
    (s.capShown n d).fld (R.TL_FE_CAP n.val) F.TL_FE_CAP_VERSION = natBits d 47 40 ∧
      (s.capShown n d).fld (R.TL_FE_CAP n.val) F.TL_FE_CAP_L_RX = natBits d 39 32 ∧
      (s.capShown n d).fld (R.TL_FE_CAP n.val) F.TL_FE_CAP_L_TX = natBits d 31 24 ∧
      (s.capShown n d).fld (R.TL_FE_CAP n.val) F.TL_FE_CAP_K = natBits d 23 20 ∧
      (s.capShown n d).fld (R.TL_FE_CAP n.val) F.TL_FE_CAP_WMAX = natBits d 19 16 := by
  unfold State.capShown
  simp (disch := decide) only [State.fld_setFld_self, State.fld_setFld_other]
  exact ⟨natBits_mod_width rfl, natBits_mod_width rfl, natBits_mod_width rfl, natBits_mod_width rfl, natBits_mod_width rfl⟩

/-- The training has seen the front end's declaration. -/
def State.capSeen (s : State) (n : Fin 16) : State := s.modLink n fun l => { l with training := l.training.map fun t => { t with capSeen := true } }

theorem State.capSeen_reg (s : State) (n : Fin 16) (k : Nat) : (s.capSeen n).reg k = s.reg k := State.modLink_reg ..

theorem capBlock_declares (head : Fin 16) (b : SideBlock) (rest : List SideBlock) :
    Completes (.capBlock head)
      (fun s => (s.head head).link.side = b :: rest ∧ b.kind = 5 ∧ b.invalid = false ∧ b.part = 0)
      [.regs, .heads]
      fun s t => t.fld (R.TL_FE_CAP head.val) F.TL_FE_CAP_VERSION = natBits b.data 47 40 ∧
          t.fld (R.TL_FE_CAP head.val) F.TL_FE_CAP_L_RX = natBits b.data 39 32 ∧
          t.fld (R.TL_FE_CAP head.val) F.TL_FE_CAP_L_TX = natBits b.data 31 24 ∧
          t.fld (R.TL_FE_CAP head.val) F.TL_FE_CAP_K = natBits b.data 23 20 ∧
          t.fld (R.TL_FE_CAP head.val) F.TL_FE_CAP_WMAX = natBits b.data 19 16 ∧ (t.head head).link.side = rest ∧
          RegsBut [R.TL_FE_CAP head.val] s t ∧ HeadsBut head s t := by
  refine Completes.of_keeps (execCapBlock_keeps head) ?_
  rintro s - ⟨hside, hkind, hvalid, hpart⟩
  have hexec : exec (.capBlock head) s = .next (((s.sideTaken head rest).capShown head b.data).capSeen head) := by
    show execCapBlock head s = _
    unfold execCapBlock
    extract_lets n
    rw [State.takeSide_front hside hkind]
    unfold State.capSeen State.capShown
    exact (when_valid hvalid _ _).trans (congrArg _ (if_pos hpart))
  obtain ⟨hversion, hrx, htx, hk, hwmax⟩ := (s.sideTaken head rest).capShown_fld head b.data
  have hregs := (s.sideTaken head rest).capShown_regsBut head b.data
  have hheads := (s.sideTaken head rest).capShown_heads head b.data
  generalize (s.sideTaken head rest).capShown head b.data = u at *
  have hshown (p : FieldPos) := State.fld_congr (u.capSeen_reg head (R.TL_FE_CAP head.val)) p
  refine ⟨_, hexec, (hshown _).trans hversion, (hshown _).trans hrx, (hshown _).trans htx, (hshown _).trans hk, (hshown _).trans hwmax, ?_, ?_, ?_⟩
  · rw [State.capSeen, State.head_modLink_self, State.head_congr hheads, State.sideTaken_head]
  · exact RegsBut.trans (regsBut_of_regs_eq rfl) (hregs.trans (regsBut_of_regs_eq rfl))
  · exact (HeadsBut.of_heads (s.headsBut_sideTaken head rest) hheads).modLink _

theorem capBlock_identifies (head : Fin 16) (b : SideBlock) (rest : List SideBlock) :
    Completes (.capBlock head)
      (fun s => (s.head head).link.side = b :: rest ∧ b.kind = 5 ∧ b.invalid = false ∧ b.part ≠ 0)
      [.regs, .heads]
      fun s t => t.reg (R.TL_FE_ID head.val) = BitVec.ofNat 32 (natBits b.data 47 16) ∧ RegsBut [R.TL_FE_ID head.val] s t := by
  refine Completes.of_keeps (execCapBlock_keeps head) ?_
  rintro s - ⟨hside, hkind, hvalid, hpart⟩
  have hexec : exec (.capBlock head) s = .next ((s.sideTaken head rest).setReg (R.TL_FE_ID head.val) (BitVec.ofNat 32 (natBits b.data 47 16))) := by
    show execCapBlock head s = _
    unfold execCapBlock
    extract_lets n
    rw [State.takeSide_front hside hkind]
    exact (when_valid hvalid _ _).trans (congrArg _ (if_neg hpart))
  exact ⟨_, hexec, State.reg_setReg_self .., RegsBut.trans (regsBut_of_regs_eq rfl) (State.regsBut_setReg _ _ _)⟩

/-! ## REPLY (R67, R72) -/

/-- What a REPLY may stand for is all of the link that its search changes. -/
theorem Link.answered_link (l : Link) (fc : Nat) (fits : Msg → Bool) : (l.answered fc fits).2 = { l with asks := (l.answered fc fits).2.asks } := by
  unfold Link.answered
  extract_lets mine
  split <;> rfl

/-- A REPLY of kind `kind` for a frame of low count byte `fc` is taken, with the message that it answers (R63). -/
def State.replyTaken (s : State) (n : Fin 16) (rest : List SideBlock) (fc kind : Nat) : State :=
  (s.sideTaken n rest).modLink n fun _ => (((s.sideTaken n rest).head n).link.answered fc (replyFits kind)).2

theorem State.replyTaken_head (s : State) (n : Fin 16) (rest : List SideBlock) (fc kind : Nat) :
    (s.replyTaken n rest fc kind).head n =
      { s.head n with link := { (s.head n).link with side := rest, asks := ((s.replyTaken n rest fc kind).head n).link.asks } } := by
  rw [State.replyTaken, State.head_modLink_self, Link.answered_link, State.sideTaken_head]

theorem State.headsBut_replyTaken (s : State) (n : Fin 16) (rest : List SideBlock) (fc kind : Nat) : HeadsBut n s (s.replyTaken n rest fc kind) :=
  (s.headsBut_sideTaken n rest).modLink _

theorem State.replyTaken_keeps (s : State) (n : Fin 16) (rest : List SideBlock) (fc kind : Nat) :
    Keeps [.heads] s (s.replyTaken n rest fc kind) :=
  Keeps.step (State.modLink_keeps ..) rfl (State.modLink_keeps ..)

theorem exec_replyBlock_echo {s : State} {head : Fin 16} {arrival : Stamp} {b : SideBlock} {rest : List SideBlock}
    (hside : (s.head head).link.side = b :: rest) (hkind : b.kind = 6) (hvalid : b.invalid = false) (hreply : natBits b.data 47 40 = 0) :
    exec (.replyBlock head arrival) s =
      .next ((s.replyTaken head rest (natBits b.data 39 32) 0).echoReply head (natBits b.data 39 32) (natBits b.data 31 0) arrival) := by
  show execReplyBlock head arrival s = _
  unfold execReplyBlock
  extract_lets n
  rw [State.takeSide_front hside hkind]
  refine (when_valid hvalid _ _).trans ?_
  simp only [hreply]
  rfl

/-- The round trip that an echo shows (R67). -/
def echoTrip (s : State) (n : Fin 16) (f delta : Nat) (arrival : Stamp) : Nat :=
  ((arrival : Int) - 48 * (f + 1) - feRx s n - delta - feTx s n).toNat

theorem State.echoReply_eq {s : State} {n : Fin 16} {tr : Training} {f fc : Nat} (htr : (s.head n).link.training = some tr)
    (hstep : tr.step = .echoSent) (hf : tr.echoes.find? (fun x => x % 256 == fc) = some f) (delta : Nat) (arrival : Stamp) :
    s.echoReply n fc delta arrival = (s.setFld (R.TL_ALIGN n.val) F.TL_ALIGN_RT (echoTrip s n f delta arrival)).modLink n fun l =>
      { l with rt := echoTrip s n f delta arrival, training := l.training.map fun t => { t with step := .alignSent } } := by
  unfold State.echoReply
  simp only [htr, hf]
  exact if_pos hstep

theorem replyBlock_echo (head : Fin 16) (arrival : Stamp) (b : SideBlock) (rest : List SideBlock) (tr : Training) (f : Nat) :
    Completes (.replyBlock head arrival)
      (fun s => (s.head head).link.side = b :: rest ∧ b.kind = 6 ∧ b.invalid = false ∧ natBits b.data 47 40 = 0 ∧
          (s.head head).link.training = some tr ∧ tr.step = .echoSent ∧ tr.echoes.find? (fun x => x % 256 == natBits b.data 39 32) = some f)
      [.regs, .heads]
      fun s t => ((t.head head).link.rt : Int) = max 0 ((arrival : Int) - 48 * (f + 1) - feRx s head - natBits b.data 31 0 - feTx s head) ∧
          (t.head head).link.training = some { tr with step := .alignSent } ∧
          t.fld (R.TL_ALIGN head.val) F.TL_ALIGN_RT = (t.head head).link.rt % 2 ^ F.TL_ALIGN_RT.width ∧
          RegsBut [R.TL_ALIGN head.val] s t ∧ HeadsBut head s t := by
  rintro s - ⟨hside, hkind, hvalid, hreply, htr, hstep, hf⟩
  have hexec := exec_replyBlock_echo (arrival := arrival) hside hkind hvalid hreply
  have hkeeps := s.replyTaken_keeps head rest (natBits b.data 39 32) 0
  have hhead := s.replyTaken_head head rest (natBits b.data 39 32) 0
  have hothers := s.headsBut_replyTaken head rest (natBits b.data 39 32) 0
  have hregs : (s.replyTaken head rest (natBits b.data 39 32) 0).regs = s.regs := rfl
  generalize s.replyTaken head rest (natBits b.data 39 32) 0 = u at *
  have htr' : (u.head head).link.training = some tr := by rw [hhead]; exact htr
  have htrip : echoTrip u head f (natBits b.data 31 0) arrival = echoTrip s head f (natBits b.data 31 0) arrival := by
    unfold echoTrip feRx feTx State.fld State.reg
    rw [hregs]
  have hframe := (Keeps.step (u.echoReply_keeps head (natBits b.data 39 32) (natBits b.data 31 0) arrival) rfl
    (hkeeps.mono (P := [.regs, .heads]) rfl)).frame
  rw [State.echoReply_eq htr' hstep hf, htrip] at hexec hframe
  refine ⟨_, hexec, hframe, ?_, ?_, ?_, ?_, ?_⟩
  · rw [State.head_modLink_self, echoTrip, Int.toNat_eq_max, max_comm]
  · rw [State.head_modLink_self, State.head_congr (State.setFld_heads ..), htr']
    rfl
  · rw [State.head_modLink_self, State.fld_congr (State.modLink_reg ..), State.fld_setFld_self _ _ _ _ (by decide) (by decide)]
  · exact RegsBut.trans (regsBut_of_regs_eq hregs) (RegsBut.trans (State.regsBut_setFld _ _ _ _) (regsBut_of_regs_eq rfl))
  · exact (hothers.of_heads (State.setFld_heads ..)).modLink _

theorem State.completeHead_seq_congr {s t : State} (hseq : t.seq = s.seq) (htime : t.time = s.time) (n : Fin 16) (w : Waiter) (result data : Nat) :
    (t.completeHead n w result data).seq = (s.completeHead n w result data).seq := by
  unfold State.completeHead State.complete State.sendEntry State.modBob
  rw [State.stamp_congr htime]
  simp only [hseq]

theorem State.completeHead_heads (s : State) (n : Fin 16) (w : Waiter) (result data : Nat) : (s.completeHead n w result data).heads = s.heads :=
  State.modBob_heads ..

theorem State.completeHead_regs (s : State) (n : Fin 16) (w : Waiter) (result data : Nat) : (s.completeHead n w result data).regs = s.regs :=
  State.modBob_regs ..

theorem State.completeHead_events (s : State) (n : Fin 16) (w : Waiter) (result data : Nat) : (s.completeHead n w result data).events = s.events :=
  State.modBob_events ..

theorem exec_replyBlock_read {s : State} {head : Fin 16} {arrival : Stamp} {b : SideBlock} {rest : List SideBlock} {f : FeReq}
    (hside : (s.head head).link.side = b :: rest) (hkind : b.kind = 6) (hvalid : b.invalid = false) (hreply : natBits b.data 47 40 = 2)
    (hfe : (s.head head).fe = [f]) (hread : f.kind = .read) (hframe : f.frame.map (· % 256) = some (natBits b.data 39 32)) :
    exec (.replyBlock head arrival) s =
      .next (((s.replyTaken head rest (natBits b.data 39 32) 2).modHead head fun h => { h with fe := h.fe.filter fun g => g.who != f.who }).completeHead
        head f.who 0 (natBits b.data 31 0)) := by
  have hfe' : ((s.replyTaken head rest (natBits b.data 39 32) 2).head head).fe.find?
      (fun f => f.kind == .read && (f.frame.map fun x => x % 256) == some (natBits b.data 39 32)) = some f := by
    rw [State.replyTaken_head]
    simp [hfe, hread, hframe]
  show execReplyBlock head arrival s = _
  unfold execReplyBlock
  extract_lets n
  rw [State.takeSide_front hside hkind]
  refine (when_valid hvalid _ _).trans ?_
  unfold State.replyTaken at hfe' ⊢
  simp only [hreply, n, hfe']

theorem replyBlock_read (head : Fin 16) (arrival : Stamp) (b : SideBlock) (rest : List SideBlock) (f : FeReq) :
    Completes (.replyBlock head arrival)
      (fun s => (s.head head).link.side = b :: rest ∧ b.kind = 6 ∧ b.invalid = false ∧ natBits b.data 47 40 = 2 ∧ (s.head head).fe = [f] ∧
          f.kind = .read ∧ f.frame.map (· % 256) = some (natBits b.data 39 32))
      [.events, .regs, .heads, .seq, .mem, .out]
      fun s t => (t.head head).fe = [] ∧ t.seq = (s.completeHead head f.who 0 (natBits b.data 31 0)).seq ∧ t.regs = s.regs ∧ t.events = s.events := by
  refine Completes.of_keeps (execReplyBlock_keeps head arrival) ?_
  rintro s - ⟨hside, hkind, hvalid, hreply, hfe, hread, hframe⟩
  refine ⟨_, exec_replyBlock_read hside hkind hvalid hreply hfe hread hframe, ?_, State.completeHead_seq_congr ?_ ?_ .., ?_, ?_⟩
  · rw [State.head_congr (State.completeHead_heads ..), State.head_modHead_self, State.replyTaken_head]
    simp [hfe]
  · rfl
  · rfl
  · exact (State.completeHead_regs ..).trans rfl
  · exact (State.completeHead_events ..).trans rfl

end Sys2Proof.Machine
end

section
/-!
PROOFS. The STAT of a front end (R64, R66, R73, R76). Settles O22.
-/

namespace Sys2Proof.Machine

/-! ## STAT (R64, R66, R73, R76) -/

/-- How many frames D0 frame f lies behind the last one that a STAT with data d tells of (R64). -/
def statAge (d f : Nat) : Nat := (natBits d 47 32 + 65536 - f % 65536) % 65536

/-- What a head notes of a STAT: the frames and messages judged, and the front end's state (R64, R73). -/
def State.statNoted (s : State) (n : Fin 16) (d : Nat) : State :=
  ((s.modLink n fun l => { l with
    sent := l.sent.filter fun f => !decide (statAge d f < 8)
    held := l.held.filter fun m => !(decide (statAge d m.frame < 8) && !testBitN (natBits d 31 24) (statAge d m.frame))
    feSafe := testBitN d 10, lastStat := some s.now }).modLink n fun l => { l with wrCorrupt := testBitN d 11 }).modHead n fun h =>
      { h with laser := { h.laser with feLen := testBitN d 9 } }

/-- What TL_STATUS shows of a STAT. -/
def State.statShown (s : State) (n : Fin 16) (d : Nat) : State :=
  ((s.setFld (R.TL_STATUS n.val) F.TL_STATUS_FE_SAFE (bitOf (testBitN d 10))).setFld (R.TL_STATUS n.val) F.TL_STATUS_FE_PLL_LOCK
    (bitOf (testBitN d 8))).setFld (R.TL_STATUS n.val) F.TL_STATUS_DL_LOCK (bitOf (testBitN d 7))

/-- The beams that a STAT declares bad (R66). -/
def statBeams (d : Nat) : List (Fin 12) := (List.finRange 12).filter fun j => testBitN d (12 + j.val)

theorem State.flag_setFld_bitOf (s : State) (k : Nat) (p : FieldPos) (v : Bool) (h : p.hi < 32) (hw : p.lo ≤ p.hi) :
    (s.setFld k p (bitOf v)).flag k p = v := by
  cases v
  · exact s.flag_setFld_clear k p h hw
  · exact s.flag_setFld_set k p h hw

theorem State.statShown_flags (s : State) (n : Fin 16) (d : Nat) :
    (s.statShown n d).flag (R.TL_STATUS n.val) F.TL_STATUS_FE_SAFE = testBitN d 10 ∧
      (s.statShown n d).flag (R.TL_STATUS n.val) F.TL_STATUS_FE_PLL_LOCK = testBitN d 8 ∧
      (s.statShown n d).flag (R.TL_STATUS n.val) F.TL_STATUS_DL_LOCK = testBitN d 7 := by
  unfold State.statShown
  simp (disch := decide) only [State.flag_setFld_bitOf, State.flag_setFld_other, and_self]

theorem State.statShown_heads (s : State) (n : Fin 16) (d : Nat) : (s.statShown n d).heads = s.heads :=
  ((State.setFld_heads ..).trans (State.setFld_heads ..)).trans (State.setFld_heads ..)

theorem State.statShown_regsBut (s : State) (n : Fin 16) (d : Nat) : RegsBut [R.TL_STATUS n.val] s (s.statShown n d) :=
  ((s.regsBut_setFld _ _ _).trans (State.regsBut_setFld _ _ _ _)).trans (State.regsBut_setFld _ _ _ _)

theorem State.statShown_keeps (s : State) (n : Fin 16) (d : Nat) : Keeps [.regs] s (s.statShown n d) :=
  Keeps.step (State.setFld_keeps ..) rfl (Keeps.step (State.setFld_keeps ..) rfl (State.setFld_keeps ..))

theorem State.statNoted_head (s : State) (n : Fin 16) (d : Nat) : (s.statNoted n d).head n = { s.head n with
    link := { (s.head n).link with
      sent := (s.head n).link.sent.filter fun f => !decide (statAge d f < 8)
      held := (s.head n).link.held.filter fun m => !(decide (statAge d m.frame < 8) && !testBitN (natBits d 31 24) (statAge d m.frame))
      feSafe := testBitN d 10, lastStat := some s.now, wrCorrupt := testBitN d 11 }
    laser := { (s.head n).laser with feLen := testBitN d 9 } } := by
  rw [State.statNoted, State.head_modHead_self, State.head_modLink_self, State.head_modLink_self]

theorem State.statNoted_keeps (s : State) (n : Fin 16) (d : Nat) : Keeps [.heads] s (s.statNoted n d) :=
  Keeps.step (State.modHead_keeps ..) rfl (Keeps.step (State.modLink_keeps ..) rfl (State.modLink_keeps ..))

/-- Samples found bad change nothing of a head but its beams. -/
theorem State.badSamples_head (s : State) (n : Fin 16) (beams : List (Fin 12)) (c0 : Stamp) :
    (s.badSamples n beams c0).head n = { s.head n with beams := ((s.badSamples n beams c0).head n).beams } := by
  unfold State.badSamples
  extract_lets a
  clear_value a
  induction beams generalizing s with
  | nil => rfl
  | cons j beams ih =>
    rw [List.foldl_cons, ih, State.modBeam, State.head_modHead_self]

theorem State.headsBut_badSamples (s : State) (n : Fin 16) (beams : List (Fin 12)) (c0 : Stamp) : HeadsBut n s (s.badSamples n beams c0) := by
  unfold State.badSamples
  extract_lets a
  clear_value a
  induction beams generalizing s with
  | nil => exact fun _ _ => rfl
  | cons j beams ih => exact fun m hm => (ih (s.modBeam n j _) m hm).trans (s.headsBut_modBeam n j _ m hm)

theorem State.resend_nil (s : State) (n : Fin 16) : s.resend n [] = s := by
  unfold State.resend
  extract_lets hit again forget u
  have hu : u = s := State.modHead_eq_self (by simp [forget])
  have hagain : again = [] := by simp [again, hit]
  rw [hu, hagain]
  exact State.modLink_eq_self (by simp [hit])

theorem State.feByStat_of_none {s : State} {n : Fin 16} (h : (s.head n).fe = []) (safe : Bool) : s.feByStat n safe = s := by
  unfold State.feByStat
  extract_lets done u
  have hu : u = s := State.modHead_eq_self (by rw [h, List.filter_nil, ← h])
  rw [h, hu]
  rfl

/-- A STAT with data d reports no bad frame, no stopped stream, no change of the safe state and both locks, to a head with no
front-end instruction whose writing its LEN does not cut short. -/
structure Uneventful (h : Head) (d : Nat) : Prop where
  fe : h.fe = []
  good : natBits d 31 24 = 0
  intact : testBitN d 11 = false
  safe : testBitN d 10 = h.link.feSafe
  pll : testBitN d 8 = true
  lock : testBitN d 7 = true
  len : testBitN d 9 = true ∨ h.writingNow = false

/-- Of what a STAT can bring about, an uneventful one leaves the notes, the view and the samples declared bad. -/
theorem exec_statBlock {s : State} {head : Fin 16} {b : SideBlock} {rest : List SideBlock} (hside : (s.head head).link.side = b :: rest)
    (hkind : b.kind = 4) (hvalid : b.invalid = false) (hquiet : Uneventful (s.head head) b.data) :
    exec (.statBlock head) s =
      .next ((((s.sideTaken head rest).statNoted head b.data).statShown head b.data).badSamples head (statBeams b.data) b.c0) := by
  obtain ⟨hfe, hgood, hcorrupt, hsafe, hpll, hlock, hlen⟩ := hquiet
  show execStatBlock head s = _
  unfold execStatBlock
  extract_lets n key
  rw [State.takeSide_front hside hkind]
  refine (when_valid hvalid _ _).trans (congrArg Host.Outcome.next ?_)
  extract_lets d last badBits safe was pll lock age covered isBad judged newBad judgedNow len fell corrupt rises corruptNow noted shownTwo shown counted
    resent beams declared cut hemmed logged served
  have hnew : newBad = [] := List.filter_eq_nil_iff.mpr fun f _ => by
    simp only [isBad, badBits, d, hgood]
    simp [testBitN]
  have hcounted : counted = shown := if_pos (by rw [hnew]; rfl)
  have hresent : resent = shown := by
    show counted.resend n newBad = shown
    rw [hnew, State.resend_nil, hcounted]
  have hshown : shown = ((s.sideTaken head rest).statNoted head b.data).statShown head b.data := by
    unfold State.statShown State.statNoted
    rfl
  have hdeclared : declared = (((s.sideTaken head rest).statNoted head b.data).statShown head b.data).badSamples head (statBeams b.data) b.c0 := by
    rw [← hshown, ← hresent]
    rfl
  have hhead : (declared.head n).pass = (s.head n).pass ∧ (declared.head n).fe = [] := by
    rw [hdeclared, State.badSamples_head, State.head_congr (State.statShown_heads ..), State.statNoted_head, State.sideTaken_head]
    exact ⟨rfl, hfe⟩
  obtain ⟨hpass, hfeNow⟩ := hhead
  have hwriting : (declared.head n).writingNow = (s.head n).writingNow := by
    unfold Head.writingNow
    rw [hpass]
  have hcut : cut = declared := if_neg (by simp [rises, corrupt, d, hcorrupt])
  have hhemmed : hemmed = declared := by
    refine (if_neg ?_).trans hcut
    rw [hcut, hwriting]
    rcases hlen with hlen | hlen
    · simp [fell, len, d, hlen]
    · simp [n, hlen]
  have hwas : was = safe := by
    show ((s.sideTaken head rest).head head).link.feSafe = testBitN b.data 10
    rw [State.sideTaken_head, hsafe]
  have hlogged : logged = declared := (if_neg (by rw [hwas]; simp)).trans hhemmed
  have hserved : served = declared := by
    show logged.feByStat n safe = declared
    rw [hlogged, State.feByStat_of_none hfeNow]
  rw [← hdeclared, ← hserved]
  simp [pll, lock, d, hpll, hlock]

theorem statBlock_judges (head : Fin 16) (b : SideBlock) (rest : List SideBlock) :
    Completes (.statBlock head)
      (fun s => (s.head head).link.side = b :: rest ∧ b.kind = 4 ∧ b.invalid = false ∧ (s.head head).fe = [] ∧
          natBits b.data 31 24 = 0 ∧ testBitN b.data 11 = false ∧ testBitN b.data 10 = (s.head head).link.feSafe ∧
          testBitN b.data 8 = true ∧ testBitN b.data 7 = true ∧ (testBitN b.data 9 = true ∨ (s.head head).writingNow = false))
      [.regs, .heads]
      fun s t => (t.head head).link.lastStat = some s.now ∧ (t.head head).link.side = rest ∧
          (t.head head).link.feSafe = testBitN b.data 10 ∧ (t.head head).link.queue = (s.head head).link.queue ∧
          (t.head head).link.sent = (s.head head).link.sent.filter (fun f => decide (8 ≤ (natBits b.data 47 32 + 65536 - f % 65536) % 65536)) ∧
          (t.head head).link.state = (s.head head).link.state ∧ (t.head head).laser.feLen = testBitN b.data 9 ∧
          t.flag (R.TL_STATUS head.val) F.TL_STATUS_FE_SAFE = testBitN b.data 10 ∧
          t.flag (R.TL_STATUS head.val) F.TL_STATUS_FE_PLL_LOCK = true ∧ t.flag (R.TL_STATUS head.val) F.TL_STATUS_DL_LOCK = true ∧
          RegsBut [R.TL_STATUS head.val] s t ∧ HeadsBut head s t := by
  rintro s - ⟨hside, hkind, hvalid, hfe, hgood, hcorrupt, hsafe, hpll, hlock, hlen⟩
  have hexec := exec_statBlock hside hkind hvalid ⟨hfe, hgood, hcorrupt, hsafe, hpll, hlock, hlen⟩
  have hnoted := (s.sideTaken head rest).statNoted_head head b.data
  rw [State.sideTaken_head, State.sideTaken_now] at hnoted
  have hkeeps : Keeps [.heads] s ((s.sideTaken head rest).statNoted head b.data) := Keeps.step (State.statNoted_keeps ..) rfl (State.modLink_keeps ..)
  have hothers : HeadsBut head s ((s.sideTaken head rest).statNoted head b.data) := (((s.headsBut_sideTaken head rest).modLink _).modLink _).modHead _
  generalize (s.sideTaken head rest).statNoted head b.data = u at *
  have hbad := (u.statShown head b.data).badSamples_keeps head (statBeams b.data) b.c0
  have hregs := hbad.frame .regs (by decide)
  have hhead := (u.statShown head b.data).badSamples_head head (statBeams b.data) b.c0
  rw [State.head_congr (u.statShown_heads head b.data), hnoted] at hhead
  have hbut := (u.statShown head b.data).headsBut_badSamples head (statBeams b.data) b.c0
  obtain ⟨hshowSafe, hshowPll, hshowLock⟩ := u.statShown_flags head b.data
  have hflag (p : FieldPos) := State.flag_congr (congrArg (storeGet regReset (R.TL_STATUS head.val)) hregs) p
  have hframe := (Keeps.step hbad rfl (Keeps.step (P := [.regs, .heads]) (u.statShown_keeps head b.data) rfl (hkeeps.mono rfl))).frame
  refine ⟨_, hexec, hframe, by rw [hhead], by rw [hhead], by rw [hhead], by rw [hhead], ?_, by rw [hhead], by rw [hhead],
    (hflag _).trans hshowSafe, (hflag _).trans (hshowPll.trans hpll), (hflag _).trans (hshowLock.trans hlock), ?_, fun m hm => ?_⟩
  · rw [hhead]
    refine List.filter_congr fun f _ => ?_
    rw [← decide_not]
    exact decide_eq_decide.mpr Nat.not_lt
  · exact RegsBut.trans (regsBut_of_regs_eq (hkeeps.frame .regs (by decide))) ((u.statShown_regsBut head b.data).trans (regsBut_of_regs_eq hregs))
  · exact (hbut m hm).trans ((State.head_congr (u.statShown_heads head b.data) m).trans (hothers m hm))

/-- Settles O22: each kind of side block by its own lemma, in the order of the statement. -/
theorem sideBlocks : Obligations.SideBlocks :=
  ⟨srfBlock_joins, quadBlock_travels, hkBlock_keeps_item, hkBlock_derates, statBlock_judges, capBlock_declares, capBlock_identifies,
    replyBlock_echo, replyBlock_read, feevBlock_logs⟩

end Sys2Proof.Machine
end

section
/-!
PROOFS. D0 frames of a head that writes nothing (R58, R69, R370), the messages that they carry and their resends (R73), and a SAFE
asked for (R370). Settles O23.
-/

namespace Sys2Proof.Machine

/-! ## No write data (R69, R147) -/

section NoPass

variable {s : State} {n : Fin 16} (h : (s.head n).pass = none)

include h

theorem State.settleWrites_of_no_pass (x : Stamp) : s.settleWrites n x = s := by
  unfold State.settleWrites
  rw [h]

theorem State.tryWstart_of_no_pass : s.tryWstart n = s := by
  unfold State.tryWstart
  rw [h]

theorem State.tryWstop_of_no_pass : s.tryWstop n = s := by
  unfold State.tryWstop
  rw [h]

theorem State.writeBlocks_of_no_pass (room : Nat) : s.writeBlocks n room = ([], s) := by
  unfold State.writeBlocks
  rw [h]

end NoPass

/-! ## The messages of a quiet frame (R69, R73) -/

/-- SAFE has no lead to lose. -/
theorem State.dropLateWstarts_of_safe {s : State} {n : Fin 16} (h : ∀ m ∈ (s.head n).link.queue, m.msg = .safe) : s.dropLateWstarts n = s := by
  unfold State.dropLateWstarts
  extract_lets late gone u
  have hlate : ∀ m ∈ (s.head n).link.queue, late m = none := fun m hm => by
    simp only [late, h m hm]
  have hgone : gone = [] := List.filterMap_eq_nil_iff.mpr hlate
  have hu : u = s := State.modLink_eq_self (by rw [List.filter_eq_self.mpr fun m hm => by rw [hlate m hm]; rfl])
  rw [hgone, hu]
  rfl

/-- SAFE leaves as it is. -/
theorem State.emitMsg_safe (s : State) (n : Fin 16) (frame : Nat) (l : List Msg) (h : ∀ m ∈ l, m = .safe) (done : List Msg) :
    l.foldl (fun (acc : List Msg × State) m => (acc.1 ++ [(acc.2.emitMsg n frame m).1], (acc.2.emitMsg n frame m).2)) (done, s) = (done ++ l, s) := by
  induction l generalizing done with
  | nil => rw [List.foldl_nil, List.append_nil]
  | cons m l ih =>
    obtain ⟨hm, hl⟩ := List.forall_mem_cons.mp h
    rw [List.foldl_cons, hm]
    exact (ih hl _).trans (by rw [List.append_assoc]; rfl)

theorem State.trainMsgs_of_no_training {s : State} {n : Fin 16} (h : (s.head n).link.training = none) (frame : Nat) :
    s.trainMsgs n frame = ([], s) := by
  unfold State.trainMsgs
  rw [h]

theorem Link.prbs_of_no_training {l : Link} (h : l.training = none) : l.prbs = false := by
  unfold Link.prbs
  rw [h]

/-! ## The launch (R58, R69) -/

/-- Nothing of head n but messages waits for the frame that launches: the link is UP with no pass and no training, and what it
has queued are SAFEs that fit. -/
structure Quiet (s : State) (n : Fin 16) : Prop where
  up : (s.head n).link.state = .up
  pass : (s.head n).pass = none
  training : (s.head n).link.training = none
  servo : (s.head n).link.servoQ = []
  displaced : (s.head n).link.displaced = []
  safe : ∀ m ∈ (s.head n).link.queue, m.msg = .safe
  fits : takeMsgs 24 (s.head n).link.queue = ((s.head n).link.queue, [])

/-- The positions of a frame that carries messages, the rest of it idle. -/
def frameSlots (l : List QMsg) : List D0Slot := ((l.map QMsg.msg).flatMap Msg.slots ++ List.replicate 24 D0Slot.idle).take 24

/-- A frame is under way with what the link had queued. -/
def State.frameBegun (s : State) (n : Fin 16) (frame crc : Nat) : State :=
  s.modLink n fun l => { l with
    d0 := some ⟨frame, linkCode (s.head n).link.state, crc, frameSlots (s.head n).link.queue⟩
    displaced := (((s.head n).link.queue.map QMsg.msg).flatMap Msg.slots).drop 24, servoQ := [], queue := [], lastD0 := some frame
    sent := frame :: l.sent.take 31 }

/-- What launches of a quiet head once the frame before it has left. -/
theorem State.launchD0_of_quiet {s u : State} {n : Fin 16} {crc : Nat} (hleft : s.finishD0 n = (crc, u)) (h : Quiet u n) :
    s.launchD0 n = u.frameBegun n (s.now / 48) crc := by
  obtain ⟨hup, hpass, htraining, hservo, hdisplaced, hsafe, hfits⟩ := h
  unfold State.launchD0
  extract_lets frame
  rw [hleft]
  dsimp only
  rw [Link.prbs_of_no_training htraining, State.settleWrites_of_no_pass hpass, State.tryWstart_of_no_pass hpass, State.tryWstop_of_no_pass hpass,
    State.dropLateWstarts_of_safe hsafe, State.trainMsgs_of_no_training htraining]
  have husable : (u.head n).link.usable = true := by rw [Link.usable, hup]; rfl
  simp only [hservo, hdisplaced, husable, List.map_nil, List.append_nil, List.length_nil, List.sum_nil, Nat.sub_zero, if_true,
    State.writeBlocks_of_no_pass hpass, hfits, List.nil_append]
  rw [State.emitMsg_safe u n frame _ (List.forall_mem_map.mpr hsafe)]
  rfl

theorem exec_d0FrameLaunch {s u : State} {head : Fin 16} {crc : Nat} (hnow : s.now % 48 = 0) (hup : (s.head head).link.state = .up)
    (hleft : s.finishD0 head = (crc, u)) (h : Quiet u head) : exec (.d0FrameLaunch head) s = .next (u.frameBegun head (s.now / 48) crc) := by
  rw [← State.launchD0_of_quiet hleft h]
  exact when_of_true (by rw [hnow, hup]; rfl) _ _

theorem State.frameBegun_link {s : State} {n : Fin 16} (h : Quiet s n) (frame crc : Nat) :
    ((s.frameBegun n frame crc).head n).link.d0 = some ⟨frame, 2, crc, frameSlots (s.head n).link.queue⟩ := by
  rw [State.frameBegun, State.head_modLink_self, h.up]
  rfl

/-! ## The frame that has left (R58, R69, R73) -/

theorem State.finishD0_of_none {s : State} {n : Fin 16} (h : (s.head n).link.d0 = none) : s.finishD0 n = (0, s) := by
  unfold State.finishD0
  rw [h]

/-- A position that holds no servo set-point has no ceiling to be held to (R157). -/
theorem State.clampServo_of_no_servo (s : State) (n : Fin 16) (l : List D0Slot) (h : ∀ x ∈ l, ∀ m, x ≠ .servo m) : s.clampServo n l = (l, s) := by
  induction l with
  | nil => rfl
  | cons x l ih =>
    obtain ⟨hx, hl⟩ := List.forall_mem_cons.mp h
    have hplace : s.clampPlace n x = (x, s) := by
      cases x with
      | servo m => exact absurd rfl (hx m)
      | idle => rfl
      | wdata symbols => rfl
      | msg m part => rfl
    unfold State.clampServo
    rw [hplace]
    dsimp only
    rw [ih hl]

/-- A frame has left on the line (R54, R58). -/
def State.frameSent (s : State) (n : Fin 16) (f : D0Frame) : State :=
  State.modLink { s with out := .d0 n.val f (s.head n).link.scram :: s.out } n fun l =>
    { l with d0 := none, scram := (f.line (s.head n).link.scram).2 }

theorem State.frameSent_head (s : State) (n : Fin 16) (f : D0Frame) : (s.frameSent n f).head n = { s.head n with
    link := { (s.head n).link with d0 := none, scram := (f.line (s.head n).link.scram).2 } } := State.head_modLink_self _ n _

theorem State.headsBut_frameSent (s : State) (n : Fin 16) (f : D0Frame) : HeadsBut n s (s.frameSent n f) := State.headsBut_modHead rfl _

/-- The SAFE of a frame that has left is held for a STAT (R73). -/
def State.safeHeld (s : State) (n : Fin 16) (frame : Nat) : State := s.modLink n fun l => { l with held := l.held ++ [⟨.safe, frame⟩] }

theorem State.safeHeld_head (s : State) (n : Fin 16) (frame : Nat) : (s.safeHeld n frame).head n =
    { s.head n with link := { (s.head n).link with held := (s.head n).link.held ++ [⟨.safe, frame⟩] } } := s.head_modLink_self n _

/-- A head with no front-end instruction has none that could note its frame (R234). -/
theorem Head.noteFe_of_none {h : Head} (hfe : h.fe = []) (m : Msg) (frame : Nat) : { h with fe := noteFe h.fe m frame } = h := by
  cases h
  dsimp only at hfe
  subst hfe
  rfl

theorem State.noteSent_safe {s : State} {n : Fin 16} (hfe : (s.head n).fe = []) (frame : Nat) :
    s.noteSent n frame .safe = s.safeHeld n frame := by
  unfold State.noteSent
  simp only [Msg.kept, Msg.asks, if_true, Bool.false_eq_true, if_false]
  exact State.modHead_eq_self (Head.noteFe_of_none (by rw [State.head_modLink_self]; exact hfe) _ _)

theorem State.finishD0_of_safe {s : State} {n : Fin 16} {f : D0Frame} (hd0 : (s.head n).link.d0 = some f)
    (hslots : f.slots = .msg .safe 0 :: List.replicate 23 .idle) (hfe : (s.head n).fe = []) :
    s.finishD0 n = (f.sum, (s.frameSent n f).safeHeld n f.frame) := by
  obtain ⟨frame, state, crc, slots⟩ := f
  dsimp only at hslots
  subst hslots
  have hnote := State.noteSent_safe (s := s.frameSent n ⟨frame, state, crc, .msg .safe 0 :: List.replicate 23 .idle⟩)
    (by rw [State.frameSent_head]; exact hfe) frame
  unfold State.finishD0
  rw [hd0]
  dsimp only
  rw [State.clampServo_of_no_servo _ _ _ (by simp), ← hnote]
  unfold State.frameSent
  rfl

/-! ## Launches -/

theorem d0FrameLaunch_idle (head : Fin 16) : Completes (.d0FrameLaunch head)
    (fun s => s.now % 48 = 0 ∧ (s.head head).link.state = .up ∧ (s.head head).pass = none ∧ (s.head head).link.training = none ∧
        (s.head head).link.servoQ = [] ∧ (s.head head).link.displaced = [] ∧ (s.head head).link.queue = [] ∧ (s.head head).link.d0 = none)
    [.events, .regs, .heads, .mem, .out]
    fun s t => (t.head head).link.d0 = some ⟨s.now / 48, 2, 0, List.replicate 24 .idle⟩ ∧ (t.head head).link.lastD0 = some (s.now / 48) ∧
        (t.head head).link.sent = s.now / 48 :: (s.head head).link.sent.take 31 ∧ (t.head head).link.queue = [] ∧ t.regs = s.regs ∧
        t.out = s.out ∧ HeadsBut head s t := by
  refine Completes.of_keeps (execD0FrameLaunch_keeps head) ?_
  rintro s - ⟨hnow, hup, hpass, htraining, hservo, hdisplaced, hqueue, hd0⟩
  have hquiet : Quiet s head := ⟨hup, hpass, htraining, hservo, hdisplaced, by simp [hqueue], by rw [hqueue]; rfl⟩
  refine ⟨_, exec_d0FrameLaunch hnow hup (State.finishD0_of_none hd0) hquiet, ?_, ?_, ?_, ?_, rfl, rfl, State.headsBut_modHead rfl _⟩
  · rw [State.frameBegun_link hquiet, hqueue]
    rfl
  all_goals rw [State.frameBegun, State.head_modLink_self]

theorem d0FrameLaunch_safe (head : Fin 16) : Completes (.d0FrameLaunch head)
    (fun s => s.now % 48 = 0 ∧ (s.head head).link.state = .up ∧ (s.head head).pass = none ∧ (s.head head).link.training = none ∧
        (s.head head).link.servoQ = [] ∧ (s.head head).link.displaced = [] ∧ (s.head head).link.queue.map (·.msg) = [.safe] ∧
        (s.head head).link.d0 = none)
    [.events, .regs, .heads, .mem, .out]
    fun s t => (t.head head).link.d0 = some ⟨s.now / 48, 2, 0, .msg .safe 0 :: List.replicate 23 .idle⟩ ∧ (t.head head).link.queue = [] ∧
        t.regs = s.regs ∧ t.out = s.out ∧ HeadsBut head s t := by
  refine Completes.of_keeps (execD0FrameLaunch_keeps head) ?_
  rintro s - ⟨hnow, hup, hpass, htraining, hservo, hdisplaced, hqueue, hd0⟩
  obtain ⟨q, hq, hsafe⟩ := List.map_eq_singleton_iff.mp hqueue
  have hquiet : Quiet s head := ⟨hup, hpass, htraining, hservo, hdisplaced, by simp [hq, hsafe], by rw [hq, takeMsgs, hsafe]; rfl⟩
  refine ⟨_, exec_d0FrameLaunch hnow hup (State.finishD0_of_none hd0) hquiet, ?_, ?_, rfl, rfl, State.headsBut_modHead rfl _⟩
  · rw [State.frameBegun_link hquiet, frameSlots, show (s.head head).link.queue.map QMsg.msg = [.safe] from hqueue]
    rfl
  · rw [State.frameBegun, State.head_modLink_self]

theorem d0FrameLaunch_leaves (head : Fin 16) (f : D0Frame) : Completes (.d0FrameLaunch head)
    (fun s => s.now % 48 = 0 ∧ (s.head head).link.state = .up ∧ (s.head head).pass = none ∧ (s.head head).link.training = none ∧
        (s.head head).link.servoQ = [] ∧ (s.head head).link.displaced = [] ∧ (s.head head).link.queue = [] ∧ (s.head head).fe = [] ∧
        (s.head head).link.d0 = some f ∧ f.slots = .msg .safe 0 :: List.replicate 23 .idle)
    [.events, .regs, .heads, .mem, .out]
    fun s t => t.out = .d0 head.val f (s.head head).link.scram :: s.out ∧ (t.head head).link.scram = (f.line (s.head head).link.scram).2 ∧
        (t.head head).link.d0 = some ⟨s.now / 48, 2, f.sum, List.replicate 24 .idle⟩ ∧
        (t.head head).link.held = (s.head head).link.held ++ [⟨.safe, f.frame⟩] ∧ t.regs = s.regs ∧ HeadsBut head s t := by
  refine Completes.of_keeps (execD0FrameLaunch_keeps head) ?_
  rintro s - ⟨hnow, hup, hpass, htraining, hservo, hdisplaced, hqueue, hfe, hd0, hslots⟩
  have hleft := (s.frameSent head f).safeHeld_head head f.frame
  rw [State.frameSent_head] at hleft
  have hquiet : Quiet ((s.frameSent head f).safeHeld head f.frame) head := by
    constructor <;> rw [hleft]
    · exact hup
    · exact hpass
    · exact htraining
    · exact hservo
    · exact hdisplaced
    · simp [hqueue]
    · rw [hqueue]
      rfl
  refine ⟨_, exec_d0FrameLaunch hnow hup (State.finishD0_of_safe hd0 hslots hfe) hquiet, rfl, ?_, ?_, ?_, rfl,
    ((s.headsBut_frameSent head f).modLink _).modLink _⟩
  · rw [State.frameBegun, State.head_modLink_self, hleft]
  · rw [State.frameBegun_link hquiet, hleft, hqueue]
    rfl
  · rw [State.frameBegun, State.head_modLink_self, hleft]

/-! ## Messages sent again (R73) -/

/-- What a link has of its messages once those of some frames are to be sent again. -/
theorem State.resend_link (s : State) (n : Fin 16) (frames : List Nat) : ((s.resend n frames).head n).link = { (s.head n).link with
    held := (s.head n).link.held.filter fun m => !frames.contains m.frame
    asks := (s.head n).link.asks.filter fun m => !frames.contains m.frame
    queue := ((s.head n).link.held.filter fun m => frames.contains m.frame).map (fun m => ⟨m.msg, s.now, true⟩) ++ (s.head n).link.queue } := by
  unfold State.resend
  extract_lets hit again forget u
  have hnow : u.now = s.now := congrArg TimeState.tb (s.modHead_time n _)
  rw [State.head_modLink_self, State.head_modHead_self, hnow]

theorem State.headsBut_resend (s : State) (n : Fin 16) (frames : List Nat) : HeadsBut n s (s.resend n frames) :=
  HeadsBut.modLink (State.headsBut_modHead rfl _) _

/-- The frames of messages that no STAT has covered are those eight launches back (R73); with none of them nothing changes. -/
theorem exec_messageResend {s : State} {head : Fin 16} {f : Nat} (hlast : (s.head head).link.lastD0 = some f) :
    exec (.messageResend head) s =
      .next (s.resend head (((s.head head).link.held.filter fun m => decide (m.frame + 8 ≤ f)).map (·.frame))) := by
  show execMessageResend head s = _
  unfold execMessageResend
  simp only [hlast]
  refine congrArg Host.Outcome.next ?_
  split
  next hnone => rw [List.isEmpty_iff.mp hnone, State.resend_nil]
  next => rfl

theorem messageResend_all (head : Fin 16) (f : Nat) : Completes (.messageResend head)
    (fun s => (s.head head).link.lastD0 = some f ∧ ∀ m ∈ (s.head head).link.held, m.frame + 8 ≤ f)
    [.heads]
    fun s t => (t.head head).link.held = [] ∧ (t.head head).link.lastD0 = some f ∧ (t.head head).link.queue =
          (s.head head).link.held.map (fun m => ⟨m.msg, s.now, true⟩) ++ (s.head head).link.queue ∧ HeadsBut head s t := by
  refine Completes.of_keeps (execMessageResend_keeps head) ?_
  rintro s - ⟨hlast, hold⟩
  have hexec := exec_messageResend hlast
  rw [List.filter_eq_self.mpr fun m hm => decide_eq_true (hold m hm)] at hexec
  have hheld : ∀ m ∈ (s.head head).link.held, ((s.head head).link.held.map (·.frame)).contains m.frame = true :=
    fun m hm => List.contains_iff_mem.mpr (List.mem_map_of_mem hm)
  refine ⟨_, hexec, ?_, ?_, ?_, s.headsBut_resend head _⟩ <;> rw [State.resend_link]
  · exact List.filter_eq_nil_iff.mpr fun m hm => by simp only [hheld m hm, Bool.not_true, Bool.false_eq_true, not_false_eq_true]
  · exact hlast
  · rw [List.filter_eq_self.mpr hheld]

theorem messageResend_none (head : Fin 16) (f : Nat) : Completes (.messageResend head)
    (fun s => (s.head head).link.lastD0 = some f ∧ ∀ m ∈ (s.head head).link.held, f < m.frame + 8)
    [.heads]
    fun s t => t = s := by
  refine Completes.of_keeps (execMessageResend_keeps head) ?_
  rintro s - ⟨hlast, hyoung⟩
  have hexec := exec_messageResend hlast
  rw [List.filter_eq_nil_iff.mpr fun m hm => by simpa using hyoung m hm, List.map_nil, State.resend_nil] at hexec
  exact ⟨s, hexec, rfl⟩

/-! ## A SAFE asked for (R370) -/

theorem feSafeRequest_queues (head : Fin 16) : Completes (.feSafeRequest head)
    (fun s => (s.head head).link.usable = true)
    [.heads]
    fun s t => (t.head head).link.queue = (s.head head).link.queue ++ [⟨.safe, s.now, false⟩] ∧ HeadsBut head s t := by
  refine Completes.of_keeps (execFeSafeRequest_keeps head) ?_
  rintro s - husable
  have hexec : exec (.feSafeRequest head) s = .next (s.modLink head fun l => { l with queue := l.queue ++ [⟨.safe, s.now, false⟩] }) := by
    have hstate : (s.head head).link.state = .up ∨ (s.head head).link.state = .degraded := by simpa [Link.usable] using husable
    have hsend : s.sendSafe head = s.sendMsg head .safe := by
      unfold State.sendSafe
      rcases hstate with h | h <;> rw [h]
    exact congrArg Host.Outcome.next (hsend.trans (if_pos husable))
  exact ⟨_, hexec, by rw [State.head_modLink_self], State.headsBut_modHead rfl _⟩

theorem feSafeRequest_waits (head : Fin 16) (tr : Training) : Completes (.feSafeRequest head)
    (fun s => (s.head head).link.state = .train ∧ (s.head head).link.training = some tr)
    [.heads]
    fun s t => (t.head head).link.training = some { tr with safe := true } ∧ (t.head head).link.queue = (s.head head).link.queue ∧ HeadsBut head s t := by
  refine Completes.of_keeps (execFeSafeRequest_keeps head) ?_
  rintro s - ⟨hstate, htr⟩
  have hexec : exec (.feSafeRequest head) s = .next (s.modLink head fun l => { l with training := l.training.map fun t => { t with safe := true } }) := by
    refine congrArg Host.Outcome.next ?_
    unfold State.sendSafe
    rw [hstate]
  refine ⟨_, hexec, ?_, ?_, State.headsBut_modHead rfl _⟩ <;> rw [State.head_modLink_self]
  rw [htr]
  rfl

theorem feSafeRequest_discards (head : Fin 16) : Completes (.feSafeRequest head)
    (fun s => (s.head head).link.state = .down)
    [.heads]
    fun s t => t = s := by
  refine Completes.of_keeps (execFeSafeRequest_keeps head) ?_
  rintro s - hstate
  refine ⟨s, congrArg Host.Outcome.next ?_, rfl⟩
  unfold State.sendSafe
  rw [hstate]

/-- Settles O23: the launches, the resends and the requests for a SAFE, one lemma each. -/
theorem downlinkFrames : Obligations.DownlinkFrames :=
  ⟨d0FrameLaunch_idle, d0FrameLaunch_safe, d0FrameLaunch_leaves, messageResend_all, messageResend_none, feSafeRequest_queues,
    feSafeRequest_waits, feSafeRequest_discards⟩

end Sys2Proof.Machine
end

section
/-!
PROOFS. The ingest buffer of a head (R111, R113): which sectors the withdrawal of one leaves, and the three marks. Settles O29.
-/

namespace Sys2Proof.Machine

/-! ## The sectors of the decode island, through the work of one outcome -/

theorem State.logDec_sectors (s : State) (code a0 a1 a2 a3 : Nat) : (s.logDec code a0 a1 a2 a3).decode.sectors = s.decode.sectors :=
  congrArg DecodeState.sectors (s.log_decode ..)

theorem State.outEpisode_sectors (s : State) : s.outEpisode.decode.sectors = s.decode.sectors := by
  unfold State.outEpisode
  split
  · exact State.logDec_sectors ..
  · split <;> rfl

theorem State.putRecord_sectors (s : State) (r : OutRecord) : (s.putRecord r).decode.sectors = s.decode.sectors := by
  unfold State.putRecord
  extract_lets i written moved noted
  have hwritten : written.decode.sectors = s.decode.sectors := congrArg DecodeState.sectors ((s.memWrite_keeps ..).frame .decode (by decide))
  have hnoted : noted.decode.sectors = s.decode.sectors := by
    unfold noted
    split <;> exact hwritten
  exact noted.outEpisode_sectors.trans hnoted

theorem State.emitRecord_sectors (s : State) (r : OutRecord) : (s.emitRecord r).decode.sectors = s.decode.sectors := by
  unfold State.emitRecord
  split
  · exact State.outEpisode_sectors _
  · exact s.putRecord_sectors r

theorem State.countIn_sectors (s : State) (head pass layer band k n : Nat) :
    (s.countIn head pass layer band k n).decode.sectors = s.decode.sectors := by
  unfold State.countIn
  split
  · rfl
  · exact congrArg DecodeState.sectors (State.bump_decode ..)

theorem State.deferGroup_sectors (s : State) (g : Group) : (s.deferGroup g).decode.sectors = s.decode.sectors :=
  (State.countIn_sectors ..).trans (State.emitRecord_sectors ..)

theorem State.closeGroup_sectors (s : State) (g : Group) (atHem : Bool) : (s.closeGroup g atHem).decode.sectors = s.decode.sectors := by
  unfold State.closeGroup
  extract_lets left closed
  split
  · rfl
  · split
    · exact State.deferGroup_sectors ..
    · split
      · exact (State.logDec_sectors ..).trans (State.deferGroup_sectors ..)
      · rfl

theorem State.memberOutcome_sectors (s : State) (head pass layer band grp i : Nat) (m : Member) :
    (s.memberOutcome head pass layer band grp i m).decode.sectors = s.decode.sectors := by
  unfold State.memberOutcome
  split
  · rfl
  · extract_lets same found g
    split
    · exact State.closeGroup_sectors ..
    · rfl

/-- With its outcome a sector leaves, and no other sector changes. -/
theorem State.finishSector_sectors (s : State) (x : Sector) (o : SecOutcome) (path data tag asm : Nat) (known : Bool) :
    (s.finishSector x o path data tag asm known).decode.sectors = s.decode.sectors.filter fun y => y.id ≠ x.id := by
  unfold State.finishSector
  extract_lets work bytes told out
  have hout : out.decode.sectors = s.decode.sectors := by
    unfold out
    split
    · exact State.emitRecord_sectors ..
    · exact (State.memberOutcome_sectors ..).trans (State.emitRecord_sectors ..)
  exact congrArg (List.filter fun y => decide (y.id ≠ x.id)) hout

theorem State.dropFromQueues_sectors (s : State) (ids : List Nat) : (s.dropFromQueues ids).decode.sectors = s.decode.sectors := by
  unfold State.dropFromQueues State.deepEpisode
  extract_lets keep
  split <;> rfl

theorem State.requeue_one_sectors (s : State) (n : Fin 16) (x : Sector) :
    (s.requeue n [x]).decode.sectors = s.decode.sectors.filter fun y => y.id ≠ x.id := by
  unfold State.requeue State.withdrawSectors
  exact (State.finishSector_sectors ..).trans (congrArg _ (State.dropFromQueues_sectors ..))

/-! ## The shed (R113) -/

/-- The sectors of head n in flight. -/
def State.inFlight (s : State) (n : Fin 16) : List Sector := s.decode.sectors.filter fun x => x.head == n.val && x.stage == .inFlight

/-- A choice between two elements, made all along a list, ends with one of its elements. -/
theorem foldl_choice_mem {α : Type} {f : α → α → α} (hf : ∀ a b, f a b = a ∨ f a b = b) (a : α) (l : List α) : l.foldl f a ∈ a :: l := by
  induction l generalizing a with
  | nil => exact List.mem_singleton_self a
  | cons b l ih =>
    have h := ih (f a b)
    rw [List.foldl_cons]
    rcases hf a b with e | e <;> rw [e] at h ⊢ <;> simp only [List.mem_cons] at h ⊢ <;> tauto

theorem State.shedOne_of_none {s : State} {n : Fin 16} (h : s.inFlight n = []) : s.shedOne n = s := by
  unfold State.inFlight at h
  unfold State.shedOne
  rw [h]

/-- A shed takes one sector of those in flight. -/
theorem State.shedOne_takes {s : State} {n : Fin 16} (h : s.inFlight n ≠ []) : ((s.shedOne n).inFlight n).length < (s.inFlight n).length := by
  obtain ⟨a, rest, hmine⟩ := List.exists_cons_of_ne_nil h
  have hone : ∃ x ∈ s.inFlight n, (s.shedOne n).decode.sectors = s.decode.sectors.filter fun y => y.id ≠ x.id := by
    rw [hmine]
    unfold State.inFlight at hmine
    unfold State.shedOne
    rw [hmine]
    dsimp only
    refine ⟨_, foldl_choice_mem (fun m y => ?_) a rest, (State.requeue_one_sectors ..).trans (congrArg _ (congrArg DecodeState.sectors ?_))⟩
    · split
      · exact .inr rfl
      · exact .inl rfl
    · exact (State.bump_decode ..).trans (State.log_decode ..)
  obtain ⟨x, hx, hleft⟩ := hone
  have hfilter : (s.shedOne n).inFlight n = (s.inFlight n).filter fun y => y.id ≠ x.id := by
    unfold State.inFlight
    rw [hleft, List.filter_comm]
  rw [hfilter]
  exact List.length_filter_lt_length_iff_exists.mpr ⟨x, hx, by simp⟩

/-- With fuel for every sector in flight the shed goes on until the buffer is below its mark or none is left. -/
theorem State.shedAll_ends (n : Fin 16) (k : Nat) (s : State) (hk : (s.inFlight n).length ≤ k) :
    ingestBytes (s.shedAll n k) n.val < shedMark ∨ (s.shedAll n k).inFlight n = [] := by
  induction k generalizing s with
  | zero => exact .inr (List.length_eq_zero_iff.mp (Nat.le_zero.mp hk))
  | succ k ih =>
    rw [State.shedAll]
    split
    next =>
      refine ih _ ?_
      by_cases hnone : s.inFlight n = []
      · rw [State.shedOne_of_none hnone, hnone]
        exact Nat.zero_le k
      · exact Nat.le_of_lt_succ ((State.shedOne_takes hnone).trans_le hk)
    next hbelow => exact .inl (Nat.not_le.mp hbelow)

theorem State.shedAll_of_below {s : State} {n : Fin 16} (h : ingestBytes s n.val < shedMark) (k : Nat) : s.shedAll n k = s := by
  cases k with
  | zero => rfl
  | succ k => exact if_neg (Nat.not_le.mpr h)

theorem ingestShed_sheds (head : Fin 16) : Completes (.ingestShed head)
    (fun s => 245760 ≤ ingestBytes s head.val)
    [.events, .regs, .heads, .decode, .mem, .out]
    fun _ t => ingestBytes t head.val < 245760 ∨ ∀ x ∈ t.decode.sectors, ¬ (x.head = head.val ∧ x.stage = .inFlight) := by
  refine Completes.of_keeps (execIngestShed_keeps head) fun s _ _ => ⟨_, rfl, ?_⟩
  refine (State.shedAll_ends head _ s (List.length_filter_le ..)).imp_right fun hnone x hx hmine => ?_
  have hin := List.filter_eq_nil_iff.mp hnone x hx
  simp [hmine] at hin

theorem ingestShed_below (head : Fin 16) : Completes (.ingestShed head)
    (fun s => ingestBytes s head.val < 245760)
    [.events, .regs, .heads, .decode, .mem, .out]
    fun s t => t = s :=
  Completes.of_keeps (execIngestShed_keeps head) fun _ _ hbelow => ⟨_, rfl, State.shedAll_of_below hbelow _⟩

/-! ## The stop of admission and the spill (R113) -/

theorem State.reopenAdmission_of_open {s : State} {n : Fin 16} (h : (s.head n).ingest.stopped = false) : s.reopenAdmission n = s :=
  if_neg (by simp [h])

theorem ingestAdmissionStop_stops (head : Fin 16) : Completes (.ingestAdmissionStop head)
    (fun s => 212992 ≤ ingestBytes s head.val ∧ (s.head head).ingest.stopped = false)
    [.events, .heads]
    fun s t => (t.head head).ingest.stopped = true ∧ t.events = (s.logHead head 0x1103 (ingestBytes s head.val / 1024)).events ∧ HeadsBut head s t := by
  refine Completes.of_keeps (execIngestAdmissionStop_keeps head) ?_
  rintro s - ⟨hfull, hopen⟩
  have hexec : exec (.ingestAdmissionStop head) s = .next
      ((s.modHead head fun h => { h with ingest := { h.ingest with stopped := true } }).logHead head 0x1103 (ingestBytes s head.val / 1024)) := by
    show execIngestAdmissionStop head s = _
    unfold execIngestAdmissionStop
    rw [State.reopenAdmission_of_open hopen]
    have hmark : stopMark ≤ ingestBytes s head.val := hfull
    exact when_of_true (by simp [hmark, hopen]) _ _
  refine ⟨_, hexec, ?_, State.logHead_events_congr (s := s) (State.modHead_events ..) (State.modHead_time ..) ..,
    (State.headsBut_modHead rfl _).of_heads (State.logHead_heads ..)⟩
  rw [State.head_congr (State.logHead_heads ..), State.head_modHead_self]

theorem State.reopenAdmission_of_below {s : State} {n : Fin 16} (h : ingestBytes s n.val < stopMark) :
    ((s.reopenAdmission n).head n).ingest.stopped = false := by
  unfold State.reopenAdmission
  split
  next => rw [State.head_modHead_self]
  next hkept => simpa [h] using hkept

theorem ingestAdmissionStop_below (head : Fin 16) : Completes (.ingestAdmissionStop head)
    (fun s => ingestBytes s head.val < 212992)
    [.events, .heads]
    fun s t => (t.head head).ingest.stopped = false ∧ t.events = s.events ∧ HeadsBut head s t := by
  refine Completes.of_keeps (execIngestAdmissionStop_keeps head) fun s _ hbelow => ?_
  have honly := s.reopenAdmission_only head
  have hbytes := ingestBytes_congr ((s.reopenAdmission_keeps head).frame .decode (by decide)) head.val
  have hexec : exec (.ingestAdmissionStop head) s = .next (s.reopenAdmission head) := by
    refine when_of_false ?_ _ _
    have hnot : ¬ stopMark ≤ ingestBytes (s.reopenAdmission head) head.val := Nat.not_le.mpr (hbytes.trans_lt hbelow)
    simp [hnot]
  exact ⟨_, hexec, State.reopenAdmission_of_below hbelow, honly.events, honly.others⟩

theorem State.sector_modSector_other (s : State) {id k : Nat} (f : Sector → Sector) (hf : ∀ x, (f x).id = x.id) (h : k ≠ id) :
    (s.modSector id f).sector k = s.sector k := by
  rw [s.sector_modSector id f hf]
  cases hk : s.sector k with
  | none => rfl
  | some y => rw [Option.map_some, if_neg (by rw [State.sector_id hk]; exact h)]

/-- One record more of a head lies in its spill area. -/
def Head.oneSpilled (h : Head) : Head := { h with ingest := { h.ingest with spilled := h.ingest.spilled + 1 } }

/-- A sector whose values lie in buffer memory. -/
def Sector.spilledTo (addr : Nat) (x : Sector) : Sector := { x with spilled := some addr, soft := [], channel := [] }

/-- A complete record goes to a place of the spill area. -/
def State.spillTo (s : State) (n : Fin 16) (x : Sector) (addr : Nat) : State :=
  ((s.memWrite 0 addr (recordHeader x ++ packSoft x.values)).modHead n Head.oneSpilled).modSector x.id (Sector.spilledTo addr)

theorem exec_ingestSpill_record {s : State} {head : Fin 16} {x : Sector} (hfull : spillMark ≤ ingestBytes s head.val)
    (hx : s.decode.sectors.find? (fun x => x.head == head.val && x.stage == .waiting && x.complete && x.spilled.isNone) = some x) :
    exec (.ingestSpill head) s = .next (s.spillTo head x (stagingPlace s head.val (s.head head).ingest.spilled)) := by
  show execIngestSpill head s = _
  unfold execIngestSpill
  rw [hx]
  exact when_of_true (decide_eq_true hfull) _ _

theorem ingestSpill_spills (head : Fin 16) (x : Sector) : Completes (.ingestSpill head)
    (fun s => 131072 ≤ ingestBytes s head.val ∧ s.sector x.id = some x ∧
        s.decode.sectors.find? (fun x => x.head == head.val && x.stage == .waiting && x.complete && x.spilled.isNone) = some x)
    [.events, .regs, .heads, .decode, .mem, .out]
    fun s t => t.sector x.id = some { x with spilled := some (stagingPlace s head.val (s.head head).ingest.spilled), soft := [], channel := [] } ∧
        (∀ k : Nat, k ≠ x.id → t.sector k = s.sector k) ∧ (t.head head).ingest.spilled = (s.head head).ingest.spilled + 1 ∧
        t.mem = (s.memWrite 0 (stagingPlace s head.val (s.head head).ingest.spilled) (recordHeader x ++ packSoft x.values)).mem ∧ HeadsBut head s t := by
  refine Completes.of_keeps (execIngestSpill_keeps head) ?_
  rintro s - ⟨hfull, hid, hfirst⟩
  refine ⟨_, exec_ingestSpill_record hfull hfirst, ?_⟩
  generalize stagingPlace s head.val (s.head head).ingest.spilled = addr
  have hwrite := s.memWrite_keeps 0 addr (recordHeader x ++ packSoft x.values)
  have hsame := State.sector_congr (hwrite.frame .decode (by decide))
  have hheads := hwrite.frame .heads (by decide)
  unfold State.spillTo
  generalize s.memWrite 0 addr (recordHeader x ++ packSoft x.values) = u at hsame hheads ⊢
  have hmoved (k : Nat) : (u.modHead head Head.oneSpilled).sector k = s.sector k := hsame k
  refine ⟨?_, fun k hk => ?_, ?_, rfl, State.headsBut_modHead (t := u) hheads Head.oneSpilled⟩
  · exact State.sector_modSector_self ((hmoved x.id).trans hid) (Sector.spilledTo addr) fun _ => rfl
  · exact (State.sector_modSector_other _ (Sector.spilledTo addr) (fun _ => rfl) hk).trans (hmoved k)
  · rw [← State.head_congr hheads head]
    exact congrArg (fun h : Head => h.ingest.spilled) (u.head_modHead_self head Head.oneSpilled)

theorem ingestSpill_below (head : Fin 16) : Completes (.ingestSpill head)
    (fun s => ingestBytes s head.val < 131072)
    [.events, .regs, .heads, .decode, .mem, .out]
    fun s t => t = s :=
  Completes.of_keeps (execIngestSpill_keeps head) fun s _ hbelow =>
    ⟨s, when_of_false (decide_eq_false (Nat.not_le.mpr hbelow)) _ _, rfl⟩

/-- Settles O29: the stop of admission, the spill and the shed, each at its mark and below it. -/
theorem ingestBuffer : Obligations.IngestBuffer :=
  ⟨ingestAdmissionStop_stops, ingestAdmissionStop_below, ingestSpill_spills, ingestSpill_below, ingestShed_sheds, ingestShed_below⟩

end Sys2Proof.Machine
end

section
/-!
PROOFS. Dropouts and the head's flag (R107 to R109). Settles O32.
-/

namespace Sys2Proof.Machine

/-! ## Counters, and one beam of many -/

theorem State.fld_bump_self (s : State) (k : Nat) (p : FieldPos) (v : Nat) (h : p.hi < 32) (h' : p.lo ≤ p.hi) :
    (s.bump k p v).fld k p = satAdd (2 ^ p.width - 1) (s.fld k p) v := by
  have hpos : 0 < 2 ^ p.width := Nat.two_pow_pos _
  rw [State.bump, State.fld_setFld_self _ _ _ _ h h', satAdd]
  exact Nat.mod_eq_of_lt (by omega)

theorem State.modBeam_flag (s : State) (n : Fin 16) (j : Fin 12) (f : Beam → Beam) : ((s.modBeam n j f).head n).flag = (s.head n).flag := by
  rw [State.modBeam, State.head_modHead_self]

theorem State.modBeam_pass (s : State) (n : Fin 16) (j : Fin 12) (f : Beam → Beam) : ((s.modBeam n j f).head n).pass = (s.head n).pass := by
  rw [State.modBeam, State.head_modHead_self]

/-! ## The flag (R109) -/

/-- The head's flag rises or falls, and the edge travels to the loop engine. -/
def State.moveFlag (s : State) (n : Fin 16) (flag : Option (Stamp × Nat)) (edge : LoopItem) : State :=
  (s.modHead n fun h => { h with flag := flag }).modLoopHead n fun h => { h with xing := h.xing ++ [edge] }

section Flag

variable (s : State) (n : Fin 16) (flag : Option (Stamp × Nat)) (edge : LoopItem)

@[simp] theorem State.moveFlag_events : (s.moveFlag n flag edge).events = s.events := rfl
@[simp] theorem State.moveFlag_reg (k : Nat) : (s.moveFlag n flag edge).reg k = s.reg k := rfl

theorem State.moveFlag_head : (s.moveFlag n flag edge).head n = { s.head n with flag := flag } :=
  (State.head_congr (State.modLoopHead_heads ..) n).trans (s.head_modHead_self n _)

theorem State.moveFlag_xing : ((s.moveFlag n flag edge).loopHead n).xing = (s.loopHead n).xing ++ [edge] :=
  congrArg LoopHead.xing (State.loopHead_modLoopHead_self (s.modHead n _) n _)

theorem State.headsBut_moveFlag : HeadsBut n s (s.moveFlag n flag edge) :=
  (State.headsBut_modHead rfl _).of_heads (State.modLoopHead_heads ..)

end Flag

/-! ## The start of a dropout (R107) -/

/-- A beam whose dropout starts at a stamp. -/
def Beam.enterDropout (stamp : Stamp) (b : Beam) : Beam :=
  { b.eraseFrom stamp true with dropout := some ⟨stamp⟩, guard := none, longDrop := false }

/-- A beam of a head goes into dropout and is counted. -/
def State.enterDropout (s : State) (n : Fin 16) (j : Fin 12) (stamp : Stamp) : State :=
  (s.modBeam n j (Beam.enterDropout stamp)).bump (R.HD_DROP_CNT n.val) F.HD_DROP_CNT_DROPOUTS 1

section EnterDropout

variable (s : State) (n : Fin 16) (j : Fin 12) (stamp : Stamp)

theorem State.enterDropout_head (m : Fin 16) : (s.enterDropout n j stamp).head m = (s.modBeam n j (Beam.enterDropout stamp)).head m :=
  State.head_congr (State.bump_heads ..) m

theorem State.enterDropout_loopHead (m : Fin 16) : (s.enterDropout n j stamp).loopHead m = s.loopHead m :=
  State.loopHead_congr ((State.bump_loop ..).trans (State.modBeam_loop ..)) m

theorem State.enterDropout_events : (s.enterDropout n j stamp).events = s.events := (State.bump_events ..).trans (State.modBeam_events ..)

theorem State.regsBut_enterDropout : RegsBut [R.HD_DROP_CNT n.val] s (s.enterDropout n j stamp) := fun k hk =>
  (State.regsBut_bump _ _ _ _ k hk).trans (State.modBeam_reg ..)

theorem State.enterDropout_counts : (s.enterDropout n j stamp).fld (R.HD_DROP_CNT n.val) F.HD_DROP_CNT_DROPOUTS =
    satAdd (2 ^ F.HD_DROP_CNT_DROPOUTS.width - 1) (s.fld (R.HD_DROP_CNT n.val) F.HD_DROP_CNT_DROPOUTS) 1 := by
  rw [State.enterDropout, State.fld_bump_self _ _ _ _ (by decide) (by decide), State.fld_congr (State.modBeam_reg ..)]

end EnterDropout

section Start

variable {s : State} {head : Fin 16} {beam : Fin 12} {stamp : Stamp} {cfg mask : Nat}

theorem exec_dropoutStart_first (hcfg : dropCfg s head = (cfg, mask)) (hout : (s.head head).beams[beam].dropout = none)
    (hlong : natBits cfg 3 0 ≤ ((s.head head).beams[beam].upTo stamp).length)
    (hbelow : belowThreshold (s.head head).beams[beam] (natBits cfg 3 0) (natBits cfg 10 5) ((s.head head).beams[beam].upTo stamp) = true)
    (hflag : (s.head head).flag = none) (hmask : testBitN mask beam.val = true) (hpass : (s.head head).pass = none)
    (hcome : sampleArrival s head beam.val stamp ≤ s.now) :
    ∃ m, exec (.dropoutStart head beam stamp) s = .next ((s.enterDropout head beam stamp).moveFlag head (some (stamp, m)) (.rise stamp)) := by
  have hflag' : ((s.enterDropout head beam stamp).head head).flag = none := by rw [State.enterDropout_head, State.modBeam_flag, hflag]
  have hpass' (f : Option (Stamp × Nat)) (e : LoopItem) : (((s.enterDropout head beam stamp).moveFlag head f e).head head).pass = none := by
    rw [State.moveFlag_head, State.enterDropout_head, State.modBeam_pass, hpass]
  refine ⟨(((List.finRange 12).filter fun j => (((s.enterDropout head beam stamp).head head).beams[j]).dropout.isSome).map fun j => 2 ^ j.val).sum, ?_⟩
  show execDropoutStart head beam stamp s = _
  unfold execDropoutStart
  dsimp only
  rw [hcfg]
  dsimp only
  rw [when_of_true (by rw [hout, decide_eq_true hlong, hbelow, decide_eq_true hcome]; rfl)]
  unfold State.enterDropout Beam.enterDropout State.moveFlag at *
  rw [hflag', if_pos hmask]
  dsimp only
  rw [hpass']

theorem exec_dropoutStart_in_dropout {d : Dropout} (hout : (s.head head).beams[beam].dropout = some d) :
    exec (.dropoutStart head beam stamp) s = .next s := by
  show execDropoutStart head beam stamp s = _
  unfold execDropoutStart
  dsimp only
  rw [hout]
  exact when_of_false rfl _ _

end Start

theorem dropoutStart_raises (head : Fin 16) (beam : Fin 12) (stamp : Stamp) (cfg mask : Nat) : Completes (.dropoutStart head beam stamp)
    (fun s => dropCfg s head = (cfg, mask) ∧ (s.head head).beams[beam].dropout = none ∧ (s.head head).beams[beam].sector = none ∧
        natBits cfg 3 0 ≤ ((s.head head).beams[beam].upTo stamp).length ∧
        belowThreshold (s.head head).beams[beam] (natBits cfg 3 0) (natBits cfg 10 5) ((s.head head).beams[beam].upTo stamp) = true ∧
        (s.head head).flag = none ∧ testBitN mask beam.val = true ∧ (s.head head).pass = none ∧ sampleArrival s head beam.val stamp ≤ s.now)
    [.events, .regs, .heads, .decode, .loop, .mem, .out]
    fun s t => (t.head head).beams[beam].dropout = some ⟨stamp⟩ ∧ ((t.head head).flag.map (·.1)) = some stamp ∧
        (t.loopHead head).xing = (s.loopHead head).xing ++ [.rise stamp] ∧
        t.fld (R.HD_DROP_CNT head.val) F.HD_DROP_CNT_DROPOUTS = satAdd (2 ^ F.HD_DROP_CNT_DROPOUTS.width - 1)
          (s.fld (R.HD_DROP_CNT head.val) F.HD_DROP_CNT_DROPOUTS) 1 ∧ RegsBut [R.HD_DROP_CNT head.val] s t ∧ t.events = s.events ∧ HeadsBut head s t := by
  refine Completes.of_keeps (execDropoutStart_keeps head beam stamp) ?_
  rintro s - ⟨hcfg, hout, -, hlong, hbelow, hflag, hmask, hpass, hcome⟩
  obtain ⟨m, hexec⟩ := exec_dropoutStart_first hcfg hout hlong hbelow hflag hmask hpass hcome
  refine ⟨_, hexec, ?_, ?_, ?_, ?_, fun k hk => ?_, ?_, fun k hk => ?_⟩
  · rw [State.moveFlag_head, State.enterDropout_head]
    exact congrArg Beam.dropout (s.beam_modBeam_self head beam (Beam.enterDropout stamp))
  · rw [State.moveFlag_head, Option.map_some]
  · rw [State.moveFlag_xing, State.enterDropout_loopHead]
  · rw [State.fld_congr (State.moveFlag_reg ..), State.enterDropout_counts]
  · rw [State.moveFlag_reg, s.regsBut_enterDropout head beam stamp k hk]
  · rw [State.moveFlag_events, State.enterDropout_events]
  · rw [State.headsBut_moveFlag _ _ _ _ k hk, State.enterDropout_head]
    exact s.headsBut_modBeam head beam _ k hk

theorem dropoutStart_stays (head : Fin 16) (beam : Fin 12) (stamp : Stamp) (d : Dropout) : Completes (.dropoutStart head beam stamp)
    (fun s => (s.head head).beams[beam].dropout = some d)
    [.events, .regs, .heads, .decode, .loop, .mem, .out]
    fun s t => t = s :=
  Completes.of_keeps (execDropoutStart_keeps head beam stamp) fun s _ hout => ⟨s, exec_dropoutStart_in_dropout hout, rfl⟩

/-! ## The end of a dropout and of its guard (R108) -/

/-- A beam whose dropout, from a start on, ends at a stamp. -/
def Beam.leaveDropout (start e : Stamp) (b : Beam) : Beam :=
  { b.eraseFrom e false with dropout := none, guard := some e, longDrop := decide (b.ticksOf 64 < e - start) }

/-- The last beam of a head leaves its dropout at a stamp, and the flag falls. -/
def State.lastDropoutEnds (s : State) (n : Fin 16) (j : Fin 12) (start e : Stamp) (rise m : Nat) : State :=
  ((s.modBeam n j (Beam.leaveDropout start e)).moveFlag n none (.fall e)).logHead n 0x1104 (rise % 2 ^ 32) (e % 2 ^ 32) m

section LastEnd

variable (s : State) (n : Fin 16) (j : Fin 12) (start e : Stamp) (rise m : Nat)

theorem State.lastDropoutEnds_head :
    (s.lastDropoutEnds n j start e rise m).head n = { (s.modBeam n j (Beam.leaveDropout start e)).head n with flag := none } :=
  (State.head_congr (State.logHead_heads ..) n).trans (State.moveFlag_head ..)

theorem State.headsBut_lastDropoutEnds : HeadsBut n s (s.lastDropoutEnds n j start e rise m) := fun k hk =>
  ((State.head_congr (State.logHead_heads ..) k).trans (State.headsBut_moveFlag _ _ _ _ k hk)).trans (s.headsBut_modBeam n j _ k hk)

theorem State.lastDropoutEnds_xing : ((s.lastDropoutEnds n j start e rise m).loopHead n).xing = (s.loopHead n).xing ++ [.fall e] :=
  (congrArg LoopHead.xing (State.loopHead_congr (State.log_loop ..) n)).trans (State.moveFlag_xing ..)

theorem State.lastDropoutEnds_events :
    (s.lastDropoutEnds n j start e rise m).events = (s.logHead n 0x1104 (rise % 2 ^ 32) (e % 2 ^ 32) m).events :=
  State.logHead_events_congr (s := s) (t := (s.modBeam n j (Beam.leaveDropout start e)).moveFlag n none (.fall e)) rfl rfl ..

end LastEnd

theorem exec_dropoutEnd_last {s : State} {head : Fin 16} {beam : Fin 12} {stamp : Stamp} {d : Dropout} {cfg mask rise m : Nat}
    (hcfg : dropCfg s head = (cfg, mask)) (hin : (s.head head).beams[beam].dropout = some d)
    (hlong : natBits cfg 23 17 + natBits cfg 3 0 ≤ ((s.head head).beams[beam].upTo stamp).length + 1) (hrun : d.start + natBits cfg 23 17 ≤ stamp + 1)
    (hclear : ∀ k ∈ List.range (natBits cfg 23 17), belowThreshold (s.head head).beams[beam] (natBits cfg 3 0) (natBits cfg 16 11)
      (((s.head head).beams[beam].upTo stamp).drop k) = false)
    (hcome : sampleArrival s head beam.val stamp ≤ s.now) (hflag : (s.head head).flag = some (rise, m)) (hmask : testBitN mask beam.val = true)
    (hlast : ∀ j : Fin 12, j ≠ beam → (s.head head).beams[j].dropout = none) :
    exec (.dropoutEnd head beam stamp) s = .next (s.lastDropoutEnds head beam d.start (stamp + 1) rise m) := by
  have hflag' := (s.modBeam_flag head beam (Beam.leaveDropout d.start (stamp + 1))).trans hflag
  have hnone : ((List.finRange 12).any fun j => testBitN mask j.val &&
      (((s.modBeam head beam (Beam.leaveDropout d.start (stamp + 1))).head head).beams[j]).dropout.isSome) = false := by
    refine List.any_eq_false.mpr fun j _ => ?_
    by_cases hj : j = beam
    · rw [hj, State.beam_modBeam_self]
      simp [Beam.leaveDropout]
    · rw [State.beam_modBeam_other _ _ hj, hlast j hj]
      simp
  show execDropoutEnd head beam stamp s = _
  unfold execDropoutEnd
  dsimp only
  rw [hcfg]
  dsimp only
  rw [hin]
  dsimp only
  rw [when_of_true]
  · unfold State.lastDropoutEnds State.moveFlag Beam.leaveDropout at *
    rw [hflag', hnone, hmask]
    rfl
  · simp only [Bool.and_eq_true, decide_eq_true_eq, List.all_eq_true]
    exact ⟨⟨⟨hlong, fun k hk => by rw [hclear k hk]; rfl⟩, hrun⟩, hcome⟩

theorem dropoutEnd_falls (head : Fin 16) (beam : Fin 12) (stamp : Stamp) (d : Dropout) (cfg mask rise m : Nat) :
    Completes (.dropoutEnd head beam stamp)
    (fun s => dropCfg s head = (cfg, mask) ∧ (s.head head).beams[beam].dropout = some d ∧
        natBits cfg 23 17 + natBits cfg 3 0 ≤ ((s.head head).beams[beam].upTo stamp).length + 1 ∧ d.start + natBits cfg 23 17 ≤ stamp + 1 ∧
        (∀ k ∈ List.range (natBits cfg 23 17), belowThreshold (s.head head).beams[beam] (natBits cfg 3 0) (natBits cfg 16 11)
          (((s.head head).beams[beam].upTo stamp).drop k) = false) ∧
        sampleArrival s head beam.val stamp ≤ s.now ∧ (s.head head).flag = some (rise, m) ∧ testBitN mask beam.val = true ∧
        (∀ j : Fin 12, j ≠ beam → (s.head head).beams[j].dropout = none))
    [.events, .heads, .loop]
    fun s t => (t.head head).beams[beam].dropout = none ∧ (t.head head).beams[beam].guard = some (stamp + 1) ∧ (t.head head).flag = none ∧
        (t.loopHead head).xing = (s.loopHead head).xing ++ [.fall (stamp + 1)] ∧
        t.events = (s.logHead head 0x1104 (rise % 2 ^ 32) ((stamp + 1) % 2 ^ 32) m).events ∧ HeadsBut head s t := by
  refine Completes.of_keeps (execDropoutEnd_keeps head beam stamp) ?_
  rintro s - ⟨hcfg, hin, hlong, hrun, hclear, hcome, hflag, hmask, hlast⟩
  have hbeam := s.beam_modBeam_self head beam (Beam.leaveDropout d.start (stamp + 1))
  refine ⟨_, exec_dropoutEnd_last hcfg hin hlong hrun hclear hcome hflag hmask hlast, ?_, ?_, ?_, State.lastDropoutEnds_xing ..,
    State.lastDropoutEnds_events .., s.headsBut_lastDropoutEnds _ _ _ _ _ _⟩ <;> rw [State.lastDropoutEnds_head]
  · exact congrArg Beam.dropout hbeam
  · exact congrArg Beam.guard hbeam

/-- A beam whose guard is over. -/
def Beam.endGuard (b : Beam) : Beam := { b with guard := none, acqBits := if b.longDrop then 64 else b.acqBits, longDrop := false }

theorem exec_dropoutGuardEnd_due {s : State} {head : Fin 16} {beam : Fin 12} {e : Stamp} (hguard : (s.head head).beams[beam].guard = some e)
    (hdue : e + (s.head head).beams[beam].ticksOf (natBits (dropCfg s head).1 31 24) + (s.head head).link.presDelay ≤ s.now) :
    exec (.dropoutGuardEnd head beam) s = .next (s.modBeam head beam Beam.endGuard) := by
  show execDropoutGuardEnd head beam s = _
  unfold execDropoutGuardEnd
  dsimp only
  rw [hguard]
  exact when_of_true (decide_eq_true hdue) _ _

theorem dropoutGuardEnd_ends (head : Fin 16) (beam : Fin 12) (e : Stamp) : Completes (.dropoutGuardEnd head beam)
    (fun s => (s.head head).beams[beam].guard = some e ∧
        e + (s.head head).beams[beam].ticksOf (natBits (dropCfg s head).1 31 24) + (s.head head).link.presDelay ≤ s.now)
    [.heads]
    fun s t => (t.head head).beams[beam].guard = none ∧ (t.head head).beams[beam].longDrop = false ∧
        (t.head head).beams[beam].acqBits = (if (s.head head).beams[beam].longDrop then 64 else (s.head head).beams[beam].acqBits) ∧ HeadsBut head s t := by
  refine Completes.of_keeps (execDropoutGuardEnd_keeps head beam) ?_
  rintro s - ⟨hguard, hdue⟩
  refine ⟨_, exec_dropoutGuardEnd_due hguard hdue, ?_⟩
  rw [State.beam_modBeam_self]
  exact ⟨rfl, rfl, rfl, s.headsBut_modBeam head beam Beam.endGuard⟩

/-- Settles O32: the start of a dropout, its end and the end of its guard, one lemma per outcome. -/
theorem dropouts : Obligations.Dropouts := ⟨dropoutStart_raises, dropoutStart_stays, dropoutEnd_falls, dropoutGuardEnd_ends⟩

end Sys2Proof.Machine
end

section
/-!
PROOFS. The test of an interval, unpicks and replays (R99 to R103). Settles O31.
-/

namespace Sys2Proof.Machine

/-! ## The interval test (R99) -/

@[simp] theorem State.modSector_head (s : State) (id : Nat) (f : Sector → Sector) (n : Fin 16) : (s.modSector id f).head n = s.head n :=
  State.head_congr (State.modDec_heads ..) n

theorem State.modBeam_replayQ (s : State) (n : Fin 16) (j : Fin 12) (f : Beam → Beam) :
    ((s.modBeam n j f).head n).replayQ = (s.head n).replayQ := by
  rw [State.modBeam, State.head_modHead_self]

/-- An interval that has passed with its values. -/
def Interval.settle (soft : List (Option Int)) (drops : List Nat) (i : Interval) : Interval := { i with fate := .passed, soft := soft, drops := drops }

/-- The settled interval i of a beam passes for the time being: its bits are noted in its sector, its values in the beam. -/
def State.settleInterval (s : State) (n : Fin 16) (j : Fin 12) (scale : Nat) (i : Interval) : State :=
  (s.modSector i.sector (noteBits (s.head n).beams[j] i)).modBeam n j fun b =>
    b.modInterval i.first (Interval.settle (intervalSoft (s.head n).beams[j] scale i) (dropsOf (s.head n).beams[j] i))

section Settle

variable (s : State) (n : Fin 16) (j : Fin 12) (scale : Nat) (i : Interval)

theorem State.settleInterval_beam : ((s.settleInterval n j scale i).head n).beams[j] = (s.head n).beams[j].modInterval i.first
    (Interval.settle (intervalSoft (s.head n).beams[j] scale i) (dropsOf (s.head n).beams[j] i)) :=
  State.beam_modBeam_self (s.modSector i.sector (noteBits (s.head n).beams[j] i)) n j _

theorem State.settleInterval_replayQ : ((s.settleInterval n j scale i).head n).replayQ = (s.head n).replayQ :=
  State.modBeam_replayQ (s.modSector i.sector (noteBits (s.head n).beams[j] i)) n j _

theorem State.headsBut_settleInterval : HeadsBut n s (s.settleInterval n j scale i) :=
  State.headsBut_modBeam (s.modSector i.sector (noteBits (s.head n).beams[j] i)) n j _

theorem State.settleInterval_regs : (s.settleInterval n j scale i).regs = s.regs :=
  State.modBeam_regs (s.modSector i.sector (noteBits (s.head n).beams[j] i)) n j _

end Settle

section Test

variable {s : State} {head : Fin 16} {beam : Fin 12} {p : Pass} {i : Interval} (hpass : (s.head head).pass = some p)
  (hi : (s.head head).beams[beam].intervals.find? (fun i => i.fate == .live || (i.fate == .passed && i.forced)) = some i)
  (hsettled : (s.head head).beams[beam].settledFor i = true)

include hpass hi hsettled

/-- The test of a settled interval: an unpick where it is forced or disagrees, a clamp that is counted, or its pass. -/
theorem exec_unpickTest_settled :
    let soft := intervalSoft (s.head head).beams[beam] (natBits p.cfg.ch 15 8) i
    let test := intervalTest (s.head head).beams[beam] i soft
    let settled := s.settleInterval head beam (natBits p.cfg.ch 15 8) i
    exec (.unpickTest head beam) s = .next
      (if i.forced ∨ (natBits p.cfg.unpick 17 8 ≤ test.1 ∧ natBits p.cfg.unpick 7 0 * test.1 < test.2 * 256) then
        settled.unpick head beam p { i with soft := soft }
      else if i.clamped then settled.bump (R.HD_CLAMP_CNT head.val) F.HD_CLAMP_CNT_CLAMP 1
      else settled) := by
  intro soft test settled
  show execUnpickTest head beam s = _
  unfold execUnpickTest
  dsimp only
  rw [hpass, hi]
  dsimp only
  rw [hsettled]
  exact when_of_true rfl _ _

theorem exec_unpickTest_passes (hclamped : i.clamped = false) (hforced : i.forced = false)
    (hagree : (intervalTest (s.head head).beams[beam] i (intervalSoft (s.head head).beams[beam] (natBits p.cfg.ch 15 8) i)).2 = 0) :
    exec (.unpickTest head beam) s = .next (s.settleInterval head beam (natBits p.cfg.ch 15 8) i) := by
  rw [exec_unpickTest_settled hpass hi hsettled, if_neg (by rw [hagree]; simp [hforced]), if_neg (by simp [hclamped])]

theorem exec_unpickTest_forced (hforced : i.forced = true) :
    exec (.unpickTest head beam) s = .next ((s.settleInterval head beam (natBits p.cfg.ch 15 8) i).unpick head beam p
      { i with soft := intervalSoft (s.head head).beams[beam] (natBits p.cfg.ch 15 8) i }) := by
  rw [exec_unpickTest_settled hpass hi hsettled, if_pos (.inl hforced)]

end Test

theorem unpickTest_passes (head : Fin 16) (beam : Fin 12) (p : Pass) (i : Interval) : Completes (.unpickTest head beam)
    (fun s => (s.head head).pass = some p ∧ (s.head head).beams[beam].intervals.find? (fun i => i.fate == .live || (i.fate == .passed && i.forced)) = some i ∧
        (s.head head).beams[beam].settledFor i = true ∧ i.clamped = false ∧ i.forced = false ∧
        (intervalTest (s.head head).beams[beam] i (intervalSoft (s.head head).beams[beam] (natBits p.cfg.ch 15 8) i)).2 = 0)
    [.regs, .heads, .decode]
    fun s t => (t.head head).beams[beam] = (s.head head).beams[beam].modInterval i.first (fun v =>
          { v with fate := .passed, soft := intervalSoft (s.head head).beams[beam] (natBits p.cfg.ch 15 8) i,
                   drops := dropsOf (s.head head).beams[beam] i }) ∧
        t.regs = s.regs ∧ t.decode = (s.modSector i.sector (noteBits (s.head head).beams[beam] i)).decode ∧ HeadsBut head s t := by
  refine Completes.of_keeps (execUnpickTest_keeps head beam) ?_
  rintro s - ⟨hpass, hi, hsettled, hclamped, hforced, hagree⟩
  exact ⟨_, exec_unpickTest_passes hpass hi hsettled hclamped hforced hagree,
    s.settleInterval_beam head beam _ i, s.settleInterval_regs head beam _ i, rfl, s.headsBut_settleInterval head beam _ i⟩

/-! ## The unpick (R100) -/

theorem Beam.pending_settle {b : Beam} (h : b.pending = false) (first : Nat) (soft : List (Option Int)) (drops : List Nat) :
    (b.modInterval first (Interval.settle soft drops)).pending = false := by
  unfold Beam.pending at h ⊢
  refine List.any_eq_false.mpr fun v hv => ?_
  obtain ⟨u, hu, rfl⟩ := List.mem_map.mp hv
  split
  · exact Bool.false_ne_true
  · exact List.any_eq_false.mp h u hu

/-- An entry of the replay queue stays before r: decided earlier, or at once on a beam no higher. -/
def Replay.staysBefore (r x : Replay) : Bool := x.decided < r.decided || (x.decided == r.decided && x.beam ≤ r.beam)

/-- An entry joins the replay queue behind those that stay before it. -/
def joinQueue (r : Replay) (q : List Replay) : List Replay := q.filter r.staysBefore ++ [r] ++ q.filter fun x => !r.staysBefore x

theorem joinQueue_length (r : Replay) (q : List Replay) : (joinQueue r q).length = q.length + 1 := by
  have h := List.length_eq_length_filter_add (l := q) r.staysBefore
  rw [joinQueue, List.length_append, List.length_append, List.length_singleton]
  omega

/-- The interval waits for its replay. -/
def Interval.queue (i : Interval) : Interval := { i with fate := .queued }

/-- An entry joins the replay queue of head n, and its interval on beam j waits. -/
def State.queueReplay (s : State) (n : Fin 16) (j : Fin 12) (first : Nat) (r : Replay) : State :=
  (s.modHead n fun h => { h with replayQ := joinQueue r h.replayQ }).modBeam n j fun b => b.modInterval first Interval.queue

/-- What an unpick makes of the counters and of its sector's record. -/
def State.countUnpick (s : State) (n : Fin 16) (i : Interval) : State :=
  let s := s.bump (R.HD_UNPICK_CNT n.val) F.HD_UNPICK_CNT_UNPICKED 1
  let s := if i.forced then s.bump (R.HD_DROP_CNT n.val) F.HD_DROP_CNT_FORCED 1 else s
  s.modSector i.sector fun x => { x with info := { x.info with forced := if i.forced then min 127 (x.info.forced + 1) else x.info.forced } }

/-- A beam freezes, and goes back to an interval's checkpoint unless another interval waits. -/
def Beam.restore (i : Interval) (b : Beam) : Beam :=
  if b.pending then { b with frozen := true, thaw := false }
  else { b with adapt := { i.checkpoint with decM := b.adapt.decM }, lastCheck := i.checkpoint, frozen := true, thaw := false }

section Unpick

variable (s : State) (n : Fin 16) (j : Fin 12) (i : Interval)

theorem State.countUnpick_heads : (s.countUnpick n i).heads = s.heads := by
  unfold State.countUnpick
  extract_lets counted forced
  show forced.heads = _
  unfold forced
  split
  · exact (State.bump_heads ..).trans (State.bump_heads ..)
  · exact State.bump_heads ..

theorem State.countUnpick_regsBut : RegsBut [R.HD_UNPICK_CNT n.val, R.HD_DROP_CNT n.val] s (s.countUnpick n i) := by
  unfold State.countUnpick
  extract_lets counted forced
  have hcounted : RegsBut [R.HD_UNPICK_CNT n.val, R.HD_DROP_CNT n.val] s counted := (s.regsBut_bump _ _ _).mono (by simp)
  show RegsBut _ s forced
  unfold forced
  split
  · exact hcounted.trans ((counted.regsBut_bump _ _ _).mono (by simp))
  · exact hcounted

theorem State.countUnpick_counts : (s.countUnpick n i).fld (R.HD_UNPICK_CNT n.val) F.HD_UNPICK_CNT_UNPICKED =
    satAdd (2 ^ F.HD_UNPICK_CNT_UNPICKED.width - 1) (s.fld (R.HD_UNPICK_CNT n.val) F.HD_UNPICK_CNT_UNPICKED) 1 := by
  have hkey : R.HD_UNPICK_CNT n.val ≠ R.HD_DROP_CNT n.val := by unfold R.HD_UNPICK_CNT R.HD_DROP_CNT; omega
  unfold State.countUnpick
  extract_lets counted forced
  have hcounted := s.fld_bump_self (R.HD_UNPICK_CNT n.val) F.HD_UNPICK_CNT_UNPICKED 1 (by decide) (by decide)
  show forced.fld _ _ = _
  unfold forced
  split
  · exact (State.fld_setFld_key _ _ _ _ hkey).trans hcounted
  · exact hcounted

theorem State.queueReplay_beam (first : Nat) (r : Replay) :
    ((s.queueReplay n j first r).head n).beams[j] = (s.head n).beams[j].modInterval first Interval.queue := by
  rw [State.queueReplay, State.beam_modBeam_self, State.head_modHead_self]

theorem State.queueReplay_replayQ (first : Nat) (r : Replay) :
    ((s.queueReplay n j first r).head n).replayQ = joinQueue r (s.head n).replayQ := by
  rw [State.queueReplay, State.modBeam, State.head_modHead_self, State.head_modHead_self]

@[simp] theorem State.queueReplay_reg (first : Nat) (r : Replay) (k : Nat) : (s.queueReplay n j first r).reg k = s.reg k := rfl

theorem State.headsBut_queueReplay (first : Nat) (r : Replay) : HeadsBut n s (s.queueReplay n j first r) :=
  (State.headsBut_modHead rfl _).modHead _

theorem Beam.restore_of_none {b : Beam} (h : b.pending = false) : b.restore i =
    { b with adapt := { i.checkpoint with decM := b.adapt.decM }, lastCheck := i.checkpoint, frozen := true, thaw := false } :=
  if_neg (by simp [h])

variable {s n j}

/-- With room in the replay queue an unpick is counted, restores the beam and queues the interval. -/
theorem State.unpick_queues (p : Pass) (hroom : (s.head n).replayQ.length < 4) :
    ∃ r, s.unpick n j p i = ((s.countUnpick n i).modBeam n j (Beam.restore i)).queueReplay n j i.first r := by
  have hlen : (((s.countUnpick n i).modBeam n j (Beam.restore i)).head n).replayQ.length < 4 := by
    rw [State.modBeam_replayQ, State.head_congr (s.countUnpick_heads n i)]
    exact hroom
  exact ⟨_, if_neg fun h => absurd h.2 (Nat.not_le.mpr hlen)⟩

/-- What an unpick leaves where no other interval of the beam waits and the replay queue has room. -/
theorem State.unpick_leaves (p : Pass) (hroom : (s.head n).replayQ.length < 4) (hnone : (s.head n).beams[j].pending = false) :
    ((s.unpick n j p i).head n).beams[j].frozen = true ∧
      ((s.unpick n j p i).head n).beams[j].adapt = { i.checkpoint with decM := (s.head n).beams[j].adapt.decM } ∧
      ((s.unpick n j p i).head n).replayQ.length = (s.head n).replayQ.length + 1 ∧
      (s.unpick n j p i).fld (R.HD_UNPICK_CNT n.val) F.HD_UNPICK_CNT_UNPICKED =
        satAdd (2 ^ F.HD_UNPICK_CNT_UNPICKED.width - 1) (s.fld (R.HD_UNPICK_CNT n.val) F.HD_UNPICK_CNT_UNPICKED) 1 ∧
      RegsBut [R.HD_UNPICK_CNT n.val, R.HD_DROP_CNT n.val] s (s.unpick n j p i) ∧ HeadsBut n s (s.unpick n j p i) := by
  obtain ⟨r, hunpick⟩ := State.unpick_queues (j := j) i p hroom
  have hhead := State.head_congr (s.countUnpick_heads n i)
  have hbeam : ((s.unpick n j p i).head n).beams[j] = ((s.head n).beams[j].restore i).modInterval i.first Interval.queue := by
    rw [hunpick, State.queueReplay_beam, State.beam_modBeam_self, hhead]
  rw [Beam.restore_of_none i hnone] at hbeam
  have hreg (k : Nat) : (s.unpick n j p i).reg k = (s.countUnpick n i).reg k := by rw [hunpick, State.queueReplay_reg, State.modBeam_reg]
  refine ⟨congrArg Beam.frozen hbeam, congrArg Beam.adapt hbeam, ?_, ?_, fun k hk => ?_, ?_⟩
  · rw [hunpick, State.queueReplay_replayQ, joinQueue_length, State.modBeam_replayQ, hhead]
  · rw [State.fld_congr (hreg _), State.countUnpick_counts]
  · rw [hreg, s.countUnpick_regsBut n i k hk]
  · rw [hunpick]
    exact fun m hm => ((State.headsBut_queueReplay _ n j i.first r m hm).trans (State.headsBut_modBeam _ n j _ m hm)).trans (hhead m)

end Unpick

theorem unpickTest_unpicks (head : Fin 16) (beam : Fin 12) (p : Pass) (i : Interval) : Completes (.unpickTest head beam)
    (fun s => (s.head head).pass = some p ∧ (s.head head).beams[beam].intervals.find? (fun i => i.fate == .live || (i.fate == .passed && i.forced)) = some i ∧
        (s.head head).beams[beam].settledFor i = true ∧ i.forced = true ∧ (s.head head).beams[beam].pending = false ∧
        (s.head head).replayQ.length < 4)
    [.regs, .heads, .decode]
    fun s t => (t.head head).beams[beam].frozen = true ∧
        (t.head head).beams[beam].adapt = { i.checkpoint with decM := (s.head head).beams[beam].adapt.decM } ∧
        (t.head head).replayQ.length = (s.head head).replayQ.length + 1 ∧
        t.fld (R.HD_UNPICK_CNT head.val) F.HD_UNPICK_CNT_UNPICKED = satAdd (2 ^ F.HD_UNPICK_CNT_UNPICKED.width - 1)
          (s.fld (R.HD_UNPICK_CNT head.val) F.HD_UNPICK_CNT_UNPICKED) 1 ∧
        RegsBut [R.HD_UNPICK_CNT head.val, R.HD_DROP_CNT head.val] s t ∧ HeadsBut head s t := by
  refine Completes.of_keeps (execUnpickTest_keeps head beam) ?_
  rintro s - ⟨hpass, hi, hsettled, hforced, hpending, hroom⟩
  have hpending' := (congrArg Beam.pending (s.settleInterval_beam head beam (natBits p.cfg.ch 15 8) i)).trans (Beam.pending_settle hpending ..)
  have hadapt := congrArg Beam.adapt (s.settleInterval_beam head beam (natBits p.cfg.ch 15 8) i)
  have hqueue := s.settleInterval_replayQ head beam (natBits p.cfg.ch 15 8) i
  have hregs := s.settleInterval_regs head beam (natBits p.cfg.ch 15 8) i
  obtain ⟨hfrozen, hback, hjoined, hcount, hregsBut, hothers⟩ := State.unpick_leaves
    { i with soft := intervalSoft (s.head head).beams[beam] (natBits p.cfg.ch 15 8) i } p (hqueue ▸ hroom) hpending'
  refine ⟨_, exec_unpickTest_forced hpass hi hsettled hforced, hfrozen, ?_, ?_, ?_, ?_, fun m hm => ?_⟩
  · rw [hback, hadapt]
    rfl
  · rw [hjoined, hqueue]
  · rw [hcount, State.fld_congr (regsBut_of_regs_eq (ks := []) hregs _ (List.not_mem_nil))]
  · exact (regsBut_of_regs_eq hregs).trans hregsBut
  · rw [hothers m hm, s.headsBut_settleInterval head beam _ i m hm]

/-! ## Replays (R101, R102) -/

/-- The ticks of a replay of an interval (R102). -/
def replayTicks (b : Beam) (i : Interval) : Nat := 32 + ceilDiv ((i.len + 128) * b.nominal) (2 * 2 ^ 32)

/-- The lane that runs the replay of interval i of a beam b for an entry of the queue of head n. -/
def replayLane (s : State) (n : Fin 16) (r : Replay) (b : Beam) (i : Interval) : ReplayLane :=
  let run := runReplay (replayInput s n r.beam b i)
  { job := r, ends := s.now + replayTicks b i, adapt := run.adapt, soft := run.soft.reverse, clamped := run.clamped }

/-- Lane 0 takes an entry of the replay queue. -/
def State.startReplay (s : State) (n : Fin 16) (r : Replay) (l : ReplayLane) : State :=
  s.modHead n fun h => { h with replayQ := h.replayQ.filter fun x => x != r, lanes := h.lanes.set 0 (some l) }

theorem exec_replayStart_lane0 {s : State} {head : Fin 16} {r : Replay} {rest : List Replay} {i : Interval}
    (hlanes : (s.head head).lanes = Vector.replicate 2 none) (hqueue : (s.head head).replayQ = r :: rest)
    (hi : ((s.head head).beams.toList.getD r.beam Beam.reset).intervals.find? (fun v => v.first == r.first) = some i) :
    exec (.replayStart head) s =
      .next (s.startReplay head r (replayLane s head r ((s.head head).beams.toList.getD r.beam Beam.reset) i)) := by
  have hfree : (List.finRange 2).find? (fun k => ((s.head head).lanes[k]).isNone) = some 0 := by rw [hlanes]; rfl
  have hidle : ((s.head head).lanes.toList.filterMap fun l => l.map fun (x : ReplayLane) => x.job.beam) = [] := by rw [hlanes]; rfl
  have hfirst : (indexed (r :: rest)).find? (fun (k, q) =>
      !([] : List Nat).contains q.beam && !(((r :: rest).take k).any fun x => x.beam == q.beam)) = some (0, r) := by
    rw [indexed, List.length_cons, List.range_succ_eq_map, List.zip_cons_cons]
    exact List.find?_cons_of_pos rfl
  show execReplayStart head s = _
  unfold execReplayStart
  dsimp only
  rw [hidle, hqueue, hfirst, hfree]
  dsimp only
  rw [hi]
  rfl

theorem replayStart_starts (head : Fin 16) (r : Replay) (rest : List Replay) (i : Interval) : Completes (.replayStart head)
    (fun s => (s.head head).lanes = Vector.replicate 2 none ∧ (s.head head).replayQ = r :: rest ∧
        ((s.head head).beams.toList.getD r.beam Beam.reset).intervals.find? (fun v => v.first == r.first) = some i)
    [.heads]
    fun s t => ((t.head head).lanes[0].map fun l => (l.job, l.ends)) = some (r, s.now + (32 +
          ceilDiv ((i.len + 128) * ((s.head head).beams.toList.getD r.beam Beam.reset).nominal) (2 * 2 ^ 32))) ∧ (t.head head).lanes[1] = none ∧
        (t.head head).replayQ = (r :: rest).filter (· != r) ∧ HeadsBut head s t := by
  refine Completes.of_keeps (execReplayStart_keeps head) ?_
  rintro s - ⟨hlanes, hqueue, hi⟩
  refine ⟨_, exec_replayStart_lane0 hlanes hqueue hi, ?_⟩
  rw [State.startReplay, State.head_modHead_self]
  dsimp only
  rw [hlanes, hqueue]
  exact ⟨rfl, rfl, rfl, State.headsBut_modHead rfl _⟩

theorem Beam.replaceNext_adapt (b : Beam) (first : Nat) (a : Adaptive) : (b.replaceNext first a).adapt = b.adapt := by
  unfold Beam.replaceNext
  split <;> rfl

/-- A beam takes the values and the end state of a replay (R101). -/
def Beam.adopt (l : ReplayLane) (b : Beam) : Beam :=
  let b := b.modInterval l.job.first fun i => { i with fate := .replayed, soft := l.soft }
  let b := b.replaceNext l.job.first l.adapt
  { b with adapt := { l.adapt with decM := b.adapt.decM }, frozen := b.pending, thaw := false }

theorem Beam.adopt_adapt (l : ReplayLane) (b : Beam) : (b.adopt l).adapt = { l.adapt with decM := b.adapt.decM } :=
  congrArg (fun a : Adaptive => { l.adapt with decM := a.decM }) (Beam.replaceNext_adapt ..)

/-- What a replay that ends makes of its sector's record and of the counters. -/
def State.countReplay (s : State) (n : Fin 16) (l : ReplayLane) : State :=
  let s := s.modSector l.job.sector fun x => { x with info := { x.info with replayed := min 127 (x.info.replayed + 1) } }
  let s := if l.clamped then s.bump (R.HD_CLAMP_CNT n.val) F.HD_CLAMP_CNT_CLAMP 1 else s
  s.bump (R.HD_UNPICK_CNT n.val) F.HD_UNPICK_CNT_REPLAYED 1

/-- A lane is free, and the beam of its replay goes on from it. -/
def State.endReplay (s : State) (n : Fin 16) (lane : Fin 2) (j : Fin 12) (l : ReplayLane) : State :=
  (s.modHead n fun h => { h with lanes := h.lanes.set lane none }).modBeam n j (Beam.adopt l)

section Finish

variable (s : State) (n : Fin 16) (lane : Fin 2) (j : Fin 12) (l : ReplayLane)

theorem State.countReplay_heads : (s.countReplay n l).heads = s.heads := by
  unfold State.countReplay
  extract_lets noted clamped
  refine (State.bump_heads ..).trans ?_
  unfold clamped
  split
  · exact State.bump_heads ..
  · rfl

/-- The replay's clamp, where it has one, is counted in a register of its own. -/
theorem State.countReplay_regs : ∃ u : State, RegsBut [R.HD_CLAMP_CNT n.val] s u ∧
    s.countReplay n l = u.bump (R.HD_UNPICK_CNT n.val) F.HD_UNPICK_CNT_REPLAYED 1 := by
  refine ⟨_, ?_, rfl⟩
  split
  · exact fun k hk => State.regsBut_bump _ _ _ _ k hk
  · exact RegsBut.refl _ _

theorem State.countReplay_regsBut : RegsBut [R.HD_UNPICK_CNT n.val, R.HD_CLAMP_CNT n.val] s (s.countReplay n l) := by
  obtain ⟨u, hu, hcount⟩ := s.countReplay_regs n l
  rw [hcount]
  exact (hu.mono (by simp)).trans ((u.regsBut_bump _ _ _).mono (by simp))

theorem State.countReplay_counts : (s.countReplay n l).fld (R.HD_UNPICK_CNT n.val) F.HD_UNPICK_CNT_REPLAYED =
    satAdd (2 ^ F.HD_UNPICK_CNT_REPLAYED.width - 1) (s.fld (R.HD_UNPICK_CNT n.val) F.HD_UNPICK_CNT_REPLAYED) 1 := by
  have hkey : R.HD_UNPICK_CNT n.val ≠ R.HD_CLAMP_CNT n.val := by unfold R.HD_UNPICK_CNT R.HD_CLAMP_CNT; omega
  obtain ⟨u, hu, hcount⟩ := s.countReplay_regs n l
  rw [hcount, State.fld_bump_self _ _ _ _ (by decide) (by decide), State.fld_congr (hu _ (by simpa using hkey))]

theorem State.endReplay_lane : ((s.endReplay n lane j l).head n).lanes[lane] = none := by
  rw [State.endReplay, State.modBeam, State.head_modHead_self, State.head_modHead_self]
  exact Vector.getElem_set_self lane.isLt

theorem State.endReplay_beam : ((s.endReplay n lane j l).head n).beams[j] = (s.head n).beams[j].adopt l := by
  rw [State.endReplay, State.beam_modBeam_self, State.head_modHead_self]

theorem State.headsBut_endReplay : HeadsBut n s (s.endReplay n lane j l) := (State.headsBut_modHead rfl _).modHead _

@[simp] theorem State.endReplay_reg (k : Nat) : (s.endReplay n lane j l).reg k = s.reg k := rfl

end Finish

theorem exec_replayFinish_due {s : State} {head : Fin 16} {lane : Fin 2} {l : ReplayLane} {j : Fin 12} (hlane : (s.head head).lanes[lane] = some l)
    (hdue : l.ends ≤ s.now) (hj : l.job.beam = j.val) :
    exec (.replayFinish head lane) s = .next ((s.endReplay head lane j l).countReplay head l) := by
  have hlt : l.job.beam < 12 := hj ▸ j.isLt
  have hbeam : (⟨l.job.beam, hlt⟩ : Fin 12) = j := Fin.ext hj
  show execReplayFinish head lane s = _
  unfold execReplayFinish
  dsimp only
  rw [hlane]
  dsimp only
  rw [when_of_true (decide_eq_true hdue), dif_pos hlt, hbeam]
  rfl

theorem replayFinish_ends (head : Fin 16) (lane : Fin 2) (l : ReplayLane) (j : Fin 12) : Completes (.replayFinish head lane)
    (fun s => (s.head head).lanes[lane] = some l ∧ l.ends ≤ s.now ∧ l.job.beam = j.val)
    [.regs, .heads, .decode]
    fun s t => (t.head head).lanes[lane] = none ∧
        (t.head head).beams[j].adapt = { l.adapt with decM := (s.head head).beams[j].adapt.decM } ∧
        t.fld (R.HD_UNPICK_CNT head.val) F.HD_UNPICK_CNT_REPLAYED = satAdd (2 ^ F.HD_UNPICK_CNT_REPLAYED.width - 1)
          (s.fld (R.HD_UNPICK_CNT head.val) F.HD_UNPICK_CNT_REPLAYED) 1 ∧
        RegsBut [R.HD_UNPICK_CNT head.val, R.HD_CLAMP_CNT head.val] s t ∧ HeadsBut head s t := by
  refine Completes.of_keeps (execReplayFinish_keeps head lane) ?_
  rintro s - ⟨hlane, hdue, hj⟩
  have hheads := State.head_congr ((s.endReplay head lane j l).countReplay_heads head l)
  refine ⟨_, exec_replayFinish_due hlane hdue hj, ?_, ?_, ?_, fun k hk => ?_, fun m hm => ?_⟩
  · rw [hheads, State.endReplay_lane]
  · rw [hheads, State.endReplay_beam, Beam.adopt_adapt]
  · rw [State.countReplay_counts, State.fld_congr (State.endReplay_reg ..)]
  · rw [State.countReplay_regsBut _ head l k hk, State.endReplay_reg]
  · rw [hheads, s.headsBut_endReplay head lane j l m hm]

/-! ## An entry that expires (R103) -/

/-- A soft erase and an expiry are counted. -/
def State.countExpiry (s : State) (n : Fin 16) : State :=
  (s.bump (R.HD_SOFTERASE_CNT n.val) F.HD_SOFTERASE_CNT_SOFT 1).bump (R.HD_SOFTERASE_CNT n.val) F.HD_SOFTERASE_CNT_EXPIRED 1

section Expiry

variable (s : State) (n : Fin 16)

theorem State.countExpiry_heads : (s.countExpiry n).heads = s.heads := (State.bump_heads ..).trans (State.bump_heads ..)

theorem State.countExpiry_regsBut : RegsBut [R.HD_SOFTERASE_CNT n.val] s (s.countExpiry n) :=
  (s.regsBut_bump _ _ _).trans (State.regsBut_bump _ _ _ _)

theorem State.countExpiry_expired : (s.countExpiry n).fld (R.HD_SOFTERASE_CNT n.val) F.HD_SOFTERASE_CNT_EXPIRED =
    satAdd (2 ^ F.HD_SOFTERASE_CNT_EXPIRED.width - 1) (s.fld (R.HD_SOFTERASE_CNT n.val) F.HD_SOFTERASE_CNT_EXPIRED) 1 := by
  rw [State.countExpiry, State.fld_bump_self _ _ _ _ (by decide) (by decide), State.bump,
    State.fld_setFld_other _ _ _ _ _ (by decide) (by decide) (by decide) (by decide)]

theorem State.countExpiry_soft : (s.countExpiry n).fld (R.HD_SOFTERASE_CNT n.val) F.HD_SOFTERASE_CNT_SOFT =
    satAdd (2 ^ F.HD_SOFTERASE_CNT_SOFT.width - 1) (s.fld (R.HD_SOFTERASE_CNT n.val) F.HD_SOFTERASE_CNT_SOFT) 1 := by
  rw [State.countExpiry, State.bump, State.fld_setFld_other _ _ _ _ _ (by decide) (by decide) (by decide) (by decide),
    State.fld_bump_self _ _ _ _ (by decide) (by decide)]

end Expiry

/-- A soft erase of an entry that expired changes a beam and a sector beside the counters. -/
theorem State.softEraseInterval_expired (s : State) (n : Fin 16) (j : Fin 12) (first sector se : Nat) :
    ∃ f g, s.softEraseInterval n j first sector se true = ((s.modBeam n j f).modSector sector g).countExpiry n :=
  ⟨_, _, rfl⟩

/-- An entry leaves the replay queue of head n. -/
def State.leaveQueue (s : State) (n : Fin 16) (r : Replay) : State := s.modHead n fun h => { h with replayQ := h.replayQ.filter fun x => x != r }

theorem exec_replayExpiry_due {s : State} {head : Fin 16} {p : Pass} {r : Replay} (hpass : (s.head head).pass = some p)
    (hr : (s.head head).replayQ.find? (fun r => r.needSample ≤ s.now || r.needQ ≤ s.now) = some r) (hlt : r.beam < 12) :
    exec (.replayExpiry head) s = .next ((s.leaveQueue head r).softEraseInterval head ⟨r.beam, hlt⟩ r.first r.sector (natBits p.cfg.unpick 31 24) true) := by
  show execReplayExpiry head s = _
  unfold execReplayExpiry
  dsimp only
  rw [hpass, hr]
  exact dif_pos hlt

theorem replayExpiry_expires (head : Fin 16) (p : Pass) (r : Replay) : Completes (.replayExpiry head)
    (fun s => (s.head head).pass = some p ∧ (s.head head).replayQ.find? (fun r => r.needSample ≤ s.now || r.needQ ≤ s.now) = some r ∧ r.beam < 12)
    [.regs, .heads, .decode]
    fun s t => (t.head head).replayQ = (s.head head).replayQ.filter (· != r) ∧
        t.fld (R.HD_SOFTERASE_CNT head.val) F.HD_SOFTERASE_CNT_EXPIRED = satAdd (2 ^ F.HD_SOFTERASE_CNT_EXPIRED.width - 1)
          (s.fld (R.HD_SOFTERASE_CNT head.val) F.HD_SOFTERASE_CNT_EXPIRED) 1 ∧
        t.fld (R.HD_SOFTERASE_CNT head.val) F.HD_SOFTERASE_CNT_SOFT = satAdd (2 ^ F.HD_SOFTERASE_CNT_SOFT.width - 1)
          (s.fld (R.HD_SOFTERASE_CNT head.val) F.HD_SOFTERASE_CNT_SOFT) 1 ∧
        RegsBut [R.HD_SOFTERASE_CNT head.val] s t ∧ HeadsBut head s t := by
  refine Completes.of_keeps (execReplayExpiry_keeps head) ?_
  rintro s - ⟨hpass, hr, hlt⟩
  obtain ⟨f, g, herased⟩ := (s.leaveQueue head r).softEraseInterval_expired head ⟨r.beam, hlt⟩ r.first r.sector (natBits p.cfg.unpick 31 24)
  have hexec := exec_replayExpiry_due hpass hr hlt
  rw [herased] at hexec
  have hreg (k : Nat) : (((s.leaveQueue head r).modBeam head ⟨r.beam, hlt⟩ f).modSector r.sector g).reg k = s.reg k := rfl
  have hqueue : ((((s.leaveQueue head r).modBeam head ⟨r.beam, hlt⟩ f).modSector r.sector g).head head).replayQ =
      (s.head head).replayQ.filter (· != r) := by
    rw [State.modSector_head, State.modBeam_replayQ, State.leaveQueue, State.head_modHead_self]
  have hothers : HeadsBut head s (((s.leaveQueue head r).modBeam head ⟨r.beam, hlt⟩ f).modSector r.sector g) :=
    ((State.headsBut_modHead rfl _).modHead _).of_heads (State.modDec_heads ..)
  generalize ((s.leaveQueue head r).modBeam head ⟨r.beam, hlt⟩ f).modSector r.sector g = u at hexec hreg hqueue hothers
  refine ⟨_, hexec, ?_, ?_, ?_, fun k hk => ?_, hothers.of_heads (u.countExpiry_heads head)⟩
  · rw [State.head_congr (u.countExpiry_heads head), hqueue]
  · rw [State.countExpiry_expired, State.fld_congr (hreg _)]
  · rw [State.countExpiry_soft, State.fld_congr (hreg _)]
  · rw [u.countExpiry_regsBut head k hk, hreg]

/-- Settles O31: the two outcomes of a test, the start and the end of a replay, and the expiry, one lemma each. -/
theorem unpicksAndReplays : Obligations.UnpicksAndReplays :=
  ⟨unpickTest_passes, unpickTest_unpicks, replayStart_starts, replayFinish_ends, replayExpiry_expires⟩

end Sys2Proof.Machine
end

section
/-!
PROOFS. The readings SL.POS, SP.STAT, LP.STAT and DC.STAT, DC.SUBMIT and EV.LOG (R131, R229, R234), one lemma per outcome.
Settles O51.
-/

namespace Sys2Proof.Machine

/-! ## What an issue leaves for a reading -/

section Reading

variable {s : State} {b : Fin 24} {u : Upset} {i : Ins}

theorem AimsAt.issued_headChecks {fam : Nat} {n : Fin 16} (ha : AimsAt s b i fam n) (f : Fin 16 → Effect) :
    (s.issued b i.next).headChecks b fam ((s.issued b i.next).g b i.ra) f = f n := by
  obtain ⟨hfam, hv, hcap, hserv⟩ := ha
  exact State.headChecks_ok ((s.issued_capBit ..).trans hfam) ((s.g_issued_ra b i).trans hv) ((s.issued_capBit ..).trans hcap)
    (((s.issued_headsAlike b i.next).headInService _).trans hserv) f

theorem State.issued_sled (s : State) (b : Fin 24) (next : Nat) (n : Fin 16) : (s.issued b next).sled n = s.sled n := by
  unfold State.sled
  rw [State.issued_motion]

theorem HeadsAlike.slotHead {t : State} (h : HeadsAlike s t) (k : Fin 96) : slotHead t k = slotHead s k := by
  have hcfg : t.fld (R.LP_SLOT_CFG k.val) = s.fld (R.LP_SLOT_CFG k.val) :=
    funext fun p => h.fld p (by unfold R.LP_SLOT_CFG; omega)
  unfold Machine.slotHead slotSpindle slotCfg
  rw [hcfg]

theorem HeadsAlike.lpStatus {t : State} (h : HeadsAlike s t) (k : Fin 96) : t.lpStatus k = s.lpStatus k := by
  have hlink : t.linkHolds k = s.linkHolds k := by
    unfold State.linkHolds
    rw [h.slotHead]
    simp only [h.head]
  unfold State.lpStatus
  rw [h.slot, hlink]

theorem State.issued_dcStatus (s : State) (b : Fin 24) (next : Nat) : (s.issued b next).dcStatus = s.dcStatus := by
  have hring : (s.issued b next).outRingFull = s.outRingFull := by
    unfold State.outRingFull State.outProd State.outCons
    rw [(s.issued_headsAlike b next).fld _ (by decide), (s.issued_headsAlike b next).fld _ (by decide)]
  unfold State.dcStatus
  rw [State.issued_decode, hring]

/-- A slot of a head passes its checks with the head's capability and service (Table 10-10). -/
theorem State.issued_slotChecks {k : Fin 96} {n : Fin 16} (hfam : s.capBit b famLP = true) (hk : (valA s b i).toNat % 128 = k.val)
    (hslot : Machine.slotHead s k = some n) (hcap : s.capBit b (16 + n.val) = true) (hserv : s.headInService n.val = true) (f : Fin 96 → Effect) :
    (s.issued b i.next).slotChecks b ((s.issued b i.next).g b i.ra) f = f k := by
  have halike := s.issued_headsAlike b i.next
  simp [State.slotChecks, s.g_issued_ra, State.issued_capBit, hk, hfam, halike.slotHead, hslot, hcap, halike.headInService, hserv]

/-- An instruction that puts a reading into rd and has no other effect. -/
theorem reads_of_issues {c : Instr} {k v : Nat} {f : Ins → State → Effect} (h : Issues s b u i) (hop : i.op = k)
    (hc : exec c s = s.issue b u (isOp k) f) (hf : f i (s.issued b i.next) = .ok ((s.issued b i.next).setG b i.rd v)) :
    ∃ t, exec c s = .next t ∧ WritesRd b i (BitVec.ofNat 64 v) s t ∧ t.events = s.events :=
  ⟨_, exec_ok_of_issues h hop hc hf, (s.issued_becomes b i).setG i.rd v, s.issued_events b i.next⟩

end Reading

/-! ## The readings -/

theorem slPos_reads (b : Fin 24) (u : Upset) (i : Ins) (n : Fin 16) : Completes (.slPos b u)
    (fun s => Issues s b u i ∧ i.op = 0x61 ∧ AimsAt s b i famSL n)
    [.events, .regs, .seq]
    fun s t => WritesRd b i (BitVec.ofNat 64 (arg ((s.sled n).pNow s.now) + sledStCode (s.sled n).st * 2 ^ 32 +
          s.fld (R.SL_STATUS n.val) F.SL_STATUS_UNCERTAIN * 2 ^ 35 + s.fld (R.SL_STATUS n.val) F.SL_STATUS_FAULT * 2 ^ 36)) s t ∧ t.events = s.events := by
  refine Completes.of_keeps (execSlPos_keeps b u) ?_
  rintro s - ⟨hi, hop, ha⟩
  have hstatus (p : FieldPos) := State.fld_congr ((s.issued_headsAlike b i.next).sledStatus n) p
  refine reads_of_issues hi hop (.refl (execSlPos b u s)) ?_
  rw [ha.issued_headChecks]
  simp only [State.issued_sled, State.issued_now, hstatus]

theorem spStat_reads (b : Fin 24) (u : Upset) (i : Ins) : Completes (.spStat b u)
    (fun s => Issues s b u i ∧ i.op = 0x65 ∧ s.capBit b famSP = true)
    [.events, .regs, .seq]
    fun s t => WritesRd b i (BitVec.ofNat 64 (s.fld R.SP_SPEED F.SP_SPEED_MEAS + spinStCode s.motion.spin.st * 2 ^ 32 +
          s.fld R.SP_STATUS F.SP_STATUS_FAULT * 2 ^ 36 + s.fld R.SP_GOV F.SP_GOV_TARGET * 2 ^ 40 + s.fld R.SP_GOV F.SP_GOV_CEIL * 2 ^ 47)) s t ∧ t.events = s.events := by
  refine Completes.of_keeps (execSpStat_keeps b u) ?_
  rintro s - ⟨hi, hop, hcap⟩
  have halike := s.issued_headsAlike b i.next
  refine reads_of_issues hi hop (.refl (execSpStat b u s)) ?_
  rw [State.issued_famChecks hcap, State.issued_motion, halike.fld (k := R.SP_SPEED) _ (by decide), halike.fld (k := R.SP_STATUS) _ (by decide),
    halike.fld (k := R.SP_GOV) _ (by decide), halike.fld (k := R.SP_GOV) _ (by decide)]

theorem lpStat_reads (b : Fin 24) (u : Upset) (i : Ins) (k : Fin 96) (n : Fin 16) : Completes (.lpStat b u)
    (fun s => Issues s b u i ∧ i.op = 0x6A ∧ s.capBit b famLP = true ∧ (valA s b i).toNat % 128 = k.val ∧ slotHead s k = some n ∧
        s.capBit b (16 + n.val) = true ∧ s.headInService n.val = true)
    [.events, .regs, .seq]
    fun s t => WritesRd b i (BitVec.ofNat 64 (s.lpStatus k)) s t ∧ t.events = s.events := by
  refine Completes.of_keeps (execLpStat_keeps b u) ?_
  rintro s - ⟨hi, hop, hfam, hk, hslot, hcap, hserv⟩
  refine reads_of_issues hi hop (.refl (execLpStat b u s)) ?_
  rw [State.issued_slotChecks hfam hk hslot hcap hserv, (s.issued_headsAlike b i.next).lpStatus]

theorem dcStat_reads (b : Fin 24) (u : Upset) (i : Ins) : Completes (.dcStat b u)
    (fun s => Issues s b u i ∧ i.op = 0x6D ∧ s.capBit b famDC = true)
    [.events, .regs, .seq]
    fun s t => WritesRd b i (BitVec.ofNat 64 s.dcStatus) s t ∧ t.events = s.events := by
  refine Completes.of_keeps (execDcStat_keeps b u) ?_
  rintro s - ⟨hi, hop, hcap⟩
  refine reads_of_issues hi hop (.refl (execDcStat b u s)) ?_
  rw [State.issued_famChecks hcap, State.issued_dcStatus]

/-! ## DC.SUBMIT (R131) -/

/-- An order set out on its way to the work queue. -/
def State.sendWork (s : State) (w : DecWork) : State := { s with decode := { s.decode with workXing := s.decode.workXing ++ [w] } }

theorem dcSubmit_sends (b : Fin 24) (u : Upset) (i : Ins) : Completes (.dcSubmit b u)
    (fun s => Issues s b u i ∧ i.op = 0x6C ∧ s.capBit b famDC = true ∧ 1 ≤ i.fn ∧ i.fn ≤ 5 ∧ 0x100000 ≤ (valA s b i).toNat ∧
        (valA s b i).toNat + 136 ≤ 0x200000 ∧ s.workQueued < 64 ∧ (s.bob b).occupied < 32)
    [.events, .regs, .decode, .seq]
    fun s t => t.decode = { s.decode with workXing := s.decode.workXing ++
          [⟨i.fn, waiterOf s b, scratchBytes s.seq.shared ((valA s b i).toNat - 0x100000) 136, 0⟩] } ∧ Starts b i s t := by
  refine Completes.of_keeps (execDcSubmit_keeps b u) ?_
  rintro s - ⟨hi, hop, hcap, hlo, hhi, hfrom, hto, hqueue, hroom⟩
  let bytes := scratchBytes s.seq.shared ((valA s b i).toNat - 0x100000) 136
  have hbytes : (s.issued b i.next).sharedAt ((s.issued b i.next).g b i.ra) 136 = .ok bytes := by
    rw [State.sharedAt, s.g_issued_ra, if_pos ⟨hfrom, hto⟩, (s.issued_elsewhere b i.next).2.1]
  have hfree : decide ((s.issued b i.next).workQueued < 64) = true := by
    rw [State.workQueued, State.issued_decode]
    exact decide_eq_true hqueue
  refine ⟨(s.began b i).sendWork ⟨i.fn, waiterOf s b, bytes, 0⟩, exec_ok_of_issues hi hop (.refl (execDcSubmit b u s)) ?_, ?_,
    (s.began_starts b i).of_seq_regs_eq rfl rfl⟩
  · rw [State.issued_famChecks hcap, if_neg (by omega), hbytes, hfree]
    exact State.async_begins i hroom fun w t => t.sendWork ⟨i.fn, w, bytes, 0⟩
  · rw [State.sendWork, State.began_decode]

theorem dcSubmit_excepts (b : Fin 24) (u : Upset) (i : Ins) : Completes (.dcSubmit b u)
    (fun s => Issues s b u i ∧ i.op = 0x6C ∧ s.capBit b famDC = true ∧ (i.fn = 0 ∨ 5 < i.fn))
    [.events, .regs, .decode, .seq]
    fun s t => Excepts b i 6 i.word s t ∧ t.decode = s.decode := by
  refine Completes.of_keeps (execDcSubmit_keeps b u) ?_
  rintro s - ⟨hi, hop, hcap, hfn⟩
  refine ⟨_, exec_excepts_of_issues (e := 6) hi hop (by decide) (.refl (execDcSubmit b u s)) ?_, s.takeException_excepts b i 6 _ (by decide), ?_⟩
  · rw [State.issued_famChecks hcap, if_pos hfn]
  · rw [(State.takeException_keeps ..).frame .decode (by decide), State.issued_decode]

/-! ## EV.LOG -/

theorem evLog_logs (b : Fin 24) (u : Upset) (i : Ins) : Completes (.evLog b u)
    (fun s => Issues s b u i ∧ i.op = 0x78 ∧ s.capBit b famEV = true ∧ 0x6800 ≤ (valA s b i).toNat % 65536 ∧ (valA s b i).toNat % 65536 ≤ 0x6FFF)
    [.events, .regs, .seq]
    fun s t => Becomes b ((s.bob b).past i s.now) s t ∧
        t.events = (s.log (srcBobbin b.val) .control ((valA s b i).toNat % 65536) (valB s b i).toNat ((valB s b i).toNat / 2 ^ 32)
          ((s.bob b).get i.rd).toNat (((s.bob b).get i.rd).toNat / 2 ^ 32)).events := by
  refine Completes.of_keeps (execEvLog_keeps b u) ?_
  rintro s - ⟨hi, hop, hcap, hlo, hhi⟩
  have hext : i.ext = none := fetchIns_ext hi.2.1 (by rw [hop]; rfl)
  have hexec := exec_ok_of_issues (c := .evLog b u) (t := (s.issued b i.next).log (srcBobbin b.val) .control ((valA s b i).toNat % 65536)
    (valB s b i).toNat ((valB s b i).toNat / 2 ^ 32) ((s.bob b).get i.rd).toNat (((s.bob b).get i.rd).toNat / 2 ^ 32)) hi hop
    (.refl (execEvLog b u s)) (by
      rw [State.issued_famChecks hcap, s.g_issued_ra, if_neg (by omega), State.g_issued_rb hext, s.g_issued])
  refine ⟨_, hexec, ?_, ?_⟩
  · obtain ⟨hbob, helse, hregs⟩ := s.issued_becomes b i
    exact ⟨(State.bob_congr (State.log_seq ..) b).trans hbob, helse.trans (.of_seq_eq (State.log_seq ..)),
      hregs.trans (regsBut_of_regs_eq (State.log_regs ..))⟩
  · unfold State.log
    rw [State.issued_stamp, State.logAt_events_congr (s.issued_events b i.next)]

theorem evLog_excepts (b : Fin 24) (u : Upset) (i : Ins) : Completes (.evLog b u)
    (fun s => Issues s b u i ∧ i.op = 0x78 ∧ s.capBit b famEV = true ∧ ((valA s b i).toNat % 65536 < 0x6800 ∨ 0x6FFF < (valA s b i).toNat % 65536))
    [.events, .regs, .seq]
    fun s t => Excepts b i 6 i.word s t := by
  refine Completes.of_keeps (execEvLog_keeps b u) ?_
  rintro s - ⟨hi, hop, hcap, hcode⟩
  refine ⟨_, exec_excepts_of_issues (e := 6) hi hop (by decide) (.refl (execEvLog b u s)) ?_, s.takeException_excepts b i 6 _ (by decide)⟩
  rw [State.issued_famChecks hcap, s.g_issued_ra, if_pos hcode]

/-- Settles O51: the four readings, and the outcomes of DC.SUBMIT and EV.LOG. -/
theorem islandReadings : Obligations.IslandReadings :=
  ⟨slPos_reads, spStat_reads, lpStat_reads, dcStat_reads, dcSubmit_sends, dcSubmit_excepts, evLog_logs, evLog_excepts⟩

end Sys2Proof.Machine
end

section
/-!
PROOFS. Reads and writes of buffer memory beside the decode island (R304 to R317): they write no register below the memory island's
block, and a read neither sees nor changes what the decode island holds. One lemma per operation, in the order of the definitions.
-/

namespace Sys2Proof.Machine

/-! ## Registers below the memory island's block -/

/-- No register below the block of the memory island has changed. -/
structure MemRegsOnly (s t : State) : Prop where
  reg : ∀ k : Nat, k < R.MC_CFG → t.reg k = s.reg k

namespace MemRegsOnly

variable {s t u : State}

theorem trans (h : MemRegsOnly s t) (h' : MemRegsOnly t u) : MemRegsOnly s u := ⟨fun k hk => (h'.reg k hk).trans (h.reg k hk)⟩

theorem of_regs (h : t.regs = s.regs) : MemRegsOnly s t := ⟨fun k _ => congrArg (storeGet regReset k) h⟩

theorem of_keeps {P : List Part} (h : Keeps P s t) (hP : P.contains .regs = false) : MemRegsOnly s t :=
  of_regs (h.frame .regs (by simpa using hP))

theorem foldl {α : Type} {f : State → α → State} (hf : ∀ t x, MemRegsOnly t (f t x)) (l : List α) (s : State) : MemRegsOnly s (l.foldl f s) :=
  List.foldlRecOn (motive := MemRegsOnly s) l f (of_regs rfl) fun t ht x _ => ht.trans (hf t x)

theorem ite {c : Prop} [Decidable c] (h : MemRegsOnly s t) (h' : MemRegsOnly s u) : MemRegsOnly s (if c then t else u) := by
  split
  · exact h
  · exact h'

theorem fld (h : MemRegsOnly s t) {k : Nat} (hk : k < R.MC_CFG) (p : FieldPos) : t.fld k p = s.fld k p := State.fld_congr (h.reg k hk) p

end MemRegsOnly

theorem State.setReg_memRegs (s : State) {k : Nat} (w : Word) (h : R.MC_CFG ≤ k) : MemRegsOnly s (s.setReg k w) :=
  ⟨fun j hj => s.reg_setReg_other w (by omega)⟩

theorem State.bump_memRegs (s : State) {k : Nat} (p : FieldPos) (n : Nat) (h : R.MC_CFG ≤ k) : MemRegsOnly s (s.bump k p n) :=
  s.setReg_memRegs _ h

theorem State.logMem_memRegs (s : State) (code a0 a1 a2 a3 : Nat) : MemRegsOnly s (s.logMem code a0 a1 a2 a3) :=
  .of_regs (s.log_regs ..)

theorem State.autoErase_memRegs (s : State) (k d count : Nat) : MemRegsOnly s (s.autoErase k d count) := by
  unfold State.autoErase
  split
  · exact s.logMem_memRegs ..
  · refine .ite (.trans (t := s.setFld R.MC_ECC_ERASE F.MC_ECC_ERASE_DEV _) (s.setReg_memRegs _ (by decide)) (State.logMem_memRegs ..)) (.of_regs rfl)

/-- Event 0x8001 of one correction more, at most once per millisecond (R311). -/
def State.correctionLogged (s : State) (k a pos : Nat) : State :=
  let s := s.modSub k fun x => { x with corrSince := x.corrSince + 1 }
  if quiet (s.sub k).corrLog s.now then
    (s.logMem 0x8001 k (a % 2 ^ 32) pos (s.sub k).corrSince).modSub k fun x => { x with corrSince := 0, corrLog := some s.now }
  else s

/-- The bits of a device's count of corrections in its subchannel's register (R311). -/
def correctionPlace (pos : Nat) : FieldPos := ⟨6 * deviceOf pos + 5, 6 * deviceOf pos⟩

/-- One correction: counted, logged, and the device erased where its count has reached the limit. -/
theorem State.countCorrection_eq (s : State) (a pos : Nat) :
    s.countCorrection a pos =
      let t := s.bump R.MC_ECC_CNT F.MC_ECC_CNT_CORR 1
      let u := t.bump (R.MC_ECC_DEV (s.memSub a)) (correctionPlace pos) 1
      let v := u.correctionLogged (s.memSub a) a pos
      if t.fld (R.MC_ECC_DEV (s.memSub a)) (correctionPlace pos) < u.fld (R.MC_ECC_DEV (s.memSub a)) (correctionPlace pos) ∧
          u.fld (R.MC_ECC_DEV (s.memSub a)) (correctionPlace pos) = v.fld R.MC_ECC_CFG F.MC_ECC_CFG_AUTO_N then
        v.autoErase (s.memSub a) (deviceOf pos) (u.fld (R.MC_ECC_DEV (s.memSub a)) (correctionPlace pos))
      else v := rfl

theorem State.correctionLogged_memRegs (s : State) (k a pos : Nat) : MemRegsOnly s (s.correctionLogged k a pos) := by
  unfold State.correctionLogged
  extract_lets t
  have ht : MemRegsOnly s t := .of_regs rfl
  exact .ite (ht.trans ((t.logMem_memRegs ..).trans (.of_regs rfl))) ht

theorem State.countCorrection_memRegs (s : State) (a pos : Nat) : MemRegsOnly s (s.countCorrection a pos) := by
  have hcounted := (s.bump_memRegs F.MC_ECC_CNT_CORR 1 (show R.MC_CFG ≤ R.MC_ECC_CNT by decide)).trans
    (State.bump_memRegs _ (correctionPlace pos) 1 (show R.MC_CFG ≤ R.MC_ECC_DEV (s.memSub a) by unfold R.MC_CFG R.MC_ECC_DEV; omega))
  have hlogged := hcounted.trans (State.correctionLogged_memRegs _ (s.memSub a) a pos)
  rw [State.countCorrection_eq]
  exact .ite (hlogged.trans (State.autoErase_memRegs ..)) hlogged

theorem State.countUncorrectable_memRegs (s : State) (cls a : Nat) (poison : Bool) : MemRegsOnly s (s.countUncorrectable cls a poison) := by
  unfold State.countUncorrectable
  extract_lets t u v
  have ht : MemRegsOnly s t := s.bump_memRegs _ _ (by decide)
  have hu : MemRegsOnly t u := t.setReg_memRegs _ (by decide)
  have hv : MemRegsOnly u v := u.setReg_memRegs _ (by decide)
  exact ht.trans (hu.trans (hv.trans (v.logMem_memRegs ..)))

theorem State.readWord_memRegs (s : State) (cls a : Nat) : MemRegsOnly s (s.readWord cls a).2 := by
  unfold State.readWord
  split
  split
  · exact .of_regs rfl
  · exact .ite (s.countCorrection_memRegs ..)
      ((s.countCorrection_memRegs ..).trans (.of_keeps (State.queueWriteBack_keeps ..) rfl))
  · exact s.countUncorrectable_memRegs ..
  · exact s.countUncorrectable_memRegs ..

theorem State.readWords_memRegs (s : State) (cls a n : Nat) : MemRegsOnly s (s.readWords cls a n).st := by
  induction n generalizing s a with
  | zero => exact .of_regs rfl
  | succ n ih =>
    rw [State.readWords]
    split
    · exact (s.readWord_memRegs cls a).trans (ih ..)
    · exact ih ..

theorem State.memRead_memRegs (s : State) (cls a len : Nat) : MemRegsOnly s (s.memRead cls a len).st := by
  have hserve := MemRegsOnly.foldl (fun t b => .of_keeps (State.serveBurst_keeps t cls b) rfl) (burstsOf a len) s
  have hread := hserve.trans (State.readWords_memRegs _ cls (a / 8 * 8) (if len = 0 then 0 else (a + len - 1) / 8 - a / 8 + 1))
  exact .ite (hread.trans (State.logMem_memRegs ..)) hread

theorem State.writeWordAt_memRegs (s : State) (cls a w : Nat) (bytes : List Nat) : MemRegsOnly s (s.writeWordAt cls a w bytes) := by
  have hstore (t : State) (c : List Nat) : MemRegsOnly t (t.storeSymbols a c) := .of_keeps (t.storeSymbols_keeps a c) rfl
  have hflip (c : List Nat) : MemRegsOnly s (s.flipWord a c).1 := by
    unfold State.flipWord
    dsimp only
    split
    · exact s.setReg_memRegs _ (by decide)
    · exact .of_regs rfl
  have hfull (v : List Nat) : MemRegsOnly s (s.writeFull a v) := (hflip _).trans (hstore ..)
  unfold State.writeWordAt
  refine .ite (hfull _) ?_
  unfold State.writePart
  split
  dsimp only
  split
  · exact hstore ..
  · exact (s.countCorrection_memRegs ..).trans (hstore ..)
  · exact (hstore ..).trans (State.logMem_memRegs ..)
  · exact (hstore ..).trans (State.logMem_memRegs ..)

theorem State.memWrite_memRegs (s : State) (cls a : Nat) (bytes : List Nat) : MemRegsOnly s (s.memWrite cls a bytes) := by
  unfold State.memWrite
  extract_lets len served words written
  have hwritten : MemRegsOnly s written :=
    (MemRegsOnly.foldl (fun t b => .of_keeps (State.serveBurst_keeps t cls b) rfl) _ s).trans
      (.foldl (fun t x => t.writeWordAt_memRegs cls x a bytes) _ _)
  exact .ite (.of_regs rfl) (.ite (hwritten.trans (State.logMem_memRegs ..)) hwritten)

/-! ## What a read sees of the decode island -/

/-- The state with another decode island. -/
def State.withDecode (s : State) (d : DecodeState) : State := { s with decode := d }

section WithDecode

variable {d : DecodeState}

theorem ite_withDecode {c : Prop} [Decidable c] {x y x' y' : State} (hx : x' = x.withDecode d) (hy : y' = y.withDecode d) :
    (if c then x' else y') = (if c then x else y).withDecode d := by
  split
  · exact hx
  · exact hy

theorem foldl_withDecode {α : Type} {f : State → α → State} (hf : ∀ t x, f (t.withDecode d) x = (f t x).withDecode d) (l : List α) (s : State) :
    l.foldl f (s.withDecode d) = (l.foldl f s).withDecode d := by
  induction l generalizing s with
  | nil => rfl
  | cons x l ih => rw [List.foldl_cons, hf, ih, List.foldl_cons]

theorem State.memSub_withDecode (s : State) (a : Nat) : (s.withDecode d).memSub a = s.memSub a := rfl

theorem State.logMem_withDecode (s : State) (code a0 a1 a2 a3 : Nat) :
    (s.withDecode d).logMem code a0 a1 a2 a3 = (s.logMem code a0 a1 a2 a3).withDecode d := ite_withDecode rfl rfl

theorem State.autoErase_withDecode (s : State) (k v count : Nat) :
    (s.withDecode d).autoErase k v count = (s.autoErase k v count).withDecode d := by
  unfold State.autoErase
  rw [show (s.withDecode d).erasedDevice k = s.erasedDevice k from rfl]
  split
  · exact s.logMem_withDecode ..
  · exact ite_withDecode (State.logMem_withDecode (s.setFld ..) ..) rfl

theorem State.correctionLogged_withDecode (s : State) (k a pos : Nat) :
    (s.withDecode d).correctionLogged k a pos = (s.correctionLogged k a pos).withDecode d :=
  ite_withDecode (congrArg (fun t => State.modSub t k fun x => { x with corrSince := 0, corrLog := some s.now })
    (State.logMem_withDecode (s.modSub k fun x => { x with corrSince := x.corrSince + 1 }) ..)) rfl

theorem State.countCorrection_withDecode (s : State) (a pos : Nat) :
    (s.withDecode d).countCorrection a pos = (s.countCorrection a pos).withDecode d := by
  rw [State.countCorrection_eq, State.countCorrection_eq]
  extract_lets t u v t' u' v'
  have hv : v = v'.withDecode d := State.correctionLogged_withDecode u' ..
  rw [hv]
  exact ite_withDecode (State.autoErase_withDecode ..) rfl

theorem State.queueWriteBack_withDecode (s : State) (a : Nat) : (s.withDecode d).queueWriteBack a = (s.queueWriteBack a).withDecode d := by
  let lost : State := { s with mem := { s.mem with wbLost := s.mem.wbLost + 1 } }
  exact ite_withDecode rfl (ite_withDecode
    (congrArg (fun t : State => { t with mem := { t.mem with wbLost := 0, wbLog := some t.now } }) (lost.logMem_withDecode 0x800C lost.mem.wbLost 0 0 0)) rfl)

theorem State.countUncorrectable_withDecode (s : State) (cls a : Nat) (poison : Bool) :
    (s.withDecode d).countUncorrectable cls a poison = (s.countUncorrectable cls a poison).withDecode d := by
  unfold State.countUncorrectable
  rw [show (s.withDecode d).bump R.MC_ECC_CNT F.MC_ECC_CNT_UNCORR 1 = (s.bump R.MC_ECC_CNT F.MC_ECC_CNT_UNCORR 1).withDecode d from rfl]
  generalize s.bump R.MC_ECC_CNT F.MC_ECC_CNT_UNCORR 1 = t
  have hset (u : State) (k : Nat) (w : Word) : (u.withDecode d).setReg k w = (u.setReg k w).withDecode d := rfl
  dsimp only
  rw [hset, hset, State.logMem_withDecode, State.memSub_withDecode]

theorem State.rollActivate_withDecode (s : State) (key : Nat) : (s.withDecode d).rollActivate key = (s.rollActivate key).withDecode d := by
  unfold State.rollActivate
  rw [show (s.withDecode d).rfmEvery (key / 32) = s.rfmEvery (key / 32) from rfl]
  dsimp only
  split
  · exact ite_withDecode rfl rfl
  · rfl

theorem State.touchBurst_withDecode (s : State) (a : Nat) : (s.withDecode d).touchBurst a = (s.touchBurst a).withDecode d := by
  unfold State.touchBurst
  rw [show (s.withDecode d).memBankRow a = s.memBankRow a from rfl]
  split
  rename_i bk row _
  extract_lets k key b opened hit acts idle t u v k' key' b' opened' hit' acts' idle' t' u' v'
  have ht : t = t'.withDecode d := ite_withDecode rfl rfl
  have hu : u = u'.withDecode d := by
    unfold u u'
    rw [ht]
    rfl
  have hv : v = v'.withDecode d := ite_withDecode hu ((congrArg (State.rollActivate · key') hu).trans (State.rollActivate_withDecode ..))
  exact ite_withDecode (congrArg (State.dram · k' (.precharge bk)) hv) hv

theorem State.easeActivates_withDecode (s : State) (k n : Nat) : (s.withDecode d).easeActivates k n = (s.easeActivates k n).withDecode d := by
  unfold State.easeActivates
  rw [show (s.withDecode d).rfmEvery k = s.rfmEvery k from rfl]
  split
  · refine foldl_withDecode (fun t e => ?_) _ s
    exact ite_withDecode rfl rfl
  · rfl

theorem State.payRefreshes_withDecode (s : State) (k : Nat) : (s.withDecode d).payRefreshes k = (s.payRefreshes k).withDecode d := by
  unfold State.payRefreshes
  dsimp only
  rw [State.easeActivates_withDecode]
  exact ite_withDecode rfl rfl

theorem State.serveBurst_withDecode (s : State) (cls a : Nat) : (s.withDecode d).serveBurst cls a = (s.serveBurst cls a).withDecode d := by
  unfold State.serveBurst
  rw [State.payRefreshes_withDecode]
  exact ite_withDecode ((congrArg (State.touchBurst · a) (ite_withDecode rfl rfl)).trans (State.touchBurst_withDecode ..)) rfl

theorem State.readWord_withDecode (s : State) (cls a : Nat) :
    (s.withDecode d).readWord cls a = ((s.readWord cls a).1, (s.readWord cls a).2.withDecode d) := by
  unfold State.readWord
  rw [show (s.withDecode d).erasedDevice ((s.withDecode d).memSub a) = s.erasedDevice (s.memSub a) from rfl,
    show (s.withDecode d).memSymbols a = s.memSymbols a from rfl]
  generalize decodeWord (s.erasedDevice (s.memSub a)) (s.memSymbols a) = found
  obtain ⟨r, data⟩ := found
  cases r with
  | clean => rfl
  | corrected p =>
    dsimp only
    rw [State.countCorrection_withDecode, State.queueWriteBack_withDecode]
    exact congrArg (Prod.mk _) (ite_withDecode rfl rfl)
  | uncorrectable => exact congrArg (Prod.mk _) (s.countUncorrectable_withDecode ..)
  | poison => exact congrArg (Prod.mk _) (s.countUncorrectable_withDecode ..)

/-- What a read returns, with another decode island. -/
def ReadRun.withDecode (r : ReadRun) (d : DecodeState) : ReadRun := { r with st := r.st.withDecode d }

theorem State.readWords_withDecode (s : State) (cls a n : Nat) :
    (s.withDecode d).readWords cls a n = (s.readWords cls a n).withDecode d := by
  induction n generalizing s a with
  | zero => rfl
  | succ n ih =>
    rw [State.readWords, State.readWords, State.readWord_withDecode, show (s.withDecode d).memSize = s.memSize from rfl,
      show (s.withDecode d).memOn = s.memOn from rfl]
    dsimp only
    rw [ih, ih]
    split <;> rfl

theorem State.memRead_withDecode (s : State) (cls a len : Nat) : (s.withDecode d).memRead cls a len = (s.memRead cls a len).withDecode d := by
  unfold State.memRead
  rw [foldl_withDecode (fun t b => t.serveBurst_withDecode cls b)]
  extract_lets served first words r out served' r' out'
  have hr : r = r'.withDecode d := State.readWords_withDecode ..
  have hout : out = out'.withDecode d := by
    unfold out out'
    rw [hr]
    exact ite_withDecode (State.logMem_withDecode ..) rfl
  rw [hout, hr]
  rfl

/-- One member of a job read, behind those before it. -/
def readMember (mask : Nat) (x : List (Option (Array Nat)) × State) (e : Nat × Nat) : List (Option (Array Nat)) × State :=
  if testBitN mask e.1 then (x.1 ++ [none], x.2)
  else (x.1 ++ [if (x.2.memRead 3 e.2 4096).bad.isEmpty then some (x.2.memRead 3 e.2 4096).bytes.toArray else none], (x.2.memRead 3 e.2 4096).st)

theorem State.readMembers_eq (s : State) (mask : Nat) (addrs : List Nat) :
    s.readMembers mask addrs = (indexed addrs).foldl (readMember mask) ([], s) := rfl

theorem readMember_withDecode (mask : Nat) (l : List (Option (Array Nat))) (s : State) (e : Nat × Nat) :
    readMember mask (l, s.withDecode d) e = ((readMember mask (l, s) e).1, (readMember mask (l, s) e).2.withDecode d) := by
  unfold readMember
  dsimp only
  rw [State.memRead_withDecode]
  split <;> rfl

theorem State.readMembers_withDecode (s : State) (mask : Nat) (addrs : List Nat) :
    (s.withDecode d).readMembers mask addrs = ((s.readMembers mask addrs).1, (s.readMembers mask addrs).2.withDecode d) := by
  rw [State.readMembers_eq, State.readMembers_eq]
  generalize ([] : List (Option (Array Nat))) = acc
  induction indexed addrs generalizing s acc with
  | nil => rfl
  | cons e l ih => rw [List.foldl_cons, List.foldl_cons, readMember_withDecode, ih]

end WithDecode

end Sys2Proof.Machine
end

section
/-!
PROOFS. The work of an outcome (R34, R119, R123, R126, R138): every engine of the decode island stands as it did, and so does the deep
queue but where a sector joins it. One lemma per operation, in the order of the definitions.
-/

namespace Sys2Proof.Machine

/-- From s to t no engine of the decode island has changed. -/
structure EnginesStand (s t : State) : Prop where
  engines : t.decode.engines = s.decode.engines
  deep : t.decode.deep = s.decode.deep
  twill : t.decode.twill = s.decode.twill
  sp : t.decode.sp = s.decode.sp

/-- Neither an engine nor the deep queue has changed. -/
structure DecodersStand (s t : State) : Prop extends EnginesStand s t where
  deepQ : t.decode.deepQ = s.decode.deepQ

section Stand

variable {s t u : State}

theorem EnginesStand.trans (h : EnginesStand s t) (h' : EnginesStand t u) : EnginesStand s u :=
  ⟨h'.engines.trans h.engines, h'.deep.trans h.deep, h'.twill.trans h.twill, h'.sp.trans h.sp⟩

theorem DecodersStand.trans (h : DecodersStand s t) (h' : DecodersStand t u) : DecodersStand s u :=
  ⟨h.toEnginesStand.trans h'.toEnginesStand, h'.deepQ.trans h.deepQ⟩

theorem DecodersStand.of_decode (h : t.decode = s.decode) : DecodersStand s t :=
  ⟨⟨by rw [h], by rw [h], by rw [h], by rw [h]⟩, by rw [h]⟩

theorem DecodersStand.refl (s : State) : DecodersStand s s := .of_decode rfl

/-- An operation whose rule does not name the decode island. -/
theorem DecodersStand.of_keeps {P : List Part} (h : Keeps P s t) (hP : P.contains .decode = false) : DecodersStand s t :=
  .of_decode (h.frame .decode (by simpa using hP))

theorem DecodersStand.ite {c : Prop} [Decidable c] (h : DecodersStand s t) (h' : DecodersStand s u) : DecodersStand s (if c then t else u) := by
  split
  · exact h
  · exact h'

end Stand

/-! ## Records and groups -/

theorem State.logDec_stand (s : State) (code a0 a1 a2 a3 : Nat) : DecodersStand s (s.logDec code a0 a1 a2 a3) := .of_decode (s.log_decode ..)

theorem State.outEpisode_stand (s : State) : DecodersStand s s.outEpisode := by
  have hfull : DecodersStand s (s.modDec fun d => { d with outFull := true }) := ⟨⟨rfl, rfl, rfl, rfl⟩, rfl⟩
  exact .ite (hfull.trans (State.logDec_stand ..)) (.ite ⟨⟨rfl, rfl, rfl, rfl⟩, rfl⟩ (.refl s))

theorem State.putRecord_stand (s : State) (r : OutRecord) : DecodersStand s (s.putRecord r) := by
  unfold State.putRecord
  extract_lets i written moved noted
  have hmoved : DecodersStand s moved := .of_decode ((s.memWrite_keeps ..).frame .decode (by decide))
  have hnoted : DecodersStand moved noted := by
    unfold noted
    split
    · exact ⟨⟨rfl, rfl, rfl, rfl⟩, rfl⟩
    · exact .refl moved
  exact hmoved.trans (hnoted.trans noted.outEpisode_stand)

theorem State.emitRecord_stand (s : State) (r : OutRecord) : DecodersStand s (s.emitRecord r) := by
  have hwait : DecodersStand s (s.modDec fun d => { d with waiting := d.waiting ++ [r] }) := ⟨⟨rfl, rfl, rfl, rfl⟩, rfl⟩
  exact .ite (hwait.trans (State.outEpisode_stand _)) (s.putRecord_stand r)

theorem State.countIn_stand (s : State) (head pass layer band k n : Nat) : DecodersStand s (s.countIn head pass layer band k n) :=
  .ite ⟨⟨rfl, rfl, rfl, rfl⟩, rfl⟩ (.of_decode (State.bump_decode ..))

theorem State.deferGroup_stand (s : State) (g : Group) : DecodersStand s (s.deferGroup g) :=
  (s.emitRecord_stand _).trans (State.countIn_stand ..)

theorem State.closeGroup_stand (s : State) (g : Group) (atHem : Bool) : DecodersStand s (s.closeGroup g atHem) := by
  unfold State.closeGroup
  extract_lets left closed
  have hleft : DecodersStand s left := ⟨⟨rfl, rfl, rfl, rfl⟩, rfl⟩
  have hdefer := hleft.trans (left.deferGroup_stand closed)
  exact .ite hleft (.ite hdefer (.ite (hdefer.trans (State.logDec_stand ..)) ⟨⟨rfl, rfl, rfl, rfl⟩, rfl⟩))

theorem State.memberOutcome_stand (s : State) (head pass layer band grp i : Nat) (m : Member) :
    DecodersStand s (s.memberOutcome head pass layer band grp i m) :=
  .ite (.refl s) (.ite (s.closeGroup_stand ..) ⟨⟨rfl, rfl, rfl, rfl⟩, rfl⟩)

/-! ## The end of a sector -/

theorem State.finishSector_stand (s : State) (x : Sector) (o : SecOutcome) (path data tag asm : Nat) (known : Bool) :
    DecodersStand s (s.finishSector x o path data tag asm known) := by
  unfold State.finishSector
  extract_lets work bytes told out
  have htold : DecodersStand s told := s.emitRecord_stand _
  have hout : DecodersStand s out := .ite htold (htold.trans (State.memberOutcome_stand ..))
  exact hout.trans ⟨⟨rfl, rfl, rfl, rfl⟩, rfl⟩

/-- The order of a REFRAME sector leaves those that run, and completes. -/
theorem State.endOrder_stand (s : State) (w status data : Nat) :
    DecodersStand s (match s.decode.running.find? fun o => o.who.tag == w with
      | some o => (s.modDec fun d => { d with running := d.running.filter fun y => y.who.tag ≠ w }).completeWork o.who status data
      | none => s) := by
  split
  · exact ⟨⟨rfl, rfl, rfl, rfl⟩, rfl⟩
  · exact .refl s

theorem State.failSector_stand (s : State) (x : Sector) (path status : Nat) : DecodersStand s (s.failSector x path status) := by
  unfold State.failSector
  split
  · exact (s.finishSector_stand ..).trans (State.endOrder_stand ..)
  · exact s.finishSector_stand ..
  · exact s.finishSector_stand ..

theorem State.eraseSector_stand (s : State) (x : Sector) (path status : Nat) (f : SecInfo → SecInfo) :
    DecodersStand s (s.eraseSector x path status f) := by
  unfold State.eraseSector
  extract_lets y counted
  have hcounted : DecodersStand s counted := by
    unfold counted
    split
    · exact .of_keeps (State.countVerify_keeps ..) rfl
    · exact .refl s
  exact hcounted.trans (State.failSector_stand ..)

theorem State.deliverSector_stand (s : State) (x : Sector) (b : List Nat) (deep : Bool) : DecodersStand s (s.deliverSector x b deep) := by
  unfold State.deliverSector
  extract_lets path counted
  have hcounted : DecodersStand s counted := State.countIn_stand ..
  split
  rename_i addr placed hplace
  have hplaced : DecodersStand s placed :=
    hcounted.trans (.of_keeps (Keeps.ofSnd hplace (State.deliveryAddr_keeps ..)) rfl)
  extract_lets stored tag asm
  have hstored : DecodersStand s stored :=
    hplaced.trans (.of_keeps (Keeps.step (State.releaseCopy_keeps ..) rfl
      ((State.memWrite_keeps ..).mono (P := [.events, .regs, .heads, .mem, .out]) rfl)) rfl)
  clear_value stored
  split
  · exact hstored.trans (State.finishSector_stand ..)
  · exact hstored.trans (.trans (.of_keeps (State.countVerify_keeps ..) rfl) (State.finishSector_stand ..))
  · exact hstored.trans ((State.finishSector_stand ..).trans (State.endOrder_stand ..))

/-- The deep queue takes a sector, or the sector is erased: the engines stand. -/
theorem State.enterDeep_stand (s : State) (x : Sector) (ch : Array Int) : EnginesStand s (s.enterDeep x ch) := by
  unfold State.enterDeep
  extract_lets occ limit queued addr stored refused
  have hstored : DecodersStand s stored := .trans (t := queued) ⟨⟨rfl, rfl, rfl, rfl⟩, rfl⟩ (.of_keeps (State.memWrite_keeps ..) rfl)
  have hrefused : DecodersStand s refused :=
    .ite (.trans (t := s.modDec fun d => { d with deepRefusing := true }) ⟨⟨rfl, rfl, rfl, rfl⟩, rfl⟩ (State.logDec_stand ..)) (.refl s)
  split
  · exact hstored.toEnginesStand.trans ⟨rfl, rfl, rfl, rfl⟩
  · split
    · exact (hrefused.trans (State.failSector_stand ..)).toEnginesStand
    · exact (hrefused.trans ((State.countIn_stand ..).trans (State.eraseSector_stand ..))).toEnginesStand

/-- A codeword with every check satisfied is accepted, or not: the engines stand. -/
theorem State.acceptSector_stand (s : State) (x : Sector) (ch post : Array Int) (deep : Bool) : EnginesStand s (s.acceptSector x ch post deep) := by
  unfold State.acceptSector
  extract_lets b path crc info place
  have hcrc : DecodersStand s crc := (State.countIn_stand ..).trans (State.logDec_stand ..)
  have hplace : DecodersStand s place := (State.countIn_stand ..).trans (State.logDec_stand ..)
  split
  · split
    · exact (hcrc.trans (State.eraseSector_stand ..)).toEnginesStand
    · exact hcrc.toEnginesStand.trans (State.enterDeep_stand ..)
  · split
    · exact (hplace.trans (State.eraseSector_stand ..)).toEnginesStand
    · exact (State.deliverSector_stand ..).toEnginesStand

end Sys2Proof.Machine
end

section
/-!
PROOFS. The first-pass and deep engines (R117 to R123), one lemma per outcome. Settles O56.
-/

namespace Sys2Proof.Machine

/-! ## Sectors and engines after a change -/

/-- A change of one sector that leaves it its number. -/
theorem State.sector_modSector_named {s : State} {k : Nat} {x : Sector} (h : s.sector k = some x) (f : Sector → Sector)
    (hf : ∀ y, y.id = k → (f y).id = k) : (s.modSector k f).sector k = some (f x) := by
  have hid (y : Sector) : ((if y.id = k then f y else y).id == k) = (y.id == k) := by
    split
    · rw [hf y ‹_›, ‹y.id = k›]
    · rfl
  have hmap := find?_map_congr (p := fun y : Sector => y.id == k) hid s.decode.sectors
  rw [show s.decode.sectors.find? (fun y => y.id == k) = some x from h, Option.map_some, if_pos (State.sector_id h)] at hmap
  exact hmap

theorem State.modSector_stand (s : State) (id : Nat) (f : Sector → Sector) : DecodersStand s (s.modSector id f) := ⟨⟨rfl, rfl, rfl, rfl⟩, rfl⟩

theorem State.modEngine_self (s : State) (e : Fin 32) (f : FpEngine → FpEngine) :
    (s.modEngine e f).decode.engines[e] = f s.decode.engines[e] := by
  simp [State.modEngine, State.modDec]

theorem State.modEngine_other (s : State) {e k : Fin 32} (f : FpEngine → FpEngine) (h : k ≠ e) :
    (s.modEngine e f).decode.engines[k] = s.decode.engines[k] := by
  simp [State.modEngine, State.modDec, Fin.val_ne_of_ne (Ne.symm h)]

/-! ## Binding (R117) -/

section Bind

variable {s : State} {e : Fin 32} {b : Fin 2} {x : Sector}

/-- A sector as the binding of record x leaves it. -/
def Sector.boundTo (s : State) (e : Fin 32) (b : Fin 2) (x y : Sector) : Sector :=
  { y with
    stage := .bound e.val b.val, fpCfg := (s.reg R.DC_FP_CFG).toNat, inBufAt := s.now + transferTicks (max x.soft.length x.channel.length) }

/-- One more binding of the island's count. -/
def State.countBinding (s : State) : State := s.modDec fun d => { d with bindings := d.bindings + 1 }

theorem State.bindSector_eq (s : State) (e : Fin 32) (b : Fin 2) (x : Sector) :
    s.bindSector e b x = ((s.modEngine e fun g => g.setBuf b (some x.id)).countBinding).modSector x.id (Sector.boundTo s e b x) := rfl

theorem State.bindSector_engines (s : State) (e : Fin 32) (b : Fin 2) (x : Sector) :
    (s.bindSector e b x).decode.engines = (s.modEngine e fun g => g.setBuf b (some x.id)).decode.engines := rfl

theorem State.bindSector_sector (h : s.sector x.id = some x) : (s.bindSector e b x).sector x.id = some (x.boundTo s e b x) := by
  rw [State.bindSector_eq]
  exact State.sector_modSector_self h _ fun _ => rfl

theorem exec_firstPassBind_record (hbuf : s.decode.engines[e].buf b = none) (horders : s.decode.reframeQ = []) (hroom : s.outRingFull = false)
    (hnext : s.nextHeadRecord = some x) (hhere : x.spilled = none) :
    exec (.firstPassBind e b false) s = .next ((s.modSector x.id fun _ => x).bindSector e b x) := by
  show execFirstPassBind e b false s = _
  have hfetch : s.fetchSpilled x = (some x, s) := by
    unfold State.fetchSpilled
    rw [hhere]
  unfold execFirstPassBind
  simp only [hbuf, Option.isSome_none, Bool.false_eq_true, if_false, hroom, hnext, horders, execFirstPassBind.bindOr, hfetch]

end Bind

theorem firstPassBind_binds (e : Fin 32) (b : Fin 2) (bad : Bool) (x : Sector) : Completes (.firstPassBind e b bad)
    (fun s => (s.decode.engines[e].buf b) = none ∧ bad = false ∧ s.decode.reframeQ = [] ∧ s.outRingFull = false ∧ s.nextHeadRecord = some x ∧ s.sector x.id = some x ∧ x.spilled = none)
    [.events, .regs, .decode, .seq, .mem, .out]
    fun s t => t.decode.engines[e] = s.decode.engines[e].setBuf b (some x.id) ∧ t.decode.bindings = s.decode.bindings + 1 ∧
        t.sector x.id = some { x with
          stage := .bound e.val b.val, fpCfg := (s.reg R.DC_FP_CFG).toNat, inBufAt := s.now + transferTicks (max x.soft.length x.channel.length) } ∧
        (∀ f : Fin 32, f ≠ e → t.decode.engines[f] = s.decode.engines[f]) ∧ t.regs = s.regs ∧ t.mem = s.mem ∧ t.events = s.events := by
  refine Completes.of_keeps (execFirstPassBind_keeps e b bad) ?_
  rintro s - ⟨hbuf, rfl, horders, hroom, hnext, hx, hhere⟩
  have hsame : (s.modSector x.id fun _ => x).sector x.id = some x := State.sector_modSector_named hx _ fun _ _ => rfl
  refine ⟨_, exec_firstPassBind_record hbuf horders hroom hnext hhere, ?_, rfl, State.bindSector_sector hsame, fun f hf => ?_, rfl, rfl, rfl⟩
  · rw [State.bindSector_engines, State.modEngine_self]
    rfl
  · rw [State.bindSector_engines, State.modEngine_other _ _ hf]
    rfl

theorem firstPassBind_in_use (e : Fin 32) (b : Fin 2) (bad : Bool) : Completes (.firstPassBind e b bad)
    (fun s => (s.decode.engines[e].buf b).isSome = true)
    [.events, .regs, .decode, .seq, .mem, .out]
    fun s t => t.decode = s.decode ∧ t.regs = s.regs ∧ t.mem = s.mem := by
  refine Completes.of_keeps (execFirstPassBind_keeps e b bad) ?_
  rintro s - hbuf
  have hexec : execFirstPassBind e b bad s = .next s := if_pos hbuf
  exact ⟨s, hexec, rfl, rfl, rfl⟩

/-! ## First pass (R118, R119) -/

section FirstPass

variable {s : State} {e : Fin 32} {c : DecodeCore} {x : Sector}

/-- The core that starts on a record with one framing at most. -/
def firstCore (x : Sector) (now : Stamp) : DecodeCore :=
  DecodeCore.start x.id (coreInput x none) (natBits x.fpCfg 2 0) (natBits x.fpCfg 27 24) (natBits x.fpCfg 23 12) (now + firstPassTicks) []

/-- An engine whose core takes record x out of its buffer. -/
def FpEngine.take (x : Sector) (now : Stamp) (q : FpEngine) : FpEngine :=
  { (if q.buf0 = some x.id then { q with buf0 := none } else { q with buf1 := none }) with core := some (firstCore x now) }

/-- A core taken by a record of one of its buffers. -/
def State.startCore (s : State) (e : Fin 32) (x : Sector) : State :=
  (s.modEngine e (FpEngine.take x s.now)).modSector x.id fun y => { y with stage := .firstPass e.val }

theorem State.modEngine_modEngine (s : State) (e : Fin 32) (f g : FpEngine → FpEngine) :
    (s.modEngine e f).modEngine e g = s.modEngine e fun q => g (f q) := by
  simp [State.modEngine, State.modDec]

theorem exec_firstPassStart_ready (hengine : s.decode.engines[e] = ⟨none, some x.id, none⟩) (hx : s.sector x.id = some x)
    (hcomplete : x.complete = true) (hin : x.inBufAt ≤ s.now) (hone : x.framings.length < 2) :
    exec (.firstPassStart e false) s = .next (s.startCore e x) := by
  show execFirstPassStart e false s = _
  unfold execFirstPassStart
  dsimp only
  simp only [hengine, Option.bind_some, Option.bind_none, hx, hcomplete, hin, and_self, if_true, List.append_nil, firstSector, List.foldl_nil,
    Bool.false_eq_true, if_false, if_neg (Nat.not_le.mpr hone), List.head?_nil, State.modEngine_modEngine]
  rfl

theorem firstPassStart_starts (e : Fin 32) (bufErr : Bool) (x : Sector) : Completes (.firstPassStart e bufErr)
    (fun s => s.decode.engines[e] = ⟨none, some x.id, none⟩ ∧ s.sector x.id = some x ∧ x.complete = true ∧ x.inBufAt ≤ s.now ∧ bufErr = false ∧
        x.framings.length < 2)
    [.events, .regs, .decode, .seq, .mem, .out]
    fun s t => (t.decode.engines[e].core.map fun c => (c.sector, c.iter, c.cap, c.iterEnds)) = some (x.id, 0, natBits x.fpCfg 2 0, s.now + 1600) ∧
        (t.decode.engines[e].core.map fun c => (c.beta, c.hopeless, c.contest)) = some (natBits x.fpCfg 27 24, natBits x.fpCfg 23 12, []) ∧
        t.decode.engines[e].buf0 = none ∧ t.sector x.id = some { x with stage := .firstPass e.val } ∧
        (∀ f : Fin 32, f ≠ e → t.decode.engines[f] = s.decode.engines[f]) ∧ t.regs = s.regs ∧ t.mem = s.mem := by
  refine Completes.of_keeps (execFirstPassStart_keeps e bufErr) ?_
  rintro s - ⟨hengine, hx, hcomplete, hin, rfl, hone⟩
  have hcore : (s.startCore e x).decode.engines[e] = ⟨some (firstCore x s.now), none, none⟩ := by
    show (s.modEngine e (FpEngine.take x s.now)).decode.engines[e] = _
    rw [State.modEngine_self, hengine, FpEngine.take, if_pos rfl]
  refine ⟨_, exec_firstPassStart_ready hengine hx hcomplete hin hone, ?_, ?_, ?_, ?_, fun f hf => ?_, rfl, rfl⟩
  · rw [hcore]
    rfl
  · rw [hcore]
    rfl
  · rw [hcore]
  · exact State.sector_modSector_self (f := fun y => { y with stage := .firstPass e.val }) hx fun _ => rfl
  · exact s.modEngine_other (FpEngine.take x s.now) hf

/-- The core after one more iteration, with the posteriors and messages that it leaves. -/
def DecodeCore.iterated (c : DecodeCore) (r : Array Int × Array (List Int)) (ends : Stamp) : DecodeCore :=
  { c with post := r.1, msg := r.2, iter := c.iter + 1, iterEnds := ends }

theorem exec_firstPassIterationEnd_run (hcore : s.decode.engines[e].core = some c) (hdue : c.iterEnds ≤ s.now) (hx : s.sector c.sector = some x)
    (hone : c.contest = []) : exec (.firstPassIterationEnd e) s = .next (s.runFirstPass e x c 0) := by
  show execFirstPassIterationEnd e s = _
  unfold execFirstPassIterationEnd
  simp only [hcore, if_neg (Nat.not_lt.mpr hdue), hx, hone]

/-- The record of a sector after an iteration. -/
def Sector.afterFirst (c : DecodeCore) (post : Array Int) (iters : Nat) (y : Sector) : Sector :=
  { y with info := y.info.afterFirst iters (syndromeWeight post) (flippedCount c.ch post) }

/-- With every check satisfied the end of a first-pass decode is the acceptance. -/
theorem State.endFirstPass_stand (s : State) (x : Sector) (c : DecodeCore) (post : Array Int) (iters : Nat) :
    EnginesStand s (s.endFirstPass x c post 0 iters) := by
  unfold State.endFirstPass
  extract_lets y put
  rw [if_pos rfl]
  exact (State.modSector_stand ..).toEnginesStand.trans (State.acceptSector_stand ..)

variable {r : Array Int × Array (List Int)} (hr : iterate (firstPassRule c.beta) c.post c.msg = r)

include hr

theorem State.runFirstPass_eq (extra : Nat) :
    s.runFirstPass e x c extra =
      if syndromeWeight r.1 = 0 ∨ c.cap ≤ c.iter + 1 then
        (s.modEngine e fun q => { q with core := none }).endFirstPass x c r.1 (syndromeWeight r.1) (c.iter + 1 + extra)
      else (s.modEngine e fun q => { q with core := some (c.iterated r (s.now + firstPassTicks)) }).modSector x.id (Sector.afterFirst c r.1 (c.iter + 1 + extra)) := by
  rw [State.runFirstPass, hr]
  rfl

theorem State.runFirstPass_next (hweight : syndromeWeight r.1 ≠ 0) (hcap : c.iter + 1 < c.cap) (extra : Nat) :
    s.runFirstPass e x c extra = (s.modEngine e fun q => { q with core := some (c.iterated r (s.now + firstPassTicks)) }).modSector x.id
      (Sector.afterFirst c r.1 (c.iter + 1 + extra)) := by
  rw [State.runFirstPass_eq hr, if_neg (by omega)]

theorem State.runFirstPass_accepts (hweight : syndromeWeight r.1 = 0) (extra : Nat) :
    EnginesStand (s.modEngine e fun q => { q with core := none }) (s.runFirstPass e x c extra) := by
  rw [State.runFirstPass_eq hr, if_pos (.inl hweight), hweight]
  exact State.endFirstPass_stand ..

end FirstPass

theorem firstPassIterationEnd_iterates (e : Fin 32) (c : DecodeCore) (x : Sector) : Completes (.firstPassIterationEnd e)
    (fun s => s.decode.engines[e].core = some c ∧ c.iterEnds ≤ s.now ∧ s.sector c.sector = some x ∧ c.contest = [] ∧ c.iter + 1 < c.cap)
    [.events, .regs, .heads, .decode, .seq, .mem, .out, .free]
    fun s t => (syndromeWeight (iterate (firstPassRule c.beta) c.post c.msg).1 ≠ 0 →
          t.decode.engines[e].core = some { c with
            post := (iterate (firstPassRule c.beta) c.post c.msg).1, msg := (iterate (firstPassRule c.beta) c.post c.msg).2
            iter := c.iter + 1, iterEnds := s.now + 1600 } ∧ t.regs = s.regs ∧ t.mem = s.mem ∧ t.free = s.free) ∧
        (syndromeWeight (iterate (firstPassRule c.beta) c.post c.msg).1 = 0 → t.decode.engines[e].core = none) := by
  refine Completes.of_keeps (execFirstPassIterationEnd_keeps e) ?_
  rintro s - ⟨hcore, hdue, hx, hone, hcap⟩
  generalize hr : iterate (firstPassRule c.beta) c.post c.msg = r
  refine ⟨_, exec_firstPassIterationEnd_run hcore hdue hx hone, fun hweight => ?_, fun hweight => ?_⟩
  · rw [State.runFirstPass_next hr hweight hcap]
    exact ⟨congrArg FpEngine.core (s.modEngine_self e fun q => { q with core := some (c.iterated r (s.now + firstPassTicks)) }), rfl, rfl, rfl⟩
  · rw [(State.runFirstPass_accepts hr hweight 0).engines, State.modEngine_self]

theorem firstPassIterationEnd_gone (e : Fin 32) (c : DecodeCore) : Completes (.firstPassIterationEnd e)
    (fun s => s.decode.engines[e].core = some c ∧ c.iterEnds ≤ s.now ∧ s.sector c.sector = none)
    [.events, .regs, .heads, .decode, .seq, .mem, .out, .free]
    fun s t => t.decode = { s.decode with engines := s.decode.engines.set e { s.decode.engines[e] with core := none } } ∧ t.regs = s.regs ∧ t.mem = s.mem ∧
        t.heads = s.heads ∧ t.free = s.free := by
  refine Completes.of_keeps (execFirstPassIterationEnd_keeps e) ?_
  rintro s - ⟨hcore, hdue, hgone⟩
  have hexec : exec (.firstPassIterationEnd e) s = .next (s.modEngine e fun q => { q with core := none }) := by
    show execFirstPassIterationEnd e s = _
    unfold execFirstPassIterationEnd
    simp only [hcore, if_neg (Nat.not_lt.mpr hdue), hgone]
  exact ⟨_, hexec, rfl, rfl, rfl, rfl, rfl⟩

/-! ## Deep decoding (R120, R121) -/

/-- A deep core set. -/
def State.setDeep (s : State) (e : Fin 4) (c : Option DecodeCore) : State := s.modDec fun d => { d with deep := d.deep.set e c }

/-- A sector counted and erased with DEEP_FAIL. -/
theorem State.countThenErase_stand (s : State) (x : Sector) (k path : Nat) :
    DecodersStand s ((s.countSector x k).eraseSector x path 1 fun i => { i with deepFail := true }) :=
  (s.countIn_stand x.head x.pass x.layer x.band k 1).trans (State.eraseSector_stand ..)

theorem State.setDeep_self (s : State) (e : Fin 4) (c : Option DecodeCore) : (s.setDeep e c).decode.deep[e] = c := by
  simp [State.setDeep, State.modDec]

theorem State.setDeep_other (s : State) {e k : Fin 4} (c : Option DecodeCore) (h : k ≠ e) : (s.setDeep e c).decode.deep[k] = s.decode.deep[k] := by
  simp [State.setDeep, State.modDec, Fin.val_ne_of_ne (Ne.symm h)]

theorem State.setDeep_deepQ (s : State) (e : Fin 4) (c : Option DecodeCore) : (s.setDeep e c).decode.deepQ = s.decode.deepQ := rfl

theorem ReadRun.withDecode_bad (r : ReadRun) (v : DecodeState) : (r.withDecode v).bad = r.bad := rfl

section DeepStart

variable {s : State} {e : Fin 4} {d : DeepEntry} {rest : List DeepEntry} {x : Sector}

/-- The first entry has left the deep queue. -/
def State.leaveDeep (s : State) : State := (s.modDec fun d => { d with deepQ := d.deepQ.drop 1 }).deepEpisode

theorem State.deepEpisode_stand (s : State) : DecodersStand s s.deepEpisode := .ite ⟨⟨rfl, rfl, rfl, rfl⟩, rfl⟩ (.refl s)

theorem State.leaveDeep_stand (s : State) : EnginesStand s s.leaveDeep :=
  .trans (t := s.modDec fun d => { d with deepQ := d.deepQ.drop 1 }) ⟨rfl, rfl, rfl, rfl⟩ (State.deepEpisode_stand _).toEnginesStand

theorem State.leaveDeep_deepQ (h : s.decode.deepQ = d :: rest) : s.leaveDeep.decode.deepQ = rest := by
  refine (State.deepEpisode_stand _).deepQ.trans ?_
  show s.decode.deepQ.drop 1 = rest
  rw [h]
  rfl

theorem State.leaveDeep_sector (s : State) (k : Nat) : s.leaveDeep.sector k = s.sector k := by
  unfold State.leaveDeep State.deepEpisode
  split <;> rfl

/-- The values of a deep entry read from deep staging. -/
def State.deepRead (s : State) (d : DeepEntry) : ReadRun := s.memRead 3 (d.addr + 64) (softBytes codeBits)

theorem State.deepRead_withDecode (s : State) (d : DeepEntry) (v : DecodeState) : (s.withDecode v).deepRead d = (s.deepRead d).withDecode v :=
  State.memRead_withDecode ..

theorem State.deepRead_keeps (s : State) (d : DeepEntry) : Keeps [.events, .regs, .mem, .out] s (s.deepRead d).st := State.memRead_keeps ..

theorem State.deepRead_memRegs (s : State) (d : DeepEntry) : MemRegsOnly s (s.deepRead d).st := State.memRead_memRegs ..

theorem State.leaveDeep_eq (s : State) : s.leaveDeep = s.withDecode s.leaveDeep.decode := by
  unfold State.leaveDeep State.deepEpisode
  split <;> rfl

theorem State.leaveDeep_deepRead (s : State) (d : DeepEntry) : s.leaveDeep.deepRead d = (s.deepRead d).withDecode s.leaveDeep.decode := by
  generalize hv : s.leaveDeep.decode = v
  rw [s.leaveDeep_eq, hv, State.deepRead_withDecode]

theorem State.deepRead_tb (s : State) (d : DeepEntry) : (s.deepRead d).st.time.tb = s.time.tb :=
  (s.deepRead_keeps d).tb_eq rfl

theorem State.deepRead_cfg (s : State) (d : DeepEntry) (p : FieldPos) : (s.deepRead d).st.fld R.DC_DEEP_CFG p = s.fld R.DC_DEEP_CFG p :=
  (s.deepRead_memRegs d).fld (by decide) p

/-- The core that starts on the values read. -/
def deepStarted (d : DeepEntry) (r : ReadRun) : DecodeCore :=
  deepCore d.sector (unpackSoft r.bytes codeBits).toArray (r.st.fld R.DC_DEEP_CFG F.DC_DEEP_CFG_SCALE) (r.st.fld R.DC_DEEP_CFG F.DC_DEEP_CFG_ITER)
    (r.st.now + deepTicks)

/-- What a free engine makes of the values read for the entry that has left the queue. -/
def State.startDeep (e : Fin 4) (d : DeepEntry) (x : Sector) (r : ReadRun) : State :=
  if r.bad = [] then (r.st.setDeep e (some (deepStarted d r))).modSector d.sector fun y => { y with stage := .deep e.val }
  else (r.st.countSector x 4).eraseSector x 1 1 fun i => { i with deepFail := true }

theorem State.startDeep_clean {r : ReadRun} (h : r.bad = []) :
    State.startDeep e d x r = (r.st.setDeep e (some (deepStarted d r))).modSector d.sector fun y => { y with stage := .deep e.val } := if_pos h

theorem State.startDeep_bad {r : ReadRun} (h : r.bad ≠ []) :
    State.startDeep e d x r = (r.st.countSector x 4).eraseSector x 1 1 fun i => { i with deepFail := true } := if_neg h

theorem exec_deepStart (hfree : s.decode.deep[e] = none) (hq : s.decode.deepQ = d :: rest) (hx : s.sector d.sector = some x) :
    exec (.deepStart e false) s = .next (State.startDeep e d x ((s.deepRead d).withDecode s.leaveDeep.decode)) := by
  show execDeepStart e false s = _
  have hleft : s.leaveDeep.sector d.sector = some x := (s.leaveDeep_sector _).trans hx
  unfold execDeepStart
  rw [hfree, hq, ← State.leaveDeep_deepRead]
  dsimp only
  rw [show (s.modDec fun d => { d with deepQ := d.deepQ.drop 1 }).deepEpisode = s.leaveDeep from rfl, hleft]
  dsimp only
  rw [show s.leaveDeep.memRead 3 (d.addr + 64) (softBytes codeBits) = s.leaveDeep.deepRead d from rfl]
  generalize s.leaveDeep.deepRead d = r
  unfold State.startDeep
  by_cases hclean : r.bad = []
  · rw [if_pos hclean, hclean]
    rfl
  · have hnot : (!r.bad.isEmpty) = true := by simpa using hclean
    rw [if_neg hclean, hnot]
    rfl

end DeepStart

theorem deepStart_starts (e : Fin 4) (bad : Bool) (d : DeepEntry) (rest : List DeepEntry) (x : Sector) : Completes (.deepStart e bad)
    (fun s => s.decode.deep[e] = none ∧ s.decode.deepQ = d :: rest ∧ s.sector d.sector = some x ∧ bad = false)
    [.events, .regs, .decode, .seq, .mem, .out]
    fun s t => t.decode.deepQ = rest ∧ (∀ f : Fin 4, f ≠ e → t.decode.deep[f] = s.decode.deep[f]) ∧
        ((s.memRead 3 (d.addr + 64) (softBytes codeBits)).bad = [] →
          (t.decode.deep[e].map fun c => (c.sector, c.iter, c.cap, c.iterEnds)) =
            some (d.sector, 0, s.fld R.DC_DEEP_CFG F.DC_DEEP_CFG_ITER, s.now + 1800) ∧
          t.sector d.sector = some { x with stage := .deep e.val }) ∧
        ((s.memRead 3 (d.addr + 64) (softBytes codeBits)).bad ≠ [] → t.decode.deep[e] = none) := by
  refine Completes.of_keeps (execDeepStart_keeps e bad) ?_
  rintro s - ⟨hfree, hq, hx, rfl⟩
  have hexec := exec_deepStart hfree hq hx
  have hnow := s.deepRead_tb d
  have hcfg := s.deepRead_cfg d F.DC_DEEP_CFG_ITER
  have hleft := State.leaveDeep_deepQ hq
  have hdeep := s.leaveDeep_stand.deep
  have hsector := s.leaveDeep_sector d.sector
  rw [show s.memRead 3 (d.addr + 64) (softBytes codeBits) = s.deepRead d from rfl]
  generalize s.deepRead d = r at hexec hnow hcfg ⊢
  generalize s.leaveDeep = u at hexec hleft hdeep hsector
  by_cases hclean : r.bad = []
  · rw [State.startDeep_clean ((r.withDecode_bad _).trans hclean)] at hexec
    have hstand := State.modSector_stand ((r.withDecode u.decode).st.setDeep e (some (deepStarted d (r.withDecode u.decode)))) d.sector
      fun y => { y with stage := .deep e.val }
    refine ⟨_, hexec, ?_, fun f hf => ?_, fun _ => ⟨?_, ?_⟩, fun h => absurd hclean h⟩
    · rw [hstand.deepQ, State.setDeep_deepQ]
      exact hleft
    · rw [hstand.deep, State.setDeep_other _ _ hf]
      exact congrArg (·[f]) hdeep
    · rw [hstand.deep, State.setDeep_self]
      rw [State.now, ← hnow, ← hcfg]
      rfl
    · exact State.sector_modSector_self (f := fun y => { y with stage := .deep e.val }) (hsector.trans hx) fun _ => rfl
  · rw [State.startDeep_bad ((r.withDecode_bad u.decode).symm ▸ hclean)] at hexec
    have hstand := State.countThenErase_stand (r.withDecode u.decode).st x 4 1
    refine ⟨_, hexec, hstand.deepQ.trans hleft, fun f _ => ?_, fun h => absurd h hclean, fun _ => ?_⟩
    · exact congrArg (·[f]) (hstand.deep.trans hdeep)
    · exact (congrArg (·[e]) (hstand.deep.trans hdeep)).trans hfree

section DeepIteration

variable {s : State} {e : Fin 4} {c : DecodeCore} {x : Sector} {r : Array Int × Array (List Int)}

/-- The record of a sector after a deep iteration. -/
def Sector.afterDeep (c : DecodeCore) (post : Array Int) (x : Sector) : Sector :=
  { x with info := { x.info with deepIter := c.iter + 1, syndrome := syndromeWeight post, flipped := flippedCount c.ch post } }

theorem exec_deepIterationEnd (hcore : s.decode.deep[e] = some c) (hdue : c.iterEnds ≤ s.now) (hx : s.sector c.sector = some x)
    (hr : iterate deepRule c.post c.msg = r) :
    exec (.deepIterationEnd e) s = .next (
      if syndromeWeight r.1 = 0 then
        ((s.setDeep e none).modSector x.id fun _ => x.afterDeep c r.1).acceptSector (x.afterDeep c r.1) c.ch r.1 true
      else if c.cap ≤ c.iter + 1 then
        ((s.setDeep e none).countSector (x.afterDeep c r.1) 4).eraseSector (x.afterDeep c r.1) 1 1 fun i => { i with deepFail := true }
      else (s.setDeep e (some (c.iterated r (s.now + deepTicks)))).modSector x.id fun _ => x.afterDeep c r.1) := by
  obtain ⟨post, msg⟩ := r
  show execDeepIterationEnd e s = _
  unfold execDeepIterationEnd
  simp only [hcore, if_neg (Nat.not_lt.mpr hdue), hx]
  rw [hr]
  split
  · rfl
  · split <;> rfl

end DeepIteration

theorem deepIterationEnd_iterates (e : Fin 4) (c : DecodeCore) (x : Sector) : Completes (.deepIterationEnd e)
    (fun s => s.decode.deep[e] = some c ∧ c.iterEnds ≤ s.now ∧ s.sector c.sector = some x)
    [.events, .regs, .heads, .decode, .seq, .mem, .out, .free]
    fun s t => (syndromeWeight (iterate deepRule c.post c.msg).1 ≠ 0 → c.iter + 1 < c.cap →
          t.decode.deep[e] = some { c with
            post := (iterate deepRule c.post c.msg).1, msg := (iterate deepRule c.post c.msg).2, iter := c.iter + 1, iterEnds := s.now + 1800 } ∧
          t.regs = s.regs ∧ t.mem = s.mem ∧ t.free = s.free) ∧
        (syndromeWeight (iterate deepRule c.post c.msg).1 = 0 ∨ c.cap ≤ c.iter + 1 → t.decode.deep[e] = none) := by
  refine Completes.of_keeps (execDeepIterationEnd_keeps e) ?_
  rintro s - ⟨hcore, hdue, hx⟩
  have hfree {t : State} (h : EnginesStand (s.setDeep e none) t) : t.decode.deep[e] = none := by
    rw [h.deep, State.setDeep_self]
  generalize hr : iterate deepRule c.post c.msg = r
  have hexec := exec_deepIterationEnd hcore hdue hx hr
  by_cases hweight : syndromeWeight r.1 = 0
  · rw [if_pos hweight] at hexec
    refine ⟨_, hexec, fun h => absurd hweight h, fun _ => hfree ((State.modSector_stand ..).toEnginesStand.trans (State.acceptSector_stand ..))⟩
  · rw [if_neg hweight] at hexec
    by_cases hcap : c.cap ≤ c.iter + 1
    · rw [if_pos hcap] at hexec
      have hstand := (s.setDeep e none).countThenErase_stand (x.afterDeep c r.1) 4 1
      exact ⟨_, hexec, fun _ h => absurd hcap (Nat.not_le.mpr h), fun _ => hfree hstand.toEnginesStand⟩
    · rw [if_neg hcap] at hexec
      exact ⟨_, hexec, fun _ _ => ⟨State.setDeep_self .., rfl, rfl, rfl⟩, fun h => (h.elim hweight hcap).elim⟩

theorem deepIterationEnd_gone (e : Fin 4) (c : DecodeCore) : Completes (.deepIterationEnd e)
    (fun s => s.decode.deep[e] = some c ∧ c.iterEnds ≤ s.now ∧ s.sector c.sector = none)
    [.events, .regs, .heads, .decode, .seq, .mem, .out, .free]
    fun s t => t.decode = { s.decode with deep := s.decode.deep.set e none } ∧ t.regs = s.regs ∧ t.mem = s.mem ∧ t.free = s.free := by
  refine Completes.of_keeps (execDeepIterationEnd_keeps e) ?_
  rintro s - ⟨hcore, hdue, hgone⟩
  have hexec : exec (.deepIterationEnd e) s = .next (s.setDeep e none) := by
    show execDeepIterationEnd e s = _
    unfold execDeepIterationEnd
    simp only [hcore, if_neg (Nat.not_lt.mpr hdue), hgone]
    rfl
  exact ⟨_, hexec, rfl, rfl, rfl, rfl⟩

/-- Settles O56: the binding, the start and the iterations of a first-pass engine, then those of a deep engine, one lemma per outcome. -/
theorem decodeEngines : Obligations.DecodeEngines :=
  ⟨firstPassBind_binds, firstPassBind_in_use, firstPassStart_starts, firstPassIterationEnd_iterates, firstPassIterationEnd_gone,
    deepStart_starts, deepIterationEnd_iterates, deepIterationEnd_gone⟩

end Sys2Proof.Machine
end

section
/-!
PROOFS. Twill and surface-parity jobs, decode work, run-ahead discards and the decode registers (R126 to R139), one lemma per outcome.
Settles O57.
-/

namespace Sys2Proof.Machine

/-- What an event of the decode island logs depends on the event island and the time alone. -/
theorem State.logDec_events_congr {s t : State} (hevents : t.events = s.events) (htime : t.time = s.time) (code a0 a1 a2 a3 : Nat) :
    (t.logDec code a0 a1 a2 a3).events = (s.logDec code a0 a1 a2 a3).events := by
  unfold State.logDec State.log
  rw [State.stamp_congr htime]
  exact State.logAt_events_congr hevents ..

theorem State.logDec_regs (s : State) (code a0 a1 a2 a3 : Nat) : (s.logDec code a0 a1 a2 a3).regs = s.regs := s.log_regs ..

/-! ## Twill jobs (R126, R127) -/

section TwillJob

variable {s : State} {g : Group} {w : DecWork}

/-- A job with more than two unknown members by its mask reads nothing. -/
theorem State.planTwill_many (s : State) (h : 2 < popCount 16 g.unknownMask) : s.planTwill (.group g) = (⟨2, [], 0⟩, g.unknownMask, s) := by
  unfold State.planTwill twillInputs
  exact if_pos h

/-- The twill engine takes a job. -/
def State.startTwill (s : State) (j : TwillJob) : State :=
  s.modDec fun d => { d with
    twill := some (j, s.now + jobTicks (if (s.planTwill j).1.status = 2 then 0 else 16 - popCount 16 (s.planTwill j).2.1)
      (s.planTwill j).1.newData.length) }

theorem State.startTwill_many (s : State) (h : 2 < popCount 16 g.unknownMask) :
    s.startTwill (.group g) = s.modDec fun d => { d with twill := some (.group g, s.now + 80) } := by
  unfold State.startTwill
  rw [s.planTwill_many h, if_pos rfl]
  dsimp only [List.length_nil]
  rw [show jobTicks 0 0 = 80 by decide]

theorem exec_twillJobStart_enc {rest : List DecWork} (hidle : s.decode.twill = none) (hq : s.decode.twillEncQ = w :: rest) :
    exec .twillJobStart s = .next ((s.modDec fun d => { d with twillEncQ := rest }).startTwill (.enc w)) := by
  show execTwillJobStart s = _
  unfold execTwillJobStart State.startTwill
  rw [hidle, hq]

theorem exec_twillJobStart_group {rest : List Group} (hidle : s.decode.twill = none) (henc : s.decode.twillEncQ = [])
    (hq : s.decode.twillQ = g :: rest) : exec .twillJobStart s = .next ((s.modDec fun d => { d with twillQ := rest }).startTwill (.group g)) := by
  show execTwillJobStart s = _
  unfold execTwillJobStart State.startTwill
  rw [hidle, henc, hq]

theorem exec_twillJobStart_dec {rest : List DecWork} (hidle : s.decode.twill = none) (henc : s.decode.twillEncQ = [])
    (hgroups : s.decode.twillQ = []) (hq : s.decode.twillDecQ = w :: rest) :
    exec .twillJobStart s = .next ((s.modDec fun d => { d with twillDecQ := rest }).startTwill (.dec w)) := by
  show execTwillJobStart s = _
  unfold execTwillJobStart State.startTwill
  rw [hidle, henc, hgroups, hq]

end TwillJob

theorem twillJobStart_group (g : Group) (rest : List Group) : Completes .twillJobStart
    (fun s => s.decode.twill = none ∧ s.decode.twillEncQ = [] ∧ s.decode.twillQ = g :: rest ∧ 2 < popCount 16 g.unknownMask)
    [.events, .regs, .decode, .mem, .out]
    fun s t => t.decode = { s.decode with twillQ := rest, twill := some (.group g, s.now + 80) } ∧ t.regs = s.regs ∧ t.mem = s.mem := by
  refine Completes.of_keeps execTwillJobStart_keeps ?_
  rintro s - ⟨hidle, henc, hq, hmany⟩
  refine ⟨_, exec_twillJobStart_group hidle henc hq, ?_⟩
  rw [State.startTwill_many _ hmany]
  exact ⟨rfl, rfl, rfl⟩

theorem twillJobStart_enc (w : DecWork) (rest : List DecWork) : Completes .twillJobStart
    (fun s => s.decode.twill = none ∧ s.decode.twillEncQ = w :: rest)
    [.events, .regs, .decode, .mem, .out]
    fun s t => t.decode.twillEncQ = rest ∧ t.decode.twill.map Prod.fst = some (.enc w) ∧ t.decode.twillQ = s.decode.twillQ := by
  refine Completes.of_keeps execTwillJobStart_keeps ?_
  rintro s - ⟨hidle, hq⟩
  exact ⟨_, exec_twillJobStart_enc hidle hq, rfl, rfl, rfl⟩

theorem twillJobStart_dec (w : DecWork) (rest : List DecWork) : Completes .twillJobStart
    (fun s => s.decode.twill = none ∧ s.decode.twillEncQ = [] ∧ s.decode.twillQ = [] ∧ s.decode.twillDecQ = w :: rest)
    [.events, .regs, .decode, .mem, .out]
    fun _ t => t.decode.twillDecQ = rest ∧ t.decode.twill.map Prod.fst = some (.dec w) := by
  refine Completes.of_keeps execTwillJobStart_keeps ?_
  rintro s - ⟨hidle, henc, hgroups, hq⟩
  exact ⟨_, exec_twillJobStart_dec hidle henc hgroups hq, rfl, rfl⟩

/-! ## One record into the ring (R138) -/

/-- An episode of a full ring is noted in one flag of the decode island. -/
theorem State.outEpisode_decode (s : State) : ∃ full, s.outEpisode.decode = { s.decode with outFull := full } := by
  unfold State.outEpisode
  split
  · exact ⟨true, State.log_decode ..⟩
  · split
    · exact ⟨false, rfl⟩
    · exact ⟨s.decode.outFull, rfl⟩

section PutRecord

variable (s : State) (r : OutRecord)

/-- The registers after a record: those that its write leaves, and PROD gone on by one. -/
theorem State.putRecord_regs : (s.putRecord r).regs =
    ((s.memWrite 1 (s.outBase + 64 * s.outProd) r.bytes).setFld R.DC_OUT_PROD F.DC_OUT_PROD_PROD ((s.outProd + 1) % 65536)).regs := by
  unfold State.putRecord
  extract_lets i written moved noted
  have hnoted : noted.regs = moved.regs := by
    unfold noted
    split <;> rfl
  exact ((State.outEpisode_keeps noted).frame .regs (by decide)).trans hnoted

theorem State.putRecord_reg {k : Nat} (hk : k < R.MC_CFG) (hprod : k ≠ R.DC_OUT_PROD) : (s.putRecord r).reg k = s.reg k := by
  have hregs := congrArg (storeGet regReset k) (s.putRecord_regs r)
  exact hregs.trans ((State.reg_setFld_other _ _ _ hprod).trans ((s.memWrite_memRegs ..).reg k hk))

theorem State.putRecord_prod : (s.putRecord r).outProd = (s.outProd + 1) % 65536 := by
  have hregs := congrArg (storeGet regReset R.DC_OUT_PROD) (s.putRecord_regs r)
  calc (s.putRecord r).outProd = (s.outProd + 1) % 65536 % 65536 :=
        (State.fld_congr hregs _).trans (State.fld_setFld_self _ _ _ _ (by decide) (by decide))
    _ = (s.outProd + 1) % 65536 := Nat.mod_mod ..

/-- A record without the SPEC mark is noted in no run-ahead band. -/
theorem State.putRecord_runAhead (h : r.spec = none) : (s.putRecord r).decode.runAhead = s.decode.runAhead := by
  unfold State.putRecord
  extract_lets i written moved noted
  have hnoted : noted = moved := by
    unfold noted
    rw [h]
  obtain ⟨full, hepisode⟩ := noted.outEpisode_decode
  rw [hepisode, hnoted]
  show written.decode.runAhead = s.decode.runAhead
  exact congrArg DecodeState.runAhead ((s.memWrite_keeps ..).frame .decode (by decide))

theorem State.emitRecord_room (hroom : s.outRingFull = false) (hnone : s.decode.waiting = []) : s.emitRecord r = s.putRecord r := by
  rw [State.emitRecord, hroom, hnone]
  rfl

end PutRecord

/-- A band that no unclaimed run-ahead band holds is counted at once. -/
theorem State.countIn_unheld {s : State} {head pass layer band : Nat}
    (h : (s.decode.runAhead.any fun r => r.isBand head pass layer band && r.claim.isNone) = false) (k n : Nat) :
    s.countIn head pass layer band k n = s.bumpDc k n := by
  rw [State.countIn, if_neg (by rw [h]; decide)]

section GroupJob

variable {s : State} {g : Group}

/-- The record of a group with too many unknown members. -/
def groupFailed (s : State) (g : Group) : OutRecord :=
  ⟨groupRecord (g.closed.getD s.now) (bandWord g.layer g.band) g.head 2 g.pass g.g g.unknownMask 0 g.rereadMask false, g.head, g.pass, false,
    specMark s g.head g.pass g.layer g.band⟩

/-- A group of a pass ends with too many unknown members: its record, its counter and its event. -/
theorem State.endGroupJob_many (s : State) (h : 2 < popCount 16 g.unknownMask) :
    s.endGroupJob g = ((s.emitRecord (groupFailed s g)).countIn g.head g.pass g.layer g.band 8 1).logDec 0x3004 g.head g.band g.g g.unknownMask := by
  unfold State.endGroupJob
  rw [s.planTwill_many h]
  rfl

/-- The twill engine is idle. -/
def State.freeTwill (s : State) : State := s.modDec fun d => { d with twill := none }

theorem exec_twillJobEnd_group {at' : Stamp} (hjob : s.decode.twill = some (.group g, at')) (hdue : at' ≤ s.now) :
    exec .twillJobEnd s = .next (s.freeTwill.endGroupJob g) := by
  show execTwillJobEnd s = _
  unfold execTwillJobEnd
  rw [hjob]
  exact if_neg (Nat.not_lt.mpr hdue)

end GroupJob

theorem twillJobEnd_group (g : Group) (at' : Stamp) : Completes .twillJobEnd
    (fun s => s.decode.twill = some (.group g, at') ∧ at' ≤ s.now ∧ 2 < popCount 16 g.unknownMask ∧ s.outRingFull = false ∧ s.decode.waiting = [] ∧
        s.fld (R.DC_CNT 8) F.DC_CNT_COUNT < 4294967295 ∧
        (s.decode.runAhead.any fun r => r.isBand g.head g.pass g.layer g.band && r.claim.isNone) = false)
    [.events, .regs, .heads, .decode, .seq, .mem, .out, .free]
    fun s t => t.decode.twill = none ∧ t.fld (R.DC_CNT 8) F.DC_CNT_COUNT = s.fld (R.DC_CNT 8) F.DC_CNT_COUNT + 1 ∧
        t.fld R.DC_OUT_PROD F.DC_OUT_PROD_PROD = (s.fld R.DC_OUT_PROD F.DC_OUT_PROD_PROD + 1) % 65536 ∧ t.free = s.free ∧ t.seq = s.seq := by
  refine Completes.of_keeps execTwillJobEnd_keeps ?_
  rintro s - ⟨hjob, hdue, hmany, hroom, hnone, hcount, hband⟩
  have hmark : (groupFailed s.freeTwill g).spec = none := if_neg (by
    show ¬(s.decode.runAhead.any fun r => r.isBand g.head g.pass g.layer g.band && r.claim.isNone) = true
    rw [hband]
    decide)
  refine ⟨_, exec_twillJobEnd_group hjob hdue, ?_⟩
  rw [State.endGroupJob_many _ hmany, State.emitRecord_room s.freeTwill _ hroom hnone]
  generalize groupFailed s.freeTwill g = r at hmark
  have hput := State.putRecord_stand s.freeTwill r
  have hcnt := State.fld_congr (State.putRecord_reg s.freeTwill r (k := R.DC_CNT 8) (by decide) (by decide)) F.DC_CNT_COUNT
  have hprod := State.putRecord_prod s.freeTwill r
  have hheld := State.putRecord_runAhead s.freeTwill r hmark
  have hkeeps := State.putRecord_keeps s.freeTwill r
  generalize s.freeTwill.putRecord r = u at hput hcnt hprod hheld hkeeps
  rw [State.countIn_unheld (by rw [hheld]; exact hband)]
  have hregs := (u.bumpDc 8 1).logDec_regs 0x3004 g.head g.band g.g g.unknownMask
  have hall : Keeps [.events, .regs, .decode, .mem, .out] s.freeTwill ((u.bumpDc 8 1).logDec 0x3004 g.head g.band g.g g.unknownMask) :=
    .step (State.logDec_keeps ..) rfl (.step (State.bumpDc_keeps ..) rfl hkeeps)
  refine ⟨?_, ?_, ?_, hall.frame .free (by decide), hall.frame .seq (by decide)⟩
  · rw [(State.logDec_stand ..).twill, State.bumpDc, State.bump_decode, hput.twill]
    rfl
  · rw [State.fld_congr (congrArg (storeGet regReset _) hregs), State.bumpDc, State.fld_bump_self _ _ _ _ (by decide) (by decide), hcnt]
    exact Nat.min_eq_right hcount
  · rw [State.fld_congr (congrArg (storeGet regReset _) hregs), State.bumpDc, State.bump, State.fld_setFld_key _ _ _ _ (by decide)]
    exact hprod

/-! ## Surface parity (R130) -/

/-- The completion of a decode order. -/
theorem State.completeWork_posts {s t : State} (hseq : t.seq = s.seq) (htime : t.time = s.time) (w : Waiter) (status data : Nat) :
    Posts w.bobbin ⟨s.stamp .decode, w.tag, .decode, status % 256, data % 2 ^ 32, srcDecode, w.epoch, false⟩ s (t.completeWork w status data) := by
  unfold State.completeWork State.complete State.sendEntry
  rw [State.stamp_congr htime]
  refine ⟨?_, (Elsewhere.of_seq_eq hseq).trans (t.elsewhere_modBob _ _)⟩
  rw [State.bob_modBob_self, State.bob_congr hseq]

section SpJob

variable {s : State} {w : DecWork}

/-- The unknown places of an encoding are its parity places. -/
theorem spInputs_enc (hop : w.op = 4) :
    (spInputs w).2.1 = (List.range 8).filter (fun i => spData (fieldAt w.bytes 0 4 % 4) ≤ i) ∧ (spInputs w).1 = spData (fieldAt w.bytes 0 4 % 4) := by
  unfold spInputs
  exact ⟨if_pos hop, rfl⟩

/-- An encoding reads its data members and writes its parity members in 1,360 ticks, of either mode. -/
theorem spInputs_enc_ticks (hop : w.op = 4) : (spInputs w).2.1.length ≤ 8 - (spInputs w).1 ∧
    jobTicks (8 - (spInputs w).2.1.length) (spInputs w).2.1.length = 1360 := by
  obtain ⟨hunk, hn⟩ := spInputs_enc hop
  rw [hunk, hn]
  unfold spData
  split
  · decide
  · decide

theorem exec_spJobStart_enc {rest : List DecWork} (hidle : s.decode.sp = none) (hq : s.decode.spQ = w :: rest) (hop : w.op = 4) :
    exec .spJobStart s = .next (s.modDec fun d => { d with spQ := rest, sp := some (w, s.now + 1360) }) := by
  obtain ⟨hunk, hticks⟩ := spInputs_enc_ticks hop
  show execSpJobStart s = _
  unfold execSpJobStart
  rw [hidle, hq]
  dsimp only
  rw [if_pos hunk, hticks]

/-- The surface-parity engine is idle. -/
def State.freeSp (s : State) : State := s.modDec fun d => { d with sp := none }

theorem exec_spJobEnd {at' : Stamp} (hjob : s.decode.sp = some (w, at')) (hdue : at' ≤ s.now) : exec .spJobEnd s = .next (s.freeSp.endSp w) := by
  show execSpJobEnd s = _
  unfold execSpJobEnd
  rw [hjob]
  exact when_of_true (decide_eq_true hdue) _ _

theorem State.endSp_over (s : State) (h : 8 - (spInputs w).1 < (spInputs w).2.1.length) :
    s.endSp w = (s.logDec 0x3009 w.who.tag (workStatus 4)).completeWork w.who (workStatus 4) 0 := by
  unfold State.endSp
  generalize spInputs w = x at h ⊢
  obtain ⟨n, unk, addrs⟩ := x
  exact if_pos h

/-- The failure of a surface-parity order changes nothing of the decode island. -/
theorem State.failSp_stand (s : State) (w : DecWork) :
    DecodersStand s ((s.logDec 0x3009 w.who.tag (workStatus 4)).completeWork w.who (workStatus 4) 0) :=
  (s.logDec_stand ..).trans (.of_keeps (State.completeWork_keeps ..) rfl)

/-- The end of a surface-parity order leaves every engine as it stands. -/
theorem State.endSp_stand (s : State) (w : DecWork) : DecodersStand s (s.endSp w) := by
  unfold State.endSp
  split
  rename_i n unk addrs _
  extract_lets fail mask
  split
  · exact s.failSp_stand w
  · split
    rename_i mem read hread
    have hread' : DecodersStand s read := .of_keeps (Keeps.ofSnd hread (State.readMembers_keeps ..)) rfl
    split
    · exact hread'.trans (read.failSp_stand w)
    · extract_lets cols first stamp put
      have hput (t : State) (i : Nat) : DecodersStand t (put t i) := by
        unfold put
        extract_lets data written
        have hwritten : DecodersStand t written := .of_keeps (State.memWrite_keeps ..) rfl
        have hdraw (u : State) : DecodersStand u u.draw.2 := .of_decode rfl
        refine .ite hwritten (hwritten.trans ((hdraw _).trans ((hdraw _).trans ?_)))
        exact .trans (.of_keeps (State.releaseCopy_keeps ..) rfl) (State.emitRecord_stand ..)
      have hfold : DecodersStand read (unk.foldl put read) :=
        List.foldlRecOn (motive := DecodersStand read) unk put (.refl read) fun t ht i _ => ht.trans (hput t i)
      exact hread'.trans (hfold.trans (.of_keeps (State.completeWork_keeps ..) rfl))

/-- An encoding whose members read clean completes with 0. -/
theorem State.endSp_enc_posts (s : State) (hunk : (spInputs w).2.1.length ≤ 8 - (spInputs w).1)
    (hclean : ((indexed (s.readMembers ((spInputs w).2.1.map (2 ^ ·)).sum (spInputs w).2.2).1).any
      fun m => m.2.isNone && !((spInputs w).2.1.contains m.1)) = false) (hop : w.op = 4) :
    Posts w.who.bobbin ⟨s.stamp .decode, w.who.tag, .decode, 0, 0, srcDecode, w.who.epoch, false⟩ s (s.endSp w) := by
  unfold State.endSp
  generalize spInputs w = x at hunk hclean ⊢
  obtain ⟨n, unk, addrs⟩ := x
  dsimp only at hunk hclean ⊢
  rw [if_neg (Nat.not_lt.mpr hunk)]
  have hread := s.readMembers_keeps (unk.map (2 ^ ·)).sum addrs
  generalize s.readMembers (unk.map (2 ^ ·)).sum addrs = found at hread hclean ⊢
  obtain ⟨mem, read⟩ := found
  dsimp only at hread hclean ⊢
  rw [if_neg (by rw [hclean]; decide), if_pos hop]
  have hfold : Keeps [.events, .regs, .mem, .out] s (unk.foldl (fun t i => t.memWrite 3 (addrs.getD i 0)
      (((List.range 4096).map fun j => spColumn n unk (twillColumn mem j)).map fun c => (c.lookup i).getD 0)) read) :=
    Keeps.foldl hread fun t i ht => .step (State.memWrite_keeps ..) rfl ht
  simp only [hop, if_true]
  exact State.completeWork_posts (hfold.frame .seq (by decide)) (hfold.frame .time (by decide)) w.who 0 0

end SpJob

theorem spJobStart_oneParity (w : DecWork) (rest : List DecWork) : Completes .spJobStart
    (fun s => s.decode.sp = none ∧ s.decode.spQ = w :: rest ∧ w.op = 4 ∧ fieldAt w.bytes 0 4 % 4 ≠ 2)
    [.decode]
    fun s t => t.decode = { s.decode with spQ := rest, sp := some (w, s.now + 1360) } := by
  refine Completes.of_keeps execSpJobStart_keeps ?_
  rintro s - ⟨hidle, hq, hop, -⟩
  exact ⟨_, exec_spJobStart_enc hidle hq hop, rfl⟩

theorem spJobStart_twoParity (w : DecWork) (rest : List DecWork) : Completes .spJobStart
    (fun s => s.decode.sp = none ∧ s.decode.spQ = w :: rest ∧ w.op = 4 ∧ fieldAt w.bytes 0 4 % 4 = 2)
    [.decode]
    fun s t => t.decode = { s.decode with spQ := rest, sp := some (w, s.now + 1360) } := by
  refine Completes.of_keeps execSpJobStart_keeps ?_
  rintro s - ⟨hidle, hq, hop, -⟩
  exact ⟨_, exec_spJobStart_enc hidle hq hop, rfl⟩

theorem spJobEnd_over (w : DecWork) (at' : Stamp) : Completes .spJobEnd
    (fun s => s.decode.sp = some (w, at') ∧ at' ≤ s.now ∧ 8 - (spInputs w).1 < (spInputs w).2.1.length)
    [.events, .regs, .heads, .decode, .seq, .mem, .out, .free]
    fun s t => t.decode = { s.decode with sp := none } ∧ t.mem = s.mem ∧ t.regs = s.regs ∧
        Posts w.who.bobbin ⟨s.stamp .decode, w.who.tag, .decode, workStatus 4 % 256, 0, srcDecode, w.who.epoch, false⟩ s t ∧
        t.events = (s.logDec 0x3009 w.who.tag (workStatus 4)).events := by
  refine Completes.of_keeps execSpJobEnd_keeps ?_
  rintro s - ⟨hjob, hdue, hover⟩
  refine ⟨_, exec_spJobEnd hjob hdue, ?_⟩
  rw [State.endSp_over _ hover]
  have hlog := s.freeSp.logDec_keeps 0x3009 w.who.tag (workStatus 4) 0 0
  have hend : Keeps [.events, .seq] s.freeSp ((s.freeSp.logDec 0x3009 w.who.tag (workStatus 4)).completeWork w.who (workStatus 4) 0) :=
    .step (State.completeWork_keeps ..) rfl (hlog.mono rfl)
  refine ⟨hend.frame .decode (by decide), hend.frame .mem (by decide), hend.frame .regs (by decide), ?_, ?_⟩
  · exact State.completeWork_posts (hlog.frame .seq (by decide)) (hlog.frame .time (by decide)) w.who (workStatus 4) 0
  · exact ((State.completeWork_keeps ..).frame .events (by decide)).trans (State.logDec_events_congr (s := s) (t := s.freeSp) rfl rfl ..)

theorem spJobEnd_rebuilds (w : DecWork) (at' : Stamp) : Completes .spJobEnd
    (fun s => s.decode.sp = some (w, at') ∧ at' ≤ s.now ∧ (spInputs w).2.1.length ≤ 8 - (spInputs w).1)
    [.events, .regs, .heads, .decode, .seq, .mem, .out, .free]
    fun s t => t.decode.sp = none ∧
        (((indexed (s.readMembers ((spInputs w).2.1.map (2 ^ ·)).sum (spInputs w).2.2).1).any
            fun m => m.2.isNone && !((spInputs w).2.1.contains m.1)) = false → w.op = 4 →
          Posts w.who.bobbin ⟨s.stamp .decode, w.who.tag, .decode, 0, 0, srcDecode, w.who.epoch, false⟩ s t) := by
  refine Completes.of_keeps execSpJobEnd_keeps ?_
  rintro s - ⟨hjob, hdue, hunk⟩
  refine ⟨_, exec_spJobEnd hjob hdue, (s.freeSp.endSp_stand w).sp, fun hclean hop => ?_⟩
  have hread (mask : Nat) (addrs : List Nat) : (s.freeSp.readMembers mask addrs).1 = (s.readMembers mask addrs).1 := by
    rw [show s.freeSp = s.withDecode s.freeSp.decode from rfl, State.readMembers_withDecode]
  rw [← hread] at hclean
  exact s.freeSp.endSp_enc_posts hunk hclean hop

/-! ## Orders and discards (R131, R134) -/

theorem decodeWorkArrival_joins (w : DecWork) (rest : List DecWork) : Completes .decodeWorkArrival
    (fun s => s.decode.workXing = w :: rest)
    [.decode]
    fun s t => t.decode = { s.decode with
          workXing := rest
          reframeQ := s.decode.reframeQ ++ (if w.op = 1 then [acceptedWork s w] else [])
          twillDecQ := s.decode.twillDecQ ++ (if w.op = 2 then [acceptedWork s w] else [])
          twillEncQ := s.decode.twillEncQ ++ (if w.op = 3 then [acceptedWork s w] else [])
          spQ := s.decode.spQ ++ (if w.op = 1 ∨ w.op = 2 ∨ w.op = 3 then [] else [acceptedWork s w]) } := by
  refine Completes.of_keeps execDecodeWorkArrival_keeps ?_
  rintro s - hq
  have hexec : exec .decodeWorkArrival s = .next ((s.modDec fun d => { d with workXing := rest }).modDec fun d => match w.op with
      | 1 => { d with reframeQ := d.reframeQ ++ [acceptedWork s w] }
      | 2 => { d with twillDecQ := d.twillDecQ ++ [acceptedWork s w] }
      | 3 => { d with twillEncQ := d.twillEncQ ++ [acceptedWork s w] }
      | _ => { d with spQ := d.spQ ++ [acceptedWork s w] }) := by
    show execDecodeWorkArrival s = _
    unfold execDecodeWorkArrival
    rw [hq]
    rfl
  refine ⟨_, hexec, ?_⟩
  generalize acceptedWork s w = a
  unfold State.modDec
  split
  · next h => simp [h]
  · next h => simp [h]
  · next h => simp [h]
  · next h1 h2 h3 => simp [show w.op ≠ 1 from h1, show w.op ≠ 2 from h2, show w.op ≠ 3 from h3]

section Discard

variable (s : State) (r : RunAhead) (cause : Nat)

/-- A discard takes the band, its sectors and its closed groups out of the decode island. -/
theorem State.discardBand_takes :
    (∀ x ∈ (s.discardBand r cause).decode.runAhead, x ≠ r) ∧ (∀ x ∈ (s.discardBand r cause).decode.sectors, r.holds x = false) ∧
      ∀ g ∈ (s.discardBand r cause).decode.twillQ, ¬(g.head = r.head ∧ g.pass = r.pass ∧ g.layer = r.layer ∧ g.band = r.band) := by
  unfold State.discardBand
  extract_lets gone dropped mine taken marked
  have hdecode : ((marked.bumpDc 11 r.sectors).logDec 0x3007 r.head r.band cause r.sectors).decode = taken.decode :=
    (State.log_decode ..).trans ((State.bump_decode ..).trans ((taken.markBand_keeps ..).frame .decode (by decide)))
  rw [hdecode]
  refine ⟨fun x hx => ?_, fun x hx => ?_, fun g hg => ?_⟩
  · simpa using (List.mem_filter.mp hx).2
  · simpa using (List.mem_filter.mp hx).2
  · rintro ⟨hhead, hpass, hlayer, hband⟩
    exact absurd (List.mem_filter.mp hg).2 (by simp [mine, hhead, hpass, hlayer, hband])

/-- What the discard of a band counts and logs. -/
theorem State.discardBand_tells : RegsBut [R.DC_CNT 11] s (s.discardBand r cause) ∧
    (s.discardBand r cause).events = (s.logDec 0x3007 r.head r.band cause r.sectors).events := by
  unfold State.discardBand
  extract_lets gone dropped mine taken marked
  have hmarked : Keeps [.heads, .decode] s marked :=
    .step (State.markBand_keeps ..) rfl (.step (State.modDec_keeps ..) rfl ((s.dropFromQueues_keeps _).mono rfl))
  have hbump := (State.bumpDc_keeps marked 11 r.sectors)
  refine ⟨?_, State.logDec_events_congr ?_ ?_ ..⟩
  · exact ((regsBut_of_regs_eq (hmarked.frame .regs (by decide))).trans (marked.regsBut_bump (R.DC_CNT 11) _ _)).trans
      (regsBut_of_regs_eq (State.logDec_regs ..))
  · exact (hbump.frame .events (by decide)).trans (hmarked.frame .events (by decide))
  · exact (hbump.frame .time (by decide)).trans (hmarked.frame .time (by decide))

end Discard

theorem runAheadDiscardReport_discards (head : Fin 16) (layer band : Nat) (r : RunAhead) : Completes (.runAheadDiscardReport head layer band)
    (fun s => s.decode.runAhead.find? (fun r => r.head == head.val && r.layer == layer && r.band == band && r.claim.isNone) = some r)
    [.events, .regs, .heads, .decode]
    fun s t => (∀ x ∈ t.decode.runAhead, x ≠ r) ∧ (∀ x ∈ t.decode.sectors, r.holds x = false) ∧
        (∀ g ∈ t.decode.twillQ, ¬ (g.head = r.head ∧ g.pass = r.pass ∧ g.layer = r.layer ∧ g.band = r.band)) ∧
        RegsBut [R.DC_CNT 11] s t ∧ t.events = (s.logDec 0x3007 r.head r.band 0 r.sectors).events := by
  refine Completes.of_keeps (execRunAheadDiscardReport_keeps head layer band) ?_
  rintro s - hfind
  have hexec : exec (.runAheadDiscardReport head layer band) s = .next (s.discardBand r 0) := by
    show execRunAheadDiscardReport head layer band s = _
    unfold execRunAheadDiscardReport
    rw [hfind]
  obtain ⟨hband, hsectors, hgroups⟩ := s.discardBand_takes r 0
  exact ⟨_, hexec, hband, hsectors, hgroups, s.discardBand_tells r 0⟩

theorem runAheadDiscardReport_unheld (head : Fin 16) (layer band : Nat) : Completes (.runAheadDiscardReport head layer band)
    (fun s => s.decode.runAhead.find? (fun r => r.head == head.val && r.layer == layer && r.band == band && r.claim.isNone) = none)
    [.events, .regs, .heads, .decode]
    fun s t => t.decode = s.decode ∧ t.regs = s.regs ∧ t.events = s.events := by
  refine Completes.of_keeps (execRunAheadDiscardReport_keeps head layer band) ?_
  rintro s - hfind
  have hexec : exec (.runAheadDiscardReport head layer band) s = .next s := by
    show execRunAheadDiscardReport head layer band s = _
    unfold execRunAheadDiscardReport
    rw [hfind]
  exact ⟨s, hexec, rfl, rfl, rfl⟩

/-! ## Registers (R138, R139) -/

theorem dcOutConsWrite_stores (val : Word) : Completes (.dcOutConsWrite val)
    (fun s => s.decode.waiting = [])
    [.events, .regs, .decode, .mem, .out]
    fun s t => t.fld R.DC_OUT_CONS F.DC_OUT_CONS_CONS = val.toNat % 65536 ∧ RegsBut [R.DC_OUT_CONS] s t ∧ t.mem = s.mem := by
  refine Completes.of_keeps (execDcOutConsWrite_keeps val) ?_
  rintro s - hnone
  have hexec : exec (.dcOutConsWrite val) s = .next (s.setFld R.DC_OUT_CONS F.DC_OUT_CONS_CONS val.toNat).outEpisode := by
    show execDcOutConsWrite val s = _
    unfold execDcOutConsWrite
    extract_lets t
    obtain ⟨full, hepisode⟩ := (s.setFld R.DC_OUT_CONS F.DC_OUT_CONS_CONS val.toNat).outEpisode_decode
    have hwait : t.decode.waiting = [] := (congrArg DecodeState.waiting hepisode).trans hnone
    rw [hwait]
    rfl
  have hend := State.outEpisode_keeps (s.setFld R.DC_OUT_CONS F.DC_OUT_CONS_CONS val.toNat)
  have hregs := hend.frame .regs (by decide)
  refine ⟨_, hexec, ?_, (s.regsBut_setFld R.DC_OUT_CONS _ _).trans (regsBut_of_regs_eq hregs), hend.frame .mem (by decide)⟩
  exact (State.fld_congr (congrArg (storeGet regReset _) hregs) _).trans (s.fld_setFld_self _ _ _ (by decide) (by decide))

theorem dcCntClear_clears (val : Word) : Completes (.dcCntClear val)
    (fun _ => getFlag val F.DC_CNT_CLR_CLEAR = true)
    [.regs]
    fun s t => (∀ k : Fin 12, t.reg (R.DC_CNT k.val) = 0) ∧ RegsBut ((List.range 12).map R.DC_CNT) s t := by
  refine Completes.of_keeps (execDcCntClear_keeps val) ?_
  rintro s - hclear
  have hexec : exec (.dcCntClear val) s = .next ((List.range 12).foldl (fun t k => t.setReg (R.DC_CNT k) 0) s) := congrArg Host.Outcome.next (if_pos hclear)
  refine ⟨_, hexec, fun k => ?_, fun k hk => ?_⟩
  · rw [State.reg_foldl_setReg, if_pos (List.mem_map_of_mem (List.mem_range.mpr k.isLt))]
  · rw [State.reg_foldl_setReg, if_neg hk]

/-- A word rounded down to a power of two. -/
theorem ofNat_div_mul_two_pow (w : Word) (n : Nat) : BitVec.ofNat 32 (w.toNat / 2 ^ n * 2 ^ n) = (w >>> n) <<< n := by
  refine BitVec.eq_of_toNat_eq ?_
  simp [BitVec.toNat_shiftLeft, Nat.shiftRight_eq_div_pow, Nat.shiftLeft_eq]

theorem ofNat_mod_256 (w : Word) : BitVec.ofNat 32 (w.toNat % 256) = w &&& 0xFF := by
  refine BitVec.eq_of_toNat_eq ?_
  rw [BitVec.toNat_and, BitVec.toNat_ofNat]
  exact (Nat.mod_eq_of_lt (by omega)).trans (Nat.and_two_pow_sub_one_eq_mod w.toNat 8).symm

theorem State.passAnywhere_iff (s : State) : s.passAnywhere = true ↔ ∃ n : Fin 16, (s.head n).pass.isSome = true := by
  unfold State.passAnywhere State.head
  rw [Vector.any_eq_true]
  exact ⟨fun ⟨i, hi, h⟩ => ⟨⟨i, hi⟩, h⟩, fun ⟨n, h⟩ => ⟨n.val, n.isLt, h⟩⟩

theorem State.passAnywhere_of_none {s : State} (h : ∀ n : Fin 16, (s.head n).pass = none) : s.passAnywhere = false := by
  rw [Bool.eq_false_iff, ne_eq, State.passAnywhere_iff]
  rintro ⟨n, hn⟩
  rw [h n] at hn
  exact absurd hn (by decide)

/-- Both halves of a base stored. -/
theorem State.setBase_stores (s : State) {kl kh : Nat} (hne : kl ≠ kh) (lo hi : Word) :
    ((s.setReg kl lo).setReg kh hi).reg kl = lo ∧ ((s.setReg kl lo).setReg kh hi).reg kh = hi ∧ RegsBut [kl, kh] s ((s.setReg kl lo).setReg kh hi) ∧
      ((s.setReg kl lo).setReg kh hi).events = s.events := by
  refine ⟨?_, State.reg_setReg_self .., ?_, rfl⟩
  · rw [State.reg_setReg_other _ _ hne, State.reg_setReg_self]
  · exact ((s.regsBut_setReg kl lo).mono (by simp)).trans ((State.regsBut_setReg _ kh hi).mono (by simp))

/-- The registers of a base's halves, and the bits below its alignment. -/
def baseOf (ra : Bool) : Nat × Nat × Nat := if ra then (R.DC_RA_BASE_LO, R.DC_RA_BASE_HI, 20) else (R.DC_OUT_BASE_LO, R.DC_OUT_BASE_HI, 22)

theorem exec_dcBaseWrite_closed (ra : Bool) (lo hi : Word) {s : State} (hclosed : ∀ n : Fin 16, (s.head n).pass = none) :
    exec (.dcBaseWrite ra lo hi) s =
      .next ((s.setReg (baseOf ra).1 ((lo >>> (baseOf ra).2.2) <<< (baseOf ra).2.2)).setReg (baseOf ra).2.1 (hi &&& 0xFF)) := by
  have hnone : ¬s.passAnywhere = true := by
    rw [State.passAnywhere_of_none hclosed]
    decide
  rw [← ofNat_div_mul_two_pow, ← ofNat_mod_256]
  cases ra
  · exact congrArg Host.Outcome.next (if_neg hnone)
  · exact congrArg Host.Outcome.next (if_neg hnone)

theorem dcBaseWrite_stores (ra : Bool) (lo hi : Word) {s : State} (hclosed : ∀ n : Fin 16, (s.head n).pass = none) :
    ∃ t, exec (.dcBaseWrite ra lo hi) s = .next t ∧ t.reg (baseOf ra).1 = (lo >>> (baseOf ra).2.2) <<< (baseOf ra).2.2 ∧
      t.reg (baseOf ra).2.1 = hi &&& 0xFF ∧ RegsBut [(baseOf ra).1, (baseOf ra).2.1] s t ∧ t.events = s.events :=
  ⟨_, exec_dcBaseWrite_closed ra lo hi hclosed, s.setBase_stores (by cases ra <;> decide) _ _⟩

theorem dcBaseWrite_outcome (ra : Bool) (lo hi : Word) : Completes (.dcBaseWrite ra lo hi)
    (fun s => (∀ n : Fin 16, (s.head n).pass = none) ∧ ra = false)
    [.events, .regs]
    fun s t => t.reg R.DC_OUT_BASE_LO = (lo >>> 22) <<< 22 ∧ t.reg R.DC_OUT_BASE_HI = hi &&& 0xFF ∧ RegsBut [R.DC_OUT_BASE_LO, R.DC_OUT_BASE_HI] s t ∧
        t.events = s.events := by
  refine Completes.of_keeps (execDcBaseWrite_keeps ra lo hi) ?_
  rintro s - ⟨hclosed, rfl⟩
  exact dcBaseWrite_stores false lo hi hclosed

theorem dcBaseWrite_runAhead (ra : Bool) (lo hi : Word) : Completes (.dcBaseWrite ra lo hi)
    (fun s => (∀ n : Fin 16, (s.head n).pass = none) ∧ ra = true)
    [.events, .regs]
    fun s t => t.reg R.DC_RA_BASE_LO = (lo >>> 20) <<< 20 ∧ t.reg R.DC_RA_BASE_HI = hi &&& 0xFF ∧ RegsBut [R.DC_RA_BASE_LO, R.DC_RA_BASE_HI] s t ∧
        t.events = s.events := by
  refine Completes.of_keeps (execDcBaseWrite_keeps ra lo hi) ?_
  rintro s - ⟨hclosed, rfl⟩
  exact dcBaseWrite_stores true lo hi hclosed

theorem dcBaseWrite_refused (ra : Bool) (lo hi : Word) (n : Fin 16) : Completes (.dcBaseWrite ra lo hi)
    (fun s => (s.head n).pass.isSome = true)
    [.events, .regs]
    fun s t => t.regs = s.regs ∧ t.events = (s.logDec 0x300A (if ra then R.DC_RA_BASE_LO else R.DC_OUT_BASE_LO)).events := by
  refine Completes.of_keeps (execDcBaseWrite_keeps ra lo hi) ?_
  rintro s - hopen
  have hany : s.passAnywhere = true := s.passAnywhere_iff.mpr ⟨n, hopen⟩
  have hexec : exec (.dcBaseWrite ra lo hi) s = .next (s.logDec 0x300A (if ra then R.DC_RA_BASE_LO else R.DC_OUT_BASE_LO)) := by
    cases ra
    · exact congrArg Host.Outcome.next (if_pos hany)
    · exact congrArg Host.Outcome.next (if_pos hany)
  exact ⟨_, hexec, State.logDec_regs .., rfl⟩

/-- Settles O57: the twill and surface-parity jobs, the orders and discards, and the decode registers, one lemma per outcome. -/
theorem decodeWork : Obligations.DecodeWork :=
  ⟨twillJobStart_group, twillJobStart_enc, twillJobStart_dec, twillJobEnd_group, spJobStart_oneParity, spJobStart_twoParity, spJobEnd_over, spJobEnd_rebuilds,
    decodeWorkArrival_joins, runAheadDiscardReport_discards, runAheadDiscardReport_unheld, dcOutConsWrite_stores, dcCntClear_clears,
    dcBaseWrite_outcome, dcBaseWrite_runAhead, dcBaseWrite_refused⟩

end Sys2Proof.Machine
end

section
/-!
PROOFS. The registers that a hem writes (R33, R122, R128, R138, R311 to R317): those of the codewords that it writes, of the records and
groups that it ends, and HD_WR_CNT of its head. One lemma per operation, in the order of the definitions.
-/

namespace Sys2Proof.Machine

theorem RegsBut.of_keeps {P : List Part} {s t : State} (ks : List Nat) (h : Keeps P s t) (hP : P.contains .regs = false) : RegsBut ks s t :=
  regsBut_of_regs_eq (h.frame .regs (by simpa using hP))

theorem RegsBut.ite {ks : List Nat} {s t u : State} {c : Prop} [Decidable c] (h : RegsBut ks s t) (h' : RegsBut ks s u) :
    RegsBut ks s (if c then t else u) := by
  split
  · exact h
  · exact h'

/-! ## Buffer memory (R311 to R317) -/

/-- The registers that a write of buffer memory writes: the counts of corrections, the erased devices, and the flip that it uses up. -/
def memWriteKeys : List Nat :=
  [R.MC_ECC_CNT, R.MC_ECC_ERASE, R.MC_FLIP_ADDR_HI, R.MC_ECC_DEV 0, R.MC_ECC_DEV 1, R.MC_ECC_DEV 2, R.MC_ECC_DEV 3]

theorem eccDev_mem_memWriteKeys {k : Nat} (h : k < 4) : R.MC_ECC_DEV k ∈ memWriteKeys := by
  unfold memWriteKeys
  interval_cases k <;> decide

theorem State.setFld_memWriteKeys (s : State) {k : Nat} (h : k ∈ memWriteKeys) (p : FieldPos) (v : Nat) : RegsBut memWriteKeys s (s.setFld k p v) :=
  (s.regsBut_setFld k p v).mono (by simpa using h)

theorem State.logMem_regsBut (s : State) (ks : List Nat) (code a0 a1 a2 a3 : Nat) : RegsBut ks s (s.logMem code a0 a1 a2 a3) :=
  regsBut_of_regs_eq (s.log_regs ..)

theorem State.autoErase_regsBut (s : State) (k d count : Nat) : RegsBut memWriteKeys s (s.autoErase k d count) := by
  unfold State.autoErase
  split
  · exact s.logMem_regsBut _ _ _ _ _ _
  · exact .ite ((s.setFld_memWriteKeys (by decide) _ _).trans (State.logMem_regsBut _ _ _ _ _ _ _)) (.refl _ s)

theorem State.correctionLogged_regsBut (s : State) (ks : List Nat) (k a pos : Nat) : RegsBut ks s (s.correctionLogged k a pos) := by
  unfold State.correctionLogged
  extract_lets t
  exact .ite (regsBut_of_regs_eq (t.log_regs ..)) (.refl _ s)

theorem State.countCorrection_regsBut (s : State) (a pos : Nat) : RegsBut memWriteKeys s (s.countCorrection a pos) := by
  rw [State.countCorrection_eq]
  extract_lets t u v
  have ht : RegsBut memWriteKeys s t := s.setFld_memWriteKeys (by decide) _ _
  have hu : RegsBut memWriteKeys t u := t.setFld_memWriteKeys (eccDev_mem_memWriteKeys (s.memSub_lt a)) _ _
  have hv : RegsBut memWriteKeys s v := (ht.trans hu).trans (u.correctionLogged_regsBut _ _ _ _)
  exact .ite (hv.trans (v.autoErase_regsBut _ _ _)) hv

theorem State.writeFull_regsBut (s : State) (a : Nat) (d : List Nat) : RegsBut memWriteKeys s (s.writeFull a d) := by
  unfold State.writeFull State.flipWord
  dsimp only
  split
  · exact (s.setFld_memWriteKeys (by decide) _ _).trans (.of_keeps _ (State.storeSymbols_keeps ..) rfl)
  · exact .of_keeps _ (s.storeSymbols_keeps ..) rfl

theorem State.writePart_regsBut (s : State) (cls a i : Nat) (new : List Nat) : RegsBut memWriteKeys s (s.writePart cls a i new) := by
  have hstore (t : State) (c : List Nat) : RegsBut memWriteKeys t (t.storeSymbols a c) := .of_keeps _ (t.storeSymbols_keeps a c) rfl
  unfold State.writePart
  split
  dsimp only
  split
  · exact hstore _ _
  · exact (s.countCorrection_regsBut _ _).trans (hstore _ _)
  · exact (hstore _ _).trans (State.logMem_regsBut _ _ _ _ _ _ _)
  · exact (hstore _ _).trans (State.logMem_regsBut _ _ _ _ _ _ _)

theorem State.memWrite_regsBut (s : State) (cls a : Nat) (bytes : List Nat) : RegsBut memWriteKeys s (s.memWrite cls a bytes) := by
  unfold State.memWrite
  extract_lets len served words written
  have hserved : RegsBut memWriteKeys s served := .foldl _ (fun t b => .of_keeps _ (t.serveBurst_keeps cls b) rfl) s
  have hwritten : RegsBut memWriteKeys s written :=
    hserved.trans (.foldl _ (fun t x => .ite (t.writeFull_regsBut _ _) (t.writePart_regsBut _ _ _ _)) served)
  exact .ite (.refl _ s) (.ite (hwritten.trans (State.logMem_regsBut _ _ _ _ _ _ _)) hwritten)

/-! ## Records, groups and sectors (R122, R127, R128, R138) -/

/-- The registers that the end of a sector writes: those of its record, the ring's producer, and the count of deferred groups. -/
def sectorEndKeys : List Nat := R.DC_OUT_PROD :: R.DC_CNT 9 :: memWriteKeys

theorem State.logDec_regsBut (s : State) (ks : List Nat) (code a0 a1 a2 a3 : Nat) : RegsBut ks s (s.logDec code a0 a1 a2 a3) :=
  regsBut_of_regs_eq (s.logDec_regs ..)

theorem State.putRecord_regsBut (s : State) (r : OutRecord) : RegsBut sectorEndKeys s (s.putRecord r) := by
  have hwrite := (s.memWrite_regsBut 1 (s.outBase + 64 * s.outProd) r.bytes).mono (ls := sectorEndKeys) fun _ h => .tail _ (.tail _ h)
  have hprod := (State.regsBut_setFld (s.memWrite 1 (s.outBase + 64 * s.outProd) r.bytes) R.DC_OUT_PROD F.DC_OUT_PROD_PROD
    ((s.outProd + 1) % 65536)).mono (ls := sectorEndKeys) (by simp [sectorEndKeys])
  exact (hwrite.trans hprod).trans (regsBut_of_regs_eq (s.putRecord_regs r))

theorem State.emitRecord_regsBut (s : State) (r : OutRecord) : RegsBut sectorEndKeys s (s.emitRecord r) := by
  unfold State.emitRecord
  have hepisode (t : State) : RegsBut sectorEndKeys t t.outEpisode := .of_keeps _ t.outEpisode_keeps rfl
  exact .ite (hepisode _) (s.putRecord_regsBut r)

theorem State.deferGroup_regsBut (s : State) (g : Group) : RegsBut sectorEndKeys s (s.deferGroup g) := by
  have hcount (t : State) : RegsBut sectorEndKeys t (t.bumpDc 9 1) :=
    (t.regsBut_bump (R.DC_CNT 9) F.DC_CNT_COUNT 1).mono (by simp [sectorEndKeys])
  exact (s.emitRecord_regsBut _).trans (.ite (.refl _ _) (hcount _))

theorem State.closeGroup_regsBut (s : State) (g : Group) (atHem : Bool) : RegsBut sectorEndKeys s (s.closeGroup g atHem) := by
  unfold State.closeGroup
  extract_lets t closed
  have ht : RegsBut sectorEndKeys s t := .refl _ s
  have hdefer := ht.trans (t.deferGroup_regsBut closed)
  exact .ite ht (.ite hdefer (.ite (hdefer.trans (State.logDec_regsBut _ _ _ _ _ _ _)) ht))

theorem State.memberOutcome_regsBut (s : State) (head pass layer band grp i : Nat) (m : Member) :
    RegsBut sectorEndKeys s (s.memberOutcome head pass layer band grp i m) := by
  unfold State.memberOutcome
  exact .ite (.refl _ s) (.ite (s.closeGroup_regsBut _ _) (.refl _ s))

theorem State.finishSector_regsBut (s : State) (x : Sector) (o : SecOutcome) (path data tag asm : Nat) (known : Bool) :
    RegsBut sectorEndKeys s (s.finishSector x o path data tag asm known) := by
  unfold State.finishSector
  extract_lets work bytes t u
  have ht : RegsBut sectorEndKeys s t := s.emitRecord_regsBut _
  have hu : RegsBut sectorEndKeys s u := .ite ht (ht.trans (t.memberOutcome_regsBut _ _ _ _ _ _ _))
  exact hu

theorem State.withdrawSectors_regsBut (s : State) (xs : List Sector) : RegsBut sectorEndKeys s (s.withdrawSectors xs) :=
  (RegsBut.of_keeps _ (s.dropFromQueues_keeps _) rfl).trans (.foldl xs (fun t _ => t.finishSector_regsBut _ _ _ _ _ _ _) _)

/-! ## Hems (R33, R147, R149) -/

/-- The registers that a hem of a head writes: those of the sectors that it ends and of the slots that it voids, and HD_WR_CNT. -/
def hemKeys (n : Fin 16) : List Nat := R.HD_WR_CNT n.val :: sectorEndKeys

theorem RegsBut.hem {n : Fin 16} {s t : State} (h : RegsBut sectorEndKeys s t) : RegsBut (hemKeys n) s t := h.mono fun _ hk => .tail _ hk

theorem State.requeue_regsBut (s : State) (n : Fin 16) (xs : List Sector) : RegsBut (hemKeys n) s (s.requeue n xs) :=
  (((s.cancelReplays n _).dropBeamSectors n _).withdrawSectors_regsBut xs).hem

theorem State.sendMsg_regsBut (s : State) (ks : List Nat) (n : Fin 16) (m : Msg) : RegsBut ks s (s.sendMsg n m) :=
  .of_keeps _ (s.sendMsg_keeps n m) rfl

theorem State.bumpWrites_regsBut (s : State) (n : Fin 16) (p : FieldPos) (k : Nat) : RegsBut (hemKeys n) s (s.bump (R.HD_WR_CNT n.val) p k) :=
  (s.regsBut_bump _ p k).mono (by simp [hemKeys])

theorem State.settleWrites_regsBut (s : State) (n : Fin 16) (x : Stamp) : RegsBut (hemKeys n) s (s.settleWrites n x) := by
  unfold State.settleWrites
  split
  · exact .refl _ s
  · split
    · exact .refl _ s
    · refine .ite (.refl _ s) (RegsBut.foldl (ks := hemKeys n) _ (fun t e => ?_) s)
      dsimp only
      refine .ite (.refl _ t) ?_
      split
      · exact .refl _ t
      · have hstart (c : Prop) [Decidable c] (f : Pass → Pass) : RegsBut (hemKeys n) t (if c then t.modPass n f else t) := .ite (.refl _ t) (.refl _ t)
        exact .ite ((hstart _ _).trans (State.bumpWrites_regsBut _ n _ _)) (hstart _ _)

theorem State.voidSlot_regsBut (s : State) (n : Fin 16) (d : BandDesc) (e : SlotEntry) (cause : Nat) :
    RegsBut (hemKeys n) s (s.voidSlot n d e cause) := by
  have hwrite (t : State) (a : Nat) (bytes : List Nat) : RegsBut (hemKeys n) t (t.memWrite 1 a bytes) :=
    (t.memWrite_regsBut 1 a bytes).mono fun _ h => .tail _ (.tail _ (.tail _ h))
  unfold State.voidSlot
  extract_lets u a t voids v w addr count
  have ht : RegsBut (hemKeys n) s t := hwrite s _ _
  have hv : RegsBut (hemKeys n) t v := hwrite t _ _
  have hw : RegsBut (hemKeys n) v w := v.bumpWrites_regsBut n _ _
  exact ((ht.trans hv).trans hw).trans (regsBut_of_regs_eq (w.modPass_regs n _))

theorem State.stopWrites_regsBut (s : State) (n : Fin 16) (x last : Stamp) (cause : Nat) :
    RegsBut (hemKeys n) s (s.stopWrites n x last cause) := by
  have hcut (t : State) (p : Pass) (d : BandDesc) (e : SlotEntry) (f : Pass → Pass) :
      RegsBut (hemKeys n) t (((t.recordCut n p e x .cut).modPass n f).voidSlot n d e cause) := by
    have hrecord : RegsBut (hemKeys n) t (t.recordCut n p e x .cut) := (t.emitRecord_regsBut _).hem
    exact (hrecord.trans (regsBut_of_regs_eq (State.modPass_regs ..))).trans (State.voidSlot_regsBut _ n d e cause)
  unfold State.stopWrites
  extract_lets t
  have ht : RegsBut (hemKeys n) s t := s.settleWrites_regsBut n _
  split
  · exact ht
  · split
    · exact ht
    · refine .ite ht (ht.trans (RegsBut.foldl (ks := hemKeys n) _ (fun u e => ?_) t))
      dsimp only
      refine .ite (.refl _ u) ?_
      split
      · exact .ite (.refl _ u) (.ite (hcut _ _ _ _ _) (u.voidSlot_regsBut _ _ _ _))
      · exact u.voidSlot_regsBut _ _ _ _

theorem State.hemRequest_regsBut (s : State) (n : Fin 16) (h : Stamp) (forced : Bool) (who : List Waiter) :
    RegsBut (hemKeys n) s (s.hemRequest n h forced who) := by
  have hcut {t u : State} (htu : RegsBut (hemKeys n) t u) (xs : List Sector) (x last : Stamp) :
      RegsBut (hemKeys n) t ((u.requeue n xs).stopWrites n x last 0) :=
    (htu.trans (u.requeue_regsBut n xs)).trans (State.stopWrites_regsBut _ n x last 0)
  unfold State.hemRequest
  split
  · exact .refl _ s
  · split
    · exact .refl _ s
    · generalize hemCut s n h forced = c
      obtain ⟨c, cuts⟩ := c
      dsimp -zeta only
      extract_lets m t writing sent last
      have ht : RegsBut (hemKeys n) s t := .refl _ s
      have hsent : RegsBut (hemKeys n) s sent := .ite (t.sendMsg_regsBut _ _ _) ht
      refine .ite (hcut hsent _ _ _) (.ite ?_ ht)
      exact (t.sendMsg_regsBut _ _ _).trans (State.stopWrites_regsBut _ n _ _ _)

end Sys2Proof.Machine
end

section
/-!
PROOFS. HD_LEN (R159, R162, R189): what bringing it to its level changes, and the interlock of LASER_INH_N (R160, R161). Settles O25 and O26.
-/

namespace Sys2Proof.Machine

/-! ## Fields written with their own value -/

theorem setField_getField (w : Word) (p : FieldPos) (h : p.hi < 32) (h' : p.lo ≤ p.hi) : setField w p (getField w p) = w := by
  have hfield : getField w p = w.toNat / 2 ^ p.lo % 2 ^ p.width := rfl
  have hend : p.hi + 1 = p.lo + p.width := by unfold FieldPos.width; omega
  refine BitVec.eq_of_toNat_eq ?_
  rw [setField_toNat w p _ h h', Nat.mod_eq_of_lt (getField_lt w p), hfield, hend]
  exact (word_cut w.toNat p.lo p.width).symm

theorem State.regsBut_setFld_own (s : State) (ks : List Nat) (k : Nat) {p : FieldPos} (h : p.hi < 32) (h' : p.lo ≤ p.hi) :
    RegsBut ks s (s.setFld k p (s.fld k p)) := by
  intro j _
  rw [State.setFld, State.fld, setField_getField _ p h h', State.reg_setReg]
  split
  next hj => rw [hj]
  next => rfl

/-- A field of one bit as a number. -/
theorem State.fld_eq_bitOf (s : State) (k : Nat) {p : FieldPos} (h : p.width = 1) : s.fld k p = bitOf (s.flag k p) := by
  have hlt : s.fld k p < 2 := Nat.lt_of_lt_of_eq (getField_lt (s.reg k) p) (by rw [h, pow_one])
  show s.fld k p = bitOf (s.fld k p != 0)
  interval_cases s.fld k p <;> rfl

/-! ## The parts of a change of HD_LEN (R159, R162, R189) -/

/-- An output is driven. -/
def State.drive (s : State) (x : Output) : State := { s with out := x :: s.out }

theorem State.drive_regs (s : State) (x : Output) : (s.drive x).regs = s.regs := rfl
theorem State.drive_events (s : State) (x : Output) : (s.drive x).events = s.events := rfl
theorem State.drive_heads (s : State) (x : Output) : (s.drive x).heads = s.heads := rfl
theorem State.drive_loop (s : State) (x : Output) : (s.drive x).loop = s.loop := rfl

/-- HD_LEN driven to the level that its conditions give, in the register and at the pin. -/
def State.lenDriven (s : State) (n : Fin 16) : State :=
  (s.setFld (R.HD_LASER_STATUS n.val) F.HD_LASER_STATUS_LEN (bitOf (s.lenAllowed n))).drive (.hdLen n.val (s.lenAllowed n))

/-- A focus acquisition, layer jump or track-on ends as HD_LEN falls (R189). -/
def State.endFocusing (s : State) (n : Fin 16) : State :=
  match (s.loopHead n).seq with
  | some q => if seqNumber q.kind = 4 then s else s.endSequence n 1
  | none => s

theorem State.updateLen_eq (s : State) (n : Fin 16) (x : Stamp) :
    s.updateLen n x = if s.lenAllowed n = s.hdLen n then s
      else if s.lenAllowed n then s.lenDriven n else ((s.lenDriven n).endFocusing n).hemRequest n x true [] := by
  unfold State.updateLen State.endFocusing State.lenDriven
  rfl

theorem State.endFocusing_of_no_sequence {s : State} {n : Fin 16} (h : (s.loopHead n).seq = none) : s.endFocusing n = s := by
  rw [State.endFocusing, h]

theorem State.hemRequest_of_no_pass {s : State} {n : Fin 16} (h : (s.head n).pass = none) (x : Stamp) (forced : Bool) (who : List Waiter) :
    s.hemRequest n x forced who = s := by
  rw [State.hemRequest, h]

theorem State.lenDriven_events (s : State) (n : Fin 16) : (s.lenDriven n).events = s.events :=
  (State.drive_events ..).trans (State.setFld_events ..)

theorem State.lenDriven_heads (s : State) (n : Fin 16) : (s.lenDriven n).heads = s.heads :=
  (State.drive_heads ..).trans (State.setFld_heads ..)

theorem State.lenDriven_loop (s : State) (n : Fin 16) : (s.lenDriven n).loop = s.loop :=
  (State.drive_loop ..).trans (State.setFld_loop ..)

/-- With no pass and no sequence on the head, HD_LEN is all that changes. -/
theorem State.updateLen_of_idle {s : State} {n : Fin 16} (hpass : (s.head n).pass = none) (hseq : (s.loopHead n).seq = none) (x : Stamp) :
    s.updateLen n x = if s.lenAllowed n = s.hdLen n then s else s.lenDriven n := by
  rw [← State.loopHead_congr (s.lenDriven_loop n)] at hseq
  rw [← State.head_congr (s.lenDriven_heads n)] at hpass
  rw [State.updateLen_eq, State.endFocusing_of_no_sequence hseq, State.hemRequest_of_no_pass hpass, ite_self]

theorem State.endSequence_regsBut (s : State) (n : Fin 16) (result : Nat) : RegsBut [R.LP_SEQ_STATUS n.val] s (s.endSequence n result) := by
  unfold State.endSequence
  split
  · exact .refl _ s
  next q _ =>
    extract_lets released ended shown idle logged
    have hreleased : released.regs = s.regs := by
      unfold released
      split <;> rfl
    have hidle : RegsBut [R.LP_SEQ_STATUS n.val] s idle :=
      ((regsBut_of_regs_eq hreleased).trans (State.regsBut_setFld ended _ _ result)).trans (shown.regsBut_setFld _ _ 0)
    have hlogged : RegsBut [R.LP_SEQ_STATUS n.val] s logged := hidle.trans (regsBut_of_regs_eq (idle.log_regs ..))
    split
    · exact hlogged.trans (.of_keeps _ (State.complete_keeps ..) rfl)
    · exact hlogged.trans (regsBut_of_regs_eq (State.modHead_regs ..))

/-! ## The registers of a change of HD_LEN -/

/-- The registers that the hem and the end of a sequence write as HD_LEN of a head falls. -/
def lenFallKeys (n : Fin 16) : List Nat := R.LP_SEQ_STATUS n.val :: hemKeys n

/-- A register of a head's block is none of them, but for its HD_WR_CNT. -/
theorem not_mem_lenFallKeys {n : Fin 16} {k : Nat} (h : 0x400000 ≤ k) (hk : k ≠ R.HD_WR_CNT n.val) : k ∉ lenFallKeys n := by
  simp only [lenFallKeys, hemKeys, sectorEndKeys, memWriteKeys, List.mem_cons, List.not_mem_nil, or_false, not_or, R.LP_SEQ_STATUS, R.DC_OUT_PROD, R.DC_CNT,
    R.MC_ECC_CNT, R.MC_ECC_ERASE, R.MC_FLIP_ADDR_HI, R.MC_ECC_DEV]
  omega

theorem laserStatus_not_mem_lenFallKeys (n m : Fin 16) : R.HD_LASER_STATUS m.val ∉ lenFallKeys n :=
  not_mem_lenFallKeys (by unfold R.HD_LASER_STATUS; omega) (by unfold R.HD_LASER_STATUS R.HD_WR_CNT; omega)

theorem laserStatus_ne {n m : Fin 16} (h : m ≠ n) : R.HD_LASER_STATUS m.val ≠ R.HD_LASER_STATUS n.val := by
  unfold R.HD_LASER_STATUS
  omega

theorem State.endFocusing_regsBut (s : State) (n : Fin 16) : RegsBut (lenFallKeys n) s (s.endFocusing n) := by
  unfold State.endFocusing
  split
  · exact .ite (.refl _ s) ((s.endSequence_regsBut n 1).mono (by simp [lenFallKeys]))
  · exact .refl _ s

/-- The bit LEN takes the level that the conditions give, and then only the registers of a fall change. -/
theorem State.updateLen_regsBut (s : State) (n : Fin 16) (x : Stamp) : RegsBut (lenFallKeys n)
    (s.setFld (R.HD_LASER_STATUS n.val) F.HD_LASER_STATUS_LEN (bitOf (s.lenAllowed n))) (s.updateLen n x) := by
  have hdriven : RegsBut (lenFallKeys n) (s.setFld (R.HD_LASER_STATUS n.val) F.HD_LASER_STATUS_LEN (bitOf (s.lenAllowed n))) (s.lenDriven n) :=
    regsBut_of_regs_eq (State.drive_regs ..)
  have hhem := ((s.lenDriven n).endFocusing n).hemRequest_regsBut n x true []
  rw [State.updateLen_eq]
  split
  next hsame =>
    rw [hsame, State.hdLen, ← State.fld_eq_bitOf s _ (by decide)]
    exact fun k hk => (s.regsBut_setFld_own (lenFallKeys n) _ (by decide) (by decide) k hk).symm
  next =>
    exact .ite hdriven ((hdriven.trans ((s.lenDriven n).endFocusing_regsBut n)).trans (hhem.mono fun _ hk => .tail _ hk))

theorem State.updateLen_hdLen (s : State) (n : Fin 16) (x : Stamp) : (s.updateLen n x).hdLen n = s.lenAllowed n :=
  (State.flag_congr (s.updateLen_regsBut n x _ (laserStatus_not_mem_lenFallKeys n n)) _).trans
    (s.flag_setFld_bitOf _ _ _ (by decide) (by decide))

/-- The bits of HD_LASER_STATUS beside LEN stay. -/
theorem State.updateLen_flag (s : State) (n : Fin 16) (x : Stamp) {p : FieldPos} (h : F.HD_LASER_STATUS_LEN.hi < p.lo) (h' : p.lo ≤ p.hi) :
    (s.updateLen n x).flag (R.HD_LASER_STATUS n.val) p = s.flag (R.HD_LASER_STATUS n.val) p :=
  (State.flag_congr (s.updateLen_regsBut n x _ (laserStatus_not_mem_lenFallKeys n n)) _).trans
    (s.flag_setFld_other _ _ _ _ (by decide) (by decide) h' (.inl h))

theorem State.updateLen_other (s : State) {n m : Fin 16} (x : Stamp) (h : m ≠ n) :
    (s.updateLen n x).reg (R.HD_LASER_STATUS m.val) = s.reg (R.HD_LASER_STATUS m.val) :=
  (s.updateLen_regsBut n x _ (laserStatus_not_mem_lenFallKeys n m)).trans (s.reg_setFld_other _ _ (laserStatus_ne h))

theorem State.updateLen_pins (s : State) (n : Fin 16) (x : Stamp) : (s.updateLen n x).pins = s.pins :=
  (s.updateLen_keeps n x).frame .pins (by decide)

/-! ## Conditions of R159 that fail -/

theorem State.lenAllowed_of_inhLow {s : State} (h : s.pins.inhLow = true) (n : Fin 16) : s.lenAllowed n = false := by
  simp [State.lenAllowed, h]

theorem State.lenAllowed_of_latched {s : State} {n : Fin 16} (h : s.flag (R.HD_LASER_STATUS n.val) F.HD_LASER_STATUS_INH_LATCH = true) :
    s.lenAllowed n = false := by
  simp [State.lenAllowed, h]

theorem State.lenAllowed_of_disabled {s : State} {n : Fin 16} (h : s.flag (R.HD_LASER_CTRL n.val) F.HD_LASER_CTRL_LEN_EN = false) :
    s.lenAllowed n = false := by
  simp [State.lenAllowed, h]

/-! ## The rearm (R161) -/

theorem State.rearmDue_iff (s : State) :
    (!s.pins.inhLow && decide (rearmTicks ≤ if s.pins.inhLow then 0 else s.now - s.pins.inhSince)) = true ↔
      s.pins.inhLow = false ∧ s.pins.inhSince + 15000000 ≤ s.now := by
  cases s.pins.inhLow with
  | true => simp
  | false =>
    have hlong (now since : Nat) : 15000000 ≤ now - since ↔ since + 15000000 ≤ now := by omega
    simpa [rearmTicks] using hlong s.now s.pins.inhSince

theorem laserRearm_clears (head : Fin 16) : Completes (.laserRearm head)
    (fun s => s.pins.inhLow = false ∧ s.pins.inhSince + 15000000 ≤ s.now)
    [.events, .regs, .heads, .decode, .loop, .seq, .mem, .out]
    fun s t => t.flag (R.HD_LASER_STATUS head.val) F.HD_LASER_STATUS_INH_LATCH = false ∧
        ∀ m : Fin 16, m ≠ head → t.flag (R.HD_LASER_STATUS m.val) F.HD_LASER_STATUS_INH_LATCH =
          s.flag (R.HD_LASER_STATUS m.val) F.HD_LASER_STATUS_INH_LATCH := by
  refine Completes.of_keeps (execLaserRearm_keeps head) ?_
  rintro s - hdue
  refine ⟨_, if_pos (s.rearmDue_iff.mpr hdue), ?_, fun m hm => ?_⟩
  · rw [State.updateLen_flag _ _ _ (by decide) (by decide)]
    exact s.flag_setFld_clear _ _ (by decide) (by decide)
  · exact State.flag_congr ((State.updateLen_other _ _ hm).trans (s.reg_setFld_other _ _ (laserStatus_ne hm))) _

theorem laserRearm_refuses (head : Fin 16) : Completes (.laserRearm head)
    (fun s => s.pins.inhLow = true ∨ s.now < s.pins.inhSince + 15000000)
    [.events]
    fun s t => t.events = (s.logHead head 0x1205 (if s.pins.inhLow then 0 else s.now - s.pins.inhSince)).events := by
  rintro s - hearly
  have hdue : ¬(s.pins.inhLow = false ∧ s.pins.inhSince + 15000000 ≤ s.now) := by
    rintro ⟨hhigh, hlong⟩
    obtain hlow | hshort := hearly
    · exact absurd (hhigh.symm.trans hlow) (by decide)
    · exact Nat.not_le_of_lt hshort hlong
  exact ⟨_, if_neg (mt s.rearmDue_iff.mp hdue), (State.logHead_keeps ..).frame, rfl⟩

/-- Settles O25: the rearm acts after 10 ms of a high pin, and is refused before. -/
theorem laserRearm : Obligations.LaserRearm := ⟨laserRearm_clears, laserRearm_refuses⟩

/-! ## The interlock (R160, R161) -/

/-- One head's part of a qualifying low: INH_LATCH and INH_PIN set, and HD_LEN follows. -/
def State.interlocked (e : Stamp) (s : State) (n : Fin 16) : State :=
  ((s.setFld (R.HD_LASER_STATUS n.val) F.HD_LASER_STATUS_INH_LATCH 1).setFld (R.HD_LASER_STATUS n.val) F.HD_LASER_STATUS_INH_PIN 1).updateLen n e

/-- One head's part of the release: INH_PIN clears, and HD_LEN follows. -/
def State.pinReleased (e : Stamp) (s : State) (n : Fin 16) : State :=
  (s.setFld (R.HD_LASER_STATUS n.val) F.HD_LASER_STATUS_INH_PIN 0).updateLen n e

theorem State.interlocked_darkens {s : State} (h : s.pins.inhLow = true) (e : Stamp) (n : Fin 16) :
    (s.interlocked e n).flag (R.HD_LASER_STATUS n.val) F.HD_LASER_STATUS_INH_LATCH = true ∧
      (s.interlocked e n).flag (R.HD_LASER_STATUS n.val) F.HD_LASER_STATUS_INH_PIN = true ∧ (s.interlocked e n).hdLen n = false := by
  refine ⟨?_, ?_, (State.updateLen_hdLen ..).trans (State.lenAllowed_of_inhLow (by rwa [State.setFld_pins, State.setFld_pins]) n)⟩
  · rw [State.interlocked, State.updateLen_flag _ _ _ (by decide) (by decide),
      State.flag_setFld_other _ _ _ _ _ (by decide) (by decide) (by decide) (by decide)]
    exact s.flag_setFld_set _ _ (by decide) (by decide)
  · rw [State.interlocked, State.updateLen_flag _ _ _ (by decide) (by decide)]
    exact State.flag_setFld_set _ _ _ (by decide) (by decide)

theorem State.interlocked_other (s : State) (e : Stamp) {n m : Fin 16} (h : m ≠ n) :
    (s.interlocked e n).reg (R.HD_LASER_STATUS m.val) = s.reg (R.HD_LASER_STATUS m.val) :=
  ((State.updateLen_other _ e h).trans (State.reg_setFld_other _ _ _ (laserStatus_ne h))).trans (s.reg_setFld_other _ _ (laserStatus_ne h))

theorem State.interlocked_pins (s : State) (e : Stamp) (n : Fin 16) : (s.interlocked e n).pins = s.pins :=
  ((State.updateLen_pins ..).trans (State.setFld_pins ..)).trans (State.setFld_pins ..)

theorem State.pinReleased_clears (s : State) (e : Stamp) (n : Fin 16) :
    (s.pinReleased e n).flag (R.HD_LASER_STATUS n.val) F.HD_LASER_STATUS_INH_PIN = false ∧
      (s.pinReleased e n).flag (R.HD_LASER_STATUS n.val) F.HD_LASER_STATUS_INH_LATCH =
        s.flag (R.HD_LASER_STATUS n.val) F.HD_LASER_STATUS_INH_LATCH ∧
      (s.flag (R.HD_LASER_STATUS n.val) F.HD_LASER_STATUS_INH_LATCH = true → (s.pinReleased e n).hdLen n = false) := by
  have hlatch := s.flag_setFld_other (R.HD_LASER_STATUS n.val) F.HD_LASER_STATUS_INH_PIN F.HD_LASER_STATUS_INH_LATCH 0
    (by decide) (by decide) (by decide) (by decide)
  refine ⟨?_, ?_, fun h => ?_⟩
  · rw [State.pinReleased, State.updateLen_flag _ _ _ (by decide) (by decide)]
    exact s.flag_setFld_clear _ _ (by decide) (by decide)
  · rw [State.pinReleased, State.updateLen_flag _ _ _ (by decide) (by decide), hlatch]
  · exact (State.updateLen_hdLen ..).trans (State.lenAllowed_of_latched (hlatch.trans h))

theorem State.pinReleased_other (s : State) (e : Stamp) {n m : Fin 16} (h : m ≠ n) :
    (s.pinReleased e n).reg (R.HD_LASER_STATUS m.val) = s.reg (R.HD_LASER_STATUS m.val) :=
  (State.updateLen_other _ e h).trans (s.reg_setFld_other _ _ (laserStatus_ne h))

theorem State.pinReleased_pins (s : State) (e : Stamp) (n : Fin 16) : (s.pinReleased e n).pins = s.pins :=
  (State.updateLen_pins ..).trans (State.setFld_pins ..)

/-- A change of every head in turn leaves the pins where each does. -/
theorem foldl_pins {f : State → Fin 16 → State} (h : ∀ t n, (f t n).pins = t.pins) (l : List (Fin 16)) (s : State) : (l.foldl f s).pins = s.pins :=
  List.foldlRecOn (motive := fun t => t.pins = s.pins) l f rfl fun t ht n _ => (h t n).trans ht

theorem foldl_interlocked {s : State} (h : s.pins.inhLow = true) (e : Stamp) (n : Fin 16) :
    let t := (List.finRange 16).foldl (State.interlocked e) s
    t.flag (R.HD_LASER_STATUS n.val) F.HD_LASER_STATUS_INH_LATCH = true ∧ t.flag (R.HD_LASER_STATUS n.val) F.HD_LASER_STATUS_INH_PIN = true ∧
      t.hdLen n = false :=
  foldl_at (f := State.interlocked e) (s := s) (P := fun t => t.pins.inhLow = true) (view := fun t m => t.reg (R.HD_LASER_STATUS m.val))
    (r := fun _ _ w => getFlag w F.HD_LASER_STATUS_INH_LATCH = true ∧ getFlag w F.HD_LASER_STATUS_INH_PIN = true ∧ getFlag w F.HD_LASER_STATUS_LEN = false)
    (List.nodup_finRange 16) (fun t m ht => (congrArg Pins.inhLow (t.interlocked_pins e m)).trans ht) (fun _ m ht => State.interlocked_darkens ht e m)
    (fun t _ _ hne => t.interlocked_other e hne) h (List.mem_finRange n)

theorem foldl_pinReleased (s : State) (e : Stamp) (n : Fin 16) :
    let t := (List.finRange 16).foldl (State.pinReleased e) s
    t.flag (R.HD_LASER_STATUS n.val) F.HD_LASER_STATUS_INH_PIN = false ∧
      t.flag (R.HD_LASER_STATUS n.val) F.HD_LASER_STATUS_INH_LATCH = s.flag (R.HD_LASER_STATUS n.val) F.HD_LASER_STATUS_INH_LATCH ∧
      (s.flag (R.HD_LASER_STATUS n.val) F.HD_LASER_STATUS_INH_LATCH = true → t.hdLen n = false) :=
  foldl_at (f := State.pinReleased e) (s := s) (P := fun _ => True) (view := fun t m => t.reg (R.HD_LASER_STATUS m.val))
    (r := fun _ w w' => getFlag w' F.HD_LASER_STATUS_INH_PIN = false ∧
      getFlag w' F.HD_LASER_STATUS_INH_LATCH = getFlag w F.HD_LASER_STATUS_INH_LATCH ∧
      (getFlag w F.HD_LASER_STATUS_INH_LATCH = true → getFlag w' F.HD_LASER_STATUS_LEN = false))
    (List.nodup_finRange 16) (fun _ _ _ => trivial) (fun t m _ => t.pinReleased_clears e m) (fun t _ _ hne => t.pinReleased_other e hne)
    trivial (List.mem_finRange n)

theorem laserInterlock_darkens : Completes .laserInterlock
    (fun s => s.pins.inhLow = false)
    [.events, .regs, .pins, .heads, .decode, .loop, .seq, .mem, .out]
    fun s t => (∀ n : Fin 16, t.flag (R.HD_LASER_STATUS n.val) F.HD_LASER_STATUS_INH_LATCH = true ∧
          t.flag (R.HD_LASER_STATUS n.val) F.HD_LASER_STATUS_INH_PIN = true ∧ t.hdLen n = false) ∧
        t.pins = { inhLow := true, inhSince := s.cellStamp } := by
  refine Completes.of_keeps execLaserInterlock_keeps ?_
  intro s _ hhigh
  refine ⟨_, when_of_true (by rw [hhigh]; rfl) _ _, fun n => ?_, ?_⟩
  · unfold State.hdLen
    rw [State.logAt_flag, State.logAt_flag, State.logAt_flag]
    exact foldl_interlocked rfl s.cellStamp n
  · rw [State.logAt_pins]
    exact foldl_pins (fun t n => t.interlocked_pins s.cellStamp n) _ _

theorem laserInhRelease_clears : Completes .laserInhRelease
    (fun s => s.pins.inhLow = true)
    [.events, .regs, .pins, .heads, .decode, .loop, .seq, .mem, .out]
    fun s t => (∀ n : Fin 16, t.flag (R.HD_LASER_STATUS n.val) F.HD_LASER_STATUS_INH_PIN = false ∧
          t.flag (R.HD_LASER_STATUS n.val) F.HD_LASER_STATUS_INH_LATCH = s.flag (R.HD_LASER_STATUS n.val) F.HD_LASER_STATUS_INH_LATCH ∧
          (s.flag (R.HD_LASER_STATUS n.val) F.HD_LASER_STATUS_INH_LATCH = true → t.hdLen n = false)) ∧
        t.pins = { inhLow := false, inhSince := s.cellStamp } := by
  refine Completes.of_keeps execLaserInhRelease_keeps ?_
  intro s _ hlow
  refine ⟨_, when_of_true hlow _ _, fun n => ?_, ?_⟩
  · exact foldl_pinReleased { s with pins := { s.pins with inhLow := false, inhSince := s.cellStamp } } s.cellStamp n
  · exact foldl_pins (fun t n => t.pinReleased_pins s.cellStamp n) _ _

/-- Settles O26: the low darkens every head, each by its own part of it, and the release leaves the latches. -/
theorem interlockDarkensEveryHead : Obligations.InterlockDarkensEveryHead := ⟨laserInterlock_darkens, laserInhRelease_clears⟩

end Sys2Proof.Machine
end

section
/-!
PROOFS. The laser registers of a head: ceilings (R157), the derate (R158) and the laser enable (R159). Settles O27.
-/

namespace Sys2Proof.Machine

/-! ## The laser enable (R159) -/

theorem laserCtrl_ne_laserStatus (n : Fin 16) : R.HD_LASER_CTRL n.val ≠ R.HD_LASER_STATUS n.val := by
  unfold R.HD_LASER_CTRL R.HD_LASER_STATUS
  omega

/-- With no pass and no sequence on the head, bringing HD_LEN to its level writes HD_LASER_STATUS alone. -/
theorem State.updateLen_idle_spec {s : State} {n : Fin 16} (hpass : (s.head n).pass = none) (hseq : (s.loopHead n).seq = none) (x : Stamp) :
    RegsBut [R.HD_LASER_STATUS n.val] s (s.updateLen n x) ∧ (s.updateLen n x).events = s.events ∧ (s.updateLen n x).heads = s.heads := by
  rw [State.updateLen_of_idle hpass hseq]
  split
  · exact ⟨.refl _ s, rfl, rfl⟩
  · exact ⟨(s.regsBut_setFld _ F.HD_LASER_STATUS_LEN _).trans (regsBut_of_regs_eq (State.drive_regs ..)), s.lenDriven_events n, s.lenDriven_heads n⟩

theorem laserEnableWrite_stores (head : Fin 16) (enable : Bool) : Completes (.laserEnableWrite head enable)
    (fun s => (s.head head).pass = none ∧ (s.loopHead head).seq = none)
    [.events, .regs, .heads, .decode, .loop, .seq, .mem, .out]
    fun s t => t.flag (R.HD_LASER_CTRL head.val) F.HD_LASER_CTRL_LEN_EN = enable ∧
        t.hdLen head = (s.setFld (R.HD_LASER_CTRL head.val) F.HD_LASER_CTRL_LEN_EN (bitOf enable)).lenAllowed head ∧
        (enable = false → t.hdLen head = false) ∧
        RegsBut [R.HD_LASER_CTRL head.val, R.HD_LASER_STATUS head.val] s t ∧ t.events = s.events ∧ HeadsBut head s t := by
  refine Completes.of_keeps (execLaserEnableWrite_keeps head enable) ?_
  rintro s - ⟨hpass, hseq⟩
  let u := s.setFld (R.HD_LASER_CTRL head.val) F.HD_LASER_CTRL_LEN_EN (bitOf enable)
  have hstored : u.flag (R.HD_LASER_CTRL head.val) F.HD_LASER_CTRL_LEN_EN = enable := s.flag_setFld_bitOf _ _ _ (by decide) (by decide)
  rw [← State.head_congr (t := u) (s.setFld_heads ..)] at hpass
  rw [← State.loopHead_congr (t := u) (s.setFld_loop ..)] at hseq
  obtain ⟨hregs, hevents, hheads⟩ := State.updateLen_idle_spec hpass hseq (u.stamp (.head head))
  refine ⟨u.updateLen head (u.stamp (.head head)), rfl, ?_, u.updateLen_hdLen head _, fun hoff => ?_, ?_,
    hevents.trans (s.setFld_events ..), fun m _ => State.head_congr (hheads.trans (s.setFld_heads ..)) m⟩
  · exact (State.flag_congr (hregs _ (by simpa using laserCtrl_ne_laserStatus head)) _).trans hstored
  · exact (u.updateLen_hdLen head _).trans (State.lenAllowed_of_disabled (hstored.trans hoff))
  · exact ((s.regsBut_setFld _ _ _).mono (by simp)).trans (hregs.mono (by simp))

/-! ## Ceilings (R157) -/

theorem ceilRd_ne_ceilWr (n : Fin 16) : R.HD_CEIL_WR n.val ≠ R.HD_CEIL_RD n.val := by
  unfold R.HD_CEIL_WR R.HD_CEIL_RD
  omega

theorem ceilingWrite_stores (head : Fin 16) (write : Bool) (val : Nat) : Completes (.ceilingWrite head write val)
    (fun s => s.flag (R.HD_CEIL_WR head.val) F.HD_CEIL_WR_LOCK = false)
    [.events, .regs]
    fun s t => (if write then t.fld (R.HD_CEIL_WR head.val) F.HD_CEIL_WR_CEIL else t.fld (R.HD_CEIL_RD head.val) F.HD_CEIL_RD_CEIL) =
          val % 2 ^ 23 ∧ t.flag (R.HD_CEIL_WR head.val) F.HD_CEIL_WR_LOCK = false ∧ t.events = s.events ∧
        RegsBut [if write then R.HD_CEIL_WR head.val else R.HD_CEIL_RD head.val] s t := by
  refine Completes.of_keeps (execCeilingWrite_keeps head write val) ?_
  rintro s - hopen
  refine ⟨_, if_neg (by rw [ceilLocked, hopen]; decide), ?_, ?_, s.setFld_events .., s.regsBut_setFld _ _ _⟩
  · cases write with
    | true =>
      simp only [reduceIte]
      exact s.fld_setFld_self _ _ _ (by decide) (by decide)
    | false =>
      simp only [Bool.false_eq_true, reduceIte]
      exact s.fld_setFld_self _ _ _ (by decide) (by decide)
  · cases write with
    | true =>
      simp only [reduceIte]
      exact (s.flag_setFld_other _ _ _ _ (by decide) (by decide) (by decide) (by decide)).trans hopen
    | false =>
      simp only [Bool.false_eq_true, reduceIte]
      exact (State.flag_congr (s.reg_setFld_other _ _ (ceilRd_ne_ceilWr head)) _).trans hopen

theorem ceilingWrite_refuses (head : Fin 16) (write : Bool) (val : Nat) : Completes (.ceilingWrite head write val)
    (fun s => s.flag (R.HD_CEIL_WR head.val) F.HD_CEIL_WR_LOCK = true)
    [.events, .regs]
    fun s t => t.regs = s.regs ∧
        t.events = (s.logHead head 0x1209 (if write then R.HD_CEIL_WR head.val else R.HD_CEIL_RD head.val)).events := by
  refine Completes.of_keeps (execCeilingWrite_keeps head write val) ?_
  rintro s - hlocked
  exact ⟨_, if_pos hlocked, State.log_regs .., rfl⟩

theorem ceilingLock_locks (head : Fin 16) : Completes (.ceilingLock head)
    (fun _ => True)
    [.regs]
    fun s t => t.flag (R.HD_CEIL_WR head.val) F.HD_CEIL_WR_LOCK = true ∧
        t.fld (R.HD_CEIL_WR head.val) F.HD_CEIL_WR_CEIL = s.fld (R.HD_CEIL_WR head.val) F.HD_CEIL_WR_CEIL ∧ RegsBut [R.HD_CEIL_WR head.val] s t :=
  Completes.of_keeps (execCeilingLock_keeps head) fun s _ _ =>
    ⟨_, rfl, s.flag_setFld_set _ _ (by decide) (by decide), s.fld_setFld_other _ _ _ _ (by decide) (by decide) (by decide) (by decide),
      s.regsBut_setFld _ _ _⟩

/-! ## The derate (R158) -/

theorem derateCtrl_ne_laserStatus (n : Fin 16) : R.HD_DERATE_CTRL n.val ≠ R.HD_LASER_STATUS n.val := by
  unfold R.HD_DERATE_CTRL R.HD_LASER_STATUS
  omega

/-- A write of HD_DERATE_CTRL stored. -/
def State.derateStored (s : State) (n : Fin 16) (val : Word) : State :=
  ((s.setFld (R.HD_DERATE_CTRL n.val) F.HD_DERATE_CTRL_MIN_F (getField val F.HD_DERATE_CTRL_MIN_F)).setFld (R.HD_DERATE_CTRL n.val)
    F.HD_DERATE_CTRL_HK_ITEM (getField val F.HD_DERATE_CTRL_HK_ITEM)).setFld (R.HD_DERATE_CTRL n.val) F.HD_DERATE_CTRL_EN
    (getField val F.HD_DERATE_CTRL_EN)

theorem State.fld_setFld_getField (s : State) (k : Nat) (p : FieldPos) (w : Word) (h : p.hi < 32) (h' : p.lo ≤ p.hi) :
    (s.setFld k p (getField w p)).fld k p = getField w p := by
  rw [State.fld_setFld_self _ _ _ _ h h', Nat.mod_eq_of_lt (getField_lt w p)]

theorem State.derateStored_fields (s : State) (n : Fin 16) (val : Word) :
    (s.derateStored n val).fld (R.HD_DERATE_CTRL n.val) F.HD_DERATE_CTRL_MIN_F = getField val F.HD_DERATE_CTRL_MIN_F ∧
      (s.derateStored n val).fld (R.HD_DERATE_CTRL n.val) F.HD_DERATE_CTRL_HK_ITEM = getField val F.HD_DERATE_CTRL_HK_ITEM ∧
      (s.derateStored n val).flag (R.HD_DERATE_CTRL n.val) F.HD_DERATE_CTRL_EN = getFlag val F.HD_DERATE_CTRL_EN := by
  refine ⟨?_, ?_, congrArg (· != 0) (State.fld_setFld_getField _ _ _ val (by decide) (by decide))⟩
  · unfold State.derateStored
    simp (disch := decide) only [State.fld_setFld_other, State.fld_setFld_getField]
  · unfold State.derateStored
    simp (disch := decide) only [State.fld_setFld_other, State.fld_setFld_getField]

theorem State.derateStored_regsBut (s : State) (n : Fin 16) (val : Word) : RegsBut [R.HD_DERATE_CTRL n.val] s (s.derateStored n val) :=
  ((s.regsBut_setFld _ _ _).trans (State.regsBut_setFld _ _ _ _)).trans (State.regsBut_setFld _ _ _ _)

theorem State.derateStored_heads (s : State) (n : Fin 16) (val : Word) : (s.derateStored n val).heads = s.heads :=
  ((State.setFld_heads ..).trans (State.setFld_heads ..)).trans (State.setFld_heads ..)

theorem State.derateStored_events (s : State) (n : Fin 16) (val : Word) : (s.derateStored n val).events = s.events :=
  ((State.setFld_events ..).trans (State.setFld_events ..)).trans (State.setFld_events ..)

theorem State.derateStored_time (s : State) (n : Fin 16) (val : Word) : (s.derateStored n val).time = s.time :=
  ((State.setFld_time ..).trans (State.setFld_time ..)).trans (State.setFld_time ..)

theorem State.derateShown_events (s : State) (n : Fin 16) (f : Nat) : (s.derateShown n f).events = s.events :=
  (State.setFld_events ..).trans (State.setFld_events ..)

/-- F is set, and no write gate fails by it (R149). -/
theorem State.setDerate_of_no_gate {s : State} {n : Fin 16} {f : Nat}
    (h : (s.head n).pass = none ∨ s.fld (R.HD_DERATE_CTRL n.val) F.HD_DERATE_CTRL_MIN_F ≤ f) :
    s.setDerate n f = s.setFld (R.HD_LASER_STATUS n.val) F.HD_LASER_STATUS_DERATE f := by
  obtain hpass | hmin := h
  · exact State.setDerate_of_no_pass hpass f
  · refine if_neg (Nat.not_lt_of_le ?_)
    exact (State.fld_congr (s.reg_setFld_other _ f (derateCtrl_ne_laserStatus n)) _).trans_le hmin

/-- The item's staleness counts anew (R158). -/
def State.staleAnew (s : State) (n : Fin 16) : State :=
  s.modHead n fun h => { h with laser := { h.laser with staleFrom := s.now, staleTold := false } }

theorem State.staleAnew_reg (s : State) (n : Fin 16) (k : Nat) : (s.staleAnew n).reg k = s.reg k := State.modHead_reg ..

theorem State.staleAnew_head (s : State) (n : Fin 16) :
    (s.staleAnew n).head n = { s.head n with laser := { (s.head n).laser with staleFrom := s.now, staleTold := false } } := State.head_modHead_self ..

theorem State.staleAnew_pass (s : State) (n : Fin 16) : ((s.staleAnew n).head n).pass = (s.head n).pass := by rw [State.staleAnew_head]

theorem State.staleAnew_from (s : State) (n : Fin 16) : ((s.staleAnew n).head n).laser.staleFrom = s.now := by rw [State.staleAnew_head]

theorem State.headsBut_staleAnew (s : State) (n : Fin 16) : HeadsBut n s (s.staleAnew n) := State.headsBut_modHead rfl _

theorem exec_derateEnableWrite (head : Fin 16) (val : Word) (s : State) :
    exec (.derateEnableWrite head val) s =
      if getFlag val F.HD_DERATE_CTRL_EN then
        .next (((s.derateStored head val).staleAnew head).setDerate head (derateNow ((s.derateStored head val).staleAnew head) head))
      else .next (((s.derateStored head val).setFld (R.HD_LASER_STATUS head.val) F.HD_LASER_STATUS_HK_STALE 0).setDerate head 256) := rfl

theorem derateEnableWrite_off (head : Fin 16) (val : Word) : Completes (.derateEnableWrite head val)
    (fun s => getFlag val F.HD_DERATE_CTRL_EN = false ∧ ((s.head head).pass = none ∨ getField val F.HD_DERATE_CTRL_MIN_F ≤ 256))
    [.events, .regs, .heads, .decode, .mem, .out]
    fun s t => t.fld (R.HD_LASER_STATUS head.val) F.HD_LASER_STATUS_DERATE = 256 ∧
        t.flag (R.HD_LASER_STATUS head.val) F.HD_LASER_STATUS_HK_STALE = false ∧
        t.fld (R.HD_DERATE_CTRL head.val) F.HD_DERATE_CTRL_MIN_F = getField val F.HD_DERATE_CTRL_MIN_F ∧
        t.fld (R.HD_DERATE_CTRL head.val) F.HD_DERATE_CTRL_HK_ITEM = getField val F.HD_DERATE_CTRL_HK_ITEM ∧
        t.flag (R.HD_DERATE_CTRL head.val) F.HD_DERATE_CTRL_EN = false ∧
        RegsBut [R.HD_DERATE_CTRL head.val, R.HD_LASER_STATUS head.val] s t ∧ t.events = s.events ∧ t.heads = s.heads := by
  refine Completes.of_keeps (execDerateEnableWrite_keeps head val) ?_
  rintro s - ⟨hoff, hgate⟩
  let u := s.derateStored head val
  obtain ⟨hmin, hitem, hen⟩ := s.derateStored_fields head val
  have hshown := u.derateShown_regsBut head 256
  have hctrl : (u.derateShown head 256).reg (R.HD_DERATE_CTRL head.val) = u.reg (R.HD_DERATE_CTRL head.val) :=
    hshown _ (by simpa using derateCtrl_ne_laserStatus head)
  have hexec : exec (.derateEnableWrite head val) s = .next (u.derateShown head 256) := by
    rw [exec_derateEnableWrite, if_neg (by rw [hoff]; decide), State.setDerate_of_no_gate, State.derateShown]
    refine hgate.imp (fun hpass => ?_) fun hle => ?_
    · rw [State.head_congr (State.setFld_heads ..), State.head_congr (s.derateStored_heads head val), hpass]
    · exact ((State.fld_congr (u.reg_setFld_other _ 0 (derateCtrl_ne_laserStatus head)) _).trans hmin).trans_le hle
  refine ⟨_, hexec, State.derateShown_derate u head (Nat.le_refl _), u.derateShown_stale head 256, (State.fld_congr hctrl _).trans hmin,
    (State.fld_congr hctrl _).trans hitem, ((State.flag_congr hctrl _).trans hen).trans hoff, ?_,
    (u.derateShown_events head 256).trans (s.derateStored_events head val), (u.derateShown_heads head 256).trans (s.derateStored_heads head val)⟩
  exact ((s.derateStored_regsBut head val).mono (by simp)).trans (hshown.mono (by simp))

theorem derateEnableWrite_on (head : Fin 16) (val : Word) : Completes (.derateEnableWrite head val)
    (fun s => getFlag val F.HD_DERATE_CTRL_EN = true ∧
        ((s.head head).pass = none ∨ getField val F.HD_DERATE_CTRL_MIN_F ≤ s.fld (R.HD_LASER_STATUS head.val) F.HD_LASER_STATUS_DERATE))
    [.events, .regs, .heads, .decode, .mem, .out]
    fun s t => (t.head head).laser.staleFrom = s.now ∧ t.flag (R.HD_DERATE_CTRL head.val) F.HD_DERATE_CTRL_EN = true ∧
        t.fld (R.HD_DERATE_CTRL head.val) F.HD_DERATE_CTRL_MIN_F = getField val F.HD_DERATE_CTRL_MIN_F ∧
        t.fld (R.HD_DERATE_CTRL head.val) F.HD_DERATE_CTRL_HK_ITEM = getField val F.HD_DERATE_CTRL_HK_ITEM ∧
        RegsBut [R.HD_DERATE_CTRL head.val] s t ∧ HeadsBut head s t := by
  refine Completes.of_keeps (execDerateEnableWrite_keeps head val) ?_
  rintro s - ⟨hon, hgate⟩
  let u := (s.derateStored head val).staleAnew head
  have hpass : (u.head head).pass = (s.head head).pass :=
    (State.staleAnew_pass ..).trans (congrArg Head.pass (State.head_congr (s.derateStored_heads head val) head))
  have hfrom : (u.head head).laser.staleFrom = s.now :=
    (State.staleAnew_from ..).trans (congrArg TimeState.tb (s.derateStored_time head val))
  have hstored : RegsBut [R.HD_DERATE_CTRL head.val] s u := fun k hk => (State.staleAnew_reg ..).trans (s.derateStored_regsBut head val k hk)
  have hsame : derateNow u head = derateNow s head := State.fld_congr (hstored _ (by simpa using (derateCtrl_ne_laserStatus head).symm)) _
  have hctrl : u.reg (R.HD_DERATE_CTRL head.val) = (s.derateStored head val).reg (R.HD_DERATE_CTRL head.val) := State.staleAnew_reg ..
  obtain ⟨hmin, hitem, hen⟩ := s.derateStored_fields head val
  rw [← State.fld_congr hctrl] at hmin hitem
  rw [← State.flag_congr hctrl] at hen
  have hother := u.reg_setFld_other F.HD_LASER_STATUS_DERATE (derateNow u head) (derateCtrl_ne_laserStatus head)
  have hexec : exec (.derateEnableWrite head val) s =
      .next (u.setFld (R.HD_LASER_STATUS head.val) F.HD_LASER_STATUS_DERATE (derateNow u head)) := by
    rw [exec_derateEnableWrite, if_pos hon, State.setDerate_of_no_gate]
    rw [hpass, hsame]
    exact hgate.imp_right fun hle => hmin.trans_le hle
  refine ⟨_, hexec, ?_, ((State.flag_congr hother _).trans hen).trans hon, (State.fld_congr hother _).trans hmin,
    (State.fld_congr hother _).trans hitem, hstored.trans (u.regsBut_setFld_own _ _ (by decide) (by decide)), fun m hm => ?_⟩
  · rw [State.head_congr (u.setFld_heads ..), hfrom]
  · rw [State.head_congr (u.setFld_heads ..), State.headsBut_staleAnew _ _ m hm, State.head_congr (s.derateStored_heads head val)]

/-- The item is stale: F is 0 and HK_STALE stands, and the event is told (R158). -/
def State.derateLost (s : State) (n : Fin 16) : State :=
  ((s.setFld (R.HD_LASER_STATUS n.val) F.HD_LASER_STATUS_DERATE 0).modHead n fun h => { h with laser := { h.laser with staleTold := true } }).setFld
    (R.HD_LASER_STATUS n.val) F.HD_LASER_STATUS_HK_STALE 1

theorem State.derateLost_status (s : State) (n : Fin 16) :
    (s.derateLost n).fld (R.HD_LASER_STATUS n.val) F.HD_LASER_STATUS_DERATE = 0 ∧
      (s.derateLost n).flag (R.HD_LASER_STATUS n.val) F.HD_LASER_STATUS_HK_STALE = true := by
  refine ⟨?_, State.flag_setFld_set _ _ _ (by decide) (by decide)⟩
  rw [State.derateLost, State.fld_setFld_other _ _ _ _ _ (by decide) (by decide) (by decide) (by decide), State.fld_congr (State.modHead_reg ..)]
  exact s.fld_setFld_self _ _ 0 (by decide) (by decide)

theorem State.derateLost_regsBut (s : State) (n : Fin 16) : RegsBut [R.HD_LASER_STATUS n.val] s (s.derateLost n) :=
  ((s.regsBut_setFld _ _ 0).trans (regsBut_of_regs_eq (State.modHead_regs ..))).trans (State.regsBut_setFld _ _ _ 1)

theorem State.derateLost_laser (s : State) (n : Fin 16) : ((s.derateLost n).head n).laser = { (s.head n).laser with staleTold := true } := by
  rw [State.derateLost, State.head_congr (State.setFld_heads ..), State.head_modHead_self, State.head_congr (State.setFld_heads ..)]

theorem State.derateLost_time (s : State) (n : Fin 16) : (s.derateLost n).time = s.time :=
  ((State.setFld_time ..).trans (State.modHead_time ..)).trans (State.setFld_time ..)

theorem State.derateLost_events (s : State) (n : Fin 16) : (s.derateLost n).events = s.events :=
  ((State.setFld_events ..).trans (State.modHead_events ..)).trans (State.setFld_events ..)

theorem State.headsBut_derateLost (s : State) (n : Fin 16) : HeadsBut n s (s.derateLost n) :=
  (State.headsBut_modHead (s.setFld_heads ..) _).of_heads (State.setFld_heads ..)

theorem exec_derateStale_lost {s : State} {head : Fin 16} (hon : s.flag (R.HD_DERATE_CTRL head.val) F.HD_DERATE_CTRL_EN = true)
    (hpass : (s.head head).pass = none) (hfirst : (s.head head).laser.staleTold = false) (hlate : (s.head head).laser.staleFrom + 46080 ≤ s.now) :
    exec (.derateStale head) s = .next ((s.derateLost head).logHead head 0x1203
      (s.fld (R.HD_DERATE_CTRL head.val) F.HD_DERATE_CTRL_HK_ITEM) (s.head head).laser.lastTemp) := by
  have hitem : s.fld (R.HD_DERATE_CTRL head.val) F.HD_DERATE_CTRL_HK_ITEM = (s.derateLost head).fld (R.HD_DERATE_CTRL head.val) F.HD_DERATE_CTRL_HK_ITEM :=
    (State.fld_congr (s.derateLost_regsBut head _ (by simpa using derateCtrl_ne_laserStatus head)) _).symm
  have htemp : (s.head head).laser.lastTemp = ((s.derateLost head).head head).laser.lastTemp := (congrArg LaserState.lastTemp (s.derateLost_laser head)).symm
  have hdue : (s.flag (R.HD_DERATE_CTRL head.val) F.HD_DERATE_CTRL_EN && !(s.head head).laser.staleTold &&
      decide ((s.head head).laser.staleFrom + staleTicks ≤ s.now)) = true := by
    rw [hon, hfirst]
    exact decide_eq_true hlate
  rw [hitem, htemp, State.derateLost, ← State.setDerate_of_no_pass hpass]
  exact when_of_true hdue _ _

theorem derateStale_tells (head : Fin 16) : Completes (.derateStale head)
    (fun s => s.flag (R.HD_DERATE_CTRL head.val) F.HD_DERATE_CTRL_EN = true ∧ (s.head head).pass = none ∧
        (s.head head).laser.staleTold = false ∧ (s.head head).laser.staleFrom + 46080 ≤ s.now)
    [.events, .regs, .heads, .decode, .mem, .out]
    fun s t => t.fld (R.HD_LASER_STATUS head.val) F.HD_LASER_STATUS_DERATE = 0 ∧
        t.flag (R.HD_LASER_STATUS head.val) F.HD_LASER_STATUS_HK_STALE = true ∧ RegsBut [R.HD_LASER_STATUS head.val] s t ∧ HeadsBut head s t ∧
        (t.head head).laser = { (s.head head).laser with staleTold := true } ∧
        t.events = (s.logHead head 0x1203 (s.fld (R.HD_DERATE_CTRL head.val) F.HD_DERATE_CTRL_HK_ITEM) (s.head head).laser.lastTemp).events := by
  refine Completes.of_keeps (execDerateStale_keeps head) ?_
  rintro s - ⟨hon, hpass, hfirst, hlate⟩
  obtain ⟨hlost, hstale⟩ := s.derateLost_status head
  refine ⟨_, exec_derateStale_lost hon hpass hfirst hlate, (State.fld_congr (State.logHead_reg ..) _).trans hlost,
    (State.flag_congr (State.logHead_reg ..) _).trans hstale, (s.derateLost_regsBut head).trans (regsBut_of_regs_eq (State.log_regs ..)), ?_, ?_,
    State.logHead_events_congr (s.derateLost_events head) (s.derateLost_time head) head ..⟩
  · exact (s.headsBut_derateLost head).of_heads (State.logHead_heads ..)
  · rw [State.head_congr (State.logHead_heads ..)]
    exact s.derateLost_laser head

theorem derateStale_waits (head : Fin 16) : Completes (.derateStale head)
    (fun s => s.flag (R.HD_DERATE_CTRL head.val) F.HD_DERATE_CTRL_EN = false ∨ (s.head head).laser.staleTold = true ∨
        s.now < (s.head head).laser.staleFrom + 46080)
    [.events, .regs, .heads, .decode, .mem, .out]
    fun s t => t = s := by
  refine Completes.of_keeps (execDerateStale_keeps head) ?_
  rintro s - hwaits
  refine ⟨s, when_of_false ?_ _ _, rfl⟩
  obtain hoff | htold | hearly := hwaits
  · rw [hoff]
    rfl
  · rw [htold, Bool.not_true, Bool.and_false]
    rfl
  · exact Bool.and_eq_false_imp.mpr fun _ => decide_eq_false (Nat.not_le_of_lt hearly)

/-- Settles O27: each write of a laser register, and the item that is stale, by its own lemma. -/
theorem laserRegisters : Obligations.LaserRegisters :=
  ⟨laserEnableWrite_stores, ceilingWrite_stores, ceilingWrite_refuses, ceilingLock_locks, derateEnableWrite_off, derateEnableWrite_on,
    derateStale_tells, derateStale_waits⟩

end Sys2Proof.Machine
end

section
/-!
PROOFS. Loop slots (R165, R166, R174, R175, R177, R189): state requests, coefficients and configuration, one lemma per outcome.
Settles O44.
-/

namespace Sys2Proof.Machine

/-! ## An instruction chosen by more than its opcode (R227) -/

section Selected

variable {s : State} {b : Fin 24} {u : Upset} {i : Ins} {sel : Ins → Bool} {f : Ins → State → Effect} {c : Instr}
  (h : Issues s b u i) (hsel : sel i = true) (hc : exec c s = s.issue b u sel f)

include h hsel hc

theorem exec_ok_of_selected {t : State} (hf : f i (s.issued b i.next) = .ok t) : exec c s = .next t := by
  obtain ⟨hcan, hfetch, hlegal, hguard, hupset⟩ := h
  simp [hc, State.issue, hcan, hfetch, hupset, hsel, hguard, hlegal, hf]

theorem exec_excepts_of_selected {e : Nat} (he : e ≠ 9) (hf : f i (s.issued b i.next) = .error e) :
    exec c s = .next ((s.issued b i.next).takeException b e i.pc i.word) := by
  obtain ⟨hcan, hfetch, hlegal, hguard, hupset⟩ := h
  simp [hc, State.issue, hcan, hfetch, hupset, hsel, hguard, hlegal, hf, he]

end Selected

/-! ## What a slot reads of the rest of the state -/

theorem State.slot_congr {s t : State} (h : t.loop = s.loop) (k : Fin 96) : t.slot k = s.slot k :=
  congrArg (fun l : LoopState => l.slots[k]) h

theorem slotHead_congr {s t : State} {k : Fin 96} (h : t.reg (R.LP_SLOT_CFG k.val) = s.reg (R.LP_SLOT_CFG k.val)) : slotHead t k = slotHead s k := by
  unfold slotHead slotSpindle slotCfg
  simp only [State.fld_congr h]

/-- The hold of a link rests on the slot's binding and the heads (R175). -/
theorem State.linkHolds_congr {s t : State} {k : Fin 96} (hcfg : t.reg (R.LP_SLOT_CFG k.val) = s.reg (R.LP_SLOT_CFG k.val))
    (hheads : t.heads = s.heads) : t.linkHolds k = s.linkHolds k := by
  unfold State.linkHolds
  rw [slotHead_congr hcfg]
  simp only [State.head_congr hheads]

theorem State.issued_linkHolds (s : State) (b : Fin 24) (next : Nat) (k : Fin 96) : (s.issued b next).linkHolds k = s.linkHolds k :=
  State.linkHolds_congr ((s.issued_headsAlike b next).reg (by unfold R.LP_SLOT_CFG; omega)) (State.issued_heads ..)

theorem State.modSlot_id (s : State) (k : Fin 96) : (s.modSlot k fun x => x) = s := by
  simp [State.modSlot]

theorem State.modSlot_modSlot (s : State) (k : Fin 96) (f g : Slot → Slot) : (s.modSlot k f).modSlot k g = s.modSlot k fun x => g (f x) := by
  simp [State.modSlot, Vector.set_set]

theorem State.logLoop_events_congr {s t : State} (he : t.events = s.events) (ht : t.time = s.time) (code a0 a1 a2 a3 : Nat) :
    (t.logLoop code a0 a1 a2 a3).events = (s.logLoop code a0 a1 a2 a3).events := by
  unfold State.logLoop State.log
  rw [State.logAt_events_congr he, State.stamp_congr ht]

/-! ## State requests (R174, R175, R177) -/

/-- The request that a slot takes: 2 counts as 1 (R174). -/
def slotReq (req : Nat) : Nat := if req = 2 then 1 else req

theorem slotReq_fin (req : Fin 4) : slotReq req.val = if req = 2 then 1 else req.val := by
  revert req
  decide

theorem slotReq_eq_run {req : Fin 4} : slotReq req.val = 3 ↔ req = 3 := by
  revert req
  decide

/-- LP_SLOT_CTRL.REQ shows a request. -/
def State.showReq (s : State) (k : Fin 96) (req : Nat) : State := s.setFld (R.LP_SLOT_CTRL k.val) F.LP_SLOT_CTRL_REQ (slotReq req)

/-- A request to clear is marked in the slot (R177). -/
def Slot.asked (x : Slot) (clear : Bool) : Slot := { x with clear := clear || x.clear }

theorem State.showReq_fld (s : State) (k : Fin 96) {req : Nat} (h : req < 4) :
    (s.showReq k req).fld (R.LP_SLOT_CTRL k.val) F.LP_SLOT_CTRL_REQ = slotReq req := by
  have hlt : slotReq req < 4 := by
    unfold slotReq
    split <;> omega
  rw [State.showReq, State.fld_setFld_self _ _ _ _ (by decide) (by decide)]
  exact Nat.mod_eq_of_lt hlt

theorem State.showReq_regsBut (s : State) (k : Fin 96) (req : Nat) : RegsBut [R.LP_SLOT_CTRL k.val] s (s.showReq k req) := s.regsBut_setFld _ _ _

theorem State.showReq_linkHolds (s : State) (k : Fin 96) (req : Nat) : (s.showReq k req).linkHolds k = s.linkHolds k :=
  State.linkHolds_congr (s.showReq_regsBut k req _ (by simp [R.LP_SLOT_CFG, R.LP_SLOT_CTRL])) rfl

/-- Where no sequence overrides the slot none ends (R189): RUN is refused under a persistent hold (R175), and a slot in use takes the
request (R174). -/
theorem State.slotRequest_of_no_override {s : State} {k : Fin 96} {req : Nat} (hover : (s.slot k).override = false) (clear : Bool) :
    (slotReq req = 3 ∧ (s.linkHolds k = true ∨ (s.slot k).memHold = true) →
      s.slotRequest k req clear =
        ((s.showReq k req).modSlot k (·.asked clear)).logLoop 0x4007 k.val (if s.linkHolds k then 0 else 1)) ∧
    (¬(slotReq req = 3 ∧ (s.linkHolds k = true ∨ (s.slot k).memHold = true)) → (s.slot k).inUse = true →
      s.slotRequest k req clear = (s.showReq k req).modSlot k fun x => { x.asked clear with req := some (slotReq req) }) := by
  unfold State.slotRequest
  extract_lets r shown yielded cleared x
  have hyielded : yielded = s.showReq k req := by
    unfold yielded
    split
    · exact if_neg fun h => Bool.noConfusion (h.1.symm.trans hover)
    · rfl
  have hcleared : cleared = (s.showReq k req).modSlot k (·.asked clear) := by
    unfold cleared
    rw [hyielded]
    cases clear
    · exact (State.modSlot_id ..).symm
    · rfl
  have hx : x = (s.slot k).asked clear := by
    unfold x
    rw [hcleared, State.slot_modSlot_self]
    rfl
  have hlink : cleared.linkHolds k = s.linkHolds k := by
    rw [hcleared]
    exact s.showReq_linkHolds k req
  rw [hlink, hx, hcleared]
  exact ⟨fun hheld => if_pos hheld, fun hfree huse => (if_neg hfree).trans ((if_pos (.inl huse)).trans (State.modSlot_modSlot ..))⟩

/-- A slot in use that nothing overrides or holds takes the request, and REQ shows it. -/
theorem State.slotRequest_waits {s : State} {k : Fin 96} {req : Nat} (huse : (s.slot k).inUse = true) (hover : (s.slot k).override = false)
    (hfree : ¬(slotReq req = 3 ∧ (s.linkHolds k = true ∨ (s.slot k).memHold = true))) (clear : Bool) :
    (s.slotRequest k req clear).slot k = { s.slot k with req := some (slotReq req), clear := clear || (s.slot k).clear } ∧
      (∀ j : Fin 96, j ≠ k → (s.slotRequest k req clear).slot j = s.slot j) ∧ (s.slotRequest k req clear).regs = (s.showReq k req).regs ∧
      (s.slotRequest k req clear).events = s.events ∧ (s.slotRequest k req clear).seq = s.seq := by
  rw [(State.slotRequest_of_no_override hover clear).2 hfree huse]
  refine ⟨?_, fun j hj => State.slot_modSlot_other _ _ hj, rfl, rfl, rfl⟩
  rw [State.slot_modSlot_self]
  rfl

/-- What a write of LP_SLOT_CTRL asks of a slot in use. -/
theorem State.regRequest_waits {s : State} {k : Fin 96} {req : Fin 4} (huse : (s.slot k).inUse = true) (hover : (s.slot k).override = false)
    (hfree : ¬(req = 3 ∧ (s.linkHolds k = true ∨ (s.slot k).memHold = true))) (clear : Bool) :
    (s.slotRequest k req.val clear).slot k =
        { s.slot k with req := some (if req = 2 then 1 else req.val), clear := clear || (s.slot k).clear } ∧
      (∀ j : Fin 96, j ≠ k → (s.slotRequest k req.val clear).slot j = s.slot j) ∧
      (s.slotRequest k req.val clear).fld (R.LP_SLOT_CTRL k.val) F.LP_SLOT_CTRL_REQ = (if req = 2 then 1 else req.val) ∧
      RegsBut [R.LP_SLOT_CTRL k.val] s (s.slotRequest k req.val clear) ∧ (s.slotRequest k req.val clear).events = s.events := by
  rw [← slotReq_eq_run] at hfree
  obtain ⟨hslot, hothers, hregs, hevents, -⟩ := State.slotRequest_waits huse hover hfree clear
  have hreg (j : Nat) : (s.slotRequest k req.val clear).reg j = (s.showReq k req.val).reg j := congrArg (storeGet regReset j) hregs
  rw [← slotReq_fin]
  exact ⟨hslot, hothers, (State.fld_congr (hreg _) _).trans (s.showReq_fld k req.isLt),
    (s.showReq_regsBut k req.val).trans (regsBut_of_regs_eq hregs), hevents⟩

theorem slotStateRequest_waits (k : Fin 96) (req : Fin 4) : Completes (.slotStateRequest (.reg (k, req)))
    (fun s => (s.slot k).inUse = true ∧ (s.slot k).override = false ∧ ¬ (req = 3 ∧ (s.linkHolds k = true ∨ (s.slot k).memHold = true)))
    [.events, .regs, .heads, .loop, .seq]
    fun s t => t.slot k = { s.slot k with req := some (if req = 2 then 1 else req.val) } ∧ (∀ j : Fin 96, j ≠ k → t.slot j = s.slot j) ∧
        t.fld (R.LP_SLOT_CTRL k.val) F.LP_SLOT_CTRL_REQ = (if req = 2 then 1 else req.val) ∧ RegsBut [R.LP_SLOT_CTRL k.val] s t ∧ t.events = s.events := by
  refine Completes.of_keeps (execSlotStateRequest_keeps (.reg (k, req))) ?_
  rintro s - ⟨huse, hover, hfree⟩
  exact ⟨_, rfl, State.regRequest_waits huse hover hfree false⟩

theorem slotStateRequest_refused (k : Fin 96) (req : Fin 4) : Completes (.slotStateRequest (.reg (k, req)))
    (fun s => (s.slot k).override = false ∧ req = 3 ∧ s.linkHolds k = true)
    [.events, .regs, .heads, .loop, .seq]
    fun s t => t.slot k = s.slot k ∧ t.events = (s.logLoop 0x4007 k.val 0).events ∧ t.loop = s.loop := by
  refine Completes.of_keeps (execSlotStateRequest_keeps (.reg (k, req))) ?_
  rintro s - ⟨hover, rfl, hhold⟩
  have hclear : (s.showReq k 3).modSlot k (·.asked false) = s.showReq k 3 := State.modSlot_id ..
  have hrefused := (State.slotRequest_of_no_override (req := 3) hover false).1 ⟨rfl, .inl hhold⟩
  rw [if_pos hhold, hclear] at hrefused
  have hloop : ((s.showReq k 3).logLoop 0x4007 k.val 0).loop = s.loop := State.log_loop ..
  exact ⟨_, congrArg Host.Outcome.next hrefused, State.slot_congr hloop k,
    State.logLoop_events_congr (s := s) (t := s.showReq k 3) rfl rfl .., hloop⟩

theorem slotClearState_waits (k : Fin 96) (req : Fin 4) : Completes (.slotClearState (.reg (k, req)))
    (fun s => (s.slot k).inUse = true ∧ (s.slot k).override = false ∧ ¬ (req = 3 ∧ (s.linkHolds k = true ∨ (s.slot k).memHold = true)))
    [.events, .regs, .heads, .loop, .seq]
    fun s t => t.slot k = { s.slot k with req := some (if req = 2 then 1 else req.val), clear := true } ∧
        (∀ j : Fin 96, j ≠ k → t.slot j = s.slot j) ∧ RegsBut [R.LP_SLOT_CTRL k.val] s t ∧ t.events = s.events := by
  refine Completes.of_keeps (execSlotClearState_keeps (.reg (k, req))) ?_
  rintro s - ⟨huse, hover, hfree⟩
  obtain ⟨hslot, hothers, -, hregs, hevents⟩ := State.regRequest_waits huse hover hfree true
  exact ⟨_, rfl, hslot, hothers, hregs, hevents⟩

/-! ## LP.REQ (R174, R177, R189) -/

section LpReq

variable {s : State} {b : Fin 24} {u : Upset} {i : Ins} {k : Fin 96} {n : Fin 16}

/-- A register operand of an instruction that has no long form (R228). -/
theorem Issues.g_rb_eq_valB (h : Issues s b u i) (hshort : hasLong i.op = false) : s.g b i.rb = (valB s b i).toNat := by
  rw [valB_short (fetchIns_ext h.2.1 hshort)]
  rfl

/-- CLR_STATE in bit 2 of rb. -/
theorem Issues.testBitN_rb (h : Issues s b u i) (hop : i.op = 0x68) : testBitN (s.g b i.rb) 2 = decide ((valB s b i).toNat / 4 % 2 = 1) := by
  rw [h.g_rb_eq_valB (by rw [hop]; rfl), testBitN]
  rfl

/-- LP.REQ, with CLR_STATE or not, on a slot in use that nothing overrides or holds. -/
theorem lpReq_waits {c : Instr} {sel : Ins → Bool} {clear : Bool} (hi : Issues s b u i) (hop : i.op = 0x68) (hsel : sel i = true)
    (hc : exec c s = s.issue b u sel fun i t => t.slotChecks b (t.g b i.ra) fun k => .ok (t.slotRequest k (t.g b i.rb % 4) clear))
    (hfam : s.capBit b famLP = true) (hk : (valA s b i).toNat % 128 = k.val) (hslot : slotHead s k = some n)
    (hcap : s.capBit b (16 + n.val) = true) (hserv : s.headInService n.val = true) (huse : (s.slot k).inUse = true)
    (hover : (s.slot k).override = false) (hlink : s.linkHolds k = false) (hmem : (s.slot k).memHold = false) :
    ∃ t, exec c s = .next t ∧ (t.slot k).req = some (if (valB s b i).toNat % 4 = 2 then 1 else (valB s b i).toNat % 4) ∧
      (t.slot k).clear = (clear || (s.slot k).clear) ∧ t.bob b = (s.bob b).past i s.now ∧ Elsewhere b s t ∧
      RegsBut [R.SQ_BOB_ISSUED b.val, R.LP_SLOT_CTRL k.val] s t := by
  have hrb : (s.issued b i.next).g b i.rb = (valB s b i).toNat := State.g_issued_rb (fetchIns_ext hi.2.1 (by rw [hop]; rfl))
  have hsame := (s.issued_headsAlike b i.next).slot k
  rw [← hsame] at huse hover hmem ⊢
  rw [← s.issued_linkHolds b i.next k] at hlink
  obtain ⟨hasked, -, hregs, -, hseq⟩ := State.slotRequest_waits (req := (valB s b i).toNat % 4) huse hover
    (by rintro ⟨-, hheld⟩; simp [hlink, hmem] at hheld) clear
  refine ⟨_, exec_ok_of_selected hi hsel hc ?_, ?_, ?_, (State.bob_congr hseq b).trans (s.issued_bob_self b i),
    (s.issued_elsewhere b i.next).trans (.of_seq_eq hseq), ?_⟩
  · rw [State.issued_slotChecks hfam hk hslot hcap hserv, hrb]
  · rw [hasked]
    rfl
  · rw [hasked]
  · exact ((s.issued_regsBut b i.next).mono (by simp)).trans (((State.showReq_regsBut _ k _).mono (by simp)).trans (regsBut_of_regs_eq hregs))

end LpReq

theorem exec_slotStateRequest_obkin (b : Fin 24) (u : Upset) (s : State) : exec (.slotStateRequest (.obkin b u)) s =
    s.issue b u (fun i => isOp 0x68 i && !testBitN (s.g b i.rb) 2) fun i t =>
      t.slotChecks b (t.g b i.ra) fun k => .ok (t.slotRequest k (t.g b i.rb % 4) false) := rfl

theorem exec_slotClearState_obkin (b : Fin 24) (u : Upset) (s : State) : exec (.slotClearState (.obkin b u)) s =
    s.issue b u (fun i => isOp 0x68 i && testBitN (s.g b i.rb) 2) fun i t =>
      t.slotChecks b (t.g b i.ra) fun k => .ok (t.slotRequest k (t.g b i.rb % 4) true) := rfl

theorem slotStateRequest_lpReq (b : Fin 24) (u : Upset) (i : Ins) (k : Fin 96) (n : Fin 16) : Completes (.slotStateRequest (.obkin b u))
    (fun s => Issues s b u i ∧ i.op = 0x68 ∧ (valB s b i).toNat / 4 % 2 = 0 ∧ s.capBit b famLP = true ∧ (valA s b i).toNat % 128 = k.val ∧
        slotHead s k = some n ∧ s.capBit b (16 + n.val) = true ∧ s.headInService n.val = true ∧ (s.slot k).inUse = true ∧ (s.slot k).override = false ∧
        s.linkHolds k = false ∧ (s.slot k).memHold = false)
    [.events, .regs, .heads, .loop, .seq]
    fun s t => (t.slot k).req = some (if (valB s b i).toNat % 4 = 2 then 1 else (valB s b i).toNat % 4) ∧ t.bob b = (s.bob b).past i s.now ∧
        Elsewhere b s t ∧ RegsBut [R.SQ_BOB_ISSUED b.val, R.LP_SLOT_CTRL k.val] s t := by
  refine Completes.of_keeps (execSlotStateRequest_keeps (.obkin b u)) ?_
  rintro s - ⟨hi, hop, hclr, hfam, hk, hslot, hcap, hserv, huse, hover, hlink, hmem⟩
  have hsel : (isOp 0x68 i && !testBitN (s.g b i.rb) 2) = true := by
    rw [hi.testBitN_rb hop, hclr, isOp, hop]
    rfl
  obtain ⟨t, hexec, hreq, -, hrest⟩ := lpReq_waits hi hop hsel (exec_slotStateRequest_obkin b u s) hfam hk hslot hcap hserv huse hover
    hlink hmem
  exact ⟨t, hexec, hreq, hrest⟩

theorem slotStateRequest_excepts (b : Fin 24) (u : Upset) (i : Ins) : Completes (.slotStateRequest (.obkin b u))
    (fun s => Issues s b u i ∧ i.op = 0x68 ∧ (valB s b i).toNat / 4 % 2 = 0 ∧ s.capBit b famLP = false)
    [.events, .regs, .heads, .loop, .seq]
    fun s t => Excepts b i 2 i.word s t ∧ t.loop = s.loop := by
  refine Completes.of_keeps (execSlotStateRequest_keeps (.obkin b u)) ?_
  rintro s - ⟨hi, hop, hclr, hfam⟩
  have hsel : (isOp 0x68 i && !testBitN (s.g b i.rb) 2) = true := by
    rw [hi.testBitN_rb hop, hclr, isOp, hop]
    rfl
  refine ⟨_, exec_excepts_of_selected (e := 2) hi hsel (exec_slotStateRequest_obkin b u s) (by decide) ?_,
    s.takeException_excepts b i 2 _ (by decide), ?_⟩
  · rw [State.slotChecks, State.issued_capBit, hfam]
    rfl
  · rw [(State.takeException_keeps ..).frame .loop (by decide), State.issued_loop]

theorem slotClearState_lpReq (b : Fin 24) (u : Upset) (i : Ins) (k : Fin 96) (n : Fin 16) : Completes (.slotClearState (.obkin b u))
    (fun s => Issues s b u i ∧ i.op = 0x68 ∧ (valB s b i).toNat / 4 % 2 = 1 ∧ s.capBit b famLP = true ∧ (valA s b i).toNat % 128 = k.val ∧
        slotHead s k = some n ∧ s.capBit b (16 + n.val) = true ∧ s.headInService n.val = true ∧ (s.slot k).inUse = true ∧ (s.slot k).override = false ∧
        s.linkHolds k = false ∧ (s.slot k).memHold = false)
    [.events, .regs, .heads, .loop, .seq]
    fun s t => (t.slot k).req = some (if (valB s b i).toNat % 4 = 2 then 1 else (valB s b i).toNat % 4) ∧ (t.slot k).clear = true ∧
        t.bob b = (s.bob b).past i s.now ∧ Elsewhere b s t := by
  refine Completes.of_keeps (execSlotClearState_keeps (.obkin b u)) ?_
  rintro s - ⟨hi, hop, hclr, hfam, hk, hslot, hcap, hserv, huse, hover, hlink, hmem⟩
  have hsel : (isOp 0x68 i && testBitN (s.g b i.rb) 2) = true := by
    rw [hi.testBitN_rb hop, hclr, isOp, hop]
    rfl
  obtain ⟨t, hexec, hreq, hclear, hbob, helse, -⟩ := lpReq_waits hi hop hsel (exec_slotClearState_obkin b u s) hfam hk hslot hcap hserv huse
    hover hlink hmem
  exact ⟨t, hexec, hreq, hclear, hbob, helse⟩

/-! ## Coefficients (R177) -/

theorem toSigned_toNat {w : Nat} (x : BitVec w) (n : Nat) : toSigned x.toNat n = (x.setWidth n).toInt := by
  rw [toSigned, BitVec.toInt_eq_toNat_cond, BitVec.toNat_setWidth]

/-- A coefficient is sign-extended from 24 bits (R167). -/
theorem coefWord_toNat {w : Nat} (x : BitVec w) : coefWord x.toNat = (x.setWidth 24).signExtend 32 := by
  refine BitVec.eq_of_toNat_eq ?_
  rw [coefWord, toSigned_toNat, BitVec.signExtend, BitVec.toNat_ofNat, BitVec.toNat_ofInt]
  unfold ofSigned
  omega

theorem coefWord_mod (v : Nat) : coefWord (v % 2 ^ 24) = coefWord v := by
  rw [coefWord, coefWord, toSigned, toSigned, Nat.mod_mod]

theorem State.coefWrite_of_disabled {s : State} {k : Fin 96} (h : (s.slot k).st = .disabled) {i : Nat} (hi : i < 64) (v : Nat) :
    s.coefWrite k i v = s.setReg (R.LP_COEF k.val i) (coefWord v) := by
  rw [State.coefWrite, if_pos h, Nat.mod_eq_of_lt hi]

theorem coefficientWrite_stores (k : Fin 96) (i : Fin 64) (w : Word) : Completes (.coefficientWrite (.reg (k, i, w)))
    (fun s => (s.slot k).st = .disabled)
    [.events, .regs, .loop, .seq]
    fun s t => t.reg (R.LP_COEF k.val i.val) = (w.setWidth 24).signExtend 32 ∧ RegsBut [R.LP_COEF k.val i.val] s t ∧ t.loop = s.loop := by
  refine Completes.of_keeps (execCoefficientWrite_keeps (.reg (k, i, w))) ?_
  rintro s - hdisabled
  refine ⟨_, congrArg Host.Outcome.next (State.coefWrite_of_disabled hdisabled i.isLt w.toNat), ?_, s.regsBut_setReg _ _, s.setReg_loop ..⟩
  rw [State.reg_setReg_self, coefWord_toNat]

theorem coefficientWrite_waits (k : Fin 96) (i : Fin 64) (w : Word) : Completes (.coefficientWrite (.reg (k, i, w)))
    (fun s => (s.slot k).st ≠ .disabled)
    [.events, .regs, .loop, .seq]
    fun s t => t.slot k = { s.slot k with coefPend := (s.slot k).coefPend ++ [(i.val, w.toNat % 2 ^ 24)] } ∧
        (∀ j : Fin 96, j ≠ k → t.slot j = s.slot j) ∧ t.regs = s.regs := by
  refine Completes.of_keeps (execCoefficientWrite_keeps (.reg (k, i, w))) ?_
  rintro s - hused
  refine ⟨_, congrArg Host.Outcome.next (if_neg hused), ?_, fun j hj => State.slot_modSlot_other _ _ hj, State.modSlot_regs ..⟩
  rw [State.slot_modSlot_self, Nat.mod_eq_of_lt i.isLt]

theorem exec_coefficientWrite_obkin (b : Fin 24) (u : Upset) (s : State) : exec (.coefficientWrite (.obkin b u)) s =
    s.issue b u (isOp 0x69) fun i t =>
      t.slotChecks b (t.g b i.ra) fun k => .ok (t.coefWrite k (t.g b i.rb % 64) (t.g b i.rd % 2 ^ 24)) := rfl

theorem coefficientWrite_lpCoef (b : Fin 24) (u : Upset) (i : Ins) (k : Fin 96) (n : Fin 16) : Completes (.coefficientWrite (.obkin b u))
    (fun s => Issues s b u i ∧ i.op = 0x69 ∧ s.capBit b famLP = true ∧ (valA s b i).toNat % 128 = k.val ∧ slotHead s k = some n ∧
        s.capBit b (16 + n.val) = true ∧ s.headInService n.val = true ∧ (s.slot k).st = .disabled)
    [.events, .regs, .loop, .seq]
    fun s t => t.reg (R.LP_COEF k.val ((valB s b i).toNat % 64)) = (((s.bob b).get i.rd).setWidth 24).signExtend 32 ∧
        t.bob b = (s.bob b).past i s.now ∧ Elsewhere b s t ∧
        RegsBut [R.SQ_BOB_ISSUED b.val, R.LP_COEF k.val ((valB s b i).toNat % 64)] s t := by
  refine Completes.of_keeps (execCoefficientWrite_keeps (.obkin b u)) ?_
  rintro s - ⟨hi, hop, hfam, hk, hslot, hcap, hserv, hdisabled⟩
  have hrb : (s.issued b i.next).g b i.rb = (valB s b i).toNat := State.g_issued_rb (fetchIns_ext hi.2.1 (by rw [hop]; rfl))
  have hdisabled' : ((s.issued b i.next).slot k).st = .disabled := by
    rw [(s.issued_headsAlike b i.next).slot]
    exact hdisabled
  have hexec := exec_ok_of_issues hi hop (exec_coefficientWrite_obkin b u s)
    (by rw [State.issued_slotChecks hfam hk hslot hcap hserv, hrb, State.g_issued,
      State.coefWrite_of_disabled hdisabled' (Nat.mod_lt _ (by decide)), coefWord_mod, coefWord_toNat])
  refine ⟨_, hexec, State.reg_setReg_self .., s.issued_bob_self b i, s.issued_elsewhere b i.next, ?_⟩
  exact ((s.issued_regsBut b i.next).mono (by simp)).trans ((State.regsBut_setReg _ _ _).mono (by simp))

/-! ## Configuration (R164, R166) -/

theorem State.writePlain_reg (s : State) {key : Nat} (h : key < 0x1000000) (w : Word) :
    (s.writePlain key w).reg key = writtenWord key (s.reg key) w := by
  rw [State.writePlain, State.reg_setReg_self, Nat.mod_eq_of_lt h]

theorem State.writePlain_regsBut (s : State) (key : Nat) (w : Word) : RegsBut [key] s (s.writePlain key w) := s.regsBut_setReg _ _

/-- A register that a slot keeps while it is DISABLED takes a write, and COST follows. -/
theorem exec_slotConfigWrite_disabled {s : State} {slot : Fin 96} {which : SlotReg} {off : Nat} (h : (s.slot slot).st = .disabled)
    (hoff : slotRegOff slot which = off) (val : Word) :
    exec (.slotConfigWrite slot which val) s = .next ((s.writePlain off val).showCost slot) := by
  subst hoff
  exact congrArg Host.Outcome.next (if_pos h)

theorem State.showCost_regsBut (s : State) (k : Fin 96) : RegsBut [R.LP_SLOT_SCHED k.val] s (s.showCost k) := s.regsBut_setFld _ _ _

theorem State.showCost_events (s : State) (k : Fin 96) : (s.showCost k).events = s.events := s.setFld_events ..

/-- COST is no node: the nodes that it shows are those that stand. -/
theorem State.showCost_shows (s : State) (k : Fin 96) :
    (s.showCost k).fld (R.LP_SLOT_SCHED k.val) F.LP_SLOT_SCHED_COST = slotCost (slotNodes (s.showCost k) k) % 2 ^ F.LP_SLOT_SCHED_COST.width := by
  have hnodes : slotNodes (s.showCost k) k = slotNodes s k := by
    refine List.map_congr_left fun j _ => ?_
    unfold nodeWord
    rw [s.showCost_regsBut k _ (by simp only [List.mem_singleton, R.LP_NODE, R.LP_SLOT_SCHED]; omega)]
  rw [hnodes]
  exact s.fld_setFld_self _ _ _ (by decide) (by decide)

theorem slotConfigWrite_node (slot : Fin 96) (j : Fin 24) (val : Word) : Completes (.slotConfigWrite slot (.node j) val)
    (fun s => (s.slot slot).st = .disabled)
    [.events, .regs]
    fun s t => t.reg (R.LP_NODE slot.val j.val) = writtenWord (R.LP_NODE slot.val j.val) (s.reg (R.LP_NODE slot.val j.val)) val ∧
        t.fld (R.LP_SLOT_SCHED slot.val) F.LP_SLOT_SCHED_COST = slotCost (slotNodes t slot) % 2 ^ F.LP_SLOT_SCHED_COST.width ∧
        RegsBut [R.LP_NODE slot.val j.val, R.LP_SLOT_SCHED slot.val] s t ∧ t.events = s.events := by
  refine Completes.of_keeps (execSlotConfigWrite_keeps slot (.node j) val) ?_
  rintro s - hdisabled
  refine ⟨_, exec_slotConfigWrite_disabled (off := R.LP_NODE slot.val j.val) hdisabled rfl val, ?_, State.showCost_shows _ slot, ?_,
    State.showCost_events ..⟩
  · rw [State.showCost_regsBut _ _ _ (by simp only [List.mem_singleton, R.LP_NODE, R.LP_SLOT_SCHED]; omega)]
    exact s.writePlain_reg (by unfold R.LP_NODE; omega) val
  · exact ((s.writePlain_regsBut _ val).mono (by simp)).trans ((State.showCost_regsBut _ slot).mono (by simp))

theorem slotConfigWrite_cfg (slot : Fin 96) (val : Word) : Completes (.slotConfigWrite slot .cfg val)
    (fun s => (s.slot slot).st = .disabled)
    [.events, .regs]
    fun s t => t.reg (R.LP_SLOT_CFG slot.val) = writtenWord (R.LP_SLOT_CFG slot.val) (s.reg (R.LP_SLOT_CFG slot.val)) val ∧
        RegsBut [R.LP_SLOT_CFG slot.val, R.LP_SLOT_SCHED slot.val] s t ∧ t.events = s.events := by
  refine Completes.of_keeps (execSlotConfigWrite_keeps slot .cfg val) ?_
  rintro s - hdisabled
  refine ⟨_, exec_slotConfigWrite_disabled (off := R.LP_SLOT_CFG slot.val) hdisabled rfl val, ?_, ?_, State.showCost_events ..⟩
  · rw [State.showCost_regsBut _ _ _ (by simp [R.LP_SLOT_CFG, R.LP_SLOT_SCHED])]
    exact s.writePlain_reg (by unfold R.LP_SLOT_CFG; omega) val
  · exact ((s.writePlain_regsBut _ val).mono (by simp)).trans ((State.showCost_regsBut _ slot).mono (by simp))

theorem slotConfigWrite_refused (slot : Fin 96) (which : SlotReg) (val : Word) : Completes (.slotConfigWrite slot which val)
    (fun s => (s.slot slot).st ≠ .disabled)
    [.events, .regs]
    fun s t => t.regs = s.regs ∧ t.events = (s.logLoop 0x4003 slot.val (slotRegOff slot which)).events := by
  refine Completes.of_keeps (execSlotConfigWrite_keeps slot which val) ?_
  rintro s - hused
  exact ⟨_, congrArg Host.Outcome.next (if_neg hused), State.log_regs .., rfl⟩

/-- Settles O44: requests, coefficients and configuration, each form by its own lemma, in the order of the statement. -/
theorem slotRequests : Obligations.SlotRequests :=
  ⟨slotStateRequest_waits, slotStateRequest_refused, slotStateRequest_lpReq, slotStateRequest_excepts, slotClearState_waits, slotClearState_lpReq,
    coefficientWrite_stores, coefficientWrite_waits, coefficientWrite_lpCoef, slotConfigWrite_node, slotConfigWrite_cfg, slotConfigWrite_refused⟩

end Sys2Proof.Machine
end

section
/-!
PROOFS. The end of a head sequence (R184, R187): what it leaves, and the seam jump that misses its seam (R43, R188). Settles O46.
-/

namespace Sys2Proof.Machine

/-! ## The end of a sequence (R184) -/

/-- The slot that a sequence of head n works on is overridden no more. -/
def State.overrideEnds (s : State) (n : Fin 16) (kind : SeqKind) : State :=
  match seqSlot s n kind with
  | some k => s.modSlot k fun x => { x with override := false }
  | none => s

theorem State.overrideEnds_keeps (s : State) (n : Fin 16) (kind : SeqKind) : Keeps [.loop] s (s.overrideEnds n kind) := by
  unfold State.overrideEnds
  split
  · exact State.modSlot_keeps ..
  · exact Keeps.refl _ _

/-- LP_SEQ_STATUS shows a result. -/
def State.noteResult (s : State) (n : Fin 16) (result : Nat) : State := s.setFld (R.LP_SEQ_STATUS n.val) F.LP_SEQ_STATUS_RESULT result

theorem State.noteResult_fld (s : State) (n : Fin 16) {result : Nat} (hr : result < 16) :
    (s.noteResult n result).fld (R.LP_SEQ_STATUS n.val) F.LP_SEQ_STATUS_RESULT = result :=
  (s.fld_setFld_self _ _ _ (by decide) (by decide)).trans (Nat.mod_eq_of_lt hr)

theorem State.noteResult_keeps (s : State) (n : Fin 16) (result : Nat) : Keeps [.regs] s (s.noteResult n result) := State.setFld_keeps ..

/-- LP_SEQ_STATUS shows a result, and that nothing runs. -/
def State.showResult (s : State) (n : Fin 16) (result : Nat) : State :=
  (s.noteResult n result).setFld (R.LP_SEQ_STATUS n.val) F.LP_SEQ_STATUS_RUNNING 0

/-- A sequence of head n is over, and LP_SEQ_STATUS shows it. -/
def State.sequenceOver (s : State) (n : Fin 16) (q : Sequence) (result : Nat) : State :=
  ((s.overrideEnds n q.kind).modLoopHead n fun h => { h with seq := none }).showResult n result

/-- The result goes to the bobbin, or to the HD.SEEK that runs the sequence. -/
def State.answerSequence (s : State) (n : Fin 16) (who : Option Waiter) (result : Nat) : State :=
  match who with
  | some w => s.complete w .device srcLoop (s.stamp .control) result 0
  | none => s.modHead n fun h => { h with seek := h.seek.map fun k => { k with note := some result } }

theorem State.sequenceOver_keeps (s : State) (n : Fin 16) (q : Sequence) (result : Nat) : Keeps [.regs, .loop] s (s.sequenceOver n q result) :=
  .step (State.setFld_keeps ..) rfl (.step (State.noteResult_keeps ..) rfl (.step (State.modLoopHead_keeps ..) rfl
    ((s.overrideEnds_keeps n q.kind).mono rfl)))

theorem State.sequenceOver_time (s : State) (n : Fin 16) (q : Sequence) (result : Nat) : (s.sequenceOver n q result).time = s.time :=
  (s.sequenceOver_keeps n q result).frame .time (by decide)

theorem State.endSequence_eq {s : State} {n : Fin 16} {q : Sequence} (h : (s.loopHead n).seq = some q) (result : Nat) :
    s.endSequence n result =
      ((s.sequenceOver n q result).logLoop 0x4006 n.val (seqNumber q.kind) result (s.now - q.t0)).answerSequence n q.who result := by
  have hnow : (s.sequenceOver n q result).now = s.now := congrArg TimeState.tb (s.sequenceOver_time n q result)
  rw [← hnow]
  unfold State.endSequence
  rw [h]
  rfl

theorem State.answerSequence_keeps (s : State) (n : Fin 16) (who : Option Waiter) (result : Nat) :
    Keeps [.heads, .seq] s (s.answerSequence n who result) := by
  unfold State.answerSequence
  split
  · exact (State.complete_keeps ..).mono rfl
  · exact (State.modHead_keeps ..).mono rfl

theorem State.answerSequence_head (s : State) (n : Fin 16) (who : Option Waiter) (result : Nat) :
    (s.answerSequence n who result).head n = { s.head n with seek := ((s.answerSequence n who result).head n).seek } := by
  unfold State.answerSequence
  split
  · rfl
  · rw [State.head_modHead_self]

theorem State.showResult_flds (s : State) (n : Fin 16) {result : Nat} (hr : result < 16) :
    (s.showResult n result).fld (R.LP_SEQ_STATUS n.val) F.LP_SEQ_STATUS_RESULT = result ∧
      (s.showResult n result).fld (R.LP_SEQ_STATUS n.val) F.LP_SEQ_STATUS_RUNNING = 0 := by
  refine ⟨?_, State.fld_setFld_self _ _ _ _ (by decide) (by decide)⟩
  rw [State.showResult, State.fld_setFld_other _ _ _ _ _ (by decide) (by decide) (by decide) (by decide), s.noteResult_fld n hr]

/-- No sequence runs any more, LP_SEQ_STATUS shows the result, and event 0x4006 is logged; of the head only the note for its HD.SEEK
changes. -/
theorem State.endSequence_ends {s : State} {n : Fin 16} {q : Sequence} (h : (s.loopHead n).seq = some q) {result : Nat} (hr : result < 16) :
    ((s.endSequence n result).loopHead n).seq = none ∧
      (s.endSequence n result).fld (R.LP_SEQ_STATUS n.val) F.LP_SEQ_STATUS_RESULT = result ∧
      (s.endSequence n result).fld (R.LP_SEQ_STATUS n.val) F.LP_SEQ_STATUS_RUNNING = 0 ∧
      (s.endSequence n result).events = (s.logLoop 0x4006 n.val (seqNumber q.kind) result (s.now - q.t0)).events ∧
      (s.endSequence n result).head n = { s.head n with seek := ((s.endSequence n result).head n).seek } := by
  rw [State.endSequence_eq h]
  have hover := s.sequenceOver_keeps n q result
  obtain ⟨hresult, hrunning⟩ := ((s.overrideEnds n q.kind).modLoopHead n fun h => { h with seq := none }).showResult_flds n hr
  have hlog := (s.sequenceOver n q result).logLoop_keeps 0x4006 n.val (seqNumber q.kind) result (s.now - q.t0)
  have hevents := State.logLoop_events_congr (hover.frame .events (by decide)) (s.sequenceOver_time n q result) 0x4006 n.val (seqNumber q.kind)
    result (s.now - q.t0)
  generalize (s.sequenceOver n q result).logLoop 0x4006 n.val (seqNumber q.kind) result (s.now - q.t0) = logged at hlog hevents
  have hanswer := logged.answerSequence_keeps n q.who result
  have hloop := (hanswer.frame .loop (by decide)).trans (hlog.frame .loop (by decide))
  have hreg (k : Nat) : (logged.answerSequence n q.who result).reg k = (s.sequenceOver n q result).reg k :=
    congrArg (storeGet regReset k) ((hanswer.frame .regs (by decide)).trans (hlog.frame .regs (by decide)))
  refine ⟨?_, (State.fld_congr (hreg _) _).trans hresult, (State.fld_congr (hreg _) _).trans hrunning,
    (hanswer.frame .events (by decide)).trans hevents, ?_⟩
  · rw [State.loopHead_congr hloop, State.sequenceOver, State.showResult, State.loopHead_congr (State.setFld_loop ..), State.noteResult,
      State.loopHead_congr (State.setFld_loop ..), State.loopHead_modLoopHead_self]
  · rw [State.answerSequence_head, State.head_congr ((hlog.frame .heads (by decide)).trans (hover.frame .heads (by decide)))]

theorem exec_sequenceTimeout_trackOn {s : State} {head : Fin 16} {q : Sequence} {e : Stamp} (hseq : (s.loopHead head).seq = some q)
    (hkind : q.kind = .trackOn) (hlimit : seqLimit s head q = some e) (hdue : e ≤ s.now) :
    exec (.sequenceTimeout head) s = .next (s.endSequence head 3) := by
  show execSequenceTimeout head s = _
  unfold execSequenceTimeout
  rw [hseq]
  dsimp only
  rw [hlimit, hkind]
  exact when_of_true (decide_eq_true hdue) _ _

theorem sequenceTimeout_ends (head : Fin 16) (q : Sequence) (e : Stamp) : Completes (.sequenceTimeout head)
    (fun s => (s.loopHead head).seq = some q ∧ q.kind = .trackOn ∧ seqLimit s head q = some e ∧ e ≤ s.now)
    [.events, .regs, .heads, .loop, .seq]
    fun s t => (t.loopHead head).seq = none ∧ t.fld (R.LP_SEQ_STATUS head.val) F.LP_SEQ_STATUS_RESULT = 3 ∧
        t.fld (R.LP_SEQ_STATUS head.val) F.LP_SEQ_STATUS_RUNNING = 0 ∧ RegsBut [R.LP_SEQ_STATUS head.val] s t ∧
        t.events = (s.logLoop 0x4006 head.val 3 3 (s.now - q.t0)).events := by
  refine Completes.of_keeps (execSequenceTimeout_keeps head) ?_
  rintro s - ⟨hseq, hkind, hlimit, hdue⟩
  obtain ⟨hnone, hresult, hrunning, hevents, -⟩ := State.endSequence_ends hseq (result := 3) (by decide)
  rw [hkind] at hevents
  exact ⟨_, exec_sequenceTimeout_trackOn hseq hkind hlimit hdue, hnone, hresult, hrunning, s.endSequence_regsBut head 3, hevents⟩

/-! ## A seam jump that misses its seam (R43, R188) -/

/-- No address is expected any more, and acceptance starts anew. -/
def State.addressLost (s : State) (n : Fin 16) : State :=
  (s.modHead n fun h => { h with fly := { h.fly with expected := none } }).dropAddress n none

theorem State.addressLost_only (s : State) (n : Fin 16) : FlyOnly [R.HD_FLY_STATUS n.val] n s (s.addressLost n) :=
  ((((FlyOnly.refl _ n s).modFly fun f => { f with expected := none }).modFly fun f => { f with firstWord := none }).setFld
    List.mem_cons_self _ _).updateReady List.mem_cons_self

theorem State.addressLost_spec (s : State) (n : Fin 16) :
    (s.addressLost n).flag (R.HD_FLY_STATUS n.val) F.HD_FLY_STATUS_ADDR_OK = false ∧ ((s.addressLost n).head n).fly.expected = none := by
  unfold State.addressLost State.dropAddress
  constructor
  · rw [State.updateReady_flag _ _ (by decide) (by decide)]
    exact State.flag_setFld_clear _ _ _ (by decide) (by decide)
  · rw [State.updateReady_fly]
    simp [State.head_congr (State.setFld_heads ..)]

theorem State.addressLost_keeps (s : State) (n : Fin 16) : Keeps [.regs, .heads] s (s.addressLost n) :=
  .step (State.dropAddress_keeps ..) rfl ((State.modHead_keeps ..).mono rfl)

theorem State.gateFails_of_not_writing {s : State} {n : Fin 16} (h : (s.head n).writingNow = false) (cause : Nat) : s.gateFails n cause = s := by
  rw [State.gateFails, h]
  rfl

/-- On a head that writes nothing and has no open waiting a disagreement costs the address alone. -/
theorem State.disagree_of_not_writing {s : State} {n : Fin 16} (hwriting : (s.head n).writingNow = false) (hopen : (s.head n).opening = none)
    (place word : Nat) :
    s.disagree n none place word =
      (s.logHead n 0x1301 ((s.head n).fly.expected.elim 0 fun x => addrPlace x.1 x.2) place word).addressLost n := by
  have hdis : s.disagree n none place word =
      (((s.logHead n 0x1301 ((s.head n).fly.expected.elim 0 fun x => addrPlace x.1 x.2) place word).addressLost n).gateFails n
        0).openNotReady n := rfl
  have hheads := s.logHead_heads n 0x1301 ((s.head n).fly.expected.elim 0 fun x => addrPlace x.1 x.2) place word
  generalize s.logHead n 0x1301 ((s.head n).fly.expected.elim 0 fun x => addrPlace x.1 x.2) place word = logged at hdis hheads
  have honly := logged.addressLost_only n
  rw [hdis, State.gateFails_of_not_writing, State.openNotReady_of_no_open]
  · rw [honly.opening, State.head_congr hheads, hopen]
  · rw [Head.writingNow, honly.pass, State.head_congr hheads]
    exact hwriting

/-- What that disagreement leaves. -/
theorem State.disagree_loses {s : State} {n : Fin 16} (hwriting : (s.head n).writingNow = false) (hopen : (s.head n).opening = none)
    (place word : Nat) :
    (s.disagree n none place word).flag (R.HD_FLY_STATUS n.val) F.HD_FLY_STATUS_ADDR_OK = false ∧
      ((s.disagree n none place word).head n).fly.expected = none ∧ RegsBut [R.HD_FLY_STATUS n.val] s (s.disagree n none place word) ∧
      (s.disagree n none place word).loop = s.loop ∧ (s.disagree n none place word).events =
        (s.logHead n 0x1301 ((s.head n).fly.expected.elim 0 fun x => addrPlace x.1 x.2) place word).events := by
  rw [State.disagree_of_not_writing hwriting hopen]
  have hlogged := s.logHead_keeps n 0x1301 ((s.head n).fly.expected.elim 0 fun x => addrPlace x.1 x.2) place word
  generalize s.logHead n 0x1301 _ place word = logged at *
  have honly := logged.addressLost_only n
  obtain ⟨hcleared, hexpected⟩ := logged.addressLost_spec n
  exact ⟨hcleared, hexpected, (regsBut_of_regs_eq (hlogged.frame .regs (by decide))).trans honly.regs,
    ((logged.addressLost_keeps n).frame .loop (by decide)).trans (hlogged.frame .loop (by decide)), honly.events⟩

/-- The tracking slot that a failed jump overrides is requested to RUN. -/
def State.jumpReleased (s : State) (k : Fin 96) : State := if (s.slot k).override then s.releaseToRun k else s

theorem State.jumpReleased_keeps (s : State) (k : Fin 96) : Keeps [.loop] s (s.jumpReleased k) := by
  unfold State.jumpReleased
  split
  · exact State.modSlot_keeps ..
  · exact Keeps.refl _ _

theorem State.jumpReleased_loopHead (s : State) (k : Fin 96) (n : Fin 16) : (s.jumpReleased k).loopHead n = s.loopHead n := by
  unfold State.jumpReleased
  split <;> rfl

/-- Two free values drawn, for the address and the word number that no word gave (log entry 150). -/
def State.drewPlace (s : State) : State := s.draw.2.draw.2

theorem State.jumpFails_eq (s : State) (n : Fin 16) (k : Fin 96) (result : Nat) :
    s.jumpFails n k result =
      (((s.jumpReleased k).endSequence n result).drewPlace).disagree n none (((s.jumpReleased k).endSequence n result).draw.1 % 2 ^ 23)
        (((s.jumpReleased k).endSequence n result).draw.2.draw.1 % 16) := rfl

theorem State.draws_congr {s t : State} (h : t.free = s.free) : t.draw.1 = s.draw.1 ∧ t.draw.2.draw.1 = s.draw.2.draw.1 := by
  unfold State.draw
  dsimp only
  rw [h]
  exact ⟨rfl, rfl⟩

theorem exec_seamJumpDeadline_awaiting {s : State} {head : Fin 16} {q : Sequence} {a d : Stamp} {n : Int} {k : Fin 96}
    (hseq : (s.loopHead head).seq = some q) (hkind : q.kind = .seamJump n) (hphase : q.phase = .awaitSeam a d) (hdue : d ≤ s.now)
    (hslot : trackSlot s head = some k) : exec (.seamJumpDeadline head) s = .next (s.jumpFails head k 5) := by
  show execSeamJumpDeadline head s = _
  unfold execSeamJumpDeadline
  rw [hseq]
  dsimp only
  rw [hkind, hphase, hslot]
  exact when_of_true (decide_eq_true hdue) _ _

theorem seqStatus_ne_flyStatus (n : Nat) : R.LP_SEQ_STATUS n ≠ R.HD_FLY_STATUS n := by
  unfold R.LP_SEQ_STATUS R.HD_FLY_STATUS
  omega

/-- What the end of a failed jump leaves for its disagreement. -/
theorem State.jumpEnded_spec {s : State} {n : Fin 16} {q : Sequence} {j : Int} (hseq : (s.loopHead n).seq = some q) (hkind : q.kind = .seamJump j)
    (k : Fin 96) {result : Nat} (hr : result < 16) :
    (((s.jumpReleased k).endSequence n result).loopHead n).seq = none ∧
      ((s.jumpReleased k).endSequence n result).fld (R.LP_SEQ_STATUS n.val) F.LP_SEQ_STATUS_RESULT = result ∧
      ((s.jumpReleased k).endSequence n result).fld (R.LP_SEQ_STATUS n.val) F.LP_SEQ_STATUS_RUNNING = 0 ∧
      ((s.jumpReleased k).endSequence n result).events = (s.logLoop 0x4006 n.val 4 result (s.now - q.t0)).events ∧
      ((s.jumpReleased k).endSequence n result).head n =
        { s.head n with seek := (((s.jumpReleased k).endSequence n result).head n).seek } ∧
      RegsBut [R.LP_SEQ_STATUS n.val] s ((s.jumpReleased k).endSequence n result) ∧
      Keeps [.events, .regs, .heads, .loop, .seq] s ((s.jumpReleased k).endSequence n result) := by
  have hreleased := s.jumpReleased_keeps k
  have htime : (s.jumpReleased k).time = s.time := hreleased.frame .time (by decide)
  have hnow : (s.jumpReleased k).now = s.now := congrArg TimeState.tb htime
  obtain ⟨hnone, hresult, hrunning, hevents, hhead⟩ :=
    State.endSequence_ends (s := s.jumpReleased k) ((congrArg LoopHead.seq (s.jumpReleased_loopHead k n)).trans hseq) hr
  rw [hnow, hkind] at hevents
  rw [State.head_congr (hreleased.frame .heads (by decide))] at hhead
  refine ⟨hnone, hresult, hrunning, hevents.trans (State.logLoop_events_congr (hreleased.frame .events (by decide)) htime ..), hhead, ?_,
    .step (State.endSequence_keeps ..) rfl (hreleased.mono rfl)⟩
  exact (regsBut_of_regs_eq (hreleased.frame .regs (by decide))).trans ((s.jumpReleased k).endSequence_regsBut n result)

theorem seamJumpDeadline_fails (head : Fin 16) (q : Sequence) (a d : Stamp) (k : Int) : Completes (.seamJumpDeadline head)
    (fun s => (s.loopHead head).seq = some q ∧ q.kind = .seamJump k ∧ q.phase = .awaitSeam a d ∧ d ≤ s.now ∧ (trackSlot s head).isSome = true ∧
        (s.head head).writingNow = false ∧ (s.head head).opening = none)
    [.events, .regs, .heads, .decode, .loop, .seq, .mem, .motion, .out, .free]
    fun s t => (t.loopHead head).seq = none ∧ t.fld (R.LP_SEQ_STATUS head.val) F.LP_SEQ_STATUS_RESULT = 5 ∧
        t.fld (R.LP_SEQ_STATUS head.val) F.LP_SEQ_STATUS_RUNNING = 0 ∧ t.flag (R.HD_FLY_STATUS head.val) F.HD_FLY_STATUS_ADDR_OK = false ∧
        (t.head head).fly.expected = none ∧ RegsBut [R.LP_SEQ_STATUS head.val, R.HD_FLY_STATUS head.val] s t ∧
        t.events = ((s.logLoop 0x4006 head.val 4 5 (s.now - q.t0)).logHead head 0x1301
          ((s.head head).fly.expected.elim 0 fun x => addrPlace x.1 x.2) (s.draw.1 % 2 ^ 23) (s.draw.2.draw.1 % 16)).events := by
  refine Completes.of_keeps (execSeamJumpDeadline_keeps head) ?_
  rintro s - ⟨hseq, hkind, hphase, hdue, hsome, hwriting, hopen⟩
  obtain ⟨j, hslot⟩ := Option.isSome_iff_exists.mp hsome
  have hexec := exec_seamJumpDeadline_awaiting hseq hkind hphase hdue hslot
  obtain ⟨hnone, hresult, hrunning, hevents, hhead, hregs, hkeeps⟩ := State.jumpEnded_spec hseq hkind j (result := 5) (by decide)
  rw [State.jumpFails_eq] at hexec
  generalize (s.jumpReleased j).endSequence head 5 = ended at *
  obtain ⟨hplace, hword⟩ := State.draws_congr (hkeeps.frame .free (by decide))
  have hsame : ended.drewPlace.head head = { s.head head with seek := (ended.head head).seek } := hhead
  have hexpects : (ended.drewPlace.head head).fly = (s.head head).fly := by rw [hsame]
  obtain ⟨hcleared, hexpected, hlost, hloop, hlog⟩ := State.disagree_loses (s := ended.drewPlace) (n := head) (by rw [hsame]; exact hwriting)
    (by rw [hsame, hopen]) (s.draw.1 % 2 ^ 23) (s.draw.2.draw.1 % 16)
  rw [hplace, hword] at hexec
  rw [hexpects] at hlog
  have htime : ended.drewPlace.time = (s.logLoop 0x4006 head.val 4 5 (s.now - q.t0)).time :=
    (hkeeps.frame .time (by decide)).trans (State.log_time ..).symm
  have hstatus := hlost (R.LP_SEQ_STATUS head.val) (by simpa using seqStatus_ne_flyStatus head.val)
  exact ⟨_, hexec, (congrArg LoopHead.seq (State.loopHead_congr hloop head)).trans hnone, (State.fld_congr hstatus _).trans hresult,
    (State.fld_congr hstatus _).trans hrunning, hcleared, hexpected, (hregs.mono (by simp)).trans (RegsBut.mono (s := ended) hlost (by simp)),
    hlog.trans (State.logHead_events_congr (t := ended.drewPlace) hevents htime ..)⟩

/-- Settles O46: a track-on past its time, and a seam jump past its seam. -/
theorem sequenceEnds : Obligations.SequenceEnds := ⟨sequenceTimeout_ends, seamJumpDeadline_fails⟩

end Sys2Proof.Machine
end

section
/-!
PROOFS. The beginning of a head sequence (R184 to R189, R234, R237): the engine holds it, or refuses it at once. Settles O47.
-/

namespace Sys2Proof.Machine

/-! ## A sequence begins (R184 to R188) -/

/-- The engine holds a sequence, and LP_SEQ_STATUS shows it with its counters at 0. -/
def State.holdSequence (s : State) (n : Fin 16) (q : Sequence) : State :=
  (((s.modLoopHead n fun h => { h with seq := some q }).setFld (R.LP_SEQ_STATUS n.val) F.LP_SEQ_STATUS_RUNNING (seqNumber q.kind)).showCount n
    F.LP_SEQ_STATUS_CROSS 0).showCount n F.LP_SEQ_STATUS_SCURVES 0

theorem State.holdSequence_seq (s : State) (n : Fin 16) (q : Sequence) : ((s.holdSequence n q).loopHead n).seq = some q := by
  rw [State.holdSequence, State.showCount, State.showCount, State.loopHead_congr (State.setFld_loop ..), State.loopHead_congr (State.setFld_loop ..),
    State.loopHead_congr (State.setFld_loop ..), State.loopHead_modLoopHead_self]

theorem State.holdSequence_running (s : State) (n : Fin 16) (q : Sequence) :
    (s.holdSequence n q).fld (R.LP_SEQ_STATUS n.val) F.LP_SEQ_STATUS_RUNNING = seqNumber q.kind := by
  unfold State.holdSequence State.showCount
  rw [State.fld_setFld_other _ _ _ _ _ (by decide) (by decide) (by decide) (by decide),
    State.fld_setFld_other _ _ _ _ _ (by decide) (by decide) (by decide) (by decide),
    State.fld_setFld_self _ _ _ _ (by decide) (by decide)]
  cases q.kind <;> rfl

section Refusal

variable {s : State} {n : Fin 16}

theorem exists_focusSlot_of_focus {l : Nat} (h : seqRefusal s n (.focus l) = none) : ∃ k, focusSlot s n = some k := by
  refine Option.ne_none_iff_exists'.mp fun hnone => ?_
  simp [seqRefusal, hnone] at h

theorem exists_focusSlot_of_layerJump {k : Int} (h : seqRefusal s n (.layerJump k) = none) : ∃ k, focusSlot s n = some k := by
  refine Option.ne_none_iff_exists'.mp fun hnone => ?_
  simp [seqRefusal, hnone] at h

theorem exists_nextSeam_of_seamJump {k : Int} (h : seqRefusal s n (.seamJump k) = none) : ∃ x, nextSeam s n s.now = some x := by
  refine Option.ne_none_iff_exists'.mp fun hnone => ?_
  simp [seqRefusal, hnone] at h

/-- Where nothing refuses it, the engine holds the sequence that was asked for, from this tick on. -/
theorem State.seqBegin_holds {kind : SeqKind} (h : seqRefusal s n kind = none) (who : Option Waiter) :
    ∃ (u : State) (q : Sequence), s.seqBegin n kind who = u.holdSequence n q ∧ q.kind = kind ∧ q.who = who ∧ q.t0 = s.now := by
  unfold State.seqBegin
  cases kind with
  | focus l =>
    obtain ⟨k, hk⟩ := exists_focusSlot_of_focus h
    simp only [hk]
    exact ⟨_, _, rfl, rfl, rfl, rfl⟩
  | layerJump d =>
    obtain ⟨k, hk⟩ := exists_focusSlot_of_layerJump h
    simp only [hk]
    exact ⟨_, _, rfl, rfl, rfl, rfl⟩
  | trackOn => exact ⟨_, _, rfl, rfl, rfl, rfl⟩
  | seamJump d =>
    obtain ⟨⟨rev, seam⟩, hx⟩ := exists_nextSeam_of_seamJump h
    simp only [hx]
    exact ⟨_, _, rfl, rfl, rfl, rfl⟩

end Refusal

/-! ## What a sequence instruction finds (R184, R237) -/

section Alike

variable {s t : State} (h : HeadsAlike s t)

include h

theorem HeadsAlike.trackSlot (n : Fin 16) : trackSlot t n = trackSlot s n := by
  unfold Machine.trackSlot
  rw [h.fld _ (by unfold R.LP_HEAD_MAP; omega)]

theorem HeadsAlike.hdLen (n : Fin 16) : t.hdLen n = s.hdLen n := h.flag _ (by unfold R.HD_LASER_STATUS; omega)

theorem HeadsAlike.nextSeam (n : Fin 16) (x : Stamp) : nextSeam t n x = nextSeam s n x := by
  have hfmt : fmtNow t n = fmtNow s n := by
    unfold fmtNow
    rw [h.head, h.reg (by unfold R.HD_FMT_CFG; omega)]
  unfold Machine.nextSeam predictAt
  rw [h.head, hfmt]

theorem HeadsAlike.seqRefusal (n : Fin 16) (kind : SeqKind) : seqRefusal t n kind = seqRefusal s n kind := by
  have hready : flyReady t n = flyReady s n := h.flyStatus n _
  unfold Machine.seqRefusal
  simp only [h.loopHead, h.head, h.slot, h.focusSlot, h.trackSlot, h.hdLen, h.nextSeam, h.now, hready]

end Alike

section Sequences

variable {s : State} {b : Fin 24} {u : Upset} {i : Ins} {n : Fin 16} {kind : SeqKind}

/-- Where neither a seek nor an open is in progress and nothing refuses it, the sequence begins with the instruction's tag. -/
theorem State.sequenceArrives_begins (i : Ins) (hseek : (s.head n).seek = none) (hopen : (s.head n).opening = none)
    (h : Machine.seqRefusal s n kind = none) :
    (((s.began b i).sequenceArrives n kind (waiterOf s b)).loopHead n).seq.map (fun q => (q.kind, q.who, q.t0)) =
        some (kind, some (waiterOf s b), s.now) ∧
      ((s.began b i).sequenceArrives n kind (waiterOf s b)).fld (R.LP_SEQ_STATUS n.val) F.LP_SEQ_STATUS_RUNNING = seqNumber kind ∧
      Tagged b i s ((s.began b i).sequenceArrives n kind (waiterOf s b)) := by
  have halike := s.began_headsAlike b i
  rw [← halike.seqRefusal] at h
  have hbegins : (s.began b i).sequenceArrives n kind (waiterOf s b) = (s.began b i).seqBegin n kind (some (waiterOf s b)) := by
    rw [State.sequenceArrives, halike.head, hseek, hopen, if_neg (by simp), h]
  have htag : Tagged b i s ((s.began b i).seqBegin n kind (some (waiterOf s b))) :=
    State.tagged_of_seq_eq ((State.seqBegin_keeps ..).frame .seq (by decide))
  obtain ⟨v, q, hholds, hkind, hwho, ht0⟩ := State.seqBegin_holds h (some (waiterOf s b))
  rw [hbegins]
  rw [hholds] at htag ⊢
  refine ⟨?_, ?_, htag⟩
  · rw [State.holdSequence_seq, Option.map_some, hkind, hwho, ht0, halike.now]
  · rw [State.holdSequence_running, hkind]

/-- The entry that answers a sequence instruction. -/
def loopEntry (s : State) (b : Fin 24) (result : Nat) : EvEntry :=
  ⟨s.stamp .control, (s.bob b).nextTag b.val, .device, result, 0, srcLoop, (s.bob b).epoch, false⟩

theorem State.completeLoop_posts {s t v : State} {x : Stamp} (hseq : v.seq = t.seq) (hx : x = s.stamp .control) (b : Fin 24) {result : Nat}
    (hr : result < 256) : Posts b (loopEntry s b result) t (v.complete (waiterOf s b) .device srcLoop x result 0) := by
  subst hx
  unfold State.complete State.sendEntry loopEntry waiterOf
  rw [Nat.mod_eq_of_lt hr]
  refine ⟨?_, (Elsewhere.of_seq_eq hseq).trans (v.elsewhere_modBob _ _)⟩
  rw [State.bob_modBob_self, State.bob_congr hseq]
  rfl

/-- A sequence that is refused ends at once: the result is in LP_SEQ_STATUS, in event 0x4006 and in the answer. -/
theorem State.began_refused (s : State) (b : Fin 24) (i : Ins) (n : Fin 16) (kind : SeqKind) {result : Nat} (hr : result < 16) :
    (((s.began b i).sequenceRefused n kind result (waiterOf s b)).bob b).arriving = (s.bob b).arriving ++ [loopEntry s b result] ∧
      Tagged b i s ((s.began b i).sequenceRefused n kind result (waiterOf s b)) ∧
      ((s.began b i).sequenceRefused n kind result (waiterOf s b)).fld (R.LP_SEQ_STATUS n.val) F.LP_SEQ_STATUS_RESULT = result ∧
      RegsBut [R.SQ_BOB_ISSUED b.val, R.LP_SEQ_STATUS n.val] s ((s.began b i).sequenceRefused n kind result (waiterOf s b)) ∧
      ((s.began b i).sequenceRefused n kind result (waiterOf s b)).loop = s.loop ∧
      ((s.began b i).sequenceRefused n kind result (waiterOf s b)).events = (s.logLoop 0x4006 n.val (seqNumber kind) result 0).events := by
  obtain ⟨-, hloop, htime, -⟩ := s.began_headsAlike b i
  have hevents : (s.began b i).events = s.events := s.issued_events b i.next
  have hnoted := (s.began b i).noteResult_keeps n result
  have hresult := (s.began b i).noteResult_fld n hr
  have hbut := (s.began b i).regsBut_setFld (R.LP_SEQ_STATUS n.val) F.LP_SEQ_STATUS_RESULT result
  have hrefused : (s.began b i).sequenceRefused n kind result (waiterOf s b) =
      (((s.began b i).noteResult n result).logLoop 0x4006 n.val (seqNumber kind) result 0).complete (waiterOf s b) .device srcLoop
        (((s.began b i).noteResult n result).stamp .control) result 0 := rfl
  rw [← State.noteResult] at hbut
  generalize (s.began b i).noteResult n result = noted at *
  have htime' : noted.time = s.time := (hnoted.frame .time (by decide)).trans htime
  have hlog := State.logLoop_events_congr (s := s) (t := noted) ((hnoted.frame .events (by decide)).trans hevents) htime' 0x4006 n.val
    (seqNumber kind) result 0
  have hlogged := noted.logLoop_keeps 0x4006 n.val (seqNumber kind) result 0
  generalize noted.logLoop 0x4006 n.val (seqNumber kind) result 0 = logged at *
  have hposts := State.completeLoop_posts (s := s) (t := s.began b i) ((hlogged.frame .seq (by decide)).trans (hnoted.frame .seq (by decide)))
    (State.stamp_congr htime' .control) b (result := result) (by omega)
  have hanswer := logged.complete_keeps (waiterOf s b) .device srcLoop (noted.stamp .control) result 0
  have hreg := regsBut_of_regs_eq (ks := []) ((hanswer.frame .regs (by decide)).trans (hlogged.frame .regs (by decide)))
  rw [hrefused]
  refine ⟨?_, (State.tagged_of_seq_eq rfl).posts hposts, (State.fld_congr (hreg _ (by simp)) _).trans hresult, ?_, ?_,
    (hanswer.frame .events (by decide)).trans hlog⟩
  · rw [hposts.1, ← s.began_arriving b i]
  · exact ((s.began_starts b i).2.2.mono (by simp)).trans ((hbut.mono (by simp)).trans (hreg.mono (by simp)))
  · exact ((hanswer.frame .loop (by decide)).trans (hlogged.frame .loop (by decide))).trans ((hnoted.frame .loop (by decide)).trans hloop)

theorem State.sequenceArrives_busy (i : Ins) {x : SeekReq} (hseek : (s.head n).seek = some x) :
    (s.began b i).sequenceArrives n kind (waiterOf s b) = (s.began b i).sequenceRefused n kind 8 (waiterOf s b) := by
  rw [State.sequenceArrives, (s.began_headsAlike b i).head, hseek]
  exact if_pos (.inl rfl)

theorem State.sequenceArrives_refused (i : Ins) {r : Nat} (hseek : (s.head n).seek = none) (hopen : (s.head n).opening = none)
    (h : Machine.seqRefusal s n kind = some r) :
    (s.began b i).sequenceArrives n kind (waiterOf s b) = (s.began b i).sequenceRefused n kind r (waiterOf s b) := by
  rw [State.sequenceArrives, (s.began_headsAlike b i).head, hseek, hopen, if_neg (by simp), (s.began_headsAlike b i).seqRefusal, h]

/-- HD_LEN low refuses a focus acquisition that nothing else refuses (R185). -/
theorem seqRefusal_focus_dark {l : Nat} (hseq : (s.loopHead n).seq = none) (husable : (s.head n).link.usable = true)
    (hfocus : (focusSlot s n).any (fun k => (s.slot k).st != .disabled) = true) (hdark : s.hdLen n = false) :
    Machine.seqRefusal s n (.focus l) = some 1 := by
  obtain ⟨k, hk, hst⟩ := (Option.any_eq_true _ _).mp hfocus
  simp [Machine.seqRefusal, hseq, husable, hk, bne_iff_ne.mp hst, hdark]

end Sequences

/-! ## HD.FOCUS and HD.TRKON (R185, R187) -/

theorem exec_hdFocus_begins {s : State} {b : Fin 24} {u : Upset} {i : Ins} {n : Fin 16} (hi : Issues s b u i) (hop : i.op = 0x53)
    (ha : AimsAt s b i famHD n) (hroom : (s.bob b).occupied < 32) :
    exec (.hdFocus b u) s = .next ((s.began b i).sequenceArrives n (.focus ((valB s b i).toNat % 16)) (waiterOf s b)) :=
  exec_begins_of_aims (c := .hdFocus b u) (w := fun w t => t.sequenceArrives n (.focus ((valB s b i).toNat % 16)) w) hi hop
    (.refl (execHdFocus b u s)) ha hroom (by rw [State.g_issued_rb (fetchIns_ext hi.2.1 (by rw [hop]; rfl))])

theorem exec_hdTrkon_begins {s : State} {b : Fin 24} {u : Upset} {i : Ins} {n : Fin 16} (hi : Issues s b u i) (hop : i.op = 0x55)
    (ha : AimsAt s b i famHD n) (hroom : (s.bob b).occupied < 32) :
    exec (.hdTrkon b u) s = .next ((s.began b i).sequenceArrives n .trackOn (waiterOf s b)) :=
  exec_begins_of_aims (c := .hdTrkon b u) (w := fun w t => t.sequenceArrives n .trackOn w) hi hop (.refl (execHdTrkon b u s)) ha hroom rfl

theorem hdFocus_begins (b : Fin 24) (u : Upset) (i : Ins) (n : Fin 16) : Completes (.hdFocus b u)
    (fun s => Issues s b u i ∧ i.op = 0x53 ∧ AimsAt s b i famHD n ∧ (s.bob b).occupied < 32 ∧ (s.head n).seek = none ∧ (s.head n).opening = none ∧
        seqRefusal s n (.focus ((valB s b i).toNat % 16)) = none)
    [.events, .regs, .loop, .seq]
    fun s t => (t.loopHead n).seq.map (fun q => (q.kind, q.who, q.t0)) = some (.focus ((valB s b i).toNat % 16), some (waiterOf s b), s.now) ∧
        t.fld (R.LP_SEQ_STATUS n.val) F.LP_SEQ_STATUS_RUNNING = 1 ∧ Tagged b i s t := by
  refine Completes.of_keeps (execHdFocus_keeps b u) ?_
  rintro s - ⟨hi, hop, ha, hroom, hseek, hopen, hfree⟩
  exact ⟨_, exec_hdFocus_begins hi hop ha hroom, State.sequenceArrives_begins i hseek hopen hfree⟩

theorem hdFocus_dark (b : Fin 24) (u : Upset) (i : Ins) (n : Fin 16) : Completes (.hdFocus b u)
    (fun s => Issues s b u i ∧ i.op = 0x53 ∧ AimsAt s b i famHD n ∧ (s.bob b).occupied < 32 ∧ (s.head n).seek = none ∧ (s.head n).opening = none ∧
        (s.loopHead n).seq = none ∧ (s.head n).link.usable = true ∧ (focusSlot s n).any (fun k => (s.slot k).st != .disabled) = true ∧ s.hdLen n = false)
    [.events, .regs, .loop, .seq]
    fun s t => (t.bob b).arriving = (s.bob b).arriving ++ [⟨s.stamp .control, (s.bob b).nextTag b.val, .device, 1, 0, srcLoop, (s.bob b).epoch, false⟩] ∧
        Tagged b i s t ∧ t.fld (R.LP_SEQ_STATUS n.val) F.LP_SEQ_STATUS_RESULT = 1 ∧
        RegsBut [R.SQ_BOB_ISSUED b.val, R.LP_SEQ_STATUS n.val] s t ∧ t.loop = s.loop ∧ t.events = (s.logLoop 0x4006 n.val 1 1 0).events := by
  refine Completes.of_keeps (execHdFocus_keeps b u) ?_
  rintro s - ⟨hi, hop, ha, hroom, hseek, hopen, hseq, husable, hfocus, hdark⟩
  have hexec := exec_hdFocus_begins hi hop ha hroom
  rw [State.sequenceArrives_refused i hseek hopen (seqRefusal_focus_dark hseq husable hfocus hdark)] at hexec
  exact ⟨_, hexec, s.began_refused b i n (.focus ((valB s b i).toNat % 16)) (by decide)⟩

theorem hdTrkon_begins (b : Fin 24) (u : Upset) (i : Ins) (n : Fin 16) : Completes (.hdTrkon b u)
    (fun s => Issues s b u i ∧ i.op = 0x55 ∧ AimsAt s b i famHD n ∧ (s.bob b).occupied < 32 ∧ (s.head n).seek = none ∧ (s.head n).opening = none ∧
        seqRefusal s n .trackOn = none)
    [.events, .regs, .loop, .seq]
    fun s t => (t.loopHead n).seq.map (fun q => (q.kind, q.who, q.t0)) = some (.trackOn, some (waiterOf s b), s.now) ∧
        t.fld (R.LP_SEQ_STATUS n.val) F.LP_SEQ_STATUS_RUNNING = 3 ∧ Tagged b i s t := by
  refine Completes.of_keeps (execHdTrkon_keeps b u) ?_
  rintro s - ⟨hi, hop, ha, hroom, hseek, hopen, hfree⟩
  exact ⟨_, exec_hdTrkon_begins hi hop ha hroom, State.sequenceArrives_begins i hseek hopen hfree⟩

theorem hdTrkon_busy (b : Fin 24) (u : Upset) (i : Ins) (n : Fin 16) (k : SeekReq) : Completes (.hdTrkon b u)
    (fun s => Issues s b u i ∧ i.op = 0x55 ∧ AimsAt s b i famHD n ∧ (s.bob b).occupied < 32 ∧ (s.head n).seek = some k)
    [.events, .regs, .loop, .seq]
    fun s t => (t.bob b).arriving = (s.bob b).arriving ++ [⟨s.stamp .control, (s.bob b).nextTag b.val, .device, 8, 0, srcLoop, (s.bob b).epoch, false⟩] ∧
        Tagged b i s t ∧ t.fld (R.LP_SEQ_STATUS n.val) F.LP_SEQ_STATUS_RESULT = 8 ∧
        RegsBut [R.SQ_BOB_ISSUED b.val, R.LP_SEQ_STATUS n.val] s t ∧ t.loop = s.loop ∧ t.events = (s.logLoop 0x4006 n.val 3 8 0).events := by
  refine Completes.of_keeps (execHdTrkon_keeps b u) ?_
  rintro s - ⟨hi, hop, ha, hroom, hseek⟩
  have hexec := exec_hdTrkon_begins hi hop ha hroom
  rw [State.sequenceArrives_busy i hseek] at hexec
  exact ⟨_, hexec, s.began_refused b i n .trackOn (by decide)⟩

/-! ## HD.LJUMP and HD.SJUMP (R186, R188) -/

/-- A sequence instruction whose operand is a signed count, at most `most` and not 0. -/
def jumpIns (s : State) (b : Fin 24) (u : Upset) (op most : Nat) (kind : Int → SeqKind) : Result :=
  s.headIns b u op fun n i t =>
    match countIn (t.g b i.rb) most with
    | none => .error 6
    | some k => t.async b i true fun w t => t.sequenceArrives n (kind k) w

theorem exec_hdLjump_eq (b : Fin 24) (u : Upset) (s : State) : exec (.hdLjump b u) s = jumpIns s b u 0x54 15 .layerJump := rfl
theorem exec_hdSjump_eq (b : Fin 24) (u : Upset) (s : State) : exec (.hdSjump b u) s = jumpIns s b u 0x56 12 .seamJump := rfl

theorem countIn_toNat (x : DWord) (most : Nat) :
    countIn x.toNat most = if x.toInt ≠ 0 ∧ x.toInt.natAbs ≤ most then some x.toInt else none := by
  rw [countIn, sx, toSigned_toNat, BitVec.setWidth_eq]

section Jump

variable {s : State} {b : Fin 24} {u : Upset} {i : Ins} {n : Fin 16} {c : Instr} {op most : Nat} {kind : Int → SeqKind}
  (hc : exec c s = jumpIns s b u op most kind) (hshort : hasLong op = false) (hi : Issues s b u i) (hop : i.op = op) (ha : AimsAt s b i famHD n)

include hshort hi hop

theorem Issues.countIn_rb (most : Nat) : countIn ((s.issued b i.next).g b i.rb) most =
    if (valB s b i).toInt ≠ 0 ∧ (valB s b i).toInt.natAbs ≤ most then some (valB s b i).toInt else none := by
  rw [State.g_issued_rb (fetchIns_ext hi.2.1 (by rw [hop, hshort])), countIn_toNat]

include hc ha

theorem exec_jump_begins (hroom : (s.bob b).occupied < 32) (hzero : (valB s b i).toInt ≠ 0) (hmost : (valB s b i).toInt.natAbs ≤ most) :
    exec c s = .next ((s.began b i).sequenceArrives n (kind (valB s b i).toInt) (waiterOf s b)) :=
  exec_begins_of_aims (w := fun w t => t.sequenceArrives n (kind (valB s b i).toInt) w) hi hop hc ha hroom
    (by rw [Issues.countIn_rb hshort hi hop, if_pos ⟨hzero, hmost⟩])

/-- An operand of 0 or out of range is exception 6 (R234), and the loop engine stays as it is. -/
theorem exec_jump_excepts (hrange : (valB s b i).toInt = 0 ∨ most < (valB s b i).toInt.natAbs) :
    ∃ t, exec c s = .next t ∧ Excepts b i 6 i.word s t ∧ t.loop = s.loop := by
  have hnone : countIn ((s.issued b i.next).g b i.rb) most = none := by
    rw [Issues.countIn_rb hshort hi hop, if_neg (by omega)]
  refine ⟨_, exec_excepts_of_aims (e := 6) hi hop hc ha (by decide) (by rw [hnone]), s.takeException_excepts b i 6 _ (by decide), ?_⟩
  rw [(State.takeException_keeps ..).frame .loop (by decide), State.issued_loop]

end Jump

theorem hdLjump_begins (b : Fin 24) (u : Upset) (i : Ins) (n : Fin 16) (k : Int) : Completes (.hdLjump b u)
    (fun s => Issues s b u i ∧ i.op = 0x54 ∧ AimsAt s b i famHD n ∧ (s.bob b).occupied < 32 ∧ (s.head n).seek = none ∧ (s.head n).opening = none ∧
        (valB s b i).toInt = k ∧ k ≠ 0 ∧ k.natAbs ≤ 15 ∧ seqRefusal s n (.layerJump k) = none)
    [.events, .regs, .loop, .seq]
    fun s t => (t.loopHead n).seq.map (fun q => (q.kind, q.who, q.t0)) = some (.layerJump k, some (waiterOf s b), s.now) ∧
        t.fld (R.LP_SEQ_STATUS n.val) F.LP_SEQ_STATUS_RUNNING = 2 ∧ Tagged b i s t := by
  refine Completes.of_keeps (execHdLjump_keeps b u) ?_
  rintro s - ⟨hi, hop, ha, hroom, hseek, hopen, rfl, hzero, hmost, hfree⟩
  exact ⟨_, exec_jump_begins (exec_hdLjump_eq b u s) rfl hi hop ha hroom hzero hmost, State.sequenceArrives_begins i hseek hopen hfree⟩

theorem hdLjump_excepts (b : Fin 24) (u : Upset) (i : Ins) (n : Fin 16) : Completes (.hdLjump b u)
    (fun s => Issues s b u i ∧ i.op = 0x54 ∧ AimsAt s b i famHD n ∧ ((valB s b i).toInt = 0 ∨ 15 < (valB s b i).toInt.natAbs))
    [.events, .regs, .loop, .seq]
    fun s t => Excepts b i 6 i.word s t ∧ t.loop = s.loop := by
  refine Completes.of_keeps (execHdLjump_keeps b u) ?_
  rintro s - ⟨hi, hop, ha, hrange⟩
  exact exec_jump_excepts (exec_hdLjump_eq b u s) rfl hi hop ha hrange

theorem hdSjump_begins (b : Fin 24) (u : Upset) (i : Ins) (n : Fin 16) (k : Int) : Completes (.hdSjump b u)
    (fun s => Issues s b u i ∧ i.op = 0x56 ∧ AimsAt s b i famHD n ∧ (s.bob b).occupied < 32 ∧ (s.head n).seek = none ∧ (s.head n).opening = none ∧
        (valB s b i).toInt = k ∧ k ≠ 0 ∧ k.natAbs ≤ 12 ∧ seqRefusal s n (.seamJump k) = none)
    [.events, .regs, .loop, .seq]
    fun s t => (t.loopHead n).seq.map (fun q => (q.kind, q.who, q.t0)) = some (.seamJump k, some (waiterOf s b), s.now) ∧
        t.fld (R.LP_SEQ_STATUS n.val) F.LP_SEQ_STATUS_RUNNING = 4 ∧ Tagged b i s t := by
  refine Completes.of_keeps (execHdSjump_keeps b u) ?_
  rintro s - ⟨hi, hop, ha, hroom, hseek, hopen, rfl, hzero, hmost, hfree⟩
  exact ⟨_, exec_jump_begins (exec_hdSjump_eq b u s) rfl hi hop ha hroom hzero hmost, State.sequenceArrives_begins i hseek hopen hfree⟩

theorem hdSjump_excepts (b : Fin 24) (u : Upset) (i : Ins) (n : Fin 16) : Completes (.hdSjump b u)
    (fun s => Issues s b u i ∧ i.op = 0x56 ∧ AimsAt s b i famHD n ∧ ((valB s b i).toInt = 0 ∨ 12 < (valB s b i).toInt.natAbs))
    [.events, .regs, .loop, .seq]
    fun s t => Excepts b i 6 i.word s t ∧ t.loop = s.loop := by
  refine Completes.of_keeps (execHdSjump_keeps b u) ?_
  rintro s - ⟨hi, hop, ha, hrange⟩
  exact exec_jump_excepts (exec_hdSjump_eq b u s) rfl hi hop ha hrange

/-- Settles O47: the four instructions, each where its sequence begins and where it does not, by its own lemma. -/
theorem headSequences : Obligations.HeadSequences :=
  ⟨hdFocus_begins, hdFocus_dark, hdLjump_begins, hdLjump_excepts, hdTrkon_begins, hdSjump_begins, hdSjump_excepts, hdTrkon_busy⟩

end Sys2Proof.Machine
end
